-- ==== Sys2Proof/Word.lean ====
section
/-!
DEFINITION. The word types of the module and the plainest containers: one value per lane, one value per host port,
and sparse maps from an index to a value.
-/

namespace Sys2Proof

/-- A 32-bit word: registers, Press words, W space (R9, R78, R86). -/
abbrev Word := BitVec 32
/-- A byte of a frame, a descriptor or a record. -/
abbrev Byte := BitVec 8
/-- Global time in ns since 2000-01-01 TAI (R51). -/
abbrev Time := BitVec 64

/-- The three processing lanes (R13). -/
inductive Lane where
  | A
  | B
  | C
deriving DecidableEq, Repr

/-- The two host ports (R295). -/
inductive Port where
  | p0
  | p1
deriving DecidableEq, Repr

/-- The two media of an Alusk segment (R199). -/
inductive Medium where
  | X
  | Y
deriving DecidableEq, Repr

/-- The two sides of a ring (R204). -/
inductive Side where
  | A
  | B
deriving DecidableEq, Repr

/-- One value for each lane. -/
structure PerLane (α : Type) where
  a : α
  b : α
  c : α
deriving DecidableEq, Repr

/-- The value of one lane. -/
def PerLane.get {α : Type} (p : PerLane α) : Lane → α
  | .A => p.a
  | .B => p.b
  | .C => p.c

/-- Replace the value of one lane. -/
def PerLane.set {α : Type} (p : PerLane α) (l : Lane) (x : α) : PerLane α :=
  match l with
  | .A => { p with a := x }
  | .B => { p with b := x }
  | .C => { p with c := x }

/-- Apply a function to every lane's value. -/
def PerLane.map {α β : Type} (f : Lane → α → β) (p : PerLane α) : PerLane β :=
  { a := f .A p.a, b := f .B p.b, c := f .C p.c }

/-- The same value for every lane. -/
def PerLane.all {α : Type} (x : α) : PerLane α := { a := x, b := x, c := x }

/-- One value for each host port. -/
structure PerPort (α : Type) where
  p0 : α
  p1 : α
deriving DecidableEq, Repr

/-- The value of one port. -/
def PerPort.get {α : Type} (p : PerPort α) : Port → α
  | .p0 => p.p0
  | .p1 => p.p1

/-- Replace the value of one port. -/
def PerPort.set {α : Type} (p : PerPort α) (q : Port) (x : α) : PerPort α :=
  match q with
  | .p0 => { p with p0 := x }
  | .p1 => { p with p1 := x }

/-- A sparse map: (index, value) pairs, indices strictly rising, no value equal to the default. -/
abbrev Sparse (α : Type) := List (Nat × α)
/-- A set of indices (the bits of a space that are 1), strictly rising. -/
abbrev BitSpace := List Nat

/-- The lanes in ascending letter. -/
def Lane.list : List Lane := [.A, .B, .C]

/-- The other two lanes, lower letter first. -/
def Lane.others : Lane → Lane × Lane
  | .A => (.B, .C)
  | .B => (.A, .C)
  | .C => (.A, .B)

/-- Lane number 0, 1, 2. -/
def Lane.idx : Lane → Nat
  | .A => 0
  | .B => 1
  | .C => 2

/-- Lane number 1, 2 or 3 as frames, records and EIC_INFO carry it (R184, R401). -/
def Lane.num (l : Lane) : Nat := l.idx + 1

/-- Port number 0 or 1. -/
def Port.idx : Port → Nat
  | .p0 => 0
  | .p1 => 1

/-- The ring lane of a port (R295). -/
def Port.ringLane : Port → Lane
  | .p0 => .A
  | .p1 => .B

/-- Medium number: 0 for X, 1 for Y. -/
def Medium.idx : Medium → Nat
  | .X => 0
  | .Y => 1

/-- The other medium. -/
def Medium.other : Medium → Medium
  | .X => .Y
  | .Y => .X

/-- The other port. -/
def Port.other : Port → Port
  | .p0 => .p1
  | .p1 => .p0

end Sys2Proof
end

