-- ==== Sys2Proof/Syntax.lean ====
section
/-!
DEFINITION. The commands the block takes: one constructor of Instr for each row of spec/opcode_table.json, with the
operands the row's rule names, and the operand types: vintages and their tables, frames, descriptors, authorisations.
-/

namespace Sys2Proof

/-! ### Tables of a vintage (R119, R121, R219, R223, R288) -/

/-- KIND of an element descriptor (R119). -/
inductive ElemKind where
  | undefined
  /-- SECTION (R119); the word itself is one of Lean. -/
  | track
  | point
  | gate
  | transfer
  | signal
  | virt
deriving DecidableEq, Repr

/-- A 64-byte element descriptor (R119). References are the 32-bit words of R120. -/
structure ElemDesc where
  kind : ElemKind
  flags : BitVec 8
  guard : BitVec 16
  inA : Word
  inB : Word
  moveTimeout : BitVec 16
  aspectOut : List Word
  check : BitVec 64
deriving DecidableEq, Repr

/-- A 512-byte route record (R121). Terms are the 32-bit words of R122. -/
structure RouteRec where
  route : BitVec 16
  flags : BitVec 16
  pathGroups : Nat
  overlapGroups : Nat
  startSignal : BitVec 16
  approach : BitVec 16
  exit : BitVec 16
  approachTime : BitVec 16
  overlapTime : BitVec 16
  settingTime : BitVec 16
  aspect : List Word
  terms : List Word
  check : BitVec 64
deriving DecidableEq, Repr

/-- Parameters of one station of the station list (R215, R223, R237, R238, R240). -/
structure StationCfg where
  node : BitVec 10
  segment : Fin 4
  points : Nat
  sid : BitVec 30
  miss : Nat
  timeout : Nat
  hostAdmission : Bool
  safe : BitSpace
  configCheck : Word
  tReady : Nat
  tApply : Nat
deriving DecidableEq, Repr

/-- Parameters of one peer interlocking (R242); where the peer is a twin pair, otherSid is the MODULE_SID of its other module, else that of
the same module (R332). -/
structure PeerCfg where
  node : BitVec 10
  segment : Fin 4
  sid : BitVec 30
  otherSid : BitVec 30
  miss : Nat
  timeoutMs : Nat
  hostAdmission : Bool
  safe : BitSpace
deriving DecidableEq, Repr

/-- KIND of a schedule entry (R219). -/
inductive SlotKind where
  | sync
  | stationIn
  | peerIn
  | twin
  | stationOut
  | peerOut
  | delay
deriving DecidableEq, Repr

/-- A schedule entry (R219). -/
structure SlotEntry where
  start : Nat
  length : Nat
  kind : SlotKind
  up : Bool
  sender : BitVec 10
  receiver : BitVec 16
  session : Nat
deriving DecidableEq, Repr

/-- Configuration of a local input (R288): filter time in units of 50 µs and assigned test-pulse source. -/
structure InputCfg where
  filter : Nat
  source : Option (Fin 8)
deriving DecidableEq, Repr

/-- Configuration of an input pair (R288): discrepancy time in units of 10 µs. -/
structure PairCfg where
  dual : Bool
  disc10us : Nat
  startTest : Bool
deriving DecidableEq, Repr

/-- Configuration of a local output (R288): periods in s. -/
structure OutputCfg where
  offTest : Bool
  offPeriod : Nat
  onTest : Bool
  onPeriod : Nat
  openWireEn : Bool
deriving DecidableEq, Repr

/-- Edge mode of a counter input (R288). -/
inductive EdgeMode where
  | unused
  | rising
  | falling
  | both
deriving DecidableEq, Repr

/-- Configuration of a counter input (R253, R288). -/
structure CounterCfg where
  mode : EdgeMode
  countWord : Nat
deriving DecidableEq, Repr

/-- The local I/O configuration of a vintage (R288), its 512 bytes as 32 words of 16 bytes, and the retired channels
that the lanes add from the Cellar (R281). -/
structure LocalCfg where
  inputs : List InputCfg
  pairs : List PairCfg
  outputs : List OutputCfg
  counters : List CounterCfg
  tpPeriodMs : Nat
  crossTimeoutUs : Nat
  words : List (BitVec 128)
deriving DecidableEq, Repr

/-- One entry of the carry map (R441): SPACE, its three bytes of 0, and the two ranges. -/
structure CarryEntry where
  space : BitVec 8
  rsv : BitVec 24
  newStart : Nat
  oldStart : Nat
  length : Nat
deriving DecidableEq, Repr

/-- Rate limit of a Cellar code set by the vintage (R404, R412): rate in 0.1 per second. -/
structure RateLimit where
  code : BitVec 16
  rate : BitVec 16
  burst : BitVec 8
deriving DecidableEq, Repr

/-- A vintage: the image that it came in, byte by byte, as the stores keep it (R426, R429), and what its header, program, tables and
parameters say. -/
structure Vintage where
  image : List Byte
  number : Word
  base : Word
  paramCheck : BitVec 64
  timingCheck : Word
  localIoCheck : Word
  minFw : Word
  period : Nat
  endInput : Nat
  endLogic : Nat
  endVote : Nat
  endOutput : Nat
  code : List (List Word)
  elements : Sparse ElemDesc
  routes : Sparse RouteRec
  presets : Sparse Nat
  stations : List StationCfg
  peers : List PeerCfg
  schedule : List (List SlotEntry)
  rings : BitVec 4
  localIo : LocalCfg
  carry : List CarryEntry
  moduleSid : BitVec 30
  partnerSid : BitVec 30
  hostSid : PerPort Word
  node : BitVec 10
  twin : Bool
  admitBase : Nat
  timeWindowMs : Nat
  bistInterval : Nat
  marchEvery : Nat
  limits : List RateLimit
deriving DecidableEq, Repr

/-- The header of a firmware delta (R447). -/
structure FwDelta where
  oldVersion : Word
  oldCheck : BitVec 64
  newVersion : Word
  newCheck : BitVec 64
  newLength : Nat
  floor : Word
  park : Bool
deriving DecidableEq, Repr

/-- A full firmware image offered to a recovery ROM (R452): its bytes, the CRC-64/XZ that comes with it, the verdict on its signature, and
its version and FLOOR, whose places in the image are not published. -/
structure FwImage where
  data : List Byte
  carried : BitVec 64
  signatureOk : Bool
  version : Word
  floor : Word
deriving DecidableEq, Repr

/-! ### Frames, authorisation and events -/

/-- An Alusk frame (R212). -/
structure Frame where
  type : Byte
  flags : Byte
  source : BitVec 16
  dest : BitVec 16
  length : BitVec 16
  cycle : BitVec 16
  epoch : BitVec 16
  sequence : Word
  time : Time
  payload : List Byte
  trailer : Byte
  code1 : Word
  code2 : Word
  fcs : Word
deriving DecidableEq, Repr

/-- A received copy of a frame: segment, medium, side, and the start of the frame at the port on the receiver's clock (R204, R224,
R232). -/
structure RxFrame where
  seg : Fin 4
  medium : Medium
  side : Side
  arrival : Time
  frame : Frame
deriving DecidableEq, Repr

/-- The authorisation of a Harnal request (R28, R264, R482): key version, nonce, and whether its HMAC verifies. -/
structure Auth where
  keyVersion : BitVec 16
  nonce : BitVec 64
  hmacOk : Bool
deriving DecidableEq, Repr

/-- The word a strand fetches: lane, strand, its OPCODE, its STRAND field and its OPERAND field (R93, R94). The row is the one that
OPCODE lists; an OPCODE that no row lists makes the word illegal under whatever row it is given (R95). -/
structure PressWord where
  lane : Lane
  strand : Fin 4
  opcode : BitVec 8
  field : BitVec 2
  operand : BitVec 22
deriving DecidableEq, Repr

/-- A host or firmware access to a register: through which port (none: the service core), to which lane (R298, R371). -/
structure RegAccess where
  port : Option Port
  lane : Lane
deriving DecidableEq, Repr

/-- Where a register access lies: at an offset of a lane window (R298), or of the port's BAR2 (R295). -/
inductive RegPlace where
  | window (off : BitVec 20)
  | bar2 (off : BitVec 13)
deriving DecidableEq, Repr

/-- How the parts of a BIST end (R457 to R460, R465): all passed; the signatures of partition P1 (six blocks) or P2 (one), each as its
XOR with the expected value, so that 0 is the expected signature; a row of a macro that its retest failed again; the first failing
address of the march. -/
inductive BistResult where
  | pass
  | logicFail (p2 : Bool) (errors : List (BitVec 128))
  | sramFail (macroNo : Fin 96) (row : Fin 128)
  | dramFail (addr : Word)
deriving DecidableEq, Repr

/-- A row repaired during SRAM BIST (R460). -/
structure SoftRepair where
  macroNo : Fin 96
  spare : Fin 8
  row : Fin 128
deriving DecidableEq, Repr

/-- The tests that a lane runs in TEST, with the rows found and repaired (R460, R518). -/
structure TestRun where
  result : BistResult
  repairs : List SoftRepair
deriving DecidableEq, Repr

/-- The log-control slots of a Cellar device as BOOT finds them: both verify, one does, or neither (R410, R472). -/
inductive SlotsFound where
  | both
  | one
  | neither
deriving DecidableEq, Repr

/-- The start of a lane's firmware, with what it reads of the Cellar devices (R472 steps 1 and 2). -/
structure FirmwareBoot where
  lane : Lane
  dev0 : SlotsFound
  dev1 : SlotsFound
deriving DecidableEq, Repr

/-- The end of a lane's start-up tests, with the verdicts on its two vintage stores: true for one that does not verify (R426, R472 step
4). -/
structure StartTests where
  lane : Lane
  badA : Bool
  badB : Bool
deriving DecidableEq, Repr

/-- What the read-back of one device shows of what a lane has written to it: every copy verified; that in a block of the log ring failed and
verified when written once more; or it failed twice (R406, R409, R410). -/
inductive ReadBack where
  | good
  | once (block : Fin 31741)
  | twice (block : Fin 31741)
deriving DecidableEq, Repr

/-- A copy in an MRAM device: of a record, by its SEQUENCE, or of a lifetime page (R414, R417). -/
inductive CopyAt where
  | record (seq : BitVec 64)
  | page (p : Fin 256)
deriving DecidableEq, Repr

/-- A CELLAR_READ descriptor, with the copies in each device that are found not to verify as it is served (R414). -/
structure CellarFetch where
  desc : BitVec 512
  bad0 : List CopyAt
  bad1 : List CopyAt
deriving DecidableEq, Repr

/-- Trigger of a Cellar flush (R406, R423). -/
inductive FlushTrigger where
  | periodic
  | code
  | half
  | power
deriving DecidableEq, Repr

/-- Cause of a field fault (R290). -/
inductive FieldFaultCause where
  | selfCheck
  | configMismatch
  | pairCheck
  | lossBudget
deriving DecidableEq, Repr

/-- What the field die measures at its outputs and dies for a refresh (R256, R522): switch readbacks, terminals Qn+ above
VF - 3 V, terminals Qn- below 3 V, load currents in mA, temperatures. -/
structure FieldReadings where
  readback : PerLane Word
  termHigh : BitVec 16
  termLow : BitVec 16
  current : List (BitVec 10)
  temp : BitVec 20
deriving DecidableEq, Repr

/-- A slot in which a port die composes a frame (R185): a station, a peer, the twin slot or the sync slot. -/
inductive TxSlot where
  | station (index : Fin 512)
  | peer (index : Fin 64)
  | twin
  | sync
  | delayReq
  | delayResp
deriving DecidableEq, Repr

/-- LANE_ISO_CAUSE.CAUSE (R39). -/
inductive IsoCause where
  | none
  | voteDissent
  | overrun
  | watchdog
  | link
  | stack
  | memory
  | rail
  | self
  | shadowMismatch
  | transfer
  | bist
  | update
  | maintainer
deriving DecidableEq, Repr

/-- What an image link has delivered of a lane's image to one Sluice where it differs from the image sent (R165, R166): whether the
image has arrived complete, and the bits of it that arrived inverted, bit b at byte b / 8 of the layout of R166. -/
structure LinkFault where
  sender : Lane
  sluice : Lane
  complete : Bool
  flips : List (Fin 264192)
deriving DecidableEq, Repr

/-- What a Sluice finds of a lane, with the causes that it finds of the lane in the same clock (R173). -/
structure Finding where
  lane : Lane
  also : List IsoCause
deriving DecidableEq, Repr

/-- Silence on the links of a lane: at the Sluices of a mask, or on a peer link (mask 0), with what is found in the same clock (R163). -/
structure LinkSilence where
  lane : Lane
  sluices : BitVec 3
  also : List IsoCause
deriving DecidableEq, Repr

/-- The moment at which the Sluices look, and the faults of the image links in this cycle (R67, R165). -/
structure VoteMoment where
  atNs : BitVec 28
  faults : List LinkFault
deriving DecidableEq, Repr

/-- The image link from a lane to a Sluice (R161). -/
structure ImagePath where
  sender : Lane
  sluice : Lane
deriving DecidableEq, Repr

/-- Whose reset line rises: the lane die's, with the cause that the lane reports, or its Sluice's (R164). -/
inductive ResetLineOf where
  | laneDie (reported : Option IsoCause)
  | sluiceDie
deriving DecidableEq, Repr

/-- A segment's port on a medium and side (R199). -/
structure PortAt where
  seg : Fin 4
  medium : Medium
  side : Side
deriving DecidableEq, Repr

/-- A backup SYNC on a segment, with the error of its transmission in ns (R226, R231). -/
structure BackupSend where
  seg : Fin 4
  error : Int
deriving DecidableEq, Repr

/-- A host port whose link goes down, or whose endpoint enters D3hot (R295, R322). -/
structure PortLoss where
  port : Port
  d3hot : Bool
deriving DecidableEq, Repr

/-- A DMA read of an SQ: of a descriptor fetch, or of staging data (R321). -/
structure DmaRead where
  sq : Fin 16
  ofData : Bool
deriving DecidableEq, Repr

/-- The kind of a ring (R300). -/
inductive RingKind where
  | sq
  | cq
deriving DecidableEq, Repr

/-- A target of the EIC (R363). -/
inductive EicTarget where
  | sc
  | h0
  | h1
deriving DecidableEq, Repr

/-- The commands: one constructor per row of spec/opcode_table.json, in the table's order. -/
inductive Instr where
  -- supplies, clocks and resets
  | resetRelease (orderKept : Bool)
  | vdd3v3Reset
  | rail3v3Warn (mv : BitVec 16)
  | v3WarnRelease
  | coreRailWarn (l : Lane) (mv : BitVec 16)
  | coreWarnRelease (l : Lane)
  | coreRailReset (l : Lane)
  | ioAnaReset
  | resetNLow
  | clockLoss (l : Lane)
  | clockRestored (l : Lane)
  | fwWatchdog (l : Lane)
  | eccUncorrectable (f : Finding)
  | perstN (p : Port)
  | linkDown (x : PortLoss)
  | linkUp (p : Port) (speed : BitVec 2)
  | holdExpired (p : Port)
  -- start
  | bootFailed (l : Lane)
  | firmwareStart (x : FirmwareBoot)
  | laneTestDone (x : StartTests) (r : BistResult) (repairs : List SoftRepair)
  | bootLimit
  -- the cycle
  | tick
  | endInput
  | endLogic
  | endVote
  | endOutput
  -- Press, bit operations
  | ld (w : PressWord) (space : BitVec 4)
  | ldn (w : PressWord) (space : BitVec 4)
  | andBit (w : PressWord) (space : BitVec 4)
  | andnBit (w : PressWord) (space : BitVec 4)
  | orBit (w : PressWord) (space : BitVec 4)
  | ornBit (w : PressWord) (space : BitVec 4)
  | xorBit (w : PressWord) (space : BitVec 4)
  | st (w : PressWord) (space : BitVec 4)
  | setBit (w : PressWord) (space : BitVec 4)
  | rstBit (w : PressWord) (space : BitVec 4)
  -- Press, edges, timers, counters
  | edgp (w : PressWord)
  | edgn (w : PressWord)
  | ton (w : PressWord)
  | tof (w : PressWord)
  | tp (w : PressWord)
  | trs (w : PressWord)
  | ctu (w : PressWord)
  | ctd (w : PressWord)
  | crs (w : PressWord)
  | cld (w : PressWord)
  -- Press, words
  | lw (w : PressWord)
  | sw (w : PressWord)
  | li (w : PressWord)
  | lih (w : PressWord)
  | add (w : PressWord)
  | sub (w : PressWord)
  | cmpeq (w : PressWord)
  | cmpge (w : PressWord)
  | cmplt (w : PressWord)
  | wand (w : PressWord)
  | wor (w : PressWord)
  | tld (w : PressWord)
  | cacc (w : PressWord)
  | xld (w : PressWord)
  | rsld (w : PressWord)
  | satt (w : PressWord)
  -- Press, flow
  | nop (w : PressWord)
  | openBranch (w : PressWord)
  | closeBranch (w : PressWord)
  | jmp (w : PressWord)
  | jmpc (w : PressWord)
  | jmpn (w : PressWord)
  | call (w : PressWord)
  | ret (w : PressWord)
  | bar (w : PressWord)
  | barRelease (l : Lane) (strand : Fin 4)
  | endStrand (w : PressWord)
  -- Press, calls into the RAA
  | rreq (w : PressWord)
  | rcan (w : PressWord)
  | ecmd (w : PressWord)
  -- RAA
  | rreqDecision (l : Lane)
  | rcanDecision (l : Lane)
  | callA (l : Lane)
  | callB (l : Lane)
  | blockElem (l : Lane)
  | unblockElem (l : Lane)
  | virtualSet (l : Lane)
  | virtualClear (l : Lane)
  | resetFault (l : Lane)
  | reProof (l : Lane)
  | overlapRelease (l : Lane) (route : BitVec 14)
  | cancelRelease (l : Lane) (route : BitVec 14)
  | setTimeout (l : Lane) (route : BitVec 14)
  | moveFault (l : Lane) (element : BitVec 16)
  -- vote and lane life
  | vote (v : VoteMoment)
  | uncaused (l : Lane)
  | checkBlock (path : ImagePath) (block : Option Word)
  | voteDigest (err : PerLane (BitVec 64))
  | overrun (f : Finding)
  | watchdog (f : Finding) (dev : Option Int)
  | linkTimeout (x : LinkSilence)
  | resetLine (l : Lane) (of : ResetLineOf)
  | laneSwitchTest (l : Lane)
  | switchTestReadback (l : Lane) (readback : Word)
  | laneSwitchCloseTest (l : Lane) (closed : Word) (opened : Word)
  | reinitialisation (l : Lane) (r : TestRun)
  | laneSync (l : Lane)
  | stateTransfer (l : Lane)
  | transferVerified (l : Lane) (checks : List (BitVec 64))
  | catchUp (l : Lane) (inTime : Bool) (checks : List (BitVec 64))
  | laneJoin (l : Lane)
  | retirementClear (l : Lane) (auth : Auth)
  -- Alusk
  | composeFrame (slot : TxSlot) (medium : Medium) (error : Int)
  | sync (rx : RxFrame)
  | leftSync
  | backupSync (x : BackupSend)
  | coldStart (rx : RxFrame)
  | listenTimeout (now : Time)
  | silentTimeout
  | coldStartT0
  | corruptFrame (seg : Fin 4) (medium : Medium)
  | delayReq (rx : RxFrame)
  | delayResp (port : PortAt) (arrival : Time) (frame : Frame)
  | stationIn (l : Lane) (station : Fin 512) (rx : RxFrame)
  | stationDropped (l : Lane) (station : Fin 512)
  | peer (l : Lane) (q : Fin 64) (rx : RxFrame)
  | peerTimeout (l : Lane) (q : Fin 64)
  | sessionClear (session : Fin 576) (auth : Auth)
  | mediumWithdrawn (seg : Fin 4) (medium : Medium) (lockLost : Bool)
  | mediumReturned (seg : Fin 4) (medium : Medium)
  | mediumClear (seg : Fin 4) (medium : Medium) (auth : Auth)
  | los (seg : Fin 4) (medium : Medium) (port : Fin 2) (high : Bool)
  -- crossing and field die
  | crossingRefresh (m : FieldReadings)
  | downstreamRefresh (l : Lane) (err : BitVec 512) (stampNs : Int)
  | upstreamRefresh (l : Lane) (err : BitVec 1024)
  | fieldTick
  | fieldStreamLost (l : Lane)
  | localLost (l : Lane)
  | localRecovered (l : Lane)
  | crossingRecovered
  | moduleStop
  | fieldFault (cause : FieldFaultCause)
  | fieldFaultClear (auth : Auth)
  | fieldDieStop
  | inputSample (raw : BitVec 48)
  | pairFault (pair : Fin 24)
  | testPulse (source : Fin 8) (lowBelow5 : Bool) (highAbove : Bool)
  | tpRecovered (source : Fin 8)
  | counterEdge (c : Fin 4) (rising : Bool)
  | offTest (n : Fin 16)
  | offTestEnd (n : Fin 16) (fell : BitVec 16) (risen : BitVec 16)
  | onTest (n : Fin 16)
  | onTestEnd (n : Fin 16) (drivenMa : Nat) (returnedMa : Nat) (others : BitVec 16)
  | terminalHighOff (n : Fin 16)
  | overload (n : Fin 16) (ma : BitVec 10)
  | short (n : Fin 16)
  | overTemp (n : Fin 16)
  | overloadRetry (n : Fin 16) (junctionBelow135 : Bool)
  | tripCountReset (n : Fin 16)
  | openWire (n : Fin 16)
  | loadOkReturn (n : Fin 16)
  | outputRetireClear (n : Fin 16) (auth : Auth)
  | vfMeasure (vf1 : BitVec 16) (vf2 : BitVec 16)
  | vfLatch (group2 : Bool)
  | vfRecovered (group2 : Bool)
  -- host interface
  | registerWrite (a : RegAccess) (place : RegPlace) (value : Word)
  | peerAccessTimeout (p : Port) (l : Lane) (write : Bool)
  | sqTailDoorbell (p : Port) (q : Fin 16) (value : Word)
  | cqHeadDoorbell (p : Port) (q : Fin 16) (value : Word)
  | ringEnable (p : Port) (kind : RingKind) (q : Fin 16) (ctrl : Word)
  | ringDisable (p : Port) (kind : RingKind) (q : Fin 16)
  | descriptorFetch (p : Port) (q : Fin 16) (desc : BitVec 512) (second : Option (BitVec 512))
  | routeRequest (p : Port) (q : Fin 16) (desc : BitVec 512)
  | routeCancel (p : Port) (q : Fin 16) (desc : BitVec 512)
  | elementCommand (p : Port) (q : Fin 16) (desc : BitVec 512)
  | stationAdmit (p : Port) (q : Fin 16) (desc : BitVec 512)
  | imageRead (p : Port) (q : Fin 16) (desc : BitVec 512)
  | cellarRead (p : Port) (q : Fin 16) (x : CellarFetch)
  | cellarClear (p : Port) (q : Fin 16) (desc : BitVec 512) (second : BitVec 512)
  | stageProgram (p : Port) (q : Fin 16) (desc : BitVec 512) (data : List Byte) (parts : Option Vintage)
  | vintageStaged (errors : PerLane (BitVec 64)) (norOk : PerLane Bool)
  | stageFirmware (p : Port) (q : Fin 16) (desc : BitVec 512) (second : BitVec 512) (data : List Byte)
    (signed : Option Bool)
  | imageBuildDone (l : Lane) (signed : Bool) (writeOk : Bool)
  | rack (p : Port) (q : Fin 16) (desc : BitVec 512) (second : BitVec 512)
  | vintageSwitch (l : Lane)
  | previousExpired
  | confirmParameters (p : Port) (q : Fin 16) (desc : BitVec 512) (second : BitVec 512)
  | timeSet (p : Port) (q : Fin 16) (desc : BitVec 512)
  | fence (p : Port) (q : Fin 16) (desc : BitVec 512)
  | authExt (p : Port) (q : Fin 16) (desc : BitVec 512)
  | completionWrite (p : Port)
  | coalesceExpiry (p : Port) (q : Fin 16)
  | dmaError (p : Port) (x : DmaRead)
  | dmaTimeout (p : Port) (x : DmaRead)
  -- twin pair
  | twin (l : Lane) (rx : RxFrame)
  | takeover
  | handoverRequest (auth : Auth)
  | handover
  | loadStart
  | loadFail
  | loadRetry
  | loadRestart (auth : Auth)
  -- EIC
  | eventArrival (l : Lane) (source : Fin 1024)
  | fallbackMove (l : Lane) (p : Port)
  | eicClaim (a : RegAccess) (t : EicTarget)
  | eicComplete (a : RegAccess) (t : EicTarget) (value : Word)
  | eicEnableSet (a : RegAccess) (n : Fin 32) (value : Word)
  | eicEnableClr (a : RegAccess) (n : Fin 32) (value : Word)
  | eicPendingSet (a : RegAccess) (n : Fin 32) (value : Word)
  | eicPendingClr (a : RegAccess) (n : Fin 32) (value : Word)
  | eicTargetH0Set (a : RegAccess) (n : Fin 32) (value : Word)
  | eicTargetH0Clr (a : RegAccess) (n : Fin 32) (value : Word)
  | eicTargetH1Set (a : RegAccess) (n : Fin 32) (value : Word)
  | eicTargetH1Clr (a : RegAccess) (n : Fin 32) (value : Word)
  | eicCompatPend (a : RegAccess) (n : Fin 32) (value : Word)
  | eicOvfClr (a : RegAccess) (n : Fin 32) (value : Word)
  -- registers that a read clears
  | laneLogicPeak (a : RegAccess)
  | laneRaaPeak (a : RegAccess)
  | prsStackPeak (a : RegAccess)
  | raaHoldoverPeak (a : RegAccess)
  | chkLoadPeak (a : RegAccess)
  | celStagePeak (a : RegAccess)
  -- check-value units
  | chkInit (a : RegAccess) (u : Fin 64)
  | chkClose (a : RegAccess) (u : Fin 64) (alsoInit : Bool)
  | chkURun (a : RegAccess) (u : Fin 64) (high : Bool) (value : Word)
  | chkUCtrl (a : RegAccess) (u : Fin 64) (value : Word)
  | engineSelfCheck (l : Lane) (found : Option (BitVec 4))
  | networkMismatch (l : Lane)
  -- Cellar, BIST, keys, restart, recovery
  | flush (l : Lane) (trigger : FlushTrigger) (dev0 : ReadBack) (dev1 : ReadBack)
  | bistDue (l : Lane)
  | bistStart (l : Lane)
  | bistEnd (l : Lane) (r : BistResult) (repairs : List SoftRepair)
  | bistOverdue (l : Lane)
  | bistRequest (l : Lane) (march : Bool) (auth : Auth)
  | keyInstall (key : BitVec 256) (serial : BitVec 64) (auth : Auth)
  | restart (auth : Auth) (into : Word)
  | updRomStart (l : Lane) (image : FwImage)
  | servicePortRomImage (l : Lane) (image : FwImage)
  | romImageWritten (l : Lane) (readBackOk : Bool)
  | fieldDieStart
  | firmwareSelfCheck (l : Lane)
  | unalignedAccess (p : Port) (l : Lane) (write : Bool)
deriving DecidableEq, Repr

end Sys2Proof
end

