-- ==== Sys2Proof/Machine/State.lean ====
section
/-!
DEFINITION. The state of the module: every register, buffer, counter, mode and store the spec gives it, as plain data,
the outputs it has given, and the queue of waiting commands; the outcomes' reason types; the state after reset.
Each field's comment names its rule, its width and its value after reset.
-/

namespace Sys2Proof.Machine

/-- Reasons for which the module's model would stop with a fault. No meaning raises one: the module answers every fault
by a next state (isolation, latch, retirement, refusal status). -/
inductive Fault where
  /-- Raised by nobody; safe. -/
  | none
deriving DecidableEq, Repr

/-- Reasons for which a command has no meaning in the model. -/
inductive Refusal where
  /-- Raised by an arm of exec whose command has no meaning yet; safe (the model stops). -/
  | notModelled (mnemonic : String)
deriving DecidableEq, Repr

/-! ### Lane life (R24, R38, R39, R483, R488) -/

/-- LANE_STATE.STATE (R38). -/
inductive LaneSt where
  | boot
  | test
  | sync
  | serving
  | isolated
  | reintegrating
  | retired
deriving DecidableEq, Repr

/-- How a lane entered TEST, which decides what it runs there (R518). -/
inductive TestEntry where
  | fromBoot
  | fromIsolated
  | fromRetired
deriving DecidableEq, Repr

/-- Where a joining lane stands in its reintegration (R40, R189). -/
inductive JoinStep where
  | none
  | transferring
  /-- The transfer has verified, or n catch-up cycles have not been in time: catch-up goes on in the next cycle. -/
  | verified (n : Nat)
  | catchUp (n : Nat)
  | caughtUp
  | shadow (n : Nat)
deriving DecidableEq, Repr

/-- Life of one lane. -/
structure LaneLife where
  /-- R38 STATE; 4 bits; BOOT. -/
  st : LaneSt
  /-- R38 ROM; 1 bit; 0. -/
  rom : Bool
  /-- R483: the lane is held in reset until its reference has returned; 1 bit; 0. -/
  held : Bool
  /-- R24, R25: the lane is held in reset until its core rail has recovered; 1 bit; 0. -/
  railHeld : Bool
  /-- R518: how the current TEST was entered; from BOOT. -/
  entry : TestEntry
  /-- R472, R518: the tests of the current TEST have passed; 1 bit; 0. -/
  testsDone : Bool
  /-- R40, R189: step of the reintegration; none. -/
  join : JoinStep
  /-- R39 CAUSE, kept by the lane's Sluice; 8 bits; none. -/
  cause : IsoCause
  /-- R39 CYCLE; 16 bits; 0. -/
  isoCycle : BitVec 16
  /-- R176: held out until restart by a lone latch; 1 bit; 0. -/
  loneHeld : Bool
  /-- R31: a planned activity (BIST, UPDATE or MAINTAINER) keeps the lane out of SERVING; none. -/
  planned : IsoCause
  /-- R36: the lane was isolated with a planned cause in the cycle that runs; model's own; 0. -/
  plannedNow : Bool
  /-- R488 STEP; 3 bits; 0. -/
  startStep : BitVec 3
  /-- R488 BOOT_MS and BOOT_MS_SAT; 16 bits; 0. -/
  bootMs : BitVec 16
  /-- R488, R483 CAUSE of the last reset; 8 bits; X, the cause of the reset. -/
  resetCause : BitVec 8
  /-- R488 PREVIOUS; 8 bits; X, 0 (none recorded). -/
  prevCause : BitVec 8
  /-- R28: a retirement clear recorded in SAFE, which takes effect at the next restart; 1 bit; 0. -/
  clearPending : Bool
  /-- R48: the event of a lane outside the class has been raised in this TEST; model's own; 0. -/
  classNoted : Bool
deriving DecidableEq, Repr

/-! ### Press (R78 to R117) -/

/-- An entry of a branch stack (R104, R107). -/
inductive StackEntry where
  | expr (v : Bool)
  | call (ret : Nat)
deriving DecidableEq, Repr

/-- One strand (R78). -/
structure Strand where
  /-- R78 program counter; 22 bits; 0. -/
  pc : Nat
  /-- R78 COG; 1 bit; 0. -/
  cog : Bool
  /-- R78 ACC; 32 bits; 0. -/
  acc : Word
  /-- R78 SAT; 1 bit; 0. -/
  sat : Bool
  /-- R78 branch stack of 16 entries; empty. -/
  stack : List StackEntry
  /-- R113 RUN; 1 bit; 0. -/
  running : Bool
  /-- R113 ENDED; 1 bit; 0. -/
  ended : Bool
  /-- R78: the strand has had its instruction of the current clock; model's own; 0. -/
  ran : Bool
  /-- R106: the barrier at which the strand waits; none. -/
  waiting : Option (BitVec 8)
  /-- R106: the highest barrier executed in this cycle; none. -/
  passed : Option (BitVec 8)
  /-- R112 PRS_DONE_CLK of the last completed cycle; 27 bits; 0. -/
  doneClk : BitVec 27
  /-- R112: the same of the cycle that runs; 27 bits; 0. -/
  endClk : BitVec 27
  /-- R114 PEAK; 5 bits; 0. -/
  peak : BitVec 5
deriving DecidableEq, Repr

/-- A timer record (R98); the preset is the vintage's. -/
structure TimerRec where
  start : Time
  out : Bool
  run : Bool
  last : Bool
  esat : Bool
deriving DecidableEq, Repr

/-- A counter record (R102). -/
structure CounterRec where
  count : Word
  sat : Bool
deriving DecidableEq, Repr

/-- A write made in the current clock, seen from the next (R80). -/
inductive PressWrite where
  | bit (space : BitVec 4) (index : Nat) (v : Bool)
  | word (index : Nat) (v : Word)
  | timer (index : Nat) (v : TimerRec)
  | counter (index : Nat) (v : CounterRec)
  | edge (index : Nat) (v : Bool)
deriving DecidableEq, Repr

/-- Kind of an RAA queue entry (R129). -/
inductive QKind where
  | rreq
  | rcan
  | ecmd
deriving DecidableEq, Repr

/-- The descriptor behind a host entry or a completion (R303, R315). -/
structure HostRef where
  port : Port
  sq : Fin 16
  cq : Fin 16
  cls : Byte
  irq : Bool
  tag : BitVec 16
  epoch : BitVec 16
  sequence : Word
  code : BitVec 64
  order : Nat
deriving DecidableEq, Repr

/-- Source of an RAA queue entry (R129). -/
inductive QSource where
  | press (cycle : Word) (clock : Nat) (strand : Fin 4)
  | host (r : HostRef)
deriving DecidableEq, Repr

/-- An RAA queue entry (R129). -/
structure QEntry where
  kind : QKind
  item : Nat
  cmd : Nat
  src : QSource
deriving DecidableEq, Repr

/-- KIND of PRS_FAULT (R116). -/
inductive PressFault where
  | none
  | stackOverflow
  | stackUnderflow
  | entryMismatch
  | unbalancedEnd
  | strandMismatch
  | illegalWord
deriving DecidableEq, Repr

/-- The four strands. -/
structure Strands where
  s0 : Strand
  s1 : Strand
  s2 : Strand
  s3 : Strand
deriving DecidableEq, Repr

/-- The cycles whose data the images of R314 hold in a lane; the model's own, so that each read is of one cycle only. -/
structure Views where
  /-- Cycle of the I values, of L with LQ, and of the X and RS views; 32 bits each; 0. -/
  inputs : Word
  logic : Word
  published : Word
  /-- LV, LF and LQ of the cycle before, while the logic phase changes them; none. -/
  kept : Option (BitSpace × BitSpace × BitSpace)
deriving DecidableEq, Repr

/-- The data spaces of the Press (R84, R86). -/
structure PressData where
  /-- R84, R88 IV: input values; 131,072 bits; 0. -/
  iv : BitSpace
  /-- R84, R88 IF: input valid; 131,072 bits; 0. -/
  ifv : BitSpace
  /-- R84, R89 Q; 131,072 bits; 0. -/
  q : BitSpace
  /-- R84, R89 M; 1,048,576 bits; 0. -/
  m : BitSpace
  /-- R84, R98 T; 16,384 records; idle, output 0. -/
  t : Sparse TimerRec
  /-- R84, R102 C; 8,192 records; 0. -/
  c : Sparse CounterRec
  /-- R84, R89 E; 65,536 bits; 0. -/
  e : BitSpace
  /-- R84, R89 W; 65,536 words of 32 bits; 0. -/
  w : Sparse Word
  /-- R84, R88 LV; 16,384 bits; 0. -/
  lv : BitSpace
  /-- R84, R88 LF; 16,384 bits; 0. -/
  lf : BitSpace
  /-- R84, R89 LQ; 16,384 bits; 0. -/
  lq : BitSpace
  /-- R91 X view: bits [63:0] of each element state as published; 65,536 of 64 bits; 0. -/
  x : Sparse (BitVec 64)
  /-- R91 RS view: route status words as published; 16,384 of 16 bits; 0. -/
  rs : Sparse (BitVec 16)
  /-- R92 K bits; 8 bits; ONE set, all others 0. -/
  k : BitVec 8
  /-- R314: the cycle of each image that the host may read. -/
  views : Views
deriving DecidableEq, Repr

/-- The Press of one lane. -/
structure Press where
  data : PressData
  strands : Strands
  /-- R79: the logic phase runs; 1 bit; 0. -/
  active : Bool
  /-- R78: clocks since END_INPUT; 27 bits; 0. -/
  clock : Nat
  /-- R80: writes of the current clock, with the strand that made each; none. -/
  writes : List (Nat × PressWrite)
  /-- R79: clock of the logic-done mark; none. -/
  done : Option Nat
  /-- R113 HALTED; 1 bit; 0. -/
  halted : Bool
  /-- R116 KIND; 4 bits; none. -/
  faultKind : PressFault
  /-- R116 STRAND; 2 bits; 0. -/
  faultStrand : BitVec 2
  /-- R116 CYCLE; 16 bits; 0. -/
  faultCycle : BitVec 16
  /-- R112 PRS_FAULT_ADDR; 22 bits; 0. -/
  faultAddr : BitVec 22
  /-- R109: requests of this cycle, in order of clock and strand; none. -/
  issued : List QEntry
  /-- R115 ENTERED and ENTERED_SAT, current cycle; 16 bits; 0. -/
  entered : BitVec 16
  /-- R115 DROPPED and DROPPED_SAT, current cycle; 16 bits; 0. -/
  dropped : BitVec 16
  /-- R115 PRS_RAA_CALLS, last completed cycle; 32 bits; 0. -/
  calls : Word
  /-- R117 PRS_SAT_COUNT at the last logic-done mark; 32 bits; 0. -/
  satCount : Word
  /-- R92 FIRST_CYCLE: the Press has run since BOOT; 1 bit; 0. -/
  hasRun : Bool
  /-- R442: edge memories marked new by a racking; none. -/
  newEdges : BitSpace
  /-- R189: blocks of the snapshot that the Press has written in this cycle; none. -/
  wrote : BitSpace
deriving DecidableEq, Repr

/-! ### RAA (R118 to R160) -/

/-- An element state (R125). -/
structure ElemState where
  valid : Bool
  clear : Bool
  detected : BitVec 2
  commanded : BitVec 2
  moving : Bool
  moveFault : Bool
  blocked : Bool
  pathHeld : Bool
  overlapHeld : Bool
  startHeld : Bool
  occSeen : Bool
  virt : Bool
  owner : BitVec 14
  flankCount : BitVec 8
  flankPos : BitVec 2
  changeTime : Time
  /-- The first update after BOOT has been made (R125); model's own. -/
  seen : Bool
deriving DecidableEq, Repr

/-- A lock entry of a held route (R126, R135, R147, R149). -/
structure Lock where
  time : Time
  released : BitVec 16
  everLocked : Bool
  locked : Bool
  setting : Bool
  proofFailed : Bool
  setTimeout : Bool
  entered : Bool
  cancel : Option Time
  ovl : Option Time
deriving DecidableEq, Repr

/-- The RAA of one lane. -/
structure Raa where
  /-- R125: element states; 65,536 of 128 bits; start values by the first update. -/
  elems : Sparse ElemState
  /-- R129: lock entries by route; none. -/
  locks : Sparse Lock
  /-- R126 LAST_STATUS by route; 8 bits each; 0. -/
  lastStatus : Sparse (BitVec 8)
  /-- R129: the queue of the cycle; at most 4,096 entries; empty. -/
  queue : List QEntry
  /-- R133: decisions made in this cycle; 9 bits; 0. -/
  decided : Nat
  /-- R156 REFUSED of this cycle; 9 bits; 0. -/
  refused : Nat
  /-- R155 LENGTH of this cycle; 13 bits; 0. -/
  length : Nat
  /-- R141: routes still to be re-proven in this cycle, with their ranks; none. -/
  toProve : List (Nat × Nat)
  /-- R141: number of routes held when the re-proof began; 13 bits; 0. -/
  proved : Nat
  /-- R143: VIRTUAL as it stood at END_INPUT + 20 µs; 0. -/
  virtSnap : BitSpace
  /-- R148: groups that this cycle's re-proof released, taken at the end of the RAA work; none. -/
  releases : List (Nat × BitVec 16)
  /-- R144: aspect bits of routes whose re-proof failed before a release in this cycle; none. -/
  failedAspects : List Word
  /-- R153 RAA_STATUS HELD and LOCKED at the last end of RAA work; 13 bits each; 0. -/
  statHeld : Nat
  statLocked : Nat
  /-- R154 ACTIVITY; 2 bits; 0. -/
  activity : BitVec 2
  /-- R155 RAA_QUEUE of the last completed cycle; 32 bits; 0. -/
  queueReg : Word
  /-- R156 RAA_DECIDED of the last completed cycle; 32 bits; 0. -/
  decidedReg : Word
  /-- R159 RAA_LAST_FAIL; 32 bits; 0. -/
  lastFail : Word
  /-- R159 RAA_LAST_FAIL_CYCLE; 16 bits; 0. -/
  lastFailCycle : BitVec 16
  /-- R160 RAA_HOLDOVER_PEAK; 13 bits; 0. -/
  holdoverPeak : Nat
  /-- R160 RAA_WORK_END; 18 bits; 0. -/
  workEnd : Nat
  /-- R160 RAA_MOVE_FAULTS; 17 bits; 0. -/
  moveFaults : Nat
  /-- R353: blocks of the lock SRAM and of the queue as a load has brought them, by their number; none. -/
  loaded : Sparse (BitVec 2048)
deriving DecidableEq, Repr

/-! ### Output image (R166) -/

/-- A frame control record (R217). -/
structure CtlRec where
  dest : BitVec 16
  type : Byte
  flags : Byte
  length : BitVec 16
  epoch : BitVec 16
  sequence : Word
  time : Time
  destSid : Word
  echoSeq : Word
deriving DecidableEq, Repr

/-- The twin-slot frame control fields (R337). -/
structure TwinCtl where
  ctl : CtlRec
  vintage : Word
  staged : Word
  module : Byte
  twinState : Byte
  tflags : Byte
  count : Byte
  echoSeq : Word
deriving DecidableEq, Repr

/-- The load area of R355, over which the state digest runs (R343). -/
structure LoadArea where
  q : BitSpace
  lq : BitSpace
  m : BitSpace
  t : Sparse TimerRec
  c : Sparse CounterRec
  e : BitSpace
  w : Sparse Word
  elems : Sparse ElemState
  locks : Sparse Lock
  lastStatus : Sparse (BitVec 8)
  peerSeq : Sparse Word
  queue : List QEntry
  /-- R353: blocks of the lock SRAM and of the queue as a load has brought them, by their number; model's own. -/
  loaded : Sparse (BitVec 2048)
deriving DecidableEq, Repr, Inhabited

/-- The voted part of an output image (R166); the digest stands for its load area. noise lists the bits outside cycle count, time,
flags, vintage, Q and LQ that differ from what the fields say: none as the lane sends it, those that a faulty link has inverted as it
arrives. -/
structure Image where
  cycle : Word
  time : Time
  flags : BitVec 9
  vintage : Word
  area : LoadArea
  twin : Option TwinCtl
  q : BitSpace
  lq : BitSpace
  stations : Sparse CtlRec
  peers : Sparse CtlRec
  noise : List Nat
deriving DecidableEq, Repr

/-- The part of an image that is not voted (R166): the lane's codes of the twin frame, of the station frames and of the peer
frames; 32 bits each; 0. -/
structure LaneCodes where
  twin : Word
  stations : Sparse Word
  peers : Sparse Word
deriving DecidableEq, Repr

/-- The image link from a lane to one Sluice in the current cycle (R161). -/
structure LinkRx where
  /-- R166: the image as it arrives; none. -/
  image : Option Image
  codes : LaneCodes
  /-- R66, R169: it arrived complete; 1 bit; 0. -/
  complete : Bool
  /-- R165, R185: its check block verified; 1 bit; 0. -/
  checkOk : Bool
deriving DecidableEq, Repr

/-- The three image links of one lane in the current cycle. -/
structure ImageLink where
  /-- R166: the image the lane sends; none. -/
  image : Option Image
  codes : LaneCodes
  /-- R161: what each Sluice has received of it. -/
  rx : PerLane LinkRx
  /-- R32, R40: this image of a reintegrating lane has been compared with the result; 1 bit; 0. -/
  compared : Bool
deriving DecidableEq, Repr

/-! ### Sluices (R161 to R198) -/

/-- SLC_LATCH.CAUSE (R195). -/
inductive LatchCause where
  | none
  | noMajority
  | pairDisagree
  | lanesLost
  | follow
  | bootLimit
  | startTest
  | uncaused
deriving DecidableEq, Repr

/-- One Sluice. -/
structure Sluice where
  /-- R14, R193 LATCH; 1 bit; 0. -/
  latch : Bool
  /-- R195 CAUSE; 4 bits; none. -/
  latchCause : LatchCause
  /-- R195 CYCLE; 16 bits; 0. -/
  latchCycle : BitVec 16
  /-- R193 LONE; 1 bit; 0. -/
  lone : Bool
  /-- R193 VOTING: lanes that vote; 3 bits; 0. -/
  voting : BitVec 3
  /-- R169: the result of this Sluice's vote in this cycle; none. -/
  result : Option Image
  /-- R194 IMAGES; 3 bits; 0. -/
  images : BitVec 3
  /-- R194 DISSENT; 3 bits; 0. -/
  dissent : BitVec 3
  /-- R194 CODES; 3 bits; 0. -/
  codes : BitVec 3
  /-- R194 OUTCOME; 2 bits; 0. -/
  outcome : BitVec 2
  /-- R194 DIGEST_OK; 1 bit; 0. -/
  digestOk : Bool
  /-- R194 CYCLE; 16 bits; 0. -/
  voteCycle : BitVec 16
  /-- R192 SLC_DECISION_TIME; 28 bits; 0. -/
  decisionTime : BitVec 28
  /-- R196 UP; 3 bits; 0. -/
  linkUp : BitVec 3
  /-- R196 TIMED_OUT; 3 bits; 0. -/
  linkTimedOut : BitVec 3
  /-- R196 RESET; 3 bits; 0. -/
  linkReset : BitVec 3
  /-- R255 NOW drive of the lane's switches; 32 bits; all open. -/
  now : Word
  /-- R255 NEXT drive; 32 bits; all open. -/
  next : Word
  /-- R255 VCTL; 2 bits; 0. -/
  vctl : BitVec 2
  /-- R181 switches under test; 32 bits; 0. -/
  testMask : Word
  /-- R197 STUCK_CLOSED; 16 bits; 0. -/
  stuckClosed : BitVec 16
  /-- R197 RUNNING; 1 bit; 0. -/
  testRunning : Bool
  /-- R197 ABORTED; 1 bit; 0. -/
  testAborted : Bool
  /-- R479: the close test of this Sluice has ended; 1 bit; 0. -/
  closeDone : Bool
  /-- R479: and every switch passed; 1 bit; 0. -/
  closeOk : Bool
  /-- R196 SLC_TICK_DEV; 16 bits; 0. -/
  tickDev : BitVec 16
deriving DecidableEq, Repr

/-! ### Alusk (R199 to R249) -/

/-- ALK_STATUS.NODE_STATE (R228, R245). -/
inductive NodeSt where
  | down
  | listen
  | coldStart
  | silent
  | measure
  | align
  | inSync
deriving DecidableEq, Repr

/-- State of a medium on a segment (R246). -/
inductive MediumSt where
  | inUse
  | withdrawn
  | retired
  | notConfigured
deriving DecidableEq, Repr

/-- The delay exchange of one medium and side (R205, R249). -/
structure DelayRec where
  /-- R249 D of this node in ns, shown in units of 4 ns; not measured. -/
  d : Option Nat
  /-- R205: a D_NEW received and not yet applied; none. -/
  next : Option Nat
  /-- R205 D_OUT of the upstream node in ns; 0. -/
  dOut : Nat
  /-- R205 T2 recorded by this node, for its next DELAY_RESP; none. -/
  t2 : Option Time
  /-- R205: LINK and D_NEW that this node computed for its neighbour; none. -/
  result : Option (Word × Word)
  /-- R205 T1: transmit time of this node's last DELAY_REQ; none. -/
  t1 : Option Time
  /-- R205, R516: T2, T1 and result of the exchange that runs in this cycle, which the next cycle of the side takes; none. -/
  t2Now : Option Time
  t1Now : Option Time
  resultNow : Option (Word × Word)
deriving DecidableEq, Repr

/-- One medium of one segment (R233). -/
structure MediumRec where
  /-- R246 STATE; 2 bits; not configured. -/
  st : MediumSt
  /-- R233, R501: ports without block lock; 2 bits; 0. -/
  unlocked : BitVec 2
  /-- R205, R249: sides A and B. -/
  sideA : DelayRec
  sideB : DelayRec
  /-- R233: one-sided losses of each of the last 100 cycles, newest first; none. -/
  losses : List Nat
  /-- R233, R385: sent copies of this cycle that failed their check; 0. -/
  lostNow : Nat
  /-- R233: this cycle does not count for a return, since the medium was withdrawn in it or a port was without lock; 1 bit; 0. -/
  lapse : Bool
  /-- R233: the last cycle had no one-sided loss, with every port locked throughout; 1 bit; 0. -/
  clean : Bool
deriving DecidableEq, Repr

/-- A frame that a port die has sent in the current cycle (R185, R226). -/
structure TxFrame where
  seg : Fin 4
  medium : Medium
  side : Side
  /-- R204: it travels towards the reference point. -/
  up : Bool
  /-- R204: start of the transmission on this node's clock. -/
  sent : Time
  frame : Frame
deriving DecidableEq, Repr

/-- The module as a node of the bus. -/
structure Alk where
  /-- R245 NODE_STATE; 4 bits; DOWN. -/
  node : NodeSt
  /-- R245 FIRST_NODE (and FIRST); 10 bits; 0x3FF. -/
  firstNode : BitVec 10
  /-- R245 BACKUP, last cycle; 1 bit; 0. -/
  backup : Bool
  /-- R231: backup SYNC sent in this cycle; 1 bit; 0. -/
  backupNow : Bool
  /-- R245 SEG_SYNC, last cycle; 4 bits; 0. -/
  segSync : BitVec 4
  /-- R209: SYNC accepted in this cycle on each segment; 4 bits; 0. -/
  segNow : BitVec 4
  /-- R246 OFFSET; 16 bits; 0. -/
  offset : BitVec 16
  /-- R246 WARN; 1 bit; 0. -/
  warn : Bool
  /-- R208: offset warnings, saturating; 16 bits; 0. -/
  warnings : BitVec 16
  /-- R246 OUT_RUN; 2 bits; 0. -/
  outRun : Nat
  /-- R209: consecutive cycles without SYNC; 2 bits; 0. -/
  missRun : Nat
  /-- R209: consecutive cycles with a guardian block; 2 bits; 0. -/
  blockRun : Nat
  /-- R226: the guardian blocked a frame in this cycle; 1 bit; 0. -/
  blockNow : Bool
  /-- R230: the last SYNC accepted was within 50 ns and carried the TIMING_CHECK; 1 bit; 0. -/
  goodSync : Bool
  /-- R230: a foreign frame or a block has spoiled the cycle; 1 bit; 0. -/
  spoiled : Bool
  /-- R246 COLD_STARTS and COLD_SAT; 8 bits; 0. -/
  coldStarts : BitVec 8
  /-- R246 SILENCES and SILENT_SAT; 8 bits; 0. -/
  silences : BitVec 8
  /-- R229 T0 of the cold start; 64 bits; 0. -/
  t0 : Time
  /-- R229: a COLD_START has been accepted since LISTEN was entered; 1 bit; 0. -/
  heardCold : Bool
  /-- R233: frames of this cycle that arrived valid, by 1024 × (2 × segment + medium) + session (577: SYNC); none. -/
  heard : BitSpace
  /-- R233, R246: segment s, medium m at 2s + m. -/
  media : Sparse MediumRec
  /-- R166, R185: frames of the current cycle given to the media (output); none. -/
  tx : List TxFrame
deriving DecidableEq, Repr

/-- ALK_SESSION_STATE.STATE (R235, R248). -/
inductive SessSt where
  | notConfigured
  | closed
  | opening
  | admitted
  | dropped
  | retired
deriving DecidableEq, Repr

/-- A station or peer session as one lane holds it (R235 to R242, R390). -/
structure Session where
  /-- R248 STATE; 3 bits; not configured. -/
  st : SessSt
  /-- R248 MISS; 3 bits; 0. -/
  miss : Nat
  /-- R248 TIMING, CODE, SEQ, MISSES, each with its SAT; 16 bits each; 0. -/
  timing : BitVec 16
  codeErr : BitVec 16
  seqErr : BitVec 16
  misses : BitVec 16
  /-- R248, R390 RX_SEQ; 32 bits; 0. -/
  rxSeq : Word
  /-- R390 RX_REF; 1 bit; 0. -/
  rxRef : Bool
  /-- R237, R390 TX_SEQ; 32 bits; 0. -/
  txSeq : Word
  /-- R242: TX_SEQ has wrapped, so that every number has been sent; 1 bit; 0. -/
  txWrapped : Bool
  /-- R238: a STATION_IN or PEER was accepted in this cycle; 1 bit; 0. -/
  got : Bool
  /-- R240: an OPEN frame was taken in this cycle; 1 bit; 0. -/
  opened : Bool
  /-- R240: no STATION_IN has been accepted since ADMITTED was set; 1 bit; 0. -/
  fresh : Bool
  /-- R241: times of the re-admissions, newest first; none. -/
  readmits : List Time
  /-- R188, R238: last accepted image, values and valid bits; 0. -/
  values : BitSpace
  valids : BitSpace
  /-- R242: tick time of the last accepted PEER frame; 64 bits; 0. -/
  lastAt : Time
deriving DecidableEq, Repr

/-! ### Field die and crossing (R250 to R294) -/

/-- State of an input pair (R268, R291). -/
inductive PairSt where
  | invalid
  | arming
  | ready
  | fault
deriving DecidableEq, Repr

/-- State of a supply group (R282, R290). -/
inductive VfSt where
  | normal
  | warning
  | latched
  | recovered
deriving DecidableEq, Repr

/-- FLD_OUT_DIAG.FAULT (R292). -/
inductive OutFault where
  | none
  | overload
  | short
  | overTemp
  | openWire
  | stuckHigh
  | crossConnect
  | switchStuckClosed
  | switchStuckOpen
  | onTestFail
deriving DecidableEq, Repr

/-- A local input of the field die (R265 to R267). -/
structure InputRec where
  /-- R265: consecutive samples that differ from the filtered value; 0. -/
  run : Nat
  /-- R265: filtered value; 1 bit; 0. -/
  filtered : Bool
  /-- R267: consecutive failed and passed pulse checks; 0. -/
  fails : Nat
  passes : Nat
  /-- R267: invalid by the pulse check; 1 bit; 0. -/
  tpBad : Bool
deriving DecidableEq, Repr

/-- A dual pair of the field die (R268 to R270). -/
structure PairRec where
  st : PairSt
  run : Nat
  zeroSeen : Bool
deriving DecidableEq, Repr

/-- A test-pulse source (R266). -/
structure SourceRec where
  bad : Bool
  low : Nat
deriving DecidableEq, Repr

/-- A test of an output that runs (R275, R276, R280). -/
inductive OutTest where
  | none
  | off
  | on
deriving DecidableEq, Repr

/-- A local output of the field die (R259, R273 to R281). -/
structure OutRec where
  /-- R279: held off by an overload, short or over-temperature trip; 1 bit; 0. -/
  heldOff : Bool
  /-- R281: retired; 1 bit; 0. -/
  retired : Bool
  /-- R281: cleared, and waiting for its LQ bit to be 0 in one cycle; 1 bit; 0. -/
  awaitZero : Bool
  /-- R281: a vote since the clear has had the output's LQ bit at 0; 1 bit; 0. -/
  zeroVoted : Bool
  /-- R279: overload trips in the current budget; 2 bits; 0. -/
  trips : Nat
  /-- R279: tick count at the last trip, in ns of field time; 0. -/
  tripAt : Nat
  /-- R279: the last trip was an over-temperature; 1 bit; 0. -/
  hot : Bool
  /-- R279: energised time since the last trip, ns; 0. -/
  energisedNs : Nat
  /-- R292 CURRENT in mA; 10 bits; 0. -/
  current : BitVec 10
  /-- R292 FAULT; 4 bits; none. -/
  fault : OutFault
  /-- R292 PARTNER; 4 bits; 0. -/
  partner : BitVec 4
  /-- R292 OFF_PASSED, ON_PASSED; 1 bit each; 0. -/
  offPassed : Bool
  onPassed : Bool
  /-- R522 LOAD_OK; 1 bit; 0. -/
  loadOk : Bool
  /-- R275, R276: the test that runs; none. -/
  test : OutTest
  /-- R278: the next test of this output is due again; 1 bit; 0. -/
  testDue : Bool
  /-- R277: number of the OFF_PERIOD and of the ON_PERIOD in which the output's last test of the kind started; none. -/
  offIn : Option Nat
  onIn : Option Nat
  /-- R280: stuck-high classification runs: energised outputs still to be OFF-tested; none. -/
  toTry : Option (BitVec 16)
deriving DecidableEq, Repr

/-- A supply group of the field die (R282, R283). -/
structure GroupRec where
  /-- R282, R290 VF_STATE; 2 bits; normal. -/
  st : VfSt
  /-- R282: consecutive measurements beyond the latch limits; 0. -/
  bad : Nat
  /-- R282: the measurements beyond the latch limits have completed their 1 ms and go on; model's own; 0. -/
  vfOff : Bool
  /-- R282: consecutive measurements inside the recovery range; 0. -/
  good : Nat
  /-- R282: the warning stands; 1 bit; 0. -/
  warn : Bool
  /-- R283, R517: outputs enabled; 1 bit; 0. -/
  enabled : Bool
  /-- R282, R263: latched off; 1 bit; 0. -/
  latched : Bool
  /-- R283: recovered at the last tick; 1 bit; 0. -/
  recoveredAtTick : Bool
  /-- R283: voted VCTL at the last tick; 1 bit; 0. -/
  vctl : Bool
  /-- R290 FLD_VF in units of 10 mV; 16 bits; 0. -/
  vf : BitVec 16
deriving DecidableEq, Repr

/-- A counter input of the field die (R285, R286). -/
structure CountRec where
  /-- R285 DELTA; 16 bits; 0. -/
  delta : BitVec 16
  /-- R285 STUCK; 1 bit; 0. -/
  stuck : Bool
  /-- R286 CUM; 16 bits; 0. -/
  cum : BitVec 16
deriving DecidableEq, Repr

/-- A downstream refresh (R255). -/
structure DownFrame where
  refresh : BitVec 16
  cycle : BitVec 16
  tick : Bool
  swtest : Bool
  localLost : Bool
  lane : BitVec 8
  now : Word
  next : Word
  vctl : BitVec 2
  cfgIndex : Fin 32
  cfgWord : BitVec 128
deriving DecidableEq, Repr

/-- One downstream stream as the field die holds it (R257 to R263). -/
structure StreamRec where
  /-- R257 reference; none. -/
  ref : Option (BitVec 16)
  /-- R263: refresh starts since the last accepted refresh; 0. -/
  silent : Nat
  /-- R263: treated as all-open; 1 bit; 1. -/
  lost : Bool
  /-- R259: all-open until the next tick; 1 bit; 0. -/
  openUntilTick : Bool
  /-- R255 LOCAL_LOST of the last accepted refresh; 1 bit; 0. -/
  localLost : Bool
  /-- R255 SWTEST of the last accepted refresh; 1 bit; 0. -/
  swtest : Bool
  /-- R259 drive in force; 32 bits; all open. -/
  drive : Word
  /-- R259 NEXT of the last accepted refresh; 32 bits; 0. -/
  next : Word
  /-- R255 VCTL of the last accepted refresh; 2 bits; 0. -/
  vctl : BitVec 2
  /-- R262: configuration words received in the current rotation; 32 of 128 bits; none. -/
  words : Sparse (BitVec 128)
deriving DecidableEq, Repr

/-- What the field die takes at a tick for the lanes (R251, R256, R265, R522). -/
structure TickSample where
  /-- R256 CYCLE; 16 bits; 0. -/
  cycle : BitVec 16
  /-- R256 IN_VALUE, IN_VALID; 48 bits each; 0. -/
  inValue : BitVec 48
  inValid : BitVec 48
  /-- R256 PAIR_VALUE, PAIR_STATE; 24 and 48 bits; 0. -/
  pairValue : BitVec 24
  pairState : BitVec 48
  /-- R256 counter valid bits and STUCK; 4 bits each; 0. -/
  cntValid : BitVec 4
  cntStuck : BitVec 4
  /-- R286 CUM by counter; 16 bits each; 0. -/
  cum : Sparse (BitVec 16)
  /-- R251 points 100 to 105: not latched off, at or above 19.2 V, outputs enabled; 2 bits each; 0. -/
  vfOn : BitVec 2
  vfGood : BitVec 2
  enabled : BitVec 2
  /-- R251 OUTPUT_OK, ENERGISED, LOAD_OK; 16 bits each; 0. -/
  outOk : BitVec 16
  energised : BitVec 16
  loadOk : BitVec 16
  /-- R251 TP_OK; 8 bits; 0. -/
  tpOk : BitVec 8
  /-- R522: a field fault is latched; 1 bit; 0. -/
  fault : Bool
deriving DecidableEq, Repr

/-- The field die. -/
structure Field where
  /-- R495: it runs; 1 bit; 1. -/
  on : Bool
  /-- R256 refresh count of the field die; 16 bits; 0. -/
  refresh : BitVec 16
  /-- R258: the next tick is placed; 1 bit; 0. -/
  placing : Bool
  /-- R258: cycle of the last accepted TICK refresh; 16 bits; none. -/
  tickCycle : Option (BitVec 16)
  /-- R258: consecutive cycles with an accepted TICK refresh, up to 2; 2 bits; 0. -/
  tickRun : Nat
  /-- R255: CYCLE of the last accepted downstream refresh; 16 bits; 0. -/
  lastCycle : BitVec 16
  /-- R262: the configuration in force; none. -/
  config : Option LocalCfg
  /-- R255: refreshes in flight from the Sluices; none. -/
  down : PerLane (Option DownFrame)
  /-- R256: the sample of the last tick, and of the tick before it; none. -/
  sample : Option TickSample
  before : Option TickSample
  /-- R257 to R263: the three downstream streams. -/
  streams : PerLane StreamRec
  /-- R265: 48 inputs. -/
  inputs : Sparse InputRec
  /-- R268: 24 pairs. -/
  pairs : Sparse PairRec
  /-- R266: 8 test-pulse sources. -/
  sources : Sparse SourceRec
  /-- R273: 16 outputs. -/
  outputs : Sparse OutRec
  /-- R250, R282: the two supply groups. -/
  group1 : GroupRec
  group2 : GroupRec
  /-- R285: 4 counter inputs. -/
  counters : Sparse CountRec
  /-- R259: switch positions that the field die drives, bit layout of NOW, by lane; all open. -/
  closed : PerLane Word
  /-- R256 READBACK of the switches by lane; 32 bits each; 0. -/
  readback : PerLane Word
  /-- R522: Qn+ reads above VF - 3 V, Qn- reads below 3 V; 16 bits each; 0. -/
  termHigh : BitVec 16
  termLow : BitVec 16
  /-- R257, R517: a downstream refresh has been accepted since the start or the stop; 1 bit; 0. -/
  up : Bool
  /-- R263: the crossing is lost; 1 bit; 0. -/
  lost : Bool
  /-- R263: refresh starts since two streams were last bad, towards 100 ms; 0. -/
  goodFor : Nat
  /-- R517: module stop; 1 bit; 0. -/
  stopped : Bool
  /-- R264, R290 FAULT_CAUSE: latched field fault; none. -/
  fault : Option FieldFaultCause
  /-- R294 DOWN discarded refreshes, with SAT; 16 bits; 0. -/
  downErr : BitVec 16
  /-- R277: the last test window that holds a test or overlaps a lane switch test; none. -/
  usedWindow : Option Nat
  /-- R279: field time in ns, counted by the tick grid; 0. -/
  nowNs : Nat
  /-- R294 FLD_TEMP; 20 bits; 0. -/
  temp : BitVec 20
deriving DecidableEq, Repr

/-- An upstream refresh (R256). enabled, failing, downErr, the cause of fault, the hottest output of temp, lost, and the enabled,
LOAD_OK, OUTPUT_OK and terminal parts of the sample have no place in the layout of R256; the FLD registers and the local block show
them, and they are as the field die has them (DESIGN CHOICE, log entry 66). -/
structure UpFrame where
  refresh : BitVec 16
  sample : Option TickSample
  configured : Bool
  fault : Option FieldFaultCause
  g1 : VfSt
  g2 : VfSt
  enabled : BitVec 2
  streams : BitVec 3
  readback : PerLane Word
  outState : Word
  outDiag : Sparse Word
  tpOk : BitVec 8
  failing : Nat
  vf1 : BitVec 16
  vf2 : BitVec 16
  cfgCheck : Word
  downErr : BitVec 16
  temp : BitVec 20
  lost : Bool
deriving DecidableEq, Repr

/-- The local I/O as one lane sees it (R260, R263, R287, R289). -/
structure LaneFld where
  /-- R257 reference of the upstream stream; none. -/
  ref : Option (BitVec 16)
  /-- R263: refresh starts since the last accepted upstream refresh; 0. -/
  silent : Nat
  /-- R263: refresh starts since the last silence, towards 100 ms; 0. -/
  goodFor : Nat
  /-- R263 LOCAL_LOST; 1 bit; 0. -/
  lost : Bool
  /-- R256: the refresh in flight to this lane; none. -/
  inFlight : Option UpFrame
  /-- R289: the last accepted refresh, behind every FLD register; none. -/
  last : Option UpFrame
  /-- R260: the sample of the current tick, taken by END_INPUT - 10 µs; none. -/
  sample : Option TickSample
  /-- R287 totals by counter; 32 bits; 0. -/
  totals : Sparse Word
  /-- R287 EXACT by counter; 4 bits; 0. -/
  exact : BitVec 4
  /-- R287 CUM taken last by counter; 16 bits; none. -/
  cumLast : Sparse (BitVec 16)
  /-- R287: take CUM without adding, after a crossing loss, at the next sample held; the same once the sample of this cycle, taken before the
  loss, has been counted; 1 bit each; 0. -/
  retake : Bool
  retakeNext : Bool
  /-- R262: cycles in which CFG_CHECK has differed; 0. -/
  cfgDiff : Nat
  /-- R183: switches that read open against a closing drive in the last refresh, and in two refreshes in a row, by lane; 0. -/
  openRun : PerLane Word
  openSeen : PerLane Word
  /-- R292 FLD_OUT_SEL; 4 bits; 0. -/
  outSel : BitVec 4
  /-- R294 UP discarded refreshes, with SAT; 16 bits; 0. -/
  upErr : BitVec 16
  /-- R255: refresh count of the lane's downstream stream; 16 bits; 0. -/
  downRefresh : BitVec 16
  /-- R255, R262: configuration word index sent next; 5 bits; 0. -/
  cfgIndex : Fin 32
  /-- R273: ENERGISED at the last tick sample; 16 bits; 0. -/
  energised : BitVec 16
deriving DecidableEq, Repr

/-! ### EIC (R363 to R382) -/

/-- State of an EIC source (R366). -/
inductive SrcSt where
  | idle
  | pending
  | claimed
  | claimedAgain
deriving DecidableEq, Repr

/-- One EIC source (R366 to R370, R381). -/
structure EicSrc where
  st : SrcSt
  enabled : Bool
  h0 : Bool
  h1 : Bool
  priority : BitVec 3
  vector : BitVec 4
  count : BitVec 8
  ovf : Bool
  level : Bool
  claimedBy : EicTarget
  /-- R374: presented to, or claimed by, a fallback target; none. -/
  moved : Option EicTarget
deriving DecidableEq, Repr

/-- The EIC of one lane. -/
structure Eic where
  /-- R366: 1,024 sources; idle, disabled, priority 0. -/
  srcs : Sparse EicSrc
  /-- R379 THRESHOLD of SC, H0, H1; 3 bits each; 0. -/
  thrSc : BitVec 3
  thrH0 : BitVec 3
  thrH1 : BitVec 3
  /-- R379 FALLBACK of H0, H1; 1 bit each; 0. -/
  fbH0 : Bool
  fbH1 : Bool
  /-- R379 MOVING of H0, H1: asleep for 10 µs or more; 1 bit each; 0. -/
  moving : PerPort Bool
  /-- R379 BAD_COMPLETE and MOVED with SAT; 16 bits each; 0. -/
  badComplete : BitVec 16
  movedCount : BitVec 16
deriving DecidableEq, Repr

/-! ### Check-value units (R383 to R398) -/

/-- A user context (R392 to R398). -/
structure UserCtx where
  ctrl : Word
  status : Word
  poly : BitVec 64
  init : BitVec 64
  xorout : BitVec 64
  run : BitVec 64
  expect : BitVec 64
  result : BitVec 64
  bytes : Word
deriving DecidableEq, Repr

/-- The CHK block of one lane. -/
structure Chk where
  /-- R396: 64 user contexts; 0. -/
  users : Sparse UserCtx
  /-- R397 KAT_PASS; 4 bits; 0. -/
  kat : BitVec 4
  /-- R397 NET_FAULT; 1 bit; 0. -/
  netFault : Bool
  /-- R397 CYCLE; 16 bits; 0. -/
  katCycle : BitVec 16
  /-- R389: the cycle whose idle phase has run the check string last; none. -/
  checked : Option Word
  /-- R397 PERCENT; 7 bits; 0. -/
  loadPeak : BitVec 7
  /-- R397 CHK_CTX_SEL; 10 bits; 0. -/
  ctxSel : BitVec 10
deriving DecidableEq, Repr

/-! ### Cellar (R399 to R425) -/

/-- A Cellar record (R401). -/
structure Record where
  code : BitVec 16
  lane : Byte
  flags : Byte
  repeats : BitVec 16
  time : Time
  seq : BitVec 64
  payload : List Byte
deriving DecidableEq, Repr

/-- A token bucket and suppression window of one code (R412). Tokens are in units of 10⁻⁶. -/
structure Bucket where
  used : Nat
  window : Nat
  first : Time
  last : Time
  /-- CEL_SUPPRESS has been raised in this periodic flush interval. -/
  noted : Bool
deriving DecidableEq, Repr

/-- The Cellar side of one lane (R405 to R413). -/
structure CelLane where
  /-- R405: staged records, oldest first; empty. -/
  staging : List Record
  /-- R412, R425 IN_STAGING: codes whose last record is staged and not taken by a flush; none. -/
  inStaging : BitSpace
  /-- R409: the ring block of a record written through whose read-back is not over; none. -/
  through : Option Nat
  /-- R406: the periodic flush interval last served, in units of 100 ms of global time; 0. -/
  lastPeriod : Nat
  /-- R406: a record of a Flush code is staged; 1 bit; 0. -/
  flushDue : Bool
  /-- R412: buckets by code (tokens used, suppression window); full, empty. -/
  buckets : Sparse Bucket
  /-- R407: records lost since the last flush: count, first and last time; 0. -/
  lostRun : Nat
  lostFirst : Time
  lostLast : Time
  /-- R423 CEL_LAST_FLUSH; 32 bits; 0. -/
  lastFlush : Word
  /-- R423 CEL_STAGE_PEAK; 32 bits; 0. -/
  peak : Word
  /-- R424 CEL_LOST; 32 bits; 0. -/
  lost : Word
  /-- R424 CEL_DEV_ERR; 32 bits; 0. -/
  devErr : Word
  /-- R425 CEL_CODE_SEL; 16 bits; 0. -/
  codeSel : BitVec 16
  /-- R408: a power flush has been started by the 3V3 warning, so records are written through; 1 bit; 0. -/
  powerFlush : Bool
deriving DecidableEq, Repr

/-- Lane area of lifetime page 3 (R419). -/
structure LaneLifetime where
  isoTotal : BitVec 64
  retireTotal : BitVec 64
  overrunTotal : BitVec 64
  retired : Bool
  lastCause : IsoCause
  stamps : List Time
  bistPass : Time
deriving DecidableEq, Repr

/-- An entry of the history ring (R419). -/
structure HistEntry where
  time : Time
  kind : Byte
  lane : Byte
  value : Word
  detail : BitVec 64
  detail2 : BitVec 64
deriving DecidableEq, Repr

/-- The lifetime area of the Cellar (R417, R419). -/
structure Lifetime where
  /-- Page 0 SERIAL, MANUFACTURE_TIME; 64 bits each; set at manufacture (X), 0. -/
  serial : BitVec 64
  manufactured : Time
  /-- Page 0 FIRST_SERVICE_TIME, LAST_TIME; 64 bits; 0. -/
  firstService : Time
  lastTime : Time
  /-- Page 1 counts; 64 bits each; 0. -/
  operatingS : BitVec 64
  powerCycles : BitVec 64
  restarts : BitVec 64
  serviceS : BitVec 64
  service2S : BitVec 64
  timeSets : BitVec 64
  /-- Fractions of a second of OPERATING_S, SERVICE_S and SERVICE_2oo2_S, ns; 0. -/
  opNs : Nat
  svcNs : Nat
  svc2Ns : Nat
  /-- Page 2 lowest and highest die temperatures and bands; 0. -/
  tempLow : PerLane (BitVec 16)
  tempHigh : PerLane (BitVec 16)
  /-- Page 2: the lane's temperatures have been sampled; 1 bit each; 0. -/
  tempSeen : PerLane Bool
  tempBands : Sparse (BitVec 64)
  /-- Page 3. -/
  lanes : PerLane LaneLifetime
  /-- Page 4 FCS totals by 2s + m; 64 bits each; 0. -/
  fcs : Sparse (BitVec 64)
  /-- Page 4 withdrawal times by 2s + m; none. -/
  withdrawals : Sparse (List Time)
  /-- Page 4 retired media; 8 bits; 0. -/
  retiredMedia : BitVec 8
  /-- Page 4 ALK_TIMING_TOTAL; 64 bits; 0. -/
  timingTotal : BitVec 64
  /-- Page 4 ALK_TWIN_TOTAL TAKEOVERS, HANDOVERS with SAT; 16 bits each; 0. -/
  takeovers : BitVec 16
  handovers : BitVec 16
  /-- Page 4 twin load failure times; none. -/
  loadFails : List Time
  /-- Page 5 switch-on counts by output; 64 bits; 0. -/
  switchOns : Sparse (BitVec 64)
  /-- Page 5 retired output channels by output: fault and partner; none. -/
  retiredOuts : Sparse (BitVec 8)
  /-- Page 5 crossing-loss times; none. -/
  crossingLosses : List Time
  /-- Page 5 latched field-fault cause; none. -/
  fieldFault : Option FieldFaultCause
  /-- Page 6 KEY_VERSION; 16 bits; 0. -/
  keyVersion : BitVec 16
  /-- Page 6 NONCE_LAST; 64 bits; 0. -/
  nonceLast : BitVec 64
  /-- Page 6 VERSION_FLOOR; 32 bits; X. -/
  versionFloor : Word
  /-- Page 6 ROLE_EPOCH; 16 bits; 0. -/
  roleEpoch : BitVec 16
  /-- Page 6 CLEAR_TOTAL; 64 bits; 0. -/
  clearTotal : BitVec 64
  /-- Page 6 confirmed vintage and parameter check value; 32 and 64 bits; 0. -/
  confirmed : Word
  confirmedCheck : BitVec 64
  /-- R484 RESTART_INTO at 0x044 of page 6; 32 bits; 0. -/
  restartInto : Word
  /-- Page 7 RAA_PROOF_TOTAL; 64 bits; 0. -/
  proofTotal : BitVec 64
  /-- Page 7 SLC_LINK_ERR_TOTAL, SLC_DISSENT_TOTAL; 32 bits each; 0. -/
  linkErr : PerLane Word
  dissent : PerLane Word
  /-- Page 7 MBX totals by port; 32 bits each; 0. -/
  refuse : PerPort Word
  stale : PerPort Word
  authFail : PerPort Word
  /-- Page 8 clear history, newest first, at most 64; none. -/
  clears : List (List Byte)
  /-- Page 10 commissioning key; 256 bits; 0. -/
  key : BitVec 256
  /-- Pages 11 to 13 repair maps; empty. -/
  repairs : PerLane (List SoftRepair)
  /-- Page 15 history write position and OVERWRITTEN; 32 and 64 bits; 0. -/
  histPos : Nat
  overwritten : BitVec 64
  /-- Pages 16 to 143 history ring, newest first, at most 16,256; empty. -/
  history : List HistEntry
deriving DecidableEq, Repr

/-- State of an MRAM device (R423). -/
inductive DevSt where
  | notRead
  | good
  | failed
deriving DecidableEq, Repr

/-- The two MRAM devices (R399 to R404). -/
structure Cellar where
  /-- R423 DEV0, DEV1; not yet read. -/
  dev0 : DevSt
  dev1 : DevSt
  /-- R402 NEXT_SEQ; 64 bits; X, 0. -/
  nextSeq : BitVec 64
  /-- R402 FIRST_SEQ; 64 bits; X, 0. -/
  firstSeq : BitVec 64
  /-- R400 records of the log ring, newest first, each with the count of the 4 KB block that holds it; empty. -/
  log : List (Nat × Record)
  /-- R399, R400 write position: blocks opened since the log was last emptied, and bytes used of the open block; 0. -/
  wrBlock : Nat
  wrOff : Nat
  /-- R415 record of the clear slot; none. -/
  clearSlot : Option Record
  /-- R410, R414: copies of records and pages that are known not to verify in Cellar 0 and Cellar 1; none. -/
  bad0 : List CopyAt
  bad1 : List CopyAt
  /-- R418: the keeper; none before the first tick. -/
  keeper : Option Lane
  /-- R416: the clear of this cycle, until END_INPUT, which a new keeper repeats; none. -/
  clearing : Option (HostRef × BitVec 16 × BitVec 64)
  /-- R418: the lifetime area as the keeper holds it, and as it stands in the MRAM. -/
  life : Lifetime
  paged : Lifetime
  /-- R417: writes of a logical page, by which its generation has grown; 64 bits each; 0. -/
  gens : Sparse (BitVec 64)
deriving DecidableEq, Repr

/-! ### Mboxus (R295 to R329) -/

/-- MBX_RING_STATE.HALT (R327). -/
inductive HaltCause where
  | none
  | dma
  | linkHold
  | setup
deriving DecidableEq, Repr

/-- One ring (R300, R301, R327). -/
structure Ring where
  /-- R327 ENABLE; 1 bit; 0. -/
  enabled : Bool
  /-- R327 SIZE_LOG2; 4 bits; 0. -/
  sizeLog2 : BitVec 4
  /-- R327 CQ (SQ only); 4 bits; 0. -/
  cq : BitVec 4
  /-- R327 IRQ_EN (CQ only); 1 bit; 0. -/
  irqEn : Bool
  /-- R327 COALESCE (CQ only); 10 bits; 0. -/
  coalesce : BitVec 10
  /-- R326 base address; 64 bits; 0. -/
  base : BitVec 64
  /-- R327 HEAD, TAIL; 12 bits each; 0. -/
  head : BitVec 12
  tail : BitVec 12
  /-- R327 HALT; 2 bits; none. -/
  halt : HaltCause
  /-- R313: paused by a descriptor that did not fit; 1 bit; 0. -/
  kept : Bool
  /-- R301 PHASE (CQ only); 1 bit; 0. -/
  phase : Bool
  /-- R301: how often the ring has been enabled; model's own; 0. -/
  epoch : Nat
  /-- R324: completions with IRQ not yet signalled; 1 bit; 0. -/
  unsignalled : Bool
  /-- R319: the order of the FENCE of this SQ that waits for its completion; none. -/
  fenced : Option Nat
  /-- R306: the fetched first slot of an authorised descriptor, whose second slot is awaited; none. -/
  half : Option (BitVec 512)
deriving DecidableEq, Repr

/-- What the module writes to host memory (R316, R323, R305). -/
inductive HostWrite where
  | completion (port : Port) (cq : Fin 16) (slot : BitVec 12) (bytes : BitVec 512)
  | status (port : Port) (addr : BitVec 64) (gen : BitVec 64) (words : List Word)
  | data (port : Port) (addr : BitVec 64) (words : List Word)
deriving DecidableEq, Repr

/-- One host port. -/
structure PortState where
  /-- R326 LINK_UP; 1 bit; 0. -/
  linkUp : Bool
  /-- R326 SPEED; 2 bits; 0. -/
  speed : BitVec 2
  /-- R503: PERST_N is low; 1 bit; 0. -/
  perst : Bool
  /-- R295, R374: the endpoint is in D3hot; 1 bit; 0 (D0). -/
  d3hot : Bool
  /-- R326 HOLD_EXPIRED; 1 bit; 0. -/
  holdExpired : Bool
  /-- R326 STATUS_EN; 1 bit; 0. -/
  statusEn : Bool
  /-- R326 LINK_HOLD; 10 bits; 0x064. -/
  linkHold : BitVec 10
  /-- R326 status image address; 64 bits; 0. -/
  statusBase : BitVec 64
  /-- R327 RING and KIND; 5 bits; 0. -/
  ringSel : BitVec 5
  sqs : Sparse Ring
  cqs : Sparse Ring
  /-- R328 DOORBELL and ACCESS with SAT; 16 bits each; 0. -/
  doorbellErr : BitVec 16
  accessErr : BitVec 16
  /-- R323 status image writes since BOOT; 64 bits; 0. -/
  gen : BitVec 64
  /-- R466: the port fetches nothing while the ring lane runs logic BIST or the march; 1 bit; 0. -/
  paused : Bool
  /-- R295 MSI-X table in BAR2: address and data words of the entries, 4 × vector + word; 32 bits each; 0. -/
  msixWords : Sparse Word
  /-- R295, R368: vectors whose entry is not masked; 32 bits; 0. -/
  msixOpen : BitVec 32
  /-- R295 pending-bit array in BAR2; 32 bits; 0. -/
  pba : BitVec 32
  /-- R324: MSI-X vectors sent (output), newest first; none. -/
  msix : List (BitVec 5)
  /-- Count of descriptors fetched, their order of arrival; model's own; 0. -/
  fetched : Nat
  /-- R320: the SQ that was fetched from last, and how many descriptors more its fetch may bring; 4 and 3 bits; 15 and 0. -/
  turnSq : Fin 16
  turnLeft : Nat
  /-- R295: bits of baseline error reporting (correctable, non-fatal, fatal, unsupported request) and the uncorrectable and correctable status of
  AER; 4, 32 and 32 bits; 0 (log entry 85). -/
  devErr : BitVec 4
  aerUncorrectable : Word
  aerCorrectable : Word
deriving DecidableEq, Repr

/-- A consumed sequence number in the ledger (R309): outcome status, term, cycle, time, RESULT, once completed. -/
structure LedgerEntry where
  sequence : Word
  code : BitVec 64
  done : Bool
  status : Byte
  term : Byte
  cycle : Word
  time : Time
  result : BitVec 128
deriving DecidableEq, Repr

/-- The ledger of one SQ (R309). -/
structure Ledger where
  last : Option Word
  entries : List LedgerEntry
deriving DecidableEq, Repr

/-- The data of a staging chunk as the DMA moved it: its bytes, and with the last chunk the unpacked vintage or delta (R393,
R429, R447). -/
structure StageData where
  bytes : List Byte
  parts : Option Vintage
  signed : Option Bool
deriving DecidableEq, Repr

/-- How far a staging descriptor's data has come: its turn among those of its SQ is to come, it feeds the user contexts, it has been moved and
executed (R393, R394). -/
inductive FeedSt where
  | waiting
  | begun
  | fed
deriving DecidableEq, Repr

/-- A descriptor that the lane has taken and not yet completed (R308, R311, R313). -/
structure Taken where
  ref : HostRef
  desc : BitVec 512
  /-- The CQ's enable count when the descriptor was taken (R301). -/
  cqEpoch : Nat
  /-- It has joined a batch (R311, R313). -/
  inBatch : Bool
  /-- Its execution has started at a tick and has not ended (R314). -/
  started : Bool
  /-- A resubmission that completes when its original does (R309). -/
  replay : Bool
  /-- A FENCE has seen a status image write since its predecessors completed (R319). -/
  fenceSeen : Bool
  keyVersion : BitVec 16
  nonce : BitVec 64
  /-- Data of a staging chunk, once moved (R314). -/
  data : Option StageData
  /-- R393, R394. -/
  feed : FeedSt
deriving DecidableEq, Repr

/-- A completion that a lane has composed (R315, R316). -/
structure Completion where
  ref : HostRef
  cqEpoch : Nat
  status : Byte
  term : Byte
  replay : Bool
  consumed : Bool
  cycle : Word
  time : Time
  result : BitVec 128
  epoch : BitVec 16
deriving DecidableEq, Repr

/-- The host side of one lane (R308, R309, R316). -/
structure LaneMbx where
  /-- R309 ledgers by 16 × port + SQ; empty. -/
  ledgers : Sparse Ledger
  /-- R311: descriptors taken, in order of arrival; none. -/
  taken : List Taken
  /-- R316: completions composed and not yet written; none. -/
  composed : List Completion
deriving DecidableEq, Repr

/-! ### Banks, firmware, BIST, supplies (R426 to R471, R514) -/

/-- State of a staged bank (R428). -/
inductive BankSt where
  | empty
  | receiving
  | staged
  | previous
deriving DecidableEq, Repr

/-- The two banks and stores of one lane (R426 to R433). -/
structure Bank where
  /-- R426: the active vintage; none. -/
  active : Option Vintage
  /-- R430: the lanes' parameter check value of it; 64 bits; 0. -/
  activeCheck : BitVec 64
  /-- R428, R455 STATE; EMPTY. -/
  st : BankSt
  /-- R454 UPD_STAGED: vintage number in the staged bank; 32 bits; 0. -/
  number : Word
  /-- The vintage in the staged bank; none. -/
  staged : Option Vintage
  stagedCheck : BitVec 64
  /-- R455 VERIFYING; 1 bit; 0. -/
  verifying : Bool
  /-- R432: what the unpublished parts of the image say, while verification runs; none. -/
  parts : Option Vintage
  /-- R455 REASON; 8 bits; 0. -/
  reason : Byte
  /-- R454 UPD_STAGE_BYTES; 32 bits; 0. -/
  bytes : Nat
  /-- R431: the receiving area of the LPDDR4X: the bytes taken; none. -/
  received : List Byte
  /-- R443: expiry of a PREVIOUS vintage; 64 bits; 0. -/
  expiry : Time
  /-- R426 stores A and B with STAGE_GEN; none. -/
  storeA : Option (Vintage × Nat)
  storeB : Option (Vintage × Nat)
  /-- R433: what the lane is to write to its stores after it has joined, for banks that it has taken; none. -/
  rewrite : Option (Option (Vintage × Nat) × Option (Vintage × Nat))
  /-- R443: the PREVIOUS vintage that has expired since the last racking or staging; none. -/
  lapsed : Option Word
  /-- R435: an accepted racking waits for its switch: its descriptor and direction; none. -/
  rackTo : Option (Taken × Bool)
  /-- R439: the switch has been made and its RACK awaits completion; none. -/
  rackDone : Option (Taken × Bool)
  /-- R453: the vintage that the last switch left; 32 bits; 0. -/
  left : Word
  /-- R455 UPD_RACK; 32 bits; 0. -/
  rackReg : Word
deriving DecidableEq, Repr

/-- State of a firmware slot (R456). -/
inductive SlotSt where
  | empty
  | valid
  | parked
  | rejected
deriving DecidableEq, Repr

/-- Firmware and boot of one lane (R444 to R456). -/
structure Boot where
  /-- R37 LANE_FW_VERSION; 32 bits; X. -/
  version : Word
  /-- R426, R447: the full image in the boot slot, up to 8 MB; X. -/
  image : List Byte
  /-- R456, R472: BOOT has read the slot headers, so UPD_FW shows them; 1 bit; 0. -/
  slotsRead : Bool
  /-- R454 UPD_SLOT0, UPD_SLOT1; 32 bits each; X. -/
  slot0 : Word
  slot1 : Word
  /-- R456 SLOT0, SLOT1; valid as shipped. -/
  st0 : SlotSt
  st1 : SlotSt
  /-- R456 BOOT_SLOT; 1 bit; 0. -/
  slot : Bool
  /-- R456 STEP; 3 bits; 0. -/
  step : BitVec 3
  /-- R456 REASON; 8 bits; 0. -/
  reason : Byte
  /-- R456 FAILED_BOOTS; 2 bits; 0. -/
  failed : Nat
  /-- R448: bytes of the delta taken so far; 0. -/
  deltaBytes : Nat
  /-- R448: a delta is being taken; 1 bit; 0. -/
  taking : Bool
  /-- R431, R448: the receiving area: the bytes of the delta; none. -/
  delta : List Byte
  /-- R448: the update that runs, with its descriptor; none. -/
  update : Option (FwDelta × Taken)
  /-- R445 FLOOR of the image in the boot slot; 32 bits; X. -/
  floor : Word
  /-- R445: FLOOR of the image in the other slot; 32 bits; X. -/
  otherFloor : Word
  /-- R426, R448: the full image in the other slot, up to 8 MB; X. -/
  otherImage : List Byte
  /-- R454 UPD_ROM_ADDR, UPD_ROM_LEN; 64 and 32 bits; 0. -/
  romAddr : BitVec 64
  romLen : Word
  /-- R455 UPD_ROM_STATUS; 32 bits; 0. -/
  romStatus : Word
  /-- R452: the image that the ROM writes and the path it came by; none. -/
  romImage : Option (FwImage × Byte)
deriving DecidableEq, Repr

/-- BIST of one lane (R457 to R471). -/
structure Bist where
  /-- R471 PHASE; 3 bits; 0. -/
  phase : BitVec 3
  /-- R471 DUE, OVERDUE; 1 bit each; 0. -/
  due : Bool
  overdue : Bool
  /-- R464: a maintainer's request waits: with the march; none. -/
  requested : Option Bool
  /-- R464: the request was taken since the last tick, and starts at the next one; 1 bit; 0. -/
  asked : Bool
  /-- R471 LAST, TRIGGER; 2 bits each; 0. -/
  last : BitVec 2
  trigger : BitVec 2
  /-- R471 CYCLE; 16 bits; 0. -/
  cycle : BitVec 16
  /-- R471 LANE_BIST_RESULT; 32 bits; 0. -/
  result : Word
  /-- R461: scheduled BISTs since the last march; 0. -/
  sinceMarch : Nat
  /-- R461: the running BIST includes the DRAM march; 1 bit; 0. -/
  march : Bool
  /-- R465: tick time of the start of the BIST that runs or ran last; 64 bits; 0. -/
  startedAt : Time
  /-- R457: ns that the BIST has run at the last tick; 0. -/
  runNs : Nat
  /-- R471 PASSES, FAILS with SAT; 16 bits each; 0. -/
  passes : BitVec 16
  fails : BitVec 16
  /-- R463: time of the last OVERDUE record; none. -/
  overdueAt : Option Time
  /-- R471 SOFT, EXHAUSTED of LANE_REPAIR: soft-repaired rows loaded; 0. -/
  repairs : List SoftRepair
  /-- R459, R460, R471 FUSED: spare rows fused at the factory, a bit for each spare of a macro; 8 bits each; from the die. -/
  fused : Sparse (BitVec 8)
deriving DecidableEq, Repr

/-- Supply monitors of one lane (R514, R515). -/
structure Pwr where
  coreWarn : Bool
  /-- PWR_RAIL0, PWR_RAIL1 in mV; 12 bits each; 0. -/
  coreMv : BitVec 12
  v3Mv : BitVec 12
  ioMv : BitVec 12
  anaMv : BitVec 12
  /-- PWR_TEMP; 24 bits; 0. -/
  temp : BitVec 24
  /-- The die temperatures have been measured since BOOT; model's own; 0. -/
  sampled : Bool
  /-- PWR_WARN counts with SAT; 16 bits each; 0. -/
  coreWarns : BitVec 16
  v3Warns : BitVec 16
deriving DecidableEq, Repr

/-- The snapshot of a state transfer (R188): what it carries of a lane. -/
structure Snapshot where
  /-- Press data spaces, with the marks of new edge memories and the calls that wait for the next queue. -/
  data : PressData
  newEdges : BitSpace
  issued : List QEntry
  hasRun : Bool
  /-- Element states, RAA locks and route status, RAA queue. -/
  elems : Sparse ElemState
  locks : Sparse Lock
  lastStatus : Sparse (BitVec 8)
  queue : List QEntry
  /-- Session contexts, last valid station images, miss counters. -/
  sessions : Sparse Session
  /-- Counter inputs. -/
  totals : Sparse Word
  exact : BitVec 4
  cumLast : Sparse (BitVec 16)
  retake : Bool
  /-- Command ledger, with the commands under way. -/
  ledgers : Sparse Ledger
  taken : List Taken
  /-- R189: blocks that the serving lanes have marked since they were sent. -/
  marks : BitSpace
deriving DecidableEq, Repr

/-- Everything one lane holds. -/
structure LaneState where
  life : LaneLife
  press : Press
  raa : Raa
  sessions : Sparse Session
  /-- R244 ALK_SESSION_SEL; 10 bits; 0. -/
  sessSel : BitVec 10
  /-- R249 ALK_VALID0 to ALK_VALID15; 512 bits; 0. -/
  alkValid : BitSpace
  fld : LaneFld
  eic : Eic
  chk : Chk
  cel : CelLane
  mbx : LaneMbx
  bank : Bank
  boot : Boot
  bist : Bist
  pwr : Pwr
  link : ImageLink
  /-- R188: the snapshot that the serving lanes send to this lane while it reintegrates, as they froze it; none. -/
  xfer : Option Snapshot
  /-- R76 LANE_LOGIC_PEAK, LANE_RAA_PEAK; 18 bits each; 0. -/
  logicPeak : Nat
  raaPeak : Nat
  /-- R66: the lane has overrun in this cycle; 1 bit; 0. -/
  overran : Bool
deriving DecidableEq, Repr

/-! ### Twin pair (R330 to R362) -/

/-- Twin state (R332). -/
inductive TwinSt where
  | none
  | waiting
  | active
  | unpaired
  | loading
  | checking
  | paired
  | out
deriving DecidableEq, Repr

/-- A command forwarded in the twin slot (R339). -/
structure FwdCmd where
  cls : Byte
  port : Port
  sq : Fin 16
  tag : BitVec 16
  arg : BitVec 16
  arg2 : Byte
  ext : BitVec 128
deriving DecidableEq, Repr

/-- What one lane takes from its own copies of the partner's TWIN frames (R232, R341, R344, R345, R353). -/
structure TwinLane where
  /-- R361 MATCH, MATCH_RUN; 0. -/
  isMatch : Bool
  matchRun : Nat
  /-- R361 MISMATCH_CYCLE; 16 bits; 0. -/
  mismatchCycle : BitVec 16
  /-- R341 reference of the partner's SEQUENCE; none. -/
  rxSeq : Option Word
  /-- R341: cycles without an accepted frame; 0. -/
  silent : Nat
  /-- R345: entry words accepted from the ACTIVE for the next batch; none. -/
  words : List FwdCmd
  /-- R353: the lane takes the blocks of a load and has not had its FINAL; 1 bit; 0. -/
  loading : Bool
deriving DecidableEq, Repr

/-- The twin side of the module. -/
structure Twin where
  /-- R361 STATE; 4 bits; NONE. -/
  st : TwinSt
  /-- R333: role epoch in force; 16 bits; 0. -/
  epoch : BitVec 16
  /-- R361 PARTNER; 4 bits; 0. -/
  partner : BitVec 4
  /-- R361 PARTNER_SEEN; 1 bit; 0. -/
  seen : Bool
  /-- R347: lanes that have accepted a TWIN frame in this cycle, and one with FLAGS.ACTIVE; 3 bits each; 0. -/
  gotNow : BitVec 3
  gotActive : BitVec 3
  /-- R347: lanes that accepted a TWIN frame from the ACTIVE in the last cycle; 3 bits; 0. -/
  lastActive : BitVec 3
  /-- RELEASED, HANDOVER, EPOCH and FLAGS.ACTIVE of the partner's last accepted frame; 0. -/
  released : Bool
  partnerHandover : Bool
  partnerEpoch : BitVec 16
  partnerActive : Bool
  /-- STAGED of the partner's last accepted frame (R346); 32 bits; 0. -/
  partnerStaged : Word
  partnerVintage : Word
  /-- LOAD_REQ of the partner's last accepted frame; 1 bit; 0. -/
  partnerLoadReq : Bool
  /-- R232: what each lane takes from its own copies. -/
  own : PerLane TwinLane
  /-- R337 send number of the twin session; 32 bits; 0. -/
  txSeq : Word
  /-- R337 ECHO_SEQ; 32 bits; 0. -/
  echo : Word
  /-- R348: a handover has been requested, HANDOVER is set; 1 bit; 0. -/
  handover : Bool
  /-- R348: a frame with HANDOVER has been composed; 1 bit; 0. -/
  handoverSent : Bool
  /-- R349: yield at the next tick to this epoch; none. -/
  yield : Option (BitVec 16)
  /-- R353: a load runs; 1 bit; 0. -/
  loadRun : Bool
  /-- R353: marked blocks; 13 bits as PENDING; 0. -/
  marks : List Nat
  /-- R353: index of the last block sent; 13 bits; 0. -/
  lastBlock : Nat
  /-- R353: send number and block of the frame of this cycle, and of the last cycle's frame while not echoed; none. -/
  sentNow : Option (Word × Nat)
  unechoed : Option (Word × Nat)
  /-- R361 CYCLES; 15 bits; 0. -/
  loadCycles : Nat
  /-- R356, R361 STOPPED; 1 bit; 0. -/
  stopped : Bool
  /-- R356: global time before which no new automatic load starts; 64 bits; 0. -/
  retryAt : Time
  /-- R362 REJECTED, STALE with SAT; 16 bits each; 0. -/
  rejected : BitVec 16
  stale : BitVec 16
  /-- R360 own digest of the last completed cycle; 128 bits; 0. -/
  digest : BitVec 128
deriving DecidableEq, Repr

/-! ### The module -/

/-- Module states (R19); OFF covers an unpowered module and one held in reset. -/
inductive ModSt where
  | off
  | boot
  | starting
  | commissioning
  | svc3
  | svc2
  | safe
  | recovery
deriving DecidableEq, Repr

/-- Phases of the cycle (R54). -/
inductive Phase where
  | idle
  | input
  | logic
  | vote
  | output
deriving DecidableEq, Repr

/-- Result of the field configuration test (R479). -/
inductive TestSt where
  | running
  | passed
  | failed
deriving DecidableEq, Repr

/-- What the module as a whole holds. -/
structure Module where
  /-- R19 MODULE; BOOT. -/
  st : ModSt
  /-- R53 cycle count; 32 bits; 0. -/
  cycle : Word
  /-- R74 LANE_TICK_TIME; 64 bits; X, 0. -/
  tickTime : Time
  /-- R50: ticks run (the bus or, under R475, the lanes among themselves); 1 bit; 0. -/
  ticking : Bool
  /-- R50: the next tick is the first one and keeps count and time; model's own; 0. -/
  firstTick : Bool
  /-- R54; idle. -/
  phase : Phase
  /-- R254: crossing refreshes started since the tick; 0. -/
  refreshes : Nat
  /-- R476, R488 TIME_UNSURE; 1 bit; 1. -/
  timeUnsure : Bool
  /-- R475, R488 NO_VINTAGE; 1 bit; 0. -/
  noVintage : Bool
  /-- R474: cycles since the module start tick; none before it. -/
  sinceStart : Option Nat
  /-- R479: cycle count at which the start-up tests began; none. -/
  testsFrom : Option Word
  /-- R479 field configuration test; running. -/
  fieldTest : TestSt
  /-- R479 vote test: every vote has agreed; 1 bit; 1. -/
  voteTest : Bool
  /-- R488 TESTS_PASSED; 1 bit; 0. -/
  testsPassed : Bool
  /-- R169: the result of the vote of this cycle; none. -/
  result : Option Image
  /-- R179: the last voted result, whose Q and LQ are served; none. -/
  voted : Option Image
  /-- R493, R515 V3_WARN; 1 bit; 0. -/
  v3Warn : Bool
  /-- R515 POWER_FLUSH; 1 bit; 0. -/
  powerFlush : Bool
  /-- R488 RESTART_INTO: the last BOOT took a vintage from RESTART_INTO; 1 bit; 0. -/
  bootedInto : Bool
  /-- R484: the vintage of RESTART_INTO that this BOOT has taken; 32 bits; 0 (none). -/
  bootInto : Word
  /-- R475: a staging ended DONE without an active vintage, the module restarts into it; none. -/
  restartTo : Option Word
deriving DecidableEq, Repr

/-- The module's state. -/
structure State where
  mod : Module
  lanes : PerLane LaneState
  sluices : PerLane Sluice
  alk : Alk
  field : Field
  ports : PerPort PortState
  twin : Twin
  cellar : Cellar
  /-- Writes to host memory (output), newest first. -/
  hostMem : List HostWrite
  /-- Value answered by the last register read (output). -/
  bus : Word
  /-- Index of the next free value (the model's own, not the spec's). -/
  free : Nat
  /-- Commands that wait, first in, first out. -/
  pending : List Instr
deriving DecidableEq, Repr

/-! ### Reset values -/

def LaneLife.reset : LaneLife :=
  { st := .boot, rom := false, held := false, railHeld := false, entry := .fromBoot, testsDone := false, join := .none, cause := .none
    isoCycle := 0, loneHeld := false, planned := .none, plannedNow := false, startStep := 0, bootMs := 0, resetCause := 1, prevCause := 0
    clearPending := false, classNoted := false }

def Strand.reset : Strand :=
  { pc := 0, cog := false, acc := 0, sat := false, stack := [], running := false, ended := false, ran := false
    waiting := none, passed := none, doneClk := 0, endClk := 0, peak := 0 }

def TimerRec.reset : TimerRec := { start := 0, out := false, run := false, last := false, esat := false }

def CounterRec.reset : CounterRec := { count := 0, sat := false }

def Views.reset : Views := { inputs := 0, logic := 0, published := 0, kept := none }

def PressData.reset : PressData :=
  { iv := [], ifv := [], q := [], m := [], t := [], c := [], e := [], w := [], lv := [], lf := [], lq := [], x := []
    rs := [], k := 2, views := Views.reset }

def Press.reset : Press :=
  { data := PressData.reset
    strands := { s0 := Strand.reset, s1 := Strand.reset, s2 := Strand.reset, s3 := Strand.reset }
    active := false, clock := 0, writes := [], done := none, halted := false, faultKind := .none, faultStrand := 0
    faultCycle := 0, faultAddr := 0, issued := [], entered := 0, dropped := 0, calls := 0, satCount := 0
    hasRun := false, newEdges := [], wrote := [] }

def ElemState.reset : ElemState :=
  { valid := false, clear := false, detected := 0, commanded := 0, moving := false, moveFault := false, blocked := false
    pathHeld := false, overlapHeld := false, startHeld := false, occSeen := false, virt := false, owner := 0
    flankCount := 0, flankPos := 0, changeTime := 0, seen := false }

/-- A lock entry's default, which no held route has. -/
def Lock.none : Lock :=
  { time := 0, released := 0, everLocked := false, locked := false, setting := false, proofFailed := false
    setTimeout := false, entered := false, cancel := Option.none, ovl := Option.none }

def Raa.reset : Raa :=
  { elems := [], locks := [], lastStatus := [], queue := [], decided := 0, refused := 0, length := 0, toProve := []
    proved := 0, virtSnap := [], releases := [], failedAspects := [], statHeld := 0, statLocked := 0, activity := 0
    queueReg := 0, decidedReg := 0, lastFail := 0, lastFailCycle := 0, holdoverPeak := 0, workEnd := 0
    moveFaults := 0, loaded := [] }

def LaneCodes.none : LaneCodes := { twin := 0, stations := [], peers := [] }

def LinkRx.reset : LinkRx := { image := Option.none, codes := LaneCodes.none, complete := false, checkOk := false }

def ImageLink.reset : ImageLink :=
  { image := none, codes := LaneCodes.none, rx := PerLane.all LinkRx.reset, compared := false }

def Sluice.reset : Sluice :=
  { latch := false, latchCause := .none, latchCycle := 0, lone := false, voting := 0, result := none, images := 0, dissent := 0
    codes := 0, outcome := 0, digestOk := false, voteCycle := 0, decisionTime := 0, linkUp := 0, linkTimedOut := 0
    linkReset := 0, now := 0, next := 0, vctl := 0, testMask := 0, stuckClosed := 0, testRunning := false
    testAborted := false, closeDone := false, closeOk := false, tickDev := 0 }

def DelayRec.reset : DelayRec :=
  { d := none, next := none, dOut := 0, t2 := none, result := none, t1 := none, t2Now := none, t1Now := none, resultNow := none }

def MediumRec.reset : MediumRec :=
  { st := .notConfigured, unlocked := 0, sideA := DelayRec.reset, sideB := DelayRec.reset, losses := [], lostNow := 0
    lapse := false, clean := false }

def Alk.reset : Alk :=
  { node := .down, firstNode := 0x3FF, backup := false, backupNow := false, segSync := 0, segNow := 0, offset := 0
    warn := false, warnings := 0, outRun := 0, missRun := 0, blockRun := 0, blockNow := false, goodSync := false, spoiled := false
    coldStarts := 0, silences := 0, t0 := 0, heardCold := false, heard := [], media := [], tx := [] }

def Session.reset : Session :=
  { st := .notConfigured, miss := 0, timing := 0, codeErr := 0, seqErr := 0, misses := 0, rxSeq := 0, rxRef := false
    txSeq := 0, txWrapped := false, got := false, opened := false, fresh := false, readmits := [], values := [], valids := [], lastAt := 0 }

def InputRec.reset : InputRec := { run := 0, filtered := false, fails := 0, passes := 0, tpBad := false }

def PairRec.reset : PairRec := { st := .invalid, run := 0, zeroSeen := false }

def SourceRec.reset : SourceRec := { bad := false, low := 0 }

def OutRec.reset : OutRec :=
  { heldOff := false, retired := false, awaitZero := false, zeroVoted := false, trips := 0, tripAt := 0, hot := false, energisedNs := 0
    current := 0, fault := .none, partner := 0, offPassed := false, onPassed := false, loadOk := false, test := .none
    testDue := false, offIn := none, onIn := none, toTry := none }

def GroupRec.reset : GroupRec :=
  { st := .normal, bad := 0, vfOff := false, good := 0, warn := false, enabled := false, latched := false, recoveredAtTick := false
    vctl := false, vf := 0 }

def CountRec.reset : CountRec := { delta := 0, stuck := false, cum := 0 }

def StreamRec.reset : StreamRec :=
  { ref := none, silent := 0, lost := true, openUntilTick := false, localLost := false, swtest := false, drive := 0
    next := 0, vctl := 0, words := [] }

def Field.reset : Field :=
  { on := true, refresh := 0, placing := false, tickCycle := none, tickRun := 0, lastCycle := 0, config := none
    down := PerLane.all none, sample := none, before := none
    streams := PerLane.all StreamRec.reset, inputs := [], pairs := [], sources := [], outputs := []
    group1 := GroupRec.reset, group2 := GroupRec.reset, counters := [], closed := PerLane.all 0
    readback := PerLane.all 0, termHigh := 0, termLow := 0, up := false, lost := false, goodFor := 0, stopped := false, fault := none, downErr := 0, usedWindow := none, nowNs := 0, temp := 0 }

def LaneFld.reset : LaneFld :=
  { ref := none, silent := 0, goodFor := 0, lost := false, inFlight := none, last := none, sample := none, totals := []
    exact := 0, cumLast := [], retake := false, retakeNext := false, cfgDiff := 0, openRun := PerLane.all 0, openSeen := PerLane.all 0, outSel := 0, upErr := 0
    downRefresh := 0, cfgIndex := 0, energised := 0 }

def EicSrc.reset : EicSrc :=
  { st := .idle, enabled := false, h0 := false, h1 := false, priority := 0, vector := 0, count := 0, ovf := false
    level := false, claimedBy := .sc, moved := none }

def Eic.reset : Eic :=
  { srcs := [], thrSc := 0, thrH0 := 0, thrH1 := 0, fbH0 := false, fbH1 := false
    moving := { p0 := false, p1 := false }, badComplete := 0, movedCount := 0 }

def UserCtx.reset : UserCtx :=
  { ctrl := 0, status := 0, poly := 0, init := 0, xorout := 0, run := 0, expect := 0, result := 0, bytes := 0 }

def Chk.reset : Chk := { users := [], kat := 0, netFault := false, katCycle := 0, checked := none, loadPeak := 0, ctxSel := 0 }

def Bucket.reset : Bucket := { used := 0, window := 0, first := 0, last := 0, noted := false }

def CelLane.reset : CelLane :=
  { staging := [], inStaging := [], through := none, lastPeriod := 0, flushDue := false, buckets := [], lostRun := 0, lostFirst := 0
    lostLast := 0, lastFlush := 0, peak := 0, lost := 0, devErr := 0, codeSel := 0, powerFlush := false }

def LaneLifetime.reset : LaneLifetime :=
  { isoTotal := 0, retireTotal := 0, overrunTotal := 0, retired := false, lastCause := .none, stamps := []
    bistPass := 0 }

/-- The firmware version that the model takes as shipped (log entry 3). -/
def factoryVersion : Word := 0x0001_0000

def Lifetime.reset : Lifetime :=
  { serial := 0, manufactured := 0, firstService := 0, lastTime := 0, operatingS := 0, powerCycles := 1, restarts := 0
    serviceS := 0, service2S := 0, timeSets := 0, opNs := 0, svcNs := 0, svc2Ns := 0, tempLow := PerLane.all 0
    tempHigh := PerLane.all 0, tempSeen := PerLane.all false, tempBands := [], lanes := PerLane.all LaneLifetime.reset, fcs := [], withdrawals := []
    retiredMedia := 0, timingTotal := 0, takeovers := 0, handovers := 0, loadFails := [], switchOns := []
    retiredOuts := [], crossingLosses := [], fieldFault := none, keyVersion := 0, nonceLast := 0
    versionFloor := factoryVersion, roleEpoch := 0, clearTotal := 0, confirmed := 0, confirmedCheck := 0
    restartInto := 0, proofTotal := 0, linkErr := PerLane.all 0, dissent := PerLane.all 0, refuse := ⟨0, 0⟩
    stale := ⟨0, 0⟩, authFail := ⟨0, 0⟩, clears := [], key := 0, repairs := PerLane.all [], histPos := 0
    overwritten := 0, history := [] }

def Cellar.reset : Cellar :=
  { dev0 := .notRead, dev1 := .notRead, nextSeq := 0, firstSeq := 0, log := [], wrBlock := 0, wrOff := 0, clearSlot := none, bad0 := [], bad1 := []
    keeper := none, clearing := none, life := Lifetime.reset, paged := Lifetime.reset, gens := [] }

def Ring.reset : Ring :=
  { enabled := false, sizeLog2 := 0, cq := 0, irqEn := false, coalesce := 0, base := 0, head := 0, tail := 0
    halt := .none, kept := false, phase := false, epoch := 0, unsignalled := false, fenced := none, half := none }

def PortState.reset : PortState :=
  { linkUp := false, speed := 0, perst := false, d3hot := false, holdExpired := false, statusEn := false, linkHold := 0x064
    statusBase := 0, ringSel := 0, sqs := [], cqs := [], doorbellErr := 0, accessErr := 0, gen := 0, paused := false
    msixWords := [], msixOpen := 0, pba := 0, msix := [], fetched := 0, turnSq := 15, turnLeft := 0
    devErr := 0, aerUncorrectable := 0, aerCorrectable := 0 }

def Ledger.reset : Ledger := { last := none, entries := [] }

def LaneMbx.reset : LaneMbx := { ledgers := [], taken := [], composed := [] }

def Bank.reset : Bank :=
  { active := none, activeCheck := 0, st := .empty, number := 0, staged := none, stagedCheck := 0, verifying := false
    parts := none, reason := 0, bytes := 0, received := [], expiry := 0, storeA := none, storeB := none, rewrite := none
    lapsed := none, rackTo := none, rackDone := none, left := 0, rackReg := 0 }

def Boot.reset : Boot :=
  { version := factoryVersion, image := [], slotsRead := false, slot0 := factoryVersion, slot1 := factoryVersion, st0 := .valid
    st1 := .valid, slot := false, step := 0, reason := 0, failed := 0, deltaBytes := 0, taking := false, delta := [], update := none
    floor := factoryVersion, otherFloor := factoryVersion, otherImage := [], romAddr := 0, romLen := 0, romStatus := 0, romImage := none }

def Bist.reset : Bist :=
  { phase := 0, due := false, overdue := false, requested := none, asked := false, last := 0, trigger := 0, cycle := 0, result := 0
    sinceMarch := 0, march := false, startedAt := 0, runNs := 0, passes := 0, fails := 0, overdueAt := none, repairs := []
    fused := [] }

def Pwr.reset : Pwr :=
  { coreWarn := false, coreMv := 0, v3Mv := 0, ioMv := 0, anaMv := 0, temp := 0, sampled := false, coreWarns := 0, v3Warns := 0 }

/-- A lane right after its reset is released. -/
def LaneState.reset : LaneState :=
  { life := LaneLife.reset, press := Press.reset, raa := Raa.reset, sessions := [], sessSel := 0, alkValid := [], fld := LaneFld.reset
    eic := Eic.reset, chk := Chk.reset, cel := CelLane.reset, mbx := LaneMbx.reset, bank := Bank.reset
    boot := Boot.reset, bist := Bist.reset, pwr := Pwr.reset, link := ImageLink.reset, xfer := none, logicPeak := 0, raaPeak := 0
    overran := false }

def TwinLane.reset : TwinLane :=
  { isMatch := false, matchRun := 0, mismatchCycle := 0, rxSeq := none, silent := 0, words := [], loading := false }

def Twin.reset : Twin :=
  { st := .none, epoch := 0, partner := 0, seen := false, gotNow := 0, gotActive := 0, lastActive := 0
    released := false, partnerHandover := false
    partnerEpoch := 0, partnerActive := false, partnerStaged := 0, partnerVintage := 0, partnerLoadReq := false
    own := PerLane.all TwinLane.reset, txSeq := 0, echo := 0
    handover := false, handoverSent := false, yield := none, loadRun := false, marks := [], lastBlock := 0
    sentNow := none, unechoed := none, loadCycles := 0
    stopped := false, retryAt := 0, rejected := 0, stale := 0, digest := 0 }

def Module.reset : Module :=
  { st := .boot, cycle := 0, tickTime := 0, ticking := false, firstTick := false, phase := .idle, refreshes := 0, timeUnsure := true, noVintage := false
    sinceStart := none, testsFrom := none, fieldTest := .running, voteTest := true, testsPassed := false
    result := none, voted := none, v3Warn := false, powerFlush := false
    bootedInto := false, bootInto := 0, restartTo := none }

/-- The module as shipped, right after its first reset release (R492, R512): BOOT in every lane, no vintage, no key. -/
def State.reset : State :=
  { mod := Module.reset, lanes := PerLane.all LaneState.reset, sluices := PerLane.all Sluice.reset, alk := Alk.reset
    field := Field.reset, ports := ⟨PortState.reset, PortState.reset⟩, twin := Twin.reset, cellar := Cellar.reset
    hostMem := [], bus := 0, free := 0, pending := [] }

end Sys2Proof.Machine
end

