-- ==== Sys2Proof/Machine/Sparse.lean ====
section
/-!
DEFINITION. Reading and writing the sparse maps and bit spaces in canonical form: indices strictly rising, no entry
equal to the value an unlisted index reads as.
-/

namespace Sys2Proof.Machine

/-- Read index i; d is what an unlisted index reads as. -/
def sget {α : Type} (d : α) : Sparse α → Nat → α
  | [], _ => d
  | (k, v) :: r, i => if i = k then v else sget d r i

/-- Remove index i. -/
def sdel {α : Type} (m : Sparse α) (i : Nat) : Sparse α := m.filter (fun e => decide (e.1 ≠ i))

/-- Write index i of a map whose entries are listed whatever they hold. -/
def sputAny {α : Type} : Sparse α → Nat → α → Sparse α
  | [], i, x => [(i, x)]
  | (k, v) :: r, i, x => if i < k then (i, x) :: (k, v) :: r else if i = k then (i, x) :: r else (k, v) :: sputAny r i x

/-- Write index i; the default removes the entry, so that equal maps are equal data. -/
def sput {α : Type} [DecidableEq α] (d : α) (m : Sparse α) (i : Nat) (x : α) : Sparse α :=
  if x = d then sdel m i else sputAny m i x

/-- Change index i by a function. -/
def smod {α : Type} [DecidableEq α] (d : α) (m : Sparse α) (i : Nat) (f : α → α) : Sparse α :=
  sput d m i (f (sget d m i))

/-- The indices listed. -/
def skeys {α : Type} (m : Sparse α) : List Nat := m.map Prod.fst

/-- Apply a function that keeps the default to every index. -/
def smap {α : Type} [DecidableEq α] (d : α) (f : α → α) (m : Sparse α) : Sparse α :=
  (skeys m).foldl (fun r i => sput d r i (f (sget d m i))) []

/-- The entry at index i, if one is listed. -/
def sfind {α : Type} : Sparse α → Nat → Option α
  | [], _ => none
  | (k, v) :: r, i => if i = k then some v else sfind r i

/-- The canonical form of a sparse map: indices strictly rising, no entry equal to the default. -/
def swf {α : Type} [DecidableEq α] (d : α) : Sparse α → Bool
  | [] => true
  | (k, v) :: r => decide (v ≠ d) && (skeys r).all (fun j => decide (k < j)) && swf d r

/-- The canonical form of a map whose entries are listed whatever they hold: indices strictly rising. -/
def swfAny {α : Type} : Sparse α → Bool
  | [] => true
  | (k, _) :: r => (skeys r).all (fun j => decide (k < j)) && swfAny r

/-- Bit i of a bit space. -/
def bget (b : BitSpace) (i : Nat) : Bool := b.contains i

/-- Set bit i. -/
def bset : BitSpace → Nat → BitSpace
  | [], i => [i]
  | k :: r, i => if i < k then i :: k :: r else if i = k then k :: r else k :: bset r i

/-- Clear bit i. -/
def bclr (b : BitSpace) (i : Nat) : BitSpace := b.filter (fun j => decide (j ≠ i))

/-- Write bit i. -/
def bput (b : BitSpace) (i : Nat) (v : Bool) : BitSpace := if v then bset b i else bclr b i

/-- The canonical form of a bit space: strictly rising. -/
def bwf : BitSpace → Bool
  | [] => true
  | k :: r => r.all (fun j => decide (k < j)) && bwf r

/-- The bits of a bit space from lo below hi, as they stand. -/
def brange (b : BitSpace) (lo hi : Nat) : BitSpace := b.filter (fun i => decide (lo ≤ i) && decide (i < hi))

/-- Bits lo to hi - 1 are replaced by those of another space; all other bits stay. -/
def bpatch (b : BitSpace) (lo hi : Nat) (src : BitSpace) : BitSpace :=
  b.filter (fun i => decide (i < lo)) ++ brange src lo hi ++ b.filter (fun i => decide (hi ≤ i))

/-- Bits of a space moved up by an offset. -/
def bshift (b : BitSpace) (off : Nat) : BitSpace := b.map (· + off)

/-- The bits that a vector sets, from index 0. -/
def bitsOf {w : Nat} (v : BitVec w) : BitSpace := (List.range w).filter (fun i => v.getLsbD i)

/-- A vector whose bit i is given by f. -/
def bitsFrom (w : Nat) (f : Nat → Bool) : BitVec w :=
  (List.range w).foldl (fun acc i => if f i then acc ||| (BitVec.ofNat w (2 ^ i)) else acc) 0

/-- Write bit i of a vector. -/
def vput {w : Nat} (v : BitVec w) (i : Nat) (b : Bool) : BitVec w :=
  if b then v ||| BitVec.ofNat w (2 ^ i) else v &&& ~~~ BitVec.ofNat w (2 ^ i)

/-- How many bits of a vector are 1. -/
def popCount {w : Nat} (v : BitVec w) : Nat := (List.range w).foldl (fun n i => if v.getLsbD i then n + 1 else n) 0

/-- Entry i of a list, or a default. -/
def lget {α : Type} (d : α) : List α → Nat → α
  | [], _ => d
  | x :: _, 0 => x
  | _ :: r, i + 1 => lget d r i

/-- Natural numbers 0 to n - 1 for which f holds. -/
def countTo (n : Nat) (f : Nat → Bool) : Nat := ((List.range n).filter f).length

end Sys2Proof.Machine
end

