-- ==== Sys2Proof/Machine/Flags.lean ====
section
/-!
DEFINITION. Saturating counters with their flag (R11, R30, R69), field packing of registers, little-endian byte lists.
-/

namespace Sys2Proof.Machine

/-- Add n to a saturating counter of w bits whose top bit is its flag: it stops at its largest value and the flag is
set once that value is reached (R11, R30, R69). -/
def satAdd {w : Nat} (x : BitVec w) (n : Nat) : BitVec w :=
  let c := x.toNat % 2 ^ (w - 1)
  if x.toNat ≥ 2 ^ (w - 1) then x
  else if c + n ≥ 2 ^ (w - 1) - 1 then BitVec.allOnes w
  else BitVec.ofNat w (c + n)

/-- Count one more. -/
def satInc {w : Nat} (x : BitVec w) : BitVec w := satAdd x 1

/-- The 32-bit view of a 64-bit lifetime count: bits [30:0], with bit 31 set once the count has reached 0x7FFF_FFFF (R30). -/
def lifeLow (x : BitVec 64) : Word :=
  let c := x.toNat
  BitVec.ofNat 32 (c % 2 ^ 31 + (if c ≥ 0x7FFFFFFF then 2 ^ 31 else 0))

/-- A 32-bit view of a 64-bit lifetime count that is itself a saturating counter: bits [30:0] stop at 0x7FFF_FFFF, and bit 31 is the
flag (R11, R69, R158, R247). -/
def lifeSat (x : BitVec 64) : Word :=
  if x.toNat ≥ 0x7FFFFFFF then 0xFFFFFFFF else BitVec.ofNat 32 x.toNat

/-- Time saturates at its largest value (R51). -/
def timeAdd (t : Time) (n : Nat) : Time :=
  if t.toNat + n ≥ 2 ^ 64 then BitVec.allOnes 64 else BitVec.ofNat 64 (t.toNat + n)

/-- Time elapsed since a start time, modulo the scale: a step of global time moves both alike (R99, R477). -/
def timeSince (now start : Time) : Nat := (now - start).toNat

/-- Move a time by a signed step, held inside the scale. -/
def timeShift (t : Time) (d : Int) : Time :=
  let v := (t.toNat : Int) + d
  if v < 0 then 0 else if v ≥ 2 ^ 64 then BitVec.allOnes 64 else BitVec.ofNat 64 v.toNat

/-- Move a start time that measures a duration by a signed step: what has elapsed since it stays, also where the step passes the beginning
of the scale (R477). -/
def startShift (t : Time) (d : Int) : Time := t + BitVec.ofInt 64 d

/-- A Bool as a number. -/
def bit (b : Bool) : Nat := if b then 1 else 0

/-- A register value from (lowest bit, value) fields that do not overlap. -/
def pack (fs : List (Nat × Nat)) : Word := BitVec.ofNat 32 (fs.foldl (fun n f => n + f.2 * 2 ^ f.1) 0)

/-- Bits hi to lo of a value, as a number. -/
def field {w : Nat} (v : BitVec w) (hi lo : Nat) : Nat := v.toNat / 2 ^ lo % 2 ^ (hi + 1 - lo)

/-- n bytes of a number, little-endian (R9). -/
def le : Nat → Nat → List Byte
  | 0, _ => []
  | n + 1, v => BitVec.ofNat 8 v :: le n (v / 256)

/-- The number that little-endian bytes spell. -/
def ofLe : List Byte → Nat
  | [] => 0
  | b :: r => b.toNat + 256 * ofLe r

/-- n bytes of a number, big-endian. -/
def be (n v : Nat) : List Byte := (le n v).reverse

/-- The number that big-endian bytes spell. -/
def ofBe (bs : List Byte) : Nat := ofLe bs.reverse

/-- Drop from index n on. -/
def keep {α : Type} (n : Nat) (l : List α) : List α := l.take n

/-- Stamps that lie in the window of the given length that ends at now, both ends included (R26, R420). -/
def inWindow (now : Time) (len : Nat) (stamps : List Time) : List Time :=
  stamps.filter (fun t => decide (t.toNat ≤ now.toNat) && decide (now.toNat ≤ t.toNat + len))

/-- 24 h in ns. -/
def day24 : Nat := 86400000000000

/-- One hour in ns. -/
def hour1 : Nat := 3600000000000

end Sys2Proof.Machine
end

