-- ==== Sys2Proof/Config.lean ====
section
/-!
DEFINITION. What an implementation fixes and the spec leaves open: constants without a body, so that a proof about them
holds whatever their values.
-/

namespace Sys2Proof.Config

open Sys2Proof.Machine

/-- The n-th free value: nothing constrains it. DESIGN CHOICE, log entry 5. -/
opaque freeValue : Nat → BitVec 64

/-- How the silicon's layout of a block of the load area differs from that of the model, where the layout is not published (R343, R355); it
is the same in every module. DESIGN CHOICE, log entry 6. -/
opaque blockMask : Nat → BitVec 2048

/-- The bytes of a session context, of a station image with its miss counter, and of a ledger entry, whose sizes alone R188 gives. DESIGN
CHOICE, log entry 6. -/
opaque sessionBytes : Session → BitVec 512
opaque imageBytes : Session → BitVec 512
opaque ledgerBytes : LedgerEntry → BitVec 192

/-- FWD of R205: the forwarding latency in ns that the node has measured, by 4 × segment + 2 × medium + side; at most 400 (R202). DESIGN
CHOICE, log entry 57. -/
opaque forwarding : Nat → Fin 401

/-- Which node of a segment stands next to the modules, by 2 × segment + end of the order of nodes: an index into the nodes that the schedule
names there, whose order on the medium no rule gives (R199, R201, R521). DESIGN CHOICE, log entry 28. -/
opaque neighbourAt : Nat → Nat

/-- The PCI Express identifiers that R295 names without a value: the Selkoet vendor identifier and the hardware revision. DESIGN CHOICE, log
entry 73. -/
opaque vendorId : BitVec 16
opaque revisionId : BitVec 8

/-- RESULT bytes of a completion that no rule gives (R315). DESIGN CHOICE, log entry 7. -/
opaque openResult : HostRef → BitVec 128

/-- TIME of a completion that names no cycle (R315). DESIGN CHOICE, log entry 7. -/
opaque openTime : HostRef → BitVec 64

/-- CYCLE of a completion with ABORTED, which no cycle executed or decided (R315). DESIGN CHOICE, log entry 7. -/
opaque openCycle : HostRef → BitVec 32

/-- The format number in the head of a lifetime page's slots, and the generation that the page has from manufacture (R417). Log entry 8. -/
opaque pageFormat : Nat → BitVec 16
opaque firstGeneration : Nat → BitVec 64

/-- The encrypted copy of the commissioning key for one lane with its tag (R419 page 10, R482). Log entry 8. -/
opaque keyCopy : Lane → BitVec 256 → BitVec 384

/-- The expected signature of a block of logic BIST, by its bit of LOGIC_FAIL; the same in every lane (R458). DESIGN CHOICE, log entry
35. -/
opaque expectedSignature : Nat → BitVec 128

end Sys2Proof.Config
end

