-- ==== Sys2Proof/Machine/Ops.lean ====
section
/-!
DEFINITION. Shared operations on the state: one lane, one port, one Sluice, the vintage in force, lane and port tests.
-/

namespace Sys2Proof.Machine

/-- One lane's state. -/
def lane (s : State) (l : Lane) : LaneState := s.lanes.get l

/-- Change one lane. -/
def modLane (s : State) (l : Lane) (f : LaneState → LaneState) : State :=
  { s with lanes := s.lanes.set l (f (s.lanes.get l)) }

/-- Change every lane. -/
def modLanes (s : State) (f : Lane → LaneState → LaneState) : State := { s with lanes := s.lanes.map f }

/-- Change one Sluice. -/
def modSluice (s : State) (l : Lane) (f : Sluice → Sluice) : State :=
  { s with sluices := s.sluices.set l (f (s.sluices.get l)) }

/-- Change every Sluice. -/
def modSluices (s : State) (f : Lane → Sluice → Sluice) : State := { s with sluices := s.sluices.map f }

/-- Change one host port. -/
def modPort (s : State) (p : Port) (f : PortState → PortState) : State :=
  { s with ports := s.ports.set p (f (s.ports.get p)) }

/-- Change the lifetime area as the keeper holds it (R418): counts, times and samples, which a flush brings to the MRAM. -/
def modLife (s : State) (f : Lifetime → Lifetime) : State :=
  { s with cellar := { s.cellar with life := f s.cellar.life } }

/-- Lifetime page p of g, with the rest of f (R419): pages 15 to 143 are the history. -/
def copyPage (g f : Lifetime) (p : Nat) : Lifetime :=
  match p with
  | 0 => { f with serial := g.serial, manufactured := g.manufactured, firstService := g.firstService, lastTime := g.lastTime }
  | 1 => { f with operatingS := g.operatingS, powerCycles := g.powerCycles, restarts := g.restarts, serviceS := g.serviceS
                  service2S := g.service2S, timeSets := g.timeSets, opNs := g.opNs, svcNs := g.svcNs, svc2Ns := g.svc2Ns }
  | 2 => { f with tempLow := g.tempLow, tempHigh := g.tempHigh, tempSeen := g.tempSeen, tempBands := g.tempBands }
  | 3 => { f with lanes := g.lanes }
  | 4 => { f with fcs := g.fcs, withdrawals := g.withdrawals, retiredMedia := g.retiredMedia, timingTotal := g.timingTotal
                  takeovers := g.takeovers, handovers := g.handovers, loadFails := g.loadFails }
  | 5 => { f with switchOns := g.switchOns, retiredOuts := g.retiredOuts, crossingLosses := g.crossingLosses, fieldFault := g.fieldFault }
  | 6 => { f with keyVersion := g.keyVersion, nonceLast := g.nonceLast, versionFloor := g.versionFloor, roleEpoch := g.roleEpoch
                  clearTotal := g.clearTotal, confirmed := g.confirmed, confirmedCheck := g.confirmedCheck, restartInto := g.restartInto }
  | 7 => { f with proofTotal := g.proofTotal, linkErr := g.linkErr, dissent := g.dissent, refuse := g.refuse, stale := g.stale
                  authFail := g.authFail }
  | 8 => { f with clears := g.clears }
  | 10 => { f with key := g.key }
  | 11 => { f with repairs := f.repairs.set .A g.repairs.a }
  | 12 => { f with repairs := f.repairs.set .B g.repairs.b }
  | 13 => { f with repairs := f.repairs.set .C g.repairs.c }
  | _ => { f with histPos := g.histPos, overwritten := g.overwritten, history := g.history }

/-- The keeper writes pages: each goes into the slot of its older generation, which becomes its newest (R417, R418). -/
def savePages (ps : List Nat) (c : Cellar) : Cellar :=
  { c with paged := ps.foldl (copyPage c.life) c.paged, gens := ps.foldl (fun g p => smod 0 g p (· + 1)) c.gens }

/-- Change what the keeper writes at once: isolations, retirements and their clears, windows, nonces, epochs, the version floor, keys,
confirmations, repair maps (R418, R439, R460, R481, R482, R484). -/
def modPages (s : State) (ps : List Nat) (f : Lifetime → Lifetime) : State :=
  let s1 := modLife s f
  { s1 with cellar := savePages ps s1.cellar }

/-- A lane's own state of R24. -/
def lst (s : State) (l : Lane) : LaneSt := (lane s l).life.st

/-- The lane's service core runs: the lane has left BOOT, the module is powered, and logic BIST does not halt the core in its partition P2
(R24, R364, R457). -/
def runs (s : State) (l : Lane) : Bool :=
  decide (lst s l ≠ .boot) && decide (s.mod.st ≠ .off) && decide ((lane s l).bist.phase ≠ 3)

/-- Logic BIST runs in the lane (R457, R466). -/
def inLogicBist (s : State) (l : Lane) : Bool := decide ((lane s l).bist.phase = 2) || decide ((lane s l).bist.phase = 3)

/-- The port does not answer: its ring lane runs logic BIST or the DRAM march (R466). -/
def portSilent (s : State) (p : Port) : Bool := inLogicBist s p.ringLane || decide ((lane s p.ringLane).bist.phase = 5)

/-- A register access reaches its lane (R299, R466). -/
def reaches (s : State) (a : RegAccess) : Bool :=
  runs s a.lane && (match a.port with | some p => runs s p.ringLane && !portSilent s p | none => true)

/-- The lane is SERVING. -/
def serving (s : State) (l : Lane) : Bool := decide (lst s l = .serving)

/-- Lanes that are SERVING, in ascending letter. -/
def servingLanes (s : State) : List Lane := Lane.list.filter (serving s)

/-- A bit per lane for which f holds: bit 0 lane A. -/
def laneBits (f : Lane → Bool) : BitVec 3 := bitsFrom 3 (fun i => f (if i = 0 then .A else if i = 1 then .B else .C))

/-- Bit of lane l in a 3-bit lane mask. -/
def laneBit (v : BitVec 3) (l : Lane) : Bool := v.getLsbD l.idx

/-- The module serves: SERVICE_3oo3 or SERVICE_2oo2. -/
def inService (m : ModSt) : Bool := decide (m = .svc3) || decide (m = .svc2)

/-- The states in which lanes serve or their images are voted (R20, R81). -/
def operating (m : ModSt) : Bool :=
  match m with
  | .starting => true | .commissioning => true | .svc3 => true | .svc2 => true
  | .off => false | .boot => false | .safe => false | .recovery => false

/-- The lane computes in this cycle (R81, R150): it is SERVING or REINTEGRATING and the module operates. -/
def computes (s : State) (l : Lane) : Bool :=
  operating s.mod.st && (decide (lst s l = .serving) || decide (lst s l = .reintegrating))

/-- The lane has passed the comparison of step 5 of its start, and waits for the module start (R472, R474). -/
def atStart (s : State) (l : Lane) : Bool :=
  decide (lst s l = .sync) || (decide (lst s l = .test) && (lane s l).life.testsDone)

/-- The lane whose data stands for the module's shared data: the lowest-lettered SERVING lane, else the lowest-lettered lane that has passed
step 5 of its start, else the lowest-lettered lane whose service core runs, else lane A (R418, R474, R476). -/
def refLane (s : State) : Lane :=
  match servingLanes s with
  | l :: _ => l
  | [] => match Lane.list.filter (atStart s) with
    | l :: _ => l
    | [] => match Lane.list.filter (runs s) with
      | l :: _ => l
      | [] => .A

/-- The active vintage, as the reference lane holds it (R426). -/
def vintageOf (s : State) : Option Vintage := (lane s (refLane s)).bank.active

/-- The active vintage of one lane. -/
def laneVintage (s : State) (l : Lane) : Option Vintage := (lane s l).bank.active

/-- The cycle period in ns: that of the active vintage in 50 µs steps, or 2 ms without one (R57, R475). -/
def periodNs (s : State) : Nat :=
  match vintageOf s with
  | some v => v.period * 50000
  | none => 2000000

/-- Length of the logic phase in µs (R61). -/
def logicUs (v : Vintage) : Nat := v.endLogic - v.endInput

/-- REQ_MAX of a vintage (R61). -/
def reqMax (v : Vintage) : Nat := min 256 ((logicUs v - 20) / 2)

/-- LOCKED_MAX of a vintage (R62); 15.36 µs is 15,360 ns. -/
def lockedMax (v : Vintage) : Nat := min 4096 (256 * (((logicUs v - 20) * 1000) / 15360))

/-- Low 16 bits of the cycle count (R53). -/
def cycle16 (s : State) : BitVec 16 := s.mod.cycle.setWidth 16

/-- One lane's ring port (R295): the port whose ring lane is l. -/
def ringPort : Lane → Option Port
  | .A => some .p0
  | .B => some .p1
  | .C => none

/-- A little-endian field of a descriptor (R303). -/
def dget (d : BitVec 512) (off size : Nat) : Nat := d.toNat / 2 ^ (8 * off) % 2 ^ (8 * size)

/-- Put a value on the register bus: what the last register read answered. -/
def answer (s : State) (v : Word) : State := { s with bus := v }

/-- What a register read without an answer returns (R299). -/
def noAnswer (s : State) : State := answer s 0xFFFFFFFF

/-- Fold a state transformer over a list. -/
def foldS {α : Type} (xs : List α) (f : State → α → State) (s : State) : State := xs.foldl f s

/-- Apply f where b holds. -/
def whenS (b : Bool) (f : State → State) (s : State) : State := if b then f s else s

end Sys2Proof.Machine
end

