-- ==== Sys2Proof/Machine/Eic.lean ====
section
/-!
DEFINITION. The Event Interrupt Controller of a lane (R363 to R382): sources, arrivals, presentation, claim and complete,
the set and clear addresses, the UMN-2 pending path, fallback.
-/

namespace Sys2Proof.Machine

/-- Sources that R364 lists. -/
def eicUsed (n : Nat) : Bool :=
  decide (n ≤ 5) || (decide (16 ≤ n) && decide (n ≤ 21)) || (decide (32 ≤ n) && decide (n ≤ 41)) ||
  (decide (64 ≤ n) && decide (n ≤ 76)) || (decide (96 ≤ n) && decide (n ≤ 105)) ||
  (decide (128 ≤ n) && decide (n ≤ 130)) || (decide (160 ≤ n) && decide (n ≤ 165)) ||
  (decide (192 ≤ n) && decide (n ≤ 831)) || (decide (960 ≤ n) && decide (n ≤ 1023))

/-- Level sources of R364. -/
def eicLevelKind (n : Nat) : Bool :=
  decide (n = 4) || decide (n = 5) || decide (n = 19) || decide (n = 21) || decide (n = 32) || decide (n = 67) ||
  decide (n = 68) || decide (n = 102) || decide (n = 103)

/-- Software sources, which only the pending paths raise (R364). -/
def eicSoft (n : Nat) : Bool := decide (960 ≤ n)

/-- A source's record. -/
def eicSrc (e : Eic) (n : Nat) : EicSrc := sget EicSrc.reset e.srcs n

/-- The threshold of a target (R379). -/
def eicThreshold (e : Eic) : EicTarget → BitVec 3
  | .sc => e.thrSc
  | .h0 => e.thrH0
  | .h1 => e.thrH1

/-- The target a source is routed to (R369). -/
def eicRoute (x : EicSrc) : EicTarget := if x.h0 then .h0 else if x.h1 then .h1 else .sc

/-- The host port behind a target. -/
def eicPort : EicTarget → Option Port
  | .sc => none
  | .h0 => some .p0
  | .h1 => some .p1

/-- The conditions of R368 but for the move. A source moved to a fallback is held to the threshold of the target that it is configured
for, not to that of the fallback (DESIGN CHOICE, log entry 86). -/
def eicPresentable (e : Eic) (x : EicSrc) : Bool :=
  decide (x.st = .pending) && x.enabled && decide (x.priority.toNat > (eicThreshold e (eicRoute x)).toNat)

/-- The target to which a source is presented: the target in force, or the fallback it has been moved to (R368, R374). -/
def eicPresented (e : Eic) (x : EicSrc) : Option EicTarget :=
  if eicPresentable e x then (match x.moved with | some t => some t | none => some (eicRoute x)) else none

/-- The fallback of a sleeping host port: the service core or the other port, and the service core where that port
sleeps too (R374). -/
def eicFallback (s : State) (e : Eic) : Port → EicTarget
  | .p0 => if e.fbH0 && (s.ports.get .p1).linkUp then .h1 else .sc
  | .p1 => if e.fbH1 && (s.ports.get .p0).linkUp then .h0 else .sc

/-- A source presented to a port that has slept for 10 µs moves to that port's fallback, also one that was moved to it from the other
port (R374). -/
def eicMove (s : State) (e : Eic) (n : Nat) : Eic :=
  let x := eicSrc e n
  match (eicPresented e x).bind eicPort with
  | some p =>
    if e.moving.get p && !(s.ports.get p).linkUp then
      { e with srcs := sput EicSrc.reset e.srcs n { x with moved := some (eicFallback s e p) }
               movedCount := satInc e.movedCount }
    else e
  | none => e

/-- An MSI-X vector of a port: the message is sent, or its pending bit is set while its table entry is masked (R324, R368; PRESUMED from PCI
Express, log entry 43). -/
def putVector (v : Nat) (x : PortState) : PortState :=
  if x.msixOpen.getLsbD v then { x with msix := BitVec.ofNat 5 v :: x.msix } else { x with pba := vput x.pba v true }

/-- Send an MSI-X vector of a port (R324, R368). -/
def sendVector (s : State) (p : Port) (v : Nat) : State := modPort s p (putVector v)

/-- The MSI-X message of a presentation to a host port with its link up: vector 16 + VECTOR (R368). A presentation to a port whose link is down
sends none, and none follows as the link comes up (DESIGN CHOICE, log entry 86). -/
def eicMessage (s : State) (x : EicSrc) (before after : Option EicTarget) : State :=
  match after with
  | some t =>
    if after = before then s
    else match eicPort t with
      | some p =>
        if (s.ports.get p).linkUp then sendVector s p (16 + x.vector.toNat) else s
      | none => s
  | none => s

/-- Put a changed EIC into lane l, move source n where its port sleeps, and send the message of a new presentation. -/
def eicSettle (s : State) (l : Lane) (n : Nat) (e' : Eic) : State :=
  let before := eicPresented (lane s l).eic (eicSrc (lane s l).eic n)
  let e2 := eicMove s e' n
  let x := eicSrc e2 n
  eicMessage (modLane s l (fun L => { L with eic := e2 })) x before (eicPresented e2 x)

/-- Change one used source of lane l by f and settle its presentation; a source that is not used stays as it is (R364). -/
def eicUpd (s : State) (l : Lane) (n : Nat) (f : EicSrc → EicSrc) : State :=
  if eicUsed n then
    eicSettle s l n { (lane s l).eic with srcs := smod EicSrc.reset (lane s l).eic.srcs n f }
  else s

/-- An arrival (R366, R367). -/
def srcArrive (x : EicSrc) : EicSrc :=
  let counted := if x.count = 255 then { x with ovf := true } else { x with count := x.count + 1 }
  match x.st with
  | .idle => { x with st := .pending, count := 1 }
  | .pending => counted
  | .claimed => { counted with st := .claimedAgain }
  | .claimedAgain => counted

/-- The lane's EIC takes arrivals: its service core runs, and no logic BIST does (R364, R466). -/
def eicOpen (s : State) (l : Lane) : Bool := runs s l && !inLogicBist s l

/-- EVENT_ARRIVAL in one lane: an edge source arrives; a level source asserts, which arrives if it was de-asserted (R366). -/
def eicRaise (s : State) (l : Lane) (n : Nat) : State :=
  if eicOpen s l then
    eicUpd s l n (fun x => if eicLevelKind n then (if x.level then x else { srcArrive x with level := true })
                           else srcArrive x)
  else s

/-- The level of a level source in one lane: a change from de-asserted to asserted is an arrival (R366). -/
def eicLevel (s : State) (l : Lane) (n : Nat) (v : Bool) : State :=
  if eicOpen s l then
    eicUpd s l n (fun x => if v && !x.level then { srcArrive x with level := true } else { x with level := v })
  else s

/-- Raise a source of Module scope: in every lane whose service core runs (R364). -/
def eicRaiseAll (s : State) (n : Nat) : State := foldS Lane.list (fun s l => eicRaise s l n) s

/-- The level of a source of Module scope, lane by lane. -/
def eicLevelAll (s : State) (n : Nat) (v : Bool) : State := foldS Lane.list (fun s l => eicLevel s l n v) s

/-- Settle every source after a change of thresholds, fallback or sleep. -/
def eicSettleAll (s : State) (l : Lane) (e' : Eic) : State :=
  let old := (lane s l).eic
  let s1 := modLane s l (fun L => { L with eic := e' })
  foldS (skeys e'.srcs) (fun s n =>
    let before := eicPresented old (eicSrc old n)
    let e2 := eicMove s (lane s l).eic n
    let x := eicSrc e2 n
    eicMessage (modLane s l (fun L => { L with eic := e2 })) x before (eicPresented e2 x)) s1

/-- EVENT_ARRIVAL (R366): software sources arrive through the pending paths only. -/
def execEventArrival (l : Lane) (source : Fin 1024) (s : State) : Host.Outcome State Fault Refusal :=
  .next (if eicSoft source.val then s else eicRaise s l source.val)

/-- FALLBACK_MOVE (R374): 10 µs after a port fell asleep, what is presented to it moves to its fallback. -/
def execFallbackMove (l : Lane) (p : Port) (s : State) : Host.Outcome State Fault Refusal :=
  .next (if (s.ports.get p).linkUp || !runs s l then s
         else eicSettleAll s l { (lane s l).eic with moving := (lane s l).eic.moving.set p true })

/-- Count an access that R372 or R299 refuses, in MBX_ERR.ACCESS of the port it came through (R328). -/
def countAccess (s : State) (a : RegAccess) : State :=
  match a.port with
  | some p => modPort s p (fun q => { q with accessErr := satInc q.accessErr })
  | none => s

/-- Source n goes before source m in a claim: a higher priority, or the lower number of equal priorities (R372). -/
def eicBefore (e : Eic) (n m : Nat) : Bool :=
  decide ((eicSrc e n).priority.toNat > (eicSrc e m).priority.toNat) ||
  (decide ((eicSrc e n).priority.toNat = (eicSrc e m).priority.toNat) && decide (n < m))

/-- The source a claim takes: presented to the target, highest priority, lowest number (R372). -/
def eicBest (e : Eic) (t : EicTarget) : Option Nat :=
  (skeys e.srcs).foldl (fun best n =>
    if eicPresented e (eicSrc e n) = some t then
      match best with
      | some b => if eicBefore e n b then some n else best
      | none => some n
    else best) none

/-- The service core's sleep instruction completes as a no-op: an enabled source is presented to it (R374). -/
def sleepIsNoop (s : State) (l : Lane) : Bool := (eicBest (lane s l).eic .sc).isSome

/-- Count a claim made through the wrong port (R372): in MBX_ERR.ACCESS of the port it came through, or, where the service core reads the
claim port of a host port, in that port's (DESIGN CHOICE, log entry 74). -/
def countClaim (s : State) (a : RegAccess) (t : EicTarget) : State :=
  match a.port with
  | some _ => countAccess s a
  | none => countAccess s { a with port := eicPort t }

/-- EIC_CLAIM_x of a claimed source (R380). -/
def eicClaimWord (n : Nat) (x : EicSrc) : Word :=
  pack [(0, n), (15, 1), (16, x.count.toNat), (24, bit x.level), (25, bit x.ovf), (26, bit x.moved.isSome)]

/-- EIC_CLAIM (R372): a claim port answers only its own target's accesses. -/
def execEicClaim (a : RegAccess) (t : EicTarget) (s : State) : Host.Outcome State Fault Refusal :=
  .next (
    if !reaches s a then noAnswer s
    else if a.port ≠ eicPort t then answer (countClaim s a t) 0
    else match eicBest (lane s a.lane).eic t with
      | none => answer s 0
      | some n =>
        answer (eicUpd s a.lane n (fun y => { y with st := .claimed, count := 0, claimedBy := t }))
          (eicClaimWord n (eicSrc (lane s a.lane).eic n)))

/-- EIC_COMPLETE (R373): completes the source if the target holds its claim; else ignored and counted. -/
def execEicComplete (a : RegAccess) (t : EicTarget) (value : Word) (s : State) : Host.Outcome State Fault Refusal :=
  .next (
    if !reaches s a then s
    else
      let n := field value 9 0
      let x := eicSrc (lane s a.lane).eic n
      if (x.st = .claimed ∨ x.st = .claimedAgain) ∧ x.claimedBy = t then
        eicUpd s a.lane n (fun y =>
          { y with st := if y.st = .claimedAgain then .pending else .idle, moved := none, claimedBy := .sc })
      else modLane s a.lane (fun L => { L with eic := { L.eic with badComplete := satInc L.eic.badComplete } }))

/-- A write to a bitmap word n: f acts on source 32n + i for every bit i that is 1 (R369). -/
def eicBitmap (a : RegAccess) (n : Fin 32) (value : Word) (f : EicSrc → EicSrc) (s : State) : State :=
  if reaches s a then foldS (bitsOf value) (fun s i => eicUpd s a.lane (32 * n.val + i) f) s else s

/-- EIC_ENABLE_SET (R369). -/
def execEicEnableSet (a : RegAccess) (n : Fin 32) (value : Word) (s : State) : Host.Outcome State Fault Refusal :=
  .next (eicBitmap a n value (fun x => { x with enabled := true }) s)

/-- EIC_ENABLE_CLR (R369). -/
def execEicEnableClr (a : RegAccess) (n : Fin 32) (value : Word) (s : State) : Host.Outcome State Fault Refusal :=
  .next (eicBitmap a n value (fun x => { x with enabled := false }) s)

/-- EIC_PENDING_SET on one source (R370): nothing is counted. -/
def srcPend (x : EicSrc) : EicSrc :=
  match x.st with
  | .idle => { x with st := .pending, count := 0 }
  | .claimed => { x with st := .claimedAgain }
  | _ => x

/-- EIC_PENDING_SET (R370). -/
def execEicPendingSet (a : RegAccess) (n : Fin 32) (value : Word) (s : State) : Host.Outcome State Fault Refusal :=
  .next (eicBitmap a n value srcPend s)

/-- EIC_PENDING_CLR (R370): a PENDING source becomes IDLE with COUNT 0. -/
def execEicPendingClr (a : RegAccess) (n : Fin 32) (value : Word) (s : State) : Host.Outcome State Fault Refusal :=
  .next (eicBitmap a n value (fun x => if x.st = .pending then { x with st := .idle, count := 0, moved := none } else x) s)

/-- EIC_TARGET_H0_SET (R369): the other port's bit is cleared; a presentation is made to the new target (R374). -/
def execEicTargetH0Set (a : RegAccess) (n : Fin 32) (value : Word) (s : State) : Host.Outcome State Fault Refusal :=
  .next (eicBitmap a n value (fun x => { x with h0 := true, h1 := false }) s)

/-- EIC_TARGET_H0_CLR (R369). -/
def execEicTargetH0Clr (a : RegAccess) (n : Fin 32) (value : Word) (s : State) : Host.Outcome State Fault Refusal :=
  .next (eicBitmap a n value (fun x => { x with h0 := false }) s)

/-- EIC_TARGET_H1_SET (R369). -/
def execEicTargetH1Set (a : RegAccess) (n : Fin 32) (value : Word) (s : State) : Host.Outcome State Fault Refusal :=
  .next (eicBitmap a n value (fun x => { x with h1 := true, h0 := false }) s)

/-- EIC_TARGET_H1_CLR (R369). -/
def execEicTargetH1Clr (a : RegAccess) (n : Fin 32) (value : Word) (s : State) : Host.Outcome State Fault Refusal :=
  .next (eicBitmap a n value (fun x => { x with h1 := false }) s)

/-- EIC_COMPAT_PEND (R376): acts as an arrival and counts; the live level stays. -/
def execEicCompatPend (a : RegAccess) (n : Fin 32) (value : Word) (s : State) : Host.Outcome State Fault Refusal :=
  .next (eicBitmap a n value srcArrive s)

/-- EIC_OVF_CLR (R367). -/
def execEicOvfClr (a : RegAccess) (n : Fin 32) (value : Word) (s : State) : Host.Outcome State Fault Refusal :=
  .next (eicBitmap a n value (fun x => { x with ovf := false }) s)

end Sys2Proof.Machine
end

