-- ==== Sys2Proof/Machine/Cellar.lean ====
section
/-!
DEFINITION. The Cellar (R399 to R425): records, token buckets, staging, write-through, flushes, device failure, the clear,
the lifetime pages and their reading.
-/

namespace Sys2Proof.Machine

/-- The class of a record code (R404). -/
structure CodeClass where
  flush : Bool
  /-- Default limit: rate in 0.1 per second and burst; none: never limited. -/
  limit : Option (Nat × Nat)
deriving DecidableEq, Repr

/-- The table of R404; none: the code is not used. -/
def codeClass (c : Nat) : Option CodeClass :=
  if c = 0x0001 then some ⟨false, none⟩
  else if c = 0x0002 then some ⟨true, none⟩
  else if c = 0x0003 then some ⟨false, some (10, 5)⟩
  else if c = 0x0004 ∨ c = 0x0005 then some ⟨true, none⟩
  else if 0x0100 ≤ c ∧ c ≤ 0x0103 then some ⟨true, none⟩
  else if c = 0x0200 then some ⟨true, none⟩
  else if c = 0x0201 then some ⟨true, some (100, 20)⟩
  else if c = 0x0202 ∨ c = 0x0203 then some ⟨false, some (100, 20)⟩
  else if c = 0x0300 then some ⟨true, some (10, 5)⟩
  else if c = 0x0301 then some ⟨false, some (100, 20)⟩
  else if 0x0302 ≤ c ∧ c ≤ 0x0304 then some ⟨true, none⟩
  else if 0x0305 ≤ c ∧ c ≤ 0x0307 then some ⟨false, some (200, 64)⟩
  else if c = 0x0402 ∨ c = 0x0404 ∨ c = 0x0409 then some ⟨true, none⟩
  else if c = 0x0403 ∨ c = 0x0407 then some ⟨false, some (50, 16)⟩
  else if 0x0400 ≤ c ∧ c ≤ 0x040A then some ⟨true, some (50, 16)⟩
  else if c = 0x0500 then some ⟨false, some (20, 10)⟩
  else if c = 0x0501 then some ⟨false, some (100, 20)⟩
  else if c = 0x0502 then some ⟨true, none⟩
  else if 0x0600 ≤ c ∧ c ≤ 0x0603 then some ⟨true, none⟩
  else if 0x0700 ≤ c ∧ c ≤ 0x070A then some ⟨true, none⟩
  else if c = 0x0F00 ∨ c = 0x0F03 then some ⟨true, none⟩
  else if c = 0x0F01 ∨ c = 0x0F02 then some ⟨false, none⟩
  else none

/-- The limit in force for a code: the vintage's where it sets one for a code that can be limited, else the default (R404). -/
def codeLimit (v : Option Vintage) (c : Nat) : Option (Nat × Nat) :=
  match codeClass c with
  | none => none
  | some k =>
    match k.limit with
    | none => none
    | some d =>
      match v with
      | none => some d
      | some v =>
        match v.limits.find? (fun r => decide (r.code.toNat = c)) with
        | some r => some (r.rate.toNat, r.burst.toNat)
        | none => some d

/-- LENGTH of a record: 24 bytes of head, the payload, 4 bytes of check (R401). -/
def recLen (r : Record) : Nat := 28 + r.payload.length

/-- Bytes staged (R423). -/
def stagedBytes (c : CelLane) : Nat := c.staging.foldl (fun n r => n + recLen r) 0

/-- Both devices have FAILED (R411). -/
def bothFailed (c : Cellar) : Bool := decide (c.dev0 = .failed) && decide (c.dev1 = .failed)

/-- NEXT_SEQ has saturated (R402). -/
def seqSat (c : Cellar) : Bool := decide (c.nextSeq = BitVec.allOnes 64)

/-- Blocks of the log ring (R399). -/
def ringBlocks : Nat := 31741

/-- Put a record into the log ring: a record never straddles a block, and a full ring overwrites its oldest block (R400). -/
def logPut (c : Cellar) (r : Record) : Cellar :=
  if seqSat c || bothFailed c then c
  else
    let r' := { r with seq := c.nextSeq }
    let opens := decide (c.wrOff + recLen r > 4096)
    let blk := if opens then c.wrBlock + 1 else c.wrBlock
    let off := if opens then recLen r else c.wrOff + recLen r
    let kept := c.log.filter (fun e => decide (blk < e.1 + ringBlocks))
    let log := (blk, r') :: kept
    { c with log := log, wrBlock := blk, wrOff := off, nextSeq := c.nextSeq + 1
             firstSeq := match log.getLast? with | some e => e.2.seq | none => c.firstSeq }

/-- CEL_LOST counts records not kept: 31 bits and a flag (R424). -/
def countLost (s : State) (l : Lane) (n : Nat) : State :=
  modLane s l (fun L => { L with cel := { L.cel with lost := satAdd L.cel.lost n } })

/-- Write one record to MRAM for lane l; with both devices FAILED, or NEXT_SEQ saturated, it is not kept (R402, R411). -/
def writeRecord (s : State) (l : Lane) (r : Record) : State :=
  if bothFailed s.cellar then countLost s l 1
  else { s with cellar := logPut s.cellar r }

/-- Write one record through: the lane reads it back from both devices, and its code has no record in staging (R409, R412). -/
def throughRecord (s : State) (l : Lane) (r : Record) : State :=
  let s1 := writeRecord s l r
  modLane s1 l (fun L => { L with cel := { L.cel with
    inStaging := bclr L.cel.inStaging r.code.toNat, through := some (s1.cellar.wrBlock % ringBlocks) } })

/-- The lane stages its records; else it writes through (R405, R408). -/
def stages (s : State) (l : Lane) : Bool :=
  inService s.mod.st && !(lane s l).cel.powerFlush &&
  (match lst s l with
   | .sync => true | .reintegrating => true | .serving => true | .isolated => true | .retired => true
   | .boot => false | .test => false)

/-- TIME of a record: the tick time, or LAST_TIME while global time is not established (R403). -/
def recTime (s : State) : Time := if s.mod.timeUnsure then s.cellar.life.lastTime else s.mod.tickTime

/-- FLAGS of a record (R401). -/
def recFlags (module through unsure summary : Bool) : Byte :=
  BitVec.ofNat 8 (bit module + 2 * bit through + 4 * bit unsure + 8 * bit summary)

/-- A record of lane l as it is made (R401). -/
def mkRecord (s : State) (l : Lane) (code : Nat) (module summary : Bool) (payload : List Byte) : Record :=
  { code := BitVec.ofNat 16 code, lane := BitVec.ofNat 8 l.num
    flags := recFlags module (!stages s l) s.mod.timeUnsure summary
    repeats := 0, time := recTime s, seq := 0, payload := payload }

/-- Bytes that staging keeps for summaries (R407). -/
def stageRoom (summary : Bool) : Nat := if summary then 524288 else 523264

/-- The higher of the peak and the present fill (R423). -/
def notePeak (c : CelLane) : CelLane :=
  let now := pack [(0, (stagedBytes c + 1023) / 1024), (16, c.staging.length)]
  if field now 9 0 > field c.peak 9 0 ∨ (field now 9 0 = field c.peak 9 0 ∧ field now 30 16 > field c.peak 30 16)
  then { c with peak := now } else c

/-- Stage a record, or lose it where the buffer is full (R405, R407). -/
def stageRecord (s : State) (l : Lane) (r : Record) (summary : Bool) : State :=
  let c := (lane s l).cel
  if stagedBytes c + recLen r > stageRoom summary then
    modLane s l (fun L => { L with cel := { L.cel with
      lost := satInc L.cel.lost, lostRun := L.cel.lostRun + 1, inStaging := bclr L.cel.inStaging r.code.toNat
      lostFirst := if L.cel.lostRun = 0 then r.time else L.cel.lostFirst, lostLast := r.time } })
  else
    let due := match codeClass r.code.toNat with | some k => k.flush | none => false
    modLane s l (fun L => { L with cel := notePeak { L.cel with
      staging := L.cel.staging ++ [r], inStaging := bset L.cel.inStaging r.code.toNat, flushDue := L.cel.flushDue || due } })

/-- Put a made record into staging or through to MRAM (R405, R409). -/
def putRecord (s : State) (l : Lane) (r : Record) (summary : Bool) : State :=
  if bothFailed s.cellar then countLost s l 1
  else if stages s l then stageRecord s l r summary
  else throughRecord s l r

/-- The last staged record of a code takes one more occurrence; none where no such record is staged or its REPEAT is
65,535 (R412 step 1). -/
def repeatLast (code : BitVec 16) (rs : List Record) : Option (List Record) :=
  match (rs.reverse).findIdx? (fun r => decide (r.code = code)) with
  | none => none
  | some i =>
    match rs.reverse[i]? with
    | none => none
    | some r => if r.repeats = 0xFFFF then none
                else some ((rs.reverse.set i { r with repeats := r.repeats + 1 }).reverse)

/-- A suppressed occurrence (R412). -/
def suppress (s : State) (l : Lane) (code : Nat) : State :=
  let c := (lane s l).cel
  let b := sget Bucket.reset c.buckets code
  let opened : Bucket := { b with
    window := b.window + 1, first := if b.window = 0 then recTime s else b.first, last := recTime s, noted := true }
  let c' : CelLane :=
    match (if stages s l && bget c.inStaging code then repeatLast (BitVec.ofNat 16 code) c.staging else none) with
    | some rs => { c with staging := rs, buckets := sput Bucket.reset c.buckets code { b with noted := true } }
    | none => { c with buckets := sput Bucket.reset c.buckets code opened }
  let s1 := modLane s l (fun L => { L with cel := c' })
  if b.noted then s1 else eicRaise s1 l 128

/-- Make a record in lane l under its code's limit (R403, R412). -/
def recordOne (s : State) (l : Lane) (code : Nat) (module : Bool) (payload : List Byte) : State :=
  if !runs s l then s
  else match codeLimit (laneVintage s l) code with
    | none => putRecord s l (mkRecord s l code module false payload) false
    | some (_, burst) =>
      let b := sget Bucket.reset (lane s l).cel.buckets code
      if burst * 1000000 - b.used ≥ 1000000 then
        let s1 := modLane s l (fun L => { L with cel := { L.cel with
          buckets := sput Bucket.reset L.cel.buckets code { b with used := b.used + 1000000 } } })
        putRecord s1 l (mkRecord s l code module false payload) false
      else suppress s l code

/-- A record of Lane scope. -/
def recordLane (s : State) (l : Lane) (code : Nat) (payload : List Byte) : State := recordOne s l code false payload

/-- A record of Module scope: made by every lane whose service core runs (R403). -/
def recordAll (s : State) (code : Nat) (payload : List Byte) : State :=
  foldS Lane.list (fun s l => recordOne s l code true payload) s

/-- An event of Module scope with its record. -/
def eventAll (s : State) (src code : Nat) (payload : List Byte) : State := recordAll (eicRaiseAll s src) code payload

/-- An event of Lane scope with its record. -/
def eventLane (s : State) (l : Lane) (src code : Nat) (payload : List Byte) : State :=
  recordLane (eicRaise s l src) l code payload

/-- The buckets of a lane at a tick: each gains RATE × T, up to BURST (R412); 0.1 per second times 50 µs is 5 micro-tokens. -/
def bucketsTick (v : Option Vintage) (c : CelLane) : CelLane :=
  let p := match v with | some v => v.period | none => 40
  { c with buckets := c.buckets.foldl (fun m e =>
      match codeLimit v e.1 with
      | some (rate, _) => sput Bucket.reset m e.1 { e.2 with used := e.2.used - rate * p * 5 }
      | none => sput Bucket.reset m e.1 e.2) [] }

/-- All buckets full, as at BOOT and after a racking (R412); suppression windows stay. -/
def bucketsFull (c : CelLane) : CelLane :=
  { c with buckets := c.buckets.foldl (fun m e => sput Bucket.reset m e.1 { e.2 with used := 0 }) [] }

/-- Offset of a ring block in a device (R399). -/
def blockOffset (b : Nat) : Nat := 0x0403000 + 4096 * b

/-- Offset of the log-control slots in a device (R399). -/
def controlOffset : Nat := 0x0400000

/-- An event of Cellar code MIRROR_FAULT at an offset of a device (R410); the coding of its kind is open (log entry 84). -/
def mirrorFault (s : State) (l : Lane) (dev off : Nat) : State :=
  let f := Config.freeValue s.free
  eventLane { s with free := s.free + 1 } l 129 0x0F03 (le 1 dev ++ le 1 f.toNat ++ le 2 0 ++ le 4 off)

/-- Read-back failures of device 0 or 1 counted in CEL_DEV_ERR (R424). -/
def countDevErr (w : Word) (dev n : Nat) : Word :=
  let lo : BitVec 16 := w.setWidth 16
  let hi : BitVec 16 := (w >>> 16).setWidth 16
  let lo' := if dev = 0 then satAdd lo n else lo
  let hi' := if dev = 1 then satAdd hi n else hi
  BitVec.ofNat 32 (lo'.toNat + hi'.toNat * 65536)

/-- A lane counts failures of a device's copies (R424). -/
def devError (s : State) (l : Lane) (dev n : Nat) : State :=
  modLane s l (fun L => { L with cel := { L.cel with devErr := countDevErr L.cel.devErr dev n } })

/-- State of device 0 or 1 (R423). -/
def devOf (c : Cellar) (dev : Nat) : DevSt := if dev = 0 then c.dev0 else c.dev1

/-- A lane has found n failures that make a device FAILED; the keeper's page 6 records it (R409, R410, R419). -/
def failDevice (s : State) (l : Lane) (dev n off : Nat) : State :=
  if devOf s.cellar dev = .failed then s
  else
    let c := if dev = 0 then { s.cellar with dev0 := .failed } else { s.cellar with dev1 := .failed }
    mirrorFault (devError { s with cellar := savePages [6] c } l dev n) l dev off

/-- The read-back of what a lane has written to a device: a copy that fails is written once more, and a second failure makes the device
FAILED (R406, R409, R410). -/
def readBack (s : State) (l : Lane) (dev : Nat) (x : ReadBack) : State :=
  match x with
  | .good => s
  | .once _ => if devOf s.cellar dev = .failed then s else devError s l dev 1
  | .twice b => failDevice s l dev 2 (blockOffset b.val)

/-- A device is read at BOOT (R410, R472 step 2): with both control slots bad it is FAILED; a single bad slot is counted and repaired. -/
def bootRead (s : State) (l : Lane) (dev : Nat) (x : SlotsFound) : State :=
  let good := fun (d : DevSt) => match d with | .failed => DevSt.failed | .good => DevSt.good | .notRead => DevSt.good
  let s1 := { s with cellar := if dev = 0 then { s.cellar with dev0 := good s.cellar.dev0 } else { s.cellar with dev1 := good s.cellar.dev1 } }
  match x with
  | .both => s1
  | .one => if devOf s1.cellar dev = .failed then s1 else devError s1 l dev 1
  | .neither => failDevice s1 l dev 2 controlOffset

/-- One SUPPRESSED record for each code whose window holds a count; the windows restart empty (R413). -/
def closeWindows (s : State) (l : Lane) : State :=
  let bs := (lane s l).cel.buckets
  let s1 := foldS bs (fun s e =>
    if e.2.window > 0 then
      putRecord s l (mkRecord s l 0x0F01 false true
        (le 2 e.1 ++ le 2 0 ++ le 4 e.2.window ++ le 8 e.2.first.toNat ++ le 8 e.2.last.toNat)) true
    else s) s
  modLane s1 l (fun L => { L with cel := { L.cel with
    buckets := L.cel.buckets.foldl (fun m e =>
      sput Bucket.reset m e.1 { e.2 with window := 0, first := 0, last := 0, noted := false }) [] } })

/-- A STAGE_LOST record where records were lost since the last flush (R407). -/
def closeLost (s : State) (l : Lane) : State :=
  let c := (lane s l).cel
  if c.lostRun = 0 then s
  else
    let s1 := putRecord s l (mkRecord s l 0x0F02 false true
      (le 4 c.lostRun ++ le 8 c.lostFirst.toNat ++ le 8 c.lostLast.toNat ++ le 4 0)) true
    modLane s1 l (fun L => { L with cel := { L.cel with lostRun := 0, lostFirst := 0, lostLast := 0 } })

/-- Write out the staging of a lane in staging order (R406). -/
def drainStaging (s : State) (l : Lane) : State :=
  let rs := (lane s l).cel.staging
  let s1 := modLane s l (fun L => { L with cel := { L.cel with staging := [], inStaging := [], flushDue := false } })
  foldS rs (fun s r => writeRecord s l r) s1

/-- Code of a trigger in CEL_LAST_FLUSH (R423). -/
def triggerCode : FlushTrigger → Nat
  | .periodic => 1
  | .code => 2
  | .half => 3
  | .power => 4

/-- The history pages that hold the entries written between two write positions (R419). -/
def historyPages (old new : Nat) : List Nat :=
  ((List.range ((new + 16256 - old) % 16256)).map (fun i => 16 + (old + i) % 16256 / 127)).eraseDups

/-- The keeper brings the pages that follow a flush up to date: whole seconds, LAST_TIME, and pages 0 to 8 with the history that has grown
(R407, R418, R419). -/
def keeperPages (s : State) : State :=
  let s1 := modLife s (fun f => { f with
    lastTime := if s.mod.tickTime.toNat > f.lastTime.toNat then s.mod.tickTime else f.lastTime
    operatingS := satAdd f.operatingS (f.opNs / 1000000000), opNs := f.opNs % 1000000000
    serviceS := satAdd f.serviceS (f.svcNs / 1000000000), svcNs := f.svcNs % 1000000000
    service2S := satAdd f.service2S (f.svc2Ns / 1000000000), svc2Ns := f.svc2Ns % 1000000000 })
  let c := s1.cellar
  let grown := if c.life.histPos = c.paged.histPos then [] else 15 :: historyPages c.paged.histPos c.life.histPos
  { s1 with cellar := savePages ([0, 1, 2, 3, 4, 5, 6, 7, 8] ++ grown) c }

/-- The flush interval of 100 ms in which the tick time lies (R406). -/
def flushPeriod (s : State) : Nat := s.mod.tickTime.toNat / 100000000

/-- A flush trigger holds (R406). -/
def flushDueNow (s : State) (l : Lane) : FlushTrigger → Bool
  | .periodic => decide (flushPeriod s ≠ (lane s l).cel.lastPeriod)
  | .code => (lane s l).cel.flushDue
  | .half => decide (stagedBytes (lane s l).cel ≥ 262144)
  | .power => s.mod.v3Warn && !(lane s l).cel.powerFlush

/-- A flush of one lane (R406, R407, R413). -/
def flushLane (s : State) (l : Lane) (t : FlushTrigger) : State :=
  let s1 := if t = .periodic then closeWindows s l else s
  let s2 := drainStaging (closeLost s1 l) l
  let s3 := if decide (t = .periodic) || decide (t = .power) then
      (if s2.cellar.keeper = some l then keeperPages s2 else s2) else s2
  modLane s3 l (fun L => { L with cel := { L.cel with
    lastFlush := pack [(0, triggerCode t), (16, (cycle16 s).toNat)]
    lastPeriod := if t = .periodic then flushPeriod s else L.cel.lastPeriod
    powerFlush := L.cel.powerFlush || decide (t = .power) } })

/-- FLUSH (R406, R409, R410): the read-back of each device's copies; the power flush writes without read-back. In a lane that writes through it
ends the read-back of the record written last. The three lanes' bursts do not interleave: each FLUSH writes out a whole staging buffer
(R399; DESIGN CHOICE, log entry 84). -/
def execFlush (l : Lane) (trigger : FlushTrigger) (dev0 dev1 : ReadBack) (s : State) :
    Host.Outcome State Fault Refusal :=
  .next (
    let due := runs s l && flushDueNow s l trigger
    let through := runs s l && !stages s l && (lane s l).cel.through.isSome
    let s1 := if due then flushLane s l trigger else s
    if due && decide (trigger = .power) then { s1 with mod := { s1.mod with powerFlush := true } }
    else if due || through then
      let s2 := modLane s1 l (fun L => { L with cel := { L.cel with through := none } })
      readBack (readBack s2 l 0 dev0) l 1 dev1
    else s)

/-- CEL_STAGE_PEAK (R423): reading returns the peak and clears it. -/
def execCelStagePeak (a : RegAccess) (s : State) : Host.Outcome State Fault Refusal :=
  .next (if reaches s a then
      answer (modLane s a.lane (fun L => { L with cel := { L.cel with peak := 0 } })) (lane s a.lane).cel.peak
    else noAnswer s)

/-! ### The clear (R415, R416) -/

/-- Port in bit 7 and SQ in bits 3:0. -/
def portSq (r : HostRef) : Nat := r.port.idx * 128 + r.sq.val

/-- The CLEARED payload (R415 step 2). -/
def clearedPayload (c : Cellar) (staged : Nat) (r : HostRef) (kv : BitVec 16) (nonce : BitVec 64) : List Byte :=
  le 8 c.firstSeq.toNat ++ le 8 (c.nextSeq.toNat - 1) ++ le 8 (c.log.length + staged) ++ le 2 kv.toNat ++
  le 1 (portSq r) ++ le 1 0 ++ le 2 r.tag.toNat ++ le 2 0 ++ le 8 nonce.toNat

/-- The keeper, or lane A before the first tick names one (R418). -/
def keeperLane (s : State) : Lane := s.cellar.keeper.getD .A

/-- Flushes that are due at the tick of a clear complete first (R416). -/
def dueFlushes (s : State) : State :=
  foldS Lane.list (fun s l => if runs s l && flushDueNow s l .periodic then flushLane s l .periodic else s) s

/-- Every lane discards its staging, and closes its suppression windows without a summary (R415 step 1). -/
def dropStaging (s : State) : State :=
  modLanes s (fun _ L => { L with cel := { L.cel with
    staging := [], inStaging := [], flushDue := false
    buckets := L.cel.buckets.foldl (fun m e =>
      sput Bucket.reset m e.1 { e.2 with window := 0, first := 0, last := 0 }) [] } })

/-- Steps 2 to 4 of R415, by the keeper: the CLEARED record, which a saturated NEXT_SEQ leaves out (R402), the empty ring, and the clear
history; the keeper raises CEL_CLEARED, which is of Lane scope (R364, R418; DEDUCED, log entry 75). -/
def clearLog (s : State) (staged : Nat) (r : HostRef) (kv : BitVec 16) (nonce : BitVec 64) : State :=
  let c := s.cellar
  let k := keeperLane s
  let pay := clearedPayload c staged r kv nonce
  let slot := { mkRecord s k 0x0F00 true true pay with seq := c.nextSeq, flags := recFlags true true s.mod.timeUnsure false }
  let next := if seqSat c then c.nextSeq else c.nextSeq + 1
  let c1 := { c with clearSlot := if seqSat c then c.clearSlot else some slot, nextSeq := next, firstSeq := next, log := [], wrBlock := 0
                     wrOff := 0, clearing := some (r, kv, nonce) }
  let s1 := modPages { s with cellar := c1 } [6, 8] (fun f => { f with clears := (pay :: f.clears).take 64, clearTotal := satInc f.clearTotal })
  eicRaise s1 k 130

/-- CELLAR_CLEAR at its tick (R415); false: the 3V3 warning stands, so the clear is abandoned (R416). -/
def celClear (s : State) (r : HostRef) (kv : BitVec 16) (nonce : BitVec 64) : State × Bool :=
  if s.mod.v3Warn then (s, false)
  else
    let s1 := dueFlushes s
    let staged := Lane.list.foldl (fun n l => n + (lane s1 l).cel.staging.length) 0
    (clearLog (dropStaging s1) staged r kv nonce, true)

/-- At END_INPUT the keeper of a clear has ended its steps, unless it has been isolated (R416). -/
def clearEnds (s : State) : State :=
  match lst s (keeperLane s) with
  | .isolated => s
  | .retired => s
  | .boot => s
  | _ => { s with cellar := { s.cellar with clearing := none } }

/-- At the next tick the new keeper repeats the clear from step 2 (R416). -/
def repeatClear (s : State) : State :=
  match s.cellar.clearing with
  | some (r, kv, nonce) => if s.mod.v3Warn then s else clearLog s 0 r kv nonce
  | none => s

/-! ### History and lifetime pages (R419) -/

/-- Add an entry to the history ring; the oldest is overwritten where the ring is full (R419). -/
def addHistory (s : State) (kind lane' value : Nat) (detail : BitVec 64) (detail2 : BitVec 64 := 0) : State :=
  modLife s (fun f => { f with
    history := ({ time := s.mod.tickTime, kind := BitVec.ofNat 8 kind, lane := BitVec.ofNat 8 lane'
                  value := BitVec.ofNat 32 value, detail := detail, detail2 := detail2 } :: f.history).take 16256
    histPos := (f.histPos + 1) % 16256
    overwritten := if f.history.length ≥ 16256 then satInc f.overwritten else f.overwritten })

/-- Place byte runs at their offsets in a page of n bytes; every other byte reads 0. -/
def layout (n : Nat) (runs : List (Nat × List Byte)) : List Byte :=
  (List.range n).map (fun i =>
    match runs.find? (fun r => decide (r.1 ≤ i) && decide (i < r.1 + r.2.length)) with
    | some r => lget 0 r.2 (i - r.1)
    | none => 0)

/-- n stamps of 8 bytes each, newest first, 0 where none. -/
def stampBytes (n : Nat) (ts : List Time) : List Byte :=
  (List.range n).flatMap (fun i => le 8 (lget 0 ts i).toNat)

/-- Code of a field-fault cause (R290); 0: none. -/
def fieldFaultCode : Option FieldFaultCause → Nat
  | none => 0
  | some .selfCheck => 1
  | some .configMismatch => 2
  | some .pairCheck => 3
  | some .lossBudget => 4

/-- Code of an isolation cause (R39). -/
def isoCode : IsoCause → Nat
  | .none => 0 | .voteDissent => 1 | .overrun => 2 | .watchdog => 3 | .link => 4 | .stack => 5 | .memory => 6
  | .rail => 7 | .self => 8 | .shadowMismatch => 9 | .transfer => 0xA | .bist => 0x10 | .update => 0x11
  | .maintainer => 0x12

/-- The lane area of page 3 (R419). -/
def page3Lane (x : LaneLifetime) : List Byte :=
  le 8 x.isoTotal.toNat ++ le 8 x.retireTotal.toNat ++ le 8 x.overrunTotal.toNat ++ le 1 (bit x.retired) ++
  le 1 (isoCode x.lastCause) ++ le 6 0 ++ stampBytes 8 x.stamps ++ le 8 x.bistPass.toNat

/-- A repair-map entry list (R460): the number of rows, then 4 bytes a row with the macro, the spare and the row. -/
def repairBytes (rs : List SoftRepair) : List Byte :=
  le 4 rs.length ++ rs.flatMap (fun r => le 1 r.macroNo.val ++ le 1 r.spare.val ++ le 2 r.row.val)

/-- The 32 bytes of a history entry (R419). -/
def histBytes (e : HistEntry) : List Byte :=
  le 8 e.time.toNat ++ le 1 e.kind.toNat ++ le 1 e.lane.toNat ++ le 2 0 ++ le 4 e.value.toNat ++ le 8 e.detail.toNat ++
  le 8 e.detail2.toNat

/-- The entry of ring index i: the newest stands at the index before the write position (R419). -/
def histAt (f : Lifetime) (i : Nat) : List Byte :=
  let age := (f.histPos + 16256 - 1 - i) % 16256
  match f.history[age]? with
  | some e => histBytes e
  | none => le 32 0

/-- The data of logical lifetime page p as the MRAM holds it, by offset (R417, R419). -/
def pageRuns (c : Cellar) (p : Nat) : List (Nat × List Byte) :=
  let f := c.paged
  if p = 0 then [(0x10, le 8 f.serial.toNat ++ le 8 f.manufactured.toNat ++ le 8 f.firstService.toNat ++ le 8 f.lastTime.toNat)]
  else if p = 1 then [(0x10, le 8 f.operatingS.toNat ++ le 8 f.powerCycles.toNat ++ le 8 f.restarts.toNat ++
    le 8 f.serviceS.toNat ++ le 8 f.service2S.toNat ++ le 8 f.timeSets.toNat)]
  else if p = 2 then [
    (0x10, Lane.list.flatMap (fun l => le 2 (f.tempLow.get l).toNat)),
    (0x18, Lane.list.flatMap (fun l => le 2 (f.tempHigh.get l).toNat)),
    (0x20, (List.range 18).flatMap (fun i => le 8 (sget 0 f.tempBands i).toNat))]
  else if p = 3 then [(0x10, page3Lane f.lanes.a), (0x110, page3Lane f.lanes.b), (0x210, page3Lane f.lanes.c)]
  else if p = 4 then [
    (0x10, (List.range 8).flatMap (fun i => le 8 (sget 0 f.fcs i).toNat)),
    (0x50, (List.range 8).flatMap (fun i => stampBytes 4 (sget [] f.withdrawals i))),
    (0x150, le 1 f.retiredMedia.toNat),
    (0x158, le 8 f.timingTotal.toNat ++ le 2 f.takeovers.toNat ++ le 2 f.handovers.toNat ++ stampBytes 4 f.loadFails)]
  else if p = 5 then [
    (0x10, (List.range 16).flatMap (fun i => le 8 (sget 0 f.switchOns i).toNat)),
    (0x90, (List.range 16).flatMap (fun i => le 1 (sget 0 f.retiredOuts i).toNat)),
    (0xA0, stampBytes 4 f.crossingLosses ++ le 1 (fieldFaultCode f.fieldFault))]
  else if p = 6 then [
    (0x10, le 2 f.keyVersion.toNat ++ le 8 f.nonceLast.toNat ++ le 4 f.versionFloor.toNat ++ le 2 f.roleEpoch.toNat),
    (0x20, le 8 f.clearTotal.toNat ++ le 4 f.confirmed.toNat ++ le 8 f.confirmedCheck.toNat),
    (0x40, le 1 (bit (decide (c.dev0 = .failed)) + 2 * bit (decide (c.dev1 = .failed)))),
    (0x44, le 4 f.restartInto.toNat)]
  else if p = 7 then [
    (0x10, le 8 f.proofTotal.toNat),
    (0x18, Lane.list.flatMap (fun l => le 4 (f.linkErr.get l).toNat) ++
           Lane.list.flatMap (fun l => le 4 (f.dissent.get l).toNat)),
    (0x30, le 4 f.refuse.p0.toNat ++ le 4 f.refuse.p1.toNat ++ le 4 f.stale.p0.toNat ++ le 4 f.stale.p1.toNat ++
           le 4 f.authFail.p0.toNat ++ le 4 f.authFail.p1.toNat)]
  else if p = 8 then (List.range 64).map (fun i => (0x10 + 48 * i, lget [] f.clears i))
  else if p = 10 then
    if f.keyVersion = 0 then []
    else [(0x10, le 48 (Config.keyCopy .A f.key).toNat), (0x110, le 48 (Config.keyCopy .B f.key).toNat),
          (0x210, le 48 (Config.keyCopy .C f.key).toNat)]
  else if p = 11 then [(0x10, repairBytes f.repairs.a)]
  else if p = 12 then [(0x10, repairBytes f.repairs.b)]
  else if p = 13 then [(0x10, repairBytes f.repairs.c)]
  else if p = 15 then [(0x10, le 4 f.histPos ++ le 8 f.overwritten.toNat)]
  else if 16 ≤ p ∧ p ≤ 143 then
    (List.range 127).map (fun i => (0x10 + 32 * i, histAt f ((p - 16) * 127 + i)))
  else []

/-- Byte i of a run list; every other byte reads 0. -/
def runByte (rs : List (Nat × List Byte)) (i : Nat) : Byte :=
  match rs.find? (fun r => decide (r.1 ≤ i) && decide (i < r.1 + r.2.length)) with
  | some r => lget 0 r.2 (i - r.1)
  | none => 0

/-- The map of R419 names page p. -/
def pageNamed (p : Nat) : Bool :=
  decide (p ≤ 8) || decide (p = 10) || decide (p = 11) || decide (p = 12) || decide (p = 13) || (decide (15 ≤ p) && decide (p ≤ 143))

/-- Byte i of the newest slot of a named page, before its check: generation, page number, format, zeros, data (R417). -/
def slotByte (c : Cellar) (p i : Nat) : Byte :=
  let head := le 8 (Config.firstGeneration p + sget 0 c.gens p).toNat ++ le 2 p ++ le 2 (Config.pageFormat p).toNat ++ le 4 0
  if i < 16 then lget 0 head i else runByte (pageRuns c p) i

/-- Byte i of the logical page area (R417): the newest slot of each named page with its CRC-32C at 0xFFC, 0 in a page that the map does not
name. -/
def lifeByte (crc : List Byte → Word) (c : Cellar) (i : Nat) : Byte :=
  let p := i / 4096
  let o := i % 4096
  if !pageNamed p then 0
  else if o < 0xFFC then slotByte c p o
  else lget 0 (le 4 (crc ((List.range 0xFFC).map (slotByte c p))).toNat) (o - 0xFFC)

/-- Offset of the newest slot of a page in a device: slots 2p and 2p + 1 by turns (R417). -/
def slotOffset (c : Cellar) (p : Nat) : Nat := 4096 * (2 * p + (Config.firstGeneration p + sget 0 c.gens p).toNat % 2)

/-- The bytes of a record, with the check function that the Cellar port runs over them (R401). -/
def recBytes (crc : List Byte → Word) (r : Record) : List Byte :=
  let body := le 2 (recLen r) ++ le 2 r.code.toNat ++ le 1 r.lane.toNat ++ le 1 r.flags.toNat ++ le 2 r.repeats.toNat ++
    le 8 r.time.toNat ++ le 8 r.seq.toNat ++ r.payload
  body ++ le 4 (crc body).toNat

end Sys2Proof.Machine
end

