-- ==== Sys2Proof/Machine/Lanes.lean ====
section
/-!
DEFINITION. Isolation, retirement and the module's state (R14 to R36, R173 to R177): what every fault of a lane ends in;
Harnal's authorisation; retirement of an output channel.
-/

namespace Sys2Proof.Machine

/-- LANE_STATE.MODULE (R38). -/
def modCode : ModSt → Nat
  | .off => 0 | .boot => 1 | .starting => 2 | .commissioning => 3 | .svc3 => 4 | .svc2 => 5 | .safe => 6 | .recovery => 7

/-- LANE_STATE.STATE (R38). -/
def laneCode : LaneSt → Nat
  | .boot => 0 | .test => 1 | .sync => 2 | .serving => 3 | .isolated => 4 | .reintegrating => 5 | .retired => 6

/-- SLC_LATCH.CAUSE (R195). -/
def latchCode : LatchCause → Nat
  | .none => 0 | .noMajority => 1 | .pairDisagree => 2 | .lanesLost => 3 | .follow => 4 | .bootLimit => 5
  | .startTest => 6 | .uncaused => 7

/-- SLC_LATCH of one Sluice (R195). -/
def latchWord (x : Sluice) : Word := pack [(0, latchCode x.latchCause), (16, x.latchCycle.toNat)]

/-- A new module state: MODULE_STATE is raised and recorded (R364, R404); the payload's cause bytes are open. -/
def setModule (s : State) (m : ModSt) : State :=
  if s.mod.st = m then s
  else
    let s1 := { s with mod := { s.mod with st := m }, free := s.free + 1 }
    eventAll s1 3 0x0004 (le 1 (modCode s.mod.st) ++ le 1 (modCode m) ++ le 2 (Config.freeValue s.free).toNat)

/-- A Sluice sets its latch, which opens its lane's switches and ends its content and codes (R175, R177). -/
def setLatch (s : State) (l : Lane) (c : LatchCause) : State :=
  modSluice s l (fun x => if x.latch then x else
    { x with latch := true, latchCause := c, latchCycle := cycle16 s, now := 0, next := 0 })

/-- Lanes whose Sluice's latch is set. -/
def latched (s : State) (l : Lane) : Bool := (s.sluices.get l).latch

/-- Put a lane's BIST into a phase; its host port fetches nothing during logic BIST and the march (R466, R471). -/
def setPhase (s : State) (l : Lane) (ph : BitVec 3) : State :=
  let s1 := modLane s l (fun L => { L with bist := { L.bist with phase := ph } })
  match ringPort l with
  | some p => modPort s1 p (fun x => { x with paused := decide (ph = 2) || decide (ph = 3) || decide (ph = 5) })
  | none => s1

/-- The level sources of a lane's EIC take their present levels (R364, R466): each asserted one that was not asserted before
arrives. -/
def settleLevels (s : State) (l : Lane) : State :=
  let r := lane s (refLane s)
  let levels : List (Nat × Bool) :=
    [(4, (lane s l).pwr.coreWarn), (5, s.mod.v3Warn), (19, decide (field r.raa.queueReg 28 16 > 0)),
     (21, decide (r.press.satCount ≠ 0)), (32, s.alk.warn), (67, s.field.group1.warn), (68, s.field.group2.warn)] ++
    (match ringPort l with | some p => [(102 + p.idx, !(s.ports.get p).linkUp)] | none => [])
  foldS levels (fun s e => eicLevel s l e.1 e.2) s

/-- A BIST moves to a phase; with the end of logic BIST the EIC is restored (R466). -/
def movePhase (s : State) (l : Lane) (ph : BitVec 3) : State :=
  let logic := inLogicBist s l
  let s1 := setPhase s l ph
  if logic && !inLogicBist s1 l then settleLevels s1 l else s1

/-- A BIST that runs in the lane ends with kind ENDED (R468, R469, R471); the planned activity is over, and the lane may go to TEST
(R24). One whose parts have all passed only leaves its last phase, the re-initialisation. -/
def endBist (s : State) (l : Lane) : State :=
  let ph := (lane s l).bist.phase
  if ph = 0 then s
  else if ph = 6 then setPhase s l 0
  else
    let s1 := movePhase s l 0
    let s2 := modLane s1 l (fun L => { L with
      bist := { L.bist with last := 3, cycle := cycle16 s }
      life := { L.life with planned := if L.life.planned = .bist then .none else L.life.planned } })
    recordLane s2 l 0x0706 (le 1 l.num ++ le 1 5 ++ le 2 0 ++ le 4 0 ++ le 8 0)

/-- Stop the Press of a lane (R174): no strand runs. -/
def stopPress (p : Press) : Press :=
  let f := fun (x : Strand) => { x with running := false, waiting := none }
  { p with active := false
           strands := { s0 := f p.strands.s0, s1 := f p.strands.s1, s2 := f p.strands.s2, s3 := f p.strands.s3 } }

/-- Stop the RAA of a lane (R154, R174): nothing is left to prove or to release, and it is idle. -/
def stopRaa (r : Raa) : Raa := { r with toProve := [], releases := [], activity := 0 }

/-- What the entry into SAFE ends in a lane: its logic (R81, R113, R154), a transfer and a planned activity (R33, R34). -/
def safeLane (L : LaneState) : LaneState :=
  { L with life := { L.life with join := .none, planned := .none }, press := stopPress L.press, raa := stopRaa L.raa
           xfer := none }

/-- The module enters SAFE: every latch still clear is set with cause FOLLOW (R176), what the lanes do ends, and SAFE_LATCH is
recorded (R404). -/
def enterSafe (s : State) : State :=
  if s.mod.st = .safe then s
  else
    let s1 := foldS Lane.list (fun s l => endBist (setLatch s l .follow) l) s
    let s2 := setModule (modLanes s1 (fun _ L => safeLane L)) .safe
    recordAll s2 0x0005 (Lane.list.flatMap (fun l => le 4 (latchWord (s2.sluices.get l)).toNat))

/-- Every Sluice sets its latch with one finding of its own, and the module is in SAFE (R169, R170, R172, R175). -/
def latchAll (s : State) (c : LatchCause) : State :=
  enterSafe (foldS Lane.list (fun s l => setLatch s l c) s)

/-- The module state after lanes have left SERVING (R20, R170): SERVICE_3oo3 goes to SERVICE_2oo2; with fewer than two
serving lanes the module is in SAFE, its latches set with the cause given. -/
def afterLoss (s : State) (c : LatchCause) : State :=
  if operating s.mod.st then
    if (servingLanes s).length < 2 then latchAll s c
    else if s.mod.st = .svc3 ∧ (servingLanes s).length = 2 then setModule s .svc2
    else s
  else s

/-- A planned cause (R24, R39). -/
def planned : IsoCause → Bool
  | .bist => true | .update => true | .maintainer => true | _ => false

/-- Counted isolations of a lane in the 24 h that end at now, both ends included (R26, R519). -/
def windowCount (s : State) (l : Lane) (now : Time) : Nat :=
  min 4 (inWindow now day24 (s.cellar.life.lanes.get l).stamps).length

/-- LANE_WINDOW (R519). -/
def laneWindow (s : State) (l : Lane) : Nat := windowCount s l s.mod.tickTime

/-- The lifetime side of an isolation (R27, R30, R418, R419); one that meets a planned isolation of the same cycle is the same
isolation (R36). -/
def lifeIsolate (x : LaneLifetime) (c : IsoCause) (counted again retire : Bool) (now : Time) : LaneLifetime :=
  { x with
    isoTotal := if again then x.isoTotal else satInc x.isoTotal
    retireTotal := if retire then satInc x.retireTotal else x.retireTotal
    retired := x.retired || retire
    lastCause := c
    stamps := if counted then (now :: x.stamps).take 8 else x.stamps }

/-- The Sluices drop what they hold of a lane's image for a vote, and its codes are withdrawn (R174). -/
def linkOut (k : ImageLink) : ImageLink :=
  { k with rx := k.rx.map (fun _ x => { x with complete := false, checkOk := false }) }

/-- The staged bank enters EMPTY with a reason (R428, R432, R455). -/
def emptyBank (b : Bank) (reason : Nat) : Bank :=
  { b with st := .empty, number := 0, staged := none, stagedCheck := 0, verifying := false, parts := none, received := [], expiry := 0
           reason := BitVec.ofNat 8 reason }

/-- A lane that leaves discards what it holds of a staging under way (R433). -/
def stageDropped (b : Bank) : Bank := if b.st = .receiving then emptyBank b 0 else b

/-- What isolation does inside the lane (R174): Press and RAA stop, its image is not voted, its codes are withdrawn, a
reintegration, a planned activity or a staging under way ends. -/
def laneOut (L : LaneState) (st : LaneSt) : LaneState :=
  { L with life := { L.life with st := st, join := .none, startStep := 0, testsDone := false }
           press := stopPress L.press
           raa := stopRaa L.raa
           link := linkOut L.link, xfer := none, bank := stageDropped L.bank }

/-- A test of lane switches that runs ends when any lane is isolated: the switches it opened close again, unless the Sluice's
latch holds them open (R175, R182). -/
def abortSwitchTests (s : State) : State :=
  modSluices s (fun _ x => if x.testRunning then { x with
    now := if x.latch then x.now else x.now ||| x.testMask, testRunning := false, testAborted := true, testMask := 0 } else x)

/-- The Sluice of an isolated lane opens its 32 switch drives, and all Sluices drop the lane from their view (R174). -/
def dropLane (s : State) (l : Lane) : State :=
  let s1 := modSluice s l (fun x => { x with now := 0, next := 0, vctl := 0 })
  modSluices s1 (fun _ x => { x with voting := vput x.voting l.idx false })

/-- Payload of LANE_ISOLATED, LANE_RETIRED, LANE_JOINED and RETIRE_CLEARED (R404). -/
def lanePayload (s : State) (l : Lane) (counted : Bool) : List Byte :=
  le 1 l.num ++ le 1 (isoCode (lane s l).life.cause) ++ le 1 (bit counted) ++ le 1 (laneWindow s l) ++
  le 4 s.mod.cycle.toNat

/-- A lane can be isolated: it is in SERVING, SYNC, REINTEGRATING or TEST (R24, R65, R163). -/
def isolatable : LaneSt → Bool
  | .serving => true | .sync => true | .reintegrating => true | .test => true
  | .boot => false | .isolated => false | .retired => false

/-- A counted cause found in a lane that a planned activity keeps out: the activity stops and the isolation counts (R34). -/
def countsInPlanned (s : State) (l : Lane) (c : IsoCause) : Bool :=
  decide (lst s l = .isolated) && !planned c && decide ((lane s l).life.planned ≠ .none)

/-- A counted cause meets the planned isolation of the same lane in the same cycle (R36). -/
def meetsPlanned (s : State) (l : Lane) (c : IsoCause) : Bool := !planned c && (lane s l).life.plannedNow

/-- The record of the planned isolation of a lane leaves the staging of every lane: the isolation is recorded as the counted one
(R36); a record already written to MRAM stays (log entry 53). -/
def dropPlanned (s : State) (l : Lane) : State :=
  let mine := fun (r : Record) => decide (r.code = 0x0100) && decide (r.payload = lanePayload s l false)
  modLanes s (fun _ L => { L with cel := { L.cel with staging := L.cel.staging.filter (fun r => !mine r) } })

/-- The condition of R176 under which the module is in SAFE: two latches are set, or that of a serving lane's Sluice while exactly
two lanes serve. -/
def latchedOut (s : State) : Bool :=
  let serve := servingLanes s
  decide ((Lane.list.filter (latched s)).length ≥ 2) ||
  (decide (serve.length = 2) && decide ((serve.filter (latched s)).length > 0) && operating s.mod.st)

/-- The module enters SAFE where the latches say so (R176). -/
def latchSafe (s : State) : State := if latchedOut s then enterSafe s else s

/-- The isolation of a lane that can be isolated (R26, R173, R174, R411), and the module's answer with the latch cause
given. -/
def isolateNow (s : State) (l : Lane) (c : IsoCause) (onLoss : LatchCause) : State :=
  let now := s.mod.tickTime
  let counted := !planned c
  let earlier := (inWindow now day24 (s.cellar.life.lanes.get l).stamps).length
  let retire := counted && (decide (earlier ≥ 3) || bothFailed s.cellar)
  let again := meetsPlanned s l c
  let s1 := abortSwitchTests (if again then dropPlanned s l else s)
  let s2 := modPages s1 [3] (fun f => { f with lanes := f.lanes.set l (lifeIsolate (f.lanes.get l) c counted again retire now) })
  let s3 := modLane s2 l (fun L =>
    let L1 := laneOut L (if retire then .retired else .isolated)
    { L1 with life := { L1.life with cause := c, isoCycle := cycle16 s
                                     planned := if counted then .none else c, plannedNow := !counted } })
  let s4 := dropLane (if counted then endBist s3 l else s3) l
  let s5 := recordAll (if again then s4 else eicRaiseAll s4 0) 0x0100 (lanePayload s4 l counted)
  let s6 := if retire then eventAll s5 1 0x0101 (lanePayload s5 l counted) else s5
  latchSafe (afterLoss s6 onLoss)

/-- Isolate a lane with a cause; a cause found for a lane already out is recorded in the Cellar only (R173). -/
def isolateWith (s : State) (l : Lane) (c : IsoCause) (onLoss : LatchCause) : State :=
  if isolatable (lst s l) || countsInPlanned s l c then isolateNow s l c onLoss
  else match lst s l with
    | .isolated => recordAll s 0x0100 (le 1 l.num ++ le 1 (isoCode c) ++ le 1 0 ++ le 1 (laneWindow s l) ++ le 4 s.mod.cycle.toNat)
    | .retired => recordAll s 0x0100 (le 1 l.num ++ le 1 (isoCode c) ++ le 1 0 ++ le 1 (laneWindow s l) ++ le 4 s.mod.cycle.toNat)
    | _ => s

/-- The order of R173: of several causes that a Sluice finds in the same clock the one with the lowest rank is recorded. -/
def causeRank : IsoCause → Nat
  | .rail => 0 | .watchdog => 1 | .link => 2 | .overrun => 3 | .stack => 4 | .memory => 5 | .self => 6 | .voteDissent => 7
  | .transfer => 8 | .shadowMismatch => 9 | .bist => 10 | .update => 10 | .maintainer => 10 | .none => 11

/-- The first cause of those found in one clock (R173). -/
def firstCause (c : IsoCause) (also : List IsoCause) : IsoCause :=
  also.foldl (fun a b => if causeRank b < causeRank a then b else a) c

/-- Isolate a lane with a cause (R173, R174). -/
def isolate (s : State) (l : Lane) (c : IsoCause) : State := isolateWith s l c .lanesLost

/-- One more VOTE_DISSENT isolation found by the Sluices of a mask (R196). -/
def countDissent (s : State) (found : BitVec 3) : State :=
  modLife s (fun f => { f with dissent := f.dissent.map (fun l x => if laneBit found l then satInc x else x) })

/-- The latch rule (R176): two latches, or the latch of a serving lane's Sluice while exactly two lanes serve, put the
module into SAFE; a latch alone while three lanes serve is a lone latch, which the two other Sluices find, and its lane is isolated
until restart. -/
def latchRule (s : State) : State :=
  if latchedOut s then enterSafe s
  else if (servingLanes s).length = 3 ∧ operating s.mod.st = true then
    match Lane.list.filter (latched s) with
    | [l] =>
      let s1 := modSluice s l (fun x => { x with lone := true })
      let s2 := modLane s1 l (fun L => { L with life := { L.life with loneHeld := true } })
      isolate (countDissent s2 (laneBits (fun m => decide (m ≠ l)))) l .voteDissent
    | _ => s
  else s

/-! ### Harnal's authorisation (R28, R307, R411, R482) -/

/-- An authorised Harnal request is accepted: a key is installed, its version is current, the HMAC verifies and the nonce
is above NONCE_LAST; a module in reset judges none. -/
def authOk (s : State) (a : Auth) : Bool :=
  decide (s.cellar.life.keyVersion ≠ 0) && decide (a.keyVersion = s.cellar.life.keyVersion) && a.hmacOk &&
  decide (a.nonce.toNat > s.cellar.life.nonceLast.toNat) && !bothFailed s.cellar && decide (s.mod.st ≠ .off)

/-- An accepted request writes its nonce (R307). -/
def takeNonce (s : State) (a : Auth) : State := modPages s [6] (fun f => { f with nonceLast := a.nonce })

/-- MAINT_CLEAR of R486, recorded by every lane whose service core runs. -/
def recordMaint (s : State) (kind item : Nat) (a : Auth) : State :=
  foldS Lane.list (fun s l => recordLane s l 0x070A
    (le 1 kind ++ le 1 item ++ le 2 a.keyVersion.toNat ++ le 4 0 ++ le 8 a.nonce.toNat)) s

/-- An authorised Harnal request: its effect, after the nonce is written and MAINT_CLEAR recorded; refused, nothing changes. -/
def harnal (s : State) (a : Auth) (kind item : Nat) (f : State → State) : State :=
  if authOk s a then f (recordMaint (takeNonce s a) kind item a) else s

/-! ### Output channels (R281) -/

/-- FLD_OUT_DIAG.FAULT (R292). -/
def outFaultCode : OutFault → Nat
  | .none => 0 | .overload => 1 | .short => 2 | .overTemp => 3 | .openWire => 4 | .stuckHigh => 5 | .crossConnect => 6
  | .switchStuckClosed => 7 | .switchStuckOpen => 8 | .onTestFail => 9

/-- An output channel's record. -/
def outRec (s : State) (n : Nat) : OutRec := sget OutRec.reset s.field.outputs n

/-- Change an output channel's record. -/
def modOut (s : State) (n : Nat) (f : OutRec → OutRec) : State :=
  { s with field := { s.field with outputs := smod OutRec.reset s.field.outputs n f } }

/-- Permanent retirement of an output channel, kept by the keeper on lifetime page 5 (R281, R418); one that is retired already shows the next
fault found there (R292). -/
def retireOut (s : State) (n : Nat) (f : OutFault) (partner : Nat) : State :=
  if (outRec s n).retired then modOut s n (fun o => { o with fault := f, partner := BitVec.ofNat 4 partner })
  else
    let s0 := modOut s n (fun o => { o with retired := true, awaitZero := false, fault := f, loadOk := false
                                            partner := BitVec.ofNat 4 partner, test := .none, toTry := Option.none })
    let s1 := { s0 with field := { s0.field with
      closed := s0.field.closed.map (fun _ w => vput (vput w n false) (16 + n) false) } }
    let entry : BitVec 8 := BitVec.ofNat 8 (outFaultCode f + 16 * (partner % 16))
    let s2 := modPages s1 [5] (fun x => { x with retiredOuts := sput 0 x.retiredOuts n entry })
    eventAll s2 75 0x0409 (le 1 n ++ le 1 (outFaultCode f) ++ le 2 (outRec s n).current.toNat)

end Sys2Proof.Machine
end

