-- ==== Sys2Proof/Machine/Crc.lean ====
section
/-!
DEFINITION. Check values: the CRC model of R383 with its four fixed sets, and HMAC-SHA-256 (R306; PRESUMED from FIPS 180-4 and
RFC 2104, which the spec names by function only, log entry 9).
-/

namespace Sys2Proof.Machine

/-- Parameters of a CRC (R383). -/
structure CrcParams where
  width : Nat
  poly : Nat
  init : Nat
  refin : Bool
  refout : Bool
  xorout : Nat
deriving DecidableEq, Repr

def crc32c : CrcParams := { width := 32, poly := 0x1EDC6F41, init := 0xFFFFFFFF, refin := true, refout := true, xorout := 0xFFFFFFFF }
def crc32 : CrcParams := { width := 32, poly := 0x04C11DB7, init := 0xFFFFFFFF, refin := true, refout := true, xorout := 0xFFFFFFFF }
def crc64 : CrcParams :=
  { width := 64, poly := 0x42F0E1EBA9EA3693, init := 0xFFFFFFFFFFFFFFFF, refin := true, refout := true
    xorout := 0xFFFFFFFFFFFFFFFF }
def crc16 : CrcParams := { width := 16, poly := 0x1021, init := 0xFFFF, refin := false, refout := false, xorout := 0 }

/-- One input bit enters the register. -/
def crcBit (p : CrcParams) (reg : Nat) (b : Bool) : Nat :=
  let top := decide (reg ≥ 2 ^ (p.width - 1))
  let sh := reg * 2 % 2 ^ p.width
  if top = b then sh else sh ^^^ p.poly

/-- The bits of a byte in the order in which they enter: least significant first with REFIN. -/
def byteBits (refin : Bool) (x : Byte) : List Bool :=
  let bs := [0, 1, 2, 3, 4, 5, 6, 7].map (fun i => x.getLsbD i)
  if refin then bs else bs.reverse

/-- The register after more bytes, before output reflection and final XOR. -/
def crcRun (p : CrcParams) (reg : Nat) (bs : List Byte) : Nat :=
  bs.foldl (fun r x => (byteBits p.refin x).foldl (crcBit p) r) reg

/-- The n low bits of a number in reverse order. -/
def revBits (n x : Nat) : Nat := (List.range n).foldl (fun a i => a * 2 + x / 2 ^ i % 2) 0

/-- The result from a register. -/
def crcOut (p : CrcParams) (reg : Nat) : Nat := (if p.refout then revBits p.width reg else reg) ^^^ p.xorout

/-- The check value of a byte string. -/
def crcOf (p : CrcParams) (bs : List Byte) : Nat := crcOut p (crcRun p p.init bs)

/-- The nine bytes of the check string (R383). -/
def checkString : List Byte := [0x31, 0x32, 0x33, 0x34, 0x35, 0x36, 0x37, 0x38, 0x39]

/-! ### Staged images (R384, R429, R447) -/

/-- The trailer of an image is its last k bytes: the first 8 of them are the CRC-64/XZ of every byte before it. -/
def trailerOk (k : Nat) (bs : List Byte) : Bool :=
  let n := bs.length - k
  decide (crcOf crc64 (bs.take n) = ofLe ((bs.drop n).take 8))

/-! ### The local I/O configuration (R256, R262, R429) -/

/-- The bytes of a local I/O configuration before its CRC-32C, as the lanes send them (R262). -/
def configBody (c : LocalCfg) : List Byte := (c.words.flatMap (fun w => le 16 w.toNat)).take 508

/-- CRC-32C of a configuration (R256 CFG_CHECK, R429 LOCAL_IO_CHECK): over the bytes before the CRC in its last 4 bytes, so that
the value tells configurations apart (DEDUCED, log entry 62). -/
def configCheck (c : LocalCfg) : Word := BitVec.ofNat 32 (crcOf crc32c (configBody c))

/-! ### SHA-256 -/

/-- The first 64 primes. -/
def shaPrimes : List Nat :=
  (List.range 312).filter (fun p =>
    decide (2 ≤ p) && (List.range 18).all (fun d => decide (d < 2) || decide (p ≤ d) || decide (p % d ≠ 0)))

/-- The first 32 bits of the fraction of the k-th root of p: the largest x with x^k ≤ p · 2^(32k), found bit by bit. -/
def rootBits (k p : Nat) : Word :=
  BitVec.ofNat 32 ((List.range 37).foldl (fun x i =>
    let y := x + 2 ^ (36 - i)
    if y ^ k ≤ p * 2 ^ (32 * k) then y else x) 0)

/-- The chaining value of an empty message: square roots of the first eight primes. -/
def shaStart : List Word := (shaPrimes.take 8).map (rootBits 2)

/-- The constants of the 64 steps: cube roots of the primes. -/
def shaRoots : List Word := shaPrimes.map (rootBits 3)

/-- A word turned right by three amounts, combined. -/
def turned (i j k : Nat) (x : Word) : Word := x.rotateRight i ^^^ x.rotateRight j ^^^ x.rotateRight k

/-- A word turned right by two amounts and moved right by a third, combined. -/
def spread (i j k : Nat) (x : Word) : Word := x.rotateRight i ^^^ x.rotateRight j ^^^ x >>> k

/-- The message words, newest first, grow by one. -/
def shaGrow (ws : List Word) : List Word :=
  (spread 17 19 10 (lget 0 ws 1) + lget 0 ws 6 + spread 7 18 3 (lget 0 ws 14) + lget 0 ws 15) :: ws

/-- One step on the last four values of the two chains, newest first; x is message word plus constant. -/
def shaStep : List Word × List Word → Word → List Word × List Word
  | ([p, q, r, s], [t, u, v, w]), x =>
    let y := w + turned 6 11 25 t + (v ^^^ (t &&& (u ^^^ v))) + x
    ([y + turned 2 13 22 p + (p &&& q ||| r &&& (p ||| q)), p, q, r], [s + y, t, u, v])
  | z, _ => z

/-- One block of 64 bytes. -/
def shaBlock (h : List Word) (bs : List Byte) : List Word :=
  let first := (List.range 16).map (fun i => BitVec.ofNat 32 (ofBe ((bs.drop (4 * i)).take 4)))
  let ws := ((List.range 48).foldl (fun ws _ => shaGrow ws) first.reverse).reverse
  let z := ((ws.zip shaRoots).map (fun x => x.1 + x.2)).foldl shaStep (h.take 4, h.drop 4)
  (h.zip (z.1 ++ z.2)).map (fun x => x.1 + x.2)

/-- SHA-256 of a byte string. -/
def sha256 (bs : List Byte) : List Byte :=
  let n := bs.length
  let m := bs ++ (0x80 :: (le ((119 - n % 64) % 64) 0 ++ be 8 (8 * n)))
  ((List.range (m.length / 64)).foldl (fun h i => shaBlock h ((m.drop (64 * i)).take 64)) shaStart).flatMap
    (fun w => be 4 w.toNat)

/-- HMAC-SHA-256 under a key of 32 bytes. -/
def hmacSha256 (key msg : List Byte) : List Byte :=
  let k := key ++ le (64 - key.length) 0
  let inner := sha256 (k.map (fun x => x ^^^ 0x36) ++ msg)
  sha256 (k.map (fun x => x ^^^ 0x5C) ++ inner)

end Sys2Proof.Machine
end

