-- ==== Sys2Proof/Machine/Chk.lean ====
section
/-!
DEFINITION. The check-value units of a lane (R389 to R398): user contexts, their feeding and closing, the self-check.
-/

namespace Sys2Proof.Machine

/-- A user context. -/
def userCtx (L : LaneState) (u : Nat) : UserCtx := sget UserCtx.reset L.chk.users u

/-- Change a user context. -/
def modUser (L : LaneState) (u : Nat) (f : UserCtx → UserCtx) : LaneState :=
  { L with chk := { L.chk with users := smod UserCtx.reset L.chk.users u f } }

/-- WIDTH of a user context (R398). -/
def ctxWidth (c : UserCtx) : Nat := field c.ctrl 6 1 + 1

/-- The CRC parameters of a user context (R392). -/
def ctxParams (c : UserCtx) : CrcParams :=
  { width := ctxWidth c, poly := c.poly.toNat, init := c.init.toNat, refin := c.ctrl.getLsbD 7, refout := c.ctrl.getLsbD 8
    xorout := c.xorout.toNat }

/-- The parameters break R392. -/
def ctxBad (c : UserCtx) : Bool :=
  decide (ctxWidth c < 8) || decide (c.poly.toNat ≥ 2 ^ ctxWidth c) || decide (c.init.toNat ≥ 2 ^ ctxWidth c) ||
  decide (c.xorout.toNat ≥ 2 ^ ctxWidth c)

/-- PARAM_ERR follows the parameters as they are written, and ENABLE stays 0 while they break the rule (R392). -/
def ctxJudge (c : UserCtx) : UserCtx :=
  if ctxBad c then { c with status := vput c.status 3 true, ctrl := vput c.ctrl 0 false }
  else { c with status := vput c.status 3 false }

/-- INIT (R398): RUN ← INIT; BYTES, DONE and INCOMPLETE ← 0. -/
def ctxInit (c : UserCtx) : UserCtx :=
  { c with run := c.init, bytes := 0, status := vput (vput c.status 1 false) 4 false }

/-- The close of a context (R394): RESULT, DONE, and the compare; true: a mismatch was found. -/
def ctxClose (c : UserCtx) : UserCtx × Bool :=
  let p := ctxParams c
  let r := crcOut p c.run.toNat % 2 ^ 64
  let differs := c.ctrl.getLsbD 9 && !c.status.getLsbD 4 && decide (r % 2 ^ p.width ≠ c.expect.toNat % 2 ^ p.width)
  let n : BitVec 16 := (c.status >>> 16).setWidth 16
  let st1 := vput c.status 1 true
  let st2 := if differs then
      (vput st1 2 true &&& 0xFFFF) ||| ((satInc n).setWidth 32 <<< 16)
    else st1
  ({ c with result := BitVec.ofNat 64 r, status := st2 }, differs)

/-- Close context u of a lane; a mismatch raises CHK_MISMATCH u (R394). -/
def closeUser (s : State) (l : Lane) (u : Nat) : State :=
  let (c, bad) := ctxClose (userCtx (lane s l) u)
  let s1 := modLane s l (fun L => modUser L u (fun _ => c))
  if bad then eicRaise s1 l (192 + u) else s1

/-- Class bit of CHK_U_CTRL for a descriptor class (R398). -/
def feedBit (cls : Nat) : Nat :=
  if cls = 0x10 then 24 else if cls = 0x11 then 25 else if cls = 0x20 then 26 else if cls = 0x21 then 27 else 31

/-- The context takes the data of that class, port and SQ (R393). -/
def ctxBound (c : UserCtx) (p : Port) (q : Nat) (cls : Nat) : Bool :=
  c.ctrl.getLsbD 0 && decide (field c.ctrl 16 16 = p.idx) && decide (field c.ctrl 20 17 = q) && c.ctrl.getLsbD (feedBit cls)

/-- The lane receives the data of a staging descriptor: every one that of STAGE_PROGRAM; that of STAGE_FIRMWARE the ring lane, which moves it,
and the lane that LANE names (R311, R393, R431, R448). -/
def receivesData (l : Lane) (t : Taken) : Bool :=
  decide (t.ref.cls ≠ 0x21) || decide (l = t.ref.port.ringLane) || decide (l.num = dget t.desc 0x18 1)

/-- A staging descriptor whose data the lane receives has started and its data has not ended: it feeds the context (R398 BUSY). -/
def ctxBusy (l : Lane) (L : LaneState) (c : UserCtx) : Bool :=
  L.mbx.taken.any (fun t => decide (t.feed = .begun) && receivesData l t && ctxBound c t.ref.port t.ref.sq.val t.ref.cls.toNat)

/-- A descriptor starts to feed: the contexts bound to it that have AUTO_INIT begin a message (R394). -/
def startUsers (s : State) (l : Lane) (p : Port) (q cls : Nat) : State :=
  foldS (List.range 64) (fun s u =>
    let c := userCtx (lane s l) u
    if ctxBound c p q cls && c.ctrl.getLsbD 10 then
      modLane s l (fun L => modUser L u (fun c => { c with run := c.init, bytes := 0 }))
    else s) s

/-- The data of one descriptor that has started feeds the contexts bound to it; false for whole: the descriptor ends with HOST_FAULT or
ABORTED (R393 to R395). The contexts of a LAST chunk close as its data ends, before verification or update (DESIGN CHOICE, log entry 85). -/
def feedUsers (s : State) (l : Lane) (p : Port) (q cls : Nat) (last whole : Bool) (bs : List Byte) : State :=
  foldS (List.range 64) (fun s u =>
    let c := userCtx (lane s l) u
    if ctxBound c p q cls then
      let c1 := { c with
        run := BitVec.ofNat 64 (crcRun (ctxParams c) c.run.toNat bs)
        bytes := satAdd c.bytes bs.length
        status := if whole then c.status else vput c.status 4 true }
      let s1 := modLane s l (fun L => modUser L u (fun _ => c1))
      if c.ctrl.getLsbD 10 || (last && (decide (cls = 0x20) || decide (cls = 0x21))) then closeUser s1 l u else s1
    else s) s

/-- A 64-bit register's half is written. -/
def putHalf (x : BitVec 64) (high : Bool) (v : Word) : BitVec 64 :=
  if high then BitVec.ofNat 64 (x.toNat % 2 ^ 32 + v.toNat * 2 ^ 32) else BitVec.ofNat 64 (x.toNat / 2 ^ 32 * 2 ^ 32 + v.toNat)

/-- Fields of CHK_U_CTRL that a write sets (R398). -/
def ctrlMask : Word := 0x0F1F07FF

/-- CHK_INIT (R398). -/
def execChkInit (a : RegAccess) (u : Fin 64) (s : State) : Host.Outcome State Fault Refusal :=
  .next (if reaches s a then modLane s a.lane (fun L => modUser L u.val ctxInit) else s)

/-- CHK_CLOSE (R394, R395): with INIT in the same write, the close comes first. -/
def execChkClose (a : RegAccess) (u : Fin 64) (alsoInit : Bool) (s : State) : Host.Outcome State Fault Refusal :=
  .next (if reaches s a then
      let s1 := closeUser s a.lane u.val
      if alsoInit then modLane s1 a.lane (fun L => modUser L u.val ctxInit) else s1
    else s)

/-- CHK_U_RUN (R395): later bytes run from the written value; BYTES is unchanged. Bits written at or above WIDTH, which R392 limits in POLY, INIT
and XOROUT alone, stay and act (DESIGN CHOICE, log entry 85). -/
def execChkURun (a : RegAccess) (u : Fin 64) (high : Bool) (value : Word) (s : State) :
    Host.Outcome State Fault Refusal :=
  .next (if reaches s a then
      modLane s a.lane (fun L => modUser L u.val (fun c => { c with run := putHalf c.run high value }))
    else s)

/-- CHK_U_CTRL (R392, R395): while BUSY only ENABLE takes effect, and ENABLE written to 0 sets INCOMPLETE. -/
def execChkUCtrl (a : RegAccess) (u : Fin 64) (value : Word) (s : State) : Host.Outcome State Fault Refusal :=
  .next (if reaches s a then
      modLane s a.lane (fun L => modUser L u.val (fun c =>
        if ctxBusy a.lane L c then
          if value.getLsbD 0 then c else { c with ctrl := vput c.ctrl 0 false, status := vput c.status 4 true }
        else ctxJudge { c with ctrl := value &&& ctrlMask }))
    else s)

/-- The check string is due in the lane: the idle phase runs, and has not run it yet (R389). -/
def selfCheckDue (s : State) (l : Lane) : Bool :=
  runs s l && s.mod.ticking && decide (s.mod.phase = .idle) && decide ((lane s l).chk.checked ≠ some s.mod.cycle)

/-- ENGINE_SELF_CHECK (R389, R397), once in the idle phase of a cycle: found names the fixed sets whose result differed. -/
def execEngineSelfCheck (l : Lane) (found : Option (BitVec 4)) (s : State) : Host.Outcome State Fault Refusal :=
  .next (if selfCheckDue s l then
      let bad := found.getD 0
      let s1 := modLane s l (fun L => { L with chk := { L.chk with
        kat := ~~~ bad, katCycle := cycle16 s, checked := some s.mod.cycle } })
      if bad = 0 then s1 else isolate s1 l .self
    else s)

/-- NETWORK_MISMATCH (R389): the lane is isolated with cause SELF. -/
def execNetworkMismatch (l : Lane) (s : State) : Host.Outcome State Fault Refusal :=
  .next (if runs s l then
      isolate (modLane s l (fun L => { L with chk := { L.chk with netFault := true } })) l .self
    else s)

/-- The largest share of beats since the last read (R397): while ticks run, a lane that runs serves work of classes 1 to 5 in every cycle, and
its share in the running one is open (log entry 85). -/
def loadShare (s : State) (l : Lane) : BitVec 7 :=
  let k := (lane s l).chk
  if s.mod.ticking && runs s l then BitVec.ofNat 7 (max k.loadPeak.toNat ((Config.freeValue s.free).toNat % 101)) else k.loadPeak

/-- CHK_LOAD_PEAK (R397): reading returns the largest share and clears it. -/
def execChkLoadPeak (a : RegAccess) (s : State) : Host.Outcome State Fault Refusal :=
  .next (if reaches s a then
      answer (modLane { s with free := s.free + 1 } a.lane (fun L => { L with chk := { L.chk with loadPeak := 0 } }))
        ((loadShare s a.lane).setWidth 32)
    else noAnswer s)

end Sys2Proof.Machine
end

