-- ==== Sys2Proof/Machine/Operands.lean ====
section
/-!
DEFINITION. Operand forms of the Press (R86 to R95): the address spaces, their reads, and the legality of a word's operand.
-/

namespace Sys2Proof.Machine

/-- The OPERAND field as a number (R93). -/
def opnd (w : PressWord) : Nat := w.operand.toNat

/-- An OPCODE that an instruction table lists (R95, R96, R97, R103, R104, R108). -/
def opListed (opc : BitVec 8) : Bool :=
  let n := opc.toNat
  decide (n < 0xA2) || (decide (0xB0 ≤ n) && decide (n < 0xB4)) || (decide (0xC0 ≤ n) && decide (n < 0xC4)) ||
  (decide (0xD0 ≤ n) && decide (n < 0xEA)) || (decide (0xF0 ≤ n) && decide (n < 0xF3))

/-- Local-block points that R251 lists as inputs, and the peer points (R87, R252). -/
def localInPoint (op : Nat) : Bool :=
  decide (op < 106) || (decide (112 ≤ op) && decide (op < 168)) || (decide (256 ≤ op) && decide (op ≤ 8447))

/-- Local-block points that R251 lists as outputs, and the peer points (R87, R252). -/
def localOutPoint (op : Nat) : Bool :=
  decide (op < 18) || (decide (24 ≤ op) && decide (op < 28)) || (decide (256 ≤ op) && decide (op ≤ 8447))

/-- The operand of a bit instruction lies inside its space, with the bits above at 0 (R86, R87, R95, R252). -/
def bitLegal (space : BitVec 4) (op : Nat) : Bool :=
  match space.toNat with
  | 0 => decide (op < 0x20000)
  | 1 => decide (op < 0x20000)
  | 2 => decide (op < 0x20000)
  | 3 => decide (op < 0x100000)
  | 4 => decide (op < 0x10000) && decide (op / 0x4000 ≠ 3)
  | 5 => decide (op < 0x4000)
  | 6 => decide (op < 0x10000)
  | 7 => decide (op < 0x200000)
  | 8 => decide (op < 0x400000)
  | 9 => decide (op < 0x40000)
  | 0xA => localInPoint op
  | 0xB => localInPoint op
  | 0xC => localOutPoint op
  | 0xF => decide (op < 8)
  | _ => false

/-- Spaces that the program can write (R86). -/
def bitWritable (space : BitVec 4) : Bool :=
  decide (space = 2) || decide (space = 3) || decide (space = 7) || decide (space = 0xC)

/-- Elapsed time of a running timer in ticks of 100 µs (R99). -/
def timerElapsed (now : Time) (t : TimerRec) : Nat := timeSince now t.start / 100000

/-- The elapsed-saturated flag: set once the reported value has reached its end, until the timer is idle (R101). -/
def timerEsat (now : Time) (t : TimerRec) : Bool := t.esat || (t.run && decide (timerElapsed now t ≥ 0xFFFFFFFF))

/-- The bit that a bit instruction addresses, as it stands before the clock (R80, R86). -/
def readBit (d : PressData) (now : Time) (space : BitVec 4) (op : Nat) : Bool :=
  match space.toNat with
  | 0 => bget d.iv op
  | 1 => bget d.ifv op
  | 2 => bget d.q op
  | 3 => bget d.m op
  | 4 =>
    let t := sget TimerRec.reset d.t (op % 0x4000)
    if op / 0x4000 = 0 then t.out else if op / 0x4000 = 1 then t.run else timerEsat now t
  | 5 =>
    let c := sget CounterRec.reset d.c (op % 0x2000)
    if op / 0x2000 = 0 then decide (c.count ≠ 0) else c.sat
  | 6 => bget d.e op
  | 7 => (sget (0 : Word) d.w (op / 32)).getLsbD (op % 32)
  | 8 => (sget (0 : BitVec 64) d.x (op / 64)).getLsbD (op % 64)
  | 9 => (sget (0 : BitVec 16) d.rs (op / 16)).getLsbD (op % 16)
  | 0xA => bget d.lv op
  | 0xB => bget d.lf op
  | 0xC => bget d.lq op
  | 0xF => d.k.getLsbD op
  | _ => false

/-- Operand bits above the low n are 0 (R95). -/
def lowOperand (n : Nat) (w : PressWord) : Bool := decide (opnd w < 2 ^ n)

/-- Target of a jump: in the segment and after the jump word (R105). -/
def jumpLegal (pc seg : Nat) (w : PressWord) : Bool := decide (pc < opnd w) && decide (opnd w < seg)

/-- Target of a call: in the segment and not the CALL word itself (R105). -/
def callLegal (pc seg : Nat) (w : PressWord) : Bool := decide (opnd w ≠ pc) && decide (opnd w < seg)

end Sys2Proof.Machine
end

