-- ==== Sys2Proof/Machine/Press.lean ====
section
/-!
DEFINITION. One word of a strand (R78 to R82, R93 to R95, R107): the clock and its writes, the checks at the fetch, faults,
the end of a strand, the logic-done mark.
-/

namespace Sys2Proof.Machine

/-- One strand. -/
def strandOf (x : Strands) (i : Fin 4) : Strand :=
  if i.val = 0 then x.s0 else if i.val = 1 then x.s1 else if i.val = 2 then x.s2 else x.s3

/-- Replace one strand. -/
def putStrand (x : Strands) (i : Fin 4) (y : Strand) : Strands :=
  if i.val = 0 then { x with s0 := y } else if i.val = 1 then { x with s1 := y }
  else if i.val = 2 then { x with s2 := y } else { x with s3 := y }

/-- Apply a function to every strand. -/
def mapStrands (f : Strand → Strand) (x : Strands) : Strands := { s0 := f x.s0, s1 := f x.s1, s2 := f x.s2, s3 := f x.s3 }

/-- The four strands as a list. -/
def strandList (x : Strands) : List Strand := [x.s0, x.s1, x.s2, x.s3]

/-- One write takes effect (R80, R442: an edge memory's first execution clears its mark). -/
def applyWrite (p : Press) : PressWrite → Press
  | .bit sp i v =>
    if sp = 2 then { p with data := { p.data with q := bput p.data.q i v } }
    else if sp = 3 then { p with data := { p.data with m := bput p.data.m i v } }
    else if sp = 7 then
      { p with data := { p.data with w := smod (0 : Word) p.data.w (i / 32) (fun x => vput x (i % 32) v) } }
    else if sp = 0xC then { p with data := { p.data with lq := bput p.data.lq i v } }
    else p
  | .word i v => { p with data := { p.data with w := sput 0 p.data.w i v } }
  | .timer i v => { p with data := { p.data with t := sput TimerRec.reset p.data.t i v } }
  | .counter i v => { p with data := { p.data with c := sput CounterRec.reset p.data.c i v } }
  | .edge i v => { p with data := { p.data with e := bput p.data.e i v }, newEdges := bclr p.newEdges i }

/-- The block of 256 bytes of the snapshot of R188 that a write lies in (R189). -/
def writeBlock : PressWrite → Nat
  | .bit sp i _ =>
    if sp = 2 then 128 + i / 2048 else if sp = 3 then 192 + i / 2048 else if sp = 7 then 2016 + i / 2048 else 3056 + i / 2048
  | .word i _ => 2016 + i / 64
  | .timer i _ => 704 + i / 16
  | .counter i _ => 1728 + i / 32
  | .edge i _ => 1984 + i / 2048

/-- The clock ends: its writes become visible, a higher-numbered strand's write over a lower one's (R80). -/
def commitWrites (p : Press) : Press :=
  let ws := [0, 1, 2, 3].flatMap (fun i => (p.writes.filter (fun e => decide (e.1 = i))).map Prod.snd)
  { ws.foldl applyWrite p with writes := [], wrote := ws.foldl (fun b w => bset b (writeBlock w)) p.wrote }

/-- The next clock opens (R78, R80). -/
def nextClock (p : Press) : Press :=
  let p1 := commitWrites p
  { p1 with clock := p1.clock + 1, strands := mapStrands (fun x => { x with ran := false }) p1.strands }

/-- Length of a strand's segment in the active vintage (R79, R112). -/
def segLen (L : LaneState) (i : Fin 4) : Nat :=
  match L.bank.active with
  | some v => (lget [] v.code i.val).length
  | none => 0

/-- PRS_SAT_COUNT (R117). -/
def satCountOf (now : Time) (d : PressData) : Word :=
  pack [(0, (d.c.filter (fun e => e.2.sat)).length), (16, (d.t.filter (fun e => timerEsat now e.2)).length)]

/-- Offset of an instant in clocks of 2.5 ns after END_INPUT, in µs after the tick (R76). -/
def clockOffset (L : LaneState) (clocks : Nat) : Nat :=
  match L.bank.active with
  | some v => v.endInput + clocks * 5 / 2000
  | none => 0

/-- The logic-done mark has reached its Sluice by END_LOGIC: 2.5 ns a clock from END_INPUT (R66, R78). -/
def doneInTime (v : Vintage) (p : Press) : Bool :=
  match p.done with
  | some n => decide (n * 5 ≤ 2000 * (v.endLogic - v.endInput))
  | none => false

/-- Lanes that show PRS_SAT from a lane's count: the lane itself, and with the reference lane those that run without computing, so that the
source is of Module scope (R364). -/
def satLanes (s : State) (l : Lane) : List Lane :=
  Lane.list.filter (fun m => decide (m = l) || (decide (l = refLane s) && !computes s m))

/-- The logic-done mark (R79, R117): set in the clock after the last END. -/
def logicDone (s : State) (l : Lane) : State :=
  let L := lane s l
  let p := commitWrites L.press
  let s1 := modLane s l (fun L => { L with
    press := { p with done := some (p.clock + 1), satCount := satCountOf s.mod.tickTime p.data } })
  foldS (satLanes s l) (fun s m => eicLevel s m 21 (decide (satCountOf s.mod.tickTime p.data ≠ 0))) s1

/-- KIND of PRS_FAULT (R116). -/
def faultCode : PressFault → Nat
  | .none => 0 | .stackOverflow => 1 | .stackUnderflow => 2 | .entryMismatch => 3 | .unbalancedEnd => 4
  | .strandMismatch => 5 | .illegalWord => 6

/-- Kinds 1 to 4 isolate with cause STACK, 5 and 6 with cause MEMORY (R94, R95, R107, R116). -/
def faultCause : PressFault → IsoCause
  | .strandMismatch => .memory
  | .illegalWord => .memory
  | _ => .stack

/-- PRS_FAULT (R116). -/
def faultWord (p : Press) : Word :=
  pack [(0, faultCode p.faultKind), (4, p.faultStrand.toNat), (16, p.faultCycle.toNat)]

/-- A Press fault: the Press of the lane stops at once and the lane is isolated (R94, R95, R107, R116). -/
def pressFault (s : State) (l : Lane) (i : Fin 4) (k : PressFault) (addr : Nat) : State :=
  let s1 := modLane s l (fun L => { L with press := { stopPress L.press with
    halted := true, faultKind := k, faultStrand := BitVec.ofNat 2 i.val, faultCycle := cycle16 s
    faultAddr := BitVec.ofNat 22 addr } })
  let p := (lane s1 l).press
  let s2 := eventLane s1 l 20 0x0200 (le 4 (faultWord p).toNat ++ le 4 p.faultAddr.toNat)
  isolate s2 l (faultCause k)

/-- What a word does. -/
inductive PressResult where
  | ok (st : Strand) (ws : List PressWrite)
  | call (st : Strand) (k : QKind) (item cmd : Nat)
  | fault (k : PressFault)
deriving DecidableEq, Repr

/-- Entries already placed for the next cycle when a Press call executes (R131). -/
def placedNext (L : LaneState) : Nat :=
  let rm := match L.bank.active with | some v => reqMax v | none => 0
  (L.raa.length - rm) + L.press.issued.length

/-- Put a Press request behind those of its clock and of lower strands (R109). -/
def issueInsert (e : QEntry) : List QEntry → List QEntry
  | [] => [e]
  | x :: r =>
    match e.src, x.src with
    | .press _ c i, .press _ d j =>
      if d < c ∨ (d = c ∧ j.val ≤ i.val) then x :: issueInsert e r else e :: x :: r
    | _, _ => x :: issueInsert e r

/-- Every strand has ended (R79). -/
def allEnded (x : Strands) : Bool := (strandList x).all (fun y => y.ended)

/-- Put the outcome of a word into the lane. -/
def pressPut (s : State) (w : PressWord) (p : Press) (r : PressResult) : State :=
  match r with
  | .fault k => pressFault s w.lane w.strand k (strandOf p.strands w.strand).pc
  | .ok st ws =>
    let p1 := { p with strands := putStrand p.strands w.strand { st with ran := true }
                       writes := p.writes ++ ws.map (fun x => (w.strand.val, x)) }
    let s1 := modLane s w.lane (fun L => { L with press := p1 })
    if st.ended && allEnded p1.strands then logicDone s1 w.lane else s1
  | .call st k item cmd =>
    let e : QEntry := { kind := k, item := item, cmd := cmd, src := .press s.mod.cycle p.clock w.strand }
    let room := decide (placedNext (lane s w.lane) < 3072)
    let p1 := { p with
      strands := putStrand p.strands w.strand { st with cog := room, ran := true }
      issued := if room then issueInsert e p.issued else p.issued
      entered := if room then satInc p.entered else p.entered
      dropped := if room then p.dropped else satInc p.dropped }
    modLane s w.lane (fun L => { L with press := p1 })

/-- One word of a strand. It acts while the strand executes; a second word of a strand opens the next clock; the checks are
those of R94 and R95 in their order, an OPCODE that no table lists among them; closing says that the word is END or RET; legal judges its operand from the strand's
program counter and segment length. -/
def runWord (s : State) (w : PressWord) (closing : Bool) (legal : Nat → Nat → Bool)
    (body : State → LaneState → Strand → PressResult) : State :=
  let L := lane s w.lane
  let x0 := strandOf L.press.strands w.strand
  if L.press.active && x0.running && x0.waiting.isNone then
    let p := if x0.ran then nextClock L.press else L.press
    let x := strandOf p.strands w.strand
    let n := segLen L w.strand
    let s1 := modLane s w.lane (fun L => { L with press := p })
    if x.pc ≥ n then pressFault s1 w.lane w.strand .illegalWord x.pc
    else if w.field.toNat ≠ w.strand.val then pressFault s1 w.lane w.strand .strandMismatch x.pc
    else if !opListed w.opcode || !legal x.pc n || (decide (x.pc + 1 = n) && !closing) then pressFault s1 w.lane w.strand .illegalWord x.pc
    else pressPut s1 w p (body s1 (lane s1 w.lane) x)
  else s

/-- The strand goes on with the next word. -/
def step1 (x : Strand) : Strand := { x with pc := x.pc + 1 }

/-- PRS_STACK_PEAK (R114): reading returns the deepest stack of each strand since the last read and clears it. -/
def execPrsStackPeak (a : RegAccess) (s : State) : Host.Outcome State Fault Refusal :=
  .next (if reaches s a then
      let x := (lane s a.lane).press.strands
      answer (modLane s a.lane (fun L => { L with press := { L.press with
          strands := mapStrands (fun y => { y with peak := 0 }) L.press.strands } }))
        (pack [(0, x.s0.peak.toNat), (8, x.s1.peak.toNat), (16, x.s2.peak.toNat), (24, x.s3.peak.toNat)])
    else noAnswer s)

/-- LANE_LOGIC_PEAK (R76): reading returns the largest logic-done offset since the last read and clears it. -/
def execLaneLogicPeak (a : RegAccess) (s : State) : Host.Outcome State Fault Refusal :=
  .next (if reaches s a then
      answer (modLane s a.lane (fun L => { L with logicPeak := 0 })) (BitVec.ofNat 32 ((lane s a.lane).logicPeak % 2 ^ 18))
    else noAnswer s)

end Sys2Proof.Machine
end

