-- ==== Sys2Proof/Machine/Raa.lean ====
section
/-!
DEFINITION. The Route Admission Array (R118 to R152) as functions on its tables, element states and lock entries: element
update, terms, decisions, re-proof, release, forces, the published views.
-/

namespace Sys2Proof.Machine

/-- A descriptor that is not defined (R119). -/
def noDesc : ElemDesc :=
  { kind := .undefined, flags := 0, guard := 0xFFFF, inA := 0, inB := 0, moveTimeout := 0, aspectOut := [], check := 0 }

/-- Descriptor of element e (R119). -/
def descOf (v : Vintage) (e : Nat) : ElemDesc := sget noDesc v.elements e

/-- State of element e (R125). -/
def elemOf (r : Raa) (e : Nat) : ElemState := sget ElemState.reset r.elems e

/-- Change the state of element e. -/
def modElem (r : Raa) (e : Nat) (f : ElemState → ElemState) : Raa :=
  { r with elems := smod ElemState.reset r.elems e f }

/-- POINT, GATE and TRANSFER: the kinds that move (R119). -/
def movable (k : ElemKind) : Bool :=
  match k with | .point => true | .gate => true | .transfer => true | _ => false

/-! ### References (R120) -/

/-- A reference is present. -/
def refPresent (w : Word) : Bool := w.getLsbD 31
/-- The value and the valid bit that an input reference reads. -/
def refRead (d : PressData) (w : Word) : Bool × Bool :=
  let a := field w 16 0
  if w.getLsbD 17 then (bget d.lv a, bget d.lf a) else (bget d.iv a, bget d.ifv a)
/-- The input reads as active: its value equals ACTIVE. -/
def refActive (d : PressData) (w : Word) : Bool := decide ((refRead d w).1 = w.getLsbD 18)
/-- The input's valid bit. -/
def refValid (d : PressData) (w : Word) : Bool := (refRead d w).2

/-! ### Element update (R124, R125) -/

/-- VALID, CLEAR and DETECTED of an element from the input image (R124). -/
def elemInputs (k : ElemDesc) (d : PressData) : Bool × Bool × BitVec 2 :=
  match k.kind with
  | .undefined => (false, false, 0)
  | .track => (refValid d k.inA, refValid d k.inA && refActive d k.inA, 0)
  | .signal =>
    if refPresent k.inA then (refValid d k.inA, false, if refActive d k.inA then 1 else 2) else (true, false, 0)
  | .virt => (true, false, 0)
  | _ =>
    let ok := refValid d k.inA && refValid d k.inB
    let a := refActive d k.inA
    let b := refActive d k.inB
    (ok, false, if ok then (if a && b then 3 else if a then 1 else if b then 2 else 0) else 0)

/-- The first update after BOOT gives the start values (R125). -/
def elemStart (k : ElemDesc) (det : BitVec 2) (now : Time) (x : ElemState) : ElemState :=
  if x.seen then x
  else { x with
    seen := true
    commanded := if movable k.kind && (decide (det = 1) || decide (det = 2)) then det else 0
    blocked := k.flags.getLsbD 1, virt := k.flags.getLsbD 2, changeTime := now }

/-- A commanded element has missed its MOVE_TIMEOUT (R124): units of 100 ms. -/
def moveLate (k : ElemDesc) (now : Time) (x : ElemState) : Bool :=
  movable k.kind && decide (x.commanded ≠ 0) && decide (x.detected ≠ x.commanded) &&
  decide (timeSince now x.changeTime ≥ k.moveTimeout.toNat * 100000000)

/-- MOVING follows DETECTED, COMMANDED and MOVE_FAULT (R124). -/
def elemMoving (x : ElemState) : ElemState :=
  { x with moving := decide (x.detected ≠ x.commanded) && decide (x.commanded ≠ 0) && !x.moveFault }

/-- The update of one element (R124). -/
def elemUpdate (k : ElemDesc) (d : PressData) (now : Time) (x0 : ElemState) : ElemState :=
  let (valid, clear, det) := elemInputs k d
  let x1 := elemStart k det now x0
  let x2 := { x1 with valid := valid, clear := clear, detected := det }
  let occ := x2.occSeen || (decide (k.kind = .track) && (x2.pathHeld || x2.overlapHeld) && valid && !clear)
  let x3 := { x2 with occSeen := occ, moveFault := x2.moveFault || moveLate k now x2 }
  elemMoving x3

/-- The whole pass over the defined elements (R124). -/
def updateElems (v : Vintage) (d : PressData) (now : Time) (r : Raa) : Raa :=
  v.elements.foldl (fun r e => if e.2.kind = .undefined then r else modElem r e.1 (elemUpdate e.2 d now)) r

/-- Bits [63:0] of an element state (R125). -/
def elemWord (x : ElemState) : BitVec 64 :=
  BitVec.ofNat 64 (bit x.valid + 2 * bit x.clear + 4 * x.detected.toNat + 0x10 * x.commanded.toNat + 0x40 * bit x.moving +
    0x80 * bit x.moveFault + 0x100 * bit x.blocked + 0x200 * bit x.pathHeld + 0x400 * bit x.overlapHeld +
    0x800 * bit x.startHeld + 0x1000 * bit x.occSeen + 0x2000 * bit x.virt + 0x10000 * x.owner.toNat +
    2 ^ 32 * x.flankCount.toNat + 2 ^ 40 * x.flankPos.toNat)

/-! ### Records and terms (R121, R122) -/

/-- ELEMENT of a term. -/
def tElem (t : Word) : Nat := field t 15 0
/-- REQ of a term. -/
def tReq (t : Word) : BitVec 2 := BitVec.ofNat 2 (field t 17 16)
/-- GROUP of a term. -/
def tGroup (t : Word) : Nat := field t 23 20
/-- TYPE of a term (R127). -/
def tType (t : Word) : Nat := field t 27 24

/-- The record of route r, if it is DEFINED (R121): its terms end before the first term of type END (R127). -/
def routeOf (v : Vintage) (r : Nat) : Option RouteRec :=
  match sfind v.routes r with
  | some x => if x.flags.getLsbD 0 then some { x with terms := x.terms.takeWhile (fun t => decide (tType t ≠ 0)) } else none
  | none => none

/-- Number of groups of a route. -/
def groupsOf (x : RouteRec) : Nat := x.pathGroups + x.overlapGroups

/-- The section term's element of group g: PATH_SECTION or OVERLAP_SECTION (R123). -/
def sectionOf (x : RouteRec) (g : Nat) : Option Nat :=
  (x.terms.find? (fun t => decide (tGroup t = g) && (decide (tType t = 2) || decide (tType t = 4)))).map tElem

/-- Route r is held: it has a lock entry (R126). -/
def held (r : Raa) (n : Nat) : Bool := (sfind r.locks n).isSome

/-- The lock entry of a held route. -/
def lockOf (r : Raa) (n : Nat) : Lock := match sfind r.locks n with | some l => l | none => Lock.none

/-- Put the lock entry of a held route; an entry of a held route is listed whatever it holds. -/
def putLock (r : Raa) (n : Nat) (l : Lock) : Raa := { r with locks := sputAny r.locks n l }

/-- A group has been released (R145). -/
def groupReleased (l : Lock) (g : Nat) : Bool := l.released.getLsbD g

/-! ### Admission (R127, R128); a refusal is a status code of R139 -/

/-- The guard rule: MOVE_NEEDS_CLEAR with a guard section that reads CLEAR = 0 or VALID = 0. -/
def guardBars (r : Raa) (k : ElemDesc) : Bool :=
  k.flags.getLsbD 0 && (let g := elemOf r k.guard.toNat; !g.clear || !g.valid)

/-- Admission of PATH_ELEMENT and OVERLAP_ELEMENT. -/
def admitElement (v : Vintage) (r : Raa) (e : Nat) (req : BitVec 2) : Option Nat :=
  let x := elemOf r e
  if !x.valid || x.moveFault then some 0x15
  else if x.blocked then some 0x14
  else if x.pathHeld then some 0x10
  else if x.overlapHeld then some 0x11
  else if x.flankCount.toNat > 0 ∧ x.flankPos ≠ req then some 0x12
  else if x.commanded ≠ req ∧ guardBars r (descOf v e) = true then some 0x13
  else none

/-- Admission of PATH_SECTION and OVERLAP_SECTION. -/
def admitSection (r : Raa) (e : Nat) : Option Nat :=
  let x := elemOf r e
  if !x.valid then some 0x15
  else if x.blocked then some 0x14
  else if x.pathHeld then some 0x10
  else if x.overlapHeld then some 0x11
  else if !x.clear then some 0x13
  else none

/-- Admission of FLANK; earlier counts the FLANK terms of the same record on this element before it, which locking adds first (R125: a
term that would raise FLANK_COUNT above 255 is refused). -/
def admitFlank (v : Vintage) (r : Raa) (e : Nat) (req : BitVec 2) (earlier : Nat) : Option Nat :=
  let x := elemOf r e
  let k := descOf v e
  let free := movable k.kind && !x.pathHeld && !x.overlapHeld && decide (x.commanded ≠ req)
  if !x.valid || x.moveFault then some 0x15
  else if x.startHeld || ((x.pathHeld || x.overlapHeld) && decide (x.commanded ≠ req)) then some 0x10
  else if x.flankCount.toNat > 0 ∧ x.flankPos ≠ req then some 0x12
  else if free && x.blocked then some 0x14
  else if free && guardBars r k then some 0x13
  else if x.flankCount.toNat + earlier ≥ 255 then some 0x19
  else none

/-- Admission of one term (R127), behind the terms done; none: admitted. -/
def admitTerm (v : Vintage) (r : Raa) (done : List Word) (t : Word) : Option Nat :=
  match tType t with
  | 1 => admitElement v r (tElem t) (tReq t)
  | 2 => admitSection r (tElem t)
  | 3 => admitElement v r (tElem t) (tReq t)
  | 4 => admitSection r (tElem t)
  | 5 => admitFlank v r (tElem t) (tReq t) (done.filter (fun x => decide (tType x = 5) && decide (tElem x = tElem t))).length
  | 6 => if held r (tElem t) then some 0x17 else none
  | 7 =>
    let x := elemOf r (tElem t)
    if !x.valid then some 0x15 else if !x.clear then some 0x13 else none
  | 8 => if (elemOf r (tElem t)).virt = decide (tReq t = 1) then none else some 0x16
  | _ => none

/-- Admission of the start signal (R128). -/
def admitStart (r : Raa) (x : RouteRec) : Option Nat :=
  if x.startSignal = 0xFFFF then none
  else
    let e := elemOf r x.startSignal.toNat
    if !e.valid then some 0x15 else if e.startHeld then some 0x10 else if e.flankCount.toNat > 0 then some 0x12 else none

/-- The first term behind the terms done that refuses: its status and index. -/
def admitTerms (v : Vintage) (r : Raa) : List Word → List Word → Option (Nat × Nat)
  | _, [] => none
  | done, t :: ts => match admitTerm v r done t with
    | some st => some (st, done.length)
    | none => admitTerms v r (done ++ [t]) ts

/-! ### Locking (R127, R128) -/

/-- Call an element to a position (R127, R137). MOVING follows in the next element update (R124). -/
def callTo (x : ElemState) (req : BitVec 2) (now : Time) : ElemState :=
  if x.commanded ≠ req then { x with commanded := req, changeTime := now } else x

/-- What locking does for one term of route n (R127); its admission keeps FLANK_COUNT from passing 255 (R11, R125). -/
def lockTerm (v : Vintage) (n : Nat) (now : Time) (r : Raa) (t : Word) : Raa :=
  match tType t with
  | 1 => modElem r (tElem t) (fun x => callTo { x with pathHeld := true, owner := BitVec.ofNat 14 n } (tReq t) now)
  | 2 => modElem r (tElem t) (fun x => { x with pathHeld := true, owner := BitVec.ofNat 14 n, occSeen := false })
  | 3 => modElem r (tElem t) (fun x => callTo { x with overlapHeld := true, owner := BitVec.ofNat 14 n } (tReq t) now)
  | 4 => modElem r (tElem t) (fun x => { x with overlapHeld := true, owner := BitVec.ofNat 14 n, occSeen := false })
  | 5 => modElem r (tElem t) (fun x =>
      let y := { x with flankCount := x.flankCount + 1, flankPos := tReq t }
      if movable (descOf v (tElem t)).kind && !x.pathHeld && !x.overlapHeld then callTo y (tReq t) now else y)
  | _ => r

/-- Lock the start signal (R128). -/
def lockStart (n : Nat) (r : Raa) (x : RouteRec) : Raa :=
  if x.startSignal = 0xFFFF then r
  else modElem r x.startSignal.toNat (fun e => { e with startHeld := true, owner := BitVec.ofNat 14 n })

/-! ### Proof (R127, R128) -/

/-- The position a proof tests: DETECTED, or COMMANDED while the route is SETTING. -/
def proofPos (x : ElemState) (setting : Bool) : BitVec 2 := if setting then x.commanded else x.detected

/-- Proof of one term of route n. -/
def proveTerm (v : Vintage) (r : Raa) (n : Nat) (setting : Bool) (t : Word) : Bool :=
  let x := elemOf r (tElem t)
  let mine := decide (x.owner.toNat = n)
  match tType t with
  | 1 => x.pathHeld && mine && x.valid && decide (proofPos x setting = tReq t)
  | 2 => x.pathHeld && mine && x.valid
  | 3 => x.overlapHeld && mine && x.valid && decide (proofPos x setting = tReq t)
  | 4 => x.overlapHeld && mine && x.valid
  | 5 =>
    let k := descOf v (tElem t)
    let pos := if movable k.kind then decide (proofPos x setting = tReq t)
      else if setting then true
      else !refPresent k.inA || decide (x.detected = tReq t)
    decide (x.flankCount.toNat > 0) && decide (x.flankPos = tReq t) && x.valid && pos
  | 6 => !held r (tElem t)
  | 8 => bget r.virtSnap (tElem t) == decide (tReq t = 1)
  | _ => true

/-- Proof of the start signal, until group 0 has released (R128). -/
def proveStart (r : Raa) (n : Nat) (x : RouteRec) (l : Lock) : Bool :=
  if decide (x.startSignal = 0xFFFF) || groupReleased l 0 then true
  else
    let e := elemOf r x.startSignal.toNat
    e.startHeld && decide (e.owner.toNat = n)

/-- The first failing term from index i of the groups not released (R141). -/
def proveTerms (v : Vintage) (r : Raa) (n : Nat) (setting : Bool) (l : Lock) : Nat → List Word → Option Nat
  | _, [] => none
  | i, t :: ts =>
    if groupReleased l (tGroup t) || proveTerm v r n setting t then proveTerms v r n setting l (i + 1) ts else some i

/-- The first failure of a held route: 0x7E the start signal, else a term index (R140, R142). -/
def firstFail (v : Vintage) (r : Raa) (n : Nat) (x : RouteRec) (l : Lock) (setting : Bool) : Option Nat :=
  if !proveStart r n x l then some 0x7E else proveTerms v r n setting l 0 x.terms

/-! ### Release (R145) -/

/-- What release of one term's lock does. -/
def releaseTerm (r : Raa) (t : Word) : Raa :=
  match tType t with
  | 1 => modElem r (tElem t) (fun x => { x with pathHeld := false, owner := 0, occSeen := false })
  | 2 => modElem r (tElem t) (fun x => { x with pathHeld := false, owner := 0, occSeen := false })
  | 3 => modElem r (tElem t) (fun x => { x with overlapHeld := false, owner := 0, occSeen := false })
  | 4 => modElem r (tElem t) (fun x => { x with overlapHeld := false, owner := 0, occSeen := false })
  | 5 => modElem r (tElem t) (fun x =>
      { x with flankCount := x.flankCount - 1, flankPos := if x.flankCount.toNat ≤ 1 then 0 else x.flankPos })
  | _ => r

/-- Release of the groups of a mask that are not released yet; group 0 frees the start signal; with the last group the
route is free. -/
def releaseGroups (r : Raa) (n : Nat) (x : RouteRec) (mask : BitVec 16) : Raa :=
  if !held r n then r
  else
    let l := lockOf r n
    let go := mask &&& ~~~ l.released
    let r1 := x.terms.foldl (fun r t => if go.getLsbD (tGroup t) then releaseTerm r t else r) r
    let r2 := if go.getLsbD 0 && decide (x.startSignal ≠ 0xFFFF) then
        modElem r1 x.startSignal.toNat (fun e => { e with startHeld := false })
      else r1
    let released := l.released ||| go
    if (List.range (groupsOf x)).all (fun g => released.getLsbD g) then { r2 with locks := sdel r2.locks n }
    else putLock r2 n { l with released := released }

/-- Every group. -/
def allGroups : BitVec 16 := 0xFFFF

/-! ### Decisions (R134 to R139); the answer: status, term index, item -/

/-- The count of held routes. -/
def heldCount (r : Raa) : Nat := r.locks.length

/-- Route n with its start signal and every term locked, and its lock entry created (R134). -/
def lockRoute (v : Vintage) (now : Time) (r : Raa) (n : Nat) (x : RouteRec) : Raa :=
  putLock (x.terms.foldl (lockTerm v n now) (lockStart n r x)) n { Lock.none with time := now }

/-- RREQ (R134). -/
def decideRreq (v : Vintage) (now : Time) (r : Raa) (n : Nat) : Raa × Nat × Nat :=
  match routeOf v n with
  | none => (r, 0x1A, 0x7F)
  | some x =>
    if held r n then (r, 0x06, 0x7F)
    else if heldCount r ≥ lockedMax v then (r, 0x19, 0x7F)
    else match admitStart r x with
      | some st => (r, st, 0x7E)
      | none => match admitTerms v r [] x.terms with
        | some (st, t) => (r, st, t)
        | none =>
          let r1 := lockRoute v now r n x
          let ok := (firstFail v r1 n x Lock.none false).isNone
          (putLock r1 n { Lock.none with time := now, everLocked := ok, locked := ok, setting := !ok },
            if ok then 0x01 else 0x02, 0x7F)

/-- A path section of a group still held has OCC_SEEN = 1 (R126 ENTERED, R136). -/
def enteredNow (r : Raa) (x : RouteRec) (l : Lock) : Bool :=
  x.terms.any (fun t => decide (tType t = 2) && !groupReleased l (tGroup t) && (elemOf r (tElem t)).occSeen)

/-- The release of an RCAN is immediate (R136). -/
def cancelAtOnce (r : Raa) (x : RouteRec) (l : Lock) : Bool :=
  let a := elemOf r x.approach.toNat
  !enteredNow r x l && (decide (x.approach = 0xFFFF) || (a.clear && a.valid) || !l.everLocked)

/-- ENTERED is 1 once a path section of the route has OCC_SEEN = 1, also where an RCAN ends the route's re-proof of the cycle (R126, R143). -/
def noteEntered (r : Raa) (n : Nat) (x : RouteRec) : Raa :=
  putLock r n { lockOf r n with entered := (lockOf r n).entered || enteredNow r x (lockOf r n) }

/-- RCAN (R136). -/
def decideRcan (v : Vintage) (now : Time) (r : Raa) (n : Nat) : Raa × Nat × Nat :=
  match routeOf v n with
  | none => (r, 0x1A, 0x7F)
  | some x =>
    if !held r n then (r, 0x07, 0x7F)
    else
      let l := lockOf r n
      if l.cancel.isSome then (noteEntered r n x, 0x04, 0x7F)
      else if cancelAtOnce r x l then
        ({ releaseGroups r n x allGroups with releases := r.releases.filter (fun e => decide (e.1 ≠ n)) }, 0x03, 0x7F)
      else (noteEntered (putLock r n { l with cancel := some now, locked := false }) n x, 0x04, 0x7F)

/-- CALL_A and CALL_B (R137, R138). -/
def decideCall (v : Vintage) (now : Time) (r : Raa) (e : Nat) (target : BitVec 2) : Raa × Nat :=
  let k := descOf v e
  let x := elemOf r e
  if k.kind = .undefined then (r, 0x1A)
  else if !movable k.kind then (r, 0x1B)
  else if !x.valid then (r, 0x15)
  else if x.commanded = target then (r, 0x05)
  else if x.pathHeld || x.overlapHeld then (r, 0x18)
  else if x.flankCount.toNat > 0 ∧ x.flankPos ≠ target then (r, 0x18)
  else if x.blocked then (r, 0x14)
  else if guardBars r k then (r, 0x13)
  else (modElem r e (fun y => { y with commanded := target, changeTime := now, moveFault := false }), 0x05)

/-- BLOCK and UNBLOCK (R137, R138). -/
def decideBlock (v : Vintage) (r : Raa) (e : Nat) (on : Bool) : Raa × Nat :=
  match (descOf v e).kind with
  | .undefined => (r, 0x1A)
  | .virt => (r, 0x1B)
  | _ => (modElem r e (fun y => { y with blocked := on }), 0x05)

/-- VIRTUAL_SET and VIRTUAL_CLEAR (R137, R138). -/
def decideVirtual (v : Vintage) (r : Raa) (e : Nat) (on : Bool) : Raa × Nat :=
  match (descOf v e).kind with
  | .undefined => (r, 0x1A)
  | .virt => (modElem r e (fun y => { y with virt := on }), 0x05)
  | _ => (r, 0x1B)

/-- RESET_FAULT (R137, R138). -/
def decideResetFault (v : Vintage) (r : Raa) (e : Nat) : Raa × Nat :=
  let k := descOf v e
  let x := elemOf r e
  if k.kind = .undefined then (r, 0x1A)
  else if !movable k.kind then (r, 0x1B)
  else if x.detected ≠ x.commanded then (r, 0x15)
  else (modElem r e (fun y => { y with moveFault := false }), 0x05)

/-- An element command by its code (R137). -/
def decideEcmd (v : Vintage) (now : Time) (r : Raa) (e cmd : Nat) : Raa × Nat :=
  match cmd with
  | 0 => decideCall v now r e 1
  | 1 => decideCall v now r e 2
  | 2 => decideBlock v r e true
  | 3 => decideBlock v r e false
  | 4 => decideVirtual v r e true
  | 5 => decideVirtual v r e false
  | _ => decideResetFault v r e

/-! ### Re-proof and release by passage (R141 to R149) -/

/-- Time in ns of a field in units of 100 ms. -/
def ms100 (x : BitVec 16) : Nat := x.toNat * 100000000

/-- A section reads clear and valid. -/
def readsClear (r : Raa) (e : Nat) : Bool := (elemOf r e).clear && (elemOf r e).valid
/-- A section reads occupied and valid. -/
def readsOccupied (r : Raa) (e : Nat) : Bool := !(elemOf r e).clear && (elemOf r e).valid

/-- The successor of group g reads occupied, or there is none (R146). -/
def successorOk (r : Raa) (x : RouteRec) (g : Nat) : Bool :=
  if g + 1 < groupsOf x then (match sectionOf x (g + 1) with | some e => readsOccupied r e | none => false)
  else decide (x.exit = 0xFFFF) || readsOccupied r x.exit.toNat

/-- The first group not released, in the order of travel (R146). -/
def nextGroup (x : RouteRec) (l : Lock) : Option Nat := (List.range (groupsOf x)).find? (fun g => !groupReleased l g)

/-- The group that passage releases in this pass (R146). -/
def passageGroup (r : Raa) (x : RouteRec) (l : Lock) : Option Nat :=
  match nextGroup x l with
  | none => none
  | some g => match sectionOf x g with
    | none => none
    | some e => if (elemOf r e).occSeen && readsClear r e && successorOk r x g then some g else none

/-- Mask of the overlap groups of a route. -/
def overlapMask (x : RouteRec) : BitVec 16 :=
  bitsFrom 16 (fun g => decide (x.pathGroups ≤ g) && decide (g < groupsOf x))

/-- The conditions of R147 but for the time. -/
def overlapReady (r : Raa) (x : RouteRec) (l : Lock) : Bool :=
  decide (x.overlapTime ≠ 0) && decide (x.overlapGroups ≠ 0) && (List.range (x.pathGroups - 1)).all (fun g => groupReleased l g) &&
  !groupReleased l (x.pathGroups - 1) &&
  x.terms.all (fun t => decide (tType t ≠ 4) || groupReleased l (tGroup t) || !(elemOf r (tElem t)).occSeen) &&
  (match sectionOf x (x.pathGroups - 1) with | some e => readsOccupied r e | none => false)

/-- The overlap timer of a route: it starts when the other conditions hold and stops when one fails (R147). -/
def overlapTimer (r : Raa) (x : RouteRec) (now : Time) (l : Lock) : Option Time :=
  if overlapReady r x l then (match l.ovl with | some t => some t | none => some now) else none

/-- The overlap timer has reached OVERLAP_TIME. -/
def overlapDue (x : RouteRec) (now : Time) (l : Lock) : Bool :=
  match l.ovl with
  | some t => decide (timeSince now t ≥ ms100 x.overlapTime)
  | none => false

/-- A timed cancel may release the remaining route (R149). -/
def cancelDue (r : Raa) (x : RouteRec) (now : Time) (l : Lock) : Bool :=
  match l.cancel with
  | none => false
  | some t =>
    decide (timeSince now t ≥ ms100 x.approachTime) &&
    x.terms.all (fun t => !(decide (tType t = 2) || decide (tType t = 4)) || groupReleased l (tGroup t) ||
      readsClear r (tElem t))

/-- SETTING has lasted SETTING_TIME (R135). -/
def settingLate (x : RouteRec) (now : Time) (l : Lock) : Bool :=
  l.setting && !l.setTimeout && decide (x.settingTime ≠ 0) && decide (timeSince now l.time ≥ ms100 x.settingTime)

/-- The lock entry after the proof of a pass (R126, R135, R142), and the first term that failed. -/
def proveLock (v : Vintage) (r : Raa) (n : Nat) (x : RouteRec) (l : Lock) : Lock × Option Nat :=
  let bad := firstFail v r n x l l.setting
  let full := (firstFail v r n x l false).isNone
  let failed := l.proofFailed || bad.isSome
  let entered := l.entered || enteredNow r x l
  let setting := l.setting && !full
  let locked := full && !setting && !failed && !entered && l.cancel.isNone
  ({ l with proofFailed := failed, entered := entered, setting := setting, locked := locked
            everLocked := l.everLocked || locked }, bad)

/-- What the pass finds for one route: the lane's RAA, a failure, whether the failure raises the event, a setting timeout. -/
structure PassResult where
  raa : Raa
  fail : Option Nat
  news : Bool
  timedOut : Bool
deriving DecidableEq, Repr

/-- The pass over one held route: proof, setting limit, and the releases it finds, which take effect at the end of the RAA
work (R141, R148). A failure while PROOF_FAILED was 1 already raises no further event (R142). -/
def passRoute (v : Vintage) (now : Time) (r : Raa) (n : Nat) : PassResult :=
  match routeOf v n with
  | none => { raa := r, fail := none, news := false, timedOut := false }
  | some x =>
    if !held r n then { raa := r, fail := none, news := false, timedOut := false }
    else
      let l0 := lockOf r n
      let (l1, fail) := proveLock v r n x l0
      let late := settingLate x now l1
      let l2 := { l1 with setTimeout := l1.setTimeout || late, ovl := overlapTimer r x now l1 }
      let all := cancelDue r x now l2
      let mask : BitVec 16 :=
        if all then allGroups
        else (match passageGroup r x l2 with | some g => BitVec.ofNat 16 (2 ^ g) | none => 0) |||
          (if overlapDue x now l2 then overlapMask x else 0)
      let r1 := putLock r n l2
      { raa := { r1 with
          releases := if mask = 0 then r1.releases else r1.releases ++ [(n, mask)]
          failedAspects := if fail.isSome then r1.failedAspects ++ x.aspect else r1.failedAspects }
        fail := fail, news := fail.isSome && !l0.proofFailed, timedOut := late }

/-- Release what the pass found (R148). -/
def commitReleases (v : Vintage) (r : Raa) : Raa :=
  let r1 := r.releases.foldl (fun r e => match routeOf v e.1 with
    | some x => releaseGroups r e.1 x e.2
    | none => r) r
  { r1 with releases := [] }

/-! ### Forces and views (R126, R144) -/

/-- Output references forced to their restrictive values at the close of the image (R144). -/
def forcedRefs (v : Vintage) (r : Raa) : List Word :=
  (r.locks.flatMap (fun e => if e.2.locked then [] else match routeOf v e.1 with | some x => x.aspect | none => [])) ++
  (r.elems.flatMap (fun e =>
    let k := descOf v e.1
    if decide (k.kind = .signal) && decide (e.2.flankCount.toNat > 0) then k.aspectOut else [])) ++
  r.failedAspects

/-- Apply the forces to the image's Q and LQ (R90, R120, R144). -/
def applyForces (refs : List Word) (q lq : BitSpace) : BitSpace × BitSpace :=
  refs.foldl (fun (p : BitSpace × BitSpace) w =>
    if !refPresent w then p
    else if w.getLsbD 17 then (p.1, bput p.2 (field w 16 0) (w.getLsbD 18))
    else (bput p.1 (field w 16 0) (w.getLsbD 18), p.2)) (q, lq)

/-- An RREQ or RCAN for the route is held over (R126). -/
def queuedRoute (q : List QEntry) (n : Nat) : Bool := q.any (fun e => decide (e.kind ≠ .ecmd) && decide (e.item = n))

/-- The RAA as the status words see it while decisions run: the entries that no slot of this cycle reaches are the ones held
over (R126, R132). -/
def heldOverView (v : Vintage) (r : Raa) : Raa := { r with queue := r.queue.drop (reqMax v - r.decided) }

/-- The route status word (R126); the queue holds the entries held over. -/
def statusWord (r : Raa) (n : Nat) : BitVec 16 :=
  let h := held r n
  let l := lockOf r n
  BitVec.ofNat 16 (bit (h && l.locked) + 2 * bit h + 4 * bit (h && l.setting) + 8 * bit (h && l.proofFailed) +
    16 * bit (h && l.cancel.isSome) + 32 * bit (queuedRoute r.queue n) + 64 * bit (h && l.setTimeout) +
    128 * bit (h && l.entered) + 256 * (sget (0 : BitVec 8) r.lastStatus n).toNat)

/-- END_INPUT of cycle c: the I values become those of c, and the L values and LQ of the cycle before are kept for the host (R314). -/
def openViews (c : Word) (L : LaneState) : LaneState :=
  let d := L.press.data
  { L with press := { L.press with data := { d with views := { d.views with inputs := c, kept := some (d.lv, d.lf, d.lq) } } } }

/-- END_LOGIC of cycle c: the X and RS views become those of c, and L with LQ where the Press has ended (R314). -/
def closeViews (c : Word) (done : Bool) (v : Views) : Views :=
  { v with published := c, logic := if done then c else v.logic, kept := if done then none else v.kept }

/-- The X view as the RAA publishes it (R91, R125). -/
def publishX (r : Raa) : Sparse (BitVec 64) := r.elems.foldl (fun m e => sput 0 m e.1 (elemWord e.2)) []

/-- Routes whose status word may be other than 0. -/
def statusKeys (r : Raa) : List Nat :=
  skeys r.locks ++ skeys r.lastStatus ++ (r.queue.filter (fun e => decide (e.kind ≠ .ecmd))).map (·.item)

/-- The RS view as the RAA publishes it (R91, R126). -/
def publishRs (r : Raa) : Sparse (BitVec 16) := (statusKeys r).foldl (fun m n => sput 0 m n (statusWord r n)) []

end Sys2Proof.Machine
end

