-- ==== Sys2Proof/Machine/Digest.lean ====
section
/-!
DEFINITION. The load area of a lane and its state digest (R343, R355).
-/

namespace Sys2Proof.Machine

/-! ### The area (R355) -/

/-- A queue entry as both modules of a pair hold it: of a host entry, port, ring and tag (R129, R339). -/
def plainEntry (e : QEntry) : QEntry :=
  match e.src with
  | .press _ _ _ => e
  | .host r => { e with src := .host { r with cq := 0, cls := 0, irq := false, epoch := 0, sequence := 0, code := 0, order := 0 } }

/-- Send sequences of the peer sessions, by peer. -/
def peerSeqs (m : Sparse Session) : Sparse Word :=
  m.foldl (fun r e => if 512 ≤ e.1 ∧ e.1 < 576 then sput 0 r (e.1 - 512) e.2.txSeq else r) []

/-- The load area of a lane (R355). The queue holds what waits for the next cycle: entries held over and Press entries (R130). -/
def areaOf (L : LaneState) : LoadArea :=
  { q := L.press.data.q, lq := L.press.data.lq, m := L.press.data.m, t := L.press.data.t, c := L.press.data.c
    e := L.press.data.e, w := L.press.data.w, elems := L.raa.elems, locks := L.raa.locks
    lastStatus := L.raa.lastStatus, peerSeq := peerSeqs L.sessions
    queue := (L.raa.queue ++ L.press.issued).map plainEntry, loaded := L.raa.loaded }

/-- A lane takes a load area (R353). -/
def putArea (L : LaneState) (a : LoadArea) : LaneState :=
  let data := { L.press.data with q := a.q, lq := a.lq, m := a.m, t := a.t, c := a.c, e := a.e, w := a.w }
  { L with
    press := { L.press with data := data, issued := [] }
    raa := { L.raa with elems := a.elems, locks := a.locks, lastStatus := a.lastStatus, queue := a.queue, loaded := a.loaded }
    sessions := L.sessions.foldl (fun r e => sput Session.reset r e.1
      (if 512 ≤ e.1 ∧ e.1 < 576 then { e.2 with txSeq := sget 0 a.peerSeq (e.1 - 512) } else e.2)) [] }

/-! ### Records

The silicon fixes how these records lie in their blocks, and its layout is not published (R343). The model lays them out as follows, and
Config.blockMask stands between this layout and that of the silicon (DESIGN CHOICE, log entry 6). -/

/-- A field of n bytes, least significant first. -/
def numAt (bs : List Byte) (off n : Nat) : Nat := ofLe ((bs.drop off).take n)

/-- A flag of a byte. -/
def flagAt (bs : List Byte) (off i : Nat) : Bool := (lget 0 bs off).getLsbD i

/-- A timer record, 16 bytes. -/
def timerBytes (x : TimerRec) : List Byte :=
  le 8 x.start.toNat ++ le 8 (bit x.out + 2 * bit x.run + 4 * bit x.last + 8 * bit x.esat)

def timerAt (bs : List Byte) : TimerRec :=
  { start := BitVec.ofNat 64 (numAt bs 0 8), out := flagAt bs 8 0, run := flagAt bs 8 1, last := flagAt bs 8 2, esat := flagAt bs 8 3 }

/-- A counter record, 8 bytes. -/
def counterBytes (x : CounterRec) : List Byte := le 4 x.count.toNat ++ le 4 (bit x.sat)

def counterAt (bs : List Byte) : CounterRec := { count := BitVec.ofNat 32 (numAt bs 0 4), sat := flagAt bs 4 0 }

/-- An element state, 16 bytes in the order of R125. -/
def stateBytes (x : ElemState) : List Byte := le 8 ((elemWord x).toNat + 2 ^ 63 * bit x.seen) ++ le 8 x.changeTime.toNat

def stateAt (bs : List Byte) : ElemState :=
  let f := flagAt bs
  { valid := f 0 0, clear := f 0 1, detected := BitVec.ofNat 2 (numAt bs 0 1 / 4), commanded := BitVec.ofNat 2 (numAt bs 0 1 / 16)
    moving := f 0 6, moveFault := f 0 7, blocked := f 1 0, pathHeld := f 1 1, overlapHeld := f 1 2, startHeld := f 1 3, occSeen := f 1 4
    virt := f 1 5, owner := BitVec.ofNat 14 (numAt bs 2 2), flankCount := BitVec.ofNat 8 (numAt bs 4 1)
    flankPos := BitVec.ofNat 2 (numAt bs 5 1), changeTime := BitVec.ofNat 64 (numAt bs 8 8), seen := f 7 7 }

/-- A lock entry, 27 bytes. -/
def lockBytes (x : Lock) : List Byte :=
  let t := fun (y : Option Time) => match y with | some z => z.toNat | none => 0
  le 8 x.time.toNat ++ le 2 x.released.toNat ++
  le 1 (bit x.everLocked + 2 * bit x.locked + 4 * bit x.setting + 8 * bit x.proofFailed + 16 * bit x.setTimeout + 32 * bit x.entered +
    64 * bit x.cancel.isSome + 128 * bit x.ovl.isSome) ++ le 8 (t x.cancel) ++ le 8 (t x.ovl)

def lockAt (bs : List Byte) : Lock :=
  let f := flagAt bs 10
  let t := fun off => BitVec.ofNat 64 (numAt bs off 8)
  { time := t 0, released := BitVec.ofNat 16 (numAt bs 8 2), everLocked := f 0, locked := f 1, setting := f 2, proofFailed := f 3
    setTimeout := f 4, entered := f 5, cancel := if f 6 then some (t 11) else none, ovl := if f 7 then some (t 19) else none }

/-- A queue entry, 16 bytes; its first bit says that the place is taken. -/
def queueBytes (e : QEntry) : List Byte :=
  let k := match e.kind with | .rreq => 0 | .rcan => 1 | .ecmd => 2
  let head := fun (n : Nat) => le 1 (1 + 2 * k + n) ++ le 2 e.item ++ le 1 e.cmd
  match e.src with
  | .press c n i => head (16 * i.val) ++ le 4 c.toNat ++ le 8 n
  | .host r => head (8 + 16 * r.port.idx) ++ le 1 r.sq.val ++ le 2 r.tag.toNat ++ le 9 0

def queueAt (bs : List Byte) : Option QEntry :=
  let x := numAt bs 0 1
  let src : QSource :=
    if flagAt bs 0 3 then
      .host { port := if flagAt bs 0 4 then .p1 else .p0, sq := Fin.ofNat 16 (numAt bs 4 1), cq := 0, cls := 0, irq := false
              tag := BitVec.ofNat 16 (numAt bs 5 2), epoch := 0, sequence := 0, code := 0, order := 0 }
    else .press (BitVec.ofNat 32 (numAt bs 4 4)) (numAt bs 8 8) (Fin.ofNat 4 (x / 16))
  if flagAt bs 0 0 then
    some { kind := match x / 2 % 4 with | 0 => .rreq | 1 => .rcan | _ => .ecmd
           item := numAt bs 1 2, cmd := numAt bs 3 1, src := src }
  else none

/-! ### Blocks -/

/-- 256 bytes of a bit space. -/
def bitBlock (b : BitSpace) (k : Nat) : List Byte :=
  (List.range 256).map (fun j => bitsFrom 8 (fun n => bget b (2048 * k + 8 * j + n)))

/-- n records of a table, from record n · k. -/
def recBlock {α : Type} (d : α) (f : α → List Byte) (m : Sparse α) (n k : Nat) : List Byte :=
  (List.range n).flatMap (fun j => f (sget d m (n * k + j)))

/-- Block k of the lock SRAM, 0 to 511: a byte for each route with its LAST_STATUS and whether it is held, the send sequences of the 64
peers, and the lock entries of the held routes, up to 4,096, in the order of the routes. -/
def lockBlock (a : LoadArea) (k : Nat) : List Byte :=
  let held := a.locks.map (fun e => lockBytes e.2)
  (List.range 256).map (fun j =>
    let n := 256 * k + j
    if n < 16384 then vput (sget 0 a.lastStatus n) 7 (a.locks.any (fun e => decide (e.1 = n)))
    else if n < 16640 then lget 0 (le 4 (sget 0 a.peerSeq ((n - 16384) / 4)).toNat) (n % 4)
    else lget 0 (lget [] held ((n - 16640) / 27)) ((n - 16640) % 27))

/-- Block k of the queue, 0 to 255. -/
def queueBlock (a : LoadArea) (k : Nat) : List Byte :=
  (List.range 16).flatMap (fun j => match (a.queue.drop (16 * k + j)).head? with | some e => queueBytes e | none => le 16 0)

/-- A block that the silicon lays out in its own way. -/
def maskBlock (i : Nat) (bs : List Byte) : List Byte := le 256 (BitVec.ofNat 2048 (ofLe bs) ^^^ Config.blockMask i).toNat

/-- The 256 bytes of a block (R355): Q, LQ, M, E and W in the order of their bits and words; each other block says nothing but what its own
part holds there. -/
def areaBlock (a : LoadArea) (i : Nat) : List Byte :=
  if i ≤ 63 then bitBlock a.q i
  else if i ≤ 71 then bitBlock a.lq (i - 64)
  else if i ≤ 583 then bitBlock a.m (i - 72)
  else if i ≤ 1607 then maskBlock i (recBlock TimerRec.reset timerBytes a.t 16 (i - 584))
  else if i ≤ 1863 then maskBlock i (recBlock CounterRec.reset counterBytes a.c 32 (i - 1608))
  else if i ≤ 1895 then bitBlock a.e (i - 1864)
  else if i ≤ 2919 then recBlock (0 : Word) (fun x => le 4 x.toNat) a.w 64 (i - 1896)
  else if i ≤ 7015 then maskBlock i (recBlock ElemState.reset stateBytes a.elems 16 (i - 2920))
  else if i ≤ 7527 then maskBlock i (lockBlock a (i - 7016))
  else maskBlock i (queueBlock a (i - 7528))

/-- The bits of a bit space that a block's bytes replace. -/
def putBits (b : BitSpace) (k : Nat) (bs : List Byte) : BitSpace :=
  bpatch b (2048 * k) (2048 * (k + 1))
    (((List.range 2048).filter (fun i => (lget 0 bs (i / 8)).getLsbD (i % 8))).map (· + 2048 * k))

/-- The n records of a table, of w bytes each, that a block's bytes replace. -/
def putRecs {α : Type} [DecidableEq α] (d : α) (f : List Byte → α) (m : Sparse α) (n w k : Nat) (bs : List Byte) : Sparse α :=
  (List.range n).foldl (fun m j => sput d m (n * k + j) (f ((bs.drop (w * j)).take w))) m

/-- Bytes of the lock SRAM and of the queue in a load: blocks that the load has brought, the others as they stand. -/
def loadedBytes (a : LoadArea) (first count : Nat) : List Byte :=
  (List.range count).flatMap (fun k => match sfind a.loaded (first + k) with
    | some b => le 256 b.toNat
    | none => maskBlock (first + k) (areaBlock a (first + k)))

/-- The lock SRAM that the bytes of its blocks hold. -/
def takeLocks (a : LoadArea) : LoadArea :=
  let bs := loadedBytes a 7016 512
  let held := (List.range 16384).filter (fun r => flagAt bs r 7)
  { a with
    locks := held.zip ((List.range held.length).map (fun j => lockAt ((bs.drop (16640 + 27 * j)).take 27)))
    lastStatus := (List.range 16384).foldl (fun m r => sput 0 m r (vput (lget 0 bs r) 7 false)) []
    peerSeq := (List.range 64).foldl (fun m q => sput 0 m q (BitVec.ofNat 32 (numAt bs (16384 + 4 * q) 4))) [] }

/-- The queue that the bytes of its blocks hold. -/
def takeQueue (a : LoadArea) : LoadArea :=
  let bs := loadedBytes a 7528 256
  { a with queue := (List.range 4096).filterMap (fun j => queueAt ((bs.drop (16 * j)).take 16)) }

/-- The area after a block is written: the part of R355 that the block belongs to. -/
def putBlock (a : LoadArea) (i : Nat) (bs : List Byte) : LoadArea :=
  let ms := maskBlock i bs
  if i ≤ 63 then { a with q := putBits a.q i bs }
  else if i ≤ 71 then { a with lq := putBits a.lq (i - 64) bs }
  else if i ≤ 583 then { a with m := putBits a.m (i - 72) bs }
  else if i ≤ 1607 then { a with t := putRecs TimerRec.reset timerAt a.t 16 16 (i - 584) ms }
  else if i ≤ 1863 then { a with c := putRecs CounterRec.reset counterAt a.c 32 8 (i - 1608) ms }
  else if i ≤ 1895 then { a with e := putBits a.e (i - 1864) bs }
  else if i ≤ 2919 then { a with w := putRecs (0 : Word) (fun x => BitVec.ofNat 32 (ofLe x)) a.w 64 4 (i - 1896) bs }
  else if i ≤ 7015 then { a with elems := putRecs ElemState.reset stateAt a.elems 16 16 (i - 2920) ms }
  else
    let b := { a with loaded := sputAny a.loaded i (BitVec.ofNat 2048 (ofLe ms)) }
    if i ≤ 7527 then takeLocks b else takeQueue b

/-- Number of blocks (R343). -/
def blockCount : Nat := 7784

/-- The block code (R343). -/
def blockCode (a : LoadArea) (i : Nat) : Nat := crcOf crc64 (le 4 i ++ areaBlock a i)

/-- The state digest (R343): the XOR of all block codes, and above it their sum modulo 2⁶⁴. -/
def stateDigest (a : LoadArea) : BitVec 128 :=
  let codes := (List.range blockCount).map (blockCode a)
  BitVec.ofNat 128 (codes.foldl (fun x c => x ^^^ c) 0 + 2 ^ 64 * (codes.foldl (fun x c => (x + c) % 2 ^ 64) 0))

/-- The area without the fields that a STANDBY derives from its own inputs, whose change marks no block (R354). -/
def markArea (a : LoadArea) : LoadArea :=
  { a with elems := a.elems.foldl (fun m e => sput ElemState.reset m e.1
      { e.2 with valid := false, clear := false, detected := 0, moving := false }) [] }

end Sys2Proof.Machine
end

