-- ==== Sys2Proof/Machine/Host.lean ====
section
/-!
DEFINITION. The host interface up to the batch (R295 to R315): descriptors and their form, the checks of R308, the ledger,
outcomes, and the taking of descriptors from a submission ring.
-/

namespace Sys2Proof.Machine

/-! ### Roles and identities -/

/-- The active vintage configures twin operation (R330). -/
def twinOn (s : State) : Bool := match vintageOf s with | some v => v.twin | none => false

/-- The role epoch in force: 0 without twin operation (R333). -/
def epochNow (s : State) : BitVec 16 := if twinOn s then s.twin.epoch else 0

/-- The module's node number (R201, R245). -/
def ownNode (s : State) : BitVec 10 := match vintageOf s with | some v => v.node | none => 0

/-- The twin state in force (R332): NONE without twin operation, OUT in BOOT, SAFE and RECOVERY from their first instant, and else the role that
the module has taken at a tick. -/
def twinNow (s : State) : TwinSt :=
  if twinOn s then
    match s.mod.st with
    | .boot => .out | .safe => .out | .recovery => .out
    | .off => s.twin.st | .commissioning => s.twin.st | .starting => s.twin.st | .svc3 => s.twin.st | .svc2 => s.twin.st
  else .none

/-- The module counts as ACTIVE for R304; until it holds a role, node 0 does (R335). -/
def roleActive (s : State) : Bool :=
  if twinOn s then
    match twinNow s with
    | .active => true
    | .unpaired => false | .loading => false | .checking => false | .paired => false
    | .none => decide (ownNode s = 0) | .waiting => decide (ownNode s = 0) | .out => decide (ownNode s = 0)
  else true

/-- The module holds the ACTIVE role of a twin pair (R92, R332). -/
def holdsActive (s : State) : Bool := decide (twinNow s = .active)

/-- HOST_SID of a port (R303). -/
def hostSid (s : State) (p : Port) : Word := match vintageOf s with | some v => v.hostSid.get p | none => 0

/-- MODULE_SID (R303, R306). -/
def moduleSid (s : State) : Nat := match vintageOf s with | some v => v.moduleSid.toNat | none => 0

/-- The ring lane of a port runs (R296). -/
def ringRuns (s : State) (p : Port) : Bool := runs s p.ringLane

/-! ### Descriptors (R303 to R306) -/

/-- CLASS. -/
def dClass (d : BitVec 512) : Nat := dget d 0 1
/-- TAG. -/
def dTag (d : BitVec 512) : BitVec 16 := BitVec.ofNat 16 (dget d 2 2)
/-- EPOCH. -/
def dEpoch (d : BitVec 512) : BitVec 16 := BitVec.ofNat 16 (dget d 4 2)
/-- SEQUENCE. -/
def dSeq (d : BitVec 512) : Word := BitVec.ofNat 32 (dget d 8 4)
/-- CODE. -/
def dCode (d : BitVec 512) : BitVec 64 := BitVec.ofNat 64 (dget d 0x38 8)

/-- Process commands (R304). -/
def isProcess (c : Nat) : Bool := decide (1 ≤ c) && decide (c ≤ 4)
/-- Maintenance commands (R304). -/
def isMaintenance (c : Nat) : Bool :=
  decide (c = 0x12) || decide (c = 0x20) || decide (c = 0x21) || decide (c = 0x22) || decide (c = 0x23) || decide (c = 0x24)
/-- Checked descriptors (R304). -/
def isChecked (c : Nat) : Bool := isProcess c || isMaintenance c
/-- Unchecked descriptors (R304). -/
def isUnchecked (c : Nat) : Bool := decide (c = 0x10) || decide (c = 0x11) || decide (c = 0x30)
/-- Authorised classes (R304). -/
def isAuthorised (c : Nat) : Bool := decide (c = 0x12) || decide (c = 0x21) || decide (c = 0x22) || decide (c = 0x23)

/-- Bytes of ARGS that a class uses, as (offset, size) (R305). -/
def argFields (c : Nat) : List (Nat × Nat) :=
  if c = 1 ∨ c = 2 then [(0x18, 2)]
  else if c = 3 ∨ c = 4 then [(0x18, 3)]
  else if c = 0x10 then [(0x18, 1), (0x1C, 8), (0x28, 8)]
  else if c = 0x11 then [(0x18, 1), (0x20, 12), (0x30, 8)]
  else if c = 0x20 then [(0x18, 13), (0x28, 8)]
  else if c = 0x21 then [(0x18, 1), (0x1C, 9), (0x28, 8)]
  else if c = 0x22 then [(0x18, 5), (0x20, 8)]
  else if c = 0x23 then [(0x18, 4), (0x20, 8)]
  else if c = 0x24 then [(0x18, 8)]
  else []

/-- Every byte of ARGS outside the fields of the class is 0 (R303). -/
def argsClear (d : BitVec 512) : Bool :=
  (List.range 32).all (fun i =>
    (argFields (dClass d)).any (fun f => decide (f.1 ≤ 0x18 + i) && decide (0x18 + i < f.1 + f.2)) ||
    decide (dget d (0x18 + i) 1 = 0))

/-- Length in bytes of the image that IMAGE_READ names (R84, R166, R305). -/
def imageLength (what : Nat) : Nat :=
  if what = 0 then 33024 else if what = 1 then 32768 else if what = 2 then 6144 else if what = 3 then 524288 else 32768

/-- A staging length and its place (R305). -/
def stageArgs (d : BitVec 512) : Bool :=
  decide (dget d 0x1C 4 % 4096 = 0) && decide (4096 ≤ dget d 0x20 4) && decide (dget d 0x20 4 ≤ 1048576) &&
  decide (dget d 0x24 1 ≤ 1) && decide (dget d 0x28 8 % 64 = 0)

/-- Arguments within R305 (and R477 for NEW_TIME). -/
def argsOk (d : BitVec 512) : Bool :=
  let c := dClass d
  if c = 1 ∨ c = 2 then decide (dget d 0x18 2 ≤ 16383)
  else if c = 3 then decide (dget d 0x1A 1 ≤ 6)
  else if c = 4 then decide (dget d 0x18 2 ≤ 575) && decide (dget d 0x1A 1 ≤ 1)
  else if c = 0x10 then
    decide (dget d 0x18 1 ≤ 4) && decide (dget d 0x1C 4 % 4 = 0) && decide (dget d 0x20 4 % 4 = 0) &&
    decide (4 ≤ dget d 0x20 4) && decide (dget d 0x20 4 ≤ 524288) &&
    decide (dget d 0x1C 4 + dget d 0x20 4 ≤ imageLength (dget d 0x18 1)) && decide (dget d 0x28 8 % 4 = 0)
  else if c = 0x11 then
    decide (dget d 0x18 1 ≤ 1) && decide (64 ≤ dget d 0x28 4) && decide (dget d 0x28 4 ≤ 524288) &&
    decide (dget d 0x30 8 % 64 = 0)
  else if c = 0x20 then stageArgs d
  else if c = 0x21 then decide (1 ≤ dget d 0x18 1) && decide (dget d 0x18 1 ≤ 3) && stageArgs d
  else if c = 0x22 then decide (dget d 0x1C 1 ≤ 1)
  else if c = 0x24 then decide (dget d 0x18 8 < 2 ^ 63)
  else true

/-- Check 1 of R308 on one slot: known class, reserved bits and bytes 0, arguments within R305, and SEQUENCE, TIME and CODE
0 in an unchecked descriptor. -/
def formOk (d : BitVec 512) : Bool :=
  let c := dClass d
  (isChecked c || isUnchecked c) && decide (dget d 1 1 < 4) && decide (dget d 6 2 = 0) && decide (dget d 0xC 4 = 0) &&
  (isChecked c || (decide (dget d 8 4 = 0) && decide (dget d 0x10 8 = 0) && decide (dget d 0x38 8 = 0))) &&
  argsClear d && argsOk d

/-- A second slot that is a matching AUTH_EXT (R306). -/
def authMatches (d x : BitVec 512) : Bool :=
  decide (dClass x = 0x3F) && decide (dget x 1 1 = 0) && decide (dTag x = dTag d) && decide (dget x 6 2 = 0) &&
  decide (dget x 0x10 16 = 0)

/-- The slots of a descriptor have the form of R305 and R306. -/
def slotsOk (d : BitVec 512) (x : Option (BitVec 512)) : Bool :=
  formOk d && (match x with
    | some x => isAuthorised (dClass d) && authMatches d x
    | none => !isAuthorised (dClass d))

/-- Bytes of a slot. -/
def slotBytes (d : BitVec 512) (n : Nat) : List Byte := le n d.toNat

/-- The command safety code over HOST_SID and bytes 0x00 to 0x37 (R303, R315). -/
def slotCode (sid : Word) (d : BitVec 512) : Nat := crcOf crc64 (le 4 sid.toNat ++ slotBytes d 56)

/-- The HMAC of an authorised descriptor (R306); the key's bytes are the number's, most significant first. -/
def slotHmac (s : State) (d x : BitVec 512) : List Byte :=
  hmacSha256 (be 32 s.cellar.life.key.toNat) (le 4 (moduleSid s) ++ slotBytes d 64 ++ slotBytes x 32)

/-! ### Rings -/

/-- A submission ring. -/
def sqOf (s : State) (p : Port) (q : Nat) : Ring := sget Ring.reset (s.ports.get p).sqs q
/-- A completion ring. -/
def cqOf (s : State) (p : Port) (q : Nat) : Ring := sget Ring.reset (s.ports.get p).cqs q
/-- Change a submission ring. -/
def modSq (s : State) (p : Port) (q : Nat) (f : Ring → Ring) : State :=
  modPort s p (fun x => { x with sqs := smod Ring.reset x.sqs q f })
/-- Change a completion ring. -/
def modCq (s : State) (p : Port) (q : Nat) (f : Ring → Ring) : State :=
  modPort s p (fun x => { x with cqs := smod Ring.reset x.cqs q f })

/-- Slots of a ring (R300). -/
def ringSize (r : Ring) : Nat := 2 ^ r.sizeLog2.toNat

/-- An index moved on by n in its ring. -/
def advance (r : Ring) (i : BitVec 12) (n : Nat) : BitVec 12 := BitVec.ofNat 12 ((i.toNat + n) % ringSize r)

/-- Descriptors that wait in a submission ring (R302). -/
def sqWaiting (r : Ring) : Nat := (r.tail.toNat + ringSize r - r.head.toNat) % ringSize r

/-- A CQ is full when the next write slot equals the host's head less one (R302). -/
def cqFull (r : Ring) : Bool := decide (advance r r.tail 1 = r.head)

/-- The SQ may be fetched from: it runs, its CQ is enabled and not full, nothing is kept or fenced, the link is up and the
port not paused (R301, R313, R319, R320, R322, R466). -/
def sqReady (s : State) (p : Port) (q : Nat) : Bool :=
  let r := sqOf s p q
  let c := cqOf s p r.cq.toNat
  r.enabled && decide (r.halt = .none) && decide (sqWaiting r > 0) && !r.kept && r.fenced.isNone && c.enabled && !cqFull c &&
  (s.ports.get p).linkUp && !(s.ports.get p).paused && ringRuns s p

/-- The ring lane's mailbox. -/
def ringMbx (s : State) (p : Port) : LaneMbx := (lane s p.ringLane).mbx

/-- Nothing taken from the SQ waits for its completion or its completion's write (R319). -/
def sqQuiet (s : State) (p : Port) (q : Nat) : Bool :=
  (ringMbx s p).taken.all (fun t => decide (t.ref.port ≠ p) || decide (t.ref.sq.val ≠ q)) &&
  (ringMbx s p).composed.all (fun c => decide (c.ref.port ≠ p) || decide (c.ref.sq.val ≠ q))

/-! ### Ledger (R309) -/

/-- Index of a ledger. -/
def ledgerIx (p : Port) (q : Nat) : Nat := 16 * p.idx + q

/-- The ledger of an SQ. -/
def ledgerOf (L : LaneState) (p : Port) (q : Nat) : Ledger := sget Ledger.reset L.mbx.ledgers (ledgerIx p q)

/-- What check 4 finds. -/
inductive SeqCheck where
  | fresh
  | again (e : LedgerEntry)
  | conflict
  | window
deriving DecidableEq, Repr

/-- Check 4 (R309). -/
def seqCheck (g : Ledger) (seq : Word) (code : BitVec 64) : SeqCheck :=
  match g.last with
  | none => .fresh
  | some last =>
    if seq = last + 1 then .fresh
    else if (last - seq).toNat ≤ 4095 then
      match g.entries.find? (fun e => decide (e.sequence = seq)) with
      | some e => if e.code = code then .again e else .conflict
      | none => .window
    else .window

/-- A number is consumed (R309): the last 4,096 are kept, newest first. -/
def ledgerAdd (g : Ledger) (e : LedgerEntry) : Ledger := { last := some e.sequence, entries := (e :: g.entries).take 4096 }

/-! ### Outcomes and completions (R315, R317) -/

/-- An outcome of a descriptor. -/
structure HostEnd where
  status : Nat
  term : Nat
  cycle : Word
  time : Time
  result : BitVec 128
deriving DecidableEq, Repr

/-- RESULT whose first n bytes are known; the others are open (R315). -/
def resultOf (r : HostRef) (n v : Nat) : BitVec 128 :=
  BitVec.ofNat 128 (v % 2 ^ (8 * n) + (Config.openResult r).toNat / 2 ^ (8 * n) * 2 ^ (8 * n))

/-- Index that the RESULT of a process command starts with; reason 0 for the classes that carry a reason (R315). -/
def refusalResult (r : HostRef) (d : BitVec 512) : BitVec 128 :=
  let c := dClass d
  if isProcess c then resultOf r 2 (dget d 0x18 2) else resultOf r 0 0

/-- A refusal at checks 1 to 8: CYCLE 0 (R315). -/
def refusal (r : HostRef) (d : BitVec 512) (status : Nat) : HostEnd :=
  { status := status, term := 0x7F, cycle := 0, time := Config.openTime r, result := refusalResult r d }

/-- An outcome in the cycle in force. -/
def outcomeNow (s : State) (status : Nat) (result : BitVec 128) : HostEnd :=
  { status := status, term := 0x7F, cycle := s.mod.cycle, time := s.mod.tickTime, result := result }

/-- Not executed: ABORTED (R301, R322). -/
def aborted (r : HostRef) (d : BitVec 512) : HostEnd :=
  { status := 0x3D, term := 0x7F, cycle := Config.openCycle r, time := Config.openTime r, result := refusalResult r d }

/-- The completion that a lane composes. -/
def completionOf (epoch : BitVec 16) (r : HostRef) (cqEpoch : Nat) (replay consumed : Bool) (e : HostEnd) : Completion :=
  { ref := r, cqEpoch := cqEpoch, status := BitVec.ofNat 8 e.status, term := BitVec.ofNat 8 e.term, replay := replay
    consumed := consumed, cycle := e.cycle, time := e.time, result := e.result, epoch := epoch }

/-- A lane composes a completion. -/
def compose (L : LaneState) (c : Completion) : LaneState :=
  { L with mbx := { L.mbx with composed := L.mbx.composed ++ [c] } }

/-- Change the ledger of an SQ in a lane. -/
def modLedger (L : LaneState) (p : Port) (q : Nat) (f : Ledger → Ledger) : LaneState :=
  let g := smod Ledger.reset L.mbx.ledgers (ledgerIx p q) f
  { L with mbx := { L.mbx with ledgers := g } }

/-- The outcome enters the ledger with its number (R309). -/
def ledgerEnd (L : LaneState) (r : HostRef) (e : HostEnd) : LaneState :=
  let f := fun (x : LedgerEntry) =>
    if x.sequence = r.sequence ∧ x.code = r.code then
      { x with done := true, status := BitVec.ofNat 8 e.status, term := BitVec.ofNat 8 e.term, cycle := e.cycle
               time := e.time, result := e.result }
    else x
  modLedger L r.port r.sq.val (fun g => { g with entries := g.entries.map f })

/-- Two descriptors carry one number of one SQ. -/
def sameNumber (a b : HostRef) : Bool :=
  decide (a.port = b.port) && decide (a.sq = b.sq) && decide (a.sequence = b.sequence) && decide (a.code = b.code)

/-- A taken descriptor ends in one lane: outcome into the ledger, completion composed, and with it the completions of its
resubmissions (R309, R316). A descriptor the lane has not taken ends without a completion. -/
def finishLane (s : State) (l : Lane) (r : HostRef) (e : HostEnd) : State :=
  match (lane s l).mbx.taken.find? (fun t => decide (t.ref = r)) with
  | none => s
  | some t =>
    let checked := isChecked r.cls.toNat
    modLane s l (fun L =>
      let first := checked && !t.replay
      let again := if first then L.mbx.taken.filter (fun u => u.replay && sameNumber u.ref r) else []
      let L1 := { L with mbx := { L.mbx with
        taken := L.mbx.taken.filter (fun u => decide (u.ref ≠ r) && !(first && u.replay && sameNumber u.ref r)) } }
      let L2 := if first then ledgerEnd L1 r e else L1
      let L3 := compose L2 (completionOf (epochNow s) r t.cqEpoch t.replay checked e)
      again.foldl (fun L u => compose L (completionOf (epochNow s) u.ref u.cqEpoch true true e)) L3)

/-- A taken descriptor ends in every lane that has taken it. -/
def finishAll (s : State) (r : HostRef) (e : HostEnd) : State := foldS Lane.list (fun s l => finishLane s l r e) s

/-! ### The checks (R308) -/

/-- The tick time of the cycle whose END_LOGIC closes the batch that a descriptor taken now would join (R310). -/
def batchTime (s : State) : Time :=
  match s.mod.phase with
  | .input => s.mod.tickTime
  | .logic => s.mod.tickTime
  | .vote => timeAdd s.mod.tickTime (periodNs s)
  | .output => timeAdd s.mod.tickTime (periodNs s)
  | .idle => timeAdd s.mod.tickTime (periodNs s)

/-- TIME_WINDOW in ns (R310): 1 s without a vintage. -/
def timeWindow (s : State) : Nat := match vintageOf s with | some v => v.timeWindowMs * 1000000 | none => 1000000000

/-- Check 5 (R310). -/
def timeOk (s : State) (d : BitVec 512) : Bool :=
  let t := dget d 0x10 8
  let u := (batchTime s).toNat
  decide (t ≤ u + timeWindow s) && decide (u ≤ t + timeWindow s)

/-- Module states of R304. -/
def stateAllows (s : State) (c : Nat) : Bool :=
  let m := s.mod.st
  if isProcess c then inService m
  else if c = 0x12 ∨ c = 0x20 ∨ c = 0x24 then inService m || decide (m = .commissioning)
  else if c = 0x21 then decide (m = .svc3)
  else if c = 0x22 then decide (m = .svc3) && Lane.list.all (fun l => decide (lst s l ≠ .reintegrating))
  else if c = 0x23 then decide (m = .commissioning)
  else true

/-- Classes that only the ACTIVE module accepts (R304). -/
def activeOnly (c : Nat) : Bool := isProcess c || decide (c = 0x22) || decide (c = 0x24)

/-- The verdict of checks 1 to 8. -/
inductive Verdict where
  | refuse (status : Nat) (consumed : Bool)
  | replay (e : LedgerEntry)
  | take
deriving DecidableEq, Repr

/-- Check 6 (R307, R411, R482); none: passed. -/
def authCheck (s : State) (d : BitVec 512) (x : Option (BitVec 512)) : Option Nat :=
  match x with
  | none => none
  | some x =>
    let f := s.cellar.life
    if f.keyVersion = 0 ∨ dget x 4 2 ≠ f.keyVersion.toNat ∨ slotHmac s d x ≠ (slotBytes x 64).drop 32 then some 0x35
    else if bothFailed s.cellar then (if dClass d = 0x23 ∧ s.mod.st = .commissioning then some 0x1C else some 0x36)
    else if dget x 8 8 ≤ f.nonceLast.toNat then some 0x36
    else none

/-- Checks 1 to 8 of R308 in one lane on a checked descriptor. -/
def checkSlots (s : State) (l : Lane) (p : Port) (q : Nat) (d : BitVec 512) (x : Option (BitVec 512)) : Verdict :=
  if !slotsOk d x then .refuse 0x37 false
  else if slotCode (hostSid s p) d ≠ dget d 0x38 8 then .refuse 0x31 false
  else if dEpoch d ≠ epochNow s then .refuse 0x30 false
  else match seqCheck (ledgerOf (lane s l) p q) (dSeq d) (dCode d) with
    | .conflict => .refuse 0x33 false
    | .window => .refuse 0x32 false
    | .again e => .replay e
    | .fresh =>
      if !timeOk s d then .refuse 0x34 true
      else match authCheck s d x with
        | some st => .refuse st true
        | none =>
          if activeOnly (dClass d) && !roleActive s then .refuse 0x38 true
          else if !stateAllows s (dClass d) then .refuse 0x1C true
          else .take

/-- A descriptor as the lane keeps it. -/
def takenOf (r : HostRef) (d : BitVec 512) (cqEpoch : Nat) (x : Option (BitVec 512)) (replay : Bool) : Taken :=
  { ref := r, desc := d, cqEpoch := cqEpoch, inBatch := false, started := false, replay := replay, fenceSeen := false
    keyVersion := BitVec.ofNat 16 (match x with | some x => dget x 4 2 | none => 0)
    nonce := BitVec.ofNat 64 (match x with | some x => dget x 8 8 | none => 0), data := none, feed := .waiting }

/-- The ledger entry of a number just consumed. -/
def ledgerNew (r : HostRef) (e : Option HostEnd) : LedgerEntry :=
  match e with
  | some e => { sequence := r.sequence, code := r.code, done := true, status := BitVec.ofNat 8 e.status
                term := BitVec.ofNat 8 e.term, cycle := e.cycle, time := e.time, result := e.result }
  | none => { sequence := r.sequence, code := r.code, done := false, status := 0, term := 0, cycle := 0, time := 0
              result := 0 }

/-- A number is consumed in a lane. -/
def consume (L : LaneState) (r : HostRef) (e : Option HostEnd) : LaneState :=
  modLedger L r.port r.sq.val (fun g => ledgerAdd g (ledgerNew r e))

/-- What one lane does with a checked descriptor (R308, R309). -/
def laneTake (s : State) (l : Lane) (r : HostRef) (d : BitVec 512) (x : Option (BitVec 512)) (cqEpoch : Nat)
    (v : Verdict) : State :=
  modLane s l (fun L =>
    match v with
    | .refuse st consumed =>
      let e := refusal r d st
      let L1 := if consumed then consume L r (some e) else L
      compose L1 (completionOf (epochNow s) r cqEpoch false consumed e)
    | .replay e =>
      if e.done then
        compose L (completionOf (epochNow s) r cqEpoch true true
          { status := e.status.toNat, term := e.term.toNat, cycle := e.cycle, time := e.time, result := e.result })
      else { L with mbx := { L.mbx with taken := L.mbx.taken ++ [takenOf r d cqEpoch x true] } }
    | .take =>
      let L1 := consume L r none
      { L1 with mbx := { L1.mbx with taken := L1.mbx.taken ++ [takenOf r d cqEpoch x false] } })

/-- The nonce of an authorised descriptor that a lane finds good becomes NONCE_LAST (R307). -/
def nonceTaken (v : Verdict) : Bool :=
  match v with
  | .take => true
  | .refuse st _ => decide (st = 0x38) || decide (st = 0x1C)
  | .replay _ => false

/-- Every lane whose service core runs checks a checked descriptor (R308, R311). -/
def takeChecked (s : State) (p : Port) (q : Nat) (r : HostRef) (d : BitVec 512) (x : Option (BitVec 512))
    (cqEpoch : Nat) : State :=
  let vs := (Lane.list.filter (runs s)).map (fun l => (l, checkSlots s l p q d x))
  let s1 := foldS vs (fun s v => laneTake s v.1 r d x cqEpoch v.2) s
  match x with
  | some x =>
    if !bothFailed s.cellar && vs.any (fun v => nonceTaken v.2) && decide (dget x 8 8 > s.cellar.life.nonceLast.toNat) then
      modPages s1 [6] (fun f => { f with nonceLast := BitVec.ofNat 64 (dget x 8 8) })
    else s1
  | none => s1

/-! ### IMAGE_READ and CELLAR_READ (R111, R314, R414) -/

/-- n words of a byte list. -/
def wordsOf : Nat → List Byte → List Word
  | 0, _ => []
  | n + 1, bs => BitVec.ofNat 32 (ofLe (bs.take 4)) :: wordsOf n (bs.drop 4)

/-- Word i of a bit space. -/
def bitWord (b : BitSpace) (i : Nat) : Word := bitsFrom 32 (fun k => bget b (32 * i + k))

/-- A station frame control record, 20 bytes (R217). -/
def ctlBytes (c : CtlRec) : List Byte :=
  le 2 c.dest.toNat ++ le 1 c.type.toNat ++ le 1 c.flags.toNat ++ le 2 c.length.toNat ++ le 2 c.epoch.toNat ++
  le 4 c.sequence.toNat ++ le 8 c.time.toNat

/-- A peer frame control record, 28 bytes (R217). -/
def peerCtlBytes (c : CtlRec) : List Byte := ctlBytes c ++ le 4 c.destSid.toNat ++ le 4 c.echoSeq.toNat

/-- The twin-slot control fields, 40 bytes (R337). -/
def twinCtlBytes (t : TwinCtl) : List Byte :=
  ctlBytes t.ctl ++ le 4 t.vintage.toNat ++ le 4 t.staged.toNat ++ le 1 t.module.toNat ++ le 1 t.twinState.toNat ++
  le 1 t.tflags.toNat ++ le 1 t.count.toNat ++ le 4 t.echoSeq.toNat ++ le 4 0

/-- A record that is all 0. -/
def CtlRec.zero : CtlRec :=
  { dest := 0, type := 0, flags := 0, length := 0, epoch := 0, sequence := 0, time := 0, destSid := 0, echoSeq := 0 }

/-- Bytes 0x0000 to 0x00FF of an image, the code of the twin frame read as 0 (R166, R305). -/
def imageHeader (m : Image) : List Byte :=
  le 4 0x3840 ++ le 4 m.cycle.toNat ++ le 8 m.time.toNat ++ le 4 m.flags.toNat ++ le 4 m.vintage.toNat ++
  le 16 (stateDigest m.area).toNat ++
  (match m.twin with | some t => twinCtlBytes t | none => le 40 0) ++ le 176 0

/-- Word i of a voted image as the host reads it (R166, R305). -/
def votedWord (m : Image) (i : Nat) : Word :=
  if i < 64 then BitVec.ofNat 32 (ofLe (((imageHeader m).drop (4 * i)).take 4))
  else if i < 64 + 4096 then bitWord m.q (i - 64)
  else if i < 64 + 4096 + 512 then bitWord m.lq (i - 4160)
  else if i < 0x7100 / 4 then
    let k := i - 0x4900 / 4
    BitVec.ofNat 32 (ofLe (((ctlBytes (sget CtlRec.zero m.stations (k / 5))).drop (4 * (k % 5))).take 4))
  else if i < 0x7800 / 4 then
    let k := i - 0x7100 / 4
    BitVec.ofNat 32 (ofLe (((peerCtlBytes (sget CtlRec.zero m.peers (k / 7))).drop (4 * (k % 7))).take 4))
  else 0

/-- Word i of the image that IMAGE_READ names, in plain form from the ring lane's copy (R84, R305, R314); before any vote
the voted image is open. -/
def imageWord (s : State) (l : Lane) (what i : Nat) : Word :=
  let d := (lane s l).press.data
  if what = 0 then
    match s.mod.voted with
    | some m => votedWord m i
    | none => (Config.freeValue (s.free + i)).setWidth 32
  else if what = 1 then (if i < 4096 then bitWord d.iv i else bitWord d.ifv (i - 4096))
  else if what = 2 then
    let (lv, lf, lq) := d.views.kept.getD (d.lv, d.lf, d.lq)
    if i < 512 then bitWord lv i else if i < 1024 then bitWord lf (i - 512) else bitWord lq (i - 1024)
  else if what = 3 then
    let w := sget (0 : BitVec 64) d.x (i / 2)
    if i % 2 = 0 then w.setWidth 32 else (w >>> 32).setWidth 32
  else BitVec.ofNat 32 ((sget (0 : BitVec 16) d.rs (2 * i)).toNat + 65536 * (sget (0 : BitVec 16) d.rs (2 * i + 1)).toNat)

/-- The cycle that an IMAGE_READ names: that of the data which the ring lane holds (R314). -/
def imageCycle (s : State) (l : Lane) (what : Nat) : Word :=
  let v := (lane s l).press.data.views
  if what = 0 then (match s.mod.voted with | some m => m.cycle | none => s.mod.cycle)
  else if what = 1 then v.inputs
  else if what = 2 then v.logic
  else v.published

/-- Bytes of words, little-endian. -/
def bytesOf (ws : List Word) : List Byte := ws.flatMap (fun w => le 4 w.toNat)

/-- An unchecked descriptor ends in the ring lane. -/
def endUnchecked (s : State) (p : Port) (r : HostRef) (cqEpoch : Nat) (e : HostEnd) : State :=
  modLane s p.ringLane (fun L => compose L (completionOf (epochNow s) r cqEpoch false false e))

/-- IMAGE_READ (R314): the data goes to host memory before the completion (R316). -/
def serveImage (s : State) (p : Port) (r : HostRef) (d : BitVec 512) (cqEpoch : Nat) : State :=
  let what := dget d 0x18 1
  let n := dget d 0x20 4
  let ws := (List.range (n / 4)).map (fun i => imageWord s p.ringLane what (dget d 0x1C 4 / 4 + i))
  let s1 := { s with hostMem := .data p (BitVec.ofNat 64 (dget d 0x28 8)) ws :: s.hostMem
                     free := s.free + imageLength what }
  let s2 := feedUsers (startUsers s1 p.ringLane p r.sq.val 0x10) p.ringLane p r.sq.val 0x10 true true (bytesOf ws)
  endUnchecked s2 p r cqEpoch (outcomeNow s 0x05 (resultOf r 12 (n + 2 ^ 32 * (imageCycle s p.ringLane what).toNat)))

/-- Records that fit a length, and the sequence number at which the next read continues (R414). -/
def fitRecords : Nat → BitVec 64 → List Record → List Record × BitVec 64
  | _, next, [] => ([], next)
  | room, _, r :: rs =>
    if recLen r ≤ room then
      let (xs, n) := fitRecords (room - recLen r) (r.seq + 1) rs
      (r :: xs, n)
    else ([], r.seq)

/-- The records of AREA 0 from a sequence number on, with the ring block that holds each: the clear slot's first, then the ring ascending
(R414). -/
def logFrom (c : Cellar) (from' : Nat) : List (Option Nat × Record) :=
  ((match c.clearSlot with | some r => [(none, r)] | none => []) ++ (c.log.map (fun e => (some e.1, e.2))).reverse).filter
    (fun e => decide (e.2.seq.toNat ≥ from'))

/-- A copy in a device verifies (R410, R414). -/
def copyGood (c : Cellar) (dev : Nat) (x : CopyAt) : Bool :=
  decide (devOf c dev ≠ .failed) && !(if dev = 0 then c.bad0 else c.bad1).contains x

/-- A copy verifies in neither device. -/
def copyLost (c : Cellar) (x : CopyAt) : Bool := !copyGood c 0 x && !copyGood c 1 x

/-- The records that a read can give: one that verifies in neither device is skipped with the rest of its block (R400, R414). -/
def readable (c : Cellar) : Option Nat → List (Option Nat × Record) → List Record
  | _, [] => []
  | dead, e :: rest =>
    if e.1.isSome && decide (e.1 = dead) then readable c dead rest
    else if copyLost c (.record e.2.seq) then readable c e.1 rest
    else e.2 :: readable c dead rest

/-- Where a copy lies in a device (R399, R417). -/
def copyOffset (c : Cellar) : CopyAt → Nat
  | .page p => slotOffset c p.val
  | .record q => match c.log.find? (fun e => decide (e.2.seq = q)) with
    | some e => blockOffset (e.1 % ringBlocks)
    | none => 0x0402000

/-- A read has met a copy that does not verify in some device (R410, R414): a single failure raises the mirror fault and the copy is repaired
from the other device; a copy lost in both is counted in both. -/
def badCopyMet (l : Lane) (s : State) (x : CopyAt) : State :=
  let c := s.cellar
  let met := fun (dev : Nat) => decide (devOf c dev ≠ .failed) && !copyGood c dev x
  let count := fun (s : State) (dev : Nat) => if met dev then devError s l dev 1 else s
  let s1 := count (count s 0) 1
  if copyLost c x then s1
  else if met 0 then mirrorFault { s1 with cellar := { s1.cellar with bad0 := c.bad0.filter (fun y => decide (y ≠ x)) } } l 0 (copyOffset c x)
  else if met 1 then mirrorFault { s1 with cellar := { s1.cellar with bad1 := c.bad1.filter (fun y => decide (y ≠ x)) } } l 1 (copyOffset c x)
  else s1

/-- The copies among those known to be bad that a read meets: in AREA 0 the records before the one at which the next read continues, in AREA
1 the pages (R414). -/
def badCopies (c : Cellar) (log : Bool) (from' n next : Nat) : List CopyAt :=
  (c.bad0 ++ c.bad1).eraseDups.filter (fun x => match x with
    | .record q => log && decide (from' ≤ q.toNat) && (decide (q.toNat < next) || copyLost c x)
    | .page p => !log && decide (from' < 4096 * (p.val + 1)) && decide (4096 * p.val < from' + n))

/-- A byte of AREA 1; of a page that verifies in neither device it is open (DESIGN CHOICE, log entry 84). -/
def areaByte (s : State) (i : Nat) : Byte :=
  if h : i / 4096 < 256 then
    if copyLost s.cellar (.page ⟨i / 4096, h⟩) then (Config.freeValue (s.free + i)).setWidth 8
    else lifeByte (fun b => BitVec.ofNat 32 (crcOf crc32c b)) s.cellar i
  else 0

/-- CELLAR_READ (R414). -/
def serveCellar (s : State) (p : Port) (r : HostRef) (d : BitVec 512) (cqEpoch : Nat) : State :=
  let from' := dget d 0x20 8
  let n := dget d 0x28 4
  let log := decide (dget d 0x18 1 = 0)
  let (rs, next) := fitRecords n (BitVec.ofNat 64 from') (readable s.cellar none (logFrom s.cellar from'))
  let bs := if log then rs.flatMap (recBytes (fun b => BitVec.ofNat 32 (crcOf crc32c b)))
    else (List.range n).map (fun i => areaByte s (from' + i))
  let ws := wordsOf ((bs.length + 3) / 4) bs
  let s0 := foldS (badCopies s.cellar log from' n next.toNat) (badCopyMet p.ringLane) s
  let s1 := { s0 with hostMem := .data p (BitVec.ofNat 64 (dget d 0x30 8)) ws :: s0.hostMem, free := s0.free + 1048576 }
  let s2 := feedUsers (startUsers s1 p.ringLane p r.sq.val 0x11) p.ringLane p r.sq.val 0x11 true true bs
  endUnchecked s2 p r cqEpoch (outcomeNow s 0x05
    (if log then resultOf r 12 (bs.length + 2 ^ 32 * next.toNat) else resultOf r 4 bs.length))

/-! ### Fences (R319) -/

/-- Every descriptor of the port that was taken before the fence has completed and its completion is written. -/
def fenceClear (s : State) (p : Port) (t : Taken) : Bool :=
  (ringMbx s p).taken.all (fun u => decide (u.ref.port ≠ p) || decide (u.ref.order ≥ t.ref.order)) &&
  (ringMbx s p).composed.all (fun c => decide (c.ref.port ≠ p) || decide (c.ref.order ≥ t.ref.order))

/-- Fences of a port complete where nothing holds them up. -/
def fenceCheck (s : State) (p : Port) : State :=
  foldS (ringMbx s p).taken (fun s t =>
    if decide (t.ref.port = p) && decide (t.ref.cls = 0x30) && fenceClear s p t &&
        (t.fenceSeen || !(s.ports.get p).statusEn) then
      finishLane s p.ringLane t.ref (outcomeNow s 0x05 (resultOf t.ref 0 0))
    else s) s

/-- A FENCE descriptor is taken: later descriptors of its SQ wait (R319). -/
def takeFence (s : State) (p : Port) (r : HostRef) (d : BitVec 512) (cqEpoch : Nat) : State :=
  let s1 := modLane s p.ringLane (fun L =>
    { L with mbx := { L.mbx with taken := L.mbx.taken ++ [takenOf r d cqEpoch none false] } })
  fenceCheck (modSq s1 p r.sq.val (fun x => { x with fenced := some r.order })) p

/-- An unchecked descriptor: checks 1 and 3 only (R308), by the ring lane alone. -/
def takeUnchecked (s : State) (p : Port) (r : HostRef) (d : BitVec 512) (x : Option (BitVec 512)) (cqEpoch : Nat) :
    State :=
  if !slotsOk d x then endUnchecked s p r cqEpoch (refusal r d 0x37)
  else if dEpoch d ≠ epochNow s then endUnchecked s p r cqEpoch (refusal r d 0x30)
  else if dClass d = 0x10 then serveImage s p r d cqEpoch
  else if dClass d = 0x11 then serveCellar s p r d cqEpoch
  else takeFence s p r d cqEpoch

/-! ### The order of the data of an SQ (R393) -/

/-- The descriptor as some lane keeps it. -/
def takenRef (s : State) (r : HostRef) : Option Taken :=
  Lane.list.findSome? (fun l => (lane s l).mbx.taken.find? (fun t => decide (t.ref = r) && !t.replay))

/-- The staging descriptors of an SQ that the lanes keep, in ring order. -/
def stageRefs (s : State) (p : Port) (q : Nat) : List HostRef :=
  ((Lane.list.flatMap (fun l => (lane s l).mbx.taken)).filter (fun t => decide (t.ref.port = p) && decide (t.ref.sq.val = q) &&
    (decide (t.ref.cls = 0x20) || decide (t.ref.cls = 0x21)) && !t.replay)).map (·.ref) |>.eraseDups

/-- The staging descriptor of an SQ whose data comes next: the first that has not been fed (R393). -/
def firstUnfed (s : State) (p : Port) (q : Nat) : Option Taken :=
  (stageRefs s p q).findSome? (fun r => match takenRef s r with
    | some t => if t.feed = .fed then none else some t
    | none => none)

/-- The descriptor stands so far in every lane that keeps it. -/
def markFeed (s : State) (r : HostRef) (x : FeedSt) : State :=
  modLanes s (fun _ L => { L with mbx := { L.mbx with
    taken := L.mbx.taken.map (fun t => if t.ref = r then { t with feed := x } else t) } })

/-- Lanes that receive the data of a staging descriptor (R311, R393, R431, R448). -/
def stageLanes (s : State) (t : Taken) : List Lane := Lane.list.filter (fun l => runs s l && receivesData l t)

/-- The next descriptor of an SQ that has started begins to feed (R393, R394). -/
def beginFeed (s : State) (p : Port) (q : Nat) : State :=
  match firstUnfed s p q with
  | some t =>
    if t.started && decide (t.feed = .waiting) then
      foldS (stageLanes s t) (fun s l => startUsers s l p q t.ref.cls.toNat) (markFeed s t.ref .begun)
    else s
  | none => s

/-! ### Taking slots from a ring -/

/-- The next SQ in turn that has work, after the one fetched from last (R320). -/
def nextSq (s : State) (p : Port) : Option (Fin 16) :=
  ((List.range 16).map (fun i => (s.ports.get p).turnSq + Fin.ofNat 16 (i + 1))).find? (fun q => sqReady s p q.val)

/-- The SQ may be fetched from in its turn: a fetch brings up to 8 descriptors, then the next SQ with work follows (R320). -/
def sqServed (s : State) (p : Port) (q : Fin 16) : Bool :=
  let x := s.ports.get p
  sqReady s p q.val && ((decide (x.turnSq = q) && decide (x.turnLeft > 0)) || decide (nextSq s p = some q))

/-- A descriptor of an SQ is fetched in its turn (R320). -/
def passTurn (s : State) (p : Port) (q : Fin 16) : State :=
  modPort s p (fun x => { x with turnSq := q, turnLeft := if x.turnSq = q ∧ x.turnLeft > 0 then x.turnLeft - 1 else 7 })

/-- A read of host memory's data may be served: no staging data of the SQ is still to come before it (R393). -/
def readInOrder (s : State) (p : Port) (q : Nat) (d : BitVec 512) : Bool :=
  (decide (dClass d ≠ 0x10) && decide (dClass d ≠ 0x11)) || (firstUnfed s p q).isNone

/-- The reference that the completion of a descriptor carries. -/
def refOf (s : State) (p : Port) (q : Fin 16) (d : BitVec 512) : HostRef :=
  { port := p, sq := q, cq := (sqOf s p q.val).cq.toFin, cls := BitVec.ofNat 8 (dClass d), irq := decide (dget d 1 1 / 2 % 2 = 1)
    tag := dTag d, epoch := dEpoch d, sequence := dSeq d, code := dCode d, order := (s.ports.get p).fetched }

/-- One whole descriptor is taken: the head passes its slots (R313). -/
def takeDesc (s : State) (p : Port) (q : Fin 16) (d : BitVec 512) (x : Option (BitVec 512)) (slots : Nat) : State :=
  let r := refOf s p q d
  let cqEpoch := (cqOf s p (sqOf s p q.val).cq.toNat).epoch
  let s1 := modPort s p (fun y => { y with fetched := y.fetched + 1 })
  let s2 := modSq s1 p q.val (fun y => { y with head := advance y y.head slots, half := none })
  if isChecked (dClass d) then takeChecked s2 p q.val r d x cqEpoch else takeUnchecked s2 p r d x cqEpoch

/-- The next slot of an SQ, with the slot after it where that was fetched with it. An authorised first slot waits for the
second (R306); a FENCE flag waits for the SQ's completions (R319), a read for the staging data before it (R393). -/
def takeFirst (s : State) (p : Port) (q : Fin 16) (d : BitVec 512) (x : Option (BitVec 512)) : State :=
  if (decide (dget d 1 1 % 2 = 1) && !sqQuiet s p q.val) || !readInOrder s p q.val d then s
  else if isAuthorised (dClass d) then
    match x with
    | some x =>
      if sqWaiting (sqOf s p q.val) < 2 then modSq s p q.val (fun y => { y with half := some d })
      else if authMatches d x then takeDesc s p q d (some x) 2
      else takeDesc s p q d none 1
    | none => modSq s p q.val (fun y => { y with half := some d })
  else takeDesc s p q d none 1

/-- A slot of an SQ that is fetched. A slot that follows an authorised first slot and is not its AUTH_EXT makes that one BAD_DESCRIPTOR, and is
then judged itself (R306). -/
def takeFetched (s : State) (p : Port) (q : Fin 16) (d : BitVec 512) (x : Option (BitVec 512)) : State :=
  match (sqOf s p q.val).half with
  | some first =>
    if sqWaiting (sqOf s p q.val) < 2 then s
    else if authMatches first d then takeDesc s p q first (some d) 2
    else takeFirst (takeDesc s p q first none 1) p q d x
  | none => takeFirst s p q d x

/-- A slot of an SQ whose turn it is (R320). -/
def takeSlot (s : State) (p : Port) (q : Fin 16) (d : BitVec 512) (x : Option (BitVec 512)) : State :=
  if sqServed s p q then takeFetched (passTurn s p q) p q d x else s

/-- A class row: the ring lane takes a slot of that class (R304, R311). -/
def takeClass (s : State) (p : Port) (q : Fin 16) (d : BitVec 512) (x : Option (BitVec 512)) (c : Nat) : State :=
  if dClass d = c then takeSlot s p q d x else s

/-- DESCRIPTOR_FETCH (R311). -/
def execDescriptorFetch (p : Port) (q : Fin 16) (desc : BitVec 512) (second : Option (BitVec 512)) (s : State) :
    Host.Outcome State Fault Refusal := .next (takeSlot s p q desc second)

/-- ROUTE_REQUEST (R314). -/
def execRouteRequest (p : Port) (q : Fin 16) (desc : BitVec 512) (s : State) : Host.Outcome State Fault Refusal :=
  .next (takeClass s p q desc none 0x01)

/-- ROUTE_CANCEL (R314). -/
def execRouteCancel (p : Port) (q : Fin 16) (desc : BitVec 512) (s : State) : Host.Outcome State Fault Refusal :=
  .next (takeClass s p q desc none 0x02)

/-- ELEMENT_COMMAND (R314). -/
def execElementCommand (p : Port) (q : Fin 16) (desc : BitVec 512) (s : State) : Host.Outcome State Fault Refusal :=
  .next (takeClass s p q desc none 0x03)

/-- STATION_ADMIT (R240, R314). -/
def execStationAdmit (p : Port) (q : Fin 16) (desc : BitVec 512) (s : State) : Host.Outcome State Fault Refusal :=
  .next (takeClass s p q desc none 0x04)

/-- IMAGE_READ (R305, R314). -/
def execImageRead (p : Port) (q : Fin 16) (desc : BitVec 512) (s : State) : Host.Outcome State Fault Refusal :=
  .next (takeClass s p q desc none 0x10)

/-- CELLAR_READ (R414), with the copies found bad as it is served. -/
def execCellarRead (p : Port) (q : Fin 16) (x : CellarFetch) (s : State) : Host.Outcome State Fault Refusal :=
  let c := s.cellar
  let s1 := { s with cellar := { c with bad0 := (c.bad0 ++ x.bad0).eraseDups, bad1 := (c.bad1 ++ x.bad1).eraseDups } }
  .next (takeClass s1 p q x.desc none 0x11)

/-- CELLAR_CLEAR (R415): it acts at the tick of its batch. -/
def execCellarClear (p : Port) (q : Fin 16) (desc second : BitVec 512) (s : State) : Host.Outcome State Fault Refusal :=
  .next (takeClass s p q desc (some second) 0x12)

/-- RACK (R435): it is checked at the end of the RAA work of its batch's cycle. -/
def execRack (p : Port) (q : Fin 16) (desc second : BitVec 512) (s : State) : Host.Outcome State Fault Refusal :=
  .next (takeClass s p q desc (some second) 0x22)

/-- CONFIRM_PARAMETERS (R481): it acts at the tick of its batch. -/
def execConfirmParameters (p : Port) (q : Fin 16) (desc second : BitVec 512) (s : State) :
    Host.Outcome State Fault Refusal := .next (takeClass s p q desc (some second) 0x23)

/-- TIME_SET (R477): it acts at the tick of its batch. -/
def execTimeSet (p : Port) (q : Fin 16) (desc : BitVec 512) (s : State) : Host.Outcome State Fault Refusal :=
  .next (takeClass s p q desc none 0x24)

/-- FENCE (R319). -/
def execFence (p : Port) (q : Fin 16) (desc : BitVec 512) (s : State) : Host.Outcome State Fault Refusal :=
  .next (takeClass s p q desc none 0x30)

/-- AUTH_EXT (R306): the second slot of an authorised descriptor, or a slot that follows anything else. -/
def execAuthExt (p : Port) (q : Fin 16) (desc : BitVec 512) (s : State) : Host.Outcome State Fault Refusal :=
  .next (takeClass s p q desc none 0x3F)

end Sys2Proof.Machine
end

