-- ==== Sys2Proof/WellFormed.lean ====
section
/-!
DEFINITION. Well-formed commands: operands within the ranges that the rules give their fields. A Press word outside them still has
a meaning, the Press fault of R95.
-/

namespace Sys2Proof

open Sys2Proof.Machine

/-- A frame's LENGTH is that of its payload, at most 1,024 and a multiple of 4 (R212). -/
def Frame.wf (f : Frame) : Bool :=
  decide (f.length.toNat = f.payload.length) && decide (f.payload.length ≤ 1024) && decide (f.payload.length % 4 = 0)

/-- The field die reports a current for each of its 16 outputs (R256). -/
def FieldReadings.wf (m : FieldReadings) : Bool := decide (m.current.length = 16)

/-- A staging chunk brings as many bytes as its LENGTH says (R305). -/
def chunkWf (d : BitVec 512) (data : List Byte) : Bool := decide (data.length = dget d 0x20 4)

/-- What an image holds apart from its published bytes, or the verdict on a signature, comes with the last chunk alone (R429, R447). -/
def lastWf (d : BitVec 512) (present : Bool) : Bool := !present || decide (dget d 0x24 1 = 1)

/-- An access lies on 4 bytes, and in BAR2 comes through a port (R295, R299). -/
def RegPlace.wf (a : RegAccess) : RegPlace → Bool
  | .window o => decide (o.toNat % 4 = 0)
  | .bar2 o => a.port.isSome && decide (o.toNat % 4 = 0)

/-- A recovery image is at most 8 MB long (R454). -/
def FwImage.wf (i : FwImage) : Bool := decide (i.data.length ≤ 8388608)

/-- The command is well-formed. -/
def Instr.wf : Instr → Bool
  | .ld w sp | .ldn w sp | .andBit w sp | .andnBit w sp | .orBit w sp | .ornBit w sp | .xorBit w sp => bitLegal sp (opnd w)
  | .st w sp | .setBit w sp | .rstBit w sp => bitLegal sp (opnd w) && bitWritable sp
  | .edgp w | .edgn w | .lw w | .sw w | .add w | .sub w | .cmpeq w | .cmpge w | .cmplt w | .wand w | .wor w => lowOperand 16 w
  | .ton w | .tof w | .tp w | .trs w | .tld w | .rsld w => lowOperand 14 w
  | .ctu w | .ctd w | .crs w | .cld w | .cacc w => lowOperand 13 w
  | .li _ => true
  | .lih w => lowOperand 10 w
  | .xld w => lowOperand 17 w
  | .satt w | .nop w | .openBranch w | .ret w | .endStrand w => lowOperand 0 w
  | .closeBranch w => decide (opnd w < 5)
  | .jmp w | .jmpc w | .jmpn w | .call w => decide (opnd w < 655360)
  | .bar w => lowOperand 8 w
  | .rreq w | .rcan w => lowOperand 14 w
  | .ecmd w => decide (opnd w / 0x10000 ≤ 6)
  | .sync x | .coldStart x | .delayReq x | .stationIn _ _ x | .peer _ _ x | .twin _ x => x.frame.wf
  | .delayResp _ _ f => f.wf
  | .crossingRefresh m => m.wf
  | .onTestEnd _ driven _ _ => decide (driven ≤ 20)
  | .registerWrite a o _ => o.wf a
  | .routeRequest _ _ d => decide (dClass d = 0x01)
  | .routeCancel _ _ d => decide (dClass d = 0x02)
  | .elementCommand _ _ d => decide (dClass d = 0x03)
  | .stationAdmit _ _ d => decide (dClass d = 0x04)
  | .imageRead _ _ d => decide (dClass d = 0x10)
  | .cellarRead _ _ x => decide (dClass x.desc = 0x11)
  | .cellarClear _ _ d x => decide (dClass d = 0x12) && decide (dClass x = 0x3F)
  | .stageProgram _ _ d data im => decide (dClass d = 0x20) && chunkWf d data && lastWf d im.isSome
  | .stageFirmware _ _ d x data im =>
    decide (dClass d = 0x21) && decide (dClass x = 0x3F) && chunkWf d data && lastWf d im.isSome
  | .rack _ _ d x => decide (dClass d = 0x22) && decide (dClass x = 0x3F)
  | .confirmParameters _ _ d x => decide (dClass d = 0x23) && decide (dClass x = 0x3F)
  | .timeSet _ _ d => decide (dClass d = 0x24)
  | .fence _ _ d => decide (dClass d = 0x30)
  | .authExt _ _ d => decide (dClass d = 0x3F)
  | .updRomStart _ i | .servicePortRomImage _ i => i.wf
  | .resetRelease _ | .vdd3v3Reset | .rail3v3Warn _ | .v3WarnRelease | .coreRailWarn _ _ | .coreWarnRelease _ | .coreRailReset _
  | .ioAnaReset | .resetNLow | .clockLoss _ | .clockRestored _ | .fwWatchdog _ | .eccUncorrectable _ | .perstN _ | .linkDown _
  | .linkUp _ _ | .holdExpired _ | .bootFailed _ | .firmwareStart _ | .laneTestDone _ _ _ | .bootLimit | .tick | .endInput
  | .endLogic | .endVote | .endOutput | .barRelease _ _ | .rreqDecision _ | .rcanDecision _ | .callA _ | .callB _ | .blockElem _
  | .unblockElem _ | .virtualSet _ | .virtualClear _ | .resetFault _ | .reProof _ | .overlapRelease _ _ | .cancelRelease _ _
  | .setTimeout _ _ | .moveFault _ _ | .vote _ | .uncaused _ | .checkBlock _ _ | .voteDigest _ | .overrun _ | .watchdog _ _
  | .linkTimeout _ | .resetLine _ _ | .laneSwitchTest _ | .switchTestReadback _ _ | .laneSwitchCloseTest _ _ _
  | .reinitialisation _ _ | .laneSync _ | .stateTransfer _ | .transferVerified _ _ | .catchUp _ _ _ | .laneJoin _
  | .retirementClear _ _ | .composeFrame _ _ _ | .leftSync | .backupSync _ | .listenTimeout _ | .silentTimeout | .coldStartT0
  | .corruptFrame _ _ | .stationDropped _ _ | .peerTimeout _ _ | .sessionClear _ _ | .mediumWithdrawn _ _ _ | .mediumReturned _ _
  | .mediumClear _ _ _ | .los _ _ _ _ | .downstreamRefresh _ _ _ | .upstreamRefresh _ _ | .fieldTick | .fieldStreamLost _
  | .localLost _ | .localRecovered _ | .crossingRecovered | .moduleStop | .fieldFault _ | .fieldFaultClear _ | .fieldDieStop
  | .inputSample _ | .pairFault _ | .testPulse _ _ _ | .tpRecovered _ | .counterEdge _ _ | .offTest _ | .offTestEnd _ _ _
  | .onTest _ | .terminalHighOff _ | .overload _ _ | .short _ | .overTemp _ | .overloadRetry _ _ | .tripCountReset _
  | .openWire _ | .loadOkReturn _ | .outputRetireClear _ _ | .vfMeasure _ _ | .vfLatch _ | .vfRecovered _
  | .peerAccessTimeout _ _ _ | .sqTailDoorbell _ _ _ | .cqHeadDoorbell _ _ _ | .ringEnable _ _ _ _ | .ringDisable _ _ _
  | .descriptorFetch _ _ _ _ | .vintageStaged _ _ | .imageBuildDone _ _ _ | .vintageSwitch _ | .previousExpired
  | .completionWrite _ | .coalesceExpiry _ _ | .dmaError _ _ | .dmaTimeout _ _ | .takeover | .handoverRequest _ | .handover
  | .loadStart | .loadFail | .loadRetry | .loadRestart _ | .eventArrival _ _ | .fallbackMove _ _ | .eicClaim _ _
  | .eicComplete _ _ _ | .eicEnableSet _ _ _ | .eicEnableClr _ _ _ | .eicPendingSet _ _ _ | .eicPendingClr _ _ _
  | .eicTargetH0Set _ _ _ | .eicTargetH0Clr _ _ _ | .eicTargetH1Set _ _ _ | .eicTargetH1Clr _ _ _ | .eicCompatPend _ _ _
  | .eicOvfClr _ _ _ | .laneLogicPeak _ | .laneRaaPeak _ | .prsStackPeak _ | .raaHoldoverPeak _ | .chkLoadPeak _
  | .celStagePeak _ | .chkInit _ _ | .chkClose _ _ _ | .chkURun _ _ _ _ | .chkUCtrl _ _ _ | .engineSelfCheck _ _
  | .networkMismatch _ | .flush _ _ _ _ | .bistDue _ | .bistStart _ | .bistEnd _ _ _ | .bistOverdue _ | .bistRequest _ _ _
  | .keyInstall _ _ _ | .restart _ _ | .romImageWritten _ _ | .fieldDieStart | .firmwareSelfCheck _
  | .unalignedAccess _ _ _ => true

end Sys2Proof
end

