-- ==== Sys2Proof/Decode.lean ====
section
/-!
DEFINITION. The command that a word of a strand's segment spells by R93 to R108, and the command that a word spells by the bits of
spec/opcode_table.json: no row of the table gives bits, so there it spells none.
-/

namespace Sys2Proof

/-- The word that strand i of lane l fetches, as OPCODE, STRAND and OPERAND (R93). -/
def fetched (l : Lane) (i : Fin 4) (w : Word) : PressWord :=
  { lane := l, strand := i, opcode := BitVec.ofNat 8 (Machine.field w 31 24), field := BitVec.ofNat 2 (Machine.field w 23 22), operand := w.setWidth 22 }

/-- The bit instruction with operation code op and space code sp (R96). -/
def bitCommand (op : Nat) (sp : BitVec 4) (p : PressWord) : Option Instr :=
  match op with
  | 0x0 => some (.ld p sp)
  | 0x1 => some (.ldn p sp)
  | 0x2 => some (.andBit p sp)
  | 0x3 => some (.andnBit p sp)
  | 0x4 => some (.orBit p sp)
  | 0x5 => some (.ornBit p sp)
  | 0x6 => some (.xorBit p sp)
  | 0x7 => some (.st p sp)
  | 0x8 => some (.setBit p sp)
  | 0x9 => some (.rstBit p sp)
  | _ => none

/-- The edge, timer and counter instructions (R97). -/
def timerCommand (opc : Nat) (p : PressWord) : Option Instr :=
  match opc with
  | 0xA0 => some (.edgp p)
  | 0xA1 => some (.edgn p)
  | 0xB0 => some (.ton p)
  | 0xB1 => some (.tof p)
  | 0xB2 => some (.tp p)
  | 0xB3 => some (.trs p)
  | 0xC0 => some (.ctu p)
  | 0xC1 => some (.ctd p)
  | 0xC2 => some (.crs p)
  | 0xC3 => some (.cld p)
  | _ => none

/-- The word instructions (R103). -/
def wordCommand (opc : Nat) (p : PressWord) : Option Instr :=
  match opc with
  | 0xD0 => some (.lw p)
  | 0xD1 => some (.sw p)
  | 0xD2 => some (.li p)
  | 0xD3 => some (.lih p)
  | 0xD4 => some (.add p)
  | 0xD5 => some (.sub p)
  | 0xD6 => some (.cmpeq p)
  | 0xD7 => some (.cmpge p)
  | 0xD8 => some (.cmplt p)
  | 0xD9 => some (.wand p)
  | 0xDA => some (.wor p)
  | 0xDB => some (.tld p)
  | 0xDC => some (.cacc p)
  | 0xDD => some (.xld p)
  | 0xDE => some (.rsld p)
  | 0xDF => some (.satt p)
  | _ => none

/-- The flow instructions and the calls into the RAA (R104, R108). -/
def flowCommand (opc : Nat) (p : PressWord) : Option Instr :=
  match opc with
  | 0xE0 => some (.nop p)
  | 0xE1 => some (.openBranch p)
  | 0xE2 => some (.closeBranch p)
  | 0xE3 => some (.jmp p)
  | 0xE4 => some (.jmpc p)
  | 0xE5 => some (.jmpn p)
  | 0xE6 => some (.call p)
  | 0xE7 => some (.ret p)
  | 0xE8 => some (.bar p)
  | 0xE9 => some (.endStrand p)
  | 0xF0 => some (.rreq p)
  | 0xF1 => some (.rcan p)
  | 0xF2 => some (.ecmd p)
  | _ => none

/-- The command that a fetched word spells by its OPCODE (R93); none: no table lists the opcode. -/
def listedCommand (l : Lane) (i : Fin 4) (w : Word) : Option Instr :=
  let p := fetched l i w
  let opc := Machine.field w 31 24
  match bitCommand (opc / 16) (BitVec.ofNat 4 opc) p with
  | some c => some c
  | none => match timerCommand opc p with
    | some c => some c
    | none => match wordCommand opc p with
      | some c => some c
      | none => flowCommand opc p

/-- The command of a fetched word: the row of its OPCODE; a word whose OPCODE no table lists is illegal under any row (R95), here
under that of NOP. -/
def pressCommand (l : Lane) (i : Fin 4) (w : Word) : Instr :=
  match listedCommand l i w with
  | some c => c
  | none => .nop (fetched l i w)

/-- No row of the opcode table gives bits, so no word spells a command. -/
def decodeTableWord (_nbits _w : Nat) : Option Instr := none

end Sys2Proof
end

