-- ==== Sys2Proof/Machine/HostRings.lean ====
section
/-!
DEFINITION. The host ports: rings and doorbells (R300 to R302), the batch close (R311, R313, R340), completions (R315 to R320),
link loss (R322), DMA failures (R321), fences and interrupts (R319, R324).
-/

namespace Sys2Proof.Machine

/-! ### Doorbells and rings -/

/-- The doorbell register's value bits (R329). -/
def doorIndex (v : Word) : BitVec 12 := v.setWidth 12

/-- An ignored doorbell (R302, R328). -/
def countDoorbell (s : State) (p : Port) : State := modPort s p (fun x => { x with doorbellErr := satInc x.doorbellErr })

/-- SQ_TAIL_DOORBELL (R302); with the link down it does not reach the module (R322), and during logic BIST and the march of the ring lane
the port takes no access (R466). -/
def execSqTailDoorbell (p : Port) (q : Fin 16) (value : Word) (s : State) : Host.Outcome State Fault Refusal :=
  .next (
    if !(s.ports.get p).linkUp || portSilent s p then s
    else
      let r := sqOf s p q.val
      if !r.enabled || decide ((doorIndex value).toNat ≥ ringSize r) then countDoorbell s p
      else modSq s p q.val (fun x => { x with tail := doorIndex value }))

/-- CQ_HEAD_DOORBELL (R302, R320). -/
def execCqHeadDoorbell (p : Port) (q : Fin 16) (value : Word) (s : State) : Host.Outcome State Fault Refusal :=
  .next (
    if !(s.ports.get p).linkUp || portSilent s p then s
    else
      let r := cqOf s p q.val
      if !r.enabled || decide ((doorIndex value).toNat ≥ ringSize r) then countDoorbell s p
      else modCq s p q.val (fun x => { x with head := doorIndex value }))

/-- SQ_HALTED in the ring lane (R364). -/
def sqHalted (s : State) (p : Port) : State := eicRaise s p.ringLane (100 + p.idx)

/-- The fields of MBX_RING_CTRL for one kind of ring (R327). -/
def ringFields (kind : RingKind) (ctrl : Word) (r : Ring) : Ring :=
  let co := min (field ctrl 25 16) 1000
  match kind with
  | .sq => { r with sizeLog2 := BitVec.ofNat 4 (field ctrl 7 4), cq := BitVec.ofNat 4 (field ctrl 11 8) }
  | .cq => { r with sizeLog2 := BitVec.ofNat 4 (field ctrl 7 4), irqEn := ctrl.getLsbD 12, coalesce := BitVec.ofNat 10 co }

/-- SIZE_LOG2 is within R300. -/
def sizeOk (ctrl : Word) : Bool := decide (4 ≤ field ctrl 7 4) && decide (field ctrl 7 4 ≤ 12)

/-- A ring is enabled: head and tail 0 (R301). A vector still due for what was written before stays due (R324). -/
def ringOn (r : Ring) (halt : HaltCause) : Ring :=
  { r with enabled := true, head := 0, tail := 0, halt := halt, kept := false, fenced := none, half := none
           phase := true, epoch := r.epoch + 1 }

/-- RING_ENABLE (R301, R327): a size outside R300 keeps ENABLE at 0; an SQ whose CQ is not enabled halts with SETUP. -/
def execRingEnable (p : Port) (kind : RingKind) (q : Fin 16) (ctrl : Word) (s : State) :
    Host.Outcome State Fault Refusal :=
  .next (
    if !ringRuns s p || portSilent s p then s
    else match kind with
      | .sq =>
        if (sqOf s p q.val).enabled then s
        else
          let s1 := modSq s p q.val (ringFields .sq ctrl)
          if !sizeOk ctrl then s1
          else
            let setup := !(cqOf s p (field ctrl 11 8)).enabled
            let s2 := modSq s1 p q.val (fun r => ringOn r (if setup then .setup else .none))
            let s3 := modPort s2 p (fun x => { x with holdExpired := false })
            if setup then sqHalted s3 p else s3
      | .cq =>
        if (cqOf s p q.val).enabled then s
        else
          let s1 := modCq s p q.val (ringFields .cq ctrl)
          if !sizeOk ctrl then s1
          else modPort (modCq s1 p q.val (fun r => ringOn r .none)) p (fun x => { x with holdExpired := false }))

/-- Descriptors of a port that satisfy a test and have not joined a batch, with their slots, over all lanes. DESIGN CHOICE (log entry 71):
a resubmission that waits for its original is among them, also where the original is in a batch: it ends ABORTED with REPLAY 1 and makes
no ledger entry. -/
def unbatched (s : State) (f : Taken → Bool) : List (HostRef × BitVec 512) :=
  (Lane.list.flatMap (fun l => ((lane s l).mbx.taken.filter (fun t => f t && !t.inBatch)).map (fun t => (t.ref, t.desc)))).eraseDups

/-- They complete with ABORTED (R301, R322). -/
def abortAll (s : State) (f : Taken → Bool) : State :=
  foldS (unbatched s f) (fun s e => finishAll s e.1 (aborted e.1 e.2)) s

/-- An SQ stops fetching and what it has not brought into a batch is aborted (R301). -/
def disableSq (s : State) (p : Port) (q : Nat) (halt : HaltCause) : State :=
  let s1 := abortAll s (fun t => decide (t.ref.port = p) && decide (t.ref.sq.val = q))
  modSq s1 p q (fun r => { r with enabled := false, halt := halt, kept := false, fenced := none, half := none })

/-- RING_DISABLE (R301): disabling a CQ halts every SQ bound to it with cause SETUP. -/
def execRingDisable (p : Port) (kind : RingKind) (q : Fin 16) (s : State) : Host.Outcome State Fault Refusal :=
  .next (
    if !ringRuns s p || portSilent s p then s
    else match kind with
      | .sq => if (sqOf s p q.val).enabled then disableSq s p q.val .none else s
      | .cq =>
        if !(cqOf s p q.val).enabled then s
        else
          let s1 := modCq s p q.val (fun r => { r with enabled := false })
          foldS (List.range 16) (fun s i =>
            let r := sqOf s p i
            if r.enabled && decide (r.cq.toNat = q.val) && decide (r.halt ≠ .setup) then
              sqHalted (modSq s p i (fun r => { r with halt := .setup })) p
            else s) s1)

/-! ### Link (R322, R503) -/

/-- The port's link is down: rings stay enabled (R322), and LINK_DOWN asserts in the ring lane (R364). -/
def portDown (s : State) (p : Port) : State :=
  eicLevel (modPort s p (fun x => { x with linkUp := false, speed := 0 })) p.ringLane (102 + p.idx) true

/-- LINK_DOWN (R295, R322): the link goes down, or the endpoint enters D3hot and the port counts as link down. -/
def execLinkDown (x : PortLoss) (s : State) : Host.Outcome State Fault Refusal :=
  .next (portDown (modPort s x.port (fun y => { y with d3hot := x.d3hot })) x.port)

/-- PERST_N (R503): the endpoint is held in reset, its MSI-X table with it, and the port counts as link down. -/
def execPerstN (p : Port) (s : State) : Host.Outcome State Fault Refusal :=
  .next (portDown (modPort s p (fun x => { x with
    perst := true, d3hot := false, msixWords := [], msixOpen := 0, pba := 0, devErr := 0, aerUncorrectable := 0
    aerCorrectable := 0 })) p)

/-- LINK_UP (R322, R326, R374): only while the ring lane serves the port (R296); speed 0 stands for no link. -/
def execLinkUp (p : Port) (speed : BitVec 2) (s : State) : Host.Outcome State Fault Refusal :=
  .next (
    if !ringRuns s p || decide (speed = 0) then s
    else
      let s1 := modPort s p (fun x => { x with linkUp := true, speed := speed, perst := false, d3hot := false })
      let s2 := eicLevel s1 p.ringLane (102 + p.idx) false
      modLanes s2 (fun _ L => { L with eic := { L.eic with moving := L.eic.moving.set p false } }))

/-- HOLD_EXPIRED (R322): every ring is disabled, descriptors not in a batch are aborted, and no completion is written. DESIGN CHOICE (log
entry 70): an SQ then shows RUN halted with HALT LINK_HOLD and ENABLE 0, a CQ shows RUN disabled (R327). -/
def execHoldExpired (p : Port) (s : State) : Host.Outcome State Fault Refusal :=
  .next (
    if (s.ports.get p).linkUp || !ringRuns s p then s
    else
      let mine := fun (t : Taken) => decide (t.ref.port = p)
      let n := (unbatched s mine).length
      let s1 := abortAll s mine
      let s2 := modPort s1 p (fun x => { x with
        holdExpired := true
        sqs := smap Ring.reset (fun r =>
          if r.enabled then { r with enabled := false, halt := .linkHold, kept := false, fenced := none, half := none }
          else r) x.sqs
        cqs := smap Ring.reset (fun r => { r with enabled := false }) x.cqs })
      eventLane s2 p.ringLane (104 + p.idx) 0x0502 (le 1 p.idx ++ le 3 0 ++ le 4 n))

/-! ### DMA failures (R321) -/

/-- The staging descriptor of the SQ whose data the port is moving (R314, R393). -/
def movingData (s : State) (p : Port) (q : Nat) : Option Taken :=
  match firstUnfed s p q with
  | some t => if t.started && decide (t.data = none) then some t else none
  | none => none

/-- The data of a staging descriptor feeds the user contexts of every lane that receives it (R393). -/
def feedStage (s : State) (t : Taken) (whole : Bool) (bs : List Byte) : State :=
  foldS (stageLanes s t) (fun s l =>
    feedUsers s l t.ref.port t.ref.sq.val t.ref.cls.toNat (decide (dget t.desc 0x24 1 = 1)) whole bs) s

/-- The reference lane's staged bank, which stands for all that keep the staging. -/
def refBank (s : State) : Bank := (lane s (refLane s)).bank

/-- The lane that a firmware chunk names (R305). -/
def fwLane (d : BitVec 512) : Lane := if dget d 0x18 1 = 1 then .A else if dget d 0x18 1 = 2 then .B else .C

/-- Bytes that the staging of a descriptor has taken so far (R315, R431, R448). -/
def stageTaken (s : State) (t : Taken) : Nat :=
  if t.ref.cls = 0x20 then (refBank s).bytes else (lane s (fwLane t.desc)).boot.deltaBytes

/-- A failed data transfer completes its descriptor with HOST_FAULT, the bytes taken so far and reason 0; its user contexts take the bytes that
it moved and are marked incomplete (R315, R321, R393, R395). -/
def dataFailed (s : State) (t : Taken) (bs : List Byte) : State :=
  finishAll (feedStage s t false bs) t.ref (outcomeNow s 0x3E (resultOf t.ref 5 (stageTaken s t)))

/-- An SQ that runs halts with cause DMA (R321). -/
def haltDma (s : State) (p : Port) (q : Nat) : State :=
  if (sqOf s p q).enabled then sqHalted (modSq s p q (fun r => { r with halt := .dma, half := none })) p else s

/-- A DMA read of an SQ fails or gets no answer: the SQ halts, and where the read was one of staging data, its descriptor ends, also when
its SQ has been disabled meanwhile (R301, R321). -/
def dmaFailed (s : State) (p : Port) (q : Nat) (ofData : Bool) : State :=
  if !ringRuns s p then s
  else if !ofData then haltDma s p q
  else match movingData s p q with
    | some t => beginFeed (dataFailed (haltDma s p q) t []) p q
    | none => s

/-- DMA_ERROR (R321): of a descriptor fetch, or of staging data. -/
def execDmaError (p : Port) (x : DmaRead) (s : State) : Host.Outcome State Fault Refusal :=
  .next (dmaFailed s p x.sq.val x.ofData)

/-- The endpoint reports a read without an answer: a completion timeout, non-fatal (R295; log entry 85). -/
def noteTimeout (s : State) (p : Port) : State :=
  if ringRuns s p then
    modPort s p (fun x => { x with devErr := vput x.devErr 1 true, aerUncorrectable := vput x.aerUncorrectable 14 true })
  else s

/-- DMA_TIMEOUT (R295, R321): of a descriptor fetch, or of staging data. -/
def execDmaTimeout (p : Port) (x : DmaRead) (s : State) : Host.Outcome State Fault Refusal :=
  .next (dmaFailed (noteTimeout s p) p x.sq.val x.ofData)

/-! ### The batch close (R311, R313, R340) -/

/-- Entry words a command takes in the twin slot (R339). -/
def entryWords (c : Nat) : Nat := if isProcess c then 1 else if c = 0x24 then 2 else if c = 0x22 then 3 else 0

/-- Entry words a port may bring into a batch (R340). -/
def wordLimit (s : State) (p : Port) : Nat :=
  match p with
  | .p0 => if s.twin.loadRun then 6 else 22
  | .p1 => if s.twin.loadRun then 5 else 21

/-- What the batch holds while it is filled: RAA entries placed, process commands and entry words by port, SQs that have
kept a descriptor, and the descriptors that joined. -/
structure BatchFill where
  placed : Nat
  commands : PerPort Nat
  words : PerPort Nat
  kept : List (Port × Nat)
  joined : List HostRef
deriving DecidableEq, Repr

/-- A descriptor joins the batch or is kept (R313, R340). -/
def batchStep (s : State) (b : BatchFill) (t : Taken) : BatchFill :=
  let c := t.ref.cls.toNat
  let p := t.ref.port
  let raa := isProcess c && decide (c ≠ 4)
  let fits := !b.kept.contains (p, t.ref.sq.val) &&
    (!isProcess c || decide (b.commands.get p < 1024)) && (!raa || decide (b.placed < 4096)) &&
    (!twinOn s || decide (b.words.get p + entryWords c ≤ wordLimit s p))
  if fits then
    { b with placed := b.placed + bit raa, commands := b.commands.set p (b.commands.get p + bit (isProcess c))
             words := b.words.set p (b.words.get p + entryWords c), joined := b.joined ++ [t.ref] }
  else { b with kept := (p, t.ref.sq.val) :: b.kept }

/-- Descriptors that wait for a batch, in the order of R130: port, ring, ring order. -/
def batchOrder (L : LaneState) : List Taken :=
  [Port.p0, Port.p1].flatMap (fun p => (List.range 16).flatMap (fun q => L.mbx.taken.filter (fun t =>
    decide (t.ref.port = p) && decide (t.ref.sq.val = q) && isChecked t.ref.cls.toNat && !t.inBatch && !t.replay)))

/-- The batch of one lane (R311, R313). -/
def batchOf (s : State) (l : Lane) : BatchFill :=
  let L := lane s l
  (batchOrder L).foldl (batchStep s) { placed := placedNext L, commands := ⟨0, 0⟩, words := ⟨0, 0⟩, kept := [], joined := [] }

/-- END_LOGIC closes the batch of the next cycle in every running lane; a ring lane keeps what does not fit (R311, R313). DESIGN CHOICE
(log entry 72): the batch of a port whose ring lane is in reset, and so sends no mark, closes in the other lanes at END_LOGIC all the same. -/
def batchClose (s : State) : State :=
  foldS (Lane.list.filter (runs s)) (fun s l =>
    let b := batchOf s l
    let s1 := modLane s l (fun L => { L with mbx := { L.mbx with
      taken := L.mbx.taken.map (fun t => if b.joined.contains t.ref then { t with inBatch := true } else t) } })
    match ringPort l with
    | none => s1
    | some p => modPort s1 p (fun x => { x with
        sqs := x.sqs.foldl (fun m e => sput Ring.reset m e.1 { e.2 with kept := b.kept.contains (p, e.1) }) [] })) s

/-! ### Completions (R315 to R320, R324) -/

/-- The 64 bytes of a completion (R315). -/
def completionBits (s : State) (p : Port) (c : Completion) (phase : Bool) : BitVec 512 :=
  let head := (sqOf s p c.ref.sq.val).head
  let body := c.ref.cls.toNat + (bit phase + 2 * bit c.replay + 4 * bit c.consumed) * 2 ^ 8 + c.ref.tag.toNat * 2 ^ 16 +
    c.epoch.toNat * 2 ^ 32 + c.ref.sq.val * 2 ^ 48 + c.status.toNat * 2 ^ 56 + c.ref.sequence.toNat * 2 ^ 64 +
    head.toNat * 2 ^ 96 + c.term.toNat * 2 ^ 112 + c.cycle.toNat * 2 ^ 128 + c.time.toNat * 2 ^ 192 +
    c.result.toNat * 2 ^ 256
  BitVec.ofNat 512 (body + slotCode (hostSid s p) (BitVec.ofNat 512 body) * 2 ^ 448)

/-- The CQ has stayed enabled since the descriptor was taken (R301). -/
def cqContinuous (s : State) (c : Completion) : Bool :=
  let r := cqOf s c.ref.port c.ref.cq.val
  r.enabled && decide (r.epoch = c.cqEpoch)

/-- Lanes, not counting a retired one, that have composed the completion (R316). -/
def composers (s : State) (c : Completion) : Nat :=
  (Lane.list.filter (fun l => runs s l && decide (lst s l ≠ .retired) && (lane s l).mbx.composed.contains c)).length

/-- Completions of process commands, and of RACK, are written from the output phase of their cycle (R58, R316, R435, R439). -/
def completionDue (s : State) (c : Completion) : Bool :=
  !(isProcess c.ref.cls.toNat || decide (c.ref.cls = 0x22)) || decide (c.cycle ≠ s.mod.cycle) || decide (s.mod.phase = .output) ||
  decide (s.mod.phase = .idle)

/-- The completion may be written (R316, R320). -/
def completionReady (s : State) (p : Port) (c : Completion) : Bool :=
  decide (c.ref.port = p) && cqContinuous s c && !cqFull (cqOf s p c.ref.cq.val) && completionDue s c &&
  (if isChecked c.ref.cls.toNat then decide (composers s c ≥ 2) else (ringMbx s p).composed.contains c)

/-- Remove completions from every lane. -/
def dropCompletions (s : State) (f : Completion → Bool) : State :=
  modLanes s (fun _ L => { L with mbx := { L.mbx with composed := L.mbx.composed.filter (fun c => !f c) } })

/-- The next completion that the port writes: those of process commands first (R320). -/
def nextCompletion (s : State) (p : Port) : Option Completion :=
  let all := Lane.list.flatMap (fun l => (lane s l).mbx.composed)
  match all.find? (fun c => isProcess c.ref.cls.toNat && completionReady s p c) with
  | some c => some c
  | none => all.find? (completionReady s p)

/-- Counts, events and records of a written completion (R317, R328, R364, R404). -/
def countCompletion (s : State) (p : Port) (c : Completion) : State :=
  let st := c.status.toNat
  let s1 := whenS (decide (st ≥ 0x30)) (fun s => modLife s (fun f => { f with refuse := f.refuse.set p (satInc (f.refuse.get p)) })) s
  if st = 0x30 then
    let s2 := modLife s1 (fun f => { f with stale := f.stale.set p (satInc (f.stale.get p)) })
    eventLane s2 p.ringLane (96 + p.idx) 0x0501 (le 1 p.idx ++ le 1 c.ref.sq.val ++ le 2 c.ref.tag.toNat ++
      le 2 c.ref.epoch.toNat ++ le 2 (epochNow s).toNat)
  else if st = 0x35 ∨ st = 0x36 then
    let s2 := modLife s1 (fun f => { f with authFail := f.authFail.set p (satInc (f.authFail.get p)) })
    eventLane s2 p.ringLane (98 + p.idx) 0x0500 (le 1 p.idx ++ le 1 c.ref.sq.val ++ le 2 c.ref.tag.toNat ++ le 1 st ++ le 3 0)
  else s1

/-- The interrupt of a written completion (R324): a message covers every completion written before it. -/
def signalCompletion (s : State) (p : Port) (c : Completion) : State :=
  let r := cqOf s p c.ref.cq.val
  if c.ref.irq && r.irqEn then
    if r.coalesce = 0 then sendVector (modCq s p c.ref.cq.val (fun r => { r with unsignalled := false })) p c.ref.cq.val
    else modCq s p c.ref.cq.val (fun r => { r with unsignalled := true })
  else s

/-- A lane that has not reached the outcome itself, because it does not compute, takes it from the completion that two lanes
have composed (R309, R316). -/
def settleTaken (c : Completion) (L : LaneState) : LaneState :=
  if L.mbx.taken.any (fun t => decide (t.ref = c.ref)) && isChecked c.ref.cls.toNat then
    let L1 := { L with mbx := { L.mbx with taken := L.mbx.taken.filter (fun t => decide (t.ref ≠ c.ref)) } }
    if c.replay then L1
    else ledgerEnd L1 c.ref { status := c.status.toNat, term := c.term.toNat, cycle := c.cycle, time := c.time, result := c.result }
  else L

/-- The completion of the FENCE that its SQ waits for frees the SQ; that of a refused FENCE, or of one taken before the SQ was last
disabled, does not (R319). -/
def freeFence (c : Completion) (r : Ring) : Ring := if r.fenced = some c.ref.order then { r with fenced := none } else r

/-- One completion goes to its CQ (R301, R316). -/
def writeCompletion (s : State) (p : Port) (c : Completion) : State :=
  let r := cqOf s p c.ref.cq.val
  let next := advance r r.tail 1
  let s1 := { s with hostMem := .completion p c.ref.cq r.tail (completionBits s p c r.phase) :: s.hostMem }
  let s2 := modCq s1 p c.ref.cq.val (fun r => { r with tail := next, phase := if next = 0 then !r.phase else r.phase })
  let s3 := modLanes (dropCompletions s2 (fun x => decide (x = c))) (fun _ L => settleTaken c L)
  let s4 := if c.ref.cls = 0x30 then modSq s3 p c.ref.sq.val (freeFence c) else s3
  signalCompletion (countCompletion s4 p c) p c

/-- COMPLETION_WRITE (R316): completions whose CQ has not stayed enabled are not written (R301); then the next one that
is ready is written. -/
def execCompletionWrite (p : Port) (s : State) : Host.Outcome State Fault Refusal :=
  .next (
    if !ringRuns s p || !(s.ports.get p).linkUp || (s.ports.get p).paused then s
    else
      let s1 := dropCompletions s (fun c => decide (c.ref.port = p) && !cqContinuous s c)
      match nextCompletion s1 p with
      | none => fenceCheck s1 p
      | some c => fenceCheck (writeCompletion s1 p c) p)

/-- COALESCE_EXPIRY (R324): the vector of what is not yet signalled. -/
def execCoalesceExpiry (p : Port) (q : Fin 16) (s : State) : Host.Outcome State Fault Refusal :=
  .next (
    if (cqOf s p q.val).unsignalled && (s.ports.get p).linkUp && ringRuns s p then
      sendVector (modCq s p q.val (fun r => { r with unsignalled := false })) p q.val
    else s)

/-! ### Register accesses without a register (R299) -/

/-- PEER_ACCESS_TIMEOUT (R299): a read returns all ones, a write is discarded. -/
def execPeerAccessTimeout (_p : Port) (_l : Lane) (write : Bool) (s : State) : Host.Outcome State Fault Refusal :=
  .next (if write then s else answer s 0xFFFFFFFF)

/-- UNALIGNED_ACCESS (R299): a read answers 0, a write is discarded, and both are counted. -/
def execUnalignedAccess (p : Port) (_l : Lane) (write : Bool) (s : State) : Host.Outcome State Fault Refusal :=
  .next (
    if portSilent s p then (if write then s else noAnswer s)
    else
      let s1 := modPort s p (fun x => { x with accessErr := satInc x.accessErr })
      if write then s1 else answer s1 0)

end Sys2Proof.Machine
end

