-- ==== Sys2Proof/Machine/Unpack.lean ====
section
/-!
DEFINITION. What the bytes of a staged image say (R427, R429, R430, R447): its format, the bank that it unpacks to, the tables at their
places in that bank, the parameter check value; the header of a firmware delta and the image that it builds.
-/

namespace Sys2Proof.Machine

/-- A little-endian field of n bytes in an image. -/
def imageNum (bs : List Byte) (off n : Nat) : Nat := ofLe ((bs.drop off).take n)

/-- Two ranges have no index in common; one of length 0 covers none. -/
def rangesApart (a m b n : Nat) : Bool := decide (m = 0) || decide (n = 0) || decide (a + m ≤ b) || decide (b + n ≤ a)

/-! ### The vintage image (R429) -/

/-- An entry of the section list: BANK_OFFSET, LENGTH, IMAGE_OFFSET. -/
structure Section where
  bank : Nat
  length : Nat
  image : Nat
deriving DecidableEq, Repr

/-- The section list. -/
def sections (bs : List Byte) : List Section :=
  (List.range (imageNum bs 0x28 2)).map (fun i =>
    { bank := imageNum bs (0x40 + 16 * i) 4, length := imageNum bs (0x44 + 16 * i) 4, image := imageNum bs (0x48 + 16 * i) 4 })

/-- No two sections overlap, in the bank or in the image. -/
def sectionsApart : List Section → Bool
  | [] => true
  | x :: r => r.all (fun y => rangesApart x.bank x.length y.bank y.length && rangesApart x.image x.length y.image y.length) &&
    sectionsApart r

/-- Check 2 of R432: MAGIC, LENGTH, 1 to 64 sections inside the image, behind the section list and before the trailer, and inside the 48 MB
of the bank, no two of them overlapping. -/
def formatOk (bs : List Byte) : Bool :=
  let n := imageNum bs 0x28 2
  decide (imageNum bs 0 4 = 0x38405601) && decide (imageNum bs 0x0C 4 = bs.length) && decide (1 ≤ n) && decide (n ≤ 64) &&
  (sections bs).all (fun x => decide (0x40 + 16 * n ≤ x.image) && decide (x.image + x.length + 8 ≤ bs.length) &&
    decide (x.bank + x.length ≤ 0x3000000)) && sectionsApart (sections bs)

/-! ### The bank (R427, R430) -/

/-- A byte of the bank after unpacking: that of the section which covers it, else 0. How the 64 KB of the bank header hold their fields is
not published; no rule reads them. -/
def bankByte (bs : List Byte) (a : Nat) : Byte :=
  match (sections bs).find? (fun x => decide (x.bank ≤ a) && decide (a < x.bank + x.length)) with
  | some x => lget 0 bs (x.image + (a - x.bank))
  | none => 0

/-- Bytes of the bank from an offset. -/
def bankBytes (bs : List Byte) (a n : Nat) : List Byte := (List.range n).map (fun i => bankByte bs (a + i))

/-- The parameter check value (R430): CRC-64/XZ over VINTAGE and the bank bytes from the program image to the parameters. -/
def paramValue (v : Vintage) : BitVec 64 :=
  BitVec.ofNat 64 (crcOf crc64 (le 4 v.number.toNat ++ bankBytes v.image 0x10000 0x1E00000))

/-- Indices of the entries of a table in the bank that some section fills. -/
def filled (xs : List Section) (base size count : Nat) : List Nat :=
  (xs.filter (fun x => decide (x.length ≠ 0))).flatMap (fun x =>
    let lo := (x.bank - base) / size
    let hi := min count ((x.bank + x.length - base + size - 1) / size)
    (List.range (hi - lo)).map (fun i => lo + i))

/-- A table of the bank: an entry whose bytes are all 0 is not in it (DEDUCED, log entry 25). -/
def bankTable {α : Type} [DecidableEq α] (d : α) (f : List Byte → α) (bs : List Byte) (base size count : Nat) : Sparse α :=
  (filled (sections bs) base size count).foldl (fun m i => sput d m i (f (bankBytes bs (base + size * i) size))) []

/-- Words of an entry. -/
def imageWords (bs : List Byte) (off n : Nat) : List Word :=
  (List.range n).map (fun i => BitVec.ofNat 32 (imageNum bs (off + 4 * i) 4))

/-- KIND by its code (R119). -/
def kindAt (n : Nat) : ElemKind :=
  match n with
  | 1 => .track | 2 => .point | 3 => .gate | 4 => .transfer | 5 => .signal | 6 => .virt | _ => .undefined

/-- The element descriptor that 64 bytes spell (R119). -/
def elemAt (bs : List Byte) : ElemDesc :=
  let n := imageNum bs
  { kind := kindAt (n 0 1), flags := BitVec.ofNat 8 (n 1 1), guard := BitVec.ofNat 16 (n 2 2), inA := BitVec.ofNat 32 (n 4 4)
    inB := BitVec.ofNat 32 (n 8 4), moveTimeout := BitVec.ofNat 16 (n 0x0C 2), aspectOut := imageWords bs 0x10 4
    check := BitVec.ofNat 64 (n 0x38 8) }

/-- The route record that 512 bytes spell (R121). -/
def routeAt (bs : List Byte) : RouteRec :=
  let n := imageNum bs
  let w := fun off => BitVec.ofNat 16 (n off 2)
  { route := w 0, flags := w 2, pathGroups := n 5 1, overlapGroups := n 6 1, startSignal := w 8, approach := w 0x0A, exit := w 0x0C
    approachTime := w 0x0E, overlapTime := w 0x10, settingTime := w 0x12, aspect := imageWords bs 0x20 4
    terms := imageWords bs 0x40 (min 96 (n 4 1)), check := BitVec.ofNat 64 (n 0x1F8 8) }

/-- The vintage that an image unpacks to: header and tables are read from its bytes, the program image and the parameters, whose layouts R430
leaves unpublished, are what the parts say (DESIGN CHOICE, log entry 25). -/
def unpack (bs : List Byte) (parts : Vintage) : Vintage :=
  let w := fun off => BitVec.ofNat 32 (imageNum bs off 4)
  { parts with
    image := bs, number := w 0x04, base := w 0x08, paramCheck := BitVec.ofNat 64 (imageNum bs 0x10 8), timingCheck := w 0x18
    localIoCheck := w 0x1C, minFw := w 0x20
    elements := bankTable (elemAt []) elemAt bs 0x1810000 64 65536
    routes := bankTable (routeAt []) routeAt bs 0x1010000 512 16384 }

/-! ### The firmware delta (R447) -/

/-- An entry of the block list. -/
structure DeltaBlock where
  op : Nat
  length : Nat
  source : Nat
deriving DecidableEq, Repr

/-- The block list. -/
def deltaBlocks (bs : List Byte) : List DeltaBlock :=
  (List.range (imageNum bs 0x28 4)).map (fun i =>
    { op := imageNum bs (0x40 + 12 * i) 1, length := imageNum bs (0x44 + 12 * i) 4, source := imageNum bs (0x48 + 12 * i) 4 })

/-- The header of a delta. -/
def deltaAt (bs : List Byte) : FwDelta :=
  let w := fun off => BitVec.ofNat 32 (imageNum bs off 4)
  { oldVersion := w 0x04, oldCheck := BitVec.ofNat 64 (imageNum bs 0x08 8), newVersion := w 0x10
    newCheck := BitVec.ofNat 64 (imageNum bs 0x14 8), newLength := imageNum bs 0x1C 4, floor := w 0x20
    park := decide (imageNum bs 0x24 1 = 1) }

/-- Header and block list of a delta are well formed (R434 FORMAT): MAGIC, MODE, NEW_LENGTH, OPs, DATA inside the payload, lengths that add
up. -/
def deltaFormatOk (bs : List Byte) : Bool :=
  let n := imageNum bs 0x28 4
  let pay := imageNum bs 0x2C 4
  decide (imageNum bs 0 4 = 0x3840DE17) && decide (imageNum bs 0x24 1 ≤ 1) && decide ((deltaAt bs).newLength ≤ 8388608) &&
  decide (0x40 + 12 * n + 72 ≤ bs.length) &&
  (deltaBlocks bs).all (fun x => decide (1 ≤ x.op) && decide (x.op ≤ 3) &&
    (decide (x.op ≠ 2) || (decide (0x40 + 12 * n ≤ pay + x.source) && decide (pay + x.source + x.length + 72 ≤ bs.length)))) &&
  decide (((deltaBlocks bs).map (·.length)).foldl (· + ·) 0 = (deltaAt bs).newLength)

/-- The bytes that a block writes: COPY from the old image, DATA from the payload, FILL. -/
def blockWrites (old bs : List Byte) (x : DeltaBlock) : List Byte :=
  match x.op with
  | 1 => (old.drop x.source).take x.length
  | 2 => (bs.drop (imageNum bs 0x2C 4 + x.source)).take x.length
  | _ => List.replicate x.length (BitVec.ofNat 8 x.source)

/-- The new image: the blocks in order, from its byte 0. -/
def builtImage (old bs : List Byte) : List Byte := (deltaBlocks bs).flatMap (blockWrites old bs)

end Sys2Proof.Machine
end

