-- ==== Sys2Proof/Machine/RaaSteps.lean ====
section
/-!
DEFINITION. The RAA at work in one lane (R129 to R150): decisions from the head of the queue, the re-proof pass with its
releases and limits, the registers that a read clears.
-/

namespace Sys2Proof.Machine

/-- The RAA decides and re-proves: not in STANDBY_LOADING, and only in the logic phase (R54, R354). -/
def raaWorks (s : State) (l : Lane) : Bool :=
  computes s l && decide (s.twin.st ≠ .loading) && decide (s.mod.phase = .logic)

/-- Change the RAA of a lane. -/
def modRaa (s : State) (l : Lane) (f : Raa → Raa) : State := modLane s l (fun L => { L with raa := f L.raa })

/-- An event of Module scope found by every lane alike: raised once, when the lane that stands for all of them finds it. -/
def eventRef (s : State) (l : Lane) (src code : Nat) (payload : List Byte) : State :=
  if l = refLane s then eventAll s src code payload else s

/-! ### Re-proof (R141, R142, R135) -/

/-- A re-proof failure: RAA_PROOF_TOTAL and RAA_LAST_FAIL take every failure; while PROOF_FAILED was 1 already it raises no
further event, and so no further record (R142, R158, R159; DESIGN CHOICE, log entry 60). -/
def proofFail (s : State) (l : Lane) (n t : Nat) (news : Bool) : State :=
  let s1 := modRaa s l (fun r => { r with
    lastFail := pack [(0, n), (16, t), (31, 1)], lastFailCycle := cycle16 s })
  if l = refLane s then
    let s2 := modLife s1 (fun f => { f with proofTotal := satInc f.proofTotal })
    if news then eventAll s2 16 0x0201 (le 2 n ++ le 1 t ++ le 1 0 ++ le 4 s.mod.cycle.toNat) else s2
  else s1

/-- SETTING has outlasted its limit (R135). -/
def setTimeoutEvent (v : Vintage) (s : State) (l : Lane) (n : Nat) : State :=
  eventRef s l 17 0x0203 (le 2 n ++ le 2 0 ++ le 4 (statusWord (heldOverView v (lane s l).raa) n).toNat)

/-- The re-proof of one route: proof, setting limit, releases found (R141). -/
def proveOne (v : Vintage) (l : Lane) (s : State) (n : Nat) : State :=
  let x := passRoute v s.mod.tickTime (lane s l).raa n
  let s1 := modRaa s l (fun _ => { x.raa with toProve := x.raa.toProve.filter (fun e => decide (e.1 ≠ n)) })
  let s2 := match x.fail with
    | some t => proofFail s1 l n t x.news
    | none => s1
  if x.timedOut then setTimeoutEvent v s2 l n else s2

/-- The re-proof of a list of routes with their ranks, in ascending route index (R141). -/
def proveRoutes (v : Vintage) (l : Lane) (s : State) (due : List (Nat × Nat)) : State :=
  foldS due (fun s e => proveOne v l s e.1) s

/-- The re-proof of every route still to be proven (R141). -/
def provePass (v : Vintage) (s : State) (l : Lane) : State := proveRoutes v l s (lane s l).raa.toProve

/-- The routes whose re-proof starts before the next decision slot ends: rank j starts j × 60 ns, slot n ends (n + 1) × 2 µs after
END_INPUT + 20 µs (R133, R141, R143). -/
def dueProofs (r : Raa) : List (Nat × Nat) := r.toProve.filter (fun e => decide (60 * e.2 < 2000 * (r.decided + 1)))

/-- A decision slot of the cycle is still to come (R132). -/
def slotLeft (v : Vintage) (r : Raa) : Bool := decide (r.decided < reqMax v) && !r.queue.isEmpty

/-- The pass up to the next decision slot, or to its end where none is to come (R141, R143). -/
def proveOn (v : Vintage) (s : State) (l : Lane) : State :=
  let r := (lane s l).raa
  proveRoutes v l s (if slotLeft v r then dueProofs r else r.toProve)

/-! ### Decisions (R132 to R140) -/

/-- The re-proofs that start before the end of the next decision's slot come before the decision; an RCAN ends the proof of its
route that would start later (R133, R141, R143). -/
def proveBefore (v : Vintage) (s : State) (l : Lane) : State := proveRoutes v l s (dueProofs (lane s l).raa)

/-- The word that a completion carries after a decision: RS word or X word 0 (R315). -/
def decisionWord (r : Raa) (e : QEntry) : Nat :=
  match e.kind with
  | .ecmd => (elemWord (elemOf r e.item)).toNat % 2 ^ 32
  | _ => (statusWord r e.item).toNat

/-- A decision is reported: LAST_STATUS of the route, the counts, and the completion of a host entry (R126, R140, R156). -/
def report (v : Vintage) (s : State) (l : Lane) (e : QEntry) (r : Raa) (st term : Nat) : State :=
  let last := match e.kind with
    | .ecmd => r.lastStatus
    | _ => sput 0 r.lastStatus e.item (BitVec.ofNat 8 st)
  let r1 := { r with lastStatus := last, decided := r.decided + 1, refused := r.refused + bit (decide (st ≥ 0x10)) }
  let s1 := modRaa s l (fun _ => r1)
  match e.src with
  | .press _ _ _ => s1
  | .host h =>
    finishLane s1 l h
      { status := st, term := term, cycle := s.mod.cycle, time := s.mod.tickTime
        result := resultOf h 6 (e.item + 65536 * decisionWord (heldOverView v r1) e) }

/-- The decision on one entry: the RAA after it, status and term (R134 to R138, R150). -/
def decideEntry (v : Vintage) (now : Time) (service : Bool) (r : Raa) (e : QEntry) : Raa × Nat × Nat :=
  if !service then (r, 0x1C, 0x7F)
  else match e.kind with
    | .rreq => decideRreq v now r e.item
    | .rcan => decideRcan v now r e.item
    | .ecmd =>
      let d := decideEcmd v now r e.item e.cmd
      (d.1, d.2, 0x7F)

/-- The first entry of the queue is decided (R132, R133); an RCAN on a held route ends the route's re-proof for the cycle (R143). -/
def decideHead (v : Vintage) (s : State) (l : Lane) (e : QEntry) (rest : List QEntry) : State :=
  let s1 := if decide (e.kind ≠ .ecmd) && inService s.mod.st then proveBefore v s l else s
  let r := { (lane s1 l).raa with queue := rest }
  let d := decideEntry v s.mod.tickTime (inService s.mod.st) r e
  let r1 := if d.2.1 = 0x03 ∨ d.2.1 = 0x04 then { d.1 with toProve := d.1.toProve.filter (fun x => decide (x.1 ≠ e.item)) } else d.1
  report v s1 l e r1 d.2.1 d.2.2

/-- Decisions up to REQ_MAX (R61, R132). -/
def decideRest (v : Vintage) (l : Lane) : Nat → State → State
  | 0, s => s
  | n + 1, s =>
    if (lane s l).raa.decided ≥ reqMax v then s
    else match (lane s l).raa.queue with
      | [] => s
      | e :: rest => decideRest v l n (decideHead v s l e rest)

/-- A decision row: it applies where the head of the queue is an entry of its kind, and command code, and a slot is left. -/
def decisionRow (s : State) (l : Lane) (mine : QEntry → Bool) : State :=
  match laneVintage s l with
  | none => s
  | some v =>
    if raaWorks s l && decide ((lane s l).raa.decided < reqMax v) then
      match (lane s l).raa.queue with
      | [] => s
      | e :: rest => if mine e then decideHead v s l e rest else s
    else s

/-- The head is an element command of that code. -/
def isEcmd (c : Nat) (e : QEntry) : Bool := decide (e.kind = .ecmd) && decide (e.cmd = c)

/-- RREQ_DECISION (R134). -/
def execRreqDecision (l : Lane) (s : State) : Host.Outcome State Fault Refusal :=
  .next (decisionRow s l (fun e => decide (e.kind = .rreq)))

/-- RCAN_DECISION (R136). -/
def execRcanDecision (l : Lane) (s : State) : Host.Outcome State Fault Refusal :=
  .next (decisionRow s l (fun e => decide (e.kind = .rcan)))

/-- CALL_A (R137, R138). -/
def execCallA (l : Lane) (s : State) : Host.Outcome State Fault Refusal := .next (decisionRow s l (isEcmd 0))

/-- CALL_B (R137, R138). -/
def execCallB (l : Lane) (s : State) : Host.Outcome State Fault Refusal := .next (decisionRow s l (isEcmd 1))

/-- BLOCK (R137, R138). -/
def execBlockElem (l : Lane) (s : State) : Host.Outcome State Fault Refusal := .next (decisionRow s l (isEcmd 2))

/-- UNBLOCK (R137, R138). -/
def execUnblockElem (l : Lane) (s : State) : Host.Outcome State Fault Refusal := .next (decisionRow s l (isEcmd 3))

/-- VIRTUAL_SET (R137, R138). -/
def execVirtualSet (l : Lane) (s : State) : Host.Outcome State Fault Refusal := .next (decisionRow s l (isEcmd 4))

/-- VIRTUAL_CLEAR (R137, R138). -/
def execVirtualClear (l : Lane) (s : State) : Host.Outcome State Fault Refusal := .next (decisionRow s l (isEcmd 5))

/-- RESET_FAULT (R137, R138). -/
def execResetFault (l : Lane) (s : State) : Host.Outcome State Fault Refusal := .next (decisionRow s l (isEcmd 6))

/-! ### The re-proof rows -/

/-- A re-proof row applies to lane l while its RAA works. -/
def proofRow (s : State) (l : Lane) (f : Vintage → State → State) : State :=
  match laneVintage s l with
  | none => s
  | some v => if raaWorks s l then f v s else s

/-- RE_PROOF (R141 to R149): the pass over the held routes of the cycle, up to the slot of the next decision. -/
def execReProof (l : Lane) (s : State) : Host.Outcome State Fault Refusal :=
  .next (proofRow s l (fun v s => proveOn v s l))

/-- OVERLAP_RELEASE (R147, R148): the overlap groups of a held route whose timer has run out are released with the pass. -/
def execOverlapRelease (l : Lane) (route : BitVec 14) (s : State) : Host.Outcome State Fault Refusal :=
  .next (proofRow s l (fun v s =>
    let n := route.toNat
    match routeOf v n with
    | none => s
    | some x =>
      let r := (lane s l).raa
      if held r n && overlapReady r x (lockOf r n) && overlapDue x s.mod.tickTime (lockOf r n) then
        modRaa s l (fun r => { r with releases := r.releases ++ [(n, overlapMask x)] })
      else s))

/-- CANCEL_RELEASE (R148, R149): a timed cancel that is due releases the remaining route with the pass. -/
def execCancelRelease (l : Lane) (route : BitVec 14) (s : State) : Host.Outcome State Fault Refusal :=
  .next (proofRow s l (fun v s =>
    let n := route.toNat
    match routeOf v n with
    | none => s
    | some x =>
      let r := (lane s l).raa
      if held r n && cancelDue r x s.mod.tickTime (lockOf r n) then
        modRaa s l (fun r => { r with releases := r.releases ++ [(n, allGroups)] })
      else s))

/-- SET_TIMEOUT (R135): SETTING has lasted SETTING_TIME. -/
def execSetTimeout (l : Lane) (route : BitVec 14) (s : State) : Host.Outcome State Fault Refusal :=
  .next (proofRow s l (fun v s =>
    let n := route.toNat
    match routeOf v n with
    | none => s
    | some x =>
      let r := (lane s l).raa
      if held r n && settingLate x s.mod.tickTime (lockOf r n) then
        setTimeoutEvent v (modRaa s l (fun r => putLock r n { lockOf r n with setTimeout := true })) l n
      else s))

/-- An element's MOVE_FAULT becomes 1 (R124, R364, R404). -/
def moveFaultEvent (s : State) (l : Lane) (e : Nat) : State :=
  eventRef s l 18 0x0202 (le 2 e ++ le 2 0 ++ le 4 ((elemWord (elemOf (lane s l).raa e)).toNat % 2 ^ 32))

/-- MOVE_FAULT (R124): a commanded element has missed its MOVE_TIMEOUT. -/
def execMoveFault (l : Lane) (element : BitVec 16) (s : State) : Host.Outcome State Fault Refusal :=
  .next (proofRow s l (fun v s =>
    let e := element.toNat
    let x := elemOf (lane s l).raa e
    if x.seen && !x.moveFault && moveLate (descOf v e) s.mod.tickTime x then
      moveFaultEvent (modRaa s l (fun r => modElem r e (fun y => elemMoving { y with moveFault := true }))) l e
    else s))

/-! ### Registers that a read clears -/

/-- RAA_HOLDOVER_PEAK (R160). -/
def execRaaHoldoverPeak (a : RegAccess) (s : State) : Host.Outcome State Fault Refusal :=
  .next (if reaches s a then
      answer (modRaa s a.lane (fun r => { r with holdoverPeak := 0 })) (BitVec.ofNat 32 (lane s a.lane).raa.holdoverPeak)
    else noAnswer s)

/-- LANE_RAA_PEAK (R76). -/
def execLaneRaaPeak (a : RegAccess) (s : State) : Host.Outcome State Fault Refusal :=
  .next (if reaches s a then
      answer (modLane s a.lane (fun L => { L with raaPeak := 0 })) (BitVec.ofNat 32 ((lane s a.lane).raaPeak % 2 ^ 18))
    else noAnswer s)

end Sys2Proof.Machine
end

