-- ==== Sys2Proof/Machine/Images.lean ====
section
/-!
DEFINITION. Output images as bytes (R165, R166, R172): the order in which they are sent, the check block, the vote digest, what a
faulty link delivers; the blocks of a state transfer and their checks (R165, R188, R189).
-/

namespace Sys2Proof.Machine

/-! ### Layout (R166) -/

/-- Bytes with the listed bits inverted; base is the offset of the first byte. -/
def invertBits (noise : List Nat) (base : Nat) (bs : List Byte) : List Byte :=
  (bs.zip (List.range bs.length)).map (fun e => e.1 ^^^ bitsFrom 8 (fun n => noise.contains (8 * (base + e.2) + n)))

/-- Bytes 0x0000 to 0x00FF as a lane sends them, with its code of the twin frame. -/
def headBytes (m : Image) (twin : Word) : List Byte :=
  invertBits m.noise 0 ((imageHeader m).take 80 ++ le 4 twin.toNat ++ (imageHeader m).drop 84)

/-- Bytes 0x0100 to 0x77FF: Q, LQ and the frame control records. -/
def bodyBytes (m : Image) : List Byte :=
  invertBits m.noise 0x0100 (
    bytesOf ((List.range 4096).map (bitWord m.q)) ++ bytesOf ((List.range 512).map (bitWord m.lq)) ++
    (List.range 512).flatMap (fun i => ctlBytes (sget CtlRec.zero m.stations i)) ++
    (List.range 64).flatMap (fun q => peerCtlBytes (sget CtlRec.zero m.peers q)))

/-- Bytes 0x7800 to 0x80FF: the code trailer. -/
def trailerBytes (c : LaneCodes) : List Byte :=
  (List.range 512).flatMap (fun i => le 4 (sget 0 c.stations i).toNat) ++
  (List.range 64).flatMap (fun q => le 4 (sget 0 c.peers q).toNat)

/-- The 33,024 bytes in the order in which they are sent: the header leaves last. -/
def sentBytes (m : Image) (c : LaneCodes) : List Byte := bodyBytes m ++ trailerBytes c ++ headBytes m c.twin

/-- The control block after an image: CRC-32 over the bytes in the order in which they are sent (R165). -/
def imageCheck (m : Image) (c : LaneCodes) : Word := BitVec.ofNat 32 (crcOf crc32 (sentBytes m c))

/-- The voted bytes, in ascending offset (R166). -/
def votedBytes (m : Image) : List Byte := (headBytes m 0).take 80 ++ (headBytes m 0).drop 84 ++ bodyBytes m

/-- The vote digest of a Sluice: CRC-64/XZ over the voted bytes of its result and, as one byte, its view of the voting lanes
(R172; the place of the view is a choice, log entry 54). -/
def digestOf (m : Image) (view : BitVec 3) : BitVec 64 :=
  BitVec.ofNat 64 (crcOf crc64 (votedBytes m ++ [view.setWidth 8]))

/-! ### What a link delivers (R163, R165) -/

/-- An image with one bit inverted, bit b at byte b / 8: where a field of the image holds the bit, the field. -/
def flipImage (m : Image) (b : Nat) : Image :=
  if 32 ≤ b ∧ b < 64 then { m with cycle := m.cycle ^^^ BitVec.ofNat 32 (2 ^ (b - 32)) }
  else if 64 ≤ b ∧ b < 128 then { m with time := m.time ^^^ BitVec.ofNat 64 (2 ^ (b - 64)) }
  else if 128 ≤ b ∧ b < 137 then { m with flags := m.flags ^^^ BitVec.ofNat 9 (2 ^ (b - 128)) }
  else if 160 ≤ b ∧ b < 192 then { m with vintage := m.vintage ^^^ BitVec.ofNat 32 (2 ^ (b - 160)) }
  else if 2048 ≤ b ∧ b < 133120 then { m with q := bput m.q (b - 2048) (!bget m.q (b - 2048)) }
  else if 133120 ≤ b ∧ b < 149504 then { m with lq := bput m.lq (b - 133120) (!bget m.lq (b - 133120)) }
  else { m with noise := bput m.noise b (!bget m.noise b) }

/-- The bit lies in the part of the image that is not voted: the twin-frame code or the code trailer (R166). -/
def unvotedBit (b : Nat) : Bool := (decide (640 ≤ b) && decide (b < 672)) || decide (245760 ≤ b)

/-- The lane's codes with one of their bits inverted. -/
def flipCodes (c : LaneCodes) (b : Nat) : LaneCodes :=
  if b < 672 then { c with twin := c.twin ^^^ BitVec.ofNat 32 (2 ^ (b - 640)) }
  else
    let k := (b - 245760) / 32
    let f := fun (w : Word) => w ^^^ BitVec.ofNat 32 (2 ^ (b % 32))
    if k < 512 then { c with stations := smod 0 c.stations k f } else { c with peers := smod 0 c.peers (k - 512) f }

/-- What a faulty link delivers of the image that the lane sends. -/
def faultyRx (k : ImageLink) (f : LinkFault) : LinkRx :=
  { image := k.image.map (fun m => (f.flips.filter (fun b => !unvotedBit b.val)).foldl (fun m b => flipImage m b.val) m)
    codes := (f.flips.filter (fun b => unvotedBit b.val)).foldl (fun c b => flipCodes c b.val) k.codes
    complete := f.complete && k.image.isSome, checkOk := false }

/-- What a healthy link delivers. -/
def goodRx (k : ImageLink) : LinkRx := { image := k.image, codes := k.codes, complete := k.image.isSome, checkOk := false }

/-- One link's fault takes effect at its Sluice, where that Sluice has not discarded the image (R163, R164). -/
def linkFault (s : State) (f : LinkFault) : State :=
  modLane s f.sender (fun L =>
    if (L.link.rx.get f.sluice).image.isSome then
      { L with link := { L.link with rx := L.link.rx.set f.sluice (faultyRx L.link f) } }
    else L)

/-- What a link delivered is what its lane sent: its check block verifies (R165). -/
def intact (k : ImageLink) (x : LinkRx) : Bool :=
  (decide (x.image = k.image) && decide (x.codes = k.codes)) ||
  (match x.image, k.image with
   | some a, some b => decide (imageCheck a x.codes = imageCheck b k.codes)
   | _, _ => false)

/-- Receivers discard what they hold of a lane's image: those of the Sluices of a mask (R163, R164). -/
def discardRx (k : ImageLink) (at3 : BitVec 3) : ImageLink :=
  { k with rx := k.rx.map (fun m x => if laneBit at3 m then LinkRx.reset else x) }

/-! ### State transfer (R188, R189) -/

/-- What the snapshot carries of a lane (R188; log entry 47). -/
def snapshotOf (L : LaneState) : Snapshot :=
  { data := L.press.data, newEdges := L.press.newEdges, issued := L.press.issued, hasRun := L.press.hasRun
    elems := L.raa.elems, locks := L.raa.locks, lastStatus := L.raa.lastStatus, queue := L.raa.queue
    sessions := L.sessions, totals := L.fld.totals, exact := L.fld.exact, cumLast := L.fld.cumLast
    retake := L.fld.retake || L.fld.retakeNext
    ledgers := L.mbx.ledgers, taken := L.mbx.taken, marks := [] }

/-- A lane with the parts of a snapshot as its own. -/
def putSnapshot (own : LaneState) (x : Snapshot) : LaneState :=
  { own with
    press := { own.press with data := x.data, newEdges := x.newEdges, issued := x.issued, hasRun := x.hasRun }
    raa := { own.raa with elems := x.elems, locks := x.locks, lastStatus := x.lastStatus, queue := x.queue }
    sessions := x.sessions
    fld := { own.fld with totals := x.totals, exact := x.exact, cumLast := x.cumLast, retake := x.retake, retakeNext := false }
    mbx := { own.mbx with ledgers := x.ledgers, taken := x.taken } }

/-- A ledger of which one serving lane sends the first n entries and the other the rest. -/
def splitLedger (n : Nat) (a b : Ledger) : Ledger := { a with entries := a.entries.take n ++ b.entries.drop n }

/-- The ledgers of a snapshot: bytes 0 to 3,145,727 reach into the fifth ring's 4,096 entries of 24 bytes, 3,840 of them (R188). -/
def splitLedgers (a b : Sparse Ledger) : Sparse Ledger :=
  (List.range 32).foldl (fun m i =>
    let x := sget Ledger.reset a i
    let y := sget Ledger.reset b i
    sput Ledger.reset m i (if i < 4 then x else if i = 4 then splitLedger 3840 x y else y)) []

/-- The snapshot from its two halves (R188): the lower-lettered serving lane sends all but the end of the command ledger. -/
def joinHalves (lower upper : Snapshot) : Snapshot := { lower with ledgers := splitLedgers lower.ledgers upper.ledgers }

/-- The snapshot that the serving lanes other than l send. -/
def servedSnapshot (s : State) (l : Lane) : Option Snapshot :=
  match (servingLanes s).filter (fun m => decide (m ≠ l)) with
  | a :: b :: _ => some (joinHalves (snapshotOf (lane s a)) (snapshotOf (lane s b)))
  | [_] => none
  | [] => none

/-- The parts of a snapshot that the load area shares with it. -/
def snapshotArea (x : Snapshot) : LoadArea :=
  { q := x.data.q, lq := x.data.lq, m := x.data.m, t := x.data.t, c := x.data.c, e := x.data.e, w := x.data.w, elems := x.elems
    locks := x.locks, lastStatus := x.lastStatus, peerSeq := peerSeqs x.sessions, queue := (x.queue ++ x.issued).map plainEntry
    loaded := [] }

/-- Block k of the command ledger: entries of 24 bytes, 4,096 for each ring (R188). -/
def ledgerBlock (x : Snapshot) (k : Nat) : List Byte :=
  (List.range 256).map (fun j =>
    let n := 256 * k + j
    match ((sget Ledger.reset x.ledgers (n / 98304)).entries.drop (n % 98304 / 24)).head? with
    | some e => lget 0 (le 24 (Config.ledgerBytes e).toNat) (n % 24)
    | none => 0)

/-- The 256 bytes of block i of the snapshot, 0 to 24,575, in the layout of R188: the Press data spaces in the order of R84, element states,
lock SRAM, queue, session contexts, station images, ledger, and 474 KB of reserve sent as 0. Parts that the load area shares lie in its
blocks (R343, R355; DESIGN CHOICE, log entry 6). -/
def snapshotBlock (x : Snapshot) (i : Nat) : List Byte :=
  let d := x.data
  let area := areaBlock (snapshotArea x)
  let sess := fun n => sget Session.reset x.sessions n
  if i < 64 then bitBlock d.iv i
  else if i < 128 then bitBlock d.ifv (i - 64)
  else if i < 192 then area (i - 128)
  else if i < 704 then area (i - 192 + 72)
  else if i < 1728 then area (i - 704 + 584)
  else if i < 1984 then area (i - 1728 + 1608)
  else if i < 2016 then area (i - 1984 + 1864)
  else if i < 3040 then area (i - 2016 + 1896)
  else if i < 3048 then bitBlock d.lv (i - 3040)
  else if i < 3056 then bitBlock d.lf (i - 3048)
  else if i < 3064 then area (i - 3056 + 64)
  else if i < 5112 then recBlock 0 (fun (y : BitVec 64) => le 8 y.toNat) d.x 32 (i - 3064)
  else if i < 5240 then recBlock 0 (fun (y : BitVec 16) => le 2 y.toNat) d.rs 128 (i - 5112)
  else if i < 10104 then area (i - 5240 + 2920)
  else if i < 10264 then (List.range 4).flatMap (fun j => le 64 (Config.sessionBytes (sess (4 * (i - 10104) + j))).toNat)
  else if i < 10392 then (List.range 4).flatMap (fun j => le 64 (Config.imageBytes (sess (4 * (i - 10264) + j))).toNat)
  else if i < 22680 then ledgerBlock x (i - 10392)
  else le 256 0

/-- CRC-64/XZ of block i of 64 KB, 0 to 95 (R165). -/
def transferCheck (x : Snapshot) (i : Nat) : BitVec 64 :=
  BitVec.ofNat 64 (crcOf crc64 ((List.range 256).flatMap (fun j => snapshotBlock x (256 * i + j))))

/-- The check values of the 96 blocks of a transfer. -/
def transferChecks (x : Snapshot) : List (BitVec 64) := (List.range 96).map (transferCheck x)

/-- The 256-byte blocks that the serving lanes have written since they were sent (R189): those that the Press has written, also with what they
held, and those that have changed. A part that the cycle forms anew, as input images and views, counts as written where it has changed
(DEDUCED, log entry 6). -/
def markedBlocks (sent now : Snapshot) : List Nat :=
  (List.range 24576).filter (fun i => bget sent.marks i || !decide (snapshotBlock sent i = snapshotBlock now i))

/-- The digest areas of two snapshots agree (R189): the parts of R188, less what the model adds to them (log entry 47). -/
def areasEqual (a b : Snapshot) : Bool :=
  decide (a.data = b.data) && decide (a.newEdges = b.newEdges) && decide (a.elems = b.elems) && decide (a.locks = b.locks) &&
  decide (a.lastStatus = b.lastStatus) && decide (a.queue = b.queue) && decide (a.sessions = b.sessions) &&
  decide (a.ledgers = b.ledgers)

/-- CRC-64/XZ of the catch-up batches of the two serving lanes: the marked blocks of each one's half as they stand (R165, R188, R189). -/
def catchUpChecks (sent now : Snapshot) : List (BitVec 64) :=
  let ms := markedBlocks sent now
  [ms.filter (fun i => decide (i < 12288)), ms.filter (fun i => decide (12288 ≤ i))].map (fun half =>
    BitVec.ofNat 64 (crcOf crc64 (half.flatMap (snapshotBlock now))))

end Sys2Proof.Machine
end

