-- ==== Sys2Proof/Machine/Vote.lean ====
section
/-!
DEFINITION. The vote and what the Sluices find (R65 to R69, R161 to R186, R479): images, digests, check blocks, overruns,
watchdogs, links, latches, the tests of the lane switches.
-/

namespace Sys2Proof.Machine

/-! ### The vote (R168 to R171) -/

/-- The image of a lane as a Sluice m has received it complete (R66, R168). -/
def arrivedAt (s : State) (m l : Lane) : Option Image :=
  let x := (lane s l).link.rx.get m
  if x.complete && !(lane s l).overran then x.image else none

/-- The lane's image is still on its way: it is not sent, or a Sluice that holds a part of it has not received its last word (R66,
R171). -/
def incomplete (s : State) (l : Lane) : Bool :=
  (lane s l).link.image.isNone ||
  Lane.list.any (fun m => let x := (lane s l).link.rx.get m; x.image.isSome && !x.complete)

/-- Voting lanes whose image has arrived complete at Sluice m, with it. -/
def votingImages (s : State) (m : Lane) : List (Lane × Image) :=
  (servingLanes s).filterMap (fun l => (arrivedAt s m l).map (fun x => (l, x)))

/-- What a vote finds. -/
inductive VoteOut where
  | agreed (m : Image)
  | dissent (m : Image) (l : Lane)
  | noMajority
  | pairDisagree
  | lanesLost
deriving DecidableEq, Repr

/-- The vote over complete images (R169, R170): whole images are compared, and a result is always an image that two lanes
sent. -/
def voteOn : List (Lane × Image) → VoteOut
  | [(a, x), (b, y), (c, z)] =>
    if x = y then (if x = z then .agreed x else .dissent x c)
    else if x = z then .dissent x b
    else if y = z then .dissent y a
    else .noMajority
  | [(_, x), (_, y)] => if x = y then .agreed x else .pairDisagree
  | _ => .lanesLost

/-- The image that a vote results in. -/
def voteImage : VoteOut → Option Image
  | .agreed m => some m
  | .dissent m _ => some m
  | .noMajority => none
  | .pairDisagree => none
  | .lanesLost => none

/-- The lane that a vote finds to dissent. -/
def voteDissenter : VoteOut → Option Lane
  | .dissent _ l => some l
  | .agreed _ => none | .noMajority => none | .pairDisagree => none | .lanesLost => none

/-- The latch cause of a vote that gives SAFE (R169, R170, R195). -/
def voteLatch : VoteOut → Option LatchCause
  | .noMajority => some .noMajority
  | .pairDisagree => some .pairDisagree
  | .lanesLost => some .lanesLost
  | .agreed _ => none | .dissent _ _ => none

/-- OUTCOME of SLC_VOTE (R194). -/
def outcomeCode : VoteOut → BitVec 2
  | .agreed _ => 1
  | .dissent _ _ => 2
  | .noMajority => 3
  | .pairDisagree => 3
  | .lanesLost => 3

/-- A lane overruns: its Press and RAA stop, its image is dropped, the count rises, and it is isolated, with OVERRUN or with what the
Sluice finds before it in the same clock (R66, R69, R113, R173). -/
def overrunLane (also : List IsoCause) (s : State) (l : Lane) : State :=
  let s1 := modLane s l (fun L => { L with
    overran := true, link := ImageLink.reset, press := { stopPress L.press with halted := true } })
  let s2 := modLife s1 (fun f => { f with
    lanes := f.lanes.set l { f.lanes.get l with overrunTotal := satInc (f.lanes.get l).overrunTotal } })
  isolate s2 l (firstCause .overrun also)

/-- A lane isolated as a dissenter that the Sluices of a mask have found, by the vote or the digest check (R169, R172, R194,
R196). -/
def dissentLane (s : State) (l : Lane) (found : BitVec 3) : State :=
  let s1 := modSluices s (fun m x =>
    if laneBit found m then { x with dissent := vput x.dissent l.idx true, outcome := 2 } else x)
  isolate (countDissent s1 found) l .voteDissent

/-- Local output switches that the voted image closes, high side and low side (R179, R251, R255). -/
def outputDrive (m : Image) : Word := bitsFrom 32 (fun i => bget m.lq (i % 16))

/-- VCTL of the voted image: LQ 16 and LQ 17 (R255). -/
def outputVctl (m : Image) : BitVec 2 := bitsFrom 2 (fun i => bget m.lq (16 + i))

/-- Local outputs of the module are not held off: in a twin pair only those of the ACTIVE close (R331). -/
def mayDrive (s : State) : Bool := !twinOn s || holdsActive s

/-- A Sluice closes switches at the next tick only under R179 and R331. -/
def mayClose (s : State) (l : Lane) : Bool := inService s.mod.st && serving s l && !latched s l && mayDrive s

/-- The drives for the next tick: every Sluice from its own result (R179). -/
def setDrives (s : State) : State :=
  modSluices s (fun l x =>
    match x.result with
    | some m => { x with
      next := if mayClose s l then outputDrive m else 0, vctl := if serving s l && !latched s l then outputVctl m else 0 }
    | none => { x with next := 0, vctl := 0 })

/-- A reintegrating lane's image, once complete at every Sluice, is compared by each Sluice with its result (R32, R40). -/
def shadowCompare (s : State) (l : Lane) : State :=
  match lst s l, (lane s l).life.join with
  | .reintegrating, .shadow n =>
    if incomplete s l || (lane s l).overran || (lane s l).link.compared then s
    else
      let same := fun (m : Lane) => match (s.sluices.get m).result with
        | some r => decide (arrivedAt s m l = some r)
        | none => true
      let s1 := modLane s l (fun L => { L with link := { L.link with compared := true } })
      if Lane.list.all same then modLane s1 l (fun L => { L with life := { L.life with join := .shadow (n + 1) } })
      else isolate s1 l .shadowMismatch
  | _, _ => s

/-- The vote of this cycle belongs to the vote test, cycles s to s + 4 (R479). -/
def voteTestCycle (s : State) : Bool :=
  match s.mod.testsFrom with
  | none => false
  | some c => decide ((s.mod.cycle - c).toNat ≤ 4)

/-- A vote of the start-up tests that has not agreed (R479). -/
def voteTested (s : State) (ok : Bool) : State :=
  { s with mod := { s.mod with voteTest := s.mod.voteTest && (ok || !voteTestCycle s) } }

/-- Outputs whose retirement has been cleared and whose LQ bit a vote has at 0 (R281). -/
def zeroSeen (m : Image) (f : Field) : Field :=
  (List.range 16).foldl (fun f n => { f with outputs := smod OutRec.reset f.outputs n (fun o =>
    if o.awaitZero && !bget m.lq n then { o with zeroVoted := true } else o) }) f

/-- What the Sluices of the voting lanes have decided is taken: the served data, the drives, the shadow image (R169, R179). -/
def takeResults (s : State) : State :=
  match (s.sluices.get (refLane s)).result with
  | some m =>
    if operating s.mod.st then
      foldS Lane.list shadowCompare (setDrives { s with mod := { s.mod with result := some m, voted := some m }, field := zeroSeen m s.field })
    else s
  | none => s

/-- SLC_VOTE at a Sluice's decision (R194). -/
def noteVote (s : State) (out : Lane → VoteOut) (t : BitVec 28) : State :=
  modSluices s (fun m x => { x with
    voting := laneBits (serving s), images := laneBits (fun l => (arrivedAt s m l).isSome), dissent := 0, codes := 0
    result := voteImage (out m), outcome := outcomeCode (out m), digestOk := false, voteCycle := cycle16 s, decisionTime := t })

/-- Sluices whose vote finds lane l to dissent. -/
def dissentFound (out : Lane → VoteOut) (l : Lane) : BitVec 3 := laneBits (fun m => decide (voteDissenter (out m) = some l))

/-- A lane that Sluices find to dissent: where its image arrived there with a bit error, its check block fails as well, and the cause
is LINK (R173, R178). -/
def dissentVoter (out : Lane → VoteOut) (s : State) (l : Lane) : State :=
  let found := dissentFound out l
  if found = 0 then s
  else if Lane.list.all (fun m => !laneBit found m || intact (lane s l).link ((lane s l).link.rx.get m)) then dissentLane s l found
  else
    let s1 := modLife s (fun f => { f with linkErr := f.linkErr.map (fun m x =>
      if laneBit found m && !intact (lane s l).link ((lane s l).link.rx.get m) then satInc x else x) })
    isolate s1 l (firstCause .voteDissent [.link])

/-- The decision of the Sluices at a time after the tick, each over what it has received (R168 to R171, R175, R176, R194). -/
def decideVote (t : BitVec 28) (s : State) : State :=
  let outs := PerLane.all () |>.map (fun m _ => voteOn (votingImages s m))
  let out := fun m => outs.get m
  let agreed := (servingLanes s).all (fun m => decide (outcomeCode (out m) = 1))
  let s1 := noteVote (voteTested s agreed) out t
  let s2 := foldS Lane.list (fun s m => match voteLatch (out m) with | some c => setLatch s m c | none => s) s1
  takeResults (latchRule (foldS Lane.list (dissentVoter out) s2))

/-- A vote is open: the vote phase of a cycle in which the Press runs, with no result yet (R54, R475). -/
def voteOpen (s : State) : Bool :=
  operating s.mod.st && decide (s.mod.phase = .vote) && decide (s.mod.result = none) && !s.mod.noVintage

/-- END_VOTE − 5 µs in ns after the tick: the latest decision (R67). -/
def lastDecision (s : State) : BitVec 28 :=
  match vintageOf s with
  | some v => BitVec.ofNat 28 ((v.endVote - 5) * 1000)
  | none => 0

/-- The vote, where one is open: it waits for the voting lanes' images until END_VOTE − 5 µs, at which a voting lane whose image is
still incomplete has overrun (R66, R67); it runs with the others (R169 to R171). -/
def voteNow (atNs : BitVec 28) (s : State) : State :=
  if voteOpen s then
    let late := (servingLanes s).filter (incomplete s)
    let last := lastDecision s
    if atNs.toNat < last.toNat then (if late.isEmpty then decideVote atNs s else s)
    else decideVote last (foldS late (overrunLane []) s)
  else s

/-- VOTE (R67, R169 to R171): the faults of the image links in this cycle, and the moment at which the Sluices look. -/
def execVote (v : VoteMoment) (s : State) : Host.Outcome State Fault Refusal :=
  .next (if voteOpen s then voteNow v.atNs (foldS v.faults linkFault s) else s)

/-- UNCAUSED (R175, R176): a latch found set without a cause. -/
def execUncaused (l : Lane) (s : State) : Host.Outcome State Fault Refusal :=
  .next (if s.mod.st = .off then s else latchRule (setLatch s l .uncaused))

/-- The lane sends an image that is checked (R165). -/
def checkedLane (s : State) (l : Lane) : Bool := computes s l && (lane s l).link.image.isSome && !(lane s l).overran

/-- The check block that has come after an image verifies: it is the CRC-32 of the bytes as they arrived (R165). -/
def blockOk (x : LinkRx) (block : Option Word) : Bool :=
  match x.image, block with
  | some m, some w => decide (w = imageCheck m x.codes)
  | _, _ => false

/-- CHECK_BLOCK (R165, R185): the last word and the check block of the lane's image have come to a Sluice; a failure, or no arrival,
isolates the lane with cause LINK. -/
def execCheckBlock (path : ImagePath) (block : Option Word) (s : State) : Host.Outcome State Fault Refusal :=
  .next (
    if !checkedLane s path.sender then s
    else if blockOk ((lane s path.sender).link.rx.get path.sluice) block then
      let s1 := modLane s path.sender (fun L => { L with link := { L.link with
        rx := L.link.rx.set path.sluice { L.link.rx.get path.sluice with complete := true, checkOk := true } } })
      if s1.mod.result.isSome then shadowCompare s1 path.sender else s1
    else
      let s1 := modLife s (fun f => { f with linkErr := f.linkErr.set path.sluice (satInc (f.linkErr.get path.sluice)) })
      isolate s1 path.sender .link)

/-- A Sluice that has decided alone differs in its digest: its lane is isolated as a dissenter, found by the two others (R172). -/
def digestDissent (s : State) (l : Lane) : State :=
  dissentLane (voteTested s false) l (laneBits (fun m => decide (m ≠ l) && serving s m))

/-- The digest check gives SAFE: each Sluice of a voting lane latches with its finding (R172, R175). -/
def digestSafe (s : State) (c : LatchCause) : State :=
  let s1 := voteTested (modSluices s (fun m x => if serving s m then { x with outcome := 3 } else x)) false
  latchRule (foldS (servingLanes s) (fun s m => setLatch s m c) s1)

/-- The digest check over the Sluices of voting lanes (R172). -/
def digestCheck (s : State) (d : PerLane (BitVec 64)) : State :=
  let pass := fun (s : State) => modSluices s (fun m x => if serving s m then { x with digestOk := true } else x)
  match servingLanes s with
  | [a, b, c] =>
    let x := d.get a
    let y := d.get b
    let z := d.get c
    if x = y then (if x = z then pass s else digestDissent s c)
    else if x = z then digestDissent s b
    else if y = z then digestDissent s a
    else digestSafe s .noMajority
  | [a, b] => if d.get a = d.get b then pass s else digestSafe s .pairDisagree
  | _ => s

/-- The digest that a Sluice sends: over its result and its view, with the error of a faulty one (R172). -/
def sentDigest (s : State) (err : PerLane (BitVec 64)) (m : Lane) : BitVec 64 :=
  let x := s.sluices.get m
  match x.result with
  | some r => digestOf r x.voting ^^^ err.get m
  | none => err.get m

/-- VOTE_DIGEST (R172): the digests as the Sluice lines carry them, an error of 0 where the Sluice's vote is right. -/
def execVoteDigest (err : PerLane (BitVec 64)) (s : State) : Host.Outcome State Fault Refusal :=
  .next (if operating s.mod.st && decide (s.mod.phase = .vote) && s.mod.result.isSome then
    digestCheck s ((PerLane.all ()).map (fun m _ => sentDigest s err m)) else s)

/-- The lane's last image word can still be missing: its image takes part in an open vote, or it is a shadow image that no result has
been compared with (R66, R68). -/
def mayOverrun (s : State) (l : Lane) : Bool :=
  computes s l && decide (s.mod.phase = .vote) && !s.mod.noVintage &&
  (decide (s.mod.result = none) || (decide (lst s l = .reintegrating) && !(lane s l).link.compared))

/-- OVERRUN (R66, R68). -/
def execOverrun (f : Finding) (s : State) : Host.Outcome State Fault Refusal :=
  .next (if mayOverrun s f.lane then overrunLane f.also s f.lane else s)

/-- Reintegrating lanes whose image is still incomplete at END_VOTE − 5 µs (R66, R68). -/
def lateShadows (s : State) : List Lane :=
  Lane.list.filter (fun l => decide (lst s l = .reintegrating) && mayOverrun s l && incomplete s l)

/-! ### Watchdog, links, reset lines (R65, R163, R164) -/

/-- A lane whose tick the Sluices watch, or whose links they time (R65, R163). -/
def watched : LaneSt → Bool
  | .serving => true | .sync => true | .reintegrating => true
  | .boot => false | .test => false | .isolated => false | .retired => false

/-- WATCHDOG (R65, R173): the deviation of the lane's tick, or no tick; what else the Sluice finds in the same clock. -/
def execWatchdog (f : Finding) (dev : Option Int) (s : State) : Host.Outcome State Fault Refusal :=
  .next (
    if !watched (lst s f.lane) then s
    else match dev with
      | none => isolate s f.lane (firstCause .watchdog f.also)
      | some d =>
        let s1 := modSluice s f.lane (fun x => { x with tickDev := BitVec.ofInt 16 d })
        if d > 1000 ∨ d < -1000 then isolate s1 f.lane (firstCause .watchdog f.also) else s1)

/-- The receivers of the Sluices of a mask drop what they hold of a lane's image where no decision has used it (R163, R164). -/
def flushImage (s : State) (l : Lane) (at3 : BitVec 3) : State :=
  if s.mod.result.isSome then s else modLane s l (fun L => { L with link := discardRx L.link at3 })

/-- LINK_TIMEOUT (R163, R173, R196): no word on the lane's image links to the Sluices of a mask, or on a peer link of it (mask 0). -/
def execLinkTimeout (x : LinkSilence) (s : State) : Host.Outcome State Fault Refusal :=
  .next (
    let s1 := modSluices s (fun m y => if laneBit x.sluices m then { y with
      linkTimedOut := vput y.linkTimedOut x.lane.idx true, linkUp := vput y.linkUp x.lane.idx false } else y)
    let s2 := flushImage s1 x.lane x.sluices
    if watched (lst s2 x.lane) then isolate s2 x.lane (firstCause .link x.also) else s2)

/-- The reset line of a lane die: every receiver on its links flushes, discards its partial image, transfer or catch-up blocks and
reports the link as down; a watched lane goes out with the cause that it reports (R164, R178, R196). -/
def laneResetLine (s : State) (l : Lane) (reported : Option IsoCause) : State :=
  let s1 := modSluices s (fun _ x => { x with
    linkUp := vput x.linkUp l.idx false, linkReset := vput x.linkReset l.idx true })
  let s2 := modLane (flushImage s1 l 7) l (fun L => { L with xfer := none })
  if watched (lst s2 l) then isolate s2 l (reported.getD .link) else s2

/-- The reset line of a Sluice: what it has received is discarded, its links are down, and its lane flushes in the same way (R164). -/
def sluiceResetLine (s : State) (l : Lane) : State :=
  let s1 := modSluice s l (fun x => { x with linkUp := 0 })
  modLane (foldS Lane.list (fun s m => flushImage s m (laneBits (fun x => decide (x = l)))) s1) l (fun L => { L with xfer := none })

/-- RESET_LINE (R164, R178, R196). -/
def execResetLine (l : Lane) (of : ResetLineOf) (s : State) : Host.Outcome State Fault Refusal :=
  .next (
    match of with
    | .sluiceDie => sluiceResetLine s l
    | .laneDie reported => laneResetLine s l reported)

/-! ### Lane switch tests (R181 to R183, R479) -/

/-- Outputs whose OFF-test or ON-test runs. -/
def outputTested (s : State) (n : Nat) : Bool := decide ((outRec s n).test ≠ .none)

/-- Switches that the test of a Sluice opens: both poles of every energised output that is not under another test (R181). -/
def testSwitches (s : State) (l : Lane) : Word :=
  bitsFrom 32 (fun i => ((s.sluices.get l).now).getLsbD i && !outputTested s (i % 16))

/-- The cycle of the current second that belongs to the Sluice's test (R181). -/
def switchTestCycle (s : State) (l : Lane) : Bool :=
  let t := s.mod.tickTime.toNat % 1000000000
  decide (l.idx * periodNs s ≤ t) && decide (t < (l.idx + 1) * periodNs s)

/-- LANE_SWITCH_TEST (R181). -/
def execLaneSwitchTest (l : Lane) (s : State) : Host.Outcome State Fault Refusal :=
  .next (
    if decide (s.mod.st = .svc3) && decide (s.mod.phase = .input) && switchTestCycle s l && !(s.sluices.get l).testRunning then
      let m := testSwitches s l
      modSluice s l (fun x => { x with
        now := x.now &&& ~~~ m, testMask := m, testRunning := true, testAborted := false, stuckClosed := 0 })
    else s)

/-- Outputs of which a switch of the mask reads closed. -/
def stuckOutputs (mask readback : Word) : BitVec 16 :=
  bitsFrom 16 (fun n => (mask &&& readback).getLsbD n || (mask &&& readback).getLsbD (16 + n))

/-- SWITCH_TEST_READBACK (R181, R183): a tested switch that reads closed retires its channel; then the switches close. -/
def execSwitchTestReadback (l : Lane) (readback : Word) (s : State) : Host.Outcome State Fault Refusal :=
  .next (
    let x := s.sluices.get l
    if x.testRunning then
      let stuck := stuckOutputs x.testMask readback
      let s1 := modSluice s l (fun y => { y with
        now := if y.latch then y.now else y.now ||| y.testMask, testMask := 0, testRunning := false, stuckClosed := stuck })
      foldS (bitsOf stuck) (fun s n => retireOut s n .switchStuckClosed 0) s1
    else s)

/-- A switch that reads open against a closing drive: SWITCH_STUCK_OPEN, with the fault shown for its channel (R183, R292,
R364, R404). -/
def stuckOpen (s : State) (n : Nat) : State :=
  let s1 := modOut s n (fun o => { o with fault := .switchStuckOpen })
  eventAll s1 76 0x040A (le 1 n ++ le 1 (outFaultCode .switchStuckOpen) ++ le 2 (outRec s n).current.toNat)

/-- The close test of a Sluice is due in this cycle (R479). -/
def closeTestDue (s : State) (l : Lane) : Bool :=
  match s.mod.testsFrom with
  | none => false
  | some c => decide (s.mod.st = .starting) && serving s l && !(s.sluices.get l).closeDone &&
      decide (s.mod.cycle = c + BitVec.ofNat 32 (2 + l.idx))

/-- LANE_SWITCH_CLOSE_TEST (R479): the switches that read closed at tick + 150 µs, and those that read open by
tick + 270 µs. -/
def execLaneSwitchCloseTest (l : Lane) (closed opened : Word) (s : State) : Host.Outcome State Fault Refusal :=
  .next (
    if closeTestDue s l then
      let s1 := modSluice s l (fun x => { x with
        closeDone := true, closeOk := decide (closed = 0xFFFFFFFF) && decide (opened = 0xFFFFFFFF) })
      let s2 := foldS (bitsOf (~~~ closed)) (fun s i => stuckOpen s (i % 16)) s1
      let s3 := foldS (bitsOf (stuckOutputs 0xFFFFFFFF (~~~ opened))) (fun s n => retireOut s n .switchStuckClosed 0) s2
      if closed = 0 then isolateWith s3 l .self .startTest else s3
    else s)

end Sys2Proof.Machine
end

