-- ==== Sys2Proof/Machine/Bist.lean ====
section
/-!
DEFINITION. Self-test and repair of a lane (R457 to R471): due times, start, phases, end, overdue, requests, soft repairs.
-/

namespace Sys2Proof.Machine

/-! ### Macros and repairs (R459, R460) -/

/-- What the 96 SRAM macros of a lane hold (R459). -/
inductive MacroUse where
  | pressData
  | elements
  | locks
  | buffers
deriving DecidableEq, Repr

/-- What a macro holds (R459). -/
def macroUse (m : Fin 96) : MacroUse :=
  if m.val < 64 then .pressData else if m.val < 80 then .elements else if m.val < 82 then .locks else .buffers

/-- An entry of the repair map; a row already in it is rewritten (R460). -/
def addRepair (m : List SoftRepair) (r : SoftRepair) : List SoftRepair :=
  if m.any (fun x => decide (x.macroNo = r.macroNo) && decide (x.row = r.row)) then
    m.map (fun x => if x.macroNo = r.macroNo ∧ x.row = r.row then r else x)
  else m ++ [r]

/-- A spare row of a macro can take a failing row: it is not fused, and no row is mapped to it (R460). -/
def spareFree (b : Bist) (m : Fin 96) (n : Fin 8) : Bool :=
  !(sget 0 b.fused m.val).getLsbD n.val && !b.repairs.any (fun r => decide (r.macroNo = m) && decide (r.spare = n))

/-- Spare rows of a macro still free (R459, R460). -/
def freeSpares (b : Bist) (m : Fin 96) : Nat := ((List.finRange 8).filter (spareFree b m)).length

/-- The lowest count of free spare rows over all macros (R469). -/
def lowestSpares (b : Bist) : Nat := (List.finRange 96).foldl (fun n m => min n (freeSpares b m)) 8

/-- The spare row that the controller takes for a failing row: the one that the operand names where it is free, else the lowest free one;
which free row it takes is open (R460; DESIGN CHOICE, log entry 35). -/
def spareFor (b : Bist) (r : SoftRepair) : Option (Fin 8) :=
  if spareFree b r.macroNo r.spare then some r.spare else (List.finRange 8).find? (spareFree b r.macroNo)

/-- The repairs of an SRAM BIST in their order, up to the first row that finds no free spare row (R460). -/
def mapRows (b : Bist) : List SoftRepair → List SoftRepair × Option SoftRepair
  | [] => ([], none)
  | r :: rest =>
    match spareFor b r with
    | none => ([], some r)
    | some n =>
      let x := mapRows { b with repairs := addRepair b.repairs { r with spare := n } } rest
      ({ r with spare := n } :: x.1, x.2)

/-- The blocks of a partition of logic BIST, as bits of LOGIC_FAIL (R457, R471). -/
def partBlocks (p2 : Bool) : List Nat := if p2 then [6] else [0, 1, 2, 3, 4, 5]

/-- A signature that differs from the expected one by e (R458). -/
def signature (block : Nat) (e : BitVec 128) : BitVec 128 := Config.expectedSignature block ^^^ e

/-- The blocks whose signature differs from the expected value in any of its 128 bits, with the difference (R458). -/
def failingBlocks (p2 : Bool) (errors : List (BitVec 128)) : List (Nat × BitVec 128) :=
  ((partBlocks p2).zip errors).filter (fun x => decide (x.2 ≠ 0))

/-- What a run of the tests shows: the rows that it maps, and its verdict. Signatures that all equal the expected ones fail nothing, logic
BIST that fails ends the run before SRAM BIST, and a row without a spare fails SRAM BIST (R457, R458, R460). -/
def testVerdict (b : Bist) (x : TestRun) : List SoftRepair × BistResult :=
  let rows := mapRows b x.repairs
  let sram := fun (r : BistResult) => (rows.1, match rows.2 with | some r => .sramFail r.macroNo r.row | none => r)
  match x.result with
  | .logicFail p2 es => if (failingBlocks p2 es).isEmpty then sram .pass else ([], x.result)
  | r => sram r

/-- One soft repair: the keeper writes the map's entry before the record is made (R460, R469). -/
def softRepair (l : Lane) (s : State) (r : SoftRepair) : State :=
  let s1 := modPages s [11 + l.idx] (fun f => { f with repairs := f.repairs.set l (addRepair (f.repairs.get l) r) })
  let s2 := modLane s1 l (fun L => { L with bist := { L.bist with repairs := addRepair L.bist.repairs r } })
  eventLane s2 l 165 0x0707 (le 1 l.num ++ le 1 0 ++ le 2 r.macroNo.val ++ le 2 r.row.val ++ le 1 r.spare.val ++
    le 1 (freeSpares (lane s2 l).bist r.macroNo))

/-! ### Results (R458, R465, R469, R471) -/

/-- Isolation cause of a failed part (R465). -/
def bistCause : BistResult → IsoCause
  | .pass => .none
  | .logicFail _ _ => .self
  | .sramFail _ _ => .memory
  | .dramFail _ => .memory

/-- LOGIC_FAIL: a bit for each block that failed (R471). -/
def blockMask (p2 : Bool) (es : List (BitVec 128)) : Nat := (failingBlocks p2 es).foldl (fun n x => n + 2 ^ x.1) 0

/-- LANE_BIST_RESULT (R471). -/
def bistWord : BistResult → Word
  | .pass => 0
  | .logicFail p2 es => pack [(0, blockMask p2 es)]
  | .sramFail m _ => pack [(16, m.val), (23, 1)]
  | .dramFail _ => pack [(24, 1)]

/-- Payload of a BIST_FAIL record after its lane number (R469): kind; block bits, or macro; failing row or address; the low 64 bits of the
first failing block's signature. Several blocks that fail give several bits and the first one's signature (DESIGN CHOICE, log entry 35). -/
def bistFault : BistResult → List Byte
  | .pass => le 1 0 ++ le 2 0 ++ le 4 0 ++ le 8 0
  | .logicFail p2 es => le 1 1 ++ le 2 (blockMask p2 es) ++ le 4 0 ++
      le 8 (match failingBlocks p2 es with | x :: _ => (signature x.1 x.2).toNat % 2 ^ 64 | [] => 0)
  | .sramFail m row => le 1 2 ++ le 2 m.val ++ le 4 row.val ++ le 8 0
  | .dramFail a => le 1 3 ++ le 2 0 ++ le 4 a.toNat ++ le 8 0

/-- BIST_PASS with its record and counts; the duration is open (R465, R469, R471). -/
def bistPassed (s : State) (l : Lane) (march : Bool) (repaired : Nat) (start : Time) : State :=
  let b := (lane s l).bist
  let dur := (Config.freeValue s.free).toNat
  let s1 := modLane { s with free := s.free + 1 } l (fun L => { L with bist := { L.bist with
    last := 1, cycle := cycle16 s, result := 0, passes := satInc L.bist.passes, overdue := false, overdueAt := none } })
  let s2 := modLife s1 (fun f => { f with lanes := f.lanes.set l { f.lanes.get l with bistPass := start } })
  eventLane s2 l 163 0x0705 (le 1 l.num ++ le 1 (3 + 4 * bit march) ++ le 1 b.trigger.toNat ++ le 1 0 ++ le 4 dur ++
    le 2 repaired ++ le 1 (lowestSpares b) ++ le 1 0)

/-- BIST_FAIL with its record and counts (R465, R469, R471). -/
def bistFailed (s : State) (l : Lane) (r : BistResult) : State :=
  let s1 := modLane s l (fun L => { L with bist := { L.bist with
    last := 2, cycle := cycle16 s, result := bistWord r, fails := satInc L.bist.fails } })
  eventLane s1 l 164 0x0706 (le 1 l.num ++ bistFault r)

/-! ### Re-initialisation (step 2 of the reintegration sequence, R433) -/

/-- The Press with its data cleared; its report registers stay (R113, R116). -/
def pressCleared (p : Press) : Press :=
  { stopPress p with data := PressData.reset, writes := [], done := none, issued := [], newEdges := [], wrote := [], halted := false }

/-- The RAA with its element states and locks cleared; its report registers stay (R159). -/
def raaCleared (r : Raa) : Raa :=
  { r with elems := [], locks := [], lastStatus := [], queue := [], decided := 0, refused := 0, length := 0, toProve := []
           proved := 0, virtSnap := [], releases := [], failedAspects := [], activity := 0 }

/-- Two banks compare equal: by vintage number, CRC and state; the CRC-64/XZ of a bank is its parameter check value (R433; DEDUCED, log
entry 82). -/
def banksEqual (a b : Bank) : Bool :=
  decide (a.active.map (·.number) = b.active.map (·.number)) && decide (a.st = b.st) && decide (a.number = b.number) &&
  decide (a.activeCheck = b.activeCheck) && decide (a.stagedCheck = b.stagedCheck)

/-- A bank taken from a serving lane, with its state and expiry; its store is written again after the join (R433). -/
def bankFrom (own given : Bank) : Bank :=
  let src := stageDropped given
  if banksEqual own src then { own with rackTo := none, rackDone := none }
  else { own with active := src.active, activeCheck := src.activeCheck, st := src.st, number := src.number
                  staged := src.staged, stagedCheck := src.stagedCheck, verifying := false, parts := none, received := []
                  expiry := src.expiry, rewrite := some (src.storeA, src.storeB), rackTo := none, rackDone := none }

/-- The stores of banks that a lane has taken are written: at the first tick after it has joined (R433; DESIGN CHOICE, log entry 82). -/
def writeTaken (s : State) (l : Lane) : State :=
  if serving s l then
    modLane s l (fun L => match L.bank.rewrite with
      | some (a, b) => { L with bank := { L.bank with storeA := a, storeB := b, rewrite := none } }
      | none => L)
  else s

/-- A lane takes the banks in which it differs from the serving lanes (R433). -/
def takeBanks (s : State) (l : Lane) : State :=
  match (servingLanes s).filter (fun m => decide (m ≠ l)) with
  | m :: _ => modLane s l (fun L => { L with bank := bankFrom L.bank (lane s m).bank })
  | [] => s

/-- The store whose vintage is the target, else the newer one, with the other store (R426). -/
def pickStore (a b : Option (Vintage × Nat)) (target : Word) : Option Vintage × Option Vintage :=
  match a, b with
  | some x, some y =>
    let ax := decide (x.1.number = target)
    let bx := decide (y.1.number = target)
    if ax = bx then (if x.2 ≥ y.2 then (some x.1, some y.1) else (some y.1, some x.1))
    else if ax then (some x.1, some y.1) else (some y.1, some x.1)
  | some x, none => (some x.1, none)
  | none, some y => (some y.1, none)
  | none, none => (none, none)

/-- The vintage that a BOOT takes: that of RESTART_INTO, else the confirmed one (R426, R484). -/
def bootTarget (s : State) : Word :=
  if s.mod.bootInto ≠ 0 then s.mod.bootInto
  else if s.cellar.life.restartInto ≠ 0 then s.cellar.life.restartInto
  else s.cellar.life.confirmed

/-- A store that does not verify at BOOT gives no bank (R426, R472 step 4). -/
def verified (b : Bank) (badA badB : Bool) : Bank :=
  { b with storeA := if badA then none else b.storeA, storeB := if badB then none else b.storeB }

/-- The banks built from the stores (R426); the second store's vintage takes the state it held (log entry 12). -/
def builtBank (b : Bank) (target : Word) : Bank :=
  let x := pickStore b.storeA b.storeB target
  let keeps := decide (b.st = .staged) || decide (b.st = .previous)
  let other := if keeps then x.2 else none
  let check := fun (v : Option Vintage) => match v with | some v => paramValue v | none => 0
  { b with active := x.1, activeCheck := check x.1, staged := other, stagedCheck := check other
           number := match other with | some v => v.number | none => 0
           st := if other.isSome then b.st else .empty, rackTo := none, rackDone := none, verifying := false
           parts := none, received := [] }

/-- A lane builds its banks from the stores that verify; the boot NOR keeps both. -/
def buildBanks (s : State) (l : Lane) (badA badB : Bool) : State :=
  modLane s l (fun L => { L with bank := { builtBank (verified L.bank badA badB) (bootTarget s) with
    storeA := L.bank.storeA, storeB := L.bank.storeB } })

/-- The lane re-initialises: data cleared, banks rebuilt from the stores where it holds none, as after a DRAM march, and compared with those
of the serving lanes; the firmware that it reloads is that of its boot slot (R433, R467, R518). -/
def reinitialise (s : State) (l : Lane) : State :=
  let s1 := modLane s l (fun L => { L with press := pressCleared L.press, raa := raaCleared L.raa })
  takeBanks (if (laneVintage s l).isSome then s1 else buildBanks s1 l false false) l

/-- A lane enters TEST (R24): the marks of its last time out are gone (R113, R196, R397). -/
def enterTest (s : State) (l : Lane) (e : TestEntry) : State :=
  modLane (modSluices s (fun _ x => { x with linkTimedOut := vput x.linkTimedOut l.idx false })) l (fun L => { L with
    life := { L.life with st := .test, entry := e, testsDone := false, planned := .none, join := .none, startStep := 0, classNoted := false }
    press := { L.press with halted := false }
    chk := { L.chk with netFault := false } })

/-- A lane is in TEST with its tests passed. -/
def tested (s : State) (l : Lane) (e : TestEntry) : State :=
  modLane (enterTest s l e) l (fun L => { L with life := { L.life with testsDone := true } })

/-! ### Schedule and start (R461, R462, R464) -/

/-- A planned activity runs, or a lane is out for one (R31). -/
def plannedRuns (s : State) : Bool := Lane.list.any (fun l => decide ((lane s l).life.planned ≠ .none))

/-- An accepted RACK waits for its switch (R462). -/
def rackWaits (s : State) : Bool := Lane.list.any (fun l => (lane s l).bank.rackTo.isSome)

/-- A staged bank is RECEIVING or VERIFYING (R462). -/
def stagingRuns (s : State) : Bool :=
  Lane.list.any (fun l => decide ((lane s l).bank.st = .receiving) || (lane s l).bank.verifying)

/-- The module lets a BIST start (R462). -/
def bistAllowed (s : State) : Bool :=
  decide (s.mod.st = .svc3) && Lane.list.all (fun l => decide (lst s l ≠ .reintegrating)) && !plannedRuns s &&
  !rackWaits s && !stagingRuns s

/-- A due time n × D, for lane B and C later by D/3 and 2D/3, lies in the t ns from a global time on (R461). -/
def dueWithin (d : Nat) (l : Lane) (now : Time) (t : Nat) : Bool :=
  let p := d * hour1
  decide (0 < d) && decide ((p + p * l.idx / 3 - now.toNat % p) % p < t)

/-- BIST_DUE (R461): in the cycle that holds the lane's due time; a due time that passes while a BIST is due adds nothing. -/
def execBistDue (l : Lane) (s : State) : Host.Outcome State Fault Refusal :=
  .next (match laneVintage s l with
    | some v =>
      if dueWithin v.bistInterval l s.mod.tickTime (periodNs s) then
        modLane s l (fun L => { L with bist := { L.bist with due := true } })
      else s
    | none => s)

/-- Whether a scheduled BIST includes the march, and the new count (R461). -/
def marchNow (n since : Nat) : Bool × Nat :=
  if n = 0 then (false, since) else if since + 1 ≥ n then (true, 0) else (false, since + 1)

/-- A request that the last tick has brought to its start (R464). -/
def requestReady (b : Bist) : Option Bool := if b.asked then none else b.requested

/-- What the lane's BIST controller takes at a start (R461, R464, R471). -/
def bistBegin (b : Bist) (every : Nat) (now : Time) : Bist :=
  let x := marchNow every b.sinceMarch
  let b1 := { b with due := false, result := 0, startedAt := now, runNs := 0 }
  match requestReady b with
  | some m => { b1 with requested := none, trigger := 1, march := m, sinceMarch := if m then 0 else b.sinceMarch }
  | none => { b1 with trigger := 0, march := x.1, sinceMarch := x.2 }

/-- BIST_START (R462, R464, R465): the lane is isolated with the planned cause BIST, and the flush of its staging begins. -/
def execBistStart (l : Lane) (s : State) : Host.Outcome State Fault Refusal :=
  .next (
    let b := (lane s l).bist
    if bistAllowed s && decide (s.mod.phase = .input) && serving s l && (b.due || (requestReady b).isSome || b.overdue) then
      let every := match laneVintage s l with | some v => v.marchEvery | none => 0
      let s1 := modLane s l (fun L => { L with bist := bistBegin L.bist every s.mod.tickTime })
      setPhase (isolate s1 l .bist) l 1
    else s)

/-- A request that has not started in the input phase after its tick is refused (R464); MAINT_CLEAR has recorded it. -/
def dropRequests (s : State) : State :=
  modLanes s (fun _ L => { L with bist := { L.bist with requested := if L.bist.asked then L.bist.requested else none } })

/-- The phase that the durations of R457 give at a time after the start. -/
def phaseAt (march : Bool) (ns : Nat) : BitVec 3 :=
  if ns < 660000 then 1 else if ns < 30660000 then 2 else if ns < 40660000 then 3 else if ns < 160660000 then 4
  else if march then 5 else 4

/-- What the march test of SRAM BIST leaves in the macros of one use (R459): their cells cleared. The staging buffer is flushed before, the
EIC is restored, and sessions and link buffers come with the snapshot (DESIGN CHOICE, log entry 35). -/
def marchedUse (L : LaneState) : MacroUse → LaneState
  | .pressData => { L with press := pressCleared L.press }
  | .elements => { L with raa := { L.raa with elems := [] } }
  | .locks => { L with raa := { L.raa with locks := [] } }
  | .buffers => L

/-- The march test of SRAM BIST runs over all macros (R459): the first macro of each use stands for its group. -/
def sramMarched (L : LaneState) : LaneState := ([0, 64, 80, 82].map macroUse).foldl marchedUse L

/-- The DRAM march destroys the content of the LPDDR4X: the banks and the ledger (R467). -/
def dramMarched (L : LaneState) : LaneState :=
  { L with bank := { L.bank with active := none, activeCheck := 0, staged := none, stagedCheck := 0 }
           mbx := { L.mbx with ledgers := [] } }

/-- The parts of R457 that begin as a running BIST goes from one phase to another. -/
def enterParts (s : State) (l : Lane) (ph : BitVec 3) : State :=
  let old := (lane s l).bist.phase
  let s1 := movePhase s l ph
  let s2 := if old.toNat < 4 ∧ 4 ≤ ph.toNat then modLane s1 l sramMarched else s1
  if old.toNat < 5 ∧ ph = 5 then modLane s2 l dramMarched else s2

/-- A running BIST goes on with time: its staging is flushed at the first tick after the start, and the parts begin in their order (R457,
R465). -/
def bistTick (s : State) (l : Lane) : State :=
  let b := (lane s l).bist
  let run := decide (b.phase ≠ 0) && decide (b.phase ≠ 6)
  let s1 := modLane s l (fun L => { L with bist := { L.bist with
    asked := false, runNs := if run then L.bist.runNs + periodNs s else L.bist.runNs } })
  if run then
    let s2 := if b.phase = 1 then drainStaging (closeLost s1 l) l else s1
    let ph := phaseAt b.march (b.runNs + periodNs s)
    if b.phase.toNat < ph.toNat then enterParts s2 l ph else s2
  else s1

/-- The part of R457 that a verdict belongs to. -/
def partOf : BistResult → Nat
  | .pass => 6
  | .logicFail p2 _ => if p2 then 3 else 2
  | .sramFail _ _ => 4
  | .dramFail _ => 5

/-- ns after the start in which every part can have passed (R457): the flush takes no less than no time, each macro retested 2 ms. -/
def passAfter (march : Bool) (repaired : Nat) : Nat := 160000000 + 2000000 * repaired + if march then 2000000000 else 0

/-- A running BIST can end so in the cycle that runs, which lasts t ns: a part fails while it runs, and all have passed only after their time
(R457). -/
def bistEnds (b : Bist) (t : Nat) (x : List SoftRepair × BistResult) : Bool :=
  decide (b.phase ≠ 0) && decide (b.phase ≠ 6) &&
  (match x.2 with
   | .pass => decide (passAfter b.march x.1.length ≤ b.runNs + t)
   | r => decide (b.phase.toNat ≤ partOf r) && decide (partOf r ≤ (phaseAt b.march (b.runNs + t)).toNat))

/-- BIST_END (R460, R465, R467): with every part passed the lane re-initialises, its last phase, and goes on in TEST; with a failed part it
leaves TEST in a counted isolation. -/
def execBistEnd (l : Lane) (r : BistResult) (repairs : List SoftRepair) (s : State) :
    Host.Outcome State Fault Refusal :=
  .next (
    let b := (lane s l).bist
    let v := testVerdict b { result := r, repairs := repairs }
    if bistEnds b (periodNs s) v then
      let s1 := foldS v.1 (softRepair l) (movePhase s l (if v.2 = .pass then 6 else 0))
      match v.2 with
      | .pass => tested (reinitialise (bistPassed s1 l b.march v.1.length b.startedAt) l) l .fromIsolated
      | r => isolate (enterTest (bistFailed s1 l r) l .fromIsolated) l (bistCause r)
    else s)

/-- BIST_OVERDUE (R463): once in every 24 h. -/
def execBistOverdue (l : Lane) (s : State) : Host.Outcome State Fault Refusal :=
  .next (
    let now := s.mod.tickTime.toNat
    let again := match (lane s l).bist.overdueAt with | some t => decide (now ≥ t.toNat + day24) | none => true
    if runs s l && decide (now ≥ ((s.cellar.life.lanes.get l).bistPass).toNat + day24) && again then
      let s1 := modLane s l (fun L => { L with bist := { L.bist with overdue := true, overdueAt := some s.mod.tickTime } })
      eventLane s1 l 164 0x0706 (le 1 l.num ++ le 1 4 ++ le 2 0 ++ le 4 0 ++ le 8 0)
    else s)

/-- A request of some lane waits for its tick (R464). -/
def requestWaits (s : State) : Bool := Lane.list.any (fun l => (lane s l).bist.requested.isSome)

/-- BIST_REQUEST (R31, R464): authorised and recorded; it starts at the next tick where the module lets a BIST start and no other request
waits, else it is refused. -/
def execBistRequest (l : Lane) (march : Bool) (auth : Auth) (s : State) : Host.Outcome State Fault Refusal :=
  .next (harnal s auth 8 l.num (fun s =>
    if bistAllowed s && serving s l && !requestWaits s then
      modLane s l (fun L => { L with bist := { L.bist with requested := some march, asked := true } })
    else s))

end Sys2Proof.Machine
end

