-- ==== Sys2Proof/Machine/LaneLife.lean ====
section
/-!
DEFINITION. Reintegration and what takes a lane out by itself (R24, R28, R39, R40, R48, R188 to R191, R445, R448, R518).
-/

namespace Sys2Proof.Machine

/-- ECC_UNCORRECTABLE (R39, R173): cause MEMORY, or what is found before it in the same clock. -/
def execEccUncorrectable (f : Finding) (s : State) : Host.Outcome State Fault Refusal :=
  .next (isolate s f.lane (firstCause .memory f.also))

/-- FIRMWARE_SELF_CHECK (R39): cause SELF. -/
def execFirmwareSelfCheck (l : Lane) (s : State) : Host.Outcome State Fault Refusal := .next (isolate s l .self)

/-! ### TEST (R518) -/

/-- The lane leaves ISOLATED for TEST: no lone latch holds it, and no planned activity runs in it (R24, R176). -/
def mayRetest (s : State) (l : Lane) : Bool :=
  decide (lst s l = .isolated) && !(lane s l).life.loneHeld && decide ((lane s l).life.planned = .none)

/-- The lane is in TEST after a retirement clear, or after an update with MODE PARK, and has not run its tests (R28, R448, R518). -/
def clearedTest (s : State) (l : Lane) : Bool :=
  decide (lst s l = .test) && decide ((lane s l).life.entry ≠ .fromBoot) && !(lane s l).life.testsDone

/-- The march does not run in the tests of TEST (R472 step 3, R518). -/
def noMarch : BistResult → Bool
  | .pass => true | .logicFail _ _ => true | .sramFail _ _ => true | .dramFail _ => false

/-- The tests of a lane start: their trigger, and no result yet (R471). -/
def beginTests (s : State) (l : Lane) (trigger : BitVec 2) : State :=
  modLane s l (fun L => { L with bist := { L.bist with trigger := trigger, result := 0 } })

/-- The tests of a cleared lane carry trigger 1 and their records (R465, R518). -/
def clearedResult (s : State) (l : Lane) (v : List SoftRepair × BistResult) : State :=
  let s1 := foldS v.1 (softRepair l) (beginTests s l 1)
  match v.2 with
  | .pass => bistPassed s1 l false v.1.length s.mod.tickTime
  | r => bistFailed s1 l r

/-- REINITIALISATION (R518, R433): the result of the tests that the lane runs. -/
def execReinitialisation (l : Lane) (r : TestRun) (s : State) : Host.Outcome State Fault Refusal :=
  .next (
    let e : TestEntry := if clearedTest s l then (lane s l).life.entry else .fromIsolated
    let v := testVerdict (lane s l).bist r
    if (mayRetest s l || clearedTest s l) && noMarch v.2 then
      let s1 := enterTest s l e
      let s2 := if e = .fromRetired then clearedResult s1 l v else s1
      match v.2 with
      | .pass => tested (reinitialise s2 l) l e
      | r => isolate s2 l (bistCause r)
    else s)

/-! ### SYNC, transfer, catch-up (R40, R48, R188, R189) -/

/-- Compatibility class of a firmware version (R444). -/
def fwClass (v : Word) : Nat := field v 31 16

/-- The lane's firmware lies in the class of the serving lanes (R48). -/
def classOk (s : State) (l : Lane) : Bool :=
  (servingLanes s).all (fun m => decide (fwClass (lane s m).boot.version = fwClass (lane s l).boot.version))

/-- A lane enters SYNC; BOOT_MS is taken at the first SYNC after its reset and is open (R24, R488). -/
def enterSync (s : State) (l : Lane) : State :=
  let fresh := decide ((lane s l).life.entry = .fromBoot)
  let ms : BitVec 16 := satAdd 0 ((Config.freeValue s.free).toNat % 32768)
  modLane { s with free := s.free + 1 } l (fun L => { L with
    life := { L.life with
      st := .sync, join := .none, startStep := if fresh then 6 else 0, bootMs := if fresh then ms else L.life.bootMs }
    bist := { L.bist with phase := 0 } })

/-- The event of a lane whose firmware lies outside the class (R48): UPDATE_DONE with reason CLASS, the versions of the serving lanes and
of the lane (log entry 55). -/
def noteClass (s : State) (l : Lane) : State :=
  if (lane s l).life.classNoted then s
  else
    let s1 := modLane s l (fun L => { L with life := { L.life with classNoted := true } })
    eventLane s1 l 162 0x0703 (le 4 (lane s (refLane s)).boot.version.toNat ++ le 4 (lane s l).boot.version.toNat ++
      le 1 0 ++ le 1 0x0C ++ le 1 (bit (lane s l).boot.slot) ++ le 1 0 ++ le 4 s.cellar.life.versionFloor.toNat)

/-- LANE_SYNC (R40, R48): a lane that has finished TEST while the module operates; one outside the serving lanes' class stays. -/
def execLaneSync (l : Lane) (s : State) : Host.Outcome State Fault Refusal :=
  .next (
    if decide (lst s l = .test) && (lane s l).life.testsDone && s.mod.ticking && operating s.mod.st &&
        !(lane s l).life.loneHeld then
      if classOk s l then enterSync s l else noteClass s l
    else s)

/-- The module lets a lane reintegrate (R24, R32). -/
def mayReintegrate (s : State) : Bool :=
  decide (s.mod.st = .svc2) ||
  ((decide (s.mod.st = .commissioning) || decide (s.mod.st = .starting)) && decide ((servingLanes s).length = 2))

/-- STATE_TRANSFER (R24, R188, R189): the serving lanes freeze the snapshot and send their halves. -/
def execStateTransfer (l : Lane) (s : State) : Host.Outcome State Fault Refusal :=
  .next (
    if decide (lst s l = .sync) && mayReintegrate s then
      modLane s l (fun L => { L with
        life := { L.life with st := .reintegrating, join := .transferring, startStep := 0 }, xfer := servedSnapshot s l })
    else s)

/-- The lane stands at a step of its reintegration. -/
def joinAt (s : State) (l : Lane) (j : JoinStep) : Bool :=
  decide (lst s l = .reintegrating) && decide ((lane s l).life.join = j)

/-- Move on in the reintegration. -/
def setJoin (s : State) (l : Lane) (j : JoinStep) : State :=
  modLane s l (fun L => { L with life := { L.life with join := j } })

/-- TRANSFER_VERIFIED (R165, R189): the checks of the 96 blocks as they arrived; one that is not the CRC of its block is a counted
isolation with cause TRANSFER. What has verified stands in xfer until the last batch completes it. -/
def execTransferVerified (l : Lane) (checks : List (BitVec 64)) (s : State) : Host.Outcome State Fault Refusal :=
  .next (
    if joinAt s l .transferring then
      match (lane s l).xfer with
      | some x =>
        if checks = transferChecks x then setJoin s l (.verified 0) else isolate s l .transfer
      | none => isolate s l .transfer
    else s)

/-- Catch-up batches that have not been in time. -/
def catchUps : JoinStep → Option Nat
  | .catchUp n => some n
  | .none => none | .transferring => none | .verified _ => none | .caughtUp => none | .shadow _ => none

/-- A catch-up batch has arrived (R165, R189): in time, the joining lane holds every block as the serving lanes hold it after the logic
phase; else the next cycle sends the blocks marked since, for at most 3 cycles. -/
def catchUpDone (s : State) (l : Lane) (n : Nat) (inTime : Bool) (now : Snapshot) : State :=
  if inTime then setJoin (modLane s l (fun L => { putSnapshot L now with xfer := none })) l .caughtUp
  else if n ≥ 2 then isolate s l .transfer
  else setJoin (modLane s l (fun L => { L with xfer := some now })) l (.verified (n + 1))

/-- The blocks that the serving lanes' Press has written in this cycle are marked too (R189). -/
def wroteSince (s : State) (x : Snapshot) : Snapshot :=
  { x with marks := (lane s (refLane s)).press.wrote.foldl bset x.marks }

/-- CATCH_UP (R165, R189): from END_VOTE of a cycle, with the checks of the two serving lanes' batches as they arrived. -/
def execCatchUp (l : Lane) (inTime : Bool) (checks : List (BitVec 64)) (s : State) : Host.Outcome State Fault Refusal :=
  .next (
    match catchUps (lane s l).life.join with
    | none => s
    | some n =>
      if decide (lst s l = .reintegrating) && (decide (s.mod.phase = .output) || decide (s.mod.phase = .idle)) then
        match (lane s l).xfer.map (wroteSince s), servedSnapshot s l with
        | some sent, some now => if checks = catchUpChecks sent now then catchUpDone s l n inTime now else isolate s l .transfer
        | _, _ => isolate s l .transfer
      else s)

/-- At the tick the marks of the cycle that has ended stay with what was sent (R189). -/
def keepMarks (s : State) (l : Lane) : State := modLane s l (fun L => { L with xfer := L.xfer.map (wroteSince s) })

/-- At the tick after the last catch-up cycle the joining lane's digest is checked against every serving lane's; a lane whose transfer
has verified catches up from now on (R189). -/
def joinTick (s : State) (l : Lane) : State :=
  match lst s l, (lane s l).life.join with
  | .reintegrating, .caughtUp =>
    if (servingLanes s).all (fun m => areasEqual (snapshotOf (lane s l)) (snapshotOf (lane s m))) then setJoin s l (.shadow 0)
    else isolate s l .transfer
  | .reintegrating, .verified n => setJoin (if n = 0 then keepMarks s l else s) l (.catchUp n)
  | .reintegrating, _ => keepMarks s l
  | _, _ => s

/-! ### Join (R40, R445, R448) -/

/-- FLOOR_RAISE (R445). -/
def floorRaise (s : State) (l : Lane) : State :=
  let f := (lane s l).boot.floor
  let old := s.cellar.life.versionFloor
  if f.toNat > old.toNat ∧ Lane.list.all (fun m => decide ((lane s m).boot.version.toNat ≥ f.toNat)) = true then
    addHistory (modPages s [6] (fun x => { x with versionFloor := f })) 2 l.num f.toNat (old.setWidth 64)
  else s

/-- FW_UPDATED payload (R453). -/
def fwPayload (s : State) (l : Lane) (d : FwDelta) (reason : Nat) : List Byte :=
  le 4 d.oldVersion.toNat ++ le 4 d.newVersion.toNat ++ le 1 (bit d.park) ++ le 1 reason ++
  le 1 (bit (lane s l).boot.slot) ++ le 1 0 ++ le 4 s.cellar.life.versionFloor.toNat

/-- A firmware update of a lane ends with a reason: FW_UPDATED and UPDATE_DONE, history of a success, and the completion
(R434, R448, R453, R456). -/
def endUpdate (s : State) (l : Lane) (reason : Nat) : State :=
  match (lane s l).boot.update with
  | none => s
  | some (d, t) =>
    let s1 := modLane s l (fun L => { L with boot := { L.boot with
      update := none, step := 0, reason := BitVec.ofNat 8 reason } })
    let s2 := if reason = 0 then addHistory s1 1 l.num d.newVersion.toNat (d.oldVersion.setWidth 64) else s1
    let s3 := eventLane s2 l 162 0x0703 (fwPayload s2 l d reason)
    finishAll s3 t.ref (outcomeNow s (if reason = 0 then 0x05 else 0x3C)
      (resultOf t.ref 5 ((lane s l).boot.deltaBytes + 2 ^ 32 * reason)))

/-- LANE_JOIN (R24, R40): at the next tick after two equal shadow cycles. -/
def execLaneJoin (l : Lane) (s : State) : Host.Outcome State Fault Refusal :=
  .next (
    match (lane s l).life.join with
    | .shadow n =>
      if decide (lst s l = .reintegrating) && decide (n ≥ 2) && (decide (s.mod.phase = .input) || decide (s.mod.phase = .idle)) &&
          mayReintegrate s then
        let s1 := modLane s l (fun L => { L with life := { L.life with st := .serving, join := .none } })
        let s2 := modSluices s1 (fun _ x => { x with voting := vput x.voting l.idx true })
        let s3 := eventAll s2 2 0x0102 (lanePayload s2 l false)
        let s4 := if s3.mod.st = .svc2 ∧ (servingLanes s3).length = 3 then setModule s3 .svc3 else s3
        latchRule (endUpdate (floorRaise s4 l) l 0)
      else s
    | _ => s)

/-! ### Retirement clear (R28) -/

/-- The retirement of a lane ends: its window is empty, and RETIRE_CLEARED is recorded (R28, R404). -/
def clearRetirement (s : State) (l : Lane) : State :=
  let s1 := modPages s [3] (fun f => { f with lanes := f.lanes.set l { f.lanes.get l with retired := false, stamps := [] } })
  recordAll s1 0x0103 (lanePayload s1 l false)

/-- RETIREMENT_CLEAR (R28, R486): in SAFE it takes effect at the next restart. -/
def execRetirementClear (l : Lane) (auth : Auth) (s : State) : Host.Outcome State Fault Refusal :=
  .next (
    if !(s.cellar.life.lanes.get l).retired then s
    else harnal s auth 1 l.num (fun s =>
      if s.mod.st = .safe then modLane s l (fun L => { L with life := { L.life with clearPending := true } })
      else
        let s1 := clearRetirement s l
        if lst s l = .retired then enterTest s1 l .fromRetired else s1))

end Sys2Proof.Machine
end

