-- ==== Sys2Proof/Machine/Supply.lean ====
section
/-!
DEFINITION. Supplies, clocks and resets (R24, R25, R392, R408, R446, R483 to R493, R505): what a reset of a lane or of the module
leaves, the release, warnings, the parked slots compared at a restart.
-/

namespace Sys2Proof.Machine

/-! ### Firmware slots (R444 to R449) -/

/-- The image of the boot slot and that of the other slot change places. -/
def switchSlot (b : Boot) : Boot :=
  { b with slot := !b.slot, image := b.otherImage, otherImage := b.image, floor := b.otherFloor, otherFloor := b.floor }

/-- Version in the boot slot. -/
def slotVersion (b : Boot) : Word := if b.slot then b.slot1 else b.slot0

/-- State of slot 1 or 0. -/
def slotState (b : Boot) (one : Bool) : SlotSt := if one then b.st1 else b.st0

/-- Put the state of slot 1 or 0. -/
def putSlotState (b : Boot) (one : Bool) (x : SlotSt) : Boot := if one then { b with st1 := x } else { b with st0 := x }

/-- Put the version of slot 1 or 0. -/
def putSlotVersion (b : Boot) (one : Bool) (v : Word) : Boot := if one then { b with slot1 := v } else { b with slot0 := v }

/-- Version of a parked image, in the slot that the lane does not boot (R446). -/
def parkedVersion (b : Boot) : Option Word :=
  if slotState b (!b.slot) = .parked then some (if b.slot then b.slot0 else b.slot1) else none

/-- The lanes compare their parked slots: three of one version are booted, else every mark is cleared (R446). -/
def parkCompare (s : State) : State :=
  let v := fun l => parkedVersion (lane s l).boot
  let same := (v .A).isSome && decide (v .A = v .B) && decide (v .A = v .C)
  modLanes s (fun _ L =>
    let b := L.boot
    let parked := (parkedVersion b).isSome
    let b1 := if parked then putSlotState b (!b.slot) .valid else b
    { L with boot := if same then switchSlot b1 else b1 })

/-! ### What a reset leaves -/

/-- What the boot NOR and the running update keep through a reset (R426, R448, R449, R456). -/
def bootKept (b : Boot) (update : Bool) : Boot :=
  { b with step := if update then b.step else 0, reason := 0, update := if update then b.update else none
           deltaBytes := if update then b.deltaBytes else 0, taking := false, delta := [], slotsRead := false
           romAddr := 0, romLen := 0, romStatus := 0, romImage := none }

/-- What the vintage stores keep through a reset (R426, R428). -/
def bankKept (b : Bank) : Bank :=
  { Bank.reset with
    storeA := b.storeA, storeB := b.storeB, expiry := b.expiry
    st := match b.st with | .staged => .staged | .previous => .previous | .empty => .empty | .receiving => .empty }

/-- A lane right after its own reset (R24, R483, R519): the Sluice keeps cause, cycle and lone latch. -/
def laneReset (L : LaneState) (cause : Nat) : LaneState :=
  let update := decide (cause = 6) || decide (cause = 7)
  { LaneState.reset with
    life := { LaneLife.reset with
      cause := L.life.cause, isoCycle := L.life.isoCycle, loneHeld := L.life.loneHeld, held := L.life.held
      railHeld := L.life.railHeld
      planned := if update then L.life.planned else .none, resetCause := BitVec.ofNat 8 cause
      prevCause := L.life.resetCause, clearPending := L.life.clearPending }
    bank := bankKept L.bank
    boot := bootKept L.boot update
    bist := { Bist.reset with fused := L.bist.fused }
    cel := { CelLane.reset with lastPeriod := L.cel.lastPeriod }
    fld := { LaneFld.reset with downRefresh := L.fld.downRefresh }
    pwr := { Pwr.reset with coreWarn := L.pwr.coreWarn } }

/-- Rings after the reset of their ring lane: only the count of their enables goes on. -/
def ringsReset (m : Sparse Ring) : Sparse Ring :=
  m.foldl (fun r e => sput Ring.reset r e.1 { Ring.reset with epoch := e.2.epoch }) []

/-- A port whose ring lane is reset: it is down (R296). -/
def portReset (x : PortState) : PortState :=
  { PortState.reset with perst := x.perst, msix := x.msix, fetched := x.fetched, sqs := ringsReset x.sqs
                         cqs := ringsReset x.cqs }

/-- The receivers report the links from a lane in reset (R164, R196). -/
def linksReset (s : State) (l : Lane) : State :=
  modSluices s (fun _ x => { x with linkUp := vput x.linkUp l.idx false, linkReset := vput x.linkReset l.idx true })

/-- A lane is reset (R24, R483): a firmware update under way is abandoned unless the reset belongs to it; a ring lane's port goes
down. -/
def resetOne (s : State) (l : Lane) (cause : Nat) : State :=
  let s1 := if cause = 6 ∨ cause = 7 then s else endUpdate s l 0x0F
  let s2 := modLane s1 l (fun L => laneReset L cause)
  let s3 := match ringPort l with
    | some p => modPort s2 p portReset
    | none => s2
  linksReset s3 l

/-- Retirement clears recorded in SAFE take effect at the restart (R28). -/
def applyClears (s : State) : State :=
  foldS Lane.list (fun s l => if (lane s l).life.clearPending then clearRetirement s l else s) s

/-- A lane after a reset of the whole module (R484, R519): its Sluice is reset too. -/
def laneCold (L : LaneState) (cause : Nat) : LaneState :=
  let x := laneReset L cause
  { x with life := { x.life with cause := .none, isoCycle := 0, loneHeld := false, clearPending := false } }

/-- A device that has FAILED stays so; another is read again (R410, R472). -/
def devReset (d : DevSt) : DevSt := match d with | .failed => .failed | .good => .notRead | .notRead => .notRead

/-- All lanes, Sluices and port dies are reset (R484, R492, R493): the field die goes on, but for the count of R294 that
restarts at BOOT, the lifetime area is as the keeper last wrote it (R418), and the outputs given stay. -/
def moduleReset (s : State) (m : ModSt) (cause : Nat) : State :=
  let s0 := applyClears s
  let s1 := modLife s0 (fun _ => s0.cellar.paged)
  let again := decide (s.mod.st = .safe) && decide (m = .boot)
  let s2 := modLife s1 (fun f => { f with restarts := if again then satInc f.restarts else f.restarts })
  { s2 with
    mod := { Module.reset with st := m, v3Warn := s.mod.v3Warn }
    lanes := s2.lanes.map (fun _ L => laneCold L cause)
    sluices := PerLane.all { Sluice.reset with linkReset := 7 }
    alk := Alk.reset
    ports := ⟨portReset s2.ports.p0, portReset s2.ports.p1⟩
    field := { s2.field with downErr := 0 }
    twin := { Twin.reset with epoch := s2.cellar.life.roleEpoch }
    cellar := { s2.cellar with dev0 := devReset s2.cellar.dev0, dev1 := devReset s2.cellar.dev1, keeper := none, clearing := none } }

/-- A restart into BOOT (R484). -/
def restartNow (s : State) (cause : Nat) : State := parkCompare (moduleReset s .boot cause)

/-! ### Release (R24, R492) -/

/-- A reset holds the lane (R25, R483). -/
def laneHeld (L : LaneState) : Bool := L.life.held || L.life.railHeld

/-- The lanes that are not held begin step 1 of R472; their reset lines fall, and the links report it (R196). -/
def beginBoot (s : State) : State :=
  let s1 := modLanes s (fun _ L =>
    if L.life.st = .boot ∧ laneHeld L = false then { L with life := { L.life with startStep := 1 } } else L)
  modSluices s1 (fun _ x => { x with linkReset := laneBits (fun l => laneBit x.linkReset l && laneHeld (lane s l)) })

/-- Every rail is within its range (R492). -/
def railsGood (s : State) : State :=
  modLanes s (fun _ L => { L with life := { L.life with railHeld := false }, pwr := { L.pwr with coreWarn := false } })

/-- RESET_RELEASE (R490, R492): out of OFF into BOOT; where the order of the rails was broken, the module stays in reset. -/
def execResetRelease (orderKept : Bool) (s : State) : Host.Outcome State Fault Refusal :=
  .next (
    match s.mod.st with
    | .off =>
      if orderKept then
        let s1 := modLife { s with mod := { s.mod with st := .boot, v3Warn := false } }
          (fun f => { f with powerCycles := satInc f.powerCycles })
        beginBoot (parkCompare (railsGood s1))
      else s
    | .boot => if orderKept then beginBoot s else s
    | _ => s)

/-- VDD_3V3_RESET (R20, R493): the module is OFF. -/
def execVdd3v3Reset (s : State) : Host.Outcome State Fault Refusal :=
  .next (if s.mod.st = .off then s else moduleReset s .off 0x01)

/-- IO_ANA_RESET (R493): a module reset, reported as POWER_ON. -/
def execIoAnaReset (s : State) : Host.Outcome State Fault Refusal :=
  .next (if s.mod.st = .off then s else moduleReset s .off 0x01)

/-- RESET_N_LOW (R484, R505): a restart at once, without a flush. -/
def execResetNLow (s : State) : Host.Outcome State Fault Refusal :=
  .next (if s.mod.st = .off then s else restartNow s 0x05)

/-! ### Warnings (R25, R406, R408, R493, R515) -/

/-- A lane's part in the 3V3 warning: count, level, record, the end of a BIST that SRAM BIST or march is running, power flush
(R406, R468, R515). -/
def laneV3Warn (mv : BitVec 16) (s : State) (l : Lane) : State :=
  let s1 := modLane s l (fun L => { L with pwr := { L.pwr with
    v3Warns := satInc L.pwr.v3Warns, v3Mv := mv.setWidth 12 } })
  let ph := (lane s1 l).bist.phase
  let s2 := if ph = 4 ∨ ph = 5 then endBist s1 l else s1
  let s3 := eventLane s2 l 5 0x0002 (le 2 mv.toNat ++ le 2 0)
  if runs s3 l then flushLane s3 l .power else s3

/-- RAIL_3V3_WARN (R406, R493). -/
def execRail3v3Warn (mv : BitVec 16) (s : State) : Host.Outcome State Fault Refusal :=
  .next (if s.mod.v3Warn || decide (s.mod.st = .off) then s
    else foldS Lane.list (laneV3Warn mv) { s with mod := { s.mod with v3Warn := true, powerFlush := true } })

/-- V3_WARN_RELEASE (R408, R493): staging resumes. -/
def execV3WarnRelease (s : State) : Host.Outcome State Fault Refusal :=
  .next (if s.mod.v3Warn then
      let s1 := { s with mod := { s.mod with v3Warn := false, powerFlush := false } }
      let s2 := modLanes s1 (fun _ L => { L with cel := { L.cel with powerFlush := false } })
      eicLevelAll s2 5 false
    else s)

/-- CORE_RAIL_WARN (R25, R493): an event, and no change of state. -/
def execCoreRailWarn (l : Lane) (mv : BitVec 16) (s : State) : Host.Outcome State Fault Refusal :=
  .next (if (lane s l).pwr.coreWarn || decide (s.mod.st = .off) then s
    else
      let s1 := modLane s l (fun L => { L with pwr := { L.pwr with
        coreWarn := true, coreWarns := satInc L.pwr.coreWarns, coreMv := mv.setWidth 12 } })
      eventLane s1 l 4 0x0003 (le 2 mv.toNat ++ le 2 0))

/-- A lane that nothing holds any more leaves its reset and boots (R24, R483). -/
def releaseLane (s : State) (l : Lane) : State :=
  if laneHeld (lane s l) || decide (s.mod.st = .off) then s
  else
    modSluices (modLane s l (fun L => { L with life := { L.life with startStep := 1 } }))
      (fun _ x => { x with linkReset := vput x.linkReset l.idx false })

/-- CORE_WARN_RELEASE (R24, R493): a lane that its rail has reset boots again. -/
def execCoreWarnRelease (l : Lane) (s : State) : Host.Outcome State Fault Refusal :=
  .next (
    let s1 := eicLevel (modLane s l (fun L => { L with pwr := { L.pwr with coreWarn := false } })) l 4 false
    if (lane s l).life.railHeld then
      releaseLane (modLane s1 l (fun L => { L with life := { L.life with railHeld := false } })) l
    else s1)

/-! ### Resets of one lane (R25, R483) -/

/-- Fewer than two lanes can boot and one is in ROM recovery (R20). -/
def checkRecovery (s : State) : State :=
  let can := Lane.list.filter (fun l => !(lane s l).life.rom && !laneHeld (lane s l))
  if s.mod.st = .boot ∧ can.length < 2 ∧ Lane.list.any (fun l => (lane s l).life.rom) = true then setModule s .recovery
  else s

/-- CORE_RAIL_RESET (R25): the isolation with cause RAIL comes before the reset, and the lane stays in reset until its rail
has recovered. -/
def execCoreRailReset (l : Lane) (s : State) : Host.Outcome State Fault Refusal :=
  .next (if s.mod.st = .off then s
    else
      let s1 := isolate s l .rail
      let s2 := modLane s1 l (fun L => { L with life := { L.life with railHeld := true }, pwr := { L.pwr with coreWarn := true } })
      checkRecovery (resetOne s2 l 0x02))

/-- CLOCK_LOSS (R39, R483): the stopped clock is a lost link; the lane is held in reset. -/
def execClockLoss (l : Lane) (s : State) : Host.Outcome State Fault Refusal :=
  .next (
    let s1 := modLane (isolate s l .link) l (fun L => { L with life := { L.life with held := true } })
    if s.mod.st = .off then s1 else checkRecovery (resetOne s1 l 0x03))

/-- CLOCK_RESTORED (R483): the lane boots. -/
def execClockRestored (l : Lane) (s : State) : Host.Outcome State Fault Refusal :=
  .next (if (lane s l).life.held then
      releaseLane (modLane s l (fun L => { L with life := { L.life with held := false } })) l
    else s)

/-- FW_WATCHDOG (R483): isolation with cause SELF, and a reset of the lane, which boots again. -/
def execFwWatchdog (l : Lane) (s : State) : Host.Outcome State Fault Refusal :=
  .next (if runs s l then
      releaseLane (resetOne (isolate s l .self) l 0x09) l
    else s)

end Sys2Proof.Machine
end

