-- ==== Sys2Proof/Machine/Start.lean ====
section
/-!
DEFINITION. Start-up and commissioning (R426, R433, R449, R472 to R475, R482, R484, R518): boots that fail, the start of the
firmware, the end of the start-up tests, the boot time limit, keys, restarts.
-/

namespace Sys2Proof.Machine

/-! ### Boot (R449, R472) -/

/-- A lane enters ROM recovery: the keeper's record, whose path and version bytes are open (R404, R453). -/
def romEntry (s : State) : State :=
  let x := Config.freeValue s.free
  recordLane { s with free := s.free + 1 } (keeperLane s) 0x0704
    (le 1 0 ++ le 1 0x0E ++ le 1 (x.toNat % 256) ++ le 1 0 ++ le 4 (x.toNat / 256))

/-- BOOT_FAILED (R449): the failed slot is rejected and the lane boots the other one; a second failure in a row enters ROM
recovery. -/
def execBootFailed (l : Lane) (s : State) : Host.Outcome State Fault Refusal :=
  .next (
    let L := lane s l
    if decide (L.life.st = .boot) && !L.life.rom && !laneHeld L && decide (s.mod.st ≠ .off) then
      let second := decide (L.boot.failed ≥ 1)
      let b1 := putSlotState L.boot L.boot.slot .rejected
      let b2 := { b1 with failed := min 2 (b1.failed + 1) }
      let s1 := modLane s l (fun L => { L with
        boot := if second then b2 else switchSlot b2
        life := { L.life with
          rom := second, startStep := if second then 0 else 1
          resetCause := if second then L.life.resetCause else 0x07
          prevCause := if second then L.life.prevCause else L.life.resetCause } })
      checkRecovery (if second then romEntry s1 else s1)
    else s)

/-- Global time at BOOT (R476): LAST_TIME plus 1 s, until the module ticks. -/
def startTime (s : State) : State :=
  if s.mod.ticking then s else { s with mod := { s.mod with tickTime := timeAdd s.cellar.life.lastTime 1000000000 } }

/-- The service core of a lane starts: what its registers and EIC show, and its reading of the Cellar (R472 steps 1 and 2). -/
def started (s : State) (x : FirmwareBoot) : State :=
  let l := x.lane
  let s0 := modSluices s (fun _ x => { x with
    linkTimedOut := vput x.linkTimedOut l.idx false, linkReset := vput x.linkReset l.idx false })
  let s1 := modLane s0 l (fun L => { L with
    life := { L.life with st := .test, entry := .fromBoot, testsDone := false, startStep := 2, planned := .none, classNoted := false }
    boot := { L.boot with version := slotVersion L.boot, failed := 0, slotsRead := true, romStatus := 0 }
    cel := { L.cel with lastPeriod := flushPeriod s } })
  let s2 := bootRead (bootRead s1 l 0 x.dev0) l 1 x.dev1
  let L := lane s2 l
  recordLane (settleLevels s2 l) l 0x0001 (le 4 L.life.resetCause.toNat ++ le 4 L.boot.version.toNat)

/-- FIRMWARE_START (R24, R449, R472): an update whose image did not boot ends with BOOT_FAILED. -/
def execFirmwareStart (x : FirmwareBoot) (s : State) : Host.Outcome State Fault Refusal :=
  .next (
    let l := x.lane
    let L := lane s l
    if decide (L.life.st = .boot) && !L.life.rom && !laneHeld L && decide (s.mod.st ≠ .off) then
      let fell := decide (L.life.resetCause = 0x07)
      let s1 := started (startTime s) x
      if fell then endUpdate s1 l 0x0E else s1
    else s)

/-! ### The end of the start-up tests (R472 steps 2 to 5, R474, R475) -/

/-- Lanes that have passed step 5 of their start. -/
def readyLanes (s : State) : List Lane :=
  Lane.list.filter (fun l => decide (lst s l = .test) && (lane s l).life.testsDone)

/-- Lanes that have passed step 5 and share their firmware class with another such lane (R48, R472). -/
def classLanes (s : State) : List Lane :=
  let cls := fun l => fwClass (lane s l).boot.version
  (readyLanes s).filter (fun l => (readyLanes s).any (fun m => decide (m ≠ l) && decide (cls m = cls l)))

/-- A lane takes the banks of two other lanes that agree (R472 step 5, R433). -/
def agreeBanks (s : State) (l : Lane) : State :=
  let (a, b) := l.others
  let two := decide (a ∈ classLanes s) && decide (b ∈ classLanes s) && banksEqual (lane s a).bank (lane s b).bank
  if two && decide (l ∈ classLanes s) && (servingLanes s).isEmpty then
    modLane s l (fun L => { L with bank := bankFrom L.bank (lane s a).bank })
  else s

/-- Two lanes agree on an active vintage, or on having none. -/
def agreedActive (s : State) : Option (Option Vintage) :=
  match classLanes s with
  | [a, b] => if laneVintage s a = laneVintage s b then some (laneVintage s a) else none
  | [a, b, c] =>
    if laneVintage s a = laneVintage s b ∨ laneVintage s a = laneVintage s c then some (laneVintage s a)
    else if laneVintage s b = laneVintage s c then some (laneVintage s b)
    else none
  | _ => none

/-- Sessions of a vintage: stations and peers CLOSED where they were not configured, none where the vintage has none (R235,
R442). -/
def configSessions (v : Vintage) (old : Sparse Session) : Sparse Session :=
  let keep := fun (i : Nat) =>
    let x := sget Session.reset old i
    if x.st = .notConfigured then { Session.reset with st := .closed } else x
  let stations := (List.range v.stations.length).foldl (fun m i => sput Session.reset m i (keep i)) []
  (List.range v.peers.length).foldl (fun m i => sput Session.reset m (512 + i) (keep (512 + i))) stations

/-- Index of a medium on a segment: 2s + m. -/
def mediumIx (g : Fin 4) (m : Medium) : Nat := 2 * g.val + m.idx

/-- A segment is configured: its schedule holds a slot other than SYNC and DELAY (R199). -/
def segConfigured (v : Vintage) (g : Nat) : Bool :=
  (lget [] v.schedule g).any (fun e => decide (e.kind ≠ .sync) && decide (e.kind ≠ .delay))

/-- Media of a vintage (R199, R233): a retired medium stays retired; one that is new to the vintage is in use. -/
def configMedia (v : Vintage) (retired : BitVec 8) (old : Sparse MediumRec) : Sparse MediumRec :=
  (List.range 8).foldl (fun m i =>
    let x := sget MediumRec.reset old i
    let st : MediumSt := if !segConfigured v (i / 2) then .notConfigured else if retired.getLsbD i then .retired
      else (match x.st with | .notConfigured => .inUse | y => y)
    sput MediumRec.reset m i { x with st := st }) []

/-- Session tables of every lane and media for the active vintage. -/
def configure (s : State) (v : Vintage) : State :=
  let s1 := modLanes s (fun _ L => { L with sessions := configSessions v L.sessions })
  { s1 with alk := { s1.alk with media := configMedia v s1.cellar.life.retiredMedia s1.alk.media } }

/-- Two lanes have passed step 5: the bus starts with LISTEN (R474), or the lanes tick by themselves (R475). -/
def startBus (s : State) : State :=
  if s.mod.st ≠ .boot ∨ s.mod.ticking then s
  else match agreedActive s with
    | some (some v) =>
      let s1 := configure s v
      if s.alk.node = .down then { s1 with alk := { s1.alk with node := .listen, heardCold := false } } else s1
    | some none =>
      if (classLanes s).all (fun l => decide (laneVintage s l = none)) then
        { s with mod := { s.mod with ticking := true, firstTick := true, noVintage := true } }
      else s
    | none => s

/-- A lane has built its banks: the vintage of RESTART_INTO is taken for this BOOT, and the keeper clears the word (R426, R484). -/
def takeInto (s : State) (l : Lane) : State :=
  let n := s.cellar.life.restartInto
  let has := match laneVintage s l with | some v => decide (v.number = bootTarget s) | none => false
  let booted := decide (s.mod.st = .boot) && (decide (n ≠ 0) || decide (s.mod.bootInto ≠ 0)) && has
  let s1 := { s with mod := { s.mod with bootedInto := s.mod.bootedInto || booted, bootInto := if n = 0 then s.mod.bootInto else n } }
  if n = 0 then s1 else modPages s1 [6] (fun f => { f with restartInto := 0 })

/-- The lane passed its start-up tests: banks built and compared, then SYNC waits for the first tick; a lane marked RETIRED enters
RETIRED (R364, R472). -/
def testsPassed (s : State) (l : Lane) (badA badB : Bool) : State :=
  let s2 := takeBanks (takeInto (buildBanks s l badA badB) l) l
  if (s.cellar.life.lanes.get l).retired then
    eicRaiseAll (modLane s2 l (fun L => { L with life := { L.life with st := .retired, startStep := 0 } })) 1
  else
    let s3 := modLane s2 l (fun L => { L with
      life := { L.life with testsDone := true, startStep := 5 }
      boot := { L.boot with step := if L.boot.update.isSome then 5 else L.boot.step } })
    startBus (foldS Lane.list agreeBanks s3)

/-- A start-up test of a lane has failed: a counted isolation, but a lane marked RETIRED stays RETIRED (R472). -/
def testsFailed (s : State) (l : Lane) (r : BistResult) : State :=
  let s1 := bistFailed s l r
  if (s.cellar.life.lanes.get l).retired then
    isolate (modLane s1 l (fun L => { L with life := { L.life with st := .retired, startStep := 0 } })) l (bistCause r)
  else isolate s1 l (bistCause r)

/-- LANE_TEST_DONE (R457, R460, R472): the repair map is loaded, then logic and SRAM BIST with trigger 2, and the banks are built from the
stores that verify. -/
def execLaneTestDone (x : StartTests) (r : BistResult) (repairs : List SoftRepair) (s : State) :
    Host.Outcome State Fault Refusal :=
  .next (
    let l := x.lane
    let L := lane s l
    if decide (L.life.st = .test) && decide (L.life.entry = .fromBoot) && !L.life.testsDone && noMarch r then
      let s1 := modLane (beginTests s l 2) l (fun L => { L with bist := { L.bist with repairs := s.cellar.life.repairs.get l } })
      let v := testVerdict (lane s1 l).bist { result := r, repairs := repairs }
      let s2 := foldS v.1 (softRepair l) s1
      match v.2 with
      | .pass => testsPassed (bistPassed s2 l false v.1.length s.mod.tickTime) l x.badA x.badB
      | r => testsFailed s2 l r
    else s)

/-- Lanes that have reached SYNC in this start (R473). -/
def reachedSync (s : State) : List Lane :=
  Lane.list.filter (fun l => match lst s l with | .sync => true | .serving => true | _ => false)

/-- BOOT_LIMIT (R20, R473). -/
def execBootLimit (s : State) : Host.Outcome State Fault Refusal :=
  .next (
    if decide (s.mod.st = .boot) && decide ((reachedSync s).length < 2) && !Lane.list.any (fun l => (lane s l).life.rom) then
      latchAll s .bootLimit
    else s)

/-! ### Key and restart (R482, R484, R485) -/

/-- The key is installed (R307, R482). KEY_VERSION stops at 65,535, as a saturating count of R11 does: DESIGN CHOICE, log entry 52. -/
def installKey (s : State) (key : BitVec 256) : State :=
  modPages s [6, 10] (fun f => { f with key := key, keyVersion := if f.keyVersion = 0xFFFF then f.keyVersion else f.keyVersion + 1, nonceLast := 0 })

/-- KEY_INSTALL (R482): the first key in COMMISSIONING with the module's SERIAL of page 0 entered; a later one under the current key. -/
def execKeyInstall (key : BitVec 256) (serial : BitVec 64) (auth : Auth) (s : State) : Host.Outcome State Fault Refusal :=
  .next (
    if s.cellar.life.keyVersion = 0 then
      if s.mod.st = .commissioning ∧ serial = s.cellar.life.serial then
        installKey (recordMaint s 6 0 { keyVersion := 0, nonce := 0, hmacOk := false }) key
      else s
    else if inService s.mod.st || decide (s.mod.st = .commissioning) then harnal s auth 6 0 (fun s => installKey s key)
    else s)

/-- A vintage number held in a store of some lane (R484). -/
def storeHolds (s : State) (n : Word) : Bool :=
  Lane.list.any (fun l =>
    let b := (lane s l).bank
    let has := fun (x : Option (Vintage × Nat)) => match x with | some v => decide (v.1.number = n) | none => false
    has b.storeA || has b.storeB)

/-- A requested restart: every lane flushes its staging first (R484). -/
def requestedRestart (s : State) (into : Word) : State :=
  let s1 := foldS Lane.list (fun s l => if runs s l then flushLane s l .power else s) s
  let s2 := if into = 0 then s1 else modPages s1 [6] (fun f => { f with restartInto := into })
  restartNow s2 (if into = 0 then 0x04 else 0x0A)

/-- RESTART (R484, R485): refused in BOOT; a named vintage is one that a store holds. -/
def execRestart (auth : Auth) (into : Word) (s : State) : Host.Outcome State Fault Refusal :=
  .next (
    if s.mod.st = .off then s
    else harnal s auth 7 0 (fun s =>
      if decide (s.mod.st = .boot) || (decide (into ≠ 0) && !storeHolds s into) then s
      else requestedRestart s into))

end Sys2Proof.Machine
end

