-- ==== Sys2Proof/Machine/VintageCheck.lean ====
section
/-!
DEFINITION. The content check of a vintage (R432 step 4): R55, R56, R64, R85, R95, R98, R123, R220, R240, R253, R261 and the carry
map rules of R441.
-/

namespace Sys2Proof.Machine

/-! ### Cycle, capacity (R55, R56, R64) -/

/-- T in µs (R57). -/
def periodUs (v : Vintage) : Nat := v.period * 50

/-- The cycle period lies in 500 µs to 250 ms (R57). -/
def periodOk (v : Vintage) : Bool := decide (10 ≤ v.period) && decide (v.period ≤ 5000)

/-- The phases follow one another, and each is as long as R54 asks: the input phase holds the sync slot and the 10 µs of its close, the
logic phase the 20 µs of the element update, the vote phase is 40 µs long, the output phase holds the 4 µs twin slot and the 10 µs
reserve (R54, R55, R60). -/
def phasesOk (v : Vintage) : Bool :=
  decide (14 ≤ v.endInput) && decide (v.endInput + 20 ≤ v.endLogic) && decide (v.endVote = v.endLogic + 40) &&
  decide (v.endVote + 14 ≤ v.endOutput) && decide (v.endOutput < periodUs v)

/-- The idle phase lasts at least 5 % of T, in whole µs rounded up (R56). -/
def idleOk (v : Vintage) : Bool := decide (v.endOutput + (periodUs v + 19) / 20 ≤ periodUs v)

/-- Stations and peers of a segment (R64). -/
def slotsOn (v : Vintage) (g : Nat) : Nat :=
  (v.stations.filter (fun x => decide (x.segment.val = g))).length + (v.peers.filter (fun x => decide (x.segment.val = g))).length

/-- Output slots of a segment: in a twin pair every station has two (R64, R221). -/
def outSlotsOn (v : Vintage) (g : Nat) : Nat :=
  slotsOn v g + (if v.twin then (v.stations.filter (fun x => decide (x.segment.val = g))).length else 0)

/-- The capacities of R64. -/
def capacityOk (v : Vintage) : Bool :=
  (List.range 4).all (fun g =>
    let n := slotsOn v g
    decide (n = 0) ||
    (decide (n ≤ min 128 ((v.endInput - 14) / 2)) && decide (v.endOutput - v.endVote ≥ 14 + 2 * outSlotsOn v g)))

/-- Node numbers (R201): the module is node 0 or 1, couplers are 2 to 15, stations 16 to 1,023, each number on one segment only. -/
def nodesOk (v : Vintage) : Bool :=
  decide (v.node.toNat ≤ 1) && v.stations.all (fun x => decide (16 ≤ x.node.toNat)) &&
  v.peers.all (fun x => decide (2 ≤ x.node.toNat) && decide (x.node.toNat ≤ 15)) &&
  (List.range v.stations.length).all (fun i =>
    (v.stations.drop i).head?.all (fun x => (v.stations.drop (i + 1)).all (fun y => decide (x.node ≠ y.node)))) &&
  v.peers.all (fun x => v.peers.all (fun y => decide (x.node ≠ y.node) || decide (x.segment = y.segment)))

/-! ### Program (R85, R95, R98, R252, R253) -/

/-- The operand and opcode of a word are legal (R95, R96, R97, R102, R103, R104, R108). -/
def opLegal (opc pc seg : Nat) (w : PressWord) : Bool :=
  let hi := opc / 16
  let sp := BitVec.ofNat 4 opc
  if hi ≤ 6 then bitLegal sp (opnd w)
  else if hi ≤ 9 then bitLegal sp (opnd w) && bitWritable sp
  else if opc = 0xA0 ∨ opc = 0xA1 then lowOperand 16 w
  else if hi = 0xB ∧ opc ≤ 0xB3 then lowOperand 14 w
  else if hi = 0xC ∧ opc ≤ 0xC3 then lowOperand 13 w
  else if opc = 0xD2 then true
  else if opc = 0xD3 then lowOperand 10 w
  else if opc = 0xDB ∨ opc = 0xDE then lowOperand 14 w
  else if opc = 0xDC then lowOperand 13 w
  else if opc = 0xDD then lowOperand 17 w
  else if opc = 0xDF then lowOperand 0 w
  else if hi = 0xD then lowOperand 16 w
  else if opc = 0xE0 ∨ opc = 0xE1 ∨ opc = 0xE7 ∨ opc = 0xE9 then lowOperand 0 w
  else if opc = 0xE2 then decide (opnd w < 5)
  else if opc = 0xE3 ∨ opc = 0xE4 ∨ opc = 0xE5 then jumpLegal pc seg w
  else if opc = 0xE6 then callLegal pc seg w
  else if opc = 0xE8 then lowOperand 8 w
  else if opc = 0xF0 ∨ opc = 0xF1 then lowOperand 14 w
  else if opc = 0xF2 then lowOperand 20 w && decide (opnd w / 0x10000 ≤ 6)
  else false

/-- A word writes word c of W (R253): SW, or ST, SET and RST on one of its bits. -/
def writesWord (w : Word) (c : Nat) : Bool :=
  let opc := field w 31 24
  (decide (opc = 0xD1) && decide (field w 21 0 = c)) ||
  ((decide (opc = 0x77) || decide (opc = 0x87) || decide (opc = 0x97)) && decide (field w 21 0 / 32 = c))

/-- COUNT_WORDs of the counters in use (R253). -/
def countWords (v : Vintage) : List Nat :=
  (v.localIo.counters.filter (fun c => decide (c.mode ≠ .unused))).map (fun c => c.countWord)

/-- The words of a segment are legal (R95): the last one is END or RET. -/
def segmentOk (v : Vintage) (i : Fin 4) : Bool :=
  let seg := lget [] v.code i.val
  let n := seg.length
  (List.range n).all (fun pc =>
    let w := lget 0 seg pc
    let opc := field w 31 24
    decide (field w 23 22 = i.val) && opLegal opc pc n (fetched .A i w) &&
    (decide (pc + 1 < n) || decide (opc = 0xE7) || decide (opc = 0xE9)) && (countWords v).all (fun c => !writesWord w c))

/-- Clocks of the longest path from a word of a segment to its END or RET; after holds those of the words behind it, calls those of every
word as a subroutine (R105, R107). -/
def wordClocks (calls : List Nat) (pc : Nat) (w : Word) (after : List Nat) : Nat :=
  let next := lget 0 after 0
  let jump := lget 0 after (field w 21 0 - pc - 1)
  match field w 31 24 with
  | 0xE7 => 1
  | 0xE9 => 1
  | 0xE3 => 1 + jump
  | 0xE4 => 1 + max next jump
  | 0xE5 => 1 + max next jump
  | 0xE6 => 1 + lget 0 calls (field w 21 0) + next
  | _ => 1 + next

/-- The same of every word from pc on: jumps go forward only (R105). -/
def pathClocks (calls : List Nat) : Nat → List Word → List Nat
  | _, [] => []
  | pc, w :: r =>
    let after := pathClocks calls (pc + 1) r
    wordClocks calls pc w after :: after

/-- Paths with calls nested to a depth; a branch stack holds 16 entries, so no path nests deeper (R107). -/
def nestedClocks (seg : List Word) : Nat → List Nat
  | 0 => []
  | n + 1 => pathClocks (nestedClocks seg n) 0 seg

/-- A strand's longest path takes no more clocks than its share of the Press budget, 400 MHz × P_logic (R54, R64). DEDUCED, log entry 80. -/
def budgetOk (v : Vintage) (i : Nat) : Bool :=
  decide (lget 0 (nestedClocks (lget [] v.code i) 17) 0 ≤ 400 * (v.endLogic - v.endInput))

/-- Program rules. -/
def programOk (v : Vintage) : Bool :=
  decide ((v.code.map List.length).foldl (· + ·) 0 ≤ 655360) && segmentOk v 0 && segmentOk v 1 && segmentOk v 2 && segmentOk v 3 &&
  (List.range 4).all (budgetOk v)

/-- Presets (R98). -/
def presetsOk (v : Vintage) : Bool := v.presets.all (fun e => decide (e.2 ≤ 2147483648))

/-! ### Tables (R119 to R123) -/

/-- KIND (R119). -/
def kindCode : ElemKind → Nat
  | .undefined => 0 | .track => 1 | .point => 2 | .gate => 3 | .transfer => 4 | .signal => 5 | .virt => 6

/-- Four reference words. -/
def fourWords (ws : List Word) : List Byte := (List.range 4).flatMap (fun i => le 4 (lget 0 ws i).toNat)

/-- Bytes 0x00 to 0x37 of an element descriptor (R119). -/
def elemBytes (d : ElemDesc) : List Byte :=
  le 1 (kindCode d.kind) ++ le 1 d.flags.toNat ++ le 2 d.guard.toNat ++ le 4 d.inA.toNat ++ le 4 d.inB.toNat ++
  le 2 d.moveTimeout.toNat ++ le 2 0 ++ fourWords d.aspectOut ++ le 24 0

/-- Bytes 0x000 to 0x1F7 of a route record (R121). -/
def routeBytes (r : RouteRec) : List Byte :=
  le 2 r.route.toNat ++ le 2 r.flags.toNat ++ le 1 r.terms.length ++ le 1 r.pathGroups ++ le 1 r.overlapGroups ++ le 1 0 ++
  le 2 r.startSignal.toNat ++ le 2 r.approach.toNat ++ le 2 r.exit.toNat ++ le 2 r.approachTime.toNat ++
  le 2 r.overlapTime.toNat ++ le 2 r.settingTime.toNat ++ le 12 0 ++ fourWords r.aspect ++ le 16 0 ++
  (List.range 96).flatMap (fun i => le 4 (lget 0 r.terms i).toNat) ++ le 56 0

/-- The kind of an element in the tables. -/
def kindOf (v : Vintage) (e : Nat) : ElemKind := match sfind v.elements e with | some d => d.kind | none => .undefined

/-- An element that is moved. -/
def movedKind : ElemKind → Bool
  | .point => true | .gate => true | .transfer => true
  | .undefined => false | .track => false | .signal => false | .virt => false

/-- A route of the tables is DEFINED. -/
def routeDefined (v : Vintage) (r : Nat) : Bool := match sfind v.routes r with | some x => x.flags.getLsbD 0 | none => false

/-- The element kind that a term type requires (R127). -/
def termKindOk (v : Vintage) (t : Word) : Bool :=
  let k := kindOf v (field t 15 0)
  match field t 27 24 with
  | 1 => movedKind k | 3 => movedKind k
  | 2 => decide (k = .track) | 4 => decide (k = .track) | 7 => decide (k = .track)
  | 5 => movedKind k || (decide (k = .signal) && decide (field t 17 16 = 1))
  | 6 => routeDefined v (field t 13 0)
  | 8 => decide (k = .virt)
  | _ => true

/-- A named element is of a kind, or none is named (R121). -/
def namedOk (v : Vintage) (e : BitVec 16) (k : ElemKind) : Bool := decide (e = 0xFFFF) || decide (kindOf v e.toNat = k)

/-- The terms of a record: those before the first term of type END (R127). -/
def liveTerms (r : RouteRec) : List Word := r.terms.takeWhile (fun t => decide (field t 27 24 ≠ 0))

/-- The section terms of group g of a record. -/
def sectionTerms (r : RouteRec) (g : Nat) : List Nat :=
  ((liveTerms r).filter (fun t => decide (field t 23 20 = g) && (decide (field t 27 24 = 2) || decide (field t 27 24 = 4)))).map
    (fun t => field t 27 24)

/-- Elements named by PATH_ and OVERLAP_ terms. -/
def heldElements (r : RouteRec) : List Nat :=
  ((liveTerms r).filter (fun t => decide (1 ≤ field t 27 24) && decide (field t 27 24 ≤ 4))).map (fun t => field t 15 0)

/-- No entry twice. -/
def distinct : List Nat → Bool
  | [] => true
  | x :: r => !r.contains x && distinct r

/-- ROUTE_FREE terms of a route. -/
def freeOf (v : Vintage) (r : Nat) : List Nat :=
  match sfind v.routes r with
  | some x => ((liveTerms x).filter (fun t => decide (field t 27 24 = 6))).map (fun t => field t 13 0)
  | none => []

/-- A DEFINED record keeps the rules of R123. -/
def routeOk (v : Vintage) (i : Nat) (r : RouteRec) : Bool :=
  decide (r.check.toNat = crcOf crc64 (routeBytes r)) &&
  (!r.flags.getLsbD 0 ||
    (decide (r.route.toNat = i) && (liveTerms r).all (termKindOk v) && namedOk v r.startSignal .signal && namedOk v r.approach .track &&
     namedOk v r.exit .track &&
     (List.range (r.pathGroups + r.overlapGroups)).all (fun g =>
       decide (sectionTerms r g = [if g < r.pathGroups then 2 else 4])) &&
     distinct (heldElements r) && (freeOf v i).all (fun n => (freeOf v n).contains i)))

/-- A reference is present (R120). -/
def refHere (w : Word) : Bool := w.getLsbD 31

/-- An element descriptor keeps the rules of R123. -/
def elementOk (v : Vintage) (d : ElemDesc) : Bool :=
  decide (d.check.toNat = crcOf crc64 (elemBytes d)) && namedOk v d.guard .track &&
  (decide (d.kind ≠ .track) || refHere d.inA) && (!movedKind d.kind || (refHere d.inA && refHere d.inB)) &&
  (!d.flags.getLsbD 0 || decide (d.guard ≠ 0xFFFF))

/-- Aspect references of the tables: address with its space, and RESTRICTIVE. -/
def aspectRefs (v : Vintage) : List (Nat × Bool) :=
  ((v.elements.flatMap (fun e => e.2.aspectOut)) ++ (v.routes.flatMap (fun e => e.2.aspect))).filterMap
    (fun w => if refHere w then some (field w 17 0, w.getLsbD 18) else none)

/-- Every aspect bit has one RESTRICTIVE value (R123). -/
def aspectsOk (v : Vintage) : Bool :=
  let rs := aspectRefs v
  rs.all (fun a => rs.all (fun b => decide (a.1 ≠ b.1) || decide (a.2 = b.2)))

/-- Table rules (R123). -/
def tablesOk (v : Vintage) : Bool :=
  v.elements.all (fun e => elementOk v e.2) && v.routes.all (fun e => routeOk v e.1 e.2) && aspectsOk v

/-! ### Schedule (R213, R219, R220) -/

/-- Payload length of the longest frame that a slot carries (R214). -/
def slotPayload (v : Vintage) (e : SlotEntry) : Nat :=
  let points := (lget 0 (v.stations.map (fun x => x.points)) e.session)
  match e.kind with
  | .sync => 16 | .delay => 16 | .peerIn => 40 | .peerOut => 40 | .twin => 380
  | .stationIn => 4 * ((points + 15) / 16)
  | .stationOut => 4 * ((points + 15) / 16)

/-- A slot lies where its kind allows (R54, R213, R219, R220). -/
def slotOk (v : Vintage) (e : SlotEntry) : Bool :=
  decide (e.start ≤ 249999) && decide (2 ≤ e.length) && decide (e.length < 65536) && decide (e.length * 1000 ≥ 8 * (slotPayload v e + 56) + 500) &&
  (match e.kind with
   | .stationIn => e.up && decide (4 ≤ e.start) && decide (e.start + e.length + 10 ≤ v.endInput)
   | .peerIn => e.up && decide (4 ≤ e.start) && decide (e.start + e.length + 10 ≤ v.endInput)
   | .stationOut => !e.up && decide (v.endVote + 4 ≤ e.start) && decide (e.start + e.length + 10 ≤ v.endOutput)
   | .peerOut => !e.up && decide (v.endVote + 4 ≤ e.start) && decide (e.start + e.length + 10 ≤ v.endOutput)
   | .sync => !e.up && decide (e.start = 0) && decide (e.length = 4)
   | .twin => v.twin && decide (e.start = v.endVote) && decide (e.length = 4)
   | .delay => decide (e.start + 10 = v.endOutput) && decide (e.length = 10))

/-- No two slots overlap (R220). -/
def apart : List SlotEntry → Bool
  | [] => true
  | x :: r => r.all (fun y => decide (x.start + x.length ≤ y.start) || decide (y.start + y.length ≤ x.start)) && apart r

/-- Slots of a kind for a session. -/
def slotsFor (es : List SlotEntry) (k : SlotKind) (i : Nat) : List SlotEntry :=
  es.filter (fun e => decide (e.kind = k) && decide (e.session = i))

/-- Senders of the station output slots: one from each module (R220). -/
def outSenders (v : Vintage) : List (BitVec 10) := if v.twin then [0, 1] else [v.node]

/-- The sessions of a segment have the slots of R220. -/
def sessionSlots (v : Vintage) (g : Nat) (es : List SlotEntry) : Bool :=
  (List.range v.stations.length).all (fun i =>
    !(v.stations.drop i).head?.any (fun x => decide (x.segment.val = g)) ||
    (decide ((slotsFor es .stationIn i).length = 1) &&
     decide ((slotsFor es .stationOut i).length = (outSenders v).length) &&
     (outSenders v).all (fun n => (slotsFor es .stationOut i).any (fun e => decide (e.sender = n))))) &&
  (List.range v.peers.length).all (fun q =>
    !(v.peers.drop q).head?.any (fun x => decide (x.segment.val = g)) ||
    (decide ((slotsFor es .peerIn (512 + q)).length = 1) && decide ((slotsFor es .peerOut (512 + q)).length = 1)))

/-- The schedule of a segment (R220); a segment without entries is not used. -/
def segScheduleOk (v : Vintage) (g : Nat) (es : List SlotEntry) : Bool :=
  match es with
  | [] => decide (slotsOn v g = 0)
  | e0 :: _ =>
    decide (es.length ≤ 1024) && decide (e0.kind = .sync) && decide (e0.start = 0) && decide (e0.length = 4) && !e0.up &&
    decide (e0.sender = 0) && es.all (slotOk v) && apart es &&
    (!v.twin || decide ((es.filter (fun e => decide (e.kind = .twin) && decide (e.start = v.endVote) && decide (e.length = 4))).length = 1)) &&
    decide ((es.filter (fun e => decide (e.kind = .delay) && decide (e.start + 10 = v.endOutput) && decide (e.length = 10))).length = 1) &&
    sessionSlots v g es

/-- KIND of an entry (R219). -/
def slotKindCode : SlotKind → Nat
  | .sync => 1 | .stationIn => 2 | .peerIn => 3 | .twin => 4 | .stationOut => 5 | .peerOut => 6 | .delay => 7

/-- The 16 bytes of a schedule entry (R219). -/
def scheduleBytes (e : SlotEntry) : List Byte :=
  le 4 e.start ++ le 2 e.length ++ le 1 (slotKindCode e.kind) ++ le 1 (bit e.up) ++ le 2 e.sender.toNat ++ le 2 e.receiver.toNat ++
  le 2 e.session ++ le 2 0

/-- TIMING_CHECK (R218): CRC-32C over PERIOD_US and the four phase boundaries, each 4 bytes most significant byte first. -/
def timingCheckOf (v : Vintage) : Word :=
  BitVec.ofNat 32 (crcOf crc32c
    (be 4 (periodUs v) ++ be 4 v.endInput ++ be 4 v.endLogic ++ be 4 v.endVote ++ be 4 v.endOutput))

/-- Schedule rules. -/
def scheduleOk (v : Vintage) : Bool := (List.range 4).all (fun g => segScheduleOk v g (lget [] v.schedule g))

/-! ### Local I/O and carry map (R240, R261, R441) -/

/-- A word names a local-block address of L, LF or LQ (R261). -/
def namesLocal (w : Word) : Bool :=
  let opc := field w 31 24
  decide (opc / 16 ≤ 9) && decide (0xA ≤ opc % 16) && decide (opc % 16 ≤ 0xC) && decide (field w 21 0 ≤ 255)

/-- A reference names a local-block address (R261). -/
def refLocal (w : Word) : Bool := refHere w && w.getLsbD 17 && decide (field w 16 0 ≤ 255)

/-- The vintage uses the local I/O (R261). -/
def usesLocal (v : Vintage) : Bool :=
  v.code.any (fun seg => seg.any namesLocal) ||
  v.elements.any (fun e => refLocal e.2.inA || refLocal e.2.inB || e.2.aspectOut.any refLocal) ||
  v.routes.any (fun e => e.2.aspect.any refLocal) || v.localIo.counters.any (fun c => decide (c.mode ≠ .unused))

/-- A number lies in a range, both ends included. -/
def inRange (lo hi n : Nat) : Bool := decide (lo ≤ n) && decide (n ≤ hi)

/-- The local I/O configuration keeps the ranges of R288, sources stay within their group, and its CRC and the vintage's
LOCAL_IO_CHECK are those of its bytes (R262, R429). -/
def localOk (v : Vintage) : Bool :=
  let c := v.localIo
  (List.range c.inputs.length).all (fun n => (c.inputs.drop n).head?.all (fun x =>
    inRange 10 2000 x.filter && x.source.all (fun k => decide (k.val < 4) == decide (n < 24)))) &&
  c.pairs.all (fun x => inRange 500 500000 x.disc10us) &&
  c.outputs.all (fun x => inRange 1 3600 x.offPeriod && inRange 1 3600 x.onPeriod) &&
  c.counters.all (fun x => decide (x.countWord < 65536)) && inRange 20 2000 c.tpPeriodMs && inRange 100 20000 c.crossTimeoutUs &&
  decide (c.words.length = 32) && decide (BitVec.ofNat 32 (ofLe ((c.words.flatMap (fun w => le 16 w.toNat)).drop 508)) = configCheck c) &&
  decide (v.localIoCheck = configCheck c)

/-- Size of a space that the carry map can name (R86, R441). -/
def carrySize (space : BitVec 8) : Nat :=
  match space.toNat with
  | 3 => 1048576 | 4 => 16384 | 5 => 8192 | 6 => 65536 | 7 => 65536 | _ => 0

/-- One entry lies inside its space, and its three bytes after SPACE are 0 (R441). -/
def carryIn (e : CarryEntry) : Bool :=
  decide (e.rsv = 0) && decide (e.newStart + e.length ≤ carrySize e.space) && decide (e.oldStart + e.length ≤ carrySize e.space) &&
  decide (carrySize e.space ≠ 0)

/-- No two entries of a space cover the same new index (R441). -/
def carryApart : List CarryEntry → Bool
  | [] => true
  | x :: r => r.all (fun y => decide (x.space ≠ y.space) || rangesApart x.newStart x.length y.newStart y.length) &&
    carryApart r

/-- Carry map rules (R441). -/
def carryOk (v : Vintage) : Bool := decide (v.carry.length ≤ 4096) && v.carry.all carryIn && carryApart v.carry

/-- D and MARCH_EVERY are values of R461. -/
def bistOk (v : Vintage) : Bool :=
  decide (1 ≤ v.bistInterval) && decide (v.bistInterval ≤ 24) && decide (v.marchEvery ≤ 15)

/-- Check 4 of R432. -/
def contentOk (v : Vintage) : Bool :=
  periodOk v && phasesOk v && idleOk v && capacityOk v && nodesOk v && programOk v && presetsOk v && tablesOk v && scheduleOk v &&
  decide (v.admitBase + 575 ≤ 1048575) && (!usesLocal v || decide (v.endInput ≥ 50)) && localOk v && carryOk v && bistOk v

end Sys2Proof.Machine
end

