-- ==== Sys2Proof/Machine/Frames.lean ====
section
/-!
DEFINITION. Alusk frames (R184, R212 to R218, R337, R338): bytes on the wire, codes, FCS, the frames that the module composes.
-/

namespace Sys2Proof.Machine

/-! ### Bytes, FCS and codes (R184, R212, R213, R215) -/

/-- Covered fields, offsets 0x00 to 0x17 + L, in wire order. -/
def covered (f : Frame) : List Byte :=
  be 1 f.type.toNat ++ be 1 f.flags.toNat ++ be 2 f.source.toNat ++ be 2 f.dest.toNat ++ be 2 f.length.toNat ++
  be 2 f.cycle.toNat ++ be 2 f.epoch.toNat ++ be 4 f.sequence.toNat ++ be 8 f.time.toNat ++ f.payload

/-- The FCS over offsets 0x00 to 0x23 + L. -/
def fcsOf (f : Frame) : Word :=
  BitVec.ofNat 32 (crcOf crc32 (covered f ++ be 1 f.trailer.toNat ++ [0, 0, 0] ++ be 4 f.code1.toNat ++ be 4 f.code2.toNat))

/-- A frame whose FCS verifies and whose LENGTH is that of its payload. -/
def fcsGood (f : Frame) : Bool := decide (f.fcs = fcsOf f) && decide (f.length.toNat = f.payload.length)

/-- A safety code: CRC-32C over a source identifier, little-endian, and the covered fields. -/
def codeOf (sid : Nat) (f : Frame) : Word := BitVec.ofNat 32 (crcOf crc32c (le 4 sid ++ covered f))

/-- CODE_LANES names lanes (1, 2), (1, 3) or (2, 3) (R187). -/
def codeLanesOk (f : Frame) : Bool :=
  let n := field f.trailer 3 0
  decide (n = 1 + 4 * 2) || decide (n = 1 + 4 * 3) || decide (n = 2 + 4 * 3)

/-- Both codes verify with the SIDs of a module (R184, R187). -/
def moduleCodesOk (sid : BitVec 30) (f : Frame) : Bool :=
  let n := field f.trailer 3 0
  codeLanesOk f && decide (f.code1 = codeOf (sid.toNat * 4 + n % 4) f) && decide (f.code2 = codeOf (sid.toNat * 4 + n / 4) f)

/-- Both codes of a STATION_IN verify (R215). -/
def stationCodesOk (sid : BitVec 30) (f : Frame) : Bool :=
  decide (field f.trailer 3 0 = 9) && decide (f.code1 = codeOf (sid.toNat * 4 + 1) f) &&
  decide (f.code2 = codeOf (sid.toNat * 4 + 2) f)

/-- Payload bytes from an offset as a big-endian number (R212). -/
def payNat (f : Frame) (off n : Nat) : Nat := ofBe ((f.payload.drop off).take n)

/-- The two bits of point p of payload bytes (R216). -/
def pointBits (bs : List Byte) (p : Nat) : Bool × Bool :=
  let b := lget 0 bs (p / 4)
  (b.getLsbD (2 * (p % 4) + 1), b.getLsbD (2 * (p % 4)))

/-- Bytes in which points go with their complement (R216): 1 as 0b10, 0 as 0b01, unused bits 0. -/
def pointBytes (points n : Nat) (on : Nat → Bool) : List Byte :=
  (List.range n).map (fun i => bitsFrom 8 (fun b =>
    let p := 4 * i + b / 2
    decide (p < points) && (if b % 2 = 1 then on p else !on p)))

/-- Payload length of a station's frames (R214). -/
def stationLen (points : Nat) : Nat := 4 * ((points + 15) / 16)

/-! ### What the module sends -/

/-- SOURCE of a frame of this module on a segment. -/
def ownSource (s : State) (g : Nat) : BitVec 16 := BitVec.ofNat 16 ((ownNode s).toNat + 1024 * (g % 4))

/-- A frame with its trailer, codes and FCS. -/
def sealFrame (f : Frame) (lanes : Nat) (side : Side) (m : Medium) (c1 c2 : Word) : Frame :=
  let sd := match side with | .A => 0 | .B => 1
  let g := { f with trailer := BitVec.ofNat 8 (lanes + 16 * sd + 32 * m.idx), code1 := c1, code2 := c2, fcs := 0
                    length := BitVec.ofNat 16 f.payload.length }
  { g with fcs := fcsOf g }

/-- The segment is a ring (R199, R245). -/
def isRing (s : State) (g : Nat) : Bool := match vintageOf s with | some v => v.rings.getLsbD g | none => false

/-- Sides on which a frame goes out on a segment (R204). -/
def sidesOf (s : State) (g : Nat) : List Side := if isRing s g then [.A, .B] else [.A]

/-- A medium's record on a segment. -/
def mediumOf (s : State) (g : Fin 4) (m : Medium) : MediumRec := sget MediumRec.reset s.alk.media (mediumIx g m)

/-- Change a medium's record. -/
def modMedium (s : State) (g : Fin 4) (m : Medium) (f : MediumRec → MediumRec) : State :=
  { s with alk := { s.alk with media := smod MediumRec.reset s.alk.media (mediumIx g m) f } }

/-- The module sends on the medium: it is neither retired nor unconfigured (R199, R233). -/
def mediumSends (s : State) (g : Fin 4) (m : Medium) : Bool :=
  match (mediumOf s g m).st with | .inUse => true | .withdrawn => true | .retired => false | .notConfigured => false

/-- The module uses the copies that a medium delivers (R233). -/
def mediumUsed (s : State) (g : Fin 4) (m : Medium) : Bool := decide ((mediumOf s g m).st = .inUse)

/-- The delay record of a side. -/
def delayOf (m : MediumRec) : Side → DelayRec
  | .A => m.sideA
  | .B => m.sideB

/-- Change the delay record of a side. -/
def modDelay (s : State) (g : Fin 4) (m : Medium) (sd : Side) (f : DelayRec → DelayRec) : State :=
  modMedium s g m (fun x => match sd with | .A => { x with sideA := f x.sideA } | .B => { x with sideB := f x.sideB })

/-- D of this node on a medium and side, or D_OUT until it has one; node 0 holds 0 (R205, R516). -/
def ownDelay (s : State) (g : Fin 4) (m : Medium) (sd : Side) : Nat :=
  if ownNode s = 0 then 0
  else
    let x := delayOf (mediumOf s g m) sd
    match x.d with | some d => d | none => x.dOut

/-- When a frame passes this node (R204): a start in ns after the tick, plus D of its side for a DOWN frame, minus D for an UP frame. -/
def passes (s : State) (g : Fin 4) (m : Medium) (sd : Side) (up : Bool) (start : Nat) : Int :=
  (s.mod.tickTime.toNat + start : Nat) + (if up then -(ownDelay s g m sd : Int) else (ownDelay s g m sd : Int))

/-- When a frame of this node starts, with the error of the transmission (R204, R227). -/
def startsAt (s : State) (g : Fin 4) (m : Medium) (up : Bool) (start : Nat) (error : Int) (sd : Side) : Time :=
  BitVec.ofInt 64 (passes s g m sd up start + error)

/-- TX_DIS of the ports of a medium on a segment (R199, R501): high in reset, on a retired medium and on a segment that is not
configured. -/
def txDis (s : State) (g : Fin 4) (m : Medium) : Bool := decide (s.mod.st = .off) || !mediumSends s g m

/-- Frames given to a medium of a segment, on each side. -/
def sendOn (s : State) (g : Fin 4) (m : Medium) (sides : List Side) (up : Bool) (at1 : Side → Time) (f : Side → Frame) : State :=
  if txDis s g m then s
  else
    let fs := sides.map (fun sd => ({ seg := g, medium := m, side := sd, up := up, sent := at1 sd, frame := f sd } : TxFrame))
    { s with alk := { s.alk with tx := s.alk.tx ++ fs } }

/-- The four segments. -/
def segments : List (Fin 4) := [0, 1, 2, 3]

/-- FLAGS.ACTIVE (R212, R333). -/
def flagActive (s : State) : Nat := bit (holdsActive s)

/-- An empty frame of a type for a segment. -/
def blankFrame (s : State) (g : Nat) (ty : Nat) : Frame :=
  { type := BitVec.ofNat 8 ty, flags := BitVec.ofNat 8 (flagActive s), source := ownSource s g, dest := 0, length := 0
    cycle := cycle16 s, epoch := 0, sequence := 0, time := s.mod.tickTime, payload := [], trailer := 0, code1 := 0
    code2 := 0, fcs := 0 }

/-- STATE of a SYNC (R218). -/
def syncState (s : State) : Nat := if s.mod.st = .safe then 3 else if inService s.mod.st then 2 else 1

/-- TIMING_CHECK of the active vintage (R218, R434). -/
def timingCheck (s : State) : Word := match vintageOf s with | some v => timingCheckOf v | none => 0

/-- A SYNC of this module (R218, R521). -/
def syncFrame (s : State) (g : Nat) : Frame :=
  { blankFrame s g 0x01 with
    dest := 0x0400, payload := be 4 (periodNs s / 1000) ++ be 4 (timingCheck s).toNat ++ be 1 (syncState s) ++ be 7 0 }

/-- A COLD_START sent at a time (R218, R229). -/
def coldFrame (s : State) (g : Nat) (now t0 : Time) : Frame :=
  { blankFrame s g 0x02 with
    dest := 0x0400, cycle := 0, time := now
    payload := be 4 (periodNs s / 1000) ++ be 4 (timingCheck s).toNat ++ be 8 t0.toNat }

/-- A DOWN frame without codes on the sides of a medium, from a start in ns after the tick. -/
def sendPlain (s : State) (g : Fin 4) (m : Medium) (start : Nat) (error : Int) (f : Frame) : State :=
  sendOn s g m (sidesOf s g.val) false (startsAt s g m false start error) (fun sd => sealFrame f 0 sd m 0 0)

/-- A frame without codes on every port of every segment, at one time (R214, R229): node 1 on a line has one port away from the reference
point and one towards it; on a ring the copies of the two sides leave by two ports. -/
def sendAll (s : State) (now : Time) (f : State → Nat → Frame) : State :=
  let copy := fun (s : State) (g : Fin 4) (m : Medium) (sides : List Side) (up : Bool) =>
    sendOn s g m sides up (fun _ => now) (fun sd => sealFrame (f s g.val) 0 sd m 0 0)
  let one := fun (s : State) (g : Fin 4) (m : Medium) =>
    let s1 := copy s g m (sidesOf s g.val) false
    if decide (ownNode s = 1) && !isRing s g.val then copy s1 g m [.A] true else s1
  foldS segments (fun s g => one (one s g .X) g .Y) s

/-! ### Codes of the lanes (R185) -/

/-- Lanes whose codes are usable for a frame of the cycle (R185): as the lane's Sluice gives them to the port dies, voted, no dissent,
check block verified, still voting. -/
def usableLanes (s : State) : List Lane :=
  Lane.list.filter (fun l => serving s l && !latched s l && ((lane s l).link.rx.get l).complete &&
    ((lane s l).link.rx.get l).checkOk && laneBit (s.sluices.get l).images l)

/-- The voted image of the cycle as a lane's Sluice holds it. -/
def sluiceImage (s : State) (l : Lane) : Option Image :=
  match (s.sluices.get l).result with
  | some m => if m.cycle = s.mod.cycle then some m else none
  | none => none

/-- Codes of a lane as its Sluice has received them (R166, R177). -/
def givenCodes (s : State) (l : Lane) : LaneCodes := ((lane s l).link.rx.get l).codes

/-- A frame with two lane codes (R184 to R186): port die X takes the content from the Sluice of the code-1 lane, port die Y from that of
the code-2 lane; none while fewer than two lanes are usable. -/
def codedFrame (s : State) (f : Lane → Image → Frame) (code : Lane → Word) (side : Side) (m : Medium) : Option Frame :=
  match usableLanes s with
  | a :: b :: _ =>
    let from1 := match m with | .X => a | .Y => b
    (sluiceImage s from1).map (fun x => sealFrame (f from1 x) (a.num + 4 * b.num) side m (code a) (code b))
  | _ => none

/-- A sent frame passes the loopback check (R385, R388): its FCS, and both codes under the source identifiers of the lanes that its trailer
names. -/
def loopbackOk (s : State) (f : Frame) : Bool := fcsGood f && moduleCodesOk (BitVec.ofNat 30 (moduleSid s)) f

/-- A coded frame on the sides of a medium, from a start in ns after the tick; a copy that fails its loopback check is a one-sided loss of
the medium (R385). -/
def sendCoded (s : State) (g : Fin 4) (m : Medium) (sides : List Side) (up : Bool) (start : Nat) (error : Int)
    (f : Lane → Image → Frame) (code : Lane → Word) : State :=
  if txDis s g m then s
  else
    let fs := sides.filterMap (fun sd => (codedFrame s f code sd m).map (fun x =>
      ({ seg := g, medium := m, side := sd, up := up, sent := startsAt s g m up start error sd, frame := x } : TxFrame)))
    let bad := (fs.filter (fun x => !loopbackOk s x.frame)).length
    modMedium { s with alk := { s.alk with tx := s.alk.tx ++ fs } } g m (fun x => { x with lostNow := x.lostNow + bad })

/-! ### Contents from the voted image (R179, R216, R217, R338) -/

/-- The voted image of the cycle. -/
def cycleImage (s : State) : Option Image :=
  match s.mod.result with
  | some m => if m.cycle = s.mod.cycle then some m else none
  | none => none

/-- A frame from a control record. -/
def ctlFrame (s : State) (g : Nat) (c : CtlRec) (payload : List Byte) : Frame :=
  { blankFrame s g c.type.toNat with
    flags := c.flags, dest := c.dest, epoch := c.epoch, sequence := c.sequence, time := c.time, payload := payload }

/-- STATION_OUT of station i (R214, R216): outside the service states every point is de-energised (R21, R480). -/
def stationFrame (s : State) (m : Image) (i : Nat) (c : StationCfg) : Frame :=
  ctlFrame s c.segment.val (sget CtlRec.zero m.stations i)
    (pointBytes c.points (stationLen c.points) (fun p => inService s.mod.st && bget m.q (256 * i + p)))

/-- PEER of peer q (R216). -/
def peerFrame (s : State) (m : Image) (q : Nat) (c : PeerCfg) : Frame :=
  let r := sget CtlRec.zero m.peers q
  ctlFrame s c.segment.val r
    (be 4 r.destSid.toNat ++ be 4 r.echoSeq.toNat ++
     pointBytes 128 32 (fun p => inService s.mod.st && bget m.lq (256 + 128 * q + p)))

/-- Entry words of a command (R339). -/
def cmdWords (d : BitVec 512) (port : Port) (sq : Nat) (tag : BitVec 16) : List Byte :=
  let c := dClass d
  let arg := if isProcess c then dget d 0x18 2 else 0
  let arg2 := if c = 3 ∨ c = 4 then dget d 0x1A 1 else if c = 0x22 then dget d 0x1C 1 else 0
  let head := be 1 c ++ be 1 (sq + 128 * port.idx) ++ be 2 tag.toNat ++ be 2 arg ++ be 1 arg2 ++ be 1 0
  if c = 0x24 then head ++ be 8 (dget d 0x18 8)
  else if c = 0x22 then head ++ be 4 (dget d 0x18 4) ++ be 4 0 ++ be 8 (dget d 0x20 8)
  else head

/-- Commands of a lane's next batch in queue order (R130, R339), which the ACTIVE forwards. -/
def batchNext (s : State) (l : Lane) : List Taken :=
  let L := lane s l
  [Port.p0, Port.p1].flatMap (fun p => (List.range 16).flatMap (fun q => L.mbx.taken.filter (fun t =>
    decide (t.ref.port = p) && decide (t.ref.sq.val = q) && t.inBatch && !t.started && !t.replay &&
    decide (entryWords t.ref.cls.toNat > 0))))

/-- Entry words that a lane builds from its next batch (R338): only the ACTIVE has any. -/
def entryBytes (s : State) (l : Lane) : List Byte :=
  if holdsActive s then (batchNext s l).flatMap (fun t => cmdWords t.desc t.ref.port t.ref.sq.val t.ref.tag) else []

/-- TWIN payload as a lane builds it (R338). -/
def twinPayload (s : State) (l : Lane) (m : Image) (t : TwinCtl) : List Byte :=
  let load := t.tflags.getLsbD 3
  be 16 (stateDigest m.area).toNat ++ be 4 t.vintage.toNat ++ be 4 t.staged.toNat ++ be 1 t.module.toNat ++
  be 1 t.twinState.toNat ++ be 1 t.tflags.toNat ++ be 1 t.count.toNat ++ be 4 t.echoSeq.toNat ++
  (entryBytes s l).take (8 * t.count.toNat) ++
  (if load then be 4 s.twin.lastBlock ++ areaBlock m.area s.twin.lastBlock else [])

/-! ### The codes that a lane computes (R166, R184) -/

/-- The code of a lane for a frame (R184). -/
def laneCode32 (s : State) (l : Lane) (f : Frame) : Word :=
  codeOf (moduleSid s * 4 + l.num) { f with length := BitVec.ofNat 16 f.payload.length }

/-- The TWIN frame of an image on a segment as a lane builds it (R336, R338). -/
def twinFrame (s : State) (l : Lane) (g : Nat) (t : TwinCtl) (m : Image) : Frame := ctlFrame s g t.ctl (twinPayload s l m t)

/-- Words of a list by index. -/
def codeList {α : Type} (xs : List α) (f : Nat → α → Word) : Sparse Word :=
  ((List.range xs.length).zip xs).foldl (fun r e => sput 0 r e.1 (f e.1 e.2)) []

/-- The code trailer and the twin-frame code of a lane's own image (R166); a frame that is not sent has code 0. -/
def codesOf (s : State) (v : Vintage) (m : Image) (l : Lane) : LaneCodes :=
  { twin := match m.twin with | some t => laneCode32 s l (twinFrame s l 0 t m) | none => 0
    stations := if m.stations.isEmpty then [] else codeList v.stations (fun i c => laneCode32 s l (stationFrame s m i c))
    peers := if m.peers.isEmpty then [] else codeList v.peers (fun q c => laneCode32 s l (peerFrame s m q c)) }

/-- The lane's code for the TWIN frame of a segment: the image holds one code, and SOURCE names the segment, so the difference that
the segment makes is added (log entry 56). -/
def twinCode32 (s : State) (g : Nat) (t : TwinCtl) (m : Image) (l : Lane) : Word :=
  (givenCodes s l).twin ^^^ laneCode32 s l (twinFrame s l 0 t m) ^^^ laneCode32 s l (twinFrame s l g t m)

end Sys2Proof.Machine
end

