-- ==== Sys2Proof/Machine/Alusk.lean ====
section
/-!
DEFINITION. The Alusk field bus (R199 to R249, R501, R516, R520, R521): slots, SYNC and offset, bus start, delay exchange, station
and peer sessions, media.
-/

namespace Sys2Proof.Machine

/-! ### Slots (R185, R219, R226, R332) -/

/-- The module sends STATION_OUT (R332). -/
def sendsStations (s : State) : Bool :=
  operating s.mod.st && (!twinOn s || decide (s.twin.st = .active) || decide (s.twin.st = .paired))

/-- The module sends PEER frames (R332). -/
def sendsPeers (s : State) : Bool := operating s.mod.st && (!twinOn s || decide (s.twin.st = .active))

/-- A SYNC of this cycle has gone out on a medium. -/
def syncSent (s : State) (m : Medium) : Bool :=
  s.alk.tx.any (fun x => decide (x.medium = m) && decide (x.frame.type = 0x01) && decide (x.frame.cycle = cycle16 s))

/-- Station i of the active vintage. -/
def stationCfg (s : State) (i : Nat) : Option StationCfg := match vintageOf s with | some v => v.stations[i]? | none => none

/-- Nodes of a segment beyond the modules (R201). -/
def segmentNodes (s : State) (g : Fin 4) : List (BitVec 10) :=
  match vintageOf s with
  | some v => (v.stations.filter (fun c => decide (c.segment = g))).map (·.node) ++
      (v.peers.filter (fun c => decide (c.segment = g))).map (·.node)
  | none => []

/-- The module is the last node of a line (R199, R201, R202): node 1 of a segment that has no other node. -/
def endsLine (s : State) (g : Fin 4) : Bool := !isRing s g.val && (segmentNodes s g).isEmpty

/-- The partner is the other of nodes 0 and 1 (R201). -/
def partnerNode (s : State) : BitVec 10 := if ownNode s = 0 then 1 else 0

/-- Peer q of the active vintage. -/
def peerCfg (s : State) (q : Nat) : Option PeerCfg := match vintageOf s with | some v => v.peers[q]? | none => none

/-- A SYNC on one medium of every segment. -/
def sendSync (s : State) (m : Medium) (error : Int) : State :=
  foldS segments (fun s g => sendPlain s g m 0 error (syncFrame s g.val)) s

/-- END_VOTE in ns after the tick, where the TWIN slot starts (R220). -/
def twinStart (s : State) : Nat := match vintageOf s with | some v => v.endVote * 1000 | none => 0

/-- The TWIN frame on one medium of every segment: node 0 sends DOWN on every side, node 1 UP on side A only (R336). -/
def sendTwin (s : State) (m : Medium) (error : Int) (x : Image) (t : TwinCtl) : State :=
  let first := decide (ownNode s = 0)
  foldS segments (fun s g =>
    sendCoded s g m (if first then sidesOf s g.val else [.A]) (!first) (twinStart s) error (fun l y => twinFrame s l g.val (y.twin.getD t) y)
      (twinCode32 s g.val t x)) s

/-- The module's own time to send in the TWIN slot (R336): node 0 from END_VOTE, node 1 from END_VOTE - D_A(1), by which its vote and digest
check are complete. -/
def twinSlotOpen (s : State) : Bool :=
  decide (s.mod.phase = .output) || (decide (s.mod.phase = .vote) && decide (ownNode s = 1))

/-- The entry of a session's slot of a kind in a segment's schedule (R219); of station output slots, that of this module (R220). -/
def slotEntry (s : State) (g : Fin 4) (k : SlotKind) (i : Nat) : Option SlotEntry :=
  match vintageOf s with
  | some v => (slotsFor (lget [] v.schedule g.val) k i).find? (fun e => decide (k ≠ .stationOut) || decide (e.sender = ownNode s))
  | none => none

/-- The guardian lets a frame start (R226): within 200 ns of its scheduled time, both limits included, in an own slot of the schedule. -/
def guardStarts (error : Int) : Bool := decide (-200 ≤ error) && decide (error ≤ 200)

/-- The guardian blocks a transmission (R209, R226, R230). -/
def guardBlocks (s : State) : State := { s with alk := { s.alk with blockNow := true, spoiled := true } }

/-- The guardian cuts what is still in transmission at the end of the slot less 250 ns (R213, R226): only frames that have ended by then
arrive. -/
def guardCuts (before s : State) (len : Nat) (error : Int) : State :=
  let fits := fun (x : TxFrame) => decide (error + (8 * (x.frame.payload.length + 56) : Nat) + 250 ≤ (len : Int))
  { s with alk := { s.alk with tx := before.alk.tx ++ (s.alk.tx.drop before.alk.tx.length).filter fits } }

/-! ### Counts and events -/

/-- An FCS error of a medium (R234, R247). -/
def countFcs (s : State) (g : Fin 4) (m : Medium) : State :=
  modLife s (fun f => { f with fcs := smod 0 f.fcs (mediumIx g m) satInc })

/-- A frame discarded under R224: the total, and ALK_TIMING_ERR; a frame without a session leaves the session open (R404). -/
def timingError (s : State) (session : Option Nat) (dev : Int) : State :=
  let s1 := modLife s (fun f => { f with timingTotal := satInc f.timingTotal })
  let n := match session with | some n => n | none => (Config.freeValue s.free).toNat
  recordAll { s1 with free := s1.free + 1 } 0x0301 (le 2 n ++ le 2 0 ++ le 4 (BitVec.ofInt 32 dev).toNat)

/-- Arrival less expected time, in ns (R224). -/
def arrivalDev (x : RxFrame) (expected : Int) : Int := (x.arrival.toNat : Int) - expected

/-- Deviation of a copy of a session's UP frame from its slot, S - D on the receiver's clock (R204, R224); none: the schedule has no slot
for it. -/
def sessionDev (s : State) (x : RxFrame) (k : SlotKind) (i : Nat) : Option Int :=
  (slotEntry s x.seg k i).map (fun e => arrivalDev x (passes s x.seg x.medium x.side true (e.start * 1000)))

/-- E of a SYNC (R208): TIME + D from node 0, TIME + 2 µs + D from node 1. -/
def syncDev (s : State) (x : RxFrame) : Int :=
  arrivalDev x (passes s x.seg x.medium x.side false (if x.frame.source.setWidth 10 = (1 : BitVec 10) then 2000 else 0))

/-- The window of R224, both limits included. -/
def inSlot (dev : Int) : Bool := decide (-250 ≤ dev) && decide (dev ≤ 250)

/-- A copy has arrived in the window of its slot. -/
def onTime : Option Int → Bool
  | some d => inSlot d
  | none => false

/-- A frame type of R214. -/
def knownType (f : Frame) : Bool :=
  f.type ∈ ([0x01, 0x02, 0x03, 0x04, 0x10, 0x11, 0x12, 0x13] : List Byte)

/-- Sender of a frame. -/
def fromNode (f : Frame) : BitVec 10 := f.source.setWidth 10

/-- SOURCE names the segment on which the frame came. -/
def fromSegment (x : RxFrame) : Bool := decide (field x.frame.source 15 10 = x.seg.val)

/-- Another first node: FIRST_NODE_CHANGE (R364). -/
def setFirst (s : State) (n : BitVec 10) : State :=
  if s.alk.firstNode = n then s else eicRaiseAll { s with alk := { s.alk with firstNode := n } } 37

/-- The module is the first node (R207, R245). -/
def isFirst (s : State) : Bool := decide (s.alk.node = .inSync) && decide (s.alk.firstNode = ownNode s)

/-- ALK_OFFSET (R246). -/
def alkOffset (s : State) : Word :=
  pack [(0, if isFirst s then 0 else s.alk.offset.toNat), (16, bit s.alk.warn), (17, s.alk.outRun)]

/-- Sessions of the module's own output slots while a frame arrives on a segment (R226, R230). -/
def inOwnSlot (s : State) (x : RxFrame) : Bool :=
  match vintageOf s with
  | some v => (lget [] v.schedule x.seg.val).any (fun e =>
      ((decide (e.kind = .stationOut) && decide (e.sender = ownNode s)) || (decide (e.kind = .peerOut) && sendsPeers s)) &&
      decide (0 ≤ arrivalDev x (passes s x.seg x.medium x.side false (e.start * 1000))) &&
      decide (arrivalDev x (passes s x.seg x.medium x.side false (e.start * 1000)) < (e.length * 1000 : Nat)))
  | none => false

/-- Place of a slot's frame in the marks of R233. -/
def heardAt (x : RxFrame) (slot : Nat) : Nat := 1024 * mediumIx x.seg x.medium + slot

/-- A STATION_OUT or PEER_OUT frame of the partner module, which no rule uses (R385). -/
def partnerOut (s : State) (f : Frame) : Bool :=
  twinOn s && decide (fromNode f = partnerNode s) && (decide (f.type = 0x10) || decide (f.type = 0x12))

/-- The port dies discard a copy without a check (R385): the module's own, come round a ring, and the partner's output frames. -/
def portDrops (s : State) (f : Frame) : Bool := decide (fromNode f = ownNode s) || partnerOut s f

/-- What the port dies do with every copy that comes to a node, whatever the lanes judge: node 1 forwards it to its other port unless it
ends a line (R202), one from another sender in an own slot spoils the cycle (R230), and a valid copy is marked for the judgement of its
medium (R233). STATION_IN and PEER of a coupler travel UP, all else that comes from beyond goes DOWN (R214). -/
def portSees (s : State) (x : RxFrame) (slot : Nat) : State :=
  if txDis s x.seg x.medium || decide (s.alk.node = .down) then s
  else
    let up := decide (x.frame.type = 0x11) || (decide (x.frame.type = 0x12) && decide (1 < (fromNode x.frame).toNat))
    let late := (Config.forwarding (4 * x.seg.val + 2 * x.medium.idx + (match x.side with | .A => 0 | .B => 1))).val
    let copy : TxFrame := { seg := x.seg, medium := x.medium, side := x.side, up := up
                            sent := timeAdd x.arrival late, frame := x.frame }
    let own := decide (fromNode x.frame = ownNode s)
    let valid := fcsGood x.frame && knownType x.frame && !portDrops s x.frame
    { s with alk := { s.alk with
      tx := if ownNode s = 1 ∧ own = false ∧ endsLine s x.seg = false then s.alk.tx ++ [copy] else s.alk.tx
      spoiled := s.alk.spoiled || (!portDrops s x.frame && inOwnSlot s x)
      heard := if valid then bset s.alk.heard (heardAt x slot) else s.alk.heard } }

/-- The node falls SILENT (R228, R246). -/
def enterSilent (s : State) : State :=
  { s with alk := { s.alk with node := .silent, silences := satInc s.alk.silences } }

/-- A corrupt frame (R228): FCS error of its medium; a listening or cold-starting node falls SILENT. -/
def corruptSeen (s : State) (g : Fin 4) (m : Medium) : State :=
  let s1 := countFcs s g m
  if s.alk.node = .listen ∨ s.alk.node = .coldStart then enterSilent s1 else s1

/-- The node goes to LISTEN: what it counted is over. -/
def enterListen (s : State) : State :=
  { s with alk := { s.alk with
    node := .listen, outRun := 0, missRun := 0, blockRun := 0, blockNow := false, goodSync := false, spoiled := false
    heardCold := false } }

/-! ### SYNC (R207 to R209, R228, R230, R474, R476) -/

/-- The lanes enter SYNC (R474, R475). -/
def lanesSync (s : State) : State := if s.mod.st = .boot then foldS (classLanes s) enterSync s else s

/-- A SYNC from node 1 is a backup SYNC (R231, R245). -/
def noteBackup (s : State) (x : RxFrame) : State :=
  if fromNode x.frame = 1 then { s with alk := { s.alk with backupNow := true } } else s

/-- The first SYNC that a listening node accepts gives it time and cycle (R228, R476); the upper bits of the cycle count of a
module that has not run are open (R53). -/
def joinSync (s : State) (x : RxFrame) : State :=
  let own := ownNode s
  let hi := if s.mod.ticking then s.mod.cycle.toNat / 65536 else (Config.freeValue s.free).toNat
  let known := decide (fromNode x.frame = 1) && decide (payNat x.frame 8 1 = 2)
  let s1 := { s with
    free := s.free + 1
    mod := { s.mod with ticking := true, firstTick := false, phase := .input, refreshes := 0, tickTime := x.frame.time
                        cycle := BitVec.ofNat 32 (x.frame.cycle.toNat + 65536 * hi), timeUnsure := s.mod.timeUnsure && !known }
    alk := { s.alk with node := if own = 0 then .align else .measure } }
  noteBackup (lanesSync s1) x

/-- A node takes its offset from a SYNC (R208, R230); the first of a cycle counts in the run of R209, and makes a node that has observed
a full valid cycle IN_SYNC. -/
def takeSync (s : State) (x : RxFrame) (e : Int) : State :=
  let first := decide (s.alk.segNow = 0)
  let good := decide (-50 ≤ e) && decide (e ≤ 50) && decide (payNat x.frame 4 4 = (timingCheck s).toNat)
  let far := decide (e > 150) || decide (e < -150)
  let warn := decide (e > 50) || decide (e < -50)
  let ready := first && decide (s.alk.node = .align) && s.alk.goodSync && good && !s.alk.spoiled
  let s1 := { s with alk := { s.alk with
    offset := BitVec.ofInt 16 e, warn := warn, warnings := if warn then satInc s.alk.warnings else s.alk.warnings
    outRun := if first then (if far then min 3 (s.alk.outRun + 1) else 0) else s.alk.outRun
    missRun := 0, goodSync := if first then good else s.alk.goodSync && good, spoiled := if first then false else s.alk.spoiled
    node := if ready then .inSync else s.alk.node } }
  let from1 := if ready && decide (ownNode s = 0) then 0 else fromNode x.frame
  setFirst (eicLevelAll s1 32 s1.alk.warn) from1

/-- A SYNC that the node may follow: from node 0 or 1 and not its own (R207). -/
def syncSource (s : State) (x : RxFrame) : Bool :=
  decide ((fromNode x.frame).toNat ≤ 1) && decide (fromNode x.frame ≠ ownNode s) && fromSegment x &&
  decide (x.frame.payload.length = 16)

/-- A SYNC belongs to the cycle in force (R218, R243). -/
def syncNow (s : State) (x : RxFrame) : Bool :=
  decide (x.frame.time = s.mod.tickTime) && decide (x.frame.cycle = cycle16 s)

/-- The segment has its SYNC of this cycle. -/
def markSegment (s : State) (g : Fin 4) : State := { s with alk := { s.alk with segNow := vput s.alk.segNow g.val true } }

/-- The first copy of a segment's SYNC is accepted (R208, R232). -/
def acceptSync (s : State) (x : RxFrame) (e : Int) : State :=
  if s.alk.segNow.getLsbD x.seg.val then s else markSegment (takeSync s x e) x.seg

/-- A node that keeps time judges a SYNC (R208, R224, R231): out of its window it is a timing error; node 0 in sync follows none. -/
def judgeSync (s : State) (x : RxFrame) : State :=
  let e := syncDev s x
  if !inSlot e then timingError s none e
  else if !syncNow s x then s
  else if decide (s.alk.node = .inSync) && decide (ownNode s = 0) then noteBackup s x
  else acceptSync (noteBackup s x) x e

/-- SYNC (R208, R228, R385): a copy of the module's own that has come round a ring is discarded without a check; the clock of a listening
node is set by the SYNC that it accepts. -/
def execSync (rx : RxFrame) (s : State) : Host.Outcome State Fault Refusal :=
  .next (
    if txDis s rx.seg rx.medium || decide (s.alk.node = .down) || decide (fromNode rx.frame = ownNode s) then s
    else
      let s0 := portSees s rx 577
      if !fcsGood rx.frame || !knownType rx.frame then corruptSeen s0 rx.seg rx.medium
      else if !mediumUsed s rx.seg rx.medium || decide (rx.frame.type ≠ 0x01) || !syncSource s rx then s0
      else match s.alk.node with
        | .listen => acceptSync (joinSync s0 rx) rx 0
        | .measure => judgeSync s0 rx
        | .align => judgeSync s0 rx
        | .inSync => judgeSync s0 rx
        | _ => s0)

/-- The conditions of R209. -/
def losesSync (s : State) : Bool :=
  decide (s.alk.node = .inSync) &&
  (decide (s.alk.outRun ≥ 3) || decide (s.alk.missRun ≥ 3) || decide (s.alk.blockRun + bit s.alk.blockNow ≥ 3))

/-- LEFT_SYNC (R209): the node sends nothing and listens; the code of the cause is open (R404). -/
def execLeftSync (s : State) : Host.Outcome State Fault Refusal :=
  .next (
    if losesSync s then
      let pay := le 4 (alkOffset s).toNat ++ le 4 (Config.freeValue s.free).toNat
      setFirst (enterListen (eventAll { s with free := s.free + 1 } 34 0x0300 pay)) 0x3FF
    else s)

/-- The backup SYNC of a segment on a medium: DOWN at S + D, and UP to node 0 at S - D, S being the tick plus 2 µs; in a ring on both sides
(R204, R231). -/
def sendBackup (s : State) (g : Fin 4) (m : Medium) (error : Int) : State :=
  let f := syncFrame s g.val
  let s1 := sendPlain s g m 2000 error f
  sendOn s1 g m (sidesOf s g.val) true (startsAt s g m true 2000 error) (fun sd => sealFrame f 0 sd m 0 0)

/-- The module has sent its SYNC of the cycle on a segment. -/
def ownSyncSent (s : State) (g : Fin 4) : Bool :=
  s.alk.tx.any (fun x => decide (x.seg = g) && decide (x.frame.type = 0x01) && decide (x.frame.cycle = cycle16 s) &&
    decide (fromNode x.frame = ownNode s))

/-- BACKUP_SYNC (R226, R231): DOWN and, to node 0, UP; both carry the same bytes. -/
def execBackupSync (x : BackupSend) (s : State) : Host.Outcome State Fault Refusal :=
  .next (
    if decide (ownNode s = 1) && decide (s.alk.node = .inSync) && decide (s.mod.phase = .input) &&
        !s.alk.segNow.getLsbD x.seg.val && !ownSyncSent s x.seg then
      if !guardStarts x.error then guardBlocks s
      else
        let s1 := sendBackup (sendBackup { s with alk := { s.alk with backupNow := true } } x.seg .X x.error) x.seg .Y x.error
        if s.alk.segNow = 0 then setFirst s1 1 else s1
    else s)

/-! ### Bus start (R228, R229, R516) -/

/-- T0: the first whole microsecond at or after a time plus 2T (R229). -/
def coldT0 (s : State) (now : Time) : Time :=
  timeAdd 0 ((now.toNat + 2 * periodNs s + 999) / 1000 * 1000)

/-- LISTEN_TIMEOUT (R228, R229): node 0 or 1 sends COLD_START on every port, unless it has accepted one. -/
def execListenTimeout (now : Time) (s : State) : Host.Outcome State Fault Refusal :=
  .next (
    if decide (s.alk.node = .listen) && decide ((ownNode s).toNat ≤ 1) && !s.alk.heardCold then
      let t0 := coldT0 s now
      sendAll { s with alk := { s.alk with node := .coldStart, t0 := t0, coldStarts := satInc s.alk.coldStarts } } now
        (fun s g => coldFrame s g now t0)
    else s)

/-- COLD_START (R225, R228, R229, R385): accepted whenever it arrives; a listening node then waits for SYNC. -/
def execColdStart (rx : RxFrame) (s : State) : Host.Outcome State Fault Refusal :=
  .next (
    if txDis s rx.seg rx.medium || decide (s.alk.node = .down) || decide (fromNode rx.frame = ownNode s) then s
    else
      let s0 := portSees s rx 578
      if !fcsGood rx.frame || !knownType rx.frame then corruptSeen s0 rx.seg rx.medium
      else if !mediumUsed s rx.seg rx.medium || decide (rx.frame.type ≠ 0x02) then s0
      else match s.alk.node with
        | .coldStart => enterSilent s0
        | .listen => { s0 with alk := { s0.alk with heardCold := true } }
        | _ => s0)

/-- SILENT_TIMEOUT (R228). -/
def execSilentTimeout (s : State) : Host.Outcome State Fault Refusal :=
  .next (if s.alk.node = .silent then enterListen s else s)

/-- The first SYNC of a node that has cold-started (R228, R231): node 0 sends it at the tick, node 1 at the tick plus 2 µs, UP as well. -/
def firstSync (s : State) : State :=
  if ownNode s = 0 then sendSync (sendSync s .X 0) .Y 0
  else foldS segments (fun s g => sendBackup (sendBackup s g .X 0) g .Y 0) { s with alk := { s.alk with backupNow := true } }

/-- COLD_START_T0 (R228, R231, R516): IN_SYNC and first node at tick 0, with the first SYNC on both media. -/
def execColdStartT0 (s : State) : Host.Outcome State Fault Refusal :=
  .next (
    if s.alk.node = .coldStart then
      let s1 := setFirst { s with alk := { s.alk with node := .inSync, outRun := 0, missRun := 0, blockRun := 0 } } (ownNode s)
      let start := decide (s.mod.st = .boot) || !s.mod.ticking
      let s2 := { s1 with mod := { s1.mod with
        cycle := 0, tickTime := s.alk.t0, ticking := true, firstTick := true } }
      firstSync (if start then lanesSync s2 else s2)
    else s)

/-- CORRUPT_FRAME (R228, R234). -/
def execCorruptFrame (seg : Fin 4) (medium : Medium) (s : State) : Host.Outcome State Fault Refusal :=
  .next (if mediumSends s seg medium && decide (s.alk.node ≠ .down) then corruptSeen s seg medium else s)

/-! ### Delay exchange (R205, R206, R225, R516) -/

/-- The delay slot in ns after the tick: END_OUTPUT - 10 µs (R220). -/
def delaySlotNs (s : State) : Nat := match vintageOf s with | some v => (v.endOutput - 10) * 1000 | none => 0

/-- Start of the delay slot of the cycle in force. -/
def delayStart (s : State) : Nat := s.mod.tickTime.toNat + delaySlotNs s

/-- An arrival lies within the delay slot as the receiver's clock places it, shifted by a delay, extended by 10 µs (R204, R225). -/
def inDelaySlot (s : State) (shift : Int) (t : Time) : Bool :=
  decide ((delayStart s : Int) + shift ≤ t.toNat) && decide ((t.toNat : Int) ≤ (delayStart s : Int) + shift + 20000)

/-- The node takes part in the delay exchange. -/
def measures (s : State) : Bool :=
  match s.alk.node with | .measure => true | .align => true | .inSync => true | _ => false

/-- A received copy of a service frame of a type is usable, once its FCS has been judged. -/
def serviceFrame (s : State) (x : RxFrame) (ty : Byte) : Bool :=
  mediumUsed s x.seg x.medium && decide (x.frame.type = ty) && decide (x.frame.payload.length = 16) && fromSegment x

/-- DELAY_REQ (R205): D_OUT, T2, and the node's new D, which acts from the next tick; in MEASURE it leads to ALIGN. -/
def execDelayReq (rx : RxFrame) (s : State) : Host.Outcome State Fault Refusal :=
  .next (
    if txDis s rx.seg rx.medium || decide (s.alk.node = .down) then s
    else if !fcsGood rx.frame || !knownType rx.frame then corruptSeen s rx.seg rx.medium
    else if !serviceFrame s rx 0x03 || !measures s || decide (ownNode s = 0) then s
    else
      let dOut := payNat rx.frame 0 4
      let new := payNat rx.frame 4 4
      let d := match (delayOf (mediumOf s rx.seg rx.medium) rx.side).d with | some d => d | none => dOut
      if !inDelaySlot s d rx.arrival then s
      else
        let s1 := modDelay s rx.seg rx.medium rx.side (fun x => { x with
          dOut := dOut, t2Now := some rx.arrival, next := if new = 0xFFFFFFFF then x.next else some new })
        if decide (s.alk.node = .measure) && decide (rx.side = .A) && decide (new ≠ 0xFFFFFFFF) then
          { s1 with alk := { s1.alk with node := .align, goodSync := false } }
        else s1)

/-- D_OUT of this node towards its downstream neighbour (R205): D plus the forwarding latency that it has measured. -/
def delayOut (s : State) (g : Fin 4) (m : Medium) (sd : Side) : Nat :=
  if ownNode s = 0 then 0
  else ownDelay s g m sd + (Config.forwarding (4 * g.val + 2 * m.idx + (match sd with | .A => 0 | .B => 1))).val

/-- LINK = ((T4 - T1) - (T3 - T2)) / 2 in whole ns; an odd half is rounded as the model leaves open (R205). -/
def linkDelay (free : BitVec 64) (t1 t2 t3 t4 : Time) : Int :=
  let x := ((t4.toNat : Int) - t1.toNat) - ((t3.toNat : Int) - t2.toNat)
  x / 2 + (if x % 2 = 1 then (free.toNat % 2 : Nat) else 0)

/-- A DELAY_RESP that has arrived: the upstream node computes LINK and D_NEW for its neighbour (R205). It reaches its port at S less
D_OUT. -/
def takeDelayResp (s : State) (rx : RxFrame) : State :=
  if txDis s rx.seg rx.medium || decide (s.alk.node = .down) then s
  else if !fcsGood rx.frame || !knownType rx.frame then corruptSeen s rx.seg rx.medium
  else if !serviceFrame s rx 0x04 || !measures s || !inDelaySlot s (-(delayOut s rx.seg rx.medium rx.side : Int)) rx.arrival then s
  else match (delayOf (mediumOf s rx.seg rx.medium) rx.side).t1 with
    | none => s
    | some t1 =>
      let t2 := BitVec.ofNat 64 (payNat rx.frame 0 8)
      let t3 := BitVec.ofNat 64 (payNat rx.frame 8 8)
      let link := linkDelay (Config.freeValue s.free) t1 t2 t3 rx.arrival
      let new : Int := (delayOut s rx.seg rx.medium rx.side : Nat) + link
      modDelay { s with free := s.free + 1 } rx.seg rx.medium rx.side (fun x => { x with
        resultNow := some (BitVec.ofInt 32 link, BitVec.ofInt 32 new) })

/-- DELAY_RESP (R205): the frame at a port of the node, and T4, at which it has arrived there. -/
def execDelayResp (port : PortAt) (arrival : Time) (frame : Frame) (s : State) : Host.Outcome State Fault Refusal :=
  .next (takeDelayResp s { seg := port.seg, medium := port.medium, side := port.side, arrival := arrival, frame := frame })

/-- Side whose exchange runs in the cycle: on a ring, A in even cycles and B in odd ones (R205). -/
def delaySide (s : State) (g : Nat) : Side := if isRing s g && decide (s.mod.cycle.toNat % 2 = 1) then .B else .A

/-- Node number of the next node along a side, away from the reference point or towards it (R201, R521): on side A of node 0 stands node 1 of
a pair, and node 1 has node 0 towards the reference point of side A and away from that of side B; which of a segment's nodes stands next or
last is open (DESIGN CHOICE, log entry 28). -/
def neighbour (s : State) (g : Fin 4) (sd : Side) (down : Bool) : BitVec 16 :=
  let others := segmentNodes s g
  let at1 := fun (k : Nat) => (lget 0 others (Config.neighbourAt (2 * g.val + k) % others.length)).setWidth 16
  if ownNode s = 0 then
    match sd with
    | .A => if twinOn s then 1 else at1 0
    | .B => if others = [] then 1 else at1 1
  else
    match sd, down with
    | .A, true => if others = [] then 0 else at1 0
    | .B, false => if others = [] then 0 else at1 0
    | .A, false => 0
    | .B, true => 0

/-- A number, or all ones for none (R218). -/
def orNone : Option Word → Nat
  | some w => w.toNat
  | none => 0xFFFFFFFF

/-- DELAY_REQ of a medium on a segment, at S + 1 µs + D (R205, R521): it carries the result that the last exchange of the side has given. -/
def sendDelayReq (s : State) (g : Fin 4) (m : Medium) (error : Int) : State :=
  let sd := delaySide s g.val
  let x := delayOf (mediumOf s g m) sd
  let f := { blankFrame s g.val 0x03 with
    dest := neighbour s g sd true
    payload := be 4 (delayOut s g m sd) ++ be 4 (orNone (x.result.map Prod.snd)) ++ be 4 (orNone (x.result.map Prod.fst)) ++ be 4 0 }
  let at1 := startsAt s g m false (delaySlotNs s + 1000) error
  modDelay (sendOn s g m [sd] false at1 (fun sd => sealFrame f 0 sd m 0 0)) g m sd (fun x => { x with t1Now := some (at1 sd) })

/-- DELAY_RESP of a medium on a segment, at S - D (R205, R521), for the DELAY_REQ of the last cycle of the side. -/
def sendDelayResp (s : State) (g : Fin 4) (m : Medium) (error : Int) : State :=
  let sd := delaySide s g.val
  let t2 := match (delayOf (mediumOf s g m) sd).t2 with | some t => t.toNat | none => 0
  let at1 := startsAt s g m true (delaySlotNs s) error
  let f := { blankFrame s g.val 0x04 with dest := neighbour s g sd false, payload := be 8 t2 ++ be 8 (at1 sd).toNat }
  modDelay (sendOn s g m [sd] true at1 (fun sd => sealFrame f 0 sd m 0 0)) g m sd (fun x => { x with t2 := none })

/-- Segments on which the module sends DELAY_REQ on a medium (R205): those where it holds D on the side of the cycle. -/
def reqSides (s : State) (m : Medium) : List (Fin 4) :=
  segments.filter (fun g =>
    let x := delayOf (mediumOf s g m) (delaySide s g.val)
    (decide (ownNode s = 0) || (x.d.isSome && decide (s.alk.node ≠ .measure))) && x.t1Now.isNone && !txDis s g m)

/-- Segments on which the module answers the DELAY_REQ of the last cycle of the side (R205). -/
def respSides (s : State) (m : Medium) : List (Fin 4) :=
  segments.filter (fun g =>
    decide (ownNode s ≠ 0) && (delayOf (mediumOf s g m) (delaySide s g.val)).t2.isSome && !txDis s g m)

/-- Frames of the delay slot, where the module has any to send. -/
def sendDelays (s : State) (on : List (Fin 4)) (f : State → Fin 4 → State) : Option State :=
  if (vintageOf s).isSome && decide (s.mod.phase = .output) && !on.isEmpty then some (foldS on f s) else none

/-- Start and length in ns of the module's own slot (R205, R219, R226, R332). -/
def ownSlot (s : State) (slot : TxSlot) : Option (Nat × Nat) :=
  let ns := fun (e : SlotEntry) => (e.start * 1000, e.length * 1000)
  match slot with
  | .sync => some (0, 4000)
  | .delayReq => some (delaySlotNs s + 1000, 9000)
  | .delayResp => some (delaySlotNs s, 10000)
  | .twin => some (twinStart s, 4000)
  | .station i => (match stationCfg s i.val with | some c => (slotEntry s c.segment .stationOut i.val).map ns | none => none)
  | .peer q => (match peerCfg s q.val with | some c => (slotEntry s c.segment .peerOut (512 + q.val)).map ns | none => none)

/-- The frame of a slot on a medium, where the module has something to send in it: from a start in ns after the tick, with the error of the
transmission. -/
def slotFrame (s : State) (slot : TxSlot) (m : Medium) (start : Nat) (error : Int) : Option State :=
  match slot with
  | .delayReq => sendDelays s (reqSides s m) (fun s g => sendDelayReq s g m error)
  | .delayResp => sendDelays s (respSides s m) (fun s g => sendDelayResp s g m error)
  | .sync =>
    if decide (ownNode s = 0) && decide (s.mod.phase = .input) && !syncSent s m then some (sendSync s m error) else none
  | .station i =>
    match cycleImage s, stationCfg s i.val with
    | some _, some c =>
      if sendsStations s && decide (s.mod.phase = .output) then
        some (sendCoded s c.segment m (sidesOf s c.segment.val) false start error (fun _ y => stationFrame s y i.val c)
          (fun l => sget 0 (givenCodes s l).stations i.val))
      else none
    | _, _ => none
  | .peer q =>
    match cycleImage s, peerCfg s q.val with
    | some _, some c =>
      if sendsPeers s && decide (s.mod.phase = .output) then
        some (sendCoded s c.segment m (sidesOf s c.segment.val) false start error (fun _ y => peerFrame s y q.val c)
          (fun l => sget 0 (givenCodes s l).peers q.val))
      else none
    | _, _ => none
  | .twin =>
    match cycleImage s with
    | some x =>
      match x.twin with
      | some t => if twinOn s && operating s.mod.st && twinSlotOpen s then some (sendTwin s m error x t) else none
      | none => none
    | none => none

/-- The states in which a node sends in a slot (R228): DELAY frames from MEASURE on, all others IN_SYNC. -/
def sendsIn (s : State) : TxSlot → Bool
  | .delayReq => measures s
  | .delayResp => measures s
  | .sync => decide (s.alk.node = .inSync)
  | .twin => decide (s.alk.node = .inSync)
  | .station _ => decide (s.alk.node = .inSync)
  | .peer _ => decide (s.alk.node = .inSync)

/-- COMPOSE_FRAME (R185, R204, R205, R226, R227): the port die starts the frame of a slot with an error against its scheduled time. -/
def execComposeFrame (slot : TxSlot) (m : Medium) (error : Int) (s : State) : Host.Outcome State Fault Refusal :=
  .next (
    if !sendsIn s slot then s
    else match ownSlot s slot with
      | none => s
      | some (start, len) =>
        match slotFrame s slot m start error with
        | none => s
        | some t => if guardStarts error then guardCuts s t len error else guardBlocks s)

/-- A new D acts at the tick (R205); a change of more than 20 ns is DELAY_STEP (R206). -/
def applyDelay (s : State) (i : Nat) (sd : Side) : State :=
  let x := delayOf (sget MediumRec.reset s.alk.media i) sd
  match x.next with
  | none => s
  | some n =>
    let was := match x.d with | some d => d | none => x.dOut
    let y := { x with d := some n, next := none }
    let f := fun (z : MediumRec) => match sd with | .A => { z with sideA := y } | .B => { z with sideB := y }
    let s1 := { s with alk := { s.alk with media := smod MediumRec.reset s.alk.media i f } }
    if n > was + 20 ∨ was > n + 20 then eicRaiseAll s1 33 else s1

/-- The exchange of a cycle on one side of medium i = 2s + m is over (R205, R516): T2, T1 and the result serve in the next cycle of the side. -/
def exchangeTick (s : State) (i : Nat) (sd : Side) : State :=
  let runs := decide (delaySide s (i / 2) = sd)
  let f := fun (x : DelayRec) => { x with
    t2 := if runs then x.t2Now else x.t2, t1 := if runs then x.t1Now else x.t1, t2Now := none, t1Now := none
    result := match x.resultNow with | some r => some r | none => x.result, resultNow := none }
  { s with alk := { s.alk with media := smod MediumRec.reset s.alk.media i (fun z =>
      match sd with | .A => { z with sideA := f z.sideA } | .B => { z with sideB := f z.sideB }) } }

/-- Slots of a medium on a segment whose frame arrived valid in the cycle. -/
def heardSlots (s : State) (i : Nat) : List Nat := (brange s.alk.heard (1024 * i) (1024 * (i + 1))).map (· - 1024 * i)

/-- One-sided losses of medium i = 2s + m in the cycle (R233, R385): frames that arrived valid on the other medium alone, and sent copies
that failed their check. -/
def oneSided (s : State) (i : Nat) : Nat :=
  let other := if i % 2 = 0 then i + 1 else i - 1
  ((heardSlots s other).filter (fun n => !(heardSlots s i).contains n)).length + (sget MediumRec.reset s.alk.media i).lostNow

/-- The judgement of every medium at the tick: the losses of the cycle join those of the last 100, and a full cycle without one, with every
port locked, lets a withdrawn medium return (R233). -/
def lossTick (s : State) : State :=
  let media := (List.range 8).foldl (fun m i => smod MediumRec.reset m i (fun x => { x with
    losses := if s.alk.node = .inSync then (oneSided s i :: x.losses).take 100 else x.losses, lostNow := 0
    clean := decide (s.alk.node = .inSync) && decide (oneSided s i = 0) && !x.lapse, lapse := decide (x.unlocked ≠ 0) })) s.alk.media
  { s with alk := { s.alk with media := media, heard := [] } }

/-- The bus side of a tick: runs of missing SYNC and of blocks, the views of the last cycle, the losses of the media, new delays (R205,
R209, R230, R231, R233, R245). The SYNC that node 1 has sent for the tick of a cold start belongs to the cycle that begins. -/
def alkTick (s : State) : State :=
  let a := s.alk
  let missed := decide (a.segNow = 0) && decide (a.node = .inSync) && !isFirst s
  let s1 := { s with alk := { a with
    missRun := if missed then min 3 (a.missRun + 1) else 0, outRun := if a.segNow = 0 then 0 else a.outRun
    blockRun := if a.blockNow then min 3 (a.blockRun + 1) else 0
    goodSync := a.goodSync && decide (a.segNow ≠ 0), segSync := a.segNow, segNow := 0
    backup := a.backupNow && !s.mod.firstTick, backupNow := a.backupNow && s.mod.firstTick, blockNow := false } }
  foldS (List.range 8) (fun s i => applyDelay (applyDelay (exchangeTick (exchangeTick s i .A) i .B) i .A) i .B) (lossTick s1)

/-- Frames of earlier cycles are gone; a SYNC sent at the instant of this tick stays. -/
def alkKeep (s : State) : State :=
  { s with alk := { s.alk with tx := s.alk.tx.filter (fun x => decide (x.frame.type = 0x01) && decide (x.frame.cycle = cycle16 s) &&
      decide (x.frame.time = s.mod.tickTime)) } }

/-! ### Sessions (R235 to R242, R248, R520) -/

/-- A session of a lane. -/
def sessOf (L : LaneState) (i : Nat) : Session := sget Session.reset L.sessions i

/-- Change a session of a lane. -/
def modSess (s : State) (l : Lane) (i : Nat) (f : Session → Session) : State :=
  modLane s l (fun L => { L with sessions := smod Session.reset L.sessions i f })

/-- ALK_SESSION_STATE.STATE (R248). -/
def sessCode : SessSt → Nat
  | .notConfigured => 0 | .closed => 1 | .opening => 2 | .admitted => 3 | .dropped => 4 | .retired => 5

/-- Re-admissions in the 60 min that end at the tick, both ends included (R241). -/
def readmitCount (s : State) (x : Session) : Nat := min 6 (inWindow s.mod.tickTime hour1 x.readmits).length

/-- Payload of STATION_DROPPED, STATION_ADMITTED and SESSION_RETIRED (R404). -/
def sessPayload (s : State) (l : Lane) (i : Nat) : List Byte :=
  let x := sessOf (lane s l) i
  le 2 i ++ le 1 (sessCode x.st) ++ le 1 (readmitCount s x)

/-- EIC source of a session that leaves ADMITTED (R364): 256 + s, or 768 + q for session 512 + q. -/
def lostSource (i : Nat) : Nat := 256 + i

/-- A session leaves ADMITTED for DROPPED (R235, R238, R242). -/
def dropSession (s : State) (l : Lane) (i m : Nat) : State :=
  let s1 := modSess s l i (fun x => { x with
    st := .dropped, miss := m + 1, misses := satInc x.misses })
  eventRef s1 l (lostSource i) 0x0305 (sessPayload s1 l i)

/-- A record without an EIC source, made once for what every lane finds. -/
def recordRef (s : State) (l : Lane) (code : Nat) (payload : List Byte) : State :=
  if l = refLane s then recordAll s code payload else s

/-- First admission from CLOSED (R240). -/
def admitFirst (s : State) (l : Lane) (i : Nat) : State :=
  let s1 := modSess s l i (fun x => { x with st := .admitted, fresh := true, miss := 0 })
  recordRef s1 l 0x0306 (sessPayload s1 l i)

/-- Re-admission of an OPENING session (R240, R241): the sixth in 60 min retires it instead. -/
def readmit (s : State) (l : Lane) (i : Nat) : State :=
  let x := sessOf (lane s l) i
  let earlier := (inWindow s.mod.tickTime hour1 x.readmits).length
  let stamps := (s.mod.tickTime :: x.readmits).take 6
  if earlier ≥ 5 then
    let s1 := modSess s l i (fun x => { x with st := .retired, readmits := stamps })
    recordRef s1 l 0x0307 (sessPayload s1 l i)
  else
    let s1 := modSess s l i (fun x => { x with st := .admitted, fresh := true, miss := 0, readmits := stamps })
    recordRef s1 l 0x0306 (sessPayload s1 l i)

/-- A frame that R236 counts in one of the session's counters. -/
def countTiming (s : State) (l : Lane) (i : Nat) (dev : Int) : State :=
  let s1 := modSess s l i (fun x => { x with timing := satInc x.timing })
  if l = refLane s then timingError s1 (some i) dev else s1

def countCode (s : State) (l : Lane) (i : Nat) : State := modSess s l i (fun x => { x with codeErr := satInc x.codeErr })

def countSeq (s : State) (l : Lane) (i : Nat) : State := modSess s l i (fun x => { x with seqErr := satInc x.seqErr })

/-- Values and valid bits of the points of a STATION_IN (R216). -/
def stationPoints (c : StationCfg) (f : Frame) : BitSpace × BitSpace :=
  let ps := (List.range c.points).map (fun p => (p, pointBits f.payload p))
  ((ps.filter (fun e => e.2.2)).map Prod.fst, (ps.filter (fun e => e.2.1)).map Prod.fst)

/-- A SEQUENCE exceeds the reference by 1 to n, in serial-number arithmetic (R237, R242). -/
def seqWithin (x : Session) (seq : Word) (n : Nat) : Bool :=
  let d := (seq - x.rxSeq).toNat
  decide (1 ≤ d) && decide (d ≤ n)

/-- A STATION_IN with OPEN that has passed checks 1 to 5 (R520). -/
def takeOpen (s : State) (l : Lane) (i : Nat) (c : StationCfg) (f : Frame) : State :=
  let x := sessOf (lane s l) i
  if payNat f 0 4 ≠ c.configCheck.toNat then countCode s l i
  else
    let s1 := modSess s l i (fun x => { x with rxSeq := f.sequence, rxRef := true, opened := true })
    match x.st with
    | .closed => admitFirst s1 l i
    | .dropped => modSess s1 l i (fun x => { x with st := .opening })
    | .opening => s1
    | _ => s

/-- A STATION_IN without OPEN that has passed checks 1 to 5 (R236, R238, R240, R520). -/
def takeIn (s : State) (l : Lane) (i : Nat) (c : StationCfg) (f : Frame) : State :=
  let x := sessOf (lane s l) i
  if x.st ≠ .admitted then s
  else if !seqWithin x f.sequence (c.miss + 1) then countSeq s l i
  else
    let p := stationPoints c f
    modSess s l i (fun x => { x with
      rxSeq := f.sequence, rxRef := true, got := true, miss := 0, fresh := false, values := p.1, valids := p.2 })

/-- Checks 2 to 6 of R236 in their order; a frame is taken while the input image is open. -/
def judgeStation (s : State) (l : Lane) (i : Nat) (c : StationCfg) (rx : RxFrame) : State :=
  let f := rx.frame
  let source := BitVec.ofNat 16 (c.node.toNat + 1024 * c.segment.val)
  if decide (f.type ≠ 0x11) || decide (f.source ≠ source) || !f.dest.getLsbD 10 ||
      decide (f.payload.length ≠ stationLen c.points) then countCode s l i
  else if !onTime (sessionDev s rx .stationIn i) then countTiming s l i ((sessionDev s rx .stationIn i).getD 0)
  else if f.cycle ≠ cycle16 s ∨ f.time ≠ s.mod.tickTime then countSeq s l i
  else if !stationCodesOk c.sid f then countCode s l i
  else if s.mod.phase ≠ .input then s
  else if f.flags.getLsbD 1 then takeOpen s l i c f
  else takeIn s l i c f

/-- The lane judges copies of a session: it computes, the medium is used, and no copy of this cycle has been accepted (R232, R233). A copy
that comes after the input phase is judged too, and is out of its window (R220, R224, R236). -/
def listens (s : State) (l : Lane) (i : Nat) (rx : RxFrame) : Bool :=
  let x := sessOf (lane s l) i
  computes s l && mediumUsed s rx.seg rx.medium && decide (x.st ≠ .notConfigured) &&
  !x.got && !x.opened

/-- A copy whose FCS fails or whose type is none of R214 counts against its medium, once for the lanes, and silences a node that listens or
cold-starts (R214, R228, R236). -/
def badCopy (s : State) (l : Lane) (rx : RxFrame) : State :=
  if l = refLane s ∧ txDis s rx.seg rx.medium = false ∧ s.alk.node ≠ .down then corruptSeen s rx.seg rx.medium else s

/-- A copy of a session's frame comes to the port dies, once for the lanes. -/
def sessionSees (s : State) (l : Lane) (rx : RxFrame) (i : Nat) : State := if l = refLane s then portSees s rx i else s

/-- STATION_IN (R236, R385, R520). -/
def execStationIn (l : Lane) (station : Fin 512) (rx : RxFrame) (s : State) : Host.Outcome State Fault Refusal :=
  .next (
    match stationCfg s station.val with
    | none => s
    | some c =>
      let s0 := sessionSees s l rx station.val
      if portDrops s rx.frame then s0
      else if !fcsGood rx.frame || !knownType rx.frame then badCopy s0 l rx
      else if !listens s l station.val rx then s0
      else judgeStation s0 l station.val c rx)

/-- Patch the bits of one session into a pair of spaces: values with safe values where the valid bit is 0 (R88, R238). -/
def sessionBits (x : Session) (n : Nat) (safe : BitSpace) : BitSpace × BitSpace :=
  let live := decide (x.st = .admitted) && !x.fresh
  let valid := fun (p : Nat) => live && bget x.valids p
  ((List.range n).filter (fun p => if valid p then bget x.values p else bget safe p), (List.range n).filter valid)

/-- Station i's points enter the lane's input image (R87, R88, R238). -/
def stationInputs (L : LaneState) (i : Nat) (c : StationCfg) : LaneState :=
  let b := sessionBits (sessOf L i) c.points c.safe
  let d := L.press.data
  let lo := 256 * i
  { L with press := { L.press with data := { d with
    iv := bpatch d.iv lo (lo + 256) (bshift b.1 lo), ifv := bpatch d.ifv lo (lo + 256) (bshift b.2 lo) } } }

/-- Peer q's points enter the lane's input image (R87, R242): a point whose pair is invalid has valid bit 0 and so reads its safe value (R88,
R216; DEDUCED, log entry 81); outside ADMITTED all of them do. -/
def peerInputs (L : LaneState) (q : Nat) (c : PeerCfg) : LaneState :=
  let b := sessionBits (sessOf L (512 + q)) 128 c.safe
  let d := L.press.data
  let lo := 256 + 128 * q
  { L with press := { L.press with data := { d with
    lv := bpatch d.lv lo (lo + 128) (bshift b.1 lo), lf := bpatch d.lf lo (lo + 128) (bshift b.2 lo) } } }

/-- MISS of an ADMITTED station in a cycle without an accepted STATION_IN (R238). -/
def missStation (s : State) (l : Lane) (i : Nat) (c : StationCfg) : State :=
  let x := sessOf (lane s l) i
  if decide (x.st = .admitted) && !x.got && !x.opened then
    if x.miss + 1 > c.miss then dropSession s l i c.miss
    else modSess s l i (fun x => { x with miss := x.miss + 1, misses := satInc x.misses })
  else s

/-- STATION_DROPPED (R238): the cycle's miss is the one beyond the tolerance. The input image of the cycle, which closes at END_INPUT, takes
the safe values of a DROPPED session (R88, R314). -/
def execStationDropped (l : Lane) (station : Fin 512) (s : State) : Host.Outcome State Fault Refusal :=
  .next (
    let i := station.val
    match stationCfg s i with
    | none => s
    | some c =>
      let x := sessOf (lane s l) i
      if computes s l && decide (s.mod.phase = .input) && decide (x.st = .admitted) && !x.got && !x.opened &&
          decide (x.miss ≥ c.miss) then
        dropSession s l i c.miss
      else s)

/-! ### Peers (R242, R332) -/

/-- ECHO_SEQ names a PEER frame that was sent no more than PEER_TIMEOUT before the tick (R242). The session sends one in every
cycle from SEQUENCE 1 on, so the numbers sent are 1 to the last one, and every number once they have wrapped. -/
def echoFresh (s : State) (x : Session) (c : PeerCfg) (echo : Word) : Bool :=
  let back := (x.txSeq - echo).toNat
  (decide (back < x.txSeq.toNat) || x.txWrapped) && decide ((back + 1) * periodNs s ≤ c.timeoutMs * 1000000)

/-- Points of a PEER payload (R216): a pair of equal bits is invalid. -/
def peerPoints (f : Frame) : BitSpace × BitSpace :=
  let bs := f.payload.drop 8
  let ps := (List.range 128).map (fun p => (p, pointBits bs p))
  ((ps.filter (fun e => e.2.1 && !e.2.2)).map Prod.fst, (ps.filter (fun e => decide (e.2.1 ≠ e.2.2))).map Prod.fst)

/-- An accepted PEER frame (R235, R240, R242). -/
def takePeer (s : State) (l : Lane) (i : Nat) (f : Frame) : State :=
  let p := peerPoints f
  let x := sessOf (lane s l) i
  let bad := p.2.length < 128
  let s1 := modSess s l i (fun x => { x with
    rxSeq := f.sequence, rxRef := true, got := true, miss := if x.st = .admitted then 0 else x.miss, lastAt := s.mod.tickTime
    codeErr := if bad then satInc x.codeErr else x.codeErr
    values := if x.st = .admitted then p.1 else x.values, valids := if x.st = .admitted then p.2 else x.valids
    fresh := x.fresh && decide (x.st ≠ .admitted) })
  match x.st with
  | .closed => admitFirst s1 l i
  | .dropped => modSess s1 l i (fun x => { x with st := .opening })
  | _ => s1

/-- The checks of R242; the codes may be those of either module of a peer pair (R332). A session that has accepted no frame since BOOT takes any
SEQUENCE (DESIGN CHOICE, log entry 81). -/
def judgePeer (s : State) (l : Lane) (q : Nat) (c : PeerCfg) (rx : RxFrame) : State :=
  let i := 512 + q
  let f := rx.frame
  let x := sessOf (lane s l) i
  let dev := sessionDev s rx .peerIn i
  if decide (f.type ≠ 0x12) || decide (f.payload.length ≠ 40) then countCode s l i
  else if !onTime dev then countTiming s l i (dev.getD 0)
  else if payNat f 0 4 ≠ moduleSid s ∨ (moduleCodesOk c.sid f = false ∧ moduleCodesOk c.otherSid f = false) then countCode s l i
  else if x.rxRef && !seqWithin x f.sequence 65535 then countSeq s l i
  else if !echoFresh s x c (BitVec.ofNat 32 (payNat f 4 4)) then countSeq s l i
  else if x.st = .retired ∨ s.mod.phase ≠ .input then s
  else takePeer s l i f

/-- PEER (R242, R385). -/
def execPeer (l : Lane) (q : Fin 64) (rx : RxFrame) (s : State) : Host.Outcome State Fault Refusal :=
  .next (
    match peerCfg s q.val with
    | none => s
    | some c =>
      let s0 := sessionSees s l rx (512 + q.val)
      if portDrops s rx.frame then s0
      else if !fcsGood rx.frame || !knownType rx.frame then badCopy s0 l rx
      else if !listens s l (512 + q.val) rx then s0
      else judgePeer s0 l q.val c rx)

/-- An ADMITTED peer from which nothing has been accepted for PEER_TIMEOUT (R242). -/
def peerLate (s : State) (l : Lane) (q : Nat) (c : PeerCfg) : Bool :=
  let x := sessOf (lane s l) (512 + q)
  decide (x.st = .admitted) && decide (timeSince s.mod.tickTime x.lastAt ≥ c.timeoutMs * 1000000)

/-- A peer's cycle without an accepted frame, and its timeout (R242, R248). MISS of a peer that stays ADMITTED stops at m + 1, the value that
R248 gives outside ADMITTED (DESIGN CHOICE, log entry 81). -/
def missPeer (s : State) (l : Lane) (q : Nat) (c : PeerCfg) : State :=
  let x := sessOf (lane s l) (512 + q)
  if decide (x.st = .admitted) && !x.got then
    if peerLate s l q c then dropSession s l (512 + q) c.miss
    else modSess s l (512 + q) (fun x => { x with miss := min (x.miss + 1) (c.miss + 1), misses := satInc x.misses })
  else s

/-- PEER_TIMEOUT (R242): L and LF take the safe values with the input image that closes at END_INPUT (R88, R314). -/
def execPeerTimeout (l : Lane) (q : Fin 64) (s : State) : Host.Outcome State Fault Refusal :=
  .next (
    match peerCfg s q.val with
    | none => s
    | some c =>
      if computes s l && peerLate s l q.val c then
        dropSession s l (512 + q.val) c.miss
      else s)

/-! ### Closing the input image -/

/-- END_INPUT closes the sessions of a lane: misses, drops, and the points of every station and peer (R88, R238, R242). -/
def closeSessions (v : Vintage) (s : State) (l : Lane) : State :=
  let st := v.stations.zip (List.range v.stations.length)
  let pe := v.peers.zip (List.range v.peers.length)
  let s1 := foldS st (fun s e => missStation s l e.2 e.1) s
  let s2 := foldS pe (fun s e => missPeer s l e.2 e.1) s1
  modLane s2 l (fun L =>
    let L1 := st.foldl (fun L e => stationInputs L e.2 e.1) L
    pe.foldl (fun L e => peerInputs L e.2 e.1) L1)

/-- The marks of one cycle are gone at the tick. -/
def sessionsTick (L : LaneState) : LaneState :=
  let f := fun (m : Sparse Session) (e : Nat × Session) => sput Session.reset m e.1 { e.2 with got := false, opened := false }
  { L with sessions := L.sessions.foldl f [] }

/-! ### Admission at the logic-done mark (R240, R241) -/

/-- The vintage leaves the permission of a session to the host. -/
def hostAdmits (v : Vintage) (i : Nat) : Bool :=
  if i < 512 then (match v.stations[i]? with | some c => c.hostAdmission | none => false)
  else (match v.peers[i - 512]? with | some c => c.hostAdmission | none => false)

/-- PROGRAM: markers of the OPENING sessions at the logic-done mark. -/
def admitMarkers (v : Vintage) (s : State) (l : Lane) : State :=
  foldS (skeys (lane s l).sessions) (fun s i =>
    let L := lane s l
    if decide ((sessOf L i).st = .opening) && !hostAdmits v i && bget L.press.data.m (v.admitBase + i) then readmit s l i
    else s) s

/-- A clear puts a RETIRED session into DROPPED and empties its window (R241). -/
def clearSession (s : State) (l : Lane) (i : Nat) : State := modSess s l i (fun x => { x with st := .dropped, readmits := [] })

/-- STATION_ADMIT in one lane (R240, R241, R314): true, it was done. A permission that retires the session, as the sixth re-admission in 60
min, counts as done (DESIGN CHOICE, log entry 81). -/
def admitHost (v : Vintage) (s : State) (l : Lane) (i opt : Nat) : State × Bool :=
  let x := sessOf (lane s l) i
  if opt = 1 then (if x.st = .retired then (clearSession s l i, true) else (s, false))
  else if x.st = .opening ∧ hostAdmits v i = true then (readmit s l i, true)
  else (s, false)

/-- SESSION_CLEAR (R29, R241, R486). -/
def execSessionClear (session : Fin 576) (auth : Auth) (s : State) : Host.Outcome State Fault Refusal :=
  .next (
    let i := session.val
    if Lane.list.any (fun l => decide ((sessOf (lane s l) i).st = .retired)) then
      harnal s auth 5 (i % 256) (fun s => foldS Lane.list (fun s l =>
        if (sessOf (lane s l) i).st = .retired then clearSession s l i else s) s)
    else s)

/-! ### Media (R29, R233, R501) -/

/-- Withdrawals of a medium on a segment in the 24 h that end at the tick, both ends included. -/
def withdrawalCount (s : State) (i : Nat) : Nat :=
  min 4 (inWindow s.mod.tickTime day24 (sget [] s.cellar.life.withdrawals i)).length

/-- Payload of the medium records (R404). -/
def mediumPayload (s : State) (g : Fin 4) (m : Medium) : List Byte :=
  le 1 g.val ++ le 1 m.idx ++ le 1 (withdrawalCount s (mediumIx g m)) ++ le 1 0

/-- What withdraws a medium (R233): 8 one-sided losses in the last 100 cycles, or a loss of block lock that has lasted 2 µs. -/
def withdraws (s : State) (g : Fin 4) (m : Medium) (lockLost : Bool) : Bool :=
  let x := mediumOf s g m
  (lockLost && decide (x.unlocked ≠ 0)) || decide (x.losses.foldl (· + ·) 0 ≥ 8)

/-- MEDIUM_WITHDRAWN (R233): the fourth withdrawal in 24 h retires the medium. -/
def execMediumWithdrawn (seg : Fin 4) (medium : Medium) (lockLost : Bool) (s : State) : Host.Outcome State Fault Refusal :=
  .next (
    if mediumUsed s seg medium && withdraws s seg medium lockLost then
      let i := mediumIx seg medium
      let retire := decide ((inWindow s.mod.tickTime day24 (sget [] s.cellar.life.withdrawals i)).length ≥ 3)
      let s1 := modPages s [4] (fun f => { f with
        withdrawals := smod [] f.withdrawals i (fun ts => (s.mod.tickTime :: ts).take 4)
        retiredMedia := if retire then vput f.retiredMedia i true else f.retiredMedia })
      let s2 := modMedium s1 seg medium (fun x => { x with
        st := if retire then .retired else .withdrawn, lapse := true, clean := false })
      if retire then eventAll s2 36 0x0304 (mediumPayload s2 seg medium)
      else eventAll s2 35 0x0302 (mediumPayload s2 seg medium)
    else s)

/-- MEDIUM_RETURNED (R233): after a full cycle since the withdrawal without a one-sided loss, with every port locked throughout; the count of losses starts afresh (log
entry 58). -/
def execMediumReturned (seg : Fin 4) (medium : Medium) (s : State) : Host.Outcome State Fault Refusal :=
  .next (
    let x := mediumOf s seg medium
    if x.st = .withdrawn ∧ x.unlocked = 0 ∧ x.clean = true then
      let s1 := modMedium s seg medium (fun x => { x with st := .inUse, losses := [] })
      recordAll s1 0x0303 (mediumPayload s1 seg medium)
    else s)

/-- MEDIUM_CLEAR (R29, R233, R486). -/
def execMediumClear (seg : Fin 4) (medium : Medium) (auth : Auth) (s : State) : Host.Outcome State Fault Refusal :=
  .next (
    let i := mediumIx seg medium
    if (mediumOf s seg medium).st = .retired then
      harnal s auth 2 i (fun s =>
        let s1 := modPages s [4] (fun f => { f with
          withdrawals := sput [] f.withdrawals i [], retiredMedia := vput f.retiredMedia i false })
        modMedium s1 seg medium (fun x => { x with st := .inUse }))
    else s)

/-- LOS (R501): the port counts as without block lock while the input is high. -/
def execLos (seg : Fin 4) (medium : Medium) (port : Fin 2) (high : Bool) (s : State) :
    Host.Outcome State Fault Refusal :=
  .next (modMedium s seg medium (fun x => { x with unlocked := vput x.unlocked port.val high, lapse := x.lapse || high }))

end Sys2Proof.Machine
end

