-- ==== Sys2Proof/Machine/FieldDie.lean ====
section
/-!
DEFINITION. The field die's own rules (R250 to R264, R268, R273, R279, R282): enables, switches, valid channels, tests that a
change ends, the tick sample, group latch, crossing loss, field fault.
-/

namespace Sys2Proof.Machine

/-- Change the field die. -/
def modField (s : State) (f : Field → Field) : State := { s with field := f s.field }

/-- Change one downstream stream. -/
def modStream (f : Field) (l : Lane) (g : StreamRec → StreamRec) : Field :=
  { f with streams := f.streams.set l (g (f.streams.get l)) }

/-- A field event with its record: channel, pair, group or stream; fault or cause; value (R404). -/
def fieldEvent (s : State) (src code a b v : Nat) : State := eventAll s src code (le 1 a ++ le 1 b ++ le 2 v)

/-- The supply group of a channel: of inputs n < 24, pairs n < 12, outputs n < 8, sources n < 4, counters n < 2 (R250). -/
def groupRec (f : Field) (second : Bool) : GroupRec := if second then f.group2 else f.group1

/-- Change a supply group. -/
def modGroup (f : Field) (second : Bool) (g : GroupRec → GroupRec) : Field :=
  if second then { f with group2 := g f.group2 } else { f with group1 := g f.group1 }

/-- The configuration of an input, pair, output or counter in force; the defaults of R288 for what it does not list. -/
def inputCfg (c : LocalCfg) (n : Nat) : InputCfg := lget { filter := 60, source := none } c.inputs n
def pairCfg (c : LocalCfg) (j : Nat) : PairCfg := lget { dual := false, disc10us := 10000, startTest := true } c.pairs j
def outputCfg (c : LocalCfg) (n : Nat) : OutputCfg :=
  lget { offTest := true, offPeriod := 60, onTest := false, onPeriod := 60, openWireEn := true } c.outputs n
def counterCfg (c : LocalCfg) (n : Nat) : CounterCfg := lget { mode := .unused, countWord := 0 } c.counters n

/-- The field die runs, holds a configuration, has accepted TICK refreshes in two consecutive cycles, and no module stop
stands (R258, R262, R517). -/
def fieldReady (f : Field) : Bool := f.on && !f.stopped && f.config.isSome && decide (f.tickRun ≥ 2)

/-- CROSS_TIMEOUT in units of 10 µs: that of the configuration in force, or the default of 1 ms (R263, R288). -/
def crossTimeout : Option LocalCfg → Nat
  | some c => (c.crossTimeoutUs + 9) / 10
  | none => 100

/-! ### Valid channels (R262, R263, R264, R266, R267, R282) -/

/-- The channels of a group are valid: the die is ready, the crossing is not lost, no fault is latched, and the group is not
latched or has recovered. -/
def groupValid (f : Field) (second : Bool) : Bool :=
  fieldReady f && !f.lost && f.fault.isNone && (!(groupRec f second).latched || decide ((groupRec f second).st = .recovered))

/-- An input's record. -/
def inputRec (f : Field) (n : Nat) : InputRec := sget InputRec.reset f.inputs n

/-- TP_OK of a source (R266, R282). -/
def sourceOk (f : Field) (k : Nat) : Bool := groupValid f (decide (4 ≤ k)) && !(sget SourceRec.reset f.sources k).bad

/-- The source assigned to an input is healthy, or there is none (R266). -/
def inputSourceOk (f : Field) (n : Nat) : Bool :=
  match f.config with
  | none => true
  | some c => match (inputCfg c n).source with
    | some k => sourceOk f k.val
    | none => true

/-- Input channel n is valid. -/
def inputValid (f : Field) (n : Nat) : Bool :=
  groupValid f (decide (24 ≤ n)) && !(inputRec f n).tpBad && inputSourceOk f n

/-- Pair j is configured as dual (R268). -/
def pairDual (f : Field) (j : Nat) : Bool := match f.config with | some c => (pairCfg c j).dual | none => false

/-- A pair's record. -/
def pairRec (f : Field) (j : Nat) : PairRec := sget PairRec.reset f.pairs j

/-- State of pair j: INVALID while either channel is invalid (R268). -/
def pairNow (f : Field) (j : Nat) : PairSt :=
  if inputValid f (2 * j) && inputValid f (2 * j + 1) then (pairRec f j).st else .invalid

/-- Pair value: READY with both filtered channels at 1 (R268, R269). -/
def pairValue (f : Field) (j : Nat) : Bool :=
  decide (pairNow f j = .ready) && (inputRec f (2 * j)).filtered && (inputRec f (2 * j + 1)).filtered

/-- FLD_PAIR code (R291). -/
def pairCode : PairSt → Nat
  | .invalid => 0 | .arming => 1 | .ready => 2 | .fault => 3

/-- Counter c counts: its input is configured (R285). -/
def counterMode (f : Field) (c : Nat) : EdgeMode := match f.config with | some g => (counterCfg g c).mode | none => .unused

/-- Counter c is valid (R287): a group that has recovered is not latched off in the sense of R282, although its outputs await
the re-enable edge (DESIGN CHOICE, log entry 65). -/
def counterValid (f : Field) (c : Nat) : Bool := groupValid f (decide (2 ≤ c)) && decide (counterMode f c ≠ .unused)

/-! ### Switches (R15, R258, R259, R522) -/

/-- The output's record in the field die. -/
def fieldOut (f : Field) (n : Nat) : OutRec := sget OutRec.reset f.outputs n

/-- Change an output's record. -/
def modFieldOut (f : Field) (n : Nat) (g : OutRec → OutRec) : Field :=
  { f with outputs := smod OutRec.reset f.outputs n g }

/-- The field die's own enable of output n (R259, R262, R263, R275, R279, R281, R282). -/
def outEnabled (f : Field) (n : Nat) : Bool :=
  let o := fieldOut f n
  let g := groupRec f (decide (8 ≤ n))
  fieldReady f && !f.lost && f.fault.isNone && g.enabled && !g.latched &&
  !o.heldOff && !o.retired && !o.awaitZero && decide (o.test ≠ .off)

/-- At least two lanes have bit i of their words set (R15). -/
def poleOn (w : PerLane Word) (i : Nat) : Bool :=
  decide (bit (w.a.getLsbD i) + bit (w.b.getLsbD i) + bit (w.c.getLsbD i) ≥ 2)

/-- Both poles of output n are on in the words given: high side and low side (R15, R255). -/
def bothPoles (w : PerLane Word) (n : Nat) : Bool := poleOn w n && poleOn w (16 + n)

/-- The drives in force, by lane. -/
def drives (f : Field) : PerLane Word := f.streams.map (fun _ x => x.drive)

/-- Output n is commanded on by its drives. -/
def commandedOn (f : Field) (n : Nat) : Bool := bothPoles (drives f) n

/-- ENERGISED (R522): two switches of each pole read closed, Qn+ above VF - 3 V, Qn- below 3 V. -/
def energised (f : Field) (n : Nat) : Bool := bothPoles f.readback n && f.termHigh.getLsbD n && f.termLow.getLsbD n

/-- The switches follow drive and enable (R259). -/
def settleSwitches (f : Field) : Field :=
  { f with closed := f.streams.map (fun _ x => bitsFrom 32 (fun i => x.drive.getLsbD i && outEnabled f (i % 16))) }

/-! ### Tests that a change ends (R278) -/

/-- Output n after a voted change at a tick: a switch-off ends an OFF-test as passed, a switch-on ends an ON-test, which is due
again. -/
def votedChange (f : Field) (n : Nat) : Field :=
  match (fieldOut f n).test with
  | .none => f
  | .off => if commandedOn f n then f else modFieldOut f n (fun o => { o with test := .none, offPassed := true })
  | .on => if commandedOn f n then modFieldOut f n (fun o => { o with test := .none, testDue := true }) else f

/-- Output n after an opening drive, a group latch-off, a trip or a crossing loss: the result of its test is discarded. -/
def discardTest (f : Field) (n : Nat) : Field :=
  match (fieldOut f n).test with
  | .none => f
  | .off => modFieldOut f n (fun o => { o with test := .none })
  | .on => modFieldOut f n (fun o => { o with test := .none, testDue := true })

/-- A switch of output n that a drive had closed is open in the drives now. -/
def someOpened (before f : Field) (n : Nat) : Bool :=
  Lane.list.any (fun l => [n, 16 + n].any (fun i => ((drives before).get l).getLsbD i && !((drives f).get l).getLsbD i))

/-- Output n after new NOW drives: an opening drive ends a test without a result. An OFF-test ends where the drives no longer command
the output on; an ON-test, whose output is not commanded on, where any drive opens. -/
def openingChange (before f : Field) (n : Nat) : Field :=
  if commandedOn before n && !commandedOn f n || decide ((fieldOut f n).test = .on) && someOpened before f n then discardTest f n
  else f

/-- Fold over the 16 outputs. -/
def eachOut (g : Field → Nat → Field) (f : Field) : Field := (List.range 16).foldl g f

/-! ### Groups (R263, R282, R283) -/

/-- A group is latched off: enables removed, tests ended (R263, R282). -/
def latchGroup (second : Bool) (f : Field) : Field :=
  let f1 := modGroup f second (fun g => { g with
    latched := true, enabled := false, st := .latched, good := 0, recoveredAtTick := false })
  let f2 := eachOut (fun f n => if decide (8 ≤ n) = second then discardTest f n else f) f1
  settleSwitches f2

/-- Both groups are latched off, and every test ends. -/
def latchBoth (f : Field) : Field := latchGroup true (latchGroup false f)

/-! ### Field fault and crossing loss (R263, R264) -/

/-- FLD_STATUS.FAULT_CAUSE (R290). -/
def faultCauseCode : FieldFaultCause → Nat
  | .selfCheck => 1 | .configMismatch => 2 | .pairCheck => 3 | .lossBudget => 4

/-- A field fault is latched, as for crossing lost, and kept on lifetime page 5 (R263, R264, R419). -/
def latchFault (s : State) (c : FieldFaultCause) : State :=
  if s.field.fault.isSome then s
  else
    let s1 := modField s (fun f => latchBoth { f with fault := some c })
    let s2 := modPages s1 [5] (fun x => { x with fieldFault := some c })
    fieldEvent s2 66 0x0402 0 (faultCauseCode c) 0

/-- A stream is lost or carries LOCAL_LOST (R263). -/
def streamBad (x : StreamRec) : Bool := x.lost || x.localLost

/-- How many of the three streams are bad. -/
def badStreams (f : Field) : Nat :=
  bit (streamBad f.streams.a) + bit (streamBad f.streams.b) + bit (streamBad f.streams.c)

/-- The last accepted refreshes of the three streams lie within 20 µs of one another, and the next ones are awaited (R517). -/
def stopping (f : Field) : Bool :=
  let a := f.streams.a.silent
  let b := f.streams.b.silent
  let c := f.streams.c.silent
  decide (max a (max b c) ≤ min a (min b c) + 2) && decide (min a (min b c) ≥ 2)

/-- Every lane takes CUM without adding at the next sample that it holds (R287): one taken before the loss is still counted. -/
def retakeCounts (s : State) : State := modLanes s (fun _ L => { L with fld :=
  if L.fld.sample.isSome then { L.fld with retakeNext := true } else { L.fld with retake := true } })

/-- Crossing lost (R263, R264): two bad streams, with no module stop in the making (R517). The fourth loss within 24 h is a
field fault instead. -/
def crossingLoss (s : State) : State :=
  let f := s.field
  if decide (badStreams f ≥ 2) && f.on && f.up && !f.stopped && !f.lost && f.fault.isNone && !stopping f then
    let earlier := (inWindow s.mod.tickTime day24 s.cellar.life.crossingLosses).length
    let s1 := modPages s [5] (fun x => { x with crossingLosses := (s.mod.tickTime :: x.crossingLosses).take 4 })
    let s2 := retakeCounts (modField s1 (fun f => latchBoth { f with lost := true, goodFor := 0 }))
    if earlier ≥ 3 then latchFault s2 .lossBudget else fieldEvent s2 65 0x0401 0 0 0
  else s

/-! ### The tick sample (R251, R256, R522) -/

/-- VF below 19.2 V or above 30 V: the warning of R282. -/
def vfWarn (v : BitVec 16) : Bool := decide (v.toNat < 1920) || decide (v.toNat > 3000)

/-- A group's outputs are enabled (R251, R263, R283). -/
def groupEnabled (f : Field) (second : Bool) : Bool :=
  fieldReady f && !f.lost && f.fault.isNone && (groupRec f second).enabled && !(groupRec f second).latched

/-- OUTPUT_OK: not retired, not held off (R251, R262, R279). -/
def outputOk (f : Field) (n : Nat) : Bool := f.config.isSome && !(fieldOut f n).retired && !(fieldOut f n).heldOff

/-- The sample of a tick of the cycle given. -/
def takeTick (f : Field) (cycle : BitVec 16) : TickSample :=
  { cycle := cycle
    inValue := bitsFrom 48 (fun n => (inputRec f n).filtered)
    inValid := bitsFrom 48 (inputValid f)
    pairValue := bitsFrom 24 (pairValue f)
    pairState := BitVec.ofNat 48 ((List.range 24).foldl (fun n j => n + pairCode (pairNow f j) * 4 ^ j) 0)
    cntValid := bitsFrom 4 (counterValid f)
    cntStuck := bitsFrom 4 (fun c => (sget CountRec.reset f.counters c).stuck)
    cum := f.counters.foldl (fun m e => sput 0 m e.1 e.2.cum) []
    vfOn := bitsFrom 2 (fun i => !(groupRec f (decide (i = 1))).latched)
    vfGood := bitsFrom 2 (fun i => !(groupRec f (decide (i = 1))).warn)
    enabled := bitsFrom 2 (fun i => groupEnabled f (decide (i = 1)))
    outOk := bitsFrom 16 (outputOk f)
    energised := bitsFrom 16 (energised f)
    loadOk := bitsFrom 16 (fun n => (fieldOut f n).loadOk)
    tpOk := bitsFrom 8 (sourceOk f)
    fault := f.fault.isSome }

/-! ### Stop of the field die (R495, R517) -/

/-- A group after a stop: its enable is removed; a latch stays only under a field fault, whose reaction it is part of (R263, R517). A supply that is
still out of range latches the group again (R282). -/
def groupStopped (f : Field) (g : GroupRec) : GroupRec :=
  { g with
    enabled := false, latched := f.fault.isSome && g.latched, recoveredAtTick := false, vfOff := f.fault.isSome && g.vfOff
    st := if f.fault.isSome && g.latched then g.st else if g.warn then .warning else .normal }

/-- What a module stop and a stop of the field die have in common: no tick, no configuration, every enable removed, every input
invalid (R258, R262, R517, R522). -/
def unconfigure (f : Field) : Field :=
  let outs := eachOut (fun f n => modFieldOut (discardTest f n) n (fun o => { o with loadOk := false, toTry := none })) f
  { outs with
    placing := false, tickCycle := none, tickRun := 0, config := none, sample := none, before := none
    streams := outs.streams.map (fun _ x => { x with ref := none, lost := true, localLost := false, openUntilTick := false, drive := 0, next := 0, vctl := 0, words := [] })
    pairs := [], group1 := groupStopped f outs.group1, group2 := groupStopped f outs.group2
    closed := PerLane.all 0, up := false, lost := false, goodFor := 0 }

end Sys2Proof.Machine
end

