-- ==== Sys2Proof/Machine/Crossing.lean ====
section
/-!
DEFINITION. The crossing (R254 to R264, R517): refreshes in both directions, the field die's tick, losses and their recovery,
module stop, field fault and its clear, stop and start of the field die.
-/

namespace Sys2Proof.Machine

/-! ### A refresh starts (R254 to R256, R286) -/

/-- The Sluices send refreshes: ticks run. A Sluice sends all switches open for a lane that is in reset too (R174). -/
def sendsDown (s : State) : Bool := s.mod.ticking && decide (s.mod.st ≠ .off)

/-- The lane receives refreshes: ticks run and the lane's core is up. -/
def hearsUp (s : State) (l : Lane) : Bool := s.mod.ticking && runs s l

/-- The downstream refresh of a lane (R255): LOCAL_LOST opens all its switches (R263). -/
def downFrame (s : State) (l : Lane) : DownFrame :=
  let x := (lane s l).fld
  let y := s.sluices.get l
  let w := match laneVintage s l with | some v => lget 0 v.localIo.words x.cfgIndex.val | none => 0
  { refresh := x.downRefresh, cycle := cycle16 s, tick := decide (s.mod.refreshes = 0), swtest := y.testRunning
    localLost := x.lost, lane := BitVec.ofNat 8 (l.idx + 1), now := if x.lost then 0 else y.now, next := if x.lost then 0 else y.next, vctl := y.vctl
    cfgIndex := x.cfgIndex, cfgWord := w }

/-- FLD_OUT_STATE code of an output (R291). -/
def outStateCode (f : Field) (n : Nat) : Nat :=
  if (fieldOut f n).retired then 3 else if !outputOk f n then 2 else if energised f n then 1 else 0

/-- FLD_OUT_DIAG of an output (R292). -/
def outDiagWord (o : OutRec) : Word :=
  pack [(0, o.current.toNat), (10, min 3 o.trips), (12, outFaultCode o.fault), (16, o.partner.toNat),
    (20, bit o.offPassed), (21, bit o.onPassed)]

/-- CFG_CHECK: CRC-32C of the configuration in force, 0 while not configured (R256). -/
def cfgCheckOf : Option LocalCfg → Word
  | some c => configCheck c
  | none => 0

/-- Streams accepted within CROSS_TIMEOUT (R256, R290). -/
def streamsIn (f : Field) : BitVec 3 := laneBits (fun l => !(f.streams.get l).lost && (f.streams.get l).ref.isSome)

/-- The upstream refresh (R256): refresh 0 of a cycle carries the sample of the tick before. -/
def upFrame (f : Field) (first : Bool) (cycle : BitVec 16) : UpFrame :=
  let smp := match f.sample with
    | some x => if first && decide (x.cycle = cycle) then f.before else some x
    | none => none
  { refresh := f.refresh, sample := smp, configured := f.config.isSome, fault := f.fault, g1 := f.group1.st, g2 := f.group2.st
    enabled := bitsFrom 2 (fun i => groupEnabled f (decide (i = 1))), streams := streamsIn f, readback := f.readback
    outState := BitVec.ofNat 32 ((List.range 16).foldl (fun a n => a + outStateCode f n * 4 ^ n) 0)
    outDiag := (List.range 16).foldl (fun m n => sput 0 m n (outDiagWord (fieldOut f n))) []
    tpOk := bitsFrom 8 (sourceOk f), failing := countTo 48 (fun n => (inputRec f n).tpBad), vf1 := f.group1.vf
    vf2 := f.group2.vf, cfgCheck := cfgCheckOf f.config, downErr := f.downErr, temp := f.temp, lost := f.lost }

/-- The counter handshake (R286): DELTA moves to CUM; the sample of a tick takes the CUM that stands after that tick's
handshake. -/
def handshake (f : Field) (first : Bool) (cycle : BitVec 16) : Field :=
  let cs := f.counters.foldl (fun m e => sput CountRec.reset m e.1 { e.2 with cum := e.2.cum + e.2.delta, delta := 0 }) []
  let cums := cs.foldl (fun m e => sput 0 m e.1 e.2.cum) []
  { f with
    counters := cs
    sample := match f.sample with
      | some x => some (if first && decide (x.cycle = cycle) then { x with cum := cums } else x)
      | none => none }

/-- 10 µs pass in the field die: energised time since the last trip, silence of the streams, good time (R263, R279). -/
def passTime (f : Field) : Field :=
  let f1 := eachOut (fun f n => if energised f n then modFieldOut f n (fun o => { o with energisedNs := o.energisedNs + 10000 }) else f)
    { f with nowNs := f.nowNs + 10000 }
  { f1 with
    streams := f1.streams.map (fun _ x => { x with silent := x.silent + 1 })
    goodFor := if badStreams f1 ≥ 2 then 0 else f1.goodFor + 1 }

/-- What the field die measures (R256). -/
def takeReadings (m : FieldReadings) (f : Field) : Field :=
  eachOut (fun f n => modFieldOut f n (fun o => { o with current := lget 0 m.current n }))
    { f with readback := m.readback, termHigh := m.termHigh, termLow := m.termLow, temp := m.temp }

/-- CROSSING_REFRESH (R254, R286): a refresh starts on every stream, and the counter handshake runs. -/
def execCrossingRefresh (m : FieldReadings) (s : State) : Host.Outcome State Fault Refusal :=
  .next (
    let first := decide (s.mod.refreshes = 0)
    let f := s.field
    let f1 := if f.on then
        { passTime (handshake (takeReadings m f) first (cycle16 s)) with
          refresh := f.refresh + 1
          down := f.down.map (fun l x => if sendsDown s then some (downFrame s l) else x) }
      else f
    let up := upFrame f1 first (cycle16 s)
    let s1 := { s with field := f1, mod := { s.mod with refreshes := s.mod.refreshes + 1 } }
    let s2 := modLanes s1 (fun l L =>
      let L1 := if sendsDown s then
          { L with fld := { L.fld with downRefresh := L.fld.downRefresh + 1, cfgIndex := L.fld.cfgIndex + 1 } }
        else L
      if hearsUp s l then
        { L1 with fld := { L1.fld with
            inFlight := if f.on then some up else L1.fld.inFlight
            goodFor := if L1.fld.silent ≥ 1 then 0 else L1.fld.goodFor + 1
            silent := L1.fld.silent + 1 } }
      else L1)
    crossingLoss s2)

/-! ### The refreshes on the wire (R255, R256) -/

/-- The frame with its CHECK in the last two bytes (R255, R256). -/
def checked (body : List Byte) : List Byte := body ++ le 2 (crcOf crc16 body)

/-- The CHECK of a frame of n bytes verifies (R257). -/
def checkGood (n : Nat) (bs : List Byte) : Bool := decide (ofLe (bs.drop (n - 2)) = crcOf crc16 (bs.take (n - 2)))

/-- Bytes from offset a, n of them, least significant first. -/
def wire (bs : List Byte) (a n : Nat) : Nat := ofLe ((bs.drop a).take n)

/-- The bits of a mask flipped in a frame on its way. -/
def disturbed {w : Nat} (bs : List Byte) (err : BitVec w) : List Byte :=
  if err = 0 then bs else (List.range bs.length).map (fun i => lget 0 bs i ^^^ BitVec.ofNat 8 (err.toNat / 256 ^ i))

/-- The 64 bytes of a downstream refresh (R255). -/
def downBytes (d : DownFrame) : List Byte :=
  checked (le 2 d.refresh.toNat ++ (le 2 d.cycle.toNat ++ (le 1 (bit d.tick + 2 * bit d.swtest + 4 * bit d.localLost) ++
    (le 1 d.lane.toNat ++ (le 2 0 ++ (le 4 d.now.toNat ++ (le 4 d.next.toNat ++ (le 1 d.vctl.toNat ++ (le 1 d.cfgIndex.val ++
    (le 2 0 ++ (le 16 d.cfgWord.toNat ++ le 26 0)))))))))))

/-- The fields that 64 received bytes spell (R255). -/
def downOf (bs : List Byte) : DownFrame :=
  let mark := wire bs 4 1
  { refresh := BitVec.ofNat 16 (wire bs 0 2), cycle := BitVec.ofNat 16 (wire bs 2 2), tick := decide (mark % 2 = 1)
    swtest := decide (mark / 2 % 2 = 1), localLost := decide (mark / 4 % 2 = 1), lane := BitVec.ofNat 8 (wire bs 5 1)
    now := BitVec.ofNat 32 (wire bs 8 4), next := BitVec.ofNat 32 (wire bs 12 4), vctl := BitVec.ofNat 2 (wire bs 16 1)
    cfgIndex := Fin.ofNat 32 (wire bs 17 1), cfgWord := BitVec.ofNat 128 (wire bs 20 16) }

/-- What the field die receives of a refresh, if its CHECK verifies (R257). -/
def receiveDown (d : DownFrame) (err : BitVec 512) : Option DownFrame :=
  let bs := disturbed (downBytes d) err
  if checkGood 64 bs then some (downOf bs) else none

/-- VF_STATE (R256, R290). -/
def vfStCode : VfSt → Nat
  | .normal => 0 | .warning => 1 | .latched => 2 | .recovered => 3

/-- A supply state by its code. -/
def vfStOf (n : Nat) : VfSt := if n = 0 then .normal else if n = 1 then .warning else if n = 2 then .latched else .recovered

/-- The sample whose fields a refresh carries; a refresh without one carries zeros (R256). -/
def noSample : TickSample :=
  { cycle := 0, inValue := 0, inValid := 0, pairValue := 0, pairState := 0, cntValid := 0, cntStuck := 0, cum := [], vfOn := 0
    vfGood := 0, enabled := 0, outOk := 0, energised := 0, loadOk := 0, tpOk := 0, fault := false }

/-- The byte of OUT_DIAG of output n: state, fault code and the two test results (R256), in this order from bit 0 (DESIGN CHOICE, log entry
66). -/
def outDiagByte (u : UpFrame) (n : Nat) : Nat :=
  let w := sget 0 u.outDiag n
  field u.outState (2 * n + 1) (2 * n) + 4 * field w 15 12 + 64 * field w 21 20

/-- The three bytes of OUT_CURRENT of output n: current, retries, partner (R256). -/
def outCurrent (u : UpFrame) (n : Nat) : Nat :=
  let w := sget 0 u.outDiag n
  field w 11 0 + 4096 * field w 19 16

/-- The 128 bytes of an upstream refresh (R256). -/
def upBytes (u : UpFrame) : List Byte :=
  let t := u.sample.getD noSample
  checked (le 2 u.refresh.toNat ++ le 2 t.cycle.toNat ++
    le 4 (bit u.configured + 2 * vfStCode u.g1 + 8 * vfStCode u.g2 + 32 * u.streams.toNat + 256 * bit u.fault.isSome) ++
    le 6 t.inValue.toNat ++ le 6 t.inValid.toNat ++ le 6 t.pairState.toNat ++ le 3 t.pairValue.toNat ++
    le 1 (t.cntValid.toNat + 16 * t.cntStuck.toNat) ++ (List.range 4).flatMap (fun c => le 2 (sget 0 t.cum c).toNat) ++
    le 4 u.readback.a.toNat ++ le 4 u.readback.b.toNat ++ le 4 u.readback.c.toNat ++
    (List.range 16).flatMap (fun n => le 1 (outDiagByte u n)) ++ le 2 u.tpOk.toNat ++ le 2 u.vf1.toNat ++ le 2 u.vf2.toNat ++
    le 2 (u.temp.toNat % 65536) ++ le 4 u.cfgCheck.toNat ++ (List.range 16).flatMap (fun n => le 3 (outCurrent u n)))

/-- A refresh as received with disturbed bytes whose CHECK verifies all the same: the fields of R256 from the bytes, the others as
sent. -/
def upOf (u : UpFrame) (bs : List Byte) : UpFrame :=
  let st := wire bs 4 4
  let cnt := wire bs 29 1
  let t := u.sample.getD noSample
  { u with
    refresh := BitVec.ofNat 16 (wire bs 0 2), configured := decide (st % 2 = 1), g1 := vfStOf (st / 2 % 4), g2 := vfStOf (st / 8 % 4)
    streams := BitVec.ofNat 3 (st / 32), fault := if st / 256 % 2 = 1 then u.fault else none
    sample := some { t with
      cycle := BitVec.ofNat 16 (wire bs 2 2), inValue := BitVec.ofNat 48 (wire bs 8 6), inValid := BitVec.ofNat 48 (wire bs 14 6)
      pairState := BitVec.ofNat 48 (wire bs 20 6), pairValue := BitVec.ofNat 24 (wire bs 26 3), cntValid := BitVec.ofNat 4 cnt
      cntStuck := BitVec.ofNat 4 (cnt / 16), tpOk := BitVec.ofNat 8 (wire bs 66 1)
      cum := (List.range 4).foldl (fun m c => sput 0 m c (BitVec.ofNat 16 (wire bs (30 + 2 * c) 2))) [] }
    readback := ⟨BitVec.ofNat 32 (wire bs 38 4), BitVec.ofNat 32 (wire bs 42 4), BitVec.ofNat 32 (wire bs 46 4)⟩
    outState := BitVec.ofNat 32 ((List.range 16).foldl (fun a n => a + wire bs (50 + n) 1 % 4 * 4 ^ n) 0)
    outDiag := (List.range 16).foldl (fun m n => sput 0 m n
      (pack [(0, wire bs (78 + 3 * n) 3 % 4096), (12, wire bs (50 + n) 1 / 4 % 16), (16, wire bs (78 + 3 * n) 3 / 4096 % 16),
        (20, wire bs (50 + n) 1 / 64)])) []
    tpOk := BitVec.ofNat 8 (wire bs 66 1), vf1 := BitVec.ofNat 16 (wire bs 68 2), vf2 := BitVec.ofNat 16 (wire bs 70 2)
    temp := BitVec.ofNat 20 (wire bs 72 2 + u.temp.toNat / 65536 * 65536), cfgCheck := BitVec.ofNat 32 (wire bs 74 4) }

/-- What a lane receives of a refresh, if its CHECK verifies (R257). -/
def receiveUp (u : UpFrame) (err : BitVec 1024) : Option UpFrame :=
  let bs := disturbed (upBytes u) err
  if checkGood 128 bs then some (if err = 0 then u else upOf u bs) else none

/-! ### Downstream (R257 to R262) -/

/-- A refresh number exceeds the reference by 1 to 2,048, or there is no reference (R257). -/
def refreshOk (ref : Option (BitVec 16)) (n : BitVec 16) : Bool :=
  match ref with
  | none => true
  | some r => decide (1 ≤ (n - r).toNat) && decide ((n - r).toNat ≤ 2048)

/-- 32 configuration words whose last 4 bytes are the CRC-32C of the others (R262). -/
def cfgWordsOk (ws : List (BitVec 128)) : Bool :=
  let bytes := ws.flatMap (fun w => le 16 w.toNat)
  decide (ws.length = 32) && decide (ofLe (bytes.drop 508) = crcOf crc32c (bytes.take 508))

/-- The words that two streams have delivered identically, all 32 of them (R262). -/
def agreedWords (f : Field) : Option (List (BitVec 128)) :=
  let a := f.streams.a.words
  let b := f.streams.b.words
  let c := f.streams.c.words
  if a.length = 32 ∧ (a = b ∨ a = c) then some (a.map Prod.snd)
  else if b.length = 32 ∧ b = c then some (b.map Prod.snd)
  else none

/-- The configuration that the words spell: that of a lane's vintage whose words they are. -/
def configOf (s : State) (ws : List (BitVec 128)) : Option LocalCfg :=
  Lane.list.findSome? (fun l => match laneVintage s l with
    | some v => if v.localIo.words = ws then some v.localIo else none
    | none => none)

/-- The field die applies a configuration (R262), with the retired channels that the lanes send (R281). -/
def applyConfig (s : State) : State :=
  match agreedWords s.field with
  | none => s
  | some ws =>
    if cfgWordsOk ws then
      match configOf s ws with
      | none => s
      | some c =>
        if s.field.config = some c then s
        else
          let f1 := { s.field with config := some c, pairs := [] }
          let f2 := (skeys s.cellar.life.retiredOuts).foldl (fun f n => modFieldOut f n (fun o => { o with retired := true })) f1
          { s with field := settleSwitches f2 }
    else s

/-- The streams return after a start or a module stop (R517). -/
def streamsReturn (f : Field) : Field :=
  if f.up then f
  else { f with up := true, stopped := false
                streams := f.streams.map (fun _ x => { x with lost := false, silent := 0, openUntilTick := true }) }

/-- TICK refreshes in consecutive cycles (R258). -/
def countTick (f : Field) (d : DownFrame) : Field :=
  if !d.tick then f
  else match f.tickCycle with
    | none => { f with tickCycle := some d.cycle, tickRun := 1 }
    | some c =>
      if d.cycle = c then f
      else if d.cycle = c + 1 then { f with tickCycle := some d.cycle, tickRun := min 2 (f.tickRun + 1) }
      else { f with tickCycle := some d.cycle, tickRun := if f.tickRun ≥ 2 then 2 else 1 }

/-- A downstream refresh is accepted (R255, R257 to R259). -/
def acceptDown (f : Field) (l : Lane) (d : DownFrame) : Field :=
  let f1 := streamsReturn f
  let f2 := modStream f1 l (fun x =>
    let hold := x.openUntilTick || x.lost
    { x with ref := some d.refresh, silent := 0, lost := false, openUntilTick := hold, localLost := d.localLost
             swtest := d.swtest, drive := if hold then 0 else d.now, next := d.next, vctl := d.vctl
             words := sputAny x.words d.cfgIndex.val d.cfgWord })
  let f3 := { countTick f2 d with lastCycle := d.cycle }
  let f4 := { f3 with placing := fieldReady f3 }
  settleSwitches (eachOut (openingChange f1) f4)

/-- The time since tick 0 in units of 10 µs (R254, R277). -/
def sinceTick0 (s : State) : Nat := s.mod.cycle.toNat * (periodNs s / 10000) + (s.mod.refreshes - 1)

/-- The test window that this instant lies in: 500 µs (R277). -/
def windowNow (s : State) : Nat := sinceTick0 s / 50

/-- A received refresh is accepted by the stream's reference, and its stamp by the placed tick (R257, R258). -/
def downOk (f : Field) (l : Lane) (d : DownFrame) (stampNs : Int) : Bool :=
  refreshOk (f.streams.get l).ref d.refresh &&
  !(d.tick && fieldReady f && (decide (stampNs > 1000) || decide (stampNs < -1000)))

/-- DOWNSTREAM_REFRESH (R257, R258): a TICK refresh more than 1 µs from the placed tick is discarded too. err is the mask of the bits
that the crossing flips. A window that SWTEST overlaps holds no output test (R277). -/
def execDownstreamRefresh (l : Lane) (err : BitVec 512) (stampNs : Int) (s : State) : Host.Outcome State Fault Refusal :=
  .next (
    match s.field.down.get l with
    | none => s
    | some d0 =>
      let f := { s.field with down := s.field.down.set l none }
      let lost := { s with field := { f with downErr := satInc f.downErr } }
      if !f.on then { s with field := f }
      else match receiveDown d0 err with
        | none => lost
        | some d =>
          if downOk f l d stampNs then
            let f1 := if d.swtest then { f with usedWindow := some (windowNow s) } else f
            crossingLoss (applyConfig { s with field := acceptDown f1 l d })
          else lost)

/-- Votes the VCTL bits of the streams that are not lost: two of them carry 1 (R283). -/
def votedVctl (f : Field) (i : Nat) : Bool :=
  let v := fun (x : StreamRec) => bit (!x.lost && x.vctl.getLsbD i)
  decide (v f.streams.a + v f.streams.b + v f.streams.c ≥ 2)

/-- A group at a tick (R283, R517): the re-enable edge after recovery. A group that is not latched and not enabled, as after a
configuration is applied, is enabled once its supply is normal (DESIGN CHOICE for a supply that is in warning then, log entry 67). -/
def groupTick (f : Field) (second : Bool) : Field :=
  let v := votedVctl f (bit second)
  modGroup f second (fun g =>
    let edge := g.latched && g.recoveredAtTick && v && !g.vctl && !f.lost && f.fault.isNone
    let latched := g.latched && !edge
    { g with
      latched := latched
      enabled := !latched && (edge || g.enabled || !g.warn)
      st := if edge then (if g.warn then .warning else .normal) else g.st
      recoveredAtTick := latched && decide (g.st = .recovered)
      vctl := v })

/-- FIELD_TICK (R258, R259, R278, R281, R283): the sample is taken, then NEXT is applied. -/
def execFieldTick (s : State) : Host.Outcome State Fault Refusal :=
  .next (
    let f := s.field
    if fieldReady f && f.placing then
      let f1 := { f with before := f.sample, sample := some (takeTick f (f.lastCycle + 1)), placing := false
                         streams := f.streams.map (fun _ x => { x with
                           drive := if x.lost then 0 else x.next, openUntilTick := x.lost && x.openUntilTick }) }
      let f2 := groupTick (groupTick f1 false) true
      let f3 := eachOut (fun f n => if commandedOn f n then f else
        modFieldOut f n (fun o => if o.zeroVoted then { o with awaitZero := false, zeroVoted := false } else o)) f2
      { s with field := settleSwitches (eachOut votedChange f3) }
    else s)

/-! ### Upstream (R257, R260, R263) -/

/-- The refresh that has just arrived carries the tick sample by END_INPUT - 10 µs: r is at least 1 and it ends in time (R260). -/
def qualifies (s : State) (l : Lane) : Bool :=
  let r := s.mod.refreshes - 1
  match laneVintage s l with
  | some v => decide (s.mod.phase = .input) && decide (r ≥ 1) && decide (r * 100 + 164 ≤ v.endInput * 10)
  | none => false

/-- Switches that read open against a closing drive, where the field die's enable does not hold them (R183). -/
def openAgainst (s : State) (read : PerLane Word) : PerLane Word :=
  s.sluices.map (fun l x => bitsFrom 32 (fun i =>
    x.now.getLsbD i && !(read.get l).getLsbD i && (s.field.closed.get l).getLsbD i))

/-- SWITCH_STUCK_OPEN (R183): a switch open in two refreshes in a row raises the event; a second one in the same pole retires
the channel. -/
def stuckOpenCheck (s : State) (l : Lane) (read : PerLane Word) : State :=
  let x := (lane s l).fld
  let now := openAgainst s read
  let both := x.openSeen.map (fun k w => (w &&& now.get k) ||| (x.openRun.get k &&& now.get k))
  let fresh := both.map (fun k w => w &&& ~~~ x.openSeen.get k)
  let s1 := modLane s l (fun L => { L with fld := { L.fld with openRun := now, openSeen := both } })
  if l = refLane s then
    let s2 := foldS Lane.list (fun s k => foldS (bitsOf (fresh.get k)) (fun s i => stuckOpen s (i % 16)) s) s1
    foldS (List.range 32) (fun s i =>
      if poleOn both i then retireOut s (i % 16) .switchStuckOpen 0 else s) s2
  else s1

/-- The keeper counts a switch-on for each rising edge of ENERGISED in the tick samples (R273). -/
def countSwitchOns (s : State) (l : Lane) (t : TickSample) : State :=
  let rising := t.energised &&& ~~~ (lane s l).fld.energised
  if s.cellar.keeper = some l then
    foldS (bitsOf rising) (fun s n => modLife s (fun f => { f with switchOns := smod 0 f.switchOns n satInc })) s
  else s

/-- The warning of a group as a lane sees it in a refresh: its level source, and VF_WARN's record, of Module scope, which each lane makes as
it sees the event (R282, R364, R403, R404). -/
def warnLevel (s : State) (l : Lane) (k : Nat) (old new : BitVec 16) : State :=
  let s1 := eicLevel s l (67 + k) (vfWarn new)
  if vfWarn new && !vfWarn old then recordOne s1 l 0x0403 true (le 1 (k + 1) ++ le 1 0 ++ le 2 new.toNat) else s1

/-- A tick sample reaches a lane (R260, R273). -/
def takeSample (s : State) (l : Lane) (u : UpFrame) : State :=
  match u.sample with
  | none => s
  | some t =>
    if qualifies s l && decide (t.cycle = cycle16 s) && decide ((lane s l).fld.sample = none) then
      modLane (countSwitchOns s l t) l (fun L => { L with fld := { L.fld with sample := some t, energised := t.energised } })
    else s

/-- VF as the lane saw it last: in range before the first refresh. -/
def lastVf (x : LaneFld) (second : Bool) : BitVec 16 :=
  match x.last with
  | some u => if second then u.vf2 else u.vf1
  | none => 2400

/-- An upstream refresh is accepted (R257, R260, R289). -/
def acceptUp (s : State) (l : Lane) (u : UpFrame) : State :=
  let x := (lane s l).fld
  let s1 := modLane s l (fun L => { L with fld := { L.fld with
    ref := some u.refresh, silent := 0, last := some u, retake := L.fld.retake || u.lost } })
  let s2 := warnLevel (warnLevel s1 l 0 (lastVf x false) u.vf1) l 1 (lastVf x true) u.vf2
  stuckOpenCheck (takeSample s2 l u) l u.readback

/-- UPSTREAM_REFRESH (R257): err is the mask of the bits that the crossing flips. -/
def execUpstreamRefresh (l : Lane) (err : BitVec 1024) (s : State) : Host.Outcome State Fault Refusal :=
  .next (
    match (lane s l).fld.inFlight with
    | none => s
    | some u0 =>
      let s1 := modLane s l (fun L => { L with fld := { L.fld with inFlight := none } })
      let lost := modLane s1 l (fun L => { L with fld := { L.fld with upErr := satInc L.fld.upErr } })
      if !runs s l then s1
      else match receiveUp u0 err with
        | none => lost
        | some u => if refreshOk (lane s l).fld.ref u.refresh then acceptUp s1 l u else lost)

/-! ### Losses and recoveries (R263, R517) -/

/-- FIELD_STREAM_LOST (R263): the stream is all-open; its reference goes. -/
def execFieldStreamLost (l : Lane) (s : State) : Host.Outcome State Fault Refusal :=
  .next (
    let f := s.field
    let x := f.streams.get l
    if f.on && f.up && !f.stopped && !x.lost && decide (x.silent ≥ crossTimeout f.config) then
      let f1 := modStream f l (fun x => { x with ref := none, lost := true, drive := 0 })
      let f2 := settleSwitches (eachOut (openingChange f) f1)
      crossingLoss (fieldEvent { s with field := f2 } 64 0x0400 l.num 0 0)
    else s)

/-- The lane's vintage sets CROSS_TIMEOUT (R263). -/
def laneTimeout (s : State) (l : Lane) : Nat := crossTimeout ((laneVintage s l).map (fun v => v.localIo))

/-- LOCAL_LOST (R263): the lane reads the block as invalid and its Sluice opens its lane's switches. -/
def execLocalLost (l : Lane) (s : State) : Host.Outcome State Fault Refusal :=
  .next (
    if s.mod.ticking && runs s l && !(lane s l).fld.lost && decide ((lane s l).fld.silent ≥ laneTimeout s l) then
      modLane s l (fun L => { L with fld := { L.fld with lost := true, goodFor := 0, ref := none, sample := none } })
    else s)

/-- LOCAL_RECOVERED (R263): upstream refreshes have been valid for 100 ms. -/
def execLocalRecovered (l : Lane) (s : State) : Host.Outcome State Fault Refusal :=
  .next (
    if runs s l && (lane s l).fld.lost && decide ((lane s l).fld.goodFor ≥ 10000) then
      modLane s l (fun L => { L with fld := { L.fld with lost := false } })
    else s)

/-- A latched group whose supply has been in range for 100 ms has recovered (R282). -/
def recoverGroup (second : Bool) (f : Field) : Field :=
  modGroup f second (fun g =>
    if g.latched && decide (g.st = .latched) && decide (g.good ≥ 10000) then { g with st := .recovered } else g)

/-- CROSSING_RECOVERED (R263): the crossing has been good for 100 ms; the groups await a re-enable edge. -/
def execCrossingRecovered (s : State) : Host.Outcome State Fault Refusal :=
  .next (
    if s.field.lost && decide (s.field.goodFor ≥ 10000) then
      modField s (fun f => recoverGroup true (recoverGroup false { f with lost := false }))
    else s)

/-- The three downstream streams have stopped together for CROSS_TIMEOUT (R517). -/
def streamsStopped (f : Field) : Bool :=
  let t := crossTimeout f.config
  stopping f && decide (f.streams.a.silent ≥ t) && decide (f.streams.b.silent ≥ t) && decide (f.streams.c.silent ≥ t)

/-- MODULE_STOP (R517). -/
def execModuleStop (s : State) : Host.Outcome State Fault Refusal :=
  .next (
    if s.field.on && s.field.up && !s.field.stopped && streamsStopped s.field then
      modField s (fun f => { unconfigure f with stopped := true, downErr := 0 })
    else s)

/-! ### Field fault, stop and start of the field die (R264, R495) -/

/-- CFG_CHECK has differed for 2 rotations (640 µs) in some lane since the first cycle whose comparison found it so (R262). -/
def configMismatch (s : State) : Bool := Lane.list.any (fun l => decide (((lane s l).fld.cfgDiff - 1) * periodNs s ≥ 640000))

/-- A sample breaks the pair check (R271): a pair value of 1 needs both channels at 1 and state READY. -/
def pairBroken (c : LocalCfg) (t : TickSample) : Bool :=
  (List.range 24).any (fun j => (pairCfg c j).dual && t.pairValue.getLsbD j &&
    !(t.inValue.getLsbD (2 * j) && t.inValue.getLsbD (2 * j + 1) && decide (field t.pairState (2 * j + 1) (2 * j) = 2)))

/-- Some lane holds a sample that breaks the pair check. -/
def pairsBroken (s : State) : Bool :=
  Lane.list.any (fun l => match laneVintage s l, (lane s l).fld.sample with
    | some v, some t => pairBroken v.localIo t
    | _, _ => false)

/-- FIELD_FAULT (R262, R264, R271): the self-check's finding is the field die's; the other causes stand in the state. -/
def execFieldFault (cause : FieldFaultCause) (s : State) : Host.Outcome State Fault Refusal :=
  .next (
    match cause with
    | .selfCheck => if s.field.on then latchFault s .selfCheck else s
    | .configMismatch => if configMismatch s then latchFault s .configMismatch else s
    | .pairCheck => if pairsBroken s then latchFault s .pairCheck else s
    | .lossBudget =>
      if s.field.lost && decide ((inWindow s.mod.tickTime day24 s.cellar.life.crossingLosses).length ≥ 4) then
        latchFault s .lossBudget
      else s)

/-- FIELD_FAULT_CLEAR (R264). -/
def execFieldFaultClear (auth : Auth) (s : State) : Host.Outcome State Fault Refusal :=
  .next (harnal s auth 4 0 (fun s =>
    modPages (modField s (fun f => { f with fault := none })) [5] (fun x => { x with fieldFault := none })))

/-- What an output keeps over a stop of the die: its retirement and its fault code (R281, R292). -/
def loseTrips (f : Field) (n : Nat) : Field :=
  modFieldOut f n (fun o => { OutRec.reset with
    retired := o.retired, awaitZero := o.awaitZero, zeroVoted := o.zeroVoted, fault := o.fault, partner := o.partner })

/-- No upstream refresh is under way. -/
def dropInFlight (s : State) : State := modLanes s (fun _ L => { L with fld := { L.fld with inFlight := none } })

/-- FIELD_DIE_STOP (R495): every switch opens, and what the die measured is gone; the lanes see a crossing loss, after which they
take CUM without adding (R287). -/
def execFieldDieStop (s : State) : Host.Outcome State Fault Refusal :=
  .next (
    if s.field.on then
      modField (dropInFlight (retakeCounts s)) (fun f => { eachOut loseTrips (unconfigure f) with
        on := false, stopped := false, down := PerLane.all none, inputs := [], sources := [], counters := []
        readback := PerLane.all 0, termHigh := 0, termLow := 0
        group1 := GroupRec.reset, group2 := GroupRec.reset })
    else s)

/-- FIELD_DIE_START (R495): the die sends upstream refreshes and awaits a configuration. -/
def execFieldDieStart (s : State) : Host.Outcome State Fault Refusal :=
  .next (if s.field.on then s else modField s (fun f => { f with on := true }))

end Sys2Proof.Machine
end

