-- ==== Sys2Proof/Machine/FieldInputs.lean ====
section
/-!
DEFINITION. Local inputs, pairs, test-pulse sources, counters (R265 to R271, R285 to R287) and what the lanes do with the tick
sample at END_INPUT (R251, R260, R262, R271, R287).
-/

namespace Sys2Proof.Machine

/-! ### Filters and pulse checks (R265 to R267) -/

/-- One sample of an input against its filter: the filtered value takes a raw value read at F / 50 µs + 1 consecutive samples
(R265). -/
def filterStep (need : Nat) (raw : Bool) (x : InputRec) : InputRec :=
  if raw = x.filtered then { x with run := 0 }
  else if x.run + 1 ≥ need then { x with run := 0, filtered := raw }
  else { x with run := x.run + 1 }

/-- The third sample of a pulse (R267): two reads of 1 in a row make the channel invalid, three passes in a row valid again. -/
def pulseCheck (raw : Bool) (x : InputRec) : InputRec :=
  if raw then { x with fails := min 2 (x.fails + 1), passes := 0, tpBad := x.tpBad || decide (x.fails + 1 ≥ 2) }
  else
    { x with fails := 0, passes := min 3 (x.passes + 1), tpBad := x.tpBad && decide (x.passes + 1 < 3) }

/-- The input stands at the third low sample of its source's pulse (R267). -/
def pulseThird (f : Field) (c : LocalCfg) (n : Nat) : Bool :=
  match (inputCfg c n).source with
  | some k => decide ((sget SourceRec.reset f.sources k.val).low = 2)
  | none => false

/-- One input at one sample; a channel newly invalid raises INPUT_TP_FAIL (R265, R267). -/
def sampleInput (c : LocalCfg) (raw : BitVec 48) (s : State) (n : Nat) : State :=
  let f := s.field
  let x := inputRec f n
  let b := raw.getLsbD n
  let y := filterStep ((inputCfg c n).filter + 1) b x
  let z := if pulseThird f c n then pulseCheck b y else y
  let s1 := { s with field := { f with inputs := sput InputRec.reset f.inputs n z } }
  if z.tpBad && !x.tpBad then fieldEvent s1 72 0x0406 n 0 0 else s1

/-! ### Pairs (R268 to R270) -/

/-- N of a pair: its discrepancy time in samples of 50 µs, rounded up (R269). -/
def pairN (c : PairCfg) : Nat := (c.disc10us + 4) / 5

/-- A dual pair at one sample (R268 to R270); FAULT is entered by PAIR_FAULT at the sample that completes the run. -/
def pairStep (c : PairCfg) (valid a b : Bool) (x : PairRec) : PairRec :=
  if !valid then PairRec.reset
  else
    let y := match x.st with
      | .invalid => { x with st := if c.startTest then .arming else .ready, run := 0, zeroSeen := false }
      | _ => x
    let run := if a = b then 0 else min (pairN c) (y.run + 1)
    let zero := if run ≥ pairN c then false else y.zeroSeen || (!a && !b)
    match y.st with
    | .invalid => { y with run := run, zeroSeen := zero }
    | .ready => { y with run := run, zeroSeen := zero }
    | .arming => { y with st := if a && b && zero then .ready else .arming, run := run, zeroSeen := zero }
    | .fault => { y with st := if a && b && zero then .ready else .fault, run := run, zeroSeen := zero }

/-- One pair at one sample: pairs not configured as dual stay INVALID (R268). -/
def samplePair (c : LocalCfg) (f : Field) (j : Nat) : Field :=
  if (pairCfg c j).dual then
    { f with pairs := smod PairRec.reset f.pairs j (pairStep (pairCfg c j) (inputValid f (2 * j) && inputValid f (2 * j + 1))
        (inputRec f (2 * j)).filtered (inputRec f (2 * j + 1)).filtered) }
  else f

/-- The pulses under way take one more sample (R266). -/
def pulseStep (f : Field) : Field :=
  { f with sources := f.sources.foldl (fun m e => sput SourceRec.reset m e.1 { e.2 with low := e.2.low - 1 }) [] }

/-- INPUT_SAMPLE (R265 to R270): every input, then every pair. -/
def execInputSample (raw : BitVec 48) (s : State) : Host.Outcome State Fault Refusal :=
  .next (
    match s.field.config with
    | none => s
    | some c =>
      if fieldReady s.field then
        let s1 := foldS (List.range 48) (sampleInput c raw) s
        modField s1 (fun f => (List.range 24).foldl (samplePair c) (pulseStep f))
      else s)

/-- PAIR_FAULT (R269): the run of a dual pair has reached N. -/
def execPairFault (pair : Fin 24) (s : State) : Host.Outcome State Fault Refusal :=
  .next (
    match s.field.config with
    | none => s
    | some c =>
      let x := pairRec s.field pair.val
      if (pairCfg c pair.val).dual && decide (x.st ≠ .invalid) && decide (x.st ≠ .fault) && decide (x.run ≥ pairN (pairCfg c pair.val)) then
        let s1 := modField s (fun f => { f with
          pairs := sput PairRec.reset f.pairs pair.val { x with st := .fault, zeroSeen := false } })
        fieldEvent s1 71 0x0405 pair.val 0 0
      else s)

/-! ### Test-pulse sources (R266) -/

/-- Global time of the last sample instant, in ns: samples stand every 50 µs from the tick (R265). -/
def sampleTime (s : State) : Nat := s.mod.tickTime.toNat + (s.mod.refreshes - 1) / 5 * 50000

/-- The pulse of source k starts at this sample: the first at or after a global time that lies k × 2 ms after a multiple of TP_PERIOD
(R266). -/
def pulseDue (s : State) (c : LocalCfg) (k : Nat) : Bool :=
  let p := c.tpPeriodMs * 1000000
  decide ((s.mod.refreshes - 1) % 5 = 0) && decide ((sampleTime s + (p - k * 2000000 % p)) % p < 50000)

/-- No test-pulse source is low (R266). -/
def noneLow (f : Field) : Bool := f.sources.all (fun e => decide (e.2.low = 0))

/-- TEST_PULSE (R266): at its due sample the source goes low for 4 samples, never together with another; a level out of place in the pulse or
outside it makes it bad. -/
def execTestPulse (source : Fin 8) (lowBelow5 highAbove : Bool) (s : State) : Host.Outcome State Fault Refusal :=
  .next (
    match s.field.config with
    | none => s
    | some c =>
      if fieldReady s.field && pulseDue s c source.val && noneLow s.field then
        modField s (fun f => { f with
          sources := smod SourceRec.reset f.sources source.val (fun x => { x with low := 4, bad := x.bad || !(lowBelow5 && highAbove) }) })
      else s)

/-- TP_RECOVERED (R266): the source has been healthy for 100 ms. TP_OK itself returns with its inputs (DESIGN CHOICE, log entry 63). -/
def execTpRecovered (source : Fin 8) (s : State) : Host.Outcome State Fault Refusal :=
  .next (
    if s.field.on then
      modField s (fun f => { f with
        sources := smod SourceRec.reset f.sources source.val (fun x => { x with bad := false }) })
    else s)

/-! ### Counters (R285, R287) -/

/-- An edge of this direction is counted in a mode (R285). -/
def edgeCounts (m : EdgeMode) (rising : Bool) : Bool :=
  match m with
  | .unused => false | .rising => rising | .falling => !rising | .both => true

/-- DELTA counts one edge; it stops at 65,535 and sets STUCK (R285). -/
def countEdge (x : CountRec) : CountRec :=
  if x.delta.toNat + 1 ≥ 65535 then { x with delta := 65535, stuck := true } else { x with delta := x.delta + 1 }

/-- COUNTER_EDGE (R285). -/
def execCounterEdge (c : Fin 4) (rising : Bool) (s : State) : Host.Outcome State Fault Refusal :=
  .next (
    if s.field.on && edgeCounts (counterMode s.field c.val) rising then
      modField s (fun f => { f with counters := smod CountRec.reset f.counters c.val countEdge })
    else s)

/-! ### The lanes at END_INPUT (R251, R260, R262, R271, R287) -/

/-- The sample that a lane reads: none while it has LOCAL_LOST (R260, R263). -/
def laneSample (x : LaneFld) : Option TickSample := if x.lost then none else x.sample

/-- EXACT of the counters as LV points 96 to 99 (R251). -/
def exactBits (x : LaneFld) : BitVec 4 := x.exact

/-- LF of local point i in a sample (R251, R522). Block valid takes the fault as it stood when the sample was taken (DESIGN CHOICE, log
entry 64). -/
def localValid (c : LocalCfg) (t : TickSample) (i : Nat) : Bool :=
  let block := !t.fault
  let pair := fun j => (pairCfg c j).dual && decide (field t.pairState (2 * j + 1) (2 * j) ≠ 0)
  if i < 48 then t.inValid.getLsbD i
  else if i < 72 then pair (i - 48)
  else if i < 96 then pair (i - 72)
  else if i < 100 then t.cntValid.getLsbD (i - 96)
  else if i < 106 then block
  else if i < 112 then false
  else if i < 168 then block
  else false

/-- The value behind local point i in a sample (R251, R522). -/
def localValue (x : LaneFld) (t : TickSample) (i : Nat) : Bool :=
  if i < 48 then t.inValue.getLsbD i
  else if i < 72 then t.pairValue.getLsbD (i - 48)
  else if i < 96 then decide (field t.pairState (2 * (i - 72) + 1) (2 * (i - 72)) = 2)
  else if i < 100 then (exactBits x).getLsbD (i - 96)
  else if i < 102 then t.vfOn.getLsbD (i - 100)
  else if i < 104 then t.vfGood.getLsbD (i - 102)
  else if i < 106 then t.enabled.getLsbD (i - 104)
  else if i < 112 then false
  else if i < 128 then t.outOk.getLsbD (i - 112)
  else if i < 144 then t.energised.getLsbD (i - 128)
  else if i < 152 then t.tpOk.getLsbD (i - 144)
  else if i < 168 then t.loadOk.getLsbD (i - 152)
  else false

/-- LF bits 0 to 255 of a lane. -/
def localLf (c : LocalCfg) (x : LaneFld) : BitSpace :=
  match laneSample x with
  | some t => (List.range 168).filter (localValid c t)
  | none => []

/-- LV bits 0 to 255 of a lane: 0 where LF is 0 (R251). -/
def localLv (c : LocalCfg) (x : LaneFld) : BitSpace :=
  match laneSample x with
  | some t => (List.range 168).filter (fun i => localValid c t i && localValue x t i)
  | none => []

/-- A counter total grows by a difference, and saturates; the flag falls when it reaches its largest value (R287). -/
def growTotal (total : Word) (d : Nat) : Word × Bool :=
  if total.toNat + d ≥ 0xFFFFFFFF then (0xFFFFFFFF, false) else (BitVec.ofNat 32 (total.toNat + d), true)

/-- Counter c of a lane at END_INPUT (R287): cleared by the voted LQ 24 + c of the cycle before, then counted. The clear acts in a lane without
the sample, and while the counter is invalid, too (DESIGN CHOICE, log entry 65). -/
def countStep (cleared : Bool) (t : Option TickSample) (c : Nat) (x : LaneFld) : LaneFld :=
  let x1 := if cleared then { x with totals := sput 0 x.totals c 0, exact := vput x.exact c true } else x
  match t with
  | none => x1
  | some t =>
    let cum := sget 0 t.cum c
    let x2 := { x1 with cumLast := sputAny x1.cumLast c cum }
    if x.retake then { x2 with exact := vput x2.exact c false }
    else if t.cntValid.getLsbD c then
      let d := match sfind x.cumLast c with | some old => (cum - old).toNat | none => 0
      let g := growTotal (sget 0 x2.totals c) d
      { x2 with totals := sput 0 x2.totals c g.1
                exact := vput x2.exact c (x2.exact.getLsbD c && g.2 && !t.cntStuck.getLsbD c) }
    else { x2 with exact := vput x2.exact c (x2.exact.getLsbD c && !t.cntStuck.getLsbD c) }

/-- COUNT_WORD of counter c takes the lane's total (R253, R287). -/
def putCountWord (c : LocalCfg) (x : LaneFld) (w : Sparse Word) (i : Nat) : Sparse Word :=
  match (counterCfg c i).mode with
  | .unused => w
  | _ => sput 0 w (counterCfg c i).countWord (sget 0 x.totals i)

/-- The local block of a lane at END_INPUT (R251, R253, R260, R287): counters, then LV, LF and the count words. -/
def localInput (s : State) (l : Lane) : State :=
  match laneVintage s l with
  | none => s
  | some v =>
    let c := v.localIo
    let cleared := fun i => match s.mod.voted with | some m => bget m.lq (24 + i) | none => false
    let L := lane s l
    let t := laneSample L.fld
    let x1 := (List.range 4).foldl (fun x i =>
      if (counterCfg c i).mode = .unused then x else countStep (cleared i) t i x) L.fld
    let x2 := { x1 with
      retake := x1.retake && t.isNone || x1.retakeNext
      retakeNext := false
      cfgDiff := match L.fld.last with
        | some u =>
          if L.fld.silent > 1 then L.fld.cfgDiff else if u.cfgCheck ≠ cfgCheckOf (some c) then L.fld.cfgDiff + 1 else 0
        | none => 0 }
    modLane s l (fun L => { L with
      fld := x2
      press := { L.press with data := { L.press.data with
        lv := bpatch L.press.data.lv 0 256 (localLv c x2)
        lf := bpatch L.press.data.lf 0 256 (localLf c x2)
        w := (List.range 4).foldl (putCountWord c x2) L.press.data.w } } })

/-- STUCK has been seen once every serving lane has read a sample that carries it (R260, R285). -/
def stuckSeen (s : State) : State :=
  let seen := fun c => decide (servingLanes s ≠ []) && (servingLanes s).all (fun l =>
    match laneSample (lane s l).fld with | some t => t.cntStuck.getLsbD c | none => false)
  modField s (fun f => { f with
    counters := (List.range 4).foldl (fun m c =>
      if seen c then smod CountRec.reset m c (fun x => { x with stuck := false }) else m) f.counters })

/-- What the lanes' checks of the field die find at END_INPUT (R262, R271). -/
def fieldChecks (s : State) : State :=
  let s1 := if pairsBroken s then latchFault s .pairCheck else s
  if configMismatch s1 then latchFault s1 .configMismatch else s1

end Sys2Proof.Machine
end

