-- ==== Sys2Proof/Machine/FieldOutputs.lean ====
section
/-!
DEFINITION. Local outputs and field supplies (R275 to R283): output tests, classification, trips and retries, open wire,
retirement clear, supply measurements, latch and recovery.
-/

namespace Sys2Proof.Machine

/-! ### Output tests (R275 to R280) -/

/-- No output test runs and no stream carries SWTEST (R277). -/
def testWindow (f : Field) : Bool :=
  (List.range 16).all (fun n => decide ((fieldOut f n).test = .none)) &&
  !f.streams.a.swtest && !f.streams.b.swtest && !f.streams.c.swtest

/-- A test may start: 20 µs into a test window that holds no other and overlaps no lane switch test (R277). -/
def windowFree (s : State) : Bool :=
  testWindow s.field && decide (sinceTick0 s % 50 = 2) && decide (s.field.usedWindow ≠ some (windowNow s))

/-- The configuration of an output in force. -/
def outCfg (f : Field) (n : Nat) : OutputCfg :=
  match f.config with
  | some c => outputCfg c n
  | none => { offTest := true, offPeriod := 60, onTest := false, onPeriod := 60, openWireEn := true }

/-- Some output in classification has output n still to be tested (R280). -/
def wantedByClass (f : Field) (n : Nat) : Bool :=
  (List.range 16).any (fun a => match (fieldOut f a).toTry with | some m => m.getLsbD n | none => false)

/-- Number of the period of a length in seconds that field time stands in (R277). -/
def periodIndex (f : Field) (seconds : Nat) : Nat := f.nowNs / (seconds * 1000000000)

/-- The OFF-test of output n is due: energised, and not tested in this OFF_PERIOD, or wanted by a classification (R277, R280;
DESIGN CHOICE where in the period it falls due, log entry 68). -/
def offDue (f : Field) (n : Nat) : Bool :=
  outEnabled f n && commandedOn f n && energised f n &&
  ((outCfg f n).offTest && decide ((fieldOut f n).offIn ≠ some (periodIndex f (outCfg f n).offPeriod)) || wantedByClass f n)

/-- The ON-test of output n is due: de-energised with ON_TEST set, and not tested in this ON_PERIOD, or due again after a discarded
test (R276 to R278). An output that is commanded on counts as energised here, held off or not, and a retired output or one of a latched
group is not tested (DESIGN CHOICE, log entry 68). -/
def onDue (f : Field) (n : Nat) : Bool :=
  fieldReady f && f.fault.isNone && !f.lost && (outCfg f n).onTest && !commandedOn f n && !(fieldOut f n).retired &&
  !(groupRec f (decide (8 ≤ n))).latched &&
  (decide ((fieldOut f n).onIn ≠ some (periodIndex f (outCfg f n).onPeriod)) || (fieldOut f n).testDue)

/-- No output before n is due for a test (R277). -/
def firstDue (f : Field) (n : Nat) : Bool := (List.range n).all (fun m => !offDue f m && !onDue f m)

/-- OFF_TEST (R275, R277, R280): the enable of an energised output is removed. -/
def execOffTest (n : Fin 16) (s : State) : Host.Outcome State Fault Refusal :=
  .next (
    let f := s.field
    if windowFree s && offDue f n.val && firstDue f n.val then
      let f1 := modFieldOut { f with usedWindow := some (windowNow s) } n.val (fun o => { o with
        test := .off, testDue := false, offIn := some (periodIndex f (outCfg f n.val).offPeriod) })
      { s with field := settleSwitches f1 }
    else s)

/-- Two outputs are cross-connected: both are retired (R279, R280). -/
def crossConnect (s : State) (a b : Nat) : State := retireOut (retireOut s a .crossConnect b) b .crossConnect a

/-- Classification of a high terminal goes on after the OFF-test of output b (R280): its terminal fell, or b is struck off; with
nothing left the terminal is stuck high. -/
def classifyStep (b : Nat) (fell : BitVec 16) (s : State) (a : Nat) : State :=
  match (outRec s a).toTry with
  | none => s
  | some m =>
    if a = b then s
    else if fell.getLsbD a && m.getLsbD b then crossConnect s a b
    else
      let left := bitsFrom 16 (fun i => m.getLsbD i && decide (i ≠ b) && energised s.field i)
      if left = 0 then retireOut s a .stuckHigh 0 else modOut s a (fun o => { o with toTry := some left })

/-- The classification of a failed OFF-test (R280): the lowest output whose current rose, or stuck high. -/
def failedOff (s : State) (n : Nat) (risen : BitVec 16) : State :=
  match (bitsOf risen).filter (fun b => decide (b ≠ n)) with
  | b :: _ => crossConnect s n b
  | [] => retireOut s n .stuckHigh 0

/-- OFF_TEST_END (R275, R280): fell are the outputs whose terminal read below 5 V in the test, risen those whose current rose by
20 mA or more. -/
def execOffTestEnd (n : Fin 16) (fell risen : BitVec 16) (s : State) : Host.Outcome State Fault Refusal :=
  .next (
    if (outRec s n.val).test = .off then
      let pass := fell.getLsbD n.val
      let s1 := modOut s n.val (fun o => { o with test := .none, offPassed := pass })
      let s2 := if pass then s1 else failedOff s1 n.val risen
      let s3 := foldS (List.range 16) (classifyStep n.val fell) s2
      modField s3 settleSwitches
    else s)

/-- ON_TEST (R276, R277): only for a de-energised output with ON_TEST set. -/
def execOnTest (n : Fin 16) (s : State) : Host.Outcome State Fault Refusal :=
  .next (
    let f := s.field
    if windowFree s && onDue f n.val && firstDue f n.val then
      { s with field := modFieldOut { f with usedWindow := some (windowNow s) } n.val (fun o => { o with
          test := .on, testDue := false, onIn := some (periodIndex f (outCfg f n.val).onPeriod) }) }
    else s)

/-- The current returned is within 10 % of the current driven and at least 10 mA (R276). -/
def onTestOk (driven returned : Nat) : Bool :=
  decide (returned ≥ 10) && decide (returned * 10 ≤ driven * 11) && decide (driven * 9 ≤ returned * 10)

/-- ON_TEST_END (R276, R279, R280): others are the outputs whose low-side terminal carries more than 2 mA. -/
def execOnTestEnd (n : Fin 16) (drivenMa returnedMa : Nat) (others : BitVec 16) (s : State) : Host.Outcome State Fault Refusal :=
  .next (
    if (outRec s n.val).test = .on then
      let bs := (bitsOf others).filter (fun b => decide (b ≠ n.val))
      if onTestOk drivenMa returnedMa && bs.isEmpty then
        modOut s n.val (fun o => { o with test := .none, onPassed := true, loadOk := true })
      else
        let s1 := modOut s n.val (fun o => { o with test := .none, onPassed := false, loadOk := false, fault := .onTestFail })
        let s2 := fieldEvent s1 73 0x0407 n.val (outFaultCode .onTestFail) returnedMa
        match bs with
        | b :: _ => modField (crossConnect s2 n.val b) settleSwitches
        | [] => s2
    else s)

/-- The outputs still to be OFF-tested for a high terminal: those that are energised now, in a classification under way those of
them that it has not tried (R280). -/
def stillToTry (f : Field) (n : Nat) : BitVec 16 :=
  match (fieldOut f n).toTry with
  | some m => bitsFrom 16 (fun i => m.getLsbD i && energised f i)
  | none => bitsFrom 16 (energised f)

/-- TERMINAL_HIGH_OFF (R280): with no energised output left to test the terminal is stuck high, otherwise each is OFF-tested. -/
def execTerminalHighOff (n : Fin 16) (s : State) : Host.Outcome State Fault Refusal :=
  .next (
    let f := s.field
    let o := fieldOut f n.val
    if fieldReady f && !energised f n.val && !commandedOn f n.val && decide (o.test = .none) && !o.retired then
      let m := stillToTry f n.val
      if m = 0 then retireOut s n.val .stuckHigh 0 else modOut s n.val (fun o => { o with toTry := some m })
    else s)

/-! ### Trips (R279) -/

/-- A trip can occur: the output is driven with its enable set, or in an OFF-test that removes it (R278, R279). -/
def canTrip (f : Field) (n : Nat) : Bool := outEnabled (modFieldOut f n (fun o => { o with test := .none })) n && commandedOn f n

/-- A trip removes the enable at once; the fourth retires the channel (R279). -/
def trip (s : State) (n : Nat) (c : OutFault) (ma : Nat) (hot : Bool) : State :=
  if canTrip s.field n then
    let s1 := modField s (fun f => modFieldOut (discardTest f n) n (fun o => { o with
      heldOff := true, trips := o.trips + 1, tripAt := f.nowNs, hot := hot, energisedNs := 0, fault := c }))
    let s2 := fieldEvent s1 74 0x0408 n (outFaultCode c) ma
    let s3 := if (outRec s2 n).trips ≥ 4 then retireOut s2 n c 0 else s2
    modField s3 settleSwitches
  else s

/-- OVERLOAD (R279): above 0.75 A for 2 ms. -/
def execOverload (n : Fin 16) (ma : BitVec 10) (s : State) : Host.Outcome State Fault Refusal :=
  .next (trip s n.val .overload ma.toNat false)

/-- SHORT (R279): above 2 A, which CURRENT shows as 1,023 mA. -/
def execShort (n : Fin 16) (s : State) : Host.Outcome State Fault Refusal := .next (trip s n.val .short 1023 false)

/-- OVER_TEMP (R279): the bridge junction is above 150 °C. -/
def execOverTemp (n : Fin 16) (s : State) : Host.Outcome State Fault Refusal :=
  .next (trip s n.val .overTemp (outRec s n.val).current.toNat true)

/-- OVERLOAD_RETRY (R279): at a tick at least 100 ms after the trip with the output still commanded on; after an
over-temperature also with the junction below 135 °C. -/
def execOverloadRetry (n : Fin 16) (junctionBelow135 : Bool) (s : State) : Host.Outcome State Fault Refusal :=
  .next (
    let o := outRec s n.val
    if o.heldOff && !o.retired && commandedOn s.field n.val && decide (s.field.nowNs ≥ o.tripAt + 100000000) &&
        (!o.hot || junctionBelow135) then
      modField s (fun f => settleSwitches (modFieldOut f n.val (fun o => { o with heldOff := false, hot := false })))
    else s)

/-- TRIP_COUNT_RESET (R279): 10 s energised in all since the last trip. -/
def execTripCountReset (n : Fin 16) (s : State) : Host.Outcome State Fault Refusal :=
  .next (
    let o := outRec s n.val
    if decide (o.energisedNs ≥ 10000000000) && !o.retired then modOut s n.val (fun o => { o with trips := 0 }) else s)

/-- OPEN_WIRE (R279, R522): energised below 2 mA for 50 ms, where OPEN_WIRE_EN is on. -/
def execOpenWire (n : Fin 16) (s : State) : Host.Outcome State Fault Refusal :=
  .next (
    if fieldReady s.field && (outCfg s.field n.val).openWireEn && energised s.field n.val && !(outRec s n.val).retired then
      let s1 := modOut s n.val (fun o => { o with loadOk := false, fault := .openWire })
      fieldEvent s1 73 0x0407 n.val (outFaultCode .openWire) (outRec s n.val).current.toNat
    else s)

/-- LOAD_OK_RETURN (R279, R522): energised for 50 ms at 2 mA or more. -/
def execLoadOkReturn (n : Fin 16) (s : State) : Host.Outcome State Fault Refusal :=
  .next (
    if fieldReady s.field && (outCfg s.field n.val).openWireEn && energised s.field n.val && !(outRec s n.val).retired then
      modOut s n.val (fun o => { o with loadOk := true })
    else s)

/-- OUTPUT_RETIRE_CLEAR (R29, R281): the output energises only after its voted LQ bit has been 0 in a cycle. -/
def execOutputRetireClear (n : Fin 16) (auth : Auth) (s : State) : Host.Outcome State Fault Refusal :=
  .next (harnal s auth 3 n.val (fun s =>
    if (outRec s n.val).retired then
      let s1 := modOut s n.val (fun o => { o with
        retired := false, awaitZero := true, zeroVoted := false, trips := 0, heldOff := false, fault := .none, partner := 0 })
      modPages s1 [5] (fun x => { x with retiredOuts := sdel x.retiredOuts n.val })
    else s))

/-! ### Field supplies (R282) -/

/-- One measurement of a supply in units of 10 mV: the warning and the two counts (R282). -/
def measure (v : BitVec 16) (g : GroupRec) : GroupRec :=
  let warn := vfWarn v
  let out := decide (v.toNat < 1680) || decide (v.toNat > 3200)
  { g with
    vf := v, warn := warn, bad := if out then min 100 (g.bad + 1) else 0, vfOff := g.vfOff && out, good := if warn then 0 else min 10000 (g.good + 1)
    st := if g.latched then g.st else if warn then .warning else .normal }

/-- VF_MEASURE (R282). -/
def execVfMeasure (vf1 vf2 : BitVec 16) (s : State) : Host.Outcome State Fault Refusal :=
  .next (if s.field.on then
      modField s (fun f => { f with group1 := measure vf1 f.group1, group2 := measure vf2 f.group2 })
    else s)

/-- VF_LATCH (R282): 100 consecutive measurements out of range, once for each such run. -/
def execVfLatch (group2 : Bool) (s : State) : Host.Outcome State Fault Refusal :=
  .next (
    let g := groupRec s.field group2
    if s.field.on && decide (g.bad ≥ 100) && !g.vfOff then
      fieldEvent (modField s (fun f => modGroup (latchGroup group2 f) group2 (fun g => { g with vfOff := true }))) (69 + bit group2) 0x0404 (1 + bit group2) 0 g.vf.toNat
    else s)

/-- VF_RECOVERED (R282): 10,000 consecutive measurements in range while latched; not while the crossing is lost (R263). -/
def execVfRecovered (group2 : Bool) (s : State) : Host.Outcome State Fault Refusal :=
  .next (if s.field.on && !s.field.lost then modField s (recoverGroup group2) else s)

end Sys2Proof.Machine
end

