-- ==== Sys2Proof/Machine/Twin.lean ====
section
/-!
DEFINITION. The twin pair (R330 to R362): roles and epoch, the TWIN frame received and composed, pairing, takeover, handover, the
load of a standby.
-/

namespace Sys2Proof.Machine

/-- Twin state codes (R332). -/
def twinCode : TwinSt → Nat
  | .none => 0 | .waiting => 1 | .active => 2 | .unpaired => 3 | .loading => 4 | .checking => 5 | .paired => 6 | .out => 7

/-- Change the twin side. -/
def modTwin (s : State) (f : Twin → Twin) : State := { s with twin := f s.twin }

/-- Epoch b is newer than epoch a (R333). -/
def newer (b a : BitVec 16) : Bool :=
  let d := (b - a).toNat
  decide (1 ≤ d) && decide (d ≤ 32767)

/-- Change what a lane has taken from its copies of the partner's frames. -/
def modOwn (s : State) (l : Lane) (f : TwinLane → TwinLane) : State :=
  modTwin s (fun t => { t with own := t.own.set l (f (t.own.get l)) })

/-- What a lane has taken from its copies of the partner's frames. -/
def ownTwin (s : State) (l : Lane) : TwinLane := s.twin.own.get l

/-- The newer of two epochs. -/
def newest (a b : BitVec 16) : BitVec 16 := if newer b a then b else a

/-- The epoch in force changes and is kept in the lifetime area (R333). -/
def setEpoch (s : State) (e : BitVec 16) : State :=
  modPages (modTwin s (fun t => { t with epoch := e })) [6] (fun f => { f with roleEpoch := e })

/-- A standby state (R332). -/
def standby : TwinSt → Bool
  | .unpaired => true | .loading => true | .checking => true | .paired => true
  | .none => false | .waiting => false | .active => false | .out => false

/-- Payload of the twin records: old and new epoch, twin state (R404). -/
def twinRecord (s : State) (old : BitVec 16) : List Byte :=
  le 2 old.toNat ++ le 2 s.twin.epoch.toNat ++ le 1 (twinCode s.twin.st) ++ le 3 0

/-- A lane's part in a new twin state: a load begins in every lane, and a lane that has not had its FINAL still takes it. -/
def ownIn (x : TwinSt) (o : TwinLane) : TwinLane :=
  { o with matchRun := if x = .checking then 0 else o.matchRun
           loading := decide (x = .loading) || (o.loading && decide (x = .checking)) }

/-- A new twin state; a load does not outlive the role in which it ran. -/
def setTwin (s : State) (x : TwinSt) : State :=
  modTwin s (fun t => { t with st := x, loadRun := t.loadRun && decide (x = .active)
                               marks := if x = .active then t.marks else []
                               own := t.own.map (fun _ => ownIn x)
                               loadCycles := if x = .loading ∧ t.st ≠ .loading then 0 else t.loadCycles })

/-- The pair is no longer matched: TWIN_UNPAIRED (R344). -/
def unpair (s : State) : State :=
  let s1 := setTwin s .unpaired
  eventAll s1 38 0x0602 (twinRecord s1 s1.twin.epoch)

/-! ### Receiving (R339, R341 to R345, R349, R353) -/

/-- Fields of a TWIN payload (R338). -/
def tDigest (f : Frame) : Nat := payNat f 0x00 16
def tVintage (f : Frame) : Nat := payNat f 0x10 4
def tStaged (f : Frame) : Nat := payNat f 0x14 4
def tState (f : Frame) : Nat := payNat f 0x19 1
def tFlags (f : Frame) : BitVec 8 := BitVec.ofNat 8 (payNat f 0x1A 1)
def tCount (f : Frame) : Nat := payNat f 0x1B 1
def tEcho (f : Frame) : Nat := payNat f 0x1C 4

/-- LENGTH agrees with COUNT and LOAD_BLOCK (R338, R341). -/
def twinLength (f : Frame) : Bool :=
  decide (f.payload.length ≥ 32) && decide (tCount f ≤ 43) &&
  decide (f.payload.length = 32 + 8 * tCount f + 260 * bit ((tFlags f).getLsbD 3))

/-- Forwarded commands from their entry words (R339). -/
def parseWords : Nat → List Byte → List FwdCmd
  | 0, _ => []
  | n + 1, bs =>
    if bs.length < 8 then []
    else
      let c := lget 0 bs 0
      let src := lget 0 bs 1
      let more := entryWords c.toNat - 1
      { cls := c, port := if src.getLsbD 7 then .p1 else .p0, sq := (src.setWidth 4).toFin
        tag := BitVec.ofNat 16 (ofBe ((bs.drop 2).take 2)), arg := BitVec.ofNat 16 (ofBe ((bs.drop 4).take 2))
        arg2 := lget 0 bs 6, ext := BitVec.ofNat 128 (ofBe ((bs.drop 8).take (8 * more))) } ::
      parseWords n (bs.drop (8 + 8 * more))

/-- SID of the partner (R341). -/
def partnerSid (s : State) : BitVec 30 := match vintageOf s with | some v => v.partnerSid | none => 0

/-- Deviation of the partner's TWIN frame (R204, R224, R336): node 0 receives UP at its reference point, node 1 DOWN. -/
def twinDev (s : State) (x : RxFrame) : Int := arrivalDev x (passes s x.seg x.medium x.side (decide (ownNode s = 0)) (twinStart s))

/-- Check 1 of R341. -/
def twinForm (s : State) (x : RxFrame) : Bool :=
  let f := x.frame
  fcsGood f && decide (f.type = 0x13) && decide (fromNode f = partnerNode s) && fromSegment x &&
  decide (f.dest = (ownNode s).setWidth 16) && twinLength f

/-- Checks 1 to 5 of R341 in a lane, against the reference of its own. -/
def twinAccepted (s : State) (l : Lane) (x : RxFrame) : Bool :=
  let f := x.frame
  twinForm s x && inSlot (twinDev s x) && decide (f.cycle = cycle16 s) &&
  decide (f.time = s.mod.tickTime) && moduleCodesOk (partnerSid s) f &&
  (match (ownTwin s l).rxSeq with
   | none => true
   | some r => decide (1 ≤ (f.sequence - r).toNat) && decide ((f.sequence - r).toNat ≤ 65535))

/-- What every accepted frame gives the module (R341, R342, R361). -/
def twinSeen (s : State) (f : Frame) : State :=
  let fl := tFlags f
  modTwin s (fun t => { t with
    echo := f.sequence, partner := BitVec.ofNat 4 (tState f), partnerEpoch := f.epoch, partnerActive := f.flags.getLsbD 0
    released := fl.getLsbD 1 })

/-- An ACTIVE that meets a newer ACTIVE yields at the next tick (R349). -/
def twinYield (s : State) (f : Frame) : State :=
  if decide (s.twin.st = .active) && f.flags.getLsbD 0 && newer f.epoch s.twin.epoch then
    modTwin s (fun t => { t with yield := some f.epoch })
  else s

/-- The compare with the own image of the cycle is equal (R344). -/
def twinEqual (m : Image) (f : Frame) : Bool :=
  decide (tDigest f = (stateDigest m.area).toNat) && decide (tVintage f = m.vintage.toNat)

/-- The compare of a cycle in a lane, and what follows from it in the lane that stands for all (R344). -/
def twinCompare (s : State) (l : Lane) (f : Frame) : State :=
  match cycleImage s with
  | none => s
  | some m =>
    let eq := twinEqual m f
    let run := if eq then min 2 ((ownTwin s l).matchRun + 1) else 0
    let s1 := modOwn s l (fun o => { o with
      isMatch := eq, matchRun := run, mismatchCycle := if eq then o.mismatchCycle else cycle16 s })
    if l ≠ refLane s then s1
    else match s.twin.st with
      | .checking => if !eq then unpair s1 else if run ≥ 2 then setTwin s1 .paired else s1
      | .paired => if eq then s1 else unpair s1
      | _ => s1

/-- The vintage of the ACTIVE is in the staged bank of every lane that computes (R346). -/
def stagedIs (s : State) (n : Word) : Bool :=
  Lane.list.all (fun l => !computes s l ||
    (match (lane s l).bank.staged with
     | some v => decide (v.number = n) && (decide ((lane s l).bank.st = .staged) || decide ((lane s l).bank.st = .previous))
     | none => false))

/-- Active and staged bank of a lane change places. -/
def swapBanks (b : Bank) : Bank :=
  match b.staged with
  | none => b
  | some v => { b with active := some v, activeCheck := b.stagedCheck, staged := b.active, stagedCheck := b.activeCheck
                       number := match b.active with | some w => w.number | none => 0 }

/-- A standby switches to the ACTIVE's vintage when a load starts (R346). -/
def loadSwitch (s : State) (n : Word) : State :=
  match vintageOf s with
  | none => s
  | some v =>
    if decide (v.number = n) || !stagedIs s n then s
    else
      let s1 := modLanes s (fun _ L => { L with bank := swapBanks L.bank })
      match vintageOf s1 with
      | some w => configure s1 w
      | none => s1

/-- No lane holds a block of an earlier load. -/
def clearLoaded (s : State) : State := modLanes s (fun _ L => { L with raa := { L.raa with loaded := [] } })

/-- The load area of a standby's lane after a block (R353). -/
def applyBlock (s : State) (l : Lane) (i : Nat) (bs : List Byte) : State :=
  if computes s l then modLane s l (fun L => putArea L (putBlock (areaOf L) i bs)) else s

/-- A loaded lane: the Press entries of the cycle stand apart from those held over, and the views are published as the ACTIVE
published them (R91, R353). -/
def loadedLane (now : Word) (L : LaneState) : LaneState :=
  let new := fun (e : QEntry) => match e.src with | .press c _ _ => decide (c = now) | .host _ => false
  let r := { L.raa with queue := L.raa.queue.filter (fun e => !new e), loaded := [] }
  { L with
    raa := r
    press := { L.press with
      issued := L.raa.queue.filter new, data := { L.press.data with
        x := publishX r, rs := publishRs r, views := closeViews now true L.press.data.views } } }

/-- The load is complete in a lane, and in the module with the lane that stands for all (R344, R353). -/
def loadDone (s : State) (l : Lane) : State :=
  let s1 := modOwn s l (fun o => { o with loading := false, matchRun := 0 })
  let s2 := if computes s l then modLane s1 l (loadedLane s.mod.cycle) else s1
  if l = refLane s then setTwin s2 .checking else s2

/-- Load block and FINAL of a lane's copy of a frame of the ACTIVE (R232, R344, R353). -/
def twinLoad (s : State) (l : Lane) (f : Frame) : State :=
  let fl := tFlags f
  let off := 0x20 + 8 * tCount f
  let block := payNat f off 4 % 8192
  let takes := decide (s.twin.st = .unpaired) || (ownTwin s l).loading
  let s1 := if takes && fl.getLsbD 3 && decide (block < blockCount) then
      let s0 := if s.twin.st = .unpaired then clearLoaded (loadSwitch (setTwin s .loading) (BitVec.ofNat 32 (tVintage f))) else s
      applyBlock s0 l block ((f.payload.drop (off + 4)).take 256)
    else s
  if (ownTwin s1 l).loading && fl.getLsbD 4 then loadDone s1 l else s1

/-- The ACTIVE takes the echo of its frames: a block that is not echoed is marked again (R353). -/
def twinEcho (s : State) (echo : Word) : State :=
  match s.twin.unechoed with
  | none => s
  | some (q, b) =>
    modTwin s (fun t => { t with unechoed := none, marks := if q = echo ∨ t.loadRun = false then t.marks else bset t.marks b })

/-- Fields of a non-stale frame that the module keeps (R344, R346, R348). -/
def twinFields (s : State) (f : Frame) : State :=
  let fl := tFlags f
  modTwin s (fun t => { t with
    partnerVintage := BitVec.ofNat 32 (tVintage f), partnerStaged := BitVec.ofNat 32 (tStaged f)
    partnerHandover := fl.getLsbD 0, partnerLoadReq := fl.getLsbD 2 })

/-- What the ACTIVE takes from a frame of its partner: the echo, and the end of a load (R353). -/
def activeTakes (s : State) (f : Frame) : State :=
  let s1 := twinEcho s (BitVec.ofNat 32 (tEcho f))
  if tState f = 5 ∨ tState f = 6 then modTwin s1 (fun t => { t with loadRun := false, marks := [] }) else s1

/-- A lane's copy of a non-stale frame (R232, R344, R345, R346, R348, R353): compare, entry words and load block are the lane's own. -/
def twinFresh (s : State) (l : Lane) (f : Frame) : State :=
  let stands := decide (l = refLane s)
  let s1 := if stands then twinFields s f else s
  if s.twin.st = .active then
    let s2 := twinCompare s1 l f
    if stands then activeTakes s2 f else s2
  else if standby s.twin.st && f.flags.getLsbD 0 then
    let s2 := modOwn (twinCompare s1 l f) l (fun o => { o with
      words := parseWords (tCount f) ((f.payload.drop 0x20).take (8 * tCount f)) })
    twinLoad s2 l f
  else s1

/-- The module receives TWIN frames (R332, R336). -/
def twinListens (s : State) : Bool := twinOn s && operating s.mod.st

/-- A copy of a frame whose FCS fails or whose type is none of R214 counts against its medium, and silences a node that listens or
cold-starts (R214, R228, R234). -/
def mediumFcs (s : State) (x : RxFrame) : State :=
  if fcsGood x.frame = true ∧ knownType x.frame = true then s else corruptSeen s x.seg x.medium

/-- A TWIN frame that fails R341: one outside its window is a timing error against its sender too (R224). -/
def twinReject (s : State) (x : RxFrame) : State :=
  let s1 := modTwin (mediumFcs s x) (fun t => { t with rejected := satInc t.rejected })
  if twinForm s x && !inSlot (twinDev s x) then timingError s1 (some 576) (twinDev s x) else s1

/-- A lane has accepted its copy of the partner's frame (R341, R347). -/
def twinGot (s : State) (l : Lane) (f : Frame) : State :=
  modOwn (modTwin s (fun t => { t with
    gotNow := vput t.gotNow l.idx true, gotActive := vput t.gotActive l.idx (f.flags.getLsbD 0) })) l
    (fun o => { o with rxSeq := some f.sequence, silent := 0 })

/-- A copy that a lane does not accept or is not to judge: its counts are made once, with the lane that stands for all. -/
def twinCount (s0 : State) (l : Lane) (f : State → State) : State := if l = refLane s0 then f s0 else s0

/-- A stale frame in a lane (R342): its entry words are not executed. -/
def twinStale (s : State) (l : Lane) : State :=
  twinCount (modOwn s l (fun o => { o with words := [] })) l (fun s => modTwin s (fun t => { t with stale := satInc t.stale }))

/-- TWIN (R232, R341, R342, R347, R385): every lane judges its own copies and takes what the first that it accepts in a cycle brings it; the
state of the pair, which is one for the module, moves with the lane that stands for all (log entry 36). -/
def execTwin (l : Lane) (rx : RxFrame) (s : State) : Host.Outcome State Fault Refusal :=
  .next (
    let s0 := sessionSees s l rx 576
    if txDis s rx.seg rx.medium || decide (s.alk.node = .down) then s
    else if portDrops s rx.frame then s0
    else if !twinListens s || !mediumUsed s rx.seg rx.medium || laneBit s.twin.gotNow l then twinCount s0 l (fun s => mediumFcs s rx)
    else if !twinAccepted s l rx then twinCount s0 l (fun s => twinReject s rx)
    else
      let f := rx.frame
      let s1 := twinCount (twinGot s0 l f) l (fun s => twinYield (twinSeen s f) f)
      if f.epoch ≠ s.twin.epoch then twinStale s1 l else twinFresh s1 l f)

/-! ### Composing (R336 to R340, R353) -/

/-- The next marked block after the last one sent, wrapping (R353). -/
def nextMark (t : Twin) : Option Nat :=
  match t.marks.find? (fun i => decide (i > t.lastBlock)) with
  | some i => some i
  | none => t.marks.head?

/-- Blocks whose content has changed between two images (R353, R354). -/
def changedBlocks (old new : LoadArea) : List Nat :=
  let a := markArea old
  let b := markArea new
  if a = b then [] else (List.range blockCount).filter (fun i => decide (areaBlock a i ≠ areaBlock b i))

/-- The load's part at the close of an image: changed blocks are marked again, and one marked block goes into the frame (R353). -/
def loadClose (s : State) (area : LoadArea) : State :=
  if !s.twin.loadRun then s
  else
    let changed := match s.mod.voted with | some m => changedBlocks m.area area | none => []
    let t := { s.twin with marks := changed.foldl bset s.twin.marks }
    match nextMark t with
    | none => { s with twin := t }
    | some i => { s with twin := { t with lastBlock := i, sentNow := some (t.txSeq + 1, i) } }

/-- LOAD_REQ (R344, R346). -/
def loadReq (s : State) : Bool :=
  decide (s.twin.st = .unpaired) && decide (s.twin.partner ≠ 0) &&
  ((match vintageOf s with | some v => decide (v.number = s.twin.partnerVintage) | none => false) ||
   stagedIs s s.twin.partnerVintage)

/-- STAGED (R337). -/
def stagedNumber (b : Bank) : Word := match b.staged with | some v => v.number | none => 0

/-- The frame carries a load block. -/
def sendsBlock (s : State) : Bool := s.twin.loadRun && s.twin.sentNow.isSome

/-- TFLAGS of a frame (R337, R353). -/
def twinFlags (s : State) (L : LaneState) : Nat :=
  bit (decide (s.twin.st = .active) && s.twin.handover) + 2 * bit (bget L.press.data.m 0) + 4 * bit (loadReq s) +
  8 * bit (sendsBlock s) + 16 * bit (s.twin.loadRun && decide (s.twin.marks.length ≤ 1))

/-- Twin-slot control fields as a lane builds them (R337). -/
def twinCtlOf (s : State) (l : Lane) : TwinCtl :=
  let L := lane s l
  let fl := twinFlags s L
  let count := (entryBytes s l).length / 8
  { ctl := { dest := (partnerNode s).setWidth 16, type := 0x13, flags := BitVec.ofNat 8 (flagActive s)
             length := BitVec.ofNat 16 (32 + 8 * count + 260 * bit (sendsBlock s)), epoch := s.twin.epoch
             sequence := s.twin.txSeq + 1, time := s.mod.tickTime, destSid := 0, echoSeq := 0 }
    vintage := match laneVintage s l with | some v => v.number | none => 0
    staged := stagedNumber L.bank, module := BitVec.ofNat 8 (modCode s.mod.st), twinState := BitVec.ofNat 8 (twinCode s.twin.st)
    tflags := BitVec.ofNat 8 fl, count := BitVec.ofNat 8 count, echoSeq := s.twin.echo }

/-- The twin side after the image has closed: the send number, the mark of the block sent, HANDOVER sent (R337, R348, R353). -/
def twinClosed (s : State) : State :=
  if !twinOn s then s
  else modTwin s (fun t => { t with
    txSeq := t.txSeq + 1, handoverSent := t.handover && decide (t.st = .active)
    marks := match t.sentNow with | some (_, i) => bclr t.marks i | none => t.marks })

/-! ### Roles at the tick (R332 to R335, R344, R349) -/

/-- A module that leaves STARTING takes its role from the frames of the last cycle (R334). An old ACTIVE that finds its partner
under another epoch learns of the takeover (R347). -/
def takeRole (s : State) : State :=
  let t := s.twin
  let own := t.epoch
  if laneBit t.gotNow (refLane s) && t.partnerActive then
    let s1 := setTwin (setEpoch s t.partnerEpoch) .checking
    if t.partnerEpoch = own then s1 else eventAll s1 39 0x0600 (twinRecord s1 own)
  else if laneBit t.gotNow (refLane s) && t.released && decide (ownNode s = 1) then
    setTwin (setEpoch s (newest t.partnerEpoch own + 1)) .checking
  else
    let seen := if t.partner = 0 then own else newest own t.partnerEpoch
    setTwin (setEpoch s (seen + 1)) .active

/-- The twin state that the module state asks for (R332). -/
def twinRole (s : State) : State :=
  if !twinOn s then (if s.twin.st = .none then s else setTwin s .none)
  else match s.mod.st with
    | .svc3 => (match s.twin.st with | .none => takeRole s | .waiting => takeRole s | .out => takeRole s | _ => s)
    | .svc2 => (match s.twin.st with | .none => takeRole s | .waiting => takeRole s | .out => takeRole s | _ => s)
    | .commissioning => if s.twin.st = .waiting then s else setTwin s .waiting
    | .starting => if s.twin.st = .waiting then s else setTwin s .waiting
    | _ => if s.twin.st = .out then s else setTwin s .out

/-- An ACTIVE yields to a newer one (R347, R349). -/
def yieldNow (s : State) : State :=
  match s.twin.yield with
  | none => s
  | some e =>
    let old := s.twin.epoch
    let s1 := setTwin (setEpoch (modTwin s (fun t => { t with yield := none })) e) .unpaired
    eventAll s1 39 0x0600 (twinRecord s1 old)

/-- A lane's part at the tick (R341, R345): the batch is empty without a frame of the ACTIVE, and three silent cycles end the reference. -/
def ownTick (got active : Bool) (o : TwinLane) : TwinLane :=
  { o with words := if active then o.words else [], silent := if got then 0 else min 3 (o.silent + 1)
           rxSeq := if !got && decide (o.silent ≥ 2) then none else o.rxSeq }

/-- The twin side of a tick, with the frames of the cycle that has ended. -/
def twinTick (s : State) : State :=
  let t := s.twin
  let got := laneBit t.gotNow (refLane s)
  let active := laneBit t.gotActive (refLane s)
  let s1 := if decide (t.st = .checking) && !active then setTwin s .unpaired else s
  let s2 := twinRole (yieldNow s1)
  modTwin s2 (fun u => { u with
    seen := got, lastActive := t.gotActive, gotNow := 0, gotActive := 0
    own := u.own.map (fun l o => ownTick (laneBit t.gotNow l) (laneBit t.gotActive l) { o with loading := o.loading && decide (u.st = .loading) })
    marks := match t.unechoed with | some (_, b) => if u.loadRun then bset u.marks b else u.marks | none => u.marks
    unechoed := t.sentNow, sentNow := none
    loadCycles := if u.loadRun || decide (u.st = .loading) || decide (u.loadCycles > 0) then min 32767 (u.loadCycles + 1) else 0 })

/-! ### Takeover and handover (R347, R348) -/

/-- A lane's K bit 6 after a role has changed at this tick (R92, R347). -/
def roleBit (s : State) (f : Lane → Bool) : State :=
  modLanes s (fun l L => { L with press := { L.press with data := { L.press.data with k := vput L.press.data.k 6 (f l) } } })

/-- Serving lanes that accepted no TWIN frame from the ACTIVE in the last cycle: each lane judges the twin slot itself (R347). -/
def missedActive (s : State) : List Lane := (servingLanes s).filter (fun l => !laneBit s.twin.lastActive l)

/-- TAKEOVER (R347): the module takes the role where two lanes have judged so; K bit 6 carries every lane's own judgement into its image,
where the vote settles a lane that judged differently. -/
def execTakeover (s : State) : Host.Outcome State Fault Refusal :=
  .next (
    if decide (s.twin.st = .paired) && decide (missedActive s ≠ []) && decide (s.mod.phase = .input) then
      let old := s.twin.epoch
      let miss := missedActive s
      if miss.length < 2 then roleBit s (fun l => decide (l ∈ miss))
      else
        let s1 := setTwin (setEpoch s (old + 1)) .active
        let s2 := modLife s1 (fun f => { f with takeovers := satInc f.takeovers })
        eventAll (roleBit s2 (fun l => !laneBit s.twin.lastActive l)) 39 0x0600 (twinRecord s2 old)
    else s)

/-- The partner is STANDBY_PAIRED in its last accepted frame. -/
def partnerPaired (s : State) : Bool := decide (s.twin.partner = 6)

/-- A handover is refused and recorded (R348). -/
def refuseHandover (s : State) : State :=
  let s1 := modTwin s (fun t => { t with handover := false, handoverSent := false })
  recordAll s1 0x0601 (twinRecord s1 s1.twin.epoch)

/-- A handover whose tick has passed without a swap is refused (R348). -/
def handoverPast (s : State) : State := if s.twin.handoverSent then refuseHandover s else s

/-- HANDOVER_REQUEST (R348, R486). -/
def execHandoverRequest (auth : Auth) (s : State) : Host.Outcome State Fault Refusal :=
  .next (harnal s auth 9 0 (fun s =>
    if decide (s.twin.st = .active) && partnerPaired s then modTwin s (fun t => { t with handover := true })
    else refuseHandover s))

/-- HANDOVER (R331, R348): at the tick after an equal compare the two modules change roles; the former ACTIVE, which was the ACTIVE of the
last cycle itself, opens its local outputs. -/
def execHandover (s : State) : Host.Outcome State Fault Refusal :=
  .next (
    let t := s.twin
    let leaves := decide (t.st = .active) && t.handoverSent && partnerPaired s && t.seen
    let takes := decide (t.st = .paired) && t.partnerHandover && laneBit t.lastActive (refLane s)
    if (leaves || takes) && (ownTwin s (refLane s)).isMatch && decide (s.mod.phase = .input) then
      let old := t.epoch
      let s1 := setTwin (setEpoch s (old + 1)) (if takes then .active else .paired)
      let s2 := modTwin s1 (fun t => { t with
        handover := false, handoverSent := false, partnerHandover := false, lastActive := if takes then t.lastActive else 7 })
      let s3 := modLife (roleBit s2 (fun _ => takes)) (fun f => { f with handovers := satInc f.handovers })
      eventAll (if takes then s3 else modSluices s3 (fun _ x => { x with now := 0 })) 41 0x0601 (twinRecord s3 old)
    else s)

/-! ### Loads (R353, R356) -/

/-- LOAD_START (R353, R356): every block is marked, and the first to go is block 0. -/
def execLoadStart (s : State) : Host.Outcome State Fault Refusal :=
  .next (
    let t := s.twin
    if decide (t.st = .active) && decide (t.partner = 3) && t.partnerLoadReq && t.seen && !t.loadRun && !t.stopped &&
        decide (s.mod.tickTime.toNat ≥ t.retryAt.toNat) && decide (s.mod.phase = .input) then
      modTwin s (fun t => { t with
        loadRun := true, marks := List.range blockCount, lastBlock := blockCount - 1, loadCycles := 0, sentNow := none
        unechoed := none })
    else s)

/-- Failed loads in the 24 h that end at the tick, both ends included (R356). -/
def loadFailCount (s : State) : Nat := (inWindow s.mod.tickTime day24 s.cellar.life.loadFails).length

/-- LOAD_FAIL (R356). -/
def execLoadFail (s : State) : Host.Outcome State Fault Refusal :=
  .next (
    let t := s.twin
    if t.loadRun && decide (t.loadCycles ≥ 23352) then
      let fourth := decide (loadFailCount s ≥ 3)
      let s1 := modPages s [4] (fun f => { f with loadFails := (s.mod.tickTime :: f.loadFails).take 4 })
      let s2 := modTwin s1 (fun t => { t with
        loadRun := false, marks := [], retryAt := timeAdd s.mod.tickTime 60000000000, stopped := t.stopped || fourth })
      eventAll s2 40 0x0603 (twinRecord s2 s2.twin.epoch)
    else if decide (t.st = .loading) && decide (t.loadCycles ≥ 23352) then
      let s1 := setTwin s .unpaired
      eventAll s1 40 0x0603 (twinRecord s1 s1.twin.epoch)
    else s)

/-- LOAD_RETRY (R356). -/
def execLoadRetry (s : State) : Host.Outcome State Fault Refusal :=
  .next (
    if decide (s.twin.retryAt ≠ 0) && decide (s.mod.tickTime.toNat ≥ s.twin.retryAt.toNat) && !s.twin.stopped then
      modTwin s (fun t => { t with retryAt := 0 })
    else s)

/-- LOAD_RESTART (R356, R486): the window of failed loads is emptied with the stop. -/
def execLoadRestart (auth : Auth) (s : State) : Host.Outcome State Fault Refusal :=
  .next (
    if s.twin.stopped then
      harnal s auth 10 0 (fun s =>
        modPages (modTwin s (fun t => { t with stopped := false, retryAt := 0 })) [4] (fun f => { f with loadFails := [] }))
    else s)

end Sys2Proof.Machine
end

