-- ==== Sys2Proof/Machine/Staging.lean ====
section
/-!
DEFINITION. Staging of vintages and firmware, and ROM recovery (R311, R314, R426 to R434, R444 to R453): chunks, verification,
the update of a lane, the recovery ROM.
-/

namespace Sys2Proof.Machine

/-! ### A chunk and its data (R305, R311, R314) -/

/-- CHUNK_OFFSET, LENGTH and LAST of a staging descriptor. -/
def chunkOff (d : BitVec 512) : Nat := dget d 0x1C 4
def chunkLen (d : BitVec 512) : Nat := dget d 0x20 4
def chunkLast (d : BitVec 512) : Bool := decide (dget d 0x24 1 = 1)

/-- A descriptor of SQ (p, q) with these bytes that waits for its data. -/
def awaitsData (p : Port) (q : Fin 16) (d : BitVec 512) (t : Taken) : Bool :=
  decide (t.ref.port = p) && decide (t.ref.sq = q) && decide (t.desc = d) && !t.replay && t.data.isNone

/-- Some lane keeps a descriptor that waits for this data. -/
def isWaiting (s : State) (p : Port) (q : Fin 16) (d : BitVec 512) : Bool :=
  Lane.list.any (fun l => (lane s l).mbx.taken.any (awaitsData p q d))

/-- The descriptor whose data comes next in ring order, where it is the one named (R393). -/
def waitingRef (s : State) (p : Port) (q : Fin 16) (d : BitVec 512) : Option HostRef :=
  match (stageRefs s p q.val).findSome? (fun r => (takenRef s r).bind (fun t => if t.data.isNone then some t else none)) with
  | some t => if t.desc = d then some t.ref else none
  | none => none

/-- The data reaches every lane that has taken the descriptor (R311). -/
def attachData (s : State) (r : HostRef) (x : StageData) : State :=
  modLanes s (fun _ L => { L with mbx := { L.mbx with
    taken := L.mbx.taken.map (fun t => if t.ref = r then { t with data := some x } else t) } })

/-- A lane that keeps what it stages: SERVING or REINTEGRATING (R433). -/
def keepsStage (s : State) (l : Lane) : Bool := decide (lst s l = .serving) || decide (lst s l = .reintegrating)

/-- A staging descriptor ends in every lane with bytes taken and a reason (R315, R434). -/
def endStage (s : State) (t : Taken) (bytes reason : Nat) : State :=
  finishAll s t.ref (outcomeNow s (if reason = 0 then 0x05 else 0x3C) (resultOf t.ref 5 (bytes + 2 ^ 32 * reason)))

/-! ### STAGE_PROGRAM (R431 to R433) -/

/-- VINTAGE_STAGED of one lane (R404, R453): vintage, reason, parameter check value, image length. -/
def stagedRecord (s : State) (l : Lane) (n : Word) (reason : Nat) (check : BitVec 64) (bytes : Nat) : State :=
  eventLane s l 160 0x0700 (le 4 n.toNat ++ le 1 reason ++ le 3 0 ++ le 8 check.toNat ++ le 4 bytes)

/-- A staging ends without verification: the banks are EMPTY (R431). -/
def failStage (s : State) (t : Taken) (reason : Nat) : State :=
  let n := (refBank s).number
  let bytes := (refBank s).bytes
  let s1 := modLanes s (fun _ L => { L with bank := emptyBank L.bank reason })
  endStage (foldS (Lane.list.filter (runs s)) (fun s l => stagedRecord s l n reason 0 bytes) s1) t bytes reason

/-- The bytes of a chunk are taken: lanes that keep the staging hold them in their receiving area, the others are EMPTY (R431, R433). -/
def takeBytes (s : State) (d : BitVec 512) (x : StageData) : State :=
  modLanes s (fun l L =>
    let b := L.bank
    let first := decide (chunkOff d = 0)
    if keepsStage s l && (first || decide (b.st = .receiving)) then
      let b1 := if first then
          { emptyBank b 0 with st := .receiving, number := BitVec.ofNat 32 (dget d 0x18 4), bytes := 0, lapsed := none }
        else b
      { L with bank := { b1 with bytes := b1.bytes + chunkLen d, received := b1.received ++ x.bytes
                                 verifying := chunkLast d, parts := if chunkLast d then x.parts else none } }
    else { L with bank := if first then emptyBank b 0 else stageDropped b })

/-- The LAST chunk that a lane's verification belongs to, other than one. -/
def lastChunk (L : LaneState) (but : Option HostRef) : Option Taken :=
  L.mbx.taken.find? (fun t => decide (t.ref.cls = 0x20) && decide (t.feed = .fed) && chunkLast t.desc && !t.replay &&
    decide (some t.ref ≠ but))

/-- A new staging starts while an older one is verified: the older one is lost, and its LAST chunk ends with ORDER (R431 step 1; DESIGN
CHOICE, log entry 25). -/
def overtake (s : State) (t : Taken) : State :=
  if (refBank s).verifying then
    match lastChunk (lane s (refLane s)) (some t.ref) with
    | some u => endStage s u (refBank s).bytes 1
    | none => s
  else s

/-- A further chunk is out of order (R431 step 2). -/
def chunkOrder (b : Bank) (d : BitVec 512) : Bool :=
  decide (chunkOff d ≠ 0) && (b.verifying || decide (b.st ≠ .receiving) || decide (b.number.toNat ≠ dget d 0x18 4) ||
    decide (b.bytes ≠ chunkOff d))

/-- One STAGE_PROGRAM chunk is executed (R431); the bytes it moved feed the user contexts, also those of a chunk out of order (R393). -/
def programChunk (s : State) (t : Taken) (x : StageData) : State :=
  let d := t.desc
  let b := refBank s
  let s1 := feedStage s t true x.bytes
  if chunkOrder b d then endStage s1 t b.bytes 1
  else
    let s2 := takeBytes (overtake s1 t) d x
    if (refBank s2).bytes > 25165824 then failStage s2 t 2
    else if chunkLast d then s2
    else endStage s2 t (refBank s2).bytes 0

/-- The vintage that the bytes of a lane's receiving area unpack to (R429); none: nothing says what their unpublished parts hold. -/
def stagedVintage (b : Bank) : Option Vintage := b.parts.map (unpack b.received)

/-- Checks 1 to 4 of R432 on the bytes received, and the vintage named by the descriptors (R428, R432). -/
def imageReason (b : Bank) : Nat :=
  let n := imageNum b.received 0x04 4
  if !trailerOk 8 b.received then 3
  else if !formatOk b.received || decide (n ≠ b.number.toNat) then 4
  else if decide (n = 0) || decide (n = 0xFFFFFFFF) || (match b.active with | some v => decide (v.number.toNat = n) | none => false) then 6
  else match stagedVintage b with
    | some v => if contentOk v then 0 else 5
    | none => 5

/-- The parameter check value that a lane computes (R430): the operand says what an upset has turned in it. -/
def laneValue (s : State) (l : Lane) (error : BitVec 64) : BitVec 64 :=
  match stagedVintage (lane s l).bank with
  | some v => paramValue v ^^^ error
  | none => error

/-- Checks 1 to 5 in a lane with its own parameter check value. -/
def laneReason (s : State) (l : Lane) (error : BitVec 64) : Nat :=
  let b := (lane s l).bank
  let r := imageReason b
  if r ≠ 0 then r
  else match stagedVintage b with
    | some v => if laneValue s l error ≠ v.paramCheck then 5 else 0
    | none => 5

/-- The vintage is written to the store that the active one does not occupy, with the next STAGE_GEN (R426, R432). -/
def writeStore (b : Bank) (v : Vintage) : Bank :=
  let gen := fun (x : Option (Vintage × Nat)) => match x with | some y => y.2 | none => 0
  let g := max (gen b.storeA) (gen b.storeB) + 1
  let inA := match b.active, b.storeA with | some a, some x => decide (a.number = x.1.number) | _, _ => false
  if inA then { b with storeB := some (v, g) } else { b with storeA := some (v, g) }

/-- The staged bank of a lane that passed every check. -/
def stagedBank (b : Bank) (v : Vintage) (check : BitVec 64) : Bank :=
  { writeStore b v with
    st := .staged, staged := some v, stagedCheck := check, number := v.number, verifying := false, parts := none
    received := [], reason := 0 }

/-- The bank after a verification with its reason. -/
def verifiedBank (b : Bank) (reason : Nat) (check : BitVec 64) : Bank :=
  match stagedVintage b with
  | some v => if reason = 0 then stagedBank b v check else emptyBank b reason
  | none => emptyBank b reason

/-- The end of verification in one lane with its reason (R432). -/
def endVerify (errors : PerLane (BitVec 64)) (reasons : PerLane Nat) (s : State) (l : Lane) : State :=
  let b := (lane s l).bank
  if !b.verifying then s
  else
    let r := reasons.get l
    let check := laneValue s l (errors.get l)
    let s1 := modLane s l (fun L => { L with bank := verifiedBank b r check })
    let s2 := stagedRecord s1 l b.number r check b.bytes
    match lastChunk (lane s l) none with
    | some t => finishLane s2 l t.ref
        (outcomeNow s (if r = 0 then 0x05 else 0x3C) (resultOf t.ref 5 (b.bytes + 2 ^ 32 * r)))
    | none => s2

/-- A lane that no longer keeps the staging discards what it holds of it (R433). -/
def dropVerify (s : State) : State :=
  modLanes s (fun l L => if L.bank.verifying && !keepsStage s l then { L with bank := emptyBank L.bank 0 } else L)

/-- Lanes that verify the image. -/
def verifyLanes (s : State) : List Lane := Lane.list.filter (fun l => (lane s l).bank.verifying && keepsStage s l)

/-- Check 6 of R432: every lane in SERVING or REINTEGRATING has passed its own checks and holds the same value. -/
def lanesSame (s : State) (errors : PerLane (BitVec 64)) : Bool :=
  Lane.list.all (fun m => !keepsStage s m ||
    ((lane s m).bank.verifying && decide (laneReason s m (errors.get m) = 0) &&
     (verifyLanes s).all (fun l => decide (laneValue s l (errors.get l) = laneValue s m (errors.get m)))))

/-- The reason of a lane (R432): its own, LANE_DIFFER, NOR_WRITE. -/
def verifyReason (s : State) (errors : PerLane (BitVec 64)) (norOk : PerLane Bool) (l : Lane) : Nat :=
  let own := laneReason s l (errors.get l)
  if own ≠ 0 then own else if !lanesSame s errors then 7 else if norOk.get l then 0 else 8

/-- VINTAGE_STAGED (R432): the checks of every lane that keeps the staging, in their order; without an active vintage the module
restarts into what it has staged (R475). -/
def execVintageStaged (errors : PerLane (BitVec 64)) (norOk : PerLane Bool) (s : State) : Host.Outcome State Fault Refusal :=
  .next (
    let ls := verifyLanes s
    if ls.isEmpty then dropVerify s
    else
      let reason := verifyReason s errors norOk
      let n := (refBank s).number
      let done := ls.any (fun l => decide (reason l = 0))
      let s1 := foldS ls (endVerify errors ⟨reason .A, reason .B, reason .C⟩) (dropVerify s)
      let s2 := if done then addHistory s1 3 0 n.toNat (laneValue s (refLane s) (errors.get (refLane s))) else s1
      if done && decide (vintageOf s2 = none) then { s2 with mod := { s2.mod with restartTo := some n } } else s2)

/-! ### STAGE_FIRMWARE (R447, R448) -/

/-- Step 1 of R448, on the bytes received; the operand says whether the signature verifies. -/
def deltaReason (s : State) (l : Lane) (signed : Bool) : Nat :=
  let b := (lane s l).boot
  let d := deltaAt b.delta
  if !trailerOk 72 b.delta then 3
  else if !signed then 9
  else if !deltaFormatOk b.delta then 4
  else if decide (d.oldVersion ≠ b.version) || decide (d.oldCheck.toNat ≠ crcOf crc64 b.image) then 0x0A
  else if decide (d.newVersion.toNat < s.cellar.life.versionFloor.toNat) || bothFailed s.cellar then 0x0B
  else if !d.park && decide (fwClass d.newVersion ≠ fwClass b.version) then 0x0C
  else 0

/-- A lane may go out for a planned activity (R31, R448 step 2). -/
def updateAllowed (s : State) (l : Lane) : Bool :=
  decide (s.mod.st = .svc3) && serving s l && !plannedRuns s && Lane.list.all (fun m => decide (lst s m ≠ .reintegrating))

/-- The update of a lane begins: steps 1 and 2 of R448; then step 3 builds the image. -/
def startUpdate (s : State) (l : Lane) (signed : Bool) (t : Taken) : State :=
  let d := deltaAt (lane s l).boot.delta
  let s1 := modLane s l (fun L => { L with boot := { L.boot with update := some (d, t), step := 1, reason := 0 } })
  let r := deltaReason s l signed
  if r ≠ 0 then endUpdate s1 l r
  else if !updateAllowed s l then
    finishAll (modLane s1 l (fun L => { L with boot := { L.boot with update := none, step := 0 } })) t.ref
      (outcomeNow s 0x1C (resultOf t.ref 5 ((lane s l).boot.deltaBytes)))
  else
    let s2 := isolate s1 l .update
    modLane s2 l (fun L => { L with boot := { L.boot with step := if L.boot.update.isSome then 3 else 0 } })

/-- A firmware chunk is out of order (R431, R448). -/
def deltaOrder (b : Boot) (d : BitVec 512) : Bool :=
  b.update.isSome || (decide (chunkOff d ≠ 0) && (!b.taking || decide (b.deltaBytes ≠ chunkOff d)))

/-- The bytes of a firmware chunk are taken; the last chunk, or one that is too large, ends the taking. -/
def deltaTaken (b : Boot) (d : BitVec 512) (bs : List Byte) : Boot :=
  let n := chunkOff d + chunkLen d
  { b with deltaBytes := n, taking := !chunkLast d && decide (n ≤ 12582912)
           delta := (if chunkOff d = 0 then [] else b.delta) ++ bs }

/-- One STAGE_FIRMWARE chunk is executed (R393, R448). -/
def firmwareChunk (s : State) (t : Taken) (x : StageData) : State :=
  let d := t.desc
  let l := fwLane d
  let s1 := feedStage s t true x.bytes
  if deltaOrder (lane s l).boot d then endStage s1 t (lane s l).boot.deltaBytes 1
  else
    let n := chunkOff d + chunkLen d
    let s2 := modLane s1 l (fun L => { L with boot := deltaTaken L.boot d x.bytes })
    if n > 12582912 then
      endStage (modLane s2 l (fun L => { L with boot := { L.boot with delta := [], reason := 2 } })) t n 2
    else if chunkLast d then startUpdate s2 l (x.signed.getD false) t
    else endStage s2 t n 0

/-- A staging descriptor with its data is executed: its length is that of the descriptor (R305, R321). -/
def executeChunk (s : State) (t : Taken) : State :=
  match t.data with
  | none => s
  | some x =>
    if x.bytes.length ≠ chunkLen t.desc then dataFailed s t x.bytes
    else if t.ref.cls = 0x20 then programChunk s t x
    else if t.ref.cls = 0x21 then firmwareChunk s t x
    else s

/-- A descriptor of an SQ is executed once it has started, its data is there, and no data of the SQ is to come before it; the next one then
begins to feed (R314, R393, R394). -/
def runNext (p : Port) (q : Nat) (s : State) (r : HostRef) : State :=
  match firstUnfed s p q with
  | some t =>
    if decide (t.ref = r) && t.started && t.data.isSome then
      beginFeed (executeChunk (markFeed (beginFeed s p q) r .fed) t) p q
    else s
  | none => s

/-- The descriptors of an SQ that can be executed are, in ring order. -/
def runSq (s : State) (p : Port) (q : Nat) : State := foldS (stageRefs s p q) (runNext p q) s

/-- A staging descriptor has started: its turn to feed has come, or comes after those before it. -/
def runChunk (s : State) (t : Taken) : State := runSq (beginFeed s t.ref.port t.ref.sq.val) t.ref.port t.ref.sq.val

/-- Data of a staging descriptor arrives, no more than its LENGTH; a descriptor whose execution has started is executed (R305, R314). -/
def stageData (s : State) (p : Port) (q : Fin 16) (d : BitVec 512) (x : StageData) : State :=
  match waitingRef s p q d with
  | none => s
  | some r => runSq (attachData s r { x with bytes := x.bytes.take (chunkLen d) }) p q.val

/-- STAGE_PROGRAM (R311, R431): the descriptor is taken if it has not been, and its data is moved. -/
def execStageProgram (p : Port) (q : Fin 16) (desc : BitVec 512) (data : List Byte) (parts : Option Vintage) (s : State) :
    Host.Outcome State Fault Refusal :=
  .next (
    let x : StageData := { bytes := data, parts := parts, signed := none }
    if dClass desc ≠ 0x20 then s
    else
      let s1 := if isWaiting s p q desc then s else takeClass s p q desc none 0x20
      stageData s1 p q desc x)

/-- STAGE_FIRMWARE (R311, R448). -/
def execStageFirmware (p : Port) (q : Fin 16) (desc second : BitVec 512) (data : List Byte) (signed : Option Bool) (s : State) :
    Host.Outcome State Fault Refusal :=
  .next (
    let x : StageData := { bytes := data, parts := none, signed := signed }
    if dClass desc ≠ 0x21 then s
    else
      let s1 := if isWaiting s p q desc then s else takeClass s p q desc (some second) 0x21
      stageData s1 p q desc x)

/-- Put the new image into the slot that the lane does not boot (R446, R448). -/
def buildSlot (b : Boot) (d : FwDelta) : Boot :=
  let b1 := putSlotState (putSlotVersion b (!b.slot) d.newVersion) (!b.slot) (if d.park then .parked else .valid)
  { b1 with otherImage := builtImage b.image b.delta, otherFloor := d.floor, delta := [] }

/-- The check of step 3 of R448: CRC-64/XZ of the built image, and its signature. -/
def buildOk (b : Boot) (d : FwDelta) (signed : Bool) : Bool :=
  signed && decide (crcOf crc64 (builtImage b.image b.delta) = d.newCheck.toNat)

/-- IMAGE_BUILD_DONE (R448 steps 3 to 5): APPLY where the built image fails its CRC or its signature, NOR_WRITE where its
read-back fails; then the lane boots the new image, or parks it and goes to TEST. -/
def execImageBuildDone (l : Lane) (signed writeOk : Bool) (s : State) : Host.Outcome State Fault Refusal :=
  .next (
    let b := (lane s l).boot
    match b.update with
    | none => s
    | some (d, _) =>
      if decide (b.step ≠ 3) then s
      else if decide (lst s l ≠ .isolated) || decide ((lane s l).life.planned ≠ .update) then endUpdate s l 0x0F
      else if !buildOk b d signed || !writeOk then
        let s1 := modLane s l (fun L => { L with life := { L.life with planned := .none } })
        endUpdate s1 l (if buildOk b d signed then 8 else 0x0D)
      else
        let s1 := modLane s l (fun L => { L with boot := { buildSlot L.boot d with step := 4 } })
        if d.park then
          modLane (enterTest s1 l .fromIsolated) l (fun L => { L with boot := { L.boot with step := 5 } })
        else
          let s2 := modLane s1 l (fun L => { L with boot := switchSlot L.boot })
          modLane (resetOne s2 l 0x06) l (fun L => { L with life := { L.life with startStep := 1 } }))

/-! ### ROM recovery (R451 to R453) -/

/-- The floor that the ROM applies: VERSION_FLOOR, or the highest version in the slot headers where the Cellar cannot be read
(R411, R452). -/
def romFloor (s : State) (l : Lane) : Nat :=
  if bothFailed s.cellar then max (lane s l).boot.slot0.toNat (lane s l).boot.slot1.toNat else s.cellar.life.versionFloor.toNat

/-- Reason for which the ROM does not take an image (R434, R452): its CRC-64/XZ is that of its bytes. -/
def romReason (s : State) (l : Lane) (i : FwImage) : Nat :=
  if crcOf crc64 i.data ≠ i.carried.toNat then 3 else if !i.signatureOk then 9 else if i.version.toNat < romFloor s l then 0x0B else 0

/-- UPD_ROM_STATUS (R455). -/
def romWord (st reason percent : Nat) : Word := pack [(0, st), (8, reason), (16, percent)]

/-- ROM_RECOVERY of the keeper (R404, R453): exit with a reason, a path and the version written. -/
def romRecord (s : State) (reason : Nat) (path : Byte) (v : Word) : State :=
  recordLane s (keeperLane s) 0x0704 (le 1 1 ++ le 1 reason ++ le 1 path.toNat ++ le 1 0 ++ le 4 v.toNat)

/-- The ROM takes an image that it accepts, or fails (R452). -/
def romTake (s : State) (l : Lane) (i : FwImage) (path : Byte) : State :=
  let r := romReason s l i
  let s1 := modLane s l (fun L => { L with boot := { L.boot with
    romStatus := if r = 0 then romWord 1 0 0 else romWord 4 r 0
    romImage := if r = 0 then some (i, path) else none } })
  if r = 0 then s1 else romRecord s1 r path 0

/-- The ROM runs and no image is being written. -/
def romIdle (s : State) (l : Lane) : Bool := (lane s l).life.rom && (lane s l).boot.romImage.isNone && decide (s.mod.st ≠ .off)

/-- The image that a ROM reads from host memory has the length of UPD_ROM_LEN (R452). -/
def romFetched (s : State) (l : Lane) (i : FwImage) : FwImage := { i with data := i.data.take (lane s l).boot.romLen.toNat }

/-- UPD_ROM_START (R451, R452): lane A through host port 0, lane B through host port 1. -/
def execUpdRomStart (l : Lane) (image : FwImage) (s : State) : Host.Outcome State Fault Refusal :=
  .next (
    match ringPort l with
    | none => s
    | some p =>
      if romIdle s l then romTake s l (romFetched s l image) (BitVec.ofNat 8 p.idx) else s)

/-- SERVICE_PORT_ROM_IMAGE (R451): every lane, by Harnal. -/
def execServicePortRomImage (l : Lane) (image : FwImage) (s : State) : Host.Outcome State Fault Refusal :=
  .next (if romIdle s l then romTake s l image 2 else s)

/-- RECOVERY ends in BOOT once no lane is in ROM recovery any more (R20). -/
def recoveryEnds (s : State) : State :=
  if s.mod.st = .recovery ∧ Lane.list.all (fun l => !(lane s l).life.rom) = true then setModule s .boot else s

/-- The ROM writes an image that it has loaded: UPD_ROM_STATUS shows WRITING from the next tick on, with a progress that no rule gives
(R455; DESIGN CHOICE, log entry 83). -/
def romTick (s : State) (l : Lane) : State :=
  if (lane s l).life.rom && (lane s l).boot.romImage.isSome then
    modLane { s with free := s.free + 1 } l (fun L => { L with boot := { L.boot with
      romStatus := romWord 2 0 ((Config.freeValue s.free).toNat % 101) } })
  else s

/-- ROM_IMAGE_WRITTEN (R20, R452): both slots hold the image and were read back; the lane resets into BOOT, with DONE in UPD_ROM_STATUS until
its firmware starts (R455; DESIGN CHOICE, log entry 83). -/
def execRomImageWritten (l : Lane) (readBackOk : Bool) (s : State) : Host.Outcome State Fault Refusal :=
  .next (
    match (lane s l).boot.romImage with
    | none => s
    | some (i, path) =>
      if !(lane s l).life.rom then s
      else if readBackOk then
        let s1 := modLane s l (fun L => { L with boot := { L.boot with
          slot0 := i.version, slot1 := i.version, st0 := .valid, st1 := .valid, floor := i.floor, otherFloor := i.floor
          image := i.data, otherImage := i.data, failed := 0, romImage := none } })
        let s2 := romRecord (addHistory s1 7 l.num i.version.toNat 0) 0 path i.version
        recoveryEnds (modLane (resetOne s2 l 0x08) l (fun L => { L with
          life := { L.life with startStep := 1 }, boot := { L.boot with romStatus := romWord 3 0 100 } }))
      else
        let s1 := modLane s l (fun L => { L with boot := { L.boot with romImage := none, romStatus := romWord 4 8 0 } })
        romRecord s1 8 path i.version)

end Sys2Proof.Machine
end

