-- ==== Sys2Proof/Machine/Racking.lean ====
section
/-!
DEFINITION. Racking (R151, R222, R346, R435 to R443): the checks, the switch with what it carries, its completion, the expiry of a
previous vintage.
-/

namespace Sys2Proof.Machine

/-! ### The checks (R435) -/

/-- VINTAGE, DIRECTION and PARAM_CHECK of a RACK (R305). -/
def rackVintage (d : BitVec 512) : Nat := dget d 0x18 4
def rackBack (d : BitVec 512) : Bool := decide (dget d 0x1C 1 = 1)
def rackCheckValue (d : BitVec 512) : Nat := dget d 0x20 8

/-- The three lanes' staged banks agree (R434). -/
def banksAgree (s : State) : Bool :=
  let f := fun l => let b := (lane s l).bank; (b.st, b.number, b.stagedCheck)
  decide (f .A = f .B) && decide (f .A = f .C)

/-- A carry map joins the two vintages (R441, R443). -/
def baseJoins (back : Bool) (active target : Vintage) : Bool :=
  decide (target.base = active.number) || (back && decide (active.base = target.number))

/-- Slots of a session in a vintage's schedules. -/
def sessionEntries (v : Vintage) (i : Nat) : List (List SlotEntry) := v.schedule.map (fun es => es.filter (fun e => decide (e.session = i)))

/-- Station or peer parameters of a session in a vintage. -/
def sessionParams (v : Vintage) (i : Nat) : Option StationCfg × Option PeerCfg :=
  ((if i < 512 then (v.stations.drop i).head? else none), (if 512 ≤ i then (v.peers.drop (i - 512)).head? else none))

/-- Every ADMITTED or OPENING session keeps its schedule entries, list index and SID (R222, R434). -/
def sessionsKept (ss : Sparse Session) (a b : Vintage) : Bool :=
  ss.all (fun e =>
    (decide (e.2.st ≠ .admitted) && decide (e.2.st ≠ .opening)) ||
    (decide (sessionEntries a e.1 = sessionEntries b e.1) &&
     decide ((sessionParams a e.1).1.map (fun x => (x.node, x.segment, x.sid)) = (sessionParams b e.1).1.map (fun x => (x.node, x.segment, x.sid))) &&
     decide ((sessionParams a e.1).2.map (fun x => (x.node, x.segment, x.sid)) = (sessionParams b e.1).2.map (fun x => (x.node, x.segment, x.sid)))))

/-- CODE_WORDS of a vintage (R429). -/
def codeWords (v : Vintage) : Nat := (v.code.map List.length).foldl (· + ·) 0

/-- W_SWITCH exceeds the window of R438; 12.8 GB/s are 128 bytes in 10 ns. -/
def switchTooLong (active target : Vintage) : Bool :=
  let work := 25000 * 128 + (4 * codeWords target + 729088) * 10
  let window := (periodUs active - (active.endLogic - active.endInput)) * 1000 - 40000
  decide (work > window * 128)

/-- Elements that a route names: those of its terms, and its start signal, approach and exit where it has one (R121, R151). -/
def routeElements (x : RouteRec) : List Nat :=
  ((x.terms.takeWhile (fun t => decide (tType t ≠ 0))).filter (fun t => decide (tType t ≠ 6))).map tElem ++
  (([x.startSignal, x.approach, x.exit] : List (BitVec 16)).filter (fun e => decide (e ≠ 0xFFFF))).map BitVec.toNat

/-- A held route has another record or other descriptors in the target (R151). -/
def heldRouteDiffers (a b : Vintage) (r : Nat) : Bool :=
  match sfind a.routes r, sfind b.routes r with
  | some x, some y =>
    decide ({ x with check := 0 } ≠ { y with check := 0 }) ||
    (routeElements x).any (fun e => decide ((sfind a.elements e).map elemBytes ≠ (sfind b.elements e).map elemBytes))
  | none, none => false
  | _, _ => true

/-- Phase boundaries and period differ, or TIMING_CHECK (R57, R434). -/
def timingDiffers (a b : Vintage) : Bool :=
  decide (a.timingCheck ≠ b.timingCheck) || decide (a.period ≠ b.period) || decide (a.endInput ≠ b.endInput) ||
  decide (a.endLogic ≠ b.endLogic) || decide (a.endVote ≠ b.endVote) || decide (a.endOutput ≠ b.endOutput)

/-- The partner is paired and holds another staged vintage (R346). -/
def partnerRefuses (s : State) (n : Nat) : Bool :=
  twinOn s && decide (s.twin.st = .active) && partnerPaired s && decide (s.twin.partnerStaged.toNat ≠ n)

/-- Step 4 of R435, in its order. -/
def rackReason4 (s : State) (l : Lane) (d : BitVec 512) (a b : Vintage) : Nat :=
  if partnerRefuses s (rackVintage d) then 0x29
  else if !baseJoins (rackBack d) a b then 0x22
  else if Lane.list.any (fun m => runs s m && decide ((lane s m).boot.version.toNat < b.minFw.toNat)) then 0x2A
  else if timingDiffers a b then 0x23
  else if decide (a.localIoCheck ≠ b.localIoCheck) || decide (a.localIo ≠ b.localIo) then 0x24
  else if !sessionsKept (lane s l).sessions a b then 0x25
  else if switchTooLong a b then 0x27
  else if (skeys (lane s l).raa.locks).any (heldRouteDiffers a b) then 0x26
  else 0

/-- A racking may be checked (R35, R468): the module is in SERVICE_3oo3 and no lane is REINTEGRATING. -/
def mayRack (s : State) : Bool := decide (s.mod.st = .svc3) && Lane.list.all (fun l => decide (lst s l ≠ .reintegrating))

/-- Verdict of a lane under R35 and R435, on what the lane itself holds: status and reason; none: accepted. -/
def rackVerdict (s : State) (l : Lane) (d : BitVec 512) : Option (Nat × Nat) :=
  let k := (lane s l).bank
  let back := rackBack d
  let right := decide (k.number.toNat = rackVintage d) &&
    (if back then decide (k.st = .previous) else decide (k.st = .staged))
  let lapsed := back && decide (k.lapsed.map BitVec.toNat = some (rackVintage d))
  if !mayRack s then some (0x1C, 0)
  else if k.rackTo.isSome then some (0x3B, 0x2B)
  else match k.active, k.staged with
    | some a, some b =>
      if !right then some (0x3B, if lapsed then 0x28 else 0x20)
      else if back && decide (s.mod.tickTime.toNat ≥ k.expiry.toNat) then some (0x3B, 0x28)
      else if !banksAgree s then some (0x3B, 0x21)
      else if rackCheckValue d ≠ k.stagedCheck.toNat then some (0x3A, 0)
      else
        let r := rackReason4 s l d a b
        if r = 0 then none else some (0x3B, r)
    | _, _ => some (0x3B, if lapsed then 0x28 else 0x20)

/-- UPD_RACK (R455). -/
def rackWord (s : State) (reason : Nat) (back done : Bool) : Word :=
  pack [(0, reason), (8, bit back), (9, bit done), (16, (cycle16 s).toNat)]

/-- RACK_REFUSED (R404, R453). -/
def rackRefused (s : State) (l : Lane) (t : Taken) (status reason : Nat) : State :=
  let s1 := modLane s l (fun L => { L with bank := { L.bank with rackReg := rackWord s reason (rackBack t.desc) false } })
  let s2 := recordLane s1 l 0x0702 (le 4 (rackVintage t.desc) ++ le 1 status ++ le 1 reason ++
    le 1 (128 * t.ref.port.idx + t.ref.sq.val) ++ le 1 0 ++ le 2 t.ref.tag.toNat ++ le 2 0)
  finishLane s2 l t.ref (outcomeNow s status (resultOf t.ref 1 reason))

/-- The lane whose state decides a RACK for a lane: its own where it computes, else that of the reference lane (R435). -/
def rackJudge (s : State) (l : Lane) : Lane := if computes s l then l else refLane s

/-- One RACK is checked at the end of the RAA work of its cycle, in each lane against its own state (R435). -/
def rackCheck (s : State) (t : Taken) : State :=
  foldS (Lane.list.filter (runs s)) (fun u l =>
    match rackVerdict s (rackJudge s l) t.desc with
    | some (st, r) => rackRefused u l t st r
    | none => modLane u l (fun L => if computes s l then { L with bank := { L.bank with rackTo := some (t, rackBack t.desc) } } else L)) s

/-! ### What is carried (R441, R442) -/

/-- The carry map of a switch: that of the target, or that of the active vintage inverted (R443). -/
def carryMap (back : Bool) (a b : Vintage) : List CarryEntry :=
  if decide (b.base = a.number) then b.carry
  else if back then a.carry.map (fun e => { e with newStart := e.oldStart, oldStart := e.newStart })
  else []

/-- Entries of one space. -/
def carryOf (m : List CarryEntry) (space : Nat) : List CarryEntry := m.filter (fun e => decide (e.space.toNat = space))

/-- Carried bits of a space. -/
def carryBits (m : List CarryEntry) (b : BitSpace) : BitSpace :=
  m.foldl (fun acc e =>
    (brange b e.oldStart (e.oldStart + e.length)).foldl (fun acc i => bset acc (e.newStart + (i - e.oldStart))) acc) []

/-- Carried records of a space. -/
def carryRecs {α : Type} [DecidableEq α] (d : α) (m : List CarryEntry) (x : Sparse α) : Sparse α :=
  m.foldl (fun acc e =>
    (x.filter (fun r => decide (e.oldStart ≤ r.1) && decide (r.1 < e.oldStart + e.length))).foldl
      (fun acc r => sput d acc (e.newStart + (r.1 - e.oldStart)) r.2) acc) []

/-- An index is mapped. -/
def mappedNew (m : List CarryEntry) (i : Nat) : Bool := m.any (fun e => decide (e.newStart ≤ i) && decide (i < e.newStart + e.length))

/-- Marks of edge memories: a mapped one keeps its mark, an unmapped one is new (R442). -/
def carryMarks (m : List CarryEntry) (marks : BitSpace) : BitSpace :=
  let kept := carryBits m marks
  (List.range 65536).filter (fun i => !mappedNew m i || bget kept i)

/-- Press data after the switch (R442): Q, LQ and inputs by index. -/
def carryData (m : List CarryEntry) (d : PressData) : PressData :=
  { d with
    m := carryBits (carryOf m 3) d.m, t := carryRecs TimerRec.reset (carryOf m 4) d.t
    c := carryRecs CounterRec.reset (carryOf m 5) d.c, e := carryBits (carryOf m 6) d.e
    w := carryRecs 0 (carryOf m 7) d.w, k := vput d.k 3 true }

/-- Elements whose KIND changes take the start values of R125 (R442). -/
def carryElems (a b : Vintage) (x : Sparse ElemState) : Sparse ElemState :=
  x.filter (fun e => decide (kindOf a e.1 = kindOf b e.1))

/-- One lane switches (R436, R442); its token buckets are full again (R412). -/
def switchLane (back : Bool) (now : Time) (L : LaneState) : LaneState :=
  match L.bank.active, L.bank.staged with
  | some a, some b =>
    let m := carryMap back a b
    { L with
      bank := { swapBanks L.bank with rackTo := none, rackDone := L.bank.rackTo, left := a.number, lapsed := none, expiry := timeAdd now 3600000000000 }
      press := { L.press with data := carryData m L.press.data, newEdges := carryMarks (carryOf m 6) L.press.newEdges }
      raa := { L.raa with elems := carryElems a b L.raa.elems }
      sessions := configSessions b L.sessions
      cel := bucketsFull L.cel }
  | _, _ => L

/-- VINTAGE_SWITCH (R436, R439): in the input phase of the cycle after the check. -/
def execVintageSwitch (l : Lane) (s : State) : Host.Outcome State Fault Refusal :=
  .next (
    match (lane s l).bank.rackTo with
    | none => s
    | some (_, back) =>
      if decide (s.mod.phase = .input) then
        let s1 := modLane s l (switchLane back s.mod.tickTime)
        if l = refLane s then
          match laneVintage s1 l with
          | some v =>
            { s1 with alk := { s1.alk with media := configMedia v s1.cellar.life.retiredMedia s1.alk.media } }
          | none => s1
        else s1
      else s)

/-! ### The end of a racking (R439) -/

/-- RACKED and UPD_RACK of one lane; the staged bank enters PREVIOUS, unless a staging that waited for the switch has taken it; the RACK completes (R404, R439, R453). -/
def rackedLane (s : State) (l : Lane) : State :=
  match (lane s l).bank.rackDone with
  | none => s
  | some (t, back) =>
    let b := (lane s l).bank
    let new := match b.active with | some v => v.number | none => 0
    let s1 := modLane s l (fun L => { L with bank := { L.bank with
      st := if L.bank.staged.isSome then .previous else L.bank.st, rackDone := none, rackReg := rackWord s 0 back true } })
    let s2 := eventLane s1 l 161 0x0701 (le 4 b.left.toNat ++ le 4 new.toNat ++ le 1 (bit back) ++ le 3 0 ++ le 8 b.activeCheck.toNat)
    finishLane s2 l t.ref (outcomeNow s 0x05 (resultOf t.ref 0 0))

/-- From the output phase of cycle k+2: the lanes complete, and the keeper writes the new vintage as confirmed with its history
entry (R419, R439). -/
def rackFinish (s : State) : State :=
  match (lane s (refLane s)).bank.rackDone, vintageOf s with
  | some (_, back), some v =>
    let check := (lane s (refLane s)).bank.activeCheck
    let s1 := modPages s [6] (fun f => { f with confirmed := v.number, confirmedCheck := check })
    let s2 := addHistory s1 (if back then 5 else 4) 0 v.number.toNat check
    foldS Lane.list rackedLane s2
  | _, _ => foldS Lane.list rackedLane s

/-- A lane that has not switched by END_INPUT gives its switch up (R439). -/
def dropSwitch (s : State) : State := modLanes s (fun _ L => { L with bank := { L.bank with rackTo := none } })

/-- PREVIOUS_EXPIRED (R443): at the first tick at or after the hour; a racking back to the vintage that has gone is then refused with
PREVIOUS_EXPIRED. -/
def execPreviousExpired (s : State) : Host.Outcome State Fault Refusal :=
  .next (modLanes s (fun _ L =>
    if L.bank.st = .previous ∧ s.mod.tickTime.toNat ≥ L.bank.expiry.toNat then
      { L with bank := { emptyBank L.bank 0 with reason := L.bank.reason, lapsed := some L.bank.number } }
    else L))

end Sys2Proof.Machine
end

