-- ==== Sys2Proof/Machine/HostTick.lean ====
section
/-!
DEFINITION. The batch of a cycle (R130, R240, R308, R311 to R314, R345, R415, R477, R481): what the tick does with it, and what the
end of the logic phase does.
-/

namespace Sys2Proof.Machine

/-! ### Entries (R129, R130, R314) -/

/-- Descriptors of the batch that have not started, in the order of R130. -/
def batchTaken (L : LaneState) : List Taken :=
  [Port.p0, Port.p1].flatMap (fun p => (List.range 16).flatMap (fun q => L.mbx.taken.filter (fun t =>
    decide (t.ref.port = p) && decide (t.ref.sq.val = q) && t.inBatch && !t.started && !t.replay)))

/-- A STAGE_PROGRAM of a batch with a RACK waits for that RACK's check, and for the switch of one that has been accepted (R440). -/
def waitsForRack (s : State) (ts : List Taken) (t : Taken) : Bool :=
  decide (t.ref.cls = 0x20) && (ts.any (fun u => decide (u.ref.cls = 0x22)) || rackWaits s)

/-- Status of a command that may not be executed at its tick (R308); none: it may. -/
def tickRefusal (s : State) (t : Taken) : Option Nat :=
  if t.ref.epoch ≠ epochNow s then some 0x30 else if !stateAllows s t.ref.cls.toNat then some 0x1C else none

/-- The descriptor's place in the RAA queue (R129). -/
def entryOf (t : Taken) : QEntry :=
  let c := t.ref.cls.toNat
  { kind := if c = 1 then .rreq else if c = 2 then .rcan else .ecmd
    item := dget t.desc 0x18 2, cmd := if c = 3 then dget t.desc 0x1A 1 else 0, src := .host t.ref }

/-- ROUTE_REQUEST, ROUTE_CANCEL and ELEMENT_COMMAND. -/
def isRaaClass (c : Nat) : Bool := decide (1 ≤ c) && decide (c ≤ 3)

/-- Reference of a forwarded command: port, ring and tag are all that the STANDBY knows (R339). -/
def fwdRef (w : FwdCmd) : HostRef :=
  { port := w.port, sq := w.sq, cq := 0, cls := w.cls, irq := false, tag := w.tag, epoch := 0, sequence := 0, code := 0, order := 0 }

/-- A forwarded command as a queue entry (R339, R345). -/
def fwdEntry (w : FwdCmd) : QEntry :=
  let c := w.cls.toNat
  { kind := if c = 1 then .rreq else if c = 2 then .rcan else .ecmd
    item := w.arg.toNat, cmd := if c = 3 then w.arg2.toNat else 0, src := .host (fwdRef w) }

/-- A forwarded RACK or STATION_ADMIT as a descriptor (R305, R339). -/
def fwdTaken (w : FwdCmd) : Taken :=
  let rackBits := w.arg2.toNat * 2 ^ (8 * 0x1C) + w.ext.toNat / 2 ^ 96 * 2 ^ (8 * 0x18) + w.ext.toNat % 2 ^ 64 * 2 ^ (8 * 0x20)
  let admitBits := w.arg.toNat * 2 ^ (8 * 0x18) + w.arg2.toNat * 2 ^ (8 * 0x1A)
  { ref := fwdRef w
    desc := BitVec.ofNat 512 (w.cls.toNat + (if w.cls = 0x22 then rackBits else admitBits))
    cqEpoch := 0, inBatch := true, started := true, replay := false, fenceSeen := false, keyVersion := 0, nonce := 0, data := none, feed := .waiting }

/-- The module takes its batch from the ACTIVE (R345): it holds entry words of the batch only where it was a STANDBY in the cycle before,
also after a handover at this tick. -/
def followsBatch (s : State) : Bool := twinOn s && (standby s.twin.st || Lane.list.any (fun l => !(ownTwin s l).words.isEmpty))

/-- Forwarded RACK words act in a STANDBY that is paired, as at the tick of their batch; while the partner is not paired, the RACK proceeds
in the ACTIVE alone (R346). -/
def followsRack (s : State) : Bool := followsBatch s && (decide (s.twin.st = .paired) || decide (s.twin.st = .active))

/-- RAA entries that the batch brings to a lane (R130, R345). -/
def hostEntries (s : State) (l : Lane) (ts : List Taken) : List QEntry :=
  if followsBatch s then ((ownTwin s l).words.filter (fun w => isRaaClass w.cls.toNat)).map fwdEntry
  else (ts.filter (fun t => isRaaClass t.ref.cls.toNat && (tickRefusal s t).isNone)).map entryOf

/-- The queue of the new cycle (R130): held-over entries, Press entries, host entries. -/
def formQueue (L : LaneState) (host : List QEntry) : LaneState :=
  let q := L.raa.queue ++ L.press.issued ++ host
  { L with raa := { L.raa with queue := q, length := q.length }, press := { L.press with issued := [] } }

/-- A command of the application that has started: a process command, or a RACK that waits (R1, R305). -/
def startedCommand (t : Taken) : Bool := t.started && !t.replay && (isProcess t.ref.cls.toNat || decide (t.ref.cls = 0x22))

/-- Outside the operating states every command that has started, or is held over in the queue, completes with MODULE_STATE, and what the
Press has asked for is gone (R1, R21, R134). -/
def refuseStarted (s : State) (l : Lane) : State :=
  if operating s.mod.st then s
  else
    let s1 := foldS ((lane s l).mbx.taken.filter startedCommand) (fun s t =>
      finishLane s l t.ref (outcomeNow s 0x1C (refusalResult t.ref t.desc))) s
    modLane s1 l (fun L => { L with
      raa := { L.raa with queue := [] }, press := { L.press with issued := [] }, bank := { L.bank with rackTo := none } })

/-- One lane at the tick: its batch starts, what may not be executed completes, and the queue forms where the RAA decides (R308,
R314, R354). -/
def laneBatch (s : State) (l : Lane) : State :=
  let ts := (batchTaken (lane s l)).filter (fun t => !waitsForRack s (batchTaken (lane s l)) t)
  let refs := ts.map (·.ref)
  let s1 := modLane s l (fun L => { L with mbx := { L.mbx with
    taken := L.mbx.taken.map (fun t => if refs.contains t.ref then { t with started := true } else t) } })
  let s2 := foldS ts (fun s t => match tickRefusal s t with
    | some st => finishLane s l t.ref (outcomeNow s st (refusalResult t.ref t.desc))
    | none => s) (refuseStarted s1 l)
  if computes s l && decide (s.twin.st ≠ .loading) then modLane s2 l (fun L => formQueue L (hostEntries s l ts)) else s2

/-! ### TIME_SET (R477) -/

/-- Start times of a lane move with the step. -/
def shiftLane (d : Int) (L : LaneState) : LaneState :=
  let timers := L.press.data.t.foldl (fun m e =>
    sput TimerRec.reset m e.1 (if e.2.run then { e.2 with start := startShift e.2.start d } else e.2)) []
  let elems := L.raa.elems.foldl (fun m e => sput ElemState.reset m e.1 { e.2 with changeTime := startShift e.2.changeTime d }) []
  let locks := L.raa.locks.foldl (fun m e => sputAny m e.1 { e.2 with
    time := startShift e.2.time d, ovl := e.2.ovl.map (fun t => startShift t d), cancel := e.2.cancel.map (fun t => startShift t d) }) []
  let sess := L.sessions.foldl (fun m e => sput Session.reset m e.1
    (if 512 ≤ e.1 then { e.2 with lastAt := startShift e.2.lastAt d } else e.2)) []
  { L with
    press := { L.press with data := { L.press.data with t := timers } }
    raa := { L.raa with elems := elems, locks := locks }
    sessions := sess
    bank := { L.bank with expiry := timeShift L.bank.expiry d } }

/-- Payload of PARAM_CONFIRMED and TIME_SET after their first 16 bytes (R486). -/
def cmdPayload (r : HostRef) : List Byte := le 1 (portSq r) ++ le 1 0 ++ le 2 r.tag.toNat

/-- The step of a TIME_SET at the tick: time, stored start times, record, history (R476, R477, R486). DESIGN CHOICE (log entry 76): the time
from which a STANDBY loads again (R356) stands as a global time and does not move with the step. -/
def applyTime (s : State) (r : HostRef) (new : Time) : State :=
  let old := s.mod.tickTime
  let d : Int := (new.toNat : Int) - old.toNat
  let s1 := modLanes { s with mod := { s.mod with tickTime := new, timeUnsure := false }
                              alk := { s.alk with t0 := timeShift s.alk.t0 d } } (fun _ L => shiftLane d L)
  let s2 := addHistory (modLife s1 (fun f => { f with timeSets := satInc f.timeSets })) 8 0 0 old new
  foldS (Lane.list.filter (runs s)) (fun s l => recordLane s l 0x0709
    (le 8 old.toNat ++ le 8 new.toNat ++ cmdPayload r ++ le 4 0)) s2

/-- NEW_TIME of a TIME_SET. -/
def newTime (d : BitVec 512) : Time := BitVec.ofNat 64 (dget d 0x18 8)

/-! ### CONFIRM_PARAMETERS (R481) -/

/-- Every lane in SERVING holds this vintage as active with this parameter check value. -/
def confirmOk (s : State) (number : Nat) (check : Nat) : Bool :=
  decide (servingLanes s ≠ []) && (servingLanes s).all (fun l =>
    decide ((lane s l).bank.activeCheck.toNat = check) &&
    (match laneVintage s l with | some v => decide (v.number.toNat = number) | none => false))

/-- The start-up tests begin (R479). -/
def startTests (s : State) : State :=
  modSluices { s with mod := { s.mod with testsFrom := some s.mod.cycle, fieldTest := .running, voteTest := true, testsPassed := false } }
    (fun _ x => { x with closeDone := false, closeOk := false })

/-- One CONFIRM_PARAMETERS at its tick (R481). -/
def confirmNow (s : State) (t : Taken) : State :=
  let number := dget t.desc 0x18 4
  let check := dget t.desc 0x20 8
  let value := (lane s (refLane s)).bank.activeCheck
  let result := resultOf t.ref 8 value.toNat
  if confirmOk s number check then
    let s1 := modPages s [6] (fun f => { f with confirmed := BitVec.ofNat 32 number, confirmedCheck := BitVec.ofNat 64 check })
    let s2 := addHistory s1 6 0 number (BitVec.ofNat 64 check)
    let s3 := foldS (Lane.list.filter (runs s)) (fun s l => recordLane s l 0x0708
      (le 4 number ++ le 4 0 ++ le 8 check ++ cmdPayload t.ref ++ le 2 t.keyVersion.toNat ++ le 2 0)) s2
    finishAll (if s.mod.st = .commissioning then startTests (setModule s3 .starting) else s3) t.ref (outcomeNow s 0x05 result)
  else finishAll s t.ref (outcomeNow s 0x3A result)

/-! ### The tick (R314) -/

/-- CELLAR_CLEAR at its tick (R415, R416). -/
def clearNow (s : State) (t : Taken) : State :=
  let x := celClear s t.ref t.keyVersion t.nonce
  finishAll x.1 t.ref (outcomeNow s (if x.2 then 0x05 else 0x3E) (resultOf t.ref 0 0))

/-- A command of the batch that acts at the tick or starts with it. -/
def actAtTick (s : State) (t : Taken) : State :=
  let c := t.ref.cls.toNat
  if c = 0x24 then
    finishAll (applyTime s t.ref (newTime t.desc)) t.ref
      { status := 0x05, term := 0x7F, cycle := s.mod.cycle, time := newTime t.desc, result := resultOf t.ref 8 (newTime t.desc).toNat }
  else if c = 0x12 then clearNow s t
  else if c = 0x20 ∨ c = 0x21 then runChunk s t
  else if c = 0x23 then confirmNow s t
  else s

/-- Where a command stands among those that act at one tick: the time step comes first and CONFIRM_PARAMETERS last (R485). -/
def tickRank (t : Taken) : Nat := if t.ref.cls = 0x24 then 0 else if t.ref.cls = 0x23 then 2 else 1

/-- The batch at the tick of its cycle (R314, R345): the reference lane's copy stands for what acts on the whole module. -/
def hostTick (s : State) : State :=
  let all := batchTaken (lane s (refLane s))
  let ts := all.filter (fun t => !waitsForRack s all t && (tickRefusal s t).isNone)
  let s1 := foldS (Lane.list.filter (runs s)) laneBatch s
  let fwd := if followsBatch s then (ownTwin s (refLane s)).words.filter (fun w => decide (w.cls = 0x24)) else []
  let s2 := foldS fwd (fun s w => applyTime s (fwdRef w) (w.ext.setWidth 64)) s1
  foldS [0, 1, 2] (fun s k => foldS (ts.filter (fun t => decide (tickRank t = k))) actAtTick s) s2

/-! ### The end of the logic phase (R240, R241, R314, R435) -/

/-- STATION_ADMIT in one lane: SESSION_STATE where it was not done (R240, R315, R317). -/
def admitOne (v : Vintage) (l : Lane) (s : State) (t : Taken) : State :=
  let i := dget t.desc 0x18 2
  let x := admitHost v s l i (dget t.desc 0x1A 1)
  finishLane x.1 l t.ref (outcomeNow s (if x.2 then 0x05 else 0x39)
    (resultOf t.ref 6 (i + 65536 * sessCode (sessOf (lane x.1 l) i).st)))

/-- STATION_ADMIT commands of the cycle in one lane. -/
def admitBatch (v : Vintage) (s : State) (l : Lane) : State :=
  let own := (lane s l).mbx.taken.filter (fun t => t.started && decide (t.ref.cls = 4) && !t.replay)
  let fwd := if followsBatch s then ((ownTwin s l).words.filter (fun w => decide (w.cls = 4))).map fwdTaken else []
  foldS (own ++ fwd) (admitOne v l) s

/-- RACK commands of the cycle that have not been checked (R435). -/
def rackBatch (s : State) : List Taken :=
  let L := lane s (refLane s)
  let is := fun (x : Option (Taken × Bool)) (t : Taken) => match x with | some (u, _) => decide (u.ref = t.ref) | none => false
  L.mbx.taken.filter (fun t => t.started && decide (t.ref.cls = 0x22) && !t.replay && !is L.bank.rackTo t && !is L.bank.rackDone t) ++
  (if followsRack s then ((ownTwin s (refLane s)).words.filter (fun w => decide (w.cls = 0x22))).map fwdTaken else [])

/-- An accepted racking has switched in this cycle, or was to (R439, R440). -/
def switchedNow (s : State) : Bool := rackWaits s || Lane.list.any (fun l => (lane s l).bank.rackDone.isSome)

/-- One staging that waited for a RACK starts, unless the epoch or the module state in force refuses it (R308); a refused one makes way for
those behind it. -/
def startStage (s : State) (t : Taken) : State :=
  match tickRefusal s t with
  | some st => runChunk (finishAll s t.ref (outcomeNow s st (refusalResult t.ref t.desc))) t
  | none => runChunk s t

/-- Stagings that waited for a RACK start: at the end of the logic phase where it was refused, at END_INPUT where it has switched (R308,
R440). -/
def releaseStages (s : State) : State :=
  if rackWaits s then s
  else
    let ts := (batchTaken (lane s (refLane s))).filter (fun t => decide (t.ref.cls = 0x20))
    let refs := ts.map (·.ref)
    let s1 := modLanes s (fun _ L => { L with mbx := { L.mbx with
      taken := L.mbx.taken.map (fun t => if refs.contains t.ref then { t with started := true } else t) } })
    foldS ts startStage s1

end Sys2Proof.Machine
end

