-- ==== Sys2Proof/Machine/Tick.lean ====
section
/-!
DEFINITION. The tick (R20, R50 to R53, R82, R92, R130, R196, R418, R419, R474, R475, R479, R515): the cycle that ended, count and
time, module start, release, roles, the batch.
-/

namespace Sys2Proof.Machine

/-! ### The cycle that has ended (R112, R115, R155, R156, R160) -/

/-- End of the RAA work in µs after the tick: the later of the last decision slot and the end of the re-proof (R60, R133,
R160). The re-proof counts every route held at END_INPUT + 20 µs, also where an RCAN has ended the proofs of the last ranks (DESIGN
CHOICE, log entry 21). -/
def workEndOf (v : Vintage) (r : Raa) : Nat :=
  v.endInput + 20 + max (2 * r.decided) (60 * r.proved / 1000)

/-- The reports of one lane on the cycle that it has completed; PRS_DONE_CLK and LANE_LOGIC_PEAK take it where the Press ran (R76, R112,
R354), LANE_RAA_PEAK always (R160). In STANDBY_LOADING, without decisions or re-proof, the RAA registers show END_INPUT + 20 µs and
nothing held over (DESIGN CHOICE, log entry 22). -/
def closeReports (L : LaneState) : LaneState :=
  let p := L.press
  let r := L.raa
  let mark := match p.done with | some n => n | none => 0
  let raaEnd := match L.bank.active with | some v => workEndOf v r | none => 0
  let rm := match L.bank.active with | some v => reqMax v | none => 0
  { L with
    press := { p with
      calls := BitVec.ofNat 32 (p.entered.toNat + 65536 * p.dropped.toNat), entered := 0, dropped := 0, done := none
      strands := mapStrands (fun x => { x with doneClk := if mark = 0 then x.doneClk else x.endClk, endClk := 0, running := false, ended := false }) p.strands }
    raa := { r with
      queueReg := pack [(0, r.length), (16, r.length - rm)], decidedReg := pack [(0, r.decided), (16, r.refused)]
      holdoverPeak := max r.holdoverPeak (r.length - rm)
      workEnd := raaEnd }
    logicPeak := if mark = 0 then L.logicPeak else max L.logicPeak (clockOffset L mark)
    raaPeak := max L.raaPeak raaEnd }

/-- A lane that has not completed the cycle: its ENDED bits and its mark are those of no cycle (R112, R113). -/
def clearEnded (L : LaneState) : LaneState :=
  { L with press := { L.press with done := none, strands := mapStrands (fun x => { x with ended := false }) L.press.strands } }

/-- The digest of the cycle that ends, where its image was agreed (R360). -/
def keepDigest (s : State) : State :=
  match cycleImage s with
  | some m => modTwin s (fun t => { t with digest := stateDigest m.area })
  | none => s

/-- The reports of the lanes that computed, and the cycle's digest. -/
def closeCycle (s : State) : State :=
  let s1 := modLanes (keepDigest s) (fun l L => if computes s l && L.press.done.isSome then closeReports L else clearEnded L)
  eicLevelAll s1 19 (decide (field (lane s1 (refLane s1)).raa.queueReg 28 16 > 0))

/-! ### Count and time (R50 to R53) -/

/-- The new cycle: the first tick keeps the count and time that it was given. -/
def nextCount (s : State) : State :=
  let m := s.mod
  { s with mod := { m with
    cycle := if m.firstTick then m.cycle else m.cycle + 1
    tickTime := if m.firstTick then m.tickTime else timeAdd m.tickTime (periodNs s)
    firstTick := false, phase := .input, refreshes := 0, result := none
    sinceStart := m.sinceStart.map (· + 1) } }

/-! ### Lifetime counts and measurements (R418, R419, R515) -/

/-- Operating and service time grow by the period. -/
def countTime (s : State) : State :=
  let t := periodNs s
  modLife s (fun f => { f with
    opNs := f.opNs + t, svcNs := if inService s.mod.st then f.svcNs + t else f.svcNs
    svc2Ns := if s.mod.st = .svc2 then f.svc2Ns + t else f.svc2Ns })

/-- A byte as a temperature. -/
def tempOf (x : BitVec 8) : Int := x.toInt

/-- The higher of two temperatures. -/
def hotter (a b : BitVec 8) : BitVec 8 := if tempOf a ≥ tempOf b then a else b

/-- A lane's measurements from a free value: the spec gives no measured value. -/
def measureLane (x : BitVec 64) (p : Pwr) : Pwr :=
  let t : BitVec 8 := x.setWidth 8
  let top := if p.sampled then hotter ((p.temp >>> 16).setWidth 8) t else t
  { p with
    temp := BitVec.ofNat 24 (x.toNat % 65536 + 65536 * top.toNat), sampled := true
    coreMv := (x >>> 16).setWidth 12, v3Mv := (x >>> 28).setWidth 12, ioMv := (x >>> 40).setWidth 12
    anaMv := (x >>> 52).setWidth 12 }

/-- Temperature band of lifetime page 2. -/
def bandOf (t : Int) : Nat := if t < -40 then 0 else if t ≥ 120 then 17 else ((t + 50) / 10).toNat

/-- Page 2 takes a lane's temperature: the first sample is its lowest and its highest. -/
def notePage2 (s : State) (l : Lane) : State :=
  let t : BitVec 8 := (lane s l).pwr.temp.setWidth 8
  let w : BitVec 16 := t.signExtend 16
  modLife s (fun f =>
    let first := !f.tempSeen.get l
    { f with
      tempLow := if first || decide (w.toInt < (f.tempLow.get l).toInt) then f.tempLow.set l w else f.tempLow
      tempHigh := if first || decide (w.toInt > (f.tempHigh.get l).toInt) then f.tempHigh.set l w else f.tempHigh
      tempSeen := f.tempSeen.set l true })

/-- The measurements of a whole second: one free value for each lane whose service core runs. -/
def measureAll (s : State) : State :=
  let on := Lane.list.filter (runs s)
  let s1 := foldS on (fun s l =>
    modLane { s with free := s.free + 1 } l (fun L => { L with pwr := measureLane (Config.freeValue s.free) L.pwr })) s
  let s2 := foldS on notePage2 s1
  match on with
  | [] => s2
  | l :: r =>
    let t := fun (l : Lane) => ((lane s2 l).pwr.temp.setWidth 8 : BitVec 8)
    let top := r.foldl (fun a l => hotter a (t l)) (t l)
    modLife s2 (fun f => { f with tempBands := smod 0 f.tempBands (bandOf (tempOf top)) satInc })

/-- Global time has passed into another second since the last tick. -/
def measureDue (before after : Time) : Bool := decide (after.toNat / 1000000000 ≠ before.toNat / 1000000000)

/-- The keeper of the new cycle (R418). -/
def nextKeeper (s : State) : State :=
  let k := match servingLanes s with
    | l :: _ => some l
    | [] => match Lane.list.filter (fun l => runs s l && !(lane s l).life.rom) with
      | l :: _ => some l
      | [] => s.cellar.keeper
  { s with cellar := { s.cellar with keeper := k } }

/-! ### Module start, tests and release (R20, R82, R411, R474, R475, R479) -/

/-- The active vintage is the confirmed one, by its number and its parameter check value (R92, R481, R488). -/
def confirmedNow (s : State) : Bool :=
  match vintageOf s with
  | some v => decide (v.number = s.cellar.life.confirmed) &&
      decide ((lane s (refLane s)).bank.activeCheck = s.cellar.life.confirmedCheck)
  | none => false

/-- Lanes in SYNC. -/
def syncLanes (s : State) : List Lane := Lane.list.filter (fun l => decide (lst s l = .sync))

/-- A lane in SYNC becomes SERVING at the module start tick (R474). -/
def startLane (s : State) (l : Lane) : State :=
  let s1 := modLane s l (fun L => { L with life := { L.life with st := .serving, startStep := 0 } })
  let s2 := modSluices s1 (fun _ x => { x with voting := vput x.voting l.idx true })
  eventAll s2 2 0x0102 (lanePayload s2 l false)

/-- OPERATING_S counts on the lane clocks before the ticks too (R419); how long a start takes is open (DESIGN CHOICE, log entry 84). -/
def countStart (s : State) : State :=
  modLife { s with free := s.free + 1 } (fun f => { f with opNs := f.opNs + (Config.freeValue s.free).toNat })

/-- The module leaves BOOT (R20, R474): with both Cellar devices FAILED it stays in COMMISSIONING (R411). The synced lanes have joined, which
raises the version floor (R445). -/
def moduleStart (s : State) : State :=
  let on := syncLanes s
  let s1 := foldS on startLane (countStart { s with mod := { s.mod with sinceStart := some 0, bootInto := 0 } })
  let s2 := foldS on floorRaise s1
  latchRule (if confirmedNow s2 && !bothFailed s2.cellar then startTests (setModule s2 .starting) else setModule s2 .commissioning)

/-- A tick in BOOT (R474, R475): the lanes enter SYNC, and at the first tick after that the module starts. -/
def bootTick (s : State) (first : Bool) : State :=
  if first || decide ((syncLanes s).length < 2) then lanesSync s else moduleStart s

/-- Cycles since the start-up tests began. -/
def testCycles (s : State) : Option Nat := s.mod.testsFrom.map (fun c => (s.mod.cycle - c).toNat)

/-- A serving lane reports the field die as configured with the vintage's configuration (R262, R479). -/
def fieldConfigured (s : State) (l : Lane) : Bool :=
  serving s l &&
  (match laneVintage s l, (lane s l).fld.last with
   | some v, some u => u.configured && decide (u.cfgCheck = cfgCheckOf (some v.localIo))
   | _, _ => false)

/-- The field configuration test ends after two cycles, passed or in a field fault (R479): two serving lanes see the
configuration in force. -/
def fieldTestTick (s : State) : State :=
  match testCycles s with
  | none => s
  | some n =>
    if s.mod.fieldTest ≠ .running ∨ n < 2 then s
    else if s.field.fault.isNone ∧ (Lane.list.filter (fieldConfigured s)).length ≥ 2 then
      { s with mod := { s.mod with fieldTest := .passed } }
    else
      let s1 := latchFault s .configMismatch
      { s1 with mod := { s1.mod with fieldTest := .failed } }

/-- A Sluice whose lane does not serve in its test cycle has nothing to test (R479). -/
def closeTestTick (s : State) : State :=
  match testCycles s with
  | none => s
  | some n => modSluices s (fun l x =>
      if n ≥ 3 + l.idx ∧ serving s l = false ∧ x.closeDone = false then { x with closeDone := true, closeOk := true } else x)

/-- The three tests have ended (R479). -/
def testsEnded (s : State) : Bool :=
  match testCycles s with
  | none => false
  | some n => decide (n ≥ 5) && decide (s.mod.fieldTest ≠ .running) &&
      (servingLanes s).all (fun l => (s.sluices.get l).closeDone)

/-- Every test has passed (R488). -/
def testsGood (s : State) : Bool :=
  s.mod.voteTest && decide (s.mod.fieldTest = .passed) && Lane.list.all (fun l => (s.sluices.get l).closeOk)

/-- The first entry into a service state (R419). -/
def noteService (s : State) : State :=
  modLife s (fun f => { f with firstService := if f.firstService = 0 then s.mod.tickTime else f.firstService })

/-- STARTING ends (R20, R82): released says that the last voted image carried M bit 0. -/
def releaseTick (s : State) (released : Bool) : State :=
  let s1 := closeTestTick (fieldTestTick s)
  if testsEnded s1 then
    let s2 := { s1 with mod := { s1.mod with testsPassed := testsGood s1 } }
    if released then noteService (setModule s2 (if (servingLanes s2).length = 3 then .svc3 else .svc2)) else s2
  else s1

/-- The module state at the tick. -/
def stateTick (s : State) (first released : Bool) : State :=
  match s.mod.st with
  | .boot => bootTick s first
  | .starting => releaseTick s released
  | _ => s

/-! ### Lanes and Sluices at the tick -/

/-- A firmware update of a lane that has gone out for another cause, or is retired, is abandoned, as is one that runs when the module
enters SAFE (R34, R434). -/
def abandonUpdate (s : State) (l : Lane) : State :=
  let L := lane s l
  if L.boot.update.isSome &&
      ((decide (L.life.st = .isolated) && decide (L.life.planned ≠ .update)) || decide (L.life.st = .retired) ||
        decide (s.mod.st = .safe)) then
    endUpdate s l 0x0F
  else s

/-- The engine of a lane that runs has served a cycle; the share of beats that this took is open (R397; log entry 85). -/
def engineServed (s : State) (l : Lane) : State :=
  if runs s l then modLane { s with free := s.free + 1 } l (fun L => { L with chk := { L.chk with loadPeak := loadShare s l } }) else s

/-- One lane at the tick: what belonged to the last cycle is gone; buckets fill; a BIST and a recovery ROM go on;
stores of banks taken are written. -/
def laneTick (s : State) (l : Lane) : State :=
  let v := laneVintage s l
  let s1 := modLane s l (fun L => sessionsTick { L with
    overran := false, link := ImageLink.reset, fld := { L.fld with sample := none, retake := L.fld.retake || L.fld.retakeNext, retakeNext := false }, cel := bucketsTick v L.cel
    life := { L.life with plannedNow := false } })
  abandonUpdate (romTick (writeTaken (bistTick (engineServed s1 l) l) l) l) l

/-- A Sluice at the tick: NEXT becomes NOW (R255), in a twin pair only while the module holds the ACTIVE role (R331); a switch test is
over, the result is that of no cycle, the links are reported as they stand (R196). -/
def sluiceTick (s : State) : State :=
  let held := fun l => laneHeld (lane s l)
  modSluices s (fun _ x => { x with
    now := if mayDrive s then x.next else 0, testRunning := false, testMask := 0, result := none
    linkReset := laneBits held
    linkUp := laneBits (fun l => !held l && !laneBit x.linkTimedOut l) })

/-- The K bits of a lane (R92). -/
def kBits (s : State) (l : Lane) : BitVec 8 :=
  bitsFrom 8 (fun i =>
    if i = 1 then true
    else if i = 2 then !(lane s l).press.hasRun
    else if i = 4 then decide (s.mod.st = .svc2)
    else if i = 5 then twinOn s
    else if i = 6 then holdsActive s
    else if i = 7 then confirmedNow s
    else false)

/-- The lanes latch the K bits. -/
def kTick (s : State) : State :=
  modLanes s (fun l L => { L with press := { L.press with data := { L.press.data with k := kBits s l } } })

/-! ### TICK -/

/-- A tick of a module that goes on. -/
def tickOn (s : State) : State :=
  let first := s.mod.firstTick
  let released := match s.mod.result with | some m => m.flags.getLsbD 0 | none => false
  let s1 := countTime (alkKeep (nextCount (alkTick (closeCycle s))))
  let s2 := repeatClear (nextKeeper (stateTick s1 first released))
  let s3 := foldS Lane.list laneTick (foldS Lane.list joinTick (twinTick s2))
  let s4 := if measureDue s.mod.tickTime s3.mod.tickTime then measureAll s3 else s3
  kTick (hostTick (sluiceTick s4))

/-- TICK (R50): a module that has staged its first vintage restarts into it (R475). -/
def execTick (s : State) : Host.Outcome State Fault Refusal :=
  .next (
    if !s.mod.ticking || decide (s.mod.st = .off) then s
    else match s.mod.restartTo with
      | some n => requestedRestart { s with mod := { s.mod with restartTo := none } } n
      | none => tickOn s)

end Sys2Proof.Machine
end

