-- ==== Sys2Proof/Machine/Cycle.lean ====
section
/-!
DEFINITION. The ends of the phases (R54, R58, R59): the input image closes, the logic phase ends and the images go out, the vote is
decided at the latest, the status image is written.
-/

namespace Sys2Proof.Machine

/-! ### END_INPUT (R79, R88, R124, R141, R143, R238, R249) -/

/-- The element update of a STANDBY_LOADING module: VALID, CLEAR, DETECTED and MOVING alone (R354). -/
def loadingElems (v : Vintage) (d : PressData) (r : Raa) : Raa :=
  v.elements.foldl (fun r e => if e.2.kind = .undefined then r else modElem r e.1 (fun x =>
    let i := elemInputs e.2 d
    elemMoving { x with valid := i.1, clear := i.2.1, detected := i.2.2 })) r

/-- Elements of a vintage whose MOVE_FAULT has become 1. -/
def newMoveFaults (v : Vintage) (a b : Raa) : List Nat :=
  (skeys v.elements).filter (fun e => (elemOf b e).moveFault && !(elemOf a e).moveFault)

/-- The RAA of a lane opens its logic phase (a STANDBY_LOADING module has no decision and no re-proof, R354): element update, VIRTUAL as it stands, the routes to re-prove with their ranks (R59,
R124, R141, R143). -/
def startRaa (v : Vintage) (s : State) (l : Lane) : State :=
  let L := lane s l
  if s.twin.st = .loading then
    modRaa s l (fun r => { loadingElems v L.press.data r with
      toProve := [], proved := 0, decided := 0, refused := 0, length := 0, releases := [], failedAspects := [] })
  else
    let r1 := updateElems v L.press.data s.mod.tickTime L.raa
    let held := skeys r1.locks
    let r2 := { r1 with
      toProve := held.zip (List.range held.length), proved := held.length, decided := 0, refused := 0, releases := []
      failedAspects := [], activity := 2, virtSnap := skeys (r1.elems.filter (fun e => e.2.virt)) }
    foldS (newMoveFaults v L.raa r2) (fun s e => moveFaultEvent s l e) (modRaa s l (fun _ => r2))

/-- A strand at END_INPUT (R79): n is the length of its segment. -/
def startStrand (n : Nat) (x : Strand) : Strand :=
  { x with
    pc := 0, cog := false, acc := 0, sat := false, stack := [], running := decide (0 < n), ended := decide (n = 0), ran := false
    waiting := none, passed := none, endClk := 0 }

/-- The Press of a lane starts, with its counts at 0 (R79, R115, R354). -/
def startPress (s : State) (l : Lane) : State :=
  let L := lane s l
  let p := { L.press with clock := 0, writes := [], done := none, entered := 0, dropped := 0, wrote := [] }
  if s.twin.st = .loading then modLane s l (fun L => { L with press := { p with done := some 0 } })
  else
    let y := p.strands
    let z : Strands := { s0 := startStrand (segLen L 0) y.s0, s1 := startStrand (segLen L 1) y.s1
                         s2 := startStrand (segLen L 2) y.s2, s3 := startStrand (segLen L 3) y.s3 }
    let s1 := modLane s l (fun L => { L with press := { p with active := true, hasRun := true, strands := z } })
    if allEnded z then logicDone s1 l else s1

/-- ALK_VALID bits of a lane (R249): ADMITTED stations with MISS ≤ m. -/
def validStations (v : Vintage) (L : LaneState) : BitSpace :=
  (skeys L.sessions).filter (fun i => match (v.stations.drop i).head? with
    | some c => decide ((sessOf L i).st = .admitted) && decide ((sessOf L i).miss ≤ c.miss)
    | none => false)

/-- The input image of a lane closes (R88, R238, R249, R251). -/
def closeInput (v : Vintage) (s : State) (l : Lane) : State :=
  let s1 := modLane s l (openViews s.mod.cycle)
  modLane (localInput (closeSessions v s1 l) l) l (fun L => { L with alkValid := validStations v L })

/-- One lane at END_INPUT. -/
def laneEndInput (s : State) (l : Lane) : State :=
  match laneVintage s l with
  | none => s
  | some v => if computes s l then startPress (startRaa v (closeInput v s l) l) l else s

/-- END_INPUT (R54). -/
def execEndInput (s : State) : Host.Outcome State Fault Refusal :=
  .next (
    if s.mod.ticking && decide (s.mod.phase = .input) then
      let s1 := handoverPast (dropSwitch s)
      let s2 := foldS Lane.list laneEndInput { s1 with mod := { s1.mod with phase := .logic } }
      let s3 := dropRequests (clearEnds (fieldChecks (stuckSeen s2)))
      if switchedNow s && (rackBatch s3).isEmpty then releaseStages s3 else s3
    else s)

/-! ### END_LOGIC (R59, R66, R144, R148, R166, R240, R311, R435) -/

/-- Routes with LOCKED = 1. -/
def lockedCount (r : Raa) : Nat := (r.locks.filter (fun e => e.2.locked)).length

/-- Elements with MOVE_FAULT = 1. -/
def faultCount (r : Raa) : Nat := (r.elems.filter (fun e => e.2.moveFault)).length

/-- The RAA work of a lane ends: what is left of decisions and re-proof, the releases, the registers that report it, the views
(R91, R133, R141, R148, R154, R160). -/
def endRaa (v : Vintage) (s : State) (l : Lane) : State :=
  let s1 := if raaWorks s l then provePass v (decideRest v l (reqMax v) s) l else s
  modLane s1 l (fun L =>
    let r := if raaWorks s l then commitReleases v L.raa else L.raa
    let r1 := { r with statHeld := heldCount r, statLocked := lockedCount r, moveFaults := faultCount r, activity := 0 }
    { L with
      raa := r1
      press := { L.press with data := { L.press.data with
        x := publishX r1, rs := publishRs r1, views := closeViews s.mod.cycle (doneInTime v L.press) L.press.data.views } } })

/-- One lane's logic phase ends: the RAA's work, and the admissions of the cycle (R240). -/
def laneEndLogic (s : State) (l : Lane) : State :=
  match laneVintage s l with
  | none => s
  | some v =>
    if computes s l then
      let s1 := endRaa v s l
      let s2 := if doneInTime v (lane s1 l).press && decide (s1.twin.st ≠ .loading) then admitMarkers v s1 l else s1
      admitBatch v s2 l
    else s

/-- A lane whose logic-done mark has not reached its Sluice by END_LOGIC has overrun (R66). -/
def markMissing (s : State) (l : Lane) : Bool :=
  computes s l && (match laneVintage s l with | some v => !doneInTime v (lane s l).press | none => false)

/-- The next send number of a session (R237, R242). -/
def nextSend (x : Session) : Session := { x with txSeq := x.txSeq + 1, txWrapped := x.txWrapped || decide (x.txSeq = 0xFFFFFFFF) }

/-- Send numbers of a lane's sessions go on (R237, R332). -/
def countSends (s : State) (v : Vintage) (L : LaneState) : LaneState :=
  let st := (List.range v.stations.length).foldl (fun m i =>
    smod Session.reset m i nextSend) L.sessions
  let base := if sendsStations s && decide (s.alk.node = .inSync) then st else L.sessions
  { L with sessions := (List.range v.peers.length).foldl (fun m q =>
      smod Session.reset m (512 + q) nextSend) base }

/-- Control record of station i (R212, R217, R235). -/
def stationCtl (s : State) (L : LaneState) (i : Nat) (c : StationCfg) : CtlRec :=
  { dest := c.node.setWidth 16, type := 0x10
    flags := BitVec.ofNat 8 (flagActive s + 4 * bit (decide ((sessOf L i).st = .admitted)))
    length := BitVec.ofNat 16 (stationLen c.points), epoch := epochNow s, sequence := (sessOf L i).txSeq
    time := s.mod.tickTime, destSid := 0, echoSeq := 0 }

/-- Control record of peer q (R216, R217, R242). -/
def peerCtl (s : State) (L : LaneState) (q : Nat) (c : PeerCfg) : CtlRec :=
  let x := sessOf L (512 + q)
  { dest := c.node.setWidth 16, type := 0x12, flags := BitVec.ofNat 8 (flagActive s), length := 40, epoch := epochNow s
    sequence := x.txSeq, time := s.mod.tickTime, destSid := c.sid.setWidth 32, echoSeq := x.rxSeq }

/-- Records of a list by index. -/
def indexed {α : Type} (xs : List α) (f : Nat → α → CtlRec) : Sparse CtlRec :=
  (List.range xs.length).zip xs |>.map (fun e => (e.1, f e.1 e.2))

/-- The output image of a lane (R90, R144, R166). -/
def imageOf (s : State) (v : Vintage) (l : Lane) : Image :=
  let L := lane s l
  let d := L.press.data
  let out := applyForces (forcedRefs v L.raa) d.q d.lq
  { cycle := s.mod.cycle, time := s.mod.tickTime, flags := BitVec.ofNat 9 (bit (bget d.m 0) + 2 * d.k.toNat), vintage := v.number
    area := areaOf L, twin := if twinOn s then some (twinCtlOf s l) else none, q := out.1, lq := out.2
    stations := if sendsStations s then indexed v.stations (stationCtl s L) else []
    peers := if sendsPeers s then indexed v.peers (peerCtl s L) else []
    noise := [] }

/-- A lane with its logic-done mark sends its image with its codes to the three Sluices; its Press has stopped (R166, R167). -/
def sendImage (s : State) (l : Lane) (L : LaneState) : LaneState :=
  match L.bank.active with
  | some v =>
    if computes s l && doneInTime v L.press then
      let m := imageOf s v l
      let k : ImageLink := { image := some m, codes := codesOf s v m l, rx := PerLane.all LinkRx.reset, compared := false }
      { L with press := stopPress L.press, link := { k with rx := PerLane.all (goodRx k) } }
    else L
  | none => L

/-- Send numbers, the load's part and the images at the close (R166, R237, R353). -/
def closeImages (s : State) : State :=
  let s1 := modLanes s (fun l L => match L.bank.active with
    | some v => if computes s l then countSends s v L else L
    | none => L)
  let s2 := loadClose s1 (areaOf (lane s1 (refLane s1)))
  twinClosed (modLanes s2 (sendImage s2))

/-- END_LOGIC (R54, R311, R435): decisions and releases first, then the RACK checks and the next batch, then the images. -/
def execEndLogic (s : State) : Host.Outcome State Fault Refusal :=
  .next (
    if s.mod.ticking && decide (s.mod.phase = .logic) then
      let s1 := foldS Lane.list laneEndLogic s
      let s2 := batchClose (releaseStages (foldS (rackBatch s1) rackCheck s1))
      let s3 := foldS (Lane.list.filter (markMissing s2)) (overrunLane []) s2
      let s4 := closeImages s3
      { s4 with mod := { s4.mod with phase := .vote } }
    else s)

/-! ### END_VOTE (R54, R58, R67, R194, R439) -/

/-- END_VOTE: a vote still open is decided as at END_VOTE − 5 µs, where a shadow image still incomplete is an overrun too
(R66); the codes in use are shown, and a racking completes (R67, R194, R439). -/
def execEndVote (s : State) : Host.Outcome State Fault Refusal :=
  .next (
    if s.mod.ticking && decide (s.mod.phase = .vote) then
      let s0 := voteNow (lastDecision s) s
      let s1 := foldS (lateShadows s0) (overrunLane []) s0
      let codes := laneBits (fun l => (usableLanes s1).contains l)
      let s2 := modSluices { s1 with mod := { s1.mod with phase := .output } } (fun _ x => { x with codes := codes })
      rackFinish s2
    else s)

/-! ### END_OUTPUT (R319, R323) -/

/-- LANE_STATE (R38). -/
def laneStateWord (s : State) (l : Lane) : Word :=
  let L := lane s l
  pack [(0, laneCode L.life.st), (4, bit L.life.rom), (8, modCode s.mod.st), (16, (s.sluices.get l).voting.toNat)]

/-- RAA_STATUS (R154). -/
def raaStatusWord (r : Raa) : Word := pack [(0, r.statHeld), (16, r.statLocked), (30, r.activity.toNat)]

/-- ROLE of the status image (R323): 0 without twin operation, 1 ACTIVE, 2 STANDBY; open in a module that holds neither role. -/
def statusRole (s : State) : Nat :=
  match twinNow s with
  | .none => 0 | .active => 1 | .unpaired => 2 | .loading => 2 | .checking => 2 | .paired => 2
  | .waiting => (Config.freeValue s.free).toNat % 3
  | .out => (Config.freeValue s.free).toNat % 3

/-- Lane states in one word of the status image (R323). -/
def statusLanes (s : State) (p : Port) : Nat :=
  (lane s .A).life.st |> laneCode |> (· + 16 * laneCode (lst s .B) + 256 * laneCode (lst s .C) +
    65536 * (s.sluices.get p.ringLane).voting.toNat)

/-- Words 0x008 to 0x0C7 of the status image of a port (R323): the ring lane's view. -/
def statusWords (s : State) (p : Port) : List Word :=
  let L := lane s p.ringLane
  let head := fun q => (sqOf s p q).head.toNat
  let last := fun q => match (ledgerOf L p q).last with | some n => n | none => 0
  let number := fun (x : Option Vintage) => match x with | some v => v.number | none => 0
  [s.mod.cycle, BitVec.ofNat 32 (modCode s.mod.st + 256 * statusRole s + 65536 * (epochNow s).toNat),
   s.mod.tickTime.setWidth 32, (s.mod.tickTime >>> 32).setWidth 32, BitVec.ofNat 32 (statusLanes s p),
   number L.bank.active, number L.bank.staged, raaStatusWord L.raa] ++
  (List.range 8).map (fun i => BitVec.ofNat 32 (head (2 * i) + 65536 * head (2 * i + 1))) ++
  (List.range 16).map last ++
  (List.range 16).map (bitWord L.alkValid)

/-- The status image of a port is written once in every cycle (R323); a FENCE whose predecessors are done has then seen one
(R319). -/
def writeStatus (s : State) (p : Port) : State :=
  let x := s.ports.get p
  if x.statusEn && x.linkUp && ringRuns s p && !x.paused then
    let gen := satInc x.gen
    let s1 := modPort { s with free := s.free + 1 } p (fun x => { x with gen := gen })
    let s2 := { s1 with hostMem := .status p x.statusBase gen (statusWords s p) :: s1.hostMem }
    let s3 := modLane s2 p.ringLane (fun L => { L with mbx := { L.mbx with taken := L.mbx.taken.map (fun t =>
      if decide (t.ref.port = p) && decide (t.ref.cls = 0x30) && fenceClear s2 p t then { t with fenceSeen := true } else t) } })
    fenceCheck s3 p
  else s

/-- END_OUTPUT: the status images are written (R54, R323). -/
def execEndOutput (s : State) : Host.Outcome State Fault Refusal :=
  .next (
    if s.mod.ticking && decide (s.mod.phase = .output) then
      foldS [Port.p0, Port.p1] writeStatus { s with mod := { s.mod with phase := .idle } }
    else s)

end Sys2Proof.Machine
end

