-- ==== Sys2Proof/Machine/PressBits.lean ====
section
/-!
DEFINITION. The bit instructions of the Press (R96).
-/

namespace Sys2Proof.Machine

/-- A bit instruction that combines COG with the addressed bit. -/
def bitOp (w : PressWord) (space : BitVec 4) (f : Bool → Bool → Bool) (s : State) : State :=
  runWord s w false (fun _ _ => bitLegal space (opnd w)) (fun s L x =>
    .ok { step1 x with cog := f x.cog (readBit L.press.data s.mod.tickTime space (opnd w)) } [])

/-- A bit instruction that writes the addressed bit: none leaves it as it is; COG stays. -/
def bitStore (w : PressWord) (space : BitVec 4) (f : Bool → Option Bool) (s : State) : State :=
  runWord s w false (fun _ _ => bitLegal space (opnd w) && bitWritable space) (fun _ _ x =>
    .ok (step1 x) (match f x.cog with | some v => [.bit space (opnd w) v] | none => []))

/-- LD (R96): COG ← b. -/
def execLd (w : PressWord) (space : BitVec 4) (s : State) : Host.Outcome State Fault Refusal :=
  .next (bitOp w space (fun _ b => b) s)

/-- LDN (R96): COG ← NOT b. -/
def execLdn (w : PressWord) (space : BitVec 4) (s : State) : Host.Outcome State Fault Refusal :=
  .next (bitOp w space (fun _ b => !b) s)

/-- AND (R96): COG ← COG AND b. -/
def execAndBit (w : PressWord) (space : BitVec 4) (s : State) : Host.Outcome State Fault Refusal :=
  .next (bitOp w space (fun c b => c && b) s)

/-- ANDN (R96): COG ← COG AND NOT b. -/
def execAndnBit (w : PressWord) (space : BitVec 4) (s : State) : Host.Outcome State Fault Refusal :=
  .next (bitOp w space (fun c b => c && !b) s)

/-- OR (R96): COG ← COG OR b. -/
def execOrBit (w : PressWord) (space : BitVec 4) (s : State) : Host.Outcome State Fault Refusal :=
  .next (bitOp w space (fun c b => c || b) s)

/-- ORN (R96): COG ← COG OR NOT b. -/
def execOrnBit (w : PressWord) (space : BitVec 4) (s : State) : Host.Outcome State Fault Refusal :=
  .next (bitOp w space (fun c b => c || !b) s)

/-- XOR (R96): COG ← COG XOR b. -/
def execXorBit (w : PressWord) (space : BitVec 4) (s : State) : Host.Outcome State Fault Refusal :=
  .next (bitOp w space (fun c b => xor c b) s)

/-- ST (R96): b ← COG. -/
def execSt (w : PressWord) (space : BitVec 4) (s : State) : Host.Outcome State Fault Refusal :=
  .next (bitStore w space (fun c => some c) s)

/-- SET (R96): if COG = 1, b ← 1. -/
def execSetBit (w : PressWord) (space : BitVec 4) (s : State) : Host.Outcome State Fault Refusal :=
  .next (bitStore w space (fun c => if c then some true else none) s)

/-- RST (R96): if COG = 1, b ← 0. -/
def execRstBit (w : PressWord) (space : BitVec 4) (s : State) : Host.Outcome State Fault Refusal :=
  .next (bitStore w space (fun c => if c then some false else none) s)

end Sys2Proof.Machine
end

