-- ==== Sys2Proof/Machine/PressFlow.lean ====
section
/-!
DEFINITION. The flow instructions, the branch stack, barriers and the calls into the RAA (R104 to R109).
-/

namespace Sys2Proof.Machine

/-- Push an entry; the peak follows the depth (R107, R114). -/
def pushEntry (x : Strand) (e : StackEntry) : Option Strand :=
  if x.stack.length ≥ 16 then none
  else some { x with stack := e :: x.stack, peak := if x.peak.toNat < x.stack.length + 1 then BitVec.ofNat 5 (x.stack.length + 1) else x.peak }

/-- The operation that CLOSE names (R104). -/
def closeOp (k : Nat) (v c : Bool) : Bool :=
  if k = 0 then v && c else if k = 1 then v && !c else if k = 2 then v || c else if k = 3 then v || !c else xor v c

/-- A jump to the target (R104). -/
def jumpTo (w : PressWord) (x : Strand) (take : Bool) : Strand := if take then { x with pc := opnd w } else step1 x

/-- A strand is past barrier n: it has executed BAR n or a higher one, or END, in this cycle (R106). -/
def pastBarrier (n : BitVec 8) (x : Strand) : Bool :=
  x.ended || (match x.passed with | some m => decide (m.toNat ≥ n.toNat) | none => false)

/-- A call into the RAA (R108): it acts only if COG = 1; an ECMD word with a command code that R137 does not list is
illegal. -/
def raaCall (w : PressWord) (bits : Nat) (k : QKind) (s : State) : State :=
  runWord s w false (fun _ _ => lowOperand bits w && (decide (k ≠ .ecmd) || decide (opnd w / 0x10000 ≤ 6))) (fun _ _ x =>
    if x.cog then
      (match k with
       | .ecmd => .call (step1 x) k (opnd w % 0x10000) (opnd w / 0x10000)
       | _ => .call (step1 x) k (opnd w) 0)
    else .ok (step1 x) [])

/-- NOP (R104). -/
def execNop (w : PressWord) (s : State) : Host.Outcome State Fault Refusal :=
  .next (runWord s w false (fun _ _ => lowOperand 0 w) (fun _ _ x => .ok (step1 x) []))

/-- OPEN (R104): pushes an expression entry with COG; COG stays. -/
def execOpenBranch (w : PressWord) (s : State) : Host.Outcome State Fault Refusal :=
  .next (runWord s w false (fun _ _ => lowOperand 0 w) (fun _ _ x =>
    match pushEntry (step1 x) (.expr x.cog) with
    | some y => .ok y []
    | none => .fault .stackOverflow))

/-- CLOSE (R104): pops an expression entry holding v; COG ← v op COG. -/
def execCloseBranch (w : PressWord) (s : State) : Host.Outcome State Fault Refusal :=
  .next (runWord s w false (fun _ _ => decide (opnd w < 5)) (fun _ _ x =>
    match x.stack with
    | [] => .fault .stackUnderflow
    | .call _ :: _ => .fault .entryMismatch
    | .expr v :: r => .ok { step1 x with stack := r, cog := closeOp (opnd w) v x.cog } []))

/-- JMP (R104). -/
def execJmp (w : PressWord) (s : State) : Host.Outcome State Fault Refusal :=
  .next (runWord s w false (fun pc n => jumpLegal pc n w) (fun _ _ x => .ok (jumpTo w x true) []))

/-- JMPC (R104): jump if COG = 1. -/
def execJmpc (w : PressWord) (s : State) : Host.Outcome State Fault Refusal :=
  .next (runWord s w false (fun pc n => jumpLegal pc n w) (fun _ _ x => .ok (jumpTo w x x.cog) []))

/-- JMPN (R104): jump if COG = 0. -/
def execJmpn (w : PressWord) (s : State) : Host.Outcome State Fault Refusal :=
  .next (runWord s w false (fun pc n => jumpLegal pc n w) (fun _ _ x => .ok (jumpTo w x (!x.cog)) []))

/-- CALL (R104): pushes the return address and jumps. -/
def execCall (w : PressWord) (s : State) : Host.Outcome State Fault Refusal :=
  .next (runWord s w false (fun pc n => callLegal pc n w) (fun _ _ x =>
    match pushEntry x (.call (x.pc + 1)) with
    | some y => .ok { y with pc := opnd w } []
    | none => .fault .stackOverflow))

/-- RET (R104): pops a call entry and continues at its return address. -/
def execRet (w : PressWord) (s : State) : Host.Outcome State Fault Refusal :=
  .next (runWord s w true (fun _ _ => lowOperand 0 w) (fun _ _ x =>
    match x.stack with
    | [] => .fault .stackUnderflow
    | .expr _ :: _ => .fault .entryMismatch
    | .call a :: r => .ok { x with pc := a, stack := r } []))

/-- BAR (R106): the strand waits at the barrier. -/
def execBar (w : PressWord) (s : State) : Host.Outcome State Fault Refusal :=
  .next (runWord s w false (fun _ _ => lowOperand 8 w) (fun _ _ x =>
    let top := match x.passed with | some m => max m.toNat (opnd w) | none => opnd w
    .ok { step1 x with waiting := some (BitVec.ofNat 8 (opnd w)), passed := some (BitVec.ofNat 8 top) } []))

/-- BAR_RELEASE (R106): a waiting strand goes on in the clock after each of the other three has passed its barrier. -/
def execBarRelease (l : Lane) (strand : Fin 4) (s : State) : Host.Outcome State Fault Refusal :=
  .next (
    let p := (lane s l).press
    let x := strandOf p.strands strand
    match x.waiting with
    | none => s
    | some n =>
      if p.active && [0, 1, 2, 3].all (fun i => decide (i = strand.val) || pastBarrier n (lget x (strandList p.strands) i)) then
        modLane s l (fun L => { L with press := { L.press with
          strands := putStrand L.press.strands strand { x with waiting := none, ran := true } } })
      else s)

/-- END (R79, R107): the strand stops for this cycle; a non-empty stack is a fault. -/
def execEndStrand (w : PressWord) (s : State) : Host.Outcome State Fault Refusal :=
  .next (runWord s w true (fun _ _ => lowOperand 0 w) (fun _ L x =>
    if x.stack.isEmpty then
      .ok { x with running := false, ended := true, endClk := BitVec.ofNat 27 (L.press.clock + 1) } []
    else .fault .unbalancedEnd))

/-- RREQ (R108). -/
def execRreq (w : PressWord) (s : State) : Host.Outcome State Fault Refusal :=
  .next (raaCall w 14 .rreq s)

/-- RCAN (R108). -/
def execRcan (w : PressWord) (s : State) : Host.Outcome State Fault Refusal :=
  .next (raaCall w 14 .rcan s)

/-- ECMD (R108). -/
def execEcmd (w : PressWord) (s : State) : Host.Outcome State Fault Refusal :=
  .next (raaCall w 20 .ecmd s)

end Sys2Proof.Machine
end

