-- ==== Sys2Proof/Machine/PressTimers.lean ====
section
/-!
DEFINITION. The edge, timer and counter instructions of the Press (R97 to R102).
-/

namespace Sys2Proof.Machine

/-- An edge instruction: n from COG and the stored value, E ← COG; the first execution of an edge memory that a racking marked
new stores COG and gives 0 (R97, R442). -/
def edgeOp (w : PressWord) (f : Bool → Bool → Bool) (s : State) : State :=
  runWord s w false (fun _ _ => lowOperand 16 w) (fun _ L x =>
    let n := if bget L.press.newEdges (opnd w) then false else f x.cog (bget L.press.data.e (opnd w))
    .ok { step1 x with cog := n } [.edge (opnd w) x.cog])

/-- The preset of a timer in ticks of 100 µs (R98). -/
def timerPreset (L : LaneState) (i : Nat) : Nat :=
  match L.bank.active with
  | some v => sget 0 v.presets i
  | none => 0

/-- The timer's start at the tick time (R100). -/
def timerStart (now : Time) (out inp : Bool) : TimerRec := { start := now, out := out, run := true, last := inp, esat := false }

/-- The timer at rest (R100). -/
def timerIdle (t : TimerRec) (out inp : Bool) : TimerRec := { t with out := out, run := false, last := inp, esat := false }

/-- TON (R100). -/
def evalTon (now : Time) (preset : Nat) (inp : Bool) (t : TimerRec) : TimerRec :=
  if !inp then timerIdle t false inp
  else if t.run then { t with out := decide (timerElapsed now t ≥ preset), last := inp, esat := timerEsat now t }
  else timerStart now (decide (preset = 0)) inp

/-- TOF (R100). -/
def evalTof (now : Time) (preset : Nat) (inp : Bool) (t : TimerRec) : TimerRec :=
  if inp then timerIdle t true inp
  else if t.run then
    (if timerElapsed now t ≥ preset then timerIdle t false inp
     else { t with out := true, last := inp, esat := timerEsat now t })
  else if t.out then timerStart now (decide (preset ≠ 0)) inp
  else { t with out := false, last := inp }

/-- TP (R100). -/
def evalTp (now : Time) (preset : Nat) (inp : Bool) (t : TimerRec) : TimerRec :=
  if t.run then
    (if timerElapsed now t ≥ preset then timerIdle t false inp
     else { t with out := true, last := inp, esat := timerEsat now t })
  else if inp && !t.last && !t.out then timerStart now (decide (preset ≠ 0)) inp
  else { t with out := false, last := inp }

/-- A timer instruction: the record is evaluated with input COG, and COG takes its output (R97). -/
def timerOp (w : PressWord) (f : Time → Nat → Bool → TimerRec → TimerRec) (s : State) : State :=
  runWord s w false (fun _ _ => lowOperand 14 w) (fun s L x =>
    let t := f s.mod.tickTime (timerPreset L (opnd w)) x.cog (sget TimerRec.reset L.press.data.t (opnd w))
    .ok { step1 x with cog := t.out } [.timer (opnd w) t])

/-- A counter instruction: it acts if COG = 1; COG stays (R97). -/
def counterOp (w : PressWord) (f : Word → CounterRec → CounterRec) (s : State) : State :=
  runWord s w false (fun _ _ => lowOperand 13 w) (fun _ L x =>
    .ok (step1 x) (if x.cog then [.counter (opnd w) (f x.acc (sget CounterRec.reset L.press.data.c (opnd w)))] else []))

/-- CTU (R102): count + 1; at the largest count it stays and SAT is set. -/
def countUp (c : CounterRec) : CounterRec :=
  if c.count = 0xFFFFFFFF then { c with sat := true } else { c with count := c.count + 1 }

/-- CTD (R102): count − 1; at 0 it stays and SAT is set. -/
def countDown (c : CounterRec) : CounterRec :=
  if c.count = 0 then { c with sat := true } else { c with count := c.count - 1 }

/-- EDGP (R97): n ← COG AND NOT E[e]; E[e] ← COG; COG ← n. -/
def execEdgp (w : PressWord) (s : State) : Host.Outcome State Fault Refusal :=
  .next (edgeOp w (fun c e => c && !e) s)

/-- EDGN (R97): n ← NOT COG AND E[e]; E[e] ← COG; COG ← n. -/
def execEdgn (w : PressWord) (s : State) : Host.Outcome State Fault Refusal :=
  .next (edgeOp w (fun c e => !c && e) s)

/-- TON (R97, R100): on-delay. -/
def execTon (w : PressWord) (s : State) : Host.Outcome State Fault Refusal :=
  .next (timerOp w evalTon s)

/-- TOF (R97, R100): off-delay. -/
def execTof (w : PressWord) (s : State) : Host.Outcome State Fault Refusal :=
  .next (timerOp w evalTof s)

/-- TP (R97, R100): pulse. -/
def execTp (w : PressWord) (s : State) : Host.Outcome State Fault Refusal :=
  .next (timerOp w evalTp s)

/-- TRS (R97): if COG = 1, the timer is idle with output and elapsed-saturated flag 0; COG stays. -/
def execTrs (w : PressWord) (s : State) : Host.Outcome State Fault Refusal :=
  .next (runWord s w false (fun _ _ => lowOperand 14 w) (fun _ L x =>
    .ok (step1 x) (if x.cog then
      [.timer (opnd w) (timerIdle (sget TimerRec.reset L.press.data.t (opnd w)) false
        (sget TimerRec.reset L.press.data.t (opnd w)).last)] else [])))

/-- CTU (R97, R102). -/
def execCtu (w : PressWord) (s : State) : Host.Outcome State Fault Refusal :=
  .next (counterOp w (fun _ c => countUp c) s)

/-- CTD (R97, R102). -/
def execCtd (w : PressWord) (s : State) : Host.Outcome State Fault Refusal :=
  .next (counterOp w (fun _ c => countDown c) s)

/-- CRS (R97, R102): count and SAT are cleared. -/
def execCrs (w : PressWord) (s : State) : Host.Outcome State Fault Refusal :=
  .next (counterOp w (fun _ _ => { count := 0, sat := false }) s)

/-- CLD (R97): count ← ACC; SAT stays. -/
def execCld (w : PressWord) (s : State) : Host.Outcome State Fault Refusal :=
  .next (counterOp w (fun acc c => { c with count := acc }) s)

end Sys2Proof.Machine
end

