-- ==== Sys2Proof/Machine/PressWords.lean ====
section
/-!
DEFINITION. The word instructions of the Press (R101, R103).
-/

namespace Sys2Proof.Machine

/-- A word instruction on a W word: the strand's registers change, the program goes on. -/
def wordOp (w : PressWord) (f : Strand → Word → Strand) (s : State) : State :=
  runWord s w false (fun _ _ => lowOperand 16 w) (fun _ L x =>
    .ok (f (step1 x) (sget (0 : Word) L.press.data.w (opnd w))) [])

/-- ADD (R103): above 0xFFFF_FFFF ACC holds that value and SAT is set. -/
def strandAdd (x : Strand) (v : Word) : Strand :=
  if x.acc.toNat + v.toNat > 0xFFFFFFFF then { x with acc := 0xFFFFFFFF, sat := true } else { x with acc := x.acc + v }

/-- SUB (R103): below 0 ACC is 0 and SAT is set. -/
def strandSub (x : Strand) (v : Word) : Strand :=
  if x.acc.toNat < v.toNat then { x with acc := 0, sat := true } else { x with acc := x.acc - v }

/-- The time TLD reports: the elapsed time of a running timer, saturating, else 0 (R101). -/
def timerReport (now : Time) (t : TimerRec) : Word :=
  if t.run then BitVec.ofNat 32 (min (timerElapsed now t) 0xFFFFFFFF) else 0

/-- LW (R103): ACC ← W[w]. -/
def execLw (w : PressWord) (s : State) : Host.Outcome State Fault Refusal :=
  .next (wordOp w (fun x v => { x with acc := v }) s)

/-- SW (R103): W[w] ← ACC. -/
def execSw (w : PressWord) (s : State) : Host.Outcome State Fault Refusal :=
  .next (runWord s w false (fun _ _ => lowOperand 16 w) (fun _ _ x => .ok (step1 x) [.word (opnd w) x.acc]))

/-- LI (R103): ACC ← OPERAND, zero-extended. -/
def execLi (w : PressWord) (s : State) : Host.Outcome State Fault Refusal :=
  .next (runWord s w false (fun _ _ => true) (fun _ _ x =>
    .ok { step1 x with acc := w.operand.setWidth 32 } []))

/-- LIH (R103): ACC[31:22] ← OPERAND[9:0]; ACC[21:0] stays. -/
def execLih (w : PressWord) (s : State) : Host.Outcome State Fault Refusal :=
  .next (runWord s w false (fun _ _ => lowOperand 10 w) (fun _ _ x =>
    .ok { step1 x with acc := BitVec.ofNat 32 (x.acc.toNat % 0x400000 + opnd w * 0x400000) } []))

/-- ADD (R103). -/
def execAdd (w : PressWord) (s : State) : Host.Outcome State Fault Refusal :=
  .next (wordOp w (strandAdd) s)

/-- SUB (R103). -/
def execSub (w : PressWord) (s : State) : Host.Outcome State Fault Refusal :=
  .next (wordOp w (strandSub) s)

/-- CMPEQ (R103): COG ← (ACC = W[w]). -/
def execCmpeq (w : PressWord) (s : State) : Host.Outcome State Fault Refusal :=
  .next (wordOp w (fun x v => { x with cog := decide (x.acc = v) }) s)

/-- CMPGE (R103): COG ← (ACC ≥ W[w]). -/
def execCmpge (w : PressWord) (s : State) : Host.Outcome State Fault Refusal :=
  .next (wordOp w (fun x v => { x with cog := decide (x.acc.toNat ≥ v.toNat) }) s)

/-- CMPLT (R103): COG ← (ACC < W[w]). -/
def execCmplt (w : PressWord) (s : State) : Host.Outcome State Fault Refusal :=
  .next (wordOp w (fun x v => { x with cog := decide (x.acc.toNat < v.toNat) }) s)

/-- WAND (R103). -/
def execWand (w : PressWord) (s : State) : Host.Outcome State Fault Refusal :=
  .next (wordOp w (fun x v => { x with acc := x.acc &&& v }) s)

/-- WOR (R103). -/
def execWor (w : PressWord) (s : State) : Host.Outcome State Fault Refusal :=
  .next (wordOp w (fun x v => { x with acc := x.acc ||| v }) s)

/-- TLD (R101, R103). -/
def execTld (w : PressWord) (s : State) : Host.Outcome State Fault Refusal :=
  .next (runWord s w false (fun _ _ => lowOperand 14 w) (fun s L x =>
    .ok { step1 x with acc := timerReport s.mod.tickTime (sget TimerRec.reset L.press.data.t (opnd w)) } []))

/-- CACC (R103): ACC ← count of counter c. -/
def execCacc (w : PressWord) (s : State) : Host.Outcome State Fault Refusal :=
  .next (runWord s w false (fun _ _ => lowOperand 13 w) (fun _ L x =>
    .ok { step1 x with acc := (sget CounterRec.reset L.press.data.c (opnd w)).count } []))

/-- XLD (R103): ACC ← word h of the X view of element x. -/
def execXld (w : PressWord) (s : State) : Host.Outcome State Fault Refusal :=
  .next (runWord s w false (fun _ _ => lowOperand 17 w) (fun _ L x =>
    let e := sget (0 : BitVec 64) L.press.data.x (opnd w / 2)
    .ok { step1 x with acc := BitVec.ofNat 32 (if opnd w % 2 = 0 then e.toNat else e.toNat / 2 ^ 32) } []))

/-- RSLD (R103): ACC ← route status of route r, zero-extended. -/
def execRsld (w : PressWord) (s : State) : Host.Outcome State Fault Refusal :=
  .next (runWord s w false (fun _ _ => lowOperand 14 w) (fun _ L x =>
    .ok { step1 x with acc := (sget (0 : BitVec 16) L.press.data.rs (opnd w)).setWidth 32 } []))

/-- SATT (R103): COG ← SAT; SAT ← 0. -/
def execSatt (w : PressWord) (s : State) : Host.Outcome State Fault Refusal :=
  .next (runWord s w false (fun _ _ => lowOperand 0 w) (fun _ _ x =>
    .ok { step1 x with cog := x.sat, sat := false } []))

end Sys2Proof.Machine
end

