-- ==== Sys2Proof/Machine/Registers.lean ====
section
/-!
DEFINITION. The registers as a read returns them, in plain form (R37, R74, R111, R112, R153, R192, R244, R289, R325, R360, R378,
R396, R422, R454, R470, R487, R514). Registers that a read clears or claims have rows of their own; here they show their value.
-/

namespace Sys2Proof.Machine

/-- Low and high words of a 64-bit value. -/
def loWord (x : BitVec 64) : Word := x.setWidth 32
def hiWord (x : BitVec 64) : Word := (x >>> 32).setWidth 32

/-- A number of the active vintage; 0 while no vintage is active. -/
def ofActive (L : LaneState) (f : Vintage → Word) : Word := match L.bank.active with | some v => f v | none => 0

/-! ### LANE (R37, R74, R470, R487) -/

/-- Macros with no free spare row (R460, R471). -/
def exhaustedMacros (b : Bist) : Nat :=
  ((List.finRange 96).filter (fun m => decide (freeSpares b m = 0))).length

/-- Rows fused at the factory (R471). -/
def fusedRows (b : Bist) : Nat := b.fused.foldl (fun n e => n + countTo 8 (fun i => e.2.getLsbD i)) 0

/-- The LANE block. -/
def laneReg (s : State) (l : Lane) (off : Nat) : Word :=
  let L := lane s l
  let f := s.cellar.life.lanes.get l
  let phaseEnd := fun (x : Vintage → Nat) => ofActive L (fun v => BitVec.ofNat 32 (x v))
  match off / 4 with
  | 0 => BitVec.ofNat 32 (0x3840000A + l.idx)
  | 1 => laneStateWord s l
  | 2 => pack [(0, isoCode L.life.cause), (16, L.life.isoCycle.toNat)]
  | 3 => BitVec.ofNat 32 (laneWindow s l)
  | 4 => loWord f.isoTotal
  | 5 => hiWord f.isoTotal
  | 6 => lifeLow f.retireTotal
  | 7 => L.boot.version
  | 8 => ofActive L (fun v => pack [(0, v.period), (16, 1)])
  | 9 => phaseEnd (·.endInput)
  | 10 => phaseEnd (·.endLogic)
  | 11 => phaseEnd (·.endVote)
  | 12 => phaseEnd (·.endOutput)
  | 13 => ofActive L (fun v => pack [(0, lockedMax v), (16, reqMax v)])
  | 14 => s.mod.cycle
  | 15 => loWord s.mod.tickTime
  | 16 => hiWord s.mod.tickTime
  | 17 => BitVec.ofNat 32 (L.logicPeak % 2 ^ 18)
  | 18 => BitVec.ofNat 32 (L.raaPeak % 2 ^ 18)
  | 19 => lifeSat f.overrunTotal
  | 20 => ofActive L (fun v => pack [(0, v.bistInterval), (8, v.marchEvery)])
  | 21 => pack [(0, L.bist.phase.toNat), (3, bit L.bist.due), (4, bit L.bist.overdue), (8, L.bist.last.toNat),
      (10, L.bist.trigger.toNat), (16, L.bist.cycle.toNat)]
  | 22 => loWord f.bistPass
  | 23 => hiWord f.bistPass
  | 24 => L.bist.result
  | 25 => pack [(0, L.bist.repairs.length), (16, fusedRows L.bist), (25, exhaustedMacros L.bist)]
  | 26 => pack [(0, L.bist.passes.toNat), (16, L.bist.fails.toNat)]
  | 27 => pack [(0, L.life.resetCause.toNat), (8, L.life.prevCause.toNat)]
  | 28 => pack [(0, L.life.startStep.toNat), (3, bit s.mod.timeUnsure), (4, bit s.mod.testsPassed), (5, bit s.mod.noVintage),
      (16, L.life.bootMs.toNat)]
  | 29 => pack [(0, s.cellar.life.keyVersion.toNat), (16, bit (confirmedNow s)), (17, bit s.mod.bootedInto)]
  | _ => 0

/-! ### PRS and RAA (R112, R153) -/

/-- A bit of each strand. -/
def strandBits (x : Strands) (f : Strand → Bool) : Nat := bit (f x.s0) + 2 * bit (f x.s1) + 4 * bit (f x.s2) + 8 * bit (f x.s3)

/-- The PRS block. -/
def prsReg (L : LaneState) (l : Lane) (off : Nat) : Word :=
  let p := L.press
  let x := p.strands
  match off / 4 with
  | 0 => pack [(0, strandBits x (·.running)), (4, strandBits x (·.ended)), (10, l.idx), (12, bit p.halted)]
  | 1 => BitVec.ofNat 32 (segLen L 0)
  | 2 => BitVec.ofNat 32 (segLen L 1)
  | 3 => BitVec.ofNat 32 (segLen L 2)
  | 4 => BitVec.ofNat 32 (segLen L 3)
  | 5 => x.s0.doneClk.setWidth 32
  | 6 => x.s1.doneClk.setWidth 32
  | 7 => x.s2.doneClk.setWidth 32
  | 8 => x.s3.doneClk.setWidth 32
  | 9 => pack [(0, x.s0.peak.toNat), (8, x.s1.peak.toNat), (16, x.s2.peak.toNat), (24, x.s3.peak.toNat)]
  | 10 => p.calls
  | 11 => faultWord p
  | 12 => p.faultAddr.setWidth 32
  | 13 => p.satCount
  | _ => 0

/-- Elements with KIND other than 0 and routes with DEFINED = 1 (R157). -/
def definedWord (v : Vintage) : Word :=
  pack [(0, (v.elements.filter (fun e => decide (e.2.kind ≠ .undefined))).length),
    (17, (v.routes.filter (fun e => e.2.flags.getLsbD 0)).length)]

/-- The RAA block. -/
def raaReg (s : State) (L : LaneState) (off : Nat) : Word :=
  let r := L.raa
  match off / 4 with
  | 0 => raaStatusWord r
  | 1 => r.queueReg
  | 2 => r.decidedReg
  | 3 => ofActive L definedWord
  | 4 => lifeSat s.cellar.life.proofTotal
  | 5 => r.lastFail
  | 6 => r.lastFailCycle.setWidth 32
  | 7 => BitVec.ofNat 32 r.holdoverPeak
  | 8 => BitVec.ofNat 32 (r.workEnd % 2 ^ 18)
  | 9 => BitVec.ofNat 32 r.moveFaults
  | _ => 0

/-! ### SLC (R192) -/

/-- MODE of SLC_STATUS (R193). -/
def voteMode (m : ModSt) : Nat := match m with
  | .svc3 => 1 | .svc2 => 2
  | .off => 0 | .boot => 0 | .starting => 0 | .commissioning => 0 | .safe => 0 | .recovery => 0

/-- The SLC block. -/
def slcReg (s : State) (l : Lane) (off : Nat) : Word :=
  let x := s.sluices.get l
  match off / 4 with
  | 0 => pack [(0, x.voting.toNat), (4, voteMode s.mod.st), (8, bit x.latch), (9, bit x.lone), (16, (laneBits (latched s)).toNat)]
  | 1 => pack [(0, x.images.toNat), (4, x.dissent.toNat), (8, x.codes.toNat), (12, x.outcome.toNat), (14, bit x.digestOk),
      (16, x.voteCycle.toNat)]
  | 2 => x.decisionTime.setWidth 32
  | 3 => latchWord x
  | 4 => pack [(0, x.linkUp.toNat), (4, x.linkTimedOut.toNat), (8, x.linkReset.toNat)]
  | 5 => s.cellar.life.linkErr.get l
  | 6 => s.cellar.life.dissent.get l
  | 7 => match (lane s l).fld.last with | some u => u.readback.get l | none => 0
  | 8 => pack [(0, x.stuckClosed.toNat), (16, bit x.testRunning), (17, bit x.testAborted)]
  | 9 => x.tickDev.setWidth 32
  | _ => 0

/-! ### ALK (R244, R360) -/

/-- NODE_STATE (R245). -/
def nodeCode : NodeSt → Nat
  | .down => 0 | .listen => 1 | .coldStart => 2 | .silent => 3 | .measure => 4 | .align => 5 | .inSync => 6

/-- Medium states (R246). -/
def mediumCode : MediumSt → Nat
  | .inUse => 0 | .withdrawn => 1 | .retired => 2 | .notConfigured => 3

/-- D of a medium and side in units of 4 ns, rounded down, as the lowest configured segment that has measured one gives it; 0 in
node 0, which needs no measurement (R249, R516). A D of 262,140 ns or more shows as 0xFFFE (DESIGN CHOICE for the rounding and the bound,
log entry 69). -/
def delayField (s : State) (m : Medium) (sd : Side) : Nat :=
  let used := segments.filter (fun g => decide ((mediumOf s g m).st ≠ .notConfigured) &&
    (match sd with | .A => true | .B => isRing s g.val))
  if used.isEmpty then 0xFFFF
  else if ownNode s = 0 then 0
  else match used.findSome? (fun g => (delayOf (mediumOf s g m) sd).d) with
    | some d => min (d / 4) 0xFFFE
    | none => 0xFFFF

/-- FCS errors of a medium over all segments (R247). -/
def fcsTotal (s : State) (m : Medium) : Word :=
  lifeSat ((List.range 4).foldl (fun a g => satAdd a (sget 0 s.cellar.life.fcs (2 * g + m.idx)).toNat) (0 : BitVec 64))

/-- ALK_MEDIA_WINDOW (R246). -/
def mediaWindow (s : State) : Word :=
  pack ((List.range 4).flatMap (fun g => [(3 * g, withdrawalCount s (2 * g)), (12 + 3 * g, withdrawalCount s (2 * g + 1))]))

/-- Node number of a session's station or coupler (R248). -/
def sessNode (L : LaneState) (i : Nat) : Nat :=
  match L.bank.active with
  | none => 0
  | some v =>
    if i < 512 then (match (v.stations.drop i).head? with | some c => c.node.toNat | none => 0)
    else (match (v.peers.drop (i - 512)).head? with | some c => c.node.toNat | none => 0)

/-- ALK_SESSION_STATE of a session (R248). -/
def sessWord (s : State) (L : LaneState) (i : Nat) : Word :=
  let x := sessOf L i
  pack [(0, sessCode x.st), (3, min 4 x.miss), (6, readmitCount s x), (16, sessNode L i)]

/-- ALK_TWIN_STATE and ALK_TWIN_LOAD (R361). -/
def twinStateWord (s : State) (l : Lane) : Word :=
  let t := s.twin
  let o := ownTwin s l
  pack [(0, twinCode (twinNow s)), (4, t.partner.toNat), (8, bit t.seen), (9, bit o.isMatch), (10, o.matchRun), (16, o.mismatchCycle.toNat)]
def twinLoadWord (s : State) : Word :=
  let t := s.twin
  pack [(0, if t.loadRun then t.marks.length else 0), (13, min 3 (loadFailCount s)), (15, bit t.stopped),
    (16, min 32767 t.loadCycles), (31, bit (decide (t.loadCycles ≥ 32767)))]

/-- The ALK block of a lane. -/
def alkReg (s : State) (l : Lane) (off : Nat) : Word :=
  let L := lane s l
  let a := s.alk
  let i := L.sessSel.toNat
  let x := sessOf L i
  let chosen := fun (w : Word) => if i < 576 then w else 0
  match off / 4 with
  | 0 => pack [(0, nodeCode a.node), (4, bit (isFirst s)), (5, bit a.backup), (8, a.segSync.toNat), (16, a.firstNode.toNat)]
  | 1 => ofActive L (fun v => pack [(0, v.node.toNat), (12, bit v.twin), (16, v.rings.toNat)])
  | 2 => ofActive L (fun v => v.moduleSid.setWidth 32)
  | 3 => alkOffset s
  | 4 => pack ((List.range 8).map (fun k => (2 * k, mediumCode (sget MediumRec.reset a.media k).st)))
  | 5 => mediaWindow s
  | 6 => fcsTotal s .X
  | 7 => fcsTotal s .Y
  | 8 => lifeSat s.cellar.life.timingTotal
  | 9 => pack [(0, a.coldStarts.toNat), (8, a.silences.toNat)]
  | 10 => L.sessSel.setWidth 32
  | 11 => chosen (sessWord s L i)
  | 12 => chosen (pack [(0, x.timing.toNat), (16, x.codeErr.toNat)])
  | 13 => chosen (pack [(0, x.seqErr.toNat), (16, x.misses.toNat)])
  | 14 => chosen x.rxSeq
  | 15 => pack [(0, delayField s .X .A), (16, delayField s .X .B)]
  | 16 => pack [(0, delayField s .Y .A), (16, delayField s .Y .B)]
  | 33 => twinStateWord s l
  | 34 => twinLoadWord s
  | 35 => s.twin.digest.setWidth 32
  | 36 => (s.twin.digest >>> 32).setWidth 32
  | 37 => (s.twin.digest >>> 64).setWidth 32
  | 38 => (s.twin.digest >>> 96).setWidth 32
  | 39 => pack [(0, s.twin.rejected.toNat), (16, s.twin.stale.toNat)]
  | 40 => pack [(0, s.cellar.life.takeovers.toNat), (16, s.cellar.life.handovers.toNat)]
  | n => if 17 ≤ n ∧ n < 33 then bitWord L.alkValid (n - 17) else 0

/-! ### FLD (R289) -/

/-- States of a supply group (R290). -/
def vfCode : VfSt → Nat
  | .normal => 0 | .warning => 1 | .latched => 2 | .recovered => 3

/-- CROSSING of FLD_STATUS (R290). -/
def crossingCode (x : LaneFld) (u : UpFrame) : Nat := if u.fault.isSome then 3 else if x.lost || u.lost then 2 else 1

/-- FLD_STATUS of a lane (R290). -/
def fldStatus (x : LaneFld) : Word :=
  match x.last with
  | none => pack [(16, x.exact.toNat)]
  | some u => pack [(0, crossingCode x u), (2, bit u.configured), (4, fieldFaultCode u.fault), (8, vfCode u.g1), (10, vfCode u.g2),
      (12, u.enabled.toNat), (16, x.exact.toNat), (20, u.streams.toNat)]

/-- The FLD block of a lane: the last accepted refresh. -/
def fldReg (s : State) (L : LaneState) (off : Nat) : Word :=
  let x := L.fld
  let ofLast := fun (f : UpFrame → Word) => match x.last with | some u => f u | none => 0
  let ofSample := fun (f : TickSample → Word) => ofLast (fun u => match u.sample with | some t => f t | none => 0)
  match off / 4 with
  | 0 => fldStatus x
  | 1 => ofLast (fun u => pack [(0, u.vf1.toNat), (16, u.vf2.toNat)])
  | 2 => ofSample (fun t => t.inValue.setWidth 32)
  | 3 => ofSample (fun t => (t.inValue >>> 32).setWidth 32)
  | 4 => ofSample (fun t => t.inValid.setWidth 32)
  | 5 => ofSample (fun t => (t.inValid >>> 32).setWidth 32)
  | 6 => ofSample (fun t => t.pairState.setWidth 32)
  | 7 => ofSample (fun t => (t.pairState >>> 32).setWidth 32)
  | 8 => ofLast (·.outState)
  | 9 => x.outSel.setWidth 32
  | 10 => ofLast (fun u => sget 0 u.outDiag x.outSel.toNat)
  | 11 => ofLast (fun u => pack [(0, u.tpOk.toNat), (16, u.failing)])
  | 12 => sget 0 x.totals 0
  | 13 => sget 0 x.totals 1
  | 14 => sget 0 x.totals 2
  | 15 => sget 0 x.totals 3
  | 16 => pack [(0, match x.last with | some u => u.downErr.toNat | none => 0), (16, x.upErr.toNat)]
  | 17 => BitVec.ofNat 32 (min 4 (inWindow s.mod.tickTime day24 s.cellar.life.crossingLosses).length)
  | 18 => ofLast (fun u => u.temp.setWidth 32)
  | _ => 0

/-! ### PWR, MBX (R325, R514) -/

/-- The PWR block of a lane. -/
def pwrReg (s : State) (L : LaneState) (off : Nat) : Word :=
  let p := L.pwr
  match off / 4 with
  | 0 => pack [(0, bit p.coreWarn), (1, bit s.mod.v3Warn), (2, bit s.mod.powerFlush)]
  | 1 => pack [(0, p.coreMv.toNat), (16, p.v3Mv.toNat)]
  | 2 => pack [(0, p.ioMv.toNat), (16, p.anaMv.toNat)]
  | 3 => p.temp.setWidth 32
  | 4 => pack [(0, p.coreWarns.toNat), (16, p.v3Warns.toNat)]
  | _ => 0

/-- The ring that MBX_RING_SEL names: its kind and number (R327). -/
def selKind (x : PortState) : RingKind := if x.ringSel.getLsbD 4 then .cq else .sq
def selRing (x : PortState) : Fin 16 := ⟨x.ringSel.toNat % 16, Nat.mod_lt _ (by decide)⟩

/-- The selected ring. -/
def ringShown (s : State) (p : Port) : Ring :=
  let x := s.ports.get p
  match selKind x with
  | .sq => sqOf s p (selRing x).val
  | .cq => cqOf s p (selRing x).val

/-- HALT codes (R327). -/
def haltCode : HaltCause → Nat
  | .none => 0 | .dma => 1 | .linkHold => 2 | .setup => 3

/-- MBX_RING_CTRL of the selected ring: fields of the other kind read 0 (R327). -/
def ringCtrlWord (s : State) (p : Port) : Word :=
  let r := ringShown s p
  match selKind (s.ports.get p) with
  | .sq => pack [(0, bit r.enabled), (4, r.sizeLog2.toNat), (8, r.cq.toNat)]
  | .cq => pack [(0, bit r.enabled), (4, r.sizeLog2.toNat), (12, bit r.irqEn), (16, r.coalesce.toNat)]

/-- RUN of the selected ring (R327): paused by a descriptor that did not fit, by a full CQ, or with its port (R466). -/
def ringRun (s : State) (p : Port) : Nat :=
  let r := ringShown s p
  let full := match selKind (s.ports.get p) with | .sq => cqFull (cqOf s p r.cq.toNat) || (s.ports.get p).paused | .cq => false
  if r.halt ≠ .none then 3 else if !r.enabled then 0 else if r.kept || full then 2 else 1

/-- The MBX block of a port. -/
def mbxReg (s : State) (p : Port) (off : Nat) : Word :=
  let x := s.ports.get p
  let f := s.cellar.life
  let r := ringShown s p
  match off / 4 with
  | 0 => pack [(0, bit x.linkUp), (1, x.speed.toNat), (3, p.idx + 1), (5, bit x.holdExpired)]
  | 1 => pack [(0, bit x.statusEn), (16, x.linkHold.toNat)]
  | 2 => loWord x.statusBase
  | 3 => hiWord x.statusBase
  | 4 => x.ringSel.setWidth 32
  | 5 => ringCtrlWord s p
  | 6 => loWord r.base
  | 7 => hiWord r.base
  | 8 => pack [(0, r.head.toNat), (16, r.tail.toNat), (28, ringRun s p), (30, haltCode r.halt)]
  | 9 => pack [(0, (epochNow s).toNat), (16, statusRole s)]
  | 10 => hostSid s p
  | 11 => f.refuse.get p
  | 12 => f.stale.get p
  | 13 => f.authFail.get p
  | 14 => pack [(0, x.doorbellErr.toNat), (16, x.accessErr.toNat)]
  | _ => 0

/-! ### CEL, UPD (R422, R454) -/

/-- DEV codes (R423). -/
def devCode : DevSt → Nat
  | .notRead => 0 | .good => 1 | .failed => 2

/-- CEL_CODE_LIMIT (R425). -/
def codeLimitWord (L : LaneState) : Word :=
  match codeLimit L.bank.active L.cel.codeSel.toNat with
  | some (rate, burst) => pack [(0, rate), (16, burst), (24, 1)]
  | none => 0

/-- CEL_CODE_STATE (R425): a code that is not used, or never limited, shows no bucket. -/
def codeStateWord (L : LaneState) : Word :=
  let c := L.cel.codeSel.toNat
  if (codeClass c).isNone then 0
  else
    let b := sget Bucket.reset L.cel.buckets c
    let tokens := match codeLimit L.bank.active c with
      | some (_, burst) => (burst * 1000000 - b.used) / 1000000
      | none => 0
    pack [(0, tokens), (8, bit (bget L.cel.inStaging c)),
      (16, min 32767 b.window), (31, bit (decide (b.window ≥ 32767)))]

/-- The CEL block of a lane. A flush by FLUSH is one step of the model, so FLUSHING shows the flush that is the first part of a BIST (R457;
DESIGN CHOICE, log entry 84). -/
def celReg (s : State) (l : Lane) (off : Nat) : Word :=
  let L := lane s l
  let c := s.cellar
  match off / 4 with
  | 0 => pack [(0, devCode c.dev0), (2, devCode c.dev1), (4, bit (!stages s l)), (5, bit (decide (c.keeper = some l))), (6, bit (decide (L.bist.phase = 1))), (7, bit (seqSat c))]
  | 1 => pack [(0, (stagedBytes L.cel + 1023) / 1024), (16, L.cel.staging.length)]
  | 2 => L.cel.peak
  | 3 => loWord c.nextSeq
  | 4 => hiWord c.nextSeq
  | 5 => loWord c.firstSeq
  | 6 => hiWord c.firstSeq
  | 7 => L.cel.lastFlush
  | 8 => L.cel.lost
  | 9 => L.cel.devErr
  | 10 => L.cel.codeSel.setWidth 32
  | 11 => codeLimitWord L
  | 12 => codeStateWord L
  | _ => 0

/-- STATE of UPD_STAGE (R455): nothing staged reads EMPTY. -/
def bankCode (b : Bank) : Nat :=
  match b.st with
  | .receiving => 1
  | .empty => 0
  | .staged => if b.staged.isSome then 2 else 0
  | .previous => if b.staged.isSome then 3 else 0

/-- Slot states (R456). -/
def slotStCode : SlotSt → Nat
  | .empty => 0 | .valid => 1 | .parked => 2 | .rejected => 3

/-- Whole seconds until a PREVIOUS vintage expires (R454). -/
def prevLeft (s : State) (b : Bank) : Nat :=
  if b.st = .previous then min 3600 ((b.expiry.toNat - s.mod.tickTime.toNat) / 1000000000) else 0

/-- The staged bank's parameter check value: 0 in EMPTY and RECEIVING (R454). -/
def stagedCheckShown (b : Bank) : BitVec 64 := if bankCode b ≥ 2 then b.stagedCheck else 0

/-- The ROM registers of the UPD block, in a lane that executes its recovery ROM; they show how it ended until the firmware starts (R451, R452, R454). -/
def romReg (L : LaneState) (off : Nat) : Word :=
  match off / 4 with
  | 64 => loWord L.boot.romAddr
  | 65 => hiWord L.boot.romAddr
  | 66 => L.boot.romLen
  | 68 => L.boot.romStatus
  | _ => 0

/-- The UPD block of a lane. -/
def updReg (s : State) (L : LaneState) (off : Nat) : Word :=
  let b := L.bank
  let x := L.boot
  match off / 4 with
  | 0 => ofActive L (·.number)
  | 1 => if bankCode b = 0 then 0 else b.number
  | 2 => pack [(0, bankCode b), (2, bit b.verifying), (8, b.reason.toNat)]
  | 3 => BitVec.ofNat 32 b.bytes
  | 4 => ofActive L (fun _ => loWord b.activeCheck)
  | 5 => ofActive L (fun _ => hiWord b.activeCheck)
  | 6 => loWord (stagedCheckShown b)
  | 7 => hiWord (stagedCheckShown b)
  | 8 => BitVec.ofNat 32 (prevLeft s b)
  | 9 => b.rackReg
  | 10 => x.slot0
  | 11 => x.slot1
  | 12 => pack [(0, if x.slotsRead then bit x.slot + 2 * slotStCode x.st0 + 8 * slotStCode x.st1 else 0), (8, x.step.toNat), (16, x.reason.toNat), (24, x.failed)]
  | 13 => s.cellar.life.versionFloor
  | _ => if L.life.rom || decide (L.life.st = .boot) then romReg L off else 0

/-! ### EIC (R378) -/

/-- Code of a target. -/
def targetCode : EicTarget → Nat
  | .sc => 0 | .h0 => 1 | .h1 => 2

/-- STATE of a source (R381). -/
def srcCode : SrcSt → Nat
  | .idle => 0 | .pending => 1 | .claimed => 2 | .claimedAgain => 3

/-- A used source's bit in a bitmap word (R378). -/
def eicBits (e : Eic) (n : Nat) (f : EicSrc → Bool) : Word :=
  bitsFrom 32 (fun i => eicUsed (32 * n + i) && f (eicSrc e (32 * n + i)))

/-- EIC_SRC_CFG (R381). -/
def srcCfg (e : Eic) (n : Nat) : Word :=
  let x := eicSrc e n
  if eicUsed n then pack [(0, x.priority.toNat), (4, x.vector.toNat), (8, bit (eicLevelKind n)), (9, 1)] else 0

/-- EIC_SRC_STATUS (R381). -/
def srcStatus (e : Eic) (n : Nat) : Word :=
  let x := eicSrc e n
  let claimed := decide (x.st = .claimed) || decide (x.st = .claimedAgain)
  if eicUsed n then
    pack [(0, srcCode x.st), (2, bit x.enabled), (3, targetCode (eicRoute x)), (5, bit x.level), (6, bit (eicPresented e x).isSome),
      (7, bit x.ovf), (8, x.count.toNat), (16, if claimed then targetCode x.claimedBy else 0), (18, bit x.moved.isSome)]
  else 0

/-- Sources presented to a target (R379). -/
def presentedTo (e : Eic) (t : EicTarget) : Nat := (e.srcs.filter (fun x => decide (eicPresented e x.2 = some t))).length

/-- EIC_TGT_STATUS of a target (R379). -/
def targetStatus (s : State) (e : Eic) (t : EicTarget) : Word :=
  let asleep := match eicPort t with | some p => !(s.ports.get p).linkUp || !ringRuns s p | none => false
  let moving := match eicPort t with | some p => e.moving.get p | none => false
  pack [(0, bit asleep), (1, bit moving), (8, presentedTo e t)]

/-- A source is pending: PENDING or CLAIMED_AGAIN; claimed: CLAIMED or CLAIMED_AGAIN (R378). -/
def srcPending (x : EicSrc) : Bool := decide (x.st = .pending) || decide (x.st = .claimedAgain)
def srcClaimed (x : EicSrc) : Bool := decide (x.st = .claimed) || decide (x.st = .claimedAgain)

/-- The bitmap registers (R378): pairs of set and clear registers show the same bits. -/
def eicMap (e : Eic) (k n : Nat) : Word :=
  match k with
  | 0 => eicBits e n (·.enabled)
  | 1 => eicBits e n (·.enabled)
  | 2 => eicBits e n srcPending
  | 3 => eicBits e n srcPending
  | 4 => eicBits e n (·.h0)
  | 5 => eicBits e n (·.h0)
  | 6 => eicBits e n (·.h1)
  | 7 => eicBits e n (·.h1)
  | 8 => eicBits e n srcPending
  | 9 => eicBits e n (·.level)
  | 10 => eicBits e n srcClaimed
  | 11 => eicBits e n (·.ovf)
  | _ => 0

/-- The EIC block of a lane. -/
def eicReg (s : State) (l : Lane) (off : Nat) : Word :=
  let e := (lane s l).eic
  if 0x3000 ≤ off ∧ off < 0x4000 then srcStatus e ((off - 0x3000) / 4)
  else if 0x2000 ≤ off ∧ off < 0x3000 then srcCfg e ((off - 0x2000) / 4)
  else if 0x1000 ≤ off ∧ off < 0x1600 then eicMap e ((off - 0x1000) / 128) ((off - 0x1000) % 128 / 4)
  else match off with
    | 0x000 => pack [(0, 0x400), (16, l.idx + 1)]
    | 0x004 => pack [(0, e.badComplete.toNat), (16, e.movedCount.toNat)]
    | 0x100 => e.thrSc.setWidth 32
    | 0x140 => e.thrH0.setWidth 32
    | 0x180 => e.thrH1.setWidth 32
    | 0x10C => targetStatus s e .sc
    | 0x14C => targetStatus s e .h0
    | 0x18C => targetStatus s e .h1
    | 0x150 => BitVec.ofNat 32 (bit e.fbH0)
    | 0x190 => BitVec.ofNat 32 (bit e.fbH1)
    | _ => 0

/-! ### CHK (R390, R396) -/

/-- Head of a session context (R390): SID, KIND, whether a receive reference is held, RX_SEQ, TX_SEQ. -/
structure CtxHead where
  sid : Nat
  kind : Nat
  ref : Bool
  rxSeq : Word
  txSeq : Word
deriving DecidableEq, Repr

/-- A context that is not used. -/
def noCtx : CtxHead := { sid := 0, kind := 0, ref := false, rxSeq := 0, txSeq := 0 }

/-- The context of a station or peer session. -/
def sessCtx (L : LaneState) (i sid kind : Nat) : CtxHead :=
  let x := sessOf L i
  { sid := sid, kind := kind, ref := x.rxRef, rxSeq := x.rxSeq, txSeq := x.txSeq }

/-- The context of a receive side with an optional reference. -/
def refCtx (sid kind : Nat) (r : Option Word) (tx : Word) : CtxHead :=
  { sid := sid, kind := kind, ref := r.isSome, rxSeq := r.getD 0, txSeq := tx }

/-- The context of a submission ring; without an active vintage HOST_SID is 0 (R303, R390). -/
def ringCtx (L : LaneState) (p : Port) (q : Nat) : CtxHead :=
  refCtx (match L.bank.active with | some v => (v.hostSid.get p).toNat | none => 0) 4 (ledgerOf L p q).last 0

/-- Contexts that the active vintage gives a meaning (R390). -/
def ctxOf (s : State) (l : Lane) (L : LaneState) (v : Vintage) (i : Nat) : CtxHead :=
  if decide (i < 512) then (match (v.stations.drop i).head? with | some c => sessCtx L i c.sid.toNat 1 | none => noCtx)
  else if decide (i < 576) then (match (v.peers.drop (i - 512)).head? with | some c => sessCtx L i c.sid.toNat 2 | none => noCtx)
  else if v.twin then refCtx v.partnerSid.toNat 3 (ownTwin s l).rxSeq s.twin.txSeq
  else noCtx

/-- Contexts by index: 609 and above are not used (R390). -/
def ctxAt (s : State) (l : Lane) (L : LaneState) (i : Nat) : CtxHead :=
  if decide (609 ≤ i) then noCtx
  else if decide (593 ≤ i) then ringCtx L .p1 (i - 593)
  else if decide (577 ≤ i) then ringCtx L .p0 (i - 577)
  else match L.bank.active with | some v => ctxOf s l L v i | none => noCtx

/-- Word n of the 64 bytes of the chosen session context (R390); no frame is in flight between commands, so RUN reads 0
(R391). -/
def ctxWord (s : State) (l : Lane) (L : LaneState) (n : Nat) : Word :=
  let h := ctxAt s l L L.chk.ctxSel.toNat
  match n with
  | 0 => BitVec.ofNat 32 h.sid
  | 1 => BitVec.ofNat 32 (h.kind + 256 * bit h.ref)
  | 2 => h.rxSeq
  | 3 => h.txSeq
  | _ => 0

/-- Registers of a user context (R398). -/
def userReg (l : Lane) (L : LaneState) (u n : Nat) : Word :=
  let c := userCtx L u
  match n with
  | 0 => c.ctrl
  | 1 => vput c.status 0 (ctxBusy l L c)
  | 2 => loWord c.poly
  | 3 => hiWord c.poly
  | 4 => loWord c.init
  | 5 => hiWord c.init
  | 6 => loWord c.xorout
  | 7 => hiWord c.xorout
  | 8 => loWord c.run
  | 9 => hiWord c.run
  | 10 => loWord c.expect
  | 11 => hiWord c.expect
  | 12 => loWord c.result
  | 13 => hiWord c.result
  | 14 => c.bytes
  | _ => 0

/-- The CHK block of a lane. -/
def chkReg (s : State) (l : Lane) (L : LaneState) (off : Nat) : Word :=
  let k := L.chk
  if 0x1000 ≤ off ∧ off < 0x2000 then userReg l L ((off - 0x1000) / 64) ((off - 0x1000) % 64 / 4)
  else if 0x140 ≤ off ∧ off < 0x180 then ctxWord s l L ((off - 0x140) / 4)
  else match off with
    | 0x000 => 0x00400280
    | 0x004 => pack [(0, k.kat.toNat), (4, bit k.netFault), (16, k.katCycle.toNat)]
    | 0x008 => (loadShare s l).setWidth 32
    | 0x100 => k.ctxSel.setWidth 32
    | _ => 0

/-! ### A lane window (R298, R299) -/

/-- The port whose MBX block an access sees: the one it came through, or the one whose ring lane the service core runs in
(R325). -/
def mbxPort (a : RegAccess) : Option Port := match a.port with | some p => some p | none => ringPort a.lane

/-- The register at an offset of a lane window; an offset that no block defines reads 0 (R298, R299). -/
def windowReg (s : State) (a : RegAccess) (off : Nat) : Word :=
  let l := a.lane
  let L := lane s l
  let o := off % 0x1000
  if off % 4 ≠ 0 then 0
  else match off / 0x1000 with
    | 0 => laneReg s l o
    | 1 => prsReg L l o
    | 2 => raaReg s L o
    | 3 => slcReg s l o
    | 4 => alkReg s l o
    | 5 => fldReg s L o
    | 6 => pwrReg s L o
    | 7 => match mbxPort a with | some p => mbxReg s p o | none => 0
    | 8 => celReg s l o
    | 9 => updReg s L o
    | n => if 0x10 ≤ n ∧ n < 0x20 then eicReg s l (off - 0x10000) else if 0x20 ≤ n ∧ n < 0x30 then chkReg s l L (off - 0x20000) else 0

/-- The endpoint of a lane in ROM recovery shows the UPD block alone (R451). -/
def throughRom (s : State) (a : RegAccess) : Bool :=
  (lane s a.lane).life.rom && a.port.isSome && decide (a.port = ringPort a.lane) && decide (s.mod.st ≠ .off)

/-- The window of a lane in ROM recovery is read through another port, or by the service core: its recovery ROM answers for what it is and for
its image, and every other block reads 0 (R23, R451; DESIGN CHOICE, log entry 83). -/
def romAnswers (s : State) (a : RegAccess) : Bool :=
  (lane s a.lane).life.rom && decide (s.mod.st ≠ .off) &&
  (match a.port with | some p => runs s p.ringLane && !portSilent s p | none => true)

/-- What the recovery ROM shows of its window. -/
def romWindow (s : State) (l : Lane) (off : Nat) : Word :=
  if off % 4 ≠ 0 then 0
  else match off / 0x1000 with
    | 0 => laneReg s l (off % 0x1000)
    | 9 => updReg s (lane s l) (off % 0x1000)
    | _ => 0

/-- What a register read returns (R299): a lane that gives no answer reads all ones. -/
def regRead (s : State) (a : RegAccess) (off : Nat) : Word :=
  if throughRom s a then updReg s (lane s a.lane) off
  else if romAnswers s a then romWindow s a.lane off
  else if reaches s a then windowReg s a off else 0xFFFFFFFF

end Sys2Proof.Machine
end

