-- ==== Sys2Proof/Machine/RegisterWrites.lean ====
section
/-!
DEFINITION. REGISTER_WRITE (R10, R298, R299): a 32-bit write to an offset of a lane window. A write to a register whose behaviour
has a row of its own acts as that row does.
-/

namespace Sys2Proof.Machine

/-- The state after a command that answers one. -/
def thenState (s : State) : Host.Outcome State Fault Refusal → State
  | .next t => t
  | .fault _ => s
  | .refused _ => s

/-! ### MBX (R301, R325 to R327) -/

/-- Change the selected ring of a port. -/
def modShown (s : State) (p : Port) (f : Ring → Ring) : State :=
  let x := s.ports.get p
  match selKind x with
  | .sq => modSq s p (selRing x).val f
  | .cq => modCq s p (selRing x).val f

/-- MBX_RING_CTRL: ENABLE starts or stops the selected ring; the other fields take effect while it is disabled (R301, R327). -/
def writeRingCtrl (s : State) (p : Port) (v : Word) : State :=
  let k := selKind (s.ports.get p)
  let q := selRing (s.ports.get p)
  match (ringShown s p).enabled, v.getLsbD 0 with
  | true, true => s
  | true, false => thenState s (execRingDisable p k q s)
  | false, true => thenState s (execRingEnable p k q v s)
  | false, false => modShown s p (ringFields k v)

/-- A half of a 64-bit address, whose low 12 bits read 0 (R326). -/
def putAddr (x : BitVec 64) (high : Bool) (v : Word) : BitVec 64 := putHalf x high (if high then v else v &&& 0xFFFFF000)

/-- The base of the selected ring: ignored while the ring is enabled (R301). -/
def writeRingBase (s : State) (p : Port) (high : Bool) (v : Word) : State :=
  modShown s p (fun r => if r.enabled then r else { r with base := putAddr r.base high v })

/-- Writes to the MBX block of a port (R325). -/
def writeMbx (s : State) (p : Port) (off : Nat) (v : Word) : State :=
  match off with
  | 0x04 => modPort s p (fun x => { x with statusEn := v.getLsbD 0, linkHold := BitVec.ofNat 10 (field v 25 16) })
  | 0x08 => modPort s p (fun x => { x with statusBase := putAddr x.statusBase false v })
  | 0x0C => modPort s p (fun x => { x with statusBase := putAddr x.statusBase true v })
  | 0x10 => modPort s p (fun x => { x with ringSel := v.setWidth 5 })
  | 0x14 => writeRingCtrl s p v
  | 0x18 => writeRingBase s p false v
  | 0x1C => writeRingBase s p true v
  | _ => s

/-! ### EIC (R369, R378, R379, R381) -/

/-- The bitmap registers from offset 0x1000. -/
def writeEicMap (s : State) (a : RegAccess) (k : Nat) (n : Fin 32) (v : Word) : State :=
  match k with
  | 0 => thenState s (execEicEnableSet a n v s)
  | 1 => thenState s (execEicEnableClr a n v s)
  | 2 => thenState s (execEicPendingSet a n v s)
  | 3 => thenState s (execEicPendingClr a n v s)
  | 4 => thenState s (execEicTargetH0Set a n v s)
  | 5 => thenState s (execEicTargetH0Clr a n v s)
  | 6 => thenState s (execEicTargetH1Set a n v s)
  | 7 => thenState s (execEicTargetH1Clr a n v s)
  | 8 => thenState s (execEicCompatPend a n v s)
  | 11 => thenState s (execEicOvfClr a n v s)
  | _ => s

/-- Thresholds, fallbacks and complete ports (R379, R380). -/
def writeEicTarget (s : State) (a : RegAccess) (off : Nat) (v : Word) : State :=
  let e := (lane s a.lane).eic
  match off with
  | 0x100 => eicSettleAll s a.lane { e with thrSc := v.setWidth 3 }
  | 0x140 => eicSettleAll s a.lane { e with thrH0 := v.setWidth 3 }
  | 0x180 => eicSettleAll s a.lane { e with thrH1 := v.setWidth 3 }
  | 0x150 => eicSettleAll s a.lane { e with fbH0 := v.getLsbD 0 }
  | 0x190 => eicSettleAll s a.lane { e with fbH1 := v.getLsbD 0 }
  | 0x108 => thenState s (execEicComplete a .sc v s)
  | 0x148 => thenState s (execEicComplete a .h0 v s)
  | 0x188 => thenState s (execEicComplete a .h1 v s)
  | _ => s

/-- Writes to the EIC block. -/
def writeEic (s : State) (a : RegAccess) (off : Nat) (v : Word) : State :=
  if 0x2000 ≤ off ∧ off < 0x3000 then
    eicUpd s a.lane ((off - 0x2000) / 4) (fun x => { x with priority := v.setWidth 3, vector := (v >>> 4).setWidth 4 })
  else if 0x1000 ≤ off ∧ off < 0x1600 then
    writeEicMap s a ((off - 0x1000) / 128) ⟨(off - 0x1000) % 128 / 4, by omega⟩ v
  else writeEicTarget s a off v

/-! ### CHK (R395 to R398) -/

/-- Parameters of a user context are judged as they are written (R392). -/
def writeParam (s : State) (l : Lane) (u : Nat) (f : UserCtx → UserCtx) : State :=
  modLane s l (fun L => modUser L u (fun c => ctxJudge (f c)))

/-- CHK_U_CMD: CLOSE before INIT (R395, R398). -/
def writeUserCmd (s : State) (a : RegAccess) (u : Fin 64) (v : Word) : State :=
  if v.getLsbD 1 then thenState s (execChkClose a u (v.getLsbD 0) s)
  else if v.getLsbD 0 then thenState s (execChkInit a u s)
  else s

/-- Writes to a user context's registers by word. -/
def writeUser (s : State) (a : RegAccess) (u : Fin 64) (n : Nat) (v : Word) : State :=
  let l := a.lane
  match n with
  | 0 => thenState s (execChkUCtrl a u v s)
  | 1 => modLane s l (fun L => modUser L u.val (fun c => { c with status := c.status &&& ~~~ (v &&& 6) }))
  | 2 => writeParam s l u.val (fun c => { c with poly := putHalf c.poly false v })
  | 3 => writeParam s l u.val (fun c => { c with poly := putHalf c.poly true v })
  | 4 => writeParam s l u.val (fun c => { c with init := putHalf c.init false v })
  | 5 => writeParam s l u.val (fun c => { c with init := putHalf c.init true v })
  | 6 => writeParam s l u.val (fun c => { c with xorout := putHalf c.xorout false v })
  | 7 => writeParam s l u.val (fun c => { c with xorout := putHalf c.xorout true v })
  | 8 => thenState s (execChkURun a u false v s)
  | 9 => thenState s (execChkURun a u true v s)
  | 10 => modLane s l (fun L => modUser L u.val (fun c => { c with expect := putHalf c.expect false v }))
  | 11 => modLane s l (fun L => modUser L u.val (fun c => { c with expect := putHalf c.expect true v }))
  | 15 => writeUserCmd s a u v
  | _ => s

/-- Writes to the CHK block. -/
def writeChk (s : State) (a : RegAccess) (off : Nat) (v : Word) : State :=
  if 0x1000 ≤ off ∧ off < 0x2000 then
    writeUser s a ⟨(off - 0x1000) / 64 % 64, Nat.mod_lt _ (by decide)⟩ ((off - 0x1000) % 64 / 4) v
  else if off = 0x100 then modLane s a.lane (fun L => { L with chk := { L.chk with ctxSel := v.setWidth 10 } })
  else s

/-! ### The window -/

/-- The ROM registers, in a lane that executes its recovery ROM (R451, R454), by their offset in the UPD block; UPD_ROM_CMD has a row of its own. -/
def writeRom (s : State) (l : Lane) (off : Nat) (v : Word) : State :=
  let f := fun (g : Boot → Boot) => modLane s l (fun L => { L with boot := g L.boot })
  match off with
  | 0x100 => f (fun b => { b with romAddr := putHalf b.romAddr false v })
  | 0x104 => f (fun b => { b with romAddr := putHalf b.romAddr true v })
  | 0x108 => f (fun b => { b with romLen := v })
  | _ => s

/-- A write to an offset of a lane window (R298): fields under their access codes (R10). -/
def writeWindow (s : State) (a : RegAccess) (off : Nat) (v : Word) : State :=
  let l := a.lane
  match off with
  | 0x4028 => modLane s l (fun L => { L with sessSel := v.setWidth 10 })
  | 0x5024 => modLane s l (fun L => { L with fld := { L.fld with outSel := v.setWidth 4 } })
  | 0x8028 => modLane s l (fun L => { L with cel := { L.cel with codeSel := v.setWidth 16 } })
  | n =>
    if n / 0x1000 = 7 then (match mbxPort a with | some p => if ringRuns s p then writeMbx s p (n % 0x1000) v else s | none => s)
    else if 0x10000 ≤ n ∧ n < 0x20000 then writeEic s a (n - 0x10000) v
    else if 0x20000 ≤ n ∧ n < 0x30000 then writeChk s a (n - 0x20000) v
    else s

/-! ### BAR2 (R295, R368) -/

/-- What lies at an offset of BAR2. -/
inductive Bar2Place where
  | entry (vector : Fin 32) (word : Fin 4)
  | pending
  | unused
deriving DecidableEq, Repr

/-- The layout of BAR2: the table's 32 entries of four words, and one word of pending bits (R295). -/
def bar2Place (off : BitVec 13) : Bar2Place :=
  let n := off.toNat
  if n < 0x200 then .entry (Fin.ofNat 32 (n / 16)) (Fin.ofNat 4 (n / 4))
  else if 0x1000 ≤ n ∧ n < 0x1004 then .pending
  else .unused

/-- The mask bit of a vector's entry is written; a vector that is unmasked with its pending bit set is sent (R368; PRESUMED from PCI Express,
log entry 43). -/
def maskVector (v : Nat) (masked : Bool) (x : PortState) : PortState :=
  let y := { x with msixOpen := vput x.msixOpen v (!masked) }
  if !masked && x.pba.getLsbD v then putVector v { y with pba := vput y.pba v false } else y

/-- A write to BAR2 of a port: the table's words; the pending bits are not written. -/
def writeBar2 (off : BitVec 13) (value : Word) (x : PortState) : PortState :=
  match bar2Place off with
  | .entry v w =>
    if w = 3 then maskVector v.val (value.getLsbD 0) x
    else { x with msixWords := sput 0 x.msixWords (4 * v.val + w.val) value }
  | .pending => x
  | .unused => x

/-- The endpoint of a port answers: its ring lane serves it and PERST_N is high (R296, R503). -/
def endpointUp (s : State) (p : Port) : Bool := ringRuns s p && !(s.ports.get p).perst

/-- REGISTER_WRITE (R10, R299): a write that is not aligned is discarded and counted; a lane that gives no answer takes none. BAR2 is
reached through its own port only. -/
def execRegisterWrite (a : RegAccess) (place : RegPlace) (value : Word) (s : State) : Host.Outcome State Fault Refusal :=
  .next (
    match place with
    | .window offset =>
      if throughRom s a then writeRom s a.lane offset.toNat value
      else if a.port = none ∧ romAnswers s a = true then writeRom s a.lane (offset.toNat - 0x9000) value
      else if !reaches s a then s
      else if offset.toNat % 4 ≠ 0 then countAccess s a
      else writeWindow s a offset.toNat value
    | .bar2 offset =>
      match a.port with
      | none => s
      | some p =>
        if !endpointUp s p then s
        else if offset.toNat % 4 ≠ 0 then countAccess s a
        else modPort s p (writeBar2 offset value))

end Sys2Proof.Machine
end

