-- ==== Sys2Proof/Machine/Dispatch.lean ====
section
/-!
DEFINITION. One arm for each command: a direct call of its meaning.
-/

namespace Sys2Proof.Machine

/-- The effect of a command on everything but the queue. -/
def exec (i : Instr) (s : State) : Host.Outcome State Fault Refusal :=
  match i with
  | .resetRelease orderKept => Sys2Proof.Machine.execResetRelease orderKept s
  | .vdd3v3Reset => Sys2Proof.Machine.execVdd3v3Reset s
  | .rail3v3Warn mv => Sys2Proof.Machine.execRail3v3Warn mv s
  | .v3WarnRelease => Sys2Proof.Machine.execV3WarnRelease s
  | .coreRailWarn l mv => Sys2Proof.Machine.execCoreRailWarn l mv s
  | .coreWarnRelease l => Sys2Proof.Machine.execCoreWarnRelease l s
  | .coreRailReset l => Sys2Proof.Machine.execCoreRailReset l s
  | .ioAnaReset => Sys2Proof.Machine.execIoAnaReset s
  | .resetNLow => Sys2Proof.Machine.execResetNLow s
  | .clockLoss l => Sys2Proof.Machine.execClockLoss l s
  | .clockRestored l => Sys2Proof.Machine.execClockRestored l s
  | .fwWatchdog l => Sys2Proof.Machine.execFwWatchdog l s
  | .eccUncorrectable f => Sys2Proof.Machine.execEccUncorrectable f s
  | .perstN p => Sys2Proof.Machine.execPerstN p s
  | .linkDown x => Sys2Proof.Machine.execLinkDown x s
  | .linkUp p speed => Sys2Proof.Machine.execLinkUp p speed s
  | .holdExpired p => Sys2Proof.Machine.execHoldExpired p s
  | .bootFailed l => Sys2Proof.Machine.execBootFailed l s
  | .firmwareStart x => Sys2Proof.Machine.execFirmwareStart x s
  | .laneTestDone x r repairs => Sys2Proof.Machine.execLaneTestDone x r repairs s
  | .bootLimit => Sys2Proof.Machine.execBootLimit s
  | .tick => Sys2Proof.Machine.execTick s
  | .endInput => Sys2Proof.Machine.execEndInput s
  | .endLogic => Sys2Proof.Machine.execEndLogic s
  | .endVote => Sys2Proof.Machine.execEndVote s
  | .endOutput => Sys2Proof.Machine.execEndOutput s
  | .ld w space => Sys2Proof.Machine.execLd w space s
  | .ldn w space => Sys2Proof.Machine.execLdn w space s
  | .andBit w space => Sys2Proof.Machine.execAndBit w space s
  | .andnBit w space => Sys2Proof.Machine.execAndnBit w space s
  | .orBit w space => Sys2Proof.Machine.execOrBit w space s
  | .ornBit w space => Sys2Proof.Machine.execOrnBit w space s
  | .xorBit w space => Sys2Proof.Machine.execXorBit w space s
  | .st w space => Sys2Proof.Machine.execSt w space s
  | .setBit w space => Sys2Proof.Machine.execSetBit w space s
  | .rstBit w space => Sys2Proof.Machine.execRstBit w space s
  | .edgp w => Sys2Proof.Machine.execEdgp w s
  | .edgn w => Sys2Proof.Machine.execEdgn w s
  | .ton w => Sys2Proof.Machine.execTon w s
  | .tof w => Sys2Proof.Machine.execTof w s
  | .tp w => Sys2Proof.Machine.execTp w s
  | .trs w => Sys2Proof.Machine.execTrs w s
  | .ctu w => Sys2Proof.Machine.execCtu w s
  | .ctd w => Sys2Proof.Machine.execCtd w s
  | .crs w => Sys2Proof.Machine.execCrs w s
  | .cld w => Sys2Proof.Machine.execCld w s
  | .lw w => Sys2Proof.Machine.execLw w s
  | .sw w => Sys2Proof.Machine.execSw w s
  | .li w => Sys2Proof.Machine.execLi w s
  | .lih w => Sys2Proof.Machine.execLih w s
  | .add w => Sys2Proof.Machine.execAdd w s
  | .sub w => Sys2Proof.Machine.execSub w s
  | .cmpeq w => Sys2Proof.Machine.execCmpeq w s
  | .cmpge w => Sys2Proof.Machine.execCmpge w s
  | .cmplt w => Sys2Proof.Machine.execCmplt w s
  | .wand w => Sys2Proof.Machine.execWand w s
  | .wor w => Sys2Proof.Machine.execWor w s
  | .tld w => Sys2Proof.Machine.execTld w s
  | .cacc w => Sys2Proof.Machine.execCacc w s
  | .xld w => Sys2Proof.Machine.execXld w s
  | .rsld w => Sys2Proof.Machine.execRsld w s
  | .satt w => Sys2Proof.Machine.execSatt w s
  | .nop w => Sys2Proof.Machine.execNop w s
  | .openBranch w => Sys2Proof.Machine.execOpenBranch w s
  | .closeBranch w => Sys2Proof.Machine.execCloseBranch w s
  | .jmp w => Sys2Proof.Machine.execJmp w s
  | .jmpc w => Sys2Proof.Machine.execJmpc w s
  | .jmpn w => Sys2Proof.Machine.execJmpn w s
  | .call w => Sys2Proof.Machine.execCall w s
  | .ret w => Sys2Proof.Machine.execRet w s
  | .bar w => Sys2Proof.Machine.execBar w s
  | .barRelease l strand => Sys2Proof.Machine.execBarRelease l strand s
  | .endStrand w => Sys2Proof.Machine.execEndStrand w s
  | .rreq w => Sys2Proof.Machine.execRreq w s
  | .rcan w => Sys2Proof.Machine.execRcan w s
  | .ecmd w => Sys2Proof.Machine.execEcmd w s
  | .rreqDecision l => Sys2Proof.Machine.execRreqDecision l s
  | .rcanDecision l => Sys2Proof.Machine.execRcanDecision l s
  | .callA l => Sys2Proof.Machine.execCallA l s
  | .callB l => Sys2Proof.Machine.execCallB l s
  | .blockElem l => Sys2Proof.Machine.execBlockElem l s
  | .unblockElem l => Sys2Proof.Machine.execUnblockElem l s
  | .virtualSet l => Sys2Proof.Machine.execVirtualSet l s
  | .virtualClear l => Sys2Proof.Machine.execVirtualClear l s
  | .resetFault l => Sys2Proof.Machine.execResetFault l s
  | .reProof l => Sys2Proof.Machine.execReProof l s
  | .overlapRelease l route => Sys2Proof.Machine.execOverlapRelease l route s
  | .cancelRelease l route => Sys2Proof.Machine.execCancelRelease l route s
  | .setTimeout l route => Sys2Proof.Machine.execSetTimeout l route s
  | .moveFault l element => Sys2Proof.Machine.execMoveFault l element s
  | .vote v => Sys2Proof.Machine.execVote v s
  | .uncaused l => Sys2Proof.Machine.execUncaused l s
  | .checkBlock path block => Sys2Proof.Machine.execCheckBlock path block s
  | .voteDigest err => Sys2Proof.Machine.execVoteDigest err s
  | .overrun f => Sys2Proof.Machine.execOverrun f s
  | .watchdog f dev => Sys2Proof.Machine.execWatchdog f dev s
  | .linkTimeout x => Sys2Proof.Machine.execLinkTimeout x s
  | .resetLine l of => Sys2Proof.Machine.execResetLine l of s
  | .laneSwitchTest l => Sys2Proof.Machine.execLaneSwitchTest l s
  | .switchTestReadback l readback => Sys2Proof.Machine.execSwitchTestReadback l readback s
  | .laneSwitchCloseTest l closed opened => Sys2Proof.Machine.execLaneSwitchCloseTest l closed opened s
  | .reinitialisation l r => Sys2Proof.Machine.execReinitialisation l r s
  | .laneSync l => Sys2Proof.Machine.execLaneSync l s
  | .stateTransfer l => Sys2Proof.Machine.execStateTransfer l s
  | .transferVerified l checks => Sys2Proof.Machine.execTransferVerified l checks s
  | .catchUp l inTime checks => Sys2Proof.Machine.execCatchUp l inTime checks s
  | .laneJoin l => Sys2Proof.Machine.execLaneJoin l s
  | .retirementClear l auth => Sys2Proof.Machine.execRetirementClear l auth s
  | .composeFrame slot medium error => Sys2Proof.Machine.execComposeFrame slot medium error s
  | .sync rx => Sys2Proof.Machine.execSync rx s
  | .leftSync => Sys2Proof.Machine.execLeftSync s
  | .backupSync x => Sys2Proof.Machine.execBackupSync x s
  | .coldStart rx => Sys2Proof.Machine.execColdStart rx s
  | .listenTimeout now => Sys2Proof.Machine.execListenTimeout now s
  | .silentTimeout => Sys2Proof.Machine.execSilentTimeout s
  | .coldStartT0 => Sys2Proof.Machine.execColdStartT0 s
  | .corruptFrame seg medium => Sys2Proof.Machine.execCorruptFrame seg medium s
  | .delayReq rx => Sys2Proof.Machine.execDelayReq rx s
  | .delayResp port arrival frame => Sys2Proof.Machine.execDelayResp port arrival frame s
  | .stationIn l station rx => Sys2Proof.Machine.execStationIn l station rx s
  | .stationDropped l station => Sys2Proof.Machine.execStationDropped l station s
  | .peer l q rx => Sys2Proof.Machine.execPeer l q rx s
  | .peerTimeout l q => Sys2Proof.Machine.execPeerTimeout l q s
  | .sessionClear session auth => Sys2Proof.Machine.execSessionClear session auth s
  | .mediumWithdrawn seg medium lockLost => Sys2Proof.Machine.execMediumWithdrawn seg medium lockLost s
  | .mediumReturned seg medium => Sys2Proof.Machine.execMediumReturned seg medium s
  | .mediumClear seg medium auth => Sys2Proof.Machine.execMediumClear seg medium auth s
  | .los seg medium port high => Sys2Proof.Machine.execLos seg medium port high s
  | .crossingRefresh m => Sys2Proof.Machine.execCrossingRefresh m s
  | .downstreamRefresh l err stampNs => Sys2Proof.Machine.execDownstreamRefresh l err stampNs s
  | .upstreamRefresh l err => Sys2Proof.Machine.execUpstreamRefresh l err s
  | .fieldTick => Sys2Proof.Machine.execFieldTick s
  | .fieldStreamLost l => Sys2Proof.Machine.execFieldStreamLost l s
  | .localLost l => Sys2Proof.Machine.execLocalLost l s
  | .localRecovered l => Sys2Proof.Machine.execLocalRecovered l s
  | .crossingRecovered => Sys2Proof.Machine.execCrossingRecovered s
  | .moduleStop => Sys2Proof.Machine.execModuleStop s
  | .fieldFault cause => Sys2Proof.Machine.execFieldFault cause s
  | .fieldFaultClear auth => Sys2Proof.Machine.execFieldFaultClear auth s
  | .fieldDieStop => Sys2Proof.Machine.execFieldDieStop s
  | .inputSample raw => Sys2Proof.Machine.execInputSample raw s
  | .pairFault pair => Sys2Proof.Machine.execPairFault pair s
  | .testPulse source lowBelow5 highAbove => Sys2Proof.Machine.execTestPulse source lowBelow5 highAbove s
  | .tpRecovered source => Sys2Proof.Machine.execTpRecovered source s
  | .counterEdge c rising => Sys2Proof.Machine.execCounterEdge c rising s
  | .offTest n => Sys2Proof.Machine.execOffTest n s
  | .offTestEnd n fell risen => Sys2Proof.Machine.execOffTestEnd n fell risen s
  | .onTest n => Sys2Proof.Machine.execOnTest n s
  | .onTestEnd n drivenMa returnedMa others => Sys2Proof.Machine.execOnTestEnd n drivenMa returnedMa others s
  | .terminalHighOff n => Sys2Proof.Machine.execTerminalHighOff n s
  | .overload n ma => Sys2Proof.Machine.execOverload n ma s
  | .short n => Sys2Proof.Machine.execShort n s
  | .overTemp n => Sys2Proof.Machine.execOverTemp n s
  | .overloadRetry n junctionBelow135 => Sys2Proof.Machine.execOverloadRetry n junctionBelow135 s
  | .tripCountReset n => Sys2Proof.Machine.execTripCountReset n s
  | .openWire n => Sys2Proof.Machine.execOpenWire n s
  | .loadOkReturn n => Sys2Proof.Machine.execLoadOkReturn n s
  | .outputRetireClear n auth => Sys2Proof.Machine.execOutputRetireClear n auth s
  | .vfMeasure vf1 vf2 => Sys2Proof.Machine.execVfMeasure vf1 vf2 s
  | .vfLatch group2 => Sys2Proof.Machine.execVfLatch group2 s
  | .vfRecovered group2 => Sys2Proof.Machine.execVfRecovered group2 s
  | .registerWrite a place value => Sys2Proof.Machine.execRegisterWrite a place value s
  | .peerAccessTimeout p l write => Sys2Proof.Machine.execPeerAccessTimeout p l write s
  | .sqTailDoorbell p q value => Sys2Proof.Machine.execSqTailDoorbell p q value s
  | .cqHeadDoorbell p q value => Sys2Proof.Machine.execCqHeadDoorbell p q value s
  | .ringEnable p kind q ctrl => Sys2Proof.Machine.execRingEnable p kind q ctrl s
  | .ringDisable p kind q => Sys2Proof.Machine.execRingDisable p kind q s
  | .descriptorFetch p q desc second => Sys2Proof.Machine.execDescriptorFetch p q desc second s
  | .routeRequest p q desc => Sys2Proof.Machine.execRouteRequest p q desc s
  | .routeCancel p q desc => Sys2Proof.Machine.execRouteCancel p q desc s
  | .elementCommand p q desc => Sys2Proof.Machine.execElementCommand p q desc s
  | .stationAdmit p q desc => Sys2Proof.Machine.execStationAdmit p q desc s
  | .imageRead p q desc => Sys2Proof.Machine.execImageRead p q desc s
  | .cellarRead p q x => Sys2Proof.Machine.execCellarRead p q x s
  | .cellarClear p q desc second => Sys2Proof.Machine.execCellarClear p q desc second s
  | .stageProgram p q desc data parts => Sys2Proof.Machine.execStageProgram p q desc data parts s
  | .vintageStaged errors norOk => Sys2Proof.Machine.execVintageStaged errors norOk s
  | .stageFirmware p q desc second data signed => Sys2Proof.Machine.execStageFirmware p q desc second data signed s
  | .imageBuildDone l signed writeOk => Sys2Proof.Machine.execImageBuildDone l signed writeOk s
  | .rack p q desc second => Sys2Proof.Machine.execRack p q desc second s
  | .vintageSwitch l => Sys2Proof.Machine.execVintageSwitch l s
  | .previousExpired => Sys2Proof.Machine.execPreviousExpired s
  | .confirmParameters p q desc second => Sys2Proof.Machine.execConfirmParameters p q desc second s
  | .timeSet p q desc => Sys2Proof.Machine.execTimeSet p q desc s
  | .fence p q desc => Sys2Proof.Machine.execFence p q desc s
  | .authExt p q desc => Sys2Proof.Machine.execAuthExt p q desc s
  | .completionWrite p => Sys2Proof.Machine.execCompletionWrite p s
  | .coalesceExpiry p q => Sys2Proof.Machine.execCoalesceExpiry p q s
  | .dmaError p x => Sys2Proof.Machine.execDmaError p x s
  | .dmaTimeout p x => Sys2Proof.Machine.execDmaTimeout p x s
  | .twin l rx => Sys2Proof.Machine.execTwin l rx s
  | .takeover => Sys2Proof.Machine.execTakeover s
  | .handoverRequest auth => Sys2Proof.Machine.execHandoverRequest auth s
  | .handover => Sys2Proof.Machine.execHandover s
  | .loadStart => Sys2Proof.Machine.execLoadStart s
  | .loadFail => Sys2Proof.Machine.execLoadFail s
  | .loadRetry => Sys2Proof.Machine.execLoadRetry s
  | .loadRestart auth => Sys2Proof.Machine.execLoadRestart auth s
  | .eventArrival l source => Sys2Proof.Machine.execEventArrival l source s
  | .fallbackMove l p => Sys2Proof.Machine.execFallbackMove l p s
  | .eicClaim a t => Sys2Proof.Machine.execEicClaim a t s
  | .eicComplete a t value => Sys2Proof.Machine.execEicComplete a t value s
  | .eicEnableSet a n value => Sys2Proof.Machine.execEicEnableSet a n value s
  | .eicEnableClr a n value => Sys2Proof.Machine.execEicEnableClr a n value s
  | .eicPendingSet a n value => Sys2Proof.Machine.execEicPendingSet a n value s
  | .eicPendingClr a n value => Sys2Proof.Machine.execEicPendingClr a n value s
  | .eicTargetH0Set a n value => Sys2Proof.Machine.execEicTargetH0Set a n value s
  | .eicTargetH0Clr a n value => Sys2Proof.Machine.execEicTargetH0Clr a n value s
  | .eicTargetH1Set a n value => Sys2Proof.Machine.execEicTargetH1Set a n value s
  | .eicTargetH1Clr a n value => Sys2Proof.Machine.execEicTargetH1Clr a n value s
  | .eicCompatPend a n value => Sys2Proof.Machine.execEicCompatPend a n value s
  | .eicOvfClr a n value => Sys2Proof.Machine.execEicOvfClr a n value s
  | .laneLogicPeak a => Sys2Proof.Machine.execLaneLogicPeak a s
  | .laneRaaPeak a => Sys2Proof.Machine.execLaneRaaPeak a s
  | .prsStackPeak a => Sys2Proof.Machine.execPrsStackPeak a s
  | .raaHoldoverPeak a => Sys2Proof.Machine.execRaaHoldoverPeak a s
  | .chkLoadPeak a => Sys2Proof.Machine.execChkLoadPeak a s
  | .celStagePeak a => Sys2Proof.Machine.execCelStagePeak a s
  | .chkInit a u => Sys2Proof.Machine.execChkInit a u s
  | .chkClose a u alsoInit => Sys2Proof.Machine.execChkClose a u alsoInit s
  | .chkURun a u high value => Sys2Proof.Machine.execChkURun a u high value s
  | .chkUCtrl a u value => Sys2Proof.Machine.execChkUCtrl a u value s
  | .engineSelfCheck l found => Sys2Proof.Machine.execEngineSelfCheck l found s
  | .networkMismatch l => Sys2Proof.Machine.execNetworkMismatch l s
  | .flush l trigger dev0 dev1 => Sys2Proof.Machine.execFlush l trigger dev0 dev1 s
  | .bistDue l => Sys2Proof.Machine.execBistDue l s
  | .bistStart l => Sys2Proof.Machine.execBistStart l s
  | .bistEnd l r repairs => Sys2Proof.Machine.execBistEnd l r repairs s
  | .bistOverdue l => Sys2Proof.Machine.execBistOverdue l s
  | .bistRequest l march auth => Sys2Proof.Machine.execBistRequest l march auth s
  | .keyInstall key serial auth => Sys2Proof.Machine.execKeyInstall key serial auth s
  | .restart auth into => Sys2Proof.Machine.execRestart auth into s
  | .updRomStart l image => Sys2Proof.Machine.execUpdRomStart l image s
  | .servicePortRomImage l image => Sys2Proof.Machine.execServicePortRomImage l image s
  | .romImageWritten l readBackOk => Sys2Proof.Machine.execRomImageWritten l readBackOk s
  | .fieldDieStart => Sys2Proof.Machine.execFieldDieStart s
  | .firmwareSelfCheck l => Sys2Proof.Machine.execFirmwareSelfCheck l s
  | .unalignedAccess p l write => Sys2Proof.Machine.execUnalignedAccess p l write s

end Sys2Proof.Machine
end

