-- ==== Sys2Proof/Safety.lean ====
section
/-!
DEFINITION. What counts as a safe state of the module, and what every operation keeps: the relations in whose terms the invariants
and the whole-machine rules are stated.
-/

namespace Sys2Proof.Safety

open Sys2Proof.Machine

/-! ### Canonical memories -/

/-- The data spaces of a Press are in their canonical form (R84): equal spaces are equal data. -/
def dataCanonical (d : PressData) : Bool :=
  bwf d.iv && bwf d.ifv && bwf d.q && bwf d.m && bwf d.e && bwf d.lv && bwf d.lf && bwf d.lq &&
  swf TimerRec.reset d.t && swf CounterRec.reset d.c && swf (0 : Word) d.w && swf (0 : BitVec 64) d.x &&
  swf (0 : BitVec 16) d.rs

/-- The constant K bits (R92): ZERO is 0 and ONE is 1. -/
def constantBits (d : PressData) : Bool := !d.k.getLsbD 0 && d.k.getLsbD 1

/-- No branch stack is deeper than 16 entries (R78, R107). -/
def stacksFit (x : Strands) : Bool := (strandList x).all (fun y => decide (y.stack.length ≤ 16))

/-- What holds of one lane's Press. -/
def pressOk (p : Press) : Bool := dataCanonical p.data && constantBits p.data && stacksFit p.strands

/-! ### Latched Sluices -/

/-- A Sluice whose latch is set drives no switch closed, now or from the next tick (R177). -/
def latchOpens (x : Sluice) : Bool := !x.latch || (decide (x.now = 0) && decide (x.next = 0))

/-! ### Lifetime totals -/

/-- A count has not fallen. -/
def up {w : Nat} (x y : BitVec w) : Prop := x.toNat ≤ y.toNat

/-- The lane totals of lifetime page 3 have not fallen (R30, R69). -/
def laneTotalsUp (x y : LaneLifetime) : Prop :=
  up x.isoTotal y.isoTotal ∧ up x.retireTotal y.retireTotal ∧ up x.overrunTotal y.overrunTotal

/-- No lifetime total has fallen (R30, R69, R158, R196, R247, R328, R362, R419, R424). -/
structure TotalsUp (x y : Lifetime) : Prop where
  lanes : ∀ l, laneTotalsUp (x.lanes.get l) (y.lanes.get l)
  operating : up x.operatingS y.operatingS
  powerCycles : up x.powerCycles y.powerCycles
  restarts : up x.restarts y.restarts
  service : up x.serviceS y.serviceS
  service2 : up x.service2S y.service2S
  timeSets : up x.timeSets y.timeSets
  fcs : ∀ i, up (sget 0 x.fcs i) (sget 0 y.fcs i)
  timing : up x.timingTotal y.timingTotal
  takeovers : up x.takeovers y.takeovers
  handovers : up x.handovers y.handovers
  switchOns : ∀ n, up (sget 0 x.switchOns n) (sget 0 y.switchOns n)
  clears : up x.clearTotal y.clearTotal
  proofs : up x.proofTotal y.proofTotal
  linkErr : ∀ l, up (x.linkErr.get l) (y.linkErr.get l)
  dissent : ∀ l, up (x.dissent.get l) (y.dissent.get l)
  refuse : ∀ p, up (x.refuse.get p) (y.refuse.get p)
  stale : ∀ p, up (x.stale.get p) (y.stale.get p)
  authFail : ∀ p, up (x.authFail.get p) (y.authFail.get p)
  overwritten : up x.overwritten y.overwritten
  floor : up x.versionFloor y.versionFloor

/-! ### The invariant and what every operation keeps -/

/-- The retirements that stand in the MRAM are those of the lifetime area: the keeper writes each at once (R418). -/
def retirementsSaved (c : Cellar) : Prop := ∀ l, (c.paged.lanes.get l).retired = (c.life.lanes.get l).retired

/-- The invariant of the module; of the lifetime area, no total of the MRAM lies above the one that the keeper holds (R418). -/
structure Inv (s : State) : Prop where
  press : ∀ l, pressOk (lane s l).press = true
  latches : ∀ l, latchOpens (s.sluices.get l) = true
  pages : TotalsUp s.cellar.paged s.cellar.life
  saved : retirementsSaved s.cellar

/-- What an operation of the module keeps, whatever it does: the queue, the totals that stand in the MRAM and the invariant; unless the
module is reset (reset true), every total (R418) and every latch (R14); unless a retirement is cleared (clear true), every lane's
retirement (R28). -/
structure Keeps (reset clear : Bool) (s t : State) : Prop where
  pending : t.pending = s.pending
  totals : reset = false → TotalsUp s.cellar.life t.cellar.life
  pages : TotalsUp s.cellar.paged s.cellar.life → TotalsUp s.cellar.paged t.cellar.paged ∧ TotalsUp t.cellar.paged t.cellar.life
  saved : retirementsSaved s.cellar → retirementsSaved t.cellar
  press : (∀ l, pressOk (lane s l).press = true) → ∀ l, pressOk (lane t l).press = true
  latches : ∀ l, latchOpens (s.sluices.get l) = true → latchOpens (t.sluices.get l) = true
  latched : reset = false → ∀ l, (s.sluices.get l).latch = true → (t.sluices.get l).latch = true
  retired : clear = false → ∀ l, (s.cellar.life.lanes.get l).retired = true → (t.cellar.life.lanes.get l).retired = true

/-! ### Parts of the state, and what an operation may change -/

/-- The parts of the state in whose terms a frame is stated; together they are the whole state. Of a lane: its state of R24
(laneState), the rest of what the Sluice and the service core hold of it (life), the Press, the engine for routes (raa), the sessions,
the inputs from the field, the interrupt controller, the check unit, the records it stages (staging), its part of the host rings (mbx),
the vintage banks, the firmware slots, the self-test, the rail, the image link and the run times. Of the module: its state of R19
(mode), the rest of the cycle's control (clock), and the units. -/
inductive Part where
  | mode | clock | laneState | life | press | raa | sessions | fieldIn | eic | chk | staging | mbx | bank | boot | bist | rail
  | link | times | sluices | alk | field | ports | twin | lifetime | log | hostMem | bus | free | queue
deriving DecidableEq, Repr

/-- A part of one lane is the same in a and in b. -/
def sameLane (p : Part) (a b : LaneState) : Prop :=
  match p with
  | .laneState => b.life.st = a.life.st
  | .life => { b.life with st := .boot } = { a.life with st := .boot }
  | .press => b.press = a.press
  | .raa => b.raa = a.raa
  | .sessions => b.sessions = a.sessions ∧ b.sessSel = a.sessSel ∧ b.alkValid = a.alkValid
  | .fieldIn => b.fld = a.fld
  | .eic => b.eic = a.eic
  | .chk => b.chk = a.chk
  | .staging => b.cel = a.cel
  | .mbx => b.mbx = a.mbx
  | .bank => b.bank = a.bank
  | .boot => b.boot = a.boot
  | .bist => b.bist = a.bist
  | .rail => b.pwr = a.pwr
  | .link => b.link = a.link ∧ b.xfer = a.xfer
  | .times => b.logicPeak = a.logicPeak ∧ b.raaPeak = a.raaPeak ∧ b.overran = a.overran
  | .mode | .clock | .sluices | .alk | .field | .ports | .twin | .lifetime | .log | .hostMem | .bus | .free | .queue => True

/-- A part of the module outside its lanes is the same in s and in t. -/
def sameModule (p : Part) (s t : State) : Prop :=
  match p with
  | .mode => t.mod.st = s.mod.st
  | .clock => { t.mod with st := .boot } = { s.mod with st := .boot }
  | .sluices => t.sluices = s.sluices
  | .alk => t.alk = s.alk
  | .field => t.field = s.field
  | .ports => t.ports = s.ports
  | .twin => t.twin = s.twin
  | .lifetime => t.cellar.life = s.cellar.life
  | .log => { t.cellar with life := s.cellar.life } = s.cellar
  | .hostMem => t.hostMem = s.hostMem
  | .bus => t.bus = s.bus
  | .free => t.free = s.free
  | .queue => t.pending = s.pending
  | .laneState | .life | .press | .raa | .sessions | .fieldIn | .eic | .chk | .staging | .mbx | .bank | .boot | .bist | .rail | .link
  | .times => True

/-- A part is the same in s and in t. -/
def samePart (p : Part) (s t : State) : Prop := sameModule p s t ∧ ∀ l, sameLane p (lane s l) (lane t l)

/-- From s to t at most the parts of a list have changed. -/
def changesOnly (ps : List Part) (s t : State) : Prop := ∀ p, ps.contains p = false → samePart p s t

/-! ### What each command may change -/

/-- Every part but those of a list. -/
def allBut (ps : List Part) : List Part :=
  [Part.mode, .clock, .laneState, .life, .press, .raa, .sessions, .fieldIn, .eic, .chk, .staging, .mbx, .bank, .boot, .bist, .rail,
    .link, .times, .sluices, .alk, .field, .ports, .twin, .lifetime, .log, .hostMem, .bus, .free, .queue].filter
    (fun p => !ps.contains p)

/-- What an event with its record may change: interrupt pending bits, vectors sent to a host, records staged and written. -/
def records : List Part := [.eic, .staging, .ports, .log]

/-- What the isolation of a lane may change, the module's answer and what it stages among it (R14, R173 to R177, R433). -/
def isolation : List Part := records ++ [.mode, .laneState, .life, .press, .raa, .bank, .bist, .link, .sluices, .lifetime, .free]

/-- The parts of the state that a command may change. -/
def touches (c : Instr) : List Part :=
  match c with
  | .resetRelease .. => [.mode, .clock, .life, .boot, .rail, .sluices, .lifetime]
  | .vdd3v3Reset .. => allBut [.hostMem, .bus, .free, .queue]
  | .rail3v3Warn .. => records ++ [.clock, .life, .bist, .rail, .lifetime]
  | .v3WarnRelease .. => [.clock, .eic, .staging, .ports]
  | .coreRailWarn .. => records ++ [.rail]
  | .coreWarnRelease .. => [.life, .eic, .rail, .sluices, .ports]
  | .coreRailReset .. => allBut [.clock, .alk, .field, .twin, .hostMem, .bus, .queue]
  | .ioAnaReset .. | .resetNLow .. => allBut [.hostMem, .bus, .free, .queue]
  | .clockLoss .. => allBut [.clock, .alk, .field, .twin, .hostMem, .bus, .queue]
  | .clockRestored .. => [.life, .sluices]
  | .fwWatchdog .. => allBut [.clock, .alk, .field, .twin, .hostMem, .bus, .queue]
  | .eccUncorrectable .. => isolation
  | .perstN .. | .linkDown .. | .linkUp .. => [.eic, .ports]
  | .holdExpired .. => records ++ [.mbx]
  | .bootFailed .. => records ++ [.mode, .life, .boot, .free]
  | .firmwareStart .. => records ++ [.clock, .laneState, .life, .mbx, .boot, .sluices, .lifetime, .free]
  | .laneTestDone .. => allBut [.fieldIn, .chk, .mbx, .rail, .times, .field, .twin, .hostMem, .bus, .queue]
  | .bootLimit .. => records ++ [.mode, .life, .press, .raa, .bist, .link, .sluices, .free]
  | .tick .. => allBut [.hostMem, .bus, .queue]
  | .endInput .. => allBut [.rail, .times, .alk, .hostMem, .bus, .queue]
  | .endLogic .. => allBut [.fieldIn, .rail, .alk, .field, .hostMem, .bus, .queue]
  | .endVote .. => isolation ++ [.clock, .mbx, .times, .field]
  | .endOutput .. => [.clock, .mbx, .alk, .ports, .hostMem, .free]
  | .ld .. | .ldn .. | .andBit .. | .andnBit .. | .orBit .. | .ornBit .. | .xorBit .. | .st .. | .setBit .. | .rstBit ..
  | .edgp .. | .edgn .. | .ton .. | .tof .. | .tp .. | .trs .. | .ctu .. | .ctd .. | .crs .. | .cld .. | .lw .. | .sw ..
  | .li .. | .lih .. | .add .. | .sub .. | .cmpeq .. | .cmpge .. | .cmplt .. | .wand .. | .wor .. | .tld .. | .cacc ..
  | .xld .. | .rsld .. | .satt .. | .nop .. | .openBranch .. | .closeBranch .. | .jmp .. | .jmpc .. | .jmpn .. | .call ..
  | .ret .. | .bar .. => isolation
  | .barRelease .. => [.press]
  | .endStrand .. | .rreq .. | .rcan .. | .ecmd .. => isolation
  | .rreqDecision .. | .rcanDecision .. | .callA .. | .callB .. | .blockElem .. | .unblockElem .. | .virtualSet ..
  | .virtualClear .. | .resetFault .. => records ++ [.raa, .mbx, .lifetime]
  | .reProof .. => records ++ [.raa, .lifetime]
  | .overlapRelease .. | .cancelRelease .. => [.raa]
  | .setTimeout .. | .moveFault .. => records ++ [.raa]
  | .vote .. => isolation ++ [.clock, .times, .field]
  | .uncaused .. => isolation
  | .checkBlock .. => isolation ++ [.times]
  | .voteDigest .. => isolation ++ [.clock]
  | .overrun .. => isolation ++ [.times]
  | .watchdog .. | .linkTimeout .. => isolation
  | .resetLine .. => isolation
  | .laneSwitchTest .. => [.sluices]
  | .switchTestReadback .. => records ++ [.sluices, .field, .lifetime]
  | .laneSwitchCloseTest .. => isolation ++ [.field]
  | .reinitialisation .. => isolation ++ [.chk]
  | .laneSync .. => records ++ [.laneState, .life, .bist, .free]
  | .stateTransfer .. => [.laneState, .life, .link]
  | .transferVerified .. => isolation
  | .catchUp .. => isolation ++ [.sessions, .fieldIn, .mbx]
  | .laneJoin .. => isolation ++ [.mbx, .boot]
  | .retirementClear .. => records ++ [.laneState, .life, .press, .chk, .sluices, .lifetime]
  | .composeFrame .. => [.alk]
  | .sync .. => records ++ [.clock, .laneState, .life, .bist, .alk, .lifetime, .free]
  | .leftSync .. => records ++ [.alk, .free]
  | .backupSync .. => [.eic, .alk, .ports]
  | .coldStart .. => [.alk, .lifetime]
  | .listenTimeout .. | .silentTimeout .. => [.alk]
  | .coldStartT0 .. => [.clock, .laneState, .life, .eic, .bist, .alk, .ports, .free]
  | .corruptFrame .. | .delayReq .. => [.alk, .lifetime]
  | .delayResp .. => [.alk, .lifetime, .free]
  | .stationIn .. => records ++ [.sessions, .alk, .lifetime, .free]
  | .stationDropped .. => records ++ [.press, .sessions]
  | .peer .. => records ++ [.sessions, .alk, .lifetime, .free]
  | .peerTimeout .. => records ++ [.press, .sessions]
  | .sessionClear .. => records ++ [.sessions, .lifetime]
  | .mediumWithdrawn .. => records ++ [.alk, .lifetime]
  | .mediumReturned .. => records ++ [.alk]
  | .mediumClear .. => records ++ [.alk, .lifetime]
  | .los .. => [.alk]
  | .crossingRefresh .. => records ++ [.clock, .fieldIn, .field, .lifetime]
  | .downstreamRefresh .. => records ++ [.fieldIn, .field, .lifetime]
  | .upstreamRefresh .. => records ++ [.fieldIn, .field, .lifetime]
  | .fieldTick .. => [.field]
  | .fieldStreamLost .. => records ++ [.fieldIn, .field, .lifetime]
  | .localLost .. | .localRecovered .. => [.fieldIn]
  | .crossingRecovered .. | .moduleStop .. => [.field]
  | .fieldFault .. | .fieldFaultClear .. => records ++ [.field, .lifetime]
  | .fieldDieStop .. => [.fieldIn, .field]
  | .inputSample .. | .pairFault .. => records ++ [.field]
  | .testPulse .. | .tpRecovered .. | .counterEdge .. | .offTest .. => [.field]
  | .offTestEnd .. => records ++ [.field, .lifetime]
  | .onTest .. => [.field]
  | .onTestEnd .. | .terminalHighOff .. | .overload .. | .short .. | .overTemp .. => records ++ [.field, .lifetime]
  | .overloadRetry .. | .tripCountReset .. => [.field]
  | .openWire .. => records ++ [.field]
  | .loadOkReturn .. => [.field]
  | .outputRetireClear .. => records ++ [.field, .lifetime]
  | .vfMeasure .. => [.field]
  | .vfLatch .. => records ++ [.field]
  | .vfRecovered .. => [.field]
  | .registerWrite .. => [.sessions, .fieldIn, .eic, .chk, .staging, .mbx, .boot, .ports]
  | .peerAccessTimeout .. => [.bus]
  | .sqTailDoorbell .. | .cqHeadDoorbell .. => [.ports]
  | .ringEnable .. => [.eic, .ports]
  | .ringDisable .. => [.eic, .mbx, .ports]
  | .descriptorFetch .. | .routeRequest .. | .routeCancel .. | .elementCommand .. | .stationAdmit .. | .imageRead ..
  | .cellarRead .. | .cellarClear .. => records ++ [.chk, .mbx, .lifetime, .hostMem, .free]
  | .stageProgram .. => allBut [.clock, .sessions, .fieldIn, .rail, .times, .alk, .field, .twin, .bus, .queue]
  | .vintageStaged .. => records ++ [.clock, .mbx, .bank, .lifetime]
  | .stageFirmware .. => allBut [.clock, .sessions, .fieldIn, .rail, .times, .alk, .field, .twin, .bus, .queue]
  | .imageBuildDone .. => allBut [.mode, .clock, .alk, .field, .twin, .hostMem, .bus, .free, .queue]
  | .rack .. => records ++ [.chk, .mbx, .lifetime, .hostMem, .free]
  | .vintageSwitch .. => [.press, .raa, .sessions, .staging, .bank, .alk]
  | .previousExpired .. => [.bank]
  | .confirmParameters .. | .timeSet .. | .fence .. | .authExt .. => records ++ [.chk, .mbx, .lifetime, .hostMem, .free]
  | .completionWrite .. => records ++ [.mbx, .lifetime, .hostMem]
  | .coalesceExpiry .. => [.ports]
  | .dmaError .. | .dmaTimeout .. => [.eic, .chk, .mbx, .ports]
  | .twin .. => records ++ [.press, .raa, .sessions, .bank, .alk, .twin, .lifetime, .free]
  | .takeover .. => records ++ [.press, .twin, .lifetime]
  | .handoverRequest .. => records ++ [.twin, .lifetime]
  | .handover .. => records ++ [.press, .sluices, .twin, .lifetime]
  | .loadStart .. => [.twin]
  | .loadFail .. => records ++ [.twin, .lifetime]
  | .loadRetry .. => [.twin]
  | .loadRestart .. => records ++ [.twin, .lifetime]
  | .eventArrival .. | .fallbackMove .. => [.eic, .ports]
  | .eicClaim .. => [.eic, .ports, .bus]
  | .eicComplete .. | .eicEnableSet .. | .eicEnableClr .. | .eicPendingSet .. | .eicPendingClr .. | .eicTargetH0Set ..
  | .eicTargetH0Clr .. | .eicTargetH1Set .. | .eicTargetH1Clr .. | .eicCompatPend .. | .eicOvfClr .. => [.eic, .ports]
  | .laneLogicPeak .. | .laneRaaPeak .. => [.times, .bus]
  | .prsStackPeak .. => [.press, .bus]
  | .raaHoldoverPeak .. => [.raa, .bus]
  | .chkLoadPeak .. => [.chk, .bus, .free]
  | .celStagePeak .. => [.staging, .bus]
  | .chkInit .. => [.chk]
  | .chkClose .. => [.eic, .chk, .ports]
  | .chkURun .. | .chkUCtrl .. => [.chk]
  | .engineSelfCheck .. | .networkMismatch .. => isolation ++ [.chk]
  | .flush .. => records ++ [.clock, .lifetime, .free]
  | .bistDue .. => [.bist]
  | .bistStart .. => isolation
  | .bistEnd .. => isolation ++ [.chk]
  | .bistOverdue .. => records ++ [.bist]
  | .bistRequest .. => records ++ [.bist, .lifetime]
  | .keyInstall .. => records ++ [.lifetime]
  | .restart .. => allBut [.hostMem, .bus, .free, .queue]
  | .updRomStart .. | .servicePortRomImage .. => records ++ [.boot]
  | .romImageWritten .. => allBut [.clock, .alk, .field, .twin, .hostMem, .bus, .queue]
  | .fieldDieStart .. => [.field]
  | .firmwareSelfCheck .. => isolation
  | .unalignedAccess .. => [.ports, .bus]

/-! ### What commands say of the interrupt controller (R364 to R380) -/

/-- Source k of lane l's interrupt controller. -/
def source (s : State) (l : Lane) (k : Nat) : EicSrc := eicSrc (lane s l).eic k

/-- Only lane l's interrupt controller, and what it sends to the hosts, has changed; of its sources those of ks alone, each as g
gives it but for the target to which a sleeping port's presentation moves (R374). -/
def onlySources (l : Lane) (ks : Nat → Bool) (g : EicSrc → EicSrc) (s t : State) : Prop :=
  (∀ k, ks k = true → ∃ mv, source t l k = { g (source s l k) with moved := mv }) ∧
  (∀ k, ks k = false → source t l k = source s l k) ∧
  (∀ m, m ≠ l → lane t m = lane s m) ∧ (∃ e, lane t l = { lane s l with eic := e }) ∧
  changesOnly [.eic, .ports] s t

/-- The used sources that a write of v to bitmap word n acts on (R364, R369). -/
def wordSources (n : Fin 32) (v : Word) (k : Nat) : Bool := decide (k / 32 = n.val) && v.getLsbD (k % 32) && eicUsed k

/-- An arrival at a source, by the table of R366 and by R367. -/
def arrived (x : EicSrc) : EicSrc :=
  { x with
    st := match x.st with | .idle => .pending | .pending => .pending | .claimed => .claimedAgain | .claimedAgain => .claimedAgain
    count := if x.st = .idle then 1 else if x.count = 255 then 255 else x.count + 1
    ovf := x.ovf || (decide (x.st ≠ .idle) && decide (x.count = 255)) }

/-- Source k is the one that a claim by target t takes: presented to t, and every other source presented to t has a lower priority, or
the same priority and a higher number (R372). -/
def claims (s : State) (l : Lane) (t : EicTarget) (k : Nat) : Prop :=
  eicPresented (lane s l).eic (source s l k) = some t ∧
  ∀ j, j ≠ k → eicPresented (lane s l).eic (source s l j) = some t →
    (source s l j).priority.toNat < (source s l k).priority.toNat ∨
      ((source s l j).priority = (source s l k).priority ∧ k < j)

/-! ### What the words of the Press do (R78 to R109) -/

/-- The word of the Press that a command is. -/
def wordOf (c : Instr) : Option PressWord :=
  match c with
  | .ld w _ | .ldn w _ | .andBit w _ | .andnBit w _ | .orBit w _ | .ornBit w _ | .xorBit w _ | .st w _ | .setBit w _
  | .rstBit w _ | .edgp w | .edgn w | .ton w | .tof w | .tp w | .trs w | .ctu w | .ctd w | .crs w | .cld w | .lw w
  | .sw w | .li w | .lih w | .add w | .sub w | .cmpeq w | .cmpge w | .cmplt w | .wand w | .wor w | .tld w | .cacc w
  | .xld w | .rsld w | .satt w | .nop w | .openBranch w | .closeBranch w | .jmp w | .jmpc w | .jmpn w | .call w
  | .ret w | .bar w | .endStrand w | .rreq w | .rcan w | .ecmd w => some w
  | .resetRelease .. | .vdd3v3Reset .. | .rail3v3Warn .. | .v3WarnRelease .. | .coreRailWarn .. | .coreWarnRelease ..
  | .coreRailReset .. | .ioAnaReset .. | .resetNLow .. | .clockLoss .. | .clockRestored .. | .fwWatchdog ..
  | .eccUncorrectable .. | .perstN .. | .linkDown .. | .linkUp .. | .holdExpired .. | .bootFailed ..
  | .firmwareStart .. | .laneTestDone .. | .bootLimit .. | .tick .. | .endInput .. | .endLogic .. | .endVote ..
  | .endOutput .. | .barRelease .. | .rreqDecision .. | .rcanDecision .. | .callA .. | .callB .. | .blockElem ..
  | .unblockElem .. | .virtualSet .. | .virtualClear .. | .resetFault .. | .reProof .. | .overlapRelease ..
  | .cancelRelease .. | .setTimeout .. | .moveFault .. | .vote .. | .uncaused .. | .checkBlock .. | .voteDigest ..
  | .overrun .. | .watchdog .. | .linkTimeout .. | .resetLine .. | .laneSwitchTest .. | .switchTestReadback ..
  | .laneSwitchCloseTest .. | .reinitialisation .. | .laneSync .. | .stateTransfer .. | .transferVerified ..
  | .catchUp .. | .laneJoin .. | .retirementClear .. | .composeFrame .. | .sync .. | .leftSync .. | .backupSync ..
  | .coldStart .. | .listenTimeout .. | .silentTimeout .. | .coldStartT0 .. | .corruptFrame .. | .delayReq ..
  | .delayResp .. | .stationIn .. | .stationDropped .. | .peer .. | .peerTimeout .. | .sessionClear ..
  | .mediumWithdrawn .. | .mediumReturned .. | .mediumClear .. | .los .. | .crossingRefresh ..
  | .downstreamRefresh .. | .upstreamRefresh .. | .fieldTick .. | .fieldStreamLost .. | .localLost ..
  | .localRecovered .. | .crossingRecovered .. | .moduleStop .. | .fieldFault .. | .fieldFaultClear ..
  | .fieldDieStop .. | .inputSample .. | .pairFault .. | .testPulse .. | .tpRecovered .. | .counterEdge ..
  | .offTest .. | .offTestEnd .. | .onTest .. | .onTestEnd .. | .terminalHighOff .. | .overload .. | .short ..
  | .overTemp .. | .overloadRetry .. | .tripCountReset .. | .openWire .. | .loadOkReturn .. | .outputRetireClear ..
  | .vfMeasure .. | .vfLatch .. | .vfRecovered .. | .registerWrite .. | .peerAccessTimeout .. | .sqTailDoorbell ..
  | .cqHeadDoorbell .. | .ringEnable .. | .ringDisable .. | .descriptorFetch .. | .routeRequest .. | .routeCancel ..
  | .elementCommand .. | .stationAdmit .. | .imageRead .. | .cellarRead .. | .cellarClear .. | .stageProgram ..
  | .vintageStaged .. | .stageFirmware .. | .imageBuildDone .. | .rack .. | .vintageSwitch .. | .previousExpired ..
  | .confirmParameters .. | .timeSet .. | .fence .. | .authExt .. | .completionWrite .. | .coalesceExpiry ..
  | .dmaError .. | .dmaTimeout .. | .twin .. | .takeover .. | .handoverRequest .. | .handover .. | .loadStart ..
  | .loadFail .. | .loadRetry .. | .loadRestart .. | .eventArrival .. | .fallbackMove .. | .eicClaim ..
  | .eicComplete .. | .eicEnableSet .. | .eicEnableClr .. | .eicPendingSet .. | .eicPendingClr ..
  | .eicTargetH0Set .. | .eicTargetH0Clr .. | .eicTargetH1Set .. | .eicTargetH1Clr .. | .eicCompatPend ..
  | .eicOvfClr .. | .laneLogicPeak .. | .laneRaaPeak .. | .prsStackPeak .. | .raaHoldoverPeak .. | .chkLoadPeak ..
  | .celStagePeak .. | .chkInit .. | .chkClose .. | .chkURun .. | .chkUCtrl .. | .engineSelfCheck ..
  | .networkMismatch .. | .flush .. | .bistDue .. | .bistStart .. | .bistEnd .. | .bistOverdue .. | .bistRequest ..
  | .keyInstall .. | .restart .. | .updRomStart .. | .servicePortRomImage .. | .romImageWritten ..
  | .fieldDieStart .. | .firmwareSelfCheck .. | .unalignedAccess .. => none

/-- The state in the clock in which the word executes: a second word of a strand opens the next clock (R78, R80). -/
def atWord (s : State) (w : PressWord) : State :=
  if (strandOf (lane s w.lane).press.strands w.strand).ran then
    modLane s w.lane (fun L => { L with press := nextClock L.press })
  else s

/-- The strand that executes the word, as the clock begins. -/
def strandNow (s : State) (w : PressWord) : Strand := strandOf (lane (atWord s w) w.lane).press.strands w.strand

/-- The data spaces that the word reads. -/
def dataNow (s : State) (w : PressWord) : PressData := (lane (atWord s w) w.lane).press.data

/-- The strand executes words in this cycle: its Press is active, and it has neither ended nor waits at a barrier (R78, R79, R106). -/
def executing (s : State) (w : PressWord) : Prop :=
  (lane s w.lane).press.active = true ∧ (strandOf (lane s w.lane).press.strands w.strand).running = true ∧
  (strandOf (lane s w.lane).press.strands w.strand).ended = false ∧
  (strandOf (lane s w.lane).press.strands w.strand).waiting = none

/-- The strand executes, the address is inside its segment, the STRAND field is its own, the opcode is listed, and a word that is not the last or that is
END or RET (closing) stands there (R94, R95). -/
def fetches (s : State) (w : PressWord) (closing : Bool) : Prop :=
  executing s w ∧ (strandNow s w).pc < segLen (lane s w.lane) w.strand ∧ w.field.toNat = w.strand.val ∧ opListed w.opcode = true ∧
  (closing = true ∨ (strandNow s w).pc + 1 < segLen (lane s w.lane) w.strand)

/-- The state after a word: its strand is y and has executed in this clock, its writes wait for the clock's end (R80), and everything
else is as it was when the clock began. -/
def wordDone (s : State) (w : PressWord) (y : Strand) (ws : List PressWrite) : State :=
  modLane (atWord s w) w.lane (fun L => { L with press := { L.press with
    strands := putStrand L.press.strands w.strand { y with ran := true }
    writes := L.press.writes ++ ws.map (fun x => (w.strand.val, x)) } })

/-- A lane that is isolated now is retired with it: the cause is not a planned one, and three counted isolations already lie in the 24 h
that end now, or both Cellar devices have failed (R26, R411). -/
def retires (s : State) (l : Lane) (c : IsoCause) : Prop :=
  planned c = false ∧
    (3 ≤ (inWindow s.mod.tickTime day24 (s.cellar.life.lanes.get l).stamps).length ∨ bothFailed s.cellar = true)

/-- Lanes other than l that serve. -/
def othersServing (s : State) (l : Lane) : List Lane := (servingLanes s).filter (fun m => decide (m ≠ l))

/-- The module answers the loss of lane l with SAFE (R170, R176): fewer than two other lanes serve, two latches are set, or the latch of
one of the two lanes that go on serving is set. -/
def leavesSafe (s : State) (l : Lane) : Prop :=
  (operating s.mod.st = true ∧ (othersServing s l).length < 2) ∨ 2 ≤ (Lane.list.filter (latched s)).length ∨
  (operating s.mod.st = true ∧ (othersServing s l).length = 2 ∧ ∃ m ∈ othersServing s l, latched s m = true)

/-- From s to t a lane has left with a cause (R14, R20, R24, R26, R27, R30, R170, R173, R174, R176): its state, cause and cycle, its Press,
its Sluice's switch drives and every Sluice's view of it, its totals, with one isolation
for two in one cycle (R36), the staging it held (R433); the other lanes keep their states, and their logic goes on unless
the module has entered SAFE (R21, R81); and the module has answered the loss. -/
structure LaneOut (s : State) (l : Lane) (c : IsoCause) (t : State) : Prop where
  retired : retires s l c → lst t l = .retired
  isolated : ¬ retires s l c → lst t l = .isolated
  cause : (lane t l).life.cause = c
  cycle : (lane t l).life.isoCycle = cycle16 s
  stopped : (lane t l).press.active = false ∧ ∀ i, (strandOf (lane t l).press.strands i).running = false
  drives : (t.sluices.get l).now = 0 ∧ (t.sluices.get l).next = 0 ∧ (t.sluices.get l).vctl = 0
  dropped : ∀ m, (t.sluices.get m).voting.getLsbD l.idx = false
  total : (t.cellar.life.lanes.get l).isoTotal =
    if meetsPlanned s l c then (s.cellar.life.lanes.get l).isoTotal else satInc (s.cellar.life.lanes.get l).isoTotal
  staging : (lane t l).bank = stageDropped (lane s l).bank ∧ ∀ m, m ≠ l → (lane t m).bank = (lane s m).bank
  others : ∀ m, m ≠ l → lst t m = lst s m ∧ t.cellar.life.lanes.get m = s.cellar.life.lanes.get m
  goesOn : s.mod.st = .safe ∨ t.mod.st ≠ .safe → ∀ m, m ≠ l → (lane t m).press = (lane s m).press ∧ (lane t m).raa = (lane s m).raa
  ends : s.mod.st ≠ .safe → t.mod.st = .safe → ∀ m, m ≠ l →
    (lane t m).press = stopPress (lane s m).press ∧ (lane t m).raa = stopRaa (lane s m).raa
  safe : s.mod.st ≠ .safe → leavesSafe s l → t.mod.st = .safe ∧ ∀ m, (t.sluices.get m).latch = true
  twoLeft : s.mod.st = .svc3 → ¬ leavesSafe s l → t.mod.st = .svc2
  stays : s.mod.st = .safe ∨ (s.mod.st ≠ .svc3 ∧ ¬ leavesSafe s l) → t.mod.st = s.mod.st
  frame : changesOnly (isolation ++ [.times, .chk]) s t

/-- The lane's Press has stopped with a fault of a kind at an address, and the lane has left with the cause of that kind (R94, R95, R107,
R116, R174). -/
def pressFaulted (s : State) (w : PressWord) (k : PressFault) (addr : Nat) (t : State) : Prop :=
  (lane t w.lane).press.halted = true ∧ (lane t w.lane).press.faultKind = k ∧
  (lane t w.lane).press.faultStrand.toNat = w.strand.val ∧ (lane t w.lane).press.faultCycle = cycle16 s ∧
  (lane t w.lane).press.faultAddr = BitVec.ofNat 22 addr ∧
  LaneOut s w.lane (match k with | .strandMismatch => IsoCause.memory | .illegalWord => .memory | _ => .stack) t

/-! ### Resets (R24, R28, R446, R483, R484, R492, R519) -/

/-- From u to t lane l has been reset with a cause code: its service core waits in BOOT, its Press and route engine are new, the Sluice
keeps what it says of its last isolation, its links are down, and the other lanes, the latches and the field stay (R24, R164, R483, R519). -/
structure LaneWasReset (u : State) (l : Lane) (cause : BitVec 8) (t : State) : Prop where
  state : lst t l = .boot
  causes : (lane t l).life.resetCause = cause ∧ (lane t l).life.prevCause = (lane u l).life.resetCause
  left : (lane t l).life.cause = (lane u l).life.cause ∧ (lane t l).life.isoCycle = (lane u l).life.isoCycle
  fresh : (lane t l).press = Press.reset ∧ (lane t l).raa = Raa.reset ∧ (lane t l).sessions = []
  stores : (lane t l).bank.storeA = (lane u l).bank.storeA ∧ (lane t l).bank.storeB = (lane u l).bank.storeB
  links : ∀ m, (t.sluices.get m).linkUp.getLsbD l.idx = false ∧ (t.sluices.get m).latch = (u.sluices.get m).latch
  others : ∀ m, m ≠ l → lst t m = lst u m ∧ (lane t m).press = (lane u m).press ∧ (lane t m).raa = (lane u m).raa
  field : t.field = u.field

/-- From s to t the whole module has been reset into a state with a cause code: every lane is in BOOT with a new Press and route engine,
every latch is open, retirement clears recorded in SAFE have taken effect, and the field die, the vintage stores and the hosts' memory stay,
but for the count of failed downstream refreshes, which restarts at BOOT (R14, R28, R294, R484, R492, R519). -/
structure ModuleWasReset (s : State) (m : ModSt) (cause : BitVec 8) (t : State) : Prop where
  mode : t.mod.st = m ∧ t.mod.ticking = false
  lanes : ∀ l, lst t l = .boot ∧ (lane t l).press = Press.reset ∧ (lane t l).raa = Raa.reset ∧ (lane t l).life.cause = .none ∧
    (lane t l).life.resetCause = cause ∧ (lane t l).life.prevCause = (lane s l).life.resetCause
  stores : ∀ l, (lane t l).bank.storeA = (lane s l).bank.storeA ∧ (lane t l).bank.storeB = (lane s l).bank.storeB
  latches : ∀ l, (t.sluices.get l).latch = false ∧ (t.sluices.get l).now = 0
  bus : t.alk = Alk.reset
  retired : retirementsSaved s.cellar → ∀ l,
    (t.cellar.life.lanes.get l).retired = ((s.cellar.life.lanes.get l).retired && !(lane s l).life.clearPending)
  stays : t.field = { s.field with downErr := 0 } ∧ t.hostMem = s.hostMem ∧ t.bus = s.bus

/-! ### The vote (R168 to R172, R176, R179, R194) -/

/-- After a vote with a result: the result, its outcome and time in every Sluice, and the drives of the lanes that serve. -/
def voted (s : State) (m : Image) (outcome : BitVec 2) (atNs : BitVec 28) (t : State) : Prop :=
  t.mod.result = some m ∧
  (∀ l, (t.sluices.get l).outcome = outcome ∧ (t.sluices.get l).decisionTime = atNs ∧ (t.sluices.get l).voteCycle = cycle16 s) ∧
  ∀ l, (mayClose t l = true → (t.sluices.get l).next = outputDrive m) ∧ (mayClose t l = false → (t.sluices.get l).next = 0)

/-- Every Sluice has received the images of the voting lanes, complete and as they were sent, and holds the list (R165, R168). -/
def received (s : State) (xs : List (Lane × Image)) : Prop :=
  (∀ m, votingImages s m = xs) ∧
  ∀ l, serving s l = true → incomplete s l = false ∧ ∀ m, intact (lane s l).link ((lane s l).link.rx.get m) = true

/-- No latch asks for an answer of the module (R176): none is set in a lane that serves, and at most one is set. -/
def latchesQuiet (s : State) : Prop :=
  (∀ l, serving s l = true → latched s l = false) ∧ (Lane.list.filter (latched s)).length ≤ 1

/-- A lane that serves with two others has been isolated as the dissenter that the Sluices of a set have found, and the others go on (R169,
R172, R173, R176, R196). -/
def outvoted (s : State) (l : Lane) (finds : Lane → Bool) (t : State) : Prop :=
  (retires s l .voteDissent → lst t l = .retired) ∧ (¬ retires s l .voteDissent → lst t l = .isolated) ∧
  (lane t l).life.cause = .voteDissent ∧ (∀ m, m ≠ l → lst t m = lst s m) ∧
  (t.sluices.get l).now = 0 ∧ (t.sluices.get l).next = 0 ∧
  t.mod.st = (if s.mod.st = .svc3 then .svc2 else s.mod.st) ∧
  ∀ m, (finds m = true → (t.sluices.get m).dissent.getLsbD l.idx = true ∧ t.cellar.life.dissent.get m = satInc (s.cellar.life.dissent.get m)) ∧
    (finds m = false → t.cellar.life.dissent.get m = s.cellar.life.dissent.get m)

/-- The module is in SAFE with every latch set; of the latches that were open, those of the finders are set with the cause given and the
others follow; and no lane's state has changed (R170, R172, R175, R176). -/
def safeWith (s : State) (c : LatchCause) (finds : Lane → Bool) (t : State) : Prop :=
  t.mod.st = .safe ∧ (∀ l, (t.sluices.get l).latch = true ∧
    ((s.sluices.get l).latch = false → (t.sluices.get l).latchCause = (if finds l then c else .follow) ∧ (t.sluices.get l).now = 0 ∧
      (t.sluices.get l).next = 0)) ∧
  ∀ l, lst t l = lst s l

/-- The order of R173 among causes found in the same clock. -/
def findingOrder : List IsoCause :=
  [.rail, .watchdog, .link, .overrun, .stack, .memory, .self, .voteDissent, .transfer, .shadowMismatch]

/-- Lane l decides entry e of its queue now (R61, R132, R133, R150): the module serves, the RAA works, a decision slot is left. -/
structure Deciding (s : State) (l : Lane) (v : Vintage) (e : QEntry) (rest : List QEntry) : Prop where
  vintage : laneVintage s l = some v
  works : raaWorks s l = true
  service : inService s.mod.st = true
  slot : (lane s l).raa.decided < reqMax v
  head : (lane s l).raa.queue = e :: rest

/-- From u to t lane l has decided entry e with a status and a term, and its RAA is otherwise r (R126, R140): LAST_STATUS of the route,
the counts, and for a host entry the completion. -/
structure Reported (u : State) (l : Lane) (e : QEntry) (r : Raa) (st term : Nat) (t : State) : Prop where
  raa : (lane t l).raa = { r with
    lastStatus := if e.kind = .ecmd then r.lastStatus else sput 0 r.lastStatus e.item (BitVec.ofNat 8 st)
    decided := r.decided + 1, refused := r.refused + (if st ≥ 0x10 then 1 else 0) }
  press : ∀ c k i, e.src = .press c k i → changesOnly [.raa] u t
  host : ∀ h, e.src = .host h → ∃ z, (lane t l).mbx =
    (lane (finishLane u l h { status := st, term := term, cycle := u.mod.cycle, time := u.mod.tickTime, result := z }) l).mbx
  others : ∀ m, m ≠ l → lane t m = lane u m

/-- No lane holds a descriptor of the given kind that has not joined a batch. -/
def onlyBatched (t : State) (f : HostRef → Prop) : Prop :=
  ∀ l, ∀ x ∈ (lane t l).mbx.taken, f x.ref → x.inBatch = true

/-- The command takes, as one descriptor of a checked class, the slot d, and the slot x that authorises it where its class asks
for one (R304, R306). -/
def takesChecked (c : Instr) (p : Port) (q : Fin 16) (d : BitVec 512) (x : Option (BitVec 512)) : Prop :=
  (x = none ∧ isChecked (dClass d) = true ∧ isAuthorised (dClass d) = false ∧
    ((∃ z, c = .descriptorFetch p q d z) ∨ (c = .routeRequest p q d ∧ dClass d = 0x01) ∨ (c = .routeCancel p q d ∧ dClass d = 0x02) ∨
      (c = .elementCommand p q d ∧ dClass d = 0x03) ∨ (c = .stationAdmit p q d ∧ dClass d = 0x04) ∨ (c = .timeSet p q d ∧ dClass d = 0x24))) ∨
  (∃ y, x = some y ∧ isAuthorised (dClass d) = true ∧ authMatches d y = true ∧
    (c = .descriptorFetch p q d (some y) ∨ (c = .cellarClear p q d y ∧ dClass d = 0x12) ∨ (c = .rack p q d y ∧ dClass d = 0x22) ∨
      (c = .confirmParameters p q d y ∧ dClass d = 0x23)))

/-- The SQ may be fetched from in its turn (R320), holds no first slot of an authorised descriptor, the FENCE flag of d does not hold it up
(R319), and where d is a read, no staging data is to come before it (R393). -/
def mayTake (s : State) (p : Port) (q : Fin 16) (d : BitVec 512) : Prop :=
  sqServed s p q = true ∧ (sqOf s p q.val).half = none ∧ (dget d 1 1 % 2 = 0 ∨ sqQuiet s p q.val = true) ∧ readInOrder s p q.val d = true

/-- The command takes the AUTH_EXT that the first slot d, fetched before, waits for: the two are one descriptor (R306). -/
def takesSecond (c : Instr) (s : State) (p : Port) (q : Fin 16) (d : BitVec 512) (x : Option (BitVec 512)) : Prop :=
  sqServed s p q = true ∧ (sqOf s p q.val).half = some d ∧ 2 ≤ sqWaiting (sqOf s p q.val) ∧ isAuthorised (dClass d) = true ∧
    ∃ y, x = some y ∧ authMatches d y = true ∧ (c = .authExt p q y ∨ ∃ z, c = .descriptorFetch p q y z)

/-- The command takes the slot d of an unchecked class (R304). -/
def takesUnchecked (c : Instr) (p : Port) (q : Fin 16) (d : BitVec 512) : Prop :=
  (c = .imageRead p q d ∧ dClass d = 0x10) ∨ ((∃ a b, c = .cellarRead p q { desc := d, bad0 := a, bad1 := b }) ∧ dClass d = 0x11) ∨ (c = .fence p q d ∧ dClass d = 0x30) ∨
  (c = .authExt p q d ∧ dClass d = 0x3F)

end Sys2Proof.Safety
end

