-- ==== Sys2Proof/Certificates/Slice0/Obligations.lean ====
section
/-!
DEFINITION. The statements about the model, from the numbered rules of the spec.
-/

open Sys2Proof Sys2Proof.Machine Sys2Proof.Safety

/-! ### The interrupt controller (R364 to R380) -/

/-- R366, R367, R374: an arrival at a source that is used and is not a software source acts by the table of R366 (a level source that is
asserted already does not arrive again); 10 µs after a host port has fallen asleep, every source presented to it is moved to the port's
fallback, and every one that becomes presented to it later will be. -/
def Obligations.ArrivalsAndFallbacks : Prop :=
  (∀ (l : Lane) (n : Fin 1024) (s : State), eicOpen s l = true → eicUsed n.val = true → n.val < 960 →
    ∃ t, exec (.eventArrival l n) s = .next t ∧
      onlySources l (fun k => decide (k = n.val))
        (fun x => if eicLevelKind n.val = true then (if x.level = true then x else { arrived x with level := true }) else arrived x)
        s t) ∧
  ∀ (l : Lane) (p : Port) (s : State), (s.ports.get p).linkUp = false → runs s l = true →
    ∃ t, exec (.fallbackMove l p) s = .next t ∧ (lane t l).eic.moving.get p = true ∧
      (∀ k x, eicPresented (lane s l).eic (source s l k) = some x → eicPort x = some p →
        source t l k = { source s l k with moved := some (eicFallback s (lane s l).eic p) }) ∧
      (∀ k, ∃ mv, source t l k = { source s l k with moved := mv }) ∧
      changesOnly [.eic, .ports] s t ∧ ∀ m, m ≠ l → lane t m = lane s m

/-- R369, R370, R376, R367: each of the ten bitmap words acts on the used sources whose bit is written 1, and on nothing else. -/
def Obligations.EicWordWrites : Prop :=
  ∀ (a : RegAccess) (n : Fin 32) (v : Word) (s : State), reaches s a = true →
    (∃ t, exec (.eicEnableSet a n v) s = .next t ∧
      onlySources a.lane (wordSources n v) (fun x => { x with enabled := true }) s t) ∧
    (∃ t, exec (.eicEnableClr a n v) s = .next t ∧
      onlySources a.lane (wordSources n v) (fun x => { x with enabled := false }) s t) ∧
    (∃ t, exec (.eicPendingSet a n v) s = .next t ∧
      onlySources a.lane (wordSources n v)
        (fun x => match x.st with
          | .idle => { x with st := .pending, count := 0 }
          | .claimed => { x with st := .claimedAgain }
          | .pending => x
          | .claimedAgain => x) s t) ∧
    (∃ t, exec (.eicPendingClr a n v) s = .next t ∧
      onlySources a.lane (wordSources n v) (fun x => if x.st = .pending then { x with st := .idle, count := 0 } else x) s t) ∧
    (∃ t, exec (.eicTargetH0Set a n v) s = .next t ∧
      onlySources a.lane (wordSources n v) (fun x => { x with h0 := true, h1 := false }) s t) ∧
    (∃ t, exec (.eicTargetH0Clr a n v) s = .next t ∧
      onlySources a.lane (wordSources n v) (fun x => { x with h0 := false }) s t) ∧
    (∃ t, exec (.eicTargetH1Set a n v) s = .next t ∧
      onlySources a.lane (wordSources n v) (fun x => { x with h1 := true, h0 := false }) s t) ∧
    (∃ t, exec (.eicTargetH1Clr a n v) s = .next t ∧
      onlySources a.lane (wordSources n v) (fun x => { x with h1 := false }) s t) ∧
    (∃ t, exec (.eicCompatPend a n v) s = .next t ∧ onlySources a.lane (wordSources n v) arrived s t) ∧
    (∃ t, exec (.eicOvfClr a n v) s = .next t ∧
      onlySources a.lane (wordSources n v) (fun x => { x with ovf := false }) s t)

/-- R372, R380: a claim through the target's own port takes the presented source of the highest priority, the lowest number among
equals: it is CLAIMED with COUNT 0, and the read returns its number with VALID, its count, level and overflow; where nothing is
presented the read returns 0 and claims nothing; through another port it returns 0, claims nothing and is counted. -/
def Obligations.EicClaimTakesBest : Prop :=
  ∀ (a : RegAccess) (x : EicTarget) (s : State), reaches s a = true →
    (∀ k, a.port = eicPort x → claims s a.lane x k → eicUsed k = true →
      ∃ u v, exec (.eicClaim a x) s = .next (answer u v) ∧
        onlySources a.lane (fun j => decide (j = k)) (fun y => { y with st := .claimed, count := 0, claimedBy := x }) s u ∧
        field v 9 0 = k ∧ v.getLsbD 15 = true ∧ field v 23 16 = (source s a.lane k).count.toNat ∧
        v.getLsbD 24 = (source s a.lane k).level ∧ v.getLsbD 25 = (source s a.lane k).ovf ∧
        v.getLsbD 26 = (source s a.lane k).moved.isSome) ∧
    (a.port = eicPort x → (∀ k, eicPresented (lane s a.lane).eic (source s a.lane k) ≠ some x) →
      exec (.eicClaim a x) s = .next (answer s 0)) ∧
    (a.port ≠ eicPort x → ∃ u, exec (.eicClaim a x) s = .next (answer u 0) ∧ changesOnly [.ports] s u ∧
      ∀ p, a.port = some p → (u.ports.get p).accessErr = satInc (s.ports.get p).accessErr)

/-- R366, R373: a completion by the target that holds the claim makes the source IDLE, or PENDING where it has arrived again, and its
COUNT stays; any other write is ignored and counted in BAD_COMPLETE. -/
def Obligations.EicCompleteEndsClaim : Prop :=
  ∀ (a : RegAccess) (x : EicTarget) (v : Word) (s : State), reaches s a = true →
    (∀ k, field v 9 0 = k → (source s a.lane k).claimedBy = x → eicUsed k = true →
      ((source s a.lane k).st = .claimed → ∃ t, exec (.eicComplete a x v) s = .next t ∧
        onlySources a.lane (fun j => decide (j = k)) (fun y => { y with st := .idle, claimedBy := .sc }) s t) ∧
      ((source s a.lane k).st = .claimedAgain → ∃ t, exec (.eicComplete a x v) s = .next t ∧
        onlySources a.lane (fun j => decide (j = k)) (fun y => { y with st := .pending, claimedBy := .sc }) s t)) ∧
    ((source s a.lane (field v 9 0)).claimedBy ≠ x ∨ (source s a.lane (field v 9 0)).st = .idle ∨
        (source s a.lane (field v 9 0)).st = .pending →
      exec (.eicComplete a x v) s = .next (modLane s a.lane (fun L => { L with eic := { L.eic with
        badComplete := satInc L.eic.badComplete } })))

/-! ### The words of the Press (R78 to R109) -/

/-- R96: the ten bit instructions combine COG with the addressed bit, or write it; ACC, SAT and the branch stack stay. -/
def Obligations.BitWords : Prop :=
  ∀ (w : PressWord) (space : BitVec 4) (s : State), fetches s w false → bitLegal space (opnd w) = true →
    (let x := strandNow s w
     let b := readBit (dataNow s w) s.mod.tickTime space (opnd w)
     exec (.ld w space) s = .next (wordDone s w { x with pc := x.pc + 1, cog := b } []) ∧
     exec (.ldn w space) s = .next (wordDone s w { x with pc := x.pc + 1, cog := !b } []) ∧
     exec (.andBit w space) s = .next (wordDone s w { x with pc := x.pc + 1, cog := x.cog && b } []) ∧
     exec (.andnBit w space) s = .next (wordDone s w { x with pc := x.pc + 1, cog := x.cog && !b } []) ∧
     exec (.orBit w space) s = .next (wordDone s w { x with pc := x.pc + 1, cog := x.cog || b } []) ∧
     exec (.ornBit w space) s = .next (wordDone s w { x with pc := x.pc + 1, cog := x.cog || !b } []) ∧
     exec (.xorBit w space) s = .next (wordDone s w { x with pc := x.pc + 1, cog := xor x.cog b } [])) ∧
    (bitWritable space = true →
     let x := strandNow s w
     exec (.st w space) s = .next (wordDone s w { x with pc := x.pc + 1 } [.bit space (opnd w) x.cog]) ∧
     exec (.setBit w space) s =
       .next (wordDone s w { x with pc := x.pc + 1 } (if x.cog then [.bit space (opnd w) true] else [])) ∧
     exec (.rstBit w space) s =
       .next (wordDone s w { x with pc := x.pc + 1 } (if x.cog then [.bit space (opnd w) false] else [])))

/-- R97, R102, R442: edge and counter instructions; the first execution of an edge memory that a racking marked new stores COG and
gives 0. -/
def Obligations.EdgeAndCounterWords : Prop :=
  ∀ (w : PressWord) (s : State), fetches s w false →
    (opnd w < 65536 →
     let x := strandNow s w
     let e := bget (dataNow s w).e (opnd w)
     let fresh := bget (lane (atWord s w) w.lane).press.newEdges (opnd w)
     exec (.edgp w) s = .next (wordDone s w { x with pc := x.pc + 1, cog := !fresh && (x.cog && !e) } [.edge (opnd w) x.cog]) ∧
     exec (.edgn w) s = .next (wordDone s w { x with pc := x.pc + 1, cog := !fresh && (!x.cog && e) } [.edge (opnd w) x.cog])) ∧
    (opnd w < 8192 →
     let x := strandNow s w
     let c := sget CounterRec.reset (dataNow s w).c (opnd w)
     let y := { x with pc := x.pc + 1 }
     (x.cog = false → exec (.ctu w) s = .next (wordDone s w y []) ∧ exec (.ctd w) s = .next (wordDone s w y []) ∧
       exec (.crs w) s = .next (wordDone s w y []) ∧ exec (.cld w) s = .next (wordDone s w y [])) ∧
     (x.cog = true →
       exec (.ctu w) s = .next (wordDone s w y [.counter (opnd w)
         (if c.count.toNat = 0xFFFFFFFF then { c with sat := true } else { c with count := c.count + 1 })]) ∧
       exec (.ctd w) s = .next (wordDone s w y [.counter (opnd w)
         (if c.count.toNat = 0 then { c with sat := true } else { c with count := c.count - 1 })]) ∧
       exec (.crs w) s = .next (wordDone s w y [.counter (opnd w) { count := 0, sat := false }]) ∧
       exec (.cld w) s = .next (wordDone s w y [.counter (opnd w) { c with count := x.acc }])))

/-- R97 to R101: each timer instruction leaves the running bit, the start time and the output that the table of R100 gives, its output in
COG and its input as the last input; TRS with COG = 1 makes the timer idle with output 0 and the elapsed-saturated flag 0, and COG
stays. -/
def Obligations.TimerWords : Prop :=
  ∀ (w : PressWord) (s : State), fetches s w false → opnd w < 16384 →
    let x := strandNow s w
    let r := sget TimerRec.reset (dataNow s w).t (opnd w)
    let preset := timerPreset (lane s w.lane) (opnd w)
    let done := decide ((s.mod.tickTime - r.start).toNat / 100000 ≥ preset)
    let starts := fun (u : TimerRec) => u.run = true ∧ u.start = s.mod.tickTime
    let rests := fun (u : TimerRec) => u.run = false ∧ u.start = r.start
    (∃ u, exec (.ton w) s = .next (wordDone s w { x with pc := x.pc + 1, cog := u.out } [.timer (opnd w) u]) ∧ u.last = x.cog ∧
      (x.cog = false → rests u ∧ u.out = false ∧ u.esat = false) ∧
      (x.cog = true → r.run = false → starts u ∧ u.out = decide (preset = 0)) ∧
      (x.cog = true → r.run = true → u.run = true ∧ u.start = r.start ∧ u.out = done)) ∧
    (∃ u, exec (.tof w) s = .next (wordDone s w { x with pc := x.pc + 1, cog := u.out } [.timer (opnd w) u]) ∧ u.last = x.cog ∧
      (x.cog = true → rests u ∧ u.out = true ∧ u.esat = false) ∧
      (x.cog = false → r.run = false → r.out = true → starts u ∧ u.out = decide (preset ≠ 0)) ∧
      (x.cog = false → r.run = true → u.run = !done ∧ u.start = r.start ∧ u.out = !done) ∧
      (x.cog = false → r.run = false → r.out = false → rests u ∧ u.out = false)) ∧
    (∃ u, exec (.tp w) s = .next (wordDone s w { x with pc := x.pc + 1, cog := u.out } [.timer (opnd w) u]) ∧ u.last = x.cog ∧
      (x.cog = true → r.last = false → r.run = false → r.out = false → starts u ∧ u.out = decide (preset ≠ 0)) ∧
      (r.run = true → u.run = !done ∧ u.start = r.start ∧ u.out = !done) ∧
      (r.run = false → (x.cog = false ∨ r.last = true ∨ r.out = true) → rests u ∧ u.out = false)) ∧
    (x.cog = false → exec (.trs w) s = .next (wordDone s w { x with pc := x.pc + 1 } [])) ∧
    (x.cog = true → ∃ u, exec (.trs w) s = .next (wordDone s w { x with pc := x.pc + 1 } [.timer (opnd w) u]) ∧
      rests u ∧ u.out = false ∧ u.esat = false ∧ u.last = r.last)

/-- R101, R103: the word instructions; ADD and SUB saturate and set SAT; TLD reports the elapsed time of a running timer, saturating, and
0 of a timer that does not run. -/
def Obligations.WordWords : Prop :=
  ∀ (w : PressWord) (s : State), fetches s w false →
    let x := strandNow s w
    let y := { x with pc := x.pc + 1 }
    let v := sget (0 : Word) (dataNow s w).w (opnd w)
    (opnd w < 65536 →
      exec (.lw w) s = .next (wordDone s w { y with acc := v } []) ∧
      exec (.sw w) s = .next (wordDone s w y [.word (opnd w) x.acc]) ∧
      (∃ u, exec (.add w) s = .next (wordDone s w u []) ∧
        u = { y with acc := BitVec.ofNat 32 (min (x.acc.toNat + v.toNat) 0xFFFFFFFF)
                     sat := x.sat || decide (x.acc.toNat + v.toNat > 0xFFFFFFFF) }) ∧
      (∃ u, exec (.sub w) s = .next (wordDone s w u []) ∧
        u = { y with acc := BitVec.ofNat 32 (x.acc.toNat - v.toNat), sat := x.sat || decide (x.acc.toNat < v.toNat) }) ∧
      exec (.cmpeq w) s = .next (wordDone s w { y with cog := decide (x.acc = v) } []) ∧
      exec (.cmpge w) s = .next (wordDone s w { y with cog := decide (x.acc.toNat ≥ v.toNat) } []) ∧
      exec (.cmplt w) s = .next (wordDone s w { y with cog := decide (x.acc.toNat < v.toNat) } []) ∧
      exec (.wand w) s = .next (wordDone s w { y with acc := x.acc &&& v } []) ∧
      exec (.wor w) s = .next (wordDone s w { y with acc := x.acc ||| v } [])) ∧
    (∃ u, exec (.li w) s = .next (wordDone s w u []) ∧ u = { y with acc := u.acc } ∧ u.acc.toNat = opnd w) ∧
    (opnd w < 1024 → ∃ u, exec (.lih w) s = .next (wordDone s w u []) ∧ u = { y with acc := u.acc } ∧
      u.acc.toNat / 2 ^ 22 = opnd w ∧ u.acc.toNat % 2 ^ 22 = x.acc.toNat % 2 ^ 22) ∧
    (opnd w < 16384 → ∃ u, exec (.tld w) s = .next (wordDone s w u []) ∧ u = { y with acc := u.acc } ∧
      u.acc.toNat = (let r := sget TimerRec.reset (dataNow s w).t (opnd w)
                     if r.run = true then min ((s.mod.tickTime - r.start).toNat / 100000) 0xFFFFFFFF else 0)) ∧
    (opnd w < 8192 →
      exec (.cacc w) s = .next (wordDone s w { y with acc := (sget CounterRec.reset (dataNow s w).c (opnd w)).count } [])) ∧
    (opnd w < 131072 → ∃ u, exec (.xld w) s = .next (wordDone s w u []) ∧ u = { y with acc := u.acc } ∧
      (let e := (sget (0 : BitVec 64) (dataNow s w).x (opnd w / 2)).toNat
       (opnd w % 2 = 0 → u.acc.toNat = e % 2 ^ 32) ∧ (opnd w % 2 = 1 → u.acc.toNat = e / 2 ^ 32))) ∧
    (opnd w < 16384 → ∃ u, exec (.rsld w) s = .next (wordDone s w u []) ∧ u = { y with acc := u.acc } ∧
      u.acc.toNat = (sget (0 : BitVec 16) (dataNow s w).rs (opnd w)).toNat) ∧
    (opnd w = 0 → exec (.satt w) s = .next (wordDone s w { y with cog := x.sat, sat := false } []))

/-- R104, R105, R107: the flow instructions; the peak of R114 follows the depth of the stack. -/
def Obligations.FlowWords : Prop :=
  ∀ (w : PressWord) (s : State), fetches s w false →
    let x := strandNow s w
    let y := { x with pc := x.pc + 1 }
    (opnd w = 0 → exec (.nop w) s = .next (wordDone s w y [])) ∧
    (opnd w = 0 → x.stack.length < 16 → ∃ u, exec (.openBranch w) s = .next (wordDone s w u []) ∧
      u = { y with stack := .expr x.cog :: x.stack, peak := u.peak } ∧ u.peak.toNat = max x.peak.toNat (x.stack.length + 1)) ∧
    (∀ v r, x.stack = .expr v :: r →
      (opnd w = 0 → exec (.closeBranch w) s = .next (wordDone s w { y with stack := r, cog := v && x.cog } [])) ∧
      (opnd w = 1 → exec (.closeBranch w) s = .next (wordDone s w { y with stack := r, cog := v && !x.cog } [])) ∧
      (opnd w = 2 → exec (.closeBranch w) s = .next (wordDone s w { y with stack := r, cog := v || x.cog } [])) ∧
      (opnd w = 3 → exec (.closeBranch w) s = .next (wordDone s w { y with stack := r, cog := v || !x.cog } [])) ∧
      (opnd w = 4 → exec (.closeBranch w) s = .next (wordDone s w { y with stack := r, cog := xor v x.cog } []))) ∧
    (x.pc < opnd w → opnd w < segLen (lane s w.lane) w.strand →
      exec (.jmp w) s = .next (wordDone s w { x with pc := opnd w } []) ∧
      exec (.jmpc w) s = .next (wordDone s w { x with pc := if x.cog then opnd w else x.pc + 1 } []) ∧
      exec (.jmpn w) s = .next (wordDone s w { x with pc := if x.cog then x.pc + 1 else opnd w } [])) ∧
    (opnd w ≠ x.pc → opnd w < segLen (lane s w.lane) w.strand → x.stack.length < 16 →
      ∃ u, exec (.call w) s = .next (wordDone s w u []) ∧
        u = { x with pc := opnd w, stack := .call (x.pc + 1) :: x.stack, peak := u.peak } ∧
        u.peak.toNat = max x.peak.toNat (x.stack.length + 1))

/-- R79, R104, R107: RET and END may be the last word of a segment; END stops the strand, and after the last of the four ENDs the lane's
logic-done mark is set in the next clock. -/
def Obligations.ReturnAndEnd : Prop :=
  ∀ (w : PressWord) (s : State), fetches s w true → opnd w = 0 →
    let x := strandNow s w
    (∀ a r, x.stack = .call a :: r → exec (.ret w) s = .next (wordDone s w { x with pc := a, stack := r } [])) ∧
    (x.stack = [] →
      ∃ u, exec (.endStrand w) s = .next u ∧ (strandOf (lane u w.lane).press.strands w.strand).ended = true ∧
        (strandOf (lane u w.lane).press.strands w.strand).running = false ∧
        (∀ i, i ≠ w.strand → strandOf (lane u w.lane).press.strands i = strandOf (lane (atWord s w) w.lane).press.strands i) ∧
        ((∃ i, i ≠ w.strand ∧ (strandOf (lane (atWord s w) w.lane).press.strands i).ended = false) →
          (lane u w.lane).press.done = (lane (atWord s w) w.lane).press.done ∧ (lane u w.lane).press.data = dataNow s w) ∧
        ((∀ i, i ≠ w.strand → (strandOf (lane (atWord s w) w.lane).press.strands i).ended = true) →
          (lane u w.lane).press.done = some ((lane (atWord s w) w.lane).press.clock + 1)))

/-- R106: a strand that executes BAR waits; it goes on once each of the other three has executed that barrier or a higher one, or has
ended, and not before. -/
def Obligations.BarriersHold : Prop :=
  (∀ (w : PressWord) (s : State), fetches s w false → opnd w < 256 →
    let x := strandNow s w
    ∃ u m, exec (.bar w) s = .next (wordDone s w u []) ∧
      u = { x with pc := x.pc + 1, waiting := some (BitVec.ofNat 8 (opnd w)), passed := some m } ∧
      (x.passed = none → m.toNat = opnd w) ∧ (∀ k, x.passed = some k → m.toNat = max k.toNat (opnd w))) ∧
  ∀ (l : Lane) (i : Fin 4) (n : BitVec 8) (s : State), (strandOf (lane s l).press.strands i).waiting = some n →
    (lane s l).press.active = true →
    ((∀ j, j ≠ i → (strandOf (lane s l).press.strands j).ended = true ∨
        ∃ m, (strandOf (lane s l).press.strands j).passed = some m ∧ n.toNat ≤ m.toNat) →
      ∃ t, exec (.barRelease l i) s = .next t ∧
        strandOf (lane t l).press.strands i = { strandOf (lane s l).press.strands i with waiting := none, ran := true } ∧
        (∀ j, j ≠ i → strandOf (lane t l).press.strands j = strandOf (lane s l).press.strands j) ∧
        changesOnly [.press] s t ∧ (lane t l).press.data = (lane s l).press.data ∧ ∀ m, m ≠ l → lane t m = lane s m) ∧
    ((∃ j, j ≠ i ∧ (strandOf (lane s l).press.strands j).ended = false ∧
        ∀ m, (strandOf (lane s l).press.strands j).passed = some m → m.toNat < n.toNat) →
      exec (.barRelease l i) s = .next s)

/-- R108, R109, R131: a call into the RAA acts only with COG = 1: where the queue has room the request joins those of this cycle in the
order of R109 and COG is 1; where it has none the request is dropped and counted, and COG is 0. -/
def Obligations.CallWords : Prop :=
  ∀ (w : PressWord) (s : State), fetches s w false →
    let x := strandNow s w
    let q : State → State → Bool → QEntry → Prop := fun u t room e =>
      (lane t w.lane).press = { (lane u w.lane).press with
        strands := putStrand (lane u w.lane).press.strands w.strand { x with pc := x.pc + 1, cog := room, ran := true }
        issued := if room then issueInsert e (lane u w.lane).press.issued else (lane u w.lane).press.issued
        entered := if room then satInc (lane u w.lane).press.entered else (lane u w.lane).press.entered
        dropped := if room then (lane u w.lane).press.dropped else satInc (lane u w.lane).press.dropped } ∧
      changesOnly [.press] u t ∧ ∀ m, m ≠ w.lane → lane t m = lane u m
    let room := decide (placedNext (lane (atWord s w) w.lane) < 3072)
    let src := QSource.press s.mod.cycle (lane (atWord s w) w.lane).press.clock w.strand
    (x.cog = false →
      (opnd w < 16384 → exec (.rreq w) s = .next (wordDone s w { x with pc := x.pc + 1 } []) ∧
        exec (.rcan w) s = .next (wordDone s w { x with pc := x.pc + 1 } [])) ∧
      (opnd w < 7 * 65536 → exec (.ecmd w) s = .next (wordDone s w { x with pc := x.pc + 1 } []))) ∧
    (x.cog = true →
      (opnd w < 16384 →
        (∃ t, exec (.rreq w) s = .next t ∧ q (atWord s w) t room { kind := .rreq, item := opnd w, cmd := 0, src := src }) ∧
        (∃ t, exec (.rcan w) s = .next t ∧ q (atWord s w) t room { kind := .rcan, item := opnd w, cmd := 0, src := src })) ∧
      (opnd w < 7 * 65536 →
        ∃ t, exec (.ecmd w) s = .next t ∧
          q (atWord s w) t room { kind := .ecmd, item := opnd w % 65536, cmd := opnd w / 65536, src := src }))

/-- R94, R95, R105, R107: a word with another strand's number, a fetch beyond the segment, a last word that is neither END nor RET, an opcode
that no table lists, and the five misuses of the branch stack each stop the lane's Press and isolate the lane with the cause of R94, R95 and R107; the STRAND field
is judged first, but for an address beyond the segment. -/
def Obligations.PressFaultsIsolate : Prop :=
  ∀ (w : PressWord) (s : State), executing s w → isolatable (lst s w.lane) = true →
    let x := strandNow s w
    let n := segLen (lane s w.lane) w.strand
    (∀ c, wordOf c = some w → n ≤ x.pc → ∃ t, exec c s = .next t ∧ pressFaulted s w .illegalWord x.pc t) ∧
    (∀ c, wordOf c = some w → x.pc < n → w.field.toNat ≠ w.strand.val →
      ∃ t, exec c s = .next t ∧ pressFaulted s w .strandMismatch x.pc t) ∧
    (∀ c, wordOf c = some w → (∀ v, c ≠ .endStrand v ∧ c ≠ .ret v) → x.pc + 1 = n → w.field.toNat = w.strand.val →
      ∃ t, exec c s = .next t ∧ pressFaulted s w .illegalWord x.pc t) ∧
    (∀ c, wordOf c = some w → x.pc < n → w.field.toNat = w.strand.val → opListed w.opcode = false →
      ∃ t, exec c s = .next t ∧ pressFaulted s w .illegalWord x.pc t) ∧
    (fetches s w false →
      (x.stack.length ≥ 16 → opnd w = 0 → ∃ t, exec (.openBranch w) s = .next t ∧ pressFaulted s w .stackOverflow x.pc t) ∧
      (x.stack.length ≥ 16 → opnd w ≠ x.pc → opnd w < n →
        ∃ t, exec (.call w) s = .next t ∧ pressFaulted s w .stackOverflow x.pc t) ∧
      (x.stack = [] → opnd w < 5 → ∃ t, exec (.closeBranch w) s = .next t ∧ pressFaulted s w .stackUnderflow x.pc t) ∧
      (∀ a r, x.stack = .call a :: r → opnd w < 5 →
        ∃ t, exec (.closeBranch w) s = .next t ∧ pressFaulted s w .entryMismatch x.pc t)) ∧
    (fetches s w true → opnd w = 0 →
      (x.stack = [] → ∃ t, exec (.ret w) s = .next t ∧ pressFaulted s w .stackUnderflow x.pc t) ∧
      (∀ v r, x.stack = .expr v :: r → ∃ t, exec (.ret w) s = .next t ∧ pressFaulted s w .entryMismatch x.pc t) ∧
      (x.stack ≠ [] → ∃ t, exec (.endStrand w) s = .next t ∧ pressFaulted s w .unbalancedEnd x.pc t))

/-- R80: a write waits for the end of its clock, and then the bit or word reads what was written; of two strands' writes in one clock that of
the higher-numbered strand is the one that stays. -/
def Obligations.ClockEndsWithWrites : Prop :=
  ∀ (p : Press) (i j : Fin 4) (sp : BitVec 4) (k n : Nat) (u v : Bool) (a b : Word),
    (sp = 2 → bget (commitWrites { p with writes := [(i.val, .bit sp k u)] }).data.q n = if n = k then u else bget p.data.q n) ∧
    (sp = 3 → bget (commitWrites { p with writes := [(i.val, .bit sp k u)] }).data.m n = if n = k then u else bget p.data.m n) ∧
    (sp = 0xC → bget (commitWrites { p with writes := [(i.val, .bit sp k u)] }).data.lq n = if n = k then u else bget p.data.lq n) ∧
    (sget 0 (commitWrites { p with writes := [(i.val, .word k a)] }).data.w n = if n = k then a else sget 0 p.data.w n) ∧
    (i.val < j.val →
      (commitWrites { p with writes := [(j.val, .word k b), (i.val, .word k a)] }).data.w =
        sput 0 (sput 0 p.data.w k a) k b ∧
      (commitWrites { p with writes := [(i.val, .word k a), (j.val, .word k b)] }).data.w =
        sput 0 (sput 0 p.data.w k a) k b ∧
      bget (commitWrites { p with writes := [(j.val, .bit 3 k v), (i.val, .bit 3 k u)] }).data.m k = v)

/-! ### Supplies, clocks and resets (R14, R24, R25, R28, R446, R483 to R493) -/

/-- R24, R490, R492, R446: out of reset the module is in BOOT, every lane that no reset holds begins to boot, and three parked slots of one
version are the slots booted; where the carrier has broken the order of the rails, the module stays in reset. -/
def Obligations.ReleaseFromReset : Prop :=
  ∀ s : State, s.mod.st = .off →
    exec (.resetRelease false) s = .next s ∧
    ∃ t, exec (.resetRelease true) s = .next t ∧ t.mod.st = .boot ∧
      t.cellar.life.powerCycles = satInc s.cellar.life.powerCycles ∧
      (∀ l, lst t l = lst s l ∧ (lane t l).life.railHeld = false ∧ (lane t l).press = (lane s l).press ∧
        ((lane s l).life.held = false → lst s l = .boot → (lane t l).life.startStep = 1) ∧
        ((lane s l).life.held = true → (lane t l).life.startStep = (lane s l).life.startStep)) ∧
      (∀ v, (∀ l, parkedVersion (lane s l).boot = some v) →
        ∀ l, slotVersion (lane t l).boot = v ∧ slotState (lane t l).boot (lane t l).boot.slot = .valid) ∧
      ((¬ ∃ v, ∀ l, parkedVersion (lane s l).boot = some v) → ∀ l, (lane t l).boot.slot = (lane s l).boot.slot)

/-- R14, R418, R484, R492, R493, R505: a supply below its reset level puts the module into reset, reported as POWER_ON; RESET_N restarts it into
BOOT, and out of SAFE that counts as a restart, beyond those that stand in the MRAM. -/
def Obligations.ModuleResets : Prop :=
  ∀ s : State, s.mod.st ≠ .off →
    (∃ t, exec .vdd3v3Reset s = .next t ∧ ModuleWasReset s .off 1 t) ∧
    (∃ t, exec .ioAnaReset s = .next t ∧ ModuleWasReset s .off 1 t) ∧
    (∃ t, exec .resetNLow s = .next t ∧ ModuleWasReset s .boot 5 t ∧
      (s.mod.st = .safe → t.cellar.life.restarts = satInc s.cellar.paged.restarts))

/-- R25, R406, R408, R468, R493, R515: a 3V3 warning is counted with its voltage in every lane, ends a BIST of SRAM or a march, and stops
staging until its release; a core rail warning is counted and changes no lane's state. -/
def Obligations.SupplyWarnings : Prop :=
  ∀ (mv : BitVec 16) (s : State), s.mod.st ≠ .off →
    (s.mod.v3Warn = false → ∃ t, exec (.rail3v3Warn mv) s = .next t ∧ t.mod.v3Warn = true ∧ t.mod.powerFlush = true ∧
      ∀ l, (lane t l).pwr.v3Warns = satInc (lane s l).pwr.v3Warns ∧ (lane t l).pwr.v3Mv = mv.setWidth 12 ∧
        (runs s l = true → (lane t l).cel.staging = [] ∧ (lane t l).cel.powerFlush = true ∧ ∀ t', t'.lanes = t.lanes → stages t' l = false) ∧
        (((lane s l).bist.phase = 4 ∨ (lane s l).bist.phase = 5) → (lane t l).bist.phase = 0) ∧ lst t l = lst s l) ∧
    (s.mod.v3Warn = true → exec (.rail3v3Warn mv) s = .next s ∧
      ∃ t, exec .v3WarnRelease s = .next t ∧ t.mod.v3Warn = false ∧ t.mod.powerFlush = false ∧
        ∀ l, (lane t l).cel.powerFlush = false ∧ lst t l = lst s l) ∧
    (∀ l, (lane s l).pwr.coreWarn = false → ∃ t, exec (.coreRailWarn l mv) s = .next t ∧
      (lane t l).pwr.coreWarn = true ∧ (lane t l).pwr.coreWarns = satInc (lane s l).pwr.coreWarns ∧
      (lane t l).pwr.coreMv = mv.setWidth 12 ∧ (∀ m, lst t m = lst s m ∧ (m ≠ l → (lane t m).pwr = (lane s m).pwr)) ∧
      t.mod = s.mod)

/-- R24, R25, R39, R196, R483, R493: the reset of a core rail, the loss of a lane's clock and the firmware watchdog isolate the lane first,
with causes RAIL, LINK and SELF, and then reset it; the lane boots again once its rail has recovered, once its clock is back, or at once,
and the receivers report its reset line as long as it holds. -/
def Obligations.LaneResets : Prop :=
  ∀ (l : Lane) (s : State), s.mod.st ≠ .off →
    let reports := fun (t : State) (x : Bool) => ∀ m, (t.sluices.get m).linkReset.getLsbD l.idx = x
    (∃ u t, exec (.coreRailReset l) s = .next t ∧ (isolatable (lst s l) = true → LaneOut s l .rail u) ∧
      (∀ m, m ≠ l → lst u m = lst s m) ∧ LaneWasReset u l 2 t ∧ reports t true ∧ (lane t l).life.railHeld = true ∧
      (lane t l).life.startStep = 0) ∧
    (∃ u t, exec (.clockLoss l) s = .next t ∧ (isolatable (lst s l) = true → LaneOut s l .link u) ∧
      (∀ m, m ≠ l → lst u m = lst s m) ∧ LaneWasReset u l 3 t ∧ reports t true ∧ (lane t l).life.held = true ∧
      (lane t l).life.startStep = 0) ∧
    (runs s l = true → ∃ u t, exec (.fwWatchdog l) s = .next t ∧ (isolatable (lst s l) = true → LaneOut s l .self u) ∧
      (∀ m, m ≠ l → lst u m = lst s m) ∧ LaneWasReset u l 9 t ∧
      ((lane s l).life.held = false → (lane s l).life.railHeld = false → (lane t l).life.startStep = 1 ∧ reports t false)) ∧
    ((lane s l).life.railHeld = true → ∃ t, exec (.coreWarnRelease l) s = .next t ∧ (lane t l).life.railHeld = false ∧
      (lane t l).pwr.coreWarn = false ∧ ((lane s l).life.held = false → (lane t l).life.startStep = 1 ∧ reports t false) ∧
      ((lane s l).life.held = true → (lane t l).life.startStep = (lane s l).life.startStep) ∧
      ∀ m, m ≠ l → lane t m = lane s m) ∧
    ((lane s l).life.held = true → ∃ t, exec (.clockRestored l) s = .next t ∧ (lane t l).life.held = false ∧
      ((lane s l).life.railHeld = false → (lane t l).life.startStep = 1 ∧ reports t false) ∧
      ((lane s l).life.railHeld = true → (lane t l).life.startStep = (lane s l).life.startStep) ∧
      ∀ m, m ≠ l → lane t m = lane s m)

/-! ### A lane's way out and back (R24, R28, R32, R39, R40, R48, R188, R189, R445, R518) -/

/-- R39, R173, R174: an uncorrectable error isolates the lane with cause MEMORY, a failed self-check of its firmware with cause SELF; of
several causes found in the same clock the first in the order of R173 is recorded. -/
def Obligations.OwnFindingsIsolate : Prop :=
  ∀ (l : Lane) (s : State), isolatable (lst s l) = true →
    (∃ t, exec (.eccUncorrectable ⟨l, []⟩) s = .next t ∧ LaneOut s l .memory t) ∧
    (∀ also, (∃ t, exec (.eccUncorrectable ⟨l, also⟩) s = .next t ∧ LaneOut s l (firstCause .memory also) t) ∧
      firstCause .memory also ∈ IsoCause.memory :: also ∧
      ∀ c ∈ IsoCause.memory :: also, findingOrder.idxOf (firstCause .memory also) ≤ findingOrder.idxOf c) ∧
    (∃ t, exec (.firmwareSelfCheck l) s = .next t ∧ LaneOut s l .self t)

/-- R24, R458, R460, R518: an isolated lane that no lone latch and no planned activity keeps out runs its tests: passed, it is in TEST with its
tests done; failed, it is isolated again with the cause of the test that failed. Signatures that all equal the expected ones pass where
every row found has a spare; a signature that differs fails, and so does a row without a free spare; the march is none of these tests. -/
def Obligations.IsolatedLaneIsTested : Prop :=
  ∀ (l : Lane) (s : State), lst s l = .isolated →
    ((lane s l).life.loneHeld = true ∨ (lane s l).life.planned ≠ .none → ∀ r, exec (.reinitialisation l r) s = .next s) ∧
    ((lane s l).life.loneHeld = false → (lane s l).life.planned = .none → ∀ r : TestRun,
      let v := testVerdict (lane s l).bist r
      (v.2 = .pass → ∃ t, exec (.reinitialisation l r) s = .next t ∧ lst t l = .test ∧ (lane t l).life.testsDone = true ∧
        ∀ m, m ≠ l → lst t m = lst s m) ∧
      ((bistCause v.2 = .self ∨ ∃ m x, v.2 = .sramFail m x) → ∃ u t, exec (.reinitialisation l r) s = .next t ∧ lst u l = .test ∧
        (∀ m, m ≠ l → lst u m = lst s m) ∧ LaneOut u l (bistCause v.2) t) ∧
      ((∃ a, v.2 = .dramFail a) → exec (.reinitialisation l r) s = .next s) ∧
      (r.result = .pass → r.repairs = [] → v.2 = .pass) ∧
      (∀ p2 es e, r.result = .logicFail p2 es → e ∈ es.take (if p2 then 1 else 6) → e ≠ 0 → bistCause v.2 = .self) ∧
      (∀ x rest, r.repairs = x :: rest → r.result = .pass → freeSpares (lane s l).bist x.macroNo = 0 → v.2 = .sramFail x.macroNo x.row))

/-- R24, R40, R48, R165, R188, R189: the way back: SYNC of a tested lane whose firmware is in the class of those that serve, while a lane
outside it stays in TEST; REINTEGRATING in SERVICE_2oo2 with the snapshot that the serving lanes send; the transfer verified by its check
values; the catch-up in time, after which the lane holds what the serving lanes hold; a failed check, or a third catch-up cycle out of
time, isolates with cause TRANSFER. -/
def Obligations.WayBack : Prop :=
  ∀ (l : Lane) (s : State),
    (lst s l = .test → (lane s l).life.testsDone = true → (lane s l).life.loneHeld = false → s.mod.ticking = true →
      operating s.mod.st = true →
      ((∀ m, lst s m = .serving → field (lane s m).boot.version 31 16 = field (lane s l).boot.version 31 16) →
        ∃ t, exec (.laneSync l) s = .next t ∧ lst t l = .sync ∧ (∀ m, m ≠ l → lane t m = lane s m)) ∧
      ((∃ m, lst s m = .serving ∧ field (lane s m).boot.version 31 16 ≠ field (lane s l).boot.version 31 16) →
        ∃ t, exec (.laneSync l) s = .next t ∧ (∀ m, lst t m = lst s m) ∧ changesOnly (records ++ [.life]) s t)) ∧
    (lst s l = .sync → s.mod.st = .svc2 → ∃ t, exec (.stateTransfer l) s = .next t ∧ lst t l = .reintegrating ∧
      (lane t l).life.join = .transferring ∧ (lane t l).xfer = servedSnapshot s l ∧ ∀ m, m ≠ l → lane t m = lane s m) ∧
    (lst s l = .sync → s.mod.st = .svc3 → exec (.stateTransfer l) s = .next s) ∧
    (lst s l = .reintegrating → (lane s l).life.join = .transferring → ∀ x, (lane s l).xfer = some x →
      (∃ t, exec (.transferVerified l (transferChecks x)) s = .next t ∧ lst t l = .reintegrating ∧ (lane t l).life.join = .verified 0 ∧
        (lane t l).xfer = some x ∧ ∀ m, m ≠ l → lane t m = lane s m) ∧
      (∀ cs, cs ≠ transferChecks x → ∃ t, exec (.transferVerified l cs) s = .next t ∧ LaneOut s l .transfer t)) ∧
    (lst s l = .reintegrating → (s.mod.phase = .output ∨ s.mod.phase = .idle) →
      ∀ n x now, catchUps (lane s l).life.join = some n → (lane s l).xfer = some x → servedSnapshot s l = some now →
      (∃ t, exec (.catchUp l true (catchUpChecks (wroteSince s x) now)) s = .next t ∧ (lane t l).life.join = .caughtUp ∧ lst t l = .reintegrating ∧
        snapshotOf (lane t l) = now ∧ ∀ m, m ≠ l → lane t m = lane s m) ∧
      (n < 2 → ∃ t, exec (.catchUp l false (catchUpChecks (wroteSince s x) now)) s = .next t ∧ (lane t l).life.join = .verified (n + 1) ∧
        (lane t l).xfer = some now ∧ lst t l = .reintegrating ∧ ∀ m, m ≠ l → lane t m = lane s m) ∧
      (2 ≤ n → ∃ t, exec (.catchUp l false (catchUpChecks (wroteSince s x) now)) s = .next t ∧ LaneOut s l .transfer t) ∧
      (∀ b c, c ≠ catchUpChecks (wroteSince s x) now → ∃ t, exec (.catchUp l b c) s = .next t ∧ LaneOut s l .transfer t))

/-- R20, R24, R40, R176: after two equal shadow cycles the lane joins: it serves, every Sluice votes it again, and with three lanes serving
SERVICE_2oo2 becomes SERVICE_3oo3; where the latch of its own Sluice alone is set it is a lone latch and leaves again, and two latches
put the module into SAFE. -/
def Obligations.LaneJoins : Prop :=
  ∀ (l : Lane) (n : Nat) (s : State), lst s l = .reintegrating → (lane s l).life.join = .shadow n →
    (2 ≤ n → s.mod.phase = .input → s.mod.st = .svc2 →
      ((∀ m, latched s m = false) → ∃ t, exec (.laneJoin l) s = .next t ∧ lst t l = .serving ∧
        (lane t l).life.join = .none ∧ (∀ m, m ≠ l → lst t m = lst s m) ∧
        (∀ m, (t.sluices.get m).voting = vput (s.sluices.get m).voting l.idx true) ∧
        ((∀ m, m ≠ l → lst s m = .serving) → t.mod.st = .svc3) ∧ ((∃ m, m ≠ l ∧ lst s m ≠ .serving) → t.mod.st = .svc2)) ∧
      ((∀ m, m ≠ l → lst s m = .serving ∧ latched s m = false) → latched s l = true → ∃ t, exec (.laneJoin l) s = .next t ∧
        (lst t l = .isolated ∨ lst t l = .retired) ∧ (lane t l).life.loneHeld = true ∧ (t.sluices.get l).lone = true ∧
        ∀ m, m ≠ l → lst t m = .serving) ∧
      (2 ≤ (Lane.list.filter (latched s)).length → ∃ t, exec (.laneJoin l) s = .next t ∧ t.mod.st = .safe ∧ ∀ m, latched t m = true)) ∧
    (n < 2 → exec (.laneJoin l) s = .next s)

/-- R28, R307, R404, R486: an authorised retirement clear empties the lane's window and puts the lane into TEST; in SAFE it waits for the next
restart; a request whose key version, HMAC or nonce does not pass changes nothing. -/
def Obligations.RetirementClears : Prop :=
  ∀ (l : Lane) (a : Auth) (s : State), (s.cellar.life.lanes.get l).retired = true →
    (authOk s a = false → exec (.retirementClear l a) s = .next s) ∧
    (authOk s a = true → s.mod.st = .safe → ∃ t, exec (.retirementClear l a) s = .next t ∧
      (lane t l).life.clearPending = true ∧ (t.cellar.life.lanes.get l).retired = true ∧ t.cellar.life.nonceLast = a.nonce ∧
      ∀ m, lst t m = lst s m) ∧
    (authOk s a = true → s.mod.st ≠ .safe → ∃ t, exec (.retirementClear l a) s = .next t ∧
      (t.cellar.life.lanes.get l).retired = false ∧ (t.cellar.life.lanes.get l).stamps = [] ∧ t.cellar.life.nonceLast = a.nonce ∧
      (lst s l = .retired → lst t l = .test) ∧ (∀ m, m ≠ l → lst t m = lst s m ∧
        t.cellar.life.lanes.get m = s.cellar.life.lanes.get m)) ∧
    ∀ u : State, (u.cellar.life.lanes.get l).retired = false → exec (.retirementClear l a) u = .next u

/-! ### The vote, the Sluices' findings and the lane switches (R65 to R69, R163 to R186, R479) -/

/-- R67, R163, R168 to R171, R174, R176, R179, R194: with every image of the voting lanes complete and as it was sent, the vote of three
results in the image that two or three lanes sent, isolates the lane that differs, and puts the module into SAFE with NO_MAJORITY where
all differ; the vote of two results in their image, or puts the module into SAFE with PAIR_DISAGREE. The result gives the drives for the
next tick. An image that is missing holds the decision back until END_VOTE − 5 µs, and faults of the links act on what the Sluices hold. -/
def Obligations.VoteDecides : Prop :=
  ∀ (n : BitVec 28) (s : State), voteOpen s = true →
    (∀ fs, exec (.vote ⟨n, fs⟩) s = exec (.vote ⟨n, []⟩) (foldS fs linkFault s)) ∧
    (n.toNat < (lastDecision s).toNat → (∃ l, serving s l = true ∧ incomplete s l = true) → exec (.vote ⟨n, []⟩) s = .next s) ∧
    let d := if n.toNat < (lastDecision s).toNat then n else lastDecision s
    latchesQuiet s →
    (∀ x y z, received s [(.A, x), (.B, y), (.C, z)] →
      (x = y → x = z → ∃ t, exec (.vote ⟨n, []⟩) s = .next t ∧ voted s x 1 d t ∧ (∀ l, lst t l = lst s l) ∧ t.mod.st = s.mod.st) ∧
      (x = y → x ≠ z → ∃ t, exec (.vote ⟨n, []⟩) s = .next t ∧ voted s x 2 d t ∧ outvoted s .C (fun _ => true) t) ∧
      (x = z → x ≠ y → ∃ t, exec (.vote ⟨n, []⟩) s = .next t ∧ voted s x 2 d t ∧ outvoted s .B (fun _ => true) t) ∧
      (y = z → x ≠ y → ∃ t, exec (.vote ⟨n, []⟩) s = .next t ∧ voted s y 2 d t ∧ outvoted s .A (fun _ => true) t) ∧
      (x ≠ y → x ≠ z → y ≠ z → ∃ t, exec (.vote ⟨n, []⟩) s = .next t ∧ safeWith s .noMajority (fun _ => true) t)) ∧
    (∀ a b x y, servingLanes s = [a, b] → received s [(a, x), (b, y)] →
      (∀ l, lst s l ≠ .reintegrating) →
      (x = y → ∃ t, exec (.vote ⟨n, []⟩) s = .next t ∧ voted s x 1 d t ∧ (∀ l, lst t l = lst s l) ∧ t.mod.st = s.mod.st) ∧
      (x ≠ y → ∃ t, exec (.vote ⟨n, []⟩) s = .next t ∧ safeWith s .pairDisagree (fun _ => true) t))

/-- R172, R194: the digest check after a vote, over the digests that the Sluices of the voting lanes send: equal digests are noted by every
one of these Sluices; of three, the lane that differs is isolated, found by the two others; where no two of three agree, or the two of a
pair differ, the module is in SAFE. A digest without an error is that of the Sluice's result and its view. -/
def Obligations.DigestCheckDecides : Prop :=
  ∀ (err : PerLane (BitVec 64)) (s : State), operating s.mod.st = true → s.mod.phase = .vote → s.mod.result.isSome = true →
    let d := sentDigest s err
    (∀ m r, (s.sluices.get m).result = some r → err.get m = 0 → d m = digestOf r (s.sluices.get m).voting) ∧
    (latchesQuiet s → servingLanes s = [.A, .B, .C] →
      (d .A = d .B → d .A = d .C → ∃ t, exec (.voteDigest err) s = .next t ∧ changesOnly [.sluices] s t ∧
        ∀ m, (t.sluices.get m).digestOk = true) ∧
      (d .A = d .B → d .A ≠ d .C → ∃ t, exec (.voteDigest err) s = .next t ∧ outvoted s .C (fun m => decide (m ≠ .C)) t) ∧
      (d .A = d .C → d .A ≠ d .B → ∃ t, exec (.voteDigest err) s = .next t ∧ outvoted s .B (fun m => decide (m ≠ .B)) t) ∧
      (d .B = d .C → d .A ≠ d .B → ∃ t, exec (.voteDigest err) s = .next t ∧ outvoted s .A (fun m => decide (m ≠ .A)) t) ∧
      (d .A ≠ d .B → d .A ≠ d .C → d .B ≠ d .C → ∃ t, exec (.voteDigest err) s = .next t ∧ safeWith s .noMajority (fun _ => true) t)) ∧
    (∀ a b, servingLanes s = [a, b] →
      (d a = d b → ∃ t, exec (.voteDigest err) s = .next t ∧ changesOnly [.sluices] s t ∧
        (t.sluices.get a).digestOk = true ∧ (t.sluices.get b).digestOk = true) ∧
      (d a ≠ d b → ∃ t, exec (.voteDigest err) s = .next t ∧ safeWith s .pairDisagree (serving s) t))

/-- R65, R66, R69, R163 to R165, R173 to R178, R196: a lane whose tick is absent or deviates by more than 1 µs, whose links time out, whose
check block fails at a Sluice or whose image is not complete at the deadline is isolated with causes WATCHDOG, LINK and OVERRUN, or with
what is found before it in the same clock, once for each; a deviation within the limit is noted and isolates nothing; the reset of a
lane die takes its links down and isolates a lane that the Sluices watch; that of a Sluice takes down the links to it. -/
def Obligations.SluiceFindingsIsolate : Prop :=
  ∀ (l : Lane) (also : List IsoCause) (s : State),
    (watched (lst s l) = true →
      (∃ t, exec (.watchdog ⟨l, also⟩ none) s = .next t ∧ LaneOut s l (firstCause .watchdog also) t) ∧
      (∀ d : Int, 1000 < d ∨ d < -1000 →
        ∃ t, exec (.watchdog ⟨l, also⟩ (some d)) s = .next t ∧ LaneOut s l (firstCause .watchdog also) t) ∧
      (∀ d : Int, -1000 ≤ d → d ≤ 1000 → ∃ t, exec (.watchdog ⟨l, also⟩ (some d)) s = .next t ∧ changesOnly [.sluices] s t ∧
        (t.sluices.get l).tickDev = BitVec.ofInt 16 d) ∧
      (∀ ms, ∃ t, exec (.linkTimeout ⟨l, ms, also⟩) s = .next t ∧ LaneOut s l (firstCause .link also) t ∧
        ∀ m, laneBit ms m = true → (t.sluices.get m).linkTimedOut.getLsbD l.idx = true ∧ (t.sluices.get m).linkUp.getLsbD l.idx = false)) ∧
    (computes s l = true → (lane s l).link.image.isSome = true → (lane s l).overran = false →
      ∀ m x, ((lane s l).link.rx.get m).image = some x →
      (s.mod.result = none → ∃ t, exec (.checkBlock ⟨l, m⟩ (some (imageCheck x ((lane s l).link.rx.get m).codes))) s = .next t ∧
        ((lane t l).link.rx.get m).complete = true ∧ ((lane t l).link.rx.get m).checkOk = true ∧ changesOnly [.link] s t) ∧
      (∀ b, b ≠ some (imageCheck x ((lane s l).link.rx.get m).codes) → ∃ t, exec (.checkBlock ⟨l, m⟩ b) s = .next t ∧ LaneOut s l .link t ∧
        (∀ k, ((lane t l).link.rx.get k).complete = false) ∧ t.cellar.life.linkErr.get m = satInc (s.cellar.life.linkErr.get m) ∧
        ∀ k, k ≠ m → t.cellar.life.linkErr.get k = s.cellar.life.linkErr.get k)) ∧
    (computes s l = true → s.mod.phase = .vote → s.mod.noVintage = false →
      (s.mod.result = none ∨ (lst s l = .reintegrating ∧ (lane s l).link.compared = false)) →
      ∃ t, exec (.overrun ⟨l, also⟩) s = .next t ∧
      LaneOut s l (firstCause .overrun also) t ∧ (lane t l).overran = true ∧ (lane t l).press.halted = true ∧ (lane t l).link.image = none ∧
      (t.cellar.life.lanes.get l).overrunTotal = satInc (s.cellar.life.lanes.get l).overrunTotal) ∧
    (∀ c, ∃ t, exec (.resetLine l (.laneDie c)) s = .next t ∧ (watched (lst s l) = true → LaneOut s l (c.getD .link) t) ∧
      (watched (lst s l) = false → changesOnly [.link, .sluices] s t) ∧ (lane t l).xfer = none ∧
      (∀ m, (t.sluices.get m).linkUp.getLsbD l.idx = false ∧ (t.sluices.get m).linkReset.getLsbD l.idx = true) ∧
      (s.mod.result = none → ∀ m, ((lane t l).link.rx.get m).image = none)) ∧
    (∃ t, exec (.resetLine l .sluiceDie) s = .next t ∧ changesOnly [.link, .sluices] s t ∧ (t.sluices.get l).linkUp = 0 ∧
      (lane t l).xfer = none ∧ (s.mod.result = none → ∀ k, ((lane t k).link.rx.get l).image = none))

/-- R175, R176: a latch found set without a cause while three lanes serve and no other latch is set is a lone latch, which isolates its lane
with cause VOTE_DISSENT until restart; a second latch, or the latch of a serving lane in a pair, puts the module into SAFE. -/
def Obligations.LatchRule : Prop :=
  ∀ (l : Lane) (s : State), operating s.mod.st = true →
    (servingLanes s = [.A, .B, .C] → (∀ m, m ≠ l → (s.sluices.get m).latch = false) →
      ∃ t, exec (.uncaused l) s = .next t ∧ (t.sluices.get l).latch = true ∧ (t.sluices.get l).lone = true ∧
        (lane t l).life.loneHeld = true ∧ (lane t l).life.cause = .voteDissent ∧
        (lst t l = .isolated ∨ lst t l = .retired) ∧ (∀ m, m ≠ l → lst t m = lst s m) ∧
        ∀ m, m ≠ l → t.cellar.life.dissent.get m = satInc (s.cellar.life.dissent.get m)) ∧
    ((∃ m, m ≠ l ∧ (s.sluices.get m).latch = true) → ∃ t, exec (.uncaused l) s = .next t ∧ t.mod.st = .safe ∧
      ∀ m, (t.sluices.get m).latch = true) ∧
    ((servingLanes s).length = 2 → lst s l = .serving → ∃ t, exec (.uncaused l) s = .next t ∧ t.mod.st = .safe ∧
      ∀ m, (t.sluices.get m).latch = true)

/-- R181 to R183, R479: the test of a Sluice's switches opens both poles of the energised outputs that no other test holds; a switch that
reads closed then retires its output, and the others close again unless the latch is set; the close test of the start-up tests judges
its Sluice by the 32 switches that read closed and then open, and isolates the lane where none closed. -/
def Obligations.LaneSwitchTests : Prop :=
  ∀ (l : Lane) (s : State),
    (s.mod.st = .svc3 → s.mod.phase = .input → switchTestCycle s l = true → (s.sluices.get l).testRunning = false →
      ∃ t, exec (.laneSwitchTest l) s = .next t ∧ changesOnly [.sluices] s t ∧
        (t.sluices.get l).testRunning = true ∧ (∀ m, m ≠ l → t.sluices.get m = s.sluices.get m) ∧
        ∀ i, i < 32 → (t.sluices.get l).now.getLsbD i = ((s.sluices.get l).now.getLsbD i && outputTested s (i % 16)) ∧
          (t.sluices.get l).testMask.getLsbD i = ((s.sluices.get l).now.getLsbD i && !outputTested s (i % 16))) ∧
    (∀ r : Word, (s.sluices.get l).testRunning = true →
      ∃ t, exec (.switchTestReadback l r) s = .next t ∧ (t.sluices.get l).testRunning = false ∧
        (t.sluices.get l).testMask = 0 ∧ ((s.sluices.get l).latch = false →
          (t.sluices.get l).now = (s.sluices.get l).now ||| (s.sluices.get l).testMask) ∧
        ((s.sluices.get l).latch = true → (t.sluices.get l).now = (s.sluices.get l).now) ∧
        ∀ n, n < 16 → (outRec t n).retired = ((outRec s n).retired ||
          ((s.sluices.get l).testMask &&& r).getLsbD n || ((s.sluices.get l).testMask &&& r).getLsbD (16 + n))) ∧
    (∀ c o : Word, closeTestDue s l = true →
      ∃ t, exec (.laneSwitchCloseTest l c o) s = .next t ∧ (t.sluices.get l).closeDone = true ∧
        ((t.sluices.get l).closeOk = true ↔ c = 0xFFFFFFFF ∧ o = 0xFFFFFFFF) ∧
        (c ≠ 0 → lst t l = lst s l) ∧ (c = 0 → (lst t l = .isolated ∨ lst t l = .retired) ∧ (lane t l).life.cause = .self) ∧
        ∀ n, n < 16 → (outRec t n).retired = ((outRec s n).retired || !o.getLsbD n || !o.getLsbD (16 + n)))

/-! ### Registers that a read clears, check units, self-test, Cellar flush (R76, R114, R160, R299, R389 to R423, R457 to R471) -/

/-- R76, R114, R160, R299, R397, R423: a read of a peak register returns the peak and clears it; where the lane gives no answer the read
returns all ones and clears nothing; so does a read through another port that times out; a read that is not aligned answers 0 and is
counted. -/
def Obligations.ReadsClearPeaks : Prop :=
  (∀ (a : RegAccess) (s : State), reaches s a = true →
    (∃ u v, exec (.prsStackPeak a) s = .next (answer u v) ∧ changesOnly [.press] s u ∧
      ∀ i : Fin 4, field v (8 * i.val + 4) (8 * i.val) = (strandOf (lane s a.lane).press.strands i).peak.toNat ∧
        strandOf (lane u a.lane).press.strands i = { strandOf (lane s a.lane).press.strands i with peak := 0 }) ∧
    (∃ u v, exec (.laneLogicPeak a) s = .next (answer u v) ∧ changesOnly [.times] s u ∧ (lane u a.lane).logicPeak = 0 ∧
      v.toNat = (lane s a.lane).logicPeak % 2 ^ 18) ∧
    (∃ u v, exec (.laneRaaPeak a) s = .next (answer u v) ∧ changesOnly [.times] s u ∧ (lane u a.lane).raaPeak = 0 ∧
      v.toNat = (lane s a.lane).raaPeak % 2 ^ 18) ∧
    (∃ u v, exec (.raaHoldoverPeak a) s = .next (answer u v) ∧ changesOnly [.raa] s u ∧ (lane u a.lane).raa.holdoverPeak = 0 ∧
      v.toNat = (lane s a.lane).raa.holdoverPeak % 2 ^ 32) ∧
    (∃ u v, exec (.chkLoadPeak a) s = .next (answer u v) ∧ changesOnly [.chk, .free] s u ∧ (lane u a.lane).chk.loadPeak = 0 ∧
      (lane s a.lane).chk.loadPeak.toNat ≤ v.toNat ∧ v.toNat ≤ max (lane s a.lane).chk.loadPeak.toNat 100 ∧
      (s.mod.ticking = false → v.toNat = (lane s a.lane).chk.loadPeak.toNat)) ∧
    (∃ u v, exec (.celStagePeak a) s = .next (answer u v) ∧ changesOnly [.staging] s u ∧ (lane u a.lane).cel.peak = 0 ∧
      v = (lane s a.lane).cel.peak)) ∧
  (∀ (a : RegAccess) (s : State), reaches s a = false →
    ∀ c, (c = .prsStackPeak a ∨ c = .laneLogicPeak a ∨ c = .laneRaaPeak a ∨ c = .raaHoldoverPeak a ∨ c = .chkLoadPeak a ∨
      c = .celStagePeak a) → exec c s = .next (answer s 0xFFFFFFFF)) ∧
  ∀ (p : Port) (l : Lane) (s : State),
    exec (.peerAccessTimeout p l false) s = .next (answer s 0xFFFFFFFF) ∧ exec (.peerAccessTimeout p l true) s = .next s ∧
    ∃ u, exec (.unalignedAccess p l false) s = .next (answer u 0) ∧ exec (.unalignedAccess p l true) s = .next u ∧
      changesOnly [.ports] s u ∧ (u.ports.get p).accessErr = satInc (s.ports.get p).accessErr

/-- R392 to R395, R398: the writes to a user context: INIT, CLOSE with its compare, RUN by halves, and CTRL, which while the context is
busy only ends it; the lane's other contexts stay. -/
def Obligations.UserContexts : Prop :=
  ∀ (a : RegAccess) (u : Fin 64) (s : State), reaches s a = true →
    let c := userCtx (lane s a.lane) u.val
    let keeps := fun (ps : List Part) (t : State) => changesOnly ps s t ∧ (∀ m, m ≠ a.lane → lane t m = lane s m) ∧
      ∀ k, k ≠ u.val → userCtx (lane t a.lane) k = userCtx (lane s a.lane) k
    let r := crcOut (ctxParams c) c.run.toNat % 2 ^ 64
    let differs := c.ctrl.getLsbD 9 = true ∧ c.status.getLsbD 4 = false ∧
      r % 2 ^ (ctxParams c).width ≠ c.expect.toNat % 2 ^ (ctxParams c).width
    (∃ t y, exec (.chkInit a u) s = .next t ∧ keeps [.chk] t ∧ userCtx (lane t a.lane) u.val = { c with run := c.init, bytes := 0, status := y } ∧
      y.getLsbD 1 = false ∧ y.getLsbD 4 = false ∧ ∀ i, i ≠ 1 → i ≠ 4 → y.getLsbD i = c.status.getLsbD i) ∧
    (∃ t y, exec (.chkClose a u false) s = .next t ∧ keeps [.chk, .eic, .ports] t ∧
      userCtx (lane t a.lane) u.val = { c with result := BitVec.ofNat 64 r, status := y } ∧ y.getLsbD 1 = true ∧
      (differs → y.getLsbD 2 = true ∧ (y >>> 16).setWidth 16 = satInc ((c.status >>> 16).setWidth 16)) ∧
      (¬ differs → y.getLsbD 2 = c.status.getLsbD 2 ∧ (y >>> 16).setWidth 16 = (c.status >>> 16).setWidth 16)) ∧
    (∃ t, exec (.chkClose a u true) s = .next t ∧ keeps [.chk, .eic, .ports] t ∧
      (userCtx (lane t a.lane) u.val).result = BitVec.ofNat 64 r ∧ (userCtx (lane t a.lane) u.val).run = c.init ∧
      (userCtx (lane t a.lane) u.val).bytes = 0) ∧
    (∀ (high : Bool) (v : Word), ∃ t x, exec (.chkURun a u high v) s = .next t ∧ keeps [.chk] t ∧
      userCtx (lane t a.lane) u.val = { c with run := x } ∧
      (high = true → x.toNat / 2 ^ 32 = v.toNat ∧ x.toNat % 2 ^ 32 = c.run.toNat % 2 ^ 32) ∧
      (high = false → x.toNat % 2 ^ 32 = v.toNat ∧ x.toNat / 2 ^ 32 = c.run.toNat / 2 ^ 32)) ∧
    (∀ v : Word, ∃ t, exec (.chkUCtrl a u v) s = .next t ∧ keeps [.chk] t ∧
      (ctxBusy a.lane (lane s a.lane) c = true → v.getLsbD 0 = true → userCtx (lane t a.lane) u.val = c) ∧
      (ctxBusy a.lane (lane s a.lane) c = true → v.getLsbD 0 = false →
        (userCtx (lane t a.lane) u.val).ctrl.getLsbD 0 = false ∧ (userCtx (lane t a.lane) u.val).status.getLsbD 4 = true) ∧
      (ctxBusy a.lane (lane s a.lane) c = false → ∃ x y, userCtx (lane t a.lane) u.val = { c with ctrl := x, status := y } ∧
        (∀ i, 0 < i → x.getLsbD i = (v &&& ctrlMask).getLsbD i) ∧ (∀ i, i ≠ 3 → y.getLsbD i = c.status.getLsbD i) ∧
        y.getLsbD 3 = ctxBad { c with ctrl := v &&& ctrlMask } ∧
        x.getLsbD 0 = (v.getLsbD 0 && !ctxBad { c with ctrl := v &&& ctrlMask })))

/-- R389, R397: the self-check of the engine, which runs once in the idle phase of every cycle and at no other time, shows which fixed
sets were right and in which cycle; a wrong one, and a mismatch of the network's check, isolate the lane with cause SELF. -/
def Obligations.CheckUnitFaults : Prop :=
  ∀ (l : Lane) (s : State), runs s l = true →
    (selfCheckDue s l = true →
      (∃ t, exec (.engineSelfCheck l none) s = .next t ∧ changesOnly [.chk] s t ∧ (lane t l).chk.kat = 15 ∧
        (lane t l).chk.katCycle = cycle16 s ∧ selfCheckDue t l = false ∧ ∀ m, m ≠ l → lane t m = lane s m) ∧
      (isolatable (lst s l) = true → ∀ b : BitVec 4, b ≠ 0 → ∃ t, exec (.engineSelfCheck l (some b)) s = .next t ∧
        LaneOut s l .self t ∧ (lane t l).chk.kat = ~~~ b ∧ (lane t l).chk.katCycle = cycle16 s)) ∧
    (s.mod.ticking = false ∨ s.mod.phase ≠ .idle ∨ (lane s l).chk.checked = some s.mod.cycle →
      ∀ found, exec (.engineSelfCheck l found) s = .next s) ∧
    (isolatable (lst s l) = true →
      ∃ t, exec (.networkMismatch l) s = .next t ∧ LaneOut s l .self t ∧ (lane t l).chk.netFault = true)

/-- R36, R457, R461 to R468: a BIST becomes due in the cycle that holds the lane's due time, n × D, a third of D later for B and two thirds for
C; a due or requested BIST starts where the module lets it: the lane leaves with the planned cause BIST, which never retires it, and at
the next tick its staging is written out; with every part passed, after its time, it goes on in TEST with its data cleared; a part that
fails while it runs is a counted isolation out of TEST, and where that meets the planned one in its cycle the two are one isolation; a
request that does not start in its input phase is refused. -/
def Obligations.SelfTest : Prop :=
  ∀ (l : Lane) (s : State),
    (∀ v, laneVintage s l = some v → 0 < v.bistInterval →
      let due := fun (n : Nat) => n * (v.bistInterval * hour1) + v.bistInterval * hour1 * l.idx / 3
      ((∃ n, s.mod.tickTime.toNat ≤ due n ∧ due n < s.mod.tickTime.toNat + periodNs s) →
        ∃ t, exec (.bistDue l) s = .next t ∧ changesOnly [.bist] s t ∧ (lane t l).bist.due = true ∧ ∀ m, m ≠ l → lane t m = lane s m) ∧
      ((∀ n, due n < s.mod.tickTime.toNat ∨ s.mod.tickTime.toNat + periodNs s ≤ due n) → exec (.bistDue l) s = .next s)) ∧
    (bistAllowed s = true → s.mod.phase = .input → lst s l = .serving → (othersServing s l).length = 2 →
      let asked := (lane s l).bist.requested.isSome = true ∧ (lane s l).bist.asked = false
      ((lane s l).bist.due = true ∨ asked ∨ (lane s l).bist.overdue = true) → latchesQuiet s →
      ∃ t, exec (.bistStart l) s = .next t ∧ lst t l = .isolated ∧ (lane t l).life.cause = .bist ∧ (lane t l).life.planned = .bist ∧
        (lane t l).bist.phase = 1 ∧ (lane t l).bist.due = false ∧ (lane t l).bist.result = 0 ∧
        (asked → (lane t l).bist.trigger = 1 ∧ (lane s l).bist.requested = some (lane t l).bist.march) ∧
        (¬ asked → (lane t l).bist.trigger = 0) ∧
        (lane t l).bist.startedAt = s.mod.tickTime ∧ t.mod.st = .svc2 ∧ ∀ m, m ≠ l → lst t m = lst s m) ∧
    ((lane s l).bist.phase = 1 → (lane (bistTick s l) l).cel.staging = [] ∧ (lane (bistTick s l) l).bist.asked = false) ∧
    (∀ x : TestRun,
      let b := (lane s l).bist
      let v := testVerdict b x
      let ends := bistEnds b (periodNs s) v
      (ends = true → b.phase ≠ 0 ∧ b.phase ≠ 6 ∧
        (v.2 = .pass → 160000000 ≤ b.runNs + periodNs s ∧ (b.march = true → 2160000000 ≤ b.runNs + periodNs s)) ∧
        (∀ a, v.2 = .dramFail a → b.march = true)) ∧
      (ends = false → exec (.bistEnd l x.result x.repairs) s = .next s) ∧
      (ends = true → v.2 = .pass → ∃ t, exec (.bistEnd l x.result x.repairs) s = .next t ∧ lst t l = .test ∧
        (lane t l).life.testsDone = true ∧ (lane t l).life.planned = .none ∧ (lane t l).bist.phase = 6 ∧
        (lane t l).bist.passes = satInc b.passes ∧ (lane t l).bist.last = 1 ∧ (lane t l).press.data = PressData.reset ∧
        (lane t l).raa.elems = [] ∧ (t.cellar.life.lanes.get l).bistPass = b.startedAt ∧ ∀ m, m ≠ l → lst t m = lst s m) ∧
      (ends = true → v.2 ≠ .pass → ∃ u t, exec (.bistEnd l x.result x.repairs) s = .next t ∧ LaneOut u l (bistCause v.2) t ∧
        lst u l = .test ∧ (∀ m, m ≠ l → lst u m = lst s m) ∧ u.cellar.life.lanes = s.cellar.life.lanes ∧ u.mod = s.mod ∧
        ((lane s l).life.plannedNow = true → (t.cellar.life.lanes.get l).isoTotal = (s.cellar.life.lanes.get l).isoTotal) ∧
        (lane t l).bist.phase = 0 ∧ (lane t l).bist.fails = satInc b.fails ∧ (lane t l).bist.result = bistWord v.2)) ∧
    (runs s l = true → s.mod.tickTime.toNat ≥ (s.cellar.life.lanes.get l).bistPass.toNat + day24 →
      (lane s l).bist.overdueAt = none → ∃ t, exec (.bistOverdue l) s = .next t ∧ (lane t l).bist.overdue = true ∧
        (lane t l).bist.overdueAt = some s.mod.tickTime ∧ changesOnly (.bist :: records) s t) ∧
    (∀ (m : Bool) (a : Auth), (authOk s a = false → exec (.bistRequest l m a) s = .next s) ∧
      (authOk s a = true → bistAllowed s = true → lst s l = .serving → (∀ k, (lane s k).bist.requested = none) →
        ∃ t, exec (.bistRequest l m a) s = .next t ∧ (lane t l).bist.requested = some m ∧ (lane t l).bist.asked = true ∧
          t.cellar.life.nonceLast = a.nonce ∧ changesOnly (records ++ [.bist, .lifetime]) s t) ∧
      (authOk s a = true → bistAllowed s = false ∨ lst s l ≠ .serving ∨ (∃ k, (lane s k).bist.requested.isSome = true) →
        ∃ t, exec (.bistRequest l m a) s = .next t ∧ t.cellar.life.nonceLast = a.nonce ∧
          changesOnly (records ++ [.lifetime]) s t)) ∧
    ∀ k, (lane (dropRequests s) k).bist.requested = if (lane s k).bist.asked then (lane s k).bist.requested else none

/-- R406, R408, R409, R410, R423, R424: a flush whose trigger holds writes out the lane's staging and shows its trigger and cycle; a copy that
verifies only when written again is counted, and a device whose copy fails again is FAILED from then on; the power flush writes without
reading back, and the lane stages no more until the release. -/
def Obligations.FlushWritesOut : Prop :=
  ∀ (l : Lane) (tr : FlushTrigger) (s : State), runs s l = true → flushDueNow s l tr = true →
    (∃ t, exec (.flush l tr .good .good) s = .next t ∧ (lane t l).cel.staging = [] ∧
      (lane t l).cel.lastFlush = pack [(0, triggerCode tr), (16, (cycle16 s).toNat)] ∧
      t.cellar.dev0 = s.cellar.dev0 ∧ t.cellar.dev1 = s.cellar.dev1 ∧ (∀ m, m ≠ l → lane t m = lane s m)) ∧
    (tr = .power → ∀ a b, ∃ t, exec (.flush l tr a b) s = .next t ∧ (lane t l).cel.staging = [] ∧ (lane t l).cel.powerFlush = true ∧
      t.mod.powerFlush = true ∧ t.cellar.dev0 = s.cellar.dev0 ∧ t.cellar.dev1 = s.cellar.dev1) ∧
    (tr ≠ .power → ∀ a b,
      (s.cellar.dev0 ≠ .failed → ∃ t, exec (.flush l tr (.once a) .good) s = .next t ∧ t.cellar.dev0 = s.cellar.dev0 ∧
        t.cellar.dev1 = s.cellar.dev1 ∧ (lane t l).cel.devErr = countDevErr (lane s l).cel.devErr 0 1) ∧
      (∃ t, exec (.flush l tr (.twice a) .good) s = .next t ∧ t.cellar.dev0 = .failed ∧ t.cellar.dev1 = s.cellar.dev1) ∧
      (∃ t, exec (.flush l tr .good (.twice b)) s = .next t ∧ t.cellar.dev0 = s.cellar.dev0 ∧ t.cellar.dev1 = .failed) ∧
      ∃ t, exec (.flush l tr (.twice a) (.twice b)) s = .next t ∧ t.cellar.dev0 = .failed ∧ t.cellar.dev1 = .failed)

/-! ### Route admission (R118 to R152) -/

/-- R125, R127, R133, R137 to R140: an element command at the head of the queue is decided in its slot by the checks of R138 in their
order, with the status of the first check that decides; carried out, it changes the one element as R137 says; refused, it changes no
element. -/
def Obligations.ElementCommands : Prop :=
  ∀ (l : Lane) (s : State) (v : Vintage) (e : QEntry) (rest : List QEntry), Deciding s l v e rest → e.kind = .ecmd →
    let r := { (lane s l).raa with queue := rest }
    let x := elemOf r e.item
    let k := (descOf v e.item).kind
    let sets := fun (f : ElemState → ElemState) (r' : Raa) => ∃ m, r' = { r with elems := m } ∧
      elemOf r' e.item = f x ∧ ∀ n, n ≠ e.item → elemOf r' n = elemOf r n
    let gives := fun (c : Instr) (r' : Raa) (st : Nat) => ∃ t, exec c s = .next t ∧ Reported s l e r' st 0x7F t
    (∀ c target, (c = .callA l ∧ e.cmd = 0 ∧ target = 1) ∨ (c = .callB l ∧ e.cmd = 1 ∧ target = (2 : BitVec 2)) →
      (k = .undefined → gives c r 0x1A) ∧
      (k = .track ∨ k = .signal ∨ k = .virt → gives c r 0x1B) ∧
      (k = .point ∨ k = .gate ∨ k = .transfer →
        (x.valid = false → gives c r 0x15) ∧
        (x.valid = true → x.commanded = target → gives c r 0x05) ∧
        (x.valid = true → x.commanded ≠ target →
          (x.pathHeld = true ∨ x.overlapHeld = true ∨ (x.flankCount ≠ 0 ∧ x.flankPos ≠ target) → gives c r 0x18) ∧
          (x.pathHeld = false → x.overlapHeld = false → (x.flankCount = 0 ∨ x.flankPos = target) →
            (x.blocked = true → gives c r 0x14) ∧
            (x.blocked = false → guardBars r (descOf v e.item) = true → gives c r 0x13) ∧
            (x.blocked = false → guardBars r (descOf v e.item) = false →
              ∃ r', gives c r' 0x05 ∧ sets (fun y => { y with commanded := target, changeTime := s.mod.tickTime, moveFault := false }) r'))))) ∧
    (∀ c on, (c = .blockElem l ∧ e.cmd = 2 ∧ on = true) ∨ (c = .unblockElem l ∧ e.cmd = 3 ∧ on = false) →
      (k = .undefined → gives c r 0x1A) ∧ (k = .virt → gives c r 0x1B) ∧
      (k ≠ .undefined → k ≠ .virt → ∃ r', gives c r' 0x05 ∧ sets (fun y => { y with blocked := on }) r')) ∧
    (∀ c on, (c = .virtualSet l ∧ e.cmd = 4 ∧ on = true) ∨ (c = .virtualClear l ∧ e.cmd = 5 ∧ on = false) →
      (k = .undefined → gives c r 0x1A) ∧ (k ≠ .undefined → k ≠ .virt → gives c r 0x1B) ∧
      (k = .virt → ∃ r', gives c r' 0x05 ∧ sets (fun y => { y with virt := on }) r')) ∧
    (e.cmd = 6 →
      (k = .undefined → gives (.resetFault l) r 0x1A) ∧ (k = .track ∨ k = .signal ∨ k = .virt → gives (.resetFault l) r 0x1B) ∧
      (k = .point ∨ k = .gate ∨ k = .transfer →
        (x.detected ≠ x.commanded → gives (.resetFault l) r 0x15) ∧
        (x.detected = x.commanded → ∃ r', gives (.resetFault l) r' 0x05 ∧ sets (fun y => { y with moveFault := false }) r')))

/-- R126, R128, R134, R136, R140, R149: a route request or cancel at the head of the queue is decided in its slot: each refusal changes no
lock and no element; a request admitted by its start signal and every term is held, LOCKED where every proof holds with DETECTED and
SETTING where not; a cancel releases at once where R136 lets it, and else starts the timed cancel with the tick time. The re-proofs
that start before the end of the slot come first (R141, R143) and the decision finds what they left; a cancel ends the proof of its
route that would start later. -/
def Obligations.RouteDecisions : Prop :=
  ∀ (l : Lane) (s : State) (v : Vintage) (e : QEntry) (rest : List QEntry), Deciding s l v e rest →
    let u := proveBefore v s l
    let r := { (lane u l).raa with queue := rest }
    let n := e.item
    ((∀ p ∈ (lane s l).raa.toProve, 60 * p.2 ≥ 2000 * ((lane s l).raa.decided + 1)) → u = s) ∧
    (e.kind = .rreq →
      let gives := fun (r' : Raa) (st term : Nat) => ∃ t, exec (.rreqDecision l) s = .next t ∧ Reported u l e r' st term t
      (routeOf v n = none → gives r 0x1A 0x7F) ∧
      (∀ x, routeOf v n = some x →
        (held r n = true → gives r 0x06 0x7F) ∧
        (held r n = false →
          (heldCount r ≥ lockedMax v → gives r 0x19 0x7F) ∧
          (heldCount r < lockedMax v →
            (∀ st, admitStart r x = some st → gives r st 0x7E) ∧
            (admitStart r x = none →
              (∀ i st, x.terms[i]?.bind (admitTerm v r (x.terms.take i)) = some st →
                (∀ j, j < i → x.terms[j]?.bind (admitTerm v r (x.terms.take j)) = none) →
                gives r st i) ∧
              ((∀ j, j < x.terms.length → x.terms[j]?.bind (admitTerm v r (x.terms.take j)) = none) →
                let r1 := putLock (x.terms.foldl (lockTerm v n s.mod.tickTime) (lockStart n r x)) n { Lock.none with time := s.mod.tickTime }
                let ok := (firstFail v r1 n x Lock.none false).isNone
                ∃ r', gives r' (if ok then 0x01 else 0x02) 0x7F ∧ r'.elems = r1.elems ∧ held r' n = true ∧
                  (∀ m, m ≠ n → held r' m = held r m ∧ lockOf r' m = lockOf r m) ∧ (lockOf r' n).locked = ok ∧
                  (lockOf r' n).setting = !ok ∧ (lockOf r' n).time = s.mod.tickTime ∧ (lockOf r' n).released = 0 ∧
                  (lockOf r' n).cancel = none)))))) ∧
    (e.kind = .rcan →
      let gives := fun (r' : Raa) (st : Nat) => ∃ t, exec (.rcanDecision l) s = .next t ∧ Reported u l e r' st 0x7F t
      (routeOf v n = none → gives r 0x1A) ∧
      (∀ x, routeOf v n = some x →
        (held r n = false → gives r 0x07) ∧
        (held r n = true →
          ((lockOf r n).cancel.isSome = true → ∃ r', gives r' 0x04 ∧ r'.elems = r.elems ∧ n ∉ r'.toProve.map (fun p => p.1) ∧ (∀ m, m ≠ n → lockOf r' m = lockOf r m) ∧
            lockOf r' n = { lockOf r n with entered := (lockOf r n).entered || enteredNow r x (lockOf r n) }) ∧
          ((lockOf r n).cancel = none → cancelAtOnce r x (lockOf r n) = true →
            ∃ r', gives r' 0x03 ∧ r'.elems = (releaseGroups r n x allGroups).elems ∧ r'.locks = (releaseGroups r n x allGroups).locks ∧
              n ∉ r'.releases.map (fun p => p.1) ∧ n ∉ r'.toProve.map (fun p => p.1)) ∧
          ((lockOf r n).cancel = none → cancelAtOnce r x (lockOf r n) = false →
            ∃ r', gives r' 0x04 ∧ r'.elems = r.elems ∧ n ∉ r'.toProve.map (fun p => p.1) ∧ (∀ m, m ≠ n → lockOf r' m = lockOf r m) ∧ held r' n = true ∧
              lockOf r' n = { lockOf r n with
                cancel := some s.mod.tickTime, locked := false, entered := (lockOf r n).entered || enteredNow r x (lockOf r n) }))))

/-- R124, R135, R141 to R143, R147 to R149: the pass proves the routes still to be proven, up to the end of the next decision slot where
one is to come, and changes no element: a failed proof sets PROOF_FAILED and takes LOCKED, and a route leaves SETTING once every proof
holds with DETECTED. A release found by the overlap timer or by a
timed cancel is kept for the end of the RAA work; a SETTING that has outlasted its time and an element that has missed its move time
are marked. -/
def Obligations.ReProofPass : Prop :=
  ∀ (l : Lane) (s : State) (v : Vintage), laneVintage s l = some v → raaWorks s l = true →
    let r := (lane s l).raa
    let due := skeys (if r.decided < reqMax v ∧ r.queue ≠ [] then dueProofs r else r.toProve)
    let keeps := fun (t : State) => changesOnly (records ++ [.raa, .lifetime]) s t
    (∃ t, exec (.reProof l) s = .next t ∧ keeps t ∧ (lane t l).raa.elems = r.elems ∧ (∀ n, held (lane t l).raa n = held r n) ∧
      (∀ n, n ∉ due ∨ held r n = false ∨ routeOf v n = none → lockOf (lane t l).raa n = lockOf r n) ∧
      (∀ n, n ∈ skeys (lane t l).raa.toProve ↔ n ∈ skeys r.toProve ∧ n ∉ due) ∧
      ∀ n x, n ∈ due → held r n = true → routeOf v n = some x →
        let k := lockOf r n
        let k' := lockOf (lane t l).raa n
        (k'.proofFailed = true ↔ k.proofFailed = true ∨ (firstFail v r n x k k.setting).isSome = true) ∧
        (k'.setting = true ↔ k.setting = true ∧ (firstFail v r n x k false).isSome = true) ∧
        (k'.locked = true → k'.proofFailed = false ∧ k'.setting = false ∧ k'.entered = false ∧ k.cancel = none ∧
          firstFail v r n x k false = none) ∧
        (k'.entered = true ↔ k.entered = true ∨ enteredNow r x k = true) ∧ k'.cancel = k.cancel ∧ k'.released = k.released) ∧
    (∀ (q : BitVec 14) (x : RouteRec), routeOf v q.toNat = some x → held r q.toNat = true →
      (overlapReady r x (lockOf r q.toNat) = true → overlapDue x s.mod.tickTime (lockOf r q.toNat) = true →
        ∃ t, exec (.overlapRelease l q) s = .next t ∧ changesOnly [.raa] s t ∧
          (lane t l).raa = { r with releases := r.releases ++ [(q.toNat, overlapMask x)] }) ∧
      (cancelDue r x s.mod.tickTime (lockOf r q.toNat) = true →
        ∃ t, exec (.cancelRelease l q) s = .next t ∧ changesOnly [.raa] s t ∧
          (lane t l).raa = { r with releases := r.releases ++ [(q.toNat, allGroups)] }) ∧
      ((lockOf r q.toNat).setting = true → (lockOf r q.toNat).setTimeout = false → x.settingTime ≠ 0 →
        s.mod.tickTime.toNat ≥ (lockOf r q.toNat).time.toNat + x.settingTime.toNat * 100000000 →
        ∃ t, exec (.setTimeout l q) s = .next t ∧ keeps t ∧ (lane t l).raa.elems = r.elems ∧
          lockOf (lane t l).raa q.toNat = { lockOf r q.toNat with setTimeout := true } ∧
          ∀ m, m ≠ q.toNat → lockOf (lane t l).raa m = lockOf r m)) ∧
    ∀ e : BitVec 16, (elemOf r e.toNat).seen = true → (elemOf r e.toNat).moveFault = false →
      moveLate (descOf v e.toNat) s.mod.tickTime (elemOf r e.toNat) = true →
      ∃ t, exec (.moveFault l e) s = .next t ∧ keeps t ∧ (lane t l).raa.locks = r.locks ∧
        elemOf (lane t l).raa e.toNat = { elemOf r e.toNat with moveFault := true, moving := false } ∧
        ∀ n, n ≠ e.toNat → elemOf (lane t l).raa n = elemOf r n

/-! ### The Alusk field bus (R184 to R249) -/

/-- R184, R185, R202, R204, R207, R208, R209, R224, R226, R228 to R231, R516, R521: the states of the node: SILENT and LISTEN, the cold start
and its collision, the first tick, the SYNC that a node takes its offset from, the way to IN_SYNC, the loss of sync, corrupt frames, the
guardian; what node 1 forwards, unless it ends a line; and what a slot sends: a backup SYNC with one content on both media, DOWN and to
node 0, a coded frame in a station's slot with the content of the Sluice that the medium takes it from. -/
def Obligations.BusNode : Prop :=
  ∀ s : State,
    (s.alk.node = .silent → ∃ t, exec .silentTimeout s = .next t ∧ changesOnly [.alk] s t ∧ t.alk.node = .listen) ∧
    (∀ now, s.alk.node = .listen →
      (1 < (ownNode s).toNat ∨ s.alk.heardCold = true → exec (.listenTimeout now) s = .next s) ∧
      ((ownNode s).toNat ≤ 1 → s.alk.heardCold = false → ∃ t, exec (.listenTimeout now) s = .next t ∧ changesOnly [.alk] s t ∧
        t.alk.node = .coldStart ∧ t.alk.coldStarts = satInc s.alk.coldStarts ∧
        t.alk.t0.toNat = min ((now.toNat + 2 * periodNs s + 999) / 1000 * 1000) (2 ^ 64 - 1))) ∧
    (s.alk.node = .coldStart → ∃ t, exec .coldStartT0 s = .next t ∧ t.alk.node = .inSync ∧ t.alk.firstNode = ownNode s ∧
      t.mod.cycle = 0 ∧ t.mod.tickTime = s.alk.t0 ∧ t.mod.ticking = true ∧ t.mod.st = s.mod.st) ∧
    ((s.alk.node = .inSync ∧ (s.alk.outRun ≥ 3 ∨ s.alk.missRun ≥ 3 ∨ s.alk.blockRun + (if s.alk.blockNow then 1 else 0) ≥ 3)) →
      ∃ t, exec .leftSync s = .next t ∧ t.alk.node = .listen ∧ t.alk.firstNode = 0x3FF ∧ changesOnly (records ++ [.alk, .free]) s t) ∧
    (∀ g m, mediumSends s g m = true → s.alk.node ≠ .down → ∃ t, exec (.corruptFrame g m) s = .next t ∧
      changesOnly [.alk, .lifetime] s t ∧ sget 0 t.cellar.life.fcs (mediumIx g m) = satInc (sget 0 s.cellar.life.fcs (mediumIx g m)) ∧
      (t.alk.node = .silent ↔ s.alk.node = .listen ∨ s.alk.node = .coldStart ∨ s.alk.node = .silent) ∧
      (s.alk.node ≠ .listen → s.alk.node ≠ .coldStart → t.alk = s.alk)) ∧
    (∀ x : RxFrame, txDis s x.seg x.medium = false → s.alk.node ≠ .down → fromNode x.frame ≠ ownNode s →
      let u := fun (k : Nat) => portSees s x k
      (∀ k, changesOnly [.alk] s (u k) ∧ (u k).alk.node = s.alk.node ∧ (ownNode s ≠ 1 → (u k).alk.tx = s.alk.tx) ∧
        (ownNode s = 1 → endsLine s x.seg = true → (u k).alk.tx = s.alk.tx) ∧
        (ownNode s = 1 → endsLine s x.seg = false → ∃ f, (u k).alk.tx = s.alk.tx ++ [f] ∧ f.frame = x.frame ∧ f.seg = x.seg ∧
          f.medium = x.medium ∧ f.side = x.side ∧
          (f.up = true ↔ x.frame.type = 0x11 ∨ (x.frame.type = 0x12 ∧ 1 < (fromNode x.frame).toNat))) ∧
        ((u k).alk.spoiled = true ↔ s.alk.spoiled = true ∨ (partnerOut s x.frame = false ∧ inOwnSlot s x = true))) ∧
      (fcsGood x.frame = false → ∃ t, exec (.sync x) s = .next t ∧ exec (.coldStart x) s = .next t ∧ changesOnly [.alk, .lifetime] s t ∧
        sget 0 t.cellar.life.fcs (mediumIx x.seg x.medium) = satInc (sget 0 s.cellar.life.fcs (mediumIx x.seg x.medium)) ∧
        (t.alk.node = .silent ↔ s.alk.node = .listen ∨ s.alk.node = .coldStart ∨ s.alk.node = .silent)) ∧
      (fcsGood x.frame = true → mediumUsed s x.seg x.medium = true → x.frame.type = 0x02 →
        (s.alk.node = .coldStart → ∃ t, exec (.coldStart x) s = .next t ∧ changesOnly [.alk] s t ∧ t.alk.node = .silent ∧
          t.alk.silences = satInc s.alk.silences) ∧
        (s.alk.node = .listen → exec (.coldStart x) s = .next { u 578 with alk := { (u 578).alk with heardCold := true } }) ∧
        (s.alk.node ≠ .coldStart → s.alk.node ≠ .listen → exec (.coldStart x) s = .next (u 578))) ∧
      (fcsGood x.frame = true → mediumUsed s x.seg x.medium = true → x.frame.type = 0x01 → syncSource s x = true →
        let e := syncDev s x
        (s.alk.node = .listen → ∃ t, exec (.sync x) s = .next t ∧ t.mod.tickTime = x.frame.time ∧ t.mod.ticking = true ∧
          cycle16 t = x.frame.cycle ∧ t.alk.segNow.getLsbD x.seg.val = true) ∧
        ((s.alk.node = .measure ∨ s.alk.node = .align ∨ (s.alk.node = .inSync ∧ ownNode s ≠ 0)) →
          -250 ≤ e → e ≤ 250 → x.frame.time = s.mod.tickTime → x.frame.cycle = cycle16 s → s.alk.segNow = 0 →
          ∃ t, exec (.sync x) s = .next t ∧ changesOnly [.alk, .eic, .ports] s t ∧ t.alk.offset = BitVec.ofInt 16 e ∧
            t.alk.backupNow = (s.alk.backupNow || decide (fromNode x.frame = 1)) ∧
            (t.alk.warn = true ↔ 50 < e ∨ e < -50) ∧ t.alk.warnings = (if 50 < e ∨ e < -50 then satInc s.alk.warnings else s.alk.warnings) ∧
            t.alk.missRun = 0 ∧ t.alk.outRun = (if 150 < e ∨ e < -150 then min 3 (s.alk.outRun + 1) else 0) ∧
            (∀ i, i < 4 → t.alk.segNow.getLsbD i = decide (i = x.seg.val)) ∧
            (s.alk.node = .inSync → t.alk.node = .inSync ∧ t.alk.firstNode = fromNode x.frame) ∧
            (s.alk.node = .align → (t.alk.node = .inSync ↔ s.alk.goodSync = true ∧ (u 577).alk.spoiled = false ∧ -50 ≤ e ∧ e ≤ 50 ∧
              payNat x.frame 4 4 = (timingCheck s).toNat))) ∧
        ((s.alk.node = .measure ∨ s.alk.node = .align ∨ s.alk.node = .inSync) → e < -250 ∨ 250 < e →
          ∃ t, exec (.sync x) s = .next t ∧ t.alk = (u 577).alk ∧ t.cellar.life.timingTotal = satInc s.cellar.life.timingTotal))) ∧
    (∀ (g : Fin 4) (e : Int), ownNode s = 1 → s.alk.node = .inSync → s.mod.phase = .input → s.alk.segNow.getLsbD g.val = false →
      ownSyncSent s g = false →
      let one := fun (m : Medium) (sd : Side) (up : Bool) =>
        ({ seg := g, medium := m, side := sd, up := up, sent := startsAt s g m up 2000 e sd
           frame := sealFrame (syncFrame s g.val) 0 sd m 0 0 } : TxFrame)
      let both := fun (m : Medium) => (sidesOf s g.val).map (fun sd => one m sd false) ++ (sidesOf s g.val).map (fun sd => one m sd true)
      (-200 ≤ e → e ≤ 200 → txDis s g .X = false → txDis s g .Y = false →
        ∃ t, exec (.backupSync ⟨g, e⟩) s = .next t ∧ changesOnly [.alk, .eic, .ports] s t ∧ t.alk.backupNow = true ∧
          t.alk.tx = s.alk.tx ++ both .X ++ both .Y ∧ (s.alk.segNow = 0 → t.alk.firstNode = 1)) ∧
      (e < -200 ∨ 200 < e →
        exec (.backupSync ⟨g, e⟩) s = .next { s with alk := { s.alk with blockNow := true, spoiled := true } })) ∧
    (∀ (i : Fin 512) (m : Medium) (x : Image) (c : StationCfg) (w : SlotEntry) (e : Int), s.alk.node = .inSync → s.mod.phase = .output →
      sendsStations s = true → cycleImage s = some x → stationCfg s i.val = some c → slotEntry s c.segment .stationOut i.val = some w →
      txDis s c.segment m = false →
      (-200 ≤ e → e ≤ 200 → ∃ t, exec (.composeFrame (.station i) m e) s = .next t ∧ changesOnly [.alk] s t ∧
        (∀ a b r, usableLanes s = a :: b :: r → ∀ y, sluiceImage s (match m with | .X => a | .Y => b) = some y →
          let z := stationFrame s y i.val c
          let code := fun (l : Lane) => sget 0 (givenCodes s l).stations i.val
          let fs := (sidesOf s c.segment.val).map (fun sd =>
            ({ seg := c.segment, medium := m, side := sd, up := false, sent := startsAt s c.segment m false (w.start * 1000) e sd
               frame := sealFrame z (a.num + 4 * b.num) sd m (code a) (code b) } : TxFrame))
          (e + (8 * (z.payload.length + 56) : Nat) + 250 ≤ (w.length * 1000 : Nat) → t.alk.tx = s.alk.tx ++ fs) ∧
          ((w.length * 1000 : Nat) < e + (8 * (z.payload.length + 56) : Nat) + 250 → t.alk.tx = s.alk.tx)) ∧
        ((usableLanes s).length < 2 → t.alk.tx = s.alk.tx)) ∧
      (e < -200 ∨ 200 < e →
        exec (.composeFrame (.station i) m e) s = .next { s with alk := { s.alk with blockNow := true, spoiled := true } }))

/-- R88, R224, R235 to R242, R332, R385, R520: a station's frame that passes every check in its order gives its points and becomes the reference, with
the miss count cleared, and one that fails a check is counted and changes nothing else of its session; an OPEN frame opens a dropped
session; the miss beyond the tolerance drops the session, whose points go to their safe values; a peer that has been silent for
PEER_TIMEOUT is dropped; a peer's frame with the codes of either module of its pair is accepted, and becomes the reference only then; a
retired session is cleared by an authorised request alone. Outside ADMITTED a session gives its safe values to the input image that
closes, and a frame that the port dies discard is judged by no lane. -/
def Obligations.SessionSteps : Prop :=
  ∀ (l : Lane) (s : State), computes s l = true →
    let alone := fun (i : Nat) (t : State) => ∀ j, j ≠ i → sessOf (lane t l) j = sessOf (lane s l) j
    let only := fun (i : Nat) (t : State) => changesOnly [.alk, .sessions] s t ∧ alone i t
    (∀ (st : Fin 512) (q : Fin 64) (rx : RxFrame), portDrops s rx.frame = true →
      (∃ t, exec (.stationIn l st rx) s = .next t ∧ changesOnly [.alk] s t ∧ t.alk.heard = s.alk.heard ∧ t.alk.spoiled = s.alk.spoiled) ∧
      ∃ t, exec (.peer l q rx) s = .next t ∧ changesOnly [.alk] s t ∧ t.alk.heard = s.alk.heard ∧ t.alk.spoiled = s.alk.spoiled) ∧
    (∀ (st : Fin 512) (c : StationCfg) (rx : RxFrame), stationCfg s st.val = some c → portDrops s rx.frame = false →
      let i := st.val
      let x := sessOf (lane s l) i
      let f := rx.frame
      mediumUsed s rx.seg rx.medium = true → x.got = false → x.opened = false → fcsGood f = true → f.type = 0x11 →
      f.source = BitVec.ofNat 16 (c.node.toNat + 1024 * c.segment.val) → f.dest.getLsbD 10 = true → f.payload.length = stationLen c.points →
      ∀ d, sessionDev s rx .stationIn i = some d →
      ((d < -250 ∨ 250 < d) → x.st ≠ .notConfigured → ∃ t, exec (.stationIn l st rx) s = .next t ∧
        sessOf (lane t l) i = { x with timing := satInc x.timing } ∧ alone i t) ∧
      (-250 ≤ d → d ≤ 250 → f.cycle = cycle16 s → f.time = s.mod.tickTime → s.mod.phase = .input →
        (stationCodesOk c.sid f = false → x.st ≠ .notConfigured → ∃ t, exec (.stationIn l st rx) s = .next t ∧ only i t ∧
          sessOf (lane t l) i = { x with codeErr := satInc x.codeErr }) ∧
        (stationCodesOk c.sid f = true → f.flags.getLsbD 1 = false → x.st = .admitted →
          (1 ≤ (f.sequence - x.rxSeq).toNat → (f.sequence - x.rxSeq).toNat ≤ c.miss + 1 →
            ∃ t, exec (.stationIn l st rx) s = .next t ∧ only i t ∧
              sessOf (lane t l) i = { x with rxSeq := f.sequence, rxRef := true, got := true, miss := 0, fresh := false
                                             values := (stationPoints c f).1, valids := (stationPoints c f).2 }) ∧
          (f.sequence = x.rxSeq ∨ c.miss + 1 < (f.sequence - x.rxSeq).toNat →
            ∃ t, exec (.stationIn l st rx) s = .next t ∧ only i t ∧ sessOf (lane t l) i = { x with seqErr := satInc x.seqErr })) ∧
        (stationCodesOk c.sid f = true → f.flags.getLsbD 1 = true → payNat f 0 4 = c.configCheck.toNat → x.st = .dropped →
          ∃ t, exec (.stationIn l st rx) s = .next t ∧ only i t ∧
            sessOf (lane t l) i = { x with rxSeq := f.sequence, rxRef := true, opened := true, st := .opening }))) ∧
    (∀ (st : Fin 512) (c : StationCfg), stationCfg s st.val = some c → s.mod.phase = .input →
      let x := sessOf (lane s l) st.val
      x.st = .admitted → x.got = false → x.opened = false → c.miss ≤ x.miss →
      ∃ t, exec (.stationDropped l st) s = .next t ∧ changesOnly (records ++ [.sessions]) s t ∧ alone st.val t ∧
        (sessOf (lane t l) st.val).st = .dropped ∧ (sessOf (lane t l) st.val).misses = satInc x.misses) ∧
    (∀ (st : Fin 512) (c : StationCfg) (L : LaneState), (sessOf L st.val).st ≠ .admitted →
      ∀ p, p < 256 → bget (stationInputs L st.val c).press.data.ifv (256 * st.val + p) = false ∧
        bget (stationInputs L st.val c).press.data.iv (256 * st.val + p) = (decide (p < c.points) && bget c.safe p)) ∧
    (∀ (q : Fin 64) (c : PeerCfg) (L : LaneState), (sessOf L (512 + q.val)).st ≠ .admitted →
      ∀ p, p < 128 → bget (peerInputs L q.val c).press.data.lf (256 + 128 * q.val + p) = false ∧
        bget (peerInputs L q.val c).press.data.lv (256 + 128 * q.val + p) = bget c.safe p) ∧
    (∀ (q : Fin 64) (c : PeerCfg), peerCfg s q.val = some c →
      let i := 512 + q.val
      let x := sessOf (lane s l) i
      (x.st = .admitted → s.mod.tickTime.toNat ≥ x.lastAt.toNat + c.timeoutMs * 1000000 →
        ∃ t, exec (.peerTimeout l q) s = .next t ∧ changesOnly (records ++ [.sessions]) s t ∧ alone i t ∧
          (sessOf (lane t l) i).st = .dropped ∧ (sessOf (lane t l) i).rxRef = x.rxRef) ∧
      (∀ (rx : RxFrame) (d : Int), listens s l i rx = true → portDrops s rx.frame = false → fcsGood rx.frame = true → rx.frame.type = 0x12 →
        rx.frame.payload.length = 40 → sessionDev s rx .peerIn i = some d → -250 ≤ d → d ≤ 250 → payNat rx.frame 0 4 = moduleSid s →
        (moduleCodesOk c.sid rx.frame = false → moduleCodesOk c.otherSid rx.frame = false →
          ∃ t, exec (.peer l q rx) s = .next t ∧ only i t ∧ sessOf (lane t l) i = { x with codeErr := satInc x.codeErr }) ∧
        (moduleCodesOk c.sid rx.frame = true ∨ moduleCodesOk c.otherSid rx.frame = true →
          (x.rxRef = true → 1 ≤ (rx.frame.sequence - x.rxSeq).toNat ∧ (rx.frame.sequence - x.rxSeq).toNat ≤ 65535) →
          (echoFresh s x c (BitVec.ofNat 32 (payNat rx.frame 4 4)) = false →
            ∃ t, exec (.peer l q rx) s = .next t ∧ only i t ∧ sessOf (lane t l) i = { x with seqErr := satInc x.seqErr }) ∧
          (echoFresh s x c (BitVec.ofNat 32 (payNat rx.frame 4 4)) = true → x.st = .admitted → s.mod.phase = .input →
            ∃ t, exec (.peer l q rx) s = .next t ∧ only i t ∧
              (sessOf (lane t l) i).got = true ∧ (sessOf (lane t l) i).rxSeq = rx.frame.sequence ∧ (sessOf (lane t l) i).miss = 0 ∧
              (sessOf (lane t l) i).lastAt = s.mod.tickTime ∧ (sessOf (lane t l) i).values = (peerPoints rx.frame).1 ∧
              (sessOf (lane t l) i).valids = (peerPoints rx.frame).2)))) ∧
    ∀ (i : Fin 576) (a : Auth), (sessOf (lane s l) i.val).st = .retired →
      (authOk s a = false → exec (.sessionClear i a) s = .next s) ∧
      (authOk s a = true → ∃ t, exec (.sessionClear i a) s = .next t ∧ changesOnly (records ++ [.sessions, .lifetime]) s t ∧
        sessOf (lane t l) i.val = { sessOf (lane s l) i.val with st := .dropped, readmits := [] } ∧ alone i.val t)

/-- R205, R225, R233, R501: what a delay request and its answer leave for a medium and side; a medium is withdrawn for 8 one-sided losses
in 100 cycles or a lost block lock, returned after a full cycle without a loss or a lost lock, retired with the fourth withdrawal in 24 h, and cleared by an
authorised request alone; LOS holds one port of a medium. The rounding of an odd half (log entry 28) is left open. -/
def Obligations.DelayAndMedia : Prop :=
  ∀ s : State,
    (∀ x : RxFrame, txDis s x.seg x.medium = false → mediumUsed s x.seg x.medium = true → fcsGood x.frame = true →
      fromSegment x = true → x.frame.payload.length = 16 → s.alk.node = .measure ∨ s.alk.node = .align ∨ s.alk.node = .inSync →
      let w := delayOf (mediumOf s x.seg x.medium) x.side
      let within := fun (shift : Int) => (delayStart s : Int) + shift ≤ x.arrival.toNat ∧
        (x.arrival.toNat : Int) ≤ (delayStart s : Int) + shift + 20000
      (x.frame.type = 0x03 → ownNode s ≠ 0 →
        let d : Nat := match w.d with | some d => d | none => payNat x.frame 0 4
        let new := payNat x.frame 4 4
        (¬ within d → exec (.delayReq x) s = .next s) ∧
        (within d → ∃ t, exec (.delayReq x) s = .next t ∧ changesOnly [.alk] s t ∧
          delayOf (mediumOf t x.seg x.medium) x.side =
            { w with dOut := payNat x.frame 0 4, t2Now := some x.arrival, next := if new = 0xFFFFFFFF then w.next else some new } ∧
          (t.alk.node = if s.alk.node = .measure ∧ x.side = .A ∧ new ≠ 0xFFFFFFFF then .align else s.alk.node) ∧
          ∀ g m, (g, m) ≠ (x.seg, x.medium) → mediumOf t g m = mediumOf s g m)) ∧
      (x.frame.type = 0x04 →
        let dOut := delayOut s x.seg x.medium x.side
        let t2 := BitVec.ofNat 64 (payNat x.frame 0 8)
        let t3 : Time := BitVec.ofNat 64 (payNat x.frame 8 8)
        let came := Instr.delayResp ⟨x.seg, x.medium, x.side⟩ x.arrival x.frame
        (¬ within (-(dOut : Int)) ∨ w.t1 = none → exec came s = .next s) ∧
        (∀ t1, w.t1 = some t1 → within (-(dOut : Int)) → ∃ t link, exec came s = .next t ∧ changesOnly [.alk, .free] s t ∧
          (2 * link = ((x.arrival.toNat : Int) - t1.toNat) - ((t3.toNat : Int) - (t2 : Time).toNat) ∨
            2 * link + 1 = ((x.arrival.toNat : Int) - t1.toNat) - ((t3.toNat : Int) - t2.toNat) ∨
            2 * link = ((x.arrival.toNat : Int) - t1.toNat) - ((t3.toNat : Int) - t2.toNat) + 1) ∧
          delayOf (mediumOf t x.seg x.medium) x.side =
            { w with resultNow := some (BitVec.ofInt 32 link, BitVec.ofInt 32 ((dOut : Int) + link)) } ∧
          ∀ g m, (g, m) ≠ (x.seg, x.medium) → mediumOf t g m = mediumOf s g m))) ∧
    (∀ g m b, mediumUsed s g m = true →
      let n := (inWindow s.mod.tickTime day24 (sget [] s.cellar.life.withdrawals (mediumIx g m))).length
      let found := (b = true ∧ (mediumOf s g m).unlocked ≠ 0) ∨ 8 ≤ (mediumOf s g m).losses.foldl (· + ·) 0
      (¬ found → exec (.mediumWithdrawn g m b) s = .next s) ∧
      (found → ∃ t, exec (.mediumWithdrawn g m b) s = .next t ∧ changesOnly (records ++ [.alk, .lifetime]) s t ∧
        mediumOf t g m = { mediumOf s g m with st := if n < 3 then .withdrawn else .retired, lapse := true, clean := false } ∧
        t.cellar.life.retiredMedia.getLsbD (mediumIx g m) = (decide (3 ≤ n) || s.cellar.life.retiredMedia.getLsbD (mediumIx g m)) ∧
        ∀ g' m', (g', m') ≠ (g, m) → mediumOf t g' m' = mediumOf s g' m')) ∧
    (∀ g m, (mediumOf s g m).st = .withdrawn →
      ((mediumOf s g m).unlocked = 0 → (mediumOf s g m).clean = true →
        ∃ t, exec (.mediumReturned g m) s = .next t ∧ changesOnly (records ++ [.alk]) s t ∧
          mediumOf t g m = { mediumOf s g m with st := .inUse, losses := [] }) ∧
      ((mediumOf s g m).unlocked ≠ 0 ∨ (mediumOf s g m).clean = false → exec (.mediumReturned g m) s = .next s)) ∧
    (∀ g m a, (mediumOf s g m).st = .retired → (authOk s a = false → exec (.mediumClear g m a) s = .next s) ∧
      (authOk s a = true → ∃ t, exec (.mediumClear g m a) s = .next t ∧ changesOnly (records ++ [.alk, .lifetime]) s t ∧
        mediumOf t g m = { mediumOf s g m with st := .inUse } ∧ sget [] t.cellar.life.withdrawals (mediumIx g m) = [] ∧
        t.cellar.life.retiredMedia.getLsbD (mediumIx g m) = false)) ∧
    (∀ g m, let x := sget MediumRec.reset (lossTick s).alk.media (mediumIx g m)
      x.clean = true → s.alk.node = .inSync ∧ oneSided s (mediumIx g m) = 0 ∧ (mediumOf s g m).lapse = false) ∧
    ∀ g m (p : Fin 2) b, ∃ t, exec (.los g m p b) s = .next t ∧ changesOnly [.alk] s t ∧
      (mediumOf t g m).unlocked.getLsbD p.val = b ∧ ((mediumOf t g m).lapse = true ↔ (mediumOf s g m).lapse = true ∨ b = true) ∧ (∀ i, i ≠ p.val → (mediumOf t g m).unlocked.getLsbD i = (mediumOf s g m).unlocked.getLsbD i) ∧
      (mediumOf t g m).st = (mediumOf s g m).st

/-! ### The crossing and the field die (R250 to R264, R517) -/

/-- R174, R254 to R261, R286: a refresh that starts goes out on every stream, for a lane in reset too, and to every lane whose core is up;
one whose received bytes fail the CHECK, or whose number does not follow, is discarded and counted; an accepted one becomes the reference and ends the silence; at a placed tick the field die
takes its sample and then applies NEXT. -/
def Obligations.CrossingRefreshes : Prop :=
  ∀ s : State,
    (∀ m : FieldReadings, ∃ t, exec (.crossingRefresh m) s = .next t ∧
      changesOnly (records ++ [.clock, .field, .fieldIn, .lifetime]) s t ∧ t.mod.refreshes = s.mod.refreshes + 1 ∧
      (s.field.on = true → t.field.refresh = s.field.refresh + 1 ∧ t.field.readback = m.readback ∧
        ∀ l, (t.field.streams.get l).silent = (s.field.streams.get l).silent + 1) ∧
      ∀ l, (sendsDown s = false → (lane t l).fld.downRefresh = (lane s l).fld.downRefresh ∧ t.field.down.get l = s.field.down.get l) ∧
        (sendsDown s = true → (lane t l).fld.downRefresh = (lane s l).fld.downRefresh + 1 ∧
          (lane t l).fld.cfgIndex = (lane s l).fld.cfgIndex + 1 ∧ (s.field.on = true → t.field.down.get l = some (downFrame s l))) ∧
        (hearsUp s l = false → (lane t l).fld.silent = (lane s l).fld.silent ∧ (lane t l).fld.inFlight = (lane s l).fld.inFlight) ∧
        (hearsUp s l = true → (lane t l).fld.silent = (lane s l).fld.silent + 1 ∧ (s.field.on = true →
          ∃ u, (lane t l).fld.inFlight = some u ∧ u.refresh = s.field.refresh + 1 ∧ u.readback = m.readback))) ∧
    (∀ (l : Lane) (d : DownFrame), s.field.down.get l = some d → s.field.on = true → ∀ err ns,
      let x := s.field.streams.get l
      let discarded := ∃ t, exec (.downstreamRefresh l err ns) s = .next t ∧ changesOnly [.field] s t ∧
        t.field = { s.field with down := s.field.down.set l none, downErr := satInc s.field.downErr }
      (receiveDown d err = none → discarded) ∧
      ∀ e, receiveDown d err = some e →
        (refreshOk x.ref e.refresh = false ∨ (e.tick = true ∧ fieldReady s.field = true ∧ (1000 < ns ∨ ns < -1000)) → discarded) ∧
        (refreshOk x.ref e.refresh = true → (e.tick = false ∨ fieldReady s.field = false ∨ (-1000 ≤ ns ∧ ns ≤ 1000)) →
          ∃ t, exec (.downstreamRefresh l err ns) s = .next t ∧ changesOnly (records ++ [.field, .fieldIn, .lifetime]) s t ∧
            t.field.down.get l = none ∧ t.field.downErr = s.field.downErr ∧ t.field.lastCycle = e.cycle ∧ t.field.up = true ∧
            (e.swtest = true → t.field.usedWindow = some (windowNow s)) ∧
            (s.field.up = true →
              t.field.streams.get l = { x with ref := some e.refresh, silent := 0, lost := false, openUntilTick := x.openUntilTick || x.lost
                                               localLost := e.localLost, swtest := e.swtest, next := e.next, vctl := e.vctl
                                               drive := if x.openUntilTick = true ∨ x.lost = true then 0 else e.now
                                               words := sputAny x.words e.cfgIndex.val e.cfgWord } ∧
              ∀ m, m ≠ l → t.field.streams.get m = s.field.streams.get m) ∧
            (s.field.up = false → t.field.stopped = false ∧ (t.field.streams.get l).ref = some e.refresh ∧
              (t.field.streams.get l).drive = 0 ∧ ∀ m, (t.field.streams.get m).openUntilTick = true ∧
                (t.field.streams.get m).lost = false ∧ (t.field.streams.get m).silent = 0))) ∧
    (∀ (l : Lane) (u : UpFrame), runs s l = true → (lane s l).fld.inFlight = some u → ∀ err,
      ((∀ w, receiveUp u err = some w → refreshOk (lane s l).fld.ref w.refresh = false) →
        ∃ t, exec (.upstreamRefresh l err) s = .next t ∧ changesOnly [.fieldIn] s t ∧
          (lane t l).fld = { (lane s l).fld with inFlight := none, upErr := satInc (lane s l).fld.upErr } ∧
          ∀ m, m ≠ l → lane t m = lane s m) ∧
      (∀ w, receiveUp u err = some w → refreshOk (lane s l).fld.ref w.refresh = true →
        ∃ t, exec (.upstreamRefresh l err) s = .next t ∧ changesOnly (records ++ [.fieldIn, .lifetime, .field]) s t ∧
          (lane t l).fld.ref = some w.refresh ∧ (lane t l).fld.silent = 0 ∧ (lane t l).fld.last = some w ∧
          (lane t l).fld.inFlight = none ∧ (lane t l).fld.upErr = (lane s l).fld.upErr)) ∧
    (fieldReady s.field = true → s.field.placing = true → ∃ t, exec .fieldTick s = .next t ∧ changesOnly [.field] s t ∧
      t.field.sample = some (takeTick s.field (s.field.lastCycle + 1)) ∧ t.field.before = s.field.sample ∧ t.field.placing = false ∧
      ∀ l, (t.field.streams.get l).drive = (if (s.field.streams.get l).lost then 0 else (s.field.streams.get l).next))

/-- R262 to R264, R281, R287, R294, R495, R517: a stream that is silent for CROSS_TIMEOUT is all-open without a reference, its lane reads the
block as invalid, and each returns after 100 ms; a stop of the module or of the die opens every switch and takes the configuration; a
module stop takes the latches of the groups too, except under a field fault, and after a stop of the die the lanes take the counts
without adding, from the next sample on that they have not taken yet; a field fault latches once, with every switch open, until an authorised request clears it. -/
def Obligations.CrossingLosses : Prop :=
  ∀ s : State,
    let f := s.field
    (∀ l, f.on = true → f.up = true → f.stopped = false → (f.streams.get l).lost = false →
      ((f.streams.get l).silent ≥ crossTimeout f.config → ∃ t, exec (.fieldStreamLost l) s = .next t ∧
        changesOnly (records ++ [.field, .fieldIn, .lifetime]) s t ∧
        t.field.streams = f.streams.set l { f.streams.get l with ref := none, lost := true, drive := 0 }) ∧
      ((f.streams.get l).silent < crossTimeout f.config → exec (.fieldStreamLost l) s = .next s)) ∧
    (∀ l, s.mod.ticking = true → runs s l = true → (lane s l).fld.lost = false →
      (lane s l).fld.silent ≥ crossTimeout ((laneVintage s l).map (fun v => v.localIo)) →
      ∃ t, exec (.localLost l) s = .next t ∧ changesOnly [.fieldIn] s t ∧ (∀ m, m ≠ l → lane t m = lane s m) ∧
        (lane t l).fld = { (lane s l).fld with lost := true, goodFor := 0, ref := none, sample := none }) ∧
    (∀ l, runs s l = true → (lane s l).fld.lost = true →
      ((lane s l).fld.goodFor ≥ 10000 → ∃ t, exec (.localRecovered l) s = .next t ∧ changesOnly [.fieldIn] s t ∧
        (lane t l).fld = { (lane s l).fld with lost := false } ∧ ∀ m, m ≠ l → lane t m = lane s m) ∧
      ((lane s l).fld.goodFor < 10000 → exec (.localRecovered l) s = .next s)) ∧
    (f.lost = true → (f.goodFor ≥ 10000 → ∃ t, exec .crossingRecovered s = .next t ∧ changesOnly [.field] s t ∧ t.field.lost = false ∧
        t.field.streams = f.streams ∧ t.field.group1.latched = f.group1.latched ∧ t.field.group2.latched = f.group2.latched) ∧
      (f.goodFor < 10000 → exec .crossingRecovered s = .next s)) ∧
    (f.on = true → f.up = true → f.stopped = false → streamsStopped f = true → ∃ t, exec .moduleStop s = .next t ∧
      changesOnly [.field] s t ∧ t.field.stopped = true ∧ t.field.config = none ∧ t.field.tickRun = 0 ∧ t.field.closed = PerLane.all 0 ∧
      t.field.fault = f.fault ∧ t.field.downErr = 0 ∧
      (f.fault = none → t.field.group1.latched = false ∧ t.field.group2.latched = false) ∧
      ∀ l, (t.field.streams.get l).drive = 0 ∧ (t.field.streams.get l).lost = true) ∧
    (f.on = true → ∃ t, exec .fieldDieStop s = .next t ∧ changesOnly [.field, .fieldIn] s t ∧ t.field.on = false ∧
      (∀ l, ((lane s l).fld.sample = none → (lane t l).fld = { (lane s l).fld with retake := true, inFlight := none }) ∧
        ((lane s l).fld.sample.isSome = true → (lane t l).fld = { (lane s l).fld with retakeNext := true, inFlight := none })) ∧
      t.field.config = none ∧
      t.field.closed = PerLane.all 0 ∧ t.field.inputs = [] ∧ t.field.counters = [] ∧ t.field.fault = f.fault ∧
      ∀ n, n < 16 → (sget OutRec.reset t.field.outputs n).retired = (sget OutRec.reset f.outputs n).retired) ∧
    (f.on = false → ∃ t, exec .fieldDieStart s = .next t ∧ changesOnly [.field] s t ∧ t.field = { f with on := true }) ∧
    (∀ c, (c = .selfCheck → f.on = true) → (c = .configMismatch → configMismatch s = true) → (c = .pairCheck → pairsBroken s = true) →
      (c = .lossBudget → f.lost = true ∧ 4 ≤ (inWindow s.mod.tickTime day24 s.cellar.life.crossingLosses).length) →
      (f.fault = none → ∃ t, exec (.fieldFault c) s = .next t ∧ changesOnly (records ++ [.field, .lifetime]) s t ∧
        t.field.fault = some c ∧ t.cellar.life.fieldFault = some c ∧ t.field.group1.latched = true ∧ t.field.group2.latched = true ∧
        ∀ l i, (t.field.closed.get l).getLsbD i = false) ∧
      (f.fault.isSome = true → exec (.fieldFault c) s = .next s)) ∧
    ∀ a, (authOk s a = false → exec (.fieldFaultClear a) s = .next s) ∧
      (authOk s a = true → ∃ t, exec (.fieldFaultClear a) s = .next t ∧ changesOnly (records ++ [.field, .lifetime]) s t ∧
        t.field = { f with fault := none } ∧ t.cellar.life.fieldFault = none ∧ t.cellar.life.nonceLast = a.nonce)

/-! ### Local inputs, pairs, test pulses and counters (R265 to R271, R285) -/

/-- R265 to R270, R285: at a sample every filtered value takes a raw value read at F / 50 µs + 1 consecutive samples, the third
sample of a pulse judges the channel, and the dual pairs step on the filtered values; a run of N is a pair fault; a pulse takes
its source low for 4 samples, at the first sample from k × 2 ms after a multiple of its period on and never with another source, and a level out of place makes the source bad until it has recovered; DELTA counts the edges of
its mode and stops at 65,535. -/
def Obligations.InputChannels : Prop :=
  ∀ (s : State) (c : LocalCfg), s.field.config = some c →
    let f := s.field
    (∀ raw, fieldReady f = false → exec (.inputSample raw) s = .next s) ∧
    (∀ raw, fieldReady f = true → ∃ t, exec (.inputSample raw) s = .next t ∧ changesOnly (records ++ [.field]) s t ∧
      (∀ n, n < 48 →
        let x := inputRec f n
        let y := inputRec t.field n
        (y.filtered = if raw.getLsbD n ≠ x.filtered ∧ (inputCfg c n).filter + 1 ≤ x.run + 1 then raw.getLsbD n else x.filtered) ∧
        (y.run = if raw.getLsbD n ≠ x.filtered ∧ x.run + 1 < (inputCfg c n).filter + 1 then x.run + 1 else 0) ∧
        (pulseThird f c n = false → y.tpBad = x.tpBad ∧ y.fails = x.fails ∧ y.passes = x.passes) ∧
        (pulseThird f c n = true → raw.getLsbD n = true → y.passes = 0 ∧ y.fails = min 2 (x.fails + 1) ∧ (y.tpBad = true ↔ x.tpBad = true ∨ 1 ≤ x.fails)) ∧
        (pulseThird f c n = true → raw.getLsbD n = false → y.fails = 0 ∧ y.passes = min 3 (x.passes + 1) ∧ (y.tpBad = true ↔ x.tpBad = true ∧ x.passes < 2))) ∧
      ∀ j, j < 24 →
        let p := pairRec f j
        let q := pairRec t.field j
        let a := (inputRec t.field (2 * j)).filtered
        let b := (inputRec t.field (2 * j + 1)).filtered
        ((pairCfg c j).dual = false → q = p) ∧
        ((pairCfg c j).dual = true → (inputValid t.field (2 * j) && inputValid t.field (2 * j + 1)) = false → q.st = .invalid) ∧
        ((pairCfg c j).dual = true → (inputValid t.field (2 * j) && inputValid t.field (2 * j + 1)) = true →
          (p.st = .invalid → (pairCfg c j).startTest = false → q.st = .ready) ∧
          (p.st = .invalid → (pairCfg c j).startTest = true → q.st = .arming) ∧
          (p.st = .ready → q.st = .ready) ∧
          (q.run = if a = b then 0 else min (pairN (pairCfg c j)) ((if p.st = .invalid then 0 else p.run) + 1)) ∧
          (p.st = .arming ∨ p.st = .fault → p.zeroSeen = true → a = true → b = true → 1 ≤ pairN (pairCfg c j) → q.st = .ready) ∧
          (p.st = .arming ∨ p.st = .fault → (a = false ∨ b = false ∨ p.zeroSeen = false) → q.st = p.st))) ∧
    (∀ j : Fin 24, (pairCfg c j.val).dual = true → (pairRec f j.val).st = .ready ∨ (pairRec f j.val).st = .arming →
      (pairN (pairCfg c j.val) ≤ (pairRec f j.val).run → ∃ t, exec (.pairFault j) s = .next t ∧ changesOnly (records ++ [.field]) s t ∧
        t.field = { f with pairs := sput PairRec.reset f.pairs j.val { pairRec f j.val with st := .fault, zeroSeen := false } }) ∧
      ((pairRec f j.val).run < pairN (pairCfg c j.val) → exec (.pairFault j) s = .next s)) ∧
    (∀ k low high, pulseDue s c k.val = false ∨ noneLow f = false → exec (.testPulse k low high) s = .next s) ∧
    (∀ (k : Fin 8) n, (s.mod.refreshes - 1) % 5 = 0 → 0 < c.tpPeriodMs → n * (c.tpPeriodMs * 1000000) + k.val * 2000000 ≤ sampleTime s →
      sampleTime s < n * (c.tpPeriodMs * 1000000) + k.val * 2000000 + 50000 → pulseDue s c k.val = true) ∧
    (∀ k low high, fieldReady f = true → pulseDue s c k.val = true → noneLow f = true →
      ∃ t, exec (.testPulse k low high) s = .next t ∧ changesOnly [.field] s t ∧
      (∀ n, n ≠ k.val → sget SourceRec.reset t.field.sources n = sget SourceRec.reset f.sources n) ∧
      sget SourceRec.reset t.field.sources k.val =
        { low := 4, bad := (sget SourceRec.reset f.sources k.val).bad || !low || !high } ∧
      ((low = false ∨ high = false) → sourceOk t.field k.val = false ∧
        ∀ n, n < 48 → (inputCfg c n).source = some k → inputValid t.field n = false)) ∧
    (∀ k, f.on = true → ∃ t, exec (.tpRecovered k) s = .next t ∧ changesOnly [.field] s t ∧
      (sget SourceRec.reset t.field.sources k.val).bad = false ∧
      ∀ n, n ≠ k.val → sget SourceRec.reset t.field.sources n = sget SourceRec.reset f.sources n) ∧
    ∀ (k : Fin 4) (rising : Bool), f.on = true →
      let x := sget CountRec.reset f.counters k.val
      let counted := (counterCfg c k.val).mode = .both ∨ ((counterCfg c k.val).mode = .rising ∧ rising = true) ∨
        ((counterCfg c k.val).mode = .falling ∧ rising = false)
      (¬ counted → exec (.counterEdge k rising) s = .next s) ∧
      (counted → ∃ t, exec (.counterEdge k rising) s = .next t ∧ changesOnly [.field] s t ∧
        (∀ n, n ≠ k.val → sget CountRec.reset t.field.counters n = sget CountRec.reset f.counters n) ∧
        sget CountRec.reset t.field.counters k.val =
          (if x.delta.toNat < 65534 then { x with delta := x.delta + 1 } else { x with delta := 65535, stuck := true }))

/-! ### Local outputs and field supplies (R275 to R283, R522) -/

/-- R275 to R278, R280: a test starts 20 µs into a window that holds no other and overlaps no lane switch test, for the lowest output that is
due, once in its period (when in the period it falls due is the model's choice, log entry 68); the enable of an OFF-tested output is
removed and its six switches open; a terminal that stays high is
stuck high or cross-connected, and each output found so is retired for good and shows what was found last; an ON-test passes when the current returned is that
driven; a terminal that is high with its output off starts the classification. -/
def Obligations.OutputTests : Prop :=
  ∀ (s : State) (k : Fin 16),
    let n := k.val
    let f := s.field
    let o := outRec s n
    let free := testWindow f = true ∧ sinceTick0 s % 50 = 2 ∧ f.usedWindow ≠ some (windowNow s) ∧
      ∀ m, m < n → offDue f m = false ∧ onDue f m = false
    let offAt := some (periodIndex f (outCfg f n).offPeriod)
    let onAt := some (periodIndex f (outCfg f n).onPeriod)
    (free → outEnabled f n = true → commandedOn f n = true → energised f n = true →
      (((outCfg f n).offTest = true ∧ o.offIn ≠ offAt) ∨ wantedByClass f n = true) → ∃ t, exec (.offTest k) s = .next t ∧ changesOnly [.field] s t ∧
        t.field.usedWindow = some (windowNow s) ∧
        outRec t n = { o with test := .off, testDue := false, offIn := offAt } ∧ (∀ m, m ≠ n → outRec t m = outRec s m) ∧
        ∀ l, (t.field.closed.get l).getLsbD n = false ∧ (t.field.closed.get l).getLsbD (16 + n) = false) ∧
    (¬ free → exec (.offTest k) s = .next s ∧ exec (.onTest k) s = .next s) ∧
    (outEnabled f n = false ∨ (o.offIn = offAt ∧ wantedByClass f n = false) → exec (.offTest k) s = .next s) ∧
    (o.test = .off → (∀ a, (outRec s a).toTry = none) → ∀ fell risen : BitVec 16,
      (fell.getLsbD n = true → ∃ t, exec (.offTestEnd k fell risen) s = .next t ∧ changesOnly [.field] s t ∧
        outRec t n = { o with test := .none, offPassed := true } ∧ ∀ m, m ≠ n → outRec t m = outRec s m) ∧
      (fell.getLsbD n = false → o.retired = false → ∃ t, exec (.offTestEnd k fell risen) s = .next t ∧
        changesOnly (records ++ [.field, .lifetime]) s t ∧ (outRec t n).retired = true ∧ (outRec t n).offPassed = false ∧
        ((bitsOf risen).filter (fun b => decide (b ≠ n)) = [] → (outRec t n).fault = .stuckHigh ∧ ∀ m, m ≠ n → outRec t m = outRec s m) ∧
        ∀ b bs, (bitsOf risen).filter (fun b => decide (b ≠ n)) = b :: bs → (outRec t n).fault = .crossConnect ∧
          (outRec t n).partner = BitVec.ofNat 4 b ∧ (outRec t b).retired = true ∧
          (outRec t b).fault = .crossConnect ∧ (outRec t b).partner = BitVec.ofNat 4 n ∧
          ∀ m, m ≠ n → m ≠ b → outRec t m = outRec s m)) ∧
    (free → fieldReady f = true → f.fault = none → f.lost = false → (outCfg f n).onTest = true → commandedOn f n = false →
      o.retired = false → (groupRec f (decide (8 ≤ n))).latched = false → (o.onIn ≠ onAt ∨ o.testDue = true) →
      ∃ t, exec (.onTest k) s = .next t ∧ changesOnly [.field] s t ∧ t.field.usedWindow = some (windowNow s) ∧
        outRec t n = { o with test := .on, testDue := false, onIn := onAt } ∧ ∀ m, m ≠ n → outRec t m = outRec s m) ∧
    (o.onIn = onAt → o.testDue = false → exec (.onTest k) s = .next s) ∧
    (o.test = .on → ∀ (driven back : Nat) (others : BitVec 16),
      (10 ≤ back → back * 10 ≤ driven * 11 → driven * 9 ≤ back * 10 → (bitsOf others).filter (fun b => decide (b ≠ n)) = [] →
        ∃ t, exec (.onTestEnd k driven back others) s = .next t ∧ changesOnly [.field] s t ∧
          outRec t n = { o with test := .none, onPassed := true, loadOk := true } ∧ ∀ m, m ≠ n → outRec t m = outRec s m) ∧
      ((back < 10 ∨ driven * 11 < back * 10 ∨ back * 10 < driven * 9) → (bitsOf others).filter (fun b => decide (b ≠ n)) = [] →
        ∃ t, exec (.onTestEnd k driven back others) s = .next t ∧ changesOnly (records ++ [.field]) s t ∧
          outRec t n = { o with test := .none, onPassed := false, loadOk := false, fault := .onTestFail } ∧ ∀ m, m ≠ n → outRec t m = outRec s m) ∧
      ∀ b bs, (bitsOf others).filter (fun b => decide (b ≠ n)) = b :: bs → o.retired = false → ∃ t, exec (.onTestEnd k driven back others) s = .next t ∧
        changesOnly (records ++ [.field, .lifetime]) s t ∧ (outRec t n).retired = true ∧ (outRec t n).fault = .crossConnect ∧
        (outRec t n).partner = BitVec.ofNat 4 b ∧ (outRec t b).retired = true) ∧
    (fieldReady f = true → energised f n = false → commandedOn f n = false → o.test = .none → o.retired = false →
      (∀ b, b < 16 → (stillToTry f n).getLsbD b = (energised f b && match o.toTry with | some m => m.getLsbD b | none => true)) ∧
      (stillToTry f n = 0 → ∃ t, exec (.terminalHighOff k) s = .next t ∧ changesOnly (records ++ [.field, .lifetime]) s t ∧
        (outRec t n).retired = true ∧ (outRec t n).fault = .stuckHigh ∧ ∀ m, m ≠ n → outRec t m = outRec s m) ∧
      (stillToTry f n ≠ 0 → ∃ t, exec (.terminalHighOff k) s = .next t ∧ changesOnly [.field] s t ∧
        outRec t n = { o with toTry := some (stillToTry f n) } ∧ ∀ m, m ≠ n → outRec t m = outRec s m))

/-- R279, R281 to R283: a trip removes the enable at once and is counted, and the fourth retires the output on lifetime page 5; the
enable returns at a retry 100 ms later; 10 s energised clear the count; an authorised request clears the retirement, and the
output then waits for its bit to be 0. A supply's warning and counts follow each measurement; 100 in a row out of range latch the
group off, once for each such run and also where it is latched already, and 10,000 in range while latched recover it. -/
def Obligations.OutputTripsAndSupplies : Prop :=
  ∀ (s : State) (k : Fin 16),
    let n := k.val
    let f := s.field
    let o := outRec s n
    (∀ (c : Instr) (y : OutFault), ((∃ ma, c = .overload k ma ∧ y = .overload) ∨ (c = .short k ∧ y = .short) ∨ (c = .overTemp k ∧ y = .overTemp)) →
      (canTrip f n = false → exec c s = .next s) ∧
      (canTrip f n = true → ∃ t, exec c s = .next t ∧ changesOnly (records ++ [.field, .lifetime]) s t ∧
        (∀ m, m ≠ n → outRec t m = outRec s m) ∧ (outRec t n).heldOff = true ∧ (outRec t n).trips = o.trips + 1 ∧
        (outRec t n).tripAt = f.nowNs ∧ (outRec t n).energisedNs = 0 ∧ (outRec t n).fault = y ∧ ((outRec t n).hot = true ↔ y = .overTemp) ∧
        (∀ l, (t.field.closed.get l).getLsbD n = false ∧ (t.field.closed.get l).getLsbD (16 + n) = false) ∧
        (o.trips < 3 → (outRec t n).retired = false ∧ t.cellar.life.retiredOuts = s.cellar.life.retiredOuts) ∧
        (3 ≤ o.trips → (outRec t n).retired = true ∧ sget 0 t.cellar.life.retiredOuts n = BitVec.ofNat 8 (outFaultCode y)))) ∧
    (∀ cool, o.heldOff = true → o.retired = false → commandedOn f n = true →
      (f.nowNs < o.tripAt + 100000000 ∨ (o.hot = true ∧ cool = false) → exec (.overloadRetry k cool) s = .next s) ∧
      (o.tripAt + 100000000 ≤ f.nowNs → (o.hot = false ∨ cool = true) → ∃ t, exec (.overloadRetry k cool) s = .next t ∧ changesOnly [.field] s t ∧
        outRec t n = { o with heldOff := false, hot := false } ∧ ∀ m, m ≠ n → outRec t m = outRec s m)) ∧
    (o.retired = false →
      (10000000000 ≤ o.energisedNs → ∃ t, exec (.tripCountReset k) s = .next t ∧ changesOnly [.field] s t ∧
        outRec t n = { o with trips := 0 } ∧ ∀ m, m ≠ n → outRec t m = outRec s m) ∧
      (o.energisedNs < 10000000000 → exec (.tripCountReset k) s = .next s)) ∧
    (fieldReady f = true → (outCfg f n).openWireEn = true → energised f n = true → o.retired = false →
      (∃ t, exec (.openWire k) s = .next t ∧ changesOnly (records ++ [.field]) s t ∧
        outRec t n = { o with loadOk := false, fault := .openWire } ∧ ∀ m, m ≠ n → outRec t m = outRec s m) ∧
      ∃ t, exec (.loadOkReturn k) s = .next t ∧ changesOnly [.field] s t ∧
        outRec t n = { o with loadOk := true } ∧ ∀ m, m ≠ n → outRec t m = outRec s m) ∧
    (∀ a, (authOk s a = false → exec (.outputRetireClear k a) s = .next s) ∧
      (authOk s a = true → o.retired = true → ∃ t, exec (.outputRetireClear k a) s = .next t ∧ changesOnly (records ++ [.field, .lifetime]) s t ∧
        outRec t n = { o with retired := false, awaitZero := true, zeroVoted := false, trips := 0, heldOff := false, fault := .none, partner := 0 } ∧
        (∀ m, m ≠ n → outRec t m = outRec s m) ∧ sget 0 t.cellar.life.retiredOuts n = 0 ∧ outEnabled t.field n = false ∧
        t.cellar.life.nonceLast = a.nonce)) ∧
    (∀ v1 v2 : BitVec 16, f.on = true → ∃ t, exec (.vfMeasure v1 v2) s = .next t ∧ changesOnly [.field] s t ∧
      ∀ second, let v := if second then v2 else v1
        let g := groupRec f second
        let h := groupRec t.field second
        h.vf = v ∧ (h.warn = true ↔ v.toNat < 1920 ∨ 3000 < v.toNat) ∧ h.latched = g.latched ∧ h.enabled = g.enabled ∧
        h.vfOff = (g.vfOff && (decide (v.toNat < 1680) || decide (3200 < v.toNat))) ∧
        h.bad = (if v.toNat < 1680 ∨ 3200 < v.toNat then min 100 (g.bad + 1) else 0) ∧
        h.good = (if 1920 ≤ v.toNat ∧ v.toNat ≤ 3000 then min 10000 (g.good + 1) else 0) ∧
        (g.latched = true → h.st = g.st) ∧ (g.latched = false → h.st = if v.toNat < 1920 ∨ 3000 < v.toNat then .warning else .normal)) ∧
    (∀ second, f.on = true →
      ((groupRec f second).bad < 100 ∨ (groupRec f second).vfOff = true → exec (.vfLatch second) s = .next s) ∧
      (100 ≤ (groupRec f second).bad → (groupRec f second).vfOff = false → ∃ t, exec (.vfLatch second) s = .next t ∧
        changesOnly (records ++ [.field]) s t ∧ (groupRec t.field second).latched = true ∧ (groupRec t.field second).st = .latched ∧
        (groupRec t.field second).vfOff = true ∧ groupRec t.field (!second) = groupRec f (!second) ∧ groupValid t.field second = false ∧
        ∀ m, m < 16 → decide (8 ≤ m) = second → outEnabled t.field m = false)) ∧
    ∀ second, f.on = true → f.lost = false → (groupRec f second).latched = true → (groupRec f second).st = .latched →
      ((groupRec f second).good < 10000 → exec (.vfRecovered second) s = .next s) ∧
      (10000 ≤ (groupRec f second).good → ∃ t, exec (.vfRecovered second) s = .next t ∧ changesOnly [.field] s t ∧
        groupRec t.field second = { groupRec f second with st := .recovered } ∧ groupRec t.field (!second) = groupRec f (!second))

/-! ### The host ports: links and rings (R300 to R302, R321, R322, R324, R503) -/

/-- R295, R322, R503: with the link down, D3hot included, the rings stay enabled and keep their indices; at LINK_HOLD every ring is disabled
with cause LINK_HOLD, every descriptor that no batch holds is aborted, and nothing is written to the host; PERST_N counts as link down
and resets the MSI-X table and the error state. -/
def Obligations.PortLinks : Prop :=
  ∀ (s : State) (p : Port),
    (∀ b, ∃ t, exec (.linkDown ⟨p, b⟩) s = .next t ∧ changesOnly [.eic, .ports] s t ∧
      (∀ q, q ≠ p → ∃ m k, t.ports.get q = { s.ports.get q with msix := m, pba := k }) ∧
      (∃ m k, t.ports.get p = { s.ports.get p with linkUp := false, speed := 0, d3hot := b, msix := m, pba := k }) ∧
      (runs s p.ringLane = true → inLogicBist s p.ringLane = false → (source t p.ringLane (102 + p.idx)).level = true)) ∧
    (∃ t, exec (.perstN p) s = .next t ∧ changesOnly [.eic, .ports] s t ∧
      ∃ m, t.ports.get p = { s.ports.get p with perst := true, linkUp := false, speed := 0, d3hot := false, msix := m
                                                msixWords := [], msixOpen := 0, pba := 0, devErr := 0, aerUncorrectable := 0
                                                aerCorrectable := 0 }) ∧
    (∀ v, (runs s p.ringLane = false ∨ v = 0) → exec (.linkUp p v) s = .next s) ∧
    (∀ v, runs s p.ringLane = true → v ≠ 0 → ∃ t, exec (.linkUp p v) s = .next t ∧ changesOnly [.eic, .ports] s t ∧
      (∃ m k, t.ports.get p = { s.ports.get p with linkUp := true, speed := v, perst := false, d3hot := false, msix := m, pba := k }) ∧
      ∀ l, (lane t l).eic.moving.get p = false) ∧
    (((s.ports.get p).linkUp = true ∨ runs s p.ringLane = false) → exec (.holdExpired p) s = .next s) ∧
    ((s.ports.get p).linkUp = false → runs s p.ringLane = true → ∃ t, exec (.holdExpired p) s = .next t ∧
      changesOnly (records ++ [.mbx]) s t ∧ (t.ports.get p).holdExpired = true ∧ onlyBatched t (fun r => r.port = p) ∧
      (∀ q, (sqOf s p q).enabled = true → (sqOf t p q).enabled = false ∧ (sqOf t p q).halt = .linkHold) ∧
      (∀ q, (sqOf s p q).enabled = false → sqOf t p q = sqOf s p q) ∧
      (∀ q, cqOf t p q = { cqOf s p q with enabled := false }) ∧
      ∀ l, ∀ c ∈ (lane s l).mbx.composed, c ∈ (lane t l).mbx.composed)

/-- R300 to R302, R321, R324, R327: a doorbell moves the index of an enabled ring with its link up, and one that names a disabled
ring or an index outside it is counted; a ring is enabled with head and tail 0, only with a size of 16 to 4,096; an SQ whose CQ is
not enabled halts with SETUP, and one whose DMA fails with DMA; a staging descriptor whose data fails ends with HOST_FAULT and the bytes
taken, also when its SQ has been disabled meanwhile, and a read without an answer shows in the port's error state; while logic BIST or
the march of its ring lane runs, a port takes no access; a coalesced vector stays due when its CQ is disabled, and goes out when its time is
over, or stays pending where the host has masked it. -/
def Obligations.RingsAndDoorbells : Prop :=
  ∀ (s : State) (p : Port) (q : Fin 16),
    let n := q.val
    let sq := sqOf s p n
    let cq := cqOf s p n
    (∀ v, ((s.ports.get p).linkUp = false ∨ portSilent s p = true) →
      exec (.sqTailDoorbell p q v) s = .next s ∧ exec (.cqHeadDoorbell p q v) s = .next s) ∧
    (portSilent s p = true → ∀ k ctrl, exec (.ringEnable p k q ctrl) s = .next s ∧ exec (.ringDisable p k q) s = .next s) ∧
    (∀ v, (s.ports.get p).linkUp = true → portSilent s p = false →
      (sq.enabled = true → (doorIndex v).toNat < ringSize sq → ∃ t, exec (.sqTailDoorbell p q v) s = .next t ∧ changesOnly [.ports] s t ∧
        sqOf t p n = { sq with tail := doorIndex v } ∧ (∀ m, m ≠ n → sqOf t p m = sqOf s p m) ∧ (∀ m, cqOf t p m = cqOf s p m) ∧
        ∀ r, r ≠ p → t.ports.get r = s.ports.get r) ∧
      (cq.enabled = true → (doorIndex v).toNat < ringSize cq → ∃ t, exec (.cqHeadDoorbell p q v) s = .next t ∧ changesOnly [.ports] s t ∧
        cqOf t p n = { cq with head := doorIndex v } ∧ (∀ m, m ≠ n → cqOf t p m = cqOf s p m) ∧ (∀ m, sqOf t p m = sqOf s p m) ∧
        ∀ r, r ≠ p → t.ports.get r = s.ports.get r) ∧
      (sq.enabled = false ∨ ringSize sq ≤ (doorIndex v).toNat → exec (.sqTailDoorbell p q v) s =
        .next (modPort s p (fun x => { x with doorbellErr := satInc x.doorbellErr }))) ∧
      (cq.enabled = false ∨ ringSize cq ≤ (doorIndex v).toNat → exec (.cqHeadDoorbell p q v) s =
        .next (modPort s p (fun x => { x with doorbellErr := satInc x.doorbellErr })))) ∧
    (∀ k ctrl, (runs s p.ringLane = false ∨ (k = .sq ∧ sq.enabled = true) ∨ (k = .cq ∧ cq.enabled = true)) →
      exec (.ringEnable p k q ctrl) s = .next s) ∧
    (∀ ctrl, runs s p.ringLane = true → portSilent s p = false → sq.enabled = false →
      let c := cqOf s p (field ctrl 11 8)
      ((field ctrl 7 4 < 4 ∨ 12 < field ctrl 7 4) → ∃ t, exec (.ringEnable p .sq q ctrl) s = .next t ∧ changesOnly [.ports] s t ∧
        (sqOf t p n).enabled = false ∧ (sqOf t p n).sizeLog2 = BitVec.ofNat 4 (field ctrl 7 4)) ∧
      (4 ≤ field ctrl 7 4 → field ctrl 7 4 ≤ 12 → ∃ t, exec (.ringEnable p .sq q ctrl) s = .next t ∧ changesOnly [.eic, .ports] s t ∧
        (sqOf t p n).enabled = true ∧ (sqOf t p n).head = 0 ∧ (sqOf t p n).tail = 0 ∧ ringSize (sqOf t p n) = 2 ^ field ctrl 7 4 ∧
        (sqOf t p n).cq.toNat = field ctrl 11 8 ∧ (sqOf t p n).halt = (if c.enabled then .none else .setup) ∧
        ∀ m, m ≠ n → sqOf t p m = sqOf s p m)) ∧
    (∀ ctrl, runs s p.ringLane = true → portSilent s p = false → cq.enabled = false →
      ((field ctrl 7 4 < 4 ∨ 12 < field ctrl 7 4) → ∃ t, exec (.ringEnable p .cq q ctrl) s = .next t ∧ changesOnly [.ports] s t ∧
        (cqOf t p n).enabled = false) ∧
      (4 ≤ field ctrl 7 4 → field ctrl 7 4 ≤ 12 → ∃ t, exec (.ringEnable p .cq q ctrl) s = .next t ∧ changesOnly [.ports] s t ∧
        (cqOf t p n).enabled = true ∧ (cqOf t p n).head = 0 ∧ (cqOf t p n).tail = 0 ∧ (cqOf t p n).phase = true ∧
        (cqOf t p n).coalesce.toNat = min (field ctrl 25 16) 1000 ∧ (cqOf t p n).irqEn = ctrl.getLsbD 12 ∧
        ∀ m, m ≠ n → cqOf t p m = cqOf s p m)) ∧
    (runs s p.ringLane = true → portSilent s p = false → sq.enabled = true → ∃ t, exec (.ringDisable p .sq q) s = .next t ∧ changesOnly [.mbx, .ports] s t ∧
      (sqOf t p n).enabled = false ∧ (sqOf t p n).halt = .none ∧ (∀ m, m ≠ n → sqOf t p m = sqOf s p m) ∧
      onlyBatched t (fun r => r.port = p ∧ r.sq = q)) ∧
    (runs s p.ringLane = true → portSilent s p = false → cq.enabled = true → ∃ t, exec (.ringDisable p .cq q) s = .next t ∧ changesOnly [.eic, .ports] s t ∧
      cqOf t p n = { cq with enabled := false } ∧ (∀ m, m ≠ n → cqOf t p m = cqOf s p m) ∧
      ∀ m, m < 16 → sqOf t p m = (if (sqOf s p m).enabled = true ∧ (sqOf s p m).cq.toNat = n then { sqOf s p m with halt := .setup } else sqOf s p m)) ∧
    (cq.unsignalled = true → (s.ports.get p).linkUp = true → runs s p.ringLane = true → ∃ t, exec (.coalesceExpiry p q) s = .next t ∧
      changesOnly [.ports] s t ∧ cqOf t p n = { cq with unsignalled := false } ∧
      ((s.ports.get p).msixOpen.getLsbD n = true → (t.ports.get p).msix = BitVec.ofNat 5 n :: (s.ports.get p).msix ∧
        (t.ports.get p).pba = (s.ports.get p).pba) ∧
      ((s.ports.get p).msixOpen.getLsbD n = false → (t.ports.get p).msix = (s.ports.get p).msix ∧
        ∀ i, i < 32 → (t.ports.get p).pba.getLsbD i = (decide (i = n) || (s.ports.get p).pba.getLsbD i)) ∧
      (∀ m, m ≠ n → cqOf t p m = cqOf s p m) ∧ ∀ m, sqOf t p m = sqOf s p m) ∧
    ∀ (c : Instr) (ofData : Bool), (c = .dmaError p ⟨q, ofData⟩ ∨ c = .dmaTimeout p ⟨q, ofData⟩) →
      let halted := fun (t : State) => sqOf t p n = (if sq.enabled then { sq with halt := .dma, half := none } else sq) ∧
        (∀ m, m ≠ n → sqOf t p m = sqOf s p m) ∧ ∀ m, cqOf t p m = cqOf s p m
      let late := c = .dmaTimeout p ⟨q, ofData⟩ ∧ runs s p.ringLane = true
      (runs s p.ringLane = false ∨ (ofData = false ∧ sq.enabled = false) ∨ (ofData = true ∧ movingData s p n = none) →
        ∃ t, exec c s = .next t ∧ (¬ late → t = s) ∧ (late → ∃ x y, t = modPort s p (fun z => { z with devErr := x, aerUncorrectable := y }))) ∧
      (late → ∃ t, exec c s = .next t ∧ (t.ports.get p).devErr.getLsbD 1 = true ∧ (t.ports.get p).aerUncorrectable.getLsbD 14 = true) ∧
      (runs s p.ringLane = true → ofData = false → sq.enabled = true →
        ∃ t, exec c s = .next t ∧ changesOnly [.eic, .ports] s t ∧ halted t) ∧
      (runs s p.ringLane = true → ofData = true → ∀ x, movingData s p n = some x →
        ∃ t, exec c s = .next t ∧ changesOnly [.eic, .chk, .mbx, .ports] s t ∧ halted t ∧
          (∀ l, ∀ y ∈ (lane t l).mbx.taken, y.ref ≠ x.ref) ∧
          ∃ l, ∃ z ∈ (lane t l).mbx.composed, z.ref = x.ref ∧ z.status = 0x3E ∧
            z.result.toNat % 2 ^ 40 = stageTaken s x % 2 ^ 40)

/-! ### Descriptors and completions of the hosts (R303 to R320) -/

/-- R306 to R309, R311: an authorised descriptor is taken with the AUTH_EXT that follows it, as one, also where the AUTH_EXT slot comes
alone after it; every lane whose service core runs judges a descriptor by the checks in their order; a refusal is completed with
its status, and from check 5 on it consumes the number; an accepted one is taken and consumes its number, and an authorised one
writes its nonce. -/
def Obligations.HostDescriptors : Prop :=
  ∀ (s : State) (p : Port) (q : Fin 16) (d : BitVec 512) (x : Option (BitVec 512)),
    let sq := sqOf s p q.val
    let r := refOf s p q d
    let e := (cqOf s p sq.cq.toNat).epoch
    let n := if x.isSome then 2 else 1
    (∀ c, (takesChecked c p q d x ∧ mayTake s p q d) ∨ takesSecond c s p q d x → n ≤ sqWaiting sq → ∃ t, exec c s = .next t ∧
      changesOnly [.mbx, .ports, .lifetime, .log] s t ∧ t.cellar.log = s.cellar.log ∧
      sqOf t p q.val = { sq with head := advance sq sq.head n, half := none } ∧
      (∀ m, m ≠ q.val → sqOf t p m = sqOf s p m) ∧ (∀ m, cqOf t p m = cqOf s p m) ∧
      (∀ o, o ≠ p → t.ports.get o = s.ports.get o) ∧
      (∀ l, (runs s l = false → lane t l = lane s l) ∧ (runs s l = true →
        let a := (lane s l).mbx
        let b := (lane t l).mbx
        (∀ st k, checkSlots s l p q.val d x = .refuse st k → b.taken = a.taken ∧
          b.composed = a.composed ++ [completionOf (epochNow s) r e false k (refusal r d st)] ∧ (k = false → b.ledgers = a.ledgers) ∧
          (k = true → (ledgerOf (lane t l) p q.val).last = some (dSeq d))) ∧
        (checkSlots s l p q.val d x = .take → b.taken = a.taken ++ [takenOf r d e x false] ∧ b.composed = a.composed ∧
          (ledgerOf (lane t l) p q.val).last = some (dSeq d)) ∧
        ∀ g, checkSlots s l p q.val d x = .replay g → b.ledgers = a.ledgers ∧
          (g.done = false → b.taken = a.taken ++ [takenOf r d e x true] ∧ b.composed = a.composed) ∧
          (g.done = true → b.taken = a.taken ∧ b.composed = a.composed ++ [completionOf (epochNow s) r e true true
            { status := g.status.toNat, term := g.term.toNat, cycle := g.cycle, time := g.time, result := g.result }]))) ∧
      (x = none → t.cellar = s.cellar) ∧
      ∀ y, x = some y → bothFailed s.cellar = false → s.cellar.life.nonceLast.toNat < dget y 8 8 →
        (∃ l, runs s l = true ∧ nonceTaken (checkSlots s l p q.val d x) = true) → t.cellar.life.nonceLast.toNat = dget y 8 8) ∧
    ∀ l, let v := checkSlots s l p q.val d x
      let f := seqCheck (ledgerOf (lane s l) p q.val) (dSeq d) (dCode d)
      (slotsOk d x = false → v = .refuse 0x37 false) ∧
      (slotsOk d x = true → slotCode (hostSid s p) d ≠ dget d 0x38 8 → v = .refuse 0x31 false) ∧
      (slotsOk d x = true → slotCode (hostSid s p) d = dget d 0x38 8 →
        (dEpoch d ≠ epochNow s → v = .refuse 0x30 false) ∧
        (dEpoch d = epochNow s →
          (f = .conflict → v = .refuse 0x33 false) ∧ (f = .window → v = .refuse 0x32 false) ∧ (∀ g, f = .again g → v = .replay g) ∧
          (f = .fresh →
            (timeOk s d = false → v = .refuse 0x34 true) ∧
            (timeOk s d = true → ∀ st, authCheck s d x = some st → v = .refuse st true) ∧
            (timeOk s d = true → authCheck s d x = none →
              (activeOnly (dClass d) = true → roleActive s = false → v = .refuse 0x38 true) ∧
              ((activeOnly (dClass d) = false ∨ roleActive s = true) →
                (stateAllows s (dClass d) = false → v = .refuse 0x1C true) ∧ (stateAllows s (dClass d) = true → v = .take))))))

/-- R305, R308, R314, R316, R319, R320, R324, R414: the SQs are served in turn, up to 8 descriptors each; a read goes to host memory before its completion, which the ring lane alone
composes and which names the cycle of the data, the copies found bad in the Cellar aside; a fence holds its SQ until its own completion is written; a completion goes to the tail of its CQ, in every lane it is done with, and the phase turns when
the tail wraps. -/
def Obligations.ReadsAndCompletions : Prop :=
  ∀ (s : State) (p : Port) (q : Fin 16) (d : BitVec 512),
    let sq := sqOf s p q.val
    let r := refOf s p q d
    let e := (cqOf s p sq.cq.toNat).epoch
    let w := p.ringLane
    (sqServed s p q = true ↔ sqReady s p q.val = true ∧ (((s.ports.get p).turnSq = q ∧ 0 < (s.ports.get p).turnLeft) ∨
      nextSq s p = some q)) ∧
    (∀ o, nextSq s p = some o → sqReady s p o.val = true) ∧
    (∀ c, takesUnchecked c p q d → mayTake s p q d → (∀ l, l ≠ w → ∃ t, exec c s = .next t ∧ lane t l = lane s l) ∧
      (∀ st, (slotsOk d none = false ∧ st = 0x37) ∨ (slotsOk d none = true ∧ dEpoch d ≠ epochNow s ∧ st = 0x30) →
        ∃ t, exec c s = .next t ∧ changesOnly [.mbx, .ports, .log] s t ∧ t.cellar.log = s.cellar.log ∧
          sqOf t p q.val = { sq with head := advance sq sq.head 1 } ∧
          (lane t w).mbx = { (lane s w).mbx with composed := (lane s w).mbx.composed ++ [completionOf (epochNow s) r e false false (refusal r d st)] }) ∧
      (slotsOk d none = true → dEpoch d = epochNow s →
        (dClass d = 0x10 → ∃ t ws, exec c s = .next t ∧ changesOnly [.eic, .chk, .mbx, .ports, .hostMem, .free] s t ∧
          t.hostMem = .data p (BitVec.ofNat 64 (dget d 0x28 8)) ws :: s.hostMem ∧
          ws = (List.range (dget d 0x20 4 / 4)).map (fun i => imageWord s w (dget d 0x18 1) (dget d 0x1C 4 / 4 + i)) ∧
          ∃ res, (lane t w).mbx = { (lane s w).mbx with composed := (lane s w).mbx.composed ++ [completionOf (epochNow s) r e false false
            { status := 0x05, term := 0x7F, cycle := s.mod.cycle, time := s.mod.tickTime, result := res }] } ∧
            res.toNat % 2 ^ 96 = dget d 0x20 4 + 2 ^ 32 * (imageCycle s w (dget d 0x18 1)).toNat) ∧
        (dClass d = 0x11 → ∃ t ws, exec c s = .next t ∧ changesOnly (records ++ [.chk, .mbx, .hostMem, .free]) s t ∧
          t.hostMem = .data p (BitVec.ofNat 64 (dget d 0x30 8)) ws :: s.hostMem ∧
          ∃ res, (lane t w).mbx = { (lane s w).mbx with composed := (lane s w).mbx.composed ++ [completionOf (epochNow s) r e false false
            { status := 0x05, term := 0x7F, cycle := s.mod.cycle, time := s.mod.tickTime, result := res }] }) ∧
        (dClass d = 0x30 → ∃ t, exec c s = .next t ∧ changesOnly [.mbx, .ports] s t ∧ (sqOf t p q.val).fenced = some r.order ∧
          (∀ y ∈ (lane t w).mbx.taken, y ∈ (lane s w).mbx.taken ∨ y = takenOf r d e none false)))) ∧
    ((runs s w = false ∨ (s.ports.get p).linkUp = false ∨ (s.ports.get p).paused = true) → exec (.completionWrite p) s = .next s) ∧
    (runs s w = true → (s.ports.get p).linkUp = true → (s.ports.get p).paused = false →
      (∀ l, ∀ c ∈ (lane s l).mbx.composed, c.ref.port = p → cqContinuous s c = true) → ∀ c, nextCompletion s p = some c →
      let cq := cqOf s p c.ref.cq.val
      ∃ t, exec (.completionWrite p) s = .next t ∧ changesOnly (records ++ [.mbx, .lifetime, .hostMem]) s t ∧
        t.hostMem = .completion p c.ref.cq cq.tail (completionBits s p c cq.phase) :: s.hostMem ∧
        (cqOf t p c.ref.cq.val).tail = advance cq cq.tail 1 ∧ (cqOf t p c.ref.cq.val).head = cq.head ∧
        (cqOf t p c.ref.cq.val).phase = (if advance cq cq.tail 1 = 0 then !cq.phase else cq.phase) ∧
        (∀ m, m ≠ c.ref.cq.val → cqOf t p m = cqOf s p m) ∧
        (∀ m, (sqOf t p m).fenced = if c.ref.cls = 0x30 ∧ m = c.ref.sq.val ∧ (sqOf s p m).fenced = some c.ref.order then none
          else (sqOf s p m).fenced) ∧
        (0x30 ≤ c.status.toNat → t.cellar.life.refuse.get p = satInc (s.cellar.life.refuse.get p)))

/-! ### Start-up, keys and restarts (R24, R307, R449, R472 to R475, R482, R484) -/

/-- R24, R449, R472: a boot that fails goes to the other slot, and a second one in a row to the ROM; the firmware that starts puts the
lane into TEST, its links no longer reported as timed out or in reset; a lane that passes the start-up tests has them done, or is RETIRED
again where it was; one that fails is isolated with the cause of its test, or stays RETIRED. -/
def Obligations.LanesStart : Prop :=
  ∀ (l : Lane) (s : State),
    (lst s l ≠ .boot → exec (.bootFailed l) s = .next s ∧ ∀ x : FirmwareBoot, x.lane = l → exec (.firmwareStart x) s = .next s) ∧
    (lst s l = .boot → (lane s l).life.rom = false → laneHeld (lane s l) = false → s.mod.st ≠ .off →
      ((lane s l).boot.failed = 0 → ∃ t, exec (.bootFailed l) s = .next t ∧ lst t l = .boot ∧ (lane t l).life.rom = false ∧
        (lane t l).life.resetCause = 7 ∧ (lane t l).boot.failed = 1 ∧ (lane t l).boot.slot = (!(lane s l).boot.slot) ∧
        slotState (lane t l).boot (lane s l).boot.slot = .rejected ∧ ∀ m, m ≠ l → lst t m = lst s m) ∧
      (1 ≤ (lane s l).boot.failed → ∃ t, exec (.bootFailed l) s = .next t ∧ lst t l = .boot ∧ (lane t l).life.rom = true ∧
        (lane t l).boot.slot = (lane s l).boot.slot ∧ slotState (lane t l).boot (lane s l).boot.slot = .rejected ∧
        ∀ m, m ≠ l → lst t m = lst s m) ∧
      ∀ x : FirmwareBoot, x.lane = l → ∃ t, exec (.firmwareStart x) s = .next t ∧ lst t l = .test ∧ (lane t l).life.entry = .fromBoot ∧
        (lane t l).life.testsDone = false ∧ (lane t l).boot.failed = 0 ∧ (∀ m, m ≠ l → lst t m = lst s m) ∧
        (∀ m, let y := s.sluices.get m
          t.sluices.get m = { y with linkTimedOut := vput y.linkTimedOut l.idx false, linkReset := vput y.linkReset l.idx false }) ∧
        t.field = s.field ∧ t.alk = s.alk) ∧
    (lst s l = .test → (lane s l).life.entry = .fromBoot → (lane s l).life.testsDone = false → ∀ (x : StartTests) reps r, x.lane = l →
      let v := testVerdict { (lane s l).bist with trigger := 2, result := 0, repairs := s.cellar.life.repairs.get l }
        { result := r, repairs := reps }
      let marked := (s.cellar.life.lanes.get l).retired
      ((∃ a, r = .dramFail a) → exec (.laneTestDone x r reps) s = .next s) ∧
      ((∀ a, r ≠ .dramFail a) →
        (v.2 = .pass → ∃ t, exec (.laneTestDone x r reps) s = .next t ∧ (marked = true → lst t l = .retired) ∧
          (marked = false → lst t l = .test ∧ (lane t l).life.testsDone = true) ∧ ∀ m, m ≠ l → lst t m = lst s m) ∧
        (v.2 ≠ .pass → marked = true → ∃ t, exec (.laneTestDone x r reps) s = .next t ∧ lst t l = .retired ∧
          ∀ m, m ≠ l → lst t m = lst s m) ∧
        (v.2 ≠ .pass → marked = false → ∃ u t, exec (.laneTestDone x r reps) s = .next t ∧ (∀ m, lst u m = lst s m) ∧
          LaneOut u l (bistCause v.2) t)))

/-- R14, R20, R307, R473, R482, R484, R485: where fewer than two lanes reach SYNC in time the latches set and the module is in SAFE; the first key
is installed in COMMISSIONING with the SERIAL of page 0, a later one under the key in force (that KEY_VERSION stops at 65,535 is the model's choice, log entry 52);
an authorised restart resets the module into BOOT, and one that
names a vintage that no store holds, or a restart in BOOT, is refused. -/
def Obligations.LimitsKeysRestarts : Prop :=
  ∀ s : State,
    (s.mod.st = .boot → (reachedSync s).length < 2 → (∀ l, (lane s l).life.rom = false) → ∃ t, exec .bootLimit s = .next t ∧
      t.mod.st = .safe ∧ ∀ l, (t.sluices.get l).latch = true) ∧
    ((s.mod.st ≠ .boot ∨ 2 ≤ (reachedSync s).length) → exec .bootLimit s = .next s) ∧
    (∀ key a, s.cellar.life.keyVersion = 0 →
      (s.mod.st = .commissioning → ∃ t, exec (.keyInstall key s.cellar.life.serial a) s = .next t ∧
        changesOnly (records ++ [.lifetime]) s t ∧ t.cellar.life.key = key ∧ t.cellar.life.keyVersion = 1 ∧ t.cellar.life.nonceLast = 0) ∧
      ∀ n, n ≠ s.cellar.life.serial ∨ s.mod.st ≠ .commissioning → exec (.keyInstall key n a) s = .next s) ∧
    (∀ key a b, s.cellar.life.keyVersion ≠ 0 → (inService s.mod.st = true ∨ s.mod.st = .commissioning) →
      (authOk s a = false → exec (.keyInstall key b a) s = .next s) ∧
      (authOk s a = true → ∃ t, exec (.keyInstall key b a) s = .next t ∧ changesOnly (records ++ [.lifetime]) s t ∧
        t.cellar.life.key = key ∧ t.cellar.life.nonceLast = 0 ∧
        t.cellar.life.keyVersion = (if s.cellar.life.keyVersion = 0xFFFF then 0xFFFF else s.cellar.life.keyVersion + 1))) ∧
    ∀ a into, s.mod.st ≠ .off →
      (authOk s a = false → exec (.restart a into) s = .next s) ∧
      (authOk s a = true → (s.mod.st = .boot ∨ (into ≠ 0 ∧ storeHolds s into = false)) → ∃ t, exec (.restart a into) s = .next t ∧
        changesOnly (records ++ [.lifetime]) s t ∧ t.cellar.life.nonceLast = a.nonce) ∧
      (authOk s a = true → s.mod.st ≠ .boot → (into = 0 ∨ storeHolds s into = true) → ∃ t, exec (.restart a into) s = .next t ∧
        t.mod.st = .boot ∧ (∀ l, lst t l = .boot ∧ (lane t l).press = Press.reset ∧ (lane t l).life.resetCause = (if into = 0 then 4 else 10) ∧
          (t.sluices.get l).latch = false) ∧ t.field = { s.field with downErr := 0 } ∧ t.hostMem = s.hostMem ∧
        (into ≠ 0 → t.cellar.life.restartInto = into) ∧
        (∀ k, s.cellar.keeper = some k → runs s k = true → s.mod.st = .safe →
          t.cellar.life.restarts = satInc s.cellar.life.restarts))

/-! ### Staging, racking and recovery (R426 to R453) -/

/-- R20, R431, R432, R433, R436, R439, R442, R443, R447, R448, R451, R452: a first chunk opens the staging in the lanes that keep it, and a chunk out
of order is refused; data too short leaves the banks as they are; a verification ends STAGED in the lanes that find the image good and agree, and EMPTY with its reason in the
others; a firmware chunk in order is taken; a built image that is good switches the boot slot and resets the lane, or is parked; a switch exchanges the banks; an hour later the
previous vintage has gone; the ROM takes an image that it accepts, writes both slots and resets the lane, and the last lane to leave its ROM takes the module from
RECOVERY to BOOT. That a first chunk may overtake a verification is the model's reading (log entry 25), DONE in UPD_ROM_STATUS its choice (log entry 83). -/
def Obligations.StagingAndRacking : Prop :=
  let nextFed := fun (s : State) (p : Port) (q : Fin 16) (d : BitVec 512) (r : HostRef) (t : Taken) =>
    waitingRef s p q d = some r ∧ takenRef s r = some t ∧ t.feed ≠ .fed ∧
    ∀ r' ∈ stageRefs s p q.val, r' ≠ r → ∀ t', takenRef s r' = some t' → t'.feed = .fed ∨ t'.data = none
  (∀ (p : Port) (q : Fin 16) (d : BitVec 512) (bs : List Byte) (parts : Option Vintage) (s : State) (r : HostRef) (t : Taken),
    (dClass d ≠ 0x20 → exec (.stageProgram p q d bs parts) s = .next s) ∧
    (dClass d = 0x20 → nextFed s p q d r t → t.desc = d → t.ref.cls = 0x20 →
      let b := refBank s
      (t.started = false → ∃ u, exec (.stageProgram p q d bs parts) s = .next u ∧ changesOnly [.mbx] s u) ∧
      (t.started = true → bs.length < chunkLen d → ∃ u, exec (.stageProgram p q d bs parts) s = .next u ∧
        changesOnly [.eic, .chk, .mbx, .ports] s u) ∧
      (t.started = true → bs.length = chunkLen d → ∃ u, exec (.stageProgram p q d bs parts) s = .next u ∧
        changesOnly (records ++ [.chk, .mbx, .bank]) s u ∧
        (chunkOff d ≠ 0 → (b.verifying = true ∨ b.st ≠ .receiving ∨ b.number.toNat ≠ dget d 0x18 4 ∨ b.bytes ≠ chunkOff d) →
          ∀ l, (lane u l).bank = (lane s l).bank) ∧
        (chunkOff d = 0 → chunkLast d = false → chunkLen d ≤ 25165824 → keepsStage s (refLane s) = true → ∀ l,
          (keepsStage s l = true → (lane u l).bank.st = .receiving ∧ (lane u l).bank.number = BitVec.ofNat 32 (dget d 0x18 4) ∧
            (lane u l).bank.bytes = chunkLen d ∧ (lane u l).bank.received = bs ∧ (lane u l).bank.verifying = false ∧
            (lane u l).bank.active = (lane s l).bank.active) ∧
          (keepsStage s l = false → (lane u l).bank.st = .empty ∧ (lane u l).bank.active = (lane s l).bank.active))))) ∧
  (∀ (errors : PerLane (BitVec 64)) (ok : PerLane Bool) (s : State), ∃ u, exec (.vintageStaged errors ok) s = .next u ∧
    changesOnly (records ++ [.clock, .mbx, .bank, .lifetime]) s u ∧
    ∀ l, ((lane s l).bank.verifying = false → (lane u l).bank = (lane s l).bank) ∧
      ((lane s l).bank.verifying = true → keepsStage s l = false → (lane u l).bank.st = .empty) ∧
      ((lane s l).bank.verifying = true → keepsStage s l = true →
        let own := fun m => laneReason s m (errors.get m)
        let value := fun m => laneValue s m (errors.get m)
        let agreed := ∀ m, keepsStage s m = true → (lane s m).bank.verifying = true ∧ own m = 0 ∧ value m = value l
        let empty := fun r => (lane u l).bank.st = .empty ∧ (lane u l).bank.staged = none ∧ (lane u l).bank.reason = BitVec.ofNat 8 r
        (own l ≠ 0 → empty (own l)) ∧ (own l = 0 → ¬ agreed → empty 7) ∧ (agreed → ok.get l = false → empty 8) ∧
        (agreed → ok.get l = true → ∃ v, stagedVintage (lane s l).bank = some v ∧ (lane u l).bank.st = .staged ∧
          (lane u l).bank.staged = some v ∧ (lane u l).bank.number = v.number ∧ (lane u l).bank.stagedCheck = value l ∧
          (lane u l).bank.active = (lane s l).bank.active))) ∧
  (∀ (p : Port) (q : Fin 16) (d e : BitVec 512) (bs : List Byte) (x : Option Bool) (s : State) (r : HostRef) (t : Taken),
    (dClass d ≠ 0x21 → exec (.stageFirmware p q d e bs x) s = .next s) ∧
    (dClass d = 0x21 → nextFed s p q d r t → t.desc = d → t.ref.cls = 0x21 → t.started = true →
      bs.length = chunkLen d → let l := fwLane d
      let b := (lane s l).boot
      ((b.update.isSome = true ∨ (chunkOff d ≠ 0 ∧ (b.taking = false ∨ b.deltaBytes ≠ chunkOff d))) → ∃ u,
        exec (.stageFirmware p q d e bs x) s = .next u ∧ changesOnly [.eic, .chk, .mbx, .ports] s u) ∧
      (b.update = none → (chunkOff d = 0 ∨ (b.taking = true ∧ b.deltaBytes = chunkOff d)) → chunkLast d = false →
        chunkOff d + chunkLen d ≤ 12582912 → ∃ u,
        exec (.stageFirmware p q d e bs x) s = .next u ∧ changesOnly [.eic, .chk, .mbx, .ports, .boot] s u ∧
        (∀ m, m ≠ l → (lane u m).boot = (lane s m).boot) ∧
        (lane u l).boot = { b with
          deltaBytes := chunkOff d + chunkLen d, taking := true
          delta := (if chunkOff d = 0 then [] else b.delta) ++ bs }))) ∧
  (∀ (l : Lane) (signed wrote : Bool) (s : State),
    ((lane s l).boot.update = none → exec (.imageBuildDone l signed wrote) s = .next s) ∧
    (∀ d t, (lane s l).boot.update = some (d, t) → (lane s l).boot.step = 3 → lst s l = .isolated → (lane s l).life.planned = .update →
      let b := (lane s l).boot
      let new := builtImage b.image b.delta
      let good := signed && decide (crcOf crc64 new = d.newCheck.toNat)
      ((good && wrote) = false → ∃ u, exec (.imageBuildDone l signed wrote) s = .next u ∧ (lane u l).boot.update = none ∧
        (lane u l).boot.reason = (if good then 8 else 0x0D) ∧ (lane u l).life.planned = .none ∧ lst u l = .isolated) ∧
      ((good && wrote) = true → d.park = true → ∃ u, exec (.imageBuildDone l signed wrote) s = .next u ∧ lst u l = .test ∧
        (lane u l).boot.slot = b.slot ∧ slotState (lane u l).boot (!b.slot) = .parked ∧ (lane u l).boot.image = b.image ∧
        (lane u l).boot.otherImage = new) ∧
      ((good && wrote) = true → d.park = false → ∃ u, exec (.imageBuildDone l signed wrote) s = .next u ∧ lst u l = .boot ∧
        (lane u l).life.resetCause = 6 ∧ (lane u l).boot.slot = (!b.slot) ∧ (lane u l).press = Press.reset ∧
        slotState (lane u l).boot (!b.slot) = .valid ∧ (lane u l).boot.image = new ∧ (lane u l).boot.otherImage = b.image ∧
        ∀ m, m ≠ l → lst u m = lst s m))) ∧
  (∀ (l : Lane) (s : State),
    (((lane s l).bank.rackTo = none ∨ s.mod.phase ≠ .input) → exec (.vintageSwitch l) s = .next s) ∧
    (∀ t back a b, (lane s l).bank.rackTo = some (t, back) → (lane s l).bank.active = some a → (lane s l).bank.staged = some b →
      s.mod.phase = .input → ∃ u, exec (.vintageSwitch l) s = .next u ∧
        changesOnly [.press, .raa, .sessions, .staging, .bank, .alk] s u ∧ (∀ m, m ≠ l → lane u m = lane s m) ∧
        (lane u l).bank.active = some b ∧ (lane u l).bank.staged = some a ∧ (lane u l).bank.number = a.number ∧
        (lane u l).bank.left = a.number ∧ (lane u l).bank.lapsed = none ∧
        (lane u l).bank.activeCheck = (lane s l).bank.stagedCheck ∧ (lane u l).bank.stagedCheck = (lane s l).bank.activeCheck ∧
        (lane u l).bank.expiry = timeAdd s.mod.tickTime 3600000000000 ∧
        (lane u l).press.data.q = (lane s l).press.data.q ∧ (lane u l).press.data.k.getLsbD 3 = true)) ∧
  (∀ s : State, ∃ u, exec .previousExpired s = .next u ∧ changesOnly [.bank] s u ∧ ∀ l,
    ((lane s l).bank.st = .previous → (lane s l).bank.expiry.toNat ≤ s.mod.tickTime.toNat →
      (lane u l).bank.st = .empty ∧ (lane u l).bank.staged = none ∧ (lane u l).bank.active = (lane s l).bank.active ∧
      (lane u l).bank.lapsed = some (lane s l).bank.number) ∧
    (((lane s l).bank.st ≠ .previous ∨ s.mod.tickTime.toNat < (lane s l).bank.expiry.toNat) → (lane u l).bank = (lane s l).bank)) ∧
  ∀ (l : Lane) (im : FwImage) (s : State),
    let given := fun (i : FwImage) (path : Byte) (c : Instr) => romIdle s l = true → ∃ u, exec c s = .next u ∧
      changesOnly (records ++ [.boot]) s u ∧
      (romReason s l i = 0 → (lane u l).boot = { (lane s l).boot with romStatus := 1, romImage := some (i, path) }) ∧
      (romReason s l i ≠ 0 → (lane u l).boot.romImage = none)
    (romIdle s l = false → exec (.updRomStart l im) s = .next s ∧ exec (.servicePortRomImage l im) s = .next s) ∧
    (∀ p, ringPort l = some p →
      given { im with data := im.data.take (lane s l).boot.romLen.toNat } (BitVec.ofNat 8 p.idx) (.updRomStart l im)) ∧
    (ringPort l = none → exec (.updRomStart l im) s = .next s) ∧
    given im 2 (.servicePortRomImage l im) ∧
    ((lane s l).boot.romImage = none → ∀ ok, exec (.romImageWritten l ok) s = .next s) ∧
    (∀ i path, (lane s l).boot.romImage = some (i, path) → (lane s l).life.rom = true →
      (∃ u, exec (.romImageWritten l true) s = .next u ∧ lst u l = .boot ∧ (lane u l).life.rom = false ∧
        (lane u l).life.resetCause = 8 ∧ (lane u l).boot.slot0 = i.version ∧ (lane u l).boot.slot1 = i.version ∧
        (lane u l).boot.st0 = .valid ∧ (lane u l).boot.st1 = .valid ∧ (lane u l).boot.image = i.data ∧
        (lane u l).boot.otherImage = i.data ∧ (lane u l).boot.romStatus = romWord 3 0 100 ∧ (∀ m, m ≠ l → lst u m = lst s m) ∧
        u.mod.st = (if decide (s.mod.st = .recovery) && Lane.list.all (fun m => decide (m = l) || !(lane s m).life.rom) then .boot
          else s.mod.st)) ∧
      ∃ u, exec (.romImageWritten l false) s = .next u ∧ changesOnly (records ++ [.boot]) s u ∧
        (lane u l).boot = { (lane s l).boot with romImage := none, romStatus := romWord 4 8 0 })

/-! ### The twin pair (R332 to R356) -/

/-- R92, R224, R331, R341, R342, R344, R347, R348, R353, R356: each lane judges its own copies of a TWIN frame and takes reference, entry words and
compare from the first that it accepts in a cycle; the port dies drop the module's own copies (R385); the state of the pair moves with the reference lane (the model's
reading, log entry 36): a stale frame gives it only the partner's role, one of the ACTIVE compares the digests, and two equal compares in a row pair a STANDBY, an unequal one unpairs it. A STANDBY_PAIRED whose
serving lanes, two of them at least, have heard nothing of the ACTIVE takes over with the next epoch, and K bit 6 is each lane's own
judgement; a handover swaps the roles under the next epoch, with the switches of the former ACTIVE open, and is refused where the partner
is not paired; a load marks every block, and fails after 23,352 cycles; a fourth failure in 24 h stops loads until an authorised
restart. -/
def Obligations.TwinPair : Prop :=
  ∀ s : State,
    let swapped := fun (x : TwinSt) (t : State) => changesOnly (records ++ [.press, .sluices, .twin, .lifetime]) s t ∧ t.twin.st = x ∧
      t.twin.epoch = s.twin.epoch + 1 ∧ t.cellar.life.roleEpoch = s.twin.epoch + 1
    (s.twin.st = .paired → s.mod.phase = .input → 2 ≤ (missedActive s).length → ∃ t, exec .takeover s = .next t ∧
      swapped .active t ∧ t.sluices = s.sluices ∧ t.cellar.life.takeovers = satInc s.cellar.life.takeovers ∧
      ∀ l, (lane t l).press.data.k.getLsbD 6 = !laneBit s.twin.lastActive l) ∧
    (s.twin.st = .paired → s.mod.phase = .input → ∀ l, missedActive s = [l] → ∃ t, exec .takeover s = .next t ∧
      changesOnly [.press] s t ∧ ∀ m, (lane t m).press.data.k.getLsbD 6 = decide (m = l)) ∧
    ((s.twin.st ≠ .paired ∨ s.mod.phase ≠ .input ∨ missedActive s = []) → exec .takeover s = .next s) ∧
    (∀ a, (authOk s a = false → exec (.handoverRequest a) s = .next s) ∧
      (authOk s a = true → ∃ t, exec (.handoverRequest a) s = .next t ∧ changesOnly (records ++ [.twin, .lifetime]) s t ∧
        t.cellar.life.nonceLast = a.nonce ∧ t.twin.st = s.twin.st ∧ t.twin.epoch = s.twin.epoch ∧
        t.twin.handover = (decide (s.twin.st = .active) && decide (s.twin.partner = 6)))) ∧
    (s.mod.phase = .input → (ownTwin s (refLane s)).isMatch = true →
      (s.twin.st = .active → s.twin.handoverSent = true → s.twin.partner = 6 → s.twin.seen = true → ∃ t,
        exec .handover s = .next t ∧ swapped .paired t ∧ t.twin.handover = false ∧
        t.cellar.life.handovers = satInc s.cellar.life.handovers ∧
        ∀ l, t.sluices.get l = { s.sluices.get l with now := 0 } ∧ (lane t l).press.data.k.getLsbD 6 = false) ∧
      (s.twin.st = .paired → s.twin.partnerHandover = true → laneBit s.twin.lastActive (refLane s) = true → ∃ t,
        exec .handover s = .next t ∧ swapped .active t ∧ t.sluices = s.sluices ∧
        t.cellar.life.handovers = satInc s.cellar.life.handovers ∧ ∀ l, (lane t l).press.data.k.getLsbD 6 = true)) ∧
    ((ownTwin s (refLane s)).isMatch = false → exec .handover s = .next s) ∧
    (s.twin.st = .active → s.twin.partner = 3 → s.twin.partnerLoadReq = true → s.twin.seen = true → s.twin.loadRun = false →
      s.mod.phase = .input →
      (s.twin.stopped = false → s.twin.retryAt.toNat ≤ s.mod.tickTime.toNat → ∃ t, exec .loadStart s = .next t ∧
        changesOnly [.twin] s t ∧ t.twin.loadRun = true ∧ t.twin.loadCycles = 0 ∧ (∀ i, i ∈ t.twin.marks ↔ i < 7784) ∧
        t.twin.st = .active ∧ t.twin.epoch = s.twin.epoch) ∧
      ((s.twin.stopped = true ∨ s.mod.tickTime.toNat < s.twin.retryAt.toNat) → exec .loadStart s = .next s)) ∧
    (s.twin.loadRun = true → 23352 ≤ s.twin.loadCycles → ∃ t, exec .loadFail s = .next t ∧
      changesOnly (records ++ [.twin, .lifetime]) s t ∧ t.twin.loadRun = false ∧ t.twin.marks = [] ∧
      t.twin.retryAt = timeAdd s.mod.tickTime 60000000000 ∧
      t.twin.stopped = (s.twin.stopped || decide (3 ≤ loadFailCount s))) ∧
    (s.twin.loadRun = false → s.twin.st = .loading → 23352 ≤ s.twin.loadCycles → ∃ t, exec .loadFail s = .next t ∧
      changesOnly (records ++ [.twin, .lifetime]) s t ∧ t.twin.st = .unpaired) ∧
    (s.twin.loadCycles < 23352 → exec .loadFail s = .next s) ∧
    (s.twin.retryAt ≠ 0 → s.twin.retryAt.toNat ≤ s.mod.tickTime.toNat → s.twin.stopped = false →
      exec .loadRetry s = .next { s with twin := { s.twin with retryAt := 0 } }) ∧
    (∀ a, s.twin.stopped = true →
      (authOk s a = false → exec (.loadRestart a) s = .next s) ∧
      (authOk s a = true → ∃ t, exec (.loadRestart a) s = .next t ∧ changesOnly (records ++ [.twin, .lifetime]) s t ∧
        t.twin = { s.twin with stopped := false, retryAt := 0 } ∧ t.cellar.life.nonceLast = a.nonce)) ∧
    ∀ (l : Lane) (rx : RxFrame),
      let f := rx.frame
      let fl := tFlags f
      let others := fun (t : State) => ∀ m, m ≠ l → ownTwin t m = ownTwin s m
      let comes := twinListens s = true ∧ mediumUsed s rx.seg rx.medium = true ∧ laneBit s.twin.gotNow l = false
      let entries := parseWords (tCount f) ((f.payload.drop 0x20).take (8 * tCount f))
      ((txDis s rx.seg rx.medium = true ∨ s.alk.node = .down) → exec (.twin l rx) s = .next s) ∧
      (txDis s rx.seg rx.medium = false → s.alk.node ≠ .down →
      (portDrops s f = true → ∃ t, exec (.twin l rx) s = .next t ∧ changesOnly [.alk] s t) ∧
      (portDrops s f = false →
      (l ≠ refLane s →
        ((¬ comes ∨ twinAccepted s l rx = false) → exec (.twin l rx) s = .next s) ∧
        (comes → twinAccepted s l rx = true →
          (f.epoch ≠ s.twin.epoch → ∃ t, exec (.twin l rx) s = .next t ∧ changesOnly [.twin] s t ∧ others t ∧
            laneBit t.twin.gotNow l = true ∧ t.twin.st = s.twin.st ∧ t.twin.partner = s.twin.partner ∧
            ownTwin t l = { ownTwin s l with rxSeq := some f.sequence, silent := 0, words := [] }) ∧
          (f.epoch = s.twin.epoch → f.flags.getLsbD 0 = true → ∀ m, cycleImage s = some m →
            (s.twin.st = .active → ∃ t, exec (.twin l rx) s = .next t ∧ changesOnly [.twin] s t ∧ others t ∧
              t.twin.st = .active ∧ (ownTwin t l).isMatch = twinEqual m f ∧ (ownTwin t l).rxSeq = some f.sequence) ∧
            ((s.twin.st = .checking ∨ s.twin.st = .paired) → (ownTwin s l).loading = false → fl.getLsbD 3 = false →
              ∃ t, exec (.twin l rx) s = .next t ∧ changesOnly [.twin] s t ∧ others t ∧ t.twin.st = s.twin.st ∧
              (ownTwin t l).isMatch = twinEqual m f ∧ (ownTwin t l).words = entries)))) ∧
      (l = refLane s → laneBit s.twin.gotNow l = true → fcsGood f = true → knownType f = true → ∃ t,
        exec (.twin l rx) s = .next t ∧ changesOnly [.alk] s t) ∧
      (l = refLane s → comes →
        (twinAccepted s l rx = false → ∃ t, exec (.twin l rx) s = .next t ∧
          changesOnly (records ++ [.alk, .twin, .lifetime, .free]) s t ∧ t.twin = { s.twin with rejected := satInc s.twin.rejected } ∧
          (twinForm s rx = true → inSlot (twinDev s rx) = false →
            t.cellar.life.timingTotal = satInc s.cellar.life.timingTotal)) ∧
        (twinAccepted s l rx = true → f.epoch ≠ s.twin.epoch → ∃ t, exec (.twin l rx) s = .next t ∧ changesOnly [.alk, .twin] s t ∧
          t.twin.stale = satInc s.twin.stale ∧ t.twin.st = s.twin.st ∧ (ownTwin t l).words = [] ∧ t.twin.partnerEpoch = f.epoch ∧
          t.twin.partner = BitVec.ofNat 4 (tState f) ∧ (ownTwin t l).rxSeq = some f.sequence ∧ t.twin.epoch = s.twin.epoch ∧ others t) ∧
        (twinAccepted s l rx = true → f.epoch = s.twin.epoch → f.flags.getLsbD 0 = true → ∀ m, cycleImage s = some m →
          (s.twin.st = .active → ∃ t, exec (.twin l rx) s = .next t ∧ changesOnly [.alk, .twin] s t ∧ t.twin.st = .active ∧
            (ownTwin t l).isMatch = twinEqual m f) ∧
          (s.twin.st = .checking → (ownTwin s l).loading = false → fl.getLsbD 3 = false → ∃ t, exec (.twin l rx) s = .next t ∧
            changesOnly (records ++ [.alk, .twin]) s t ∧
            t.twin.st = (if twinEqual m f then (if 1 ≤ (ownTwin s l).matchRun then .paired else .checking) else .unpaired) ∧
            (ownTwin t l).words = entries) ∧
          (s.twin.st = .paired → (ownTwin s l).loading = false → fl.getLsbD 3 = false → ∃ t, exec (.twin l rx) s = .next t ∧
            changesOnly (records ++ [.alk, .twin]) s t ∧ t.twin.st = (if twinEqual m f then .paired else .unpaired) ∧
            (ownTwin t l).words = entries) ∧
          ((s.twin.st = .unpaired ∨ (s.twin.st = .loading ∧ (ownTwin s l).loading = true)) → fl.getLsbD 3 = true →
            payNat f (0x20 + 8 * tCount f) 4 % 8192 < 7784 →
            ∃ t, exec (.twin l rx) s = .next t ∧ t.twin.st = (if fl.getLsbD 4 then .checking else .loading))))))

/-! ### The cycle (R50 to R67, R79, R92, R166, R255, R323) -/

/-- R50, R54, R66, R79, R92, R166, R194, R323, R475, R484: the tick opens the cycle after the last one in its input phase and gives the lanes their
K bits; without an active vintage a module that has staged one restarts into it; each end of a phase opens the next phase, and only in its own; the Press starts at
END_INPUT with each strand at its first word; a lane with its logic-done mark has its image of the cycle at END_LOGIC; a vote still open at
END_VOTE is that of END_VOTE − 5 µs, and a reintegrating lane whose image is then still on its way is isolated; the status images go out after END_OUTPUT. -/
def Obligations.CyclePhases : Prop :=
  ∀ s : State,
    ((s.mod.ticking = false ∨ s.mod.st = .off) → exec .tick s = .next s) ∧
    (s.mod.ticking = true → s.mod.st ≠ .off → ∀ n, s.mod.restartTo = some n → ∃ t, exec .tick s = .next t ∧ t.mod.st = .boot ∧
      ∀ l, lst t l = .boot ∧ (lane t l).press = Press.reset ∧ (lane t l).life.resetCause = (if n = 0 then 4 else 10) ∧
        (t.sluices.get l).latch = false) ∧
    (s.mod.ticking = true → s.mod.st ≠ .off → s.mod.restartTo = none → ∃ t, exec .tick s = .next t ∧
      changesOnly (touches .tick) s t ∧ t.mod.phase = .input ∧ t.mod.ticking = true ∧
      t.mod.cycle = (if s.mod.firstTick then s.mod.cycle else s.mod.cycle + 1) ∧
      ∀ l, let k := (lane t l).press.data.k
        k.getLsbD 0 = false ∧ k.getLsbD 1 = true ∧ k.getLsbD 2 = (!(lane t l).press.hasRun) ∧ k.getLsbD 3 = false ∧
        k.getLsbD 4 = decide (t.mod.st = .svc2) ∧ k.getLsbD 5 = twinOn t ∧ k.getLsbD 6 = holdsActive t ∧ k.getLsbD 7 = confirmedNow t) ∧
    ((s.mod.ticking = false ∨ s.mod.phase ≠ .input) → exec .endInput s = .next s) ∧
    ((s.mod.ticking = false ∨ s.mod.phase ≠ .logic) → exec .endLogic s = .next s) ∧
    ((s.mod.ticking = false ∨ s.mod.phase ≠ .vote) → exec .endVote s = .next s) ∧
    ((s.mod.ticking = false ∨ s.mod.phase ≠ .output) → exec .endOutput s = .next s) ∧
    (s.mod.ticking = true →
      (s.mod.phase = .input → ∃ t, exec .endInput s = .next t ∧ changesOnly (touches .endInput) s t ∧ t.mod.phase = .logic ∧
        ∀ l, ((computes s l = false ∨ laneVintage s l = none) → (lane t l).press = (lane s l).press ∧ (lane t l).raa = (lane s l).raa) ∧
          (computes s l = true → laneVintage s l ≠ none → s.twin.st ≠ .loading → (lane t l).press.hasRun = true ∧ ∀ i : Fin 4,
            let y := strandOf (lane t l).press.strands i
            y.pc = 0 ∧ y.acc = 0 ∧ y.cog = false ∧ y.stack = [] ∧ y.running = decide (0 < segLen (lane s l) i) ∧
              y.ended = decide (segLen (lane s l) i = 0))) ∧
      (s.mod.phase = .logic → ∃ t, exec .endLogic s = .next t ∧ changesOnly (touches .endLogic) s t ∧ t.mod.phase = .vote ∧
        t.mod.cycle = s.mod.cycle ∧
        ∀ l v, computes t l = true → laneVintage t l = some v → doneInTime v (lane t l).press = true → ∃ m,
          (lane t l).link.image = some m ∧ (lane t l).link.codes = codesOf t v m l ∧ (lane t l).link.compared = false ∧
          (∀ n, (lane t l).link.rx.get n = { image := some m, codes := (lane t l).link.codes, complete := true, checkOk := false }) ∧
          m.cycle = s.mod.cycle ∧
          m.time = s.mod.tickTime ∧ m.vintage = v.number ∧ (lane t l).press.active = false) ∧
      (s.mod.phase = .vote → ∃ t u, exec .endVote s = .next t ∧ exec (.vote ⟨lastDecision s, []⟩) s = .next u ∧
        changesOnly (touches .endVote) s t ∧ t.mod.phase = .output ∧ t.mod.result = u.mod.result ∧
        (∀ l, mayOverrun u l = true → lst u l = .reintegrating → incomplete u l = true → lst t l = .isolated ∨ lst t l = .retired) ∧
        ((∀ l, mayOverrun u l = true → lst u l = .reintegrating → incomplete u l = false) → t.mod.st = u.mod.st ∧
          ∀ l, lst t l = lst u l ∧
            t.sluices.get l = { u.sluices.get l with codes := laneBits (fun l => (usableLanes u).contains l) })) ∧
      (s.mod.phase = .output → ∃ t, exec .endOutput s = .next t ∧ changesOnly (touches .endOutput) s t ∧ t.mod.phase = .idle ∧
        ∀ p, let x := s.ports.get p
          let writes := x.statusEn = true ∧ x.linkUp = true ∧ ringRuns s p = true ∧ x.paused = false
          (writes → (t.ports.get p).gen = satInc x.gen ∧ ∃ ws, HostWrite.status p x.statusBase (satInc x.gen) ws ∈ t.hostMem) ∧
          (¬ writes → (t.ports.get p).gen = x.gen)))

/-! ### Writes to the registers of a lane window (R10, R298, R299) -/

/-- R10, R295, R298, R299, R369, R378, R398, R451: a write to a lane that gives no answer does nothing, one that is not aligned is counted and
discarded, one to a register with a command of its own is that command, one to a selector sets it, one to a block of registers that
are read only changes nothing; a lane that runs its ROM takes the address and the length of the image through its own port, and from the service core by their place in
the whole window (the model's choice, log entry 83); BAR2 takes a write through its own port
alone, and not with its endpoint down. -/
def Obligations.RegisterWrites : Prop :=
  ∀ (a : RegAccess) (v : Word) (s : State),
    (throughRom s a = true →
      (∃ t, exec (.registerWrite a (.window 0x108) v) s = .next t ∧ changesOnly [.boot] s t ∧
        (lane t a.lane).boot = { (lane s a.lane).boot with romLen := v } ∧ ∀ m, m ≠ a.lane → lane t m = lane s m) ∧
      ∃ t, exec (.registerWrite a (.window 0x104) v) s = .next t ∧ changesOnly [.boot] s t ∧
        (lane t a.lane).boot.romAddr.toNat = (lane s a.lane).boot.romAddr.toNat % 2 ^ 32 + 2 ^ 32 * v.toNat) ∧
    (throughRom s a = false → a.port = none → romAnswers s a = true →
      ∃ t, exec (.registerWrite a (.window 0x9108) v) s = .next t ∧ changesOnly [.boot] s t ∧
        (lane t a.lane).boot = { (lane s a.lane).boot with romLen := v } ∧ ∀ m, m ≠ a.lane → lane t m = lane s m) ∧
    (throughRom s a = false → (a.port ≠ none ∨ romAnswers s a = false) → reaches s a = false → ∀ o, exec (.registerWrite a (.window o) v) s = .next s) ∧
    (throughRom s a = false → (a.port ≠ none ∨ romAnswers s a = false) → reaches s a = true →
      (∀ o : BitVec 20, o.toNat % 4 ≠ 0 → ∃ t, exec (.registerWrite a (.window o) v) s = .next t ∧ changesOnly [.ports] s t ∧
        ∀ p, (t.ports.get p).accessErr =
          (if a.port = some p then satInc (s.ports.get p).accessErr else (s.ports.get p).accessErr)) ∧
      (∀ o : BitVec 20, o.toNat % 4 = 0 → o.toNat < 0x7000 → o.toNat ≠ 0x4028 → o.toNat ≠ 0x5024 → exec (.registerWrite a (.window o) v) s = .next s) ∧
      (∃ t, exec (.registerWrite a (.window 0x4028) v) s = .next t ∧ changesOnly [.sessions] s t ∧
        lane t a.lane = { lane s a.lane with sessSel := v.setWidth 10 } ∧ ∀ m, m ≠ a.lane → lane t m = lane s m) ∧
      (∃ t, exec (.registerWrite a (.window 0x5024) v) s = .next t ∧ changesOnly [.fieldIn] s t ∧
        (lane t a.lane).fld = { (lane s a.lane).fld with outSel := v.setWidth 4 } ∧ ∀ m, m ≠ a.lane → lane t m = lane s m) ∧
      (∃ t, exec (.registerWrite a (.window 0x8028) v) s = .next t ∧ changesOnly [.staging] s t ∧
        (lane t a.lane).cel = { (lane s a.lane).cel with codeSel := v.setWidth 16 } ∧ ∀ m, m ≠ a.lane → lane t m = lane s m) ∧
      (∀ n : Fin 32, exec (.registerWrite a (.window (BitVec.ofNat 20 (0x11000 + 4 * n.val))) v) s = exec (.eicEnableSet a n v) s ∧
        exec (.registerWrite a (.window (BitVec.ofNat 20 (0x11080 + 4 * n.val))) v) s = exec (.eicEnableClr a n v) s ∧
        exec (.registerWrite a (.window (BitVec.ofNat 20 (0x11100 + 4 * n.val))) v) s = exec (.eicPendingSet a n v) s ∧
        exec (.registerWrite a (.window (BitVec.ofNat 20 (0x11180 + 4 * n.val))) v) s = exec (.eicPendingClr a n v) s) ∧
      (∀ u : Fin 64, exec (.registerWrite a (.window (BitVec.ofNat 20 (0x21000 + 64 * u.val))) v) s = exec (.chkUCtrl a u v) s ∧
        exec (.registerWrite a (.window (BitVec.ofNat 20 (0x21020 + 64 * u.val))) v) s = exec (.chkURun a u false v) s ∧
        exec (.registerWrite a (.window (BitVec.ofNat 20 (0x21024 + 64 * u.val))) v) s = exec (.chkURun a u true v) s ∧
        (v.getLsbD 1 = true → exec (.registerWrite a (.window (BitVec.ofNat 20 (0x2103C + 64 * u.val))) v) s = exec (.chkClose a u (v.getLsbD 0)) s)) ∧
      ∀ p, mbxPort a = some p → ringRuns s p = true →
        (∃ t, exec (.registerWrite a (.window 0x7004) v) s = .next t ∧ changesOnly [.ports] s t ∧
          t.ports.get p = { s.ports.get p with statusEn := v.getLsbD 0, linkHold := BitVec.ofNat 10 (field v 25 16) }) ∧
        ∃ t, exec (.registerWrite a (.window 0x7010) v) s = .next t ∧ changesOnly [.ports] s t ∧
          t.ports.get p = { s.ports.get p with ringSel := v.setWidth 5 }) ∧
    (∀ o, (a.port = none ∨ ∃ p, a.port = some p ∧ endpointUp s p = false) → exec (.registerWrite a (.bar2 o) v) s = .next s) ∧
    ∀ p, a.port = some p → endpointUp s p = true → ∀ o : BitVec 13, o.toNat % 4 = 0 →
      ∃ t, exec (.registerWrite a (.bar2 o) v) s = .next t ∧ changesOnly [.ports] s t ∧
        t.ports.get p = writeBar2 o v (s.ports.get p) ∧ t.ports.get p.other = s.ports.get p.other

/-! ### Rules of the whole module -/

/-- A step takes the command at the front of the queue and runs it with the queue's rest; an empty queue leaves the module as it is (the
model's choice, log entry 1). -/
def Obligations.StepRunsFront : Prop :=
  (∀ (c : Instr) (rest : List Instr) (s : State), s.pending = c :: rest → step s = exec c { s with pending := rest }) ∧
  ∀ s : State, s.pending = [] → step s = .next s

/-- R14, R19, R24, R78, R164, R177, R300, R332, R365: right after reset the module is in BOOT with every lane, no latch is set and no
switch driven, no Press runs, no element is seen and no route held, every ring is disabled, every source is idle and disabled, and nothing waits. -/
def Obligations.ResetState : Prop :=
  Inv State.reset ∧ State.reset.pending = [] ∧ State.reset.mod.st = .boot ∧ State.reset.mod.ticking = false ∧
  State.reset.twin.st = .none ∧ State.reset.hostMem = [] ∧
  (∀ l, lst State.reset l = .boot ∧ (lane State.reset l).press.active = false ∧ (lane State.reset l).raa.elems = [] ∧
    (lane State.reset l).raa.locks = [] ∧ (lane State.reset l).raa.queue = [] ∧ (lane State.reset l).sessions = [] ∧
    (lane State.reset l).mbx.taken = [] ∧ (lane State.reset l).life.cause = .none ∧
    (State.reset.sluices.get l).latch = false ∧ (State.reset.sluices.get l).now = 0 ∧ (State.reset.sluices.get l).next = 0 ∧
    ∀ k, (source State.reset l k).st = .idle ∧ (source State.reset l k).enabled = false ∧ (source State.reset l k).count = 0) ∧
  ∀ (p : Port) (q : Fin 16), (sqOf State.reset p q.val).enabled = false ∧ (cqOf State.reset p q.val).enabled = false

/-- The invariant holds from step to step: the data spaces of every Press keep their canonical form and the constant K bits read 0 and
1, no branch stack is deeper than 16, a Sluice whose latch is set drives no switch closed, no total of the MRAM lies above the keeper's, and the
retirements of the MRAM are those in force (R418). -/
def Obligations.StepKeepsInv : Prop := ∀ s t : State, Inv s → step s = .next t → Inv t

/-- Frame: a command changes at most the parts of the state that its row names, and never the queue. -/
def Obligations.FrameOfCommands : Prop :=
  ∀ (c : Instr) (s t : State), exec c s = .next t → changesOnly (touches c) s t ∧ t.pending = s.pending

/-- R14: whatever the command, a latch that is set stays set, unless the whole module has been reset: by a supply, RESET_N, an
authorised restart, or the restart that a tick carries out; every lane is then in BOOT, and the module in BOOT or in reset. -/
def Obligations.LatchHeldUntilRestart : Prop :=
  ∀ (c : Instr) (s t : State), exec c s = .next t → ∀ l, (s.sluices.get l).latch = true → (t.sluices.get l).latch = false →
    (c = .vdd3v3Reset ∨ c = .ioAnaReset ∨ c = .resetNLow ∨ (∃ a n, c = .restart a n ∧ authOk s a = true) ∨
      (c = .tick ∧ s.mod.restartTo ≠ none)) ∧
    (t.mod.st = .boot ∨ t.mod.st = .off) ∧ ∀ m, lst t m = .boot

/-- R28, R30, R69, R158, R196, R247, R328, R362, R418, R419, R424: no command lowers a lifetime total, except that a reset of the whole module falls back to
the totals that the keeper has written, and those never fall either (what a reset falls back to is the model's reading of R418, log entry 8); a lane's retirement, which
stands in the MRAM at once, ends only by an authorised clear of that lane, or, for a clear recorded in SAFE, by a reset of the whole module. -/
def Obligations.TotalsAndRetirementStay : Prop :=
  ∀ (c : Instr) (s t : State), exec c s = .next t →
    (c ≠ .vdd3v3Reset → c ≠ .ioAnaReset → c ≠ .resetNLow → (∀ a n, c = .restart a n → authOk s a = false) →
      (c = .tick → s.mod.restartTo = none) → TotalsUp s.cellar.life t.cellar.life) ∧
    (TotalsUp s.cellar.paged s.cellar.life → TotalsUp s.cellar.paged t.cellar.paged ∧ TotalsUp t.cellar.paged t.cellar.life) ∧
    (retirementsSaved s.cellar →
    ∀ l, (s.cellar.life.lanes.get l).retired = true → (t.cellar.life.lanes.get l).retired = false →
      (∃ a, c = .retirementClear l a ∧ authOk s a = true) ∨
      ((lane s l).life.clearPending = true ∧
        (c = .vdd3v3Reset ∨ c = .ioAnaReset ∨ c = .resetNLow ∨ (∃ a n, c = .restart a n) ∨ c = .tick)))
end

