-- ==== Sys2Proof/Laws/Sparse.lean ====
section
/-!
SUPPORT. The sparse maps and bit spaces: every write keeps the canonical form, a read after a write, equal contents are equal data.
-/

namespace Sys2Proof.Laws

open Sys2Proof.Machine

/-! ### Bit spaces -/

theorem bwf_cons (k : Nat) (r : BitSpace) : bwf (k :: r) = true ↔ (∀ j ∈ r, k < j) ∧ bwf r = true := by
  simp [bwf]

/-- A bit space is canonical where its indices rise strictly. -/
theorem bwf_iff (b : BitSpace) : bwf b = true ↔ b.Pairwise (· < ·) := by
  induction b with
  | nil => simp [bwf]
  | cons k r ih => rw [bwf_cons, ih, List.pairwise_cons]

theorem bget_mem (b : BitSpace) (i : Nat) : bget b i = true ↔ i ∈ b := List.contains_iff_mem

theorem mem_bset (b : BitSpace) (i j : Nat) : j ∈ bset b i ↔ j = i ∨ j ∈ b := by
  induction b with
  | nil => simp [bset]
  | cons k r ih =>
    unfold bset
    split
    · simp
    · split
      · next e => subst e; simp
      · simp only [List.mem_cons, ih]; exact or_left_comm

theorem mem_bclr (b : BitSpace) (i j : Nat) : j ∈ bclr b i ↔ j ≠ i ∧ j ∈ b := by
  simp [bclr, List.mem_filter, and_comm]

theorem bwf_filter {b : BitSpace} (h : bwf b = true) (p : Nat → Bool) : bwf (b.filter p) = true := by
  rw [bwf_iff] at *; exact h.filter p

theorem bwf_bset {b : BitSpace} (h : bwf b = true) (i : Nat) : bwf (bset b i) = true := by
  induction b with
  | nil => simp [bset, bwf]
  | cons k r ih =>
    obtain ⟨h1, h2⟩ := (bwf_cons k r).1 h
    unfold bset
    split
    · next e =>
      refine (bwf_cons _ _).2 ⟨fun j m => ?_, h⟩
      rcases List.mem_cons.1 m with rfl | m
      · exact e
      · exact Nat.lt_trans e (h1 j m)
    · split
      · exact h
      · refine (bwf_cons _ _).2 ⟨fun j m => ?_, ih h2⟩
        rcases (mem_bset r i j).1 m with rfl | m
        · omega
        · exact h1 j m

theorem bwf_bclr {b : BitSpace} (h : bwf b = true) (i : Nat) : bwf (bclr b i) = true := bwf_filter h _

theorem bwf_bput {b : BitSpace} (h : bwf b = true) (i : Nat) (v : Bool) : bwf (bput b i v) = true := by
  unfold bput; split
  · exact bwf_bset h i
  · exact bwf_bclr h i

/-- A read after a write of one bit. -/
theorem bget_bput (b : BitSpace) (i j : Nat) (v : Bool) : bget (bput b i v) j = if j = i then v else bget b j := by
  rw [Bool.eq_iff_iff, bget_mem]
  unfold bput
  by_cases e : j = i
  · subst e
    cases v
    · simp [mem_bclr]
    · simp [mem_bset]
  · cases v
    · simp [mem_bclr, e, bget_mem]
    · simp [mem_bset, e, bget_mem]

theorem bwf_range (n : Nat) : bwf (List.range n) = true := by rw [bwf_iff]; exact List.pairwise_lt_range

theorem bwf_bshift {b : BitSpace} (h : bwf b = true) (n : Nat) : bwf (bshift b n) = true := by
  rw [bwf_iff] at *
  unfold bshift
  exact List.pairwise_map.2 (h.imp (fun x => Nat.add_lt_add_right x n))

theorem bwf_brange {b : BitSpace} (h : bwf b = true) (lo hi : Nat) : bwf (brange b lo hi) = true := bwf_filter h _

theorem bwf_append {a b : BitSpace} (h : bwf a = true) (k : bwf b = true) (hab : ∀ i ∈ a, ∀ j ∈ b, i < j) : bwf (a ++ b) = true := by
  rw [bwf_iff] at *
  exact List.pairwise_append.2 ⟨h, k, hab⟩

/-- Replacing a range of bits keeps the canonical form. -/
theorem bwf_bpatch {b src : BitSpace} (h : bwf b = true) (k : bwf src = true) (lo hi : Nat) (hlh : lo ≤ hi) :
    bwf (bpatch b lo hi src) = true := by
  unfold bpatch
  refine bwf_append (bwf_append (bwf_filter h _) (bwf_brange k lo hi) ?_) (bwf_filter h _) ?_
  · intro i hi' j hj
    simp only [brange, List.mem_filter, Bool.and_eq_true, decide_eq_true_eq] at hi' hj
    omega
  · intro i hi' j hj
    simp only [brange, List.mem_append, List.mem_filter, Bool.and_eq_true, decide_eq_true_eq] at hi' hj
    omega

/-- A read after a range of bits was replaced. -/
theorem bget_bpatch (b src : BitSpace) (lo hi : Nat) (_hlh : lo ≤ hi) (i : Nat) :
    bget (bpatch b lo hi src) i = if lo ≤ i ∧ i < hi then bget src i else bget b i := by
  rw [Bool.eq_iff_iff, bget_mem]
  unfold bpatch brange
  simp only [List.mem_append, List.mem_filter, Bool.and_eq_true, decide_eq_true_eq]
  split
  · next e => rw [bget_mem]; constructor
              · rintro ((⟨_, x⟩ | ⟨x, _⟩) | ⟨_, x⟩)
                · omega
                · exact x
                · omega
              · exact fun x => Or.inl (Or.inr ⟨x, e⟩)
  · next e => rw [bget_mem]; constructor
              · rintro ((⟨x, _⟩ | ⟨_, x⟩) | ⟨x, _⟩)
                · exact x
                · exact absurd x e
                · exact x
              · intro x
                by_cases y : i < lo
                · exact Or.inl (Or.inl ⟨x, y⟩)
                · exact Or.inr ⟨x, by omega⟩

/-- Equal contents are equal data. -/
theorem bwf_ext {a b : BitSpace} (h : bwf a = true) (k : bwf b = true) (e : ∀ i, bget a i = bget b i) : a = b := by
  have mem : ∀ i, i ∈ a ↔ i ∈ b := fun i => by rw [← bget_mem, ← bget_mem, e i]
  rw [bwf_iff] at h k
  exact (List.perm_ext_iff_of_nodup (h.imp (fun x => Nat.ne_of_lt x)) (k.imp (fun x => Nat.ne_of_lt x))).2 mem |>.eq_of_pairwise
    (fun _ _ _ _ p q => absurd p (Nat.lt_asymm q)) h k

/-! ### Sparse maps -/

variable {α : Type}

theorem swf_cons [DecidableEq α] (d : α) (k : Nat) (v : α) (r : Sparse α) :
    swf d ((k, v) :: r) = true ↔ v ≠ d ∧ (∀ j ∈ skeys r, k < j) ∧ swf d r = true := by
  simp [swf, and_assoc]

theorem swfAny_cons (k : Nat) (v : α) (r : Sparse α) :
    swfAny ((k, v) :: r) = true ↔ (∀ j ∈ skeys r, k < j) ∧ swfAny r = true := by
  simp [swfAny]

theorem skeys_cons (k : Nat) (v : α) (r : Sparse α) : skeys ((k, v) :: r) = k :: skeys r := rfl

theorem mem_skeys_sdel (m : Sparse α) (i j : Nat) : j ∈ skeys (sdel m i) ↔ j ≠ i ∧ j ∈ skeys m := by
  induction m with
  | nil => simp [sdel, skeys]
  | cons e r ih =>
    obtain ⟨k, v⟩ := e
    unfold sdel at ih ⊢
    rw [List.filter_cons, skeys_cons, List.mem_cons]
    split
    · next e =>
      rw [skeys_cons, List.mem_cons, ih]
      have : k ≠ i := by simpa using e
      constructor
      · rintro (rfl | h)
        · exact ⟨this, Or.inl rfl⟩
        · exact ⟨h.1, Or.inr h.2⟩
      · rintro ⟨h, rfl | g⟩
        · exact Or.inl rfl
        · exact Or.inr ⟨h, g⟩
    · next e =>
      rw [ih]
      have : k = i := by simpa using e
      constructor
      · rintro ⟨h, g⟩; exact ⟨h, Or.inr g⟩
      · rintro ⟨h, g | g⟩
        · exact absurd (g.trans this) h
        · exact ⟨h, g⟩

theorem swf_sdel [DecidableEq α] {d : α} {m : Sparse α} (h : swf d m = true) (i : Nat) : swf d (sdel m i) = true := by
  induction m with
  | nil => exact h
  | cons e r ih =>
    obtain ⟨k, v⟩ := e
    obtain ⟨h1, h2, h3⟩ := (swf_cons d k v r).1 h
    have ih := ih h3
    unfold sdel at ih ⊢
    rw [List.filter_cons]
    split
    · exact (swf_cons _ _ _ _).2 ⟨h1, fun j m => h2 j ((mem_skeys_sdel r i j).1 m).2, ih⟩
    · exact ih

theorem swfAny_sdel {m : Sparse α} (h : swfAny m = true) (i : Nat) : swfAny (sdel m i) = true := by
  induction m with
  | nil => exact h
  | cons e r ih =>
    obtain ⟨k, v⟩ := e
    obtain ⟨h1, h2⟩ := (swfAny_cons k v r).1 h
    have ih := ih h2
    unfold sdel at ih ⊢
    rw [List.filter_cons]
    split
    · exact (swfAny_cons _ _ _).2 ⟨fun j m => h1 j ((mem_skeys_sdel r i j).1 m).2, ih⟩
    · exact ih

theorem sget_sdel (d : α) (m : Sparse α) (i j : Nat) : sget d (sdel m i) j = if j = i then d else sget d m j := by
  induction m with
  | nil => simp [sdel, sget]
  | cons e r ih =>
    obtain ⟨k, v⟩ := e
    unfold sdel at ih ⊢
    rw [List.filter_cons]
    simp only [sget]
    by_cases hk : k = i
    · subst hk
      simp only [ne_eq, not_true_eq_false, decide_false, Bool.false_eq_true, if_false, ih]
      split <;> rfl
    · simp only [ne_eq, hk, not_false_eq_true, decide_true, if_true, sget, ih]
      by_cases hj : j = k
      · subst hj; rw [if_pos rfl, if_neg hk, if_pos rfl]
      · rw [if_neg hj]; rw [if_neg hj]

theorem sget_sputAny (d : α) (m : Sparse α) (i j : Nat) (x : α) : sget d (sputAny m i x) j = if j = i then x else sget d m j := by
  induction m with
  | nil => simp only [sputAny, sget]
  | cons e r ih =>
    obtain ⟨k, v⟩ := e
    unfold sputAny
    split
    · simp only [sget]
    · split
      · next e =>
        subst e
        simp only [sget]
        split <;> rfl
      · next e =>
        simp only [sget, ih]
        by_cases hj : j = k
        · subst hj; rw [if_pos rfl, if_neg (fun h => e h.symm), if_pos rfl]
        · rw [if_neg hj]; rw [if_neg hj]

/-- A read after a write. -/
theorem sget_sput [DecidableEq α] (d : α) (m : Sparse α) (i j : Nat) (x : α) :
    sget d (sput d m i x) j = if j = i then x else sget d m j := by
  unfold sput
  split
  · next e => subst e; exact sget_sdel _ _ _ _
  · exact sget_sputAny _ _ _ _ _

theorem sget_smod [DecidableEq α] (d : α) (m : Sparse α) (i j : Nat) (f : α → α) :
    sget d (smod d m i f) j = if j = i then f (sget d m i) else sget d m j := sget_sput d m i j _

theorem mem_skeys_sputAny (m : Sparse α) (i : Nat) (x : α) (j : Nat) (h : j ∈ skeys (sputAny m i x)) : j = i ∨ j ∈ skeys m := by
  induction m with
  | nil => simp_all [sputAny, skeys]
  | cons e r ih =>
    obtain ⟨k, v⟩ := e
    unfold sputAny at h
    split at h
    · simp_all [skeys]
    · split at h
      · next e => subst e; rw [skeys_cons] at *; simp_all
      · rw [skeys_cons] at h ⊢
        rcases List.mem_cons.1 h with rfl | h
        · simp
        · rcases ih h with rfl | h <;> simp [*]

/-- A write keeps the rising order of a map whose entries are listed whatever they hold. -/
theorem swfAny_sputAny {m : Sparse α} (h : swfAny m = true) (i : Nat) (x : α) : swfAny (sputAny m i x) = true := by
  induction m with
  | nil => simp [sputAny, swfAny, skeys]
  | cons e r ih =>
    obtain ⟨k, v⟩ := e
    obtain ⟨h1, h2⟩ := (swfAny_cons k v r).1 h
    unfold sputAny
    split
    · next e =>
      refine (swfAny_cons _ _ _).2 ⟨fun j m => ?_, h⟩
      rw [skeys_cons] at m
      rcases List.mem_cons.1 m with rfl | m
      · exact e
      · exact Nat.lt_trans e (h1 j m)
    · split
      · next e => subst e; exact (swfAny_cons _ _ _).2 ⟨h1, h2⟩
      · refine (swfAny_cons _ _ _).2 ⟨fun j m => ?_, ih h2⟩
        rcases mem_skeys_sputAny r i x j m with rfl | m
        · omega
        · exact h1 j m

theorem mem_skeys_sput [DecidableEq α] (d : α) (m : Sparse α) (i : Nat) (x : α) (j : Nat) (h : j ∈ skeys (sput d m i x)) :
    j = i ∨ j ∈ skeys m := by
  unfold sput at h
  split at h
  · exact Or.inr ((mem_skeys_sdel m i j).1 h).2
  · exact mem_skeys_sputAny m i x j h

/-- A write keeps the canonical form. -/
theorem swf_sput [DecidableEq α] {d : α} {m : Sparse α} (h : swf d m = true) (i : Nat) (x : α) : swf d (sput d m i x) = true := by
  unfold sput
  split
  · exact swf_sdel h i
  · next hx =>
    induction m with
    | nil => simp [sputAny, swf, skeys, hx]
    | cons e r ih =>
      obtain ⟨k, v⟩ := e
      obtain ⟨h1, h2, h3⟩ := (swf_cons d k v r).1 h
      unfold sputAny
      split
      · next e =>
        refine (swf_cons _ _ _ _).2 ⟨hx, fun j m => ?_, h⟩
        rw [skeys_cons] at m
        rcases List.mem_cons.1 m with rfl | m
        · exact e
        · exact Nat.lt_trans e (h2 j m)
      · split
        · next e => subst e; exact (swf_cons _ _ _ _).2 ⟨hx, h2, h3⟩
        · refine (swf_cons _ _ _ _).2 ⟨h1, fun j m => ?_, ih h3⟩
          rcases mem_skeys_sputAny r i x j m with rfl | m
          · omega
          · exact h2 j m

theorem swf_smod [DecidableEq α] {d : α} {m : Sparse α} (h : swf d m = true) (i : Nat) (f : α → α) : swf d (smod d m i f) = true :=
  swf_sput h i _

/-- Building a map by writes gives the canonical form. -/
theorem swf_foldl_sput [DecidableEq α] {β : Type} {d : α} (xs : List β) (k : β → Nat) (v : β → α) {m : Sparse α} (h : swf d m = true) :
    swf d (xs.foldl (fun m e => sput d m (k e) (v e)) m) = true := by
  induction xs generalizing m with
  | nil => exact h
  | cons a xs ih => exact ih (swf_sput h _ _)

theorem sget_absent (d : α) {m : Sparse α} {i : Nat} (h : i ∉ skeys m) : sget d m i = d := by
  induction m with
  | nil => rfl
  | cons e r ih =>
    obtain ⟨k, v⟩ := e
    rw [skeys_cons, List.mem_cons, not_or] at h
    unfold sget
    rw [if_neg h.1, ih h.2]

/-- What a map reads as after a function that keeps the default. -/
theorem sget_smap [DecidableEq α] (d : α) (f : α → α) (m : Sparse α) (i : Nat) (h : f d = d) : sget d (smap d f m) i = f (sget d m i) := by
  have fold : ∀ (xs : List Nat) (r : Sparse α), sget d (xs.foldl (fun r i => sput d r i (f (sget d m i))) r) i =
      if i ∈ xs then f (sget d m i) else sget d r i := by
    intro xs
    induction xs with
    | nil => intro r; simp
    | cons x xs ih =>
      intro r
      rw [List.foldl_cons, ih, sget_sput]
      by_cases e : i = x
      · subst e; simp
      · simp [e]
  unfold smap
  rw [fold]
  split
  · rfl
  · next e => rw [sget_absent d e, h]; rfl

/-- Equal contents are equal data. -/
theorem swf_ext [DecidableEq α] {d : α} {a b : Sparse α} (h : swf d a = true) (k : swf d b = true)
    (e : ∀ i, sget d a i = sget d b i) : a = b := by
  induction a generalizing b with
  | nil =>
    cases b with
    | nil => rfl
    | cons y r =>
      obtain ⟨j, w⟩ := y
      have := e j
      simp only [sget, if_true] at this
      exact absurd this.symm ((swf_cons d j w r).1 k).1
  | cons x r ih =>
    obtain ⟨i, v⟩ := x
    obtain ⟨h1, h2, h3⟩ := (swf_cons d i v r).1 h
    cases b with
    | nil => have := e i; simp only [sget, if_true] at this; exact absurd this h1
    | cons y q =>
      obtain ⟨j, w⟩ := y
      obtain ⟨k1, k2, k3⟩ := (swf_cons d j w q).1 k
      have hij : i = j := by
        rcases Nat.lt_trichotomy i j with c | c | c
        · have := e i
          simp only [sget, if_true] at this
          rw [if_neg (by omega), sget_absent d (fun m => by have := k2 i m; omega)] at this
          exact absurd this h1
        · exact c
        · have := e j
          simp only [sget, if_true] at this
          rw [if_neg (by omega), sget_absent d (fun m => by have := h2 j m; omega)] at this
          exact absurd this.symm k1
      subst hij
      have hv := e i
      simp only [sget, if_true] at hv
      subst hv
      congr 1
      refine ih h3 k3 (fun n => ?_)
      have hn := e n
      simp only [sget] at hn
      by_cases c : n = i
      · subst c
        rw [sget_absent d (fun m => by have := h2 n m; omega), sget_absent d (fun m => by have := k2 n m; omega)]
      · rwa [if_neg c, if_neg c] at hn

/-- An entry is found after it was put, and the others as before. -/
theorem sfind_sputAny (m : Sparse α) (i j : Nat) (x : α) : sfind (sputAny m i x) j = if j = i then some x else sfind m j := by
  induction m with
  | nil => simp only [sputAny, sfind]
  | cons e r ih =>
    obtain ⟨k, v⟩ := e
    unfold sputAny
    split
    · simp only [sfind]
    · split
      · next e =>
        subst e
        simp only [sfind]
        split <;> rfl
      · next e =>
        simp only [sfind, ih]
        by_cases hj : j = k
        · subst hj; rw [if_pos rfl, if_neg (fun h => e h.symm), if_pos rfl]
        · rw [if_neg hj]; rw [if_neg hj]

/-! ### Single bits of a vector -/

theorem vput_false_self {w : Nat} (v : BitVec w) (i : Nat) : (vput v i false).getLsbD i = false := by
  unfold vput
  rw [if_neg (by exact Bool.false_ne_true), BitVec.getLsbD_and, BitVec.getLsbD_not, BitVec.getLsbD_ofNat, Nat.testBit_two_pow_self]
  simp

theorem vput_other {w : Nat} (v : BitVec w) {i j : Nat} (b : Bool) (h : j ≠ i) : (vput v i b).getLsbD j = v.getLsbD j := by
  unfold vput
  split
  · rw [BitVec.getLsbD_or, BitVec.getLsbD_ofNat, Nat.testBit_two_pow_of_ne (Ne.symm h)]; simp
  · rw [BitVec.getLsbD_and, BitVec.getLsbD_not, BitVec.getLsbD_ofNat, Nat.testBit_two_pow_of_ne (Ne.symm h)]
    by_cases hj : j < w
    · simp [hj]
    · simp [BitVec.getLsbD_of_ge _ _ (Nat.le_of_not_lt hj)]

end Sys2Proof.Laws
end

