-- ==== Sys2Proof/Laws/Press.lean ====
section
/-!
SUPPORT. What the operations on a lane's Press keep: canonical data spaces, the constant K bits, branch stacks of at most 16 entries.
-/

namespace Sys2Proof.Laws

open Sys2Proof.Machine Sys2Proof.Safety

theorem dataCanonical_iff (d : PressData) : dataCanonical d = true ↔
    bwf d.iv = true ∧ bwf d.ifv = true ∧ bwf d.q = true ∧ bwf d.m = true ∧ bwf d.e = true ∧ bwf d.lv = true ∧ bwf d.lf = true ∧
    bwf d.lq = true ∧ swf TimerRec.reset d.t = true ∧ swf CounterRec.reset d.c = true ∧ swf (0 : Word) d.w = true ∧
    swf (0 : BitVec 64) d.x = true ∧ swf (0 : BitVec 16) d.rs = true := by
  simp [dataCanonical, and_assoc]

theorem pressOk_iff (p : Press) : pressOk p = true ↔
    dataCanonical p.data = true ∧ constantBits p.data = true ∧ stacksFit p.strands = true := by
  simp [pressOk, and_assoc]

/-- Press data and strands are all that the check looks at. -/
theorem pressOk_of {p p' : Press} (h : pressOk p = true) (hd : dataCanonical p.data = true → dataCanonical p'.data = true)
    (hk : p'.data.k = p.data.k) (hs : stacksFit p.strands = true → stacksFit p'.strands = true) : pressOk p' = true := by
  obtain ⟨a, b, c⟩ := (pressOk_iff p).1 h
  exact (pressOk_iff p').2 ⟨hd a, by unfold constantBits at *; rw [hk]; exact b, hs c⟩

theorem stacksFit_iff (x : Strands) : stacksFit x = true ↔
    x.s0.stack.length ≤ 16 ∧ x.s1.stack.length ≤ 16 ∧ x.s2.stack.length ≤ 16 ∧ x.s3.stack.length ≤ 16 := by
  simp [stacksFit, strandList]

theorem stacksFit_map (f : Strand → Strand) (hf : ∀ y, y.stack.length ≤ 16 → (f y).stack.length ≤ 16) {x : Strands}
    (h : stacksFit x = true) : stacksFit (mapStrands f x) = true := by
  rw [stacksFit_iff] at *
  exact ⟨hf _ h.1, hf _ h.2.1, hf _ h.2.2.1, hf _ h.2.2.2⟩

theorem stacksFit_put {x : Strands} (h : stacksFit x = true) (i : Fin 4) {y : Strand} (hy : y.stack.length ≤ 16) :
    stacksFit (putStrand x i y) = true := by
  rw [stacksFit_iff] at *
  unfold putStrand
  split
  · exact ⟨hy, h.2⟩
  · split
    · exact ⟨h.1, hy, h.2.2⟩
    · split
      · exact ⟨h.1, h.2.1, hy, h.2.2.2⟩
      · exact ⟨h.1, h.2.1, h.2.2.1, hy⟩

theorem strandOf_fits {x : Strands} (h : stacksFit x = true) (i : Fin 4) : (strandOf x i).stack.length ≤ 16 := by
  rw [stacksFit_iff] at h
  unfold strandOf
  split
  · exact h.1
  · split
    · exact h.2.1
    · split
      · exact h.2.2.1
      · exact h.2.2.2

/-- One write of a strand (R80). -/
theorem pressOk_applyWrite {p : Press} (h : pressOk p = true) (w : PressWrite) : pressOk (applyWrite p w) = true := by
  refine pressOk_of h (fun a => ?_) ?_ (fun a => ?_)
  · rw [dataCanonical_iff] at a
    obtain ⟨a1, a2, a3, a4, a5, a6, a7, a8, a9, a10, a11, a12, a13⟩ := a
    cases w with
    | bit sp i v =>
      by_cases h2 : sp = 2
      · rw [applyWrite, if_pos h2]
        exact (dataCanonical_iff _).2 ⟨a1, a2, bwf_bput a3 i v, a4, a5, a6, a7, a8, a9, a10, a11, a12, a13⟩
      by_cases h3 : sp = 3
      · rw [applyWrite, if_neg h2, if_pos h3]
        exact (dataCanonical_iff _).2 ⟨a1, a2, a3, bwf_bput a4 i v, a5, a6, a7, a8, a9, a10, a11, a12, a13⟩
      by_cases h7 : sp = 7
      · rw [applyWrite, if_neg h2, if_neg h3, if_pos h7]
        exact (dataCanonical_iff _).2 ⟨a1, a2, a3, a4, a5, a6, a7, a8, a9, a10, swf_smod a11 (i / 32) (fun x => vput x (i % 32) v), a12, a13⟩
      by_cases hc : sp = 0xC
      · rw [applyWrite, if_neg h2, if_neg h3, if_neg h7, if_pos hc]
        exact (dataCanonical_iff _).2 ⟨a1, a2, a3, a4, a5, a6, a7, bwf_bput a8 i v, a9, a10, a11, a12, a13⟩
      · rw [applyWrite, if_neg h2, if_neg h3, if_neg h7, if_neg hc]
        exact (dataCanonical_iff _).2 ⟨a1, a2, a3, a4, a5, a6, a7, a8, a9, a10, a11, a12, a13⟩
    | word i v => exact (dataCanonical_iff _).2 ⟨a1, a2, a3, a4, a5, a6, a7, a8, a9, a10, swf_sput a11 i v, a12, a13⟩
    | timer i v => exact (dataCanonical_iff _).2 ⟨a1, a2, a3, a4, a5, a6, a7, a8, swf_sput a9 i v, a10, a11, a12, a13⟩
    | counter i v => exact (dataCanonical_iff _).2 ⟨a1, a2, a3, a4, a5, a6, a7, a8, a9, swf_sput a10 i v, a11, a12, a13⟩
    | edge i v => exact (dataCanonical_iff _).2 ⟨a1, a2, a3, a4, bwf_bput a5 i v, a6, a7, a8, a9, a10, a11, a12, a13⟩
  · cases w with
    | bit sp i v => unfold applyWrite; (repeat' split) <;> rfl
    | _ => rfl
  · cases w with
    | bit sp i v => unfold applyWrite; (repeat' split) <;> exact a
    | _ => exact a

/-- The clock ends (R80). -/
theorem pressOk_commitWrites {p : Press} (h : pressOk p = true) : pressOk (commitWrites p) = true := by
  have fold : ∀ (ws : List PressWrite) (p : Press), pressOk p = true → pressOk (ws.foldl applyWrite p) = true := by
    intro ws
    induction ws with
    | nil => exact fun _ h => h
    | cons w ws ih => exact fun p h => ih _ (pressOk_applyWrite h w)
  have := fold ([0, 1, 2, 3].flatMap (fun i => (p.writes.filter (fun e => decide (e.1 = i))).map Prod.snd)) p h
  exact pressOk_of this id rfl id

theorem pressOk_nextClock {p : Press} (h : pressOk p = true) : pressOk (nextClock p) = true :=
  pressOk_of (pressOk_commitWrites h) id rfl (stacksFit_map _ (fun _ k => k))

theorem pressOk_stopPress {p : Press} (h : pressOk p = true) : pressOk (stopPress p) = true :=
  pressOk_of h id rfl (fun a => by rw [stacksFit_iff] at *; exact a)

theorem pressOk_reset : pressOk Press.reset = true := by decide

theorem pressOk_pressCleared {p : Press} (h : pressOk p = true) : pressOk (pressCleared p) = true := by
  have := (pressOk_iff _).1 (pressOk_stopPress h)
  have r := (pressOk_iff _).1 pressOk_reset
  exact (pressOk_iff _).2 ⟨r.1, r.2.1, this.2.2⟩

theorem pressOk_marchedUse {L : LaneState} (h : pressOk L.press = true) (u : MacroUse) : pressOk (marchedUse L u).press = true := by
  cases u <;> first | exact pressOk_pressCleared h | exact h

/-- The march test of SRAM BIST leaves a Press in order (R459). -/
theorem pressOk_sramMarched {L : LaneState} (h : pressOk L.press = true) : pressOk (sramMarched L).press = true := by
  unfold sramMarched
  generalize [0, 64, 80, 82].map macroUse = us
  induction us generalizing L with
  | nil => exact h
  | cons u us ih => exact ih (pressOk_marchedUse h u)

theorem pressOk_laneReset (L : LaneState) (cause : Nat) : pressOk (laneReset L cause).press = true := pressOk_reset

theorem pressOk_laneCold (L : LaneState) (cause : Nat) : pressOk (laneCold L cause).press = true := pressOk_reset

theorem pressOk_putSnapshot {a b : LaneState} (h : pressOk a.press = true) (k : pressOk b.press = true) :
    pressOk (putSnapshot a (snapshotOf b)).press = true := by
  have x := (pressOk_iff _).1 h
  have y := (pressOk_iff _).1 k
  exact (pressOk_iff _).2 ⟨y.1, y.2.1, x.2.2⟩

theorem pressOk_stationInputs {L : LaneState} (h : pressOk L.press = true) (i : Nat) (c : StationCfg) :
    pressOk (stationInputs L i c).press = true := by
  refine pressOk_of h (fun a => ?_) rfl id
  rw [dataCanonical_iff] at a
  obtain ⟨a1, a2, a⟩ := a
  refine (dataCanonical_iff _).2 ⟨bwf_bpatch a1 (bwf_bshift ?_ _) _ _ (Nat.le_add_right _ _),
    bwf_bpatch a2 (bwf_bshift ?_ _) _ _ (Nat.le_add_right _ _), a⟩
  · exact bwf_filter (bwf_range _) _
  · exact bwf_filter (bwf_range _) _

theorem pressOk_peerInputs {L : LaneState} (h : pressOk L.press = true) (q : Nat) (c : PeerCfg) :
    pressOk (peerInputs L q c).press = true := by
  refine pressOk_of h (fun a => ?_) rfl id
  rw [dataCanonical_iff] at a
  obtain ⟨a1, a2, a3, a4, a5, a6, a7, a⟩ := a
  refine (dataCanonical_iff _).2 ⟨a1, a2, a3, a4, a5, bwf_bpatch a6 (bwf_bshift ?_ _) _ _ (Nat.le_add_right _ _),
    bwf_bpatch a7 (bwf_bshift ?_ _) _ _ (Nat.le_add_right _ _), a⟩
  · exact bwf_filter (bwf_range _) _
  · exact bwf_filter (bwf_range _) _

theorem swf_publishX (r : Raa) : swf (0 : BitVec 64) (publishX r) = true := swf_foldl_sput _ _ _ rfl

theorem swf_publishRs (r : Raa) : swf (0 : BitVec 16) (publishRs r) = true := swf_foldl_sput _ (fun n => n) _ rfl

theorem pressOk_openViews {L : LaneState} (h : pressOk L.press = true) (c : Word) : pressOk (openViews c L).press = true :=
  pressOk_of h id rfl id

theorem pressOk_views {p : Press} (h : pressOk p = true) (r : Raa) (x : List QEntry) (w : Views) :
    pressOk { p with issued := x, data := { p.data with x := publishX r, rs := publishRs r, views := w } } = true := by
  refine pressOk_of h (fun a => ?_) rfl id
  rw [dataCanonical_iff] at a
  obtain ⟨a1, a2, a3, a4, a5, a6, a7, a8, a9, a10, a11, _, _⟩ := a
  exact (dataCanonical_iff _).2 ⟨a1, a2, a3, a4, a5, a6, a7, a8, a9, a10, a11, swf_publishX r, swf_publishRs r⟩

theorem pressOk_loadedLane {L : LaneState} (h : pressOk L.press = true) (now : Word) : pressOk (loadedLane now L).press = true :=
  pressOk_views h _ _ _

theorem bwf_carryBits (m : List CarryEntry) (b : BitSpace) : bwf (carryBits m b) = true := by
  have inner : ∀ (xs : List Nat) (f : Nat → Nat) (acc : BitSpace), bwf acc = true → bwf (xs.foldl (fun acc i => bset acc (f i)) acc) = true := by
    intro xs f
    induction xs with
    | nil => exact fun _ h => h
    | cons x xs ih => exact fun acc h => ih _ (bwf_bset h _)
  have outer : ∀ (m : List CarryEntry) (acc : BitSpace), bwf acc = true → bwf (m.foldl (fun acc e =>
      (brange b e.oldStart (e.oldStart + e.length)).foldl (fun acc i => bset acc (e.newStart + (i - e.oldStart))) acc) acc) = true := by
    intro m
    induction m with
    | nil => exact fun _ h => h
    | cons e m ih => exact fun acc h => ih _ (inner _ (fun i => e.newStart + (i - e.oldStart)) _ h)
  exact outer m [] rfl

theorem swf_carryRecs {α : Type} [DecidableEq α] (d : α) (m : List CarryEntry) (x : Sparse α) : swf d (carryRecs d m x) = true := by
  have outer : ∀ (m : List CarryEntry) (acc : Sparse α), swf d acc = true → swf d (m.foldl (fun acc e =>
      (x.filter (fun r => decide (e.oldStart ≤ r.1) && decide (r.1 < e.oldStart + e.length))).foldl
        (fun acc r => sput d acc (e.newStart + (r.1 - e.oldStart)) r.2) acc) acc) = true := by
    intro m
    induction m with
    | nil => exact fun _ h => h
    | cons e m ih => exact fun acc h => ih _ (swf_foldl_sput _ (fun (r : Nat × α) => e.newStart + (r.1 - e.oldStart)) (fun r => r.2) h)
  exact outer m [] rfl

theorem dataCanonical_carryData (m : List CarryEntry) {d : PressData} (h : dataCanonical d = true) :
    dataCanonical (carryData m d) = true := by
  rw [dataCanonical_iff] at h
  obtain ⟨a1, a2, a3, _, _, a6, a7, a8, _, _, _, a12, a13⟩ := h
  exact (dataCanonical_iff _).2 ⟨a1, a2, a3, bwf_carryBits _ _, bwf_carryBits _ _, a6, a7, a8, swf_carryRecs _ _ _, swf_carryRecs _ _ _,
    swf_carryRecs _ _ _, a12, a13⟩

/-- A K bit that a racking or a change of role sets leaves the constants as they are (R92). -/
theorem constantBits_vput (k : BitVec 8) (v : Bool) (i : Nat) (hi : 1 < i) (h : (!k.getLsbD 0 && k.getLsbD 1) = true) :
    (!(vput k i v).getLsbD 0 && (vput k i v).getLsbD 1) = true := by
  rw [vput_other _ _ (by omega), vput_other _ _ (by omega)]; exact h

/-- The role bit of a lane is none of the constant bits (R92). -/
theorem pressOk_roleBit {p : Press} (h : pressOk p = true) (v : Bool) :
    pressOk { p with data := { p.data with k := vput p.data.k 6 v } } = true := by
  obtain ⟨a, b, c⟩ := (pressOk_iff _).1 h
  exact (pressOk_iff _).2 ⟨(dataCanonical_iff _).2 ((dataCanonical_iff _).1 a), constantBits_vput _ _ _ (by decide) b, c⟩

theorem pressOk_switchLane (back : Bool) (now : Time) {L : LaneState} (h : pressOk L.press = true) :
    pressOk (switchLane back now L).press = true := by
  unfold switchLane
  split
  · obtain ⟨a, b, c⟩ := (pressOk_iff _).1 h
    exact (pressOk_iff _).2 ⟨dataCanonical_carryData _ a, constantBits_vput _ _ _ (by decide) b, c⟩
  · exact h

theorem pressOk_shiftLane (d : Int) {L : LaneState} (h : pressOk L.press = true) : pressOk (shiftLane d L).press = true := by
  refine pressOk_of h (fun a => ?_) rfl id
  rw [dataCanonical_iff] at a
  obtain ⟨a1, a2, a3, a4, a5, a6, a7, a8, _, a⟩ := a
  exact (dataCanonical_iff _).2 ⟨a1, a2, a3, a4, a5, a6, a7, a8, swf_foldl_sput _ _ _ rfl, a⟩

theorem bwf_putBits {b : BitSpace} (h : bwf b = true) (k : Nat) (bs : List Byte) : bwf (putBits b k bs) = true := by
  unfold putBits
  have hx := bwf_filter (bwf_range 2048) (fun i => (lget 0 bs (i / 8)).getLsbD (i % 8))
  generalize (List.range 2048).filter (fun i => (lget 0 bs (i / 8)).getLsbD (i % 8)) = x at hx
  exact bwf_bpatch h (bwf_bshift hx (2048 * k)) _ _ (by omega)

theorem swf_putRecs {α : Type} [DecidableEq α] (d : α) (f : List Byte → α) {m : Sparse α} (h : swf d m = true) (n size k : Nat)
    (bs : List Byte) : swf d (putRecs d f m n size k bs) = true := by
  unfold putRecs
  exact swf_foldl_sput _ _ _ h

/-- The Press spaces of an area. -/
def areaCanonical (a : LoadArea) : Bool :=
  bwf a.q && bwf a.lq && bwf a.m && bwf a.e && swf TimerRec.reset a.t && swf CounterRec.reset a.c && swf (0 : Word) a.w

theorem areaCanonical_putBlock {a : LoadArea} (h : areaCanonical a = true) (i : Nat) (bs : List Byte) :
    areaCanonical (putBlock a i bs) = true := by
  unfold areaCanonical at h
  simp only [Bool.and_eq_true] at h
  obtain ⟨⟨⟨⟨⟨⟨aq, alq⟩, am⟩, ae⟩, at'⟩, ac⟩, aw⟩ := h
  have fit : ∀ b : LoadArea, bwf b.q = true → bwf b.lq = true → bwf b.m = true → bwf b.e = true → swf TimerRec.reset b.t = true →
      swf CounterRec.reset b.c = true → swf (0 : Word) b.w = true → areaCanonical b = true := by
    intro b h1 h2 h3 h4 h5 h6 h7
    unfold areaCanonical
    rw [h1, h2, h3, h4, h5, h6, h7]; rfl
  unfold putBlock
  dsimp only
  split
  · exact fit _ (bwf_putBits aq _ _) alq am ae at' ac aw
  split
  · exact fit _ aq (bwf_putBits alq _ _) am ae at' ac aw
  split
  · exact fit _ aq alq (bwf_putBits am _ _) ae at' ac aw
  split
  · have hx := swf_putRecs TimerRec.reset timerAt at' 16 16 (i - 584) (maskBlock i bs)
    generalize putRecs TimerRec.reset timerAt a.t 16 16 (i - 584) (maskBlock i bs) = x at hx ⊢
    exact fit _ aq alq am ae hx ac aw
  split
  · have hx := swf_putRecs CounterRec.reset counterAt ac 32 8 (i - 1608) (maskBlock i bs)
    generalize putRecs CounterRec.reset counterAt a.c 32 8 (i - 1608) (maskBlock i bs) = x at hx ⊢
    exact fit _ aq alq am ae at' hx aw
  split
  · exact fit _ aq alq am (bwf_putBits ae _ _) at' ac aw
  split
  · have hx := swf_putRecs (0 : Word) (fun x => BitVec.ofNat 32 (ofLe x)) aw 64 4 (i - 1896) bs
    generalize putRecs (0 : Word) (fun x => BitVec.ofNat 32 (ofLe x)) a.w 64 4 (i - 1896) bs = x at hx ⊢
    exact fit _ aq alq am ae at' ac hx
  split
  · exact fit _ aq alq am ae at' ac aw
  split
  · unfold takeLocks; exact fit _ aq alq am ae at' ac aw
  · unfold takeQueue; exact fit _ aq alq am ae at' ac aw

/-- A block written into a lane's load area (R343, R355). -/
theorem pressOk_putBlock {L : LaneState} (h : pressOk L.press = true) (i : Nat) (bs : List Byte) :
    pressOk (putArea L (putBlock (areaOf L) i bs)).press = true := by
  obtain ⟨a, b, c⟩ := (pressOk_iff _).1 h
  rw [dataCanonical_iff] at a
  obtain ⟨a1, a2, a3, a4, a5, a6, a7, a8, a9, a10, a11, a12, a13⟩ := a
  have k : areaCanonical (putBlock (areaOf L) i bs) = true := by
    apply areaCanonical_putBlock
    unfold areaCanonical areaOf
    simp only [a3, a4, a5, a8, a9, a10, a11, Bool.and_self]
  generalize putBlock (areaOf L) i bs = x at k
  unfold areaCanonical at k
  simp only [Bool.and_eq_true] at k
  obtain ⟨⟨⟨⟨⟨⟨kq, klq⟩, km⟩, ke⟩, kt⟩, kc⟩, kw⟩ := k
  exact (pressOk_iff _).2 ⟨(dataCanonical_iff _).2 ⟨a1, a2, kq, km, ke, a6, a7, klq, kt, kc, kw, a12, a13⟩, b, c⟩

theorem pressOk_closeReports {L : LaneState} (h : pressOk L.press = true) : pressOk (closeReports L).press = true :=
  pressOk_of h id rfl (stacksFit_map _ (fun _ k => k))

theorem pressOk_clearEnded {L : LaneState} (h : pressOk L.press = true) : pressOk (clearEnded L).press = true :=
  pressOk_of h id rfl (stacksFit_map _ (fun _ k => k))

theorem press_compose (L : LaneState) (c : Completion) : (compose L c).press = L.press := rfl

theorem press_modLedger (L : LaneState) (p : Port) (q : Nat) (f : Ledger → Ledger) : (modLedger L p q f).press = L.press := rfl

theorem press_ledgerEnd (L : LaneState) (x : HostRef) (e : HostEnd) : (ledgerEnd L x e).press = L.press := rfl

theorem press_consume (L : LaneState) (x : HostRef) (e : Option HostEnd) : (consume L x e).press = L.press := rfl

theorem press_settleTaken (c : Completion) (L : LaneState) : (settleTaken c L).press = L.press := by
  unfold settleTaken; (repeat' split) <;> rfl

theorem press_sessionsTick (L : LaneState) : (sessionsTick L).press = L.press := rfl

theorem press_countSends (s : State) (v : Vintage) (L : LaneState) : (countSends s v L).press = L.press := rfl

theorem pressOk_sendImage {L : LaneState} (h : pressOk L.press = true) (s : State) (l : Lane) :
    pressOk (sendImage s l L).press = true := by
  unfold sendImage
  split
  · split
    · exact pressOk_stopPress h
    · exact h
  · exact h

theorem press_formQueue {L : LaneState} (h : pressOk L.press = true) (x : List QEntry) : pressOk (formQueue L x).press = true := h

theorem pressOk_laneOut {L : LaneState} (h : pressOk L.press = true) (st : LaneSt) : pressOk (laneOut L st).press = true :=
  pressOk_stopPress h

end Sys2Proof.Laws
end

