-- ==== Sys2Proof/Laws/Keeps.lean ====
section
/-!
SUPPORT. The plain updates of the state keep what Safety.Keeps lists: each lemma carries the relation over one more update.
-/

namespace Sys2Proof.Laws

open Sys2Proof.Machine Sys2Proof.Safety

theorem up_refl {w : Nat} (x : BitVec w) : up x x := Nat.le_refl _

theorem up_trans {w : Nat} {x y z : BitVec w} (h : up x y) (k : up y z) : up x z := Nat.le_trans h k

/-- A saturating count never falls (R11). -/
theorem up_satAdd {w : Nat} (x : BitVec w) (n : Nat) : up x (satAdd x n) := by
  unfold up satAdd
  by_cases hw : w = 0
  · subst hw; simp [BitVec.eq_nil x]
  have h2 : (2:Nat) ^ w = 2 ^ (w - 1) + 2 ^ (w - 1) := by
    obtain ⟨k, rfl⟩ := Nat.exists_eq_succ_of_ne_zero hw
    simp [Nat.pow_succ]; omega
  have hx := x.isLt
  have hp := Nat.two_pow_pos (w - 1)
  dsimp only
  split
  · exact Nat.le_refl _
  · split
    · rw [BitVec.toNat_allOnes]; omega
    · have hm : x.toNat % 2 ^ (w - 1) = x.toNat := Nat.mod_eq_of_lt (by omega)
      rw [BitVec.toNat_ofNat, hm] at *
      rw [Nat.mod_eq_of_lt (by omega)]; omega

theorem up_satInc {w : Nat} (x : BitVec w) : up x (satInc x) := up_satAdd x 1

theorem satInc_ne_zero (x : BitVec 64) : satInc x ≠ 0 := by
  unfold satInc satAdd
  have hx := x.isLt
  intro h
  have h := congrArg BitVec.toNat h
  dsimp only at h
  split at h
  · next e => simp at h; omega
  · split at h
    · simp at h
    · simp at h; omega

/-- A counter of a sparse map counts one more; every other stays. -/
theorem up_smod_satInc (m : Sparse (BitVec 64)) (i j : Nat) : up (sget 0 m j) (sget 0 (smod 0 m i satInc) j) := by
  unfold smod
  rw [sget_sput]
  split
  · next e => subst e; exact up_satInc _
  · exact up_refl _

theorem up_port (x : PerPort Word) (p q : Port) : up (x.get q) ((x.set p (satInc (x.get p))).get q) := by
  cases p <;> cases q <;> first | exact up_refl _ | exact up_satInc _

theorem up_lanes (x : PerLane Word) (l : Lane) : up (x.get l) ((x.map (fun _ y => satInc y)).get l) := by
  cases l <;> exact up_satInc _

theorem up_lanesIf (x : PerLane Word) (b : Lane → Bool) (l : Lane) :
    up (x.get l) ((x.map (fun m y => if b m then satInc y else y)).get l) := by
  cases l
  · show up x.a (if b .A then satInc x.a else x.a); split <;> first | exact up_satInc _ | exact up_refl _
  · show up x.b (if b .B then satInc x.b else x.b); split <;> first | exact up_satInc _ | exact up_refl _
  · show up x.c (if b .C then satInc x.c else x.c); split <;> first | exact up_satInc _ | exact up_refl _

theorem up_lanesSet (x : PerLane Word) (m l : Lane) : up (x.get l) ((x.set m (satInc (x.get m))).get l) := by
  cases l <;> cases m <;> first | exact up_refl _ | exact up_satInc _

theorem laneTotalsUp_refl (x : LaneLifetime) : laneTotalsUp x x := ⟨up_refl _, up_refl _, up_refl _⟩

/-- One lane's entry of lifetime page 3 changes. -/
theorem laneTotalsUp_set (x : PerLane LaneLifetime) (l m : Lane) (y : LaneLifetime) (h : laneTotalsUp (x.get l) y) :
    laneTotalsUp (x.get m) ((x.set l y).get m) := by
  cases l <;> cases m <;> first | exact h | exact laneTotalsUp_refl _

theorem TotalsUp.refl (x : Lifetime) : TotalsUp x x := by
  constructor <;> intros <;> first | exact up_refl _ | exact ⟨up_refl _, up_refl _, up_refl _⟩

theorem TotalsUp.trans {x y z : Lifetime} (h : TotalsUp x y) (k : TotalsUp y z) : TotalsUp x z where
  lanes l := ⟨up_trans (h.lanes l).1 (k.lanes l).1, up_trans (h.lanes l).2.1 (k.lanes l).2.1, up_trans (h.lanes l).2.2 (k.lanes l).2.2⟩
  operating := up_trans h.operating k.operating
  powerCycles := up_trans h.powerCycles k.powerCycles
  restarts := up_trans h.restarts k.restarts
  service := up_trans h.service k.service
  service2 := up_trans h.service2 k.service2
  timeSets := up_trans h.timeSets k.timeSets
  fcs i := up_trans (h.fcs i) (k.fcs i)
  timing := up_trans h.timing k.timing
  takeovers := up_trans h.takeovers k.takeovers
  handovers := up_trans h.handovers k.handovers
  switchOns i := up_trans (h.switchOns i) (k.switchOns i)
  clears := up_trans h.clears k.clears
  proofs := up_trans h.proofs k.proofs
  linkErr i := up_trans (h.linkErr i) (k.linkErr i)
  dissent i := up_trans (h.dissent i) (k.dissent i)
  refuse i := up_trans (h.refuse i) (k.refuse i)
  stale i := up_trans (h.stale i) (k.stale i)
  authFail i := up_trans (h.authFail i) (k.authFail i)
  overwritten := up_trans h.overwritten k.overwritten
  floor := up_trans h.floor k.floor

variable {r c : Bool} {s0 s : State}

theorem Keeps.refl (r c : Bool) (s : State) : Keeps r c s s :=
  ⟨rfl, fun _ => TotalsUp.refl _, fun h => ⟨TotalsUp.refl _, h⟩, id, fun h => h, fun _ h => h, fun _ _ h => h, fun _ _ h => h⟩

theorem Keeps.trans {t u : State} (h : Keeps r c s t) (k : Keeps r c t u) : Keeps r c s u :=
  ⟨k.pending.trans h.pending, fun e => TotalsUp.trans (h.totals e) (k.totals e),
   fun x => ⟨TotalsUp.trans (h.pages x).1 (k.pages (h.pages x).2).1, (k.pages (h.pages x).2).2⟩, fun x => k.saved (h.saved x),
   fun x => k.press (h.press x), fun l x => k.latches l (h.latches l x),
   fun e l x => k.latched e l (h.latched e l x), fun e l x => k.retired e l (h.retired e l x)⟩

theorem Keeps.weaken {t : State} (h : Keeps false false s t) : Keeps r c s t :=
  ⟨h.pending, fun _ => h.totals rfl, h.pages, h.saved, h.press, h.latches, fun _ => h.latched rfl, fun _ => h.retired rfl⟩

/-- An update that leaves the queue, the lanes, the Sluices and the lifetime area as they are. -/
theorem keeps_same {t : State} (h : Keeps r c s0 s) (hp : t.pending = s.pending) (hl : t.lanes = s.lanes) (hs : t.sluices = s.sluices)
    (hc : t.cellar.life = s.cellar.life) (hg : t.cellar.paged = s.cellar.paged) : Keeps r c s0 t :=
  ⟨hp.trans h.pending, hc ▸ h.totals, by rw [hc, hg]; exact h.pages, by unfold retirementsSaved; rw [hc, hg]; exact h.saved,
   fun x l => by have := h.press x l; unfold lane at *; rw [hl]; exact this,
   fun l x => by rw [hs]; exact h.latches l x,
   fun e l x => by rw [hs]; exact h.latched e l x, fun e l x => by rw [hc]; exact h.retired e l x⟩

theorem lane_modLane (s : State) (l m : Lane) (f : LaneState → LaneState) :
    lane (modLane s l f) m = if m = l then f (lane s l) else lane s m := by
  cases l <;> cases m <;> rfl

theorem lane_modLanes (s : State) (m : Lane) (f : Lane → LaneState → LaneState) : lane (modLanes s f) m = f m (lane s m) := by
  cases m <;> rfl

theorem keeps_modLane (l : Lane) (f : LaneState → LaneState) (hf : ∀ L, pressOk L.press = true → pressOk (f L).press = true)
    (h : Keeps r c s0 s) : Keeps r c s0 (modLane s l f) :=
  ⟨h.pending, h.totals, h.pages, h.saved, fun x m => by
    rw [lane_modLane]; split
    · next e => subst e; exact hf _ (h.press x _)
    · exact h.press x _, h.latches, h.latched, h.retired⟩

/-- A change of a lane that may take from any lane. -/
theorem keeps_modLane_from (l : Lane) (f : LaneState → LaneState)
    (hf : (∀ m, pressOk (lane s m).press = true) → pressOk (f (lane s l)).press = true)
    (h : Keeps r c s0 s) : Keeps r c s0 (modLane s l f) :=
  ⟨h.pending, h.totals, h.pages, h.saved, fun x m => by
    rw [lane_modLane]; split
    · next e => subst e; exact hf (h.press x)
    · exact h.press x _, h.latches, h.latched, h.retired⟩

theorem keeps_modLanes (f : Lane → LaneState → LaneState) (hf : ∀ l L, pressOk L.press = true → pressOk (f l L).press = true)
    (h : Keeps r c s0 s) : Keeps r c s0 (modLanes s f) :=
  ⟨h.pending, h.totals, h.pages, h.saved, fun x m => by rw [lane_modLanes]; exact hf _ _ (h.press x _), h.latches, h.latched, h.retired⟩

/-- A change of a Sluice that neither clears its latch nor closes a switch against it. -/
def sluiceKeeps (f : Sluice → Sluice) : Prop :=
  ∀ x, (latchOpens x = true → latchOpens (f x) = true) ∧ (x.latch = true → (f x).latch = true)

theorem keeps_modSluice (l : Lane) (f : Sluice → Sluice) (hf : sluiceKeeps f) (h : Keeps r c s0 s) : Keeps r c s0 (modSluice s l f) := by
  refine ⟨h.pending, h.totals, h.pages, h.saved, h.press, fun m x => ?_, fun e m x => ?_, h.retired⟩
  · have := h.latches m x
    cases l <;> cases m <;> first | exact this | exact (hf _).1 this
  · have := h.latched e m x
    cases l <;> cases m <;> first | exact this | exact (hf _).2 this

theorem keeps_modSluices (f : Lane → Sluice → Sluice) (hf : ∀ l, sluiceKeeps (f l)) (h : Keeps r c s0 s) :
    Keeps r c s0 (modSluices s f) := by
  refine ⟨h.pending, h.totals, h.pages, h.saved, h.press, fun m x => ?_, fun e m x => ?_, h.retired⟩
  · have := h.latches m x
    cases m <;> exact (hf _ _).1 this
  · have := h.latched e m x
    cases m <;> exact (hf _ _).2 this

theorem keeps_modPort (p : Port) (f : PortState → PortState) (h : Keeps r c s0 s) : Keeps r c s0 (modPort s p f) :=
  keeps_same h rfl rfl rfl rfl rfl

/-- A change of the lifetime area that lowers no total and leaves the retirements as they are. -/
def lifeKeeps (x y : Lifetime) : Prop := TotalsUp x y ∧ ∀ l, (y.lanes.get l).retired = (x.lanes.get l).retired

/-- A change of one lane's entry of page 3. -/
theorem lifeKeeps_lanes (x : Lifetime) (l : Lane) (y : LaneLifetime) (h : laneTotalsUp (x.lanes.get l) y)
    (k : y.retired = (x.lanes.get l).retired) : lifeKeeps x { x with lanes := x.lanes.set l y } := by
  constructor
  · constructor <;> intros <;> first | exact up_refl _ | exact laneTotalsUp_set _ _ _ _ h
  · intro m
    cases l <;> cases m <;> first | exact k | rfl

theorem keeps_modLife (f : Lifetime → Lifetime) (hf : ∀ x, lifeKeeps x (f x)) (h : Keeps r c s0 s) : Keeps r c s0 (modLife s f) :=
  ⟨h.pending, fun e => TotalsUp.trans (h.totals e) (hf _).1, fun x => ⟨(h.pages x).1, TotalsUp.trans (h.pages x).2 (hf _).1⟩,
   fun x l => (h.saved x l).trans ((hf _).2 l).symm, h.press, h.latches, h.latched,
   fun e l x => ((hf _).2 l).trans (h.retired e l x)⟩

/-- A page that the keeper writes: the totals of the MRAM grow towards those of the lifetime area. -/
theorem copyPage_up {g p : Lifetime} (h : TotalsUp p g) (n : Nat) : TotalsUp p (copyPage g p n) ∧ TotalsUp (copyPage g p n) g := by
  unfold copyPage
  split <;> (constructor <;> constructor <;> intros <;> first
    | exact up_refl _ | exact laneTotalsUp_refl _ | exact h.lanes _ | exact h.operating | exact h.powerCycles | exact h.restarts
    | exact h.service | exact h.service2 | exact h.timeSets | exact h.fcs _ | exact h.timing | exact h.takeovers | exact h.handovers
    | exact h.switchOns _ | exact h.clears | exact h.proofs | exact h.linkErr _ | exact h.dissent _ | exact h.refuse _
    | exact h.stale _ | exact h.authFail _ | exact h.overwritten | exact h.floor)

theorem copyPage_retired {g p : Lifetime} {l : Lane} (h : (p.lanes.get l).retired = (g.lanes.get l).retired) (n : Nat) :
    ((copyPage g p n).lanes.get l).retired = (g.lanes.get l).retired := by
  unfold copyPage
  split <;> first | exact h | rfl

theorem savePages_up {x : Cellar} (h : TotalsUp x.paged x.life) (ps : List Nat) :
    TotalsUp x.paged (savePages ps x).paged ∧ TotalsUp (savePages ps x).paged x.life := by
  unfold savePages
  dsimp only
  generalize x.paged = p at h ⊢
  induction ps generalizing p with
  | nil => exact ⟨TotalsUp.refl _, h⟩
  | cons n ps ih =>
    have a := copyPage_up h n
    have b := ih _ a.2
    exact ⟨TotalsUp.trans a.1 b.1, b.2⟩

theorem savePages_saved {x : Cellar} (h : retirementsSaved x) (ps : List Nat) : retirementsSaved (savePages ps x) := by
  intro l
  have h := h l
  unfold savePages
  dsimp only
  generalize x.paged = p at h ⊢
  induction ps generalizing p with
  | nil => exact h
  | cons n ps ih => exact ih _ (copyPage_retired h n)

/-- What the keeper writes takes the pages into the MRAM (R418). -/
theorem keeps_savePages (ps : List Nat) (h : Keeps r c s0 s) : Keeps r c s0 { s with cellar := savePages ps s.cellar } :=
  ⟨h.pending, h.totals, fun x => ⟨TotalsUp.trans (h.pages x).1 (savePages_up (h.pages x).2 ps).1, (savePages_up (h.pages x).2 ps).2⟩,
   fun x => savePages_saved (h.saved x) ps, h.press, h.latches, h.latched, h.retired⟩

theorem keeps_modPages (ps : List Nat) (f : Lifetime → Lifetime) (hf : ∀ x, lifeKeeps x (f x)) (h : Keeps r c s0 s) :
    Keeps r c s0 (modPages s ps f) :=
  keeps_savePages ps (keeps_modLife f hf h)

/-- The same where the change is judged in the state at hand. -/
theorem keeps_modPages_at (ps : List Nat) (f : Lifetime → Lifetime) (hf : TotalsUp s.cellar.life (f s.cellar.life))
    (hr : ∀ l, ((f s.cellar.life).lanes.get l).retired = (s.cellar.life.lanes.get l).retired) (h : Keeps r c s0 s) :
    Keeps r c s0 (modPages s ps f) :=
  keeps_savePages ps (s := modLife s f) ⟨h.pending, fun e => TotalsUp.trans (h.totals e) hf,
    fun x => ⟨(h.pages x).1, TotalsUp.trans (h.pages x).2 hf⟩, fun x l => (h.saved x l).trans (hr l).symm, h.press, h.latches, h.latched,
    fun e l x => (hr l).trans (h.retired e l x)⟩

/-- A change of page 3 that lowers no total and clears no retirement. -/
theorem keeps_modPage3 (f : Lifetime → Lifetime) (hf : ∀ x, TotalsUp x (f x))
    (hr : c = false → ∀ x l, (x.lanes.get l).retired = true → ((f x).lanes.get l).retired = true) (h : Keeps r c s0 s) :
    Keeps r c s0 (modPages s [3] f) := by
  refine ⟨h.pending, fun e => TotalsUp.trans (h.totals e) (hf _), fun x => ?_, fun _ _ => rfl, h.press, h.latches, h.latched,
    fun e l x => hr e _ l (h.retired e l x)⟩
  have k : TotalsUp s.cellar.paged (f s.cellar.life) := TotalsUp.trans (h.pages x).2 (hf _)
  have a := savePages_up (x := { s.cellar with life := f s.cellar.life }) k [3]
  exact ⟨TotalsUp.trans (h.pages x).1 a.1, a.2⟩

theorem keeps_foldS {α : Type} (xs : List α) (f : State → α → State) (hf : ∀ t x, Keeps r c s0 t → Keeps r c s0 (f t x))
    (h : Keeps r c s0 s) : Keeps r c s0 (foldS xs f s) := by
  unfold foldS
  induction xs generalizing s with
  | nil => exact h
  | cons a xs ih => exact ih (hf _ _ h)

theorem keeps_whenS (b : Bool) (f : State → State) (hf : ∀ t, Keeps r c s0 t → Keeps r c s0 (f t)) (h : Keeps r c s0 s) :
    Keeps r c s0 (whenS b f s) := by
  unfold whenS; split
  · exact hf _ h
  · exact h

theorem totalsUp_isolate (x : Lifetime) (l : Lane) (k : IsoCause) (counted again retire : Bool) (now : Time) :
    TotalsUp x { x with lanes := x.lanes.set l (lifeIsolate (x.lanes.get l) k counted again retire now) } := by
  constructor <;> intros <;> first | exact up_refl _ | skip
  refine laneTotalsUp_set _ _ _ _ ⟨?_, ?_, up_refl _⟩
  · dsimp only [lifeIsolate]; split
    · exact up_refl _
    · exact up_satInc _
  · dsimp only [lifeIsolate]; split
    · exact up_satInc _
    · exact up_refl _

theorem retired_isolate (x : Lifetime) (l m : Lane) (k : IsoCause) (counted again retire : Bool) (now : Time)
    (h : (x.lanes.get m).retired = true) :
    ((x.lanes.set l (lifeIsolate (x.lanes.get l) k counted again retire now)).get m).retired = true := by
  cases l <;> cases m <;> first | exact h | (show ((_ : Bool) || retire) = true; rw [h]; rfl)

/-- A change of the Sluices that may look at each as it stands. -/
theorem keeps_modSluices_at (f : Lane → Sluice → Sluice)
    (hf : ∀ l, (latchOpens (s.sluices.get l) = true → latchOpens (f l (s.sluices.get l)) = true) ∧
      ((s.sluices.get l).latch = true → (f l (s.sluices.get l)).latch = true))
    (h : Keeps r c s0 s) : Keeps r c s0 (modSluices s f) := by
  refine ⟨h.pending, h.totals, h.pages, h.saved, h.press, fun m x => ?_, fun e m x => ?_, h.retired⟩
  · have := h.latches m x
    cases m
    · exact (hf .A).1 this
    · exact (hf .B).1 this
    · exact (hf .C).1 this
  · have := h.latched e m x
    cases m
    · exact (hf .A).2 this
    · exact (hf .B).2 this
    · exact (hf .C).2 this

/-- A state with everything but the queue, the lanes, the Sluices and the Cellar replaced. -/
def withRest (s : State) (m : Machine.Module) (a : Alk) (f : Field) (p : PerPort PortState) (w : Twin) (o : List HostWrite) (b : Word)
    (n : Nat) : State := { s with mod := m, alk := a, field := f, ports := p, twin := w, hostMem := o, bus := b, free := n }

/-- A record update that leaves the queue, the lanes, the Sluices and the Cellar as they are. -/
theorem mk_withRest (s : State) (m : Machine.Module) (a : Alk) (f : Field) (p : PerPort PortState) (w : Twin) (o : List HostWrite)
    (b : Word) (n : Nat) :
    State.mk m s.lanes s.sluices a f p w s.cellar o b n s.pending = withRest s m a f p w o b n := rfl

theorem keeps_withRest (m : Machine.Module) (a : Alk) (f : Field) (p : PerPort PortState) (w : Twin) (o : List HostWrite) (b : Word)
    (n : Nat) (h : Keeps r c s0 s) : Keeps r c s0 (withRest s m a f p w o b n) := keeps_same h rfl rfl rfl rfl rfl

/-- A state with the Cellar replaced as well. -/
def withCellar (s : State) (m : Machine.Module) (a : Alk) (f : Field) (p : PerPort PortState) (w : Twin) (o : List HostWrite) (b : Word)
    (n : Nat) (x : Cellar) : State := withRest { s with cellar := x } m a f p w o b n

theorem mk_withCellar (s : State) (m : Machine.Module) (a : Alk) (f : Field) (p : PerPort PortState) (w : Twin) (o : List HostWrite)
    (b : Word) (n : Nat) (x : Cellar) :
    State.mk m s.lanes s.sluices a f p w x o b n s.pending = withCellar s m a f p w o b n x := rfl

theorem keeps_withCellar (m : Machine.Module) (a : Alk) (f : Field) (p : PerPort PortState) (w : Twin) (o : List HostWrite) (b : Word)
    (n : Nat) (x : Cellar) (hx : x.life = s.cellar.life) (hg : x.paged = s.cellar.paged) (h : Keeps r c s0 s) :
    Keeps r c s0 (withCellar s m a f p w o b n x) := keeps_same h rfl rfl rfl hx hg

theorem keeps_withSaved (m : Machine.Module) (a : Alk) (f : Field) (p : PerPort PortState) (w : Twin) (o : List HostWrite) (b : Word)
    (n : Nat) (ps : List Nat) (x : Cellar) (hx : x.life = s.cellar.life) (hg : x.paged = s.cellar.paged) (h : Keeps r c s0 s) :
    Keeps r c s0 (withCellar s m a f p w o b n (savePages ps x)) :=
  keeps_savePages ps (s := withCellar s m a f p w o b n x) (keeps_same h rfl rfl rfl hx hg)

/-- A record update of the Cellar by a function that leaves its lifetime area as it is. -/
theorem keeps_logPut (x : Record) (h : Keeps r c s0 s) : Keeps r c s0 { s with cellar := logPut s.cellar x } :=
  keeps_same h rfl rfl rfl (by unfold logPut; (repeat' split) <;> rfl) (by unfold logPut; (repeat' split) <;> rfl)

end Sys2Proof.Laws
end

