-- ==== Sys2Proof/Laws/KeepsBase.lean ====
section
/-!
SUPPORT. What every operation of lanes, events, records, checks and the Press keeps (Safety.Keeps), one lemma for each operation and for each command.
-/

namespace Sys2Proof.Laws

open Sys2Proof.Machine Sys2Proof.Safety

theorem keeps_answer {rs cl : Bool} {z : State} (s : State) (v : Word) (hk : Keeps rs cl z s) :
    Keeps rs cl z (answer s v) := by
  unfold answer
  try dsimp only
  repeat' first
    | with_reducible exact hk
    | (rw [mk_withRest]; with_reducible apply keeps_withRest)

theorem keeps_noAnswer {rs cl : Bool} {z : State} (s : State) (hk : Keeps rs cl z s) :
    Keeps rs cl z (noAnswer s) := by
  unfold noAnswer
  try dsimp only
  repeat' first
    | with_reducible exact hk
    | with_reducible apply keeps_answer

theorem keeps_sendVector {rs cl : Bool} {z : State} (s : State) (p : Port) (v : Nat) (hk : Keeps rs cl z s) :
    Keeps rs cl z (sendVector s p v) := by
  unfold sendVector
  try dsimp only
  repeat' first
    | with_reducible exact hk
    | with_reducible apply keeps_modPort
    | split

theorem keeps_eicMessage {rs cl : Bool} {z : State} (s : State) (x : EicSrc) (before after : Option EicTarget) (hk : Keeps rs cl z s) :
    Keeps rs cl z (eicMessage s x before after) := by
  unfold eicMessage
  try dsimp only
  repeat' first
    | with_reducible exact hk
    | with_reducible apply keeps_sendVector
    | with_reducible apply keeps_modPort
    | split

theorem keeps_eicSettle {rs cl : Bool} {z : State} (s : State) (l : Lane) (n : Nat) (e' : Eic) (hk : Keeps rs cl z s) :
    Keeps rs cl z (eicSettle s l n e') := by
  unfold eicSettle
  try dsimp only
  repeat' first
    | with_reducible exact hk
    | with_reducible apply keeps_eicMessage
    | with_reducible apply keeps_modLane
    | (intro L hL; with_reducible exact hL)

theorem keeps_eicUpd {rs cl : Bool} {z : State} (s : State) (l : Lane) (n : Nat) (f : EicSrc → EicSrc) (hk : Keeps rs cl z s) :
    Keeps rs cl z (eicUpd s l n f) := by
  unfold eicUpd
  try dsimp only
  repeat' first
    | with_reducible exact hk
    | with_reducible apply keeps_eicSettle
    | split

theorem keeps_eicRaise {rs cl : Bool} {z : State} (s : State) (l : Lane) (n : Nat) (hk : Keeps rs cl z s) :
    Keeps rs cl z (eicRaise s l n) := by
  unfold eicRaise
  try dsimp only
  repeat' first
    | with_reducible exact hk
    | with_reducible apply keeps_eicUpd
    | split

theorem keeps_eicLevel {rs cl : Bool} {z : State} (s : State) (l : Lane) (n : Nat) (v : Bool) (hk : Keeps rs cl z s) :
    Keeps rs cl z (eicLevel s l n v) := by
  unfold eicLevel
  try dsimp only
  repeat' first
    | with_reducible exact hk
    | with_reducible apply keeps_eicUpd
    | split

theorem keeps_eicRaiseAll {rs cl : Bool} {z : State} (s : State) (n : Nat) (hk : Keeps rs cl z s) :
    Keeps rs cl z (eicRaiseAll s n) := by
  unfold eicRaiseAll
  try dsimp only
  repeat' first
    | with_reducible exact hk
    | with_reducible apply keeps_eicRaise
    | with_reducible apply keeps_foldS
    | (with_reducible intro t x hk)

theorem keeps_eicLevelAll {rs cl : Bool} {z : State} (s : State) (n : Nat) (v : Bool) (hk : Keeps rs cl z s) :
    Keeps rs cl z (eicLevelAll s n v) := by
  unfold eicLevelAll
  try dsimp only
  repeat' first
    | with_reducible exact hk
    | with_reducible apply keeps_eicLevel
    | with_reducible apply keeps_foldS
    | (with_reducible intro t x hk)

theorem keeps_eicSettleAll {rs cl : Bool} {z : State} (s : State) (l : Lane) (e' : Eic) (hk : Keeps rs cl z s) :
    Keeps rs cl z (eicSettleAll s l e') := by
  unfold eicSettleAll
  try dsimp only
  repeat' first
    | with_reducible exact hk
    | with_reducible apply keeps_eicMessage
    | with_reducible apply keeps_modLane
    | with_reducible apply keeps_foldS
    | (intro L hL; with_reducible exact hL)
    | (with_reducible intro t x hk)

theorem keeps_execEventArrival {rs cl : Bool} {z : State} (l : Lane) (source : Fin 1024) (s : State) (q0 : State) (hk : Keeps rs cl z s) :
    Keeps rs cl z (thenState q0 (execEventArrival l source s)) := by
  unfold execEventArrival
  dsimp only [thenState]
  repeat' first
    | with_reducible exact hk
    | with_reducible apply keeps_eicRaise
    | split

theorem keeps_execFallbackMove {rs cl : Bool} {z : State} (l : Lane) (p : Port) (s : State) (q0 : State) (hk : Keeps rs cl z s) :
    Keeps rs cl z (thenState q0 (execFallbackMove l p s)) := by
  unfold execFallbackMove
  dsimp only [thenState]
  repeat' first
    | with_reducible exact hk
    | with_reducible apply keeps_eicSettleAll
    | split

theorem keeps_countAccess {rs cl : Bool} {z : State} (s : State) (a : RegAccess) (hk : Keeps rs cl z s) :
    Keeps rs cl z (countAccess s a) := by
  unfold countAccess
  try dsimp only
  repeat' first
    | with_reducible exact hk
    | with_reducible apply keeps_modPort
    | split

theorem keeps_countClaim {rs cl : Bool} {z : State} (s : State) (a : RegAccess) (t : EicTarget) (hk : Keeps rs cl z s) :
    Keeps rs cl z (countClaim s a t) := by
  unfold countClaim
  try dsimp only
  repeat' first
    | with_reducible exact hk
    | with_reducible apply keeps_countAccess
    | (rw [mk_withRest]; with_reducible apply keeps_withRest)
    | split

theorem keeps_execEicClaim {rs cl : Bool} {z : State} (a : RegAccess) (t : EicTarget) (s : State) (q0 : State) (hk : Keeps rs cl z s) :
    Keeps rs cl z (thenState q0 (execEicClaim a t s)) := by
  unfold execEicClaim
  dsimp only [thenState]
  repeat' first
    | with_reducible exact hk
    | with_reducible apply keeps_answer
    | with_reducible apply keeps_noAnswer
    | with_reducible apply keeps_eicUpd
    | with_reducible apply keeps_countClaim
    | (rw [mk_withRest]; with_reducible apply keeps_withRest)
    | split

theorem keeps_execEicComplete {rs cl : Bool} {z : State} (a : RegAccess) (t : EicTarget) (value : Word) (s : State) (q0 : State) (hk : Keeps rs cl z s) :
    Keeps rs cl z (thenState q0 (execEicComplete a t value s)) := by
  unfold execEicComplete
  dsimp only [thenState]
  repeat' first
    | with_reducible exact hk
    | with_reducible apply keeps_eicUpd
    | with_reducible apply keeps_modLane
    | (intro L hL; with_reducible exact hL)
    | split

theorem keeps_eicBitmap {rs cl : Bool} {z : State} (a : RegAccess) (n : Fin 32) (value : Word) (f : EicSrc → EicSrc) (s : State) (hk : Keeps rs cl z s) :
    Keeps rs cl z (eicBitmap a n value f s) := by
  unfold eicBitmap
  try dsimp only
  repeat' first
    | with_reducible exact hk
    | with_reducible apply keeps_eicUpd
    | with_reducible apply keeps_foldS
    | (with_reducible intro t x hk)
    | split

theorem keeps_execEicEnableSet {rs cl : Bool} {z : State} (a : RegAccess) (n : Fin 32) (value : Word) (s : State) (q0 : State) (hk : Keeps rs cl z s) :
    Keeps rs cl z (thenState q0 (execEicEnableSet a n value s)) := by
  unfold execEicEnableSet
  dsimp only [thenState]
  repeat' first
    | with_reducible exact hk
    | with_reducible apply keeps_eicBitmap

theorem keeps_execEicEnableClr {rs cl : Bool} {z : State} (a : RegAccess) (n : Fin 32) (value : Word) (s : State) (q0 : State) (hk : Keeps rs cl z s) :
    Keeps rs cl z (thenState q0 (execEicEnableClr a n value s)) := by
  unfold execEicEnableClr
  dsimp only [thenState]
  repeat' first
    | with_reducible exact hk
    | with_reducible apply keeps_eicBitmap

theorem keeps_execEicPendingSet {rs cl : Bool} {z : State} (a : RegAccess) (n : Fin 32) (value : Word) (s : State) (q0 : State) (hk : Keeps rs cl z s) :
    Keeps rs cl z (thenState q0 (execEicPendingSet a n value s)) := by
  unfold execEicPendingSet
  dsimp only [thenState]
  repeat' first
    | with_reducible exact hk
    | with_reducible apply keeps_eicBitmap

theorem keeps_execEicPendingClr {rs cl : Bool} {z : State} (a : RegAccess) (n : Fin 32) (value : Word) (s : State) (q0 : State) (hk : Keeps rs cl z s) :
    Keeps rs cl z (thenState q0 (execEicPendingClr a n value s)) := by
  unfold execEicPendingClr
  dsimp only [thenState]
  repeat' first
    | with_reducible exact hk
    | with_reducible apply keeps_eicBitmap

theorem keeps_execEicTargetH0Set {rs cl : Bool} {z : State} (a : RegAccess) (n : Fin 32) (value : Word) (s : State) (q0 : State) (hk : Keeps rs cl z s) :
    Keeps rs cl z (thenState q0 (execEicTargetH0Set a n value s)) := by
  unfold execEicTargetH0Set
  dsimp only [thenState]
  repeat' first
    | with_reducible exact hk
    | with_reducible apply keeps_eicBitmap

theorem keeps_execEicTargetH0Clr {rs cl : Bool} {z : State} (a : RegAccess) (n : Fin 32) (value : Word) (s : State) (q0 : State) (hk : Keeps rs cl z s) :
    Keeps rs cl z (thenState q0 (execEicTargetH0Clr a n value s)) := by
  unfold execEicTargetH0Clr
  dsimp only [thenState]
  repeat' first
    | with_reducible exact hk
    | with_reducible apply keeps_eicBitmap

theorem keeps_execEicTargetH1Set {rs cl : Bool} {z : State} (a : RegAccess) (n : Fin 32) (value : Word) (s : State) (q0 : State) (hk : Keeps rs cl z s) :
    Keeps rs cl z (thenState q0 (execEicTargetH1Set a n value s)) := by
  unfold execEicTargetH1Set
  dsimp only [thenState]
  repeat' first
    | with_reducible exact hk
    | with_reducible apply keeps_eicBitmap

theorem keeps_execEicTargetH1Clr {rs cl : Bool} {z : State} (a : RegAccess) (n : Fin 32) (value : Word) (s : State) (q0 : State) (hk : Keeps rs cl z s) :
    Keeps rs cl z (thenState q0 (execEicTargetH1Clr a n value s)) := by
  unfold execEicTargetH1Clr
  dsimp only [thenState]
  repeat' first
    | with_reducible exact hk
    | with_reducible apply keeps_eicBitmap

theorem keeps_execEicCompatPend {rs cl : Bool} {z : State} (a : RegAccess) (n : Fin 32) (value : Word) (s : State) (q0 : State) (hk : Keeps rs cl z s) :
    Keeps rs cl z (thenState q0 (execEicCompatPend a n value s)) := by
  unfold execEicCompatPend
  dsimp only [thenState]
  repeat' first
    | with_reducible exact hk
    | with_reducible apply keeps_eicBitmap

theorem keeps_execEicOvfClr {rs cl : Bool} {z : State} (a : RegAccess) (n : Fin 32) (value : Word) (s : State) (q0 : State) (hk : Keeps rs cl z s) :
    Keeps rs cl z (thenState q0 (execEicOvfClr a n value s)) := by
  unfold execEicOvfClr
  dsimp only [thenState]
  repeat' first
    | with_reducible exact hk
    | with_reducible apply keeps_eicBitmap

theorem keeps_countLost {rs cl : Bool} {z : State} (s : State) (l : Lane) (n : Nat) (hk : Keeps rs cl z s) :
    Keeps rs cl z (countLost s l n) := by
  unfold countLost
  try dsimp only
  repeat' first
    | with_reducible exact hk
    | with_reducible apply keeps_modLane
    | (intro L hL; with_reducible exact hL)

theorem keeps_writeRecord {rs cl : Bool} {z : State} (s : State) (l : Lane) (r : Record) (hk : Keeps rs cl z s) :
    Keeps rs cl z (writeRecord s l r) := by
  unfold writeRecord
  try dsimp only
  repeat' first
    | with_reducible exact hk
    | with_reducible apply keeps_countLost
    | with_reducible apply keeps_logPut
    | split

theorem keeps_stageRecord {rs cl : Bool} {z : State} (s : State) (l : Lane) (r : Record) (summary : Bool) (hk : Keeps rs cl z s) :
    Keeps rs cl z (stageRecord s l r summary) := by
  unfold stageRecord
  try dsimp only
  repeat' first
    | with_reducible exact hk
    | with_reducible apply keeps_modLane
    | (rw [mk_withRest]; with_reducible apply keeps_withRest)
    | (intro L hL; with_reducible exact hL)
    | (intro L hL; ((repeat' split) <;> first | with_reducible exact hL | exact hL | exact pressOk_stopPress hL))
    | split

theorem keeps_throughRecord {rs cl : Bool} {z : State} (s : State) (l : Lane) (r : Record) (hk : Keeps rs cl z s) :
    Keeps rs cl z (throughRecord s l r) := by
  unfold throughRecord
  try dsimp only
  repeat' first
    | with_reducible exact hk
    | with_reducible apply keeps_writeRecord
    | with_reducible apply keeps_modLane
    | (rw [mk_withRest]; with_reducible apply keeps_withRest)
    | (intro L hL; with_reducible exact hL)
    | (intro L hL; ((repeat' split) <;> first | with_reducible exact hL | exact hL | exact pressOk_stopPress hL))
    | split

theorem keeps_putRecord {rs cl : Bool} {z : State} (s : State) (l : Lane) (r : Record) (summary : Bool) (hk : Keeps rs cl z s) :
    Keeps rs cl z (putRecord s l r summary) := by
  unfold putRecord
  try dsimp only
  repeat' first
    | with_reducible exact hk
    | with_reducible apply keeps_countLost
    | with_reducible apply keeps_throughRecord
    | with_reducible apply keeps_stageRecord
    | split

theorem keeps_suppress {rs cl : Bool} {z : State} (s : State) (l : Lane) (code : Nat) (hk : Keeps rs cl z s) :
    Keeps rs cl z (suppress s l code) := by
  unfold suppress
  try dsimp only
  repeat' first
    | with_reducible exact hk
    | with_reducible apply keeps_eicRaise
    | with_reducible apply keeps_modLane
    | (rw [mk_withRest]; with_reducible apply keeps_withRest)
    | (intro L hL; with_reducible exact hL)
    | (intro L hL; ((repeat' split) <;> first | with_reducible exact hL | exact hL | exact pressOk_stopPress hL))
    | split

theorem keeps_recordOne {rs cl : Bool} {z : State} (s : State) (l : Lane) (code : Nat) (module : Bool) (payload : List Byte) (hk : Keeps rs cl z s) :
    Keeps rs cl z (recordOne s l code module payload) := by
  unfold recordOne
  try dsimp only
  repeat' first
    | with_reducible exact hk
    | with_reducible apply keeps_putRecord
    | with_reducible apply keeps_suppress
    | with_reducible apply keeps_modLane
    | (intro L hL; with_reducible exact hL)
    | split

theorem keeps_recordLane {rs cl : Bool} {z : State} (s : State) (l : Lane) (code : Nat) (payload : List Byte) (hk : Keeps rs cl z s) :
    Keeps rs cl z (recordLane s l code payload) := by
  unfold recordLane
  try dsimp only
  repeat' first
    | with_reducible exact hk
    | with_reducible apply keeps_recordOne

theorem keeps_recordAll {rs cl : Bool} {z : State} (s : State) (code : Nat) (payload : List Byte) (hk : Keeps rs cl z s) :
    Keeps rs cl z (recordAll s code payload) := by
  unfold recordAll
  try dsimp only
  repeat' first
    | with_reducible exact hk
    | with_reducible apply keeps_recordOne
    | with_reducible apply keeps_foldS
    | (with_reducible intro t x hk)

theorem keeps_eventAll {rs cl : Bool} {z : State} (s : State) (src code : Nat) (payload : List Byte) (hk : Keeps rs cl z s) :
    Keeps rs cl z (eventAll s src code payload) := by
  unfold eventAll
  try dsimp only
  repeat' first
    | with_reducible exact hk
    | with_reducible apply keeps_recordAll
    | with_reducible apply keeps_eicRaiseAll

theorem keeps_eventLane {rs cl : Bool} {z : State} (s : State) (l : Lane) (src code : Nat) (payload : List Byte) (hk : Keeps rs cl z s) :
    Keeps rs cl z (eventLane s l src code payload) := by
  unfold eventLane
  try dsimp only
  repeat' first
    | with_reducible exact hk
    | with_reducible apply keeps_recordLane
    | with_reducible apply keeps_eicRaise

theorem keeps_mirrorFault {rs cl : Bool} {z : State} (s : State) (l : Lane) (dev off : Nat) (hk : Keeps rs cl z s) :
    Keeps rs cl z (mirrorFault s l dev off) := by
  unfold mirrorFault
  try dsimp only
  repeat' first
    | with_reducible exact hk
    | with_reducible apply keeps_eventLane
    | (rw [mk_withRest]; with_reducible apply keeps_withRest)
    | split

theorem keeps_devError {rs cl : Bool} {z : State} (s : State) (l : Lane) (dev n : Nat) (hk : Keeps rs cl z s) :
    Keeps rs cl z (devError s l dev n) := by
  unfold devError
  try dsimp only
  repeat' first
    | with_reducible exact hk
    | with_reducible apply keeps_modLane
    | (rw [mk_withRest]; with_reducible apply keeps_withRest)
    | (intro L hL; with_reducible exact hL)
    | (intro L hL; ((repeat' split) <;> first | with_reducible exact hL | exact hL | exact pressOk_stopPress hL))
    | split

theorem keeps_failDevice {rs cl : Bool} {z : State} (s : State) (l : Lane) (dev n off : Nat) (hk : Keeps rs cl z s) :
    Keeps rs cl z (failDevice s l dev n off) := by
  unfold failDevice
  try dsimp only
  repeat' first
    | with_reducible exact hk
    | with_reducible apply keeps_mirrorFault
    | with_reducible apply keeps_devError
    | with_reducible apply keeps_modLane
    | (rw [mk_withCellar]; with_reducible apply keeps_withSaved; rfl; rfl)
    | (rw [mk_withCellar]; with_reducible apply keeps_withCellar; rfl; rfl)
    | (rw [mk_withRest]; with_reducible apply keeps_withRest)
    | (intro L hL; with_reducible exact hL)
    | split

theorem keeps_closeWindows {rs cl : Bool} {z : State} (s : State) (l : Lane) (hk : Keeps rs cl z s) :
    Keeps rs cl z (closeWindows s l) := by
  unfold closeWindows
  try dsimp only
  repeat' first
    | with_reducible exact hk
    | with_reducible apply keeps_putRecord
    | with_reducible apply keeps_modLane
    | with_reducible apply keeps_foldS
    | (intro L hL; with_reducible exact hL)
    | (with_reducible intro t x hk)
    | split

theorem keeps_closeLost {rs cl : Bool} {z : State} (s : State) (l : Lane) (hk : Keeps rs cl z s) :
    Keeps rs cl z (closeLost s l) := by
  unfold closeLost
  try dsimp only
  repeat' first
    | with_reducible exact hk
    | with_reducible apply keeps_putRecord
    | with_reducible apply keeps_modLane
    | (intro L hL; with_reducible exact hL)
    | split

theorem keeps_drainStaging {rs cl : Bool} {z : State} (s : State) (l : Lane) (hk : Keeps rs cl z s) :
    Keeps rs cl z (drainStaging s l) := by
  unfold drainStaging
  try dsimp only
  repeat' first
    | with_reducible exact hk
    | with_reducible apply keeps_writeRecord
    | with_reducible apply keeps_modLane
    | with_reducible apply keeps_foldS
    | (rw [mk_withRest]; with_reducible apply keeps_withRest)
    | (intro L hL; with_reducible exact hL)
    | (intro L hL; ((repeat' split) <;> first | with_reducible exact hL | exact hL | exact pressOk_stopPress hL))
    | split
    | (with_reducible intro t x hk)
    | (with_reducible intro t hk)

theorem keeps_keeperPages {rs cl : Bool} {z : State} (s : State) (hk : Keeps rs cl z s) :
    Keeps rs cl z (keeperPages s) := by
  unfold keeperPages
  try dsimp only
  repeat' first
    | with_reducible exact hk
    | with_reducible apply keeps_modLife
    | (rw [mk_withCellar]; with_reducible apply keeps_withSaved; rfl; rfl)
    | (rw [mk_withCellar]; with_reducible apply keeps_withCellar; rfl; rfl)
    | (rw [mk_withRest]; with_reducible apply keeps_withRest)
    | (intro x; refine ⟨?_, fun m => rfl⟩; constructor <;> intros <;> dsimp only <;> (try split) <;> first | exact up_refl _ | exact ⟨up_refl _, up_refl _, up_refl _⟩ | exact up_satInc _ | exact up_satAdd _ _ | exact up_smod_satInc _ _ _ | exact up_port _ _ _ | exact up_lanes _ _ | exact up_lanesIf _ _ _ | exact up_lanesSet _ _ _)
    | split

theorem keeps_flushLane {rs cl : Bool} {z : State} (s : State) (l : Lane) (t : FlushTrigger) (hk : Keeps rs cl z s) :
    Keeps rs cl z (flushLane s l t) := by
  unfold flushLane
  try dsimp only
  repeat' first
    | with_reducible exact hk
    | with_reducible apply keeps_closeWindows
    | with_reducible apply keeps_closeLost
    | with_reducible apply keeps_drainStaging
    | with_reducible apply keeps_keeperPages
    | with_reducible apply keeps_modLane
    | (rw [mk_withRest]; with_reducible apply keeps_withRest)
    | (intro L hL; with_reducible exact hL)
    | (intro L hL; ((repeat' split) <;> first | with_reducible exact hL | exact hL | exact pressOk_stopPress hL))
    | split

theorem keeps_readBack {rs cl : Bool} {z : State} (s : State) (l : Lane) (dev : Nat) (x : ReadBack) (hk : Keeps rs cl z s) :
    Keeps rs cl z (readBack s l dev x) := by
  unfold readBack
  try dsimp only
  repeat' first
    | with_reducible exact hk
    | with_reducible apply keeps_devError
    | with_reducible apply keeps_failDevice
    | split

theorem keeps_execFlush {rs cl : Bool} {z : State} (l : Lane) (trigger : FlushTrigger) (dev0 dev1 : ReadBack) (s : State) (q0 : State) (hk : Keeps rs cl z s) :
    Keeps rs cl z (thenState q0 (execFlush l trigger dev0 dev1 s)) := by
  unfold execFlush
  dsimp only [thenState]
  repeat' first
    | with_reducible exact hk
    | with_reducible apply keeps_readBack
    | with_reducible apply keeps_flushLane
    | with_reducible apply keeps_modLane
    | (rw [mk_withRest]; with_reducible apply keeps_withRest)
    | (intro L hL; with_reducible exact hL)
    | (intro L hL; ((repeat' split) <;> first | with_reducible exact hL | exact hL | exact pressOk_stopPress hL))
    | split

theorem keeps_execCelStagePeak {rs cl : Bool} {z : State} (a : RegAccess) (s : State) (q0 : State) (hk : Keeps rs cl z s) :
    Keeps rs cl z (thenState q0 (execCelStagePeak a s)) := by
  unfold execCelStagePeak
  dsimp only [thenState]
  repeat' first
    | with_reducible exact hk
    | with_reducible apply keeps_answer
    | with_reducible apply keeps_noAnswer
    | with_reducible apply keeps_modLane
    | (intro L hL; with_reducible exact hL)
    | split

theorem keeps_addHistory {rs cl : Bool} {z : State} (s : State) (kind lane' value : Nat) (detail : BitVec 64) (detail2 : BitVec 64) (hk : Keeps rs cl z s) :
    Keeps rs cl z (addHistory s kind lane' value detail detail2) := by
  unfold addHistory
  try dsimp only
  repeat' first
    | with_reducible exact hk
    | with_reducible apply keeps_modLife
    | (intro x; refine ⟨?_, fun m => rfl⟩; constructor <;> intros <;> dsimp only <;> (try split) <;> first | exact up_refl _ | exact ⟨up_refl _, up_refl _, up_refl _⟩ | exact up_satInc _ | exact up_satAdd _ _ | exact up_smod_satInc _ _ _ | exact up_port _ _ _ | exact up_lanes _ _)

theorem keeps_setModule {rs cl : Bool} {z : State} (s : State) (m : ModSt) (hk : Keeps rs cl z s) :
    Keeps rs cl z (setModule s m) := by
  unfold setModule
  try dsimp only
  repeat' first
    | with_reducible exact hk
    | with_reducible apply keeps_eventAll
    | (rw [mk_withRest]; with_reducible apply keeps_withRest)
    | split

theorem keeps_setLatch {rs cl : Bool} {z : State} (s : State) (l : Lane) (c : LatchCause) (hk : Keeps rs cl z s) :
    Keeps rs cl z (setLatch s l c) := by
  unfold setLatch
  try dsimp only
  repeat' first
    | with_reducible exact hk
    | with_reducible apply keeps_modSluice
    | (intro x; unfold latchOpens; dsimp only; constructor <;> (repeat' split) <;> simp_all; done)

theorem keeps_setPhase {rs cl : Bool} {z : State} (s : State) (l : Lane) (ph : BitVec 3) (hk : Keeps rs cl z s) :
    Keeps rs cl z (setPhase s l ph) := by
  unfold setPhase
  try dsimp only
  repeat' first
    | with_reducible exact hk
    | with_reducible apply keeps_modLane
    | with_reducible apply keeps_modPort
    | (intro L hL; with_reducible exact hL)
    | split

theorem keeps_abortSwitchTests {rs cl : Bool} {z : State} (s : State) (hk : Keeps rs cl z s) :
    Keeps rs cl z (abortSwitchTests s) := by
  unfold abortSwitchTests
  try dsimp only
  repeat' first
    | with_reducible exact hk
    | with_reducible apply keeps_modSluices
    | (intro l x; unfold latchOpens; dsimp only; constructor <;> (repeat' split) <;> simp_all; done)

theorem keeps_dropLane {rs cl : Bool} {z : State} (s : State) (l : Lane) (hk : Keeps rs cl z s) :
    Keeps rs cl z (dropLane s l) := by
  unfold dropLane
  try dsimp only
  repeat' first
    | with_reducible exact hk
    | with_reducible apply keeps_modSluice
    | with_reducible apply keeps_modSluices
    | (intro l x; with_reducible exact ⟨id, id⟩)
    | (intro x; unfold latchOpens; dsimp only; constructor <;> (repeat' split) <;> simp_all; done)

theorem keeps_dropPlanned {rs cl : Bool} {z : State} (s : State) (l : Lane) (hk : Keeps rs cl z s) :
    Keeps rs cl z (dropPlanned s l) := by
  unfold dropPlanned
  try dsimp only
  repeat' first
    | with_reducible exact hk
    | with_reducible apply keeps_modLanes
    | (rw [mk_withRest]; with_reducible apply keeps_withRest)
    | (intro l L hL; with_reducible exact hL)
    | (intro l L hL; ((repeat' split) <;> first | with_reducible exact hL | exact hL | exact pressOk_stopPress hL))
    | split

theorem keeps_takeNonce {rs cl : Bool} {z : State} (s : State) (a : Auth) (hk : Keeps rs cl z s) :
    Keeps rs cl z (takeNonce s a) := by
  unfold takeNonce
  try dsimp only
  repeat' first
    | with_reducible exact hk
    | with_reducible apply keeps_modPages
    | with_reducible apply keeps_modLife
    | (rw [mk_withRest]; with_reducible apply keeps_withRest)
    | (intro x; refine ⟨?_, fun m => rfl⟩; constructor <;> intros <;> dsimp only <;> (try split) <;> first | exact up_refl _ | exact ⟨up_refl _, up_refl _, up_refl _⟩ | exact up_satInc _ | exact up_satAdd _ _ | exact up_smod_satInc _ _ _ | exact up_port _ _ _ | exact up_lanes _ _ | exact up_lanesIf _ _ _ | exact up_lanesSet _ _ _)
    | split

theorem keeps_recordMaint {rs cl : Bool} {z : State} (s : State) (kind item : Nat) (a : Auth) (hk : Keeps rs cl z s) :
    Keeps rs cl z (recordMaint s kind item a) := by
  unfold recordMaint
  try dsimp only
  repeat' first
    | with_reducible exact hk
    | with_reducible apply keeps_recordLane
    | with_reducible apply keeps_foldS
    | (with_reducible intro t x hk)

theorem keeps_harnal {rs cl : Bool} {z : State} (s : State) (a : Auth) (kind item : Nat) (f : State → State)
    (hf : ∀ t, Keeps rs cl z t → Keeps rs cl z (f t)) (hk : Keeps rs cl z s) : Keeps rs cl z (harnal s a kind item f) := by
  unfold harnal
  split
  · exact hf _ (keeps_recordMaint _ _ _ _ (keeps_takeNonce _ _ hk))
  · exact hk

theorem keeps_modOut {rs cl : Bool} {z : State} (s : State) (n : Nat) (f : OutRec → OutRec) (hk : Keeps rs cl z s) :
    Keeps rs cl z (modOut s n f) := by
  unfold modOut
  try dsimp only
  repeat' first
    | with_reducible exact hk
    | (rw [mk_withRest]; with_reducible apply keeps_withRest)

theorem keeps_retireOut {rs cl : Bool} {z : State} (s : State) (n : Nat) (f : OutFault) (partner : Nat) (hk : Keeps rs cl z s) :
    Keeps rs cl z (retireOut s n f partner) := by
  unfold retireOut
  try dsimp only
  repeat' first
    | with_reducible exact hk
    | with_reducible apply keeps_eventAll
    | with_reducible apply keeps_modOut
    | with_reducible apply keeps_modPages
    | with_reducible apply keeps_modLife
    | (rw [mk_withRest]; with_reducible apply keeps_withRest)
    | (intro x; refine ⟨?_, fun m => rfl⟩; constructor <;> intros <;> dsimp only <;> (try split) <;> first | exact up_refl _ | exact ⟨up_refl _, up_refl _, up_refl _⟩ | exact up_satInc _ | exact up_satAdd _ _ | exact up_smod_satInc _ _ _ | exact up_port _ _ _ | exact up_lanes _ _ | exact up_lanesIf _ _ _ | exact up_lanesSet _ _ _)
    | split

theorem keeps_closeUser {rs cl : Bool} {z : State} (s : State) (l : Lane) (u : Nat) (hk : Keeps rs cl z s) :
    Keeps rs cl z (closeUser s l u) := by
  unfold closeUser
  try dsimp only
  repeat' first
    | with_reducible exact hk
    | with_reducible apply keeps_eicRaise
    | with_reducible apply keeps_modLane
    | (intro L hL; exact hL)
    | split

theorem keeps_feedUsers {rs cl : Bool} {z : State} (s : State) (l : Lane) (p : Port) (q cls : Nat) (last whole : Bool) (bs : List Byte) (hk : Keeps rs cl z s) :
    Keeps rs cl z (feedUsers s l p q cls last whole bs) := by
  unfold feedUsers
  try dsimp only
  repeat' first
    | with_reducible exact hk
    | with_reducible apply keeps_closeUser
    | with_reducible apply keeps_modLane
    | with_reducible apply keeps_foldS
    | (rw [mk_withRest]; with_reducible apply keeps_withRest)
    | (intro L hL; exact hL)
    | (intro L hL; with_reducible exact hL)
    | (intro L hL; ((repeat' split) <;> first | with_reducible exact hL | exact hL | exact pressOk_stopPress hL))
    | split
    | (with_reducible intro t x hk)
    | (with_reducible intro t hk)

theorem keeps_execChkInit {rs cl : Bool} {z : State} (a : RegAccess) (u : Fin 64) (s : State) (q0 : State) (hk : Keeps rs cl z s) :
    Keeps rs cl z (thenState q0 (execChkInit a u s)) := by
  unfold execChkInit
  dsimp only [thenState]
  repeat' first
    | with_reducible exact hk
    | with_reducible apply keeps_modLane
    | (intro L hL; exact hL)
    | split

theorem keeps_execChkClose {rs cl : Bool} {z : State} (a : RegAccess) (u : Fin 64) (alsoInit : Bool) (s : State) (q0 : State) (hk : Keeps rs cl z s) :
    Keeps rs cl z (thenState q0 (execChkClose a u alsoInit s)) := by
  unfold execChkClose
  dsimp only [thenState]
  repeat' first
    | with_reducible exact hk
    | with_reducible apply keeps_closeUser
    | with_reducible apply keeps_modLane
    | (intro L hL; exact hL)
    | split

theorem keeps_execChkURun {rs cl : Bool} {z : State} (a : RegAccess) (u : Fin 64) (high : Bool) (value : Word) (s : State) (q0 : State) (hk : Keeps rs cl z s) :
    Keeps rs cl z (thenState q0 (execChkURun a u high value s)) := by
  unfold execChkURun
  dsimp only [thenState]
  repeat' first
    | with_reducible exact hk
    | with_reducible apply keeps_modLane
    | (intro L hL; exact hL)
    | split

theorem keeps_execChkUCtrl {rs cl : Bool} {z : State} (a : RegAccess) (u : Fin 64) (value : Word) (s : State) (q0 : State) (hk : Keeps rs cl z s) :
    Keeps rs cl z (thenState q0 (execChkUCtrl a u value s)) := by
  unfold execChkUCtrl
  dsimp only [thenState]
  repeat' first
    | with_reducible exact hk
    | with_reducible apply keeps_modLane
    | (rw [mk_withRest]; with_reducible apply keeps_withRest)
    | (intro L hL; exact hL)
    | (intro L hL; with_reducible exact hL)
    | (intro L hL; ((repeat' split) <;> first | with_reducible exact hL | exact hL | exact pressOk_stopPress hL))
    | split

theorem keeps_execChkLoadPeak {rs cl : Bool} {z : State} (a : RegAccess) (s : State) (q0 : State) (hk : Keeps rs cl z s) :
    Keeps rs cl z (thenState q0 (execChkLoadPeak a s)) := by
  unfold execChkLoadPeak
  dsimp only [thenState]
  repeat' first
    | with_reducible exact hk
    | with_reducible apply keeps_answer
    | with_reducible apply keeps_noAnswer
    | with_reducible apply keeps_modLane
    | (rw [mk_withRest]; with_reducible apply keeps_withRest)
    | (intro L hL; with_reducible exact hL)
    | (intro L hL; ((repeat' split) <;> first | with_reducible exact hL | exact hL | exact pressOk_stopPress hL))
    | split

theorem keeps_logicDone {rs cl : Bool} {z : State} (s : State) (l : Lane) (hk : Keeps rs cl z s) : Keeps rs cl z (logicDone s l) :=
  keeps_foldS _ _ (fun _ _ h => keeps_eicLevel _ _ _ _ h)
    (keeps_modLane_from l _ (fun h => pressOk_of (pressOk_commitWrites (h l)) id rfl id) hk)

/-- An outcome of a word that leaves the strand's stack within its 16 entries. -/
def fitsResult : PressResult → Prop
  | .ok y _ => y.stack.length ≤ 16
  | .call y _ _ _ => y.stack.length ≤ 16
  | .fault _ => True

theorem keeps_execPrsStackPeak {rs cl : Bool} {z : State} (a : RegAccess) (s : State) (q0 : State) (hk : Keeps rs cl z s) :
    Keeps rs cl z (thenState q0 (execPrsStackPeak a s)) := by
  unfold execPrsStackPeak
  dsimp only [thenState]
  split
  · refine keeps_answer _ _ (keeps_modLane_from _ _ (fun h => ?_) hk)
    exact pressOk_of (h a.lane) id rfl (fun k => stacksFit_map _ (fun _ hy => hy) k)
  · exact keeps_noAnswer _ hk

theorem keeps_execLaneLogicPeak {rs cl : Bool} {z : State} (a : RegAccess) (s : State) (q0 : State) (hk : Keeps rs cl z s) :
    Keeps rs cl z (thenState q0 (execLaneLogicPeak a s)) := by
  unfold execLaneLogicPeak
  dsimp only [thenState]
  repeat' first
    | with_reducible exact hk
    | with_reducible apply keeps_answer
    | with_reducible apply keeps_noAnswer
    | with_reducible apply keeps_modLane
    | (intro L hL; with_reducible exact hL)
    | split

theorem keeps_bootRead {rs cl : Bool} {z : State} (s : State) (l : Lane) (dev : Nat) (x : SlotsFound) (hk : Keeps rs cl z s) :
    Keeps rs cl z (bootRead s l dev x) := by
  unfold bootRead
  try dsimp only
  repeat' first
    | with_reducible exact hk
    | with_reducible apply keeps_devError
    | with_reducible apply keeps_failDevice
    | (rw [mk_withCellar]; with_reducible apply keeps_withSaved; rfl; rfl)
    | (rw [mk_withCellar]; with_reducible apply keeps_withCellar; rfl; rfl)
    | (rw [mk_withRest]; with_reducible apply keeps_withRest)
    | split

theorem keeps_dueFlushes {rs cl : Bool} {z : State} (s : State) (hk : Keeps rs cl z s) :
    Keeps rs cl z (dueFlushes s) := by
  unfold dueFlushes
  try dsimp only
  repeat' first
    | with_reducible exact hk
    | with_reducible apply keeps_flushLane
    | with_reducible apply keeps_foldS
    | split
    | (with_reducible intro t x hk)
    | (with_reducible intro t hk)

theorem keeps_dropStaging {rs cl : Bool} {z : State} (s : State) (hk : Keeps rs cl z s) :
    Keeps rs cl z (dropStaging s) := by
  unfold dropStaging
  try dsimp only
  repeat' first
    | with_reducible exact hk
    | with_reducible apply keeps_modLanes
    | (rw [mk_withRest]; with_reducible apply keeps_withRest)
    | (intro l L hL; with_reducible exact hL)
    | (intro l L hL; ((repeat' split) <;> first | with_reducible exact hL | exact hL | exact pressOk_stopPress hL))
    | split

theorem keeps_clearLog {rs cl : Bool} {z : State} (s : State) (staged : Nat) (r : HostRef) (kv : BitVec 16) (nonce : BitVec 64) (hk : Keeps rs cl z s) :
    Keeps rs cl z (clearLog s staged r kv nonce) := by
  unfold clearLog
  try dsimp only
  repeat' first
    | with_reducible exact hk
    | with_reducible apply keeps_eicRaise
    | with_reducible apply keeps_modPages
    | (rw [mk_withCellar]; with_reducible apply keeps_withSaved; rfl; rfl)
    | (rw [mk_withCellar]; with_reducible apply keeps_withCellar; rfl; rfl)
    | (rw [mk_withRest]; with_reducible apply keeps_withRest)
    | (intro x; refine ⟨?_, fun m => rfl⟩; constructor <;> intros <;> dsimp only <;> (try split) <;> first | exact up_refl _ | exact ⟨up_refl _, up_refl _, up_refl _⟩ | exact up_satInc _ | exact up_satAdd _ _ | exact up_smod_satInc _ _ _ | exact up_port _ _ _ | exact up_lanes _ _ | exact up_lanesIf _ _ _ | exact up_lanesSet _ _ _)
    | split

theorem keeps_clearEnds {rs cl : Bool} {z : State} (s : State) (hk : Keeps rs cl z s) :
    Keeps rs cl z (clearEnds s) := by
  unfold clearEnds
  try dsimp only
  repeat' first
    | with_reducible exact hk
    | (rw [mk_withCellar]; with_reducible apply keeps_withSaved; rfl; rfl)
    | (rw [mk_withCellar]; with_reducible apply keeps_withCellar; rfl; rfl)
    | (rw [mk_withRest]; with_reducible apply keeps_withRest)
    | split

theorem keeps_repeatClear {rs cl : Bool} {z : State} (s : State) (hk : Keeps rs cl z s) :
    Keeps rs cl z (repeatClear s) := by
  unfold repeatClear
  try dsimp only
  repeat' first
    | with_reducible exact hk
    | with_reducible apply keeps_clearLog
    | split

theorem keeps_startUsers {rs cl : Bool} {z : State} (s : State) (l : Lane) (p : Port) (q cls : Nat) (hk : Keeps rs cl z s) :
    Keeps rs cl z (startUsers s l p q cls) := by
  unfold startUsers
  try dsimp only
  repeat' first
    | with_reducible exact hk
    | with_reducible apply keeps_foldS
    | with_reducible apply keeps_modLane
    | (rw [mk_withRest]; with_reducible apply keeps_withRest)
    | (intro L hL; with_reducible exact hL)
    | (intro L hL; ((repeat' split) <;> first | with_reducible exact hL | exact hL | exact pressOk_stopPress hL))
    | split
    | (with_reducible intro t x hk)
    | (with_reducible intro t hk)

end Sys2Proof.Laws
end

