-- ==== Sys2Proof/Laws/KeepsHost.lean ====
section
/-!
SUPPORT. What every operation of the host interface keeps (Safety.Keeps), one lemma for each operation and for each command.
-/

namespace Sys2Proof.Laws

open Sys2Proof.Machine Sys2Proof.Safety

theorem keeps_modSq {rs cl : Bool} {z : State} (s : State) (p : Port) (q : Nat) (f : Ring → Ring) (hk : Keeps rs cl z s) :
    Keeps rs cl z (modSq s p q f) := by
  unfold modSq
  try dsimp only
  repeat' first
    | with_reducible exact hk
    | with_reducible apply keeps_modPort

theorem keeps_modCq {rs cl : Bool} {z : State} (s : State) (p : Port) (q : Nat) (f : Ring → Ring) (hk : Keeps rs cl z s) :
    Keeps rs cl z (modCq s p q f) := by
  unfold modCq
  try dsimp only
  repeat' first
    | with_reducible exact hk
    | with_reducible apply keeps_modPort

theorem finish_press (L : LaneState) (xs : List Taken) (g : Taken → Completion) :
   (xs.foldl (fun L u => compose L (g u)) L).press = L.press := by
  induction xs generalizing L with
  | nil => rfl
  | cons a xs ih => rw [List.foldl_cons, ih, press_compose]

theorem keeps_finishLane {rs cl : Bool} {z : State} (s : State) (l : Lane) (r : HostRef) (e : HostEnd) (hk : Keeps rs cl z s) :
    Keeps rs cl z (finishLane s l r e) := by
  unfold finishLane
  split
  · exact hk
  · refine keeps_modLane _ _ (fun L hL => ?_) hk
    dsimp only
    rw [finish_press, press_compose]
    split
    · exact hL
    · exact hL

theorem keeps_finishAll {rs cl : Bool} {z : State} (s : State) (r : HostRef) (e : HostEnd) (hk : Keeps rs cl z s) :
    Keeps rs cl z (finishAll s r e) := by
  unfold finishAll
  try dsimp only
  repeat' first
    | with_reducible exact hk
    | with_reducible apply keeps_finishLane
    | with_reducible apply keeps_foldS
    | (with_reducible intro t x hk)

theorem keeps_laneTake {rs cl : Bool} {z : State} (s : State) (l : Lane) (r : HostRef) (d : BitVec 512) (x : Option (BitVec 512)) (cqEpoch : Nat) (v : Verdict) (hk : Keeps rs cl z s) :
    Keeps rs cl z (laneTake s l r d x cqEpoch v) := by
  unfold laneTake
  try dsimp only
  repeat' first
    | with_reducible exact hk
    | with_reducible apply keeps_modLane
    | (intro L hL; ((repeat' split) <;> first | with_reducible exact hL | exact hL | exact hL))

theorem keeps_takeChecked {rs cl : Bool} {z : State} (s : State) (p : Port) (q : Nat) (r : HostRef) (d : BitVec 512) (x : Option (BitVec 512)) (cqEpoch : Nat) (hk : Keeps rs cl z s) :
    Keeps rs cl z (takeChecked s p q r d x cqEpoch) := by
  unfold takeChecked
  try dsimp only
  repeat' first
    | with_reducible exact hk
    | with_reducible apply keeps_laneTake
    | with_reducible apply keeps_modPages
    | with_reducible apply keeps_modLife
    | with_reducible apply keeps_foldS
    | (rw [mk_withRest]; with_reducible apply keeps_withRest)
    | (intro x; refine ⟨?_, fun m => rfl⟩; constructor <;> intros <;> dsimp only <;> (try split) <;> first | exact up_refl _ | exact ⟨up_refl _, up_refl _, up_refl _⟩ | exact up_satInc _ | exact up_satAdd _ _ | exact up_smod_satInc _ _ _ | exact up_port _ _ _ | exact up_lanes _ _ | exact up_lanesIf _ _ _ | exact up_lanesSet _ _ _)
    | split
    | (with_reducible intro t x hk)
    | (with_reducible intro t hk)

theorem keeps_endUnchecked {rs cl : Bool} {z : State} (s : State) (p : Port) (r : HostRef) (cqEpoch : Nat) (e : HostEnd) (hk : Keeps rs cl z s) :
    Keeps rs cl z (endUnchecked s p r cqEpoch e) := by
  unfold endUnchecked
  try dsimp only
  repeat' first
    | with_reducible exact hk
    | with_reducible apply keeps_modLane
    | (intro L hL; exact hL)

theorem keeps_serveImage {rs cl : Bool} {z : State} (s : State) (p : Port) (r : HostRef) (d : BitVec 512) (cqEpoch : Nat) (hk : Keeps rs cl z s) :
    Keeps rs cl z (serveImage s p r d cqEpoch) := by
  unfold serveImage
  try dsimp only
  repeat' first
    | with_reducible exact hk
    | with_reducible apply keeps_startUsers
    | with_reducible apply keeps_feedUsers
    | with_reducible apply keeps_endUnchecked
    | (rw [mk_withRest]; with_reducible apply keeps_withRest)
    | split

theorem keeps_badCopyMet {rs cl : Bool} {z : State} (l : Lane) (s : State) (x : CopyAt) (hk : Keeps rs cl z s) :
    Keeps rs cl z (badCopyMet l s x) := by
  unfold badCopyMet
  try dsimp only
  repeat' first
    | with_reducible exact hk
    | with_reducible apply keeps_mirrorFault
    | with_reducible apply keeps_devError
    | (rw [mk_withCellar]; with_reducible apply keeps_withSaved; rfl; rfl)
    | (rw [mk_withCellar]; with_reducible apply keeps_withCellar; rfl; rfl)
    | (rw [mk_withRest]; with_reducible apply keeps_withRest)
    | split

theorem keeps_serveCellar {rs cl : Bool} {z : State} (s : State) (p : Port) (r : HostRef) (d : BitVec 512) (cqEpoch : Nat) (hk : Keeps rs cl z s) :
    Keeps rs cl z (serveCellar s p r d cqEpoch) := by
  unfold serveCellar
  try dsimp only
  repeat' first
    | with_reducible exact hk
    | with_reducible apply keeps_startUsers
    | with_reducible apply keeps_feedUsers
    | with_reducible apply keeps_endUnchecked
    | with_reducible apply keeps_badCopyMet
    | with_reducible apply keeps_foldS
    | (rw [mk_withRest]; with_reducible apply keeps_withRest)
    | split
    | (with_reducible intro t x hk)
    | (with_reducible intro t hk)

theorem keeps_fenceCheck {rs cl : Bool} {z : State} (s : State) (p : Port) (hk : Keeps rs cl z s) :
    Keeps rs cl z (fenceCheck s p) := by
  unfold fenceCheck
  try dsimp only
  repeat' first
    | with_reducible exact hk
    | with_reducible apply keeps_finishLane
    | with_reducible apply keeps_foldS
    | (with_reducible intro t x hk)
    | split

theorem keeps_takeFence {rs cl : Bool} {z : State} (s : State) (p : Port) (r : HostRef) (d : BitVec 512) (cqEpoch : Nat) (hk : Keeps rs cl z s) :
    Keeps rs cl z (takeFence s p r d cqEpoch) := by
  unfold takeFence
  try dsimp only
  repeat' first
    | with_reducible exact hk
    | with_reducible apply keeps_modSq
    | with_reducible apply keeps_fenceCheck
    | with_reducible apply keeps_modLane
    | (rw [mk_withRest]; with_reducible apply keeps_withRest)
    | (intro L hL; with_reducible exact hL)
    | (intro L hL; ((repeat' split) <;> first | with_reducible exact hL | exact hL | exact pressOk_stopPress hL))
    | split

theorem keeps_takeUnchecked {rs cl : Bool} {z : State} (s : State) (p : Port) (r : HostRef) (d : BitVec 512) (x : Option (BitVec 512)) (cqEpoch : Nat) (hk : Keeps rs cl z s) :
    Keeps rs cl z (takeUnchecked s p r d x cqEpoch) := by
  unfold takeUnchecked
  try dsimp only
  repeat' first
    | with_reducible exact hk
    | with_reducible apply keeps_endUnchecked
    | with_reducible apply keeps_serveImage
    | with_reducible apply keeps_serveCellar
    | with_reducible apply keeps_takeFence
    | split

theorem keeps_takeDesc {rs cl : Bool} {z : State} (s : State) (p : Port) (q : Fin 16) (d : BitVec 512) (x : Option (BitVec 512)) (slots : Nat) (hk : Keeps rs cl z s) :
    Keeps rs cl z (takeDesc s p q d x slots) := by
  unfold takeDesc
  try dsimp only
  repeat' first
    | with_reducible exact hk
    | with_reducible apply keeps_modSq
    | with_reducible apply keeps_takeChecked
    | with_reducible apply keeps_takeUnchecked
    | with_reducible apply keeps_modPort
    | split

theorem keeps_takeFirst {rs cl : Bool} {z : State} (s : State) (p : Port) (q : Fin 16) (d : BitVec 512) (x : Option (BitVec 512)) (hk : Keeps rs cl z s) :
    Keeps rs cl z (takeFirst s p q d x) := by
  unfold takeFirst
  try dsimp only
  repeat' first
    | with_reducible exact hk
    | with_reducible apply keeps_modSq
    | with_reducible apply keeps_takeDesc
    | (rw [mk_withRest]; with_reducible apply keeps_withRest)
    | split

theorem keeps_passTurn {rs cl : Bool} {z : State} (s : State) (p : Port) (q : Fin 16) (hk : Keeps rs cl z s) :
    Keeps rs cl z (passTurn s p q) := by
  unfold passTurn
  try dsimp only
  repeat' first
    | with_reducible exact hk
    | with_reducible apply keeps_modPort
    | (rw [mk_withRest]; with_reducible apply keeps_withRest)
    | split

theorem keeps_takeFetched {rs cl : Bool} {z : State} (s : State) (p : Port) (q : Fin 16) (d : BitVec 512) (x : Option (BitVec 512)) (hk : Keeps rs cl z s) :
    Keeps rs cl z (takeFetched s p q d x) := by
  unfold takeFetched
  try dsimp only
  repeat' first
    | with_reducible exact hk
    | with_reducible apply keeps_takeDesc
    | with_reducible apply keeps_takeFirst
    | split

theorem keeps_takeSlot {rs cl : Bool} {z : State} (s : State) (p : Port) (q : Fin 16) (d : BitVec 512) (x : Option (BitVec 512)) (hk : Keeps rs cl z s) :
    Keeps rs cl z (takeSlot s p q d x) := by
  unfold takeSlot
  try dsimp only
  repeat' first
    | with_reducible exact hk
    | with_reducible apply keeps_passTurn
    | with_reducible apply keeps_takeFetched
    | split

theorem keeps_takeClass {rs cl : Bool} {z : State} (s : State) (p : Port) (q : Fin 16) (d : BitVec 512) (x : Option (BitVec 512)) (c : Nat) (hk : Keeps rs cl z s) :
    Keeps rs cl z (takeClass s p q d x c) := by
  unfold takeClass
  try dsimp only
  repeat' first
    | with_reducible exact hk
    | with_reducible apply keeps_takeSlot
    | split

theorem keeps_execDescriptorFetch {rs cl : Bool} {z : State} (p : Port) (q : Fin 16) (desc : BitVec 512) (second : Option (BitVec 512)) (s : State) (q0 : State) (hk : Keeps rs cl z s) :
    Keeps rs cl z (thenState q0 (execDescriptorFetch p q desc second s)) := by
  unfold execDescriptorFetch
  dsimp only [thenState]
  repeat' first
    | with_reducible exact hk
    | with_reducible apply keeps_takeSlot

theorem keeps_execRouteRequest {rs cl : Bool} {z : State} (p : Port) (q : Fin 16) (desc : BitVec 512) (s : State) (q0 : State) (hk : Keeps rs cl z s) :
    Keeps rs cl z (thenState q0 (execRouteRequest p q desc s)) := by
  unfold execRouteRequest
  dsimp only [thenState]
  repeat' first
    | with_reducible exact hk
    | with_reducible apply keeps_takeClass

theorem keeps_execRouteCancel {rs cl : Bool} {z : State} (p : Port) (q : Fin 16) (desc : BitVec 512) (s : State) (q0 : State) (hk : Keeps rs cl z s) :
    Keeps rs cl z (thenState q0 (execRouteCancel p q desc s)) := by
  unfold execRouteCancel
  dsimp only [thenState]
  repeat' first
    | with_reducible exact hk
    | with_reducible apply keeps_takeClass

theorem keeps_execElementCommand {rs cl : Bool} {z : State} (p : Port) (q : Fin 16) (desc : BitVec 512) (s : State) (q0 : State) (hk : Keeps rs cl z s) :
    Keeps rs cl z (thenState q0 (execElementCommand p q desc s)) := by
  unfold execElementCommand
  dsimp only [thenState]
  repeat' first
    | with_reducible exact hk
    | with_reducible apply keeps_takeClass

theorem keeps_execStationAdmit {rs cl : Bool} {z : State} (p : Port) (q : Fin 16) (desc : BitVec 512) (s : State) (q0 : State) (hk : Keeps rs cl z s) :
    Keeps rs cl z (thenState q0 (execStationAdmit p q desc s)) := by
  unfold execStationAdmit
  dsimp only [thenState]
  repeat' first
    | with_reducible exact hk
    | with_reducible apply keeps_takeClass

theorem keeps_execImageRead {rs cl : Bool} {z : State} (p : Port) (q : Fin 16) (desc : BitVec 512) (s : State) (q0 : State) (hk : Keeps rs cl z s) :
    Keeps rs cl z (thenState q0 (execImageRead p q desc s)) := by
  unfold execImageRead
  dsimp only [thenState]
  repeat' first
    | with_reducible exact hk
    | with_reducible apply keeps_takeClass

theorem keeps_execCellarRead {rs cl : Bool} {z : State} (p : Port) (q : Fin 16) (x : CellarFetch) (s : State) (q0 : State) (hk : Keeps rs cl z s) :
    Keeps rs cl z (thenState q0 (execCellarRead p q x s)) := by
  unfold execCellarRead
  dsimp only [thenState]
  repeat' first
    | with_reducible exact hk
    | with_reducible apply keeps_takeClass
    | (rw [mk_withCellar]; with_reducible apply keeps_withSaved; rfl; rfl)
    | (rw [mk_withCellar]; with_reducible apply keeps_withCellar; rfl; rfl)
    | (rw [mk_withRest]; with_reducible apply keeps_withRest)
    | split

theorem keeps_execCellarClear {rs cl : Bool} {z : State} (p : Port) (q : Fin 16) (desc second : BitVec 512) (s : State) (q0 : State) (hk : Keeps rs cl z s) :
    Keeps rs cl z (thenState q0 (execCellarClear p q desc second s)) := by
  unfold execCellarClear
  dsimp only [thenState]
  repeat' first
    | with_reducible exact hk
    | with_reducible apply keeps_takeClass

theorem keeps_execRack {rs cl : Bool} {z : State} (p : Port) (q : Fin 16) (desc second : BitVec 512) (s : State) (q0 : State) (hk : Keeps rs cl z s) :
    Keeps rs cl z (thenState q0 (execRack p q desc second s)) := by
  unfold execRack
  dsimp only [thenState]
  repeat' first
    | with_reducible exact hk
    | with_reducible apply keeps_takeClass

theorem keeps_execConfirmParameters {rs cl : Bool} {z : State} (p : Port) (q : Fin 16) (desc second : BitVec 512) (s : State) (q0 : State) (hk : Keeps rs cl z s) :
    Keeps rs cl z (thenState q0 (execConfirmParameters p q desc second s)) := by
  unfold execConfirmParameters
  dsimp only [thenState]
  repeat' first
    | with_reducible exact hk
    | with_reducible apply keeps_takeClass

theorem keeps_execTimeSet {rs cl : Bool} {z : State} (p : Port) (q : Fin 16) (desc : BitVec 512) (s : State) (q0 : State) (hk : Keeps rs cl z s) :
    Keeps rs cl z (thenState q0 (execTimeSet p q desc s)) := by
  unfold execTimeSet
  dsimp only [thenState]
  repeat' first
    | with_reducible exact hk
    | with_reducible apply keeps_takeClass

theorem keeps_execFence {rs cl : Bool} {z : State} (p : Port) (q : Fin 16) (desc : BitVec 512) (s : State) (q0 : State) (hk : Keeps rs cl z s) :
    Keeps rs cl z (thenState q0 (execFence p q desc s)) := by
  unfold execFence
  dsimp only [thenState]
  repeat' first
    | with_reducible exact hk
    | with_reducible apply keeps_takeClass

theorem keeps_execAuthExt {rs cl : Bool} {z : State} (p : Port) (q : Fin 16) (desc : BitVec 512) (s : State) (q0 : State) (hk : Keeps rs cl z s) :
    Keeps rs cl z (thenState q0 (execAuthExt p q desc s)) := by
  unfold execAuthExt
  dsimp only [thenState]
  repeat' first
    | with_reducible exact hk
    | with_reducible apply keeps_takeClass

theorem keeps_countDoorbell {rs cl : Bool} {z : State} (s : State) (p : Port) (hk : Keeps rs cl z s) :
    Keeps rs cl z (countDoorbell s p) := by
  unfold countDoorbell
  try dsimp only
  repeat' first
    | with_reducible exact hk
    | with_reducible apply keeps_modPort

theorem keeps_execSqTailDoorbell {rs cl : Bool} {z : State} (p : Port) (q : Fin 16) (value : Word) (s : State) (q0 : State) (hk : Keeps rs cl z s) :
    Keeps rs cl z (thenState q0 (execSqTailDoorbell p q value s)) := by
  unfold execSqTailDoorbell
  dsimp only [thenState]
  repeat' first
    | with_reducible exact hk
    | with_reducible apply keeps_modSq
    | with_reducible apply keeps_countDoorbell
    | (rw [mk_withRest]; with_reducible apply keeps_withRest)
    | split

theorem keeps_execCqHeadDoorbell {rs cl : Bool} {z : State} (p : Port) (q : Fin 16) (value : Word) (s : State) (q0 : State) (hk : Keeps rs cl z s) :
    Keeps rs cl z (thenState q0 (execCqHeadDoorbell p q value s)) := by
  unfold execCqHeadDoorbell
  dsimp only [thenState]
  repeat' first
    | with_reducible exact hk
    | with_reducible apply keeps_modCq
    | with_reducible apply keeps_countDoorbell
    | (rw [mk_withRest]; with_reducible apply keeps_withRest)
    | split

theorem keeps_sqHalted {rs cl : Bool} {z : State} (s : State) (p : Port) (hk : Keeps rs cl z s) :
    Keeps rs cl z (sqHalted s p) := by
  unfold sqHalted
  try dsimp only
  repeat' first
    | with_reducible exact hk
    | with_reducible apply keeps_eicRaise

theorem keeps_execRingEnable {rs cl : Bool} {z : State} (p : Port) (kind : RingKind) (q : Fin 16) (ctrl : Word) (s : State) (q0 : State) (hk : Keeps rs cl z s) :
    Keeps rs cl z (thenState q0 (execRingEnable p kind q ctrl s)) := by
  unfold execRingEnable
  dsimp only [thenState]
  repeat' first
    | with_reducible exact hk
    | with_reducible apply keeps_modSq
    | with_reducible apply keeps_modCq
    | with_reducible apply keeps_sqHalted
    | with_reducible apply keeps_modPort
    | (rw [mk_withRest]; with_reducible apply keeps_withRest)
    | split

theorem keeps_abortAll {rs cl : Bool} {z : State} (s : State) (f : Taken → Bool) (hk : Keeps rs cl z s) :
    Keeps rs cl z (abortAll s f) := by
  unfold abortAll
  try dsimp only
  repeat' first
    | with_reducible exact hk
    | with_reducible apply keeps_finishAll
    | with_reducible apply keeps_foldS
    | (with_reducible intro t x hk)

theorem keeps_disableSq {rs cl : Bool} {z : State} (s : State) (p : Port) (q : Nat) (halt : HaltCause) (hk : Keeps rs cl z s) :
    Keeps rs cl z (disableSq s p q halt) := by
  unfold disableSq
  try dsimp only
  repeat' first
    | with_reducible exact hk
    | with_reducible apply keeps_modSq
    | with_reducible apply keeps_abortAll
    | (rw [mk_withRest]; with_reducible apply keeps_withRest)
    | split

theorem keeps_execRingDisable {rs cl : Bool} {z : State} (p : Port) (kind : RingKind) (q : Fin 16) (s : State) (q0 : State) (hk : Keeps rs cl z s) :
    Keeps rs cl z (thenState q0 (execRingDisable p kind q s)) := by
  unfold execRingDisable
  dsimp only [thenState]
  repeat' first
    | with_reducible exact hk
    | with_reducible apply keeps_modSq
    | with_reducible apply keeps_modCq
    | with_reducible apply keeps_sqHalted
    | with_reducible apply keeps_disableSq
    | with_reducible apply keeps_foldS
    | (rw [mk_withRest]; with_reducible apply keeps_withRest)
    | split
    | (with_reducible intro t x hk)
    | (with_reducible intro t hk)

theorem keeps_portDown {rs cl : Bool} {z : State} (s : State) (p : Port) (hk : Keeps rs cl z s) :
    Keeps rs cl z (portDown s p) := by
  unfold portDown
  try dsimp only
  repeat' first
    | with_reducible exact hk
    | with_reducible apply keeps_eicLevel
    | with_reducible apply keeps_modPort

theorem keeps_execLinkDown {rs cl : Bool} {z : State} (x : PortLoss) (s : State) (q0 : State) (hk : Keeps rs cl z s) :
    Keeps rs cl z (thenState q0 (execLinkDown x s)) := by
  unfold execLinkDown
  dsimp only [thenState]
  repeat' first
    | with_reducible exact hk
    | with_reducible apply keeps_portDown
    | with_reducible apply keeps_modPort
    | (rw [mk_withRest]; with_reducible apply keeps_withRest)
    | split

theorem keeps_execPerstN {rs cl : Bool} {z : State} (p : Port) (s : State) (q0 : State) (hk : Keeps rs cl z s) :
    Keeps rs cl z (thenState q0 (execPerstN p s)) := by
  unfold execPerstN
  dsimp only [thenState]
  repeat' first
    | with_reducible exact hk
    | with_reducible apply keeps_portDown
    | with_reducible apply keeps_modPort
    | (rw [mk_withRest]; with_reducible apply keeps_withRest)
    | split

theorem keeps_execLinkUp {rs cl : Bool} {z : State} (p : Port) (speed : BitVec 2) (s : State) (q0 : State) (hk : Keeps rs cl z s) :
    Keeps rs cl z (thenState q0 (execLinkUp p speed s)) := by
  unfold execLinkUp
  dsimp only [thenState]
  repeat' first
    | with_reducible exact hk
    | with_reducible apply keeps_eicLevel
    | with_reducible apply keeps_modLanes
    | with_reducible apply keeps_modPort
    | (rw [mk_withRest]; with_reducible apply keeps_withRest)
    | (intro l L hL; with_reducible exact hL)
    | (intro l L hL; ((repeat' split) <;> first | with_reducible exact hL | exact hL | exact pressOk_stopPress hL))
    | split

theorem keeps_execHoldExpired {rs cl : Bool} {z : State} (p : Port) (s : State) (q0 : State) (hk : Keeps rs cl z s) :
    Keeps rs cl z (thenState q0 (execHoldExpired p s)) := by
  unfold execHoldExpired
  dsimp only [thenState]
  repeat' first
    | with_reducible exact hk
    | with_reducible apply keeps_eventLane
    | with_reducible apply keeps_abortAll
    | with_reducible apply keeps_modPort
    | (rw [mk_withRest]; with_reducible apply keeps_withRest)
    | split

theorem keeps_feedStage {rs cl : Bool} {z : State} (s : State) (t : Taken) (whole : Bool) (bs : List Byte) (hk : Keeps rs cl z s) :
    Keeps rs cl z (feedStage s t whole bs) := by
  unfold feedStage
  try dsimp only
  repeat' first
    | with_reducible exact hk
    | with_reducible apply keeps_feedUsers
    | with_reducible apply keeps_foldS
    | (with_reducible intro t x hk)

theorem keeps_dataFailed {rs cl : Bool} {z : State} (s : State) (t : Taken) (bs : List Byte) (hk : Keeps rs cl z s) :
    Keeps rs cl z (dataFailed s t bs) := by
  unfold dataFailed
  try dsimp only
  repeat' first
    | with_reducible exact hk
    | with_reducible apply keeps_finishAll
    | with_reducible apply keeps_feedStage
    | split

theorem keeps_haltDma {rs cl : Bool} {z : State} (s : State) (p : Port) (q : Nat) (hk : Keeps rs cl z s) :
    Keeps rs cl z (haltDma s p q) := by
  unfold haltDma
  try dsimp only
  repeat' first
    | with_reducible exact hk
    | with_reducible apply keeps_modSq
    | with_reducible apply keeps_sqHalted
    | (rw [mk_withRest]; with_reducible apply keeps_withRest)
    | split

theorem keeps_markFeed {rs cl : Bool} {z : State} (s : State) (r : HostRef) (x : FeedSt) (hk : Keeps rs cl z s) :
    Keeps rs cl z (markFeed s r x) := by
  unfold markFeed
  try dsimp only
  repeat' first
    | with_reducible exact hk
    | with_reducible apply keeps_modLanes
    | (rw [mk_withRest]; with_reducible apply keeps_withRest)
    | (intro l L hL; with_reducible exact hL)
    | (intro l L hL; ((repeat' split) <;> first | with_reducible exact hL | exact hL | exact pressOk_stopPress hL))
    | split

theorem keeps_beginFeed {rs cl : Bool} {z : State} (s : State) (p : Port) (q : Nat) (hk : Keeps rs cl z s) :
    Keeps rs cl z (beginFeed s p q) := by
  unfold beginFeed
  try dsimp only
  repeat' first
    | with_reducible exact hk
    | with_reducible apply keeps_startUsers
    | with_reducible apply keeps_markFeed
    | with_reducible apply keeps_foldS
    | split
    | (with_reducible intro t x hk)
    | (with_reducible intro t hk)

theorem keeps_dmaFailed {rs cl : Bool} {z : State} (s : State) (p : Port) (q : Nat) (ofData : Bool) (hk : Keeps rs cl z s) :
    Keeps rs cl z (dmaFailed s p q ofData) := by
  unfold dmaFailed
  try dsimp only
  repeat' first
    | with_reducible exact hk
    | with_reducible apply keeps_beginFeed
    | with_reducible apply keeps_dataFailed
    | with_reducible apply keeps_haltDma
    | split

theorem keeps_execDmaError {rs cl : Bool} {z : State} (p : Port) (x : DmaRead) (s : State) (q0 : State) (hk : Keeps rs cl z s) :
    Keeps rs cl z (thenState q0 (execDmaError p x s)) := by
  unfold execDmaError
  dsimp only [thenState]
  repeat' first
    | with_reducible exact hk
    | with_reducible apply keeps_dmaFailed
    | split

theorem keeps_noteTimeout {rs cl : Bool} {z : State} (s : State) (p : Port) (hk : Keeps rs cl z s) :
    Keeps rs cl z (noteTimeout s p) := by
  unfold noteTimeout
  try dsimp only
  repeat' first
    | with_reducible exact hk
    | with_reducible apply keeps_modPort
    | (rw [mk_withRest]; with_reducible apply keeps_withRest)
    | split

theorem keeps_execDmaTimeout {rs cl : Bool} {z : State} (p : Port) (x : DmaRead) (s : State) (q0 : State) (hk : Keeps rs cl z s) :
    Keeps rs cl z (thenState q0 (execDmaTimeout p x s)) := by
  unfold execDmaTimeout
  dsimp only [thenState]
  repeat' first
    | with_reducible exact hk
    | with_reducible apply keeps_dmaFailed
    | with_reducible apply keeps_noteTimeout
    | split

theorem keeps_batchClose {rs cl : Bool} {z : State} (s : State) (hk : Keeps rs cl z s) :
    Keeps rs cl z (batchClose s) := by
  unfold batchClose
  try dsimp only
  repeat' first
    | with_reducible exact hk
    | with_reducible apply keeps_modLane
    | with_reducible apply keeps_modPort
    | with_reducible apply keeps_foldS
    | (intro L hL; with_reducible exact hL)
    | (with_reducible intro t x hk)
    | split

theorem keeps_dropCompletions {rs cl : Bool} {z : State} (s : State) (f : Completion → Bool) (hk : Keeps rs cl z s) :
    Keeps rs cl z (dropCompletions s f) := by
  unfold dropCompletions
  try dsimp only
  repeat' first
    | with_reducible exact hk
    | with_reducible apply keeps_modLanes
    | (intro l L hL; with_reducible exact hL)

theorem keeps_countCompletion {rs cl : Bool} {z : State} (s : State) (p : Port) (c : Completion) (hk : Keeps rs cl z s) :
    Keeps rs cl z (countCompletion s p c) := by
  unfold countCompletion
  try dsimp only
  repeat' first
    | with_reducible exact hk
    | with_reducible apply keeps_eventLane
    | with_reducible apply keeps_modLife
    | with_reducible apply keeps_whenS
    | (with_reducible intro t hk)
    | (intro x; refine ⟨?_, fun m => rfl⟩; constructor <;> intros <;> first | exact up_refl _ | exact ⟨up_refl _, up_refl _, up_refl _⟩ | exact up_satInc _ | exact up_satAdd _ _ | exact up_smod_satInc _ _ _ | exact up_port _ _ _ | exact up_lanes _ _)
    | split

theorem keeps_signalCompletion {rs cl : Bool} {z : State} (s : State) (p : Port) (c : Completion) (hk : Keeps rs cl z s) :
    Keeps rs cl z (signalCompletion s p c) := by
  unfold signalCompletion
  try dsimp only
  repeat' first
    | with_reducible exact hk
    | with_reducible apply keeps_sendVector
    | with_reducible apply keeps_modCq
    | (rw [mk_withRest]; with_reducible apply keeps_withRest)
    | split

theorem keeps_writeCompletion {rs cl : Bool} {z : State} (s : State) (p : Port) (c : Completion) (hk : Keeps rs cl z s) :
    Keeps rs cl z (writeCompletion s p c) := by
  unfold writeCompletion
  try dsimp only
  repeat' first
    | with_reducible exact hk
    | with_reducible apply keeps_modSq
    | with_reducible apply keeps_modCq
    | with_reducible apply keeps_dropCompletions
    | with_reducible apply keeps_countCompletion
    | with_reducible apply keeps_signalCompletion
    | with_reducible apply keeps_modLanes
    | (rw [mk_withRest]; with_reducible apply keeps_withRest)
    | (intro l L hL; (rw [press_settleTaken]; exact hL))
    | (intro l L hL; with_reducible exact hL)
    | (intro l L hL; ((repeat' split) <;> first | with_reducible exact hL | exact hL | exact pressOk_stopPress hL))
    | split

theorem keeps_execCompletionWrite {rs cl : Bool} {z : State} (p : Port) (s : State) (q0 : State) (hk : Keeps rs cl z s) :
    Keeps rs cl z (thenState q0 (execCompletionWrite p s)) := by
  unfold execCompletionWrite
  dsimp only [thenState]
  repeat' first
    | with_reducible exact hk
    | with_reducible apply keeps_dropCompletions
    | with_reducible apply keeps_fenceCheck
    | with_reducible apply keeps_writeCompletion
    | split

theorem keeps_execCoalesceExpiry {rs cl : Bool} {z : State} (p : Port) (q : Fin 16) (s : State) (q0 : State) (hk : Keeps rs cl z s) :
    Keeps rs cl z (thenState q0 (execCoalesceExpiry p q s)) := by
  unfold execCoalesceExpiry
  dsimp only [thenState]
  repeat' first
    | with_reducible exact hk
    | with_reducible apply keeps_sendVector
    | with_reducible apply keeps_modCq
    | split

theorem keeps_execPeerAccessTimeout {rs cl : Bool} {z : State} (_p : Port) (_l : Lane) (write : Bool) (s : State) (q0 : State) (hk : Keeps rs cl z s) :
    Keeps rs cl z (thenState q0 (execPeerAccessTimeout _p _l write s)) := by
  unfold execPeerAccessTimeout
  dsimp only [thenState]
  repeat' first
    | with_reducible exact hk
    | with_reducible apply keeps_answer
    | split

theorem keeps_execUnalignedAccess {rs cl : Bool} {z : State} (p : Port) (_l : Lane) (write : Bool) (s : State) (q0 : State) (hk : Keeps rs cl z s) :
    Keeps rs cl z (thenState q0 (execUnalignedAccess p _l write s)) := by
  unfold execUnalignedAccess
  dsimp only [thenState]
  repeat' first
    | with_reducible exact hk
    | with_reducible apply keeps_answer
    | with_reducible apply keeps_noAnswer
    | with_reducible apply keeps_modPort
    | (rw [mk_withRest]; with_reducible apply keeps_withRest)
    | split

end Sys2Proof.Laws
end

