-- ==== Sys2Proof/Laws/KeepsVote.lean ====
section
/-!
SUPPORT. What every operation of the route and assignment engine and the vote keeps (Safety.Keeps), one lemma for each operation and for each command.
-/

namespace Sys2Proof.Laws

open Sys2Proof.Machine Sys2Proof.Safety

theorem keeps_countDissent {rs cl : Bool} {z : State} (s : State) (found : BitVec 3) (hk : Keeps rs cl z s) :
    Keeps rs cl z (countDissent s found) := by
  unfold countDissent
  try dsimp only
  repeat' first
    | with_reducible exact hk
    | with_reducible apply keeps_modLife
    | (rw [mk_withRest]; with_reducible apply keeps_withRest)
    | (intro x; refine ⟨?_, fun m => rfl⟩; constructor <;> intros <;> dsimp only <;> (try split) <;> first | exact up_refl _ | exact ⟨up_refl _, up_refl _, up_refl _⟩ | exact up_satInc _ | exact up_satAdd _ _ | exact up_smod_satInc _ _ _ | exact up_port _ _ _ | exact up_lanes _ _ | exact up_lanesIf _ _ _ | exact up_lanesSet _ _ _)
    | split

theorem keeps_modRaa {rs cl : Bool} {z : State} (s : State) (l : Lane) (f : Raa → Raa) (hk : Keeps rs cl z s) :
    Keeps rs cl z (modRaa s l f) := by
  unfold modRaa
  try dsimp only
  repeat' first
    | with_reducible exact hk
    | with_reducible apply keeps_modLane
    | (intro L hL; with_reducible exact hL)

theorem keeps_eventRef {rs cl : Bool} {z : State} (s : State) (l : Lane) (src code : Nat) (payload : List Byte) (hk : Keeps rs cl z s) :
    Keeps rs cl z (eventRef s l src code payload) := by
  unfold eventRef
  try dsimp only
  repeat' first
    | with_reducible exact hk
    | with_reducible apply keeps_eventAll
    | split

theorem keeps_proofFail {rs cl : Bool} {z : State} (s : State) (l : Lane) (n t : Nat) (news : Bool) (hk : Keeps rs cl z s) :
    Keeps rs cl z (proofFail s l n t news) := by
  unfold proofFail
  try dsimp only
  repeat' first
    | with_reducible exact hk
    | with_reducible apply keeps_eventAll
    | with_reducible apply keeps_modRaa
    | with_reducible apply keeps_modLife
    | (rw [mk_withRest]; with_reducible apply keeps_withRest)
    | (intro x; refine ⟨?_, fun m => rfl⟩; constructor <;> intros <;> dsimp only <;> (try split) <;> first | exact up_refl _ | exact ⟨up_refl _, up_refl _, up_refl _⟩ | exact up_satInc _ | exact up_satAdd _ _ | exact up_smod_satInc _ _ _ | exact up_port _ _ _ | exact up_lanes _ _ | exact up_lanesIf _ _ _ | exact up_lanesSet _ _ _)
    | split

theorem keeps_setTimeoutEvent {rs cl : Bool} {z : State} (v : Vintage) (s : State) (l : Lane) (n : Nat) (hk : Keeps rs cl z s) :
    Keeps rs cl z (setTimeoutEvent v s l n) := by
  unfold setTimeoutEvent
  try dsimp only
  repeat' first
    | with_reducible exact hk
    | with_reducible apply keeps_eventRef

theorem keeps_proveOne {rs cl : Bool} {z : State} (v : Vintage) (l : Lane) (s : State) (n : Nat) (hk : Keeps rs cl z s) :
    Keeps rs cl z (proveOne v l s n) := by
  unfold proveOne
  try dsimp only
  repeat' first
    | with_reducible exact hk
    | with_reducible apply keeps_modRaa
    | with_reducible apply keeps_proofFail
    | with_reducible apply keeps_setTimeoutEvent
    | (rw [mk_withRest]; with_reducible apply keeps_withRest)
    | split

theorem keeps_proveRoutes {rs cl : Bool} {z : State} (v : Vintage) (l : Lane) (s : State) (due : List (Nat × Nat)) (hk : Keeps rs cl z s) :
    Keeps rs cl z (proveRoutes v l s due) := by
  unfold proveRoutes
  try dsimp only
  repeat' first
    | with_reducible exact hk
    | with_reducible apply keeps_proveOne
    | with_reducible apply keeps_foldS
    | split
    | (with_reducible intro t x hk)
    | (with_reducible intro t hk)

theorem keeps_provePass {rs cl : Bool} {z : State} (v : Vintage) (s : State) (l : Lane) (hk : Keeps rs cl z s) :
    Keeps rs cl z (provePass v s l) := by
  unfold provePass
  try dsimp only
  repeat' first
    | with_reducible exact hk
    | with_reducible apply keeps_proveRoutes
    | with_reducible apply keeps_foldS
    | split

theorem keeps_proveBefore {rs cl : Bool} {z : State} (v : Vintage) (s : State) (l : Lane) (hk : Keeps rs cl z s) :
    Keeps rs cl z (proveBefore v s l) := by
  unfold proveBefore
  try dsimp only
  repeat' first
    | with_reducible exact hk
    | with_reducible apply keeps_proveRoutes
    | split

theorem keeps_report {rs cl : Bool} {z : State} (v : Vintage) (s : State) (l : Lane) (e : QEntry) (r : Raa) (st term : Nat) (hk : Keeps rs cl z s) :
    Keeps rs cl z (report v s l e r st term) := by
  unfold report
  try dsimp only
  repeat' first
    | with_reducible exact hk
    | with_reducible apply keeps_modRaa
    | with_reducible apply keeps_finishLane
    | split

theorem keeps_decideHead {rs cl : Bool} {z : State} (v : Vintage) (s : State) (l : Lane) (e : QEntry) (rest : List QEntry) (hk : Keeps rs cl z s) :
    Keeps rs cl z (decideHead v s l e rest) := by
  unfold decideHead
  try dsimp only
  repeat' first
    | with_reducible exact hk
    | with_reducible apply keeps_proveBefore
    | with_reducible apply keeps_report
    | (rw [mk_withRest]; with_reducible apply keeps_withRest)
    | split

theorem keeps_decisionRow {rs cl : Bool} {z : State} (s : State) (l : Lane) (mine : QEntry → Bool) (hk : Keeps rs cl z s) :
    Keeps rs cl z (decisionRow s l mine) := by
  unfold decisionRow
  try dsimp only
  repeat' first
    | with_reducible exact hk
    | with_reducible apply keeps_decideHead
    | split

theorem keeps_execRreqDecision {rs cl : Bool} {z : State} (l : Lane) (s : State) (q0 : State) (hk : Keeps rs cl z s) :
    Keeps rs cl z (thenState q0 (execRreqDecision l s)) := by
  unfold execRreqDecision
  dsimp only [thenState]
  repeat' first
    | with_reducible exact hk
    | with_reducible apply keeps_decisionRow

theorem keeps_execRcanDecision {rs cl : Bool} {z : State} (l : Lane) (s : State) (q0 : State) (hk : Keeps rs cl z s) :
    Keeps rs cl z (thenState q0 (execRcanDecision l s)) := by
  unfold execRcanDecision
  dsimp only [thenState]
  repeat' first
    | with_reducible exact hk
    | with_reducible apply keeps_decisionRow

theorem keeps_execCallA {rs cl : Bool} {z : State} (l : Lane) (s : State) (q0 : State) (hk : Keeps rs cl z s) :
    Keeps rs cl z (thenState q0 (execCallA l s)) := by
  unfold execCallA
  dsimp only [thenState]
  repeat' first
    | with_reducible exact hk
    | with_reducible apply keeps_decisionRow

theorem keeps_execCallB {rs cl : Bool} {z : State} (l : Lane) (s : State) (q0 : State) (hk : Keeps rs cl z s) :
    Keeps rs cl z (thenState q0 (execCallB l s)) := by
  unfold execCallB
  dsimp only [thenState]
  repeat' first
    | with_reducible exact hk
    | with_reducible apply keeps_decisionRow

theorem keeps_execBlockElem {rs cl : Bool} {z : State} (l : Lane) (s : State) (q0 : State) (hk : Keeps rs cl z s) :
    Keeps rs cl z (thenState q0 (execBlockElem l s)) := by
  unfold execBlockElem
  dsimp only [thenState]
  repeat' first
    | with_reducible exact hk
    | with_reducible apply keeps_decisionRow

theorem keeps_execUnblockElem {rs cl : Bool} {z : State} (l : Lane) (s : State) (q0 : State) (hk : Keeps rs cl z s) :
    Keeps rs cl z (thenState q0 (execUnblockElem l s)) := by
  unfold execUnblockElem
  dsimp only [thenState]
  repeat' first
    | with_reducible exact hk
    | with_reducible apply keeps_decisionRow

theorem keeps_execVirtualSet {rs cl : Bool} {z : State} (l : Lane) (s : State) (q0 : State) (hk : Keeps rs cl z s) :
    Keeps rs cl z (thenState q0 (execVirtualSet l s)) := by
  unfold execVirtualSet
  dsimp only [thenState]
  repeat' first
    | with_reducible exact hk
    | with_reducible apply keeps_decisionRow

theorem keeps_execVirtualClear {rs cl : Bool} {z : State} (l : Lane) (s : State) (q0 : State) (hk : Keeps rs cl z s) :
    Keeps rs cl z (thenState q0 (execVirtualClear l s)) := by
  unfold execVirtualClear
  dsimp only [thenState]
  repeat' first
    | with_reducible exact hk
    | with_reducible apply keeps_decisionRow

theorem keeps_execResetFault {rs cl : Bool} {z : State} (l : Lane) (s : State) (q0 : State) (hk : Keeps rs cl z s) :
    Keeps rs cl z (thenState q0 (execResetFault l s)) := by
  unfold execResetFault
  dsimp only [thenState]
  repeat' first
    | with_reducible exact hk
    | with_reducible apply keeps_decisionRow

theorem keeps_proofRow {rs cl : Bool} {z : State} (s : State) (l : Lane) (f : Vintage → State → State)
    (hf : ∀ v t, Keeps rs cl z t → Keeps rs cl z (f v t)) (hk : Keeps rs cl z s) : Keeps rs cl z (proofRow s l f) := by
  unfold proofRow
  split
  · exact hk
  · split
    · exact hf _ _ hk
    · exact hk

theorem keeps_proveOn {rs cl : Bool} {z : State} (v : Vintage) (s : State) (l : Lane) (hk : Keeps rs cl z s) :
    Keeps rs cl z (proveOn v s l) := by
  unfold proveOn
  try dsimp only
  repeat' first
    | with_reducible exact hk
    | with_reducible apply keeps_proveRoutes
    | split

theorem keeps_execReProof {rs cl : Bool} {z : State} (l : Lane) (s : State) (q0 : State) (hk : Keeps rs cl z s) :
    Keeps rs cl z (thenState q0 (execReProof l s)) := by
  unfold execReProof
  dsimp only [thenState]
  repeat' first
    | with_reducible exact hk
    | with_reducible apply keeps_proveOn
    | with_reducible apply keeps_proofRow
    | split
    | (with_reducible intro t x hk)
    | (with_reducible intro t hk)

theorem keeps_execOverlapRelease {rs cl : Bool} {z : State} (l : Lane) (route : BitVec 14) (s : State) (q0 : State) (hk : Keeps rs cl z s) :
    Keeps rs cl z (thenState q0 (execOverlapRelease l route s)) := by
  unfold execOverlapRelease
  dsimp only [thenState]
  repeat' first
    | with_reducible exact hk
    | with_reducible apply keeps_proofRow
    | with_reducible apply keeps_modRaa
    | (with_reducible intro t x hk)
    | split

theorem keeps_execCancelRelease {rs cl : Bool} {z : State} (l : Lane) (route : BitVec 14) (s : State) (q0 : State) (hk : Keeps rs cl z s) :
    Keeps rs cl z (thenState q0 (execCancelRelease l route s)) := by
  unfold execCancelRelease
  dsimp only [thenState]
  repeat' first
    | with_reducible exact hk
    | with_reducible apply keeps_proofRow
    | with_reducible apply keeps_modRaa
    | (with_reducible intro t x hk)
    | split

theorem keeps_execSetTimeout {rs cl : Bool} {z : State} (l : Lane) (route : BitVec 14) (s : State) (q0 : State) (hk : Keeps rs cl z s) :
    Keeps rs cl z (thenState q0 (execSetTimeout l route s)) := by
  unfold execSetTimeout
  dsimp only [thenState]
  repeat' first
    | with_reducible exact hk
    | with_reducible apply keeps_proofRow
    | with_reducible apply keeps_setTimeoutEvent
    | with_reducible apply keeps_modRaa
    | (with_reducible intro t x hk)
    | split

theorem keeps_moveFaultEvent {rs cl : Bool} {z : State} (s : State) (l : Lane) (e : Nat) (hk : Keeps rs cl z s) :
    Keeps rs cl z (moveFaultEvent s l e) := by
  unfold moveFaultEvent
  try dsimp only
  repeat' first
    | with_reducible exact hk
    | with_reducible apply keeps_eventRef

theorem keeps_execMoveFault {rs cl : Bool} {z : State} (l : Lane) (element : BitVec 16) (s : State) (q0 : State) (hk : Keeps rs cl z s) :
    Keeps rs cl z (thenState q0 (execMoveFault l element s)) := by
  unfold execMoveFault
  dsimp only [thenState]
  repeat' first
    | with_reducible exact hk
    | with_reducible apply keeps_proofRow
    | with_reducible apply keeps_moveFaultEvent
    | with_reducible apply keeps_modRaa
    | (with_reducible intro t x hk)
    | split

theorem keeps_execRaaHoldoverPeak {rs cl : Bool} {z : State} (a : RegAccess) (s : State) (q0 : State) (hk : Keeps rs cl z s) :
    Keeps rs cl z (thenState q0 (execRaaHoldoverPeak a s)) := by
  unfold execRaaHoldoverPeak
  dsimp only [thenState]
  repeat' first
    | with_reducible exact hk
    | with_reducible apply keeps_answer
    | with_reducible apply keeps_modRaa
    | with_reducible apply keeps_noAnswer
    | split

theorem keeps_execLaneRaaPeak {rs cl : Bool} {z : State} (a : RegAccess) (s : State) (q0 : State) (hk : Keeps rs cl z s) :
    Keeps rs cl z (thenState q0 (execLaneRaaPeak a s)) := by
  unfold execLaneRaaPeak
  dsimp only [thenState]
  repeat' first
    | with_reducible exact hk
    | with_reducible apply keeps_answer
    | with_reducible apply keeps_noAnswer
    | with_reducible apply keeps_modLane
    | (intro L hL; with_reducible exact hL)
    | split

theorem keeps_setDrives {rs cl : Bool} {z : State} (s : State) (hk : Keeps rs cl z s) :
    Keeps rs cl z (setDrives s) := by
  refine keeps_modSluices_at _ (fun l => ?_) hk
  split
  · refine ⟨fun h => ?_, id⟩
    unfold latchOpens at *
    dsimp only
    cases e : (s.sluices.get l).latch
    · rfl
    · have : mayClose s l = false := by simp [mayClose, latched, e]
      simp_all
  · refine ⟨fun h => ?_, id⟩
    unfold latchOpens at *
    dsimp only
    cases e : (s.sluices.get l).latch <;> simp_all

theorem keeps_voteTested {rs cl : Bool} {z : State} (s : State) (ok : Bool) (hk : Keeps rs cl z s) :
    Keeps rs cl z (voteTested s ok) := by
  unfold voteTested
  try dsimp only
  repeat' first
    | with_reducible exact hk
    | (rw [mk_withRest]; with_reducible apply keeps_withRest)

theorem keeps_noteVote {rs cl : Bool} {z : State} (s : State) (out : Lane → VoteOut) (t : BitVec 28) (hk : Keeps rs cl z s) :
    Keeps rs cl z (noteVote s out t) := by
  unfold noteVote
  try dsimp only
  repeat' first
    | with_reducible exact hk
    | with_reducible apply keeps_modSluices
    | (rw [mk_withRest]; with_reducible apply keeps_withRest)
    | (intro l x; with_reducible exact ⟨id, id⟩)
    | (intro l x; unfold latchOpens; dsimp only; constructor <;> (repeat' split) <;> (simp_all; try tauto); done)
    | split

theorem keeps_linkFault {rs cl : Bool} {z : State} (s : State) (f : LinkFault) (hk : Keeps rs cl z s) :
    Keeps rs cl z (linkFault s f) := by
  unfold linkFault
  try dsimp only
  repeat' first
    | with_reducible exact hk
    | with_reducible apply keeps_modLane
    | (rw [mk_withRest]; with_reducible apply keeps_withRest)
    | (intro L hL; with_reducible exact hL)
    | (intro L hL; ((repeat' split) <;> first | with_reducible exact hL | exact hL | exact pressOk_stopPress hL))
    | split

theorem keeps_flushImage {rs cl : Bool} {z : State} (s : State) (l : Lane) (at3 : BitVec 3) (hk : Keeps rs cl z s) :
    Keeps rs cl z (flushImage s l at3) := by
  unfold flushImage
  try dsimp only
  repeat' first
    | with_reducible exact hk
    | with_reducible apply keeps_modLane
    | (rw [mk_withRest]; with_reducible apply keeps_withRest)
    | (intro L hL; with_reducible exact hL)
    | (intro L hL; ((repeat' split) <;> first | with_reducible exact hL | exact hL | exact pressOk_stopPress hL))
    | split

theorem keeps_sluiceResetLine {rs cl : Bool} {z : State} (s : State) (l : Lane) (hk : Keeps rs cl z s) :
    Keeps rs cl z (sluiceResetLine s l) := by
  unfold sluiceResetLine
  try dsimp only
  repeat' first
    | with_reducible exact hk
    | with_reducible apply keeps_flushImage
    | with_reducible apply keeps_foldS
    | with_reducible apply keeps_modLane
    | with_reducible apply keeps_modSluice
    | (rw [mk_withRest]; with_reducible apply keeps_withRest)
    | (intro L hL; with_reducible exact hL)
    | (intro L hL; ((repeat' split) <;> first | with_reducible exact hL | exact hL | exact pressOk_stopPress hL))
    | (intro x; with_reducible exact ⟨id, id⟩)
    | (intro x; unfold latchOpens; dsimp only; constructor <;> (repeat' split) <;> (simp_all; try tauto); done)
    | split
    | (with_reducible intro t x hk)
    | (with_reducible intro t hk)

theorem keeps_execLaneSwitchTest {rs cl : Bool} {z : State} (l : Lane) (s : State) (q0 : State) (hk : Keeps rs cl z s) :
    Keeps rs cl z (thenState q0 (execLaneSwitchTest l s)) := by
  unfold execLaneSwitchTest
  dsimp only [thenState]
  split
  · refine keeps_modSluice _ _ (fun x => ⟨fun h => ?_, id⟩) hk
    unfold latchOpens at *
    dsimp only
    cases e : x.latch <;> simp_all
  · exact hk

theorem keeps_execSwitchTestReadback {rs cl : Bool} {z : State} (l : Lane) (readback : Word) (s : State) (q0 : State) (hk : Keeps rs cl z s) :
    Keeps rs cl z (thenState q0 (execSwitchTestReadback l readback s)) := by
  unfold execSwitchTestReadback
  dsimp only [thenState]
  repeat' first
    | with_reducible exact hk
    | with_reducible apply keeps_retireOut
    | with_reducible apply keeps_modSluice
    | with_reducible apply keeps_foldS
    | (intro x; unfold latchOpens; dsimp only; constructor <;> (repeat' split) <;> simp_all; done)
    | (with_reducible intro t x hk)
    | split

theorem keeps_stuckOpen {rs cl : Bool} {z : State} (s : State) (n : Nat) (hk : Keeps rs cl z s) :
    Keeps rs cl z (stuckOpen s n) := by
  unfold stuckOpen
  try dsimp only
  repeat' first
    | with_reducible exact hk
    | with_reducible apply keeps_modOut
    | with_reducible apply keeps_eventAll

end Sys2Proof.Laws
end

