-- ==== Sys2Proof/Laws/KeepsLife.lean ====
section
/-!
SUPPORT. What every operation of self-tests, lanes, supplies and the start keeps (Safety.Keeps), one lemma for each operation and for each command.
-/

namespace Sys2Proof.Laws

open Sys2Proof.Machine Sys2Proof.Safety

theorem keeps_settleLevels {rs cl : Bool} {z : State} (s : State) (l : Lane) (hk : Keeps rs cl z s) :
    Keeps rs cl z (settleLevels s l) := by
  unfold settleLevels
  try dsimp only
  repeat' first
    | with_reducible exact hk
    | with_reducible apply keeps_eicLevel
    | with_reducible apply keeps_foldS
    | (with_reducible intro t x hk)

theorem keeps_movePhase {rs cl : Bool} {z : State} (s : State) (l : Lane) (ph : BitVec 3) (hk : Keeps rs cl z s) :
    Keeps rs cl z (movePhase s l ph) := by
  unfold movePhase
  try dsimp only
  repeat' first
    | with_reducible exact hk
    | with_reducible apply keeps_setPhase
    | with_reducible apply keeps_settleLevels
    | split

theorem keeps_endBist {rs cl : Bool} {z : State} (s : State) (l : Lane) (hk : Keeps rs cl z s) :
    Keeps rs cl z (endBist s l) := by
  unfold endBist
  try dsimp only
  repeat' first
    | with_reducible exact hk
    | with_reducible apply keeps_recordLane
    | with_reducible apply keeps_setPhase
    | with_reducible apply keeps_movePhase
    | with_reducible apply keeps_modLane
    | (rw [mk_withRest]; with_reducible apply keeps_withRest)
    | (intro L hL; with_reducible exact hL)
    | (intro L hL; ((repeat' split) <;> first | with_reducible exact hL | exact hL | exact pressOk_stopPress hL))
    | split

theorem keeps_enterSafe {rs cl : Bool} {z : State} (s : State) (hk : Keeps rs cl z s) :
    Keeps rs cl z (enterSafe s) := by
  unfold enterSafe
  try dsimp only
  repeat' first
    | with_reducible exact hk
    | with_reducible apply keeps_recordAll
    | with_reducible apply keeps_setModule
    | with_reducible apply keeps_setLatch
    | with_reducible apply keeps_endBist
    | with_reducible apply keeps_modLanes
    | with_reducible apply keeps_foldS
    | (intro l L hL; with_reducible exact hL)
    | (intro l L hL; ((repeat' split) <;> first | with_reducible exact hL | exact hL | exact pressOk_stopPress hL))
    | split
    | (with_reducible intro t x hk)
    | (with_reducible intro t hk)

theorem keeps_latchAll {rs cl : Bool} {z : State} (s : State) (c : LatchCause) (hk : Keeps rs cl z s) :
    Keeps rs cl z (latchAll s c) := by
  unfold latchAll
  try dsimp only
  repeat' first
    | with_reducible exact hk
    | with_reducible apply keeps_enterSafe
    | with_reducible apply keeps_setLatch
    | with_reducible apply keeps_foldS
    | (with_reducible intro t x hk)

theorem keeps_afterLoss {rs cl : Bool} {z : State} (s : State) (c : LatchCause) (hk : Keeps rs cl z s) :
    Keeps rs cl z (afterLoss s c) := by
  unfold afterLoss
  try dsimp only
  repeat' first
    | with_reducible exact hk
    | with_reducible apply keeps_latchAll
    | with_reducible apply keeps_setModule
    | split

theorem keeps_latchSafe {rs cl : Bool} {z : State} (s : State) (hk : Keeps rs cl z s) :
    Keeps rs cl z (latchSafe s) := by
  unfold latchSafe
  try dsimp only
  repeat' first
    | with_reducible exact hk
    | with_reducible apply keeps_enterSafe
    | split

theorem keeps_isolateNow {rs cl : Bool} {z : State} (s : State) (l : Lane) (c : IsoCause) (onLoss : LatchCause) (hk : Keeps rs cl z s) :
    Keeps rs cl z (isolateNow s l c onLoss) := by
  unfold isolateNow
  extract_lets now counted earlier retire again s1 s2 s3 s4 s5 s6
  have h1 : Keeps rs cl z s1 := by
    refine keeps_abortSwitchTests _ ?_
    split
    · exact keeps_dropPlanned _ _ hk
    · exact hk
  have h2 : Keeps rs cl z s2 := 
    keeps_modPage3 _ (fun x => totalsUp_isolate x l c counted again retire now)
      (fun _ x m h => retired_isolate x l m c counted again retire now h) h1
  have h3 : Keeps rs cl z s3 := keeps_modLane _ _ (fun L hL => pressOk_stopPress hL) h2
  have h4 : Keeps rs cl z s4 := by
    refine keeps_dropLane _ _ ?_
    split
    · exact keeps_endBist _ _ h3
    · exact h3
  have h5 : Keeps rs cl z s5 := by
    refine keeps_recordAll _ _ _ ?_
    split
    · exact h4
    · exact keeps_eicRaiseAll _ _ h4
  have h6 : Keeps rs cl z s6 := by
    unfold s6; split
    · exact keeps_eventAll _ _ _ _ h5
    · exact h5
  exact keeps_latchSafe _ (keeps_afterLoss _ _ h6)

theorem keeps_isolateWith {rs cl : Bool} {z : State} (s : State) (l : Lane) (c : IsoCause) (onLoss : LatchCause) (hk : Keeps rs cl z s) :
    Keeps rs cl z (isolateWith s l c onLoss) := by
  unfold isolateWith
  try dsimp only
  repeat' first
    | with_reducible exact hk
    | with_reducible apply keeps_isolateNow
    | with_reducible apply keeps_recordAll
    | split

theorem keeps_isolate {rs cl : Bool} {z : State} (s : State) (l : Lane) (c : IsoCause) (hk : Keeps rs cl z s) :
    Keeps rs cl z (isolate s l c) := by
  unfold isolate
  try dsimp only
  repeat' first
    | with_reducible exact hk
    | with_reducible apply keeps_isolateWith

theorem keeps_execEngineSelfCheck {rs cl : Bool} {z : State} (l : Lane) (found : Option (BitVec 4)) (s : State) (q0 : State) (hk : Keeps rs cl z s) :
    Keeps rs cl z (thenState q0 (execEngineSelfCheck l found s)) := by
  unfold execEngineSelfCheck
  dsimp only [thenState]
  repeat' first
    | with_reducible exact hk
    | with_reducible apply keeps_isolate
    | with_reducible apply keeps_modLane
    | (rw [mk_withRest]; with_reducible apply keeps_withRest)
    | (intro L hL; with_reducible exact hL)
    | (intro L hL; ((repeat' split) <;> first | with_reducible exact hL | exact hL | exact pressOk_stopPress hL))
    | split

theorem keeps_execNetworkMismatch {rs cl : Bool} {z : State} (l : Lane) (s : State) (q0 : State) (hk : Keeps rs cl z s) :
    Keeps rs cl z (thenState q0 (execNetworkMismatch l s)) := by
  unfold execNetworkMismatch
  dsimp only [thenState]
  repeat' first
    | with_reducible exact hk
    | with_reducible apply keeps_isolate
    | with_reducible apply keeps_modLane
    | (intro L hL; with_reducible exact hL)
    | split

theorem keeps_pressFault {rs cl : Bool} {z : State} (s : State) (l : Lane) (i : Fin 4) (k : PressFault) (addr : Nat) (hk : Keeps rs cl z s) :
    Keeps rs cl z (pressFault s l i k addr) := by
  unfold pressFault
  try dsimp only
  repeat' first
    | (intro L hL; exact pressOk_of (pressOk_stopPress hL) id rfl id)
    | with_reducible exact hk
    | with_reducible apply keeps_eventLane
    | with_reducible apply keeps_isolate
    | with_reducible apply keeps_modLane

theorem keeps_pressPut {rs cl : Bool} {z : State} (s : State) (w : PressWord) (p : Press) (x : PressResult)
    (hp : (∀ m, pressOk (lane s m).press = true) → pressOk p = true)
    (hx : (∀ m, pressOk (lane s m).press = true) → fitsResult x) (hk : Keeps rs cl z s) :
    Keeps rs cl z (pressPut s w p x) := by
  cases x with
  | fault k => exact keeps_pressFault _ _ _ _ _ hk
  | ok y ws =>
    dsimp only [pressPut]
    have h1 : Keeps rs cl z (modLane s w.lane (fun L => { L with press := { p with
        strands := putStrand p.strands w.strand { y with ran := true }, writes := p.writes ++ ws.map (fun x => (w.strand.val, x)) } })) := by
      refine keeps_modLane_from _ _ (fun a => ?_) hk
      exact pressOk_of (hp a) id rfl (fun b => stacksFit_put b _ (hx a))
    split
    · exact keeps_logicDone _ _ h1
    · exact h1
  | call y k i c =>
    dsimp only [pressPut]
    refine keeps_modLane_from _ _ (fun a => ?_) hk
    exact pressOk_of (hp a) id rfl (fun b => stacksFit_put b _ (hx a))

theorem keeps_runWord {rs cl : Bool} {z : State} (s : State) (w : PressWord) (closing : Bool) (legal : Nat → Nat → Bool)
    (body : State → LaneState → Strand → PressResult) (hb : ∀ t L y, y.stack.length ≤ 16 → fitsResult (body t L y))
    (hk : Keeps rs cl z s) : Keeps rs cl z (runWord s w closing legal body) := by
  have hp : (∀ m, pressOk (lane s m).press = true) → pressOk
      (if (strandOf (lane s w.lane).press.strands w.strand).ran = true then nextClock (lane s w.lane).press
        else (lane s w.lane).press) = true := by
    intro a
    split
    · exact pressOk_nextClock (a _)
    · exact a _
  unfold runWord
  dsimp only
  generalize (if (strandOf (lane s w.lane).press.strands w.strand).ran = true then nextClock (lane s w.lane).press
        else (lane s w.lane).press) = p at hp ⊢
  split
  · have h1 : Keeps rs cl z (modLane s w.lane (fun L => { L with press := p })) := keeps_modLane_from _ _ (fun a => hp a) hk
    have up : (∀ m, pressOk (lane (modLane s w.lane (fun L => { L with press := p })) m).press = true) → pressOk p = true := by
      intro a
      have := a w.lane
      rw [lane_modLane, if_pos rfl] at this
      exact this
    split
    · exact keeps_pressFault _ _ _ _ _ h1
    · split
      · exact keeps_pressFault _ _ _ _ _ h1
      · split
        · exact keeps_pressFault _ _ _ _ _ h1
        · exact keeps_pressPut _ _ _ _ up (fun a => hb _ _ _ (strandOf_fits ((pressOk_iff _).1 (up a)).2.2 _)) h1
  · exact hk

theorem keeps_latchRule {rs cl : Bool} {z : State} (s : State) (hk : Keeps rs cl z s) :
    Keeps rs cl z (latchRule s) := by
  unfold latchRule
  try dsimp only
  repeat' first
    | with_reducible exact hk
    | with_reducible apply keeps_enterSafe
    | with_reducible apply keeps_isolate
    | with_reducible apply keeps_countDissent
    | with_reducible apply keeps_modLane
    | with_reducible apply keeps_modSluice
    | (rw [mk_withRest]; with_reducible apply keeps_withRest)
    | (intro L hL; with_reducible exact hL)
    | (intro x; with_reducible exact ⟨id, id⟩)
    | (intro L hL; ((repeat' split) <;> first | with_reducible exact hL | exact hL | exact pressOk_stopPress hL))
    | (intro x; unfold latchOpens; dsimp only; constructor <;> (repeat' split) <;> (simp_all; try tauto); done)
    | split

theorem keeps_overrunLane {rs cl : Bool} {z : State} (also : List IsoCause) (s : State) (l : Lane) (hk : Keeps rs cl z s) :
    Keeps rs cl z (overrunLane also s l) := by
  unfold overrunLane
  try dsimp only
  repeat' first
    | with_reducible exact hk
    | with_reducible apply keeps_isolate
    | with_reducible apply keeps_modLane
    | with_reducible apply keeps_modLife
    | (rw [mk_withRest]; with_reducible apply keeps_withRest)
    | (intro x; exact lifeKeeps_lanes x l _ ⟨up_refl _, up_refl _, up_satInc _⟩ rfl)
    | (intro L hL; exact pressOk_stopPress hL)
    | (intro L hL; with_reducible exact hL)
    | (intro L hL; ((repeat' split) <;> first | with_reducible exact hL | exact hL | exact pressOk_stopPress hL))
    | (intro x; refine ⟨?_, fun m => rfl⟩; constructor <;> intros <;> dsimp only <;> (try split) <;> first | exact up_refl _ | exact ⟨up_refl _, up_refl _, up_refl _⟩ | exact up_satInc _ | exact up_satAdd _ _ | exact up_smod_satInc _ _ _ | exact up_port _ _ _ | exact up_lanes _ _ | exact up_lanesIf _ _ _ | exact up_lanesSet _ _ _)
    | split

theorem keeps_dissentLane {rs cl : Bool} {z : State} (s : State) (l : Lane) (found : BitVec 3) (hk : Keeps rs cl z s) :
    Keeps rs cl z (dissentLane s l found) := by
  unfold dissentLane
  try dsimp only
  repeat' first
    | with_reducible exact hk
    | with_reducible apply keeps_isolate
    | with_reducible apply keeps_countDissent
    | with_reducible apply keeps_modSluices
    | (rw [mk_withRest]; with_reducible apply keeps_withRest)
    | (intro l x; with_reducible exact ⟨id, id⟩)
    | (intro l x; unfold latchOpens; dsimp only; constructor <;> (repeat' split) <;> (simp_all; try tauto); done)
    | split

theorem keeps_shadowCompare {rs cl : Bool} {z : State} (s : State) (l : Lane) (hk : Keeps rs cl z s) :
    Keeps rs cl z (shadowCompare s l) := by
  unfold shadowCompare
  try dsimp only
  repeat' first
    | with_reducible exact hk
    | with_reducible apply keeps_isolate
    | with_reducible apply keeps_modLane
    | (rw [mk_withRest]; with_reducible apply keeps_withRest)
    | (intro L hL; with_reducible exact hL)
    | (intro L hL; ((repeat' split) <;> first | with_reducible exact hL | exact hL | exact pressOk_stopPress hL))
    | split

theorem keeps_dissentVoter {rs cl : Bool} {z : State} (out : Lane → VoteOut) (s : State) (l : Lane) (hk : Keeps rs cl z s) :
    Keeps rs cl z (dissentVoter out s l) := by
  unfold dissentVoter
  try dsimp only
  repeat' first
    | with_reducible exact hk
    | with_reducible apply keeps_isolate
    | with_reducible apply keeps_dissentLane
    | with_reducible apply keeps_modLife
    | (rw [mk_withRest]; with_reducible apply keeps_withRest)
    | (intro x; refine ⟨?_, fun m => rfl⟩; constructor <;> intros <;> dsimp only <;> (try split) <;> first | exact up_refl _ | exact ⟨up_refl _, up_refl _, up_refl _⟩ | exact up_satInc _ | exact up_satAdd _ _ | exact up_smod_satInc _ _ _ | exact up_port _ _ _ | exact up_lanes _ _ | exact up_lanesIf _ _ _ | exact up_lanesSet _ _ _)
    | split

theorem keeps_takeResults {rs cl : Bool} {z : State} (s : State) (hk : Keeps rs cl z s) :
    Keeps rs cl z (takeResults s) := by
  unfold takeResults
  try dsimp only
  repeat' first
    | with_reducible exact hk
    | with_reducible apply keeps_setDrives
    | with_reducible apply keeps_shadowCompare
    | with_reducible apply keeps_foldS
    | (rw [mk_withRest]; with_reducible apply keeps_withRest)
    | split
    | (with_reducible intro t x hk)
    | (with_reducible intro t hk)

theorem keeps_decideVote {rs cl : Bool} {z : State} (t : BitVec 28) (s : State) (hk : Keeps rs cl z s) :
    Keeps rs cl z (decideVote t s) := by
  unfold decideVote
  try dsimp only
  repeat' first
    | with_reducible exact hk
    | with_reducible apply keeps_setLatch
    | with_reducible apply keeps_latchRule
    | with_reducible apply keeps_voteTested
    | with_reducible apply keeps_takeResults
    | with_reducible apply keeps_noteVote
    | with_reducible apply keeps_dissentVoter
    | with_reducible apply keeps_modSluices
    | with_reducible apply keeps_foldS
    | (intro l x; with_reducible exact ⟨id, id⟩)
    | split
    | (with_reducible intro t x hk)
    | (with_reducible intro t hk)

theorem keeps_voteNow {rs cl : Bool} {z : State} (atNs : BitVec 28) (s : State) (hk : Keeps rs cl z s) :
    Keeps rs cl z (voteNow atNs s) := by
  unfold voteNow
  try dsimp only
  repeat' first
    | with_reducible exact hk
    | with_reducible apply keeps_overrunLane
    | with_reducible apply keeps_decideVote
    | with_reducible apply keeps_modSluices
    | with_reducible apply keeps_foldS
    | (intro l x; with_reducible exact ⟨id, id⟩)
    | split
    | (with_reducible intro t x hk)
    | (with_reducible intro t hk)

theorem keeps_execVote {rs cl : Bool} {z : State} (v : VoteMoment) (s : State) (q0 : State) (hk : Keeps rs cl z s) :
    Keeps rs cl z (thenState q0 (execVote v s)) := by
  unfold execVote
  dsimp only [thenState]
  repeat' first
    | with_reducible exact hk
    | with_reducible apply keeps_linkFault
    | with_reducible apply keeps_voteNow
    | with_reducible apply keeps_foldS
    | split
    | (with_reducible intro t x hk)
    | (with_reducible intro t hk)

theorem keeps_execUncaused {rs cl : Bool} {z : State} (l : Lane) (s : State) (q0 : State) (hk : Keeps rs cl z s) :
    Keeps rs cl z (thenState q0 (execUncaused l s)) := by
  unfold execUncaused
  dsimp only [thenState]
  repeat' first
    | with_reducible exact hk
    | with_reducible apply keeps_latchRule
    | with_reducible apply keeps_setLatch
    | split

theorem keeps_execCheckBlock {rs cl : Bool} {z : State} (path : ImagePath) (block : Option Word) (s : State) (q0 : State) (hk : Keeps rs cl z s) :
    Keeps rs cl z (thenState q0 (execCheckBlock path block s)) := by
  unfold execCheckBlock
  dsimp only [thenState]
  repeat' first
    | with_reducible exact hk
    | with_reducible apply keeps_isolate
    | with_reducible apply keeps_shadowCompare
    | with_reducible apply keeps_modLane
    | with_reducible apply keeps_modLife
    | (rw [mk_withRest]; with_reducible apply keeps_withRest)
    | (intro L hL; with_reducible exact hL)
    | (intro L hL; ((repeat' split) <;> first | with_reducible exact hL | exact hL | exact pressOk_stopPress hL))
    | (intro x; refine ⟨?_, fun m => rfl⟩; constructor <;> intros <;> dsimp only <;> (try split) <;> first | exact up_refl _ | exact ⟨up_refl _, up_refl _, up_refl _⟩ | exact up_satInc _ | exact up_satAdd _ _ | exact up_smod_satInc _ _ _ | exact up_port _ _ _ | exact up_lanes _ _ | exact up_lanesIf _ _ _ | exact up_lanesSet _ _ _)
    | split

theorem keeps_digestSafe {rs cl : Bool} {z : State} (s : State) (c : LatchCause) (hk : Keeps rs cl z s) :
    Keeps rs cl z (digestSafe s c) := by
  unfold digestSafe
  try dsimp only
  repeat' first
    | with_reducible exact hk
    | with_reducible apply keeps_setLatch
    | with_reducible apply keeps_latchRule
    | with_reducible apply keeps_voteTested
    | with_reducible apply keeps_foldS
    | with_reducible apply keeps_modSluices
    | (rw [mk_withRest]; with_reducible apply keeps_withRest)
    | (intro l x; with_reducible exact ⟨id, id⟩)
    | (intro l x; unfold latchOpens; dsimp only; constructor <;> (repeat' split) <;> (simp_all; try tauto); done)
    | split
    | (with_reducible intro t x hk)
    | (with_reducible intro t hk)

theorem keeps_digestDissent {rs cl : Bool} {z : State} (s : State) (l : Lane) (hk : Keeps rs cl z s) :
    Keeps rs cl z (digestDissent s l) := by
  unfold digestDissent
  try dsimp only
  repeat' first
    | with_reducible exact hk
    | with_reducible apply keeps_dissentLane
    | with_reducible apply keeps_voteTested
    | split

theorem keeps_digestCheck {rs cl : Bool} {z : State} (s : State) (d : PerLane (BitVec 64)) (hk : Keeps rs cl z s) :
    Keeps rs cl z (digestCheck s d) := by
  unfold digestCheck
  try dsimp only
  repeat' first
    | with_reducible exact hk
    | with_reducible apply keeps_digestDissent
    | with_reducible apply keeps_digestSafe
    | with_reducible apply keeps_modSluices
    | (rw [mk_withRest]; with_reducible apply keeps_withRest)
    | (intro l x; with_reducible exact ⟨id, id⟩)
    | (intro l x; unfold latchOpens; dsimp only; constructor <;> (repeat' split) <;> (simp_all; try tauto); done)
    | split

theorem keeps_execVoteDigest {rs cl : Bool} {z : State} (err : PerLane (BitVec 64)) (s : State) (q0 : State) (hk : Keeps rs cl z s) :
    Keeps rs cl z (thenState q0 (execVoteDigest err s)) := by
  unfold execVoteDigest
  dsimp only [thenState]
  repeat' first
    | with_reducible exact hk
    | with_reducible apply keeps_digestCheck
    | split

theorem keeps_execOverrun {rs cl : Bool} {z : State} (f : Finding) (s : State) (q0 : State) (hk : Keeps rs cl z s) :
    Keeps rs cl z (thenState q0 (execOverrun f s)) := by
  unfold execOverrun
  dsimp only [thenState]
  repeat' first
    | with_reducible exact hk
    | with_reducible apply keeps_overrunLane
    | split

theorem keeps_execWatchdog {rs cl : Bool} {z : State} (f : Finding) (dev : Option Int) (s : State) (q0 : State) (hk : Keeps rs cl z s) :
    Keeps rs cl z (thenState q0 (execWatchdog f dev s)) := by
  unfold execWatchdog
  dsimp only [thenState]
  repeat' first
    | with_reducible exact hk
    | with_reducible apply keeps_isolate
    | with_reducible apply keeps_modSluice
    | (rw [mk_withRest]; with_reducible apply keeps_withRest)
    | (intro x; with_reducible exact ⟨id, id⟩)
    | (intro x; unfold latchOpens; dsimp only; constructor <;> (repeat' split) <;> (simp_all; try tauto); done)
    | split

theorem keeps_execLinkTimeout {rs cl : Bool} {z : State} (x : LinkSilence) (s : State) (q0 : State) (hk : Keeps rs cl z s) :
    Keeps rs cl z (thenState q0 (execLinkTimeout x s)) := by
  unfold execLinkTimeout
  dsimp only [thenState]
  repeat' first
    | with_reducible exact hk
    | with_reducible apply keeps_isolate
    | with_reducible apply keeps_flushImage
    | with_reducible apply keeps_modSluices
    | (rw [mk_withRest]; with_reducible apply keeps_withRest)
    | (intro l x; with_reducible exact ⟨id, id⟩)
    | (intro l x; unfold latchOpens; dsimp only; constructor <;> (repeat' split) <;> (simp_all; try tauto); done)
    | split

theorem keeps_laneResetLine {rs cl : Bool} {z : State} (s : State) (l : Lane) (reported : Option IsoCause) (hk : Keeps rs cl z s) :
    Keeps rs cl z (laneResetLine s l reported) := by
  unfold laneResetLine
  try dsimp only
  repeat' first
    | with_reducible exact hk
    | with_reducible apply keeps_isolate
    | with_reducible apply keeps_flushImage
    | with_reducible apply keeps_modLane
    | with_reducible apply keeps_modSluices
    | (rw [mk_withRest]; with_reducible apply keeps_withRest)
    | (intro L hL; with_reducible exact hL)
    | (intro L hL; ((repeat' split) <;> first | with_reducible exact hL | exact hL | exact pressOk_stopPress hL))
    | (intro l x; with_reducible exact ⟨id, id⟩)
    | (intro l x; unfold latchOpens; dsimp only; constructor <;> (repeat' split) <;> (simp_all; try tauto); done)
    | split

theorem keeps_execResetLine {rs cl : Bool} {z : State} (l : Lane) (of : ResetLineOf) (s : State) (q0 : State) (hk : Keeps rs cl z s) :
    Keeps rs cl z (thenState q0 (execResetLine l of s)) := by
  unfold execResetLine
  dsimp only [thenState]
  repeat' first
    | with_reducible exact hk
    | with_reducible apply keeps_laneResetLine
    | with_reducible apply keeps_sluiceResetLine
    | with_reducible apply keeps_modSluices
    | (intro l x; with_reducible exact ⟨id, id⟩)
    | split

theorem keeps_execLaneSwitchCloseTest {rs cl : Bool} {z : State} (l : Lane) (closed opened : Word) (s : State) (q0 : State) (hk : Keeps rs cl z s) :
    Keeps rs cl z (thenState q0 (execLaneSwitchCloseTest l closed opened s)) := by
  unfold execLaneSwitchCloseTest
  dsimp only [thenState]
  repeat' first
    | with_reducible exact hk
    | with_reducible apply keeps_stuckOpen
    | with_reducible apply keeps_retireOut
    | with_reducible apply keeps_isolateWith
    | with_reducible apply keeps_modSluice
    | with_reducible apply keeps_foldS
    | (intro x; with_reducible exact ⟨id, id⟩)
    | (with_reducible intro t x hk)
    | split

theorem keeps_softRepair {rs cl : Bool} {z : State} (l : Lane) (s : State) (r : SoftRepair) (hk : Keeps rs cl z s) :
    Keeps rs cl z (softRepair l s r) := by
  unfold softRepair
  try dsimp only
  repeat' first
    | with_reducible exact hk
    | with_reducible apply keeps_eventLane
    | with_reducible apply keeps_modPages
    | with_reducible apply keeps_modLane
    | with_reducible apply keeps_modLife
    | (rw [mk_withRest]; with_reducible apply keeps_withRest)
    | (intro L hL; with_reducible exact hL)
    | (intro L hL; ((repeat' split) <;> first | with_reducible exact hL | exact hL | exact pressOk_stopPress hL))
    | (intro x; refine ⟨?_, fun m => rfl⟩; constructor <;> intros <;> dsimp only <;> (try split) <;> first | exact up_refl _ | exact ⟨up_refl _, up_refl _, up_refl _⟩ | exact up_satInc _ | exact up_satAdd _ _ | exact up_smod_satInc _ _ _ | exact up_port _ _ _ | exact up_lanes _ _ | exact up_lanesIf _ _ _ | exact up_lanesSet _ _ _)
    | split

theorem keeps_bistPassed {rs cl : Bool} {z : State} (s : State) (l : Lane) (march : Bool) (repaired : Nat) (start : Time) (hk : Keeps rs cl z s) :
    Keeps rs cl z (bistPassed s l march repaired start) := by
  unfold bistPassed
  try dsimp only
  repeat' first
    | (intro x; exact lifeKeeps_lanes x l _ ⟨up_refl _, up_refl _, up_refl _⟩ rfl)
    | with_reducible exact hk
    | with_reducible apply keeps_eventLane
    | with_reducible apply keeps_modLane
    | with_reducible apply keeps_modLife
    | (rw [mk_withRest]; with_reducible apply keeps_withRest)
    | (intro L hL; with_reducible exact hL)

theorem keeps_bistFailed {rs cl : Bool} {z : State} (s : State) (l : Lane) (r : BistResult) (hk : Keeps rs cl z s) :
    Keeps rs cl z (bistFailed s l r) := by
  unfold bistFailed
  try dsimp only
  repeat' first
    | with_reducible exact hk
    | with_reducible apply keeps_eventLane
    | with_reducible apply keeps_modLane
    | (rw [mk_withRest]; with_reducible apply keeps_withRest)
    | (intro L hL; with_reducible exact hL)
    | (intro L hL; ((repeat' split) <;> first | with_reducible exact hL | exact hL | exact pressOk_stopPress hL))
    | split

theorem keeps_takeBanks {rs cl : Bool} {z : State} (s : State) (l : Lane) (hk : Keeps rs cl z s) :
    Keeps rs cl z (takeBanks s l) := by
  unfold takeBanks
  try dsimp only
  repeat' first
    | with_reducible exact hk
    | with_reducible apply keeps_modLane
    | (intro L hL; with_reducible exact hL)
    | split

theorem keeps_buildBanks {rs cl : Bool} {z : State} (s : State) (l : Lane) (badA badB : Bool) (hk : Keeps rs cl z s) :
    Keeps rs cl z (buildBanks s l badA badB) := by
  unfold buildBanks
  try dsimp only
  repeat' first
    | with_reducible exact hk
    | with_reducible apply keeps_modLane
    | (rw [mk_withRest]; with_reducible apply keeps_withRest)
    | (intro L hL; with_reducible exact hL)
    | (intro L hL; ((repeat' split) <;> first | with_reducible exact hL | exact hL | exact pressOk_stopPress hL))
    | split

theorem keeps_reinitialise {rs cl : Bool} {z : State} (s : State) (l : Lane) (hk : Keeps rs cl z s) :
    Keeps rs cl z (reinitialise s l) := by
  unfold reinitialise
  try dsimp only
  repeat' first
    | with_reducible exact hk
    | with_reducible apply keeps_takeBanks
    | with_reducible apply keeps_buildBanks
    | with_reducible apply keeps_modLane
    | (rw [mk_withRest]; with_reducible apply keeps_withRest)
    | (intro L hL; exact pressOk_pressCleared hL)
    | (intro L hL; with_reducible exact hL)
    | (intro L hL; ((repeat' split) <;> first | with_reducible exact hL | exact hL | exact pressOk_stopPress hL))
    | split

theorem keeps_enterTest {rs cl : Bool} {z : State} (s : State) (l : Lane) (e : TestEntry) (hk : Keeps rs cl z s) :
    Keeps rs cl z (enterTest s l e) :=
  keeps_modLane _ _ (fun L hL => pressOk_of hL id rfl id) (keeps_modSluices _ (fun _ x => ⟨id, id⟩) hk)

theorem keeps_tested {rs cl : Bool} {z : State} (s : State) (l : Lane) (e : TestEntry) (hk : Keeps rs cl z s) :
    Keeps rs cl z (tested s l e) := by
  unfold tested
  try dsimp only
  repeat' first
    | with_reducible exact hk
    | with_reducible apply keeps_enterTest
    | with_reducible apply keeps_modLane
    | (intro L hL; with_reducible exact hL)

theorem keeps_execBistDue {rs cl : Bool} {z : State} (l : Lane) (s : State) (q0 : State) (hk : Keeps rs cl z s) :
    Keeps rs cl z (thenState q0 (execBistDue l s)) := by
  unfold execBistDue
  dsimp only [thenState]
  repeat' first
    | with_reducible exact hk
    | with_reducible apply keeps_modLane
    | (rw [mk_withRest]; with_reducible apply keeps_withRest)
    | (intro L hL; with_reducible exact hL)
    | (intro L hL; ((repeat' split) <;> first | with_reducible exact hL | exact hL | exact pressOk_stopPress hL))
    | split

theorem keeps_execBistStart {rs cl : Bool} {z : State} (l : Lane) (s : State) (q0 : State) (hk : Keeps rs cl z s) :
    Keeps rs cl z (thenState q0 (execBistStart l s)) := by
  unfold execBistStart
  dsimp only [thenState]
  repeat' first
    | with_reducible exact hk
    | with_reducible apply keeps_setPhase
    | with_reducible apply keeps_isolate
    | with_reducible apply keeps_modLane
    | (rw [mk_withRest]; with_reducible apply keeps_withRest)
    | (intro L hL; with_reducible exact hL)
    | (intro L hL; ((repeat' split) <;> first | with_reducible exact hL | exact hL | exact pressOk_stopPress hL))
    | split

theorem keeps_enterParts {rs cl : Bool} {z : State} (s : State) (l : Lane) (ph : BitVec 3) (hk : Keeps rs cl z s) :
    Keeps rs cl z (enterParts s l ph) := by
  unfold enterParts
  try dsimp only
  repeat' first
    | with_reducible exact hk
    | with_reducible apply keeps_movePhase
    | with_reducible apply keeps_modLane
    | (intro L hL; with_reducible exact hL)
    | (intro L hL; exact pressOk_sramMarched hL)
    | (intro L hL; exact hL)
    | (intro L hL; ((repeat' split) <;> first | with_reducible exact hL | exact hL | exact pressOk_stopPress hL))
    | split

theorem keeps_bistTick {rs cl : Bool} {z : State} (s : State) (l : Lane) (hk : Keeps rs cl z s) :
    Keeps rs cl z (bistTick s l) := by
  unfold bistTick
  try dsimp only
  repeat' first
    | with_reducible exact hk
    | with_reducible apply keeps_closeLost
    | with_reducible apply keeps_drainStaging
    | with_reducible apply keeps_enterParts
    | with_reducible apply keeps_modLane
    | (rw [mk_withRest]; with_reducible apply keeps_withRest)
    | (intro L hL; with_reducible exact hL)
    | (intro L hL; ((repeat' split) <;> first | with_reducible exact hL | exact hL | exact pressOk_stopPress hL))
    | split

theorem keeps_execBistEnd {rs cl : Bool} {z : State} (l : Lane) (r : BistResult) (repairs : List SoftRepair) (s : State) (q0 : State) (hk : Keeps rs cl z s) :
    Keeps rs cl z (thenState q0 (execBistEnd l r repairs s)) := by
  unfold execBistEnd
  dsimp only [thenState]
  repeat' first
    | with_reducible exact hk
    | with_reducible apply keeps_movePhase
    | with_reducible apply keeps_isolate
    | with_reducible apply keeps_softRepair
    | with_reducible apply keeps_bistPassed
    | with_reducible apply keeps_bistFailed
    | with_reducible apply keeps_reinitialise
    | with_reducible apply keeps_enterTest
    | with_reducible apply keeps_tested
    | with_reducible apply keeps_foldS
    | split
    | (with_reducible intro t x hk)
    | (with_reducible intro t hk)

theorem keeps_execBistOverdue {rs cl : Bool} {z : State} (l : Lane) (s : State) (q0 : State) (hk : Keeps rs cl z s) :
    Keeps rs cl z (thenState q0 (execBistOverdue l s)) := by
  unfold execBistOverdue
  dsimp only [thenState]
  repeat' first
    | with_reducible exact hk
    | with_reducible apply keeps_eventLane
    | with_reducible apply keeps_modLane
    | (intro L hL; with_reducible exact hL)
    | split

theorem keeps_execBistRequest {rs cl : Bool} {z : State} (l : Lane) (march : Bool) (auth : Auth) (s : State) (q0 : State) (hk : Keeps rs cl z s) :
    Keeps rs cl z (thenState q0 (execBistRequest l march auth s)) := by
  unfold execBistRequest
  dsimp only [thenState]
  repeat' first
    | with_reducible exact hk
    | with_reducible apply keeps_harnal
    | with_reducible apply keeps_modLane
    | (rw [mk_withRest]; with_reducible apply keeps_withRest)
    | (intro L hL; with_reducible exact hL)
    | (intro L hL; ((repeat' split) <;> first | with_reducible exact hL | exact hL | exact pressOk_stopPress hL))
    | split
    | (with_reducible intro t x hk)
    | (with_reducible intro t hk)

theorem keeps_execEccUncorrectable {rs cl : Bool} {z : State} (f : Finding) (s : State) (q0 : State) (hk : Keeps rs cl z s) :
    Keeps rs cl z (thenState q0 (execEccUncorrectable f s)) := by
  unfold execEccUncorrectable
  dsimp only [thenState]
  repeat' first
    | with_reducible exact hk
    | with_reducible apply keeps_isolate
    | split

theorem keeps_execFirmwareSelfCheck {rs cl : Bool} {z : State} (l : Lane) (s : State) (q0 : State) (hk : Keeps rs cl z s) :
    Keeps rs cl z (thenState q0 (execFirmwareSelfCheck l s)) := by
  unfold execFirmwareSelfCheck
  dsimp only [thenState]
  repeat' first
    | with_reducible exact hk
    | with_reducible apply keeps_isolate

theorem keeps_beginTests {rs cl : Bool} {z : State} (s : State) (l : Lane) (trigger : BitVec 2) (hk : Keeps rs cl z s) :
    Keeps rs cl z (beginTests s l trigger) := by
  unfold beginTests
  try dsimp only
  repeat' first
    | with_reducible exact hk
    | with_reducible apply keeps_modLane
    | (rw [mk_withRest]; with_reducible apply keeps_withRest)
    | (intro L hL; with_reducible exact hL)
    | (intro L hL; ((repeat' split) <;> first | with_reducible exact hL | exact hL | exact pressOk_stopPress hL))
    | split

theorem keeps_clearedResult {rs cl : Bool} {z : State} (s : State) (l : Lane) (v : List SoftRepair × BistResult) (hk : Keeps rs cl z s) :
    Keeps rs cl z (clearedResult s l v) := by
  unfold clearedResult
  try dsimp only
  repeat' first
    | with_reducible exact hk
    | with_reducible apply keeps_softRepair
    | with_reducible apply keeps_bistPassed
    | with_reducible apply keeps_bistFailed
    | with_reducible apply keeps_beginTests
    | with_reducible apply keeps_modLane
    | with_reducible apply keeps_foldS
    | (intro L hL; with_reducible exact hL)
    | split
    | (with_reducible intro t x hk)
    | (with_reducible intro t hk)

theorem keeps_execReinitialisation {rs cl : Bool} {z : State} (l : Lane) (r : TestRun) (s : State) (q0 : State) (hk : Keeps rs cl z s) :
    Keeps rs cl z (thenState q0 (execReinitialisation l r s)) := by
  unfold execReinitialisation
  dsimp only [thenState]
  repeat' first
    | with_reducible exact hk
    | with_reducible apply keeps_isolate
    | with_reducible apply keeps_reinitialise
    | with_reducible apply keeps_enterTest
    | with_reducible apply keeps_tested
    | with_reducible apply keeps_clearedResult
    | split

theorem keeps_enterSync {rs cl : Bool} {z : State} (s : State) (l : Lane) (hk : Keeps rs cl z s) :
    Keeps rs cl z (enterSync s l) := by
  unfold enterSync
  try dsimp only
  repeat' first
    | with_reducible exact hk
    | with_reducible apply keeps_modLane
    | (rw [mk_withRest]; with_reducible apply keeps_withRest)
    | (intro L hL; with_reducible exact hL)
    | (intro L hL; ((repeat' split) <;> first | with_reducible exact hL | exact hL | exact pressOk_stopPress hL))
    | split

theorem keeps_noteClass {rs cl : Bool} {z : State} (s : State) (l : Lane) (hk : Keeps rs cl z s) :
    Keeps rs cl z (noteClass s l) := by
  unfold noteClass
  try dsimp only
  repeat' first
    | with_reducible exact hk
    | with_reducible apply keeps_eventLane
    | with_reducible apply keeps_modLane
    | (rw [mk_withRest]; with_reducible apply keeps_withRest)
    | (intro L hL; with_reducible exact hL)
    | (intro L hL; ((repeat' split) <;> first | with_reducible exact hL | exact hL | exact pressOk_stopPress hL))
    | split

theorem keeps_execLaneSync {rs cl : Bool} {z : State} (l : Lane) (s : State) (q0 : State) (hk : Keeps rs cl z s) :
    Keeps rs cl z (thenState q0 (execLaneSync l s)) := by
  unfold execLaneSync
  dsimp only [thenState]
  repeat' first
    | with_reducible exact hk
    | with_reducible apply keeps_enterSync
    | with_reducible apply keeps_noteClass
    | split

theorem keeps_execStateTransfer {rs cl : Bool} {z : State} (l : Lane) (s : State) (q0 : State) (hk : Keeps rs cl z s) :
    Keeps rs cl z (thenState q0 (execStateTransfer l s)) := by
  unfold execStateTransfer
  dsimp only [thenState]
  repeat' first
    | with_reducible exact hk
    | with_reducible apply keeps_modLane
    | (rw [mk_withRest]; with_reducible apply keeps_withRest)
    | (intro L hL; with_reducible exact hL)
    | (intro L hL; ((repeat' split) <;> first | with_reducible exact hL | exact hL | exact pressOk_stopPress hL))
    | split

theorem keeps_setJoin {rs cl : Bool} {z : State} (s : State) (l : Lane) (j : JoinStep) (hk : Keeps rs cl z s) :
    Keeps rs cl z (setJoin s l j) := by
  unfold setJoin
  try dsimp only
  repeat' first
    | with_reducible exact hk
    | with_reducible apply keeps_modLane
    | (intro L hL; with_reducible exact hL)

theorem keeps_execTransferVerified {rs cl : Bool} {z : State} (l : Lane) (checks : List (BitVec 64)) (s : State) (q0 : State) (hk : Keeps rs cl z s) :
    Keeps rs cl z (thenState q0 (execTransferVerified l checks s)) := by
  unfold execTransferVerified
  dsimp only [thenState]
  repeat' first
    | with_reducible exact hk
    | with_reducible apply keeps_isolate
    | with_reducible apply keeps_setJoin
    | split

/-- What the serving lanes send is one lane's Press data. -/
theorem servedSnapshot_data {s : State} {l : Lane} {x : Snapshot} (h : servedSnapshot s l = some x) :
    ∃ m, x.data = (lane s m).press.data := by
  unfold servedSnapshot at h
  split at h <;> first | (cases h; done) | (injection h with h; subst h; exact ⟨_, rfl⟩)

theorem keeps_catchUpDone {rs cl : Bool} {z : State} (s : State) (l : Lane) (n : Nat) (inTime : Bool) (now : Snapshot)
    (hn : ∃ m, now.data = (lane s m).press.data) (hk : Keeps rs cl z s) : Keeps rs cl z (catchUpDone s l n inTime now) := by
  obtain ⟨m, hm⟩ := hn
  unfold catchUpDone
  split
  · refine keeps_setJoin _ _ _ (keeps_modLane_from _ _ (fun h => ?_) hk)
    obtain ⟨a, b, _⟩ := (pressOk_iff _).1 (h m)
    rw [← hm] at a b
    exact (pressOk_iff _).2 ⟨a, b, ((pressOk_iff _).1 (h l)).2.2⟩
  · split
    · exact keeps_isolate _ _ _ hk
    · exact keeps_setJoin _ _ _ (keeps_modLane _ _ (fun _ h => h) hk)

theorem keeps_execCatchUp {rs cl : Bool} {z : State} (l : Lane) (inTime : Bool) (checks : List (BitVec 64)) (s : State) (q0 : State)
    (hk : Keeps rs cl z s) : Keeps rs cl z (thenState q0 (execCatchUp l inTime checks s)) := by
  unfold execCatchUp
  dsimp only [thenState]
  repeat' split
  · exact hk
  · exact keeps_catchUpDone _ _ _ _ _ (servedSnapshot_data (by assumption)) hk
  · exact keeps_isolate _ _ _ hk
  · exact keeps_isolate _ _ _ hk
  · exact hk

theorem keeps_floorRaise {rs cl : Bool} {z : State} (s : State) (l : Lane) (hk : Keeps rs cl z s) :
    Keeps rs cl z (floorRaise s l) := by
  unfold floorRaise
  dsimp only
  split
  · next e =>
    apply keeps_addHistory
    have k : TotalsUp s.cellar.life { s.cellar.life with versionFloor := (lane s l).boot.floor } := by
      constructor <;> intros <;> first | exact up_refl _ | exact laneTotalsUp_refl _ | exact Nat.le_of_lt e.1
    exact keeps_modPages_at [6] _ k (fun _ => rfl) hk
  · exact hk

theorem keeps_endUpdate {rs cl : Bool} {z : State} (s : State) (l : Lane) (reason : Nat) (hk : Keeps rs cl z s) :
    Keeps rs cl z (endUpdate s l reason) := by
  unfold endUpdate
  try dsimp only
  repeat' first
    | with_reducible exact hk
    | with_reducible apply keeps_addHistory
    | with_reducible apply keeps_eventLane
    | with_reducible apply keeps_finishAll
    | with_reducible apply keeps_modLane
    | (intro L hL; with_reducible exact hL)
    | split

theorem keeps_execLaneJoin {rs cl : Bool} {z : State} (l : Lane) (s : State) (q0 : State) (hk : Keeps rs cl z s) :
    Keeps rs cl z (thenState q0 (execLaneJoin l s)) := by
  unfold execLaneJoin
  dsimp only [thenState]
  repeat' first
    | with_reducible exact hk
    | with_reducible apply keeps_eventAll
    | with_reducible apply keeps_setModule
    | with_reducible apply keeps_latchRule
    | with_reducible apply keeps_floorRaise
    | with_reducible apply keeps_endUpdate
    | with_reducible apply keeps_modLane
    | with_reducible apply keeps_modSluices
    | (rw [mk_withRest]; with_reducible apply keeps_withRest)
    | (intro L hL; with_reducible exact hL)
    | (intro l x; with_reducible exact ⟨id, id⟩)
    | (intro L hL; ((repeat' split) <;> first | with_reducible exact hL | exact hL | exact pressOk_stopPress hL))
    | (intro l x; unfold latchOpens; dsimp only; constructor <;> (repeat' split) <;> (simp_all; try tauto); done)
    | split

theorem keeps_clearRetirement {rs : Bool} {z : State} (s : State) (l : Lane) (hk : Keeps rs true z s) :
    Keeps rs true z (clearRetirement s l) := by
  unfold clearRetirement
  refine keeps_recordAll _ _ _ (keeps_modPage3 _ (fun x => ?_) (fun e => nomatch e) hk)
  constructor <;> intros <;> first | exact up_refl _ | exact laneTotalsUp_set _ _ _ _ ⟨up_refl _, up_refl _, up_refl _⟩

theorem keeps_execRetirementClear {rs : Bool} {z : State} (l : Lane) (auth : Auth) (s : State) (q0 : State) (hk : Keeps rs true z s) :
    Keeps rs true z (thenState q0 (execRetirementClear l auth s)) := by
  unfold execRetirementClear
  dsimp only [thenState]
  repeat' first
    | with_reducible exact hk
    | with_reducible apply keeps_harnal
    | with_reducible apply keeps_clearRetirement
    | with_reducible apply keeps_enterTest
    | with_reducible apply keeps_modLane
    | (intro L hL; with_reducible exact hL)
    | (with_reducible intro t hk)
    | split

theorem keeps_parkCompare {rs cl : Bool} {z : State} (s : State) (hk : Keeps rs cl z s) :
    Keeps rs cl z (parkCompare s) := by
  unfold parkCompare
  try dsimp only
  repeat' first
    | with_reducible exact hk
    | with_reducible apply keeps_modLanes
    | (intro l L hL; with_reducible exact hL)

theorem keeps_linksReset {rs cl : Bool} {z : State} (s : State) (l : Lane) (hk : Keeps rs cl z s) :
    Keeps rs cl z (linksReset s l) := by
  unfold linksReset
  try dsimp only
  repeat' first
    | with_reducible exact hk
    | with_reducible apply keeps_modSluices
    | (intro l x; with_reducible exact ⟨id, id⟩)

theorem keeps_resetOne {rs cl : Bool} {z : State} (s : State) (l : Lane) (cause : Nat) (hk : Keeps rs cl z s) :
    Keeps rs cl z (resetOne s l cause) := by
  unfold resetOne
  try dsimp only
  repeat' first
    | with_reducible exact hk
    | with_reducible apply keeps_endUpdate
    | with_reducible apply keeps_linksReset
    | with_reducible apply keeps_modLane
    | with_reducible apply keeps_modPort
    | (intro L hL; exact pressOk_laneReset _ _)
    | split

theorem keeps_applyClears {rs : Bool} {z : State} (s : State) (hk : Keeps rs true z s) :
    Keeps rs true z (applyClears s) := by
  unfold applyClears
  try dsimp only
  repeat' first
    | with_reducible exact hk
    | with_reducible apply keeps_clearRetirement
    | with_reducible apply keeps_foldS
    | (with_reducible intro t x hk)
    | split

theorem keeps_moduleReset {z : State} (s : State) (m : ModSt) (cause : Nat) (hk : Keeps true true z s) :
    Keeps true true z (moduleReset s m cause) := by
  unfold moduleReset
  extract_lets s0 s1 again s2
  have h0 : Keeps true true z s0 := keeps_applyClears s hk
  have h1 : Keeps true true z s1 :=
    ⟨h0.pending, (fun e => nomatch e), fun x => ⟨(h0.pages x).1, TotalsUp.refl _⟩, fun _ _ => rfl, h0.press, h0.latches,
      (fun e => nomatch e), (fun e => nomatch e)⟩
  have h2 : Keeps true true z s2 := by
    refine keeps_modLife _ (fun x => ⟨?_, fun _ => rfl⟩) h1
    constructor <;> intros <;> dsimp only <;> (try split) <;>
      first | exact up_refl _ | exact up_satInc _ | exact ⟨up_refl _, up_refl _, up_refl _⟩
  refine ⟨h2.pending, (fun e => nomatch e), h2.pages, h2.saved, fun _ l => ?_, fun l _ => ?_, (fun e => nomatch e), (fun e => nomatch e)⟩
  · cases l <;> exact pressOk_laneCold _ _
  · cases l <;> rfl

theorem keeps_restartNow {z : State} (s : State) (cause : Nat) (hk : Keeps true true z s) :
    Keeps true true z (restartNow s cause) := by
  unfold restartNow
  try dsimp only
  repeat' first
    | with_reducible exact hk
    | with_reducible apply keeps_parkCompare
    | with_reducible apply keeps_moduleReset

theorem keeps_beginBoot {rs cl : Bool} {z : State} (s : State) (hk : Keeps rs cl z s) :
    Keeps rs cl z (beginBoot s) := by
  unfold beginBoot
  try dsimp only
  repeat' first
    | with_reducible exact hk
    | with_reducible apply keeps_modLanes
    | with_reducible apply keeps_modSluices
    | (rw [mk_withRest]; with_reducible apply keeps_withRest)
    | (intro l L hL; ((repeat' split) <;> first | with_reducible exact hL))
    | (intro l L hL; with_reducible exact hL)
    | (intro l L hL; ((repeat' split) <;> first | with_reducible exact hL | exact hL | exact pressOk_stopPress hL))
    | (intro l x; with_reducible exact ⟨id, id⟩)
    | (intro l x; unfold latchOpens; dsimp only; constructor <;> (repeat' split) <;> (simp_all; try tauto); done)
    | split

theorem keeps_railsGood {rs cl : Bool} {z : State} (s : State) (hk : Keeps rs cl z s) :
    Keeps rs cl z (railsGood s) := by
  unfold railsGood
  try dsimp only
  repeat' first
    | with_reducible exact hk
    | with_reducible apply keeps_modLanes
    | (intro l L hL; with_reducible exact hL)

theorem keeps_execResetRelease {rs cl : Bool} {z : State} (orderKept : Bool) (s : State) (q0 : State) (hk : Keeps rs cl z s) :
    Keeps rs cl z (thenState q0 (execResetRelease orderKept s)) := by
  unfold execResetRelease
  dsimp only [thenState]
  repeat' first
    | with_reducible exact hk
    | with_reducible apply keeps_beginBoot
    | with_reducible apply keeps_parkCompare
    | with_reducible apply keeps_railsGood
    | with_reducible apply keeps_modLife
    | (rw [mk_withRest]; with_reducible apply keeps_withRest)
    | (intro x; refine ⟨?_, fun m => rfl⟩; constructor <;> intros <;> first | exact up_refl _ | exact ⟨up_refl _, up_refl _, up_refl _⟩ | exact up_satInc _ | exact up_satAdd _ _ | exact up_smod_satInc _ _ _ | exact up_port _ _ _ | exact up_lanes _ _)
    | split

theorem keeps_execVdd3v3Reset {z : State} (s : State) (q0 : State) (hk : Keeps true true z s) :
    Keeps true true z (thenState q0 (execVdd3v3Reset s)) := by
  unfold execVdd3v3Reset
  dsimp only [thenState]
  repeat' first
    | with_reducible exact hk
    | with_reducible apply keeps_moduleReset
    | split

theorem keeps_execIoAnaReset {z : State} (s : State) (q0 : State) (hk : Keeps true true z s) :
    Keeps true true z (thenState q0 (execIoAnaReset s)) := by
  unfold execIoAnaReset
  dsimp only [thenState]
  repeat' first
    | with_reducible exact hk
    | with_reducible apply keeps_moduleReset
    | split

theorem keeps_execResetNLow {z : State} (s : State) (q0 : State) (hk : Keeps true true z s) :
    Keeps true true z (thenState q0 (execResetNLow s)) := by
  unfold execResetNLow
  dsimp only [thenState]
  repeat' first
    | with_reducible exact hk
    | with_reducible apply keeps_restartNow
    | split

theorem keeps_laneV3Warn {rs cl : Bool} {z : State} (mv : BitVec 16) (s : State) (l : Lane) (hk : Keeps rs cl z s) :
    Keeps rs cl z (laneV3Warn mv s l) := by
  unfold laneV3Warn
  try dsimp only
  repeat' first
    | with_reducible exact hk
    | with_reducible apply keeps_endBist
    | with_reducible apply keeps_eventLane
    | with_reducible apply keeps_flushLane
    | with_reducible apply keeps_modLane
    | (intro L hL; with_reducible exact hL)
    | split

theorem keeps_execRail3v3Warn {rs cl : Bool} {z : State} (mv : BitVec 16) (s : State) (q0 : State) (hk : Keeps rs cl z s) :
    Keeps rs cl z (thenState q0 (execRail3v3Warn mv s)) := by
  unfold execRail3v3Warn
  dsimp only [thenState]
  repeat' first
    | with_reducible exact hk
    | with_reducible apply keeps_laneV3Warn
    | with_reducible apply keeps_foldS
    | (rw [mk_withRest]; with_reducible apply keeps_withRest)
    | split

theorem keeps_execV3WarnRelease {rs cl : Bool} {z : State} (s : State) (q0 : State) (hk : Keeps rs cl z s) :
    Keeps rs cl z (thenState q0 (execV3WarnRelease s)) := by
  unfold execV3WarnRelease
  dsimp only [thenState]
  repeat' first
    | with_reducible exact hk
    | with_reducible apply keeps_eicLevelAll
    | with_reducible apply keeps_modLanes
    | (rw [mk_withRest]; with_reducible apply keeps_withRest)
    | (intro l L hL; with_reducible exact hL)
    | split

theorem keeps_execCoreRailWarn {rs cl : Bool} {z : State} (l : Lane) (mv : BitVec 16) (s : State) (q0 : State) (hk : Keeps rs cl z s) :
    Keeps rs cl z (thenState q0 (execCoreRailWarn l mv s)) := by
  unfold execCoreRailWarn
  dsimp only [thenState]
  repeat' first
    | with_reducible exact hk
    | with_reducible apply keeps_eventLane
    | with_reducible apply keeps_modLane
    | (intro L hL; with_reducible exact hL)
    | split

theorem keeps_releaseLane {rs cl : Bool} {z : State} (s : State) (l : Lane) (hk : Keeps rs cl z s) :
    Keeps rs cl z (releaseLane s l) := by
  unfold releaseLane
  try dsimp only
  repeat' first
    | with_reducible exact hk
    | with_reducible apply keeps_modLane
    | with_reducible apply keeps_modSluices
    | (intro L hL; with_reducible exact hL)
    | (intro l x; with_reducible exact ⟨id, id⟩)
    | split

theorem keeps_execCoreWarnRelease {rs cl : Bool} {z : State} (l : Lane) (s : State) (q0 : State) (hk : Keeps rs cl z s) :
    Keeps rs cl z (thenState q0 (execCoreWarnRelease l s)) := by
  unfold execCoreWarnRelease
  dsimp only [thenState]
  repeat' first
    | with_reducible exact hk
    | with_reducible apply keeps_eicLevel
    | with_reducible apply keeps_releaseLane
    | with_reducible apply keeps_modLane
    | (intro L hL; with_reducible exact hL)
    | split

theorem keeps_checkRecovery {rs cl : Bool} {z : State} (s : State) (hk : Keeps rs cl z s) :
    Keeps rs cl z (checkRecovery s) := by
  unfold checkRecovery
  try dsimp only
  repeat' first
    | with_reducible exact hk
    | with_reducible apply keeps_setModule
    | split

theorem keeps_execCoreRailReset {rs cl : Bool} {z : State} (l : Lane) (s : State) (q0 : State) (hk : Keeps rs cl z s) :
    Keeps rs cl z (thenState q0 (execCoreRailReset l s)) := by
  unfold execCoreRailReset
  dsimp only [thenState]
  repeat' first
    | with_reducible exact hk
    | with_reducible apply keeps_isolate
    | with_reducible apply keeps_checkRecovery
    | with_reducible apply keeps_resetOne
    | with_reducible apply keeps_modLane
    | (intro L hL; with_reducible exact hL)
    | split

theorem keeps_execClockLoss {rs cl : Bool} {z : State} (l : Lane) (s : State) (q0 : State) (hk : Keeps rs cl z s) :
    Keeps rs cl z (thenState q0 (execClockLoss l s)) := by
  unfold execClockLoss
  dsimp only [thenState]
  repeat' first
    | with_reducible exact hk
    | with_reducible apply keeps_isolate
    | with_reducible apply keeps_checkRecovery
    | with_reducible apply keeps_resetOne
    | with_reducible apply keeps_modLane
    | (intro L hL; with_reducible exact hL)
    | split

theorem keeps_execClockRestored {rs cl : Bool} {z : State} (l : Lane) (s : State) (q0 : State) (hk : Keeps rs cl z s) :
    Keeps rs cl z (thenState q0 (execClockRestored l s)) := by
  unfold execClockRestored
  dsimp only [thenState]
  repeat' first
    | with_reducible exact hk
    | with_reducible apply keeps_releaseLane
    | with_reducible apply keeps_modLane
    | (intro L hL; with_reducible exact hL)
    | split

theorem keeps_execFwWatchdog {rs cl : Bool} {z : State} (l : Lane) (s : State) (q0 : State) (hk : Keeps rs cl z s) :
    Keeps rs cl z (thenState q0 (execFwWatchdog l s)) := by
  unfold execFwWatchdog
  dsimp only [thenState]
  repeat' first
    | with_reducible exact hk
    | with_reducible apply keeps_isolate
    | with_reducible apply keeps_resetOne
    | with_reducible apply keeps_releaseLane
    | with_reducible apply keeps_modLane
    | (intro L hL; with_reducible exact hL)
    | split

theorem keeps_romEntry {rs cl : Bool} {z : State} (s : State) (hk : Keeps rs cl z s) :
    Keeps rs cl z (romEntry s) := by
  unfold romEntry
  try dsimp only
  repeat' first
    | with_reducible exact hk
    | with_reducible apply keeps_recordLane
    | (rw [mk_withRest]; with_reducible apply keeps_withRest)
    | split

theorem keeps_execBootFailed {rs cl : Bool} {z : State} (l : Lane) (s : State) (q0 : State) (hk : Keeps rs cl z s) :
    Keeps rs cl z (thenState q0 (execBootFailed l s)) := by
  unfold execBootFailed
  dsimp only [thenState]
  repeat' first
    | with_reducible exact hk
    | with_reducible apply keeps_checkRecovery
    | with_reducible apply keeps_romEntry
    | with_reducible apply keeps_modLane
    | (intro L hL; with_reducible exact hL)
    | split

theorem keeps_startTime {rs cl : Bool} {z : State} (s : State) (hk : Keeps rs cl z s) :
    Keeps rs cl z (startTime s) := by
  unfold startTime
  try dsimp only
  repeat' first
    | with_reducible exact hk
    | (rw [mk_withRest]; with_reducible apply keeps_withRest)
    | split

theorem keeps_started {rs cl : Bool} {z : State} (s : State) (x : FirmwareBoot) (hk : Keeps rs cl z s) :
    Keeps rs cl z (started s x) := by
  unfold started
  try dsimp only
  repeat' first
    | with_reducible exact hk
    | with_reducible apply keeps_recordLane
    | with_reducible apply keeps_bootRead
    | with_reducible apply keeps_settleLevels
    | with_reducible apply keeps_modLane
    | with_reducible apply keeps_modSluices
    | (rw [mk_withRest]; with_reducible apply keeps_withRest)
    | (intro L hL; with_reducible exact hL)
    | (intro L hL; ((repeat' split) <;> first | with_reducible exact hL | exact hL | exact pressOk_stopPress hL))
    | (intro l x; with_reducible exact ⟨id, id⟩)
    | (intro l x; unfold latchOpens; dsimp only; constructor <;> (repeat' split) <;> (simp_all; try tauto); done)
    | split

theorem keeps_execFirmwareStart {rs cl : Bool} {z : State} (x : FirmwareBoot) (s : State) (q0 : State) (hk : Keeps rs cl z s) :
    Keeps rs cl z (thenState q0 (execFirmwareStart x s)) := by
  unfold execFirmwareStart
  dsimp only [thenState]
  repeat' first
    | with_reducible exact hk
    | with_reducible apply keeps_endUpdate
    | with_reducible apply keeps_startTime
    | with_reducible apply keeps_started
    | split

theorem keeps_agreeBanks {rs cl : Bool} {z : State} (s : State) (l : Lane) (hk : Keeps rs cl z s) :
    Keeps rs cl z (agreeBanks s l) := by
  unfold agreeBanks
  try dsimp only
  repeat' first
    | with_reducible exact hk
    | with_reducible apply keeps_modLane
    | (rw [mk_withRest]; with_reducible apply keeps_withRest)
    | (intro L hL; with_reducible exact hL)
    | (intro L hL; ((repeat' split) <;> first | with_reducible exact hL | exact hL | exact pressOk_stopPress hL))
    | split

theorem keeps_configure {rs cl : Bool} {z : State} (s : State) (v : Vintage) (hk : Keeps rs cl z s) :
    Keeps rs cl z (configure s v) := by
  unfold configure
  try dsimp only
  repeat' first
    | with_reducible exact hk
    | with_reducible apply keeps_modLanes
    | (rw [mk_withRest]; with_reducible apply keeps_withRest)
    | (intro l L hL; with_reducible exact hL)

theorem keeps_startBus {rs cl : Bool} {z : State} (s : State) (hk : Keeps rs cl z s) :
    Keeps rs cl z (startBus s) := by
  unfold startBus
  try dsimp only
  repeat' first
    | with_reducible exact hk
    | with_reducible apply keeps_configure
    | (rw [mk_withRest]; with_reducible apply keeps_withRest)
    | split

theorem keeps_takeInto {rs cl : Bool} {z : State} (s : State) (l : Lane) (hk : Keeps rs cl z s) :
    Keeps rs cl z (takeInto s l) := by
  unfold takeInto
  try dsimp only
  repeat' first
    | with_reducible exact hk
    | with_reducible apply keeps_modPages
    | (rw [mk_withRest]; with_reducible apply keeps_withRest)
    | (intro x; refine ⟨?_, fun m => rfl⟩; constructor <;> intros <;> dsimp only <;> (try split) <;> first | exact up_refl _ | exact ⟨up_refl _, up_refl _, up_refl _⟩ | exact up_satInc _ | exact up_satAdd _ _ | exact up_smod_satInc _ _ _ | exact up_port _ _ _ | exact up_lanes _ _ | exact up_lanesIf _ _ _ | exact up_lanesSet _ _ _)
    | split

theorem keeps_testsPassed {rs cl : Bool} {z : State} (s : State) (l : Lane) (badA badB : Bool) (hk : Keeps rs cl z s) :
    Keeps rs cl z (testsPassed s l badA badB) := by
  unfold testsPassed
  try dsimp only
  repeat' first
    | with_reducible exact hk
    | with_reducible apply keeps_eicRaiseAll
    | with_reducible apply keeps_takeBanks
    | with_reducible apply keeps_buildBanks
    | with_reducible apply keeps_agreeBanks
    | with_reducible apply keeps_startBus
    | with_reducible apply keeps_takeInto
    | with_reducible apply keeps_modLane
    | with_reducible apply keeps_foldS
    | (rw [mk_withRest]; with_reducible apply keeps_withRest)
    | (intro L hL; with_reducible exact hL)
    | (intro L hL; ((repeat' split) <;> first | with_reducible exact hL | exact hL | exact pressOk_stopPress hL))
    | split
    | (with_reducible intro t x hk)
    | (with_reducible intro t hk)

theorem keeps_testsFailed {rs cl : Bool} {z : State} (s : State) (l : Lane) (r : BistResult) (hk : Keeps rs cl z s) :
    Keeps rs cl z (testsFailed s l r) := by
  unfold testsFailed
  try dsimp only
  repeat' first
    | with_reducible exact hk
    | with_reducible apply keeps_isolate
    | with_reducible apply keeps_bistFailed
    | with_reducible apply keeps_modLane
    | (rw [mk_withRest]; with_reducible apply keeps_withRest)
    | (intro L hL; with_reducible exact hL)
    | (intro L hL; ((repeat' split) <;> first | with_reducible exact hL | exact hL | exact pressOk_stopPress hL))
    | split

theorem keeps_execLaneTestDone {rs cl : Bool} {z : State} (x : StartTests) (r : BistResult) (repairs : List SoftRepair) (s : State) (q0 : State) (hk : Keeps rs cl z s) :
    Keeps rs cl z (thenState q0 (execLaneTestDone x r repairs s)) := by
  unfold execLaneTestDone
  dsimp only [thenState]
  repeat' first
    | with_reducible exact hk
    | with_reducible apply keeps_softRepair
    | with_reducible apply keeps_bistPassed
    | with_reducible apply keeps_beginTests
    | with_reducible apply keeps_testsPassed
    | with_reducible apply keeps_testsFailed
    | with_reducible apply keeps_modLane
    | with_reducible apply keeps_foldS
    | (rw [mk_withRest]; with_reducible apply keeps_withRest)
    | (intro L hL; with_reducible exact hL)
    | (intro L hL; ((repeat' split) <;> first | with_reducible exact hL | exact hL | exact pressOk_stopPress hL))
    | split
    | (with_reducible intro t x hk)
    | (with_reducible intro t hk)

theorem keeps_execBootLimit {rs cl : Bool} {z : State} (s : State) (q0 : State) (hk : Keeps rs cl z s) :
    Keeps rs cl z (thenState q0 (execBootLimit s)) := by
  unfold execBootLimit
  dsimp only [thenState]
  repeat' first
    | with_reducible exact hk
    | with_reducible apply keeps_latchAll
    | split

theorem keeps_installKey {rs cl : Bool} {z : State} (s : State) (key : BitVec 256) (hk : Keeps rs cl z s) :
    Keeps rs cl z (installKey s key) := by
  unfold installKey
  try dsimp only
  repeat' first
    | with_reducible exact hk
    | with_reducible apply keeps_modPages
    | with_reducible apply keeps_modLife
    | (rw [mk_withRest]; with_reducible apply keeps_withRest)
    | (intro x; refine ⟨?_, fun m => rfl⟩; constructor <;> intros <;> dsimp only <;> (try split) <;> first | exact up_refl _ | exact ⟨up_refl _, up_refl _, up_refl _⟩ | exact up_satInc _ | exact up_satAdd _ _ | exact up_smod_satInc _ _ _ | exact up_port _ _ _ | exact up_lanes _ _ | exact up_lanesIf _ _ _ | exact up_lanesSet _ _ _)
    | split

theorem keeps_execKeyInstall {rs cl : Bool} {z : State} (key : BitVec 256) (serial : BitVec 64) (auth : Auth) (s : State) (q0 : State) (hk : Keeps rs cl z s) :
    Keeps rs cl z (thenState q0 (execKeyInstall key serial auth s)) := by
  unfold execKeyInstall
  dsimp only [thenState]
  repeat' first
    | with_reducible exact hk
    | with_reducible apply keeps_recordMaint
    | with_reducible apply keeps_harnal
    | with_reducible apply keeps_installKey
    | split
    | (with_reducible intro t x hk)
    | (with_reducible intro t hk)

theorem keeps_requestedRestart {z : State} (s : State) (into : Word) (hk : Keeps true true z s) :
    Keeps true true z (requestedRestart s into) := by
  unfold requestedRestart
  try dsimp only
  repeat' first
    | with_reducible exact hk
    | with_reducible apply keeps_flushLane
    | with_reducible apply keeps_restartNow
    | with_reducible apply keeps_modPages
    | with_reducible apply keeps_modLife
    | with_reducible apply keeps_foldS
    | (rw [mk_withRest]; with_reducible apply keeps_withRest)
    | (intro x; refine ⟨?_, fun m => rfl⟩; constructor <;> intros <;> dsimp only <;> (try split) <;> first | exact up_refl _ | exact ⟨up_refl _, up_refl _, up_refl _⟩ | exact up_satInc _ | exact up_satAdd _ _ | exact up_smod_satInc _ _ _ | exact up_port _ _ _ | exact up_lanes _ _ | exact up_lanesIf _ _ _ | exact up_lanesSet _ _ _)
    | split
    | (with_reducible intro t x hk)
    | (with_reducible intro t hk)

theorem keeps_execRestart {z : State} (auth : Auth) (into : Word) (s : State) (q0 : State) (hk : Keeps true true z s) :
    Keeps true true z (thenState q0 (execRestart auth into s)) := by
  unfold execRestart
  dsimp only [thenState]
  split
  · exact hk
  · refine keeps_harnal _ _ _ _ _ (fun t ht => ?_) hk
    split
    · exact ht
    · exact keeps_requestedRestart _ _ ht

theorem keeps_keepMarks {rs cl : Bool} {z : State} (s : State) (l : Lane) (hk : Keeps rs cl z s) :
    Keeps rs cl z (keepMarks s l) := by
  unfold keepMarks
  try dsimp only
  repeat' first
    | with_reducible exact hk
    | with_reducible apply keeps_modLane
    | (rw [mk_withRest]; with_reducible apply keeps_withRest)
    | (intro L hL; with_reducible exact hL)
    | (intro L hL; ((repeat' split) <;> first | with_reducible exact hL | exact hL | exact pressOk_stopPress hL))
    | split

theorem keeps_joinTick {rs cl : Bool} {z : State} (s : State) (l : Lane) (hk : Keeps rs cl z s) :
    Keeps rs cl z (joinTick s l) := by
  unfold joinTick
  try dsimp only
  repeat' first
    | with_reducible exact hk
    | with_reducible apply keeps_isolate
    | with_reducible apply keeps_setJoin
    | with_reducible apply keeps_keepMarks
    | split

theorem keeps_writeTaken {rs cl : Bool} {z : State} (s : State) (l : Lane) (hk : Keeps rs cl z s) :
    Keeps rs cl z (writeTaken s l) := by
  unfold writeTaken
  try dsimp only
  repeat' first
    | with_reducible exact hk
    | with_reducible apply keeps_modLane
    | (rw [mk_withRest]; with_reducible apply keeps_withRest)
    | (intro L hL; with_reducible exact hL)
    | (intro L hL; ((repeat' split) <;> first | with_reducible exact hL | exact hL | exact pressOk_stopPress hL))
    | split

theorem keeps_dropRequests {rs cl : Bool} {z : State} (s : State) (hk : Keeps rs cl z s) :
    Keeps rs cl z (dropRequests s) := by
  unfold dropRequests
  try dsimp only
  repeat' first
    | with_reducible exact hk
    | with_reducible apply keeps_modLanes
    | (rw [mk_withRest]; with_reducible apply keeps_withRest)
    | (intro l L hL; with_reducible exact hL)
    | (intro l L hL; ((repeat' split) <;> first | with_reducible exact hL | exact hL | exact pressOk_stopPress hL))
    | split

end Sys2Proof.Laws
end

