-- ==== Sys2Proof/Laws/KeepsAlusk.lean ====
section
/-!
SUPPORT. What every operation of the station network keeps (Safety.Keeps), one lemma for each operation and for each command.
-/

namespace Sys2Proof.Laws

open Sys2Proof.Machine Sys2Proof.Safety

theorem keeps_modMedium {rs cl : Bool} {z : State} (s : State) (g : Fin 4) (m : Medium) (f : MediumRec → MediumRec) (hk : Keeps rs cl z s) :
    Keeps rs cl z (modMedium s g m f) := by
  unfold modMedium
  try dsimp only
  repeat' first
    | with_reducible exact hk
    | (rw [mk_withRest]; with_reducible apply keeps_withRest)

theorem keeps_sendOn {rs cl : Bool} {z : State} (s : State) (g : Fin 4) (m : Medium) (sides : List Side) (up : Bool) (at1 : Side → Time) (f : Side → Frame) (hk : Keeps rs cl z s) :
    Keeps rs cl z (sendOn s g m sides up at1 f) := by
  unfold sendOn
  try dsimp only
  repeat' first
    | with_reducible exact hk
    | (rw [mk_withRest]; with_reducible apply keeps_withRest)
    | split

theorem keeps_sendPlain {rs cl : Bool} {z : State} (s : State) (g : Fin 4) (m : Medium) (start : Nat) (error : Int) (f : Frame) (hk : Keeps rs cl z s) :
    Keeps rs cl z (sendPlain s g m start error f) := by
  unfold sendPlain
  try dsimp only
  repeat' first
    | with_reducible exact hk
    | with_reducible apply keeps_sendOn
    | split

theorem keeps_sendAll {rs cl : Bool} {z : State} (s : State) (now : Time) (f : State → Nat → Frame) (hk : Keeps rs cl z s) :
    Keeps rs cl z (sendAll s now f) := by
  unfold sendAll
  try dsimp only
  repeat' first
    | with_reducible exact hk
    | with_reducible apply keeps_sendOn
    | with_reducible apply keeps_foldS
    | split
    | (with_reducible intro t x hk)
    | (with_reducible intro t hk)

theorem keeps_sendCoded {rs cl : Bool} {z : State} (s : State) (g : Fin 4) (m : Medium) (sides : List Side) (up : Bool) (start : Nat) (error : Int) (f : Lane → Image → Frame) (code : Lane → Word) (hk : Keeps rs cl z s) :
    Keeps rs cl z (sendCoded s g m sides up start error f code) := by
  unfold sendCoded
  try dsimp only
  repeat' first
    | with_reducible exact hk
    | with_reducible apply keeps_modMedium
    | (rw [mk_withRest]; with_reducible apply keeps_withRest)
    | split

theorem keeps_sendSync {rs cl : Bool} {z : State} (s : State) (m : Medium) (error : Int) (hk : Keeps rs cl z s) :
    Keeps rs cl z (sendSync s m error) := by
  unfold sendSync
  try dsimp only
  repeat' first
    | with_reducible exact hk
    | with_reducible apply keeps_sendPlain
    | with_reducible apply keeps_foldS
    | split
    | (with_reducible intro t x hk)
    | (with_reducible intro t hk)

theorem keeps_sendTwin {rs cl : Bool} {z : State} (s : State) (m : Medium) (error : Int) (x : Image) (t : TwinCtl) (hk : Keeps rs cl z s) :
    Keeps rs cl z (sendTwin s m error x t) := by
  unfold sendTwin
  try dsimp only
  repeat' first
    | with_reducible exact hk
    | with_reducible apply keeps_sendCoded
    | with_reducible apply keeps_foldS
    | split
    | (with_reducible intro t x hk)
    | (with_reducible intro t hk)

theorem keeps_sendDelays {rs cl : Bool} {z s t : State} {on : List (Fin 4)} {f : State → Fin 4 → State}
    (hf : ∀ t g, Keeps rs cl z t → Keeps rs cl z (f t g)) (hk : Keeps rs cl z s) (h : sendDelays s on f = some t) : Keeps rs cl z t := by
  unfold sendDelays at h
  split at h
  · injection h with h; subst h; exact keeps_foldS _ _ hf hk
  · cases h

theorem keeps_modDelay {rs cl : Bool} {z : State} (s : State) (g : Fin 4) (m : Medium) (sd : Side) (f : DelayRec → DelayRec) (hk : Keeps rs cl z s) :
    Keeps rs cl z (modDelay s g m sd f) := by
  unfold modDelay
  try dsimp only
  repeat' first
    | with_reducible exact hk
    | with_reducible apply keeps_modMedium

theorem keeps_sendDelayReq {rs cl : Bool} {z : State} (s : State) (g : Fin 4) (m : Medium) (error : Int) (hk : Keeps rs cl z s) :
    Keeps rs cl z (sendDelayReq s g m error) := by
  unfold sendDelayReq
  try dsimp only
  repeat' first
    | with_reducible exact hk
    | with_reducible apply keeps_modDelay
    | with_reducible apply keeps_sendOn
    | (rw [mk_withRest]; with_reducible apply keeps_withRest)
    | split

theorem keeps_sendDelayResp {rs cl : Bool} {z : State} (s : State) (g : Fin 4) (m : Medium) (error : Int) (hk : Keeps rs cl z s) :
    Keeps rs cl z (sendDelayResp s g m error) := by
  unfold sendDelayResp
  try dsimp only
  repeat' first
    | with_reducible exact hk
    | with_reducible apply keeps_modDelay
    | with_reducible apply keeps_sendOn
    | (rw [mk_withRest]; with_reducible apply keeps_withRest)
    | split

theorem keeps_slotFrame {rs cl : Bool} {z s : State} {slot : TxSlot} {m : Medium} {start : Nat} {error : Int} {t : State} (hk : Keeps rs cl z s)
    (h : slotFrame s slot m start error = some t) : Keeps rs cl z t := by
  unfold slotFrame at h
  repeat' split at h
  all_goals first
    | cases h; done
    | exact keeps_sendDelays (fun t g hk => keeps_sendDelayReq t g m error hk) hk h
    | exact keeps_sendDelays (fun t g hk => keeps_sendDelayResp t g m error hk) hk h
    | (injection h with h; subst h
       first
         | with_reducible exact keeps_sendSync _ _ _ hk
         | with_reducible exact keeps_sendCoded _ _ _ _ _ _ _ _ _ hk
         | with_reducible exact keeps_sendTwin _ _ _ _ _ hk)

theorem keeps_guardBlocks {rs cl : Bool} {z : State} (s : State) (hk : Keeps rs cl z s) :
    Keeps rs cl z (guardBlocks s) := by
  unfold guardBlocks
  try dsimp only
  repeat' first
    | with_reducible exact hk
    | (rw [mk_withRest]; with_reducible apply keeps_withRest)
    | split

theorem keeps_guardCuts {rs cl : Bool} {z : State} (before s : State) (len : Nat) (error : Int) (hk : Keeps rs cl z s) :
    Keeps rs cl z (guardCuts before s len error) := by
  unfold guardCuts
  try dsimp only
  repeat' first
    | with_reducible exact hk
    | (rw [mk_withRest]; with_reducible apply keeps_withRest)
    | split

theorem keeps_execComposeFrame {rs cl : Bool} {z : State} (slot : TxSlot) (m : Medium) (error : Int) (s : State) (q0 : State) (hk : Keeps rs cl z s) :
    Keeps rs cl z (thenState q0 (execComposeFrame slot m error s)) := by
  unfold execComposeFrame
  dsimp only [thenState]
  split
  · exact hk
  · split
    · exact hk
    · split
      · exact hk
      · next t e =>
        split
        · exact keeps_guardCuts _ _ _ _ (keeps_slotFrame hk e)
        · exact keeps_guardBlocks _ hk

theorem keeps_countFcs {rs cl : Bool} {z : State} (s : State) (g : Fin 4) (m : Medium) (hk : Keeps rs cl z s) :
    Keeps rs cl z (countFcs s g m) := by
  unfold countFcs
  try dsimp only
  repeat' first
    | with_reducible exact hk
    | with_reducible apply keeps_modLife
    | (intro x; refine ⟨?_, fun m => rfl⟩; constructor <;> intros <;> first | exact up_refl _ | exact ⟨up_refl _, up_refl _, up_refl _⟩ | exact up_satInc _ | exact up_satAdd _ _ | exact up_smod_satInc _ _ _ | exact up_port _ _ _ | exact up_lanes _ _)

theorem keeps_timingError {rs cl : Bool} {z : State} (s : State) (session : Option Nat) (dev : Int) (hk : Keeps rs cl z s) :
    Keeps rs cl z (timingError s session dev) := by
  unfold timingError
  try dsimp only
  repeat' first
    | with_reducible exact hk
    | with_reducible apply keeps_recordAll
    | with_reducible apply keeps_modLife
    | (rw [mk_withRest]; with_reducible apply keeps_withRest)
    | (intro x; refine ⟨?_, fun m => rfl⟩; constructor <;> intros <;> first | exact up_refl _ | exact ⟨up_refl _, up_refl _, up_refl _⟩ | exact up_satInc _ | exact up_satAdd _ _ | exact up_smod_satInc _ _ _ | exact up_port _ _ _ | exact up_lanes _ _)

theorem keeps_setFirst {rs cl : Bool} {z : State} (s : State) (n : BitVec 10) (hk : Keeps rs cl z s) :
    Keeps rs cl z (setFirst s n) := by
  unfold setFirst
  try dsimp only
  repeat' first
    | with_reducible exact hk
    | with_reducible apply keeps_eicRaiseAll
    | (rw [mk_withRest]; with_reducible apply keeps_withRest)
    | split

theorem keeps_enterSilent {rs cl : Bool} {z : State} (s : State) (hk : Keeps rs cl z s) :
    Keeps rs cl z (enterSilent s) := by
  unfold enterSilent
  try dsimp only
  repeat' first
    | with_reducible exact hk
    | (rw [mk_withRest]; with_reducible apply keeps_withRest)

theorem keeps_corruptSeen {rs cl : Bool} {z : State} (s : State) (g : Fin 4) (m : Medium) (hk : Keeps rs cl z s) :
    Keeps rs cl z (corruptSeen s g m) := by
  unfold corruptSeen
  try dsimp only
  repeat' first
    | with_reducible exact hk
    | with_reducible apply keeps_countFcs
    | with_reducible apply keeps_enterSilent
    | split

theorem keeps_enterListen {rs cl : Bool} {z : State} (s : State) (hk : Keeps rs cl z s) :
    Keeps rs cl z (enterListen s) := by
  unfold enterListen
  try dsimp only
  repeat' first
    | with_reducible exact hk
    | (rw [mk_withRest]; with_reducible apply keeps_withRest)
    | split

theorem keeps_lanesSync {rs cl : Bool} {z : State} (s : State) (hk : Keeps rs cl z s) :
    Keeps rs cl z (lanesSync s) := by
  unfold lanesSync
  try dsimp only
  repeat' first
    | with_reducible exact hk
    | with_reducible apply keeps_enterSync
    | with_reducible apply keeps_foldS
    | split

theorem keeps_noteBackup {rs cl : Bool} {z : State} (s : State) (x : RxFrame) (hk : Keeps rs cl z s) :
    Keeps rs cl z (noteBackup s x) := by
  unfold noteBackup
  try dsimp only
  repeat' first
    | with_reducible exact hk
    | (rw [mk_withRest]; with_reducible apply keeps_withRest)
    | split

theorem keeps_joinSync {rs cl : Bool} {z : State} (s : State) (x : RxFrame) (hk : Keeps rs cl z s) :
    Keeps rs cl z (joinSync s x) := by
  unfold joinSync
  try dsimp only
  repeat' first
    | with_reducible exact hk
    | with_reducible apply keeps_lanesSync
    | with_reducible apply keeps_noteBackup
    | (rw [mk_withRest]; with_reducible apply keeps_withRest)
    | split

theorem keeps_takeSync {rs cl : Bool} {z : State} (s : State) (x : RxFrame) (e : Int) (hk : Keeps rs cl z s) :
    Keeps rs cl z (takeSync s x e) := by
  unfold takeSync
  try dsimp only
  repeat' first
    | with_reducible exact hk
    | with_reducible apply keeps_eicLevelAll
    | with_reducible apply keeps_setFirst
    | (rw [mk_withRest]; with_reducible apply keeps_withRest)
    | split

theorem keeps_markSegment {rs cl : Bool} {z : State} (s : State) (g : Fin 4) (hk : Keeps rs cl z s) :
    Keeps rs cl z (markSegment s g) := by
  unfold markSegment
  try dsimp only
  repeat' first
    | with_reducible exact hk
    | (rw [mk_withRest]; with_reducible apply keeps_withRest)
    | split

theorem keeps_acceptSync {rs cl : Bool} {z : State} (s : State) (x : RxFrame) (e : Int) (hk : Keeps rs cl z s) :
    Keeps rs cl z (acceptSync s x e) := by
  unfold acceptSync
  try dsimp only
  repeat' first
    | with_reducible exact hk
    | with_reducible apply keeps_takeSync
    | with_reducible apply keeps_markSegment
    | split

theorem keeps_judgeSync {rs cl : Bool} {z : State} (s : State) (x : RxFrame) (hk : Keeps rs cl z s) :
    Keeps rs cl z (judgeSync s x) := by
  unfold judgeSync
  try dsimp only
  repeat' first
    | with_reducible exact hk
    | with_reducible apply keeps_timingError
    | with_reducible apply keeps_noteBackup
    | with_reducible apply keeps_acceptSync
    | split

theorem keeps_portSees {rs cl : Bool} {z : State} (s : State) (x : RxFrame) (slot : Nat) (hk : Keeps rs cl z s) :
    Keeps rs cl z (portSees s x slot) := by
  unfold portSees
  try dsimp only
  repeat' first
    | with_reducible exact hk
    | (rw [mk_withRest]; with_reducible apply keeps_withRest)
    | split

theorem keeps_execSync {rs cl : Bool} {z : State} (rx : RxFrame) (s : State) (q0 : State) (hk : Keeps rs cl z s) :
    Keeps rs cl z (thenState q0 (execSync rx s)) := by
  unfold execSync
  dsimp only [thenState]
  repeat' first
    | with_reducible exact hk
    | with_reducible apply keeps_portSees
    | with_reducible apply keeps_corruptSeen
    | with_reducible apply keeps_joinSync
    | with_reducible apply keeps_acceptSync
    | with_reducible apply keeps_judgeSync
    | split

theorem keeps_execLeftSync {rs cl : Bool} {z : State} (s : State) (q0 : State) (hk : Keeps rs cl z s) :
    Keeps rs cl z (thenState q0 (execLeftSync s)) := by
  unfold execLeftSync
  dsimp only [thenState]
  repeat' first
    | with_reducible exact hk
    | with_reducible apply keeps_setFirst
    | with_reducible apply keeps_enterListen
    | with_reducible apply keeps_eventAll
    | (rw [mk_withRest]; with_reducible apply keeps_withRest)
    | split

theorem keeps_sendBackup {rs cl : Bool} {z : State} (s : State) (g : Fin 4) (m : Medium) (error : Int) (hk : Keeps rs cl z s) :
    Keeps rs cl z (sendBackup s g m error) := by
  unfold sendBackup
  try dsimp only
  repeat' first
    | with_reducible exact hk
    | with_reducible apply keeps_sendOn
    | with_reducible apply keeps_sendPlain
    | split

theorem keeps_execBackupSync {rs cl : Bool} {z : State} (x : BackupSend) (s : State) (q0 : State) (hk : Keeps rs cl z s) :
    Keeps rs cl z (thenState q0 (execBackupSync x s)) := by
  unfold execBackupSync
  dsimp only [thenState]
  repeat' first
    | with_reducible exact hk
    | with_reducible apply keeps_guardBlocks
    | with_reducible apply keeps_setFirst
    | with_reducible apply keeps_sendBackup
    | (rw [mk_withRest]; with_reducible apply keeps_withRest)
    | split

theorem keeps_execListenTimeout {rs cl : Bool} {z : State} (now : Time) (s : State) (q0 : State) (hk : Keeps rs cl z s) :
    Keeps rs cl z (thenState q0 (execListenTimeout now s)) := by
  unfold execListenTimeout
  dsimp only [thenState]
  repeat' first
    | with_reducible exact hk
    | with_reducible apply keeps_sendAll
    | (rw [mk_withRest]; with_reducible apply keeps_withRest)
    | split

theorem keeps_execColdStart {rs cl : Bool} {z : State} (rx : RxFrame) (s : State) (q0 : State) (hk : Keeps rs cl z s) :
    Keeps rs cl z (thenState q0 (execColdStart rx s)) := by
  unfold execColdStart
  dsimp only [thenState]
  repeat' first
    | with_reducible exact hk
    | with_reducible apply keeps_portSees
    | with_reducible apply keeps_enterSilent
    | with_reducible apply keeps_corruptSeen
    | (rw [mk_withRest]; with_reducible apply keeps_withRest)
    | split

theorem keeps_execSilentTimeout {rs cl : Bool} {z : State} (s : State) (q0 : State) (hk : Keeps rs cl z s) :
    Keeps rs cl z (thenState q0 (execSilentTimeout s)) := by
  unfold execSilentTimeout
  dsimp only [thenState]
  repeat' first
    | with_reducible exact hk
    | with_reducible apply keeps_enterListen
    | split

theorem keeps_firstSync {rs cl : Bool} {z : State} (s : State) (hk : Keeps rs cl z s) :
    Keeps rs cl z (firstSync s) := by
  unfold firstSync
  try dsimp only
  repeat' first
    | with_reducible exact hk
    | with_reducible apply keeps_sendSync
    | with_reducible apply keeps_sendBackup
    | with_reducible apply keeps_foldS
    | (rw [mk_withRest]; with_reducible apply keeps_withRest)
    | split
    | (with_reducible intro t x hk)
    | (with_reducible intro t hk)

theorem keeps_execColdStartT0 {rs cl : Bool} {z : State} (s : State) (q0 : State) (hk : Keeps rs cl z s) :
    Keeps rs cl z (thenState q0 (execColdStartT0 s)) := by
  unfold execColdStartT0
  dsimp only [thenState]
  repeat' first
    | with_reducible exact hk
    | with_reducible apply keeps_setFirst
    | with_reducible apply keeps_lanesSync
    | with_reducible apply keeps_firstSync
    | (rw [mk_withRest]; with_reducible apply keeps_withRest)
    | split

theorem keeps_execCorruptFrame {rs cl : Bool} {z : State} (seg : Fin 4) (medium : Medium) (s : State) (q0 : State) (hk : Keeps rs cl z s) :
    Keeps rs cl z (thenState q0 (execCorruptFrame seg medium s)) := by
  unfold execCorruptFrame
  dsimp only [thenState]
  repeat' first
    | with_reducible exact hk
    | with_reducible apply keeps_corruptSeen
    | split

theorem keeps_execDelayReq {rs cl : Bool} {z : State} (rx : RxFrame) (s : State) (q0 : State) (hk : Keeps rs cl z s) :
    Keeps rs cl z (thenState q0 (execDelayReq rx s)) := by
  unfold execDelayReq
  dsimp only [thenState]
  repeat' first
    | with_reducible exact hk
    | with_reducible apply keeps_corruptSeen
    | with_reducible apply keeps_modDelay
    | (rw [mk_withRest]; with_reducible apply keeps_withRest)
    | split

theorem keeps_takeDelayResp {rs cl : Bool} {z : State} (s : State) (rx : RxFrame) (hk : Keeps rs cl z s) :
    Keeps rs cl z (takeDelayResp s rx) := by
  unfold takeDelayResp
  try dsimp only
  repeat' first
    | with_reducible exact hk
    | with_reducible apply keeps_corruptSeen
    | with_reducible apply keeps_modDelay
    | (rw [mk_withRest]; with_reducible apply keeps_withRest)
    | split

theorem keeps_execDelayResp {rs cl : Bool} {z : State} (port : PortAt) (arrival : Time) (frame : Frame) (s : State) (q0 : State)
    (hk : Keeps rs cl z s) : Keeps rs cl z (thenState q0 (execDelayResp port arrival frame s)) := by
  unfold execDelayResp
  exact keeps_takeDelayResp _ _ hk

theorem keeps_applyDelay {rs cl : Bool} {z : State} (s : State) (i : Nat) (sd : Side) (hk : Keeps rs cl z s) :
    Keeps rs cl z (applyDelay s i sd) := by
  unfold applyDelay
  try dsimp only
  repeat' first
    | with_reducible exact hk
    | with_reducible apply keeps_eicRaiseAll
    | (rw [mk_withRest]; with_reducible apply keeps_withRest)
    | split

theorem keeps_lossTick {rs cl : Bool} {z : State} (s : State) (hk : Keeps rs cl z s) :
    Keeps rs cl z (lossTick s) := by
  unfold lossTick
  try dsimp only
  repeat' first
    | with_reducible exact hk
    | (rw [mk_withRest]; with_reducible apply keeps_withRest)
    | split

theorem keeps_exchangeTick {rs cl : Bool} {z : State} (s : State) (i : Nat) (sd : Side) (hk : Keeps rs cl z s) :
    Keeps rs cl z (exchangeTick s i sd) := by
  unfold exchangeTick
  try dsimp only
  repeat' first
    | with_reducible exact hk
    | (rw [mk_withRest]; with_reducible apply keeps_withRest)
    | split

theorem keeps_alkTick {rs cl : Bool} {z : State} (s : State) (hk : Keeps rs cl z s) :
    Keeps rs cl z (alkTick s) := by
  unfold alkTick
  try dsimp only
  repeat' first
    | with_reducible exact hk
    | with_reducible apply keeps_applyDelay
    | with_reducible apply keeps_exchangeTick
    | with_reducible apply keeps_lossTick
    | with_reducible apply keeps_foldS
    | (rw [mk_withRest]; with_reducible apply keeps_withRest)
    | split
    | (with_reducible intro t x hk)
    | (with_reducible intro t hk)

theorem keeps_alkKeep {rs cl : Bool} {z : State} (s : State) (hk : Keeps rs cl z s) :
    Keeps rs cl z (alkKeep s) := by
  unfold alkKeep
  try dsimp only
  repeat' first
    | with_reducible exact hk
    | (rw [mk_withRest]; with_reducible apply keeps_withRest)

theorem keeps_modSess {rs cl : Bool} {z : State} (s : State) (l : Lane) (i : Nat) (f : Session → Session) (hk : Keeps rs cl z s) :
    Keeps rs cl z (modSess s l i f) := by
  unfold modSess
  try dsimp only
  repeat' first
    | with_reducible exact hk
    | with_reducible apply keeps_modLane
    | (intro L hL; with_reducible exact hL)

theorem keeps_dropSession {rs cl : Bool} {z : State} (s : State) (l : Lane) (i m : Nat) (hk : Keeps rs cl z s) :
    Keeps rs cl z (dropSession s l i m) := by
  unfold dropSession
  try dsimp only
  repeat' first
    | with_reducible exact hk
    | with_reducible apply keeps_modSess
    | with_reducible apply keeps_eventRef

theorem keeps_recordRef {rs cl : Bool} {z : State} (s : State) (l : Lane) (code : Nat) (payload : List Byte) (hk : Keeps rs cl z s) :
    Keeps rs cl z (recordRef s l code payload) := by
  unfold recordRef
  try dsimp only
  repeat' first
    | with_reducible exact hk
    | with_reducible apply keeps_recordAll
    | split

theorem keeps_admitFirst {rs cl : Bool} {z : State} (s : State) (l : Lane) (i : Nat) (hk : Keeps rs cl z s) :
    Keeps rs cl z (admitFirst s l i) := by
  unfold admitFirst
  try dsimp only
  repeat' first
    | with_reducible exact hk
    | with_reducible apply keeps_modSess
    | with_reducible apply keeps_recordRef
    | (rw [mk_withRest]; with_reducible apply keeps_withRest)
    | split

theorem keeps_readmit {rs cl : Bool} {z : State} (s : State) (l : Lane) (i : Nat) (hk : Keeps rs cl z s) :
    Keeps rs cl z (readmit s l i) := by
  unfold readmit
  try dsimp only
  repeat' first
    | with_reducible exact hk
    | with_reducible apply keeps_modSess
    | with_reducible apply keeps_recordRef
    | (rw [mk_withRest]; with_reducible apply keeps_withRest)
    | split

theorem keeps_countTiming {rs cl : Bool} {z : State} (s : State) (l : Lane) (i : Nat) (dev : Int) (hk : Keeps rs cl z s) :
    Keeps rs cl z (countTiming s l i dev) := by
  unfold countTiming
  try dsimp only
  repeat' first
    | with_reducible exact hk
    | with_reducible apply keeps_modSess
    | with_reducible apply keeps_timingError
    | split

theorem keeps_countCode {rs cl : Bool} {z : State} (s : State) (l : Lane) (i : Nat) (hk : Keeps rs cl z s) :
    Keeps rs cl z (countCode s l i) := by
  unfold countCode
  try dsimp only
  repeat' first
    | with_reducible exact hk
    | with_reducible apply keeps_modSess

theorem keeps_countSeq {rs cl : Bool} {z : State} (s : State) (l : Lane) (i : Nat) (hk : Keeps rs cl z s) :
    Keeps rs cl z (countSeq s l i) := by
  unfold countSeq
  try dsimp only
  repeat' first
    | with_reducible exact hk
    | with_reducible apply keeps_modSess

theorem keeps_takeOpen {rs cl : Bool} {z : State} (s : State) (l : Lane) (i : Nat) (c : StationCfg) (f : Frame) (hk : Keeps rs cl z s) :
    Keeps rs cl z (takeOpen s l i c f) := by
  unfold takeOpen
  try dsimp only
  repeat' first
    | with_reducible exact hk
    | with_reducible apply keeps_modSess
    | with_reducible apply keeps_admitFirst
    | with_reducible apply keeps_countCode
    | (rw [mk_withRest]; with_reducible apply keeps_withRest)
    | split

theorem keeps_takeIn {rs cl : Bool} {z : State} (s : State) (l : Lane) (i : Nat) (c : StationCfg) (f : Frame) (hk : Keeps rs cl z s) :
    Keeps rs cl z (takeIn s l i c f) := by
  unfold takeIn
  try dsimp only
  repeat' first
    | with_reducible exact hk
    | with_reducible apply keeps_countSeq
    | with_reducible apply keeps_modSess
    | split

theorem keeps_judgeStation {rs cl : Bool} {z : State} (s : State) (l : Lane) (i : Nat) (c : StationCfg) (rx : RxFrame) (hk : Keeps rs cl z s) :
    Keeps rs cl z (judgeStation s l i c rx) := by
  unfold judgeStation
  try dsimp only
  repeat' first
    | with_reducible exact hk
    | with_reducible apply keeps_countTiming
    | with_reducible apply keeps_countCode
    | with_reducible apply keeps_countSeq
    | with_reducible apply keeps_takeOpen
    | with_reducible apply keeps_takeIn
    | split

theorem keeps_badCopy {rs cl : Bool} {z : State} (s : State) (l : Lane) (rx : RxFrame) (hk : Keeps rs cl z s) :
    Keeps rs cl z (badCopy s l rx) := by
  unfold badCopy
  split
  · exact keeps_corruptSeen _ _ _ hk
  · exact hk

theorem keeps_sessionSees {rs cl : Bool} {z : State} (s : State) (l : Lane) (rx : RxFrame) (i : Nat) (hk : Keeps rs cl z s) :
    Keeps rs cl z (sessionSees s l rx i) := by
  unfold sessionSees
  try dsimp only
  repeat' first
    | with_reducible exact hk
    | with_reducible apply keeps_portSees
    | split

theorem keeps_execStationIn {rs cl : Bool} {z : State} (l : Lane) (station : Fin 512) (rx : RxFrame) (s : State) (q0 : State) (hk : Keeps rs cl z s) :
    Keeps rs cl z (thenState q0 (execStationIn l station rx s)) := by
  unfold execStationIn
  dsimp only [thenState]
  repeat' first
    | with_reducible exact hk
    | with_reducible apply keeps_judgeStation
    | with_reducible apply keeps_badCopy
    | with_reducible apply keeps_sessionSees
    | split

theorem keeps_missStation {rs cl : Bool} {z : State} (s : State) (l : Lane) (i : Nat) (c : StationCfg) (hk : Keeps rs cl z s) :
    Keeps rs cl z (missStation s l i c) := by
  unfold missStation
  try dsimp only
  repeat' first
    | with_reducible exact hk
    | with_reducible apply keeps_dropSession
    | with_reducible apply keeps_modSess
    | split

theorem keeps_execStationDropped {rs cl : Bool} {z : State} (l : Lane) (station : Fin 512) (s : State) (q0 : State) (hk : Keeps rs cl z s) :
    Keeps rs cl z (thenState q0 (execStationDropped l station s)) := by
  unfold execStationDropped
  dsimp only [thenState]
  repeat' split
  · exact hk
  · exact keeps_dropSession _ _ _ _ hk
  · exact hk

theorem keeps_takePeer {rs cl : Bool} {z : State} (s : State) (l : Lane) (i : Nat) (f : Frame) (hk : Keeps rs cl z s) :
    Keeps rs cl z (takePeer s l i f) := by
  unfold takePeer
  try dsimp only
  repeat' first
    | with_reducible exact hk
    | with_reducible apply keeps_modSess
    | with_reducible apply keeps_admitFirst
    | (rw [mk_withRest]; with_reducible apply keeps_withRest)
    | split

theorem keeps_judgePeer {rs cl : Bool} {z : State} (s : State) (l : Lane) (q : Nat) (c : PeerCfg) (rx : RxFrame) (hk : Keeps rs cl z s) :
    Keeps rs cl z (judgePeer s l q c rx) := by
  unfold judgePeer
  try dsimp only
  repeat' first
    | with_reducible exact hk
    | with_reducible apply keeps_countTiming
    | with_reducible apply keeps_countCode
    | with_reducible apply keeps_countSeq
    | with_reducible apply keeps_takePeer
    | split

theorem keeps_execPeer {rs cl : Bool} {z : State} (l : Lane) (q : Fin 64) (rx : RxFrame) (s : State) (q0 : State) (hk : Keeps rs cl z s) :
    Keeps rs cl z (thenState q0 (execPeer l q rx s)) := by
  unfold execPeer
  dsimp only [thenState]
  repeat' first
    | with_reducible exact hk
    | with_reducible apply keeps_badCopy
    | with_reducible apply keeps_sessionSees
    | with_reducible apply keeps_judgePeer
    | split

theorem keeps_missPeer {rs cl : Bool} {z : State} (s : State) (l : Lane) (q : Nat) (c : PeerCfg) (hk : Keeps rs cl z s) :
    Keeps rs cl z (missPeer s l q c) := by
  unfold missPeer
  try dsimp only
  repeat' first
    | with_reducible exact hk
    | with_reducible apply keeps_dropSession
    | with_reducible apply keeps_modSess
    | split

theorem keeps_execPeerTimeout {rs cl : Bool} {z : State} (l : Lane) (q : Fin 64) (s : State) (q0 : State) (hk : Keeps rs cl z s) :
    Keeps rs cl z (thenState q0 (execPeerTimeout l q s)) := by
  unfold execPeerTimeout
  dsimp only [thenState]
  repeat' split
  · exact hk
  · exact keeps_dropSession _ _ _ _ hk
  · exact hk

theorem pressOk_fold {β : Type} (xs : List β) (f : LaneState → β → LaneState)
    (hf : ∀ L x, pressOk L.press = true → pressOk (f L x).press = true) {L : LaneState} (h : pressOk L.press = true) :
    pressOk (xs.foldl f L).press = true := by
  induction xs generalizing L with
  | nil => exact h
  | cons a xs ih => exact ih (hf _ _ h)

theorem keeps_closeSessions {rs cl : Bool} {z : State} (v : Vintage) (s : State) (l : Lane) (hk : Keeps rs cl z s) :
    Keeps rs cl z (closeSessions v s l) := by
  unfold closeSessions
  refine keeps_modLane _ _ (fun L hL => ?_) ?_
  · exact pressOk_fold _ _ (fun _ _ h => pressOk_peerInputs h _ _) (pressOk_fold _ _ (fun _ _ h => pressOk_stationInputs h _ _) hL)
  · exact keeps_foldS _ _ (fun _ _ h => keeps_missPeer _ _ _ _ h) (keeps_foldS _ _ (fun _ _ h => keeps_missStation _ _ _ _ h) hk)

theorem keeps_admitMarkers {rs cl : Bool} {z : State} (v : Vintage) (s : State) (l : Lane) (hk : Keeps rs cl z s) :
    Keeps rs cl z (admitMarkers v s l) := by
  unfold admitMarkers
  try dsimp only
  repeat' first
    | with_reducible exact hk
    | with_reducible apply keeps_readmit
    | with_reducible apply keeps_foldS
    | (with_reducible intro t x hk)
    | split

theorem keeps_clearSession {rs cl : Bool} {z : State} (s : State) (l : Lane) (i : Nat) (hk : Keeps rs cl z s) :
    Keeps rs cl z (clearSession s l i) := by
  unfold clearSession
  try dsimp only
  repeat' first
    | with_reducible exact hk
    | with_reducible apply keeps_modSess

theorem keeps_execSessionClear {rs cl : Bool} {z : State} (session : Fin 576) (auth : Auth) (s : State) (q0 : State) (hk : Keeps rs cl z s) :
    Keeps rs cl z (thenState q0 (execSessionClear session auth s)) := by
  unfold execSessionClear
  dsimp only [thenState]
  repeat' first
    | with_reducible exact hk
    | with_reducible apply keeps_harnal
    | with_reducible apply keeps_clearSession
    | with_reducible apply keeps_foldS
    | (with_reducible intro t x hk)
    | (with_reducible intro t hk)
    | split

theorem keeps_execMediumWithdrawn {rs cl : Bool} {z : State} (seg : Fin 4) (medium : Medium) (lockLost : Bool) (s : State) (q0 : State) (hk : Keeps rs cl z s) :
    Keeps rs cl z (thenState q0 (execMediumWithdrawn seg medium lockLost s)) := by
  unfold execMediumWithdrawn
  dsimp only [thenState]
  repeat' first
    | with_reducible exact hk
    | with_reducible apply keeps_eventAll
    | with_reducible apply keeps_modMedium
    | with_reducible apply keeps_modPages
    | with_reducible apply keeps_modLife
    | (rw [mk_withRest]; with_reducible apply keeps_withRest)
    | (intro x; refine ⟨?_, fun m => rfl⟩; constructor <;> intros <;> dsimp only <;> (try split) <;> first | exact up_refl _ | exact ⟨up_refl _, up_refl _, up_refl _⟩ | exact up_satInc _ | exact up_satAdd _ _ | exact up_smod_satInc _ _ _ | exact up_port _ _ _ | exact up_lanes _ _ | exact up_lanesIf _ _ _ | exact up_lanesSet _ _ _)
    | split

theorem keeps_execMediumReturned {rs cl : Bool} {z : State} (seg : Fin 4) (medium : Medium) (s : State) (q0 : State) (hk : Keeps rs cl z s) :
    Keeps rs cl z (thenState q0 (execMediumReturned seg medium s)) := by
  unfold execMediumReturned
  dsimp only [thenState]
  repeat' first
    | with_reducible exact hk
    | with_reducible apply keeps_recordAll
    | with_reducible apply keeps_modMedium
    | (rw [mk_withRest]; with_reducible apply keeps_withRest)
    | split

theorem keeps_execMediumClear {rs cl : Bool} {z : State} (seg : Fin 4) (medium : Medium) (auth : Auth) (s : State) (q0 : State) (hk : Keeps rs cl z s) :
    Keeps rs cl z (thenState q0 (execMediumClear seg medium auth s)) := by
  unfold execMediumClear
  dsimp only [thenState]
  repeat' first
    | with_reducible exact hk
    | with_reducible apply keeps_harnal
    | with_reducible apply keeps_modMedium
    | with_reducible apply keeps_modPages
    | with_reducible apply keeps_modLife
    | (rw [mk_withRest]; with_reducible apply keeps_withRest)
    | (intro x; refine ⟨?_, fun m => rfl⟩; constructor <;> intros <;> dsimp only <;> (try split) <;> first | exact up_refl _ | exact ⟨up_refl _, up_refl _, up_refl _⟩ | exact up_satInc _ | exact up_satAdd _ _ | exact up_smod_satInc _ _ _ | exact up_port _ _ _ | exact up_lanes _ _ | exact up_lanesIf _ _ _ | exact up_lanesSet _ _ _)
    | split
    | (with_reducible intro t x hk)
    | (with_reducible intro t hk)

theorem keeps_execLos {rs cl : Bool} {z : State} (seg : Fin 4) (medium : Medium) (port : Fin 2) (high : Bool) (s : State) (q0 : State) (hk : Keeps rs cl z s) :
    Keeps rs cl z (thenState q0 (execLos seg medium port high s)) := by
  unfold execLos
  dsimp only [thenState]
  repeat' first
    | with_reducible exact hk
    | with_reducible apply keeps_modMedium
    | (rw [mk_withRest]; with_reducible apply keeps_withRest)
    | split

end Sys2Proof.Laws
end

