-- ==== Sys2Proof/Laws/KeepsField.lean ====
section
/-!
SUPPORT. What every operation of the field dies keeps (Safety.Keeps), one lemma for each operation and for each command.
-/

namespace Sys2Proof.Laws

open Sys2Proof.Machine Sys2Proof.Safety

theorem keeps_modField {rs cl : Bool} {z : State} (s : State) (f : Field → Field) (hk : Keeps rs cl z s) :
    Keeps rs cl z (modField s f) := by
  unfold modField
  try dsimp only
  repeat' first
    | with_reducible exact hk
    | (rw [mk_withRest]; with_reducible apply keeps_withRest)

theorem keeps_fieldEvent {rs cl : Bool} {z : State} (s : State) (src code a b v : Nat) (hk : Keeps rs cl z s) :
    Keeps rs cl z (fieldEvent s src code a b v) := by
  unfold fieldEvent
  try dsimp only
  repeat' first
    | with_reducible exact hk
    | with_reducible apply keeps_eventAll

theorem keeps_latchFault {rs cl : Bool} {z : State} (s : State) (c : FieldFaultCause) (hk : Keeps rs cl z s) :
    Keeps rs cl z (latchFault s c) := by
  unfold latchFault
  try dsimp only
  repeat' first
    | with_reducible exact hk
    | with_reducible apply keeps_modField
    | with_reducible apply keeps_fieldEvent
    | with_reducible apply keeps_modPages
    | with_reducible apply keeps_modLife
    | (rw [mk_withRest]; with_reducible apply keeps_withRest)
    | (intro x; refine ⟨?_, fun m => rfl⟩; constructor <;> intros <;> dsimp only <;> (try split) <;> first | exact up_refl _ | exact ⟨up_refl _, up_refl _, up_refl _⟩ | exact up_satInc _ | exact up_satAdd _ _ | exact up_smod_satInc _ _ _ | exact up_port _ _ _ | exact up_lanes _ _ | exact up_lanesIf _ _ _ | exact up_lanesSet _ _ _)
    | split

theorem keeps_retakeCounts {rs cl : Bool} {z : State} (s : State) (hk : Keeps rs cl z s) :
    Keeps rs cl z (retakeCounts s) := by
  unfold retakeCounts
  try dsimp only
  repeat' first
    | with_reducible exact hk
    | with_reducible apply keeps_modLanes
    | (rw [mk_withRest]; with_reducible apply keeps_withRest)
    | (intro l L hL; with_reducible exact hL)
    | (intro l L hL; ((repeat' split) <;> first | with_reducible exact hL | exact hL | exact pressOk_stopPress hL))
    | split

theorem keeps_crossingLoss {rs cl : Bool} {z : State} (s : State) (hk : Keeps rs cl z s) :
    Keeps rs cl z (crossingLoss s) := by
  unfold crossingLoss
  try dsimp only
  repeat' first
    | with_reducible exact hk
    | with_reducible apply keeps_modField
    | with_reducible apply keeps_fieldEvent
    | with_reducible apply keeps_latchFault
    | with_reducible apply keeps_retakeCounts
    | with_reducible apply keeps_modPages
    | with_reducible apply keeps_modLife
    | (rw [mk_withRest]; with_reducible apply keeps_withRest)
    | (intro x; refine ⟨?_, fun m => rfl⟩; constructor <;> intros <;> dsimp only <;> (try split) <;> first | exact up_refl _ | exact ⟨up_refl _, up_refl _, up_refl _⟩ | exact up_satInc _ | exact up_satAdd _ _ | exact up_smod_satInc _ _ _ | exact up_port _ _ _ | exact up_lanes _ _ | exact up_lanesIf _ _ _ | exact up_lanesSet _ _ _)
    | split

theorem keeps_execCrossingRefresh {rs cl : Bool} {z : State} (m : FieldReadings) (s : State) (q0 : State) (hk : Keeps rs cl z s) :
    Keeps rs cl z (thenState q0 (execCrossingRefresh m s)) := by
  unfold execCrossingRefresh
  dsimp only [thenState]
  repeat' first
    | with_reducible exact hk
    | with_reducible apply keeps_crossingLoss
    | with_reducible apply keeps_modLanes
    | (rw [mk_withRest]; with_reducible apply keeps_withRest)
    | (intro l L hL; ((repeat' split) <;> first | with_reducible exact hL))
    | (intro l L hL; with_reducible exact hL)
    | (intro l L hL; ((repeat' split) <;> first | with_reducible exact hL | exact hL | exact pressOk_stopPress hL))
    | split

theorem keeps_applyConfig {rs cl : Bool} {z : State} (s : State) (hk : Keeps rs cl z s) :
    Keeps rs cl z (applyConfig s) := by
  unfold applyConfig
  try dsimp only
  repeat' first
    | with_reducible exact hk
    | (rw [mk_withRest]; with_reducible apply keeps_withRest)
    | split

theorem keeps_execDownstreamRefresh {rs cl : Bool} {z : State} (l : Lane) (err : BitVec 512) (stampNs : Int) (s : State) (q0 : State) (hk : Keeps rs cl z s) :
    Keeps rs cl z (thenState q0 (execDownstreamRefresh l err stampNs s)) := by
  unfold execDownstreamRefresh
  dsimp only [thenState]
  repeat' first
    | with_reducible exact hk
    | with_reducible apply keeps_applyConfig
    | with_reducible apply keeps_crossingLoss
    | (rw [mk_withRest]; with_reducible apply keeps_withRest)
    | split

theorem keeps_execFieldTick {rs cl : Bool} {z : State} (s : State) (q0 : State) (hk : Keeps rs cl z s) :
    Keeps rs cl z (thenState q0 (execFieldTick s)) := by
  unfold execFieldTick
  dsimp only [thenState]
  repeat' first
    | with_reducible exact hk
    | (rw [mk_withRest]; with_reducible apply keeps_withRest)
    | split

theorem keeps_stuckOpenCheck {rs cl : Bool} {z : State} (s : State) (l : Lane) (read : PerLane Word) (hk : Keeps rs cl z s) :
    Keeps rs cl z (stuckOpenCheck s l read) := by
  unfold stuckOpenCheck
  try dsimp only
  repeat' first
    | with_reducible exact hk
    | with_reducible apply keeps_stuckOpen
    | with_reducible apply keeps_retireOut
    | with_reducible apply keeps_modLane
    | with_reducible apply keeps_foldS
    | (intro L hL; with_reducible exact hL)
    | (with_reducible intro t x hk)
    | split

theorem keeps_countSwitchOns {rs cl : Bool} {z : State} (s : State) (l : Lane) (t : TickSample) (hk : Keeps rs cl z s) :
    Keeps rs cl z (countSwitchOns s l t) := by
  unfold countSwitchOns
  try dsimp only
  repeat' first
    | with_reducible exact hk
    | with_reducible apply keeps_modLife
    | with_reducible apply keeps_foldS
    | (rw [mk_withRest]; with_reducible apply keeps_withRest)
    | (intro x; refine ⟨?_, fun m => rfl⟩; constructor <;> intros <;> dsimp only <;> (try split) <;> first | exact up_refl _ | exact ⟨up_refl _, up_refl _, up_refl _⟩ | exact up_satInc _ | exact up_satAdd _ _ | exact up_smod_satInc _ _ _ | exact up_port _ _ _ | exact up_lanes _ _ | exact up_lanesIf _ _ _ | exact up_lanesSet _ _ _)
    | split
    | (with_reducible intro t x hk)
    | (with_reducible intro t hk)

theorem keeps_warnLevel {rs cl : Bool} {z : State} (s : State) (l : Lane) (k : Nat) (old new : BitVec 16) (hk : Keeps rs cl z s) :
    Keeps rs cl z (warnLevel s l k old new) := by
  unfold warnLevel
  try dsimp only
  repeat' first
    | with_reducible exact hk
    | with_reducible apply keeps_eicLevel
    | with_reducible apply keeps_recordOne
    | split

theorem keeps_takeSample {rs cl : Bool} {z : State} (s : State) (l : Lane) (u : UpFrame) (hk : Keeps rs cl z s) :
    Keeps rs cl z (takeSample s l u) := by
  unfold takeSample
  try dsimp only
  repeat' first
    | with_reducible exact hk
    | with_reducible apply keeps_countSwitchOns
    | with_reducible apply keeps_modLane
    | (intro L hL; with_reducible exact hL)
    | split

theorem keeps_acceptUp {rs cl : Bool} {z : State} (s : State) (l : Lane) (u : UpFrame) (hk : Keeps rs cl z s) :
    Keeps rs cl z (acceptUp s l u) := by
  unfold acceptUp
  try dsimp only
  repeat' first
    | with_reducible exact hk
    | with_reducible apply keeps_warnLevel
    | with_reducible apply keeps_stuckOpenCheck
    | with_reducible apply keeps_takeSample
    | with_reducible apply keeps_modLane
    | (intro L hL; with_reducible exact hL)

theorem keeps_execUpstreamRefresh {rs cl : Bool} {z : State} (l : Lane) (err : BitVec 1024) (s : State) (q0 : State) (hk : Keeps rs cl z s) :
    Keeps rs cl z (thenState q0 (execUpstreamRefresh l err s)) := by
  unfold execUpstreamRefresh
  dsimp only [thenState]
  repeat' first
    | with_reducible exact hk
    | with_reducible apply keeps_acceptUp
    | with_reducible apply keeps_modLane
    | (rw [mk_withRest]; with_reducible apply keeps_withRest)
    | (intro L hL; with_reducible exact hL)
    | (intro L hL; ((repeat' split) <;> first | with_reducible exact hL | exact hL | exact pressOk_stopPress hL))
    | split

theorem keeps_execFieldStreamLost {rs cl : Bool} {z : State} (l : Lane) (s : State) (q0 : State) (hk : Keeps rs cl z s) :
    Keeps rs cl z (thenState q0 (execFieldStreamLost l s)) := by
  unfold execFieldStreamLost
  dsimp only [thenState]
  repeat' first
    | with_reducible exact hk
    | with_reducible apply keeps_crossingLoss
    | with_reducible apply keeps_fieldEvent
    | (rw [mk_withRest]; with_reducible apply keeps_withRest)
    | split

theorem keeps_execLocalLost {rs cl : Bool} {z : State} (l : Lane) (s : State) (q0 : State) (hk : Keeps rs cl z s) :
    Keeps rs cl z (thenState q0 (execLocalLost l s)) := by
  unfold execLocalLost
  dsimp only [thenState]
  repeat' first
    | with_reducible exact hk
    | with_reducible apply keeps_modLane
    | (intro L hL; with_reducible exact hL)
    | split

theorem keeps_execLocalRecovered {rs cl : Bool} {z : State} (l : Lane) (s : State) (q0 : State) (hk : Keeps rs cl z s) :
    Keeps rs cl z (thenState q0 (execLocalRecovered l s)) := by
  unfold execLocalRecovered
  dsimp only [thenState]
  repeat' first
    | with_reducible exact hk
    | with_reducible apply keeps_modLane
    | (intro L hL; with_reducible exact hL)
    | split

theorem keeps_execCrossingRecovered {rs cl : Bool} {z : State} (s : State) (q0 : State) (hk : Keeps rs cl z s) :
    Keeps rs cl z (thenState q0 (execCrossingRecovered s)) := by
  unfold execCrossingRecovered
  dsimp only [thenState]
  repeat' first
    | with_reducible exact hk
    | with_reducible apply keeps_modField
    | split

theorem keeps_execModuleStop {rs cl : Bool} {z : State} (s : State) (q0 : State) (hk : Keeps rs cl z s) :
    Keeps rs cl z (thenState q0 (execModuleStop s)) := by
  unfold execModuleStop
  dsimp only [thenState]
  repeat' first
    | with_reducible exact hk
    | with_reducible apply keeps_modField
    | (rw [mk_withRest]; with_reducible apply keeps_withRest)
    | split

theorem keeps_execFieldFault {rs cl : Bool} {z : State} (cause : FieldFaultCause) (s : State) (q0 : State) (hk : Keeps rs cl z s) :
    Keeps rs cl z (thenState q0 (execFieldFault cause s)) := by
  unfold execFieldFault
  dsimp only [thenState]
  repeat' first
    | with_reducible exact hk
    | with_reducible apply keeps_latchFault
    | split

theorem keeps_execFieldFaultClear {rs cl : Bool} {z : State} (auth : Auth) (s : State) (q0 : State) (hk : Keeps rs cl z s) :
    Keeps rs cl z (thenState q0 (execFieldFaultClear auth s)) := by
  unfold execFieldFaultClear
  dsimp only [thenState]
  repeat' first
    | with_reducible exact hk
    | with_reducible apply keeps_harnal
    | with_reducible apply keeps_modField
    | with_reducible apply keeps_modPages
    | with_reducible apply keeps_modLife
    | (rw [mk_withRest]; with_reducible apply keeps_withRest)
    | (intro x; refine ⟨?_, fun m => rfl⟩; constructor <;> intros <;> dsimp only <;> (try split) <;> first | exact up_refl _ | exact ⟨up_refl _, up_refl _, up_refl _⟩ | exact up_satInc _ | exact up_satAdd _ _ | exact up_smod_satInc _ _ _ | exact up_port _ _ _ | exact up_lanes _ _ | exact up_lanesIf _ _ _ | exact up_lanesSet _ _ _)
    | split
    | (with_reducible intro t x hk)
    | (with_reducible intro t hk)

theorem keeps_dropInFlight {rs cl : Bool} {z : State} (s : State) (hk : Keeps rs cl z s) :
    Keeps rs cl z (dropInFlight s) := by
  unfold dropInFlight
  try dsimp only
  repeat' first
    | with_reducible exact hk
    | with_reducible apply keeps_modLanes
    | (rw [mk_withRest]; with_reducible apply keeps_withRest)
    | (intro l L hL; with_reducible exact hL)
    | (intro l L hL; ((repeat' split) <;> first | with_reducible exact hL | exact hL | exact pressOk_stopPress hL))
    | split

theorem keeps_execFieldDieStop {rs cl : Bool} {z : State} (s : State) (q0 : State) (hk : Keeps rs cl z s) :
    Keeps rs cl z (thenState q0 (execFieldDieStop s)) := by
  unfold execFieldDieStop
  dsimp only [thenState]
  repeat' first
    | with_reducible exact hk
    | with_reducible apply keeps_dropInFlight
    | with_reducible apply keeps_modField
    | with_reducible apply keeps_retakeCounts
    | (rw [mk_withRest]; with_reducible apply keeps_withRest)
    | split

theorem keeps_execFieldDieStart {rs cl : Bool} {z : State} (s : State) (q0 : State) (hk : Keeps rs cl z s) :
    Keeps rs cl z (thenState q0 (execFieldDieStart s)) := by
  unfold execFieldDieStart
  dsimp only [thenState]
  repeat' first
    | with_reducible exact hk
    | with_reducible apply keeps_modField
    | split

theorem keeps_sampleInput {rs cl : Bool} {z : State} (c : LocalCfg) (raw : BitVec 48) (s : State) (n : Nat) (hk : Keeps rs cl z s) :
    Keeps rs cl z (sampleInput c raw s n) := by
  unfold sampleInput
  try dsimp only
  repeat' first
    | with_reducible exact hk
    | with_reducible apply keeps_fieldEvent
    | (rw [mk_withRest]; with_reducible apply keeps_withRest)
    | split

theorem keeps_execInputSample {rs cl : Bool} {z : State} (raw : BitVec 48) (s : State) (q0 : State) (hk : Keeps rs cl z s) :
    Keeps rs cl z (thenState q0 (execInputSample raw s)) := by
  unfold execInputSample
  dsimp only [thenState]
  repeat' first
    | with_reducible exact hk
    | with_reducible apply keeps_sampleInput
    | with_reducible apply keeps_modField
    | with_reducible apply keeps_foldS
    | split

theorem keeps_execPairFault {rs cl : Bool} {z : State} (pair : Fin 24) (s : State) (q0 : State) (hk : Keeps rs cl z s) :
    Keeps rs cl z (thenState q0 (execPairFault pair s)) := by
  unfold execPairFault
  dsimp only [thenState]
  repeat' first
    | with_reducible exact hk
    | with_reducible apply keeps_modField
    | with_reducible apply keeps_fieldEvent
    | split

theorem keeps_execTestPulse {rs cl : Bool} {z : State} (source : Fin 8) (lowBelow5 highAbove : Bool) (s : State) (q0 : State) (hk : Keeps rs cl z s) :
    Keeps rs cl z (thenState q0 (execTestPulse source lowBelow5 highAbove s)) := by
  unfold execTestPulse
  dsimp only [thenState]
  repeat' first
    | with_reducible exact hk
    | with_reducible apply keeps_modField
    | (rw [mk_withRest]; with_reducible apply keeps_withRest)
    | split

theorem keeps_execTpRecovered {rs cl : Bool} {z : State} (source : Fin 8) (s : State) (q0 : State) (hk : Keeps rs cl z s) :
    Keeps rs cl z (thenState q0 (execTpRecovered source s)) := by
  unfold execTpRecovered
  dsimp only [thenState]
  repeat' first
    | with_reducible exact hk
    | with_reducible apply keeps_modField
    | split

theorem keeps_execCounterEdge {rs cl : Bool} {z : State} (c : Fin 4) (rising : Bool) (s : State) (q0 : State) (hk : Keeps rs cl z s) :
    Keeps rs cl z (thenState q0 (execCounterEdge c rising s)) := by
  unfold execCounterEdge
  dsimp only [thenState]
  repeat' first
    | with_reducible exact hk
    | with_reducible apply keeps_modField
    | split

theorem swf_putCountWord {w : Sparse Word} (h : swf 0 w = true) (c : LocalCfg) (x : LaneFld) (i : Nat) :
    swf 0 (putCountWord c x w i) = true := by
  unfold putCountWord
  split
  · exact h
  · exact swf_sput h _ _

theorem bwf_localLf (c : LocalCfg) (x : LaneFld) : bwf (localLf c x) = true := by
  unfold localLf; split
  · exact bwf_filter (bwf_range _) _
  · rfl

theorem bwf_localLv (c : LocalCfg) (x : LaneFld) : bwf (localLv c x) = true := by
  unfold localLv; split
  · exact bwf_filter (bwf_range _) _
  · rfl

theorem pressOk_localBlock {p : Press} (h : pressOk p = true) (c : LocalCfg) (x : LaneFld) (xs : List Nat) :
    pressOk { p with data := { p.data with
      lv := bpatch p.data.lv 0 256 (localLv c x), lf := bpatch p.data.lf 0 256 (localLf c x)
      w := xs.foldl (putCountWord c x) p.data.w } } = true := by
  refine pressOk_of h (fun a => ?_) rfl id
  rw [dataCanonical_iff] at a
  obtain ⟨a1, a2, a3, a4, a5, a6, a7, a8, a9, a10, a11, a12, a13⟩ := a
  have hw : swf 0 (xs.foldl (putCountWord c x) p.data.w) = true := by
    generalize p.data.w = w at a11
    induction xs generalizing w with
    | nil => exact a11
    | cons i xs ih => exact ih _ (swf_putCountWord a11 c x i)
  exact (dataCanonical_iff _).2 ⟨a1, a2, a3, a4, a5, bwf_bpatch a6 (bwf_localLv c x) _ _ (by omega),
    bwf_bpatch a7 (bwf_localLf c x) _ _ (by omega), a8, a9, a10, hw, a12, a13⟩

theorem keeps_localInput {rs cl : Bool} {z : State} (s : State) (l : Lane) (hk : Keeps rs cl z s) :
    Keeps rs cl z (localInput s l) := by
  unfold localInput
  split
  · exact hk
  · exact keeps_modLane _ _ (fun L hL => pressOk_localBlock hL _ _ _) hk

theorem keeps_stuckSeen {rs cl : Bool} {z : State} (s : State) (hk : Keeps rs cl z s) :
    Keeps rs cl z (stuckSeen s) := by
  unfold stuckSeen
  try dsimp only
  repeat' first
    | with_reducible exact hk
    | with_reducible apply keeps_modField
    | (rw [mk_withRest]; with_reducible apply keeps_withRest)
    | split

theorem keeps_fieldChecks {rs cl : Bool} {z : State} (s : State) (hk : Keeps rs cl z s) :
    Keeps rs cl z (fieldChecks s) := by
  unfold fieldChecks
  try dsimp only
  repeat' first
    | with_reducible exact hk
    | with_reducible apply keeps_latchFault
    | split

theorem keeps_execOffTest {rs cl : Bool} {z : State} (n : Fin 16) (s : State) (q0 : State) (hk : Keeps rs cl z s) :
    Keeps rs cl z (thenState q0 (execOffTest n s)) := by
  unfold execOffTest
  dsimp only [thenState]
  repeat' first
    | with_reducible exact hk
    | (rw [mk_withRest]; with_reducible apply keeps_withRest)
    | split

theorem keeps_crossConnect {rs cl : Bool} {z : State} (s : State) (a b : Nat) (hk : Keeps rs cl z s) :
    Keeps rs cl z (crossConnect s a b) := by
  unfold crossConnect
  try dsimp only
  repeat' first
    | with_reducible exact hk
    | with_reducible apply keeps_retireOut

theorem keeps_classifyStep {rs cl : Bool} {z : State} (b : Nat) (fell : BitVec 16) (s : State) (a : Nat) (hk : Keeps rs cl z s) :
    Keeps rs cl z (classifyStep b fell s a) := by
  unfold classifyStep
  try dsimp only
  repeat' first
    | with_reducible exact hk
    | with_reducible apply keeps_crossConnect
    | with_reducible apply keeps_retireOut
    | with_reducible apply keeps_modOut
    | split

theorem keeps_failedOff {rs cl : Bool} {z : State} (s : State) (n : Nat) (risen : BitVec 16) (hk : Keeps rs cl z s) :
    Keeps rs cl z (failedOff s n risen) := by
  unfold failedOff
  try dsimp only
  repeat' first
    | with_reducible exact hk
    | with_reducible apply keeps_crossConnect
    | with_reducible apply keeps_retireOut
    | split

theorem keeps_execOffTestEnd {rs cl : Bool} {z : State} (n : Fin 16) (fell risen : BitVec 16) (s : State) (q0 : State) (hk : Keeps rs cl z s) :
    Keeps rs cl z (thenState q0 (execOffTestEnd n fell risen s)) := by
  unfold execOffTestEnd
  dsimp only [thenState]
  repeat' first
    | with_reducible exact hk
    | with_reducible apply keeps_modOut
    | with_reducible apply keeps_failedOff
    | with_reducible apply keeps_classifyStep
    | with_reducible apply keeps_modField
    | with_reducible apply keeps_foldS
    | split

theorem keeps_execOnTest {rs cl : Bool} {z : State} (n : Fin 16) (s : State) (q0 : State) (hk : Keeps rs cl z s) :
    Keeps rs cl z (thenState q0 (execOnTest n s)) := by
  unfold execOnTest
  dsimp only [thenState]
  repeat' first
    | with_reducible exact hk
    | (rw [mk_withRest]; with_reducible apply keeps_withRest)
    | split

theorem keeps_execOnTestEnd {rs cl : Bool} {z : State} (n : Fin 16) (drivenMa returnedMa : Nat) (others : BitVec 16) (s : State) (q0 : State) (hk : Keeps rs cl z s) :
    Keeps rs cl z (thenState q0 (execOnTestEnd n drivenMa returnedMa others s)) := by
  unfold execOnTestEnd
  dsimp only [thenState]
  repeat' first
    | with_reducible exact hk
    | with_reducible apply keeps_modOut
    | with_reducible apply keeps_fieldEvent
    | with_reducible apply keeps_modField
    | with_reducible apply keeps_crossConnect
    | split

theorem keeps_execTerminalHighOff {rs cl : Bool} {z : State} (n : Fin 16) (s : State) (q0 : State) (hk : Keeps rs cl z s) :
    Keeps rs cl z (thenState q0 (execTerminalHighOff n s)) := by
  unfold execTerminalHighOff
  dsimp only [thenState]
  repeat' first
    | with_reducible exact hk
    | with_reducible apply keeps_modOut
    | with_reducible apply keeps_retireOut
    | (rw [mk_withRest]; with_reducible apply keeps_withRest)
    | split

theorem keeps_trip {rs cl : Bool} {z : State} (s : State) (n : Nat) (c : OutFault) (ma : Nat) (hot : Bool) (hk : Keeps rs cl z s) :
    Keeps rs cl z (trip s n c ma hot) := by
  unfold trip
  try dsimp only
  repeat' first
    | with_reducible exact hk
    | with_reducible apply keeps_modField
    | with_reducible apply keeps_fieldEvent
    | with_reducible apply keeps_retireOut
    | split

theorem keeps_execOverload {rs cl : Bool} {z : State} (n : Fin 16) (ma : BitVec 10) (s : State) (q0 : State) (hk : Keeps rs cl z s) :
    Keeps rs cl z (thenState q0 (execOverload n ma s)) := by
  unfold execOverload
  dsimp only [thenState]
  repeat' first
    | with_reducible exact hk
    | with_reducible apply keeps_trip

theorem keeps_execShort {rs cl : Bool} {z : State} (n : Fin 16) (s : State) (q0 : State) (hk : Keeps rs cl z s) :
    Keeps rs cl z (thenState q0 (execShort n s)) := by
  unfold execShort
  dsimp only [thenState]
  repeat' first
    | with_reducible exact hk
    | with_reducible apply keeps_trip

theorem keeps_execOverTemp {rs cl : Bool} {z : State} (n : Fin 16) (s : State) (q0 : State) (hk : Keeps rs cl z s) :
    Keeps rs cl z (thenState q0 (execOverTemp n s)) := by
  unfold execOverTemp
  dsimp only [thenState]
  repeat' first
    | with_reducible exact hk
    | with_reducible apply keeps_trip

theorem keeps_execOverloadRetry {rs cl : Bool} {z : State} (n : Fin 16) (junctionBelow135 : Bool) (s : State) (q0 : State) (hk : Keeps rs cl z s) :
    Keeps rs cl z (thenState q0 (execOverloadRetry n junctionBelow135 s)) := by
  unfold execOverloadRetry
  dsimp only [thenState]
  repeat' first
    | with_reducible exact hk
    | with_reducible apply keeps_modField
    | split

theorem keeps_execTripCountReset {rs cl : Bool} {z : State} (n : Fin 16) (s : State) (q0 : State) (hk : Keeps rs cl z s) :
    Keeps rs cl z (thenState q0 (execTripCountReset n s)) := by
  unfold execTripCountReset
  dsimp only [thenState]
  repeat' first
    | with_reducible exact hk
    | with_reducible apply keeps_modOut
    | split

theorem keeps_execOpenWire {rs cl : Bool} {z : State} (n : Fin 16) (s : State) (q0 : State) (hk : Keeps rs cl z s) :
    Keeps rs cl z (thenState q0 (execOpenWire n s)) := by
  unfold execOpenWire
  dsimp only [thenState]
  repeat' first
    | with_reducible exact hk
    | with_reducible apply keeps_modOut
    | with_reducible apply keeps_fieldEvent
    | split

theorem keeps_execLoadOkReturn {rs cl : Bool} {z : State} (n : Fin 16) (s : State) (q0 : State) (hk : Keeps rs cl z s) :
    Keeps rs cl z (thenState q0 (execLoadOkReturn n s)) := by
  unfold execLoadOkReturn
  dsimp only [thenState]
  repeat' first
    | with_reducible exact hk
    | with_reducible apply keeps_modOut
    | split

theorem keeps_execOutputRetireClear {rs cl : Bool} {z : State} (n : Fin 16) (auth : Auth) (s : State) (q0 : State) (hk : Keeps rs cl z s) :
    Keeps rs cl z (thenState q0 (execOutputRetireClear n auth s)) := by
  unfold execOutputRetireClear
  dsimp only [thenState]
  repeat' first
    | with_reducible exact hk
    | with_reducible apply keeps_harnal
    | with_reducible apply keeps_modOut
    | with_reducible apply keeps_modPages
    | with_reducible apply keeps_modLife
    | (rw [mk_withRest]; with_reducible apply keeps_withRest)
    | (intro x; refine ⟨?_, fun m => rfl⟩; constructor <;> intros <;> dsimp only <;> (try split) <;> first | exact up_refl _ | exact ⟨up_refl _, up_refl _, up_refl _⟩ | exact up_satInc _ | exact up_satAdd _ _ | exact up_smod_satInc _ _ _ | exact up_port _ _ _ | exact up_lanes _ _ | exact up_lanesIf _ _ _ | exact up_lanesSet _ _ _)
    | split
    | (with_reducible intro t x hk)
    | (with_reducible intro t hk)

theorem keeps_execVfMeasure {rs cl : Bool} {z : State} (vf1 vf2 : BitVec 16) (s : State) (q0 : State) (hk : Keeps rs cl z s) :
    Keeps rs cl z (thenState q0 (execVfMeasure vf1 vf2 s)) := by
  unfold execVfMeasure
  dsimp only [thenState]
  repeat' first
    | with_reducible exact hk
    | with_reducible apply keeps_modField
    | split

theorem keeps_execVfLatch {rs cl : Bool} {z : State} (group2 : Bool) (s : State) (q0 : State) (hk : Keeps rs cl z s) :
    Keeps rs cl z (thenState q0 (execVfLatch group2 s)) := by
  unfold execVfLatch
  dsimp only [thenState]
  repeat' first
    | with_reducible exact hk
    | with_reducible apply keeps_modField
    | with_reducible apply keeps_fieldEvent
    | (rw [mk_withRest]; with_reducible apply keeps_withRest)
    | split

theorem keeps_execVfRecovered {rs cl : Bool} {z : State} (group2 : Bool) (s : State) (q0 : State) (hk : Keeps rs cl z s) :
    Keeps rs cl z (thenState q0 (execVfRecovered group2 s)) := by
  unfold execVfRecovered
  dsimp only [thenState]
  repeat' first
    | with_reducible exact hk
    | with_reducible apply keeps_modField
    | split

end Sys2Proof.Laws
end

