-- ==== Sys2Proof/Laws/KeepsTwin.lean ====
section
/-!
SUPPORT. What every operation of the pair, staging and racking keeps (Safety.Keeps), one lemma for each operation and for each command.
-/

namespace Sys2Proof.Laws

open Sys2Proof.Machine Sys2Proof.Safety

theorem keeps_modTwin {rs cl : Bool} {z : State} (s : State) (f : Twin → Twin) (hk : Keeps rs cl z s) :
    Keeps rs cl z (modTwin s f) := by
  unfold modTwin
  try dsimp only
  repeat' first
    | with_reducible exact hk
    | (rw [mk_withRest]; with_reducible apply keeps_withRest)

theorem keeps_setEpoch {rs cl : Bool} {z : State} (s : State) (e : BitVec 16) (hk : Keeps rs cl z s) :
    Keeps rs cl z (setEpoch s e) := by
  unfold setEpoch
  try dsimp only
  repeat' first
    | with_reducible exact hk
    | with_reducible apply keeps_modTwin
    | with_reducible apply keeps_modPages
    | with_reducible apply keeps_modLife
    | (rw [mk_withRest]; with_reducible apply keeps_withRest)
    | (intro x; refine ⟨?_, fun m => rfl⟩; constructor <;> intros <;> dsimp only <;> (try split) <;> first | exact up_refl _ | exact ⟨up_refl _, up_refl _, up_refl _⟩ | exact up_satInc _ | exact up_satAdd _ _ | exact up_smod_satInc _ _ _ | exact up_port _ _ _ | exact up_lanes _ _ | exact up_lanesIf _ _ _ | exact up_lanesSet _ _ _)
    | split

theorem keeps_setTwin {rs cl : Bool} {z : State} (s : State) (x : TwinSt) (hk : Keeps rs cl z s) :
    Keeps rs cl z (setTwin s x) := by
  unfold setTwin
  try dsimp only
  repeat' first
    | with_reducible exact hk
    | with_reducible apply keeps_modTwin
    | (rw [mk_withRest]; with_reducible apply keeps_withRest)
    | split

theorem keeps_unpair {rs cl : Bool} {z : State} (s : State) (hk : Keeps rs cl z s) :
    Keeps rs cl z (unpair s) := by
  unfold unpair
  try dsimp only
  repeat' first
    | with_reducible exact hk
    | with_reducible apply keeps_setTwin
    | with_reducible apply keeps_eventAll

theorem keeps_twinSeen {rs cl : Bool} {z : State} (s : State) (f : Frame) (hk : Keeps rs cl z s) :
    Keeps rs cl z (twinSeen s f) := by
  unfold twinSeen
  try dsimp only
  repeat' first
    | with_reducible exact hk
    | with_reducible apply keeps_modTwin
    | (rw [mk_withRest]; with_reducible apply keeps_withRest)
    | split

theorem keeps_twinYield {rs cl : Bool} {z : State} (s : State) (f : Frame) (hk : Keeps rs cl z s) :
    Keeps rs cl z (twinYield s f) := by
  unfold twinYield
  try dsimp only
  repeat' first
    | with_reducible exact hk
    | with_reducible apply keeps_modTwin
    | split

theorem keeps_modOwn {rs cl : Bool} {z : State} (s : State) (l : Lane) (f : TwinLane → TwinLane) (hk : Keeps rs cl z s) :
    Keeps rs cl z (modOwn s l f) := by
  unfold modOwn
  try dsimp only
  repeat' first
    | with_reducible exact hk
    | with_reducible apply keeps_modTwin
    | (rw [mk_withRest]; with_reducible apply keeps_withRest)
    | split

theorem keeps_twinCompare {rs cl : Bool} {z : State} (s : State) (l : Lane) (f : Frame) (hk : Keeps rs cl z s) :
    Keeps rs cl z (twinCompare s l f) := by
  unfold twinCompare
  try dsimp only
  repeat' first
    | with_reducible exact hk
    | with_reducible apply keeps_modOwn
    | with_reducible apply keeps_setTwin
    | with_reducible apply keeps_unpair
    | (rw [mk_withRest]; with_reducible apply keeps_withRest)
    | split

theorem keeps_loadSwitch {rs cl : Bool} {z : State} (s : State) (n : Word) (hk : Keeps rs cl z s) :
    Keeps rs cl z (loadSwitch s n) := by
  unfold loadSwitch
  try dsimp only
  repeat' first
    | with_reducible exact hk
    | with_reducible apply keeps_configure
    | with_reducible apply keeps_modLanes
    | (intro l L hL; with_reducible exact hL)
    | split

theorem keeps_applyBlock {rs cl : Bool} {z : State} (s : State) (l : Lane) (i : Nat) (bs : List Byte) (hk : Keeps rs cl z s) :
    Keeps rs cl z (applyBlock s l i bs) := by
  unfold applyBlock
  split
  · exact keeps_modLane _ _ (fun _ hL => pressOk_putBlock hL i bs) hk
  · exact hk

theorem keeps_loadDone {rs cl : Bool} {z : State} (s : State) (l : Lane) (hk : Keeps rs cl z s) : Keeps rs cl z (loadDone s l) := by
  unfold loadDone
  extract_lets s1 s2
  have h1 : Keeps rs cl z s1 := keeps_modOwn _ _ _ hk
  have h2 : Keeps rs cl z s2 := by
    unfold s2; split
    · exact keeps_modLane _ _ (fun _ hL => pressOk_loadedLane hL _) h1
    · exact h1
  split
  · exact keeps_setTwin _ _ h2
  · exact h2

theorem keeps_clearLoaded {rs cl : Bool} {z : State} (s : State) (hk : Keeps rs cl z s) :
    Keeps rs cl z (clearLoaded s) := by
  unfold clearLoaded
  try dsimp only
  repeat' first
    | with_reducible exact hk
    | with_reducible apply keeps_modLanes
    | (rw [mk_withRest]; with_reducible apply keeps_withRest)
    | (intro l L hL; with_reducible exact hL)
    | (intro l L hL; ((repeat' split) <;> first | with_reducible exact hL | exact hL | exact pressOk_stopPress hL))
    | split

theorem keeps_twinLoad {rs cl : Bool} {z : State} (s : State) (l : Lane) (f : Frame) (hk : Keeps rs cl z s) :
    Keeps rs cl z (twinLoad s l f) := by
  unfold twinLoad
  try dsimp only
  repeat' first
    | with_reducible exact hk
    | with_reducible apply keeps_setTwin
    | with_reducible apply keeps_loadSwitch
    | with_reducible apply keeps_clearLoaded
    | with_reducible apply keeps_applyBlock
    | with_reducible apply keeps_loadDone
    | split

theorem keeps_twinEcho {rs cl : Bool} {z : State} (s : State) (echo : Word) (hk : Keeps rs cl z s) :
    Keeps rs cl z (twinEcho s echo) := by
  unfold twinEcho
  try dsimp only
  repeat' first
    | with_reducible exact hk
    | with_reducible apply keeps_modTwin
    | split

theorem keeps_activeTakes {rs cl : Bool} {z : State} (s : State) (f : Frame) (hk : Keeps rs cl z s) :
    Keeps rs cl z (activeTakes s f) := by
  unfold activeTakes
  try dsimp only
  repeat' first
    | with_reducible exact hk
    | with_reducible apply keeps_modTwin
    | with_reducible apply keeps_twinEcho
    | (rw [mk_withRest]; with_reducible apply keeps_withRest)
    | split

theorem keeps_twinFields {rs cl : Bool} {z : State} (s : State) (f : Frame) (hk : Keeps rs cl z s) :
    Keeps rs cl z (twinFields s f) := by
  unfold twinFields
  try dsimp only
  repeat' first
    | with_reducible exact hk
    | with_reducible apply keeps_modTwin
    | (rw [mk_withRest]; with_reducible apply keeps_withRest)
    | split

theorem keeps_twinFresh {rs cl : Bool} {z : State} (s : State) (l : Lane) (f : Frame) (hk : Keeps rs cl z s) :
    Keeps rs cl z (twinFresh s l f) := by
  unfold twinFresh
  try dsimp only
  repeat' first
    | with_reducible exact hk
    | with_reducible apply keeps_modOwn
    | with_reducible apply keeps_twinCompare
    | with_reducible apply keeps_twinLoad
    | with_reducible apply keeps_twinFields
    | with_reducible apply keeps_activeTakes
    | (rw [mk_withRest]; with_reducible apply keeps_withRest)
    | split

theorem keeps_mediumFcs {rs cl : Bool} {z : State} (s : State) (x : RxFrame) (hk : Keeps rs cl z s) :
    Keeps rs cl z (mediumFcs s x) := by
  unfold mediumFcs
  split
  · exact hk
  · exact keeps_corruptSeen _ _ _ hk

theorem keeps_twinGot {rs cl : Bool} {z : State} (s : State) (l : Lane) (f : Frame) (hk : Keeps rs cl z s) :
    Keeps rs cl z (twinGot s l f) := by
  unfold twinGot
  try dsimp only
  repeat' first
    | with_reducible exact hk
    | with_reducible apply keeps_modTwin
    | with_reducible apply keeps_modOwn
    | (rw [mk_withRest]; with_reducible apply keeps_withRest)
    | split

theorem keeps_twinReject {rs cl : Bool} {z : State} (s : State) (x : RxFrame) (hk : Keeps rs cl z s) :
    Keeps rs cl z (twinReject s x) := by
  unfold twinReject
  try dsimp only
  repeat' first
    | with_reducible exact hk
    | with_reducible apply keeps_timingError
    | with_reducible apply keeps_modTwin
    | with_reducible apply keeps_mediumFcs
    | (rw [mk_withRest]; with_reducible apply keeps_withRest)
    | split

theorem keeps_twinCount {rs cl : Bool} {z : State} (s0 : State) (l : Lane) (f : State → State)
    (hf : ∀ t, Keeps rs cl z t → Keeps rs cl z (f t)) (hk : Keeps rs cl z s0) : Keeps rs cl z (twinCount s0 l f) := by
  unfold twinCount
  split
  · exact hf _ hk
  · exact hk

theorem keeps_twinStale {rs cl : Bool} {z : State} (s : State) (l : Lane) (hk : Keeps rs cl z s) :
    Keeps rs cl z (twinStale s l) := by
  unfold twinStale
  try dsimp only
  repeat' first
    | with_reducible exact hk
    | with_reducible apply keeps_modTwin
    | with_reducible apply keeps_modOwn
    | with_reducible apply keeps_twinCount
    | (rw [mk_withRest]; with_reducible apply keeps_withRest)
    | split
    | (with_reducible intro t x hk)
    | (with_reducible intro t hk)

theorem keeps_execTwin {rs cl : Bool} {z : State} (l : Lane) (rx : RxFrame) (s : State) (q0 : State) (hk : Keeps rs cl z s) :
    Keeps rs cl z (thenState q0 (execTwin l rx s)) := by
  unfold execTwin
  dsimp only [thenState]
  repeat' first
    | with_reducible exact hk
    | with_reducible apply keeps_sessionSees
    | with_reducible apply keeps_twinSeen
    | with_reducible apply keeps_twinYield
    | with_reducible apply keeps_twinFresh
    | with_reducible apply keeps_mediumFcs
    | with_reducible apply keeps_twinReject
    | with_reducible apply keeps_twinGot
    | with_reducible apply keeps_twinCount
    | with_reducible apply keeps_twinStale
    | split
    | (with_reducible intro t x hk)
    | (with_reducible intro t hk)

theorem keeps_loadClose {rs cl : Bool} {z : State} (s : State) (area : LoadArea) (hk : Keeps rs cl z s) :
    Keeps rs cl z (loadClose s area) := by
  unfold loadClose
  try dsimp only
  repeat' first
    | with_reducible exact hk
    | (rw [mk_withRest]; with_reducible apply keeps_withRest)
    | split

theorem keeps_twinClosed {rs cl : Bool} {z : State} (s : State) (hk : Keeps rs cl z s) :
    Keeps rs cl z (twinClosed s) := by
  unfold twinClosed
  try dsimp only
  repeat' first
    | with_reducible exact hk
    | with_reducible apply keeps_modTwin
    | split

theorem keeps_takeRole {rs cl : Bool} {z : State} (s : State) (hk : Keeps rs cl z s) :
    Keeps rs cl z (takeRole s) := by
  unfold takeRole
  try dsimp only
  repeat' first
    | with_reducible exact hk
    | with_reducible apply keeps_eventAll
    | with_reducible apply keeps_setEpoch
    | with_reducible apply keeps_setTwin
    | split

theorem keeps_twinRole {rs cl : Bool} {z : State} (s : State) (hk : Keeps rs cl z s) :
    Keeps rs cl z (twinRole s) := by
  unfold twinRole
  try dsimp only
  repeat' first
    | with_reducible exact hk
    | with_reducible apply keeps_setTwin
    | with_reducible apply keeps_takeRole
    | split

theorem keeps_yieldNow {rs cl : Bool} {z : State} (s : State) (hk : Keeps rs cl z s) :
    Keeps rs cl z (yieldNow s) := by
  unfold yieldNow
  try dsimp only
  repeat' first
    | with_reducible exact hk
    | with_reducible apply keeps_setTwin
    | with_reducible apply keeps_setEpoch
    | with_reducible apply keeps_modTwin
    | with_reducible apply keeps_eventAll
    | split

theorem keeps_twinTick {rs cl : Bool} {z : State} (s : State) (hk : Keeps rs cl z s) :
    Keeps rs cl z (twinTick s) := by
  unfold twinTick
  try dsimp only
  repeat' first
    | with_reducible exact hk
    | with_reducible apply keeps_modTwin
    | with_reducible apply keeps_setTwin
    | with_reducible apply keeps_twinRole
    | with_reducible apply keeps_yieldNow
    | (rw [mk_withRest]; with_reducible apply keeps_withRest)
    | split

theorem keeps_roleBit {rs cl : Bool} {z : State} (s : State) (f : Lane → Bool) (hk : Keeps rs cl z s) :
    Keeps rs cl z (roleBit s f) :=
  keeps_modLanes _ (fun _ _ hL => pressOk_roleBit hL _) hk

theorem keeps_execTakeover {rs cl : Bool} {z : State} (s : State) (q0 : State) (hk : Keeps rs cl z s) :
    Keeps rs cl z (thenState q0 (execTakeover s)) := by
  unfold execTakeover
  dsimp only [thenState]
  repeat' first
    | with_reducible exact hk
    | with_reducible apply keeps_eventAll
    | with_reducible apply keeps_setEpoch
    | with_reducible apply keeps_setTwin
    | with_reducible apply keeps_roleBit
    | with_reducible apply keeps_modLife
    | (rw [mk_withRest]; with_reducible apply keeps_withRest)
    | (intro x; refine ⟨?_, fun m => rfl⟩; constructor <;> intros <;> dsimp only <;> (try split) <;> first | exact up_refl _ | exact ⟨up_refl _, up_refl _, up_refl _⟩ | exact up_satInc _ | exact up_satAdd _ _ | exact up_smod_satInc _ _ _ | exact up_port _ _ _ | exact up_lanes _ _ | exact up_lanesIf _ _ _ | exact up_lanesSet _ _ _)
    | split

theorem keeps_refuseHandover {rs cl : Bool} {z : State} (s : State) (hk : Keeps rs cl z s) :
    Keeps rs cl z (refuseHandover s) := by
  unfold refuseHandover
  try dsimp only
  repeat' first
    | with_reducible exact hk
    | with_reducible apply keeps_modTwin
    | with_reducible apply keeps_recordAll

theorem keeps_handoverPast {rs cl : Bool} {z : State} (s : State) (hk : Keeps rs cl z s) :
    Keeps rs cl z (handoverPast s) := by
  unfold handoverPast
  try dsimp only
  repeat' first
    | with_reducible exact hk
    | with_reducible apply keeps_refuseHandover
    | split

theorem keeps_execHandoverRequest {rs cl : Bool} {z : State} (auth : Auth) (s : State) (q0 : State) (hk : Keeps rs cl z s) :
    Keeps rs cl z (thenState q0 (execHandoverRequest auth s)) := by
  unfold execHandoverRequest
  dsimp only [thenState]
  repeat' first
    | with_reducible exact hk
    | with_reducible apply keeps_harnal
    | with_reducible apply keeps_modTwin
    | with_reducible apply keeps_refuseHandover
    | (with_reducible intro t hk)
    | split

theorem keeps_execHandover {rs cl : Bool} {z : State} (s : State) (q0 : State) (hk : Keeps rs cl z s) :
    Keeps rs cl z (thenState q0 (execHandover s)) := by
  unfold execHandover
  dsimp only [thenState]
  repeat' first
    | with_reducible exact hk
    | with_reducible apply keeps_eventAll
    | with_reducible apply keeps_modTwin
    | with_reducible apply keeps_setEpoch
    | with_reducible apply keeps_setTwin
    | with_reducible apply keeps_roleBit
    | with_reducible apply keeps_modLife
    | with_reducible apply keeps_modSluices
    | (rw [mk_withRest]; with_reducible apply keeps_withRest)
    | (intro l x; with_reducible exact ⟨id, id⟩)
    | (intro l x; unfold latchOpens; dsimp only; constructor <;> (repeat' split) <;> (simp_all; try tauto); done)
    | (intro x; refine ⟨?_, fun m => rfl⟩; constructor <;> intros <;> dsimp only <;> (try split) <;> first | exact up_refl _ | exact ⟨up_refl _, up_refl _, up_refl _⟩ | exact up_satInc _ | exact up_satAdd _ _ | exact up_smod_satInc _ _ _ | exact up_port _ _ _ | exact up_lanes _ _ | exact up_lanesIf _ _ _ | exact up_lanesSet _ _ _)
    | split

theorem keeps_execLoadStart {rs cl : Bool} {z : State} (s : State) (q0 : State) (hk : Keeps rs cl z s) :
    Keeps rs cl z (thenState q0 (execLoadStart s)) := by
  unfold execLoadStart
  dsimp only [thenState]
  repeat' first
    | with_reducible exact hk
    | with_reducible apply keeps_modTwin
    | split

theorem keeps_execLoadFail {rs cl : Bool} {z : State} (s : State) (q0 : State) (hk : Keeps rs cl z s) :
    Keeps rs cl z (thenState q0 (execLoadFail s)) := by
  unfold execLoadFail
  dsimp only [thenState]
  repeat' first
    | with_reducible exact hk
    | with_reducible apply keeps_eventAll
    | with_reducible apply keeps_modTwin
    | with_reducible apply keeps_setTwin
    | with_reducible apply keeps_modPages
    | with_reducible apply keeps_modLife
    | (rw [mk_withRest]; with_reducible apply keeps_withRest)
    | (intro x; refine ⟨?_, fun m => rfl⟩; constructor <;> intros <;> dsimp only <;> (try split) <;> first | exact up_refl _ | exact ⟨up_refl _, up_refl _, up_refl _⟩ | exact up_satInc _ | exact up_satAdd _ _ | exact up_smod_satInc _ _ _ | exact up_port _ _ _ | exact up_lanes _ _ | exact up_lanesIf _ _ _ | exact up_lanesSet _ _ _)
    | split

theorem keeps_execLoadRetry {rs cl : Bool} {z : State} (s : State) (q0 : State) (hk : Keeps rs cl z s) :
    Keeps rs cl z (thenState q0 (execLoadRetry s)) := by
  unfold execLoadRetry
  dsimp only [thenState]
  repeat' first
    | with_reducible exact hk
    | with_reducible apply keeps_modTwin
    | split

theorem keeps_execLoadRestart {rs cl : Bool} {z : State} (auth : Auth) (s : State) (q0 : State) (hk : Keeps rs cl z s) :
    Keeps rs cl z (thenState q0 (execLoadRestart auth s)) := by
  unfold execLoadRestart
  dsimp only [thenState]
  repeat' first
    | with_reducible exact hk
    | with_reducible apply keeps_harnal
    | with_reducible apply keeps_modTwin
    | with_reducible apply keeps_modPages
    | with_reducible apply keeps_modLife
    | (rw [mk_withRest]; with_reducible apply keeps_withRest)
    | (intro x; refine ⟨?_, fun m => rfl⟩; constructor <;> intros <;> dsimp only <;> (try split) <;> first | exact up_refl _ | exact ⟨up_refl _, up_refl _, up_refl _⟩ | exact up_satInc _ | exact up_satAdd _ _ | exact up_smod_satInc _ _ _ | exact up_port _ _ _ | exact up_lanes _ _ | exact up_lanesIf _ _ _ | exact up_lanesSet _ _ _)
    | split
    | (with_reducible intro t x hk)
    | (with_reducible intro t hk)

theorem keeps_attachData {rs cl : Bool} {z : State} (s : State) (r : HostRef) (x : StageData) (hk : Keeps rs cl z s) :
    Keeps rs cl z (attachData s r x) := by
  unfold attachData
  try dsimp only
  repeat' first
    | with_reducible exact hk
    | with_reducible apply keeps_modLanes
    | (intro l L hL; with_reducible exact hL)

theorem keeps_endStage {rs cl : Bool} {z : State} (s : State) (t : Taken) (bytes reason : Nat) (hk : Keeps rs cl z s) :
    Keeps rs cl z (endStage s t bytes reason) := by
  unfold endStage
  try dsimp only
  repeat' first
    | with_reducible exact hk
    | with_reducible apply keeps_finishAll

theorem keeps_stagedRecord {rs cl : Bool} {z : State} (s : State) (l : Lane) (n : Word) (reason : Nat) (check : BitVec 64) (bytes : Nat) (hk : Keeps rs cl z s) :
    Keeps rs cl z (stagedRecord s l n reason check bytes) := by
  unfold stagedRecord
  try dsimp only
  repeat' first
    | with_reducible exact hk
    | with_reducible apply keeps_eventLane

theorem keeps_failStage {rs cl : Bool} {z : State} (s : State) (t : Taken) (reason : Nat) (hk : Keeps rs cl z s) :
    Keeps rs cl z (failStage s t reason) := by
  unfold failStage
  try dsimp only
  repeat' first
    | with_reducible exact hk
    | with_reducible apply keeps_endStage
    | with_reducible apply keeps_stagedRecord
    | with_reducible apply keeps_modLanes
    | with_reducible apply keeps_foldS
    | (intro l L hL; with_reducible exact hL)
    | (with_reducible intro t x hk)

theorem keeps_takeBytes {rs cl : Bool} {z : State} (s : State) (d : BitVec 512) (x : StageData) (hk : Keeps rs cl z s) :
    Keeps rs cl z (takeBytes s d x) := by
  unfold takeBytes
  try dsimp only
  repeat' first
    | with_reducible exact hk
    | with_reducible apply keeps_modLanes
    | (rw [mk_withRest]; with_reducible apply keeps_withRest)
    | (intro l L hL; ((repeat' split) <;> first | with_reducible exact hL))
    | (intro l L hL; with_reducible exact hL)
    | (intro l L hL; ((repeat' split) <;> first | with_reducible exact hL | exact hL | exact pressOk_stopPress hL))
    | split

theorem keeps_overtake {rs cl : Bool} {z : State} (s : State) (t : Taken) (hk : Keeps rs cl z s) :
    Keeps rs cl z (overtake s t) := by
  unfold overtake
  try dsimp only
  repeat' first
    | with_reducible exact hk
    | with_reducible apply keeps_endStage
    | split

theorem keeps_programChunk {rs cl : Bool} {z : State} (s : State) (t : Taken) (x : StageData) (hk : Keeps rs cl z s) :
    Keeps rs cl z (programChunk s t x) := by
  unfold programChunk
  try dsimp only
  repeat' first
    | with_reducible exact hk
    | with_reducible apply keeps_feedStage
    | with_reducible apply keeps_endStage
    | with_reducible apply keeps_failStage
    | with_reducible apply keeps_takeBytes
    | with_reducible apply keeps_overtake
    | split

theorem keeps_endVerify {rs cl : Bool} {z : State} (errors : PerLane (BitVec 64)) (reasons : PerLane Nat) (s : State) (l : Lane) (hk : Keeps rs cl z s) :
    Keeps rs cl z (endVerify errors reasons s l) := by
  unfold endVerify
  try dsimp only
  repeat' first
    | with_reducible exact hk
    | with_reducible apply keeps_finishLane
    | with_reducible apply keeps_stagedRecord
    | with_reducible apply keeps_modLane
    | (rw [mk_withRest]; with_reducible apply keeps_withRest)
    | (intro L hL; with_reducible exact hL)
    | (intro L hL; ((repeat' split) <;> first | with_reducible exact hL | exact hL | exact pressOk_stopPress hL))
    | split

theorem keeps_dropVerify {rs cl : Bool} {z : State} (s : State) (hk : Keeps rs cl z s) :
    Keeps rs cl z (dropVerify s) := by
  unfold dropVerify
  try dsimp only
  repeat' first
    | with_reducible exact hk
    | with_reducible apply keeps_modLanes
    | (intro l L hL; ((repeat' split) <;> first | with_reducible exact hL))

theorem keeps_execVintageStaged {rs cl : Bool} {z : State} (errors : PerLane (BitVec 64)) (norOk : PerLane Bool) (s : State) (q0 : State) (hk : Keeps rs cl z s) :
    Keeps rs cl z (thenState q0 (execVintageStaged errors norOk s)) := by
  unfold execVintageStaged thenState
  extract_lets ls reason n done s1 s2
  dsimp -zeta only
  split
  · exact keeps_dropVerify _ hk
  · have h1 : Keeps rs cl z s1 := keeps_foldS _ _ (fun _ _ h => keeps_endVerify _ _ _ _ h) (keeps_dropVerify _ hk)
    have h2 : Keeps rs cl z s2 := by
      unfold s2
      split
      · exact keeps_addHistory _ _ _ _ _ _ h1
      · exact h1
    split
    · exact keeps_same h2 rfl rfl rfl rfl rfl
    · exact h2

theorem keeps_startUpdate {rs cl : Bool} {z : State} (s : State) (l : Lane) (signed : Bool) (t : Taken) (hk : Keeps rs cl z s) :
    Keeps rs cl z (startUpdate s l signed t) := by
  unfold startUpdate
  try dsimp only
  repeat' first
    | with_reducible exact hk
    | with_reducible apply keeps_isolate
    | with_reducible apply keeps_finishAll
    | with_reducible apply keeps_endUpdate
    | with_reducible apply keeps_modLane
    | (rw [mk_withRest]; with_reducible apply keeps_withRest)
    | (intro L hL; with_reducible exact hL)
    | (intro L hL; ((repeat' split) <;> first | with_reducible exact hL | exact hL | exact pressOk_stopPress hL))
    | split

theorem keeps_firmwareChunk {rs cl : Bool} {z : State} (s : State) (t : Taken) (x : StageData) (hk : Keeps rs cl z s) :
    Keeps rs cl z (firmwareChunk s t x) := by
  unfold firmwareChunk
  try dsimp only
  repeat' first
    | with_reducible exact hk
    | with_reducible apply keeps_feedStage
    | with_reducible apply keeps_endStage
    | with_reducible apply keeps_startUpdate
    | with_reducible apply keeps_modLane
    | (rw [mk_withRest]; with_reducible apply keeps_withRest)
    | (intro L hL; with_reducible exact hL)
    | (intro L hL; ((repeat' split) <;> first | with_reducible exact hL | exact hL | exact pressOk_stopPress hL))
    | split

theorem keeps_executeChunk {rs cl : Bool} {z : State} (s : State) (t : Taken) (hk : Keeps rs cl z s) :
    Keeps rs cl z (executeChunk s t) := by
  unfold executeChunk
  try dsimp only
  repeat' first
    | with_reducible exact hk
    | with_reducible apply keeps_dataFailed
    | with_reducible apply keeps_programChunk
    | with_reducible apply keeps_firmwareChunk
    | split

theorem keeps_runNext {rs cl : Bool} {z : State} (p : Port) (q : Nat) (s : State) (r : HostRef) (hk : Keeps rs cl z s) :
    Keeps rs cl z (runNext p q s r) := by
  unfold runNext
  try dsimp only
  repeat' first
    | with_reducible exact hk
    | with_reducible apply keeps_markFeed
    | with_reducible apply keeps_beginFeed
    | with_reducible apply keeps_executeChunk
    | split

theorem keeps_runSq {rs cl : Bool} {z : State} (s : State) (p : Port) (q : Nat) (hk : Keeps rs cl z s) :
    Keeps rs cl z (runSq s p q) := by
  unfold runSq
  try dsimp only
  repeat' first
    | with_reducible exact hk
    | with_reducible apply keeps_runNext
    | with_reducible apply keeps_foldS
    | split
    | (with_reducible intro t x hk)
    | (with_reducible intro t hk)

theorem keeps_runChunk {rs cl : Bool} {z : State} (s : State) (t : Taken) (hk : Keeps rs cl z s) :
    Keeps rs cl z (runChunk s t) := by
  unfold runChunk
  try dsimp only
  repeat' first
    | with_reducible exact hk
    | with_reducible apply keeps_beginFeed
    | with_reducible apply keeps_runSq
    | split

theorem keeps_stageData {rs cl : Bool} {z : State} (s : State) (p : Port) (q : Fin 16) (d : BitVec 512) (x : StageData) (hk : Keeps rs cl z s) :
    Keeps rs cl z (stageData s p q d x) := by
  unfold stageData
  try dsimp only
  repeat' first
    | with_reducible exact hk
    | with_reducible apply keeps_attachData
    | with_reducible apply keeps_runSq
    | (rw [mk_withRest]; with_reducible apply keeps_withRest)
    | split

theorem keeps_execStageProgram {rs cl : Bool} {z : State} (p : Port) (q : Fin 16) (desc : BitVec 512) (data : List Byte) (parts : Option Vintage) (s : State) (q0 : State) (hk : Keeps rs cl z s) :
    Keeps rs cl z (thenState q0 (execStageProgram p q desc data parts s)) := by
  unfold execStageProgram
  dsimp only [thenState]
  repeat' first
    | with_reducible exact hk
    | with_reducible apply keeps_takeClass
    | with_reducible apply keeps_stageData
    | split

theorem keeps_execStageFirmware {rs cl : Bool} {z : State} (p : Port) (q : Fin 16) (desc second : BitVec 512) (data : List Byte) (signed : Option Bool) (s : State) (q0 : State) (hk : Keeps rs cl z s) :
    Keeps rs cl z (thenState q0 (execStageFirmware p q desc second data signed s)) := by
  unfold execStageFirmware
  dsimp only [thenState]
  repeat' first
    | with_reducible exact hk
    | with_reducible apply keeps_takeClass
    | with_reducible apply keeps_stageData
    | split

theorem keeps_execImageBuildDone {rs cl : Bool} {z : State} (l : Lane) (signed writeOk : Bool) (s : State) (q0 : State) (hk : Keeps rs cl z s) :
    Keeps rs cl z (thenState q0 (execImageBuildDone l signed writeOk s)) := by
  unfold execImageBuildDone
  dsimp only [thenState]
  repeat' first
    | with_reducible exact hk
    | with_reducible apply keeps_enterTest
    | with_reducible apply keeps_endUpdate
    | with_reducible apply keeps_resetOne
    | with_reducible apply keeps_modLane
    | (rw [mk_withRest]; with_reducible apply keeps_withRest)
    | (intro L hL; with_reducible exact hL)
    | (intro L hL; ((repeat' split) <;> first | with_reducible exact hL | exact hL | exact pressOk_stopPress hL))
    | split

theorem keeps_romRecord {rs cl : Bool} {z : State} (s : State) (reason : Nat) (path : Byte) (v : Word) (hk : Keeps rs cl z s) :
    Keeps rs cl z (romRecord s reason path v) := by
  unfold romRecord
  try dsimp only
  repeat' first
    | with_reducible exact hk
    | with_reducible apply keeps_recordLane
    | split

theorem keeps_romTake {rs cl : Bool} {z : State} (s : State) (l : Lane) (i : FwImage) (path : Byte) (hk : Keeps rs cl z s) :
    Keeps rs cl z (romTake s l i path) := by
  unfold romTake
  try dsimp only
  repeat' first
    | with_reducible exact hk
    | with_reducible apply keeps_romRecord
    | with_reducible apply keeps_modLane
    | (intro L hL; with_reducible exact hL)
    | split

theorem keeps_execUpdRomStart {rs cl : Bool} {z : State} (l : Lane) (image : FwImage) (s : State) (q0 : State) (hk : Keeps rs cl z s) :
    Keeps rs cl z (thenState q0 (execUpdRomStart l image s)) := by
  unfold execUpdRomStart
  dsimp only [thenState]
  repeat' first
    | with_reducible exact hk
    | with_reducible apply keeps_romTake
    | split

theorem keeps_execServicePortRomImage {rs cl : Bool} {z : State} (l : Lane) (image : FwImage) (s : State) (q0 : State) (hk : Keeps rs cl z s) :
    Keeps rs cl z (thenState q0 (execServicePortRomImage l image s)) := by
  unfold execServicePortRomImage
  dsimp only [thenState]
  repeat' first
    | with_reducible exact hk
    | with_reducible apply keeps_romTake
    | split

theorem keeps_recoveryEnds {rs cl : Bool} {z : State} (s : State) (hk : Keeps rs cl z s) :
    Keeps rs cl z (recoveryEnds s) := by
  unfold recoveryEnds
  try dsimp only
  repeat' first
    | with_reducible exact hk
    | with_reducible apply keeps_setModule
    | split

theorem keeps_execRomImageWritten {rs cl : Bool} {z : State} (l : Lane) (readBackOk : Bool) (s : State) (q0 : State) (hk : Keeps rs cl z s) :
    Keeps rs cl z (thenState q0 (execRomImageWritten l readBackOk s)) := by
  unfold execRomImageWritten
  dsimp only [thenState]
  repeat' first
    | with_reducible exact hk
    | with_reducible apply keeps_addHistory
    | with_reducible apply keeps_romRecord
    | with_reducible apply keeps_recoveryEnds
    | with_reducible apply keeps_resetOne
    | with_reducible apply keeps_modLane
    | (rw [mk_withRest]; with_reducible apply keeps_withRest)
    | (intro L hL; with_reducible exact hL)
    | (intro L hL; ((repeat' split) <;> first | with_reducible exact hL | exact hL | exact pressOk_stopPress hL))
    | split

theorem keeps_rackRefused {rs cl : Bool} {z : State} (s : State) (l : Lane) (t : Taken) (status reason : Nat) (hk : Keeps rs cl z s) :
    Keeps rs cl z (rackRefused s l t status reason) := by
  unfold rackRefused
  try dsimp only
  repeat' first
    | with_reducible exact hk
    | with_reducible apply keeps_recordLane
    | with_reducible apply keeps_finishLane
    | with_reducible apply keeps_modLane
    | (intro L hL; with_reducible exact hL)

theorem keeps_rackCheck {rs cl : Bool} {z : State} (s : State) (t : Taken) (hk : Keeps rs cl z s) :
    Keeps rs cl z (rackCheck s t) := by
  unfold rackCheck
  try dsimp only
  repeat' first
    | with_reducible exact hk
    | with_reducible apply keeps_rackRefused
    | with_reducible apply keeps_modLanes
    | with_reducible apply keeps_foldS
    | with_reducible apply keeps_modLane
    | (rw [mk_withRest]; with_reducible apply keeps_withRest)
    | (intro l L hL; ((repeat' split) <;> first | with_reducible exact hL))
    | (intro L hL; with_reducible exact hL)
    | (intro L hL; ((repeat' split) <;> first | with_reducible exact hL | exact hL | exact pressOk_stopPress hL))
    | split
    | (with_reducible intro t x hk)
    | (with_reducible intro t hk)

theorem keeps_execVintageSwitch {rs cl : Bool} {z : State} (l : Lane) (s : State) (q0 : State) (hk : Keeps rs cl z s) :
    Keeps rs cl z (thenState q0 (execVintageSwitch l s)) := by
  unfold execVintageSwitch
  dsimp only [thenState]
  repeat' first
    | with_reducible exact hk
    | with_reducible apply keeps_modLane
    | (rw [mk_withRest]; with_reducible apply keeps_withRest)
    | (intro L hL; exact pressOk_switchLane _ _ hL)
    | split

theorem keeps_rackedLane {rs cl : Bool} {z : State} (s : State) (l : Lane) (hk : Keeps rs cl z s) :
    Keeps rs cl z (rackedLane s l) := by
  unfold rackedLane
  try dsimp only
  repeat' first
    | with_reducible exact hk
    | with_reducible apply keeps_eventLane
    | with_reducible apply keeps_finishLane
    | with_reducible apply keeps_modLane
    | (rw [mk_withRest]; with_reducible apply keeps_withRest)
    | (intro L hL; with_reducible exact hL)
    | (intro L hL; ((repeat' split) <;> first | with_reducible exact hL | exact hL | exact pressOk_stopPress hL))
    | split

theorem keeps_rackFinish {rs cl : Bool} {z : State} (s : State) (hk : Keeps rs cl z s) :
    Keeps rs cl z (rackFinish s) := by
  unfold rackFinish
  try dsimp only
  repeat' first
    | with_reducible exact hk
    | with_reducible apply keeps_addHistory
    | with_reducible apply keeps_rackedLane
    | with_reducible apply keeps_modPages
    | with_reducible apply keeps_modLife
    | with_reducible apply keeps_foldS
    | (rw [mk_withRest]; with_reducible apply keeps_withRest)
    | (intro x; refine ⟨?_, fun m => rfl⟩; constructor <;> intros <;> dsimp only <;> (try split) <;> first | exact up_refl _ | exact ⟨up_refl _, up_refl _, up_refl _⟩ | exact up_satInc _ | exact up_satAdd _ _ | exact up_smod_satInc _ _ _ | exact up_port _ _ _ | exact up_lanes _ _ | exact up_lanesIf _ _ _ | exact up_lanesSet _ _ _)
    | split
    | (with_reducible intro t x hk)
    | (with_reducible intro t hk)

theorem keeps_dropSwitch {rs cl : Bool} {z : State} (s : State) (hk : Keeps rs cl z s) :
    Keeps rs cl z (dropSwitch s) := by
  unfold dropSwitch
  try dsimp only
  repeat' first
    | with_reducible exact hk
    | with_reducible apply keeps_modLanes
    | (intro l L hL; with_reducible exact hL)

theorem keeps_execPreviousExpired {rs cl : Bool} {z : State} (s : State) (q0 : State) (hk : Keeps rs cl z s) :
    Keeps rs cl z (thenState q0 (execPreviousExpired s)) := by
  unfold execPreviousExpired
  dsimp only [thenState]
  repeat' first
    | with_reducible exact hk
    | with_reducible apply keeps_modLanes
    | (rw [mk_withRest]; with_reducible apply keeps_withRest)
    | (intro l L hL; ((repeat' split) <;> first | with_reducible exact hL))
    | (intro l L hL; with_reducible exact hL)
    | (intro l L hL; ((repeat' split) <;> first | with_reducible exact hL | exact hL | exact pressOk_stopPress hL))
    | split

theorem keeps_romTick {rs cl : Bool} {z : State} (s : State) (l : Lane) (hk : Keeps rs cl z s) :
    Keeps rs cl z (romTick s l) := by
  unfold romTick
  try dsimp only
  repeat' first
    | with_reducible exact hk
    | with_reducible apply keeps_modLane
    | (rw [mk_withRest]; with_reducible apply keeps_withRest)
    | (intro L hL; with_reducible exact hL)
    | (intro L hL; ((repeat' split) <;> first | with_reducible exact hL | exact hL | exact pressOk_stopPress hL))
    | split

end Sys2Proof.Laws
end

