-- ==== Sys2Proof/Laws/KeepsTick.lean ====
section
/-!
SUPPORT. What every operation of the cycle keeps (Safety.Keeps), one lemma for each operation and for each command.
-/

namespace Sys2Proof.Laws

open Sys2Proof.Machine Sys2Proof.Safety

theorem keeps_refuseStarted {rs cl : Bool} {z : State} (s : State) (l : Lane) (hk : Keeps rs cl z s) :
    Keeps rs cl z (refuseStarted s l) := by
  unfold refuseStarted
  try dsimp only
  repeat' first
    | with_reducible exact hk
    | with_reducible apply keeps_finishLane
    | with_reducible apply keeps_foldS
    | with_reducible apply keeps_modLane
    | (rw [mk_withRest]; with_reducible apply keeps_withRest)
    | (intro L hL; with_reducible exact hL)
    | (intro L hL; ((repeat' split) <;> first | with_reducible exact hL | exact hL | exact pressOk_stopPress hL))
    | split
    | (with_reducible intro t x hk)
    | (with_reducible intro t hk)

theorem keeps_laneBatch {rs cl : Bool} {z : State} (s : State) (l : Lane) (hk : Keeps rs cl z s) :
    Keeps rs cl z (laneBatch s l) := by
  unfold laneBatch
  try dsimp only
  repeat' first
    | with_reducible exact hk
    | with_reducible apply keeps_finishLane
    | with_reducible apply keeps_refuseStarted
    | with_reducible apply keeps_modLane
    | with_reducible apply keeps_foldS
    | (rw [mk_withRest]; with_reducible apply keeps_withRest)
    | (intro L hL; with_reducible exact hL)
    | (intro L hL; exact hL)
    | (intro L hL; ((repeat' split) <;> first | with_reducible exact hL | exact hL | exact pressOk_stopPress hL))
    | split
    | (with_reducible intro t x hk)
    | (with_reducible intro t hk)

theorem keeps_applyTime {rs cl : Bool} {z : State} (s : State) (r : HostRef) (new : Time) (hk : Keeps rs cl z s) :
    Keeps rs cl z (applyTime s r new) := by
  unfold applyTime
  try dsimp only
  repeat' first
    | with_reducible exact hk
    | with_reducible apply keeps_addHistory
    | with_reducible apply keeps_recordLane
    | with_reducible apply keeps_modLanes
    | with_reducible apply keeps_modLife
    | with_reducible apply keeps_foldS
    | (rw [mk_withRest]; with_reducible apply keeps_withRest)
    | (intro l L hL; exact pressOk_shiftLane _ hL)
    | (with_reducible intro t x hk)
    | (intro x; refine ⟨?_, fun m => rfl⟩; constructor <;> intros <;> first | exact up_refl _ | exact ⟨up_refl _, up_refl _, up_refl _⟩ | exact up_satInc _ | exact up_satAdd _ _ | exact up_smod_satInc _ _ _ | exact up_port _ _ _ | exact up_lanes _ _)

theorem keeps_startTests {rs cl : Bool} {z : State} (s : State) (hk : Keeps rs cl z s) :
    Keeps rs cl z (startTests s) := by
  unfold startTests
  try dsimp only
  repeat' first
    | with_reducible exact hk
    | with_reducible apply keeps_modSluices
    | (rw [mk_withRest]; with_reducible apply keeps_withRest)
    | (intro l x; with_reducible exact ⟨id, id⟩)

theorem keeps_confirmNow {rs cl : Bool} {z : State} (s : State) (t : Taken) (hk : Keeps rs cl z s) :
    Keeps rs cl z (confirmNow s t) := by
  unfold confirmNow
  try dsimp only
  repeat' first
    | with_reducible exact hk
    | with_reducible apply keeps_recordLane
    | with_reducible apply keeps_addHistory
    | with_reducible apply keeps_setModule
    | with_reducible apply keeps_finishAll
    | with_reducible apply keeps_startTests
    | with_reducible apply keeps_modPages
    | with_reducible apply keeps_modLife
    | with_reducible apply keeps_foldS
    | (rw [mk_withRest]; with_reducible apply keeps_withRest)
    | (intro x; refine ⟨?_, fun m => rfl⟩; constructor <;> intros <;> dsimp only <;> (try split) <;> first | exact up_refl _ | exact ⟨up_refl _, up_refl _, up_refl _⟩ | exact up_satInc _ | exact up_satAdd _ _ | exact up_smod_satInc _ _ _ | exact up_port _ _ _ | exact up_lanes _ _ | exact up_lanesIf _ _ _ | exact up_lanesSet _ _ _)
    | split
    | (with_reducible intro t x hk)
    | (with_reducible intro t hk)

theorem keeps_celClear {rs cl : Bool} {z : State} (s : State) (r : HostRef) (kv : BitVec 16) (nonce : BitVec 64) (hk : Keeps rs cl z s) :
    Keeps rs cl z (celClear s r kv nonce).1 := by
  unfold celClear
  split
  · exact hk
  · exact keeps_clearLog _ _ _ _ _ (keeps_dropStaging _ (keeps_dueFlushes _ hk))

theorem keeps_clearNow {rs cl : Bool} {z : State} (s : State) (t : Taken) (hk : Keeps rs cl z s) :
    Keeps rs cl z (clearNow s t) := by
  unfold clearNow
  try dsimp only
  repeat' first
    | with_reducible apply keeps_celClear
    | exact hk
    | with_reducible apply keeps_finishAll

theorem keeps_actAtTick {rs cl : Bool} {z : State} (s : State) (t : Taken) (hk : Keeps rs cl z s) :
    Keeps rs cl z (actAtTick s t) := by
  unfold actAtTick
  try dsimp only
  repeat' first
    | with_reducible exact hk
    | with_reducible apply keeps_finishAll
    | with_reducible apply keeps_applyTime
    | with_reducible apply keeps_clearNow
    | with_reducible apply keeps_runChunk
    | with_reducible apply keeps_confirmNow
    | split

theorem keeps_hostTick {rs cl : Bool} {z : State} (s : State) (hk : Keeps rs cl z s) :
    Keeps rs cl z (hostTick s) := by
  unfold hostTick
  try dsimp only
  repeat' first
    | with_reducible exact hk
    | with_reducible apply keeps_laneBatch
    | with_reducible apply keeps_applyTime
    | with_reducible apply keeps_actAtTick
    | with_reducible apply keeps_foldS
    | split
    | (with_reducible intro t x hk)
    | (with_reducible intro t hk)

theorem keeps_admitHost {rs cl : Bool} {z : State} (v : Vintage) (s : State) (l : Lane) (i opt : Nat) (hk : Keeps rs cl z s) :
    Keeps rs cl z (admitHost v s l i opt).1 := by
  unfold admitHost
  dsimp only
  split
  · split
    · exact keeps_clearSession _ _ _ hk
    · exact hk
  · split
    · exact keeps_readmit _ _ _ hk
    · exact hk

theorem keeps_admitOne {rs cl : Bool} {z : State} (v : Vintage) (l : Lane) (s : State) (t : Taken) (hk : Keeps rs cl z s) :
    Keeps rs cl z (admitOne v l s t) := by
  unfold admitOne
  try dsimp only
  repeat' first
    | with_reducible apply keeps_admitHost
    | with_reducible exact hk
    | with_reducible apply keeps_finishLane

theorem keeps_admitBatch {rs cl : Bool} {z : State} (v : Vintage) (s : State) (l : Lane) (hk : Keeps rs cl z s) :
    Keeps rs cl z (admitBatch v s l) := by
  unfold admitBatch
  try dsimp only
  repeat' first
    | with_reducible exact hk
    | with_reducible apply keeps_admitOne
    | with_reducible apply keeps_foldS
    | split
    | (with_reducible intro t x hk)
    | (with_reducible intro t hk)

theorem keeps_startStage {rs cl : Bool} {z : State} (s : State) (t : Taken) (hk : Keeps rs cl z s) :
    Keeps rs cl z (startStage s t) := by
  unfold startStage
  try dsimp only
  repeat' first
    | with_reducible exact hk
    | with_reducible apply keeps_finishAll
    | with_reducible apply keeps_runChunk
    | split

theorem keeps_releaseStages {rs cl : Bool} {z : State} (s : State) (hk : Keeps rs cl z s) :
    Keeps rs cl z (releaseStages s) := by
  unfold releaseStages
  try dsimp only
  repeat' first
    | with_reducible exact hk
    | with_reducible apply keeps_startStage
    | with_reducible apply keeps_modLanes
    | with_reducible apply keeps_foldS
    | (rw [mk_withRest]; with_reducible apply keeps_withRest)
    | (intro l L hL; with_reducible exact hL)
    | (intro l L hL; ((repeat' split) <;> first | with_reducible exact hL | exact hL | exact pressOk_stopPress hL))
    | split
    | (with_reducible intro t x hk)
    | (with_reducible intro t hk)

theorem keeps_keepDigest {rs cl : Bool} {z : State} (s : State) (hk : Keeps rs cl z s) :
    Keeps rs cl z (keepDigest s) := by
  unfold keepDigest
  try dsimp only
  repeat' first
    | with_reducible exact hk
    | with_reducible apply keeps_modTwin
    | split

theorem keeps_closeCycle {rs cl : Bool} {z : State} (s : State) (hk : Keeps rs cl z s) :
    Keeps rs cl z (closeCycle s) := by
  unfold closeCycle
  try dsimp only
  repeat' first
    | with_reducible exact hk
    | with_reducible apply keeps_eicLevelAll
    | with_reducible apply keeps_keepDigest
    | with_reducible apply keeps_modLanes
    | (intro l L hL; ((repeat' split) <;> first | with_reducible exact hL | exact pressOk_closeReports hL | exact pressOk_clearEnded hL))
    | (intro l L hL; with_reducible exact hL)
    | (intro l L hL; ((repeat' split) <;> first | with_reducible exact hL | exact hL | exact pressOk_stopPress hL))
    | split

theorem keeps_nextCount {rs cl : Bool} {z : State} (s : State) (hk : Keeps rs cl z s) :
    Keeps rs cl z (nextCount s) := by
  unfold nextCount
  try dsimp only
  repeat' first
    | with_reducible exact hk
    | (rw [mk_withRest]; with_reducible apply keeps_withRest)

theorem keeps_countTime {rs cl : Bool} {z : State} (s : State) (hk : Keeps rs cl z s) :
    Keeps rs cl z (countTime s) := by
  unfold countTime
  try dsimp only
  repeat' first
    | with_reducible exact hk
    | with_reducible apply keeps_modLife
    | (intro x; refine ⟨?_, fun m => rfl⟩; constructor <;> intros <;> first | exact up_refl _ | exact ⟨up_refl _, up_refl _, up_refl _⟩ | exact up_satInc _ | exact up_satAdd _ _ | exact up_smod_satInc _ _ _ | exact up_port _ _ _ | exact up_lanes _ _)

theorem keeps_notePage2 {rs cl : Bool} {z : State} (s : State) (l : Lane) (hk : Keeps rs cl z s) :
    Keeps rs cl z (notePage2 s l) := by
  unfold notePage2
  try dsimp only
  repeat' first
    | with_reducible exact hk
    | with_reducible apply keeps_modLife
    | (rw [mk_withRest]; with_reducible apply keeps_withRest)
    | (intro x; refine ⟨?_, fun m => rfl⟩; constructor <;> intros <;> dsimp only <;> (try split) <;> first | exact up_refl _ | exact ⟨up_refl _, up_refl _, up_refl _⟩ | exact up_satInc _ | exact up_satAdd _ _ | exact up_smod_satInc _ _ _ | exact up_port _ _ _ | exact up_lanes _ _ | exact up_lanesIf _ _ _ | exact up_lanesSet _ _ _)
    | split

theorem keeps_measureAll {rs cl : Bool} {z : State} (s : State) (hk : Keeps rs cl z s) :
    Keeps rs cl z (measureAll s) := by
  unfold measureAll
  try dsimp only
  repeat' first
    | with_reducible exact hk
    | with_reducible apply keeps_notePage2
    | with_reducible apply keeps_modLane
    | with_reducible apply keeps_modLife
    | with_reducible apply keeps_foldS
    | (rw [mk_withRest]; with_reducible apply keeps_withRest)
    | (intro L hL; with_reducible exact hL)
    | (with_reducible intro t x hk)
    | (intro x; refine ⟨?_, fun m => rfl⟩; constructor <;> intros <;> first | exact up_refl _ | exact ⟨up_refl _, up_refl _, up_refl _⟩ | exact up_satInc _ | exact up_satAdd _ _ | exact up_smod_satInc _ _ _ | exact up_port _ _ _ | exact up_lanes _ _)
    | split

theorem keeps_nextKeeper {rs cl : Bool} {z : State} (s : State) (hk : Keeps rs cl z s) :
    Keeps rs cl z (nextKeeper s) := by
  unfold nextKeeper
  try dsimp only
  repeat' first
    | with_reducible exact hk
    | (rw [mk_withCellar]; with_reducible apply keeps_withSaved; rfl; rfl)
    | (rw [mk_withCellar]; with_reducible apply keeps_withCellar; rfl; rfl)
    | (rw [mk_withRest]; with_reducible apply keeps_withRest)
    | split

theorem keeps_startLane {rs cl : Bool} {z : State} (s : State) (l : Lane) (hk : Keeps rs cl z s) :
    Keeps rs cl z (startLane s l) := by
  unfold startLane
  try dsimp only
  repeat' first
    | with_reducible exact hk
    | with_reducible apply keeps_eventAll
    | with_reducible apply keeps_modLane
    | with_reducible apply keeps_modSluices
    | (intro L hL; with_reducible exact hL)
    | (intro l x; with_reducible exact ⟨id, id⟩)

theorem keeps_countStart {rs cl : Bool} {z : State} (s : State) (hk : Keeps rs cl z s) :
    Keeps rs cl z (countStart s) := by
  unfold countStart
  try dsimp only
  repeat' first
    | with_reducible exact hk
    | with_reducible apply keeps_modLife
    | (rw [mk_withRest]; with_reducible apply keeps_withRest)
    | (intro x; refine ⟨?_, fun m => rfl⟩; constructor <;> intros <;> dsimp only <;> (try split) <;> first | exact up_refl _ | exact ⟨up_refl _, up_refl _, up_refl _⟩ | exact up_satInc _ | exact up_satAdd _ _ | exact up_smod_satInc _ _ _ | exact up_port _ _ _ | exact up_lanes _ _ | exact up_lanesIf _ _ _ | exact up_lanesSet _ _ _)
    | split

theorem keeps_moduleStart {rs cl : Bool} {z : State} (s : State) (hk : Keeps rs cl z s) :
    Keeps rs cl z (moduleStart s) := by
  unfold moduleStart
  try dsimp only
  repeat' first
    | with_reducible exact hk
    | with_reducible apply keeps_setModule
    | with_reducible apply keeps_latchRule
    | with_reducible apply keeps_startTests
    | with_reducible apply keeps_floorRaise
    | with_reducible apply keeps_startLane
    | with_reducible apply keeps_countStart
    | with_reducible apply keeps_modLife
    | with_reducible apply keeps_foldS
    | (rw [mk_withRest]; with_reducible apply keeps_withRest)
    | split
    | (with_reducible intro t x hk)
    | (with_reducible intro t hk)

theorem keeps_bootTick {rs cl : Bool} {z : State} (s : State) (first : Bool) (hk : Keeps rs cl z s) :
    Keeps rs cl z (bootTick s first) := by
  unfold bootTick
  try dsimp only
  repeat' first
    | with_reducible exact hk
    | with_reducible apply keeps_lanesSync
    | with_reducible apply keeps_moduleStart
    | split

theorem keeps_fieldTestTick {rs cl : Bool} {z : State} (s : State) (hk : Keeps rs cl z s) :
    Keeps rs cl z (fieldTestTick s) := by
  unfold fieldTestTick
  try dsimp only
  repeat' first
    | with_reducible exact hk
    | with_reducible apply keeps_latchFault
    | (rw [mk_withRest]; with_reducible apply keeps_withRest)
    | split

theorem keeps_closeTestTick {rs cl : Bool} {z : State} (s : State) (hk : Keeps rs cl z s) :
    Keeps rs cl z (closeTestTick s) := by
  unfold closeTestTick
  try dsimp only
  repeat' first
    | with_reducible exact hk
    | with_reducible apply keeps_modSluices
    | (intro l x; unfold latchOpens; dsimp only; constructor <;> (repeat' split) <;> simp_all; done)
    | split

theorem keeps_noteService {rs cl : Bool} {z : State} (s : State) (hk : Keeps rs cl z s) :
    Keeps rs cl z (noteService s) := by
  unfold noteService
  try dsimp only
  repeat' first
    | with_reducible exact hk
    | with_reducible apply keeps_modLife
    | (intro x; refine ⟨?_, fun m => rfl⟩; constructor <;> intros <;> first | exact up_refl _ | exact ⟨up_refl _, up_refl _, up_refl _⟩ | exact up_satInc _ | exact up_satAdd _ _ | exact up_smod_satInc _ _ _ | exact up_port _ _ _ | exact up_lanes _ _)

theorem keeps_releaseTick {rs cl : Bool} {z : State} (s : State) (released : Bool) (hk : Keeps rs cl z s) :
    Keeps rs cl z (releaseTick s released) := by
  unfold releaseTick
  try dsimp only
  repeat' first
    | with_reducible exact hk
    | with_reducible apply keeps_closeTestTick
    | with_reducible apply keeps_fieldTestTick
    | with_reducible apply keeps_noteService
    | with_reducible apply keeps_setModule
    | (rw [mk_withRest]; with_reducible apply keeps_withRest)
    | split

theorem keeps_stateTick {rs cl : Bool} {z : State} (s : State) (first released : Bool) (hk : Keeps rs cl z s) :
    Keeps rs cl z (stateTick s first released) := by
  unfold stateTick
  try dsimp only
  repeat' first
    | with_reducible exact hk
    | with_reducible apply keeps_bootTick
    | with_reducible apply keeps_releaseTick
    | split

theorem keeps_abandonUpdate {rs cl : Bool} {z : State} (s : State) (l : Lane) (hk : Keeps rs cl z s) :
    Keeps rs cl z (abandonUpdate s l) := by
  unfold abandonUpdate
  try dsimp only
  repeat' first
    | with_reducible exact hk
    | with_reducible apply keeps_endUpdate
    | split

theorem keeps_engineServed {rs cl : Bool} {z : State} (s : State) (l : Lane) (hk : Keeps rs cl z s) :
    Keeps rs cl z (engineServed s l) := by
  unfold engineServed
  try dsimp only
  repeat' first
    | with_reducible exact hk
    | with_reducible apply keeps_modLane
    | (rw [mk_withRest]; with_reducible apply keeps_withRest)
    | (intro L hL; with_reducible exact hL)
    | (intro L hL; ((repeat' split) <;> first | with_reducible exact hL | exact hL | exact pressOk_stopPress hL))
    | split

theorem keeps_laneTick {rs cl : Bool} {z : State} (s : State) (l : Lane) (hk : Keeps rs cl z s) :
    Keeps rs cl z (laneTick s l) := by
  unfold laneTick
  try dsimp only
  repeat' first
    | with_reducible exact hk
    | with_reducible apply keeps_writeTaken
    | with_reducible apply keeps_bistTick
    | with_reducible apply keeps_romTick
    | with_reducible apply keeps_abandonUpdate
    | with_reducible apply keeps_engineServed
    | with_reducible apply keeps_modLane
    | (rw [mk_withRest]; with_reducible apply keeps_withRest)
    | (intro L hL; exact hL)
    | (intro L hL; with_reducible exact hL)
    | (intro L hL; ((repeat' split) <;> first | with_reducible exact hL | exact hL | exact pressOk_stopPress hL))
    | split

theorem keeps_sluiceTick {rs cl : Bool} {z : State} (s : State) (hk : Keeps rs cl z s) :
    Keeps rs cl z (sluiceTick s) := by
  refine keeps_modSluices _ (fun _ x => ⟨fun h => ?_, id⟩) hk
  unfold latchOpens at *
  dsimp only
  cases e : x.latch <;> simp_all

theorem getLsbD_bitsFold (w : Nat) (f : Nat → Bool) (n : Nat) (h : n ≤ w) (i : Nat) :
    ((List.range n).foldl (fun acc i => if f i then acc ||| (BitVec.ofNat w (2 ^ i)) else acc) (0 : BitVec w)).getLsbD i =
      (decide (i < n) && f i) := by
  induction n with
  | zero => simp
  | succ n ih =>
    rw [List.range_succ, List.foldl_append]
    have ih := ih (by omega)
    simp only [List.foldl_cons, List.foldl_nil]
    split
    · next e =>
      rw [BitVec.getLsbD_or, ih, BitVec.getLsbD_ofNat, Nat.testBit_two_pow]
      by_cases k : n = i
      · subst k; simp [e]; omega
      · have : (i < n + 1) ↔ i < n := by omega
        simp [k, this]
    · next e =>
      rw [ih]
      by_cases k : n = i
      · subst k; simp [e]
      · have : (i < n + 1) ↔ i < n := by omega
        simp [this]

theorem getLsbD_bitsFrom (w : Nat) (f : Nat → Bool) (i : Nat) : (bitsFrom w f).getLsbD i = (decide (i < w) && f i) :=
  getLsbD_bitsFold w f w (Nat.le_refl w) i

theorem constantBits_kBits (s : State) (l : Lane) : (!(kBits s l).getLsbD 0 && (kBits s l).getLsbD 1) = true := by
  unfold kBits
  rw [getLsbD_bitsFrom, getLsbD_bitsFrom]
  rfl

theorem keeps_kTick {rs cl : Bool} {z : State} (s : State) (hk : Keeps rs cl z s) : Keeps rs cl z (kTick s) := by
  refine keeps_modLanes _ (fun l L hL => ?_) hk
  obtain ⟨a, _, c⟩ := (pressOk_iff _).1 hL
  exact (pressOk_iff _).2 ⟨a, constantBits_kBits s l, c⟩

theorem keeps_tickOn {rs cl : Bool} {z : State} (s : State) (hk : Keeps rs cl z s) :
    Keeps rs cl z (tickOn s) := by
  unfold tickOn
  try dsimp only
  repeat' first
    | with_reducible exact hk
    | with_reducible apply keeps_repeatClear
    | with_reducible apply keeps_alkTick
    | with_reducible apply keeps_alkKeep
    | with_reducible apply keeps_hostTick
    | with_reducible apply keeps_joinTick
    | with_reducible apply keeps_closeCycle
    | with_reducible apply keeps_nextCount
    | with_reducible apply keeps_countTime
    | with_reducible apply keeps_measureAll
    | with_reducible apply keeps_nextKeeper
    | with_reducible apply keeps_stateTick
    | with_reducible apply keeps_laneTick
    | with_reducible apply keeps_sluiceTick
    | with_reducible apply keeps_kTick
    | with_reducible apply keeps_twinTick
    | with_reducible apply keeps_foldS
    | split
    | (with_reducible intro t x hk)
    | (with_reducible intro t hk)

theorem keeps_execTick {z : State} (s : State) (q0 : State) (hk : Keeps true true z s) :
    Keeps true true z (thenState q0 (execTick s)) := by
  unfold execTick
  dsimp only [thenState]
  split
  · exact hk
  · split
    · refine keeps_requestedRestart _ _ ?_
      rw [mk_withRest]; with_reducible apply keeps_withRest; exact hk
    · exact keeps_tickOn _ hk

theorem keeps_startRaa {rs cl : Bool} {z : State} (v : Vintage) (s : State) (l : Lane) (hk : Keeps rs cl z s) :
    Keeps rs cl z (startRaa v s l) := by
  unfold startRaa
  try dsimp only
  repeat' first
    | with_reducible exact hk
    | with_reducible apply keeps_modRaa
    | with_reducible apply keeps_moveFaultEvent
    | with_reducible apply keeps_foldS
    | (rw [mk_withRest]; with_reducible apply keeps_withRest)
    | split
    | (with_reducible intro t x hk)
    | (with_reducible intro t hk)

theorem stacksFit_start (x : Strands) (a b c d : Nat) :
    stacksFit { s0 := startStrand a x.s0, s1 := startStrand b x.s1, s2 := startStrand c x.s2, s3 := startStrand d x.s3 } = true := rfl

theorem keeps_startPress {rs cl : Bool} {z : State} (s : State) (l : Lane) (hk : Keeps rs cl z s) :
    Keeps rs cl z (startPress s l) := by
  unfold startPress
  dsimp only
  split
  · exact keeps_modLane_from _ _ (fun a => pressOk_of (a l) id rfl id) hk
  · have h1 := keeps_modLane_from l (fun L => { L with press := { (lane s l).press with
        clock := 0, writes := [], done := none, entered := 0, dropped := 0, wrote := [], active := true, hasRun := true
        strands := { s0 := startStrand (segLen (lane s l) 0) (lane s l).press.strands.s0
                     s1 := startStrand (segLen (lane s l) 1) (lane s l).press.strands.s1
                     s2 := startStrand (segLen (lane s l) 2) (lane s l).press.strands.s2
                     s3 := startStrand (segLen (lane s l) 3) (lane s l).press.strands.s3 } } })
      (fun a => pressOk_of (a l) id rfl (fun _ => stacksFit_start _ _ _ _ _)) hk
    split
    · exact keeps_logicDone _ _ h1
    · exact h1

theorem keeps_closeInput {rs cl : Bool} {z : State} (v : Vintage) (s : State) (l : Lane) (hk : Keeps rs cl z s) :
    Keeps rs cl z (closeInput v s l) := by
  unfold closeInput
  try dsimp only
  repeat' first
    | with_reducible exact hk
    | with_reducible apply keeps_closeSessions
    | with_reducible apply keeps_localInput
    | with_reducible apply keeps_modLane
    | (rw [mk_withRest]; with_reducible apply keeps_withRest)
    | (intro L hL; with_reducible exact hL)
    | (intro L hL; ((repeat' split) <;> first | with_reducible exact hL | exact hL | exact pressOk_stopPress hL))
    | split

theorem keeps_laneEndInput {rs cl : Bool} {z : State} (s : State) (l : Lane) (hk : Keeps rs cl z s) :
    Keeps rs cl z (laneEndInput s l) := by
  unfold laneEndInput
  try dsimp only
  repeat' first
    | with_reducible exact hk
    | with_reducible apply keeps_startPress
    | with_reducible apply keeps_startRaa
    | with_reducible apply keeps_closeInput
    | split

theorem keeps_execEndInput {rs cl : Bool} {z : State} (s : State) (q0 : State) (hk : Keeps rs cl z s) :
    Keeps rs cl z (thenState q0 (execEndInput s)) := by
  unfold execEndInput
  dsimp only [thenState]
  repeat' first
    | with_reducible exact hk
    | with_reducible apply keeps_clearEnds
    | with_reducible apply keeps_dropRequests
    | with_reducible apply keeps_laneEndInput
    | with_reducible apply keeps_stuckSeen
    | with_reducible apply keeps_fieldChecks
    | with_reducible apply keeps_releaseStages
    | with_reducible apply keeps_dropSwitch
    | with_reducible apply keeps_handoverPast
    | with_reducible apply keeps_foldS
    | (rw [mk_withRest]; with_reducible apply keeps_withRest)
    | split
    | (with_reducible intro t x hk)
    | (with_reducible intro t hk)

theorem keeps_decideRest {rs cl : Bool} {z : State} (v : Vintage) (l : Lane) (n : Nat) (s : State) (hk : Keeps rs cl z s) :
    Keeps rs cl z (decideRest v l n s) := by
  induction n generalizing s with
  | zero => exact hk
  | succ n ih =>
    unfold decideRest
    split
    · exact hk
    · split
      · exact hk
      · exact ih _ (keeps_decideHead _ _ _ _ _ hk)

theorem keeps_endRaa {rs cl : Bool} {z : State} (v : Vintage) (s : State) (l : Lane) (hk : Keeps rs cl z s) :
    Keeps rs cl z (endRaa v s l) := by
  unfold endRaa
  try dsimp only
  repeat' first
    | with_reducible exact hk
    | with_reducible apply keeps_provePass
    | with_reducible apply keeps_decideRest
    | with_reducible apply keeps_modLane
    | (rw [mk_withRest]; with_reducible apply keeps_withRest)
    | (intro L hL; exact pressOk_views hL _ L.press.issued _)
    | (intro L hL; with_reducible exact hL)
    | (intro L hL; ((repeat' split) <;> first | with_reducible exact hL | exact hL | exact pressOk_stopPress hL))
    | split

theorem keeps_laneEndLogic {rs cl : Bool} {z : State} (s : State) (l : Lane) (hk : Keeps rs cl z s) :
    Keeps rs cl z (laneEndLogic s l) := by
  unfold laneEndLogic
  try dsimp only
  repeat' first
    | with_reducible exact hk
    | with_reducible apply keeps_admitMarkers
    | with_reducible apply keeps_endRaa
    | with_reducible apply keeps_admitBatch
    | split

theorem keeps_closeImages {rs cl : Bool} {z : State} (s : State) (hk : Keeps rs cl z s) : Keeps rs cl z (closeImages s) := by
  unfold closeImages
  extract_lets s1 s2
  have h1 : Keeps rs cl z s1 := by
    refine keeps_modLanes _ (fun l L hL => ?_) hk
    split
    · split
      · exact hL
      · exact hL
    · exact hL
  have h2 : Keeps rs cl z s2 := keeps_loadClose _ _ h1
  exact keeps_twinClosed _ (keeps_modLanes _ (fun l L hL => pressOk_sendImage hL _ _) h2)

theorem keeps_execEndLogic {rs cl : Bool} {z : State} (s : State) (q0 : State) (hk : Keeps rs cl z s) :
    Keeps rs cl z (thenState q0 (execEndLogic s)) := by
  unfold execEndLogic
  dsimp only [thenState]
  repeat' first
    | with_reducible exact hk
    | with_reducible apply keeps_laneEndLogic
    | with_reducible apply keeps_closeImages
    | with_reducible apply keeps_batchClose
    | with_reducible apply keeps_releaseStages
    | with_reducible apply keeps_rackCheck
    | with_reducible apply keeps_overrunLane
    | with_reducible apply keeps_foldS
    | (rw [mk_withRest]; with_reducible apply keeps_withRest)
    | split
    | (with_reducible intro t x hk)
    | (with_reducible intro t hk)

theorem keeps_execEndVote {rs cl : Bool} {z : State} (s : State) (q0 : State) (hk : Keeps rs cl z s) :
    Keeps rs cl z (thenState q0 (execEndVote s)) := by
  unfold execEndVote
  dsimp only [thenState]
  repeat' first
    | with_reducible exact hk
    | with_reducible apply keeps_rackFinish
    | with_reducible apply keeps_overrunLane
    | with_reducible apply keeps_voteNow
    | with_reducible apply keeps_modSluices
    | with_reducible apply keeps_foldS
    | (rw [mk_withRest]; with_reducible apply keeps_withRest)
    | (intro l x; with_reducible exact ⟨id, id⟩)
    | (intro l x; unfold latchOpens; dsimp only; constructor <;> (repeat' split) <;> (simp_all; try tauto); done)
    | split
    | (with_reducible intro t x hk)
    | (with_reducible intro t hk)

theorem keeps_writeStatus {rs cl : Bool} {z : State} (s : State) (p : Port) (hk : Keeps rs cl z s) :
    Keeps rs cl z (writeStatus s p) := by
  unfold writeStatus
  try dsimp only
  repeat' first
    | with_reducible exact hk
    | with_reducible apply keeps_fenceCheck
    | with_reducible apply keeps_modLane
    | with_reducible apply keeps_modPort
    | (rw [mk_withRest]; with_reducible apply keeps_withRest)
    | (intro L hL; with_reducible exact hL)
    | split

theorem keeps_execEndOutput {rs cl : Bool} {z : State} (s : State) (q0 : State) (hk : Keeps rs cl z s) :
    Keeps rs cl z (thenState q0 (execEndOutput s)) := by
  unfold execEndOutput
  dsimp only [thenState]
  repeat' first
    | with_reducible exact hk
    | with_reducible apply keeps_writeStatus
    | with_reducible apply keeps_foldS
    | (rw [mk_withRest]; with_reducible apply keeps_withRest)
    | split
    | (with_reducible intro t x hk)
    | (with_reducible intro t hk)

end Sys2Proof.Laws
end

