-- ==== Sys2Proof/Laws/KeepsWords.lean ====
section
/-!
SUPPORT. What every operation of the words of the Press keeps (Safety.Keeps), one lemma for each operation and for each command.
-/

namespace Sys2Proof.Laws

open Sys2Proof.Machine Sys2Proof.Safety

theorem keeps_bitOp {rs cl : Bool} {z : State} (w : PressWord) (space : BitVec 4) (f : Bool → Bool → Bool) (s : State) (hk : Keeps rs cl z s) :
    Keeps rs cl z (bitOp w space f s) := by
  unfold bitOp
  try dsimp only
  repeat' first
    | (intro t L y hy; (repeat' split) <;> first | exact hy | exact trivial | exact jumpTo_fits hy | (have h := pushEntry_fits ‹pushEntry _ _ = some _›; exact h) | exact pop_fits hy (by assumption))
    | with_reducible exact hk
    | with_reducible apply keeps_runWord

theorem keeps_bitStore {rs cl : Bool} {z : State} (w : PressWord) (space : BitVec 4) (f : Bool → Option Bool) (s : State) (hk : Keeps rs cl z s) :
    Keeps rs cl z (bitStore w space f s) := by
  unfold bitStore
  try dsimp only
  repeat' first
    | (intro t L y hy; (repeat' split) <;> first | exact hy | exact trivial | exact jumpTo_fits hy | (have h := pushEntry_fits ‹pushEntry _ _ = some _›; exact h) | exact pop_fits hy (by assumption))
    | with_reducible exact hk
    | with_reducible apply keeps_runWord

theorem keeps_execLd {rs cl : Bool} {z : State} (w : PressWord) (space : BitVec 4) (s : State) (q0 : State) (hk : Keeps rs cl z s) :
    Keeps rs cl z (thenState q0 (execLd w space s)) := by
  unfold execLd
  dsimp only [thenState]
  repeat' first
    | with_reducible exact hk
    | with_reducible apply keeps_bitOp

theorem keeps_execLdn {rs cl : Bool} {z : State} (w : PressWord) (space : BitVec 4) (s : State) (q0 : State) (hk : Keeps rs cl z s) :
    Keeps rs cl z (thenState q0 (execLdn w space s)) := by
  unfold execLdn
  dsimp only [thenState]
  repeat' first
    | with_reducible exact hk
    | with_reducible apply keeps_bitOp

theorem keeps_execAndBit {rs cl : Bool} {z : State} (w : PressWord) (space : BitVec 4) (s : State) (q0 : State) (hk : Keeps rs cl z s) :
    Keeps rs cl z (thenState q0 (execAndBit w space s)) := by
  unfold execAndBit
  dsimp only [thenState]
  repeat' first
    | with_reducible exact hk
    | with_reducible apply keeps_bitOp

theorem keeps_execAndnBit {rs cl : Bool} {z : State} (w : PressWord) (space : BitVec 4) (s : State) (q0 : State) (hk : Keeps rs cl z s) :
    Keeps rs cl z (thenState q0 (execAndnBit w space s)) := by
  unfold execAndnBit
  dsimp only [thenState]
  repeat' first
    | with_reducible exact hk
    | with_reducible apply keeps_bitOp

theorem keeps_execOrBit {rs cl : Bool} {z : State} (w : PressWord) (space : BitVec 4) (s : State) (q0 : State) (hk : Keeps rs cl z s) :
    Keeps rs cl z (thenState q0 (execOrBit w space s)) := by
  unfold execOrBit
  dsimp only [thenState]
  repeat' first
    | with_reducible exact hk
    | with_reducible apply keeps_bitOp

theorem keeps_execOrnBit {rs cl : Bool} {z : State} (w : PressWord) (space : BitVec 4) (s : State) (q0 : State) (hk : Keeps rs cl z s) :
    Keeps rs cl z (thenState q0 (execOrnBit w space s)) := by
  unfold execOrnBit
  dsimp only [thenState]
  repeat' first
    | with_reducible exact hk
    | with_reducible apply keeps_bitOp

theorem keeps_execXorBit {rs cl : Bool} {z : State} (w : PressWord) (space : BitVec 4) (s : State) (q0 : State) (hk : Keeps rs cl z s) :
    Keeps rs cl z (thenState q0 (execXorBit w space s)) := by
  unfold execXorBit
  dsimp only [thenState]
  repeat' first
    | with_reducible exact hk
    | with_reducible apply keeps_bitOp

theorem keeps_execSt {rs cl : Bool} {z : State} (w : PressWord) (space : BitVec 4) (s : State) (q0 : State) (hk : Keeps rs cl z s) :
    Keeps rs cl z (thenState q0 (execSt w space s)) := by
  unfold execSt
  dsimp only [thenState]
  repeat' first
    | with_reducible exact hk
    | with_reducible apply keeps_bitStore

theorem keeps_execSetBit {rs cl : Bool} {z : State} (w : PressWord) (space : BitVec 4) (s : State) (q0 : State) (hk : Keeps rs cl z s) :
    Keeps rs cl z (thenState q0 (execSetBit w space s)) := by
  unfold execSetBit
  dsimp only [thenState]
  repeat' first
    | with_reducible exact hk
    | with_reducible apply keeps_bitStore

theorem keeps_execRstBit {rs cl : Bool} {z : State} (w : PressWord) (space : BitVec 4) (s : State) (q0 : State) (hk : Keeps rs cl z s) :
    Keeps rs cl z (thenState q0 (execRstBit w space s)) := by
  unfold execRstBit
  dsimp only [thenState]
  repeat' first
    | with_reducible exact hk
    | with_reducible apply keeps_bitStore

theorem keeps_raaCall {rs cl : Bool} {z : State} (w : PressWord) (bits : Nat) (k : QKind) (s : State) (hk : Keeps rs cl z s) :
    Keeps rs cl z (raaCall w bits k s) := by
  unfold raaCall
  try dsimp only
  repeat' first
    | (intro t L y hy; (repeat' split) <;> first | exact hy | exact trivial | exact jumpTo_fits hy | (have h := pushEntry_fits ‹pushEntry _ _ = some _›; exact h) | exact pop_fits hy (by assumption))
    | with_reducible exact hk
    | with_reducible apply keeps_runWord

theorem keeps_execNop {rs cl : Bool} {z : State} (w : PressWord) (s : State) (q0 : State) (hk : Keeps rs cl z s) :
    Keeps rs cl z (thenState q0 (execNop w s)) := by
  unfold execNop
  dsimp only [thenState]
  repeat' first
    | (intro t L y hy; (repeat' split) <;> first | exact hy | exact trivial | exact jumpTo_fits hy | (have h := pushEntry_fits ‹pushEntry _ _ = some _›; exact h) | exact pop_fits hy (by assumption))
    | with_reducible exact hk
    | with_reducible apply keeps_runWord

theorem pushEntry_fits {x y : Strand} {e : StackEntry} (h : pushEntry x e = some y) : y.stack.length ≤ 16 := by
  unfold pushEntry at h
  split at h
  · cases h
  · injection h with h; subst h
    simp only [List.length_cons]; omega

theorem pop_fits {a : StackEntry} {x r : List StackEntry} (hx : x.length ≤ 16) (h : x = a :: r) : r.length ≤ 16 := by
  subst h; simp only [List.length_cons] at hx; omega

theorem jumpTo_fits {w : PressWord} {x : Strand} {b : Bool} (h : x.stack.length ≤ 16) : (jumpTo w x b).stack.length ≤ 16 := by
  unfold jumpTo; split <;> exact h

theorem keeps_execOpenBranch {rs cl : Bool} {z : State} (w : PressWord) (s : State) (q0 : State) (hk : Keeps rs cl z s) :
    Keeps rs cl z (thenState q0 (execOpenBranch w s)) := by
  unfold execOpenBranch
  dsimp only [thenState]
  repeat' first
    | (intro t L y hy; (repeat' split) <;> first | exact hy | exact trivial | exact jumpTo_fits hy | (have h := pushEntry_fits ‹pushEntry _ _ = some _›; exact h) | exact pop_fits hy (by assumption))
    | with_reducible exact hk
    | with_reducible apply keeps_runWord

theorem keeps_execCloseBranch {rs cl : Bool} {z : State} (w : PressWord) (s : State) (q0 : State) (hk : Keeps rs cl z s) :
    Keeps rs cl z (thenState q0 (execCloseBranch w s)) := by
  unfold execCloseBranch
  dsimp only [thenState]
  repeat' first
    | (intro t L y hy; (repeat' split) <;> first | exact hy | exact trivial | exact jumpTo_fits hy | (have h := pushEntry_fits ‹pushEntry _ _ = some _›; exact h) | exact pop_fits hy (by assumption))
    | with_reducible exact hk
    | with_reducible apply keeps_runWord

theorem keeps_execJmp {rs cl : Bool} {z : State} (w : PressWord) (s : State) (q0 : State) (hk : Keeps rs cl z s) :
    Keeps rs cl z (thenState q0 (execJmp w s)) := by
  unfold execJmp
  dsimp only [thenState]
  repeat' first
    | (intro t L y hy; (repeat' split) <;> first | exact hy | exact trivial | exact jumpTo_fits hy | (have h := pushEntry_fits ‹pushEntry _ _ = some _›; exact h) | exact pop_fits hy (by assumption))
    | with_reducible exact hk
    | with_reducible apply keeps_runWord

theorem keeps_execJmpc {rs cl : Bool} {z : State} (w : PressWord) (s : State) (q0 : State) (hk : Keeps rs cl z s) :
    Keeps rs cl z (thenState q0 (execJmpc w s)) := by
  unfold execJmpc
  dsimp only [thenState]
  repeat' first
    | (intro t L y hy; (repeat' split) <;> first | exact hy | exact trivial | exact jumpTo_fits hy | (have h := pushEntry_fits ‹pushEntry _ _ = some _›; exact h) | exact pop_fits hy (by assumption))
    | with_reducible exact hk
    | with_reducible apply keeps_runWord

theorem keeps_execJmpn {rs cl : Bool} {z : State} (w : PressWord) (s : State) (q0 : State) (hk : Keeps rs cl z s) :
    Keeps rs cl z (thenState q0 (execJmpn w s)) := by
  unfold execJmpn
  dsimp only [thenState]
  repeat' first
    | (intro t L y hy; (repeat' split) <;> first | exact hy | exact trivial | exact jumpTo_fits hy | (have h := pushEntry_fits ‹pushEntry _ _ = some _›; exact h) | exact pop_fits hy (by assumption))
    | with_reducible exact hk
    | with_reducible apply keeps_runWord

theorem keeps_execCall {rs cl : Bool} {z : State} (w : PressWord) (s : State) (q0 : State) (hk : Keeps rs cl z s) :
    Keeps rs cl z (thenState q0 (execCall w s)) := by
  unfold execCall
  dsimp only [thenState]
  repeat' first
    | (intro t L y hy; (repeat' split) <;> first | exact hy | exact trivial | exact jumpTo_fits hy | (have h := pushEntry_fits ‹pushEntry _ _ = some _›; exact h) | exact pop_fits hy (by assumption))
    | with_reducible exact hk
    | with_reducible apply keeps_runWord

theorem keeps_execRet {rs cl : Bool} {z : State} (w : PressWord) (s : State) (q0 : State) (hk : Keeps rs cl z s) :
    Keeps rs cl z (thenState q0 (execRet w s)) := by
  unfold execRet
  dsimp only [thenState]
  repeat' first
    | (intro t L y hy; (repeat' split) <;> first | exact hy | exact trivial | exact jumpTo_fits hy | (have h := pushEntry_fits ‹pushEntry _ _ = some _›; exact h) | exact pop_fits hy (by assumption))
    | with_reducible exact hk
    | with_reducible apply keeps_runWord

theorem keeps_execBar {rs cl : Bool} {z : State} (w : PressWord) (s : State) (q0 : State) (hk : Keeps rs cl z s) :
    Keeps rs cl z (thenState q0 (execBar w s)) := by
  unfold execBar
  dsimp only [thenState]
  repeat' first
    | (intro t L y hy; (repeat' split) <;> first | exact hy | exact trivial | exact jumpTo_fits hy | (have h := pushEntry_fits ‹pushEntry _ _ = some _›; exact h) | exact pop_fits hy (by assumption))
    | with_reducible exact hk
    | with_reducible apply keeps_runWord

theorem keeps_execBarRelease {rs cl : Bool} {z : State} (l : Lane) (strand : Fin 4) (s : State) (q0 : State) (hk : Keeps rs cl z s) :
    Keeps rs cl z (thenState q0 (execBarRelease l strand s)) := by
  unfold execBarRelease
  dsimp only [thenState]
  repeat' split
  · exact hk
  · refine keeps_modLane_from _ _ (fun a => ?_) hk
    exact pressOk_of (a l) id rfl (fun b => stacksFit_put b _ (strandOf_fits ((pressOk_iff _).1 (a l)).2.2 _))
  · exact hk

theorem keeps_execEndStrand {rs cl : Bool} {z : State} (w : PressWord) (s : State) (q0 : State) (hk : Keeps rs cl z s) :
    Keeps rs cl z (thenState q0 (execEndStrand w s)) := by
  unfold execEndStrand
  dsimp only [thenState]
  repeat' first
    | (intro t L y hy; (repeat' split) <;> first | exact hy | exact trivial | exact jumpTo_fits hy | (have h := pushEntry_fits ‹pushEntry _ _ = some _›; exact h) | exact pop_fits hy (by assumption))
    | with_reducible exact hk
    | with_reducible apply keeps_runWord

theorem keeps_execRreq {rs cl : Bool} {z : State} (w : PressWord) (s : State) (q0 : State) (hk : Keeps rs cl z s) :
    Keeps rs cl z (thenState q0 (execRreq w s)) := by
  unfold execRreq
  dsimp only [thenState]
  repeat' first
    | with_reducible exact hk
    | with_reducible apply keeps_raaCall

theorem keeps_execRcan {rs cl : Bool} {z : State} (w : PressWord) (s : State) (q0 : State) (hk : Keeps rs cl z s) :
    Keeps rs cl z (thenState q0 (execRcan w s)) := by
  unfold execRcan
  dsimp only [thenState]
  repeat' first
    | with_reducible exact hk
    | with_reducible apply keeps_raaCall

theorem keeps_execEcmd {rs cl : Bool} {z : State} (w : PressWord) (s : State) (q0 : State) (hk : Keeps rs cl z s) :
    Keeps rs cl z (thenState q0 (execEcmd w s)) := by
  unfold execEcmd
  dsimp only [thenState]
  repeat' first
    | with_reducible exact hk
    | with_reducible apply keeps_raaCall

theorem keeps_edgeOp {rs cl : Bool} {z : State} (w : PressWord) (f : Bool → Bool → Bool) (s : State) (hk : Keeps rs cl z s) :
    Keeps rs cl z (edgeOp w f s) := by
  unfold edgeOp
  try dsimp only
  repeat' first
    | (intro t L y hy; (repeat' split) <;> first | exact hy | exact trivial | exact jumpTo_fits hy | (have h := pushEntry_fits ‹pushEntry _ _ = some _›; exact h) | exact pop_fits hy (by assumption))
    | with_reducible exact hk
    | with_reducible apply keeps_runWord

theorem keeps_timerOp {rs cl : Bool} {z : State} (w : PressWord) (f : Time → Nat → Bool → TimerRec → TimerRec) (s : State) (hk : Keeps rs cl z s) :
    Keeps rs cl z (timerOp w f s) := by
  unfold timerOp
  try dsimp only
  repeat' first
    | (intro t L y hy; (repeat' split) <;> first | exact hy | exact trivial | exact jumpTo_fits hy | (have h := pushEntry_fits ‹pushEntry _ _ = some _›; exact h) | exact pop_fits hy (by assumption))
    | with_reducible exact hk
    | with_reducible apply keeps_runWord

theorem keeps_counterOp {rs cl : Bool} {z : State} (w : PressWord) (f : Word → CounterRec → CounterRec) (s : State) (hk : Keeps rs cl z s) :
    Keeps rs cl z (counterOp w f s) := by
  unfold counterOp
  try dsimp only
  repeat' first
    | (intro t L y hy; (repeat' split) <;> first | exact hy | exact trivial | exact jumpTo_fits hy | (have h := pushEntry_fits ‹pushEntry _ _ = some _›; exact h) | exact pop_fits hy (by assumption))
    | with_reducible exact hk
    | with_reducible apply keeps_runWord

theorem keeps_execEdgp {rs cl : Bool} {z : State} (w : PressWord) (s : State) (q0 : State) (hk : Keeps rs cl z s) :
    Keeps rs cl z (thenState q0 (execEdgp w s)) := by
  unfold execEdgp
  dsimp only [thenState]
  repeat' first
    | with_reducible exact hk
    | with_reducible apply keeps_edgeOp

theorem keeps_execEdgn {rs cl : Bool} {z : State} (w : PressWord) (s : State) (q0 : State) (hk : Keeps rs cl z s) :
    Keeps rs cl z (thenState q0 (execEdgn w s)) := by
  unfold execEdgn
  dsimp only [thenState]
  repeat' first
    | with_reducible exact hk
    | with_reducible apply keeps_edgeOp

theorem keeps_execTon {rs cl : Bool} {z : State} (w : PressWord) (s : State) (q0 : State) (hk : Keeps rs cl z s) :
    Keeps rs cl z (thenState q0 (execTon w s)) := by
  unfold execTon
  dsimp only [thenState]
  repeat' first
    | with_reducible exact hk
    | with_reducible apply keeps_timerOp

theorem keeps_execTof {rs cl : Bool} {z : State} (w : PressWord) (s : State) (q0 : State) (hk : Keeps rs cl z s) :
    Keeps rs cl z (thenState q0 (execTof w s)) := by
  unfold execTof
  dsimp only [thenState]
  repeat' first
    | with_reducible exact hk
    | with_reducible apply keeps_timerOp

theorem keeps_execTp {rs cl : Bool} {z : State} (w : PressWord) (s : State) (q0 : State) (hk : Keeps rs cl z s) :
    Keeps rs cl z (thenState q0 (execTp w s)) := by
  unfold execTp
  dsimp only [thenState]
  repeat' first
    | with_reducible exact hk
    | with_reducible apply keeps_timerOp

theorem keeps_execTrs {rs cl : Bool} {z : State} (w : PressWord) (s : State) (q0 : State) (hk : Keeps rs cl z s) :
    Keeps rs cl z (thenState q0 (execTrs w s)) := by
  unfold execTrs
  dsimp only [thenState]
  repeat' first
    | (intro t L y hy; (repeat' split) <;> first | exact hy | exact trivial | exact jumpTo_fits hy | (have h := pushEntry_fits ‹pushEntry _ _ = some _›; exact h) | exact pop_fits hy (by assumption))
    | with_reducible exact hk
    | with_reducible apply keeps_runWord

theorem keeps_execCtu {rs cl : Bool} {z : State} (w : PressWord) (s : State) (q0 : State) (hk : Keeps rs cl z s) :
    Keeps rs cl z (thenState q0 (execCtu w s)) := by
  unfold execCtu
  dsimp only [thenState]
  repeat' first
    | with_reducible exact hk
    | with_reducible apply keeps_counterOp

theorem keeps_execCtd {rs cl : Bool} {z : State} (w : PressWord) (s : State) (q0 : State) (hk : Keeps rs cl z s) :
    Keeps rs cl z (thenState q0 (execCtd w s)) := by
  unfold execCtd
  dsimp only [thenState]
  repeat' first
    | with_reducible exact hk
    | with_reducible apply keeps_counterOp

theorem keeps_execCrs {rs cl : Bool} {z : State} (w : PressWord) (s : State) (q0 : State) (hk : Keeps rs cl z s) :
    Keeps rs cl z (thenState q0 (execCrs w s)) := by
  unfold execCrs
  dsimp only [thenState]
  repeat' first
    | with_reducible exact hk
    | with_reducible apply keeps_counterOp

theorem keeps_execCld {rs cl : Bool} {z : State} (w : PressWord) (s : State) (q0 : State) (hk : Keeps rs cl z s) :
    Keeps rs cl z (thenState q0 (execCld w s)) := by
  unfold execCld
  dsimp only [thenState]
  repeat' first
    | with_reducible exact hk
    | with_reducible apply keeps_counterOp

theorem keeps_wordOp {rs cl : Bool} {z : State} (w : PressWord) (f : Strand → Word → Strand) (s : State)
    (hf : ∀ y v, y.stack.length ≤ 16 → (f y v).stack.length ≤ 16) (hk : Keeps rs cl z s) :
    Keeps rs cl z (wordOp w f s) := by
  unfold wordOp
  exact keeps_runWord _ _ _ _ _ (fun _ _ _ hy => hf _ _ hy) hk

theorem keeps_execLw {rs cl : Bool} {z : State} (w : PressWord) (s : State) (q0 : State) (hk : Keeps rs cl z s) :
    Keeps rs cl z (thenState q0 (execLw w s)) := by
  unfold execLw
  dsimp only [thenState]
  repeat' first
    | (intro y v hy; first | exact hy | (unfold strandAdd; (repeat' split) <;> exact hy) | (unfold strandSub; (repeat' split) <;> exact hy))
    | with_reducible exact hk
    | with_reducible apply keeps_wordOp

theorem keeps_execSw {rs cl : Bool} {z : State} (w : PressWord) (s : State) (q0 : State) (hk : Keeps rs cl z s) :
    Keeps rs cl z (thenState q0 (execSw w s)) := by
  unfold execSw
  dsimp only [thenState]
  repeat' first
    | (intro t L y hy; (repeat' split) <;> first | exact hy | exact trivial | exact jumpTo_fits hy | (have h := pushEntry_fits ‹pushEntry _ _ = some _›; exact h) | exact pop_fits hy (by assumption))
    | with_reducible exact hk
    | with_reducible apply keeps_runWord

theorem keeps_execLi {rs cl : Bool} {z : State} (w : PressWord) (s : State) (q0 : State) (hk : Keeps rs cl z s) :
    Keeps rs cl z (thenState q0 (execLi w s)) := by
  unfold execLi
  dsimp only [thenState]
  repeat' first
    | (intro t L y hy; (repeat' split) <;> first | exact hy | exact trivial | exact jumpTo_fits hy | (have h := pushEntry_fits ‹pushEntry _ _ = some _›; exact h) | exact pop_fits hy (by assumption))
    | with_reducible exact hk
    | with_reducible apply keeps_runWord

theorem keeps_execLih {rs cl : Bool} {z : State} (w : PressWord) (s : State) (q0 : State) (hk : Keeps rs cl z s) :
    Keeps rs cl z (thenState q0 (execLih w s)) := by
  unfold execLih
  dsimp only [thenState]
  repeat' first
    | (intro t L y hy; (repeat' split) <;> first | exact hy | exact trivial | exact jumpTo_fits hy | (have h := pushEntry_fits ‹pushEntry _ _ = some _›; exact h) | exact pop_fits hy (by assumption))
    | with_reducible exact hk
    | with_reducible apply keeps_runWord

theorem keeps_execAdd {rs cl : Bool} {z : State} (w : PressWord) (s : State) (q0 : State) (hk : Keeps rs cl z s) :
    Keeps rs cl z (thenState q0 (execAdd w s)) := by
  unfold execAdd
  dsimp only [thenState]
  repeat' first
    | (intro y v hy; first | exact hy | (unfold strandAdd; (repeat' split) <;> exact hy) | (unfold strandSub; (repeat' split) <;> exact hy))
    | with_reducible exact hk
    | with_reducible apply keeps_wordOp

theorem keeps_execSub {rs cl : Bool} {z : State} (w : PressWord) (s : State) (q0 : State) (hk : Keeps rs cl z s) :
    Keeps rs cl z (thenState q0 (execSub w s)) := by
  unfold execSub
  dsimp only [thenState]
  repeat' first
    | (intro y v hy; first | exact hy | (unfold strandAdd; (repeat' split) <;> exact hy) | (unfold strandSub; (repeat' split) <;> exact hy))
    | with_reducible exact hk
    | with_reducible apply keeps_wordOp

theorem keeps_execCmpeq {rs cl : Bool} {z : State} (w : PressWord) (s : State) (q0 : State) (hk : Keeps rs cl z s) :
    Keeps rs cl z (thenState q0 (execCmpeq w s)) := by
  unfold execCmpeq
  dsimp only [thenState]
  repeat' first
    | (intro y v hy; first | exact hy | (unfold strandAdd; (repeat' split) <;> exact hy) | (unfold strandSub; (repeat' split) <;> exact hy))
    | with_reducible exact hk
    | with_reducible apply keeps_wordOp

theorem keeps_execCmpge {rs cl : Bool} {z : State} (w : PressWord) (s : State) (q0 : State) (hk : Keeps rs cl z s) :
    Keeps rs cl z (thenState q0 (execCmpge w s)) := by
  unfold execCmpge
  dsimp only [thenState]
  repeat' first
    | (intro y v hy; first | exact hy | (unfold strandAdd; (repeat' split) <;> exact hy) | (unfold strandSub; (repeat' split) <;> exact hy))
    | with_reducible exact hk
    | with_reducible apply keeps_wordOp

theorem keeps_execCmplt {rs cl : Bool} {z : State} (w : PressWord) (s : State) (q0 : State) (hk : Keeps rs cl z s) :
    Keeps rs cl z (thenState q0 (execCmplt w s)) := by
  unfold execCmplt
  dsimp only [thenState]
  repeat' first
    | (intro y v hy; first | exact hy | (unfold strandAdd; (repeat' split) <;> exact hy) | (unfold strandSub; (repeat' split) <;> exact hy))
    | with_reducible exact hk
    | with_reducible apply keeps_wordOp

theorem keeps_execWand {rs cl : Bool} {z : State} (w : PressWord) (s : State) (q0 : State) (hk : Keeps rs cl z s) :
    Keeps rs cl z (thenState q0 (execWand w s)) := by
  unfold execWand
  dsimp only [thenState]
  repeat' first
    | (intro y v hy; first | exact hy | (unfold strandAdd; (repeat' split) <;> exact hy) | (unfold strandSub; (repeat' split) <;> exact hy))
    | with_reducible exact hk
    | with_reducible apply keeps_wordOp

theorem keeps_execWor {rs cl : Bool} {z : State} (w : PressWord) (s : State) (q0 : State) (hk : Keeps rs cl z s) :
    Keeps rs cl z (thenState q0 (execWor w s)) := by
  unfold execWor
  dsimp only [thenState]
  repeat' first
    | (intro y v hy; first | exact hy | (unfold strandAdd; (repeat' split) <;> exact hy) | (unfold strandSub; (repeat' split) <;> exact hy))
    | with_reducible exact hk
    | with_reducible apply keeps_wordOp

theorem keeps_execTld {rs cl : Bool} {z : State} (w : PressWord) (s : State) (q0 : State) (hk : Keeps rs cl z s) :
    Keeps rs cl z (thenState q0 (execTld w s)) := by
  unfold execTld
  dsimp only [thenState]
  repeat' first
    | (intro t L y hy; (repeat' split) <;> first | exact hy | exact trivial | exact jumpTo_fits hy | (have h := pushEntry_fits ‹pushEntry _ _ = some _›; exact h) | exact pop_fits hy (by assumption))
    | with_reducible exact hk
    | with_reducible apply keeps_runWord

theorem keeps_execCacc {rs cl : Bool} {z : State} (w : PressWord) (s : State) (q0 : State) (hk : Keeps rs cl z s) :
    Keeps rs cl z (thenState q0 (execCacc w s)) := by
  unfold execCacc
  dsimp only [thenState]
  repeat' first
    | (intro t L y hy; (repeat' split) <;> first | exact hy | exact trivial | exact jumpTo_fits hy | (have h := pushEntry_fits ‹pushEntry _ _ = some _›; exact h) | exact pop_fits hy (by assumption))
    | with_reducible exact hk
    | with_reducible apply keeps_runWord

theorem keeps_execXld {rs cl : Bool} {z : State} (w : PressWord) (s : State) (q0 : State) (hk : Keeps rs cl z s) :
    Keeps rs cl z (thenState q0 (execXld w s)) := by
  unfold execXld
  dsimp only [thenState]
  repeat' first
    | (intro t L y hy; (repeat' split) <;> first | exact hy | exact trivial | exact jumpTo_fits hy | (have h := pushEntry_fits ‹pushEntry _ _ = some _›; exact h) | exact pop_fits hy (by assumption))
    | with_reducible exact hk
    | with_reducible apply keeps_runWord

theorem keeps_execRsld {rs cl : Bool} {z : State} (w : PressWord) (s : State) (q0 : State) (hk : Keeps rs cl z s) :
    Keeps rs cl z (thenState q0 (execRsld w s)) := by
  unfold execRsld
  dsimp only [thenState]
  repeat' first
    | (intro t L y hy; (repeat' split) <;> first | exact hy | exact trivial | exact jumpTo_fits hy | (have h := pushEntry_fits ‹pushEntry _ _ = some _›; exact h) | exact pop_fits hy (by assumption))
    | with_reducible exact hk
    | with_reducible apply keeps_runWord

theorem keeps_execSatt {rs cl : Bool} {z : State} (w : PressWord) (s : State) (q0 : State) (hk : Keeps rs cl z s) :
    Keeps rs cl z (thenState q0 (execSatt w s)) := by
  unfold execSatt
  dsimp only [thenState]
  repeat' first
    | (intro t L y hy; (repeat' split) <;> first | exact hy | exact trivial | exact jumpTo_fits hy | (have h := pushEntry_fits ‹pushEntry _ _ = some _›; exact h) | exact pop_fits hy (by assumption))
    | with_reducible exact hk
    | with_reducible apply keeps_runWord

end Sys2Proof.Laws
end

