-- ==== Sys2Proof/Laws/KeepsRegs.lean ====
section
/-!
SUPPORT. What every operation of register writes keeps (Safety.Keeps), one lemma for each operation and for each command.
-/

namespace Sys2Proof.Laws

open Sys2Proof.Machine Sys2Proof.Safety

theorem keeps_modShown {rs cl : Bool} {z : State} (s : State) (p : Port) (f : Ring → Ring) (hk : Keeps rs cl z s) :
    Keeps rs cl z (modShown s p f) := by
  unfold modShown
  try dsimp only
  repeat' first
    | with_reducible exact hk
    | with_reducible apply keeps_modSq
    | with_reducible apply keeps_modCq
    | split

theorem keeps_writeRingCtrl {rs cl : Bool} {z : State} (s : State) (p : Port) (v : Word) (hk : Keeps rs cl z s) :
    Keeps rs cl z (writeRingCtrl s p v) := by
  unfold writeRingCtrl
  try dsimp only
  repeat' first
    | with_reducible exact hk
    | with_reducible apply keeps_execRingDisable
    | with_reducible apply keeps_execRingEnable
    | with_reducible apply keeps_modShown
    | split

theorem keeps_writeRingBase {rs cl : Bool} {z : State} (s : State) (p : Port) (high : Bool) (v : Word) (hk : Keeps rs cl z s) :
    Keeps rs cl z (writeRingBase s p high v) := by
  unfold writeRingBase
  try dsimp only
  repeat' first
    | with_reducible exact hk
    | with_reducible apply keeps_modShown

theorem keeps_writeMbx {rs cl : Bool} {z : State} (s : State) (p : Port) (off : Nat) (v : Word) (hk : Keeps rs cl z s) :
    Keeps rs cl z (writeMbx s p off v) := by
  unfold writeMbx
  try dsimp only
  repeat' first
    | with_reducible exact hk
    | with_reducible apply keeps_writeRingCtrl
    | with_reducible apply keeps_writeRingBase
    | with_reducible apply keeps_modPort
    | split

theorem keeps_writeEicMap {rs cl : Bool} {z : State} (s : State) (a : RegAccess) (k : Nat) (n : Fin 32) (v : Word) (hk : Keeps rs cl z s) :
    Keeps rs cl z (writeEicMap s a k n v) := by
  unfold writeEicMap
  try dsimp only
  repeat' first
    | with_reducible exact hk
    | with_reducible apply keeps_execEicEnableSet
    | with_reducible apply keeps_execEicEnableClr
    | with_reducible apply keeps_execEicPendingSet
    | with_reducible apply keeps_execEicPendingClr
    | with_reducible apply keeps_execEicTargetH0Set
    | with_reducible apply keeps_execEicTargetH0Clr
    | with_reducible apply keeps_execEicTargetH1Set
    | with_reducible apply keeps_execEicTargetH1Clr
    | with_reducible apply keeps_execEicCompatPend
    | with_reducible apply keeps_execEicOvfClr
    | split

theorem keeps_writeEicTarget {rs cl : Bool} {z : State} (s : State) (a : RegAccess) (off : Nat) (v : Word) (hk : Keeps rs cl z s) :
    Keeps rs cl z (writeEicTarget s a off v) := by
  unfold writeEicTarget
  try dsimp only
  repeat' first
    | with_reducible exact hk
    | with_reducible apply keeps_eicSettleAll
    | with_reducible apply keeps_execEicComplete
    | split

theorem keeps_writeEic {rs cl : Bool} {z : State} (s : State) (a : RegAccess) (off : Nat) (v : Word) (hk : Keeps rs cl z s) :
    Keeps rs cl z (writeEic s a off v) := by
  unfold writeEic
  try dsimp only
  repeat' first
    | with_reducible exact hk
    | with_reducible apply keeps_eicUpd
    | with_reducible apply keeps_writeEicMap
    | with_reducible apply keeps_writeEicTarget
    | split

theorem keeps_writeParam {rs cl : Bool} {z : State} (s : State) (l : Lane) (u : Nat) (f : UserCtx → UserCtx) (hk : Keeps rs cl z s) :
    Keeps rs cl z (writeParam s l u f) := by
  unfold writeParam
  try dsimp only
  repeat' first
    | with_reducible exact hk
    | with_reducible apply keeps_modLane
    | (intro L hL; exact hL)

theorem keeps_writeUserCmd {rs cl : Bool} {z : State} (s : State) (a : RegAccess) (u : Fin 64) (v : Word) (hk : Keeps rs cl z s) :
    Keeps rs cl z (writeUserCmd s a u v) := by
  unfold writeUserCmd
  try dsimp only
  repeat' first
    | with_reducible exact hk
    | with_reducible apply keeps_execChkClose
    | with_reducible apply keeps_execChkInit
    | split

theorem keeps_writeUser {rs cl : Bool} {z : State} (s : State) (a : RegAccess) (u : Fin 64) (n : Nat) (v : Word) (hk : Keeps rs cl z s) :
    Keeps rs cl z (writeUser s a u n v) := by
  unfold writeUser
  try dsimp only
  repeat' first
    | with_reducible exact hk
    | with_reducible apply keeps_execChkUCtrl
    | with_reducible apply keeps_writeParam
    | with_reducible apply keeps_execChkURun
    | with_reducible apply keeps_writeUserCmd
    | with_reducible apply keeps_modLane
    | (intro L hL; exact hL)
    | split

theorem keeps_writeChk {rs cl : Bool} {z : State} (s : State) (a : RegAccess) (off : Nat) (v : Word) (hk : Keeps rs cl z s) :
    Keeps rs cl z (writeChk s a off v) := by
  unfold writeChk
  try dsimp only
  repeat' first
    | with_reducible exact hk
    | with_reducible apply keeps_writeUser
    | with_reducible apply keeps_modLane
    | (intro L hL; with_reducible exact hL)
    | split

theorem keeps_writeRom {rs cl : Bool} {z : State} (s : State) (l : Lane) (off : Nat) (v : Word) (hk : Keeps rs cl z s) :
    Keeps rs cl z (writeRom s l off v) := by
  unfold writeRom
  try dsimp only
  repeat' first
    | with_reducible exact hk
    | with_reducible apply keeps_modLane
    | (intro L hL; with_reducible exact hL)
    | split

theorem keeps_writeWindow {rs cl : Bool} {z : State} (s : State) (a : RegAccess) (off : Nat) (v : Word) (hk : Keeps rs cl z s) :
    Keeps rs cl z (writeWindow s a off v) := by
  unfold writeWindow
  try dsimp only
  repeat' first
    | with_reducible exact hk
    | with_reducible apply keeps_writeMbx
    | with_reducible apply keeps_writeEic
    | with_reducible apply keeps_writeChk
    | with_reducible apply keeps_modLane
    | (intro L hL; with_reducible exact hL)
    | split

theorem keeps_execRegisterWrite {rs cl : Bool} {z : State} (a : RegAccess) (place : RegPlace) (value : Word) (s : State) (q0 : State) (hk : Keeps rs cl z s) :
    Keeps rs cl z (thenState q0 (execRegisterWrite a place value s)) := by
  unfold execRegisterWrite
  dsimp only [thenState]
  repeat' first
    | with_reducible exact hk
    | with_reducible apply keeps_countAccess
    | with_reducible apply keeps_writeRom
    | with_reducible apply keeps_writeWindow
    | with_reducible apply keeps_modPort
    | split

end Sys2Proof.Laws
end

