-- ==== Sys2Proof/Laws/Changes.lean ====
section
/-!
SUPPORT. The plain updates of the state and the parts they change (Safety.changesOnly).
-/

namespace Sys2Proof.Laws

open Sys2Proof.Machine Sys2Proof.Safety

/-- Every part of a list is in another. -/
def within (a b : List Part) : Bool := a.all (fun p => b.contains p)

theorem within_out {a b : List Part} (h : within a b = true) {p : Part} (hp : b.contains p = false) : a.contains p = false := by
  cases e : a.contains p
  · rfl
  · have := List.all_eq_true.1 h p (List.contains_iff_mem.1 e)
    rw [hp] at this
    exact this.symm

theorem within_trans {a b c : List Part} (h : within a b = true) (k : within b c = true) : within a c = true := by
  refine List.all_eq_true.2 (fun p hp => ?_)
  have h1 := List.contains_iff_mem.1 (List.all_eq_true.1 h p hp)
  exact List.all_eq_true.1 k p h1

theorem sameLane_refl (p : Part) (a : LaneState) : sameLane p a a := by cases p <;> first | rfl | exact ⟨rfl, rfl, rfl⟩ | exact ⟨rfl, rfl⟩ | trivial

theorem sameLane_trans {p : Part} {a b c : LaneState} (h : sameLane p a b) (k : sameLane p b c) : sameLane p a c := by
  cases p <;> first
    | trivial
    | exact ⟨Eq.trans k.1 h.1, Eq.trans k.2.1 h.2.1, Eq.trans k.2.2 h.2.2⟩
    | exact ⟨Eq.trans k.1 h.1, Eq.trans k.2 h.2⟩
    | exact Eq.trans k h

theorem log_trans {a b c : Cellar} (h : { b with life := a.life } = a) (k : { c with life := b.life } = b) :
    { c with life := a.life } = a := by
  rw [← h, ← k]

theorem samePart_refl (p : Part) (s : State) : samePart p s s := ⟨by cases p <;> first | rfl | trivial, fun _ => sameLane_refl _ _⟩

theorem samePart_trans {p : Part} {s t u : State} (h : samePart p s t) (k : samePart p t u) : samePart p s u := by
  refine ⟨?_, fun l => sameLane_trans (h.2 l) (k.2 l)⟩
  have h := h.1
  have k := k.1
  cases p <;> first
    | trivial
    | exact log_trans h k
    | exact Eq.trans k h

theorem changesOnly_refl (ps : List Part) (s : State) : changesOnly ps s s := fun _ _ => samePart_refl _ _

variable {ps : List Part} {z s : State}

/-- One more operation within the list. -/
theorem changes_step {qs : List Part} {t : State} (hq : within qs ps = true) (h : changesOnly qs s t) (hk : changesOnly ps z s) :
    changesOnly ps z t := fun p hp => samePart_trans (hk p hp) (h p (within_out hq hp))

/-- What a change of one lane's data leaves. -/
def laneOnly (ps : List Part) (a b : LaneState) : Prop := ∀ p, ps.contains p = false → sameLane p a b

theorem laneOnly_refl (ps : List Part) (a : LaneState) : laneOnly ps a a := fun _ _ => sameLane_refl _ _

theorem laneOnly_step {qs : List Part} {a b c : LaneState} (hq : within qs ps = true) (h : laneOnly qs b c) (hk : laneOnly ps a b) :
    laneOnly ps a c := fun p hp => sameLane_trans (hk p hp) (h p (within_out hq hp))

theorem laneOnly_fold {ps : List Part} {β : Type} {a L : LaneState} (xs : List β) (f : LaneState → β → LaneState)
    (hf : ∀ M x, laneOnly ps a M → laneOnly ps a (f M x)) (h : laneOnly ps a L) : laneOnly ps a (xs.foldl f L) := by
  induction xs generalizing L with
  | nil => exact h
  | cons x xs ih => exact ih (hf _ _ h)

theorem changes_modLane (l : Lane) (f : LaneState → LaneState) (hf : laneOnly ps (lane s l) (f (lane s l)))
    (hk : changesOnly ps z s) : changesOnly ps z (modLane s l f) := fun p hp => by
  refine samePart_trans (hk p hp) ⟨by cases p <;> first | rfl | trivial, fun m => ?_⟩
  rw [lane_modLane]
  split
  · next e => subst e; exact hf p hp
  · exact sameLane_refl _ _

theorem changes_modLanes (f : Lane → LaneState → LaneState) (hf : ∀ l, laneOnly ps (lane s l) (f l (lane s l)))
    (hk : changesOnly ps z s) : changesOnly ps z (modLanes s f) := fun p hp => by
  refine samePart_trans (hk p hp) ⟨by cases p <;> first | rfl | trivial, fun m => ?_⟩
  rw [lane_modLanes]
  exact hf m p hp

/-- An update outside the lanes. -/
theorem changes_module {t : State} (hl : t.lanes = s.lanes) (h : ∀ p, ps.contains p = false → sameModule p s t)
    (hk : changesOnly ps z s) : changesOnly ps z t := fun p hp => by
  refine samePart_trans (hk p hp) ⟨h p hp, fun m => ?_⟩
  unfold lane
  rw [hl]
  exact sameLane_refl _ _

/-- An update outside the lanes and outside the Sluices, the Cellar and the queue. -/
theorem changes_withRest (m : Machine.Module) (a : Alk) (f : Field) (p : PerPort PortState) (w : Twin) (o : List HostWrite) (b : Word)
    (n : Nat) (h : ∀ q, ps.contains q = false → sameModule q s (withRest s m a f p w o b n)) (hk : changesOnly ps z s) :
    changesOnly ps z (withRest s m a f p w o b n) := changes_module (s := s) rfl h hk

theorem changes_withCellar (m : Machine.Module) (a : Alk) (f : Field) (p : PerPort PortState) (w : Twin) (o : List HostWrite) (b : Word)
    (n : Nat) (x : Cellar) (h : ∀ q, ps.contains q = false → sameModule q s (withCellar s m a f p w o b n x))
    (hk : changesOnly ps z s) : changesOnly ps z (withCellar s m a f p w o b n x) :=
  changes_module (s := s) rfl h hk

theorem changes_modSluice (l : Lane) (f : Sluice → Sluice) (hp : ps.contains .sluices = true) (hk : changesOnly ps z s) :
    changesOnly ps z (modSluice s l f) :=
  changes_module (s := s) rfl (fun p h => by cases p <;> first | trivial | rfl | (rw [hp] at h; cases h)) hk

theorem changes_modSluices (f : Lane → Sluice → Sluice) (hp : ps.contains .sluices = true) (hk : changesOnly ps z s) :
    changesOnly ps z (modSluices s f) :=
  changes_module (s := s) rfl (fun p h => by cases p <;> first | trivial | rfl | (rw [hp] at h; cases h)) hk

theorem changes_modPort (q : Port) (f : PortState → PortState) (hp : ps.contains .ports = true) (hk : changesOnly ps z s) :
    changesOnly ps z (modPort s q f) :=
  changes_module (s := s) rfl (fun p h => by cases p <;> first | trivial | rfl | (rw [hp] at h; cases h)) hk

theorem changes_modLife (f : Lifetime → Lifetime) (hp : ps.contains .lifetime = true) (hk : changesOnly ps z s) :
    changesOnly ps z (modLife s f) :=
  changes_module (s := s) rfl (fun p h => by cases p <;> first | trivial | rfl | (rw [hp] at h; cases h)) hk

theorem changes_modPages (qs : List Nat) (f : Lifetime → Lifetime) (hp : ps.contains .lifetime = true) (hq : ps.contains .log = true)
    (hk : changesOnly ps z s) : changesOnly ps z (modPages s qs f) :=
  changes_module (s := s) rfl
    (fun p h => by cases p <;> first | trivial | rfl | (rw [hp] at h; cases h) | (rw [hq] at h; cases h)) hk

theorem changes_foldS {α : Type} (xs : List α) (f : State → α → State) (hf : ∀ t x, changesOnly ps z t → changesOnly ps z (f t x))
    (h : changesOnly ps z s) : changesOnly ps z (foldS xs f s) := by
  unfold foldS
  induction xs generalizing s with
  | nil => exact h
  | cons a xs ih => exact ih (hf _ _ h)

theorem changes_whenS (b : Bool) (f : State → State) (hf : ∀ t, changesOnly ps z t → changesOnly ps z (f t))
    (h : changesOnly ps z s) : changesOnly ps z (whenS b f s) := by
  unfold whenS; split
  · exact hf _ h
  · exact h

end Sys2Proof.Laws
end

