-- ==== Sys2Proof/Laws/ChangesBase.lean ====
section
/-!
SUPPORT. The parts of the state that every operation of lanes, events, records, checks and the Press may change (Safety.changesOnly), one lemma for each operation
and for each command.
-/

namespace Sys2Proof.Laws

open Sys2Proof.Machine Sys2Proof.Safety

theorem chg_answer {ps : List Part} {z : State} (s : State) (v : Word) (hw : within [.bus] ps = true) (hk : changesOnly ps z s) :
    changesOnly ps z (answer s v) := by
  refine changes_step hw ?_ hk
  clear hk
  unfold answer
  try dsimp only
  repeat' first
    | with_reducible exact changesOnly_refl _ _
    | (rw [mk_withRest]; with_reducible apply changes_withRest)
    | (show ∀ q, _ → sameModule q _ _; intro p hp; (cases p <;> first | exact Bool.noConfusion (show true = false from hp) | exact trivial | rfl | exact ⟨rfl, rfl⟩ | exact ⟨rfl, rfl, rfl⟩))

theorem chg_noAnswer {ps : List Part} {z : State} (s : State) (hw : within [.bus] ps = true) (hk : changesOnly ps z s) :
    changesOnly ps z (noAnswer s) := by
  refine changes_step hw ?_ hk
  clear hk
  unfold noAnswer
  try dsimp only
  repeat' first
    | with_reducible exact changesOnly_refl _ _
    | with_reducible apply chg_answer
    | (show within _ _ = true; decide)

theorem chg_sendVector {ps : List Part} {z : State} (s : State) (p : Port) (v : Nat) (hw : within [.ports] ps = true) (hk : changesOnly ps z s) :
    changesOnly ps z (sendVector s p v) := by
  refine changes_step hw ?_ hk
  clear hk
  unfold sendVector
  try dsimp only
  repeat' first
    | with_reducible exact changesOnly_refl _ _
    | with_reducible apply changes_modPort
    | (show List.contains _ _ = true; decide)
    | (show ∀ q, _ → sameModule q _ _; intro p hp; (cases p <;> first | exact Bool.noConfusion (show true = false from hp) | exact trivial | rfl | exact ⟨rfl, rfl⟩ | exact ⟨rfl, rfl, rfl⟩))
    | split

theorem chg_eicMessage {ps : List Part} {z : State} (s : State) (x : EicSrc) (before after : Option EicTarget) (hw : within [.ports] ps = true) (hk : changesOnly ps z s) :
    changesOnly ps z (eicMessage s x before after) := by
  refine changes_step hw ?_ hk
  clear hk
  unfold eicMessage
  try dsimp only
  repeat' first
    | with_reducible exact changesOnly_refl _ _
    | with_reducible apply chg_sendVector
    | (show within _ _ = true; decide)
    | (show ∀ q, _ → sameModule q _ _; intro p hp; (cases p <;> first | exact Bool.noConfusion (show true = false from hp) | exact trivial | rfl | exact ⟨rfl, rfl⟩ | exact ⟨rfl, rfl, rfl⟩))
    | with_reducible apply changes_modPort
    | (show List.contains _ _ = true; decide)
    | split

theorem chg_eicSettle {ps : List Part} {z : State} (s : State) (l : Lane) (n : Nat) (e' : Eic) (hw : within [.eic, .ports] ps = true) (hk : changesOnly ps z s) :
    changesOnly ps z (eicSettle s l n e') := by
  refine changes_step hw ?_ hk
  clear hk
  unfold eicSettle
  try dsimp only
  repeat' first
    | with_reducible exact changesOnly_refl _ _
    | with_reducible apply chg_eicMessage
    | with_reducible apply changes_modLane
    | (show within _ _ = true; decide)
    | (show laneOnly _ _ _; intro p hp; (cases p <;> first | exact Bool.noConfusion (show true = false from hp) | exact trivial | rfl | exact ⟨rfl, rfl⟩ | exact ⟨rfl, rfl, rfl⟩))

theorem chg_eicUpd {ps : List Part} {z : State} (s : State) (l : Lane) (n : Nat) (f : EicSrc → EicSrc) (hw : within [.eic, .ports] ps = true) (hk : changesOnly ps z s) :
    changesOnly ps z (eicUpd s l n f) := by
  refine changes_step hw ?_ hk
  clear hk
  unfold eicUpd
  try dsimp only
  repeat' first
    | with_reducible exact changesOnly_refl _ _
    | with_reducible apply chg_eicSettle
    | (show within _ _ = true; decide)
    | split

theorem chg_eicRaise {ps : List Part} {z : State} (s : State) (l : Lane) (n : Nat) (hw : within [.eic, .ports] ps = true) (hk : changesOnly ps z s) :
    changesOnly ps z (eicRaise s l n) := by
  refine changes_step hw ?_ hk
  clear hk
  unfold eicRaise
  try dsimp only
  repeat' first
    | with_reducible exact changesOnly_refl _ _
    | with_reducible apply chg_eicUpd
    | (show within _ _ = true; decide)
    | split

theorem chg_eicLevel {ps : List Part} {z : State} (s : State) (l : Lane) (n : Nat) (v : Bool) (hw : within [.eic, .ports] ps = true) (hk : changesOnly ps z s) :
    changesOnly ps z (eicLevel s l n v) := by
  refine changes_step hw ?_ hk
  clear hk
  unfold eicLevel
  try dsimp only
  repeat' first
    | with_reducible exact changesOnly_refl _ _
    | with_reducible apply chg_eicUpd
    | (show within _ _ = true; decide)
    | split

theorem chg_eicRaiseAll {ps : List Part} {z : State} (s : State) (n : Nat) (hw : within [.eic, .ports] ps = true) (hk : changesOnly ps z s) :
    changesOnly ps z (eicRaiseAll s n) := by
  refine changes_step hw ?_ hk
  clear hk
  unfold eicRaiseAll
  try dsimp only
  repeat' first
    | with_reducible assumption
    | with_reducible exact changesOnly_refl _ _
    | with_reducible apply chg_eicRaise
    | with_reducible apply changes_foldS
    | (show within _ _ = true; decide)
    | (with_reducible intro t x hk)

theorem chg_eicLevelAll {ps : List Part} {z : State} (s : State) (n : Nat) (v : Bool) (hw : within [.eic, .ports] ps = true) (hk : changesOnly ps z s) :
    changesOnly ps z (eicLevelAll s n v) := by
  refine changes_step hw ?_ hk
  clear hk
  unfold eicLevelAll
  try dsimp only
  repeat' first
    | with_reducible assumption
    | with_reducible exact changesOnly_refl _ _
    | with_reducible apply chg_eicLevel
    | with_reducible apply changes_foldS
    | (show within _ _ = true; decide)
    | (with_reducible intro t x hk)

theorem chg_eicSettleAll {ps : List Part} {z : State} (s : State) (l : Lane) (e' : Eic) (hw : within [.eic, .ports] ps = true) (hk : changesOnly ps z s) :
    changesOnly ps z (eicSettleAll s l e') := by
  refine changes_step hw ?_ hk
  clear hk
  unfold eicSettleAll
  try dsimp only
  repeat' first
    | with_reducible assumption
    | with_reducible exact changesOnly_refl _ _
    | with_reducible apply chg_eicMessage
    | with_reducible apply changes_modLane
    | with_reducible apply changes_foldS
    | (show within _ _ = true; decide)
    | (show laneOnly _ _ _; intro p hp; (cases p <;> first | exact Bool.noConfusion (show true = false from hp) | exact trivial | rfl | exact ⟨rfl, rfl⟩ | exact ⟨rfl, rfl, rfl⟩))
    | (with_reducible intro t x hk)

theorem chg_execEventArrival {ps : List Part} {z : State} (l : Lane) (source : Fin 1024) (s : State) (q0 : State) (hw : within [.eic, .ports] ps = true) (hk : changesOnly ps z s) :
    changesOnly ps z (thenState q0 (execEventArrival l source s)) := by
  refine changes_step hw ?_ hk
  clear hk
  unfold execEventArrival
  dsimp only [thenState]
  repeat' first
    | with_reducible exact changesOnly_refl _ _
    | with_reducible apply chg_eicRaise
    | (show within _ _ = true; decide)
    | split

theorem chg_execFallbackMove {ps : List Part} {z : State} (l : Lane) (p : Port) (s : State) (q0 : State) (hw : within [.eic, .ports] ps = true) (hk : changesOnly ps z s) :
    changesOnly ps z (thenState q0 (execFallbackMove l p s)) := by
  refine changes_step hw ?_ hk
  clear hk
  unfold execFallbackMove
  dsimp only [thenState]
  repeat' first
    | with_reducible exact changesOnly_refl _ _
    | with_reducible apply chg_eicSettleAll
    | (show within _ _ = true; decide)
    | split

theorem chg_countAccess {ps : List Part} {z : State} (s : State) (a : RegAccess) (hw : within [.ports] ps = true) (hk : changesOnly ps z s) :
    changesOnly ps z (countAccess s a) := by
  refine changes_step hw ?_ hk
  clear hk
  unfold countAccess
  try dsimp only
  repeat' first
    | with_reducible exact changesOnly_refl _ _
    | with_reducible apply changes_modPort
    | (show List.contains _ _ = true; decide)
    | split

theorem chg_countClaim {ps : List Part} {z : State} (s : State) (a : RegAccess) (t : EicTarget) (hw : within [.ports] ps = true) (hk : changesOnly ps z s) :
    changesOnly ps z (countClaim s a t) := by
  refine changes_step hw ?_ hk
  clear hk
  unfold countClaim
  try dsimp only
  repeat' first
    | with_reducible exact changesOnly_refl _ _
    | with_reducible apply chg_countAccess
    | (rw [mk_withRest]; with_reducible apply changes_withRest)
    | (show within _ _ = true; decide)
    | (show ∀ q, _ → sameModule q _ _; intro p hp; (cases p <;> first | exact Bool.noConfusion (show true = false from hp) | exact trivial | rfl | exact ⟨rfl, rfl⟩ | exact ⟨rfl, rfl, rfl⟩))
    | split

theorem chg_execEicClaim {ps : List Part} {z : State} (a : RegAccess) (t : EicTarget) (s : State) (q0 : State) (hw : within [.eic, .ports, .bus] ps = true) (hk : changesOnly ps z s) :
    changesOnly ps z (thenState q0 (execEicClaim a t s)) := by
  refine changes_step hw ?_ hk
  clear hk
  unfold execEicClaim
  dsimp only [thenState]
  repeat' first
    | with_reducible exact changesOnly_refl _ _
    | with_reducible apply chg_answer
    | with_reducible apply chg_noAnswer
    | with_reducible apply chg_eicUpd
    | with_reducible apply chg_countClaim
    | (rw [mk_withRest]; with_reducible apply changes_withRest)
    | (show within _ _ = true; decide)
    | (show ∀ q, _ → sameModule q _ _; intro p hp; (cases p <;> first | exact Bool.noConfusion (show true = false from hp) | exact trivial | rfl | exact ⟨rfl, rfl⟩ | exact ⟨rfl, rfl, rfl⟩))
    | split

theorem chg_execEicComplete {ps : List Part} {z : State} (a : RegAccess) (t : EicTarget) (value : Word) (s : State) (q0 : State) (hw : within [.eic, .ports] ps = true) (hk : changesOnly ps z s) :
    changesOnly ps z (thenState q0 (execEicComplete a t value s)) := by
  refine changes_step hw ?_ hk
  clear hk
  unfold execEicComplete
  dsimp only [thenState]
  repeat' first
    | with_reducible exact changesOnly_refl _ _
    | with_reducible apply chg_eicUpd
    | with_reducible apply changes_modLane
    | (show within _ _ = true; decide)
    | (show laneOnly _ _ _; intro p hp; (cases p <;> first | exact Bool.noConfusion (show true = false from hp) | exact trivial | rfl | exact ⟨rfl, rfl⟩ | exact ⟨rfl, rfl, rfl⟩))
    | split

theorem chg_eicBitmap {ps : List Part} {z : State} (a : RegAccess) (n : Fin 32) (value : Word) (f : EicSrc → EicSrc) (s : State) (hw : within [.eic, .ports] ps = true) (hk : changesOnly ps z s) :
    changesOnly ps z (eicBitmap a n value f s) := by
  refine changes_step hw ?_ hk
  clear hk
  unfold eicBitmap
  try dsimp only
  repeat' first
    | with_reducible assumption
    | with_reducible exact changesOnly_refl _ _
    | with_reducible apply chg_eicUpd
    | with_reducible apply changes_foldS
    | (show within _ _ = true; decide)
    | (with_reducible intro t x hk)
    | split

theorem chg_execEicEnableSet {ps : List Part} {z : State} (a : RegAccess) (n : Fin 32) (value : Word) (s : State) (q0 : State) (hw : within [.eic, .ports] ps = true) (hk : changesOnly ps z s) :
    changesOnly ps z (thenState q0 (execEicEnableSet a n value s)) := by
  refine changes_step hw ?_ hk
  clear hk
  unfold execEicEnableSet
  dsimp only [thenState]
  repeat' first
    | with_reducible exact changesOnly_refl _ _
    | with_reducible apply chg_eicBitmap
    | (show within _ _ = true; decide)

theorem chg_execEicEnableClr {ps : List Part} {z : State} (a : RegAccess) (n : Fin 32) (value : Word) (s : State) (q0 : State) (hw : within [.eic, .ports] ps = true) (hk : changesOnly ps z s) :
    changesOnly ps z (thenState q0 (execEicEnableClr a n value s)) := by
  refine changes_step hw ?_ hk
  clear hk
  unfold execEicEnableClr
  dsimp only [thenState]
  repeat' first
    | with_reducible exact changesOnly_refl _ _
    | with_reducible apply chg_eicBitmap
    | (show within _ _ = true; decide)

theorem chg_execEicPendingSet {ps : List Part} {z : State} (a : RegAccess) (n : Fin 32) (value : Word) (s : State) (q0 : State) (hw : within [.eic, .ports] ps = true) (hk : changesOnly ps z s) :
    changesOnly ps z (thenState q0 (execEicPendingSet a n value s)) := by
  refine changes_step hw ?_ hk
  clear hk
  unfold execEicPendingSet
  dsimp only [thenState]
  repeat' first
    | with_reducible exact changesOnly_refl _ _
    | with_reducible apply chg_eicBitmap
    | (show within _ _ = true; decide)

theorem chg_execEicPendingClr {ps : List Part} {z : State} (a : RegAccess) (n : Fin 32) (value : Word) (s : State) (q0 : State) (hw : within [.eic, .ports] ps = true) (hk : changesOnly ps z s) :
    changesOnly ps z (thenState q0 (execEicPendingClr a n value s)) := by
  refine changes_step hw ?_ hk
  clear hk
  unfold execEicPendingClr
  dsimp only [thenState]
  repeat' first
    | with_reducible exact changesOnly_refl _ _
    | with_reducible apply chg_eicBitmap
    | (show within _ _ = true; decide)

theorem chg_execEicTargetH0Set {ps : List Part} {z : State} (a : RegAccess) (n : Fin 32) (value : Word) (s : State) (q0 : State) (hw : within [.eic, .ports] ps = true) (hk : changesOnly ps z s) :
    changesOnly ps z (thenState q0 (execEicTargetH0Set a n value s)) := by
  refine changes_step hw ?_ hk
  clear hk
  unfold execEicTargetH0Set
  dsimp only [thenState]
  repeat' first
    | with_reducible exact changesOnly_refl _ _
    | with_reducible apply chg_eicBitmap
    | (show within _ _ = true; decide)

theorem chg_execEicTargetH0Clr {ps : List Part} {z : State} (a : RegAccess) (n : Fin 32) (value : Word) (s : State) (q0 : State) (hw : within [.eic, .ports] ps = true) (hk : changesOnly ps z s) :
    changesOnly ps z (thenState q0 (execEicTargetH0Clr a n value s)) := by
  refine changes_step hw ?_ hk
  clear hk
  unfold execEicTargetH0Clr
  dsimp only [thenState]
  repeat' first
    | with_reducible exact changesOnly_refl _ _
    | with_reducible apply chg_eicBitmap
    | (show within _ _ = true; decide)

theorem chg_execEicTargetH1Set {ps : List Part} {z : State} (a : RegAccess) (n : Fin 32) (value : Word) (s : State) (q0 : State) (hw : within [.eic, .ports] ps = true) (hk : changesOnly ps z s) :
    changesOnly ps z (thenState q0 (execEicTargetH1Set a n value s)) := by
  refine changes_step hw ?_ hk
  clear hk
  unfold execEicTargetH1Set
  dsimp only [thenState]
  repeat' first
    | with_reducible exact changesOnly_refl _ _
    | with_reducible apply chg_eicBitmap
    | (show within _ _ = true; decide)

theorem chg_execEicTargetH1Clr {ps : List Part} {z : State} (a : RegAccess) (n : Fin 32) (value : Word) (s : State) (q0 : State) (hw : within [.eic, .ports] ps = true) (hk : changesOnly ps z s) :
    changesOnly ps z (thenState q0 (execEicTargetH1Clr a n value s)) := by
  refine changes_step hw ?_ hk
  clear hk
  unfold execEicTargetH1Clr
  dsimp only [thenState]
  repeat' first
    | with_reducible exact changesOnly_refl _ _
    | with_reducible apply chg_eicBitmap
    | (show within _ _ = true; decide)

theorem chg_execEicCompatPend {ps : List Part} {z : State} (a : RegAccess) (n : Fin 32) (value : Word) (s : State) (q0 : State) (hw : within [.eic, .ports] ps = true) (hk : changesOnly ps z s) :
    changesOnly ps z (thenState q0 (execEicCompatPend a n value s)) := by
  refine changes_step hw ?_ hk
  clear hk
  unfold execEicCompatPend
  dsimp only [thenState]
  repeat' first
    | with_reducible exact changesOnly_refl _ _
    | with_reducible apply chg_eicBitmap
    | (show within _ _ = true; decide)

theorem chg_execEicOvfClr {ps : List Part} {z : State} (a : RegAccess) (n : Fin 32) (value : Word) (s : State) (q0 : State) (hw : within [.eic, .ports] ps = true) (hk : changesOnly ps z s) :
    changesOnly ps z (thenState q0 (execEicOvfClr a n value s)) := by
  refine changes_step hw ?_ hk
  clear hk
  unfold execEicOvfClr
  dsimp only [thenState]
  repeat' first
    | with_reducible exact changesOnly_refl _ _
    | with_reducible apply chg_eicBitmap
    | (show within _ _ = true; decide)

theorem chg_countLost {ps : List Part} {z : State} (s : State) (l : Lane) (n : Nat) (hw : within [.staging] ps = true) (hk : changesOnly ps z s) :
    changesOnly ps z (countLost s l n) := by
  refine changes_step hw ?_ hk
  clear hk
  unfold countLost
  try dsimp only
  repeat' first
    | with_reducible exact changesOnly_refl _ _
    | with_reducible apply changes_modLane
    | (show laneOnly _ _ _; intro p hp; (cases p <;> first | exact Bool.noConfusion (show true = false from hp) | exact trivial | rfl | exact ⟨rfl, rfl⟩ | exact ⟨rfl, rfl, rfl⟩))

theorem changes_logPut {ps : List Part} {z s : State} (r : Record) (hp : ps.contains .log = true) (hk : changesOnly ps z s) :
    changesOnly ps z { s with cellar := logPut s.cellar r } := by
  refine changes_module (s := s) rfl (fun p h => ?_) hk
  have e : (logPut s.cellar r).life = s.cellar.life := by unfold logPut; (repeat' split) <;> rfl
  cases p <;> first | exact trivial | rfl | exact e | (rw [hp] at h; cases h)

theorem chg_writeRecord {ps : List Part} {z : State} (s : State) (l : Lane) (r : Record) (hw : within [.staging, .log] ps = true)
    (hk : changesOnly ps z s) : changesOnly ps z (writeRecord s l r) := by
  refine changes_step hw (?_ : changesOnly [.staging, .log] s (writeRecord s l r)) hk
  have hk := changesOnly_refl [.staging, .log] s
  unfold writeRecord
  split
  · exact chg_countLost _ _ _ rfl hk
  · exact changes_logPut _ rfl hk

theorem chg_stageRecord {ps : List Part} {z : State} (s : State) (l : Lane) (r : Record) (summary : Bool) (hw : within [.staging] ps = true) (hk : changesOnly ps z s) :
    changesOnly ps z (stageRecord s l r summary) := by
  refine changes_step hw ?_ hk
  clear hk
  unfold stageRecord
  try dsimp only
  repeat' first
    | with_reducible exact changesOnly_refl _ _
    | with_reducible apply changes_modLane
    | (rw [mk_withRest]; with_reducible apply changes_withRest)
    | (show laneOnly _ _ _; intro p hp; (cases p <;> first | exact Bool.noConfusion (show true = false from hp) | exact trivial | rfl | exact ⟨rfl, rfl⟩ | exact ⟨rfl, rfl, rfl⟩))
    | (show laneOnly _ _ _; intro p hp; ((repeat' split) <;> cases p <;> first | exact Bool.noConfusion (show true = false from hp) | exact trivial | rfl | exact ⟨rfl, rfl⟩ | exact ⟨rfl, rfl, rfl⟩))
    | (show ∀ q, _ → sameModule q _ _; intro p hp; (cases p <;> first | exact Bool.noConfusion (show true = false from hp) | exact trivial | rfl | exact ⟨rfl, rfl⟩ | exact ⟨rfl, rfl, rfl⟩))
    | split

theorem chg_throughRecord {ps : List Part} {z : State} (s : State) (l : Lane) (r : Record) (hw : within [.staging, .log] ps = true) (hk : changesOnly ps z s) :
    changesOnly ps z (throughRecord s l r) := by
  refine changes_step hw ?_ hk
  clear hk
  unfold throughRecord
  try dsimp only
  repeat' first
    | with_reducible exact changesOnly_refl _ _
    | with_reducible apply chg_writeRecord
    | with_reducible apply changes_modLane
    | (rw [mk_withRest]; with_reducible apply changes_withRest)
    | (show within _ _ = true; decide)
    | (show laneOnly _ _ _; intro p hp; (cases p <;> first | exact Bool.noConfusion (show true = false from hp) | exact trivial | rfl | exact ⟨rfl, rfl⟩ | exact ⟨rfl, rfl, rfl⟩))
    | (show laneOnly _ _ _; intro p hp; ((repeat' split) <;> cases p <;> first | exact Bool.noConfusion (show true = false from hp) | exact trivial | rfl | exact ⟨rfl, rfl⟩ | exact ⟨rfl, rfl, rfl⟩))
    | (show ∀ q, _ → sameModule q _ _; intro p hp; (cases p <;> first | exact Bool.noConfusion (show true = false from hp) | exact trivial | rfl | exact ⟨rfl, rfl⟩ | exact ⟨rfl, rfl, rfl⟩))
    | split

theorem chg_putRecord {ps : List Part} {z : State} (s : State) (l : Lane) (r : Record) (summary : Bool) (hw : within [.staging, .log] ps = true) (hk : changesOnly ps z s) :
    changesOnly ps z (putRecord s l r summary) := by
  refine changes_step hw ?_ hk
  clear hk
  unfold putRecord
  try dsimp only
  repeat' first
    | with_reducible exact changesOnly_refl _ _
    | with_reducible apply chg_countLost
    | with_reducible apply chg_throughRecord
    | with_reducible apply chg_stageRecord
    | (show within _ _ = true; decide)
    | (show ∀ q, _ → sameModule q _ _; intro p hp; (cases p <;> first | exact Bool.noConfusion (show true = false from hp) | exact trivial | rfl | exact ⟨rfl, rfl⟩ | exact ⟨rfl, rfl, rfl⟩))
    | split

theorem chg_suppress {ps : List Part} {z : State} (s : State) (l : Lane) (code : Nat) (hw : within [.eic, .staging, .ports] ps = true) (hk : changesOnly ps z s) :
    changesOnly ps z (suppress s l code) := by
  refine changes_step hw ?_ hk
  clear hk
  unfold suppress
  try dsimp only
  repeat' first
    | with_reducible exact changesOnly_refl _ _
    | with_reducible apply chg_eicRaise
    | with_reducible apply changes_modLane
    | (rw [mk_withRest]; with_reducible apply changes_withRest)
    | (show within _ _ = true; decide)
    | (show laneOnly _ _ _; intro p hp; (cases p <;> first | exact Bool.noConfusion (show true = false from hp) | exact trivial | rfl | exact ⟨rfl, rfl⟩ | exact ⟨rfl, rfl, rfl⟩))
    | (show laneOnly _ _ _; intro p hp; ((repeat' split) <;> cases p <;> first | exact Bool.noConfusion (show true = false from hp) | exact trivial | rfl | exact ⟨rfl, rfl⟩ | exact ⟨rfl, rfl, rfl⟩))
    | (show ∀ q, _ → sameModule q _ _; intro p hp; (cases p <;> first | exact Bool.noConfusion (show true = false from hp) | exact trivial | rfl | exact ⟨rfl, rfl⟩ | exact ⟨rfl, rfl, rfl⟩))
    | split

theorem chg_recordOne {ps : List Part} {z : State} (s : State) (l : Lane) (code : Nat) (module : Bool) (payload : List Byte) (hw : within [.eic, .staging, .ports, .log] ps = true) (hk : changesOnly ps z s) :
    changesOnly ps z (recordOne s l code module payload) := by
  refine changes_step hw ?_ hk
  clear hk
  unfold recordOne
  try dsimp only
  repeat' first
    | with_reducible exact changesOnly_refl _ _
    | with_reducible apply chg_putRecord
    | with_reducible apply chg_suppress
    | with_reducible apply changes_modLane
    | (show within _ _ = true; decide)
    | (show laneOnly _ _ _; intro p hp; (cases p <;> first | exact Bool.noConfusion (show true = false from hp) | exact trivial | rfl | exact ⟨rfl, rfl⟩ | exact ⟨rfl, rfl, rfl⟩))
    | split

theorem chg_recordLane {ps : List Part} {z : State} (s : State) (l : Lane) (code : Nat) (payload : List Byte) (hw : within [.eic, .staging, .ports, .log] ps = true) (hk : changesOnly ps z s) :
    changesOnly ps z (recordLane s l code payload) := by
  refine changes_step hw ?_ hk
  clear hk
  unfold recordLane
  try dsimp only
  repeat' first
    | with_reducible exact changesOnly_refl _ _
    | with_reducible apply chg_recordOne
    | (show within _ _ = true; decide)

theorem chg_recordAll {ps : List Part} {z : State} (s : State) (code : Nat) (payload : List Byte) (hw : within [.eic, .staging, .ports, .log] ps = true) (hk : changesOnly ps z s) :
    changesOnly ps z (recordAll s code payload) := by
  refine changes_step hw ?_ hk
  clear hk
  unfold recordAll
  try dsimp only
  repeat' first
    | with_reducible assumption
    | with_reducible exact changesOnly_refl _ _
    | with_reducible apply chg_recordOne
    | with_reducible apply changes_foldS
    | (show within _ _ = true; decide)
    | (with_reducible intro t x hk)

theorem chg_eventAll {ps : List Part} {z : State} (s : State) (src code : Nat) (payload : List Byte) (hw : within [.eic, .staging, .ports, .log] ps = true) (hk : changesOnly ps z s) :
    changesOnly ps z (eventAll s src code payload) := by
  refine changes_step hw ?_ hk
  clear hk
  unfold eventAll
  try dsimp only
  repeat' first
    | with_reducible exact changesOnly_refl _ _
    | with_reducible apply chg_recordAll
    | with_reducible apply chg_eicRaiseAll
    | (show within _ _ = true; decide)

theorem chg_eventLane {ps : List Part} {z : State} (s : State) (l : Lane) (src code : Nat) (payload : List Byte) (hw : within [.eic, .staging, .ports, .log] ps = true) (hk : changesOnly ps z s) :
    changesOnly ps z (eventLane s l src code payload) := by
  refine changes_step hw ?_ hk
  clear hk
  unfold eventLane
  try dsimp only
  repeat' first
    | with_reducible exact changesOnly_refl _ _
    | with_reducible apply chg_recordLane
    | with_reducible apply chg_eicRaise
    | (show within _ _ = true; decide)

theorem chg_mirrorFault {ps : List Part} {z : State} (s : State) (l : Lane) (dev off : Nat) (hw : within [.eic, .staging, .ports, .log, .free] ps = true) (hk : changesOnly ps z s) :
    changesOnly ps z (mirrorFault s l dev off) := by
  refine changes_step hw ?_ hk
  clear hk
  unfold mirrorFault
  try dsimp only
  repeat' first
    | with_reducible exact changesOnly_refl _ _
    | with_reducible apply chg_eventLane
    | (rw [mk_withRest]; with_reducible apply changes_withRest)
    | (show within _ _ = true; decide)
    | (show ∀ q, _ → sameModule q _ _; intro p hp; (cases p <;> first | exact Bool.noConfusion (show true = false from hp) | exact trivial | rfl | exact ⟨rfl, rfl⟩ | exact ⟨rfl, rfl, rfl⟩))
    | split

theorem chg_devError {ps : List Part} {z : State} (s : State) (l : Lane) (dev n : Nat) (hw : within [.staging] ps = true) (hk : changesOnly ps z s) :
    changesOnly ps z (devError s l dev n) := by
  refine changes_step hw ?_ hk
  clear hk
  unfold devError
  try dsimp only
  repeat' first
    | with_reducible exact changesOnly_refl _ _
    | with_reducible apply changes_modLane
    | (rw [mk_withRest]; with_reducible apply changes_withRest)
    | (show laneOnly _ _ _; intro p hp; (cases p <;> first | exact Bool.noConfusion (show true = false from hp) | exact trivial | rfl | exact ⟨rfl, rfl⟩ | exact ⟨rfl, rfl, rfl⟩))
    | (show laneOnly _ _ _; intro p hp; ((repeat' split) <;> cases p <;> first | exact Bool.noConfusion (show true = false from hp) | exact trivial | rfl | exact ⟨rfl, rfl⟩ | exact ⟨rfl, rfl, rfl⟩))
    | (show ∀ q, _ → sameModule q _ _; intro p hp; (cases p <;> first | exact Bool.noConfusion (show true = false from hp) | exact trivial | rfl | exact ⟨rfl, rfl⟩ | exact ⟨rfl, rfl, rfl⟩))
    | split

theorem chg_failDevice {ps : List Part} {z : State} (s : State) (l : Lane) (dev n off : Nat) (hw : within [.eic, .staging, .ports, .log, .free] ps = true) (hk : changesOnly ps z s) :
    changesOnly ps z (failDevice s l dev n off) := by
  refine changes_step hw ?_ hk
  clear hk
  unfold failDevice
  try dsimp only
  repeat' first
    | with_reducible exact changesOnly_refl _ _
    | with_reducible apply chg_mirrorFault
    | with_reducible apply chg_devError
    | (rw [mk_withCellar]; with_reducible apply changes_withCellar)
    | (rw [mk_withRest]; with_reducible apply changes_withRest)
    | (show within _ _ = true; decide)
    | (show ∀ q, _ → sameModule q _ _; intro p hp; (cases p <;> first | exact Bool.noConfusion (show true = false from hp) | exact trivial | rfl | exact ⟨rfl, rfl⟩ | exact ⟨rfl, rfl, rfl⟩))
    | with_reducible apply changes_modLane
    | (show laneOnly _ _ _; intro p hp; (cases p <;> first | exact Bool.noConfusion (show true = false from hp) | exact trivial | rfl | exact ⟨rfl, rfl⟩ | exact ⟨rfl, rfl, rfl⟩))
    | split

theorem chg_closeWindows {ps : List Part} {z : State} (s : State) (l : Lane) (hw : within [.staging, .log] ps = true) (hk : changesOnly ps z s) :
    changesOnly ps z (closeWindows s l) := by
  refine changes_step hw ?_ hk
  clear hk
  unfold closeWindows
  try dsimp only
  repeat' first
    | with_reducible assumption
    | with_reducible exact changesOnly_refl _ _
    | with_reducible apply chg_putRecord
    | with_reducible apply changes_modLane
    | with_reducible apply changes_foldS
    | (show within _ _ = true; decide)
    | (show laneOnly _ _ _; intro p hp; (cases p <;> first | exact Bool.noConfusion (show true = false from hp) | exact trivial | rfl | exact ⟨rfl, rfl⟩ | exact ⟨rfl, rfl, rfl⟩))
    | (with_reducible intro t x hk)
    | split

theorem chg_closeLost {ps : List Part} {z : State} (s : State) (l : Lane) (hw : within [.staging, .log] ps = true) (hk : changesOnly ps z s) :
    changesOnly ps z (closeLost s l) := by
  refine changes_step hw ?_ hk
  clear hk
  unfold closeLost
  try dsimp only
  repeat' first
    | with_reducible exact changesOnly_refl _ _
    | with_reducible apply chg_putRecord
    | with_reducible apply changes_modLane
    | (show within _ _ = true; decide)
    | (show laneOnly _ _ _; intro p hp; (cases p <;> first | exact Bool.noConfusion (show true = false from hp) | exact trivial | rfl | exact ⟨rfl, rfl⟩ | exact ⟨rfl, rfl, rfl⟩))
    | split

theorem chg_drainStaging {ps : List Part} {z : State} (s : State) (l : Lane) (hw : within [.staging, .log] ps = true) (hk : changesOnly ps z s) :
    changesOnly ps z (drainStaging s l) := by
  refine changes_step hw ?_ hk
  clear hk
  unfold drainStaging
  try dsimp only
  repeat' first
    | with_reducible assumption
    | with_reducible exact changesOnly_refl _ _
    | with_reducible apply chg_writeRecord
    | with_reducible apply changes_foldS
    | with_reducible apply changes_modLane
    | (rw [mk_withRest]; with_reducible apply changes_withRest)
    | (show within _ _ = true; decide)
    | (show laneOnly _ _ _; intro p hp; (cases p <;> first | exact Bool.noConfusion (show true = false from hp) | exact trivial | rfl | exact ⟨rfl, rfl⟩ | exact ⟨rfl, rfl, rfl⟩))
    | (show laneOnly _ _ _; intro p hp; ((repeat' split) <;> cases p <;> first | exact Bool.noConfusion (show true = false from hp) | exact trivial | rfl | exact ⟨rfl, rfl⟩ | exact ⟨rfl, rfl, rfl⟩))
    | (show ∀ q, _ → sameModule q _ _; intro p hp; (cases p <;> first | exact Bool.noConfusion (show true = false from hp) | exact trivial | rfl | exact ⟨rfl, rfl⟩ | exact ⟨rfl, rfl, rfl⟩))
    | (with_reducible intro t x hk)
    | (with_reducible intro t hk)
    | split

theorem chg_keeperPages {ps : List Part} {z : State} (s : State) (hw : within [.lifetime, .log] ps = true) (hk : changesOnly ps z s) :
    changesOnly ps z (keeperPages s) := by
  refine changes_step hw ?_ hk
  clear hk
  unfold keeperPages
  try dsimp only
  repeat' first
    | with_reducible exact changesOnly_refl _ _
    | with_reducible apply changes_modLife
    | (rw [mk_withCellar]; with_reducible apply changes_withCellar)
    | (rw [mk_withRest]; with_reducible apply changes_withRest)
    | (show List.contains _ _ = true; decide)
    | (show ∀ q, _ → sameModule q _ _; intro p hp; (cases p <;> first | exact Bool.noConfusion (show true = false from hp) | exact trivial | rfl | exact ⟨rfl, rfl⟩ | exact ⟨rfl, rfl, rfl⟩))
    | split

theorem chg_flushLane {ps : List Part} {z : State} (s : State) (l : Lane) (t : FlushTrigger) (hw : within [.staging, .lifetime, .log] ps = true) (hk : changesOnly ps z s) :
    changesOnly ps z (flushLane s l t) := by
  refine changes_step hw ?_ hk
  clear hk
  unfold flushLane
  try dsimp only
  repeat' first
    | with_reducible exact changesOnly_refl _ _
    | with_reducible apply chg_closeWindows
    | with_reducible apply chg_closeLost
    | with_reducible apply chg_drainStaging
    | with_reducible apply chg_keeperPages
    | with_reducible apply changes_modLane
    | (rw [mk_withRest]; with_reducible apply changes_withRest)
    | (show within _ _ = true; decide)
    | (show laneOnly _ _ _; intro p hp; (cases p <;> first | exact Bool.noConfusion (show true = false from hp) | exact trivial | rfl | exact ⟨rfl, rfl⟩ | exact ⟨rfl, rfl, rfl⟩))
    | (show laneOnly _ _ _; intro p hp; ((repeat' split) <;> cases p <;> first | exact Bool.noConfusion (show true = false from hp) | exact trivial | rfl | exact ⟨rfl, rfl⟩ | exact ⟨rfl, rfl, rfl⟩))
    | (show ∀ q, _ → sameModule q _ _; intro p hp; (cases p <;> first | exact Bool.noConfusion (show true = false from hp) | exact trivial | rfl | exact ⟨rfl, rfl⟩ | exact ⟨rfl, rfl, rfl⟩))
    | split

theorem chg_readBack {ps : List Part} {z : State} (s : State) (l : Lane) (dev : Nat) (x : ReadBack) (hw : within [.eic, .staging, .ports, .log, .free] ps = true) (hk : changesOnly ps z s) :
    changesOnly ps z (readBack s l dev x) := by
  refine changes_step hw ?_ hk
  clear hk
  unfold readBack
  try dsimp only
  repeat' first
    | with_reducible exact changesOnly_refl _ _
    | with_reducible apply chg_devError
    | with_reducible apply chg_failDevice
    | (show within _ _ = true; decide)
    | (show ∀ q, _ → sameModule q _ _; intro p hp; (cases p <;> first | exact Bool.noConfusion (show true = false from hp) | exact trivial | rfl | exact ⟨rfl, rfl⟩ | exact ⟨rfl, rfl, rfl⟩))
    | split

theorem chg_execFlush {ps : List Part} {z : State} (l : Lane) (trigger : FlushTrigger) (dev0 dev1 : ReadBack) (s : State) (q0 : State) (hw : within [.clock, .eic, .staging, .ports, .lifetime, .log, .free] ps = true) (hk : changesOnly ps z s) :
    changesOnly ps z (thenState q0 (execFlush l trigger dev0 dev1 s)) := by
  refine changes_step hw ?_ hk
  clear hk
  unfold execFlush
  dsimp only [thenState]
  repeat' first
    | with_reducible exact changesOnly_refl _ _
    | with_reducible apply chg_readBack
    | with_reducible apply chg_flushLane
    | with_reducible apply changes_modLane
    | (rw [mk_withRest]; with_reducible apply changes_withRest)
    | (show within _ _ = true; decide)
    | (show laneOnly _ _ _; intro p hp; (cases p <;> first | exact Bool.noConfusion (show true = false from hp) | exact trivial | rfl | exact ⟨rfl, rfl⟩ | exact ⟨rfl, rfl, rfl⟩))
    | (show laneOnly _ _ _; intro p hp; ((repeat' split) <;> cases p <;> first | exact Bool.noConfusion (show true = false from hp) | exact trivial | rfl | exact ⟨rfl, rfl⟩ | exact ⟨rfl, rfl, rfl⟩))
    | (show ∀ q, _ → sameModule q _ _; intro p hp; (cases p <;> first | exact Bool.noConfusion (show true = false from hp) | exact trivial | rfl | exact ⟨rfl, rfl⟩ | exact ⟨rfl, rfl, rfl⟩))
    | split

theorem chg_execCelStagePeak {ps : List Part} {z : State} (a : RegAccess) (s : State) (q0 : State) (hw : within [.staging, .bus] ps = true) (hk : changesOnly ps z s) :
    changesOnly ps z (thenState q0 (execCelStagePeak a s)) := by
  refine changes_step hw ?_ hk
  clear hk
  unfold execCelStagePeak
  dsimp only [thenState]
  repeat' first
    | with_reducible exact changesOnly_refl _ _
    | with_reducible apply chg_answer
    | with_reducible apply chg_noAnswer
    | with_reducible apply changes_modLane
    | (show within _ _ = true; decide)
    | (show laneOnly _ _ _; intro p hp; (cases p <;> first | exact Bool.noConfusion (show true = false from hp) | exact trivial | rfl | exact ⟨rfl, rfl⟩ | exact ⟨rfl, rfl, rfl⟩))
    | split

theorem chg_addHistory {ps : List Part} {z : State} (s : State) (kind lane' value : Nat) (detail : BitVec 64) (detail2 : BitVec 64) (hw : within [.lifetime] ps = true) (hk : changesOnly ps z s) :
    changesOnly ps z (addHistory s kind lane' value detail detail2) := by
  refine changes_step hw ?_ hk
  clear hk
  unfold addHistory
  try dsimp only
  repeat' first
    | with_reducible exact changesOnly_refl _ _
    | with_reducible apply changes_modLife
    | (show List.contains _ _ = true; decide)

theorem chg_setModule {ps : List Part} {z : State} (s : State) (m : ModSt) (hw : within [.mode, .eic, .staging, .ports, .log, .free] ps = true) (hk : changesOnly ps z s) :
    changesOnly ps z (setModule s m) := by
  refine changes_step hw ?_ hk
  clear hk
  unfold setModule
  try dsimp only
  repeat' first
    | with_reducible exact changesOnly_refl _ _
    | with_reducible apply chg_eventAll
    | (rw [mk_withRest]; with_reducible apply changes_withRest)
    | (show within _ _ = true; decide)
    | (show ∀ q, _ → sameModule q _ _; intro p hp; (cases p <;> first | exact Bool.noConfusion (show true = false from hp) | exact trivial | rfl | exact ⟨rfl, rfl⟩ | exact ⟨rfl, rfl, rfl⟩))
    | split

theorem chg_setLatch {ps : List Part} {z : State} (s : State) (l : Lane) (c : LatchCause) (hw : within [.sluices] ps = true) (hk : changesOnly ps z s) :
    changesOnly ps z (setLatch s l c) := by
  refine changes_step hw ?_ hk
  clear hk
  unfold setLatch
  try dsimp only
  repeat' first
    | with_reducible exact changesOnly_refl _ _
    | with_reducible apply changes_modSluice
    | (show List.contains _ _ = true; decide)

theorem chg_setPhase {ps : List Part} {z : State} (s : State) (l : Lane) (ph : BitVec 3) (hw : within [.bist, .ports] ps = true) (hk : changesOnly ps z s) :
    changesOnly ps z (setPhase s l ph) := by
  refine changes_step hw ?_ hk
  clear hk
  unfold setPhase
  try dsimp only
  repeat' first
    | with_reducible exact changesOnly_refl _ _
    | with_reducible apply changes_modLane
    | with_reducible apply changes_modPort
    | (show List.contains _ _ = true; decide)
    | (show laneOnly _ _ _; intro p hp; (cases p <;> first | exact Bool.noConfusion (show true = false from hp) | exact trivial | rfl | exact ⟨rfl, rfl⟩ | exact ⟨rfl, rfl, rfl⟩))
    | split

theorem chg_safeLane {ps : List Part} {z : LaneState} (L : LaneState) (hw : within [.life, .press, .raa, .link] ps = true) (hk : laneOnly ps z L) :
    laneOnly ps z (safeLane L) := by
  refine laneOnly_step hw ?_ hk
  clear hk
  unfold safeLane
  try dsimp only
  repeat' first
    | with_reducible exact laneOnly_refl _ _
    | (show laneOnly _ _ _; intro p hp; (cases p <;> first | exact Bool.noConfusion (show true = false from hp) | exact trivial | rfl | exact ⟨rfl, rfl⟩ | exact ⟨rfl, rfl, rfl⟩))
    | (show laneOnly _ _ _; intro p hp; ((repeat' split) <;> cases p <;> first | exact Bool.noConfusion (show true = false from hp) | exact trivial | rfl | exact ⟨rfl, rfl⟩ | exact ⟨rfl, rfl, rfl⟩))
    | split

theorem chg_laneOut {ps : List Part} {z : LaneState} (L : LaneState) (st : LaneSt) (hw : within [.laneState, .life, .press, .raa, .bank, .link] ps = true) (hk : laneOnly ps z L) :
    laneOnly ps z (laneOut L st) := by
  refine laneOnly_step hw ?_ hk
  clear hk
  unfold laneOut
  try dsimp only
  repeat' first
    | with_reducible exact laneOnly_refl _ _
    | (show laneOnly _ _ _; intro p hp; (cases p <;> first | exact Bool.noConfusion (show true = false from hp) | exact trivial | rfl | exact ⟨rfl, rfl⟩ | exact ⟨rfl, rfl, rfl⟩))
    | (show laneOnly _ _ _; intro p hp; ((repeat' split) <;> cases p <;> first | exact Bool.noConfusion (show true = false from hp) | exact trivial | rfl | exact ⟨rfl, rfl⟩ | exact ⟨rfl, rfl, rfl⟩))
    | split

theorem chg_abortSwitchTests {ps : List Part} {z : State} (s : State) (hw : within [.sluices] ps = true) (hk : changesOnly ps z s) :
    changesOnly ps z (abortSwitchTests s) := by
  refine changes_step hw ?_ hk
  clear hk
  unfold abortSwitchTests
  try dsimp only
  repeat' first
    | with_reducible exact changesOnly_refl _ _
    | with_reducible apply changes_modSluices
    | (show List.contains _ _ = true; decide)

theorem chg_dropLane {ps : List Part} {z : State} (s : State) (l : Lane) (hw : within [.sluices] ps = true) (hk : changesOnly ps z s) :
    changesOnly ps z (dropLane s l) := by
  refine changes_step hw ?_ hk
  clear hk
  unfold dropLane
  try dsimp only
  repeat' first
    | with_reducible exact changesOnly_refl _ _
    | with_reducible apply changes_modSluice
    | with_reducible apply changes_modSluices
    | (show List.contains _ _ = true; decide)

theorem chg_dropPlanned {ps : List Part} {z : State} (s : State) (l : Lane) (hw : within [.staging] ps = true) (hk : changesOnly ps z s) :
    changesOnly ps z (dropPlanned s l) := by
  refine changes_step hw ?_ hk
  clear hk
  unfold dropPlanned
  try dsimp only
  repeat' first
    | with_reducible exact changesOnly_refl _ _
    | with_reducible apply changes_modLanes
    | (rw [mk_withRest]; with_reducible apply changes_withRest)
    | (intro l; show laneOnly _ _ _; intro p hp; ((repeat' split) <;> cases p <;> first | exact Bool.noConfusion (show true = false from hp) | exact trivial | rfl | exact ⟨rfl, rfl⟩ | exact ⟨rfl, rfl, rfl⟩))
    | (show ∀ q, _ → sameModule q _ _; intro p hp; (cases p <;> first | exact Bool.noConfusion (show true = false from hp) | exact trivial | rfl | exact ⟨rfl, rfl⟩ | exact ⟨rfl, rfl, rfl⟩))
    | split

theorem chg_takeNonce {ps : List Part} {z : State} (s : State) (a : Auth) (hw : within [.lifetime, .log] ps = true) (hk : changesOnly ps z s) :
    changesOnly ps z (takeNonce s a) := by
  refine changes_step hw ?_ hk
  clear hk
  unfold takeNonce
  try dsimp only
  repeat' first
    | with_reducible exact changesOnly_refl _ _
    | with_reducible apply changes_modPages
    | (rw [mk_withRest]; with_reducible apply changes_withRest)
    | (show List.contains _ _ = true; decide)
    | (show ∀ q, _ → sameModule q _ _; intro p hp; (cases p <;> first | exact Bool.noConfusion (show true = false from hp) | exact trivial | rfl | exact ⟨rfl, rfl⟩ | exact ⟨rfl, rfl, rfl⟩))
    | (show within _ _ = true; decide)
    | with_reducible apply changes_modLife
    | split

theorem chg_recordMaint {ps : List Part} {z : State} (s : State) (kind item : Nat) (a : Auth) (hw : within [.eic, .staging, .ports, .log] ps = true) (hk : changesOnly ps z s) :
    changesOnly ps z (recordMaint s kind item a) := by
  refine changes_step hw ?_ hk
  clear hk
  unfold recordMaint
  try dsimp only
  repeat' first
    | with_reducible assumption
    | with_reducible exact changesOnly_refl _ _
    | with_reducible apply chg_recordLane
    | with_reducible apply changes_foldS
    | (show within _ _ = true; decide)
    | (with_reducible intro t x hk)

theorem chg_harnal {ps : List Part} {z : State} (s : State) (a : Auth) (kind item : Nat) (f : State → State)
    (hf : ∀ t, changesOnly ps z t → changesOnly ps z (f t)) (hw : within [.eic, .staging, .ports, .lifetime, .log] ps = true) (hk : changesOnly ps z s) :
    changesOnly ps z (harnal s a kind item f) := by
  unfold harnal
  split
  · exact hf _ (chg_recordMaint _ _ _ _ (within_trans (by decide) hw) (chg_takeNonce _ _ (within_trans (by decide) hw) hk))
  · exact hk

theorem chg_modOut {ps : List Part} {z : State} (s : State) (n : Nat) (f : OutRec → OutRec) (hw : within [.field] ps = true) (hk : changesOnly ps z s) :
    changesOnly ps z (modOut s n f) := by
  refine changes_step hw ?_ hk
  clear hk
  unfold modOut
  try dsimp only
  repeat' first
    | with_reducible exact changesOnly_refl _ _
    | (rw [mk_withRest]; with_reducible apply changes_withRest)
    | (show ∀ q, _ → sameModule q _ _; intro p hp; (cases p <;> first | exact Bool.noConfusion (show true = false from hp) | exact trivial | rfl | exact ⟨rfl, rfl⟩ | exact ⟨rfl, rfl, rfl⟩))

theorem chg_retireOut {ps : List Part} {z : State} (s : State) (n : Nat) (f : OutFault) (partner : Nat) (hw : within [.eic, .staging, .field, .ports, .lifetime, .log] ps = true) (hk : changesOnly ps z s) :
    changesOnly ps z (retireOut s n f partner) := by
  refine changes_step hw ?_ hk
  clear hk
  unfold retireOut
  try dsimp only
  repeat' first
    | with_reducible exact changesOnly_refl _ _
    | with_reducible apply chg_eventAll
    | with_reducible apply chg_modOut
    | with_reducible apply changes_modPages
    | (rw [mk_withRest]; with_reducible apply changes_withRest)
    | (show within _ _ = true; decide)
    | (show List.contains _ _ = true; decide)
    | (show ∀ q, _ → sameModule q _ _; intro p hp; (cases p <;> first | exact Bool.noConfusion (show true = false from hp) | exact trivial | rfl | exact ⟨rfl, rfl⟩ | exact ⟨rfl, rfl, rfl⟩))
    | with_reducible apply changes_modLife
    | split

theorem chg_modUser {ps : List Part} {z : LaneState} (L : LaneState) (u : Nat) (f : UserCtx → UserCtx) (hw : within [.chk] ps = true) (hk : laneOnly ps z L) :
    laneOnly ps z (modUser L u f) := by
  refine laneOnly_step hw ?_ hk
  clear hk
  unfold modUser
  try dsimp only
  repeat' first
    | (show laneOnly _ _ _; intro p hp; (cases p <;> first | exact Bool.noConfusion (show true = false from hp) | exact trivial | rfl | exact ⟨rfl, rfl⟩ | exact ⟨rfl, rfl, rfl⟩))

theorem chg_closeUser {ps : List Part} {z : State} (s : State) (l : Lane) (u : Nat) (hw : within [.eic, .chk, .ports] ps = true) (hk : changesOnly ps z s) :
    changesOnly ps z (closeUser s l u) := by
  refine changes_step hw ?_ hk
  clear hk
  unfold closeUser
  try dsimp only
  repeat' first
    | with_reducible exact changesOnly_refl _ _
    | with_reducible apply chg_eicRaise
    | with_reducible apply changes_modLane
    | (show within _ _ = true; decide)
    | with_reducible apply laneOnly_refl
    | with_reducible apply chg_modUser
    | split

theorem chg_feedUsers {ps : List Part} {z : State} (s : State) (l : Lane) (p : Port) (q cls : Nat) (last whole : Bool) (bs : List Byte) (hw : within [.eic, .chk, .ports] ps = true) (hk : changesOnly ps z s) :
    changesOnly ps z (feedUsers s l p q cls last whole bs) := by
  refine changes_step hw ?_ hk
  clear hk
  unfold feedUsers
  try dsimp only
  repeat' first
    | with_reducible assumption
    | with_reducible exact changesOnly_refl _ _
    | with_reducible exact laneOnly_refl _ _
    | with_reducible apply chg_modUser
    | with_reducible apply chg_closeUser
    | (intro l; with_reducible apply chg_modUser)
    | with_reducible apply changes_foldS
    | with_reducible apply changes_modLane
    | (rw [mk_withRest]; with_reducible apply changes_withRest)
    | (show within _ _ = true; decide)
    | (show laneOnly _ _ _; intro p hp; (cases p <;> first | exact Bool.noConfusion (show true = false from hp) | exact trivial | rfl | exact ⟨rfl, rfl⟩ | exact ⟨rfl, rfl, rfl⟩))
    | (show laneOnly _ _ _; intro p hp; ((repeat' split) <;> cases p <;> first | exact Bool.noConfusion (show true = false from hp) | exact trivial | rfl | exact ⟨rfl, rfl⟩ | exact ⟨rfl, rfl, rfl⟩))
    | (show ∀ q, _ → sameModule q _ _; intro p hp; (cases p <;> first | exact Bool.noConfusion (show true = false from hp) | exact trivial | rfl | exact ⟨rfl, rfl⟩ | exact ⟨rfl, rfl, rfl⟩))
    | with_reducible apply laneOnly_refl
    | (with_reducible intro t x hk)
    | (with_reducible intro t hk)
    | split

theorem chg_execChkInit {ps : List Part} {z : State} (a : RegAccess) (u : Fin 64) (s : State) (q0 : State) (hw : within [.chk] ps = true) (hk : changesOnly ps z s) :
    changesOnly ps z (thenState q0 (execChkInit a u s)) := by
  refine changes_step hw ?_ hk
  clear hk
  unfold execChkInit
  dsimp only [thenState]
  repeat' first
    | with_reducible exact changesOnly_refl _ _
    | with_reducible apply changes_modLane
    | (show within _ _ = true; decide)
    | with_reducible apply laneOnly_refl
    | with_reducible apply chg_modUser
    | split

theorem chg_execChkClose {ps : List Part} {z : State} (a : RegAccess) (u : Fin 64) (alsoInit : Bool) (s : State) (q0 : State) (hw : within [.eic, .chk, .ports] ps = true) (hk : changesOnly ps z s) :
    changesOnly ps z (thenState q0 (execChkClose a u alsoInit s)) := by
  refine changes_step hw ?_ hk
  clear hk
  unfold execChkClose
  dsimp only [thenState]
  repeat' first
    | with_reducible exact changesOnly_refl _ _
    | with_reducible apply chg_closeUser
    | with_reducible apply changes_modLane
    | (show within _ _ = true; decide)
    | with_reducible apply laneOnly_refl
    | with_reducible apply chg_modUser
    | split

theorem chg_execChkURun {ps : List Part} {z : State} (a : RegAccess) (u : Fin 64) (high : Bool) (value : Word) (s : State) (q0 : State) (hw : within [.chk] ps = true) (hk : changesOnly ps z s) :
    changesOnly ps z (thenState q0 (execChkURun a u high value s)) := by
  refine changes_step hw ?_ hk
  clear hk
  unfold execChkURun
  dsimp only [thenState]
  repeat' first
    | with_reducible exact changesOnly_refl _ _
    | with_reducible apply changes_modLane
    | (show within _ _ = true; decide)
    | with_reducible apply laneOnly_refl
    | with_reducible apply chg_modUser
    | split

theorem chg_execChkUCtrl {ps : List Part} {z : State} (a : RegAccess) (u : Fin 64) (value : Word) (s : State) (q0 : State) (hw : within [.chk] ps = true) (hk : changesOnly ps z s) :
    changesOnly ps z (thenState q0 (execChkUCtrl a u value s)) := by
  refine changes_step hw ?_ hk
  clear hk
  unfold execChkUCtrl
  dsimp only [thenState]
  repeat' first
    | with_reducible exact changesOnly_refl _ _
    | with_reducible exact laneOnly_refl _ _
    | with_reducible apply chg_modUser
    | (intro l; with_reducible apply chg_modUser)
    | with_reducible apply changes_modLane
    | (rw [mk_withRest]; with_reducible apply changes_withRest)
    | (show within _ _ = true; decide)
    | (show laneOnly _ _ _; intro p hp; (cases p <;> first | exact Bool.noConfusion (show true = false from hp) | exact trivial | rfl | exact ⟨rfl, rfl⟩ | exact ⟨rfl, rfl, rfl⟩))
    | (show laneOnly _ _ _; intro p hp; ((repeat' split) <;> cases p <;> first | exact Bool.noConfusion (show true = false from hp) | exact trivial | rfl | exact ⟨rfl, rfl⟩ | exact ⟨rfl, rfl, rfl⟩))
    | (show ∀ q, _ → sameModule q _ _; intro p hp; (cases p <;> first | exact Bool.noConfusion (show true = false from hp) | exact trivial | rfl | exact ⟨rfl, rfl⟩ | exact ⟨rfl, rfl, rfl⟩))
    | with_reducible apply laneOnly_refl
    | split

theorem chg_execChkLoadPeak {ps : List Part} {z : State} (a : RegAccess) (s : State) (q0 : State) (hw : within [.chk, .bus, .free] ps = true) (hk : changesOnly ps z s) :
    changesOnly ps z (thenState q0 (execChkLoadPeak a s)) := by
  refine changes_step hw ?_ hk
  clear hk
  unfold execChkLoadPeak
  dsimp only [thenState]
  repeat' first
    | with_reducible exact changesOnly_refl _ _
    | with_reducible apply chg_answer
    | with_reducible apply chg_noAnswer
    | with_reducible apply changes_modLane
    | (rw [mk_withRest]; with_reducible apply changes_withRest)
    | (show within _ _ = true; decide)
    | (show laneOnly _ _ _; intro p hp; (cases p <;> first | exact Bool.noConfusion (show true = false from hp) | exact trivial | rfl | exact ⟨rfl, rfl⟩ | exact ⟨rfl, rfl, rfl⟩))
    | (show laneOnly _ _ _; intro p hp; ((repeat' split) <;> cases p <;> first | exact Bool.noConfusion (show true = false from hp) | exact trivial | rfl | exact ⟨rfl, rfl⟩ | exact ⟨rfl, rfl, rfl⟩))
    | (show ∀ q, _ → sameModule q _ _; intro p hp; (cases p <;> first | exact Bool.noConfusion (show true = false from hp) | exact trivial | rfl | exact ⟨rfl, rfl⟩ | exact ⟨rfl, rfl, rfl⟩))
    | split

theorem chg_logicDone {ps : List Part} {z : State} (s : State) (l : Lane) (hw : within [.press, .eic, .ports] ps = true) (hk : changesOnly ps z s) :
    changesOnly ps z (logicDone s l) := by
  refine changes_step hw ?_ hk
  clear hk
  unfold logicDone
  try dsimp only
  repeat' first
    | with_reducible assumption
    | with_reducible exact changesOnly_refl _ _
    | with_reducible apply chg_eicLevel
    | with_reducible apply changes_foldS
    | with_reducible apply changes_modLane
    | (rw [mk_withRest]; with_reducible apply changes_withRest)
    | (show within _ _ = true; decide)
    | (show laneOnly _ _ _; intro p hp; (cases p <;> first | exact Bool.noConfusion (show true = false from hp) | exact trivial | rfl | exact ⟨rfl, rfl⟩ | exact ⟨rfl, rfl, rfl⟩))
    | (show laneOnly _ _ _; intro p hp; ((repeat' split) <;> cases p <;> first | exact Bool.noConfusion (show true = false from hp) | exact trivial | rfl | exact ⟨rfl, rfl⟩ | exact ⟨rfl, rfl, rfl⟩))
    | (show ∀ q, _ → sameModule q _ _; intro p hp; (cases p <;> first | exact Bool.noConfusion (show true = false from hp) | exact trivial | rfl | exact ⟨rfl, rfl⟩ | exact ⟨rfl, rfl, rfl⟩))
    | (with_reducible intro t x hk)
    | (with_reducible intro t hk)
    | split

theorem chg_execPrsStackPeak {ps : List Part} {z : State} (a : RegAccess) (s : State) (q0 : State) (hw : within [.press, .bus] ps = true) (hk : changesOnly ps z s) :
    changesOnly ps z (thenState q0 (execPrsStackPeak a s)) := by
  refine changes_step hw ?_ hk
  clear hk
  unfold execPrsStackPeak
  dsimp only [thenState]
  repeat' first
    | with_reducible exact changesOnly_refl _ _
    | with_reducible apply chg_answer
    | with_reducible apply chg_noAnswer
    | with_reducible apply changes_modLane
    | (show within _ _ = true; decide)
    | (show laneOnly _ _ _; intro p hp; (cases p <;> first | exact Bool.noConfusion (show true = false from hp) | exact trivial | rfl | exact ⟨rfl, rfl⟩ | exact ⟨rfl, rfl, rfl⟩))
    | split

theorem chg_execLaneLogicPeak {ps : List Part} {z : State} (a : RegAccess) (s : State) (q0 : State) (hw : within [.times, .bus] ps = true) (hk : changesOnly ps z s) :
    changesOnly ps z (thenState q0 (execLaneLogicPeak a s)) := by
  refine changes_step hw ?_ hk
  clear hk
  unfold execLaneLogicPeak
  dsimp only [thenState]
  repeat' first
    | with_reducible exact changesOnly_refl _ _
    | with_reducible apply chg_answer
    | with_reducible apply chg_noAnswer
    | with_reducible apply changes_modLane
    | (show within _ _ = true; decide)
    | (show laneOnly _ _ _; intro p hp; (cases p <;> first | exact Bool.noConfusion (show true = false from hp) | exact trivial | rfl | exact ⟨rfl, rfl⟩ | exact ⟨rfl, rfl, rfl⟩))
    | split

theorem chg_putArea {ps : List Part} {z : LaneState} (L : LaneState) (a : LoadArea) (hw : within [.press, .raa, .sessions] ps = true) (hk : laneOnly ps z L) :
    laneOnly ps z (putArea L a) := by
  refine laneOnly_step hw ?_ hk
  clear hk
  unfold putArea
  try dsimp only
  repeat' first
    | with_reducible exact laneOnly_refl _ _
    | (show laneOnly _ _ _; intro p hp; (cases p <;> first | exact Bool.noConfusion (show true = false from hp) | exact trivial | rfl | exact ⟨rfl, rfl⟩ | exact ⟨rfl, rfl, rfl⟩))
    | (show laneOnly _ _ _; intro p hp; ((repeat' split) <;> cases p <;> first | exact Bool.noConfusion (show true = false from hp) | exact trivial | rfl | exact ⟨rfl, rfl⟩ | exact ⟨rfl, rfl, rfl⟩))
    | split

theorem chg_bootRead {ps : List Part} {z : State} (s : State) (l : Lane) (dev : Nat) (x : SlotsFound) (hw : within [.eic, .staging, .ports, .log, .free] ps = true) (hk : changesOnly ps z s) :
    changesOnly ps z (bootRead s l dev x) := by
  refine changes_step hw ?_ hk
  clear hk
  unfold bootRead
  try dsimp only
  repeat' first
    | with_reducible exact changesOnly_refl _ _
    | with_reducible apply chg_devError
    | with_reducible apply chg_failDevice
    | (rw [mk_withCellar]; with_reducible apply changes_withCellar)
    | (rw [mk_withRest]; with_reducible apply changes_withRest)
    | (show within _ _ = true; decide)
    | (show ∀ q, _ → sameModule q _ _; intro p hp; (cases p <;> first | exact Bool.noConfusion (show true = false from hp) | exact trivial | rfl | exact ⟨rfl, rfl⟩ | exact ⟨rfl, rfl, rfl⟩))
    | split

theorem chg_dueFlushes {ps : List Part} {z : State} (s : State) (hw : within [.staging, .lifetime, .log] ps = true) (hk : changesOnly ps z s) :
    changesOnly ps z (dueFlushes s) := by
  refine changes_step hw ?_ hk
  clear hk
  unfold dueFlushes
  try dsimp only
  repeat' first
    | with_reducible assumption
    | with_reducible exact changesOnly_refl _ _
    | with_reducible apply chg_flushLane
    | with_reducible apply changes_foldS
    | (show within _ _ = true; decide)
    | (show ∀ q, _ → sameModule q _ _; intro p hp; (cases p <;> first | exact Bool.noConfusion (show true = false from hp) | exact trivial | rfl | exact ⟨rfl, rfl⟩ | exact ⟨rfl, rfl, rfl⟩))
    | (with_reducible intro t x hk)
    | (with_reducible intro t hk)
    | split

theorem chg_dropStaging {ps : List Part} {z : State} (s : State) (hw : within [.staging] ps = true) (hk : changesOnly ps z s) :
    changesOnly ps z (dropStaging s) := by
  refine changes_step hw ?_ hk
  clear hk
  unfold dropStaging
  try dsimp only
  repeat' first
    | with_reducible exact changesOnly_refl _ _
    | with_reducible apply changes_modLanes
    | (rw [mk_withRest]; with_reducible apply changes_withRest)
    | (intro l; show laneOnly _ _ _; intro p hp; ((repeat' split) <;> cases p <;> first | exact Bool.noConfusion (show true = false from hp) | exact trivial | rfl | exact ⟨rfl, rfl⟩ | exact ⟨rfl, rfl, rfl⟩))
    | (show ∀ q, _ → sameModule q _ _; intro p hp; (cases p <;> first | exact Bool.noConfusion (show true = false from hp) | exact trivial | rfl | exact ⟨rfl, rfl⟩ | exact ⟨rfl, rfl, rfl⟩))
    | split

theorem chg_clearLog {ps : List Part} {z : State} (s : State) (staged : Nat) (r : HostRef) (kv : BitVec 16) (nonce : BitVec 64) (hw : within [.eic, .ports, .lifetime, .log] ps = true) (hk : changesOnly ps z s) :
    changesOnly ps z (clearLog s staged r kv nonce) := by
  refine changes_step hw ?_ hk
  clear hk
  unfold clearLog
  try dsimp only
  repeat' first
    | with_reducible exact changesOnly_refl _ _
    | with_reducible apply chg_eicRaise
    | with_reducible apply changes_modPages
    | (rw [mk_withCellar]; with_reducible apply changes_withCellar)
    | (rw [mk_withRest]; with_reducible apply changes_withRest)
    | (show within _ _ = true; decide)
    | (show List.contains _ _ = true; decide)
    | (show ∀ q, _ → sameModule q _ _; intro p hp; (cases p <;> first | exact Bool.noConfusion (show true = false from hp) | exact trivial | rfl | exact ⟨rfl, rfl⟩ | exact ⟨rfl, rfl, rfl⟩))
    | split

theorem chg_clearEnds {ps : List Part} {z : State} (s : State) (hw : within [.log] ps = true) (hk : changesOnly ps z s) :
    changesOnly ps z (clearEnds s) := by
  refine changes_step hw ?_ hk
  clear hk
  unfold clearEnds
  try dsimp only
  repeat' first
    | with_reducible exact changesOnly_refl _ _
    | (rw [mk_withCellar]; with_reducible apply changes_withCellar)
    | (rw [mk_withRest]; with_reducible apply changes_withRest)
    | (show ∀ q, _ → sameModule q _ _; intro p hp; (cases p <;> first | exact Bool.noConfusion (show true = false from hp) | exact trivial | rfl | exact ⟨rfl, rfl⟩ | exact ⟨rfl, rfl, rfl⟩))
    | split

theorem chg_repeatClear {ps : List Part} {z : State} (s : State) (hw : within [.eic, .ports, .lifetime, .log] ps = true) (hk : changesOnly ps z s) :
    changesOnly ps z (repeatClear s) := by
  refine changes_step hw ?_ hk
  clear hk
  unfold repeatClear
  try dsimp only
  repeat' first
    | with_reducible exact changesOnly_refl _ _
    | with_reducible apply chg_clearLog
    | (show within _ _ = true; decide)
    | (show ∀ q, _ → sameModule q _ _; intro p hp; (cases p <;> first | exact Bool.noConfusion (show true = false from hp) | exact trivial | rfl | exact ⟨rfl, rfl⟩ | exact ⟨rfl, rfl, rfl⟩))
    | split

theorem chg_startUsers {ps : List Part} {z : State} (s : State) (l : Lane) (p : Port) (q cls : Nat) (hw : within [.chk] ps = true) (hk : changesOnly ps z s) :
    changesOnly ps z (startUsers s l p q cls) := by
  refine changes_step hw ?_ hk
  clear hk
  unfold startUsers
  try dsimp only
  repeat' first
    | with_reducible assumption
    | with_reducible exact changesOnly_refl _ _
    | with_reducible exact laneOnly_refl _ _
    | with_reducible apply chg_modUser
    | (intro l; with_reducible apply chg_modUser)
    | with_reducible apply changes_foldS
    | with_reducible apply changes_modLane
    | (rw [mk_withRest]; with_reducible apply changes_withRest)
    | (show within _ _ = true; decide)
    | (show laneOnly _ _ _; intro p hp; (cases p <;> first | exact Bool.noConfusion (show true = false from hp) | exact trivial | rfl | exact ⟨rfl, rfl⟩ | exact ⟨rfl, rfl, rfl⟩))
    | (show laneOnly _ _ _; intro p hp; ((repeat' split) <;> cases p <;> first | exact Bool.noConfusion (show true = false from hp) | exact trivial | rfl | exact ⟨rfl, rfl⟩ | exact ⟨rfl, rfl, rfl⟩))
    | (show ∀ q, _ → sameModule q _ _; intro p hp; (cases p <;> first | exact Bool.noConfusion (show true = false from hp) | exact trivial | rfl | exact ⟨rfl, rfl⟩ | exact ⟨rfl, rfl, rfl⟩))
    | (with_reducible intro t x hk)
    | (with_reducible intro t hk)
    | split

end Sys2Proof.Laws
end

