-- ==== Sys2Proof/Laws/ChangesHost.lean ====
section
/-!
SUPPORT. The parts of the state that every operation of the host interface may change (Safety.changesOnly), one lemma for each operation
and for each command.
-/

namespace Sys2Proof.Laws

open Sys2Proof.Machine Sys2Proof.Safety

theorem chg_modSq {ps : List Part} {z : State} (s : State) (p : Port) (q : Nat) (f : Ring → Ring) (hw : within [.ports] ps = true) (hk : changesOnly ps z s) :
    changesOnly ps z (modSq s p q f) := by
  refine changes_step hw ?_ hk
  clear hk
  unfold modSq
  try dsimp only
  repeat' first
    | with_reducible exact changesOnly_refl _ _
    | with_reducible apply changes_modPort
    | (show List.contains _ _ = true; decide)

theorem chg_modCq {ps : List Part} {z : State} (s : State) (p : Port) (q : Nat) (f : Ring → Ring) (hw : within [.ports] ps = true) (hk : changesOnly ps z s) :
    changesOnly ps z (modCq s p q f) := by
  refine changes_step hw ?_ hk
  clear hk
  unfold modCq
  try dsimp only
  repeat' first
    | with_reducible exact changesOnly_refl _ _
    | with_reducible apply changes_modPort
    | (show List.contains _ _ = true; decide)

theorem chg_compose {ps : List Part} {z : LaneState} (L : LaneState) (c : Completion) (hw : within [.mbx] ps = true) (hk : laneOnly ps z L) :
    laneOnly ps z (compose L c) := by
  refine laneOnly_step hw ?_ hk
  clear hk
  unfold compose
  try dsimp only
  repeat' first
    | (show laneOnly _ _ _; intro p hp; (cases p <;> first | exact Bool.noConfusion (show true = false from hp) | exact trivial | rfl | exact ⟨rfl, rfl⟩ | exact ⟨rfl, rfl, rfl⟩))

theorem chg_modLedger {ps : List Part} {z : LaneState} (L : LaneState) (p : Port) (q : Nat) (f : Ledger → Ledger) (hw : within [.mbx] ps = true) (hk : laneOnly ps z L) :
    laneOnly ps z (modLedger L p q f) := by
  refine laneOnly_step hw ?_ hk
  clear hk
  unfold modLedger
  try dsimp only
  repeat' first
    | (show laneOnly _ _ _; intro p hp; (cases p <;> first | exact Bool.noConfusion (show true = false from hp) | exact trivial | rfl | exact ⟨rfl, rfl⟩ | exact ⟨rfl, rfl, rfl⟩))

theorem chg_ledgerEnd {ps : List Part} {z : LaneState} (L : LaneState) (r : HostRef) (e : HostEnd) (hw : within [.mbx] ps = true) (hk : laneOnly ps z L) :
    laneOnly ps z (ledgerEnd L r e) := by
  refine laneOnly_step hw ?_ hk
  clear hk
  unfold ledgerEnd
  try dsimp only
  repeat' first
    | with_reducible exact laneOnly_refl _ _
    | with_reducible apply chg_modLedger
    | (show within _ _ = true; decide)

theorem chg_finishLane {ps : List Part} {z : State} (s : State) (l : Lane) (r : HostRef) (e : HostEnd)
    (hw : within [.mbx] ps = true) (hk : changesOnly ps z s) : changesOnly ps z (finishLane s l r e) := by
  refine changes_step hw (?_ : changesOnly [.mbx] s (finishLane s l r e)) hk
  have hk := changesOnly_refl [.mbx] s
  unfold finishLane
  split
  · exact hk
  · refine changes_modLane _ _ ?_ hk
    dsimp only
    refine laneOnly_fold _ _ (fun _ _ h => chg_compose _ _ rfl h) (chg_compose _ _ rfl ?_)
    have h1 : ∀ t : List Taken, laneOnly [.mbx] (s.lanes.get l) { s.lanes.get l with mbx := { (s.lanes.get l).mbx with taken := t } } :=
      fun t p hp => by cases p <;> first | (cases hp; done) | exact trivial | rfl | exact ⟨rfl, rfl⟩ | exact ⟨rfl, rfl, rfl⟩
    split
    · exact chg_ledgerEnd _ _ _ rfl (h1 _)
    · exact h1 _

theorem chg_finishAll {ps : List Part} {z : State} (s : State) (r : HostRef) (e : HostEnd) (hw : within [.mbx] ps = true) (hk : changesOnly ps z s) :
    changesOnly ps z (finishAll s r e) := by
  refine changes_step hw ?_ hk
  clear hk
  unfold finishAll
  try dsimp only
  repeat' first
    | with_reducible assumption
    | with_reducible exact changesOnly_refl _ _
    | with_reducible apply chg_finishLane
    | with_reducible apply changes_foldS
    | (show within _ _ = true; decide)
    | (with_reducible intro t x hk)

theorem chg_consume {ps : List Part} {z : LaneState} (L : LaneState) (r : HostRef) (e : Option HostEnd) (hw : within [.mbx] ps = true) (hk : laneOnly ps z L) :
    laneOnly ps z (consume L r e) := by
  refine laneOnly_step hw ?_ hk
  clear hk
  unfold consume
  try dsimp only
  repeat' first
    | with_reducible exact laneOnly_refl _ _
    | with_reducible apply chg_modLedger
    | (show within _ _ = true; decide)

theorem chg_laneTake {ps : List Part} {z : State} (s : State) (l : Lane) (r : HostRef) (d : BitVec 512) (x : Option (BitVec 512)) (cqEpoch : Nat) (v : Verdict) (hw : within [.mbx] ps = true) (hk : changesOnly ps z s) :
    changesOnly ps z (laneTake s l r d x cqEpoch v) := by
  refine changes_step hw ?_ hk
  clear hk
  unfold laneTake
  try dsimp only
  repeat' first
    | with_reducible exact changesOnly_refl _ _
    | with_reducible apply changes_modLane
    | (show laneOnly _ _ _; intro p hp; ((repeat' split) <;> cases p <;> first | exact Bool.noConfusion (show true = false from hp) | exact trivial | rfl | exact ⟨rfl, rfl⟩ | exact ⟨rfl, rfl, rfl⟩))

theorem chg_takeChecked {ps : List Part} {z : State} (s : State) (p : Port) (q : Nat) (r : HostRef) (d : BitVec 512) (x : Option (BitVec 512)) (cqEpoch : Nat) (hw : within [.mbx, .lifetime, .log] ps = true) (hk : changesOnly ps z s) :
    changesOnly ps z (takeChecked s p q r d x cqEpoch) := by
  refine changes_step hw ?_ hk
  clear hk
  unfold takeChecked
  try dsimp only
  repeat' first
    | with_reducible assumption
    | with_reducible exact changesOnly_refl _ _
    | with_reducible apply chg_laneTake
    | with_reducible apply changes_foldS
    | with_reducible apply changes_modPages
    | (rw [mk_withRest]; with_reducible apply changes_withRest)
    | (show within _ _ = true; decide)
    | (show List.contains _ _ = true; decide)
    | (show ∀ q, _ → sameModule q _ _; intro p hp; (cases p <;> first | exact Bool.noConfusion (show true = false from hp) | exact trivial | rfl | exact ⟨rfl, rfl⟩ | exact ⟨rfl, rfl, rfl⟩))
    | with_reducible apply changes_modLife
    | (with_reducible intro t x hk)
    | (with_reducible intro t hk)
    | split

theorem chg_endUnchecked {ps : List Part} {z : State} (s : State) (p : Port) (r : HostRef) (cqEpoch : Nat) (e : HostEnd) (hw : within [.mbx] ps = true) (hk : changesOnly ps z s) :
    changesOnly ps z (endUnchecked s p r cqEpoch e) := by
  refine changes_step hw ?_ hk
  clear hk
  unfold endUnchecked
  try dsimp only
  repeat' first
    | with_reducible exact changesOnly_refl _ _
    | with_reducible apply changes_modLane
    | (show within _ _ = true; decide)
    | with_reducible apply laneOnly_refl
    | with_reducible apply chg_compose

theorem chg_serveImage {ps : List Part} {z : State} (s : State) (p : Port) (r : HostRef) (d : BitVec 512) (cqEpoch : Nat) (hw : within [.eic, .chk, .mbx, .ports, .hostMem, .free] ps = true) (hk : changesOnly ps z s) :
    changesOnly ps z (serveImage s p r d cqEpoch) := by
  refine changes_step hw ?_ hk
  clear hk
  unfold serveImage
  try dsimp only
  repeat' first
    | with_reducible exact changesOnly_refl _ _
    | with_reducible apply chg_startUsers
    | with_reducible apply chg_feedUsers
    | with_reducible apply chg_endUnchecked
    | (rw [mk_withRest]; with_reducible apply changes_withRest)
    | (show within _ _ = true; decide)
    | (show ∀ q, _ → sameModule q _ _; intro p hp; (cases p <;> first | exact Bool.noConfusion (show true = false from hp) | exact trivial | rfl | exact ⟨rfl, rfl⟩ | exact ⟨rfl, rfl, rfl⟩))
    | split

theorem chg_badCopyMet {ps : List Part} {z : State} (l : Lane) (s : State) (x : CopyAt) (hw : within [.eic, .staging, .ports, .log, .free] ps = true) (hk : changesOnly ps z s) :
    changesOnly ps z (badCopyMet l s x) := by
  refine changes_step hw ?_ hk
  clear hk
  unfold badCopyMet
  try dsimp only
  repeat' first
    | with_reducible exact changesOnly_refl _ _
    | with_reducible apply chg_mirrorFault
    | with_reducible apply chg_devError
    | (rw [mk_withCellar]; with_reducible apply changes_withCellar)
    | (rw [mk_withRest]; with_reducible apply changes_withRest)
    | (show within _ _ = true; decide)
    | (show ∀ q, _ → sameModule q _ _; intro p hp; (cases p <;> first | exact Bool.noConfusion (show true = false from hp) | exact trivial | rfl | exact ⟨rfl, rfl⟩ | exact ⟨rfl, rfl, rfl⟩))
    | split

theorem chg_serveCellar {ps : List Part} {z : State} (s : State) (p : Port) (r : HostRef) (d : BitVec 512) (cqEpoch : Nat) (hw : within [.eic, .chk, .staging, .mbx, .ports, .log, .hostMem, .free] ps = true) (hk : changesOnly ps z s) :
    changesOnly ps z (serveCellar s p r d cqEpoch) := by
  refine changes_step hw ?_ hk
  clear hk
  unfold serveCellar
  try dsimp only
  repeat' first
    | with_reducible assumption
    | with_reducible exact changesOnly_refl _ _
    | with_reducible apply chg_startUsers
    | with_reducible apply chg_feedUsers
    | with_reducible apply chg_endUnchecked
    | with_reducible apply chg_badCopyMet
    | with_reducible apply changes_foldS
    | (rw [mk_withRest]; with_reducible apply changes_withRest)
    | (show within _ _ = true; decide)
    | (show ∀ q, _ → sameModule q _ _; intro p hp; (cases p <;> first | exact Bool.noConfusion (show true = false from hp) | exact trivial | rfl | exact ⟨rfl, rfl⟩ | exact ⟨rfl, rfl, rfl⟩))
    | (with_reducible intro t x hk)
    | (with_reducible intro t hk)
    | split

theorem chg_fenceCheck {ps : List Part} {z : State} (s : State) (p : Port) (hw : within [.mbx] ps = true) (hk : changesOnly ps z s) :
    changesOnly ps z (fenceCheck s p) := by
  refine changes_step hw ?_ hk
  clear hk
  unfold fenceCheck
  try dsimp only
  repeat' first
    | with_reducible assumption
    | with_reducible exact changesOnly_refl _ _
    | with_reducible apply chg_finishLane
    | with_reducible apply changes_foldS
    | (show within _ _ = true; decide)
    | (with_reducible intro t x hk)
    | split

theorem chg_takeFence {ps : List Part} {z : State} (s : State) (p : Port) (r : HostRef) (d : BitVec 512) (cqEpoch : Nat) (hw : within [.mbx, .ports] ps = true) (hk : changesOnly ps z s) :
    changesOnly ps z (takeFence s p r d cqEpoch) := by
  refine changes_step hw ?_ hk
  clear hk
  unfold takeFence
  try dsimp only
  repeat' first
    | with_reducible exact changesOnly_refl _ _
    | with_reducible apply chg_modSq
    | with_reducible apply chg_fenceCheck
    | with_reducible apply changes_modLane
    | (rw [mk_withRest]; with_reducible apply changes_withRest)
    | (show within _ _ = true; decide)
    | (show laneOnly _ _ _; intro p hp; (cases p <;> first | exact Bool.noConfusion (show true = false from hp) | exact trivial | rfl | exact ⟨rfl, rfl⟩ | exact ⟨rfl, rfl, rfl⟩))
    | (show laneOnly _ _ _; intro p hp; ((repeat' split) <;> cases p <;> first | exact Bool.noConfusion (show true = false from hp) | exact trivial | rfl | exact ⟨rfl, rfl⟩ | exact ⟨rfl, rfl, rfl⟩))
    | (show ∀ q, _ → sameModule q _ _; intro p hp; (cases p <;> first | exact Bool.noConfusion (show true = false from hp) | exact trivial | rfl | exact ⟨rfl, rfl⟩ | exact ⟨rfl, rfl, rfl⟩))
    | split

theorem chg_takeUnchecked {ps : List Part} {z : State} (s : State) (p : Port) (r : HostRef) (d : BitVec 512) (x : Option (BitVec 512)) (cqEpoch : Nat) (hw : within [.eic, .chk, .staging, .mbx, .ports, .log, .hostMem, .free] ps = true) (hk : changesOnly ps z s) :
    changesOnly ps z (takeUnchecked s p r d x cqEpoch) := by
  refine changes_step hw ?_ hk
  clear hk
  unfold takeUnchecked
  try dsimp only
  repeat' first
    | with_reducible exact changesOnly_refl _ _
    | with_reducible apply chg_endUnchecked
    | with_reducible apply chg_serveImage
    | with_reducible apply chg_serveCellar
    | with_reducible apply chg_takeFence
    | (show within _ _ = true; decide)
    | split

theorem chg_takeDesc {ps : List Part} {z : State} (s : State) (p : Port) (q : Fin 16) (d : BitVec 512) (x : Option (BitVec 512)) (slots : Nat) (hw : within [.eic, .chk, .staging, .mbx, .ports, .lifetime, .log, .hostMem, .free] ps = true) (hk : changesOnly ps z s) :
    changesOnly ps z (takeDesc s p q d x slots) := by
  refine changes_step hw ?_ hk
  clear hk
  unfold takeDesc
  try dsimp only
  repeat' first
    | with_reducible exact changesOnly_refl _ _
    | with_reducible apply chg_modSq
    | with_reducible apply chg_takeChecked
    | with_reducible apply chg_takeUnchecked
    | with_reducible apply changes_modPort
    | (show within _ _ = true; decide)
    | (show List.contains _ _ = true; decide)
    | split

theorem chg_takeFirst {ps : List Part} {z : State} (s : State) (p : Port) (q : Fin 16) (d : BitVec 512) (x : Option (BitVec 512)) (hw : within [.eic, .chk, .staging, .mbx, .ports, .lifetime, .log, .hostMem, .free] ps = true) (hk : changesOnly ps z s) :
    changesOnly ps z (takeFirst s p q d x) := by
  refine changes_step hw ?_ hk
  clear hk
  unfold takeFirst
  try dsimp only
  repeat' first
    | with_reducible exact changesOnly_refl _ _
    | with_reducible apply chg_modSq
    | with_reducible apply chg_takeDesc
    | (rw [mk_withRest]; with_reducible apply changes_withRest)
    | (show within _ _ = true; decide)
    | (show ∀ q, _ → sameModule q _ _; intro p hp; (cases p <;> first | exact Bool.noConfusion (show true = false from hp) | exact trivial | rfl | exact ⟨rfl, rfl⟩ | exact ⟨rfl, rfl, rfl⟩))
    | split

theorem chg_passTurn {ps : List Part} {z : State} (s : State) (p : Port) (q : Fin 16) (hw : within [.ports] ps = true) (hk : changesOnly ps z s) :
    changesOnly ps z (passTurn s p q) := by
  refine changes_step hw ?_ hk
  clear hk
  unfold passTurn
  try dsimp only
  repeat' first
    | with_reducible exact changesOnly_refl _ _
    | with_reducible apply changes_modPort
    | (rw [mk_withRest]; with_reducible apply changes_withRest)
    | (show List.contains _ _ = true; decide)
    | (show ∀ q, _ → sameModule q _ _; intro p hp; (cases p <;> first | exact Bool.noConfusion (show true = false from hp) | exact trivial | rfl | exact ⟨rfl, rfl⟩ | exact ⟨rfl, rfl, rfl⟩))
    | split

theorem chg_takeFetched {ps : List Part} {z : State} (s : State) (p : Port) (q : Fin 16) (d : BitVec 512) (x : Option (BitVec 512)) (hw : within [.eic, .chk, .staging, .mbx, .ports, .lifetime, .log, .hostMem, .free] ps = true) (hk : changesOnly ps z s) :
    changesOnly ps z (takeFetched s p q d x) := by
  refine changes_step hw ?_ hk
  clear hk
  unfold takeFetched
  try dsimp only
  repeat' first
    | with_reducible exact changesOnly_refl _ _
    | with_reducible apply chg_takeDesc
    | with_reducible apply chg_takeFirst
    | (show within _ _ = true; decide)
    | (show ∀ q, _ → sameModule q _ _; intro p hp; (cases p <;> first | exact Bool.noConfusion (show true = false from hp) | exact trivial | rfl | exact ⟨rfl, rfl⟩ | exact ⟨rfl, rfl, rfl⟩))
    | split

theorem chg_takeSlot {ps : List Part} {z : State} (s : State) (p : Port) (q : Fin 16) (d : BitVec 512) (x : Option (BitVec 512)) (hw : within [.eic, .chk, .staging, .mbx, .ports, .lifetime, .log, .hostMem, .free] ps = true) (hk : changesOnly ps z s) :
    changesOnly ps z (takeSlot s p q d x) := by
  refine changes_step hw ?_ hk
  clear hk
  unfold takeSlot
  try dsimp only
  repeat' first
    | with_reducible exact changesOnly_refl _ _
    | with_reducible apply chg_passTurn
    | with_reducible apply chg_takeFetched
    | (show within _ _ = true; decide)
    | (show ∀ q, _ → sameModule q _ _; intro p hp; (cases p <;> first | exact Bool.noConfusion (show true = false from hp) | exact trivial | rfl | exact ⟨rfl, rfl⟩ | exact ⟨rfl, rfl, rfl⟩))
    | split

theorem chg_takeClass {ps : List Part} {z : State} (s : State) (p : Port) (q : Fin 16) (d : BitVec 512) (x : Option (BitVec 512)) (c : Nat) (hw : within [.eic, .chk, .staging, .mbx, .ports, .lifetime, .log, .hostMem, .free] ps = true) (hk : changesOnly ps z s) :
    changesOnly ps z (takeClass s p q d x c) := by
  refine changes_step hw ?_ hk
  clear hk
  unfold takeClass
  try dsimp only
  repeat' first
    | with_reducible exact changesOnly_refl _ _
    | with_reducible apply chg_takeSlot
    | (show within _ _ = true; decide)
    | split

theorem chg_execDescriptorFetch {ps : List Part} {z : State} (p : Port) (q : Fin 16) (desc : BitVec 512) (second : Option (BitVec 512)) (s : State) (q0 : State) (hw : within [.eic, .chk, .staging, .mbx, .ports, .lifetime, .log, .hostMem, .free] ps = true) (hk : changesOnly ps z s) :
    changesOnly ps z (thenState q0 (execDescriptorFetch p q desc second s)) := by
  refine changes_step hw ?_ hk
  clear hk
  unfold execDescriptorFetch
  dsimp only [thenState]
  repeat' first
    | with_reducible exact changesOnly_refl _ _
    | with_reducible apply chg_takeSlot
    | (show within _ _ = true; decide)

theorem chg_execRouteRequest {ps : List Part} {z : State} (p : Port) (q : Fin 16) (desc : BitVec 512) (s : State) (q0 : State) (hw : within [.eic, .chk, .staging, .mbx, .ports, .lifetime, .log, .hostMem, .free] ps = true) (hk : changesOnly ps z s) :
    changesOnly ps z (thenState q0 (execRouteRequest p q desc s)) := by
  refine changes_step hw ?_ hk
  clear hk
  unfold execRouteRequest
  dsimp only [thenState]
  repeat' first
    | with_reducible exact changesOnly_refl _ _
    | with_reducible apply chg_takeClass
    | (show within _ _ = true; decide)

theorem chg_execRouteCancel {ps : List Part} {z : State} (p : Port) (q : Fin 16) (desc : BitVec 512) (s : State) (q0 : State) (hw : within [.eic, .chk, .staging, .mbx, .ports, .lifetime, .log, .hostMem, .free] ps = true) (hk : changesOnly ps z s) :
    changesOnly ps z (thenState q0 (execRouteCancel p q desc s)) := by
  refine changes_step hw ?_ hk
  clear hk
  unfold execRouteCancel
  dsimp only [thenState]
  repeat' first
    | with_reducible exact changesOnly_refl _ _
    | with_reducible apply chg_takeClass
    | (show within _ _ = true; decide)

theorem chg_execElementCommand {ps : List Part} {z : State} (p : Port) (q : Fin 16) (desc : BitVec 512) (s : State) (q0 : State) (hw : within [.eic, .chk, .staging, .mbx, .ports, .lifetime, .log, .hostMem, .free] ps = true) (hk : changesOnly ps z s) :
    changesOnly ps z (thenState q0 (execElementCommand p q desc s)) := by
  refine changes_step hw ?_ hk
  clear hk
  unfold execElementCommand
  dsimp only [thenState]
  repeat' first
    | with_reducible exact changesOnly_refl _ _
    | with_reducible apply chg_takeClass
    | (show within _ _ = true; decide)

theorem chg_execStationAdmit {ps : List Part} {z : State} (p : Port) (q : Fin 16) (desc : BitVec 512) (s : State) (q0 : State) (hw : within [.eic, .chk, .staging, .mbx, .ports, .lifetime, .log, .hostMem, .free] ps = true) (hk : changesOnly ps z s) :
    changesOnly ps z (thenState q0 (execStationAdmit p q desc s)) := by
  refine changes_step hw ?_ hk
  clear hk
  unfold execStationAdmit
  dsimp only [thenState]
  repeat' first
    | with_reducible exact changesOnly_refl _ _
    | with_reducible apply chg_takeClass
    | (show within _ _ = true; decide)

theorem chg_execImageRead {ps : List Part} {z : State} (p : Port) (q : Fin 16) (desc : BitVec 512) (s : State) (q0 : State) (hw : within [.eic, .chk, .staging, .mbx, .ports, .lifetime, .log, .hostMem, .free] ps = true) (hk : changesOnly ps z s) :
    changesOnly ps z (thenState q0 (execImageRead p q desc s)) := by
  refine changes_step hw ?_ hk
  clear hk
  unfold execImageRead
  dsimp only [thenState]
  repeat' first
    | with_reducible exact changesOnly_refl _ _
    | with_reducible apply chg_takeClass
    | (show within _ _ = true; decide)

theorem chg_execCellarRead {ps : List Part} {z : State} (p : Port) (q : Fin 16) (x : CellarFetch) (s : State) (q0 : State) (hw : within [.eic, .chk, .staging, .mbx, .ports, .lifetime, .log, .hostMem, .free] ps = true) (hk : changesOnly ps z s) :
    changesOnly ps z (thenState q0 (execCellarRead p q x s)) := by
  refine changes_step hw ?_ hk
  clear hk
  unfold execCellarRead
  dsimp only [thenState]
  repeat' first
    | with_reducible exact changesOnly_refl _ _
    | with_reducible apply chg_takeClass
    | (rw [mk_withCellar]; with_reducible apply changes_withCellar)
    | (rw [mk_withRest]; with_reducible apply changes_withRest)
    | (show within _ _ = true; decide)
    | (show ∀ q, _ → sameModule q _ _; intro p hp; (cases p <;> first | exact Bool.noConfusion (show true = false from hp) | exact trivial | rfl | exact ⟨rfl, rfl⟩ | exact ⟨rfl, rfl, rfl⟩))
    | split

theorem chg_execCellarClear {ps : List Part} {z : State} (p : Port) (q : Fin 16) (desc second : BitVec 512) (s : State) (q0 : State) (hw : within [.eic, .chk, .staging, .mbx, .ports, .lifetime, .log, .hostMem, .free] ps = true) (hk : changesOnly ps z s) :
    changesOnly ps z (thenState q0 (execCellarClear p q desc second s)) := by
  refine changes_step hw ?_ hk
  clear hk
  unfold execCellarClear
  dsimp only [thenState]
  repeat' first
    | with_reducible exact changesOnly_refl _ _
    | with_reducible apply chg_takeClass
    | (show within _ _ = true; decide)

theorem chg_execRack {ps : List Part} {z : State} (p : Port) (q : Fin 16) (desc second : BitVec 512) (s : State) (q0 : State) (hw : within [.eic, .chk, .staging, .mbx, .ports, .lifetime, .log, .hostMem, .free] ps = true) (hk : changesOnly ps z s) :
    changesOnly ps z (thenState q0 (execRack p q desc second s)) := by
  refine changes_step hw ?_ hk
  clear hk
  unfold execRack
  dsimp only [thenState]
  repeat' first
    | with_reducible exact changesOnly_refl _ _
    | with_reducible apply chg_takeClass
    | (show within _ _ = true; decide)

theorem chg_execConfirmParameters {ps : List Part} {z : State} (p : Port) (q : Fin 16) (desc second : BitVec 512) (s : State) (q0 : State) (hw : within [.eic, .chk, .staging, .mbx, .ports, .lifetime, .log, .hostMem, .free] ps = true) (hk : changesOnly ps z s) :
    changesOnly ps z (thenState q0 (execConfirmParameters p q desc second s)) := by
  refine changes_step hw ?_ hk
  clear hk
  unfold execConfirmParameters
  dsimp only [thenState]
  repeat' first
    | with_reducible exact changesOnly_refl _ _
    | with_reducible apply chg_takeClass
    | (show within _ _ = true; decide)

theorem chg_execTimeSet {ps : List Part} {z : State} (p : Port) (q : Fin 16) (desc : BitVec 512) (s : State) (q0 : State) (hw : within [.eic, .chk, .staging, .mbx, .ports, .lifetime, .log, .hostMem, .free] ps = true) (hk : changesOnly ps z s) :
    changesOnly ps z (thenState q0 (execTimeSet p q desc s)) := by
  refine changes_step hw ?_ hk
  clear hk
  unfold execTimeSet
  dsimp only [thenState]
  repeat' first
    | with_reducible exact changesOnly_refl _ _
    | with_reducible apply chg_takeClass
    | (show within _ _ = true; decide)

theorem chg_execFence {ps : List Part} {z : State} (p : Port) (q : Fin 16) (desc : BitVec 512) (s : State) (q0 : State) (hw : within [.eic, .chk, .staging, .mbx, .ports, .lifetime, .log, .hostMem, .free] ps = true) (hk : changesOnly ps z s) :
    changesOnly ps z (thenState q0 (execFence p q desc s)) := by
  refine changes_step hw ?_ hk
  clear hk
  unfold execFence
  dsimp only [thenState]
  repeat' first
    | with_reducible exact changesOnly_refl _ _
    | with_reducible apply chg_takeClass
    | (show within _ _ = true; decide)

theorem chg_execAuthExt {ps : List Part} {z : State} (p : Port) (q : Fin 16) (desc : BitVec 512) (s : State) (q0 : State) (hw : within [.eic, .chk, .staging, .mbx, .ports, .lifetime, .log, .hostMem, .free] ps = true) (hk : changesOnly ps z s) :
    changesOnly ps z (thenState q0 (execAuthExt p q desc s)) := by
  refine changes_step hw ?_ hk
  clear hk
  unfold execAuthExt
  dsimp only [thenState]
  repeat' first
    | with_reducible exact changesOnly_refl _ _
    | with_reducible apply chg_takeClass
    | (show within _ _ = true; decide)

theorem chg_countDoorbell {ps : List Part} {z : State} (s : State) (p : Port) (hw : within [.ports] ps = true) (hk : changesOnly ps z s) :
    changesOnly ps z (countDoorbell s p) := by
  refine changes_step hw ?_ hk
  clear hk
  unfold countDoorbell
  try dsimp only
  repeat' first
    | with_reducible exact changesOnly_refl _ _
    | with_reducible apply changes_modPort
    | (show List.contains _ _ = true; decide)

theorem chg_execSqTailDoorbell {ps : List Part} {z : State} (p : Port) (q : Fin 16) (value : Word) (s : State) (q0 : State) (hw : within [.ports] ps = true) (hk : changesOnly ps z s) :
    changesOnly ps z (thenState q0 (execSqTailDoorbell p q value s)) := by
  refine changes_step hw ?_ hk
  clear hk
  unfold execSqTailDoorbell
  dsimp only [thenState]
  repeat' first
    | with_reducible exact changesOnly_refl _ _
    | with_reducible apply chg_modSq
    | with_reducible apply chg_countDoorbell
    | (rw [mk_withRest]; with_reducible apply changes_withRest)
    | (show within _ _ = true; decide)
    | (show ∀ q, _ → sameModule q _ _; intro p hp; (cases p <;> first | exact Bool.noConfusion (show true = false from hp) | exact trivial | rfl | exact ⟨rfl, rfl⟩ | exact ⟨rfl, rfl, rfl⟩))
    | split

theorem chg_execCqHeadDoorbell {ps : List Part} {z : State} (p : Port) (q : Fin 16) (value : Word) (s : State) (q0 : State) (hw : within [.ports] ps = true) (hk : changesOnly ps z s) :
    changesOnly ps z (thenState q0 (execCqHeadDoorbell p q value s)) := by
  refine changes_step hw ?_ hk
  clear hk
  unfold execCqHeadDoorbell
  dsimp only [thenState]
  repeat' first
    | with_reducible exact changesOnly_refl _ _
    | with_reducible apply chg_modCq
    | with_reducible apply chg_countDoorbell
    | (rw [mk_withRest]; with_reducible apply changes_withRest)
    | (show within _ _ = true; decide)
    | (show ∀ q, _ → sameModule q _ _; intro p hp; (cases p <;> first | exact Bool.noConfusion (show true = false from hp) | exact trivial | rfl | exact ⟨rfl, rfl⟩ | exact ⟨rfl, rfl, rfl⟩))
    | split

theorem chg_sqHalted {ps : List Part} {z : State} (s : State) (p : Port) (hw : within [.eic, .ports] ps = true) (hk : changesOnly ps z s) :
    changesOnly ps z (sqHalted s p) := by
  refine changes_step hw ?_ hk
  clear hk
  unfold sqHalted
  try dsimp only
  repeat' first
    | with_reducible exact changesOnly_refl _ _
    | with_reducible apply chg_eicRaise
    | (show within _ _ = true; decide)

theorem chg_execRingEnable {ps : List Part} {z : State} (p : Port) (kind : RingKind) (q : Fin 16) (ctrl : Word) (s : State) (q0 : State) (hw : within [.eic, .ports] ps = true) (hk : changesOnly ps z s) :
    changesOnly ps z (thenState q0 (execRingEnable p kind q ctrl s)) := by
  refine changes_step hw ?_ hk
  clear hk
  unfold execRingEnable
  dsimp only [thenState]
  repeat' first
    | with_reducible exact changesOnly_refl _ _
    | with_reducible apply chg_modSq
    | with_reducible apply chg_modCq
    | with_reducible apply chg_sqHalted
    | with_reducible apply changes_modPort
    | (rw [mk_withRest]; with_reducible apply changes_withRest)
    | (show within _ _ = true; decide)
    | (show List.contains _ _ = true; decide)
    | (show ∀ q, _ → sameModule q _ _; intro p hp; (cases p <;> first | exact Bool.noConfusion (show true = false from hp) | exact trivial | rfl | exact ⟨rfl, rfl⟩ | exact ⟨rfl, rfl, rfl⟩))
    | split

theorem chg_abortAll {ps : List Part} {z : State} (s : State) (f : Taken → Bool) (hw : within [.mbx] ps = true) (hk : changesOnly ps z s) :
    changesOnly ps z (abortAll s f) := by
  refine changes_step hw ?_ hk
  clear hk
  unfold abortAll
  try dsimp only
  repeat' first
    | with_reducible assumption
    | with_reducible exact changesOnly_refl _ _
    | with_reducible apply chg_finishAll
    | with_reducible apply changes_foldS
    | (show within _ _ = true; decide)
    | (with_reducible intro t x hk)

theorem chg_disableSq {ps : List Part} {z : State} (s : State) (p : Port) (q : Nat) (halt : HaltCause) (hw : within [.mbx, .ports] ps = true) (hk : changesOnly ps z s) :
    changesOnly ps z (disableSq s p q halt) := by
  refine changes_step hw ?_ hk
  clear hk
  unfold disableSq
  try dsimp only
  repeat' first
    | with_reducible exact changesOnly_refl _ _
    | with_reducible apply chg_modSq
    | with_reducible apply chg_abortAll
    | (rw [mk_withRest]; with_reducible apply changes_withRest)
    | (show within _ _ = true; decide)
    | (show ∀ q, _ → sameModule q _ _; intro p hp; (cases p <;> first | exact Bool.noConfusion (show true = false from hp) | exact trivial | rfl | exact ⟨rfl, rfl⟩ | exact ⟨rfl, rfl, rfl⟩))
    | split

theorem chg_execRingDisable {ps : List Part} {z : State} (p : Port) (kind : RingKind) (q : Fin 16) (s : State) (q0 : State) (hw : within [.eic, .mbx, .ports] ps = true) (hk : changesOnly ps z s) :
    changesOnly ps z (thenState q0 (execRingDisable p kind q s)) := by
  refine changes_step hw ?_ hk
  clear hk
  unfold execRingDisable
  dsimp only [thenState]
  repeat' first
    | with_reducible assumption
    | with_reducible exact changesOnly_refl _ _
    | with_reducible apply chg_modSq
    | with_reducible apply chg_modCq
    | with_reducible apply chg_sqHalted
    | with_reducible apply chg_disableSq
    | with_reducible apply changes_foldS
    | (rw [mk_withRest]; with_reducible apply changes_withRest)
    | (show within _ _ = true; decide)
    | (show ∀ q, _ → sameModule q _ _; intro p hp; (cases p <;> first | exact Bool.noConfusion (show true = false from hp) | exact trivial | rfl | exact ⟨rfl, rfl⟩ | exact ⟨rfl, rfl, rfl⟩))
    | (with_reducible intro t x hk)
    | (with_reducible intro t hk)
    | split

theorem chg_portDown {ps : List Part} {z : State} (s : State) (p : Port) (hw : within [.eic, .ports] ps = true) (hk : changesOnly ps z s) :
    changesOnly ps z (portDown s p) := by
  refine changes_step hw ?_ hk
  clear hk
  unfold portDown
  try dsimp only
  repeat' first
    | with_reducible exact changesOnly_refl _ _
    | with_reducible apply chg_eicLevel
    | with_reducible apply changes_modPort
    | (show within _ _ = true; decide)
    | (show List.contains _ _ = true; decide)

theorem chg_execLinkDown {ps : List Part} {z : State} (x : PortLoss) (s : State) (q0 : State) (hw : within [.eic, .ports] ps = true) (hk : changesOnly ps z s) :
    changesOnly ps z (thenState q0 (execLinkDown x s)) := by
  refine changes_step hw ?_ hk
  clear hk
  unfold execLinkDown
  dsimp only [thenState]
  repeat' first
    | with_reducible exact changesOnly_refl _ _
    | with_reducible apply chg_portDown
    | with_reducible apply changes_modPort
    | (rw [mk_withRest]; with_reducible apply changes_withRest)
    | (show within _ _ = true; decide)
    | (show List.contains _ _ = true; decide)
    | (show ∀ q, _ → sameModule q _ _; intro p hp; (cases p <;> first | exact Bool.noConfusion (show true = false from hp) | exact trivial | rfl | exact ⟨rfl, rfl⟩ | exact ⟨rfl, rfl, rfl⟩))
    | split

theorem chg_execPerstN {ps : List Part} {z : State} (p : Port) (s : State) (q0 : State) (hw : within [.eic, .ports] ps = true) (hk : changesOnly ps z s) :
    changesOnly ps z (thenState q0 (execPerstN p s)) := by
  refine changes_step hw ?_ hk
  clear hk
  unfold execPerstN
  dsimp only [thenState]
  repeat' first
    | with_reducible exact changesOnly_refl _ _
    | with_reducible apply chg_portDown
    | with_reducible apply changes_modPort
    | (rw [mk_withRest]; with_reducible apply changes_withRest)
    | (show within _ _ = true; decide)
    | (show List.contains _ _ = true; decide)
    | (show ∀ q, _ → sameModule q _ _; intro p hp; (cases p <;> first | exact Bool.noConfusion (show true = false from hp) | exact trivial | rfl | exact ⟨rfl, rfl⟩ | exact ⟨rfl, rfl, rfl⟩))
    | split

theorem chg_execLinkUp {ps : List Part} {z : State} (p : Port) (speed : BitVec 2) (s : State) (q0 : State) (hw : within [.eic, .ports] ps = true) (hk : changesOnly ps z s) :
    changesOnly ps z (thenState q0 (execLinkUp p speed s)) := by
  refine changes_step hw ?_ hk
  clear hk
  unfold execLinkUp
  dsimp only [thenState]
  repeat' first
    | with_reducible exact changesOnly_refl _ _
    | with_reducible apply chg_eicLevel
    | with_reducible apply changes_modLanes
    | with_reducible apply changes_modPort
    | (rw [mk_withRest]; with_reducible apply changes_withRest)
    | (show within _ _ = true; decide)
    | (show List.contains _ _ = true; decide)
    | (intro l; show laneOnly _ _ _; intro p hp; ((repeat' split) <;> cases p <;> first | exact Bool.noConfusion (show true = false from hp) | exact trivial | rfl | exact ⟨rfl, rfl⟩ | exact ⟨rfl, rfl, rfl⟩))
    | (show ∀ q, _ → sameModule q _ _; intro p hp; (cases p <;> first | exact Bool.noConfusion (show true = false from hp) | exact trivial | rfl | exact ⟨rfl, rfl⟩ | exact ⟨rfl, rfl, rfl⟩))
    | (intro l; show laneOnly _ _ _; intro p hp; (cases p <;> first | exact Bool.noConfusion (show true = false from hp) | exact trivial | rfl | exact ⟨rfl, rfl⟩ | exact ⟨rfl, rfl, rfl⟩))
    | split

theorem chg_execHoldExpired {ps : List Part} {z : State} (p : Port) (s : State) (q0 : State) (hw : within [.eic, .staging, .mbx, .ports, .log] ps = true) (hk : changesOnly ps z s) :
    changesOnly ps z (thenState q0 (execHoldExpired p s)) := by
  refine changes_step hw ?_ hk
  clear hk
  unfold execHoldExpired
  dsimp only [thenState]
  repeat' first
    | with_reducible exact changesOnly_refl _ _
    | with_reducible apply chg_eventLane
    | with_reducible apply chg_abortAll
    | with_reducible apply changes_modPort
    | (rw [mk_withRest]; with_reducible apply changes_withRest)
    | (show within _ _ = true; decide)
    | (show List.contains _ _ = true; decide)
    | (show ∀ q, _ → sameModule q _ _; intro p hp; (cases p <;> first | exact Bool.noConfusion (show true = false from hp) | exact trivial | rfl | exact ⟨rfl, rfl⟩ | exact ⟨rfl, rfl, rfl⟩))
    | split

theorem chg_feedStage {ps : List Part} {z : State} (s : State) (t : Taken) (whole : Bool) (bs : List Byte) (hw : within [.eic, .chk, .ports] ps = true) (hk : changesOnly ps z s) :
    changesOnly ps z (feedStage s t whole bs) := by
  refine changes_step hw ?_ hk
  clear hk
  unfold feedStage
  try dsimp only
  repeat' first
    | with_reducible assumption
    | with_reducible exact changesOnly_refl _ _
    | with_reducible apply chg_feedUsers
    | with_reducible apply changes_foldS
    | (show within _ _ = true; decide)
    | (with_reducible intro t x hk)

theorem chg_dataFailed {ps : List Part} {z : State} (s : State) (t : Taken) (bs : List Byte) (hw : within [.eic, .chk, .mbx, .ports] ps = true) (hk : changesOnly ps z s) :
    changesOnly ps z (dataFailed s t bs) := by
  refine changes_step hw ?_ hk
  clear hk
  unfold dataFailed
  try dsimp only
  repeat' first
    | with_reducible exact changesOnly_refl _ _
    | with_reducible apply chg_finishAll
    | with_reducible apply chg_feedStage
    | (show within _ _ = true; decide)
    | (show ∀ q, _ → sameModule q _ _; intro p hp; (cases p <;> first | exact Bool.noConfusion (show true = false from hp) | exact trivial | rfl | exact ⟨rfl, rfl⟩ | exact ⟨rfl, rfl, rfl⟩))
    | split

theorem chg_haltDma {ps : List Part} {z : State} (s : State) (p : Port) (q : Nat) (hw : within [.eic, .ports] ps = true) (hk : changesOnly ps z s) :
    changesOnly ps z (haltDma s p q) := by
  refine changes_step hw ?_ hk
  clear hk
  unfold haltDma
  try dsimp only
  repeat' first
    | with_reducible exact changesOnly_refl _ _
    | with_reducible apply chg_modSq
    | with_reducible apply chg_sqHalted
    | (rw [mk_withRest]; with_reducible apply changes_withRest)
    | (show within _ _ = true; decide)
    | (show ∀ q, _ → sameModule q _ _; intro p hp; (cases p <;> first | exact Bool.noConfusion (show true = false from hp) | exact trivial | rfl | exact ⟨rfl, rfl⟩ | exact ⟨rfl, rfl, rfl⟩))
    | split

theorem chg_markFeed {ps : List Part} {z : State} (s : State) (r : HostRef) (x : FeedSt) (hw : within [.mbx] ps = true) (hk : changesOnly ps z s) :
    changesOnly ps z (markFeed s r x) := by
  refine changes_step hw ?_ hk
  clear hk
  unfold markFeed
  try dsimp only
  repeat' first
    | with_reducible exact changesOnly_refl _ _
    | with_reducible apply changes_modLanes
    | (rw [mk_withRest]; with_reducible apply changes_withRest)
    | (intro l; show laneOnly _ _ _; intro p hp; ((repeat' split) <;> cases p <;> first | exact Bool.noConfusion (show true = false from hp) | exact trivial | rfl | exact ⟨rfl, rfl⟩ | exact ⟨rfl, rfl, rfl⟩))
    | (show ∀ q, _ → sameModule q _ _; intro p hp; (cases p <;> first | exact Bool.noConfusion (show true = false from hp) | exact trivial | rfl | exact ⟨rfl, rfl⟩ | exact ⟨rfl, rfl, rfl⟩))
    | split

theorem chg_beginFeed {ps : List Part} {z : State} (s : State) (p : Port) (q : Nat) (hw : within [.chk, .mbx] ps = true) (hk : changesOnly ps z s) :
    changesOnly ps z (beginFeed s p q) := by
  refine changes_step hw ?_ hk
  clear hk
  unfold beginFeed
  try dsimp only
  repeat' first
    | with_reducible assumption
    | with_reducible exact changesOnly_refl _ _
    | with_reducible apply chg_startUsers
    | with_reducible apply chg_markFeed
    | with_reducible apply changes_foldS
    | (show within _ _ = true; decide)
    | (show ∀ q, _ → sameModule q _ _; intro p hp; (cases p <;> first | exact Bool.noConfusion (show true = false from hp) | exact trivial | rfl | exact ⟨rfl, rfl⟩ | exact ⟨rfl, rfl, rfl⟩))
    | (with_reducible intro t x hk)
    | (with_reducible intro t hk)
    | split

theorem chg_dmaFailed {ps : List Part} {z : State} (s : State) (p : Port) (q : Nat) (ofData : Bool) (hw : within [.eic, .chk, .mbx, .ports] ps = true) (hk : changesOnly ps z s) :
    changesOnly ps z (dmaFailed s p q ofData) := by
  refine changes_step hw ?_ hk
  clear hk
  unfold dmaFailed
  try dsimp only
  repeat' first
    | with_reducible exact changesOnly_refl _ _
    | with_reducible apply chg_beginFeed
    | with_reducible apply chg_dataFailed
    | with_reducible apply chg_haltDma
    | (show within _ _ = true; decide)
    | (show ∀ q, _ → sameModule q _ _; intro p hp; (cases p <;> first | exact Bool.noConfusion (show true = false from hp) | exact trivial | rfl | exact ⟨rfl, rfl⟩ | exact ⟨rfl, rfl, rfl⟩))
    | split

theorem chg_execDmaError {ps : List Part} {z : State} (p : Port) (x : DmaRead) (s : State) (q0 : State) (hw : within [.eic, .chk, .mbx, .ports] ps = true) (hk : changesOnly ps z s) :
    changesOnly ps z (thenState q0 (execDmaError p x s)) := by
  refine changes_step hw ?_ hk
  clear hk
  unfold execDmaError
  dsimp only [thenState]
  repeat' first
    | with_reducible exact changesOnly_refl _ _
    | with_reducible apply chg_dmaFailed
    | (show within _ _ = true; decide)
    | (show ∀ q, _ → sameModule q _ _; intro p hp; (cases p <;> first | exact Bool.noConfusion (show true = false from hp) | exact trivial | rfl | exact ⟨rfl, rfl⟩ | exact ⟨rfl, rfl, rfl⟩))
    | split

theorem chg_noteTimeout {ps : List Part} {z : State} (s : State) (p : Port) (hw : within [.ports] ps = true) (hk : changesOnly ps z s) :
    changesOnly ps z (noteTimeout s p) := by
  refine changes_step hw ?_ hk
  clear hk
  unfold noteTimeout
  try dsimp only
  repeat' first
    | with_reducible exact changesOnly_refl _ _
    | with_reducible apply changes_modPort
    | (rw [mk_withRest]; with_reducible apply changes_withRest)
    | (show List.contains _ _ = true; decide)
    | (show ∀ q, _ → sameModule q _ _; intro p hp; (cases p <;> first | exact Bool.noConfusion (show true = false from hp) | exact trivial | rfl | exact ⟨rfl, rfl⟩ | exact ⟨rfl, rfl, rfl⟩))
    | split

theorem chg_execDmaTimeout {ps : List Part} {z : State} (p : Port) (x : DmaRead) (s : State) (q0 : State) (hw : within [.eic, .chk, .mbx, .ports] ps = true) (hk : changesOnly ps z s) :
    changesOnly ps z (thenState q0 (execDmaTimeout p x s)) := by
  refine changes_step hw ?_ hk
  clear hk
  unfold execDmaTimeout
  dsimp only [thenState]
  repeat' first
    | with_reducible exact changesOnly_refl _ _
    | with_reducible apply chg_dmaFailed
    | with_reducible apply chg_noteTimeout
    | (show within _ _ = true; decide)
    | (show ∀ q, _ → sameModule q _ _; intro p hp; (cases p <;> first | exact Bool.noConfusion (show true = false from hp) | exact trivial | rfl | exact ⟨rfl, rfl⟩ | exact ⟨rfl, rfl, rfl⟩))
    | split

theorem chg_batchClose {ps : List Part} {z : State} (s : State) (hw : within [.mbx, .ports] ps = true) (hk : changesOnly ps z s) :
    changesOnly ps z (batchClose s) := by
  refine changes_step hw ?_ hk
  clear hk
  unfold batchClose
  try dsimp only
  repeat' first
    | with_reducible assumption
    | with_reducible exact changesOnly_refl _ _
    | with_reducible apply changes_modLane
    | with_reducible apply changes_modPort
    | with_reducible apply changes_foldS
    | (show List.contains _ _ = true; decide)
    | (show laneOnly _ _ _; intro p hp; (cases p <;> first | exact Bool.noConfusion (show true = false from hp) | exact trivial | rfl | exact ⟨rfl, rfl⟩ | exact ⟨rfl, rfl, rfl⟩))
    | (with_reducible intro t x hk)
    | split

theorem chg_dropCompletions {ps : List Part} {z : State} (s : State) (f : Completion → Bool) (hw : within [.mbx] ps = true) (hk : changesOnly ps z s) :
    changesOnly ps z (dropCompletions s f) := by
  refine changes_step hw ?_ hk
  clear hk
  unfold dropCompletions
  try dsimp only
  repeat' first
    | with_reducible exact changesOnly_refl _ _
    | with_reducible apply changes_modLanes
    | (intro l; show laneOnly _ _ _; intro p hp; (cases p <;> first | exact Bool.noConfusion (show true = false from hp) | exact trivial | rfl | exact ⟨rfl, rfl⟩ | exact ⟨rfl, rfl, rfl⟩))

theorem chg_countCompletion {ps : List Part} {z : State} (s : State) (p : Port) (c : Completion) (hw : within [.eic, .staging, .ports, .lifetime, .log] ps = true) (hk : changesOnly ps z s) :
    changesOnly ps z (countCompletion s p c) := by
  refine changes_step hw ?_ hk
  clear hk
  unfold countCompletion
  try dsimp only
  repeat' first
    | with_reducible assumption
    | with_reducible exact changesOnly_refl _ _
    | with_reducible apply chg_eventLane
    | with_reducible apply changes_modLife
    | with_reducible apply changes_whenS
    | (show within _ _ = true; decide)
    | (show List.contains _ _ = true; decide)
    | (with_reducible intro t hk)
    | split

theorem chg_signalCompletion {ps : List Part} {z : State} (s : State) (p : Port) (c : Completion) (hw : within [.ports] ps = true) (hk : changesOnly ps z s) :
    changesOnly ps z (signalCompletion s p c) := by
  refine changes_step hw ?_ hk
  clear hk
  unfold signalCompletion
  try dsimp only
  repeat' first
    | with_reducible exact changesOnly_refl _ _
    | with_reducible apply chg_sendVector
    | with_reducible apply chg_modCq
    | (rw [mk_withRest]; with_reducible apply changes_withRest)
    | (show within _ _ = true; decide)
    | (show ∀ q, _ → sameModule q _ _; intro p hp; (cases p <;> first | exact Bool.noConfusion (show true = false from hp) | exact trivial | rfl | exact ⟨rfl, rfl⟩ | exact ⟨rfl, rfl, rfl⟩))
    | split

theorem chg_settleTaken {ps : List Part} {z : LaneState} (c : Completion) (L : LaneState) (hw : within [.mbx] ps = true) (hk : laneOnly ps z L) :
    laneOnly ps z (settleTaken c L) := by
  refine laneOnly_step hw ?_ hk
  clear hk
  unfold settleTaken
  try dsimp only
  repeat' first
    | (show laneOnly _ _ _; intro p hp; ((repeat' split) <;> cases p <;> first | exact Bool.noConfusion (show true = false from hp) | exact trivial | rfl | exact ⟨rfl, rfl⟩ | exact ⟨rfl, rfl, rfl⟩))

theorem chg_writeCompletion {ps : List Part} {z : State} (s : State) (p : Port) (c : Completion) (hw : within [.eic, .staging, .mbx, .ports, .lifetime, .log, .hostMem] ps = true) (hk : changesOnly ps z s) :
    changesOnly ps z (writeCompletion s p c) := by
  refine changes_step hw ?_ hk
  clear hk
  unfold writeCompletion
  try dsimp only
  repeat' first
    | with_reducible exact changesOnly_refl _ _
    | with_reducible exact laneOnly_refl _ _
    | with_reducible apply chg_modSq
    | with_reducible apply chg_modCq
    | with_reducible apply chg_dropCompletions
    | with_reducible apply chg_countCompletion
    | with_reducible apply chg_signalCompletion
    | with_reducible apply chg_settleTaken
    | (intro l; with_reducible apply chg_settleTaken)
    | with_reducible apply changes_modLanes
    | (rw [mk_withRest]; with_reducible apply changes_withRest)
    | (show within _ _ = true; decide)
    | (intro l; show laneOnly _ _ _; intro p hp; ((repeat' split) <;> cases p <;> first | exact Bool.noConfusion (show true = false from hp) | exact trivial | rfl | exact ⟨rfl, rfl⟩ | exact ⟨rfl, rfl, rfl⟩))
    | (show ∀ q, _ → sameModule q _ _; intro p hp; (cases p <;> first | exact Bool.noConfusion (show true = false from hp) | exact trivial | rfl | exact ⟨rfl, rfl⟩ | exact ⟨rfl, rfl, rfl⟩))
    | with_reducible apply laneOnly_refl
    | split

theorem chg_execCompletionWrite {ps : List Part} {z : State} (p : Port) (s : State) (q0 : State) (hw : within [.eic, .staging, .mbx, .ports, .lifetime, .log, .hostMem] ps = true) (hk : changesOnly ps z s) :
    changesOnly ps z (thenState q0 (execCompletionWrite p s)) := by
  refine changes_step hw ?_ hk
  clear hk
  unfold execCompletionWrite
  dsimp only [thenState]
  repeat' first
    | with_reducible exact changesOnly_refl _ _
    | with_reducible apply chg_dropCompletions
    | with_reducible apply chg_fenceCheck
    | with_reducible apply chg_writeCompletion
    | (show within _ _ = true; decide)
    | split

theorem chg_execCoalesceExpiry {ps : List Part} {z : State} (p : Port) (q : Fin 16) (s : State) (q0 : State) (hw : within [.ports] ps = true) (hk : changesOnly ps z s) :
    changesOnly ps z (thenState q0 (execCoalesceExpiry p q s)) := by
  refine changes_step hw ?_ hk
  clear hk
  unfold execCoalesceExpiry
  dsimp only [thenState]
  repeat' first
    | with_reducible exact changesOnly_refl _ _
    | with_reducible apply chg_sendVector
    | with_reducible apply chg_modCq
    | (show within _ _ = true; decide)
    | split

theorem chg_execPeerAccessTimeout {ps : List Part} {z : State} (_p : Port) (_l : Lane) (write : Bool) (s : State) (q0 : State) (hw : within [.bus] ps = true) (hk : changesOnly ps z s) :
    changesOnly ps z (thenState q0 (execPeerAccessTimeout _p _l write s)) := by
  refine changes_step hw ?_ hk
  clear hk
  unfold execPeerAccessTimeout
  dsimp only [thenState]
  repeat' first
    | with_reducible exact changesOnly_refl _ _
    | with_reducible apply chg_answer
    | (show within _ _ = true; decide)
    | split

theorem chg_execUnalignedAccess {ps : List Part} {z : State} (p : Port) (_l : Lane) (write : Bool) (s : State) (q0 : State) (hw : within [.ports, .bus] ps = true) (hk : changesOnly ps z s) :
    changesOnly ps z (thenState q0 (execUnalignedAccess p _l write s)) := by
  refine changes_step hw ?_ hk
  clear hk
  unfold execUnalignedAccess
  dsimp only [thenState]
  repeat' first
    | with_reducible exact changesOnly_refl _ _
    | with_reducible apply chg_answer
    | with_reducible apply chg_noAnswer
    | with_reducible apply changes_modPort
    | (rw [mk_withRest]; with_reducible apply changes_withRest)
    | (show within _ _ = true; decide)
    | (show List.contains _ _ = true; decide)
    | (show ∀ q, _ → sameModule q _ _; intro p hp; (cases p <;> first | exact Bool.noConfusion (show true = false from hp) | exact trivial | rfl | exact ⟨rfl, rfl⟩ | exact ⟨rfl, rfl, rfl⟩))
    | split

end Sys2Proof.Laws
end

