-- ==== Sys2Proof/Laws/ChangesVote.lean ====
section
/-!
SUPPORT. The parts of the state that every operation of the route and assignment engine and the vote may change (Safety.changesOnly), one lemma for each operation
and for each command.
-/

namespace Sys2Proof.Laws

open Sys2Proof.Machine Sys2Proof.Safety

theorem chg_countDissent {ps : List Part} {z : State} (s : State) (found : BitVec 3) (hw : within [.lifetime] ps = true) (hk : changesOnly ps z s) :
    changesOnly ps z (countDissent s found) := by
  refine changes_step hw ?_ hk
  clear hk
  unfold countDissent
  try dsimp only
  repeat' first
    | with_reducible exact changesOnly_refl _ _
    | with_reducible apply changes_modLife
    | (rw [mk_withRest]; with_reducible apply changes_withRest)
    | (show List.contains _ _ = true; decide)
    | (show ∀ q, _ → sameModule q _ _; intro p hp; (cases p <;> first | exact Bool.noConfusion (show true = false from hp) | exact trivial | rfl | exact ⟨rfl, rfl⟩ | exact ⟨rfl, rfl, rfl⟩))
    | split

theorem chg_modRaa {ps : List Part} {z : State} (s : State) (l : Lane) (f : Raa → Raa) (hw : within [.raa] ps = true) (hk : changesOnly ps z s) :
    changesOnly ps z (modRaa s l f) := by
  refine changes_step hw ?_ hk
  clear hk
  unfold modRaa
  try dsimp only
  repeat' first
    | with_reducible exact changesOnly_refl _ _
    | with_reducible apply changes_modLane
    | (show laneOnly _ _ _; intro p hp; (cases p <;> first | exact Bool.noConfusion (show true = false from hp) | exact trivial | rfl | exact ⟨rfl, rfl⟩ | exact ⟨rfl, rfl, rfl⟩))

theorem chg_eventRef {ps : List Part} {z : State} (s : State) (l : Lane) (src code : Nat) (payload : List Byte) (hw : within [.eic, .staging, .ports, .log] ps = true) (hk : changesOnly ps z s) :
    changesOnly ps z (eventRef s l src code payload) := by
  refine changes_step hw ?_ hk
  clear hk
  unfold eventRef
  try dsimp only
  repeat' first
    | with_reducible exact changesOnly_refl _ _
    | with_reducible apply chg_eventAll
    | (show within _ _ = true; decide)
    | split

theorem chg_proofFail {ps : List Part} {z : State} (s : State) (l : Lane) (n t : Nat) (news : Bool) (hw : within [.raa, .eic, .staging, .ports, .lifetime, .log] ps = true) (hk : changesOnly ps z s) :
    changesOnly ps z (proofFail s l n t news) := by
  refine changes_step hw ?_ hk
  clear hk
  unfold proofFail
  try dsimp only
  repeat' first
    | with_reducible exact changesOnly_refl _ _
    | with_reducible apply chg_eventAll
    | with_reducible apply chg_modRaa
    | with_reducible apply changes_modLife
    | (rw [mk_withRest]; with_reducible apply changes_withRest)
    | (show within _ _ = true; decide)
    | (show List.contains _ _ = true; decide)
    | (show ∀ q, _ → sameModule q _ _; intro p hp; (cases p <;> first | exact Bool.noConfusion (show true = false from hp) | exact trivial | rfl | exact ⟨rfl, rfl⟩ | exact ⟨rfl, rfl, rfl⟩))
    | split

theorem chg_setTimeoutEvent {ps : List Part} {z : State} (v : Vintage) (s : State) (l : Lane) (n : Nat) (hw : within [.eic, .staging, .ports, .log] ps = true) (hk : changesOnly ps z s) :
    changesOnly ps z (setTimeoutEvent v s l n) := by
  refine changes_step hw ?_ hk
  clear hk
  unfold setTimeoutEvent
  try dsimp only
  repeat' first
    | with_reducible exact changesOnly_refl _ _
    | with_reducible apply chg_eventRef
    | (show within _ _ = true; decide)

theorem chg_proveOne {ps : List Part} {z : State} (v : Vintage) (l : Lane) (s : State) (n : Nat) (hw : within [.raa, .eic, .staging, .ports, .lifetime, .log] ps = true) (hk : changesOnly ps z s) :
    changesOnly ps z (proveOne v l s n) := by
  refine changes_step hw ?_ hk
  clear hk
  unfold proveOne
  try dsimp only
  repeat' first
    | with_reducible exact changesOnly_refl _ _
    | with_reducible apply chg_modRaa
    | with_reducible apply chg_proofFail
    | with_reducible apply chg_setTimeoutEvent
    | (rw [mk_withRest]; with_reducible apply changes_withRest)
    | (show within _ _ = true; decide)
    | (show ∀ q, _ → sameModule q _ _; intro p hp; (cases p <;> first | exact Bool.noConfusion (show true = false from hp) | exact trivial | rfl | exact ⟨rfl, rfl⟩ | exact ⟨rfl, rfl, rfl⟩))
    | split

theorem chg_proveRoutes {ps : List Part} {z : State} (v : Vintage) (l : Lane) (s : State) (due : List (Nat × Nat)) (hw : within [.raa, .eic, .staging, .ports, .lifetime, .log] ps = true) (hk : changesOnly ps z s) :
    changesOnly ps z (proveRoutes v l s due) := by
  refine changes_step hw ?_ hk
  clear hk
  unfold proveRoutes
  try dsimp only
  repeat' first
    | with_reducible assumption
    | with_reducible exact changesOnly_refl _ _
    | with_reducible apply chg_proveOne
    | with_reducible apply changes_foldS
    | (show within _ _ = true; decide)
    | (show ∀ q, _ → sameModule q _ _; intro p hp; (cases p <;> first | exact Bool.noConfusion (show true = false from hp) | exact trivial | rfl | exact ⟨rfl, rfl⟩ | exact ⟨rfl, rfl, rfl⟩))
    | (with_reducible intro t x hk)
    | (with_reducible intro t hk)
    | split

theorem chg_provePass {ps : List Part} {z : State} (v : Vintage) (s : State) (l : Lane) (hw : within [.raa, .eic, .staging, .ports, .lifetime, .log] ps = true) (hk : changesOnly ps z s) :
    changesOnly ps z (provePass v s l) := by
  refine changes_step hw ?_ hk
  clear hk
  unfold provePass
  try dsimp only
  repeat' first
    | with_reducible assumption
    | with_reducible exact changesOnly_refl _ _
    | with_reducible apply chg_proveRoutes
    | (show within _ _ = true; decide)
    | (show ∀ q, _ → sameModule q _ _; intro p hp; (cases p <;> first | exact Bool.noConfusion (show true = false from hp) | exact trivial | rfl | exact ⟨rfl, rfl⟩ | exact ⟨rfl, rfl, rfl⟩))
    | with_reducible apply changes_foldS
    | (with_reducible intro t x hk)
    | (with_reducible intro t hk)
    | split

theorem chg_proveBefore {ps : List Part} {z : State} (v : Vintage) (s : State) (l : Lane) (hw : within [.raa, .eic, .staging, .ports, .lifetime, .log] ps = true) (hk : changesOnly ps z s) :
    changesOnly ps z (proveBefore v s l) := by
  refine changes_step hw ?_ hk
  clear hk
  unfold proveBefore
  try dsimp only
  repeat' first
    | with_reducible exact changesOnly_refl _ _
    | with_reducible apply chg_proveRoutes
    | (show within _ _ = true; decide)
    | (show ∀ q, _ → sameModule q _ _; intro p hp; (cases p <;> first | exact Bool.noConfusion (show true = false from hp) | exact trivial | rfl | exact ⟨rfl, rfl⟩ | exact ⟨rfl, rfl, rfl⟩))
    | split

theorem chg_report {ps : List Part} {z : State} (v : Vintage) (s : State) (l : Lane) (e : QEntry) (r : Raa) (st term : Nat) (hw : within [.raa, .mbx] ps = true) (hk : changesOnly ps z s) :
    changesOnly ps z (report v s l e r st term) := by
  refine changes_step hw ?_ hk
  clear hk
  unfold report
  try dsimp only
  repeat' first
    | with_reducible exact changesOnly_refl _ _
    | with_reducible apply chg_modRaa
    | with_reducible apply chg_finishLane
    | (show within _ _ = true; decide)
    | split

theorem chg_decideHead {ps : List Part} {z : State} (v : Vintage) (s : State) (l : Lane) (e : QEntry) (rest : List QEntry) (hw : within [.raa, .eic, .staging, .mbx, .ports, .lifetime, .log] ps = true) (hk : changesOnly ps z s) :
    changesOnly ps z (decideHead v s l e rest) := by
  refine changes_step hw ?_ hk
  clear hk
  unfold decideHead
  try dsimp only
  repeat' first
    | with_reducible exact changesOnly_refl _ _
    | with_reducible apply chg_proveBefore
    | with_reducible apply chg_report
    | (rw [mk_withRest]; with_reducible apply changes_withRest)
    | (show within _ _ = true; decide)
    | (show ∀ q, _ → sameModule q _ _; intro p hp; (cases p <;> first | exact Bool.noConfusion (show true = false from hp) | exact trivial | rfl | exact ⟨rfl, rfl⟩ | exact ⟨rfl, rfl, rfl⟩))
    | split

theorem chg_decisionRow {ps : List Part} {z : State} (s : State) (l : Lane) (mine : QEntry → Bool) (hw : within [.raa, .eic, .staging, .mbx, .ports, .lifetime, .log] ps = true) (hk : changesOnly ps z s) :
    changesOnly ps z (decisionRow s l mine) := by
  refine changes_step hw ?_ hk
  clear hk
  unfold decisionRow
  try dsimp only
  repeat' first
    | with_reducible exact changesOnly_refl _ _
    | with_reducible apply chg_decideHead
    | (show within _ _ = true; decide)
    | split

theorem chg_execRreqDecision {ps : List Part} {z : State} (l : Lane) (s : State) (q0 : State) (hw : within [.raa, .eic, .staging, .mbx, .ports, .lifetime, .log] ps = true) (hk : changesOnly ps z s) :
    changesOnly ps z (thenState q0 (execRreqDecision l s)) := by
  refine changes_step hw ?_ hk
  clear hk
  unfold execRreqDecision
  dsimp only [thenState]
  repeat' first
    | with_reducible exact changesOnly_refl _ _
    | with_reducible apply chg_decisionRow
    | (show within _ _ = true; decide)

theorem chg_execRcanDecision {ps : List Part} {z : State} (l : Lane) (s : State) (q0 : State) (hw : within [.raa, .eic, .staging, .mbx, .ports, .lifetime, .log] ps = true) (hk : changesOnly ps z s) :
    changesOnly ps z (thenState q0 (execRcanDecision l s)) := by
  refine changes_step hw ?_ hk
  clear hk
  unfold execRcanDecision
  dsimp only [thenState]
  repeat' first
    | with_reducible exact changesOnly_refl _ _
    | with_reducible apply chg_decisionRow
    | (show within _ _ = true; decide)

theorem chg_execCallA {ps : List Part} {z : State} (l : Lane) (s : State) (q0 : State) (hw : within [.raa, .eic, .staging, .mbx, .ports, .lifetime, .log] ps = true) (hk : changesOnly ps z s) :
    changesOnly ps z (thenState q0 (execCallA l s)) := by
  refine changes_step hw ?_ hk
  clear hk
  unfold execCallA
  dsimp only [thenState]
  repeat' first
    | with_reducible exact changesOnly_refl _ _
    | with_reducible apply chg_decisionRow
    | (show within _ _ = true; decide)

theorem chg_execCallB {ps : List Part} {z : State} (l : Lane) (s : State) (q0 : State) (hw : within [.raa, .eic, .staging, .mbx, .ports, .lifetime, .log] ps = true) (hk : changesOnly ps z s) :
    changesOnly ps z (thenState q0 (execCallB l s)) := by
  refine changes_step hw ?_ hk
  clear hk
  unfold execCallB
  dsimp only [thenState]
  repeat' first
    | with_reducible exact changesOnly_refl _ _
    | with_reducible apply chg_decisionRow
    | (show within _ _ = true; decide)

theorem chg_execBlockElem {ps : List Part} {z : State} (l : Lane) (s : State) (q0 : State) (hw : within [.raa, .eic, .staging, .mbx, .ports, .lifetime, .log] ps = true) (hk : changesOnly ps z s) :
    changesOnly ps z (thenState q0 (execBlockElem l s)) := by
  refine changes_step hw ?_ hk
  clear hk
  unfold execBlockElem
  dsimp only [thenState]
  repeat' first
    | with_reducible exact changesOnly_refl _ _
    | with_reducible apply chg_decisionRow
    | (show within _ _ = true; decide)

theorem chg_execUnblockElem {ps : List Part} {z : State} (l : Lane) (s : State) (q0 : State) (hw : within [.raa, .eic, .staging, .mbx, .ports, .lifetime, .log] ps = true) (hk : changesOnly ps z s) :
    changesOnly ps z (thenState q0 (execUnblockElem l s)) := by
  refine changes_step hw ?_ hk
  clear hk
  unfold execUnblockElem
  dsimp only [thenState]
  repeat' first
    | with_reducible exact changesOnly_refl _ _
    | with_reducible apply chg_decisionRow
    | (show within _ _ = true; decide)

theorem chg_execVirtualSet {ps : List Part} {z : State} (l : Lane) (s : State) (q0 : State) (hw : within [.raa, .eic, .staging, .mbx, .ports, .lifetime, .log] ps = true) (hk : changesOnly ps z s) :
    changesOnly ps z (thenState q0 (execVirtualSet l s)) := by
  refine changes_step hw ?_ hk
  clear hk
  unfold execVirtualSet
  dsimp only [thenState]
  repeat' first
    | with_reducible exact changesOnly_refl _ _
    | with_reducible apply chg_decisionRow
    | (show within _ _ = true; decide)

theorem chg_execVirtualClear {ps : List Part} {z : State} (l : Lane) (s : State) (q0 : State) (hw : within [.raa, .eic, .staging, .mbx, .ports, .lifetime, .log] ps = true) (hk : changesOnly ps z s) :
    changesOnly ps z (thenState q0 (execVirtualClear l s)) := by
  refine changes_step hw ?_ hk
  clear hk
  unfold execVirtualClear
  dsimp only [thenState]
  repeat' first
    | with_reducible exact changesOnly_refl _ _
    | with_reducible apply chg_decisionRow
    | (show within _ _ = true; decide)

theorem chg_execResetFault {ps : List Part} {z : State} (l : Lane) (s : State) (q0 : State) (hw : within [.raa, .eic, .staging, .mbx, .ports, .lifetime, .log] ps = true) (hk : changesOnly ps z s) :
    changesOnly ps z (thenState q0 (execResetFault l s)) := by
  refine changes_step hw ?_ hk
  clear hk
  unfold execResetFault
  dsimp only [thenState]
  repeat' first
    | with_reducible exact changesOnly_refl _ _
    | with_reducible apply chg_decisionRow
    | (show within _ _ = true; decide)

theorem chg_proofRow {ps : List Part} {z : State} (s : State) (l : Lane) (f : Vintage → State → State)
    (hf : ∀ v t, changesOnly ps z t → changesOnly ps z (f v t)) (hw : within [] ps = true) (hk : changesOnly ps z s) :
    changesOnly ps z (proofRow s l f) := by
  unfold proofRow
  split
  · exact hk
  · split
    · exact hf _ _ hk
    · exact hk

theorem chg_proveOn {ps : List Part} {z : State} (v : Vintage) (s : State) (l : Lane) (hw : within [.raa, .eic, .staging, .ports, .lifetime, .log] ps = true) (hk : changesOnly ps z s) :
    changesOnly ps z (proveOn v s l) := by
  refine changes_step hw ?_ hk
  clear hk
  unfold proveOn
  try dsimp only
  repeat' first
    | with_reducible exact changesOnly_refl _ _
    | with_reducible apply chg_proveRoutes
    | (show within _ _ = true; decide)
    | (show ∀ q, _ → sameModule q _ _; intro p hp; (cases p <;> first | exact Bool.noConfusion (show true = false from hp) | exact trivial | rfl | exact ⟨rfl, rfl⟩ | exact ⟨rfl, rfl, rfl⟩))
    | split

theorem chg_execReProof {ps : List Part} {z : State} (l : Lane) (s : State) (q0 : State) (hw : within [.raa, .eic, .staging, .ports, .lifetime, .log] ps = true) (hk : changesOnly ps z s) :
    changesOnly ps z (thenState q0 (execReProof l s)) := by
  refine changes_step hw ?_ hk
  clear hk
  unfold execReProof
  dsimp only [thenState]
  repeat' first
    | with_reducible assumption
    | with_reducible exact changesOnly_refl _ _
    | with_reducible apply chg_proveOn
    | with_reducible apply chg_proofRow
    | (show within _ _ = true; decide)
    | (show ∀ q, _ → sameModule q _ _; intro p hp; (cases p <;> first | exact Bool.noConfusion (show true = false from hp) | exact trivial | rfl | exact ⟨rfl, rfl⟩ | exact ⟨rfl, rfl, rfl⟩))
    | (with_reducible intro t x hk)
    | (with_reducible intro t hk)
    | split

theorem chg_execOverlapRelease {ps : List Part} {z : State} (l : Lane) (route : BitVec 14) (s : State) (q0 : State) (hw : within [.raa] ps = true) (hk : changesOnly ps z s) :
    changesOnly ps z (thenState q0 (execOverlapRelease l route s)) := by
  refine changes_step hw ?_ hk
  clear hk
  unfold execOverlapRelease
  dsimp only [thenState]
  repeat' first
    | with_reducible assumption
    | with_reducible exact changesOnly_refl _ _
    | with_reducible apply chg_proofRow
    | with_reducible apply chg_modRaa
    | (show within _ _ = true; decide)
    | (with_reducible intro t x hk)
    | split

theorem chg_execCancelRelease {ps : List Part} {z : State} (l : Lane) (route : BitVec 14) (s : State) (q0 : State) (hw : within [.raa] ps = true) (hk : changesOnly ps z s) :
    changesOnly ps z (thenState q0 (execCancelRelease l route s)) := by
  refine changes_step hw ?_ hk
  clear hk
  unfold execCancelRelease
  dsimp only [thenState]
  repeat' first
    | with_reducible assumption
    | with_reducible exact changesOnly_refl _ _
    | with_reducible apply chg_proofRow
    | with_reducible apply chg_modRaa
    | (show within _ _ = true; decide)
    | (with_reducible intro t x hk)
    | split

theorem chg_execSetTimeout {ps : List Part} {z : State} (l : Lane) (route : BitVec 14) (s : State) (q0 : State) (hw : within [.raa, .eic, .staging, .ports, .log] ps = true) (hk : changesOnly ps z s) :
    changesOnly ps z (thenState q0 (execSetTimeout l route s)) := by
  refine changes_step hw ?_ hk
  clear hk
  unfold execSetTimeout
  dsimp only [thenState]
  repeat' first
    | with_reducible assumption
    | with_reducible exact changesOnly_refl _ _
    | with_reducible apply chg_proofRow
    | with_reducible apply chg_setTimeoutEvent
    | with_reducible apply chg_modRaa
    | (show within _ _ = true; decide)
    | (with_reducible intro t x hk)
    | split

theorem chg_moveFaultEvent {ps : List Part} {z : State} (s : State) (l : Lane) (e : Nat) (hw : within [.eic, .staging, .ports, .log] ps = true) (hk : changesOnly ps z s) :
    changesOnly ps z (moveFaultEvent s l e) := by
  refine changes_step hw ?_ hk
  clear hk
  unfold moveFaultEvent
  try dsimp only
  repeat' first
    | with_reducible exact changesOnly_refl _ _
    | with_reducible apply chg_eventRef
    | (show within _ _ = true; decide)

theorem chg_execMoveFault {ps : List Part} {z : State} (l : Lane) (element : BitVec 16) (s : State) (q0 : State) (hw : within [.raa, .eic, .staging, .ports, .log] ps = true) (hk : changesOnly ps z s) :
    changesOnly ps z (thenState q0 (execMoveFault l element s)) := by
  refine changes_step hw ?_ hk
  clear hk
  unfold execMoveFault
  dsimp only [thenState]
  repeat' first
    | with_reducible assumption
    | with_reducible exact changesOnly_refl _ _
    | with_reducible apply chg_proofRow
    | with_reducible apply chg_moveFaultEvent
    | with_reducible apply chg_modRaa
    | (show within _ _ = true; decide)
    | (with_reducible intro t x hk)
    | split

theorem chg_execRaaHoldoverPeak {ps : List Part} {z : State} (a : RegAccess) (s : State) (q0 : State) (hw : within [.raa, .bus] ps = true) (hk : changesOnly ps z s) :
    changesOnly ps z (thenState q0 (execRaaHoldoverPeak a s)) := by
  refine changes_step hw ?_ hk
  clear hk
  unfold execRaaHoldoverPeak
  dsimp only [thenState]
  repeat' first
    | with_reducible exact changesOnly_refl _ _
    | with_reducible apply chg_answer
    | with_reducible apply chg_modRaa
    | with_reducible apply chg_noAnswer
    | (show within _ _ = true; decide)
    | split

theorem chg_execLaneRaaPeak {ps : List Part} {z : State} (a : RegAccess) (s : State) (q0 : State) (hw : within [.times, .bus] ps = true) (hk : changesOnly ps z s) :
    changesOnly ps z (thenState q0 (execLaneRaaPeak a s)) := by
  refine changes_step hw ?_ hk
  clear hk
  unfold execLaneRaaPeak
  dsimp only [thenState]
  repeat' first
    | with_reducible exact changesOnly_refl _ _
    | with_reducible apply chg_answer
    | with_reducible apply chg_noAnswer
    | with_reducible apply changes_modLane
    | (show within _ _ = true; decide)
    | (show laneOnly _ _ _; intro p hp; (cases p <;> first | exact Bool.noConfusion (show true = false from hp) | exact trivial | rfl | exact ⟨rfl, rfl⟩ | exact ⟨rfl, rfl, rfl⟩))
    | split

theorem chg_setDrives {ps : List Part} {z : State} (s : State) (hw : within [.sluices] ps = true) (hk : changesOnly ps z s) :
    changesOnly ps z (setDrives s) := by
  refine changes_step hw ?_ hk
  clear hk
  unfold setDrives
  try dsimp only
  repeat' first
    | with_reducible exact changesOnly_refl _ _
    | with_reducible apply changes_modSluices
    | (rw [mk_withRest]; with_reducible apply changes_withRest)
    | (show List.contains _ _ = true; decide)
    | (show ∀ q, _ → sameModule q _ _; intro p hp; (cases p <;> first | exact Bool.noConfusion (show true = false from hp) | exact trivial | rfl | exact ⟨rfl, rfl⟩ | exact ⟨rfl, rfl, rfl⟩))
    | split

theorem chg_voteTested {ps : List Part} {z : State} (s : State) (ok : Bool) (hw : within [.clock] ps = true) (hk : changesOnly ps z s) :
    changesOnly ps z (voteTested s ok) := by
  refine changes_step hw ?_ hk
  clear hk
  unfold voteTested
  try dsimp only
  repeat' first
    | with_reducible exact changesOnly_refl _ _
    | (rw [mk_withRest]; with_reducible apply changes_withRest)
    | (show ∀ q, _ → sameModule q _ _; intro p hp; (cases p <;> first | exact Bool.noConfusion (show true = false from hp) | exact trivial | rfl | exact ⟨rfl, rfl⟩ | exact ⟨rfl, rfl, rfl⟩))

theorem chg_noteVote {ps : List Part} {z : State} (s : State) (out : Lane → VoteOut) (t : BitVec 28) (hw : within [.sluices] ps = true) (hk : changesOnly ps z s) :
    changesOnly ps z (noteVote s out t) := by
  refine changes_step hw ?_ hk
  clear hk
  unfold noteVote
  try dsimp only
  repeat' first
    | with_reducible exact changesOnly_refl _ _
    | with_reducible apply changes_modSluices
    | (rw [mk_withRest]; with_reducible apply changes_withRest)
    | (show List.contains _ _ = true; decide)
    | (show ∀ q, _ → sameModule q _ _; intro p hp; (cases p <;> first | exact Bool.noConfusion (show true = false from hp) | exact trivial | rfl | exact ⟨rfl, rfl⟩ | exact ⟨rfl, rfl, rfl⟩))
    | split

theorem chg_linkFault {ps : List Part} {z : State} (s : State) (f : LinkFault) (hw : within [.link] ps = true) (hk : changesOnly ps z s) :
    changesOnly ps z (linkFault s f) := by
  refine changes_step hw ?_ hk
  clear hk
  unfold linkFault
  try dsimp only
  repeat' first
    | with_reducible exact changesOnly_refl _ _
    | with_reducible apply changes_modLane
    | (rw [mk_withRest]; with_reducible apply changes_withRest)
    | (show laneOnly _ _ _; intro p hp; (cases p <;> first | exact Bool.noConfusion (show true = false from hp) | exact trivial | rfl | exact ⟨rfl, rfl⟩ | exact ⟨rfl, rfl, rfl⟩))
    | (show laneOnly _ _ _; intro p hp; ((repeat' split) <;> cases p <;> first | exact Bool.noConfusion (show true = false from hp) | exact trivial | rfl | exact ⟨rfl, rfl⟩ | exact ⟨rfl, rfl, rfl⟩))
    | (show ∀ q, _ → sameModule q _ _; intro p hp; (cases p <;> first | exact Bool.noConfusion (show true = false from hp) | exact trivial | rfl | exact ⟨rfl, rfl⟩ | exact ⟨rfl, rfl, rfl⟩))
    | split

theorem chg_flushImage {ps : List Part} {z : State} (s : State) (l : Lane) (at3 : BitVec 3) (hw : within [.link] ps = true) (hk : changesOnly ps z s) :
    changesOnly ps z (flushImage s l at3) := by
  refine changes_step hw ?_ hk
  clear hk
  unfold flushImage
  try dsimp only
  repeat' first
    | with_reducible exact changesOnly_refl _ _
    | with_reducible apply changes_modLane
    | (rw [mk_withRest]; with_reducible apply changes_withRest)
    | (show laneOnly _ _ _; intro p hp; (cases p <;> first | exact Bool.noConfusion (show true = false from hp) | exact trivial | rfl | exact ⟨rfl, rfl⟩ | exact ⟨rfl, rfl, rfl⟩))
    | (show laneOnly _ _ _; intro p hp; ((repeat' split) <;> cases p <;> first | exact Bool.noConfusion (show true = false from hp) | exact trivial | rfl | exact ⟨rfl, rfl⟩ | exact ⟨rfl, rfl, rfl⟩))
    | (show ∀ q, _ → sameModule q _ _; intro p hp; (cases p <;> first | exact Bool.noConfusion (show true = false from hp) | exact trivial | rfl | exact ⟨rfl, rfl⟩ | exact ⟨rfl, rfl, rfl⟩))
    | split

theorem chg_sluiceResetLine {ps : List Part} {z : State} (s : State) (l : Lane) (hw : within [.link, .sluices] ps = true) (hk : changesOnly ps z s) :
    changesOnly ps z (sluiceResetLine s l) := by
  refine changes_step hw ?_ hk
  clear hk
  unfold sluiceResetLine
  try dsimp only
  repeat' first
    | with_reducible assumption
    | with_reducible exact changesOnly_refl _ _
    | with_reducible apply chg_flushImage
    | with_reducible apply changes_foldS
    | with_reducible apply changes_modLane
    | with_reducible apply changes_modSluice
    | (rw [mk_withRest]; with_reducible apply changes_withRest)
    | (show within _ _ = true; decide)
    | (show List.contains _ _ = true; decide)
    | (show laneOnly _ _ _; intro p hp; (cases p <;> first | exact Bool.noConfusion (show true = false from hp) | exact trivial | rfl | exact ⟨rfl, rfl⟩ | exact ⟨rfl, rfl, rfl⟩))
    | (show laneOnly _ _ _; intro p hp; ((repeat' split) <;> cases p <;> first | exact Bool.noConfusion (show true = false from hp) | exact trivial | rfl | exact ⟨rfl, rfl⟩ | exact ⟨rfl, rfl, rfl⟩))
    | (show ∀ q, _ → sameModule q _ _; intro p hp; (cases p <;> first | exact Bool.noConfusion (show true = false from hp) | exact trivial | rfl | exact ⟨rfl, rfl⟩ | exact ⟨rfl, rfl, rfl⟩))
    | (with_reducible intro t x hk)
    | (with_reducible intro t hk)
    | split

theorem chg_execLaneSwitchTest {ps : List Part} {z : State} (l : Lane) (s : State) (q0 : State) (hw : within [.sluices] ps = true) (hk : changesOnly ps z s) :
    changesOnly ps z (thenState q0 (execLaneSwitchTest l s)) := by
  refine changes_step hw ?_ hk
  clear hk
  unfold execLaneSwitchTest
  dsimp only [thenState]
  repeat' first
    | with_reducible exact changesOnly_refl _ _
    | with_reducible apply changes_modSluice
    | (show List.contains _ _ = true; decide)
    | split

theorem chg_execSwitchTestReadback {ps : List Part} {z : State} (l : Lane) (readback : Word) (s : State) (q0 : State) (hw : within [.eic, .staging, .sluices, .field, .ports, .lifetime, .log] ps = true) (hk : changesOnly ps z s) :
    changesOnly ps z (thenState q0 (execSwitchTestReadback l readback s)) := by
  refine changes_step hw ?_ hk
  clear hk
  unfold execSwitchTestReadback
  dsimp only [thenState]
  repeat' first
    | with_reducible assumption
    | with_reducible exact changesOnly_refl _ _
    | with_reducible apply chg_retireOut
    | with_reducible apply changes_modSluice
    | with_reducible apply changes_foldS
    | (show within _ _ = true; decide)
    | (show List.contains _ _ = true; decide)
    | (with_reducible intro t x hk)
    | split

theorem chg_stuckOpen {ps : List Part} {z : State} (s : State) (n : Nat) (hw : within [.eic, .staging, .field, .ports, .log] ps = true) (hk : changesOnly ps z s) :
    changesOnly ps z (stuckOpen s n) := by
  refine changes_step hw ?_ hk
  clear hk
  unfold stuckOpen
  try dsimp only
  repeat' first
    | with_reducible exact changesOnly_refl _ _
    | with_reducible apply chg_modOut
    | with_reducible apply chg_eventAll
    | (show within _ _ = true; decide)

theorem chg_openViews {ps : List Part} {z : LaneState} (c : Word) (L : LaneState) (hw : within [.press] ps = true) (hk : laneOnly ps z L) :
    laneOnly ps z (openViews c L) := by
  refine laneOnly_step hw ?_ hk
  clear hk
  unfold openViews
  try dsimp only
  repeat' first
    | with_reducible exact laneOnly_refl _ _
    | (show laneOnly _ _ _; intro p hp; (cases p <;> first | exact Bool.noConfusion (show true = false from hp) | exact trivial | rfl | exact ⟨rfl, rfl⟩ | exact ⟨rfl, rfl, rfl⟩))
    | (show laneOnly _ _ _; intro p hp; ((repeat' split) <;> cases p <;> first | exact Bool.noConfusion (show true = false from hp) | exact trivial | rfl | exact ⟨rfl, rfl⟩ | exact ⟨rfl, rfl, rfl⟩))
    | split

theorem chg_putSnapshot {ps : List Part} {z : LaneState} (own : LaneState) (x : Snapshot) (hw : within [.press, .raa, .sessions, .fieldIn, .mbx] ps = true) (hk : laneOnly ps z own) :
    laneOnly ps z (putSnapshot own x) := by
  refine laneOnly_step hw ?_ hk
  clear hk
  unfold putSnapshot
  try dsimp only
  repeat' first
    | with_reducible exact laneOnly_refl _ _
    | (show laneOnly _ _ _; intro p hp; (cases p <;> first | exact Bool.noConfusion (show true = false from hp) | exact trivial | rfl | exact ⟨rfl, rfl⟩ | exact ⟨rfl, rfl, rfl⟩))
    | (show laneOnly _ _ _; intro p hp; ((repeat' split) <;> cases p <;> first | exact Bool.noConfusion (show true = false from hp) | exact trivial | rfl | exact ⟨rfl, rfl⟩ | exact ⟨rfl, rfl, rfl⟩))
    | split

end Sys2Proof.Laws
end

