-- ==== Sys2Proof/Laws/ChangesLife.lean ====
section
/-!
SUPPORT. The parts of the state that every operation of self-tests, lanes, supplies and the start may change (Safety.changesOnly), one lemma for each operation
and for each command.
-/

namespace Sys2Proof.Laws

open Sys2Proof.Machine Sys2Proof.Safety

theorem chg_settleLevels {ps : List Part} {z : State} (s : State) (l : Lane) (hw : within [.eic, .ports] ps = true) (hk : changesOnly ps z s) :
    changesOnly ps z (settleLevels s l) := by
  refine changes_step hw ?_ hk
  clear hk
  unfold settleLevels
  try dsimp only
  repeat' first
    | with_reducible assumption
    | with_reducible exact changesOnly_refl _ _
    | with_reducible apply chg_eicLevel
    | with_reducible apply changes_foldS
    | (show within _ _ = true; decide)
    | (with_reducible intro t x hk)

theorem chg_movePhase {ps : List Part} {z : State} (s : State) (l : Lane) (ph : BitVec 3) (hw : within [.eic, .bist, .ports] ps = true) (hk : changesOnly ps z s) :
    changesOnly ps z (movePhase s l ph) := by
  refine changes_step hw ?_ hk
  clear hk
  unfold movePhase
  try dsimp only
  repeat' first
    | with_reducible exact changesOnly_refl _ _
    | with_reducible apply chg_setPhase
    | with_reducible apply chg_settleLevels
    | (show within _ _ = true; decide)
    | split

theorem chg_endBist {ps : List Part} {z : State} (s : State) (l : Lane) (hw : within [.life, .eic, .staging, .bist, .ports, .log] ps = true) (hk : changesOnly ps z s) :
    changesOnly ps z (endBist s l) := by
  refine changes_step hw ?_ hk
  clear hk
  unfold endBist
  try dsimp only
  repeat' first
    | with_reducible exact changesOnly_refl _ _
    | with_reducible apply chg_recordLane
    | with_reducible apply chg_setPhase
    | with_reducible apply chg_movePhase
    | with_reducible apply changes_modLane
    | (rw [mk_withRest]; with_reducible apply changes_withRest)
    | (show within _ _ = true; decide)
    | (show laneOnly _ _ _; intro p hp; (cases p <;> first | exact Bool.noConfusion (show true = false from hp) | exact trivial | rfl | exact ⟨rfl, rfl⟩ | exact ⟨rfl, rfl, rfl⟩))
    | (show laneOnly _ _ _; intro p hp; ((repeat' split) <;> cases p <;> first | exact Bool.noConfusion (show true = false from hp) | exact trivial | rfl | exact ⟨rfl, rfl⟩ | exact ⟨rfl, rfl, rfl⟩))
    | (show ∀ q, _ → sameModule q _ _; intro p hp; (cases p <;> first | exact Bool.noConfusion (show true = false from hp) | exact trivial | rfl | exact ⟨rfl, rfl⟩ | exact ⟨rfl, rfl, rfl⟩))
    | split

theorem chg_enterSafe {ps : List Part} {z : State} (s : State) (hw : within [.mode, .life, .press, .raa, .eic, .staging, .bist, .link, .sluices, .ports, .log, .free] ps = true) (hk : changesOnly ps z s) :
    changesOnly ps z (enterSafe s) := by
  refine changes_step hw ?_ hk
  clear hk
  unfold enterSafe
  try dsimp only
  repeat' first
    | with_reducible assumption
    | with_reducible exact changesOnly_refl _ _
    | with_reducible exact laneOnly_refl _ _
    | with_reducible apply chg_recordAll
    | with_reducible apply chg_setModule
    | with_reducible apply chg_setLatch
    | with_reducible apply chg_endBist
    | with_reducible apply chg_safeLane
    | (intro l; with_reducible apply chg_safeLane)
    | with_reducible apply changes_foldS
    | with_reducible apply changes_modLanes
    | (show within _ _ = true; decide)
    | (intro l; show laneOnly _ _ _; intro p hp; ((repeat' split) <;> cases p <;> first | exact Bool.noConfusion (show true = false from hp) | exact trivial | rfl | exact ⟨rfl, rfl⟩ | exact ⟨rfl, rfl, rfl⟩))
    | (show ∀ q, _ → sameModule q _ _; intro p hp; (cases p <;> first | exact Bool.noConfusion (show true = false from hp) | exact trivial | rfl | exact ⟨rfl, rfl⟩ | exact ⟨rfl, rfl, rfl⟩))
    | (intro l; show laneOnly _ _ _; intro p hp; (cases p <;> first | exact Bool.noConfusion (show true = false from hp) | exact trivial | rfl | exact ⟨rfl, rfl⟩ | exact ⟨rfl, rfl, rfl⟩))
    | (with_reducible intro t x hk)
    | (with_reducible intro t hk)
    | split

theorem chg_latchAll {ps : List Part} {z : State} (s : State) (c : LatchCause) (hw : within [.mode, .life, .press, .raa, .eic, .staging, .bist, .link, .sluices, .ports, .log, .free] ps = true) (hk : changesOnly ps z s) :
    changesOnly ps z (latchAll s c) := by
  refine changes_step hw ?_ hk
  clear hk
  unfold latchAll
  try dsimp only
  repeat' first
    | with_reducible assumption
    | with_reducible exact changesOnly_refl _ _
    | with_reducible apply chg_enterSafe
    | with_reducible apply chg_setLatch
    | with_reducible apply changes_foldS
    | (show within _ _ = true; decide)
    | (with_reducible intro t x hk)

theorem chg_afterLoss {ps : List Part} {z : State} (s : State) (c : LatchCause) (hw : within [.mode, .life, .press, .raa, .eic, .staging, .bist, .link, .sluices, .ports, .log, .free] ps = true) (hk : changesOnly ps z s) :
    changesOnly ps z (afterLoss s c) := by
  refine changes_step hw ?_ hk
  clear hk
  unfold afterLoss
  try dsimp only
  repeat' first
    | with_reducible exact changesOnly_refl _ _
    | with_reducible apply chg_latchAll
    | with_reducible apply chg_setModule
    | (show within _ _ = true; decide)
    | split

theorem chg_latchSafe {ps : List Part} {z : State} (s : State) (hw : within [.mode, .life, .press, .raa, .eic, .staging, .bist, .link, .sluices, .ports, .log, .free] ps = true) (hk : changesOnly ps z s) :
    changesOnly ps z (latchSafe s) := by
  refine changes_step hw ?_ hk
  clear hk
  unfold latchSafe
  try dsimp only
  repeat' first
    | with_reducible exact changesOnly_refl _ _
    | with_reducible apply chg_enterSafe
    | (show within _ _ = true; decide)
    | (show ∀ q, _ → sameModule q _ _; intro p hp; (cases p <;> first | exact Bool.noConfusion (show true = false from hp) | exact trivial | rfl | exact ⟨rfl, rfl⟩ | exact ⟨rfl, rfl, rfl⟩))
    | split

theorem chg_isolateNow {ps : List Part} {z : State} (s : State) (l : Lane) (c : IsoCause) (onLoss : LatchCause) (hw : within [.mode, .laneState, .life, .press, .raa, .eic, .staging, .bank, .bist, .link, .sluices, .ports, .lifetime, .log, .free] ps = true) (hk : changesOnly ps z s) :
    changesOnly ps z (isolateNow s l c onLoss) := by
  refine changes_step hw ?_ hk
  clear hk
  unfold isolateNow
  try dsimp only
  repeat' first
    | with_reducible exact changesOnly_refl _ _
    | with_reducible exact laneOnly_refl _ _
    | with_reducible apply chg_eicRaiseAll
    | with_reducible apply chg_recordAll
    | with_reducible apply chg_eventAll
    | with_reducible apply chg_endBist
    | with_reducible apply chg_afterLoss
    | with_reducible apply chg_laneOut
    | with_reducible apply chg_abortSwitchTests
    | with_reducible apply chg_dropLane
    | with_reducible apply chg_dropPlanned
    | with_reducible apply chg_latchSafe
    | (intro l; with_reducible apply chg_laneOut)
    | with_reducible apply changes_modLane
    | with_reducible apply changes_modPages
    | (rw [mk_withRest]; with_reducible apply changes_withRest)
    | (show within _ _ = true; decide)
    | (show List.contains _ _ = true; decide)
    | (show laneOnly _ _ _; intro p hp; (cases p <;> first | exact Bool.noConfusion (show true = false from hp) | exact trivial | rfl | exact ⟨rfl, rfl⟩ | exact ⟨rfl, rfl, rfl⟩))
    | (show laneOnly _ _ _; intro p hp; ((repeat' split) <;> cases p <;> first | exact Bool.noConfusion (show true = false from hp) | exact trivial | rfl | exact ⟨rfl, rfl⟩ | exact ⟨rfl, rfl, rfl⟩))
    | (show ∀ q, _ → sameModule q _ _; intro p hp; (cases p <;> first | exact Bool.noConfusion (show true = false from hp) | exact trivial | rfl | exact ⟨rfl, rfl⟩ | exact ⟨rfl, rfl, rfl⟩))
    | with_reducible apply changes_modLife
    | split

theorem chg_isolateWith {ps : List Part} {z : State} (s : State) (l : Lane) (c : IsoCause) (onLoss : LatchCause) (hw : within [.mode, .laneState, .life, .press, .raa, .eic, .staging, .bank, .bist, .link, .sluices, .ports, .lifetime, .log, .free] ps = true) (hk : changesOnly ps z s) :
    changesOnly ps z (isolateWith s l c onLoss) := by
  refine changes_step hw ?_ hk
  clear hk
  unfold isolateWith
  try dsimp only
  repeat' first
    | with_reducible exact changesOnly_refl _ _
    | with_reducible apply chg_isolateNow
    | with_reducible apply chg_recordAll
    | (show within _ _ = true; decide)
    | split

theorem chg_isolate {ps : List Part} {z : State} (s : State) (l : Lane) (c : IsoCause) (hw : within [.mode, .laneState, .life, .press, .raa, .eic, .staging, .bank, .bist, .link, .sluices, .ports, .lifetime, .log, .free] ps = true) (hk : changesOnly ps z s) :
    changesOnly ps z (isolate s l c) := by
  refine changes_step hw ?_ hk
  clear hk
  unfold isolate
  try dsimp only
  repeat' first
    | with_reducible exact changesOnly_refl _ _
    | with_reducible apply chg_isolateWith
    | (show within _ _ = true; decide)

theorem chg_execEngineSelfCheck {ps : List Part} {z : State} (l : Lane) (found : Option (BitVec 4)) (s : State) (q0 : State) (hw : within [.mode, .laneState, .life, .press, .raa, .eic, .chk, .staging, .bank, .bist, .link, .sluices, .ports, .lifetime, .log, .free] ps = true) (hk : changesOnly ps z s) :
    changesOnly ps z (thenState q0 (execEngineSelfCheck l found s)) := by
  refine changes_step hw ?_ hk
  clear hk
  unfold execEngineSelfCheck
  dsimp only [thenState]
  repeat' first
    | with_reducible exact changesOnly_refl _ _
    | with_reducible apply chg_isolate
    | with_reducible apply changes_modLane
    | (rw [mk_withRest]; with_reducible apply changes_withRest)
    | (show within _ _ = true; decide)
    | (show laneOnly _ _ _; intro p hp; (cases p <;> first | exact Bool.noConfusion (show true = false from hp) | exact trivial | rfl | exact ⟨rfl, rfl⟩ | exact ⟨rfl, rfl, rfl⟩))
    | (show laneOnly _ _ _; intro p hp; ((repeat' split) <;> cases p <;> first | exact Bool.noConfusion (show true = false from hp) | exact trivial | rfl | exact ⟨rfl, rfl⟩ | exact ⟨rfl, rfl, rfl⟩))
    | (show ∀ q, _ → sameModule q _ _; intro p hp; (cases p <;> first | exact Bool.noConfusion (show true = false from hp) | exact trivial | rfl | exact ⟨rfl, rfl⟩ | exact ⟨rfl, rfl, rfl⟩))
    | split

theorem chg_execNetworkMismatch {ps : List Part} {z : State} (l : Lane) (s : State) (q0 : State) (hw : within [.mode, .laneState, .life, .press, .raa, .eic, .chk, .staging, .bank, .bist, .link, .sluices, .ports, .lifetime, .log, .free] ps = true) (hk : changesOnly ps z s) :
    changesOnly ps z (thenState q0 (execNetworkMismatch l s)) := by
  refine changes_step hw ?_ hk
  clear hk
  unfold execNetworkMismatch
  dsimp only [thenState]
  repeat' first
    | with_reducible exact changesOnly_refl _ _
    | with_reducible apply chg_isolate
    | with_reducible apply changes_modLane
    | (show within _ _ = true; decide)
    | (show laneOnly _ _ _; intro p hp; (cases p <;> first | exact Bool.noConfusion (show true = false from hp) | exact trivial | rfl | exact ⟨rfl, rfl⟩ | exact ⟨rfl, rfl, rfl⟩))
    | split

theorem chg_pressFault {ps : List Part} {z : State} (s : State) (l : Lane) (i : Fin 4) (k : PressFault) (addr : Nat) (hw : within [.mode, .laneState, .life, .press, .raa, .eic, .staging, .bank, .bist, .link, .sluices, .ports, .lifetime, .log, .free] ps = true) (hk : changesOnly ps z s) :
    changesOnly ps z (pressFault s l i k addr) := by
  refine changes_step hw ?_ hk
  clear hk
  unfold pressFault
  try dsimp only
  repeat' first
    | with_reducible exact changesOnly_refl _ _
    | with_reducible apply chg_eventLane
    | with_reducible apply chg_isolate
    | with_reducible apply changes_modLane
    | (show within _ _ = true; decide)
    | (show laneOnly _ _ _; intro p hp; (cases p <;> first | exact Bool.noConfusion (show true = false from hp) | exact trivial | rfl | exact ⟨rfl, rfl⟩ | exact ⟨rfl, rfl, rfl⟩))

theorem chg_pressPut {ps : List Part} {z : State} (s : State) (w : PressWord) (p : Press) (r : PressResult) (hw : within [.mode, .laneState, .life, .press, .raa, .eic, .staging, .bank, .bist, .link, .sluices, .ports, .lifetime, .log, .free] ps = true) (hk : changesOnly ps z s) :
    changesOnly ps z (pressPut s w p r) := by
  refine changes_step hw ?_ hk
  clear hk
  unfold pressPut
  try dsimp only
  repeat' first
    | with_reducible exact changesOnly_refl _ _
    | with_reducible apply chg_pressFault
    | with_reducible apply chg_logicDone
    | with_reducible apply changes_modLane
    | (show within _ _ = true; decide)
    | (show laneOnly _ _ _; intro p hp; (cases p <;> first | exact Bool.noConfusion (show true = false from hp) | exact trivial | rfl | exact ⟨rfl, rfl⟩ | exact ⟨rfl, rfl, rfl⟩))
    | split

theorem chg_runWord {ps : List Part} {z : State} (s : State) (w : PressWord) (closing : Bool) (legal : Nat → Nat → Bool) (body : State → LaneState → Strand → PressResult) (hw : within [.mode, .laneState, .life, .press, .raa, .eic, .staging, .bank, .bist, .link, .sluices, .ports, .lifetime, .log, .free] ps = true) (hk : changesOnly ps z s) :
    changesOnly ps z (runWord s w closing legal body) := by
  refine changes_step hw ?_ hk
  clear hk
  unfold runWord
  try dsimp only
  repeat' first
    | with_reducible exact changesOnly_refl _ _
    | with_reducible apply chg_pressFault
    | with_reducible apply chg_pressPut
    | with_reducible apply changes_modLane
    | (rw [mk_withRest]; with_reducible apply changes_withRest)
    | (show within _ _ = true; decide)
    | (show laneOnly _ _ _; intro p hp; (cases p <;> first | exact Bool.noConfusion (show true = false from hp) | exact trivial | rfl | exact ⟨rfl, rfl⟩ | exact ⟨rfl, rfl, rfl⟩))
    | (show laneOnly _ _ _; intro p hp; ((repeat' split) <;> cases p <;> first | exact Bool.noConfusion (show true = false from hp) | exact trivial | rfl | exact ⟨rfl, rfl⟩ | exact ⟨rfl, rfl, rfl⟩))
    | (show ∀ q, _ → sameModule q _ _; intro p hp; (cases p <;> first | exact Bool.noConfusion (show true = false from hp) | exact trivial | rfl | exact ⟨rfl, rfl⟩ | exact ⟨rfl, rfl, rfl⟩))
    | with_reducible apply laneOnly_refl
    | split

theorem chg_latchRule {ps : List Part} {z : State} (s : State) (hw : within [.mode, .laneState, .life, .press, .raa, .eic, .staging, .bank, .bist, .link, .sluices, .ports, .lifetime, .log, .free] ps = true) (hk : changesOnly ps z s) :
    changesOnly ps z (latchRule s) := by
  refine changes_step hw ?_ hk
  clear hk
  unfold latchRule
  try dsimp only
  repeat' first
    | with_reducible exact changesOnly_refl _ _
    | with_reducible apply chg_enterSafe
    | with_reducible apply chg_isolate
    | with_reducible apply chg_countDissent
    | with_reducible apply changes_modLane
    | with_reducible apply changes_modSluice
    | (rw [mk_withRest]; with_reducible apply changes_withRest)
    | (show within _ _ = true; decide)
    | (show List.contains _ _ = true; decide)
    | (show laneOnly _ _ _; intro p hp; (cases p <;> first | exact Bool.noConfusion (show true = false from hp) | exact trivial | rfl | exact ⟨rfl, rfl⟩ | exact ⟨rfl, rfl, rfl⟩))
    | (show laneOnly _ _ _; intro p hp; ((repeat' split) <;> cases p <;> first | exact Bool.noConfusion (show true = false from hp) | exact trivial | rfl | exact ⟨rfl, rfl⟩ | exact ⟨rfl, rfl, rfl⟩))
    | (show ∀ q, _ → sameModule q _ _; intro p hp; (cases p <;> first | exact Bool.noConfusion (show true = false from hp) | exact trivial | rfl | exact ⟨rfl, rfl⟩ | exact ⟨rfl, rfl, rfl⟩))
    | split

theorem chg_overrunLane {ps : List Part} {z : State} (also : List IsoCause) (s : State) (l : Lane) (hw : within [.mode, .laneState, .life, .press, .raa, .eic, .staging, .bank, .bist, .link, .times, .sluices, .ports, .lifetime, .log, .free] ps = true) (hk : changesOnly ps z s) :
    changesOnly ps z (overrunLane also s l) := by
  refine changes_step hw ?_ hk
  clear hk
  unfold overrunLane
  try dsimp only
  repeat' first
    | with_reducible exact changesOnly_refl _ _
    | with_reducible apply chg_isolate
    | with_reducible apply changes_modLane
    | with_reducible apply changes_modLife
    | (rw [mk_withRest]; with_reducible apply changes_withRest)
    | (show within _ _ = true; decide)
    | (show List.contains _ _ = true; decide)
    | (show laneOnly _ _ _; intro p hp; (cases p <;> first | exact Bool.noConfusion (show true = false from hp) | exact trivial | rfl | exact ⟨rfl, rfl⟩ | exact ⟨rfl, rfl, rfl⟩))
    | (show laneOnly _ _ _; intro p hp; ((repeat' split) <;> cases p <;> first | exact Bool.noConfusion (show true = false from hp) | exact trivial | rfl | exact ⟨rfl, rfl⟩ | exact ⟨rfl, rfl, rfl⟩))
    | (show ∀ q, _ → sameModule q _ _; intro p hp; (cases p <;> first | exact Bool.noConfusion (show true = false from hp) | exact trivial | rfl | exact ⟨rfl, rfl⟩ | exact ⟨rfl, rfl, rfl⟩))
    | split

theorem chg_dissentLane {ps : List Part} {z : State} (s : State) (l : Lane) (found : BitVec 3) (hw : within [.mode, .laneState, .life, .press, .raa, .eic, .staging, .bank, .bist, .link, .sluices, .ports, .lifetime, .log, .free] ps = true) (hk : changesOnly ps z s) :
    changesOnly ps z (dissentLane s l found) := by
  refine changes_step hw ?_ hk
  clear hk
  unfold dissentLane
  try dsimp only
  repeat' first
    | with_reducible exact changesOnly_refl _ _
    | with_reducible apply chg_isolate
    | with_reducible apply chg_countDissent
    | with_reducible apply changes_modSluices
    | (rw [mk_withRest]; with_reducible apply changes_withRest)
    | (show within _ _ = true; decide)
    | (show List.contains _ _ = true; decide)
    | (show ∀ q, _ → sameModule q _ _; intro p hp; (cases p <;> first | exact Bool.noConfusion (show true = false from hp) | exact trivial | rfl | exact ⟨rfl, rfl⟩ | exact ⟨rfl, rfl, rfl⟩))
    | split

theorem chg_shadowCompare {ps : List Part} {z : State} (s : State) (l : Lane) (hw : within [.mode, .laneState, .life, .press, .raa, .eic, .staging, .bank, .bist, .link, .times, .sluices, .ports, .lifetime, .log, .free] ps = true) (hk : changesOnly ps z s) :
    changesOnly ps z (shadowCompare s l) := by
  refine changes_step hw ?_ hk
  clear hk
  unfold shadowCompare
  try dsimp only
  repeat' first
    | with_reducible exact changesOnly_refl _ _
    | with_reducible apply chg_isolate
    | with_reducible apply changes_modLane
    | (rw [mk_withRest]; with_reducible apply changes_withRest)
    | (show within _ _ = true; decide)
    | (show laneOnly _ _ _; intro p hp; (cases p <;> first | exact Bool.noConfusion (show true = false from hp) | exact trivial | rfl | exact ⟨rfl, rfl⟩ | exact ⟨rfl, rfl, rfl⟩))
    | (show laneOnly _ _ _; intro p hp; ((repeat' split) <;> cases p <;> first | exact Bool.noConfusion (show true = false from hp) | exact trivial | rfl | exact ⟨rfl, rfl⟩ | exact ⟨rfl, rfl, rfl⟩))
    | (show ∀ q, _ → sameModule q _ _; intro p hp; (cases p <;> first | exact Bool.noConfusion (show true = false from hp) | exact trivial | rfl | exact ⟨rfl, rfl⟩ | exact ⟨rfl, rfl, rfl⟩))
    | split

theorem chg_dissentVoter {ps : List Part} {z : State} (out : Lane → VoteOut) (s : State) (l : Lane) (hw : within [.mode, .laneState, .life, .press, .raa, .eic, .staging, .bank, .bist, .link, .sluices, .ports, .lifetime, .log, .free] ps = true) (hk : changesOnly ps z s) :
    changesOnly ps z (dissentVoter out s l) := by
  refine changes_step hw ?_ hk
  clear hk
  unfold dissentVoter
  try dsimp only
  repeat' first
    | with_reducible exact changesOnly_refl _ _
    | with_reducible apply chg_isolate
    | with_reducible apply chg_dissentLane
    | with_reducible apply changes_modLife
    | (rw [mk_withRest]; with_reducible apply changes_withRest)
    | (show within _ _ = true; decide)
    | (show List.contains _ _ = true; decide)
    | (show ∀ q, _ → sameModule q _ _; intro p hp; (cases p <;> first | exact Bool.noConfusion (show true = false from hp) | exact trivial | rfl | exact ⟨rfl, rfl⟩ | exact ⟨rfl, rfl, rfl⟩))
    | split

theorem chg_takeResults {ps : List Part} {z : State} (s : State) (hw : within [.mode, .clock, .laneState, .life, .press, .raa, .eic, .staging, .bank, .bist, .link, .times, .sluices, .field, .ports, .lifetime, .log, .free] ps = true) (hk : changesOnly ps z s) :
    changesOnly ps z (takeResults s) := by
  refine changes_step hw ?_ hk
  clear hk
  unfold takeResults
  try dsimp only
  repeat' first
    | with_reducible assumption
    | with_reducible exact changesOnly_refl _ _
    | with_reducible apply chg_setDrives
    | with_reducible apply chg_shadowCompare
    | with_reducible apply changes_foldS
    | (rw [mk_withRest]; with_reducible apply changes_withRest)
    | (show within _ _ = true; decide)
    | (show ∀ q, _ → sameModule q _ _; intro p hp; (cases p <;> first | exact Bool.noConfusion (show true = false from hp) | exact trivial | rfl | exact ⟨rfl, rfl⟩ | exact ⟨rfl, rfl, rfl⟩))
    | (with_reducible intro t x hk)
    | (with_reducible intro t hk)
    | split

theorem chg_decideVote {ps : List Part} {z : State} (t : BitVec 28) (s : State) (hw : within [.mode, .clock, .laneState, .life, .press, .raa, .eic, .staging, .bank, .bist, .link, .times, .sluices, .field, .ports, .lifetime, .log, .free] ps = true) (hk : changesOnly ps z s) :
    changesOnly ps z (decideVote t s) := by
  refine changes_step hw ?_ hk
  clear hk
  unfold decideVote
  try dsimp only
  repeat' first
    | with_reducible assumption
    | with_reducible exact changesOnly_refl _ _
    | with_reducible apply chg_setLatch
    | with_reducible apply chg_latchRule
    | with_reducible apply chg_voteTested
    | with_reducible apply chg_takeResults
    | with_reducible apply chg_noteVote
    | with_reducible apply chg_dissentVoter
    | with_reducible apply changes_foldS
    | (show within _ _ = true; decide)
    | (show ∀ q, _ → sameModule q _ _; intro p hp; (cases p <;> first | exact Bool.noConfusion (show true = false from hp) | exact trivial | rfl | exact ⟨rfl, rfl⟩ | exact ⟨rfl, rfl, rfl⟩))
    | with_reducible apply changes_modSluices
    | (show List.contains _ _ = true; decide)
    | (with_reducible intro t x hk)
    | (with_reducible intro t hk)
    | split

theorem chg_voteNow {ps : List Part} {z : State} (atNs : BitVec 28) (s : State) (hw : within [.mode, .clock, .laneState, .life, .press, .raa, .eic, .staging, .bank, .bist, .link, .times, .sluices, .field, .ports, .lifetime, .log, .free] ps = true) (hk : changesOnly ps z s) :
    changesOnly ps z (voteNow atNs s) := by
  refine changes_step hw ?_ hk
  clear hk
  unfold voteNow
  try dsimp only
  repeat' first
    | with_reducible assumption
    | with_reducible exact changesOnly_refl _ _
    | with_reducible apply chg_overrunLane
    | with_reducible apply chg_decideVote
    | with_reducible apply changes_foldS
    | (show within _ _ = true; decide)
    | (show ∀ q, _ → sameModule q _ _; intro p hp; (cases p <;> first | exact Bool.noConfusion (show true = false from hp) | exact trivial | rfl | exact ⟨rfl, rfl⟩ | exact ⟨rfl, rfl, rfl⟩))
    | with_reducible apply changes_modSluices
    | (show List.contains _ _ = true; decide)
    | (with_reducible intro t x hk)
    | (with_reducible intro t hk)
    | split

theorem chg_execVote {ps : List Part} {z : State} (v : VoteMoment) (s : State) (q0 : State) (hw : within [.mode, .clock, .laneState, .life, .press, .raa, .eic, .staging, .bank, .bist, .link, .times, .sluices, .field, .ports, .lifetime, .log, .free] ps = true) (hk : changesOnly ps z s) :
    changesOnly ps z (thenState q0 (execVote v s)) := by
  refine changes_step hw ?_ hk
  clear hk
  unfold execVote
  dsimp only [thenState]
  repeat' first
    | with_reducible assumption
    | with_reducible exact changesOnly_refl _ _
    | with_reducible apply chg_linkFault
    | with_reducible apply chg_voteNow
    | with_reducible apply changes_foldS
    | (show within _ _ = true; decide)
    | (show ∀ q, _ → sameModule q _ _; intro p hp; (cases p <;> first | exact Bool.noConfusion (show true = false from hp) | exact trivial | rfl | exact ⟨rfl, rfl⟩ | exact ⟨rfl, rfl, rfl⟩))
    | (with_reducible intro t x hk)
    | (with_reducible intro t hk)
    | split

theorem chg_execUncaused {ps : List Part} {z : State} (l : Lane) (s : State) (q0 : State) (hw : within [.mode, .laneState, .life, .press, .raa, .eic, .staging, .bank, .bist, .link, .sluices, .ports, .lifetime, .log, .free] ps = true) (hk : changesOnly ps z s) :
    changesOnly ps z (thenState q0 (execUncaused l s)) := by
  refine changes_step hw ?_ hk
  clear hk
  unfold execUncaused
  dsimp only [thenState]
  repeat' first
    | with_reducible exact changesOnly_refl _ _
    | with_reducible apply chg_latchRule
    | with_reducible apply chg_setLatch
    | (show within _ _ = true; decide)
    | split

theorem chg_execCheckBlock {ps : List Part} {z : State} (path : ImagePath) (block : Option Word) (s : State) (q0 : State) (hw : within [.mode, .laneState, .life, .press, .raa, .eic, .staging, .bank, .bist, .link, .times, .sluices, .ports, .lifetime, .log, .free] ps = true) (hk : changesOnly ps z s) :
    changesOnly ps z (thenState q0 (execCheckBlock path block s)) := by
  refine changes_step hw ?_ hk
  clear hk
  unfold execCheckBlock
  dsimp only [thenState]
  repeat' first
    | with_reducible exact changesOnly_refl _ _
    | with_reducible apply chg_isolate
    | with_reducible apply chg_shadowCompare
    | with_reducible apply changes_modLane
    | with_reducible apply changes_modLife
    | (rw [mk_withRest]; with_reducible apply changes_withRest)
    | (show within _ _ = true; decide)
    | (show List.contains _ _ = true; decide)
    | (show laneOnly _ _ _; intro p hp; (cases p <;> first | exact Bool.noConfusion (show true = false from hp) | exact trivial | rfl | exact ⟨rfl, rfl⟩ | exact ⟨rfl, rfl, rfl⟩))
    | (show laneOnly _ _ _; intro p hp; ((repeat' split) <;> cases p <;> first | exact Bool.noConfusion (show true = false from hp) | exact trivial | rfl | exact ⟨rfl, rfl⟩ | exact ⟨rfl, rfl, rfl⟩))
    | (show ∀ q, _ → sameModule q _ _; intro p hp; (cases p <;> first | exact Bool.noConfusion (show true = false from hp) | exact trivial | rfl | exact ⟨rfl, rfl⟩ | exact ⟨rfl, rfl, rfl⟩))
    | split

theorem chg_digestDissent {ps : List Part} {z : State} (s : State) (l : Lane) (hw : within [.mode, .clock, .laneState, .life, .press, .raa, .eic, .staging, .bank, .bist, .link, .sluices, .ports, .lifetime, .log, .free] ps = true) (hk : changesOnly ps z s) :
    changesOnly ps z (digestDissent s l) := by
  refine changes_step hw ?_ hk
  clear hk
  unfold digestDissent
  try dsimp only
  repeat' first
    | with_reducible exact changesOnly_refl _ _
    | with_reducible apply chg_dissentLane
    | with_reducible apply chg_voteTested
    | (show within _ _ = true; decide)
    | (show ∀ q, _ → sameModule q _ _; intro p hp; (cases p <;> first | exact Bool.noConfusion (show true = false from hp) | exact trivial | rfl | exact ⟨rfl, rfl⟩ | exact ⟨rfl, rfl, rfl⟩))
    | split

theorem chg_digestSafe {ps : List Part} {z : State} (s : State) (c : LatchCause) (hw : within [.mode, .clock, .laneState, .life, .press, .raa, .eic, .staging, .bank, .bist, .link, .sluices, .ports, .lifetime, .log, .free] ps = true) (hk : changesOnly ps z s) :
    changesOnly ps z (digestSafe s c) := by
  refine changes_step hw ?_ hk
  clear hk
  unfold digestSafe
  try dsimp only
  repeat' first
    | with_reducible assumption
    | with_reducible exact changesOnly_refl _ _
    | with_reducible apply chg_setLatch
    | with_reducible apply chg_latchRule
    | with_reducible apply chg_voteTested
    | with_reducible apply changes_foldS
    | with_reducible apply changes_modSluices
    | (rw [mk_withRest]; with_reducible apply changes_withRest)
    | (show within _ _ = true; decide)
    | (show List.contains _ _ = true; decide)
    | (show ∀ q, _ → sameModule q _ _; intro p hp; (cases p <;> first | exact Bool.noConfusion (show true = false from hp) | exact trivial | rfl | exact ⟨rfl, rfl⟩ | exact ⟨rfl, rfl, rfl⟩))
    | (with_reducible intro t x hk)
    | (with_reducible intro t hk)
    | split

theorem chg_digestCheck {ps : List Part} {z : State} (s : State) (d : PerLane (BitVec 64)) (hw : within [.mode, .clock, .laneState, .life, .press, .raa, .eic, .staging, .bank, .bist, .link, .sluices, .ports, .lifetime, .log, .free] ps = true) (hk : changesOnly ps z s) :
    changesOnly ps z (digestCheck s d) := by
  refine changes_step hw ?_ hk
  clear hk
  unfold digestCheck
  try dsimp only
  repeat' first
    | with_reducible exact changesOnly_refl _ _
    | with_reducible apply chg_digestDissent
    | with_reducible apply chg_digestSafe
    | with_reducible apply changes_modSluices
    | (rw [mk_withRest]; with_reducible apply changes_withRest)
    | (show within _ _ = true; decide)
    | (show List.contains _ _ = true; decide)
    | (show ∀ q, _ → sameModule q _ _; intro p hp; (cases p <;> first | exact Bool.noConfusion (show true = false from hp) | exact trivial | rfl | exact ⟨rfl, rfl⟩ | exact ⟨rfl, rfl, rfl⟩))
    | split

theorem chg_execVoteDigest {ps : List Part} {z : State} (err : PerLane (BitVec 64)) (s : State) (q0 : State) (hw : within [.mode, .clock, .laneState, .life, .press, .raa, .eic, .staging, .bank, .bist, .link, .sluices, .ports, .lifetime, .log, .free] ps = true) (hk : changesOnly ps z s) :
    changesOnly ps z (thenState q0 (execVoteDigest err s)) := by
  refine changes_step hw ?_ hk
  clear hk
  unfold execVoteDigest
  dsimp only [thenState]
  repeat' first
    | with_reducible exact changesOnly_refl _ _
    | with_reducible apply chg_digestCheck
    | (show within _ _ = true; decide)
    | (show ∀ q, _ → sameModule q _ _; intro p hp; (cases p <;> first | exact Bool.noConfusion (show true = false from hp) | exact trivial | rfl | exact ⟨rfl, rfl⟩ | exact ⟨rfl, rfl, rfl⟩))
    | split

theorem chg_execOverrun {ps : List Part} {z : State} (f : Finding) (s : State) (q0 : State) (hw : within [.mode, .laneState, .life, .press, .raa, .eic, .staging, .bank, .bist, .link, .times, .sluices, .ports, .lifetime, .log, .free] ps = true) (hk : changesOnly ps z s) :
    changesOnly ps z (thenState q0 (execOverrun f s)) := by
  refine changes_step hw ?_ hk
  clear hk
  unfold execOverrun
  dsimp only [thenState]
  repeat' first
    | with_reducible exact changesOnly_refl _ _
    | with_reducible apply chg_overrunLane
    | (show within _ _ = true; decide)
    | (show ∀ q, _ → sameModule q _ _; intro p hp; (cases p <;> first | exact Bool.noConfusion (show true = false from hp) | exact trivial | rfl | exact ⟨rfl, rfl⟩ | exact ⟨rfl, rfl, rfl⟩))
    | split

theorem chg_execWatchdog {ps : List Part} {z : State} (f : Finding) (dev : Option Int) (s : State) (q0 : State) (hw : within [.mode, .laneState, .life, .press, .raa, .eic, .staging, .bank, .bist, .link, .sluices, .ports, .lifetime, .log, .free] ps = true) (hk : changesOnly ps z s) :
    changesOnly ps z (thenState q0 (execWatchdog f dev s)) := by
  refine changes_step hw ?_ hk
  clear hk
  unfold execWatchdog
  dsimp only [thenState]
  repeat' first
    | with_reducible exact changesOnly_refl _ _
    | with_reducible apply chg_isolate
    | with_reducible apply changes_modSluice
    | (rw [mk_withRest]; with_reducible apply changes_withRest)
    | (show within _ _ = true; decide)
    | (show List.contains _ _ = true; decide)
    | (show ∀ q, _ → sameModule q _ _; intro p hp; (cases p <;> first | exact Bool.noConfusion (show true = false from hp) | exact trivial | rfl | exact ⟨rfl, rfl⟩ | exact ⟨rfl, rfl, rfl⟩))
    | split

theorem chg_execLinkTimeout {ps : List Part} {z : State} (x : LinkSilence) (s : State) (q0 : State) (hw : within [.mode, .laneState, .life, .press, .raa, .eic, .staging, .bank, .bist, .link, .sluices, .ports, .lifetime, .log, .free] ps = true) (hk : changesOnly ps z s) :
    changesOnly ps z (thenState q0 (execLinkTimeout x s)) := by
  refine changes_step hw ?_ hk
  clear hk
  unfold execLinkTimeout
  dsimp only [thenState]
  repeat' first
    | with_reducible exact changesOnly_refl _ _
    | with_reducible apply chg_isolate
    | with_reducible apply chg_flushImage
    | with_reducible apply changes_modSluices
    | (rw [mk_withRest]; with_reducible apply changes_withRest)
    | (show within _ _ = true; decide)
    | (show List.contains _ _ = true; decide)
    | (show ∀ q, _ → sameModule q _ _; intro p hp; (cases p <;> first | exact Bool.noConfusion (show true = false from hp) | exact trivial | rfl | exact ⟨rfl, rfl⟩ | exact ⟨rfl, rfl, rfl⟩))
    | split

theorem chg_laneResetLine {ps : List Part} {z : State} (s : State) (l : Lane) (reported : Option IsoCause) (hw : within [.mode, .laneState, .life, .press, .raa, .eic, .staging, .bank, .bist, .link, .sluices, .ports, .lifetime, .log, .free] ps = true) (hk : changesOnly ps z s) :
    changesOnly ps z (laneResetLine s l reported) := by
  refine changes_step hw ?_ hk
  clear hk
  unfold laneResetLine
  try dsimp only
  repeat' first
    | with_reducible exact changesOnly_refl _ _
    | with_reducible apply chg_isolate
    | with_reducible apply chg_flushImage
    | with_reducible apply changes_modLane
    | with_reducible apply changes_modSluices
    | (rw [mk_withRest]; with_reducible apply changes_withRest)
    | (show within _ _ = true; decide)
    | (show List.contains _ _ = true; decide)
    | (show laneOnly _ _ _; intro p hp; (cases p <;> first | exact Bool.noConfusion (show true = false from hp) | exact trivial | rfl | exact ⟨rfl, rfl⟩ | exact ⟨rfl, rfl, rfl⟩))
    | (show laneOnly _ _ _; intro p hp; ((repeat' split) <;> cases p <;> first | exact Bool.noConfusion (show true = false from hp) | exact trivial | rfl | exact ⟨rfl, rfl⟩ | exact ⟨rfl, rfl, rfl⟩))
    | (show ∀ q, _ → sameModule q _ _; intro p hp; (cases p <;> first | exact Bool.noConfusion (show true = false from hp) | exact trivial | rfl | exact ⟨rfl, rfl⟩ | exact ⟨rfl, rfl, rfl⟩))
    | split

theorem chg_execResetLine {ps : List Part} {z : State} (l : Lane) (of : ResetLineOf) (s : State) (q0 : State) (hw : within [.mode, .laneState, .life, .press, .raa, .eic, .staging, .bank, .bist, .link, .sluices, .ports, .lifetime, .log, .free] ps = true) (hk : changesOnly ps z s) :
    changesOnly ps z (thenState q0 (execResetLine l of s)) := by
  refine changes_step hw ?_ hk
  clear hk
  unfold execResetLine
  dsimp only [thenState]
  repeat' first
    | with_reducible exact changesOnly_refl _ _
    | with_reducible apply chg_laneResetLine
    | with_reducible apply chg_sluiceResetLine
    | (show within _ _ = true; decide)
    | (show ∀ q, _ → sameModule q _ _; intro p hp; (cases p <;> first | exact Bool.noConfusion (show true = false from hp) | exact trivial | rfl | exact ⟨rfl, rfl⟩ | exact ⟨rfl, rfl, rfl⟩))
    | with_reducible apply changes_modSluices
    | (show List.contains _ _ = true; decide)
    | split

theorem chg_execLaneSwitchCloseTest {ps : List Part} {z : State} (l : Lane) (closed opened : Word) (s : State) (q0 : State) (hw : within [.mode, .laneState, .life, .press, .raa, .eic, .staging, .bank, .bist, .link, .sluices, .field, .ports, .lifetime, .log, .free] ps = true) (hk : changesOnly ps z s) :
    changesOnly ps z (thenState q0 (execLaneSwitchCloseTest l closed opened s)) := by
  refine changes_step hw ?_ hk
  clear hk
  unfold execLaneSwitchCloseTest
  dsimp only [thenState]
  repeat' first
    | with_reducible assumption
    | with_reducible exact changesOnly_refl _ _
    | with_reducible apply chg_stuckOpen
    | with_reducible apply chg_retireOut
    | with_reducible apply chg_isolateWith
    | with_reducible apply changes_modSluice
    | with_reducible apply changes_foldS
    | (show within _ _ = true; decide)
    | (show List.contains _ _ = true; decide)
    | (with_reducible intro t x hk)
    | split

theorem chg_softRepair {ps : List Part} {z : State} (l : Lane) (s : State) (r : SoftRepair) (hw : within [.eic, .staging, .bist, .ports, .lifetime, .log] ps = true) (hk : changesOnly ps z s) :
    changesOnly ps z (softRepair l s r) := by
  refine changes_step hw ?_ hk
  clear hk
  unfold softRepair
  try dsimp only
  repeat' first
    | with_reducible exact changesOnly_refl _ _
    | with_reducible apply chg_eventLane
    | with_reducible apply changes_modLane
    | with_reducible apply changes_modPages
    | (rw [mk_withRest]; with_reducible apply changes_withRest)
    | (show within _ _ = true; decide)
    | (show List.contains _ _ = true; decide)
    | (show laneOnly _ _ _; intro p hp; (cases p <;> first | exact Bool.noConfusion (show true = false from hp) | exact trivial | rfl | exact ⟨rfl, rfl⟩ | exact ⟨rfl, rfl, rfl⟩))
    | (show laneOnly _ _ _; intro p hp; ((repeat' split) <;> cases p <;> first | exact Bool.noConfusion (show true = false from hp) | exact trivial | rfl | exact ⟨rfl, rfl⟩ | exact ⟨rfl, rfl, rfl⟩))
    | (show ∀ q, _ → sameModule q _ _; intro p hp; (cases p <;> first | exact Bool.noConfusion (show true = false from hp) | exact trivial | rfl | exact ⟨rfl, rfl⟩ | exact ⟨rfl, rfl, rfl⟩))
    | with_reducible apply changes_modLife
    | split

theorem chg_bistPassed {ps : List Part} {z : State} (s : State) (l : Lane) (march : Bool) (repaired : Nat) (start : Time) (hw : within [.eic, .staging, .bist, .ports, .lifetime, .log, .free] ps = true) (hk : changesOnly ps z s) :
    changesOnly ps z (bistPassed s l march repaired start) := by
  refine changes_step hw ?_ hk
  clear hk
  unfold bistPassed
  try dsimp only
  repeat' first
    | with_reducible exact changesOnly_refl _ _
    | with_reducible apply chg_eventLane
    | with_reducible apply changes_modLane
    | with_reducible apply changes_modLife
    | (rw [mk_withRest]; with_reducible apply changes_withRest)
    | (show within _ _ = true; decide)
    | (show List.contains _ _ = true; decide)
    | (show laneOnly _ _ _; intro p hp; (cases p <;> first | exact Bool.noConfusion (show true = false from hp) | exact trivial | rfl | exact ⟨rfl, rfl⟩ | exact ⟨rfl, rfl, rfl⟩))
    | (show ∀ q, _ → sameModule q _ _; intro p hp; (cases p <;> first | exact Bool.noConfusion (show true = false from hp) | exact trivial | rfl | exact ⟨rfl, rfl⟩ | exact ⟨rfl, rfl, rfl⟩))

theorem chg_bistFailed {ps : List Part} {z : State} (s : State) (l : Lane) (r : BistResult) (hw : within [.eic, .staging, .bist, .ports, .log, .free] ps = true) (hk : changesOnly ps z s) :
    changesOnly ps z (bistFailed s l r) := by
  refine changes_step hw ?_ hk
  clear hk
  unfold bistFailed
  try dsimp only
  repeat' first
    | with_reducible exact changesOnly_refl _ _
    | with_reducible apply chg_eventLane
    | with_reducible apply changes_modLane
    | (rw [mk_withRest]; with_reducible apply changes_withRest)
    | (show within _ _ = true; decide)
    | (show laneOnly _ _ _; intro p hp; (cases p <;> first | exact Bool.noConfusion (show true = false from hp) | exact trivial | rfl | exact ⟨rfl, rfl⟩ | exact ⟨rfl, rfl, rfl⟩))
    | (show laneOnly _ _ _; intro p hp; ((repeat' split) <;> cases p <;> first | exact Bool.noConfusion (show true = false from hp) | exact trivial | rfl | exact ⟨rfl, rfl⟩ | exact ⟨rfl, rfl, rfl⟩))
    | (show ∀ q, _ → sameModule q _ _; intro p hp; (cases p <;> first | exact Bool.noConfusion (show true = false from hp) | exact trivial | rfl | exact ⟨rfl, rfl⟩ | exact ⟨rfl, rfl, rfl⟩))
    | split

theorem chg_takeBanks {ps : List Part} {z : State} (s : State) (l : Lane) (hw : within [.bank] ps = true) (hk : changesOnly ps z s) :
    changesOnly ps z (takeBanks s l) := by
  refine changes_step hw ?_ hk
  clear hk
  unfold takeBanks
  try dsimp only
  repeat' first
    | with_reducible exact changesOnly_refl _ _
    | with_reducible apply changes_modLane
    | (show laneOnly _ _ _; intro p hp; (cases p <;> first | exact Bool.noConfusion (show true = false from hp) | exact trivial | rfl | exact ⟨rfl, rfl⟩ | exact ⟨rfl, rfl, rfl⟩))
    | split

theorem chg_buildBanks {ps : List Part} {z : State} (s : State) (l : Lane) (badA badB : Bool) (hw : within [.bank] ps = true) (hk : changesOnly ps z s) :
    changesOnly ps z (buildBanks s l badA badB) := by
  refine changes_step hw ?_ hk
  clear hk
  unfold buildBanks
  try dsimp only
  repeat' first
    | with_reducible exact changesOnly_refl _ _
    | with_reducible apply changes_modLane
    | (rw [mk_withRest]; with_reducible apply changes_withRest)
    | (show laneOnly _ _ _; intro p hp; (cases p <;> first | exact Bool.noConfusion (show true = false from hp) | exact trivial | rfl | exact ⟨rfl, rfl⟩ | exact ⟨rfl, rfl, rfl⟩))
    | (show laneOnly _ _ _; intro p hp; ((repeat' split) <;> cases p <;> first | exact Bool.noConfusion (show true = false from hp) | exact trivial | rfl | exact ⟨rfl, rfl⟩ | exact ⟨rfl, rfl, rfl⟩))
    | (show ∀ q, _ → sameModule q _ _; intro p hp; (cases p <;> first | exact Bool.noConfusion (show true = false from hp) | exact trivial | rfl | exact ⟨rfl, rfl⟩ | exact ⟨rfl, rfl, rfl⟩))
    | split

theorem chg_reinitialise {ps : List Part} {z : State} (s : State) (l : Lane) (hw : within [.press, .raa, .bank] ps = true) (hk : changesOnly ps z s) :
    changesOnly ps z (reinitialise s l) := by
  refine changes_step hw ?_ hk
  clear hk
  unfold reinitialise
  try dsimp only
  repeat' first
    | with_reducible exact changesOnly_refl _ _
    | with_reducible apply chg_takeBanks
    | with_reducible apply chg_buildBanks
    | with_reducible apply changes_modLane
    | (rw [mk_withRest]; with_reducible apply changes_withRest)
    | (show within _ _ = true; decide)
    | (show laneOnly _ _ _; intro p hp; (cases p <;> first | exact Bool.noConfusion (show true = false from hp) | exact trivial | rfl | exact ⟨rfl, rfl⟩ | exact ⟨rfl, rfl, rfl⟩))
    | (show laneOnly _ _ _; intro p hp; ((repeat' split) <;> cases p <;> first | exact Bool.noConfusion (show true = false from hp) | exact trivial | rfl | exact ⟨rfl, rfl⟩ | exact ⟨rfl, rfl, rfl⟩))
    | (show ∀ q, _ → sameModule q _ _; intro p hp; (cases p <;> first | exact Bool.noConfusion (show true = false from hp) | exact trivial | rfl | exact ⟨rfl, rfl⟩ | exact ⟨rfl, rfl, rfl⟩))
    | split

theorem chg_enterTest {ps : List Part} {z : State} (s : State) (l : Lane) (e : TestEntry) (hw : within [.laneState, .life, .press, .chk, .sluices] ps = true) (hk : changesOnly ps z s) :
    changesOnly ps z (enterTest s l e) := by
  refine changes_step hw ?_ hk
  clear hk
  unfold enterTest
  try dsimp only
  repeat' first
    | with_reducible exact changesOnly_refl _ _
    | with_reducible apply changes_modLane
    | with_reducible apply changes_modSluices
    | (rw [mk_withRest]; with_reducible apply changes_withRest)
    | (show List.contains _ _ = true; decide)
    | (show laneOnly _ _ _; intro p hp; (cases p <;> first | exact Bool.noConfusion (show true = false from hp) | exact trivial | rfl | exact ⟨rfl, rfl⟩ | exact ⟨rfl, rfl, rfl⟩))
    | (show laneOnly _ _ _; intro p hp; ((repeat' split) <;> cases p <;> first | exact Bool.noConfusion (show true = false from hp) | exact trivial | rfl | exact ⟨rfl, rfl⟩ | exact ⟨rfl, rfl, rfl⟩))
    | (show ∀ q, _ → sameModule q _ _; intro p hp; (cases p <;> first | exact Bool.noConfusion (show true = false from hp) | exact trivial | rfl | exact ⟨rfl, rfl⟩ | exact ⟨rfl, rfl, rfl⟩))
    | split

theorem chg_tested {ps : List Part} {z : State} (s : State) (l : Lane) (e : TestEntry) (hw : within [.laneState, .life, .press, .chk, .sluices] ps = true) (hk : changesOnly ps z s) :
    changesOnly ps z (tested s l e) := by
  refine changes_step hw ?_ hk
  clear hk
  unfold tested
  try dsimp only
  repeat' first
    | with_reducible exact changesOnly_refl _ _
    | with_reducible apply chg_enterTest
    | with_reducible apply changes_modLane
    | (show within _ _ = true; decide)
    | (show laneOnly _ _ _; intro p hp; (cases p <;> first | exact Bool.noConfusion (show true = false from hp) | exact trivial | rfl | exact ⟨rfl, rfl⟩ | exact ⟨rfl, rfl, rfl⟩))

theorem chg_execBistDue {ps : List Part} {z : State} (l : Lane) (s : State) (q0 : State) (hw : within [.bist] ps = true) (hk : changesOnly ps z s) :
    changesOnly ps z (thenState q0 (execBistDue l s)) := by
  refine changes_step hw ?_ hk
  clear hk
  unfold execBistDue
  dsimp only [thenState]
  repeat' first
    | with_reducible exact changesOnly_refl _ _
    | with_reducible apply changes_modLane
    | (rw [mk_withRest]; with_reducible apply changes_withRest)
    | (show laneOnly _ _ _; intro p hp; (cases p <;> first | exact Bool.noConfusion (show true = false from hp) | exact trivial | rfl | exact ⟨rfl, rfl⟩ | exact ⟨rfl, rfl, rfl⟩))
    | (show laneOnly _ _ _; intro p hp; ((repeat' split) <;> cases p <;> first | exact Bool.noConfusion (show true = false from hp) | exact trivial | rfl | exact ⟨rfl, rfl⟩ | exact ⟨rfl, rfl, rfl⟩))
    | (show ∀ q, _ → sameModule q _ _; intro p hp; (cases p <;> first | exact Bool.noConfusion (show true = false from hp) | exact trivial | rfl | exact ⟨rfl, rfl⟩ | exact ⟨rfl, rfl, rfl⟩))
    | split

theorem chg_execBistStart {ps : List Part} {z : State} (l : Lane) (s : State) (q0 : State) (hw : within [.mode, .laneState, .life, .press, .raa, .eic, .staging, .bank, .bist, .link, .sluices, .ports, .lifetime, .log, .free] ps = true) (hk : changesOnly ps z s) :
    changesOnly ps z (thenState q0 (execBistStart l s)) := by
  refine changes_step hw ?_ hk
  clear hk
  unfold execBistStart
  dsimp only [thenState]
  repeat' first
    | with_reducible exact changesOnly_refl _ _
    | with_reducible apply chg_setPhase
    | with_reducible apply chg_isolate
    | with_reducible apply changes_modLane
    | (rw [mk_withRest]; with_reducible apply changes_withRest)
    | (show within _ _ = true; decide)
    | (show laneOnly _ _ _; intro p hp; (cases p <;> first | exact Bool.noConfusion (show true = false from hp) | exact trivial | rfl | exact ⟨rfl, rfl⟩ | exact ⟨rfl, rfl, rfl⟩))
    | (show laneOnly _ _ _; intro p hp; ((repeat' split) <;> cases p <;> first | exact Bool.noConfusion (show true = false from hp) | exact trivial | rfl | exact ⟨rfl, rfl⟩ | exact ⟨rfl, rfl, rfl⟩))
    | (show ∀ q, _ → sameModule q _ _; intro p hp; (cases p <;> first | exact Bool.noConfusion (show true = false from hp) | exact trivial | rfl | exact ⟨rfl, rfl⟩ | exact ⟨rfl, rfl, rfl⟩))
    | split

theorem chg_marchedUse {ps : List Part} {z : LaneState} (L : LaneState) (u : MacroUse) (hw : within [.press, .raa] ps = true)
    (hk : laneOnly ps z L) : laneOnly ps z (marchedUse L u) := by
  refine laneOnly_step hw ?_ hk
  intro p hp
  cases u <;> cases p <;> first
    | exact Bool.noConfusion (show true = false from hp) | exact trivial | rfl | exact ⟨rfl, rfl⟩ | exact ⟨rfl, rfl, rfl⟩

theorem chg_sramMarched {ps : List Part} {z : LaneState} (L : LaneState) (hw : within [.press, .raa] ps = true) (hk : laneOnly ps z L) :
    laneOnly ps z (sramMarched L) := by
  unfold sramMarched
  generalize [0, 64, 80, 82].map macroUse = us
  induction us generalizing L with
  | nil => exact hk
  | cons u us ih => exact ih _ (chg_marchedUse L u hw hk)

theorem chg_dramMarched {ps : List Part} {z : LaneState} (L : LaneState) (hw : within [.mbx, .bank] ps = true) (hk : laneOnly ps z L) :
    laneOnly ps z (dramMarched L) := by
  refine laneOnly_step hw ?_ hk
  clear hk
  unfold dramMarched
  try dsimp only
  repeat' first
    | with_reducible exact laneOnly_refl _ _
    | (show laneOnly _ _ _; intro p hp; (cases p <;> first | exact Bool.noConfusion (show true = false from hp) | exact trivial | rfl | exact ⟨rfl, rfl⟩ | exact ⟨rfl, rfl, rfl⟩))
    | (show laneOnly _ _ _; intro p hp; ((repeat' split) <;> cases p <;> first | exact Bool.noConfusion (show true = false from hp) | exact trivial | rfl | exact ⟨rfl, rfl⟩ | exact ⟨rfl, rfl, rfl⟩))
    | split

theorem chg_enterParts {ps : List Part} {z : State} (s : State) (l : Lane) (ph : BitVec 3) (hw : within [.press, .raa, .eic, .mbx, .bank, .bist, .ports] ps = true) (hk : changesOnly ps z s) :
    changesOnly ps z (enterParts s l ph) := by
  refine changes_step hw ?_ hk
  clear hk
  unfold enterParts
  try dsimp only
  repeat' first
    | with_reducible exact changesOnly_refl _ _
    | with_reducible exact laneOnly_refl _ _
    | with_reducible apply chg_movePhase
    | with_reducible apply chg_sramMarched
    | with_reducible apply chg_dramMarched
    | (intro l; with_reducible apply chg_sramMarched)
    | (intro l; with_reducible apply chg_dramMarched)
    | with_reducible apply changes_modLane
    | (show within _ _ = true; decide)
    | (show laneOnly _ _ _; intro p hp; (cases p <;> first | exact Bool.noConfusion (show true = false from hp) | exact trivial | rfl | exact ⟨rfl, rfl⟩ | exact ⟨rfl, rfl, rfl⟩))
    | (show laneOnly _ _ _; intro p hp; ((repeat' split) <;> cases p <;> first | exact Bool.noConfusion (show true = false from hp) | exact trivial | rfl | exact ⟨rfl, rfl⟩ | exact ⟨rfl, rfl, rfl⟩))
    | (show ∀ q, _ → sameModule q _ _; intro p hp; (cases p <;> first | exact Bool.noConfusion (show true = false from hp) | exact trivial | rfl | exact ⟨rfl, rfl⟩ | exact ⟨rfl, rfl, rfl⟩))
    | split

theorem chg_bistTick {ps : List Part} {z : State} (s : State) (l : Lane) (hw : within [.press, .raa, .eic, .staging, .mbx, .bank, .bist, .ports, .log] ps = true) (hk : changesOnly ps z s) :
    changesOnly ps z (bistTick s l) := by
  refine changes_step hw ?_ hk
  clear hk
  unfold bistTick
  try dsimp only
  repeat' first
    | with_reducible exact changesOnly_refl _ _
    | with_reducible apply chg_closeLost
    | with_reducible apply chg_drainStaging
    | with_reducible apply chg_enterParts
    | with_reducible apply changes_modLane
    | (rw [mk_withRest]; with_reducible apply changes_withRest)
    | (show within _ _ = true; decide)
    | (show laneOnly _ _ _; intro p hp; (cases p <;> first | exact Bool.noConfusion (show true = false from hp) | exact trivial | rfl | exact ⟨rfl, rfl⟩ | exact ⟨rfl, rfl, rfl⟩))
    | (show laneOnly _ _ _; intro p hp; ((repeat' split) <;> cases p <;> first | exact Bool.noConfusion (show true = false from hp) | exact trivial | rfl | exact ⟨rfl, rfl⟩ | exact ⟨rfl, rfl, rfl⟩))
    | (show ∀ q, _ → sameModule q _ _; intro p hp; (cases p <;> first | exact Bool.noConfusion (show true = false from hp) | exact trivial | rfl | exact ⟨rfl, rfl⟩ | exact ⟨rfl, rfl, rfl⟩))
    | split

theorem chg_execBistEnd {ps : List Part} {z : State} (l : Lane) (r : BistResult) (repairs : List SoftRepair) (s : State) (q0 : State) (hw : within [.mode, .laneState, .life, .press, .raa, .eic, .chk, .staging, .bank, .bist, .link, .sluices, .ports, .lifetime, .log, .free] ps = true) (hk : changesOnly ps z s) :
    changesOnly ps z (thenState q0 (execBistEnd l r repairs s)) := by
  refine changes_step hw ?_ hk
  clear hk
  unfold execBistEnd
  dsimp only [thenState]
  repeat' first
    | with_reducible assumption
    | with_reducible exact changesOnly_refl _ _
    | with_reducible apply chg_movePhase
    | with_reducible apply chg_isolate
    | with_reducible apply chg_softRepair
    | with_reducible apply chg_bistPassed
    | with_reducible apply chg_bistFailed
    | with_reducible apply chg_reinitialise
    | with_reducible apply chg_enterTest
    | with_reducible apply chg_tested
    | with_reducible apply changes_foldS
    | (show within _ _ = true; decide)
    | (show ∀ q, _ → sameModule q _ _; intro p hp; (cases p <;> first | exact Bool.noConfusion (show true = false from hp) | exact trivial | rfl | exact ⟨rfl, rfl⟩ | exact ⟨rfl, rfl, rfl⟩))
    | (with_reducible intro t x hk)
    | (with_reducible intro t hk)
    | split

theorem chg_execBistOverdue {ps : List Part} {z : State} (l : Lane) (s : State) (q0 : State) (hw : within [.eic, .staging, .bist, .ports, .log] ps = true) (hk : changesOnly ps z s) :
    changesOnly ps z (thenState q0 (execBistOverdue l s)) := by
  refine changes_step hw ?_ hk
  clear hk
  unfold execBistOverdue
  dsimp only [thenState]
  repeat' first
    | with_reducible exact changesOnly_refl _ _
    | with_reducible apply chg_eventLane
    | with_reducible apply changes_modLane
    | (show within _ _ = true; decide)
    | (show laneOnly _ _ _; intro p hp; (cases p <;> first | exact Bool.noConfusion (show true = false from hp) | exact trivial | rfl | exact ⟨rfl, rfl⟩ | exact ⟨rfl, rfl, rfl⟩))
    | split

theorem chg_execBistRequest {ps : List Part} {z : State} (l : Lane) (march : Bool) (auth : Auth) (s : State) (q0 : State) (hw : within [.eic, .staging, .bist, .ports, .lifetime, .log] ps = true) (hk : changesOnly ps z s) :
    changesOnly ps z (thenState q0 (execBistRequest l march auth s)) := by
  refine changes_step hw ?_ hk
  clear hk
  unfold execBistRequest
  dsimp only [thenState]
  repeat' first
    | with_reducible assumption
    | with_reducible exact changesOnly_refl _ _
    | with_reducible apply chg_harnal
    | with_reducible apply changes_modLane
    | (rw [mk_withRest]; with_reducible apply changes_withRest)
    | (show within _ _ = true; decide)
    | (show laneOnly _ _ _; intro p hp; (cases p <;> first | exact Bool.noConfusion (show true = false from hp) | exact trivial | rfl | exact ⟨rfl, rfl⟩ | exact ⟨rfl, rfl, rfl⟩))
    | (show laneOnly _ _ _; intro p hp; ((repeat' split) <;> cases p <;> first | exact Bool.noConfusion (show true = false from hp) | exact trivial | rfl | exact ⟨rfl, rfl⟩ | exact ⟨rfl, rfl, rfl⟩))
    | (show ∀ q, _ → sameModule q _ _; intro p hp; (cases p <;> first | exact Bool.noConfusion (show true = false from hp) | exact trivial | rfl | exact ⟨rfl, rfl⟩ | exact ⟨rfl, rfl, rfl⟩))
    | (with_reducible intro t hk)
    | (with_reducible intro t x hk)
    | split

theorem chg_execEccUncorrectable {ps : List Part} {z : State} (f : Finding) (s : State) (q0 : State) (hw : within [.mode, .laneState, .life, .press, .raa, .eic, .staging, .bank, .bist, .link, .sluices, .ports, .lifetime, .log, .free] ps = true) (hk : changesOnly ps z s) :
    changesOnly ps z (thenState q0 (execEccUncorrectable f s)) := by
  refine changes_step hw ?_ hk
  clear hk
  unfold execEccUncorrectable
  dsimp only [thenState]
  repeat' first
    | with_reducible exact changesOnly_refl _ _
    | with_reducible apply chg_isolate
    | (show within _ _ = true; decide)
    | (show ∀ q, _ → sameModule q _ _; intro p hp; (cases p <;> first | exact Bool.noConfusion (show true = false from hp) | exact trivial | rfl | exact ⟨rfl, rfl⟩ | exact ⟨rfl, rfl, rfl⟩))
    | split

theorem chg_execFirmwareSelfCheck {ps : List Part} {z : State} (l : Lane) (s : State) (q0 : State) (hw : within [.mode, .laneState, .life, .press, .raa, .eic, .staging, .bank, .bist, .link, .sluices, .ports, .lifetime, .log, .free] ps = true) (hk : changesOnly ps z s) :
    changesOnly ps z (thenState q0 (execFirmwareSelfCheck l s)) := by
  refine changes_step hw ?_ hk
  clear hk
  unfold execFirmwareSelfCheck
  dsimp only [thenState]
  repeat' first
    | with_reducible exact changesOnly_refl _ _
    | with_reducible apply chg_isolate
    | (show within _ _ = true; decide)

theorem chg_beginTests {ps : List Part} {z : State} (s : State) (l : Lane) (trigger : BitVec 2) (hw : within [.bist] ps = true) (hk : changesOnly ps z s) :
    changesOnly ps z (beginTests s l trigger) := by
  refine changes_step hw ?_ hk
  clear hk
  unfold beginTests
  try dsimp only
  repeat' first
    | with_reducible exact changesOnly_refl _ _
    | with_reducible apply changes_modLane
    | (rw [mk_withRest]; with_reducible apply changes_withRest)
    | (show laneOnly _ _ _; intro p hp; (cases p <;> first | exact Bool.noConfusion (show true = false from hp) | exact trivial | rfl | exact ⟨rfl, rfl⟩ | exact ⟨rfl, rfl, rfl⟩))
    | (show laneOnly _ _ _; intro p hp; ((repeat' split) <;> cases p <;> first | exact Bool.noConfusion (show true = false from hp) | exact trivial | rfl | exact ⟨rfl, rfl⟩ | exact ⟨rfl, rfl, rfl⟩))
    | (show ∀ q, _ → sameModule q _ _; intro p hp; (cases p <;> first | exact Bool.noConfusion (show true = false from hp) | exact trivial | rfl | exact ⟨rfl, rfl⟩ | exact ⟨rfl, rfl, rfl⟩))
    | split

theorem chg_clearedResult {ps : List Part} {z : State} (s : State) (l : Lane) (v : List SoftRepair × BistResult) (hw : within [.eic, .staging, .bist, .ports, .lifetime, .log, .free] ps = true) (hk : changesOnly ps z s) :
    changesOnly ps z (clearedResult s l v) := by
  refine changes_step hw ?_ hk
  clear hk
  unfold clearedResult
  try dsimp only
  repeat' first
    | with_reducible assumption
    | with_reducible exact changesOnly_refl _ _
    | with_reducible apply chg_softRepair
    | with_reducible apply chg_bistPassed
    | with_reducible apply chg_bistFailed
    | with_reducible apply chg_beginTests
    | with_reducible apply changes_foldS
    | (show within _ _ = true; decide)
    | (show ∀ q, _ → sameModule q _ _; intro p hp; (cases p <;> first | exact Bool.noConfusion (show true = false from hp) | exact trivial | rfl | exact ⟨rfl, rfl⟩ | exact ⟨rfl, rfl, rfl⟩))
    | with_reducible apply changes_modLane
    | (show laneOnly _ _ _; intro p hp; (cases p <;> first | exact Bool.noConfusion (show true = false from hp) | exact trivial | rfl | exact ⟨rfl, rfl⟩ | exact ⟨rfl, rfl, rfl⟩))
    | (with_reducible intro t x hk)
    | (with_reducible intro t hk)
    | split

theorem chg_execReinitialisation {ps : List Part} {z : State} (l : Lane) (r : TestRun) (s : State) (q0 : State) (hw : within [.mode, .laneState, .life, .press, .raa, .eic, .chk, .staging, .bank, .bist, .link, .sluices, .ports, .lifetime, .log, .free] ps = true) (hk : changesOnly ps z s) :
    changesOnly ps z (thenState q0 (execReinitialisation l r s)) := by
  refine changes_step hw ?_ hk
  clear hk
  unfold execReinitialisation
  dsimp only [thenState]
  repeat' first
    | with_reducible exact changesOnly_refl _ _
    | with_reducible apply chg_isolate
    | with_reducible apply chg_reinitialise
    | with_reducible apply chg_enterTest
    | with_reducible apply chg_tested
    | with_reducible apply chg_clearedResult
    | (show within _ _ = true; decide)
    | (show ∀ q, _ → sameModule q _ _; intro p hp; (cases p <;> first | exact Bool.noConfusion (show true = false from hp) | exact trivial | rfl | exact ⟨rfl, rfl⟩ | exact ⟨rfl, rfl, rfl⟩))
    | split

theorem chg_enterSync {ps : List Part} {z : State} (s : State) (l : Lane) (hw : within [.laneState, .life, .bist, .free] ps = true) (hk : changesOnly ps z s) :
    changesOnly ps z (enterSync s l) := by
  refine changes_step hw ?_ hk
  clear hk
  unfold enterSync
  try dsimp only
  repeat' first
    | with_reducible exact changesOnly_refl _ _
    | with_reducible apply changes_modLane
    | (rw [mk_withRest]; with_reducible apply changes_withRest)
    | (show laneOnly _ _ _; intro p hp; (cases p <;> first | exact Bool.noConfusion (show true = false from hp) | exact trivial | rfl | exact ⟨rfl, rfl⟩ | exact ⟨rfl, rfl, rfl⟩))
    | (show laneOnly _ _ _; intro p hp; ((repeat' split) <;> cases p <;> first | exact Bool.noConfusion (show true = false from hp) | exact trivial | rfl | exact ⟨rfl, rfl⟩ | exact ⟨rfl, rfl, rfl⟩))
    | (show ∀ q, _ → sameModule q _ _; intro p hp; (cases p <;> first | exact Bool.noConfusion (show true = false from hp) | exact trivial | rfl | exact ⟨rfl, rfl⟩ | exact ⟨rfl, rfl, rfl⟩))
    | split

theorem chg_noteClass {ps : List Part} {z : State} (s : State) (l : Lane) (hw : within [.life, .eic, .staging, .ports, .log] ps = true) (hk : changesOnly ps z s) :
    changesOnly ps z (noteClass s l) := by
  refine changes_step hw ?_ hk
  clear hk
  unfold noteClass
  try dsimp only
  repeat' first
    | with_reducible exact changesOnly_refl _ _
    | with_reducible apply chg_eventLane
    | with_reducible apply changes_modLane
    | (rw [mk_withRest]; with_reducible apply changes_withRest)
    | (show within _ _ = true; decide)
    | (show laneOnly _ _ _; intro p hp; (cases p <;> first | exact Bool.noConfusion (show true = false from hp) | exact trivial | rfl | exact ⟨rfl, rfl⟩ | exact ⟨rfl, rfl, rfl⟩))
    | (show laneOnly _ _ _; intro p hp; ((repeat' split) <;> cases p <;> first | exact Bool.noConfusion (show true = false from hp) | exact trivial | rfl | exact ⟨rfl, rfl⟩ | exact ⟨rfl, rfl, rfl⟩))
    | (show ∀ q, _ → sameModule q _ _; intro p hp; (cases p <;> first | exact Bool.noConfusion (show true = false from hp) | exact trivial | rfl | exact ⟨rfl, rfl⟩ | exact ⟨rfl, rfl, rfl⟩))
    | split

theorem chg_execLaneSync {ps : List Part} {z : State} (l : Lane) (s : State) (q0 : State) (hw : within [.laneState, .life, .eic, .staging, .bist, .ports, .log, .free] ps = true) (hk : changesOnly ps z s) :
    changesOnly ps z (thenState q0 (execLaneSync l s)) := by
  refine changes_step hw ?_ hk
  clear hk
  unfold execLaneSync
  dsimp only [thenState]
  repeat' first
    | with_reducible exact changesOnly_refl _ _
    | with_reducible apply chg_enterSync
    | with_reducible apply chg_noteClass
    | (show within _ _ = true; decide)
    | (show ∀ q, _ → sameModule q _ _; intro p hp; (cases p <;> first | exact Bool.noConfusion (show true = false from hp) | exact trivial | rfl | exact ⟨rfl, rfl⟩ | exact ⟨rfl, rfl, rfl⟩))
    | split

theorem chg_execStateTransfer {ps : List Part} {z : State} (l : Lane) (s : State) (q0 : State) (hw : within [.laneState, .life, .link] ps = true) (hk : changesOnly ps z s) :
    changesOnly ps z (thenState q0 (execStateTransfer l s)) := by
  refine changes_step hw ?_ hk
  clear hk
  unfold execStateTransfer
  dsimp only [thenState]
  repeat' first
    | with_reducible exact changesOnly_refl _ _
    | with_reducible apply changes_modLane
    | (rw [mk_withRest]; with_reducible apply changes_withRest)
    | (show laneOnly _ _ _; intro p hp; (cases p <;> first | exact Bool.noConfusion (show true = false from hp) | exact trivial | rfl | exact ⟨rfl, rfl⟩ | exact ⟨rfl, rfl, rfl⟩))
    | (show laneOnly _ _ _; intro p hp; ((repeat' split) <;> cases p <;> first | exact Bool.noConfusion (show true = false from hp) | exact trivial | rfl | exact ⟨rfl, rfl⟩ | exact ⟨rfl, rfl, rfl⟩))
    | (show ∀ q, _ → sameModule q _ _; intro p hp; (cases p <;> first | exact Bool.noConfusion (show true = false from hp) | exact trivial | rfl | exact ⟨rfl, rfl⟩ | exact ⟨rfl, rfl, rfl⟩))
    | split

theorem chg_setJoin {ps : List Part} {z : State} (s : State) (l : Lane) (j : JoinStep) (hw : within [.life] ps = true) (hk : changesOnly ps z s) :
    changesOnly ps z (setJoin s l j) := by
  refine changes_step hw ?_ hk
  clear hk
  unfold setJoin
  try dsimp only
  repeat' first
    | with_reducible exact changesOnly_refl _ _
    | with_reducible apply changes_modLane
    | (show laneOnly _ _ _; intro p hp; (cases p <;> first | exact Bool.noConfusion (show true = false from hp) | exact trivial | rfl | exact ⟨rfl, rfl⟩ | exact ⟨rfl, rfl, rfl⟩))

theorem chg_execTransferVerified {ps : List Part} {z : State} (l : Lane) (checks : List (BitVec 64)) (s : State) (q0 : State) (hw : within [.mode, .laneState, .life, .press, .raa, .eic, .staging, .bank, .bist, .link, .sluices, .ports, .lifetime, .log, .free] ps = true) (hk : changesOnly ps z s) :
    changesOnly ps z (thenState q0 (execTransferVerified l checks s)) := by
  refine changes_step hw ?_ hk
  clear hk
  unfold execTransferVerified
  dsimp only [thenState]
  repeat' first
    | with_reducible exact changesOnly_refl _ _
    | with_reducible apply chg_isolate
    | with_reducible apply chg_setJoin
    | (show within _ _ = true; decide)
    | (show ∀ q, _ → sameModule q _ _; intro p hp; (cases p <;> first | exact Bool.noConfusion (show true = false from hp) | exact trivial | rfl | exact ⟨rfl, rfl⟩ | exact ⟨rfl, rfl, rfl⟩))
    | split

theorem chg_catchUpDone {ps : List Part} {z : State} (s : State) (l : Lane) (n : Nat) (inTime : Bool) (now : Snapshot) (hw : within [.mode, .laneState, .life, .press, .raa, .sessions, .fieldIn, .eic, .staging, .mbx, .bank, .bist, .link, .sluices, .ports, .lifetime, .log, .free] ps = true) (hk : changesOnly ps z s) :
    changesOnly ps z (catchUpDone s l n inTime now) := by
  refine changes_step hw ?_ hk
  clear hk
  unfold catchUpDone
  try dsimp only
  repeat' first
    | with_reducible exact changesOnly_refl _ _
    | with_reducible exact laneOnly_refl _ _
    | with_reducible apply chg_isolate
    | with_reducible apply chg_putSnapshot
    | with_reducible apply chg_setJoin
    | (intro l; with_reducible apply chg_putSnapshot)
    | with_reducible apply changes_modLane
    | (rw [mk_withRest]; with_reducible apply changes_withRest)
    | (show within _ _ = true; decide)
    | (show laneOnly _ _ _; intro p hp; (cases p <;> first | exact Bool.noConfusion (show true = false from hp) | exact trivial | rfl | exact ⟨rfl, rfl⟩ | exact ⟨rfl, rfl, rfl⟩))
    | (show laneOnly _ _ _; intro p hp; ((repeat' split) <;> cases p <;> first | exact Bool.noConfusion (show true = false from hp) | exact trivial | rfl | exact ⟨rfl, rfl⟩ | exact ⟨rfl, rfl, rfl⟩))
    | (show ∀ q, _ → sameModule q _ _; intro p hp; (cases p <;> first | exact Bool.noConfusion (show true = false from hp) | exact trivial | rfl | exact ⟨rfl, rfl⟩ | exact ⟨rfl, rfl, rfl⟩))
    | split

theorem chg_execCatchUp {ps : List Part} {z : State} (l : Lane) (inTime : Bool) (checks : List (BitVec 64)) (s : State) (q0 : State) (hw : within [.mode, .laneState, .life, .press, .raa, .sessions, .fieldIn, .eic, .staging, .mbx, .bank, .bist, .link, .sluices, .ports, .lifetime, .log, .free] ps = true) (hk : changesOnly ps z s) :
    changesOnly ps z (thenState q0 (execCatchUp l inTime checks s)) := by
  refine changes_step hw ?_ hk
  clear hk
  unfold execCatchUp
  dsimp only [thenState]
  repeat' first
    | with_reducible exact changesOnly_refl _ _
    | with_reducible apply chg_isolate
    | with_reducible apply chg_catchUpDone
    | (show within _ _ = true; decide)
    | (show ∀ q, _ → sameModule q _ _; intro p hp; (cases p <;> first | exact Bool.noConfusion (show true = false from hp) | exact trivial | rfl | exact ⟨rfl, rfl⟩ | exact ⟨rfl, rfl, rfl⟩))
    | with_reducible apply changes_modLane
    | with_reducible apply laneOnly_refl
    | split

theorem chg_floorRaise {ps : List Part} {z : State} (s : State) (l : Lane) (hw : within [.lifetime, .log] ps = true) (hk : changesOnly ps z s) :
    changesOnly ps z (floorRaise s l) := by
  refine changes_step hw ?_ hk
  clear hk
  unfold floorRaise
  try dsimp only
  repeat' first
    | with_reducible exact changesOnly_refl _ _
    | with_reducible apply chg_addHistory
    | with_reducible apply changes_modPages
    | (rw [mk_withRest]; with_reducible apply changes_withRest)
    | (show within _ _ = true; decide)
    | (show List.contains _ _ = true; decide)
    | (show ∀ q, _ → sameModule q _ _; intro p hp; (cases p <;> first | exact Bool.noConfusion (show true = false from hp) | exact trivial | rfl | exact ⟨rfl, rfl⟩ | exact ⟨rfl, rfl, rfl⟩))
    | with_reducible apply changes_modLife
    | split

theorem chg_endUpdate {ps : List Part} {z : State} (s : State) (l : Lane) (reason : Nat) (hw : within [.eic, .staging, .mbx, .boot, .ports, .lifetime, .log] ps = true) (hk : changesOnly ps z s) :
    changesOnly ps z (endUpdate s l reason) := by
  refine changes_step hw ?_ hk
  clear hk
  unfold endUpdate
  try dsimp only
  repeat' first
    | with_reducible exact changesOnly_refl _ _
    | with_reducible apply chg_addHistory
    | with_reducible apply chg_eventLane
    | with_reducible apply chg_finishAll
    | with_reducible apply changes_modLane
    | (show within _ _ = true; decide)
    | (show laneOnly _ _ _; intro p hp; (cases p <;> first | exact Bool.noConfusion (show true = false from hp) | exact trivial | rfl | exact ⟨rfl, rfl⟩ | exact ⟨rfl, rfl, rfl⟩))
    | split

theorem chg_execLaneJoin {ps : List Part} {z : State} (l : Lane) (s : State) (q0 : State) (hw : within [.mode, .laneState, .life, .press, .raa, .eic, .staging, .mbx, .bank, .boot, .bist, .link, .sluices, .ports, .lifetime, .log, .free] ps = true) (hk : changesOnly ps z s) :
    changesOnly ps z (thenState q0 (execLaneJoin l s)) := by
  refine changes_step hw ?_ hk
  clear hk
  unfold execLaneJoin
  dsimp only [thenState]
  repeat' first
    | with_reducible exact changesOnly_refl _ _
    | with_reducible apply chg_eventAll
    | with_reducible apply chg_setModule
    | with_reducible apply chg_latchRule
    | with_reducible apply chg_floorRaise
    | with_reducible apply chg_endUpdate
    | with_reducible apply changes_modLane
    | with_reducible apply changes_modSluices
    | (rw [mk_withRest]; with_reducible apply changes_withRest)
    | (show within _ _ = true; decide)
    | (show List.contains _ _ = true; decide)
    | (show laneOnly _ _ _; intro p hp; (cases p <;> first | exact Bool.noConfusion (show true = false from hp) | exact trivial | rfl | exact ⟨rfl, rfl⟩ | exact ⟨rfl, rfl, rfl⟩))
    | (show laneOnly _ _ _; intro p hp; ((repeat' split) <;> cases p <;> first | exact Bool.noConfusion (show true = false from hp) | exact trivial | rfl | exact ⟨rfl, rfl⟩ | exact ⟨rfl, rfl, rfl⟩))
    | (show ∀ q, _ → sameModule q _ _; intro p hp; (cases p <;> first | exact Bool.noConfusion (show true = false from hp) | exact trivial | rfl | exact ⟨rfl, rfl⟩ | exact ⟨rfl, rfl, rfl⟩))
    | split

theorem chg_clearRetirement {ps : List Part} {z : State} (s : State) (l : Lane) (hw : within [.eic, .staging, .ports, .lifetime, .log] ps = true) (hk : changesOnly ps z s) :
    changesOnly ps z (clearRetirement s l) := by
  refine changes_step hw ?_ hk
  clear hk
  unfold clearRetirement
  try dsimp only
  repeat' first
    | with_reducible exact changesOnly_refl _ _
    | with_reducible apply chg_recordAll
    | with_reducible apply changes_modPages
    | (rw [mk_withRest]; with_reducible apply changes_withRest)
    | (show within _ _ = true; decide)
    | (show List.contains _ _ = true; decide)
    | (show ∀ q, _ → sameModule q _ _; intro p hp; (cases p <;> first | exact Bool.noConfusion (show true = false from hp) | exact trivial | rfl | exact ⟨rfl, rfl⟩ | exact ⟨rfl, rfl, rfl⟩))
    | with_reducible apply changes_modLife
    | split

theorem chg_execRetirementClear {ps : List Part} {z : State} (l : Lane) (auth : Auth) (s : State) (q0 : State) (hw : within [.laneState, .life, .press, .eic, .chk, .staging, .sluices, .ports, .lifetime, .log] ps = true) (hk : changesOnly ps z s) :
    changesOnly ps z (thenState q0 (execRetirementClear l auth s)) := by
  refine changes_step hw ?_ hk
  clear hk
  unfold execRetirementClear
  dsimp only [thenState]
  repeat' first
    | with_reducible assumption
    | with_reducible exact changesOnly_refl _ _
    | with_reducible apply chg_harnal
    | with_reducible apply chg_clearRetirement
    | with_reducible apply chg_enterTest
    | with_reducible apply changes_modLane
    | (show within _ _ = true; decide)
    | (show laneOnly _ _ _; intro p hp; (cases p <;> first | exact Bool.noConfusion (show true = false from hp) | exact trivial | rfl | exact ⟨rfl, rfl⟩ | exact ⟨rfl, rfl, rfl⟩))
    | (with_reducible intro t hk)
    | split

theorem chg_parkCompare {ps : List Part} {z : State} (s : State) (hw : within [.boot] ps = true) (hk : changesOnly ps z s) :
    changesOnly ps z (parkCompare s) := by
  refine changes_step hw ?_ hk
  clear hk
  unfold parkCompare
  try dsimp only
  repeat' first
    | with_reducible exact changesOnly_refl _ _
    | with_reducible apply changes_modLanes
    | (intro l; show laneOnly _ _ _; intro p hp; (cases p <;> first | exact Bool.noConfusion (show true = false from hp) | exact trivial | rfl | exact ⟨rfl, rfl⟩ | exact ⟨rfl, rfl, rfl⟩))

theorem chg_laneReset {ps : List Part} {z : LaneState} (L : LaneState) (cause : Nat) (hw : within [.laneState, .life, .press, .raa, .sessions, .fieldIn, .eic, .chk, .staging, .mbx, .bank, .boot, .bist, .rail, .link, .times] ps = true) (hk : laneOnly ps z L) :
    laneOnly ps z (laneReset L cause) := by
  refine laneOnly_step hw ?_ hk
  clear hk
  unfold laneReset
  try dsimp only
  repeat' first
    | with_reducible exact laneOnly_refl _ _
    | (show laneOnly _ _ _; intro p hp; (cases p <;> first | exact Bool.noConfusion (show true = false from hp) | exact trivial | rfl | exact ⟨rfl, rfl⟩ | exact ⟨rfl, rfl, rfl⟩))
    | (show laneOnly _ _ _; intro p hp; ((repeat' split) <;> cases p <;> first | exact Bool.noConfusion (show true = false from hp) | exact trivial | rfl | exact ⟨rfl, rfl⟩ | exact ⟨rfl, rfl, rfl⟩))
    | split

theorem chg_linksReset {ps : List Part} {z : State} (s : State) (l : Lane) (hw : within [.sluices] ps = true) (hk : changesOnly ps z s) :
    changesOnly ps z (linksReset s l) := by
  refine changes_step hw ?_ hk
  clear hk
  unfold linksReset
  try dsimp only
  repeat' first
    | with_reducible exact changesOnly_refl _ _
    | with_reducible apply changes_modSluices
    | (show List.contains _ _ = true; decide)

theorem chg_resetOne {ps : List Part} {z : State} (s : State) (l : Lane) (cause : Nat) (hw : within [.laneState, .life, .press, .raa, .sessions, .fieldIn, .eic, .chk, .staging, .mbx, .bank, .boot, .bist, .rail, .link, .times, .sluices, .ports, .lifetime, .log] ps = true) (hk : changesOnly ps z s) :
    changesOnly ps z (resetOne s l cause) := by
  refine changes_step hw ?_ hk
  clear hk
  unfold resetOne
  try dsimp only
  repeat' first
    | with_reducible exact changesOnly_refl _ _
    | with_reducible apply chg_endUpdate
    | with_reducible apply chg_linksReset
    | with_reducible apply changes_modLane
    | with_reducible apply changes_modPort
    | (show within _ _ = true; decide)
    | (show List.contains _ _ = true; decide)
    | with_reducible apply laneOnly_refl
    | with_reducible apply chg_laneReset
    | split

theorem chg_applyClears {ps : List Part} {z : State} (s : State) (hw : within [.eic, .staging, .ports, .lifetime, .log] ps = true) (hk : changesOnly ps z s) :
    changesOnly ps z (applyClears s) := by
  refine changes_step hw ?_ hk
  clear hk
  unfold applyClears
  try dsimp only
  repeat' first
    | with_reducible assumption
    | with_reducible exact changesOnly_refl _ _
    | with_reducible apply chg_clearRetirement
    | with_reducible apply changes_foldS
    | (show within _ _ = true; decide)
    | (with_reducible intro t x hk)
    | split

theorem chg_laneCold {ps : List Part} {z : LaneState} (L : LaneState) (cause : Nat) (hw : within [.laneState, .life, .press, .raa, .sessions, .fieldIn, .eic, .chk, .staging, .mbx, .bank, .boot, .bist, .rail, .link, .times] ps = true) (hk : laneOnly ps z L) :
    laneOnly ps z (laneCold L cause) := by
  refine laneOnly_step hw ?_ hk
  clear hk
  unfold laneCold
  try dsimp only
  repeat' first
    | (show laneOnly _ _ _; intro p hp; (cases p <;> first | exact Bool.noConfusion (show true = false from hp) | exact trivial | rfl | exact ⟨rfl, rfl⟩ | exact ⟨rfl, rfl, rfl⟩))

theorem chg_moduleReset {ps : List Part} {z : State} (s : State) (m : ModSt) (cause : Nat) (hw : within [.mode, .clock, .laneState, .life, .press, .raa, .sessions, .fieldIn, .eic, .chk, .staging, .mbx, .bank, .boot, .bist, .rail, .link, .times, .sluices, .alk, .field, .ports, .twin, .lifetime, .log] ps = true)
    (hk : changesOnly ps z s) : changesOnly ps z (moduleReset s m cause) := by
  refine changes_step hw (?_ : changesOnly [.mode, .clock, .laneState, .life, .press, .raa, .sessions, .fieldIn, .eic, .chk, .staging, .mbx, .bank, .boot, .bist, .rail, .link, .times, .sluices, .alk, .field, .ports, .twin, .lifetime, .log] s (moduleReset s m cause)) hk
  have hk := changesOnly_refl [.mode, .clock, .laneState, .life, .press, .raa, .sessions, .fieldIn, .eic, .chk, .staging, .mbx, .bank, .boot, .bist, .rail, .link, .times, .sluices, .alk, .field, .ports, .twin, .lifetime, .log] s
  unfold moduleReset
  extract_lets s0 s1 again s2
  have h2 : changesOnly [.mode, .clock, .laneState, .life, .press, .raa, .sessions, .fieldIn, .eic, .chk, .staging, .mbx, .bank, .boot, .bist, .rail, .link, .times, .sluices, .alk, .field, .ports, .twin, .lifetime, .log] s s2 := changes_modLife _ rfl (changes_modLife _ rfl (chg_applyClears _ rfl hk))
  intro p hp
  refine ⟨?_, fun l => ?_⟩
  · have := (h2 p hp).1
    cases p <;> first | (cases hp; done) | exact trivial | exact this
  · cases p <;> first | (cases hp; done) | exact trivial

theorem chg_restartNow {ps : List Part} {z : State} (s : State) (cause : Nat) (hw : within [.mode, .clock, .laneState, .life, .press, .raa, .sessions, .fieldIn, .eic, .chk, .staging, .mbx, .bank, .boot, .bist, .rail, .link, .times, .sluices, .alk, .field, .ports, .twin, .lifetime, .log] ps = true) (hk : changesOnly ps z s) :
    changesOnly ps z (restartNow s cause) := by
  refine changes_step hw ?_ hk
  clear hk
  unfold restartNow
  try dsimp only
  repeat' first
    | with_reducible exact changesOnly_refl _ _
    | with_reducible apply chg_parkCompare
    | with_reducible apply chg_moduleReset
    | (show within _ _ = true; decide)

theorem chg_beginBoot {ps : List Part} {z : State} (s : State) (hw : within [.life, .sluices] ps = true) (hk : changesOnly ps z s) :
    changesOnly ps z (beginBoot s) := by
  refine changes_step hw ?_ hk
  clear hk
  unfold beginBoot
  try dsimp only
  repeat' first
    | with_reducible exact changesOnly_refl _ _
    | with_reducible apply changes_modLanes
    | with_reducible apply changes_modSluices
    | (rw [mk_withRest]; with_reducible apply changes_withRest)
    | (show List.contains _ _ = true; decide)
    | (intro l; show laneOnly _ _ _; intro p hp; ((repeat' split) <;> cases p <;> first | exact Bool.noConfusion (show true = false from hp) | exact trivial | rfl | exact ⟨rfl, rfl⟩ | exact ⟨rfl, rfl, rfl⟩))
    | (show ∀ q, _ → sameModule q _ _; intro p hp; (cases p <;> first | exact Bool.noConfusion (show true = false from hp) | exact trivial | rfl | exact ⟨rfl, rfl⟩ | exact ⟨rfl, rfl, rfl⟩))
    | split

theorem chg_railsGood {ps : List Part} {z : State} (s : State) (hw : within [.life, .rail] ps = true) (hk : changesOnly ps z s) :
    changesOnly ps z (railsGood s) := by
  refine changes_step hw ?_ hk
  clear hk
  unfold railsGood
  try dsimp only
  repeat' first
    | with_reducible exact changesOnly_refl _ _
    | with_reducible apply changes_modLanes
    | (intro l; show laneOnly _ _ _; intro p hp; (cases p <;> first | exact Bool.noConfusion (show true = false from hp) | exact trivial | rfl | exact ⟨rfl, rfl⟩ | exact ⟨rfl, rfl, rfl⟩))

theorem chg_execResetRelease {ps : List Part} {z : State} (orderKept : Bool) (s : State) (q0 : State) (hw : within [.mode, .clock, .life, .boot, .rail, .sluices, .lifetime] ps = true) (hk : changesOnly ps z s) :
    changesOnly ps z (thenState q0 (execResetRelease orderKept s)) := by
  refine changes_step hw ?_ hk
  clear hk
  unfold execResetRelease
  dsimp only [thenState]
  repeat' first
    | with_reducible exact changesOnly_refl _ _
    | with_reducible apply chg_beginBoot
    | with_reducible apply chg_parkCompare
    | with_reducible apply chg_railsGood
    | with_reducible apply changes_modLife
    | (rw [mk_withRest]; with_reducible apply changes_withRest)
    | (show within _ _ = true; decide)
    | (show List.contains _ _ = true; decide)
    | (show ∀ q, _ → sameModule q _ _; intro p hp; (cases p <;> first | exact Bool.noConfusion (show true = false from hp) | exact trivial | rfl | exact ⟨rfl, rfl⟩ | exact ⟨rfl, rfl, rfl⟩))
    | split

theorem chg_execVdd3v3Reset {ps : List Part} {z : State} (s : State) (q0 : State) (hw : within [.mode, .clock, .laneState, .life, .press, .raa, .sessions, .fieldIn, .eic, .chk, .staging, .mbx, .bank, .boot, .bist, .rail, .link, .times, .sluices, .alk, .field, .ports, .twin, .lifetime, .log] ps = true) (hk : changesOnly ps z s) :
    changesOnly ps z (thenState q0 (execVdd3v3Reset s)) := by
  refine changes_step hw ?_ hk
  clear hk
  unfold execVdd3v3Reset
  dsimp only [thenState]
  repeat' first
    | with_reducible exact changesOnly_refl _ _
    | with_reducible apply chg_moduleReset
    | (show within _ _ = true; decide)
    | split

theorem chg_execIoAnaReset {ps : List Part} {z : State} (s : State) (q0 : State) (hw : within [.mode, .clock, .laneState, .life, .press, .raa, .sessions, .fieldIn, .eic, .chk, .staging, .mbx, .bank, .boot, .bist, .rail, .link, .times, .sluices, .alk, .field, .ports, .twin, .lifetime, .log] ps = true) (hk : changesOnly ps z s) :
    changesOnly ps z (thenState q0 (execIoAnaReset s)) := by
  refine changes_step hw ?_ hk
  clear hk
  unfold execIoAnaReset
  dsimp only [thenState]
  repeat' first
    | with_reducible exact changesOnly_refl _ _
    | with_reducible apply chg_moduleReset
    | (show within _ _ = true; decide)
    | split

theorem chg_execResetNLow {ps : List Part} {z : State} (s : State) (q0 : State) (hw : within [.mode, .clock, .laneState, .life, .press, .raa, .sessions, .fieldIn, .eic, .chk, .staging, .mbx, .bank, .boot, .bist, .rail, .link, .times, .sluices, .alk, .field, .ports, .twin, .lifetime, .log] ps = true) (hk : changesOnly ps z s) :
    changesOnly ps z (thenState q0 (execResetNLow s)) := by
  refine changes_step hw ?_ hk
  clear hk
  unfold execResetNLow
  dsimp only [thenState]
  repeat' first
    | with_reducible exact changesOnly_refl _ _
    | with_reducible apply chg_restartNow
    | (show within _ _ = true; decide)
    | split

theorem chg_laneV3Warn {ps : List Part} {z : State} (mv : BitVec 16) (s : State) (l : Lane) (hw : within [.life, .eic, .staging, .bist, .rail, .ports, .lifetime, .log] ps = true) (hk : changesOnly ps z s) :
    changesOnly ps z (laneV3Warn mv s l) := by
  refine changes_step hw ?_ hk
  clear hk
  unfold laneV3Warn
  try dsimp only
  repeat' first
    | with_reducible exact changesOnly_refl _ _
    | with_reducible apply chg_endBist
    | with_reducible apply chg_eventLane
    | with_reducible apply chg_flushLane
    | with_reducible apply changes_modLane
    | (show within _ _ = true; decide)
    | (show laneOnly _ _ _; intro p hp; (cases p <;> first | exact Bool.noConfusion (show true = false from hp) | exact trivial | rfl | exact ⟨rfl, rfl⟩ | exact ⟨rfl, rfl, rfl⟩))
    | split

theorem chg_execRail3v3Warn {ps : List Part} {z : State} (mv : BitVec 16) (s : State) (q0 : State) (hw : within [.clock, .life, .eic, .staging, .bist, .rail, .ports, .lifetime, .log] ps = true) (hk : changesOnly ps z s) :
    changesOnly ps z (thenState q0 (execRail3v3Warn mv s)) := by
  refine changes_step hw ?_ hk
  clear hk
  unfold execRail3v3Warn
  dsimp only [thenState]
  repeat' first
    | with_reducible assumption
    | with_reducible exact changesOnly_refl _ _
    | with_reducible apply chg_laneV3Warn
    | with_reducible apply changes_foldS
    | (rw [mk_withRest]; with_reducible apply changes_withRest)
    | (show within _ _ = true; decide)
    | (show ∀ q, _ → sameModule q _ _; intro p hp; (cases p <;> first | exact Bool.noConfusion (show true = false from hp) | exact trivial | rfl | exact ⟨rfl, rfl⟩ | exact ⟨rfl, rfl, rfl⟩))
    | (with_reducible intro t x hk)
    | split

theorem chg_execV3WarnRelease {ps : List Part} {z : State} (s : State) (q0 : State) (hw : within [.clock, .eic, .staging, .ports] ps = true) (hk : changesOnly ps z s) :
    changesOnly ps z (thenState q0 (execV3WarnRelease s)) := by
  refine changes_step hw ?_ hk
  clear hk
  unfold execV3WarnRelease
  dsimp only [thenState]
  repeat' first
    | with_reducible exact changesOnly_refl _ _
    | with_reducible apply chg_eicLevelAll
    | with_reducible apply changes_modLanes
    | (rw [mk_withRest]; with_reducible apply changes_withRest)
    | (show within _ _ = true; decide)
    | (intro l; show laneOnly _ _ _; intro p hp; (cases p <;> first | exact Bool.noConfusion (show true = false from hp) | exact trivial | rfl | exact ⟨rfl, rfl⟩ | exact ⟨rfl, rfl, rfl⟩))
    | (show ∀ q, _ → sameModule q _ _; intro p hp; (cases p <;> first | exact Bool.noConfusion (show true = false from hp) | exact trivial | rfl | exact ⟨rfl, rfl⟩ | exact ⟨rfl, rfl, rfl⟩))
    | split

theorem chg_execCoreRailWarn {ps : List Part} {z : State} (l : Lane) (mv : BitVec 16) (s : State) (q0 : State) (hw : within [.eic, .staging, .rail, .ports, .log] ps = true) (hk : changesOnly ps z s) :
    changesOnly ps z (thenState q0 (execCoreRailWarn l mv s)) := by
  refine changes_step hw ?_ hk
  clear hk
  unfold execCoreRailWarn
  dsimp only [thenState]
  repeat' first
    | with_reducible exact changesOnly_refl _ _
    | with_reducible apply chg_eventLane
    | with_reducible apply changes_modLane
    | (show within _ _ = true; decide)
    | (show laneOnly _ _ _; intro p hp; (cases p <;> first | exact Bool.noConfusion (show true = false from hp) | exact trivial | rfl | exact ⟨rfl, rfl⟩ | exact ⟨rfl, rfl, rfl⟩))
    | split

theorem chg_releaseLane {ps : List Part} {z : State} (s : State) (l : Lane) (hw : within [.life, .sluices] ps = true) (hk : changesOnly ps z s) :
    changesOnly ps z (releaseLane s l) := by
  refine changes_step hw ?_ hk
  clear hk
  unfold releaseLane
  try dsimp only
  repeat' first
    | with_reducible exact changesOnly_refl _ _
    | with_reducible apply changes_modLane
    | with_reducible apply changes_modSluices
    | (show List.contains _ _ = true; decide)
    | (show laneOnly _ _ _; intro p hp; (cases p <;> first | exact Bool.noConfusion (show true = false from hp) | exact trivial | rfl | exact ⟨rfl, rfl⟩ | exact ⟨rfl, rfl, rfl⟩))
    | split

theorem chg_execCoreWarnRelease {ps : List Part} {z : State} (l : Lane) (s : State) (q0 : State) (hw : within [.life, .eic, .rail, .sluices, .ports] ps = true) (hk : changesOnly ps z s) :
    changesOnly ps z (thenState q0 (execCoreWarnRelease l s)) := by
  refine changes_step hw ?_ hk
  clear hk
  unfold execCoreWarnRelease
  dsimp only [thenState]
  repeat' first
    | with_reducible exact changesOnly_refl _ _
    | with_reducible apply chg_eicLevel
    | with_reducible apply chg_releaseLane
    | with_reducible apply changes_modLane
    | (show within _ _ = true; decide)
    | (show laneOnly _ _ _; intro p hp; (cases p <;> first | exact Bool.noConfusion (show true = false from hp) | exact trivial | rfl | exact ⟨rfl, rfl⟩ | exact ⟨rfl, rfl, rfl⟩))
    | split

theorem chg_checkRecovery {ps : List Part} {z : State} (s : State) (hw : within [.mode, .eic, .staging, .ports, .log, .free] ps = true) (hk : changesOnly ps z s) :
    changesOnly ps z (checkRecovery s) := by
  refine changes_step hw ?_ hk
  clear hk
  unfold checkRecovery
  try dsimp only
  repeat' first
    | with_reducible exact changesOnly_refl _ _
    | with_reducible apply chg_setModule
    | (show within _ _ = true; decide)
    | split

theorem chg_execCoreRailReset {ps : List Part} {z : State} (l : Lane) (s : State) (q0 : State) (hw : within [.mode, .laneState, .life, .press, .raa, .sessions, .fieldIn, .eic, .chk, .staging, .mbx, .bank, .boot, .bist, .rail, .link, .times, .sluices, .ports, .lifetime, .log, .free] ps = true) (hk : changesOnly ps z s) :
    changesOnly ps z (thenState q0 (execCoreRailReset l s)) := by
  refine changes_step hw ?_ hk
  clear hk
  unfold execCoreRailReset
  dsimp only [thenState]
  repeat' first
    | with_reducible exact changesOnly_refl _ _
    | with_reducible apply chg_isolate
    | with_reducible apply chg_checkRecovery
    | with_reducible apply chg_resetOne
    | with_reducible apply changes_modLane
    | (show within _ _ = true; decide)
    | (show laneOnly _ _ _; intro p hp; (cases p <;> first | exact Bool.noConfusion (show true = false from hp) | exact trivial | rfl | exact ⟨rfl, rfl⟩ | exact ⟨rfl, rfl, rfl⟩))
    | split

theorem chg_execClockLoss {ps : List Part} {z : State} (l : Lane) (s : State) (q0 : State) (hw : within [.mode, .laneState, .life, .press, .raa, .sessions, .fieldIn, .eic, .chk, .staging, .mbx, .bank, .boot, .bist, .rail, .link, .times, .sluices, .ports, .lifetime, .log, .free] ps = true) (hk : changesOnly ps z s) :
    changesOnly ps z (thenState q0 (execClockLoss l s)) := by
  refine changes_step hw ?_ hk
  clear hk
  unfold execClockLoss
  dsimp only [thenState]
  repeat' first
    | with_reducible exact changesOnly_refl _ _
    | with_reducible apply chg_isolate
    | with_reducible apply chg_checkRecovery
    | with_reducible apply chg_resetOne
    | with_reducible apply changes_modLane
    | (show within _ _ = true; decide)
    | (show laneOnly _ _ _; intro p hp; (cases p <;> first | exact Bool.noConfusion (show true = false from hp) | exact trivial | rfl | exact ⟨rfl, rfl⟩ | exact ⟨rfl, rfl, rfl⟩))
    | split

theorem chg_execClockRestored {ps : List Part} {z : State} (l : Lane) (s : State) (q0 : State) (hw : within [.life, .sluices] ps = true) (hk : changesOnly ps z s) :
    changesOnly ps z (thenState q0 (execClockRestored l s)) := by
  refine changes_step hw ?_ hk
  clear hk
  unfold execClockRestored
  dsimp only [thenState]
  repeat' first
    | with_reducible exact changesOnly_refl _ _
    | with_reducible apply chg_releaseLane
    | with_reducible apply changes_modLane
    | (show within _ _ = true; decide)
    | (show laneOnly _ _ _; intro p hp; (cases p <;> first | exact Bool.noConfusion (show true = false from hp) | exact trivial | rfl | exact ⟨rfl, rfl⟩ | exact ⟨rfl, rfl, rfl⟩))
    | split

theorem chg_execFwWatchdog {ps : List Part} {z : State} (l : Lane) (s : State) (q0 : State) (hw : within [.mode, .laneState, .life, .press, .raa, .sessions, .fieldIn, .eic, .chk, .staging, .mbx, .bank, .boot, .bist, .rail, .link, .times, .sluices, .ports, .lifetime, .log, .free] ps = true) (hk : changesOnly ps z s) :
    changesOnly ps z (thenState q0 (execFwWatchdog l s)) := by
  refine changes_step hw ?_ hk
  clear hk
  unfold execFwWatchdog
  dsimp only [thenState]
  repeat' first
    | with_reducible exact changesOnly_refl _ _
    | with_reducible apply chg_isolate
    | with_reducible apply chg_resetOne
    | with_reducible apply chg_releaseLane
    | (show within _ _ = true; decide)
    | (show ∀ q, _ → sameModule q _ _; intro p hp; (cases p <;> first | exact Bool.noConfusion (show true = false from hp) | exact trivial | rfl | exact ⟨rfl, rfl⟩ | exact ⟨rfl, rfl, rfl⟩))
    | with_reducible apply changes_modLane
    | (show laneOnly _ _ _; intro p hp; (cases p <;> first | exact Bool.noConfusion (show true = false from hp) | exact trivial | rfl | exact ⟨rfl, rfl⟩ | exact ⟨rfl, rfl, rfl⟩))
    | split

theorem chg_romEntry {ps : List Part} {z : State} (s : State) (hw : within [.eic, .staging, .ports, .log, .free] ps = true) (hk : changesOnly ps z s) :
    changesOnly ps z (romEntry s) := by
  refine changes_step hw ?_ hk
  clear hk
  unfold romEntry
  try dsimp only
  repeat' first
    | with_reducible exact changesOnly_refl _ _
    | with_reducible apply chg_recordLane
    | (rw [mk_withRest]; with_reducible apply changes_withRest)
    | (show within _ _ = true; decide)
    | (show ∀ q, _ → sameModule q _ _; intro p hp; (cases p <;> first | exact Bool.noConfusion (show true = false from hp) | exact trivial | rfl | exact ⟨rfl, rfl⟩ | exact ⟨rfl, rfl, rfl⟩))
    | split

theorem chg_execBootFailed {ps : List Part} {z : State} (l : Lane) (s : State) (q0 : State) (hw : within [.mode, .life, .eic, .staging, .boot, .ports, .log, .free] ps = true) (hk : changesOnly ps z s) :
    changesOnly ps z (thenState q0 (execBootFailed l s)) := by
  refine changes_step hw ?_ hk
  clear hk
  unfold execBootFailed
  dsimp only [thenState]
  repeat' first
    | with_reducible exact changesOnly_refl _ _
    | with_reducible apply chg_checkRecovery
    | with_reducible apply chg_romEntry
    | with_reducible apply changes_modLane
    | (show within _ _ = true; decide)
    | (show laneOnly _ _ _; intro p hp; (cases p <;> first | exact Bool.noConfusion (show true = false from hp) | exact trivial | rfl | exact ⟨rfl, rfl⟩ | exact ⟨rfl, rfl, rfl⟩))
    | split

theorem startTime_eq (s : State) : ∃ m : Machine.Module, startTime s = { s with mod := m } ∧ m.st = s.mod.st := by
  unfold startTime
  split
  · exact ⟨s.mod, rfl, rfl⟩
  · refine ⟨_, rfl, ?_⟩
    dsimp only

theorem chg_startTime {ps : List Part} {z : State} (s : State) (hw : within [.clock] ps = true) (hk : changesOnly ps z s) :
    changesOnly ps z (startTime s) := by
  refine changes_step hw ?_ hk
  obtain ⟨m, e, hm⟩ := startTime_eq s
  rw [e]
  refine changes_module (s := s) rfl (fun p hp => ?_) (changesOnly_refl _ _)
  cases p <;> first | (cases hp; done) | exact trivial | exact hm | rfl

theorem chg_started {ps : List Part} {z : State} (s : State) (x : FirmwareBoot) (hw : within [.laneState, .life, .eic, .staging, .boot, .sluices, .ports, .log, .free] ps = true) (hk : changesOnly ps z s) :
    changesOnly ps z (started s x) := by
  refine changes_step hw ?_ hk
  clear hk
  unfold started
  try dsimp only
  repeat' first
    | with_reducible exact changesOnly_refl _ _
    | with_reducible apply chg_recordLane
    | with_reducible apply chg_bootRead
    | with_reducible apply chg_settleLevels
    | with_reducible apply changes_modLane
    | with_reducible apply changes_modSluices
    | (rw [mk_withRest]; with_reducible apply changes_withRest)
    | (show within _ _ = true; decide)
    | (show List.contains _ _ = true; decide)
    | (show laneOnly _ _ _; intro p hp; (cases p <;> first | exact Bool.noConfusion (show true = false from hp) | exact trivial | rfl | exact ⟨rfl, rfl⟩ | exact ⟨rfl, rfl, rfl⟩))
    | (show laneOnly _ _ _; intro p hp; ((repeat' split) <;> cases p <;> first | exact Bool.noConfusion (show true = false from hp) | exact trivial | rfl | exact ⟨rfl, rfl⟩ | exact ⟨rfl, rfl, rfl⟩))
    | (show ∀ q, _ → sameModule q _ _; intro p hp; (cases p <;> first | exact Bool.noConfusion (show true = false from hp) | exact trivial | rfl | exact ⟨rfl, rfl⟩ | exact ⟨rfl, rfl, rfl⟩))
    | (rw [mk_withCellar]; with_reducible apply changes_withCellar)
    | split

theorem chg_execFirmwareStart {ps : List Part} {z : State} (x : FirmwareBoot) (s : State) (q0 : State) (hw : within [.clock, .laneState, .life, .eic, .staging, .mbx, .boot, .sluices, .ports, .lifetime, .log, .free] ps = true) (hk : changesOnly ps z s) :
    changesOnly ps z (thenState q0 (execFirmwareStart x s)) := by
  refine changes_step hw ?_ hk
  clear hk
  unfold execFirmwareStart
  dsimp only [thenState]
  repeat' first
    | with_reducible exact changesOnly_refl _ _
    | with_reducible apply chg_endUpdate
    | with_reducible apply chg_startTime
    | with_reducible apply chg_started
    | (show within _ _ = true; decide)
    | (show ∀ q, _ → sameModule q _ _; intro p hp; (cases p <;> first | exact Bool.noConfusion (show true = false from hp) | exact trivial | rfl | exact ⟨rfl, rfl⟩ | exact ⟨rfl, rfl, rfl⟩))
    | split

theorem chg_agreeBanks {ps : List Part} {z : State} (s : State) (l : Lane) (hw : within [.bank] ps = true) (hk : changesOnly ps z s) :
    changesOnly ps z (agreeBanks s l) := by
  refine changes_step hw ?_ hk
  clear hk
  unfold agreeBanks
  try dsimp only
  repeat' first
    | with_reducible exact changesOnly_refl _ _
    | with_reducible apply changes_modLane
    | (rw [mk_withRest]; with_reducible apply changes_withRest)
    | (show laneOnly _ _ _; intro p hp; (cases p <;> first | exact Bool.noConfusion (show true = false from hp) | exact trivial | rfl | exact ⟨rfl, rfl⟩ | exact ⟨rfl, rfl, rfl⟩))
    | (show laneOnly _ _ _; intro p hp; ((repeat' split) <;> cases p <;> first | exact Bool.noConfusion (show true = false from hp) | exact trivial | rfl | exact ⟨rfl, rfl⟩ | exact ⟨rfl, rfl, rfl⟩))
    | (show ∀ q, _ → sameModule q _ _; intro p hp; (cases p <;> first | exact Bool.noConfusion (show true = false from hp) | exact trivial | rfl | exact ⟨rfl, rfl⟩ | exact ⟨rfl, rfl, rfl⟩))
    | split

theorem chg_configure {ps : List Part} {z : State} (s : State) (v : Vintage) (hw : within [.sessions, .alk] ps = true) (hk : changesOnly ps z s) :
    changesOnly ps z (configure s v) := by
  refine changes_step hw ?_ hk
  clear hk
  unfold configure
  try dsimp only
  repeat' first
    | with_reducible exact changesOnly_refl _ _
    | with_reducible apply changes_modLanes
    | (rw [mk_withRest]; with_reducible apply changes_withRest)
    | (intro l; show laneOnly _ _ _; intro p hp; (cases p <;> first | exact Bool.noConfusion (show true = false from hp) | exact trivial | rfl | exact ⟨rfl, rfl⟩ | exact ⟨rfl, rfl, rfl⟩))
    | (show ∀ q, _ → sameModule q _ _; intro p hp; (cases p <;> first | exact Bool.noConfusion (show true = false from hp) | exact trivial | rfl | exact ⟨rfl, rfl⟩ | exact ⟨rfl, rfl, rfl⟩))

theorem chg_startBus {ps : List Part} {z : State} (s : State) (hw : within [.clock, .sessions, .alk] ps = true) (hk : changesOnly ps z s) :
    changesOnly ps z (startBus s) := by
  refine changes_step hw ?_ hk
  clear hk
  unfold startBus
  try dsimp only
  repeat' first
    | with_reducible exact changesOnly_refl _ _
    | with_reducible apply chg_configure
    | (rw [mk_withRest]; with_reducible apply changes_withRest)
    | (show within _ _ = true; decide)
    | (show ∀ q, _ → sameModule q _ _; intro p hp; (cases p <;> first | exact Bool.noConfusion (show true = false from hp) | exact trivial | rfl | exact ⟨rfl, rfl⟩ | exact ⟨rfl, rfl, rfl⟩))
    | split

theorem chg_takeInto {ps : List Part} {z : State} (s : State) (l : Lane) (hw : within [.clock, .lifetime, .log] ps = true) (hk : changesOnly ps z s) :
    changesOnly ps z (takeInto s l) := by
  refine changes_step hw ?_ hk
  clear hk
  unfold takeInto
  try dsimp only
  repeat' first
    | with_reducible exact changesOnly_refl _ _
    | with_reducible apply changes_modPages
    | (rw [mk_withRest]; with_reducible apply changes_withRest)
    | (show List.contains _ _ = true; decide)
    | (show ∀ q, _ → sameModule q _ _; intro p hp; (cases p <;> first | exact Bool.noConfusion (show true = false from hp) | exact trivial | rfl | exact ⟨rfl, rfl⟩ | exact ⟨rfl, rfl, rfl⟩))
    | (show within _ _ = true; decide)
    | split

theorem chg_testsPassed {ps : List Part} {z : State} (s : State) (l : Lane) (badA badB : Bool) (hw : within [.clock, .laneState, .life, .sessions, .eic, .bank, .boot, .alk, .ports, .lifetime, .log] ps = true) (hk : changesOnly ps z s) :
    changesOnly ps z (testsPassed s l badA badB) := by
  refine changes_step hw ?_ hk
  clear hk
  unfold testsPassed
  try dsimp only
  repeat' first
    | with_reducible assumption
    | with_reducible exact changesOnly_refl _ _
    | with_reducible apply chg_eicRaiseAll
    | with_reducible apply chg_takeBanks
    | with_reducible apply chg_buildBanks
    | with_reducible apply chg_agreeBanks
    | with_reducible apply chg_startBus
    | with_reducible apply chg_takeInto
    | with_reducible apply changes_foldS
    | with_reducible apply changes_modLane
    | (rw [mk_withRest]; with_reducible apply changes_withRest)
    | (show within _ _ = true; decide)
    | (show laneOnly _ _ _; intro p hp; (cases p <;> first | exact Bool.noConfusion (show true = false from hp) | exact trivial | rfl | exact ⟨rfl, rfl⟩ | exact ⟨rfl, rfl, rfl⟩))
    | (show laneOnly _ _ _; intro p hp; ((repeat' split) <;> cases p <;> first | exact Bool.noConfusion (show true = false from hp) | exact trivial | rfl | exact ⟨rfl, rfl⟩ | exact ⟨rfl, rfl, rfl⟩))
    | (show ∀ q, _ → sameModule q _ _; intro p hp; (cases p <;> first | exact Bool.noConfusion (show true = false from hp) | exact trivial | rfl | exact ⟨rfl, rfl⟩ | exact ⟨rfl, rfl, rfl⟩))
    | (with_reducible intro t x hk)
    | (with_reducible intro t hk)
    | split

theorem chg_testsFailed {ps : List Part} {z : State} (s : State) (l : Lane) (r : BistResult) (hw : within [.mode, .laneState, .life, .press, .raa, .eic, .staging, .bank, .bist, .link, .sluices, .ports, .lifetime, .log, .free] ps = true) (hk : changesOnly ps z s) :
    changesOnly ps z (testsFailed s l r) := by
  refine changes_step hw ?_ hk
  clear hk
  unfold testsFailed
  try dsimp only
  repeat' first
    | with_reducible exact changesOnly_refl _ _
    | with_reducible apply chg_isolate
    | with_reducible apply chg_bistFailed
    | with_reducible apply changes_modLane
    | (rw [mk_withRest]; with_reducible apply changes_withRest)
    | (show within _ _ = true; decide)
    | (show laneOnly _ _ _; intro p hp; (cases p <;> first | exact Bool.noConfusion (show true = false from hp) | exact trivial | rfl | exact ⟨rfl, rfl⟩ | exact ⟨rfl, rfl, rfl⟩))
    | (show laneOnly _ _ _; intro p hp; ((repeat' split) <;> cases p <;> first | exact Bool.noConfusion (show true = false from hp) | exact trivial | rfl | exact ⟨rfl, rfl⟩ | exact ⟨rfl, rfl, rfl⟩))
    | (show ∀ q, _ → sameModule q _ _; intro p hp; (cases p <;> first | exact Bool.noConfusion (show true = false from hp) | exact trivial | rfl | exact ⟨rfl, rfl⟩ | exact ⟨rfl, rfl, rfl⟩))
    | split

theorem chg_execLaneTestDone {ps : List Part} {z : State} (x : StartTests) (r : BistResult) (repairs : List SoftRepair) (s : State) (q0 : State) (hw : within [.mode, .clock, .laneState, .life, .press, .raa, .sessions, .eic, .staging, .bank, .boot, .bist, .link, .sluices, .alk, .ports, .lifetime, .log, .free] ps = true) (hk : changesOnly ps z s) :
    changesOnly ps z (thenState q0 (execLaneTestDone x r repairs s)) := by
  refine changes_step hw ?_ hk
  clear hk
  unfold execLaneTestDone
  dsimp only [thenState]
  repeat' first
    | with_reducible assumption
    | with_reducible exact changesOnly_refl _ _
    | with_reducible apply chg_softRepair
    | with_reducible apply chg_bistPassed
    | with_reducible apply chg_beginTests
    | with_reducible apply chg_testsPassed
    | with_reducible apply chg_testsFailed
    | with_reducible apply changes_foldS
    | with_reducible apply changes_modLane
    | (rw [mk_withRest]; with_reducible apply changes_withRest)
    | (show within _ _ = true; decide)
    | (show laneOnly _ _ _; intro p hp; (cases p <;> first | exact Bool.noConfusion (show true = false from hp) | exact trivial | rfl | exact ⟨rfl, rfl⟩ | exact ⟨rfl, rfl, rfl⟩))
    | (show laneOnly _ _ _; intro p hp; ((repeat' split) <;> cases p <;> first | exact Bool.noConfusion (show true = false from hp) | exact trivial | rfl | exact ⟨rfl, rfl⟩ | exact ⟨rfl, rfl, rfl⟩))
    | (show ∀ q, _ → sameModule q _ _; intro p hp; (cases p <;> first | exact Bool.noConfusion (show true = false from hp) | exact trivial | rfl | exact ⟨rfl, rfl⟩ | exact ⟨rfl, rfl, rfl⟩))
    | (with_reducible intro t x hk)
    | (with_reducible intro t hk)
    | split

theorem chg_execBootLimit {ps : List Part} {z : State} (s : State) (q0 : State) (hw : within [.mode, .life, .press, .raa, .eic, .staging, .bist, .link, .sluices, .ports, .log, .free] ps = true) (hk : changesOnly ps z s) :
    changesOnly ps z (thenState q0 (execBootLimit s)) := by
  refine changes_step hw ?_ hk
  clear hk
  unfold execBootLimit
  dsimp only [thenState]
  repeat' first
    | with_reducible exact changesOnly_refl _ _
    | with_reducible apply chg_latchAll
    | (show within _ _ = true; decide)
    | split

theorem chg_installKey {ps : List Part} {z : State} (s : State) (key : BitVec 256) (hw : within [.lifetime, .log] ps = true) (hk : changesOnly ps z s) :
    changesOnly ps z (installKey s key) := by
  refine changes_step hw ?_ hk
  clear hk
  unfold installKey
  try dsimp only
  repeat' first
    | with_reducible exact changesOnly_refl _ _
    | with_reducible apply changes_modPages
    | (rw [mk_withRest]; with_reducible apply changes_withRest)
    | (show List.contains _ _ = true; decide)
    | (show ∀ q, _ → sameModule q _ _; intro p hp; (cases p <;> first | exact Bool.noConfusion (show true = false from hp) | exact trivial | rfl | exact ⟨rfl, rfl⟩ | exact ⟨rfl, rfl, rfl⟩))
    | (show within _ _ = true; decide)
    | with_reducible apply changes_modLife
    | split

theorem chg_execKeyInstall {ps : List Part} {z : State} (key : BitVec 256) (serial : BitVec 64) (auth : Auth) (s : State) (q0 : State) (hw : within [.eic, .staging, .ports, .lifetime, .log] ps = true) (hk : changesOnly ps z s) :
    changesOnly ps z (thenState q0 (execKeyInstall key serial auth s)) := by
  refine changes_step hw ?_ hk
  clear hk
  unfold execKeyInstall
  dsimp only [thenState]
  repeat' first
    | with_reducible assumption
    | with_reducible exact changesOnly_refl _ _
    | with_reducible apply chg_recordMaint
    | with_reducible apply chg_harnal
    | with_reducible apply chg_installKey
    | (show within _ _ = true; decide)
    | (show ∀ q, _ → sameModule q _ _; intro p hp; (cases p <;> first | exact Bool.noConfusion (show true = false from hp) | exact trivial | rfl | exact ⟨rfl, rfl⟩ | exact ⟨rfl, rfl, rfl⟩))
    | (with_reducible intro t hk)
    | (with_reducible intro t x hk)
    | split

theorem chg_requestedRestart {ps : List Part} {z : State} (s : State) (into : Word) (hw : within [.mode, .clock, .laneState, .life, .press, .raa, .sessions, .fieldIn, .eic, .chk, .staging, .mbx, .bank, .boot, .bist, .rail, .link, .times, .sluices, .alk, .field, .ports, .twin, .lifetime, .log] ps = true) (hk : changesOnly ps z s) :
    changesOnly ps z (requestedRestart s into) := by
  refine changes_step hw ?_ hk
  clear hk
  unfold requestedRestart
  try dsimp only
  repeat' first
    | with_reducible assumption
    | with_reducible exact changesOnly_refl _ _
    | with_reducible apply chg_flushLane
    | with_reducible apply chg_restartNow
    | with_reducible apply changes_foldS
    | with_reducible apply changes_modPages
    | (rw [mk_withRest]; with_reducible apply changes_withRest)
    | (show within _ _ = true; decide)
    | (show List.contains _ _ = true; decide)
    | (show ∀ q, _ → sameModule q _ _; intro p hp; (cases p <;> first | exact Bool.noConfusion (show true = false from hp) | exact trivial | rfl | exact ⟨rfl, rfl⟩ | exact ⟨rfl, rfl, rfl⟩))
    | with_reducible apply changes_modLife
    | (with_reducible intro t x hk)
    | (with_reducible intro t hk)
    | split

theorem chg_execRestart {ps : List Part} {z : State} (auth : Auth) (into : Word) (s : State) (q0 : State) (hw : within [.mode, .clock, .laneState, .life, .press, .raa, .sessions, .fieldIn, .eic, .chk, .staging, .mbx, .bank, .boot, .bist, .rail, .link, .times, .sluices, .alk, .field, .ports, .twin, .lifetime, .log] ps = true) (hk : changesOnly ps z s) :
    changesOnly ps z (thenState q0 (execRestart auth into s)) := by
  refine changes_step hw ?_ hk
  clear hk
  unfold execRestart
  dsimp only [thenState]
  repeat' first
    | with_reducible assumption
    | with_reducible exact changesOnly_refl _ _
    | with_reducible apply chg_harnal
    | with_reducible apply chg_requestedRestart
    | (show within _ _ = true; decide)
    | (with_reducible intro t hk)
    | split

theorem chg_keepMarks {ps : List Part} {z : State} (s : State) (l : Lane) (hw : within [.link] ps = true) (hk : changesOnly ps z s) :
    changesOnly ps z (keepMarks s l) := by
  refine changes_step hw ?_ hk
  clear hk
  unfold keepMarks
  try dsimp only
  repeat' first
    | with_reducible exact changesOnly_refl _ _
    | with_reducible apply changes_modLane
    | (rw [mk_withRest]; with_reducible apply changes_withRest)
    | (show laneOnly _ _ _; intro p hp; (cases p <;> first | exact Bool.noConfusion (show true = false from hp) | exact trivial | rfl | exact ⟨rfl, rfl⟩ | exact ⟨rfl, rfl, rfl⟩))
    | (show laneOnly _ _ _; intro p hp; ((repeat' split) <;> cases p <;> first | exact Bool.noConfusion (show true = false from hp) | exact trivial | rfl | exact ⟨rfl, rfl⟩ | exact ⟨rfl, rfl, rfl⟩))
    | (show ∀ q, _ → sameModule q _ _; intro p hp; (cases p <;> first | exact Bool.noConfusion (show true = false from hp) | exact trivial | rfl | exact ⟨rfl, rfl⟩ | exact ⟨rfl, rfl, rfl⟩))
    | split

theorem chg_joinTick {ps : List Part} {z : State} (s : State) (l : Lane) (hw : within [.mode, .laneState, .life, .press, .raa, .eic, .staging, .bank, .bist, .link, .sluices, .ports, .lifetime, .log, .free] ps = true) (hk : changesOnly ps z s) :
    changesOnly ps z (joinTick s l) := by
  refine changes_step hw ?_ hk
  clear hk
  unfold joinTick
  try dsimp only
  repeat' first
    | with_reducible exact changesOnly_refl _ _
    | with_reducible apply chg_isolate
    | with_reducible apply chg_setJoin
    | with_reducible apply chg_keepMarks
    | (show within _ _ = true; decide)
    | (show ∀ q, _ → sameModule q _ _; intro p hp; (cases p <;> first | exact Bool.noConfusion (show true = false from hp) | exact trivial | rfl | exact ⟨rfl, rfl⟩ | exact ⟨rfl, rfl, rfl⟩))
    | split

theorem chg_writeTaken {ps : List Part} {z : State} (s : State) (l : Lane) (hw : within [.bank] ps = true) (hk : changesOnly ps z s) :
    changesOnly ps z (writeTaken s l) := by
  refine changes_step hw ?_ hk
  clear hk
  unfold writeTaken
  try dsimp only
  repeat' first
    | with_reducible exact changesOnly_refl _ _
    | with_reducible apply changes_modLane
    | (rw [mk_withRest]; with_reducible apply changes_withRest)
    | (show laneOnly _ _ _; intro p hp; (cases p <;> first | exact Bool.noConfusion (show true = false from hp) | exact trivial | rfl | exact ⟨rfl, rfl⟩ | exact ⟨rfl, rfl, rfl⟩))
    | (show laneOnly _ _ _; intro p hp; ((repeat' split) <;> cases p <;> first | exact Bool.noConfusion (show true = false from hp) | exact trivial | rfl | exact ⟨rfl, rfl⟩ | exact ⟨rfl, rfl, rfl⟩))
    | (show ∀ q, _ → sameModule q _ _; intro p hp; (cases p <;> first | exact Bool.noConfusion (show true = false from hp) | exact trivial | rfl | exact ⟨rfl, rfl⟩ | exact ⟨rfl, rfl, rfl⟩))
    | split

theorem chg_dropRequests {ps : List Part} {z : State} (s : State) (hw : within [.bist] ps = true) (hk : changesOnly ps z s) :
    changesOnly ps z (dropRequests s) := by
  refine changes_step hw ?_ hk
  clear hk
  unfold dropRequests
  try dsimp only
  repeat' first
    | with_reducible exact changesOnly_refl _ _
    | with_reducible apply changes_modLanes
    | (rw [mk_withRest]; with_reducible apply changes_withRest)
    | (intro l; show laneOnly _ _ _; intro p hp; ((repeat' split) <;> cases p <;> first | exact Bool.noConfusion (show true = false from hp) | exact trivial | rfl | exact ⟨rfl, rfl⟩ | exact ⟨rfl, rfl, rfl⟩))
    | (show ∀ q, _ → sameModule q _ _; intro p hp; (cases p <;> first | exact Bool.noConfusion (show true = false from hp) | exact trivial | rfl | exact ⟨rfl, rfl⟩ | exact ⟨rfl, rfl, rfl⟩))
    | split

end Sys2Proof.Laws
end

