-- ==== Sys2Proof/Laws/ChangesAlusk.lean ====
section
/-!
SUPPORT. The parts of the state that every operation of the station network may change (Safety.changesOnly), one lemma for each operation
and for each command.
-/

namespace Sys2Proof.Laws

open Sys2Proof.Machine Sys2Proof.Safety

theorem chg_modMedium {ps : List Part} {z : State} (s : State) (g : Fin 4) (m : Medium) (f : MediumRec → MediumRec) (hw : within [.alk] ps = true) (hk : changesOnly ps z s) :
    changesOnly ps z (modMedium s g m f) := by
  refine changes_step hw ?_ hk
  clear hk
  unfold modMedium
  try dsimp only
  repeat' first
    | with_reducible exact changesOnly_refl _ _
    | (rw [mk_withRest]; with_reducible apply changes_withRest)
    | (show ∀ q, _ → sameModule q _ _; intro p hp; (cases p <;> first | exact Bool.noConfusion (show true = false from hp) | exact trivial | rfl | exact ⟨rfl, rfl⟩ | exact ⟨rfl, rfl, rfl⟩))

theorem chg_sendOn {ps : List Part} {z : State} (s : State) (g : Fin 4) (m : Medium) (sides : List Side) (up : Bool) (at1 : Side → Time) (f : Side → Frame) (hw : within [.alk] ps = true) (hk : changesOnly ps z s) :
    changesOnly ps z (sendOn s g m sides up at1 f) := by
  refine changes_step hw ?_ hk
  clear hk
  unfold sendOn
  try dsimp only
  repeat' first
    | with_reducible exact changesOnly_refl _ _
    | (rw [mk_withRest]; with_reducible apply changes_withRest)
    | (show ∀ q, _ → sameModule q _ _; intro p hp; (cases p <;> first | exact Bool.noConfusion (show true = false from hp) | exact trivial | rfl | exact ⟨rfl, rfl⟩ | exact ⟨rfl, rfl, rfl⟩))
    | split

theorem chg_sendPlain {ps : List Part} {z : State} (s : State) (g : Fin 4) (m : Medium) (start : Nat) (error : Int) (f : Frame) (hw : within [.alk] ps = true) (hk : changesOnly ps z s) :
    changesOnly ps z (sendPlain s g m start error f) := by
  refine changes_step hw ?_ hk
  clear hk
  unfold sendPlain
  try dsimp only
  repeat' first
    | with_reducible exact changesOnly_refl _ _
    | with_reducible apply chg_sendOn
    | (show within _ _ = true; decide)
    | (show ∀ q, _ → sameModule q _ _; intro p hp; (cases p <;> first | exact Bool.noConfusion (show true = false from hp) | exact trivial | rfl | exact ⟨rfl, rfl⟩ | exact ⟨rfl, rfl, rfl⟩))
    | split

theorem chg_sendAll {ps : List Part} {z : State} (s : State) (now : Time) (f : State → Nat → Frame) (hw : within [.alk] ps = true) (hk : changesOnly ps z s) :
    changesOnly ps z (sendAll s now f) := by
  refine changes_step hw ?_ hk
  clear hk
  unfold sendAll
  try dsimp only
  repeat' first
    | with_reducible assumption
    | with_reducible exact changesOnly_refl _ _
    | with_reducible apply chg_sendOn
    | with_reducible apply changes_foldS
    | (show within _ _ = true; decide)
    | (show ∀ q, _ → sameModule q _ _; intro p hp; (cases p <;> first | exact Bool.noConfusion (show true = false from hp) | exact trivial | rfl | exact ⟨rfl, rfl⟩ | exact ⟨rfl, rfl, rfl⟩))
    | (with_reducible intro t x hk)
    | (with_reducible intro t hk)
    | split

theorem chg_sendCoded {ps : List Part} {z : State} (s : State) (g : Fin 4) (m : Medium) (sides : List Side) (up : Bool) (start : Nat) (error : Int) (f : Lane → Image → Frame) (code : Lane → Word) (hw : within [.alk] ps = true) (hk : changesOnly ps z s) :
    changesOnly ps z (sendCoded s g m sides up start error f code) := by
  refine changes_step hw ?_ hk
  clear hk
  unfold sendCoded
  try dsimp only
  repeat' first
    | with_reducible exact changesOnly_refl _ _
    | with_reducible apply chg_modMedium
    | (rw [mk_withRest]; with_reducible apply changes_withRest)
    | (show within _ _ = true; decide)
    | (show ∀ q, _ → sameModule q _ _; intro p hp; (cases p <;> first | exact Bool.noConfusion (show true = false from hp) | exact trivial | rfl | exact ⟨rfl, rfl⟩ | exact ⟨rfl, rfl, rfl⟩))
    | split

theorem chg_sendSync {ps : List Part} {z : State} (s : State) (m : Medium) (error : Int) (hw : within [.alk] ps = true) (hk : changesOnly ps z s) :
    changesOnly ps z (sendSync s m error) := by
  refine changes_step hw ?_ hk
  clear hk
  unfold sendSync
  try dsimp only
  repeat' first
    | with_reducible assumption
    | with_reducible exact changesOnly_refl _ _
    | with_reducible apply chg_sendPlain
    | with_reducible apply changes_foldS
    | (show within _ _ = true; decide)
    | (show ∀ q, _ → sameModule q _ _; intro p hp; (cases p <;> first | exact Bool.noConfusion (show true = false from hp) | exact trivial | rfl | exact ⟨rfl, rfl⟩ | exact ⟨rfl, rfl, rfl⟩))
    | (with_reducible intro t x hk)
    | (with_reducible intro t hk)
    | split

theorem chg_sendTwin {ps : List Part} {z : State} (s : State) (m : Medium) (error : Int) (x : Image) (t : TwinCtl) (hw : within [.alk] ps = true) (hk : changesOnly ps z s) :
    changesOnly ps z (sendTwin s m error x t) := by
  refine changes_step hw ?_ hk
  clear hk
  unfold sendTwin
  try dsimp only
  repeat' first
    | with_reducible assumption
    | with_reducible exact changesOnly_refl _ _
    | with_reducible apply chg_sendCoded
    | with_reducible apply changes_foldS
    | (show within _ _ = true; decide)
    | (show ∀ q, _ → sameModule q _ _; intro p hp; (cases p <;> first | exact Bool.noConfusion (show true = false from hp) | exact trivial | rfl | exact ⟨rfl, rfl⟩ | exact ⟨rfl, rfl, rfl⟩))
    | (with_reducible intro t x hk)
    | (with_reducible intro t hk)
    | split

theorem chg_sendDelays {ps : List Part} {z s t : State} {on : List (Fin 4)} {f : State → Fin 4 → State}
    (hf : ∀ t g, changesOnly ps z t → changesOnly ps z (f t g)) (hk : changesOnly ps z s) (h : sendDelays s on f = some t) :
    changesOnly ps z t := by
  unfold sendDelays at h
  split at h
  · injection h with h; subst h; exact changes_foldS _ _ hf hk
  · cases h

theorem chg_modDelay {ps : List Part} {z : State} (s : State) (g : Fin 4) (m : Medium) (sd : Side) (f : DelayRec → DelayRec) (hw : within [.alk] ps = true) (hk : changesOnly ps z s) :
    changesOnly ps z (modDelay s g m sd f) := by
  refine changes_step hw ?_ hk
  clear hk
  unfold modDelay
  try dsimp only
  repeat' first
    | with_reducible exact changesOnly_refl _ _
    | with_reducible apply chg_modMedium
    | (show within _ _ = true; decide)

theorem chg_sendDelayReq {ps : List Part} {z : State} (s : State) (g : Fin 4) (m : Medium) (error : Int) (hw : within [.alk] ps = true) (hk : changesOnly ps z s) :
    changesOnly ps z (sendDelayReq s g m error) := by
  refine changes_step hw ?_ hk
  clear hk
  unfold sendDelayReq
  try dsimp only
  repeat' first
    | with_reducible exact changesOnly_refl _ _
    | with_reducible apply chg_modDelay
    | with_reducible apply chg_sendOn
    | (rw [mk_withRest]; with_reducible apply changes_withRest)
    | (show within _ _ = true; decide)
    | (show ∀ q, _ → sameModule q _ _; intro p hp; (cases p <;> first | exact Bool.noConfusion (show true = false from hp) | exact trivial | rfl | exact ⟨rfl, rfl⟩ | exact ⟨rfl, rfl, rfl⟩))
    | split

theorem chg_sendDelayResp {ps : List Part} {z : State} (s : State) (g : Fin 4) (m : Medium) (error : Int) (hw : within [.alk] ps = true) (hk : changesOnly ps z s) :
    changesOnly ps z (sendDelayResp s g m error) := by
  refine changes_step hw ?_ hk
  clear hk
  unfold sendDelayResp
  try dsimp only
  repeat' first
    | with_reducible exact changesOnly_refl _ _
    | with_reducible apply chg_modDelay
    | with_reducible apply chg_sendOn
    | (rw [mk_withRest]; with_reducible apply changes_withRest)
    | (show within _ _ = true; decide)
    | (show ∀ q, _ → sameModule q _ _; intro p hp; (cases p <;> first | exact Bool.noConfusion (show true = false from hp) | exact trivial | rfl | exact ⟨rfl, rfl⟩ | exact ⟨rfl, rfl, rfl⟩))
    | split

theorem chg_slotFrame {ps : List Part} {z s : State} {slot : TxSlot} {m : Medium} {start : Nat} {error : Int} {t : State} (hw : within [.alk] ps = true)
    (hk : changesOnly ps z s) (h : slotFrame s slot m start error = some t) : changesOnly ps z t := by
  unfold slotFrame at h
  repeat' split at h
  all_goals first
    | cases h; done
    | exact chg_sendDelays (fun t g hk => chg_sendDelayReq t g m error (within_trans (by decide) hw) hk) hk h
    | exact chg_sendDelays (fun t g hk => chg_sendDelayResp t g m error (within_trans (by decide) hw) hk) hk h
    | (injection h with h; subst h
       first
         | with_reducible exact chg_sendSync _ _ _ (within_trans (by decide) hw) hk
         | with_reducible exact chg_sendCoded _ _ _ _ _ _ _ _ _ (within_trans (by decide) hw) hk
         | with_reducible exact chg_sendTwin _ _ _ _ _ (within_trans (by decide) hw) hk)

theorem chg_guardBlocks {ps : List Part} {z : State} (s : State) (hw : within [.alk] ps = true) (hk : changesOnly ps z s) :
    changesOnly ps z (guardBlocks s) := by
  refine changes_step hw ?_ hk
  clear hk
  unfold guardBlocks
  try dsimp only
  repeat' first
    | with_reducible exact changesOnly_refl _ _
    | (rw [mk_withRest]; with_reducible apply changes_withRest)
    | (show ∀ q, _ → sameModule q _ _; intro p hp; (cases p <;> first | exact Bool.noConfusion (show true = false from hp) | exact trivial | rfl | exact ⟨rfl, rfl⟩ | exact ⟨rfl, rfl, rfl⟩))
    | split

theorem chg_guardCuts {ps : List Part} {z : State} (before s : State) (len : Nat) (error : Int) (hw : within [.alk] ps = true) (hk : changesOnly ps z s) :
    changesOnly ps z (guardCuts before s len error) := by
  refine changes_step hw ?_ hk
  clear hk
  unfold guardCuts
  try dsimp only
  repeat' first
    | with_reducible exact changesOnly_refl _ _
    | (rw [mk_withRest]; with_reducible apply changes_withRest)
    | (show ∀ q, _ → sameModule q _ _; intro p hp; (cases p <;> first | exact Bool.noConfusion (show true = false from hp) | exact trivial | rfl | exact ⟨rfl, rfl⟩ | exact ⟨rfl, rfl, rfl⟩))
    | split

theorem chg_execComposeFrame {ps : List Part} {z : State} (slot : TxSlot) (m : Medium) (error : Int) (s : State) (q0 : State)
    (hw : within [.alk] ps = true) (hk : changesOnly ps z s) : changesOnly ps z (thenState q0 (execComposeFrame slot m error s)) := by
  unfold execComposeFrame
  dsimp only [thenState]
  split
  · exact hk
  · split
    · exact hk
    · split
      · exact hk
      · next t e =>
        split
        · exact chg_guardCuts _ _ _ _ hw (chg_slotFrame hw hk e)
        · exact chg_guardBlocks _ hw hk

theorem chg_countFcs {ps : List Part} {z : State} (s : State) (g : Fin 4) (m : Medium) (hw : within [.lifetime] ps = true) (hk : changesOnly ps z s) :
    changesOnly ps z (countFcs s g m) := by
  refine changes_step hw ?_ hk
  clear hk
  unfold countFcs
  try dsimp only
  repeat' first
    | with_reducible exact changesOnly_refl _ _
    | with_reducible apply changes_modLife
    | (show List.contains _ _ = true; decide)

theorem chg_timingError {ps : List Part} {z : State} (s : State) (session : Option Nat) (dev : Int) (hw : within [.eic, .staging, .ports, .lifetime, .log, .free] ps = true) (hk : changesOnly ps z s) :
    changesOnly ps z (timingError s session dev) := by
  refine changes_step hw ?_ hk
  clear hk
  unfold timingError
  try dsimp only
  repeat' first
    | with_reducible exact changesOnly_refl _ _
    | with_reducible apply chg_recordAll
    | with_reducible apply changes_modLife
    | (rw [mk_withRest]; with_reducible apply changes_withRest)
    | (show within _ _ = true; decide)
    | (show List.contains _ _ = true; decide)
    | (show ∀ q, _ → sameModule q _ _; intro p hp; (cases p <;> first | exact Bool.noConfusion (show true = false from hp) | exact trivial | rfl | exact ⟨rfl, rfl⟩ | exact ⟨rfl, rfl, rfl⟩))

theorem chg_setFirst {ps : List Part} {z : State} (s : State) (n : BitVec 10) (hw : within [.eic, .alk, .ports] ps = true) (hk : changesOnly ps z s) :
    changesOnly ps z (setFirst s n) := by
  refine changes_step hw ?_ hk
  clear hk
  unfold setFirst
  try dsimp only
  repeat' first
    | with_reducible exact changesOnly_refl _ _
    | with_reducible apply chg_eicRaiseAll
    | (rw [mk_withRest]; with_reducible apply changes_withRest)
    | (show within _ _ = true; decide)
    | (show ∀ q, _ → sameModule q _ _; intro p hp; (cases p <;> first | exact Bool.noConfusion (show true = false from hp) | exact trivial | rfl | exact ⟨rfl, rfl⟩ | exact ⟨rfl, rfl, rfl⟩))
    | split

theorem chg_enterSilent {ps : List Part} {z : State} (s : State) (hw : within [.alk] ps = true) (hk : changesOnly ps z s) :
    changesOnly ps z (enterSilent s) := by
  refine changes_step hw ?_ hk
  clear hk
  unfold enterSilent
  try dsimp only
  repeat' first
    | with_reducible exact changesOnly_refl _ _
    | (rw [mk_withRest]; with_reducible apply changes_withRest)
    | (show ∀ q, _ → sameModule q _ _; intro p hp; (cases p <;> first | exact Bool.noConfusion (show true = false from hp) | exact trivial | rfl | exact ⟨rfl, rfl⟩ | exact ⟨rfl, rfl, rfl⟩))

theorem chg_corruptSeen {ps : List Part} {z : State} (s : State) (g : Fin 4) (m : Medium) (hw : within [.alk, .lifetime] ps = true) (hk : changesOnly ps z s) :
    changesOnly ps z (corruptSeen s g m) := by
  refine changes_step hw ?_ hk
  clear hk
  unfold corruptSeen
  try dsimp only
  repeat' first
    | with_reducible exact changesOnly_refl _ _
    | with_reducible apply chg_countFcs
    | with_reducible apply chg_enterSilent
    | (show within _ _ = true; decide)
    | split

theorem chg_enterListen {ps : List Part} {z : State} (s : State) (hw : within [.alk] ps = true) (hk : changesOnly ps z s) :
    changesOnly ps z (enterListen s) := by
  refine changes_step hw ?_ hk
  clear hk
  unfold enterListen
  try dsimp only
  repeat' first
    | with_reducible exact changesOnly_refl _ _
    | (rw [mk_withRest]; with_reducible apply changes_withRest)
    | (show ∀ q, _ → sameModule q _ _; intro p hp; (cases p <;> first | exact Bool.noConfusion (show true = false from hp) | exact trivial | rfl | exact ⟨rfl, rfl⟩ | exact ⟨rfl, rfl, rfl⟩))
    | split

theorem chg_lanesSync {ps : List Part} {z : State} (s : State) (hw : within [.laneState, .life, .bist, .free] ps = true) (hk : changesOnly ps z s) :
    changesOnly ps z (lanesSync s) := by
  refine changes_step hw ?_ hk
  clear hk
  unfold lanesSync
  try dsimp only
  repeat' first
    | with_reducible assumption
    | with_reducible exact changesOnly_refl _ _
    | with_reducible apply chg_enterSync
    | with_reducible apply changes_foldS
    | (show within _ _ = true; decide)
    | (with_reducible intro t x hk)
    | split

theorem chg_noteBackup {ps : List Part} {z : State} (s : State) (x : RxFrame) (hw : within [.alk] ps = true) (hk : changesOnly ps z s) :
    changesOnly ps z (noteBackup s x) := by
  refine changes_step hw ?_ hk
  clear hk
  unfold noteBackup
  try dsimp only
  repeat' first
    | with_reducible exact changesOnly_refl _ _
    | (rw [mk_withRest]; with_reducible apply changes_withRest)
    | (show ∀ q, _ → sameModule q _ _; intro p hp; (cases p <;> first | exact Bool.noConfusion (show true = false from hp) | exact trivial | rfl | exact ⟨rfl, rfl⟩ | exact ⟨rfl, rfl, rfl⟩))
    | split

theorem chg_joinSync {ps : List Part} {z : State} (s : State) (x : RxFrame) (hw : within [.clock, .laneState, .life, .bist, .alk, .free] ps = true) (hk : changesOnly ps z s) :
    changesOnly ps z (joinSync s x) := by
  refine changes_step hw ?_ hk
  clear hk
  unfold joinSync
  try dsimp only
  repeat' first
    | with_reducible exact changesOnly_refl _ _
    | with_reducible apply chg_lanesSync
    | with_reducible apply chg_noteBackup
    | (rw [mk_withRest]; with_reducible apply changes_withRest)
    | (show within _ _ = true; decide)
    | (show ∀ q, _ → sameModule q _ _; intro p hp; (cases p <;> first | exact Bool.noConfusion (show true = false from hp) | exact trivial | rfl | exact ⟨rfl, rfl⟩ | exact ⟨rfl, rfl, rfl⟩))
    | split

theorem chg_takeSync {ps : List Part} {z : State} (s : State) (x : RxFrame) (e : Int) (hw : within [.eic, .alk, .ports] ps = true) (hk : changesOnly ps z s) :
    changesOnly ps z (takeSync s x e) := by
  refine changes_step hw ?_ hk
  clear hk
  unfold takeSync
  try dsimp only
  repeat' first
    | with_reducible exact changesOnly_refl _ _
    | with_reducible apply chg_eicLevelAll
    | with_reducible apply chg_setFirst
    | (rw [mk_withRest]; with_reducible apply changes_withRest)
    | (show within _ _ = true; decide)
    | (show ∀ q, _ → sameModule q _ _; intro p hp; (cases p <;> first | exact Bool.noConfusion (show true = false from hp) | exact trivial | rfl | exact ⟨rfl, rfl⟩ | exact ⟨rfl, rfl, rfl⟩))
    | split

theorem chg_markSegment {ps : List Part} {z : State} (s : State) (g : Fin 4) (hw : within [.alk] ps = true) (hk : changesOnly ps z s) :
    changesOnly ps z (markSegment s g) := by
  refine changes_step hw ?_ hk
  clear hk
  unfold markSegment
  try dsimp only
  repeat' first
    | with_reducible exact changesOnly_refl _ _
    | (rw [mk_withRest]; with_reducible apply changes_withRest)
    | (show ∀ q, _ → sameModule q _ _; intro p hp; (cases p <;> first | exact Bool.noConfusion (show true = false from hp) | exact trivial | rfl | exact ⟨rfl, rfl⟩ | exact ⟨rfl, rfl, rfl⟩))
    | split

theorem chg_acceptSync {ps : List Part} {z : State} (s : State) (x : RxFrame) (e : Int) (hw : within [.eic, .alk, .ports] ps = true) (hk : changesOnly ps z s) :
    changesOnly ps z (acceptSync s x e) := by
  refine changes_step hw ?_ hk
  clear hk
  unfold acceptSync
  try dsimp only
  repeat' first
    | with_reducible exact changesOnly_refl _ _
    | with_reducible apply chg_takeSync
    | with_reducible apply chg_markSegment
    | (show within _ _ = true; decide)
    | (show ∀ q, _ → sameModule q _ _; intro p hp; (cases p <;> first | exact Bool.noConfusion (show true = false from hp) | exact trivial | rfl | exact ⟨rfl, rfl⟩ | exact ⟨rfl, rfl, rfl⟩))
    | (rw [mk_withRest]; with_reducible apply changes_withRest)
    | split

theorem chg_judgeSync {ps : List Part} {z : State} (s : State) (x : RxFrame) (hw : within [.eic, .staging, .alk, .ports, .lifetime, .log, .free] ps = true) (hk : changesOnly ps z s) :
    changesOnly ps z (judgeSync s x) := by
  refine changes_step hw ?_ hk
  clear hk
  unfold judgeSync
  try dsimp only
  repeat' first
    | with_reducible exact changesOnly_refl _ _
    | with_reducible apply chg_timingError
    | with_reducible apply chg_noteBackup
    | with_reducible apply chg_acceptSync
    | (show within _ _ = true; decide)
    | (show ∀ q, _ → sameModule q _ _; intro p hp; (cases p <;> first | exact Bool.noConfusion (show true = false from hp) | exact trivial | rfl | exact ⟨rfl, rfl⟩ | exact ⟨rfl, rfl, rfl⟩))
    | split

theorem chg_portSees {ps : List Part} {z : State} (s : State) (x : RxFrame) (slot : Nat) (hw : within [.alk] ps = true) (hk : changesOnly ps z s) :
    changesOnly ps z (portSees s x slot) := by
  refine changes_step hw ?_ hk
  clear hk
  unfold portSees
  try dsimp only
  repeat' first
    | with_reducible exact changesOnly_refl _ _
    | (rw [mk_withRest]; with_reducible apply changes_withRest)
    | (show ∀ q, _ → sameModule q _ _; intro p hp; (cases p <;> first | exact Bool.noConfusion (show true = false from hp) | exact trivial | rfl | exact ⟨rfl, rfl⟩ | exact ⟨rfl, rfl, rfl⟩))
    | split

theorem chg_execSync {ps : List Part} {z : State} (rx : RxFrame) (s : State) (q0 : State) (hw : within [.clock, .laneState, .life, .eic, .staging, .bist, .alk, .ports, .lifetime, .log, .free] ps = true) (hk : changesOnly ps z s) :
    changesOnly ps z (thenState q0 (execSync rx s)) := by
  refine changes_step hw ?_ hk
  clear hk
  unfold execSync
  dsimp only [thenState]
  repeat' first
    | with_reducible exact changesOnly_refl _ _
    | with_reducible apply chg_portSees
    | with_reducible apply chg_corruptSeen
    | with_reducible apply chg_joinSync
    | with_reducible apply chg_acceptSync
    | with_reducible apply chg_judgeSync
    | (show within _ _ = true; decide)
    | (show ∀ q, _ → sameModule q _ _; intro p hp; (cases p <;> first | exact Bool.noConfusion (show true = false from hp) | exact trivial | rfl | exact ⟨rfl, rfl⟩ | exact ⟨rfl, rfl, rfl⟩))
    | split

theorem chg_execLeftSync {ps : List Part} {z : State} (s : State) (q0 : State) (hw : within [.eic, .staging, .alk, .ports, .log, .free] ps = true) (hk : changesOnly ps z s) :
    changesOnly ps z (thenState q0 (execLeftSync s)) := by
  refine changes_step hw ?_ hk
  clear hk
  unfold execLeftSync
  dsimp only [thenState]
  repeat' first
    | with_reducible exact changesOnly_refl _ _
    | with_reducible apply chg_setFirst
    | with_reducible apply chg_enterListen
    | with_reducible apply chg_eventAll
    | (rw [mk_withRest]; with_reducible apply changes_withRest)
    | (show within _ _ = true; decide)
    | (show ∀ q, _ → sameModule q _ _; intro p hp; (cases p <;> first | exact Bool.noConfusion (show true = false from hp) | exact trivial | rfl | exact ⟨rfl, rfl⟩ | exact ⟨rfl, rfl, rfl⟩))
    | split

theorem chg_sendBackup {ps : List Part} {z : State} (s : State) (g : Fin 4) (m : Medium) (error : Int) (hw : within [.alk] ps = true) (hk : changesOnly ps z s) :
    changesOnly ps z (sendBackup s g m error) := by
  refine changes_step hw ?_ hk
  clear hk
  unfold sendBackup
  try dsimp only
  repeat' first
    | with_reducible exact changesOnly_refl _ _
    | with_reducible apply chg_sendOn
    | with_reducible apply chg_sendPlain
    | (show within _ _ = true; decide)
    | (show ∀ q, _ → sameModule q _ _; intro p hp; (cases p <;> first | exact Bool.noConfusion (show true = false from hp) | exact trivial | rfl | exact ⟨rfl, rfl⟩ | exact ⟨rfl, rfl, rfl⟩))
    | split

theorem chg_execBackupSync {ps : List Part} {z : State} (x : BackupSend) (s : State) (q0 : State) (hw : within [.eic, .alk, .ports] ps = true) (hk : changesOnly ps z s) :
    changesOnly ps z (thenState q0 (execBackupSync x s)) := by
  refine changes_step hw ?_ hk
  clear hk
  unfold execBackupSync
  dsimp only [thenState]
  repeat' first
    | with_reducible exact changesOnly_refl _ _
    | with_reducible apply chg_guardBlocks
    | with_reducible apply chg_setFirst
    | with_reducible apply chg_sendBackup
    | (rw [mk_withRest]; with_reducible apply changes_withRest)
    | (show within _ _ = true; decide)
    | (show ∀ q, _ → sameModule q _ _; intro p hp; (cases p <;> first | exact Bool.noConfusion (show true = false from hp) | exact trivial | rfl | exact ⟨rfl, rfl⟩ | exact ⟨rfl, rfl, rfl⟩))
    | split

theorem chg_execListenTimeout {ps : List Part} {z : State} (now : Time) (s : State) (q0 : State) (hw : within [.alk] ps = true) (hk : changesOnly ps z s) :
    changesOnly ps z (thenState q0 (execListenTimeout now s)) := by
  refine changes_step hw ?_ hk
  clear hk
  unfold execListenTimeout
  dsimp only [thenState]
  repeat' first
    | with_reducible exact changesOnly_refl _ _
    | with_reducible apply chg_sendAll
    | (rw [mk_withRest]; with_reducible apply changes_withRest)
    | (show within _ _ = true; decide)
    | (show ∀ q, _ → sameModule q _ _; intro p hp; (cases p <;> first | exact Bool.noConfusion (show true = false from hp) | exact trivial | rfl | exact ⟨rfl, rfl⟩ | exact ⟨rfl, rfl, rfl⟩))
    | split

theorem chg_execColdStart {ps : List Part} {z : State} (rx : RxFrame) (s : State) (q0 : State) (hw : within [.alk, .lifetime] ps = true) (hk : changesOnly ps z s) :
    changesOnly ps z (thenState q0 (execColdStart rx s)) := by
  refine changes_step hw ?_ hk
  clear hk
  unfold execColdStart
  dsimp only [thenState]
  repeat' first
    | with_reducible exact changesOnly_refl _ _
    | with_reducible apply chg_portSees
    | with_reducible apply chg_enterSilent
    | with_reducible apply chg_corruptSeen
    | (rw [mk_withRest]; with_reducible apply changes_withRest)
    | (show within _ _ = true; decide)
    | (show ∀ q, _ → sameModule q _ _; intro p hp; (cases p <;> first | exact Bool.noConfusion (show true = false from hp) | exact trivial | rfl | exact ⟨rfl, rfl⟩ | exact ⟨rfl, rfl, rfl⟩))
    | split

theorem chg_execSilentTimeout {ps : List Part} {z : State} (s : State) (q0 : State) (hw : within [.alk] ps = true) (hk : changesOnly ps z s) :
    changesOnly ps z (thenState q0 (execSilentTimeout s)) := by
  refine changes_step hw ?_ hk
  clear hk
  unfold execSilentTimeout
  dsimp only [thenState]
  repeat' first
    | with_reducible exact changesOnly_refl _ _
    | with_reducible apply chg_enterListen
    | (show within _ _ = true; decide)
    | split

theorem chg_firstSync {ps : List Part} {z : State} (s : State) (hw : within [.alk] ps = true) (hk : changesOnly ps z s) :
    changesOnly ps z (firstSync s) := by
  refine changes_step hw ?_ hk
  clear hk
  unfold firstSync
  try dsimp only
  repeat' first
    | with_reducible assumption
    | with_reducible exact changesOnly_refl _ _
    | with_reducible apply chg_sendSync
    | with_reducible apply chg_sendBackup
    | with_reducible apply changes_foldS
    | (rw [mk_withRest]; with_reducible apply changes_withRest)
    | (show within _ _ = true; decide)
    | (show ∀ q, _ → sameModule q _ _; intro p hp; (cases p <;> first | exact Bool.noConfusion (show true = false from hp) | exact trivial | rfl | exact ⟨rfl, rfl⟩ | exact ⟨rfl, rfl, rfl⟩))
    | (with_reducible intro t x hk)
    | (with_reducible intro t hk)
    | split

theorem chg_execColdStartT0 {ps : List Part} {z : State} (s : State) (q0 : State) (hw : within [.clock, .laneState, .life, .eic, .bist, .alk, .ports, .free] ps = true) (hk : changesOnly ps z s) :
    changesOnly ps z (thenState q0 (execColdStartT0 s)) := by
  refine changes_step hw ?_ hk
  clear hk
  unfold execColdStartT0
  dsimp only [thenState]
  repeat' first
    | with_reducible exact changesOnly_refl _ _
    | with_reducible apply chg_setFirst
    | with_reducible apply chg_lanesSync
    | with_reducible apply chg_firstSync
    | (rw [mk_withRest]; with_reducible apply changes_withRest)
    | (show within _ _ = true; decide)
    | (show ∀ q, _ → sameModule q _ _; intro p hp; (cases p <;> first | exact Bool.noConfusion (show true = false from hp) | exact trivial | rfl | exact ⟨rfl, rfl⟩ | exact ⟨rfl, rfl, rfl⟩))
    | split

theorem chg_execCorruptFrame {ps : List Part} {z : State} (seg : Fin 4) (medium : Medium) (s : State) (q0 : State) (hw : within [.alk, .lifetime] ps = true) (hk : changesOnly ps z s) :
    changesOnly ps z (thenState q0 (execCorruptFrame seg medium s)) := by
  refine changes_step hw ?_ hk
  clear hk
  unfold execCorruptFrame
  dsimp only [thenState]
  repeat' first
    | with_reducible exact changesOnly_refl _ _
    | with_reducible apply chg_corruptSeen
    | (show within _ _ = true; decide)
    | split

theorem chg_execDelayReq {ps : List Part} {z : State} (rx : RxFrame) (s : State) (q0 : State) (hw : within [.alk, .lifetime] ps = true) (hk : changesOnly ps z s) :
    changesOnly ps z (thenState q0 (execDelayReq rx s)) := by
  refine changes_step hw ?_ hk
  clear hk
  unfold execDelayReq
  dsimp only [thenState]
  repeat' first
    | with_reducible exact changesOnly_refl _ _
    | with_reducible apply chg_corruptSeen
    | with_reducible apply chg_modDelay
    | (rw [mk_withRest]; with_reducible apply changes_withRest)
    | (show within _ _ = true; decide)
    | (show ∀ q, _ → sameModule q _ _; intro p hp; (cases p <;> first | exact Bool.noConfusion (show true = false from hp) | exact trivial | rfl | exact ⟨rfl, rfl⟩ | exact ⟨rfl, rfl, rfl⟩))
    | split

theorem chg_takeDelayResp {ps : List Part} {z : State} (s : State) (rx : RxFrame) (hw : within [.link, .alk, .lifetime, .free] ps = true) (hk : changesOnly ps z s) :
    changesOnly ps z (takeDelayResp s rx) := by
  refine changes_step hw ?_ hk
  clear hk
  unfold takeDelayResp
  try dsimp only
  repeat' first
    | with_reducible exact changesOnly_refl _ _
    | with_reducible apply chg_corruptSeen
    | with_reducible apply chg_modDelay
    | (rw [mk_withRest]; with_reducible apply changes_withRest)
    | (show within _ _ = true; decide)
    | (show ∀ q, _ → sameModule q _ _; intro p hp; (cases p <;> first | exact Bool.noConfusion (show true = false from hp) | exact trivial | rfl | exact ⟨rfl, rfl⟩ | exact ⟨rfl, rfl, rfl⟩))
    | split

theorem chg_execDelayResp {ps : List Part} {z : State} (port : PortAt) (arrival : Time) (frame : Frame) (s : State) (q0 : State)
    (hw : within [.link, .alk, .lifetime, .free] ps = true) (hk : changesOnly ps z s) :
    changesOnly ps z (thenState q0 (execDelayResp port arrival frame s)) := by
  unfold execDelayResp
  exact chg_takeDelayResp _ _ hw hk

theorem chg_applyDelay {ps : List Part} {z : State} (s : State) (i : Nat) (sd : Side) (hw : within [.eic, .alk, .ports] ps = true) (hk : changesOnly ps z s) :
    changesOnly ps z (applyDelay s i sd) := by
  refine changes_step hw ?_ hk
  clear hk
  unfold applyDelay
  try dsimp only
  repeat' first
    | with_reducible exact changesOnly_refl _ _
    | with_reducible apply chg_eicRaiseAll
    | (rw [mk_withRest]; with_reducible apply changes_withRest)
    | (show within _ _ = true; decide)
    | (show ∀ q, _ → sameModule q _ _; intro p hp; (cases p <;> first | exact Bool.noConfusion (show true = false from hp) | exact trivial | rfl | exact ⟨rfl, rfl⟩ | exact ⟨rfl, rfl, rfl⟩))
    | split

theorem chg_lossTick {ps : List Part} {z : State} (s : State) (hw : within [.alk] ps = true) (hk : changesOnly ps z s) :
    changesOnly ps z (lossTick s) := by
  refine changes_step hw ?_ hk
  clear hk
  unfold lossTick
  try dsimp only
  repeat' first
    | with_reducible exact changesOnly_refl _ _
    | (rw [mk_withRest]; with_reducible apply changes_withRest)
    | (show ∀ q, _ → sameModule q _ _; intro p hp; (cases p <;> first | exact Bool.noConfusion (show true = false from hp) | exact trivial | rfl | exact ⟨rfl, rfl⟩ | exact ⟨rfl, rfl, rfl⟩))
    | split

theorem chg_exchangeTick {ps : List Part} {z : State} (s : State) (i : Nat) (sd : Side) (hw : within [.alk] ps = true) (hk : changesOnly ps z s) :
    changesOnly ps z (exchangeTick s i sd) := by
  refine changes_step hw ?_ hk
  clear hk
  unfold exchangeTick
  try dsimp only
  repeat' first
    | with_reducible exact changesOnly_refl _ _
    | (rw [mk_withRest]; with_reducible apply changes_withRest)
    | (show ∀ q, _ → sameModule q _ _; intro p hp; (cases p <;> first | exact Bool.noConfusion (show true = false from hp) | exact trivial | rfl | exact ⟨rfl, rfl⟩ | exact ⟨rfl, rfl, rfl⟩))
    | split

theorem chg_alkTick {ps : List Part} {z : State} (s : State) (hw : within [.eic, .alk, .ports] ps = true) (hk : changesOnly ps z s) :
    changesOnly ps z (alkTick s) := by
  refine changes_step hw ?_ hk
  clear hk
  unfold alkTick
  try dsimp only
  repeat' first
    | with_reducible assumption
    | with_reducible exact changesOnly_refl _ _
    | with_reducible apply chg_applyDelay
    | with_reducible apply chg_exchangeTick
    | with_reducible apply chg_lossTick
    | with_reducible apply changes_foldS
    | (rw [mk_withRest]; with_reducible apply changes_withRest)
    | (show within _ _ = true; decide)
    | (show ∀ q, _ → sameModule q _ _; intro p hp; (cases p <;> first | exact Bool.noConfusion (show true = false from hp) | exact trivial | rfl | exact ⟨rfl, rfl⟩ | exact ⟨rfl, rfl, rfl⟩))
    | (with_reducible intro t x hk)
    | (with_reducible intro t hk)
    | split

theorem chg_alkKeep {ps : List Part} {z : State} (s : State) (hw : within [.alk] ps = true) (hk : changesOnly ps z s) :
    changesOnly ps z (alkKeep s) := by
  refine changes_step hw ?_ hk
  clear hk
  unfold alkKeep
  try dsimp only
  repeat' first
    | with_reducible exact changesOnly_refl _ _
    | (rw [mk_withRest]; with_reducible apply changes_withRest)
    | (show ∀ q, _ → sameModule q _ _; intro p hp; (cases p <;> first | exact Bool.noConfusion (show true = false from hp) | exact trivial | rfl | exact ⟨rfl, rfl⟩ | exact ⟨rfl, rfl, rfl⟩))

theorem chg_modSess {ps : List Part} {z : State} (s : State) (l : Lane) (i : Nat) (f : Session → Session) (hw : within [.sessions] ps = true) (hk : changesOnly ps z s) :
    changesOnly ps z (modSess s l i f) := by
  refine changes_step hw ?_ hk
  clear hk
  unfold modSess
  try dsimp only
  repeat' first
    | with_reducible exact changesOnly_refl _ _
    | with_reducible apply changes_modLane
    | (show laneOnly _ _ _; intro p hp; (cases p <;> first | exact Bool.noConfusion (show true = false from hp) | exact trivial | rfl | exact ⟨rfl, rfl⟩ | exact ⟨rfl, rfl, rfl⟩))

theorem chg_dropSession {ps : List Part} {z : State} (s : State) (l : Lane) (i m : Nat) (hw : within [.sessions, .eic, .staging, .ports, .log] ps = true) (hk : changesOnly ps z s) :
    changesOnly ps z (dropSession s l i m) := by
  refine changes_step hw ?_ hk
  clear hk
  unfold dropSession
  try dsimp only
  repeat' first
    | with_reducible exact changesOnly_refl _ _
    | with_reducible apply chg_modSess
    | with_reducible apply chg_eventRef
    | (show within _ _ = true; decide)

theorem chg_recordRef {ps : List Part} {z : State} (s : State) (l : Lane) (code : Nat) (payload : List Byte) (hw : within [.eic, .staging, .ports, .log] ps = true) (hk : changesOnly ps z s) :
    changesOnly ps z (recordRef s l code payload) := by
  refine changes_step hw ?_ hk
  clear hk
  unfold recordRef
  try dsimp only
  repeat' first
    | with_reducible exact changesOnly_refl _ _
    | with_reducible apply chg_recordAll
    | (show within _ _ = true; decide)
    | split

theorem chg_admitFirst {ps : List Part} {z : State} (s : State) (l : Lane) (i : Nat) (hw : within [.sessions, .eic, .staging, .ports, .log] ps = true) (hk : changesOnly ps z s) :
    changesOnly ps z (admitFirst s l i) := by
  refine changes_step hw ?_ hk
  clear hk
  unfold admitFirst
  try dsimp only
  repeat' first
    | with_reducible exact changesOnly_refl _ _
    | with_reducible apply chg_modSess
    | with_reducible apply chg_recordRef
    | (rw [mk_withRest]; with_reducible apply changes_withRest)
    | (show within _ _ = true; decide)
    | (show ∀ q, _ → sameModule q _ _; intro p hp; (cases p <;> first | exact Bool.noConfusion (show true = false from hp) | exact trivial | rfl | exact ⟨rfl, rfl⟩ | exact ⟨rfl, rfl, rfl⟩))
    | split

theorem chg_readmit {ps : List Part} {z : State} (s : State) (l : Lane) (i : Nat) (hw : within [.sessions, .eic, .staging, .ports, .log] ps = true) (hk : changesOnly ps z s) :
    changesOnly ps z (readmit s l i) := by
  refine changes_step hw ?_ hk
  clear hk
  unfold readmit
  try dsimp only
  repeat' first
    | with_reducible exact changesOnly_refl _ _
    | with_reducible apply chg_modSess
    | with_reducible apply chg_recordRef
    | (rw [mk_withRest]; with_reducible apply changes_withRest)
    | (show within _ _ = true; decide)
    | (show ∀ q, _ → sameModule q _ _; intro p hp; (cases p <;> first | exact Bool.noConfusion (show true = false from hp) | exact trivial | rfl | exact ⟨rfl, rfl⟩ | exact ⟨rfl, rfl, rfl⟩))
    | split

theorem chg_countTiming {ps : List Part} {z : State} (s : State) (l : Lane) (i : Nat) (dev : Int) (hw : within [.sessions, .eic, .staging, .ports, .lifetime, .log, .free] ps = true) (hk : changesOnly ps z s) :
    changesOnly ps z (countTiming s l i dev) := by
  refine changes_step hw ?_ hk
  clear hk
  unfold countTiming
  try dsimp only
  repeat' first
    | with_reducible exact changesOnly_refl _ _
    | with_reducible apply chg_modSess
    | with_reducible apply chg_timingError
    | (show within _ _ = true; decide)
    | split

theorem chg_countCode {ps : List Part} {z : State} (s : State) (l : Lane) (i : Nat) (hw : within [.sessions] ps = true) (hk : changesOnly ps z s) :
    changesOnly ps z (countCode s l i) := by
  refine changes_step hw ?_ hk
  clear hk
  unfold countCode
  try dsimp only
  repeat' first
    | with_reducible exact changesOnly_refl _ _
    | with_reducible apply chg_modSess
    | (show within _ _ = true; decide)

theorem chg_countSeq {ps : List Part} {z : State} (s : State) (l : Lane) (i : Nat) (hw : within [.sessions] ps = true) (hk : changesOnly ps z s) :
    changesOnly ps z (countSeq s l i) := by
  refine changes_step hw ?_ hk
  clear hk
  unfold countSeq
  try dsimp only
  repeat' first
    | with_reducible exact changesOnly_refl _ _
    | with_reducible apply chg_modSess
    | (show within _ _ = true; decide)

theorem chg_takeOpen {ps : List Part} {z : State} (s : State) (l : Lane) (i : Nat) (c : StationCfg) (f : Frame) (hw : within [.sessions, .eic, .staging, .ports, .log] ps = true) (hk : changesOnly ps z s) :
    changesOnly ps z (takeOpen s l i c f) := by
  refine changes_step hw ?_ hk
  clear hk
  unfold takeOpen
  try dsimp only
  repeat' first
    | with_reducible exact changesOnly_refl _ _
    | with_reducible apply chg_modSess
    | with_reducible apply chg_admitFirst
    | with_reducible apply chg_countCode
    | (rw [mk_withRest]; with_reducible apply changes_withRest)
    | (show within _ _ = true; decide)
    | (show ∀ q, _ → sameModule q _ _; intro p hp; (cases p <;> first | exact Bool.noConfusion (show true = false from hp) | exact trivial | rfl | exact ⟨rfl, rfl⟩ | exact ⟨rfl, rfl, rfl⟩))
    | split

theorem chg_takeIn {ps : List Part} {z : State} (s : State) (l : Lane) (i : Nat) (c : StationCfg) (f : Frame) (hw : within [.sessions] ps = true) (hk : changesOnly ps z s) :
    changesOnly ps z (takeIn s l i c f) := by
  refine changes_step hw ?_ hk
  clear hk
  unfold takeIn
  try dsimp only
  repeat' first
    | with_reducible exact changesOnly_refl _ _
    | with_reducible apply chg_countSeq
    | with_reducible apply chg_modSess
    | (show within _ _ = true; decide)
    | split

theorem chg_judgeStation {ps : List Part} {z : State} (s : State) (l : Lane) (i : Nat) (c : StationCfg) (rx : RxFrame) (hw : within [.sessions, .eic, .staging, .ports, .lifetime, .log, .free] ps = true) (hk : changesOnly ps z s) :
    changesOnly ps z (judgeStation s l i c rx) := by
  refine changes_step hw ?_ hk
  clear hk
  unfold judgeStation
  try dsimp only
  repeat' first
    | with_reducible exact changesOnly_refl _ _
    | with_reducible apply chg_countTiming
    | with_reducible apply chg_countCode
    | with_reducible apply chg_countSeq
    | with_reducible apply chg_takeOpen
    | with_reducible apply chg_takeIn
    | (show within _ _ = true; decide)
    | (show ∀ q, _ → sameModule q _ _; intro p hp; (cases p <;> first | exact Bool.noConfusion (show true = false from hp) | exact trivial | rfl | exact ⟨rfl, rfl⟩ | exact ⟨rfl, rfl, rfl⟩))
    | split

theorem chg_badCopy {ps : List Part} {z : State} (s : State) (l : Lane) (rx : RxFrame) (hw : within [.alk, .lifetime] ps = true) (hk : changesOnly ps z s) :
    changesOnly ps z (badCopy s l rx) := by
  unfold badCopy
  split
  · exact chg_corruptSeen _ _ _ hw hk
  · exact hk

theorem chg_sessionSees {ps : List Part} {z : State} (s : State) (l : Lane) (rx : RxFrame) (i : Nat) (hw : within [.alk] ps = true) (hk : changesOnly ps z s) :
    changesOnly ps z (sessionSees s l rx i) := by
  refine changes_step hw ?_ hk
  clear hk
  unfold sessionSees
  try dsimp only
  repeat' first
    | with_reducible exact changesOnly_refl _ _
    | with_reducible apply chg_portSees
    | (show within _ _ = true; decide)
    | (show ∀ q, _ → sameModule q _ _; intro p hp; (cases p <;> first | exact Bool.noConfusion (show true = false from hp) | exact trivial | rfl | exact ⟨rfl, rfl⟩ | exact ⟨rfl, rfl, rfl⟩))
    | split

theorem chg_execStationIn {ps : List Part} {z : State} (l : Lane) (station : Fin 512) (rx : RxFrame) (s : State) (q0 : State) (hw : within [.sessions, .eic, .staging, .alk, .ports, .lifetime, .log, .free] ps = true) (hk : changesOnly ps z s) :
    changesOnly ps z (thenState q0 (execStationIn l station rx s)) := by
  refine changes_step hw ?_ hk
  clear hk
  unfold execStationIn
  dsimp only [thenState]
  repeat' first
    | with_reducible exact changesOnly_refl _ _
    | with_reducible apply chg_judgeStation
    | with_reducible apply chg_badCopy
    | with_reducible apply chg_sessionSees
    | (show within _ _ = true; decide)
    | (show ∀ q, _ → sameModule q _ _; intro p hp; (cases p <;> first | exact Bool.noConfusion (show true = false from hp) | exact trivial | rfl | exact ⟨rfl, rfl⟩ | exact ⟨rfl, rfl, rfl⟩))
    | split

theorem chg_stationInputs {ps : List Part} {z : LaneState} (L : LaneState) (i : Nat) (c : StationCfg) (hw : within [.press] ps = true) (hk : laneOnly ps z L) :
    laneOnly ps z (stationInputs L i c) := by
  refine laneOnly_step hw ?_ hk
  clear hk
  unfold stationInputs
  try dsimp only
  repeat' first
    | (show laneOnly _ _ _; intro p hp; (cases p <;> first | exact Bool.noConfusion (show true = false from hp) | exact trivial | rfl | exact ⟨rfl, rfl⟩ | exact ⟨rfl, rfl, rfl⟩))

theorem chg_peerInputs {ps : List Part} {z : LaneState} (L : LaneState) (q : Nat) (c : PeerCfg) (hw : within [.press] ps = true) (hk : laneOnly ps z L) :
    laneOnly ps z (peerInputs L q c) := by
  refine laneOnly_step hw ?_ hk
  clear hk
  unfold peerInputs
  try dsimp only
  repeat' first
    | with_reducible exact laneOnly_refl _ _
    | (show laneOnly _ _ _; intro p hp; (cases p <;> first | exact Bool.noConfusion (show true = false from hp) | exact trivial | rfl | exact ⟨rfl, rfl⟩ | exact ⟨rfl, rfl, rfl⟩))
    | (show laneOnly _ _ _; intro p hp; ((repeat' split) <;> cases p <;> first | exact Bool.noConfusion (show true = false from hp) | exact trivial | rfl | exact ⟨rfl, rfl⟩ | exact ⟨rfl, rfl, rfl⟩))
    | split

theorem chg_missStation {ps : List Part} {z : State} (s : State) (l : Lane) (i : Nat) (c : StationCfg) (hw : within [.sessions, .eic, .staging, .ports, .log] ps = true) (hk : changesOnly ps z s) :
    changesOnly ps z (missStation s l i c) := by
  refine changes_step hw ?_ hk
  clear hk
  unfold missStation
  try dsimp only
  repeat' first
    | with_reducible exact changesOnly_refl _ _
    | with_reducible apply chg_dropSession
    | with_reducible apply chg_modSess
    | (show within _ _ = true; decide)
    | split

theorem chg_execStationDropped {ps : List Part} {z : State} (l : Lane) (station : Fin 512) (s : State) (q0 : State) (hw : within [.press, .sessions, .eic, .staging, .ports, .log] ps = true) (hk : changesOnly ps z s) :
    changesOnly ps z (thenState q0 (execStationDropped l station s)) := by
  refine changes_step hw ?_ hk
  clear hk
  unfold execStationDropped
  dsimp only [thenState]
  repeat' first
    | with_reducible exact changesOnly_refl _ _
    | with_reducible apply chg_dropSession
    | (show within _ _ = true; decide)
    | (show ∀ q, _ → sameModule q _ _; intro p hp; (cases p <;> first | exact Bool.noConfusion (show true = false from hp) | exact trivial | rfl | exact ⟨rfl, rfl⟩ | exact ⟨rfl, rfl, rfl⟩))
    | with_reducible apply changes_modLane
    | with_reducible apply laneOnly_refl
    | split

theorem chg_takePeer {ps : List Part} {z : State} (s : State) (l : Lane) (i : Nat) (f : Frame) (hw : within [.sessions, .eic, .staging, .ports, .log] ps = true) (hk : changesOnly ps z s) :
    changesOnly ps z (takePeer s l i f) := by
  refine changes_step hw ?_ hk
  clear hk
  unfold takePeer
  try dsimp only
  repeat' first
    | with_reducible exact changesOnly_refl _ _
    | with_reducible apply chg_modSess
    | with_reducible apply chg_admitFirst
    | (rw [mk_withRest]; with_reducible apply changes_withRest)
    | (show within _ _ = true; decide)
    | (show ∀ q, _ → sameModule q _ _; intro p hp; (cases p <;> first | exact Bool.noConfusion (show true = false from hp) | exact trivial | rfl | exact ⟨rfl, rfl⟩ | exact ⟨rfl, rfl, rfl⟩))
    | split

theorem chg_judgePeer {ps : List Part} {z : State} (s : State) (l : Lane) (q : Nat) (c : PeerCfg) (rx : RxFrame) (hw : within [.sessions, .eic, .staging, .ports, .lifetime, .log, .free] ps = true) (hk : changesOnly ps z s) :
    changesOnly ps z (judgePeer s l q c rx) := by
  refine changes_step hw ?_ hk
  clear hk
  unfold judgePeer
  try dsimp only
  repeat' first
    | with_reducible exact changesOnly_refl _ _
    | with_reducible apply chg_countTiming
    | with_reducible apply chg_countCode
    | with_reducible apply chg_countSeq
    | with_reducible apply chg_takePeer
    | (show within _ _ = true; decide)
    | (show ∀ q, _ → sameModule q _ _; intro p hp; (cases p <;> first | exact Bool.noConfusion (show true = false from hp) | exact trivial | rfl | exact ⟨rfl, rfl⟩ | exact ⟨rfl, rfl, rfl⟩))
    | split

theorem chg_execPeer {ps : List Part} {z : State} (l : Lane) (q : Fin 64) (rx : RxFrame) (s : State) (q0 : State) (hw : within [.sessions, .eic, .staging, .alk, .ports, .lifetime, .log, .free] ps = true) (hk : changesOnly ps z s) :
    changesOnly ps z (thenState q0 (execPeer l q rx s)) := by
  refine changes_step hw ?_ hk
  clear hk
  unfold execPeer
  dsimp only [thenState]
  repeat' first
    | with_reducible exact changesOnly_refl _ _
    | with_reducible apply chg_badCopy
    | with_reducible apply chg_sessionSees
    | with_reducible apply chg_judgePeer
    | (show within _ _ = true; decide)
    | (show ∀ q, _ → sameModule q _ _; intro p hp; (cases p <;> first | exact Bool.noConfusion (show true = false from hp) | exact trivial | rfl | exact ⟨rfl, rfl⟩ | exact ⟨rfl, rfl, rfl⟩))
    | split

theorem chg_missPeer {ps : List Part} {z : State} (s : State) (l : Lane) (q : Nat) (c : PeerCfg) (hw : within [.sessions, .eic, .staging, .ports, .log] ps = true) (hk : changesOnly ps z s) :
    changesOnly ps z (missPeer s l q c) := by
  refine changes_step hw ?_ hk
  clear hk
  unfold missPeer
  try dsimp only
  repeat' first
    | with_reducible exact changesOnly_refl _ _
    | with_reducible apply chg_dropSession
    | with_reducible apply chg_modSess
    | (show within _ _ = true; decide)
    | split

theorem chg_execPeerTimeout {ps : List Part} {z : State} (l : Lane) (q : Fin 64) (s : State) (q0 : State) (hw : within [.press, .sessions, .eic, .staging, .ports, .log] ps = true) (hk : changesOnly ps z s) :
    changesOnly ps z (thenState q0 (execPeerTimeout l q s)) := by
  refine changes_step hw ?_ hk
  clear hk
  unfold execPeerTimeout
  dsimp only [thenState]
  repeat' first
    | with_reducible exact changesOnly_refl _ _
    | with_reducible apply chg_dropSession
    | (show within _ _ = true; decide)
    | (show ∀ q, _ → sameModule q _ _; intro p hp; (cases p <;> first | exact Bool.noConfusion (show true = false from hp) | exact trivial | rfl | exact ⟨rfl, rfl⟩ | exact ⟨rfl, rfl, rfl⟩))
    | with_reducible apply changes_modLane
    | with_reducible apply laneOnly_refl
    | split

theorem chg_closeSessions {ps : List Part} {z : State} (v : Vintage) (s : State) (l : Lane) (hw : within [.press, .sessions, .eic, .staging, .ports, .log] ps = true)
    (hk : changesOnly ps z s) : changesOnly ps z (closeSessions v s l) := by
  refine changes_step hw (?_ : changesOnly [.press, .sessions, .eic, .staging, .ports, .log] s (closeSessions v s l)) hk
  have hk := changesOnly_refl [.press, .sessions, .eic, .staging, .ports, .log] s
  unfold closeSessions
  refine changes_modLane _ _ ?_ ?_
  · exact laneOnly_fold _ _ (fun _ _ h => chg_peerInputs _ _ _ rfl h) (laneOnly_fold _ _ (fun _ _ h => chg_stationInputs _ _ _ rfl h) (laneOnly_refl _ _))
  · exact changes_foldS _ _ (fun _ _ h => chg_missPeer _ _ _ _ rfl h) (changes_foldS _ _ (fun _ _ h => chg_missStation _ _ _ _ rfl h) hk)

theorem chg_sessionsTick {ps : List Part} {z : LaneState} (L : LaneState) (hw : within [.sessions] ps = true) (hk : laneOnly ps z L) :
    laneOnly ps z (sessionsTick L) := by
  refine laneOnly_step hw ?_ hk
  clear hk
  unfold sessionsTick
  try dsimp only
  repeat' first
    | (show laneOnly _ _ _; intro p hp; (cases p <;> first | exact Bool.noConfusion (show true = false from hp) | exact trivial | rfl | exact ⟨rfl, rfl⟩ | exact ⟨rfl, rfl, rfl⟩))

theorem chg_admitMarkers {ps : List Part} {z : State} (v : Vintage) (s : State) (l : Lane) (hw : within [.sessions, .eic, .staging, .ports, .log] ps = true) (hk : changesOnly ps z s) :
    changesOnly ps z (admitMarkers v s l) := by
  refine changes_step hw ?_ hk
  clear hk
  unfold admitMarkers
  try dsimp only
  repeat' first
    | with_reducible assumption
    | with_reducible exact changesOnly_refl _ _
    | with_reducible apply chg_readmit
    | with_reducible apply changes_foldS
    | (show within _ _ = true; decide)
    | (with_reducible intro t x hk)
    | split

theorem chg_clearSession {ps : List Part} {z : State} (s : State) (l : Lane) (i : Nat) (hw : within [.sessions] ps = true) (hk : changesOnly ps z s) :
    changesOnly ps z (clearSession s l i) := by
  refine changes_step hw ?_ hk
  clear hk
  unfold clearSession
  try dsimp only
  repeat' first
    | with_reducible exact changesOnly_refl _ _
    | with_reducible apply chg_modSess
    | (show within _ _ = true; decide)

theorem chg_execSessionClear {ps : List Part} {z : State} (session : Fin 576) (auth : Auth) (s : State) (q0 : State) (hw : within [.sessions, .eic, .staging, .ports, .lifetime, .log] ps = true) (hk : changesOnly ps z s) :
    changesOnly ps z (thenState q0 (execSessionClear session auth s)) := by
  refine changes_step hw ?_ hk
  clear hk
  unfold execSessionClear
  dsimp only [thenState]
  repeat' first
    | with_reducible assumption
    | with_reducible exact changesOnly_refl _ _
    | with_reducible apply chg_harnal
    | with_reducible apply chg_clearSession
    | with_reducible apply changes_foldS
    | (show within _ _ = true; decide)
    | (with_reducible intro t x hk)
    | (with_reducible intro t hk)
    | split

theorem chg_execMediumWithdrawn {ps : List Part} {z : State} (seg : Fin 4) (medium : Medium) (lockLost : Bool) (s : State) (q0 : State) (hw : within [.eic, .staging, .alk, .ports, .lifetime, .log] ps = true) (hk : changesOnly ps z s) :
    changesOnly ps z (thenState q0 (execMediumWithdrawn seg medium lockLost s)) := by
  refine changes_step hw ?_ hk
  clear hk
  unfold execMediumWithdrawn
  dsimp only [thenState]
  repeat' first
    | with_reducible exact changesOnly_refl _ _
    | with_reducible apply chg_eventAll
    | with_reducible apply chg_modMedium
    | with_reducible apply changes_modPages
    | (rw [mk_withRest]; with_reducible apply changes_withRest)
    | (show within _ _ = true; decide)
    | (show List.contains _ _ = true; decide)
    | (show ∀ q, _ → sameModule q _ _; intro p hp; (cases p <;> first | exact Bool.noConfusion (show true = false from hp) | exact trivial | rfl | exact ⟨rfl, rfl⟩ | exact ⟨rfl, rfl, rfl⟩))
    | with_reducible apply changes_modLife
    | split

theorem chg_execMediumReturned {ps : List Part} {z : State} (seg : Fin 4) (medium : Medium) (s : State) (q0 : State) (hw : within [.eic, .staging, .alk, .ports, .log] ps = true) (hk : changesOnly ps z s) :
    changesOnly ps z (thenState q0 (execMediumReturned seg medium s)) := by
  refine changes_step hw ?_ hk
  clear hk
  unfold execMediumReturned
  dsimp only [thenState]
  repeat' first
    | with_reducible exact changesOnly_refl _ _
    | with_reducible apply chg_recordAll
    | with_reducible apply chg_modMedium
    | (rw [mk_withRest]; with_reducible apply changes_withRest)
    | (show within _ _ = true; decide)
    | (show ∀ q, _ → sameModule q _ _; intro p hp; (cases p <;> first | exact Bool.noConfusion (show true = false from hp) | exact trivial | rfl | exact ⟨rfl, rfl⟩ | exact ⟨rfl, rfl, rfl⟩))
    | split

theorem chg_execMediumClear {ps : List Part} {z : State} (seg : Fin 4) (medium : Medium) (auth : Auth) (s : State) (q0 : State) (hw : within [.eic, .staging, .alk, .ports, .lifetime, .log] ps = true) (hk : changesOnly ps z s) :
    changesOnly ps z (thenState q0 (execMediumClear seg medium auth s)) := by
  refine changes_step hw ?_ hk
  clear hk
  unfold execMediumClear
  dsimp only [thenState]
  repeat' first
    | with_reducible assumption
    | with_reducible exact changesOnly_refl _ _
    | with_reducible apply chg_harnal
    | with_reducible apply chg_modMedium
    | with_reducible apply changes_modPages
    | (rw [mk_withRest]; with_reducible apply changes_withRest)
    | (show within _ _ = true; decide)
    | (show List.contains _ _ = true; decide)
    | (show ∀ q, _ → sameModule q _ _; intro p hp; (cases p <;> first | exact Bool.noConfusion (show true = false from hp) | exact trivial | rfl | exact ⟨rfl, rfl⟩ | exact ⟨rfl, rfl, rfl⟩))
    | with_reducible apply changes_modLife
    | (with_reducible intro t hk)
    | (with_reducible intro t x hk)
    | split

theorem chg_execLos {ps : List Part} {z : State} (seg : Fin 4) (medium : Medium) (port : Fin 2) (high : Bool) (s : State) (q0 : State) (hw : within [.alk] ps = true) (hk : changesOnly ps z s) :
    changesOnly ps z (thenState q0 (execLos seg medium port high s)) := by
  refine changes_step hw ?_ hk
  clear hk
  unfold execLos
  dsimp only [thenState]
  repeat' first
    | with_reducible exact changesOnly_refl _ _
    | with_reducible apply chg_modMedium
    | (rw [mk_withRest]; with_reducible apply changes_withRest)
    | (show within _ _ = true; decide)
    | (show ∀ q, _ → sameModule q _ _; intro p hp; (cases p <;> first | exact Bool.noConfusion (show true = false from hp) | exact trivial | rfl | exact ⟨rfl, rfl⟩ | exact ⟨rfl, rfl, rfl⟩))
    | split

end Sys2Proof.Laws
end

