-- ==== Sys2Proof/Laws/ChangesField.lean ====
section
/-!
SUPPORT. The parts of the state that every operation of the field dies may change (Safety.changesOnly), one lemma for each operation
and for each command.
-/

namespace Sys2Proof.Laws

open Sys2Proof.Machine Sys2Proof.Safety

theorem chg_modField {ps : List Part} {z : State} (s : State) (f : Field → Field) (hw : within [.field] ps = true) (hk : changesOnly ps z s) :
    changesOnly ps z (modField s f) := by
  refine changes_step hw ?_ hk
  clear hk
  unfold modField
  try dsimp only
  repeat' first
    | with_reducible exact changesOnly_refl _ _
    | (rw [mk_withRest]; with_reducible apply changes_withRest)
    | (show ∀ q, _ → sameModule q _ _; intro p hp; (cases p <;> first | exact Bool.noConfusion (show true = false from hp) | exact trivial | rfl | exact ⟨rfl, rfl⟩ | exact ⟨rfl, rfl, rfl⟩))

theorem chg_fieldEvent {ps : List Part} {z : State} (s : State) (src code a b v : Nat) (hw : within [.eic, .staging, .ports, .log] ps = true) (hk : changesOnly ps z s) :
    changesOnly ps z (fieldEvent s src code a b v) := by
  refine changes_step hw ?_ hk
  clear hk
  unfold fieldEvent
  try dsimp only
  repeat' first
    | with_reducible exact changesOnly_refl _ _
    | with_reducible apply chg_eventAll
    | (show within _ _ = true; decide)

theorem chg_latchFault {ps : List Part} {z : State} (s : State) (c : FieldFaultCause) (hw : within [.eic, .staging, .field, .ports, .lifetime, .log] ps = true) (hk : changesOnly ps z s) :
    changesOnly ps z (latchFault s c) := by
  refine changes_step hw ?_ hk
  clear hk
  unfold latchFault
  try dsimp only
  repeat' first
    | with_reducible exact changesOnly_refl _ _
    | with_reducible apply chg_modField
    | with_reducible apply chg_fieldEvent
    | with_reducible apply changes_modPages
    | (rw [mk_withRest]; with_reducible apply changes_withRest)
    | (show within _ _ = true; decide)
    | (show List.contains _ _ = true; decide)
    | (show ∀ q, _ → sameModule q _ _; intro p hp; (cases p <;> first | exact Bool.noConfusion (show true = false from hp) | exact trivial | rfl | exact ⟨rfl, rfl⟩ | exact ⟨rfl, rfl, rfl⟩))
    | with_reducible apply changes_modLife
    | split

theorem chg_retakeCounts {ps : List Part} {z : State} (s : State) (hw : within [.fieldIn] ps = true) (hk : changesOnly ps z s) :
    changesOnly ps z (retakeCounts s) := by
  refine changes_step hw ?_ hk
  clear hk
  unfold retakeCounts
  try dsimp only
  repeat' first
    | with_reducible exact changesOnly_refl _ _
    | with_reducible apply changes_modLanes
    | (rw [mk_withRest]; with_reducible apply changes_withRest)
    | (intro l; show laneOnly _ _ _; intro p hp; ((repeat' split) <;> cases p <;> first | exact Bool.noConfusion (show true = false from hp) | exact trivial | rfl | exact ⟨rfl, rfl⟩ | exact ⟨rfl, rfl, rfl⟩))
    | (show ∀ q, _ → sameModule q _ _; intro p hp; (cases p <;> first | exact Bool.noConfusion (show true = false from hp) | exact trivial | rfl | exact ⟨rfl, rfl⟩ | exact ⟨rfl, rfl, rfl⟩))
    | split

theorem chg_crossingLoss {ps : List Part} {z : State} (s : State) (hw : within [.fieldIn, .eic, .staging, .field, .ports, .lifetime, .log] ps = true) (hk : changesOnly ps z s) :
    changesOnly ps z (crossingLoss s) := by
  refine changes_step hw ?_ hk
  clear hk
  unfold crossingLoss
  try dsimp only
  repeat' first
    | with_reducible exact changesOnly_refl _ _
    | with_reducible apply chg_modField
    | with_reducible apply chg_fieldEvent
    | with_reducible apply chg_latchFault
    | with_reducible apply chg_retakeCounts
    | with_reducible apply changes_modPages
    | (rw [mk_withRest]; with_reducible apply changes_withRest)
    | (show within _ _ = true; decide)
    | (show List.contains _ _ = true; decide)
    | (show ∀ q, _ → sameModule q _ _; intro p hp; (cases p <;> first | exact Bool.noConfusion (show true = false from hp) | exact trivial | rfl | exact ⟨rfl, rfl⟩ | exact ⟨rfl, rfl, rfl⟩))
    | with_reducible apply changes_modLife
    | split

theorem chg_execCrossingRefresh {ps : List Part} {z : State} (m : FieldReadings) (s : State) (q0 : State) (hw : within [.clock, .fieldIn, .eic, .staging, .field, .ports, .lifetime, .log] ps = true) (hk : changesOnly ps z s) :
    changesOnly ps z (thenState q0 (execCrossingRefresh m s)) := by
  refine changes_step hw ?_ hk
  clear hk
  unfold execCrossingRefresh
  dsimp only [thenState]
  repeat' first
    | with_reducible exact changesOnly_refl _ _
    | with_reducible apply chg_crossingLoss
    | with_reducible apply changes_modLanes
    | (rw [mk_withRest]; with_reducible apply changes_withRest)
    | (show within _ _ = true; decide)
    | (intro l; show laneOnly _ _ _; intro p hp; ((repeat' split) <;> cases p <;> first | exact Bool.noConfusion (show true = false from hp) | exact trivial | rfl | exact ⟨rfl, rfl⟩ | exact ⟨rfl, rfl, rfl⟩))
    | (show ∀ q, _ → sameModule q _ _; intro p hp; (cases p <;> first | exact Bool.noConfusion (show true = false from hp) | exact trivial | rfl | exact ⟨rfl, rfl⟩ | exact ⟨rfl, rfl, rfl⟩))
    | split

theorem chg_applyConfig {ps : List Part} {z : State} (s : State) (hw : within [.field] ps = true) (hk : changesOnly ps z s) :
    changesOnly ps z (applyConfig s) := by
  refine changes_step hw ?_ hk
  clear hk
  unfold applyConfig
  try dsimp only
  repeat' first
    | with_reducible exact changesOnly_refl _ _
    | (rw [mk_withRest]; with_reducible apply changes_withRest)
    | (show ∀ q, _ → sameModule q _ _; intro p hp; (cases p <;> first | exact Bool.noConfusion (show true = false from hp) | exact trivial | rfl | exact ⟨rfl, rfl⟩ | exact ⟨rfl, rfl, rfl⟩))
    | split

theorem chg_execDownstreamRefresh {ps : List Part} {z : State} (l : Lane) (err : BitVec 512) (stampNs : Int) (s : State) (q0 : State) (hw : within [.fieldIn, .eic, .staging, .field, .ports, .lifetime, .log] ps = true) (hk : changesOnly ps z s) :
    changesOnly ps z (thenState q0 (execDownstreamRefresh l err stampNs s)) := by
  refine changes_step hw ?_ hk
  clear hk
  unfold execDownstreamRefresh
  dsimp only [thenState]
  repeat' first
    | with_reducible exact changesOnly_refl _ _
    | with_reducible apply chg_applyConfig
    | with_reducible apply chg_crossingLoss
    | (rw [mk_withRest]; with_reducible apply changes_withRest)
    | (show within _ _ = true; decide)
    | (show ∀ q, _ → sameModule q _ _; intro p hp; (cases p <;> first | exact Bool.noConfusion (show true = false from hp) | exact trivial | rfl | exact ⟨rfl, rfl⟩ | exact ⟨rfl, rfl, rfl⟩))
    | split

theorem chg_execFieldTick {ps : List Part} {z : State} (s : State) (q0 : State) (hw : within [.field] ps = true)
    (hk : changesOnly ps z s) : changesOnly ps z (thenState q0 (execFieldTick s)) := by
  unfold execFieldTick
  dsimp -zeta only [thenState]
  extract_lets
  split
  · refine changes_step hw (changes_module (s := s) rfl (fun p hp => ?_) (changesOnly_refl _ _)) hk
    cases p <;> first | (cases hp; done) | exact trivial | rfl
  · exact hk

theorem chg_stuckOpenCheck {ps : List Part} {z : State} (s : State) (l : Lane) (read : PerLane Word) (hw : within [.fieldIn, .eic, .staging, .field, .ports, .lifetime, .log] ps = true) (hk : changesOnly ps z s) :
    changesOnly ps z (stuckOpenCheck s l read) := by
  refine changes_step hw ?_ hk
  clear hk
  unfold stuckOpenCheck
  try dsimp only
  repeat' first
    | with_reducible assumption
    | with_reducible exact changesOnly_refl _ _
    | with_reducible apply chg_stuckOpen
    | with_reducible apply chg_retireOut
    | with_reducible apply changes_modLane
    | with_reducible apply changes_foldS
    | (show within _ _ = true; decide)
    | (show laneOnly _ _ _; intro p hp; (cases p <;> first | exact Bool.noConfusion (show true = false from hp) | exact trivial | rfl | exact ⟨rfl, rfl⟩ | exact ⟨rfl, rfl, rfl⟩))
    | (with_reducible intro t x hk)
    | split

theorem chg_countSwitchOns {ps : List Part} {z : State} (s : State) (l : Lane) (t : TickSample) (hw : within [.lifetime] ps = true) (hk : changesOnly ps z s) :
    changesOnly ps z (countSwitchOns s l t) := by
  refine changes_step hw ?_ hk
  clear hk
  unfold countSwitchOns
  try dsimp only
  repeat' first
    | with_reducible assumption
    | with_reducible exact changesOnly_refl _ _
    | with_reducible apply changes_foldS
    | with_reducible apply changes_modLife
    | (rw [mk_withRest]; with_reducible apply changes_withRest)
    | (show List.contains _ _ = true; decide)
    | (show ∀ q, _ → sameModule q _ _; intro p hp; (cases p <;> first | exact Bool.noConfusion (show true = false from hp) | exact trivial | rfl | exact ⟨rfl, rfl⟩ | exact ⟨rfl, rfl, rfl⟩))
    | (with_reducible intro t x hk)
    | (with_reducible intro t hk)
    | split

theorem chg_warnLevel {ps : List Part} {z : State} (s : State) (l : Lane) (k : Nat) (old new : BitVec 16) (hw : within [.eic, .staging, .ports, .log] ps = true) (hk : changesOnly ps z s) :
    changesOnly ps z (warnLevel s l k old new) := by
  refine changes_step hw ?_ hk
  clear hk
  unfold warnLevel
  try dsimp only
  repeat' first
    | with_reducible exact changesOnly_refl _ _
    | with_reducible apply chg_eicLevel
    | with_reducible apply chg_recordOne
    | (show within _ _ = true; decide)
    | (show ∀ q, _ → sameModule q _ _; intro p hp; (cases p <;> first | exact Bool.noConfusion (show true = false from hp) | exact trivial | rfl | exact ⟨rfl, rfl⟩ | exact ⟨rfl, rfl, rfl⟩))
    | split

theorem chg_takeSample {ps : List Part} {z : State} (s : State) (l : Lane) (u : UpFrame) (hw : within [.fieldIn, .lifetime] ps = true) (hk : changesOnly ps z s) :
    changesOnly ps z (takeSample s l u) := by
  refine changes_step hw ?_ hk
  clear hk
  unfold takeSample
  try dsimp only
  repeat' first
    | with_reducible exact changesOnly_refl _ _
    | with_reducible apply chg_countSwitchOns
    | with_reducible apply changes_modLane
    | (show within _ _ = true; decide)
    | (show laneOnly _ _ _; intro p hp; (cases p <;> first | exact Bool.noConfusion (show true = false from hp) | exact trivial | rfl | exact ⟨rfl, rfl⟩ | exact ⟨rfl, rfl, rfl⟩))
    | split

theorem chg_acceptUp {ps : List Part} {z : State} (s : State) (l : Lane) (u : UpFrame) (hw : within [.fieldIn, .eic, .staging, .field, .ports, .lifetime, .log] ps = true) (hk : changesOnly ps z s) :
    changesOnly ps z (acceptUp s l u) := by
  refine changes_step hw ?_ hk
  clear hk
  unfold acceptUp
  try dsimp only
  repeat' first
    | with_reducible exact changesOnly_refl _ _
    | with_reducible apply chg_warnLevel
    | with_reducible apply chg_stuckOpenCheck
    | with_reducible apply chg_takeSample
    | with_reducible apply changes_modLane
    | (show within _ _ = true; decide)
    | (show laneOnly _ _ _; intro p hp; (cases p <;> first | exact Bool.noConfusion (show true = false from hp) | exact trivial | rfl | exact ⟨rfl, rfl⟩ | exact ⟨rfl, rfl, rfl⟩))

theorem chg_execUpstreamRefresh {ps : List Part} {z : State} (l : Lane) (err : BitVec 1024) (s : State) (q0 : State) (hw : within [.fieldIn, .eic, .staging, .field, .ports, .lifetime, .log] ps = true) (hk : changesOnly ps z s) :
    changesOnly ps z (thenState q0 (execUpstreamRefresh l err s)) := by
  refine changes_step hw ?_ hk
  clear hk
  unfold execUpstreamRefresh
  dsimp only [thenState]
  repeat' first
    | with_reducible exact changesOnly_refl _ _
    | with_reducible apply chg_acceptUp
    | with_reducible apply changes_modLane
    | (rw [mk_withRest]; with_reducible apply changes_withRest)
    | (show within _ _ = true; decide)
    | (show laneOnly _ _ _; intro p hp; (cases p <;> first | exact Bool.noConfusion (show true = false from hp) | exact trivial | rfl | exact ⟨rfl, rfl⟩ | exact ⟨rfl, rfl, rfl⟩))
    | (show laneOnly _ _ _; intro p hp; ((repeat' split) <;> cases p <;> first | exact Bool.noConfusion (show true = false from hp) | exact trivial | rfl | exact ⟨rfl, rfl⟩ | exact ⟨rfl, rfl, rfl⟩))
    | (show ∀ q, _ → sameModule q _ _; intro p hp; (cases p <;> first | exact Bool.noConfusion (show true = false from hp) | exact trivial | rfl | exact ⟨rfl, rfl⟩ | exact ⟨rfl, rfl, rfl⟩))
    | split

theorem chg_execFieldStreamLost {ps : List Part} {z : State} (l : Lane) (s : State) (q0 : State) (hw : within [.fieldIn, .eic, .staging, .field, .ports, .lifetime, .log] ps = true) (hk : changesOnly ps z s) :
    changesOnly ps z (thenState q0 (execFieldStreamLost l s)) := by
  refine changes_step hw ?_ hk
  clear hk
  unfold execFieldStreamLost
  dsimp only [thenState]
  repeat' first
    | with_reducible exact changesOnly_refl _ _
    | with_reducible apply chg_crossingLoss
    | with_reducible apply chg_fieldEvent
    | (rw [mk_withRest]; with_reducible apply changes_withRest)
    | (show within _ _ = true; decide)
    | (show ∀ q, _ → sameModule q _ _; intro p hp; (cases p <;> first | exact Bool.noConfusion (show true = false from hp) | exact trivial | rfl | exact ⟨rfl, rfl⟩ | exact ⟨rfl, rfl, rfl⟩))
    | split

theorem chg_execLocalLost {ps : List Part} {z : State} (l : Lane) (s : State) (q0 : State) (hw : within [.fieldIn] ps = true) (hk : changesOnly ps z s) :
    changesOnly ps z (thenState q0 (execLocalLost l s)) := by
  refine changes_step hw ?_ hk
  clear hk
  unfold execLocalLost
  dsimp only [thenState]
  repeat' first
    | with_reducible exact changesOnly_refl _ _
    | with_reducible apply changes_modLane
    | (show laneOnly _ _ _; intro p hp; (cases p <;> first | exact Bool.noConfusion (show true = false from hp) | exact trivial | rfl | exact ⟨rfl, rfl⟩ | exact ⟨rfl, rfl, rfl⟩))
    | split

theorem chg_execLocalRecovered {ps : List Part} {z : State} (l : Lane) (s : State) (q0 : State) (hw : within [.fieldIn] ps = true) (hk : changesOnly ps z s) :
    changesOnly ps z (thenState q0 (execLocalRecovered l s)) := by
  refine changes_step hw ?_ hk
  clear hk
  unfold execLocalRecovered
  dsimp only [thenState]
  repeat' first
    | with_reducible exact changesOnly_refl _ _
    | with_reducible apply changes_modLane
    | (show laneOnly _ _ _; intro p hp; (cases p <;> first | exact Bool.noConfusion (show true = false from hp) | exact trivial | rfl | exact ⟨rfl, rfl⟩ | exact ⟨rfl, rfl, rfl⟩))
    | split

theorem chg_execCrossingRecovered {ps : List Part} {z : State} (s : State) (q0 : State) (hw : within [.field] ps = true) (hk : changesOnly ps z s) :
    changesOnly ps z (thenState q0 (execCrossingRecovered s)) := by
  refine changes_step hw ?_ hk
  clear hk
  unfold execCrossingRecovered
  dsimp only [thenState]
  repeat' first
    | with_reducible exact changesOnly_refl _ _
    | with_reducible apply chg_modField
    | (show within _ _ = true; decide)
    | split

theorem chg_execModuleStop {ps : List Part} {z : State} (s : State) (q0 : State) (hw : within [.field] ps = true) (hk : changesOnly ps z s) :
    changesOnly ps z (thenState q0 (execModuleStop s)) := by
  refine changes_step hw ?_ hk
  clear hk
  unfold execModuleStop
  dsimp only [thenState]
  repeat' first
    | with_reducible exact changesOnly_refl _ _
    | with_reducible apply chg_modField
    | (rw [mk_withRest]; with_reducible apply changes_withRest)
    | (show within _ _ = true; decide)
    | (show ∀ q, _ → sameModule q _ _; intro p hp; (cases p <;> first | exact Bool.noConfusion (show true = false from hp) | exact trivial | rfl | exact ⟨rfl, rfl⟩ | exact ⟨rfl, rfl, rfl⟩))
    | split

theorem chg_execFieldFault {ps : List Part} {z : State} (cause : FieldFaultCause) (s : State) (q0 : State) (hw : within [.eic, .staging, .field, .ports, .lifetime, .log] ps = true) (hk : changesOnly ps z s) :
    changesOnly ps z (thenState q0 (execFieldFault cause s)) := by
  refine changes_step hw ?_ hk
  clear hk
  unfold execFieldFault
  dsimp only [thenState]
  repeat' first
    | with_reducible exact changesOnly_refl _ _
    | with_reducible apply chg_latchFault
    | (show within _ _ = true; decide)
    | split

theorem chg_execFieldFaultClear {ps : List Part} {z : State} (auth : Auth) (s : State) (q0 : State) (hw : within [.eic, .staging, .field, .ports, .lifetime, .log] ps = true) (hk : changesOnly ps z s) :
    changesOnly ps z (thenState q0 (execFieldFaultClear auth s)) := by
  refine changes_step hw ?_ hk
  clear hk
  unfold execFieldFaultClear
  dsimp only [thenState]
  repeat' first
    | with_reducible assumption
    | with_reducible exact changesOnly_refl _ _
    | with_reducible apply chg_harnal
    | with_reducible apply chg_modField
    | with_reducible apply changes_modPages
    | (rw [mk_withRest]; with_reducible apply changes_withRest)
    | (show within _ _ = true; decide)
    | (show List.contains _ _ = true; decide)
    | (show ∀ q, _ → sameModule q _ _; intro p hp; (cases p <;> first | exact Bool.noConfusion (show true = false from hp) | exact trivial | rfl | exact ⟨rfl, rfl⟩ | exact ⟨rfl, rfl, rfl⟩))
    | with_reducible apply changes_modLife
    | (with_reducible intro t hk)
    | (with_reducible intro t x hk)
    | split

theorem chg_dropInFlight {ps : List Part} {z : State} (s : State) (hw : within [.fieldIn] ps = true) (hk : changesOnly ps z s) :
    changesOnly ps z (dropInFlight s) := by
  refine changes_step hw ?_ hk
  clear hk
  unfold dropInFlight
  try dsimp only
  repeat' first
    | with_reducible exact changesOnly_refl _ _
    | with_reducible apply changes_modLanes
    | (rw [mk_withRest]; with_reducible apply changes_withRest)
    | (intro l; show laneOnly _ _ _; intro p hp; ((repeat' split) <;> cases p <;> first | exact Bool.noConfusion (show true = false from hp) | exact trivial | rfl | exact ⟨rfl, rfl⟩ | exact ⟨rfl, rfl, rfl⟩))
    | (show ∀ q, _ → sameModule q _ _; intro p hp; (cases p <;> first | exact Bool.noConfusion (show true = false from hp) | exact trivial | rfl | exact ⟨rfl, rfl⟩ | exact ⟨rfl, rfl, rfl⟩))
    | split

theorem chg_execFieldDieStop {ps : List Part} {z : State} (s : State) (q0 : State) (hw : within [.fieldIn, .field] ps = true) (hk : changesOnly ps z s) :
    changesOnly ps z (thenState q0 (execFieldDieStop s)) := by
  refine changes_step hw ?_ hk
  clear hk
  unfold execFieldDieStop
  dsimp only [thenState]
  repeat' first
    | with_reducible exact changesOnly_refl _ _
    | with_reducible apply chg_dropInFlight
    | with_reducible apply chg_modField
    | with_reducible apply chg_retakeCounts
    | (rw [mk_withRest]; with_reducible apply changes_withRest)
    | (show within _ _ = true; decide)
    | (show ∀ q, _ → sameModule q _ _; intro p hp; (cases p <;> first | exact Bool.noConfusion (show true = false from hp) | exact trivial | rfl | exact ⟨rfl, rfl⟩ | exact ⟨rfl, rfl, rfl⟩))
    | split

theorem chg_execFieldDieStart {ps : List Part} {z : State} (s : State) (q0 : State) (hw : within [.field] ps = true) (hk : changesOnly ps z s) :
    changesOnly ps z (thenState q0 (execFieldDieStart s)) := by
  refine changes_step hw ?_ hk
  clear hk
  unfold execFieldDieStart
  dsimp only [thenState]
  repeat' first
    | with_reducible exact changesOnly_refl _ _
    | with_reducible apply chg_modField
    | (show within _ _ = true; decide)
    | split

theorem chg_sampleInput {ps : List Part} {z : State} (c : LocalCfg) (raw : BitVec 48) (s : State) (n : Nat) (hw : within [.eic, .staging, .field, .ports, .log] ps = true) (hk : changesOnly ps z s) :
    changesOnly ps z (sampleInput c raw s n) := by
  refine changes_step hw ?_ hk
  clear hk
  unfold sampleInput
  try dsimp only
  repeat' first
    | with_reducible exact changesOnly_refl _ _
    | with_reducible apply chg_fieldEvent
    | (rw [mk_withRest]; with_reducible apply changes_withRest)
    | (show within _ _ = true; decide)
    | (show ∀ q, _ → sameModule q _ _; intro p hp; (cases p <;> first | exact Bool.noConfusion (show true = false from hp) | exact trivial | rfl | exact ⟨rfl, rfl⟩ | exact ⟨rfl, rfl, rfl⟩))
    | split

theorem chg_execInputSample {ps : List Part} {z : State} (raw : BitVec 48) (s : State) (q0 : State) (hw : within [.eic, .staging, .field, .ports, .log] ps = true) (hk : changesOnly ps z s) :
    changesOnly ps z (thenState q0 (execInputSample raw s)) := by
  refine changes_step hw ?_ hk
  clear hk
  unfold execInputSample
  dsimp only [thenState]
  repeat' first
    | with_reducible assumption
    | with_reducible exact changesOnly_refl _ _
    | with_reducible apply chg_sampleInput
    | with_reducible apply chg_modField
    | with_reducible apply changes_foldS
    | (show within _ _ = true; decide)
    | (with_reducible intro t x hk)
    | split

theorem chg_execPairFault {ps : List Part} {z : State} (pair : Fin 24) (s : State) (q0 : State) (hw : within [.eic, .staging, .field, .ports, .log] ps = true) (hk : changesOnly ps z s) :
    changesOnly ps z (thenState q0 (execPairFault pair s)) := by
  refine changes_step hw ?_ hk
  clear hk
  unfold execPairFault
  dsimp only [thenState]
  repeat' first
    | with_reducible exact changesOnly_refl _ _
    | with_reducible apply chg_modField
    | with_reducible apply chg_fieldEvent
    | (show within _ _ = true; decide)
    | split

theorem chg_execTestPulse {ps : List Part} {z : State} (source : Fin 8) (lowBelow5 highAbove : Bool) (s : State) (q0 : State) (hw : within [.field] ps = true) (hk : changesOnly ps z s) :
    changesOnly ps z (thenState q0 (execTestPulse source lowBelow5 highAbove s)) := by
  refine changes_step hw ?_ hk
  clear hk
  unfold execTestPulse
  dsimp only [thenState]
  repeat' first
    | with_reducible exact changesOnly_refl _ _
    | with_reducible apply chg_modField
    | (rw [mk_withRest]; with_reducible apply changes_withRest)
    | (show within _ _ = true; decide)
    | (show ∀ q, _ → sameModule q _ _; intro p hp; (cases p <;> first | exact Bool.noConfusion (show true = false from hp) | exact trivial | rfl | exact ⟨rfl, rfl⟩ | exact ⟨rfl, rfl, rfl⟩))
    | split

theorem chg_execTpRecovered {ps : List Part} {z : State} (source : Fin 8) (s : State) (q0 : State) (hw : within [.field] ps = true) (hk : changesOnly ps z s) :
    changesOnly ps z (thenState q0 (execTpRecovered source s)) := by
  refine changes_step hw ?_ hk
  clear hk
  unfold execTpRecovered
  dsimp only [thenState]
  repeat' first
    | with_reducible exact changesOnly_refl _ _
    | with_reducible apply chg_modField
    | (show within _ _ = true; decide)
    | split

theorem chg_execCounterEdge {ps : List Part} {z : State} (c : Fin 4) (rising : Bool) (s : State) (q0 : State) (hw : within [.field] ps = true) (hk : changesOnly ps z s) :
    changesOnly ps z (thenState q0 (execCounterEdge c rising s)) := by
  refine changes_step hw ?_ hk
  clear hk
  unfold execCounterEdge
  dsimp only [thenState]
  repeat' first
    | with_reducible exact changesOnly_refl _ _
    | with_reducible apply chg_modField
    | (show within _ _ = true; decide)
    | split

theorem chg_localInput {ps : List Part} {z : State} (s : State) (l : Lane) (hw : within [.press, .fieldIn] ps = true) (hk : changesOnly ps z s) :
    changesOnly ps z (localInput s l) := by
  refine changes_step hw ?_ hk
  clear hk
  unfold localInput
  try dsimp only
  repeat' first
    | with_reducible exact changesOnly_refl _ _
    | with_reducible apply changes_modLane
    | (rw [mk_withRest]; with_reducible apply changes_withRest)
    | (show laneOnly _ _ _; intro p hp; (cases p <;> first | exact Bool.noConfusion (show true = false from hp) | exact trivial | rfl | exact ⟨rfl, rfl⟩ | exact ⟨rfl, rfl, rfl⟩))
    | (show laneOnly _ _ _; intro p hp; ((repeat' split) <;> cases p <;> first | exact Bool.noConfusion (show true = false from hp) | exact trivial | rfl | exact ⟨rfl, rfl⟩ | exact ⟨rfl, rfl, rfl⟩))
    | (show ∀ q, _ → sameModule q _ _; intro p hp; (cases p <;> first | exact Bool.noConfusion (show true = false from hp) | exact trivial | rfl | exact ⟨rfl, rfl⟩ | exact ⟨rfl, rfl, rfl⟩))
    | split

theorem chg_stuckSeen {ps : List Part} {z : State} (s : State) (hw : within [.field] ps = true) (hk : changesOnly ps z s) :
    changesOnly ps z (stuckSeen s) := by
  refine changes_step hw ?_ hk
  clear hk
  unfold stuckSeen
  try dsimp only
  repeat' first
    | with_reducible exact changesOnly_refl _ _
    | with_reducible apply chg_modField
    | (rw [mk_withRest]; with_reducible apply changes_withRest)
    | (show within _ _ = true; decide)
    | (show ∀ q, _ → sameModule q _ _; intro p hp; (cases p <;> first | exact Bool.noConfusion (show true = false from hp) | exact trivial | rfl | exact ⟨rfl, rfl⟩ | exact ⟨rfl, rfl, rfl⟩))
    | split

theorem chg_fieldChecks {ps : List Part} {z : State} (s : State) (hw : within [.eic, .staging, .field, .ports, .lifetime, .log] ps = true) (hk : changesOnly ps z s) :
    changesOnly ps z (fieldChecks s) := by
  refine changes_step hw ?_ hk
  clear hk
  unfold fieldChecks
  try dsimp only
  repeat' first
    | with_reducible exact changesOnly_refl _ _
    | with_reducible apply chg_latchFault
    | (show within _ _ = true; decide)
    | split

theorem chg_execOffTest {ps : List Part} {z : State} (n : Fin 16) (s : State) (q0 : State) (hw : within [.field] ps = true) (hk : changesOnly ps z s) :
    changesOnly ps z (thenState q0 (execOffTest n s)) := by
  refine changes_step hw ?_ hk
  clear hk
  unfold execOffTest
  dsimp only [thenState]
  repeat' first
    | with_reducible exact changesOnly_refl _ _
    | (rw [mk_withRest]; with_reducible apply changes_withRest)
    | (show ∀ q, _ → sameModule q _ _; intro p hp; (cases p <;> first | exact Bool.noConfusion (show true = false from hp) | exact trivial | rfl | exact ⟨rfl, rfl⟩ | exact ⟨rfl, rfl, rfl⟩))
    | split

theorem chg_crossConnect {ps : List Part} {z : State} (s : State) (a b : Nat) (hw : within [.eic, .staging, .field, .ports, .lifetime, .log] ps = true) (hk : changesOnly ps z s) :
    changesOnly ps z (crossConnect s a b) := by
  refine changes_step hw ?_ hk
  clear hk
  unfold crossConnect
  try dsimp only
  repeat' first
    | with_reducible exact changesOnly_refl _ _
    | with_reducible apply chg_retireOut
    | (show within _ _ = true; decide)

theorem chg_classifyStep {ps : List Part} {z : State} (b : Nat) (fell : BitVec 16) (s : State) (a : Nat) (hw : within [.eic, .staging, .field, .ports, .lifetime, .log] ps = true) (hk : changesOnly ps z s) :
    changesOnly ps z (classifyStep b fell s a) := by
  refine changes_step hw ?_ hk
  clear hk
  unfold classifyStep
  try dsimp only
  repeat' first
    | with_reducible exact changesOnly_refl _ _
    | with_reducible apply chg_crossConnect
    | with_reducible apply chg_retireOut
    | with_reducible apply chg_modOut
    | (show within _ _ = true; decide)
    | split

theorem chg_failedOff {ps : List Part} {z : State} (s : State) (n : Nat) (risen : BitVec 16) (hw : within [.eic, .staging, .field, .ports, .lifetime, .log] ps = true) (hk : changesOnly ps z s) :
    changesOnly ps z (failedOff s n risen) := by
  refine changes_step hw ?_ hk
  clear hk
  unfold failedOff
  try dsimp only
  repeat' first
    | with_reducible exact changesOnly_refl _ _
    | with_reducible apply chg_crossConnect
    | with_reducible apply chg_retireOut
    | (show within _ _ = true; decide)
    | split

theorem chg_execOffTestEnd {ps : List Part} {z : State} (n : Fin 16) (fell risen : BitVec 16) (s : State) (q0 : State) (hw : within [.eic, .staging, .field, .ports, .lifetime, .log] ps = true) (hk : changesOnly ps z s) :
    changesOnly ps z (thenState q0 (execOffTestEnd n fell risen s)) := by
  refine changes_step hw ?_ hk
  clear hk
  unfold execOffTestEnd
  dsimp only [thenState]
  repeat' first
    | with_reducible assumption
    | with_reducible exact changesOnly_refl _ _
    | with_reducible apply chg_modOut
    | with_reducible apply chg_failedOff
    | with_reducible apply chg_classifyStep
    | with_reducible apply chg_modField
    | with_reducible apply changes_foldS
    | (show within _ _ = true; decide)
    | (with_reducible intro t x hk)
    | split

theorem chg_execOnTest {ps : List Part} {z : State} (n : Fin 16) (s : State) (q0 : State) (hw : within [.field] ps = true) (hk : changesOnly ps z s) :
    changesOnly ps z (thenState q0 (execOnTest n s)) := by
  refine changes_step hw ?_ hk
  clear hk
  unfold execOnTest
  dsimp only [thenState]
  repeat' first
    | with_reducible exact changesOnly_refl _ _
    | (rw [mk_withRest]; with_reducible apply changes_withRest)
    | (show ∀ q, _ → sameModule q _ _; intro p hp; (cases p <;> first | exact Bool.noConfusion (show true = false from hp) | exact trivial | rfl | exact ⟨rfl, rfl⟩ | exact ⟨rfl, rfl, rfl⟩))
    | split

theorem chg_execOnTestEnd {ps : List Part} {z : State} (n : Fin 16) (drivenMa returnedMa : Nat) (others : BitVec 16) (s : State) (q0 : State) (hw : within [.eic, .staging, .field, .ports, .lifetime, .log] ps = true) (hk : changesOnly ps z s) :
    changesOnly ps z (thenState q0 (execOnTestEnd n drivenMa returnedMa others s)) := by
  refine changes_step hw ?_ hk
  clear hk
  unfold execOnTestEnd
  dsimp only [thenState]
  repeat' first
    | with_reducible exact changesOnly_refl _ _
    | with_reducible apply chg_modOut
    | with_reducible apply chg_fieldEvent
    | with_reducible apply chg_modField
    | with_reducible apply chg_crossConnect
    | (show within _ _ = true; decide)
    | split

theorem chg_execTerminalHighOff {ps : List Part} {z : State} (n : Fin 16) (s : State) (q0 : State) (hw : within [.eic, .staging, .field, .ports, .lifetime, .log] ps = true) (hk : changesOnly ps z s) :
    changesOnly ps z (thenState q0 (execTerminalHighOff n s)) := by
  refine changes_step hw ?_ hk
  clear hk
  unfold execTerminalHighOff
  dsimp only [thenState]
  repeat' first
    | with_reducible exact changesOnly_refl _ _
    | with_reducible apply chg_modOut
    | with_reducible apply chg_retireOut
    | (rw [mk_withRest]; with_reducible apply changes_withRest)
    | (show within _ _ = true; decide)
    | (show ∀ q, _ → sameModule q _ _; intro p hp; (cases p <;> first | exact Bool.noConfusion (show true = false from hp) | exact trivial | rfl | exact ⟨rfl, rfl⟩ | exact ⟨rfl, rfl, rfl⟩))
    | split

theorem chg_trip {ps : List Part} {z : State} (s : State) (n : Nat) (c : OutFault) (ma : Nat) (hot : Bool) (hw : within [.eic, .staging, .field, .ports, .lifetime, .log] ps = true) (hk : changesOnly ps z s) :
    changesOnly ps z (trip s n c ma hot) := by
  refine changes_step hw ?_ hk
  clear hk
  unfold trip
  try dsimp only
  repeat' first
    | with_reducible exact changesOnly_refl _ _
    | with_reducible apply chg_modField
    | with_reducible apply chg_fieldEvent
    | with_reducible apply chg_retireOut
    | (show within _ _ = true; decide)
    | split

theorem chg_execOverload {ps : List Part} {z : State} (n : Fin 16) (ma : BitVec 10) (s : State) (q0 : State) (hw : within [.eic, .staging, .field, .ports, .lifetime, .log] ps = true) (hk : changesOnly ps z s) :
    changesOnly ps z (thenState q0 (execOverload n ma s)) := by
  refine changes_step hw ?_ hk
  clear hk
  unfold execOverload
  dsimp only [thenState]
  repeat' first
    | with_reducible exact changesOnly_refl _ _
    | with_reducible apply chg_trip
    | (show within _ _ = true; decide)

theorem chg_execShort {ps : List Part} {z : State} (n : Fin 16) (s : State) (q0 : State) (hw : within [.eic, .staging, .field, .ports, .lifetime, .log] ps = true) (hk : changesOnly ps z s) :
    changesOnly ps z (thenState q0 (execShort n s)) := by
  refine changes_step hw ?_ hk
  clear hk
  unfold execShort
  dsimp only [thenState]
  repeat' first
    | with_reducible exact changesOnly_refl _ _
    | with_reducible apply chg_trip
    | (show within _ _ = true; decide)

theorem chg_execOverTemp {ps : List Part} {z : State} (n : Fin 16) (s : State) (q0 : State) (hw : within [.eic, .staging, .field, .ports, .lifetime, .log] ps = true) (hk : changesOnly ps z s) :
    changesOnly ps z (thenState q0 (execOverTemp n s)) := by
  refine changes_step hw ?_ hk
  clear hk
  unfold execOverTemp
  dsimp only [thenState]
  repeat' first
    | with_reducible exact changesOnly_refl _ _
    | with_reducible apply chg_trip
    | (show within _ _ = true; decide)

theorem chg_execOverloadRetry {ps : List Part} {z : State} (n : Fin 16) (junctionBelow135 : Bool) (s : State) (q0 : State) (hw : within [.field] ps = true) (hk : changesOnly ps z s) :
    changesOnly ps z (thenState q0 (execOverloadRetry n junctionBelow135 s)) := by
  refine changes_step hw ?_ hk
  clear hk
  unfold execOverloadRetry
  dsimp only [thenState]
  repeat' first
    | with_reducible exact changesOnly_refl _ _
    | with_reducible apply chg_modField
    | (show within _ _ = true; decide)
    | split

theorem chg_execTripCountReset {ps : List Part} {z : State} (n : Fin 16) (s : State) (q0 : State) (hw : within [.field] ps = true) (hk : changesOnly ps z s) :
    changesOnly ps z (thenState q0 (execTripCountReset n s)) := by
  refine changes_step hw ?_ hk
  clear hk
  unfold execTripCountReset
  dsimp only [thenState]
  repeat' first
    | with_reducible exact changesOnly_refl _ _
    | with_reducible apply chg_modOut
    | (show within _ _ = true; decide)
    | split

theorem chg_execOpenWire {ps : List Part} {z : State} (n : Fin 16) (s : State) (q0 : State) (hw : within [.eic, .staging, .field, .ports, .log] ps = true) (hk : changesOnly ps z s) :
    changesOnly ps z (thenState q0 (execOpenWire n s)) := by
  refine changes_step hw ?_ hk
  clear hk
  unfold execOpenWire
  dsimp only [thenState]
  repeat' first
    | with_reducible exact changesOnly_refl _ _
    | with_reducible apply chg_modOut
    | with_reducible apply chg_fieldEvent
    | (show within _ _ = true; decide)
    | split

theorem chg_execLoadOkReturn {ps : List Part} {z : State} (n : Fin 16) (s : State) (q0 : State) (hw : within [.field] ps = true) (hk : changesOnly ps z s) :
    changesOnly ps z (thenState q0 (execLoadOkReturn n s)) := by
  refine changes_step hw ?_ hk
  clear hk
  unfold execLoadOkReturn
  dsimp only [thenState]
  repeat' first
    | with_reducible exact changesOnly_refl _ _
    | with_reducible apply chg_modOut
    | (show within _ _ = true; decide)
    | split

theorem chg_execOutputRetireClear {ps : List Part} {z : State} (n : Fin 16) (auth : Auth) (s : State) (q0 : State) (hw : within [.eic, .staging, .field, .ports, .lifetime, .log] ps = true) (hk : changesOnly ps z s) :
    changesOnly ps z (thenState q0 (execOutputRetireClear n auth s)) := by
  refine changes_step hw ?_ hk
  clear hk
  unfold execOutputRetireClear
  dsimp only [thenState]
  repeat' first
    | with_reducible assumption
    | with_reducible exact changesOnly_refl _ _
    | with_reducible apply chg_harnal
    | with_reducible apply chg_modOut
    | with_reducible apply changes_modPages
    | (rw [mk_withRest]; with_reducible apply changes_withRest)
    | (show within _ _ = true; decide)
    | (show List.contains _ _ = true; decide)
    | (show ∀ q, _ → sameModule q _ _; intro p hp; (cases p <;> first | exact Bool.noConfusion (show true = false from hp) | exact trivial | rfl | exact ⟨rfl, rfl⟩ | exact ⟨rfl, rfl, rfl⟩))
    | with_reducible apply changes_modLife
    | (with_reducible intro t hk)
    | (with_reducible intro t x hk)
    | split

theorem chg_execVfMeasure {ps : List Part} {z : State} (vf1 vf2 : BitVec 16) (s : State) (q0 : State) (hw : within [.field] ps = true) (hk : changesOnly ps z s) :
    changesOnly ps z (thenState q0 (execVfMeasure vf1 vf2 s)) := by
  refine changes_step hw ?_ hk
  clear hk
  unfold execVfMeasure
  dsimp only [thenState]
  repeat' first
    | with_reducible exact changesOnly_refl _ _
    | with_reducible apply chg_modField
    | (show within _ _ = true; decide)
    | split

theorem chg_execVfLatch {ps : List Part} {z : State} (group2 : Bool) (s : State) (q0 : State) (hw : within [.eic, .staging, .field, .ports, .log] ps = true) (hk : changesOnly ps z s) :
    changesOnly ps z (thenState q0 (execVfLatch group2 s)) := by
  refine changes_step hw ?_ hk
  clear hk
  unfold execVfLatch
  dsimp only [thenState]
  repeat' first
    | with_reducible exact changesOnly_refl _ _
    | with_reducible apply chg_modField
    | with_reducible apply chg_fieldEvent
    | (rw [mk_withRest]; with_reducible apply changes_withRest)
    | (show within _ _ = true; decide)
    | (show ∀ q, _ → sameModule q _ _; intro p hp; (cases p <;> first | exact Bool.noConfusion (show true = false from hp) | exact trivial | rfl | exact ⟨rfl, rfl⟩ | exact ⟨rfl, rfl, rfl⟩))
    | split

theorem chg_execVfRecovered {ps : List Part} {z : State} (group2 : Bool) (s : State) (q0 : State) (hw : within [.field] ps = true) (hk : changesOnly ps z s) :
    changesOnly ps z (thenState q0 (execVfRecovered group2 s)) := by
  refine changes_step hw ?_ hk
  clear hk
  unfold execVfRecovered
  dsimp only [thenState]
  repeat' first
    | with_reducible exact changesOnly_refl _ _
    | with_reducible apply chg_modField
    | (show within _ _ = true; decide)
    | split

end Sys2Proof.Laws
end

