-- ==== Sys2Proof/Laws/ChangesTwin.lean ====
section
/-!
SUPPORT. The parts of the state that every operation of the pair, staging and racking may change (Safety.changesOnly), one lemma for each operation
and for each command.
-/

namespace Sys2Proof.Laws

open Sys2Proof.Machine Sys2Proof.Safety

theorem chg_modTwin {ps : List Part} {z : State} (s : State) (f : Twin → Twin) (hw : within [.twin] ps = true) (hk : changesOnly ps z s) :
    changesOnly ps z (modTwin s f) := by
  refine changes_step hw ?_ hk
  clear hk
  unfold modTwin
  try dsimp only
  repeat' first
    | with_reducible exact changesOnly_refl _ _
    | (rw [mk_withRest]; with_reducible apply changes_withRest)
    | (show ∀ q, _ → sameModule q _ _; intro p hp; (cases p <;> first | exact Bool.noConfusion (show true = false from hp) | exact trivial | rfl | exact ⟨rfl, rfl⟩ | exact ⟨rfl, rfl, rfl⟩))

theorem chg_setEpoch {ps : List Part} {z : State} (s : State) (e : BitVec 16) (hw : within [.twin, .lifetime, .log] ps = true) (hk : changesOnly ps z s) :
    changesOnly ps z (setEpoch s e) := by
  refine changes_step hw ?_ hk
  clear hk
  unfold setEpoch
  try dsimp only
  repeat' first
    | with_reducible exact changesOnly_refl _ _
    | with_reducible apply chg_modTwin
    | with_reducible apply changes_modPages
    | (rw [mk_withRest]; with_reducible apply changes_withRest)
    | (show within _ _ = true; decide)
    | (show List.contains _ _ = true; decide)
    | (show ∀ q, _ → sameModule q _ _; intro p hp; (cases p <;> first | exact Bool.noConfusion (show true = false from hp) | exact trivial | rfl | exact ⟨rfl, rfl⟩ | exact ⟨rfl, rfl, rfl⟩))
    | with_reducible apply changes_modLife
    | split

theorem chg_setTwin {ps : List Part} {z : State} (s : State) (x : TwinSt) (hw : within [.twin] ps = true) (hk : changesOnly ps z s) :
    changesOnly ps z (setTwin s x) := by
  refine changes_step hw ?_ hk
  clear hk
  unfold setTwin
  try dsimp only
  repeat' first
    | with_reducible exact changesOnly_refl _ _
    | with_reducible apply chg_modTwin
    | (rw [mk_withRest]; with_reducible apply changes_withRest)
    | (show within _ _ = true; decide)
    | (show ∀ q, _ → sameModule q _ _; intro p hp; (cases p <;> first | exact Bool.noConfusion (show true = false from hp) | exact trivial | rfl | exact ⟨rfl, rfl⟩ | exact ⟨rfl, rfl, rfl⟩))
    | split

theorem chg_unpair {ps : List Part} {z : State} (s : State) (hw : within [.eic, .staging, .ports, .twin, .log] ps = true) (hk : changesOnly ps z s) :
    changesOnly ps z (unpair s) := by
  refine changes_step hw ?_ hk
  clear hk
  unfold unpair
  try dsimp only
  repeat' first
    | with_reducible exact changesOnly_refl _ _
    | with_reducible apply chg_setTwin
    | with_reducible apply chg_eventAll
    | (show within _ _ = true; decide)

theorem chg_twinSeen {ps : List Part} {z : State} (s : State) (f : Frame) (hw : within [.twin] ps = true) (hk : changesOnly ps z s) :
    changesOnly ps z (twinSeen s f) := by
  refine changes_step hw ?_ hk
  clear hk
  unfold twinSeen
  try dsimp only
  repeat' first
    | with_reducible exact changesOnly_refl _ _
    | with_reducible apply chg_modTwin
    | (rw [mk_withRest]; with_reducible apply changes_withRest)
    | (show within _ _ = true; decide)
    | (show ∀ q, _ → sameModule q _ _; intro p hp; (cases p <;> first | exact Bool.noConfusion (show true = false from hp) | exact trivial | rfl | exact ⟨rfl, rfl⟩ | exact ⟨rfl, rfl, rfl⟩))
    | split

theorem chg_twinYield {ps : List Part} {z : State} (s : State) (f : Frame) (hw : within [.twin] ps = true) (hk : changesOnly ps z s) :
    changesOnly ps z (twinYield s f) := by
  refine changes_step hw ?_ hk
  clear hk
  unfold twinYield
  try dsimp only
  repeat' first
    | with_reducible exact changesOnly_refl _ _
    | with_reducible apply chg_modTwin
    | (show within _ _ = true; decide)
    | split

theorem chg_modOwn {ps : List Part} {z : State} (s : State) (l : Lane) (f : TwinLane → TwinLane) (hw : within [.twin] ps = true) (hk : changesOnly ps z s) :
    changesOnly ps z (modOwn s l f) := by
  refine changes_step hw ?_ hk
  clear hk
  unfold modOwn
  try dsimp only
  repeat' first
    | with_reducible exact changesOnly_refl _ _
    | with_reducible apply chg_modTwin
    | (rw [mk_withRest]; with_reducible apply changes_withRest)
    | (show within _ _ = true; decide)
    | (show ∀ q, _ → sameModule q _ _; intro p hp; (cases p <;> first | exact Bool.noConfusion (show true = false from hp) | exact trivial | rfl | exact ⟨rfl, rfl⟩ | exact ⟨rfl, rfl, rfl⟩))
    | split

theorem chg_twinCompare {ps : List Part} {z : State} (s : State) (l : Lane) (f : Frame) (hw : within [.eic, .staging, .ports, .twin, .log] ps = true) (hk : changesOnly ps z s) :
    changesOnly ps z (twinCompare s l f) := by
  refine changes_step hw ?_ hk
  clear hk
  unfold twinCompare
  try dsimp only
  repeat' first
    | with_reducible exact changesOnly_refl _ _
    | with_reducible apply chg_modOwn
    | with_reducible apply chg_setTwin
    | with_reducible apply chg_unpair
    | (rw [mk_withRest]; with_reducible apply changes_withRest)
    | (show within _ _ = true; decide)
    | (show ∀ q, _ → sameModule q _ _; intro p hp; (cases p <;> first | exact Bool.noConfusion (show true = false from hp) | exact trivial | rfl | exact ⟨rfl, rfl⟩ | exact ⟨rfl, rfl, rfl⟩))
    | split

theorem chg_loadSwitch {ps : List Part} {z : State} (s : State) (n : Word) (hw : within [.sessions, .bank, .alk] ps = true) (hk : changesOnly ps z s) :
    changesOnly ps z (loadSwitch s n) := by
  refine changes_step hw ?_ hk
  clear hk
  unfold loadSwitch
  try dsimp only
  repeat' first
    | with_reducible exact changesOnly_refl _ _
    | with_reducible apply chg_configure
    | with_reducible apply changes_modLanes
    | (show within _ _ = true; decide)
    | (intro l; show laneOnly _ _ _; intro p hp; (cases p <;> first | exact Bool.noConfusion (show true = false from hp) | exact trivial | rfl | exact ⟨rfl, rfl⟩ | exact ⟨rfl, rfl, rfl⟩))
    | split

theorem chg_applyBlock {ps : List Part} {z : State} (s : State) (l : Lane) (i : Nat) (bs : List Byte) (hw : within [.press, .raa, .sessions] ps = true) (hk : changesOnly ps z s) :
    changesOnly ps z (applyBlock s l i bs) := by
  refine changes_step hw ?_ hk
  clear hk
  unfold applyBlock
  try dsimp only
  repeat' first
    | with_reducible exact changesOnly_refl _ _
    | with_reducible exact laneOnly_refl _ _
    | with_reducible apply chg_putArea
    | (intro l; with_reducible apply chg_putArea)
    | with_reducible apply changes_modLane
    | (show within _ _ = true; decide)
    | (show laneOnly _ _ _; intro p hp; (cases p <;> first | exact Bool.noConfusion (show true = false from hp) | exact trivial | rfl | exact ⟨rfl, rfl⟩ | exact ⟨rfl, rfl, rfl⟩))
    | (show laneOnly _ _ _; intro p hp; ((repeat' split) <;> cases p <;> first | exact Bool.noConfusion (show true = false from hp) | exact trivial | rfl | exact ⟨rfl, rfl⟩ | exact ⟨rfl, rfl, rfl⟩))
    | (show ∀ q, _ → sameModule q _ _; intro p hp; (cases p <;> first | exact Bool.noConfusion (show true = false from hp) | exact trivial | rfl | exact ⟨rfl, rfl⟩ | exact ⟨rfl, rfl, rfl⟩))
    | with_reducible apply changes_modLanes
    | (intro l; show laneOnly _ _ _; intro p hp; ((repeat' split) <;> cases p <;> first | exact Bool.noConfusion (show true = false from hp) | exact trivial | rfl | exact ⟨rfl, rfl⟩ | exact ⟨rfl, rfl, rfl⟩))
    | split

theorem chg_loadedLane {ps : List Part} {z : LaneState} (now : Word) (L : LaneState) (hw : within [.press, .raa] ps = true) (hk : laneOnly ps z L) :
    laneOnly ps z (loadedLane now L) := by
  refine laneOnly_step hw ?_ hk
  clear hk
  unfold loadedLane
  try dsimp only
  repeat' first
    | with_reducible exact laneOnly_refl _ _
    | (show laneOnly _ _ _; intro p hp; (cases p <;> first | exact Bool.noConfusion (show true = false from hp) | exact trivial | rfl | exact ⟨rfl, rfl⟩ | exact ⟨rfl, rfl, rfl⟩))
    | (show laneOnly _ _ _; intro p hp; ((repeat' split) <;> cases p <;> first | exact Bool.noConfusion (show true = false from hp) | exact trivial | rfl | exact ⟨rfl, rfl⟩ | exact ⟨rfl, rfl, rfl⟩))
    | split

theorem chg_loadDone {ps : List Part} {z : State} (s : State) (l : Lane) (hw : within [.press, .raa, .twin] ps = true) (hk : changesOnly ps z s) :
    changesOnly ps z (loadDone s l) := by
  refine changes_step hw ?_ hk
  clear hk
  unfold loadDone
  try dsimp only
  repeat' first
    | with_reducible exact changesOnly_refl _ _
    | with_reducible exact laneOnly_refl _ _
    | with_reducible apply chg_modOwn
    | with_reducible apply chg_setTwin
    | with_reducible apply chg_loadedLane
    | (intro l; with_reducible apply chg_loadedLane)
    | with_reducible apply changes_modLane
    | (rw [mk_withRest]; with_reducible apply changes_withRest)
    | (show within _ _ = true; decide)
    | (show laneOnly _ _ _; intro p hp; (cases p <;> first | exact Bool.noConfusion (show true = false from hp) | exact trivial | rfl | exact ⟨rfl, rfl⟩ | exact ⟨rfl, rfl, rfl⟩))
    | (show laneOnly _ _ _; intro p hp; ((repeat' split) <;> cases p <;> first | exact Bool.noConfusion (show true = false from hp) | exact trivial | rfl | exact ⟨rfl, rfl⟩ | exact ⟨rfl, rfl, rfl⟩))
    | (show ∀ q, _ → sameModule q _ _; intro p hp; (cases p <;> first | exact Bool.noConfusion (show true = false from hp) | exact trivial | rfl | exact ⟨rfl, rfl⟩ | exact ⟨rfl, rfl, rfl⟩))
    | with_reducible apply changes_modLanes
    | (intro l; show laneOnly _ _ _; intro p hp; ((repeat' split) <;> cases p <;> first | exact Bool.noConfusion (show true = false from hp) | exact trivial | rfl | exact ⟨rfl, rfl⟩ | exact ⟨rfl, rfl, rfl⟩))
    | split

theorem chg_clearLoaded {ps : List Part} {z : State} (s : State) (hw : within [.raa] ps = true) (hk : changesOnly ps z s) :
    changesOnly ps z (clearLoaded s) := by
  refine changes_step hw ?_ hk
  clear hk
  unfold clearLoaded
  try dsimp only
  repeat' first
    | with_reducible exact changesOnly_refl _ _
    | with_reducible apply changes_modLanes
    | (rw [mk_withRest]; with_reducible apply changes_withRest)
    | (intro l; show laneOnly _ _ _; intro p hp; ((repeat' split) <;> cases p <;> first | exact Bool.noConfusion (show true = false from hp) | exact trivial | rfl | exact ⟨rfl, rfl⟩ | exact ⟨rfl, rfl, rfl⟩))
    | (show ∀ q, _ → sameModule q _ _; intro p hp; (cases p <;> first | exact Bool.noConfusion (show true = false from hp) | exact trivial | rfl | exact ⟨rfl, rfl⟩ | exact ⟨rfl, rfl, rfl⟩))
    | split

theorem chg_twinLoad {ps : List Part} {z : State} (s : State) (l : Lane) (f : Frame) (hw : within [.press, .raa, .sessions, .bank, .alk, .twin] ps = true) (hk : changesOnly ps z s) :
    changesOnly ps z (twinLoad s l f) := by
  refine changes_step hw ?_ hk
  clear hk
  unfold twinLoad
  try dsimp only
  repeat' first
    | with_reducible exact changesOnly_refl _ _
    | with_reducible apply chg_setTwin
    | with_reducible apply chg_loadSwitch
    | with_reducible apply chg_clearLoaded
    | with_reducible apply chg_applyBlock
    | with_reducible apply chg_loadDone
    | (show within _ _ = true; decide)
    | (show ∀ q, _ → sameModule q _ _; intro p hp; (cases p <;> first | exact Bool.noConfusion (show true = false from hp) | exact trivial | rfl | exact ⟨rfl, rfl⟩ | exact ⟨rfl, rfl, rfl⟩))
    | split

theorem chg_twinEcho {ps : List Part} {z : State} (s : State) (echo : Word) (hw : within [.twin] ps = true) (hk : changesOnly ps z s) :
    changesOnly ps z (twinEcho s echo) := by
  refine changes_step hw ?_ hk
  clear hk
  unfold twinEcho
  try dsimp only
  repeat' first
    | with_reducible exact changesOnly_refl _ _
    | with_reducible apply chg_modTwin
    | (show within _ _ = true; decide)
    | split

theorem chg_activeTakes {ps : List Part} {z : State} (s : State) (f : Frame) (hw : within [.twin] ps = true) (hk : changesOnly ps z s) :
    changesOnly ps z (activeTakes s f) := by
  refine changes_step hw ?_ hk
  clear hk
  unfold activeTakes
  try dsimp only
  repeat' first
    | with_reducible exact changesOnly_refl _ _
    | with_reducible apply chg_modTwin
    | with_reducible apply chg_twinEcho
    | (rw [mk_withRest]; with_reducible apply changes_withRest)
    | (show within _ _ = true; decide)
    | (show ∀ q, _ → sameModule q _ _; intro p hp; (cases p <;> first | exact Bool.noConfusion (show true = false from hp) | exact trivial | rfl | exact ⟨rfl, rfl⟩ | exact ⟨rfl, rfl, rfl⟩))
    | split

theorem chg_twinFields {ps : List Part} {z : State} (s : State) (f : Frame) (hw : within [.twin] ps = true) (hk : changesOnly ps z s) :
    changesOnly ps z (twinFields s f) := by
  refine changes_step hw ?_ hk
  clear hk
  unfold twinFields
  try dsimp only
  repeat' first
    | with_reducible exact changesOnly_refl _ _
    | with_reducible apply chg_modTwin
    | (rw [mk_withRest]; with_reducible apply changes_withRest)
    | (show within _ _ = true; decide)
    | (show ∀ q, _ → sameModule q _ _; intro p hp; (cases p <;> first | exact Bool.noConfusion (show true = false from hp) | exact trivial | rfl | exact ⟨rfl, rfl⟩ | exact ⟨rfl, rfl, rfl⟩))
    | split

theorem chg_twinFresh {ps : List Part} {z : State} (s : State) (l : Lane) (f : Frame) (hw : within [.press, .raa, .sessions, .eic, .staging, .bank, .alk, .ports, .twin, .log] ps = true) (hk : changesOnly ps z s) :
    changesOnly ps z (twinFresh s l f) := by
  refine changes_step hw ?_ hk
  clear hk
  unfold twinFresh
  try dsimp only
  repeat' first
    | with_reducible exact changesOnly_refl _ _
    | with_reducible apply chg_modOwn
    | with_reducible apply chg_twinCompare
    | with_reducible apply chg_twinLoad
    | with_reducible apply chg_twinFields
    | with_reducible apply chg_activeTakes
    | (rw [mk_withRest]; with_reducible apply changes_withRest)
    | (show within _ _ = true; decide)
    | (show ∀ q, _ → sameModule q _ _; intro p hp; (cases p <;> first | exact Bool.noConfusion (show true = false from hp) | exact trivial | rfl | exact ⟨rfl, rfl⟩ | exact ⟨rfl, rfl, rfl⟩))
    | split

theorem chg_mediumFcs {ps : List Part} {z : State} (s : State) (x : RxFrame) (hw : within [.alk, .lifetime] ps = true) (hk : changesOnly ps z s) :
    changesOnly ps z (mediumFcs s x) := by
  unfold mediumFcs
  split
  · exact hk
  · exact chg_corruptSeen _ _ _ hw hk

theorem chg_twinReject {ps : List Part} {z : State} (s : State) (x : RxFrame) (hw : within [.eic, .staging, .alk, .ports, .twin, .lifetime, .log, .free] ps = true) (hk : changesOnly ps z s) :
    changesOnly ps z (twinReject s x) := by
  refine changes_step hw ?_ hk
  clear hk
  unfold twinReject
  try dsimp only
  repeat' first
    | with_reducible exact changesOnly_refl _ _
    | with_reducible apply chg_timingError
    | with_reducible apply chg_modTwin
    | with_reducible apply chg_mediumFcs
    | (rw [mk_withRest]; with_reducible apply changes_withRest)
    | (show within _ _ = true; decide)
    | (show ∀ q, _ → sameModule q _ _; intro p hp; (cases p <;> first | exact Bool.noConfusion (show true = false from hp) | exact trivial | rfl | exact ⟨rfl, rfl⟩ | exact ⟨rfl, rfl, rfl⟩))
    | split

theorem chg_twinGot {ps : List Part} {z : State} (s : State) (l : Lane) (f : Frame) (hw : within [.twin] ps = true) (hk : changesOnly ps z s) :
    changesOnly ps z (twinGot s l f) := by
  refine changes_step hw ?_ hk
  clear hk
  unfold twinGot
  try dsimp only
  repeat' first
    | with_reducible exact changesOnly_refl _ _
    | with_reducible apply chg_modTwin
    | with_reducible apply chg_modOwn
    | (rw [mk_withRest]; with_reducible apply changes_withRest)
    | (show within _ _ = true; decide)
    | (show ∀ q, _ → sameModule q _ _; intro p hp; (cases p <;> first | exact Bool.noConfusion (show true = false from hp) | exact trivial | rfl | exact ⟨rfl, rfl⟩ | exact ⟨rfl, rfl, rfl⟩))
    | split

theorem chg_twinCount {ps : List Part} {z : State} (s0 : State) (l : Lane) (f : State → State)
    (hf : ∀ t, changesOnly ps z t → changesOnly ps z (f t)) (hw : within [] ps = true) (hk : changesOnly ps z s0) :
    changesOnly ps z (twinCount s0 l f) := by
  unfold twinCount
  split
  · exact hf _ hk
  · exact hk

theorem chg_twinStale {ps : List Part} {z : State} (s : State) (l : Lane) (hw : within [.twin] ps = true) (hk : changesOnly ps z s) :
    changesOnly ps z (twinStale s l) := by
  refine changes_step hw ?_ hk
  clear hk
  unfold twinStale
  try dsimp only
  repeat' first
    | with_reducible assumption
    | with_reducible exact changesOnly_refl _ _
    | with_reducible apply chg_modTwin
    | with_reducible apply chg_modOwn
    | with_reducible apply chg_twinCount
    | (rw [mk_withRest]; with_reducible apply changes_withRest)
    | (show within _ _ = true; decide)
    | (show ∀ q, _ → sameModule q _ _; intro p hp; (cases p <;> first | exact Bool.noConfusion (show true = false from hp) | exact trivial | rfl | exact ⟨rfl, rfl⟩ | exact ⟨rfl, rfl, rfl⟩))
    | (with_reducible intro t x hk)
    | (with_reducible intro t hk)
    | split

theorem chg_execTwin {ps : List Part} {z : State} (l : Lane) (rx : RxFrame) (s : State) (q0 : State) (hw : within [.press, .raa, .sessions, .eic, .staging, .bank, .alk, .ports, .twin, .lifetime, .log, .free] ps = true) (hk : changesOnly ps z s) :
    changesOnly ps z (thenState q0 (execTwin l rx s)) := by
  refine changes_step hw ?_ hk
  clear hk
  unfold execTwin
  dsimp only [thenState]
  repeat' first
    | with_reducible assumption
    | with_reducible exact changesOnly_refl _ _
    | with_reducible apply chg_sessionSees
    | with_reducible apply chg_twinSeen
    | with_reducible apply chg_twinYield
    | with_reducible apply chg_twinFresh
    | with_reducible apply chg_mediumFcs
    | with_reducible apply chg_twinReject
    | with_reducible apply chg_twinGot
    | with_reducible apply chg_twinCount
    | with_reducible apply chg_twinStale
    | (show within _ _ = true; decide)
    | (show ∀ q, _ → sameModule q _ _; intro p hp; (cases p <;> first | exact Bool.noConfusion (show true = false from hp) | exact trivial | rfl | exact ⟨rfl, rfl⟩ | exact ⟨rfl, rfl, rfl⟩))
    | (rw [mk_withRest]; with_reducible apply changes_withRest)
    | (with_reducible intro t x hk)
    | (with_reducible intro t hk)
    | split

theorem chg_loadClose {ps : List Part} {z : State} (s : State) (area : LoadArea) (hw : within [.twin] ps = true) (hk : changesOnly ps z s) :
    changesOnly ps z (loadClose s area) := by
  refine changes_step hw ?_ hk
  clear hk
  unfold loadClose
  try dsimp only
  repeat' first
    | with_reducible exact changesOnly_refl _ _
    | (rw [mk_withRest]; with_reducible apply changes_withRest)
    | (show ∀ q, _ → sameModule q _ _; intro p hp; (cases p <;> first | exact Bool.noConfusion (show true = false from hp) | exact trivial | rfl | exact ⟨rfl, rfl⟩ | exact ⟨rfl, rfl, rfl⟩))
    | split

theorem chg_twinClosed {ps : List Part} {z : State} (s : State) (hw : within [.twin] ps = true) (hk : changesOnly ps z s) :
    changesOnly ps z (twinClosed s) := by
  refine changes_step hw ?_ hk
  clear hk
  unfold twinClosed
  try dsimp only
  repeat' first
    | with_reducible exact changesOnly_refl _ _
    | with_reducible apply chg_modTwin
    | (show within _ _ = true; decide)
    | split

theorem chg_takeRole {ps : List Part} {z : State} (s : State) (hw : within [.eic, .staging, .ports, .twin, .lifetime, .log] ps = true) (hk : changesOnly ps z s) :
    changesOnly ps z (takeRole s) := by
  refine changes_step hw ?_ hk
  clear hk
  unfold takeRole
  try dsimp only
  repeat' first
    | with_reducible exact changesOnly_refl _ _
    | with_reducible apply chg_eventAll
    | with_reducible apply chg_setEpoch
    | with_reducible apply chg_setTwin
    | (show within _ _ = true; decide)
    | (show ∀ q, _ → sameModule q _ _; intro p hp; (cases p <;> first | exact Bool.noConfusion (show true = false from hp) | exact trivial | rfl | exact ⟨rfl, rfl⟩ | exact ⟨rfl, rfl, rfl⟩))
    | split

theorem chg_twinRole {ps : List Part} {z : State} (s : State) (hw : within [.eic, .staging, .ports, .twin, .lifetime, .log] ps = true) (hk : changesOnly ps z s) :
    changesOnly ps z (twinRole s) := by
  refine changes_step hw ?_ hk
  clear hk
  unfold twinRole
  try dsimp only
  repeat' first
    | with_reducible exact changesOnly_refl _ _
    | with_reducible apply chg_setTwin
    | with_reducible apply chg_takeRole
    | (show within _ _ = true; decide)
    | split

theorem chg_yieldNow {ps : List Part} {z : State} (s : State) (hw : within [.eic, .staging, .ports, .twin, .lifetime, .log] ps = true) (hk : changesOnly ps z s) :
    changesOnly ps z (yieldNow s) := by
  refine changes_step hw ?_ hk
  clear hk
  unfold yieldNow
  try dsimp only
  repeat' first
    | with_reducible exact changesOnly_refl _ _
    | with_reducible apply chg_setTwin
    | with_reducible apply chg_setEpoch
    | with_reducible apply chg_modTwin
    | with_reducible apply chg_eventAll
    | (show within _ _ = true; decide)
    | split

theorem chg_twinTick {ps : List Part} {z : State} (s : State) (hw : within [.eic, .staging, .ports, .twin, .lifetime, .log] ps = true) (hk : changesOnly ps z s) :
    changesOnly ps z (twinTick s) := by
  refine changes_step hw ?_ hk
  clear hk
  unfold twinTick
  try dsimp only
  repeat' first
    | with_reducible exact changesOnly_refl _ _
    | with_reducible apply chg_modTwin
    | with_reducible apply chg_setTwin
    | with_reducible apply chg_twinRole
    | with_reducible apply chg_yieldNow
    | (rw [mk_withRest]; with_reducible apply changes_withRest)
    | (show within _ _ = true; decide)
    | (show ∀ q, _ → sameModule q _ _; intro p hp; (cases p <;> first | exact Bool.noConfusion (show true = false from hp) | exact trivial | rfl | exact ⟨rfl, rfl⟩ | exact ⟨rfl, rfl, rfl⟩))
    | split

theorem chg_roleBit {ps : List Part} {z : State} (s : State) (f : Lane → Bool) (hw : within [.press] ps = true) (hk : changesOnly ps z s) :
    changesOnly ps z (roleBit s f) := by
  refine changes_step hw ?_ hk
  clear hk
  unfold roleBit
  try dsimp only
  repeat' first
    | with_reducible exact changesOnly_refl _ _
    | with_reducible apply changes_modLanes
    | (rw [mk_withRest]; with_reducible apply changes_withRest)
    | (intro l; show laneOnly _ _ _; intro p hp; ((repeat' split) <;> cases p <;> first | exact Bool.noConfusion (show true = false from hp) | exact trivial | rfl | exact ⟨rfl, rfl⟩ | exact ⟨rfl, rfl, rfl⟩))
    | (show ∀ q, _ → sameModule q _ _; intro p hp; (cases p <;> first | exact Bool.noConfusion (show true = false from hp) | exact trivial | rfl | exact ⟨rfl, rfl⟩ | exact ⟨rfl, rfl, rfl⟩))
    | split

theorem chg_execTakeover {ps : List Part} {z : State} (s : State) (q0 : State) (hw : within [.press, .eic, .staging, .ports, .twin, .lifetime, .log] ps = true) (hk : changesOnly ps z s) :
    changesOnly ps z (thenState q0 (execTakeover s)) := by
  refine changes_step hw ?_ hk
  clear hk
  unfold execTakeover
  dsimp only [thenState]
  repeat' first
    | with_reducible exact changesOnly_refl _ _
    | with_reducible apply chg_eventAll
    | with_reducible apply chg_setEpoch
    | with_reducible apply chg_setTwin
    | with_reducible apply chg_roleBit
    | with_reducible apply changes_modLife
    | (rw [mk_withRest]; with_reducible apply changes_withRest)
    | (show within _ _ = true; decide)
    | (show List.contains _ _ = true; decide)
    | (show ∀ q, _ → sameModule q _ _; intro p hp; (cases p <;> first | exact Bool.noConfusion (show true = false from hp) | exact trivial | rfl | exact ⟨rfl, rfl⟩ | exact ⟨rfl, rfl, rfl⟩))
    | split

theorem chg_refuseHandover {ps : List Part} {z : State} (s : State) (hw : within [.eic, .staging, .ports, .twin, .log] ps = true) (hk : changesOnly ps z s) :
    changesOnly ps z (refuseHandover s) := by
  refine changes_step hw ?_ hk
  clear hk
  unfold refuseHandover
  try dsimp only
  repeat' first
    | with_reducible exact changesOnly_refl _ _
    | with_reducible apply chg_modTwin
    | with_reducible apply chg_recordAll
    | (show within _ _ = true; decide)

theorem chg_handoverPast {ps : List Part} {z : State} (s : State) (hw : within [.eic, .staging, .ports, .twin, .log] ps = true) (hk : changesOnly ps z s) :
    changesOnly ps z (handoverPast s) := by
  refine changes_step hw ?_ hk
  clear hk
  unfold handoverPast
  try dsimp only
  repeat' first
    | with_reducible exact changesOnly_refl _ _
    | with_reducible apply chg_refuseHandover
    | (show within _ _ = true; decide)
    | split

theorem chg_execHandoverRequest {ps : List Part} {z : State} (auth : Auth) (s : State) (q0 : State) (hw : within [.eic, .staging, .ports, .twin, .lifetime, .log] ps = true) (hk : changesOnly ps z s) :
    changesOnly ps z (thenState q0 (execHandoverRequest auth s)) := by
  refine changes_step hw ?_ hk
  clear hk
  unfold execHandoverRequest
  dsimp only [thenState]
  repeat' first
    | with_reducible assumption
    | with_reducible exact changesOnly_refl _ _
    | with_reducible apply chg_harnal
    | with_reducible apply chg_modTwin
    | with_reducible apply chg_refuseHandover
    | (show within _ _ = true; decide)
    | (with_reducible intro t hk)
    | split

theorem chg_execHandover {ps : List Part} {z : State} (s : State) (q0 : State) (hw : within [.press, .eic, .staging, .sluices, .ports, .twin, .lifetime, .log] ps = true) (hk : changesOnly ps z s) :
    changesOnly ps z (thenState q0 (execHandover s)) := by
  refine changes_step hw ?_ hk
  clear hk
  unfold execHandover
  dsimp only [thenState]
  repeat' first
    | with_reducible exact changesOnly_refl _ _
    | with_reducible apply chg_eventAll
    | with_reducible apply chg_modTwin
    | with_reducible apply chg_setEpoch
    | with_reducible apply chg_setTwin
    | with_reducible apply chg_roleBit
    | with_reducible apply changes_modSluices
    | with_reducible apply changes_modLife
    | (rw [mk_withRest]; with_reducible apply changes_withRest)
    | (show within _ _ = true; decide)
    | (show List.contains _ _ = true; decide)
    | (show ∀ q, _ → sameModule q _ _; intro p hp; (cases p <;> first | exact Bool.noConfusion (show true = false from hp) | exact trivial | rfl | exact ⟨rfl, rfl⟩ | exact ⟨rfl, rfl, rfl⟩))
    | split

theorem chg_execLoadStart {ps : List Part} {z : State} (s : State) (q0 : State) (hw : within [.twin] ps = true) (hk : changesOnly ps z s) :
    changesOnly ps z (thenState q0 (execLoadStart s)) := by
  refine changes_step hw ?_ hk
  clear hk
  unfold execLoadStart
  dsimp only [thenState]
  repeat' first
    | with_reducible exact changesOnly_refl _ _
    | with_reducible apply chg_modTwin
    | (show within _ _ = true; decide)
    | split

theorem chg_execLoadFail {ps : List Part} {z : State} (s : State) (q0 : State) (hw : within [.eic, .staging, .ports, .twin, .lifetime, .log] ps = true) (hk : changesOnly ps z s) :
    changesOnly ps z (thenState q0 (execLoadFail s)) := by
  refine changes_step hw ?_ hk
  clear hk
  unfold execLoadFail
  dsimp only [thenState]
  repeat' first
    | with_reducible exact changesOnly_refl _ _
    | with_reducible apply chg_eventAll
    | with_reducible apply chg_modTwin
    | with_reducible apply chg_setTwin
    | with_reducible apply changes_modPages
    | (rw [mk_withRest]; with_reducible apply changes_withRest)
    | (show within _ _ = true; decide)
    | (show List.contains _ _ = true; decide)
    | (show ∀ q, _ → sameModule q _ _; intro p hp; (cases p <;> first | exact Bool.noConfusion (show true = false from hp) | exact trivial | rfl | exact ⟨rfl, rfl⟩ | exact ⟨rfl, rfl, rfl⟩))
    | with_reducible apply changes_modLife
    | split

theorem chg_execLoadRetry {ps : List Part} {z : State} (s : State) (q0 : State) (hw : within [.twin] ps = true) (hk : changesOnly ps z s) :
    changesOnly ps z (thenState q0 (execLoadRetry s)) := by
  refine changes_step hw ?_ hk
  clear hk
  unfold execLoadRetry
  dsimp only [thenState]
  repeat' first
    | with_reducible exact changesOnly_refl _ _
    | with_reducible apply chg_modTwin
    | (show within _ _ = true; decide)
    | split

theorem chg_execLoadRestart {ps : List Part} {z : State} (auth : Auth) (s : State) (q0 : State) (hw : within [.eic, .staging, .ports, .twin, .lifetime, .log] ps = true) (hk : changesOnly ps z s) :
    changesOnly ps z (thenState q0 (execLoadRestart auth s)) := by
  refine changes_step hw ?_ hk
  clear hk
  unfold execLoadRestart
  dsimp only [thenState]
  repeat' first
    | with_reducible assumption
    | with_reducible exact changesOnly_refl _ _
    | with_reducible apply chg_harnal
    | with_reducible apply chg_modTwin
    | with_reducible apply changes_modPages
    | (rw [mk_withRest]; with_reducible apply changes_withRest)
    | (show within _ _ = true; decide)
    | (show List.contains _ _ = true; decide)
    | (show ∀ q, _ → sameModule q _ _; intro p hp; (cases p <;> first | exact Bool.noConfusion (show true = false from hp) | exact trivial | rfl | exact ⟨rfl, rfl⟩ | exact ⟨rfl, rfl, rfl⟩))
    | with_reducible apply changes_modLife
    | (with_reducible intro t hk)
    | (with_reducible intro t x hk)
    | split

theorem chg_attachData {ps : List Part} {z : State} (s : State) (r : HostRef) (x : StageData) (hw : within [.mbx] ps = true) (hk : changesOnly ps z s) :
    changesOnly ps z (attachData s r x) := by
  refine changes_step hw ?_ hk
  clear hk
  unfold attachData
  try dsimp only
  repeat' first
    | with_reducible exact changesOnly_refl _ _
    | with_reducible apply changes_modLanes
    | (intro l; show laneOnly _ _ _; intro p hp; (cases p <;> first | exact Bool.noConfusion (show true = false from hp) | exact trivial | rfl | exact ⟨rfl, rfl⟩ | exact ⟨rfl, rfl, rfl⟩))

theorem chg_endStage {ps : List Part} {z : State} (s : State) (t : Taken) (bytes reason : Nat) (hw : within [.mbx] ps = true) (hk : changesOnly ps z s) :
    changesOnly ps z (endStage s t bytes reason) := by
  refine changes_step hw ?_ hk
  clear hk
  unfold endStage
  try dsimp only
  repeat' first
    | with_reducible exact changesOnly_refl _ _
    | with_reducible apply chg_finishAll
    | (show within _ _ = true; decide)

theorem chg_stagedRecord {ps : List Part} {z : State} (s : State) (l : Lane) (n : Word) (reason : Nat) (check : BitVec 64) (bytes : Nat) (hw : within [.eic, .staging, .ports, .log] ps = true) (hk : changesOnly ps z s) :
    changesOnly ps z (stagedRecord s l n reason check bytes) := by
  refine changes_step hw ?_ hk
  clear hk
  unfold stagedRecord
  try dsimp only
  repeat' first
    | with_reducible exact changesOnly_refl _ _
    | with_reducible apply chg_eventLane
    | (show within _ _ = true; decide)

theorem chg_failStage {ps : List Part} {z : State} (s : State) (t : Taken) (reason : Nat) (hw : within [.eic, .staging, .mbx, .bank, .ports, .log] ps = true) (hk : changesOnly ps z s) :
    changesOnly ps z (failStage s t reason) := by
  refine changes_step hw ?_ hk
  clear hk
  unfold failStage
  try dsimp only
  repeat' first
    | with_reducible assumption
    | with_reducible exact changesOnly_refl _ _
    | with_reducible apply chg_endStage
    | with_reducible apply chg_stagedRecord
    | with_reducible apply changes_modLanes
    | with_reducible apply changes_foldS
    | (show within _ _ = true; decide)
    | (intro l; show laneOnly _ _ _; intro p hp; (cases p <;> first | exact Bool.noConfusion (show true = false from hp) | exact trivial | rfl | exact ⟨rfl, rfl⟩ | exact ⟨rfl, rfl, rfl⟩))
    | (with_reducible intro t x hk)

theorem chg_takeBytes {ps : List Part} {z : State} (s : State) (d : BitVec 512) (x : StageData) (hw : within [.bank] ps = true) (hk : changesOnly ps z s) :
    changesOnly ps z (takeBytes s d x) := by
  refine changes_step hw ?_ hk
  clear hk
  unfold takeBytes
  try dsimp only
  repeat' first
    | with_reducible exact changesOnly_refl _ _
    | with_reducible apply changes_modLanes
    | (rw [mk_withRest]; with_reducible apply changes_withRest)
    | (intro l; show laneOnly _ _ _; intro p hp; ((repeat' split) <;> cases p <;> first | exact Bool.noConfusion (show true = false from hp) | exact trivial | rfl | exact ⟨rfl, rfl⟩ | exact ⟨rfl, rfl, rfl⟩))
    | (show ∀ q, _ → sameModule q _ _; intro p hp; (cases p <;> first | exact Bool.noConfusion (show true = false from hp) | exact trivial | rfl | exact ⟨rfl, rfl⟩ | exact ⟨rfl, rfl, rfl⟩))
    | split

theorem chg_overtake {ps : List Part} {z : State} (s : State) (t : Taken) (hw : within [.mbx] ps = true) (hk : changesOnly ps z s) :
    changesOnly ps z (overtake s t) := by
  refine changes_step hw ?_ hk
  clear hk
  unfold overtake
  try dsimp only
  repeat' first
    | with_reducible exact changesOnly_refl _ _
    | with_reducible apply chg_endStage
    | (show within _ _ = true; decide)
    | (show ∀ q, _ → sameModule q _ _; intro p hp; (cases p <;> first | exact Bool.noConfusion (show true = false from hp) | exact trivial | rfl | exact ⟨rfl, rfl⟩ | exact ⟨rfl, rfl, rfl⟩))
    | split

theorem chg_programChunk {ps : List Part} {z : State} (s : State) (t : Taken) (x : StageData) (hw : within [.eic, .chk, .staging, .mbx, .bank, .ports, .log] ps = true) (hk : changesOnly ps z s) :
    changesOnly ps z (programChunk s t x) := by
  refine changes_step hw ?_ hk
  clear hk
  unfold programChunk
  try dsimp only
  repeat' first
    | with_reducible exact changesOnly_refl _ _
    | with_reducible apply chg_feedStage
    | with_reducible apply chg_endStage
    | with_reducible apply chg_failStage
    | with_reducible apply chg_takeBytes
    | with_reducible apply chg_overtake
    | (show within _ _ = true; decide)
    | (show ∀ q, _ → sameModule q _ _; intro p hp; (cases p <;> first | exact Bool.noConfusion (show true = false from hp) | exact trivial | rfl | exact ⟨rfl, rfl⟩ | exact ⟨rfl, rfl, rfl⟩))
    | split

theorem chg_endVerify {ps : List Part} {z : State} (errors : PerLane (BitVec 64)) (reasons : PerLane Nat) (s : State) (l : Lane) (hw : within [.eic, .staging, .mbx, .bank, .ports, .log] ps = true) (hk : changesOnly ps z s) :
    changesOnly ps z (endVerify errors reasons s l) := by
  refine changes_step hw ?_ hk
  clear hk
  unfold endVerify
  try dsimp only
  repeat' first
    | with_reducible exact changesOnly_refl _ _
    | with_reducible apply chg_finishLane
    | with_reducible apply chg_stagedRecord
    | with_reducible apply changes_modLane
    | (rw [mk_withRest]; with_reducible apply changes_withRest)
    | (show within _ _ = true; decide)
    | (show laneOnly _ _ _; intro p hp; (cases p <;> first | exact Bool.noConfusion (show true = false from hp) | exact trivial | rfl | exact ⟨rfl, rfl⟩ | exact ⟨rfl, rfl, rfl⟩))
    | (show laneOnly _ _ _; intro p hp; ((repeat' split) <;> cases p <;> first | exact Bool.noConfusion (show true = false from hp) | exact trivial | rfl | exact ⟨rfl, rfl⟩ | exact ⟨rfl, rfl, rfl⟩))
    | (show ∀ q, _ → sameModule q _ _; intro p hp; (cases p <;> first | exact Bool.noConfusion (show true = false from hp) | exact trivial | rfl | exact ⟨rfl, rfl⟩ | exact ⟨rfl, rfl, rfl⟩))
    | split

theorem chg_dropVerify {ps : List Part} {z : State} (s : State) (hw : within [.bank] ps = true) (hk : changesOnly ps z s) :
    changesOnly ps z (dropVerify s) := by
  refine changes_step hw ?_ hk
  clear hk
  unfold dropVerify
  try dsimp only
  repeat' first
    | with_reducible exact changesOnly_refl _ _
    | with_reducible apply changes_modLanes
    | (intro l; show laneOnly _ _ _; intro p hp; ((repeat' split) <;> cases p <;> first | exact Bool.noConfusion (show true = false from hp) | exact trivial | rfl | exact ⟨rfl, rfl⟩ | exact ⟨rfl, rfl, rfl⟩))

theorem chg_execVintageStaged {ps : List Part} {z : State} (errors : PerLane (BitVec 64)) (norOk : PerLane Bool) (s : State) (q0 : State)
    (hw : within [.clock, .eic, .staging, .mbx, .bank, .ports, .lifetime, .log] ps = true) (hk : changesOnly ps z s) : changesOnly ps z (thenState q0 (execVintageStaged errors norOk s)) := by
  refine changes_step hw (?_ : changesOnly [.clock, .eic, .staging, .mbx, .bank, .ports, .lifetime, .log] s (thenState q0 (execVintageStaged errors norOk s))) hk
  have hk := changesOnly_refl [.clock, .eic, .staging, .mbx, .bank, .ports, .lifetime, .log] s
  unfold execVintageStaged thenState
  extract_lets ls reason n done s1 s2
  dsimp -zeta only
  split
  · exact chg_dropVerify _ rfl hk
  · have h1 : changesOnly [.clock, .eic, .staging, .mbx, .bank, .ports, .lifetime, .log] s s1 := changes_foldS _ _ (fun _ _ h => chg_endVerify _ _ _ _ rfl h) (chg_dropVerify _ rfl hk)
    have h2 : changesOnly [.clock, .eic, .staging, .mbx, .bank, .ports, .lifetime, .log] s s2 := by
      unfold s2
      split
      · exact chg_addHistory _ _ _ _ _ _ rfl h1
      · exact h1
    split
    · refine changes_module (s := s2) rfl (fun p hp => ?_) h2
      cases p <;> first | (cases hp; done) | exact trivial | rfl
    · exact h2

theorem chg_startUpdate {ps : List Part} {z : State} (s : State) (l : Lane) (signed : Bool) (t : Taken) (hw : within [.mode, .laneState, .life, .press, .raa, .eic, .staging, .mbx, .bank, .boot, .bist, .link, .sluices, .ports, .lifetime, .log, .free] ps = true) (hk : changesOnly ps z s) :
    changesOnly ps z (startUpdate s l signed t) := by
  refine changes_step hw ?_ hk
  clear hk
  unfold startUpdate
  try dsimp only
  repeat' first
    | with_reducible exact changesOnly_refl _ _
    | with_reducible apply chg_isolate
    | with_reducible apply chg_finishAll
    | with_reducible apply chg_endUpdate
    | with_reducible apply changes_modLane
    | (rw [mk_withRest]; with_reducible apply changes_withRest)
    | (show within _ _ = true; decide)
    | (show laneOnly _ _ _; intro p hp; (cases p <;> first | exact Bool.noConfusion (show true = false from hp) | exact trivial | rfl | exact ⟨rfl, rfl⟩ | exact ⟨rfl, rfl, rfl⟩))
    | (show laneOnly _ _ _; intro p hp; ((repeat' split) <;> cases p <;> first | exact Bool.noConfusion (show true = false from hp) | exact trivial | rfl | exact ⟨rfl, rfl⟩ | exact ⟨rfl, rfl, rfl⟩))
    | (show ∀ q, _ → sameModule q _ _; intro p hp; (cases p <;> first | exact Bool.noConfusion (show true = false from hp) | exact trivial | rfl | exact ⟨rfl, rfl⟩ | exact ⟨rfl, rfl, rfl⟩))
    | split

theorem chg_firmwareChunk {ps : List Part} {z : State} (s : State) (t : Taken) (x : StageData) (hw : within [.mode, .laneState, .life, .press, .raa, .eic, .chk, .staging, .mbx, .bank, .boot, .bist, .link, .sluices, .ports, .lifetime, .log, .free] ps = true) (hk : changesOnly ps z s) :
    changesOnly ps z (firmwareChunk s t x) := by
  refine changes_step hw ?_ hk
  clear hk
  unfold firmwareChunk
  try dsimp only
  repeat' first
    | with_reducible exact changesOnly_refl _ _
    | with_reducible apply chg_feedStage
    | with_reducible apply chg_endStage
    | with_reducible apply chg_startUpdate
    | with_reducible apply changes_modLane
    | (rw [mk_withRest]; with_reducible apply changes_withRest)
    | (show within _ _ = true; decide)
    | (show laneOnly _ _ _; intro p hp; (cases p <;> first | exact Bool.noConfusion (show true = false from hp) | exact trivial | rfl | exact ⟨rfl, rfl⟩ | exact ⟨rfl, rfl, rfl⟩))
    | (show laneOnly _ _ _; intro p hp; ((repeat' split) <;> cases p <;> first | exact Bool.noConfusion (show true = false from hp) | exact trivial | rfl | exact ⟨rfl, rfl⟩ | exact ⟨rfl, rfl, rfl⟩))
    | (show ∀ q, _ → sameModule q _ _; intro p hp; (cases p <;> first | exact Bool.noConfusion (show true = false from hp) | exact trivial | rfl | exact ⟨rfl, rfl⟩ | exact ⟨rfl, rfl, rfl⟩))
    | split

theorem chg_executeChunk {ps : List Part} {z : State} (s : State) (t : Taken) (hw : within [.mode, .laneState, .life, .press, .raa, .eic, .chk, .staging, .mbx, .bank, .boot, .bist, .link, .sluices, .ports, .lifetime, .log, .free] ps = true) (hk : changesOnly ps z s) :
    changesOnly ps z (executeChunk s t) := by
  refine changes_step hw ?_ hk
  clear hk
  unfold executeChunk
  try dsimp only
  repeat' first
    | with_reducible exact changesOnly_refl _ _
    | with_reducible apply chg_dataFailed
    | with_reducible apply chg_programChunk
    | with_reducible apply chg_firmwareChunk
    | (show within _ _ = true; decide)
    | (show ∀ q, _ → sameModule q _ _; intro p hp; (cases p <;> first | exact Bool.noConfusion (show true = false from hp) | exact trivial | rfl | exact ⟨rfl, rfl⟩ | exact ⟨rfl, rfl, rfl⟩))
    | split

theorem chg_runNext {ps : List Part} {z : State} (p : Port) (q : Nat) (s : State) (r : HostRef) (hw : within [.mode, .laneState, .life, .press, .raa, .eic, .chk, .staging, .mbx, .bank, .boot, .bist, .link, .sluices, .ports, .lifetime, .log, .free] ps = true) (hk : changesOnly ps z s) :
    changesOnly ps z (runNext p q s r) := by
  refine changes_step hw ?_ hk
  clear hk
  unfold runNext
  try dsimp only
  repeat' first
    | with_reducible exact changesOnly_refl _ _
    | with_reducible apply chg_markFeed
    | with_reducible apply chg_beginFeed
    | with_reducible apply chg_executeChunk
    | (show within _ _ = true; decide)
    | (show ∀ q, _ → sameModule q _ _; intro p hp; (cases p <;> first | exact Bool.noConfusion (show true = false from hp) | exact trivial | rfl | exact ⟨rfl, rfl⟩ | exact ⟨rfl, rfl, rfl⟩))
    | split

theorem chg_runSq {ps : List Part} {z : State} (s : State) (p : Port) (q : Nat) (hw : within [.mode, .laneState, .life, .press, .raa, .eic, .chk, .staging, .mbx, .bank, .boot, .bist, .link, .sluices, .ports, .lifetime, .log, .free] ps = true) (hk : changesOnly ps z s) :
    changesOnly ps z (runSq s p q) := by
  refine changes_step hw ?_ hk
  clear hk
  unfold runSq
  try dsimp only
  repeat' first
    | with_reducible assumption
    | with_reducible exact changesOnly_refl _ _
    | with_reducible apply chg_runNext
    | with_reducible apply changes_foldS
    | (show within _ _ = true; decide)
    | (show ∀ q, _ → sameModule q _ _; intro p hp; (cases p <;> first | exact Bool.noConfusion (show true = false from hp) | exact trivial | rfl | exact ⟨rfl, rfl⟩ | exact ⟨rfl, rfl, rfl⟩))
    | (with_reducible intro t x hk)
    | (with_reducible intro t hk)
    | split

theorem chg_runChunk {ps : List Part} {z : State} (s : State) (t : Taken) (hw : within [.mode, .laneState, .life, .press, .raa, .eic, .chk, .staging, .mbx, .bank, .boot, .bist, .link, .sluices, .ports, .lifetime, .log, .free] ps = true) (hk : changesOnly ps z s) :
    changesOnly ps z (runChunk s t) := by
  refine changes_step hw ?_ hk
  clear hk
  unfold runChunk
  try dsimp only
  repeat' first
    | with_reducible exact changesOnly_refl _ _
    | with_reducible apply chg_beginFeed
    | with_reducible apply chg_runSq
    | (show within _ _ = true; decide)
    | (show ∀ q, _ → sameModule q _ _; intro p hp; (cases p <;> first | exact Bool.noConfusion (show true = false from hp) | exact trivial | rfl | exact ⟨rfl, rfl⟩ | exact ⟨rfl, rfl, rfl⟩))
    | split

theorem chg_stageData {ps : List Part} {z : State} (s : State) (p : Port) (q : Fin 16) (d : BitVec 512) (x : StageData) (hw : within [.mode, .laneState, .life, .press, .raa, .eic, .chk, .staging, .mbx, .bank, .boot, .bist, .link, .sluices, .ports, .lifetime, .log, .free] ps = true) (hk : changesOnly ps z s) :
    changesOnly ps z (stageData s p q d x) := by
  refine changes_step hw ?_ hk
  clear hk
  unfold stageData
  try dsimp only
  repeat' first
    | with_reducible exact changesOnly_refl _ _
    | with_reducible apply chg_attachData
    | with_reducible apply chg_runSq
    | (rw [mk_withRest]; with_reducible apply changes_withRest)
    | (show within _ _ = true; decide)
    | (show ∀ q, _ → sameModule q _ _; intro p hp; (cases p <;> first | exact Bool.noConfusion (show true = false from hp) | exact trivial | rfl | exact ⟨rfl, rfl⟩ | exact ⟨rfl, rfl, rfl⟩))
    | split

theorem chg_execStageProgram {ps : List Part} {z : State} (p : Port) (q : Fin 16) (desc : BitVec 512) (data : List Byte) (parts : Option Vintage) (s : State) (q0 : State) (hw : within [.mode, .laneState, .life, .press, .raa, .eic, .chk, .staging, .mbx, .bank, .boot, .bist, .link, .sluices, .ports, .lifetime, .log, .hostMem, .free] ps = true) (hk : changesOnly ps z s) :
    changesOnly ps z (thenState q0 (execStageProgram p q desc data parts s)) := by
  refine changes_step hw ?_ hk
  clear hk
  unfold execStageProgram
  dsimp only [thenState]
  repeat' first
    | with_reducible exact changesOnly_refl _ _
    | with_reducible apply chg_takeClass
    | with_reducible apply chg_stageData
    | (show within _ _ = true; decide)
    | (show ∀ q, _ → sameModule q _ _; intro p hp; (cases p <;> first | exact Bool.noConfusion (show true = false from hp) | exact trivial | rfl | exact ⟨rfl, rfl⟩ | exact ⟨rfl, rfl, rfl⟩))
    | split

theorem chg_execStageFirmware {ps : List Part} {z : State} (p : Port) (q : Fin 16) (desc second : BitVec 512) (data : List Byte) (signed : Option Bool) (s : State) (q0 : State) (hw : within [.mode, .laneState, .life, .press, .raa, .eic, .chk, .staging, .mbx, .bank, .boot, .bist, .link, .sluices, .ports, .lifetime, .log, .hostMem, .free] ps = true) (hk : changesOnly ps z s) :
    changesOnly ps z (thenState q0 (execStageFirmware p q desc second data signed s)) := by
  refine changes_step hw ?_ hk
  clear hk
  unfold execStageFirmware
  dsimp only [thenState]
  repeat' first
    | with_reducible exact changesOnly_refl _ _
    | with_reducible apply chg_takeClass
    | with_reducible apply chg_stageData
    | (show within _ _ = true; decide)
    | (show ∀ q, _ → sameModule q _ _; intro p hp; (cases p <;> first | exact Bool.noConfusion (show true = false from hp) | exact trivial | rfl | exact ⟨rfl, rfl⟩ | exact ⟨rfl, rfl, rfl⟩))
    | split

theorem chg_execImageBuildDone {ps : List Part} {z : State} (l : Lane) (signed writeOk : Bool) (s : State) (q0 : State) (hw : within [.laneState, .life, .press, .raa, .sessions, .fieldIn, .eic, .chk, .staging, .mbx, .bank, .boot, .bist, .rail, .link, .times, .sluices, .ports, .lifetime, .log] ps = true) (hk : changesOnly ps z s) :
    changesOnly ps z (thenState q0 (execImageBuildDone l signed writeOk s)) := by
  refine changes_step hw ?_ hk
  clear hk
  unfold execImageBuildDone
  dsimp only [thenState]
  repeat' first
    | with_reducible exact changesOnly_refl _ _
    | with_reducible apply chg_enterTest
    | with_reducible apply chg_endUpdate
    | with_reducible apply chg_resetOne
    | with_reducible apply changes_modLane
    | (rw [mk_withRest]; with_reducible apply changes_withRest)
    | (show within _ _ = true; decide)
    | (show laneOnly _ _ _; intro p hp; (cases p <;> first | exact Bool.noConfusion (show true = false from hp) | exact trivial | rfl | exact ⟨rfl, rfl⟩ | exact ⟨rfl, rfl, rfl⟩))
    | (show laneOnly _ _ _; intro p hp; ((repeat' split) <;> cases p <;> first | exact Bool.noConfusion (show true = false from hp) | exact trivial | rfl | exact ⟨rfl, rfl⟩ | exact ⟨rfl, rfl, rfl⟩))
    | (show ∀ q, _ → sameModule q _ _; intro p hp; (cases p <;> first | exact Bool.noConfusion (show true = false from hp) | exact trivial | rfl | exact ⟨rfl, rfl⟩ | exact ⟨rfl, rfl, rfl⟩))
    | split

theorem chg_romRecord {ps : List Part} {z : State} (s : State) (reason : Nat) (path : Byte) (v : Word) (hw : within [.eic, .staging, .ports, .log] ps = true) (hk : changesOnly ps z s) :
    changesOnly ps z (romRecord s reason path v) := by
  refine changes_step hw ?_ hk
  clear hk
  unfold romRecord
  try dsimp only
  repeat' first
    | with_reducible exact changesOnly_refl _ _
    | with_reducible apply chg_recordLane
    | (show within _ _ = true; decide)
    | (show ∀ q, _ → sameModule q _ _; intro p hp; (cases p <;> first | exact Bool.noConfusion (show true = false from hp) | exact trivial | rfl | exact ⟨rfl, rfl⟩ | exact ⟨rfl, rfl, rfl⟩))
    | split

theorem chg_romTake {ps : List Part} {z : State} (s : State) (l : Lane) (i : FwImage) (path : Byte) (hw : within [.eic, .staging, .boot, .ports, .log] ps = true) (hk : changesOnly ps z s) :
    changesOnly ps z (romTake s l i path) := by
  refine changes_step hw ?_ hk
  clear hk
  unfold romTake
  try dsimp only
  repeat' first
    | with_reducible exact changesOnly_refl _ _
    | with_reducible apply chg_romRecord
    | with_reducible apply changes_modLane
    | (show within _ _ = true; decide)
    | (show laneOnly _ _ _; intro p hp; (cases p <;> first | exact Bool.noConfusion (show true = false from hp) | exact trivial | rfl | exact ⟨rfl, rfl⟩ | exact ⟨rfl, rfl, rfl⟩))
    | split

theorem chg_execUpdRomStart {ps : List Part} {z : State} (l : Lane) (image : FwImage) (s : State) (q0 : State) (hw : within [.eic, .staging, .boot, .ports, .log] ps = true) (hk : changesOnly ps z s) :
    changesOnly ps z (thenState q0 (execUpdRomStart l image s)) := by
  refine changes_step hw ?_ hk
  clear hk
  unfold execUpdRomStart
  dsimp only [thenState]
  repeat' first
    | with_reducible exact changesOnly_refl _ _
    | with_reducible apply chg_romTake
    | (show within _ _ = true; decide)
    | (show ∀ q, _ → sameModule q _ _; intro p hp; (cases p <;> first | exact Bool.noConfusion (show true = false from hp) | exact trivial | rfl | exact ⟨rfl, rfl⟩ | exact ⟨rfl, rfl, rfl⟩))
    | split

theorem chg_execServicePortRomImage {ps : List Part} {z : State} (l : Lane) (image : FwImage) (s : State) (q0 : State) (hw : within [.eic, .staging, .boot, .ports, .log] ps = true) (hk : changesOnly ps z s) :
    changesOnly ps z (thenState q0 (execServicePortRomImage l image s)) := by
  refine changes_step hw ?_ hk
  clear hk
  unfold execServicePortRomImage
  dsimp only [thenState]
  repeat' first
    | with_reducible exact changesOnly_refl _ _
    | with_reducible apply chg_romTake
    | (show within _ _ = true; decide)
    | split

theorem chg_recoveryEnds {ps : List Part} {z : State} (s : State) (hw : within [.mode, .eic, .staging, .ports, .log, .free] ps = true) (hk : changesOnly ps z s) :
    changesOnly ps z (recoveryEnds s) := by
  refine changes_step hw ?_ hk
  clear hk
  unfold recoveryEnds
  try dsimp only
  repeat' first
    | with_reducible exact changesOnly_refl _ _
    | with_reducible apply chg_setModule
    | (show within _ _ = true; decide)
    | (show ∀ q, _ → sameModule q _ _; intro p hp; (cases p <;> first | exact Bool.noConfusion (show true = false from hp) | exact trivial | rfl | exact ⟨rfl, rfl⟩ | exact ⟨rfl, rfl, rfl⟩))
    | split

theorem chg_execRomImageWritten {ps : List Part} {z : State} (l : Lane) (readBackOk : Bool) (s : State) (q0 : State) (hw : within [.mode, .laneState, .life, .press, .raa, .sessions, .fieldIn, .eic, .chk, .staging, .mbx, .bank, .boot, .bist, .rail, .link, .times, .sluices, .ports, .lifetime, .log, .free] ps = true) (hk : changesOnly ps z s) :
    changesOnly ps z (thenState q0 (execRomImageWritten l readBackOk s)) := by
  refine changes_step hw ?_ hk
  clear hk
  unfold execRomImageWritten
  dsimp only [thenState]
  repeat' first
    | with_reducible exact changesOnly_refl _ _
    | with_reducible apply chg_addHistory
    | with_reducible apply chg_romRecord
    | with_reducible apply chg_recoveryEnds
    | with_reducible apply chg_resetOne
    | with_reducible apply changes_modLane
    | (rw [mk_withRest]; with_reducible apply changes_withRest)
    | (show within _ _ = true; decide)
    | (show laneOnly _ _ _; intro p hp; (cases p <;> first | exact Bool.noConfusion (show true = false from hp) | exact trivial | rfl | exact ⟨rfl, rfl⟩ | exact ⟨rfl, rfl, rfl⟩))
    | (show laneOnly _ _ _; intro p hp; ((repeat' split) <;> cases p <;> first | exact Bool.noConfusion (show true = false from hp) | exact trivial | rfl | exact ⟨rfl, rfl⟩ | exact ⟨rfl, rfl, rfl⟩))
    | (show ∀ q, _ → sameModule q _ _; intro p hp; (cases p <;> first | exact Bool.noConfusion (show true = false from hp) | exact trivial | rfl | exact ⟨rfl, rfl⟩ | exact ⟨rfl, rfl, rfl⟩))
    | split

theorem chg_rackRefused {ps : List Part} {z : State} (s : State) (l : Lane) (t : Taken) (status reason : Nat) (hw : within [.eic, .staging, .mbx, .bank, .ports, .log] ps = true) (hk : changesOnly ps z s) :
    changesOnly ps z (rackRefused s l t status reason) := by
  refine changes_step hw ?_ hk
  clear hk
  unfold rackRefused
  try dsimp only
  repeat' first
    | with_reducible exact changesOnly_refl _ _
    | with_reducible apply chg_recordLane
    | with_reducible apply chg_finishLane
    | with_reducible apply changes_modLane
    | (show within _ _ = true; decide)
    | (show laneOnly _ _ _; intro p hp; (cases p <;> first | exact Bool.noConfusion (show true = false from hp) | exact trivial | rfl | exact ⟨rfl, rfl⟩ | exact ⟨rfl, rfl, rfl⟩))

theorem chg_rackCheck {ps : List Part} {z : State} (s : State) (t : Taken) (hw : within [.eic, .staging, .mbx, .bank, .ports, .log] ps = true) (hk : changesOnly ps z s) :
    changesOnly ps z (rackCheck s t) := by
  refine changes_step hw ?_ hk
  clear hk
  unfold rackCheck
  try dsimp only
  repeat' first
    | with_reducible assumption
    | with_reducible exact changesOnly_refl _ _
    | with_reducible apply chg_rackRefused
    | with_reducible apply changes_foldS
    | with_reducible apply changes_modLane
    | (rw [mk_withRest]; with_reducible apply changes_withRest)
    | (show within _ _ = true; decide)
    | (show laneOnly _ _ _; intro p hp; (cases p <;> first | exact Bool.noConfusion (show true = false from hp) | exact trivial | rfl | exact ⟨rfl, rfl⟩ | exact ⟨rfl, rfl, rfl⟩))
    | (show laneOnly _ _ _; intro p hp; ((repeat' split) <;> cases p <;> first | exact Bool.noConfusion (show true = false from hp) | exact trivial | rfl | exact ⟨rfl, rfl⟩ | exact ⟨rfl, rfl, rfl⟩))
    | (show ∀ q, _ → sameModule q _ _; intro p hp; (cases p <;> first | exact Bool.noConfusion (show true = false from hp) | exact trivial | rfl | exact ⟨rfl, rfl⟩ | exact ⟨rfl, rfl, rfl⟩))
    | with_reducible apply changes_modLanes
    | (intro l; show laneOnly _ _ _; intro p hp; ((repeat' split) <;> cases p <;> first | exact Bool.noConfusion (show true = false from hp) | exact trivial | rfl | exact ⟨rfl, rfl⟩ | exact ⟨rfl, rfl, rfl⟩))
    | (with_reducible intro t x hk)
    | (with_reducible intro t hk)
    | split

theorem chg_switchLane {ps : List Part} {z : LaneState} (back : Bool) (now : Time) (L : LaneState) (hw : within [.press, .raa, .sessions, .staging, .bank] ps = true) (hk : laneOnly ps z L) :
    laneOnly ps z (switchLane back now L) := by
  refine laneOnly_step hw ?_ hk
  clear hk
  unfold switchLane
  try dsimp only
  repeat' first
    | with_reducible exact laneOnly_refl _ _
    | (show laneOnly _ _ _; intro p hp; (cases p <;> first | exact Bool.noConfusion (show true = false from hp) | exact trivial | rfl | exact ⟨rfl, rfl⟩ | exact ⟨rfl, rfl, rfl⟩))
    | (show laneOnly _ _ _; intro p hp; ((repeat' split) <;> cases p <;> first | exact Bool.noConfusion (show true = false from hp) | exact trivial | rfl | exact ⟨rfl, rfl⟩ | exact ⟨rfl, rfl, rfl⟩))
    | split

theorem chg_execVintageSwitch {ps : List Part} {z : State} (l : Lane) (s : State) (q0 : State) (hw : within [.press, .raa, .sessions, .staging, .bank, .alk] ps = true) (hk : changesOnly ps z s) :
    changesOnly ps z (thenState q0 (execVintageSwitch l s)) := by
  refine changes_step hw ?_ hk
  clear hk
  unfold execVintageSwitch
  dsimp only [thenState]
  repeat' first
    | with_reducible exact changesOnly_refl _ _
    | with_reducible apply changes_modLane
    | (rw [mk_withRest]; with_reducible apply changes_withRest)
    | (show within _ _ = true; decide)
    | with_reducible apply laneOnly_refl
    | with_reducible apply chg_switchLane
    | (show ∀ q, _ → sameModule q _ _; intro p hp; (cases p <;> first | exact Bool.noConfusion (show true = false from hp) | exact trivial | rfl | exact ⟨rfl, rfl⟩ | exact ⟨rfl, rfl, rfl⟩))
    | split

theorem chg_rackedLane {ps : List Part} {z : State} (s : State) (l : Lane) (hw : within [.eic, .staging, .mbx, .bank, .ports, .log] ps = true) (hk : changesOnly ps z s) :
    changesOnly ps z (rackedLane s l) := by
  refine changes_step hw ?_ hk
  clear hk
  unfold rackedLane
  try dsimp only
  repeat' first
    | with_reducible exact changesOnly_refl _ _
    | with_reducible apply chg_eventLane
    | with_reducible apply chg_finishLane
    | with_reducible apply changes_modLane
    | (rw [mk_withRest]; with_reducible apply changes_withRest)
    | (show within _ _ = true; decide)
    | (show laneOnly _ _ _; intro p hp; (cases p <;> first | exact Bool.noConfusion (show true = false from hp) | exact trivial | rfl | exact ⟨rfl, rfl⟩ | exact ⟨rfl, rfl, rfl⟩))
    | (show laneOnly _ _ _; intro p hp; ((repeat' split) <;> cases p <;> first | exact Bool.noConfusion (show true = false from hp) | exact trivial | rfl | exact ⟨rfl, rfl⟩ | exact ⟨rfl, rfl, rfl⟩))
    | (show ∀ q, _ → sameModule q _ _; intro p hp; (cases p <;> first | exact Bool.noConfusion (show true = false from hp) | exact trivial | rfl | exact ⟨rfl, rfl⟩ | exact ⟨rfl, rfl, rfl⟩))
    | split

theorem chg_rackFinish {ps : List Part} {z : State} (s : State) (hw : within [.eic, .staging, .mbx, .bank, .ports, .lifetime, .log] ps = true) (hk : changesOnly ps z s) :
    changesOnly ps z (rackFinish s) := by
  refine changes_step hw ?_ hk
  clear hk
  unfold rackFinish
  try dsimp only
  repeat' first
    | with_reducible assumption
    | with_reducible exact changesOnly_refl _ _
    | with_reducible apply chg_addHistory
    | with_reducible apply chg_rackedLane
    | with_reducible apply changes_foldS
    | with_reducible apply changes_modPages
    | (rw [mk_withRest]; with_reducible apply changes_withRest)
    | (show within _ _ = true; decide)
    | (show List.contains _ _ = true; decide)
    | (show ∀ q, _ → sameModule q _ _; intro p hp; (cases p <;> first | exact Bool.noConfusion (show true = false from hp) | exact trivial | rfl | exact ⟨rfl, rfl⟩ | exact ⟨rfl, rfl, rfl⟩))
    | with_reducible apply changes_modLife
    | (with_reducible intro t x hk)
    | (with_reducible intro t hk)
    | split

theorem chg_dropSwitch {ps : List Part} {z : State} (s : State) (hw : within [.bank] ps = true) (hk : changesOnly ps z s) :
    changesOnly ps z (dropSwitch s) := by
  refine changes_step hw ?_ hk
  clear hk
  unfold dropSwitch
  try dsimp only
  repeat' first
    | with_reducible exact changesOnly_refl _ _
    | with_reducible apply changes_modLanes
    | (intro l; show laneOnly _ _ _; intro p hp; (cases p <;> first | exact Bool.noConfusion (show true = false from hp) | exact trivial | rfl | exact ⟨rfl, rfl⟩ | exact ⟨rfl, rfl, rfl⟩))

theorem chg_execPreviousExpired {ps : List Part} {z : State} (s : State) (q0 : State) (hw : within [.bank] ps = true) (hk : changesOnly ps z s) :
    changesOnly ps z (thenState q0 (execPreviousExpired s)) := by
  refine changes_step hw ?_ hk
  clear hk
  unfold execPreviousExpired
  dsimp only [thenState]
  repeat' first
    | with_reducible exact changesOnly_refl _ _
    | with_reducible apply changes_modLanes
    | (rw [mk_withRest]; with_reducible apply changes_withRest)
    | (intro l; show laneOnly _ _ _; intro p hp; ((repeat' split) <;> cases p <;> first | exact Bool.noConfusion (show true = false from hp) | exact trivial | rfl | exact ⟨rfl, rfl⟩ | exact ⟨rfl, rfl, rfl⟩))
    | (show ∀ q, _ → sameModule q _ _; intro p hp; (cases p <;> first | exact Bool.noConfusion (show true = false from hp) | exact trivial | rfl | exact ⟨rfl, rfl⟩ | exact ⟨rfl, rfl, rfl⟩))
    | split

theorem chg_romTick {ps : List Part} {z : State} (s : State) (l : Lane) (hw : within [.boot, .free] ps = true) (hk : changesOnly ps z s) :
    changesOnly ps z (romTick s l) := by
  refine changes_step hw ?_ hk
  clear hk
  unfold romTick
  try dsimp only
  repeat' first
    | with_reducible exact changesOnly_refl _ _
    | with_reducible apply changes_modLane
    | (rw [mk_withRest]; with_reducible apply changes_withRest)
    | (show laneOnly _ _ _; intro p hp; (cases p <;> first | exact Bool.noConfusion (show true = false from hp) | exact trivial | rfl | exact ⟨rfl, rfl⟩ | exact ⟨rfl, rfl, rfl⟩))
    | (show laneOnly _ _ _; intro p hp; ((repeat' split) <;> cases p <;> first | exact Bool.noConfusion (show true = false from hp) | exact trivial | rfl | exact ⟨rfl, rfl⟩ | exact ⟨rfl, rfl, rfl⟩))
    | (show ∀ q, _ → sameModule q _ _; intro p hp; (cases p <;> first | exact Bool.noConfusion (show true = false from hp) | exact trivial | rfl | exact ⟨rfl, rfl⟩ | exact ⟨rfl, rfl, rfl⟩))
    | split

end Sys2Proof.Laws
end

