-- ==== Sys2Proof/Laws/ChangesTick.lean ====
section
/-!
SUPPORT. The parts of the state that every operation of the cycle may change (Safety.changesOnly), one lemma for each operation
and for each command.
-/

namespace Sys2Proof.Laws

open Sys2Proof.Machine Sys2Proof.Safety

theorem chg_formQueue {ps : List Part} {z : LaneState} (L : LaneState) (host : List QEntry) (hw : within [.press, .raa] ps = true) (hk : laneOnly ps z L) :
    laneOnly ps z (formQueue L host) := by
  refine laneOnly_step hw ?_ hk
  clear hk
  unfold formQueue
  try dsimp only
  repeat' first
    | (show laneOnly _ _ _; intro p hp; (cases p <;> first | exact Bool.noConfusion (show true = false from hp) | exact trivial | rfl | exact ⟨rfl, rfl⟩ | exact ⟨rfl, rfl, rfl⟩))

theorem chg_refuseStarted {ps : List Part} {z : State} (s : State) (l : Lane) (hw : within [.press, .raa, .mbx, .bank] ps = true) (hk : changesOnly ps z s) :
    changesOnly ps z (refuseStarted s l) := by
  refine changes_step hw ?_ hk
  clear hk
  unfold refuseStarted
  try dsimp only
  repeat' first
    | with_reducible assumption
    | with_reducible exact changesOnly_refl _ _
    | with_reducible apply chg_finishLane
    | with_reducible apply changes_foldS
    | with_reducible apply changes_modLane
    | (rw [mk_withRest]; with_reducible apply changes_withRest)
    | (show within _ _ = true; decide)
    | (show laneOnly _ _ _; intro p hp; (cases p <;> first | exact Bool.noConfusion (show true = false from hp) | exact trivial | rfl | exact ⟨rfl, rfl⟩ | exact ⟨rfl, rfl, rfl⟩))
    | (show laneOnly _ _ _; intro p hp; ((repeat' split) <;> cases p <;> first | exact Bool.noConfusion (show true = false from hp) | exact trivial | rfl | exact ⟨rfl, rfl⟩ | exact ⟨rfl, rfl, rfl⟩))
    | (show ∀ q, _ → sameModule q _ _; intro p hp; (cases p <;> first | exact Bool.noConfusion (show true = false from hp) | exact trivial | rfl | exact ⟨rfl, rfl⟩ | exact ⟨rfl, rfl, rfl⟩))
    | (with_reducible intro t x hk)
    | (with_reducible intro t hk)
    | split

theorem chg_laneBatch {ps : List Part} {z : State} (s : State) (l : Lane) (hw : within [.press, .raa, .mbx, .bank] ps = true) (hk : changesOnly ps z s) :
    changesOnly ps z (laneBatch s l) := by
  refine changes_step hw ?_ hk
  clear hk
  unfold laneBatch
  try dsimp only
  repeat' first
    | with_reducible assumption
    | with_reducible exact changesOnly_refl _ _
    | with_reducible exact laneOnly_refl _ _
    | with_reducible apply chg_finishLane
    | with_reducible apply chg_formQueue
    | with_reducible apply chg_refuseStarted
    | (intro l; with_reducible apply chg_formQueue)
    | with_reducible apply changes_foldS
    | with_reducible apply changes_modLane
    | (rw [mk_withRest]; with_reducible apply changes_withRest)
    | (show within _ _ = true; decide)
    | (show laneOnly _ _ _; intro p hp; (cases p <;> first | exact Bool.noConfusion (show true = false from hp) | exact trivial | rfl | exact ⟨rfl, rfl⟩ | exact ⟨rfl, rfl, rfl⟩))
    | (show laneOnly _ _ _; intro p hp; ((repeat' split) <;> cases p <;> first | exact Bool.noConfusion (show true = false from hp) | exact trivial | rfl | exact ⟨rfl, rfl⟩ | exact ⟨rfl, rfl, rfl⟩))
    | (show ∀ q, _ → sameModule q _ _; intro p hp; (cases p <;> first | exact Bool.noConfusion (show true = false from hp) | exact trivial | rfl | exact ⟨rfl, rfl⟩ | exact ⟨rfl, rfl, rfl⟩))
    | with_reducible apply laneOnly_refl
    | (with_reducible intro t x hk)
    | (with_reducible intro t hk)
    | split

theorem chg_shiftLane {ps : List Part} {z : LaneState} (d : Int) (L : LaneState) (hw : within [.press, .raa, .sessions, .bank] ps = true) (hk : laneOnly ps z L) :
    laneOnly ps z (shiftLane d L) := by
  refine laneOnly_step hw ?_ hk
  clear hk
  unfold shiftLane
  try dsimp only
  repeat' first
    | with_reducible exact laneOnly_refl _ _
    | (show laneOnly _ _ _; intro p hp; (cases p <;> first | exact Bool.noConfusion (show true = false from hp) | exact trivial | rfl | exact ⟨rfl, rfl⟩ | exact ⟨rfl, rfl, rfl⟩))
    | (show laneOnly _ _ _; intro p hp; ((repeat' split) <;> cases p <;> first | exact Bool.noConfusion (show true = false from hp) | exact trivial | rfl | exact ⟨rfl, rfl⟩ | exact ⟨rfl, rfl, rfl⟩))
    | split

theorem chg_applyTime {ps : List Part} {z : State} (s : State) (r : HostRef) (new : Time) (hw : within [.clock, .press, .raa, .sessions, .eic, .staging, .bank, .alk, .ports, .lifetime, .log] ps = true) (hk : changesOnly ps z s) :
    changesOnly ps z (applyTime s r new) := by
  refine changes_step hw ?_ hk
  clear hk
  unfold applyTime
  try dsimp only
  repeat' first
    | with_reducible assumption
    | with_reducible exact changesOnly_refl _ _
    | with_reducible apply chg_addHistory
    | with_reducible apply chg_recordLane
    | with_reducible apply changes_modLanes
    | with_reducible apply changes_modLife
    | with_reducible apply changes_foldS
    | (rw [mk_withRest]; with_reducible apply changes_withRest)
    | (show within _ _ = true; decide)
    | (show List.contains _ _ = true; decide)
    | with_reducible apply laneOnly_refl
    | (intro l; with_reducible apply chg_shiftLane)
    | (show ∀ q, _ → sameModule q _ _; intro p hp; (cases p <;> first | exact Bool.noConfusion (show true = false from hp) | exact trivial | rfl | exact ⟨rfl, rfl⟩ | exact ⟨rfl, rfl, rfl⟩))
    | (with_reducible intro t x hk)

theorem chg_startTests {ps : List Part} {z : State} (s : State) (hw : within [.clock, .sluices] ps = true) (hk : changesOnly ps z s) :
    changesOnly ps z (startTests s) := by
  refine changes_step hw ?_ hk
  clear hk
  unfold startTests
  try dsimp only
  repeat' first
    | with_reducible exact changesOnly_refl _ _
    | with_reducible apply changes_modSluices
    | (rw [mk_withRest]; with_reducible apply changes_withRest)
    | (show List.contains _ _ = true; decide)
    | (show ∀ q, _ → sameModule q _ _; intro p hp; (cases p <;> first | exact Bool.noConfusion (show true = false from hp) | exact trivial | rfl | exact ⟨rfl, rfl⟩ | exact ⟨rfl, rfl, rfl⟩))

theorem chg_confirmNow {ps : List Part} {z : State} (s : State) (t : Taken) (hw : within [.mode, .clock, .eic, .staging, .mbx, .sluices, .ports, .lifetime, .log, .free] ps = true) (hk : changesOnly ps z s) :
    changesOnly ps z (confirmNow s t) := by
  refine changes_step hw ?_ hk
  clear hk
  unfold confirmNow
  try dsimp only
  repeat' first
    | with_reducible assumption
    | with_reducible exact changesOnly_refl _ _
    | with_reducible apply chg_recordLane
    | with_reducible apply chg_addHistory
    | with_reducible apply chg_setModule
    | with_reducible apply chg_finishAll
    | with_reducible apply chg_startTests
    | with_reducible apply changes_foldS
    | with_reducible apply changes_modPages
    | (rw [mk_withRest]; with_reducible apply changes_withRest)
    | (show within _ _ = true; decide)
    | (show List.contains _ _ = true; decide)
    | (show ∀ q, _ → sameModule q _ _; intro p hp; (cases p <;> first | exact Bool.noConfusion (show true = false from hp) | exact trivial | rfl | exact ⟨rfl, rfl⟩ | exact ⟨rfl, rfl, rfl⟩))
    | with_reducible apply changes_modLife
    | (with_reducible intro t x hk)
    | (with_reducible intro t hk)
    | split

theorem chg_celClear {ps : List Part} {z : State} (s : State) (r : HostRef) (kv : BitVec 16) (nonce : BitVec 64)
    (hw : within [.eic, .staging, .ports, .lifetime, .log] ps = true) (hk : changesOnly ps z s) :
    changesOnly ps z (celClear s r kv nonce).1 := by
  refine changes_step hw (?_ : changesOnly [.eic, .staging, .ports, .lifetime, .log] s (celClear s r kv nonce).1) hk
  have hk := changesOnly_refl [.eic, .staging, .ports, .lifetime, .log] s
  unfold celClear
  split
  · exact hk
  · exact chg_clearLog _ _ _ _ _ rfl (chg_dropStaging _ rfl (chg_dueFlushes _ rfl hk))

theorem chg_clearNow {ps : List Part} {z : State} (s : State) (t : Taken) (hw : within [.eic, .staging, .mbx, .ports, .lifetime, .log] ps = true) (hk : changesOnly ps z s) :
    changesOnly ps z (clearNow s t) := by
  refine changes_step hw ?_ hk
  clear hk
  unfold clearNow
  try dsimp only
  repeat' first
    | with_reducible apply chg_celClear
    | with_reducible exact changesOnly_refl _ _
    | with_reducible apply chg_finishAll
    | (show within _ _ = true; decide)

theorem chg_actAtTick {ps : List Part} {z : State} (s : State) (t : Taken) (hw : within [.mode, .clock, .laneState, .life, .press, .raa, .sessions, .eic, .chk, .staging, .mbx, .bank, .boot, .bist, .link, .sluices, .alk, .ports, .lifetime, .log, .free] ps = true) (hk : changesOnly ps z s) :
    changesOnly ps z (actAtTick s t) := by
  refine changes_step hw ?_ hk
  clear hk
  unfold actAtTick
  try dsimp only
  repeat' first
    | with_reducible exact changesOnly_refl _ _
    | with_reducible apply chg_finishAll
    | with_reducible apply chg_applyTime
    | with_reducible apply chg_clearNow
    | with_reducible apply chg_runChunk
    | with_reducible apply chg_confirmNow
    | (show within _ _ = true; decide)
    | split

theorem chg_hostTick {ps : List Part} {z : State} (s : State) (hw : within [.mode, .clock, .laneState, .life, .press, .raa, .sessions, .eic, .chk, .staging, .mbx, .bank, .boot, .bist, .link, .sluices, .alk, .ports, .lifetime, .log, .free] ps = true) (hk : changesOnly ps z s) :
    changesOnly ps z (hostTick s) := by
  refine changes_step hw ?_ hk
  clear hk
  unfold hostTick
  try dsimp only
  repeat' first
    | with_reducible assumption
    | with_reducible exact changesOnly_refl _ _
    | with_reducible apply chg_laneBatch
    | with_reducible apply chg_applyTime
    | with_reducible apply chg_actAtTick
    | with_reducible apply changes_foldS
    | (show within _ _ = true; decide)
    | (show ∀ q, _ → sameModule q _ _; intro p hp; (cases p <;> first | exact Bool.noConfusion (show true = false from hp) | exact trivial | rfl | exact ⟨rfl, rfl⟩ | exact ⟨rfl, rfl, rfl⟩))
    | (with_reducible intro t x hk)
    | (with_reducible intro t hk)
    | split

theorem chg_admitHost {ps : List Part} {z : State} (v : Vintage) (s : State) (l : Lane) (i opt : Nat)
    (hw : within [.sessions, .eic, .staging, .ports, .log] ps = true) (hk : changesOnly ps z s) :
    changesOnly ps z (admitHost v s l i opt).1 := by
  unfold admitHost
  dsimp only
  split
  · split
    · exact chg_clearSession _ _ _ (within_trans (by decide) hw) hk
    · exact hk
  · split
    · exact chg_readmit _ _ _ (within_trans (by decide) hw) hk
    · exact hk

theorem chg_admitOne {ps : List Part} {z : State} (v : Vintage) (l : Lane) (s : State) (t : Taken) (hw : within [.sessions, .eic, .staging, .mbx, .ports, .log] ps = true) (hk : changesOnly ps z s) :
    changesOnly ps z (admitOne v l s t) := by
  refine changes_step hw ?_ hk
  clear hk
  unfold admitOne
  try dsimp only
  repeat' first
    | with_reducible apply chg_admitHost
    | with_reducible exact changesOnly_refl _ _
    | with_reducible apply chg_finishLane
    | (show within _ _ = true; decide)

theorem chg_admitBatch {ps : List Part} {z : State} (v : Vintage) (s : State) (l : Lane) (hw : within [.sessions, .eic, .staging, .mbx, .ports, .log] ps = true) (hk : changesOnly ps z s) :
    changesOnly ps z (admitBatch v s l) := by
  refine changes_step hw ?_ hk
  clear hk
  unfold admitBatch
  try dsimp only
  repeat' first
    | with_reducible assumption
    | with_reducible exact changesOnly_refl _ _
    | with_reducible apply chg_admitOne
    | with_reducible apply changes_foldS
    | (show within _ _ = true; decide)
    | (show ∀ q, _ → sameModule q _ _; intro p hp; (cases p <;> first | exact Bool.noConfusion (show true = false from hp) | exact trivial | rfl | exact ⟨rfl, rfl⟩ | exact ⟨rfl, rfl, rfl⟩))
    | (with_reducible intro t x hk)
    | (with_reducible intro t hk)
    | split

theorem chg_startStage {ps : List Part} {z : State} (s : State) (t : Taken) (hw : within [.mode, .laneState, .life, .press, .raa, .eic, .chk, .staging, .mbx, .bank, .boot, .bist, .link, .sluices, .ports, .lifetime, .log, .free] ps = true) (hk : changesOnly ps z s) :
    changesOnly ps z (startStage s t) := by
  refine changes_step hw ?_ hk
  clear hk
  unfold startStage
  try dsimp only
  repeat' first
    | with_reducible exact changesOnly_refl _ _
    | with_reducible apply chg_finishAll
    | with_reducible apply chg_runChunk
    | (show within _ _ = true; decide)
    | (show ∀ q, _ → sameModule q _ _; intro p hp; (cases p <;> first | exact Bool.noConfusion (show true = false from hp) | exact trivial | rfl | exact ⟨rfl, rfl⟩ | exact ⟨rfl, rfl, rfl⟩))
    | split

theorem chg_releaseStages {ps : List Part} {z : State} (s : State) (hw : within [.mode, .laneState, .life, .press, .raa, .eic, .chk, .staging, .mbx, .bank, .boot, .bist, .link, .sluices, .ports, .lifetime, .log, .free] ps = true) (hk : changesOnly ps z s) :
    changesOnly ps z (releaseStages s) := by
  refine changes_step hw ?_ hk
  clear hk
  unfold releaseStages
  try dsimp only
  repeat' first
    | with_reducible assumption
    | with_reducible exact changesOnly_refl _ _
    | with_reducible apply chg_startStage
    | with_reducible apply changes_foldS
    | with_reducible apply changes_modLanes
    | (rw [mk_withRest]; with_reducible apply changes_withRest)
    | (show within _ _ = true; decide)
    | (intro l; show laneOnly _ _ _; intro p hp; ((repeat' split) <;> cases p <;> first | exact Bool.noConfusion (show true = false from hp) | exact trivial | rfl | exact ⟨rfl, rfl⟩ | exact ⟨rfl, rfl, rfl⟩))
    | (show ∀ q, _ → sameModule q _ _; intro p hp; (cases p <;> first | exact Bool.noConfusion (show true = false from hp) | exact trivial | rfl | exact ⟨rfl, rfl⟩ | exact ⟨rfl, rfl, rfl⟩))
    | (intro l; show laneOnly _ _ _; intro p hp; (cases p <;> first | exact Bool.noConfusion (show true = false from hp) | exact trivial | rfl | exact ⟨rfl, rfl⟩ | exact ⟨rfl, rfl, rfl⟩))
    | (with_reducible intro t x hk)
    | (with_reducible intro t hk)
    | split

theorem chg_closeReports {ps : List Part} {z : LaneState} (L : LaneState) (hw : within [.press, .raa, .times] ps = true) (hk : laneOnly ps z L) :
    laneOnly ps z (closeReports L) := by
  refine laneOnly_step hw ?_ hk
  clear hk
  unfold closeReports
  try dsimp only
  repeat' first
    | with_reducible exact laneOnly_refl _ _
    | (show laneOnly _ _ _; intro p hp; (cases p <;> first | exact Bool.noConfusion (show true = false from hp) | exact trivial | rfl | exact ⟨rfl, rfl⟩ | exact ⟨rfl, rfl, rfl⟩))
    | (show laneOnly _ _ _; intro p hp; ((repeat' split) <;> cases p <;> first | exact Bool.noConfusion (show true = false from hp) | exact trivial | rfl | exact ⟨rfl, rfl⟩ | exact ⟨rfl, rfl, rfl⟩))
    | split

theorem chg_clearEnded {ps : List Part} {z : LaneState} (L : LaneState) (hw : within [.press] ps = true) (hk : laneOnly ps z L) :
    laneOnly ps z (clearEnded L) := by
  refine laneOnly_step hw ?_ hk
  clear hk
  unfold clearEnded
  try dsimp only
  repeat' first
    | with_reducible exact laneOnly_refl _ _
    | (show laneOnly _ _ _; intro p hp; (cases p <;> first | exact Bool.noConfusion (show true = false from hp) | exact trivial | rfl | exact ⟨rfl, rfl⟩ | exact ⟨rfl, rfl, rfl⟩))
    | (show laneOnly _ _ _; intro p hp; ((repeat' split) <;> cases p <;> first | exact Bool.noConfusion (show true = false from hp) | exact trivial | rfl | exact ⟨rfl, rfl⟩ | exact ⟨rfl, rfl, rfl⟩))
    | split

theorem chg_keepDigest {ps : List Part} {z : State} (s : State) (hw : within [.twin] ps = true) (hk : changesOnly ps z s) :
    changesOnly ps z (keepDigest s) := by
  refine changes_step hw ?_ hk
  clear hk
  unfold keepDigest
  try dsimp only
  repeat' first
    | with_reducible exact changesOnly_refl _ _
    | with_reducible apply chg_modTwin
    | (show within _ _ = true; decide)
    | split

theorem chg_closeCycle {ps : List Part} {z : State} (s : State) (hw : within [.press, .raa, .eic, .times, .ports, .twin] ps = true) (hk : changesOnly ps z s) :
    changesOnly ps z (closeCycle s) := by
  refine changes_step hw ?_ hk
  clear hk
  unfold closeCycle
  try dsimp only
  repeat' first
    | with_reducible exact changesOnly_refl _ _
    | with_reducible exact laneOnly_refl _ _
    | with_reducible apply chg_eicLevelAll
    | with_reducible apply chg_closeReports
    | with_reducible apply chg_clearEnded
    | with_reducible apply chg_keepDigest
    | (intro l; with_reducible apply chg_closeReports)
    | (intro l; with_reducible apply chg_clearEnded)
    | with_reducible apply changes_modLanes
    | (show within _ _ = true; decide)
    | (intro l; show laneOnly _ _ _; intro p hp; ((repeat' split) <;> cases p <;> first | exact Bool.noConfusion (show true = false from hp) | exact trivial | rfl | exact ⟨rfl, rfl⟩ | exact ⟨rfl, rfl, rfl⟩))
    | (show ∀ q, _ → sameModule q _ _; intro p hp; (cases p <;> first | exact Bool.noConfusion (show true = false from hp) | exact trivial | rfl | exact ⟨rfl, rfl⟩ | exact ⟨rfl, rfl, rfl⟩))
    | split

theorem chg_nextCount {ps : List Part} {z : State} (s : State) (hw : within [.clock] ps = true) (hk : changesOnly ps z s) :
    changesOnly ps z (nextCount s) := by
  refine changes_step hw ?_ hk
  clear hk
  unfold nextCount
  try dsimp only
  repeat' first
    | with_reducible exact changesOnly_refl _ _
    | (rw [mk_withRest]; with_reducible apply changes_withRest)
    | (show ∀ q, _ → sameModule q _ _; intro p hp; (cases p <;> first | exact Bool.noConfusion (show true = false from hp) | exact trivial | rfl | exact ⟨rfl, rfl⟩ | exact ⟨rfl, rfl, rfl⟩))

theorem chg_countTime {ps : List Part} {z : State} (s : State) (hw : within [.lifetime] ps = true) (hk : changesOnly ps z s) :
    changesOnly ps z (countTime s) := by
  refine changes_step hw ?_ hk
  clear hk
  unfold countTime
  try dsimp only
  repeat' first
    | with_reducible exact changesOnly_refl _ _
    | with_reducible apply changes_modLife
    | (show List.contains _ _ = true; decide)

theorem chg_notePage2 {ps : List Part} {z : State} (s : State) (l : Lane) (hw : within [.lifetime] ps = true) (hk : changesOnly ps z s) :
    changesOnly ps z (notePage2 s l) := by
  refine changes_step hw ?_ hk
  clear hk
  unfold notePage2
  try dsimp only
  repeat' first
    | with_reducible exact changesOnly_refl _ _
    | with_reducible apply changes_modLife
    | (rw [mk_withRest]; with_reducible apply changes_withRest)
    | (show List.contains _ _ = true; decide)
    | (show ∀ q, _ → sameModule q _ _; intro p hp; (cases p <;> first | exact Bool.noConfusion (show true = false from hp) | exact trivial | rfl | exact ⟨rfl, rfl⟩ | exact ⟨rfl, rfl, rfl⟩))
    | split

theorem chg_measureAll {ps : List Part} {z : State} (s : State) (hw : within [.rail, .lifetime, .free] ps = true) (hk : changesOnly ps z s) :
    changesOnly ps z (measureAll s) := by
  refine changes_step hw ?_ hk
  clear hk
  unfold measureAll
  try dsimp only
  repeat' first
    | with_reducible assumption
    | with_reducible exact changesOnly_refl _ _
    | with_reducible apply chg_notePage2
    | with_reducible apply changes_modLane
    | with_reducible apply changes_modLife
    | with_reducible apply changes_foldS
    | (rw [mk_withRest]; with_reducible apply changes_withRest)
    | (show within _ _ = true; decide)
    | (show List.contains _ _ = true; decide)
    | (show laneOnly _ _ _; intro p hp; (cases p <;> first | exact Bool.noConfusion (show true = false from hp) | exact trivial | rfl | exact ⟨rfl, rfl⟩ | exact ⟨rfl, rfl, rfl⟩))
    | (show ∀ q, _ → sameModule q _ _; intro p hp; (cases p <;> first | exact Bool.noConfusion (show true = false from hp) | exact trivial | rfl | exact ⟨rfl, rfl⟩ | exact ⟨rfl, rfl, rfl⟩))
    | (with_reducible intro t x hk)
    | split

theorem chg_nextKeeper {ps : List Part} {z : State} (s : State) (hw : within [.log] ps = true) (hk : changesOnly ps z s) :
    changesOnly ps z (nextKeeper s) := by
  refine changes_step hw ?_ hk
  clear hk
  unfold nextKeeper
  try dsimp only
  repeat' first
    | with_reducible exact changesOnly_refl _ _
    | (rw [mk_withCellar]; with_reducible apply changes_withCellar)
    | (rw [mk_withRest]; with_reducible apply changes_withRest)
    | (show ∀ q, _ → sameModule q _ _; intro p hp; (cases p <;> first | exact Bool.noConfusion (show true = false from hp) | exact trivial | rfl | exact ⟨rfl, rfl⟩ | exact ⟨rfl, rfl, rfl⟩))
    | split

theorem chg_startLane {ps : List Part} {z : State} (s : State) (l : Lane) (hw : within [.laneState, .life, .eic, .staging, .sluices, .ports, .log] ps = true) (hk : changesOnly ps z s) :
    changesOnly ps z (startLane s l) := by
  refine changes_step hw ?_ hk
  clear hk
  unfold startLane
  try dsimp only
  repeat' first
    | with_reducible exact changesOnly_refl _ _
    | with_reducible apply chg_eventAll
    | with_reducible apply changes_modLane
    | with_reducible apply changes_modSluices
    | (show within _ _ = true; decide)
    | (show List.contains _ _ = true; decide)
    | (show laneOnly _ _ _; intro p hp; (cases p <;> first | exact Bool.noConfusion (show true = false from hp) | exact trivial | rfl | exact ⟨rfl, rfl⟩ | exact ⟨rfl, rfl, rfl⟩))

theorem chg_countStart {ps : List Part} {z : State} (s : State) (hw : within [.lifetime, .free] ps = true) (hk : changesOnly ps z s) :
    changesOnly ps z (countStart s) := by
  refine changes_step hw ?_ hk
  clear hk
  unfold countStart
  try dsimp only
  repeat' first
    | with_reducible exact changesOnly_refl _ _
    | with_reducible apply changes_modLife
    | (rw [mk_withRest]; with_reducible apply changes_withRest)
    | (show List.contains _ _ = true; decide)
    | (show ∀ q, _ → sameModule q _ _; intro p hp; (cases p <;> first | exact Bool.noConfusion (show true = false from hp) | exact trivial | rfl | exact ⟨rfl, rfl⟩ | exact ⟨rfl, rfl, rfl⟩))
    | split

theorem chg_moduleStart {ps : List Part} {z : State} (s : State) (hw : within [.mode, .clock, .laneState, .life, .press, .raa, .eic, .staging, .bank, .bist, .link, .sluices, .ports, .lifetime, .log, .free] ps = true) (hk : changesOnly ps z s) :
    changesOnly ps z (moduleStart s) := by
  refine changes_step hw ?_ hk
  clear hk
  unfold moduleStart
  try dsimp only
  repeat' first
    | with_reducible assumption
    | with_reducible exact changesOnly_refl _ _
    | with_reducible apply chg_setModule
    | with_reducible apply chg_latchRule
    | with_reducible apply chg_startTests
    | with_reducible apply chg_floorRaise
    | with_reducible apply chg_startLane
    | with_reducible apply chg_countStart
    | with_reducible apply changes_foldS
    | (rw [mk_withRest]; with_reducible apply changes_withRest)
    | (show within _ _ = true; decide)
    | (show ∀ q, _ → sameModule q _ _; intro p hp; (cases p <;> first | exact Bool.noConfusion (show true = false from hp) | exact trivial | rfl | exact ⟨rfl, rfl⟩ | exact ⟨rfl, rfl, rfl⟩))
    | with_reducible apply changes_modLife
    | (show List.contains _ _ = true; decide)
    | (with_reducible intro t x hk)
    | (with_reducible intro t hk)
    | split

theorem chg_bootTick {ps : List Part} {z : State} (s : State) (first : Bool) (hw : within [.mode, .clock, .laneState, .life, .press, .raa, .eic, .staging, .bank, .bist, .link, .sluices, .ports, .lifetime, .log, .free] ps = true) (hk : changesOnly ps z s) :
    changesOnly ps z (bootTick s first) := by
  refine changes_step hw ?_ hk
  clear hk
  unfold bootTick
  try dsimp only
  repeat' first
    | with_reducible exact changesOnly_refl _ _
    | with_reducible apply chg_lanesSync
    | with_reducible apply chg_moduleStart
    | (show within _ _ = true; decide)
    | split

theorem chg_fieldTestTick {ps : List Part} {z : State} (s : State) (hw : within [.clock, .eic, .staging, .field, .ports, .lifetime, .log] ps = true) (hk : changesOnly ps z s) :
    changesOnly ps z (fieldTestTick s) := by
  refine changes_step hw ?_ hk
  clear hk
  unfold fieldTestTick
  try dsimp only
  repeat' first
    | with_reducible exact changesOnly_refl _ _
    | with_reducible apply chg_latchFault
    | (rw [mk_withRest]; with_reducible apply changes_withRest)
    | (show within _ _ = true; decide)
    | (show ∀ q, _ → sameModule q _ _; intro p hp; (cases p <;> first | exact Bool.noConfusion (show true = false from hp) | exact trivial | rfl | exact ⟨rfl, rfl⟩ | exact ⟨rfl, rfl, rfl⟩))
    | split

theorem chg_closeTestTick {ps : List Part} {z : State} (s : State) (hw : within [.sluices] ps = true) (hk : changesOnly ps z s) :
    changesOnly ps z (closeTestTick s) := by
  refine changes_step hw ?_ hk
  clear hk
  unfold closeTestTick
  try dsimp only
  repeat' first
    | with_reducible exact changesOnly_refl _ _
    | with_reducible apply changes_modSluices
    | (show List.contains _ _ = true; decide)
    | split

theorem chg_noteService {ps : List Part} {z : State} (s : State) (hw : within [.lifetime] ps = true) (hk : changesOnly ps z s) :
    changesOnly ps z (noteService s) := by
  refine changes_step hw ?_ hk
  clear hk
  unfold noteService
  try dsimp only
  repeat' first
    | with_reducible exact changesOnly_refl _ _
    | with_reducible apply changes_modLife
    | (show List.contains _ _ = true; decide)

theorem chg_releaseTick {ps : List Part} {z : State} (s : State) (released : Bool) (hw : within [.mode, .clock, .eic, .staging, .sluices, .field, .ports, .lifetime, .log, .free] ps = true) (hk : changesOnly ps z s) :
    changesOnly ps z (releaseTick s released) := by
  refine changes_step hw ?_ hk
  clear hk
  unfold releaseTick
  try dsimp only
  repeat' first
    | with_reducible exact changesOnly_refl _ _
    | with_reducible apply chg_closeTestTick
    | with_reducible apply chg_fieldTestTick
    | with_reducible apply chg_noteService
    | with_reducible apply chg_setModule
    | (rw [mk_withRest]; with_reducible apply changes_withRest)
    | (show within _ _ = true; decide)
    | (show ∀ q, _ → sameModule q _ _; intro p hp; (cases p <;> first | exact Bool.noConfusion (show true = false from hp) | exact trivial | rfl | exact ⟨rfl, rfl⟩ | exact ⟨rfl, rfl, rfl⟩))
    | split

theorem chg_stateTick {ps : List Part} {z : State} (s : State) (first released : Bool) (hw : within [.mode, .clock, .laneState, .life, .press, .raa, .eic, .staging, .bank, .bist, .link, .sluices, .field, .ports, .lifetime, .log, .free] ps = true) (hk : changesOnly ps z s) :
    changesOnly ps z (stateTick s first released) := by
  refine changes_step hw ?_ hk
  clear hk
  unfold stateTick
  try dsimp only
  repeat' first
    | with_reducible exact changesOnly_refl _ _
    | with_reducible apply chg_bootTick
    | with_reducible apply chg_releaseTick
    | (show within _ _ = true; decide)
    | split

theorem chg_abandonUpdate {ps : List Part} {z : State} (s : State) (l : Lane) (hw : within [.eic, .staging, .mbx, .boot, .ports, .lifetime, .log] ps = true) (hk : changesOnly ps z s) :
    changesOnly ps z (abandonUpdate s l) := by
  refine changes_step hw ?_ hk
  clear hk
  unfold abandonUpdate
  try dsimp only
  repeat' first
    | with_reducible exact changesOnly_refl _ _
    | with_reducible apply chg_endUpdate
    | (show within _ _ = true; decide)
    | (show ∀ q, _ → sameModule q _ _; intro p hp; (cases p <;> first | exact Bool.noConfusion (show true = false from hp) | exact trivial | rfl | exact ⟨rfl, rfl⟩ | exact ⟨rfl, rfl, rfl⟩))
    | split

theorem chg_engineServed {ps : List Part} {z : State} (s : State) (l : Lane) (hw : within [.chk, .free] ps = true) (hk : changesOnly ps z s) :
    changesOnly ps z (engineServed s l) := by
  refine changes_step hw ?_ hk
  clear hk
  unfold engineServed
  try dsimp only
  repeat' first
    | with_reducible exact changesOnly_refl _ _
    | with_reducible apply changes_modLane
    | (rw [mk_withRest]; with_reducible apply changes_withRest)
    | (show laneOnly _ _ _; intro p hp; (cases p <;> first | exact Bool.noConfusion (show true = false from hp) | exact trivial | rfl | exact ⟨rfl, rfl⟩ | exact ⟨rfl, rfl, rfl⟩))
    | (show laneOnly _ _ _; intro p hp; ((repeat' split) <;> cases p <;> first | exact Bool.noConfusion (show true = false from hp) | exact trivial | rfl | exact ⟨rfl, rfl⟩ | exact ⟨rfl, rfl, rfl⟩))
    | (show ∀ q, _ → sameModule q _ _; intro p hp; (cases p <;> first | exact Bool.noConfusion (show true = false from hp) | exact trivial | rfl | exact ⟨rfl, rfl⟩ | exact ⟨rfl, rfl, rfl⟩))
    | split

theorem chg_laneTick {ps : List Part} {z : State} (s : State) (l : Lane) (hw : within [.mode, .laneState, .life, .press, .raa, .sessions, .fieldIn, .eic, .chk, .staging, .mbx, .bank, .boot, .bist, .link, .times, .sluices, .ports, .lifetime, .log, .free] ps = true) (hk : changesOnly ps z s) :
    changesOnly ps z (laneTick s l) := by
  refine changes_step hw ?_ hk
  clear hk
  unfold laneTick
  try dsimp only
  repeat' first
    | with_reducible exact changesOnly_refl _ _
    | with_reducible exact laneOnly_refl _ _
    | with_reducible apply chg_sessionsTick
    | with_reducible apply chg_writeTaken
    | with_reducible apply chg_bistTick
    | with_reducible apply chg_romTick
    | with_reducible apply chg_abandonUpdate
    | with_reducible apply chg_engineServed
    | (intro l; with_reducible apply chg_sessionsTick)
    | with_reducible apply changes_modLane
    | (rw [mk_withRest]; with_reducible apply changes_withRest)
    | (show within _ _ = true; decide)
    | (show laneOnly _ _ _; intro p hp; (cases p <;> first | exact Bool.noConfusion (show true = false from hp) | exact trivial | rfl | exact ⟨rfl, rfl⟩ | exact ⟨rfl, rfl, rfl⟩))
    | (show laneOnly _ _ _; intro p hp; ((repeat' split) <;> cases p <;> first | exact Bool.noConfusion (show true = false from hp) | exact trivial | rfl | exact ⟨rfl, rfl⟩ | exact ⟨rfl, rfl, rfl⟩))
    | (show ∀ q, _ → sameModule q _ _; intro p hp; (cases p <;> first | exact Bool.noConfusion (show true = false from hp) | exact trivial | rfl | exact ⟨rfl, rfl⟩ | exact ⟨rfl, rfl, rfl⟩))
    | split

theorem chg_sluiceTick {ps : List Part} {z : State} (s : State) (hw : within [.sluices] ps = true) (hk : changesOnly ps z s) :
    changesOnly ps z (sluiceTick s) := by
  refine changes_step hw ?_ hk
  clear hk
  unfold sluiceTick
  try dsimp only
  repeat' first
    | with_reducible exact changesOnly_refl _ _
    | with_reducible apply changes_modSluices
    | (rw [mk_withRest]; with_reducible apply changes_withRest)
    | (show List.contains _ _ = true; decide)
    | (show ∀ q, _ → sameModule q _ _; intro p hp; (cases p <;> first | exact Bool.noConfusion (show true = false from hp) | exact trivial | rfl | exact ⟨rfl, rfl⟩ | exact ⟨rfl, rfl, rfl⟩))
    | split

theorem chg_kTick {ps : List Part} {z : State} (s : State) (hw : within [.press] ps = true) (hk : changesOnly ps z s) :
    changesOnly ps z (kTick s) := by
  refine changes_step hw ?_ hk
  clear hk
  unfold kTick
  try dsimp only
  repeat' first
    | with_reducible exact changesOnly_refl _ _
    | with_reducible apply changes_modLanes
    | (intro l; show laneOnly _ _ _; intro p hp; (cases p <;> first | exact Bool.noConfusion (show true = false from hp) | exact trivial | rfl | exact ⟨rfl, rfl⟩ | exact ⟨rfl, rfl, rfl⟩))

theorem chg_tickOn {ps : List Part} {z : State} (s : State) (hw : within [.mode, .clock, .laneState, .life, .press, .raa, .sessions, .fieldIn, .eic, .chk, .staging, .mbx, .bank, .boot, .bist, .rail, .link, .times, .sluices, .alk, .field, .ports, .twin, .lifetime, .log, .free] ps = true) (hk : changesOnly ps z s) :
    changesOnly ps z (tickOn s) := by
  refine changes_step hw ?_ hk
  clear hk
  unfold tickOn
  try dsimp only
  repeat' first
    | with_reducible assumption
    | with_reducible exact changesOnly_refl _ _
    | with_reducible apply chg_repeatClear
    | with_reducible apply chg_alkTick
    | with_reducible apply chg_alkKeep
    | with_reducible apply chg_hostTick
    | with_reducible apply chg_joinTick
    | with_reducible apply chg_closeCycle
    | with_reducible apply chg_nextCount
    | with_reducible apply chg_countTime
    | with_reducible apply chg_measureAll
    | with_reducible apply chg_nextKeeper
    | with_reducible apply chg_stateTick
    | with_reducible apply chg_laneTick
    | with_reducible apply chg_sluiceTick
    | with_reducible apply chg_kTick
    | with_reducible apply chg_twinTick
    | with_reducible apply changes_foldS
    | (show within _ _ = true; decide)
    | (show ∀ q, _ → sameModule q _ _; intro p hp; (cases p <;> first | exact Bool.noConfusion (show true = false from hp) | exact trivial | rfl | exact ⟨rfl, rfl⟩ | exact ⟨rfl, rfl, rfl⟩))
    | (with_reducible intro t x hk)
    | (with_reducible intro t hk)
    | split

theorem chg_execTick {ps : List Part} {z : State} (s : State) (q0 : State) (hw : within [.mode, .clock, .laneState, .life, .press, .raa, .sessions, .fieldIn, .eic, .chk, .staging, .mbx, .bank, .boot, .bist, .rail, .link, .times, .sluices, .alk, .field, .ports, .twin, .lifetime, .log, .free] ps = true) (hk : changesOnly ps z s) :
    changesOnly ps z (thenState q0 (execTick s)) := by
  refine changes_step hw ?_ hk
  clear hk
  unfold execTick
  dsimp only [thenState]
  repeat' first
    | with_reducible exact changesOnly_refl _ _
    | with_reducible apply chg_requestedRestart
    | with_reducible apply chg_tickOn
    | (rw [mk_withRest]; with_reducible apply changes_withRest)
    | (show within _ _ = true; decide)
    | (show ∀ q, _ → sameModule q _ _; intro p hp; (cases p <;> first | exact Bool.noConfusion (show true = false from hp) | exact trivial | rfl | exact ⟨rfl, rfl⟩ | exact ⟨rfl, rfl, rfl⟩))
    | split

theorem chg_startRaa {ps : List Part} {z : State} (v : Vintage) (s : State) (l : Lane) (hw : within [.raa, .eic, .staging, .ports, .log] ps = true) (hk : changesOnly ps z s) :
    changesOnly ps z (startRaa v s l) := by
  refine changes_step hw ?_ hk
  clear hk
  unfold startRaa
  try dsimp only
  repeat' first
    | with_reducible assumption
    | with_reducible exact changesOnly_refl _ _
    | with_reducible apply chg_modRaa
    | with_reducible apply chg_moveFaultEvent
    | with_reducible apply changes_foldS
    | (rw [mk_withRest]; with_reducible apply changes_withRest)
    | (show within _ _ = true; decide)
    | (show ∀ q, _ → sameModule q _ _; intro p hp; (cases p <;> first | exact Bool.noConfusion (show true = false from hp) | exact trivial | rfl | exact ⟨rfl, rfl⟩ | exact ⟨rfl, rfl, rfl⟩))
    | (with_reducible intro t x hk)
    | (with_reducible intro t hk)
    | split

theorem chg_startPress {ps : List Part} {z : State} (s : State) (l : Lane) (hw : within [.press, .eic, .ports] ps = true) (hk : changesOnly ps z s) :
    changesOnly ps z (startPress s l) := by
  refine changes_step hw ?_ hk
  clear hk
  unfold startPress
  try dsimp only
  repeat' first
    | with_reducible exact changesOnly_refl _ _
    | with_reducible apply chg_logicDone
    | with_reducible apply changes_modLane
    | (rw [mk_withRest]; with_reducible apply changes_withRest)
    | (show within _ _ = true; decide)
    | (show laneOnly _ _ _; intro p hp; (cases p <;> first | exact Bool.noConfusion (show true = false from hp) | exact trivial | rfl | exact ⟨rfl, rfl⟩ | exact ⟨rfl, rfl, rfl⟩))
    | (show laneOnly _ _ _; intro p hp; ((repeat' split) <;> cases p <;> first | exact Bool.noConfusion (show true = false from hp) | exact trivial | rfl | exact ⟨rfl, rfl⟩ | exact ⟨rfl, rfl, rfl⟩))
    | (show ∀ q, _ → sameModule q _ _; intro p hp; (cases p <;> first | exact Bool.noConfusion (show true = false from hp) | exact trivial | rfl | exact ⟨rfl, rfl⟩ | exact ⟨rfl, rfl, rfl⟩))
    | split

theorem chg_closeInput {ps : List Part} {z : State} (v : Vintage) (s : State) (l : Lane) (hw : within [.press, .sessions, .fieldIn, .eic, .staging, .ports, .log] ps = true) (hk : changesOnly ps z s) :
    changesOnly ps z (closeInput v s l) := by
  refine changes_step hw ?_ hk
  clear hk
  unfold closeInput
  try dsimp only
  repeat' first
    | with_reducible exact changesOnly_refl _ _
    | with_reducible exact laneOnly_refl _ _
    | with_reducible apply chg_openViews
    | with_reducible apply chg_closeSessions
    | with_reducible apply chg_localInput
    | (intro l; with_reducible apply chg_openViews)
    | with_reducible apply changes_modLane
    | (rw [mk_withRest]; with_reducible apply changes_withRest)
    | (show within _ _ = true; decide)
    | (show laneOnly _ _ _; intro p hp; (cases p <;> first | exact Bool.noConfusion (show true = false from hp) | exact trivial | rfl | exact ⟨rfl, rfl⟩ | exact ⟨rfl, rfl, rfl⟩))
    | (show laneOnly _ _ _; intro p hp; ((repeat' split) <;> cases p <;> first | exact Bool.noConfusion (show true = false from hp) | exact trivial | rfl | exact ⟨rfl, rfl⟩ | exact ⟨rfl, rfl, rfl⟩))
    | (show ∀ q, _ → sameModule q _ _; intro p hp; (cases p <;> first | exact Bool.noConfusion (show true = false from hp) | exact trivial | rfl | exact ⟨rfl, rfl⟩ | exact ⟨rfl, rfl, rfl⟩))
    | split

theorem chg_laneEndInput {ps : List Part} {z : State} (s : State) (l : Lane) (hw : within [.press, .raa, .sessions, .fieldIn, .eic, .staging, .ports, .log] ps = true) (hk : changesOnly ps z s) :
    changesOnly ps z (laneEndInput s l) := by
  refine changes_step hw ?_ hk
  clear hk
  unfold laneEndInput
  try dsimp only
  repeat' first
    | with_reducible exact changesOnly_refl _ _
    | with_reducible apply chg_startPress
    | with_reducible apply chg_startRaa
    | with_reducible apply chg_closeInput
    | (show within _ _ = true; decide)
    | split

theorem chg_execEndInput {ps : List Part} {z : State} (s : State) (q0 : State) (hw : within [.mode, .clock, .laneState, .life, .press, .raa, .sessions, .fieldIn, .eic, .chk, .staging, .mbx, .bank, .boot, .bist, .link, .sluices, .field, .ports, .twin, .lifetime, .log, .free] ps = true) (hk : changesOnly ps z s) :
    changesOnly ps z (thenState q0 (execEndInput s)) := by
  refine changes_step hw ?_ hk
  clear hk
  unfold execEndInput
  dsimp only [thenState]
  repeat' first
    | with_reducible assumption
    | with_reducible exact changesOnly_refl _ _
    | with_reducible apply chg_clearEnds
    | with_reducible apply chg_dropRequests
    | with_reducible apply chg_laneEndInput
    | with_reducible apply chg_stuckSeen
    | with_reducible apply chg_fieldChecks
    | with_reducible apply chg_releaseStages
    | with_reducible apply chg_dropSwitch
    | with_reducible apply chg_handoverPast
    | with_reducible apply changes_foldS
    | (rw [mk_withRest]; with_reducible apply changes_withRest)
    | (show within _ _ = true; decide)
    | (show ∀ q, _ → sameModule q _ _; intro p hp; (cases p <;> first | exact Bool.noConfusion (show true = false from hp) | exact trivial | rfl | exact ⟨rfl, rfl⟩ | exact ⟨rfl, rfl, rfl⟩))
    | (with_reducible intro t x hk)
    | (with_reducible intro t hk)
    | split

theorem chg_decideRest {ps : List Part} {z : State} (v : Vintage) (l : Lane) (n : Nat) (s : State)
    (hw : within [.raa, .eic, .staging, .mbx, .ports, .lifetime, .log] ps = true) (hk : changesOnly ps z s) : changesOnly ps z (decideRest v l n s) := by
  induction n generalizing s with
  | zero => exact hk
  | succ n ih =>
    unfold decideRest
    split
    · exact hk
    · split
      · exact hk
      · exact ih _ (chg_decideHead _ _ _ _ _ hw hk)

theorem chg_endRaa {ps : List Part} {z : State} (v : Vintage) (s : State) (l : Lane) (hw : within [.press, .raa, .eic, .staging, .mbx, .ports, .lifetime, .log] ps = true) (hk : changesOnly ps z s) :
    changesOnly ps z (endRaa v s l) := by
  refine changes_step hw ?_ hk
  clear hk
  unfold endRaa
  try dsimp only
  repeat' first
    | with_reducible exact changesOnly_refl _ _
    | with_reducible apply chg_provePass
    | with_reducible apply chg_decideRest
    | with_reducible apply changes_modLane
    | (rw [mk_withRest]; with_reducible apply changes_withRest)
    | (show within _ _ = true; decide)
    | (show laneOnly _ _ _; intro p hp; (cases p <;> first | exact Bool.noConfusion (show true = false from hp) | exact trivial | rfl | exact ⟨rfl, rfl⟩ | exact ⟨rfl, rfl, rfl⟩))
    | (show laneOnly _ _ _; intro p hp; ((repeat' split) <;> cases p <;> first | exact Bool.noConfusion (show true = false from hp) | exact trivial | rfl | exact ⟨rfl, rfl⟩ | exact ⟨rfl, rfl, rfl⟩))
    | (show ∀ q, _ → sameModule q _ _; intro p hp; (cases p <;> first | exact Bool.noConfusion (show true = false from hp) | exact trivial | rfl | exact ⟨rfl, rfl⟩ | exact ⟨rfl, rfl, rfl⟩))
    | split

theorem chg_laneEndLogic {ps : List Part} {z : State} (s : State) (l : Lane) (hw : within [.press, .raa, .sessions, .eic, .staging, .mbx, .ports, .lifetime, .log] ps = true) (hk : changesOnly ps z s) :
    changesOnly ps z (laneEndLogic s l) := by
  refine changes_step hw ?_ hk
  clear hk
  unfold laneEndLogic
  try dsimp only
  repeat' first
    | with_reducible exact changesOnly_refl _ _
    | with_reducible apply chg_admitMarkers
    | with_reducible apply chg_endRaa
    | with_reducible apply chg_admitBatch
    | (show within _ _ = true; decide)
    | (show ∀ q, _ → sameModule q _ _; intro p hp; (cases p <;> first | exact Bool.noConfusion (show true = false from hp) | exact trivial | rfl | exact ⟨rfl, rfl⟩ | exact ⟨rfl, rfl, rfl⟩))
    | split

theorem chg_countSends {ps : List Part} {z : LaneState} (s : State) (v : Vintage) (L : LaneState) (hw : within [.sessions] ps = true) (hk : laneOnly ps z L) :
    laneOnly ps z (countSends s v L) := by
  refine laneOnly_step hw ?_ hk
  clear hk
  unfold countSends
  try dsimp only
  repeat' first
    | with_reducible exact laneOnly_refl _ _
    | (show laneOnly _ _ _; intro p hp; (cases p <;> first | exact Bool.noConfusion (show true = false from hp) | exact trivial | rfl | exact ⟨rfl, rfl⟩ | exact ⟨rfl, rfl, rfl⟩))
    | (show laneOnly _ _ _; intro p hp; ((repeat' split) <;> cases p <;> first | exact Bool.noConfusion (show true = false from hp) | exact trivial | rfl | exact ⟨rfl, rfl⟩ | exact ⟨rfl, rfl, rfl⟩))
    | split

theorem chg_sendImage {ps : List Part} {z : LaneState} (s : State) (l : Lane) (L : LaneState) (hw : within [.press, .link] ps = true) (hk : laneOnly ps z L) :
    laneOnly ps z (sendImage s l L) := by
  refine laneOnly_step hw ?_ hk
  clear hk
  unfold sendImage
  try dsimp only
  repeat' first
    | with_reducible exact laneOnly_refl _ _
    | (show laneOnly _ _ _; intro p hp; (cases p <;> first | exact Bool.noConfusion (show true = false from hp) | exact trivial | rfl | exact ⟨rfl, rfl⟩ | exact ⟨rfl, rfl, rfl⟩))
    | (show laneOnly _ _ _; intro p hp; ((repeat' split) <;> cases p <;> first | exact Bool.noConfusion (show true = false from hp) | exact trivial | rfl | exact ⟨rfl, rfl⟩ | exact ⟨rfl, rfl, rfl⟩))
    | split

theorem chg_closeImages {ps : List Part} {z : State} (s : State) (hw : within [.press, .sessions, .link, .twin] ps = true) (hk : changesOnly ps z s) :
    changesOnly ps z (closeImages s) := by
  refine changes_step hw ?_ hk
  clear hk
  unfold closeImages
  try dsimp only
  repeat' first
    | with_reducible exact changesOnly_refl _ _
    | with_reducible apply chg_loadClose
    | with_reducible apply chg_twinClosed
    | with_reducible apply changes_modLanes
    | (show within _ _ = true; decide)
    | with_reducible apply laneOnly_refl
    | (intro l; with_reducible apply chg_sendImage)
    | (intro l; show laneOnly _ _ _; intro p hp; ((repeat' split) <;> cases p <;> first | exact Bool.noConfusion (show true = false from hp) | exact trivial | rfl | exact ⟨rfl, rfl⟩ | exact ⟨rfl, rfl, rfl⟩))

theorem chg_execEndLogic {ps : List Part} {z : State} (s : State) (q0 : State) (hw : within [.mode, .clock, .laneState, .life, .press, .raa, .sessions, .eic, .chk, .staging, .mbx, .bank, .boot, .bist, .link, .times, .sluices, .ports, .twin, .lifetime, .log, .free] ps = true)
    (hk : changesOnly ps z s) : changesOnly ps z (thenState q0 (execEndLogic s)) := by
  refine changes_step hw (?_ : changesOnly [.mode, .clock, .laneState, .life, .press, .raa, .sessions, .eic, .chk, .staging, .mbx, .bank, .boot, .bist, .link, .times, .sluices, .ports, .twin, .lifetime, .log, .free] s (thenState q0 (execEndLogic s))) hk
  have hk := changesOnly_refl [.mode, .clock, .laneState, .life, .press, .raa, .sessions, .eic, .chk, .staging, .mbx, .bank, .boot, .bist, .link, .times, .sluices, .ports, .twin, .lifetime, .log, .free] s
  unfold execEndLogic
  dsimp -zeta only [thenState]
  split
  · extract_lets s1 s2 s3 s4
    have h1 : changesOnly [.mode, .clock, .laneState, .life, .press, .raa, .sessions, .eic, .chk, .staging, .mbx, .bank, .boot, .bist, .link, .times, .sluices, .ports, .twin, .lifetime, .log, .free] s s1 := changes_foldS _ _ (fun _ _ h => chg_laneEndLogic _ _ rfl h) hk
    have h2 : changesOnly [.mode, .clock, .laneState, .life, .press, .raa, .sessions, .eic, .chk, .staging, .mbx, .bank, .boot, .bist, .link, .times, .sluices, .ports, .twin, .lifetime, .log, .free] s s2 := chg_batchClose _ rfl (chg_releaseStages _ rfl (changes_foldS _ _ (fun _ _ h => chg_rackCheck _ _ rfl h) h1))
    have h3 : changesOnly [.mode, .clock, .laneState, .life, .press, .raa, .sessions, .eic, .chk, .staging, .mbx, .bank, .boot, .bist, .link, .times, .sluices, .ports, .twin, .lifetime, .log, .free] s s3 := changes_foldS _ _ (fun _ _ h => chg_overrunLane _ _ _ rfl h) h2
    have h4 : changesOnly [.mode, .clock, .laneState, .life, .press, .raa, .sessions, .eic, .chk, .staging, .mbx, .bank, .boot, .bist, .link, .times, .sluices, .ports, .twin, .lifetime, .log, .free] s s4 := chg_closeImages _ rfl h3
    clear_value s4
    refine changes_module (s := s4) rfl (fun p hp => ?_) h4
    cases p <;> first | (cases hp; done) | exact trivial | rfl
  · exact hk

theorem chg_execEndVote {ps : List Part} {z : State} (s : State) (q0 : State) (hw : within [.mode, .clock, .laneState, .life, .press, .raa, .eic, .staging, .mbx, .bank, .bist, .link, .times, .sluices, .field, .ports, .lifetime, .log, .free] ps = true) (hk : changesOnly ps z s) :
    changesOnly ps z (thenState q0 (execEndVote s)) := by
  refine changes_step hw ?_ hk
  clear hk
  unfold execEndVote
  dsimp only [thenState]
  repeat' first
    | with_reducible assumption
    | with_reducible exact changesOnly_refl _ _
    | with_reducible apply chg_rackFinish
    | with_reducible apply chg_overrunLane
    | with_reducible apply chg_voteNow
    | with_reducible apply changes_foldS
    | with_reducible apply changes_modSluices
    | (rw [mk_withRest]; with_reducible apply changes_withRest)
    | (show within _ _ = true; decide)
    | (show List.contains _ _ = true; decide)
    | (show ∀ q, _ → sameModule q _ _; intro p hp; (cases p <;> first | exact Bool.noConfusion (show true = false from hp) | exact trivial | rfl | exact ⟨rfl, rfl⟩ | exact ⟨rfl, rfl, rfl⟩))
    | (with_reducible intro t x hk)
    | (with_reducible intro t hk)
    | split

theorem chg_writeStatus {ps : List Part} {z : State} (s : State) (p : Port) (hw : within [.mbx, .ports, .hostMem, .free] ps = true) (hk : changesOnly ps z s) :
    changesOnly ps z (writeStatus s p) := by
  refine changes_step hw ?_ hk
  clear hk
  unfold writeStatus
  try dsimp only
  repeat' first
    | with_reducible exact changesOnly_refl _ _
    | with_reducible apply chg_fenceCheck
    | with_reducible apply changes_modLane
    | with_reducible apply changes_modPort
    | (rw [mk_withRest]; with_reducible apply changes_withRest)
    | (show within _ _ = true; decide)
    | (show List.contains _ _ = true; decide)
    | (show laneOnly _ _ _; intro p hp; (cases p <;> first | exact Bool.noConfusion (show true = false from hp) | exact trivial | rfl | exact ⟨rfl, rfl⟩ | exact ⟨rfl, rfl, rfl⟩))
    | (show ∀ q, _ → sameModule q _ _; intro p hp; (cases p <;> first | exact Bool.noConfusion (show true = false from hp) | exact trivial | rfl | exact ⟨rfl, rfl⟩ | exact ⟨rfl, rfl, rfl⟩))
    | split

theorem chg_execEndOutput {ps : List Part} {z : State} (s : State) (q0 : State) (hw : within [.clock, .mbx, .alk, .ports, .hostMem, .free] ps = true) (hk : changesOnly ps z s) :
    changesOnly ps z (thenState q0 (execEndOutput s)) := by
  refine changes_step hw ?_ hk
  clear hk
  unfold execEndOutput
  dsimp only [thenState]
  repeat' first
    | with_reducible assumption
    | with_reducible exact changesOnly_refl _ _
    | with_reducible apply chg_writeStatus
    | with_reducible apply changes_foldS
    | (rw [mk_withRest]; with_reducible apply changes_withRest)
    | (show within _ _ = true; decide)
    | (show ∀ q, _ → sameModule q _ _; intro p hp; (cases p <;> first | exact Bool.noConfusion (show true = false from hp) | exact trivial | rfl | exact ⟨rfl, rfl⟩ | exact ⟨rfl, rfl, rfl⟩))
    | (with_reducible intro t x hk)
    | (with_reducible intro t hk)
    | split

end Sys2Proof.Laws
end

