-- ==== Sys2Proof/Laws/ChangesWords.lean ====
section
/-!
SUPPORT. The parts of the state that every operation of the words of the Press may change (Safety.changesOnly), one lemma for each operation
and for each command.
-/

namespace Sys2Proof.Laws

open Sys2Proof.Machine Sys2Proof.Safety

theorem chg_bitOp {ps : List Part} {z : State} (w : PressWord) (space : BitVec 4) (f : Bool → Bool → Bool) (s : State) (hw : within [.mode, .laneState, .life, .press, .raa, .eic, .staging, .bank, .bist, .link, .sluices, .ports, .lifetime, .log, .free] ps = true) (hk : changesOnly ps z s) :
    changesOnly ps z (bitOp w space f s) := by
  refine changes_step hw ?_ hk
  clear hk
  unfold bitOp
  try dsimp only
  repeat' first
    | with_reducible exact changesOnly_refl _ _
    | with_reducible apply chg_runWord
    | (show within _ _ = true; decide)

theorem chg_bitStore {ps : List Part} {z : State} (w : PressWord) (space : BitVec 4) (f : Bool → Option Bool) (s : State) (hw : within [.mode, .laneState, .life, .press, .raa, .eic, .staging, .bank, .bist, .link, .sluices, .ports, .lifetime, .log, .free] ps = true) (hk : changesOnly ps z s) :
    changesOnly ps z (bitStore w space f s) := by
  refine changes_step hw ?_ hk
  clear hk
  unfold bitStore
  try dsimp only
  repeat' first
    | with_reducible exact changesOnly_refl _ _
    | with_reducible apply chg_runWord
    | (show within _ _ = true; decide)

theorem chg_execLd {ps : List Part} {z : State} (w : PressWord) (space : BitVec 4) (s : State) (q0 : State) (hw : within [.mode, .laneState, .life, .press, .raa, .eic, .staging, .bank, .bist, .link, .sluices, .ports, .lifetime, .log, .free] ps = true) (hk : changesOnly ps z s) :
    changesOnly ps z (thenState q0 (execLd w space s)) := by
  refine changes_step hw ?_ hk
  clear hk
  unfold execLd
  dsimp only [thenState]
  repeat' first
    | with_reducible exact changesOnly_refl _ _
    | with_reducible apply chg_bitOp
    | (show within _ _ = true; decide)

theorem chg_execLdn {ps : List Part} {z : State} (w : PressWord) (space : BitVec 4) (s : State) (q0 : State) (hw : within [.mode, .laneState, .life, .press, .raa, .eic, .staging, .bank, .bist, .link, .sluices, .ports, .lifetime, .log, .free] ps = true) (hk : changesOnly ps z s) :
    changesOnly ps z (thenState q0 (execLdn w space s)) := by
  refine changes_step hw ?_ hk
  clear hk
  unfold execLdn
  dsimp only [thenState]
  repeat' first
    | with_reducible exact changesOnly_refl _ _
    | with_reducible apply chg_bitOp
    | (show within _ _ = true; decide)

theorem chg_execAndBit {ps : List Part} {z : State} (w : PressWord) (space : BitVec 4) (s : State) (q0 : State) (hw : within [.mode, .laneState, .life, .press, .raa, .eic, .staging, .bank, .bist, .link, .sluices, .ports, .lifetime, .log, .free] ps = true) (hk : changesOnly ps z s) :
    changesOnly ps z (thenState q0 (execAndBit w space s)) := by
  refine changes_step hw ?_ hk
  clear hk
  unfold execAndBit
  dsimp only [thenState]
  repeat' first
    | with_reducible exact changesOnly_refl _ _
    | with_reducible apply chg_bitOp
    | (show within _ _ = true; decide)

theorem chg_execAndnBit {ps : List Part} {z : State} (w : PressWord) (space : BitVec 4) (s : State) (q0 : State) (hw : within [.mode, .laneState, .life, .press, .raa, .eic, .staging, .bank, .bist, .link, .sluices, .ports, .lifetime, .log, .free] ps = true) (hk : changesOnly ps z s) :
    changesOnly ps z (thenState q0 (execAndnBit w space s)) := by
  refine changes_step hw ?_ hk
  clear hk
  unfold execAndnBit
  dsimp only [thenState]
  repeat' first
    | with_reducible exact changesOnly_refl _ _
    | with_reducible apply chg_bitOp
    | (show within _ _ = true; decide)

theorem chg_execOrBit {ps : List Part} {z : State} (w : PressWord) (space : BitVec 4) (s : State) (q0 : State) (hw : within [.mode, .laneState, .life, .press, .raa, .eic, .staging, .bank, .bist, .link, .sluices, .ports, .lifetime, .log, .free] ps = true) (hk : changesOnly ps z s) :
    changesOnly ps z (thenState q0 (execOrBit w space s)) := by
  refine changes_step hw ?_ hk
  clear hk
  unfold execOrBit
  dsimp only [thenState]
  repeat' first
    | with_reducible exact changesOnly_refl _ _
    | with_reducible apply chg_bitOp
    | (show within _ _ = true; decide)

theorem chg_execOrnBit {ps : List Part} {z : State} (w : PressWord) (space : BitVec 4) (s : State) (q0 : State) (hw : within [.mode, .laneState, .life, .press, .raa, .eic, .staging, .bank, .bist, .link, .sluices, .ports, .lifetime, .log, .free] ps = true) (hk : changesOnly ps z s) :
    changesOnly ps z (thenState q0 (execOrnBit w space s)) := by
  refine changes_step hw ?_ hk
  clear hk
  unfold execOrnBit
  dsimp only [thenState]
  repeat' first
    | with_reducible exact changesOnly_refl _ _
    | with_reducible apply chg_bitOp
    | (show within _ _ = true; decide)

theorem chg_execXorBit {ps : List Part} {z : State} (w : PressWord) (space : BitVec 4) (s : State) (q0 : State) (hw : within [.mode, .laneState, .life, .press, .raa, .eic, .staging, .bank, .bist, .link, .sluices, .ports, .lifetime, .log, .free] ps = true) (hk : changesOnly ps z s) :
    changesOnly ps z (thenState q0 (execXorBit w space s)) := by
  refine changes_step hw ?_ hk
  clear hk
  unfold execXorBit
  dsimp only [thenState]
  repeat' first
    | with_reducible exact changesOnly_refl _ _
    | with_reducible apply chg_bitOp
    | (show within _ _ = true; decide)

theorem chg_execSt {ps : List Part} {z : State} (w : PressWord) (space : BitVec 4) (s : State) (q0 : State) (hw : within [.mode, .laneState, .life, .press, .raa, .eic, .staging, .bank, .bist, .link, .sluices, .ports, .lifetime, .log, .free] ps = true) (hk : changesOnly ps z s) :
    changesOnly ps z (thenState q0 (execSt w space s)) := by
  refine changes_step hw ?_ hk
  clear hk
  unfold execSt
  dsimp only [thenState]
  repeat' first
    | with_reducible exact changesOnly_refl _ _
    | with_reducible apply chg_bitStore
    | (show within _ _ = true; decide)

theorem chg_execSetBit {ps : List Part} {z : State} (w : PressWord) (space : BitVec 4) (s : State) (q0 : State) (hw : within [.mode, .laneState, .life, .press, .raa, .eic, .staging, .bank, .bist, .link, .sluices, .ports, .lifetime, .log, .free] ps = true) (hk : changesOnly ps z s) :
    changesOnly ps z (thenState q0 (execSetBit w space s)) := by
  refine changes_step hw ?_ hk
  clear hk
  unfold execSetBit
  dsimp only [thenState]
  repeat' first
    | with_reducible exact changesOnly_refl _ _
    | with_reducible apply chg_bitStore
    | (show within _ _ = true; decide)

theorem chg_execRstBit {ps : List Part} {z : State} (w : PressWord) (space : BitVec 4) (s : State) (q0 : State) (hw : within [.mode, .laneState, .life, .press, .raa, .eic, .staging, .bank, .bist, .link, .sluices, .ports, .lifetime, .log, .free] ps = true) (hk : changesOnly ps z s) :
    changesOnly ps z (thenState q0 (execRstBit w space s)) := by
  refine changes_step hw ?_ hk
  clear hk
  unfold execRstBit
  dsimp only [thenState]
  repeat' first
    | with_reducible exact changesOnly_refl _ _
    | with_reducible apply chg_bitStore
    | (show within _ _ = true; decide)

theorem chg_raaCall {ps : List Part} {z : State} (w : PressWord) (bits : Nat) (k : QKind) (s : State) (hw : within [.mode, .laneState, .life, .press, .raa, .eic, .staging, .bank, .bist, .link, .sluices, .ports, .lifetime, .log, .free] ps = true) (hk : changesOnly ps z s) :
    changesOnly ps z (raaCall w bits k s) := by
  refine changes_step hw ?_ hk
  clear hk
  unfold raaCall
  try dsimp only
  repeat' first
    | with_reducible exact changesOnly_refl _ _
    | with_reducible apply chg_runWord
    | (show within _ _ = true; decide)

theorem chg_execNop {ps : List Part} {z : State} (w : PressWord) (s : State) (q0 : State) (hw : within [.mode, .laneState, .life, .press, .raa, .eic, .staging, .bank, .bist, .link, .sluices, .ports, .lifetime, .log, .free] ps = true) (hk : changesOnly ps z s) :
    changesOnly ps z (thenState q0 (execNop w s)) := by
  refine changes_step hw ?_ hk
  clear hk
  unfold execNop
  dsimp only [thenState]
  repeat' first
    | with_reducible exact changesOnly_refl _ _
    | with_reducible apply chg_runWord
    | (show within _ _ = true; decide)

theorem chg_execOpenBranch {ps : List Part} {z : State} (w : PressWord) (s : State) (q0 : State) (hw : within [.mode, .laneState, .life, .press, .raa, .eic, .staging, .bank, .bist, .link, .sluices, .ports, .lifetime, .log, .free] ps = true) (hk : changesOnly ps z s) :
    changesOnly ps z (thenState q0 (execOpenBranch w s)) := by
  refine changes_step hw ?_ hk
  clear hk
  unfold execOpenBranch
  dsimp only [thenState]
  repeat' first
    | with_reducible exact changesOnly_refl _ _
    | with_reducible apply chg_runWord
    | (show within _ _ = true; decide)

theorem chg_execCloseBranch {ps : List Part} {z : State} (w : PressWord) (s : State) (q0 : State) (hw : within [.mode, .laneState, .life, .press, .raa, .eic, .staging, .bank, .bist, .link, .sluices, .ports, .lifetime, .log, .free] ps = true) (hk : changesOnly ps z s) :
    changesOnly ps z (thenState q0 (execCloseBranch w s)) := by
  refine changes_step hw ?_ hk
  clear hk
  unfold execCloseBranch
  dsimp only [thenState]
  repeat' first
    | with_reducible exact changesOnly_refl _ _
    | with_reducible apply chg_runWord
    | (show within _ _ = true; decide)

theorem chg_execJmp {ps : List Part} {z : State} (w : PressWord) (s : State) (q0 : State) (hw : within [.mode, .laneState, .life, .press, .raa, .eic, .staging, .bank, .bist, .link, .sluices, .ports, .lifetime, .log, .free] ps = true) (hk : changesOnly ps z s) :
    changesOnly ps z (thenState q0 (execJmp w s)) := by
  refine changes_step hw ?_ hk
  clear hk
  unfold execJmp
  dsimp only [thenState]
  repeat' first
    | with_reducible exact changesOnly_refl _ _
    | with_reducible apply chg_runWord
    | (show within _ _ = true; decide)

theorem chg_execJmpc {ps : List Part} {z : State} (w : PressWord) (s : State) (q0 : State) (hw : within [.mode, .laneState, .life, .press, .raa, .eic, .staging, .bank, .bist, .link, .sluices, .ports, .lifetime, .log, .free] ps = true) (hk : changesOnly ps z s) :
    changesOnly ps z (thenState q0 (execJmpc w s)) := by
  refine changes_step hw ?_ hk
  clear hk
  unfold execJmpc
  dsimp only [thenState]
  repeat' first
    | with_reducible exact changesOnly_refl _ _
    | with_reducible apply chg_runWord
    | (show within _ _ = true; decide)

theorem chg_execJmpn {ps : List Part} {z : State} (w : PressWord) (s : State) (q0 : State) (hw : within [.mode, .laneState, .life, .press, .raa, .eic, .staging, .bank, .bist, .link, .sluices, .ports, .lifetime, .log, .free] ps = true) (hk : changesOnly ps z s) :
    changesOnly ps z (thenState q0 (execJmpn w s)) := by
  refine changes_step hw ?_ hk
  clear hk
  unfold execJmpn
  dsimp only [thenState]
  repeat' first
    | with_reducible exact changesOnly_refl _ _
    | with_reducible apply chg_runWord
    | (show within _ _ = true; decide)

theorem chg_execCall {ps : List Part} {z : State} (w : PressWord) (s : State) (q0 : State) (hw : within [.mode, .laneState, .life, .press, .raa, .eic, .staging, .bank, .bist, .link, .sluices, .ports, .lifetime, .log, .free] ps = true) (hk : changesOnly ps z s) :
    changesOnly ps z (thenState q0 (execCall w s)) := by
  refine changes_step hw ?_ hk
  clear hk
  unfold execCall
  dsimp only [thenState]
  repeat' first
    | with_reducible exact changesOnly_refl _ _
    | with_reducible apply chg_runWord
    | (show within _ _ = true; decide)

theorem chg_execRet {ps : List Part} {z : State} (w : PressWord) (s : State) (q0 : State) (hw : within [.mode, .laneState, .life, .press, .raa, .eic, .staging, .bank, .bist, .link, .sluices, .ports, .lifetime, .log, .free] ps = true) (hk : changesOnly ps z s) :
    changesOnly ps z (thenState q0 (execRet w s)) := by
  refine changes_step hw ?_ hk
  clear hk
  unfold execRet
  dsimp only [thenState]
  repeat' first
    | with_reducible exact changesOnly_refl _ _
    | with_reducible apply chg_runWord
    | (show within _ _ = true; decide)

theorem chg_execBar {ps : List Part} {z : State} (w : PressWord) (s : State) (q0 : State) (hw : within [.mode, .laneState, .life, .press, .raa, .eic, .staging, .bank, .bist, .link, .sluices, .ports, .lifetime, .log, .free] ps = true) (hk : changesOnly ps z s) :
    changesOnly ps z (thenState q0 (execBar w s)) := by
  refine changes_step hw ?_ hk
  clear hk
  unfold execBar
  dsimp only [thenState]
  repeat' first
    | with_reducible exact changesOnly_refl _ _
    | with_reducible apply chg_runWord
    | (show within _ _ = true; decide)

theorem chg_execBarRelease {ps : List Part} {z : State} (l : Lane) (strand : Fin 4) (s : State) (q0 : State) (hw : within [.press] ps = true) (hk : changesOnly ps z s) :
    changesOnly ps z (thenState q0 (execBarRelease l strand s)) := by
  refine changes_step hw ?_ hk
  clear hk
  unfold execBarRelease
  dsimp only [thenState]
  repeat' first
    | with_reducible exact changesOnly_refl _ _
    | with_reducible apply changes_modLane
    | (show laneOnly _ _ _; intro p hp; (cases p <;> first | exact Bool.noConfusion (show true = false from hp) | exact trivial | rfl | exact ⟨rfl, rfl⟩ | exact ⟨rfl, rfl, rfl⟩))
    | split

theorem chg_execEndStrand {ps : List Part} {z : State} (w : PressWord) (s : State) (q0 : State) (hw : within [.mode, .laneState, .life, .press, .raa, .eic, .staging, .bank, .bist, .link, .sluices, .ports, .lifetime, .log, .free] ps = true) (hk : changesOnly ps z s) :
    changesOnly ps z (thenState q0 (execEndStrand w s)) := by
  refine changes_step hw ?_ hk
  clear hk
  unfold execEndStrand
  dsimp only [thenState]
  repeat' first
    | with_reducible exact changesOnly_refl _ _
    | with_reducible apply chg_runWord
    | (show within _ _ = true; decide)

theorem chg_execRreq {ps : List Part} {z : State} (w : PressWord) (s : State) (q0 : State) (hw : within [.mode, .laneState, .life, .press, .raa, .eic, .staging, .bank, .bist, .link, .sluices, .ports, .lifetime, .log, .free] ps = true) (hk : changesOnly ps z s) :
    changesOnly ps z (thenState q0 (execRreq w s)) := by
  refine changes_step hw ?_ hk
  clear hk
  unfold execRreq
  dsimp only [thenState]
  repeat' first
    | with_reducible exact changesOnly_refl _ _
    | with_reducible apply chg_raaCall
    | (show within _ _ = true; decide)

theorem chg_execRcan {ps : List Part} {z : State} (w : PressWord) (s : State) (q0 : State) (hw : within [.mode, .laneState, .life, .press, .raa, .eic, .staging, .bank, .bist, .link, .sluices, .ports, .lifetime, .log, .free] ps = true) (hk : changesOnly ps z s) :
    changesOnly ps z (thenState q0 (execRcan w s)) := by
  refine changes_step hw ?_ hk
  clear hk
  unfold execRcan
  dsimp only [thenState]
  repeat' first
    | with_reducible exact changesOnly_refl _ _
    | with_reducible apply chg_raaCall
    | (show within _ _ = true; decide)

theorem chg_execEcmd {ps : List Part} {z : State} (w : PressWord) (s : State) (q0 : State) (hw : within [.mode, .laneState, .life, .press, .raa, .eic, .staging, .bank, .bist, .link, .sluices, .ports, .lifetime, .log, .free] ps = true) (hk : changesOnly ps z s) :
    changesOnly ps z (thenState q0 (execEcmd w s)) := by
  refine changes_step hw ?_ hk
  clear hk
  unfold execEcmd
  dsimp only [thenState]
  repeat' first
    | with_reducible exact changesOnly_refl _ _
    | with_reducible apply chg_raaCall
    | (show within _ _ = true; decide)

theorem chg_edgeOp {ps : List Part} {z : State} (w : PressWord) (f : Bool → Bool → Bool) (s : State) (hw : within [.mode, .laneState, .life, .press, .raa, .eic, .staging, .bank, .bist, .link, .sluices, .ports, .lifetime, .log, .free] ps = true) (hk : changesOnly ps z s) :
    changesOnly ps z (edgeOp w f s) := by
  refine changes_step hw ?_ hk
  clear hk
  unfold edgeOp
  try dsimp only
  repeat' first
    | with_reducible exact changesOnly_refl _ _
    | with_reducible apply chg_runWord
    | (show within _ _ = true; decide)

theorem chg_timerOp {ps : List Part} {z : State} (w : PressWord) (f : Time → Nat → Bool → TimerRec → TimerRec) (s : State) (hw : within [.mode, .laneState, .life, .press, .raa, .eic, .staging, .bank, .bist, .link, .sluices, .ports, .lifetime, .log, .free] ps = true) (hk : changesOnly ps z s) :
    changesOnly ps z (timerOp w f s) := by
  refine changes_step hw ?_ hk
  clear hk
  unfold timerOp
  try dsimp only
  repeat' first
    | with_reducible exact changesOnly_refl _ _
    | with_reducible apply chg_runWord
    | (show within _ _ = true; decide)

theorem chg_counterOp {ps : List Part} {z : State} (w : PressWord) (f : Word → CounterRec → CounterRec) (s : State) (hw : within [.mode, .laneState, .life, .press, .raa, .eic, .staging, .bank, .bist, .link, .sluices, .ports, .lifetime, .log, .free] ps = true) (hk : changesOnly ps z s) :
    changesOnly ps z (counterOp w f s) := by
  refine changes_step hw ?_ hk
  clear hk
  unfold counterOp
  try dsimp only
  repeat' first
    | with_reducible exact changesOnly_refl _ _
    | with_reducible apply chg_runWord
    | (show within _ _ = true; decide)

theorem chg_execEdgp {ps : List Part} {z : State} (w : PressWord) (s : State) (q0 : State) (hw : within [.mode, .laneState, .life, .press, .raa, .eic, .staging, .bank, .bist, .link, .sluices, .ports, .lifetime, .log, .free] ps = true) (hk : changesOnly ps z s) :
    changesOnly ps z (thenState q0 (execEdgp w s)) := by
  refine changes_step hw ?_ hk
  clear hk
  unfold execEdgp
  dsimp only [thenState]
  repeat' first
    | with_reducible exact changesOnly_refl _ _
    | with_reducible apply chg_edgeOp
    | (show within _ _ = true; decide)

theorem chg_execEdgn {ps : List Part} {z : State} (w : PressWord) (s : State) (q0 : State) (hw : within [.mode, .laneState, .life, .press, .raa, .eic, .staging, .bank, .bist, .link, .sluices, .ports, .lifetime, .log, .free] ps = true) (hk : changesOnly ps z s) :
    changesOnly ps z (thenState q0 (execEdgn w s)) := by
  refine changes_step hw ?_ hk
  clear hk
  unfold execEdgn
  dsimp only [thenState]
  repeat' first
    | with_reducible exact changesOnly_refl _ _
    | with_reducible apply chg_edgeOp
    | (show within _ _ = true; decide)

theorem chg_execTon {ps : List Part} {z : State} (w : PressWord) (s : State) (q0 : State) (hw : within [.mode, .laneState, .life, .press, .raa, .eic, .staging, .bank, .bist, .link, .sluices, .ports, .lifetime, .log, .free] ps = true) (hk : changesOnly ps z s) :
    changesOnly ps z (thenState q0 (execTon w s)) := by
  refine changes_step hw ?_ hk
  clear hk
  unfold execTon
  dsimp only [thenState]
  repeat' first
    | with_reducible exact changesOnly_refl _ _
    | with_reducible apply chg_timerOp
    | (show within _ _ = true; decide)

theorem chg_execTof {ps : List Part} {z : State} (w : PressWord) (s : State) (q0 : State) (hw : within [.mode, .laneState, .life, .press, .raa, .eic, .staging, .bank, .bist, .link, .sluices, .ports, .lifetime, .log, .free] ps = true) (hk : changesOnly ps z s) :
    changesOnly ps z (thenState q0 (execTof w s)) := by
  refine changes_step hw ?_ hk
  clear hk
  unfold execTof
  dsimp only [thenState]
  repeat' first
    | with_reducible exact changesOnly_refl _ _
    | with_reducible apply chg_timerOp
    | (show within _ _ = true; decide)

theorem chg_execTp {ps : List Part} {z : State} (w : PressWord) (s : State) (q0 : State) (hw : within [.mode, .laneState, .life, .press, .raa, .eic, .staging, .bank, .bist, .link, .sluices, .ports, .lifetime, .log, .free] ps = true) (hk : changesOnly ps z s) :
    changesOnly ps z (thenState q0 (execTp w s)) := by
  refine changes_step hw ?_ hk
  clear hk
  unfold execTp
  dsimp only [thenState]
  repeat' first
    | with_reducible exact changesOnly_refl _ _
    | with_reducible apply chg_timerOp
    | (show within _ _ = true; decide)

theorem chg_execTrs {ps : List Part} {z : State} (w : PressWord) (s : State) (q0 : State) (hw : within [.mode, .laneState, .life, .press, .raa, .eic, .staging, .bank, .bist, .link, .sluices, .ports, .lifetime, .log, .free] ps = true) (hk : changesOnly ps z s) :
    changesOnly ps z (thenState q0 (execTrs w s)) := by
  refine changes_step hw ?_ hk
  clear hk
  unfold execTrs
  dsimp only [thenState]
  repeat' first
    | with_reducible exact changesOnly_refl _ _
    | with_reducible apply chg_runWord
    | (show within _ _ = true; decide)

theorem chg_execCtu {ps : List Part} {z : State} (w : PressWord) (s : State) (q0 : State) (hw : within [.mode, .laneState, .life, .press, .raa, .eic, .staging, .bank, .bist, .link, .sluices, .ports, .lifetime, .log, .free] ps = true) (hk : changesOnly ps z s) :
    changesOnly ps z (thenState q0 (execCtu w s)) := by
  refine changes_step hw ?_ hk
  clear hk
  unfold execCtu
  dsimp only [thenState]
  repeat' first
    | with_reducible exact changesOnly_refl _ _
    | with_reducible apply chg_counterOp
    | (show within _ _ = true; decide)

theorem chg_execCtd {ps : List Part} {z : State} (w : PressWord) (s : State) (q0 : State) (hw : within [.mode, .laneState, .life, .press, .raa, .eic, .staging, .bank, .bist, .link, .sluices, .ports, .lifetime, .log, .free] ps = true) (hk : changesOnly ps z s) :
    changesOnly ps z (thenState q0 (execCtd w s)) := by
  refine changes_step hw ?_ hk
  clear hk
  unfold execCtd
  dsimp only [thenState]
  repeat' first
    | with_reducible exact changesOnly_refl _ _
    | with_reducible apply chg_counterOp
    | (show within _ _ = true; decide)

theorem chg_execCrs {ps : List Part} {z : State} (w : PressWord) (s : State) (q0 : State) (hw : within [.mode, .laneState, .life, .press, .raa, .eic, .staging, .bank, .bist, .link, .sluices, .ports, .lifetime, .log, .free] ps = true) (hk : changesOnly ps z s) :
    changesOnly ps z (thenState q0 (execCrs w s)) := by
  refine changes_step hw ?_ hk
  clear hk
  unfold execCrs
  dsimp only [thenState]
  repeat' first
    | with_reducible exact changesOnly_refl _ _
    | with_reducible apply chg_counterOp
    | (show within _ _ = true; decide)

theorem chg_execCld {ps : List Part} {z : State} (w : PressWord) (s : State) (q0 : State) (hw : within [.mode, .laneState, .life, .press, .raa, .eic, .staging, .bank, .bist, .link, .sluices, .ports, .lifetime, .log, .free] ps = true) (hk : changesOnly ps z s) :
    changesOnly ps z (thenState q0 (execCld w s)) := by
  refine changes_step hw ?_ hk
  clear hk
  unfold execCld
  dsimp only [thenState]
  repeat' first
    | with_reducible exact changesOnly_refl _ _
    | with_reducible apply chg_counterOp
    | (show within _ _ = true; decide)

theorem chg_wordOp {ps : List Part} {z : State} (w : PressWord) (f : Strand → Word → Strand) (s : State) (hw : within [.mode, .laneState, .life, .press, .raa, .eic, .staging, .bank, .bist, .link, .sluices, .ports, .lifetime, .log, .free] ps = true) (hk : changesOnly ps z s) :
    changesOnly ps z (wordOp w f s) := by
  refine changes_step hw ?_ hk
  clear hk
  unfold wordOp
  try dsimp only
  repeat' first
    | with_reducible exact changesOnly_refl _ _
    | with_reducible apply chg_runWord
    | (show within _ _ = true; decide)

theorem chg_execLw {ps : List Part} {z : State} (w : PressWord) (s : State) (q0 : State) (hw : within [.mode, .laneState, .life, .press, .raa, .eic, .staging, .bank, .bist, .link, .sluices, .ports, .lifetime, .log, .free] ps = true) (hk : changesOnly ps z s) :
    changesOnly ps z (thenState q0 (execLw w s)) := by
  refine changes_step hw ?_ hk
  clear hk
  unfold execLw
  dsimp only [thenState]
  repeat' first
    | with_reducible exact changesOnly_refl _ _
    | with_reducible apply chg_wordOp
    | (show within _ _ = true; decide)

theorem chg_execSw {ps : List Part} {z : State} (w : PressWord) (s : State) (q0 : State) (hw : within [.mode, .laneState, .life, .press, .raa, .eic, .staging, .bank, .bist, .link, .sluices, .ports, .lifetime, .log, .free] ps = true) (hk : changesOnly ps z s) :
    changesOnly ps z (thenState q0 (execSw w s)) := by
  refine changes_step hw ?_ hk
  clear hk
  unfold execSw
  dsimp only [thenState]
  repeat' first
    | with_reducible exact changesOnly_refl _ _
    | with_reducible apply chg_runWord
    | (show within _ _ = true; decide)

theorem chg_execLi {ps : List Part} {z : State} (w : PressWord) (s : State) (q0 : State) (hw : within [.mode, .laneState, .life, .press, .raa, .eic, .staging, .bank, .bist, .link, .sluices, .ports, .lifetime, .log, .free] ps = true) (hk : changesOnly ps z s) :
    changesOnly ps z (thenState q0 (execLi w s)) := by
  refine changes_step hw ?_ hk
  clear hk
  unfold execLi
  dsimp only [thenState]
  repeat' first
    | with_reducible exact changesOnly_refl _ _
    | with_reducible apply chg_runWord
    | (show within _ _ = true; decide)

theorem chg_execLih {ps : List Part} {z : State} (w : PressWord) (s : State) (q0 : State) (hw : within [.mode, .laneState, .life, .press, .raa, .eic, .staging, .bank, .bist, .link, .sluices, .ports, .lifetime, .log, .free] ps = true) (hk : changesOnly ps z s) :
    changesOnly ps z (thenState q0 (execLih w s)) := by
  refine changes_step hw ?_ hk
  clear hk
  unfold execLih
  dsimp only [thenState]
  repeat' first
    | with_reducible exact changesOnly_refl _ _
    | with_reducible apply chg_runWord
    | (show within _ _ = true; decide)

theorem chg_execAdd {ps : List Part} {z : State} (w : PressWord) (s : State) (q0 : State) (hw : within [.mode, .laneState, .life, .press, .raa, .eic, .staging, .bank, .bist, .link, .sluices, .ports, .lifetime, .log, .free] ps = true) (hk : changesOnly ps z s) :
    changesOnly ps z (thenState q0 (execAdd w s)) := by
  refine changes_step hw ?_ hk
  clear hk
  unfold execAdd
  dsimp only [thenState]
  repeat' first
    | with_reducible exact changesOnly_refl _ _
    | with_reducible apply chg_wordOp
    | (show within _ _ = true; decide)

theorem chg_execSub {ps : List Part} {z : State} (w : PressWord) (s : State) (q0 : State) (hw : within [.mode, .laneState, .life, .press, .raa, .eic, .staging, .bank, .bist, .link, .sluices, .ports, .lifetime, .log, .free] ps = true) (hk : changesOnly ps z s) :
    changesOnly ps z (thenState q0 (execSub w s)) := by
  refine changes_step hw ?_ hk
  clear hk
  unfold execSub
  dsimp only [thenState]
  repeat' first
    | with_reducible exact changesOnly_refl _ _
    | with_reducible apply chg_wordOp
    | (show within _ _ = true; decide)

theorem chg_execCmpeq {ps : List Part} {z : State} (w : PressWord) (s : State) (q0 : State) (hw : within [.mode, .laneState, .life, .press, .raa, .eic, .staging, .bank, .bist, .link, .sluices, .ports, .lifetime, .log, .free] ps = true) (hk : changesOnly ps z s) :
    changesOnly ps z (thenState q0 (execCmpeq w s)) := by
  refine changes_step hw ?_ hk
  clear hk
  unfold execCmpeq
  dsimp only [thenState]
  repeat' first
    | with_reducible exact changesOnly_refl _ _
    | with_reducible apply chg_wordOp
    | (show within _ _ = true; decide)

theorem chg_execCmpge {ps : List Part} {z : State} (w : PressWord) (s : State) (q0 : State) (hw : within [.mode, .laneState, .life, .press, .raa, .eic, .staging, .bank, .bist, .link, .sluices, .ports, .lifetime, .log, .free] ps = true) (hk : changesOnly ps z s) :
    changesOnly ps z (thenState q0 (execCmpge w s)) := by
  refine changes_step hw ?_ hk
  clear hk
  unfold execCmpge
  dsimp only [thenState]
  repeat' first
    | with_reducible exact changesOnly_refl _ _
    | with_reducible apply chg_wordOp
    | (show within _ _ = true; decide)

theorem chg_execCmplt {ps : List Part} {z : State} (w : PressWord) (s : State) (q0 : State) (hw : within [.mode, .laneState, .life, .press, .raa, .eic, .staging, .bank, .bist, .link, .sluices, .ports, .lifetime, .log, .free] ps = true) (hk : changesOnly ps z s) :
    changesOnly ps z (thenState q0 (execCmplt w s)) := by
  refine changes_step hw ?_ hk
  clear hk
  unfold execCmplt
  dsimp only [thenState]
  repeat' first
    | with_reducible exact changesOnly_refl _ _
    | with_reducible apply chg_wordOp
    | (show within _ _ = true; decide)

theorem chg_execWand {ps : List Part} {z : State} (w : PressWord) (s : State) (q0 : State) (hw : within [.mode, .laneState, .life, .press, .raa, .eic, .staging, .bank, .bist, .link, .sluices, .ports, .lifetime, .log, .free] ps = true) (hk : changesOnly ps z s) :
    changesOnly ps z (thenState q0 (execWand w s)) := by
  refine changes_step hw ?_ hk
  clear hk
  unfold execWand
  dsimp only [thenState]
  repeat' first
    | with_reducible exact changesOnly_refl _ _
    | with_reducible apply chg_wordOp
    | (show within _ _ = true; decide)

theorem chg_execWor {ps : List Part} {z : State} (w : PressWord) (s : State) (q0 : State) (hw : within [.mode, .laneState, .life, .press, .raa, .eic, .staging, .bank, .bist, .link, .sluices, .ports, .lifetime, .log, .free] ps = true) (hk : changesOnly ps z s) :
    changesOnly ps z (thenState q0 (execWor w s)) := by
  refine changes_step hw ?_ hk
  clear hk
  unfold execWor
  dsimp only [thenState]
  repeat' first
    | with_reducible exact changesOnly_refl _ _
    | with_reducible apply chg_wordOp
    | (show within _ _ = true; decide)

theorem chg_execTld {ps : List Part} {z : State} (w : PressWord) (s : State) (q0 : State) (hw : within [.mode, .laneState, .life, .press, .raa, .eic, .staging, .bank, .bist, .link, .sluices, .ports, .lifetime, .log, .free] ps = true) (hk : changesOnly ps z s) :
    changesOnly ps z (thenState q0 (execTld w s)) := by
  refine changes_step hw ?_ hk
  clear hk
  unfold execTld
  dsimp only [thenState]
  repeat' first
    | with_reducible exact changesOnly_refl _ _
    | with_reducible apply chg_runWord
    | (show within _ _ = true; decide)

theorem chg_execCacc {ps : List Part} {z : State} (w : PressWord) (s : State) (q0 : State) (hw : within [.mode, .laneState, .life, .press, .raa, .eic, .staging, .bank, .bist, .link, .sluices, .ports, .lifetime, .log, .free] ps = true) (hk : changesOnly ps z s) :
    changesOnly ps z (thenState q0 (execCacc w s)) := by
  refine changes_step hw ?_ hk
  clear hk
  unfold execCacc
  dsimp only [thenState]
  repeat' first
    | with_reducible exact changesOnly_refl _ _
    | with_reducible apply chg_runWord
    | (show within _ _ = true; decide)

theorem chg_execXld {ps : List Part} {z : State} (w : PressWord) (s : State) (q0 : State) (hw : within [.mode, .laneState, .life, .press, .raa, .eic, .staging, .bank, .bist, .link, .sluices, .ports, .lifetime, .log, .free] ps = true) (hk : changesOnly ps z s) :
    changesOnly ps z (thenState q0 (execXld w s)) := by
  refine changes_step hw ?_ hk
  clear hk
  unfold execXld
  dsimp only [thenState]
  repeat' first
    | with_reducible exact changesOnly_refl _ _
    | with_reducible apply chg_runWord
    | (show within _ _ = true; decide)

theorem chg_execRsld {ps : List Part} {z : State} (w : PressWord) (s : State) (q0 : State) (hw : within [.mode, .laneState, .life, .press, .raa, .eic, .staging, .bank, .bist, .link, .sluices, .ports, .lifetime, .log, .free] ps = true) (hk : changesOnly ps z s) :
    changesOnly ps z (thenState q0 (execRsld w s)) := by
  refine changes_step hw ?_ hk
  clear hk
  unfold execRsld
  dsimp only [thenState]
  repeat' first
    | with_reducible exact changesOnly_refl _ _
    | with_reducible apply chg_runWord
    | (show within _ _ = true; decide)

theorem chg_execSatt {ps : List Part} {z : State} (w : PressWord) (s : State) (q0 : State) (hw : within [.mode, .laneState, .life, .press, .raa, .eic, .staging, .bank, .bist, .link, .sluices, .ports, .lifetime, .log, .free] ps = true) (hk : changesOnly ps z s) :
    changesOnly ps z (thenState q0 (execSatt w s)) := by
  refine changes_step hw ?_ hk
  clear hk
  unfold execSatt
  dsimp only [thenState]
  repeat' first
    | with_reducible exact changesOnly_refl _ _
    | with_reducible apply chg_runWord
    | (show within _ _ = true; decide)

end Sys2Proof.Laws
end

