-- ==== Sys2Proof/Laws/ChangesRegs.lean ====
section
/-!
SUPPORT. The parts of the state that every operation of register writes may change (Safety.changesOnly), one lemma for each operation
and for each command.
-/

namespace Sys2Proof.Laws

open Sys2Proof.Machine Sys2Proof.Safety

theorem chg_modShown {ps : List Part} {z : State} (s : State) (p : Port) (f : Ring → Ring) (hw : within [.ports] ps = true) (hk : changesOnly ps z s) :
    changesOnly ps z (modShown s p f) := by
  refine changes_step hw ?_ hk
  clear hk
  unfold modShown
  try dsimp only
  repeat' first
    | with_reducible exact changesOnly_refl _ _
    | with_reducible apply chg_modSq
    | with_reducible apply chg_modCq
    | (show within _ _ = true; decide)
    | split

theorem chg_writeRingCtrl {ps : List Part} {z : State} (s : State) (p : Port) (v : Word) (hw : within [.eic, .mbx, .ports] ps = true) (hk : changesOnly ps z s) :
    changesOnly ps z (writeRingCtrl s p v) := by
  refine changes_step hw ?_ hk
  clear hk
  unfold writeRingCtrl
  try dsimp only
  repeat' first
    | with_reducible exact changesOnly_refl _ _
    | with_reducible apply chg_execRingDisable
    | with_reducible apply chg_execRingEnable
    | with_reducible apply chg_modShown
    | (show within _ _ = true; decide)
    | split

theorem chg_writeRingBase {ps : List Part} {z : State} (s : State) (p : Port) (high : Bool) (v : Word) (hw : within [.ports] ps = true) (hk : changesOnly ps z s) :
    changesOnly ps z (writeRingBase s p high v) := by
  refine changes_step hw ?_ hk
  clear hk
  unfold writeRingBase
  try dsimp only
  repeat' first
    | with_reducible exact changesOnly_refl _ _
    | with_reducible apply chg_modShown
    | (show within _ _ = true; decide)

theorem chg_writeMbx {ps : List Part} {z : State} (s : State) (p : Port) (off : Nat) (v : Word) (hw : within [.eic, .mbx, .ports] ps = true) (hk : changesOnly ps z s) :
    changesOnly ps z (writeMbx s p off v) := by
  refine changes_step hw ?_ hk
  clear hk
  unfold writeMbx
  try dsimp only
  repeat' first
    | with_reducible exact changesOnly_refl _ _
    | with_reducible apply chg_writeRingCtrl
    | with_reducible apply chg_writeRingBase
    | with_reducible apply changes_modPort
    | (show within _ _ = true; decide)
    | (show List.contains _ _ = true; decide)
    | split

theorem chg_writeEicMap {ps : List Part} {z : State} (s : State) (a : RegAccess) (k : Nat) (n : Fin 32) (v : Word) (hw : within [.eic, .ports] ps = true) (hk : changesOnly ps z s) :
    changesOnly ps z (writeEicMap s a k n v) := by
  refine changes_step hw ?_ hk
  clear hk
  unfold writeEicMap
  try dsimp only
  repeat' first
    | with_reducible exact changesOnly_refl _ _
    | with_reducible apply chg_execEicEnableSet
    | with_reducible apply chg_execEicEnableClr
    | with_reducible apply chg_execEicPendingSet
    | with_reducible apply chg_execEicPendingClr
    | with_reducible apply chg_execEicTargetH0Set
    | with_reducible apply chg_execEicTargetH0Clr
    | with_reducible apply chg_execEicTargetH1Set
    | with_reducible apply chg_execEicTargetH1Clr
    | with_reducible apply chg_execEicCompatPend
    | with_reducible apply chg_execEicOvfClr
    | (show within _ _ = true; decide)
    | split

theorem chg_writeEicTarget {ps : List Part} {z : State} (s : State) (a : RegAccess) (off : Nat) (v : Word) (hw : within [.eic, .ports] ps = true) (hk : changesOnly ps z s) :
    changesOnly ps z (writeEicTarget s a off v) := by
  refine changes_step hw ?_ hk
  clear hk
  unfold writeEicTarget
  try dsimp only
  repeat' first
    | with_reducible exact changesOnly_refl _ _
    | with_reducible apply chg_eicSettleAll
    | with_reducible apply chg_execEicComplete
    | (show within _ _ = true; decide)
    | split

theorem chg_writeEic {ps : List Part} {z : State} (s : State) (a : RegAccess) (off : Nat) (v : Word) (hw : within [.eic, .ports] ps = true) (hk : changesOnly ps z s) :
    changesOnly ps z (writeEic s a off v) := by
  refine changes_step hw ?_ hk
  clear hk
  unfold writeEic
  try dsimp only
  repeat' first
    | with_reducible exact changesOnly_refl _ _
    | with_reducible apply chg_eicUpd
    | with_reducible apply chg_writeEicMap
    | with_reducible apply chg_writeEicTarget
    | (show within _ _ = true; decide)
    | split

theorem chg_writeParam {ps : List Part} {z : State} (s : State) (l : Lane) (u : Nat) (f : UserCtx → UserCtx) (hw : within [.chk] ps = true) (hk : changesOnly ps z s) :
    changesOnly ps z (writeParam s l u f) := by
  refine changes_step hw ?_ hk
  clear hk
  unfold writeParam
  try dsimp only
  repeat' first
    | with_reducible exact changesOnly_refl _ _
    | with_reducible apply changes_modLane
    | (show within _ _ = true; decide)
    | with_reducible apply laneOnly_refl
    | with_reducible apply chg_modUser

theorem chg_writeUserCmd {ps : List Part} {z : State} (s : State) (a : RegAccess) (u : Fin 64) (v : Word) (hw : within [.eic, .chk, .ports] ps = true) (hk : changesOnly ps z s) :
    changesOnly ps z (writeUserCmd s a u v) := by
  refine changes_step hw ?_ hk
  clear hk
  unfold writeUserCmd
  try dsimp only
  repeat' first
    | with_reducible exact changesOnly_refl _ _
    | with_reducible apply chg_execChkClose
    | with_reducible apply chg_execChkInit
    | (show within _ _ = true; decide)
    | split

theorem chg_writeUser {ps : List Part} {z : State} (s : State) (a : RegAccess) (u : Fin 64) (n : Nat) (v : Word) (hw : within [.eic, .chk, .ports] ps = true) (hk : changesOnly ps z s) :
    changesOnly ps z (writeUser s a u n v) := by
  refine changes_step hw ?_ hk
  clear hk
  unfold writeUser
  try dsimp only
  repeat' first
    | with_reducible exact changesOnly_refl _ _
    | with_reducible apply chg_execChkUCtrl
    | with_reducible apply chg_writeParam
    | with_reducible apply chg_execChkURun
    | with_reducible apply chg_writeUserCmd
    | with_reducible apply changes_modLane
    | (show within _ _ = true; decide)
    | with_reducible apply laneOnly_refl
    | with_reducible apply chg_modUser
    | split

theorem chg_writeChk {ps : List Part} {z : State} (s : State) (a : RegAccess) (off : Nat) (v : Word) (hw : within [.eic, .chk, .ports] ps = true) (hk : changesOnly ps z s) :
    changesOnly ps z (writeChk s a off v) := by
  refine changes_step hw ?_ hk
  clear hk
  unfold writeChk
  try dsimp only
  repeat' first
    | with_reducible exact changesOnly_refl _ _
    | with_reducible apply chg_writeUser
    | with_reducible apply changes_modLane
    | (show within _ _ = true; decide)
    | (show laneOnly _ _ _; intro p hp; (cases p <;> first | exact Bool.noConfusion (show true = false from hp) | exact trivial | rfl | exact ⟨rfl, rfl⟩ | exact ⟨rfl, rfl, rfl⟩))
    | split

theorem chg_writeRom {ps : List Part} {z : State} (s : State) (l : Lane) (off : Nat) (v : Word) (hw : within [.boot] ps = true) (hk : changesOnly ps z s) :
    changesOnly ps z (writeRom s l off v) := by
  refine changes_step hw ?_ hk
  clear hk
  unfold writeRom
  try dsimp only
  repeat' first
    | with_reducible exact changesOnly_refl _ _
    | with_reducible apply changes_modLane
    | (show laneOnly _ _ _; intro p hp; (cases p <;> first | exact Bool.noConfusion (show true = false from hp) | exact trivial | rfl | exact ⟨rfl, rfl⟩ | exact ⟨rfl, rfl, rfl⟩))
    | split

theorem chg_writeWindow {ps : List Part} {z : State} (s : State) (a : RegAccess) (off : Nat) (v : Word) (hw : within [.sessions, .fieldIn, .eic, .chk, .staging, .mbx, .ports] ps = true) (hk : changesOnly ps z s) :
    changesOnly ps z (writeWindow s a off v) := by
  refine changes_step hw ?_ hk
  clear hk
  unfold writeWindow
  try dsimp only
  repeat' first
    | with_reducible exact changesOnly_refl _ _
    | with_reducible apply chg_writeMbx
    | with_reducible apply chg_writeEic
    | with_reducible apply chg_writeChk
    | with_reducible apply changes_modLane
    | (show within _ _ = true; decide)
    | (show laneOnly _ _ _; intro p hp; (cases p <;> first | exact Bool.noConfusion (show true = false from hp) | exact trivial | rfl | exact ⟨rfl, rfl⟩ | exact ⟨rfl, rfl, rfl⟩))
    | split

theorem chg_execRegisterWrite {ps : List Part} {z : State} (a : RegAccess) (place : RegPlace) (value : Word) (s : State) (q0 : State) (hw : within [.sessions, .fieldIn, .eic, .chk, .staging, .mbx, .boot, .ports] ps = true) (hk : changesOnly ps z s) :
    changesOnly ps z (thenState q0 (execRegisterWrite a place value s)) := by
  refine changes_step hw ?_ hk
  clear hk
  unfold execRegisterWrite
  dsimp only [thenState]
  repeat' first
    | with_reducible exact changesOnly_refl _ _
    | with_reducible apply chg_countAccess
    | with_reducible apply chg_writeRom
    | with_reducible apply chg_writeWindow
    | with_reducible apply changes_modPort
    | (show within _ _ = true; decide)
    | (show List.contains _ _ = true; decide)
    | (show ∀ q, _ → sameModule q _ _; intro p hp; (cases p <;> first | exact Bool.noConfusion (show true = false from hp) | exact trivial | rfl | exact ⟨rfl, rfl⟩ | exact ⟨rfl, rfl, rfl⟩))
    | split

end Sys2Proof.Laws
end

