-- ==== Sys2Proof/Laws/Crossing.lean ====
section
/-!
SUPPORT. The refreshes of the crossing on the wire: a refresh that nothing disturbs is received, and one whose CHECK alone is disturbed is
not (R255 to R257).
-/

namespace Sys2Proof.Machine

/-- The CRC-16 register holds 16 bits (R383). -/
theorem crc16_bit_lt (r : Nat) (b : Bool) : crcBit crc16 r b < 2 ^ 16 := by
  unfold crcBit
  have h : r * 2 % 2 ^ crc16.width < 2 ^ 16 := Nat.mod_lt _ (by decide)
  simp only
  split
  · exact h
  · exact Nat.xor_lt_two_pow h (by decide)

theorem crc16_bits_lt : ∀ (bs : List Bool) (r : Nat), r < 2 ^ 16 → bs.foldl (crcBit crc16) r < 2 ^ 16
  | [], _, h => h
  | b :: bs, r, _ => crc16_bits_lt bs _ (crc16_bit_lt r b)

theorem crc16_run_lt : ∀ (bs : List Byte) (r : Nat), r < 2 ^ 16 → crcRun crc16 r bs < 2 ^ 16
  | [], _, h => h
  | x :: bs, r, h => crc16_run_lt bs _ (crc16_bits_lt (byteBits false x) r h)

theorem crc16_lt (bs : List Byte) : crcOf crc16 bs < 65536 := by
  have h : crcOf crc16 bs = crcRun crc16 0xFFFF bs := by simp [crcOf, crcOut, crc16]
  rw [h]
  exact crc16_run_lt bs _ (by decide)

theorem ofLe_le2 (v : Nat) (h : v < 65536) : ofLe (le 2 v) = v := by
  simp [le, ofLe]
  omega

/-- R257: the CHECK of a frame as sent verifies. -/
theorem checkGood_checked (n : Nat) (body : List Byte) (h : body.length + 2 = n) : checkGood n (checked body) = true := by
  subst h
  simp [checkGood, checked, ofLe_le2 _ (crc16_lt _)]

theorem le_length : ∀ n v : Nat, (le n v).length = n
  | 0, _ => rfl
  | n + 1, v => by simp [le, le_length n]

/-- R255, R257: the field die receives a downstream refresh that nothing disturbs. -/
theorem receiveDown_undisturbed (d : DownFrame) : receiveDown d 0 = some (downOf (downBytes d)) := by
  have h : checkGood 64 (downBytes d) = true := checkGood_checked _ _ (by simp [le_length])
  simp [receiveDown, disturbed, h]

/-- R256, R257: a lane receives an upstream refresh that nothing disturbs as it was sent. -/
theorem receiveUp_undisturbed (u : UpFrame) : receiveUp u 0 = some u := by
  have h : checkGood 128 (upBytes u) = true := checkGood_checked _ _ (by simp [le_length])
  simp [receiveUp, disturbed, h]

theorem lget_eq {α} (d : α) : ∀ (xs : List α) (i : Nat) (h : i < xs.length), lget d xs i = xs[i]
  | _ :: _, 0, _ => rfl
  | _ :: xs, i + 1, h => lget_eq d xs i (Nat.lt_of_succ_lt_succ h)

/-- A mask of one bit, in the byte after the first k. -/
theorem toNat_mask (w k : Nat) (h : k < w) : (BitVec.ofNat (8 * w) (256 ^ k)).toNat = 256 ^ k := by
  have e : 2 ^ (8 * w) = 256 ^ w := by rw [Nat.pow_mul]
  rw [BitVec.toNat_ofNat, e, Nat.mod_eq_of_lt (Nat.pow_lt_pow_right (by decide) h)]

/-- The mask of one bit in the byte after the first k leaves those as they are. -/
theorem disturbed_after {w : Nat} (body : List Byte) (x y : Byte) (err : BitVec w) (h : err.toNat = 256 ^ body.length) :
    disturbed (body ++ [x, y]) err = body ++ [x ^^^ 1, y] := by
  have h0 : err ≠ 0 := fun e => by
    rw [e] at h
    exact absurd h (Nat.ne_of_lt (Nat.pow_pos (by decide : 0 < 256)))
  unfold disturbed
  rw [if_neg h0, h]
  refine List.ext_getElem (by simp) (fun i h1 h2 => ?_)
  simp only [List.length_map, List.length_range, List.length_append, List.length_cons, List.length_nil] at h1
  rw [List.getElem_map, List.getElem_range, lget_eq _ _ _ (by simpa using h1)]
  rcases Nat.lt_or_ge i body.length with hi | hi
  · have e : BitVec.ofNat 8 (256 ^ body.length / 256 ^ i) = 0 := by
      rw [Nat.pow_div (by omega) (by decide)]
      obtain ⟨j, hj⟩ : ∃ j, body.length - i = j + 1 := ⟨body.length - i - 1, by omega⟩
      rw [hj, Nat.pow_succ]
      apply BitVec.eq_of_toNat_eq
      simp [Nat.mul_mod_left]
    rw [e, List.getElem_append_left hi, List.getElem_append_left hi]
    simp
  · rw [List.getElem_append_right hi, List.getElem_append_right hi]
    rcases (by omega : i = body.length ∨ i = body.length + 1) with rfl | rfl
    · simp [Nat.div_self (Nat.pow_pos (by decide : 0 < 256))]
    · have e : 256 ^ body.length / 256 ^ (body.length + 1) = 0 := Nat.div_eq_of_lt (Nat.pow_lt_pow_right (by decide) (by omega))
      simp [e]

theorem xor_one_ne (x : Byte) : x ^^^ 1 ≠ x := by
  intro h
  have := congrArg (x ^^^ ·) h
  simp [← BitVec.xor_assoc] at this

/-- A CHECK with its first bit wrong does not verify (R257). -/
theorem checkGood_flipped (n : Nat) (body : List Byte) (h : body.length + 2 = n) (a b : Byte) (hab : le 2 (crcOf crc16 body) = [a, b]) :
    checkGood n (body ++ [a ^^^ 1, b]) = false := by
  subst h
  have hv : ofLe [a, b] = crcOf crc16 body := by rw [← hab, ofLe_le2 _ (crc16_lt _)]
  have ht : (a ^^^ 1).toNat ≠ a.toNat := fun e => xor_one_ne a (BitVec.eq_of_toNat_eq e)
  have hd : (body ++ [a ^^^ 1, b]).drop (body.length + 2 - 2) = [a ^^^ 1, b] := by simp
  have hk : (body ++ [a ^^^ 1, b]).take (body.length + 2 - 2) = body := by simp
  unfold checkGood
  rw [hd, hk, decide_eq_false_iff_not, ← hv]
  simp only [ofLe]
  omega

/-- R257: the field die discards a downstream refresh whose CHECK has its first bit wrong. -/
theorem receiveDown_flipped (d : DownFrame) : receiveDown d (BitVec.ofNat 512 (256 ^ 62)) = none := by
  obtain ⟨body, hb, hl⟩ : ∃ body, downBytes d = checked body ∧ body.length = 62 := ⟨_, rfl, by simp [le_length]⟩
  have e := fun x y => disturbed_after body x y (BitVec.ofNat 512 (256 ^ 62)) (by rw [hl]; exact toNat_mask 64 62 (by decide))
  have g := checkGood_flipped 64 body (by rw [hl]) _ _ rfl
  simp only [receiveDown, hb]
  unfold checked
  rw [show le 2 (crcOf crc16 body) = [_, _] from rfl, e, g]
  rfl

/-- R257: a lane discards an upstream refresh whose CHECK has its first bit wrong. -/
theorem receiveUp_flipped (u : UpFrame) : receiveUp u (BitVec.ofNat 1024 (256 ^ 126)) = none := by
  obtain ⟨body, hb, hl⟩ : ∃ body, upBytes u = checked body ∧ body.length = 126 := ⟨_, rfl, by simp [le_length]⟩
  have e := fun x y => disturbed_after body x y (BitVec.ofNat 1024 (256 ^ 126)) (by rw [hl]; exact toNat_mask 128 126 (by decide))
  have g := checkGood_flipped 128 body (by rw [hl]) _ _ rfl
  simp only [receiveUp, hb]
  unfold checked
  rw [show le 2 (crcOf crc16 body) = [_, _] from rfl, e, g]
  rfl

end Sys2Proof.Machine
end

