-- ==== Sys2Proof/Machine/Diverse.lean ====
section
/-!
DEFINITION. The lanes' representations (R110, R111): how the cells of a lane's Press data partition, its element states, its lock
SRAM's words, its branch stacks and its COG, ACC and SAT stand in silicon, and how lane B computes on complements. State holds the logical
values; the held forms are views of them.
-/

namespace Sys2Proof.Machine

/-- The n-bit bit reversal of an index. -/
def bitReverse : Nat → Nat → Nat
  | 0, _ => 0
  | n + 1, i => i % 2 * 2 ^ n + bitReverse n (i / 2)

/-- Where a lane holds index i of a space of 2^n words or records (R110). -/
def heldAt (l : Lane) (n i : Nat) : Nat := match l with
  | .A => i | .B => i | .C => bitReverse n i

/-- How a lane holds a 32-bit word: plain, complemented, or with bit b at b XOR 21 (R110). -/
def heldWord (l : Lane) (w : Word) : Word := match l with
  | .A => w
  | .B => ~~~ w
  | .C => bitsFrom 32 (fun b => w.getLsbD (b ^^^ 21))

/-- The value that a lane sends or shows for a word that it holds (R111). -/
def plainWord (l : Lane) (w : Word) : Word := match l with
  | .A => w
  | .B => ~~~ w
  | .C => bitsFrom 32 (fun b => w.getLsbD (b ^^^ 21))

/-- How a lane holds a single bit, such as COG or SAT (R110). -/
def heldBit (l : Lane) (b : Bool) : Bool := match l with
  | .A => b | .B => !b | .C => b

/-- The spaces of R84 that hold data, the element-state SRAM and the lock SRAM (R110, R118). -/
inductive HeldSpace where
  | iv | ifv | q | m | t | c | e | w | lv | lf | lq | x | rs | elems | locks
deriving DecidableEq, Repr

/-- n for a space of 2^n words or records (R84, R110): of T, C, X, the element states and the locks, in the 32 words that the load area
gives each of 1,024 parts of the lock SRAM (R355), the records count, of the others the words. -/
def spaceSize : HeldSpace → Nat
  | .iv => 12 | .ifv => 12 | .q => 12 | .m => 15 | .t => 14 | .c => 13 | .e => 11 | .w => 16 | .lv => 9 | .lf => 9 | .lq => 9
  | .x => 16 | .rs => 13 | .elems => 16 | .locks => 10

/-- The 32-bit words of a list of bytes, least significant byte first. -/
def wordList (bs : List Byte) : List Word :=
  (List.range (bs.length / 4)).map (fun i => BitVec.ofNat 32 (ofLe ((bs.drop (4 * i)).take 4)))

/-- The two words of 64 bits. -/
def twoWords (x : BitVec 64) : List Word := [x.setWidth 32, (x >>> 32).setWidth 32]

/-- The plain words of record i of a space (R84). The bytes of a timer and a counter record are those of their load blocks, whose
layout the silicon fixes (R343); two route status words share a word (DESIGN CHOICE, log entry 61). -/
def spaceCell (L : LaneState) (sp : HeldSpace) (i : Nat) : List Word :=
  let d := L.press.data
  match sp with
  | .iv => [bitWord d.iv i]
  | .ifv => [bitWord d.ifv i]
  | .q => [bitWord d.q i]
  | .m => [bitWord d.m i]
  | .t => wordList (((areaBlock (areaOf L) (584 + i / 16)).drop (16 * (i % 16))).take 16)
  | .c => wordList (((areaBlock (areaOf L) (1608 + i / 32)).drop (8 * (i % 32))).take 8)
  | .e => [bitWord d.e i]
  | .w => [sget 0 d.w i]
  | .lv => [bitWord d.lv i]
  | .lf => [bitWord d.lf i]
  | .lq => [bitWord d.lq i]
  | .x => twoWords (sget 0 d.x i)
  | .rs => [pack [(0, (sget 0 d.rs (2 * i)).toNat), (16, (sget 0 d.rs (2 * i + 1)).toNat)]]
  | .elems => let x := elemOf L.raa i; twoWords (elemWord x) ++ twoWords x.changeTime
  | .locks => wordList (((areaBlock (areaOf L) (7016 + i / 2)).drop (128 * (i % 2))).take 128)

/-- What the SRAM of a lane holds at record i of a space: the record whose place that is, in the lane's form (R110). -/
def heldCell (l : Lane) (L : LaneState) (sp : HeldSpace) (i : Nat) : List Word :=
  (spaceCell L sp (heldAt l (spaceSize sp) i)).map (heldWord l)

/-- What a lane sends, or shows to the host, for record i of a space: read at its place and taken out of the lane's form (R111). -/
def shownCell (l : Lane) (L : LaneState) (sp : HeldSpace) (i : Nat) : List Word :=
  (heldCell l L sp (heldAt l (spaceSize sp) i)).map (plainWord l)

/-- COG, ACC and SAT of a strand as the lane holds them (R110). -/
def heldStrand (l : Lane) (x : Strand) : Bool × Word × Bool := (heldBit l x.cog, heldWord l x.acc, heldBit l x.sat)

/-- An entry of a branch stack as a lane holds it (R84, R110): the value of an expression entry, the return address of a call entry. -/
inductive HeldEntry where
  | expr (v : Bool)
  | call (ret : Word)
deriving DecidableEq, Repr

/-- A strand's branch stack as its lane holds it: the stacks lie in the Press data SRAM (R84, R110). -/
def heldStack (l : Lane) (x : Strand) : List HeldEntry :=
  x.stack.map (fun e => match e with | .expr v => .expr (heldBit l v) | .call a => .call (heldWord l (BitVec.ofNat 32 a)))

/-! ### The datapath of lane B (R110) -/

/-- AND and OR of two complemented operands: each is carried out as the other. -/
def compAnd (a b : Word) : Word := a ||| b
def compOr (a b : Word) : Word := a &&& b

/-- ADD on complements: the addition of complements adds one; the sum has overflowed where the complements add up to less than
2³² − 1, and the saturated result is held as 0 with SAT held as 0 (R103). -/
def compAdd (a b : Word) (sat : Bool) : Word × Bool :=
  if a.toNat + b.toNat < 0xFFFFFFFF then (0, false) else (a + b + 1, sat)

/-- SUB on complements: it falls below 0 where the complement of the first operand is the larger one, and its result is then held as
0xFFFF_FFFF with SAT held as 0 (R103). -/
def compSub (a b : Word) (sat : Bool) : Word × Bool :=
  if b.toNat < a.toNat then (0xFFFFFFFF, false) else (a - b - 1, sat)

/-- CMPGE and CMPLT on complements give COG as lane B holds it. -/
def compGe (a b : Word) : Bool := !decide (a.toNat ≤ b.toNat)
def compLt (a b : Word) : Bool := decide (a.toNat ≤ b.toNat)

end Sys2Proof.Machine
end

