-- ==== Sys2Proof/Laws/Diverse.lean ====
section
/-!
SUPPORT. The datapath of lane B on complements gives the complements of the plain results (R110).
-/

namespace Sys2Proof.Machine

theorem compAnd_held (a b : Word) : compAnd (heldWord .B a) (heldWord .B b) = heldWord .B (a &&& b) := by
  simp [compAnd, heldWord, BitVec.not_and]

theorem compOr_held (a b : Word) : compOr (heldWord .B a) (heldWord .B b) = heldWord .B (a ||| b) := by
  simp [compOr, heldWord, BitVec.not_or]

/-- A complement as a number. -/
theorem held_toNat (a : Word) : (heldWord .B a).toNat = 0xFFFFFFFF - a.toNat := by simp [heldWord, BitVec.toNat_not]

theorem compAdd_held (x : Strand) (v : Word) :
    compAdd (heldWord .B x.acc) (heldWord .B v) (heldBit .B x.sat) =
      (heldWord .B (strandAdd x v).acc, heldBit .B (strandAdd x v).sat) := by
  have h1 := x.acc.isLt
  have h2 := v.isLt
  simp only [compAdd, strandAdd, held_toNat]
  by_cases h : x.acc.toNat + v.toNat > 0xFFFFFFFF
  · rw [if_pos (by omega), if_pos h]; simp [heldWord, heldBit]
  · rw [if_neg (by omega), if_neg h]
    exact Prod.ext (by simp only [heldWord]; bv_omega) rfl

theorem compSub_held (x : Strand) (v : Word) :
    compSub (heldWord .B x.acc) (heldWord .B v) (heldBit .B x.sat) =
      (heldWord .B (strandSub x v).acc, heldBit .B (strandSub x v).sat) := by
  have h1 := x.acc.isLt
  have h2 := v.isLt
  simp only [compSub, strandSub, held_toNat]
  by_cases h : x.acc.toNat < v.toNat
  · rw [if_pos (by omega), if_pos h]; simp [heldWord, heldBit]
  · rw [if_neg (by omega), if_neg h]
    exact Prod.ext (by simp only [heldWord]; bv_omega) rfl

theorem compGe_held (a b : Word) : compGe (heldWord .B a) (heldWord .B b) = heldBit .B (decide (a.toNat ≥ b.toNat)) := by
  have h1 := a.isLt
  have h2 := b.isLt
  simp only [compGe, heldBit, held_toNat]
  congr 1
  exact decide_eq_decide.2 (by omega)

theorem compLt_held (a b : Word) : compLt (heldWord .B a) (heldWord .B b) = heldBit .B (decide (a.toNat < b.toNat)) := by
  have h1 := a.isLt
  have h2 := b.isLt
  simp only [compLt, heldBit, held_toNat]
  rw [Bool.eq_iff_iff]
  simp only [decide_eq_true_eq, Bool.not_eq_true', decide_eq_false_iff_not]
  omega

end Sys2Proof.Machine
end

