-- ==== Sys2Proof/Laws/Words.lean ====
section
/-!
SUPPORT. Register words: a word packed from fields as a number, its bits and fields, and the saturating counts.
-/

namespace Sys2Proof.Laws

open Sys2Proof.Machine

theorem bit_lt (b : Bool) : bit b < 2 := by cases b <;> decide

theorem bit_dec (b : Bool) : decide (bit b = 1) = b := by cases b <;> rfl

/-- A bit of a word that a Bool gives. -/
theorem bit_of (n : Nat) (b : Bool) (h : n = bit b) : decide (n = 1) = b := by rw [h]; exact bit_dec b

/-- A packed word as a number; rewrite a word with it before anything unfolds the sum. -/
theorem pack_val (fs : List (Nat × Nat)) : pack fs = BitVec.ofNat 32 (fs.foldl (fun n f => n + f.2 * 2 ^ f.1) 0) := by
  unfold pack; rfl

theorem getLsbD_word (n i : Nat) (hi : i < 32) : (BitVec.ofNat 32 n).getLsbD i = decide (n / 2 ^ i % 2 = 1) := by
  rw [BitVec.getLsbD_ofNat, Nat.testBit_eq_decide_div_mod_eq, decide_eq_true hi, Bool.true_and]

theorem toNat_word {n : Nat} (h : n < 4294967296) : (BitVec.ofNat 32 n).toNat = n := by
  rw [BitVec.toNat_ofNat]; exact Nat.mod_eq_of_lt h

end Sys2Proof.Laws
end

