-- ==== Sys2Proof/Laws/Eic.lean ====
section
/-!
SUPPORT. What the shared operations of the interrupt controller do: each lemma says everything an update of one source changes.
-/

namespace Sys2Proof.Laws

open Sys2Proof.Machine Sys2Proof.Safety

theorem lane_modLane_self (s : State) (l : Lane) (f : LaneState → LaneState) : lane (modLane s l f) l = f (lane s l) := by
  rw [lane_modLane, if_pos rfl]

theorem lane_modLane_other (s : State) {l m : Lane} (f : LaneState → LaneState) (h : m ≠ l) : lane (modLane s l f) m = lane s m := by
  rw [lane_modLane, if_neg h]

@[simp] theorem lane_modPort (s : State) (p : Port) (f : PortState → PortState) (m : Lane) : lane (modPort s p f) m = lane s m := rfl

@[simp] theorem lane_answer (s : State) (v : Word) (m : Lane) : lane (answer s v) m = lane s m := rfl

theorem lane_eicMessage (s : State) (x : EicSrc) (b a : Option EicTarget) (m : Lane) : lane (eicMessage s x b a) m = lane s m := by
  unfold eicMessage
  repeat' split
  all_goals rfl

/-- A move changes at most what the source is moved to, and the count of moves (R374). -/
theorem eicMove_spec (s : State) (e : Eic) (n : Nat) :
    ∃ mv c, eicMove s e n = { e with srcs := sput EicSrc.reset e.srcs n { eicSrc e n with moved := mv }, movedCount := c } ∨
      eicMove s e n = e := by
  unfold eicMove
  dsimp only
  repeat' split
  all_goals first
    | exact ⟨_, _, Or.inl rfl⟩
    | exact ⟨none, 0, Or.inr rfl⟩

/-- The source that an update of one source names: f of it but for the move; every other source as before (R364, R368, R374). -/
theorem eicUpd_src (s : State) (l : Lane) (n k : Nat) (f : EicSrc → EicSrc) :
    if k = n ∧ eicUsed n = true then
      ∃ mv, eicSrc (lane (eicUpd s l n f) l).eic k = { f (eicSrc (lane s l).eic k) with moved := mv }
    else eicSrc (lane (eicUpd s l n f) l).eic k = eicSrc (lane s l).eic k := by
  unfold eicUpd
  by_cases hu : eicUsed n = true
  · rw [if_pos hu]
    unfold eicSettle
    dsimp only
    rw [lane_eicMessage, lane_modLane_self]
    dsimp only
    have hs := sget_smod EicSrc.reset (lane s l).eic.srcs n k f
    obtain ⟨mv, c, h | h⟩ := eicMove_spec s { (lane s l).eic with srcs := smod EicSrc.reset (lane s l).eic.srcs n f } n
    · rw [h]
      unfold eicSrc
      dsimp only
      rw [sget_sput]
      by_cases hk : k = n
      · subst hk
        rw [if_pos ⟨rfl, hu⟩, if_pos rfl]
        exact ⟨mv, by rw [hs, if_pos rfl]⟩
      · rw [if_neg (fun h => hk h.1), if_neg hk, hs, if_neg hk]
    · rw [h]
      unfold eicSrc
      dsimp only
      rw [hs]
      by_cases hk : k = n
      · subst hk
        rw [if_pos ⟨rfl, hu⟩, if_pos rfl]
        exact ⟨(f (sget EicSrc.reset (lane s l).eic.srcs k)).moved, rfl⟩
      · rw [if_neg (fun h => hk h.1), if_neg hk]
  · rw [if_neg hu, if_neg (fun h => hu h.2)]

/-- An update of one source leaves every other lane as it is. -/
theorem lane_eicUpd_other (s : State) {l m : Lane} (n : Nat) (f : EicSrc → EicSrc) (h : m ≠ l) :
    lane (eicUpd s l n f) m = lane s m := by
  unfold eicUpd
  split
  · unfold eicSettle
    rw [lane_eicMessage, lane_modLane_other _ _ h]
  · rfl

/-- An update of one source leaves the rest of its lane as it is. -/
theorem lane_eicUpd_self (s : State) (l : Lane) (n : Nat) (f : EicSrc → EicSrc) :
    ∃ e, lane (eicUpd s l n f) l = { lane s l with eic := e } := by
  unfold eicUpd
  split
  · unfold eicSettle
    rw [lane_eicMessage, lane_modLane_self]
    exact ⟨_, rfl⟩
  · exact ⟨_, rfl⟩

/-- Bits of a vector, each once. -/
theorem mem_bitsOf {w : Nat} (v : BitVec w) (i : Nat) : i ∈ bitsOf v ↔ v.getLsbD i = true := by
  unfold bitsOf
  rw [List.mem_filter, List.mem_range]
  exact ⟨fun h => h.2, fun h => ⟨BitVec.lt_of_getLsbD h, h⟩⟩

theorem bitsOf_nodup {w : Nat} (v : BitVec w) : (bitsOf v).Nodup := List.Pairwise.filter _ List.nodup_range

theorem eicFold_spec (l : Lane) (b : Nat) (f : EicSrc → EicSrc) (is : List Nat) (hn : is.Nodup) (s : State) :
    (∀ m, m ≠ l → lane (foldS is (fun s i => eicUpd s l (b + i) f) s) m = lane s m) ∧
    (∃ e, lane (foldS is (fun s i => eicUpd s l (b + i) f) s) l = { lane s l with eic := e }) ∧
    ∀ k, if (∃ i ∈ is, k = b + i) ∧ eicUsed k = true then
      ∃ mv, eicSrc (lane (foldS is (fun s i => eicUpd s l (b + i) f) s) l).eic k = { f (eicSrc (lane s l).eic k) with moved := mv }
    else eicSrc (lane (foldS is (fun s i => eicUpd s l (b + i) f) s) l).eic k = eicSrc (lane s l).eic k := by
  unfold foldS
  induction is generalizing s with
  | nil => exact ⟨fun _ _ => rfl, ⟨_, rfl⟩, fun k => by rw [if_neg (by simp)]; rfl⟩
  | cons a is ih =>
    obtain ⟨hna, hn⟩ := List.nodup_cons.1 hn
    obtain ⟨i1, ⟨e, i2⟩, i3⟩ := ih hn (eicUpd s l (b + a) f)
    refine ⟨fun m hm => (i1 m hm).trans (lane_eicUpd_other _ _ _ hm), ?_, fun k => ?_⟩
    · obtain ⟨e', h'⟩ := lane_eicUpd_self s l (b + a) f
      refine ⟨e, i2.trans ?_⟩
      rw [h']
    · have u := eicUpd_src s l (b + a) k f
      have i3 := i3 k
      by_cases hk : k = b + a
      · subst hk
        have hout : ¬ ∃ i ∈ is, b + a = b + i := fun ⟨i, hi, he⟩ => hna (by have : a = i := by omega
                                                                            rw [this]; exact hi)
        rw [if_neg (fun h => hout h.1)] at i3
        by_cases hu : eicUsed (b + a) = true
        · rw [if_pos ⟨rfl, hu⟩] at u
          rw [if_pos ⟨⟨a, List.mem_cons_self, rfl⟩, hu⟩]
          obtain ⟨mv, u⟩ := u
          exact ⟨mv, i3.trans u⟩
        · rw [if_neg (fun h => hu h.2)] at u
          rw [if_neg (fun h => hu h.2)]
          exact i3.trans u
      · rw [if_neg (fun h => hk h.1)] at u
        by_cases hi : (∃ i ∈ is, k = b + i) ∧ eicUsed k = true
        · rw [if_pos hi] at i3
          obtain ⟨mv, i3⟩ := i3
          obtain ⟨⟨i, h1, h2⟩, hu⟩ := hi
          rw [if_pos ⟨⟨i, List.mem_cons_of_mem _ h1, h2⟩, hu⟩]
          refine ⟨mv, i3.trans ?_⟩
          rw [u]
        · rw [if_neg hi] at i3
          rw [if_neg (fun h => hi ⟨by
            obtain ⟨⟨i, h1, h2⟩, _⟩ := h
            rcases List.mem_cons.1 h1 with rfl | h1
            · exact absurd h2 hk
            · exact ⟨i, h1, h2⟩, h.2⟩)]
          exact i3.trans u

end Sys2Proof.Laws
end

