-- ==== Sys2Proof/Laws/State.lean ====
section
/-!
SUPPORT. One lemma per field of the state and per named update of it, so that no later proof unfolds a record update.
-/

namespace Sys2Proof.Laws

open Sys2Proof.Machine

@[simp] theorem mod_modLane (s : State) (l : Lane) (f : LaneState → LaneState) :
    (modLane s l f).mod = s.mod := rfl
@[simp] theorem lanes_modLane (s : State) (l : Lane) (f : LaneState → LaneState) :
    (modLane s l f).lanes = s.lanes.set l (f (s.lanes.get l)) := rfl
@[simp] theorem sluices_modLane (s : State) (l : Lane) (f : LaneState → LaneState) :
    (modLane s l f).sluices = s.sluices := rfl
@[simp] theorem alk_modLane (s : State) (l : Lane) (f : LaneState → LaneState) :
    (modLane s l f).alk = s.alk := rfl
@[simp] theorem field_modLane (s : State) (l : Lane) (f : LaneState → LaneState) :
    (modLane s l f).field = s.field := rfl
@[simp] theorem ports_modLane (s : State) (l : Lane) (f : LaneState → LaneState) :
    (modLane s l f).ports = s.ports := rfl
@[simp] theorem twin_modLane (s : State) (l : Lane) (f : LaneState → LaneState) :
    (modLane s l f).twin = s.twin := rfl
@[simp] theorem cellar_modLane (s : State) (l : Lane) (f : LaneState → LaneState) :
    (modLane s l f).cellar = s.cellar := rfl
@[simp] theorem hostMem_modLane (s : State) (l : Lane) (f : LaneState → LaneState) :
    (modLane s l f).hostMem = s.hostMem := rfl
@[simp] theorem bus_modLane (s : State) (l : Lane) (f : LaneState → LaneState) :
    (modLane s l f).bus = s.bus := rfl
@[simp] theorem free_modLane (s : State) (l : Lane) (f : LaneState → LaneState) :
    (modLane s l f).free = s.free := rfl
@[simp] theorem pending_modLane (s : State) (l : Lane) (f : LaneState → LaneState) :
    (modLane s l f).pending = s.pending := rfl

@[simp] theorem mod_modLanes (s : State) (f : Lane → LaneState → LaneState) :
    (modLanes s f).mod = s.mod := rfl
@[simp] theorem lanes_modLanes (s : State) (f : Lane → LaneState → LaneState) :
    (modLanes s f).lanes = s.lanes.map f := rfl
@[simp] theorem sluices_modLanes (s : State) (f : Lane → LaneState → LaneState) :
    (modLanes s f).sluices = s.sluices := rfl
@[simp] theorem alk_modLanes (s : State) (f : Lane → LaneState → LaneState) :
    (modLanes s f).alk = s.alk := rfl
@[simp] theorem field_modLanes (s : State) (f : Lane → LaneState → LaneState) :
    (modLanes s f).field = s.field := rfl
@[simp] theorem ports_modLanes (s : State) (f : Lane → LaneState → LaneState) :
    (modLanes s f).ports = s.ports := rfl
@[simp] theorem twin_modLanes (s : State) (f : Lane → LaneState → LaneState) :
    (modLanes s f).twin = s.twin := rfl
@[simp] theorem cellar_modLanes (s : State) (f : Lane → LaneState → LaneState) :
    (modLanes s f).cellar = s.cellar := rfl
@[simp] theorem hostMem_modLanes (s : State) (f : Lane → LaneState → LaneState) :
    (modLanes s f).hostMem = s.hostMem := rfl
@[simp] theorem bus_modLanes (s : State) (f : Lane → LaneState → LaneState) :
    (modLanes s f).bus = s.bus := rfl
@[simp] theorem free_modLanes (s : State) (f : Lane → LaneState → LaneState) :
    (modLanes s f).free = s.free := rfl
@[simp] theorem pending_modLanes (s : State) (f : Lane → LaneState → LaneState) :
    (modLanes s f).pending = s.pending := rfl

@[simp] theorem mod_modSluice (s : State) (l : Lane) (f : Sluice → Sluice) :
    (modSluice s l f).mod = s.mod := rfl
@[simp] theorem lanes_modSluice (s : State) (l : Lane) (f : Sluice → Sluice) :
    (modSluice s l f).lanes = s.lanes := rfl
@[simp] theorem sluices_modSluice (s : State) (l : Lane) (f : Sluice → Sluice) :
    (modSluice s l f).sluices = s.sluices.set l (f (s.sluices.get l)) := rfl
@[simp] theorem alk_modSluice (s : State) (l : Lane) (f : Sluice → Sluice) :
    (modSluice s l f).alk = s.alk := rfl
@[simp] theorem field_modSluice (s : State) (l : Lane) (f : Sluice → Sluice) :
    (modSluice s l f).field = s.field := rfl
@[simp] theorem ports_modSluice (s : State) (l : Lane) (f : Sluice → Sluice) :
    (modSluice s l f).ports = s.ports := rfl
@[simp] theorem twin_modSluice (s : State) (l : Lane) (f : Sluice → Sluice) :
    (modSluice s l f).twin = s.twin := rfl
@[simp] theorem cellar_modSluice (s : State) (l : Lane) (f : Sluice → Sluice) :
    (modSluice s l f).cellar = s.cellar := rfl
@[simp] theorem hostMem_modSluice (s : State) (l : Lane) (f : Sluice → Sluice) :
    (modSluice s l f).hostMem = s.hostMem := rfl
@[simp] theorem bus_modSluice (s : State) (l : Lane) (f : Sluice → Sluice) :
    (modSluice s l f).bus = s.bus := rfl
@[simp] theorem free_modSluice (s : State) (l : Lane) (f : Sluice → Sluice) :
    (modSluice s l f).free = s.free := rfl
@[simp] theorem pending_modSluice (s : State) (l : Lane) (f : Sluice → Sluice) :
    (modSluice s l f).pending = s.pending := rfl

@[simp] theorem mod_modSluices (s : State) (f : Lane → Sluice → Sluice) :
    (modSluices s f).mod = s.mod := rfl
@[simp] theorem lanes_modSluices (s : State) (f : Lane → Sluice → Sluice) :
    (modSluices s f).lanes = s.lanes := rfl
@[simp] theorem sluices_modSluices (s : State) (f : Lane → Sluice → Sluice) :
    (modSluices s f).sluices = s.sluices.map f := rfl
@[simp] theorem alk_modSluices (s : State) (f : Lane → Sluice → Sluice) :
    (modSluices s f).alk = s.alk := rfl
@[simp] theorem field_modSluices (s : State) (f : Lane → Sluice → Sluice) :
    (modSluices s f).field = s.field := rfl
@[simp] theorem ports_modSluices (s : State) (f : Lane → Sluice → Sluice) :
    (modSluices s f).ports = s.ports := rfl
@[simp] theorem twin_modSluices (s : State) (f : Lane → Sluice → Sluice) :
    (modSluices s f).twin = s.twin := rfl
@[simp] theorem cellar_modSluices (s : State) (f : Lane → Sluice → Sluice) :
    (modSluices s f).cellar = s.cellar := rfl
@[simp] theorem hostMem_modSluices (s : State) (f : Lane → Sluice → Sluice) :
    (modSluices s f).hostMem = s.hostMem := rfl
@[simp] theorem bus_modSluices (s : State) (f : Lane → Sluice → Sluice) :
    (modSluices s f).bus = s.bus := rfl
@[simp] theorem free_modSluices (s : State) (f : Lane → Sluice → Sluice) :
    (modSluices s f).free = s.free := rfl
@[simp] theorem pending_modSluices (s : State) (f : Lane → Sluice → Sluice) :
    (modSluices s f).pending = s.pending := rfl

@[simp] theorem mod_modPort (s : State) (p : Port) (f : PortState → PortState) :
    (modPort s p f).mod = s.mod := rfl
@[simp] theorem lanes_modPort (s : State) (p : Port) (f : PortState → PortState) :
    (modPort s p f).lanes = s.lanes := rfl
@[simp] theorem sluices_modPort (s : State) (p : Port) (f : PortState → PortState) :
    (modPort s p f).sluices = s.sluices := rfl
@[simp] theorem alk_modPort (s : State) (p : Port) (f : PortState → PortState) :
    (modPort s p f).alk = s.alk := rfl
@[simp] theorem field_modPort (s : State) (p : Port) (f : PortState → PortState) :
    (modPort s p f).field = s.field := rfl
@[simp] theorem ports_modPort (s : State) (p : Port) (f : PortState → PortState) :
    (modPort s p f).ports = s.ports.set p (f (s.ports.get p)) := rfl
@[simp] theorem twin_modPort (s : State) (p : Port) (f : PortState → PortState) :
    (modPort s p f).twin = s.twin := rfl
@[simp] theorem cellar_modPort (s : State) (p : Port) (f : PortState → PortState) :
    (modPort s p f).cellar = s.cellar := rfl
@[simp] theorem hostMem_modPort (s : State) (p : Port) (f : PortState → PortState) :
    (modPort s p f).hostMem = s.hostMem := rfl
@[simp] theorem bus_modPort (s : State) (p : Port) (f : PortState → PortState) :
    (modPort s p f).bus = s.bus := rfl
@[simp] theorem free_modPort (s : State) (p : Port) (f : PortState → PortState) :
    (modPort s p f).free = s.free := rfl
@[simp] theorem pending_modPort (s : State) (p : Port) (f : PortState → PortState) :
    (modPort s p f).pending = s.pending := rfl

@[simp] theorem mod_modLife (s : State) (f : Lifetime → Lifetime) :
    (modLife s f).mod = s.mod := rfl
@[simp] theorem lanes_modLife (s : State) (f : Lifetime → Lifetime) :
    (modLife s f).lanes = s.lanes := rfl
@[simp] theorem sluices_modLife (s : State) (f : Lifetime → Lifetime) :
    (modLife s f).sluices = s.sluices := rfl
@[simp] theorem alk_modLife (s : State) (f : Lifetime → Lifetime) :
    (modLife s f).alk = s.alk := rfl
@[simp] theorem field_modLife (s : State) (f : Lifetime → Lifetime) :
    (modLife s f).field = s.field := rfl
@[simp] theorem ports_modLife (s : State) (f : Lifetime → Lifetime) :
    (modLife s f).ports = s.ports := rfl
@[simp] theorem twin_modLife (s : State) (f : Lifetime → Lifetime) :
    (modLife s f).twin = s.twin := rfl
@[simp] theorem cellar_modLife (s : State) (f : Lifetime → Lifetime) :
    (modLife s f).cellar = { s.cellar with life := f s.cellar.life } := rfl
@[simp] theorem hostMem_modLife (s : State) (f : Lifetime → Lifetime) :
    (modLife s f).hostMem = s.hostMem := rfl
@[simp] theorem bus_modLife (s : State) (f : Lifetime → Lifetime) :
    (modLife s f).bus = s.bus := rfl
@[simp] theorem free_modLife (s : State) (f : Lifetime → Lifetime) :
    (modLife s f).free = s.free := rfl
@[simp] theorem pending_modLife (s : State) (f : Lifetime → Lifetime) :
    (modLife s f).pending = s.pending := rfl

@[simp] theorem lane_modSluice (s : State) (l : Lane) (f : Sluice → Sluice) (m : Lane) : lane (modSluice s l f) m = lane s m := rfl
@[simp] theorem lane_modSluices (s : State) (f : Lane → Sluice → Sluice) (m : Lane) : lane (modSluices s f) m = lane s m := rfl
@[simp] theorem lane_modLife (s : State) (f : Lifetime → Lifetime) (m : Lane) : lane (modLife s f) m = lane s m := rfl

@[simp] theorem get_set_self {α : Type} (x : PerLane α) (l : Lane) (a : α) : (x.set l a).get l = a := by cases l <;> rfl

theorem get_set_other {α : Type} (x : PerLane α) {l m : Lane} (a : α) (h : m ≠ l) : (x.set l a).get m = x.get m := by
  cases l <;> cases m <;> first | rfl | exact absurd rfl h

@[simp] theorem set_get {α : Type} (x : PerLane α) (l : Lane) : x.set l (x.get l) = x := by cases l <;> rfl

@[simp] theorem get_map {α β : Type} (f : Lane → α → β) (x : PerLane α) (l : Lane) : (x.map f).get l = f l (x.get l) := by
  cases l <;> rfl

end Sys2Proof.Laws
end

