-- ==== Sys2Proof/Laws/Isolate.lean ====
section
/-!
SUPPORT. What the isolation of a lane does, said once: Safety.LaneOut.
-/

namespace Sys2Proof.Laws

open Sys2Proof.Machine Sys2Proof.Safety

/-- What the module's answer to a loss leaves of a lane, its Sluice and its totals (R170, R176). -/
structure Beyond (s t : State) : Prop where
  lane : ∀ m, (lane t m).life.st = (lane s m).life.st ∧ (lane t m).life.cause = (lane s m).life.cause ∧
    (lane t m).life.isoCycle = (lane s m).life.isoCycle ∧ (lane t m).press = (lane s m).press ∧ (lane t m).raa = (lane s m).raa
  sluice : ∀ m, (t.sluices.get m).voting = (s.sluices.get m).voting ∧ (t.sluices.get m).vctl = (s.sluices.get m).vctl ∧
    ((s.sluices.get m).now = 0 → (t.sluices.get m).now = 0) ∧ ((s.sluices.get m).next = 0 → (t.sluices.get m).next = 0) ∧
    ((s.sluices.get m).latch = true → (t.sluices.get m).latch = true)
  totals : t.cellar.life.lanes = s.cellar.life.lanes
  bank : ∀ m, (Machine.lane t m).bank = (Machine.lane s m).bank

theorem beyond_refl (s : State) : Beyond s s :=
  ⟨fun _ => ⟨rfl, rfl, rfl, rfl, rfl⟩, fun _ => ⟨rfl, rfl, id, id, id⟩, rfl, fun _ => rfl⟩

theorem beyond_trans {s t u : State} (h : Beyond s t) (k : Beyond t u) : Beyond s u := by
  refine ⟨fun m => ?_, fun m => ?_, k.totals.trans h.totals, fun m => (k.bank m).trans (h.bank m)⟩
  · obtain ⟨a1, a2, a3, a4, a5⟩ := h.lane m
    obtain ⟨b1, b2, b3, b4, b5⟩ := k.lane m
    exact ⟨b1.trans a1, b2.trans a2, b3.trans a3, b4.trans a4, b5.trans a5⟩
  · obtain ⟨a1, a2, a3, a4, a5⟩ := h.sluice m
    obtain ⟨b1, b2, b3, b4, b5⟩ := k.sluice m
    exact ⟨b1.trans a1, b2.trans a2, fun x => b3 (a3 x), fun x => b4 (a4 x), fun x => b5 (a5 x)⟩

theorem life_same {a b : LaneState} (h : sameLane .life a b) : b.life = { a.life with st := b.life.st } := by
  have h2 : ({ b.life with st := LaneSt.boot } : LaneLife) = { a.life with st := LaneSt.boot } := h
  have h3 : b.life = { ({ b.life with st := LaneSt.boot } : LaneLife) with st := b.life.st } := rfl
  rw [h2] at h3
  exact h3

/-- An operation that touches none of these parts is beyond them. -/
theorem beyond_of {ps : List Part} {s t : State} (h : changesOnly ps s t)
    (hp : within ps [.mode, .clock, .sessions, .fieldIn, .eic, .chk, .staging, .mbx, .boot, .bist, .rail, .link, .times, .alk,
      .field, .ports, .twin, .log, .hostMem, .bus, .free, .queue] = true) : Beyond s t := by
  have g : ∀ p, _ := fun p => h p
  have hs := (h .sluices (within_out hp rfl)).1
  have hl := (h .lifetime (within_out hp rfl)).1
  refine ⟨fun m => ⟨(h .laneState (within_out hp rfl)).2 m, ?_, ?_, (h .press (within_out hp rfl)).2 m, (h .raa (within_out hp rfl)).2 m⟩, fun m => ?_, ?_,
    fun m => (h .bank (within_out hp rfl)).2 m⟩
  · rw [life_same ((h .life (within_out hp rfl)).2 m)]
  · rw [life_same ((h .life (within_out hp rfl)).2 m)]
  · rw [show t.sluices = s.sluices from hs]; exact ⟨rfl, rfl, id, id, id⟩
  · rw [show t.cellar.life = s.cellar.life from hl]

theorem beyond_foldS {α : Type} (xs : List α) (f : State → α → State) (hf : ∀ t x, Beyond t (f t x)) (s : State) : Beyond s (foldS xs f s) := by
  unfold foldS
  induction xs generalizing s with
  | nil => exact beyond_refl s
  | cons a xs ih => exact beyond_trans (hf s a) (ih _)

theorem beyond_setLatch (s : State) (l : Lane) (c : LatchCause) : Beyond s (setLatch s l c) := by
  refine ⟨fun _ => ⟨rfl, rfl, rfl, rfl, rfl⟩, fun m => ?_, rfl, fun _ => rfl⟩
  unfold setLatch
  by_cases e : m = l
  · subst e
    rw [sluices_modSluice, get_set_self]
    split
    · exact ⟨rfl, rfl, id, id, id⟩
    · exact ⟨rfl, rfl, fun _ => rfl, fun _ => rfl, fun _ => rfl⟩
  · rw [sluices_modSluice, get_set_other _ _ e]
    exact ⟨rfl, rfl, id, id, id⟩

theorem setLatch_self (s : State) (l : Lane) (c : LatchCause) : ((setLatch s l c).sluices.get l).latch = true := by
  unfold setLatch
  simp only [sluices_modSluice, get_set_self]
  split
  · assumption
  · rfl

/-- A change of one lane that leaves its state, its last isolation, its Press, its RAA and its banks. -/
theorem beyond_modLane (s : State) (l : Lane) (f : LaneState → LaneState) (hf : ∀ L, (f L).life.st = L.life.st ∧
    (f L).life.cause = L.life.cause ∧ (f L).life.isoCycle = L.life.isoCycle ∧ (f L).press = L.press ∧ (f L).raa = L.raa)
    (hb : ∀ L, (f L).bank = L.bank) : Beyond s (modLane s l f) := by
  refine ⟨fun m => ?_, fun _ => ⟨rfl, rfl, id, id, id⟩, rfl, fun m => ?_⟩
  · rw [lane_modLane]
    split
    · next e => subst e; exact hf _
    · exact ⟨rfl, rfl, rfl, rfl, rfl⟩
  · rw [lane_modLane]
    split
    · next e => subst e; exact hb _
    · rfl

theorem beyond_recordLane (s : State) (l : Lane) (c : Nat) (p : List Byte) : Beyond s (recordLane s l c p) :=
  beyond_of (chg_recordLane s l c p (by decide) (changesOnly_refl records s)) (by decide)

theorem beyond_endBist (s : State) (l : Lane) : Beyond s (endBist s l) := by
  unfold endBist
  dsimp only
  split
  · exact beyond_refl s
  split
  · exact beyond_of (chg_setPhase s l 0 (by decide) (changesOnly_refl [.bist, .ports] s)) (by decide)
  · refine beyond_trans ?_ (beyond_recordLane _ _ _ _)
    refine beyond_trans ?_ (beyond_modLane _ l _ (fun _ => ⟨rfl, rfl, rfl, rfl, rfl⟩) (fun _ => rfl))
    exact beyond_of (chg_movePhase s l 0 (by decide) (changesOnly_refl [.eic, .bist, .ports] s)) (by decide)

theorem beyond_setModule (s : State) (m : ModSt) : Beyond s (setModule s m) :=
  beyond_of (chg_setModule s m (by decide) (changesOnly_refl [.mode, .eic, .staging, .ports, .log, .free] s)) (by decide)

theorem beyond_recordAll (s : State) (c : Nat) (p : List Byte) : Beyond s (recordAll s c p) :=
  beyond_of (chg_recordAll s c p (by decide) (changesOnly_refl [.eic, .staging, .ports, .log] s)) (by decide)

theorem beyond_eventAll (s : State) (n c : Nat) (p : List Byte) : Beyond s (eventAll s n c p) :=
  beyond_of (chg_eventAll s n c p (by decide) (changesOnly_refl [.eic, .staging, .ports, .log] s)) (by decide)

/-- What the entry into SAFE leaves (R21, R34, R81, R176): lanes keep their states and their last isolations; their Presses and RAAs stop. -/
structure SafeEntered (s t : State) : Prop where
  lane : ∀ m, (lane t m).life.st = (lane s m).life.st ∧ (lane t m).life.cause = (lane s m).life.cause ∧
    (lane t m).life.isoCycle = (lane s m).life.isoCycle ∧ (lane t m).press = stopPress (lane s m).press ∧
    (lane t m).raa = stopRaa (lane s m).raa
  sluice : ∀ m, (t.sluices.get m).voting = (s.sluices.get m).voting ∧ (t.sluices.get m).vctl = (s.sluices.get m).vctl ∧
    ((s.sluices.get m).now = 0 → (t.sluices.get m).now = 0) ∧ ((s.sluices.get m).next = 0 → (t.sluices.get m).next = 0)
  totals : t.cellar.life.lanes = s.cellar.life.lanes
  bank : ∀ m, (Machine.lane t m).bank = (Machine.lane s m).bank

theorem safeEntered_of {s u v t : State} (h : Beyond s u) (k : SafeEntered u v) (g : Beyond v t) : SafeEntered s t := by
  refine ⟨fun m => ?_, fun m => ?_, g.totals.trans (k.totals.trans h.totals), fun m => (g.bank m).trans ((k.bank m).trans (h.bank m))⟩
  · obtain ⟨a1, a2, a3, a4, a5⟩ := h.lane m
    obtain ⟨b1, b2, b3, b4, b5⟩ := k.lane m
    obtain ⟨c1, c2, c3, c4, c5⟩ := g.lane m
    exact ⟨c1.trans (b1.trans a1), c2.trans (b2.trans a2), c3.trans (b3.trans a3), by rw [c4, b4, a4], by rw [c5, b5, a5]⟩
  · obtain ⟨a1, a2, a3, a4, _⟩ := h.sluice m
    obtain ⟨b1, b2, b3, b4⟩ := k.sluice m
    obtain ⟨c1, c2, c3, c4, _⟩ := g.sluice m
    exact ⟨c1.trans (b1.trans a1), c2.trans (b2.trans a2), fun x => c3 (b3 (a3 x)), fun x => c4 (b4 (a4 x))⟩

theorem safeLane_entered (s : State) : SafeEntered s (modLanes s (fun _ L => safeLane L)) :=
  ⟨fun m => by rw [lane_modLanes]; exact ⟨rfl, rfl, rfl, rfl, rfl⟩, fun _ => ⟨rfl, rfl, id, id⟩, rfl, fun m => by rw [lane_modLanes]; rfl⟩

theorem enterSafe_entered (s : State) (h : s.mod.st ≠ .safe) : SafeEntered s (enterSafe s) := by
  unfold enterSafe
  rw [if_neg h]
  exact safeEntered_of (beyond_foldS Lane.list (fun t x => endBist (setLatch t x .follow) x)
    (fun t x => beyond_trans (beyond_setLatch t x .follow) (beyond_endBist _ x)) s) (safeLane_entered _)
    (beyond_trans (beyond_setModule _ _) (beyond_recordAll _ _ _))

theorem enterSafe_again (s : State) (h : s.mod.st = .safe) : enterSafe s = s := by unfold enterSafe; rw [if_pos h]

theorem setModule_st (s : State) (m : ModSt) : (setModule s m).mod.st = m := by
  unfold setModule
  split
  · assumption
  · dsimp only
    exact (chg_eventAll _ _ _ _ (by decide) (changesOnly_refl [.eic, .staging, .ports, .log] _) .mode rfl).1

theorem enterSafe_st (s : State) : (enterSafe s).mod.st = .safe := by
  unfold enterSafe
  split
  · assumption
  · dsimp only
    rw [show (recordAll _ _ _).mod.st = _ from (chg_recordAll _ _ _ (by decide) (changesOnly_refl [.eic, .staging, .ports, .log] _) .mode rfl).1]
    exact setModule_st _ _

/-- Every Sluice has its own finding. -/
theorem setAll_latch (s : State) (c : LatchCause) (m : Lane) :
    ((foldS Lane.list (fun s l => setLatch s l c) s).sluices.get m).latch = true := by
  unfold foldS Lane.list
  simp only [List.foldl_cons, List.foldl_nil]
  have k : ∀ t x, ((t : State).sluices.get m).latch = true → ((setLatch t x c).sluices.get m).latch = true := fun t x => ((beyond_setLatch t x c).sluice m).2.2.2.2
  cases m
  · exact k _ _ (k _ _ (setLatch_self _ _ _))
  · exact k _ _ (setLatch_self _ _ _)
  · exact setLatch_self _ _ _

theorem enterSafe_latch (s : State) (h : s.mod.st ≠ .safe) (m : Lane) : ((enterSafe s).sluices.get m).latch = true := by
  unfold enterSafe
  rw [if_neg h]
  refine ((beyond_recordAll _ _ _).sluice m).2.2.2.2 (((beyond_setModule _ _).sluice m).2.2.2.2 ?_)
  rw [sluices_modLanes]
  unfold foldS Lane.list
  rw [List.foldl_cons, List.foldl_cons, List.foldl_cons, List.foldl_nil]
  have k : ∀ t x, ((t : State).sluices.get m).latch = true → ((endBist (setLatch t x .follow) x).sluices.get m).latch = true :=
    fun t x h => ((beyond_endBist _ x).sluice m).2.2.2.2 (((beyond_setLatch t x .follow).sluice m).2.2.2.2 h)
  have k2 : ∀ t, ((endBist (setLatch t m .follow) m).sluices.get m).latch = true :=
    fun t => ((beyond_endBist _ m).sluice m).2.2.2.2 (setLatch_self _ _ _)
  cases m
  · exact k _ _ (k _ _ (k2 _))
  · exact k _ _ (k2 _)
  · exact k2 _

theorem stopPress_running (p : Press) (i : Fin 4) : (strandOf (stopPress p).strands i).running = false := by
  match i with
  | 0 => rfl
  | 1 => rfl
  | 2 => rfl
  | 3 => rfl

theorem afterLoss_safe (s : State) (c : LatchCause) (h : operating s.mod.st = true) (hn : (servingLanes s).length < 2) :
    afterLoss s c = latchAll s c := by
  unfold afterLoss
  rw [if_pos h, if_pos hn]

theorem afterLoss_mode (s : State) (c : LatchCause) (hn : operating s.mod.st = true → 2 ≤ (servingLanes s).length) :
    (afterLoss s c).mod.st = if s.mod.st = .svc3 ∧ (servingLanes s).length = 2 then .svc2 else s.mod.st := by
  unfold afterLoss
  by_cases h : operating s.mod.st = true
  · rw [if_pos h, if_neg (by have := hn h; omega)]
    split
    · exact setModule_st _ _
    · rfl
  · rw [if_neg h, if_neg]
    rintro ⟨e, _⟩
    rw [e] at h
    exact h rfl

/-- With two lanes serving, a loss changes the module's state alone. -/
theorem beyond_afterLoss (s : State) (c : LatchCause) (hn : operating s.mod.st = true → 2 ≤ (servingLanes s).length) :
    Beyond s (afterLoss s c) := by
  unfold afterLoss
  split
  · next h =>
    rw [if_neg (by have := hn h; omega)]
    split
    · exact beyond_setModule _ _
    · exact beyond_refl _
  · exact beyond_refl _

theorem afterLoss_latch (s : State) (c : LatchCause) (hn : operating s.mod.st = true → 2 ≤ (servingLanes s).length) (m : Lane) :
    latched (afterLoss s c) m = latched s m := by
  unfold afterLoss latched
  split
  · next h =>
    rw [if_neg (by have := hn h; omega)]
    split
    · rw [((chg_setModule s .svc2 (by decide) (changesOnly_refl [.mode, .eic, .staging, .ports, .log, .free] s)) .sluices rfl).1]
    · rfl
  · rfl

theorem servingLanes_of (s u : State) (l : Lane) (hl : lst u l ≠ .serving) (ho : ∀ m, m ≠ l → lst u m = lst s m) :
    servingLanes u = othersServing s l := by
  unfold servingLanes othersServing servingLanes
  rw [List.filter_filter]
  congr 1
  funext m
  unfold serving
  by_cases e : m = l
  · subst e; simp [hl]
  · simp [e, ho m e]

/-- What stands in a lane once it has left, before the module answers (R174). -/
structure LaneLeft (s : State) (l : Lane) (c : IsoCause) (t : State) : Prop where
  retired : retires s l c → lst t l = .retired
  isolated : ¬ retires s l c → lst t l = .isolated
  cause : (lane t l).life.cause = c
  cycle : (lane t l).life.isoCycle = cycle16 s
  stopped : (lane t l).press = stopPress (lane s l).press
  drives : (t.sluices.get l).now = 0 ∧ (t.sluices.get l).next = 0 ∧ (t.sluices.get l).vctl = 0
  dropped : ∀ m, (t.sluices.get m).voting.getLsbD l.idx = false
  total : (t.cellar.life.lanes.get l).isoTotal =
    if meetsPlanned s l c then (s.cellar.life.lanes.get l).isoTotal else satInc (s.cellar.life.lanes.get l).isoTotal
  staging : (lane t l).bank = stageDropped (lane s l).bank ∧ ∀ m, m ≠ l → (lane t m).bank = (lane s m).bank
  others : ∀ m, m ≠ l → lst t m = lst s m ∧ (lane t m).press = (lane s m).press ∧ (lane t m).raa = (lane s m).raa ∧
    t.cellar.life.lanes.get m = s.cellar.life.lanes.get m

theorem laneLeft_beyond {s t u : State} {l : Lane} {c : IsoCause} (h : LaneLeft s l c t) (k : Beyond t u) : LaneLeft s l c u where
  retired := fun r => by unfold lst; rw [(k.lane l).1]; exact h.retired r
  isolated := fun r => by unfold lst; rw [(k.lane l).1]; exact h.isolated r
  cause := by rw [(k.lane l).2.1]; exact h.cause
  cycle := by rw [(k.lane l).2.2.1]; exact h.cycle
  stopped := by rw [(k.lane l).2.2.2.1]; exact h.stopped
  drives := ⟨(k.sluice l).2.2.1 h.drives.1, (k.sluice l).2.2.2.1 h.drives.2.1, by rw [(k.sluice l).2.1]; exact h.drives.2.2⟩
  dropped := fun m => by rw [(k.sluice m).1]; exact h.dropped m
  total := by rw [k.totals]; exact h.total
  staging := ⟨by rw [k.bank]; exact h.staging.1, fun m e => by rw [k.bank]; exact h.staging.2 m e⟩
  others := fun m hm => by
    unfold lst
    rw [(k.lane m).1, (k.lane m).2.2.2.1, (k.lane m).2.2.2.2, k.totals]
    exact h.others m hm

theorem latches_of {ps : List Part} {s t : State} (h : changesOnly ps s t) (hp : ps.contains .sluices = false) (m : Lane) :
    (t.sluices.get m).latch = (s.sluices.get m).latch := by rw [show t.sluices = s.sluices from (h .sluices hp).1]

/-- Latches and serving lanes decide the module's answer beside its state (R176). -/
theorem latchedOut_iff {s u : State} {l : Lane} (hs : servingLanes u = othersServing s l) (ho : operating u.mod.st = operating s.mod.st)
    (hl : ∀ m, latched u m = latched s m) (hn : ¬ (operating s.mod.st = true ∧ (othersServing s l).length < 2)) :
    latchedOut u = true ↔ leavesSafe s l := by
  unfold latchedOut leavesSafe
  have hf : latched u = latched s := funext hl
  simp only [hs, ho, hf, Bool.or_eq_true, Bool.and_eq_true, decide_eq_true_eq, ge_iff_le, gt_iff_lt, List.length_pos_iff_exists_mem,
    List.mem_filter]
  constructor
  · rintro (h | ⟨⟨h1, h2⟩, h3⟩)
    · exact .inr (.inl h)
    · exact .inr (.inr ⟨h3, h1, h2⟩)
  · rintro (h | h | ⟨h1, h2, h3⟩)
    · exact absurd h hn
    · exact .inl h
    · exact .inr ⟨⟨h2, h3⟩, h1⟩

/-- The module's answer to a loss (R20, R170, R176): it enters SAFE from a state that shows the loss, or goes on. -/
theorem answer_of {s u : State} {l : Lane} (x : LatchCause) (hs : servingLanes u = othersServing s l) (hm : u.mod.st = s.mod.st)
    (hl : ∀ m, latched u m = latched s m) :
    (s.mod.st ≠ .safe → leavesSafe s l → ∃ v, Beyond u v ∧ v.mod.st ≠ .safe ∧ latchSafe (afterLoss u x) = enterSafe v) ∧
    (s.mod.st = .safe ∨ ¬ leavesSafe s l → Beyond u (latchSafe (afterLoss u x)) ∧
      (latchSafe (afterLoss u x)).mod.st = if s.mod.st = .svc3 then .svc2 else s.mod.st) := by
  by_cases a : operating s.mod.st = true ∧ (othersServing s l).length < 2
  · have e := afterLoss_safe u x (by rw [hm]; exact a.1) (by rw [hs]; exact a.2)
    have hne : s.mod.st ≠ .safe := fun k => by rw [k] at a; exact absurd a.1 Bool.false_ne_true
    have b := beyond_foldS Lane.list (fun t y => setLatch t y x) (fun t y => beyond_setLatch t y x) u
    refine ⟨fun _ _ => ⟨_, b, ?_, ?_⟩, fun k => absurd (k.resolve_left hne) (fun k => k (.inl a))⟩
    · rw [show (foldS Lane.list (fun t y => setLatch t y x) u).mod = u.mod from rfl, hm]; exact hne
    · rw [e]
      unfold latchSafe latchAll
      split
      · exact enterSafe_again _ (enterSafe_st _)
      · rfl
  · have hn : operating u.mod.st = true → 2 ≤ (servingLanes u).length := fun o => by
      rw [hm] at o; rw [hs]; exact Nat.le_of_not_lt fun k => a ⟨o, k⟩
    have three : s.mod.st = .svc3 → (othersServing s l).length = 2 := fun e => by
      have h2 : 2 ≤ (othersServing s l).length := Nat.le_of_not_lt fun k => a ⟨by rw [e]; rfl, k⟩
      have h3 : (othersServing s l).length ≤ 2 := by
        unfold othersServing servingLanes Lane.list serving
        cases l <;> (simp only [List.filter_cons]; (repeat' split) <;> simp_all)
      omega
    have b := beyond_afterLoss u x hn
    have hst : (afterLoss u x).mod.st = if s.mod.st = .svc3 then .svc2 else s.mod.st := by
      rw [afterLoss_mode u x hn, hs, hm]
      by_cases e : s.mod.st = .svc3
      · rw [if_pos ⟨e, three e⟩, if_pos e]
      · rw [if_neg (fun k => e k.1), if_neg e]
    have hop : operating (afterLoss u x).mod.st = operating s.mod.st := by
      rw [hst]; split
      · next e => rw [e]; rfl
      · rfl
    have hsv : servingLanes (afterLoss u x) = othersServing s l := by
      rw [← hs]; unfold servingLanes serving lst; congr 1; funext m; rw [(b.lane m).1]
    have hlt : ∀ m, latched (afterLoss u x) m = latched s m := fun m => (afterLoss_latch u x hn m).trans (hl m)
    have key := latchedOut_iff hsv hop hlt a
    unfold latchSafe
    refine ⟨fun hne k => ⟨_, b, ?_, by rw [if_pos (key.2 k)]⟩, fun k => ?_⟩
    · rw [hst]; split
      · exact ModSt.noConfusion
      · exact hne
    · by_cases o : latchedOut (afterLoss u x) = true
      · rw [if_pos o]
        have e := k.resolve_right (fun g => g (key.1 o))
        have es : (afterLoss u x).mod.st = .safe := by rw [hst, e]; rfl
        rw [enterSafe_again _ es]
        exact ⟨b, hst⟩
      · rw [if_neg o]; exact ⟨b, hst⟩

theorem laneOut_of {s u : State} {l : Lane} {c : IsoCause} (x : LatchCause) (h : LaneLeft s l c u) (hm : u.mod.st = s.mod.st)
    (hl : ∀ m, latched u m = latched s m) (hf : changesOnly (isolation ++ [.times, .chk]) s (latchSafe (afterLoss u x))) :
    LaneOut s l c (latchSafe (afterLoss u x)) ∧ (lane (latchSafe (afterLoss u x)) l).press = stopPress (lane s l).press := by
  have hne : lst u l ≠ .serving := by
    by_cases r : retires s l c
    · rw [h.retired r]; exact LaneSt.noConfusion
    · rw [h.isolated r]; exact LaneSt.noConfusion
  have hs : servingLanes u = othersServing s l := servingLanes_of s u l hne (fun m e => (h.others m e).1)
  obtain ⟨a1, a2⟩ := answer_of x hs hm hl
  generalize latchSafe (afterLoss u x) = t at *
  by_cases g : s.mod.st ≠ .safe ∧ leavesSafe s l
  · obtain ⟨v, b, hv, rfl⟩ := a1 g.1 g.2
    have k := laneLeft_beyond h b
    have e := enterSafe_entered v hv
    have hp : (lane (enterSafe v) l).press = stopPress (lane s l).press := by rw [(e.lane l).2.2.2.1, k.stopped]; rfl
    refine ⟨?_, hp⟩
    constructor
    case frame => exact hf
    · exact fun r => by unfold lst; rw [(e.lane l).1]; exact k.retired r
    · exact fun r => by unfold lst; rw [(e.lane l).1]; exact k.isolated r
    · rw [(e.lane l).2.1]; exact k.cause
    · rw [(e.lane l).2.2.1]; exact k.cycle
    · rw [hp]; exact ⟨rfl, stopPress_running _⟩
    · exact ⟨(e.sluice l).2.2.1 k.drives.1, (e.sluice l).2.2.2 k.drives.2.1, by rw [(e.sluice l).2.1]; exact k.drives.2.2⟩
    · exact fun m => by rw [(e.sluice m).1]; exact k.dropped m
    · rw [e.totals]; exact k.total
    · exact ⟨by rw [e.bank]; exact k.staging.1, fun m hm => by rw [e.bank]; exact k.staging.2 m hm⟩
    · exact fun m hm => ⟨by unfold lst; rw [(e.lane m).1]; exact (k.others m hm).1, by rw [e.totals]; exact (k.others m hm).2.2.2⟩
    · exact fun z => absurd (enterSafe_st v) (z.resolve_left g.1)
    · exact fun _ _ m hm => ⟨by rw [(e.lane m).2.2.2.1, (k.others m hm).2.1], by rw [(e.lane m).2.2.2.2, (k.others m hm).2.2.1]⟩
    · exact fun _ _ => ⟨enterSafe_st v, fun m => enterSafe_latch v hv m⟩
    · exact fun _ z => absurd g.2 z
    · exact fun z => z.elim (fun z => absurd z g.1) (fun z => absurd g.2 z.2)
  · have g2 : s.mod.st = .safe ∨ ¬ leavesSafe s l := by
      by_cases z : s.mod.st = .safe
      · exact .inl z
      · exact .inr (fun y => g ⟨z, y⟩)
    obtain ⟨b, hst⟩ := a2 g2
    have k := laneLeft_beyond h b
    refine ⟨⟨k.retired, k.isolated, k.cause, k.cycle, by rw [k.stopped]; exact ⟨rfl, stopPress_running _⟩, k.drives, k.dropped,
      k.total, k.staging, fun m hm => ⟨(k.others m hm).1, (k.others m hm).2.2.2⟩, fun _ m hm => ⟨(k.others m hm).2.1, (k.others m hm).2.2.1⟩,
      ?_, fun z y => absurd ⟨z, y⟩ g, ?_, ?_, hf⟩, k.stopped⟩
    · intro z y
      rw [hst] at y
      split at y
      · cases y
      · exact absurd y z
    · exact fun z _ => by rw [hst, if_pos z]
    · rintro (z | z)
      · rw [hst, z]; rfl
      · rw [hst, if_neg z.1]

theorem retires_iff (s : State) (l : Lane) (c : IsoCause) :
    (!planned c && (decide ((inWindow s.mod.tickTime day24 (s.cellar.life.lanes.get l).stamps).length ≥ 3) || bothFailed s.cellar)) = true ↔
      retires s l c := by
  unfold retires
  cases planned c <;> simp

theorem laneLeft_of {s u v : State} {l : Lane} {c : IsoCause} (hb : Beyond u v) (h1 : retires s l c → lst u l = .retired)
    (h2 : ¬ retires s l c → lst u l = .isolated) (h3 : (lane u l).life.cause = c) (h4 : (lane u l).life.isoCycle = cycle16 s)
    (h5 : (lane u l).press = stopPress (lane s l).press)
    (h6 : (u.cellar.life.lanes.get l).isoTotal =
      if meetsPlanned s l c then (s.cellar.life.lanes.get l).isoTotal else satInc (s.cellar.life.lanes.get l).isoTotal)
    (h8 : (lane u l).bank = stageDropped (lane s l).bank ∧ ∀ m, m ≠ l → (lane u m).bank = (lane s m).bank)
    (h7 : ∀ m, m ≠ l → lst u m = lst s m ∧ (lane u m).press = (lane s m).press ∧ (lane u m).raa = (lane s m).raa ∧
      u.cellar.life.lanes.get m = s.cellar.life.lanes.get m) : LaneLeft s l c (dropLane v l) where
  retired := fun r => by show (lane v l).life.st = _; rw [(hb.lane l).1]; exact h1 r
  isolated := fun r => by show (lane v l).life.st = _; rw [(hb.lane l).1]; exact h2 r
  cause := by show (lane v l).life.cause = _; rw [(hb.lane l).2.1]; exact h3
  cycle := by show (lane v l).life.isoCycle = _; rw [(hb.lane l).2.2.1]; exact h4
  stopped := by
    show (lane v l).press = stopPress (lane s l).press
    rw [(hb.lane l).2.2.2.1]; exact h5
  drives := by
    unfold dropLane
    rw [sluices_modSluices, get_map, sluices_modSluice, get_set_self]
    exact ⟨rfl, rfl, rfl⟩
  dropped := fun m => by
    unfold dropLane
    rw [sluices_modSluices, get_map]
    exact vput_false_self _ _
  total := by show (v.cellar.life.lanes.get l).isoTotal = _; rw [hb.totals]; exact h6
  staging := ⟨by show (lane v l).bank = _; rw [hb.bank]; exact h8.1, fun m e => by show (lane v m).bank = _; rw [hb.bank]; exact h8.2 m e⟩
  others := fun m hm => by
    show (lane v m).life.st = _ ∧ (lane v m).press = _ ∧ (lane v m).raa = _ ∧ v.cellar.life.lanes.get m = _
    rw [(hb.lane m).1, (hb.lane m).2.2.2.1, (hb.lane m).2.2.2.2, hb.totals]
    exact h7 m hm

/-- Dropping the record of a planned isolation changes staging alone. -/
structure Unstaged (s t : State) : Prop where
  lane : ∀ m, (lane t m).life = (lane s m).life ∧ (lane t m).press = (lane s m).press ∧ (lane t m).raa = (lane s m).raa ∧
    (lane t m).bank = (lane s m).bank
  mode : t.mod = s.mod
  sluices : t.sluices = s.sluices
  cellar : t.cellar = s.cellar

theorem unstaged_drop (s : State) (l : Lane) (b : Bool) : Unstaged s (if b then dropPlanned s l else s) := by
  split
  · exact ⟨fun m => by unfold dropPlanned; rw [lane_modLanes]; exact ⟨rfl, rfl, rfl, rfl⟩, rfl, rfl, rfl⟩
  · exact ⟨fun _ => ⟨rfl, rfl, rfl, rfl⟩, rfl, rfl, rfl⟩

theorem latches_abort (s : State) (m : Lane) : latched (abortSwitchTests s) m = latched s m := by
  unfold latched abortSwitchTests
  rw [sluices_modSluices, get_map]
  split <;> rfl

theorem latches_dropLane (s : State) (l m : Lane) : latched (dropLane s l) m = latched s m := by
  unfold latched dropLane
  rw [sluices_modSluices, get_map, sluices_modSluice]
  by_cases e : m = l
  · subst e; rw [get_set_self]
  · rw [get_set_other _ _ e]

theorem isolateNow_out (s : State) (l : Lane) (c : IsoCause) (onLoss : LatchCause) :
    LaneOut s l c (isolateNow s l c onLoss) ∧ (lane (isolateNow s l c onLoss) l).press = stopPress (lane s l).press := by
  have hframe : changesOnly (isolation ++ [.times, .chk]) s (isolateNow s l c onLoss) :=
    chg_isolateNow s l c onLoss (by decide) (changesOnly_refl (isolation ++ [.times, .chk]) s)
  revert hframe
  unfold isolateNow
  have hr := retires_iff s l c
  have hd := unstaged_drop s l (meetsPlanned s l c)
  dsimp only
  generalize (!planned c && (decide ((inWindow s.mod.tickTime day24 (s.cellar.life.lanes.get l).stamps).length ≥ 3) || bothFailed s.cellar)) = r at *
  generalize (if meetsPlanned s l c = true then dropPlanned s l else s) = d at *
  generalize he : (modPages (abortSwitchTests d) [3] _) = s2
  generalize hu : modLane s2 l _ = u
  generalize hv : (if (!planned c) = true then endBist u l else u) = v
  have cu : changesOnly [.life, .eic, .staging, .bist, .ports, .log] u v := by
    rw [← hv]
    split
    · exact chg_endBist _ l (by decide) (changesOnly_refl _ _)
    · exact changesOnly_refl _ _
  have hb : Beyond u v := by
    rw [← hv]
    split
    · exact beyond_endBist u l
    · exact beyond_refl u
  have hm : (dropLane v l).mod.st = s.mod.st := by
    show v.mod.st = _
    rw [show v.mod.st = u.mod.st from (cu .mode rfl).1, ← hu, ← he]
    exact congrArg Module.st hd.mode
  have hl : ∀ m, latched (dropLane v l) m = latched s m := fun m => by
    have h0 : latched d m = latched s m := by unfold latched; rw [hd.sluices]
    rw [latches_dropLane, ← h0, ← latches_abort d]
    unfold latched
    rw [latches_of cu rfl, ← hu, ← he]; rfl
  have hleft : LaneLeft s l c (dropLane v l) := by
    have ho : ∀ m, m ≠ l → lane u m = lane d m := fun m e => by rw [← hu, lane_modLane_other _ _ e, ← he]; rfl
    have hc : u.cellar.life.lanes = s.cellar.life.lanes.set l
        (lifeIsolate (s.cellar.life.lanes.get l) c (!planned c) (meetsPlanned s l c) r s.mod.tickTime) := by
      rw [← hu, ← he, ← hd.cellar]; rfl
    refine laneLeft_of hb ?_ ?_ ?_ ?_ ?_ ?_ ?_ ?_
    · intro h; unfold lst; rw [← hu, lane_modLane_self]; dsimp only [laneOut]; rw [if_pos (hr.2 h)]
    · intro h; unfold lst; rw [← hu, lane_modLane_self]; dsimp only [laneOut]; rw [if_neg (fun g => h (hr.1 g))]
    · rw [← hu, lane_modLane_self]
    · rw [← hu, lane_modLane_self]
    · rw [← hu, lane_modLane_self, ← he]; exact congrArg stopPress (hd.lane l).2.1
    · rw [hc, get_set_self]; rfl
    · refine ⟨?_, fun m e => by rw [ho m e]; exact (hd.lane m).2.2.2⟩
      rw [← hu, lane_modLane_self, ← he]; exact congrArg stageDropped (hd.lane l).2.2.2
    · intro m e
      unfold lst
      rw [ho m e, hc, get_set_other _ _ e, (hd.lane m).1]
      exact ⟨rfl, (hd.lane m).2.1, (hd.lane m).2.2.1, rfl⟩
  generalize dropLane v l = w at *
  intro hframe
  have ca : changesOnly records w (recordAll (if meetsPlanned s l c = true then w else eicRaiseAll w 0) 0x0100 (lanePayload w l (!planned c))) := by
    refine chg_recordAll _ _ _ (by decide) ?_
    split
    · exact changesOnly_refl records w
    · exact chg_eicRaiseAll _ _ (by decide) (changesOnly_refl records w)
  generalize recordAll (if meetsPlanned s l c = true then w else eicRaiseAll w 0) 0x0100 (lanePayload w l (!planned c)) = y at *
  refine laneOut_of onLoss (u := if r = true then _ else _) ?_ ?_ ?_ hframe
  all_goals split
  · exact laneLeft_beyond hleft (beyond_trans (beyond_of ca (by decide)) (beyond_eventAll _ _ _ _))
  · exact laneLeft_beyond hleft (beyond_of ca (by decide))
  · rw [((chg_eventAll _ _ _ _ (by decide) (changesOnly_refl records _)) .mode rfl).1, (ca .mode rfl).1]; exact hm
  · rw [(ca .mode rfl).1]; exact hm
  · intro m
    rw [← hl m]
    unfold latched
    rw [latches_of (chg_eventAll _ _ _ _ (by decide) (changesOnly_refl records _)) rfl, latches_of ca rfl]
  · intro m
    rw [← hl m]
    unfold latched
    rw [latches_of ca rfl]

/-- Isolating a lane that can be isolated (R173, R174). -/
theorem isolate_out (s : State) (l : Lane) (c : IsoCause) (h : isolatable (lst s l) = true) :
    LaneOut s l c (isolate s l c) ∧ (lane (isolate s l c) l).press = stopPress (lane s l).press := by
  unfold isolate isolateWith
  rw [if_pos (by rw [h]; rfl)]
  exact isolateNow_out s l c _

/-- An isolation told from an earlier state that differs only in parts that an isolation may change and does not read. -/
theorem laneOut_from_lanes {s u t : State} {l : Lane} {c : IsoCause} (hs : lst u = lst s) (hm : u.mod = s.mod)
    (hx : latched u = latched s) (hl : (u.cellar.life.lanes.get l).stamps = (s.cellar.life.lanes.get l).stamps ∧
      (u.cellar.life.lanes.get l).isoTotal = (s.cellar.life.lanes.get l).isoTotal)
    (hlo : ∀ m, m ≠ l → u.cellar.life.lanes.get m = s.cellar.life.lanes.get m)
    (hb : bothFailed u.cellar = bothFailed s.cellar)
    (hn : (lane u l).life.plannedNow = (lane s l).life.plannedNow) (hk : ∀ m, (lane u m).bank = (lane s m).bank)
    (hp : ∀ m, m ≠ l → (lane u m).press = (lane s m).press ∧ (lane u m).raa = (lane s m).raa) (hf : changesOnly (isolation ++ [.times, .chk]) s t)
    (h : LaneOut u l c t) : LaneOut s l c t := by
  have hr : retires u l c ↔ retires s l c := by unfold retires; rw [hm, hl.1, hb]
  have ho : othersServing u l = othersServing s l := by unfold othersServing servingLanes serving; rw [hs]
  have hv : leavesSafe u l ↔ leavesSafe s l := by unfold leavesSafe; rw [hm, ho, hx]
  refine ⟨fun r => h.retired (hr.2 r), fun r => h.isolated (fun g => r (hr.1 g)), h.cause, ?_, h.stopped, h.drives, h.dropped, ?_,
    ⟨by rw [← hk]; exact h.staging.1, fun m e => by rw [← hk]; exact h.staging.2 m e⟩, ?_, ?_, ?_, ?_, ?_, ?_, hf⟩
  · have := h.cycle; unfold cycle16 at *; rw [hm] at this; exact this
  · have := h.total; unfold meetsPlanned at *; rw [hl.2, hn] at this; exact this
  · intro m e
    have := h.others m e
    rw [hs, hlo m e] at this
    exact this
  · intro z m e
    have := h.goesOn (by rw [hm]; exact z) m e
    rw [(hp m e).1, (hp m e).2] at this
    exact this
  · intro z y m e
    have := h.ends (by rw [hm]; exact z) y m e
    rw [(hp m e).1, (hp m e).2] at this
    exact this
  · have := h.safe; rw [hm, hv] at this; exact this
  · have := h.twoLeft; rw [hm, hv] at this; exact this
  · have := h.stays; rw [hm, hv] at this; exact this

/-- The same where the lifetime area is as it was. -/
theorem laneOut_from {s u t : State} {l : Lane} {c : IsoCause} (hs : lst u = lst s) (hm : u.mod = s.mod) (hx : latched u = latched s)
    (hl : u.cellar.life = s.cellar.life) (hb : bothFailed u.cellar = bothFailed s.cellar)
    (hn : (lane u l).life.plannedNow = (lane s l).life.plannedNow) (hk : ∀ m, (lane u m).bank = (lane s m).bank)
    (hp : ∀ m, m ≠ l → (lane u m).press = (lane s m).press ∧ (lane u m).raa = (lane s m).raa) (hf : changesOnly (isolation ++ [.times, .chk]) s u)
    (h : LaneOut u l c t) : LaneOut s l c t :=
  laneOut_from_lanes hs hm hx (by rw [hl]; exact ⟨rfl, rfl⟩) (fun _ _ => by rw [hl]) hb hn hk hp (changes_step (by decide) h.frame hf) h

/-- The Cellar's devices are as they were. -/
def sameDevs (s t : State) : Prop := t.cellar.dev0 = s.cellar.dev0 ∧ t.cellar.dev1 = s.cellar.dev1

theorem devs_trans {s t u : State} (h : sameDevs s t) (k : sameDevs t u) : sameDevs s u := ⟨k.1.trans h.1, k.2.trans h.2⟩

theorem devs_of {ps : List Part} {s t : State} (h : changesOnly ps s t) (hp : ps.contains .log = false) : sameDevs s t := by
  have := (h .log hp).1
  have e : ({ t.cellar with life := s.cellar.life } : Cellar) = s.cellar := this
  have h0 : ({ t.cellar with life := s.cellar.life } : Cellar).dev0 = s.cellar.dev0 := congrArg Cellar.dev0 e
  have h1 : ({ t.cellar with life := s.cellar.life } : Cellar).dev1 = s.cellar.dev1 := congrArg Cellar.dev1 e
  exact ⟨h0, h1⟩

theorem devs_putRecord (s : State) (l : Lane) (r : Record) (b : Bool) : sameDevs s (putRecord s l r b) := by
  unfold putRecord stageRecord throughRecord writeRecord countLost logPut
  dsimp only
  repeat' split
  all_goals exact ⟨rfl, rfl⟩

theorem devs_eicRaise (s : State) (l : Lane) (n : Nat) : sameDevs s (eicRaise s l n) :=
  devs_of (chg_eicRaise s l n (by decide) (changesOnly_refl [.eic, .ports] s)) rfl

theorem devs_suppress (s : State) (l : Lane) (c : Nat) : sameDevs s (suppress s l c) := by
  unfold suppress
  extract_lets c b o c' s1
  split
  · exact ⟨rfl, rfl⟩
  · exact devs_trans (t := s1) ⟨rfl, rfl⟩ (devs_eicRaise _ _ _)

theorem devs_recordOne (s : State) (l : Lane) (c : Nat) (b : Bool) (p : List Byte) : sameDevs s (recordOne s l c b p) := by
  unfold recordOne
  split
  · exact ⟨rfl, rfl⟩
  split
  · exact devs_putRecord _ _ _ _
  dsimp only
  split
  · exact devs_trans (t := modLane s l _) ⟨rfl, rfl⟩ (devs_putRecord _ _ _ _)
  · exact devs_suppress _ _ _

theorem devs_foldS {α : Type} (xs : List α) (f : State → α → State) (hf : ∀ t x, sameDevs t (f t x)) (s : State) : sameDevs s (foldS xs f s) := by
  unfold foldS
  induction xs generalizing s with
  | nil => exact ⟨rfl, rfl⟩
  | cons a xs ih => exact devs_trans (hf s a) (ih _)

theorem devs_recordAll (s : State) (c : Nat) (p : List Byte) : sameDevs s (recordAll s c p) := devs_foldS _ _ (fun _ _ => devs_recordOne _ _ _ _ _) s

theorem devs_eventLane (s : State) (l : Lane) (n c : Nat) (p : List Byte) : sameDevs s (eventLane s l n c p) :=
  devs_trans (devs_eicRaise _ _ _) (devs_recordOne _ _ _ _ _)

theorem devs_eventAll (s : State) (n c : Nat) (p : List Byte) : sameDevs s (eventAll s n c p) :=
  devs_trans (devs_of (chg_eicRaiseAll s n (by decide) (changesOnly_refl [.eic, .ports] s)) rfl) (devs_recordAll _ _ _)

theorem failed_of {s t : State} (h : sameDevs s t) : bothFailed t.cellar = bothFailed s.cellar := by unfold bothFailed; rw [h.1, h.2]

end Sys2Proof.Laws
end

