-- ==== Sys2Proof/Laws/PressWords.lean ====
section
/-!
SUPPORT. What one word of a strand does, said once: the checks at the fetch, and the state that a word leaves.
-/

namespace Sys2Proof.Laws

open Sys2Proof.Machine Sys2Proof.Safety

theorem modLane_same (s : State) (l : Lane) (f : LaneState → LaneState) (h : f (lane s l) = lane s l) : modLane s l f = s := by
  unfold modLane lane at *
  rw [h, set_get]

theorem modLane_modLane (s : State) (l : Lane) (f g : LaneState → LaneState) :
    modLane (modLane s l f) l g = modLane s l (fun L => g (f L)) := by cases l <;> rfl

theorem atWord_eq (s : State) (w : PressWord) : atWord s w = modLane s w.lane (fun L => { L with
    press := if (strandOf (lane s w.lane).press.strands w.strand).ran then nextClock (lane s w.lane).press else (lane s w.lane).press }) := by
  unfold atWord
  split
  · rfl
  · exact (modLane_same _ _ _ rfl).symm

theorem press_atWord (s : State) (w : PressWord) : (lane (atWord s w) w.lane).press =
    if (strandOf (lane s w.lane).press.strands w.strand).ran then nextClock (lane s w.lane).press else (lane s w.lane).press := by
  rw [atWord_eq, lane_modLane_self]

theorem lane_atWord (s : State) (w : PressWord) : lane (atWord s w) w.lane = { lane s w.lane with press := (lane (atWord s w) w.lane).press } := by
  rw [atWord_eq, lane_modLane_self]

theorem strandOf_map (f : Strand → Strand) (x : Strands) (i : Fin 4) : strandOf (mapStrands f x) i = f (strandOf x i) := by
  match i with
  | 0 => rfl
  | 1 => rfl
  | 2 => rfl
  | 3 => rfl

theorem strandOf_put (x : Strands) (i j : Fin 4) (y : Strand) : strandOf (putStrand x i y) j = if j = i then y else strandOf x j := by
  match i, j with
  | 0, 0 => rfl | 0, 1 => rfl | 0, 2 => rfl | 0, 3 => rfl
  | 1, 0 => rfl | 1, 1 => rfl | 1, 2 => rfl | 1, 3 => rfl
  | 2, 0 => rfl | 2, 1 => rfl | 2, 2 => rfl | 2, 3 => rfl
  | 3, 0 => rfl | 3, 1 => rfl | 3, 2 => rfl | 3, 3 => rfl

theorem applyWrite_strands (p : Press) (w : PressWrite) : (applyWrite p w).strands = p.strands := by
  cases w <;> dsimp only [applyWrite] <;> (repeat' split) <;> rfl

theorem foldWrites_strands (ws : List PressWrite) (p : Press) : (ws.foldl applyWrite p).strands = p.strands := by
  induction ws generalizing p with
  | nil => rfl
  | cons a ws ih => rw [List.foldl_cons, ih, applyWrite_strands]

theorem commit_strands (p : Press) : (commitWrites p).strands = p.strands := foldWrites_strands _ _

theorem strandNow_eq (s : State) (w : PressWord) : strandNow s w =
    { strandOf (lane s w.lane).press.strands w.strand with ran := (strandNow s w).ran } := by
  unfold strandNow
  rw [press_atWord]
  split
  · unfold nextClock; dsimp only; rw [commit_strands, strandOf_map]
  · rfl

theorem run_eq (s : State) (w : PressWord) (closing : Bool) (legal : Nat → Nat → Bool)
    (body : State → LaneState → Strand → PressResult) (h : executing s w) :
    runWord s w closing legal body =
      if (strandNow s w).pc ≥ segLen (lane s w.lane) w.strand then pressFault (atWord s w) w.lane w.strand .illegalWord (strandNow s w).pc
      else if w.field.toNat ≠ w.strand.val then pressFault (atWord s w) w.lane w.strand .strandMismatch (strandNow s w).pc
      else if !opListed w.opcode || !legal (strandNow s w).pc (segLen (lane s w.lane) w.strand) ||
          (decide ((strandNow s w).pc + 1 = segLen (lane s w.lane) w.strand) && !closing) then
        pressFault (atWord s w) w.lane w.strand .illegalWord (strandNow s w).pc
      else pressPut (atWord s w) w (lane (atWord s w) w.lane).press (body (atWord s w) (lane (atWord s w) w.lane) (strandNow s w)) := by
  obtain ⟨h1, h2, _, h3⟩ := h
  unfold runWord
  dsimp only
  rw [if_pos (by rw [h1, h2, h3]; rfl)]
  have e : (modLane s w.lane (fun L => { L with press :=
      (if (strandOf (lane s w.lane).press.strands w.strand).ran = true then (nextClock (lane s w.lane).press) else (lane s w.lane).press) })) = atWord s w := (atWord_eq s w).symm
  rw [e, ← press_atWord]
  rfl

theorem put_ok (s : State) (w : PressWord) (y : Strand) (ws : List PressWrite) (h : y.ended = false) :
    pressPut (atWord s w) w (lane (atWord s w) w.lane).press (.ok y ws) = wordDone s w y ws := by
  unfold pressPut wordDone
  dsimp only
  rw [h, if_neg (by simp)]
  rfl

theorem run_ok {s : State} {w : PressWord} {closing : Bool} {legal : Nat → Nat → Bool}
    {body : State → LaneState → Strand → PressResult} {y : Strand} {ws : List PressWrite} (h : fetches s w closing)
    (hl : legal (strandNow s w).pc (segLen (lane s w.lane) w.strand) = true)
    (hb : body (atWord s w) (lane (atWord s w) w.lane) (strandNow s w) = .ok y ws) (hy : y.ended = false) :
    runWord s w closing legal body = wordDone s w y ws := by
  obtain ⟨hx, h1, h2, h4, h3⟩ := h
  rw [run_eq _ _ _ _ _ hx, if_neg (by omega), if_neg (by simp [h2]), if_neg, hb, put_ok _ _ _ _ hy]
  rw [hl, h4]
  rcases h3 with h3 | h3
  · simp [h3]
  · have : ¬ ((strandNow s w).pc + 1 = segLen (lane s w.lane) w.strand) := by omega
    simp [this]

theorem ended_now {s : State} {w : PressWord} (h : executing s w) : (strandNow s w).ended = false := by
  rw [strandNow_eq]; exact h.2.2.1

theorem tick_atWord (s : State) (w : PressWord) : (atWord s w).mod = s.mod := by rw [atWord_eq]; rfl

theorem low_lt {n k : Nat} {w : PressWord} (h : opnd w < k) (e : k = 2 ^ n) : lowOperand n w = true := by
  unfold lowOperand; subst e; exact decide_eq_true h

theorem countUp_eq (c : CounterRec) : countUp c = if c.count.toNat = 0xFFFFFFFF then { c with sat := true } else { c with count := c.count + 1 } := by
  unfold countUp
  have : (c.count = 4294967295#32) ↔ c.count.toNat = 4294967295 := by rw [← BitVec.toNat_inj]; rfl
  by_cases hh : c.count.toNat = 4294967295
  · rw [if_pos hh]; exact if_pos (this.2 hh)
  · rw [if_neg hh]; exact if_neg (fun g => hh (this.1 g))

theorem countDown_eq (c : CounterRec) : countDown c = if c.count.toNat = 0 then { c with sat := true } else { c with count := c.count - 1 } := by
  unfold countDown
  have : (c.count = 0#32) ↔ c.count.toNat = 0 := by rw [← BitVec.toNat_inj]; rfl
  by_cases hh : c.count.toNat = 0
  · rw [if_pos hh]; exact if_pos (this.2 hh)
  · rw [if_neg hh]; exact if_neg (fun g => hh (this.1 g))

theorem if_cogF {α} {b : Bool} (h : b = false) (x y : α) : (if b = true then x else y) = y := if_neg (by rw [h]; exact Bool.false_ne_true)

theorem timer_run {w : PressWord} {s : State} (h : fetches s w false) (hw : opnd w < 16384) (f : Time → Nat → Bool → TimerRec → TimerRec) :
    timerOp w f s = wordDone s w { strandNow s w with
      pc := (strandNow s w).pc + 1
      cog := (f s.mod.tickTime (timerPreset (lane s w.lane) (opnd w)) (strandNow s w).cog (sget TimerRec.reset (dataNow s w).t (opnd w))).out }
      [.timer (opnd w) (f s.mod.tickTime (timerPreset (lane s w.lane) (opnd w)) (strandNow s w).cog (sget TimerRec.reset (dataNow s w).t (opnd w)))] := by
  refine run_ok h (low_lt hw rfl) ?_ (ended_now h.1)
  dsimp only
  rw [tick_atWord, show timerPreset (lane (atWord s w) w.lane) (opnd w) = timerPreset (lane s w.lane) (opnd w) by rw [lane_atWord]; rfl]
  rfl

theorem add_eq (x : Strand) (v : Word) : strandAdd x v = { x with
    acc := BitVec.ofNat 32 (min (x.acc.toNat + v.toNat) 0xFFFFFFFF)
    sat := x.sat || decide (x.acc.toNat + v.toNat > 0xFFFFFFFF) } := by
  unfold strandAdd
  split
  · next hh =>
    rw [show min (x.acc.toNat + v.toNat) 4294967295 = 4294967295 by omega, decide_eq_true hh, Bool.or_true]; rfl
  · next hh =>
    rw [show min (x.acc.toNat + v.toNat) 4294967295 = x.acc.toNat + v.toNat by omega, decide_eq_false hh, Bool.or_false]
    rw [BitVec.ofNat_add, BitVec.ofNat_toNat, BitVec.ofNat_toNat, BitVec.setWidth_eq, BitVec.setWidth_eq]

theorem sub_eq (x : Strand) (v : Word) : strandSub x v = { x with
    acc := BitVec.ofNat 32 (x.acc.toNat - v.toNat), sat := x.sat || decide (x.acc.toNat < v.toNat) } := by
  unfold strandSub
  split
  · next hh =>
    rw [show x.acc.toNat - v.toNat = 0 by omega, decide_eq_true hh, Bool.or_true]; rfl
  · next hh =>
    rw [decide_eq_false hh, Bool.or_false]
    congr 1
    apply BitVec.eq_of_toNat_eq
    rw [BitVec.toNat_sub, BitVec.toNat_ofNat]
    omega

theorem low0 {w : PressWord} (h : opnd w = 0) : lowOperand 0 w = true := by
  unfold lowOperand; exact decide_eq_true (by omega)

theorem push_eq (x : Strand) (e : StackEntry) (h : x.stack.length < 16) : ∃ y, pushEntry x e = some y ∧
    y = { x with stack := e :: x.stack, peak := y.peak } ∧ y.peak.toNat = max x.peak.toNat (x.stack.length + 1) := by
  refine ⟨_, if_neg (by omega), rfl, ?_⟩
  dsimp only
  split
  · rw [BitVec.toNat_ofNat]; omega
  · omega

theorem run_result {s : State} {w : PressWord} {closing : Bool} {legal : Nat → Nat → Bool}
    {body : State → LaneState → Strand → PressResult} (h : fetches s w closing)
    (hl : legal (strandNow s w).pc (segLen (lane s w.lane) w.strand) = true) :
    runWord s w closing legal body = pressPut (atWord s w) w (lane (atWord s w) w.lane).press (body (atWord s w) (lane (atWord s w) w.lane) (strandNow s w)) := by
  obtain ⟨hx, h1, h2, h4, h3⟩ := h
  rw [run_eq _ _ _ _ _ hx, if_neg (by omega), if_neg (by simp [h2]), if_neg]
  rw [hl, h4]
  rcases h3 with h3 | h3
  · simp [h3]
  · have : ¬ ((strandNow s w).pc + 1 = segLen (lane s w.lane) w.strand) := by omega
    simp [this]

theorem lst_atWord (s : State) (w : PressWord) : lst (atWord s w) = lst s := by
  funext m
  unfold lst
  rw [atWord_eq, lane_modLane]
  split
  · next e => subst e; rfl
  · rfl

theorem press_fault (s : State) (w : PressWord) (k : PressFault) (addr : Nat) (h : isolatable (lst s w.lane) = true) :
    pressFaulted s w k addr (pressFault (atWord s w) w.lane w.strand k addr) := by
  unfold pressFault
  extract_lets s1 p s2
  have c1 : changesOnly [.press] s s1 := by
    with_reducible apply changes_modLane
    · intro q hq
      cases q <;> first | exact Bool.noConfusion (show true = false from hq) | trivial | rfl | exact ⟨rfl, rfl, rfl⟩
    · rw [atWord_eq]
      with_reducible apply changes_modLane
      · intro q hq
        cases q <;> first | exact Bool.noConfusion (show true = false from hq) | trivial | rfl | exact ⟨rfl, rfl, rfl⟩
      · exact changesOnly_refl _ _
  have c2 : changesOnly ([.press] ++ records) s s2 :=
    chg_eventLane _ _ _ _ _ (by decide) (changes_step (by decide) c1 (changesOnly_refl _ _))
  have c12 : changesOnly records s1 s2 := chg_eventLane _ _ _ _ _ (by decide) (changesOnly_refl _ _)
  have e1 : lst s2 = lst s := funext fun m => (c2 .laneState rfl).2 m
  have b12 : Beyond s1 s2 := beyond_of c12 (by decide)
  obtain ⟨ho, hp⟩ := isolate_out s2 w.lane (faultCause k) (by rw [e1]; exact h)
  have h1 : (lane s2 w.lane).press = (lane s1 w.lane).press := (b12.lane _).2.2.2.1
  have h2 : (lane s1 w.lane).press = { stopPress (lane (atWord s w) w.lane).press with
    halted := true, faultKind := k, faultStrand := BitVec.ofNat 2 w.strand.val, faultCycle := cycle16 (atWord s w)
    faultAddr := BitVec.ofNat 22 addr } := lane_modLane_self _ _ _ ▸ rfl
  have hmod : s2.mod = s.mod := by
    have a := (c2 .mode rfl).1
    have b := (c2 .clock rfl).1
    have c : s2.mod = { ({ s2.mod with st := ModSt.boot } : Module) with st := s2.mod.st } := rfl
    rw [show ({ s2.mod with st := ModSt.boot } : Module) = { s.mod with st := ModSt.boot } from b, show s2.mod.st = s.mod.st from a] at c
    exact c
  unfold pressFaulted
  rw [hp, h1, h2]
  refine ⟨rfl, rfl, ?_, ?_, rfl, ?_⟩
  · show (BitVec.ofNat 2 w.strand.val).toNat = _
    rw [BitVec.toNat_ofNat]; have := w.strand.isLt; omega
  · show cycle16 (atWord s w) = _; unfold cycle16; rw [tick_atWord]
  · have ho2 : LaneOut s w.lane (faultCause k) (isolate s2 w.lane (faultCause k)) := by
      refine laneOut_from e1 hmod (funext (latches_of c2 rfl)) (c2 .lifetime rfl).1 ?_
        (by rw [life_same ((c2 .life rfl).2 w.lane)]) (fun m => (c2 .bank rfl).2 m) ?_ ?_ ho
      · exact failed_of (devs_trans (t := s1) (devs_of c1 rfl) (devs_eventLane _ _ _ _ _))
      · intro m hm
        refine ⟨?_, (c2 .raa rfl).2 m⟩
        rw [(b12.lane m).2.2.2.1, show lane s1 m = lane (atWord s w) m from lane_modLane_other _ _ hm, atWord_eq, lane_modLane_other _ _ hm]
      · exact changes_step (by decide) c2 (changesOnly_refl _ _)
    cases k <;> exact ho2

end Sys2Proof.Laws
end

