-- ==== Sys2Proof/Laws/OneLane.lean ====
section
/-!
SUPPORT. The operations that change one lane's data leave the other lanes' data as it was; and what a frame says of a lane's life and of
the module's control.
-/

namespace Sys2Proof.Laws

open Sys2Proof.Machine Sys2Proof.Safety

/-- Every lane but l is as it was. -/
def onlyLane (l : Lane) (s t : State) : Prop := ∀ m, m ≠ l → lane t m = lane s m

theorem only_refl (l : Lane) (s : State) : onlyLane l s s := fun _ _ => rfl

theorem only_trans {l : Lane} {s t u : State} (h : onlyLane l s t) (k : onlyLane l t u) : onlyLane l s u := fun m e => (k m e).trans (h m e)

theorem only_modLane {l : Lane} {z s : State} (f : LaneState → LaneState) (h : onlyLane l z s) : onlyLane l z (modLane s l f) :=
  fun m e => (lane_modLane_other s f e).trans (h m e)

/-- An operation that changes no lane's data keeps the relation. -/
theorem only_lanes {l : Lane} {z s t : State} (e : t.lanes = s.lanes) (h : onlyLane l z s) : onlyLane l z t := fun m k => by
  rw [show lane t m = lane s m by unfold lane; rw [e]]; exact h m k

theorem eicMessage_lanes (s : State) (x : EicSrc) (b a : Option EicTarget) : (eicMessage s x b a).lanes = s.lanes := by
  unfold eicMessage
  repeat' split
  all_goals rfl

theorem only_eicUpd {l : Lane} {z s : State} (n : Nat) (f : EicSrc → EicSrc) (h : onlyLane l z s) : onlyLane l z (eicUpd s l n f) := by
  unfold eicUpd
  split
  · unfold eicSettle
    exact only_lanes (eicMessage_lanes _ _ _ _) (only_modLane _ h)
  · exact h

theorem only_eicRaise {l : Lane} {z s : State} (n : Nat) (h : onlyLane l z s) : onlyLane l z (eicRaise s l n) := by
  unfold eicRaise
  split
  · exact only_eicUpd _ _ h
  · exact h

theorem only_eicLevel {l : Lane} {z s : State} (n : Nat) (b : Bool) (h : onlyLane l z s) : onlyLane l z (eicLevel s l n b) := by
  unfold eicLevel
  repeat' split
  all_goals first
    | exact only_eicUpd _ _ h
    | exact h

theorem only_writeRecord {l : Lane} {z s : State} (r : Record) (h : onlyLane l z s) : onlyLane l z (writeRecord s l r) := by
  unfold writeRecord countLost
  split
  · exact only_modLane _ h
  · exact only_lanes rfl h

theorem only_putRecord {l : Lane} {z s : State} (r : Record) (b : Bool) (h : onlyLane l z s) : onlyLane l z (putRecord s l r b) := by
  unfold putRecord
  split
  · exact only_modLane _ h
  split
  · unfold stageRecord
    dsimp only
    split
    · exact only_modLane _ h
    · exact only_modLane _ h
  · unfold throughRecord
    exact only_modLane _ (only_writeRecord _ h)

theorem only_suppress {l : Lane} {z s : State} (c : Nat) (h : onlyLane l z s) : onlyLane l z (suppress s l c) := by
  unfold suppress
  dsimp only
  split
  · exact only_modLane _ h
  · exact only_eicRaise _ (only_modLane _ h)

theorem only_recordOne {l : Lane} {z s : State} (c : Nat) (b : Bool) (p : List Byte) (h : onlyLane l z s) : onlyLane l z (recordOne s l c b p) := by
  unfold recordOne
  split
  · exact h
  split
  · exact only_putRecord _ _ h
  dsimp only
  split
  · exact only_putRecord _ _ (only_modLane _ h)
  · exact only_suppress _ h

theorem only_recordLane {l : Lane} {z s : State} (c : Nat) (p : List Byte) (h : onlyLane l z s) : onlyLane l z (recordLane s l c p) :=
  only_recordOne _ _ _ h

theorem only_eventLane {l : Lane} {z s : State} (n c : Nat) (p : List Byte) (h : onlyLane l z s) : onlyLane l z (eventLane s l n c p) :=
  only_recordOne _ _ _ (only_eicRaise _ h)

theorem only_modPort {l : Lane} {z s : State} (p : Port) (f : PortState → PortState) (h : onlyLane l z s) : onlyLane l z (modPort s p f) := h

theorem only_modSluice {l : Lane} {z s : State} (m : Lane) (f : Sluice → Sluice) (h : onlyLane l z s) : onlyLane l z (modSluice s m f) := h

theorem only_modSluices {l : Lane} {z s : State} (f : Lane → Sluice → Sluice) (h : onlyLane l z s) : onlyLane l z (modSluices s f) := h

theorem only_modLife {l : Lane} {z s : State} (f : Lifetime → Lifetime) (h : onlyLane l z s) : onlyLane l z (modLife s f) := h

theorem only_setPhase {l : Lane} {z s : State} (p : BitVec 3) (h : onlyLane l z s) : onlyLane l z (setPhase s l p) := by
  unfold setPhase
  dsimp only
  split
  · exact only_modPort _ _ (only_modLane _ h)
  · exact only_modLane _ h

theorem only_foldS {α : Type} {l : Lane} {z : State} (xs : List α) (f : State → α → State) (hf : ∀ t x, onlyLane l z t → onlyLane l z (f t x))
    (s : State) (h : onlyLane l z s) : onlyLane l z (foldS xs f s) := by
  unfold foldS
  induction xs generalizing s with
  | nil => exact h
  | cons a xs ih => exact ih _ (hf _ _ h)

theorem only_movePhase {l : Lane} {z s : State} (p : BitVec 3) (h : onlyLane l z s) : onlyLane l z (movePhase s l p) := by
  unfold movePhase settleLevels
  dsimp only
  split
  · exact only_foldS _ _ (fun _ _ k => only_eicLevel _ _ k) _ (only_setPhase _ h)
  · exact only_setPhase _ h

theorem only_endBist {l : Lane} {z s : State} (h : onlyLane l z s) : onlyLane l z (endBist s l) := by
  unfold endBist
  dsimp only
  split
  · exact h
  split
  · exact only_setPhase _ h
  · exact only_recordLane _ _ (only_modLane _ (only_movePhase _ h))

theorem only_closeLost {l : Lane} {z s : State} (h : onlyLane l z s) : onlyLane l z (closeLost s l) := by
  unfold closeLost
  dsimp only
  split
  · exact h
  · exact only_modLane _ (only_putRecord _ _ h)

theorem only_drainStaging {l : Lane} {z s : State} (h : onlyLane l z s) : onlyLane l z (drainStaging s l) :=
  only_foldS _ _ (fun _ _ k => only_writeRecord _ k) _ (only_modLane _ h)

theorem only_closeWindows {l : Lane} {z s : State} (h : onlyLane l z s) : onlyLane l z (closeWindows s l) := by
  unfold closeWindows
  dsimp only
  refine only_modLane _ (only_foldS _ _ ?_ _ h)
  intro t x k
  split
  · exact only_putRecord _ _ k
  · exact k

theorem only_flushLane {l : Lane} {z s : State} (t : FlushTrigger) (h : onlyLane l z s) : onlyLane l z (flushLane s l t) := by
  unfold flushLane
  dsimp only
  refine only_modLane _ ?_
  have k : ∀ u, onlyLane l z u → onlyLane l z (if u.cellar.keeper = l then keeperPages u else u) := by
    intro u hu
    split
    · exact only_lanes (s := u) rfl hu
    · exact hu
  have k2 : onlyLane l z (drainStaging (closeLost (if t = .periodic then closeWindows s l else s) l) l) := by
    refine only_drainStaging (only_closeLost ?_)
    split
    · exact only_closeWindows h
    · exact h
  split
  · exact k _ k2
  · exact k2

theorem same_mod {ps : List Part} {s t : State} (h : changesOnly ps s t) (h1 : ps.contains .mode = false) (h2 : ps.contains .clock = false) : t.mod = s.mod := by
  have a := (h .mode h1).1
  have b := (h .clock h2).1
  have c : t.mod = { ({ t.mod with st := ModSt.boot } : Module) with st := t.mod.st } := rfl
  rw [show ({ t.mod with st := ModSt.boot } : Module) = { s.mod with st := ModSt.boot } from b, show t.mod.st = s.mod.st from a] at c
  exact c

theorem life_eq {ps : List Part} {s t : State} (h : changesOnly ps s t) (h1 : ps.contains .laneState = false) (h2 : ps.contains .life = false) (l : Lane) :
    (lane t l).life = (lane s l).life := by
  have a := life_same ((h .life h2).2 l)
  rw [show (lane t l).life.st = (lane s l).life.st from (h .laneState h1).2 l] at a
  exact a

theorem fold_three {P : Lane → State → Prop} (f : State → Lane → State) (s : State)
    (hself : ∀ t l, lane t l = lane s l → t.mod = s.mod → P l (f t l))
    (hkeep : ∀ t l m, m ≠ l → P m t → P m (f t l)) (ho : ∀ t l, onlyLane l t (f t l)) (hm : ∀ t l, (f t l).mod = t.mod) :
    (∀ l, P l (foldS Lane.list f s)) ∧ (foldS Lane.list f s).mod = s.mod := by
  unfold foldS Lane.list
  rw [List.foldl_cons, List.foldl_cons, List.foldl_cons, List.foldl_nil]
  have pa := hself s .A rfl rfl
  have pb := hself (f s .A) .B (ho s .A .B (by decide)) (hm _ _)
  have pc := hself (f (f s .A) .B) .C ((ho _ .B .C (by decide)).trans (ho s .A .C (by decide))) ((hm _ _).trans (hm _ _))
  refine ⟨fun l => ?_, by rw [hm, hm, hm]⟩
  cases l
  · exact hkeep _ _ _ (by decide) (hkeep _ _ _ (by decide) pa)
  · exact hkeep _ _ _ (by decide) pb
  · exact pc

end Sys2Proof.Laws
end

