-- ==== Sys2Proof/Laws/Findings.lean ====
section
/-!
SUPPORT. What an isolation leaves beside Safety.LaneOut.
-/

namespace Sys2Proof.Laws

open Sys2Proof.Machine Sys2Proof.Safety

/-- What the Sluices show beside latches, drives and their view of the lanes is as it was. -/
def shows (s t : State) : Prop := ∀ m,
  (t.sluices.get m).dissent = (s.sluices.get m).dissent ∧ (t.sluices.get m).outcome = (s.sluices.get m).outcome ∧
  (t.sluices.get m).decisionTime = (s.sluices.get m).decisionTime ∧ (t.sluices.get m).voteCycle = (s.sluices.get m).voteCycle ∧
  (t.sluices.get m).linkTimedOut = (s.sluices.get m).linkTimedOut ∧ (t.sluices.get m).linkUp = (s.sluices.get m).linkUp ∧
  (t.sluices.get m).closeDone = (s.sluices.get m).closeDone ∧ (t.sluices.get m).closeOk = (s.sluices.get m).closeOk ∧
  (t.sluices.get m).lone = (s.sluices.get m).lone ∧ (t.sluices.get m).linkReset = (s.sluices.get m).linkReset ∧
  (t.sluices.get m).tickDev = (s.sluices.get m).tickDev

theorem shows_refl (s : State) : shows s s := fun _ => ⟨rfl, rfl, rfl, rfl, rfl, rfl, rfl, rfl, rfl, rfl, rfl⟩

theorem shows_trans {s t u : State} (h : shows s t) (k : shows t u) : shows s u := fun m => by
  obtain ⟨a1, a2, a3, a4, a5, a6, a7, a8, a9, a10, a11⟩ := h m
  obtain ⟨b1, b2, b3, b4, b5, b6, b7, b8, b9, b10, b11⟩ := k m
  exact ⟨b1.trans a1, b2.trans a2, b3.trans a3, b4.trans a4, b5.trans a5, b6.trans a6, b7.trans a7, b8.trans a8, b9.trans a9, b10.trans a10, b11.trans a11⟩

theorem shows_of {s t : State} (h : t.sluices = s.sluices) : shows s t := fun m => by rw [h]; exact shows_refl s m

theorem shows_setLatch (s : State) (l : Lane) (c : LatchCause) : shows s (setLatch s l c) := fun m => by
  unfold setLatch
  by_cases e : m = l
  · subst e
    rw [sluices_modSluice, get_set_self]
    split <;> exact ⟨rfl, rfl, rfl, rfl, rfl, rfl, rfl, rfl, rfl, rfl, rfl⟩
  · rw [sluices_modSluice, get_set_other _ _ e]
    exact ⟨rfl, rfl, rfl, rfl, rfl, rfl, rfl, rfl, rfl, rfl, rfl⟩

theorem shows_foldS {α : Type} (xs : List α) (f : State → α → State) (hf : ∀ t x, shows t (f t x)) (s : State) : shows s (foldS xs f s) := by
  unfold foldS
  induction xs generalizing s with
  | nil => exact shows_refl s
  | cons a xs ih => exact shows_trans (hf s a) (ih _)

theorem sluices_of {ps : List Part} {s t : State} (h : changesOnly ps s t) (hp : ps.contains .sluices = false) : t.sluices = s.sluices := (h .sluices hp).1

theorem shows_endBist (s : State) (l : Lane) : shows s (endBist s l) :=
  shows_of (sluices_of (chg_endBist s l (by decide) (changesOnly_refl [.life, .eic, .staging, .bist, .ports, .log] s)) rfl)

theorem shows_enterSafe (s : State) : shows s (enterSafe s) := by
  unfold enterSafe
  split
  · exact shows_refl s
  · dsimp only
    refine shows_trans ?_ (shows_of (sluices_of (chg_recordAll _ _ _ (by decide) (changesOnly_refl records _)) rfl))
    refine shows_trans ?_ (shows_of (sluices_of (chg_setModule _ _ (by decide) (changesOnly_refl [.mode, .eic, .staging, .ports, .log, .free] _)) rfl))
    refine shows_trans (shows_foldS Lane.list (fun s l => endBist (setLatch s l .follow) l)
      (fun t x => shows_trans (shows_setLatch t x .follow) (shows_endBist _ x)) s) (shows_of (sluices_modLanes _ _))

theorem shows_latchAll (s : State) (c : LatchCause) : shows s (latchAll s c) :=
  shows_trans (shows_foldS _ _ (fun t x => shows_setLatch t x _) s) (shows_enterSafe _)

theorem shows_afterLoss (s : State) (c : LatchCause) : shows s (afterLoss s c) := by
  unfold afterLoss
  repeat' split
  · exact shows_latchAll _ _
  · exact shows_of (sluices_of (chg_setModule _ _ (by decide) (changesOnly_refl [.mode, .eic, .staging, .ports, .log, .free] _)) rfl)
  · exact shows_refl _
  · exact shows_refl _

theorem shows_abort (s : State) : shows s (abortSwitchTests s) := fun m => by
  unfold abortSwitchTests
  rw [sluices_modSluices, get_map]
  split <;> exact ⟨rfl, rfl, rfl, rfl, rfl, rfl, rfl, rfl, rfl, rfl, rfl⟩

theorem shows_dropLane (s : State) (l : Lane) : shows s (dropLane s l) := fun m => by
  unfold dropLane
  rw [sluices_modSluices, get_map, sluices_modSluice]
  by_cases e : m = l
  · subst e; rw [get_set_self]; exact ⟨rfl, rfl, rfl, rfl, rfl, rfl, rfl, rfl, rfl, rfl, rfl⟩
  · rw [get_set_other _ _ e]; exact ⟨rfl, rfl, rfl, rfl, rfl, rfl, rfl, rfl, rfl, rfl, rfl⟩

theorem shows_latchSafe (s : State) : shows s (latchSafe s) := by
  unfold latchSafe
  split
  · exact shows_enterSafe s
  · exact shows_refl s

/-- The hold of every lone latch and every image link are as they were. -/
def linksKept (s t : State) : Prop := ∀ m, (lane t m).life.loneHeld = (lane s m).life.loneHeld ∧ (lane t m).link = (lane s m).link

theorem links_refl (s : State) : linksKept s s := fun _ => ⟨rfl, rfl⟩

theorem links_trans {s t u : State} (h : linksKept s t) (k : linksKept t u) : linksKept s u :=
  fun m => ⟨(k m).1.trans (h m).1, (k m).2.trans (h m).2⟩

theorem links_of {ps : List Part} {s t : State} (h : changesOnly ps s t) (h1 : ps.contains .laneState = false) (h2 : ps.contains .life = false)
    (h3 : ps.contains .link = false) : linksKept s t := fun m => ⟨by rw [life_eq h h1 h2], ((h .link h3).2 m).1⟩

theorem links_foldS {α : Type} (xs : List α) (f : State → α → State) (hf : ∀ t x, linksKept t (f t x)) (s : State) : linksKept s (foldS xs f s) := by
  unfold foldS
  induction xs generalizing s with
  | nil => exact links_refl s
  | cons a xs ih => exact links_trans (hf s a) (ih _)

theorem links_setLatch (s : State) (l : Lane) (c : LatchCause) : linksKept s (setLatch s l c) := links_refl s

theorem links_modLane (s : State) (l : Lane) (f : LaneState → LaneState)
    (hf : ∀ L, (f L).life.loneHeld = L.life.loneHeld ∧ (f L).link = L.link) : linksKept s (modLane s l f) := fun m => by
  rw [lane_modLane]
  split
  · next e => subst e; exact hf _
  · exact ⟨rfl, rfl⟩

theorem links_endBist (s : State) (l : Lane) : linksKept s (endBist s l) := by
  unfold endBist
  dsimp only
  split
  · exact links_refl s
  split
  · exact links_of (chg_setPhase s l 0 (by decide) (changesOnly_refl [.bist, .ports] s)) rfl rfl rfl
  · refine links_trans ?_ (links_of (chg_recordLane _ l _ _ (by decide) (changesOnly_refl records _)) rfl rfl rfl)
    refine links_trans ?_ (links_modLane _ l _ fun _ => ⟨rfl, rfl⟩)
    exact links_of (chg_movePhase s l 0 (by decide) (changesOnly_refl [.eic, .bist, .ports] s)) rfl rfl rfl

/-- Dropping the record of a planned isolation leaves the links. -/
theorem links_drop (s : State) (l : Lane) (b : Bool) : linksKept s (if b then dropPlanned s l else s) := by
  split
  · exact fun m => by unfold dropPlanned; rw [lane_modLanes]; exact ⟨rfl, rfl⟩
  · exact links_refl s

theorem links_setModule (s : State) (m : ModSt) : linksKept s (setModule s m) :=
  links_of (chg_setModule s m (by decide) (changesOnly_refl [.mode, .eic, .staging, .ports, .log, .free] s)) rfl rfl rfl

theorem links_safeLane (s : State) : linksKept s (modLanes s (fun _ L => safeLane L)) := fun m => by rw [lane_modLanes]; exact ⟨rfl, rfl⟩

theorem links_enterSafe (s : State) : linksKept s (enterSafe s) := by
  unfold enterSafe
  split
  · exact links_refl s
  · refine links_trans ?_ (links_of (chg_recordAll _ _ _ (by decide) (changesOnly_refl records _)) rfl rfl rfl)
    refine links_trans ?_ (links_setModule _ _)
    exact links_trans (links_foldS Lane.list (fun s l => endBist (setLatch s l .follow) l)
      (fun t x => links_trans (links_setLatch t x .follow) (links_endBist _ x)) s) (links_safeLane _)

theorem links_latchSafe (s : State) : linksKept s (latchSafe s) := by
  unfold latchSafe
  split
  · exact links_enterSafe s
  · exact links_refl s

theorem links_afterLoss (s : State) (c : LatchCause) : linksKept s (afterLoss s c) := by
  unfold afterLoss
  repeat' split
  · exact links_trans (links_foldS _ _ (fun t x => links_setLatch t x _) s) (links_enterSafe _)
  · exact links_setModule _ _
  · exact links_refl s
  · exact links_refl s

/-- What an isolation leaves beside Safety.LaneOut: the Sluices' other registers, the lifetime area but for the lane's own counts, and the
image that the lane's link holds. -/
theorem isolateNow_more (s : State) (l : Lane) (c : IsoCause) (x : LatchCause) :
    shows s (isolateNow s l c x) ∧
    (∃ e, (isolateNow s l c x).cellar.life = { s.cellar.life with lanes := s.cellar.life.lanes.set l e } ∧
      e.overrunTotal = (s.cellar.life.lanes.get l).overrunTotal) ∧
    (lane (isolateNow s l c x) l).link.image = (lane s l).link.image ∧ (lane (isolateNow s l c x) l).life.loneHeld = (lane s l).life.loneHeld := by
  unfold isolateNow
  have hd := unstaged_drop s l (meetsPlanned s l c)
  have hk := links_drop s l (meetsPlanned s l c)
  dsimp only
  generalize (!planned c && (decide ((inWindow s.mod.tickTime day24 (s.cellar.life.lanes.get l).stamps).length ≥ 3) || bothFailed s.cellar)) = r
  generalize (if meetsPlanned s l c = true then dropPlanned s l else s) = d at *
  generalize he : (modPages (abortSwitchTests d) [3] _) = s2
  generalize hu : modLane s2 l _ = u
  generalize hv : (if (!planned c) = true then endBist u l else u) = v
  have cv : changesOnly (records ++ [.life, .bist]) u v ∧ linksKept u v := by
    rw [← hv]
    split
    · exact ⟨chg_endBist _ _ (by decide) (changesOnly_refl _ _), links_endBist u l⟩
    · exact ⟨changesOnly_refl _ _, links_refl u⟩
  generalize hw : (if r = true then eventAll _ 1 0x0101 _ else recordAll _ 0x0100 _) = w
  have raised : ∀ (y : State) (b : Bool), changesOnly records y (if b = true then y else eicRaiseAll y 0) := fun y b => by
    split
    · exact changesOnly_refl records y
    · exact chg_eicRaiseAll _ _ (by decide) (changesOnly_refl records y)
  have cw : changesOnly records (dropLane v l) w := by
    rw [← hw]
    split
    · exact chg_eventAll _ _ _ _ (by decide) (chg_recordAll _ _ _ (by decide) (raised _ _))
    · exact chg_recordAll _ _ _ (by decide) (raised _ _)
  have ca : changesOnly [.mode, .life, .press, .raa, .eic, .staging, .bank, .bist, .link, .sluices, .ports, .log, .free] w
      (latchSafe (afterLoss w x)) := chg_latchSafe _ (by decide) (chg_afterLoss w x (by decide) (changesOnly_refl _ _))
  have lu : (lane u l).link.image = (lane s2 l).link.image ∧ (lane u l).life.loneHeld = (lane s2 l).life.loneHeld := by
    rw [← hu, lane_modLane_self]; exact ⟨rfl, rfl⟩
  have ls2 : lane s2 l = lane d l := by rw [← he]; rfl
  have kw : linksKept u (latchSafe (afterLoss w x)) :=
    links_trans (t := v) cv.2 (links_trans (t := dropLane v l) (links_refl v)
      (links_trans (links_of cw rfl rfl rfl) (links_trans (links_afterLoss w x) (links_latchSafe _))))
  refine ⟨?_, ?_, by rw [(kw l).2, lu.1, ls2, (hk l).2], by rw [(kw l).1, lu.2, ls2, (hk l).1]⟩
  · refine shows_trans ?_ (shows_latchSafe _)
    refine shows_trans ?_ (shows_afterLoss _ _)
    refine shows_trans ?_ (shows_of (sluices_of cw rfl))
    refine shows_trans ?_ (shows_dropLane _ _)
    refine shows_trans ?_ (shows_of (sluices_of cv.1 rfl))
    refine shows_trans (shows_of hd.sluices) (shows_trans (shows_abort d) (shows_of ?_))
    rw [← hu, ← he]; rfl
  · refine ⟨lifeIsolate (s.cellar.life.lanes.get l) c (!planned c) (meetsPlanned s l c) r s.mod.tickTime, ?_, rfl⟩
    rw [(ca .lifetime rfl).1, (cw .lifetime rfl).1]
    show v.cellar.life = _
    rw [(cv.1 .lifetime rfl).1, ← hu, ← he, ← hd.cellar]; rfl

/-- The same of the isolation of a lane that can be isolated. -/
theorem isolate_more (s : State) (l : Lane) (c : IsoCause) (h : isolatable (lst s l) = true) : shows s (isolate s l c) ∧
    (∃ e, (isolate s l c).cellar.life = { s.cellar.life with lanes := s.cellar.life.lanes.set l e } ∧
      e.overrunTotal = (s.cellar.life.lanes.get l).overrunTotal) ∧
    (lane (isolate s l c) l).link.image = (lane s l).link.image ∧ (lane (isolate s l c) l).life.loneHeld = (lane s l).life.loneHeld := by
  unfold isolate isolateWith
  rw [if_pos (by rw [h]; rfl)]
  exact isolateNow_more s l c _

end Sys2Proof.Laws
end

