-- ==== Sys2Proof/Machine/Bars.lean ====
section
/-!
DEFINITION. What a host port shows on its link: the configuration header (R295) and the layout of BAR0 (R298, R299, R302), which says
what an access of the host is.
-/

namespace Sys2Proof.Machine

/-! ### The configuration header (R295) -/

/-- What the type 0 header of a port says, with the state of its endpoint. -/
structure PcieHeader where
  vendor : BitVec 16
  device : BitVec 16
  revision : BitVec 8
  classCode : BitVec 24
  bar0Bytes : Nat
  bar2Bytes : Nat
  vectors : Nat
  /-- The payload sizes supported, and the largest read that the module issues, in bytes. -/
  payloads : List Nat
  maxRead : Nat
  /-- Baseline error reporting and AER, as they stand. -/
  devErr : BitVec 4
  aerUncorrectable : Word
  aerCorrectable : Word
  d3hot : Bool
deriving DecidableEq, Repr

/-- The header of a port: one function, two 64-bit BARs that are not prefetchable, 32 MSI-X vectors; another device with a small BAR0
while the ring lane runs its recovery ROM (R295, R451). -/
def pcieHeader (s : State) (p : Port) : PcieHeader :=
  let rom := (lane s p.ringLane).life.rom
  { vendor := Config.vendorId, device := if rom then 0x3841 else 0x3840, revision := Config.revisionId, classCode := 0x088000
    bar0Bytes := if rom then 65536 else 4194304, bar2Bytes := 8192, vectors := 32, payloads := [128, 256], maxRead := 512
    devErr := (s.ports.get p).devErr, aerUncorrectable := (s.ports.get p).aerUncorrectable
    aerCorrectable := (s.ports.get p).aerCorrectable, d3hot := (s.ports.get p).d3hot }

/-- What a read of the host from BAR2 returns; a masked entry shows its mask bit (R295). -/
def bar2Read (s : State) (p : Port) (off : BitVec 13) : Word :=
  let x := s.ports.get p
  match bar2Place off with
  | .entry v w => if w = 3 then (if x.msixOpen.getLsbD v.val then 0 else 1) else sget 0 x.msixWords (4 * v.val + w.val)
  | .pending => x.pba
  | .unused => 0

/-! ### BAR0 (R298, R302) -/

/-- What lies at an offset of BAR0. -/
inductive Bar0Place where
  | window (l : Lane) (off : BitVec 20)
  | sqTail (q : Fin 16)
  | cqHead (q : Fin 16)
  | unused
deriving DecidableEq, Repr

/-- The doorbell page: two words for each ring (R302). -/
def doorbellPlace (off : Nat) : Bar0Place :=
  let q : Fin 16 := Fin.ofNat 16 (off / 8)
  if 128 ≤ off then .unused else if off / 4 % 2 = 0 then .sqTail q else .cqHead q

/-- The layout of BAR0 (R298): while the ring lane runs its recovery ROM, the 64 KB with its UPD block alone (R451). -/
def bar0Place (s : State) (p : Port) (off : BitVec 22) : Bar0Place :=
  let n := off.toNat
  if (lane s p.ringLane).life.rom then (if n < 0x10000 then .window p.ringLane (off.setWidth 20) else .unused)
  else match n / 0x100000 with
  | 0 => .window .A (off.setWidth 20)
  | 1 => .window .B (off.setWidth 20)
  | 2 => .window .C (off.setWidth 20)
  | _ => doorbellPlace (n % 0x100000)

/-- The access is 32 bits wide and aligned to 4 bytes (R299). -/
def wordAccess (off : BitVec 22) (size : Nat) : Bool := decide (size = 4) && decide (off.toNat % 4 = 0)

/-- The lane whose window an access names; outside the windows the ring lane takes it. -/
def bar0Lane (s : State) (p : Port) (off : BitVec 22) : Lane :=
  match bar0Place s p off with
  | .window l _ => l
  | .sqTail _ => p.ringLane
  | .cqHead _ => p.ringLane
  | .unused => p.ringLane

/-- The command that a write of the host to BAR0 is; none: the write is ignored (R298, R299, R302). -/
def bar0Write (s : State) (p : Port) (off : BitVec 22) (size : Nat) (v : Word) : Option Instr :=
  if !wordAccess off size then some (.unalignedAccess p (bar0Lane s p off) true)
  else match bar0Place s p off with
    | .window l o => some (.registerWrite ⟨some p, l⟩ (.window o) v)
    | .sqTail q => some (.sqTailDoorbell p q v)
    | .cqHead q => some (.cqHeadDoorbell p q v)
    | .unused => none

/-- What a read of the host from BAR0 returns; the doorbell page and the unused range read 0 (R298, R299). -/
def bar0Read (s : State) (p : Port) (off : BitVec 22) (size : Nat) : Word :=
  if !wordAccess off size then 0
  else match bar0Place s p off with
    | .window l o => regRead s ⟨some p, l⟩ o.toNat
    | .sqTail _ => 0
    | .cqHead _ => 0
    | .unused => 0

end Sys2Proof.Machine
end

