-- ==== Sys2Proof/Tests/Slice0.lean ====
section
/-!
SUPPORT. The model's own tests: check values that the spec gives, an ill-formed command for each check of Instr.wf, and for each statement
with hypotheses a witness: concrete states and operands that meet them, clause by clause.
-/

namespace Sys2Proof.Tests

set_option Elab.async false

open Sys2Proof Sys2Proof.Machine Sys2Proof.Safety

/-! ### Small states -/

/-- A route without a start signal, with one condition. -/
def route0 : RouteRec :=
  { route := 0, flags := 1, pathGroups := 1, overlapGroups := 0, startSignal := 0xFFFF, approach := 0xFFFF, exit := 0xFFFF, approachTime := 10
    overlapTime := 10, settingTime := 5, aspect := [], terms := [0x08000002], check := 0 }

/-- A route over one section, with an overlap group. -/
def route1 : RouteRec :=
  { route := 1, flags := 1, pathGroups := 1, overlapGroups := 1, startSignal := 1, approach := 4, exit := 0xFFFF, approachTime := 10
    overlapTime := 10, settingTime := 5, aspect := [], terms := [0x02000004], check := 0 }

/-- The output slot of station 0. -/
def outSlot : SlotEntry := ⟨2100, 5, .stationOut, false, 1, 40, 0⟩

/-- A vintage with one short strand, an element of each kind, two routes, a station, a peer and a twin partner. -/
def vint : Vintage :=
  { image := [], number := 7, base := 0, paramCheck := 0, timingCheck := 0, localIoCheck := 0, minFw := 0, period := 100, endInput := 400
    endLogic := 2000, endVote := 2040, endOutput := 4000, code := [[0, 0, 0], [], [], []]
    elements := [(0, { kind := .point, flags := 0, guard := 0xFFFF, inA := 0, inB := 0, moveTimeout := 5, aspectOut := [], check := 0 }),
      (1, { kind := .signal, flags := 0, guard := 0xFFFF, inA := 0, inB := 0, moveTimeout := 0, aspectOut := [], check := 0 }),
      (2, { kind := .virt, flags := 0, guard := 0xFFFF, inA := 0, inB := 0, moveTimeout := 0, aspectOut := [], check := 0 }),
      (3, { kind := .gate, flags := 1, guard := 4, inA := 0, inB := 0, moveTimeout := 5, aspectOut := [], check := 0 }),
      (4, { kind := .track, flags := 0, guard := 0xFFFF, inA := 0, inB := 0, moveTimeout := 0, aspectOut := [], check := 0 })]
    routes := [(0, route0), (1, route1)]
    presets := [(0, 10)]
    stations := [{ node := 40, segment := 0, points := 16, sid := 5, miss := 2, timeout := 0, hostAdmission := false, safe := [1]
                   configCheck := 9, tReady := 0, tApply := 0 }]
    peers := [{ node := 15, segment := 0, sid := 6, otherSid := 8, miss := 2, timeoutMs := 100, hostAdmission := false, safe := [] }]
    schedule := [[⟨0, 4, .sync, false, 0, 0x400, 0⟩, ⟨100, 5, .stationIn, true, 40, 0x400, 0⟩, ⟨200, 5, .peerIn, true, 15, 1, 512⟩,
      outSlot, ⟨2200, 5, .peerOut, false, 1, 15, 512⟩, ⟨3990, 10, .delay, false, 0, 0, 0⟩]]
    rings := 0
    localIo := { inputs := [], pairs := [], outputs := [], counters := [], tpPeriodMs := 100, crossTimeoutUs := 1000, words := [] }
    carry := [], moduleSid := 3, partnerSid := 4, hostSid := ⟨0x11, 0x12⟩, node := 1, twin := false, admitBase := 0, timeWindowMs := 1000
    bistInterval := 24, marchEvery := 0, limits := [] }

/-- A lane in a state, with the vintage active. -/
def laneIn (x : LaneSt) : LaneState :=
  { LaneState.reset with life := { LaneLife.reset with st := x }, bank := { Bank.reset with active := some vint } }

/-- A module in a state and a phase, its ticks running, with its lanes in the states given. -/
def module (m : ModSt) (ph : Phase) (a b c : LaneSt) : State :=
  { State.reset with
    mod := { Module.reset with st := m, phase := ph, ticking := true, cycle := 100, tickTime := 1000000000 }
    lanes := ⟨laneIn a, laneIn b, laneIn c⟩ }

/-- SERVICE_3oo3. -/
def three (ph : Phase) : State := module .svc3 ph .serving .serving .serving

/-- SERVICE_2oo2, without lane C, which is in a state of its own. -/
def pair (ph : Phase) (c : LaneSt) : State := module .svc2 ph .serving .serving c

/-- Lane A of a state, changed. -/
def withA (s : State) (f : LaneState → LaneState) : State := modLane s .A f

/-- An authorised request of Harnal, and the module that has the key it names. -/
def auth : Auth := { keyVersion := 1, nonce := 5, hmacOk := true }
/-- The same with a bad HMAC. -/
def forged : Auth := { auth with hmacOk := false }
/-- The module holds a key. -/
def keyed (s : State) : State := modLife s (fun f => { f with keyVersion := 1, key := 77 })

/-! ### Check values of R385 and R212: the CRCs of the ASCII string 123456789 -/

/-- The nine bytes. -/
def nine : List Byte := [0x31, 0x32, 0x33, 0x34, 0x35, 0x36, 0x37, 0x38, 0x39]

/-- R383: the check values of the four fixed sets. -/
theorem test_crc_check_values : crcOf crc32c checkString = 0xE3069283 ∧ crcOf crc32 checkString = 0xCBF43926 ∧
    crcOf crc64 checkString = 0x995DC9BBDF1939FA ∧ crcOf crc16 checkString = 0x29B1 := by decide +kernel

/-! ### Well-formed commands: a term that each check refuses -/

/-- A frame without payload. -/
def frame0 : Frame :=
  { type := 0x11, flags := 0, source := 40, dest := 0x400, length := 0, cycle := 100, epoch := 0, sequence := 1, time := 1000000000
    payload := [], trailer := 0, code1 := 0, code2 := 0, fcs := 0 }

/-- A copy of a frame that arrives some ns after the tick at 1 s. -/
def copyAt (ns : Nat) (f : Frame) : RxFrame := { seg := 0, medium := .X, side := .A, arrival := BitVec.ofNat 64 (1000000000 + ns), frame := f }

/-- A copy that arrives at the tick. -/
def copy (f : Frame) : RxFrame := copyAt 0 f

/-- A Press word of strand 0 of lane A. -/
def word (n : Nat) : PressWord := { lane := .A, strand := 0, opcode := 0, field := 0, operand := BitVec.ofNat 22 n }

theorem test_wf_good : Instr.wf (.ld (word 5) 3) = true ∧ Instr.wf (.sync (copy frame0)) = true ∧ Instr.wf (.closeBranch (word 4)) = true ∧
    Instr.wf (.registerWrite ⟨none, .A⟩ (.window 4) 0) = true ∧ Instr.wf (.registerWrite ⟨some .p0, .A⟩ (.bar2 4) 0) = true ∧ Instr.wf (.fence .p0 0 0x30) = true := by decide +kernel

theorem test_wf_press : Instr.wf (.ld (word 0x20000) 0) = false ∧ Instr.wf (.st (word 0) 0) = false ∧ Instr.wf (.lw (word 0x10000)) = false ∧
    Instr.wf (.ton (word 0x4000)) = false ∧ Instr.wf (.ctu (word 0x2000)) = false ∧ Instr.wf (.lih (word 0x400)) = false ∧
    Instr.wf (.xld (word 0x20000)) = false ∧ Instr.wf (.nop (word 1)) = false ∧ Instr.wf (.closeBranch (word 5)) = false ∧
    Instr.wf (.jmp (word 655360)) = false ∧ Instr.wf (.bar (word 256)) = false ∧ Instr.wf (.rreq (word 0x4000)) = false ∧
    Instr.wf (.ecmd (word 0x70000)) = false := by decide +kernel

theorem test_wf_frames : Instr.wf (.sync (copy { frame0 with length := 4 })) = false ∧
    Instr.wf (.coldStart (copy { frame0 with length := 1, payload := [0] })) = false ∧
    Instr.wf (.twin .A (copy { frame0 with length := 1028, payload := List.replicate 1028 0 })) = false := by decide +kernel

theorem test_wf_registers : Instr.wf (.registerWrite ⟨none, .A⟩ (.window 6) 0) = false ∧
    Instr.wf (.registerWrite ⟨none, .A⟩ (.bar2 4) 0) = false ∧ Instr.wf (.registerWrite ⟨some .p0, .A⟩ (.bar2 6) 0) = false ∧
    Instr.wf (.crossingRefresh ⟨PerLane.all 0, 0, 0, [], 0⟩) = false ∧ Instr.wf (.onTestEnd 0 21 20 0) = false := by decide +kernel

/-- A recovery image of more than 8 MB. -/
theorem test_wf_rom (data : List Byte) (h : 8388608 < data.length) : Instr.wf (.updRomStart .A ⟨data, 0, true, 0, 0⟩) = false ∧
    Instr.wf (.servicePortRomImage .C ⟨data, 0, true, 0, 0⟩) = false := by
  have : ¬ data.length ≤ 8388608 := by omega
  simp [Instr.wf, FwImage.wf, this]

theorem test_wf_classes : Instr.wf (.routeRequest .p0 0 2) = false ∧ Instr.wf (.routeCancel .p0 0 1) = false ∧
    Instr.wf (.elementCommand .p0 0 4) = false ∧ Instr.wf (.stationAdmit .p0 0 3) = false ∧ Instr.wf (.imageRead .p0 0 0x11) = false ∧
    Instr.wf (.cellarRead .p0 0 ⟨0x10, [], []⟩) = false ∧ Instr.wf (.cellarClear .p0 0 0x12 0) = false ∧ Instr.wf (.rack .p0 0 0x22 0) = false ∧
    Instr.wf (.confirmParameters .p0 0 0x23 0) = false ∧ Instr.wf (.timeSet .p0 0 0x22) = false ∧ Instr.wf (.fence .p0 0 0x31) = false ∧
    Instr.wf (.authExt .p0 0 0x40) = false := by decide +kernel

theorem test_wf_staging : Instr.wf (.stageProgram .p0 0 0x21 [] none) = false ∧ Instr.wf (.stageProgram .p0 0 0x20 [0] none) = false ∧
    Instr.wf (.stageProgram .p0 0 0x20 [] (some vint)) = false ∧
    Instr.wf (.stageFirmware .p0 0 0x21 0x41 [] none) = false ∧
    Instr.wf (.stageFirmware .p0 0 0x21 0x40 [] (some true)) = false := by decide +kernel

/-! ### Witnesses: the interrupt controller -/

/-- Source k of lane A. -/
def sourced (s : State) (k : Nat) (x : EicSrc) : State :=
  withA s (fun L => { L with eic := { L.eic with srcs := sput EicSrc.reset L.eic.srcs k x } })

/-- A pending source with a priority. -/
def pendingSrc (p : BitVec 3) : EicSrc := { EicSrc.reset with st := .pending, enabled := true, priority := p, count := 1 }

theorem witness_ArrivalsAndFallbacks : eicOpen (three .input) .A = true ∧ eicUsed (0 : Fin 1024).val = true ∧ eicUsed (831 : Fin 1024).val = true ∧
    (831 : Fin 1024).val < 960 ∧ eicLevelKind 4 = true ∧ eicLevelKind 831 = false ∧ ((three .input).ports.get .p0).linkUp = false ∧
    runs (three .input) .A = true ∧
    (let s := sourced (three .input) 0 { pendingSrc 7 with h0 := true }
     eicPresented (lane s .A).eic (source s .A 0) = some .h0 ∧ (source s .A 0).moved = none) := by decide +kernel

theorem witness_EicWordWrites : reaches (three .input) ⟨none, .A⟩ = true ∧ reaches (three .input) ⟨some .p0, .A⟩ = true ∧
    wordSources 31 0x80000000 1023 = true := by decide +kernel

theorem claim_best : claims (sourced (three .input) 0 (pendingSrc 7)) .A .sc 0 := by
  refine ⟨by decide +kernel, fun j hj h => ?_⟩
  have e : source (sourced (three .input) 0 (pendingSrc 7)) .A j = EicSrc.reset := by
    show sget EicSrc.reset [(0, pendingSrc 7)] j = EicSrc.reset
    simp [sget, hj]
  rw [e] at h
  cases h

theorem witness_EicClaimTakesBest : (⟨none, .A⟩ : RegAccess).port = eicPort .sc ∧
    reaches (sourced (three .input) 0 (pendingSrc 7)) ⟨none, .A⟩ = true ∧ claims (sourced (three .input) 0 (pendingSrc 7)) .A .sc 0 ∧
    eicUsed 0 = true ∧ (∀ k, eicPresented (lane (three .input) .A).eic (source (three .input) .A k) ≠ some .sc) ∧
    (⟨some .p1, .A⟩ : RegAccess).port ≠ eicPort .h0 :=
  ⟨by decide, by decide +kernel, claim_best, by decide, (fun _ h => by cases h), by decide⟩

theorem witness_EicCompleteEndsClaim :
    (let s := sourced (three .input) 831 { pendingSrc 7 with st := .claimed }
     field (831 : Word) 9 0 = 831 ∧ (source s .A 831).claimedBy = .sc ∧ eicUsed 831 = true ∧ (source s .A 831).st = .claimed) ∧
    (let s := sourced (three .input) 831 { pendingSrc 7 with st := .claimedAgain }
     (source s .A 831).claimedBy = .sc ∧ (source s .A 831).st = .claimedAgain) ∧
    (source (three .input) .A 0).st = .idle ∧ (source (sourced (three .input) 0 (pendingSrc 1)) .A 0).st = .pending ∧
    (source (three .input) .A 0).claimedBy ≠ .h1 := by decide +kernel

/-! ### Witnesses: the Press -/

/-- The Press of lane A runs, strand 0 as given, the others ended. -/
def pressing (f : Strand → Strand) : State :=
  withA (three .logic) (fun L => { L with press := { Press.reset with
    active := true
    strands := { s0 := f { Strand.reset with running := true }, s1 := { Strand.reset with ended := true }
                 s2 := { Strand.reset with ended := true }, s3 := { Strand.reset with ended := true } } } })

/-- Strand 0 at its first word. -/
def atStart : State := pressing id

theorem witness_fetches : fetches atStart (word 0) false ∧ fetches (pressing (fun x => { x with pc := 2 })) (word 0) true ∧
    fetches (pressing (fun x => { x with ran := true })) (word 0) false := by
  unfold fetches executing; decide +kernel

theorem witness_BitWords : fetches atStart (word 0x3FFF) false ∧ bitLegal 3 (opnd (word 0xFFFFF)) = true ∧ bitLegal 0 (opnd (word 0x1FFFF)) = true ∧
    bitLegal 3 (opnd (word 0x3FFF)) = true ∧ bitWritable 3 = true := by
  unfold fetches executing; decide +kernel

theorem witness_EdgeAndCounterWords : fetches atStart (word 65535) false ∧ opnd (word 65535) < 65536 ∧ fetches atStart (word 8191) false ∧
    opnd (word 8191) < 8192 ∧ (strandNow atStart (word 8191)).cog = false ∧
    (strandNow (pressing (fun x => { x with cog := true })) (word 8191)).cog = true := by
  unfold fetches executing; decide +kernel

/-- A timer record at index 0. -/
def timed (cog : Bool) (r : TimerRec) : State :=
  withA (pressing (fun x => { x with cog := cog })) (fun L => { L with press := { L.press with
    data := { L.press.data with t := sput TimerRec.reset L.press.data.t 0 r } } })

/-- A timer that runs since the tick 1 ms earlier: at its preset of 10. -/
def runningTimer : TimerRec := { TimerRec.reset with run := true, out := true, last := true, start := 999000000 }

theorem witness_TimerWords : fetches (timed true runningTimer) (word 0) false ∧ opnd (word 16383) < 16384 ∧ opnd (word 0) < 16384 ∧
    (let s := timed true runningTimer
     (strandNow s (word 0)).cog = true ∧ (sget TimerRec.reset (dataNow s (word 0)).t 0).run = true) ∧
    (let s := timed false { TimerRec.reset with out := true }
     (strandNow s (word 0)).cog = false ∧ (sget TimerRec.reset (dataNow s (word 0)).t 0).run = false ∧
       (sget TimerRec.reset (dataNow s (word 0)).t 0).out = true) ∧
    (let s := timed true TimerRec.reset
     (strandNow s (word 0)).cog = true ∧ (sget TimerRec.reset (dataNow s (word 0)).t 0).run = false ∧
       (sget TimerRec.reset (dataNow s (word 0)).t 0).last = false ∧ (sget TimerRec.reset (dataNow s (word 0)).t 0).out = false) := by
  unfold fetches executing; decide +kernel

theorem witness_WordWords : fetches atStart (word 0) false ∧ opnd (word 65535) < 65536 ∧ opnd (word 1023) < 1024 ∧ opnd (word 16383) < 16384 ∧
    opnd (word 8191) < 8192 ∧ opnd (word 131071) < 131072 ∧ opnd (word 0) = 0 := by
  unfold fetches executing; decide +kernel

theorem witness_FlowWords : fetches atStart (word 0) false ∧ opnd (word 0) = 0 ∧
    (strandNow (pressing (fun x => { x with stack := List.replicate 15 (.expr true) })) (word 0)).stack.length < 16 ∧
    (strandNow (pressing (fun x => { x with stack := [.expr true] })) (word 4)).stack = [.expr true] ∧ opnd (word 4) = 4 ∧
    fetches atStart (word 2) false ∧ (strandNow atStart (word 2)).pc < opnd (word 2) ∧ opnd (word 2) < segLen (lane atStart .A) 0 ∧
    opnd (word 2) ≠ (strandNow atStart (word 2)).pc := by
  unfold fetches executing; decide +kernel

theorem witness_ReturnAndEnd :
    (let s := pressing (fun x => { x with pc := 2, stack := [.call 1] })
     fetches s (word 0) true ∧ (strandNow s (word 0)).stack = [.call 1]) ∧
    (let s := pressing (fun x => { x with pc := 2 })
     fetches s (word 0) true ∧ (strandNow s (word 0)).stack = [] ∧
       (∀ i, i ≠ (word 0).strand → (strandOf (lane (atWord s (word 0)) .A).press.strands i).ended = true)) ∧
    opnd (word 0) = 0 ∧
    (let s := modLane (pressing (fun x => { x with pc := 2 })) .A (fun L => { L with press := { L.press with
       strands := { L.press.strands with s3 := Strand.reset } } })
     ∃ i, i ≠ (word 0).strand ∧ (strandOf (lane (atWord s (word 0)) .A).press.strands i).ended = false) := by
  unfold fetches executing; decide +kernel

/-- Strand 0 of lane A waits at barrier 255, strand 1 as given. -/
def atBarrier (f : Strand → Strand) : State :=
  withA (pressing (fun x => { x with waiting := some 255, passed := some 255 })) (fun L => { L with press := { L.press with
    strands := { L.press.strands with s1 := f Strand.reset } } })

theorem witness_BarriersHold : fetches atStart (word 255) false ∧ opnd (word 255) < 256 ∧
    (strandNow (pressing (fun x => { x with passed := some 3 })) (word 255)).passed = some 3 ∧
    (let s := atBarrier (fun x => { x with passed := some 255 })
     (strandOf (lane s .A).press.strands 0).waiting = some 255 ∧ (lane s .A).press.active = true) ∧
    (∀ j, j ≠ (0 : Fin 4) → (strandOf (lane (atBarrier (fun x => { x with passed := some 255 })) .A).press.strands j).ended = true ∨
      ∃ m, (strandOf (lane (atBarrier (fun x => { x with passed := some 255 })) .A).press.strands j).passed = some m ∧
        (255 : BitVec 8).toNat ≤ m.toNat) ∧
    (∃ j, j ≠ (0 : Fin 4) ∧ (strandOf (lane (atBarrier (fun x => { x with passed := some 254 })) .A).press.strands j).ended = false ∧
      ∀ m, (strandOf (lane (atBarrier (fun x => { x with passed := some 254 })) .A).press.strands j).passed = some m →
        m.toNat < (255 : BitVec 8).toNat) := by
  refine ⟨by unfold fetches executing; decide +kernel, by decide, by decide +kernel, by decide +kernel, fun j hj => ?_, 1, by decide,
    by decide +kernel, fun m h => ?_⟩
  · match j, hj with
    | 1, _ => exact .inr ⟨255, by decide +kernel, by decide⟩
    | 2, _ => exact .inl (by decide +kernel)
    | 3, _ => exact .inl (by decide +kernel)
  · have e : some (254 : BitVec 8) = some m := h
    cases e
    decide

/-- The queue of the next cycle is full. -/
def fullQueue : State :=
  withA (pressing (fun x => { x with cog := true })) (fun L => { L with raa := { L.raa with length := 3072 + 256 } })

theorem witness_CallWords : fetches atStart (word 16383) false ∧ opnd (word 16383) < 16384 ∧ opnd (word (7 * 65536 - 1)) < 7 * 65536 ∧
    (strandNow atStart (word 16383)).cog = false ∧ (strandNow (pressing (fun x => { x with cog := true })) (word 16383)).cog = true ∧
    placedNext (lane (atWord atStart (word 0)) .A) < 3072 ∧ fetches fullQueue (word 0) false ∧
    placedNext (lane (atWord fullQueue (word 0)) .A) = 3072 := by
  unfold fetches executing; decide +kernel

theorem witness_PressFaultsIsolate : executing atStart (word 0) ∧ isolatable (lst atStart .A) = true ∧
    executing (pressing (fun x => { x with pc := 3 })) (word 0) ∧ segLen (lane atStart .A) 0 = 3 ∧
    (strandNow (pressing (fun x => { x with pc := 3 })) (word 0)).pc = 3 ∧
    wordOf (.nop { word 0 with field := 1 }) = some { word 0 with field := 1 } ∧
    ({ word 0 with field := 1 } : PressWord).field.toNat ≠ ({ word 0 with field := 1 } : PressWord).strand.val ∧
    (strandNow (pressing (fun x => { x with pc := 2 })) (word 0)).pc + 1 = 3 ∧ fetches atStart (word 0) false ∧
    wordOf (.nop { word 0 with opcode := 0xFF }) = some { word 0 with opcode := 0xFF } ∧ opListed 0xFF = false ∧
    (strandNow (pressing (fun x => { x with stack := List.replicate 16 (.expr true) })) (word 0)).stack.length ≥ 16 ∧
    (strandNow atStart (word 4)).stack = [] ∧ opnd (word 4) < 5 ∧
    (strandNow (pressing (fun x => { x with stack := [.call 0] })) (word 0)).stack = [.call 0] ∧
    fetches (pressing (fun x => { x with pc := 2 })) (word 0) true ∧
    fetches (pressing (fun x => { x with pc := 2, stack := [.expr true] })) (word 0) true ∧
    (strandNow (pressing (fun x => { x with pc := 2, stack := [.expr true] })) (word 0)).stack = [.expr true] := by
  unfold fetches executing; decide +kernel

theorem witness_ClockEndsWithWrites : (2 : BitVec 4) = 2 ∧ (3 : BitVec 4) = 3 ∧ (0xC : BitVec 4) = 0xC ∧ (0 : Fin 4).val < (3 : Fin 4).val := by
  decide

/-! ### Witnesses: supplies, resets, lane life -/

/-- A module in reset. -/
def offState : State := { State.reset with mod := { Module.reset with st := .off } }

/-- The parked slot of every lane holds one version. -/
def parkedState : State := modLanes offState (fun _ L => { L with boot := { L.boot with st1 := .parked } })

theorem witness_ReleaseFromReset : offState.mod.st = .off ∧ (lane offState .A).life.held = false ∧ lst offState .A = .boot ∧
    (withA offState (fun L => { L with life := { L.life with held := true } })).mod.st = .off ∧
    (lane (withA offState (fun L => { L with life := { L.life with held := true } })) .A).life.held = true ∧
    (∀ l, parkedVersion (lane parkedState l).boot = some factoryVersion) ∧
    ¬ ∃ v, ∀ l, parkedVersion (lane offState l).boot = some v := by
  refine ⟨rfl, rfl, rfl, rfl, rfl, fun l => by cases l <;> rfl, fun ⟨v, h⟩ => ?_⟩
  have e : (none : Option Word) = some v := h .A
  cases e

theorem witness_ModuleResets : (three .input).mod.st ≠ .off ∧ (module .safe .idle .serving .serving .serving).mod.st = .safe := by
  decide +kernel

theorem witness_SupplyWarnings : (three .input).mod.st ≠ .off ∧ (three .input).mod.v3Warn = false ∧ runs (three .input) .A = true ∧
    (lane (withA (three .input) (fun L => { L with bist := { L.bist with phase := 5 } })) .A).bist.phase = 5 ∧
    ({ three .input with mod := { (three .input).mod with v3Warn := true } } : State).mod.v3Warn = true ∧
    (lane (three .input) .A).pwr.coreWarn = false := by decide +kernel

theorem witness_LaneResets : (three .input).mod.st ≠ .off ∧ runs (three .input) .A = true ∧ (lane (three .input) .A).life.held = false ∧
    (lane (three .input) .A).life.railHeld = false ∧ isolatable (lst (three .input) .A) = true ∧ lst (three .input) .A ≠ .boot ∧
    (lane (withA State.reset (fun L => { L with life := { L.life with railHeld := true } })) .A).life.railHeld = true ∧
    (lane (withA State.reset (fun L => { L with life := { L.life with held := true } })) .A).life.held = true ∧
    (lane (withA State.reset (fun L => { L with life := { L.life with held := true } })) .A).life.railHeld = false := by decide +kernel

theorem witness_OwnFindingsIsolate : isolatable (lst (three .input) .A) = true ∧ isolatable (lst (pair .input .test) .C) = true := by
  decide +kernel

/-- Every spare row of macro 5 is fused. -/
def noSpare (s : State) : State := withA s (fun L => { L with bist := { L.bist with fused := [(5, 0xFF)] } })

theorem witness_IsolatedLaneIsTested_verdicts :
    (let b := (lane (noSpare (module .svc2 .input .isolated .serving .serving)) .A).bist
     (testVerdict b { result := .pass, repairs := [] }).2 = .pass ∧
     (testVerdict b { result := .logicFail false [0, 0, 0, 0, 0, 1], repairs := [] }).2 = .logicFail false [0, 0, 0, 0, 0, 1] ∧
     bistCause (.logicFail false [0, 0, 0, 0, 0, 1]) = .self ∧ (1 : BitVec 128) ∈ [(0 : BitVec 128), 0, 0, 0, 0, 1].take 6 ∧
     (testVerdict b { result := .logicFail true [0, 7], repairs := [] }).2 = .pass ∧
     freeSpares b 5 = 0 ∧ freeSpares b 6 = 8 ∧
     (testVerdict b { result := .pass, repairs := [⟨5, 0, 127⟩] }).2 = .sramFail 5 127 ∧
     (testVerdict b { result := .dramFail 9, repairs := [] }).2 = .dramFail 9) := by decide +kernel

theorem witness_IsolatedLaneIsTested : lst (pair .input .isolated) .C = .isolated ∧ (lane (pair .input .isolated) .C).life.loneHeld = false ∧
    (lane (pair .input .isolated) .C).life.planned = .none ∧
    (lane (withA (module .svc2 .input .isolated .serving .serving) (fun L => { L with life := { L.life with loneHeld := true } })) .A).life.loneHeld = true ∧
    (lane (withA (module .svc2 .input .isolated .serving .serving) (fun L => { L with life := { L.life with planned := .bist } })) .A).life.planned ≠ .none := by
  decide +kernel

/-- Lane A is on its way back at a step, the others serve. -/
def joining (ph : Phase) (j : JoinStep) : State :=
  withA (module .svc2 ph .reintegrating .serving .serving) (fun L => { L with life := { L.life with join := j } })

/-- Lane A has passed its tests; the firmware of the lanes that serve is of a class. -/
def tested (version : Word) : State :=
  modLanes (module .svc2 .input .test .serving .serving) (fun l L => match l with
    | .A => { L with life := { L.life with testsDone := true } }
    | _ => { L with boot := { L.boot with version := version } })

/-- The snapshot that lanes B and C would send, held as what lane A has received. -/
def receiving (ph : Phase) (j : JoinStep) : State :=
  let s := joining ph j
  withA s (fun L => { L with xfer := servedSnapshot s .A })

theorem no_checks (x : Snapshot) : ([] : List (BitVec 64)) ≠ transferChecks x := by
  intro h
  have := congrArg List.length h
  simp [transferChecks] at this

theorem no_catchUp (x now : Snapshot) : ([] : List (BitVec 64)) ≠ catchUpChecks x now := by
  intro h
  have := congrArg List.length h
  simp [catchUpChecks] at this

theorem witness_WayBack : (let s := tested factoryVersion
     lst s .A = .test ∧ (lane s .A).life.testsDone = true ∧ (lane s .A).life.loneHeld = false ∧ s.mod.ticking = true ∧
       operating s.mod.st = true ∧ ∀ m, lst s m = .serving → field (lane s m).boot.version 31 16 = field (lane s .A).boot.version 31 16) ∧
    (let s := tested 0xFFFF0000
     lst s .A = .test ∧ (lane s .A).life.testsDone = true ∧ ∃ m, lst s m = .serving ∧
       field (lane s m).boot.version 31 16 ≠ field (lane s .A).boot.version 31 16) ∧
    lst (pair .input .sync) .C = .sync ∧ (pair .input .sync).mod.st = .svc2 ∧
    lst (module .svc3 .input .serving .serving .sync) .C = .sync ∧ (module .svc3 .input .serving .serving .sync).mod.st = .svc3 ∧
    (let s := receiving .input .transferring
     lst s .A = .reintegrating ∧ (lane s .A).life.join = .transferring ∧ ∃ x, (lane s .A).xfer = some x ∧ ∃ cs, cs ≠ transferChecks x) ∧
    (∀ n, n = 0 ∨ n = 1 ∨ n = 2 → let s := receiving .output (.catchUp n)
     lst s .A = .reintegrating ∧ s.mod.phase = .output ∧ catchUps (lane s .A).life.join = some n ∧
       ∃ x now, (lane s .A).xfer = some x ∧ servedSnapshot s .A = some now ∧ ∃ c, c ≠ catchUpChecks (wroteSince s x) now) :=
  ⟨⟨rfl, rfl, rfl, rfl, rfl, fun m _ => by cases m <;> rfl⟩, ⟨rfl, rfl, .B, rfl, by decide +kernel⟩, rfl, rfl, rfl, rfl,
    ⟨rfl, rfl, _, rfl, [], no_checks _⟩, fun _ _ => ⟨rfl, rfl, rfl, _, _, rfl, rfl, [], no_catchUp _ _⟩⟩

/-- Lane A may join, with the latches of some Sluices set. -/
def latching (m : BitVec 3) : State :=
  modSluices (joining .input (.shadow 2)) (fun l x => { x with latch := laneBit m l })

theorem witness_LaneJoins : lst (latching 0) .A = .reintegrating ∧ (lane (latching 0) .A).life.join = .shadow 2 ∧
    (latching 0).mod.phase = .input ∧ (latching 0).mod.st = .svc2 ∧ (∀ m, latched (latching 0) m = false) ∧
    (∀ m, m ≠ Lane.A → lst (latching 0) m = .serving) ∧
    (∀ m, m ≠ Lane.A → lst (latching 1) m = .serving ∧ latched (latching 1) m = false) ∧ latched (latching 1) .A = true ∧
    2 ≤ (Lane.list.filter (latched (latching 6))).length ∧ (lane (joining .input (.shadow 1)) .A).life.join = .shadow 1 ∧
    (let s := withA (module .svc2 .input .reintegrating .serving .retired) (fun L => { L with life := { L.life with join := .shadow 2 } })
     (∃ m, m ≠ Lane.A ∧ lst s m ≠ .serving) ∧ s.mod.st = .svc2) :=
  ⟨rfl, rfl, rfl, rfl, fun m => by cases m <;> rfl, fun m h => by cases m <;> first | rfl | exact absurd rfl h,
    fun m h => by cases m <;> first | exact ⟨rfl, rfl⟩ | exact absurd rfl h, rfl, by decide +kernel, rfl, ⟨.C, by decide, by decide +kernel⟩, rfl⟩

/-- Lane A is retired. -/
def retiredA (m : ModSt) : State :=
  modPages (keyed (module m .input .retired .serving .serving)) [3] (fun f => { f with lanes := f.lanes.set .A { (f.lanes.get .A) with retired := true } })

theorem witness_RetirementClears : ((retiredA .svc2).cellar.life.lanes.get .A).retired = true ∧ authOk (retiredA .svc2) auth = true ∧
    authOk (retiredA .svc2) forged = false ∧ authOk (retiredA .svc2) { auth with nonce := 0 } = false ∧
    authOk (retiredA .svc2) { auth with keyVersion := 2 } = false ∧ (retiredA .svc2).mod.st ≠ .safe ∧ lst (retiredA .svc2) .A = .retired ∧
    authOk (retiredA .safe) auth = true ∧ (retiredA .safe).mod.st = .safe ∧ ((three .input).cellar.life.lanes.get .A).retired = false := by
  decide +kernel

/-! ### Witnesses: the vote and the Sluices -/

/-- An image with a number in its Q. -/
def image (n : Nat) : Image :=
  { cycle := 100, time := 1000000000, flags := 0, vintage := 7
    area := { q := [], lq := [], m := [], t := [], c := [], e := [], w := [], elems := [], locks := [], lastStatus := [], peerSeq := [], queue := [], loaded := [] }
    twin := none, q := [n], lq := [], stations := [], peers := [], noise := [] }

/-- The image links of a lane that has sent an image: every Sluice has it complete. -/
def linked (n : Nat) : ImageLink :=
  let k : ImageLink := { image := some (image n), codes := ⟨0, [], []⟩, rx := PerLane.all LinkRx.reset, compared := false }
  { k with rx := PerLane.all { goodRx k with checkOk := true } }

/-- The image links of the lanes. -/
def sent (s : State) (a b c : Nat) : State :=
  modLanes s (fun l L => { L with link := linked (match l with | .A => a | .B => b | .C => c) })

theorem linked_intact (n : Nat) (m : Lane) : intact (linked n) ((linked n).rx.get m) = true := by cases m <;> simp [intact, linked, goodRx, PerLane.all, PerLane.get]

theorem received_three (x y z : Nat) : received (sent (three .vote) x y z) [(.A, image x), (.B, image y), (.C, image z)] :=
  ⟨fun m => by cases m <;> rfl, fun l _ => ⟨by cases l <;> rfl, fun m => by cases l <;> exact linked_intact _ m⟩⟩

theorem received_pair (x y z : Nat) : received (sent (pair .vote .isolated) x y z) [(.A, image x), (.B, image y)] :=
  ⟨fun m => by cases m <;> rfl, fun l _ => ⟨by cases l <;> rfl, fun m => by cases l <;> exact linked_intact _ m⟩⟩

theorem quiet_three (s : State) (h : ∀ m, latched s m = false) : latchesQuiet s :=
  ⟨fun l _ => h l, by simp [Lane.list, h]⟩

theorem witness_VoteDecides : voteOpen (three .vote) = true ∧ (5 : BitVec 28).toNat < (lastDecision (three .vote)).toNat ∧
    lastDecision (three .vote) = 2035000 ∧ (∃ l, serving (three .vote) l = true ∧ incomplete (three .vote) l = true) ∧
    voteOpen (sent (three .vote) 1 1 2) = true ∧ latchesQuiet (sent (three .vote) 1 1 2) ∧
    received (sent (three .vote) 1 1 1) [(.A, image 1), (.B, image 1), (.C, image 1)] ∧
    received (sent (three .vote) 1 1 2) [(.A, image 1), (.B, image 1), (.C, image 2)] ∧
    received (sent (three .vote) 1 2 1) [(.A, image 1), (.B, image 2), (.C, image 1)] ∧
    received (sent (three .vote) 2 1 1) [(.A, image 2), (.B, image 1), (.C, image 1)] ∧
    received (sent (three .vote) 1 2 3) [(.A, image 1), (.B, image 2), (.C, image 3)] ∧ image 1 ≠ image 2 ∧ image 1 ≠ image 3 ∧ image 2 ≠ image 3 ∧
    voteOpen (sent (pair .vote .isolated) 1 2 3) = true ∧ latchesQuiet (sent (pair .vote .isolated) 1 2 3) ∧
    servingLanes (sent (pair .vote .isolated) 1 2 3) = [.A, .B] ∧
    received (sent (pair .vote .isolated) 1 1 3) [(.A, image 1), (.B, image 1)] ∧
    received (sent (pair .vote .isolated) 1 2 3) [(.A, image 1), (.B, image 2)] ∧
    (∀ l, lst (sent (pair .vote .isolated) 1 2 3) l ≠ .reintegrating) :=
  ⟨by decide +kernel, by decide +kernel, by decide +kernel, ⟨.A, by decide +kernel, by decide +kernel⟩, by decide +kernel,
    quiet_three _ (fun m => by cases m <;> rfl), received_three _ _ _, received_three _ _ _, received_three _ _ _, received_three _ _ _,
    received_three _ _ _, by decide +kernel, by decide +kernel, by decide +kernel, by decide +kernel, quiet_three _ (fun m => by cases m <;> rfl),
    by decide +kernel, received_pair _ _ _, received_pair _ _ _, fun l => by cases l <;> decide +kernel⟩

/-- The vote of the cycle has a result, which every Sluice holds. -/
def decided (s : State) : State :=
  modSluices { s with mod := { s.mod with result := some (image 1) } } (fun _ x => { x with result := some (image 1), voting := 7 })

/-- The digest of a Sluice with a result: its own, with the error of a faulty one. -/
theorem sent_digest (s : State) (err : PerLane (BitVec 64)) (m : Lane) : sentDigest (decided s) err m = digestOf (image 1) 7 ^^^ err.get m := by
  cases m <;> rfl

theorem digests_apart (k : BitVec 64) : k ^^^ 0 ≠ k ^^^ 1 ∧ k ^^^ 0 ≠ k ^^^ 2 ∧ k ^^^ 1 ≠ k ^^^ 2 := by
  have e : ∀ a b : BitVec 64, k ^^^ a = k ^^^ b → a = b := fun a b h => by
    have := congrArg (k ^^^ ·) h
    simpa [← BitVec.xor_assoc] using this
  exact ⟨fun h => absurd (e _ _ h) (by decide), fun h => absurd (e _ _ h) (by decide), fun h => absurd (e _ _ h) (by decide)⟩

theorem witness_DigestCheckDecides : operating (decided (three .vote)).mod.st = true ∧ (decided (three .vote)).mod.phase = .vote ∧
    (decided (three .vote)).mod.result.isSome = true ∧ servingLanes (decided (three .vote)) = [.A, .B, .C] ∧
    latchesQuiet (decided (three .vote)) ∧ servingLanes (decided (pair .vote .isolated)) = [.A, .B] ∧
    ((decided (three .vote)).sluices.get .A).result = some (image 1) ∧ (⟨0, 0, 0⟩ : PerLane (BitVec 64)).get .A = 0 ∧
    (let d := sentDigest (decided (three .vote)) ⟨0, 0, 0⟩
     d .A = d .B ∧ d .A = d .C) ∧
    (let d := sentDigest (decided (three .vote)) ⟨0, 0, 1⟩
     d .A = d .B ∧ d .A ≠ d .C) ∧
    (let d := sentDigest (decided (three .vote)) ⟨0, 1, 0⟩
     d .A = d .C ∧ d .A ≠ d .B) ∧
    (let d := sentDigest (decided (three .vote)) ⟨0, 1, 1⟩
     d .B = d .C ∧ d .A ≠ d .B) ∧
    (let d := sentDigest (decided (three .vote)) ⟨0, 1, 2⟩
     d .A ≠ d .B ∧ d .A ≠ d .C ∧ d .B ≠ d .C) ∧
    sentDigest (decided (pair .vote .isolated)) ⟨0, 0, 0⟩ .A = sentDigest (decided (pair .vote .isolated)) ⟨0, 0, 0⟩ .B ∧
    sentDigest (decided (pair .vote .isolated)) ⟨0, 1, 0⟩ .A ≠ sentDigest (decided (pair .vote .isolated)) ⟨0, 1, 0⟩ .B := by
  obtain ⟨h1, h2, h3⟩ := digests_apart (digestOf (image 1) 7)
  simp only [sent_digest]
  exact ⟨rfl, rfl, rfl, by decide +kernel, quiet_three _ (fun m => by cases m <;> rfl), by decide +kernel, rfl, rfl, ⟨rfl, rfl⟩, ⟨rfl, h1⟩, ⟨rfl, h1⟩,
    ⟨rfl, h1⟩, ⟨h1, h2, h3⟩, rfl, h1⟩

theorem witness_SluiceFindingsIsolate : watched (lst (three .logic) .A) = true ∧ (1000 : Int) < 1001 ∧ (-1001 : Int) < -1000 ∧ (-1000 : Int) ≤ 1000 ∧
    (let s := sent (three .vote) 1 1 1
     computes s .A = true ∧ (lane s .A).link.image.isSome = true ∧ (lane s .A).overran = false ∧
       ((lane s .A).link.rx.get .C).image = some (image 1) ∧ s.mod.result = none ∧ s.mod.phase = .vote ∧ s.mod.noVintage = false) ∧
    (∀ w : Word, (none : Option Word) ≠ some w) ∧
    (let s := decided (sent (module .svc2 .vote .reintegrating .serving .serving) 1 1 1)
     computes s .A = true ∧ s.mod.result ≠ none ∧ lst s .A = .reintegrating ∧ (lane s .A).link.compared = false ∧ s.mod.noVintage = false) ∧
    watched (lst (pair .logic .boot) .C) = false ∧ (three .logic).mod.result = none :=
  ⟨by decide +kernel, by decide, by decide, by decide, by decide +kernel, nofun, ⟨by decide +kernel, nofun, rfl, rfl, rfl⟩, by decide +kernel, rfl⟩

/-- A latch of a Sluice is set. -/
def latchedB (s : State) : State := modSluice s .B (fun x => { x with latch := true })

theorem witness_LatchRule : operating (three .logic).mod.st = true ∧ servingLanes (three .logic) = [.A, .B, .C] ∧
    (∀ m, m ≠ Lane.A → ((three .logic).sluices.get m).latch = false) ∧ (∃ m, m ≠ Lane.A ∧ ((latchedB (three .logic)).sluices.get m).latch = true) ∧
    (servingLanes (pair .logic .isolated)).length = 2 ∧ lst (pair .logic .isolated) .A = .serving :=
  ⟨by decide +kernel, by decide +kernel, fun m _ => by cases m <;> decide +kernel, ⟨.B, by decide, by decide +kernel⟩, by decide +kernel, by decide +kernel⟩

/-- The Sluice of lane A tests its switches. -/
def switchTesting (latch : Bool) : State :=
  modSluice (three .input) .A (fun x => { x with testRunning := true, testMask := 0x80000001, now := 2, latch := latch })

/-- The start-up tests run, and the close test of a Sluice's cycle is on. -/
def closeTesting : State :=
  { module .starting .input .serving .serving .serving with mod := { (module .starting .input .serving .serving .serving).mod with testsFrom := some 98 } }

theorem witness_LaneSwitchTests : (three .input).mod.st = .svc3 ∧ (three .input).mod.phase = .input ∧ switchTestCycle (three .input) .A = true ∧
    ((three .input).sluices.get .A).testRunning = false ∧ ((switchTesting false).sluices.get .A).testRunning = true ∧
    ((switchTesting false).sluices.get .A).latch = false ∧ ((switchTesting true).sluices.get .A).latch = true ∧
    ((switchTesting true).sluices.get .A).testRunning = true ∧ closeTestDue closeTesting .A = true := by decide +kernel

/-! ### Witnesses: peaks, check units, self-test, flush -/

theorem witness_ReadsClearPeaks : reaches (three .input) ⟨some .p0, .A⟩ = true ∧ reaches State.reset ⟨none, .A⟩ = false := by decide +kernel

/-- A context of lane A whose compare differs. -/
def context (u : UserCtx) : State := withA (three .input) (fun L => { L with chk := { L.chk with users := sput { ctrl := 0, status := 0, poly := 0, init := 0, xorout := 0, run := 0, expect := 0, result := 0, bytes := 0 } L.chk.users 63 u } })

theorem witness_UserContexts : reaches (three .input) ⟨none, .A⟩ = true ∧ ctxBusy .A (lane (three .input) .A) (userCtx (lane (three .input) .A) 63) = false ∧
    (let s := context { ctrl := 0x220, status := 0, poly := 0, init := 0, xorout := 0, run := 5, expect := 1, result := 0, bytes := 0 }
     let c := userCtx (lane s .A) 63
     c.ctrl.getLsbD 9 = true ∧ c.status.getLsbD 4 = false ∧
       crcOut (ctxParams c) c.run.toNat % 2 ^ 64 % 2 ^ (ctxParams c).width ≠ c.expect.toNat % 2 ^ (ctxParams c).width) := by decide +kernel

/-- Lane A has run the check string in this cycle. -/
def selfChecked : State := withA (three .idle) (fun L => { L with chk := { L.chk with checked := some 100 } })

theorem witness_CheckUnitFaults : runs (three .idle) .A = true ∧ selfCheckDue (three .idle) .A = true ∧
    isolatable (lst (three .idle) .A) = true ∧ (8 : BitVec 4) ≠ 0 ∧ (three .output).mod.phase ≠ .idle ∧ runs (three .output) .A = true ∧
    (lane selfChecked .A).chk.checked = some selfChecked.mod.cycle ∧ runs selfChecked .A = true ∧ selfChecked.mod.phase = .idle ∧
    (fun s : State => s.mod.ticking = false ∧ runs s .A = true) { three .idle with mod := { (three .idle).mod with ticking := false } } := by
  decide +kernel

/-- Lane A's self-test is due, or asked for. -/
def bistDueA : State := withA (three .input) (fun L => { L with bist := { L.bist with due := true } })
def bistAsked : State := withA (three .input) (fun L => { L with bist := { L.bist with requested := some true } })
/-- Lane A's self-test runs in a part, for some ns at the last tick. -/
def bistRuns (p : BitVec 3) (ns : Nat) : State :=
  withA (module .svc2 .input .isolated .serving .serving) (fun L => { L with
    bist := { L.bist with phase := p, runNs := ns }, life := { L.life with planned := .bist, plannedNow := true } })
/-- A day has passed since the last passed self-test. -/
def aDayLater : State := { three .input with mod := { (three .input).mod with tickTime := 86400000000000 } }

theorem witness_SelfTest_due : laneVintage aDayLater .A = some vint ∧ 0 < vint.bistInterval ∧
    (∃ n, aDayLater.mod.tickTime.toNat ≤ n * (vint.bistInterval * hour1) + vint.bistInterval * hour1 * Lane.A.idx / 3 ∧
      n * (vint.bistInterval * hour1) + vint.bistInterval * hour1 * Lane.A.idx / 3 < aDayLater.mod.tickTime.toNat + periodNs aDayLater) ∧
    ∀ n, n * (vint.bistInterval * hour1) + vint.bistInterval * hour1 * Lane.A.idx / 3 < (three .input).mod.tickTime.toNat ∨
      (three .input).mod.tickTime.toNat + periodNs (three .input) ≤ n * (vint.bistInterval * hour1) + vint.bistInterval * hour1 * Lane.A.idx / 3 := by
  refine ⟨rfl, by decide, ⟨1, by decide +kernel, by decide +kernel⟩, fun n => ?_⟩
  have h1 : vint.bistInterval * hour1 = 86400000000000 := by decide
  have h2 : (three .input).mod.tickTime.toNat = 1000000000 := by decide +kernel
  have h3 : periodNs (three .input) ≤ 80000000 := by decide +kernel
  have h4 : Lane.A.idx = 0 := rfl
  rw [h1, h2, h4]
  omega

theorem witness_SelfTest : (laneVintage (three .input) .A).isSome = true ∧ bistAllowed bistDueA = true ∧ bistDueA.mod.phase = .input ∧
    lst bistDueA .A = .serving ∧ (othersServing bistDueA .A).length = 2 ∧ (lane bistDueA .A).bist.due = true ∧
    (bistAllowed bistAsked = true ∧ (lane bistAsked .A).bist.requested.isSome = true ∧ (lane bistAsked .A).bist.asked = false) ∧
    (lane (bistRuns 1 0) .A).bist.phase = 1 ∧
    (let s := bistRuns 4 160000000
     bistEnds (lane s .A).bist (periodNs s) (testVerdict (lane s .A).bist { result := .pass, repairs := [] }) = true) ∧
    (let s := bistRuns 2 20000000
     let v := testVerdict (lane s .A).bist { result := .logicFail false [5], repairs := [] }
     bistEnds (lane s .A).bist (periodNs s) v = true ∧ v.2 ≠ .pass ∧ (lane s .A).life.plannedNow = true) ∧
    (let s := bistRuns 0 0
     bistEnds (lane s .A).bist (periodNs s) (testVerdict (lane s .A).bist { result := .pass, repairs := [] }) = false) ∧
    runs aDayLater .A = true ∧
    aDayLater.mod.tickTime.toNat ≥ (aDayLater.cellar.life.lanes.get .A).bistPass.toNat + day24 ∧ (lane aDayLater .A).bist.overdueAt = none ∧
    authOk (keyed (three .input)) forged = false ∧ authOk (keyed (three .input)) auth = true ∧ bistAllowed (keyed (three .input)) = true ∧
    bistAllowed (keyed (bistRuns 1 0)) = false ∧
    lst (keyed (three .input)) .A = .serving := by
  decide +kernel

theorem witness_SelfTest_requests : latchesQuiet bistDueA ∧ (∀ k, (lane (keyed (three .input)) k).bist.requested = none) ∧
    (∃ k, (lane (keyed bistAsked) k).bist.requested.isSome = true) :=
  ⟨quiet_three _ (fun m => by cases m <;> rfl), fun k => by cases k <;> rfl, .A, rfl⟩

theorem witness_FlushWritesOut : runs (three .input) .A = true ∧ flushDueNow (three .input) .A .periodic = true ∧
    flushDueNow (withA (three .input) (fun L => { L with cel := { L.cel with flushDue := true } })) .A .code = true ∧
    flushDueNow { three .input with mod := { (three .input).mod with v3Warn := true } } .A .power = true ∧ FlushTrigger.periodic ≠ .power ∧
    (three .input).cellar.dev0 ≠ .failed := by decide +kernel

/-! ### Witnesses: route admission -/

/-- A request of the Press of the last cycle. -/
def entry (k : QKind) (item cmd : Nat) : QEntry := { kind := k, item := item, cmd := cmd, src := .press 99 5 0 }

/-- Lane A decides an entry; its RAA as given. -/
def decides (e : QEntry) (f : Raa → Raa) : State := withA (three .logic) (fun L => { L with raa := f { L.raa with queue := [e] } })

/-- An element of lane A's RAA. -/
def withElem (n : Nat) (x : ElemState) (r : Raa) : Raa := { r with elems := sput ElemState.reset r.elems n x }

/-- A point that lies and is detected in position A. -/
def pointA : ElemState := { ElemState.reset with valid := true, clear := true, detected := 1, commanded := 1, seen := true }

theorem deciding (e : QEntry) (f : Raa → Raa) (hd : (f { Raa.reset with queue := [e] }).decided = 0)
    (hq : (f { Raa.reset with queue := [e] }).queue = [e]) : Deciding (decides e f) .A vint e [] :=
  { vintage := rfl, works := rfl, service := rfl, head := hq
    slot := by
      show (f { Raa.reset with queue := [e] }).decided < reqMax vint
      rw [hd]; decide }

theorem witness_ElementCommands : Deciding (decides (entry .ecmd 0 1) (withElem 0 pointA)) .A vint (entry .ecmd 0 1) [] ∧
    (entry .ecmd 0 1).kind = .ecmd ∧ (descOf vint 0).kind = .point ∧ (descOf vint 1).kind = .signal ∧ (descOf vint 2).kind = .virt ∧
    (descOf vint 9).kind = .undefined ∧ (descOf vint 3).kind = .gate ∧
    (let r := { (lane (decides (entry .ecmd 0 1) (withElem 0 pointA)) .A).raa with queue := [] }
     (elemOf r 0).valid = true ∧ (elemOf r 0).commanded = 1 ∧ (elemOf r 0).pathHeld = false ∧ (elemOf r 0).flankCount = 0 ∧
       (elemOf r 0).blocked = false ∧ guardBars r (descOf vint 0) = false ∧ (elemOf r 0).detected = (elemOf r 0).commanded ∧
       (elemOf r 3).valid = false ∧ guardBars r (descOf vint 3) = true) ∧
    Deciding (decides (entry .ecmd 0 1) (withElem 0 { pointA with flankCount := 1, flankPos := 1 })) .A vint (entry .ecmd 0 1) [] ∧
    Deciding (decides (entry .ecmd 0 1) (withElem 0 { pointA with blocked := true })) .A vint (entry .ecmd 0 1) [] ∧
    Deciding (decides (entry .ecmd 0 6) (withElem 0 { pointA with detected := 0 })) .A vint (entry .ecmd 0 6) [] ∧
    (elemOf (withElem 0 { pointA with detected := 0 } Raa.reset) 0).detected ≠ (elemOf (withElem 0 { pointA with detected := 0 } Raa.reset) 0).commanded :=
  ⟨deciding _ _ rfl rfl, rfl, rfl, rfl, rfl, rfl, rfl, by decide +kernel, deciding _ _ rfl rfl, deciding _ _ rfl rfl, deciding _ _ rfl rfl,
    by decide +kernel⟩

/-- Route n is held with a lock entry. -/
def withLock (n : Nat) (k : Lock) (r : Raa) : Raa := { r with locks := sputAny r.locks n k }

/-- The start signal of route 1 and the section before it. -/
def signalReady (r : Raa) : Raa := withElem 1 { pointA with detected := 0 } r

/-- Lane A decides an entry with a re-proof of route 1 before it that starts at the end of the slot, or within it. -/
def proofs (rank : Nat) (r : Raa) : Raa := withLock 1 Lock.none { r with toProve := [(1, rank)] }

/-- The RAA that a decision finds, once the re-proofs due before it have been made. -/
def found (s : State) : Raa := { (lane (proveBefore vint s .A) .A).raa with queue := [] }

theorem witness_RouteDecisions : Deciding (decides (entry .rreq 0 0) id) .A vint (entry .rreq 0 0) [] ∧ (entry .rreq 0 0).kind = .rreq ∧
    ((lane (decides (entry .rreq 0 0) (proofs 34)) .A).raa.toProve.all (fun p => decide (60 * p.2 ≥ 2000))) = true ∧
    Deciding (decides (entry .rreq 0 0) (proofs 33)) .A vint (entry .rreq 0 0) [] ∧
    ((lane (decides (entry .rreq 0 0) (proofs 33)) .A).raa.toProve.any (fun p => decide (60 * p.2 < 2000))) = true ∧
    routeOf vint 5 = none ∧ routeOf vint 0 = some route0 ∧ routeOf vint 1 = some route1 ∧
    (let r := found (decides (entry .rreq 0 0) (withLock 0 Lock.none))
     held r 0 = true) ∧
    (let r := found (decides (entry .rreq 0 0) id)
     held r 0 = false ∧ heldCount r < lockedMax vint ∧ admitStart r route0 = none ∧ route0.terms = [0x08000002] ∧
       admitTerm vint r [] 0x08000002 = none ∧ admitStart r route1 = some 0x15) ∧
    (let r := found (decides (entry .rreq 1 0) signalReady)
     held r 1 = false ∧ admitStart r route1 = none ∧ route1.terms[0]?.bind (admitTerm vint r []) = some 0x15) ∧
    (let r := found (decides (entry .rcan 1 0) (withLock 1 Lock.none))
     held r 1 = true ∧ (lockOf r 1).cancel = none ∧ cancelAtOnce r route1 (lockOf r 1) = true) ∧
    (let r := found (decides (entry .rcan 1 0) (withLock 1 { Lock.none with everLocked := true }))
     held r 1 = true ∧ (lockOf r 1).cancel = none ∧ cancelAtOnce r route1 (lockOf r 1) = false) ∧
    Deciding (decides (entry .rcan 1 0) (withLock 1 Lock.none)) .A vint (entry .rcan 1 0) [] ∧ (entry .rcan 1 0).kind = .rcan ∧
    (let r := found (decides (entry .rcan 1 0) (withLock 1 { Lock.none with cancel := some 5 }))
     held r 1 = true ∧ (lockOf r 1).cancel.isSome = true) ∧ held (found (decides (entry .rcan 1 0) id)) 1 = false := by
  refine ⟨deciding _ _ rfl rfl, rfl, ?_, deciding _ _ rfl rfl, ?_, ?_, ?_, ?_, ?_, ?_, ?_, ?_, ?_, deciding _ _ rfl rfl, rfl, ?_, ?_⟩ <;> decide +kernel

/-- Lane A's RAA works on route 1, held with a lock entry. -/
def proving (k : Lock) (f : Raa → Raa) : State := withA (three .logic) (fun L => { L with raa := f (withLock 1 k { L.raa with toProve := [(1, 0)] }) })

/-- The last path section of route 1 reads occupied. -/
def occupied (r : Raa) : Raa := withElem 4 { pointA with clear := false } r

theorem witness_ReProofPass : laneVintage (proving Lock.none id) .A = some vint ∧ raaWorks (proving Lock.none id) .A = true ∧
    (let r := (lane (proving Lock.none id) .A).raa
     1 ∈ skeys (if r.decided < reqMax vint ∧ r.queue ≠ [] then dueProofs r else r.toProve)) ∧
    (let r := (lane (decides (entry .rreq 0 0) (proofs 34)) .A).raa
     1 ∉ skeys (if r.decided < reqMax vint ∧ r.queue ≠ [] then dueProofs r else r.toProve)) ∧ held (lane (proving Lock.none id) .A).raa 1 = true ∧ routeOf vint (1 : BitVec 14).toNat = some route1 ∧
    overlapReady (lane (proving Lock.none occupied) .A).raa route1 Lock.none = true ∧
    overlapDue route1 1000000000 { Lock.none with ovl := some 0 } = true ∧
    overlapReady (lane (proving { Lock.none with ovl := some 0 } occupied) .A).raa route1 { Lock.none with ovl := some 0 } = true ∧
    cancelDue (withElem 4 pointA Raa.reset) route1 1000000000 { Lock.none with cancel := some 0 } = true ∧ route1.settingTime ≠ 0 ∧
    1000000000 ≥ ({ Lock.none with time := 500000000, setting := true } : Lock).time.toNat + route1.settingTime.toNat * 100000000 ∧
    (let y := { pointA with detected := 0, changeTime := 500000000 }
     (elemOf (withElem 0 y Raa.reset) 0).seen = true ∧ y.moveFault = false ∧ moveLate (descOf vint 0) 1000000000 y = true) := by
  decide +kernel

/-! ### Witnesses: the field bus -/

/-- The module as a node of the bus; both media of segment 0 in use. -/
def onBus (n : NodeSt) (s : State) : State :=
  { s with alk := { s.alk with node := n, media := [(0, { MediumRec.reset with st := .inUse }), (1, { MediumRec.reset with st := .inUse })] } }

/-- A frame with its FCS. -/
def sealed (f : Frame) : Frame := { f with fcs := fcsOf { f with length := BitVec.ofNat 16 f.payload.length }, length := BitVec.ofNat 16 f.payload.length }

/-- SYNC of node 0. -/
def sync0 : Frame := sealed { frame0 with type := 0x01, source := 0, payload := List.replicate 16 0 }
/-- COLD_START of node 0. -/
def cold0 : Frame := sealed { frame0 with type := 0x02, source := 0, payload := List.replicate 16 0 }

/-- The configuration of station 0. -/
def st0 : StationCfg :=
  { node := 40, segment := 0, points := 16, sid := 5, miss := 2, timeout := 0, hostAdmission := false, safe := [1], configCheck := 9
    tReady := 0, tApply := 0 }

/-- The module is a node of a number. -/
def asNode (n : BitVec 10) (s : State) : State :=
  modLanes s (fun _ L => { L with bank := { L.bank with active := some { vint with node := n } } })

/-- A listening node, and one that has accepted a COLD_START. -/
def listening (cold : Bool) : State := { onBus .listen (three .input) with alk := { (onBus .listen (three .input)).alk with heardCold := cold } }

/-- The images of the lanes have come complete and checked, and a result stands in every Sluice. -/
def composing (s : State) : State := modSluices (decided (sent (onBus .inSync s) 1 1 1)) (fun _ x => { x with images := 7 })

/-- A schedule whose output slot is too short for any frame. -/
def shortSlot (s : State) : State :=
  modLanes s (fun _ L => { L with bank := { L.bank with active := some { vint with schedule := [[{ outSlot with length := 0 }]] } } })

theorem witness_BusNode_states : (onBus .silent (three .input)).alk.node = .silent ∧ (ownNode (listening false)).toNat ≤ 1 ∧
    (listening false).alk.node = .listen ∧ (listening false).alk.heardCold = false ∧ (listening true).alk.heardCold = true ∧
    1 < (ownNode (asNode 2 (listening false))).toNat ∧ (onBus .coldStart (three .input)).alk.node = .coldStart ∧
    (let s := { onBus .inSync (three .input) with alk := { (onBus .inSync (three .input)).alk with blockRun := 2, blockNow := true } }
     s.alk.node = .inSync ∧ s.alk.blockRun + (if s.alk.blockNow then 1 else 0) ≥ 3) ∧
    mediumSends (listening false) 0 .X = true ∧ (listening false).alk.node ≠ .down := by decide +kernel

theorem witness_BusNode_copies : (let s := onBus .inSync (three .input)
     txDis s 0 .X = false ∧ s.alk.node ≠ .down ∧ fromNode sync0 ≠ ownNode s ∧ ownNode s = 1 ∧ inOwnSlot s (copyAt 2104999 sync0) = true ∧
       inOwnSlot s (copyAt 2105000 sync0) = false) ∧
    (let s := asNode 0 (onBus .inSync (three .input))
     txDis s 0 .X = false ∧ fromNode { sync0 with source := 1 } ≠ ownNode s ∧ ownNode s ≠ 1) ∧
    fcsGood frame0 = false ∧ fcsGood cold0 = true ∧ cold0.type = 0x02 ∧ mediumUsed (listening false) 0 .X = true ∧
    fromNode cold0 ≠ ownNode (listening false) ∧ (onBus .silent (three .input)).alk.node ≠ .listen ∧
    fcsGood sync0 = true ∧ sync0.type = 0x01 ∧ syncSource (listening false) (copy sync0) = true ∧
    (∀ n : NodeSt, n = .measure ∨ n = .align ∨ n = .inSync → let s := onBus n (three .input)
     s.alk.node = n ∧ syncDev s (copyAt 250 sync0) = 250 ∧ syncDev s (copyAt 251 sync0) = 251 ∧ syncSource s (copyAt 250 sync0) = true ∧
       sync0.time = s.mod.tickTime ∧ sync0.cycle = cycle16 s ∧ s.alk.segNow = 0 ∧ ownNode s ≠ 0) := by
  and_intros
  all_goals first | decide +kernel | (intro n h; rcases h with rfl | rfl | rfl <;> decide +kernel)

theorem witness_BusNode_sends : (let s := onBus .inSync (three .input)
     ownNode s = 1 ∧ s.alk.node = .inSync ∧ s.mod.phase = .input ∧ s.alk.segNow.getLsbD (0 : Fin 4).val = false ∧ txDis s 0 .X = false ∧
       txDis s 0 .Y = false ∧ (-200 : Int) ≤ 200 ∧ (200 : Int) < 201) ∧
    (let s := composing (three .output)
     s.alk.node = .inSync ∧ s.mod.phase = .output ∧ sendsStations s = true ∧ cycleImage s = some (image 1) ∧ stationCfg s (0 : Fin 512).val = some st0 ∧
       slotEntry s st0.segment .stationOut 0 = some outSlot ∧ txDis s st0.segment .X = false ∧ usableLanes s = .A :: .B :: [.C] ∧
       sluiceImage s .A = some (image 1) ∧ sluiceImage s .B = some (image 1) ∧
       (200 : Int) + (8 * ((stationFrame s (image 1) 0 st0).payload.length + 56) : Nat) + 250 ≤ (outSlot.length * 1000 : Nat)) ∧
    (let s := shortSlot (composing (three .output))
     slotEntry s st0.segment .stationOut 0 = some { outSlot with length := 0 } ∧ usableLanes s = .A :: .B :: [.C] ∧
       (({ outSlot with length := 0 } : SlotEntry).length * 1000 : Nat) <
         (0 : Int) + (8 * ((stationFrame s (image 1) 0 st0).payload.length + 56) : Nat) + 250) ∧
    (usableLanes (onBus .inSync (three .output))).length < 2 := by decide +kernel

/-- Lane A's session with a station or a peer. -/
def session (s : State) (i : Nat) (x : Session) : State := withA s (fun L => { L with sessions := sput Session.reset L.sessions i x })

/-- STATION_IN of station 0 with its codes. -/
def stationFrame0 (flags : Byte) (seq : Word) (p : List Byte) : Frame :=
  let f : Frame := { frame0 with type := 0x11, flags := flags, source := 40, dest := 0x400, sequence := seq, length := 4, payload := p, trailer := 9 }
  sealed { f with code1 := codeOf 21 f, code2 := codeOf 22 f }

/-- An admitted session. -/
def admitted : Session := { Session.reset with st := .admitted, rxSeq := 10, rxRef := true }

/-- PEER of node 15 in the session of the pair of modules 6 and 8: the sender's SID, and ECHO_SEQ. -/
def peerFrame (sid echo : Nat) : Frame :=
  let f : Frame := { frame0 with type := 0x12, source := 15, dest := 1, sequence := 11, length := 40
                                 payload := [0, 0, 0, 3] ++ be 4 echo ++ List.replicate 32 0, trailer := 14 }
  sealed { f with code1 := codeOf (sid * 4 + 2) f, code2 := codeOf (sid * 4 + 3) f }

theorem witness_SessionSteps_stations :
    (let s := session (onBus .inSync (three .input)) 0 admitted
     computes s .A = true ∧ stationCfg s (0 : Fin 512).val = some st0 ∧ s.mod.phase = .input ∧ mediumUsed s 0 .X = true ∧
       (sessOf (lane s .A) 0).got = false ∧ (sessOf (lane s .A) 0).opened = false ∧ (sessOf (lane s .A) 0).st = .admitted ∧
       sessionDev s (copyAt 100250 frame0) .stationIn 0 = some 250 ∧ sessionDev s (copyAt 99750 frame0) .stationIn 0 = some (-250) ∧
       sessionDev s (copyAt 100251 frame0) .stationIn 0 = some 251 ∧ sessionDev s (copyAt 99749 frame0) .stationIn 0 = some (-251) ∧
       (let f := stationFrame0 0 13 [0x5A, 0, 0, 0]
        fcsGood f = true ∧ f.type = 0x11 ∧ f.source = BitVec.ofNat 16 (st0.node.toNat + 1024 * st0.segment.val) ∧ f.dest.getLsbD 10 = true ∧
          f.payload.length = stationLen st0.points ∧ f.cycle = cycle16 s ∧ f.time = s.mod.tickTime ∧ stationCodesOk st0.sid f = true ∧
          f.flags.getLsbD 1 = false ∧ (f.sequence - admitted.rxSeq).toNat = st0.miss + 1) ∧
       stationCodesOk st0.sid (sealed { stationFrame0 0 13 [0x5A, 0, 0, 0] with code2 := 0 }) = false ∧
       fcsGood (sealed { stationFrame0 0 13 [0x5A, 0, 0, 0] with code2 := 0 }) = true ∧
       st0.miss + 1 < ((stationFrame0 0 14 [0, 0, 0, 0]).sequence - admitted.rxSeq).toNat ∧
       (stationFrame0 0 10 [0, 0, 0, 0]).sequence = admitted.rxSeq ∧
       stationCodesOk st0.sid (stationFrame0 0 14 [0, 0, 0, 0]) = true ∧
       (let g := stationFrame0 2 1 [0, 0, 0, 9]
        g.flags.getLsbD 1 = true ∧ payNat g 0 4 = st0.configCheck.toNat ∧ fcsGood g = true ∧ stationCodesOk st0.sid g = true) ∧
       (sessOf (lane (session s 0 { admitted with st := .dropped }) .A) 0).st = .dropped ∧
       st0.miss ≤ (sessOf (lane (session s 0 { admitted with miss := 2 }) .A) 0).miss) ∧
    (let s := session (keyed (three .input)) 0 { admitted with st := .retired }
     (sessOf (lane s .A) 0).st = .retired ∧ authOk s auth = true ∧ authOk s forged = false) := by decide +kernel

/-- A copy of the module's own frame, come round a ring, and one of a session's partner; a session that gives its safe values. -/
theorem witness_SessionSteps_ports : let s := session (onBus .inSync (three .input)) 0 admitted
    portDrops s (stationFrame0 0 13 [0x5A, 0, 0, 0]) = false ∧ portDrops s (peerFrame 6 5) = false ∧
    portDrops s { stationFrame0 0 13 [0x5A, 0, 0, 0] with source := 1 } = true ∧
    (sessOf (lane (session s 0 { admitted with st := .dropped }) .A) 0).st ≠ .admitted ∧
    (sessOf (lane s .B) (512 + (0 : Fin 64).val)).st ≠ .admitted := by decide +kernel

theorem witness_SessionSteps_peers :
    let s := session (onBus .inSync (three .input)) 512 { admitted with txSeq := 5 }
    let x := sessOf (lane s .A) 512
    (∃ c, peerCfg s (0 : Fin 64).val = some c ∧ moduleCodesOk c.sid (peerFrame 6 5) = true ∧ moduleCodesOk c.otherSid (peerFrame 8 5) = true ∧
      moduleCodesOk c.sid (peerFrame 7 5) = false ∧ moduleCodesOk c.otherSid (peerFrame 7 5) = false ∧
      echoFresh s x c (BitVec.ofNat 32 (payNat (peerFrame 6 5) 4 4)) = true ∧ echoFresh s x c (BitVec.ofNat 32 (payNat (peerFrame 6 6) 4 4)) = false ∧
      s.mod.tickTime.toNat ≥ x.lastAt.toNat + c.timeoutMs * 1000000) ∧
    (∀ f, f = peerFrame 6 5 ∨ f = peerFrame 8 5 ∨ f = peerFrame 6 6 ∨ f = peerFrame 7 5 →
      listens s .A 512 (copyAt 200250 f) = true ∧ fcsGood f = true ∧ f.type = 0x12 ∧ f.payload.length = 40 ∧
        sessionDev s (copyAt 200250 f) .peerIn 512 = some 250 ∧ sessionDev s (copyAt 199750 f) .peerIn 512 = some (-250) ∧
        payNat f 0 4 = moduleSid s ∧ (f.sequence - x.rxSeq).toNat = 1) ∧
    x.st = .admitted ∧ x.rxRef = true := by
  refine ⟨⟨_, rfl, ?_⟩, fun f h => ?_, rfl, rfl⟩
  · decide +kernel
  · rcases h with rfl | rfl | rfl | rfl <;> decide +kernel

/-- DELAY_REQ and DELAY_RESP of the neighbour: its type, arrival after the tick, payload. -/
def delayFrame (ty : Byte) (ns : Nat) (p : List Byte) : RxFrame := copyAt ns (sealed { frame0 with type := ty, source := 2, payload := p })

/-- A medium of segment 0 in a state, with the losses of its last cycles. -/
def mediumIn (x : MediumSt) (ls : List Nat) (un : BitVec 2) : State :=
  { keyed (three .idle) with alk := { (three .idle).alk with
      node := .inSync, media := [(0, { MediumRec.reset with st := x, losses := ls, unlocked := un })] } }

/-- The medium of segment 0 was withdrawn three times within the day. -/
def oftenWithdrawn : State :=
  modLife (mediumIn .inUse [8] 0) (fun f => { f with withdrawals := [(0, [999999999, 999999998, 999999997])] })

/-- Node 0 has sent DELAY_REQ at a time. -/
def asked (t1 : Option Time) : State := modDelay (asNode 0 (onBus .inSync (three .idle))) 0 .X .A (fun w => { w with t1 := t1 })

theorem witness_DelayAndMedia_delays :
    (∀ n : NodeSt, n = .measure ∨ n = .align ∨ n = .inSync → let s := onBus n (three .idle)
     s.alk.node = n ∧ ownNode s ≠ 0 ∧ txDis s 0 .X = false ∧ mediumUsed s 0 .X = true ∧ (delayStart s : Int) = 1003990000 ∧
       (delayOf (mediumOf s 0 .X) .A).d = none) ∧
    (∀ ns, ns = 3990000 ∨ ns = 4010000 ∨ ns = 3989999 ∨ ns = 4010001 → let x := delayFrame 0x03 ns (List.replicate 16 0)
     fcsGood x.frame = true ∧ fromSegment x = true ∧ x.frame.payload.length = 16 ∧ x.frame.type = 0x03 ∧ payNat x.frame 0 4 = 0 ∧
       x.arrival.toNat = 1000000000 + ns) ∧
    payNat (delayFrame 0x03 0 (List.replicate 4 0 ++ (List.replicate 4 0xFF ++ List.replicate 8 0))).frame 4 4 = 0xFFFFFFFF ∧
    (let s := asked (some 1003000000)
     let x := delayFrame 0x04 4010000 (List.replicate 16 0)
     s.alk.node = .inSync ∧ txDis s 0 .X = false ∧ mediumUsed s 0 .X = true ∧ delayOut s 0 .X .A = 0 ∧ fcsGood x.frame = true ∧
       fromSegment x = true ∧ x.frame.payload.length = 16 ∧ x.frame.type = 0x04 ∧ (delayOf (mediumOf s 0 .X) .A).t1 = some 1003000000 ∧
       (delayStart s : Int) + -((0 : Nat) : Int) ≤ x.arrival.toNat ∧ (x.arrival.toNat : Int) ≤ (delayStart s : Int) + -((0 : Nat) : Int) + 20000) ∧
    (delayOf (mediumOf (asked none) 0 .X) .A).t1 = none ∧
    ¬ ((delayFrame 0x04 4010001 (List.replicate 16 0)).arrival.toNat : Int) ≤ (delayStart (asked (some 1003000000)) : Int) + 20000 := by
  refine ⟨fun n h => ?_, fun ns h => ?_, ?_⟩
  · rcases h with rfl | rfl | rfl <;> decide +kernel
  · rcases h with rfl | rfl | rfl | rfl <;> decide +kernel
  · decide +kernel

theorem witness_DelayAndMedia_media : mediumUsed (mediumIn .inUse [8] 0) 0 .X = true ∧
    8 ≤ (mediumOf (mediumIn .inUse [8] 0) 0 .X).losses.foldl (· + ·) 0 ∧
    ¬ 8 ≤ (mediumOf (mediumIn .inUse [7] 0) 0 .X).losses.foldl (· + ·) 0 ∧ (mediumOf (mediumIn .inUse [7] 0) 0 .X).unlocked = 0 ∧
    (mediumOf (mediumIn .inUse [] 2) 0 .X).unlocked ≠ 0 ∧
    (inWindow (mediumIn .inUse [8] 0).mod.tickTime day24 (sget [] (mediumIn .inUse [8] 0).cellar.life.withdrawals (mediumIx 0 .X))).length < 3 ∧
    ¬ (inWindow oftenWithdrawn.mod.tickTime day24 (sget [] oftenWithdrawn.cellar.life.withdrawals (mediumIx 0 .X))).length < 3 ∧
    mediumUsed oftenWithdrawn 0 .X = true ∧
    (let s := { mediumIn .withdrawn [0, 8] 0 with alk := { (mediumIn .withdrawn [0, 8] 0).alk with
       media := [(0, { MediumRec.reset with st := .withdrawn, losses := [0, 8], clean := true })] } }
     let x := mediumOf s 0 .X
     x.st = .withdrawn ∧ x.unlocked = 0 ∧ x.clean = true) ∧
    (mediumOf (mediumIn .withdrawn [1] 0) 0 .X).clean = false ∧
    (sget MediumRec.reset (lossTick (mediumIn .withdrawn [8] 0)).alk.media (mediumIx 0 .X)).clean = true ∧ (mediumOf (mediumIn .withdrawn [0] 1) 0 .X).unlocked ≠ 0 ∧
    (mediumOf (mediumIn .retired [] 0) 0 .X).st = .retired ∧ authOk (mediumIn .retired [] 0) auth = true ∧
    authOk (mediumIn .retired [] 0) forged = false := by decide +kernel

/-! ### Witnesses: the crossing and the field die -/

/-- The field die runs with a configuration, its streams accepted. -/
def fieldUp (f : Field → Field) : State :=
  { three .input with field := f { Field.reset with
      up := true, tickRun := 2, config := some vint.localIo
      group1 := { GroupRec.reset with enabled := true }, group2 := { GroupRec.reset with enabled := true }
      streams := PerLane.all { StreamRec.reset with lost := false, ref := some 4 } } }

/-- A downstream refresh in flight. -/
def down (n : BitVec 16) (tick : Bool) : DownFrame :=
  { refresh := n, cycle := 100, tick := tick, swtest := false, localLost := false, lane := 0, now := 0, next := 0, vctl := 0, cfgIndex := 0, cfgWord := 0 }

/-- An upstream refresh in flight. -/
def upward (n : BitVec 16) : UpFrame :=
  { refresh := n, sample := none, configured := true, fault := none, g1 := .normal, g2 := .normal, enabled := 0, streams := 0
    readback := PerLane.all 0, outState := 0, outDiag := [], tpOk := 0, failing := 0, vf1 := 0, vf2 := 0, cfgCheck := 0, downErr := 0, temp := 0
    lost := false }

/-- Lane A with a refresh in flight after reference 4. -/
def flying (n : BitVec 16) : State := withA (fieldUp id) (fun L => { L with fld := { L.fld with inFlight := some (upward n), ref := some 4 } })

theorem down_received (n : BitVec 16) (tick : Bool) (e : DownFrame) (h : downOf (downBytes (down n tick)) = e) :
    receiveDown (down n tick) 0 = some e := by rw [receiveDown_undisturbed, h]

theorem witness_CrossingRefreshes : (fieldUp id).field.on = true ∧ sendsDown (fieldUp id) = true ∧ sendsDown State.reset = false ∧
    hearsUp (fieldUp id) .A = true ∧ hearsUp State.reset .A = false ∧
    (let s := fieldUp (fun f => { f with down := f.down.set .A (some (down 2052 true)) })
     s.field.down.get .A = some (down 2052 true) ∧ refreshOk (s.field.streams.get .A).ref 2052 = true ∧ s.field.up = true ∧
       fieldReady s.field = true) ∧
    receiveDown (down 2052 true) 0 = some (down 2052 true) ∧ receiveDown (down 2052 true) (BitVec.ofNat 512 (256 ^ 62)) = none ∧
    receiveDown (down 2053 true) 0 = some (down 2053 true) ∧ receiveDown (down 4 true) 0 = some (down 4 true) ∧
    refreshOk (some 4) 4 = false ∧ refreshOk (some 4) 2053 = false ∧ (1000 : Int) < 1001 ∧ (-1001 : Int) < -1000 ∧
    (let s := fieldUp (fun f => { f with down := f.down.set .A (some (down 5 false)), up := false })
     s.field.down.get .A = some (down 5 false) ∧ s.field.up = false ∧ (down 5 false).tick = false) ∧
    receiveDown (down 5 false) 0 = some (down 5 false) ∧
    receiveDown { down 5 false with swtest := true } 0 = some { down 5 false with swtest := true } ∧
    runs (flying 5) .A = true ∧ (lane (flying 5) .A).fld.inFlight = some (upward 5) ∧ receiveUp (upward 5) 0 = some (upward 5) ∧
    receiveUp (upward 5) (BitVec.ofNat 1024 (256 ^ 126)) = none ∧ refreshOk (lane (flying 5) .A).fld.ref 5 = true ∧
    receiveUp (upward 4) 0 = some (upward 4) ∧ refreshOk (lane (flying 4) .A).fld.ref 4 = false ∧
    (fieldUp (fun f => { f with placing := true })).field.placing = true ∧
    fieldReady (fieldUp (fun f => { f with placing := true })).field = true :=
  ⟨rfl, rfl, by decide +kernel, rfl, by decide +kernel, by decide +kernel, down_received _ _ _ (by decide +kernel), receiveDown_flipped _,
    down_received _ _ _ (by decide +kernel), down_received _ _ _ (by decide +kernel), by decide, by decide, by decide, by decide,
    by decide +kernel, down_received _ _ _ (by decide +kernel),
    by rw [receiveDown_undisturbed]; exact congrArg some (by decide +kernel), by decide +kernel, rfl, receiveUp_undisturbed _,
    receiveUp_flipped _, by decide +kernel, receiveUp_undisturbed _, by decide +kernel, rfl, by decide +kernel⟩

/-- Every stream has been silent for a number of refreshes. -/
def silence (n : Nat) : State := fieldUp (fun f => { f with streams := PerLane.all { StreamRec.reset with lost := false, ref := some 4, silent := n } })

theorem witness_CrossingLosses : (lane (silence 100) .A).fld.sample = none ∧ (silence 100).field.on = true ∧ (silence 100).field.up = true ∧ (silence 100).field.stopped = false ∧
    ((silence 100).field.streams.get .A).lost = false ∧ ((silence 100).field.streams.get .A).silent ≥ crossTimeout (silence 100).field.config ∧
    ((silence 99).field.streams.get .A).silent < crossTimeout (silence 99).field.config ∧
    (let s := withA (fieldUp id) (fun L => { L with fld := { L.fld with silent := 100 } })
     s.mod.ticking = true ∧ runs s .A = true ∧ (lane s .A).fld.lost = false ∧
       (lane s .A).fld.silent ≥ crossTimeout ((laneVintage s .A).map (fun v => v.localIo))) ∧
    (lane (withA (fieldUp id) (fun L => { L with fld := { L.fld with lost := true, goodFor := 10000 } })) .A).fld.goodFor ≥ 10000 ∧
    (fieldUp (fun f => { f with lost := true, goodFor := 10000 })).field.lost = true ∧
    (fieldUp (fun f => { f with lost := true, goodFor := 9999 })).field.goodFor < 10000 ∧ streamsStopped (silence 100).field = true ∧
    (fieldUp (fun f => { f with on := false })).field.on = false ∧ (fieldUp id).field.fault = none ∧
    (fieldUp (fun f => { f with fault := some .pairCheck })).field.fault.isSome = true ∧
    configMismatch (withA (fieldUp id) (fun L => { L with fld := { L.fld with cfgDiff := 2 } })) = true ∧
    (let v := { vint with localIo := { vint.localIo with pairs := [{ dual := true, disc10us := 0, startTest := false }] } }
     let x : TickSample := { cycle := 0, inValue := 1, inValid := 0, pairValue := 1, pairState := 2, cntValid := 0, cntStuck := 0, cum := [], vfOn := 0
                             vfGood := 0, enabled := 0, outOk := 0, energised := 0, loadOk := 0, tpOk := 0, fault := false }
     ((lane (withA (fieldUp id) (fun L => { L with fld := { L.fld with sample := some x } })) .A).fld.sample.isSome = true) ∧ pairsBroken (withA (fieldUp id) (fun L => { L with bank := { L.bank with active := some v }, fld := { L.fld with sample := some x } })) = true) ∧
    (let s := modLife (fieldUp (fun f => { f with lost := true })) (fun f => { f with crossingLosses := List.replicate 4 999999999 })
     s.field.lost = true ∧ 4 ≤ (inWindow s.mod.tickTime day24 s.cellar.life.crossingLosses).length) ∧
    authOk (keyed (fieldUp id)) auth = true ∧ authOk (keyed (fieldUp id)) forged = false := by decide +kernel

/-- Input 0 with a pulse source, pair 0 dual, counter 0 counting rising edges. -/
def ioCfg : LocalCfg :=
  { vint.localIo with inputs := [{ filter := 1, source := some 0 }], pairs := [{ dual := true, disc10us := 5, startTest := true }]
                      counters := [{ mode := .rising, countWord := 0 }] }

/-- The field die with that configuration. -/
def ioField (f : Field → Field) : State := fieldUp (fun x => f { x with config := some ioCfg })

/-- The sample at which a pulse of source 1 starts: 2 ms after a period of 100 ms. -/
def pulseSample : State :=
  let s := ioField id
  { s with mod := { s.mod with tickTime := 1002000000, refreshes := 1 } }

theorem witness_InputChannels_pulse : (pulseSample.mod.refreshes - 1) % 5 = 0 ∧ 0 < ioCfg.tpPeriodMs ∧
    10 * (ioCfg.tpPeriodMs * 1000000) + (1 : Fin 8).val * 2000000 ≤ sampleTime pulseSample ∧
    sampleTime pulseSample < 10 * (ioCfg.tpPeriodMs * 1000000) + (1 : Fin 8).val * 2000000 + 50000 ∧
    fieldReady pulseSample.field = true ∧ pulseDue pulseSample ioCfg 1 = true ∧ noneLow pulseSample.field = true ∧
    pulseDue pulseSample ioCfg 0 = false ∧
    noneLow (ioField (fun f => { f with sources := [(0, { bad := false, low := 2 })] })).field = false := by decide +kernel

theorem witness_InputChannels : (ioField id).field.config = some ioCfg ∧ fieldReady (ioField id).field = true ∧
    fieldReady (ioField (fun f => { f with tickRun := 1 })).field = false ∧ pulseThird (ioField id).field ioCfg 0 = false ∧
    pulseThird (ioField (fun f => { f with sources := [(0, { bad := false, low := 2 })] })).field ioCfg 0 = true ∧ (pairCfg ioCfg 0).dual = true ∧
    (pairCfg ioCfg 23).dual = false ∧ (inputValid (ioField id).field 0 && inputValid (ioField id).field 1) = true ∧
    (inputValid (ioField (fun f => { f with fault := some .pairCheck })).field 0) = false ∧ (pairRec (ioField id).field 0).st = .invalid ∧
    (pairCfg ioCfg 0).startTest = true ∧ pairN (pairCfg ioCfg 0) = 1 ∧
    (let s := ioField (fun f => { f with pairs := [(0, { st := .arming, run := 1, zeroSeen := true })] })
     (pairRec s.field 0).st = .arming ∧ (pairRec s.field 0).zeroSeen = true ∧ pairN (pairCfg ioCfg 0) ≤ (pairRec s.field 0).run) ∧
    (let s := ioField (fun f => { f with pairs := [(0, { st := .ready, run := 0, zeroSeen := false })] })
     (pairRec s.field 0).st = .ready ∧ (pairRec s.field 0).run < pairN (pairCfg ioCfg 0)) ∧
    (inputCfg ioCfg 0).source = some 0 ∧ (counterCfg ioCfg 0).mode = .rising ∧ (counterCfg ioCfg 3).mode = .unused ∧
    ((ioField id).field.on = true) := by decide +kernel

/-- Output 15 driven by every lane, and read back energised. -/
def driven (f : Field → Field) : State :=
  fieldUp (fun x => f { x with
    streams := PerLane.all { StreamRec.reset with lost := false, ref := some 4, drive := 0x80008000 }
    readback := PerLane.all 0x80008000, termHigh := 0x8000, termLow := 0x8000 })

/-- Output 15's record. -/
def withOut (x : OutRec) (f : Field) : Field := { f with outputs := sput OutRec.reset f.outputs 15 x }

/-- The third refresh of a cycle: 20 µs into a window of 500 µs. -/
def inWindow3 (s : State) : State := { s with mod := { s.mod with refreshes := 3 } }

/-- Output n's record, in the field die with output tests for every output; n is driven by every lane where told. -/
def testing (n : Nat) (on : Bool) (x : OutRec) (f : Field → Field) : State :=
  let d : Word := if on then BitVec.ofNat 32 (2 ^ n + 2 ^ (16 + n)) else 0
  inWindow3 (fieldUp (fun y => f { y with
    config := some { vint.localIo with outputs := List.replicate 16 { offTest := true, offPeriod := 1, onTest := true, onPeriod := 1, openWireEn := true } }
    streams := PerLane.all { StreamRec.reset with lost := false, ref := some 4, drive := d }
    readback := PerLane.all d, termHigh := BitVec.ofNat 16 (2 ^ n), termLow := BitVec.ofNat 16 (2 ^ n), outputs := [(n, x)] }))

/-- Period index of the OFF-test and of the ON-test of output n of that die. -/
def offAt (n : Nat) : Option Nat := some (periodIndex (testing n true OutRec.reset id).field (outCfg (testing n true OutRec.reset id).field n).offPeriod)
def onAt (n : Nat) : Option Nat := some (periodIndex (testing n true OutRec.reset id).field (outCfg (testing n true OutRec.reset id).field n).onPeriod)

theorem witness_OutputTests :
    (∀ x f, x = OutRec.reset ∧ f = id ∨ x = { OutRec.reset with offIn := offAt 0 } ∧ f = (fun y : Field => { y with outputs := y.outputs ++ [(1, { OutRec.reset with toTry := some 1 })] }) →
      let s := testing 0 true x f
      testWindow s.field = true ∧ sinceTick0 s % 50 = 2 ∧ s.field.usedWindow ≠ some (windowNow s) ∧ outEnabled s.field 0 = true ∧
        commandedOn s.field 0 = true ∧ energised s.field 0 = true ∧
        (((outCfg s.field 0).offTest = true ∧ (outRec s 0).offIn ≠ some (periodIndex s.field (outCfg s.field 0).offPeriod)) ∨ wantedByClass s.field 0 = true)) ∧
    (let s := testing 15 true OutRec.reset (fun y => { y with usedWindow := some (windowNow (testing 15 true OutRec.reset id)) })
     s.field.usedWindow = some (windowNow s)) ∧
    sinceTick0 (driven id) % 50 ≠ 2 ∧ testWindow (testing 15 true { OutRec.reset with test := .off } id).field = false ∧
    (let s := testing 15 true { OutRec.reset with offIn := offAt 15 } id
     (outRec s 15).offIn = some (periodIndex s.field (outCfg s.field 15).offPeriod) ∧ wantedByClass s.field 15 = false) ∧
    outEnabled (testing 15 true { OutRec.reset with retired := true } id).field 15 = false ∧
    (outRec (driven (withOut { OutRec.reset with test := .off })) 15).test = .off ∧ (0x8000 : BitVec 16).getLsbD 15 = true ∧
    (outRec (driven (withOut { OutRec.reset with test := .off })) 15).retired = false ∧
    (bitsOf (0x8000 : BitVec 16)).filter (fun b => decide (b ≠ 15)) = [] ∧ (bitsOf (0x8001 : BitVec 16)).filter (fun b => decide (b ≠ 15)) = [0] ∧
    (∀ x, x = OutRec.reset ∨ x = { OutRec.reset with onIn := onAt 0, testDue := true } →
      let s := testing 0 false x id
      testWindow s.field = true ∧ sinceTick0 s % 50 = 2 ∧ s.field.usedWindow ≠ some (windowNow s) ∧ fieldReady s.field = true ∧ s.field.fault = none ∧
        s.field.lost = false ∧ (outCfg s.field 0).onTest = true ∧ commandedOn s.field 0 = false ∧ (outRec s 0).retired = false ∧
        (groupRec s.field (decide (8 ≤ 0))).latched = false ∧
        ((outRec s 0).onIn ≠ some (periodIndex s.field (outCfg s.field 0).onPeriod) ∨ (outRec s 0).testDue = true)) ∧
    (let s := testing 0 false { OutRec.reset with onIn := onAt 0 } id
     (outRec s 0).onIn = some (periodIndex s.field (outCfg s.field 0).onPeriod) ∧ (outRec s 0).testDue = false) ∧
    (outRec (driven (withOut { OutRec.reset with test := .on })) 15).test = .on ∧
    (outRec (driven (withOut { OutRec.reset with test := .on })) 15).retired = false ∧ 10 ≤ 10 ∧ 10 * 10 ≤ 10 * 11 ∧ 10 * 9 ≤ 10 * 10 ∧ 9 < 10 ∧
    10 * 11 < 12 * 10 ∧ 8 * 10 < 10 * 9 ∧
    (let s := driven id
     fieldReady s.field = true ∧ energised s.field 0 = false ∧ commandedOn s.field 0 = false ∧ (outRec s 0).test = .none ∧
       (outRec s 0).retired = false ∧ stillToTry s.field 0 ≠ 0) ∧
    (let s := fieldUp id
     fieldReady s.field = true ∧ energised s.field 0 = false ∧ commandedOn s.field 0 = false ∧ (outRec s 0).test = .none ∧
       (outRec s 0).retired = false ∧ stillToTry s.field 0 = 0) := by
  and_intros
  all_goals first
    | decide +kernel
    | (intro x f h; rcases h with ⟨rfl, rfl⟩ | ⟨rfl, rfl⟩ <;> decide +kernel)
    | (intro x h; rcases h with rfl | rfl <;> decide +kernel)

/-- No output below output 0 is due. -/
theorem none_below : ∀ m, m < (0 : Fin 16).val → offDue (testing 0 true OutRec.reset id).field m = false ∧ onDue (testing 0 true OutRec.reset id).field m = false :=
  fun m h => absurd h (Nat.not_lt_zero m)

theorem no_output_to_try : ∀ a, (outRec (driven (withOut { OutRec.reset with test := .off })) a).toTry = none := by
  intro a
  show (sget OutRec.reset [(15, { OutRec.reset with test := .off })] a).toTry = none
  simp only [sget]
  split <;> rfl

theorem witness_OutputTripsAndSupplies : canTrip (driven id).field 15 = true ∧ canTrip (driven id).field 0 = false ∧ (outRec (driven id) 15).trips < 3 ∧
    (let s := driven (withOut { OutRec.reset with trips := 3 })
     canTrip s.field 15 = true ∧ 3 ≤ (outRec s 15).trips) ∧
    (let s := driven (fun f => { withOut { OutRec.reset with heldOff := true, hot := true, tripAt := 5 } f with nowNs := 100000005 })
     (outRec s 15).heldOff = true ∧ (outRec s 15).retired = false ∧ commandedOn s.field 15 = true ∧ (outRec s 15).tripAt + 100000000 ≤ s.field.nowNs ∧
       (outRec s 15).hot = true) ∧
    10000000000 ≤ (outRec (driven (withOut { OutRec.reset with energisedNs := 10000000000 })) 15).energisedNs ∧
    (outRec (driven id) 15).energisedNs < 10000000000 ∧ fieldReady (driven id).field = true ∧ (outCfg (driven id).field 15).openWireEn = true ∧
    energised (driven id).field 15 = true ∧
    (let s := keyed (driven (withOut { OutRec.reset with retired := true }))
     authOk s auth = true ∧ authOk s forged = false ∧ (outRec s 15).retired = true) ∧
    (groupRec (driven (fun f => { f with group2 := { f.group2 with bad := 100 } })).field true).bad ≥ 100 ∧
    (groupRec (driven (fun f => { f with group2 := { f.group2 with bad := 99 } })).field true).bad < 100 ∧
    (groupRec (driven (fun f => { f with group2 := { f.group2 with bad := 100 } })).field true).vfOff = false ∧
    (groupRec (driven (fun f => { f with group2 := { f.group2 with bad := 100, vfOff := true } })).field true).vfOff = true ∧
    canTrip (driven (withOut { OutRec.reset with trips := 3 })).field 15 = true ∧
    (let s := driven (fun f => { f with group1 := { f.group1 with latched := true, st := .latched, good := 9999 } })
     (groupRec s.field false).good < 10000) ∧
    (let s := driven (fun f => { f with group1 := { f.group1 with latched := true, st := .latched, good := 10000 } })
     s.field.on = true ∧ s.field.lost = false ∧ (groupRec s.field false).latched = true ∧ (groupRec s.field false).st = .latched ∧
       10000 ≤ (groupRec s.field false).good) := by decide +kernel

/-! ### Witnesses: the host ports -/

/-- Port 0 with its link up, SQ 15 of size 16 with two slots waiting, bound to CQ 15. -/
def hosted (m : ModSt) (ph : Phase) : State :=
  let s := module m ph .serving .serving .serving
  modPort s .p0 (fun x => { x with
    linkUp := true
    sqs := [(15, { Ring.reset with enabled := true, sizeLog2 := 4, cq := 15, tail := 2 })]
    cqs := [(15, { Ring.reset with enabled := true, sizeLog2 := 4, phase := true })] })

theorem witness_PortLinks : ((three .input).ports.get .p0).linkUp = false ∧ runs (three .input) Port.p0.ringLane = true ∧ runs (hosted .svc3 .input) Port.p0.ringLane = true ∧ inLogicBist (hosted .svc3 .input) Port.p0.ringLane = false ∧
    runs State.reset Port.p0.ringLane = false ∧ (1 : BitVec 2) ≠ 0 ∧ ((hosted .svc3 .input).ports.get .p0).linkUp = true ∧
    ((three .input).ports.get .p1).linkUp = false ∧ runs (three .input) Port.p1.ringLane = true ∧ (sqOf (hosted .svc3 .input) .p0 15).enabled = true ∧
    (sqOf (hosted .svc3 .input) .p0 0).enabled = false := by decide +kernel

theorem witness_RingsAndDoorbells : ((three .input).ports.get .p0).linkUp = false ∧ ((hosted .svc3 .input).ports.get .p0).linkUp = true ∧
    (sqOf (hosted .svc3 .input) .p0 15).enabled = true ∧ (doorIndex 15).toNat < ringSize (sqOf (hosted .svc3 .input) .p0 15) ∧
    ringSize (sqOf (hosted .svc3 .input) .p0 15) ≤ (doorIndex 16).toNat ∧ (cqOf (hosted .svc3 .input) .p0 15).enabled = true ∧
    (sqOf (hosted .svc3 .input) .p0 0).enabled = false ∧ (cqOf (hosted .svc3 .input) .p0 0).enabled = false ∧ field (0x30 : Word) 7 4 < 4 ∧
    12 < field (0xD0 : Word) 7 4 ∧ 4 ≤ field (0x40 : Word) 7 4 ∧ field (0xC0 : Word) 7 4 ≤ 12 ∧ runs (hosted .svc3 .input) Port.p0.ringLane = true ∧
    runs State.reset Port.p0.ringLane = false ∧
    portSilent (hosted .svc3 .input) .p0 = false ∧
    portSilent (withA (hosted .svc3 .input) (fun L => { L with bist := { L.bist with phase := 5 } })) .p0 = true ∧
    (let s := modCq (hosted .svc3 .input) .p0 15 (fun r => { r with unsignalled := true })
     (cqOf s .p0 15).unsignalled = true ∧ (s.ports.get .p0).linkUp = true ∧ (s.ports.get .p0).msixOpen.getLsbD 15 = false ∧
       ((modPort s .p0 (fun x => { x with msixOpen := 0x8000 })).ports.get .p0).msixOpen.getLsbD 15 = true) := by decide +kernel

/-- A slot from its fields: offset and value. -/
def slot (fs : List (Nat × Nat)) : BitVec 512 := BitVec.ofNat 512 (fs.foldl (fun n f => n + f.2 * 2 ^ (8 * f.1)) 0)
/-- The same with its safety code for host port 0. -/
def coded (fs : List (Nat × Nat)) : BitVec 512 := slot (fs ++ [(0x38, slotCode 0x11 (slot fs))])

/-- ROUTE_REQUEST of route 16,383 within the time window. -/
def routeSlot (t : Nat) : BitVec 512 := coded [(0, 1), (8, 1), (0x10, t), (0x18, 16383)]

/-- An entry of a ledger: number 1, not yet completed. -/
def ledgerOne : LedgerEntry :=
  { sequence := 1, code := dCode (routeSlot 1000000000), done := false, status := 0, term := 0, cycle := 0, time := 0, result := 0 }

/-- Ledger of SQ 15 of port 0 after number 1. -/
def ledgered (s : State) : State :=
  withA s (fun L => { L with mbx := { L.mbx with ledgers := [(15, { last := some 1, entries := [ledgerOne] })] } })

/-- RACK with its AUTH_EXT. -/
def rackSlot : BitVec 512 := coded [(0, 0x22), (8, 1), (0x10, 1000000000), (0x18, 7)]
/-- The second slot. -/
def authSlot : BitVec 512 := slot [(0, 0x3F), (4, 1), (8, 9)]

theorem witness_HostDescriptors : takesChecked (.routeRequest .p0 15 (routeSlot 1000000000)) .p0 15 (routeSlot 1000000000) none ∧
    mayTake (hosted .svc3 .input) .p0 15 (routeSlot 1000000000) ∧ 1 ≤ sqWaiting (sqOf (hosted .svc3 .input) .p0 15) ∧
    takesChecked (.rack .p0 15 rackSlot authSlot) .p0 15 rackSlot (some authSlot) ∧ 2 ≤ sqWaiting (sqOf (hosted .svc3 .input) .p0 15) ∧
    checkSlots (hosted .svc3 .input) .A .p0 15 (routeSlot 1000000000) none = .take ∧ bothFailed (hosted .svc3 .input).cellar = false ∧
    (hosted .svc3 .input).cellar.life.nonceLast.toNat < dget authSlot 8 8 ∧ slotsOk (routeSlot 1000000000) none = true ∧
    slotsOk (coded [(0, 1), (8, 1), (0x10, 1000000000), (0x18, 16384)]) none = false ∧
    slotCode (hostSid (hosted .svc3 .input) .p0) (routeSlot 1000000000) = dget (routeSlot 1000000000) 0x38 8 ∧
    checkSlots (hosted .svc3 .input) .A .p0 15 (slot [(0, 1), (8, 1), (0x18, 1)]) none = .refuse 0x31 false ∧
    checkSlots (hosted .svc3 .input) .A .p0 15 (coded [(0, 1), (4, 1), (8, 1), (0x10, 1000000000), (0x18, 1)]) none = .refuse 0x30 false ∧
    checkSlots (ledgered (hosted .svc3 .input)) .A .p0 15 (coded [(0, 1), (8, 1), (0x10, 1000000000), (0x18, 1)]) none = .refuse 0x33 false ∧
    checkSlots (ledgered (hosted .svc3 .input)) .A .p0 15 (coded [(0, 1), (8, 3), (0x10, 1000000000), (0x18, 1)]) none = .refuse 0x32 false ∧
    seqCheck (ledgerOf (lane (ledgered (hosted .svc3 .input)) .A) .p0 15) (dSeq (routeSlot 1000000000)) (dCode (routeSlot 1000000000)) ≠ .fresh ∧
    checkSlots (hosted .svc3 .input) .A .p0 15 (routeSlot 2000000000) none = .take ∧
    checkSlots (hosted .svc3 .input) .A .p0 15 (routeSlot 2000000001) none = .refuse 0x34 true ∧
    checkSlots (hosted .svc3 .input) .A .p0 15 rackSlot (some authSlot) = .refuse 0x35 true ∧
    checkSlots (hosted .commissioning .input) .A .p0 15 (routeSlot 1000000000) none = .refuse 0x1C true ∧
    (let s := modLanes (hosted .svc3 .input) (fun _ L => { L with bank := { L.bank with active := some { vint with twin := true } } })
     checkSlots s .A .p0 15 (routeSlot 1000000000) none = .refuse 0x38 true) := by
  unfold mayTake
  refine ⟨.inl ⟨rfl, by decide +kernel, by decide +kernel, .inr (.inl ⟨rfl, by decide +kernel⟩)⟩, by decide +kernel, by decide +kernel,
    .inr ⟨authSlot, rfl, by decide +kernel, by decide +kernel, .inr (.inr (.inl ⟨rfl, by decide +kernel⟩))⟩, ?_⟩
  decide +kernel

/-- The second slot of RACK comes alone. -/
theorem witness_HostDescriptors_second :
    let s := modSq (hosted .svc3 .input) .p0 15 (fun r => { r with half := some rackSlot })
    takesSecond (.authExt .p0 15 authSlot) s .p0 15 rackSlot (some authSlot) ∧ 1 ≤ sqWaiting (sqOf s .p0 15) :=
  ⟨⟨by decide +kernel, by decide +kernel, by decide +kernel, by decide +kernel, authSlot, rfl, by decide +kernel, .inl rfl⟩, by decide +kernel⟩

/-- IMAGE_READ of the whole Q image, CELLAR_READ and FENCE. -/
def readSlot : BitVec 512 := slot [(0, 0x10), (0x18, 1), (0x20, 32768), (0x28, 4096)]

/-- A fence has been taken, and its completion is composed. -/
def fencing : State :=
  let d := slot [(0, 0x30)]
  let r := refOf (hosted .svc3 .output) .p0 15 d
  modSq (withA (hosted .svc3 .output) (fun L => { L with mbx := { L.mbx with composed := [completionOf 0 r 0 false false
    { status := 0x05, term := 0x7F, cycle := 0, time := 0, result := 0 }] } })) .p0 15 (fun x => { x with fenced := some r.order })

theorem witness_ReadsAndCompletions_fence : (match nextCompletion fencing .p0 with
      | some c => decide (c.ref.cls = 0x30) && decide (c.ref.sq.val = 15) && decide ((sqOf fencing .p0 15).fenced = some c.ref.order)
      | none => false) = true ∧ runs fencing Port.p0.ringLane = true ∧ (fencing.ports.get .p0).linkUp = true ∧
    (fencing.ports.get .p0).paused = false ∧
    ((Lane.list.flatMap (fun l => (lane fencing l).mbx.composed)).all (fun c => cqContinuous fencing c)) = true := by decide +kernel

/-- Two lanes have composed one completion. -/
def composedTwice : State :=
  modLanes (hosted .svc3 .output) (fun l L => match l with
    | .C => L
    | _ => { L with mbx := { L.mbx with composed := [completionOf 0 (refOf (hosted .svc3 .output) .p0 15 (routeSlot 5)) 0 false true
               { status := 0x31, term := 0x7F, cycle := 0, time := 0, result := 0 }] } })

theorem witness_ReadsAndCompletions : takesUnchecked (.imageRead .p0 15 readSlot) .p0 15 readSlot ∧ mayTake (hosted .svc3 .input) .p0 15 readSlot ∧
    slotsOk readSlot none = true ∧ dEpoch readSlot = epochNow (hosted .svc3 .input) ∧ dClass readSlot = 0x10 ∧
    slotsOk (slot [(0, 0x11), (0x18, 1), (0x28, 64), (0x30, 64)]) none = true ∧ dClass (slot [(0, 0x11), (0x18, 1), (0x28, 64), (0x30, 64)]) = 0x11 ∧
    slotsOk (slot [(0, 0x30)]) none = true ∧ slotsOk (slot [(0, 0x30), (8, 1)]) none = false ∧
    dEpoch (slot [(0, 0x30), (4, 1)]) ≠ epochNow (hosted .svc3 .input) ∧ runs composedTwice Port.p0.ringLane = true ∧
    (composedTwice.ports.get .p0).linkUp = true ∧ (composedTwice.ports.get .p0).paused = false ∧
    ((Lane.list.flatMap (fun l => (lane composedTwice l).mbx.composed)).all (fun c => cqContinuous composedTwice c)) = true ∧
    (nextCompletion composedTwice .p0).isSome = true := by
  unfold mayTake
  exact ⟨.inl ⟨rfl, by decide +kernel⟩, by decide +kernel⟩

/-! ### Witnesses: start, keys, restarts -/

/-- The tests of a lane that came from BOOT. -/
def fresh (r : Bool) : State :=
  modLife (module .boot .idle .test .test .test) (fun f => { f with lanes := f.lanes.set .A { (f.lanes.get .A) with retired := r } })

theorem witness_LanesStart : lst (three .input) .A ≠ .boot ∧ lst State.reset .A = .boot ∧ (lane State.reset .A).life.rom = false ∧
    laneHeld (lane State.reset .A) = false ∧ State.reset.mod.st ≠ .off ∧ (lane State.reset .A).boot.failed = 0 ∧
    1 ≤ (lane (withA State.reset (fun L => { L with boot := { L.boot with failed := 1 } })) .A).boot.failed ∧ lst (fresh true) .A = .test ∧
    (lane (fresh true) .A).life.entry = .fromBoot ∧ (lane (fresh true) .A).life.testsDone = false ∧
    ((fresh true).cellar.life.lanes.get .A).retired = true ∧ ((fresh false).cellar.life.lanes.get .A).retired = false ∧
    (let b := { (lane (fresh true) .A).bist with trigger := 2, result := 0, repairs := (fresh true).cellar.life.repairs.get .A }
     (testVerdict b { result := .pass, repairs := [] }).2 = .pass ∧ (testVerdict b { result := .logicFail true [1], repairs := [] }).2 ≠ .pass ∧
     ({ lane := .A, badA := false, badB := true } : StartTests).lane = .A ∧ ({ lane := .A, dev0 := .both, dev1 := .one } : FirmwareBoot).lane = .A) := by
  decide +kernel

theorem witness_LanesStart_results : (∀ a, BistResult.pass ≠ .dramFail a) ∧ (∀ a, BistResult.logicFail true [1] ≠ .dramFail a) :=
  ⟨nofun, nofun⟩

/-- A store of lane A holds vintage 7. -/
def stored (s : State) : State := withA s (fun L => { L with bank := { L.bank with storeA := some (vint, 1) } })

theorem witness_LimitsKeysRestarts : State.reset.mod.st = .boot ∧ (reachedSync State.reset).length < 2 ∧
    (∀ l, (lane State.reset l).life.rom = false) ∧ 2 ≤ (reachedSync (module .boot .idle .sync .sync .test)).length ∧
    State.reset.cellar.life.keyVersion = 0 ∧ (module .commissioning .input .serving .serving .serving).mod.st = .commissioning ∧
    (keyed (three .input)).cellar.life.keyVersion ≠ 0 ∧ inService (keyed (three .input)).mod.st = true ∧ authOk (keyed (three .input)) auth = true ∧
    authOk (keyed (three .input)) forged = false ∧ (keyed (three .input)).mod.st ≠ .off ∧ storeHolds (keyed (three .input)) 7 = false ∧
    storeHolds (stored (keyed (three .input))) 7 = true ∧ (keyed State.reset).mod.st = .boot ∧ authOk (keyed State.reset) auth = true ∧
    authOk (keyed (module .safe .input .serving .serving .serving)) auth = true ∧
    (let s := modLife (keyed (three .input)) (fun f => { f with keyVersion := 0xFFFF })
     s.cellar.life.keyVersion = 0xFFFF ∧ authOk s { auth with keyVersion := 0xFFFF } = true) ∧
    State.reset.cellar.life.serial + 1 ≠ State.reset.cellar.life.serial ∧
    (let s := keyed (module .safe .input .serving .serving .serving)
     ({ s.cellar with keeper := some Lane.A } : Cellar).keeper = some .A ∧ runs s .A = true ∧ s.mod.st = .safe) :=
  ⟨by decide +kernel, by decide +kernel, fun l => by cases l <;> rfl, by and_intros <;> decide +kernel⟩

/-! ### Witnesses: staging, racking, recovery -/

/-- A descriptor that every lane has taken. -/
def takenSlot (d : BitVec 512) (started : Bool) : Taken :=
  { takenOf (refOf (hosted .svc3 .input) .p0 15 d) d 0 none false with inBatch := true, started := started }

/-- It waits for its data. -/
def waitsFor (d : BitVec 512) (started : Bool) : State :=
  modLanes (hosted .svc3 .input) (fun _ L => { L with mbx := { L.mbx with taken := [takenSlot d started] } })

/-- STAGE_PROGRAM at an offset. -/
def stageSlot (off : Nat) : BitVec 512 := slot [(0, 0x20), (0x18, 8), (0x1C, off), (0x20, 4096)]
/-- STAGE_FIRMWARE for lane A at an offset. -/
def fwSlot (off : Nat) : BitVec 512 := slot [(0, 0x21), (0x18, 1), (0x1C, off), (0x20, 4096)]

/-- Registers of a CRC after every 40 bytes, checked one piece at a time. -/
def chain (p : CrcParams) : Nat → List Byte → List Nat → Bool
  | _, bs, [] => bs.isEmpty
  | r, bs, v :: vs => decide (crcRun p r (bs.take 40) = v) && chain p v (bs.drop 40) vs

theorem chain_run (p : CrcParams) : ∀ (vs : List Nat) (r : Nat) (bs : List Byte), chain p r bs vs = true → crcRun p r bs = vs.getLastD r := by
  intro vs
  induction vs with
  | nil => intro r bs h; simp [chain] at h; subst h; rfl
  | cons v vs ih =>
    intro r bs h
    simp only [chain, Bool.and_eq_true, decide_eq_true_eq] at h
    have h2 := ih v _ h.2
    have : crcRun p r bs = crcRun p (crcRun p r (bs.take 40)) (bs.drop 40) := by
      unfold crcRun; rw [← List.foldl_append, List.take_append_drop]
    rw [this, h.1, h2]; cases vs <;> rfl

/-- A local I/O configuration without channels, with its CRC-32C in the last four bytes (R262). -/
def plainIo : LocalCfg :=
  { vint.localIo with words := List.replicate 31 0 ++ [BitVec.ofNat 128 (0xEC57A9C3 * 2 ^ 96)] }

theorem plain_io_crc : chain crc32c crc32c.init (configBody plainIo) [1142031717, 3350746107, 946906768, 2788829752, 3021674796, 1622225770,
    3324990906, 3427118016, 2209268017, 278628562, 66761414, 3180774912, 1013585352] = true := by decide +kernel

theorem plain_io_check : configCheck plainIo = 0xEC57A9C3 := by
  unfold configCheck crcOf
  rw [chain_run _ _ _ _ plain_io_crc]
  decide +kernel

/-- A staged image: header, one section of one byte in the program image, and a trailer that is right, or wrong. -/
def smallImage (ok : Bool) : List Byte :=
  le 4 0x38405601 ++ le 4 8 ++ le 4 0 ++ le 4 89 ++ le 8 0x1234 ++ le 4 0 ++ le 4 0xEC57A9C3 ++ le 4 0 ++ le 4 0 ++ le 4 1 ++
  List.replicate 20 0 ++ le 4 0x10000 ++ le 4 1 ++ le 4 0x50 ++ le 4 0 ++ [0x55] ++ le 8 (if ok then 16628950791764021324 else 0)

theorem small_trailer_crc : chain crc64 crc64.init ((smallImage true).take 81) [6791356612723503458, 11590700981407828456, 14841101006407228568] = true := by decide +kernel

/-- The vintage without tables that it unpacks to, whose content is good. -/
def small : Vintage :=
  { vint with image := smallImage true, number := 8, paramCheck := 0x1234, code := [[], [], [], []], elements := [], routes := [], presets := []
              stations := [], peers := [], schedule := [], localIo := plainIo, localIoCheck := 0xEC57A9C3 }

theorem small_unpacks : unpack (smallImage true) small = small := by decide +kernel

theorem small_local : localOk small = true := by
  unfold localOk
  simp only [show small.localIo = plainIo from rfl, plain_io_check]
  decide +kernel

theorem small_content : contentOk small = true := by
  unfold contentOk
  rw [small_local]
  decide +kernel

theorem small_trailer : trailerOk 8 (smallImage true) = true := by
  have h : crcOf crc64 ((smallImage true).take 81) = 16628950791764021324 := by
    unfold crcOf; rw [chain_run _ _ _ _ small_trailer_crc]; decide +kernel
  have hn : (smallImage true).length - 8 = 81 := by decide +kernel
  unfold trailerOk
  simp only [hn, h]
  decide +kernel

/-- Every lane verifies an image whose trailer is right, or wrong. -/
def verifying (ok : Bool) : State :=
  modLanes (three .input) (fun _ L => { L with bank := { L.bank with
    st := .receiving, verifying := true, number := 8, bytes := 89, received := smallImage ok, parts := some small } })

/-- What upsets would make of a lane's check value for it to equal the one that the image carries. -/
def smallError : BitVec 64 := paramValue small ^^^ 0x1234

theorem small_bank (m : Lane) : (lane (verifying true) m).bank = { Bank.reset with
    active := some vint, st := .receiving, verifying := true, number := 8, bytes := 89, received := smallImage true, parts := some small } := by
  cases m <;> rfl

theorem small_reason (b : Bank) (hr : b.received = smallImage true) (hn : b.number = 8) (ha : b.active = some vint) (hp : b.parts = some small) :
    imageReason b = 0 ∧ stagedVintage b = some small := by
  have h : stagedVintage b = some small := by unfold stagedVintage; rw [hp, hr]; exact congrArg some small_unpacks
  refine ⟨?_, h⟩
  unfold imageReason
  simp only [hr, hn, ha, h, small_trailer, small_content]
  decide +kernel

theorem small_value (m : Lane) (e : BitVec 64) : laneValue (verifying true) m e = paramValue small ^^^ e := by
  unfold laneValue
  rw [(small_reason (lane (verifying true) m).bank (by rw [small_bank]) (by rw [small_bank]) (by rw [small_bank]) (by rw [small_bank])).2]

theorem small_laneReason (m : Lane) (e : BitVec 64) :
    laneReason (verifying true) m e = if paramValue small ^^^ e ≠ 0x1234 then 5 else 0 := by
  have h := small_reason (lane (verifying true) m).bank (by rw [small_bank]) (by rw [small_bank]) (by rw [small_bank]) (by rw [small_bank])
  unfold laneReason
  simp only [h.1, h.2, small_value, ne_eq, not_true_eq_false, if_false]
  rw [show small.paramCheck = 0x1234 from rfl]

theorem xor_back (k c : BitVec 64) : k ^^^ (k ^^^ c) = c := by rw [← BitVec.xor_assoc]; simp

theorem small_staged (m : Lane) : laneReason (verifying true) m smallError = 0 ∧ laneReason (verifying true) m (smallError ^^^ 1) = 5 := by
  rw [small_laneReason, small_laneReason]
  unfold smallError
  generalize paramValue small = k
  rw [xor_back, BitVec.xor_assoc, xor_back]
  decide

/-- A firmware delta without a block, whose image is empty. -/
def delta (park : Bool) : FwDelta :=
  { oldVersion := 0, oldCheck := 0, newVersion := 0x00010001, newCheck := 0, newLength := 0, floor := 0, park := park }

/-- Lane A has built the image of a delta. -/
def built (park : Bool) : State :=
  withA (module .svc2 .input .isolated .serving .serving) (fun L => { L with
    life := { L.life with planned := .update }
    boot := { L.boot with image := [], delta := [], update := some (delta park, takenSlot (fwSlot 0) true), step := 3 } })

/-- Lane A racks at this tick. -/
def racks : State :=
  withA (three .input) (fun L => { L with bank := { L.bank with
    rackTo := some (takenSlot (slot [(0, 0x22)]) true, false), staged := some small, st := .staged } })

/-- A lane's ROM waits for an image, or writes one. -/
def inRom (l : Lane) (i : Option (FwImage × Byte)) : State :=
  modLane State.reset l (fun L => { L with life := { L.life with rom := true }, boot := { L.boot with romImage := i } })

/-- A recovery image. -/
def romGood : FwImage := { data := [], carried := 0, signatureOk := true, version := 0x00010000, floor := 0 }

theorem witness_staging_order : (let s := waitsFor (stageSlot 0) true
     (takenSlot (stageSlot 0) true).feed ≠ .fed ∧ ∀ r' ∈ stageRefs s .p0 15, r' = (takenSlot (stageSlot 0) true).ref) ∧
    (let s := waitsFor (fwSlot 0) true
     (takenSlot (fwSlot 0) true).feed ≠ .fed ∧ ∀ r' ∈ stageRefs s .p0 15, r' = (takenSlot (fwSlot 0) true).ref) ∧
    (refBank (waitsFor (stageSlot 4096) true)).st ≠ .receiving ∧ (lane (waitsFor (fwSlot 4096) true) .A).boot.taking = false ∧
    (let b := { (lane (waitsFor (fwSlot 4096) true) .A).boot with taking := true, deltaBytes := 4096 }
     b.taking = true ∧ b.deltaBytes = chunkOff (fwSlot 4096) ∧ b.update = none) ∧ ([] : List Byte).length < chunkLen (stageSlot 0) ∧
    (true && decide (crcOf crc64 (builtImage (lane (built true) .A).boot.image (lane (built true) .A).boot.delta) = (delta true).newCheck.toNat)) = true := by
  refine ⟨⟨nofun, ?_⟩, ⟨nofun, ?_⟩, ?_⟩ <;> decide +kernel

theorem witness_staging : dClass (stageSlot 0) = 0x20 ∧ waitingRef (waitsFor (stageSlot 0) true) .p0 15 (stageSlot 0) = some (takenSlot (stageSlot 0) true).ref ∧
    takenRef (waitsFor (stageSlot 0) true) (takenSlot (stageSlot 0) true).ref = some (takenSlot (stageSlot 0) true) ∧
    (takenSlot (stageSlot 0) true).desc = stageSlot 0 ∧ (takenSlot (stageSlot 0) true).ref.cls = 0x20 ∧ chunkLen (stageSlot 0) = 4096 ∧
    waitingRef (waitsFor (stageSlot 0) false) .p0 15 (stageSlot 0) = some (takenSlot (stageSlot 0) false).ref ∧
    (takenSlot (stageSlot 0) false).started = false ∧ (takenSlot (stageSlot 0) true).started = true ∧
    (refBank (waitsFor (stageSlot 0) true)).verifying = false ∧ chunkOff (stageSlot 0) = 0 ∧ chunkLast (stageSlot 0) = false ∧
    chunkOff (stageSlot 4096) ≠ 0 ∧ (refBank (waitsFor (stageSlot 4096) true)).bytes ≠ chunkOff (stageSlot 4096) ∧
    keepsStage (waitsFor (stageSlot 0) true) (refLane (waitsFor (stageSlot 0) true)) = true ∧ keepsStage (pair .input .isolated) .C = false ∧
    dClass (fwSlot 0) = 0x21 ∧ waitingRef (waitsFor (fwSlot 0) true) .p0 15 (fwSlot 0) = some (takenSlot (fwSlot 0) true).ref ∧
    takenRef (waitsFor (fwSlot 0) true) (takenSlot (fwSlot 0) true).ref = some (takenSlot (fwSlot 0) true) ∧
    (takenSlot (fwSlot 0) true).ref.cls = 0x21 ∧ fwLane (fwSlot 0) = .A ∧ (lane (waitsFor (fwSlot 0) true) .A).boot.update = none ∧
    (lane (waitsFor (fwSlot 4096) true) .A).boot.deltaBytes ≠ chunkOff (fwSlot 4096) ∧ chunkOff (fwSlot 0) + chunkLen (fwSlot 0) ≤ 12582912 := by
  decide +kernel

theorem witness_RingsAndDoorbells_data : movingData (waitsFor (stageSlot 0) true) .p0 15 = some (takenSlot (stageSlot 0) true) ∧
    movingData (waitsFor (stageSlot 0) false) .p0 15 = none ∧ runs (waitsFor (stageSlot 0) true) Port.p0.ringLane = true ∧
    (sqOf (waitsFor (stageSlot 0) true) .p0 15).enabled = true ∧
    (sqOf (modSq (waitsFor (stageSlot 0) true) .p0 15 (fun r => { r with enabled := false })) .p0 15).enabled = false ∧
    movingData (modSq (waitsFor (stageSlot 0) true) .p0 15 (fun r => { r with enabled := false })) .p0 15 = some (takenSlot (stageSlot 0) true) := by
  decide +kernel

theorem witness_racking : (lane (verifying true) .A).bank.verifying = true ∧ keepsStage (verifying true) .A = true ∧
    laneReason (verifying false) .A 0 ≠ 0 ∧
    (lane (three .input) .A).bank.verifying = false ∧ (lane (three .input) .A).boot.update = none ∧
    (lane (built true) .A).boot.update = some (delta true, takenSlot (fwSlot 0) true) ∧ (delta true).park = true ∧ (delta false).park = false ∧
    (lane (built false) .A).boot.step = 3 ∧ lst (built false) .A = .isolated ∧ (lane (built false) .A).life.planned = .update ∧
    (lane (three .input) .A).bank.rackTo = none ∧ (lane racks .A).bank.rackTo = some (takenSlot (slot [(0, 0x22)]) true, false) ∧
    (lane racks .A).bank.active = some vint ∧ (lane racks .A).bank.staged = some small ∧ racks.mod.phase = .input ∧
    (let s := withA (three .input) (fun L => { L with bank := { L.bank with st := .previous, expiry := 1000000000 } })
     (lane s .A).bank.st = .previous ∧ (lane s .A).bank.expiry.toNat ≤ s.mod.tickTime.toNat) ∧
    (three .input).mod.tickTime.toNat < ({ Bank.reset with expiry := 1000000001 } : Bank).expiry.toNat ∧
    romIdle (inRom .A none) .A = true ∧ romIdle State.reset .A = false ∧ romReason (inRom .A none) .A romGood = 0 ∧
    romReason (inRom .A none) .A { romGood with carried := 1 } ≠ 0 ∧ ringPort .A = some .p0 ∧ ringPort .C = none ∧
    (lane (inRom .A none) .A).boot.romImage = none ∧ (lane (inRom .C (some (romGood, 2))) .C).boot.romImage = some (romGood, 2) ∧
    (lane (inRom .C (some (romGood, 2))) .C).life.rom = true ∧
    (let s := { inRom .C (some (romGood, 2)) with mod := { Module.reset with st := .recovery } }
     s.mod.st = .recovery ∧ (Lane.list.all (fun m => decide (m = .C) || !(lane s m).life.rom)) = true) ∧
    (let s := modLane { inRom .C (some (romGood, 2)) with mod := { Module.reset with st := .recovery } } .A (fun L => { L with life := { L.life with rom := true } })
     (Lane.list.all (fun m => decide (m = .C) || !(lane s m).life.rom)) = false) := by decide +kernel

theorem staged_in_all : (∀ m, keepsStage (verifying true) m = true → (lane (verifying true) m).bank.verifying = true ∧
      laneReason (verifying true) m smallError = 0 ∧ laneValue (verifying true) m smallError = laneValue (verifying true) .A smallError) ∧
    laneReason (verifying true) .A smallError = 0 ∧ keepsStage (verifying true) .B = true ∧ laneReason (verifying true) .B (smallError ^^^ 1) ≠ 0 := by
  refine ⟨fun m _ => ⟨by cases m <;> rfl, (small_staged m).1, by rw [small_value, small_value]⟩, (small_staged .A).1, by decide +kernel, ?_⟩
  rw [(small_staged .B).2]
  decide

/-! ### Witnesses: the twin pair -/

/-- A module of a pair, on the bus. -/
def twinned (f : Twin → Twin) : State :=
  let s := onBus .inSync (three .input)
  { modLanes s (fun _ L => { L with bank := { L.bank with active := some { vint with twin := true } } }) with twin := f Twin.reset }

/-- A TWIN frame of the partner without its codes: epoch, role, flags, payload after the header. -/
def twinBare (epoch : BitVec 16) (st : Byte) (fl : Byte) (rest : List Byte) : Frame :=
  let p : List Byte := List.replicate 16 0 ++ [0, 0, 0, 7, 0, 0, 0, 0, 4, st, fl, 0, 0, 0, 0, 1] ++ rest
  { frame0 with type := 0x13, flags := 1, source := 0, dest := 1, epoch := epoch, length := BitVec.ofNat 16 p.length, payload := p, trailer := 9 }

/-- The same with its codes. -/
def twinFrame (epoch : BitVec 16) (st : Byte) (fl : Byte) (rest : List Byte) : Frame :=
  let f := twinBare epoch st fl rest
  sealed { f with code1 := codeOf (4 * 4 + 1) f, code2 := codeOf (4 * 4 + 2) f }

/-- The frame of the partner in its slot. -/
def twinCopy (f : Frame) : RxFrame := copyAt 2040000 f

theorem witness_TwinPair_roles :
    (∀ a n, (a = 0 ∧ n = [Lane.A, .B, .C]) ∨ (a = 1 ∧ n = [.B, .C]) ∨ (a = 6 ∧ n = [.A]) ∨ (a = 7 ∧ n = []) →
      let s := twinned (fun t => { t with st := .paired, lastActive := a })
      s.twin.st = .paired ∧ s.mod.phase = .input ∧ missedActive s = n) ∧
    (twinned id).twin.st ≠ .paired ∧ (ownTwin (twinned id) (refLane (twinned id))).isMatch = false ∧ authOk (keyed (twinned id)) auth = true ∧
    authOk (keyed (twinned id)) forged = false ∧
    (let s := twinned (fun t => { t with st := .active, own := t.own.map (fun _ o => { o with isMatch := true }), handoverSent := true, partner := 6, seen := true })
     let t := s.twin
     (ownTwin s (refLane s)).isMatch = true ∧ t.st = .active ∧ t.handoverSent = true ∧ t.partner = 6 ∧ t.seen = true) ∧
    (let s := twinned (fun t => { t with st := .paired, own := t.own.map (fun _ o => { o with isMatch := true }), partnerHandover := true, lastActive := 7 })
     (ownTwin s (refLane s)).isMatch = true ∧ s.twin.st = .paired ∧ s.twin.partnerHandover = true ∧ laneBit s.twin.lastActive (refLane s) = true) := by
  refine ⟨fun a n h => ?_, by decide +kernel⟩
  rcases h with ⟨rfl, rfl⟩ | ⟨rfl, rfl⟩ | ⟨rfl, rfl⟩ | ⟨rfl, rfl⟩ <;> decide +kernel

theorem witness_TwinPair_loads :
    (let s := twinned (fun t => { t with st := .active, partner := 3, partnerLoadReq := true, seen := true })
     s.twin.loadRun = false ∧ s.twin.stopped = false ∧ s.twin.retryAt.toNat ≤ s.mod.tickTime.toNat) ∧
    (three .input).mod.tickTime.toNat < ({ Twin.reset with retryAt := 1000000001 } : Twin).retryAt.toNat ∧
    (let t := (twinned (fun t => { t with st := .active, loadRun := true, loadCycles := 23352 })).twin
     t.loadRun = true ∧ 23352 ≤ t.loadCycles) ∧
    (let t := (twinned (fun t => { t with st := .loading, loadCycles := 23352 })).twin
     t.loadRun = false ∧ t.st = .loading) ∧
    (twinned (fun t => { t with loadCycles := 23351 })).twin.loadCycles < 23352 ∧
    (let s := twinned (fun t => { t with retryAt := 1000000000 })
     s.twin.retryAt ≠ 0 ∧ s.twin.retryAt.toNat ≤ s.mod.tickTime.toNat ∧ s.twin.stopped = false) ∧
    (keyed (twinned (fun t => { t with stopped := true }))).twin.stopped = true := by decide +kernel

theorem witness_TwinPair_frames : txDis (twinned id) 0 .X = false ∧ (twinned id).alk.node ≠ .down ∧ txDis (twinned id) 1 .X = true ∧
    (onBus .down (twinned id)).alk.node = .down ∧ refLane (twinned id) = .A ∧ Lane.C ≠ refLane (twinned id) ∧ twinListens (twinned id) = true ∧
    twinListens (three .input) = false ∧ mediumUsed (twinned id) 0 .X = true ∧ laneBit (twinned id).twin.gotNow .C = false ∧
    laneBit (twinned (fun t => { t with gotNow := 5 })).twin.gotNow .A = true ∧ laneBit (twinned (fun t => { t with gotNow := 5 })).twin.gotNow .C = true ∧
    fcsGood (twinFrame 0 6 0 []) = true ∧ knownType (twinFrame 0 6 0 []) = true ∧ twinDev (twinned id) (copyAt 2040250 (twinFrame 0 6 0 [])) = 250 ∧
    twinAccepted (twinned id) .A (copyAt 2040250 (twinFrame 0 6 0 [])) = true ∧ twinAccepted (twinned id) .A (copyAt 2039750 (twinFrame 0 6 0 [])) = true ∧
    twinAccepted (twinned id) .A (twinCopy frame0) = false ∧ twinAccepted (twinned id) .A (copyAt 2040251 (twinFrame 0 6 0 [])) = false ∧
    twinForm (twinned id) (copyAt 2040251 (twinFrame 0 6 0 [])) = true ∧ inSlot (twinDev (twinned id) (copyAt 2040251 (twinFrame 0 6 0 []))) = false ∧
    (twinFrame 1 6 0 []).epoch ≠ (twinned id).twin.epoch ∧
    twinAccepted (twinned id) .A (twinCopy (twinFrame 1 6 0 [])) = true ∧ (twinFrame 0 6 0 []).epoch = (twinned id).twin.epoch ∧
    twinAccepted (twinned id) .A (twinCopy (twinFrame 0 6 0 [])) = true ∧
    (twinFrame 0 6 0 []).flags.getLsbD 0 = true ∧ cycleImage (decided (twinned id)) = some (image 1) ∧
    (tFlags (twinFrame 0 6 0 [])).getLsbD 3 = false ∧ (ownTwin (twinned id) .C).loading = false ∧
    twinAccepted (twinned id) .C (twinCopy (twinFrame 0 6 0 [])) = true ∧ portDrops (twinned id) (twinFrame 0 6 0 []) = false ∧
    portDrops (twinned id) { twinFrame 0 6 0 [] with source := 1 } = true := by
  decide +kernel

/-! ### Witness: the last block of a load -/

/-- A TWIN frame with the last block of a load, sealed. -/
def loadFrame : Frame := { twinBare 0 6 0x18 (be 4 7783 ++ List.replicate 256 0) with code1 := 3211822892, code2 := 3714379144, fcs := 3911141204 }

theorem load_code1 : chain crc32c crc32c.init (le 4 17 ++ covered loadFrame)
    [2749822070, 3270603328, 1838130351, 26164453, 3136303952, 3641374552, 3220525463, 3407802626] = true := by decide +kernel
theorem load_code2 : chain crc32c crc32c.init (le 4 18 ++ covered loadFrame)
    [2457125296, 3996909656, 661063, 3741736529, 1272895126, 76273400, 2233860332, 3997751620] = true := by decide +kernel
theorem load_fcs : chain crc32 crc32.init (covered loadFrame ++ be 1 loadFrame.trailer.toNat ++ [0, 0, 0] ++ be 4 loadFrame.code1.toNat ++
    be 4 loadFrame.code2.toNat) [2655369294, 4286539499, 2860907334, 3945095283, 231541094, 1392121455, 3436242280, 713063265, 3575449448] = true := by
  decide +kernel

theorem load_fcsGood : fcsGood loadFrame = true := by
  have h := chain_run _ _ _ _ load_fcs
  have h2 : fcsOf loadFrame = 3911141204 := by unfold fcsOf crcOf; rw [h]; decide +kernel
  unfold fcsGood; rw [h2]; decide +kernel

theorem load_codes : moduleCodesOk 4 loadFrame = true := by
  have h1 : codeOf (4 * 4 + 1) loadFrame = 3211822892 := by unfold codeOf crcOf; rw [show 4 * 4 + 1 = 17 from rfl, chain_run _ _ _ _ load_code1]; decide +kernel
  have h2 : codeOf (4 * 4 + 2) loadFrame = 3714379144 := by unfold codeOf crcOf; rw [show 4 * 4 + 2 = 18 from rfl, chain_run _ _ _ _ load_code2]; decide +kernel
  have h3 : field loadFrame.trailer 3 0 = 9 := by decide +kernel
  have h4 : codeLanesOk loadFrame = true := by decide +kernel
  unfold moduleCodesOk
  simp only [h3, h4]
  rw [show ((4 : BitVec 30).toNat * 4 + 9 % 4) = 4 * 4 + 1 from rfl, show ((4 : BitVec 30).toNat * 4 + 9 / 4) = 4 * 4 + 2 from rfl, h1, h2]
  decide +kernel

theorem witness_TwinPair_block : twinAccepted (twinned id) .A (twinCopy loadFrame) = true ∧ loadFrame.epoch = (twinned id).twin.epoch ∧
    (tFlags loadFrame).getLsbD 3 = true ∧ loadFrame.flags.getLsbD 0 = true ∧
    payNat loadFrame (0x20 + 8 * tCount loadFrame) 4 % 8192 < 7784 := by
  refine ⟨?_, by decide +kernel, by decide +kernel, by decide +kernel, by decide +kernel⟩
  have hs : partnerSid (twinned id) = 4 := by decide +kernel
  have hf : (twinCopy loadFrame).frame = loadFrame := rfl
  unfold twinAccepted twinForm
  simp only [hf, load_fcsGood, hs, load_codes]
  decide +kernel

/-! ### Witnesses: the cycle, the registers, the whole module -/

theorem witness_CyclePhases : State.reset.mod.ticking = false ∧ (three .idle).mod.ticking = true ∧ (three .idle).mod.st ≠ .off ∧
    (three .idle).mod.restartTo = none ∧ ({ (three .idle).mod with restartTo := some 7 } : Module).restartTo = some 7 ∧ (three .input).mod.phase = .input ∧
    computes (three .input) .A = true ∧ laneVintage (three .input) .A ≠ none ∧ (three .input).twin.st ≠ .loading ∧ computes State.reset .A = false ∧
    (three .logic).mod.phase = .logic ∧ (three .vote).mod.phase = .vote ∧ (three .output).mod.phase = .output ∧
    (let s := modPort (hosted .svc3 .output) .p0 (fun x => { x with statusEn := true })
     (s.ports.get .p0).statusEn = true ∧ (s.ports.get .p0).linkUp = true ∧ ringRuns s .p0 = true ∧ (s.ports.get .p0).paused = false) := by
  decide +kernel

/-- At END_VOTE no image has come of a lane that reintegrates beside two that have decided. -/
theorem witness_CyclePhases_late :
    let s := sent (module .svc2 .vote .reintegrating .serving .serving) 1 1 1
    let late := modLane s .A (fun L => { L with link := { L.link with image := none } })
    (match exec (.vote ⟨lastDecision late, []⟩) late with
     | .next u => mayOverrun u .A && decide (lst u .A = .reintegrating) && incomplete u .A
     | _ => false) = true ∧
    (match exec (.vote ⟨lastDecision s, []⟩) s with
     | .next u => !(mayOverrun u .A && incomplete u .A)
     | _ => false) = true := by decide +kernel

/-- END_LOGIC of a cycle in which every Press has ended. -/
theorem witness_image :
    (match exec .endLogic (modLanes (three .logic) (fun _ L => { L with press := { L.press with active := true, done := some 5 } })) with
     | .next t => computes t .A && decide (laneVintage t .A = some vint) && doneInTime vint (lane t .A).press && ((lane t .A).link.rx.get .A).complete
     | _ => false) = true := by decide +kernel

theorem witness_RegisterWrites : throughRom (inRom .A none) ⟨some .p0, .A⟩ = true ∧ throughRom (three .input) ⟨some .p0, .A⟩ = false ∧
    throughRom (inRom .A none) ⟨none, .A⟩ = false ∧ romAnswers (inRom .A none) ⟨none, .A⟩ = true ∧ romAnswers State.reset ⟨none, .A⟩ = false ∧
    reaches State.reset ⟨none, .A⟩ = false ∧ throughRom State.reset ⟨none, .A⟩ = false ∧ reaches (three .input) ⟨some .p0, .A⟩ = true ∧
    (0x6FFD : BitVec 20).toNat % 4 ≠ 0 ∧ (0x6FFC : BitVec 20).toNat % 4 = 0 ∧ (0x6FFC : BitVec 20).toNat < 0x7000 ∧
    (2 : Word).getLsbD 1 = true ∧ mbxPort ⟨some .p0, .A⟩ = some .p0 ∧ ringRuns (three .input) .p0 = true ∧
    endpointUp (three .input) .p0 = true ∧ endpointUp State.reset .p0 = false ∧ (0x17FC : BitVec 13).toNat % 4 = 0 := by decide +kernel

theorem witness_StepRunsFront : ({ State.reset with pending := [.tick, .endInput] } : State).pending = .tick :: [.endInput] ∧ State.reset.pending = [] :=
  ⟨rfl, rfl⟩

theorem reset_inv : Inv State.reset :=
  ⟨fun l => by cases l <;> decide +kernel, fun l => by cases l <;> decide +kernel, Laws.TotalsUp.refl _, fun _ => rfl⟩

/-- A step from reset that keeps the queue's rest. -/
theorem witness_step : (match step { State.reset with pending := [.tick, .endInput] } with
    | .next t => decide (t.pending = [.endInput])
    | _ => false) = true := by decide +kernel

/-- A set latch that RESET_N clears. -/
theorem witness_LatchHeldUntilRestart : ((latchedB (three .input)).sluices.get .B).latch = true ∧
    (match exec .resetNLow (latchedB (three .input)) with
     | .next t => !(t.sluices.get .B).latch
     | _ => false) = true := by decide +kernel

/-- A retirement that an authorised clear ends. -/
theorem saved_retirements : retirementsSaved (retiredA .svc2).cellar := fun l => by cases l <;> rfl

theorem witness_TotalsAndRetirementStay : ((retiredA .svc2).cellar.life.lanes.get .A).retired = true ∧ authOk (retiredA .svc2) forged = false ∧
    (match exec (.retirementClear .A auth) (retiredA .svc2) with
     | .next t => !(t.cellar.life.lanes.get .A).retired
     | _ => false) = true := by decide +kernel

/-! ### Single commands -/

/-- A property of the state after a command. -/
def after (c : Instr) (s : State) (f : State → Bool) : Bool := match exec c s with | .next t => f t | _ => false

/-- R103: ADD saturates at 0xFFFF_FFFF and sets SAT. -/
theorem test_add_saturates :
    after (.add (word 0)) (withA (pressing (fun x => { x with acc := 0xFFFFFFFF })) (fun L => { L with press := { L.press with
      data := { L.press.data with w := [(0, 2)] } } }))
      (fun t => decide ((lane t .A).press.strands.s0.acc = 0xFFFFFFFF) && (lane t .A).press.strands.s0.sat) = true := by decide +kernel

/-- R103: SUB saturates at 0. -/
theorem test_sub_saturates :
    after (.sub (word 0)) (withA (pressing (fun x => { x with acc := 1 })) (fun L => { L with press := { L.press with
      data := { L.press.data with w := [(0, 2)] } } }))
      (fun t => decide ((lane t .A).press.strands.s0.acc = 0) && (lane t .A).press.strands.s0.sat) = true := by decide +kernel

/-- R100: TON at elapsed = preset gives output 1. -/
theorem test_ton_at_preset :
    after (.ton (word 0)) (timed true { runningTimer with out := false }) (fun t => (lane t .A).press.strands.s0.cog) = true := by decide +kernel

/-- R100: TON one unit before its preset gives output 0. -/
theorem test_ton_before_preset :
    after (.ton (word 0)) (timed true { runningTimer with out := false, start := 999000001 }) (fun t => !(lane t .A).press.strands.s0.cog) = true := by
  decide +kernel

/-- R80: a word written in a clock reads back in the next one. -/
theorem test_write_next_clock :
    after (.sw (word 7)) (pressing (fun x => { x with acc := 5 })) (fun s =>
      decide (sget (0 : Word) (lane s .A).press.data.w 7 = 0) &&
      after (.lw (word 7)) s (fun t => decide ((lane t .A).press.strands.s0.acc = 5))) = true := by decide +kernel

/-- R94: a word with another strand's number isolates the lane with cause MEMORY. -/
theorem test_strand_mismatch :
    after (.nop { word 0 with field := 2 }) atStart (fun t => decide (lst t .A = .isolated) && decide ((lane t .A).life.cause = .memory)) = true := by
  decide +kernel

/-- R104: CLOSE with operand 4 is an exclusive or. -/
theorem test_close_xor :
    after (.closeBranch (word 4)) (pressing (fun x => { x with cog := true, stack := [.expr true] })) (fun t => !(lane t .A).press.strands.s0.cog) = true := by
  decide +kernel

/-- R137: CALL_B commands a point to position B and clears its move fault. -/
theorem test_call_b :
    after (.callB .A) (decides (entry .ecmd 0 1) (withElem 0 { pointA with moveFault := true })) (fun t =>
      decide ((elemOf (lane t .A).raa 0).commanded = 2) && !(elemOf (lane t .A).raa 0).moveFault) = true := by decide +kernel

/-- R26, R170: the third lane that dissents leaves a pair in SERVICE_2oo2. -/
theorem test_vote_dissent :
    after (.vote ⟨5, []⟩) (sent (three .vote) 1 2 1) (fun t => decide (lst t .B = .isolated) && decide (t.mod.st = .svc2) &&
      decide (t.mod.result = some (image 1))) = true := by decide +kernel

/-- R170, R176: a pair that disagrees is SAFE, with every latch set. -/
theorem test_vote_pair :
    after (.vote ⟨5, []⟩) (sent (pair .vote .isolated) 1 2 1) (fun t => decide (t.mod.st = .safe) && (t.sluices.get .C).latch &&
      decide ((t.sluices.get .A).latchCause = .pairDisagree)) = true := by decide +kernel

/-- R26: the fourth counted isolation in 24 h retires the lane. -/
theorem test_fourth_isolation_retires :
    after (.eccUncorrectable ⟨.A, []⟩) (modLife (three .logic) (fun f => { f with lanes := f.lanes.set .A { (f.lanes.get .A) with
      stamps := [999999999, 999999998, 999999997] } })) (fun t => decide (lst t .A = .retired)) = true := by decide +kernel

/-- R306, R307: the HMAC of FIPS 180-4 and RFC 2104 on RFC 4231's second case. -/
theorem test_hmac : hmacSha256 [0x4A, 0x65, 0x66, 0x65] [0x77, 0x68, 0x61, 0x74, 0x20, 0x64, 0x6F, 0x20, 0x79, 0x61, 0x20, 0x77, 0x61, 0x6E, 0x74, 0x20, 0x66,
    0x6F, 0x72, 0x20, 0x6E, 0x6F, 0x74, 0x68, 0x69, 0x6E, 0x67, 0x3F] = be 32 0x5BDCC146BF60754E6A042426089575C75A003F089D2739839DEC58B964EC3843 := by
  decide +kernel

end Sys2Proof.Tests
end

/-! ## Register writes without a command of their own (R10, R295, R298, R299, R451) -/

namespace Sys2Proof.Laws

open Sys2Proof Sys2Proof.Machine Sys2Proof.Safety

/-! ### A command whose whole effect is one lane's data, or one port's -/

/-- What a command that changes one lane leaves: its frame, the new data of that lane, every other lane. -/
theorem modLane_effect {i : Instr} {s : State} {l : Lane} {f : LaneState → LaneState} {ps : List Part}
    (he : exec i s = .next (modLane s l f)) (hf : laneOnly ps (lane s l) (f (lane s l))) :
    ∃ t, exec i s = .next t ∧ changesOnly ps s t ∧ lane t l = f (lane s l) ∧ ∀ m, m ≠ l → lane t m = lane s m :=
  ⟨_, he, changes_modLane l f hf (changesOnly_refl _ _), lane_modLane_self s l f, fun _ h => lane_modLane_other s f h⟩

/-- A change of one port shows at that port alone. -/
theorem ports_get_modPort (s : State) (p q : Port) (f : PortState → PortState) :
    (modPort s p f).ports.get q = if p = q then f (s.ports.get q) else s.ports.get q := by
  cases p <;> cases q <;> rfl

/-- What a command that changes one port leaves: its frame, the new data of that port, the other port. -/
theorem modPort_effect {i : Instr} {s : State} {p : Port} {f : PortState → PortState} (he : exec i s = .next (modPort s p f)) :
    ∃ t, exec i s = .next t ∧ changesOnly [.ports] s t ∧ t.ports.get p = f (s.ports.get p) ∧
      t.ports.get p.other = s.ports.get p.other := by
  refine ⟨_, he, changes_modPort p f rfl (changesOnly_refl _ _), ?_, ?_⟩
  · rw [ports_get_modPort, if_pos rfl]
  · rw [ports_get_modPort, if_neg (by cases p <;> decide)]

theorem laneOnly_boot (L : LaneState) (b : Boot) : laneOnly [.boot] L { L with boot := b } := by
  intro p hp
  cases p <;> simp_all [sameLane]

theorem laneOnly_sessSel (L : LaneState) (i : BitVec 10) : laneOnly [.sessions] L { L with sessSel := i } := by
  intro p hp
  cases p <;> simp_all [sameLane]

theorem laneOnly_fld (L : LaneState) (x : LaneFld) : laneOnly [.fieldIn] L { L with fld := x } := by
  intro p hp
  cases p <;> simp_all [sameLane]

theorem laneOnly_cel (L : LaneState) (x : CelLane) : laneOnly [.staging] L { L with cel := x } := by
  intro p hp
  cases p <;> simp_all [sameLane]

/-- An access that is not aligned counts at the port it came through (R299). -/
theorem accessErr_countAccess (s : State) (a : RegAccess) (p : Port) : ((countAccess s a).ports.get p).accessErr =
    if a.port = some p then satInc (s.ports.get p).accessErr else (s.ports.get p).accessErr := by
  unfold countAccess
  cases a.port with
  | none => rfl
  | some q =>
    simp only [ports_get_modPort, Option.some.injEq]
    split <;> rfl

/-- The written upper half of a 64-bit register stands above its lower half. -/
theorem toNat_putHalf_high (x : BitVec 64) (v : Word) : (putHalf x true v).toNat = x.toNat % 2 ^ 32 + 2 ^ 32 * v.toNat := by
  have hv := v.isLt
  simp only [putHalf, if_true, BitVec.toNat_ofNat]
  omega

/-! ### The registers that these writes set -/

section
variable (s : State) (v : Word)

theorem writeRom_len (l : Lane) :
    writeRom s l 0x108 v = modLane s l (fun L => { L with boot := { L.boot with romLen := v } }) := rfl

theorem writeRom_addrHigh (l : Lane) :
    writeRom s l 0x104 v = modLane s l (fun L => { L with boot := { L.boot with romAddr := putHalf L.boot.romAddr true v } }) := rfl

theorem writeWindow_sessSel (a : RegAccess) :
    writeWindow s a 0x4028 v = modLane s a.lane (fun L => { L with sessSel := v.setWidth 10 }) := rfl

theorem writeWindow_outSel (a : RegAccess) :
    writeWindow s a 0x5024 v = modLane s a.lane (fun L => { L with fld := { L.fld with outSel := v.setWidth 4 } }) := rfl

theorem writeWindow_codeSel (a : RegAccess) :
    writeWindow s a 0x8028 v = modLane s a.lane (fun L => { L with cel := { L.cel with codeSel := v.setWidth 16 } }) := rfl

theorem writeMbx_ctrl (p : Port) : writeMbx s p 0x04 v =
    modPort s p (fun x => { x with statusEn := v.getLsbD 0, linkHold := BitVec.ofNat 10 (field v 25 16) }) := rfl

theorem writeMbx_ringSel (p : Port) : writeMbx s p 0x10 v = modPort s p (fun x => { x with ringSel := v.setWidth 5 }) := rfl

end

/-! ### Who answers a write to a lane window -/

/-- No recovery ROM takes the access: neither through the lane's own port nor from its service core (R451). -/
def pastRom (s : State) (a : RegAccess) : Prop := throughRom s a = false ∧ (a.port ≠ none ∨ romAnswers s a = false)

section
variable {s : State} {a : RegAccess} (v : Word)

theorem exec_windowWrite_ownRom (h : throughRom s a = true) (o : BitVec 20) :
    exec (.registerWrite a (.window o) v) s = .next (writeRom s a.lane o.toNat v) := by
  simp only [exec, execRegisterWrite, h, if_true]

theorem exec_windowWrite_coreRom (h : throughRom s a = false) (hp : a.port = none) (hr : romAnswers s a = true) (o : BitVec 20) :
    exec (.registerWrite a (.window o) v) s = .next (writeRom s a.lane (o.toNat - 0x9000) v) := by
  simp [exec, execRegisterWrite, h, hp, hr]

/-- Past the ROM, a write answers by whether the lane is reached and by the alignment (R299). -/
theorem exec_windowWrite_pastRom (h : pastRom s a) (o : BitVec 20) :
    exec (.registerWrite a (.window o) v) s = .next (if !reaches s a then s
      else if o.toNat % 4 ≠ 0 then countAccess s a else writeWindow s a o.toNat v) := by
  obtain ⟨hr, hc⟩ := h
  have hno : ¬ (a.port = none ∧ romAnswers s a = true) := fun ⟨hp, ha⟩ => hc.elim (· hp) (fun hf => by simp [hf] at ha)
  simp only [exec, execRegisterWrite, hr, if_neg hno, Bool.false_eq_true, if_false]

/-- An aligned write that reaches its lane writes the register at that offset. -/
theorem exec_windowWrite_at (h : pastRom s a) (hl : reaches s a = true) {n : Nat} (hn : n < 2 ^ 20) (hal : n % 4 = 0) :
    exec (.registerWrite a (.window (BitVec.ofNat 20 n)) v) s = .next (writeWindow s a n v) := by
  have ho : (BitVec.ofNat 20 n).toNat = n := by rw [BitVec.toNat_ofNat, Nat.mod_eq_of_lt hn]
  rw [exec_windowWrite_pastRom v h, ho]
  simp [hl, hal]

end

/-! ### The blocks of a lane window (R298) -/

section
variable (s : State) (a : RegAccess) (v : Word)

/-- Away from the three selectors, the block decides. -/
theorem writeWindow_block {n : Nat} (h1 : n ≠ 0x4028) (h2 : n ≠ 0x5024) (h3 : n ≠ 0x8028) : writeWindow s a n v =
    if n / 0x1000 = 7 then (match mbxPort a with | some p => if ringRuns s p then writeMbx s p (n % 0x1000) v else s | none => s)
    else if 0x10000 ≤ n ∧ n < 0x20000 then writeEic s a (n - 0x10000) v
    else if 0x20000 ≤ n ∧ n < 0x30000 then writeChk s a (n - 0x20000) v
    else s := by
  unfold writeWindow
  split
  · exact absurd rfl h1
  · exact absurd rfl h2
  · exact absurd rfl h3
  · rfl

/-- The blocks LANE to PWR are read only, but for two selectors. -/
theorem writeWindow_readOnly {n : Nat} (hn : n < 0x7000) (h1 : n ≠ 0x4028) (h2 : n ≠ 0x5024) : writeWindow s a n v = s := by
  rw [writeWindow_block s a v h1 h2 (by omega), if_neg (by omega), if_neg (by omega), if_neg (by omega)]

/-- The MBX block is that of the port that the access sees. -/
theorem writeWindow_mbx {p : Port} (hp : mbxPort a = some p) (hr : ringRuns s p = true) {off : Nat} (ho : off < 0x1000) :
    writeWindow s a (0x7000 + off) v = writeMbx s p off v := by
  rw [writeWindow_block s a v (by omega) (by omega) (by omega), if_pos (by omega), hp]
  simp only [hr, if_true]
  congr 1
  omega

/-- Word n of bitmap k of the EIC block (R369). -/
theorem writeWindow_eicMap {k : Nat} (hk : k < 12) (n : Fin 32) :
    writeWindow s a (0x11000 + 128 * k + 4 * n.val) v = writeEicMap s a k n v := by
  have hn := n.isLt
  rw [writeWindow_block s a v (by omega) (by omega) (by omega), if_neg (by omega), if_pos (by omega)]
  unfold writeEic
  rw [if_neg (by omega), if_pos (by omega)]
  congr 1
  · omega
  · exact Fin.ext (by dsimp only; omega)

/-- Word n of user context u in the CHK block (R398). -/
theorem writeWindow_user (u : Fin 64) {n : Nat} (hn : n < 16) :
    writeWindow s a (0x21000 + 64 * u.val + 4 * n) v = writeUser s a u n v := by
  have hu := u.isLt
  rw [writeWindow_block s a v (by omega) (by omega) (by omega), if_neg (by omega), if_neg (by omega), if_pos (by omega)]
  unfold writeChk
  rw [if_pos (by omega)]
  congr 1
  · exact Fin.ext (by dsimp only; omega)
  · omega

end

/-! ### The clauses of the statement -/

section
variable {s : State} {a : RegAccess} (v : Word)

/-- The length of the image, wherever its register lies (R451). -/
theorem romLen_written {o : BitVec 20} (he : exec (.registerWrite a (.window o) v) s = .next (writeRom s a.lane 0x108 v)) :
    ∃ t, exec (.registerWrite a (.window o) v) s = .next t ∧ changesOnly [.boot] s t ∧
      (lane t a.lane).boot = { (lane s a.lane).boot with romLen := v } ∧ ∀ m, m ≠ a.lane → lane t m = lane s m := by
  rw [writeRom_len] at he
  obtain ⟨t, hx, hc, hl, ho⟩ := modLane_effect he (laneOnly_boot _ _)
  exact ⟨t, hx, hc, by rw [hl], ho⟩

/-- The upper half of the image's address (R451). -/
theorem romAddr_high_written {o : BitVec 20} (he : exec (.registerWrite a (.window o) v) s = .next (writeRom s a.lane 0x104 v)) :
    ∃ t, exec (.registerWrite a (.window o) v) s = .next t ∧ changesOnly [.boot] s t ∧
      (lane t a.lane).boot.romAddr.toNat = (lane s a.lane).boot.romAddr.toNat % 2 ^ 32 + 2 ^ 32 * v.toNat := by
  rw [writeRom_addrHigh] at he
  obtain ⟨t, hx, hc, hl, -⟩ := modLane_effect he (laneOnly_boot _ _)
  exact ⟨t, hx, hc, by rw [hl]; exact toNat_putHalf_high _ v⟩

variable (h : pastRom s a)
include h

theorem windowWrite_unreached (hl : reaches s a = false) (o : BitVec 20) : exec (.registerWrite a (.window o) v) s = .next s := by
  rw [exec_windowWrite_pastRom v h, hl]
  rfl

theorem windowWrite_unaligned (hl : reaches s a = true) {o : BitVec 20} (ho : o.toNat % 4 ≠ 0) :
    ∃ t, exec (.registerWrite a (.window o) v) s = .next t ∧ changesOnly [.ports] s t ∧ ∀ p, (t.ports.get p).accessErr =
      (if a.port = some p then satInc (s.ports.get p).accessErr else (s.ports.get p).accessErr) := by
  refine ⟨countAccess s a, ?_, chg_countAccess s a rfl (changesOnly_refl _ _), accessErr_countAccess s a⟩
  rw [exec_windowWrite_pastRom v h]
  simp [hl, ho]

variable (hl : reaches s a = true)
include hl

theorem windowWrite_readOnly {o : BitVec 20} (hal : o.toNat % 4 = 0) (ho : o.toNat < 0x7000) (h1 : o.toNat ≠ 0x4028)
    (h2 : o.toNat ≠ 0x5024) : exec (.registerWrite a (.window o) v) s = .next s := by
  have he := exec_windowWrite_at v h hl o.isLt hal
  rwa [BitVec.ofNat_toNat, BitVec.setWidth_eq, writeWindow_readOnly s a v ho h1 h2] at he

theorem windowWrite_sessSel : ∃ t, exec (.registerWrite a (.window 0x4028) v) s = .next t ∧ changesOnly [.sessions] s t ∧
    lane t a.lane = { lane s a.lane with sessSel := v.setWidth 10 } ∧ ∀ m, m ≠ a.lane → lane t m = lane s m := by
  have he := exec_windowWrite_at v h hl (n := 0x4028) (by decide) rfl
  rw [writeWindow_sessSel] at he
  exact modLane_effect he (laneOnly_sessSel _ _)

theorem windowWrite_outSel : ∃ t, exec (.registerWrite a (.window 0x5024) v) s = .next t ∧ changesOnly [.fieldIn] s t ∧
    (lane t a.lane).fld = { (lane s a.lane).fld with outSel := v.setWidth 4 } ∧ ∀ m, m ≠ a.lane → lane t m = lane s m := by
  have he := exec_windowWrite_at v h hl (n := 0x5024) (by decide) rfl
  rw [writeWindow_outSel] at he
  obtain ⟨t, hx, hc, hn, ho⟩ := modLane_effect he (laneOnly_fld _ _)
  exact ⟨t, hx, hc, by rw [hn], ho⟩

theorem windowWrite_codeSel : ∃ t, exec (.registerWrite a (.window 0x8028) v) s = .next t ∧ changesOnly [.staging] s t ∧
    (lane t a.lane).cel = { (lane s a.lane).cel with codeSel := v.setWidth 16 } ∧ ∀ m, m ≠ a.lane → lane t m = lane s m := by
  have he := exec_windowWrite_at v h hl (n := 0x8028) (by decide) rfl
  rw [writeWindow_codeSel] at he
  obtain ⟨t, hx, hc, hn, ho⟩ := modLane_effect he (laneOnly_cel _ _)
  exact ⟨t, hx, hc, by rw [hn], ho⟩

/-- A word of an EIC bitmap is written through its own command. -/
theorem exec_windowWrite_eicMap {k : Nat} (hk : k < 12) (n : Fin 32) :
    exec (.registerWrite a (.window (BitVec.ofNat 20 (0x11000 + 128 * k + 4 * n.val))) v) s = .next (writeEicMap s a k n v) := by
  rw [exec_windowWrite_at v h hl (by omega) (by omega), writeWindow_eicMap s a v hk]

/-- A word of a user context is written through its own command. -/
theorem exec_windowWrite_user (u : Fin 64) {n : Nat} (hn : n < 16) :
    exec (.registerWrite a (.window (BitVec.ofNat 20 (0x21000 + 64 * u.val + 4 * n))) v) s = .next (writeUser s a u n v) := by
  rw [exec_windowWrite_at v h hl (by omega) (by omega), writeWindow_user s a v u hn]

theorem windowWrite_eicMaps (n : Fin 32) :
    exec (.registerWrite a (.window (BitVec.ofNat 20 (0x11000 + 4 * n.val))) v) s = exec (.eicEnableSet a n v) s ∧
    exec (.registerWrite a (.window (BitVec.ofNat 20 (0x11080 + 4 * n.val))) v) s = exec (.eicEnableClr a n v) s ∧
    exec (.registerWrite a (.window (BitVec.ofNat 20 (0x11100 + 4 * n.val))) v) s = exec (.eicPendingSet a n v) s ∧
    exec (.registerWrite a (.window (BitVec.ofNat 20 (0x11180 + 4 * n.val))) v) s = exec (.eicPendingClr a n v) s :=
  ⟨exec_windowWrite_eicMap v h hl (k := 0) (by decide) n, exec_windowWrite_eicMap v h hl (k := 1) (by decide) n,
    exec_windowWrite_eicMap v h hl (k := 2) (by decide) n, exec_windowWrite_eicMap v h hl (k := 3) (by decide) n⟩

theorem windowWrite_userWords (u : Fin 64) :
    exec (.registerWrite a (.window (BitVec.ofNat 20 (0x21000 + 64 * u.val))) v) s = exec (.chkUCtrl a u v) s ∧
    exec (.registerWrite a (.window (BitVec.ofNat 20 (0x21020 + 64 * u.val))) v) s = exec (.chkURun a u false v) s ∧
    exec (.registerWrite a (.window (BitVec.ofNat 20 (0x21024 + 64 * u.val))) v) s = exec (.chkURun a u true v) s ∧
    (v.getLsbD 1 = true →
      exec (.registerWrite a (.window (BitVec.ofNat 20 (0x2103C + 64 * u.val))) v) s = exec (.chkClose a u (v.getLsbD 0)) s) := by
  have at_word : ∀ {n : Nat} (_ : n < 16) {o : Nat} (_ : o = 0x21000 + 64 * u.val + 4 * n),
      exec (.registerWrite a (.window (BitVec.ofNat 20 o)) v) s = .next (writeUser s a u n v) :=
    fun hn _ ho => ho ▸ exec_windowWrite_user v h hl u hn
  refine ⟨at_word (n := 0) (by decide) (by omega), at_word (n := 8) (by decide) (by omega),
    at_word (n := 9) (by decide) (by omega), fun hclose => ?_⟩
  rw [at_word (n := 15) (by decide) (by omega)]
  simp only [writeUser, writeUserCmd, hclose, if_true]
  rfl

theorem windowWrite_mbx {p : Port} (hp : mbxPort a = some p) (hr : ringRuns s p = true) :
    (∃ t, exec (.registerWrite a (.window 0x7004) v) s = .next t ∧ changesOnly [.ports] s t ∧
      t.ports.get p = { s.ports.get p with statusEn := v.getLsbD 0, linkHold := BitVec.ofNat 10 (field v 25 16) }) ∧
    ∃ t, exec (.registerWrite a (.window 0x7010) v) s = .next t ∧ changesOnly [.ports] s t ∧
      t.ports.get p = { s.ports.get p with ringSel := v.setWidth 5 } := by
  have at_word : ∀ {off : Nat} (_ : off < 0x1000) (_ : off % 4 = 0),
      exec (.registerWrite a (.window (BitVec.ofNat 20 (0x7000 + off))) v) s = .next (writeMbx s p off v) := fun hlt hal => by
    rw [exec_windowWrite_at v h hl (by omega) (by omega), writeWindow_mbx s a v hp hr hlt]
  have hctrl := at_word (off := 0x04) (by decide) rfl
  have hring := at_word (off := 0x10) (by decide) rfl
  rw [writeMbx_ctrl] at hctrl
  rw [writeMbx_ringSel] at hring
  obtain ⟨t, hx, hc, hn, -⟩ := modPort_effect hctrl
  obtain ⟨u, kx, kc, kn, -⟩ := modPort_effect hring
  exact ⟨⟨t, hx, hc, hn⟩, u, kx, kc, kn⟩

end

/-! ### BAR2 -/

section
variable {s : State} {a : RegAccess} (v : Word)

/-- BAR2 is not there for the service core, nor while the endpoint of its port is down (R295, R503). -/
theorem bar2Write_unanswered (h : a.port = none ∨ ∃ p, a.port = some p ∧ endpointUp s p = false) (o : BitVec 13) :
    exec (.registerWrite a (.bar2 o) v) s = .next s := by
  obtain hn | ⟨p, hp, hd⟩ := h
  · simp only [exec, execRegisterWrite, hn]
  · simp [exec, execRegisterWrite, hp, hd]

theorem bar2Write_aligned {p : Port} (hp : a.port = some p) (hu : endpointUp s p = true) {o : BitVec 13} (ho : o.toNat % 4 = 0) :
    exec (.registerWrite a (.bar2 o) v) s = .next (modPort s p (writeBar2 o v)) := by
  simp [exec, execRegisterWrite, hp, hu, ho]

end

/-- Settles O54: who answers the write decides first (the recovery ROM, no one, the lane), then the block of the offset. -/
theorem registerWrites : Obligations.RegisterWrites := by
  intro a v s
  refine ⟨fun h => ⟨?_, ?_⟩, fun h hp hr => ?_, fun h hc hl => windowWrite_unreached v ⟨h, hc⟩ hl, fun h hc hl => ?_,
    fun o h => bar2Write_unanswered v h o, fun p hp hu o ho => modPort_effect (bar2Write_aligned v hp hu ho)⟩
  · exact romLen_written v (exec_windowWrite_ownRom v h 0x108)
  · exact romAddr_high_written v (exec_windowWrite_ownRom v h 0x104)
  · exact romLen_written v (exec_windowWrite_coreRom v h hp hr 0x9108)
  · have past : pastRom s a := ⟨h, hc⟩
    exact ⟨fun _ ho => windowWrite_unaligned v past hl ho, fun _ hal ho h1 h2 => windowWrite_readOnly v past hl hal ho h1 h2,
      windowWrite_sessSel v past hl, windowWrite_outSel v past hl, windowWrite_codeSel v past hl, windowWrite_eicMaps v past hl,
      windowWrite_userWords v past hl, fun _ hp hr => windowWrite_mbx v past hl hp hr⟩

end Sys2Proof.Laws

/-! ## What every command keeps, and what a reset of the module leaves (R14, R28, R418, R484) -/

namespace Sys2Proof.Laws

open Sys2Proof Sys2Proof.Machine Sys2Proof.Safety

/-! ### What every command keeps (R14, R28, R418) -/

/-- The command resets the whole module where its rule lets it: a supply, RESET_N, an authorised restart, or the restart that a tick
carries out (R14, R484, R493). -/
def resetsModule (c : Instr) (s : State) : Bool :=
  match c with
  | .vdd3v3Reset => true
  | .ioAnaReset => true
  | .resetNLow => true
  | .restart a _ => authOk s a
  | .tick => s.mod.restartTo.isSome
  | _ => false

/-- The command may end a lane's retirement: an authorised clear, or a reset of the module (R28). -/
def clearsRetirement (c : Instr) (s : State) : Bool :=
  match c with
  | .retirementClear _ a => authOk s a
  | c => resetsModule c s

theorem harnal_refused {s : State} {a : Auth} (h : authOk s a = false) (kind item : Nat) (f : State → State) : harnal s a kind item f = s := by
  unfold harnal
  rw [h]
  rfl

theorem harnal_taken {s : State} {a : Auth} (h : authOk s a = true) (kind item : Nat) (f : State → State) :
    harnal s a kind item f = f (recordMaint (takeNonce s a) kind item a) := by
  unfold harnal
  rw [h]
  rfl

theorem keeps_tick (s : State) :
    Keeps (resetsModule .tick s) (clearsRetirement .tick s) s (thenState s (exec .tick s)) := by
  show Keeps s.mod.restartTo.isSome s.mod.restartTo.isSome s (thenState s (execTick s))
  cases e : s.mod.restartTo with
  | some n => exact keeps_execTick s s (Keeps.refl ..)
  | none =>
    unfold execTick
    rw [e]
    dsimp only [thenState]
    split
    · exact Keeps.refl ..
    · exact keeps_tickOn s (Keeps.refl ..)

theorem keeps_restart (a : Auth) (n : Word) (s : State) :
    Keeps (resetsModule (.restart a n) s) (clearsRetirement (.restart a n) s) s (thenState s (exec (.restart a n) s)) := by
  show Keeps (authOk s a) (authOk s a) s (thenState s (execRestart a n s))
  cases e : authOk s a with
  | true => exact keeps_execRestart a n s s (Keeps.refl ..)
  | false =>
    unfold execRestart
    rw [harnal_refused e]
    dsimp only [thenState]
    split <;> exact Keeps.refl ..

theorem keeps_retirementClear (l : Lane) (a : Auth) (s : State) :
    Keeps (resetsModule (.retirementClear l a) s) (clearsRetirement (.retirementClear l a) s) s
      (thenState s (exec (.retirementClear l a) s)) := by
  show Keeps false (authOk s a) s (thenState s (execRetirementClear l a s))
  cases e : authOk s a with
  | true => exact keeps_execRetirementClear l a s s (Keeps.refl ..)
  | false =>
    unfold execRetirementClear
    rw [harnal_refused e]
    dsimp only [thenState]
    split <;> exact Keeps.refl ..

/-- Every command keeps what its row says, by the law of its meaning. -/
theorem keeps_exec : ∀ (c : Instr) (s : State), Keeps (resetsModule c s) (clearsRetirement c s) s (thenState s (exec c s))
  | .resetRelease .., s => keeps_execResetRelease _ s s (Keeps.refl ..)
  | .vdd3v3Reset, s => keeps_execVdd3v3Reset s s (Keeps.refl ..)
  | .rail3v3Warn .., s => keeps_execRail3v3Warn _ s s (Keeps.refl ..)
  | .v3WarnRelease, s => keeps_execV3WarnRelease s s (Keeps.refl ..)
  | .coreRailWarn .., s => keeps_execCoreRailWarn _ _ s s (Keeps.refl ..)
  | .coreWarnRelease .., s => keeps_execCoreWarnRelease _ s s (Keeps.refl ..)
  | .coreRailReset .., s => keeps_execCoreRailReset _ s s (Keeps.refl ..)
  | .ioAnaReset, s => keeps_execIoAnaReset s s (Keeps.refl ..)
  | .resetNLow, s => keeps_execResetNLow s s (Keeps.refl ..)
  | .clockLoss .., s => keeps_execClockLoss _ s s (Keeps.refl ..)
  | .clockRestored .., s => keeps_execClockRestored _ s s (Keeps.refl ..)
  | .fwWatchdog .., s => keeps_execFwWatchdog _ s s (Keeps.refl ..)
  | .eccUncorrectable .., s => keeps_execEccUncorrectable _ s s (Keeps.refl ..)
  | .perstN .., s => keeps_execPerstN _ s s (Keeps.refl ..)
  | .linkDown .., s => keeps_execLinkDown _ s s (Keeps.refl ..)
  | .linkUp .., s => keeps_execLinkUp _ _ s s (Keeps.refl ..)
  | .holdExpired .., s => keeps_execHoldExpired _ s s (Keeps.refl ..)
  | .bootFailed .., s => keeps_execBootFailed _ s s (Keeps.refl ..)
  | .firmwareStart .., s => keeps_execFirmwareStart _ s s (Keeps.refl ..)
  | .laneTestDone .., s => keeps_execLaneTestDone _ _ _ s s (Keeps.refl ..)
  | .bootLimit, s => keeps_execBootLimit s s (Keeps.refl ..)
  | .tick, s => keeps_tick s
  | .endInput, s => keeps_execEndInput s s (Keeps.refl ..)
  | .endLogic, s => keeps_execEndLogic s s (Keeps.refl ..)
  | .endVote, s => keeps_execEndVote s s (Keeps.refl ..)
  | .endOutput, s => keeps_execEndOutput s s (Keeps.refl ..)
  | .ld .., s => keeps_execLd _ _ s s (Keeps.refl ..)
  | .ldn .., s => keeps_execLdn _ _ s s (Keeps.refl ..)
  | .andBit .., s => keeps_execAndBit _ _ s s (Keeps.refl ..)
  | .andnBit .., s => keeps_execAndnBit _ _ s s (Keeps.refl ..)
  | .orBit .., s => keeps_execOrBit _ _ s s (Keeps.refl ..)
  | .ornBit .., s => keeps_execOrnBit _ _ s s (Keeps.refl ..)
  | .xorBit .., s => keeps_execXorBit _ _ s s (Keeps.refl ..)
  | .st .., s => keeps_execSt _ _ s s (Keeps.refl ..)
  | .setBit .., s => keeps_execSetBit _ _ s s (Keeps.refl ..)
  | .rstBit .., s => keeps_execRstBit _ _ s s (Keeps.refl ..)
  | .edgp .., s => keeps_execEdgp _ s s (Keeps.refl ..)
  | .edgn .., s => keeps_execEdgn _ s s (Keeps.refl ..)
  | .ton .., s => keeps_execTon _ s s (Keeps.refl ..)
  | .tof .., s => keeps_execTof _ s s (Keeps.refl ..)
  | .tp .., s => keeps_execTp _ s s (Keeps.refl ..)
  | .trs .., s => keeps_execTrs _ s s (Keeps.refl ..)
  | .ctu .., s => keeps_execCtu _ s s (Keeps.refl ..)
  | .ctd .., s => keeps_execCtd _ s s (Keeps.refl ..)
  | .crs .., s => keeps_execCrs _ s s (Keeps.refl ..)
  | .cld .., s => keeps_execCld _ s s (Keeps.refl ..)
  | .lw .., s => keeps_execLw _ s s (Keeps.refl ..)
  | .sw .., s => keeps_execSw _ s s (Keeps.refl ..)
  | .li .., s => keeps_execLi _ s s (Keeps.refl ..)
  | .lih .., s => keeps_execLih _ s s (Keeps.refl ..)
  | .add .., s => keeps_execAdd _ s s (Keeps.refl ..)
  | .sub .., s => keeps_execSub _ s s (Keeps.refl ..)
  | .cmpeq .., s => keeps_execCmpeq _ s s (Keeps.refl ..)
  | .cmpge .., s => keeps_execCmpge _ s s (Keeps.refl ..)
  | .cmplt .., s => keeps_execCmplt _ s s (Keeps.refl ..)
  | .wand .., s => keeps_execWand _ s s (Keeps.refl ..)
  | .wor .., s => keeps_execWor _ s s (Keeps.refl ..)
  | .tld .., s => keeps_execTld _ s s (Keeps.refl ..)
  | .cacc .., s => keeps_execCacc _ s s (Keeps.refl ..)
  | .xld .., s => keeps_execXld _ s s (Keeps.refl ..)
  | .rsld .., s => keeps_execRsld _ s s (Keeps.refl ..)
  | .satt .., s => keeps_execSatt _ s s (Keeps.refl ..)
  | .nop .., s => keeps_execNop _ s s (Keeps.refl ..)
  | .openBranch .., s => keeps_execOpenBranch _ s s (Keeps.refl ..)
  | .closeBranch .., s => keeps_execCloseBranch _ s s (Keeps.refl ..)
  | .jmp .., s => keeps_execJmp _ s s (Keeps.refl ..)
  | .jmpc .., s => keeps_execJmpc _ s s (Keeps.refl ..)
  | .jmpn .., s => keeps_execJmpn _ s s (Keeps.refl ..)
  | .call .., s => keeps_execCall _ s s (Keeps.refl ..)
  | .ret .., s => keeps_execRet _ s s (Keeps.refl ..)
  | .bar .., s => keeps_execBar _ s s (Keeps.refl ..)
  | .barRelease .., s => keeps_execBarRelease _ _ s s (Keeps.refl ..)
  | .endStrand .., s => keeps_execEndStrand _ s s (Keeps.refl ..)
  | .rreq .., s => keeps_execRreq _ s s (Keeps.refl ..)
  | .rcan .., s => keeps_execRcan _ s s (Keeps.refl ..)
  | .ecmd .., s => keeps_execEcmd _ s s (Keeps.refl ..)
  | .rreqDecision .., s => keeps_execRreqDecision _ s s (Keeps.refl ..)
  | .rcanDecision .., s => keeps_execRcanDecision _ s s (Keeps.refl ..)
  | .callA .., s => keeps_execCallA _ s s (Keeps.refl ..)
  | .callB .., s => keeps_execCallB _ s s (Keeps.refl ..)
  | .blockElem .., s => keeps_execBlockElem _ s s (Keeps.refl ..)
  | .unblockElem .., s => keeps_execUnblockElem _ s s (Keeps.refl ..)
  | .virtualSet .., s => keeps_execVirtualSet _ s s (Keeps.refl ..)
  | .virtualClear .., s => keeps_execVirtualClear _ s s (Keeps.refl ..)
  | .resetFault .., s => keeps_execResetFault _ s s (Keeps.refl ..)
  | .reProof .., s => keeps_execReProof _ s s (Keeps.refl ..)
  | .overlapRelease .., s => keeps_execOverlapRelease _ _ s s (Keeps.refl ..)
  | .cancelRelease .., s => keeps_execCancelRelease _ _ s s (Keeps.refl ..)
  | .setTimeout .., s => keeps_execSetTimeout _ _ s s (Keeps.refl ..)
  | .moveFault .., s => keeps_execMoveFault _ _ s s (Keeps.refl ..)
  | .vote .., s => keeps_execVote _ s s (Keeps.refl ..)
  | .uncaused .., s => keeps_execUncaused _ s s (Keeps.refl ..)
  | .checkBlock .., s => keeps_execCheckBlock _ _ s s (Keeps.refl ..)
  | .voteDigest .., s => keeps_execVoteDigest _ s s (Keeps.refl ..)
  | .overrun .., s => keeps_execOverrun _ s s (Keeps.refl ..)
  | .watchdog .., s => keeps_execWatchdog _ _ s s (Keeps.refl ..)
  | .linkTimeout .., s => keeps_execLinkTimeout _ s s (Keeps.refl ..)
  | .resetLine .., s => keeps_execResetLine _ _ s s (Keeps.refl ..)
  | .laneSwitchTest .., s => keeps_execLaneSwitchTest _ s s (Keeps.refl ..)
  | .switchTestReadback .., s => keeps_execSwitchTestReadback _ _ s s (Keeps.refl ..)
  | .laneSwitchCloseTest .., s => keeps_execLaneSwitchCloseTest _ _ _ s s (Keeps.refl ..)
  | .reinitialisation .., s => keeps_execReinitialisation _ _ s s (Keeps.refl ..)
  | .laneSync .., s => keeps_execLaneSync _ s s (Keeps.refl ..)
  | .stateTransfer .., s => keeps_execStateTransfer _ s s (Keeps.refl ..)
  | .transferVerified .., s => keeps_execTransferVerified _ _ s s (Keeps.refl ..)
  | .catchUp .., s => keeps_execCatchUp _ _ _ s s (Keeps.refl ..)
  | .laneJoin .., s => keeps_execLaneJoin _ s s (Keeps.refl ..)
  | .retirementClear .., s => keeps_retirementClear _ _ s
  | .composeFrame .., s => keeps_execComposeFrame _ _ _ s s (Keeps.refl ..)
  | .sync .., s => keeps_execSync _ s s (Keeps.refl ..)
  | .leftSync, s => keeps_execLeftSync s s (Keeps.refl ..)
  | .backupSync .., s => keeps_execBackupSync _ s s (Keeps.refl ..)
  | .coldStart .., s => keeps_execColdStart _ s s (Keeps.refl ..)
  | .listenTimeout .., s => keeps_execListenTimeout _ s s (Keeps.refl ..)
  | .silentTimeout, s => keeps_execSilentTimeout s s (Keeps.refl ..)
  | .coldStartT0, s => keeps_execColdStartT0 s s (Keeps.refl ..)
  | .corruptFrame .., s => keeps_execCorruptFrame _ _ s s (Keeps.refl ..)
  | .delayReq .., s => keeps_execDelayReq _ s s (Keeps.refl ..)
  | .delayResp .., s => keeps_execDelayResp _ _ _ s s (Keeps.refl ..)
  | .stationIn .., s => keeps_execStationIn _ _ _ s s (Keeps.refl ..)
  | .stationDropped .., s => keeps_execStationDropped _ _ s s (Keeps.refl ..)
  | .peer .., s => keeps_execPeer _ _ _ s s (Keeps.refl ..)
  | .peerTimeout .., s => keeps_execPeerTimeout _ _ s s (Keeps.refl ..)
  | .sessionClear .., s => keeps_execSessionClear _ _ s s (Keeps.refl ..)
  | .mediumWithdrawn .., s => keeps_execMediumWithdrawn _ _ _ s s (Keeps.refl ..)
  | .mediumReturned .., s => keeps_execMediumReturned _ _ s s (Keeps.refl ..)
  | .mediumClear .., s => keeps_execMediumClear _ _ _ s s (Keeps.refl ..)
  | .los .., s => keeps_execLos _ _ _ _ s s (Keeps.refl ..)
  | .crossingRefresh .., s => keeps_execCrossingRefresh _ s s (Keeps.refl ..)
  | .downstreamRefresh .., s => keeps_execDownstreamRefresh _ _ _ s s (Keeps.refl ..)
  | .upstreamRefresh .., s => keeps_execUpstreamRefresh _ _ s s (Keeps.refl ..)
  | .fieldTick, s => keeps_execFieldTick s s (Keeps.refl ..)
  | .fieldStreamLost .., s => keeps_execFieldStreamLost _ s s (Keeps.refl ..)
  | .localLost .., s => keeps_execLocalLost _ s s (Keeps.refl ..)
  | .localRecovered .., s => keeps_execLocalRecovered _ s s (Keeps.refl ..)
  | .crossingRecovered, s => keeps_execCrossingRecovered s s (Keeps.refl ..)
  | .moduleStop, s => keeps_execModuleStop s s (Keeps.refl ..)
  | .fieldFault .., s => keeps_execFieldFault _ s s (Keeps.refl ..)
  | .fieldFaultClear .., s => keeps_execFieldFaultClear _ s s (Keeps.refl ..)
  | .fieldDieStop, s => keeps_execFieldDieStop s s (Keeps.refl ..)
  | .inputSample .., s => keeps_execInputSample _ s s (Keeps.refl ..)
  | .pairFault .., s => keeps_execPairFault _ s s (Keeps.refl ..)
  | .testPulse .., s => keeps_execTestPulse _ _ _ s s (Keeps.refl ..)
  | .tpRecovered .., s => keeps_execTpRecovered _ s s (Keeps.refl ..)
  | .counterEdge .., s => keeps_execCounterEdge _ _ s s (Keeps.refl ..)
  | .offTest .., s => keeps_execOffTest _ s s (Keeps.refl ..)
  | .offTestEnd .., s => keeps_execOffTestEnd _ _ _ s s (Keeps.refl ..)
  | .onTest .., s => keeps_execOnTest _ s s (Keeps.refl ..)
  | .onTestEnd .., s => keeps_execOnTestEnd _ _ _ _ s s (Keeps.refl ..)
  | .terminalHighOff .., s => keeps_execTerminalHighOff _ s s (Keeps.refl ..)
  | .overload .., s => keeps_execOverload _ _ s s (Keeps.refl ..)
  | .short .., s => keeps_execShort _ s s (Keeps.refl ..)
  | .overTemp .., s => keeps_execOverTemp _ s s (Keeps.refl ..)
  | .overloadRetry .., s => keeps_execOverloadRetry _ _ s s (Keeps.refl ..)
  | .tripCountReset .., s => keeps_execTripCountReset _ s s (Keeps.refl ..)
  | .openWire .., s => keeps_execOpenWire _ s s (Keeps.refl ..)
  | .loadOkReturn .., s => keeps_execLoadOkReturn _ s s (Keeps.refl ..)
  | .outputRetireClear .., s => keeps_execOutputRetireClear _ _ s s (Keeps.refl ..)
  | .vfMeasure .., s => keeps_execVfMeasure _ _ s s (Keeps.refl ..)
  | .vfLatch .., s => keeps_execVfLatch _ s s (Keeps.refl ..)
  | .vfRecovered .., s => keeps_execVfRecovered _ s s (Keeps.refl ..)
  | .registerWrite .., s => keeps_execRegisterWrite _ _ _ s s (Keeps.refl ..)
  | .peerAccessTimeout p l w, s => keeps_execPeerAccessTimeout p l w s s (Keeps.refl ..)
  | .sqTailDoorbell .., s => keeps_execSqTailDoorbell _ _ _ s s (Keeps.refl ..)
  | .cqHeadDoorbell .., s => keeps_execCqHeadDoorbell _ _ _ s s (Keeps.refl ..)
  | .ringEnable .., s => keeps_execRingEnable _ _ _ _ s s (Keeps.refl ..)
  | .ringDisable .., s => keeps_execRingDisable _ _ _ s s (Keeps.refl ..)
  | .descriptorFetch .., s => keeps_execDescriptorFetch _ _ _ _ s s (Keeps.refl ..)
  | .routeRequest .., s => keeps_execRouteRequest _ _ _ s s (Keeps.refl ..)
  | .routeCancel .., s => keeps_execRouteCancel _ _ _ s s (Keeps.refl ..)
  | .elementCommand .., s => keeps_execElementCommand _ _ _ s s (Keeps.refl ..)
  | .stationAdmit .., s => keeps_execStationAdmit _ _ _ s s (Keeps.refl ..)
  | .imageRead .., s => keeps_execImageRead _ _ _ s s (Keeps.refl ..)
  | .cellarRead .., s => keeps_execCellarRead _ _ _ s s (Keeps.refl ..)
  | .cellarClear .., s => keeps_execCellarClear _ _ _ _ s s (Keeps.refl ..)
  | .stageProgram .., s => keeps_execStageProgram _ _ _ _ _ s s (Keeps.refl ..)
  | .vintageStaged .., s => keeps_execVintageStaged _ _ s s (Keeps.refl ..)
  | .stageFirmware .., s => keeps_execStageFirmware _ _ _ _ _ _ s s (Keeps.refl ..)
  | .imageBuildDone .., s => keeps_execImageBuildDone _ _ _ s s (Keeps.refl ..)
  | .rack .., s => keeps_execRack _ _ _ _ s s (Keeps.refl ..)
  | .vintageSwitch .., s => keeps_execVintageSwitch _ s s (Keeps.refl ..)
  | .previousExpired, s => keeps_execPreviousExpired s s (Keeps.refl ..)
  | .confirmParameters .., s => keeps_execConfirmParameters _ _ _ _ s s (Keeps.refl ..)
  | .timeSet .., s => keeps_execTimeSet _ _ _ s s (Keeps.refl ..)
  | .fence .., s => keeps_execFence _ _ _ s s (Keeps.refl ..)
  | .authExt .., s => keeps_execAuthExt _ _ _ s s (Keeps.refl ..)
  | .completionWrite .., s => keeps_execCompletionWrite _ s s (Keeps.refl ..)
  | .coalesceExpiry .., s => keeps_execCoalesceExpiry _ _ s s (Keeps.refl ..)
  | .dmaError .., s => keeps_execDmaError _ _ s s (Keeps.refl ..)
  | .dmaTimeout .., s => keeps_execDmaTimeout _ _ s s (Keeps.refl ..)
  | .twin .., s => keeps_execTwin _ _ s s (Keeps.refl ..)
  | .takeover, s => keeps_execTakeover s s (Keeps.refl ..)
  | .handoverRequest .., s => keeps_execHandoverRequest _ s s (Keeps.refl ..)
  | .handover, s => keeps_execHandover s s (Keeps.refl ..)
  | .loadStart, s => keeps_execLoadStart s s (Keeps.refl ..)
  | .loadFail, s => keeps_execLoadFail s s (Keeps.refl ..)
  | .loadRetry, s => keeps_execLoadRetry s s (Keeps.refl ..)
  | .loadRestart .., s => keeps_execLoadRestart _ s s (Keeps.refl ..)
  | .eventArrival .., s => keeps_execEventArrival _ _ s s (Keeps.refl ..)
  | .fallbackMove .., s => keeps_execFallbackMove _ _ s s (Keeps.refl ..)
  | .eicClaim .., s => keeps_execEicClaim _ _ s s (Keeps.refl ..)
  | .eicComplete .., s => keeps_execEicComplete _ _ _ s s (Keeps.refl ..)
  | .eicEnableSet .., s => keeps_execEicEnableSet _ _ _ s s (Keeps.refl ..)
  | .eicEnableClr .., s => keeps_execEicEnableClr _ _ _ s s (Keeps.refl ..)
  | .eicPendingSet .., s => keeps_execEicPendingSet _ _ _ s s (Keeps.refl ..)
  | .eicPendingClr .., s => keeps_execEicPendingClr _ _ _ s s (Keeps.refl ..)
  | .eicTargetH0Set .., s => keeps_execEicTargetH0Set _ _ _ s s (Keeps.refl ..)
  | .eicTargetH0Clr .., s => keeps_execEicTargetH0Clr _ _ _ s s (Keeps.refl ..)
  | .eicTargetH1Set .., s => keeps_execEicTargetH1Set _ _ _ s s (Keeps.refl ..)
  | .eicTargetH1Clr .., s => keeps_execEicTargetH1Clr _ _ _ s s (Keeps.refl ..)
  | .eicCompatPend .., s => keeps_execEicCompatPend _ _ _ s s (Keeps.refl ..)
  | .eicOvfClr .., s => keeps_execEicOvfClr _ _ _ s s (Keeps.refl ..)
  | .laneLogicPeak .., s => keeps_execLaneLogicPeak _ s s (Keeps.refl ..)
  | .laneRaaPeak .., s => keeps_execLaneRaaPeak _ s s (Keeps.refl ..)
  | .prsStackPeak .., s => keeps_execPrsStackPeak _ s s (Keeps.refl ..)
  | .raaHoldoverPeak .., s => keeps_execRaaHoldoverPeak _ s s (Keeps.refl ..)
  | .chkLoadPeak .., s => keeps_execChkLoadPeak _ s s (Keeps.refl ..)
  | .celStagePeak .., s => keeps_execCelStagePeak _ s s (Keeps.refl ..)
  | .chkInit .., s => keeps_execChkInit _ _ s s (Keeps.refl ..)
  | .chkClose .., s => keeps_execChkClose _ _ _ s s (Keeps.refl ..)
  | .chkURun .., s => keeps_execChkURun _ _ _ _ s s (Keeps.refl ..)
  | .chkUCtrl .., s => keeps_execChkUCtrl _ _ _ s s (Keeps.refl ..)
  | .engineSelfCheck .., s => keeps_execEngineSelfCheck _ _ s s (Keeps.refl ..)
  | .networkMismatch .., s => keeps_execNetworkMismatch _ s s (Keeps.refl ..)
  | .flush .., s => keeps_execFlush _ _ _ _ s s (Keeps.refl ..)
  | .bistDue .., s => keeps_execBistDue _ s s (Keeps.refl ..)
  | .bistStart .., s => keeps_execBistStart _ s s (Keeps.refl ..)
  | .bistEnd .., s => keeps_execBistEnd _ _ _ s s (Keeps.refl ..)
  | .bistOverdue .., s => keeps_execBistOverdue _ s s (Keeps.refl ..)
  | .bistRequest .., s => keeps_execBistRequest _ _ _ s s (Keeps.refl ..)
  | .keyInstall .., s => keeps_execKeyInstall _ _ _ s s (Keeps.refl ..)
  | .restart .., s => keeps_restart _ _ s
  | .updRomStart .., s => keeps_execUpdRomStart _ _ s s (Keeps.refl ..)
  | .servicePortRomImage .., s => keeps_execServicePortRomImage _ _ s s (Keeps.refl ..)
  | .romImageWritten .., s => keeps_execRomImageWritten _ _ s s (Keeps.refl ..)
  | .fieldDieStart, s => keeps_execFieldDieStart s s (Keeps.refl ..)
  | .firmwareSelfCheck .., s => keeps_execFirmwareSelfCheck _ s s (Keeps.refl ..)
  | .unalignedAccess p l w, s => keeps_execUnalignedAccess p l w s s (Keeps.refl ..)

end Sys2Proof.Laws

namespace Sys2Proof.Laws

open Sys2Proof Sys2Proof.Machine Sys2Proof.Safety

/-! ### An accepted request of Harnal (R307, R486) -/

/-- An accepted request is recorded, and its nonce taken. -/
theorem accepted_only (s : State) (a : Auth) (kind item : Nat) :
    changesOnly (records ++ [.lifetime]) s (recordMaint (takeNonce s a) kind item a) :=
  chg_recordMaint _ _ _ _ (by decide) (chg_takeNonce s a (by decide) (changesOnly_refl _ s))

theorem accepted_life (s : State) (a : Auth) (kind item : Nat) :
    (recordMaint (takeNonce s a) kind item a).cellar.life = { s.cellar.life with nonceLast := a.nonce } := by
  rw [((chg_recordMaint _ kind item a (by decide) (changesOnly_refl records (takeNonce s a))) .lifetime rfl).1]
  rfl

theorem keeps_accepted (s : State) (a : Auth) (kind item : Nat) : Keeps false false s (recordMaint (takeNonce s a) kind item a) :=
  keeps_recordMaint _ _ _ _ (keeps_takeNonce _ _ (Keeps.refl _ _ s))

/-! ### What a reset of the whole module leaves (R14, R28, R484) -/

/-- One lane's part of the retirement clears that take effect at a restart (R28). -/
def applyClear (s : State) (l : Lane) : State := if (lane s l).life.clearPending then clearRetirement s l else s

theorem clearRetirement_lanes (s : State) (l : Lane) : (clearRetirement s l).cellar.life.lanes =
    s.cellar.life.lanes.set l { s.cellar.life.lanes.get l with retired := false, stamps := [] } := by
  unfold clearRetirement
  rw [((chg_recordAll _ _ _ (by decide) (changesOnly_refl records _)) .lifetime rfl).1]
  rfl

theorem clearRetirement_lane (s : State) (l m : Lane) : (lane (clearRetirement s l) m).life = (lane s m).life :=
  life_eq (chg_clearRetirement s l (by decide) (changesOnly_refl (records ++ [.lifetime]) s)) rfl rfl m

theorem applyClear_lane (s : State) (l m : Lane) : (lane (applyClear s l) m).life = (lane s m).life := by
  unfold applyClear
  split
  · exact clearRetirement_lane s l m
  · rfl

theorem applyClear_retired (s : State) (l m : Lane) : ((applyClear s l).cellar.life.lanes.get m).retired =
    ((s.cellar.life.lanes.get m).retired && !(decide (m = l) && (lane s l).life.clearPending)) := by
  unfold applyClear
  by_cases e : m = l
  · subst e
    cases (lane s m).life.clearPending <;> simp [clearRetirement_lanes]
  · cases (lane s l).life.clearPending <;> simp [clearRetirement_lanes, get_set_other _ _ e, e]

theorem applyClears_retired (s : State) (l : Lane) : ((applyClears s).cellar.life.lanes.get l).retired =
    ((s.cellar.life.lanes.get l).retired && !(lane s l).life.clearPending) := by
  show ((applyClear (applyClear (applyClear s .A) .B) .C).cellar.life.lanes.get l).retired = _
  simp only [applyClear_retired, applyClear_lane]
  cases l <;> simp

theorem applyClears_only (s : State) : changesOnly (records ++ [.lifetime]) s (applyClears s) :=
  chg_applyClears s (by decide) (changesOnly_refl _ s)

theorem moduleReset_was (s : State) (m : ModSt) (cause : Nat) :
    ModuleWasReset s m (BitVec.ofNat 8 cause) (moduleReset s m cause) := by
  have hc := applyClears_only s
  have hl : ∀ l, lane (moduleReset s m cause) l = laneCold (lane (applyClears s) l) cause := fun l => get_map _ _ l
  refine ⟨⟨rfl, rfl⟩, fun l => ?_, fun l => ?_, fun l => ?_, rfl, fun hs l => ?_, ?_⟩
  · unfold lst
    rw [hl l]
    exact ⟨rfl, rfl, rfl, rfl, rfl, congrArg LaneLife.resetCause (life_eq hc rfl rfl l)⟩
  · rw [hl l, ← (hc .bank rfl).2 l]
    exact ⟨rfl, rfl⟩
  · cases l <;> exact ⟨rfl, rfl⟩
  · rw [← applyClears_retired]
    exact (keeps_applyClears s (Keeps.refl true true s)).saved hs l
  · have hf : (applyClears s).field = s.field := (hc .field rfl).1
    exact ⟨congrArg (fun f : Field => { f with downErr := 0 }) hf, (hc .hostMem rfl).1, (hc .bus rfl).1⟩

/-- The comparison of the parked slots changes the firmware slots alone (R446). -/
theorem lane_parkCompare (s : State) (l : Lane) : ∃ b, lane (parkCompare s) l = { lane s l with boot := b } :=
  ⟨_, lane_modLanes s l _⟩

theorem wasReset_parkCompare {s t : State} {m : ModSt} {cause : BitVec 8} (h : ModuleWasReset s m cause t) :
    ModuleWasReset s m cause (parkCompare t) where
  mode := h.mode
  lanes := fun l => by
    obtain ⟨b, hb⟩ := lane_parkCompare t l
    unfold lst
    rw [hb]
    exact h.lanes l
  stores := fun l => by
    obtain ⟨b, hb⟩ := lane_parkCompare t l
    rw [hb]
    exact h.stores l
  latches := h.latches
  bus := h.bus
  retired := h.retired
  stays := h.stays

theorem restartNow_was (s : State) (cause : Nat) : ModuleWasReset s .boot (BitVec.ofNat 8 cause) (restartNow s cause) :=
  wasReset_parkCompare (moduleReset_was s .boot cause)

/-! ### A requested restart (R484) -/

/-- The state that a requested restart resets: every lane has flushed its staging, and the vintage named stands in RESTART_INTO. -/
def flushedFor (s : State) (into : Word) : State :=
  let s1 := foldS Lane.list (fun s l => if runs s l then flushLane s l .power else s) s
  if into = 0 then s1 else modPages s1 [6] (fun f => { f with restartInto := into })

theorem requestedRestart_eq (s : State) (into : Word) :
    requestedRestart s into = restartNow (flushedFor s into) (if into = 0 then 0x04 else 0x0A) := rfl

theorem flushedFor_only (s : State) (into : Word) : changesOnly [.staging, .lifetime, .log] s (flushedFor s into) := by
  have h : changesOnly [.staging, .lifetime, .log] s (foldS Lane.list (fun s l => if runs s l then flushLane s l .power else s) s) := by
    refine changes_foldS _ _ (fun t l ht => ?_) (changesOnly_refl _ s)
    split
    · exact chg_flushLane t l .power (by decide) ht
    · exact ht
  unfold flushedFor
  dsimp only
  split
  · exact h
  · exact changes_modPages _ _ rfl rfl h

theorem keeps_flushedFor (s : State) (into : Word) : Keeps false false s (flushedFor s into) := by
  have h : Keeps false false s (foldS Lane.list (fun s l => if runs s l then flushLane s l .power else s) s) := by
    refine keeps_foldS _ _ (fun t l ht => ?_) (Keeps.refl _ _ s)
    split
    · exact keeps_flushLane t l .power ht
    · exact ht
  unfold flushedFor
  dsimp only
  split
  · exact h
  · exact keeps_modPages_at _ _ ⟨fun _ => laneTotalsUp_refl _, up_refl _, up_refl _, up_refl _, up_refl _, up_refl _, up_refl _,
      fun _ => up_refl _, up_refl _, up_refl _, up_refl _, fun _ => up_refl _, up_refl _, up_refl _, fun _ => up_refl _,
      fun _ => up_refl _, fun _ => up_refl _, fun _ => up_refl _, fun _ => up_refl _, up_refl _, up_refl _⟩ (fun _ => rfl) h

/-! ### Every command either keeps latches, totals and retirements, or resets the module -/

/-- From s to t the module has been reset into BOOT or OFF, after operations that keep latches, totals and retirements and no lane's life. -/
def resetFrom (s t : State) : Prop :=
  ∃ u m cause, Keeps false false s u ∧ (∀ l, (lane u l).life = (lane s l).life) ∧ (m = .boot ∨ m = .off) ∧ ModuleWasReset u m cause t

theorem resetFrom_supply (s : State) (cause : Nat) : resetFrom s (moduleReset s .off cause) :=
  ⟨s, .off, _, Keeps.refl _ _ s, fun _ => rfl, .inr rfl, moduleReset_was s .off cause⟩

theorem resetFrom_requested {s u : State} (hk : Keeps false false s u) (hl : ∀ l, (lane u l).life = (lane s l).life) (into : Word) :
    resetFrom s (requestedRestart u into) :=
  ⟨flushedFor u into, .boot, _, Keeps.trans hk (keeps_flushedFor u into),
    fun l => (life_eq (flushedFor_only u into) rfl rfl l).trans (hl l), .inl rfl, restartNow_was (flushedFor u into) _⟩

theorem restart_keeps_or_resets (a : Auth) (n : Word) (s : State) :
    Keeps false false s (thenState s (exec (.restart a n) s)) ∨ resetFrom s (thenState s (exec (.restart a n) s)) := by
  have hk := keeps_accepted s a 7 0
  show Keeps false false s (thenState s (execRestart a n s)) ∨ resetFrom s (thenState s (execRestart a n s))
  unfold execRestart thenState
  dsimp only
  by_cases off : s.mod.st = .off
  · rw [if_pos off]
    exact .inl (Keeps.refl _ _ s)
  rw [if_neg off]
  cases ha : authOk s a with
  | false => rw [harnal_refused ha]; exact .inl (Keeps.refl _ _ s)
  | true =>
    rw [harnal_taken ha]
    split
    · exact .inl hk
    · exact .inr (resetFrom_requested hk (life_eq (accepted_only s a 7 0) rfl rfl) n)

theorem tick_keeps_or_resets (s : State) (h : s.mod.restartTo.isSome = true) :
    Keeps false false s (thenState s (exec .tick s)) ∨ resetFrom s (thenState s (exec .tick s)) := by
  obtain ⟨n, hn⟩ := Option.isSome_iff_exists.1 h
  show Keeps false false s (thenState s (execTick s)) ∨ resetFrom s (thenState s (execTick s))
  unfold execTick thenState
  rw [hn]
  dsimp only
  split
  · exact .inl (Keeps.refl _ _ s)
  · have hu : Keeps false false s { s with mod := { s.mod with restartTo := none } } :=
      keeps_same (Keeps.refl _ _ s) rfl rfl rfl rfl rfl
    exact .inr (resetFrom_requested hu (fun _ => rfl) n)

/-- A reset that a module in reset ignores (R493). -/
theorem powered_keeps_or_resets {s r : State} (h : resetFrom s r) :
    Keeps false false s (if s.mod.st = .off then s else r) ∨ resetFrom s (if s.mod.st = .off then s else r) := by
  split
  · exact .inl (Keeps.refl _ _ s)
  · exact .inr h

/-- The commands that may reset the module, one by one (R14, R484, R493). -/
theorem resetsModule_cases {c : Instr} {s : State} (h : resetsModule c s = true) :
    c = .vdd3v3Reset ∨ c = .ioAnaReset ∨ c = .resetNLow ∨ (∃ a n, c = .restart a n ∧ authOk s a = true) ∨
      (c = .tick ∧ s.mod.restartTo.isSome = true) := by
  unfold resetsModule at h
  split at h
  · exact .inl rfl
  · exact .inr (.inl rfl)
  · exact .inr (.inr (.inl rfl))
  · exact .inr (.inr (.inr (.inl ⟨_, _, rfl, h⟩)))
  · exact .inr (.inr (.inr (.inr ⟨rfl, h⟩)))
  · cases h

theorem keeps_or_resets {c : Instr} {s : State} (h : resetsModule c s = true) :
    Keeps false false s (thenState s (exec c s)) ∨ resetFrom s (thenState s (exec c s)) := by
  obtain rfl | rfl | rfl | ⟨a, n, rfl, _⟩ | ⟨rfl, ht⟩ := resetsModule_cases h
  · exact powered_keeps_or_resets (resetFrom_supply s 1)
  · exact powered_keeps_or_resets (resetFrom_supply s 1)
  · exact powered_keeps_or_resets ⟨s, .boot, _, Keeps.refl _ _ s, fun _ => rfl, .inl rfl, restartNow_was s 5⟩
  · exact restart_keeps_or_resets a n s
  · exact tick_keeps_or_resets s ht

/-- Settles O59: a command that lets a latch go is one that resets the module, and a module reset leaves every lane in BOOT. -/
theorem latchHeldUntilRestart : Obligations.LatchHeldUntilRestart := by
  intro c s t he l hs ht
  obtain rfl : thenState s (exec c s) = t := by rw [he]; rfl
  have gone : ¬ ((thenState s (exec c s)).sluices.get l).latch = true := by rw [ht]; decide
  have hr : resetsModule c s = true := by
    by_contra hn
    exact gone ((keeps_exec c s).latched (Bool.eq_false_iff.2 hn) l hs)
  refine ⟨?_, ?_⟩
  · obtain h | h | h | h | ⟨h, hb⟩ := resetsModule_cases hr
    · exact .inl h
    · exact .inr (.inl h)
    · exact .inr (.inr (.inl h))
    · exact .inr (.inr (.inr (.inl h)))
    · exact .inr (.inr (.inr (.inr ⟨h, Option.isSome_iff_ne_none.1 hb⟩)))
  · obtain hk | ⟨u, m, cause, _, _, hm, hw⟩ := keeps_or_resets hr
    · exact absurd (hk.latched rfl l hs) gone
    · exact ⟨hw.mode.1 ▸ hm, fun k => (hw.lanes k).1⟩

/-- What an authorised retirement clear does after its nonce is taken: in SAFE it waits for the restart (R28). -/
def clearOrDefer (l : Lane) (s : State) : State :=
  if s.mod.st = .safe then modLane s l (fun L => { L with life := { L.life with clearPending := true } })
  else if lst s l = .retired then enterTest (clearRetirement s l) l .fromRetired else clearRetirement s l

theorem exec_retirementClear (l : Lane) (a : Auth) (s : State) : exec (.retirementClear l a) s =
    .next (if (s.cellar.life.lanes.get l).retired = false then s else harnal s a 1 l.num (clearOrDefer l)) := by
  show execRetirementClear l a s = _
  simp only [execRetirementClear, Bool.not_eq_true']
  rfl

@[simp] theorem enterTest_cellar (s : State) (l : Lane) (e : TestEntry) : (enterTest s l e).cellar = s.cellar := rfl

theorem clearOrDefer_lanes (l : Lane) (s : State) : (clearOrDefer l s).cellar.life.lanes =
    if s.mod.st = .safe then s.cellar.life.lanes
    else s.cellar.life.lanes.set l { s.cellar.life.lanes.get l with retired := false, stamps := [] } := by
  unfold clearOrDefer
  by_cases h : s.mod.st = .safe
  · rw [if_pos h, if_pos h, cellar_modLane]
  · rw [if_neg h, if_neg h, ← clearRetirement_lanes]
    split
    · rw [enterTest_cellar]
    · rfl

theorem retirementClear_other (a : Auth) (s : State) {l k : Lane} (h : l ≠ k) :
    (thenState s (exec (.retirementClear k a) s)).cellar.life.lanes.get l = s.cellar.life.lanes.get l := by
  rw [exec_retirementClear]
  dsimp only [thenState]
  cases e : authOk s a
  · rw [harnal_refused e, ite_self]
  · rw [harnal_taken e]
    split
    · rfl
    · rw [clearOrDefer_lanes, accepted_life]
      split
      · rfl
      · rw [get_set_other _ _ h]

/-- Settles O60: every command but a reset keeps the totals, by the law of its meaning; the retirement of a lane goes with a clear of that
lane alone, or with a reset that carries out a clear recorded before. -/
theorem totalsAndRetirementStay : Obligations.TotalsAndRetirementStay := by
  intro c s t he
  obtain rfl : thenState s (exec c s) = t := by rw [he]; rfl
  have hk := keeps_exec c s
  refine ⟨fun h1 h2 h3 h4 h5 => hk.totals (Bool.eq_false_iff.2 fun hn => ?_), hk.pages, fun hsaved l hs ht => ?_⟩
  · obtain h | h | h | ⟨a, n, h, ha⟩ | ⟨h, hb⟩ := resetsModule_cases hn
    · exact h1 h
    · exact h2 h
    · exact h3 h
    · rw [h4 a n h] at ha; cases ha
    · rw [h5 h] at hb; cases hb
  have gone : ¬ ((thenState s (exec c s)).cellar.life.lanes.get l).retired = true := by rw [ht]; decide
  have hc : clearsRetirement c s = true := by
    by_contra hn
    exact gone (hk.retired (Bool.eq_false_iff.2 hn) l hs)
  unfold clearsRetirement at hc
  split at hc
  · next k a =>
    by_cases e : l = k
    · exact .inl ⟨a, e ▸ rfl, hc⟩
    · exact absurd (by rw [retirementClear_other a s e]; exact hs) gone
  · refine .inr ?_
    obtain hkeep | ⟨u, m, cause, hu, hl, _, hw⟩ := keeps_or_resets hc
    · exact absurd (hkeep.retired rfl l hs) gone
    have pending : (lane u l).life.clearPending = true := by
      have := hw.retired (hu.saved hsaved) l
      rw [ht, hu.retired rfl l hs] at this
      simpa using this.symm
    refine ⟨hl l ▸ pending, ?_⟩
    obtain h | h | h | ⟨a, n, h, _⟩ | ⟨h, _⟩ := resetsModule_cases hc
    · exact .inl h
    · exact .inr (.inl h)
    · exact .inr (.inr (.inl h))
    · exact .inr (.inr (.inr (.inl ⟨a, n, h⟩)))
    · exact .inr (.inr (.inr (.inr h)))

end Sys2Proof.Laws

/-! ## Reset, release and the step (R13, R14, R446, R484, R492) -/

namespace Sys2Proof.Laws

open Sys2Proof Sys2Proof.Machine Sys2Proof.Safety

/-! ### Records leave the keeper and the pages of the MRAM (R418) -/

/-- The keeper, and the pages that stand in the MRAM, are as they were. -/
def samePages (s t : State) : Prop := t.cellar.keeper = s.cellar.keeper ∧ t.cellar.paged = s.cellar.paged

theorem pages_refl (s : State) : samePages s s := ⟨rfl, rfl⟩

theorem pages_trans {s t u : State} (h : samePages s t) (k : samePages t u) : samePages s u := ⟨k.1.trans h.1, k.2.trans h.2⟩

theorem pages_of {ps : List Part} {s t : State} (h : changesOnly ps s t) (hp : ps.contains .log = false) : samePages s t := by
  have e : ({ t.cellar with life := s.cellar.life } : Cellar) = s.cellar := (h .log hp).1
  have k := congrArg Cellar.keeper e
  have p := congrArg Cellar.paged e
  exact ⟨k, p⟩

theorem pages_foldS {α : Type} (xs : List α) (f : State → α → State) (hf : ∀ t x, samePages t (f t x)) (s : State) :
    samePages s (foldS xs f s) := by
  unfold foldS
  induction xs generalizing s with
  | nil => exact pages_refl s
  | cons a xs ih => exact pages_trans (hf s a) (ih _)

theorem pages_writeRecord (s : State) (l : Lane) (r : Record) : samePages s (writeRecord s l r) := by
  unfold writeRecord countLost logPut
  dsimp only
  repeat' split
  all_goals exact ⟨rfl, rfl⟩

theorem pages_putRecord (s : State) (l : Lane) (r : Record) (b : Bool) : samePages s (putRecord s l r b) := by
  unfold putRecord
  split
  · exact pages_refl s
  split
  · unfold stageRecord
    dsimp only
    split <;> exact ⟨rfl, rfl⟩
  · exact pages_writeRecord s l r

theorem pages_recordOne (s : State) (l : Lane) (c : Nat) (b : Bool) (p : List Byte) : samePages s (recordOne s l c b p) := by
  unfold recordOne
  split
  · exact pages_refl s
  split
  · exact pages_putRecord _ _ _ _
  dsimp only
  split
  · exact pages_trans (t := modLane s l _) ⟨rfl, rfl⟩ (pages_putRecord _ _ _ _)
  · unfold suppress
    extract_lets cel b o c' s1
    split
    · exact ⟨rfl, rfl⟩
    · exact pages_trans (t := s1) ⟨rfl, rfl⟩ (pages_of (chg_eicRaise s1 l 128 (by decide) (changesOnly_refl [.eic, .ports] s1)) rfl)

theorem pages_recordAll (s : State) (c : Nat) (p : List Byte) : samePages s (recordAll s c p) :=
  pages_foldS _ _ (fun _ _ => pages_recordOne _ _ _ _ _) s

/-- A retirement that ends writes page 3 alone (R418). -/
theorem applyClear_restarts (s : State) (l : Lane) : (applyClear s l).cellar.paged.restarts = s.cellar.paged.restarts := by
  unfold applyClear
  split
  · unfold clearRetirement
    rw [(pages_recordAll _ _ _).2]
    rfl
  · rfl

theorem applyClears_restarts (s : State) : (applyClears s).cellar.paged.restarts = s.cellar.paged.restarts := by
  show (applyClear (applyClear (applyClear s .A) .B) .C).cellar.paged.restarts = _
  simp only [applyClear_restarts]

/-- A restart out of SAFE is counted beyond those that stand in the MRAM (R418, R484). -/
theorem restartNow_restarts (s : State) (cause : Nat) (h : s.mod.st = .safe) :
    (restartNow s cause).cellar.life.restarts = satInc s.cellar.paged.restarts := by
  rw [← applyClears_restarts s]
  show (if (decide (s.mod.st = .safe) && decide (ModSt.boot = .boot)) = true then _ else _) = _
  rw [h]
  rfl

/-- Settles O16: a supply and RESET_N reset the module whatever it does, and RESET_N boots it at once. -/
theorem moduleResets : Obligations.ModuleResets := by
  intro s hs
  refine ⟨⟨moduleReset s .off 1, ?_, moduleReset_was s .off 1⟩, ⟨moduleReset s .off 1, ?_, moduleReset_was s .off 1⟩,
    ⟨restartNow s 5, ?_, restartNow_was s 5, restartNow_restarts s 5⟩⟩
  · simp only [exec, execVdd3v3Reset, if_neg hs]
  · simp only [exec, execIoAnaReset, if_neg hs]
  · simp only [exec, execResetNLow, if_neg hs]

/-! ### The release from reset (R446, R492) -/

/-- A boot slot whose neighbour holds a parked image of version v boots it once the slots are exchanged (R446). -/
theorem parked_boots {b : Boot} {v : Word} (h : parkedVersion b = some v) :
    slotVersion (switchSlot (putSlotState b (!b.slot) .valid)) = v ∧
    slotState (switchSlot (putSlotState b (!b.slot) .valid)) (switchSlot (putSlotState b (!b.slot) .valid)).slot = .valid := by
  unfold parkedVersion at h
  split at h
  · cases e : b.slot <;> simp_all [slotVersion, slotState, switchSlot, putSlotState]
  · cases h

theorem slot_putSlotState (b : Boot) (one : Bool) (x : SlotSt) : (putSlotState b one x).slot = b.slot := by
  unfold putSlotState
  split <;> rfl

theorem parkCompare_boots {s : State} {v : Word} (h : ∀ l, parkedVersion (lane s l).boot = some v) (l : Lane) :
    (lane (parkCompare s) l).boot = switchSlot (putSlotState (lane s l).boot (!(lane s l).boot.slot) .valid) := by
  unfold parkCompare
  rw [lane_modLanes]
  simp [h]

theorem parkCompare_slot {s : State} (h : ¬ ∃ v, ∀ l, parkedVersion (lane s l).boot = some v) (l : Lane) :
    (lane (parkCompare s) l).boot.slot = (lane s l).boot.slot := by
  have differ : ((parkedVersion (lane s .A).boot).isSome && decide (parkedVersion (lane s .A).boot = parkedVersion (lane s .B).boot) &&
      decide (parkedVersion (lane s .A).boot = parkedVersion (lane s .C).boot)) = false := by
    by_contra hc
    simp only [Bool.not_eq_false, Bool.and_eq_true, decide_eq_true_eq] at hc
    obtain ⟨⟨ha, hb⟩, hcc⟩ := hc
    obtain ⟨v, hv⟩ := Option.isSome_iff_exists.1 ha
    exact h ⟨v, fun m => by cases m <;> simp_all⟩
  unfold parkCompare
  rw [lane_modLanes]
  dsimp only
  rw [differ]
  simp only [Bool.false_eq_true, if_false]
  split
  · exact slot_putSlotState _ _ _
  · rfl

theorem lane_railsGood (s : State) (l : Lane) : lane (railsGood s) l = { lane s l with
    life := { (lane s l).life with railHeld := false }, pwr := { (lane s l).pwr with coreWarn := false } } := lane_modLanes s l _

theorem lane_beginBoot (s : State) (l : Lane) : lane (beginBoot s) l =
    if lst s l = .boot ∧ laneHeld (lane s l) = false then { lane s l with life := { (lane s l).life with startStep := 1 } }
    else lane s l := lane_modLanes s l _

/-- The module out of reset, with every rail within its range (R492). -/
def railed (s : State) : State :=
  railsGood (modLife { s with mod := { s.mod with st := .boot, v3Warn := false } } (fun f => { f with powerCycles := satInc f.powerCycles }))

/-- The module as the release of its resets leaves it (R446, R492). -/
def released (s : State) : State := beginBoot (parkCompare (railed s))

theorem exec_resetRelease_off {s : State} (h : s.mod.st = .off) (kept : Bool) :
    exec (.resetRelease kept) s = .next (if kept = true then released s else s) := by
  simp only [exec, execResetRelease, h]
  rfl

theorem lane_railed (s : State) (l : Lane) : lane (railed s) l = { lane s l with
    life := { (lane s l).life with railHeld := false }, pwr := { (lane s l).pwr with coreWarn := false } } := lane_railsGood _ l

theorem boot_railed (s : State) (l : Lane) : (lane (railed s) l).boot = (lane s l).boot := by rw [lane_railed]

theorem boot_released (s : State) (l : Lane) : (lane (released s) l).boot = (lane (parkCompare (railed s)) l).boot := by
  unfold released
  rw [lane_beginBoot]
  split <;> rfl

/-- Out of reset a lane keeps its state and its Press, its rail holds it no longer, and its first step begins unless its clock holds it. -/
theorem lane_released (s : State) (l : Lane) : lst (released s) l = lst s l ∧ (lane (released s) l).life.railHeld = false ∧
    (lane (released s) l).press = (lane s l).press ∧ (lane (released s) l).life.startStep =
      if lst s l = .boot ∧ (lane s l).life.held = false then 1 else (lane s l).life.startStep := by
  obtain ⟨b, hb⟩ := lane_parkCompare (railed s) l
  rw [lane_railed] at hb
  have held : laneHeld (lane (parkCompare (railed s)) l) = (lane s l).life.held := by
    rw [hb]
    exact Bool.or_false _
  have state : lst (parkCompare (railed s)) l = lst s l := by
    unfold lst
    rw [hb]
  unfold released
  unfold lst at state ⊢
  rw [lane_beginBoot, held]
  unfold lst
  rw [state]
  split <;> rw [hb] <;> exact ⟨rfl, rfl, rfl, rfl⟩

/-- Settles O15: the slots are compared after every rail is in range, and the lanes that no clock holds begin to boot. -/
theorem releaseFromReset : Obligations.ReleaseFromReset := by
  intro s hoff
  refine ⟨exec_resetRelease_off hoff false, released s, exec_resetRelease_off hoff true, rfl, rfl, fun l => ?_, fun v hv l => ?_, fun hn l => ?_⟩
  · obtain ⟨hst, hrail, hpress, hstep⟩ := lane_released s l
    refine ⟨hst, hrail, hpress, fun hh hb => ?_, fun hh => ?_⟩
    · rw [hstep, if_pos ⟨hb, hh⟩]
    · rw [hstep, if_neg (fun h => by rw [hh] at h; cases h.2)]
  · rw [boot_released, parkCompare_boots (fun m => by rw [boot_railed]; exact hv m), boot_railed]
    exact parked_boots (hv l)
  · rw [boot_released, parkCompare_slot (by simpa only [boot_railed] using hn), boot_railed]

/-! ### A step, and the state after reset (R13) -/

/-- Settles O55: a step is its case on the queue. -/
theorem stepRunsFront : Obligations.StepRunsFront := by
  refine ⟨fun c rest s h => ?_, fun s h => ?_⟩
  · unfold step
    rw [h]
  · unfold step
    rw [h]

/-- Settles O56: every field has its reset value. -/
theorem resetState : Obligations.ResetState := by
  have inv : Inv State.reset := ⟨fun l => by cases l <;> rfl, fun l => by cases l <;> rfl, TotalsUp.refl _, fun _ => rfl⟩
  refine ⟨inv, rfl, rfl, rfl, rfl, rfl, fun l => ?_, fun p q => ?_⟩
  · cases l <;> exact ⟨rfl, rfl, rfl, rfl, rfl, rfl, rfl, rfl, rfl, rfl, rfl, fun k => ⟨rfl, rfl, rfl⟩⟩
  · cases p <;> exact ⟨rfl, rfl⟩

end Sys2Proof.Laws

/-! ## Supplies and the resets of one lane (R25, R39, R173, R406, R408, R483, R493) -/

namespace Sys2Proof.Laws

open Sys2Proof Sys2Proof.Machine Sys2Proof.Safety

/-! ### What a frame says of the parts that it leaves out -/

section
variable {ps : List Part} {s t : State}

theorem lst_of (h : changesOnly ps s t) (hp : ps.contains .laneState = false := by rfl) (l : Lane) : lst t l = lst s l :=
  (h .laneState hp).2 l

theorem mode_of (h : changesOnly ps s t) (hp : ps.contains .mode = false := by rfl) : t.mod.st = s.mod.st := (h .mode hp).1

theorem press_of (h : changesOnly ps s t) (hp : ps.contains .press = false := by rfl) (l : Lane) : (lane t l).press = (lane s l).press :=
  (h .press hp).2 l

theorem raa_of (h : changesOnly ps s t) (hp : ps.contains .raa = false := by rfl) (l : Lane) : (lane t l).raa = (lane s l).raa :=
  (h .raa hp).2 l

theorem bank_of (h : changesOnly ps s t) (hp : ps.contains .bank = false := by rfl) (l : Lane) : (lane t l).bank = (lane s l).bank :=
  (h .bank hp).2 l

theorem boot_of (h : changesOnly ps s t) (hp : ps.contains .boot = false := by rfl) (l : Lane) : (lane t l).boot = (lane s l).boot :=
  (h .boot hp).2 l

theorem bist_of (h : changesOnly ps s t) (hp : ps.contains .bist = false := by rfl) (l : Lane) : (lane t l).bist = (lane s l).bist :=
  (h .bist hp).2 l

theorem pwr_of (h : changesOnly ps s t) (hp : ps.contains .rail = false := by rfl) (l : Lane) : (lane t l).pwr = (lane s l).pwr :=
  (h .rail hp).2 l

theorem cel_of (h : changesOnly ps s t) (hp : ps.contains .staging = false := by rfl) (l : Lane) : (lane t l).cel = (lane s l).cel :=
  (h .staging hp).2 l

theorem lifetime_of (h : changesOnly ps s t) (hp : ps.contains .lifetime = false := by rfl) : t.cellar.life = s.cellar.life :=
  (h .lifetime hp).1

theorem field_of (h : changesOnly ps s t) (hp : ps.contains .field = false := by rfl) : t.field = s.field := (h .field hp).1

end

/-- The core of a lane runs as before where its state, the module's and its self-test are as they were. -/
theorem runs_same {s t : State} {l : Lane} (hl : lst t l = lst s l) (hm : t.mod.st = s.mod.st)
    (hb : (lane t l).bist.phase = (lane s l).bist.phase) : runs t l = runs s l := by
  unfold runs
  rw [hl, hm, hb]

/-! ### A supply warning (R25, R406, R408, R468, R515) -/

theorem setPhase_phase (s : State) (l : Lane) (p : BitVec 3) : (lane (setPhase s l p) l).bist.phase = p := by
  unfold setPhase
  dsimp only
  split
  · rw [lane_modPort, lane_modLane_self]
  · rw [lane_modLane_self]

theorem movePhase_phase (s : State) (l : Lane) (p : BitVec 3) : (lane (movePhase s l p) l).bist.phase = p := by
  unfold movePhase
  dsimp only
  split
  · rw [bist_of (chg_settleLevels _ l (by decide) (changesOnly_refl [.eic, .ports] _)), setPhase_phase]
  · exact setPhase_phase s l p

/-- A BIST that ends leaves no phase behind (R471). -/
theorem endBist_phase (s : State) (l : Lane) : (lane (endBist s l) l).bist.phase = 0 := by
  unfold endBist
  dsimp only
  split
  · assumption
  split
  · exact setPhase_phase s l 0
  · rw [bist_of (chg_recordLane _ l _ _ (by decide) (changesOnly_refl records _)), lane_modLane_self]
    exact movePhase_phase s l 0

theorem endBist_only (s : State) (l : Lane) : changesOnly [.life, .eic, .staging, .bist, .ports, .log] s (endBist s l) :=
  chg_endBist s l (by decide) (changesOnly_refl _ s)

theorem writeRecord_staging (s : State) (l : Lane) (r : Record) : (lane (writeRecord s l r) l).cel.staging = (lane s l).cel.staging := by
  unfold writeRecord countLost
  split
  · rw [lane_modLane_self]
  · rfl

/-- Writing out leaves nothing staged (R406). -/
theorem drainStaging_empty (s : State) (l : Lane) : (lane (drainStaging s l) l).cel.staging = [] := by
  unfold drainStaging foldS
  dsimp only
  have h : ∀ (rs : List Record) (t : State), (lane t l).cel.staging = [] →
      (lane (rs.foldl (fun s r => writeRecord s l r) t) l).cel.staging = [] := by
    intro rs
    induction rs with
    | nil => exact fun _ ht => ht
    | cons r rs ih => exact fun t ht => ih _ ((writeRecord_staging t l r).trans ht)
  exact h _ _ (by rw [lane_modLane_self])

/-- A lane's staging is written out, with the record of what it has lost (R406, R407). -/
def drained (s : State) (l : Lane) : State := drainStaging (closeLost s l) l

/-- The keeper brings its pages up to date where it flushes for a supply warning or a restart (R418). -/
def powerPages (s : State) (l : Lane) : State := if s.cellar.keeper = some l then keeperPages s else s

theorem flushLane_power (s : State) (l : Lane) : flushLane s l .power = modLane (powerPages (drained s l) l) l (fun L => { L with cel := { L.cel with
    lastFlush := pack [(0, 4), (16, (cycle16 s).toNat)], lastPeriod := L.cel.lastPeriod, powerFlush := L.cel.powerFlush || true } }) := rfl

theorem powerPages_only (s : State) (l : Lane) : changesOnly [.lifetime, .log] s (powerPages s l) := by
  unfold powerPages
  split
  · exact chg_keeperPages s (by decide) (changesOnly_refl _ s)
  · exact changesOnly_refl _ s

/-- After the flush of a supply warning the lane stages nothing more (R406, R408). -/
theorem powerFlush_staging (s : State) (l : Lane) :
    (lane (flushLane s l .power) l).cel.staging = [] ∧ (lane (flushLane s l .power) l).cel.powerFlush = true := by
  rw [flushLane_power, lane_modLane_self]
  refine ⟨?_, Bool.or_true _⟩
  show (lane (powerPages (drained s l) l) l).cel.staging = []
  rw [cel_of (powerPages_only (drained s l) l)]
  exact drainStaging_empty (closeLost s l) l

/-- What a 3V3 warning leaves of a lane, told from the lane as it was. -/
structure LaneWarned (mv : BitVec 16) (s : State) (l : Lane) (t : State) : Prop where
  count : (lane t l).pwr.v3Warns = satInc (lane s l).pwr.v3Warns
  voltage : (lane t l).pwr.v3Mv = mv.setWidth 12
  staging : runs s l = true → (lane t l).cel.staging = [] ∧ (lane t l).cel.powerFlush = true
  bist : ((lane s l).bist.phase = 4 ∨ (lane s l).bist.phase = 5) → (lane t l).bist.phase = 0
  state : lst t l = lst s l

/-- A lane's count and voltage of the warning (R515). -/
def countWarning (mv : BitVec 16) (s : State) (l : Lane) : State :=
  modLane s l (fun L => { L with pwr := { L.pwr with v3Warns := satInc L.pwr.v3Warns, v3Mv := mv.setWidth 12 } })

/-- The end of an SRAM BIST or a march that the warning meets (R468). -/
def endMemoryTest (s : State) (l : Lane) : State :=
  if (lane s l).bist.phase = 4 ∨ (lane s l).bist.phase = 5 then endBist s l else s

theorem laneV3Warn_eq (mv : BitVec 16) (s : State) (l : Lane) : laneV3Warn mv s l =
    let u := eventLane (endMemoryTest (countWarning mv s l) l) l 5 0x0002 (le 2 mv.toNat ++ le 2 0)
    if runs u l then flushLane u l .power else u := rfl

theorem endMemoryTest_phase (s : State) (l : Lane) : (lane (endMemoryTest s l) l).bist.phase =
    if (lane s l).bist.phase = 4 ∨ (lane s l).bist.phase = 5 then 0 else (lane s l).bist.phase := by
  unfold endMemoryTest
  split
  · exact endBist_phase s l
  · rfl

theorem endMemoryTest_only (s : State) (l : Lane) : changesOnly [.life, .eic, .staging, .bist, .ports, .log] s (endMemoryTest s l) := by
  unfold endMemoryTest
  split
  · exact endBist_only s l
  · exact changesOnly_refl _ s

theorem laneV3Warn_warned (mv : BitVec 16) (s : State) (l : Lane) : LaneWarned mv s l (laneV3Warn mv s l) := by
  have hb := endMemoryTest_phase (countWarning mv s l) l
  have ht := endMemoryTest_only (countWarning mv s l) l
  have he := chg_eventLane (endMemoryTest (countWarning mv s l) l) l 5 0x0002 (le 2 mv.toNat ++ le 2 0) (by decide) (changesOnly_refl records _)
  have hc : lane (countWarning mv s l) l = _ := lane_modLane_self s l _
  rw [laneV3Warn_eq]
  dsimp only
  generalize eventLane (endMemoryTest (countWarning mv s l) l) l 5 0x0002 (le 2 mv.toNat ++ le 2 0) = u at *
  have hp : (lane u l).pwr = { (lane s l).pwr with v3Warns := satInc (lane s l).pwr.v3Warns, v3Mv := mv.setWidth 12 } := by
    rw [pwr_of he, pwr_of ht, hc]
  have hs : lst u l = lst s l := by
    rw [lst_of he, lst_of ht]
    unfold lst
    rw [hc]
  have hph : (lane u l).bist.phase = if (lane s l).bist.phase = 4 ∨ (lane s l).bist.phase = 5 then 0 else (lane s l).bist.phase := by
    rw [bist_of he, hb, hc]
  have hr : runs s l = true → runs u l = true := by
    have hm : u.mod.st = s.mod.st := by
      rw [mode_of he, mode_of ht]
      rfl
    unfold runs
    rw [hs, hm, hph]
    split
    · simp +contextual
    · exact id
  have flushed : changesOnly [.staging, .lifetime, .log] u (if runs u l then flushLane u l .power else u) := by
    split
    · exact chg_flushLane u l .power (by decide) (changesOnly_refl _ u)
    · exact changesOnly_refl _ u
  refine ⟨by rw [pwr_of flushed, hp], by rw [pwr_of flushed, hp], fun h => ?_, fun h => ?_, (lst_of flushed rfl l).trans hs⟩
  · rw [if_pos (hr h)]
    exact powerFlush_staging u l
  · rw [bist_of flushed, hph, if_pos h]

theorem laneV3Warn_only (mv : BitVec 16) (s : State) (l : Lane) : onlyLane l s (laneV3Warn mv s l) := by
  rw [laneV3Warn_eq]
  have h : onlyLane l s (eventLane (endMemoryTest (countWarning mv s l) l) l 5 0x0002 (le 2 mv.toNat ++ le 2 0)) := by
    refine only_eventLane _ _ _ ?_
    unfold endMemoryTest
    split
    · exact only_endBist (only_modLane _ (only_refl l s))
    · exact only_modLane _ (only_refl l s)
  dsimp only
  split
  · exact only_flushLane _ h
  · exact h

theorem laneV3Warn_mod (mv : BitVec 16) (s : State) (l : Lane) : (laneV3Warn mv s l).mod = s.mod :=
  same_mod (chg_laneV3Warn mv s l (by decide) (changesOnly_refl (records ++ [.life, .bist, .rail, .lifetime]) s)) rfl rfl

/-- The warning of lane m is about lane m's data alone. -/
theorem warned_other {mv : BitVec 16} {s t u : State} {m : Lane} (h : LaneWarned mv s m t) (e : lane u m = lane t m) : LaneWarned mv s m u := by
  obtain ⟨hc, hv, hs, hb, hst⟩ := h
  unfold lst at hst
  rw [← e] at hc hv hs hb hst
  exact ⟨hc, hv, hs, hb, hst⟩

theorem warned_from {mv : BitVec 16} {s z t : State} {m : Lane} (h : LaneWarned mv s m t) (e : lane s m = lane z m)
    (hm : s.mod.st = z.mod.st) : LaneWarned mv z m t := by
  have hr : runs z m = runs s m := by
    unfold runs lst
    rw [e, hm]
  obtain ⟨hc, hv, hs, hb, hst⟩ := h
  unfold lst at hst
  rw [← hr] at hs
  rw [e] at hc hb hst
  exact ⟨hc, hv, hs, hb, hst⟩

/-- The module as the 3V3 warning begins (R406). -/
def warning (s : State) : State := { s with mod := { s.mod with v3Warn := true, powerFlush := true } }

theorem exec_rail3v3Warn {s : State} (hs : s.mod.st ≠ .off) (mv : BitVec 16) : exec (.rail3v3Warn mv) s =
    .next (if s.mod.v3Warn = true then s else foldS Lane.list (laneV3Warn mv) (warning s)) := by
  simp only [exec, execRail3v3Warn, hs, decide_false, Bool.or_false]
  rfl

/-- The lanes take the warning one after the other, each its own part. -/
theorem fold_laneV3Warn (mv : BitVec 16) (s : State) : (∀ l, LaneWarned mv s l (foldS Lane.list (laneV3Warn mv) (warning s))) ∧
    (foldS Lane.list (laneV3Warn mv) (warning s)).mod = (warning s).mod :=
  fold_three (P := LaneWarned mv s) (laneV3Warn mv) (warning s)
    (fun t l e hm => warned_from (laneV3Warn_warned mv t l) e (show t.mod.st = (warning s).mod.st from congrArg Module.st hm))
    (fun t l m e h => warned_other h (laneV3Warn_only mv t l m e)) (laneV3Warn_only mv) (laneV3Warn_mod mv)

/-- The module once the warning is over, before the interrupt level falls (R408). -/
def warningOver (s : State) : State :=
  modLanes { s with mod := { s.mod with v3Warn := false, powerFlush := false } } (fun _ L => { L with cel := { L.cel with powerFlush := false } })

theorem exec_v3WarnRelease {s : State} (h : s.mod.v3Warn = true) :
    exec .v3WarnRelease s = .next (eicLevelAll (warningOver s) 5 false) := by
  simp only [exec, execV3WarnRelease, h, if_true]
  rfl

/-- A lane's count and voltage of a core rail warning (R25). -/
def countCoreWarning (mv : BitVec 16) (s : State) (l : Lane) : State :=
  modLane s l (fun L => { L with pwr := { L.pwr with
    coreWarn := true, coreWarns := satInc L.pwr.coreWarns, coreMv := mv.setWidth 12 } })

theorem exec_coreRailWarn {s : State} (hs : s.mod.st ≠ .off) {l : Lane} (hc : (lane s l).pwr.coreWarn = false) (mv : BitVec 16) :
    exec (.coreRailWarn l mv) s = .next (eventLane (countCoreWarning mv s l) l 4 0x0003 (le 2 mv.toNat ++ le 2 0)) := by
  simp only [exec, execCoreRailWarn, hs, hc, decide_false, Bool.or_false, Bool.false_eq_true, if_false]
  rfl

/-- A lane whose power flush has been made stages nothing (R408). -/
theorem stages_powerFlush {s : State} {l : Lane} (h : (lane s l).cel.powerFlush = true) : stages s l = false := by
  unfold stages
  rw [h]
  simp

/-- Settles O17: the warning is taken lane by lane, and each lane's part leaves its state. -/
theorem supplyWarnings : Obligations.SupplyWarnings := by
  intro mv s hs
  refine ⟨fun hw => ?_, fun hw => ⟨?_, eicLevelAll (warningOver s) 5 false, exec_v3WarnRelease hw, ?_⟩, fun l hc =>
    ⟨_, exec_coreRailWarn hs hc mv, ?_⟩⟩
  · obtain ⟨warned, hmod⟩ := fold_laneV3Warn mv s
    refine ⟨foldS Lane.list (laneV3Warn mv) (warning s), ?_, by rw [hmod]; rfl, by rw [hmod]; rfl, fun l => ?_⟩
    · rw [exec_rail3v3Warn hs, hw]
      rfl
    obtain ⟨count, voltage, staging, bist, state⟩ := warned l
    refine ⟨count, voltage, fun hr => ⟨(staging hr).1, (staging hr).2, fun t' ht => stages_powerFlush ?_⟩, bist, state⟩
    unfold lane
    rw [ht]
    exact (staging hr).2
  · rw [exec_rail3v3Warn hs, hw]
    rfl
  · have he := chg_eicLevelAll (warningOver s) 5 false (by decide) (changesOnly_refl [.eic, .ports] _)
    rw [same_mod he rfl rfl]
    refine ⟨rfl, rfl, fun l => ?_⟩
    rw [cel_of he, lst_of he]
    unfold lst warningOver
    rw [lane_modLanes]
    exact ⟨rfl, rfl⟩
  · have he := chg_eventLane (countCoreWarning mv s l) l 4 0x0003 (le 2 mv.toNat ++ le 2 0) (by decide) (changesOnly_refl records _)
    have hl : ∀ m, lst (countCoreWarning mv s l) m = lst s m := fun m => by
      unfold lst countCoreWarning
      rw [lane_modLane]
      split
      · next e => rw [e]
      · rfl
    have hself : lane (countCoreWarning mv s l) l = _ := lane_modLane_self s l _
    rw [pwr_of he, hself, same_mod he rfl rfl]
    refine ⟨rfl, rfl, rfl, fun m => ⟨(lst_of he rfl m).trans (hl m), fun e => ?_⟩, rfl⟩
    rw [pwr_of he]
    unfold countCoreWarning
    rw [lane_modLane_other _ _ e]

end Sys2Proof.Laws

/-! ## The reset of one lane (R24, R25, R39, R173, R174, R483, R493) -/

namespace Sys2Proof.Laws

open Sys2Proof Sys2Proof.Machine Sys2Proof.Safety

/-! ### What an isolation keeps of every lane's life -/

/-- What an isolation leaves of a lane's life: what holds it in reset, how it came to TEST, what it recorded before. -/
def lifeBase (x : LaneLife) : Bool × Bool × Bool × TestEntry × Bool × BitVec 8 × BitVec 8 :=
  (x.rom, x.held, x.railHeld, x.entry, x.clearPending, x.resetCause, x.prevCause)

/-- That part of every lane's life is as it was. -/
def baseKept (s t : State) : Prop := ∀ m, lifeBase (lane t m).life = lifeBase (lane s m).life

theorem base_refl (s : State) : baseKept s s := fun _ => rfl

theorem base_trans {s t u : State} (h : baseKept s t) (k : baseKept t u) : baseKept s u := fun m => (k m).trans (h m)

theorem base_of {ps : List Part} {s t : State} (h : changesOnly ps s t) (hp : ps.contains .life = false := by rfl) : baseKept s t :=
  fun m => by rw [life_same ((h .life hp).2 m)]; rfl

theorem base_modLane (s : State) (l : Lane) (f : LaneState → LaneState) (hf : ∀ L, lifeBase (f L).life = lifeBase L.life) :
    baseKept s (modLane s l f) := fun m => by
  rw [lane_modLane]
  split
  · next e => subst e; exact hf _
  · rfl

theorem base_modLanes (s : State) (f : Lane → LaneState → LaneState) (hf : ∀ l L, lifeBase (f l L).life = lifeBase L.life) :
    baseKept s (modLanes s f) := fun m => by rw [lane_modLanes]; exact hf _ _

theorem base_foldS {α : Type} (xs : List α) (f : State → α → State) (hf : ∀ t x, baseKept t (f t x)) (s : State) : baseKept s (foldS xs f s) := by
  unfold foldS
  induction xs generalizing s with
  | nil => exact base_refl s
  | cons a xs ih => exact base_trans (hf s a) (ih _)

theorem base_endBist (s : State) (l : Lane) : baseKept s (endBist s l) := by
  unfold endBist
  dsimp only
  split
  · exact base_refl s
  split
  · exact base_of (chg_setPhase s l 0 (by decide) (changesOnly_refl [.bist, .ports] s))
  · refine base_trans ?_ (base_of (chg_recordLane _ l _ _ (by decide) (changesOnly_refl records _)))
    exact base_trans (base_of (chg_movePhase s l 0 (by decide) (changesOnly_refl [.eic, .bist, .ports] s))) (base_modLane _ _ _ fun _ => rfl)

theorem base_setModule (s : State) (m : ModSt) : baseKept s (setModule s m) :=
  base_of (chg_setModule s m (by decide) (changesOnly_refl [.mode, .eic, .staging, .ports, .log, .free] s))

theorem base_setLatch (s : State) (l : Lane) (c : LatchCause) : baseKept s (setLatch s l c) := fun _ => rfl

theorem base_enterSafe (s : State) : baseKept s (enterSafe s) := by
  unfold enterSafe
  split
  · exact base_refl s
  · refine base_trans ?_ (base_of (chg_recordAll _ _ _ (by decide) (changesOnly_refl records _)))
    refine base_trans ?_ (base_setModule _ _)
    exact base_trans (base_foldS Lane.list (fun s l => endBist (setLatch s l .follow) l)
      (fun t x => base_trans (base_setLatch t x .follow) (base_endBist _ x)) s) (base_modLanes _ _ fun _ _ => rfl)

theorem base_afterLoss (s : State) (c : LatchCause) : baseKept s (afterLoss s c) := by
  unfold afterLoss
  repeat' split
  · exact base_trans (base_foldS _ _ (fun t x => base_setLatch t x _) s) (base_enterSafe _)
  · exact base_setModule _ _
  · exact base_refl s
  · exact base_refl s

theorem base_latchSafe (s : State) : baseKept s (latchSafe s) := by
  unfold latchSafe
  split
  · exact base_enterSafe s
  · exact base_refl s

theorem base_isolateNow (s : State) (l : Lane) (c : IsoCause) (x : LatchCause) : baseKept s (isolateNow s l c x) := by
  unfold isolateNow
  extract_lets now counted earlier retire again s1 s2 s3 s4 s5 s6
  have h1 : baseKept s s1 := by
    have drop : baseKept s (if again = true then dropPlanned s l else s) := by
      split
      · exact base_of (chg_dropPlanned s l (by decide) (changesOnly_refl [.staging] s))
      · exact base_refl s
    exact base_trans drop (fun _ => rfl)
  have h3 : baseKept s1 s3 := base_trans (t := s2) (fun _ => rfl) (base_modLane s2 l _ fun _ => rfl)
  have h4 : baseKept s3 s4 := by
    have ended : baseKept s3 (if counted = true then endBist s3 l else s3) := by
      split
      · exact base_endBist s3 l
      · exact base_refl s3
    exact base_trans ended (fun _ => rfl)
  have h5 : baseKept s4 s5 := by
    have raised : baseKept s4 (if again = true then s4 else eicRaiseAll s4 0) := by
      split
      · exact base_refl s4
      · exact base_of (chg_eicRaiseAll s4 0 (by decide) (changesOnly_refl [.eic, .ports] s4))
    exact base_trans raised (base_of (chg_recordAll _ _ _ (by decide) (changesOnly_refl records _)))
  have h6 : baseKept s5 s6 := by
    show baseKept s5 (if retire = true then eventAll s5 1 0x0101 (lanePayload s5 l counted) else s5)
    split
    · exact base_of (chg_eventAll _ _ _ _ (by decide) (changesOnly_refl records _))
    · exact base_refl s5
  exact base_trans h1 (base_trans h3 (base_trans h4 (base_trans h5 (base_trans h6 (base_trans (base_afterLoss s6 x) (base_latchSafe _))))))

/-! ### The isolation of any lane, whether it can be isolated or not (R173) -/

/-- What an isolation may do to a lane: it leaves as Safety.LaneOut says, or the finding is recorded and nothing else happens. -/
theorem isolate_cases (s : State) (l : Lane) (c : IsoCause) :
    LaneOut s l c (isolate s l c) ∨ (isolatable (lst s l) = false ∧ changesOnly records s (isolate s l c)) := by
  unfold isolate isolateWith
  split
  · exact .inl (isolateNow_out s l c _).1
  · next h =>
    have hn : isolatable (lst s l) = false := by
      cases e : isolatable (lst s l)
      · rfl
      · exact absurd (by rw [e]; rfl) h
    refine .inr ⟨hn, ?_⟩
    split
    · exact chg_recordAll _ _ _ (by decide) (changesOnly_refl records s)
    · exact chg_recordAll _ _ _ (by decide) (changesOnly_refl records s)
    · exact changesOnly_refl records s

theorem isolate_others (s : State) (l : Lane) (c : IsoCause) {m : Lane} (h : m ≠ l) : lst (isolate s l c) m = lst s m := by
  obtain ho | ⟨_, hr⟩ := isolate_cases s l c
  · exact (ho.others m h).1
  · exact lst_of hr rfl m

theorem base_isolate (s : State) (l : Lane) (c : IsoCause) : baseKept s (isolate s l c) := by
  unfold isolate isolateWith
  split
  · exact base_isolateNow s l c _
  split
  · exact base_of (chg_recordAll _ _ _ (by decide) (changesOnly_refl records s))
  · exact base_of (chg_recordAll _ _ _ (by decide) (changesOnly_refl records s))
  · exact base_refl s

/-- A lane's loss takes the module to SAFE, to SERVICE_2oo2, or nowhere (R20, R170, R176). -/
theorem laneOut_mode {s t : State} {l : Lane} {c : IsoCause} (h : LaneOut s l c t) :
    t.mod.st = .safe ∨ t.mod.st = .svc2 ∨ t.mod.st = s.mod.st := by
  by_cases safe : s.mod.st = .safe
  · exact .inr (.inr (h.stays (.inl safe)))
  by_cases leaves : leavesSafe s l
  · exact .inl (h.safe safe leaves).1
  by_cases three : s.mod.st = .svc3
  · exact .inr (.inl (h.twoLeft three leaves))
  · exact .inr (.inr (h.stays (.inr ⟨three, leaves⟩)))

theorem isolate_powered {s : State} (hs : s.mod.st ≠ .off) (l : Lane) (c : IsoCause) : (isolate s l c).mod.st ≠ .off := by
  obtain ho | ⟨_, hr⟩ := isolate_cases s l c
  · obtain h | h | h := laneOut_mode ho
    · rw [h]; decide
    · rw [h]; decide
    · rw [h]; exact hs
  · rw [mode_of hr]; exact hs

/-! ### What a lane finds in itself (R39, R173) -/

/-- The rank of a cause is its place in the order of R173; the planned causes and none come after all of them. -/
theorem findingOrder_rank (c : IsoCause) : findingOrder.idxOf c = min (causeRank c) 10 := by cases c <;> rfl

theorem firstCause_cons (c d : IsoCause) (also : List IsoCause) :
    firstCause c (d :: also) = firstCause (if causeRank d < causeRank c then d else c) also := rfl

theorem firstCause_mem (c : IsoCause) (also : List IsoCause) : firstCause c also ∈ c :: also := by
  induction also generalizing c with
  | nil => exact List.mem_cons_self
  | cons d also ih =>
    rw [firstCause_cons]
    split
    · exact List.mem_cons_of_mem _ (ih d)
    · obtain h | h := List.mem_cons.1 (ih c)
      · rw [h]; exact List.mem_cons_self
      · exact List.mem_cons_of_mem _ (List.mem_cons_of_mem _ h)

theorem firstCause_le (c : IsoCause) (also : List IsoCause) : ∀ d ∈ c :: also, causeRank (firstCause c also) ≤ causeRank d := by
  induction also generalizing c with
  | nil => exact fun d hd => by rw [List.mem_singleton.1 hd]; exact Nat.le_refl _
  | cons e also ih =>
    have hc : causeRank (if causeRank e < causeRank c then e else c) ≤ causeRank c := by split <;> omega
    have he : causeRank (if causeRank e < causeRank c then e else c) ≤ causeRank e := by split <;> omega
    have first := ih (if causeRank e < causeRank c then e else c)
    have head := first _ List.mem_cons_self
    intro d hd
    rw [firstCause_cons]
    obtain rfl | hd := List.mem_cons.1 hd
    · exact Nat.le_trans head hc
    obtain rfl | hd := List.mem_cons.1 hd
    · exact Nat.le_trans head he
    · exact first d (List.mem_cons_of_mem _ hd)

/-- Settles O19: both findings are isolations of a lane that can be isolated, and the fold of R173 picks a cause of least rank. -/
theorem ownFindingsIsolate : Obligations.OwnFindingsIsolate := by
  intro l s h
  refine ⟨⟨_, rfl, (isolate_out s l .memory h).1⟩, fun also => ⟨⟨_, rfl, (isolate_out s l _ h).1⟩, firstCause_mem _ _, fun c hc => ?_⟩,
    ⟨_, rfl, (isolate_out s l .self h).1⟩⟩
  rw [findingOrder_rank, findingOrder_rank]
  have := firstCause_le _ also c hc
  omega

/-! ### The reset of a lane (R24, R483, R519) -/

theorem vput_true_self {v : BitVec 3} (l : Lane) : (vput v l.idx true).getLsbD l.idx = true := by
  unfold vput
  cases l <;> simp [Lane.idx]

/-- The lane is told as reset from any state that differs in nothing that a reset keeps. -/
theorem laneWasReset_from {s u t : State} {l : Lane} {cause : BitVec 8} (h : LaneWasReset u l cause t)
    (hl : (lane u l).life.resetCause = (lane s l).life.resetCause ∧ (lane u l).life.cause = (lane s l).life.cause ∧
      (lane u l).life.isoCycle = (lane s l).life.isoCycle ∧ (lane u l).bank = (lane s l).bank)
    (ho : ∀ m, m ≠ l → lst u m = lst s m ∧ (lane u m).press = (lane s m).press ∧ (lane u m).raa = (lane s m).raa)
    (hx : ∀ m, (u.sluices.get m).latch = (s.sluices.get m).latch) (hf : u.field = s.field) : LaneWasReset s l cause t where
  state := h.state
  causes := hl.1 ▸ h.causes
  left := hl.2.1 ▸ hl.2.2.1 ▸ h.left
  fresh := h.fresh
  stores := hl.2.2.2 ▸ h.stores
  links := fun m => hx m ▸ h.links m
  others := fun m e => by
    obtain ⟨h1, h2, h3⟩ := h.others m e
    obtain ⟨k1, k2, k3⟩ := ho m e
    exact ⟨h1.trans k1, h2.trans k2, h3.trans k3⟩
  field := h.field.trans hf

/-- A later operation on parts that the reset of a lane does not name. -/
theorem laneWasReset_frame {ps : List Part} {u t v : State} {l : Lane} {cause : BitVec 8} (h : LaneWasReset u l cause t) (hc : changesOnly ps t v)
    (hp : within ps [.mode, .clock, .eic, .staging, .ports, .log, .lifetime, .free] = true := by rfl) : LaneWasReset u l cause v := by
  have out : ∀ p, ([.mode, .clock, .eic, .staging, .ports, .log, .lifetime, .free] : List Part).contains p = false → samePart p t v :=
    fun p hq => hc p (within_out hp hq)
  have hlife : ∀ m, (lane v m).life = (lane t m).life := life_eq hc (within_out hp rfl) (within_out hp rfl)
  have hpress : ∀ m, (lane v m).press = (lane t m).press := (out .press rfl).2
  have hraa : ∀ m, (lane v m).raa = (lane t m).raa := (out .raa rfl).2
  have hsl : v.sluices = t.sluices := (out .sluices rfl).1
  refine ⟨(lst_of hc (within_out hp rfl) l).trans h.state, hlife l ▸ h.causes, hlife l ▸ h.left, ?_, ?_, fun m => hsl ▸ h.links m, fun m e => ?_,
    (out .field rfl).1.trans h.field⟩
  · rw [hpress, hraa, ((out .sessions rfl).2 l).1]
    exact h.fresh
  · rw [show (lane v l).bank = (lane t l).bank from (out .bank rfl).2 l]
    exact h.stores
  · rw [lst_of hc (within_out hp rfl) m, hpress, hraa]
    exact h.others m e

/-- The state that the reset of a lane finds: an update that does not belong to the reset has been abandoned (R434, R448). -/
def abandoned (s : State) (l : Lane) (cause : Nat) : State := if cause = 6 ∨ cause = 7 then s else endUpdate s l 0x0F

theorem abandoned_only (s : State) (l : Lane) (cause : Nat) : changesOnly (records ++ [.mbx, .boot, .lifetime]) s (abandoned s l cause) := by
  unfold abandoned
  split
  · exact changesOnly_refl _ s
  · exact chg_endUpdate s l 0x0F (by decide) (changesOnly_refl _ s)

theorem lane_resetOne (s : State) (l : Lane) (cause : Nat) (m : Lane) : lane (resetOne s l cause) m =
    if m = l then laneReset (lane (abandoned s l cause) l) cause else lane (abandoned s l cause) m := by
  refine Eq.trans ?_ (lane_modLane (abandoned s l cause) l m (fun L => laneReset L cause))
  unfold resetOne linksReset
  rw [lane_modSluices]
  cases l <;> rfl

theorem sluices_resetOne (s : State) (l : Lane) (cause : Nat) : (resetOne s l cause).sluices = s.sluices.map (fun _ x =>
    { x with linkUp := vput x.linkUp l.idx false, linkReset := vput x.linkReset l.idx true }) := by
  rw [← sluices_of (abandoned_only s l cause) rfl]
  unfold resetOne linksReset
  cases l <;> rfl

theorem resetOne_was (s : State) (l : Lane) (cause : Nat) : LaneWasReset s l (BitVec.ofNat 8 cause) (resetOne s l cause) := by
  have ha := abandoned_only s l cause
  have hlife := life_eq ha rfl rfl l
  have hself : lane (resetOne s l cause) l = laneReset (lane (abandoned s l cause) l) cause := by rw [lane_resetOne, if_pos rfl]
  refine ⟨?_, ?_, ?_, ?_, ?_, fun m => ?_, fun m e => ?_, ?_⟩
  · unfold lst
    rw [hself]
    rfl
  · rw [hself, ← hlife]
    exact ⟨rfl, rfl⟩
  · rw [hself, ← hlife]
    exact ⟨rfl, rfl⟩
  · rw [hself]
    exact ⟨rfl, rfl, rfl⟩
  · rw [hself, ← bank_of ha]
    exact ⟨rfl, rfl⟩
  · rw [sluices_resetOne, get_map]
    exact ⟨vput_false_self _ _, rfl⟩
  · unfold lst
    rw [lane_resetOne, if_neg e, ← press_of ha, ← raa_of ha]
    exact ⟨lst_of ha rfl m, rfl, rfl⟩
  · exact field_of (chg_resetOne s l cause (by decide) (changesOnly_refl (allBut [.mode, .clock, .alk, .field, .twin, .hostMem, .bus, .free, .queue]) s))

/-- The receivers see the reset line of a lane that has just been reset (R164). -/
theorem resetOne_reports (s : State) (l : Lane) (cause : Nat) (m : Lane) :
    ((resetOne s l cause).sluices.get m).linkReset.getLsbD l.idx = true := by
  rw [sluices_resetOne, get_map]
  exact vput_true_self l

theorem resetOne_life (s : State) (l : Lane) (cause : Nat) : (lane (resetOne s l cause) l).life.held = (lane s l).life.held ∧
    (lane (resetOne s l cause) l).life.railHeld = (lane s l).life.railHeld ∧ (lane (resetOne s l cause) l).life.startStep = 0 := by
  rw [lane_resetOne, if_pos rfl, ← life_eq (abandoned_only s l cause) rfl rfl l]
  exact ⟨rfl, rfl, rfl⟩

theorem mode_resetOne (s : State) (l : Lane) (cause : Nat) : (resetOne s l cause).mod.st = s.mod.st :=
  mode_of (chg_resetOne s l cause (by decide) (changesOnly_refl (allBut [.mode, .clock, .alk, .field, .twin, .hostMem, .bus, .free, .queue]) s))

theorem checkRecovery_only (s : State) : changesOnly (records ++ [.mode, .free]) s (checkRecovery s) :=
  chg_checkRecovery s (by decide) (changesOnly_refl _ s)

/-- A lane that is isolated and then reset while something holds it: the reset line stays, and no step of its start begins (R25, R39, R483). -/
theorem heldReset_was {u v : State} {l : Lane} {cause : Nat} (hu : onlyLane l u v)
    (hv : (lane v l).life.resetCause = (lane u l).life.resetCause ∧ (lane v l).life.cause = (lane u l).life.cause ∧
      (lane v l).life.isoCycle = (lane u l).life.isoCycle ∧ (lane v l).bank = (lane u l).bank)
    (hx : v.sluices = u.sluices) (hf : v.field = u.field) :
    LaneWasReset u l (BitVec.ofNat 8 cause) (checkRecovery (resetOne v l cause)) ∧
    (∀ m, ((checkRecovery (resetOne v l cause)).sluices.get m).linkReset.getLsbD l.idx = true) ∧
    (lane (checkRecovery (resetOne v l cause)) l).life.held = (lane v l).life.held ∧
    (lane (checkRecovery (resetOne v l cause)) l).life.railHeld = (lane v l).life.railHeld ∧
    (lane (checkRecovery (resetOne v l cause)) l).life.startStep = 0 := by
  have hc := checkRecovery_only (resetOne v l cause)
  obtain ⟨hh, hr, hstep⟩ := resetOne_life v l cause
  refine ⟨laneWasReset_from (laneWasReset_frame (resetOne_was v l cause) hc) hv (fun m e => ?_) (fun m => by rw [hx]) hf, fun m => ?_, ?_⟩
  · unfold lst
    rw [hu m e]
    exact ⟨rfl, rfl, rfl⟩
  · rw [sluices_of hc rfl]
    exact resetOne_reports v l cause m
  · rw [life_eq (ps := records ++ [.mode, .free]) hc rfl rfl l]
    exact ⟨hh, hr, hstep⟩

/-! ### A lane leaves its reset (R24, R483) -/

theorem releaseLane_free {s : State} {l : Lane} (hh : laneHeld (lane s l) = false) (hs : s.mod.st ≠ .off) : releaseLane s l =
    modSluices (modLane s l (fun L => { L with life := { L.life with startStep := 1 } }))
      (fun _ x => { x with linkReset := vput x.linkReset l.idx false }) := by
  unfold releaseLane
  rw [hh, if_neg (by simpa using hs)]

theorem releaseLane_held {s : State} {l : Lane} (hh : laneHeld (lane s l) = true) : releaseLane s l = s := by
  unfold releaseLane
  rw [hh]
  rfl

theorem only_releaseLane {l : Lane} {z s : State} (h : onlyLane l z s) : onlyLane l z (releaseLane s l) := by
  unfold releaseLane
  split
  · exact h
  · exact only_modSluices _ (only_modLane _ h)

theorem lane_releaseLane {s : State} (hs : s.mod.st ≠ .off) (l : Lane) : lane (releaseLane s l) l = { lane s l with
    life := { (lane s l).life with startStep := if laneHeld (lane s l) = true then (lane s l).life.startStep else 1 } } := by
  cases hh : laneHeld (lane s l)
  · rw [releaseLane_free hh hs, lane_modSluices, lane_modLane_self]
    rfl
  · rw [releaseLane_held hh]
    rfl

theorem releaseLane_reports {s : State} {l : Lane} (hh : laneHeld (lane s l) = false) (hs : s.mod.st ≠ .off) (m : Lane) :
    ((releaseLane s l).sluices.get m).linkReset.getLsbD l.idx = false := by
  rw [releaseLane_free hh hs, sluices_modSluices, get_map]
  exact vput_false_self _ _

theorem laneWasReset_release {u t : State} {l : Lane} {cause : BitVec 8} (hs : t.mod.st ≠ .off) (h : LaneWasReset u l cause t) :
    LaneWasReset u l cause (releaseLane t l) := by
  have hl := lane_releaseLane hs l
  have ho : ∀ m, m ≠ l → lane (releaseLane t l) m = lane t m := only_releaseLane (only_refl l t)
  have hx : ∀ m, ((releaseLane t l).sluices.get m).linkUp = (t.sluices.get m).linkUp ∧
      ((releaseLane t l).sluices.get m).latch = (t.sluices.get m).latch := fun m => by
    unfold releaseLane
    split
    · exact ⟨rfl, rfl⟩
    · rw [sluices_modSluices, get_map]
      exact ⟨rfl, rfl⟩
  refine ⟨?_, ?_, ?_, ?_, ?_, fun m => ?_, fun m e => ?_, ?_⟩
  · unfold lst
    rw [hl]
    exact h.state
  · rw [hl]; exact h.causes
  · rw [hl]; exact h.left
  · rw [hl]; exact h.fresh
  · rw [hl]; exact h.stores
  · rw [(hx m).1, (hx m).2]
    exact h.links m
  · unfold lst
    rw [ho m e]
    exact h.others m e
  · exact (field_of (chg_releaseLane t l (by decide) (changesOnly_refl [.life, .sluices] t))).trans h.field

/-- What the end of a hold leaves of a lane that another may hold still (R24, R483). -/
theorem release_effect {z : State} {l : Lane} (hz : z.mod.st ≠ .off) :
    (laneHeld (lane z l) = false → (lane (releaseLane z l) l).life.startStep = 1 ∧
      ∀ m, ((releaseLane z l).sluices.get m).linkReset.getLsbD l.idx = false) ∧
    (laneHeld (lane z l) = true → (lane (releaseLane z l) l).life.startStep = (lane z l).life.startStep) := by
  refine ⟨fun hh => ⟨?_, releaseLane_reports hh hz⟩, fun hh => ?_⟩
  · rw [lane_releaseLane hz, hh]
    rfl
  · rw [lane_releaseLane hz, hh]
    rfl

/-- Lane l with its rail within its range (R493). -/
def railFine (s : State) (l : Lane) : State := modLane s l (fun L => { L with pwr := { L.pwr with coreWarn := false } })

/-- Lane l once its rail has recovered, before it is released (R493). -/
def railBack (s : State) (l : Lane) : State :=
  modLane (eicLevel (railFine s l) l 4 false) l (fun L => { L with life := { L.life with railHeld := false } })

theorem railFine_level (s : State) (l : Lane) : changesOnly [.eic, .ports] (railFine s l) (eicLevel (railFine s l) l 4 false) :=
  chg_eicLevel _ l 4 false (by decide) (changesOnly_refl _ _)

theorem lane_railBack (s : State) (l : Lane) : (lane (railBack s l) l).life = { (lane s l).life with railHeld := false } ∧
    (lane (railBack s l) l).pwr = { (lane s l).pwr with coreWarn := false } := by
  unfold railBack
  rw [lane_modLane_self]
  dsimp only
  rw [life_eq (railFine_level s l) rfl rfl, pwr_of (railFine_level s l)]
  unfold railFine
  rw [lane_modLane_self]
  exact ⟨rfl, rfl⟩

theorem only_railBack (s : State) (l : Lane) : onlyLane l s (railBack s l) :=
  only_modLane _ (only_eicLevel _ _ (only_modLane _ (only_refl l s)))

theorem mode_railBack (s : State) (l : Lane) : (railBack s l).mod.st = s.mod.st := by
  have h := mode_of (railFine_level s l)
  exact h

/-- Settles O18: each of the three is an isolation and then the reset of the lane, and each hold is released on its own. -/
theorem laneResets : Obligations.LaneResets := by
  intro l s hs reports
  have out : ∀ c, isolatable (lst s l) = true → LaneOut s l c (isolate s l c) := fun c h => (isolate_out s l c h).1
  refine ⟨⟨isolate s l .rail, ?_⟩, ⟨isolate s l .link, ?_⟩, fun hr => ⟨isolate s l .self, ?_⟩, fun hrail => ?_, fun hheld => ?_⟩
  · obtain ⟨was, line, _, hrail, hstep⟩ := heldReset_was (l := l) (cause := 2) (u := isolate s l .rail) (v := modLane (isolate s l .rail) l
      (fun L => { L with life := { L.life with railHeld := true }, pwr := { L.pwr with coreWarn := true } })) (only_modLane _ (only_refl _ _))
      (by rw [lane_modLane_self]; exact ⟨rfl, rfl, rfl, rfl⟩) rfl rfl
    refine ⟨_, ?_, out .rail, fun m e => isolate_others s l .rail e, was, line, ?_, hstep⟩
    · simp only [exec, execCoreRailReset, if_neg hs]
    · rw [hrail, lane_modLane_self]
  · obtain ⟨was, line, hheld, _, hstep⟩ := heldReset_was (l := l) (cause := 3) (u := isolate s l .link) (v := modLane (isolate s l .link) l
      (fun L => { L with life := { L.life with held := true } })) (only_modLane _ (only_refl _ _))
      (by rw [lane_modLane_self]; exact ⟨rfl, rfl, rfl, rfl⟩) rfl rfl
    refine ⟨_, ?_, out .link, fun m e => isolate_others s l .link e, was, line, ?_, hstep⟩
    · simp only [exec, execClockLoss, if_neg hs]
    · rw [hheld, lane_modLane_self]
  · have hz : (resetOne (isolate s l .self) l 9).mod.st ≠ .off := by
      rw [mode_resetOne]
      exact isolate_powered hs l .self
    refine ⟨releaseLane (resetOne (isolate s l .self) l 9) l, ?_, out .self, fun m e => isolate_others s l .self e,
      laneWasReset_release hz (resetOne_was _ l 9), fun h1 h2 => (release_effect hz).1 ?_⟩
    · simp only [exec, execFwWatchdog, hr, if_true]
    · obtain ⟨k1, k2, _⟩ := resetOne_life (isolate s l .self) l 9
      have hb := base_isolate s l .self l
      simp only [lifeBase, Prod.mk.injEq] at hb
      unfold laneHeld
      rw [k1, k2, hb.2.1, hb.2.2.1, h1, h2]
      rfl
  · have hz : (railBack s l).mod.st ≠ .off := by rw [mode_railBack]; exact hs
    obtain ⟨hlife, hpwr⟩ := lane_railBack s l
    have held : laneHeld (lane (railBack s l) l) = (lane s l).life.held := by
      unfold laneHeld
      rw [hlife]
      exact Bool.or_false _
    obtain ⟨hfree, hkept⟩ := release_effect (l := l) hz
    refine ⟨releaseLane (railBack s l) l, ?_, ?_, ?_, fun h => hfree (held.trans h), fun h => (hkept (held.trans h)).trans (by rw [hlife]),
      only_releaseLane (only_railBack s l)⟩
    · simp only [exec, execCoreWarnRelease, hrail, if_true]
      rfl
    · rw [lane_releaseLane hz, hlife]
    · rw [lane_releaseLane hz, hpwr]
  · have hlane := lane_modLane_self s l (fun L => { L with life := { L.life with held := false } })
    have held : laneHeld (lane (modLane s l (fun L => { L with life := { L.life with held := false } })) l) = (lane s l).life.railHeld := by
      rw [hlane]
      exact Bool.false_or _
    obtain ⟨hfree, hkept⟩ := release_effect (z := modLane s l (fun L => { L with life := { L.life with held := false } })) (l := l) hs
    refine ⟨releaseLane (modLane s l (fun L => { L with life := { L.life with held := false } })) l, ?_, ?_, fun h => hfree (held.trans h),
      fun h => (hkept (held.trans h)).trans (by rw [hlane]), only_releaseLane (only_modLane _ (only_refl l s))⟩
    · simp only [exec, execClockRestored, hheld, if_true]
    · rw [lane_releaseLane (by exact hs), hlane]

end Sys2Proof.Laws

/-! ## A lane's way out and back (R24, R28, R40, R48, R188, R189, R518) -/

namespace Sys2Proof.Laws

open Sys2Proof Sys2Proof.Machine Sys2Proof.Safety

/-! ### The verdict of a run of the tests (R458, R460) -/

theorem testVerdict_clean (b : Bist) {x : TestRun} (hr : x.result = .pass) (hp : x.repairs = []) : (testVerdict b x).2 = .pass := by
  unfold testVerdict
  rw [hr, hp]
  rfl

theorem mem_zip_of_take {α β : Type} {e : β} : ∀ (xs : List α) (es : List β), e ∈ es.take xs.length → ∃ x, (x, e) ∈ xs.zip es
  | [], _, h => by simp at h
  | _ :: _, [], h => by simp at h
  | x :: xs, y :: es, h => by
    rw [List.length_cons, List.take_succ_cons] at h
    obtain rfl | h := List.mem_cons.1 h
    · exact ⟨x, List.mem_cons_self⟩
    · obtain ⟨z, hz⟩ := mem_zip_of_take xs es h
      exact ⟨z, List.mem_cons_of_mem _ hz⟩

/-- A signature of the partition that differs from the expected one makes its block fail (R458). -/
theorem failingBlocks_of_mem {p2 : Bool} {es : List (BitVec 128)} {e : BitVec 128} (he : e ∈ es.take (if p2 = true then 1 else 6)) (h0 : e ≠ 0) :
    failingBlocks p2 es ≠ [] := by
  have hl : (partBlocks p2).length = if p2 = true then 1 else 6 := by cases p2 <;> rfl
  obtain ⟨x, hx⟩ := mem_zip_of_take (partBlocks p2) es (hl ▸ he)
  exact List.ne_nil_of_mem (List.mem_filter.2 ⟨hx, by simpa using h0⟩)

theorem testVerdict_logic (b : Bist) {x : TestRun} {p2 : Bool} {es : List (BitVec 128)} {e : BitVec 128} (hr : x.result = .logicFail p2 es)
    (he : e ∈ es.take (if p2 = true then 1 else 6)) (h0 : e ≠ 0) : bistCause (testVerdict b x).2 = .self := by
  have hf : (failingBlocks p2 es).isEmpty = false := by
    rw [List.isEmpty_eq_false_iff]
    exact failingBlocks_of_mem he h0
  unfold testVerdict
  rw [hr]
  dsimp only
  rw [hf]
  rfl

/-- Where no spare row is free none is given to a failing row (R460). -/
theorem spareFor_none {b : Bist} {r : SoftRepair} (h : freeSpares b r.macroNo = 0) : spareFor b r = none := by
  have hn : ∀ n, spareFree b r.macroNo n = false := fun n => by
    have := List.eq_nil_of_length_eq_zero h
    rw [List.filter_eq_nil_iff] at this
    simpa using this n (List.mem_finRange n)
  unfold spareFor
  rw [hn]
  simp [hn]

theorem testVerdict_noSpare (b : Bist) {x : TestRun} {r : SoftRepair} {rest : List SoftRepair} (hp : x.repairs = r :: rest) (hr : x.result = .pass)
    (h : freeSpares b r.macroNo = 0) : (testVerdict b x).2 = .sramFail r.macroNo r.row := by
  unfold testVerdict
  rw [hr, hp]
  unfold mapRows
  rw [spareFor_none h]

/-! ### Entering TEST (R24, R518) -/

theorem lane_enterTest_self (s : State) (l : Lane) (e : TestEntry) : lst (enterTest s l e) l = .test := by
  unfold lst enterTest
  rw [lane_modLane_self]

theorem only_enterTest {l : Lane} {z s : State} (e : TestEntry) (h : onlyLane l z s) : onlyLane l z (enterTest s l e) :=
  only_modLane _ (only_modSluices _ h)

theorem only_tested {l : Lane} {z s : State} (e : TestEntry) (h : onlyLane l z s) : onlyLane l z (tested s l e) :=
  only_modLane _ (only_enterTest e h)

theorem tested_self (s : State) (l : Lane) (e : TestEntry) : lst (tested s l e) l = .test ∧ (lane (tested s l e) l).life.testsDone = true := by
  unfold tested lst
  rw [lane_modLane_self]
  exact ⟨lane_enterTest_self s l e, rfl⟩

theorem only_takeBanks {l : Lane} {z s : State} (h : onlyLane l z s) : onlyLane l z (takeBanks s l) := by
  unfold takeBanks
  split
  · exact only_modLane _ h
  · exact h

theorem only_reinitialise {l : Lane} {z s : State} (h : onlyLane l z s) : onlyLane l z (reinitialise s l) := by
  unfold reinitialise
  dsimp only
  refine only_takeBanks ?_
  split
  · exact only_modLane _ h
  · exact only_modLane _ (only_modLane _ h)

/-- An operation on lane l alone leaves every other lane's state. -/
theorem only_lst {l : Lane} {s t : State} (h : onlyLane l s t) {m : Lane} (e : m ≠ l) : lst t m = lst s m := by
  unfold lst
  rw [h m e]

/-- The tests of an isolated lane that nothing keeps out (R518). -/
theorem exec_reinitialisation {s : State} {l : Lane} (hst : lst s l = .isolated) (hl : (lane s l).life.loneHeld = false)
    (hp : (lane s l).life.planned = .none) {r : TestRun} {v : List SoftRepair × BistResult} (hv : testVerdict (lane s l).bist r = v)
    (hm : noMarch v.2 = true) : exec (.reinitialisation l r) s =
    .next (if v.2 = .pass then tested (reinitialise (enterTest s l .fromIsolated) l) l .fromIsolated
      else isolate (enterTest s l .fromIsolated) l (bistCause v.2)) := by
  have h1 : mayRetest s l = true := by simp [mayRetest, hst, hl, hp]
  have h2 : clearedTest s l = false := by simp [clearedTest, hst]
  show execReinitialisation l r s = _
  unfold execReinitialisation
  dsimp only
  rw [hv, h1, h2, hm]
  cases hv2 : v.2 with
  | pass => rfl
  | logicFail p es => rfl
  | sramFail m n => rfl
  | dramFail a => rfl

/-- The march is none of these tests (R472). -/
theorem exec_reinitialisation_march {s : State} {l : Lane} {r : TestRun} (hm : noMarch (testVerdict (lane s l).bist r).2 = false) :
    exec (.reinitialisation l r) s = .next s := by
  simp only [exec, execReinitialisation, hm, Bool.and_false, Bool.false_eq_true, if_false]

theorem exec_reinitialisation_held {s : State} {l : Lane} (hst : lst s l = .isolated)
    (h : (lane s l).life.loneHeld = true ∨ (lane s l).life.planned ≠ .none) (r : TestRun) : exec (.reinitialisation l r) s = .next s := by
  have h1 : mayRetest s l = false := by
    obtain h | h := h <;> simp [mayRetest, h]
  have h2 : clearedTest s l = false := by simp [clearedTest, hst]
  simp only [exec, execReinitialisation, h1, h2, Bool.false_or, Bool.false_and, Bool.false_eq_true, if_false]

/-- Settles O20: the verdict decides, and a failed test is an isolation out of TEST. -/
theorem isolatedLaneIsTested : Obligations.IsolatedLaneIsTested := by
  intro l s hst
  refine ⟨exec_reinitialisation_held hst, fun hl hp r => ?_⟩
  intro v
  have hex : noMarch v.2 = true → _ := exec_reinitialisation hst hl hp rfl
  have hin : onlyLane l s (enterTest s l .fromIsolated) := only_enterTest _ (only_refl l s)
  refine ⟨fun hv => ?passed, fun hv => ?failed, fun ⟨a, hv⟩ => ?march, testVerdict_clean _,
    fun p2 es e => testVerdict_logic _, fun x rest => testVerdict_noSpare _⟩
  case passed =>
    refine ⟨tested (reinitialise (enterTest s l .fromIsolated) l) l .fromIsolated, ?_, (tested_self _ l _).1, (tested_self _ l _).2,
      fun m e => only_lst (only_tested _ (only_reinitialise hin)) e⟩
    rw [hex (by rw [hv]; rfl), if_pos hv]
  case failed =>
    have ht : isolatable (lst (enterTest s l .fromIsolated) l) = true := by rw [lane_enterTest_self]; rfl
    have hm : noMarch v.2 = true ∧ v.2 ≠ .pass := by
      cases hv2 : v.2 with
      | pass => rw [hv2] at hv; simp [bistCause] at hv
      | logicFail p2 es => exact ⟨rfl, nofun⟩
      | sramFail m x => exact ⟨rfl, nofun⟩
      | dramFail a => rw [hv2] at hv; simp [bistCause] at hv
    refine ⟨enterTest s l .fromIsolated, isolate (enterTest s l .fromIsolated) l (bistCause v.2), ?_, lane_enterTest_self s l _,
      fun m e => only_lst hin e, (isolate_out _ l _ ht).1⟩
    rw [hex hm.1, if_neg hm.2]
  case march => exact exec_reinitialisation_march (by rw [show (testVerdict (lane s l).bist r).2 = _ from hv]; rfl)

end Sys2Proof.Laws

/-! ## The way back and the join (R24, R40, R48, R176, R188, R189) -/

namespace Sys2Proof.Laws

open Sys2Proof Sys2Proof.Machine Sys2Proof.Safety

/-! ### SYNC and the compatibility class (R48) -/

theorem only_enterSync {l : Lane} {z s : State} (h : onlyLane l z s) : onlyLane l z (enterSync s l) :=
  only_modLane _ (only_lanes (t := { s with free := s.free + 1 }) rfl h)

theorem enterSync_self (s : State) (l : Lane) : lst (enterSync s l) l = .sync := by
  unfold enterSync lst
  dsimp only
  rw [lane_modLane_self]

theorem mem_laneList (m : Lane) : m ∈ Lane.list := by cases m <;> decide

theorem mem_servingLanes {s : State} {m : Lane} : m ∈ servingLanes s ↔ lst s m = .serving := by
  unfold servingLanes
  rw [List.mem_filter]
  simp [serving, mem_laneList m]

theorem classOk_iff {s : State} {l : Lane} : classOk s l = true ↔
    ∀ m, lst s m = .serving → field (lane s m).boot.version 31 16 = field (lane s l).boot.version 31 16 := by
  unfold classOk
  rw [List.all_eq_true]
  simp only [mem_servingLanes, decide_eq_true_eq]
  rfl

theorem exec_laneSync {s : State} {l : Lane} (hst : lst s l = .test) (hd : (lane s l).life.testsDone = true)
    (hl : (lane s l).life.loneHeld = false) (ht : s.mod.ticking = true) (ho : operating s.mod.st = true) :
    exec (.laneSync l) s = .next (if classOk s l = true then enterSync s l else noteClass s l) := by
  simp only [exec, execLaneSync, hst, hd, hl, ht, ho]
  rfl

/-! ### The snapshot (R188) -/

/-- The snapshot that the serving lanes send marks nothing. -/
theorem servedSnapshot_marks {s : State} {l : Lane} {x : Snapshot} (h : servedSnapshot s l = some x) : x.marks = [] := by
  unfold servedSnapshot at h
  split at h
  · obtain rfl := Option.some.inj h
    rfl
  · cases h
  · cases h

/-- A lane that takes a snapshot holds what the snapshot carries. -/
theorem snapshotOf_putSnapshot (L : LaneState) {x : Snapshot} (h : x.marks = []) : snapshotOf (putSnapshot L x) = x := by
  cases x
  subst h
  simp [snapshotOf, putSnapshot]

/-! ### Transfer and catch-up (R165, R189) -/

theorem only_setJoin {l : Lane} {z s : State} (j : JoinStep) (h : onlyLane l z s) : onlyLane l z (setJoin s l j) := only_modLane _ h

theorem lane_setJoin (s : State) (l : Lane) (j : JoinStep) :
    lane (setJoin s l j) l = { lane s l with life := { (lane s l).life with join := j } } := lane_modLane_self s l _

theorem exec_transferVerified {s : State} {l : Lane} (hst : lst s l = .reintegrating) (hj : (lane s l).life.join = .transferring) {x : Snapshot}
    (hx : (lane s l).xfer = some x) (cs : List (BitVec 64)) : exec (.transferVerified l cs) s =
    .next (if cs = transferChecks x then setJoin s l (.verified 0) else isolate s l .transfer) := by
  have ha : joinAt s l .transferring = true := by simp [joinAt, hst, hj]
  simp only [exec, execTransferVerified, ha, hx]
  rfl

theorem exec_catchUp {s : State} {l : Lane} (hst : lst s l = .reintegrating) (hp : s.mod.phase = .output ∨ s.mod.phase = .idle) {n : Nat}
    {x now : Snapshot} (hn : catchUps (lane s l).life.join = some n) (hx : (lane s l).xfer = some x) (hv : servedSnapshot s l = some now)
    (b : Bool) (cs : List (BitVec 64)) : exec (.catchUp l b cs) s =
    .next (if cs = catchUpChecks (wroteSince s x) now then catchUpDone s l n b now else isolate s l .transfer) := by
  have hg : (decide (lst s l = .reintegrating) && (decide (s.mod.phase = .output) || decide (s.mod.phase = .idle))) = true := by
    simpa [hst] using hp
  simp only [exec, execCatchUp, hn, hx, hv, hg, Option.map_some]
  rfl

theorem lane_caughtUp (s : State) (l : Lane) (n : Nat) (now : Snapshot) : lane (catchUpDone s l n true now) l =
    { putSnapshot (lane s l) now with xfer := none, life := { (lane s l).life with join := .caughtUp } } := by
  unfold catchUpDone
  rw [if_pos rfl, lane_setJoin, lane_modLane_self]
  rfl

theorem only_caughtUp (s : State) (l : Lane) (n : Nat) (now : Snapshot) : onlyLane l s (catchUpDone s l n true now) := by
  unfold catchUpDone
  rw [if_pos rfl]
  exact only_setJoin _ (only_modLane _ (only_refl l s))

/-- A batch out of time, with a cycle left: what was sent is kept for the next one. -/
theorem catchUpDone_late {s : State} {l : Lane} {n : Nat} (hn : n < 2) (now : Snapshot) : catchUpDone s l n false now =
    setJoin (modLane s l (fun L => { L with xfer := some now })) l (.verified (n + 1)) := by
  unfold catchUpDone
  rw [if_neg (by decide), if_neg (by omega)]

theorem catchUpDone_over {s : State} {l : Lane} {n : Nat} (hn : 2 ≤ n) (now : Snapshot) :
    catchUpDone s l n false now = isolate s l .transfer := by
  unfold catchUpDone
  rw [if_neg (by decide), if_pos hn]

/-- Settles O21: each step of the way back is one change of the lane alone, or an isolation of a lane that an isolation takes. -/
theorem wayBack : Obligations.WayBack := by
  intro l s
  refine ⟨fun hst hd hl ht ho => ⟨fun hc => ?_, fun ⟨m, hm, hv⟩ => ?_⟩, fun hst hm => ?_, fun hst hm => ?_, fun hst hj x hx => ?_,
    fun hst hp n x now hn hx hv => ?_⟩
  · refine ⟨enterSync s l, ?_, enterSync_self s l, only_enterSync (only_refl l s)⟩
    rw [exec_laneSync hst hd hl ht ho, if_pos (classOk_iff.2 hc)]
  · have hc : changesOnly (records ++ [.life]) s (noteClass s l) := chg_noteClass s l (by decide) (changesOnly_refl _ s)
    refine ⟨noteClass s l, ?_, fun k => by rw [lst_of hc], hc⟩
    rw [exec_laneSync hst hd hl ht ho, if_neg (fun h => hv (classOk_iff.1 h m hm))]
  · refine ⟨modLane s l (fun L => { L with
      life := { L.life with st := .reintegrating, join := .transferring, startStep := 0 }, xfer := servedSnapshot s l }), ?_, ?_⟩
    · have hr : mayReintegrate s = true := by simp [mayReintegrate, hm]
      simp only [exec, execStateTransfer, hst, hr]
      rfl
    · refine ⟨?_, ?_, ?_, only_modLane _ (only_refl l s)⟩
      · unfold lst; rw [lane_modLane_self]
      · rw [lane_modLane_self]
      · rw [lane_modLane_self]
  · have hr : mayReintegrate s = false := by simp [mayReintegrate, hm]
    simp only [exec, execStateTransfer, hr, Bool.and_false]
    rfl
  · have hi : isolatable (lst s l) = true := by rw [hst]; rfl
    refine ⟨⟨setJoin s l (.verified 0), ?_, ?_, ?_, ?_, only_setJoin _ (only_refl l s)⟩,
      fun cs hcs => ⟨isolate s l .transfer, ?_, (isolate_out s l _ hi).1⟩⟩
    · rw [exec_transferVerified hst hj hx, if_pos rfl]
    · unfold lst; rw [lane_setJoin]; exact hst
    · rw [lane_setJoin]
    · rw [lane_setJoin]; exact hx
    · rw [exec_transferVerified hst hj hx, if_neg hcs]
  · have hi : isolatable (lst s l) = true := by rw [hst]; rfl
    have hex := exec_catchUp hst hp hn hx hv
    refine ⟨⟨_, (hex _ _).trans (by rw [if_pos rfl]), ?_, ?_, ?_, only_caughtUp s l n now⟩,
      fun h => ⟨_, (hex _ _).trans (by rw [if_pos rfl, catchUpDone_late h]), ?_, ?_, ?_, only_setJoin _ (only_modLane _ (only_refl l s))⟩,
      fun h => ⟨_, (hex _ _).trans (by rw [if_pos rfl, catchUpDone_over h]), (isolate_out s l _ hi).1⟩,
      fun b c hc => ⟨_, (hex _ _).trans (by rw [if_neg hc]), (isolate_out s l _ hi).1⟩⟩
    · rw [lane_caughtUp]
    · unfold lst; rw [lane_caughtUp]; exact hst
    · rw [lane_caughtUp]; exact snapshotOf_putSnapshot (lane s l) (servedSnapshot_marks hv)
    · rw [lane_setJoin]
    · rw [lane_setJoin, lane_modLane_self]
    · unfold lst; rw [lane_setJoin, lane_modLane_self]; exact hst

/-! ### The join (R24, R40, R176) -/

theorem filter_three {p : Lane → Bool} : (Lane.list.filter p).length = 3 ↔ ∀ m, p m = true :=
  List.length_filter_eq_length_iff.trans ⟨fun h m => h m (mem_laneList m), fun h m _ => h m⟩

theorem filter_only {p : Lane → Bool} {l : Lane} (hl : p l = true) (ho : ∀ m, m ≠ l → p m = false) : Lane.list.filter p = [l] := by
  unfold Lane.list
  cases l
  · simp [hl, ho .B (by decide), ho .C (by decide)]
  · simp [hl, ho .A (by decide), ho .C (by decide)]
  · simp [hl, ho .A (by decide), ho .B (by decide)]

theorem filter_none {p : Lane → Bool} (h : ∀ m, p m = false) (xs : List Lane) : xs.filter p = [] := by
  rw [List.filter_eq_nil_iff]
  simp [h]

/-- The lane serves and every Sluice votes it (R40). -/
def joinVoted (s : State) (l : Lane) : State :=
  modSluices (modLane s l (fun L => { L with life := { L.life with st := .serving, join := .none } })) (fun _ x =>
    { x with voting := vput x.voting l.idx true })

/-- The join is recorded. -/
def joinNoted (s : State) (l : Lane) : State := eventAll (joinVoted s l) 2 0x0102 (lanePayload (joinVoted s l) l false)

/-- With three lanes serving, SERVICE_2oo2 becomes SERVICE_3oo3 (R24). -/
def joinPromoted (s : State) (l : Lane) : State :=
  if (joinNoted s l).mod.st = .svc2 ∧ (servingLanes (joinNoted s l)).length = 3 then setModule (joinNoted s l) .svc3 else joinNoted s l

/-- What a join leaves for the latch rule: the floor raised and an update of the lane's firmware ended. -/
def joined (s : State) (l : Lane) : State := endUpdate (floorRaise (joinPromoted s l) l) l 0

theorem exec_laneJoin {s : State} {l : Lane} {n : Nat} (hst : lst s l = .reintegrating) (hj : (lane s l).life.join = .shadow n) (hn : 2 ≤ n)
    (hp : s.mod.phase = .input) (hm : s.mod.st = .svc2) : exec (.laneJoin l) s = .next (latchRule (joined s l)) := by
  have hr : mayReintegrate s = true := by simp [mayReintegrate, hm]
  have hg : (decide (lst s l = .reintegrating) && decide (n ≥ 2) && (decide (s.mod.phase = .input) || decide (s.mod.phase = .idle)) &&
      mayReintegrate s) = true := by simp [hst, hn, hp, hr]
  show execLaneJoin l s = _
  unfold execLaneJoin
  rw [hj]
  dsimp only
  rw [if_pos hg]
  unfold joined joinPromoted joinNoted joinVoted
  with_reducible rfl

theorem joinNoted_frame (s : State) (l : Lane) : changesOnly [.eic, .staging, .ports, .log] (joinVoted s l) (joinNoted s l) :=
  chg_eventAll _ _ _ _ (by decide) (changesOnly_refl _ _)

theorem joinPromoted_frame (s : State) (l : Lane) :
    changesOnly [.mode, .eic, .staging, .ports, .log, .free] (joinNoted s l) (joinPromoted s l) := by
  unfold joinPromoted
  split
  · exact chg_setModule _ _ (by decide) (changesOnly_refl _ _)
  · exact changesOnly_refl _ _

theorem joined_frame (s : State) (l : Lane) :
    changesOnly [.eic, .staging, .mbx, .boot, .ports, .lifetime, .log] (joinPromoted s l) (joined s l) :=
  chg_endUpdate _ _ _ (by decide) (chg_floorRaise _ _ (by decide) (changesOnly_refl _ _))

theorem lane_joinVoted (s : State) (l m : Lane) : lane (joinVoted s l) m =
    if m = l then { lane s l with life := { (lane s l).life with st := .serving, join := .none } } else lane s m := by
  unfold joinVoted
  rw [lane_modSluices]
  by_cases h : m = l
  · subst h
    rw [if_pos rfl, lane_modLane_self]
  · rw [if_neg h, lane_modLane_other _ _ h]

theorem lst_joinNoted (s : State) (l m : Lane) : lst (joinNoted s l) m = if m = l then .serving else lst s m := by
  rw [lst_of (joinNoted_frame s l)]
  unfold lst
  rw [lane_joinVoted]
  split
  · rfl
  · rfl

theorem lst_joined (s : State) (l m : Lane) : lst (joined s l) m = if m = l then .serving else lst s m := by
  rw [lst_of (joined_frame s l), lst_of (joinPromoted_frame s l), lst_joinNoted]

theorem join_joined (s : State) (l : Lane) : (lane (joined s l) l).life.join = .none := by
  rw [life_eq (joined_frame s l) rfl rfl, life_eq (joinPromoted_frame s l) rfl rfl, life_eq (joinNoted_frame s l) rfl rfl, lane_joinVoted,
    if_pos rfl]

theorem sluices_joined (s : State) (l : Lane) :
    (joined s l).sluices = s.sluices.map (fun _ x => { x with voting := vput x.voting l.idx true }) := by
  rw [sluices_of (joined_frame s l) rfl, sluices_of (joinPromoted_frame s l) rfl, sluices_of (joinNoted_frame s l) rfl]
  rfl

theorem latched_joined (s : State) (l m : Lane) : latched (joined s l) m = latched s m := by
  unfold latched
  rw [sluices_joined, get_map]

theorem joinNoted_serving (s : State) (l : Lane) : (servingLanes (joinNoted s l)).length = 3 ↔ ∀ m, m ≠ l → lst s m = .serving := by
  unfold servingLanes
  rw [filter_three]
  refine forall_congr' fun m => ?_
  unfold serving
  rw [decide_eq_true_eq, lst_joinNoted]
  by_cases h : m = l <;> simp [h]

theorem mode_joined {s : State} (hm : s.mod.st = .svc2) (l : Lane) :
    (joined s l).mod.st = if (servingLanes (joinNoted s l)).length = 3 then .svc3 else .svc2 := by
  have h0 : (joinNoted s l).mod.st = .svc2 := (mode_of (joinNoted_frame s l)).trans hm
  rw [mode_of (joined_frame s l)]
  unfold joinPromoted
  by_cases h : (servingLanes (joinNoted s l)).length = 3
  · rw [if_pos ⟨h0, h⟩, if_pos h, setModule_st]
  · rw [if_neg (fun k => h k.2), if_neg h, h0]

/-! ### The latch rule (R176) -/

/-- With no latch set the latch rule does nothing. -/
theorem latchRule_free {s : State} (h : ∀ m, latched s m = false) : latchRule s = s := by
  have ho : latchedOut s = false := by simp [latchedOut, filter_none h]
  unfold latchRule
  rw [ho, if_neg Bool.false_ne_true, filter_none h]
  split <;> rfl

/-- Two latches put the module into SAFE. -/
theorem latchRule_two {s : State} (h : 2 ≤ (Lane.list.filter (latched s)).length) : latchRule s = enterSafe s := by
  have ho : latchedOut s = true := by simp [latchedOut, h]
  unfold latchRule
  rw [if_pos ho]

/-- A lone latch is found before its lane is isolated (R176). -/
def loneFound (s : State) (l : Lane) : State :=
  countDissent (modLane (modSluice s l (fun x => { x with lone := true })) l (fun L => { L with life := { L.life with loneHeld := true } }))
    (laneBits (fun m => decide (m ≠ l)))

/-- One latch while three lanes serve is a lone latch. -/
theorem latchRule_lone {s : State} {l : Lane} (hs : ∀ m, lst s m = .serving) (ho : operating s.mod.st = true) (hl : latched s l = true)
    (hn : ∀ m, m ≠ l → latched s m = false) : latchRule s = isolate (loneFound s l) l .voteDissent := by
  have hf := filter_only hl hn
  have h3 : (servingLanes s).length = 3 := filter_three.2 fun m => decide_eq_true (hs m)
  have hx : latchedOut s = false := by simp [latchedOut, hf, h3]
  unfold latchRule
  rw [hx, if_neg Bool.false_ne_true, if_pos ⟨h3, ho⟩, hf]
  rfl

theorem loneFound_frame (s : State) (l : Lane) : changesOnly [.lifetime]
    (modLane (modSluice s l (fun x => { x with lone := true })) l (fun L => { L with life := { L.life with loneHeld := true } })) (loneFound s l) :=
  chg_countDissent _ _ (by decide) (changesOnly_refl _ _)

theorem lst_loneFound (s : State) (l m : Lane) : lst (loneFound s l) m = lst s m := by
  rw [lst_of (loneFound_frame s l)]
  unfold lst
  by_cases h : m = l
  · subst h; rw [lane_modLane_self]; rfl
  · rw [lane_modLane_other _ _ h]; rfl

theorem loneFound_self (s : State) (l : Lane) : (lane (loneFound s l) l).life.loneHeld = true ∧ ((loneFound s l).sluices.get l).lone = true := by
  constructor
  · rw [life_eq (loneFound_frame s l) rfl rfl]
    exact congrArg (·.life.loneHeld) (lane_modLane_self _ l _)
  · rw [sluices_of (loneFound_frame s l) rfl]
    simp

/-- The lane of a lone latch leaves, is held out, and its Sluice says so. -/
theorem lone_effect {s : State} {l : Lane} (hl : lst s l = .serving) : (lst (isolate (loneFound s l) l .voteDissent) l = .isolated ∨
      lst (isolate (loneFound s l) l .voteDissent) l = .retired) ∧ (lane (isolate (loneFound s l) l .voteDissent) l).life.loneHeld = true ∧
    ((isolate (loneFound s l) l .voteDissent).sluices.get l).lone = true ∧
    ∀ m, m ≠ l → lst (isolate (loneFound s l) l .voteDissent) m = lst s m := by
  have hi : isolatable (lst (loneFound s l) l) = true := by rw [lst_loneFound, hl]; rfl
  obtain ⟨hheld, hlone⟩ := loneFound_self s l
  obtain ⟨hout, -⟩ := isolate_out (loneFound s l) l .voteDissent hi
  obtain ⟨hshow, -, -, hkeep⟩ := isolate_more (loneFound s l) l .voteDissent hi
  obtain ⟨-, -, -, -, -, -, -, -, hx, -, -⟩ := hshow l
  refine ⟨?_, hkeep.trans hheld, hx.trans hlone, fun m e => (isolate_others _ l _ e).trans (lst_loneFound s l m)⟩
  by_cases hr : retires (loneFound s l) l .voteDissent
  · exact .inr (hout.retired hr)
  · exact .inl (hout.isolated hr)

/-- Settles O22: the join leaves every latch as it was, so the latch rule decides on the latches found. -/
theorem laneJoins : Obligations.LaneJoins := by
  intro l n s hst hj
  refine ⟨fun hn hp hm => ?_, fun hn => ?_⟩
  · have hex := exec_laneJoin hst hj hn hp hm
    have hall : (∀ m, m ≠ l → lst s m = .serving) → (joined s l).mod.st = .svc3 := fun h => by
      rw [mode_joined hm, if_pos ((joinNoted_serving s l).2 h)]
    have hsome : (∃ m, m ≠ l ∧ lst s m ≠ .serving) → (joined s l).mod.st = .svc2 := fun ⟨m, e, h⟩ => by
      rw [mode_joined hm, if_neg (fun k => h ((joinNoted_serving s l).1 k m e))]
    refine ⟨fun hfree => ?_, fun ho hown => ?_, fun h2 => ?_⟩
    · refine ⟨joined s l, ?_, ?_, join_joined s l, fun m e => ?_, fun m => ?_, hall, hsome⟩
      · rw [hex, latchRule_free fun m => (latched_joined s l m).trans (hfree m)]
      · rw [lst_joined, if_pos rfl]
      · rw [lst_joined, if_neg e]
      · rw [sluices_joined, get_map]
    · have hs : ∀ m, lst (joined s l) m = .serving := fun m => by
        rw [lst_joined]
        split
        · rfl
        · next e => exact (ho m e).1
      have hop : operating (joined s l).mod.st = true := by rw [hall fun m e => (ho m e).1]; rfl
      have hrule := latchRule_lone hs hop ((latched_joined s l l).trans hown) (fun m e => (latched_joined s l m).trans (ho m e).2)
      obtain ⟨hleft, hheld, hlone, hothers⟩ := lone_effect (hs l)
      exact ⟨_, hex.trans (by rw [hrule]), hleft, hheld, hlone, fun m e => (hothers m e).trans (hs m)⟩
    · have h2' : 2 ≤ (Lane.list.filter (latched (joined s l))).length := by
        rw [show latched (joined s l) = latched s from funext (latched_joined s l)]
        exact h2
      have hns : (joined s l).mod.st ≠ .safe := by
        rw [mode_joined hm]
        split <;> decide
      exact ⟨enterSafe (joined s l), by rw [hex, latchRule_two h2'], enterSafe_st _, enterSafe_latch _ hns⟩
  · simp only [exec, execLaneJoin, hj, show decide (n ≥ 2) = false from decide_eq_false (by omega), Bool.and_false, Bool.false_and]
    rfl

end Sys2Proof.Laws

/-! ## The retirement clear (R28, R307, R404, R486) -/

namespace Sys2Proof.Laws

open Sys2Proof Sys2Proof.Machine Sys2Proof.Safety

theorem clearRetirement_nonce (s : State) (l : Lane) : (clearRetirement s l).cellar.life.nonceLast = s.cellar.life.nonceLast := by
  unfold clearRetirement
  rw [lifetime_of (chg_recordAll _ _ _ (by decide) (changesOnly_refl records _))]
  rfl

theorem clearRetirement_lst (s : State) (l m : Lane) : lst (clearRetirement s l) m = lst s m :=
  lst_of (chg_clearRetirement s l (by decide) (changesOnly_refl (records ++ [.lifetime]) s)) rfl m

theorem clearOrDefer_nonce (l : Lane) (s : State) : (clearOrDefer l s).cellar.life.nonceLast = s.cellar.life.nonceLast := by
  unfold clearOrDefer
  split
  · rw [cellar_modLane]
  split
  · rw [enterTest_cellar, clearRetirement_nonce]
  · exact clearRetirement_nonce s l

/-- In SAFE the clear is only recorded for the lane. -/
theorem clearOrDefer_deferred {s : State} (h : s.mod.st = .safe) (l : Lane) : (lane (clearOrDefer l s) l).life.clearPending = true ∧
    ∀ m, lst (clearOrDefer l s) m = lst s m := by
  unfold clearOrDefer
  rw [if_pos h]
  refine ⟨by rw [lane_modLane_self], fun m => ?_⟩
  unfold lst
  by_cases e : m = l
  · subst e; rw [lane_modLane_self]
  · rw [lane_modLane_other _ _ e]

/-- Out of SAFE a retired lane goes into TEST, and the others stay. -/
theorem clearOrDefer_now {s : State} (h : s.mod.st ≠ .safe) (l : Lane) : (lst s l = .retired → lst (clearOrDefer l s) l = .test) ∧
    ∀ m, m ≠ l → lst (clearOrDefer l s) m = lst s m := by
  unfold clearOrDefer
  rw [if_neg h]
  refine ⟨fun hr => ?_, fun m e => ?_⟩
  · rw [if_pos hr]
    exact lane_enterTest_self _ l _
  · split
    · rw [only_lst (only_enterTest _ (only_refl l (clearRetirement s l))) e, clearRetirement_lst]
    · exact clearRetirement_lst s l m

/-- Settles O23: the accepted request writes its nonce, and its clear is carried out or recorded. -/
theorem retirementClears : Obligations.RetirementClears := by
  intro l a s hr
  have hex := exec_retirementClear l a s
  rw [hr, if_neg (by decide)] at hex
  have hacc := accepted_only s a 1 l.num
  have hlst : ∀ m, lst (recordMaint (takeNonce s a) 1 l.num a) m = lst s m := lst_of hacc
  have hlife := accepted_life s a 1 l.num
  have hmode := mode_of hacc
  refine ⟨fun ha => by rw [hex, harnal_refused ha], fun ha hm => ?_, fun ha hm => ?_, fun u hu => ?_⟩
  · obtain ⟨hpend, hst⟩ := clearOrDefer_deferred (hmode.trans hm) l
    refine ⟨_, hex.trans (by rw [harnal_taken ha]), hpend, ?_, ?_, fun m => (hst m).trans (hlst m)⟩
    · rw [clearOrDefer_lanes, if_pos (hmode.trans hm), hlife]
      exact hr
    · rw [clearOrDefer_nonce, hlife]
  · have hn : (recordMaint (takeNonce s a) 1 l.num a).mod.st ≠ .safe := fun h => hm (hmode.symm.trans h)
    obtain ⟨htest, hst⟩ := clearOrDefer_now hn l
    refine ⟨_, hex.trans (by rw [harnal_taken ha]), ?_, ?_, ?_, fun h => htest ((hlst l).trans h), fun m e => ⟨(hst m e).trans (hlst m), ?_⟩⟩
    · rw [clearOrDefer_lanes, if_neg hn, get_set_self]
    · rw [clearOrDefer_lanes, if_neg hn, get_set_self]
    · rw [clearOrDefer_nonce, hlife]
    · rw [clearOrDefer_lanes, if_neg hn, get_set_other _ _ e, hlife]
  · rw [exec_retirementClear, if_pos hu]

end Sys2Proof.Laws

/-! ## The start of a lane (R24, R449, R472) -/

namespace Sys2Proof.Laws

open Sys2Proof Sys2Proof.Machine Sys2Proof.Safety

/-! ### Boots that fail (R449) -/

/-- The boot slot of a lane is rejected: the other slot boots, or after a second failure in a row the ROM (R449). -/
def slotFailed (s : State) (l : Lane) : State :=
  let L := lane s l
  let second := decide (L.boot.failed ≥ 1)
  let b1 := putSlotState L.boot L.boot.slot .rejected
  let b2 := { b1 with failed := min 2 (b1.failed + 1) }
  modLane s l (fun L => { L with
    boot := if second then b2 else switchSlot b2
    life := { L.life with
      rom := second, startStep := if second then 0 else 1
      resetCause := if second then L.life.resetCause else 0x07
      prevCause := if second then L.life.prevCause else L.life.resetCause } })

/-- The slot that failed, and the module's answer. -/
def bootFailed (s : State) (l : Lane) : State :=
  checkRecovery (if decide ((lane s l).boot.failed ≥ 1) then romEntry (slotFailed s l) else slotFailed s l)

theorem bootFailed_frame (s : State) (l : Lane) : changesOnly (records ++ [.mode, .free]) (slotFailed s l) (bootFailed s l) := by
  unfold bootFailed
  refine chg_checkRecovery _ (by decide) ?_
  split
  · exact chg_romEntry _ (by decide) (changesOnly_refl _ _)
  · exact changesOnly_refl _ _

/-- A lane whose service core boots: its core is free and the module is powered. -/
def boots (s : State) (l : Lane) : Prop :=
  lst s l = .boot ∧ (lane s l).life.rom = false ∧ laneHeld (lane s l) = false ∧ s.mod.st ≠ .off

theorem boots_guard {s : State} {l : Lane} (h : boots s l) : (decide ((lane s l).life.st = .boot) && !(lane s l).life.rom &&
    !laneHeld (lane s l) && decide (s.mod.st ≠ .off)) = true := by
  obtain ⟨hst, hrom, hheld, hpow⟩ := h
  have hst' : (lane s l).life.st = .boot := hst
  simp [hst', hrom, hheld, hpow]

theorem exec_bootFailed {s : State} {l : Lane} (h : boots s l) : exec (.bootFailed l) s = .next (bootFailed s l) := by
  show execBootFailed l s = _
  unfold execBootFailed
  dsimp only
  rw [if_pos (boots_guard h)]
  unfold bootFailed slotFailed
  with_reducible rfl

theorem lane_slotFailed_first {s : State} {l : Lane} (h : (lane s l).boot.failed = 0) : lane (slotFailed s l) l =
    { lane s l with
      boot := switchSlot { putSlotState (lane s l).boot (lane s l).boot.slot .rejected with failed := 1 }
      life := { (lane s l).life with rom := false, startStep := 1, resetCause := 7, prevCause := (lane s l).life.resetCause } } := by
  have hf : (putSlotState (lane s l).boot (lane s l).boot.slot .rejected).failed = 0 := by
    unfold putSlotState
    split <;> exact h
  unfold slotFailed
  rw [lane_modLane_self, h, hf]
  rfl

theorem lane_slotFailed_again {s : State} {l : Lane} (h : 1 ≤ (lane s l).boot.failed) : lane (slotFailed s l) l =
    { lane s l with
      boot := { putSlotState (lane s l).boot (lane s l).boot.slot .rejected with
        failed := min 2 ((putSlotState (lane s l).boot (lane s l).boot.slot .rejected).failed + 1) }
      life := { (lane s l).life with rom := true, startStep := 0 } } := by
  unfold slotFailed
  rw [lane_modLane_self, show decide ((lane s l).boot.failed ≥ 1) = true from decide_eq_true h]
  rfl

theorem slotState_putSlotState (b : Boot) (one : Bool) (x : SlotSt) : slotState (putSlotState b one x) one = x := by
  cases one <;> rfl

theorem lst_bootFailed (s : State) (l : Lane) {m : Lane} (h : m ≠ l) : lst (bootFailed s l) m = lst s m := by
  rw [lst_of (bootFailed_frame s l)]
  exact only_lst (only_modLane _ (only_refl l s)) h

/-! ### The firmware starts (R472) -/

/-- The lane is in TEST, its links reported up to date, before it has read the Cellar. -/
def firmwareRuns (s : State) (l : Lane) : State :=
  modLane (modSluices s (fun _ x => { x with
    linkTimedOut := vput x.linkTimedOut l.idx false, linkReset := vput x.linkReset l.idx false })) l (fun L => { L with
    life := { L.life with st := .test, entry := .fromBoot, testsDone := false, startStep := 2, planned := .none, classNoted := false }
    boot := { L.boot with version := slotVersion L.boot, failed := 0, slotsRead := true, romStatus := 0 }
    cel := { L.cel with lastPeriod := flushPeriod s } })

theorem started_frame (s : State) (x : FirmwareBoot) :
    changesOnly [.eic, .staging, .ports, .log, .free] (firmwareRuns s x.lane) (started s x) :=
  chg_recordLane _ _ _ _ (by decide) (chg_settleLevels _ _ (by decide) (chg_bootRead _ _ _ _ (by decide)
    (chg_bootRead _ _ _ _ (by decide) (changesOnly_refl _ _))))

/-- An update that ends leaves the count of failed boots. -/
theorem endUpdate_failed (s : State) (l : Lane) (reason : Nat) (m : Lane) :
    (lane (endUpdate s l reason) m).boot.failed = (lane s m).boot.failed := by
  unfold endUpdate
  split
  · rfl
  · dsimp only
    refine (congrArg Boot.failed (boot_of (chg_finishAll _ _ _ (by decide) (chg_eventLane _ _ _ _ _ (by decide)
      (changesOnly_refl (records ++ [.mbx]) _))) rfl m)).trans ?_
    have hm : (lane (modLane s l (fun L => { L with boot := { L.boot with
        update := none, step := 0, reason := BitVec.ofNat 8 reason } })) m).boot.failed = (lane s m).boot.failed := by
      by_cases e : m = l
      · subst e; rw [lane_modLane_self]
      · rw [lane_modLane_other _ _ e]
    split
    · exact (congrArg Boot.failed (boot_of (chg_addHistory _ _ _ _ _ _ (by decide) (changesOnly_refl [.lifetime] _)) rfl m)).trans hm
    · exact hm

/-- The firmware has started; an update whose image did not boot has ended. -/
def firmwareUp (s : State) (x : FirmwareBoot) : State :=
  if decide ((lane s x.lane).life.resetCause = 0x07) then endUpdate (started (startTime s) x) x.lane 0x0E else started (startTime s) x

theorem exec_firmwareStart {s : State} {x : FirmwareBoot} (h : boots s x.lane) : exec (.firmwareStart x) s = .next (firmwareUp s x) := by
  show execFirmwareStart x s = _
  unfold execFirmwareStart
  dsimp only
  rw [if_pos (boots_guard h)]
  unfold firmwareUp
  with_reducible rfl

theorem firmwareUp_frame (s : State) (x : FirmwareBoot) :
    changesOnly [.eic, .staging, .mbx, .boot, .ports, .lifetime, .log, .free] (firmwareRuns (startTime s) x.lane) (firmwareUp s x) := by
  have hs : changesOnly [.eic, .staging, .mbx, .boot, .ports, .lifetime, .log, .free] (firmwareRuns (startTime s) x.lane) (started (startTime s) x) :=
    changes_step (by decide) (started_frame (startTime s) x) (changesOnly_refl _ _)
  unfold firmwareUp
  split
  · exact chg_endUpdate _ _ _ (by decide) hs
  · exact hs

theorem firmwareUp_failed (s : State) (x : FirmwareBoot) : (lane (firmwareUp s x) x.lane).boot.failed = 0 := by
  have h : (lane (started (startTime s) x) x.lane).boot.failed = 0 := by
    rw [boot_of (started_frame (startTime s) x)]
    exact congrArg (·.boot.failed) (lane_modLane_self _ x.lane _)
  unfold firmwareUp
  split
  · rw [endUpdate_failed, h]
  · exact h

theorem startTime_frame (s : State) : changesOnly [.clock] s (startTime s) := chg_startTime s (by decide) (changesOnly_refl _ s)

theorem lst_firmwareRuns (s : State) (l : Lane) : lst (firmwareRuns s l) l = .test ∧ ∀ m, m ≠ l → lst (firmwareRuns s l) m = lst s m :=
  ⟨congrArg (·.life.st) (lane_modLane_self _ l _), fun _ e => only_lst (only_modLane _ (only_modSluices _ (only_refl l s))) e⟩

/-! ### The end of the start-up tests (R457, R460, R472) -/

/-- The tests of the start are set up with the repair map that the MRAM holds (R457). -/
def startTested (s : State) (l : Lane) : State :=
  modLane (beginTests s l 2) l (fun L => { L with bist := { L.bist with repairs := s.cellar.life.repairs.get l } })

theorem bist_startTested (s : State) (l : Lane) : (lane (startTested s l) l).bist =
    { (lane s l).bist with trigger := 2, result := 0, repairs := s.cellar.life.repairs.get l } := by
  unfold startTested beginTests
  rw [lane_modLane_self, lane_modLane_self]

/-- The rows found are repaired. -/
def repaired (s : State) (l : Lane) (rs : List SoftRepair) : State := foldS rs (softRepair l) (startTested s l)

theorem laneOnly_bist (L : LaneState) (b : Bist) : laneOnly [.bist] L { L with bist := b } := by
  intro p hp
  cases p <;> simp_all [sameLane]

theorem startTested_frame (s : State) (l : Lane) : changesOnly [.bist] s (startTested s l) :=
  changes_modLane l _ (laneOnly_bist _ _) (chg_beginTests s l 2 (by decide) (changesOnly_refl _ s))

theorem repaired_frame (s : State) (l : Lane) (rs : List SoftRepair) : changesOnly (records ++ [.bist, .lifetime]) s (repaired s l rs) :=
  changes_foldS rs _ (fun t r h => chg_softRepair l t r (by decide) h)
    (changes_step (by decide) (startTested_frame s l) (changesOnly_refl _ s))

/-- The retirements that stand in the MRAM stay. -/
def sameRetired (s t : State) : Prop := ∀ m, (t.cellar.life.lanes.get m).retired = (s.cellar.life.lanes.get m).retired

theorem lanes_softRepair (l : Lane) (s : State) (r : SoftRepair) : (softRepair l s r).cellar.life.lanes = s.cellar.life.lanes := by
  unfold softRepair
  dsimp only
  rw [lifetime_of (chg_eventLane _ _ _ _ _ (by decide) (changesOnly_refl records _))]
  rfl

theorem lanes_softRepairs (l : Lane) (rs : List SoftRepair) (s : State) :
    (foldS rs (softRepair l) s).cellar.life.lanes = s.cellar.life.lanes := by
  unfold foldS
  induction rs generalizing s with
  | nil => rfl
  | cons r rs ih => exact (ih (softRepair l s r)).trans (lanes_softRepair l s r)

theorem retired_repaired (s : State) (l : Lane) (rs : List SoftRepair) : sameRetired s (repaired s l rs) := fun m =>
  congrArg (fun x : PerLane LaneLifetime => (x.get m).retired) (lanes_softRepairs l rs (startTested s l))

theorem retired_bistPassed (s : State) (l : Lane) (march : Bool) (n : Nat) (start : Time) : sameRetired s (bistPassed s l march n start) :=
  fun m => by
    unfold bistPassed
    dsimp only
    rw [lifetime_of (chg_eventLane _ _ _ _ _ (by decide) (changesOnly_refl records _))]
    show ((s.cellar.life.lanes.set l { s.cellar.life.lanes.get l with bistPass := start }).get m).retired = _
    by_cases e : m = l
    · rw [e, get_set_self]
    · rw [get_set_other _ _ e]

theorem exec_laneTestDone {s : State} {x : StartTests} (hst : lst s x.lane = .test) (he : (lane s x.lane).life.entry = .fromBoot)
    (hd : (lane s x.lane).life.testsDone = false) {r : BistResult} (hr : noMarch r = true) (reps : List SoftRepair) {v : List SoftRepair × BistResult}
    (hv : testVerdict (lane (startTested s x.lane) x.lane).bist { result := r, repairs := reps } = v) : exec (.laneTestDone x r reps) s =
    .next (if v.2 = .pass then testsPassed (bistPassed (repaired s x.lane v.1) x.lane false v.1.length s.mod.tickTime) x.lane x.badA x.badB
      else testsFailed (repaired s x.lane v.1) x.lane v.2) := by
  have hst' : (lane s x.lane).life.st = .test := hst
  have hg : (decide ((lane s x.lane).life.st = .test) && decide ((lane s x.lane).life.entry = .fromBoot) &&
      !(lane s x.lane).life.testsDone && noMarch r) = true := by simp [hst', he, hd, hr]
  unfold startTested at hv
  show execLaneTestDone x r reps s = _
  unfold execLaneTestDone
  dsimp only
  rw [if_pos hg, hv]
  unfold repaired startTested
  cases hv2 : v.2 with
  | pass => rw [if_pos rfl]
  | logicFail p es => rw [if_neg (by simp)]
  | sramFail m n => rw [if_neg (by simp)]
  | dramFail a => rw [if_neg (by simp)]

theorem exec_laneTestDone_march (s : State) (x : StartTests) (a : BitVec 32) (reps : List SoftRepair) :
    exec (.laneTestDone x (.dramFail a) reps) s = .next s := by
  show execLaneTestDone x (.dramFail a) reps s = _
  unfold execLaneTestDone
  simp only [noMarch, Bool.and_false]
  rfl

/-- A lane that has passed takes its banks from its stores. -/
def banksTaken (s : State) (l : Lane) (badA badB : Bool) : State := takeBanks (takeInto (buildBanks s l badA badB) l) l

theorem banksTaken_frame (s : State) (l : Lane) (badA badB : Bool) :
    changesOnly [.clock, .bank, .lifetime, .log] s (banksTaken s l badA badB) :=
  chg_takeBanks _ _ (by decide) (chg_takeInto _ _ (by decide) (chg_buildBanks s l badA badB (by decide) (changesOnly_refl _ s)))

theorem lst_modLane_other (s : State) {l m : Lane} (f : LaneState → LaneState) (h : m ≠ l) : lst (modLane s l f) m = lst s m := by
  unfold lst
  rw [lane_modLane_other _ _ h]

/-- A lane marked RETIRED that passes its tests is RETIRED again (R364). -/
theorem testsPassed_marked {s : State} {l : Lane} (h : (s.cellar.life.lanes.get l).retired = true) (badA badB : Bool) :
    lst (testsPassed s l badA badB) l = .retired ∧ ∀ m, m ≠ l → lst (testsPassed s l badA badB) m = lst s m := by
  have hb := banksTaken_frame s l badA badB
  unfold testsPassed
  dsimp only
  rw [if_pos h]
  have he : ∀ t : State, changesOnly [.eic, .ports] t (eicRaiseAll t 1) := fun t =>
    chg_eicRaiseAll t 1 (by decide) (changesOnly_refl _ t)
  refine ⟨?_, fun m e => ?_⟩
  · rw [lst_of (he _)]
    exact congrArg (·.life.st) (lane_modLane_self _ l _)
  · rw [lst_of (he _), lst_modLane_other _ _ e]
    exact lst_of hb rfl m

/-- Any other lane that passes has its tests done (R472). -/
theorem testsPassed_free {s : State} {l : Lane} (h : (s.cellar.life.lanes.get l).retired = false) (badA badB : Bool) :
    lst (testsPassed s l badA badB) l = lst s l ∧ (lane (testsPassed s l badA badB) l).life.testsDone = true ∧
    ∀ m, m ≠ l → lst (testsPassed s l badA badB) m = lst s m := by
  have hb := banksTaken_frame s l badA badB
  unfold testsPassed
  dsimp only
  rw [h, if_neg (by decide)]
  have hf : ∀ t : State, changesOnly [.clock, .sessions, .bank, .alk] t (startBus (foldS Lane.list agreeBanks t)) := fun t =>
    chg_startBus _ (by decide) (changes_foldS _ _ (fun u m k => chg_agreeBanks u m (by decide) k) (changesOnly_refl _ t))
  refine ⟨?_, ?_, fun m e => ?_⟩
  · rw [lst_of (hf _)]
    unfold lst
    rw [lane_modLane_self]
    exact lst_of hb rfl l
  · rw [life_eq (hf _) rfl rfl, lane_modLane_self]
  · rw [lst_of (hf _), lst_modLane_other _ _ e]
    exact lst_of hb rfl m

/-- A cause found for a RETIRED lane is recorded only (R173). -/
theorem isolate_retired {s : State} {l : Lane} (h : lst s l = .retired) (c : IsoCause) : changesOnly records s (isolate s l c) := by
  unfold isolate isolateWith
  rw [if_neg (by simp [isolatable, countsInPlanned, h]), h]
  exact chg_recordAll _ _ _ (by decide) (changesOnly_refl records s)

theorem bistFailed_frame (s : State) (l : Lane) (r : BistResult) : changesOnly (records ++ [.bist, .free]) s (bistFailed s l r) :=
  chg_bistFailed s l r (by decide) (changesOnly_refl _ s)

theorem testsFailed_marked {s : State} {l : Lane} (h : (s.cellar.life.lanes.get l).retired = true) (r : BistResult) :
    lst (testsFailed s l r) l = .retired ∧ ∀ m, m ≠ l → lst (testsFailed s l r) m = lst s m := by
  unfold testsFailed
  dsimp only
  rw [if_pos h]
  have hst : lst (modLane (bistFailed s l r) l (fun L => { L with life := { L.life with st := .retired, startStep := 0 } })) l = .retired :=
    congrArg (·.life.st) (lane_modLane_self _ l _)
  refine ⟨(lst_of (isolate_retired hst _) rfl l).trans hst, fun m e => ?_⟩
  rw [isolate_others _ _ _ e, lst_modLane_other _ _ e, lst_of (bistFailed_frame s l r)]

theorem testsFailed_free {s : State} {l : Lane} (h : (s.cellar.life.lanes.get l).retired = false) (r : BistResult) :
    testsFailed s l r = isolate (bistFailed s l r) l (bistCause r) := by
  unfold testsFailed
  dsimp only
  rw [h, if_neg (by decide)]

/-- A first boot that fails in a row goes to the other slot (R449). -/
theorem bootFailed_first {s : State} {l : Lane} (hst : lst s l = .boot) (h0 : (lane s l).boot.failed = 0) :
    let t := bootFailed s l
    lst t l = .boot ∧ (lane t l).life.rom = false ∧ (lane t l).life.resetCause = 7 ∧ (lane t l).boot.failed = 1 ∧
    (lane t l).boot.slot = (!(lane s l).boot.slot) ∧ slotState (lane t l).boot (lane s l).boot.slot = .rejected ∧ ∀ m, m ≠ l → lst t m = lst s m := by
  intro t
  have hf : changesOnly (records ++ [.mode, .free]) (slotFailed s l) t := bootFailed_frame s l
  have hlst : lst t l = (lane (slotFailed s l) l).life.st := lst_of hf rfl l
  rw [hlst, life_eq hf rfl rfl, boot_of hf, lane_slotFailed_first h0]
  exact ⟨hst, rfl, rfl, rfl, congrArg (!·) (slot_putSlotState _ _ _), slotState_putSlotState _ _ _, fun m e => lst_bootFailed s l e⟩

/-- A second one goes to the ROM (R449). -/
theorem bootFailed_again {s : State} {l : Lane} (hst : lst s l = .boot) (h1 : 1 ≤ (lane s l).boot.failed) :
    let t := bootFailed s l
    lst t l = .boot ∧ (lane t l).life.rom = true ∧ (lane t l).boot.slot = (lane s l).boot.slot ∧
    slotState (lane t l).boot (lane s l).boot.slot = .rejected ∧ ∀ m, m ≠ l → lst t m = lst s m := by
  intro t
  have hf : changesOnly (records ++ [.mode, .free]) (slotFailed s l) t := bootFailed_frame s l
  have hlst : lst t l = (lane (slotFailed s l) l).life.st := lst_of hf rfl l
  rw [hlst, life_eq hf rfl rfl, boot_of hf, lane_slotFailed_again h1]
  exact ⟨hst, rfl, slot_putSlotState _ _ _, slotState_putSlotState _ _ _, fun m e => lst_bootFailed s l e⟩

/-- The firmware that has started (R24, R164, R472). -/
theorem firmwareUp_facts (s : State) (x : FirmwareBoot) :
    let t := firmwareUp s x
    lst t x.lane = .test ∧ (lane t x.lane).life.entry = .fromBoot ∧ (lane t x.lane).life.testsDone = false ∧ (lane t x.lane).boot.failed = 0 ∧
    (∀ m, m ≠ x.lane → lst t m = lst s m) ∧
    (∀ m, let y := s.sluices.get m
      t.sluices.get m = { y with linkTimedOut := vput y.linkTimedOut x.lane.idx false, linkReset := vput y.linkReset x.lane.idx false }) ∧
    t.field = s.field ∧ t.alk = s.alk := by
  intro t
  have hu : changesOnly [.eic, .staging, .mbx, .boot, .ports, .lifetime, .log, .free] (firmwareRuns (startTime s) x.lane) t := firmwareUp_frame s x
  have ht := startTime_frame s
  obtain ⟨hself, hothers⟩ := lst_firmwareRuns (startTime s) x.lane
  have hlife : lane (firmwareRuns (startTime s) x.lane) x.lane = _ := lane_modLane_self _ x.lane _
  refine ⟨(lst_of hu rfl _).trans hself, ?_, ?_, firmwareUp_failed s x, fun m e => ?_, fun m => ?_,
    (field_of hu).trans (show (startTime s).field = s.field from field_of ht), ((hu .alk rfl).1).trans (ht .alk rfl).1⟩
  · rw [life_eq hu rfl rfl, hlife]
  · rw [life_eq hu rfl rfl, hlife]
  · rw [lst_of hu, hothers m e, lst_of ht]
  · rw [sluices_of hu rfl, ← sluices_of ht rfl]
    exact get_map _ _ _

/-- The lane's start-up tests have passed, before its banks are built. -/
def startWon (s : State) (l : Lane) (v : List SoftRepair) : State := bistPassed (repaired s l v) l false v.length s.mod.tickTime

theorem lst_startWon (s : State) (l : Lane) (v : List SoftRepair) (m : Lane) : lst (startWon s l v) m = lst s m := by
  have hpass : changesOnly (records ++ [.bist, .lifetime, .free]) (repaired s l v) (startWon s l v) :=
    chg_bistPassed _ _ _ _ _ (by decide) (changesOnly_refl _ _)
  rw [lst_of hpass, lst_of (repaired_frame s l v)]

theorem retired_startWon (s : State) (l : Lane) (v : List SoftRepair) (m : Lane) :
    ((startWon s l v).cellar.life.lanes.get m).retired = (s.cellar.life.lanes.get m).retired :=
  (retired_bistPassed _ _ _ _ _ m).trans (retired_repaired s l v m)

/-- Tests that pass end the start, or the lane is RETIRED again (R364, R472). -/
theorem startTests_pass {s : State} {l : Lane} (hst : lst s l = .test) (v : List SoftRepair) (badA badB : Bool) :
    let t := testsPassed (startWon s l v) l badA badB
    let marked := (s.cellar.life.lanes.get l).retired
    (marked = true → lst t l = .retired) ∧ (marked = false → lst t l = .test ∧ (lane t l).life.testsDone = true) ∧
    ∀ m, m ≠ l → lst t m = lst s m := by
  intro t marked
  have hmark : ((startWon s l v).cellar.life.lanes.get l).retired = marked := retired_startWon s l v l
  cases hm : marked with
  | false =>
    obtain ⟨h1, h2, h3⟩ := testsPassed_free (hmark.trans hm) badA badB
    exact ⟨fun h => Bool.noConfusion h, fun _ => ⟨h1.trans ((lst_startWon s l v l).trans hst), h2⟩, fun m e => (h3 m e).trans (lst_startWon s l v m)⟩
  | true =>
    obtain ⟨h1, h2⟩ := testsPassed_marked (hmark.trans hm) badA badB
    exact ⟨fun _ => h1, fun h => Bool.noConfusion h, fun m e => (h2 m e).trans (lst_startWon s l v m)⟩

theorem noMarch_of {r : BistResult} (h : ∀ a, r ≠ .dramFail a) : noMarch r = true := by
  cases r with
  | dramFail a => exact absurd rfl (h a)
  | pass => rfl
  | logicFail p es => rfl
  | sramFail n k => rfl

/-- Settles O49: what starts, boots again or is tested is one lane, and the records of it touch no lane's state. -/
theorem lanesStart : Obligations.LanesStart := by
  intro l s
  refine ⟨fun hst => ⟨?_, fun x hx => ?_⟩, fun hst hrom hheld hpow => ⟨fun h0 => ⟨_, exec_bootFailed ⟨hst, hrom, hheld, hpow⟩, bootFailed_first hst h0⟩,
    fun h1 => ⟨_, exec_bootFailed ⟨hst, hrom, hheld, hpow⟩, bootFailed_again hst h1⟩, fun x hx => ?_⟩, fun hst hentry hdone x reps r hx => ?_⟩
  · have hn : (lane s l).life.st ≠ .boot := hst
    simp only [exec, execBootFailed, hn, decide_false, Bool.false_and]
    rfl
  · subst hx
    have hn : (lane s x.lane).life.st ≠ .boot := hst
    simp only [exec, execFirmwareStart, hn, decide_false, Bool.false_and]
    rfl
  · subst hx
    exact ⟨_, exec_firmwareStart ⟨hst, hrom, hheld, hpow⟩, firmwareUp_facts s x⟩
  · subst hx
    intro v marked
    refine ⟨fun ⟨a, ha⟩ => ha ▸ exec_laneTestDone_march s x a reps, fun hr => ?_⟩
    have hex := exec_laneTestDone hst hentry hdone (noMarch_of hr) reps (v := v) (by rw [bist_startTested])
    have hrep := repaired_frame s x.lane v.1
    have hret := retired_repaired s x.lane v.1 x.lane
    refine ⟨fun hv => ⟨_, hex.trans (by rw [if_pos hv]; rfl), startTests_pass hst v.1 x.badA x.badB⟩, fun hv hmk => ?_, fun hv hmk => ?_⟩
    · obtain ⟨h1, h2⟩ := testsFailed_marked (hret.trans hmk) v.2
      exact ⟨_, hex.trans (by rw [if_neg hv]), h1, fun m e => (h2 m e).trans (lst_of hrep rfl m)⟩
    · have hlst : ∀ m, lst (bistFailed (repaired s x.lane v.1) x.lane v.2) m = lst s m := fun m => by
        rw [lst_of (bistFailed_frame _ _ _), lst_of hrep]
      refine ⟨_, _, hex.trans (by rw [if_neg hv, testsFailed_free (hret.trans hmk)]), hlst, (isolate_out _ _ _ ?_).1⟩
      rw [hlst, hst]
      rfl

end Sys2Proof.Laws

/-! ## The limit of a start, keys and restarts (R307, R473, R482, R484) -/

namespace Sys2Proof.Laws

open Sys2Proof Sys2Proof.Machine Sys2Proof.Safety

/-! ### What a flush for a restart leaves in the pages (R418) -/

theorem copyPage_restarts (g f : Lifetime) (p : Nat) : (copyPage g f p).restarts = if p = 1 then g.restarts else f.restarts := by
  unfold copyPage
  split <;> simp_all

/-- The pages written hold the restarts as the keeper has them where page 1 is among them. -/
theorem foldl_copyPage_restarts (g : Lifetime) (ps : List Nat) (f : Lifetime) :
    (ps.foldl (copyPage g) f).restarts = if 1 ∈ ps then g.restarts else f.restarts := by
  induction ps generalizing f with
  | nil => rfl
  | cons p ps ih =>
    rw [List.foldl_cons, ih, copyPage_restarts]
    by_cases h : 1 ∈ ps
    · rw [if_pos h, if_pos (List.mem_cons_of_mem _ h)]
    · by_cases e : p = 1
      · subst e; simp
      · simp [h, e, Ne.symm e]

theorem keeperPages_restarts (s : State) : (keeperPages s).cellar.keeper = s.cellar.keeper ∧
    (keeperPages s).cellar.life.restarts = s.cellar.life.restarts ∧ (keeperPages s).cellar.paged.restarts = s.cellar.life.restarts := by
  refine ⟨rfl, rfl, ?_⟩
  unfold keeperPages savePages
  dsimp only
  rw [foldl_copyPage_restarts, if_pos (List.mem_append_left _ (by decide))]
  rfl

theorem pages_closeLost (s : State) (l : Lane) : samePages s (closeLost s l) := by
  unfold closeLost
  dsimp only
  split
  · exact pages_refl s
  · exact pages_putRecord s l _ _

theorem pages_drainStaging (s : State) (l : Lane) : samePages s (drainStaging s l) :=
  pages_foldS _ _ (fun _ _ => pages_writeRecord _ _ _) (modLane s l _)

theorem pages_drained (s : State) (l : Lane) : samePages s (drained s l) := pages_trans (pages_closeLost s l) (pages_drainStaging _ l)

theorem drained_only (s : State) (l : Lane) : changesOnly [.staging, .log] s (drained s l) :=
  chg_drainStaging _ l (by decide) (chg_closeLost s l (by decide) (changesOnly_refl _ s))

/-- A lane flushes for a restart where its core runs (R484). -/
def restartFlush (s : State) (l : Lane) : State := if runs s l then flushLane s l .power else s

theorem restartFlush_only (s : State) (l : Lane) : changesOnly [.staging, .lifetime, .log] s (restartFlush s l) := by
  unfold restartFlush
  split
  · exact chg_flushLane s l .power (by decide) (changesOnly_refl _ s)
  · exact changesOnly_refl _ s

theorem restartFlush_runs (s : State) (l m : Lane) : runs (restartFlush s l) m = runs s m :=
  have h := restartFlush_only s l
  runs_same (lst_of h rfl m) (mode_of h) (by rw [bist_of h])

/-- The keeper stays, its count of restarts too, and its own flush brings that count to page 1. -/
theorem restartFlush_restarts (s : State) (l : Lane) : (restartFlush s l).cellar.keeper = s.cellar.keeper ∧
    (restartFlush s l).cellar.life.restarts = s.cellar.life.restarts ∧ (restartFlush s l).cellar.paged.restarts =
      if runs s l = true ∧ s.cellar.keeper = some l then s.cellar.life.restarts else s.cellar.paged.restarts := by
  obtain ⟨hk, hp⟩ := pages_drained s l
  have hl : (drained s l).cellar.life = s.cellar.life := lifetime_of (drained_only s l)
  unfold restartFlush
  by_cases hr : runs s l = true
  · rw [if_pos hr, flushLane_power, cellar_modLane]
    unfold powerPages
    rw [hk]
    by_cases e : s.cellar.keeper = some l
    · obtain ⟨k1, k2, k3⟩ := keeperPages_restarts (drained s l)
      rw [if_pos e, if_pos ⟨hr, e⟩, k1, k2, k3, hk, hl]
      exact ⟨rfl, rfl, rfl⟩
    · rw [if_neg e, if_neg (fun h => e h.2), hl, hp]
      exact ⟨hk, rfl, rfl⟩
  · rw [if_neg hr, if_neg (fun h => hr h.1)]
    exact ⟨rfl, rfl, rfl⟩

/-- Where the keeper runs and flushes, page 1 holds the restarts counted so far. -/
theorem restartFlushes_restarts {k : Lane} (xs : List Lane) {s : State} (hk : s.cellar.keeper = some k) (hr : runs s k = true)
    (h : k ∈ xs ∨ s.cellar.paged.restarts = s.cellar.life.restarts) :
    (foldS xs restartFlush s).cellar.paged.restarts = s.cellar.life.restarts := by
  unfold foldS
  induction xs generalizing s with
  | nil => exact h.resolve_left (by simp)
  | cons x xs ih =>
    obtain ⟨h1, h2, h3⟩ := restartFlush_restarts s x
    rw [List.foldl_cons, ← h2]
    refine ih (h1.trans hk) ((restartFlush_runs s x k).trans hr) ?_
    by_cases e : x = k
    · subst e
      exact .inr (by rw [h3, h2, if_pos ⟨hr, hk⟩])
    · obtain h | h := h
      · exact .inl ((List.mem_cons.1 h).resolve_left (Ne.symm e))
      · refine .inr ?_
        rw [h3, h2, h, ite_self]

/-- Page 6 holds no restarts. -/
theorem modPages_restarts (s : State) (f : Lifetime → Lifetime) : (modPages s [6] f).cellar.paged.restarts = s.cellar.paged.restarts := rfl

theorem flushedFor_restarts {s : State} {k : Lane} (hk : s.cellar.keeper = some k) (hr : runs s k = true) (into : Word) :
    (flushedFor s into).cellar.paged.restarts = s.cellar.life.restarts := by
  have h := restartFlushes_restarts Lane.list hk hr (.inl (mem_laneList k))
  unfold flushedFor
  dsimp only
  split
  · exact h
  · rw [modPages_restarts]
    exact h

/-- A vintage that is named stands in page 6 before the reset. -/
theorem flushedFor_into (s : State) {into : Word} (h : into ≠ 0) : (flushedFor s into).cellar.paged.restartInto = into := by
  unfold flushedFor
  dsimp only
  rw [if_neg h]
  rfl

theorem applyClear_into (s : State) (l : Lane) : (applyClear s l).cellar.paged.restartInto = s.cellar.paged.restartInto := by
  unfold applyClear
  split
  · unfold clearRetirement
    rw [(pages_recordAll _ _ _).2]
    rfl
  · rfl

/-- A restart reads RESTART_INTO from the pages. -/
theorem restartNow_into (s : State) (cause : Nat) : (restartNow s cause).cellar.life.restartInto = s.cellar.paged.restartInto := by
  show (applyClear (applyClear (applyClear s .A) .B) .C).cellar.paged.restartInto = _
  simp only [applyClear_into]

/-! ### The commands -/

theorem exec_bootLimit_held {s : State} (h : s.mod.st ≠ .boot ∨ 2 ≤ (reachedSync s).length) : exec .bootLimit s = .next s := by
  have hg : (decide (s.mod.st = .boot) && decide ((reachedSync s).length < 2)) = false := by
    obtain h | h := h
    · simp [h]
    · simp [Nat.not_lt.2 h]
  simp only [exec, execBootLimit, hg, Bool.false_and]
  rfl

theorem exec_bootLimit {s : State} (hb : s.mod.st = .boot) (hn : (reachedSync s).length < 2) (hr : ∀ l, (lane s l).life.rom = false) :
    exec .bootLimit s = .next (latchAll s .bootLimit) := by
  have ha : Lane.list.any (fun l => (lane s l).life.rom) = false := by simp [Lane.list, hr]
  simp only [exec, execBootLimit, hb, hn, ha]
  rfl

/-- The latches of all three Sluices put the module into SAFE (R20, R473). -/
theorem latchAll_safe {s : State} (h : s.mod.st ≠ .safe) (c : LatchCause) :
    (latchAll s c).mod.st = .safe ∧ ∀ l, ((latchAll s c).sluices.get l).latch = true := by
  have hm : (foldS Lane.list (fun s l => setLatch s l c) s).mod.st = s.mod.st :=
    mode_of (changes_foldS _ _ (fun t l k => chg_setLatch t l c (by decide) k) (changesOnly_refl [.sluices] s))
  exact ⟨enterSafe_st _, enterSafe_latch _ (by rw [hm]; exact h)⟩

theorem exec_keyInstall_first {s : State} (h0 : s.cellar.life.keyVersion = 0) (key : BitVec 256) (n : BitVec 64) (a : Auth) :
    exec (.keyInstall key n a) s = .next (if s.mod.st = .commissioning ∧ n = s.cellar.life.serial then
      installKey (recordMaint s 6 0 { keyVersion := 0, nonce := 0, hmacOk := false }) key else s) := by
  simp only [exec, execKeyInstall, h0, if_true]

theorem exec_keyInstall_later {s : State} (h0 : s.cellar.life.keyVersion ≠ 0) (hs : inService s.mod.st = true ∨ s.mod.st = .commissioning)
    (key : BitVec 256) (n : BitVec 64) (a : Auth) : exec (.keyInstall key n a) s = .next (harnal s a 6 0 (fun s => installKey s key)) := by
  have hg : (inService s.mod.st || decide (s.mod.st = .commissioning)) = true := by simpa using hs
  simp only [exec, execKeyInstall, h0, hg, if_false, if_true]

theorem installKey_life (s : State) (key : BitVec 256) : (installKey s key).cellar.life.key = key ∧
    (installKey s key).cellar.life.nonceLast = 0 ∧ (installKey s key).cellar.life.keyVersion =
      if s.cellar.life.keyVersion = 0xFFFF then 0xFFFF else s.cellar.life.keyVersion + 1 := by
  refine ⟨rfl, rfl, ?_⟩
  show (if s.cellar.life.keyVersion = 0xFFFF then s.cellar.life.keyVersion else _) = _
  split
  · assumption
  · rfl

theorem exec_restart {s : State} (hs : s.mod.st ≠ .off) (a : Auth) (into : Word) : exec (.restart a into) s =
    .next (harnal s a 7 0 (fun s =>
      if decide (s.mod.st = .boot) || (decide (into ≠ 0) && !storeHolds s into) then s else requestedRestart s into)) := by
  simp only [exec, execRestart, if_neg hs]

/-- A vintage is held where the banks say so. -/
theorem storeHolds_same {s t : State} (h : ∀ l, (lane t l).bank = (lane s l).bank) (n : Word) : storeHolds t n = storeHolds s n := by
  unfold storeHolds
  simp only [h]

/-- What an accepted restart may not do: restart in BOOT, or into a vintage that no store holds (R484, R485). -/
def restartBarred (s : State) (into : Word) : Prop := s.mod.st = .boot ∨ (into ≠ 0 ∧ storeHolds s into = false)

theorem exec_restart_accepted {s : State} (hs : s.mod.st ≠ .off) {a : Auth} (ha : authOk s a = true) (into : Word) :
    (restartBarred s into → exec (.restart a into) s = .next (recordMaint (takeNonce s a) 7 0 a)) ∧
    (¬ restartBarred s into → exec (.restart a into) s = .next (requestedRestart (recordMaint (takeNonce s a) 7 0 a) into)) := by
  have hacc := accepted_only s a 7 0
  have hg : (decide ((recordMaint (takeNonce s a) 7 0 a).mod.st = .boot) ||
      (decide (into ≠ 0) && !storeHolds (recordMaint (takeNonce s a) 7 0 a) into)) = true ↔ restartBarred s into := by
    rw [mode_of hacc, storeHolds_same (bank_of hacc rfl)]
    simp [restartBarred]
  rw [exec_restart hs, harnal_taken ha]
  refine ⟨fun h => ?_, fun h => ?_⟩
  · rw [if_pos (hg.2 h)]
  · rw [if_neg (fun k => h (hg.1 k))]

/-- Settles O50: the limit latches, an accepted request writes page 6, and a restart is a reset after a flush. -/
theorem limitsKeysRestarts : Obligations.LimitsKeysRestarts := by
  intro s
  refine ⟨fun hb hn hr => ⟨_, exec_bootLimit hb hn hr, latchAll_safe (by rw [hb]; decide) _⟩, exec_bootLimit_held,
    fun key a h0 => ⟨fun hc => ?_, fun n hn => ?_⟩, fun key a b h0 hs => ⟨fun ha => ?_, fun ha => ?_⟩,
    fun a into hs => ⟨fun ha => ?_, fun ha hbar => ?_, fun ha hb hinto => ?_⟩⟩
  · have hrec := chg_recordMaint s 6 0 { keyVersion := 0, nonce := 0, hmacOk := false } (by decide) (changesOnly_refl records s)
    obtain ⟨h1, h2, h3⟩ := installKey_life (recordMaint s 6 0 { keyVersion := 0, nonce := 0, hmacOk := false }) key
    refine ⟨_, (exec_keyInstall_first h0 key _ a).trans (by rw [if_pos ⟨hc, rfl⟩]),
      chg_installKey _ key (by decide) (changes_step (by decide) hrec (changesOnly_refl _ s)), h1, ?_, h2⟩
    rw [h3, lifetime_of hrec, h0]
    rfl
  · rw [exec_keyInstall_first h0, if_neg (fun h => hn.elim (fun k => k h.2) (fun k => k h.1))]
  · rw [exec_keyInstall_later h0 hs, harnal_refused ha]
  · obtain ⟨h1, h2, h3⟩ := installKey_life (recordMaint (takeNonce s a) 6 0 a) key
    refine ⟨_, (exec_keyInstall_later h0 hs key b a).trans (by rw [harnal_taken ha]),
      chg_installKey _ key (by decide) (accepted_only s a 6 0), h1, h2, ?_⟩
    rw [h3, accepted_life]
  · rw [exec_restart hs, harnal_refused ha]
  · refine ⟨_, (exec_restart_accepted hs ha into).1 hbar, accepted_only s a 7 0, ?_⟩
    rw [accepted_life]
  · have hnb : ¬ restartBarred s into := fun h => h.elim hb (fun k => hinto.elim k.1 (fun j => by rw [k.2] at j; cases j))
    have hex := (exec_restart_accepted hs ha into).2 hnb
    have hacc := accepted_only s a 7 0
    have hlife := accepted_life s a 7 0
    have hpages : samePages (takeNonce s a) (recordMaint (takeNonce s a) 7 0 a) :=
      pages_foldS _ _ (fun _ _ => pages_recordOne _ _ _ _ _) _
    generalize recordMaint (takeNonce s a) 7 0 a = u at *
    have hfl := flushedFor_only u into
    have hwas := restartNow_was (flushedFor u into) (if into = 0 then 0x04 else 0x0A)
    rw [← requestedRestart_eq] at hwas
    obtain ⟨hfield, hmem, -⟩ := hwas.stays
    refine ⟨_, hex, hwas.mode.1, fun l => ?_, ?_, ?_, fun h => ?_, fun k hk hr hsafe => ?_⟩
    · obtain ⟨hboot, hpress, -, -, hcause, -⟩ := hwas.lanes l
      refine ⟨hboot, hpress, hcause.trans ?_, (hwas.latches l).1⟩
      split <;> rfl
    · rw [hfield, field_of hfl, field_of hacc]
    · rw [hmem, (hfl .hostMem rfl).1, (hacc .hostMem rfl).1]
    · rw [requestedRestart_eq, restartNow_into, flushedFor_into u h]
    · have hrun : runs u k = true := (runs_same (lst_of hacc rfl k) (mode_of hacc) (by rw [bist_of hacc])).trans hr
      rw [requestedRestart_eq, restartNow_restarts _ _ (by rw [mode_of hfl, mode_of hacc, hsafe]),
        flushedFor_restarts (hpages.1.trans hk) hrun, hlife]

end Sys2Proof.Laws

/-! ## The self-test of a lane (R36, R457, R461 to R468) -/

namespace Sys2Proof.Laws

open Sys2Proof Sys2Proof.Machine Sys2Proof.Safety

/-! ### What an isolation leaves of a lane's self-test -/

/-- A self-test that does not run stays as it is. -/
def idleKept (s t : State) : Prop := ∀ m, (lane s m).bist.phase = 0 → (lane t m).bist = (lane s m).bist

theorem idle_refl (s : State) : idleKept s s := fun _ _ => rfl

theorem idle_trans {s t u : State} (h : idleKept s t) (k : idleKept t u) : idleKept s u := fun m h0 => by
  have e := h m h0
  rw [k m (by rw [e]; exact h0), e]

theorem idle_of {ps : List Part} {s t : State} (h : changesOnly ps s t) (hp : ps.contains .bist = false := by rfl) : idleKept s t :=
  fun m _ => bist_of h hp m

theorem idle_foldS {α : Type} (xs : List α) (f : State → α → State) (hf : ∀ t x, idleKept t (f t x)) (s : State) :
    idleKept s (foldS xs f s) := by
  unfold foldS
  induction xs generalizing s with
  | nil => exact idle_refl s
  | cons a xs ih => exact idle_trans (hf s a) (ih _)

/-- A BIST that ends is one that runs. -/
theorem idle_endBist (s : State) (l : Lane) : idleKept s (endBist s l) := fun m h0 => by
  by_cases e : m = l
  · subst e
    unfold endBist
    rw [if_pos h0]
  · rw [only_endBist (only_refl l s) m e]

theorem idle_setLatch (s : State) (l : Lane) (c : LatchCause) : idleKept s (setLatch s l c) :=
  idle_of (chg_setLatch s l c (by decide) (changesOnly_refl [.sluices] s))

theorem idle_setModule (s : State) (m : ModSt) : idleKept s (setModule s m) :=
  idle_of (chg_setModule s m (by decide) (changesOnly_refl (records ++ [.mode, .free]) s))

theorem idle_safeLane (s : State) : idleKept s (modLanes s (fun _ L => safeLane L)) := fun m _ => by rw [lane_modLanes]; rfl

theorem idle_enterSafe (s : State) : idleKept s (enterSafe s) := by
  unfold enterSafe
  split
  · exact idle_refl s
  · refine idle_trans ?_ (idle_of (chg_recordAll _ _ _ (by decide) (changesOnly_refl records _)))
    refine idle_trans ?_ (idle_setModule _ _)
    exact idle_trans (idle_foldS Lane.list (fun s l => endBist (setLatch s l .follow) l)
      (fun t x => idle_trans (idle_setLatch t x .follow) (idle_endBist _ x)) s) (idle_safeLane _)

/-- The module's answer to a loss ends self-tests only where it enters SAFE (R20, R176). -/
theorem idle_answer (s : State) (c : LatchCause) : idleKept s (latchSafe (afterLoss s c)) := by
  refine idle_trans (t := afterLoss s c) ?_ ?_
  · unfold afterLoss
    repeat' split
    · exact idle_trans (idle_foldS _ _ (fun t x => idle_setLatch t x _) s) (idle_enterSafe _)
    · exact idle_setModule _ _
    · exact idle_refl s
    · exact idle_refl s
  · unfold latchSafe
    split
    · exact idle_enterSafe _
    · exact idle_refl _

/-- Where the module has not entered SAFE, its answer to a loss is its own state alone. -/
theorem answer_goesOn {s : State} {c : LatchCause} (h : (latchSafe (afterLoss s c)).mod.st ≠ .safe) :
    changesOnly (records ++ [.mode, .free]) s (latchSafe (afterLoss s c)) := by
  have hl : ∀ u : State, (latchSafe u).mod.st ≠ .safe → latchSafe u = u := fun u k => by
    unfold latchSafe at k ⊢
    split at k
    · exact absurd (enterSafe_st u) k
    · next o => rw [if_neg o]
  have e := hl _ h
  rw [e] at h ⊢
  unfold afterLoss at h ⊢
  split at h
  · next o =>
    rw [if_pos o]
    split at h
    · exact absurd (enterSafe_st _) h
    · next n =>
      rw [if_neg n]
      split
      · exact chg_setModule _ _ (by decide) (changesOnly_refl _ _)
      · exact changesOnly_refl _ _
  · next o =>
    rw [if_neg o]
    exact changesOnly_refl _ _

/-- The lane as an isolation takes it out, before the module answers (R173, R174). -/
structure TakenOut (s : State) (l : Lane) (c : IsoCause) (u : State) : Prop where
  idle : idleKept s u
  kept : planned c = true → (lane u l).bist = (lane s l).bist ∧ (lane u l).life.planned = c

theorem isolateNow_takes (s : State) (l : Lane) (c : IsoCause) (x : LatchCause) :
    ∃ u, TakenOut s l c u ∧ isolateNow s l c x = latchSafe (afterLoss u x) := by
  unfold isolateNow
  extract_lets now counted earlier retire again s1 s2 s3 s4 s5 s6
  have h1 : ∀ m, (lane s1 m).bist = (lane s m).bist := by
    have drop : changesOnly [.staging] s (if again = true then dropPlanned s l else s) := by
      split
      · exact chg_dropPlanned s l (by decide) (changesOnly_refl _ s)
      · exact changesOnly_refl _ s
    exact fun m => bist_of drop rfl m
  have h3 : ∀ m, (lane s3 m).bist = (lane s1 m).bist := fun m => by
    show (lane (modLane s2 l _) m).bist = _
    rw [lane_modLane]
    split
    · next e => rw [e]; rfl
    · rfl
  have hplan : (lane s3 l).life.planned = if counted = true then .none else c := congrArg (·.life.planned) (lane_modLane_self s2 l _)
  have h4 : idleKept s3 s4 := by
    have ended : idleKept s3 (if counted = true then endBist s3 l else s3) := by
      split
      · exact idle_endBist s3 l
      · exact idle_refl s3
    exact idle_trans ended (fun _ _ => rfl)
  have hs : changesOnly records s4 s6 := by
    have raised : changesOnly records s4 (if again = true then s4 else eicRaiseAll s4 0) := by
      split
      · exact changesOnly_refl records s4
      · exact chg_eicRaiseAll s4 0 (by decide) (changesOnly_refl records s4)
    show changesOnly records s4 (if retire = true then eventAll s5 1 0x0101 (lanePayload s5 l counted) else s5)
    split
    · exact chg_eventAll _ _ _ _ (by decide) (chg_recordAll _ _ _ (by decide) raised)
    · exact chg_recordAll _ _ _ (by decide) raised
  refine ⟨s6, ⟨idle_trans (fun m _ => h1 m) (idle_trans (fun m _ => h3 m) (idle_trans h4 (idle_of hs))), fun hp => ?_⟩, rfl⟩
  have hc : counted = false := by
    show (!planned c) = false
    rw [hp]
    rfl
  have h4l : lane s4 l = lane s3 l := by
    show lane (dropLane (if counted = true then endBist s3 l else s3) l) l = _
    rw [hc]
    rfl
  rw [bist_of hs, life_eq hs rfl rfl, h4l, h3, h1, hplan, hc]
  exact ⟨rfl, rfl⟩

/-- An isolation of a lane leaves a self-test that does not run as it is. -/
theorem isolate_idle {s : State} {l : Lane} (h : isolatable (lst s l) = true) (c : IsoCause) : idleKept s (isolate s l c) := by
  unfold isolate isolateWith
  rw [if_pos (by rw [h]; rfl)]
  obtain ⟨u, hu, e⟩ := isolateNow_takes s l c .lanesLost
  rw [e]
  exact idle_trans hu.idle (idle_answer u _)

/-- A planned isolation that leaves the module out of SAFE keeps the self-test and names the activity (R33, R34). -/
theorem isolate_planned {s : State} {l : Lane} {c : IsoCause} (h : isolatable (lst s l) = true) (hc : planned c = true)
    (hn : (isolate s l c).mod.st ≠ .safe) :
    (lane (isolate s l c) l).bist = (lane s l).bist ∧ (lane (isolate s l c) l).life.planned = c := by
  unfold isolate isolateWith at hn ⊢
  rw [if_pos (by rw [h]; rfl)] at hn ⊢
  obtain ⟨u, hu, e⟩ := isolateNow_takes s l c .lanesLost
  rw [e] at hn ⊢
  have ha := answer_goesOn hn
  obtain ⟨hb, hp⟩ := hu.kept hc
  rw [bist_of ha, life_eq ha rfl rfl]
  exact ⟨hb, hp⟩

end Sys2Proof.Laws

/-! ## The self-test of a lane, from its due time to its end (R461 to R468) -/

namespace Sys2Proof.Laws

open Sys2Proof Sys2Proof.Machine Sys2Proof.Safety

/-! ### Due times (R461) -/

/-- The first due time n × p + off from a time on lies in the next t ns exactly where some due time does. -/
theorem due_iff {p off now t : Nat} (ho : off < p) :
    (p + off - now % p) % p < t ↔ ∃ n, now ≤ n * p + off ∧ n * p + off < now + t := by
  have hr : now % p < p := Nat.mod_lt _ (by omega)
  have hq : now = now / p * p + now % p := by rw [Nat.mul_comm]; exact (Nat.div_add_mod now p).symm
  generalize now / p = q at hq
  generalize now % p = r at *
  by_cases h : r ≤ off
  · have hm : (p + off - r) % p = off - r := by
      rw [show p + off - r = off - r + p by omega, Nat.add_mod_right, Nat.mod_eq_of_lt (by omega)]
    rw [hm]
    refine ⟨fun hd => ⟨q, by omega, by omega⟩, fun ⟨n, h1, h2⟩ => ?_⟩
    have hn : q * p ≤ n * p := Nat.mul_le_mul_right p (Nat.le_of_not_lt fun k => by
      have := Nat.mul_le_mul_right p (Nat.succ_le_of_lt k)
      rw [Nat.succ_mul] at this
      omega)
    omega
  · have hm : (p + off - r) % p = p + off - r := Nat.mod_eq_of_lt (by omega)
    rw [hm]
    refine ⟨fun hd => ⟨q + 1, by rw [Nat.succ_mul]; omega, by rw [Nat.succ_mul]; omega⟩, fun ⟨n, h1, h2⟩ => ?_⟩
    have hn : (q + 1) * p ≤ n * p := Nat.mul_le_mul_right p (Nat.succ_le_of_lt (Nat.lt_of_not_le fun k => by
      have := Nat.mul_le_mul_right p k
      omega))
    rw [Nat.succ_mul] at hn
    omega

theorem dueWithin_iff {d : Nat} (hd : 0 < d) (l : Lane) (now : Time) (t : Nat) : dueWithin d l now t = true ↔
    ∃ n, now.toNat ≤ n * (d * hour1) + d * hour1 * l.idx / 3 ∧ n * (d * hour1) + d * hour1 * l.idx / 3 < now.toNat + t := by
  have hp : 0 < d * hour1 := Nat.mul_pos hd (by decide)
  have ho : d * hour1 * l.idx / 3 < d * hour1 := by
    have hl : l.idx ≤ 2 := by cases l <;> decide
    have := Nat.mul_le_mul_left (d * hour1) hl
    omega
  rw [← due_iff ho]
  simp [dueWithin, hd]

theorem exec_bistDue {s : State} {l : Lane} {v : Vintage} (hv : laneVintage s l = some v) : exec (.bistDue l) s =
    .next (if dueWithin v.bistInterval l s.mod.tickTime (periodNs s) = true then
      modLane s l (fun L => { L with bist := { L.bist with due := true } }) else s) := by
  simp only [exec, execBistDue, hv]

/-! ### The phases of a self-test (R457, R466, R471) -/

theorem setPhase_bist (s : State) (l : Lane) (p : BitVec 3) : (lane (setPhase s l p) l).bist = { (lane s l).bist with phase := p } := by
  unfold setPhase
  dsimp only
  split
  · rw [lane_modPort, lane_modLane_self]
  · rw [lane_modLane_self]

theorem movePhase_bist (s : State) (l : Lane) (p : BitVec 3) : (lane (movePhase s l p) l).bist = { (lane s l).bist with phase := p } := by
  unfold movePhase
  dsimp only
  split
  · rw [bist_of (chg_settleLevels _ l (by decide) (changesOnly_refl [.eic, .ports] _)), setPhase_bist]
  · exact setPhase_bist s l p

theorem sramMarched_bist (L : LaneState) : (sramMarched L).bist = L.bist := rfl

theorem dramMarched_bist (L : LaneState) : (dramMarched L).bist = L.bist := rfl

/-- The parts that begin change nothing of the controller but its phase. -/
theorem enterParts_bist (s : State) (l : Lane) (ph : BitVec 3) : (lane (enterParts s l ph) l).bist = { (lane s l).bist with phase := ph } := by
  have hm : ∀ (t : State) (f : LaneState → LaneState) (b : Prop) [Decidable b], (∀ L, (f L).bist = L.bist) →
      (lane (if b then modLane t l f else t) l).bist = (lane t l).bist := fun t f b _ hf => by
    split
    · rw [lane_modLane_self, hf]
    · rfl
  unfold enterParts
  dsimp only
  rw [hm _ dramMarched _ dramMarched_bist, hm _ sramMarched _ sramMarched_bist, movePhase_bist]

/-- At the first tick after its start a self-test writes its lane's staging out, and a request stands no longer for its tick (R464, R465). -/
theorem bistTick_begins {s : State} {l : Lane} (h : (lane s l).bist.phase = 1) :
    (lane (bistTick s l) l).cel.staging = [] ∧ (lane (bistTick s l) l).bist.asked = false := by
  unfold bistTick
  dsimp only
  rw [h, if_pos (by decide), if_pos rfl]
  generalize hs1 : modLane s l _ = s1
  have h1 : (lane s1 l).bist.asked = false := by
    rw [← hs1, lane_modLane_self]
  have hst : (lane (drained s1 l) l).cel.staging = [] := drainStaging_empty (closeLost s1 l) l
  have has : (lane (drained s1 l) l).bist.asked = false := by rw [bist_of (drained_only s1 l), h1]
  split
  · refine ⟨?_, ?_⟩
    · rw [cel_of (chg_enterParts _ l _ (by decide) (changesOnly_refl [.press, .raa, .eic, .mbx, .bank, .bist, .ports] _))]
      exact hst
    · rw [enterParts_bist]
      exact has
  · exact ⟨hst, has⟩

/-! ### The start (R462, R464, R465) -/

/-- A request whose tick has brought it to its start. -/
def askedFor (b : Bist) : Prop := b.requested.isSome = true ∧ b.asked = false

theorem requestReady_iff (b : Bist) : (requestReady b).isSome = true ↔ askedFor b := by
  unfold requestReady askedFor
  cases b.asked <;> simp

theorem bistBegin_common (b : Bist) (every : Nat) (now : Time) : (bistBegin b every now).due = false ∧ (bistBegin b every now).result = 0 ∧
    (bistBegin b every now).startedAt = now := by
  unfold bistBegin
  dsimp only
  split <;> exact ⟨rfl, rfl, rfl⟩

theorem bistBegin_asked {b : Bist} (h : askedFor b) (every : Nat) (now : Time) : (bistBegin b every now).trigger = 1 ∧
    b.requested = some (bistBegin b every now).march := by
  obtain ⟨m, hm⟩ := Option.isSome_iff_exists.1 h.1
  have hr : requestReady b = some m := by simp [requestReady, h.2, hm]
  unfold bistBegin
  rw [hr]
  exact ⟨rfl, hm⟩

theorem bistBegin_due {b : Bist} (h : ¬ askedFor b) (every : Nat) (now : Time) : (bistBegin b every now).trigger = 0 := by
  have hr : requestReady b = none := by
    rw [← Option.not_isSome_iff_eq_none, requestReady_iff]
    exact h
  unfold bistBegin
  rw [hr]

/-- How often the vintage of a lane asks for the march (R461). -/
def marchEvery (s : State) (l : Lane) : Nat := match laneVintage s l with | some v => v.marchEvery | none => 0

/-- The lane's controller takes a start. -/
def bistTaken (s : State) (l : Lane) : State := modLane s l (fun L => { L with bist := bistBegin L.bist (marchEvery s l) s.mod.tickTime })

theorem exec_bistStart {s : State} {l : Lane} (ha : bistAllowed s = true) (hp : s.mod.phase = .input) (hs : lst s l = .serving)
    (h : (lane s l).bist.due = true ∨ askedFor (lane s l).bist ∨ (lane s l).bist.overdue = true) :
    exec (.bistStart l) s = .next (setPhase (isolate (bistTaken s l) l .bist) l 1) := by
  have hg : (bistAllowed s && decide (s.mod.phase = .input) && serving s l &&
      ((lane s l).bist.due || (requestReady (lane s l).bist).isSome || (lane s l).bist.overdue)) = true := by
    rw [← requestReady_iff] at h
    simp only [ha, hp, serving, hs, decide_true, Bool.and_self, Bool.true_and, Bool.or_eq_true]
    tauto
  show execBistStart l s = _
  unfold execBistStart
  dsimp only
  rw [if_pos hg]
  rfl

/-! ### The end (R457, R460, R465, R467) -/

theorem softRepair_bist (l : Lane) (s : State) (r : SoftRepair) :
    (lane (softRepair l s r) l).bist = { (lane s l).bist with repairs := addRepair (lane s l).bist.repairs r } := by
  unfold softRepair
  dsimp only
  rw [bist_of (chg_eventLane _ _ _ _ _ (by decide) (changesOnly_refl records _)), lane_modLane_self]
  rfl

/-- Repairs change the map of a lane's controller alone. -/
theorem softRepairs_bist (l : Lane) (rs : List SoftRepair) (s : State) :
    ∃ m, (lane (foldS rs (softRepair l) s) l).bist = { (lane s l).bist with repairs := m } := by
  unfold foldS
  induction rs generalizing s with
  | nil => exact ⟨(lane s l).bist.repairs, rfl⟩
  | cons r rs ih =>
    obtain ⟨m, hm⟩ := ih (softRepair l s r)
    refine ⟨m, ?_⟩
    rw [List.foldl_cons, hm, softRepair_bist]

/-- The run has left its last part, with its repairs made. -/
def runEnded (s : State) (l : Lane) (ph : BitVec 3) (rs : List SoftRepair) : State := foldS rs (softRepair l) (movePhase s l ph)

theorem runEnded_frame (s : State) (l : Lane) (ph : BitVec 3) (rs : List SoftRepair) :
    changesOnly (records ++ [.bist, .lifetime]) s (runEnded s l ph rs) :=
  changes_foldS rs _ (fun t r h => chg_softRepair l t r (by decide) h) (chg_movePhase s l ph (by decide) (changesOnly_refl _ s))

theorem runEnded_bist (s : State) (l : Lane) (ph : BitVec 3) (rs : List SoftRepair) :
    ∃ m, (lane (runEnded s l ph rs) l).bist = { (lane s l).bist with phase := ph, repairs := m } := by
  obtain ⟨m, hm⟩ := softRepairs_bist l rs (movePhase s l ph)
  refine ⟨m, ?_⟩
  unfold runEnded
  rw [hm, movePhase_bist]

theorem runEnded_lanes (s : State) (l : Lane) (ph : BitVec 3) (rs : List SoftRepair) :
    (runEnded s l ph rs).cellar.life.lanes = s.cellar.life.lanes := by
  unfold runEnded
  rw [lanes_softRepairs, lifetime_of (chg_movePhase s l ph (by decide) (changesOnly_refl [.eic, .bist, .ports] s))]

theorem exec_bistEnd_not {s : State} {l : Lane} {x : TestRun} (h : bistEnds (lane s l).bist (periodNs s) (testVerdict (lane s l).bist x) = false) :
    exec (.bistEnd l x.result x.repairs) s = .next s := by
  show execBistEnd l x.result x.repairs s = _
  unfold execBistEnd
  exact congrArg _ (if_neg (by rw [h]; decide))

theorem exec_bistEnd_pass {s : State} {l : Lane} {x : TestRun} {v : List SoftRepair × BistResult} (hv : testVerdict (lane s l).bist x = v)
    (h : bistEnds (lane s l).bist (periodNs s) v = true) (hp : v.2 = .pass) : exec (.bistEnd l x.result x.repairs) s =
    .next (tested (reinitialise (bistPassed (runEnded s l 6 v.1) l (lane s l).bist.march v.1.length (lane s l).bist.startedAt) l) l .fromIsolated) := by
  show execBistEnd l x.result x.repairs s = _
  unfold execBistEnd
  dsimp only
  rw [hv, if_pos h, hp, if_pos rfl]
  rfl

theorem exec_bistEnd_fail {s : State} {l : Lane} {x : TestRun} {v : List SoftRepair × BistResult} (hv : testVerdict (lane s l).bist x = v)
    (h : bistEnds (lane s l).bist (periodNs s) v = true) (hp : v.2 ≠ .pass) : exec (.bistEnd l x.result x.repairs) s =
    .next (isolate (enterTest (bistFailed (runEnded s l 0 v.1) l v.2) l .fromIsolated) l (bistCause v.2)) := by
  show execBistEnd l x.result x.repairs s = _
  unfold execBistEnd
  dsimp only
  rw [hv, if_pos h, if_neg hp]
  unfold runEnded
  split
  · next e => exact absurd e hp
  · rfl

theorem bistPassed_bist (s : State) (l : Lane) (march : Bool) (n : Nat) (start : Time) : (lane (bistPassed s l march n start) l).bist =
    { (lane s l).bist with last := 1, cycle := cycle16 s, result := 0, passes := satInc (lane s l).bist.passes, overdue := false, overdueAt := none } := by
  unfold bistPassed
  dsimp only
  rw [bist_of (chg_eventLane _ _ _ _ _ (by decide) (changesOnly_refl records _)), lane_modLife, lane_modLane_self]
  rfl

theorem bistPassed_pass (s : State) (l : Lane) (march : Bool) (n : Nat) (start : Time) :
    ((bistPassed s l march n start).cellar.life.lanes.get l).bistPass = start := by
  unfold bistPassed
  dsimp only
  rw [lifetime_of (chg_eventLane _ _ _ _ _ (by decide) (changesOnly_refl records _))]
  exact congrArg LaneLifetime.bistPass (get_set_self _ l _)

theorem bistFailed_bist (s : State) (l : Lane) (r : BistResult) : (lane (bistFailed s l r) l).bist =
    { (lane s l).bist with last := 2, cycle := cycle16 s, result := bistWord r, fails := satInc (lane s l).bist.fails } := by
  unfold bistFailed
  dsimp only
  rw [bist_of (chg_eventLane _ _ _ _ _ (by decide) (changesOnly_refl records _)), lane_modLane_self]

end Sys2Proof.Laws

/-! ## The settling of the self-test (R36, R457 to R468) -/

namespace Sys2Proof.Laws

open Sys2Proof Sys2Proof.Machine Sys2Proof.Safety

/-! ### The lane leaves for its self-test -/

theorem lst_bistTaken (s : State) (l m : Lane) : lst (bistTaken s l) m = lst s m := by
  unfold bistTaken lst
  rw [lane_modLane]
  split
  · next e => rw [e]
  · rfl

theorem othersServing_same {s t : State} (h : ∀ m, lst t m = lst s m) (l : Lane) : othersServing t l = othersServing s l := by
  unfold othersServing servingLanes serving
  simp only [h]

/-- With two other lanes serving and quiet latches the loss of a lane does not put the module into SAFE. -/
theorem staysOut {s : State} {l : Lane} (h2 : (othersServing s l).length = 2) (hq : latchesQuiet s) : ¬ leavesSafe s l := by
  rintro (⟨-, h⟩ | h | ⟨-, -, m, hm, h⟩)
  · omega
  · exact absurd hq.2 (by omega)
  · have hs : serving s m = true := (List.mem_filter.1 (List.mem_filter.1 hm).1).2
    rw [hq.1 m hs] at h
    cases h

/-- What the start of a self-test leaves (R33, R36, R464). -/
theorem bistStarted {s : State} {l : Lane} (hm : s.mod.st = .svc3) (hs : lst s l = .serving) (h2 : (othersServing s l).length = 2)
    (hq : latchesQuiet s) {u : State} (hu : isolate (bistTaken s l) l .bist = u) : LaneOut (bistTaken s l) l .bist u ∧ lst u l = .isolated ∧ u.mod.st = .svc2 ∧
    (lane u l).life.planned = .bist ∧ (lane u l).bist = bistBegin (lane s l).bist (marchEvery s l) s.mod.tickTime := by
  have hi : isolatable (lst (bistTaken s l) l) = true := by rw [lst_bistTaken, hs]; rfl
  have hsafe : ¬ leavesSafe (bistTaken s l) l := staysOut (by rw [othersServing_same (lst_bistTaken s l)]; exact h2)
    ⟨fun m h => hq.1 m (by unfold serving at h ⊢; rwa [lst_bistTaken] at h), hq.2⟩
  have hout := (isolate_out (bistTaken s l) l .bist hi).1
  have hmode := hout.twoLeft hm hsafe
  obtain ⟨hbist, hplan⟩ := isolate_planned hi rfl (by rw [hmode]; decide)
  subst hu
  refine ⟨hout, hout.isolated (fun h => Bool.noConfusion h.1), hmode, hplan, ?_⟩
  rw [hbist]
  exact congrArg LaneState.bist (lane_modLane_self s l _)

theorem bistAllowed_mode {s : State} (h : bistAllowed s = true) : s.mod.st = .svc3 := by
  simp only [bistAllowed, Bool.and_eq_true, decide_eq_true_eq] at h
  exact h.1.1.1.1

/-! ### How a run can end (R457) -/

theorem phaseAt_march {m : Bool} {ns : Nat} (h : 5 ≤ (phaseAt m ns).toNat) : m = true := by
  cases m
  · simp only [phaseAt, Bool.false_eq_true, if_false] at h
    repeat' split at h
    all_goals revert h; decide
  · rfl

/-- A run ends while one of its parts runs, passes only after their time, and fails the march only where it runs. -/
theorem bistEnds_facts {b : Bist} {t : Nat} {v : List SoftRepair × BistResult} (h : bistEnds b t v = true) : b.phase ≠ 0 ∧ b.phase ≠ 6 ∧
    (v.2 = .pass → 160000000 ≤ b.runNs + t ∧ (b.march = true → 2160000000 ≤ b.runNs + t)) ∧ (∀ a, v.2 = .dramFail a → b.march = true) := by
  unfold bistEnds at h
  simp only [Bool.and_eq_true, decide_eq_true_eq] at h
  obtain ⟨⟨h0, h6⟩, h⟩ := h
  refine ⟨h0, h6, fun hp => ?_, fun a ha => ?_⟩
  · rw [hp] at h
    have h' : passAfter b.march v.1.length ≤ b.runNs + t := of_decide_eq_true h
    unfold passAfter at h'
    refine ⟨by omega, fun hm => ?_⟩
    rw [hm, if_pos rfl] at h'
    omega
  · rw [ha] at h
    simp only [Bool.and_eq_true, decide_eq_true_eq] at h
    exact phaseAt_march h.2

theorem bistCause_counts {r : BistResult} (h : r ≠ .pass) : planned (bistCause r) = false := by
  cases r with
  | pass => exact absurd rfl h
  | logicFail p es => rfl
  | sramFail m n => rfl
  | dramFail a => rfl

/-! ### A lane re-initialised (R433, R467) -/

theorem takeBanks_frame (s : State) (l : Lane) : changesOnly [.bank] s (takeBanks s l) := chg_takeBanks s l (by decide) (changesOnly_refl _ s)

/-- A re-initialisation clears the data of the Press and of the route engine. -/
theorem reinitialise_data (s : State) (l : Lane) :
    (lane (reinitialise s l) l).press = pressCleared (lane s l).press ∧ (lane (reinitialise s l) l).raa = raaCleared (lane s l).raa := by
  unfold reinitialise
  dsimp only
  generalize hu : modLane s l _ = u
  have hc : lane u l = { lane s l with press := pressCleared (lane s l).press, raa := raaCleared (lane s l).raa } := by
    rw [← hu, lane_modLane_self]
  have hb : changesOnly [.bank] u (if (laneVintage s l).isSome = true then u else buildBanks u l false false) := by
    split
    · exact changesOnly_refl _ u
    · exact chg_buildBanks u l false false (by decide) (changesOnly_refl _ u)
  rw [press_of (takeBanks_frame _ l), raa_of (takeBanks_frame _ l), press_of hb, raa_of hb, hc]
  exact ⟨rfl, rfl⟩

theorem lane_tested (s : State) (l : Lane) (e : TestEntry) : lane (tested s l e) l = { lane s l with
    life := { (lane s l).life with st := .test, entry := e, testsDone := true, planned := .none, join := .none, startStep := 0, classNoted := false }
    press := { (lane s l).press with halted := false }
    chk := { (lane s l).chk with netFault := false } } := by
  unfold tested enterTest
  rw [lane_modLane_self, lane_modLane_self, lane_modSluices]

theorem lane_enterTest (s : State) (l : Lane) (e : TestEntry) : lane (enterTest s l e) l = { lane s l with
    life := { (lane s l).life with st := .test, entry := e, testsDone := false, planned := .none, join := .none, startStep := 0, classNoted := false }
    press := { (lane s l).press with halted := false }
    chk := { (lane s l).chk with netFault := false } } := by
  unfold enterTest
  rw [lane_modLane_self, lane_modSluices]

/-- The lane as a run with every part passed leaves it (R465, R467). -/
def bistWon (s : State) (l : Lane) (v : List SoftRepair) : State :=
  bistPassed (runEnded s l 6 v) l (lane s l).bist.march v.length (lane s l).bist.startedAt

theorem bistWon_frame (s : State) (l : Lane) (v : List SoftRepair) : changesOnly (records ++ [.bist, .lifetime, .free]) s (bistWon s l v) :=
  chg_bistPassed _ _ _ _ _ (by decide) (changes_step (by decide) (runEnded_frame s l 6 v) (changesOnly_refl _ s))

theorem bistWon_bist (s : State) (l : Lane) (v : List SoftRepair) : (lane (bistWon s l v) l).bist.phase = 6 ∧
    (lane (bistWon s l v) l).bist.passes = satInc (lane s l).bist.passes ∧ (lane (bistWon s l v) l).bist.last = 1 := by
  obtain ⟨m, hm⟩ := runEnded_bist s l 6 v
  unfold bistWon
  rw [bistPassed_bist, hm]
  exact ⟨rfl, rfl, rfl⟩

/-- The lane as a run with a failed part leaves it, before its isolation (R465). -/
def bistLost (s : State) (l : Lane) (v : List SoftRepair × BistResult) : State :=
  enterTest (bistFailed (runEnded s l 0 v.1) l v.2) l .fromIsolated

theorem bistLost_frame (s : State) (l : Lane) (v : List SoftRepair × BistResult) :
    changesOnly (records ++ [.bist, .lifetime, .free]) s (bistFailed (runEnded s l 0 v.1) l v.2) :=
  chg_bistFailed _ _ _ (by decide) (changes_step (by decide) (runEnded_frame s l 0 v.1) (changesOnly_refl _ s))

theorem bistLost_bist (s : State) (l : Lane) (v : List SoftRepair × BistResult) : (lane (bistLost s l v) l).bist.phase = 0 ∧
    (lane (bistLost s l v) l).bist.fails = satInc (lane s l).bist.fails ∧ (lane (bistLost s l v) l).bist.result = bistWord v.2 := by
  obtain ⟨m, hm⟩ := runEnded_bist s l 0 v.1
  unfold bistLost
  rw [lane_enterTest]
  dsimp only
  rw [bistFailed_bist, hm]
  exact ⟨rfl, rfl, rfl⟩

theorem bistLost_lanes (s : State) (l : Lane) (v : List SoftRepair × BistResult) : (bistLost s l v).cellar.life.lanes = s.cellar.life.lanes := by
  unfold bistLost
  rw [enterTest_cellar, lifetime_of (bistFailed_frame _ _ _), runEnded_lanes]

/-! ### Requests and overdue tests (R463, R464) -/

theorem bistAllowed_same {s t : State} (hm : t.mod.st = s.mod.st) (hl : ∀ l, lst t l = lst s l)
    (hp : ∀ l, (lane t l).life = (lane s l).life) (hb : ∀ l, (lane t l).bank = (lane s l).bank) : bistAllowed t = bistAllowed s := by
  unfold bistAllowed plannedRuns rackWaits stagingRuns
  simp only [hm, hl, hp, hb]

theorem exec_bistRequest (l : Lane) (m : Bool) (a : Auth) (s : State) : exec (.bistRequest l m a) s = .next (harnal s a 8 l.num (fun s =>
    if bistAllowed s && serving s l && !requestWaits s then
      modLane s l (fun L => { L with bist := { L.bist with requested := some m, asked := true } })
    else s)) := rfl

/-- The module takes a request now (R462, R464). -/
def requestFits (s : State) (l : Lane) : Prop := bistAllowed s = true ∧ lst s l = .serving ∧ ∀ k, (lane s k).bist.requested = none

theorem requestWaits_none (s : State) : requestWaits s = false ↔ ∀ k, (lane s k).bist.requested = none := by
  unfold requestWaits
  rw [List.any_eq_false]
  simp [mem_laneList]

theorem exec_bistRequest_accepted {l : Lane} {m : Bool} {a : Auth} {s : State} (ha : authOk s a = true) :
    (requestFits s l → exec (.bistRequest l m a) s = .next (modLane (recordMaint (takeNonce s a) 8 l.num a) l (fun L =>
      { L with bist := { L.bist with requested := some m, asked := true } }))) ∧
    (¬ requestFits s l → exec (.bistRequest l m a) s = .next (recordMaint (takeNonce s a) 8 l.num a)) := by
  have hacc := accepted_only s a 8 l.num
  rw [exec_bistRequest, harnal_taken ha]
  have hg : (bistAllowed (recordMaint (takeNonce s a) 8 l.num a) && serving (recordMaint (takeNonce s a) 8 l.num a) l &&
      !requestWaits (recordMaint (takeNonce s a) 8 l.num a)) = true ↔ requestFits s l := by
    rw [bistAllowed_same (mode_of hacc) (lst_of hacc rfl) (life_eq hacc rfl rfl) (bank_of hacc rfl)]
    simp only [Bool.and_eq_true, Bool.not_eq_true', requestWaits_none, bist_of hacc, serving, lst_of hacc, decide_eq_true_eq, requestFits, and_assoc]
  refine ⟨fun h => ?_, fun h => ?_⟩
  · rw [if_pos (hg.2 h)]
  · rw [if_neg (fun k => h (hg.1 k))]

theorem exec_bistOverdue {s : State} {l : Lane} (hr : runs s l = true)
    (hn : s.mod.tickTime.toNat ≥ (s.cellar.life.lanes.get l).bistPass.toNat + day24) (ho : (lane s l).bist.overdueAt = none) :
    exec (.bistOverdue l) s = .next (eventLane
      (modLane s l (fun L => { L with bist := { L.bist with overdue := true, overdueAt := some s.mod.tickTime } })) l 164 0x0706
      (le 1 l.num ++ le 1 4 ++ le 2 0 ++ le 4 0 ++ le 8 0)) := by
  have hd : decide (s.mod.tickTime.toNat ≥ (s.cellar.life.lanes.get l).bistPass.toNat + day24) = true := decide_eq_true hn
  show execBistOverdue l s = _
  unfold execBistOverdue
  dsimp only
  rw [hr, hd, ho]
  rfl

/-- A self-test that starts, told from the lane as it was (R33, R36, R464). -/
theorem bistStart_facts {s : State} {l : Lane} (ha : bistAllowed s = true) (hs : lst s l = .serving) (h2 : (othersServing s l).length = 2)
    (hq : latchesQuiet s) :
    let t := setPhase (isolate (bistTaken s l) l .bist) l 1
    lst t l = .isolated ∧ (lane t l).life.cause = .bist ∧ (lane t l).life.planned = .bist ∧ (lane t l).bist.phase = 1 ∧
    (lane t l).bist.due = false ∧ (lane t l).bist.result = 0 ∧
    (askedFor (lane s l).bist → (lane t l).bist.trigger = 1 ∧ (lane s l).bist.requested = some (lane t l).bist.march) ∧
    (¬ askedFor (lane s l).bist → (lane t l).bist.trigger = 0) ∧ (lane t l).bist.startedAt = s.mod.tickTime ∧ t.mod.st = .svc2 ∧
    ∀ m, m ≠ l → lst t m = lst s m := by
  intro t
  obtain ⟨hout, hiso, hmode, hplan, hbist⟩ := bistStarted (bistAllowed_mode ha) hs h2 hq rfl
  have hph : changesOnly [.bist, .ports] (isolate (bistTaken s l) l .bist) t := chg_setPhase _ l 1 (by decide) (changesOnly_refl _ _)
  have hb : (lane t l).bist = { bistBegin (lane s l).bist (marchEvery s l) s.mod.tickTime with phase := 1 } :=
    (setPhase_bist _ l 1).trans (by rw [hbist])
  obtain ⟨h3, h4, h5⟩ := bistBegin_common (lane s l).bist (marchEvery s l) s.mod.tickTime
  refine ⟨(lst_of hph rfl l).trans hiso, ?_⟩
  rw [life_eq hph rfl rfl, hb]
  refine ⟨hout.cause, hplan, rfl, h3, h4, fun h => bistBegin_asked h _ _, fun h => bistBegin_due h _ _, h5, (mode_of hph).trans hmode, fun m e => ?_⟩
  rw [lst_of hph, (hout.others m e).1, lst_bistTaken]

/-- The lane of a run with every part passed goes on in TEST with its data cleared (R465, R467). -/
theorem bistWon_facts (s : State) (l : Lane) (v : List SoftRepair) :
    let t := tested (reinitialise (bistWon s l v) l) l .fromIsolated
    lst t l = .test ∧ (lane t l).life.testsDone = true ∧ (lane t l).life.planned = .none ∧ (lane t l).bist.phase = 6 ∧
    (lane t l).bist.passes = satInc (lane s l).bist.passes ∧ (lane t l).bist.last = 1 ∧ (lane t l).press.data = PressData.reset ∧
    (lane t l).raa.elems = [] ∧ (t.cellar.life.lanes.get l).bistPass = (lane s l).bist.startedAt ∧ ∀ m, m ≠ l → lst t m = lst s m := by
  intro t
  have hre := chg_reinitialise (bistWon s l v) l (by decide) (changesOnly_refl [.press, .raa, .bank] _)
  have hte : changesOnly [.laneState, .life, .press, .chk, .sluices] (reinitialise (bistWon s l v) l) t :=
    chg_tested _ l .fromIsolated (by decide) (changesOnly_refl _ _)
  have hpass : ((bistWon s l v).cellar.life.lanes.get l).bistPass = (lane s l).bist.startedAt := bistPassed_pass _ l _ _ _
  obtain ⟨hpr, hra⟩ := reinitialise_data (bistWon s l v) l
  obtain ⟨hb1, hb2, hb3⟩ := bistWon_bist s l v
  have hdata : (lane t l).press.data = PressData.reset := by
    rw [show lane t l = _ from lane_tested _ l _]
    dsimp only
    rw [hpr]
    rfl
  have hplan : (lane t l).life.planned = .none := by rw [show lane t l = _ from lane_tested _ l _]
  refine ⟨(tested_self _ l _).1, (tested_self _ l _).2, hplan, ?_⟩
  rw [bist_of hte, bist_of hre, raa_of hte, hra, lifetime_of hte, lifetime_of hre]
  refine ⟨hb1, hb2, hb3, hdata, rfl, hpass, fun m e => ?_⟩
  rw [only_lst (only_tested _ (only_reinitialise (only_refl l (bistWon s l v)))) e, lst_of (bistWon_frame s l v)]

/-- The lane of a run with a failed part leaves TEST in a counted isolation, one with the planned one of its cycle (R36, R465). -/
theorem bistLost_facts (s : State) (l : Lane) {v : List SoftRepair × BistResult} (hp : v.2 ≠ .pass) :
    let u := bistLost s l v
    let t := isolate u l (bistCause v.2)
    LaneOut u l (bistCause v.2) t ∧ lst u l = .test ∧ (∀ m, m ≠ l → lst u m = lst s m) ∧ u.cellar.life.lanes = s.cellar.life.lanes ∧ u.mod = s.mod ∧
    ((lane s l).life.plannedNow = true → (t.cellar.life.lanes.get l).isoTotal = (s.cellar.life.lanes.get l).isoTotal) ∧
    (lane t l).bist.phase = 0 ∧ (lane t l).bist.fails = satInc (lane s l).bist.fails ∧ (lane t l).bist.result = bistWord v.2 := by
  intro u t
  have hf := bistLost_frame s l v
  obtain ⟨hb1, hb2, hb3⟩ := bistLost_bist s l v
  have hu : lst u l = .test := lane_enterTest_self _ l _
  have hi : isolatable (lst u l) = true := by rw [hu]; rfl
  have hout : LaneOut u l (bistCause v.2) t := (isolate_out u l (bistCause v.2) hi).1
  have hbist : (lane t l).bist = (lane u l).bist := isolate_idle hi (bistCause v.2) l hb1
  have hmod : (bistFailed (runEnded s l 0 v.1) l v.2).mod = s.mod := same_mod hf rfl rfl
  refine ⟨hout, hu, fun m e => (only_lst (only_enterTest _ (only_refl l _)) e).trans (lst_of hf rfl m), bistLost_lanes s l v, hmod, fun hnow => ?_, ?_⟩
  · have hmeet : meetsPlanned u l (bistCause v.2) = true := by
      show (!planned (bistCause v.2) && (lane (enterTest (bistFailed (runEnded s l 0 v.1) l v.2) l .fromIsolated) l).life.plannedNow) = true
      rw [bistCause_counts hp, lane_enterTest, life_eq hf rfl rfl]
      exact hnow
    rw [hout.total, hmeet, if_pos rfl]
    exact congrArg (fun x : PerLane LaneLifetime => (x.get l).isoTotal) (bistLost_lanes s l v)
  · rw [hbist]
    exact ⟨hb1, hb2, hb3⟩

/-- Settles O32: the self-test changes its lane's controller, and leaves and ends through an isolation and a re-initialisation. -/
theorem selfTest : Obligations.SelfTest := by
  intro l s
  refine ⟨fun v hv hpos => ⟨fun hd => ?_, fun hd => ?_⟩, fun ha hp hs h2 hdue hq => ⟨_, exec_bistStart ha hp hs hdue, bistStart_facts ha hs h2 hq⟩,
    bistTick_begins, fun x => ⟨bistEnds_facts, exec_bistEnd_not, fun he hp => ⟨_, exec_bistEnd_pass rfl he hp, bistWon_facts s l _⟩,
      fun he hp => ⟨_, _, exec_bistEnd_fail rfl he hp, bistLost_facts s l hp⟩⟩, fun hr hn ho => ?_,
    fun m a => ⟨fun ha => ?_, fun ha hb hs hnone => ?_, fun ha hbar => ?_⟩, fun k => ?_⟩
  · refine ⟨modLane s l (fun L => { L with bist := { L.bist with due := true } }), ?_,
      changes_modLane l _ (laneOnly_bist _ _) (changesOnly_refl _ s), by rw [lane_modLane_self], only_modLane _ (only_refl l s)⟩
    rw [exec_bistDue hv, if_pos ((dueWithin_iff hpos l _ _).2 hd)]
  · rw [exec_bistDue hv, if_neg]
    intro h
    obtain ⟨n, h1, h3⟩ := (dueWithin_iff hpos l _ _).1 h
    have h4 := hd n
    dsimp only at h4
    omega
  · refine ⟨_, exec_bistOverdue hr hn ho, ?_, ?_, chg_eventLane _ _ _ _ _ (by decide)
      (changes_modLane l _ (laneOnly_step (by decide) (laneOnly_bist _ _) (laneOnly_refl _ _)) (changesOnly_refl _ s))⟩
    · rw [bist_of (chg_eventLane _ l 164 0x0706 _ (by decide) (changesOnly_refl records _)), lane_modLane_self]
    · rw [bist_of (chg_eventLane _ l 164 0x0706 _ (by decide) (changesOnly_refl records _)), lane_modLane_self]
  · rw [exec_bistRequest, harnal_refused ha]
  · refine ⟨_, (exec_bistRequest_accepted ha).1 ⟨hb, hs, hnone⟩, by rw [lane_modLane_self], by rw [lane_modLane_self], ?_,
      changes_modLane l _ (laneOnly_step (by decide) (laneOnly_bist _ _) (laneOnly_refl _ _))
        (changes_step (by decide) (accepted_only s a 8 l.num) (changesOnly_refl _ s))⟩
    rw [cellar_modLane, accepted_life]
  · refine ⟨_, (exec_bistRequest_accepted (l := l) (m := m) ha).2 ?_, by rw [accepted_life], accepted_only s a 8 l.num⟩
    rintro ⟨h1, h3, h4⟩
    obtain h | h | ⟨k, h⟩ := hbar
    · rw [h1] at h; cases h
    · exact h h3
    · rw [h4 k] at h; cases h
  · unfold dropRequests
    rw [lane_modLanes]

end Sys2Proof.Laws

/-! ## The descriptors that lanes keep (R311, R314, R393) -/

namespace Sys2Proof.Laws

open Sys2Proof Sys2Proof.Machine Sys2Proof.Safety

theorem mbx_of {ps : List Part} {s t : State} (h : changesOnly ps s t) (hp : ps.contains .mbx = false := by rfl) (l : Lane) :
    (lane t l).mbx = (lane s l).mbx := (h .mbx hp).2 l

/-! ### The record of a descriptor -/

/-- The record that a lane keeps of a descriptor, other than of its resubmissions. -/
def foundIn (L : LaneState) (r : HostRef) : Option Taken := L.mbx.taken.find? (fun t => decide (t.ref = r) && !t.replay)

theorem takenRef_lanes (s : State) (r : HostRef) :
    takenRef s r = ((foundIn (lane s .A) r).or (foundIn (lane s .B) r)).or (foundIn (lane s .C) r) := by
  unfold takenRef Lane.list
  rw [List.findSome?_cons, List.findSome?_cons, List.findSome?_cons]
  unfold foundIn
  cases (lane s .A).mbx.taken.find? (fun t => decide (t.ref = r) && !t.replay) <;>
    cases (lane s .B).mbx.taken.find? (fun t => decide (t.ref = r) && !t.replay) <;>
      cases (lane s .C).mbx.taken.find? (fun t => decide (t.ref = r) && !t.replay) <;> rfl

theorem takenRef_map {s t : State} {r : HostRef} (f : Taken → Taken) (h : ∀ l, foundIn (lane t l) r = (foundIn (lane s l) r).map f) :
    takenRef t r = (takenRef s r).map f := by
  rw [takenRef_lanes, takenRef_lanes, h, h, h]
  cases foundIn (lane s .A) r <;> cases foundIn (lane s .B) r <;> rfl

theorem takenRef_same {s t : State} {r : HostRef} (h : ∀ l, foundIn (lane t l) r = foundIn (lane s l) r) : takenRef t r = takenRef s r := by
  rw [takenRef_lanes, takenRef_lanes, h, h, h]

theorem takenRef_gone {t : State} {r : HostRef} (h : ∀ l, foundIn (lane t l) r = none) : takenRef t r = none := by
  rw [takenRef_lanes, h, h, h]
  rfl

theorem takenRef_frame {ps : List Part} {s t : State} (h : changesOnly ps s t) (hp : ps.contains .mbx = false := by rfl) (r : HostRef) :
    takenRef t r = takenRef s r := takenRef_same fun l => by
  unfold foundIn
  rw [mbx_of h hp]

theorem stageRefs_frame {ps : List Part} {s t : State} (h : changesOnly ps s t) (hp : ps.contains .mbx = false := by rfl) (p : Port) (q : Nat) :
    stageRefs t p q = stageRefs s p q := by
  unfold stageRefs
  rw [show (fun l => (lane t l).mbx.taken) = fun l => (lane s l).mbx.taken from funext fun l => by rw [mbx_of h hp]]

/-- A record found is one that a lane keeps, and names its descriptor. -/
theorem takenRef_some {s : State} {r : HostRef} {t : Taken} (h : takenRef s r = some t) :
    t.ref = r ∧ t.replay = false ∧ ∃ l, t ∈ (lane s l).mbx.taken := by
  obtain ⟨l, -, hl⟩ := List.exists_of_findSome?_eq_some h
  have hp := List.find?_some hl
  simp only [Bool.and_eq_true, decide_eq_true_eq, Bool.not_eq_true'] at hp
  exact ⟨hp.1, hp.2, l, List.mem_of_find?_eq_some hl⟩

/-- A change of the records that leaves what they are of. -/
theorem foundIn_map (xs : List Taken) (f : Taken → Taken) (hf : ∀ t, (f t).ref = t.ref ∧ (f t).replay = t.replay) (r : HostRef) :
    (xs.map f).find? (fun t => decide (t.ref = r) && !t.replay) = (xs.find? (fun t => decide (t.ref = r) && !t.replay)).map f := by
  rw [List.find?_map]
  congr 2
  funext t
  show (decide ((f t).ref = r) && !(f t).replay) = _
  rw [(hf t).1, (hf t).2]

/-- The records of one descriptor changed in every lane. -/
def changeTaken (s : State) (r : HostRef) (g : Taken → Taken) : State :=
  modLanes s (fun _ L => { L with mbx := { L.mbx with taken := L.mbx.taken.map (fun t => if t.ref = r then g t else t) } })

theorem takenRef_change (s : State) (r r' : HostRef) {g : Taken → Taken} (hg : ∀ t, (g t).ref = t.ref ∧ (g t).replay = t.replay) :
    takenRef (changeTaken s r g) r' = (takenRef s r').map (fun t => if t.ref = r then g t else t) := by
  refine takenRef_map _ fun l => ?_
  unfold foundIn changeTaken
  rw [lane_modLanes]
  refine foundIn_map _ _ (fun t => ?_) r'
  split
  · exact hg t
  · exact ⟨rfl, rfl⟩

theorem stageRefs_change (s : State) (r : HostRef) {g : Taken → Taken} (hg : ∀ t, (g t).ref = t.ref ∧ (g t).replay = t.replay) (p : Port) (q : Nat) :
    stageRefs (changeTaken s r g) p q = stageRefs s p q := by
  have hf : ∀ t : Taken, (if t.ref = r then g t else t).ref = t.ref ∧ (if t.ref = r then g t else t).replay = t.replay := fun t => by
    split
    · exact hg t
    · exact ⟨rfl, rfl⟩
  unfold stageRefs changeTaken
  have hm : (fun l => (lane (modLanes s (fun _ L => { L with mbx := { L.mbx with
      taken := L.mbx.taken.map (fun t => if t.ref = r then g t else t) } })) l).mbx.taken) =
      fun l => (lane s l).mbx.taken.map (fun t => if t.ref = r then g t else t) := funext fun l => by rw [lane_modLanes]
  rw [hm]
  congr 1
  rw [← List.map_flatMap, List.filter_map, List.map_map]
  congr 1
  · funext t
    exact (hf t).1
  · congr 1
    funext t
    simp only [Function.comp_apply, (hf t).1, (hf t).2]

theorem attachData_eq (s : State) (r : HostRef) (x : StageData) : attachData s r x = changeTaken s r (fun t => { t with data := some x }) := rfl

theorem markFeed_eq (s : State) (r : HostRef) (x : FeedSt) : markFeed s r x = changeTaken s r (fun t => { t with feed := x }) := rfl

theorem takenRef_attach (s : State) (r r' : HostRef) (x : StageData) :
    takenRef (attachData s r x) r' = (takenRef s r').map (fun t => if t.ref = r then { t with data := some x } else t) :=
  takenRef_change s r r' (g := fun t => { t with data := some x }) fun _ => ⟨rfl, rfl⟩

theorem stageRefs_attach (s : State) (r : HostRef) (x : StageData) (p : Port) (q : Nat) : stageRefs (attachData s r x) p q = stageRefs s p q :=
  stageRefs_change s r (g := fun t => { t with data := some x }) (fun _ => ⟨rfl, rfl⟩) p q

theorem takenRef_mark (s : State) (r r' : HostRef) (x : FeedSt) :
    takenRef (markFeed s r x) r' = (takenRef s r').map (fun t => if t.ref = r then { t with feed := x } else t) :=
  takenRef_change s r r' (g := fun t => { t with feed := x }) fun _ => ⟨rfl, rfl⟩

/-! ### A descriptor ends (R309, R316) -/

theorem taken_composes (us : List Taken) (f : Taken → Completion) (L : LaneState) :
    (us.foldl (fun L u => compose L (f u)) L).mbx.taken = L.mbx.taken := by
  induction us generalizing L with
  | nil => rfl
  | cons u us ih => rw [List.foldl_cons, ih]; rfl

/-- The end of a descriptor in a lane takes its record away there, and leaves the record of every other one. -/
theorem found_finishLane (s : State) (l m : Lane) (r r' : HostRef) (e : HostEnd) : foundIn (lane (finishLane s l r e) m) r' =
    if m = l ∧ r' = r then none else foundIn (lane s m) r' := by
  unfold finishLane
  split
  · next h =>
    split
    · next hm =>
      obtain ⟨rfl, rfl⟩ := hm
      rw [List.find?_eq_none] at h
      unfold foundIn
      rw [List.find?_eq_none]
      intro t ht
      have := h t ht
      simp_all
    · rfl
  · next t h =>
    dsimp only
    by_cases hm : m = l
    · subst hm
      rw [lane_modLane_self]
      unfold foundIn
      rw [taken_composes]
      have ht : ∀ (b : Bool) (L : LaneState), (if b = true then ledgerEnd L r e else L).mbx.taken = L.mbx.taken := fun b L => by
        cases b <;> rfl
      unfold compose
      dsimp only
      rw [ht]
      dsimp only
      rw [List.find?_filter]
      by_cases hr : r' = r
      · subst hr
        rw [if_pos ⟨rfl, rfl⟩, List.find?_eq_none]
        intro t ht
        simp
        tauto
      · rw [if_neg (fun h => hr h.2)]
        congr 1
        funext u
        by_cases hu : u.ref = r'
        · cases u.replay <;> simp [hu, hr]
        · simp [hu]
    · rw [if_neg (fun h => hm h.1), lane_modLane_other _ _ hm]

theorem takenRef_finishAll (s : State) (r r' : HostRef) (e : HostEnd) :
    takenRef (finishAll s r e) r' = if r' = r then none else takenRef s r' := by
  have hl : ∀ m, foundIn (lane (finishAll s r e) m) r' = if r' = r then none else foundIn (lane s m) r' := fun m => by
    show foundIn (lane (finishLane (finishLane (finishLane s .A r e) .B r e) .C r e) m) r' = _
    rw [found_finishLane, found_finishLane, found_finishLane]
    by_cases hr : r' = r
    · cases m <;> simp [hr]
    · simp [hr]
  by_cases hr : r' = r
  · rw [if_pos hr]
    exact takenRef_gone fun m => by rw [hl, if_pos hr]
  · rw [if_neg hr]
    exact takenRef_same fun m => by rw [hl, if_neg hr]

end Sys2Proof.Laws

/-! ## The data of a staging descriptor whose turn has come (R305, R311, R314, R393) -/

namespace Sys2Proof.Laws

open Sys2Proof Sys2Proof.Machine Sys2Proof.Safety

/-! ### Turns -/

/-- Of these descriptors each has been fed or waits for its data: none can be executed. -/
def quiet (s : State) (rs : List HostRef) : Prop := ∀ r ∈ rs, ∀ t, takenRef s r = some t → t.feed = .fed ∨ t.data = none

theorem quiet_frame {ps : List Part} {s t : State} {rs : List HostRef} (h : changesOnly ps s t) (hp : ps.contains .mbx = false := by rfl)
    (k : quiet s rs) : quiet t rs := fun r hr u hu => k r hr u (by rw [← takenRef_frame h hp]; exact hu)

/-- The descriptor whose turn it is has not been fed. -/
theorem firstUnfed_some {s : State} {p : Port} {q : Nat} {t : Taken} (h : firstUnfed s p q = some t) :
    takenRef s t.ref = some t ∧ t.feed ≠ .fed := by
  obtain ⟨r, -, hr⟩ := List.exists_of_findSome?_eq_some h
  split at hr
  · next u hu =>
    split at hr
    · cases hr
    · next hf =>
      obtain rfl := Option.some.inj hr
      rw [(takenRef_some hu).1]
      exact ⟨hu, hf⟩
  · cases hr

/-- A descriptor that cannot be executed is not. -/
theorem runNext_quiet {s : State} {rs : List HostRef} (h : quiet s rs) {r : HostRef} (hr : r ∈ rs) (p : Port) (q : Nat) : runNext p q s r = s := by
  unfold runNext
  split
  · next t ht =>
    obtain ⟨htk, hf⟩ := firstUnfed_some ht
    rw [if_neg]
    simp only [Bool.and_eq_true, decide_eq_true_eq]
    rintro ⟨⟨rfl, -⟩, hd⟩
    obtain hfed | hnone := h t.ref hr t htk
    · exact hf hfed
    · rw [hnone] at hd
      cases hd
  · rfl

theorem runNext_same {s : State} {xs : List HostRef} {p : Port} {q : Nat} (h : ∀ r ∈ xs, runNext p q s r = s) : foldS xs (runNext p q) s = s := by
  unfold foldS
  induction xs with
  | nil => rfl
  | cons x xs ih =>
    rw [List.foldl_cons, h x List.mem_cons_self]
    exact ih fun r hr => h r (List.mem_cons_of_mem _ hr)

/-- The descriptor whose turn it is begins to feed; no other one's record changes (R393, R394). -/
theorem quiet_beginFeed {s : State} {rs : List HostRef} (h : quiet s rs) (p : Port) (q : Nat) : quiet (beginFeed s p q) rs := by
  unfold beginFeed
  split
  · next t ht =>
    obtain ⟨htk, hf⟩ := firstUnfed_some ht
    split
    · have hs : changesOnly [.chk] (markFeed s t.ref .begun)
          (foldS (stageLanes s t) (fun s l => startUsers s l p q t.ref.cls.toNat) (markFeed s t.ref .begun)) :=
        changes_foldS _ _ (fun u l k => chg_startUsers u l p q _ (by decide) k) (changesOnly_refl _ _)
      refine quiet_frame hs rfl fun r hr u hu => ?_
      rw [takenRef_mark] at hu
      obtain ⟨v, hv, rfl⟩ := Option.map_eq_some_iff.1 hu
      have hq := h r hr v hv
      by_cases e : v.ref = t.ref
      · have hr' : r = t.ref := (takenRef_some hv).1.symm.trans e
        subst hr'
        rw [htk] at hv
        obtain rfl := Option.some.inj hv
        rw [if_pos rfl]
        exact .inr (hq.resolve_left hf)
      · rw [if_neg e]
        exact hq
    · exact h
  · exact h

/-- From s to t records have only gone. -/
def takenFewer (s t : State) : Prop := ∀ r, takenRef t r = none ∨ takenRef t r = takenRef s r

theorem fewer_refl (s : State) : takenFewer s s := fun _ => .inr rfl

theorem fewer_trans {s t u : State} (h : takenFewer s t) (k : takenFewer t u) : takenFewer s u := fun r => by
  obtain e | e := k r
  · exact .inl e
  · rw [e]; exact h r

theorem fewer_of {ps : List Part} {s t : State} (h : changesOnly ps s t) (hp : ps.contains .mbx = false := by rfl) : takenFewer s t :=
  fun r => .inr (takenRef_frame h hp r)

theorem fewer_finishAll (s : State) (r : HostRef) (e : HostEnd) : takenFewer s (finishAll s r e) := fun r' => by
  rw [takenRef_finishAll]
  split
  · exact .inl rfl
  · exact .inr rfl

theorem quiet_fewer {s t : State} {rs : List HostRef} (h : takenFewer s t) (k : quiet s rs) : quiet t rs := fun r hr u hu => by
  obtain e | e := h r
  · rw [e] at hu; cases hu
  · exact k r hr u (by rw [← e]; exact hu)

/-! ### What a chunk does to the records -/

theorem feedStage_only (s : State) (t : Taken) (w : Bool) (bs : List Byte) : changesOnly [.eic, .chk, .ports] s (feedStage s t w bs) :=
  chg_feedStage s t w bs (by decide) (changesOnly_refl _ s)

theorem fewer_failStage (s : State) (t : Taken) (reason : Nat) : takenFewer s (failStage s t reason) := by
  unfold failStage
  dsimp only
  refine fewer_trans ?_ (fewer_finishAll _ _ _)
  have hb : changesOnly (records ++ [.bank]) s (modLanes s (fun _ L => { L with bank := emptyBank L.bank reason })) :=
    changes_modLanes _ (fun l p hp => by cases p <;> simp_all [sameLane]) (changesOnly_refl _ s)
  exact fewer_of (changes_foldS _ _ (fun u l k => chg_stagedRecord u l _ _ _ _ (by decide) k) hb)

theorem fewer_overtake (s : State) (t : Taken) : takenFewer s (overtake s t) := by
  unfold overtake
  split
  · split
    · exact fewer_finishAll _ _ _
    · exact fewer_refl s
  · exact fewer_refl s

theorem fewer_programChunk (s : State) (t : Taken) (x : StageData) : takenFewer s (programChunk s t x) := by
  unfold programChunk
  dsimp only
  refine fewer_trans (fewer_of (feedStage_only s t true x.bytes)) ?_
  generalize feedStage s t true x.bytes = s1
  split
  · exact fewer_finishAll _ _ _
  refine fewer_trans (fewer_overtake s1 t) (fewer_trans (fewer_of (chg_takeBytes (overtake s1 t) t.desc x (by decide) (changesOnly_refl [.bank] _))) ?_)
  split
  · exact fewer_failStage _ _ _
  split
  · exact fewer_refl _
  · exact fewer_finishAll _ _ _

theorem fewer_dataFailed (s : State) (t : Taken) (bs : List Byte) : takenFewer s (dataFailed s t bs) :=
  fewer_trans (fewer_of (feedStage_only s t false bs)) (fewer_finishAll _ _ _)

/-! ### A descriptor that is next, with its data -/

/-- In its SQ the descriptor waits for its data, and none before it can be executed (R314, R393). -/
structure IsNext (s : State) (p : Port) (q : Fin 16) (d : BitVec 512) (r : HostRef) (t : Taken) : Prop where
  waits : waitingRef s p q d = some r
  found : takenRef s r = some t
  unfed : t.feed ≠ .fed
  others : ∀ r' ∈ stageRefs s p q.val, r' ≠ r → ∀ t', takenRef s r' = some t' → t'.feed = .fed ∨ t'.data = none

/-- The first descriptor without data is the one that waits. -/
theorem waitingRef_some {s : State} {p : Port} {q : Fin 16} {d : BitVec 512} {r : HostRef} (h : waitingRef s p q d = some r) :
    ∃ t xs ys, takenRef s r = some t ∧ t.data = none ∧ t.desc = d ∧ stageRefs s p q.val = xs ++ r :: ys ∧
      ∀ r' ∈ xs, ∀ t', takenRef s r' = some t' → t'.data ≠ none := by
  unfold waitingRef at h
  split at h
  · next t ht =>
    split at h
    · next hd =>
      obtain ⟨xs, r', ys, hxs, hr', hbefore⟩ := List.findSome?_eq_some_iff.1 ht
      obtain ⟨t0, ht0, hif⟩ := Option.bind_eq_some_iff.1 hr'
      split at hif
      · next hn =>
        obtain rfl := Option.some.inj hif
        obtain rfl := Option.some.inj h
        obtain rfl := (takenRef_some ht0).1
        refine ⟨t0, xs, ys, ht0, Option.isNone_iff_eq_none.1 hn, hd, hxs, fun k hk t' ht' hnone => ?_⟩
        have := hbefore k hk
        rw [ht', Option.bind_some, hnone] at this
        cases this
      · cases hif
    · cases h
  · cases h

/-- The descriptor as the lanes keep it, its data moved. -/
def withData (t : Taken) (x : StageData) : Taken := { t with data := some x }

/-- The state in which the descriptor is executed: its data there, and its turn to feed taken. -/
def turnTaken (s : State) (p : Port) (q : Nat) (r : HostRef) (x : StageData) : State := markFeed (beginFeed (attachData s r x) p q) r .fed

section
variable {s : State} {p : Port} {q : Fin 16} {d : BitVec 512} {r : HostRef} {t : Taken} (h : IsNext s p q d r t)

include h

theorem isNext_waiting : isWaiting s p q d = true := by
  obtain ⟨t0, xs, ys, ht0, hn, hd, hxs, -⟩ := waitingRef_some h.waits
  obtain ⟨href, hrep, l, hl⟩ := takenRef_some ht0
  have hr : r ∈ stageRefs s p q.val := by rw [hxs]; exact List.mem_append_right _ List.mem_cons_self
  unfold stageRefs at hr
  rw [List.mem_eraseDups, List.mem_map] at hr
  obtain ⟨t1, ht1, rfl⟩ := hr
  have hp := (List.mem_filter.1 ht1).2
  simp only [Bool.and_eq_true, decide_eq_true_eq] at hp
  unfold isWaiting
  rw [List.any_eq_true]
  refine ⟨l, mem_laneList l, ?_⟩
  rw [List.any_eq_true]
  refine ⟨t0, hl, ?_⟩
  simp [awaitsData, href, hp.1.1.1, Fin.ext_iff, hp.1.1.2, hd, hrep, hn]

theorem isNext_attached (x : StageData) : takenRef (attachData s r x) r = some (withData t x) := by
  rw [takenRef_attach, h.found]
  show some (if t.ref = r then _ else t) = _
  rw [if_pos (takenRef_some h.found).1]
  rfl

theorem isNext_first (x : StageData) : firstUnfed (attachData s r x) p q.val = some (withData t x) := by
  obtain ⟨t0, xs, ys, ht0, hn, hd, hxs, hbefore⟩ := waitingRef_some h.waits
  have ht : t0 = t := Option.some.inj (ht0.symm.trans h.found)
  subst ht
  unfold firstUnfed
  rw [stageRefs_attach, hxs, List.findSome?_eq_some_iff]
  refine ⟨xs, r, ys, rfl, ?_, fun r' hr' => ?_⟩
  · rw [isNext_attached h]
    exact if_neg h.unfed
  · rw [takenRef_attach]
    cases ht' : takenRef s r' with
    | none => rfl
    | some t' =>
      have hdata := hbefore r' hr' t' ht'
      have hne : r' ≠ r := fun e => hdata (by
        subst e
        rw [ht0] at ht'
        rw [← Option.some.inj ht']
        exact hn)
      have hfed := (h.others r' (by rw [hxs]; exact List.mem_append_left _ hr') hne t' ht').resolve_right hdata
      show (match some (if t'.ref = r then _ else t') with | some t => if t.feed = .fed then none else some t | none => none) = none
      rw [if_neg (by rw [(takenRef_some ht').1]; exact hne)]
      exact if_pos hfed

theorem isNext_quiet (x : StageData) : quiet (attachData s r x) ((stageRefs s p q.val).filter (fun r' => decide (r' ≠ r))) := fun r' hr' u hu => by
  rw [List.mem_filter, decide_eq_true_eq] at hr'
  obtain ⟨hmem, hne⟩ := hr'
  rw [takenRef_attach] at hu
  obtain ⟨v, hv, rfl⟩ := Option.map_eq_some_iff.1 hu
  rw [if_neg (by rw [(takenRef_some hv).1]; exact hne)]
  exact h.others r' hmem hne v hv

/-- A descriptor that has not started is only given its data. -/
theorem isNext_notStarted (hs : t.started = false) (x : StageData) : runSq (attachData s r x) p q.val = attachData s r x := by
  unfold runSq
  rw [stageRefs_attach]
  refine runNext_same fun r' hr' => ?_
  by_cases e : r' = r
  · subst e
    unfold runNext
    rw [isNext_first h]
    exact if_neg (by simp [withData, hs])
  · exact runNext_quiet (isNext_quiet h x) (List.mem_filter.2 ⟨hr', decide_eq_true e⟩) p q.val

theorem isNext_turn (x : StageData) : quiet (turnTaken s p q.val r x) (stageRefs s p q.val) := fun r' hr' u hu => by
  unfold turnTaken at hu
  rw [takenRef_mark] at hu
  obtain ⟨v, hv, rfl⟩ := Option.map_eq_some_iff.1 hu
  by_cases e : r' = r
  · rw [if_pos ((takenRef_some hv).1.trans e)]
    exact .inl rfl
  · rw [if_neg (by rw [(takenRef_some hv).1]; exact e)]
    exact quiet_beginFeed (isNext_quiet h x) p q.val r' (List.mem_filter.2 ⟨hr', decide_eq_true e⟩) v hv

/-- A descriptor that has started is executed, and no other one of its SQ. -/
theorem isNext_started (hs : t.started = true) (x : StageData)
    (hw : takenFewer (turnTaken s p q.val r x) (executeChunk (turnTaken s p q.val r x) (withData t x))) :
    runSq (attachData s r x) p q.val = beginFeed (executeChunk (turnTaken s p q.val r x) (withData t x)) p q.val := by
  have href := (takenRef_some h.found).1
  obtain ⟨_, xs, ys, -, -, -, hxs, -⟩ := waitingRef_some h.waits
  obtain ⟨as, bs, hab, hnot⟩ := List.eq_append_cons_of_mem (show r ∈ stageRefs s p q.val by rw [hxs]; exact List.mem_append_right _ List.mem_cons_self)
  have hq := isNext_quiet h x
  have hrun : runNext p q.val (attachData s r x) r = beginFeed (executeChunk (turnTaken s p q.val r x) (withData t x)) p q.val := by
    unfold runNext
    rw [isNext_first h]
    dsimp only
    rw [if_pos (by simp [withData, hs, href])]
    rfl
  have hafter : quiet (beginFeed (executeChunk (turnTaken s p q.val r x) (withData t x)) p q.val) (stageRefs s p q.val) :=
    quiet_beginFeed (quiet_fewer hw (isNext_turn h x)) p q.val
  unfold runSq
  rw [stageRefs_attach, hab]
  unfold foldS
  rw [List.foldl_append, List.foldl_cons]
  have hpre : as.foldl (runNext p q.val) (attachData s r x) = attachData s r x := runNext_same fun r' hr' =>
    runNext_quiet hq (List.mem_filter.2 ⟨by rw [hab]; exact List.mem_append_left _ hr', decide_eq_true fun e => hnot (e ▸ hr')⟩) p q.val
  rw [hpre, hrun]
  exact runNext_same fun r' hr' => runNext_quiet hafter (by rw [hab]; exact List.mem_append_right _ (List.mem_cons_of_mem _ hr')) p q.val

end

end Sys2Proof.Laws

/-! ## The chunks of a staging (R431, R433, R448) -/

namespace Sys2Proof.Laws

open Sys2Proof Sys2Proof.Machine Sys2Proof.Safety

/-! ### The reference lane -/

/-- The reference lane stays where no state of a lane or of the module changes, and no self-test moves. -/
theorem refLane_of {ps : List Part} {s t : State} (h : changesOnly ps s t) (h1 : ps.contains .laneState = false := by rfl)
    (h2 : ps.contains .mode = false := by rfl) (h3 : ps.contains .life = false := by rfl) (h4 : ps.contains .bist = false := by rfl) :
    refLane t = refLane s := by
  have hs : servingLanes t = servingLanes s := by
    unfold servingLanes serving
    simp only [lst_of h h1]
  have hr : runs t = runs s := funext fun l => runs_same (lst_of h h1 l) (mode_of h h2) (by rw [bist_of h h4])
  have ha : atStart t = atStart s := funext fun l => by
    unfold atStart
    simp only [life_eq h h1 h3, lst_of h h1]
  unfold refLane
  rw [hs, hr, ha]

theorem refBank_of {ps : List Part} {s t : State} (h : changesOnly ps s t) (h1 : ps.contains .laneState = false := by rfl)
    (h2 : ps.contains .mode = false := by rfl) (h3 : ps.contains .life = false := by rfl) (h4 : ps.contains .bist = false := by rfl)
    (h5 : ps.contains .bank = false := by rfl) : refBank t = refBank s := by
  unfold refBank
  rw [refLane_of h h1 h2 h3 h4, bank_of h h5]

theorem keepsStage_of {ps : List Part} {s t : State} (h : changesOnly ps s t) (h1 : ps.contains .laneState = false := by rfl) (l : Lane) :
    keepsStage t l = keepsStage s l := by
  unfold keepsStage
  rw [lst_of h h1]

/-! ### The execution of a chunk -/

theorem turnTaken_only (s : State) (p : Port) (q : Nat) (r : HostRef) (x : StageData) : changesOnly [.chk, .mbx] s (turnTaken s p q r x) :=
  chg_markFeed _ r .fed (by decide) (chg_beginFeed _ p q (by decide) (chg_attachData s r x (by decide) (changesOnly_refl _ s)))

theorem executeChunk_failed (s : State) {t : Taken} {x : StageData} (h : x.bytes.length ≠ chunkLen t.desc) :
    executeChunk s (withData t x) = dataFailed s (withData t x) x.bytes := by
  unfold executeChunk withData
  dsimp only
  rw [if_pos h]

theorem executeChunk_program (s : State) {t : Taken} {x : StageData} (h : x.bytes.length = chunkLen t.desc) (hc : t.ref.cls = 0x20) :
    executeChunk s (withData t x) = programChunk s (withData t x) x := by
  unfold executeChunk withData
  dsimp only
  rw [if_neg (fun k => k h), if_pos hc]

theorem executeChunk_firmware (s : State) {t : Taken} {x : StageData} (h : x.bytes.length = chunkLen t.desc) (hc : t.ref.cls = 0x21) :
    executeChunk s (withData t x) = firmwareChunk s (withData t x) x := by
  unfold executeChunk withData
  dsimp only
  rw [if_neg (fun k => k h), if_neg (by rw [hc]; decide), if_pos hc]

/-- The data of a chunk, cut to its length. -/
def chunkData (d : BitVec 512) (x : StageData) : StageData := { x with bytes := x.bytes.take (chunkLen d) }

theorem stageData_next {s : State} {p : Port} {q : Fin 16} {d : BitVec 512} {r : HostRef} (h : waitingRef s p q d = some r) (x : StageData) :
    stageData s p q d x = runSq (attachData s r (chunkData d x)) p q.val := by
  unfold stageData
  rw [h]
  rfl

section
variable {s : State} {p : Port} {q : Fin 16} {d : BitVec 512} {r : HostRef} {t : Taken} (h : IsNext s p q d r t)
include h

/-- The descriptor's data arrives before its execution starts. -/
theorem stageData_waits (hs : t.started = false) (x : StageData) : changesOnly [.mbx] s (stageData s p q d x) := by
  rw [stageData_next h.waits, isNext_notStarted h hs]
  exact chg_attachData s r _ (by decide) (changesOnly_refl _ s)

/-- Data too short fails the transfer (R305, R321). -/
theorem stageData_short (hd : t.desc = d) (hs : t.started = true) {x : StageData} (hl : x.bytes.length < chunkLen d) :
    changesOnly [.eic, .chk, .mbx, .ports] s (stageData s p q d x) := by
  have hb : (chunkData d x).bytes.length ≠ chunkLen t.desc := by
    unfold chunkData
    rw [hd, List.length_take]
    omega
  have he := executeChunk_failed (turnTaken s p q.val r (chunkData d x)) hb
  rw [stageData_next h.waits, isNext_started h hs _ (by rw [he]; exact fewer_dataFailed _ _ _), he]
  exact chg_beginFeed _ p q.val (by decide) (chg_dataFailed _ _ _ (by decide) (changes_step (by decide) (turnTaken_only s p q.val r _) (changesOnly_refl _ s)))

/-- A chunk of a vintage whose data is complete is executed. -/
theorem stageData_program (hd : t.desc = d) (hc : t.ref.cls = 0x20) (hs : t.started = true) {x : StageData} (hl : x.bytes.length = chunkLen d) :
    stageData s p q d x = beginFeed (programChunk (turnTaken s p q.val r x) (withData t x) x) p q.val := by
  have hx : chunkData d x = x := by unfold chunkData; rw [← hl, List.take_length]
  have he := executeChunk_program (turnTaken s p q.val r x) (t := t) (x := x) (by rw [hd]; exact hl) hc
  rw [stageData_next h.waits, hx, isNext_started h hs _ (by rw [he]; exact fewer_programChunk _ _ _), he]

theorem stageData_firmware (hd : t.desc = d) (hc : t.ref.cls = 0x21) (hs : t.started = true) {x : StageData} (hl : x.bytes.length = chunkLen d)
    (hf : takenFewer (turnTaken s p q.val r x) (firmwareChunk (turnTaken s p q.val r x) (withData t x) x)) :
    stageData s p q d x = beginFeed (firmwareChunk (turnTaken s p q.val r x) (withData t x) x) p q.val := by
  have hx : chunkData d x = x := by unfold chunkData; rw [← hl, List.take_length]
  have he := executeChunk_firmware (turnTaken s p q.val r x) (t := t) (x := x) (by rw [hd]; exact hl) hc
  rw [stageData_next h.waits, hx, isNext_started h hs _ (by rw [he]; exact hf), he]

/-- The row of a vintage's chunk finds its descriptor taken. -/
theorem exec_stageProgram (hc : dClass d = 0x20) (bs : List Byte) (parts : Option Vintage) : exec (.stageProgram p q d bs parts) s =
    .next (stageData s p q d { bytes := bs, parts := parts, signed := none }) := by
  show execStageProgram p q d bs parts s = _
  unfold execStageProgram
  dsimp only
  rw [if_neg (fun k => k hc), isNext_waiting h, if_pos rfl]

theorem exec_stageFirmware (hc : dClass d = 0x21) (e : BitVec 512) (bs : List Byte) (signed : Option Bool) :
    exec (.stageFirmware p q d e bs signed) s = .next (stageData s p q d { bytes := bs, parts := none, signed := signed }) := by
  show execStageFirmware p q d e bs signed s = _
  unfold execStageFirmware
  dsimp only
  rw [if_neg (fun k => k hc), isNext_waiting h, if_pos rfl]

end

theorem exec_stageProgram_other {s : State} {d : BitVec 512} (h : dClass d ≠ 0x20) (p : Port) (q : Fin 16) (bs : List Byte) (parts : Option Vintage) :
    exec (.stageProgram p q d bs parts) s = .next s := by
  simp only [exec, execStageProgram, ne_eq, h, not_false_eq_true, if_true]

theorem exec_stageFirmware_other {s : State} {d : BitVec 512} (h : dClass d ≠ 0x21) (p : Port) (q : Fin 16) (e : BitVec 512) (bs : List Byte)
    (signed : Option Bool) : exec (.stageFirmware p q d e bs signed) s = .next s := by
  simp only [exec, execStageFirmware, ne_eq, h, not_false_eq_true, if_true]

/-! ### A chunk of a vintage (R431, R433) -/

/-- A chunk out of order takes nothing (R431 step 2). -/
theorem programChunk_disordered {s : State} {t : Taken} {x : StageData} (h : chunkOrder (refBank s) t.desc = true) (l : Lane) :
    (lane (programChunk s t x) l).bank = (lane s l).bank := by
  unfold programChunk
  dsimp only
  rw [if_pos h, bank_of (chg_endStage _ t _ _ (by decide) (changesOnly_refl [.mbx] _)), bank_of (feedStage_only s t true x.bytes)]

theorem chunkOrder_iff (b : Bank) (d : BitVec 512) : chunkOrder b d = true ↔
    chunkOff d ≠ 0 ∧ (b.verifying = true ∨ b.st ≠ .receiving ∨ b.number.toNat ≠ dget d 0x18 4 ∨ b.bytes ≠ chunkOff d) := by
  unfold chunkOrder
  simp only [Bool.and_eq_true, Bool.or_eq_true, decide_eq_true_eq, or_assoc]

theorem lane_takeBytes_first {d : BitVec 512} (h : chunkOff d = 0) (s : State) (x : StageData) (l : Lane) : (lane (takeBytes s d x) l).bank =
    if keepsStage s l = true then
      { emptyBank (lane s l).bank 0 with
        st := .receiving, number := BitVec.ofNat 32 (dget d 0x18 4), bytes := 0 + chunkLen d, lapsed := none
        received := [] ++ x.bytes, verifying := chunkLast d, parts := if chunkLast d then x.parts else none }
    else emptyBank (lane s l).bank 0 := by
  unfold takeBytes
  rw [lane_modLanes]
  dsimp only
  rw [decide_eq_true h]
  cases keepsStage s l <;> rfl

/-- A first chunk opens the staging in the lanes that keep it (R431, R433). -/
theorem programChunk_first {s : State} {t : Taken} {x : StageData} (h0 : chunkOff t.desc = 0) (hlast : chunkLast t.desc = false)
    (hsize : chunkLen t.desc ≤ 25165824) (hk : keepsStage s (refLane s) = true) (l : Lane) :
    (lane (programChunk s t x) l).bank = (lane (takeBytes s t.desc x) l).bank := by
  have hno : chunkOrder (refBank s) t.desc = false := by simp [chunkOrder, h0]
  have hbefore : changesOnly [.eic, .chk, .ports, .mbx] s (overtake (feedStage s t true x.bytes) t) :=
    chg_overtake _ t (by decide) (changes_step (by decide) (feedStage_only s t true x.bytes) (changesOnly_refl _ s))
  have htake : ∀ m, (lane (takeBytes (overtake (feedStage s t true x.bytes) t) t.desc x) m).bank = (lane (takeBytes s t.desc x) m).bank := fun m => by
    rw [lane_takeBytes_first h0, lane_takeBytes_first h0, bank_of hbefore, keepsStage_of hbefore]
  have hafter : changesOnly [.eic, .chk, .ports, .mbx, .bank] s (takeBytes (overtake (feedStage s t true x.bytes) t) t.desc x) :=
    chg_takeBytes _ _ _ (by decide) (changes_step (by decide) hbefore (changesOnly_refl _ s))
  have hlen : (refBank (takeBytes (overtake (feedStage s t true x.bytes) t) t.desc x)).bytes = chunkLen t.desc := by
    unfold refBank
    rw [refLane_of hafter, htake, lane_takeBytes_first h0, if_pos hk]
    exact Nat.zero_add _
  unfold programChunk
  dsimp only
  rw [hno, if_neg Bool.false_ne_true, if_neg (by rw [hlen]; omega), hlast, if_neg Bool.false_ne_true,
    bank_of (chg_endStage _ t _ _ (by decide) (changesOnly_refl [.mbx] _)), htake]

end Sys2Proof.Laws

/-! ## Staging of vintages and firmware: what the rows leave (R431, R432, R433, R448) -/

namespace Sys2Proof.Laws

open Sys2Proof Sys2Proof.Machine Sys2Proof.Safety

/-- The rows of a vintage's chunk (R431, R433). -/
theorem stagesProgram {s : State} {p : Port} {q : Fin 16} {d : BitVec 512} {r : HostRef} {t : Taken} (h : IsNext s p q d r t) (hd : t.desc = d)
    (hc : t.ref.cls = 0x20) (hs : t.started = true) {x : StageData} (hl : x.bytes.length = chunkLen d) :
    changesOnly (records ++ [.chk, .mbx, .bank]) s (stageData s p q d x) ∧
    (chunkOrder (refBank s) d = true → ∀ l, (lane (stageData s p q d x) l).bank = (lane s l).bank) ∧
    (chunkOff d = 0 → chunkLast d = false → chunkLen d ≤ 25165824 → keepsStage s (refLane s) = true → ∀ l,
      (lane (stageData s p q d x) l).bank = (lane (takeBytes s d x) l).bank) := by
  have hturn := turnTaken_only s p q.val r x
  subst hd
  rw [stageData_program h rfl hc hs hl]
  have hend := chg_beginFeed (programChunk (turnTaken s p q.val r x) (withData t x) x) p q.val (by decide) (changesOnly_refl [.chk, .mbx] _)
  refine ⟨?_, fun ho l => ?_, fun h0 hlast hsize hk l => ?_⟩
  · exact chg_beginFeed _ p q.val (by decide) (chg_programChunk _ _ _ (by decide) (changes_step (by decide) hturn (changesOnly_refl _ s)))
  · rw [bank_of hend, programChunk_disordered, bank_of hturn]
    rw [refBank_of hturn]
    exact ho
  · rw [bank_of hend]
    refine (programChunk_first (t := withData t x) h0 hlast hsize (by rw [refLane_of hturn, keepsStage_of hturn]; exact hk) l).trans ?_
    rw [lane_takeBytes_first h0, lane_takeBytes_first (d := (withData t x).desc) h0, bank_of hturn, keepsStage_of hturn]
    rfl

/-! ### A chunk of firmware (R448) -/

theorem deltaOrder_iff (b : Boot) (d : BitVec 512) : deltaOrder b d = true ↔
    b.update.isSome = true ∨ (chunkOff d ≠ 0 ∧ (b.taking = false ∨ b.deltaBytes ≠ chunkOff d)) := by
  unfold deltaOrder
  simp only [Bool.or_eq_true, Bool.and_eq_true, decide_eq_true_eq, Bool.not_eq_true']

/-- A chunk that is neither the last one nor too large is added to those before it. -/
theorem deltaTaken_more {d : BitVec 512} (hlast : chunkLast d = false) (hsize : chunkOff d + chunkLen d ≤ 12582912) (b : Boot) (bs : List Byte) :
    deltaTaken b d bs = { b with
      deltaBytes := chunkOff d + chunkLen d, taking := true, delta := (if chunkOff d = 0 then [] else b.delta) ++ bs } := by
  unfold deltaTaken
  dsimp only
  rw [hlast, decide_eq_true hsize]
  rfl

theorem firmwareChunk_disordered {s : State} {t : Taken} {x : StageData} (h : deltaOrder (lane s (fwLane t.desc)).boot t.desc = true) :
    firmwareChunk s t x = endStage (feedStage s t true x.bytes) t (lane s (fwLane t.desc)).boot.deltaBytes 1 := by
  unfold firmwareChunk
  dsimp only
  rw [if_pos h]

theorem firmwareChunk_taken {s : State} {t : Taken} {x : StageData} (h : deltaOrder (lane s (fwLane t.desc)).boot t.desc = false)
    (hlast : chunkLast t.desc = false) (hsize : chunkOff t.desc + chunkLen t.desc ≤ 12582912) : firmwareChunk s t x =
    endStage (modLane (feedStage s t true x.bytes) (fwLane t.desc) (fun L => { L with boot := deltaTaken L.boot t.desc x.bytes })) t
      (chunkOff t.desc + chunkLen t.desc) 0 := by
  unfold firmwareChunk
  dsimp only
  rw [h, if_neg Bool.false_ne_true, if_neg (by omega), hlast, if_neg Bool.false_ne_true]

theorem boot_modBoot (s : State) (l : Lane) (f : Boot → Boot) (m : Lane) :
    (lane (modLane s l (fun L => { L with boot := f L.boot })) m).boot = if m = l then f (lane s l).boot else (lane s m).boot := by
  rw [lane_modLane]
  split <;> rfl

/-- The rows of a firmware chunk (R431, R448). -/
theorem stagesFirmware {s : State} {p : Port} {q : Fin 16} {d : BitVec 512} {r : HostRef} {t : Taken} (h : IsNext s p q d r t) (hd : t.desc = d)
    (hc : t.ref.cls = 0x21) (hs : t.started = true) {x : StageData} (hl : x.bytes.length = chunkLen d) :
    (deltaOrder (lane s (fwLane d)).boot d = true → changesOnly [.eic, .chk, .mbx, .ports] s (stageData s p q d x)) ∧
    (deltaOrder (lane s (fwLane d)).boot d = false → chunkLast d = false → chunkOff d + chunkLen d ≤ 12582912 →
      changesOnly [.eic, .chk, .mbx, .ports, .boot] s (stageData s p q d x) ∧
      ∀ m, (lane (stageData s p q d x) m).boot = if m = fwLane d then deltaTaken (lane s (fwLane d)).boot d x.bytes else (lane s m).boot) := by
  have hturn := turnTaken_only s p q.val r x
  have hboot : ∀ m, (lane (turnTaken s p q.val r x) m).boot = (lane s m).boot := boot_of hturn rfl
  subst hd
  refine ⟨fun ho => ?_, fun ho hlast hsize => ?_⟩
  · have he := firmwareChunk_disordered (t := withData t x) (x := x) (show deltaOrder (lane (turnTaken s p q.val r x) (fwLane t.desc)).boot t.desc = true by
      rw [hboot]; exact ho)
    have hf := feedStage_only (turnTaken s p q.val r x) (withData t x) true x.bytes
    rw [stageData_firmware h rfl hc hs hl (by rw [he]; exact fewer_trans (fewer_of hf) (fewer_finishAll _ _ _)), he]
    exact chg_beginFeed _ p q.val (by decide) (chg_endStage _ _ _ _ (by decide)
      (changes_step (by decide) hf (changes_step (by decide) hturn (changesOnly_refl _ s))))
  · have he : firmwareChunk (turnTaken s p q.val r x) (withData t x) x =
        endStage (modLane (feedStage (turnTaken s p q.val r x) (withData t x) true x.bytes) (fwLane t.desc)
          (fun L => { L with boot := deltaTaken L.boot t.desc x.bytes })) (withData t x) (chunkOff t.desc + chunkLen t.desc) 0 :=
      firmwareChunk_taken (show deltaOrder (lane (turnTaken s p q.val r x) (fwLane t.desc)).boot t.desc = false by rw [hboot]; exact ho) hlast hsize
    have hf := feedStage_only (turnTaken s p q.val r x) (withData t x) true x.bytes
    have hm : changesOnly [.eic, .chk, .ports, .boot] (turnTaken s p q.val r x) (modLane (feedStage (turnTaken s p q.val r x) (withData t x) true x.bytes)
        (fwLane t.desc) (fun L => { L with boot := deltaTaken L.boot t.desc x.bytes })) :=
      changes_modLane _ _ (laneOnly_step (by decide) (laneOnly_boot _ _) (laneOnly_refl _ _)) (changes_step (by decide) hf (changesOnly_refl _ _))
    rw [stageData_firmware h rfl hc hs hl (by rw [he]; exact fewer_trans (fewer_of hm) (fewer_finishAll _ _ _)), he]
    have hend : ∀ u : State, changesOnly [.chk, .mbx] u (beginFeed (endStage u (withData t x) (chunkOff t.desc + chunkLen t.desc) 0) p q.val) :=
      fun u => chg_beginFeed _ p q.val (by decide) (chg_endStage u _ _ _ (by decide) (changesOnly_refl _ u))
    refine ⟨changes_step (by decide) (hend _) (changes_step (by decide) hm (changes_step (by decide) hturn (changesOnly_refl _ s))), fun m => ?_⟩
    rw [boot_of (hend _)]
    refine (boot_modBoot _ (fwLane t.desc) (fun b => deltaTaken b t.desc x.bytes) m).trans ?_
    rw [boot_of hf, boot_of hf, hboot, hboot]

/-! ### The end of a verification (R432) -/

theorem only_finishLane {l : Lane} {z s : State} (r : HostRef) (e : HostEnd) (h : onlyLane l z s) : onlyLane l z (finishLane s l r e) := by
  unfold finishLane
  split
  · exact h
  · exact only_modLane _ h

/-- The verification of a lane ends in that lane's bank (R432). -/
theorem endVerify_bank {errors : PerLane (BitVec 64)} {reasons : PerLane Nat} {s : State} {l : Lane} (h : (lane s l).bank.verifying = true) :
    (lane (endVerify errors reasons s l) l).bank = verifiedBank (lane s l).bank (reasons.get l) (laneValue s l (errors.get l)) := by
  unfold endVerify
  dsimp only
  rw [h, if_neg (by decide)]
  have hrec : ∀ (u : State) (n : Word) (k : Nat) (c : BitVec 64) (b : Nat), changesOnly records u (stagedRecord u l n k c b) :=
    fun u n k c b => chg_stagedRecord u l n k c b (by decide) (changesOnly_refl _ u)
  split
  · rw [bank_of (chg_finishLane _ l _ _ (by decide) (changesOnly_refl [.mbx] _)), bank_of (hrec _ _ _ _ _), lane_modLane_self]
  · rw [bank_of (hrec _ _ _ _ _), lane_modLane_self]

theorem only_endVerify (errors : PerLane (BitVec 64)) (reasons : PerLane Nat) (s : State) (l : Lane) : onlyLane l s (endVerify errors reasons s l) := by
  unfold endVerify
  dsimp only
  split
  · exact only_refl l s
  split
  · exact only_finishLane _ _ (only_eventLane _ _ _ (only_modLane _ (only_refl l s)))
  · exact only_eventLane _ _ _ (only_modLane _ (only_refl l s))

theorem laneValue_same {s t : State} {l : Lane} (h : (lane t l).bank = (lane s l).bank) (e : BitVec 64) : laneValue t l e = laneValue s l e := by
  unfold laneValue
  rw [h]

/-- The lanes of a list end their verifications, each in its own bank; the others keep theirs. -/
theorem endVerifies_bank (errors : PerLane (BitVec 64)) (reasons : PerLane Nat) {xs : List Lane} (hn : xs.Nodup) {s : State}
    (hv : ∀ l ∈ xs, (lane s l).bank.verifying = true) (l : Lane) : (lane (foldS xs (endVerify errors reasons) s) l).bank =
      if l ∈ xs then verifiedBank (lane s l).bank (reasons.get l) (laneValue s l (errors.get l)) else (lane s l).bank := by
  unfold foldS
  induction xs generalizing s with
  | nil => rfl
  | cons x xs ih =>
    have hx := only_endVerify errors reasons s x
    obtain ⟨hnot, hn'⟩ := List.nodup_cons.1 hn
    have hne : ∀ m ∈ xs, m ≠ x := fun m hm e => hnot (e ▸ hm)
    rw [List.foldl_cons, ih hn' fun m hm => by rw [hx m (hne m hm)]; exact hv m (List.mem_cons_of_mem _ hm)]
    by_cases e : l = x
    · subst e
      rw [if_neg hnot, if_pos List.mem_cons_self, endVerify_bank (hv l List.mem_cons_self)]
    · rw [hx l e, laneValue_same (s := s) (by rw [hx l e])]
      simp [e]

/-- A lane that no longer keeps the staging drops its verification (R433). -/
theorem dropVerify_bank (s : State) (l : Lane) : (lane (dropVerify s) l).bank =
    if (lane s l).bank.verifying = true ∧ keepsStage s l = false then emptyBank (lane s l).bank 0 else (lane s l).bank := by
  unfold dropVerify
  rw [lane_modLanes]
  cases (lane s l).bank.verifying <;> cases keepsStage s l <;> rfl

theorem mem_verifyLanes {s : State} {l : Lane} : l ∈ verifyLanes s ↔ (lane s l).bank.verifying = true ∧ keepsStage s l = true := by
  unfold verifyLanes
  rw [List.mem_filter, Bool.and_eq_true]
  exact ⟨fun h => h.2, fun h => ⟨mem_laneList l, h⟩⟩

/-- The reasons of the three lanes. -/
def verifyReasons (s : State) (errors : PerLane (BitVec 64)) (norOk : PerLane Bool) : PerLane Nat :=
  ⟨verifyReason s errors norOk .A, verifyReason s errors norOk .B, verifyReason s errors norOk .C⟩

theorem verifyReasons_get (s : State) (errors : PerLane (BitVec 64)) (norOk : PerLane Bool) (l : Lane) :
    (verifyReasons s errors norOk).get l = verifyReason s errors norOk l := by cases l <;> rfl

/-- The banks once every verification has ended: those of the lanes that keep the staging are judged, the others are dropped. -/
def verifyEnded (s : State) (errors : PerLane (BitVec 64)) (norOk : PerLane Bool) : State :=
  foldS (verifyLanes s) (endVerify errors (verifyReasons s errors norOk)) (dropVerify s)

theorem verifyEnded_bank (s : State) (errors : PerLane (BitVec 64)) (norOk : PerLane Bool) (l : Lane) :
    (lane (verifyEnded s errors norOk) l).bank =
      if (lane s l).bank.verifying = false then (lane s l).bank
      else if keepsStage s l = false then emptyBank (lane s l).bank 0
      else verifiedBank (lane s l).bank (verifyReason s errors norOk l) (laneValue s l (errors.get l)) := by
  have hd : ∀ m ∈ verifyLanes s, (lane (dropVerify s) m).bank = (lane s m).bank := fun m hm => by
    rw [dropVerify_bank, if_neg (fun h => by rw [(mem_verifyLanes.1 hm).2] at h; exact Bool.noConfusion h.2)]
  have hn : (verifyLanes s).Nodup := List.Nodup.filter _ (by decide)
  unfold verifyEnded
  rw [endVerifies_bank _ _ hn fun m hm => by rw [hd m hm]; exact (mem_verifyLanes.1 hm).1]
  by_cases hm : l ∈ verifyLanes s
  · obtain ⟨hv, hk⟩ := mem_verifyLanes.1 hm
    rw [if_pos hm, hd l hm, laneValue_same (hd l hm), verifyReasons_get, hv, hk]
    rfl
  · rw [if_neg hm, dropVerify_bank]
    rw [mem_verifyLanes] at hm
    cases hv : (lane s l).bank.verifying <;> cases hk : keepsStage s l <;> simp_all

end Sys2Proof.Laws

/-! ## The end of a verification (R432, R433) -/

namespace Sys2Proof.Laws

open Sys2Proof Sys2Proof.Machine Sys2Proof.Safety

theorem restartTo_only (s : State) (n : Option Word) : changesOnly [.clock] s { s with mod := { s.mod with restartTo := n } } := fun p hp =>
  ⟨by cases p <;> first | exact Bool.noConfusion (show true = false from hp) | rfl | trivial, fun _ => sameLane_refl _ _⟩

/-- Beside the banks a verification enters the history, and a module without a vintage asks for its restart (R475). -/
theorem exec_vintageStaged (errors : PerLane (BitVec 64)) (norOk : PerLane Bool) (s : State) : ∃ u,
    exec (.vintageStaged errors norOk) s = .next u ∧ changesOnly [.clock, .lifetime] (verifyEnded s errors norOk) u := by
  show ∃ u, execVintageStaged errors norOk s = .next u ∧ _
  unfold execVintageStaged
  extract_lets ls reason n done s1 s2
  by_cases he : ls.isEmpty = true
  · refine ⟨dropVerify s, by rw [if_pos he], ?_⟩
    unfold verifyEnded
    rw [show verifyLanes s = [] from List.isEmpty_iff.1 he]
    exact changesOnly_refl _ _
  · have h2 : changesOnly [.clock, .lifetime] (verifyEnded s errors norOk) s2 := by
      show changesOnly [.clock, .lifetime] s1 (if done = true then addHistory s1 3 0 n.toNat (laneValue s (refLane s) (errors.get (refLane s))) else s1)
      split
      · exact chg_addHistory _ _ _ _ _ _ (by decide) (changesOnly_refl _ _)
      · exact changesOnly_refl _ _
    by_cases hn : (done && decide (vintageOf s2 = none)) = true
    · exact ⟨_, by rw [if_neg he, if_pos hn], changes_step (by decide) (restartTo_only s2 (some n)) h2⟩
    · exact ⟨s2, by rw [if_neg he, if_neg hn], h2⟩

/-! ### The verdict (R432) -/

/-- Check 6 says of a lane that verifies: every lane that keeps the staging has passed its own checks with its value. -/
theorem lanesSame_iff {s : State} {errors : PerLane (BitVec 64)} {l : Lane} (hv : (lane s l).bank.verifying = true) (hk : keepsStage s l = true) :
    lanesSame s errors = true ↔ ∀ m, keepsStage s m = true →
      (lane s m).bank.verifying = true ∧ laneReason s m (errors.get m) = 0 ∧ laneValue s m (errors.get m) = laneValue s l (errors.get l) := by
  unfold lanesSame
  rw [List.all_eq_true]
  simp only [Bool.or_eq_true, Bool.not_eq_true', Bool.and_eq_true, decide_eq_true_eq, List.all_eq_true]
  refine ⟨fun h m hm => ?_, fun h m _ => ?_⟩
  · obtain ⟨⟨h1, h2⟩, h3⟩ := (h m (mem_laneList m)).resolve_left (by rw [hm]; decide)
    exact ⟨h1, h2, (h3 l (mem_verifyLanes.2 ⟨hv, hk⟩)).symm⟩
  · cases hm : keepsStage s m with
    | false => exact .inl rfl
    | true =>
      obtain ⟨h1, h2, h3⟩ := h m hm
      refine .inr ⟨⟨h1, h2⟩, fun k hkk => ?_⟩
      rw [h3, (h k (mem_verifyLanes.1 hkk).2).2.2]

theorem verifiedBank_bad (b : Bank) {r : Nat} (h : r ≠ 0) (c : BitVec 64) : verifiedBank b r c = emptyBank b r := by
  unfold verifiedBank
  split
  · rw [if_neg h]
  · rfl

theorem verifiedBank_good {b : Bank} {v : Vintage} (h : stagedVintage b = some v) (c : BitVec 64) : verifiedBank b 0 c = stagedBank b v c := by
  unfold verifiedBank
  rw [h]
  rfl

/-- An image that passes its own checks unpacks to a vintage. -/
theorem laneReason_vintage {s : State} {l : Lane} {e : BitVec 64} (h : laneReason s l e = 0) : ∃ v, stagedVintage (lane s l).bank = some v := by
  unfold laneReason at h
  dsimp only at h
  split at h
  · next hr => exact absurd h hr
  · split at h
    · next v hv => exact ⟨v, hv⟩
    · cases h

theorem writeStore_active (b : Bank) (v : Vintage) : (writeStore b v).active = b.active := by
  unfold writeStore
  dsimp only
  repeat' split
  all_goals rfl

/-- What a verification leaves of a lane's bank, told from its reason (R432). -/
theorem verdict_bank {s : State} {errors : PerLane (BitVec 64)} {norOk : PerLane Bool} {l : Lane} (hv : (lane s l).bank.verifying = true)
    (hk : keepsStage s l = true) : (lane (verifyEnded s errors norOk) l).bank =
      verifiedBank (lane s l).bank (verifyReason s errors norOk l) (laneValue s l (errors.get l)) := by
  rw [verifyEnded_bank, hv, hk]
  rfl

theorem verifyReason_own {s : State} {errors : PerLane (BitVec 64)} {l : Lane} (h : laneReason s l (errors.get l) ≠ 0) (norOk : PerLane Bool) :
    verifyReason s errors norOk l = laneReason s l (errors.get l) := by
  unfold verifyReason
  dsimp only
  rw [if_pos h]

theorem verifyReason_shared {s : State} {errors : PerLane (BitVec 64)} {l : Lane} (h : laneReason s l (errors.get l) = 0) (norOk : PerLane Bool) :
    verifyReason s errors norOk l = if lanesSame s errors = false then 7 else if norOk.get l = true then 0 else 8 := by
  unfold verifyReason
  dsimp only
  rw [if_neg (fun k => k h)]
  cases lanesSame s errors <;> rfl

/-- A bank that a verification has emptied with a reason. -/
theorem verdict_empty {s : State} {errors : PerLane (BitVec 64)} {norOk : PerLane Bool} {l : Lane} (hv : (lane s l).bank.verifying = true)
    (hk : keepsStage s l = true) {r : Nat} (hr : verifyReason s errors norOk l = r) (h0 : r ≠ 0) :
    (lane (verifyEnded s errors norOk) l).bank.st = .empty ∧ (lane (verifyEnded s errors norOk) l).bank.staged = none ∧
    (lane (verifyEnded s errors norOk) l).bank.reason = BitVec.ofNat 8 r := by
  rw [verdict_bank hv hk, hr, verifiedBank_bad _ h0]
  exact ⟨rfl, rfl, rfl⟩

/-! ### The build of a firmware image (R448) -/

theorem boot_endUpdate {s : State} {l : Lane} {d : FwDelta} {t : Taken} (h : (lane s l).boot.update = some (d, t)) (reason : Nat) :
    (lane (endUpdate s l reason) l).boot = { (lane s l).boot with update := none, step := 0, reason := BitVec.ofNat 8 reason } := by
  unfold endUpdate
  rw [h]
  dsimp only
  rw [boot_of (chg_finishAll _ _ _ (by decide) (chg_eventLane _ _ _ _ _ (by decide) (changesOnly_refl (records ++ [.mbx]) _)))]
  have hself := congrArg LaneState.boot (lane_modLane_self s l (fun L => { L with boot := { L.boot with
    update := none, step := 0, reason := BitVec.ofNat 8 reason } }))
  split
  · rw [boot_of (chg_addHistory _ _ _ _ _ _ (by decide) (changesOnly_refl [.lifetime] _)), hself]
  · exact hself

theorem endUpdate_frame (s : State) (l : Lane) (reason : Nat) : changesOnly (records ++ [.mbx, .boot, .lifetime]) s (endUpdate s l reason) :=
  chg_endUpdate s l reason (by decide) (changesOnly_refl _ s)

/-- The planned activity of a lane is over. -/
def planOver (s : State) (l : Lane) : State := modLane s l (fun L => { L with life := { L.life with planned := .none } })

/-- The image built stands in the slot that the lane does not boot. -/
def slotBuilt (s : State) (l : Lane) (d : FwDelta) : State := modLane s l (fun L => { L with boot := { buildSlot L.boot d with step := 4 } })

/-- The lane goes to TEST with the image parked (R448 step 5). -/
def imageParked (s : State) (l : Lane) (d : FwDelta) : State :=
  modLane (enterTest (slotBuilt s l d) l .fromIsolated) l (fun L => { L with boot := { L.boot with step := 5 } })

/-- The lane is reset to boot the new image (R448 step 4). -/
def imageBooted (s : State) (l : Lane) (d : FwDelta) : State :=
  modLane (resetOne (modLane (slotBuilt s l d) l (fun L => { L with boot := switchSlot L.boot })) l 0x06) l
    (fun L => { L with life := { L.life with startStep := 1 } })

section
variable {l : Lane} {s : State} {d : FwDelta} {t : Taken} (hu : (lane s l).boot.update = some (d, t)) (h3 : (lane s l).boot.step = 3)
  (hst : lst s l = .isolated) (hp : (lane s l).life.planned = .update)
include hu h3 hst hp

theorem exec_imageBuildDone_bad {signed wrote : Bool} (hb : (buildOk (lane s l).boot d signed && wrote) = false) :
    exec (.imageBuildDone l signed wrote) s = .next (endUpdate (planOver s l) l (if buildOk (lane s l).boot d signed then 8 else 0x0D)) := by
  have hn : (!buildOk (lane s l).boot d signed || !wrote) = true := by rw [← Bool.not_and, hb]; rfl
  show execImageBuildDone l signed wrote s = _
  unfold execImageBuildDone
  dsimp only
  rw [hu]
  dsimp only
  rw [h3, hst, hp, hn]
  rfl

theorem exec_imageBuildDone_good {signed wrote : Bool} (hb : (buildOk (lane s l).boot d signed && wrote) = true) :
    exec (.imageBuildDone l signed wrote) s = .next (if d.park = true then imageParked s l d else imageBooted s l d) := by
  have hn : (!buildOk (lane s l).boot d signed || !wrote) = false := by rw [← Bool.not_and, hb]; rfl
  show execImageBuildDone l signed wrote s = _
  unfold execImageBuildDone
  dsimp only
  rw [hu]
  dsimp only
  rw [h3, hst, hp, hn]
  rfl

end

theorem lane_slotBuilt (s : State) (l : Lane) (d : FwDelta) :
    lane (slotBuilt s l d) l = { lane s l with boot := { buildSlot (lane s l).boot d with step := 4 } } := lane_modLane_self s l _

/-- What the slot built holds (R446, R448). -/
theorem buildSlot_facts (b : Boot) (d : FwDelta) : (buildSlot b d).slot = b.slot ∧ (buildSlot b d).image = b.image ∧
    (buildSlot b d).otherImage = builtImage b.image b.delta ∧ slotState (buildSlot b d) (!b.slot) = if d.park then .parked else .valid := by
  unfold buildSlot putSlotState putSlotVersion slotState
  cases b.slot <;> exact ⟨rfl, rfl, rfl, rfl⟩

end Sys2Proof.Laws

/-! ## Racking, expiry and the recovery ROM (R436, R442, R443, R451, R452) -/

namespace Sys2Proof.Laws

open Sys2Proof Sys2Proof.Machine Sys2Proof.Safety

/-! ### The image built boots (R448) -/

theorem boot_laneReset (L : LaneState) (cause : Nat) : (laneReset L cause).boot.slot = L.boot.slot ∧ (laneReset L cause).boot.st0 = L.boot.st0 ∧
    (laneReset L cause).boot.st1 = L.boot.st1 ∧ (laneReset L cause).boot.image = L.boot.image ∧
    (laneReset L cause).boot.otherImage = L.boot.otherImage ∧ (laneReset L cause).boot.slot0 = L.boot.slot0 ∧
    (laneReset L cause).boot.slot1 = L.boot.slot1 := ⟨rfl, rfl, rfl, rfl, rfl, rfl, rfl⟩

/-- The boot slot and the other one after the switch to the image built. -/
theorem switched_slot (b : Boot) (d : FwDelta) (h : d.park = false) : (switchSlot { buildSlot b d with step := 4 }).slot = (!b.slot) ∧
    (switchSlot { buildSlot b d with step := 4 }).image = builtImage b.image b.delta ∧
    (switchSlot { buildSlot b d with step := 4 }).otherImage = b.image ∧
    slotState (switchSlot { buildSlot b d with step := 4 }) (!b.slot) = .valid := by
  obtain ⟨h1, h2, h3, h4⟩ := buildSlot_facts b d
  rw [h] at h4
  exact ⟨congrArg (!·) h1, h3, h2, h4⟩

theorem imageBooted_lane (s : State) (l : Lane) (d : FwDelta) : lane (imageBooted s l d) l =
    { laneReset { lane s l with boot := switchSlot { buildSlot (lane s l).boot d with step := 4 } } 6 with
      life := { (laneReset { lane s l with boot := switchSlot { buildSlot (lane s l).boot d with step := 4 } } 6).life with startStep := 1 } } := by
  unfold imageBooted
  rw [lane_modLane_self, lane_resetOne, if_pos rfl]
  show _ = _
  unfold abandoned
  rw [if_pos (.inl rfl), lane_modLane_self, lane_slotBuilt]

theorem imageBooted_other (s : State) {l m : Lane} (d : FwDelta) (h : m ≠ l) : lst (imageBooted s l d) m = lst s m := by
  unfold imageBooted
  rw [lst_modLane_other _ _ h]
  unfold lst
  rw [lane_resetOne, if_neg h]
  unfold abandoned
  rw [if_pos (.inl rfl), lane_modLane_other _ _ h]
  exact congrArg (·.life.st) (lane_modLane_other s _ h)

theorem imageParked_lane (s : State) (l : Lane) (d : FwDelta) : lst (imageParked s l d) l = .test ∧
    (lane (imageParked s l d) l).boot = { buildSlot (lane s l).boot d with step := 5 } := by
  unfold imageParked lst
  rw [lane_modLane_self, lane_enterTest, lane_slotBuilt]
  exact ⟨rfl, rfl⟩

/-! ### A switch (R436, R439, R442) -/

theorem exec_vintageSwitch_not {s : State} {l : Lane} (h : (lane s l).bank.rackTo = none ∨ s.mod.phase ≠ .input) :
    exec (.vintageSwitch l) s = .next s := by
  show execVintageSwitch l s = _
  unfold execVintageSwitch
  split
  · rfl
  · next x back hr =>
    have hp := h.resolve_left (by rw [hr]; simp)
    rw [if_neg (by simpa using hp)]

/-- A switch is that of the lane's data; the media follow the reference lane. -/
theorem exec_vintageSwitch {s : State} {l : Lane} {t : Taken} {back : Bool} (hr : (lane s l).bank.rackTo = some (t, back)) (hp : s.mod.phase = .input) :
    ∃ u, exec (.vintageSwitch l) s = .next u ∧ changesOnly [.press, .raa, .sessions, .staging, .bank, .alk] s u ∧
      u.lanes = (modLane s l (switchLane back s.mod.tickTime)).lanes := by
  have hex : exec (.vintageSwitch l) s = execVintageSwitch l s := rfl
  have hc := chg_execVintageSwitch l s s (ps := [.press, .raa, .sessions, .staging, .bank, .alk]) (by decide) (changesOnly_refl _ s)
  unfold execVintageSwitch at hex hc
  rw [hr] at hex hc
  dsimp only at hex hc
  rw [if_pos (by simpa using hp)] at hex hc
  refine ⟨_, hex, hc, ?_⟩
  split
  · split <;> rfl
  · rfl

/-- The data of a lane that switches (R436, R442, R443). -/
theorem switchLane_facts {L : LaneState} {a b : Vintage} (ha : L.bank.active = some a) (hb : L.bank.staged = some b) (back : Bool) (now : Time) :
    (switchLane back now L).bank = { L.bank with
      active := some b, activeCheck := L.bank.stagedCheck, staged := some a, stagedCheck := L.bank.activeCheck, number := a.number
      rackTo := none, rackDone := L.bank.rackTo, left := a.number, lapsed := none, expiry := timeAdd now 3600000000000 } ∧
    (switchLane back now L).press.data = carryData (carryMap back a b) L.press.data := by
  have hs : swapBanks L.bank = { L.bank with
      active := some b, activeCheck := L.bank.stagedCheck, staged := some a, stagedCheck := L.bank.activeCheck, number := a.number } := by
    unfold swapBanks
    rw [hb, ha]
  unfold switchLane
  rw [ha, hb]
  dsimp only
  rw [hs]
  exact ⟨rfl, rfl⟩

theorem carryData_facts (m : List CarryEntry) (d : PressData) : (carryData m d).q = d.q ∧ (carryData m d).k.getLsbD 3 = true := by
  refine ⟨rfl, ?_⟩
  show (vput d.k 3 true).getLsbD 3 = true
  unfold vput
  simp

/-! ### The previous vintage (R443) -/

theorem lane_previousExpired (s : State) (l : Lane) : (lane (thenState s (exec .previousExpired s)) l).bank =
    if (lane s l).bank.st = .previous ∧ s.mod.tickTime.toNat ≥ (lane s l).bank.expiry.toNat then
      { emptyBank (lane s l).bank 0 with reason := (lane s l).bank.reason, lapsed := some (lane s l).bank.number }
    else (lane s l).bank := by
  show (lane (modLanes s _) l).bank = _
  rw [lane_modLanes]
  split <;> rfl

/-! ### The recovery ROM (R20, R451, R452) -/

theorem romTake_boot (s : State) (l : Lane) (i : FwImage) (path : Byte) :
    (romReason s l i = 0 → (lane (romTake s l i path) l).boot = { (lane s l).boot with romStatus := 1, romImage := some (i, path) }) ∧
    (romReason s l i ≠ 0 → (lane (romTake s l i path) l).boot.romImage = none) := by
  unfold romTake
  dsimp only
  refine ⟨fun h => ?_, fun h => ?_⟩
  · rw [if_pos h, if_pos h, if_pos h, lane_modLane_self]
    rfl
  · rw [if_neg h, if_neg h, if_neg h, boot_of (chg_romRecord _ _ _ _ (by decide) (changesOnly_refl records _)), lane_modLane_self]

theorem romTake_frame (s : State) (l : Lane) (i : FwImage) (path : Byte) : changesOnly (records ++ [.boot]) s (romTake s l i path) :=
  chg_romTake s l i path (by decide) (changesOnly_refl _ s)

theorem exec_updRomStart {l : Lane} {p : Port} (h : ringPort l = some p) (i : FwImage) (s : State) : exec (.updRomStart l i) s =
    .next (if romIdle s l = true then romTake s l (romFetched s l i) (BitVec.ofNat 8 p.idx) else s) := by
  simp only [exec, execUpdRomStart, h]

theorem exec_updRomStart_none {l : Lane} (h : ringPort l = none) (i : FwImage) (s : State) : exec (.updRomStart l i) s = .next s := by
  simp only [exec, execUpdRomStart, h]

theorem exec_servicePortRomImage (l : Lane) (i : FwImage) (s : State) : exec (.servicePortRomImage l i) s =
    .next (if romIdle s l = true then romTake s l i 2 else s) := rfl

theorem exec_romImageWritten_none {s : State} {l : Lane} (h : (lane s l).boot.romImage = none) (ok : Bool) :
    exec (.romImageWritten l ok) s = .next s := by
  simp only [exec, execRomImageWritten, h]

/-- Both slots of a lane hold an image (R452). -/
def slotsWritten (s : State) (l : Lane) (i : FwImage) : State := modLane s l (fun L => { L with boot := { L.boot with
  slot0 := i.version, slot1 := i.version, st0 := .valid, st1 := .valid, floor := i.floor, otherFloor := i.floor
  image := i.data, otherImage := i.data, failed := 0, romImage := none } })

/-- The image written is recorded. -/
def slotsRecorded (s : State) (l : Lane) (i : FwImage) (path : Byte) : State :=
  romRecord (addHistory (slotsWritten s l i) 7 l.num i.version.toNat 0) 0 path i.version

/-- The lane resets out of its ROM. -/
def romLeft (s : State) (l : Lane) (i : FwImage) (path : Byte) : State :=
  modLane (resetOne (slotsRecorded s l i path) l 0x08) l (fun L => { L with
    life := { L.life with startStep := 1 }, boot := { L.boot with romStatus := romWord 3 0 100 } })

/-- An image that the ROM could not write. -/
def romFailed (s : State) (l : Lane) : State :=
  modLane s l (fun L => { L with boot := { L.boot with romImage := none, romStatus := romWord 4 8 0 } })

theorem exec_romImageWritten {s : State} {l : Lane} {i : FwImage} {path : Byte} (h : (lane s l).boot.romImage = some (i, path))
    (hr : (lane s l).life.rom = true) (ok : Bool) : exec (.romImageWritten l ok) s =
    .next (if ok = true then recoveryEnds (romLeft s l i path) else romRecord (romFailed s l) 8 path i.version) := by
  show execRomImageWritten l ok s = _
  unfold execRomImageWritten
  rw [h]
  dsimp only
  rw [hr, if_neg (by decide)]
  unfold romLeft slotsRecorded slotsWritten romFailed
  with_reducible rfl

theorem slotsRecorded_frame (s : State) (l : Lane) (i : FwImage) (path : Byte) :
    changesOnly (records ++ [.lifetime]) (slotsWritten s l i) (slotsRecorded s l i path) :=
  chg_romRecord _ _ _ _ (by decide) (chg_addHistory _ _ _ _ _ _ (by decide) (changesOnly_refl _ _))

/-- An update that ends leaves the slots and their images. -/
theorem endUpdate_keeps (s : State) (l : Lane) (reason : Nat) : ∃ x n r,
    (lane (endUpdate s l reason) l).boot = { (lane s l).boot with update := x, step := n, reason := r } := by
  cases hu : (lane s l).boot.update with
  | none => exact ⟨none, (lane s l).boot.step, (lane s l).boot.reason, by unfold endUpdate; rw [hu]; dsimp only; rw [← hu]⟩
  | some y => exact ⟨_, _, _, boot_endUpdate (t := y.2) (d := y.1) hu reason⟩

end Sys2Proof.Laws

/-! ## The settling of staging, racking and recovery (R20, R431 to R452) -/

namespace Sys2Proof.Laws

open Sys2Proof Sys2Proof.Machine Sys2Proof.Safety

/-! ### A lane leaves its ROM (R20, R452, R455) -/

theorem slotsWritten_boot (s : State) (l : Lane) (i : FwImage) : (lane (slotsWritten s l i) l).boot = { (lane s l).boot with
    slot0 := i.version, slot1 := i.version, st0 := .valid, st1 := .valid, floor := i.floor, otherFloor := i.floor
    image := i.data, otherImage := i.data, failed := 0, romImage := none } :=
  congrArg LaneState.boot (lane_modLane_self s l _)

theorem romLeft_lane (s : State) (l : Lane) (i : FwImage) (path : Byte) : lst (romLeft s l i path) l = .boot ∧
    (lane (romLeft s l i path) l).life.rom = false ∧ (lane (romLeft s l i path) l).life.resetCause = 8 ∧
    (lane (romLeft s l i path) l).boot.romStatus = romWord 3 0 100 := by
  unfold romLeft lst
  rw [lane_modLane_self, lane_resetOne, if_pos rfl]
  exact ⟨rfl, rfl, rfl, rfl⟩

/-- Both slots of the lane hold the image, valid. -/
theorem romLeft_boot (s : State) (l : Lane) (i : FwImage) (path : Byte) : (lane (romLeft s l i path) l).boot.slot0 = i.version ∧
    (lane (romLeft s l i path) l).boot.slot1 = i.version ∧ (lane (romLeft s l i path) l).boot.st0 = .valid ∧
    (lane (romLeft s l i path) l).boot.st1 = .valid ∧ (lane (romLeft s l i path) l).boot.image = i.data ∧
    (lane (romLeft s l i path) l).boot.otherImage = i.data := by
  obtain ⟨x, n, r, hb⟩ := endUpdate_keeps (slotsRecorded s l i path) l 0x0F
  rw [boot_of (slotsRecorded_frame s l i path), slotsWritten_boot] at hb
  have ha : abandoned (slotsRecorded s l i path) l 0x08 = endUpdate (slotsRecorded s l i path) l 0x0F := rfl
  unfold romLeft
  rw [lane_modLane_self, lane_resetOne, if_pos rfl, ha]
  generalize lane (endUpdate (slotsRecorded s l i path) l 0x0F) l = L at hb
  obtain ⟨-, h2, h3, h4, h5, h6, h7⟩ := boot_laneReset L 0x08
  dsimp only
  rw [h2, h3, h4, h5, h6, h7, hb]
  exact ⟨rfl, rfl, rfl, rfl, rfl, rfl⟩

/-- The other lanes keep their states and their ROMs, and so far the module keeps its own. -/
theorem romLeft_others (s : State) (l : Lane) (i : FwImage) (path : Byte) : (romLeft s l i path).mod.st = s.mod.st ∧
    ∀ m, m ≠ l → (lane (romLeft s l i path) m).life = (lane s m).life := by
  have hr := slotsRecorded_frame s l i path
  refine ⟨?_, fun m e => ?_⟩
  · show (resetOne (slotsRecorded s l i path) l 0x08).mod.st = _
    rw [mode_resetOne, mode_of hr]
    rfl
  · unfold romLeft
    rw [lane_modLane_other _ _ e, lane_resetOne, if_neg e, life_eq (abandoned_only _ l 0x08) rfl rfl, life_eq hr rfl rfl]
    exact congrArg LaneState.life (lane_modLane_other s _ e)

theorem recoveryEnds_frame (s : State) : changesOnly (records ++ [.mode, .free]) s (recoveryEnds s) :=
  chg_recoveryEnds s (by decide) (changesOnly_refl _ s)

/-- The last lane to leave its ROM ends RECOVERY (R20). -/
theorem recoveryEnds_mode {s v : State} {l : Lane} (hm : v.mod.st = s.mod.st) (hl : (lane v l).life.rom = false)
    (ho : ∀ m, m ≠ l → (lane v m).life = (lane s m).life) : (recoveryEnds v).mod.st =
      if (decide (s.mod.st = .recovery) && Lane.list.all (fun m => decide (m = l) || !(lane s m).life.rom)) = true then .boot else s.mod.st := by
  have hrom : ∀ m, (!(lane v m).life.rom) = (decide (m = l) || !(lane s m).life.rom) := fun m => by
    by_cases e : m = l
    · rw [e, hl, decide_eq_true rfl]
      rfl
    · rw [ho m e, decide_eq_false e]
      rfl
  unfold recoveryEnds
  simp only [hrom, hm, Bool.and_eq_true, decide_eq_true_eq]
  split
  · exact setModule_st v .boot
  · exact hm

/-- What an image given to the ROM leaves (R451, R452). -/
theorem romGiven {s : State} {l : Lane} (i : FwImage) (path : Byte) {c : Instr} (hex : romIdle s l = true → exec c s = .next (romTake s l i path))
    (h : romIdle s l = true) : ∃ u, exec c s = .next u ∧ changesOnly (records ++ [.boot]) s u ∧
      (romReason s l i = 0 → (lane u l).boot = { (lane s l).boot with romStatus := 1, romImage := some (i, path) }) ∧
      (romReason s l i ≠ 0 → (lane u l).boot.romImage = none) :=
  ⟨_, hex h, romTake_frame s l i path, (romTake_boot s l i path).1, (romTake_boot s l i path).2⟩

/-! ### The parts of the obligation -/

/-- The rows of a vintage's chunk (R431, R433). -/
theorem stageProgram_rows {s : State} {p : Port} {q : Fin 16} {d : BitVec 512} {r : HostRef} {t : Taken} (h : IsNext s p q d r t) (hd : t.desc = d)
    (hc : t.ref.cls = 0x20) (hs : t.started = true) {bs : List Byte} {parts : Option Vintage} (hl : bs.length = chunkLen d) :
    changesOnly (records ++ [.chk, .mbx, .bank]) s (stageData s p q d { bytes := bs, parts := parts, signed := none }) ∧
    (chunkOff d ≠ 0 → ((refBank s).verifying = true ∨ (refBank s).st ≠ .receiving ∨ (refBank s).number.toNat ≠ dget d 0x18 4 ∨
        (refBank s).bytes ≠ chunkOff d) →
      ∀ l, (lane (stageData s p q d { bytes := bs, parts := parts, signed := none }) l).bank = (lane s l).bank) ∧
    (chunkOff d = 0 → chunkLast d = false → chunkLen d ≤ 25165824 → keepsStage s (refLane s) = true → ∀ l,
      let b := (lane (stageData s p q d { bytes := bs, parts := parts, signed := none }) l).bank
      (keepsStage s l = true → b.st = .receiving ∧ b.number = BitVec.ofNat 32 (dget d 0x18 4) ∧ b.bytes = chunkLen d ∧ b.received = bs ∧
        b.verifying = false ∧ b.active = (lane s l).bank.active) ∧
      (keepsStage s l = false → b.st = .empty ∧ b.active = (lane s l).bank.active)) := by
  obtain ⟨hf, ho, hfirst⟩ := stagesProgram h hd hc hs (x := { bytes := bs, parts := parts, signed := none }) hl
  refine ⟨hf, fun h0 hbad => ho ((chunkOrder_iff _ _).2 ⟨h0, hbad⟩), fun h0 hlast hsize hk l => ?_⟩
  rw [hfirst h0 hlast hsize hk, lane_takeBytes_first h0, hlast]
  refine ⟨fun hkl => ?_, fun hkl => ?_⟩
  · rw [if_pos hkl]
    exact ⟨rfl, rfl, Nat.zero_add _, rfl, rfl, rfl⟩
  · rw [hkl, if_neg Bool.false_ne_true]
    exact ⟨rfl, rfl⟩

/-- What a verification leaves of the bank of a lane that keeps the staging (R432). -/
theorem vintageStaged_bank {s u : State} {errors : PerLane (BitVec 64)} {ok : PerLane Bool} (hb : ∀ l, (lane u l).bank = (lane (verifyEnded s errors ok) l).bank)
    {l : Lane} (hv : (lane s l).bank.verifying = true) (hk : keepsStage s l = true) :
    let own := fun m => laneReason s m (errors.get m)
    let value := fun m => laneValue s m (errors.get m)
    let agreed := ∀ m, keepsStage s m = true → (lane s m).bank.verifying = true ∧ own m = 0 ∧ value m = value l
    let empty := fun r => (lane u l).bank.st = .empty ∧ (lane u l).bank.staged = none ∧ (lane u l).bank.reason = BitVec.ofNat 8 r
    (own l ≠ 0 → empty (own l)) ∧ (own l = 0 → ¬ agreed → empty 7) ∧ (agreed → ok.get l = false → empty 8) ∧
    (agreed → ok.get l = true → ∃ v, stagedVintage (lane s l).bank = some v ∧ (lane u l).bank.st = .staged ∧
      (lane u l).bank.staged = some v ∧ (lane u l).bank.number = v.number ∧ (lane u l).bank.stagedCheck = value l ∧
      (lane u l).bank.active = (lane s l).bank.active) := by
  intro own value agreed empty
  have hsame : lanesSame s errors = true ↔ agreed := lanesSame_iff hv hk
  have hempty : ∀ r, verifyReason s errors ok l = r → r ≠ 0 → empty r := fun r hr h0 => by
    show (lane u l).bank.st = .empty ∧ _
    rw [hb l]
    exact verdict_empty hv hk hr h0
  have hown : agreed → own l = 0 := fun ha => (ha l hk).2.1
  refine ⟨fun h => hempty _ (verifyReason_own h ok) h, fun h hn => hempty 7 ?_ (by decide), fun ha hok => hempty 8 ?_ (by decide), fun ha hok => ?_⟩
  · rw [verifyReason_shared h, if_pos (Bool.eq_false_iff.2 fun k => hn (hsame.1 k))]
  · rw [verifyReason_shared (hown ha), hsame.2 ha, hok]
    rfl
  · obtain ⟨v, hstaged⟩ := laneReason_vintage (hown ha)
    have hr : verifyReason s errors ok l = 0 := by
      rw [verifyReason_shared (hown ha), hsame.2 ha, hok]
      rfl
    refine ⟨v, hstaged, ?_⟩
    rw [hb l, verdict_bank hv hk, hr, verifiedBank_good hstaged]
    exact ⟨rfl, rfl, rfl, rfl, writeStore_active _ v⟩

/-- The rows of a firmware chunk (R431, R448). -/
theorem stageFirmware_rows {s : State} {p : Port} {q : Fin 16} {d : BitVec 512} {r : HostRef} {t : Taken} (h : IsNext s p q d r t) (hd : t.desc = d)
    (hc : t.ref.cls = 0x21) (hs : t.started = true) {bs : List Byte} {x : Option Bool} (hl : bs.length = chunkLen d) :
    let b := (lane s (fwLane d)).boot
    let u := stageData s p q d { bytes := bs, parts := none, signed := x }
    ((b.update.isSome = true ∨ (chunkOff d ≠ 0 ∧ (b.taking = false ∨ b.deltaBytes ≠ chunkOff d))) → changesOnly [.eic, .chk, .mbx, .ports] s u) ∧
    (b.update = none → (chunkOff d = 0 ∨ (b.taking = true ∧ b.deltaBytes = chunkOff d)) → chunkLast d = false →
      chunkOff d + chunkLen d ≤ 12582912 → changesOnly [.eic, .chk, .mbx, .ports, .boot] s u ∧
      (∀ m, m ≠ fwLane d → (lane u m).boot = (lane s m).boot) ∧
      (lane u (fwLane d)).boot = { b with
        deltaBytes := chunkOff d + chunkLen d, taking := true, delta := (if chunkOff d = 0 then [] else b.delta) ++ bs }) := by
  intro b u
  obtain ⟨hbad, hgood⟩ := stagesFirmware h hd hc hs (x := { bytes := bs, parts := none, signed := x }) hl
  refine ⟨fun ho => hbad ((deltaOrder_iff b d).2 ho), fun hnone ho hlast hsize => ?_⟩
  have hord : deltaOrder b d = false := by
    rw [Bool.eq_false_iff, ne_eq, deltaOrder_iff, hnone]
    rintro (hsome | ⟨h0, hrest⟩)
    · cases hsome
    · obtain ⟨ht, hby⟩ := ho.resolve_left h0
      exact hrest.elim (fun k => by rw [ht] at k; cases k) (fun k => k hby)
  obtain ⟨hf, hboot⟩ := hgood hord hlast hsize
  refine ⟨hf, fun m hm => ?_, ?_⟩
  · rw [hboot, if_neg hm]
  · rw [hboot, if_pos rfl]
    exact deltaTaken_more hlast hsize _ _

/-- An image that fails its check or its read-back ends the update, and the lane stays out (R448). -/
theorem buildFailed {s : State} {l : Lane} {d : FwDelta} {t : Taken} (hu : (lane s l).boot.update = some (d, t)) (reason : Nat) :
    (lane (endUpdate (planOver s l) l reason) l).boot.update = none ∧
    (lane (endUpdate (planOver s l) l reason) l).boot.reason = BitVec.ofNat 8 reason ∧
    (lane (endUpdate (planOver s l) l reason) l).life.planned = .none ∧ lst (endUpdate (planOver s l) l reason) l = lst s l := by
  have hf := endUpdate_frame (planOver s l) l reason
  have hself : lane (planOver s l) l = { lane s l with life := { (lane s l).life with planned := .none } } := lane_modLane_self s l _
  have hboot := boot_endUpdate (s := planOver s l) (l := l) (d := d) (t := t) (by rw [hself]; exact hu) reason
  refine ⟨by rw [hboot], by rw [hboot], ?_, ?_⟩
  · rw [life_eq hf rfl rfl, hself]
  · rw [lst_of hf]
    unfold lst
    rw [hself]

/-- The lane that boots the image built (R448 step 4, R483). -/
theorem imageBooted_facts (s : State) (l : Lane) {d : FwDelta} (hpark : d.park = false) :
    let u := imageBooted s l d
    let b := (lane s l).boot
    lst u l = .boot ∧ (lane u l).life.resetCause = 6 ∧ (lane u l).boot.slot = (!b.slot) ∧ (lane u l).press = Press.reset ∧
    slotState (lane u l).boot (!b.slot) = .valid ∧ (lane u l).boot.image = builtImage b.image b.delta ∧ (lane u l).boot.otherImage = b.image ∧
    ∀ m, m ≠ l → lst u m = lst s m := by
  intro u b
  obtain ⟨k1, k2, k3, k4⟩ := switched_slot b d hpark
  have hlane := imageBooted_lane s l d
  have hst : lst u l = .boot := by
    unfold lst
    rw [hlane]
    rfl
  refine ⟨hst, ?_⟩
  rw [hlane]
  exact ⟨rfl, k1, rfl, k4, k2, k3, fun m e => imageBooted_other s d e⟩

/-- The lane that parks the image built (R448 step 5). -/
theorem imageParked_facts (s : State) (l : Lane) {d : FwDelta} (hpark : d.park = true) :
    let u := imageParked s l d
    let b := (lane s l).boot
    lst u l = .test ∧ (lane u l).boot.slot = b.slot ∧ slotState (lane u l).boot (!b.slot) = .parked ∧ (lane u l).boot.image = b.image ∧
    (lane u l).boot.otherImage = builtImage b.image b.delta := by
  intro u b
  obtain ⟨h1, h2⟩ := imageParked_lane s l d
  obtain ⟨k1, k2, k3, k4⟩ := buildSlot_facts b d
  rw [hpark] at k4
  refine ⟨h1, ?_⟩
  rw [h2]
  exact ⟨k1, k4, k2, k3⟩

/-- A written image takes its lane out of the ROM, and the last lane the module out of RECOVERY (R20, R452). -/
theorem romWritten_facts {s : State} {l : Lane} (i : FwImage) (path : Byte) :
    let u := recoveryEnds (romLeft s l i path)
    lst u l = .boot ∧ (lane u l).life.rom = false ∧ (lane u l).life.resetCause = 8 ∧ (lane u l).boot.slot0 = i.version ∧
    (lane u l).boot.slot1 = i.version ∧ (lane u l).boot.st0 = .valid ∧ (lane u l).boot.st1 = .valid ∧ (lane u l).boot.image = i.data ∧
    (lane u l).boot.otherImage = i.data ∧ (lane u l).boot.romStatus = romWord 3 0 100 ∧ (∀ m, m ≠ l → lst u m = lst s m) ∧
    u.mod.st = (if decide (s.mod.st = .recovery) && Lane.list.all (fun m => decide (m = l) || !(lane s m).life.rom) then .boot
      else s.mod.st) := by
  intro u
  have hf := recoveryEnds_frame (romLeft s l i path)
  obtain ⟨h1, h2, h3, h4⟩ := romLeft_lane s l i path
  obtain ⟨b1, b2, b3, b4, b5, b6⟩ := romLeft_boot s l i path
  obtain ⟨hmode, hothers⟩ := romLeft_others s l i path
  refine ⟨(lst_of hf rfl l).trans h1, ?_⟩
  rw [life_eq hf rfl rfl, boot_of hf]
  refine ⟨h2, h3, b1, b2, b3, b4, b5, b6, h4, fun m e => ?_, recoveryEnds_mode hmode h2 hothers⟩
  rw [lst_of hf]
  unfold lst
  rw [hothers m e]

/-- An image that could not be written leaves the lane in its ROM (R452). -/
theorem romFailed_facts (s : State) (l : Lane) (path : Byte) (v : Word) : changesOnly (records ++ [.boot]) s (romRecord (romFailed s l) 8 path v) ∧
    (lane (romRecord (romFailed s l) 8 path v) l).boot = { (lane s l).boot with romImage := none, romStatus := romWord 4 8 0 } := by
  have hf := chg_romRecord (romFailed s l) 8 path v (by decide) (changesOnly_refl records _)
  refine ⟨changes_step (by decide) hf
    (changes_modLane l _ (laneOnly_step (by decide) (laneOnly_boot _ _) (laneOnly_refl _ _)) (changesOnly_refl _ s)), ?_⟩
  rw [boot_of hf]
  exact congrArg LaneState.boot (lane_modLane_self s l _)

/-- What a switch leaves of its lane (R436, R442). -/
theorem vintageSwitched {s : State} {l : Lane} {t : Taken} {back : Bool} {a b : Vintage} (hr : (lane s l).bank.rackTo = some (t, back))
    (ha : (lane s l).bank.active = some a) (hb : (lane s l).bank.staged = some b) (hp : s.mod.phase = .input) : ∃ u,
    exec (.vintageSwitch l) s = .next u ∧ changesOnly [.press, .raa, .sessions, .staging, .bank, .alk] s u ∧
    (∀ m, m ≠ l → lane u m = lane s m) ∧ (lane u l).bank.active = some b ∧ (lane u l).bank.staged = some a ∧ (lane u l).bank.number = a.number ∧
    (lane u l).bank.left = a.number ∧ (lane u l).bank.lapsed = none ∧ (lane u l).bank.activeCheck = (lane s l).bank.stagedCheck ∧
    (lane u l).bank.stagedCheck = (lane s l).bank.activeCheck ∧ (lane u l).bank.expiry = timeAdd s.mod.tickTime 3600000000000 ∧
    (lane u l).press.data.q = (lane s l).press.data.q ∧ (lane u l).press.data.k.getLsbD 3 = true := by
  obtain ⟨u, hex, hc, hl⟩ := exec_vintageSwitch hr hp
  have hlane : ∀ m, lane u m = lane (modLane s l (switchLane back s.mod.tickTime)) m := fun m => by unfold lane; rw [hl]
  have hself : lane u l = switchLane back s.mod.tickTime (lane s l) := by rw [hlane, lane_modLane_self]
  obtain ⟨hbank, hdata⟩ := switchLane_facts ha hb back s.mod.tickTime
  obtain ⟨hq, hk⟩ := carryData_facts (carryMap back a b) (lane s l).press.data
  refine ⟨u, hex, hc, fun m e => by rw [hlane, lane_modLane_other _ _ e], ?_⟩
  rw [hself, hbank, hdata]
  dsimp only
  exact ⟨rfl, rfl, rfl, rfl, rfl, rfl, rfl, rfl, hq, hk⟩

/-- Settles O51: each row is told from its own part of the module, and the descriptors of one SQ keep their turns. -/
theorem stagingAndRacking : Obligations.StagingAndRacking := by
  unfold Obligations.StagingAndRacking
  intro nextFed
  have hnext : ∀ {s p q d r t}, nextFed s p q d r t → IsNext s p q d r t := fun h => ⟨h.1, h.2.1, h.2.2.1, h.2.2.2⟩
  refine ⟨fun p q d bs parts s r t => ⟨fun hc => exec_stageProgram_other hc p q bs parts, fun hc hn hd hcls => ?_⟩,
    fun errors ok s => ?_,
    fun p q d e bs x s r t => ⟨fun hc => exec_stageFirmware_other hc p q e bs x, fun hc hn hd hcls hs hl => ?_⟩,
    fun l signed wrote s => ⟨fun hu => ?_, fun d t hu h3 hst hp => ?_⟩,
    fun l s => ⟨exec_vintageSwitch_not, fun t back a b hr ha hb hp => ?_⟩,
    fun s => ?_, fun l im s => ?_⟩
  · intro b
    have h := hnext hn
    have hex := exec_stageProgram h hc bs parts
    exact ⟨fun hs => ⟨_, hex, stageData_waits h hs _⟩, fun hs hl => ⟨_, hex, stageData_short h hd hs hl⟩,
      fun hs hl => ⟨_, hex, stageProgram_rows h hd hcls hs hl⟩⟩
  · obtain ⟨u, hex, hu⟩ := exec_vintageStaged errors ok s
    have hc := chg_execVintageStaged errors ok s s (ps := records ++ [.clock, .mbx, .bank, .lifetime]) (by decide) (changesOnly_refl _ s)
    rw [show execVintageStaged errors ok s = .next u from hex] at hc
    have hb : ∀ l, (lane u l).bank = (lane (verifyEnded s errors ok) l).bank := bank_of hu rfl
    refine ⟨u, hex, hc, fun l => ⟨fun hv => ?_, fun hv hk => ?_, fun hv hk => vintageStaged_bank hb hv hk⟩⟩
    · rw [hb, verifyEnded_bank, if_pos hv]
    · rw [hb, verifyEnded_bank, hv, hk]
      rfl
  · intro l b
    have h := hnext hn
    have hex := exec_stageFirmware h hc e bs x
    obtain ⟨hbad, hgood⟩ := stageFirmware_rows h hd hcls hs (x := x) hl
    exact ⟨fun ho => ⟨_, hex, hbad ho⟩, fun hnone ho hlast hsize => ⟨_, hex, hgood hnone ho hlast hsize⟩⟩
  · simp only [exec, execImageBuildDone, hu]
  · intro b new good
    refine ⟨fun hbad => ?_, fun hgood hpark => ⟨imageParked s l d, ?_, imageParked_facts s l hpark⟩,
      fun hgood hpark => ⟨imageBooted s l d, ?_, imageBooted_facts s l hpark⟩⟩
    · obtain ⟨h1, h2, h4, h5⟩ := buildFailed hu (if buildOk b d signed = true then 8 else 0x0D)
      refine ⟨_, exec_imageBuildDone_bad hu h3 hst hp hbad, h1, h2.trans ?_, h4, h5.trans hst⟩
      show BitVec.ofNat 8 (if good = true then 8 else 0x0D) = _
      split <;> rfl
    · rw [exec_imageBuildDone_good hu h3 hst hp hgood, if_pos hpark]
    · rw [exec_imageBuildDone_good hu h3 hst hp hgood, hpark, if_neg Bool.false_ne_true]
  · exact vintageSwitched hr ha hb hp
  · have hc := chg_execPreviousExpired s s (ps := [.bank]) (by decide) (changesOnly_refl _ s)
    refine ⟨thenState s (exec .previousExpired s), rfl, hc, fun l => ⟨fun hst hx => ?_, fun h => ?_⟩⟩
    · rw [lane_previousExpired, if_pos ⟨hst, hx⟩]
      exact ⟨rfl, rfl, rfl, rfl⟩
    · rw [lane_previousExpired, if_neg]
      rintro ⟨h1, h2⟩
      exact h.elim (fun k => k h1) (fun k => by omega)
  · intro given
    refine ⟨fun h => ⟨?_, ?_⟩, fun p hp => romGiven _ _ fun h => ?_, fun hp => exec_updRomStart_none hp im s, romGiven _ _ fun h => ?_,
      exec_romImageWritten_none, fun i path hi hr => ⟨⟨_, ?_, romWritten_facts i path⟩, _, ?_, romFailed_facts s l path i.version⟩⟩
    · cases hp : ringPort l with
      | none => exact exec_updRomStart_none hp im s
      | some p => rw [exec_updRomStart hp, h, if_neg Bool.false_ne_true]
    · rw [exec_servicePortRomImage, h, if_neg Bool.false_ne_true]
    · rw [exec_updRomStart hp, if_pos h]
      rfl
    · rw [exec_servicePortRomImage, if_pos h]
    · rw [exec_romImageWritten hi hr, if_pos rfl]
    · rw [exec_romImageWritten hi hr, if_neg Bool.false_ne_true]

end Sys2Proof.Laws

/-! ## What the Sluices and the links hold after an isolation (R174, R176, R182) -/

namespace Sys2Proof.Laws

open Sys2Proof Sys2Proof.Machine Sys2Proof.Safety

/-! ### The Sluices and the lane's link, before and after the module answers a loss -/

/-- Where a lane receives no transfer, it receives none afterwards. -/
def xferStaysOut (s t : State) : Prop := ∀ m, (lane s m).xfer = none → (lane t m).xfer = none

theorem xferOut_of {ps : List Part} {s t : State} (h : changesOnly ps s t) (hp : ps.contains .link = false := by rfl) : xferStaysOut s t :=
  fun m e => by rw [((h .link hp).2 m).2]; exact e

/-- The entry into SAFE ends every transfer (R33, R176). -/
theorem xferOut_enterSafe (s : State) : xferStaysOut s (enterSafe s) := by
  unfold enterSafe
  split
  · exact fun _ e => e
  · intro m _
    have hm := chg_setModule (modLanes (foldS Lane.list (fun s l => endBist (setLatch s l .follow) l) s) (fun _ L => safeLane L)) .safe
      (by decide) (changesOnly_refl (records ++ [.mode, .free]) _)
    refine xferOut_of (chg_recordAll _ _ _ (by decide) (changesOnly_refl records _)) rfl m (xferOut_of hm rfl m ?_)
    rw [lane_modLanes]
    rfl

theorem xferOut_answer (s : State) (c : LatchCause) : xferStaysOut s (latchSafe (afterLoss s c)) := by
  have hl : ∀ u, xferStaysOut u (latchSafe u) := fun u => by
    unfold latchSafe
    split
    · exact xferOut_enterSafe u
    · exact fun _ e => e
  refine fun m e => hl _ m ?_
  unfold afterLoss
  repeat' split
  · exact xferOut_enterSafe _ m e
  · exact xferOut_of (chg_setModule _ _ (by decide) (changesOnly_refl (records ++ [.mode, .free]) _)) rfl m e
  · exact e
  · exact e

/-- A lane has left, and the module has not answered yet: the Sluices have dropped the lane and ended their switch tests, its image is
not voted, and it receives no transfer (R174, R182). -/
structure LinksLeft (s : State) (l : Lane) (u : State) : Prop where
  sluices : u.sluices = (dropLane (abortSwitchTests s) l).sluices
  link : (lane u l).link = linkOut (lane s l).link
  xfer : (lane u l).xfer = none

theorem isolateNow_links (s : State) (l : Lane) (c : IsoCause) (x : LatchCause) :
    ∃ u, LinksLeft s l u ∧ isolateNow s l c x = latchSafe (afterLoss u x) := by
  unfold isolateNow
  extract_lets now counted earlier retire again s1 s2 s3 s4 s5 s6
  have drop : changesOnly [.staging] s (if again = true then dropPlanned s l else s) := by
    split
    · exact chg_dropPlanned s l (by decide) (changesOnly_refl _ s)
    · exact changesOnly_refl _ s
  have h1 : s1.sluices = (abortSwitchTests s).sluices := by
    show (abortSwitchTests _).sluices = _
    rw [abortSwitchTests, abortSwitchTests, sluices_modSluices, sluices_modSluices, sluices_of drop rfl]
  have hlink : (lane s3 l).link = linkOut (lane s l).link ∧ (lane s3 l).xfer = none := by
    have e : lane s3 l = _ := lane_modLane_self s2 l _
    rw [e]
    exact ⟨congrArg linkOut ((drop .link rfl).2 l).1, rfl⟩
  have ended : changesOnly [.life, .eic, .staging, .bist, .ports, .log] s3 (if counted = true then endBist s3 l else s3) := by
    split
    · exact chg_endBist s3 l (by decide) (changesOnly_refl _ s3)
    · exact changesOnly_refl _ s3
  have h4 : changesOnly [.life, .eic, .staging, .bist, .ports, .log, .sluices] s3 s4 :=
    changes_modSluices _ rfl (changes_modSluice _ _ rfl (changes_step (by decide) ended (changesOnly_refl _ s3)))
  have hs4 : s4.sluices = (dropLane (abortSwitchTests s) l).sluices := by
    show (dropLane _ l).sluices = _
    rw [dropLane, dropLane, sluices_modSluices, sluices_modSluices, sluices_modSluice, sluices_modSluice, sluices_of ended rfl]
    rw [show s3.sluices = (abortSwitchTests s).sluices from h1]
  have h6 : changesOnly records s4 s6 := by
    have raised : changesOnly records s4 (if again = true then s4 else eicRaiseAll s4 0) := by
      split
      · exact changesOnly_refl records s4
      · exact chg_eicRaiseAll s4 0 (by decide) (changesOnly_refl records s4)
    show changesOnly records s4 (if retire = true then eventAll s5 1 0x0101 (lanePayload s5 l counted) else s5)
    split
    · exact chg_eventAll _ _ _ _ (by decide) (chg_recordAll _ _ _ (by decide) raised)
    · exact chg_recordAll _ _ _ (by decide) raised
  refine ⟨s6, ⟨(sluices_of h6 rfl).trans hs4, ?_, ?_⟩, rfl⟩
  · rw [((h6 .link rfl).2 l).1, ((h4 .link rfl).2 l).1, hlink.1]
  · rw [((h6 .link rfl).2 l).2, ((h4 .link rfl).2 l).2, hlink.2]

/-- An isolated lane's image is complete nowhere any more, and it receives no transfer (R174). -/
theorem isolate_link {s : State} {l : Lane} (h : isolatable (lst s l) = true) (c : IsoCause) :
    (lane (isolate s l c) l).link = linkOut (lane s l).link ∧ (lane (isolate s l c) l).xfer = none := by
  unfold isolate isolateWith
  rw [if_pos (by rw [h]; rfl)]
  obtain ⟨u, hu, e⟩ := isolateNow_links s l c .lanesLost
  rw [e]
  exact ⟨(links_trans (links_afterLoss u _) (links_latchSafe _) l).2.trans hu.link, xferOut_answer u _ l hu.xfer⟩

/-- Where the module goes on, no latch is set with the loss, and of the Sluices' drives only the lane's own open (R174, R182). -/
theorem isolate_sluices {s : State} {l : Lane} {c : IsoCause} (h : isolatable (lst s l) = true) (hn : (isolate s l c).mod.st ≠ .safe) :
    (isolate s l c).sluices = (dropLane (abortSwitchTests s) l).sluices := by
  unfold isolate isolateWith at hn ⊢
  rw [if_pos (by rw [h]; rfl)] at hn ⊢
  obtain ⟨u, hu, e⟩ := isolateNow_links s l c .lanesLost
  rw [e] at hn ⊢
  exact (sluices_of (answer_goesOn hn) rfl).trans hu.sluices

/-- What stands in the Sluices of a lane's loss: latch and result as before. -/
theorem sluice_dropLane (s : State) (l m : Lane) : (((dropLane (abortSwitchTests s) l).sluices.get m).latch = (s.sluices.get m).latch) ∧
    (((dropLane (abortSwitchTests s) l).sluices.get m).result = (s.sluices.get m).result) := by
  refine ⟨(latches_dropLane _ l m).trans (latches_abort s m), ?_⟩
  have ha : ((abortSwitchTests s).sluices.get m).result = (s.sluices.get m).result := by
    rw [abortSwitchTests, sluices_modSluices, get_map]
    split <;> rfl
  rw [dropLane, sluices_modSluices, get_map, sluices_modSluice]
  by_cases e : m = l
  · subst e; rw [get_set_self]; exact ha
  · rw [get_set_other _ _ e]; exact ha

end Sys2Proof.Laws

/-! ## The vote (R67, R163, R168 to R171, R176, R179, R194) -/

namespace Sys2Proof.Laws

open Sys2Proof Sys2Proof.Machine Sys2Proof.Safety

/-! ### When the Sluices decide (R66, R67, R163) -/

theorem mod_linkFaults (fs : List LinkFault) (s : State) : (foldS fs linkFault s).mod = s.mod := by
  have h : changesOnly [.link] s (foldS fs linkFault s) := changes_foldS fs _ (fun t f => chg_linkFault t f (by decide)) (changesOnly_refl _ s)
  exact same_mod h rfl rfl

theorem voteOpen_same {s t : State} (h : t.mod = s.mod) : voteOpen t = voteOpen s := by
  unfold voteOpen
  rw [h]

/-- The faults of the links act on what the Sluices hold, and then the Sluices look. -/
theorem exec_vote {s : State} (h : voteOpen s = true) (n : BitVec 28) (fs : List LinkFault) :
    exec (.vote ⟨n, fs⟩) s = .next (voteNow n (foldS fs linkFault s)) := by
  show execVote ⟨n, fs⟩ s = _
  unfold execVote
  rw [if_pos h]

/-- A vote whose voting images are all complete is decided at the moment it looks, or at END_VOTE − 5 µs. -/
theorem voteNow_complete {s : State} (h : voteOpen s = true) (hc : ∀ l, serving s l = true → incomplete s l = false) (n : BitVec 28) :
    voteNow n s = decideVote (if n.toNat < (lastDecision s).toNat then n else lastDecision s) s := by
  have late : (servingLanes s).filter (incomplete s) = [] := by
    rw [List.filter_eq_nil_iff]
    exact fun l hl => by rw [hc l (List.mem_filter.1 hl).2]; exact Bool.false_ne_true
  unfold voteNow
  rw [if_pos h]
  simp only [late]
  split
  · rfl
  · rfl

/-- Before END_VOTE − 5 µs the vote waits for every voting lane's image (R66, R67). -/
theorem voteNow_waits {s : State} (h : voteOpen s = true) {n : BitVec 28} (hn : n.toNat < (lastDecision s).toNat) {l : Lane}
    (hl : serving s l = true) (hi : incomplete s l = true) : voteNow n s = s := by
  have late : l ∈ (servingLanes s).filter (incomplete s) := List.mem_filter.2 ⟨List.mem_filter.2 ⟨mem_laneList l, hl⟩, hi⟩
  unfold voteNow
  rw [if_pos h]
  simp only [if_pos hn, List.isEmpty_eq_false_iff_exists_mem.2 ⟨l, late⟩]
  rfl

/-! ### A decision that all Sluices share -/

theorem foldS_same {α : Type} {f : State → α → State} (hf : ∀ s a, f s a = s) (xs : List α) (s : State) : foldS xs f s = s := by
  unfold foldS
  induction xs generalizing s with
  | nil => rfl
  | cons a xs ih => rw [List.foldl_cons, hf]; exact ih s

/-- What the Sluices show of a decision with one outcome at a moment; b says whether the vote test has met an agreement (R194, R479). -/
def noted (s : State) (b : Bool) (o : VoteOut) (d : BitVec 28) : State := noteVote (voteTested s b) (fun _ => o) d

/-- The latches that an outcome sets. -/
def outcomeLatched (o : VoteOut) (s : State) : State := match voteLatch o with | some c => foldS Lane.list (fun s m => setLatch s m c) s | none => s

theorem decideVote_shared {s : State} {xs : List (Lane × Image)} (h : ∀ m, votingImages s m = xs) (d : BitVec 28) : ∃ b, decideVote d s =
    takeResults (latchRule (foldS Lane.list (dissentVoter (fun _ => voteOn xs)) (outcomeLatched (voteOn xs) (noted s b (voteOn xs) d)))) := by
  have out : (fun m => ((PerLane.all ()).map (fun m _ => voteOn (votingImages s m))).get m) = fun _ => voteOn xs := by
    funext m
    rw [get_map, h]
  refine ⟨(servingLanes s).all (fun _ => decide (outcomeCode (voteOn xs) = 1)), ?_⟩
  unfold decideVote
  dsimp only
  simp only [out]
  unfold outcomeLatched noted
  cases voteLatch (voteOn xs) with
  | none => rw [foldS_same fun _ _ => rfl]
  | some c => rfl

theorem sluice_noted (s : State) (b : Bool) (o : VoteOut) (d : BitVec 28) (m : Lane) :
    ((noted s b o d).sluices.get m).result = voteImage o ∧ ((noted s b o d).sluices.get m).outcome = outcomeCode o ∧
    ((noted s b o d).sluices.get m).decisionTime = d ∧ ((noted s b o d).sluices.get m).voteCycle = cycle16 s ∧
    ((noted s b o d).sluices.get m).latch = (s.sluices.get m).latch := by
  unfold noted noteVote
  rw [sluices_modSluices, get_map]
  exact ⟨rfl, rfl, rfl, rfl, rfl⟩

theorem latched_noted (s : State) (b : Bool) (o : VoteOut) (d : BitVec 28) (m : Lane) : latched (noted s b o d) m = latched s m := by
  obtain ⟨-, -, -, -, h⟩ := sluice_noted s b o d m
  exact h

theorem serving_of {s t : State} (h : ∀ m, lst t m = lst s m) : serving t = serving s := funext fun m => by unfold serving; rw [h]

theorem quiet_of {s t : State} (hs : ∀ m, lst t m = lst s m) (hl : ∀ m, latched t m = latched s m) (h : latchesQuiet s) : latchesQuiet t := by
  unfold latchesQuiet
  rw [serving_of hs, show latched t = latched s from funext hl]
  exact h

/-- Quiet latches ask for nothing (R176). -/
theorem latchRule_quiet {s : State} (h : latchesQuiet s) : latchRule s = s := by
  by_cases h3 : (servingLanes s).length = 3
  · exact latchRule_free fun m => h.1 m (filter_three.1 h3 m)
  · have none : (servingLanes s).filter (latched s) = [] := by
      rw [List.filter_eq_nil_iff]
      exact fun m hm => by rw [h.1 m (List.mem_filter.1 hm).2]; exact Bool.false_ne_true
    have two : ¬ 2 ≤ (Lane.list.filter (latched s)).length := by have := h.2; omega
    have out : latchedOut s = false := by simp [latchedOut, none, two]
    unfold latchRule
    rw [out, if_neg Bool.false_ne_true, if_neg fun k => h3 k.1]

/-! ### The result of a decision (R169, R179) -/

/-- The result is taken: the data served, the drives for the next tick. -/
def resulted (s : State) (x : Image) : State :=
  setDrives { s with mod := { s.mod with result := some x, voted := some x }, field := zeroSeen x s.field }

theorem shadowCompare_not {s : State} {l : Lane} (h : lst s l ≠ .reintegrating) : shadowCompare s l = s := by
  unfold shadowCompare
  split
  · next e _ => exact absurd e h
  · rfl

theorem takeResults_some {s : State} {x : Image} (hr : ∀ m, (s.sluices.get m).result = some x) (ho : operating s.mod.st = true)
    (hn : ∀ l, lst s l ≠ .reintegrating) : takeResults s = resulted s x := by
  have still : ∀ xs : List Lane, foldS xs shadowCompare (resulted s x) = resulted s x := fun xs => by
    unfold foldS
    induction xs with
    | nil => rfl
    | cons l xs ih => rw [List.foldl_cons, shadowCompare_not (s := resulted s x) (hn l)]; exact ih
  unfold takeResults
  rw [hr]
  dsimp only
  rw [if_pos ho]
  exact still _

theorem takeResults_none {s : State} (hr : ∀ m, (s.sluices.get m).result = none) : takeResults s = s := by
  unfold takeResults
  rw [hr]

theorem sluice_resulted {s : State} {x : Image} {m : Lane} (hr : (s.sluices.get m).result = some x) : (resulted s x).sluices.get m =
    { s.sluices.get m with
      next := if mayClose s m then outputDrive x else 0, vctl := if serving s m && !latched s m then outputVctl x else 0 } := by
  unfold resulted setDrives
  rw [sluices_modSluices, get_map]
  dsimp only
  rw [hr]
  rfl

theorem latched_resulted {s : State} {x : Image} (hr : ∀ m, (s.sluices.get m).result = some x) (m : Lane) : latched (resulted s x) m = latched s m := by
  unfold latched
  rw [sluice_resulted (hr m)]

/-- What a decision with a result leaves, where every Sluice shows it. -/
theorem voted_resulted {s u : State} {x : Image} {o : BitVec 2} {d : BitVec 28} (hr : ∀ m, (u.sluices.get m).result = some x)
    (hx : ∀ m, (u.sluices.get m).outcome = o ∧ (u.sluices.get m).decisionTime = d ∧ (u.sluices.get m).voteCycle = cycle16 s) :
    voted s x o d (resulted u x) := by
  have close : ∀ l, mayClose (resulted u x) l = mayClose u l := fun l => by
    unfold mayClose
    rw [latched_resulted hr]
    rfl
  refine ⟨rfl, fun l => ?_, fun l => ⟨fun h => ?_, fun h => ?_⟩⟩
  · rw [sluice_resulted (hr l)]
    exact hx l
  · rw [sluice_resulted (hr l), ← close l, h]
    rfl
  · rw [sluice_resulted (hr l), ← close l, h]
    rfl

/-! ### Every voting image is the same -/

theorem dissentVoter_not {out : Lane → VoteOut} {l : Lane} (h : ∀ m, voteDissenter (out m) ≠ some l) (s : State) : dissentVoter out s l = s := by
  have none : dissentFound out l = 0 := by
    unfold dissentFound
    rw [show (fun m => decide (voteDissenter (out m) = some l)) = fun _ => false from funext fun m => decide_eq_false (h m)]
    rfl
  unfold dissentVoter
  dsimp only
  rw [if_pos none]

/-- An agreement with quiet latches: the result is taken, and no lane's state changes (R169, R170). -/
theorem decide_agreed {s : State} {xs : List (Lane × Image)} {x : Image} (h : ∀ m, votingImages s m = xs) (hv : voteOn xs = .agreed x)
    (ho : operating s.mod.st = true) (hq : latchesQuiet s) (hn : ∀ l, lst s l ≠ .reintegrating) (d : BitVec 28) :
    voted s x 1 d (decideVote d s) ∧ (∀ l, lst (decideVote d s) l = lst s l) ∧ (decideVote d s).mod.st = s.mod.st := by
  obtain ⟨b, e⟩ := decideVote_shared h d
  have sees := sluice_noted s b (.agreed x) d
  have hr : ∀ m, ((noted s b (.agreed x) d).sluices.get m).result = some x := fun m => (sees m).1
  have hx : decideVote d s = resulted (noted s b (.agreed x) d) x := by
    rw [e, hv, foldS_same fun t l => dissentVoter_not (out := fun _ => .agreed x) (fun _ => (Option.some_ne_none l).symm) t]
    show takeResults (latchRule (noted s b (.agreed x) d)) = _
    rw [latchRule_quiet (s := noted s b (.agreed x) d) (quiet_of (s := s) (fun _ => rfl) (latched_noted s b _ d) hq), takeResults_some hr ho hn]
  rw [hx]
  refine ⟨voted_resulted hr fun m => ?_, fun _ => rfl, rfl⟩
  obtain ⟨-, h1, h2, h3, -⟩ := sees m
  exact ⟨h1, h2, h3⟩

/-! ### One image of three differs (R169, R172, R173) -/

/-- The dissenter as the Sluices have found it, before it is isolated. -/
def dissentSeen (s : State) (l : Lane) : State :=
  countDissent (modSluices s (fun _ x => { x with dissent := vput x.dissent l.idx true, outcome := 2 })) 7

theorem dissentLane_all (s : State) (l : Lane) : dissentLane s l 7 = isolate (dissentSeen s l) l .voteDissent := by
  have all : ∀ m, laneBit 7 m = true := fun m => by cases m <;> rfl
  unfold dissentLane dissentSeen
  simp only [all, if_true]

/-- The lane that dissents at every Sluice, its image intact, is isolated as a dissenter. -/
theorem dissentVoter_all {x : Image} {l : Lane} {s : State} (hi : ∀ m, intact (lane s l).link ((lane s l).link.rx.get m) = true) :
    dissentVoter (fun _ => .dissent x l) s l = isolate (dissentSeen s l) l .voteDissent := by
  have found : dissentFound (fun _ => .dissent x l) l = 7 := by
    unfold dissentFound voteDissenter
    simp only [decide_true]
    rfl
  have all : Lane.list.all (fun m => !laneBit 7 m || intact (lane s l).link ((lane s l).link.rx.get m)) = true :=
    List.all_eq_true.2 fun m _ => by rw [hi m, Bool.or_true]
  unfold dissentVoter
  dsimp only
  rw [found, if_neg (by decide), if_pos all, dissentLane_all]

theorem dissentVoters {x : Image} {l : Lane} {s : State} (hi : ∀ m, intact (lane s l).link ((lane s l).link.rx.get m) = true) :
    foldS Lane.list (dissentVoter (fun _ => .dissent x l)) s = isolate (dissentSeen s l) l .voteDissent := by
  have other : ∀ {k : Lane} (t : State), k ≠ l → dissentVoter (fun _ => .dissent x l) t k = t := fun {k} t e =>
    dissentVoter_not (out := fun _ => .dissent x l) (fun _ => show some l ≠ some k from fun c => e (Option.some.inj c).symm) t
  unfold foldS Lane.list
  simp only [List.foldl_cons, List.foldl_nil]
  cases l with
  | A => rw [dissentVoter_all hi, other (k := .B) _ (by decide), other (k := .C) _ (by decide)]
  | B => rw [other (k := .A) _ (by decide), dissentVoter_all hi, other (k := .C) _ (by decide)]
  | C => rw [other (k := .A) _ (by decide), other (k := .B) _ (by decide), dissentVoter_all hi]

theorem sluice_dissentSeen (s : State) (l m : Lane) :
    (dissentSeen s l).sluices.get m = { s.sluices.get m with dissent := vput (s.sluices.get m).dissent l.idx true, outcome := 2 } := by
  show ((modSluices s _).sluices.get m) = _
  rw [sluices_modSluices, get_map]

theorem counts_dissentSeen (s : State) (l m : Lane) : (dissentSeen s l).cellar.life.dissent.get m = satInc (s.cellar.life.dissent.get m) := by
  show ((s.cellar.life.dissent.map _).get m) = _
  rw [get_map, if_pos]
  cases m <;> rfl

/-- The state in which three lanes serve, no latch is set, and every Sluice shows lane l as the dissenter from a result. -/
structure Dissenting (s : State) (x : Image) (l : Lane) (d : BitVec 28) (u : State) : Prop where
  serve : ∀ m, lst u m = .serving
  open1 : ∀ m, latched u m = false
  result : ∀ m, (u.sluices.get m).result = some x
  outcome : ∀ m, (u.sluices.get m).outcome = 2 ∧ (u.sluices.get m).decisionTime = d ∧ (u.sluices.get m).voteCycle = cycle16 s
  found : ∀ m, (u.sluices.get m).dissent.getLsbD l.idx = true

theorem dissenting_seen {s : State} (hq : latchesQuiet s) (hs : ∀ m, lst s m = .serving) (x : Image) (l : Lane) (b : Bool) (d : BitVec 28) :
    Dissenting s x l d (dissentSeen (noted s b (.dissent x l) d) l) := by
  have sees := sluice_noted s b (.dissent x l) d
  refine ⟨hs, fun m => ?_, fun m => ?_, fun m => ?_, fun m => ?_⟩
  · obtain ⟨-, -, -, -, latch⟩ := sees m
    unfold latched
    rw [sluice_dissentSeen]
    exact latch.trans (hq.1 m (decide_eq_true (hs m)))
  · rw [sluice_dissentSeen]
    exact (sees m).1
  · obtain ⟨-, -, time, cycle, -⟩ := sees m
    rw [sluice_dissentSeen]
    exact ⟨rfl, time, cycle⟩
  · rw [sluice_dissentSeen]
    exact vput_true_self l

section
variable {s u : State} {x : Image} {l : Lane} {d : BitVec 28}

theorem isolatable_dissenter (h : Dissenting s x l d u) : isolatable (lst u l) = true := by
  rw [h.serve]
  rfl

/-- Two unlatched lanes go on: the module does not enter SAFE (R170, R176). -/
theorem dissenter_staysOut (h : Dissenting s x l d u) : ¬ leavesSafe u l := by
  have others : (othersServing u l).length = 2 := by
    unfold othersServing servingLanes
    rw [show serving u = fun _ => true from funext fun m => decide_eq_true (h.serve m)]
    cases l <;> rfl
  exact staysOut others ⟨fun m _ => h.open1 m, by rw [filter_none h.open1]; exact Nat.zero_le _⟩

theorem mode_dissenterOut (h : Dissenting s x l d u) :
    (isolate u l .voteDissent).mod.st = if u.mod.st = .svc3 then .svc2 else u.mod.st := by
  obtain ⟨out, -⟩ := isolate_out u l .voteDissent (isolatable_dissenter h)
  split
  · next k => exact out.twoLeft k (dissenter_staysOut h)
  · next k => exact out.stays (.inr ⟨k, dissenter_staysOut h⟩)

theorem operating_dissenterOut (h : Dissenting s x l d u) (ho : operating u.mod.st = true) :
    operating (isolate u l .voteDissent).mod.st = true := by
  rw [mode_dissenterOut h]
  split
  · rfl
  · exact ho

/-- The Sluices go on without the lane: the result stands, and no latch is set. -/
theorem sluices_dissenterOut (h : Dissenting s x l d u) (ho : operating u.mod.st = true) (m : Lane) :
    ((isolate u l .voteDissent).sluices.get m).result = some x ∧ latched (isolate u l .voteDissent) m = false := by
  have notSafe : (isolate u l .voteDissent).mod.st ≠ .safe := fun k => by
    have op := operating_dissenterOut h ho
    rw [k] at op
    cases op
  obtain ⟨latch, result⟩ := sluice_dropLane u l m
  unfold latched
  rw [isolate_sluices (isolatable_dissenter h) notSafe, latch, result]
  exact ⟨h.result m, h.open1 m⟩

/-- The lane is out, and the others serve. -/
theorem lanes_dissenterOut (h : Dissenting s x l d u) : (lst (isolate u l .voteDissent) l = .retired ∨ lst (isolate u l .voteDissent) l = .isolated) ∧
    ∀ m, m ≠ l → lst (isolate u l .voteDissent) m = .serving := by
  obtain ⟨out, -⟩ := isolate_out u l .voteDissent (isolatable_dissenter h)
  refine ⟨?_, fun m e => by rw [(out.others m e).1, h.serve]⟩
  by_cases r : retires u l .voteDissent
  · exact .inl (out.retired r)
  · exact .inr (out.isolated r)

theorem notBack_dissenterOut (h : Dissenting s x l d u) (m : Lane) : lst (isolate u l .voteDissent) m ≠ .reintegrating := by
  obtain ⟨left, others⟩ := lanes_dissenterOut h
  by_cases e : m = l
  · rw [e]
    obtain k | k := left
    · rw [k]; decide
    · rw [k]; decide
  · rw [others m e]; decide

theorem mayClose_dissenterOut (h : Dissenting s x l d u) : mayClose (isolate u l .voteDissent) l = false := by
  unfold mayClose serving
  obtain k | k := (lanes_dissenterOut h).1
  · rw [k]; simp
  · rw [k]; simp

end

/-- With three lanes serving and no latch set, the dissenter is isolated, the module goes on, and the result is that of the others. -/
theorem decide_dissent {s : State} {xs : List (Lane × Image)} {x : Image} {l : Lane} (h : ∀ m, votingImages s m = xs)
    (hv : voteOn xs = .dissent x l) (ho : operating s.mod.st = true) (hq : latchesQuiet s) (hs : ∀ m, lst s m = .serving)
    (hi : ∀ m, intact (lane s l).link ((lane s l).link.rx.get m) = true) (d : BitVec 28) :
    voted s x 2 d (decideVote d s) ∧ outvoted s l (fun _ => true) (decideVote d s) := by
  obtain ⟨b, e⟩ := decideVote_shared h d
  let u := dissentSeen (noted s b (.dissent x l) d) l
  have hu : Dissenting s x l d u := dissenting_seen hq hs x l b d
  have hr := fun m => (sluices_dissenterOut hu ho m).1
  have hx : decideVote d s = resulted (isolate u l .voteDissent) x := by
    rw [e, hv, show outcomeLatched (.dissent x l) (noted s b (.dissent x l) d) = noted s b (.dissent x l) d from rfl,
      dissentVoters (s := noted s b (.dissent x l) d) hi, latchRule_free fun m => (sluices_dissenterOut hu ho m).2,
      takeResults_some hr (operating_dissenterOut hu ho) (notBack_dissenterOut hu)]
  obtain ⟨out, -⟩ := isolate_out u l .voteDissent (isolatable_dissenter hu)
  obtain ⟨shown, ⟨lanes, life, -⟩, -, -⟩ := isolate_more u l .voteDissent (isolatable_dissenter hu)
  rw [hx]
  refine ⟨voted_resulted hr fun m => ?_, out.retired, out.isolated, out.cause, fun m k => (out.others m k).1, ?_, ?_, mode_dissenterOut hu,
    fun m => ⟨fun _ => ?_, nofun⟩⟩
  · obtain ⟨-, outcome, time, cycle, -⟩ := shown m
    rw [outcome, time, cycle]
    exact hu.outcome m
  · rw [sluice_resulted (hr l)]
    exact out.drives.1
  · rw [sluice_resulted (hr l), mayClose_dissenterOut hu]
    rfl
  · rw [sluice_resulted (hr m)]
    refine ⟨?_, ?_⟩
    · show ((isolate u l .voteDissent).sluices.get m).dissent.getLsbD l.idx = true
      rw [(shown m).1]
      exact hu.found m
    · show (isolate u l .voteDissent).cellar.life.dissent.get m = _
      rw [life]
      exact counts_dissentSeen _ l m

/-! ### No image is sent by two lanes (R169, R170, R175, R176) -/

theorem setLatch_again {s : State} {l : Lane} (h : latched s l = true) (c : LatchCause) : setLatch s l c = s := by
  unfold setLatch modSluice
  dsimp only
  rw [if_pos (show (s.sluices.get l).latch = true from h), set_get]

/-- Every Sluice latches with one finding. -/
theorem sluice_latchedAll (s : State) (c : LatchCause) (m : Lane) :
    (foldS Lane.list (fun s l => setLatch s l c) s).sluices.get m = if latched s m then s.sluices.get m else
      { s.sluices.get m with latch := true, latchCause := c, latchCycle := cycle16 s, now := 0, next := 0 } := by
  unfold foldS Lane.list latched
  simp only [List.foldl_cons, List.foldl_nil, setLatch, sluices_modSluice]
  cases m <;> rfl

/-- Where every latch is set, the entry into SAFE leaves the Sluices as they are. -/
theorem sluices_enterSafe {s : State} (h : ∀ m, latched s m = true) : (enterSafe s).sluices = s.sluices := by
  have step : ∀ (xs : List Lane) (t : State), t.sluices = s.sluices →
      (foldS xs (fun s l => endBist (setLatch s l .follow) l) t).sluices = s.sluices := fun xs => by
    unfold foldS
    induction xs with
    | nil => exact fun _ e => e
    | cons l xs ih =>
      intro t e
      refine ih _ ?_
      dsimp only
      rw [setLatch_again (by unfold latched; rw [e]; exact h l),
        sluices_of (chg_endBist t l (by decide) (changesOnly_refl [.life, .eic, .staging, .bist, .ports, .log] t)) rfl, e]
  unfold enterSafe
  split
  · rfl
  · rw [sluices_of (chg_recordAll _ _ _ (by decide) (changesOnly_refl records _)) rfl,
      sluices_of (chg_setModule _ _ (by decide) (changesOnly_refl (records ++ [.mode, .free]) _)) rfl, sluices_modLanes]
    exact step _ s rfl

/-- An outcome that sets latches has neither a result nor a dissenter. -/
theorem noResult_of_voteLatch {o : VoteOut} {c : LatchCause} (h : voteLatch o = some c) : voteImage o = none ∧ voteDissenter o = none := by
  cases o with
  | agreed _ => cases h
  | dissent _ _ => cases h
  | noMajority => exact ⟨rfl, rfl⟩
  | pairDisagree => exact ⟨rfl, rfl⟩
  | lanesLost => exact ⟨rfl, rfl⟩

/-- An outcome that every Sluice latches puts the module into SAFE, and no result is taken. -/
theorem decide_safe {s : State} {xs : List (Lane × Image)} {c : LatchCause} (h : ∀ m, votingImages s m = xs)
    (hv : voteLatch (voteOn xs) = some c) (ho : operating s.mod.st = true) (d : BitVec 28) :
    safeWith s c (fun _ => true) (decideVote d s) := by
  obtain ⟨b, e⟩ := decideVote_shared h d
  have noResult := noResult_of_voteLatch hv
  let u := foldS Lane.list (fun s m => setLatch s m c) (noted s b (voteOn xs) d)
  have hu : ∀ m, u.sluices.get m = if latched (noted s b (voteOn xs) d) m then (noted s b (voteOn xs) d).sluices.get m else
      { (noted s b (voteOn xs) d).sluices.get m with latch := true, latchCause := c, latchCycle := cycle16 s, now := 0, next := 0 } :=
    sluice_latchedAll (noted s b (voteOn xs) d) c
  have all : ∀ m, latched u m = true := setAll_latch (noted s b (voteOn xs) d) c
  have latches : outcomeLatched (voteOn xs) (noted s b (voteOn xs) d) = u := by
    unfold outcomeLatched
    rw [hv]
  have two : 2 ≤ (Lane.list.filter (latched u)).length := by
    rw [filter_three.2 all]
    decide
  have results : ∀ m, ((enterSafe u).sluices.get m).result = none := fun m => by
    rw [sluices_enterSafe all, hu]
    split
    · exact (sluice_noted s b (voteOn xs) d m).1.trans noResult.1
    · exact (sluice_noted s b (voteOn xs) d m).1.trans noResult.1
  have notSafe : u.mod.st ≠ .safe := fun k => by
    rw [show s.mod.st = .safe from k] at ho
    cases ho
  have hx : decideVote d s = enterSafe u := by
    rw [e, latches, foldS_same fun t l => dissentVoter_not (fun _ => by rw [noResult.2]; nofun) t, latchRule_two two, takeResults_none results]
  rw [hx]
  refine ⟨enterSafe_st u, fun l => ⟨enterSafe_latch u notSafe l, fun open1 => ?_⟩, fun l => ((enterSafe_entered u notSafe).lane l).1⟩
  rw [sluices_enterSafe all, hu, latched_noted, if_neg (by unfold latched; rw [open1]; exact Bool.false_ne_true)]
  exact ⟨rfl, rfl, rfl⟩

/-! ### The settling of the vote -/

theorem serving_of_voting {s : State} {m a : Lane} {x : Image} {xs : List (Lane × Image)} (h : votingImages s m = xs) (ha : (a, x) ∈ xs) :
    lst s a = .serving := by
  rw [← h] at ha
  obtain ⟨l, hl, e⟩ := List.mem_filterMap.1 ha
  obtain ⟨_, -, e⟩ := Option.map_eq_some_iff.1 e
  obtain rfl : l = a := congrArg Prod.fst e
  exact mem_servingLanes.1 hl

/-- Settles O24: the Sluices hold the same images, so they share one outcome, and each outcome has its own end. -/
theorem voteDecides : Obligations.VoteDecides := by
  intro n s open1
  have ho : operating s.mod.st = true := by
    unfold voteOpen at open1
    simp only [Bool.and_eq_true] at open1
    exact open1.1.1.1
  have run : ∀ {xs}, received s xs → exec (.vote ⟨n, []⟩) s =
      .next (decideVote (if n.toNat < (lastDecision s).toNat then n else lastDecision s) s) := fun hr => by
    rw [exec_vote open1, ← voteNow_complete open1 (fun l hl => (hr.2 l hl).1)]
    rfl
  refine ⟨fun fs => ?_, fun hn ⟨l, hl, hi⟩ => ?_, fun hq => ⟨fun x y z hr => ?_, fun a b x y _ hr hn => ?_⟩⟩
  · rw [exec_vote open1, exec_vote (by rw [voteOpen_same (mod_linkFaults fs s), open1])]
    rfl
  · rw [exec_vote open1]
    exact congrArg _ (voteNow_waits open1 hn hl hi)
  · have hs : ∀ m, lst s m = .serving := fun m => by
      cases m
      · exact serving_of_voting (hr.1 .A) (x := x) (by simp)
      · exact serving_of_voting (hr.1 .A) (x := y) (by simp)
      · exact serving_of_voting (hr.1 .A) (x := z) (by simp)
    have good : ∀ l m, intact (lane s l).link ((lane s l).link.rx.get m) = true := fun l m => (hr.2 l (decide_eq_true (hs l))).2 m
    have dissent : ∀ w l, voteOn [(.A, x), (.B, y), (.C, z)] = .dissent w l → _ := fun w l hv =>
      decide_dissent hr.1 hv ho hq hs (good l) (if n.toNat < (lastDecision s).toNat then n else lastDecision s)
    refine ⟨fun h1 h2 => ⟨_, run hr, decide_agreed hr.1 ?_ ho hq (fun l => by rw [hs l]; decide) _⟩, fun h1 h2 => ⟨_, run hr, dissent x .C ?_⟩,
      fun h1 h2 => ⟨_, run hr, dissent x .B ?_⟩, fun h1 h2 => ⟨_, run hr, dissent y .A ?_⟩,
      fun h1 h2 h3 => ⟨_, run hr, decide_safe hr.1 ?_ ho _⟩⟩
    · rw [voteOn, if_pos h1, if_pos h2]
    · rw [voteOn, if_pos h1, if_neg h2]
    · rw [voteOn, if_neg h2, if_pos h1]
    · rw [voteOn, if_neg h2, if_neg (fun k => h2 (k.trans h1.symm)), if_pos h1]
    · rw [voteOn, if_neg h1, if_neg h2, if_neg h3]
      rfl
  · refine ⟨fun h1 => ⟨_, run hr, decide_agreed hr.1 ?_ ho hq hn _⟩, fun h1 => ⟨_, run hr, decide_safe hr.1 ?_ ho _⟩⟩
    · rw [voteOn, if_pos h1]
    · rw [voteOn, if_neg h1]
      rfl

end Sys2Proof.Laws

/-! ## Register reads (R299, R466) -/

namespace Sys2Proof.Laws

open Sys2Proof Sys2Proof.Machine Sys2Proof.Safety

/-- A port whose ring lane runs its logic BIST answers no read, aligned or not (R466). -/
theorem exec_unalignedAccess_silent {s : State} {p : Port} (h : portSilent s p = true) (l : Lane) :
    exec (.unalignedAccess p l false) s = .next (answer s 0xFFFFFFFF) := by
  show Host.Outcome.next (if portSilent s p then noAnswer s else _) = _
  rw [if_pos h]
  rfl

/-- Lane A, the ring lane of port 0, is in TEST and runs its logic BIST (R457). -/
def laneAInLogicBist : State :=
  modLane State.reset .A (fun L => { L with life := { L.life with st := .test }, bist := { L.bist with phase := 2 } })

theorem port0_silent : portSilent laneAInLogicBist .p0 = true := by decide

/-- Refutes O29: while lane A runs its logic BIST, port 0 answers a read that is not aligned as one that gets no answer, with all ones and
not with 0 (R466 before R299). -/
theorem not_readsClearPeaks : ¬ Obligations.ReadsClearPeaks := by
  intro ⟨_, _, h⟩
  obtain ⟨_, _, u, hu, -⟩ := h .p0 .A laneAInLogicBist
  rw [exec_unalignedAccess_silent port0_silent .A] at hu
  have bus : (0xFFFFFFFF : Word) = 0 := congrArg State.bus (Host.Outcome.next.inj hu)
  exact absurd bus (by decide)

end Sys2Proof.Laws

/-! ## What the Sluices find of a lane (R65, R66, R69, R163 to R165, R173 to R178, R196) -/

namespace Sys2Proof.Laws

open Sys2Proof Sys2Proof.Machine Sys2Proof.Safety

/-! ### The lanes that the Sluices can isolate -/

theorem isolatable_of_watched {x : LaneSt} (h : watched x = true) : isolatable x = true := by
  cases x with
  | serving => rfl
  | sync => rfl
  | reintegrating => rfl
  | boot => cases h
  | test => cases h
  | isolated => cases h
  | retired => cases h

theorem isolatable_of_computes {s : State} {l : Lane} (h : computes s l = true) : isolatable (lst s l) = true := by
  unfold computes at h
  simp only [Bool.and_eq_true, Bool.or_eq_true, decide_eq_true_eq] at h
  obtain ⟨-, h | h⟩ := h
  · rw [h]; rfl
  · rw [h]; rfl

/-- A lane isolated where only links and Sluices have changed, and no latch, has left as from the state before. -/
theorem laneOut_of_links {s u : State} {l : Lane} (h : changesOnly [.link, .sluices] s u) (hx : ∀ m, latched u m = latched s m)
    (hi : isolatable (lst s l) = true) (c : IsoCause) : LaneOut s l c (isolate u l c) :=
  laneOut_from (funext (lst_of h rfl)) (same_mod h rfl rfl) (funext hx) (lifetime_of h) (failed_of (devs_of h rfl))
    (by rw [life_eq h rfl rfl]) (bank_of h) (fun m _ => ⟨press_of h rfl m, raa_of h rfl m⟩) (changes_step (by decide) h (changesOnly_refl _ _))
    (isolate_out u l c (by rw [lst_of h]; exact hi)).1

/-! ### The watchdog (R65) -/

/-- The deviation of the lane's tick is noted at its Sluice. -/
def tickNoted (s : State) (l : Lane) (d : Int) : State := modSluice s l (fun x => { x with tickDev := BitVec.ofInt 16 d })

theorem chg_tickNoted (s : State) (l : Lane) (d : Int) : changesOnly [.sluices] s (tickNoted s l d) :=
  changes_modSluice _ _ rfl (changesOnly_refl _ s)

theorem latched_tickNoted (s : State) (l : Lane) (d : Int) (m : Lane) : latched (tickNoted s l d) m = latched s m := by
  unfold latched tickNoted
  rw [sluices_modSluice]
  by_cases e : m = l
  · rw [e, get_set_self]
  · rw [get_set_other _ _ e]

theorem exec_watchdog_absent {s : State} {l : Lane} (h : watched (lst s l) = true) (also : List IsoCause) :
    exec (.watchdog ⟨l, also⟩ none) s = .next (isolate s l (firstCause .watchdog also)) := by
  show Host.Outcome.next (if !watched (lst s l) then s else _) = _
  rw [h]
  rfl

theorem exec_watchdog_dev {s : State} {l : Lane} (h : watched (lst s l) = true) (also : List IsoCause) (d : Int) :
    exec (.watchdog ⟨l, also⟩ (some d)) s =
      .next (if d > 1000 ∨ d < -1000 then isolate (tickNoted s l d) l (firstCause .watchdog also) else tickNoted s l d) := by
  show Host.Outcome.next (if !watched (lst s l) then s else _) = _
  rw [h]
  rfl

/-! ### Silent links (R163) -/

/-- The Sluices of a mask find no word on their links from a lane, and drop what they hold of its image. -/
def linksSilent (s : State) (l : Lane) (ms : BitVec 3) : State :=
  flushImage (modSluices s (fun m y => if laneBit ms m then
    { y with linkTimedOut := vput y.linkTimedOut l.idx true, linkUp := vput y.linkUp l.idx false } else y)) l ms

theorem sluices_flushImage (s : State) (l : Lane) (ms : BitVec 3) : (flushImage s l ms).sluices = s.sluices :=
  sluices_of (chg_flushImage s l ms (by decide) (changesOnly_refl [.link] s)) rfl

theorem chg_linksSilent (s : State) (l : Lane) (ms : BitVec 3) : changesOnly [.link, .sluices] s (linksSilent s l ms) :=
  chg_flushImage _ l ms (by decide) (changes_modSluices _ rfl (changesOnly_refl _ s))

theorem sluice_linksSilent (s : State) (l : Lane) (ms : BitVec 3) (m : Lane) : (linksSilent s l ms).sluices.get m =
    if laneBit ms m then { s.sluices.get m with
      linkTimedOut := vput (s.sluices.get m).linkTimedOut l.idx true, linkUp := vput (s.sluices.get m).linkUp l.idx false }
    else s.sluices.get m := by
  unfold linksSilent
  rw [sluices_flushImage, sluices_modSluices, get_map]

theorem latched_linksSilent (s : State) (l : Lane) (ms : BitVec 3) (m : Lane) : latched (linksSilent s l ms) m = latched s m := by
  unfold latched
  rw [sluice_linksSilent]
  split
  · rfl
  · rfl

theorem exec_linkTimeout {s : State} {l : Lane} (h : watched (lst s l) = true) (ms : BitVec 3) (also : List IsoCause) :
    exec (.linkTimeout ⟨l, ms, also⟩) s = .next (isolate (linksSilent s l ms) l (firstCause .link also)) := by
  have w : watched (lst (linksSilent s l ms) l) = true := by rw [lst_of (chg_linksSilent s l ms)]; exact h
  show Host.Outcome.next (if watched (lst (linksSilent s l ms) l) then _ else _) = _
  rw [if_pos w]
  rfl

theorem linkTimeout_out {s : State} {l : Lane} (h : watched (lst s l) = true) (ms : BitVec 3) (c : IsoCause) :
    LaneOut s l c (isolate (linksSilent s l ms) l c) ∧ ∀ m, laneBit ms m = true →
      ((isolate (linksSilent s l ms) l c).sluices.get m).linkTimedOut.getLsbD l.idx = true ∧
      ((isolate (linksSilent s l ms) l c).sluices.get m).linkUp.getLsbD l.idx = false := by
  have hi := isolatable_of_watched h
  obtain ⟨shown, -, -⟩ := isolate_more (linksSilent s l ms) l c (by rw [lst_of (chg_linksSilent s l ms)]; exact hi)
  refine ⟨laneOut_of_links (chg_linksSilent s l ms) (latched_linksSilent s l ms) hi c, fun m hm => ?_⟩
  obtain ⟨-, -, -, -, timedOut, up, -⟩ := shown m
  rw [timedOut, up, sluice_linksSilent, if_pos hm]
  exact ⟨vput_true_self l, vput_false_self _ _⟩

/-! ### The check block of an image (R165) -/

/-- The check block of a lane's image has verified at a Sluice. -/
def blockVerified (s : State) (l m : Lane) : State :=
  modLane s l (fun L => { L with link := { L.link with
    rx := L.link.rx.set m { L.link.rx.get m with complete := true, checkOk := true } } })

/-- A check block has failed at a Sluice, which counts it. -/
def blockFailed (s : State) (m : Lane) : State :=
  modLife s (fun f => { f with linkErr := f.linkErr.set m (satInc (f.linkErr.get m)) })

theorem checkedLane_of {s : State} {l : Lane} (hc : computes s l = true) (hi : (lane s l).link.image.isSome = true)
    (ho : (lane s l).overran = false) : checkedLane s l = true := by
  unfold checkedLane
  rw [hc, hi, ho]
  rfl

theorem blockOk_iff {x : LinkRx} {i : Image} (h : x.image = some i) (b : Option Word) : blockOk x b = decide (b = some (imageCheck i x.codes)) := by
  unfold blockOk
  rw [h]
  cases b with
  | none => rfl
  | some w => simp

theorem exec_checkBlock_ok {s : State} {l m : Lane} {b : Option Word} (hc : checkedLane s l = true)
    (hb : blockOk ((lane s l).link.rx.get m) b = true) (hr : s.mod.result = none) :
    exec (.checkBlock ⟨l, m⟩ b) s = .next (blockVerified s l m) := by
  show execCheckBlock _ _ _ = _
  simp only [execCheckBlock, hc, hb, Bool.not_true, Bool.false_eq_true, if_false, if_true]
  rw [if_neg]
  · rfl
  · show ¬ s.mod.result.isSome = true
    rw [hr]
    decide

theorem exec_checkBlock_bad {s : State} {l m : Lane} {b : Option Word} (hc : checkedLane s l = true)
    (hb : blockOk ((lane s l).link.rx.get m) b = false) :
    exec (.checkBlock ⟨l, m⟩ b) s = .next (isolate (blockFailed s m) l .link) := by
  show execCheckBlock _ _ _ = _
  simp only [execCheckBlock, hc, hb, Bool.not_true, Bool.false_eq_true, if_false]
  rfl

theorem chg_blockVerified (s : State) (l m : Lane) : changesOnly [.link] s (blockVerified s l m) :=
  changes_modLane l _ (fun p hp => by cases p <;> trivial) (changesOnly_refl _ s)

theorem rx_blockVerified (s : State) (l m : Lane) :
    ((lane (blockVerified s l m) l).link.rx.get m).complete = true ∧ ((lane (blockVerified s l m) l).link.rx.get m).checkOk = true := by
  unfold blockVerified
  rw [lane_modLane_self]
  dsimp only
  rw [get_set_self]
  exact ⟨rfl, rfl⟩

theorem blockFailed_out {s : State} {l : Lane} (hi : isolatable (lst s l) = true) (m : Lane) (c : IsoCause) :
    LaneOut s l c (isolate (blockFailed s m) l c) :=
  laneOut_from_lanes (u := blockFailed s m) rfl rfl rfl ⟨rfl, rfl⟩ (fun _ _ => rfl) rfl rfl (fun _ => rfl) (fun _ _ => ⟨rfl, rfl⟩)
    (chg_isolate _ l c (by decide) (changes_modLife _ rfl (changesOnly_refl _ s))) (isolate_out (blockFailed s m) l c hi).1

/-- Of a lane that has left, no image is complete at any Sluice (R174). -/
theorem isolate_incomplete {s : State} {l : Lane} (hi : isolatable (lst s l) = true) (c : IsoCause) (k : Lane) :
    ((lane (isolate s l c) l).link.rx.get k).complete = false ∧
    ((lane (isolate s l c) l).link.rx.get k).image = ((lane s l).link.rx.get k).image := by
  rw [(isolate_link hi c).1]
  unfold linkOut
  dsimp only
  rw [get_map]
  exact ⟨rfl, rfl⟩

theorem linkErr_blockFailed {s : State} {l : Lane} (hi : isolatable (lst s l) = true) (m : Lane) (c : IsoCause) :
    (isolate (blockFailed s m) l c).cellar.life.linkErr = s.cellar.life.linkErr.set m (satInc (s.cellar.life.linkErr.get m)) := by
  obtain ⟨-, ⟨e, life, -⟩, -⟩ := isolate_more (blockFailed s m) l c hi
  rw [life]
  rfl

/-! ### The overrun (R66, R69) -/

/-- What an overrun does inside the lane: its Press halts, and its image is dropped. -/
def overranIn (L : LaneState) : LaneState :=
  { L with overran := true, link := ImageLink.reset, press := { stopPress L.press with halted := true } }

/-- A lane has overrun, and the count has risen. -/
def overrunSeen (s : State) (l : Lane) : State :=
  modLife (modLane s l overranIn) (fun f => { f with lanes := f.lanes.set l { f.lanes.get l with overrunTotal := satInc (f.lanes.get l).overrunTotal } })

theorem exec_overrun {s : State} {l : Lane} (h : mayOverrun s l = true) (also : List IsoCause) :
    exec (.overrun ⟨l, also⟩) s = .next (isolate (overrunSeen s l) l (firstCause .overrun also)) := by
  show Host.Outcome.next (if mayOverrun s l then overrunLane also s l else s) = _
  rw [if_pos h]
  rfl

theorem mayOverrun_of {s : State} {l : Lane} (hc : computes s l = true) (hp : s.mod.phase = .vote) (hn : s.mod.noVintage = false)
    (h : s.mod.result = none ∨ (lst s l = .reintegrating ∧ (lane s l).link.compared = false)) : mayOverrun s l = true := by
  unfold mayOverrun
  rw [hc, hp, hn]
  obtain h | ⟨h1, h2⟩ := h
  · rw [h]; rfl
  · rw [h1, h2, decide_eq_true (rfl : LaneSt.reintegrating = .reintegrating)]; simp

theorem lane_overrunSeen (s : State) (l : Lane) : lane (overrunSeen s l) l = overranIn (lane s l) := lane_modLane_self s l overranIn

theorem lane_overrunSeen_other (s : State) {l m : Lane} (h : m ≠ l) : lane (overrunSeen s l) m = lane s m :=
  lane_modLane_other s overranIn h

theorem counts_overrunSeen (s : State) (l : Lane) : (overrunSeen s l).cellar.life.lanes.get l =
    { s.cellar.life.lanes.get l with overrunTotal := satInc (s.cellar.life.lanes.get l).overrunTotal } := get_set_self _ _ _

/-- What an overrun leaves in each lane but the image, the mark and the halt of the Press. -/
theorem same_overrunSeen (s : State) (l m : Lane) :
    (lane (overrunSeen s l) m).life = (lane s m).life ∧ (lane (overrunSeen s l) m).bank = (lane s m).bank := by
  by_cases e : m = l
  · rw [e, lane_overrunSeen]
    exact ⟨rfl, rfl⟩
  · rw [lane_overrunSeen_other s e]
    exact ⟨rfl, rfl⟩

theorem chg_overrunSeen (s : State) (l : Lane) : changesOnly (isolation ++ [.times, .chk]) s (overrunSeen s l) :=
  changes_modLife _ rfl (changes_modLane l _ (fun p hp => by cases p <;> trivial) (changesOnly_refl _ s))

theorem overrun_out {s : State} {l : Lane} (hi : isolatable (lst s l) = true) (c : IsoCause) :
    LaneOut s l c (isolate (overrunSeen s l) l c) := by
  have states : lst (overrunSeen s l) = lst s := funext fun m => congrArg LaneLife.st (same_overrunSeen s l m).1
  refine laneOut_from_lanes states rfl rfl ?_ (fun m e => get_set_other _ _ e) rfl (congrArg LaneLife.plannedNow (same_overrunSeen s l l).1)
    (fun m => (same_overrunSeen s l m).2) (fun m e => ?_) (chg_isolate _ l c (by decide) (chg_overrunSeen s l))
    (isolate_out (overrunSeen s l) l c (by rw [states]; exact hi)).1
  · rw [counts_overrunSeen]
    exact ⟨rfl, rfl⟩
  · rw [lane_overrunSeen_other s e]
    exact ⟨rfl, rfl⟩

theorem overrun_lane {s : State} {l : Lane} (hi : isolatable (lst s l) = true) (c : IsoCause) :
    (lane (isolate (overrunSeen s l) l c) l).overran = true ∧ (lane (isolate (overrunSeen s l) l c) l).press.halted = true ∧
    (lane (isolate (overrunSeen s l) l c) l).link.image = none ∧
    ((isolate (overrunSeen s l) l c).cellar.life.lanes.get l).overrunTotal = satInc (s.cellar.life.lanes.get l).overrunTotal := by
  have hu : isolatable (lst (overrunSeen s l) l) = true := by
    rw [show lst (overrunSeen s l) l = lst s l from congrArg LaneLife.st (same_overrunSeen s l l).1]
    exact hi
  obtain ⟨-, press⟩ := isolate_out (overrunSeen s l) l c hu
  obtain ⟨-, ⟨e, life, total⟩, image, -⟩ := isolate_more (overrunSeen s l) l c hu
  have frame := chg_isolate (overrunSeen s l) l c (by decide) (changesOnly_refl isolation _)
  obtain ⟨-, -, mark⟩ := (frame .times rfl).2 l
  refine ⟨?_, ?_, ?_, ?_⟩
  · rw [mark, lane_overrunSeen]
    rfl
  · rw [press, lane_overrunSeen]
    rfl
  · rw [image, lane_overrunSeen]
    rfl
  · rw [life]
    show ((PerLane.set _ l e).get l).overrunTotal = _
    rw [get_set_self, total, counts_overrunSeen]

/-! ### The reset lines (R164, R178) -/

theorem flushImage_eq {s : State} (h : s.mod.result = none) (l : Lane) (at3 : BitVec 3) :
    flushImage s l at3 = modLane s l (fun L => { L with link := discardRx L.link at3 }) := by
  unfold flushImage
  rw [h]
  rfl

theorem image_discardRx (k : ImageLink) {at3 : BitVec 3} {m : Lane} (h : laneBit at3 m = true) : ((discardRx k at3).rx.get m).image = none := by
  unfold discardRx
  rw [get_map, if_pos h]
  rfl

/-- The reset line of a lane die has risen, and the receivers on its links have flushed. -/
def dieReset (s : State) (l : Lane) : State := modLane (flushImage (linksReset s l) l 7) l (fun L => { L with xfer := none })

theorem chg_dieReset (s : State) (l : Lane) : changesOnly [.link, .sluices] s (dieReset s l) :=
  changes_modLane l _ (fun p hp => by cases p <;> trivial)
    (chg_flushImage _ l 7 (by decide) (changes_modSluices _ rfl (changesOnly_refl _ s)))

theorem exec_resetLine_lane (s : State) (l : Lane) (c : Option IsoCause) : exec (.resetLine l (.laneDie c)) s =
    .next (if watched (lst s l) then isolate (dieReset s l) l (c.getD .link) else dieReset s l) := by
  rw [← lst_of (chg_dieReset s l)]
  rfl

theorem sluice_dieReset (s : State) (l m : Lane) : (dieReset s l).sluices.get m = { s.sluices.get m with
    linkUp := vput (s.sluices.get m).linkUp l.idx false, linkReset := vput (s.sluices.get m).linkReset l.idx true } := by
  show (flushImage (linksReset s l) l 7).sluices.get m = _
  rw [sluices_flushImage, linksReset, sluices_modSluices, get_map]

theorem latched_dieReset (s : State) (l m : Lane) : latched (dieReset s l) m = latched s m := by
  unfold latched
  rw [sluice_dieReset]

/-- Every receiver has dropped what it held of the lane's image and of a transfer to it. -/
theorem link_dieReset {s : State} (l : Lane) : (lane (dieReset s l) l).xfer = none ∧
    (s.mod.result = none → ∀ m, ((lane (dieReset s l) l).link.rx.get m).image = none) := by
  unfold dieReset
  rw [lane_modLane_self]
  refine ⟨rfl, fun h m => ?_⟩
  rw [flushImage_eq (show (linksReset s l).mod.result = none from h), lane_modLane_self]
  exact image_discardRx _ (by cases m <;> rfl)

/-- The reset line of the die of a lane that the Sluices watch isolates it, whatever the lane reports. -/
theorem dieReset_out {s : State} {l : Lane} (h : watched (lst s l) = true) (c : IsoCause) :
    LaneOut s l c (isolate (dieReset s l) l c) ∧ (lane (isolate (dieReset s l) l c) l).xfer = none ∧
    (∀ m, ((isolate (dieReset s l) l c).sluices.get m).linkUp.getLsbD l.idx = false ∧
      ((isolate (dieReset s l) l c).sluices.get m).linkReset.getLsbD l.idx = true) ∧
    (s.mod.result = none → ∀ m, ((lane (isolate (dieReset s l) l c) l).link.rx.get m).image = none) := by
  have hi := isolatable_of_watched h
  have hu : isolatable (lst (dieReset s l) l) = true := by rw [lst_of (chg_dieReset s l)]; exact hi
  obtain ⟨shown, -⟩ := isolate_more (dieReset s l) l c hu
  refine ⟨laneOut_of_links (chg_dieReset s l) (latched_dieReset s l) hi c, (isolate_link hu c).2, fun m => ?_, fun hr m => ?_⟩
  · obtain ⟨-, -, -, -, -, up, -, -, -, reset, -⟩ := shown m
    rw [up, reset, sluice_dieReset]
    exact ⟨vput_false_self _ _, vput_true_self l⟩
  · rw [(isolate_incomplete hu c m).2]
    exact (link_dieReset l).2 hr m

/-- The flush at one mask reaches every lane's link. -/
theorem link_flushAll {s : State} (h : s.mod.result = none) (at3 : BitVec 3) (k : Lane) :
    (lane (foldS Lane.list (fun s m => flushImage s m at3) s) k).link = discardRx (lane s k).link at3 := by
  unfold foldS Lane.list
  simp only [List.foldl_cons, List.foldl_nil]
  rw [flushImage_eq h, flushImage_eq (s := modLane s .A _) h, flushImage_eq (s := modLane (modLane s .A _) .B _) h]
  cases k <;> rfl

theorem sluiceReset_done (s : State) (l : Lane) : ((sluiceResetLine s l).sluices.get l).linkUp = 0 ∧
    (lane (sluiceResetLine s l) l).xfer = none ∧
    (s.mod.result = none → ∀ k, ((lane (sluiceResetLine s l) k).link.rx.get l).image = none) := by
  unfold sluiceResetLine
  extract_lets s1
  have flushed : changesOnly [.link] s1 (foldS Lane.list (fun s m => flushImage s m (laneBits (fun x => decide (x = l)))) s1) :=
    changes_foldS _ _ (fun t m => chg_flushImage t m _ (by decide)) (changesOnly_refl _ s1)
  refine ⟨?_, ?_, fun h k => ?_⟩
  · show ((foldS Lane.list _ s1).sluices.get l).linkUp = 0
    rw [sluices_of flushed rfl, sluices_modSluice, get_set_self]
  · rw [lane_modLane_self]
  · have same : ∀ u : State, (lane (modLane u l (fun L => { L with xfer := none })) k).link = (lane u k).link := fun u => by
      rw [lane_modLane]
      split
      · next e => rw [e]
      · rfl
    rw [same, link_flushAll (s := s1) h]
    exact image_discardRx _ (by cases l <;> rfl)

/-! ### The settling of what the Sluices find -/

/-- Settles O26: each finding changes links, marks and counts alone before it isolates, so the lane leaves as from the state before. -/
theorem sluiceFindingsIsolate : Obligations.SluiceFindingsIsolate := by
  intro l also s
  refine ⟨fun hw => ⟨⟨_, exec_watchdog_absent hw also, (isolate_out s l _ (isolatable_of_watched hw)).1⟩, fun d hd => ?_, fun d h1 h2 => ?_,
      fun ms => ⟨_, exec_linkTimeout hw ms also, linkTimeout_out hw ms _⟩⟩,
    fun hc hi ho m x hx => ⟨fun hr => ?_, fun b hb => ?_⟩,
    fun hc hp hn hr => ⟨_, exec_overrun (mayOverrun_of hc hp hn hr) also, overrun_out (isolatable_of_computes hc) _,
      overrun_lane (isolatable_of_computes hc) _⟩,
    fun c => ?_, ⟨_, rfl, chg_sluiceResetLine s l (by decide) (changesOnly_refl _ s), sluiceReset_done s l⟩⟩
  · refine ⟨_, by rw [exec_watchdog_dev hw, if_pos (by omega)], laneOut_of_links (u := tickNoted s l d) ?_ (latched_tickNoted s l d)
      (isolatable_of_watched hw) _⟩
    exact changes_step (by decide) (chg_tickNoted s l d) (changesOnly_refl _ s)
  · refine ⟨_, by rw [exec_watchdog_dev hw, if_neg (by omega)], chg_tickNoted s l d, ?_⟩
    rw [tickNoted, sluices_modSluice, get_set_self]
  · obtain ⟨complete, ok⟩ := rx_blockVerified s l m
    exact ⟨_, exec_checkBlock_ok (checkedLane_of hc hi ho) (by rw [blockOk_iff hx]; exact decide_eq_true rfl) hr, complete, ok,
      chg_blockVerified s l m⟩
  · have out := isolatable_of_computes hc
    refine ⟨_, exec_checkBlock_bad (checkedLane_of hc hi ho) (by rw [blockOk_iff hx]; exact decide_eq_false hb), blockFailed_out out m _,
      fun k => (isolate_incomplete (s := blockFailed s m) out _ k).1, ?_, fun k e => ?_⟩
    · rw [linkErr_blockFailed out, get_set_self]
    · rw [linkErr_blockFailed out, get_set_other _ _ e]
  · have run := exec_resetLine_lane s l c
    cases hw : watched (lst s l) with
    | true =>
      rw [hw, if_pos rfl] at run
      obtain ⟨left, xfer, links, rx⟩ := dieReset_out hw (c.getD .link)
      exact ⟨_, run, fun _ => left, nofun, xfer, links, rx⟩
    | false =>
      rw [hw, if_neg Bool.false_ne_true] at run
      obtain ⟨xfer, rx⟩ := link_dieReset (s := s) l
      refine ⟨_, run, nofun, fun _ => chg_dieReset s l, xfer, fun m => ?_, rx⟩
      rw [sluice_dieReset]
      exact ⟨vput_false_self _ _, vput_true_self l⟩

end Sys2Proof.Laws

/-! ## The cycle (R54, R92, R440, R448) -/

namespace Sys2Proof.Laws

open Sys2Proof Sys2Proof.Machine Sys2Proof.Safety

/-! ### A firmware update that starts at END_INPUT -/

/-- A vintage whose only code is one word of strand 0. -/
def oneWordVintage : Vintage :=
  { image := [], number := 7, base := 0, paramCheck := 0, timingCheck := 0, localIoCheck := 0, minFw := 0, period := 100, endInput := 400
    endLogic := 2000, endVote := 2040, endOutput := 4000, code := [[0], [], [], []], elements := [], routes := [], presets := []
    stations := [], peers := [], schedule := [], rings := 0
    localIo := { inputs := [], pairs := [], outputs := [], counters := [], tpPeriodMs := 100, crossTimeoutUs := 1000, words := [] }
    carry := [], moduleSid := 3, partnerSid := 4, hostSid := ⟨0x11, 0x12⟩, node := 1, twin := false, admitBase := 0, timeWindowMs := 1000
    bistInterval := 24, marchEvery := 0, limits := [] }

/-- The header of a delta without blocks, from the factory version to itself (R447). -/
def emptyDeltaHeader : List Byte := le 4 0x3840DE17 ++ le 4 0x10000 ++ le 8 0 ++ le 4 0x10000 ++ List.replicate 44 0

/-- The delta: its header, and a trailer that holds the CRC of the header. -/
def emptyDelta : List Byte := emptyDeltaHeader ++ le 8 10694715974663988117 ++ List.replicate 64 0

/-- A descriptor of the batch, on ring 0 of port 0. -/
def batchSlot (cls : Byte) (tag epoch : BitVec 16) (desc : BitVec 512) (data : Option StageData) (started : Bool) : Taken :=
  { ref := { port := .p0, sq := 0, cq := 0, cls := cls, irq := false, tag := tag, epoch := epoch, sequence := 0, code := 0, order := 0 }
    desc := desc, cqEpoch := 0, inBatch := true, started := started, replay := false, fenceSeen := false, keyVersion := 0, nonce := 0
    data := data, feed := .waiting }

/-- The RACK that has switched in this cycle. -/
def rackSlot : Taken := batchSlot 0x22 0 0 0x22 none true

/-- A STAGE_PROGRAM that waits for the RACK, of an epoch that is no longer in force. -/
def staleProgramSlot : Taken := batchSlot 0x20 1 1 0x20 none false

/-- Behind it, with its data there, the STAGE_FIRMWARE with the whole delta for lane B. -/
def deltaSlot : Taken :=
  batchSlot 0x21 2 0 (BitVec.ofNat 512 (0x21 + 2 * 2 ^ (8 * 0x18) + 136 * 2 ^ (8 * 0x20) + 2 ^ (8 * 0x24)))
    (some { bytes := emptyDelta, parts := none, signed := some true }) true

/-- A serving lane that has switched and keeps both staging descriptors. -/
def switchedLane : LaneState :=
  { LaneState.reset with
    life := { LaneState.reset.life with st := .serving }
    bank := { LaneState.reset.bank with active := some oneWordVintage, rackDone := some (rackSlot, false) }
    mbx := { LaneState.reset.mbx with taken := [staleProgramSlot, deltaSlot] } }

/-- SERVICE_3oo3 in the input phase of the cycle of a RACK. -/
def switchedModule : State :=
  { State.reset with
    mod := { State.reset.mod with st := .svc3, phase := .input, ticking := true }
    lanes := ⟨switchedLane, switchedLane, switchedLane⟩ }

/-- Strand 0 of lane B runs after a command. -/
def strandBRuns (o : Host.Outcome State Fault Refusal) : Bool :=
  match o with
  | .next t => (strandOf (lane t .B).press.strands 0).running
  | _ => false

theorem endInput_updates_laneB : strandBRuns (exec .endInput switchedModule) = false := by decide +kernel

/-- Refutes O53: where END_INPUT refuses a STAGE_PROGRAM that waited for a RACK, the STAGE_FIRMWARE behind it is executed there, and the
update takes its lane out: lane B computed, but its strand 0 has stopped again (R440, R448). -/
theorem not_cyclePhases : ¬ Obligations.CyclePhases := by
  intro h
  obtain ⟨-, -, -, -, -, -, -, phases⟩ := h switchedModule
  obtain ⟨endInput, -⟩ := phases rfl
  obtain ⟨t, ht, -, -, lanes⟩ := endInput rfl
  obtain ⟨-, started⟩ := lanes .B
  obtain ⟨-, strands⟩ := started (by decide) (by decide) (by decide)
  obtain ⟨-, -, -, -, running, -⟩ := strands 0
  have stopped := endInput_updates_laneB
  rw [ht] at stopped
  have short : decide (0 < segLen (lane switchedModule .B) 0) = false := running.symm.trans stopped
  exact absurd short (by decide)

end Sys2Proof.Laws

/-! ## The invariant from step to step (R92, R107, R177, R418) -/

namespace Sys2Proof.Laws

open Sys2Proof Sys2Proof.Machine Sys2Proof.Safety

/-- The invariant is among what an operation keeps. -/
theorem inv_of_keeps {reset clear : Bool} {s t : State} (h : Keeps reset clear s t) (hi : Inv s) : Inv t :=
  ⟨h.press hi.press, fun l => h.latches l (hi.latches l), (h.pages hi.pages).2, h.saved hi.saved⟩

/-- The invariant says nothing of the queue. -/
theorem inv_pending {s : State} (hi : Inv s) (rest : List Instr) : Inv { s with pending := rest } :=
  ⟨hi.press, hi.latches, hi.pages, hi.saved⟩

/-- Settles O57: a step is a command on the state without it in its queue, and every command keeps the invariant. -/
theorem stepKeepsInv : Obligations.StepKeepsInv := by
  intro s t hi ht
  unfold step at ht
  split at ht
  · injection ht with hst
    exact hst ▸ hi
  · next c rest _ =>
    have hk := inv_of_keeps (keeps_exec c { s with pending := rest }) (inv_pending hi rest)
    rwa [ht] at hk

end Sys2Proof.Laws

/-! ## The instructions of the Press (R78 to R109) -/

namespace Sys2Proof.Laws

open Sys2Proof Sys2Proof.Machine Sys2Proof.Safety

/-! ### The end of a clock (R80) -/

/-- The writes of a clock in the order in which they take effect: strand by strand (R80). -/
def inStrandOrder (ws : List (Nat × PressWrite)) : List PressWrite :=
  [0, 1, 2, 3].flatMap (fun i => (ws.filter (fun e => decide (e.1 = i))).map Prod.snd)

theorem commitWrites_data (p : Press) : (commitWrites p).data = ((inStrandOrder p.writes).foldl applyWrite p).data := rfl

theorem inStrandOrder_single (i : Fin 4) (x : PressWrite) : inStrandOrder [(i.val, x)] = [x] := by
  match i with
  | 0 | 1 | 2 | 3 => rfl

/-- The lower-numbered strand's write comes first, however the two stand in the list. -/
theorem inStrandOrder_pair {i j : Fin 4} (h : i.val < j.val) (x y : PressWrite) :
    inStrandOrder [(j.val, y), (i.val, x)] = [x, y] ∧ inStrandOrder [(i.val, x), (j.val, y)] = [x, y] := by
  fin_cases i <;> fin_cases j
  all_goals first
    | exact ⟨rfl, rfl⟩
    | exact absurd h (by decide)

theorem commitWrites_single (p : Press) (i : Fin 4) (x : PressWrite) :
    (commitWrites { p with writes := [(i.val, x)] }).data = (applyWrite { p with writes := [(i.val, x)] } x).data := by
  rw [commitWrites_data]
  dsimp only
  rw [inStrandOrder_single]
  rfl

/-- Settles O14: the writes are sorted by strand, and each is one write into its space. -/
theorem clockEndsWithWrites : Obligations.ClockEndsWithWrites := by
  intro p i j sp k n u v a b
  refine ⟨?_, ?_, ?_, ?_, fun hij => ⟨?_, ?_, ?_⟩⟩
  · rintro rfl
    rw [commitWrites_single]
    exact bget_bput _ _ _ _
  · rintro rfl
    rw [commitWrites_single]
    exact bget_bput _ _ _ _
  · rintro rfl
    rw [commitWrites_single]
    exact bget_bput _ _ _ _
  · rw [commitWrites_single]
    exact sget_sput _ _ _ _ _
  · rw [commitWrites_data]
    dsimp only
    rw [(inStrandOrder_pair hij _ _).1]
    rfl
  · rw [commitWrites_data]
    dsimp only
    rw [(inStrandOrder_pair hij _ _).2]
    rfl
  · rw [commitWrites_data]
    dsimp only
    rw [(inStrandOrder_pair hij _ _).1]
    exact (bget_bput _ _ _ _).trans (if_pos rfl)

/-! ### Bit, edge and counter instructions (R96, R97, R102) -/

section
variable {s : State} {w : PressWord} (h : fetches s w false)
include h

theorem bitOp_fetched {space : BitVec 4} (hb : bitLegal space (opnd w) = true) (f : Bool → Bool → Bool) :
    bitOp w space f s = wordDone s w { step1 (strandNow s w) with
      cog := f (strandNow s w).cog (readBit (dataNow s w) s.mod.tickTime space (opnd w)) } [] := by
  rw [← tick_atWord s w]
  exact run_ok h hb rfl (ended_now h.1)

theorem bitStore_fetched {space : BitVec 4} (hb : bitLegal space (opnd w) = true) (hw : bitWritable space = true)
    (f : Bool → Option Bool) :
    bitStore w space f s = wordDone s w (step1 (strandNow s w))
      ((f (strandNow s w).cog).map (PressWrite.bit space (opnd w))).toList := by
  have hl : (bitLegal space (opnd w) && bitWritable space) = true := by rw [hb, hw]; rfl
  refine run_ok h hl ?_ (ended_now h.1)
  cases f (strandNow s w).cog <;> rfl

theorem edgeOp_fetched (ho : opnd w < 65536) (f : Bool → Bool → Bool) :
    edgeOp w f s = wordDone s w { step1 (strandNow s w) with
      cog := !bget (lane (atWord s w) w.lane).press.newEdges (opnd w) && f (strandNow s w).cog (bget (dataNow s w).e (opnd w)) }
      [.edge (opnd w) (strandNow s w).cog] := by
  refine run_ok h (low_lt ho rfl) ?_ (ended_now h.1)
  dsimp only
  cases bget (lane (atWord s w) w.lane).press.newEdges (opnd w) <;> rfl

theorem counterOp_fetched (ho : opnd w < 8192) (f : Word → CounterRec → CounterRec) :
    counterOp w f s = wordDone s w (step1 (strandNow s w))
      (if (strandNow s w).cog then
        [.counter (opnd w) (f (strandNow s w).acc (sget CounterRec.reset (dataNow s w).c (opnd w)))] else []) :=
  run_ok h (low_lt ho rfl) rfl (ended_now h.1)

end

/-- Settles O5: each instruction is one combination of COG with the bit, or one write of it. -/
theorem bitWords : Obligations.BitWords := by
  intro w space s h hb
  have op := fun f => congrArg (Host.Outcome.next (φ := Fault) (ρ := Refusal)) (bitOp_fetched h hb f)
  refine ⟨⟨op _, op _, op _, op _, op _, op _, op _⟩, fun hw => ?_⟩
  have store := fun f => congrArg (Host.Outcome.next (φ := Fault) (ρ := Refusal)) (bitStore_fetched h hb hw f)
  have writes : ∀ b : Bool, ((if (strandNow s w).cog then some b else none).map (PressWrite.bit space (opnd w))).toList =
      if (strandNow s w).cog then [.bit space (opnd w) b] else [] := fun b => by
    cases (strandNow s w).cog <;> rfl
  have acts := fun b => (store fun c => if c then some b else none).trans (by rw [writes])
  exact ⟨store _, acts true, acts false⟩

/-- Settles O6: an edge instruction stores COG, and a counter instruction acts with COG = 1. -/
theorem edgeAndCounterWords : Obligations.EdgeAndCounterWords := by
  intro w s h
  refine ⟨fun ho => ?_, fun ho => ?_⟩
  · have op := fun f => congrArg (Host.Outcome.next (φ := Fault) (ρ := Refusal)) (edgeOp_fetched h ho f)
    exact ⟨op _, op _⟩
  have op := fun f => congrArg (Host.Outcome.next (φ := Fault) (ρ := Refusal)) (counterOp_fetched h ho f)
  refine ⟨fun hc => ?_, fun hc => ?_⟩
  · have idle := fun f => (op f).trans (by rw [if_cogF hc])
    exact ⟨idle _, idle _, idle _, idle _⟩
  · have acts := fun f => (op f).trans (by rw [if_pos hc])
    rw [← countUp_eq, ← countDown_eq]
    exact ⟨acts _, acts _, acts _, acts _⟩

/-! ### Timer instructions (R97 to R101) -/

section
variable (now : Time) (n : Nat) (inp : Bool) (t : TimerRec)

theorem evalTon_last : (evalTon now n inp t).last = inp := by
  unfold evalTon
  repeat' split
  all_goals rfl

theorem evalTof_last : (evalTof now n inp t).last = inp := by
  unfold evalTof
  repeat' split
  all_goals rfl

theorem evalTp_last : (evalTp now n inp t).last = inp := by
  unfold evalTp
  repeat' split
  all_goals rfl

variable {t}

theorem evalTon_starts (h : t.run = false) : evalTon now n true t = timerStart now (decide (n = 0)) true := by
  simp [evalTon, h]

theorem evalTon_runs (h : t.run = true) : evalTon now n true t =
    { t with out := decide (timerElapsed now t ≥ n), last := true, esat := timerEsat now t } := by
  simp [evalTon, h]

theorem evalTof_starts (h : t.run = false) (ho : t.out = true) : evalTof now n false t = timerStart now (decide (n ≠ 0)) false := by
  simp [evalTof, h, ho]

theorem evalTof_rests (h : t.run = false) (ho : t.out = false) : evalTof now n false t = { t with out := false, last := false } := by
  simp [evalTof, h, ho]

/-- A running timer stops, with output 0, where its preset has elapsed, and else runs on with output 1 (R100). -/
theorem evalTof_runs (h : t.run = true) : (evalTof now n false t).run = !decide (timerElapsed now t ≥ n) ∧
    (evalTof now n false t).start = t.start ∧ (evalTof now n false t).out = !decide (timerElapsed now t ≥ n) := by
  by_cases e : timerElapsed now t ≥ n <;> simp [evalTof, timerIdle, h, e]

theorem evalTp_runs (h : t.run = true) : (evalTp now n inp t).run = !decide (timerElapsed now t ≥ n) ∧
    (evalTp now n inp t).start = t.start ∧ (evalTp now n inp t).out = !decide (timerElapsed now t ≥ n) := by
  by_cases e : timerElapsed now t ≥ n <;> simp [evalTp, timerIdle, h, e]

theorem evalTp_starts (h : t.run = false) (hl : t.last = false) (ho : t.out = false) :
    evalTp now n true t = timerStart now (decide (n ≠ 0)) true := by
  simp [evalTp, h, hl, ho]

/-- A pulse begins with a rising input alone, and only where the last one is over (R100). -/
theorem evalTp_rests (h : t.run = false) (hn : inp = false ∨ t.last = true ∨ t.out = true) :
    evalTp now n inp t = { t with out := false, last := inp } := by
  obtain hn | hn | hn := hn <;> simp [evalTp, h, hn]

end

/-- Settles O7: each instruction is its evaluation of the record, and the rows of R100 are the cases of that evaluation. -/
theorem timerWords : Obligations.TimerWords := by
  intro w s h ho
  have op := fun f => congrArg (Host.Outcome.next (φ := Fault) (ρ := Refusal)) (timer_run h ho f)
  have reset : exec (.trs w) s = .next (wordDone s w (step1 (strandNow s w)) _) :=
    congrArg Host.Outcome.next (run_ok h (low_lt ho rfl) rfl (ended_now h.1))
  intro x r preset done starts rests
  refine ⟨⟨_, op evalTon, evalTon_last .., fun hc => ?_, fun hc hr => ?_, fun hc hr => ?_⟩,
    ⟨_, op evalTof, evalTof_last .., fun hc => ?_, fun hc hr hout => ?_, fun hc hr => ?_, fun hc hr hout => ?_⟩,
    ⟨_, op evalTp, evalTp_last .., fun hc hl hr hout => ?_, fun hr => ?_, fun hr hn => ?_⟩, fun hc => ?_, fun hc => ?_⟩
  · rw [hc]; exact ⟨⟨rfl, rfl⟩, rfl, rfl⟩
  · rw [hc, evalTon_starts _ _ hr]; exact ⟨⟨rfl, rfl⟩, rfl⟩
  · rw [hc, evalTon_runs _ _ hr]; exact ⟨hr, rfl, rfl⟩
  · rw [hc]; exact ⟨⟨rfl, rfl⟩, rfl, rfl⟩
  · rw [hc, evalTof_starts _ _ hr hout]; exact ⟨⟨rfl, rfl⟩, rfl⟩
  · rw [hc]; exact evalTof_runs _ _ hr
  · rw [hc, evalTof_rests _ _ hr hout]; exact ⟨⟨hr, rfl⟩, rfl⟩
  · rw [hc, evalTp_starts _ _ hr hl hout]; exact ⟨⟨rfl, rfl⟩, rfl⟩
  · exact evalTp_runs _ _ _ hr
  · rw [evalTp_rests _ _ _ hr hn]; exact ⟨⟨hr, rfl⟩, rfl⟩
  · exact reset.trans (by rw [if_cogF (show (strandNow s w).cog = false from hc)]; rfl)
  · exact ⟨timerIdle r false r.last, reset.trans (by rw [if_pos (show (strandNow s w).cog = true from hc)]; rfl), ⟨rfl, rfl⟩, rfl, rfl, rfl⟩

/-! ### Word instructions (R101, R103) -/

theorem wordOp_fetched {s : State} {w : PressWord} (h : fetches s w false) (ho : opnd w < 65536) (f : Strand → Word → Strand)
    (hf : ∀ x v, (f x v).ended = x.ended) :
    wordOp w f s = wordDone s w (f (step1 (strandNow s w)) (sget (0 : Word) (dataNow s w).w (opnd w))) [] :=
  run_ok h (low_lt ho rfl) rfl ((hf _ _).trans (ended_now h.1))

theorem timerReport_toNat (now : Time) (t : TimerRec) :
    (timerReport now t).toNat = if t.run = true then min (timerElapsed now t) 0xFFFFFFFF else 0 := by
  unfold timerReport
  split
  · rw [BitVec.toNat_ofNat]
    omega
  · rfl

/-- Settles O8: each instruction is one function of the strand's registers and the word that it names. -/
theorem wordWords : Obligations.WordWords := by
  intro w s h
  have hend := ended_now h.1
  have op := fun ho f hf => congrArg (Host.Outcome.next (φ := Fault) (ρ := Refusal)) (wordOp_fetched h ho f hf)
  have load : ∀ {c : Instr} {legal : Nat → Nat → Bool} {body : State → LaneState → Strand → PressResult} {v : Word},
      exec c s = .next (runWord s w false legal body) → legal (strandNow s w).pc (segLen (lane s w.lane) w.strand) = true →
      body (atWord s w) (lane (atWord s w) w.lane) (strandNow s w) = .ok { step1 (strandNow s w) with acc := v } [] →
      exec c s = .next (wordDone s w { step1 (strandNow s w) with acc := v } []) :=
    fun hx hl hb => hx.trans (congrArg Host.Outcome.next (run_ok h hl hb hend))
  intro x y v
  refine ⟨fun ho => ?words, ?li, fun ho => ?lih, fun ho => ?tld, fun ho => load rfl (low_lt ho rfl) rfl, fun ho => ?xld, fun ho => ?rsld,
    fun ho => congrArg Host.Outcome.next (run_ok h (low0 ho) rfl hend)⟩
  case words =>
    have add := op ho strandAdd fun _ _ => by rw [add_eq]
    have sub := op ho strandSub fun _ _ => by rw [sub_eq]
    exact ⟨op ho _ fun _ _ => rfl, congrArg Host.Outcome.next (run_ok h (low_lt ho rfl) rfl hend), ⟨_, add, add_eq _ _⟩, ⟨_, sub, sub_eq _ _⟩,
      op ho _ fun _ _ => rfl, op ho _ fun _ _ => rfl, op ho _ fun _ _ => rfl, op ho _ fun _ _ => rfl, op ho _ fun _ _ => rfl⟩
  case li =>
    exact ⟨_, load rfl rfl rfl, rfl,
      (BitVec.toNat_setWidth _ _).trans (Nat.mod_eq_of_lt (Nat.lt_trans w.operand.isLt (by decide)))⟩
  case lih =>
    refine ⟨_, load rfl (low_lt ho rfl) rfl, rfl, ?_⟩
    have low : (strandNow s w).acc.toNat % 0x400000 < 0x400000 := Nat.mod_lt _ (by decide)
    rw [BitVec.toNat_ofNat, Nat.mod_eq_of_lt (by omega)]
    change _ ∧ _ = (strandNow s w).acc.toNat % 2 ^ 22
    omega
  case tld =>
    exact ⟨_, load rfl (low_lt ho rfl) rfl, rfl,
      (timerReport_toNat _ (sget TimerRec.reset (dataNow s w).t (opnd w))).trans (by rw [tick_atWord]; rfl)⟩
  case xld =>
    refine ⟨_, load rfl (low_lt ho rfl) rfl, rfl, ?_⟩
    rw [BitVec.toNat_ofNat]
    refine ⟨fun he => by rw [if_pos he]; rfl, fun ho => ?_⟩
    rw [if_neg (by omega)]
    exact Nat.mod_eq_of_lt (by omega)
  case rsld =>
    exact ⟨_, load rfl (low_lt ho rfl) rfl, rfl, (BitVec.toNat_setWidth _ _).trans (Nat.mod_eq_of_lt (by omega))⟩

/-! ### Flow instructions and the branch stack (R104, R105, R107) -/

/-- A word that only moves its strand. -/
theorem flow_fetched {s : State} {w : PressWord} {closing : Bool} {legal : Nat → Nat → Bool} {body : State → LaneState → Strand → PressResult}
    {c : Instr} {y : Strand} (h : fetches s w closing) (hx : exec c s = .next (runWord s w closing legal body))
    (hl : legal (strandNow s w).pc (segLen (lane s w.lane) w.strand) = true)
    (hb : body (atWord s w) (lane (atWord s w) w.lane) (strandNow s w) = .ok y []) (hy : y.ended = (strandNow s w).ended) :
    exec c s = .next (wordDone s w y []) :=
  hx.trans (congrArg Host.Outcome.next (run_ok h hl hb (hy.trans (ended_now h.1))))

theorem closeBranch_fetched {s : State} {w : PressWord} (h : fetches s w false) {v : Bool} {r : List StackEntry}
    (hs : (strandNow s w).stack = .expr v :: r) (ho : opnd w < 5) : exec (.closeBranch w) s =
      .next (wordDone s w { step1 (strandNow s w) with stack := r, cog := closeOp (opnd w) v (strandNow s w).cog } []) :=
  flow_fetched h rfl (decide_eq_true ho) (by dsimp only; rw [hs]) rfl

theorem jumpTo_eq (w : PressWord) (x : Strand) (take : Bool) :
    jumpTo w x take = { x with pc := if take then opnd w else x.pc + 1 } := by
  cases take <;> rfl

/-- Settles O9: OPEN and CALL push, CLOSE pops, and a jump goes to its operand or on. -/
theorem flowWords : Obligations.FlowWords := by
  intro w s h
  refine ⟨fun ho => flow_fetched h rfl (low0 ho) rfl rfl, fun ho hs => ?_, fun v r hs => ?_, fun hp hn => ?_, fun hp hn hs => ?_⟩
  · obtain ⟨y, hy, heq, hpeak⟩ := push_eq (step1 (strandNow s w)) (.expr (strandNow s w).cog) hs
    exact ⟨y, flow_fetched h rfl (low0 ho) (by rw [hy]) (by rw [heq]; rfl), heq, hpeak⟩
  · refine ⟨fun ho => ?_, fun ho => ?_, fun ho => ?_, fun ho => ?_, fun ho => ?_⟩
    all_goals rw [closeBranch_fetched h hs (by omega), ho]; rfl
  · have hj : jumpLegal (strandNow s w).pc (segLen (lane s w.lane) w.strand) w = true := by
      unfold jumpLegal
      rw [decide_eq_true hp, decide_eq_true hn]
      rfl
    refine ⟨flow_fetched h rfl hj rfl rfl, flow_fetched h rfl hj ?_ rfl, flow_fetched h rfl hj ?_ rfl⟩
    · rw [jumpTo_eq]
    · rw [jumpTo_eq]
      cases (strandNow s w).cog <;> rfl
  · obtain ⟨y, hy, heq, hpeak⟩ := push_eq (strandNow s w) (.call ((strandNow s w).pc + 1)) hs
    have hc : callLegal (strandNow s w).pc (segLen (lane s w.lane) w.strand) w = true := by
      unfold callLegal
      rw [decide_eq_true hp, decide_eq_true hn]
      rfl
    refine ⟨{ y with pc := opnd w }, flow_fetched h rfl hc (by rw [hy]) (by rw [heq]), by rw [heq], hpeak⟩

end Sys2Proof.Laws

/-! ## Barriers, the end of a strand, calls and faults of the Press (R79, R94, R95, R104 to R109) -/

namespace Sys2Proof.Laws

open Sys2Proof Sys2Proof.Machine Sys2Proof.Safety

/-! ### RET and END (R79, R104, R107) -/

theorem press_wordDone (s : State) (w : PressWord) (y : Strand) (ws : List PressWrite) : (lane (wordDone s w y ws) w.lane).press =
    { (lane (atWord s w) w.lane).press with
      strands := putStrand (lane (atWord s w) w.lane).press.strands w.strand { y with ran := true }
      writes := (lane (atWord s w) w.lane).press.writes ++ ws.map (fun x => (w.strand.val, x)) } :=
  congrArg LaneState.press (lane_modLane_self _ _ _)

theorem strandOf_wordDone (s : State) (w : PressWord) (y : Strand) (ws : List PressWrite) (j : Fin 4) :
    strandOf (lane (wordDone s w y ws) w.lane).press.strands j =
      if j = w.strand then { y with ran := true } else strandOf (lane (atWord s w) w.lane).press.strands j := by
  rw [press_wordDone, ← strandOf_put]

/-- The word of a strand leaves its strand and its writes, and with the last END the logic-done mark (R79). -/
theorem pressPut_ok (s : State) (w : PressWord) (y : Strand) (ws : List PressWrite) :
    pressPut (atWord s w) w (lane (atWord s w) w.lane).press (.ok y ws) =
      if y.ended && allEnded (putStrand (lane (atWord s w) w.lane).press.strands w.strand { y with ran := true }) then
        logicDone (wordDone s w y ws) w.lane
      else wordDone s w y ws := rfl

theorem allEnded_iff (x : Strands) : allEnded x = true ↔ ∀ j, (strandOf x j).ended = true := by
  rw [Fin.forall_fin_succ, Fin.forall_fin_succ, Fin.forall_fin_succ, Fin.forall_fin_one]
  simp only [allEnded, strandList, List.all_cons, List.all_nil, Bool.and_true, Bool.and_eq_true]
  rfl

theorem allEnded_put {x : Strands} {i : Fin 4} {y : Strand} (hy : y.ended = true) :
    allEnded (putStrand x i y) = true ↔ ∀ j, j ≠ i → (strandOf x j).ended = true := by
  rw [allEnded_iff]
  refine forall_congr' fun j => ?_
  rw [strandOf_put]
  by_cases e : j = i <;> simp [e, hy]

theorem applyWrite_clock (p : Press) (x : PressWrite) : (applyWrite p x).clock = p.clock := by
  cases x with
  | bit sp i v =>
    unfold applyWrite
    repeat' split
    all_goals rfl
  | _ => rfl

theorem commitWrites_clock (p : Press) : (commitWrites p).clock = p.clock := by
  have fold : ∀ (ws : List PressWrite) (p : Press), (ws.foldl applyWrite p).clock = p.clock := by
    intro ws
    induction ws with
    | nil => exact fun _ => rfl
    | cons x ws ih => exact fun p => (ih _).trans (applyWrite_clock p x)
  exact fold _ p

/-- The logic-done mark is a mark of the lane's Press, whose writes have taken effect (R79, R80). -/
theorem press_logicDone (s : State) (l : Lane) : (lane (logicDone s l) l).press = { commitWrites (lane s l).press with
    done := some ((lane s l).press.clock + 1), satCount := satCountOf s.mod.tickTime (commitWrites (lane s l).press).data } := by
  rw [← commitWrites_clock]
  have levels : ∀ (b : State → Bool) (t : State), changesOnly [.eic, .ports] t
      (foldS (satLanes s l) (fun s m => eicLevel s m 21 (b s)) t) :=
    fun b t => changes_foldS _ _ (fun u m h => chg_eicLevel u m _ _ (by decide) h) (changesOnly_refl _ t)
  unfold logicDone
  dsimp only
  rw [press_of (levels (fun s => decide (satCountOf s.mod.tickTime _ ≠ 0)) _) rfl, lane_modLane_self]

/-- What END makes of its strand. -/
def endedStrand (s : State) (w : PressWord) : Strand :=
  { strandNow s w with running := false, ended := true, endClk := BitVec.ofNat 27 ((lane (atWord s w) w.lane).press.clock + 1) }

section
variable {s : State} {w : PressWord} (h : fetches s w true) (ho : opnd w = 0) (hs : (strandNow s w).stack = [])
include h ho hs

theorem exec_endStrand : exec (.endStrand w) s =
    .next (pressPut (atWord s w) w (lane (atWord s w) w.lane).press (.ok (endedStrand s w) [])) := by
  refine congrArg Host.Outcome.next ((run_result h (low0 ho)).trans (congrArg (pressPut _ _ _) (if_pos ?_)))
  rw [hs]
  rfl

/-- The last END of the four sets the logic-done mark. -/
theorem exec_endStrand_last (hall : ∀ i, i ≠ w.strand → (strandOf (lane (atWord s w) w.lane).press.strands i).ended = true) :
    exec (.endStrand w) s = .next (logicDone (wordDone s w (endedStrand s w) []) w.lane) := by
  rw [exec_endStrand h ho hs, pressPut_ok, (allEnded_put rfl).2 hall]
  rfl

/-- While another strand goes on, END changes its own strand alone. -/
theorem exec_endStrand_more (hmore : ¬ ∀ i, i ≠ w.strand → (strandOf (lane (atWord s w) w.lane).press.strands i).ended = true) :
    exec (.endStrand w) s = .next (wordDone s w (endedStrand s w) []) := by
  rw [exec_endStrand h ho hs, pressPut_ok, if_neg]
  rw [Bool.and_eq_true, allEnded_put rfl]
  exact fun hall => hmore hall.2

end

/-- Settles O10: END leaves one strand more ended, and where it is the last the mark is set. -/
theorem returnAndEnd : Obligations.ReturnAndEnd := by
  intro w s h ho
  refine ⟨fun a r hs => flow_fetched h rfl (low0 ho) (by rw [hs]) rfl, fun hs => ?_⟩
  have strands := strandOf_wordDone s w (endedStrand s w) []
  by_cases hall : ∀ i, i ≠ w.strand → (strandOf (lane (atWord s w) w.lane).press.strands i).ended = true
  · refine ⟨_, exec_endStrand_last h ho hs hall, ?_⟩
    rw [press_logicDone]
    dsimp only
    rw [commit_strands, strands, if_pos rfl, press_wordDone]
    refine ⟨rfl, rfl, fun i hi => ?_, fun ⟨i, hi, hrun⟩ => ?_, fun _ => rfl⟩
    · rw [← press_wordDone, strands, if_neg hi]
    · rw [hall i hi] at hrun
      cases hrun
  · refine ⟨_, exec_endStrand_more h ho hs hall, ?_⟩
    rw [strands, if_pos rfl]
    refine ⟨rfl, rfl, fun i hi => by rw [strands, if_neg hi], fun _ => ?_, fun k => absurd k hall⟩
    rw [press_wordDone]
    exact ⟨rfl, rfl⟩

/-! ### Barriers (R106) -/

/-- The largest barrier that a strand has executed, after BAR n (R106). -/
def barrierTop (x : Strand) (n : Nat) : Nat := match x.passed with | some m => max m.toNat n | none => n

theorem bar_fetched {s : State} {w : PressWord} (h : fetches s w false) (ho : opnd w < 256) : exec (.bar w) s =
    .next (wordDone s w { step1 (strandNow s w) with
      waiting := some (BitVec.ofNat 8 (opnd w)), passed := some (BitVec.ofNat 8 (barrierTop (strandNow s w) (opnd w))) } []) :=
  flow_fetched h rfl (low_lt ho rfl) rfl rfl

theorem pastBarrier_iff (n : BitVec 8) (x : Strand) :
    pastBarrier n x = true ↔ x.ended = true ∨ ∃ m, x.passed = some m ∧ n.toNat ≤ m.toNat := by
  unfold pastBarrier
  cases x.passed <;> simp

theorem lget_strandList (d : Strand) (x : Strands) (j : Fin 4) : lget d (strandList x) j.val = strandOf x j := by
  match j with
  | 0 | 1 | 2 | 3 => rfl

/-- The other three strands are past a barrier. -/
theorem othersPast_iff (d : Strand) (x : Strands) (i : Fin 4) (n : BitVec 8) :
    [0, 1, 2, 3].all (fun k => decide (k = i.val) || pastBarrier n (lget d (strandList x) k)) = true ↔
      ∀ j, j ≠ i → pastBarrier n (strandOf x j) = true := by
  have strands : ∀ f : Nat → Bool, [0, 1, 2, 3].all f = true ↔ ∀ j : Fin 4, f j.val = true := fun f => by
    simp [Fin.forall_fin_succ]
  rw [strands]
  refine forall_congr' fun j => ?_
  rw [lget_strandList, Bool.or_eq_true, decide_eq_true_iff, ← Fin.ext_iff, or_iff_not_imp_left]

section
variable {l : Lane} {i : Fin 4} {n : BitVec 8} {s : State} (hw : (strandOf (lane s l).press.strands i).waiting = some n)
include hw

theorem barRelease_goesOn (ha : (lane s l).press.active = true)
    (h : ∀ j, j ≠ i → pastBarrier n (strandOf (lane s l).press.strands j) = true) : exec (.barRelease l i) s =
      .next (modLane s l (fun L => { L with press := { L.press with
        strands := putStrand L.press.strands i { strandOf (lane s l).press.strands i with waiting := none, ran := true } } })) := by
  refine congrArg Host.Outcome.next ?_
  dsimp only
  rw [hw]
  exact if_pos (by rw [ha, Bool.true_and, othersPast_iff]; exact h)

theorem barRelease_waits (h : ¬ ∀ j, j ≠ i → pastBarrier n (strandOf (lane s l).press.strands j) = true) :
    exec (.barRelease l i) s = .next s := by
  refine congrArg Host.Outcome.next ?_
  dsimp only
  rw [hw]
  exact if_neg (by rw [Bool.and_eq_true, othersPast_iff]; exact fun k => h k.2)

end

/-- A new Press alone. -/
theorem laneOnly_press (L : LaneState) (p : Press) : laneOnly [.press] L { L with press := p } := by
  intro q hq
  cases q <;> first | exact Bool.noConfusion (show true = false from hq) | trivial

theorem changes_press (s : State) (l : Lane) (f : LaneState → Press) :
    changesOnly [.press] s (modLane s l (fun L => { L with press := f L })) :=
  changes_modLane l _ (laneOnly_press _ _) (changesOnly_refl _ s)

/-- Settles O11: BAR marks its strand, and a release looks at the other three. -/
theorem barriersHold : Obligations.BarriersHold := by
  refine ⟨fun w s h ho => ⟨_, _, bar_fetched h ho, rfl, fun hp => ?_, fun k hk => ?_⟩, fun l i n s hw ha => ⟨fun h => ?_, fun h => ?_⟩⟩
  · rw [barrierTop, show (strandNow s w).passed = none from hp]
    exact BitVec.toNat_ofNat .. |>.trans (Nat.mod_eq_of_lt ho)
  · rw [barrierTop, show (strandNow s w).passed = some k from hk]
    exact BitVec.toNat_ofNat .. |>.trans (Nat.mod_eq_of_lt (Nat.max_lt.2 ⟨k.isLt, ho⟩))
  · refine ⟨_, barRelease_goesOn hw ha fun j hj => (pastBarrier_iff _ _).2 (h j hj), ?_, fun j hj => ?_, changes_press _ _ _, ?_,
      fun m hm => lane_modLane_other _ _ hm⟩
    · rw [lane_modLane_self, strandOf_put, if_pos rfl]
    · rw [lane_modLane_self, strandOf_put, if_neg hj]
    · rw [lane_modLane_self]
  · obtain ⟨j, hj, hend, hbelow⟩ := h
    refine barRelease_waits hw fun hall => ?_
    obtain hended | ⟨m, hm, hle⟩ := (pastBarrier_iff _ _).1 (hall j hj)
    · rw [hend] at hended
      cases hended
    · exact absurd (hbelow m hm) (by omega)

/-! ### Calls into the RAA (R108, R109, R131) -/

/-- From u to t a call has left its strand with room in COG, and its request with the others of the cycle, or among those dropped. -/
def called (w : PressWord) (u t : State) (y : Strand) (room : Bool) (e : QEntry) : Prop :=
  (lane t w.lane).press = { (lane u w.lane).press with
    strands := putStrand (lane u w.lane).press.strands w.strand { y with cog := room, ran := true }
    issued := if room then issueInsert e (lane u w.lane).press.issued else (lane u w.lane).press.issued
    entered := if room then satInc (lane u w.lane).press.entered else (lane u w.lane).press.entered
    dropped := if room then (lane u w.lane).press.dropped else satInc (lane u w.lane).press.dropped } ∧
  changesOnly [.press] u t ∧ ∀ m, m ≠ w.lane → lane t m = lane u m

theorem call_fetched {s : State} {w : PressWord} {legal : Nat → Nat → Bool} {body : State → LaneState → Strand → PressResult} {c : Instr}
    {y : Strand} {k : QKind} {item cmd : Nat} (h : fetches s w false) (hx : exec c s = .next (runWord s w false legal body))
    (hl : legal (strandNow s w).pc (segLen (lane s w.lane) w.strand) = true)
    (hb : body (atWord s w) (lane (atWord s w) w.lane) (strandNow s w) = .call y k item cmd) :
    ∃ t, exec c s = .next t ∧ called w (atWord s w) t y (decide (placedNext (lane (atWord s w) w.lane) < 3072))
      { kind := k, item := item, cmd := cmd, src := .press s.mod.cycle (lane (atWord s w) w.lane).press.clock w.strand } := by
  refine ⟨_, hx.trans (congrArg Host.Outcome.next ((run_result h hl).trans (congrArg (pressPut _ _ _) hb))), ?_⟩
  rw [← tick_atWord s w]
  exact ⟨congrArg LaneState.press (lane_modLane_self _ _ _), changes_press _ _ _, fun m hm => lane_modLane_other _ _ hm⟩

theorem routeCall_legal {w : PressWord} (ho : opnd w < 16384) {k : QKind} (hk : k ≠ .ecmd) :
    (lowOperand 14 w && (decide (k ≠ .ecmd) || decide (opnd w / 0x10000 ≤ 6))) = true := by
  rw [low_lt ho rfl, decide_eq_true hk]
  rfl

theorem elementCall_legal {w : PressWord} (ho : opnd w < 7 * 65536) :
    (lowOperand 20 w && (decide (QKind.ecmd ≠ .ecmd) || decide (opnd w / 0x10000 ≤ 6))) = true := by
  rw [low_lt (show opnd w < 1048576 by omega) rfl, decide_eq_true (show opnd w / 0x10000 ≤ 6 by omega)]
  rfl

/-- Settles O12: with COG = 0 a call only moves its strand, and with COG = 1 it leaves its request. -/
theorem callWords : Obligations.CallWords := by
  intro w s h
  refine ⟨fun hc => ⟨fun ho => ⟨?_, ?_⟩, fun ho => ?_⟩, fun hc => ⟨fun ho => ⟨?_, ?_⟩, fun ho => ?_⟩⟩
  · exact flow_fetched h rfl (routeCall_legal ho (by decide)) (if_cogF hc _ _) rfl
  · exact flow_fetched h rfl (routeCall_legal ho (by decide)) (if_cogF hc _ _) rfl
  · exact flow_fetched h rfl (elementCall_legal ho) (if_cogF hc _ _) rfl
  · exact call_fetched (c := .rreq w) (k := .rreq) (cmd := 0) h rfl (routeCall_legal ho (by decide)) (if_pos hc)
  · exact call_fetched (c := .rcan w) (k := .rcan) (cmd := 0) h rfl (routeCall_legal ho (by decide)) (if_pos hc)
  · exact call_fetched (c := .ecmd w) (k := .ecmd) h rfl (elementCall_legal ho) (if_pos hc)

/-! ### Faults (R94, R95, R105, R107) -/

/-- Every word is fetched in the same way; END and RET alone may close a segment. -/
theorem exec_word {c : Instr} {w : PressWord} (h : wordOf c = some w) (s : State) : ∃ closing legal body,
    exec c s = .next (runWord s w closing legal body) ∧ (closing = true → c = .endStrand w ∨ c = .ret w) := by
  cases c <;> cases h
  case endStrand => exact ⟨true, _, _, rfl, fun _ => .inl rfl⟩
  case ret => exact ⟨true, _, _, rfl, fun _ => .inr rfl⟩
  all_goals exact ⟨false, _, _, rfl, fun e => Bool.noConfusion e⟩

/-- A word that its own body refuses. -/
theorem misuse_faults {s : State} {w : PressWord} {closing : Bool} {legal : Nat → Nat → Bool}
    {body : State → LaneState → Strand → PressResult} {c : Instr} {k : PressFault} (h : fetches s w closing)
    (hi : isolatable (lst s w.lane) = true) (hx : exec c s = .next (runWord s w closing legal body))
    (hl : legal (strandNow s w).pc (segLen (lane s w.lane) w.strand) = true)
    (hb : body (atWord s w) (lane (atWord s w) w.lane) (strandNow s w) = .fault k) :
    ∃ t, exec c s = .next t ∧ pressFaulted s w k (strandNow s w).pc t :=
  ⟨_, hx.trans (congrArg Host.Outcome.next ((run_result h hl).trans (congrArg (pressPut _ _ _) hb))), press_fault s w k _ hi⟩

theorem push_overflows {x : Strand} (h : x.stack.length ≥ 16) (e : StackEntry) : pushEntry x e = none := if_pos h

/-- Settles O13: the checks at the fetch are made in their order, and a misuse of the stack is what the word's body answers. -/
theorem pressFaultsIsolate : Obligations.PressFaultsIsolate := by
  intro w s hx hi
  refine ⟨fun c hc hn => ?_, fun c hc hn hf => ?_, fun c hc hend hn hf => ?_, fun c hc hn hf ho => ?_, fun h => ?_, fun h ho => ?_⟩
  · obtain ⟨_, _, _, he, _⟩ := exec_word hc s
    exact ⟨_, by rw [he, run_eq _ _ _ _ _ hx, if_pos hn], press_fault s w _ _ hi⟩
  · obtain ⟨_, _, _, he, _⟩ := exec_word hc s
    exact ⟨_, by rw [he, run_eq _ _ _ _ _ hx, if_neg (Nat.not_le.2 hn), if_pos hf], press_fault s w _ _ hi⟩
  · obtain ⟨closing, _, _, he, hcl⟩ := exec_word hc s
    have hopen : closing = false := Bool.eq_false_iff.2 fun e => (hcl e).elim (hend w).1 (hend w).2
    exact ⟨_, by rw [he, run_eq _ _ _ _ _ hx, if_neg (by omega), if_neg (not_not_intro hf), if_pos (by simp [hn, hopen])],
      press_fault s w _ _ hi⟩
  · obtain ⟨_, _, _, he, _⟩ := exec_word hc s
    exact ⟨_, by rw [he, run_eq _ _ _ _ _ hx, if_neg (Nat.not_le.2 hn), if_neg (not_not_intro hf), if_pos (by simp [ho])],
      press_fault s w _ _ hi⟩
  · refine ⟨fun hs ho => ?_, fun hs hp hn => ?_, fun hs ho => ?_, fun a r hs ho => ?_⟩
    · exact misuse_faults h hi rfl (low0 ho) (by rw [push_overflows (x := step1 _) hs])
    · have hc : callLegal (strandNow s w).pc (segLen (lane s w.lane) w.strand) w = true := by
        unfold callLegal
        rw [decide_eq_true hp, decide_eq_true hn]
        rfl
      exact misuse_faults h hi rfl hc (by rw [push_overflows hs])
    · exact misuse_faults h hi rfl (decide_eq_true ho) (by rw [hs])
    · exact misuse_faults h hi rfl (decide_eq_true ho) (by rw [hs])
  · refine ⟨fun hs => ?_, fun v r hs => ?_, fun hs => ?_⟩
    · exact misuse_faults h hi rfl (low0 ho) (by rw [hs])
    · exact misuse_faults h hi rfl (low0 ho) (by rw [hs])
    · exact misuse_faults h hi rfl (low0 ho) (if_neg (by rwa [List.isEmpty_iff]))

end Sys2Proof.Laws

/-! ## The roles and the loads of the twin pair (R92, R331, R333, R347, R348, R353, R356) -/

namespace Sys2Proof.Laws

open Sys2Proof Sys2Proof.Machine Sys2Proof.Safety

/-! ### What a frame leaves of the pair, and the records of an event -/

section
variable {ps : List Part} {s t : State}

theorem twin_of (h : changesOnly ps s t) (hp : ps.contains .twin = false := by rfl) : t.twin = s.twin := (h .twin hp).1

/-- The frame of a command, said of the state that it leaves. -/
theorem frame_next {c : Instr} (he : exec c s = .next t) (h : changesOnly ps s (thenState s (exec c s))) : changesOnly ps s t := by
  rwa [he] at h

end

theorem eventAll_only (s : State) (n c : Nat) (p : List Byte) : changesOnly records s (eventAll s n c p) :=
  chg_eventAll s n c p (by decide) (changesOnly_refl records s)

theorem recordAll_only (s : State) (c : Nat) (p : List Byte) : changesOnly records s (recordAll s c p) :=
  chg_recordAll s c p (by decide) (changesOnly_refl records s)

theorem vput_self {w : Nat} (v : BitVec w) {i : Nat} (h : i < w) (b : Bool) : (vput v i b).getLsbD i = b := by
  cases b
  · exact vput_false_self v i
  · unfold vput
    rw [if_pos rfl, BitVec.getLsbD_or, BitVec.getLsbD_ofNat, Nat.testBit_two_pow_self, decide_eq_true h]
    exact Bool.or_true _

/-- K bit 6 of every lane is what the change of role says (R92). -/
theorem roleBit_bit (s : State) (f : Lane → Bool) (l : Lane) : (lane (roleBit s f) l).press.data.k.getLsbD 6 = f l := by
  unfold roleBit
  rw [lane_modLanes]
  exact vput_self _ (by decide) _

/-! ### A change of roles (R331, R333, R347, R348) -/

@[simp] theorem cellar_modTwin (s : State) (f : Twin → Twin) : (modTwin s f).cellar = s.cellar := rfl
@[simp] theorem sluices_modTwin (s : State) (f : Twin → Twin) : (modTwin s f).sluices = s.sluices := rfl
@[simp] theorem modTwin_twin (s : State) (f : Twin → Twin) : (modTwin s f).twin = f s.twin := rfl
@[simp] theorem cellar_setTwin (s : State) (x : TwinSt) : (setTwin s x).cellar = s.cellar := rfl
@[simp] theorem sluices_setTwin (s : State) (x : TwinSt) : (setTwin s x).sluices = s.sluices := rfl
@[simp] theorem life_setEpoch (s : State) (e : BitVec 16) : (setEpoch s e).cellar.life = { s.cellar.life with roleEpoch := e } := rfl
@[simp] theorem sluices_setEpoch (s : State) (e : BitVec 16) : (setEpoch s e).sluices = s.sluices := rfl
@[simp] theorem cellar_roleBit (s : State) (f : Lane → Bool) : (roleBit s f).cellar = s.cellar := rfl
@[simp] theorem sluices_roleBit (s : State) (f : Lane → Bool) : (roleBit s f).sluices = s.sluices := rfl

/-- From s to t the module has taken the role x under the next epoch. -/
def swappedTo (s : State) (x : TwinSt) (t : State) : Prop :=
  changesOnly (records ++ [.press, .sluices, .twin, .lifetime]) s t ∧ t.twin.st = x ∧ t.twin.epoch = s.twin.epoch + 1 ∧
    t.cellar.life.roleEpoch = s.twin.epoch + 1

/-- What follows within the frame, and leaves role and epoch, leaves the change of roles as it is. -/
theorem swapped_step {qs : List Part} {s t u : State} {x : TwinSt} (h : swappedTo s x t)
    (hq : within qs (records ++ [.press, .sluices, .twin, .lifetime]) = true) (hc : changesOnly qs t u) (hs : u.twin.st = t.twin.st)
    (he : u.twin.epoch = t.twin.epoch) (hr : u.cellar.life.roleEpoch = t.cellar.life.roleEpoch) : swappedTo s x u := by
  obtain ⟨hframe, hst, hepoch, hrole⟩ := h
  exact ⟨changes_step hq hc hframe, hs.trans hst, he.trans hepoch, hr.trans hrole⟩

/-- The role x is taken under the next epoch, which page 6 keeps. -/
theorem swapped_role (s : State) (x : TwinSt) : swappedTo s x (setTwin (setEpoch s (s.twin.epoch + 1)) x) :=
  ⟨chg_setTwin _ x (by decide) (chg_setEpoch s _ (by decide) (changesOnly_refl _ s)), rfl, rfl, rfl⟩

theorem swapped_event {s t : State} {x : TwinSt} (h : swappedTo s x t) (n c : Nat) (p : List Byte) :
    swappedTo s x (eventAll t n c p) := by
  have ho := eventAll_only t n c p
  exact swapped_step h (by decide) ho (by rw [twin_of ho]) (by rw [twin_of ho]) (by rw [lifetime_of ho])

theorem swapped_roleBit {s t : State} {x : TwinSt} (h : swappedTo s x t) (f : Lane → Bool) : swappedTo s x (roleBit t f) :=
  swapped_step h (by decide) (chg_roleBit t f (by decide) (changesOnly_refl [.press] t)) rfl rfl rfl

/-! ### TAKEOVER (R347) -/

section
variable {s : State} (hst : s.twin.st = .paired) (hph : s.mod.phase = .input)
include hst hph

/-- Two lanes that have missed the ACTIVE are enough. -/
theorem takeover_taken (hm : 2 ≤ (missedActive s).length) : exec .takeover s = .next (eventAll
    (roleBit (modLife (setTwin (setEpoch s (s.twin.epoch + 1)) .active) (fun f => { f with takeovers := satInc f.takeovers }))
      (fun l => !laneBit s.twin.lastActive l)) 39 0x0600
    (twinRecord (modLife (setTwin (setEpoch s (s.twin.epoch + 1)) .active) (fun f => { f with takeovers := satInc f.takeovers }))
      s.twin.epoch)) := by
  have hne : missedActive s ≠ [] := fun e => by rw [e] at hm; exact absurd hm (by decide)
  refine congrArg Host.Outcome.next ((if_pos ?_).trans (if_neg (by omega)))
  rw [decide_eq_true hst, decide_eq_true hph, decide_eq_true hne]
  rfl

/-- One lane's judgement reaches its own K bit alone. -/
theorem takeover_judged {l : Lane} (hm : missedActive s = [l]) : exec .takeover s = .next (roleBit s (fun m => decide (m = l))) := by
  refine congrArg Host.Outcome.next ((if_pos ?_).trans ((if_pos (by rw [hm]; exact Nat.lt_succ_self 1)).trans ?_))
  · rw [decide_eq_true hst, decide_eq_true hph, hm]
    rfl
  · simp only [hm, List.mem_singleton]

end

theorem takeover_idle {s : State} (h : s.twin.st ≠ .paired ∨ s.mod.phase ≠ .input ∨ missedActive s = []) :
    exec .takeover s = .next s := by
  refine congrArg Host.Outcome.next (if_neg fun hall => ?_)
  simp only [Bool.and_eq_true, decide_eq_true_eq] at hall
  obtain ⟨⟨hst, hm⟩, hph⟩ := hall
  obtain h | h | h := h
  · exact h hst
  · exact h hph
  · exact hm h

/-- A takeover: the ACTIVE role under the next epoch, and in every lane's K bit its own judgement. -/
theorem takeover_swaps {s : State} (hst : s.twin.st = .paired) (hph : s.mod.phase = .input) (hm : 2 ≤ (missedActive s).length) :
    ∃ t, exec .takeover s = .next t ∧ swappedTo s .active t ∧ t.sluices = s.sluices ∧
      t.cellar.life.takeovers = satInc s.cellar.life.takeovers ∧
      ∀ l, (lane t l).press.data.k.getLsbD 6 = !laneBit s.twin.lastActive l := by
  have hrole := swapped_step (swapped_role s .active) (by decide)
    (changes_modLife (fun f => { f with takeovers := satInc f.takeovers }) rfl (changesOnly_refl [.lifetime] _)) rfl rfl rfl
  refine ⟨_, takeover_taken hst hph hm, swapped_event (swapped_roleBit hrole _) _ _ _, ?_, ?_, fun l => ?_⟩
  · rw [sluices_of (eventAll_only _ _ _ _) rfl, sluices_roleBit, sluices_modLife, sluices_setTwin, sluices_setEpoch]
  · rw [lifetime_of (eventAll_only _ _ _ _), cellar_roleBit, cellar_modLife, cellar_setTwin, life_setEpoch]
  · rw [press_of (eventAll_only _ _ _ _), roleBit_bit]

/-! ### The request for a handover (R348, R486) -/

/-- What an authorised request does. -/
def handoverAnswer (u : State) : State :=
  if decide (u.twin.st = .active) && partnerPaired u then modTwin u (fun t => { t with handover := true }) else refuseHandover u

theorem exec_handoverRequest (a : Auth) (s : State) : exec (.handoverRequest a) s = .next (harnal s a 9 0 handoverAnswer) := rfl

theorem refuseHandover_only (u : State) : changesOnly records (modTwin u (fun t => { t with handover := false, handoverSent := false }))
    (refuseHandover u) := recordAll_only _ _ _

theorem handoverAnswer_only (u : State) : changesOnly (records ++ [.twin, .lifetime]) u (handoverAnswer u) := by
  unfold handoverAnswer
  split
  · exact chg_modTwin u _ (by decide) (changesOnly_refl _ u)
  · exact chg_refuseHandover u (by decide) (changesOnly_refl _ u)

theorem handoverAnswer_life (u : State) : (handoverAnswer u).cellar.life = u.cellar.life := by
  unfold handoverAnswer
  split
  · rfl
  · rw [lifetime_of (refuseHandover_only u)]
    rfl

/-- The request stands where the module is ACTIVE and its partner paired, and is refused elsewhere; role and epoch stay. -/
theorem handoverAnswer_twin (u : State) : (handoverAnswer u).twin.st = u.twin.st ∧ (handoverAnswer u).twin.epoch = u.twin.epoch ∧
    (handoverAnswer u).twin.handover = (decide (u.twin.st = .active) && decide (u.twin.partner = 6)) := by
  unfold handoverAnswer
  split
  · next h => exact ⟨rfl, rfl, h.symm⟩
  · next h =>
    rw [twin_of (refuseHandover_only u)]
    exact ⟨rfl, rfl, (Bool.eq_false_iff.2 h).symm⟩

theorem handoverRequest_settles (s : State) (a : Auth) :
    (authOk s a = false → exec (.handoverRequest a) s = .next s) ∧
    (authOk s a = true → ∃ t, exec (.handoverRequest a) s = .next t ∧ changesOnly (records ++ [.twin, .lifetime]) s t ∧
      t.cellar.life.nonceLast = a.nonce ∧ t.twin.st = s.twin.st ∧ t.twin.epoch = s.twin.epoch ∧
      t.twin.handover = (decide (s.twin.st = .active) && decide (s.twin.partner = 6))) := by
  refine ⟨fun h => by rw [exec_handoverRequest, harnal_refused h], fun h => ⟨_, by rw [exec_handoverRequest, harnal_taken h], ?_, ?_, ?_⟩⟩
  · exact changes_step (by decide) (handoverAnswer_only _) (changes_step (by decide) (accepted_only s a 9 0) (changesOnly_refl _ s))
  · rw [handoverAnswer_life, accepted_life]
  · rw [← twin_of (accepted_only s a 9 0)]
    exact handoverAnswer_twin _

/-! ### HANDOVER (R331, R348) -/

/-- The twin side of a module that changes roles with its partner. -/
def handedOver (s : State) (takes : Bool) : State :=
  modTwin (setTwin (setEpoch s (s.twin.epoch + 1)) (if takes then .active else .paired)) (fun t => { t with
    handover := false, handoverSent := false, partnerHandover := false, lastActive := if takes then t.lastActive else 7 })

@[simp] theorem life_handedOver (s : State) (takes : Bool) :
    (handedOver s takes).cellar.life = { s.cellar.life with roleEpoch := s.twin.epoch + 1 } := by
  unfold handedOver
  rw [cellar_modTwin, cellar_setTwin, life_setEpoch]

@[simp] theorem sluices_handedOver (s : State) (takes : Bool) : (handedOver s takes).sluices = s.sluices := by
  unfold handedOver
  rw [sluices_modTwin, sluices_setTwin, sluices_setEpoch]

/-- The role of every lane, and the count of the handover. -/
def handoverCounted (s : State) (takes : Bool) : State :=
  modLife (roleBit (handedOver s takes) (fun _ => takes)) (fun f => { f with handovers := satInc f.handovers })

theorem life_handoverCounted (s : State) (takes : Bool) : (handoverCounted s takes).cellar.life =
    { s.cellar.life with roleEpoch := s.twin.epoch + 1, handovers := satInc s.cellar.life.handovers } := by
  unfold handoverCounted
  rw [cellar_modLife, cellar_roleBit, life_handedOver]

theorem sluices_handoverCounted (s : State) (takes : Bool) : (handoverCounted s takes).sluices = s.sluices := by
  unfold handoverCounted
  rw [sluices_modLife, sluices_roleBit, sluices_handedOver]

theorem swapped_handedOver (s : State) (takes : Bool) : swappedTo s (if takes then .active else .paired) (handoverCounted s takes) := by
  have hrole := swapped_role s (if takes then .active else .paired)
  have htwin : swappedTo s (if takes then .active else .paired) (handedOver s takes) :=
    swapped_step hrole (by decide) (chg_modTwin _ _ (by decide) (changesOnly_refl [.twin] _)) rfl rfl rfl
  exact swapped_step (swapped_roleBit htwin _) (by decide) (changes_modLife _ rfl (changesOnly_refl [.lifetime] _)) rfl rfl rfl

section
variable {s : State} (hph : s.mod.phase = .input) (hm : (ownTwin s (refLane s)).isMatch = true)
include hph hm

/-- The ACTIVE leaves its role, and its switches open. -/
theorem handover_leaves (hst : s.twin.st = .active) (hsent : s.twin.handoverSent = true) (hp : s.twin.partner = 6)
    (hseen : s.twin.seen = true) : ∃ p, exec .handover s = .next (eventAll
      (modSluices (handoverCounted s false) (fun _ x => { x with now := 0 })) 41 0x0601 p) := by
  refine ⟨twinRecord (handoverCounted s false) s.twin.epoch, ?_⟩
  show execHandover s = _
  simp [execHandover, hph, hm, hst, hsent, hp, hseen, partnerPaired, handoverCounted, handedOver]

theorem handover_takes (hst : s.twin.st = .paired) (hpart : s.twin.partnerHandover = true)
    (hact : laneBit s.twin.lastActive (refLane s) = true) :
    ∃ p, exec .handover s = .next (eventAll (handoverCounted s true) 41 0x0601 p) := by
  refine ⟨twinRecord (handoverCounted s true) s.twin.epoch, ?_⟩
  show execHandover s = _
  simp [execHandover, hph, hm, hst, hpart, hact, handoverCounted, handedOver]

end

section
variable {s : State} (hph : s.mod.phase = .input) (hm : (ownTwin s (refLane s)).isMatch = true)
include hph hm

theorem handover_leaves_active (hst : s.twin.st = .active) (hsent : s.twin.handoverSent = true) (hp : s.twin.partner = 6)
    (hseen : s.twin.seen = true) : ∃ t, exec .handover s = .next t ∧ swappedTo s .paired t ∧ t.twin.handover = false ∧
      t.cellar.life.handovers = satInc s.cellar.life.handovers ∧
      ∀ l, t.sluices.get l = { s.sluices.get l with now := 0 } ∧ (lane t l).press.data.k.getLsbD 6 = false := by
  obtain ⟨p, hex⟩ := handover_leaves hph hm hst hsent hp hseen
  have hopen := swapped_step (swapped_handedOver s false) (by decide)
    (changes_modSluices (fun _ x => { x with now := 0 }) rfl (changesOnly_refl [.sluices] _)) rfl rfl rfl
  refine ⟨_, hex, swapped_event hopen _ _ _, ?_, ?_, fun l => ⟨?_, ?_⟩⟩
  · rw [twin_of (eventAll_only _ _ _ _)]
    rfl
  · rw [lifetime_of (eventAll_only _ _ _ _), cellar_modSluices, life_handoverCounted]
  · rw [sluices_of (eventAll_only _ _ _ _) rfl, sluices_modSluices, get_map, sluices_handoverCounted]
  · rw [press_of (eventAll_only _ _ _ _)]
    exact roleBit_bit _ _ l

theorem handover_takes_active (hst : s.twin.st = .paired) (hpart : s.twin.partnerHandover = true)
    (hact : laneBit s.twin.lastActive (refLane s) = true) : ∃ t, exec .handover s = .next t ∧ swappedTo s .active t ∧
      t.sluices = s.sluices ∧ t.cellar.life.handovers = satInc s.cellar.life.handovers ∧
      ∀ l, (lane t l).press.data.k.getLsbD 6 = true := by
  obtain ⟨p, hex⟩ := handover_takes hph hm hst hpart hact
  refine ⟨_, hex, swapped_event (swapped_handedOver s true) _ _ _, ?_, ?_, fun l => ?_⟩
  · rw [sluices_of (eventAll_only _ _ _ _) rfl, sluices_handoverCounted]
  · rw [lifetime_of (eventAll_only _ _ _ _), life_handoverCounted]
  · rw [press_of (eventAll_only _ _ _ _)]
    exact roleBit_bit _ _ l

end

theorem handover_unequal {s : State} (h : (ownTwin s (refLane s)).isMatch = false) : exec .handover s = .next s := by
  refine congrArg Host.Outcome.next (if_neg ?_)
  rw [h, Bool.and_false]
  exact Bool.false_ne_true

/-! ### Loads (R353, R356) -/

section
variable {s : State}

theorem loadStart_starts (hst : s.twin.st = .active) (hp : s.twin.partner = 3) (hreq : s.twin.partnerLoadReq = true)
    (hseen : s.twin.seen = true) (hrun : s.twin.loadRun = false) (hph : s.mod.phase = .input) (hstop : s.twin.stopped = false)
    (hat : s.twin.retryAt.toNat ≤ s.mod.tickTime.toNat) : exec .loadStart s = .next (modTwin s (fun t => { t with
      loadRun := true, marks := List.range blockCount, lastBlock := blockCount - 1, loadCycles := 0, sentNow := none
      unechoed := none })) := by
  refine congrArg Host.Outcome.next (if_pos ?_)
  simp [hst, hp, hreq, hseen, hrun, hph, hstop, hat]

theorem loadStart_waits (h : s.twin.stopped = true ∨ s.mod.tickTime.toNat < s.twin.retryAt.toNat) : exec .loadStart s = .next s := by
  refine congrArg Host.Outcome.next (if_neg fun hall => ?_)
  simp only [Bool.and_eq_true, decide_eq_true_eq, Bool.not_eq_true'] at hall
  obtain ⟨⟨⟨-, hstop⟩, hat⟩, -⟩ := hall
  obtain h | h := h
  · rw [hstop] at h
    cases h
  · omega

/-- The ACTIVE's load fails: page 4 keeps the time, and the fourth in 24 h stops loads. -/
theorem loadFail_fails (hrun : s.twin.loadRun = true) (hc : 23352 ≤ s.twin.loadCycles) : ∃ p, exec .loadFail s = .next (eventAll
    (modTwin (modPages s [4] (fun f => { f with loadFails := (s.mod.tickTime :: f.loadFails).take 4 })) (fun t => { t with
      loadRun := false, marks := [], retryAt := timeAdd s.mod.tickTime 60000000000
      stopped := t.stopped || decide (3 ≤ loadFailCount s) })) 40 0x0603 p) :=
  ⟨_, congrArg Host.Outcome.next (if_pos (by rw [hrun, decide_eq_true hc]; rfl))⟩

theorem loadFail_unpairs (hrun : s.twin.loadRun = false) (hst : s.twin.st = .loading) (hc : 23352 ≤ s.twin.loadCycles) :
    ∃ p, exec .loadFail s = .next (eventAll (setTwin s .unpaired) 40 0x0603 p) :=
  ⟨_, congrArg Host.Outcome.next ((if_neg (by rw [hrun]; exact Bool.false_ne_true)).trans (if_pos (by rw [hst, decide_eq_true hc]; rfl)))⟩

theorem loadFail_early (hc : s.twin.loadCycles < 23352) : exec .loadFail s = .next s := by
  have h : decide (s.twin.loadCycles ≥ 23352) = false := decide_eq_false (by omega)
  refine congrArg Host.Outcome.next ((if_neg ?_).trans (if_neg ?_))
  · rw [h, Bool.and_false]
    exact Bool.false_ne_true
  · rw [h, Bool.and_false]
    exact Bool.false_ne_true

theorem loadRetry_lets (hne : s.twin.retryAt ≠ 0) (hat : s.twin.retryAt.toNat ≤ s.mod.tickTime.toNat) (hstop : s.twin.stopped = false) :
    exec .loadRetry s = .next { s with twin := { s.twin with retryAt := 0 } } :=
  congrArg Host.Outcome.next (if_pos (by rw [decide_eq_true hne, decide_eq_true hat, hstop]; rfl))

/-- What an authorised restart of loads does. -/
def loadsLet (u : State) : State :=
  modPages (modTwin u (fun t => { t with stopped := false, retryAt := 0 })) [4] (fun f => { f with loadFails := [] })

theorem loadsLet_nonce (u : State) : (loadsLet u).cellar.life.nonceLast = u.cellar.life.nonceLast := rfl

theorem exec_loadRestart (hstop : s.twin.stopped = true) (a : Auth) : exec (.loadRestart a) s = .next (harnal s a 10 0 loadsLet) :=
  congrArg Host.Outcome.next (if_pos hstop)

theorem loadRestart_settles (hstop : s.twin.stopped = true) (a : Auth) :
    (authOk s a = false → exec (.loadRestart a) s = .next s) ∧
    (authOk s a = true → ∃ t, exec (.loadRestart a) s = .next t ∧ changesOnly (records ++ [.twin, .lifetime]) s t ∧
      t.twin = { s.twin with stopped := false, retryAt := 0 } ∧ t.cellar.life.nonceLast = a.nonce) := by
  refine ⟨fun h => by rw [exec_loadRestart hstop, harnal_refused h],
    fun h => ⟨_, by rw [exec_loadRestart hstop, harnal_taken h], ?_, ?_, ?_⟩⟩
  · exact changes_modPages [4] _ rfl rfl (chg_modTwin _ _ (by decide)
      (changes_step (by decide) (accepted_only s a 10 0) (changesOnly_refl _ s)))
  · rw [← twin_of (accepted_only s a 10 0)]
    rfl
  · rw [loadsLet_nonce, accepted_life]

end

end Sys2Proof.Laws

/-! ## The frames of the twin pair (R224, R341, R342, R344, R353, R385) -/

namespace Sys2Proof.Laws

open Sys2Proof Sys2Proof.Machine Sys2Proof.Safety

/-! ### Which copies a lane judges (R224, R341, R385) -/

/-- A copy reaches a lane that is to judge it: the module listens, uses the medium, and the lane has accepted none in this cycle. -/
def copyComes (s : State) (l : Lane) (rx : RxFrame) : Prop :=
  twinListens s = true ∧ mediumUsed s rx.seg rx.medium = true ∧ laneBit s.twin.gotNow l = false

/-- What a lane's accepted copy gives the lane and, with the lane that stands for all, the module. -/
def copyTaken (s : State) (l : Lane) (rx : RxFrame) : State :=
  twinCount (twinGot (sessionSees s l rx 576) l rx.frame) l (fun s => twinYield (twinSeen s rx.frame) rx.frame)

theorem sessionSees_alone {s : State} {l : Lane} (h : l ≠ refLane s) (rx : RxFrame) (i : Nat) : sessionSees s l rx i = s := if_neg h

theorem sessionSees_stands {s : State} {l : Lane} (h : l = refLane s) (rx : RxFrame) (i : Nat) : sessionSees s l rx i = portSees s rx i :=
  if_pos h

/-- The port dies note a copy in what they send and mark alone. -/
theorem portSees_eq (s : State) (rx : RxFrame) (i : Nat) : ∃ tx spoiled heard,
    portSees s rx i = { s with alk := { s.alk with tx := tx, spoiled := spoiled, heard := heard } } := by
  unfold portSees
  split
  · exact ⟨_, _, _, rfl⟩
  · exact ⟨_, _, _, rfl⟩

theorem portSees_twin (s : State) (rx : RxFrame) (i : Nat) : (portSees s rx i).twin = s.twin := by
  obtain ⟨_, _, _, h⟩ := portSees_eq s rx i
  rw [h]

/-- What a copy is judged by is as before the port dies have noted it. -/
theorem twinForm_portSees (s : State) (rx : RxFrame) (i : Nat) : twinForm (portSees s rx i) rx = twinForm s rx ∧
    twinDev (portSees s rx i) rx = twinDev s rx := by
  obtain ⟨_, _, _, h⟩ := portSees_eq s rx i
  rw [h]
  exact ⟨rfl, rfl⟩

section
variable {s : State} {l : Lane} {rx : RxFrame}

theorem twin_silent (h : txDis s rx.seg rx.medium = true ∨ s.alk.node = .down) : exec (.twin l rx) s = .next s := by
  refine congrArg Host.Outcome.next (if_pos ?_)
  obtain h | h := h
  · rw [h]
    rfl
  · rw [decide_eq_true h]
    exact Bool.or_true _

variable (hx : txDis s rx.seg rx.medium = false) (hn : s.alk.node ≠ .down)
include hx hn

theorem twin_heard : exec (.twin l rx) s = .next (
    if portDrops s rx.frame then sessionSees s l rx 576
    else if !twinListens s || !mediumUsed s rx.seg rx.medium || laneBit s.twin.gotNow l then
      twinCount (sessionSees s l rx 576) l (fun s => mediumFcs s rx)
    else if !twinAccepted s l rx then twinCount (sessionSees s l rx 576) l (fun s => twinReject s rx)
    else if rx.frame.epoch ≠ s.twin.epoch then twinStale (copyTaken s l rx) l
    else twinFresh (copyTaken s l rx) l rx.frame) :=
  congrArg Host.Outcome.next (if_neg (by rw [hx, decide_eq_false hn]; exact Bool.false_ne_true))

/-- The port dies drop the module's own copies and the partner's output (R385). -/
theorem twin_dropped (hd : portDrops s rx.frame = true) : exec (.twin l rx) s = .next (sessionSees s l rx 576) := by
  rw [twin_heard hx hn, if_pos hd]

variable (hd : portDrops s rx.frame = false)
include hd

theorem twin_unheard (hc : ¬ copyComes s l rx) :
    exec (.twin l rx) s = .next (twinCount (sessionSees s l rx 576) l (fun u => mediumFcs u rx)) := by
  rw [twin_heard hx hn, if_neg (by rw [hd]; exact Bool.false_ne_true), if_pos]
  by_contra h
  simp only [Bool.or_eq_true, Bool.not_eq_true', not_or, Bool.not_eq_true, Bool.not_eq_false] at h
  obtain ⟨⟨hlisten, hused⟩, hgot⟩ := h
  exact hc ⟨hlisten, hused, hgot⟩

variable (hc : copyComes s l rx)
include hc

theorem twin_judged : exec (.twin l rx) s = .next (
    if !twinAccepted s l rx then twinCount (sessionSees s l rx 576) l (fun s => twinReject s rx)
    else if rx.frame.epoch ≠ s.twin.epoch then twinStale (copyTaken s l rx) l
    else twinFresh (copyTaken s l rx) l rx.frame) := by
  obtain ⟨hlisten, hused, hgot⟩ := hc
  rw [twin_heard hx hn, if_neg (by rw [hd]; exact Bool.false_ne_true), if_neg (by rw [hlisten, hused, hgot]; decide)]

theorem twin_refused (ha : twinAccepted s l rx = false) :
    exec (.twin l rx) s = .next (twinCount (sessionSees s l rx 576) l (fun u => twinReject u rx)) := by
  rw [twin_judged hx hn hd hc, if_pos (by rw [ha]; rfl)]

variable (ha : twinAccepted s l rx = true)
include ha

theorem twin_stale (he : rx.frame.epoch ≠ s.twin.epoch) : exec (.twin l rx) s = .next (twinStale (copyTaken s l rx) l) := by
  rw [twin_judged hx hn hd hc, if_neg (by rw [ha]; decide), if_pos he]

theorem twin_fresh (he : rx.frame.epoch = s.twin.epoch) :
    exec (.twin l rx) s = .next (twinFresh (copyTaken s l rx) l rx.frame) := by
  rw [twin_judged hx hn hd hc, if_neg (by rw [ha]; decide), if_neg (not_not_intro he)]

end

/-! ### An accepted copy (R341, R347) -/

theorem twinYield_twin (s : State) (f : Frame) : ∃ y, twinYield s f = modTwin s (fun t => { t with yield := y }) := by
  unfold twinYield
  split
  · exact ⟨_, rfl⟩
  · exact ⟨s.twin.yield, rfl⟩

/-- From s to u lane l has taken the frame f as its reference, and role, epoch and the other lanes' parts stay. -/
structure CopyGot (s : State) (l : Lane) (f : Frame) (u : State) : Prop where
  st : u.twin.st = s.twin.st
  epoch : u.twin.epoch = s.twin.epoch
  own : ownTwin u l = { ownTwin s l with rxSeq := some f.sequence, silent := 0 }
  others : ∀ m, m ≠ l → ownTwin u m = ownTwin s m
  got : laneBit u.twin.gotNow l = true

theorem twinGot_got (s : State) (l : Lane) (f : Frame) : CopyGot s l f (twinGot s l f) :=
  ⟨rfl, rfl, get_set_self _ _ _, fun _ hm => get_set_other _ _ hm, vput_true_self l⟩

theorem copyTaken_alone {s : State} {l : Lane} (h : l ≠ refLane s) (rx : RxFrame) : copyTaken s l rx = twinGot s l rx.frame := by
  unfold copyTaken
  rw [sessionSees_alone h]
  exact if_neg h

theorem copyTaken_stands {s : State} {l : Lane} (h : l = refLane s) (rx : RxFrame) : ∃ y, copyTaken s l rx =
    modTwin (twinSeen (twinGot (portSees s rx 576) l rx.frame) rx.frame) (fun t => { t with yield := y }) := by
  have hr : refLane (twinGot (portSees s rx 576) l rx.frame) = refLane s :=
    refLane_of (chg_twinGot _ l rx.frame (by decide) (chg_portSees s rx 576 (by decide) (changesOnly_refl [.alk, .twin] s)))
  obtain ⟨y, hy⟩ := twinYield_twin (twinSeen (twinGot (portSees s rx 576) l rx.frame) rx.frame) rx.frame
  refine ⟨y, Eq.trans ?_ hy⟩
  unfold copyTaken
  rw [sessionSees_stands h]
  exact if_pos (h.trans hr.symm)

/-- What the lane that stands for all takes besides: the partner's role and epoch. -/
theorem copyTaken_module {s : State} {l : Lane} (h : l = refLane s) (rx : RxFrame) :
    changesOnly [.alk, .twin] s (copyTaken s l rx) ∧ CopyGot s l rx.frame (copyTaken s l rx) ∧
    (copyTaken s l rx).twin.stale = s.twin.stale ∧ (copyTaken s l rx).twin.partnerEpoch = rx.frame.epoch ∧
    (copyTaken s l rx).twin.partner = BitVec.ofNat 4 (tState rx.frame) := by
  obtain ⟨y, hy⟩ := copyTaken_stands h rx
  rw [hy]
  refine ⟨?_, ?_, ?_⟩
  · exact chg_modTwin _ _ (by decide) (chg_twinSeen _ _ (by decide) (chg_twinGot _ l _ (by decide)
      (chg_portSees s rx 576 (by decide) (changesOnly_refl _ s))))
  · obtain ⟨hst, hepoch, hown, hothers, hgot⟩ := twinGot_got (portSees s rx 576) l rx.frame
    unfold ownTwin at hown hothers
    rw [portSees_twin] at hst hepoch hown hothers
    exact ⟨hst, hepoch, hown, hothers, hgot⟩
  · refine ⟨?_, rfl, rfl⟩
    show (portSees s rx 576).twin.stale = _
    rw [portSees_twin]

end Sys2Proof.Laws

/-! ## What an accepted frame of the partner does (R342, R344, R345, R353) -/

namespace Sys2Proof.Laws

open Sys2Proof Sys2Proof.Machine Sys2Proof.Safety

/-! ### The lane's own part -/

section
variable (s : State) (l : Lane) (f : TwinLane → TwinLane)

theorem modOwn_only : changesOnly [.twin] s (modOwn s l f) := chg_modOwn s l f (by decide) (changesOnly_refl _ s)

@[simp] theorem modOwn_st : (modOwn s l f).twin.st = s.twin.st := rfl

@[simp] theorem modOwn_own : ownTwin (modOwn s l f) l = f (ownTwin s l) := get_set_self _ _ _

theorem modOwn_others {m : Lane} (h : m ≠ l) : ownTwin (modOwn s l f) m = ownTwin s m := get_set_other _ _ h

@[simp] theorem modOwn_refLane : refLane (modOwn s l f) = refLane s := refLane_of (modOwn_only s l f)

end

@[simp] theorem setTwin_own (s : State) (x : TwinSt) (l : Lane) : ownTwin (setTwin s x) l = ownIn x (ownTwin s l) := get_map _ _ _

/-- A lane's part in a pair that is no longer matched, or that is matched, waits for no load. -/
theorem ownIn_loading {x : TwinSt} (h : x = .unpaired ∨ x = .paired) (o : TwinLane) : (ownIn x o).loading = false := by
  obtain rfl | rfl := h <;> simp [ownIn]

theorem unpair_twin (s : State) : (unpair s).twin = (setTwin s .unpaired).twin := twin_of (eventAll_only _ _ _ _)

/-! ### A stale frame (R342) -/

theorem twinStale_alone {s : State} {l : Lane} (h : l ≠ refLane s) : twinStale s l = modOwn s l (fun o => { o with words := [] }) :=
  if_neg (by rwa [modOwn_refLane])

theorem twinStale_stands {s : State} {l : Lane} (h : l = refLane s) : twinStale s l =
    modTwin (modOwn s l (fun o => { o with words := [] })) (fun t => { t with stale := satInc t.stale }) :=
  if_pos (by rwa [modOwn_refLane])

/-! ### The compare (R344) -/

/-- A lane's part after the compare of a cycle with the image m. -/
def judged (m : Image) (f : Frame) (now : BitVec 16) (o : TwinLane) : TwinLane :=
  { o with isMatch := twinEqual m f, matchRun := if twinEqual m f then min 2 (o.matchRun + 1) else 0
           mismatchCycle := if twinEqual m f then o.mismatchCycle else now }

section
variable {s : State} {l : Lane} {m : Image} (hm : cycleImage s = some m) (f : Frame)
include hm

/-- The compare changes the lane's own part alone, but for the lane that stands for a STANDBY that checks or is paired. -/
theorem twinCompare_own (h : l ≠ refLane s ∨ (s.twin.st ≠ .checking ∧ s.twin.st ≠ .paired)) :
    twinCompare s l f = modOwn s l (judged m f (cycle16 s)) := by
  unfold twinCompare
  rw [hm]
  dsimp only
  split
  · rfl
  · next hr =>
    obtain h | ⟨hc, hp⟩ := h
    · exact absurd h hr
    · split
      · next e => exact absurd e hc
      · next e => exact absurd e hp
      · rfl

variable (hr : l = refLane s)
include hr

/-- Two equal compares in a row pair a STANDBY that checks (R344). -/
theorem twinCompare_checking (hst : s.twin.st = .checking) : twinCompare s l f =
    if twinEqual m f then (if 1 ≤ (ownTwin s l).matchRun then setTwin (modOwn s l (judged m f (cycle16 s))) .paired
      else modOwn s l (judged m f (cycle16 s)))
    else unpair (modOwn s l (judged m f (cycle16 s))) := by
  unfold twinCompare
  rw [hm]
  dsimp only
  rw [if_neg (not_not_intro hr), hst]
  dsimp only
  have run : min 2 ((ownTwin s l).matchRun + 1) ≥ 2 ↔ 1 ≤ (ownTwin s l).matchRun := by omega
  unfold judged
  cases twinEqual m f
  · rfl
  · simp only [Bool.not_true, Bool.false_eq_true, if_false, if_true, run]
    rfl

/-- An unequal compare unpairs a STANDBY that is paired (R344). -/
theorem twinCompare_paired (hst : s.twin.st = .paired) : twinCompare s l f =
    if twinEqual m f then modOwn s l (judged m f (cycle16 s)) else unpair (modOwn s l (judged m f (cycle16 s))) := by
  unfold twinCompare
  rw [hm]
  dsimp only
  rw [if_neg (not_not_intro hr), hst]
  rfl

end

/-! ### The blocks of a load (R353) -/

theorem twinLoad_idle {s : State} {l : Lane} {f : Frame} (hb : (tFlags f).getLsbD 3 = false) (hl : (ownTwin s l).loading = false) :
    twinLoad s l f = s := by
  unfold twinLoad
  dsimp only
  rw [hb, Bool.and_false, Bool.false_and, if_neg Bool.false_ne_true, hl, Bool.false_and, if_neg Bool.false_ne_true]

/-- The blocks of a load find the pair in LOADING, with the lane still waiting for FINAL. -/
def loadUnder (s : State) (f : Frame) : State :=
  if s.twin.st = .unpaired then clearLoaded (loadSwitch (setTwin s .loading) (BitVec.ofNat 32 (tVintage f))) else s

theorem loadUnder_loading {s : State} {l : Lane} (h : s.twin.st = .unpaired ∨ (s.twin.st = .loading ∧ (ownTwin s l).loading = true))
    (f : Frame) : (loadUnder s f).twin.st = .loading ∧ (ownTwin (loadUnder s f) l).loading = true ∧
      refLane (loadUnder s f) = refLane s := by
  unfold loadUnder
  split
  · have hc : changesOnly [.raa, .sessions, .bank, .alk] (setTwin s .loading)
        (clearLoaded (loadSwitch (setTwin s .loading) (BitVec.ofNat 32 (tVintage f)))) :=
      chg_clearLoaded _ (by decide) (chg_loadSwitch _ _ (by decide) (changesOnly_refl _ _))
    unfold ownTwin
    rw [twin_of hc, refLane_of hc, refLane_of (chg_setTwin s .loading (by decide) (changesOnly_refl [.twin] s))]
    refine ⟨rfl, ?_, rfl⟩
    exact congrArg TwinLane.loading (setTwin_own s .loading l)
  · next hn =>
    obtain h | ⟨hst, hl⟩ := h
    · exact absurd h hn
    · exact ⟨hst, hl, rfl⟩

theorem loadDone_st {s : State} {l : Lane} (h : l = refLane s) : (loadDone s l).twin.st = .checking := by
  unfold loadDone
  exact congrArg (fun t : State => t.twin.st) (if_pos h)

/-- A lane that takes a block puts it into its load area, and ends the load with FINAL. -/
theorem twinLoad_block {s : State} {l : Lane} {f : Frame} (h : s.twin.st = .unpaired ∨ (ownTwin s l).loading = true)
    (hb : (tFlags f).getLsbD 3 = true) (hn : payNat f (0x20 + 8 * tCount f) 4 % 8192 < 7784) : ∃ u,
    changesOnly [.press, .raa, .sessions] (loadUnder s f) u ∧
    twinLoad s l f = if (ownTwin u l).loading && (tFlags f).getLsbD 4 then loadDone u l else u := by
  have takes : (decide (s.twin.st = .unpaired) || (ownTwin s l).loading) = true := by
    rw [Bool.or_eq_true, decide_eq_true_iff]
    exact h
  refine ⟨_, chg_applyBlock (loadUnder s f) l (payNat f (0x20 + 8 * tCount f) 4 % 8192)
    ((f.payload.drop (0x20 + 8 * tCount f + 4)).take 256) (by decide) (changesOnly_refl _ _), ?_⟩
  unfold twinLoad
  dsimp only
  rw [takes, hb, decide_eq_true (show payNat f (32 + 8 * tCount f) 4 % 8192 < blockCount from hn)]
  rfl

/-- A STANDBY that takes a block is LOADING, and with FINAL it checks (R344, R353). -/
theorem twinLoad_takes {s : State} {l : Lane} {f : Frame} (hr : l = refLane s)
    (h : s.twin.st = .unpaired ∨ (s.twin.st = .loading ∧ (ownTwin s l).loading = true)) (hb : (tFlags f).getLsbD 3 = true)
    (hn : payNat f (0x20 + 8 * tCount f) 4 % 8192 < 7784) :
    (twinLoad s l f).twin.st = if (tFlags f).getLsbD 4 then .checking else .loading := by
  obtain ⟨hst, hl, href⟩ := loadUnder_loading h f
  obtain ⟨u, hu, hload⟩ := twinLoad_block (h.imp_right And.right) hb hn
  have hul : (ownTwin u l).loading = true := by
    unfold ownTwin at hl ⊢
    rw [twin_of hu, hl]
  rw [hload, hul, Bool.true_and]
  split
  · exact loadDone_st (by rw [refLane_of hu, href]; exact hr)
  · rw [twin_of hu, hst]

/-! ### A frame of the partner under the own epoch (R344, R345, R348, R353) -/

/-- The batch of the ACTIVE that a STANDBY's lane takes (R345). -/
def batchTaken (f : Frame) (o : TwinLane) : TwinLane :=
  { o with words := parseWords (tCount f) ((f.payload.drop 0x20).take (8 * tCount f)) }

/-- What the module keeps of the frame is taken with the lane that stands for all. -/
def fieldsTaken (s : State) (l : Lane) (f : Frame) : State := if l = refLane s then twinFields s f else s

theorem twinFresh_active {s : State} (h : s.twin.st = .active) (l : Lane) (f : Frame) : twinFresh s l f =
    if l = refLane s then activeTakes (twinCompare (twinFields s f) l f) f else twinCompare s l f := by
  unfold twinFresh
  dsimp only
  rw [if_pos h]
  by_cases e : l = refLane s
  · rw [decide_eq_true e, if_pos rfl, if_pos rfl, if_pos e]
  · rw [decide_eq_false e, if_neg Bool.false_ne_true, if_neg Bool.false_ne_true, if_neg e]

theorem twinFresh_standby {s : State} {f : Frame} (h : standby s.twin.st = true) (hf : f.flags.getLsbD 0 = true) (l : Lane) :
    twinFresh s l f = twinLoad (modOwn (twinCompare (fieldsTaken s l f) l f) l (batchTaken f)) l f := by
  have hn : s.twin.st ≠ .active := fun e => by rw [e] at h; cases h
  unfold twinFresh fieldsTaken
  dsimp only
  rw [if_neg hn, h, hf, if_pos (show (true && true) = true from rfl)]
  by_cases e : l = refLane s
  · rw [decide_eq_true e, if_pos rfl, if_pos e]
    rfl
  · rw [decide_eq_false e, if_neg Bool.false_ne_true, if_neg e]
    rfl

end Sys2Proof.Laws

/-! ## The settling of the twin pair (R341 to R356) -/

namespace Sys2Proof.Laws

open Sys2Proof Sys2Proof.Machine Sys2Proof.Safety

/-! ### The state of the pair after a compare (R344) -/

theorem unpaired_own (s : State) (l : Lane) (g : TwinLane → TwinLane) :
    (unpair (modOwn s l g)).twin.st = .unpaired ∧ (ownTwin (unpair (modOwn s l g)) l).loading = false := by
  unfold ownTwin
  rw [unpair_twin]
  exact ⟨rfl, (congrArg TwinLane.loading (setTwin_own _ _ _)).trans (ownIn_loading (.inl rfl) _)⟩

section
variable {s : State} {l : Lane} {m : Image} (hm : cycleImage s = some m) (f : Frame) (hr : l = refLane s)
  (hl : (ownTwin s l).loading = false)
include hm hr hl

theorem compared_checking (hst : s.twin.st = .checking) :
    (twinCompare s l f).twin.st =
      (if twinEqual m f then (if 1 ≤ (ownTwin s l).matchRun then .paired else .checking) else .unpaired) ∧
    (ownTwin (twinCompare s l f) l).loading = false := by
  rw [twinCompare_checking hm f hr hst]
  split
  · split
    · exact ⟨rfl, (congrArg TwinLane.loading (setTwin_own _ _ _)).trans (ownIn_loading (.inr rfl) _)⟩
    · exact ⟨hst, by rw [modOwn_own]; exact hl⟩
  · exact unpaired_own s l _

theorem compared_paired (hst : s.twin.st = .paired) :
    (twinCompare s l f).twin.st = (if twinEqual m f then .paired else .unpaired) ∧
    (ownTwin (twinCompare s l f) l).loading = false := by
  rw [twinCompare_paired hm f hr hst]
  split
  · exact ⟨hst, by rw [modOwn_own]; exact hl⟩
  · exact unpaired_own s l _

end

theorem activeTakes_twin (s : State) (f : Frame) : (activeTakes s f).twin.st = s.twin.st ∧ (activeTakes s f).twin.own = s.twin.own := by
  have echo : ∀ e, (twinEcho s e).twin.st = s.twin.st ∧ (twinEcho s e).twin.own = s.twin.own := fun e => by
    unfold twinEcho
    split <;> exact ⟨rfl, rfl⟩
  unfold activeTakes
  dsimp only
  split
  · exact echo _
  · exact echo _

/-! ### A lane that does not stand for all -/

section
variable {s : State} {l : Lane} {rx : RxFrame} (hx : txDis s rx.seg rx.medium = false) (hn : s.alk.node ≠ .down)
  (hd : portDrops s rx.frame = false) (h : l ≠ refLane s)
include hx hn hd h

theorem twin_alone_passes (hc : ¬ copyComes s l rx ∨ twinAccepted s l rx = false) : exec (.twin l rx) s = .next s := by
  have count : ∀ f, twinCount (sessionSees s l rx 576) l f = s := fun f => by
    rw [sessionSees_alone h]
    exact if_neg h
  by_cases comes : copyComes s l rx
  · obtain hc | ha := hc
    · exact absurd comes hc
    · rw [twin_refused hx hn hd comes ha, count]
  · rw [twin_unheard hx hn hd comes, count]

variable (hc : copyComes s l rx) (ha : twinAccepted s l rx = true)
include hc ha

theorem twin_alone_stale (he : rx.frame.epoch ≠ s.twin.epoch) :
    ∃ t, exec (.twin l rx) s = .next t ∧ changesOnly [.twin] s t ∧ (∀ m, m ≠ l → ownTwin t m = ownTwin s m) ∧
      laneBit t.twin.gotNow l = true ∧ t.twin.st = s.twin.st ∧ t.twin.partner = s.twin.partner ∧
      ownTwin t l = { ownTwin s l with rxSeq := some rx.frame.sequence, silent := 0, words := [] } := by
  have hu := twinGot_got s l rx.frame
  have href : l ≠ refLane (twinGot s l rx.frame) := h
  have hex : exec (.twin l rx) s = .next (modOwn (twinGot s l rx.frame) l (fun o => { o with words := [] })) := by
    rw [twin_stale hx hn hd hc ha he, copyTaken_alone h, twinStale_alone href]
  refine ⟨_, hex, ?_, fun m hm => ?_, hu.got, hu.st, rfl, ?_⟩
  · exact chg_modOwn _ l _ (by decide) (chg_twinGot s l _ (by decide) (changesOnly_refl _ s))
  · rw [modOwn_others _ _ _ hm]
    exact hu.others m hm
  · rw [modOwn_own, hu.own]

variable (he : rx.frame.epoch = s.twin.epoch) {m : Image} (hm : cycleImage s = some m)
include he hm

theorem twin_alone_active (hst : s.twin.st = .active) :
    ∃ t, exec (.twin l rx) s = .next t ∧ changesOnly [.twin] s t ∧ (∀ k, k ≠ l → ownTwin t k = ownTwin s k) ∧
      t.twin.st = .active ∧ (ownTwin t l).isMatch = twinEqual m rx.frame ∧ (ownTwin t l).rxSeq = some rx.frame.sequence := by
  have hu := twinGot_got s l rx.frame
  have href : l ≠ refLane (twinGot s l rx.frame) := h
  have hcomp := twinCompare_own (s := twinGot s l rx.frame) hm rx.frame (.inl href)
  have hex : exec (.twin l rx) s = .next (modOwn (twinGot s l rx.frame) l (judged m rx.frame (cycle16 s))) := by
    rw [twin_fresh hx hn hd hc ha he, copyTaken_alone h, twinFresh_active (hu.st.trans hst), if_neg href, hcomp]
    rfl
  refine ⟨_, hex, ?_, fun k hk => ?_, hst, ?_⟩
  · exact chg_modOwn _ l _ (by decide) (chg_twinGot s l _ (by decide) (changesOnly_refl _ s))
  · rw [modOwn_others _ _ _ hk]
    exact hu.others k hk
  · rw [modOwn_own, hu.own]
    exact ⟨rfl, rfl⟩

theorem twin_alone_standby (hst : s.twin.st = .checking ∨ s.twin.st = .paired) (hf : rx.frame.flags.getLsbD 0 = true)
    (hl : (ownTwin s l).loading = false) (hb : (tFlags rx.frame).getLsbD 3 = false) :
    ∃ t, exec (.twin l rx) s = .next t ∧ changesOnly [.twin] s t ∧ (∀ k, k ≠ l → ownTwin t k = ownTwin s k) ∧ t.twin.st = s.twin.st ∧
      (ownTwin t l).isMatch = twinEqual m rx.frame ∧
      (ownTwin t l).words = parseWords (tCount rx.frame) ((rx.frame.payload.drop 0x20).take (8 * tCount rx.frame)) := by
  have hu := twinGot_got s l rx.frame
  have href : l ≠ refLane (twinGot s l rx.frame) := h
  have hstand : standby s.twin.st = true := by obtain e | e := hst <;> rw [e] <;> rfl
  have hfields : fieldsTaken (twinGot s l rx.frame) l rx.frame = twinGot s l rx.frame := if_neg href
  have hcomp := twinCompare_own (s := twinGot s l rx.frame) hm rx.frame (.inl href)
  have hex : exec (.twin l rx) s =
      .next (modOwn (modOwn (twinGot s l rx.frame) l (judged m rx.frame (cycle16 s))) l (batchTaken rx.frame)) := by
    rw [twin_fresh hx hn hd hc ha he, copyTaken_alone h, twinFresh_standby (by rw [hu.st]; exact hstand) hf, hfields, hcomp,
      twinLoad_idle hb (by rw [modOwn_own, modOwn_own, hu.own]; exact hl)]
    rfl
  refine ⟨_, hex, ?_, fun k hk => ?_, rfl, ?_⟩
  · exact chg_modOwn _ l _ (by decide) (chg_modOwn _ l _ (by decide) (chg_twinGot s l _ (by decide) (changesOnly_refl _ s)))
  · rw [modOwn_others _ _ _ hk, modOwn_others _ _ _ hk]
    exact hu.others k hk
  · rw [modOwn_own, modOwn_own]
    exact ⟨rfl, rfl⟩

end

/-! ### The lane that stands for all (log entry 36) -/

theorem stands_portSees {s : State} {l : Lane} (h : l = refLane s) (rx : RxFrame) (i : Nat) : l = refLane (portSees s rx i) :=
  h.trans (refLane_of (chg_portSees s rx i (by decide) (changesOnly_refl [.alk] s))).symm

theorem mediumFcs_only (s : State) (rx : RxFrame) : changesOnly [.alk, .lifetime] s (mediumFcs s rx) :=
  chg_mediumFcs s rx (by decide) (changesOnly_refl _ s)

theorem twinReject_twin (s : State) (rx : RxFrame) : (twinReject s rx).twin = { s.twin with rejected := satInc s.twin.rejected } := by
  have hs : (modTwin (mediumFcs s rx) (fun t => { t with rejected := satInc t.rejected })).twin =
      { s.twin with rejected := satInc s.twin.rejected } := by
    rw [← twin_of (mediumFcs_only s rx)]
    rfl
  unfold twinReject
  dsimp only
  split
  · exact (twin_of (chg_timingError _ _ _ (by decide) (changesOnly_refl (records ++ [.lifetime, .free]) _))).trans hs
  · exact hs

theorem timingError_total (s : State) (n : Option Nat) (d : Int) :
    (timingError s n d).cellar.life.timingTotal = satInc s.cellar.life.timingTotal := by
  unfold timingError
  rw [lifetime_of (recordAll_only _ _ _)]
  rfl

/-- A frame of the right form outside its window counts against its sender (R224). -/
theorem twinReject_timing {s : State} {rx : RxFrame} (hf : twinForm s rx = true) (hw : inSlot (twinDev s rx) = false) :
    (twinReject s rx).cellar.life.timingTotal = satInc s.cellar.life.timingTotal := by
  have good : fcsGood rx.frame = true ∧ rx.frame.type = 0x13 := by
    simp only [twinForm, Bool.and_eq_true, decide_eq_true_eq] at hf
    obtain ⟨⟨⟨⟨⟨hfcs, htype⟩, -⟩, -⟩, -⟩, -⟩ := hf
    exact ⟨hfcs, htype⟩
  have known : knownType rx.frame = true := by
    unfold knownType
    rw [good.2]
    rfl
  have hm : mediumFcs s rx = s := if_pos ⟨good.1, known⟩
  unfold twinReject
  rw [hm, hf, hw, if_pos (show (true && !false) = true from rfl), timingError_total]
  rfl

section
variable {s : State} {l : Lane} {rx : RxFrame} (hx : txDis s rx.seg rx.medium = false) (hn : s.alk.node ≠ .down)
  (hd : portDrops s rx.frame = false) (h : l = refLane s)
include hx hn hd h

theorem twin_stands_twice (hgot : laneBit s.twin.gotNow l = true) (hfcs : fcsGood rx.frame = true) (hk : knownType rx.frame = true) :
    ∃ t, exec (.twin l rx) s = .next t ∧ changesOnly [.alk] s t := by
  have hc : ¬ copyComes s l rx := fun ⟨_, _, hnone⟩ => by rw [hnone] at hgot; cases hgot
  refine ⟨portSees s rx 576, ?_, chg_portSees s rx 576 (by decide) (changesOnly_refl _ s)⟩
  rw [twin_unheard hx hn hd hc, sessionSees_stands h]
  exact congrArg Host.Outcome.next ((if_pos (stands_portSees h rx 576)).trans (if_pos ⟨hfcs, hk⟩))

variable (hc : copyComes s l rx)
include hc

theorem twin_stands_refused (ha : twinAccepted s l rx = false) :
    ∃ t, exec (.twin l rx) s = .next t ∧ changesOnly (records ++ [.alk, .twin, .lifetime, .free]) s t ∧
      t.twin = { s.twin with rejected := satInc s.twin.rejected } ∧
      (twinForm s rx = true → inSlot (twinDev s rx) = false → t.cellar.life.timingTotal = satInc s.cellar.life.timingTotal) := by
  have hport := chg_portSees s rx 576 (by decide) (changesOnly_refl [.alk] s)
  have hex : exec (.twin l rx) s = .next (twinReject (portSees s rx 576) rx) := by
    rw [twin_refused hx hn hd hc ha, sessionSees_stands h]
    exact congrArg Host.Outcome.next (if_pos (stands_portSees h rx 576))
  refine ⟨_, hex, ?_, ?_, fun hf hw => ?_⟩
  · exact chg_twinReject _ rx (by decide) (changes_step (by decide) hport (changesOnly_refl _ s))
  · rw [twinReject_twin, portSees_twin]
  · obtain ⟨hform, hdev⟩ := twinForm_portSees s rx 576
    rw [twinReject_timing (hform.trans hf) (hdev ▸ hw), lifetime_of hport]

variable (ha : twinAccepted s l rx = true)
include ha

theorem twin_stands_stale (he : rx.frame.epoch ≠ s.twin.epoch) :
    ∃ t, exec (.twin l rx) s = .next t ∧ changesOnly [.alk, .twin] s t ∧
      t.twin.stale = satInc s.twin.stale ∧ t.twin.st = s.twin.st ∧ (ownTwin t l).words = [] ∧ t.twin.partnerEpoch = rx.frame.epoch ∧
      t.twin.partner = BitVec.ofNat 4 (tState rx.frame) ∧ (ownTwin t l).rxSeq = some rx.frame.sequence ∧ t.twin.epoch = s.twin.epoch ∧
      ∀ m, m ≠ l → ownTwin t m = ownTwin s m := by
  obtain ⟨hu, hgot, hstale, hpe, hp⟩ := copyTaken_module h rx
  have href : l = refLane (copyTaken s l rx) := h.trans (refLane_of hu).symm
  have hex : exec (.twin l rx) s = .next (modTwin (modOwn (copyTaken s l rx) l (fun o => { o with words := [] }))
      (fun t => { t with stale := satInc t.stale })) := by
    rw [twin_stale hx hn hd hc ha he, twinStale_stands href]
  have own : ∀ m, ownTwin (modTwin (modOwn (copyTaken s l rx) l (fun o => { o with words := [] })) (fun t => { t with stale := satInc t.stale })) m =
      ownTwin (modOwn (copyTaken s l rx) l (fun o => { o with words := [] })) m := fun _ => rfl
  refine ⟨_, hex, chg_modTwin _ _ (by decide) (chg_modOwn _ l _ (by decide) hu), congrArg satInc hstale, hgot.st, ?_, hpe, hp, ?_, hgot.epoch,
    fun m hm => ?_⟩
  · rw [own, modOwn_own]
  · rw [own, modOwn_own, hgot.own]
  · rw [own, modOwn_others _ _ _ hm]
    exact hgot.others m hm

end

/-! ### A frame under the own epoch, in the lane that stands for all (R344, R348, R353) -/

/-- The state in which the lane compares, with what the module keeps of the frame (R344, R348). -/
def copyKept (s : State) (l : Lane) (rx : RxFrame) : State := twinFields (copyTaken s l rx) rx.frame

/-- The lane still stands for all, with the image of the cycle, the role and its own part but for its new reference. -/
structure KeptAs (s : State) (l : Lane) (rx : RxFrame) (m : Image) (v : State) : Prop where
  frame : changesOnly [.alk, .twin] s v
  stands : l = refLane v
  st : v.twin.st = s.twin.st
  own : ownTwin v l = { ownTwin s l with rxSeq := some rx.frame.sequence, silent := 0 }
  image : cycleImage v = some m

theorem copyKept_as {s : State} {l : Lane} (h : l = refLane s) (rx : RxFrame) {m : Image} (hm : cycleImage s = some m) :
    KeptAs s l rx m (copyKept s l rx) := by
  obtain ⟨hu, hgot, -, -, -⟩ := copyTaken_module h rx
  have hv := chg_twinFields _ rx.frame (by decide) hu
  refine ⟨hv, h.trans (refLane_of hv).symm, hgot.st, hgot.own, ?_⟩
  rw [← hm]
  unfold cycleImage copyKept
  rw [same_mod hv rfl rfl]

section
variable {s : State} {l : Lane} {rx : RxFrame} (hx : txDis s rx.seg rx.medium = false) (hn : s.alk.node ≠ .down)
  (hd : portDrops s rx.frame = false) (h : l = refLane s) (hc : copyComes s l rx) (ha : twinAccepted s l rx = true)
  (he : rx.frame.epoch = s.twin.epoch)
include hx hn hd h hc ha he

theorem twin_stands_standby (hs : standby s.twin.st = true) (hf : rx.frame.flags.getLsbD 0 = true) : exec (.twin l rx) s =
    .next (twinLoad (modOwn (twinCompare (copyKept s l rx) l rx.frame) l (batchTaken rx.frame)) l rx.frame) := by
  obtain ⟨hu, hgot, -, -, -⟩ := copyTaken_module h rx
  have hfields : fieldsTaken (copyTaken s l rx) l rx.frame = copyKept s l rx := if_pos (h.trans (refLane_of hu).symm)
  rw [twin_fresh hx hn hd hc ha he, twinFresh_standby (by rw [hgot.st]; exact hs) hf, hfields]

/-- A STANDBY that waits for no load, and a frame without a block: the compare decides the state of the pair (R344, R345). -/
theorem twin_stands_compares (hs : standby s.twin.st = true) (hf : rx.frame.flags.getLsbD 0 = true)
    (hb : (tFlags rx.frame).getLsbD 3 = false) (hl : (ownTwin (twinCompare (copyKept s l rx) l rx.frame) l).loading = false) :
    ∃ t, exec (.twin l rx) s = .next t ∧ changesOnly (records ++ [.alk, .twin]) s t ∧
      t.twin.st = (twinCompare (copyKept s l rx) l rx.frame).twin.st ∧
      (ownTwin t l).words = parseWords (tCount rx.frame) ((rx.frame.payload.drop 0x20).take (8 * tCount rx.frame)) := by
  obtain ⟨hu, -⟩ := copyTaken_module h rx
  have hex : exec (.twin l rx) s = .next (modOwn (twinCompare (copyKept s l rx) l rx.frame) l (batchTaken rx.frame)) := by
    rw [twin_stands_standby hx hn hd h hc ha he hs hf, twinLoad_idle hb (by rw [modOwn_own]; exact hl)]
  refine ⟨_, hex, ?_, rfl, by rw [modOwn_own]; rfl⟩
  exact chg_modOwn _ l _ (by decide) (chg_twinCompare _ l _ (by decide)
    (changes_step (by decide) (chg_twinFields _ rx.frame (by decide) hu) (changesOnly_refl _ s)))

variable {m : Image} (hm : cycleImage s = some m)
include hm

theorem twin_stands_active (hst : s.twin.st = .active) :
    ∃ t, exec (.twin l rx) s = .next t ∧ changesOnly [.alk, .twin] s t ∧ t.twin.st = .active ∧
      (ownTwin t l).isMatch = twinEqual m rx.frame := by
  obtain ⟨hframe, -, hkst, hown, himage⟩ := copyKept_as h rx hm
  obtain ⟨hu, hgot, -, -, -⟩ := copyTaken_module h rx
  have hact : (copyKept s l rx).twin.st = .active := hkst.trans hst
  have hcomp := twinCompare_own (l := l) himage rx.frame (.inr (by rw [hact]; decide))
  have hex : exec (.twin l rx) s = .next (activeTakes (modOwn (copyKept s l rx) l (judged m rx.frame (cycle16 (copyKept s l rx)))) rx.frame) := by
    rw [twin_fresh hx hn hd hc ha he, twinFresh_active (hgot.st.trans hst), if_pos (h.trans (refLane_of hu).symm), ← hcomp]
    rfl
  obtain ⟨hts, hto⟩ := activeTakes_twin (modOwn (copyKept s l rx) l (judged m rx.frame (cycle16 (copyKept s l rx)))) rx.frame
  refine ⟨_, hex, ?_, hts.trans hact, ?_⟩
  · exact chg_activeTakes _ _ (by decide) (chg_modOwn _ l _ (by decide) hframe)
  · unfold ownTwin
    rw [hto]
    exact congrArg TwinLane.isMatch (modOwn_own _ _ _)

theorem twin_stands_checking (hst : s.twin.st = .checking) (hf : rx.frame.flags.getLsbD 0 = true) (hl : (ownTwin s l).loading = false)
    (hb : (tFlags rx.frame).getLsbD 3 = false) : ∃ t, exec (.twin l rx) s = .next t ∧ changesOnly (records ++ [.alk, .twin]) s t ∧
      t.twin.st = (if twinEqual m rx.frame then (if 1 ≤ (ownTwin s l).matchRun then .paired else .checking) else .unpaired) ∧
      (ownTwin t l).words = parseWords (tCount rx.frame) ((rx.frame.payload.drop 0x20).take (8 * tCount rx.frame)) := by
  obtain ⟨-, hstands, hkst, hown, himage⟩ := copyKept_as h rx hm
  obtain ⟨hcst, hcl⟩ := compared_checking himage rx.frame hstands (by rw [hown]; exact hl) (hkst.trans hst)
  rw [hown] at hcst
  rw [← hcst]
  exact twin_stands_compares hx hn hd h hc ha he (by rw [hst]; rfl) hf hb hcl

theorem twin_stands_paired (hst : s.twin.st = .paired) (hf : rx.frame.flags.getLsbD 0 = true) (hl : (ownTwin s l).loading = false)
    (hb : (tFlags rx.frame).getLsbD 3 = false) : ∃ t, exec (.twin l rx) s = .next t ∧ changesOnly (records ++ [.alk, .twin]) s t ∧
      t.twin.st = (if twinEqual m rx.frame then .paired else .unpaired) ∧
      (ownTwin t l).words = parseWords (tCount rx.frame) ((rx.frame.payload.drop 0x20).take (8 * tCount rx.frame)) := by
  obtain ⟨-, hstands, hkst, hown, himage⟩ := copyKept_as h rx hm
  obtain ⟨hcst, hcl⟩ := compared_paired himage rx.frame hstands (by rw [hown]; exact hl) (hkst.trans hst)
  rw [← hcst]
  exact twin_stands_compares hx hn hd h hc ha he (by rw [hst]; rfl) hf hb hcl

/-- A block takes the pair into LOADING, and with FINAL into CHECKING (R344, R353). -/
theorem twin_stands_loads (hst : s.twin.st = .unpaired ∨ (s.twin.st = .loading ∧ (ownTwin s l).loading = true))
    (hf : rx.frame.flags.getLsbD 0 = true) (hb : (tFlags rx.frame).getLsbD 3 = true)
    (hblock : payNat rx.frame (0x20 + 8 * tCount rx.frame) 4 % 8192 < 7784) : ∃ t, exec (.twin l rx) s = .next t ∧
      t.twin.st = if (tFlags rx.frame).getLsbD 4 then .checking else .loading := by
  obtain ⟨-, hstands, hkst, hown, himage⟩ := copyKept_as h rx hm
  have hs : standby s.twin.st = true := by
    obtain e | ⟨e, -⟩ := hst <;> rw [e] <;> rfl
  have hapart : s.twin.st ≠ .checking ∧ s.twin.st ≠ .paired := by
    obtain e | ⟨e, -⟩ := hst <;> rw [e] <;> decide
  have hcomp := twinCompare_own (l := l) himage rx.frame (.inr (by rw [hkst]; exact hapart))
  refine ⟨_, twin_stands_standby hx hn hd h hc ha he hs hf, ?_⟩
  rw [hcomp]
  refine twinLoad_takes (by rw [modOwn_refLane, modOwn_refLane]; exact hstands) ?_ hb hblock
  rw [modOwn_own, modOwn_own, modOwn_st, modOwn_st, hkst, hown]
  exact hst

end

/-! ### The statement -/

/-- Settles O52: a change of role is one under the next epoch with its record, a load is marked or ends, and a lane's copy of a frame is
dropped, refused, stale or compared, with the module where the lane stands for all. -/
theorem twinPair : Obligations.TwinPair := by
  intro s
  refine ⟨takeover_swaps, fun hst hph l hm => ⟨_, takeover_judged hst hph hm, chg_roleBit s _ (by decide) (changesOnly_refl _ s),
      fun m => roleBit_bit s _ m⟩, takeover_idle, handoverRequest_settles s,
    fun hph hm => ⟨handover_leaves_active hph hm, handover_takes_active hph hm⟩, handover_unequal,
    fun hst hp hreq hseen hrun hph => ⟨fun hstop hat => ?_, loadStart_waits⟩, fun hrun hcyc => ?_, fun hrun hst hcyc => ?_, loadFail_early,
    loadRetry_lets, fun a hstop => loadRestart_settles hstop a, fun l rx => ?_⟩
  · refine ⟨_, loadStart_starts hst hp hreq hseen hrun hph hstop hat, chg_modTwin s _ (by decide) (changesOnly_refl _ s), rfl, rfl, fun i => ?_,
      hst, rfl⟩
    rw [modTwin_twin]
    dsimp only
    exact List.mem_range
  · obtain ⟨p, hex⟩ := loadFail_fails hrun hcyc
    refine ⟨_, hex, frame_next hex (chg_execLoadFail s s (by decide) (changesOnly_refl _ s)), ?_⟩
    rw [twin_of (eventAll_only _ _ _ _), modTwin_twin]
    dsimp only
    exact ⟨rfl, rfl, rfl, rfl⟩
  · obtain ⟨p, hex⟩ := loadFail_unpairs hrun hst hcyc
    refine ⟨_, hex, frame_next hex (chg_execLoadFail s s (by decide) (changesOnly_refl _ s)), ?_⟩
    rw [twin_of (eventAll_only _ _ _ _)]
    rfl
  · refine ⟨twin_silent, fun hx hn => ⟨fun hd => ⟨_, twin_dropped hx hn hd, chg_sessionSees s l rx 576 (by decide) (changesOnly_refl _ s)⟩,
      fun hd => ⟨fun h => ⟨twin_alone_passes hx hn hd h, fun hc ha => ⟨twin_alone_stale hx hn hd h hc ha, fun he hf m hm =>
          ⟨twin_alone_active hx hn hd h hc ha he hm, fun hst hl hb => twin_alone_standby hx hn hd h hc ha he hm hst hf hl hb⟩⟩⟩,
        twin_stands_twice hx hn hd, fun h hc => ⟨twin_stands_refused hx hn hd h hc, twin_stands_stale hx hn hd h hc, fun ha he hf m hm => ?_⟩⟩⟩⟩
    exact ⟨twin_stands_active hx hn hd h hc ha he hm, fun hst hl hb => twin_stands_checking hx hn hd h hc ha he hm hst hf hl hb,
      fun hst hl hb => twin_stands_paired hx hn hd h hc ha he hm hst hf hl hb,
      fun hst hb hblock => twin_stands_loads hx hn hd h hc ha he hm hst hf hb hblock⟩

end Sys2Proof.Laws

/-! ## Latches found without a cause (R175, R176) -/

namespace Sys2Proof.Laws

open Sys2Proof Sys2Proof.Machine Sys2Proof.Safety

theorem exec_uncaused {s : State} (h : operating s.mod.st = true) (l : Lane) :
    exec (.uncaused l) s = .next (latchRule (setLatch s l .uncaused)) := by
  show Host.Outcome.next (if s.mod.st = .off then s else _) = _
  rw [if_neg fun k => by rw [k] at h; cases h]

theorem notSafe_of_operating {s : State} (h : operating s.mod.st = true) : s.mod.st ≠ .safe := fun k => by
  rw [k] at h
  cases h

theorem latched_setLatch_other (s : State) (c : LatchCause) {l m : Lane} (h : m ≠ l) : latched (setLatch s l c) m = latched s m := by
  unfold latched setLatch
  rw [sluices_modSluice, get_set_other _ _ h]

/-- A latch that is set stays set while another is set. -/
theorem latched_setLatch_of {s : State} {m : Lane} (h : latched s m = true) (l : Lane) (c : LatchCause) : latched (setLatch s l c) m = true := by
  by_cases e : m = l
  · subst e
    exact setLatch_self s m c
  · rw [latched_setLatch_other s c e, h]

/-- Two different latches are two of the list. -/
theorem two_latched {s : State} {l m : Lane} (hne : m ≠ l) (hl : latched s l = true) (hm : latched s m = true) :
    2 ≤ (Lane.list.filter (latched s)).length := by
  have pair : [l, m].Nodup := by simp [Ne.symm hne]
  have sub : [l, m] ⊆ Lane.list.filter (latched s) := fun k hk => by
    obtain rfl | hk := List.mem_cons.1 hk
    · exact List.mem_filter.2 ⟨mem_laneList _, hl⟩
    · rw [List.mem_singleton.1 hk]
      exact List.mem_filter.2 ⟨mem_laneList _, hm⟩
  exact (pair.subperm sub).length_le

/-- The condition of R176 takes the module into SAFE. -/
theorem latchRule_out {s : State} (h : latchedOut s = true) : latchRule s = enterSafe s := by
  unfold latchRule
  rw [if_pos h]

/-- The latch of a serving lane in a pair (R176). -/
theorem latchedOut_pair {s : State} {l : Lane} (ho : operating s.mod.st = true) (h2 : (servingLanes s).length = 2) (hs : lst s l = .serving)
    (hl : latched s l = true) : latchedOut s = true := by
  have one : 0 < ((servingLanes s).filter (latched s)).length :=
    List.length_pos_of_mem (List.mem_filter.2 ⟨mem_servingLanes.2 hs, hl⟩)
  simp [latchedOut, h2, ho, one]

theorem latched_loneFound (s : State) (l m : Lane) : latched (loneFound s l) m = latched s m := by
  unfold latched
  rw [sluices_of (loneFound_frame s l) rfl]
  show ((s.sluices.set l _).get m).latch = _
  by_cases e : m = l
  · rw [e, get_set_self]
  · rw [get_set_other _ _ e]

/-- The two other Sluices count a lone latch (R176, R196). -/
theorem counts_loneFound (s : State) {l m : Lane} (h : m ≠ l) :
    (loneFound s l).cellar.life.dissent.get m = satInc (s.cellar.life.dissent.get m) := by
  show ((s.cellar.life.dissent.map _).get m) = _
  rw [get_map, if_pos]
  revert h
  cases l <;> cases m <;> decide

/-- An isolation opens no latch (R14). -/
theorem latched_isolate {s : State} {m : Lane} (h : latched s m = true) (l : Lane) (c : IsoCause) : latched (isolate s l c) m = true :=
  (keeps_isolate s l c (Keeps.refl false false s)).latched rfl m h

theorem serving_of_three {s : State} (h : servingLanes s = [.A, .B, .C]) (m : Lane) : lst s m = .serving :=
  mem_servingLanes.1 (by rw [h]; exact mem_laneList m)

/-- Settles O27: with the latch found set the latch rule decides, on one latch while three lanes serve, on two, or on that of a pair. -/
theorem latchRule : Obligations.LatchRule := by
  intro l s ho
  have found : latched (setLatch s l .uncaused) l = true := setLatch_self s l .uncaused
  have safe : latchedOut (setLatch s l .uncaused) = true →
      ∃ t, exec (.uncaused l) s = .next t ∧ t.mod.st = .safe ∧ ∀ m, (t.sluices.get m).latch = true := fun h =>
    ⟨enterSafe (setLatch s l .uncaused), by rw [exec_uncaused ho, latchRule_out h], enterSafe_st _,
      enterSafe_latch (setLatch s l .uncaused) (notSafe_of_operating ho)⟩
  refine ⟨fun h3 hn => ?_, fun ⟨m, hne, hm⟩ => safe ?_, fun h2 hs => safe (latchedOut_pair ho h2 hs found)⟩
  · let u := setLatch s l .uncaused
    have hs : ∀ m, lst u m = .serving := serving_of_three h3
    have hi : isolatable (lst (loneFound u l) l) = true := by rw [lst_loneFound, hs]; rfl
    obtain ⟨out, -⟩ := isolate_out (loneFound u l) l .voteDissent hi
    obtain ⟨-, ⟨_, life, -⟩, -, -⟩ := isolate_more (loneFound u l) l .voteDissent hi
    obtain ⟨left, held, lone, others⟩ := lone_effect (hs l)
    refine ⟨_, by rw [exec_uncaused ho, latchRule_lone hs ho found fun m e => (latched_setLatch_other s _ e).trans (hn m e)],
      latched_isolate (by rw [latched_loneFound]; exact found) l _, lone, held, out.cause, left, fun m e => others m e, fun m e => ?_⟩
    rw [life]
    exact counts_loneFound u e
  · have := two_latched hne found (latched_setLatch_of hm l .uncaused)
    simp [latchedOut, this]

end Sys2Proof.Laws

/-! ## The digest check after a vote (R172, R194) -/

namespace Sys2Proof.Laws

open Sys2Proof Sys2Proof.Machine Sys2Proof.Safety

/-! ### Latches set lane by lane -/

/-- A Sluice after it sets its latch with a cause in a cycle (R175, R177). -/
def shutSluice (c : LatchCause) (cycle : BitVec 16) (x : Sluice) : Sluice :=
  if x.latch then x else { x with latch := true, latchCause := c, latchCycle := cycle, now := 0, next := 0 }

theorem shutSluice_latched {x : Sluice} (h : x.latch = true) (c : LatchCause) (cycle : BitVec 16) : shutSluice c cycle x = x := if_pos h

theorem shutSluice_open {x : Sluice} (h : x.latch = false) (c : LatchCause) (cycle : BitVec 16) :
    shutSluice c cycle x = { x with latch := true, latchCause := c, latchCycle := cycle, now := 0, next := 0 } :=
  if_neg (by rw [h]; exact Bool.false_ne_true)

theorem latch_shutSluice (c : LatchCause) (cycle : BitVec 16) (x : Sluice) : (shutSluice c cycle x).latch = true := by
  unfold shutSluice
  split
  · assumption
  · rfl

theorem sluice_setLatch (s : State) (l m : Lane) (c : LatchCause) :
    (setLatch s l c).sluices.get m = if m = l then shutSluice c (cycle16 s) (s.sluices.get m) else s.sluices.get m := by
  show (s.sluices.set l (shutSluice c (cycle16 s) (s.sluices.get l))).get m = _
  by_cases e : m = l
  · subst e
    rw [get_set_self, if_pos rfl]
  · rw [get_set_other _ _ e, if_neg e]

/-- A fold whose steps set latches with one cause, and do to Sluices and cycle nothing else. -/
theorem sluice_setLatches {f : State → Lane → State} {c : LatchCause}
    (hf : ∀ t l, (f t l).sluices = (setLatch t l c).sluices ∧ cycle16 (f t l) = cycle16 t) (xs : List Lane) (s : State) (m : Lane) :
    (foldS xs f s).sluices.get m = if m ∈ xs then shutSluice c (cycle16 s) (s.sluices.get m) else s.sluices.get m := by
  unfold foldS
  induction xs generalizing s with
  | nil => rfl
  | cons a xs ih =>
    obtain ⟨sluices, cycle⟩ := hf s a
    rw [List.foldl_cons, ih, cycle, sluices, sluice_setLatch]
    by_cases e : m = a
    · rw [if_pos e, if_pos (List.mem_cons.2 (.inl e)), shutSluice_latched (latch_shutSluice _ _ _), ite_self]
    · simp only [List.mem_cons, e, false_or, if_false]

/-- The entry into SAFE sets every latch that is open with cause FOLLOW (R176). -/
theorem sluice_enterSafe {s : State} (h : s.mod.st ≠ .safe) (m : Lane) :
    (enterSafe s).sluices.get m = shutSluice .follow (cycle16 s) (s.sluices.get m) := by
  have ended : ∀ t l, (endBist (setLatch t l .follow) l).sluices = (setLatch t l .follow).sluices ∧
      cycle16 (endBist (setLatch t l .follow) l) = cycle16 t := fun t l => by
    have frame := chg_endBist (setLatch t l .follow) l (by decide) (changesOnly_refl [.life, .eic, .staging, .bist, .ports, .log] _)
    refine ⟨sluices_of frame rfl, ?_⟩
    unfold cycle16
    rw [same_mod frame rfl rfl]
    rfl
  unfold enterSafe
  rw [if_neg h, sluices_of (chg_recordAll _ _ _ (by decide) (changesOnly_refl records _)) rfl,
    sluices_of (chg_setModule _ _ (by decide) (changesOnly_refl (records ++ [.mode, .free]) _)) rfl, sluices_modLanes,
    sluice_setLatches ended, if_pos (mem_laneList m)]

/-! ### What the Sluices send and find -/

/-- The digest of a Sluice without an error is over its result and its view of the voting lanes (R172). -/
theorem sentDigest_result {s : State} {err : PerLane (BitVec 64)} {m : Lane} {r : Image} (hr : (s.sluices.get m).result = some r)
    (h0 : err.get m = 0) : sentDigest s err m = digestOf r (s.sluices.get m).voting := by
  unfold sentDigest
  dsimp only
  rw [hr]
  dsimp only
  rw [h0]
  exact BitVec.xor_zero

/-- The digests that the Sluices send. -/
def digestsSent (s : State) (err : PerLane (BitVec 64)) : PerLane (BitVec 64) := (PerLane.all ()).map (fun m _ => sentDigest s err m)

theorem get_digestsSent (s : State) (err : PerLane (BitVec 64)) (m : Lane) : (digestsSent s err).get m = sentDigest s err m := get_map _ _ m

theorem exec_voteDigest {s : State} (ho : operating s.mod.st = true) (hp : s.mod.phase = .vote) (hr : s.mod.result.isSome = true)
    (err : PerLane (BitVec 64)) : exec (.voteDigest err) s = .next (digestCheck s (digestsSent s err)) := by
  show execVoteDigest err s = _
  unfold execVoteDigest
  rw [if_pos (by simp [ho, hp, hr])]
  rfl

/-- The Sluices of the voting lanes note equal digests (R194). -/
def digestsNoted (s : State) : State := modSluices s (fun m x => if serving s m then { x with digestOk := true } else x)

theorem sluice_digestsNoted {s : State} {m : Lane} (h : lst s m = .serving) : ((digestsNoted s).sluices.get m).digestOk = true := by
  have hs : serving s m = true := decide_eq_true h
  unfold digestsNoted
  rw [sluices_modSluices, get_map, if_pos hs]

theorem chg_digestsNoted (s : State) : changesOnly [.sluices] s (digestsNoted s) := changes_modSluices _ rfl (changesOnly_refl _ s)

/-- What the digests of three voting lanes decide (R172). -/
theorem digestCheck_three {s : State} (h : servingLanes s = [.A, .B, .C]) (d : PerLane (BitVec 64)) : digestCheck s d =
    if d.get .A = d.get .B then (if d.get .A = d.get .C then digestsNoted s else digestDissent s .C)
    else if d.get .A = d.get .C then digestDissent s .B
    else if d.get .B = d.get .C then digestDissent s .A
    else digestSafe s .noMajority := by
  unfold digestCheck
  rw [h]
  rfl

theorem digestCheck_pair {s : State} {a b : Lane} (h : servingLanes s = [a, b]) (d : PerLane (BitVec 64)) :
    digestCheck s d = if d.get a = d.get b then digestsNoted s else digestSafe s .pairDisagree := by
  unfold digestCheck
  rw [h]
  rfl

/-! ### One digest of three differs (R172, R173, R196) -/

theorem laneBit_laneBits (f : Lane → Bool) (m : Lane) : laneBit (laneBits f) m = f m := by
  unfold laneBit laneBits
  rw [getLsbD_bitsFrom]
  cases m <;> rfl

/-- The Sluices of a set have found a dissenter, before it is isolated. -/
def dissentFoundBy (s : State) (l : Lane) (found : BitVec 3) : State :=
  countDissent (modSluices s (fun m x => if laneBit found m then { x with dissent := vput x.dissent l.idx true, outcome := 2 } else x)) found

theorem digestDissent_eq (s : State) (l : Lane) : digestDissent s l =
    isolate (dissentFoundBy (voteTested s false) l (laneBits (fun m => decide (m ≠ l) && serving s m))) l .voteDissent := rfl

theorem sluice_dissentFoundBy (s : State) (l : Lane) (found : BitVec 3) (m : Lane) : (dissentFoundBy s l found).sluices.get m =
    if laneBit found m then { s.sluices.get m with dissent := vput (s.sluices.get m).dissent l.idx true, outcome := 2 }
    else s.sluices.get m := by
  show ((modSluices s _).sluices.get m) = _
  rw [sluices_modSluices, get_map]

theorem latched_dissentFoundBy (s : State) (l : Lane) (found : BitVec 3) (m : Lane) :
    latched (dissentFoundBy s l found) m = latched s m := by
  unfold latched
  rw [sluice_dissentFoundBy]
  split
  · rfl
  · rfl

theorem counts_dissentFoundBy (s : State) (l : Lane) (found : BitVec 3) (m : Lane) : (dissentFoundBy s l found).cellar.life.dissent.get m =
    if laneBit found m then satInc (s.cellar.life.dissent.get m) else s.cellar.life.dissent.get m := by
  show ((s.cellar.life.dissent.map _).get m) = _
  rw [get_map]

theorem othersServing_three {s : State} (h : servingLanes s = [.A, .B, .C]) (l : Lane) : (othersServing s l).length = 2 := by
  unfold othersServing
  rw [h]
  cases l <;> rfl

/-- With three lanes serving and quiet latches, the dissenter that a set of Sluices has found is isolated, and the others go on. -/
theorem outvoted_found {s : State} (h3 : servingLanes s = [.A, .B, .C]) (hq : latchesQuiet s) (l : Lane) (found : BitVec 3) :
    outvoted s l (laneBit found) (isolate (dissentFoundBy s l found) l .voteDissent) := by
  have hs : ∀ m, lst (dissentFoundBy s l found) m = .serving := serving_of_three h3
  have hi : isolatable (lst (dissentFoundBy s l found) l) = true := by rw [hs]; rfl
  have goesOn : ¬ leavesSafe (dissentFoundBy s l found) l :=
    staysOut (othersServing_three h3 l) (quiet_of (s := s) (fun _ => rfl) (latched_dissentFoundBy s l found) hq)
  obtain ⟨out, -⟩ := isolate_out _ l .voteDissent hi
  obtain ⟨shown, ⟨_, life, -⟩, -, -⟩ := isolate_more _ l .voteDissent hi
  refine ⟨out.retired, out.isolated, out.cause, fun m e => (out.others m e).1, out.drives.1, out.drives.2.1, ?_,
    fun m => ⟨fun f => ⟨?_, ?_⟩, fun f => ?_⟩⟩
  · split
    · next k => exact out.twoLeft k goesOn
    · next k => exact out.stays (.inr ⟨k, goesOn⟩)
  · rw [(shown m).1, sluice_dissentFoundBy, if_pos f]
    exact vput_true_self l
  · rw [life]
    exact (counts_dissentFoundBy s l found m).trans (if_pos f)
  · rw [life]
    exact (counts_dissentFoundBy s l found m).trans (if_neg (by rw [f]; exact Bool.false_ne_true))

/-- The lane whose digest differs is isolated, found by the two others (R172). -/
theorem outvoted_digest {s : State} (h3 : servingLanes s = [.A, .B, .C]) (hq : latchesQuiet s) (l : Lane) :
    outvoted s l (fun m => decide (m ≠ l)) (digestDissent s l) := by
  have found : laneBit (laneBits (fun m => decide (m ≠ l) && serving s m)) = fun m => decide (m ≠ l) := funext fun m => by
    have hs : serving s m = true := decide_eq_true (serving_of_three h3 m)
    rw [laneBit_laneBits, hs, Bool.and_true]
  rw [digestDissent_eq, ← found]
  exact outvoted_found (s := voteTested s false) h3 hq l _

/-! ### No two digests agree (R172, R175, R176) -/

/-- The Sluices of the voting lanes show that they have no agreement. -/
def digestsApart (s : State) : State :=
  voteTested (modSluices s (fun m x => if serving s m then { x with outcome := 3 } else x)) false

theorem sluice_digestsApart (s : State) (m : Lane) :
    (digestsApart s).sluices.get m = if serving s m then { s.sluices.get m with outcome := 3 } else s.sluices.get m := by
  show ((modSluices s _).sluices.get m) = _
  rw [sluices_modSluices, get_map]

theorem latch_digestsApart (s : State) (m : Lane) : ((digestsApart s).sluices.get m).latch = (s.sluices.get m).latch := by
  rw [sluice_digestsApart]
  split
  · rfl
  · rfl

/-- The Sluices of the voting lanes have latched. -/
def digestsLatched (s : State) (c : LatchCause) : State := foldS (servingLanes s) (fun s m => setLatch s m c) (digestsApart s)

theorem digestSafe_eq (s : State) (c : LatchCause) : digestSafe s c = Machine.latchRule (digestsLatched s c) := rfl

theorem sluice_digestsLatched (s : State) (c : LatchCause) (m : Lane) : (digestsLatched s c).sluices.get m =
    if lst s m = .serving then shutSluice c (cycle16 s) ((digestsApart s).sluices.get m) else (digestsApart s).sluices.get m := by
  unfold digestsLatched
  rw [sluice_setLatches fun _ _ => ⟨rfl, rfl⟩]
  simp only [mem_servingLanes]
  rfl

theorem chg_digestsLatched (s : State) (c : LatchCause) : changesOnly [.sluices] (digestsApart s) (digestsLatched s c) :=
  changes_foldS _ _ (fun _ _ => chg_setLatch _ _ _ (by decide)) (changesOnly_refl _ _)

theorem latched_digestsLatched {s : State} {m : Lane} (h : lst s m = .serving) (c : LatchCause) : latched (digestsLatched s c) m = true := by
  unfold latched
  rw [sluice_digestsLatched, if_pos h]
  exact latch_shutSluice _ _ _

/-- Two voting lanes whose Sluices latch put the module into SAFE, and the other latches follow. -/
theorem safeWith_digest {s : State} (ho : operating s.mod.st = true) {a b : Lane} (hne : b ≠ a) (ha : lst s a = .serving)
    (hb : lst s b = .serving) (c : LatchCause) : safeWith s c (serving s) (digestSafe s c) := by
  have notSafe : (digestsLatched s c).mod.st ≠ .safe := by
    rw [mode_of (chg_digestsLatched s c)]
    exact notSafe_of_operating ho
  rw [digestSafe_eq, latchRule_two (two_latched hne (latched_digestsLatched ha c) (latched_digestsLatched hb c))]
  refine ⟨enterSafe_st _, fun l => ⟨enterSafe_latch _ notSafe l, fun free => ?_⟩, fun l => ?_⟩
  · have apart : ((digestsApart s).sluices.get l).latch = false := (latch_digestsApart s l).trans free
    rw [sluice_enterSafe notSafe, sluice_digestsLatched]
    unfold serving
    by_cases hl : lst s l = .serving
    · rw [if_pos hl, shutSluice_latched (latch_shutSluice _ _ _), shutSluice_open apart, if_pos (decide_eq_true hl)]
      exact ⟨rfl, rfl, rfl⟩
    · rw [if_neg hl, shutSluice_open apart, if_neg (by simp [hl])]
      exact ⟨rfl, rfl, rfl⟩
  · exact ((enterSafe_entered _ notSafe).lane l).1.trans (lst_of (chg_digestsLatched s c) rfl l)

theorem servingLanes_nodup (s : State) : (servingLanes s).Nodup := List.Nodup.filter _ (by decide)

/-- Settles O25: the digests of the voting lanes fall into their cases, and each case has its own end. -/
theorem digestCheckDecides : Obligations.DigestCheckDecides := by
  intro err s ho hp hr d
  have run := exec_voteDigest ho hp hr err
  refine ⟨fun m r => sentDigest_result, fun hq h3 => ?_, fun a b h2 => ?_⟩
  · have check := digestCheck_three h3 (digestsSent s err)
    simp only [get_digestsSent] at check
    rw [check] at run
    have serves := serving_of_three h3
    have all : serving s = fun _ => true := funext fun m => decide_eq_true (serves m)
    refine ⟨fun h1 h2 => ⟨_, run.trans (by rw [if_pos h1, if_pos h2]), chg_digestsNoted s, fun m => sluice_digestsNoted (serves m)⟩,
      fun h1 h2 => ⟨_, run.trans (by rw [if_pos h1, if_neg h2]), outvoted_digest h3 hq .C⟩,
      fun h1 h2 => ⟨_, run.trans (by rw [if_neg h2, if_pos h1]), outvoted_digest h3 hq .B⟩,
      fun h1 h2 => ⟨_, run.trans (by rw [if_neg h2, if_neg fun k => h2 (k.trans h1.symm), if_pos h1]), outvoted_digest h3 hq .A⟩,
      fun h1 h2 h4 => ⟨_, run.trans (by rw [if_neg h1, if_neg h2, if_neg h4]), ?_⟩⟩
    rw [← all]
    exact safeWith_digest ho (a := .A) (b := .B) (by decide) (serves .A) (serves .B) .noMajority
  · have check := digestCheck_pair h2 (digestsSent s err)
    simp only [get_digestsSent] at check
    rw [check] at run
    have ha : lst s a = .serving := mem_servingLanes.1 (by rw [h2]; simp)
    have hb : lst s b = .serving := mem_servingLanes.1 (by rw [h2]; simp)
    have hne : b ≠ a := fun e => by
      have nodup := servingLanes_nodup s
      rw [h2, e] at nodup
      simp at nodup
    refine ⟨fun h => ⟨_, run.trans (by rw [if_pos h]), chg_digestsNoted s, sluice_digestsNoted ha, sluice_digestsNoted hb⟩,
      fun h => ⟨_, run.trans (by rw [if_neg h]), safeWith_digest ho hne ha hb .pairDisagree⟩⟩

end Sys2Proof.Laws

/-! ## The tests of the lane switches (R181 to R183, R281, R479) -/

namespace Sys2Proof.Laws

open Sys2Proof Sys2Proof.Machine Sys2Proof.Safety

/-! ### Output channels that a test retires (R183, R281) -/

theorem outRec_modOut (s : State) (n k : Nat) (f : OutRec → OutRec) :
    outRec (modOut s n f) k = if k = n then f (outRec s n) else outRec s k := sget_smod _ _ _ _ _

theorem outRec_of {s t : State} (h : t.field.outputs = s.field.outputs) (k : Nat) : outRec t k = outRec s k := by
  unfold outRec
  rw [h]

theorem retired_retireOut (s : State) (n : Nat) (f : OutFault) (p k : Nat) :
    (outRec (retireOut s n f p) k).retired = (decide (k = n) || (outRec s k).retired) := by
  unfold retireOut
  split
  · next h =>
    rw [outRec_modOut]
    split
    · next e => rw [e, h, Bool.or_true]
    · next e => rw [decide_eq_false e, Bool.false_or]
  · extract_lets s0 _ s1 entry u
    have same : (eventAll u 75 0x0409 (le 1 n ++ le 1 (outFaultCode f) ++ le 2 (outRec s n).current.toNat)).field = u.field :=
      field_of (chg_eventAll u _ _ _ (by decide) (changesOnly_refl records u))
    rw [outRec_of (t := eventAll u _ _ _) (s := s0) (by rw [same]; rfl), outRec_modOut]
    split
    · next e => rw [decide_eq_true e]; rfl
    · next e => rw [decide_eq_false e, Bool.false_or]

/-- A test retires the channels of a list. -/
theorem retired_retireAll (xs : List Nat) (f : OutFault) (s : State) (k : Nat) :
    (outRec (foldS xs (fun s n => retireOut s n f 0) s) k).retired = (decide (k ∈ xs) || (outRec s k).retired) := by
  unfold foldS
  induction xs generalizing s with
  | nil => rfl
  | cons n xs ih =>
    rw [List.foldl_cons, ih, retired_retireOut]
    by_cases e : k = n
    · simp [e]
    · simp [e]

theorem chg_retireAll (xs : List Nat) (f : OutFault) (s : State) :
    changesOnly (records ++ [.field, .lifetime]) s (foldS xs (fun s n => retireOut s n f 0) s) :=
  changes_foldS xs _ (fun _ _ => chg_retireOut _ _ f 0 (by decide)) (changesOnly_refl _ s)

/-- A switch stuck open raises its event and retires nothing. -/
theorem retired_stuckOpen (s : State) (n k : Nat) : (outRec (stuckOpen s n) k).retired = (outRec s k).retired := by
  unfold stuckOpen
  extract_lets s1
  rw [outRec_of (s := s1) (congrArg Field.outputs (field_of (chg_eventAll s1 _ _ _ (by decide) (changesOnly_refl records s1)))), outRec_modOut]
  split
  · next e => rw [e]
  · rfl

theorem retired_stuckOpens (xs : List Nat) (s : State) (k : Nat) :
    (outRec (foldS xs (fun s i => stuckOpen s (i % 16)) s) k).retired = (outRec s k).retired := by
  unfold foldS
  induction xs generalizing s with
  | nil => rfl
  | cons i xs ih => rw [List.foldl_cons, ih, retired_stuckOpen]

theorem chg_stuckOpens (xs : List Nat) (s : State) :
    changesOnly (records ++ [.field, .lifetime]) s (foldS xs (fun s i => stuckOpen s (i % 16)) s) :=
  changes_foldS xs _ (fun _ _ => chg_stuckOpen _ _ (by decide)) (changesOnly_refl _ s)

theorem getLsbD_stuckOutputs (mask r : Word) {n : Nat} (h : n < 16) :
    (stuckOutputs mask r).getLsbD n = ((mask &&& r).getLsbD n || (mask &&& r).getLsbD (16 + n)) := by
  unfold stuckOutputs
  rw [getLsbD_bitsFrom, decide_eq_true h, Bool.true_and]

/-! ### The test of a Sluice's switches (R181, R182) -/

/-- The switches under test open. -/
def switchesOpened (s : State) (l : Lane) : State :=
  modSluice s l (fun x => { x with
    now := x.now &&& ~~~ testSwitches s l, testMask := testSwitches s l, testRunning := true, testAborted := false, stuckClosed := 0 })

theorem exec_laneSwitchTest {s : State} {l : Lane} (hst : s.mod.st = .svc3) (hp : s.mod.phase = .input) (hc : switchTestCycle s l = true)
    (hr : (s.sluices.get l).testRunning = false) : exec (.laneSwitchTest l) s = .next (switchesOpened s l) := by
  show execLaneSwitchTest l s = _
  unfold execLaneSwitchTest
  rw [if_pos (by simp [hst, hp, hc, hr])]
  rfl

theorem getLsbD_testSwitches (s : State) (l : Lane) {i : Nat} (h : i < 32) :
    (testSwitches s l).getLsbD i = ((s.sluices.get l).now.getLsbD i && !outputTested s (i % 16)) := by
  unfold testSwitches
  rw [getLsbD_bitsFrom, decide_eq_true h, Bool.true_and]

/-- What the switches show: those of outputs under no other test are open (R181). -/
theorem switchesOpened_shows (s : State) (l : Lane) :
    ((switchesOpened s l).sluices.get l).testRunning = true ∧ (∀ m, m ≠ l → (switchesOpened s l).sluices.get m = s.sluices.get m) ∧
    ∀ i, i < 32 →
      ((switchesOpened s l).sluices.get l).now.getLsbD i = ((s.sluices.get l).now.getLsbD i && outputTested s (i % 16)) ∧
      ((switchesOpened s l).sluices.get l).testMask.getLsbD i = ((s.sluices.get l).now.getLsbD i && !outputTested s (i % 16)) := by
  unfold switchesOpened
  rw [sluices_modSluice, get_set_self]
  refine ⟨rfl, fun m e => get_set_other _ _ e, fun i hi => ⟨?_, getLsbD_testSwitches s l hi⟩⟩
  show ((s.sluices.get l).now &&& ~~~ testSwitches s l).getLsbD i = _
  rw [BitVec.getLsbD_and, BitVec.getLsbD_not, getLsbD_testSwitches s l hi, decide_eq_true hi]
  cases (s.sluices.get l).now.getLsbD i <;> simp

/-- The tested switches close again, unless the latch holds them open (R175, R182). -/
def switchesClosed (s : State) (l : Lane) (stuck : BitVec 16) : State :=
  modSluice s l (fun y => { y with
    now := if y.latch then y.now else y.now ||| y.testMask, testMask := 0, testRunning := false, stuckClosed := stuck })

theorem exec_switchTestReadback {s : State} {l : Lane} (h : (s.sluices.get l).testRunning = true) (r : Word) :
    exec (.switchTestReadback l r) s = .next (foldS (bitsOf (stuckOutputs (s.sluices.get l).testMask r))
      (fun s n => retireOut s n .switchStuckClosed 0) (switchesClosed s l (stuckOutputs (s.sluices.get l).testMask r))) := by
  show execSwitchTestReadback l r s = _
  unfold execSwitchTestReadback
  dsimp only
  rw [if_pos h]
  rfl

theorem sluice_switchesClosed (s : State) (l : Lane) (stuck : BitVec 16) : (switchesClosed s l stuck).sluices.get l =
    { s.sluices.get l with
      now := if (s.sluices.get l).latch then (s.sluices.get l).now else (s.sluices.get l).now ||| (s.sluices.get l).testMask
      testMask := 0, testRunning := false, stuckClosed := stuck } := by
  unfold switchesClosed
  rw [sluices_modSluice, get_set_self]

/-! ### The close test of the start-up tests (R183, R479) -/

theorem serving_of_closeTestDue {s : State} {l : Lane} (h : closeTestDue s l = true) : lst s l = .serving := by
  unfold closeTestDue serving at h
  split at h
  · cases h
  · simp only [Bool.and_eq_true, decide_eq_true_eq] at h
    exact h.1.1.2

/-- The Sluice has been judged by its readbacks (R479). -/
def closeJudged (s : State) (l : Lane) (c o : Word) : State :=
  modSluice s l (fun x => { x with closeDone := true, closeOk := decide (c = 0xFFFFFFFF) && decide (o = 0xFFFFFFFF) })

/-- The switches that did not close are reported, and the channels of those that did not open are retired. -/
def closeTested (s : State) (l : Lane) (c o : Word) : State :=
  foldS (bitsOf (stuckOutputs 0xFFFFFFFF (~~~ o))) (fun s n => retireOut s n .switchStuckClosed 0)
    (foldS (bitsOf (~~~ c)) (fun s i => stuckOpen s (i % 16)) (closeJudged s l c o))

theorem exec_laneSwitchCloseTest {s : State} {l : Lane} (h : closeTestDue s l = true) (c o : Word) : exec (.laneSwitchCloseTest l c o) s =
    .next (if c = 0 then isolateWith (closeTested s l c o) l .self .startTest else closeTested s l c o) := by
  show execLaneSwitchCloseTest l c o s = _
  unfold execLaneSwitchCloseTest
  rw [if_pos h]
  rfl

theorem chg_closeTested (s : State) (l : Lane) (c o : Word) :
    changesOnly (records ++ [.field, .lifetime]) (closeJudged s l c o) (closeTested s l c o) :=
  changes_step (by decide) (chg_retireAll _ _ _) (chg_stuckOpens _ _)

theorem sluice_closeTested (s : State) (l : Lane) (c o : Word) : (closeTested s l c o).sluices.get l =
    { s.sluices.get l with closeDone := true, closeOk := decide (c = 0xFFFFFFFF) && decide (o = 0xFFFFFFFF) } := by
  rw [sluices_of (chg_closeTested s l c o) rfl]
  unfold closeJudged
  rw [sluices_modSluice, get_set_self]

theorem lst_closeTested (s : State) (l : Lane) (c o : Word) (m : Lane) : lst (closeTested s l c o) m = lst s m :=
  lst_of (chg_closeTested s l c o) rfl m

theorem retired_closeTested (s : State) (l : Lane) (c o : Word) {n : Nat} (h : n < 16) : (outRec (closeTested s l c o) n).retired =
    ((outRec s n).retired || !o.getLsbD n || !o.getLsbD (16 + n)) := by
  have stuck : decide (n ∈ bitsOf (stuckOutputs 0xFFFFFFFF (~~~ o))) = (!o.getLsbD n || !o.getLsbD (16 + n)) := by
    have low : n < 32 := by omega
    have high : 16 + n < 32 := by omega
    have ones : (0xFFFFFFFF : Word) = BitVec.allOnes 32 := by decide
    rw [Bool.eq_iff_iff, decide_eq_true_iff, mem_bitsOf, getLsbD_stuckOutputs _ _ h, ones, BitVec.allOnes_and, BitVec.getLsbD_not,
      BitVec.getLsbD_not, decide_eq_true low, decide_eq_true high, Bool.true_and, Bool.true_and]
  unfold closeTested
  rw [retired_retireAll, retired_stuckOpens, stuck, Bool.or_comm, Bool.or_assoc]
  rfl

/-- The isolation of a lane none of whose switches closed (R183, R479). -/
theorem isolateWith_closeTested {s : State} {l : Lane} (h : closeTestDue s l = true) (c o : Word) (x : LatchCause) :
    isolateWith (closeTested s l c o) l .self x = isolateNow (closeTested s l c o) l .self x := by
  unfold isolateWith
  rw [if_pos (by rw [lst_closeTested, serving_of_closeTestDue h]; rfl)]

theorem laneOut_left {s t : State} {l : Lane} {c : IsoCause} (h : LaneOut s l c t) : lst t l = .isolated ∨ lst t l = .retired := by
  by_cases r : retires s l c
  · exact .inr (h.retired r)
  · exact .inl (h.isolated r)

/-- Settles O28: each test changes its own Sluice, and the channels that its readback condemns are retired one by one. -/
theorem laneSwitchTests : Obligations.LaneSwitchTests := by
  intro l s
  refine ⟨fun hst hp hc hr => ⟨_, exec_laneSwitchTest hst hp hc hr, changes_modSluice _ _ rfl (changesOnly_refl _ s), switchesOpened_shows s l⟩,
    fun r hr => ?_, fun c o hdue => ?_⟩
  · refine ⟨_, exec_switchTestReadback hr r, ?_⟩
    rw [sluices_of (chg_retireAll _ _ _) rfl, sluice_switchesClosed]
    refine ⟨rfl, rfl, fun h => if_neg (by rw [h]; exact Bool.false_ne_true), fun h => if_pos h, fun n hn => ?_⟩
    have stuck : decide (n ∈ bitsOf (stuckOutputs (s.sluices.get l).testMask r)) =
        (((s.sluices.get l).testMask &&& r).getLsbD n || ((s.sluices.get l).testMask &&& r).getLsbD (16 + n)) := by
      rw [Bool.eq_iff_iff, decide_eq_true_iff, mem_bitsOf, getLsbD_stuckOutputs _ _ hn]
    rw [retired_retireAll, stuck, Bool.or_comm, Bool.or_assoc]
    rfl
  · have judged : ((closeTested s l c o).sluices.get l).closeDone = true ∧
        (((closeTested s l c o).sluices.get l).closeOk = true ↔ c = 0xFFFFFFFF ∧ o = 0xFFFFFFFF) := by
      rw [sluice_closeTested]
      exact ⟨rfl, by simp only [Bool.and_eq_true, decide_eq_true_eq]⟩
    refine ⟨_, exec_laneSwitchCloseTest hdue c o, ?_⟩
    by_cases h0 : c = 0
    · rw [if_pos h0, isolateWith_closeTested hdue]
      obtain ⟨out, -⟩ := isolateNow_out (closeTested s l c o) l .self .startTest
      obtain ⟨shown, -, -, -⟩ := isolateNow_more (closeTested s l c o) l .self .startTest
      obtain ⟨-, -, -, -, -, -, done, ok, -⟩ := shown l
      rw [done, ok]
      refine ⟨judged.1, judged.2, fun h => absurd h0 h, fun _ => ⟨laneOut_left out, out.cause⟩, fun n hn => ?_⟩
      rw [outRec_of (congrArg Field.outputs (field_of out.frame))]
      exact retired_closeTested s l c o hn
    · rw [if_neg h0]
      exact ⟨judged.1, judged.2, fun _ => lst_closeTested s l c o l, fun h => absurd h h0, fun n hn => retired_closeTested s l c o hn⟩

end Sys2Proof.Laws

/-! ## What a change of the switches leaves of the crossing (R254 to R264) -/

namespace Sys2Proof.Laws

open Sys2Proof Sys2Proof.Machine Sys2Proof.Safety

/-! ### The field die's side of the crossing -/

/-- What the field die holds of the crossing is as it was: its streams, what it sends and has received, its samples (R255 to R261). Outputs,
groups, switches and the good time may have changed. -/
structure CrossingSame (f g : Field) : Prop where
  streams : g.streams = f.streams
  refresh : g.refresh = f.refresh
  readback : g.readback = f.readback
  down : g.down = f.down
  downErr : g.downErr = f.downErr
  lastCycle : g.lastCycle = f.lastCycle
  up : g.up = f.up
  stopped : g.stopped = f.stopped
  window : g.usedWindow = f.usedWindow
  sample : g.sample = f.sample
  before : g.before = f.before
  placing : g.placing = f.placing

theorem crossing_refl (f : Field) : CrossingSame f f := ⟨rfl, rfl, rfl, rfl, rfl, rfl, rfl, rfl, rfl, rfl, rfl, rfl⟩

theorem crossing_trans {f g h : Field} (a : CrossingSame f g) (b : CrossingSame g h) : CrossingSame f h :=
  ⟨b.streams.trans a.streams, b.refresh.trans a.refresh, b.readback.trans a.readback, b.down.trans a.down, b.downErr.trans a.downErr,
    b.lastCycle.trans a.lastCycle, b.up.trans a.up, b.stopped.trans a.stopped, b.window.trans a.window, b.sample.trans a.sample,
    b.before.trans a.before, b.placing.trans a.placing⟩

theorem crossing_foldl {g : Field → Nat → Field} (hg : ∀ f n, CrossingSame f (g f n)) (xs : List Nat) (f : Field) :
    CrossingSame f (xs.foldl g f) := by
  induction xs generalizing f with
  | nil => exact crossing_refl f
  | cons n xs ih => exact crossing_trans (hg f n) (ih _)

theorem crossing_eachOut {g : Field → Nat → Field} (hg : ∀ f n, CrossingSame f (g f n)) (f : Field) : CrossingSame f (eachOut g f) :=
  crossing_foldl hg _ f

theorem crossing_settle (f : Field) : CrossingSame f (settleSwitches f) := ⟨rfl, rfl, rfl, rfl, rfl, rfl, rfl, rfl, rfl, rfl, rfl, rfl⟩

theorem crossing_modOut (f : Field) (n : Nat) (g : OutRec → OutRec) : CrossingSame f (modFieldOut f n g) :=
  ⟨rfl, rfl, rfl, rfl, rfl, rfl, rfl, rfl, rfl, rfl, rfl, rfl⟩

theorem crossing_modGroup (f : Field) (second : Bool) (g : GroupRec → GroupRec) : CrossingSame f (modGroup f second g) := by
  cases second
  · exact ⟨rfl, rfl, rfl, rfl, rfl, rfl, rfl, rfl, rfl, rfl, rfl, rfl⟩
  · exact ⟨rfl, rfl, rfl, rfl, rfl, rfl, rfl, rfl, rfl, rfl, rfl, rfl⟩

theorem crossing_discardTest (f : Field) (n : Nat) : CrossingSame f (discardTest f n) := by
  unfold discardTest
  split
  · exact crossing_refl f
  · exact crossing_modOut f n _
  · exact crossing_modOut f n _

theorem crossing_openingChange (before f : Field) (n : Nat) : CrossingSame f (openingChange before f n) := by
  unfold openingChange
  split
  · exact crossing_discardTest f n
  · exact crossing_refl f

theorem crossing_votedChange (f : Field) (n : Nat) : CrossingSame f (votedChange f n) := by
  unfold votedChange
  repeat' split
  · exact crossing_refl f
  · exact crossing_refl f
  · exact crossing_modOut f n _
  · exact crossing_modOut f n _
  · exact crossing_refl f

theorem crossing_latchGroup (second : Bool) (f : Field) : CrossingSame f (latchGroup second f) := by
  have ends : ∀ (h : Field) (n : Nat), CrossingSame h (if decide (8 ≤ n) = second then discardTest h n else h) := fun h n => by
    split
    · exact crossing_discardTest h n
    · exact crossing_refl h
  exact crossing_trans (crossing_modGroup f second _) (crossing_trans (crossing_eachOut ends _) (crossing_settle _))

theorem crossing_latchBoth (f : Field) : CrossingSame f (latchBoth f) :=
  crossing_trans (crossing_latchGroup false f) (crossing_latchGroup true _)

theorem crossing_groupTick (f : Field) (second : Bool) : CrossingSame f (groupTick f second) := by
  unfold groupTick
  exact crossing_modGroup f second _

theorem field_fieldEvent (s : State) (src code a b v : Nat) : (fieldEvent s src code a b v).field = s.field :=
  field_of (chg_fieldEvent s src code a b v (by decide) (changesOnly_refl records s))

theorem crossing_latchFault (s : State) (c : FieldFaultCause) : CrossingSame s.field (latchFault s c).field := by
  unfold latchFault
  split
  · exact crossing_refl _
  · rw [field_fieldEvent]
    have set : CrossingSame s.field { s.field with fault := some c } := ⟨rfl, rfl, rfl, rfl, rfl, rfl, rfl, rfl, rfl, rfl, rfl, rfl⟩
    exact crossing_trans set (crossing_latchBoth _)

/-- The field die and the pages once the crossing is found lost (R263, R264). -/
def lossMarked (s : State) : State :=
  modField (modPages s [5] (fun x => { x with crossingLosses := (s.mod.tickTime :: x.crossingLosses).take 4 }))
    (fun f => latchBoth { f with lost := true, goodFor := 0 })

/-- The module once it has found the crossing lost: the lanes take the counts anew (R287). -/
def lossFound (s : State) : State := retakeCounts (lossMarked s)

/-- Where a crossing loss is found, it is a field fault or an event (R264). -/
theorem crossingLoss_cases (s : State) : crossingLoss s = s ∨ crossingLoss s = latchFault (lossFound s) .lossBudget ∨
    crossingLoss s = fieldEvent (lossFound s) 65 0x0401 0 0 0 := by
  unfold crossingLoss
  extract_lets f earlier s1 s2
  split
  · split
    · exact .inr (.inl rfl)
    · exact .inr (.inr rfl)
  · exact .inl rfl

/-- A crossing loss latches groups and perhaps a fault, and leaves the streams (R263, R264). -/
theorem crossing_crossingLoss (s : State) : CrossingSame s.field (crossingLoss s).field := by
  have marked : CrossingSame s.field { s.field with lost := true, goodFor := 0 } :=
    ⟨rfl, rfl, rfl, rfl, rfl, rfl, rfl, rfl, rfl, rfl, rfl, rfl⟩
  have found : CrossingSame s.field (lossFound s).field := crossing_trans marked (crossing_latchBoth _)
  obtain h | h | h := crossingLoss_cases s
  · rw [h]
    exact crossing_refl _
  · rw [h]
    exact crossing_trans found (crossing_latchFault _ _)
  · rw [h, field_fieldEvent]
    exact found

/-- A configuration is applied to outputs and switches, and leaves the streams (R262). -/
theorem crossing_applyConfig (s : State) : CrossingSame s.field (applyConfig s).field := by
  unfold applyConfig
  repeat' split
  · exact crossing_refl _
  · exact crossing_refl _
  · exact crossing_refl _
  · next c _ _ =>
    have taken : CrossingSame s.field { s.field with config := some c, pairs := [] } :=
      ⟨rfl, rfl, rfl, rfl, rfl, rfl, rfl, rfl, rfl, rfl, rfl, rfl⟩
    exact crossing_trans taken (crossing_trans (crossing_foldl (fun f n => crossing_modOut f n _) _ _) (crossing_settle _))
  · exact crossing_refl _

/-! ### The lanes' side of the crossing -/

theorem fld_of {ps : List Part} {s t : State} (h : changesOnly ps s t) (hp : ps.contains .fieldIn = false := by rfl) (l : Lane) :
    (lane t l).fld = (lane s l).fld := (h .fieldIn hp).2 l

/-- What a lane holds of its streams: numbers, silence, the refresh in flight and the last one (R255 to R260). -/
def streamSide (x : LaneFld) : Option (BitVec 16) × Nat × Option UpFrame × Option UpFrame × BitVec 16 × BitVec 16 × Fin 32 :=
  (x.ref, x.silent, x.inFlight, x.last, x.upErr, x.downRefresh, x.cfgIndex)

theorem streamSide_eq {x y : LaneFld} (h : streamSide x = streamSide y) : x.ref = y.ref ∧ x.silent = y.silent ∧ x.inFlight = y.inFlight ∧
    x.last = y.last ∧ x.upErr = y.upErr ∧ x.downRefresh = y.downRefresh ∧ x.cfgIndex = y.cfgIndex := by
  simpa only [streamSide, Prod.mk.injEq] using h

theorem streamSide_of {ps : List Part} {s t : State} (h : changesOnly ps s t) (hp : ps.contains .fieldIn = false := by rfl) (l : Lane) :
    streamSide (lane t l).fld = streamSide (lane s l).fld := by rw [fld_of h hp l]

theorem streamSide_retakeCounts (s : State) (l : Lane) : streamSide (lane (retakeCounts s) l).fld = streamSide (lane s l).fld := by
  unfold retakeCounts
  rw [lane_modLanes]
  dsimp only
  split
  · rfl
  · rfl

theorem streamSide_latchFault (s : State) (c : FieldFaultCause) (l : Lane) :
    streamSide (lane (latchFault s c) l).fld = streamSide (lane s l).fld :=
  streamSide_of (chg_latchFault s c (by decide) (changesOnly_refl (records ++ [.field, .lifetime]) s)) rfl l

/-- A crossing loss makes the lanes take the counts anew, and leaves their streams (R287). -/
theorem streamSide_crossingLoss (s : State) (l : Lane) : streamSide (lane (crossingLoss s) l).fld = streamSide (lane s l).fld := by
  have marked : changesOnly [.field, .lifetime, .log] s (lossMarked s) :=
    chg_modField _ _ (by decide) (changes_modPages _ _ rfl rfl (changesOnly_refl _ s))
  have found : streamSide (lane (lossFound s) l).fld = streamSide (lane s l).fld :=
    (streamSide_retakeCounts _ l).trans (streamSide_of marked rfl l)
  obtain h | h | h := crossingLoss_cases s
  · rw [h]
  · rw [h, streamSide_latchFault, found]
  · rw [h, streamSide_of (chg_fieldEvent _ _ _ _ _ _ (by decide) (changesOnly_refl records _)) rfl l, found]

end Sys2Proof.Laws

/-! ## Refreshes of the crossing (R174, R254 to R261, R286) -/

namespace Sys2Proof.Laws

open Sys2Proof Sys2Proof.Machine Sys2Proof.Safety

/-! ### A refresh starts (R254 to R256, R286) -/

/-- The field die as a refresh starts. -/
def fieldRefreshed (m : FieldReadings) (s : State) : Field :=
  if s.field.on then
    { passTime (handshake (takeReadings m s.field) (decide (s.mod.refreshes = 0)) (cycle16 s)) with
      refresh := s.field.refresh + 1
      down := s.field.down.map (fun l x => if sendsDown s then some (downFrame s l) else x) }
  else s.field

/-- What its Sluice's refresh advances in a lane. -/
def laneSent (s : State) (L : LaneState) : LaneState :=
  if sendsDown s then { L with fld := { L.fld with downRefresh := L.fld.downRefresh + 1, cfgIndex := L.fld.cfgIndex + 1 } } else L

/-- A lane as a refresh starts towards it. -/
def laneRefreshed (m : FieldReadings) (s : State) (l : Lane) (L : LaneState) : LaneState :=
  if hearsUp s l then
    { laneSent s L with fld := { (laneSent s L).fld with
      inFlight := if s.field.on then some (upFrame (fieldRefreshed m s) (decide (s.mod.refreshes = 0)) (cycle16 s)) else (laneSent s L).fld.inFlight
      goodFor := if (laneSent s L).fld.silent ≥ 1 then 0 else (laneSent s L).fld.goodFor + 1
      silent := (laneSent s L).fld.silent + 1 } }
  else laneSent s L

/-- A refresh has started on every stream. -/
def refreshStarted (m : FieldReadings) (s : State) : State :=
  modLanes { s with field := fieldRefreshed m s, mod := { s.mod with refreshes := s.mod.refreshes + 1 } } (laneRefreshed m s)

theorem exec_crossingRefresh (m : FieldReadings) (s : State) : exec (.crossingRefresh m) s = .next (crossingLoss (refreshStarted m s)) := by
  show execCrossingRefresh m s = _
  unfold execCrossingRefresh refreshStarted laneRefreshed laneSent fieldRefreshed
  rfl

theorem takeReadings_shows (m : FieldReadings) (f : Field) :
    (takeReadings m f).readback = m.readback ∧ (takeReadings m f).streams = f.streams := by
  have same : CrossingSame { f with readback := m.readback, termHigh := m.termHigh, termLow := m.termLow, temp := m.temp } (takeReadings m f) :=
    crossing_eachOut (fun f n => crossing_modOut f n _) _
  exact ⟨same.readback, same.streams⟩

theorem handshake_shows (f : Field) (first : Bool) (cycle : BitVec 16) :
    (handshake f first cycle).readback = f.readback ∧ (handshake f first cycle).streams = f.streams := ⟨rfl, rfl⟩

/-- 10 µs of silence pass on every stream (R263). -/
theorem passTime_shows (f : Field) : (passTime f).readback = f.readback ∧
    (passTime f).streams = f.streams.map (fun _ x => { x with silent := x.silent + 1 }) := by
  have later : CrossingSame f { f with nowNs := f.nowNs + 10000 } := ⟨rfl, rfl, rfl, rfl, rfl, rfl, rfl, rfl, rfl, rfl, rfl, rfl⟩
  unfold passTime
  extract_lets g
  have same : CrossingSame f g := crossing_trans later (crossing_eachOut (fun h n => by
    split
    · exact crossing_modOut h n _
    · exact crossing_refl h) _)
  exact ⟨same.readback, congrArg (PerLane.map fun _ x => { x with silent := x.silent + 1 }) same.streams⟩

/-- What the field die measures, the handshake of the counters and 10 µs leave the streams, but for their silence. -/
theorem fieldRefreshed_shows {m : FieldReadings} {s : State} (h : s.field.on = true) :
    (fieldRefreshed m s).refresh = s.field.refresh + 1 ∧ (fieldRefreshed m s).readback = m.readback ∧
    (fieldRefreshed m s).streams = s.field.streams.map (fun _ x => { x with silent := x.silent + 1 }) ∧
    (fieldRefreshed m s).down = s.field.down.map (fun l x => if sendsDown s then some (downFrame s l) else x) := by
  obtain ⟨read1, streams1⟩ := takeReadings_shows m s.field
  obtain ⟨read2, streams2⟩ := handshake_shows (takeReadings m s.field) (decide (s.mod.refreshes = 0)) (cycle16 s)
  obtain ⟨read3, streams3⟩ := passTime_shows (handshake (takeReadings m s.field) (decide (s.mod.refreshes = 0)) (cycle16 s))
  unfold fieldRefreshed
  rw [if_pos h]
  dsimp only
  rw [read3, read2, read1, streams3, streams2, streams1]
  exact ⟨rfl, rfl, rfl, rfl⟩

/-- What a lane and the Sluice's stream for it show once a refresh has started (R174, R255, R256). -/
theorem refreshStarted_shows (m : FieldReadings) (s : State) (l : Lane) :
    (sendsDown s = false → (lane (refreshStarted m s) l).fld.downRefresh = (lane s l).fld.downRefresh ∧
      (refreshStarted m s).field.down.get l = s.field.down.get l) ∧
    (sendsDown s = true → (lane (refreshStarted m s) l).fld.downRefresh = (lane s l).fld.downRefresh + 1 ∧
      (lane (refreshStarted m s) l).fld.cfgIndex = (lane s l).fld.cfgIndex + 1 ∧
      (s.field.on = true → (refreshStarted m s).field.down.get l = some (downFrame s l))) ∧
    (hearsUp s l = false → (lane (refreshStarted m s) l).fld.silent = (lane s l).fld.silent ∧
      (lane (refreshStarted m s) l).fld.inFlight = (lane s l).fld.inFlight) ∧
    (hearsUp s l = true → (lane (refreshStarted m s) l).fld.silent = (lane s l).fld.silent + 1 ∧ (s.field.on = true →
      ∃ u, (lane (refreshStarted m s) l).fld.inFlight = some u ∧ u.refresh = s.field.refresh + 1 ∧ u.readback = m.readback)) := by
  have eq : lane (refreshStarted m s) l = laneRefreshed m s l (lane s l) := lane_modLanes _ l _
  have sent : (laneSent s (lane s l)).fld.silent = (lane s l).fld.silent ∧ (laneSent s (lane s l)).fld.inFlight = (lane s l).fld.inFlight := by
    unfold laneSent
    split
    · exact ⟨rfl, rfl⟩
    · exact ⟨rfl, rfl⟩
  have numbers : (laneRefreshed m s l (lane s l)).fld.downRefresh = (laneSent s (lane s l)).fld.downRefresh ∧
      (laneRefreshed m s l (lane s l)).fld.cfgIndex = (laneSent s (lane s l)).fld.cfgIndex := by
    unfold laneRefreshed
    split
    · exact ⟨rfl, rfl⟩
    · exact ⟨rfl, rfl⟩
  rw [eq, numbers.1, numbers.2]
  refine ⟨fun hd => ⟨?_, ?_⟩, fun hd => ⟨?_, ?_, fun on => ?_⟩, fun hu => ?_, fun hu => ⟨?_, fun on => ?_⟩⟩
  · rw [laneSent, hd]
    rfl
  · show (fieldRefreshed m s).down.get l = _
    by_cases on : s.field.on = true
    · obtain ⟨-, -, -, down⟩ := fieldRefreshed_shows (m := m) on
      rw [down, get_map, hd]
      rfl
    · rw [fieldRefreshed, if_neg on]
  · rw [laneSent, if_pos hd]
  · rw [laneSent, if_pos hd]
  · obtain ⟨-, -, -, down⟩ := fieldRefreshed_shows (m := m) on
    show (fieldRefreshed m s).down.get l = _
    rw [down, get_map, if_pos hd]
  · rw [laneRefreshed, hu]
    exact sent
  · rw [laneRefreshed, if_pos hu]
    exact congrArg (· + 1) sent.1
  · obtain ⟨refresh, readback, -, -⟩ := fieldRefreshed_shows (m := m) on
    rw [laneRefreshed, if_pos hu]
    exact ⟨_, if_pos on, refresh, readback⟩

/-- A refresh starts on every stream; where it finds a crossing loss, that leaves the streams. -/
theorem crossingRefresh_starts (m : FieldReadings) (s : State) : ∃ t, exec (.crossingRefresh m) s = .next t ∧
    changesOnly (records ++ [.clock, .field, .fieldIn, .lifetime]) s t ∧ t.mod.refreshes = s.mod.refreshes + 1 ∧
    (s.field.on = true → t.field.refresh = s.field.refresh + 1 ∧ t.field.readback = m.readback ∧
      ∀ l, (t.field.streams.get l).silent = (s.field.streams.get l).silent + 1) ∧
    ∀ l, (sendsDown s = false → (lane t l).fld.downRefresh = (lane s l).fld.downRefresh ∧ t.field.down.get l = s.field.down.get l) ∧
      (sendsDown s = true → (lane t l).fld.downRefresh = (lane s l).fld.downRefresh + 1 ∧
        (lane t l).fld.cfgIndex = (lane s l).fld.cfgIndex + 1 ∧ (s.field.on = true → t.field.down.get l = some (downFrame s l))) ∧
      (hearsUp s l = false → (lane t l).fld.silent = (lane s l).fld.silent ∧ (lane t l).fld.inFlight = (lane s l).fld.inFlight) ∧
      (hearsUp s l = true → (lane t l).fld.silent = (lane s l).fld.silent + 1 ∧ (s.field.on = true →
        ∃ u, (lane t l).fld.inFlight = some u ∧ u.refresh = s.field.refresh + 1 ∧ u.readback = m.readback)) := by
  have same := crossing_crossingLoss (refreshStarted m s)
  have loss := chg_crossingLoss (refreshStarted m s) (by decide) (changesOnly_refl (records ++ [.field, .fieldIn, .lifetime]) _)
  refine ⟨_, exec_crossingRefresh m s, frame_next (exec_crossingRefresh m s) (chg_execCrossingRefresh m s s (by decide) (changesOnly_refl _ s)),
    congrArg Module.refreshes (same_mod loss rfl rfl), fun on => ?_, fun l => ?_⟩
  · obtain ⟨refresh, readback, streams, -⟩ := fieldRefreshed_shows (m := m) on
    refine ⟨same.refresh.trans refresh, same.readback.trans readback, fun l => ?_⟩
    rw [same.streams, show (refreshStarted m s).field.streams = _ from streams, get_map]
  · obtain ⟨-, silent, inFlight, -, -, downRefresh, cfgIndex⟩ := streamSide_eq (streamSide_crossingLoss (refreshStarted m s) l)
    rw [silent, inFlight, downRefresh, cfgIndex, same.down]
    exact refreshStarted_shows m s l

/-! ### Downstream (R255, R257 to R259) -/

/-- The refresh of a lane's stream has arrived. -/
def downTaken (f : Field) (l : Lane) : Field := { f with down := f.down.set l none }

/-- A refresh is discarded and counted (R257, R294). -/
def downDiscarded (s : State) (l : Lane) : State := { s with field := { downTaken s.field l with downErr := satInc s.field.downErr } }

/-- The field die before it accepts a refresh: SWTEST marks the test window (R277). -/
def downMarked (s : State) (l : Lane) (e : DownFrame) : Field :=
  if e.swtest then { downTaken s.field l with usedWindow := some (windowNow s) } else downTaken s.field l

/-- A refresh is accepted. -/
def downAccepted (s : State) (l : Lane) (e : DownFrame) : State :=
  crossingLoss (applyConfig { s with field := acceptDown (downMarked s l e) l e })

section
variable {s : State} {l : Lane} {d : DownFrame} (hd : s.field.down.get l = some d) (on : s.field.on = true) {err : BitVec 512}
include hd on

theorem exec_downstream_unreadable (hr : receiveDown d err = none) (ns : Int) :
    exec (.downstreamRefresh l err ns) s = .next (downDiscarded s l) := by
  show execDownstreamRefresh l err ns s = _
  unfold execDownstreamRefresh
  rw [hd]
  dsimp only
  rw [if_neg (by rw [on]; decide), hr]
  rfl

theorem exec_downstream_read {e : DownFrame} (hr : receiveDown d err = some e) (ns : Int) : exec (.downstreamRefresh l err ns) s =
    .next (if downOk (downTaken s.field l) l e ns then downAccepted s l e else downDiscarded s l) := by
  show execDownstreamRefresh l err ns s = _
  unfold execDownstreamRefresh
  rw [hd]
  dsimp only
  rw [if_neg (by rw [on]; decide), hr]
  rfl

end

/-- When a received refresh is accepted (R257, R258). -/
theorem downOk_iff (s : State) (l : Lane) (e : DownFrame) (ns : Int) : downOk (downTaken s.field l) l e ns = true ↔
    refreshOk (s.field.streams.get l).ref e.refresh = true ∧ (e.tick = false ∨ fieldReady s.field = false ∨ (-1000 ≤ ns ∧ ns ≤ 1000)) := by
  have ready : fieldReady (downTaken s.field l) = fieldReady s.field := rfl
  have stamp : (decide (ns > 1000) || decide (ns < -1000)) = false ↔ -1000 ≤ ns ∧ ns ≤ 1000 := by
    simp only [Bool.or_eq_false_iff, decide_eq_false_iff_not]
    omega
  unfold downOk
  rw [ready, Bool.and_eq_true, Bool.not_eq_true', Bool.and_eq_false_iff, Bool.and_eq_false_iff, stamp, or_assoc]
  rfl

/-- A stream once it has accepted a refresh (R255, R259). -/
def streamTook (e : DownFrame) (x : StreamRec) : StreamRec :=
  { x with ref := some e.refresh, silent := 0, lost := false, openUntilTick := x.openUntilTick || x.lost, localLost := e.localLost
           swtest := e.swtest, drive := if x.openUntilTick = true ∨ x.lost = true then 0 else e.now, next := e.next, vctl := e.vctl
           words := sputAny x.words e.cfgIndex.val e.cfgWord }

theorem crossing_countTick (f : Field) (d : DownFrame) : CrossingSame f (countTick f d) := by
  unfold countTick
  repeat' split
  all_goals exact ⟨rfl, rfl, rfl, rfl, rfl, rfl, rfl, rfl, rfl, rfl, rfl, rfl⟩

/-- Of the crossing, a refresh that is accepted changes its stream, the cycle, and after a start or a stop the streams return (R258, R517). -/
theorem acceptDown_same (f : Field) (l : Lane) (e : DownFrame) : ∃ p, CrossingSame
    { modStream (streamsReturn f) l (streamTook e) with lastCycle := e.cycle, placing := p } (acceptDown f l e) := by
  unfold acceptDown
  extract_lets _ f1 f2 _ f3 f4
  have took : f2 = modStream f1 l (streamTook e) := by
    refine congrArg (modStream f1 l) (funext fun x => ?_)
    simp only [Bool.or_eq_true, streamTook]
  have counted := crossing_countTick f2 e
  have cycle : CrossingSame { f2 with lastCycle := e.cycle, placing := fieldReady f3 } f4 :=
    ⟨counted.streams, counted.refresh, counted.readback, counted.down, counted.downErr, rfl, counted.up, counted.stopped, counted.window,
      counted.sample, counted.before, rfl⟩
  rw [took] at cycle
  exact ⟨_, crossing_trans cycle (crossing_trans (crossing_eachOut (crossing_openingChange f1) _) (crossing_settle _))⟩

theorem downAccepted_same (s : State) (l : Lane) (e : DownFrame) : ∃ p, CrossingSame
    { modStream (streamsReturn (downMarked s l e)) l (streamTook e) with lastCycle := e.cycle, placing := p } (downAccepted s l e).field := by
  obtain ⟨p, same⟩ := acceptDown_same (downMarked s l e) l e
  have configured := crossing_applyConfig { s with field := acceptDown (downMarked s l e) l e }
  exact ⟨p, crossing_trans same (crossing_trans configured (crossing_crossingLoss _))⟩

/-- What the field die holds while it looks at a refresh, but for the window (R277). -/
theorem downMarked_shows (s : State) (l : Lane) (e : DownFrame) : (downMarked s l e).down = s.field.down.set l none ∧
    (downMarked s l e).downErr = s.field.downErr ∧ (downMarked s l e).up = s.field.up ∧ (downMarked s l e).streams = s.field.streams ∧
    (e.swtest = true → (downMarked s l e).usedWindow = some (windowNow s)) := by
  unfold downMarked
  split
  · exact ⟨rfl, rfl, rfl, rfl, fun _ => rfl⟩
  · next h => exact ⟨rfl, rfl, rfl, rfl, fun k => absurd k h⟩

/-- The return of the streams leaves the rest of the crossing (R517). -/
theorem streamsReturn_shows (f : Field) : (streamsReturn f).down = f.down ∧ (streamsReturn f).downErr = f.downErr ∧
    (streamsReturn f).up = true ∧ (streamsReturn f).usedWindow = f.usedWindow := by
  unfold streamsReturn
  split
  · next h => exact ⟨rfl, rfl, h, rfl⟩
  · exact ⟨rfl, rfl, rfl, rfl⟩

theorem streamsReturn_up {f : Field} (h : f.up = true) : streamsReturn f = f := if_pos h

/-- The first refresh after a start or a stop brings every stream back, open until the tick (R517). -/
theorem streamsReturn_down {f : Field} (h : f.up = false) : (streamsReturn f).stopped = false ∧
    (streamsReturn f).streams = f.streams.map (fun _ x => { x with lost := false, silent := 0, openUntilTick := true }) := by
  unfold streamsReturn
  rw [if_neg (by rw [h]; exact Bool.false_ne_true)]
  exact ⟨rfl, rfl⟩

/-- An accepted refresh: the stream, and what a first one brings (R257 to R259, R277, R517). -/
theorem downAccepted_shows (s : State) (l : Lane) (e : DownFrame) :
    (downAccepted s l e).field.down.get l = none ∧ (downAccepted s l e).field.downErr = s.field.downErr ∧
    (downAccepted s l e).field.lastCycle = e.cycle ∧ (downAccepted s l e).field.up = true ∧
    (e.swtest = true → (downAccepted s l e).field.usedWindow = some (windowNow s)) ∧
    (s.field.up = true → (downAccepted s l e).field.streams.get l = streamTook e (s.field.streams.get l) ∧
      ∀ m, m ≠ l → (downAccepted s l e).field.streams.get m = s.field.streams.get m) ∧
    (s.field.up = false → (downAccepted s l e).field.stopped = false ∧
      ((downAccepted s l e).field.streams.get l).ref = some e.refresh ∧ ((downAccepted s l e).field.streams.get l).drive = 0 ∧
      ∀ m, ((downAccepted s l e).field.streams.get m).openUntilTick = true ∧ ((downAccepted s l e).field.streams.get m).lost = false ∧
        ((downAccepted s l e).field.streams.get m).silent = 0) := by
  obtain ⟨p, same⟩ := downAccepted_same s l e
  obtain ⟨mdown, merr, mup, mstreams, mwindow⟩ := downMarked_shows s l e
  obtain ⟨rdown, rerr, rup, rwindow⟩ := streamsReturn_shows (downMarked s l e)
  have streams : (downAccepted s l e).field.streams = (streamsReturn (downMarked s l e)).streams.set l
    (streamTook e ((streamsReturn (downMarked s l e)).streams.get l)) := same.streams
  refine ⟨?_, same.downErr.trans (rerr.trans merr), same.lastCycle, same.up.trans rup, fun h => same.window.trans (rwindow.trans (mwindow h)),
    fun up => ?_, fun up => ?_⟩
  · rw [same.down.trans (rdown.trans mdown), get_set_self]
  · rw [streams, streamsReturn_up (mup.trans up), mstreams]
    exact ⟨get_set_self _ _ _, fun m h => get_set_other _ _ h⟩
  · obtain ⟨stopped, returned⟩ := streamsReturn_down (mup.trans up)
    rw [streams, returned, get_set_self, get_map]
    refine ⟨same.stopped.trans stopped, rfl, rfl, fun m => ?_⟩
    by_cases h : m = l
    · rw [h, get_set_self]
      exact ⟨rfl, rfl, rfl⟩
    · rw [get_set_other _ _ h, get_map]
      exact ⟨rfl, rfl, rfl⟩

/-! ### Upstream (R257, R260) -/

/-- A refresh that has come to a lane is discarded and counted (R257, R294). -/
def upDiscarded (s : State) (l : Lane) : State :=
  modLane s l (fun L => { L with fld := { L.fld with inFlight := none, upErr := satInc L.fld.upErr } })

/-- The lane's refresh is no longer in flight. -/
def upTaken (s : State) (l : Lane) : State := modLane s l (fun L => { L with fld := { L.fld with inFlight := none } })

section
variable {s : State} {l : Lane} {u : UpFrame} (hr : runs s l = true) (hu : (lane s l).fld.inFlight = some u) {err : BitVec 1024}
include hr hu

theorem exec_upstream_bad (hb : ∀ w, receiveUp u err = some w → refreshOk (lane s l).fld.ref w.refresh = false) :
    exec (.upstreamRefresh l err) s = .next (upDiscarded s l) := by
  show execUpstreamRefresh l err s = _
  have lost : modLane (upTaken s l) l (fun L => { L with fld := { L.fld with upErr := satInc L.fld.upErr } }) = upDiscarded s l :=
    modLane_modLane s l _ _
  rw [← lost]
  unfold execUpstreamRefresh
  rw [hu]
  dsimp only
  rw [if_neg (by rw [hr]; decide)]
  cases k : receiveUp u err with
  | none => rfl
  | some w =>
    simp only [hb w k]
    rfl

theorem exec_upstream_good {w : UpFrame} (hw : receiveUp u err = some w) (ho : refreshOk (lane s l).fld.ref w.refresh = true) :
    exec (.upstreamRefresh l err) s = .next (acceptUp (upTaken s l) l w) := by
  show execUpstreamRefresh l err s = _
  unfold execUpstreamRefresh
  rw [hu]
  dsimp only
  rw [if_neg (by rw [hr]; decide), hw]
  exact congrArg Host.Outcome.next (if_pos ho)

end

theorem streamSide_warnLevel (s : State) (l : Lane) (k : Nat) (old new : BitVec 16) (m : Lane) :
    streamSide (lane (warnLevel s l k old new) m).fld = streamSide (lane s m).fld :=
  streamSide_of (chg_warnLevel s l k old new (by decide) (changesOnly_refl records s)) rfl m

theorem streamSide_modLane (s : State) (l : Lane) {f : LaneState → LaneState} (hf : ∀ L, streamSide (f L).fld = streamSide L.fld) (m : Lane) :
    streamSide (lane (modLane s l f) m).fld = streamSide (lane s m).fld := by
  rw [lane_modLane]
  split
  · next e => rw [e, hf]
  · rfl

theorem streamSide_takeSample (s : State) (l : Lane) (u : UpFrame) (m : Lane) :
    streamSide (lane (takeSample s l u) m).fld = streamSide (lane s m).fld := by
  unfold takeSample
  repeat' split
  · rfl
  · next t _ _ =>
    exact (streamSide_modLane _ l (fun _ => by rfl) m).trans
      (streamSide_of (chg_countSwitchOns s l t (by decide) (changesOnly_refl [.lifetime] s)) rfl m)
  · rfl

theorem streamSide_stuckOpenCheck (s : State) (l : Lane) (r : PerLane Word) (m : Lane) :
    streamSide (lane (stuckOpenCheck s l r) m).fld = streamSide (lane s m).fld := by
  unfold stuckOpenCheck
  extract_lets x now both fresh s1 s2
  have marked : streamSide (lane s1 m).fld = streamSide (lane s m).fld :=
    streamSide_modLane s l (f := fun L => { L with fld := { L.fld with openRun := now, openSeen := both } }) (fun _ => rfl) m
  have raised : changesOnly (records ++ [.field, .lifetime]) s1 s2 :=
    changes_foldS _ _ (fun _ k h => changes_foldS _ _ (fun _ _ => chg_stuckOpen _ _ (by decide)) h) (changesOnly_refl _ s1)
  split
  · refine (streamSide_of (changes_foldS (ps := records ++ [.field, .lifetime]) _ _ (fun t i h => ?_) raised) rfl m).trans marked
    split
    · exact chg_retireOut _ _ _ _ (by decide) h
    · exact h
  · exact marked

/-- An accepted refresh becomes the reference and ends the silence; what else it brings leaves the lane's streams (R257, R260, R289). -/
theorem streamSide_acceptUp (s : State) (l : Lane) (u : UpFrame) : streamSide (lane (acceptUp s l u) l).fld =
    streamSide { (lane s l).fld with ref := some u.refresh, silent := 0, last := some u } := by
  unfold acceptUp
  extract_lets x s1 s2
  rw [streamSide_stuckOpenCheck, streamSide_takeSample, streamSide_warnLevel, streamSide_warnLevel]
  rw [show lane s1 l = _ from lane_modLane_self s l _]
  rfl

/-! ### The tick of the field die (R258, R259, R281, R283) -/

/-- The sample is taken and NEXT comes into force. -/
def tickTaken (f : Field) : Field :=
  { f with before := f.sample, sample := some (takeTick f (f.lastCycle + 1)), placing := false
           streams := f.streams.map (fun _ x => { x with
             drive := if x.lost then 0 else x.next, openUntilTick := x.lost && x.openUntilTick }) }

/-- A voted zero ends the wait of an output whose retirement has been cleared (R281). -/
def zeroEnds (f : Field) (n : Nat) : Field :=
  if commandedOn f n then f else modFieldOut f n (fun o => if o.zeroVoted then { o with awaitZero := false, zeroVoted := false } else o)

/-- The field die after a placed tick. -/
def fieldTicked (f : Field) : Field :=
  settleSwitches (eachOut votedChange (eachOut zeroEnds (groupTick (groupTick (tickTaken f) false) true)))

theorem exec_fieldTick {s : State} (hr : fieldReady s.field = true) (hp : s.field.placing = true) :
    exec .fieldTick s = .next { s with field := fieldTicked s.field } := by
  show execFieldTick s = _
  unfold execFieldTick
  dsimp only
  rw [if_pos (by rw [hr, hp]; rfl)]
  rfl

theorem crossing_fieldTicked (f : Field) : CrossingSame (tickTaken f) (fieldTicked f) := by
  have zero : ∀ (g : Field) (n : Nat), CrossingSame g (zeroEnds g n) := fun g n => by
    unfold zeroEnds
    split
    · exact crossing_refl g
    · exact crossing_modOut g n _
  exact crossing_trans (crossing_groupTick _ false) (crossing_trans (crossing_groupTick _ true) (crossing_trans (crossing_eachOut zero _)
    (crossing_trans (crossing_eachOut crossing_votedChange _) (crossing_settle _))))

/-! ### The statement -/

/-- Settles O40: a refresh goes out or comes in on its streams alone, and a crossing loss or a configuration found with it leaves them. -/
theorem crossingRefreshes : Obligations.CrossingRefreshes := by
  intro s
  refine ⟨fun m => crossingRefresh_starts m s, fun l d hd on err ns => ?_,
    fun l u hr hu err => ⟨fun hb => ?_, fun w hw ho => ?_⟩, fun hr hp => ?_⟩
  · have frame : changesOnly [.field] s (downDiscarded s l) :=
      chg_modField s (fun f => { downTaken f l with downErr := satInc f.downErr }) (by decide) (changesOnly_refl _ s)
    refine ⟨fun h => ⟨_, exec_downstream_unreadable hd on h ns, frame, rfl⟩, fun e he => ⟨fun h => ?_, fun h1 h2 => ?_⟩⟩
    · have no : ¬ downOk (downTaken s.field l) l e ns = true := by
        rw [downOk_iff]
        rintro ⟨ok, free⟩
        obtain h | ⟨ht, hf, hn⟩ := h
        · rw [h] at ok
          cases ok
        · rw [ht, hf] at free
          obtain k | k | k := free
          · cases k
          · cases k
          · omega
      exact ⟨_, (exec_downstream_read hd on he ns).trans (by rw [if_neg no]), frame, rfl⟩
    · have run := (exec_downstream_read hd on he ns).trans (by rw [if_pos ((downOk_iff s l e ns).2 ⟨h1, h2⟩)])
      exact ⟨_, run, frame_next run (chg_execDownstreamRefresh l err ns s s (by decide) (changesOnly_refl _ s)), downAccepted_shows s l e⟩
  · obtain ⟨t, run, frame, own, others⟩ := modLane_effect (exec_upstream_bad hr hu hb) (laneOnly_fld _ _)
    exact ⟨t, run, frame, congrArg LaneState.fld own, others⟩
  · have run := exec_upstream_good hr hu hw ho
    obtain ⟨ref, silent, inFlight, last, upErr, -, -⟩ := streamSide_eq (streamSide_acceptUp (upTaken s l) l w)
    have taken : (lane (upTaken s l) l).fld = { (lane s l).fld with inFlight := none } := congrArg LaneState.fld (lane_modLane_self s l _)
    rw [taken] at inFlight upErr
    refine ⟨_, run, frame_next run (chg_execUpstreamRefresh l err s s (by decide) (changesOnly_refl _ s)), ref, silent, last, inFlight, upErr⟩
  · have same := crossing_fieldTicked s.field
    refine ⟨_, exec_fieldTick hr hp, frame_next (exec_fieldTick hr hp) (chg_execFieldTick s s (by decide) (changesOnly_refl _ s)), same.sample,
      same.before, same.placing, fun l => ?_⟩
    rw [same.streams]
    exact congrArg StreamRec.drive (get_map _ _ l)

end Sys2Proof.Laws

/-! ## The Alusk node: states, and what its frames leave (R202, R228 to R231) -/

namespace Sys2Proof.Laws

open Sys2Proof Sys2Proof.Machine Sys2Proof.Safety

/-! ### The bus alone changes -/

theorem alk_of {ps : List Part} {s t : State} (h : changesOnly ps s t) (hp : ps.contains .alk = false := by rfl) : t.alk = s.alk :=
  (h .alk hp).1

/-- A change of the bus alone. -/
theorem changes_alk (s : State) (a : Alk) : changesOnly [.alk] s { s with alk := a } :=
  changes_module (s := s) rfl (fun p h => by
    cases p
    case alk => exact Bool.noConfusion (show true = false from h)
    all_goals trivial) (changesOnly_refl _ s)

theorem alk_setFirst (s : State) (n : BitVec 10) : (setFirst s n).alk = { s.alk with firstNode := n } := by
  unfold setFirst
  split
  · next h => rw [← h]
  · exact alk_of (chg_eicRaiseAll _ 37 (by decide) (changesOnly_refl [.eic, .ports] _))

theorem mod_setFirst (s : State) (n : BitVec 10) : (setFirst s n).mod = s.mod :=
  same_mod (chg_setFirst s n (by decide) (changesOnly_refl [.eic, .alk, .ports] s)) rfl rfl

/-- A SYNC of node 1 is a backup SYNC (R231). -/
theorem noteBackup_eq (s : State) (x : RxFrame) :
    noteBackup s x = { s with alk := { s.alk with backupNow := s.alk.backupNow || decide (fromNode x.frame = 1) } } := by
  unfold noteBackup
  split
  · next h => rw [decide_eq_true h, Bool.or_true]
  · next h => rw [decide_eq_false h, Bool.or_false]

theorem alk_noteBackup (s : State) (x : RxFrame) :
    (noteBackup s x).alk = { s.alk with backupNow := s.alk.backupNow || decide (fromNode x.frame = 1) } := by rw [noteBackup_eq]

/-- Only frames have gone out. -/
def sendsOnly (s t : State) : Prop := ∃ tx, t = { s with alk := { s.alk with tx := tx } }

theorem sends_refl (s : State) : sendsOnly s s := ⟨s.alk.tx, rfl⟩

theorem sends_trans {s t u : State} (h : sendsOnly s t) (k : sendsOnly t u) : sendsOnly s u := by
  obtain ⟨a, rfl⟩ := h
  obtain ⟨b, rfl⟩ := k
  exact ⟨b, rfl⟩

theorem sends_foldS {α : Type} {f : State → α → State} (hf : ∀ t x, sendsOnly t (f t x)) (xs : List α) (s : State) : sendsOnly s (foldS xs f s) := by
  unfold foldS
  induction xs generalizing s with
  | nil => exact sends_refl s
  | cons x xs ih => exact sends_trans (hf s x) (ih _)

theorem sends_sendOn (s : State) (g : Fin 4) (m : Medium) (sides : List Side) (up : Bool) (at1 : Side → Time) (f : Side → Frame) :
    sendsOnly s (sendOn s g m sides up at1 f) := by
  unfold sendOn
  split
  · exact sends_refl s
  · exact ⟨_, rfl⟩

theorem sends_sendAll (s : State) (now : Time) (f : State → Nat → Frame) : sendsOnly s (sendAll s now f) := by
  unfold sendAll
  extract_lets copy one
  have copies : ∀ (t : State) (g : Fin 4) (m : Medium), sendsOnly t (one t g m) := fun t g m => by
    dsimp only [one]
    split
    · exact sends_trans (sends_sendOn ..) (sends_sendOn ..)
    · exact sends_sendOn ..
  exact sends_foldS (fun t g => sends_trans (copies t g .X) (copies _ g .Y)) segments s

theorem sends_sendBackup (s : State) (g : Fin 4) (m : Medium) (e : Int) : sendsOnly s (sendBackup s g m e) :=
  sends_trans (sends_sendOn ..) (sends_sendOn ..)

theorem sends_sendSync (s : State) (m : Medium) (e : Int) : sendsOnly s (sendSync s m e) :=
  sends_foldS (fun _ _ => sends_sendOn ..) segments s

/-- The first SYNC goes out, and from node 1 it is a backup SYNC (R231). -/
theorem firstSync_sends (s : State) : sendsOnly (if ownNode s = 0 then s else { s with alk := { s.alk with backupNow := true } }) (firstSync s) := by
  unfold firstSync
  split
  · exact sends_trans (sends_sendSync s .X 0) (sends_sendSync _ .Y 0)
  · exact sends_foldS (fun t g => sends_trans (sends_sendBackup t g .X 0) (sends_sendBackup _ g .Y 0)) segments _

/-! ### SILENT, LISTEN and the cold start (R228, R229, R516) -/

theorem exec_silentTimeout {s : State} (h : s.alk.node = .silent) : exec .silentTimeout s = .next (enterListen s) :=
  congrArg Host.Outcome.next (if_pos h)

/-- A whole number of nanoseconds as a time, which saturates (R51). -/
theorem toNat_timeAdd_zero (n : Nat) : (timeAdd 0 n).toNat = min n (2 ^ 64 - 1) := by
  unfold timeAdd
  have zero : (0 : Time).toNat + n = n := Nat.zero_add n
  rw [zero]
  split
  · rw [BitVec.toNat_allOnes]
    omega
  · rw [BitVec.toNat_ofNat]
    omega

/-- The node cold-starts at a time. -/
def coldStarted (s : State) (now : Time) : State :=
  { s with alk := { s.alk with node := .coldStart, t0 := coldT0 s now, coldStarts := satInc s.alk.coldStarts } }

theorem exec_listenTimeout_starts {s : State} (h : s.alk.node = .listen) (hn : (ownNode s).toNat ≤ 1) (hc : s.alk.heardCold = false) (now : Time) :
    exec (.listenTimeout now) s = .next (sendAll (coldStarted s now) now (fun u g => coldFrame u g now (coldT0 s now))) := by
  show execListenTimeout now s = _
  unfold execListenTimeout
  rw [if_pos (by simp [h, hn, hc])]
  rfl

theorem exec_listenTimeout_waits {s : State} (h : 1 < (ownNode s).toNat ∨ s.alk.heardCold = true) (now : Time) :
    exec (.listenTimeout now) s = .next s := by
  show execListenTimeout now s = _
  unfold execListenTimeout
  rw [if_neg]
  obtain h | h := h
  · simp [Nat.not_le.2 h]
  · simp [h]

/-- The node of a cold start at its T0: IN_SYNC and the first node, at tick 0 (R228, R229). -/
def coldTicked (s : State) : State :=
  let s1 := setFirst { s with alk := { s.alk with node := .inSync, outRun := 0, missRun := 0, blockRun := 0 } } (ownNode s)
  { s1 with mod := { s1.mod with cycle := 0, tickTime := s.alk.t0, ticking := true, firstTick := true } }

theorem exec_coldStartT0 {s : State} (h : s.alk.node = .coldStart) : exec .coldStartT0 s = .next (firstSync
    (if decide (s.mod.st = .boot) || !s.mod.ticking then lanesSync (coldTicked s) else coldTicked s)) :=
  congrArg Host.Outcome.next (if_pos h)

/-- The first tick of a cold start: the node, the first node, and the module's tick (R228, R229). -/
theorem coldStartT0_ticks {s : State} (h : s.alk.node = .coldStart) : ∃ t, exec .coldStartT0 s = .next t ∧ t.alk.node = .inSync ∧
    t.alk.firstNode = ownNode s ∧ t.mod.cycle = 0 ∧ t.mod.tickTime = s.alk.t0 ∧ t.mod.ticking = true ∧ t.mod.st = s.mod.st := by
  refine ⟨_, exec_coldStartT0 h, ?_⟩
  generalize hu : (if decide (s.mod.st = .boot) || !s.mod.ticking then lanesSync (coldTicked s) else coldTicked s) = u
  have starts : u.mod = (coldTicked s).mod ∧ u.alk = (coldTicked s).alk := by
    rw [← hu]
    split
    · have frame := chg_lanesSync (coldTicked s) (by decide) (changesOnly_refl [.laneState, .life, .bist, .free] _)
      exact ⟨same_mod frame rfl rfl, alk_of frame⟩
    · exact ⟨rfl, rfl⟩
  have bus : (coldTicked s).alk = { s.alk with node := .inSync, outRun := 0, missRun := 0, blockRun := 0, firstNode := ownNode s } :=
    alk_setFirst _ _
  have mode : (coldTicked s).mod.st = s.mod.st := by
    show (setFirst _ _).mod.st = _
    rw [mod_setFirst]
  obtain ⟨tx, sent⟩ := firstSync_sends u
  have kept : (firstSync u).alk.node = u.alk.node ∧ (firstSync u).alk.firstNode = u.alk.firstNode ∧ (firstSync u).mod = u.mod := by
    rw [sent]
    split
    · exact ⟨rfl, rfl, rfl⟩
    · exact ⟨rfl, rfl, rfl⟩
  obtain ⟨node, first, ticks⟩ := kept
  rw [node, first, ticks, starts.1, starts.2, bus]
  exact ⟨rfl, rfl, rfl, rfl, rfl, mode⟩

/-! ### The loss of sync and corrupt frames (R209, R228, R234) -/

/-- The event of the loss of sync has been raised. -/
def leftNoted (s : State) : State :=
  eventAll { s with free := s.free + 1 } 34 0x0300 (le 4 (alkOffset s).toNat ++ le 4 (Config.freeValue s.free).toNat)

theorem exec_leftSync {s : State} (h : losesSync s = true) : exec .leftSync s = .next (setFirst (enterListen (leftNoted s)) 0x3FF) :=
  congrArg Host.Outcome.next (if_pos h)

theorem losesSync_of {s : State} (h : s.alk.node = .inSync) (hr : s.alk.outRun ≥ 3 ∨ s.alk.missRun ≥ 3 ∨
    s.alk.blockRun + (if s.alk.blockNow then 1 else 0) ≥ 3) : losesSync s = true := by
  simp only [losesSync, h, decide_true, Bool.true_and, Bool.or_eq_true, decide_eq_true_eq, or_assoc]
  exact hr

/-- A corrupt frame counts against its medium, and silences a node that listens or cold-starts (R228, R234). -/
theorem corruptSeen_shows (s : State) (g : Fin 4) (m : Medium) : changesOnly [.alk, .lifetime] s (corruptSeen s g m) ∧
    sget 0 (corruptSeen s g m).cellar.life.fcs (mediumIx g m) = satInc (sget 0 s.cellar.life.fcs (mediumIx g m)) ∧
    ((corruptSeen s g m).alk.node = .silent ↔ s.alk.node = .listen ∨ s.alk.node = .coldStart ∨ s.alk.node = .silent) ∧
    (s.alk.node ≠ .listen → s.alk.node ≠ .coldStart → (corruptSeen s g m).alk = s.alk) := by
  have count : sget 0 (countFcs s g m).cellar.life.fcs (mediumIx g m) = satInc (sget 0 s.cellar.life.fcs (mediumIx g m)) := by
    show sget 0 (smod 0 s.cellar.life.fcs (mediumIx g m) satInc) (mediumIx g m) = _
    rw [sget_smod, if_pos rfl]
  refine ⟨chg_corruptSeen s g m (by decide) (changesOnly_refl _ s), ?_⟩
  unfold corruptSeen
  dsimp only
  split
  · next h =>
    exact ⟨count, ⟨fun _ => h.imp_right .inl, fun _ => rfl⟩, fun h1 h2 => absurd h (not_or.2 ⟨h1, h2⟩)⟩
  · next h =>
    exact ⟨count, ⟨fun k => .inr (.inr k), fun k => (or_assoc.2 k).resolve_left h⟩, fun _ _ => rfl⟩

theorem exec_corruptFrame {s : State} {g : Fin 4} {m : Medium} (h : mediumSends s g m = true) (hn : s.alk.node ≠ .down) :
    exec (.corruptFrame g m) s = .next (corruptSeen s g m) :=
  congrArg Host.Outcome.next (if_pos (by rw [h, decide_eq_true hn]; rfl))

/-! ### What the port dies do with a copy (R202, R214, R230, R385) -/

/-- The copy that node 1 forwards. -/
def forwarded (x : RxFrame) : TxFrame :=
  { seg := x.seg, medium := x.medium, side := x.side
    up := decide (x.frame.type = 0x11) || (decide (x.frame.type = 0x12) && decide (1 < (fromNode x.frame).toNat))
    sent := timeAdd x.arrival (Config.forwarding (4 * x.seg.val + 2 * x.medium.idx + (match x.side with | .A => 0 | .B => 1))).val
    frame := x.frame }

section
variable {s : State} {x : RxFrame} (ht : txDis s x.seg x.medium = false) (hd : s.alk.node ≠ .down) (hf : fromNode x.frame ≠ ownNode s)
include ht hd hf

/-- A copy of another node on a medium that sends. -/
theorem portSees_other (k : Nat) : portSees s x k = { s with alk := { s.alk with
    tx := if ownNode s = 1 ∧ endsLine s x.seg = false then s.alk.tx ++ [forwarded x] else s.alk.tx
    spoiled := s.alk.spoiled || (!partnerOut s x.frame && inOwnSlot s x)
    heard := if fcsGood x.frame && knownType x.frame && !partnerOut s x.frame then bset s.alk.heard (heardAt x k) else s.alk.heard } } := by
  have drops : portDrops s x.frame = partnerOut s x.frame := by
    unfold portDrops
    rw [decide_eq_false hf, Bool.false_or]
  have own : (ownNode s = 1 ∧ decide (fromNode x.frame = ownNode s) = false ∧ endsLine s x.seg = false) ↔
      (ownNode s = 1 ∧ endsLine s x.seg = false) := by
    rw [decide_eq_false hf]
    simp
  unfold portSees
  rw [if_neg (by rw [ht, decide_eq_false hd]; exact Bool.false_ne_true)]
  simp only [drops, own]
  rfl

/-- What a copy leaves: node 1 forwards it, unless it ends a line, and one from another sender in an own slot spoils the cycle. -/
theorem portSees_shows (k : Nat) : changesOnly [.alk] s (portSees s x k) ∧ (portSees s x k).alk.node = s.alk.node ∧
    (ownNode s ≠ 1 → (portSees s x k).alk.tx = s.alk.tx) ∧
    (ownNode s = 1 → endsLine s x.seg = true → (portSees s x k).alk.tx = s.alk.tx) ∧
    (ownNode s = 1 → endsLine s x.seg = false → ∃ f, (portSees s x k).alk.tx = s.alk.tx ++ [f] ∧ f.frame = x.frame ∧ f.seg = x.seg ∧
      f.medium = x.medium ∧ f.side = x.side ∧
      (f.up = true ↔ x.frame.type = 0x11 ∨ (x.frame.type = 0x12 ∧ 1 < (fromNode x.frame).toNat))) ∧
    ((portSees s x k).alk.spoiled = true ↔ s.alk.spoiled = true ∨ (partnerOut s x.frame = false ∧ inOwnSlot s x = true)) := by
  rw [portSees_other ht hd hf k]
  refine ⟨changes_alk s _, rfl, fun h => if_neg fun c => h c.1, fun _ h => if_neg fun c => ?_,
    fun h1 h2 => ⟨forwarded x, if_pos ⟨h1, h2⟩, rfl, rfl, rfl, rfl, ?_⟩, ?_⟩
  · rw [h] at c
    cases c.2
  · simp only [forwarded, Bool.or_eq_true, Bool.and_eq_true, decide_eq_true_eq]
  · simp only [Bool.or_eq_true, Bool.and_eq_true, Bool.not_eq_true']

/-- A copy whose FCS fails is marked nowhere (R233). -/
theorem portSees_corrupt (hc : fcsGood x.frame = false) (j k : Nat) : portSees s x j = portSees s x k := by
  rw [portSees_other ht hd hf, portSees_other ht hd hf, hc]
  rfl

/-! ### SYNC and COLD_START: which copies are followed (R207, R208, R228) -/

theorem exec_sync_corrupt (hc : fcsGood x.frame = false) : exec (.sync x) s = .next (corruptSeen (portSees s x 577) x.seg x.medium) := by
  show execSync x s = _
  unfold execSync
  simp only [ht, decide_eq_false hd, decide_eq_false hf, hc]
  rfl

theorem exec_coldStart_corrupt (hc : fcsGood x.frame = false) :
    exec (.coldStart x) s = .next (corruptSeen (portSees s x 578) x.seg x.medium) := by
  show execColdStart x s = _
  unfold execColdStart
  simp only [ht, decide_eq_false hd, decide_eq_false hf, hc]
  rfl

theorem exec_coldStart_seen (hc : fcsGood x.frame = true) (hm : mediumUsed s x.seg x.medium = true) (hy : x.frame.type = 0x02) :
    exec (.coldStart x) s = .next (match s.alk.node with
      | .coldStart => enterSilent (portSees s x 578)
      | .listen => { portSees s x 578 with alk := { (portSees s x 578).alk with heardCold := true } }
      | _ => portSees s x 578) := by
  have known : knownType x.frame = true := by simp [knownType, hy]
  have other : decide (x.frame.type ≠ 0x02) = false := by simp [hy]
  show execColdStart x s = _
  unfold execColdStart
  simp only [ht, decide_eq_false hd, decide_eq_false hf, hc, known, hm, other]
  cases s.alk.node <;> rfl

theorem exec_sync_seen (hc : fcsGood x.frame = true) (hm : mediumUsed s x.seg x.medium = true) (hy : x.frame.type = 0x01)
    (hs : syncSource s x = true) : exec (.sync x) s = .next (match s.alk.node with
      | .listen => acceptSync (joinSync (portSees s x 577) x) x 0
      | .measure => judgeSync (portSees s x 577) x
      | .align => judgeSync (portSees s x 577) x
      | .inSync => judgeSync (portSees s x 577) x
      | _ => portSees s x 577) := by
  have known : knownType x.frame = true := by simp [knownType, hy]
  have other : decide (x.frame.type ≠ 0x01) = false := by simp [hy]
  show execSync x s = _
  unfold execSync
  simp only [ht, decide_eq_false hd, decide_eq_false hf, hc, known, hm, other, hs]
  cases s.alk.node <;> rfl

end

/-! ### The SYNC that a node takes its time or its offset from (R208, R209, R228, R230, R231) -/

/-- The segment of an accepted SYNC has its SYNC of the cycle. -/
theorem acceptSync_marks (s : State) (x : RxFrame) (e : Int) : (acceptSync s x e).alk.segNow.getLsbD x.seg.val = true := by
  unfold acceptSync
  split
  · assumption
  · exact vput_self _ x.seg.isLt true

/-- A listening node takes time and cycle from the SYNC (R228, R476). -/
theorem joinSync_ticks (s : State) (x : RxFrame) : (joinSync s x).mod.tickTime = x.frame.time ∧ (joinSync s x).mod.ticking = true ∧
    cycle16 (joinSync s x) = x.frame.cycle := by
  unfold joinSync
  extract_lets own hi known _ _ s1
  have noted : (noteBackup (lanesSync s1) x).mod = s1.mod := by
    rw [show (noteBackup (lanesSync s1) x).mod = (lanesSync s1).mod from
      same_mod (chg_noteBackup _ x (by decide) (changesOnly_refl [.alk] _)) rfl rfl]
    exact same_mod (chg_lanesSync s1 (by decide) (changesOnly_refl [.laneState, .life, .bist, .free] s1)) rfl rfl
  unfold cycle16
  rw [noted]
  refine ⟨rfl, rfl, BitVec.eq_of_toNat_eq ?_⟩
  have small := x.frame.cycle.isLt
  show ((BitVec.ofNat 32 (x.frame.cycle.toNat + 65536 * hi)).setWidth 16).toNat = _
  rw [BitVec.toNat_setWidth, BitVec.toNat_ofNat]
  omega

/-- The node that a listening module is after the SYNC it accepts. -/
theorem sync_joins (u : State) (x : RxFrame) : let t := acceptSync (joinSync u x) x 0
    t.mod.tickTime = x.frame.time ∧ t.mod.ticking = true ∧ cycle16 t = x.frame.cycle ∧ t.alk.segNow.getLsbD x.seg.val = true := by
  intro t
  obtain ⟨time, ticking, cycle⟩ := joinSync_ticks u x
  have kept : t.mod = (joinSync u x).mod := same_mod (chg_acceptSync _ x 0 (by decide) (changesOnly_refl [.eic, .alk, .ports] _)) rfl rfl
  unfold cycle16 at *
  rw [kept]
  exact ⟨time, ticking, cycle, acceptSync_marks _ x 0⟩

/-- A deviation within 50 ns, from a node with the same timing parameters (R230). -/
def syncGood (s : State) (x : RxFrame) (e : Int) : Bool :=
  decide (-50 ≤ e) && decide (e ≤ 50) && decide (payNat x.frame 4 4 = (timingCheck s).toNat)

/-- The SYNC makes an aligning node IN_SYNC (R230). -/
def syncReady (s : State) (x : RxFrame) (e : Int) : Bool :=
  decide (s.alk.node = .align) && s.alk.goodSync && syncGood s x e && !s.alk.spoiled

/-- What a node takes from the first SYNC of a cycle (R208, R209, R230). -/
theorem alk_takeSync {s : State} (h : s.alk.segNow = 0) (x : RxFrame) (e : Int) : (takeSync s x e).alk = { s.alk with
    offset := BitVec.ofInt 16 e, warn := decide (e > 50) || decide (e < -50)
    warnings := if decide (e > 50) || decide (e < -50) then satInc s.alk.warnings else s.alk.warnings
    outRun := if decide (e > 150) || decide (e < -150) then min 3 (s.alk.outRun + 1) else 0
    missRun := 0, goodSync := syncGood s x e, spoiled := false, node := if syncReady s x e then .inSync else s.alk.node
    firstNode := if syncReady s x e && decide (ownNode s = 0) then 0 else fromNode x.frame } := by
  unfold takeSync
  extract_lets first good far warn ready _ s1 from1
  have one : first = true := decide_eq_true h
  have isReady : ready = syncReady s x e := by
    simp only [ready, one, Bool.true_and]
    rfl
  rw [alk_setFirst, alk_of (chg_eicLevelAll s1 32 _ (by decide) (changesOnly_refl [.eic, .ports] s1))]
  simp only [s1, from1, isReady, one, if_true]
  rfl

/-- A SYNC of the cycle inside its window is accepted (R208, R224). -/
theorem judgeSync_follows {s : State} {x : RxFrame} (h1 : -250 ≤ syncDev s x) (h2 : syncDev s x ≤ 250) (ht : x.frame.time = s.mod.tickTime)
    (hc : x.frame.cycle = cycle16 s) (hn : s.alk.node = .inSync → ownNode s ≠ 0) (hs : s.alk.segNow = 0) :
    judgeSync s x = markSegment (takeSync (noteBackup s x) x (syncDev s x)) x.seg := by
  have slot : inSlot (syncDev s x) = true := by simp [inSlot, h1, h2]
  have now : syncNow s x = true := by simp [syncNow, ht, hc]
  have follows : ¬ (decide (s.alk.node = .inSync) && decide (ownNode s = 0)) = true := by
    simp only [Bool.and_eq_true, decide_eq_true_eq, not_and]
    exact hn
  have fresh : ¬ (noteBackup s x).alk.segNow.getLsbD x.seg.val = true := by
    rw [alk_noteBackup]
    show ¬ s.alk.segNow.getLsbD x.seg.val = true
    rw [hs]
    simp
  unfold judgeSync
  simp only [slot, now, Bool.not_true, Bool.false_eq_true, if_false, if_neg follows]
  exact if_neg fresh

/-- What a node shows after the SYNC it has followed (R208, R209, R230, R231). -/
theorem followed_shows {s : State} (hs : s.alk.segNow = 0) (x : RxFrame) (e : Int) :
    let t := markSegment (takeSync (noteBackup s x) x e) x.seg
    t.alk.offset = BitVec.ofInt 16 e ∧ t.alk.backupNow = (s.alk.backupNow || decide (fromNode x.frame = 1)) ∧
    (t.alk.warn = true ↔ 50 < e ∨ e < -50) ∧ t.alk.warnings = (if 50 < e ∨ e < -50 then satInc s.alk.warnings else s.alk.warnings) ∧
    t.alk.missRun = 0 ∧ t.alk.outRun = (if 150 < e ∨ e < -150 then min 3 (s.alk.outRun + 1) else 0) ∧
    (∀ i, i < 4 → t.alk.segNow.getLsbD i = decide (i = x.seg.val)) ∧
    (s.alk.node = .inSync → t.alk.node = .inSync ∧ t.alk.firstNode = fromNode x.frame) ∧
    (s.alk.node = .align → (t.alk.node = .inSync ↔ s.alk.goodSync = true ∧ s.alk.spoiled = false ∧ -50 ≤ e ∧ e ≤ 50 ∧
      payNat x.frame 4 4 = (timingCheck s).toNat)) := by
  intro t
  have bus := alk_takeSync (s := noteBackup s x) (by rw [alk_noteBackup]; exact hs) x e
  have ready : syncReady (noteBackup s x) x e = syncReady s x e := by
    rw [noteBackup_eq]
    rfl
  rw [ready, alk_noteBackup] at bus
  have mark : t.alk = { (takeSync (noteBackup s x) x e).alk with segNow := vput (takeSync (noteBackup s x) x e).alk.segNow x.seg.val true } := rfl
  rw [mark, bus]
  refine ⟨rfl, rfl, ?_, ?_, rfl, ?_, fun i hi => ?_, fun h => ?_, fun h => ?_⟩
  · simp only [Bool.or_eq_true, decide_eq_true_eq, gt_iff_lt]
  · simp only [Bool.or_eq_true, decide_eq_true_eq, gt_iff_lt]
  · simp only [Bool.or_eq_true, decide_eq_true_eq, gt_iff_lt]
  · show (vput s.alk.segNow x.seg.val true).getLsbD i = _
    by_cases k : i = x.seg.val
    · rw [k, vput_self _ x.seg.isLt, decide_eq_true rfl]
    · rw [vput_other _ _ k, hs, decide_eq_false k]
      simp
  · have no : syncReady s x e = false := by simp [syncReady, h]
    rw [no, h]
    exact ⟨rfl, rfl⟩
  · have yes : syncReady s x e = true ↔ s.alk.goodSync = true ∧ s.alk.spoiled = false ∧ -50 ≤ e ∧ e ≤ 50 ∧
        payNat x.frame 4 4 = (timingCheck s).toNat := by
      simp only [syncReady, syncGood, h, decide_true, Bool.true_and, Bool.and_eq_true, decide_eq_true_eq, Bool.not_eq_true']
      tauto
    rw [← yes, h]
    dsimp only
    split
    · next k => exact ⟨fun _ => k, fun _ => rfl⟩
    · next k => exact ⟨fun c => (by cases c), fun c => absurd c k⟩

/-- A SYNC out of its window is a timing error (R224). -/
theorem judgeSync_late {s : State} {x : RxFrame} (h : syncDev s x < -250 ∨ 250 < syncDev s x) :
    judgeSync s x = timingError s none (syncDev s x) := by
  have slot : inSlot (syncDev s x) = false := by
    simp only [inSlot, Bool.and_eq_false_iff, decide_eq_false_iff_not]
    omega
  unfold judgeSync
  simp only [slot, Bool.not_false, if_true]

theorem timingError_shows (s : State) (n : Option Nat) (d : Int) : (timingError s n d).alk = s.alk ∧
    (timingError s n d).cellar.life.timingTotal = satInc s.cellar.life.timingTotal := by
  unfold timingError
  extract_lets s1 k
  have rec1 := chg_recordAll { s1 with free := s1.free + 1 } 0x0301 (le 2 k ++ le 2 0 ++ le 4 (BitVec.ofInt 32 d).toNat) (by decide)
    (changesOnly_refl records _)
  have bus := alk_of rec1
  have life := lifetime_of rec1
  exact ⟨bus, congrArg Lifetime.timingTotal life⟩

/-- What the judgement of a SYNC reads is as before the port dies have noted it. -/
theorem syncForm_portSees (s : State) (x : RxFrame) (k : Nat) : syncDev (portSees s x k) x = syncDev s x ∧
    timingCheck (portSees s x k) = timingCheck s ∧ ownNode (portSees s x k) = ownNode s ∧ cycle16 (portSees s x k) = cycle16 s ∧
    (portSees s x k).mod = s.mod ∧ (portSees s x k).cellar = s.cellar := by
  obtain ⟨_, _, _, h⟩ := portSees_eq s x k
  rw [h]
  exact ⟨rfl, rfl, rfl, rfl, rfl, rfl⟩

theorem busKept_portSees (s : State) (x : RxFrame) (k : Nat) : (portSees s x k).alk.node = s.alk.node ∧
    (portSees s x k).alk.segNow = s.alk.segNow ∧ (portSees s x k).alk.backupNow = s.alk.backupNow ∧
    (portSees s x k).alk.warnings = s.alk.warnings ∧ (portSees s x k).alk.outRun = s.alk.outRun ∧
    (portSees s x k).alk.goodSync = s.alk.goodSync := by
  obtain ⟨_, _, _, h⟩ := portSees_eq s x k
  rw [h]
  exact ⟨rfl, rfl, rfl, rfl, rfl, rfl⟩

end Sys2Proof.Laws

/-! ## The Alusk node: what its slots send (R185, R204, R207, R231) -/

namespace Sys2Proof.Laws

open Sys2Proof Sys2Proof.Machine Sys2Proof.Safety

/-! ### The guardian (R226) -/

theorem guardStarts_of {e : Int} (h1 : -200 ≤ e) (h2 : e ≤ 200) : guardStarts e = true := by
  simp [guardStarts, h1, h2]

theorem guardStarts_not {e : Int} (h : e < -200 ∨ 200 < e) : guardStarts e = false := by
  simp only [guardStarts, Bool.and_eq_false_iff, decide_eq_false_iff_not]
  omega

/-- The frames of a slot that end within it (R226). -/
def endsInSlot (len : Nat) (e : Int) (x : TxFrame) : Bool := decide (e + (8 * (x.frame.payload.length + 56) : Nat) + 250 ≤ (len : Int))

/-- Of what a slot sends, the frames that end within it go out (R226). -/
theorem tx_guardCuts {s t : State} {fs : List TxFrame} (h : t.alk.tx = s.alk.tx ++ fs) (len : Nat) (e : Int) :
    (guardCuts s t len e).alk.tx = s.alk.tx ++ fs.filter (endsInSlot len e) := by
  show s.alk.tx ++ (t.alk.tx.drop s.alk.tx.length).filter (endsInSlot len e) = _
  rw [h, List.drop_left]

/-- Frames of one length go out together or not at all. -/
theorem filter_endsInSlot {len n : Nat} {e : Int} {fs : List TxFrame} (h : ∀ x ∈ fs, x.frame.payload.length = n) :
    (e + (8 * (n + 56) : Nat) + 250 ≤ (len : Int) → fs.filter (endsInSlot len e) = fs) ∧
    ((len : Int) < e + (8 * (n + 56) : Nat) + 250 → fs.filter (endsInSlot len e) = []) := by
  refine ⟨fun fits => List.filter_eq_self.2 fun x hx => ?_, fun late => List.filter_eq_nil_iff.2 fun x hx => ?_⟩
  · rw [endsInSlot, h x hx]
    exact decide_eq_true fits
  · rw [endsInSlot, h x hx, decide_eq_true_eq]
    exact Int.not_le.2 late

/-! ### A backup SYNC (R207, R231) -/

/-- Frames have gone out on the bus. -/
def busSends (s : State) (fs : List TxFrame) : State := { s with alk := { s.alk with tx := s.alk.tx ++ fs } }

/-- The backup SYNC of a segment on a medium, DOWN and to node 0 (R231). -/
def backupFrames (s : State) (g : Fin 4) (m : Medium) (e : Int) : List TxFrame :=
  let one := fun (up : Bool) (sd : Side) =>
    ({ seg := g, medium := m, side := sd, up := up, sent := startsAt s g m up 2000 e sd
       frame := sealFrame (syncFrame s g.val) 0 sd m 0 0 } : TxFrame)
  (sidesOf s g.val).map (one false) ++ (sidesOf s g.val).map (one true)

theorem sendOn_sends {s : State} {g : Fin 4} {m : Medium} (h : txDis s g m = false) (sides : List Side) (up : Bool) (at1 : Side → Time)
    (f : Side → Frame) : sendOn s g m sides up at1 f =
      busSends s (sides.map fun sd => { seg := g, medium := m, side := sd, up := up, sent := at1 sd, frame := f sd }) :=
  if_neg (by rw [h]; exact Bool.false_ne_true)

theorem sendBackup_sends {s : State} {g : Fin 4} {m : Medium} (h : txDis s g m = false) (e : Int) :
    sendBackup s g m e = busSends s (backupFrames s g m e) := by
  unfold sendBackup sendPlain
  dsimp only
  rw [sendOn_sends h, sendOn_sends (s := busSends s _) h]
  unfold busSends backupFrames
  dsimp only
  rw [List.append_assoc]

/-- Node 1 finds that a backup SYNC is due (R231). -/
def backupMarked (s : State) : State := { s with alk := { s.alk with backupNow := true } }

/-- Node 1 has sent its backup SYNC of a segment on both media (R231). -/
def backupSent (s : State) (g : Fin 4) (e : Int) : State := sendBackup (sendBackup (backupMarked s) g .X e) g .Y e

theorem backupSent_eq {s : State} {g : Fin 4} (hx : txDis s g .X = false) (hy : txDis s g .Y = false) (e : Int) :
    backupSent s g e = busSends (busSends (backupMarked s) (backupFrames s g .X e)) (backupFrames s g .Y e) := by
  unfold backupSent
  rw [sendBackup_sends (s := backupMarked s) hx]
  exact sendBackup_sends (s := busSends (backupMarked s) (backupFrames s g .X e)) hy e

theorem exec_backupSync {s : State} {g : Fin 4} (h1 : ownNode s = 1) (hn : s.alk.node = .inSync) (hp : s.mod.phase = .input)
    (hg : s.alk.segNow.getLsbD g.val = false) (ho : ownSyncSent s g = false) (e : Int) : exec (.backupSync ⟨g, e⟩) s = .next
      (if !guardStarts e then guardBlocks s else if s.alk.segNow = 0 then setFirst (backupSent s g e) 1 else backupSent s g e) := by
  show execBackupSync ⟨g, e⟩ s = _
  unfold execBackupSync
  rw [if_pos (by simp only [h1, hn, hp, hg, ho]; decide)]
  rfl

/-! ### A station's slot (R184, R185, R204) -/

/-- The lane whose Sluice gives a medium its content, of the two that vouch for the frame (R185, R204). -/
def contentLane (m : Medium) (a b : Lane) : Lane := match m with | .X => a | .Y => b

theorem codedFrame_pair {s : State} {a b : Lane} {r : List Lane} (hu : usableLanes s = a :: b :: r) {m : Medium} {y : Image}
    (hy : sluiceImage s (contentLane m a b) = some y) (f : Lane → Image → Frame) (code : Lane → Word) (sd : Side) :
    codedFrame s f code sd m = some (sealFrame (f (contentLane m a b) y) (a.num + 4 * b.num) sd m (code a) (code b)) := by
  unfold codedFrame
  rw [hu]
  exact congrArg (Option.map _) hy

theorem codedFrame_few {s : State} (h : (usableLanes s).length < 2) (f : Lane → Image → Frame) (code : Lane → Word) (sd : Side) (m : Medium) :
    codedFrame s f code sd m = none := by
  unfold codedFrame
  split
  · next a b r hu =>
    rw [hu] at h
    simp at h
  · rfl

section
variable (s : State) (i : Fin 512) (m : Medium) (c : StationCfg) (w : SlotEntry) (e : Int)

/-- What a station's slot sends, before the guardian cuts it. -/
def stationSent : State :=
  sendCoded s c.segment m (sidesOf s c.segment.val) false (w.start * 1000) e (fun _ y => stationFrame s y i.val c)
    (fun l => sget 0 (givenCodes s l).stations i.val)

/-- The frames of a station's slot, with the content of an image and the codes of two lanes. -/
def stationFrames (a b : Lane) (y : Image) : List TxFrame :=
  (sidesOf s c.segment.val).map fun sd =>
    { seg := c.segment, medium := m, side := sd, up := false, sent := startsAt s c.segment m false (w.start * 1000) e sd
      frame := sealFrame (stationFrame s y i.val c) (a.num + 4 * b.num) sd m (sget 0 (givenCodes s a).stations i.val)
        (sget 0 (givenCodes s b).stations i.val) }

variable {s m c}

theorem tx_sendCoded (ht : txDis s c.segment m = false) (f : Lane → Image → Frame) (code : Lane → Word) (start : Nat) :
    (sendCoded s c.segment m (sidesOf s c.segment.val) false start e f code).alk.tx =
      s.alk.tx ++ (sidesOf s c.segment.val).filterMap (fun sd => (codedFrame s f code sd m).map fun x =>
        { seg := c.segment, medium := m, side := sd, up := false, sent := startsAt s c.segment m false start e sd, frame := x }) := by
  unfold sendCoded
  rw [if_neg (by rw [ht]; exact Bool.false_ne_true)]
  rfl

theorem tx_stationSent (ht : txDis s c.segment m = false) {a b : Lane} {r : List Lane} (hu : usableLanes s = a :: b :: r) {y : Image}
    (hy : sluiceImage s (contentLane m a b) = some y) :
    (stationSent s i m c w e).alk.tx = s.alk.tx ++ stationFrames s i m c w e a b y := by
  refine (tx_sendCoded e ht _ _ _).trans (congrArg (s.alk.tx ++ ·) ?_)
  simp only [codedFrame_pair hu hy, Option.map_some, List.filterMap_eq_map']
  rfl

theorem tx_stationSent_few (ht : txDis s c.segment m = false) (h : (usableLanes s).length < 2) :
    (stationSent s i m c w e).alk.tx = s.alk.tx ++ [] := by
  refine (tx_sendCoded e ht _ _ _).trans (congrArg (s.alk.tx ++ ·) ?_)
  simp only [codedFrame_few h, Option.map_none]
  exact List.filterMap_eq_nil_iff.2 fun _ _ => rfl

variable {w} {i}

theorem exec_composeFrame {x : Image} (hn : s.alk.node = .inSync) (hp : s.mod.phase = .output) (hs : sendsStations s = true)
    (hx : cycleImage s = some x) (hc : stationCfg s i.val = some c) (hw : slotEntry s c.segment .stationOut i.val = some w) :
    exec (.composeFrame (.station i) m e) s = .next
      (if guardStarts e then guardCuts s (stationSent s i m c w e) (w.length * 1000) e else guardBlocks s) := by
  have own : ownSlot s (.station i) = some (w.start * 1000, w.length * 1000) := by
    unfold ownSlot
    dsimp only
    rw [hc]
    dsimp only
    rw [hw]
    rfl
  have frame : slotFrame s (.station i) m (w.start * 1000) e = some (stationSent s i m c w e) := by
    unfold slotFrame
    dsimp only
    rw [hx, hc]
    exact if_pos (by rw [hs, hp]; rfl)
  have sends : ¬ (!sendsIn s (.station i)) = true := by simp [sendsIn, hn]
  show execComposeFrame (.station i) m e s = _
  unfold execComposeFrame
  rw [if_neg sends, own]
  dsimp only
  rw [frame]

end

end Sys2Proof.Laws

/-! ## The Alusk node: its statement (R184 to R231) -/

namespace Sys2Proof.Laws

open Sys2Proof Sys2Proof.Machine Sys2Proof.Safety

/-! ### What each command shows of the node -/

/-- The cold start of node 0 or 1 that has heard none (R228, R229). -/
theorem listenTimeout_starts {s : State} (h : s.alk.node = .listen) (hn : (ownNode s).toNat ≤ 1) (hc : s.alk.heardCold = false) (now : Time) :
    ∃ t, exec (.listenTimeout now) s = .next t ∧ changesOnly [.alk] s t ∧ t.alk.node = .coldStart ∧
      t.alk.coldStarts = satInc s.alk.coldStarts ∧
      t.alk.t0.toNat = min ((now.toNat + 2 * periodNs s + 999) / 1000 * 1000) (2 ^ 64 - 1) := by
  have run := exec_listenTimeout_starts h hn hc now
  obtain ⟨tx, sent⟩ := sends_sendAll (coldStarted s now) now (fun u g => coldFrame u g now (coldT0 s now))
  refine ⟨_, run, frame_next run (chg_execListenTimeout now s s (by decide) (changesOnly_refl _ s)), ?_⟩
  rw [sent]
  exact ⟨rfl, rfl, toNat_timeAdd_zero _⟩

/-- The loss of sync: back to LISTEN, with no first node (R209, R228). -/
theorem leftSync_listens {s : State} (h : losesSync s = true) : ∃ t, exec .leftSync s = .next t ∧ t.alk.node = .listen ∧
    t.alk.firstNode = 0x3FF ∧ changesOnly (records ++ [.alk, .free]) s t := by
  have run := exec_leftSync h
  have frame := frame_next run (chg_execLeftSync s s (by decide) (changesOnly_refl (records ++ [.alk, .free]) s))
  refine ⟨_, run, ?_, ?_, frame⟩
  · rw [alk_setFirst]
    rfl
  · rw [alk_setFirst]

section
variable {s : State} {x : RxFrame} (ht : txDis s x.seg x.medium = false) (hd : s.alk.node ≠ .down) (hf : fromNode x.frame ≠ ownNode s)
include ht hd hf

/-- A corrupt copy counts alike whichever command brings it (R228, R234). -/
theorem corruptCopy_shows (hc : fcsGood x.frame = false) : ∃ t, exec (.sync x) s = .next t ∧ exec (.coldStart x) s = .next t ∧
    changesOnly [.alk, .lifetime] s t ∧
    sget 0 t.cellar.life.fcs (mediumIx x.seg x.medium) = satInc (sget 0 s.cellar.life.fcs (mediumIx x.seg x.medium)) ∧
    (t.alk.node = .silent ↔ s.alk.node = .listen ∨ s.alk.node = .coldStart ∨ s.alk.node = .silent) := by
  obtain ⟨-, count, silent, -⟩ := corruptSeen_shows (portSees s x 577) x.seg x.medium
  obtain ⟨-, -, -, -, -, cellar⟩ := syncForm_portSees s x 577
  obtain ⟨node, -⟩ := busKept_portSees s x 577
  rw [cellar] at count
  rw [node] at silent
  exact ⟨_, exec_sync_corrupt ht hd hf hc, by rw [exec_coldStart_corrupt ht hd hf hc, portSees_corrupt ht hd hf hc 578 577],
    chg_corruptSeen _ _ _ (by decide) (chg_portSees s x 577 (by decide) (changesOnly_refl _ s)), count, silent⟩

/-- A COLD_START silences a node that cold-starts, and a listening node waits for SYNC (R228, R229). -/
theorem coldStart_heard (hc : fcsGood x.frame = true) (hm : mediumUsed s x.seg x.medium = true) (hy : x.frame.type = 0x02) :
    (s.alk.node = .coldStart → ∃ t, exec (.coldStart x) s = .next t ∧ changesOnly [.alk] s t ∧ t.alk.node = .silent ∧
      t.alk.silences = satInc s.alk.silences) ∧
    (s.alk.node = .listen → exec (.coldStart x) s =
      .next { portSees s x 578 with alk := { (portSees s x 578).alk with heardCold := true } }) ∧
    (s.alk.node ≠ .coldStart → s.alk.node ≠ .listen → exec (.coldStart x) s = .next (portSees s x 578)) := by
  have run := exec_coldStart_seen ht hd hf hc hm hy
  refine ⟨fun h => ?_, fun h => run.trans (by rw [h]), fun h1 h2 => run.trans ?_⟩
  · have silences : (portSees s x 578).alk.silences = s.alk.silences := by
      obtain ⟨_, _, _, eq⟩ := portSees_eq s x 578
      rw [eq]
    exact ⟨enterSilent (portSees s x 578), run.trans (by rw [h]),
      chg_enterSilent _ (by decide) (chg_portSees s x 578 (by decide) (changesOnly_refl _ s)), rfl, congrArg satInc silences⟩
  · cases h : s.alk.node with
    | coldStart => exact absurd h h1
    | listen => exact absurd h h2
    | _ => rfl

section
variable (hc : fcsGood x.frame = true) (hm : mediumUsed s x.seg x.medium = true) (hy : x.frame.type = 0x01) (hs : syncSource s x = true)
include hc hm hy hs

/-- A node that measures, aligns or is IN_SYNC judges the SYNC (R208, R224). -/
theorem exec_sync_judged (hn : s.alk.node = .measure ∨ s.alk.node = .align ∨ s.alk.node = .inSync) :
    exec (.sync x) s = .next (judgeSync (portSees s x 577) x) := by
  refine (exec_sync_seen ht hd hf hc hm hy hs).trans ?_
  obtain h | h | h := hn
  · rw [h]
  · rw [h]
  · rw [h]

/-- A listening node takes time, cycle and the segment's SYNC (R228). -/
theorem sync_heard (h : s.alk.node = .listen) : ∃ t, exec (.sync x) s = .next t ∧ t.mod.tickTime = x.frame.time ∧ t.mod.ticking = true ∧
    cycle16 t = x.frame.cycle ∧ t.alk.segNow.getLsbD x.seg.val = true :=
  ⟨_, (exec_sync_seen ht hd hf hc hm hy hs).trans (by rw [h]), sync_joins (portSees s x 577) x⟩

/-- The first SYNC of the cycle, in its window, gives the offset, and with it the way to IN_SYNC (R208, R209, R224, R230, R231). -/
theorem sync_followed (hn : s.alk.node = .measure ∨ s.alk.node = .align ∨ (s.alk.node = .inSync ∧ ownNode s ≠ 0))
    (h1 : -250 ≤ syncDev s x) (h2 : syncDev s x ≤ 250) (htime : x.frame.time = s.mod.tickTime) (hcycle : x.frame.cycle = cycle16 s)
    (hg : s.alk.segNow = 0) : let e := syncDev s x
    ∃ t, exec (.sync x) s = .next t ∧ changesOnly [.alk, .eic, .ports] s t ∧ t.alk.offset = BitVec.ofInt 16 e ∧
      t.alk.backupNow = (s.alk.backupNow || decide (fromNode x.frame = 1)) ∧
      (t.alk.warn = true ↔ 50 < e ∨ e < -50) ∧ t.alk.warnings = (if 50 < e ∨ e < -50 then satInc s.alk.warnings else s.alk.warnings) ∧
      t.alk.missRun = 0 ∧ t.alk.outRun = (if 150 < e ∨ e < -150 then min 3 (s.alk.outRun + 1) else 0) ∧
      (∀ i, i < 4 → t.alk.segNow.getLsbD i = decide (i = x.seg.val)) ∧
      (s.alk.node = .inSync → t.alk.node = .inSync ∧ t.alk.firstNode = fromNode x.frame) ∧
      (s.alk.node = .align → (t.alk.node = .inSync ↔ s.alk.goodSync = true ∧ (portSees s x 577).alk.spoiled = false ∧ -50 ≤ e ∧ e ≤ 50 ∧
        payNat x.frame 4 4 = (timingCheck s).toNat)) := by
  intro e
  obtain ⟨dev, timing, own, cycle, clock, -⟩ := syncForm_portSees s x 577
  obtain ⟨node, seg, backup, warnings, outRun, good⟩ := busKept_portSees s x 577
  have judged := exec_sync_judged ht hd hf hc hm hy hs (hn.imp_right (Or.imp_right And.left))
  have follows : judgeSync (portSees s x 577) x = markSegment (takeSync (noteBackup (portSees s x 577) x) x e) x.seg := by
    have step := judgeSync_follows (s := portSees s x 577) (x := x)
    rw [dev, clock, cycle, node, own, seg] at step
    refine step h1 h2 htime hcycle (fun k => ?_) hg
    obtain h | h | ⟨-, h⟩ := hn
    · rw [h] at k
      cases k
    · rw [h] at k
      cases k
    · exact h
  have shows := followed_shows (s := portSees s x 577) (by rw [seg]; exact hg) x e
  rw [node, backup, warnings, outRun, good, timing] at shows
  exact ⟨_, judged.trans (congrArg Host.Outcome.next follows), chg_markSegment _ _ (by decide) (chg_takeSync _ _ _ (by decide)
    (chg_noteBackup _ _ (by decide) (chg_portSees s x 577 (by decide) (changesOnly_refl _ s)))), shows⟩

/-- A SYNC out of its window is a timing error, and the node keeps its offset (R224). -/
theorem sync_late (hn : s.alk.node = .measure ∨ s.alk.node = .align ∨ s.alk.node = .inSync) (h : syncDev s x < -250 ∨ 250 < syncDev s x) :
    ∃ t, exec (.sync x) s = .next t ∧ t.alk = (portSees s x 577).alk ∧ t.cellar.life.timingTotal = satInc s.cellar.life.timingTotal := by
  obtain ⟨dev, -, -, -, -, cellar⟩ := syncForm_portSees s x 577
  obtain ⟨bus, total⟩ := timingError_shows (portSees s x 577) none (syncDev (portSees s x 577) x)
  rw [cellar] at total
  exact ⟨_, (exec_sync_judged ht hd hf hc hm hy hs hn).trans (congrArg Host.Outcome.next (judgeSync_late (by rw [dev]; exact h))), bus, total⟩

end

end

/-- A backup SYNC goes out on both media, and is the first SYNC of a cycle without one (R207, R231). -/
theorem backupSync_sends {s : State} {g : Fin 4} {e : Int} (run : exec (.backupSync ⟨g, e⟩) s = .next
      (if !guardStarts e then guardBlocks s else if s.alk.segNow = 0 then setFirst (backupSent s g e) 1 else backupSent s g e))
    (h1 : -200 ≤ e) (h2 : e ≤ 200) (hx : txDis s g .X = false) (hy : txDis s g .Y = false) :
    ∃ t, exec (.backupSync ⟨g, e⟩) s = .next t ∧ changesOnly [.alk, .eic, .ports] s t ∧ t.alk.backupNow = true ∧
      t.alk.tx = s.alk.tx ++ backupFrames s g .X e ++ backupFrames s g .Y e ∧ (s.alk.segNow = 0 → t.alk.firstNode = 1) := by
  rw [if_neg (by rw [guardStarts_of h1 h2]; decide), backupSent_eq hx hy e] at run
  refine ⟨_, run, frame_next run (chg_execBackupSync ⟨g, e⟩ s s (by decide) (changesOnly_refl _ s)), ?_⟩
  split
  · rw [alk_setFirst]
    exact ⟨rfl, rfl, fun _ => rfl⟩
  · next h => exact ⟨rfl, rfl, fun k => absurd k h⟩

/-- In a station's slot the frames go out that end within it, with the content and the codes of the usable lanes (R184, R185, R204, R226). -/
theorem composeFrame_sends {s : State} {i : Fin 512} {m : Medium} {c : StationCfg} {w : SlotEntry} {e : Int}
    (run : exec (.composeFrame (.station i) m e) s = .next
      (if guardStarts e then guardCuts s (stationSent s i m c w e) (w.length * 1000) e else guardBlocks s))
    (ht : txDis s c.segment m = false) (h1 : -200 ≤ e) (h2 : e ≤ 200) :
    ∃ t, exec (.composeFrame (.station i) m e) s = .next t ∧ changesOnly [.alk] s t ∧
      (∀ a b r, usableLanes s = a :: b :: r → ∀ y, sluiceImage s (contentLane m a b) = some y →
        let z := stationFrame s y i.val c
        (e + (8 * (z.payload.length + 56) : Nat) + 250 ≤ (w.length * 1000 : Nat) → t.alk.tx = s.alk.tx ++ stationFrames s i m c w e a b y) ∧
        ((w.length * 1000 : Nat) < e + (8 * (z.payload.length + 56) : Nat) + 250 → t.alk.tx = s.alk.tx)) ∧
      ((usableLanes s).length < 2 → t.alk.tx = s.alk.tx) := by
  rw [if_pos (guardStarts_of h1 h2)] at run
  refine ⟨_, run, frame_next run (chg_execComposeFrame (.station i) m e s s (by decide) (changesOnly_refl _ s)),
    fun a b r hu y hy => ?_, fun few => ?_⟩
  · have one : ∀ f ∈ stationFrames s i m c w e a b y, f.frame.payload.length = (stationFrame s y i.val c).payload.length := fun f hf => by
      obtain ⟨_, -, rfl⟩ := List.mem_map.1 hf
      rfl
    obtain ⟨fits, late⟩ := filter_endsInSlot (len := w.length * 1000) (e := e) one
    rw [tx_guardCuts (tx_stationSent i w e ht hu hy)]
    exact ⟨fun h => by rw [fits h], fun h => by rw [late h, List.append_nil]⟩
  · rw [tx_guardCuts (tx_stationSent_few i w e ht few)]
    exact List.append_nil _

/-! ### The statement -/

/-- Settles O37: each command of the node in its state, by what the port dies, the judgement of a SYNC and the slots do. -/
theorem busNode : Obligations.BusNode := by
  intro s
  refine ⟨fun h => ⟨_, exec_silentTimeout h, chg_enterListen s (by decide) (changesOnly_refl _ s), rfl⟩,
    fun now h => ⟨fun k => exec_listenTimeout_waits k now, fun hn hc => listenTimeout_starts h hn hc now⟩, coldStartT0_ticks,
    fun ⟨h, runs⟩ => leftSync_listens (losesSync_of h runs), fun g m hg hd => ?_, fun x ht hd hf => ?_,
    fun g e h1 hn hp hg ho => ?_, fun i m x c w e hn hp hs hx hc hw ht => ?_⟩
  · exact ⟨_, exec_corruptFrame hg hd, corruptSeen_shows s g m⟩
  · exact ⟨portSees_shows ht hd hf, corruptCopy_shows ht hd hf, coldStart_heard ht hd hf, fun hc hm hy hs =>
      ⟨sync_heard ht hd hf hc hm hy hs, sync_followed ht hd hf hc hm hy hs, sync_late ht hd hf hc hm hy hs⟩⟩
  · have run := exec_backupSync h1 hn hp hg ho e
    exact ⟨backupSync_sends run, fun h => run.trans (by rw [guardStarts_not h]; rfl)⟩
  · have run := exec_composeFrame (m := m) e hn hp hs hx hc hw
    refine ⟨fun h1 h2 => ?_, fun h => run.trans (by rw [guardStarts_not h]; rfl)⟩
    cases m
    · exact composeFrame_sends run ht h1 h2
    · exact composeFrame_sends run ht h1 h2

end Sys2Proof.Laws

/-! ## Sessions of stations and peers: what a change of one session leaves (R235 to R242) -/

namespace Sys2Proof.Laws

open Sys2Proof Sys2Proof.Machine Sys2Proof.Safety

/-! ### One session of one lane -/

theorem sess_of {ps : List Part} {s t : State} (h : changesOnly ps s t) (hp : ps.contains .sessions = false := by rfl) (l : Lane) (i : Nat) :
    sessOf (lane t l) i = sessOf (lane s l) i := by
  obtain ⟨same, -, -⟩ := (h .sessions hp).2 l
  exact congrArg (fun m => sget Session.reset m i) same

theorem sessOf_modSess (s : State) (l : Lane) (i j : Nat) (f : Session → Session) :
    sessOf (lane (modSess s l i f) l) j = if j = i then f (sessOf (lane s l) i) else sessOf (lane s l) j := by
  unfold modSess sessOf
  rw [lane_modLane_self]
  exact sget_smod _ _ _ _ _

/-- From s to t a lane's session has become x, with the lane's other sessions and every part outside the list as they were. -/
structure SessionBecomes (ps : List Part) (l : Lane) (i : Nat) (s t : State) (x : Session) : Prop where
  frame : changesOnly ps s t
  others : ∀ j, j ≠ i → sessOf (lane t l) j = sessOf (lane s l) j
  own : sessOf (lane t l) i = x

namespace SessionBecomes

variable {ps qs : List Part} {l : Lane} {i : Nat} {s t u : State} {x : Session}

theorem refl : SessionBecomes ps l i s s (sessOf (lane s l) i) := ⟨changesOnly_refl ps s, fun _ _ => rfl, rfl⟩

theorem modSess (h : SessionBecomes ps l i s t x) (f : Session → Session) (hp : within [.sessions] ps = true := by decide) :
    SessionBecomes ps l i s (modSess t l i f) (f x) := by
  refine ⟨chg_modSess t l i f hp h.frame, fun j e => ?_, ?_⟩
  · rw [sessOf_modSess, if_neg e]
    exact h.others j e
  · rw [sessOf_modSess, if_pos rfl, h.own]

/-- What is counted or recorded after it leaves the session as it has become. -/
theorem andThen (h : SessionBecomes ps l i s t x) (k : changesOnly qs t u) (hq : qs.contains .sessions = false := by rfl)
    (hw : within qs ps = true := by decide) : SessionBecomes ps l i s u x :=
  ⟨changes_step hw k h.frame, fun j e => (sess_of k hq l j).trans (h.others j e), (sess_of k hq l i).trans h.own⟩

/-- A command that leaves one session changed. -/
theorem after {c : Instr} (h : SessionBecomes ps l i s u x) (run : exec c s = .next u) : ∃ t, exec c s = .next t ∧
    (changesOnly ps s t ∧ ∀ j, j ≠ i → sessOf (lane t l) j = sessOf (lane s l) j) ∧ sessOf (lane t l) i = x :=
  ⟨u, run, ⟨h.frame, h.others⟩, h.own⟩

end SessionBecomes

/-! ### Counters and drops (R235, R236, R238, R242) -/

section
variable {ps : List Part} {l : Lane} {i : Nat} {s t : State} {x : Session} (h : SessionBecomes ps l i s t x)
include h

theorem countCode_becomes (hp : within [.sessions] ps = true := by decide) :
    SessionBecomes ps l i s (countCode t l i) { x with codeErr := satInc x.codeErr } := h.modSess _ hp

theorem countSeq_becomes (hp : within [.sessions] ps = true := by decide) :
    SessionBecomes ps l i s (countSeq t l i) { x with seqErr := satInc x.seqErr } := h.modSess _ hp

theorem countTiming_becomes (dev : Int) (hp : within (records ++ [.sessions, .lifetime, .free]) ps = true := by decide) :
    SessionBecomes ps l i s (countTiming t l i dev) { x with timing := satInc x.timing } := by
  have counted := h.modSess (fun x => { x with timing := satInc x.timing }) (within_trans (by decide) hp)
  unfold countTiming
  split
  · exact counted.andThen (qs := records ++ [.lifetime, .free]) (chg_timingError _ _ _ (by decide) (changesOnly_refl _ _)) rfl
      (within_trans (by decide) hp)
  · exact counted

/-- The session leaves ADMITTED for DROPPED, and its miss is counted (R235, R238, R242). -/
theorem dropSession_becomes (m : Nat) (hp : within (records ++ [.sessions]) ps = true := by decide) :
    SessionBecomes ps l i s (dropSession t l i m) { x with st := .dropped, miss := m + 1, misses := satInc x.misses } :=
  (h.modSess _ (within_trans (by decide) hp)).andThen (qs := records) (chg_eventRef _ _ _ _ _ (by decide) (changesOnly_refl _ _)) rfl
    (within_trans (by decide) hp)

end

/-! ### The port dies see a copy (R233, R385) -/

/-- The port dies note a copy of a session's frame, once for the lanes, in what they send and mark alone. -/
theorem sessionSees_eq (s : State) (l : Lane) (rx : RxFrame) (i : Nat) : ∃ tx spoiled heard,
    sessionSees s l rx i = { s with alk := { s.alk with tx := tx, spoiled := spoiled, heard := heard } } := by
  unfold sessionSees
  split
  · exact portSees_eq s rx i
  · exact ⟨_, _, _, rfl⟩

theorem sessionSees_only (s : State) (l : Lane) (rx : RxFrame) (i : Nat) : changesOnly [.alk] s (sessionSees s l rx i) :=
  chg_sessionSees s l rx i (by decide) (changesOnly_refl _ s)

/-- What the judgement of a session's frame reads is as before the port dies have noted it. -/
theorem judged_sessionSees (s : State) (l : Lane) (rx : RxFrame) (i : Nat) : let u := sessionSees s l rx i
    (∀ k, sessionDev u rx k i = sessionDev s rx k i) ∧ u.mod = s.mod ∧
    sessOf (lane u l) i = sessOf (lane s l) i ∧ moduleSid u = moduleSid s ∧ ∀ x c e, echoFresh u x c e = echoFresh s x c e := by
  obtain ⟨_, _, _, h⟩ := sessionSees_eq s l rx i
  rw [h]
  exact ⟨fun _ => rfl, rfl, rfl, rfl, fun _ _ _ => rfl⟩

/-- A copy that the port dies discard is marked nowhere and spoils no cycle (R385). -/
theorem sessionSees_dropped {s : State} {rx : RxFrame} (hd : portDrops s rx.frame = true) (l : Lane) (i : Nat) :
    (sessionSees s l rx i).alk.heard = s.alk.heard ∧ (sessionSees s l rx i).alk.spoiled = s.alk.spoiled := by
  have seen : (portSees s rx i).alk.heard = s.alk.heard ∧ (portSees s rx i).alk.spoiled = s.alk.spoiled := by
    unfold portSees
    split
    · exact ⟨rfl, rfl⟩
    · simp [hd]
  unfold sessionSees
  split
  · exact seen
  · exact ⟨rfl, rfl⟩

/-! ### Which copies a lane judges (R232, R233, R385) -/

section
variable {s : State} {l : Lane} {rx : RxFrame}

/-- A copy that the port dies discard leaves no more than what node 1 sends on (R202, R385). -/
theorem dropped_shows {c : Instr} {i : Nat} (hd : portDrops s rx.frame = true)
    (run : exec c s = .next s ∨ exec c s = .next (sessionSees s l rx i)) :
    ∃ t, exec c s = .next t ∧ changesOnly [.alk] s t ∧ t.alk.heard = s.alk.heard ∧ t.alk.spoiled = s.alk.spoiled := by
  obtain run | run := run
  · exact ⟨s, run, changesOnly_refl _ s, rfl, rfl⟩
  · exact ⟨_, run, sessionSees_only s l rx i, sessionSees_dropped hd l i⟩

theorem exec_stationIn_dropped (hd : portDrops s rx.frame = true) (st : Fin 512) :
    exec (.stationIn l st rx) s = .next s ∨ exec (.stationIn l st rx) s = .next (sessionSees s l rx st.val) := by
  show execStationIn l st rx s = _ ∨ execStationIn l st rx s = _
  unfold execStationIn
  split
  · exact .inl rfl
  · exact .inr (congrArg Host.Outcome.next (if_pos hd))

theorem exec_peer_dropped (hd : portDrops s rx.frame = true) (q : Fin 64) :
    exec (.peer l q rx) s = .next s ∨ exec (.peer l q rx) s = .next (sessionSees s l rx (512 + q.val)) := by
  show execPeer l q rx s = _ ∨ execPeer l q rx s = _
  unfold execPeer
  split
  · exact .inl rfl
  · exact .inr (congrArg Host.Outcome.next (if_pos hd))

variable (hd : portDrops s rx.frame = false) (hf : fcsGood rx.frame = true)
include hd hf

theorem exec_stationIn_judged {st : Fin 512} {c : StationCfg} (hc : stationCfg s st.val = some c) (hy : rx.frame.type = 0x11)
    (hl : listens s l st.val rx = true) :
    exec (.stationIn l st rx) s = .next (judgeStation (sessionSees s l rx st.val) l st.val c rx) := by
  have known : knownType rx.frame = true := by simp [knownType, hy]
  show execStationIn l st rx s = _
  unfold execStationIn
  simp only [hc, hd, hf, known, hl]
  rfl

theorem exec_peer_judged {q : Fin 64} {c : PeerCfg} (hc : peerCfg s q.val = some c) (hy : rx.frame.type = 0x12)
    (hl : listens s l (512 + q.val) rx = true) :
    exec (.peer l q rx) s = .next (judgePeer (sessionSees s l rx (512 + q.val)) l q.val c rx) := by
  have known : knownType rx.frame = true := by simp [knownType, hy]
  show execPeer l q rx s = _
  unfold execPeer
  simp only [hc, hd, hf, known, hl]
  rfl

end

end Sys2Proof.Laws

/-! ## Sessions of stations and peers: how a frame is judged (R236 to R242, R520) -/

namespace Sys2Proof.Laws

open Sys2Proof Sys2Proof.Machine Sys2Proof.Safety

/-! ### The windows of a frame (R224, R237, R242) -/

theorem onTime_inside {d : Int} (h1 : -250 ≤ d) (h2 : d ≤ 250) : onTime (some d) = true := by
  simp [onTime, inSlot, h1, h2]

theorem onTime_outside {d : Int} (h : d < -250 ∨ 250 < d) : onTime (some d) = false := by
  simp only [onTime, inSlot, Bool.and_eq_false_iff, decide_eq_false_iff_not]
  omega

theorem seqWithin_iff (x : Session) (q : Word) (n : Nat) : seqWithin x q n = true ↔ 1 ≤ (q - x.rxSeq).toNat ∧ (q - x.rxSeq).toNat ≤ n := by
  simp only [seqWithin, Bool.and_eq_true, decide_eq_true_eq]

/-- A SEQUENCE that repeats the reference, or runs too far ahead of it, does not follow (R237). -/
theorem seqWithin_stale {x : Session} {q : Word} {n : Nat} (h : q = x.rxSeq ∨ n < (q - x.rxSeq).toNat) : seqWithin x q n = false := by
  rw [Bool.eq_false_iff, Ne, seqWithin_iff]
  rintro ⟨low, high⟩
  obtain rfl | h := h
  · simp at low
  · omega

/-! ### STATION_IN (R236 to R238, R520) -/

/-- The form of a station's STATION_IN: check 2 of R236. -/
structure StationForm (c : StationCfg) (f : Frame) : Prop where
  type : f.type = 0x11
  source : f.source = BitVec.ofNat 16 (c.node.toNat + 1024 * c.segment.val)
  dest : f.dest.getLsbD 10 = true
  length : f.payload.length = stationLen c.points

section
variable {u : State} {l : Lane} {i : Nat} {c : StationCfg} {rx : RxFrame} {d : Int} (form : StationForm c rx.frame)
  (hdev : sessionDev u rx .stationIn i = some d)
include form hdev

theorem judgeStation_formed : judgeStation u l i c rx =
    if !onTime (some d) then countTiming u l i d
    else if rx.frame.cycle ≠ cycle16 u ∨ rx.frame.time ≠ u.mod.tickTime then countSeq u l i
    else if !stationCodesOk c.sid rx.frame then countCode u l i
    else if u.mod.phase ≠ .input then u
    else if rx.frame.flags.getLsbD 1 then takeOpen u l i c rx.frame
    else takeIn u l i c rx.frame := by
  obtain ⟨type, source, dest, length⟩ := form
  unfold judgeStation
  rw [hdev]
  exact if_neg (by simp [type, source, dest, length])

theorem judgeStation_late (h : d < -250 ∨ 250 < d) : judgeStation u l i c rx = countTiming u l i d := by
  rw [judgeStation_formed form hdev, onTime_outside h]
  rfl

variable (h1 : -250 ≤ d) (h2 : d ≤ 250) (hc : rx.frame.cycle = cycle16 u) (ht : rx.frame.time = u.mod.tickTime)
include h1 h2 hc ht

theorem judgeStation_uncoded (hk : stationCodesOk c.sid rx.frame = false) : judgeStation u l i c rx = countCode u l i := by
  rw [judgeStation_formed form hdev, onTime_inside h1 h2, if_neg (by decide), if_neg (by simp [hc, ht]), hk]
  rfl

theorem judgeStation_coded (hk : stationCodesOk c.sid rx.frame = true) (hp : u.mod.phase = .input) : judgeStation u l i c rx =
    if rx.frame.flags.getLsbD 1 then takeOpen u l i c rx.frame else takeIn u l i c rx.frame := by
  rw [judgeStation_formed form hdev, onTime_inside h1 h2, if_neg (by decide), if_neg (by simp [hc, ht]), hk, if_neg (by decide),
    if_neg (not_not_intro hp)]

end

section
variable {ps : List Part} {s u : State} {l : Lane} {i : Nat} {x : Session} {c : StationCfg} {f : Frame}
  (h : SessionBecomes [.alk, .sessions] l i s u x)
include h

/-- A STATION_IN of an admitted session gives its points and becomes the reference (R238). -/
theorem takeIn_accepts (hst : x.st = .admitted) (hq : seqWithin x f.sequence (c.miss + 1) = true) :
    SessionBecomes [.alk, .sessions] l i s (takeIn u l i c f) { x with
      rxSeq := f.sequence, rxRef := true, got := true, miss := 0, fresh := false, values := (stationPoints c f).1
      valids := (stationPoints c f).2 } := by
  have taken := h.modSess (fun x => { x with
    rxSeq := f.sequence, rxRef := true, got := true, miss := 0, fresh := false, values := (stationPoints c f).1
    valids := (stationPoints c f).2 })
  unfold takeIn
  rw [h.own, if_neg (not_not_intro hst), hq]
  exact taken

/-- One whose SEQUENCE does not follow is counted (R237). -/
theorem takeIn_stale (hst : x.st = .admitted) (hq : seqWithin x f.sequence (c.miss + 1) = false) :
    SessionBecomes [.alk, .sessions] l i s (takeIn u l i c f) { x with seqErr := satInc x.seqErr } := by
  have counted := countSeq_becomes h
  unfold takeIn
  rw [h.own, if_neg (not_not_intro hst), hq]
  exact counted

/-- An OPEN frame opens a dropped session (R520). -/
theorem takeOpen_opens (hst : x.st = .dropped) (hcfg : payNat f 0 4 = c.configCheck.toNat) :
    SessionBecomes [.alk, .sessions] l i s (takeOpen u l i c f) { x with
      rxSeq := f.sequence, rxRef := true, opened := true, st := .opening } := by
  have opened := (h.modSess (fun x => { x with rxSeq := f.sequence, rxRef := true, opened := true })).modSess
    (fun x => { x with st := .opening })
  unfold takeOpen
  rw [h.own, if_neg (not_not_intro hcfg)]
  simp only [hst]
  exact opened

/-! ### PEER (R235, R242, R332) -/

/-- What an accepted PEER frame makes of its session: the points go to an admitted session alone (R242). -/
def peerTaken (now : Time) (f : Frame) (x : Session) : Session :=
  { x with
    rxSeq := f.sequence, rxRef := true, got := true, miss := if x.st = .admitted then 0 else x.miss, lastAt := now
    codeErr := if (peerPoints f).2.length < 128 then satInc x.codeErr else x.codeErr
    values := if x.st = .admitted then (peerPoints f).1 else x.values, valids := if x.st = .admitted then (peerPoints f).2 else x.valids
    fresh := x.fresh && decide (x.st ≠ .admitted) }

theorem takePeer_accepts (hst : x.st = .admitted) :
    SessionBecomes [.alk, .sessions] l i s (takePeer u l i f) (peerTaken u.mod.tickTime f x) := by
  have taken := h.modSess (peerTaken u.mod.tickTime f)
  unfold takePeer
  simp only [h.own, hst]
  exact taken

omit h in
theorem peerTaken_admitted (hst : x.st = .admitted) (now : Time) : (peerTaken now f x).got = true ∧
    (peerTaken now f x).rxSeq = f.sequence ∧ (peerTaken now f x).miss = 0 ∧ (peerTaken now f x).lastAt = now ∧
    (peerTaken now f x).values = (peerPoints f).1 ∧ (peerTaken now f x).valids = (peerPoints f).2 :=
  ⟨rfl, rfl, if_pos hst, rfl, if_pos hst, if_pos hst⟩

end

section
variable {u : State} {l : Lane} {q : Nat} {c : PeerCfg} {rx : RxFrame} {d : Int} (hy : rx.frame.type = 0x12)
  (hlen : rx.frame.payload.length = 40) (hdev : sessionDev u rx .peerIn (512 + q) = some d) (h1 : -250 ≤ d) (h2 : d ≤ 250)
  (hdest : payNat rx.frame 0 4 = moduleSid u)
include hy hlen hdev h1 h2 hdest

/-- The checks of a PEER frame for this module that comes in its window: its codes, its SEQUENCE, its ECHO_SEQ (R242). -/
theorem judgePeer_inWindow : judgePeer u l q c rx =
    if moduleCodesOk c.sid rx.frame = false ∧ moduleCodesOk c.otherSid rx.frame = false then countCode u l (512 + q)
    else if (sessOf (lane u l) (512 + q)).rxRef && !seqWithin (sessOf (lane u l) (512 + q)) rx.frame.sequence 65535 then
      countSeq u l (512 + q)
    else if !echoFresh u (sessOf (lane u l) (512 + q)) c (BitVec.ofNat 32 (payNat rx.frame 4 4)) then countSeq u l (512 + q)
    else if (sessOf (lane u l) (512 + q)).st = .retired ∨ u.mod.phase ≠ .input then u
    else takePeer u l (512 + q) rx.frame := by
  unfold judgePeer
  simp [hy, hlen, hdev, onTime_inside h1 h2, hdest]

theorem judgePeer_uncoded (k1 : moduleCodesOk c.sid rx.frame = false) (k2 : moduleCodesOk c.otherSid rx.frame = false) :
    judgePeer u l q c rx = countCode u l (512 + q) := by
  rw [judgePeer_inWindow hy hlen hdev h1 h2 hdest, if_pos ⟨k1, k2⟩]

variable {x : Session} (hx : sessOf (lane u l) (512 + q) = x)
  (hk : moduleCodesOk c.sid rx.frame = true ∨ moduleCodesOk c.otherSid rx.frame = true)
  (hq : x.rxRef = true → 1 ≤ (rx.frame.sequence - x.rxSeq).toNat ∧ (rx.frame.sequence - x.rxSeq).toNat ≤ 65535)
include hx hk hq

/-- The codes of either module of the pair are good, and the SEQUENCE follows any reference (R242, R332). -/
theorem judgePeer_coded : judgePeer u l q c rx =
    if !echoFresh u x c (BitVec.ofNat 32 (payNat rx.frame 4 4)) then countSeq u l (512 + q)
    else if x.st = .retired ∨ u.mod.phase ≠ .input then u
    else takePeer u l (512 + q) rx.frame := by
  have follows : ¬ (x.rxRef && !seqWithin x rx.frame.sequence 65535) = true := by
    simp only [Bool.and_eq_true, Bool.not_eq_true', not_and, Bool.not_eq_false, seqWithin_iff]
    exact hq
  have coded : ¬ (moduleCodesOk c.sid rx.frame = false ∧ moduleCodesOk c.otherSid rx.frame = false) := by
    rintro ⟨k1, k2⟩
    rw [k1, k2] at hk
    simp at hk
  rw [judgePeer_inWindow hy hlen hdev h1 h2 hdest, if_neg coded, hx, if_neg follows]

theorem judgePeer_stale (he : echoFresh u x c (BitVec.ofNat 32 (payNat rx.frame 4 4)) = false) :
    judgePeer u l q c rx = countSeq u l (512 + q) := by
  rw [judgePeer_coded hy hlen hdev h1 h2 hdest hx hk hq, he]
  rfl

theorem judgePeer_fresh (he : echoFresh u x c (BitVec.ofNat 32 (payNat rx.frame 4 4)) = true) (hst : x.st = .admitted)
    (hp : u.mod.phase = .input) : judgePeer u l q c rx = takePeer u l (512 + q) rx.frame := by
  rw [judgePeer_coded hy hlen hdev h1 h2 hdest hx hk hq, he, if_neg (by decide), if_neg (by simp [hst, hp])]

end

end Sys2Proof.Laws

/-! ## Sessions of stations and peers: their statement (R88, R224, R235 to R242, R332, R385, R520) -/

namespace Sys2Proof.Laws

open Sys2Proof Sys2Proof.Machine Sys2Proof.Safety

/-! ### The input image of a session outside ADMITTED (R88, R238, R242) -/

theorem bget_bshift (b : BitSpace) (off p : Nat) : bget (bshift b off) (off + p) = bget b p := by
  rw [Bool.eq_iff_iff, bget_mem, bget_mem]
  unfold bshift
  rw [Nat.add_comm off p]
  exact List.mem_map_of_injective (add_left_injective off)

theorem bget_bpatch_bshift (b src : BitSpace) {lo w p : Nat} (hp : p < w) :
    bget (bpatch b lo (lo + w) (bshift src lo)) (lo + p) = bget src p := by
  rw [bget_bpatch _ _ _ _ (Nat.le_add_right lo w), if_pos ⟨Nat.le_add_right lo p, Nat.add_lt_add_left hp lo⟩, bget_bshift]

/-- Outside ADMITTED no point is valid, and each reads its safe value (R88). -/
theorem sessionBits_safe {x : Session} (h : x.st ≠ .admitted) (n : Nat) (safe : BitSpace) (p : Nat) :
    bget (sessionBits x n safe).1 p = (decide (p < n) && bget safe p) ∧ bget (sessionBits x n safe).2 p = false := by
  refine ⟨?_, ?_⟩
  · rw [Bool.eq_iff_iff, bget_mem]
    simp [sessionBits, h]
  · rw [Bool.eq_false_iff, Ne, bget_mem]
    simp [sessionBits, h]

theorem stationInputs_safe {L : LaneState} {i : Nat} (h : (sessOf L i).st ≠ .admitted) (c : StationCfg) {p : Nat} (hp : p < 256) :
    bget (stationInputs L i c).press.data.ifv (256 * i + p) = false ∧
    bget (stationInputs L i c).press.data.iv (256 * i + p) = (decide (p < c.points) && bget c.safe p) := by
  obtain ⟨value, valid⟩ := sessionBits_safe h c.points c.safe p
  exact ⟨(bget_bpatch_bshift _ _ hp).trans valid, (bget_bpatch_bshift _ _ hp).trans value⟩

theorem peerInputs_safe {L : LaneState} {q : Nat} (h : (sessOf L (512 + q)).st ≠ .admitted) (c : PeerCfg) {p : Nat} (hp : p < 128) :
    bget (peerInputs L q c).press.data.lf (256 + 128 * q + p) = false ∧
    bget (peerInputs L q c).press.data.lv (256 + 128 * q + p) = bget c.safe p := by
  obtain ⟨value, valid⟩ := sessionBits_safe h 128 c.safe p
  rw [decide_eq_true hp, Bool.true_and] at value
  exact ⟨(bget_bpatch_bshift _ _ hp).trans valid, (bget_bpatch_bshift _ _ hp).trans value⟩

/-! ### Drops (R238, R242) -/

section
variable {s : State} {l : Lane} (hl : computes s l = true)
include hl

theorem exec_stationDropped {st : Fin 512} {c : StationCfg} (hc : stationCfg s st.val = some c) (hp : s.mod.phase = .input)
    (hst : (sessOf (lane s l) st.val).st = .admitted) (hg : (sessOf (lane s l) st.val).got = false)
    (ho : (sessOf (lane s l) st.val).opened = false) (hm : c.miss ≤ (sessOf (lane s l) st.val).miss) :
    exec (.stationDropped l st) s = .next (dropSession s l st.val c.miss) := by
  show execStationDropped l st s = _
  unfold execStationDropped
  simp only [hc]
  rw [if_pos (by simp [hl, hp, hst, hg, ho, hm])]

/-- The tick lies PEER_TIMEOUT or more after the last accepted frame (R242). -/
theorem exec_peerTimeout {q : Fin 64} {c : PeerCfg} (hc : peerCfg s q.val = some c)
    (hst : (sessOf (lane s l) (512 + q.val)).st = .admitted)
    (ht : s.mod.tickTime.toNat ≥ (sessOf (lane s l) (512 + q.val)).lastAt.toNat + c.timeoutMs * 1000000) :
    exec (.peerTimeout l q) s = .next (dropSession s l (512 + q.val) c.miss) := by
  have since : timeSince s.mod.tickTime (sessOf (lane s l) (512 + q.val)).lastAt ≥ c.timeoutMs * 1000000 := by
    unfold timeSince
    rw [BitVec.toNat_sub_of_le (BitVec.le_def.2 (by omega))]
    omega
  have late : peerLate s l q.val c = true := by simp [peerLate, hst, since]
  show execPeerTimeout l q s = _
  unfold execPeerTimeout
  simp only [hc, hl, late]
  rfl

end

/-! ### The clear of a retired session (R241, R486) -/

/-- One lane's part of an authorised clear. -/
def clearRetired (i : Nat) (s : State) (l : Lane) : State := if (sessOf (lane s l) i).st = .retired then clearSession s l i else s

/-- The lane's sessions are those of s, with its session i cleared where it was retired. -/
def SessionsCleared (i : Nat) (s : State) (l : Lane) (t : State) : Prop := ∀ j, sessOf (lane t l) j =
  if j = i ∧ (sessOf (lane s l) i).st = .retired then { sessOf (lane s l) i with st := .dropped, readmits := [] } else sessOf (lane s l) j

theorem clearRetired_clears (i : Nat) {s t : State} {l : Lane} (h : lane t l = lane s l) : SessionsCleared i s l (clearRetired i t l) := by
  intro j
  unfold clearRetired
  rw [h]
  split
  · next hr =>
    unfold clearSession
    rw [sessOf_modSess, h]
    simp only [hr, and_true]
  · next hr => rw [if_neg (fun k => hr k.2), h]

theorem clearRetired_only (i : Nat) (t : State) (l : Lane) : onlyLane l t (clearRetired i t l) := by
  unfold clearRetired
  split
  · exact only_modLane _ (only_refl l t)
  · exact only_refl l t

theorem clearRetired_mod (i : Nat) (t : State) (l : Lane) : (clearRetired i t l).mod = t.mod := by
  unfold clearRetired
  split
  · rfl
  · rfl

/-- The lanes clear the session one after the other, each its own. -/
theorem fold_clearRetired (i : Nat) (s : State) (l : Lane) : SessionsCleared i s l (foldS Lane.list (clearRetired i) s) := by
  obtain ⟨cleared, -⟩ := fold_three (P := SessionsCleared i s) (clearRetired i) s (fun _ _ h _ => clearRetired_clears i h)
    (fun t m k e h j => by rw [clearRetired_only i t m k e]; exact h j) (clearRetired_only i) (clearRetired_mod i)
  exact cleared l

theorem exec_sessionClear {s : State} {l : Lane} {i : Fin 576} (h : (sessOf (lane s l) i.val).st = .retired) (a : Auth) :
    exec (.sessionClear i a) s = .next (harnal s a 5 (i.val % 256) (foldS Lane.list (clearRetired i.val))) :=
  congrArg Host.Outcome.next (if_pos (List.any_eq_true.2 ⟨l, mem_laneList l, decide_eq_true h⟩))

theorem sessionClear_clears {s : State} {l : Lane} {i : Fin 576} {a : Auth} (h : (sessOf (lane s l) i.val).st = .retired)
    (ha : authOk s a = true) : ∃ t, exec (.sessionClear i a) s = .next t ∧ changesOnly (records ++ [.sessions, .lifetime]) s t ∧
      sessOf (lane t l) i.val = { sessOf (lane s l) i.val with st := .dropped, readmits := [] } ∧
      ∀ j, j ≠ i.val → sessOf (lane t l) j = sessOf (lane s l) j := by
  have run := (exec_sessionClear h a).trans (congrArg Host.Outcome.next (harnal_taken ha _ _ _))
  have kept : ∀ j, sessOf (lane (recordMaint (takeNonce s a) 5 (i.val % 256) a) l) j = sessOf (lane s l) j :=
    sess_of (accepted_only s a 5 (i.val % 256)) rfl l
  have cleared := fold_clearRetired i.val (recordMaint (takeNonce s a) 5 (i.val % 256) a) l
  unfold SessionsCleared at cleared
  simp only [kept] at cleared
  refine ⟨_, run, frame_next run (chg_execSessionClear i a s s (by decide) (changesOnly_refl _ s)), ?_, fun j e => ?_⟩
  · rw [cleared, if_pos ⟨rfl, h⟩]
  · rw [cleared, if_neg (fun k => e k.1)]

/-! ### What a frame leaves of its session -/

/-- The port dies have noted a copy, and the session is as it was. -/
theorem sessionSees_becomes (s : State) (l : Lane) (rx : RxFrame) (i : Nat) {ps : List Part} (hp : within [.alk] ps = true := by decide) :
    SessionBecomes ps l i s (sessionSees s l rx i) (sessOf (lane s l) i) :=
  SessionBecomes.refl.andThen (sessionSees_only s l rx i) rfl hp

theorem listens_of {s : State} {l : Lane} {rx : RxFrame} {i : Nat} (hl : computes s l = true) (hm : mediumUsed s rx.seg rx.medium = true)
    (hg : (sessOf (lane s l) i).got = false) (ho : (sessOf (lane s l) i).opened = false) (hst : (sessOf (lane s l) i).st ≠ .notConfigured) :
    listens s l i rx = true := by
  simp [listens, hl, hm, hg, ho, hst]

section
variable {s : State} {l : Lane} {rx : RxFrame} {st : Fin 512} {c : StationCfg} {d : Int} (hd : portDrops s rx.frame = false)
  (hf : fcsGood rx.frame = true) (hc : stationCfg s st.val = some c) (form : StationForm c rx.frame)
  (hl : listens s l st.val rx = true) (hdev : sessionDev s rx .stationIn st.val = some d)
include hd hf hc form hl hdev

/-- Out of its window the frame is counted alone (R224, R236). -/
theorem stationIn_late (h : d < -250 ∨ 250 < d) : ∃ t, exec (.stationIn l st rx) s = .next t ∧
    sessOf (lane t l) st.val = { sessOf (lane s l) st.val with timing := satInc (sessOf (lane s l) st.val).timing } ∧
    ∀ j, j ≠ st.val → sessOf (lane t l) j = sessOf (lane s l) j := by
  obtain ⟨dev, -⟩ := judged_sessionSees s l rx st.val
  have run := exec_stationIn_judged hd hf hc form.type hl
  rw [judgeStation_late form ((dev .stationIn).trans hdev) h] at run
  obtain ⟨-, others, own⟩ := countTiming_becomes (ps := records ++ [.alk, .sessions, .lifetime, .free]) (sessionSees_becomes s l rx st.val) d
  exact ⟨_, run, own, others⟩

variable (h1 : -250 ≤ d) (h2 : d ≤ 250) (hcy : rx.frame.cycle = cycle16 s) (ht : rx.frame.time = s.mod.tickTime)
include h1 h2 hcy ht

theorem exec_stationIn_uncoded (hk : stationCodesOk c.sid rx.frame = false) :
    exec (.stationIn l st rx) s = .next (countCode (sessionSees s l rx st.val) l st.val) := by
  obtain ⟨dev, mod, -⟩ := judged_sessionSees s l rx st.val
  rw [exec_stationIn_judged hd hf hc form.type hl, judgeStation_uncoded form ((dev .stationIn).trans hdev) h1 h2
    (by unfold cycle16; rw [mod]; exact hcy) (by rw [mod]; exact ht) hk]

theorem exec_stationIn_coded (hk : stationCodesOk c.sid rx.frame = true) (hp : s.mod.phase = .input) : exec (.stationIn l st rx) s = .next
    (if rx.frame.flags.getLsbD 1 then takeOpen (sessionSees s l rx st.val) l st.val c rx.frame
     else takeIn (sessionSees s l rx st.val) l st.val c rx.frame) := by
  obtain ⟨dev, mod, -⟩ := judged_sessionSees s l rx st.val
  rw [exec_stationIn_judged hd hf hc form.type hl, judgeStation_coded form ((dev .stationIn).trans hdev) h1 h2
    (by unfold cycle16; rw [mod]; exact hcy) (by rw [mod]; exact ht) hk (by rw [mod]; exact hp)]

end

section
variable {s : State} {l : Lane} {rx : RxFrame} {q : Fin 64} {c : PeerCfg} {d : Int} (hd : portDrops s rx.frame = false)
  (hf : fcsGood rx.frame = true) (hc : peerCfg s q.val = some c) (hl : listens s l (512 + q.val) rx = true) (hy : rx.frame.type = 0x12)
  (hlen : rx.frame.payload.length = 40) (hdev : sessionDev s rx .peerIn (512 + q.val) = some d) (h1 : -250 ≤ d) (h2 : d ≤ 250)
  (hdest : payNat rx.frame 0 4 = moduleSid s)
include hd hf hc hl hy hlen hdev h1 h2 hdest

theorem exec_peer_uncoded (k1 : moduleCodesOk c.sid rx.frame = false) (k2 : moduleCodesOk c.otherSid rx.frame = false) :
    exec (.peer l q rx) s = .next (countCode (sessionSees s l rx (512 + q.val)) l (512 + q.val)) := by
  obtain ⟨dev, -, -, sid, -⟩ := judged_sessionSees s l rx (512 + q.val)
  rw [exec_peer_judged hd hf hc hy hl, judgePeer_uncoded hy hlen ((dev .peerIn).trans hdev) h1 h2 (hdest.trans sid.symm) k1 k2]

variable (hk : moduleCodesOk c.sid rx.frame = true ∨ moduleCodesOk c.otherSid rx.frame = true)
  (hq : (sessOf (lane s l) (512 + q.val)).rxRef = true → 1 ≤ (rx.frame.sequence - (sessOf (lane s l) (512 + q.val)).rxSeq).toNat ∧
    (rx.frame.sequence - (sessOf (lane s l) (512 + q.val)).rxSeq).toNat ≤ 65535)
include hk hq

theorem exec_peer_stale (he : echoFresh s (sessOf (lane s l) (512 + q.val)) c (BitVec.ofNat 32 (payNat rx.frame 4 4)) = false) :
    exec (.peer l q rx) s = .next (countSeq (sessionSees s l rx (512 + q.val)) l (512 + q.val)) := by
  obtain ⟨dev, -, own, sid, echo⟩ := judged_sessionSees s l rx (512 + q.val)
  rw [exec_peer_judged hd hf hc hy hl, judgePeer_stale hy hlen ((dev .peerIn).trans hdev) h1 h2 (hdest.trans sid.symm) own hk hq
    ((echo _ _ _).trans he)]

theorem exec_peer_fresh (he : echoFresh s (sessOf (lane s l) (512 + q.val)) c (BitVec.ofNat 32 (payNat rx.frame 4 4)) = true)
    (hst : (sessOf (lane s l) (512 + q.val)).st = .admitted) (hp : s.mod.phase = .input) :
    exec (.peer l q rx) s = .next (takePeer (sessionSees s l rx (512 + q.val)) l (512 + q.val) rx.frame) := by
  obtain ⟨dev, mod, own, sid, echo⟩ := judged_sessionSees s l rx (512 + q.val)
  rw [exec_peer_judged hd hf hc hy hl, judgePeer_fresh hy hlen ((dev .peerIn).trans hdev) h1 h2 (hdest.trans sid.symm) own hk hq
    ((echo _ _ _).trans he) hst (by rw [mod]; exact hp)]

/-- An accepted frame gives its points to the admitted session, and becomes its reference (R242). -/
theorem peer_accepted (he : echoFresh s (sessOf (lane s l) (512 + q.val)) c (BitVec.ofNat 32 (payNat rx.frame 4 4)) = true)
    (hst : (sessOf (lane s l) (512 + q.val)).st = .admitted) (hp : s.mod.phase = .input) :
    ∃ t, exec (.peer l q rx) s = .next t ∧
      SessionBecomes [.alk, .sessions] l (512 + q.val) s t (peerTaken s.mod.tickTime rx.frame (sessOf (lane s l) (512 + q.val))) := by
  obtain ⟨-, mod, -⟩ := judged_sessionSees s l rx (512 + q.val)
  have taken := takePeer_accepts (f := rx.frame) (sessionSees_becomes s l rx (512 + q.val)) hst
  rw [mod] at taken
  exact ⟨_, exec_peer_fresh hd hf hc hl hy hlen hdev h1 h2 hdest hk hq he hst hp, taken⟩

end

/-- Settles O38: each command of a session by the checks of its frame, the drops, the safe values and the clear (log entries 29, 51, 81). -/
theorem sessionSteps : Obligations.SessionSteps := by
  intro l s hl alone only
  refine ⟨fun st q rx hd => ⟨dropped_shows hd (exec_stationIn_dropped hd st), dropped_shows hd (exec_peer_dropped hd q)⟩,
    fun st c rx hc hd => ?_, fun st c hc hp => ?_, fun st c L h p hp => stationInputs_safe h c hp,
    fun q c L h p hp => peerInputs_safe h c hp, fun q c hc => ⟨fun hst ht => ?_, fun rx d hlis hd hf hy hlen hdev h1 h2 hdest => ?_⟩,
    fun i a hr => ⟨fun ha => (exec_sessionClear hr a).trans (congrArg Host.Outcome.next (harnal_refused ha _ _ _)),
      sessionClear_clears hr⟩⟩
  · intro i x f hm hg ho hf hy hsrc hdst hlen d hdev
    have form : StationForm c f := ⟨hy, hsrc, hdst, hlen⟩
    have judges : x.st ≠ .notConfigured → listens s l i rx = true := listens_of hl hm hg ho
    have seen : SessionBecomes [.alk, .sessions] l i s (sessionSees s l rx i) x := sessionSees_becomes s l rx i
    refine ⟨fun h hst => stationIn_late hd hf hc form (judges hst) hdev h, fun h1 h2 hcy ht hp => ⟨fun hk hst =>
      (countCode_becomes seen).after (exec_stationIn_uncoded hd hf hc form (judges hst) hdev h1 h2 hcy ht hk), fun hk ho hst => ?_,
      fun hk ho hcfg hst => ?_⟩⟩
    · have run := exec_stationIn_coded hd hf hc form (judges (by rw [hst]; decide)) hdev h1 h2 hcy ht hk hp
      rw [if_neg (by rw [ho]; decide)] at run
      exact ⟨fun q1 q2 => (takeIn_accepts seen hst ((seqWithin_iff _ _ _).2 ⟨q1, q2⟩)).after run,
        fun q => (takeIn_stale seen hst (seqWithin_stale q)).after run⟩
    · have run := exec_stationIn_coded hd hf hc form (judges (by rw [hst]; decide)) hdev h1 h2 hcy ht hk hp
      rw [if_pos ho] at run
      exact (takeOpen_opens seen hst hcfg).after run
  · intro x hst hg ho hm
    obtain ⟨frame, others, own⟩ := dropSession_becomes (ps := records ++ [.sessions]) (.refl (l := l) (i := st.val) (s := s)) c.miss
    exact ⟨_, exec_stationDropped hl hc hp hst hg ho hm, frame, others, by rw [own], by rw [own]⟩
  · obtain ⟨frame, others, own⟩ := dropSession_becomes (ps := records ++ [.sessions]) (.refl (l := l) (i := 512 + q.val) (s := s)) c.miss
    exact ⟨_, exec_peerTimeout hl hc hst ht, frame, others, by rw [own], by rw [own]⟩
  · have seen := sessionSees_becomes s l rx (512 + q.val) (ps := [.alk, .sessions])
    refine ⟨fun k1 k2 => (countCode_becomes seen).after (exec_peer_uncoded hd hf hc hlis hy hlen hdev h1 h2 hdest k1 k2), fun hk hq =>
      ⟨fun he => (countSeq_becomes seen).after (exec_peer_stale hd hf hc hlis hy hlen hdev h1 h2 hdest hk hq he), fun he hst hp => ?_⟩⟩
    obtain ⟨t, run, frame, others, own⟩ := peer_accepted hd hf hc hlis hy hlen hdev h1 h2 hdest hk hq he hst hp
    refine ⟨t, run, ⟨frame, others⟩, ?_⟩
    rw [own]
    exact peerTaken_admitted hst _

end Sys2Proof.Laws

/-! ## The media: their records, the exchange of delays (R205, R225, R516) -/

namespace Sys2Proof.Laws

open Sys2Proof Sys2Proof.Machine Sys2Proof.Safety

/-! ### One medium of one segment -/

theorem mediumIdx_lt : ∀ m : Medium, m.idx < 2
  | .X => by decide
  | .Y => by decide

theorem mediumIdx_inj : ∀ {m m' : Medium}, m'.idx = m.idx → m' = m
  | .X, .X, _ => rfl
  | .Y, .Y, _ => rfl

theorem mediumIx_inj {g g' : Fin 4} {m m' : Medium} (h : mediumIx g' m' = mediumIx g m) : (g', m') = (g, m) := by
  unfold mediumIx at h
  have h1 := mediumIdx_lt m
  have h2 := mediumIdx_lt m'
  have seg : g' = g := Fin.ext (by omega)
  rw [seg, mediumIdx_inj (m := m) (m' := m') (by omega)]

theorem mediumIx_lt (g : Fin 4) (m : Medium) : mediumIx g m < 8 := by
  have seg := g.isLt
  have low := mediumIdx_lt m
  unfold mediumIx
  omega

theorem medium_of {ps : List Part} {s t : State} (h : changesOnly ps s t) (hp : ps.contains .alk = false := by rfl) (g : Fin 4) (m : Medium) :
    mediumOf t g m = mediumOf s g m := by
  unfold mediumOf
  rw [alk_of h hp]

@[simp] theorem mediumOf_modMedium_self (s : State) (g : Fin 4) (m : Medium) (f : MediumRec → MediumRec) :
    mediumOf (modMedium s g m f) g m = f (mediumOf s g m) := by
  unfold mediumOf modMedium
  rw [sget_smod, if_pos rfl]

theorem mediumOf_modMedium_other (s : State) {g g' : Fin 4} {m m' : Medium} (f : MediumRec → MediumRec) (h : (g', m') ≠ (g, m)) :
    mediumOf (modMedium s g m f) g' m' = mediumOf s g' m' := by
  unfold mediumOf modMedium
  rw [sget_smod, if_neg (fun e => h (mediumIx_inj e))]

theorem delayOf_modDelay (s : State) (g : Fin 4) (m : Medium) (sd : Side) (f : DelayRec → DelayRec) :
    delayOf (mediumOf (modDelay s g m sd f) g m) sd = f (delayOf (mediumOf s g m) sd) := by
  unfold modDelay
  rw [mediumOf_modMedium_self]
  cases sd
  · rfl
  · rfl

/-! ### Which DELAY frames a node uses (R205, R225) -/

/-- The node keeps time by a SYNC, and so measures. -/
theorem measures_iff (s : State) : measures s = true ↔ s.alk.node = .measure ∨ s.alk.node = .align ∨ s.alk.node = .inSync := by
  unfold measures
  cases s.alk.node <;> simp

theorem inDelaySlot_iff (s : State) (shift : Int) (t : Time) : inDelaySlot s shift t = true ↔
    (delayStart s : Int) + shift ≤ t.toNat ∧ (t.toNat : Int) ≤ (delayStart s : Int) + shift + 20000 := by
  simp only [inDelaySlot, Bool.and_eq_true, decide_eq_true_eq]

/-- A copy of a service frame on a used medium comes to a node that measures. -/
structure ServiceCopy (s : State) (x : RxFrame) : Prop where
  sends : txDis s x.seg x.medium = false
  used : mediumUsed s x.seg x.medium = true
  fcs : fcsGood x.frame = true
  segment : fromSegment x = true
  length : x.frame.payload.length = 16
  node : s.alk.node = .measure ∨ s.alk.node = .align ∨ s.alk.node = .inSync

namespace ServiceCopy

variable {s : State} {x : RxFrame} (h : ServiceCopy s x)
include h

theorem heard : (txDis s x.seg x.medium || decide (s.alk.node = .down)) = false := by
  obtain n | n | n := h.node <;> simp [h.sends, n]

theorem serves {ty : Byte} (hy : x.frame.type = ty) : serviceFrame s x ty = true := by
  simp [serviceFrame, h.used, h.length, h.segment, hy]

theorem measuring : measures s = true := (measures_iff s).2 h.node

end ServiceCopy

/-! ### DELAY_REQ (R205, R516) -/

/-- D of the side, or the D_OUT that the request brings until the node has one (R205). -/
def delayOrSent (w : DelayRec) (dOut : Nat) : Nat := match w.d with | some d => d | none => dOut

/-- What a delay request leaves of its side: D_OUT, T2 and a new D. -/
def requestTaken (x : RxFrame) (w : DelayRec) : DelayRec :=
  { w with dOut := payNat x.frame 0 4, t2Now := some x.arrival
           next := if payNat x.frame 4 4 = 0xFFFFFFFF then w.next else some (payNat x.frame 4 4) }

/-- The request leads a measuring node to ALIGN (R516). -/
def leadsToAlign (s : State) (x : RxFrame) : Bool :=
  decide (s.alk.node = .measure) && decide (x.side = .A) && decide (payNat x.frame 4 4 ≠ 0xFFFFFFFF)

theorem leadsToAlign_iff (s : State) (x : RxFrame) :
    leadsToAlign s x = true ↔ s.alk.node = .measure ∧ x.side = .A ∧ payNat x.frame 4 4 ≠ 0xFFFFFFFF := by
  simp only [leadsToAlign, Bool.and_eq_true, decide_eq_true_eq, and_assoc]

/-- The node goes on to ALIGN. -/
def toAlign (s : State) : State := { s with alk := { s.alk with node := .align, goodSync := false } }

/-- The node once it has taken a request. -/
def requestServed (s : State) (x : RxFrame) : State :=
  if leadsToAlign s x then toAlign (modDelay s x.seg x.medium x.side (requestTaken x)) else modDelay s x.seg x.medium x.side (requestTaken x)

theorem requestServed_shows (s : State) (x : RxFrame) : changesOnly [.alk] s (requestServed s x) ∧
    delayOf (mediumOf (requestServed s x) x.seg x.medium) x.side = requestTaken x (delayOf (mediumOf s x.seg x.medium) x.side) ∧
    (requestServed s x).alk.node =
      (if s.alk.node = .measure ∧ x.side = .A ∧ payNat x.frame 4 4 ≠ 0xFFFFFFFF then .align else s.alk.node) ∧
    ∀ g m, (g, m) ≠ (x.seg, x.medium) → mediumOf (requestServed s x) g m = mediumOf s g m := by
  have frame := chg_modDelay s x.seg x.medium x.side (requestTaken x) (by decide) (changesOnly_refl [.alk] s)
  have own := delayOf_modDelay s x.seg x.medium x.side (requestTaken x)
  have others : ∀ g m, (g, m) ≠ (x.seg, x.medium) → mediumOf (modDelay s x.seg x.medium x.side (requestTaken x)) g m = mediumOf s g m :=
    fun _ _ e => mediumOf_modMedium_other s _ e
  simp only [← leadsToAlign_iff]
  unfold requestServed
  split
  · exact ⟨changes_step (by decide) (changes_alk _ _) frame, own, rfl, others⟩
  · exact ⟨frame, own, rfl, others⟩

section
variable {s : State} {x : RxFrame} (h : ServiceCopy s x) (hy : x.frame.type = 0x03) (h0 : ownNode s ≠ 0)
include h hy h0

theorem exec_delayReq : exec (.delayReq x) s = .next (
    if !inDelaySlot s (delayOrSent (delayOf (mediumOf s x.seg x.medium) x.side) (payNat x.frame 0 4)) x.arrival then s
    else requestServed s x) := by
  have known : knownType x.frame = true := by simp [knownType, hy]
  show execDelayReq x s = _
  unfold execDelayReq
  rw [if_neg (by rw [h.heard]; decide), if_neg (by rw [h.fcs, known]; decide),
    if_neg (by rw [h.serves hy, h.measuring, decide_eq_false h0]; decide)]
  unfold delayOrSent
  cases (delayOf (mediumOf s x.seg x.medium) x.side).d
  · rfl
  · rfl

/-- A request outside its slot is passed over, and any other taken (R205, R225). -/
theorem delayReq_served : let w := delayOf (mediumOf s x.seg x.medium) x.side
    let within := (delayStart s : Int) + (delayOrSent w (payNat x.frame 0 4) : Nat) ≤ x.arrival.toNat ∧
      (x.arrival.toNat : Int) ≤ (delayStart s : Int) + (delayOrSent w (payNat x.frame 0 4) : Nat) + 20000
    (¬ within → exec (.delayReq x) s = .next s) ∧
    (within → ∃ t, exec (.delayReq x) s = .next t ∧ changesOnly [.alk] s t ∧
      delayOf (mediumOf t x.seg x.medium) x.side = requestTaken x w ∧
      t.alk.node = (if s.alk.node = .measure ∧ x.side = .A ∧ payNat x.frame 4 4 ≠ 0xFFFFFFFF then .align else s.alk.node) ∧
      ∀ g m, (g, m) ≠ (x.seg, x.medium) → mediumOf t g m = mediumOf s g m) := by
  intro w within
  have run := exec_delayReq h hy h0
  refine ⟨fun hw => ?_, fun hw => ?_⟩
  · rw [Bool.eq_false_iff.2 (mt (inDelaySlot_iff _ _ _).1 hw)] at run
    exact run
  · rw [(inDelaySlot_iff _ _ _).2 hw] at run
    exact ⟨_, run, requestServed_shows s x⟩

end

/-! ### DELAY_RESP (R205) -/

/-- LINK is half the difference, in whole ns, rounded to either side where that is odd (R205). -/
theorem linkDelay_half (free : BitVec 64) (t1 t2 t3 t4 : Time) :
    2 * linkDelay free t1 t2 t3 t4 = ((t4.toNat : Int) - t1.toNat) - ((t3.toNat : Int) - t2.toNat) ∨
    2 * linkDelay free t1 t2 t3 t4 + 1 = ((t4.toNat : Int) - t1.toNat) - ((t3.toNat : Int) - t2.toNat) ∨
    2 * linkDelay free t1 t2 t3 t4 = ((t4.toNat : Int) - t1.toNat) - ((t3.toNat : Int) - t2.toNat) + 1 := by
  unfold linkDelay
  dsimp only
  have free2 : free.toNat % 2 < 2 := Nat.mod_lt _ (by decide)
  split
  · omega
  · omega

/-- What the answer leaves of its side: LINK, and the D_NEW that it makes for the neighbour. -/
def answerTaken (link new : Int) (w : DelayRec) : DelayRec := { w with resultNow := some (BitVec.ofInt 32 link, BitVec.ofInt 32 new) }

/-- The node once it has taken the answer to its request of t1. -/
def answerServed (s : State) (x : RxFrame) (t1 : Time) : State :=
  let link := linkDelay (Config.freeValue s.free) t1 (BitVec.ofNat 64 (payNat x.frame 0 8)) (BitVec.ofNat 64 (payNat x.frame 8 8)) x.arrival
  modDelay { s with free := s.free + 1 } x.seg x.medium x.side
    (answerTaken link ((delayOut s x.seg x.medium x.side : Nat) + link))

theorem answerServed_shows (s : State) (x : RxFrame) (t1 : Time) :
    let link := linkDelay (Config.freeValue s.free) t1 (BitVec.ofNat 64 (payNat x.frame 0 8)) (BitVec.ofNat 64 (payNat x.frame 8 8)) x.arrival
    delayOf (mediumOf (answerServed s x t1) x.seg x.medium) x.side =
      answerTaken link ((delayOut s x.seg x.medium x.side : Nat) + link) (delayOf (mediumOf s x.seg x.medium) x.side) ∧
    ∀ g m, (g, m) ≠ (x.seg, x.medium) → mediumOf (answerServed s x t1) g m = mediumOf s g m :=
  ⟨delayOf_modDelay { s with free := s.free + 1 } x.seg x.medium x.side _, fun _ _ e => mediumOf_modMedium_other _ _ e⟩

theorem answerServed_only (s : State) (x : RxFrame) (t1 : Time) : changesOnly [.alk, .free] s (answerServed s x t1) := by
  have counted : changesOnly [.alk, .free] s { s with free := s.free + 1 } := changes_module (s := s) rfl (fun p h => by
    cases p
    case free => exact Bool.noConfusion (show true = false from h)
    all_goals trivial) (changesOnly_refl _ s)
  exact chg_modDelay _ x.seg x.medium x.side _ (by decide) counted

section
variable {s : State} {x : RxFrame} (h : ServiceCopy s x) (hy : x.frame.type = 0x04)
include h hy

theorem takeDelayResp_usable : takeDelayResp s x =
    if !inDelaySlot s (-(delayOut s x.seg x.medium x.side : Int)) x.arrival then s
    else match (delayOf (mediumOf s x.seg x.medium) x.side).t1 with
      | none => s
      | some t1 => answerServed s x t1 := by
  have known : knownType x.frame = true := by simp [knownType, hy]
  unfold takeDelayResp
  rw [if_neg (by rw [h.heard]; decide), if_neg (by rw [h.fcs, known]; decide), h.serves hy, h.measuring]
  rfl

/-- An answer outside its slot, or to no request, is passed over; any other gives LINK and D_NEW (R205, R225). -/
theorem delayResp_served : let w := delayOf (mediumOf s x.seg x.medium) x.side
    let dOut := delayOut s x.seg x.medium x.side
    let within := (delayStart s : Int) + -(dOut : Int) ≤ x.arrival.toNat ∧ (x.arrival.toNat : Int) ≤ (delayStart s : Int) + -(dOut : Int) + 20000
    let t2 : Time := BitVec.ofNat 64 (payNat x.frame 0 8)
    let t3 : Time := BitVec.ofNat 64 (payNat x.frame 8 8)
    let came := Instr.delayResp ⟨x.seg, x.medium, x.side⟩ x.arrival x.frame
    (¬ within ∨ w.t1 = none → exec came s = .next s) ∧
    (∀ t1, w.t1 = some t1 → within → ∃ t link, exec came s = .next t ∧ changesOnly [.alk, .free] s t ∧
      (2 * link = ((x.arrival.toNat : Int) - t1.toNat) - ((t3.toNat : Int) - t2.toNat) ∨
        2 * link + 1 = ((x.arrival.toNat : Int) - t1.toNat) - ((t3.toNat : Int) - t2.toNat) ∨
        2 * link = ((x.arrival.toNat : Int) - t1.toNat) - ((t3.toNat : Int) - t2.toNat) + 1) ∧
      delayOf (mediumOf t x.seg x.medium) x.side = answerTaken link ((dOut : Int) + link) w ∧
      ∀ g m, (g, m) ≠ (x.seg, x.medium) → mediumOf t g m = mediumOf s g m) := by
  intro w dOut within t2 t3 came
  have run : exec came s = .next (takeDelayResp s x) := rfl
  rw [takeDelayResp_usable h hy] at run
  refine ⟨fun hw => ?_, fun t1 h1 hw => ?_⟩
  · refine run.trans (congrArg Host.Outcome.next ?_)
    obtain hw | hw := hw
    · exact if_pos (by rw [Bool.eq_false_iff.2 (mt (inDelaySlot_iff _ _ _).1 hw)]; rfl)
    · rw [show (delayOf (mediumOf s x.seg x.medium) x.side).t1 = none from hw]
      exact ite_self s
  · rw [(inDelaySlot_iff _ _ _).2 hw, show (delayOf (mediumOf s x.seg x.medium) x.side).t1 = some t1 from h1] at run
    exact ⟨_, _, run, answerServed_only s x t1, linkDelay_half _ t1 t2 t3 x.arrival, answerServed_shows s x t1⟩

end

end Sys2Proof.Laws

/-! ## The media: withdrawal, return and clear, and their statement (R205, R225, R233, R501) -/

namespace Sys2Proof.Laws

open Sys2Proof Sys2Proof.Machine Sys2Proof.Safety

/-! ### Withdrawal (R233) -/

/-- Withdrawals of the medium in the 24 h that end at the tick. -/
def recentWithdrawals (s : State) (g : Fin 4) (m : Medium) : Nat :=
  (inWindow s.mod.tickTime day24 (sget [] s.cellar.life.withdrawals (mediumIx g m))).length

theorem withdraws_iff (s : State) (g : Fin 4) (m : Medium) (b : Bool) : withdraws s g m b = true ↔
    (b = true ∧ (mediumOf s g m).unlocked ≠ 0) ∨ 8 ≤ (mediumOf s g m).losses.foldl (· + ·) 0 := by
  simp only [withdraws, Bool.or_eq_true, Bool.and_eq_true, decide_eq_true_eq, ge_iff_le]

/-- The keeper notes the withdrawal of a medium, the fourth in 24 h as its retirement. -/
def withdrawalKept (s : State) (g : Fin 4) (m : Medium) : State := modPages s [4] (fun f => { f with
  withdrawals := smod [] f.withdrawals (mediumIx g m) (fun ts => (s.mod.tickTime :: ts).take 4)
  retiredMedia := if decide (recentWithdrawals s g m ≥ 3) then vput f.retiredMedia (mediumIx g m) true else f.retiredMedia })

/-- The medium is out of use. -/
def mediumOut (s : State) (g : Fin 4) (m : Medium) : State := modMedium (withdrawalKept s g m) g m (fun x => { x with
  st := if decide (recentWithdrawals s g m ≥ 3) then .retired else .withdrawn, lapse := true, clean := false })

/-- The withdrawal or the retirement is raised and recorded. -/
def withdrawalTold (s : State) (g : Fin 4) (m : Medium) : State :=
  if decide (recentWithdrawals s g m ≥ 3) then eventAll (mediumOut s g m) 36 0x0304 (mediumPayload (mediumOut s g m) g m)
  else eventAll (mediumOut s g m) 35 0x0302 (mediumPayload (mediumOut s g m) g m)

theorem withdrawalTold_only (s : State) (g : Fin 4) (m : Medium) : changesOnly records (mediumOut s g m) (withdrawalTold s g m) := by
  unfold withdrawalTold
  split
  · exact eventAll_only _ _ _ _
  · exact eventAll_only _ _ _ _

theorem exec_mediumWithdrawn {s : State} {g : Fin 4} {m : Medium} {b : Bool} (hu : mediumUsed s g m = true) (hw : withdraws s g m b = true) :
    exec (.mediumWithdrawn g m b) s = .next (withdrawalTold s g m) :=
  congrArg Host.Outcome.next (if_pos (by rw [hu, hw]; rfl))

theorem exec_mediumWithdrawn_not {s : State} {g : Fin 4} {m : Medium} {b : Bool} (hw : withdraws s g m b = false) :
    exec (.mediumWithdrawn g m b) s = .next s :=
  congrArg Host.Outcome.next (if_neg (by rw [hw, Bool.and_false]; decide))

theorem mediumOut_medium (s : State) (g : Fin 4) (m : Medium) : mediumOf (mediumOut s g m) g m = { mediumOf s g m with
    st := if recentWithdrawals s g m < 3 then .withdrawn else .retired, lapse := true, clean := false } := by
  unfold mediumOut
  rw [mediumOf_modMedium_self]
  by_cases h : recentWithdrawals s g m < 3
  · rw [if_pos h, decide_eq_false (by omega)]
    rfl
  · rw [if_neg h, decide_eq_true (by omega)]
    rfl

theorem mediumOut_retired (s : State) (g : Fin 4) (m : Medium) : (mediumOut s g m).cellar.life.retiredMedia.getLsbD (mediumIx g m) =
    (decide (3 ≤ recentWithdrawals s g m) || s.cellar.life.retiredMedia.getLsbD (mediumIx g m)) := by
  show (if decide (recentWithdrawals s g m ≥ 3) then vput s.cellar.life.retiredMedia (mediumIx g m) true
    else s.cellar.life.retiredMedia).getLsbD (mediumIx g m) = _
  by_cases h : 3 ≤ recentWithdrawals s g m
  · rw [decide_eq_true h, if_pos rfl, vput_self _ (mediumIx_lt g m)]
    rfl
  · rw [decide_eq_false h]
    rfl

theorem mediumWithdrawn_shows {s : State} {g : Fin 4} {m : Medium} {b : Bool} (hu : mediumUsed s g m = true)
    (hw : withdraws s g m b = true) : ∃ t, exec (.mediumWithdrawn g m b) s = .next t ∧ changesOnly (records ++ [.alk, .lifetime]) s t ∧
      mediumOf t g m = { mediumOf s g m with
        st := if recentWithdrawals s g m < 3 then .withdrawn else .retired, lapse := true, clean := false } ∧
      t.cellar.life.retiredMedia.getLsbD (mediumIx g m) =
        (decide (3 ≤ recentWithdrawals s g m) || s.cellar.life.retiredMedia.getLsbD (mediumIx g m)) ∧
      ∀ g' m', (g', m') ≠ (g, m) → mediumOf t g' m' = mediumOf s g' m' := by
  have run := exec_mediumWithdrawn hu hw
  have told := withdrawalTold_only s g m
  refine ⟨_, run, frame_next run (chg_execMediumWithdrawn g m b s s (by decide) (changesOnly_refl _ s)), ?_, ?_, fun g' m' e => ?_⟩
  · rw [medium_of told, mediumOut_medium]
  · rw [lifetime_of told, mediumOut_retired]
  · rw [medium_of told]
    exact mediumOf_modMedium_other (withdrawalKept s g m) _ e

/-! ### Return and clear (R29, R233, R486) -/

section
variable {s : State} {g : Fin 4} {m : Medium}

theorem mediumReturned_returns (hst : (mediumOf s g m).st = .withdrawn) (hl : (mediumOf s g m).unlocked = 0) (hc : (mediumOf s g m).clean = true) :
    ∃ t, exec (.mediumReturned g m) s = .next t ∧ changesOnly (records ++ [.alk]) s t ∧
      mediumOf t g m = { mediumOf s g m with st := .inUse, losses := [] } := by
  have run : exec (.mediumReturned g m) s = _ := congrArg Host.Outcome.next (if_pos ⟨hst, hl, hc⟩)
  refine ⟨_, run, frame_next run (chg_execMediumReturned g m s s (by decide) (changesOnly_refl _ s)), ?_⟩
  rw [medium_of (recordAll_only _ _ _), mediumOf_modMedium_self]

theorem exec_mediumReturned_waits (h : (mediumOf s g m).unlocked ≠ 0 ∨ (mediumOf s g m).clean = false) :
    exec (.mediumReturned g m) s = .next s := by
  refine congrArg Host.Outcome.next (if_neg ?_)
  rintro ⟨-, hl, hc⟩
  obtain h | h := h
  · exact h hl
  · rw [hc] at h
    cases h

/-- The clear puts the medium in use, with its withdrawals forgotten. -/
def mediumCleared (g : Fin 4) (m : Medium) (s : State) : State :=
  modMedium (modPages s [4] (fun f => { f with
    withdrawals := sput [] f.withdrawals (mediumIx g m) [], retiredMedia := vput f.retiredMedia (mediumIx g m) false })) g m
    (fun x => { x with st := .inUse })

theorem mediumCleared_medium (s : State) : mediumOf (mediumCleared g m s) g m = { mediumOf s g m with st := .inUse } :=
  mediumOf_modMedium_self (modPages s [4] _) g m _

theorem mediumCleared_life (s : State) : sget [] (mediumCleared g m s).cellar.life.withdrawals (mediumIx g m) = [] ∧
    (mediumCleared g m s).cellar.life.retiredMedia.getLsbD (mediumIx g m) = false := by
  refine ⟨?_, vput_false_self s.cellar.life.retiredMedia (mediumIx g m)⟩
  show sget [] (sput [] s.cellar.life.withdrawals (mediumIx g m) []) (mediumIx g m) = []
  rw [sget_sput, if_pos rfl]

theorem exec_mediumClear (hst : (mediumOf s g m).st = .retired) (a : Auth) :
    exec (.mediumClear g m a) s = .next (harnal s a 2 (mediumIx g m) (mediumCleared g m)) :=
  congrArg Host.Outcome.next (if_pos hst)

theorem mediumClear_clears (hst : (mediumOf s g m).st = .retired) {a : Auth} (ha : authOk s a = true) :
    ∃ t, exec (.mediumClear g m a) s = .next t ∧ changesOnly (records ++ [.alk, .lifetime]) s t ∧
      mediumOf t g m = { mediumOf s g m with st := .inUse } ∧ sget [] t.cellar.life.withdrawals (mediumIx g m) = [] ∧
      t.cellar.life.retiredMedia.getLsbD (mediumIx g m) = false := by
  have run := (exec_mediumClear hst a).trans (congrArg Host.Outcome.next (harnal_taken ha _ _ _))
  refine ⟨_, run, frame_next run (chg_execMediumClear g m a s s (by decide) (changesOnly_refl _ s)), ?_, mediumCleared_life _⟩
  rw [mediumCleared_medium, medium_of (accepted_only s a 2 (mediumIx g m))]

end

/-! ### The judgement at the tick, and the ports (R233, R501) -/

/-- Each of the first n entries of a map is changed by a function of its index. -/
theorem sget_foldl_smod {α : Type} [DecidableEq α] (d : α) (f : Nat → α → α) (m : Sparse α) (n i : Nat) :
    sget d ((List.range n).foldl (fun m k => smod d m k (f k)) m) i = if i < n then f i (sget d m i) else sget d m i := by
  induction n with
  | zero => rfl
  | succ n ih =>
    rw [List.range_succ, List.foldl_concat, sget_smod]
    by_cases e : i = n
    · subst e
      rw [if_pos rfl, if_pos (Nat.lt_succ_self i), ih, if_neg (Nat.lt_irrefl i)]
    · rw [if_neg e, ih]
      exact if_congr (by omega) rfl rfl

/-- What the tick makes of a medium's record (R233). -/
def mediumJudged (s : State) (i : Nat) (x : MediumRec) : MediumRec :=
  { x with
    losses := if s.alk.node = .inSync then (oneSided s i :: x.losses).take 100 else x.losses, lostNow := 0
    clean := decide (s.alk.node = .inSync) && decide (oneSided s i = 0) && !x.lapse, lapse := decide (x.unlocked ≠ 0) }

theorem lossTick_medium (s : State) (g : Fin 4) (m : Medium) :
    sget MediumRec.reset (lossTick s).alk.media (mediumIx g m) = mediumJudged s (mediumIx g m) (mediumOf s g m) := by
  unfold lossTick
  dsimp only
  rw [sget_foldl_smod, if_pos (mediumIx_lt g m)]
  rfl

theorem mediumJudged_clean {s : State} {i : Nat} {x : MediumRec} (h : (mediumJudged s i x).clean = true) :
    s.alk.node = .inSync ∧ oneSided s i = 0 ∧ x.lapse = false := by
  simpa [mediumJudged, and_assoc] using h

theorem los_shows (s : State) (g : Fin 4) (m : Medium) (p : Fin 2) (b : Bool) : ∃ t, exec (.los g m p b) s = .next t ∧
    changesOnly [.alk] s t ∧ (mediumOf t g m).unlocked.getLsbD p.val = b ∧
    ((mediumOf t g m).lapse = true ↔ (mediumOf s g m).lapse = true ∨ b = true) ∧
    (∀ i, i ≠ p.val → (mediumOf t g m).unlocked.getLsbD i = (mediumOf s g m).unlocked.getLsbD i) ∧
    (mediumOf t g m).st = (mediumOf s g m).st := by
  have run : exec (.los g m p b) s = .next (modMedium s g m _) := rfl
  refine ⟨_, run, frame_next run (chg_execLos g m p b s s (by decide) (changesOnly_refl _ s)), ?_⟩
  rw [mediumOf_modMedium_self]
  exact ⟨vput_self _ p.isLt b, Bool.or_eq_true _ _ ▸ Iff.rfl, fun i e => vput_other _ b e, rfl⟩

/-! ### The statement -/

/-- Settles O39: what each exchange leaves, and each command of a medium in the state that the statement asks for (log entries 28, 58). -/
theorem delayAndMedia : Obligations.DelayAndMedia := by
  intro s
  refine ⟨fun x ht hu hf hg hlen hn => ?_, fun g m b hu => ?_, fun g m hst => ⟨mediumReturned_returns hst, exec_mediumReturned_waits⟩,
    fun g m a hst => ⟨fun ha => (exec_mediumClear hst a).trans (congrArg Host.Outcome.next (harnal_refused ha _ _ _)),
      mediumClear_clears hst⟩, fun g m => ?_, los_shows s⟩
  · have copy : ServiceCopy s x := ⟨ht, hu, hf, hg, hlen, hn⟩
    exact ⟨fun hy h0 => delayReq_served copy hy h0, fun hy => delayResp_served copy hy⟩
  · exact ⟨fun h => exec_mediumWithdrawn_not (Bool.eq_false_iff.2 (fun hw => h ((withdraws_iff s g m b).1 hw))),
      fun h => mediumWithdrawn_shows hu ((withdraws_iff s g m b).2 h)⟩
  · rw [lossTick_medium]
    exact mediumJudged_clean

end Sys2Proof.Laws

/-! ## What the field die's operations do to outputs, groups and switches (R259, R263, R278, R281, R282) -/

namespace Sys2Proof.Laws

open Sys2Proof Sys2Proof.Machine Sys2Proof.Safety

/-! ### Output records -/

/-- Of the field die at most the records of its outputs have changed. -/
def OutputsOnly (f g : Field) : Prop := g = { f with outputs := g.outputs }

theorem outputsOnly_trans {f g h : Field} (a : OutputsOnly f g) (b : OutputsOnly g h) : OutputsOnly f h :=
  b.trans (congrArg (fun x : Field => { x with outputs := h.outputs }) a)

theorem outputsOnly_modFieldOut (f : Field) (n : Nat) (g : OutRec → OutRec) : OutputsOnly f (modFieldOut f n g) := rfl

theorem outputsOnly_discardTest (f : Field) (n : Nat) : OutputsOnly f (discardTest f n) := by
  unfold discardTest
  split
  · rfl
  · exact outputsOnly_modFieldOut f n _
  · exact outputsOnly_modFieldOut f n _

theorem outputsOnly_foldl {g : Field → Nat → Field} (hg : ∀ f n, OutputsOnly f (g f n)) (xs : List Nat) (f : Field) :
    OutputsOnly f (xs.foldl g f) := by
  induction xs generalizing f with
  | nil => rfl
  | cons n xs ih => exact outputsOnly_trans (hg f n) (ih _)

theorem outputsOnly_eachOut {g : Field → Nat → Field} (hg : ∀ f n, OutputsOnly f (g f n)) (f : Field) : OutputsOnly f (eachOut g f) :=
  outputsOnly_foldl hg _ f

theorem fieldOut_modFieldOut (f : Field) (n m : Nat) (g : OutRec → OutRec) :
    fieldOut (modFieldOut f n g) m = if m = n then g (fieldOut f n) else fieldOut f m := sget_smod _ _ _ _ _

/-- An output's record once its test has ended without a result: an ON-test is due again (R278). -/
def testDiscarded (o : OutRec) : OutRec := { o with test := .none, testDue := decide (o.test = .on) || o.testDue }

theorem testDiscarded_idle {o : OutRec} (h : o.test = .none) : testDiscarded o = o := by
  cases o
  dsimp only at h
  subst h
  rfl

theorem fieldOut_discardTest (f : Field) (n m : Nat) :
    fieldOut (discardTest f n) m = if m = n then testDiscarded (fieldOut f n) else fieldOut f m := by
  unfold discardTest
  split
  · next h =>
    rw [testDiscarded_idle h]
    split
    · next e => rw [e]
    · rfl
  · next h =>
    rw [fieldOut_modFieldOut]
    unfold testDiscarded
    rw [h]
    rfl
  · next h =>
    rw [fieldOut_modFieldOut]
    unfold testDiscarded
    rw [h]
    rfl

/-- A property of an output's record that every step keeps, a change of all outputs keeps. -/
theorem fieldOut_eachOut {α : Type} {g : Field → Nat → Field} (p : OutRec → α) (hg : ∀ f n m, p (fieldOut (g f n) m) = p (fieldOut f m))
    (f : Field) (m : Nat) : p (fieldOut (eachOut g f) m) = p (fieldOut f m) := by
  unfold eachOut
  induction List.range 16 generalizing f with
  | nil => rfl
  | cons n xs ih => rw [List.foldl_cons, ih, hg]

/-! ### Enables and switches (R259, R262, R263, R275, R279, R281, R282) -/

/-- The field die's enable of an output needs all of this. -/
structure OutEnabled (f : Field) (n : Nat) : Prop where
  ready : fieldReady f = true
  crossing : f.lost = false
  fault : f.fault = none
  group : (groupRec f (decide (8 ≤ n))).enabled = true
  unlatched : (groupRec f (decide (8 ≤ n))).latched = false
  held : (fieldOut f n).heldOff = false
  retired : (fieldOut f n).retired = false
  zeroed : (fieldOut f n).awaitZero = false
  test : (fieldOut f n).test ≠ .off

theorem outEnabled_true {f : Field} {n : Nat} (h : outEnabled f n = true) : OutEnabled f n := by
  unfold outEnabled at h
  simp only [Bool.and_eq_true, Bool.not_eq_true', Option.isNone_iff_eq_none, decide_eq_true_eq] at h
  obtain ⟨⟨⟨⟨⟨⟨⟨⟨ready, crossing⟩, fault⟩, group⟩, unlatched⟩, held⟩, retired⟩, zeroed⟩, test⟩ := h
  exact ⟨ready, crossing, fault, group, unlatched, held, retired, zeroed, test⟩

/-- An output is not enabled where one of its conditions does not hold. -/
theorem outEnabled_false {f : Field} {n : Nat} (h : ¬ OutEnabled f n) : outEnabled f n = false :=
  Bool.eq_false_iff.2 (fun k => h (outEnabled_true k))

/-- The switches follow drive and enable (R259). -/
theorem getLsbD_settled (f : Field) (l : Lane) (i : Nat) : ((settleSwitches f).closed.get l).getLsbD i =
    (decide (i < 32) && ((f.streams.get l).drive.getLsbD i && outEnabled f (i % 16))) := by
  unfold settleSwitches
  rw [get_map, getLsbD_bitsFrom]

/-- The six switches of an output without its enable are open. -/
theorem settled_open {f : Field} {n : Nat} (hn : n < 16) (h : outEnabled f n = false) (l : Lane) :
    ((settleSwitches f).closed.get l).getLsbD n = false ∧ ((settleSwitches f).closed.get l).getLsbD (16 + n) = false := by
  have low : n % 16 = n := Nat.mod_eq_of_lt hn
  have high : (16 + n) % 16 = n := by omega
  constructor
  · rw [getLsbD_settled, low, h, Bool.and_false, Bool.and_false]
  · rw [getLsbD_settled, high, h, Bool.and_false, Bool.and_false]

/-- With no output enabled every switch is open. -/
theorem settled_allOpen {f : Field} (h : ∀ n, outEnabled f n = false) (l : Lane) (i : Nat) :
    ((settleSwitches f).closed.get l).getLsbD i = false := by
  rw [getLsbD_settled, h, Bool.and_false, Bool.and_false]

/-! ### Supply groups (R263, R282, R283) -/

theorem groupRec_modGroup_self (f : Field) (second : Bool) (g : GroupRec → GroupRec) :
    groupRec (modGroup f second g) second = g (groupRec f second) := by cases second <;> rfl

theorem groupRec_modGroup_other (f : Field) (second : Bool) (g : GroupRec → GroupRec) :
    groupRec (modGroup f second g) (!second) = groupRec f (!second) := by cases second <;> rfl

/-- A change of a group that changes nothing. -/
theorem modGroup_same {f : Field} {second : Bool} {g : GroupRec → GroupRec} (h : g (groupRec f second) = groupRec f second) :
    modGroup f second g = f := by
  cases second
  · exact congrArg (fun x => { f with group1 := x }) h
  · exact congrArg (fun x => { f with group2 := x }) h

theorem fault_modGroup (f : Field) (second : Bool) (g : GroupRec → GroupRec) : (modGroup f second g).fault = f.fault := by
  cases second <;> rfl

theorem groupRec_outputsOnly {f g : Field} (h : OutputsOnly f g) (second : Bool) : groupRec g second = groupRec f second := by
  rw [show g = _ from h]
  rfl

theorem fault_outputsOnly {f g : Field} (h : OutputsOnly f g) : g.fault = f.fault := by rw [show g = _ from h]

/-- A group's record once it is latched off. -/
def groupLatched (g : GroupRec) : GroupRec :=
  { g with latched := true, enabled := false, st := .latched, good := 0, recoveredAtTick := false }

/-- A group is latched off, its outputs' tests end, and the switches follow. -/
theorem latchGroup_is (second : Bool) (f : Field) :
    ∃ g, OutputsOnly (modGroup f second groupLatched) g ∧ latchGroup second f = settleSwitches g := by
  refine ⟨eachOut (fun f n => if decide (8 ≤ n) = second then discardTest f n else f) (modGroup f second groupLatched),
    outputsOnly_eachOut (fun g n => ?_) _, rfl⟩
  split
  · exact outputsOnly_discardTest g n
  · rfl

theorem groupRec_latchGroup_self (second : Bool) (f : Field) : groupRec (latchGroup second f) second = groupLatched (groupRec f second) := by
  obtain ⟨g, only, is⟩ := latchGroup_is second f
  rw [is, show groupRec (settleSwitches g) second = groupRec g second from rfl, groupRec_outputsOnly only, groupRec_modGroup_self]

theorem groupRec_latchGroup_other (second : Bool) (f : Field) : groupRec (latchGroup second f) (!second) = groupRec f (!second) := by
  obtain ⟨g, only, is⟩ := latchGroup_is second f
  rw [is, show groupRec (settleSwitches g) (!second) = groupRec g (!second) from rfl, groupRec_outputsOnly only, groupRec_modGroup_other]

theorem fault_latchGroup (second : Bool) (f : Field) : (latchGroup second f).fault = f.fault := by
  obtain ⟨g, only, is⟩ := latchGroup_is second f
  rw [is, show (settleSwitches g).fault = g.fault from rfl, fault_outputsOnly only, fault_modGroup]

/-- No output of a group that is latched is enabled. -/
theorem outEnabled_of_latched {f : Field} {second : Bool} (h : (groupRec f second).latched = true) {n : Nat} (hn : decide (8 ≤ n) = second) :
    outEnabled f n = false := outEnabled_false (fun k => by
  have unlatched := k.unlatched
  rw [hn, h] at unlatched
  cases unlatched)

/-! ### What an event leaves -/

theorem field_modField (s : State) (f : Field → Field) : (modField s f).field = f s.field := rfl

theorem life_fieldEvent (s : State) (src code a b v : Nat) : (fieldEvent s src code a b v).cellar.life = s.cellar.life :=
  lifetime_of (chg_fieldEvent s src code a b v (by decide) (changesOnly_refl records s))

theorem outRec_fieldEvent (s : State) (src code a b v k : Nat) : outRec (fieldEvent s src code a b v) k = outRec s k :=
  outRec_of (congrArg Field.outputs (field_fieldEvent s src code a b v)) k

/-! ### Retirement (R281, R292) -/

/-- An output's record once a fault has retired it; one that is retired shows what was found last. -/
def condemned (c : OutFault) (partner : Nat) (o : OutRec) : OutRec :=
  if o.retired then { o with fault := c, partner := BitVec.ofNat 4 partner }
  else { o with retired := true, awaitZero := false, fault := c, loadOk := false, partner := BitVec.ofNat 4 partner, test := .none,
                toTry := Option.none }

theorem retired_condemned (c : OutFault) (p : Nat) (o : OutRec) : (condemned c p o).retired = true := by
  unfold condemned
  split
  · next h => exact h
  · rfl

theorem fault_condemned (c : OutFault) (p : Nat) (o : OutRec) : (condemned c p o).fault = c := by
  unfold condemned
  split <;> rfl

theorem partner_condemned (c : OutFault) (p : Nat) (o : OutRec) : (condemned c p o).partner = BitVec.ofNat 4 p := by
  unfold condemned
  split <;> rfl

/-- What a retirement leaves of an output's record: its trips and the result of its last OFF-test (R279, R292). -/
theorem condemned_keeps (c : OutFault) (p : Nat) (o : OutRec) : (condemned c p o).heldOff = o.heldOff ∧ (condemned c p o).trips = o.trips ∧
    (condemned c p o).tripAt = o.tripAt ∧ (condemned c p o).energisedNs = o.energisedNs ∧ (condemned c p o).hot = o.hot ∧
    (condemned c p o).offPassed = o.offPassed := by
  unfold condemned
  split
  · exact ⟨rfl, rfl, rfl, rfl, rfl, rfl⟩
  · exact ⟨rfl, rfl, rfl, rfl, rfl, rfl⟩

theorem outRec_retireOut (s : State) (n : Nat) (c : OutFault) (p k : Nat) :
    outRec (retireOut s n c p) k = if k = n then condemned c p (outRec s n) else outRec s k := by
  unfold retireOut condemned
  split
  · exact outRec_modOut s n k _
  · extract_lets s0 _ s1 entry s2
    rw [outRec_of (s := s2) (congrArg Field.outputs (field_of (eventAll_only s2 _ _ _))), show outRec s2 k = outRec s0 k from rfl,
      outRec_modOut]

/-- The keeper writes the retirement, with its fault and partner, on lifetime page 5. -/
theorem retiredOuts_retireOut {s : State} {n : Nat} (h : (outRec s n).retired = false) (c : OutFault) (p : Nat) :
    sget 0 (retireOut s n c p).cellar.life.retiredOuts n = BitVec.ofNat 8 (outFaultCode c + 16 * (p % 16)) := by
  unfold retireOut
  rw [h, if_neg Bool.false_ne_true]
  extract_lets s0 _ s1 entry s2
  rw [lifetime_of (eventAll_only s2 _ _ _)]
  exact (sget_sput 0 s1.cellar.life.retiredOuts n n entry).trans (if_pos rfl)

end Sys2Proof.Laws

/-! ## Trips, retries and retirement of outputs, and the field supplies (R279, R281 to R283) -/

namespace Sys2Proof.Laws

open Sys2Proof Sys2Proof.Machine Sys2Proof.Safety

/-! ### Changes of one output's record -/

/-- From s to t the record of output n alone has changed among the outputs, and it is x now. -/
def OutBecomes (n : Nat) (x : OutRec) (s t : State) : Prop := outRec t n = x ∧ ∀ m, m ≠ n → outRec t m = outRec s m

theorem outBecomes_of {n : Nat} {x : OutRec} {s t : State} (h : ∀ k, outRec t k = if k = n then x else outRec s k) : OutBecomes n x s t :=
  ⟨(h n).trans (if_pos rfl), fun m e => (h m).trans (if_neg e)⟩

theorem outBecomes_modOut (s : State) (n : Nat) (f : OutRec → OutRec) : OutBecomes n (f (outRec s n)) s (modOut s n f) :=
  outBecomes_of (fun k => outRec_modOut s n k f)

/-- The switches that follow, and records and events, leave the outputs' records. -/
theorem outBecomes_then {n : Nat} {x : OutRec} {s t u : State} (h : OutBecomes n x s t) (e : u.field.outputs = t.field.outputs) :
    OutBecomes n x s u := ⟨(outRec_of e n).trans h.1, fun m k => (outRec_of e m).trans (h.2 m k)⟩

theorem outBecomes_settled {n : Nat} {x : OutRec} {s t : State} (h : OutBecomes n x s t) : OutBecomes n x s (modField t settleSwitches) :=
  outBecomes_then h rfl

theorem outBecomes_retireOut (s : State) (n : Nat) (c : OutFault) (p : Nat) :
    OutBecomes n (condemned c p (outRec s n)) s (retireOut s n c p) := outBecomes_of (outRec_retireOut s n c p)

/-- A retirement after another change of the same output. -/
theorem outBecomes_retired {n : Nat} {x : OutRec} {s t : State} (h : OutBecomes n x s t) (c : OutFault) (p : Nat) :
    OutBecomes n (condemned c p x) s (retireOut t n c p) := by
  obtain ⟨is, others⟩ := outBecomes_retireOut t n c p
  exact ⟨is.trans (by rw [h.1]), fun m e => (others m e).trans (h.2 m e)⟩

theorem life_settled (s : State) : (modField s settleSwitches).cellar.life = s.cellar.life := rfl

theorem outRec_settled (s : State) (n : Nat) : outRec (modField s settleSwitches) n = outRec s n := rfl

/-- Of the switches that follow, those of an output that is held off are open. -/
theorem settled_heldOff {s : State} {n : Nat} (hn : n < 16) (h : (outRec s n).heldOff = true) (l : Lane) :
    ((modField s settleSwitches).field.closed.get l).getLsbD n = false ∧
    ((modField s settleSwitches).field.closed.get l).getLsbD (16 + n) = false :=
  settled_open hn (outEnabled_false (fun k => Bool.false_ne_true (k.held.symm.trans h))) l

/-! ### Trips (R279) -/

/-- An output's record once it has tripped at a field time. -/
def tripped (now : Nat) (c : OutFault) (hot : Bool) (o : OutRec) : OutRec :=
  { testDiscarded o with heldOff := true, trips := o.trips + 1, tripAt := now, hot := hot, energisedNs := 0, fault := c }

/-- The trip is marked in the output's record, and its event raised. -/
def tripSeen (s : State) (n : Nat) (c : OutFault) (ma : Nat) (hot : Bool) : State :=
  fieldEvent (modField s (fun f => modFieldOut (discardTest f n) n (fun o => { o with
    heldOff := true, trips := o.trips + 1, tripAt := f.nowNs, hot := hot, energisedNs := 0, fault := c }))) 74 0x0408 n (outFaultCode c) ma

section
variable {s : State} {n : Nat} {c : OutFault} {ma : Nat} {hot : Bool}

theorem trip_none (h : canTrip s.field n = false) : trip s n c ma hot = s := if_neg (by rw [h]; exact Bool.false_ne_true)

/-- The fourth trip retires the output. -/
theorem trip_taken (h : canTrip s.field n = true) : trip s n c ma hot =
    modField (if 4 ≤ (outRec (tripSeen s n c ma hot) n).trips then retireOut (tripSeen s n c ma hot) n c 0 else tripSeen s n c ma hot)
      settleSwitches := if_pos h

theorem outBecomes_tripSeen (s : State) (n : Nat) (c : OutFault) (ma : Nat) (hot : Bool) :
    OutBecomes n (tripped s.field.nowNs c hot (outRec s n)) s (tripSeen s n c ma hot) := by
  refine outBecomes_of (fun k => ?_)
  unfold tripSeen
  rw [outRec_fieldEvent]
  refine (fieldOut_modFieldOut _ n k _).trans ?_
  rw [fieldOut_discardTest, fieldOut_discardTest, if_pos rfl]
  split
  · rfl
  · rfl

theorem life_tripSeen (s : State) (n : Nat) (c : OutFault) (ma : Nat) (hot : Bool) : (tripSeen s n c ma hot).cellar.life = s.cellar.life := by
  unfold tripSeen
  rw [life_fieldEvent]
  rfl

theorem outBecomes_trip (h : canTrip s.field n = true) : OutBecomes n
    (if 3 ≤ (outRec s n).trips then condemned c 0 (tripped s.field.nowNs c hot (outRec s n)) else tripped s.field.nowNs c hot (outRec s n))
    s (trip s n c ma hot) := by
  have seen := outBecomes_tripSeen s n c ma hot
  have fourth : 4 ≤ (outRec (tripSeen s n c ma hot) n).trips ↔ 3 ≤ (outRec s n).trips := by
    rw [seen.1]
    exact Nat.succ_le_succ_iff
  rw [trip_taken h]
  generalize tripSeen s n c ma hot = u at seen fourth
  simp only [fourth]
  split
  · exact outBecomes_settled (outBecomes_retired seen c 0)
  · exact outBecomes_settled seen

theorem trip_open (h : canTrip s.field n = true) (hn : n < 16) (l : Lane) : ((trip s n c ma hot).field.closed.get l).getLsbD n = false ∧
    ((trip s n c ma hot).field.closed.get l).getLsbD (16 + n) = false := by
  have held : (outRec (trip s n c ma hot) n).heldOff = true := by
    rw [(outBecomes_trip h).1]
    split
    · exact (condemned_keeps _ _ _).1
    · rfl
  rw [trip_taken h, outRec_settled] at held
  rw [trip_taken h]
  exact settled_heldOff hn held l

theorem retiredOuts_trip (h : canTrip s.field n = true) (hr : (outRec s n).retired = false) :
    ((outRec s n).trips < 3 → (trip s n c ma hot).cellar.life.retiredOuts = s.cellar.life.retiredOuts) ∧
    (3 ≤ (outRec s n).trips → sget 0 (trip s n c ma hot).cellar.life.retiredOuts n = BitVec.ofNat 8 (outFaultCode c)) := by
  have seen := (outBecomes_tripSeen s n c ma hot).1
  have trips : (outRec (tripSeen s n c ma hot) n).trips = (outRec s n).trips + 1 := by
    rw [seen]
    rfl
  have kept : (outRec (tripSeen s n c ma hot) n).retired = false := by
    rw [seen]
    exact hr
  rw [trip_taken h, trips, life_settled]
  constructor
  · intro few
    rw [if_neg (by omega), life_tripSeen]
  · intro many
    rw [if_pos (by omega)]
    exact retiredOuts_retireOut kept c 0

end

/-- An output that can trip has not been retired (R278, R279). -/
theorem retired_of_canTrip {f : Field} {n : Nat} (h : canTrip f n = true) : (fieldOut f n).retired = false := by
  unfold canTrip at h
  have kept := (outEnabled_true (Bool.and_eq_true_iff.1 h).1).retired
  rwa [fieldOut_modFieldOut, if_pos rfl] at kept

/-- The three trip commands: each is a trip with its fault, and an over-temperature marks the output hot (R279). -/
theorem exec_tripCommand {s : State} {k : Fin 16} {c : Instr} {y : OutFault}
    (h : (∃ ma, c = .overload k ma ∧ y = .overload) ∨ (c = .short k ∧ y = .short) ∨ (c = .overTemp k ∧ y = .overTemp)) :
    ∃ ma hot, exec c s = .next (trip s k.val y ma hot) ∧ (hot = true ↔ y = .overTemp) := by
  obtain ⟨ma, rfl, rfl⟩ | ⟨rfl, rfl⟩ | ⟨rfl, rfl⟩ := h
  · exact ⟨ma.toNat, false, rfl, by decide⟩
  · exact ⟨1023, false, rfl, by decide⟩
  · exact ⟨(outRec s k.val).current.toNat, true, rfl, by decide⟩

/-- What a trip shows (R279, R281). -/
theorem trip_shows {s : State} {n : Nat} (hn : n < 16) (h : canTrip s.field n = true) (y : OutFault) (ma : Nat) (hot : Bool) :
    let t := trip s n y ma hot
    changesOnly (records ++ [.field, .lifetime]) s t ∧ (∀ m, m ≠ n → outRec t m = outRec s m) ∧ (outRec t n).heldOff = true ∧
    (outRec t n).trips = (outRec s n).trips + 1 ∧ (outRec t n).tripAt = s.field.nowNs ∧ (outRec t n).energisedNs = 0 ∧
    (outRec t n).fault = y ∧ (outRec t n).hot = hot ∧
    (∀ l, (t.field.closed.get l).getLsbD n = false ∧ (t.field.closed.get l).getLsbD (16 + n) = false) ∧
    ((outRec s n).trips < 3 → (outRec t n).retired = false ∧ t.cellar.life.retiredOuts = s.cellar.life.retiredOuts) ∧
    (3 ≤ (outRec s n).trips → (outRec t n).retired = true ∧ sget 0 t.cellar.life.retiredOuts n = BitVec.ofNat 8 (outFaultCode y)) := by
  intro t
  have kept : (outRec s n).retired = false := retired_of_canTrip h
  obtain ⟨is, others⟩ := outBecomes_trip (c := y) (ma := ma) (hot := hot) h
  obtain ⟨few, many⟩ := retiredOuts_trip (c := y) (ma := ma) (hot := hot) h kept
  refine ⟨chg_trip s n y ma hot (by decide) (changesOnly_refl _ s), others, ?_⟩
  rw [show outRec t n = _ from is]
  split
  · next h3 =>
    obtain ⟨held, trips, tripAt, energised, isHot, -⟩ := condemned_keeps y 0 (tripped s.field.nowNs y hot (outRec s n))
    exact ⟨held, trips, tripAt, energised, fault_condemned _ _ _, isHot, trip_open h hn, fun k => absurd h3 (Nat.not_le.2 k),
      fun k => ⟨retired_condemned _ _ _, many k⟩⟩
  · next h3 => exact ⟨rfl, rfl, rfl, rfl, rfl, rfl, trip_open h hn, fun k => ⟨kept, few k⟩, fun k => absurd k h3⟩

/-! ### Retry, count, load and retirement clear (R279, R281, R522) -/

section
variable {s : State} {k : Fin 16}

/-- The enable returns at a retry. -/
def retried (s : State) (n : Nat) : State :=
  modField s (fun f => settleSwitches (modFieldOut f n (fun o => { o with heldOff := false, hot := false })))

theorem exec_overloadRetry (cool : Bool) (hh : (outRec s k.val).heldOff = true) (hr : (outRec s k.val).retired = false)
    (hc : commandedOn s.field k.val = true) : exec (.overloadRetry k cool) s =
    .next (if (outRec s k.val).tripAt + 100000000 ≤ s.field.nowNs ∧ ((outRec s k.val).hot = false ∨ cool = true) then retried s k.val else s) := by
  show execOverloadRetry k cool s = _
  unfold execOverloadRetry
  dsimp only
  rw [hh, hr, hc]
  simp only [Bool.not_false, Bool.true_and, Bool.and_eq_true, Bool.or_eq_true, Bool.not_eq_true', decide_eq_true_eq, ge_iff_le]
  rfl

theorem outBecomes_retried (s : State) (n : Nat) : OutBecomes n { outRec s n with heldOff := false, hot := false } s (retried s n) :=
  outBecomes_of (fun m => fieldOut_modFieldOut s.field n m (fun o => { o with heldOff := false, hot := false }))

theorem exec_tripCountReset (hr : (outRec s k.val).retired = false) : exec (.tripCountReset k) s =
    .next (if 10000000000 ≤ (outRec s k.val).energisedNs then modOut s k.val (fun o => { o with trips := 0 }) else s) := by
  show execTripCountReset k s = _
  unfold execTripCountReset
  dsimp only
  rw [hr]
  simp only [Bool.not_false, Bool.and_true, decide_eq_true_eq, ge_iff_le]

/-- The open wire is marked in the output's record, and its event raised. -/
def openWired (s : State) (n : Nat) : State :=
  fieldEvent (modOut s n (fun o => { o with loadOk := false, fault := .openWire })) 73 0x0407 n (outFaultCode .openWire)
    (outRec s n).current.toNat

theorem outBecomes_openWired (s : State) (n : Nat) :
    OutBecomes n { outRec s n with loadOk := false, fault := .openWire } s (openWired s n) :=
  outBecomes_then (outBecomes_modOut s n _) (congrArg Field.outputs (field_fieldEvent _ _ _ _ _ _))

section
variable (hf : fieldReady s.field = true) (hw : (outCfg s.field k.val).openWireEn = true) (he : energised s.field k.val = true)
  (hr : (outRec s k.val).retired = false)
include hf hw he hr

theorem exec_openWire : exec (.openWire k) s = .next (openWired s k.val) := by
  show execOpenWire k s = _
  unfold execOpenWire
  rw [if_pos (by rw [hf, hw, he, hr]; rfl)]
  rfl

theorem exec_loadOkReturn : exec (.loadOkReturn k) s = .next (modOut s k.val (fun o => { o with loadOk := true })) := by
  show execLoadOkReturn k s = _
  unfold execLoadOkReturn
  rw [if_pos (by rw [hf, hw, he, hr]; rfl)]

end

/-- The retirement of an output is cleared in its record and on the page. -/
def retireCleared (n : Nat) (s : State) : State :=
  modPages (modOut s n (fun o => { o with
    retired := false, awaitZero := true, zeroVoted := false, trips := 0, heldOff := false, fault := .none, partner := 0 })) [5]
    (fun x => { x with retiredOuts := sdel x.retiredOuts n })

/-- An authorised clear of a retired output (R281, R307). -/
theorem exec_outputRetireClear {a : Auth} (ha : authOk s a = true) (hr : (outRec s k.val).retired = true) : exec (.outputRetireClear k a) s =
    .next (retireCleared k.val (recordMaint (takeNonce s a) 3 k.val a)) := by
  have same := outRec_of (congrArg Field.outputs (field_of (accepted_only s a 3 k.val))) k.val
  show Host.Outcome.next (harnal s a 3 k.val _) = _
  rw [harnal_taken ha, same, if_pos hr]
  rfl

/-- The output waits for its bit to be 0, and the page holds no entry for it (R281). -/
theorem retireCleared_shows (n : Nat) (u : State) :
    OutBecomes n { outRec u n with
      retired := false, awaitZero := true, zeroVoted := false, trips := 0, heldOff := false, fault := .none, partner := 0 }
      u (retireCleared n u) ∧
    sget 0 (retireCleared n u).cellar.life.retiredOuts n = 0 ∧ outEnabled (retireCleared n u).field n = false ∧
    (retireCleared n u).cellar.life.nonceLast = u.cellar.life.nonceLast := by
  have becomes := outBecomes_then (u := retireCleared n u) (outBecomes_modOut u n (fun o => { o with
    retired := false, awaitZero := true, zeroVoted := false, trips := 0, heldOff := false, fault := .none, partner := 0 })) rfl
  have waits : (fieldOut (retireCleared n u).field n).awaitZero = true := congrArg OutRec.awaitZero becomes.1
  exact ⟨becomes, (sget_sdel 0 _ n n).trans (if_pos rfl),
    outEnabled_false (fun on => Bool.false_ne_true (on.zeroed.symm.trans waits)), rfl⟩

theorem outputRetireClear_clears {a : Auth} (ha : authOk s a = true) (hr : (outRec s k.val).retired = true) :
    ∃ t, exec (.outputRetireClear k a) s = .next t ∧ changesOnly (records ++ [.field, .lifetime]) s t ∧
      outRec t k.val = { outRec s k.val with
        retired := false, awaitZero := true, zeroVoted := false, trips := 0, heldOff := false, fault := .none, partner := 0 } ∧
      (∀ m, m ≠ k.val → outRec t m = outRec s m) ∧ sget 0 t.cellar.life.retiredOuts k.val = 0 ∧ outEnabled t.field k.val = false ∧
      t.cellar.life.nonceLast = a.nonce := by
  have run := exec_outputRetireClear ha hr
  have frame := frame_next run (chg_execOutputRetireClear k a s s (ps := records ++ [.field, .lifetime]) (by decide) (changesOnly_refl _ s))
  have same := outRec_of (congrArg Field.outputs (field_of (accepted_only s a 3 k.val)))
  have nonce := congrArg Lifetime.nonceLast (accepted_life s a 3 k.val)
  generalize recordMaint (takeNonce s a) 3 k.val a = u at run frame same nonce
  obtain ⟨⟨is, others⟩, page, waits, last⟩ := retireCleared_shows k.val u
  exact ⟨_, run, frame, is.trans (by rw [same]), fun m e => (others m e).trans (same m), page, waits, last.trans nonce⟩

end

/-! ### Field supplies (R282) -/

theorem vfWarn_iff (v : BitVec 16) : vfWarn v = true ↔ v.toNat < 1920 ∨ 3000 < v.toNat := by
  unfold vfWarn
  rw [Bool.or_eq_true, decide_eq_true_eq, decide_eq_true_eq]

/-- Neither below nor above the warning limits. -/
theorem vfWarn_false (v : BitVec 16) : vfWarn v = false ↔ 1920 ≤ v.toNat ∧ v.toNat ≤ 3000 := by
  rw [Bool.eq_false_iff, Ne, vfWarn_iff]
  omega

/-- What one measurement makes of a group (R282). -/
theorem measure_shows (v : BitVec 16) (g : GroupRec) :
    let h := Machine.measure v g
    h.vf = v ∧ (h.warn = true ↔ v.toNat < 1920 ∨ 3000 < v.toNat) ∧ h.latched = g.latched ∧ h.enabled = g.enabled ∧
    h.vfOff = (g.vfOff && (decide (v.toNat < 1680) || decide (3200 < v.toNat))) ∧
    h.bad = (if v.toNat < 1680 ∨ 3200 < v.toNat then min 100 (g.bad + 1) else 0) ∧
    h.good = (if 1920 ≤ v.toNat ∧ v.toNat ≤ 3000 then min 10000 (g.good + 1) else 0) ∧
    (g.latched = true → h.st = g.st) ∧ (g.latched = false → h.st = if v.toNat < 1920 ∨ 3000 < v.toNat then .warning else .normal) := by
  have bad : (Machine.measure v g).bad = (if v.toNat < 1680 ∨ 3200 < v.toNat then min 100 (g.bad + 1) else 0) := by
    simp only [Machine.measure, Bool.or_eq_true, decide_eq_true_eq, gt_iff_lt]
  have good : (Machine.measure v g).good = (if 1920 ≤ v.toNat ∧ v.toNat ≤ 3000 then min 10000 (g.good + 1) else 0) := by
    simp only [Machine.measure, ← vfWarn_false]
    cases vfWarn v <;> rfl
  refine ⟨rfl, vfWarn_iff v, rfl, rfl, rfl, bad, good, fun h => if_pos h, fun h => ?_⟩
  simp only [Machine.measure, h, ← vfWarn_iff, Bool.false_eq_true, if_false]

theorem groupRec_measured (f : Field) (v1 v2 : BitVec 16) (second : Bool) :
    groupRec { f with group1 := Machine.measure v1 f.group1, group2 := Machine.measure v2 f.group2 } second =
      Machine.measure (if second then v2 else v1) (groupRec f second) := by cases second <;> rfl

section
variable {s : State} {second : Bool}

theorem exec_vfMeasure (h : s.field.on = true) (v1 v2 : BitVec 16) : exec (.vfMeasure v1 v2) s =
    .next (modField s (fun f => { f with group1 := Machine.measure v1 f.group1, group2 := Machine.measure v2 f.group2 })) :=
  congrArg Host.Outcome.next (if_pos h)

/-- A group is latched off by its supply, with the record of it. -/
def vfLatched (s : State) (second : Bool) : State :=
  fieldEvent (modField s (fun f => modGroup (latchGroup second f) second (fun g => { g with vfOff := true }))) (69 + bit second) 0x0404
    (1 + bit second) 0 (groupRec s.field second).vf.toNat

theorem exec_vfLatch (h : s.field.on = true) : exec (.vfLatch second) s =
    .next (if 100 ≤ (groupRec s.field second).bad ∧ (groupRec s.field second).vfOff = false then vfLatched s second else s) := by
  show execVfLatch second s = _
  unfold execVfLatch
  rw [h]
  simp only [Bool.true_and, Bool.and_eq_true, Bool.not_eq_true', decide_eq_true_eq, ge_iff_le]
  rfl

theorem field_vfLatched (s : State) (second : Bool) : (vfLatched s second).field =
    modGroup (latchGroup second s.field) second (fun g => { g with vfOff := true }) := field_fieldEvent _ _ _ _ _ _

/-- The group is off with its outputs, and the other group as before (R263, R282). -/
theorem vfLatched_shows (s : State) (second : Bool) : (groupRec (vfLatched s second).field second).latched = true ∧
    (groupRec (vfLatched s second).field second).st = .latched ∧ (groupRec (vfLatched s second).field second).vfOff = true ∧
    groupRec (vfLatched s second).field (!second) = groupRec s.field (!second) ∧ groupValid (vfLatched s second).field second = false ∧
    ∀ m, m < 16 → decide (8 ≤ m) = second → outEnabled (vfLatched s second).field m = false := by
  have is : groupRec (vfLatched s second).field second = { groupLatched (groupRec s.field second) with vfOff := true } := by
    rw [field_vfLatched, groupRec_modGroup_self, groupRec_latchGroup_self]
  have other : groupRec (vfLatched s second).field (!second) = groupRec s.field (!second) := by
    rw [field_vfLatched, groupRec_modGroup_other, groupRec_latchGroup_other]
  have latched : (groupRec (vfLatched s second).field second).latched = true := by rw [is]; rfl
  have off : groupValid (vfLatched s second).field second = false := by
    unfold groupValid
    rw [is]
    exact Bool.and_false _
  exact ⟨latched, by rw [is]; rfl, by rw [is], other, off, fun m _ hm => outEnabled_of_latched latched hm⟩

theorem recoverGroup_waits (hg : (groupRec s.field second).good < 10000) : recoverGroup second s.field = s.field := by
  refine modGroup_same (if_neg ?_)
  rw [decide_eq_false (Nat.not_le.2 hg), Bool.and_false]
  exact Bool.false_ne_true

/-- A latched group whose supply has been in range for 100 ms recovers; its outputs await the re-enable (R282). -/
theorem recoverGroup_good (hl : (groupRec s.field second).latched = true) (hs : (groupRec s.field second).st = .latched)
    (hg : 10000 ≤ (groupRec s.field second).good) :
    groupRec (recoverGroup second s.field) second = { groupRec s.field second with st := .recovered } := by
  unfold recoverGroup
  rw [groupRec_modGroup_self, if_pos (by rw [hl, hs, decide_eq_true hg]; rfl)]

end

theorem exec_vfRecovered {s : State} (on : s.field.on = true) (hl : s.field.lost = false) (second : Bool) :
    exec (.vfRecovered second) s = .next (modField s (recoverGroup second)) :=
  congrArg Host.Outcome.next (if_pos (by rw [on, hl]; rfl))

/-! ### The statement -/

/-- Settles O44: each command changes one output's record, and the switches follow; a supply's command changes its own group. A group that has
recovered stays so, also through a warning, until it latches again (log entry 31). -/
theorem outputTripsAndSupplies : Obligations.OutputTripsAndSupplies := by
  intro s k
  refine ⟨fun c y hc => ?_, fun cool hh hr hc => ?_, fun hr => ?_, fun hf hw he hr => ?_, fun a => ⟨fun ha => ?_, outputRetireClear_clears⟩,
    fun v1 v2 on => ?_, fun second on => ?_, fun second on hl hlat hst => ?_⟩
  · obtain ⟨ma, hot, run, isHot⟩ := exec_tripCommand (s := s) hc
    refine ⟨fun no => run.trans (congrArg Host.Outcome.next (trip_none no)), fun can => ?_⟩
    obtain ⟨frame, others, held, trips, tripAt, energised, fault, hotIs, opens, few, many⟩ := trip_shows k.isLt can y ma hot
    exact ⟨_, run, frame, others, held, trips, tripAt, energised, fault, by rw [hotIs]; exact isHot, opens, few, many⟩
  · have run := exec_overloadRetry cool hh hr hc
    refine ⟨fun no => run.trans (congrArg Host.Outcome.next (if_neg ?_)), fun late ready => ?_⟩
    · rintro ⟨late, ready⟩
      obtain early | ⟨isHot, warm⟩ := no
      · exact absurd late (Nat.not_le.2 early)
      · rw [isHot, warm] at ready
        obtain h | h := ready <;> cases h
    · rw [if_pos ⟨late, ready⟩] at run
      exact ⟨_, run, chg_modField s _ (by decide) (changesOnly_refl _ s), outBecomes_retried s k.val⟩
  · have run := exec_tripCountReset hr
    refine ⟨fun long => ?_, fun short => run.trans (congrArg Host.Outcome.next (if_neg (Nat.not_le.2 short)))⟩
    rw [if_pos long] at run
    exact ⟨_, run, chg_modOut s k.val _ (by decide) (changesOnly_refl _ s), outBecomes_modOut s k.val _⟩
  · have run := exec_openWire hf hw he hr
    exact ⟨⟨_, run, frame_next run (chg_execOpenWire k s s (by decide) (changesOnly_refl _ s)), outBecomes_openWired s k.val⟩,
      _, exec_loadOkReturn hf hw he hr, chg_modOut s k.val _ (by decide) (changesOnly_refl _ s), outBecomes_modOut s k.val _⟩
  · exact congrArg Host.Outcome.next (harnal_refused ha _ _ _)
  · refine ⟨_, exec_vfMeasure on v1 v2, chg_modField s _ (by decide) (changesOnly_refl _ s), fun second => ?_⟩
    rw [field_modField, groupRec_measured]
    exact measure_shows _ _
  · have run := exec_vfLatch (second := second) on
    refine ⟨fun no => run.trans (congrArg Host.Outcome.next (if_neg ?_)), fun bad first => ?_⟩
    · rintro ⟨bad, first⟩
      obtain few | again := no
      · exact absurd bad (Nat.not_le.2 few)
      · rw [again] at first
        cases first
    · have frame := chg_execVfLatch second s s (ps := records ++ [.field]) (by decide) (changesOnly_refl _ s)
      rw [if_pos ⟨bad, first⟩] at run
      exact ⟨_, run, frame_next run frame, vfLatched_shows s second⟩
  · have run := exec_vfRecovered on hl second
    refine ⟨fun few => run.trans (congrArg Host.Outcome.next (congrArg (fun f => { s with field := f }) (recoverGroup_waits few))),
      fun long => ⟨_, run, chg_modField s _ (by decide) (changesOnly_refl _ s), recoverGroup_good hlat hst long, ?_⟩⟩
    exact groupRec_modGroup_other _ _ _

end Sys2Proof.Laws

/-! ## The tests of outputs, and the classification of a high terminal (R275 to R278, R280) -/

namespace Sys2Proof.Laws

open Sys2Proof Sys2Proof.Machine Sys2Proof.Safety

/-! ### When a test starts (R277) -/

/-- A test of output n may start now: 20 µs into a free window, with no lower output due. -/
def testFree (s : State) (n : Nat) : Prop :=
  testWindow s.field = true ∧ sinceTick0 s % 50 = 2 ∧ s.field.usedWindow ≠ some (windowNow s) ∧
    ∀ m, m < n → offDue s.field m = false ∧ onDue s.field m = false

theorem firstDue_iff (f : Field) (n : Nat) : firstDue f n = true ↔ ∀ m, m < n → offDue f m = false ∧ onDue f m = false := by
  unfold firstDue
  simp only [List.all_eq_true, List.mem_range, Bool.and_eq_true, Bool.not_eq_true']

/-- The guard of the two commands: the window is free, and the output is due. -/
theorem testStarts_iff (s : State) (n : Nat) (due : Bool) :
    (windowFree s && due && firstDue s.field n) = true ↔ testFree s n ∧ due = true := by
  unfold windowFree testFree
  rw [Bool.and_eq_true, firstDue_iff]
  simp only [Bool.and_eq_true, decide_eq_true_eq]
  tauto

theorem offDue_iff (f : Field) (n : Nat) : offDue f n = true ↔ outEnabled f n = true ∧ commandedOn f n = true ∧ energised f n = true ∧
    (((outCfg f n).offTest = true ∧ (fieldOut f n).offIn ≠ some (periodIndex f (outCfg f n).offPeriod)) ∨ wantedByClass f n = true) := by
  unfold offDue
  simp only [Bool.and_eq_true, Bool.or_eq_true, decide_eq_true_eq, and_assoc]

theorem onDue_iff (f : Field) (n : Nat) : onDue f n = true ↔ fieldReady f = true ∧ f.fault = none ∧ f.lost = false ∧
    (outCfg f n).onTest = true ∧ commandedOn f n = false ∧ (fieldOut f n).retired = false ∧
    (groupRec f (decide (8 ≤ n))).latched = false ∧
    ((fieldOut f n).onIn ≠ some (periodIndex f (outCfg f n).onPeriod) ∨ (fieldOut f n).testDue = true) := by
  unfold onDue
  simp only [Bool.and_eq_true, Bool.or_eq_true, Bool.not_eq_true', Option.isNone_iff_eq_none, decide_eq_true_eq, and_assoc]

section
variable {s : State} {k : Fin 16}

/-- An output's record in an OFF-test, and in an ON-test, that starts in the period given. -/
def offTesting (period : Nat) (o : OutRec) : OutRec := { o with test := .off, testDue := false, offIn := some period }
def onTesting (period : Nat) (o : OutRec) : OutRec := { o with test := .on, testDue := false, onIn := some period }

/-- The OFF-test of an output runs: its enable is removed. -/
def offStarted (s : State) (n : Nat) : State :=
  { s with field := settleSwitches (modFieldOut { s.field with usedWindow := some (windowNow s) } n
      (offTesting (periodIndex s.field (outCfg s.field n).offPeriod))) }

/-- The ON-test of an output runs. -/
def onStarted (s : State) (n : Nat) : State :=
  { s with field := (modFieldOut { s.field with usedWindow := some (windowNow s) } n
      (onTesting (periodIndex s.field (outCfg s.field n).onPeriod))) }

theorem exec_offTest_starts (hf : testFree s k.val) (hd : offDue s.field k.val = true) : exec (.offTest k) s = .next (offStarted s k.val) :=
  congrArg Host.Outcome.next (if_pos ((testStarts_iff s k.val _).2 ⟨hf, hd⟩))

theorem exec_offTest_stays (h : ¬ (testFree s k.val ∧ offDue s.field k.val = true)) : exec (.offTest k) s = .next s :=
  congrArg Host.Outcome.next (if_neg (fun g => h ((testStarts_iff s k.val _).1 g)))

theorem exec_onTest_starts (hf : testFree s k.val) (hd : onDue s.field k.val = true) : exec (.onTest k) s = .next (onStarted s k.val) :=
  congrArg Host.Outcome.next (if_pos ((testStarts_iff s k.val _).2 ⟨hf, hd⟩))

theorem exec_onTest_stays (h : ¬ (testFree s k.val ∧ onDue s.field k.val = true)) : exec (.onTest k) s = .next s :=
  congrArg Host.Outcome.next (if_neg (fun g => h ((testStarts_iff s k.val _).1 g)))

/-- The enable of the output is removed, and its six switches open (R275). -/
theorem offStarted_shows (s : State) {n : Nat} (hn : n < 16) : (offStarted s n).field.usedWindow = some (windowNow s) ∧
    OutBecomes n (offTesting (periodIndex s.field (outCfg s.field n).offPeriod) (outRec s n)) s (offStarted s n) ∧
    ∀ l, ((offStarted s n).field.closed.get l).getLsbD n = false ∧ ((offStarted s n).field.closed.get l).getLsbD (16 + n) = false := by
  refine ⟨rfl, outBecomes_of (fun m => fieldOut_modFieldOut { s.field with usedWindow := some (windowNow s) } n m _), ?_⟩
  refine settled_open hn (outEnabled_false (fun on => on.test ?_))
  rw [fieldOut_modFieldOut, if_pos rfl]
  rfl

theorem outBecomes_onStarted (s : State) (n : Nat) :
    OutBecomes n (onTesting (periodIndex s.field (outCfg s.field n).onPeriod) (outRec s n)) s (onStarted s n) :=
  outBecomes_of (fun m => fieldOut_modFieldOut { s.field with usedWindow := some (windowNow s) } n m _)

end

/-! ### Cross-connected outputs (R280) -/

theorem outRec_crossConnect (s : State) {a b : Nat} (h : b ≠ a) (k : Nat) : outRec (crossConnect s a b) k =
    if k = b then condemned .crossConnect a (outRec s b) else if k = a then condemned .crossConnect b (outRec s a) else outRec s k := by
  unfold crossConnect
  rw [outRec_retireOut, outRec_retireOut, outRec_retireOut, if_neg h]

/-- From s to t the outputs a and b have been found cross-connected: both are retired, each with the other as its partner, and the others
are as before. -/
structure CrossConnected (s : State) (a b : Nat) (t : State) : Prop where
  retired : (outRec t a).retired = true
  fault : (outRec t a).fault = .crossConnect
  partner : (outRec t a).partner = BitVec.ofNat 4 b
  otherRetired : (outRec t b).retired = true
  otherFault : (outRec t b).fault = .crossConnect
  otherPartner : (outRec t b).partner = BitVec.ofNat 4 a
  others : ∀ m, m ≠ a → m ≠ b → outRec t m = outRec s m

theorem crossConnect_first (s : State) {a b : Nat} (h : b ≠ a) :
    outRec (crossConnect s a b) a = condemned .crossConnect b (outRec s a) := by
  rw [outRec_crossConnect s h, if_neg h.symm, if_pos rfl]

theorem crossConnect_connects (s : State) {a b : Nat} (h : b ≠ a) : CrossConnected s a b (crossConnect s a b) := by
  have first := crossConnect_first s h
  have second : outRec (crossConnect s a b) b = condemned .crossConnect a (outRec s b) := by rw [outRec_crossConnect s h, if_pos rfl]
  constructor
  · rw [first]; exact retired_condemned _ _ _
  · rw [first]; exact fault_condemned _ _ _
  · rw [first]; exact partner_condemned _ _ _
  · rw [second]; exact retired_condemned _ _ _
  · rw [second]; exact fault_condemned _ _ _
  · rw [second]; exact partner_condemned _ _ _
  · intro m ha hb
    rw [outRec_crossConnect s h, if_neg hb, if_neg ha]

theorem crossConnected_settled {s t : State} {a b : Nat} (h : CrossConnected s a b t) : CrossConnected s a b (modField t settleSwitches) :=
  ⟨h.retired, h.fault, h.partner, h.otherRetired, h.otherFault, h.otherPartner, h.others⟩

/-- The first of the outputs other than n is another output. -/
theorem ne_of_others {n b : Nat} {bs xs : List Nat} (h : xs.filter (fun b => decide (b ≠ n)) = b :: bs) : b ≠ n := by
  have mem : b ∈ xs.filter (fun b => decide (b ≠ n)) := by rw [h]; exact List.mem_cons_self
  exact of_decide_eq_true (List.mem_filter.1 mem).2

/-! ### The end of an OFF-test (R275, R280) -/

/-- An OFF-test has ended with a result. -/
def offEnded (s : State) (n : Nat) (pass : Bool) : State := modOut s n (fun o => { o with test := .none, offPassed := pass })

theorem outBecomes_offEnded (s : State) (n : Nat) (pass : Bool) :
    OutBecomes n { outRec s n with test := .none, offPassed := pass } s (offEnded s n pass) :=
  outBecomes_modOut s n (fun o => { o with test := .none, offPassed := pass })

/-- No output is in classification. -/
def noneTried (s : State) : Prop := ∀ a, (outRec s a).toTry = none

theorem classify_noneTried {s : State} (h : noneTried s) (b : Nat) (fell : BitVec 16) :
    foldS (List.range 16) (classifyStep b fell) s = s := by
  refine List.foldl_fixed' (fun a => ?_) _
  unfold classifyStep
  rw [h a]

theorem noneTried_offEnded {s : State} (h : noneTried s) (n : Nat) (pass : Bool) : noneTried (offEnded s n pass) := fun a => by
  unfold offEnded
  rw [outRec_modOut]
  split
  · exact h n
  · exact h a

theorem noneTried_retireOut {s : State} (h : noneTried s) (n : Nat) (c : OutFault) (p : Nat) : noneTried (retireOut s n c p) := fun a => by
  rw [outRec_retireOut]
  split
  · unfold condemned
    split
    · exact h n
    · rfl
  · exact h a

theorem noneTried_failedOff {s : State} (h : noneTried s) (n : Nat) (risen : BitVec 16) : noneTried (failedOff s n risen) := by
  unfold failedOff
  split
  · exact noneTried_retireOut (noneTried_retireOut h _ _ _) _ _ _
  · exact noneTried_retireOut h _ _ _

section
variable {s : State} {k : Fin 16} (ht : (outRec s k.val).test = .off) (h : noneTried s) {fell : BitVec 16} (risen : BitVec 16)
include ht h

theorem exec_offTestEnd_pass (hp : fell.getLsbD k.val = true) :
    exec (.offTestEnd k fell risen) s = .next (modField (offEnded s k.val true) settleSwitches) := by
  show execOffTestEnd k fell risen s = _
  unfold execOffTestEnd
  rw [if_pos ht, hp]
  exact congrArg (fun u => Host.Outcome.next (modField u settleSwitches)) (classify_noneTried (noneTried_offEnded h k.val true) _ _)

theorem exec_offTestEnd_fail (hp : fell.getLsbD k.val = false) :
    exec (.offTestEnd k fell risen) s = .next (modField (failedOff (offEnded s k.val false) k.val risen) settleSwitches) := by
  show execOffTestEnd k fell risen s = _
  unfold execOffTestEnd
  rw [if_pos ht, hp]
  exact congrArg (fun u => Host.Outcome.next (modField u settleSwitches))
    (classify_noneTried (noneTried_failedOff (noneTried_offEnded h k.val false) _ _) _ _)

end

/-- A failed OFF-test: stuck high where no current rose, and otherwise cross-connected with the lowest output whose current did (R280). -/
theorem failedOff_shows (s : State) (n : Nat) (risen : BitVec 16) :
    (outRec (failedOff s n risen) n).retired = true ∧ (outRec (failedOff s n risen) n).offPassed = (outRec s n).offPassed ∧
    ((bitsOf risen).filter (fun b => decide (b ≠ n)) = [] →
      (outRec (failedOff s n risen) n).fault = .stuckHigh ∧ ∀ m, m ≠ n → outRec (failedOff s n risen) m = outRec s m) ∧
    ∀ b bs, (bitsOf risen).filter (fun b => decide (b ≠ n)) = b :: bs → CrossConnected s n b (failedOff s n risen) := by
  unfold failedOff
  split
  · next b bs hb =>
    obtain ⟨-, -, -, -, -, passed⟩ := condemned_keeps .crossConnect b (outRec s n)
    have connected := crossConnect_connects s (ne_of_others hb)
    refine ⟨connected.retired, (congrArg OutRec.offPassed (crossConnect_first s (ne_of_others hb))).trans passed,
      fun no => ?_, fun c cs e => ?_⟩
    · rw [hb] at no
      cases no
    · rw [hb] at e
      cases e
      exact connected
  · next hb =>
    obtain ⟨is, others⟩ := outBecomes_retireOut s n .stuckHigh 0
    obtain ⟨-, -, -, -, -, passed⟩ := condemned_keeps .stuckHigh 0 (outRec s n)
    rw [is]
    refine ⟨retired_condemned _ _ _, passed, fun _ => ⟨fault_condemned _ _ _, others⟩, fun b bs no => ?_⟩
    rw [hb] at no
    cases no

/-- The whole of an OFF-test that has failed (R275, R280). -/
theorem offFailed_shows (s : State) (n : Nat) (risen : BitVec 16) :
    let t := modField (failedOff (offEnded s n false) n risen) settleSwitches
    (outRec t n).retired = true ∧ (outRec t n).offPassed = false ∧
    ((bitsOf risen).filter (fun b => decide (b ≠ n)) = [] → (outRec t n).fault = .stuckHigh ∧ ∀ m, m ≠ n → outRec t m = outRec s m) ∧
    ∀ b bs, (bitsOf risen).filter (fun b => decide (b ≠ n)) = b :: bs → (outRec t n).fault = .crossConnect ∧
      (outRec t n).partner = BitVec.ofNat 4 b ∧ (outRec t b).retired = true ∧ (outRec t b).fault = .crossConnect ∧
      (outRec t b).partner = BitVec.ofNat 4 n ∧ ∀ m, m ≠ n → m ≠ b → outRec t m = outRec s m := by
  simp only [outRec_settled]
  obtain ⟨ended, same⟩ := outBecomes_offEnded s n false
  obtain ⟨retired, passed, stuck, cross⟩ := failedOff_shows (offEnded s n false) n risen
  refine ⟨retired, passed.trans (congrArg OutRec.offPassed ended), fun alone => ?_, fun b bs hb => ?_⟩
  · obtain ⟨fault, others⟩ := stuck alone
    exact ⟨fault, fun m e => (others m e).trans (same m e)⟩
  · have found := cross b bs hb
    exact ⟨found.fault, found.partner, found.otherRetired, found.otherFault, found.otherPartner, fun m h1 h2 => (found.others m h1 h2).trans (same m h1)⟩

/-! ### The end of an ON-test (R276, R280) -/

theorem onTestOk_iff (driven back : Nat) : onTestOk driven back = true ↔ 10 ≤ back ∧ back * 10 ≤ driven * 11 ∧ driven * 9 ≤ back * 10 := by
  unfold onTestOk
  simp only [Bool.and_eq_true, decide_eq_true_eq, ge_iff_le, and_assoc]

/-- An ON-test has passed. -/
def onTestPassed (s : State) (n : Nat) : State := modOut s n (fun o => { o with test := .none, onPassed := true, loadOk := true })

/-- An ON-test has failed, with the record of it. -/
def onTestFailed (s : State) (n back : Nat) : State :=
  fieldEvent (modOut s n (fun o => { o with test := .none, onPassed := false, loadOk := false, fault := .onTestFail })) 73 0x0407 n
    (outFaultCode .onTestFail) back

theorem chg_onTestFailed (s : State) (n back : Nat) : changesOnly (records ++ [.field]) s (onTestFailed s n back) :=
  chg_fieldEvent _ _ _ _ _ _ (by decide) (chg_modOut s n _ (by decide) (changesOnly_refl _ s))

theorem outBecomes_onTestFailed (s : State) (n back : Nat) :
    OutBecomes n { outRec s n with test := .none, onPassed := false, loadOk := false, fault := .onTestFail } s (onTestFailed s n back) :=
  outBecomes_then (outBecomes_modOut s n _) (congrArg Field.outputs (field_fieldEvent _ _ _ _ _ _))

section
variable {s : State} {k : Fin 16} (ht : (outRec s k.val).test = .on) {driven back : Nat} {others : BitVec 16}
include ht

theorem exec_onTestEnd_pass (ho : onTestOk driven back = true) (hb : (bitsOf others).filter (fun b => decide (b ≠ k.val)) = []) :
    exec (.onTestEnd k driven back others) s = .next (onTestPassed s k.val) := by
  show execOnTestEnd k driven back others s = _
  unfold execOnTestEnd
  rw [if_pos ht, ho, hb]
  rfl

theorem exec_onTestEnd_fail (ho : onTestOk driven back = false) (hb : (bitsOf others).filter (fun b => decide (b ≠ k.val)) = []) :
    exec (.onTestEnd k driven back others) s = .next (onTestFailed s k.val back) := by
  show execOnTestEnd k driven back others s = _
  unfold execOnTestEnd
  rw [if_pos ht, ho, hb]
  rfl

theorem exec_onTestEnd_cross {b : Nat} {bs : List Nat} (hb : (bitsOf others).filter (fun b => decide (b ≠ k.val)) = b :: bs) :
    exec (.onTestEnd k driven back others) s = .next (modField (crossConnect (onTestFailed s k.val back) k.val b) settleSwitches) := by
  show execOnTestEnd k driven back others s = _
  unfold execOnTestEnd
  rw [if_pos ht, hb]
  dsimp only
  rw [if_neg (by rw [List.isEmpty_cons, Bool.and_false]; exact Bool.false_ne_true)]
  rfl

end

/-! ### A terminal that is high with its output off (R280) -/

theorem getLsbD_stillToTry_fresh {f : Field} {n b : Nat} (h : (fieldOut f n).toTry = none) (hb : b < 16) :
    (stillToTry f n).getLsbD b = energised f b := by
  unfold stillToTry
  rw [h]
  exact (getLsbD_bitsFrom 16 _ b).trans (by rw [decide_eq_true hb, Bool.true_and])

theorem getLsbD_stillToTry_going {f : Field} {n b : Nat} {m : BitVec 16} (h : (fieldOut f n).toTry = some m) (hb : b < 16) :
    (stillToTry f n).getLsbD b = (energised f b && m.getLsbD b) := by
  unfold stillToTry
  rw [h]
  exact (getLsbD_bitsFrom 16 _ b).trans (by rw [decide_eq_true hb, Bool.true_and, Bool.and_comm])

theorem exec_terminalHighOff {s : State} {k : Fin 16} (hf : fieldReady s.field = true) (he : energised s.field k.val = false)
    (hc : commandedOn s.field k.val = false) (ht : (outRec s k.val).test = .none) (hr : (outRec s k.val).retired = false) :
    exec (.terminalHighOff k) s = .next (if stillToTry s.field k.val = 0 then retireOut s k.val .stuckHigh 0
      else modOut s k.val (fun o => { o with toTry := some (stillToTry s.field k.val) })) := by
  have test : (fieldOut s.field k.val).test = .none := ht
  have kept : (fieldOut s.field k.val).retired = false := hr
  show execTerminalHighOff k s = _
  unfold execTerminalHighOff
  dsimp only
  rw [if_pos (by rw [hf, he, hc, test, kept]; rfl)]

/-! ### The statement -/

/-- Settles O43: a test starts and ends in one output's record, and a failed one retires the output, with its partner where it has one. Of
several risen outputs the lowest-numbered is the partner (log entry 31); when a test falls due in its period is log entry 68. -/
theorem outputTests : Obligations.OutputTests := by
  intro s k
  refine ⟨fun free he hc hen hd => ?_, fun no => ⟨exec_offTest_stays (fun h => no h.1), exec_onTest_stays (fun h => no h.1)⟩,
    fun no => exec_offTest_stays (fun h => ?_), fun ht hn fell risen => ⟨fun hp => ?_, fun hp hr => ?_⟩,
    fun free hf hfault hl hon hc hr hg hd => ?_, fun h1 h2 => exec_onTest_stays (fun h => ?_),
    fun ht driven back others => ⟨fun h1 h2 h3 hb => ?_, fun h hb => ?_, fun b bs hb hr => ?_⟩, fun hf he hc ht hr => ?_⟩
  · have run := exec_offTest_starts free ((offDue_iff s.field k.val).2 ⟨he, hc, hen, hd⟩)
    obtain ⟨window, ⟨is, others⟩, opens⟩ := offStarted_shows s k.isLt
    exact ⟨_, run, frame_next run (chg_execOffTest k s s (by decide) (changesOnly_refl _ s)), window, is, others, opens⟩
  · obtain ⟨on, -, -, due⟩ := (offDue_iff s.field k.val).1 h.2
    obtain off | ⟨tested, unwanted⟩ := no
    · rw [off] at on
      cases on
    · obtain ⟨-, fresh⟩ | wanted := due
      · exact fresh tested
      · rw [unwanted] at wanted
        cases wanted
  · exact ⟨_, exec_offTestEnd_pass ht hn risen hp, chg_modField _ _ (by decide) (chg_modOut s k.val _ (by decide) (changesOnly_refl _ s)),
      outBecomes_settled (outBecomes_offEnded s k.val true)⟩
  · have run := exec_offTestEnd_fail ht hn risen hp
    have frame := chg_execOffTestEnd k fell risen s s (ps := records ++ [.field, .lifetime]) (by decide) (changesOnly_refl _ s)
    exact ⟨_, run, frame_next run frame, offFailed_shows s k.val risen⟩
  · have run := exec_onTest_starts free ((onDue_iff s.field k.val).2 ⟨hf, hfault, hl, hon, hc, hr, hg, hd⟩)
    exact ⟨_, run, frame_next run (chg_execOnTest k s s (by decide) (changesOnly_refl _ s)), rfl, outBecomes_onStarted s k.val⟩
  · obtain ⟨-, -, -, -, -, -, -, fresh | again⟩ := (onDue_iff s.field k.val).1 h.2
    · exact fresh h1
    · exact Bool.false_ne_true (h2.symm.trans again)
  · exact ⟨_, exec_onTestEnd_pass ht ((onTestOk_iff driven back).2 ⟨h1, h2, h3⟩) hb,
      chg_modOut s k.val _ (by decide) (changesOnly_refl _ s), outBecomes_modOut s k.val _⟩
  · have bad : onTestOk driven back = false := by
      rw [Bool.eq_false_iff, Ne, onTestOk_iff]
      omega
    exact ⟨_, exec_onTestEnd_fail ht bad hb, chg_onTestFailed s k.val back, outBecomes_onTestFailed s k.val back⟩
  · have run := exec_onTestEnd_cross (driven := driven) (back := back) ht hb
    have found := crossConnected_settled (crossConnect_connects (onTestFailed s k.val back) (ne_of_others hb))
    exact ⟨_, run, frame_next run (chg_execOnTestEnd k driven back others s s (by decide) (changesOnly_refl _ s)), found.retired, found.fault,
      found.partner, found.otherRetired⟩
  · have run := exec_terminalHighOff hf he hc ht hr
    refine ⟨fun b hb => ?_, fun empty => ?_, fun more => ?_⟩
    · cases h : (outRec s k.val).toTry with
      | none => exact (getLsbD_stillToTry_fresh h hb).trans (Bool.and_true _).symm
      | some m => exact getLsbD_stillToTry_going h hb
    · rw [if_pos empty] at run
      obtain ⟨is, others⟩ := outBecomes_retireOut s k.val .stuckHigh 0
      exact ⟨_, run, chg_retireOut s k.val _ _ (by decide) (changesOnly_refl _ s), (congrArg OutRec.retired is).trans (retired_condemned _ _ _),
        (congrArg OutRec.fault is).trans (fault_condemned _ _ _), others⟩
    · rw [if_neg more] at run
      exact ⟨_, run, chg_modOut s k.val _ (by decide) (changesOnly_refl _ s), outBecomes_modOut s k.val _⟩

end Sys2Proof.Laws

/-! ## Losses of the crossing, stops of the field die, and the field fault (R262 to R264, R271, R287, R495, R517) -/

namespace Sys2Proof.Laws

open Sys2Proof Sys2Proof.Machine Sys2Proof.Safety

/-! ### A stream of the field die is lost (R263) -/

/-- The field die once a stream is all-open and without its reference. -/
def streamSilent (f : Field) (l : Lane) : Field :=
  settleSwitches (eachOut (openingChange f) (modStream f l (fun x => { x with ref := none, lost := true, drive := 0 })))

/-- The stream is lost with its event, and the crossing with it where two are bad. -/
def streamLost (s : State) (l : Lane) : State :=
  crossingLoss (fieldEvent { s with field := streamSilent s.field l } 64 0x0400 l.num 0 0)

theorem exec_fieldStreamLost {s : State} {l : Lane} (on : s.field.on = true) (up : s.field.up = true) (run : s.field.stopped = false)
    (held : (s.field.streams.get l).lost = false) : exec (.fieldStreamLost l) s =
    .next (if (s.field.streams.get l).silent ≥ crossTimeout s.field.config then streamLost s l else s) := by
  show execFieldStreamLost l s = _
  unfold execFieldStreamLost
  dsimp only
  rw [on, up, run, held]
  simp only [Bool.not_false, Bool.true_and, decide_eq_true_eq]
  rfl

/-- An event and the judgement of the crossing after it leave the streams (R263). -/
theorem crossing_lossAfter (u : State) (src code a b v : Nat) : CrossingSame u.field (crossingLoss (fieldEvent u src code a b v)).field := by
  have same := crossing_crossingLoss (fieldEvent u src code a b v)
  rwa [field_fieldEvent] at same

/-- Of the streams, the one that is lost has changed. -/
theorem streams_streamLost (s : State) (l : Lane) : (streamLost s l).field.streams =
    s.field.streams.set l { s.field.streams.get l with ref := none, lost := true, drive := 0 } := by
  have settled : CrossingSame (modStream s.field l (fun x => { x with ref := none, lost := true, drive := 0 })) (streamSilent s.field l) :=
    crossing_trans (crossing_eachOut (crossing_openingChange s.field) _) (crossing_settle _)
  have judged : CrossingSame (streamSilent s.field l) (streamLost s l).field :=
    crossing_lossAfter { s with field := streamSilent s.field l } 64 0x0400 l.num 0 0
  exact (crossing_trans settled judged).streams

/-! ### A lane's view of the crossing (R263) -/

section
variable {s : State} {l : Lane}

theorem exec_localLost (ht : s.mod.ticking = true) (hr : runs s l = true) (hl : (lane s l).fld.lost = false)
    (hs : (lane s l).fld.silent ≥ crossTimeout ((laneVintage s l).map (fun v => v.localIo))) : exec (.localLost l) s =
    .next (modLane s l (fun L => { L with fld := { L.fld with lost := true, goodFor := 0, ref := none, sample := none } })) :=
  congrArg Host.Outcome.next (if_pos (by rw [ht, hr, hl]; exact decide_eq_true hs))

theorem exec_localRecovered (hr : runs s l = true) (hl : (lane s l).fld.lost = true) : exec (.localRecovered l) s =
    .next (if (lane s l).fld.goodFor ≥ 10000 then modLane s l (fun L => { L with fld := { L.fld with lost := false } }) else s) := by
  show execLocalRecovered l s = _
  unfold execLocalRecovered
  rw [hr, hl]
  simp only [Bool.true_and, decide_eq_true_eq]

end

/-! ### The crossing recovers (R263, R282) -/

theorem latched_recoverGroup (second third : Bool) (f : Field) :
    (groupRec (recoverGroup second f) third).latched = (groupRec f third).latched := by
  unfold recoverGroup
  obtain rfl | rfl := Bool.eq_or_eq_not third second
  · rw [groupRec_modGroup_self]
    split
    · rfl
    · rfl
  · rw [groupRec_modGroup_other]

/-- The crossing is good again; a group whose supply has come back meanwhile recovers. -/
def crossingBack (f : Field) : Field := recoverGroup true (recoverGroup false { f with lost := false })

theorem exec_crossingRecovered {s : State} (hl : s.field.lost = true) : exec .crossingRecovered s =
    .next (if s.field.goodFor ≥ 10000 then modField s crossingBack else s) := by
  show execCrossingRecovered s = _
  unfold execCrossingRecovered
  rw [hl]
  simp only [Bool.true_and, decide_eq_true_eq]
  rfl

/-- Neither the latches of the groups nor the streams change when the crossing recovers. -/
theorem crossingBack_shows (f : Field) : (crossingBack f).lost = false ∧ (crossingBack f).streams = f.streams ∧
    (crossingBack f).group1.latched = f.group1.latched ∧ (crossingBack f).group2.latched = f.group2.latched := by
  have kept : ∀ second, (groupRec (crossingBack f) second).latched = (groupRec f second).latched := fun second =>
    (latched_recoverGroup true second _).trans (latched_recoverGroup false second _)
  exact ⟨rfl, rfl, kept false, kept true⟩

/-! ### Stops of the module and of the field die (R495, R517) -/

/-- An output's test is discarded, and what it knew of its load and of a classification is gone. -/
def stopOutput (f : Field) (n : Nat) : Field := modFieldOut (discardTest f n) n (fun o => { o with loadOk := false, toTry := none })

theorem outputsOnly_stopOutput (f : Field) (n : Nat) : OutputsOnly f (stopOutput f n) :=
  outputsOnly_trans (outputsOnly_discardTest f n) (outputsOnly_modFieldOut _ n _)

theorem retired_stopOutput (f : Field) (n m : Nat) : (fieldOut (stopOutput f n) m).retired = (fieldOut f m).retired := by
  unfold stopOutput
  rw [fieldOut_modFieldOut, fieldOut_discardTest, fieldOut_discardTest]
  split
  · next e => rw [e, if_pos rfl]; rfl
  · rfl

theorem retired_loseTrips (f : Field) (n m : Nat) : (fieldOut (loseTrips f n) m).retired = (fieldOut f m).retired := by
  unfold loseTrips
  rw [fieldOut_modFieldOut]
  split
  · next e => rw [e]
  · rfl

/-- What a stop of either kind leaves of the field die. -/
theorem unconfigure_shows (f : Field) : (unconfigure f).config = none ∧ (unconfigure f).tickRun = 0 ∧
    (unconfigure f).closed = PerLane.all 0 ∧ (unconfigure f).fault = f.fault ∧ (unconfigure f).group1 = groupStopped f f.group1 ∧
    (unconfigure f).group2 = groupStopped f f.group2 ∧
    ∀ l, ((unconfigure f).streams.get l).drive = 0 ∧ ((unconfigure f).streams.get l).lost = true := by
  have only : OutputsOnly f (eachOut stopOutput f) := outputsOnly_eachOut outputsOnly_stopOutput f
  unfold unconfigure
  dsimp only
  refine ⟨rfl, rfl, rfl, fault_outputsOnly only, congrArg (groupStopped f) (groupRec_outputsOnly only false),
    congrArg (groupStopped f) (groupRec_outputsOnly only true), fun l => ?_⟩
  rw [get_map]
  exact ⟨rfl, rfl⟩

theorem outputs_unconfigure (f : Field) : (unconfigure f).outputs = (eachOut stopOutput f).outputs := by
  unfold unconfigure
  dsimp only
  rfl

theorem fieldOut_of {f g : Field} (h : g.outputs = f.outputs) (n : Nat) : fieldOut g n = fieldOut f n :=
  congrArg (fun m => sget OutRec.reset m n) h

theorem retired_unconfigure (f : Field) (m : Nat) : (fieldOut (unconfigure f) m).retired = (fieldOut f m).retired := by
  rw [fieldOut_of (outputs_unconfigure f)]
  exact fieldOut_eachOut OutRec.retired retired_stopOutput f m

/-- Only a standing field fault keeps a group latched over a stop (log entry 79). -/
theorem latched_groupStopped {f : Field} (h : f.fault = none) (g : GroupRec) : (groupStopped f g).latched = false := by
  unfold groupStopped
  rw [h]
  rfl

/-- The field die once the module has stopped. -/
def moduleStopped (f : Field) : Field := { unconfigure f with stopped := true, downErr := 0 }

theorem exec_moduleStop {s : State} (on : s.field.on = true) (up : s.field.up = true) (run : s.field.stopped = false)
    (h : streamsStopped s.field = true) : exec .moduleStop s = .next (modField s moduleStopped) :=
  congrArg Host.Outcome.next (if_pos (by rw [on, up, run, h]; rfl))

theorem moduleStopped_shows (f : Field) : (moduleStopped f).stopped = true ∧ (moduleStopped f).config = none ∧
    (moduleStopped f).tickRun = 0 ∧ (moduleStopped f).closed = PerLane.all 0 ∧ (moduleStopped f).fault = f.fault ∧
    (moduleStopped f).downErr = 0 ∧
    (f.fault = none → (moduleStopped f).group1.latched = false ∧ (moduleStopped f).group2.latched = false) ∧
    ∀ l, ((moduleStopped f).streams.get l).drive = 0 ∧ ((moduleStopped f).streams.get l).lost = true := by
  obtain ⟨config, tickRun, closed, fault, group1, group2, streams⟩ := unconfigure_shows f
  unfold moduleStopped
  generalize unconfigure f = g at config tickRun closed fault group1 group2 streams
  refine ⟨rfl, config, tickRun, closed, fault, rfl, fun clear => ?_, streams⟩
  dsimp only
  rw [group1, group2]
  exact ⟨latched_groupStopped clear _, latched_groupStopped clear _⟩

/-- The field die once it has stopped: its outputs keep their retirements alone (R281, R495). -/
def dieStopped (f : Field) : Field :=
  { eachOut loseTrips (unconfigure f) with
    on := false, stopped := false, down := PerLane.all none, inputs := [], sources := [], counters := []
    readback := PerLane.all 0, termHigh := 0, termLow := 0, group1 := GroupRec.reset, group2 := GroupRec.reset }

theorem exec_fieldDieStop {s : State} (on : s.field.on = true) :
    exec .fieldDieStop s = .next (modField (dropInFlight (retakeCounts s)) dieStopped) := congrArg Host.Outcome.next (if_pos on)

theorem field_dieStop (s : State) : (modField (dropInFlight (retakeCounts s)) dieStopped).field = dieStopped s.field := rfl

theorem dieStopped_shows (f : Field) : (dieStopped f).on = false ∧ (dieStopped f).config = none ∧ (dieStopped f).closed = PerLane.all 0 ∧
    (dieStopped f).inputs = [] ∧ (dieStopped f).counters = [] ∧ (dieStopped f).fault = f.fault ∧
    ∀ n, (fieldOut (dieStopped f) n).retired = (fieldOut f n).retired := by
  obtain ⟨config, -, closed, fault, -⟩ := unconfigure_shows f
  have only : OutputsOnly (unconfigure f) (eachOut loseTrips (unconfigure f)) :=
    outputsOnly_eachOut (fun g n => outputsOnly_modFieldOut g n _) _
  have retired := fun n => (fieldOut_eachOut OutRec.retired retired_loseTrips (unconfigure f) n).trans (retired_unconfigure f n)
  unfold dieStopped
  generalize unconfigure f = g at config closed fault only retired
  generalize eachOut loseTrips g = h at only retired
  exact ⟨rfl, (congrArg Field.config only).trans config, (congrArg Field.closed only).trans closed, rfl, rfl,
    (fault_outputsOnly only).trans fault, retired⟩

theorem exec_fieldDieStart {s : State} (off : s.field.on = false) :
    exec .fieldDieStart s = .next (modField s (fun f => { f with on := true })) :=
  congrArg Host.Outcome.next (if_neg (by rw [off]; exact Bool.false_ne_true))

/-- Each lane takes the counts without adding, now or from the sample after the one it holds (R287). -/
theorem fld_retaken (s : State) (l : Lane) : (lane (dropInFlight (retakeCounts s)) l).fld =
    if (lane s l).fld.sample.isSome then { (lane s l).fld with retakeNext := true, inFlight := none }
    else { (lane s l).fld with retake := true, inFlight := none } := by
  unfold dropInFlight retakeCounts
  rw [lane_modLanes, lane_modLanes]
  dsimp only
  split
  · rfl
  · rfl

/-! ### The field fault (R262, R264, R271) -/

theorem groupRec_first (f : Field) : groupRec f false = f.group1 := rfl

theorem groupRec_second (f : Field) : groupRec f true = f.group2 := rfl

/-- Both groups are off, and no fault is cleared by it. -/
theorem latchBoth_shows (f : Field) : (latchBoth f).group1.latched = true ∧ (latchBoth f).group2.latched = true ∧
    (latchBoth f).fault = f.fault := by
  have second : groupRec (latchBoth f) true = groupLatched _ := groupRec_latchGroup_self true (latchGroup false f)
  have first : groupRec (latchBoth f) false = groupLatched _ :=
    (groupRec_latchGroup_other true (latchGroup false f)).trans (groupRec_latchGroup_self false f)
  have fault : (latchBoth f).fault = f.fault := by
    unfold latchBoth
    rw [fault_latchGroup, fault_latchGroup]
  rw [← groupRec_first, ← groupRec_second, first, second]
  exact ⟨rfl, rfl, fault⟩

/-- Under a field fault every switch is open. -/
theorem latchBoth_open {f : Field} {c : FieldFaultCause} (h : f.fault = some c) (l : Lane) (i : Nat) :
    ((latchBoth f).closed.get l).getLsbD i = false := by
  obtain ⟨-, -, fault⟩ := latchBoth_shows f
  obtain ⟨g, -, is⟩ := latchGroup_is true (latchGroup false f)
  have standing : g.fault = some c := by
    rw [← h, ← fault, show latchBoth f = settleSwitches g from is]
    rfl
  rw [show latchBoth f = settleSwitches g from is]
  refine settled_allOpen (fun n => outEnabled_false (fun on => ?_)) l i
  have clear := on.fault
  rw [standing] at clear
  cases clear

section
variable {s : State}

theorem field_modPages (s : State) (ps : List Nat) (f : Lifetime → Lifetime) : (modPages s ps f).field = s.field := rfl

theorem life_modPages (s : State) (ps : List Nat) (f : Lifetime → Lifetime) : (modPages s ps f).cellar.life = f s.cellar.life := rfl

theorem latchFault_field (h : s.field.fault = none) (c : FieldFaultCause) :
    (latchFault s c).field = latchBoth { s.field with fault := some c } ∧ (latchFault s c).cellar.life.fieldFault = some c := by
  unfold latchFault
  rw [if_neg (by rw [h]; exact Bool.false_ne_true)]
  dsimp only
  rw [field_fieldEvent, life_fieldEvent, field_modPages, life_modPages, field_modField]
  exact ⟨rfl, rfl⟩

/-- A field fault latches with both groups and every switch open, and is kept on the page (R263, R264). -/
theorem latchFault_shows (h : s.field.fault = none) (c : FieldFaultCause) : (latchFault s c).field.fault = some c ∧
    (latchFault s c).cellar.life.fieldFault = some c ∧ (latchFault s c).field.group1.latched = true ∧
    (latchFault s c).field.group2.latched = true ∧ ∀ l i, ((latchFault s c).field.closed.get l).getLsbD i = false := by
  obtain ⟨field, page⟩ := latchFault_field h c
  rw [field]
  have standing : ({ s.field with fault := some c } : Field).fault = some c := rfl
  generalize ({ s.field with fault := some c } : Field) = f at standing
  obtain ⟨first, second, fault⟩ := latchBoth_shows f
  exact ⟨fault.trans standing, page, first, second, latchBoth_open standing⟩

theorem latchFault_again (h : s.field.fault.isSome = true) (c : FieldFaultCause) : latchFault s c = s := if_pos h

/-- The command's cause holds, or is the field die's own finding. -/
theorem exec_fieldFault {c : FieldFaultCause} (self : c = .selfCheck → s.field.on = true)
    (config : c = .configMismatch → configMismatch s = true) (pair : c = .pairCheck → pairsBroken s = true)
    (budget : c = .lossBudget → s.field.lost = true ∧ 4 ≤ (inWindow s.mod.tickTime day24 s.cellar.life.crossingLosses).length) :
    exec (.fieldFault c) s = .next (latchFault s c) := by
  show execFieldFault c s = _
  unfold execFieldFault
  cases c with
  | selfCheck => exact congrArg Host.Outcome.next (if_pos (self rfl))
  | configMismatch => exact congrArg Host.Outcome.next (if_pos (config rfl))
  | pairCheck => exact congrArg Host.Outcome.next (if_pos (pair rfl))
  | lossBudget =>
    obtain ⟨lost, four⟩ := budget rfl
    exact congrArg Host.Outcome.next (if_pos (by rw [lost]; exact decide_eq_true four))

/-- The fault is cleared in the field die and on the page. -/
def faultCleared (s : State) : State :=
  modPages (modField s (fun f => { f with fault := none })) [5] (fun x => { x with fieldFault := none })

theorem exec_fieldFaultClear (a : Auth) (s : State) : exec (.fieldFaultClear a) s = .next (harnal s a 4 0 faultCleared) := rfl

theorem faultCleared_shows (u : State) : (faultCleared u).field = { u.field with fault := none } ∧
    (faultCleared u).cellar.life.fieldFault = none ∧ (faultCleared u).cellar.life.nonceLast = u.cellar.life.nonceLast := ⟨rfl, rfl, rfl⟩

theorem fieldFaultClear_clears {a : Auth} (ha : authOk s a = true) : ∃ t, exec (.fieldFaultClear a) s = .next t ∧
    changesOnly (records ++ [.field, .lifetime]) s t ∧ t.field = { s.field with fault := none } ∧ t.cellar.life.fieldFault = none ∧
    t.cellar.life.nonceLast = a.nonce := by
  have run := exec_fieldFaultClear a s
  have frame := chg_execFieldFaultClear a s s (ps := records ++ [.field, .lifetime]) (by decide) (changesOnly_refl _ s)
  have same := field_of (accepted_only s a 4 0)
  have nonce := congrArg Lifetime.nonceLast (accepted_life s a 4 0)
  rw [harnal_taken ha] at run
  generalize recordMaint (takeNonce s a) 4 0 a = u at run same nonce
  obtain ⟨field, page, last⟩ := faultCleared_shows u
  exact ⟨_, run, frame_next run frame, field.trans (by rw [same]), page, last.trans nonce⟩

end

/-! ### The statement -/

/-- Settles O41: a loss changes its stream or its lane's view alone, and a stop or a fault opens the switches by the enables it removes. Which
latches a module stop takes is log entry 79; the return of a lost stream (R263, at the next tick) is no part of the statement. -/
theorem crossingLosses : Obligations.CrossingLosses := by
  intro s
  refine ⟨fun l on up run held => ⟨fun h => ?_, fun h => ?_⟩, fun l ht hr hl hs => ?_, fun l hr hl => ⟨fun h => ?_, fun h => ?_⟩,
    fun hl => ⟨fun h => ?_, fun h => ?_⟩, fun on up run h => ?_, fun on => ?_, fun off => ?_, fun c self config pair budget => ?_,
    fun a => ⟨fun ha => ?_, fieldFaultClear_clears⟩⟩
  · have exe := exec_fieldStreamLost on up run held
    rw [if_pos h] at exe
    exact ⟨_, exe, frame_next exe (chg_execFieldStreamLost l s s (by decide) (changesOnly_refl _ s)), streams_streamLost s l⟩
  · exact (exec_fieldStreamLost on up run held).trans (congrArg Host.Outcome.next (if_neg (Nat.not_le.2 h)))
  · have exe := exec_localLost ht hr hl hs
    exact ⟨_, exe, frame_next exe (chg_execLocalLost l s s (by decide) (changesOnly_refl _ s)), fun m e => lane_modLane_other s _ e,
      congrArg LaneState.fld (lane_modLane_self s l _)⟩
  · have exe := exec_localRecovered hr hl
    rw [if_pos h] at exe
    exact ⟨_, exe, frame_next exe (chg_execLocalRecovered l s s (by decide) (changesOnly_refl _ s)),
      congrArg LaneState.fld (lane_modLane_self s l _), fun m e => lane_modLane_other s _ e⟩
  · exact (exec_localRecovered hr hl).trans (congrArg Host.Outcome.next (if_neg (Nat.not_le.2 h)))
  · have exe := exec_crossingRecovered hl
    rw [if_pos h] at exe
    exact ⟨_, exe, chg_modField s _ (by decide) (changesOnly_refl _ s), crossingBack_shows s.field⟩
  · exact (exec_crossingRecovered hl).trans (congrArg Host.Outcome.next (if_neg (Nat.not_le.2 h)))
  · exact ⟨_, exec_moduleStop on up run h, chg_modField s _ (by decide) (changesOnly_refl _ s), moduleStopped_shows s.field⟩
  · have exe := exec_fieldDieStop on
    obtain ⟨isOff, config, closed, inputs, counters, fault, retired⟩ := dieStopped_shows s.field
    refine ⟨_, exe, frame_next exe (chg_execFieldDieStop s s (by decide) (changesOnly_refl _ s)), ?_⟩
    rw [field_dieStop]
    refine ⟨isOff, fun l => ⟨fun unheld => ?_, fun held => ?_⟩, config, closed, inputs, counters, fault, fun n _ => retired n⟩
    · exact (fld_retaken s l).trans (if_neg (by rw [unheld]; exact Bool.false_ne_true))
    · exact (fld_retaken s l).trans (if_pos held)
  · exact ⟨_, exec_fieldDieStart off, chg_modField s _ (by decide) (changesOnly_refl _ s), rfl⟩
  · have exe := exec_fieldFault self config pair budget
    refine ⟨fun clear => ?_, fun standing => exe.trans (congrArg Host.Outcome.next (latchFault_again standing c))⟩
    exact ⟨_, exe, chg_latchFault s c (by decide) (changesOnly_refl _ s), latchFault_shows clear c⟩
  · exact (exec_fieldFaultClear a s).trans (congrArg Host.Outcome.next (harnal_refused ha _ _ _))

end Sys2Proof.Laws

/-! ## Local inputs, dual pairs, test pulses and counters (R265 to R270, R285) -/

namespace Sys2Proof.Laws

open Sys2Proof Sys2Proof.Machine Sys2Proof.Safety

/-! ### One sample of an input (R265, R267) -/

/-- A filtered value takes a raw value that has been read often enough in a row. -/
theorem filterStep_shows (need : Nat) (raw : Bool) (x : InputRec) :
    (filterStep need raw x).filtered = (if raw ≠ x.filtered ∧ need ≤ x.run + 1 then raw else x.filtered) ∧
    (filterStep need raw x).run = (if raw ≠ x.filtered ∧ x.run + 1 < need then x.run + 1 else 0) ∧
    (filterStep need raw x).fails = x.fails ∧ (filterStep need raw x).passes = x.passes ∧ (filterStep need raw x).tpBad = x.tpBad := by
  unfold filterStep
  by_cases same : raw = x.filtered
  · simp [same]
  · by_cases long : need ≤ x.run + 1
    · simp [same, long]
    · simp [same, long, Nat.lt_of_not_le long]

/-- The third sample of a pulse leaves the filter as it is. -/
theorem pulseCheck_filter (raw : Bool) (x : InputRec) : (pulseCheck raw x).filtered = x.filtered ∧ (pulseCheck raw x).run = x.run := by
  cases raw
  · exact ⟨rfl, rfl⟩
  · exact ⟨rfl, rfl⟩

/-- A read of 1 at the third sample of a pulse is a failure: the second in a row makes the channel invalid. -/
theorem pulseCheck_high (x : InputRec) : (pulseCheck true x).passes = 0 ∧ (pulseCheck true x).fails = min 2 (x.fails + 1) ∧
    ((pulseCheck true x).tpBad = true ↔ x.tpBad = true ∨ 1 ≤ x.fails) := by
  refine ⟨rfl, rfl, ?_⟩
  show (x.tpBad || decide (x.fails + 1 ≥ 2)) = true ↔ _
  rw [Bool.or_eq_true, decide_eq_true_eq]
  exact or_congr_right (by omega)

/-- A read of 0 at the third sample of a pulse is a pass: the third in a row makes the channel valid again. -/
theorem pulseCheck_low (x : InputRec) : (pulseCheck false x).fails = 0 ∧ (pulseCheck false x).passes = min 3 (x.passes + 1) ∧
    ((pulseCheck false x).tpBad = true ↔ x.tpBad = true ∧ x.passes < 2) := by
  refine ⟨rfl, rfl, ?_⟩
  show (x.tpBad && decide (x.passes + 1 < 3)) = true ↔ _
  rw [Bool.and_eq_true, decide_eq_true_eq]
  exact and_congr_right (fun _ => by omega)

/-- An input's record after a sample. -/
def inputSampled (c : LocalCfg) (raw : BitVec 48) (f : Field) (n : Nat) : InputRec :=
  if pulseThird f c n then pulseCheck (raw.getLsbD n) (filterStep ((inputCfg c n).filter + 1) (raw.getLsbD n) (inputRec f n))
  else filterStep ((inputCfg c n).filter + 1) (raw.getLsbD n) (inputRec f n)

section
variable {c : LocalCfg} {raw : BitVec 48} {f : Field} {n : Nat}

theorem inputSampled_filter : (inputSampled c raw f n).filtered =
      (if raw.getLsbD n ≠ (inputRec f n).filtered ∧ (inputCfg c n).filter + 1 ≤ (inputRec f n).run + 1 then raw.getLsbD n
        else (inputRec f n).filtered) ∧
    (inputSampled c raw f n).run = (if raw.getLsbD n ≠ (inputRec f n).filtered ∧ (inputRec f n).run + 1 < (inputCfg c n).filter + 1 then
      (inputRec f n).run + 1 else 0) := by
  obtain ⟨filtered, run, -⟩ := filterStep_shows ((inputCfg c n).filter + 1) (raw.getLsbD n) (inputRec f n)
  unfold inputSampled
  split
  · obtain ⟨keptValue, keptRun⟩ := pulseCheck_filter (raw.getLsbD n) (filterStep ((inputCfg c n).filter + 1) (raw.getLsbD n) (inputRec f n))
    exact ⟨keptValue.trans filtered, keptRun.trans run⟩
  · exact ⟨filtered, run⟩

theorem inputSampled_unpulsed (h : pulseThird f c n = false) : (inputSampled c raw f n).tpBad = (inputRec f n).tpBad ∧
    (inputSampled c raw f n).fails = (inputRec f n).fails ∧ (inputSampled c raw f n).passes = (inputRec f n).passes := by
  obtain ⟨-, -, fails, passes, bad⟩ := filterStep_shows ((inputCfg c n).filter + 1) (raw.getLsbD n) (inputRec f n)
  unfold inputSampled
  rw [h, if_neg Bool.false_ne_true]
  exact ⟨bad, fails, passes⟩

theorem inputSampled_failed (h : pulseThird f c n = true) (hr : raw.getLsbD n = true) : (inputSampled c raw f n).passes = 0 ∧
    (inputSampled c raw f n).fails = min 2 ((inputRec f n).fails + 1) ∧
    ((inputSampled c raw f n).tpBad = true ↔ (inputRec f n).tpBad = true ∨ 1 ≤ (inputRec f n).fails) := by
  obtain ⟨-, -, fails, -, bad⟩ := filterStep_shows ((inputCfg c n).filter + 1) true (inputRec f n)
  unfold inputSampled
  rw [if_pos h, hr, ← fails, ← bad]
  exact pulseCheck_high _

theorem inputSampled_passed (h : pulseThird f c n = true) (hr : raw.getLsbD n = false) : (inputSampled c raw f n).fails = 0 ∧
    (inputSampled c raw f n).passes = min 3 ((inputRec f n).passes + 1) ∧
    ((inputSampled c raw f n).tpBad = true ↔ (inputRec f n).tpBad = true ∧ (inputRec f n).passes < 2) := by
  obtain ⟨-, -, -, passes, bad⟩ := filterStep_shows ((inputCfg c n).filter + 1) false (inputRec f n)
  unfold inputSampled
  rw [if_pos h, hr, ← passes, ← bad]
  exact pulseCheck_low _

end

/-! ### One sample of all inputs -/

theorem field_sampleInput (c : LocalCfg) (raw : BitVec 48) (s : State) (n : Nat) : (sampleInput c raw s n).field =
    { s.field with inputs := sput InputRec.reset s.field.inputs n (inputSampled c raw s.field n) } := by
  unfold sampleInput
  extract_lets f x b y z s1
  have sampled : z = inputSampled c raw f n := rfl
  split
  · rw [field_fieldEvent]
    rfl
  · rfl

/-- Of the field die the records of the first k inputs have taken a sample. -/
structure InputsSampled (c : LocalCfg) (raw : BitVec 48) (f : Field) (k : Nat) (g : Field) : Prop where
  only : g = { f with inputs := g.inputs }
  recs : ∀ n, inputRec g n = if n < k then inputSampled c raw f n else inputRec f n

theorem inputsSampled_fold (c : LocalCfg) (raw : BitVec 48) (s : State) (k : Nat) :
    InputsSampled c raw s.field k (foldS (List.range k) (sampleInput c raw) s).field := by
  induction k with
  | zero => exact ⟨rfl, fun n => (if_neg (Nat.not_lt_zero n)).symm⟩
  | succ k ih =>
    unfold foldS at ih ⊢
    rw [List.range_succ, List.foldl_concat, field_sampleInput]
    generalize (List.foldl (sampleInput c raw) s (List.range k)).field = g at ih
    obtain ⟨only, recs⟩ := ih
    have next : inputSampled c raw g k = inputSampled c raw s.field k := by
      have third : pulseThird g c k = pulseThird s.field c k := by
        unfold pulseThird
        rw [show g.sources = s.field.sources from (congrArg Field.sources only).trans rfl]
      unfold inputSampled
      rw [third, recs, if_neg (Nat.lt_irrefl k)]
    refine ⟨congrArg (fun h : Field => { h with inputs := sput InputRec.reset g.inputs k (inputSampled c raw g k) }) only, fun n => ?_⟩
    refine (sget_sput _ _ k n _).trans ?_
    by_cases e : n = k
    · rw [if_pos e, e, if_pos (Nat.lt_succ_self k), next]
    · rw [if_neg e]
      exact (recs n).trans (if_congr (by omega) rfl rfl)

/-! ### One sample of a pair (R268 to R270) -/

section
variable (c : PairCfg) (a b : Bool) (x : PairRec)

theorem pairStep_invalid : (pairStep c false a b x).st = .invalid := rfl

/-- The count of samples that differ: it starts afresh where the pair begins, and stops at N (R269). -/
theorem pairStep_run : (pairStep c true a b x).run =
    if a = b then 0 else min (pairN c) ((if x.st = .invalid then 0 else x.run) + 1) := by
  obtain ⟨st, run, zeroSeen⟩ := x
  cases st with
  | invalid =>
    cases h : c.startTest with
    | false => simp [pairStep, h]
    | true => simp [pairStep, h]
  | ready => rfl
  | arming => rfl
  | fault => rfl

/-- A pair whose channels become valid is READY, or ARMING where its start test is on (R268). -/
theorem pairStep_begins (h : x.st = .invalid) : (pairStep c true a b x).st = if c.startTest then .arming else .ready := by
  obtain ⟨st, run, zeroSeen⟩ := x
  dsimp only at h
  subst h
  cases h : c.startTest with
  | false => simp [pairStep, h]
  | true => cases a <;> cases b <;> simp [pairStep, h]

theorem pairStep_ready (h : x.st = .ready) : (pairStep c true a b x).st = .ready := by
  unfold pairStep
  simp [h]

/-- A pair leaves ARMING and FAULT when both channels are 1 after both have been 0 (R269, R270). -/
theorem pairStep_returns (h : x.st = .arming ∨ x.st = .fault) (hz : x.zeroSeen = true) (hn : 1 ≤ pairN c) :
    (pairStep c true true true x).st = .ready := by
  have positive : pairN c ≠ 0 := by omega
  unfold pairStep
  obtain h | h := h
  · simp [h, hz, positive]
  · simp [h, hz, positive]

theorem pairStep_stays (h : x.st = .arming ∨ x.st = .fault) (hw : a = false ∨ b = false ∨ x.zeroSeen = false) :
    (pairStep c true a b x).st = x.st := by
  unfold pairStep
  obtain h | h := h
  · obtain k | k | k := hw
    · simp [h, k]
    · simp [h, k]
    · cases a <;> simp [h, k]
  · obtain k | k | k := hw
    · simp [h, k]
    · simp [h, k]
    · cases a <;> simp [h, k]

end

/-- A pair's record after a sample, with the inputs as they stand in f. -/
def pairSampled (c : LocalCfg) (f : Field) (j : Nat) (x : PairRec) : PairRec :=
  if (pairCfg c j).dual then
    pairStep (pairCfg c j) (inputValid f (2 * j) && inputValid f (2 * j + 1)) (inputRec f (2 * j)).filtered
      (inputRec f (2 * j + 1)).filtered x
  else x

/-- Of the field die the records of the first k pairs have taken a sample. -/
structure PairsSampled (c : LocalCfg) (f : Field) (k : Nat) (g : Field) : Prop where
  only : g = { f with pairs := g.pairs }
  recs : ∀ j, pairRec g j = if j < k then pairSampled c f j (pairRec f j) else pairRec f j

/-- The inputs, and whether they are valid, do not depend on the pairs. -/
theorem pairSampled_of {f g : Field} (h : g = { f with pairs := g.pairs }) (c : LocalCfg) (j : Nat) (x : PairRec) :
    pairSampled c g j x = pairSampled c f j x := by
  rw [h]
  rfl

theorem samplePair_shows (c : LocalCfg) (f : Field) (j : Nat) : samplePair c f j = { f with pairs := (samplePair c f j).pairs } ∧
    ∀ i, pairRec (samplePair c f j) i = if i = j then pairSampled c f j (pairRec f j) else pairRec f i := by
  unfold samplePair pairSampled
  split
  · exact ⟨rfl, fun i => sget_smod _ _ j i _⟩
  · refine ⟨rfl, fun i => ?_⟩
    split
    · next e => rw [e]
    · rfl

theorem pairsSampled_fold (c : LocalCfg) (f : Field) (k : Nat) : PairsSampled c f k ((List.range k).foldl (samplePair c) f) := by
  induction k with
  | zero => exact ⟨rfl, fun j => (if_neg (Nat.not_lt_zero j)).symm⟩
  | succ k ih =>
    rw [List.range_succ, List.foldl_concat]
    generalize List.foldl (samplePair c) f (List.range k) = g at ih
    obtain ⟨only, recs⟩ := ih
    obtain ⟨nextOnly, nextRecs⟩ := samplePair_shows c g k
    refine ⟨nextOnly.trans (congrArg (fun h : Field => { h with pairs := (samplePair c g k).pairs }) only), fun j => ?_⟩
    rw [nextRecs]
    by_cases e : j = k
    · rw [if_pos e, e, if_pos (Nat.lt_succ_self k), pairSampled_of only, recs, if_neg (Nat.lt_irrefl k)]
    · rw [if_neg e, recs]
      exact if_congr (by omega) rfl rfl

/-! ### The commands: sample, pair fault, pulse, counter edge (R265 to R270, R285) -/

/-- Every input has taken the sample, then every pair. -/
def sampled (s : State) (c : LocalCfg) (raw : BitVec 48) : State :=
  modField (foldS (List.range 48) (sampleInput c raw) s) (fun f => (List.range 24).foldl (samplePair c) (pulseStep f))

/-- After a sample each input has its new record, and each pair its own, by the inputs as they now are. -/
theorem sampled_shows (s : State) (c : LocalCfg) (raw : BitVec 48) :
    (∀ n, n < 48 → inputRec (sampled s c raw).field n = inputSampled c raw s.field n) ∧
    ∀ j, j < 24 → pairRec (sampled s c raw).field j = pairSampled c (sampled s c raw).field j (pairRec s.field j) := by
  have inputs := inputsSampled_fold c raw s 48
  unfold sampled
  rw [field_modField]
  generalize (foldS (List.range 48) (sampleInput c raw) s).field = g at inputs
  have pairs := pairsSampled_fold c (pulseStep g) 24
  generalize List.foldl (samplePair c) (pulseStep g) (List.range 24) = h at pairs
  have read : ∀ n, inputRec h n = inputRec g n := fun n =>
    congrArg (fun m => sget InputRec.reset m n) ((congrArg Field.inputs pairs.only).trans rfl)
  have before : ∀ j, pairRec (pulseStep g) j = pairRec s.field j := fun j =>
    congrArg (fun m => sget PairRec.reset m j) ((congrArg Field.pairs inputs.only).trans rfl)
  refine ⟨fun n hn => ?_, fun j hj => ?_⟩
  · rw [read, inputs.recs, if_pos hn]
  · rw [pairs.recs, if_pos hj, before, pairSampled_of pairs.only]

section
variable {s : State} {c : LocalCfg} (hc : s.field.config = some c)
include hc

theorem exec_inputSample (raw : BitVec 48) :
    exec (.inputSample raw) s = .next (if fieldReady s.field then sampled s c raw else s) := by
  show execInputSample raw s = _
  unfold execInputSample
  rw [hc]
  rfl

theorem exec_pairFault {j : Fin 24} (hd : (pairCfg c j.val).dual = true)
    (hst : (pairRec s.field j.val).st = .ready ∨ (pairRec s.field j.val).st = .arming) : exec (.pairFault j) s =
    .next (if pairN (pairCfg c j.val) ≤ (pairRec s.field j.val).run then
      fieldEvent (modField s (fun f => { f with
        pairs := sput PairRec.reset f.pairs j.val { pairRec s.field j.val with st := .fault, zeroSeen := false } })) 71 0x0405 j.val 0 0
      else s) := by
  have able : (decide ((pairRec s.field j.val).st ≠ .invalid) && decide ((pairRec s.field j.val).st ≠ .fault)) = true := by
    obtain h | h := hst
    · rw [h]; decide
    · rw [h]; decide
  obtain ⟨begun, unfaulted⟩ := Bool.and_eq_true_iff.1 able
  show execPairFault j s = _
  unfold execPairFault
  rw [hc]
  dsimp only
  rw [hd, begun, unfaulted]
  simp only [Bool.true_and, decide_eq_true_eq, ge_iff_le]

theorem exec_testPulse {k : Fin 8} (low high : Bool) : exec (.testPulse k low high) s =
    .next (if fieldReady s.field = true ∧ pulseDue s c k.val = true ∧ noneLow s.field = true then
      modField s (fun f => { f with sources := smod SourceRec.reset f.sources k.val (fun x =>
        { x with low := 4, bad := x.bad || !(low && high) }) }) else s) := by
  show execTestPulse k low high s = _
  unfold execTestPulse
  rw [hc]
  simp only [Bool.and_eq_true, and_assoc]

/-- The counter's mode is that of the configuration (R285). -/
theorem exec_counterEdge (on : s.field.on = true) (k : Fin 4) (rising : Bool) : exec (.counterEdge k rising) s =
    .next (if edgeCounts (counterCfg c k.val).mode rising then
      modField s (fun f => { f with counters := smod CountRec.reset f.counters k.val countEdge }) else s) := by
  show execCounterEdge k rising s = _
  unfold execCounterEdge counterMode
  rw [on, hc]
  rfl

end

/-- A time less than w after the instant d of a period, taken modulo the period from that instant on. -/
theorem phase_lt {t p d n w : Nat} (hw : w < p) (lo : n * p + d ≤ t) (hi : t < n * p + d + w) : (t + (p - d % p)) % p < w := by
  have part : d % p < p := Nat.mod_lt d (by omega)
  have whole : p * (d / p) + d % p = d := Nat.div_add_mod d p
  have phase : t + (p - d % p) = (t - (n * p + d)) + p * (n + d / p + 1) := by
    rw [Nat.mul_add, Nat.mul_add, Nat.mul_comm p n]
    omega
  rw [phase, Nat.add_mul_mod_self_left, Nat.mod_eq_of_lt (by omega)]
  omega

/-- The sample from k × 2 ms after a multiple of the period on is the one that a pulse starts at (R266). -/
theorem pulseDue_at {s : State} {c : LocalCfg} {k n : Nat} (hs : (s.mod.refreshes - 1) % 5 = 0) (hp : 0 < c.tpPeriodMs)
    (lo : n * (c.tpPeriodMs * 1000000) + k * 2000000 ≤ sampleTime s)
    (hi : sampleTime s < n * (c.tpPeriodMs * 1000000) + k * 2000000 + 50000) : pulseDue s c k = true := by
  have long : 50000 < c.tpPeriodMs * 1000000 := by omega
  unfold pulseDue
  dsimp only
  rw [hs, decide_eq_true (phase_lt long lo hi)]
  rfl

/-- The source of the pulse is low for 4 samples, and bad where a level is out of place (R266). -/
theorem source_pulsed (s : State) (k : Nat) (low high : Bool) (n : Nat) :
    sget SourceRec.reset (modField s (fun f => { f with sources := smod SourceRec.reset f.sources k (fun x =>
      { x with low := 4, bad := x.bad || !(low && high) }) })).field.sources n =
    if n = k then { low := 4, bad := (sget SourceRec.reset s.field.sources k).bad || !low || !high }
    else sget SourceRec.reset s.field.sources n := by
  refine (sget_smod SourceRec.reset s.field.sources k n (fun x => { x with low := 4, bad := x.bad || !(low && high) })).trans ?_
  rw [Bool.not_and, Bool.or_assoc]

/-- An input of a source that is bad is not valid (R266). -/
theorem sourceBad_invalid {f : Field} {c : LocalCfg} {k : Fin 8} (hc : f.config = some c)
    (hb : (sget SourceRec.reset f.sources k.val).bad = true) : sourceOk f k.val = false ∧
    ∀ n, n < 48 → (inputCfg c n).source = some k → inputValid f n = false := by
  have bad : sourceOk f k.val = false := by
    unfold sourceOk
    rw [hb]
    exact Bool.and_false _
  refine ⟨bad, fun n _ hs => ?_⟩
  unfold inputValid inputSourceOk
  rw [hc]
  dsimp only
  rw [hs]
  dsimp only
  rw [bad, Bool.and_false]

theorem edgeCounts_iff (m : EdgeMode) (rising : Bool) :
    edgeCounts m rising = true ↔ m = .both ∨ (m = .rising ∧ rising = true) ∨ (m = .falling ∧ rising = false) := by
  cases m <;> cases rising <;> decide

theorem countEdge_is (x : CountRec) : countEdge x =
    if x.delta.toNat < 65534 then { x with delta := x.delta + 1 } else { x with delta := 65535, stuck := true } := by
  unfold countEdge
  split
  · next h => rw [if_neg (by omega)]
  · next h => rw [if_pos (by omega)]

/-! ### The statement -/

/-- Settles O42: each input and each pair takes the sample on its own, the pairs by the filtered values and the valid inputs that the sample
leaves. The count of a pair that was INVALID starts afresh (log entry 31); TP_OK comes back with the inputs of its source (entry 63). -/
theorem inputChannels : Obligations.InputChannels := by
  intro s c hc
  refine ⟨fun raw h => ?_, fun raw h => ?_, fun j hd hst => ?_, fun k low high h => ?_,
    fun k n hs hp lo hi => pulseDue_at hs hp lo hi, fun k low high hf hd hn => ?_, fun k on => ?_, fun k rising on => ?_⟩
  · exact (exec_inputSample hc raw).trans (congrArg Host.Outcome.next (if_neg (by rw [h]; exact Bool.false_ne_true)))
  · have run := exec_inputSample hc raw
    rw [if_pos h] at run
    obtain ⟨inputs, pairs⟩ := sampled_shows s c raw
    refine ⟨_, run, frame_next run (chg_execInputSample raw s s (by decide) (changesOnly_refl _ s)), fun n hn => ?_, fun j hj => ?_⟩
    · rw [inputs n hn]
      exact ⟨inputSampled_filter.1, inputSampled_filter.2, inputSampled_unpulsed, inputSampled_failed, inputSampled_passed⟩
    · rw [pairs j hj]
      generalize (sampled s c raw).field = f
      unfold pairSampled
      refine ⟨fun single => ?_, fun dual out => ?_, fun dual valid => ?_⟩
      · rw [single]
        rfl
      · rw [if_pos dual, out]
        exact pairStep_invalid _ _ _ _
      · rw [if_pos dual, valid]
        refine ⟨fun hi ht => ?_, fun hi ht => ?_, pairStep_ready _ _ _ _, pairStep_run _ _ _ _, fun hst hz ha hb hN => ?_,
          pairStep_stays _ _ _ _⟩
        · rw [pairStep_begins _ _ _ _ hi, ht]
          rfl
        · rw [pairStep_begins _ _ _ _ hi, ht]
          rfl
        · rw [ha, hb]
          exact pairStep_returns _ _ hst hz hN
  · have run := exec_pairFault hc hd hst
    refine ⟨fun long => ?_, fun short => run.trans (congrArg Host.Outcome.next (if_neg (Nat.not_le.2 short)))⟩
    rw [if_pos long] at run
    exact ⟨_, run, frame_next run (chg_execPairFault j s s (by decide) (changesOnly_refl _ s)), field_fieldEvent _ _ _ _ _ _⟩
  · refine (exec_testPulse hc low high).trans (congrArg Host.Outcome.next (if_neg ?_))
    rintro ⟨-, due, free⟩
    obtain early | taken := h
    · rw [early] at due
      cases due
    · rw [taken] at free
      cases free
  · have run := exec_testPulse (k := k) hc low high
    rw [if_pos ⟨hf, hd, hn⟩] at run
    have pulsed := source_pulsed s k.val low high
    refine ⟨_, run, chg_modField s _ (by decide) (changesOnly_refl _ s), fun n e => (pulsed n).trans (if_neg e), (pulsed k.val).trans (if_pos rfl),
      fun level => sourceBad_invalid hc ?_⟩
    rw [pulsed, if_pos rfl]
    obtain rfl | rfl := level
    · rw [Bool.not_false, Bool.or_true, Bool.true_or]
    · rw [Bool.not_false, Bool.or_true]
  · have healthy := fun n => sget_smod SourceRec.reset s.field.sources k.val n (fun x => { x with bad := false })
    exact ⟨_, congrArg Host.Outcome.next (if_pos on), chg_modField s _ (by decide) (changesOnly_refl _ s),
      congrArg SourceRec.bad ((healthy k.val).trans (if_pos rfl)), fun n e => (healthy n).trans (if_neg e)⟩
  · have run := exec_counterEdge hc on k rising
    rw [← edgeCounts_iff]
    refine ⟨fun uncounted => run.trans (congrArg Host.Outcome.next (if_neg uncounted)), fun counted => ?_⟩
    rw [if_pos counted] at run
    have edged := fun n => sget_smod CountRec.reset s.field.counters k.val n countEdge
    exact ⟨_, run, chg_modField s _ (by decide) (changesOnly_refl _ s), fun n e => (edged n).trans (if_neg e),
      ((edged k.val).trans (if_pos rfl)).trans (countEdge_is _)⟩

end Sys2Proof.Laws

/-! ## Host ports: their rings, and the vectors that they send (R295, R300 to R302, R321, R324) -/

namespace Sys2Proof.Laws

open Sys2Proof Sys2Proof.Machine Sys2Proof.Safety

/-! ### Ports that have only sent vectors (R324, R368) -/

theorem ports_of {ps : List Part} {s t : State} (h : changesOnly ps s t) (hp : ps.contains .ports = false := by rfl) : t.ports = s.ports :=
  (h .ports hp).1

theorem hostMem_of {ps : List Part} {s t : State} (h : changesOnly ps s t) (hp : ps.contains .hostMem = false := by rfl) :
    t.hostMem = s.hostMem := (h .hostMem hp).1

/-- From s to t the host ports have at most sent MSI-X vectors, or set their pending bits. -/
def vectorsOnly (s t : State) : Prop := ∀ q, ∃ m k, t.ports.get q = { s.ports.get q with msix := m, pba := k }

theorem vectors_of {ps : List Part} {s t : State} (h : changesOnly ps s t) (hp : ps.contains .ports = false := by rfl) : vectorsOnly s t :=
  fun q => ⟨(s.ports.get q).msix, (s.ports.get q).pba, by rw [ports_of h hp]⟩

theorem vectors_refl (s : State) : vectorsOnly s s := vectors_of (changesOnly_refl [] s)

theorem vectors_trans {s t u : State} (h : vectorsOnly s t) (k : vectorsOnly t u) : vectorsOnly s u := fun q => by
  obtain ⟨m, a, hq⟩ := h q
  obtain ⟨n, b, kq⟩ := k q
  exact ⟨n, b, by rw [kq, hq]⟩

theorem vectors_sendVector (s : State) (p : Port) (v : Nat) : vectorsOnly s (sendVector s p v) := fun q => by
  unfold sendVector
  rw [ports_get_modPort]
  split
  · unfold putVector
    split
    · exact ⟨_, _, rfl⟩
    · exact ⟨_, _, rfl⟩
  · exact ⟨_, _, rfl⟩

/-- The message of a presentation is a vector of a port whose link is up (R368). -/
theorem eicMessage_sends (s : State) (x : EicSrc) (b a : Option EicTarget) :
    eicMessage s x b a = s ∨ ∃ p v, (s.ports.get p).linkUp = true ∧ eicMessage s x b a = sendVector s p v := by
  unfold eicMessage
  split
  · split
    · exact .inl rfl
    · split
      · split
        · next hp => exact .inr ⟨_, _, hp, rfl⟩
        · exact .inl rfl
      · exact .inl rfl
  · exact .inl rfl

/-- An update of one source leaves the ports as they are, or sends a vector of a port whose link is up (R368). -/
theorem eicUpd_sends (s : State) (l : Lane) (n : Nat) (f : EicSrc → EicSrc) : (eicUpd s l n f).ports = s.ports ∨
    ∃ p v, (s.ports.get p).linkUp = true ∧ (eicUpd s l n f).ports = (sendVector s p v).ports := by
  unfold eicUpd
  split
  · unfold eicSettle
    extract_lets before e' e2 x
    obtain e | ⟨p, v, hp, e⟩ := eicMessage_sends (modLane s l (fun L => { L with eic := e2 })) x before (eicPresented e2 x)
    · exact .inl ((congrArg State.ports e).trans rfl)
    · exact .inr ⟨p, v, hp, (congrArg State.ports e).trans rfl⟩
  · exact .inl rfl

theorem vectors_eicUpd (s : State) (l : Lane) (n : Nat) (f : EicSrc → EicSrc) : vectorsOnly s (eicUpd s l n f) := fun q => by
  obtain e | ⟨p, v, -, e⟩ := eicUpd_sends s l n f
  · rw [e]
    exact vectors_refl s q
  · rw [e]
    exact vectors_sendVector s p v q

theorem vectors_eicRaise (s : State) (l : Lane) (n : Nat) : vectorsOnly s (eicRaise s l n) := by
  unfold eicRaise
  split
  · exact vectors_eicUpd _ _ _ _
  · exact vectors_refl s

theorem vectors_eicLevel (s : State) (l : Lane) (n : Nat) (b : Bool) : vectorsOnly s (eicLevel s l n b) := by
  unfold eicLevel
  split
  · exact vectors_eicUpd _ _ _ _
  · exact vectors_refl s

/-- A level leaves a port whose link is down as it is: its vectors would go to no host (R368). -/
theorem eicLevel_asleep (s : State) (l : Lane) (n : Nat) (b : Bool) {p : Port} (h : (s.ports.get p).linkUp = false) :
    (eicLevel s l n b).ports.get p = s.ports.get p := by
  unfold eicLevel
  split
  · obtain e | ⟨q, v, hq, e⟩ := eicUpd_sends s l n (fun x => if b && !x.level then { srcArrive x with level := true } else { x with level := b })
    · rw [e]
    · have hne : q ≠ p := fun he => by
        rw [he, h] at hq
        cases hq
      rw [e]
      unfold sendVector
      rw [ports_get_modPort, if_neg hne]
  · rfl

theorem vectors_foldS {α : Type} {f : State → α → State} (hf : ∀ t x, vectorsOnly t (f t x)) (xs : List α) (s : State) :
    vectorsOnly s (foldS xs f s) := by
  unfold foldS
  induction xs generalizing s with
  | nil => exact vectors_refl s
  | cons x xs ih => exact vectors_trans (hf s x) (ih _)

theorem vectors_modLane (s : State) (l : Lane) (f : LaneState → LaneState) : vectorsOnly s (modLane s l f) := vectors_refl s

theorem vectors_suppress (s : State) (l : Lane) (c : Nat) : vectorsOnly s (suppress s l c) := by
  unfold suppress
  dsimp only
  split
  · exact vectors_modLane _ _ _
  · exact vectors_trans (vectors_modLane s l _) (vectors_eicRaise _ _ _)

theorem vectors_putRecord (s : State) (l : Lane) (r : Record) (b : Bool) : vectorsOnly s (putRecord s l r b) :=
  vectors_of (chg_putRecord s l r b (by decide) (changesOnly_refl [.staging, .log] s))

theorem vectors_recordLane (s : State) (l : Lane) (c : Nat) (p : List Byte) : vectorsOnly s (recordLane s l c p) := by
  unfold recordLane recordOne
  split
  · exact vectors_refl s
  split
  · exact vectors_putRecord _ _ _ _
  dsimp only
  split
  · exact vectors_trans (vectors_modLane s l _) (vectors_putRecord _ _ _ _)
  · exact vectors_suppress _ _ _

theorem vectors_eventLane (s : State) (l : Lane) (n c : Nat) (p : List Byte) : vectorsOnly s (eventLane s l n c p) :=
  vectors_trans (vectors_eicRaise s l n) (vectors_recordLane _ _ _ _)

theorem vectors_closeUser (s : State) (l : Lane) (u : Nat) : vectorsOnly s (closeUser s l u) := by
  unfold closeUser
  dsimp only
  split
  · exact vectors_trans (vectors_modLane s l _) (vectors_eicRaise _ _ _)
  · exact vectors_modLane _ _ _

theorem vectors_feedUsers (s : State) (l : Lane) (p : Port) (q cls : Nat) (last whole : Bool) (bs : List Byte) :
    vectorsOnly s (feedUsers s l p q cls last whole bs) := vectors_foldS (fun t u => by
  dsimp only
  split
  · split
    · exact vectors_trans (vectors_modLane t l _) (vectors_closeUser _ _ _)
    · exact vectors_modLane _ _ _
  · exact vectors_refl t) _ s

theorem vectors_feedStage (s : State) (t : Taken) (whole : Bool) (bs : List Byte) : vectorsOnly s (feedStage s t whole bs) :=
  vectors_foldS (fun u l => vectors_feedUsers u l _ _ _ _ _ _) _ s

/-! ### The rings of a port -/

section
variable {s t : State} (h : vectorsOnly s t)
include h

theorem sqOf_vectors (p : Port) (q : Nat) : sqOf t p q = sqOf s p q := by
  obtain ⟨m, k, e⟩ := h p
  unfold sqOf
  rw [e]

theorem cqOf_vectors (p : Port) (q : Nat) : cqOf t p q = cqOf s p q := by
  obtain ⟨m, k, e⟩ := h p
  unfold cqOf
  rw [e]

end

theorem ports_modPort_other (s : State) {p r : Port} (f : PortState → PortState) (h : r ≠ p) : (modPort s p f).ports.get r = s.ports.get r := by
  rw [ports_get_modPort, if_neg (Ne.symm h)]

/-- A change of a port that leaves its submission rings. -/
theorem sqOf_modPort (s : State) (p r : Port) (m : Nat) {f : PortState → PortState} (hf : ∀ x, (f x).sqs = x.sqs) :
    sqOf (modPort s p f) r m = sqOf s r m := by
  unfold sqOf
  rw [ports_get_modPort]
  split
  · rw [hf]
  · rfl

/-- A change of a port that leaves its completion rings. -/
theorem cqOf_modPort (s : State) (p r : Port) (m : Nat) {f : PortState → PortState} (hf : ∀ x, (f x).cqs = x.cqs) :
    cqOf (modPort s p f) r m = cqOf s r m := by
  unfold cqOf
  rw [ports_get_modPort]
  split
  · rw [hf]
  · rfl

theorem sqOf_modSq (s : State) (p : Port) (q m : Nat) (f : Ring → Ring) :
    sqOf (modSq s p q f) p m = if m = q then f (sqOf s p q) else sqOf s p m := by
  unfold sqOf modSq
  rw [ports_get_modPort, if_pos rfl]
  exact sget_smod _ _ _ _ _

theorem sqOf_modSq_self (s : State) (p : Port) (q : Nat) (f : Ring → Ring) : sqOf (modSq s p q f) p q = f (sqOf s p q) := by
  rw [sqOf_modSq, if_pos rfl]

theorem sqOf_modSq_other (s : State) (p : Port) {q m : Nat} (f : Ring → Ring) (h : m ≠ q) : sqOf (modSq s p q f) p m = sqOf s p m := by
  rw [sqOf_modSq, if_neg h]

theorem cqOf_modSq (s : State) (p r : Port) (q m : Nat) (f : Ring → Ring) : cqOf (modSq s p q f) r m = cqOf s r m :=
  cqOf_modPort s p r m fun _ => rfl

theorem cqOf_modCq (s : State) (p : Port) (q m : Nat) (f : Ring → Ring) :
    cqOf (modCq s p q f) p m = if m = q then f (cqOf s p q) else cqOf s p m := by
  unfold cqOf modCq
  rw [ports_get_modPort, if_pos rfl]
  exact sget_smod _ _ _ _ _

theorem cqOf_modCq_self (s : State) (p : Port) (q : Nat) (f : Ring → Ring) : cqOf (modCq s p q f) p q = f (cqOf s p q) := by
  rw [cqOf_modCq, if_pos rfl]

theorem cqOf_modCq_other (s : State) (p : Port) {q m : Nat} (f : Ring → Ring) (h : m ≠ q) : cqOf (modCq s p q f) p m = cqOf s p m := by
  rw [cqOf_modCq, if_neg h]

theorem sqOf_modCq (s : State) (p r : Port) (q m : Nat) (f : Ring → Ring) : sqOf (modCq s p q f) r m = sqOf s r m :=
  sqOf_modPort s p r m fun _ => rfl

/-- Where the ports are as they were, so are their rings. -/
theorem sqOf_of {ps : List Part} {s t : State} (h : changesOnly ps s t) (hp : ps.contains .ports = false := by rfl) (p : Port) (q : Nat) :
    sqOf t p q = sqOf s p q := sqOf_vectors (vectors_of h hp) p q

theorem cqOf_of {ps : List Part} {s t : State} (h : changesOnly ps s t) (hp : ps.contains .ports = false := by rfl) (p : Port) (q : Nat) :
    cqOf t p q = cqOf s p q := cqOf_vectors (vectors_of h hp) p q

end Sys2Proof.Laws

/-! ## Host ports: links that go down, and the descriptors that end with them (R295, R301, R309, R316, R322, R503) -/

namespace Sys2Proof.Laws

open Sys2Proof Sys2Proof.Machine Sys2Proof.Safety

/-! ### Descriptors end (R301, R309, R316) -/

/-- From s to t descriptors have at most ended: no lane has taken another one, and every completion composed is still there. -/
def endsOnly (s t : State) : Prop :=
  ∀ l, (∀ x ∈ (lane t l).mbx.taken, x ∈ (lane s l).mbx.taken) ∧ ∀ c ∈ (lane s l).mbx.composed, c ∈ (lane t l).mbx.composed

theorem ends_of {ps : List Part} {s t : State} (h : changesOnly ps s t) (hp : ps.contains .mbx = false := by rfl) : endsOnly s t :=
  fun l => by rw [mbx_of h hp]; exact ⟨fun _ hx => hx, fun _ hc => hc⟩

theorem ends_refl (s : State) : endsOnly s s := ends_of (changesOnly_refl [] s)

theorem ends_trans {s t u : State} (h : endsOnly s t) (k : endsOnly t u) : endsOnly s u := fun l =>
  ⟨fun x hx => (h l).1 x ((k l).1 x hx), fun c hc => (k l).2 c ((h l).2 c hc)⟩

theorem ends_foldS {α : Type} {f : State → α → State} (hf : ∀ t x, endsOnly t (f t x)) (xs : List α) (s : State) :
    endsOnly s (foldS xs f s) := by
  unfold foldS
  induction xs generalizing s with
  | nil => exact ends_refl s
  | cons x xs ih => exact ends_trans (hf s x) (ih _)

/-- The completions of resubmissions are composed after what there was. -/
theorem composed_composes (us : List Taken) (f : Taken → Completion) (L : LaneState) :
    (us.foldl (fun L u => compose L (f u)) L).mbx.composed = L.mbx.composed ++ us.map f := by
  induction us generalizing L with
  | nil => exact (List.append_nil _).symm
  | cons u us ih =>
    rw [List.foldl_cons, ih]
    exact (List.append_assoc _ _ _).trans rfl

/-- What the end of a descriptor leaves in a lane that has taken it: its records gone and none come, its completion composed behind those
before it (R309, R316). -/
theorem finishLane_taken {s : State} {l : Lane} {r : HostRef} {t : Taken}
    (h : (lane s l).mbx.taken.find? (fun t => decide (t.ref = r)) = some t) (e : HostEnd) :
    (∀ y ∈ (lane (finishLane s l r e) l).mbx.taken, y ∈ (lane s l).mbx.taken ∧ y.ref ≠ r) ∧
    ∃ zs, (lane (finishLane s l r e) l).mbx.composed =
      (lane s l).mbx.composed ++ completionOf (epochNow s) r t.cqEpoch t.replay (isChecked r.cls.toNat) e :: zs := by
  have keeps : ∀ (b : Bool) (L : LaneState), (if b = true then ledgerEnd L r e else L).mbx.taken = L.mbx.taken ∧
      (if b = true then ledgerEnd L r e else L).mbx.composed = L.mbx.composed := fun b L => by cases b <;> exact ⟨rfl, rfl⟩
  unfold finishLane
  rw [h]
  dsimp only
  rw [lane_modLane_self, taken_composes, composed_composes]
  unfold compose
  dsimp only
  rw [(keeps _ _).1, (keeps _ _).2]
  refine ⟨fun y hy => ?_, _, List.append_assoc _ _ _⟩
  obtain ⟨hmem, hne⟩ := List.mem_filter.1 hy
  simp only [Bool.and_eq_true, decide_eq_true_eq] at hne
  exact ⟨hmem, hne.1⟩

theorem finishLane_none {s : State} {l : Lane} {r : HostRef}
    (h : (lane s l).mbx.taken.find? (fun t => decide (t.ref = r)) = none) (e : HostEnd) : finishLane s l r e = s := by
  unfold finishLane
  rw [h]

theorem ends_finishLane (s : State) (l : Lane) (r : HostRef) (e : HostEnd) : endsOnly s (finishLane s l r e) := fun m => by
  cases h : (lane s l).mbx.taken.find? (fun t => decide (t.ref = r)) with
  | none =>
    rw [finishLane_none h]
    exact ends_refl s m
  | some t =>
    by_cases hm : m = l
    · subst hm
      obtain ⟨htaken, zs, hcomposed⟩ := finishLane_taken h e
      exact ⟨fun y hy => (htaken y hy).1, fun c hc => by rw [hcomposed]; exact List.mem_append_left _ hc⟩
    · rw [show lane (finishLane s l r e) m = lane s m from only_finishLane r e (only_refl l s) m hm]
      exact ⟨fun _ hx => hx, fun _ hc => hc⟩

theorem ends_finishAll (s : State) (r : HostRef) (e : HostEnd) : endsOnly s (finishAll s r e) :=
  ends_foldS (fun t l => ends_finishLane t l r e) Lane.list s

/-- No lane keeps a record of the descriptor. -/
def gone (r : HostRef) (s : State) : Prop := ∀ l, ∀ y ∈ (lane s l).mbx.taken, y.ref ≠ r

theorem gone_ends {r : HostRef} {s t : State} (h : gone r s) (k : endsOnly s t) : gone r t := fun l y hy => h l y ((k l).1 y hy)

/-- In its own lane a descriptor that ends leaves no record. -/
theorem finishLane_gone (s : State) (l : Lane) (r : HostRef) (e : HostEnd) : ∀ y ∈ (lane (finishLane s l r e) l).mbx.taken, y.ref ≠ r := by
  cases h : (lane s l).mbx.taken.find? (fun t => decide (t.ref = r)) with
  | none =>
    rw [finishLane_none h]
    intro y hy
    exact of_decide_eq_false (Bool.eq_false_of_not_eq_true (List.find?_eq_none.1 h y hy))
  | some t => exact fun y hy => ((finishLane_taken h e).1 y hy).2

theorem gone_finishAll (s : State) (r : HostRef) (e : HostEnd) : gone r (finishAll s r e) := fun l => by
  have later := fun (u : State) (m : Lane) => ends_finishLane u m r e
  have once := fun (u : State) => finishLane_gone u l r e
  show ∀ y ∈ (lane (finishLane (finishLane (finishLane s .A r e) .B r e) .C r e) l).mbx.taken, y.ref ≠ r
  cases l
  · exact fun y hy => once s y ((later _ .B .A).1 y ((later _ .C .A).1 y hy))
  · exact fun y hy => once _ y ((later _ .C .B).1 y hy)
  · exact once _

/-- The descriptors of a list end with ABORTED. -/
def abortEach (xs : List (HostRef × BitVec 512)) (s : State) : State := foldS xs (fun s e => finishAll s e.1 (aborted e.1 e.2)) s

theorem ends_abortEach (xs : List (HostRef × BitVec 512)) (s : State) : endsOnly s (abortEach xs s) := by
  unfold abortEach
  refine ends_foldS (fun t e => ?_) xs s
  exact ends_finishAll t e.1 _

theorem gone_abortEach (xs : List (HostRef × BitVec 512)) (s : State) {x : HostRef × BitVec 512} (hx : x ∈ xs) : gone x.1 (abortEach xs s) := by
  induction xs generalizing s with
  | nil => cases hx
  | cons a xs ih =>
    show gone x.1 (abortEach xs (finishAll s a.1 (aborted a.1 a.2)))
    obtain rfl | hx := List.mem_cons.1 hx
    · exact gone_ends (gone_finishAll s x.1 _) (ends_abortEach xs _)
    · exact ih _ hx

theorem ends_abortAll (s : State) (f : Taken → Bool) : endsOnly s (abortAll s f) := ends_abortEach (unbatched s f) s

/-- After ABORTED only descriptors that have joined a batch are left of those aborted (R301, R322). -/
theorem abortAll_batched (s : State) (f : Taken → Bool) (l : Lane) {x : Taken} (hx : x ∈ (lane (abortAll s f) l).mbx.taken) (hf : f x = true) :
    x.inBatch = true := by
  by_contra hb
  have hmem : (x.ref, x.desc) ∈ unbatched s f := by
    unfold unbatched
    rw [List.mem_eraseDups, List.mem_flatMap]
    refine ⟨l, mem_laneList l, List.mem_map.2 ⟨x, List.mem_filter.2 ⟨(ends_abortAll s f l).1 x hx, ?_⟩, rfl⟩⟩
    rw [hf, Bool.eq_false_of_not_eq_true hb]
    rfl
  exact gone_abortEach (unbatched s f) s hmem l x hx rfl

/-! ### Links (R295, R322, R364, R503) -/

/-- A level that is asserted at a source that is used shows there (R366). -/
theorem eicLevel_asserted {s : State} {l : Lane} {n : Nat} (ho : eicOpen s l = true) (hu : eicUsed n = true) :
    (source (eicLevel s l n true) l n).level = true := by
  have h := eicUpd_src s l n n (fun x => if true && !x.level then { srcArrive x with level := true } else { x with level := true })
  rw [if_pos ⟨rfl, hu⟩] at h
  obtain ⟨mv, h⟩ := h
  unfold eicLevel source
  rw [if_pos ho, h]
  dsimp only
  split <;> rfl

/-- The sources of LINK_DOWN are used (R364). -/
theorem linkSource_used (p : Port) : eicUsed (102 + p.idx) = true := by cases p <;> decide

theorem ports_modPort_self (s : State) (p : Port) (f : PortState → PortState) : (modPort s p f).ports.get p = f (s.ports.get p) := by
  rw [ports_get_modPort, if_pos rfl]

/-- What a link that goes down leaves (R322, R364, R368): its port shows it and sends nothing more, the other one at most the vector of
LINK_DOWN, which asserts where the ring lane takes arrivals. -/
theorem portDown_shows (s : State) (p : Port) :
    (portDown s p).ports.get p = { s.ports.get p with linkUp := false, speed := 0 } ∧
    (∀ q, q ≠ p → ∃ m k, (portDown s p).ports.get q = { s.ports.get q with msix := m, pba := k }) ∧
    (eicOpen s p.ringLane = true → (source (portDown s p) p.ringLane (102 + p.idx)).level = true) := by
  have down := ports_modPort_self s p (fun x => { x with linkUp := false, speed := 0 })
  refine ⟨?_, fun q hq => ?_, fun ho => eicLevel_asserted ho (linkSource_used p)⟩
  · unfold portDown
    rw [eicLevel_asleep _ _ _ _ (by rw [down]), down]
  · obtain ⟨m, k, e⟩ := vectors_eicLevel (modPort s p (fun x => { x with linkUp := false, speed := 0 })) p.ringLane (102 + p.idx) true q
    rw [ports_modPort_other _ _ hq] at e
    exact ⟨m, k, e⟩

theorem linkDown_row (s : State) (p : Port) (b : Bool) : ∃ t, exec (.linkDown ⟨p, b⟩) s = .next t ∧ changesOnly [.eic, .ports] s t ∧
    (∀ q, q ≠ p → ∃ m k, t.ports.get q = { s.ports.get q with msix := m, pba := k }) ∧
    (∃ m k, t.ports.get p = { s.ports.get p with linkUp := false, speed := 0, d3hot := b, msix := m, pba := k }) ∧
    (runs s p.ringLane = true → inLogicBist s p.ringLane = false → (source t p.ringLane (102 + p.idx)).level = true) := by
  obtain ⟨own, others, level⟩ := portDown_shows (modPort s p (fun y => { y with d3hot := b })) p
  refine ⟨_, rfl, chg_execLinkDown ⟨p, b⟩ s s (by decide) (changesOnly_refl _ s), fun q hq => ?_, ?_, fun hr hb => level ?_⟩
  · obtain ⟨m, k, e⟩ := others q hq
    rw [ports_modPort_other _ _ hq] at e
    exact ⟨m, k, e⟩
  · rw [ports_modPort_self] at own
    exact ⟨_, _, own⟩
  · show (runs s p.ringLane && !inLogicBist s p.ringLane) = true
    rw [hr, hb]
    rfl

theorem perstN_row (s : State) (p : Port) : ∃ t, exec (.perstN p) s = .next t ∧ changesOnly [.eic, .ports] s t ∧
    ∃ m, t.ports.get p = { s.ports.get p with perst := true, linkUp := false, speed := 0, d3hot := false, msix := m
                                              msixWords := [], msixOpen := 0, pba := 0, devErr := 0, aerUncorrectable := 0
                                              aerCorrectable := 0 } := by
  refine ⟨_, rfl, chg_execPerstN p s s (by decide) (changesOnly_refl _ s), (s.ports.get p).msix, ?_⟩
  rw [(portDown_shows _ p).1, ports_modPort_self]

/-- The port as its link comes up (R326). -/
def linkedPort (v : BitVec 2) (x : PortState) : PortState := { x with linkUp := true, speed := v, perst := false, d3hot := false }

theorem exec_linkUp {s : State} {p : Port} {v : BitVec 2} (hr : runs s p.ringLane = true) (hv : v ≠ 0) : exec (.linkUp p v) s =
    .next (modLanes (eicLevel (modPort s p (linkedPort v)) p.ringLane (102 + p.idx) false)
      (fun _ L => { L with eic := { L.eic with moving := L.eic.moving.set p false } })) := by
  refine congrArg Host.Outcome.next (if_neg ?_)
  unfold ringRuns
  rw [hr, decide_eq_false hv]
  exact Bool.false_ne_true

theorem linkUp_row {s : State} {p : Port} {v : BitVec 2} (hr : runs s p.ringLane = true) (hv : v ≠ 0) :
    ∃ t, exec (.linkUp p v) s = .next t ∧ changesOnly [.eic, .ports] s t ∧
      (∃ m k, t.ports.get p = { s.ports.get p with linkUp := true, speed := v, perst := false, d3hot := false, msix := m, pba := k }) ∧
      ∀ l, (lane t l).eic.moving.get p = false := by
  have run := exec_linkUp hr hv
  refine ⟨_, run, frame_next run (chg_execLinkUp p v s s (by decide) (changesOnly_refl _ s)), ?_, fun l => ?_⟩
  · obtain ⟨m, k, e⟩ := vectors_eicLevel (modPort s p (linkedPort v)) p.ringLane (102 + p.idx) false p
    rw [ports_modPort_self] at e
    exact ⟨m, k, e⟩
  · rw [lane_modLanes]
    cases p <;> rfl

/-! ### LINK_HOLD expires (R322) -/

/-- What LINK_HOLD leaves of a submission ring (R322). -/
def heldSq (r : Ring) : Ring := if r.enabled then { r with enabled := false, halt := .linkHold, kept := false, fenced := none, half := none } else r

/-- What it leaves of a port. -/
def heldPort (x : PortState) : PortState :=
  { x with holdExpired := true, sqs := smap Ring.reset heldSq x.sqs, cqs := smap Ring.reset (fun r => { r with enabled := false }) x.cqs }

/-- The descriptors of the port are aborted. -/
def portAborted (s : State) (p : Port) : State := abortAll s (fun t => decide (t.ref.port = p))

theorem exec_holdExpired {s : State} {p : Port} (hd : (s.ports.get p).linkUp = false) (hr : runs s p.ringLane = true) :
    ∃ bs, exec (.holdExpired p) s = .next (eventLane (modPort (portAborted s p) p heldPort) p.ringLane (104 + p.idx) 0x0502 bs) := by
  refine ⟨_, congrArg Host.Outcome.next (if_neg ?_)⟩
  unfold ringRuns
  rw [hd, hr]
  exact Bool.false_ne_true

theorem holdExpired_row {s : State} {p : Port} (hd : (s.ports.get p).linkUp = false) (hr : runs s p.ringLane = true) :
    ∃ t, exec (.holdExpired p) s = .next t ∧
      changesOnly (records ++ [.mbx]) s t ∧ (t.ports.get p).holdExpired = true ∧ onlyBatched t (fun r => r.port = p) ∧
      (∀ q, sqOf t p q = heldSq (sqOf s p q)) ∧ (∀ q, cqOf t p q = { cqOf s p q with enabled := false }) ∧
      ∀ l, ∀ c ∈ (lane s l).mbx.composed, c ∈ (lane t l).mbx.composed := by
  obtain ⟨bs, run⟩ := exec_holdExpired hd hr
  have aborts : changesOnly [.mbx] s (portAborted s p) := chg_abortAll s _ (by decide) (changesOnly_refl _ s)
  have event := chg_eventLane (modPort (portAborted s p) p heldPort) p.ringLane (104 + p.idx) 0x0502 bs (by decide) (changesOnly_refl records _)
  have sends := vectors_eventLane (modPort (portAborted s p) p heldPort) p.ringLane (104 + p.idx) 0x0502 bs
  have own := ports_modPort_self (portAborted s p) p heldPort
  rw [ports_of aborts] at own
  refine ⟨_, run, frame_next run (chg_execHoldExpired p s s (by decide) (changesOnly_refl _ s)), ?_, fun l x hx hp => ?_, fun q => ?_,
    fun q => ?_, fun l c hc => ?_⟩
  · obtain ⟨m, k, e⟩ := sends p
    rw [e, own]
    rfl
  · rw [mbx_of event] at hx
    exact abortAll_batched s (fun t => decide (t.ref.port = p)) l hx (decide_eq_true hp)
  · rw [sqOf_vectors sends]
    unfold sqOf
    rw [own]
    exact sget_smap Ring.reset heldSq (s.ports.get p).sqs q rfl
  · rw [cqOf_vectors sends]
    unfold cqOf
    rw [own]
    exact sget_smap Ring.reset (fun r => { r with enabled := false }) (s.ports.get p).cqs q rfl
  · rw [mbx_of event]
    exact (ends_abortAll s (fun t => decide (t.ref.port = p)) l).2 c hc

/-! ### The statement -/

/-- Settles O45: a link that goes down only shows it and asserts LINK_DOWN; LINK_HOLD aborts what no batch holds and disables every ring. -/
theorem portLinks : Obligations.PortLinks := by
  intro s p
  refine ⟨linkDown_row s p, perstN_row s p, fun v h => ?_, fun v => linkUp_row, fun h => ?_, fun hd hr => ?_⟩
  · refine congrArg Host.Outcome.next (if_pos ?_)
    obtain hr | hv := h
    · simp [ringRuns, hr]
    · simp [hv]
  · refine congrArg Host.Outcome.next (if_pos ?_)
    obtain hu | hr := h
    · simp [hu]
    · simp [ringRuns, hr]
  · obtain ⟨t, run, frame, held, batched, sqs, cqs, composed⟩ := holdExpired_row hd hr
    refine ⟨t, run, frame, held, batched, fun q on => ?_, fun q off => ?_, cqs, composed⟩
    · rw [sqs]
      unfold heldSq
      rw [if_pos on]
      exact ⟨rfl, rfl⟩
    · rw [sqs]
      exact if_neg (by rw [off]; exact Bool.false_ne_true)

end Sys2Proof.Laws

/-! ## Host ports: doorbells, ring set-up and coalesced vectors (R300 to R302, R324, R327, R466) -/

namespace Sys2Proof.Laws

open Sys2Proof Sys2Proof.Machine Sys2Proof.Safety

/-! ### A change of one ring -/

/-- What a change of one submission ring leaves. -/
theorem modSq_shows (s : State) (p : Port) (q : Nat) (f : Ring → Ring) : changesOnly [.ports] s (modSq s p q f) ∧
    sqOf (modSq s p q f) p q = f (sqOf s p q) ∧ (∀ m, m ≠ q → sqOf (modSq s p q f) p m = sqOf s p m) ∧
    (∀ m, cqOf (modSq s p q f) p m = cqOf s p m) ∧ ∀ r, r ≠ p → (modSq s p q f).ports.get r = s.ports.get r :=
  ⟨chg_modSq s p q f (by decide) (changesOnly_refl _ s), sqOf_modSq_self s p q f, fun _ => sqOf_modSq_other s p f,
    fun m => cqOf_modSq s p p q m f, fun _ => ports_modPort_other s _⟩

/-- What a change of one completion ring leaves. -/
theorem modCq_shows (s : State) (p : Port) (q : Nat) (f : Ring → Ring) : changesOnly [.ports] s (modCq s p q f) ∧
    cqOf (modCq s p q f) p q = f (cqOf s p q) ∧ (∀ m, m ≠ q → cqOf (modCq s p q f) p m = cqOf s p m) ∧
    (∀ m, sqOf (modCq s p q f) p m = sqOf s p m) ∧ ∀ r, r ≠ p → (modCq s p q f).ports.get r = s.ports.get r :=
  ⟨chg_modCq s p q f (by decide) (changesOnly_refl _ s), cqOf_modCq_self s p q f, fun _ => cqOf_modCq_other s p f,
    fun m => sqOf_modCq s p p q m f, fun _ => ports_modPort_other s _⟩

section
variable {s : State} {p : Port}

/-! ### Doorbells (R302, R322, R466) -/

/-- Without a link, and while its ring lane tests itself, a port takes no doorbell. -/
theorem doorbells_unheard (h : (s.ports.get p).linkUp = false ∨ portSilent s p = true) (q : Fin 16) (v : Word) :
    exec (.sqTailDoorbell p q v) s = .next s ∧ exec (.cqHeadDoorbell p q v) s = .next s := by
  have unheard : (!(s.ports.get p).linkUp || portSilent s p) = true := by
    obtain h | h := h
    · rw [h]; rfl
    · rw [h, Bool.or_true]
  exact ⟨congrArg Host.Outcome.next (if_pos unheard), congrArg Host.Outcome.next (if_pos unheard)⟩

/-- A doorbell is ignored that names a disabled ring, or an index outside it (R302). -/
theorem doorbell_ignored (r : Ring) (i : Nat) : (!r.enabled || decide (i ≥ ringSize r)) = true ↔ ¬ (r.enabled = true ∧ i < ringSize r) := by
  simp [Classical.or_iff_not_imp_left]

theorem doorbell_refused {r : Ring} {i : Nat} (h : r.enabled = false ∨ ringSize r ≤ i) : ¬ (r.enabled = true ∧ i < ringSize r) := by
  rintro ⟨on, inside⟩
  obtain off | out := h
  · rw [off] at on
    cases on
  · exact Nat.not_lt.2 out inside

section
variable (hu : (s.ports.get p).linkUp = true) (hs : portSilent s p = false) (q : Fin 16) (v : Word)
include hu hs

theorem doorbell_heard : ¬ (!(s.ports.get p).linkUp || portSilent s p) = true := by
  rw [hu, hs]
  exact Bool.false_ne_true

theorem exec_sqTailDoorbell : exec (.sqTailDoorbell p q v) s =
    .next (if (sqOf s p q.val).enabled = true ∧ (doorIndex v).toNat < ringSize (sqOf s p q.val) then
        modSq s p q.val (fun x => { x with tail := doorIndex v })
      else countDoorbell s p) :=
  congrArg Host.Outcome.next ((if_neg (doorbell_heard hu hs)).trans ((if_congr (doorbell_ignored _ _) rfl rfl).trans (ite_not ..)))

theorem exec_cqHeadDoorbell : exec (.cqHeadDoorbell p q v) s =
    .next (if (cqOf s p q.val).enabled = true ∧ (doorIndex v).toNat < ringSize (cqOf s p q.val) then
        modCq s p q.val (fun x => { x with head := doorIndex v })
      else countDoorbell s p) :=
  congrArg Host.Outcome.next ((if_neg (doorbell_heard hu hs)).trans ((if_congr (doorbell_ignored _ _) rfl rfl).trans (ite_not ..)))

end

/-! ### A ring is enabled (R300, R301, R327) -/

theorem field_lt {w : Nat} (v : BitVec w) (hi lo : Nat) : field v hi lo < 2 ^ (hi + 1 - lo) := Nat.mod_lt _ (Nat.two_pow_pos _)

theorem sizeOk_iff (ctrl : Word) : sizeOk ctrl = true ↔ 4 ≤ field ctrl 7 4 ∧ field ctrl 7 4 ≤ 12 := by simp [sizeOk]

theorem sizeOk_false {ctrl : Word} (h : field ctrl 7 4 < 4 ∨ 12 < field ctrl 7 4) : sizeOk ctrl = false :=
  Bool.eq_false_iff.2 fun ok => by
    obtain ⟨low, high⟩ := (sizeOk_iff ctrl).1 ok
    omega

/-- A port without its ring lane, or whose ring lane tests itself, takes no set-up of a ring. -/
theorem setup_unheard (h : runs s p.ringLane = false ∨ portSilent s p = true) (k : RingKind) (q : Fin 16) (ctrl : Word) :
    exec (.ringEnable p k q ctrl) s = .next s ∧ exec (.ringDisable p k q) s = .next s := by
  have unheard : (!ringRuns s p || portSilent s p) = true := by
    unfold ringRuns
    obtain h | h := h
    · rw [h]; rfl
    · rw [h, Bool.or_true]
  exact ⟨congrArg Host.Outcome.next (if_pos unheard), congrArg Host.Outcome.next (if_pos unheard)⟩

/-- A ring that is enabled is not set up again. -/
theorem ringEnable_enabled {k : RingKind} {q : Fin 16} (h : (k = .sq ∧ (sqOf s p q.val).enabled = true) ∨ (k = .cq ∧ (cqOf s p q.val).enabled = true))
    (ctrl : Word) : exec (.ringEnable p k q ctrl) s = .next s := by
  refine congrArg Host.Outcome.next ?_
  split
  · rfl
  · obtain ⟨rfl, h⟩ | ⟨rfl, h⟩ := h
    · exact if_pos h
    · exact if_pos h

/-- The submission ring as it is enabled, halted or not. -/
def sqSetUp (s : State) (p : Port) (q : Nat) (ctrl : Word) (halt : HaltCause) : State :=
  modPort (modSq (modSq s p q (ringFields .sq ctrl)) p q (fun r => ringOn r halt)) p (fun x => { x with holdExpired := false })

/-- The completion ring as it is enabled. -/
def cqSetUp (s : State) (p : Port) (q : Nat) (ctrl : Word) : State :=
  modPort (modCq (modCq s p q (ringFields .cq ctrl)) p q (fun r => ringOn r .none)) p (fun x => { x with holdExpired := false })

theorem sqOf_sqSetUp (s : State) (p : Port) (q m : Nat) (ctrl : Word) (halt : HaltCause) : sqOf (sqSetUp s p q ctrl halt) p m =
    if m = q then ringOn (ringFields .sq ctrl (sqOf s p q)) halt else sqOf s p m := by
  unfold sqSetUp
  rw [sqOf_modPort _ _ _ _ (by exact fun _ => rfl), sqOf_modSq, sqOf_modSq_self]
  split
  · rfl
  · next h => exact sqOf_modSq_other s p _ h

theorem cqOf_cqSetUp (s : State) (p : Port) (q m : Nat) (ctrl : Word) : cqOf (cqSetUp s p q ctrl) p m =
    if m = q then ringOn (ringFields .cq ctrl (cqOf s p q)) .none else cqOf s p m := by
  unfold cqSetUp
  rw [cqOf_modPort _ _ _ _ (by exact fun _ => rfl), cqOf_modCq, cqOf_modCq_self]
  split
  · rfl
  · next h => exact cqOf_modCq_other s p _ h

/-- A ring has the size that its set-up names (R300). -/
theorem ringSize_fields {ctrl : Word} {r : Ring} {halt : HaltCause} (h : field ctrl 7 4 ≤ 12) :
    ringSize (ringOn (ringFields .sq ctrl r) halt) = 2 ^ field ctrl 7 4 := congrArg (2 ^ ·) (Nat.mod_eq_of_lt (by omega))

theorem cqSetUp_frame (s : State) (p : Port) (q : Nat) (ctrl : Word) : changesOnly [.ports] s (cqSetUp s p q ctrl) :=
  changes_modPort p _ rfl (chg_modCq _ p q _ (by decide) (chg_modCq s p q _ (by decide) (changesOnly_refl _ s)))

theorem vectors_sqHalted (s : State) (p : Port) : vectorsOnly s (sqHalted s p) := vectors_eicRaise s _ _

section
variable (hr : runs s p.ringLane = true) (hs : portSilent s p = false) {q : Fin 16} (ctrl : Word)
include hr hs

theorem setup_heard : ¬ (!ringRuns s p || portSilent s p) = true := by
  unfold ringRuns
  rw [hr, hs]
  exact Bool.false_ne_true

/-- An SQ is set up: with a size outside R300 it stays disabled, and without an enabled CQ it halts with SETUP. -/
theorem exec_ringEnable_sq (off : (sqOf s p q.val).enabled = false) :
    (sizeOk ctrl = false → exec (.ringEnable p .sq q ctrl) s = .next (modSq s p q.val (ringFields .sq ctrl))) ∧
    (sizeOk ctrl = true → ∃ t, exec (.ringEnable p .sq q ctrl) s = .next t ∧
      vectorsOnly (sqSetUp s p q.val ctrl (if (cqOf s p (field ctrl 11 8)).enabled then .none else .setup)) t) := by
  have start : ∀ t, (if !sizeOk ctrl then modSq s p q.val (ringFields .sq ctrl)
      else if !(cqOf s p (field ctrl 11 8)).enabled then
        sqHalted (sqSetUp s p q.val ctrl (if !(cqOf s p (field ctrl 11 8)).enabled then .setup else .none)) p
      else sqSetUp s p q.val ctrl (if !(cqOf s p (field ctrl 11 8)).enabled then .setup else .none)) = t →
      exec (.ringEnable p .sq q ctrl) s = .next t := fun t ht => by
    rw [← ht]
    exact congrArg Host.Outcome.next ((if_neg (setup_heard hr hs)).trans (if_neg (by rw [off]; exact Bool.false_ne_true)))
  refine ⟨fun bad => start _ (by rw [bad]; rfl), fun good => ?_⟩
  rw [good] at start
  cases hc : (cqOf s p (field ctrl 11 8)).enabled with
  | true =>
    rw [hc] at start
    exact ⟨_, start _ rfl, vectors_refl _⟩
  | false =>
    rw [hc] at start
    exact ⟨_, start _ rfl, vectors_sqHalted _ p⟩

/-- A CQ is set up: with a size outside R300 it stays disabled. -/
theorem exec_ringEnable_cq (off : (cqOf s p q.val).enabled = false) : exec (.ringEnable p .cq q ctrl) s =
    .next (if sizeOk ctrl then cqSetUp s p q.val ctrl else modCq s p q.val (ringFields .cq ctrl)) := by
  refine congrArg Host.Outcome.next ((if_neg (setup_heard hr hs)).trans ((if_neg (by rw [off]; exact Bool.false_ne_true)).trans ?_))
  cases sizeOk ctrl <;> rfl

/-! ### A ring is disabled (R301) -/

theorem exec_ringDisable_sq (on : (sqOf s p q.val).enabled = true) : exec (.ringDisable p .sq q) s = .next (disableSq s p q.val .none) :=
  congrArg Host.Outcome.next ((if_neg (setup_heard hr hs)).trans (if_pos on))

end

/-- Where an SQ is bound to a CQ that is disabled, it halts with SETUP (R301). -/
def unbind (p : Port) (q : Nat) (s : State) (i : Nat) : State :=
  if (sqOf s p i).enabled && decide ((sqOf s p i).cq.toNat = q) && decide ((sqOf s p i).halt ≠ .setup) then
    sqHalted (modSq s p i (fun r => { r with halt := .setup })) p
  else s

/-- What is left of the ring then. -/
def unboundSq (q : Nat) (r : Ring) : Ring := if r.enabled = true ∧ r.cq.toNat = q then { r with halt := .setup } else r

theorem unboundSq_idem (q : Nat) (r : Ring) : unboundSq q (unboundSq q r) = unboundSq q r := by
  unfold unboundSq
  split
  · rfl
  · rfl

theorem unbind_rings (p : Port) (q : Nat) (s : State) (i m : Nat) :
    sqOf (unbind p q s i) p m = (if m = i then unboundSq q (sqOf s p m) else sqOf s p m) ∧ cqOf (unbind p q s i) p m = cqOf s p m := by
  unfold unbind
  split
  · next h =>
    simp only [Bool.and_eq_true, decide_eq_true_eq] at h
    rw [sqOf_vectors (vectors_sqHalted _ p), cqOf_vectors (vectors_sqHalted _ p), cqOf_modSq, sqOf_modSq]
    refine ⟨?_, rfl⟩
    split
    · next hm => rw [hm]; exact (if_pos h.1).symm
    · rfl
  · next h =>
    refine ⟨?_, rfl⟩
    split
    · next hm =>
      rw [hm]
      unfold unboundSq
      split
      · next hb =>
        have halted : (sqOf s p i).halt = .setup := by
          by_contra hn
          exact h (by rw [hb.1, decide_eq_true hb.2, decide_eq_true hn]; rfl)
        rw [← halted]
      · rfl
    · rfl

theorem unbind_all (p : Port) (q : Nat) (xs : List Nat) (s : State) (m : Nat) :
    sqOf (foldS xs (unbind p q) s) p m = (if m ∈ xs then unboundSq q (sqOf s p m) else sqOf s p m) ∧
    cqOf (foldS xs (unbind p q) s) p m = cqOf s p m := by
  unfold foldS
  induction xs generalizing s with
  | nil => exact ⟨rfl, rfl⟩
  | cons i xs ih =>
    rw [List.foldl_cons, (ih _).1, (ih _).2, (unbind_rings p q s i m).1, (unbind_rings p q s i m).2]
    refine ⟨?_, rfl⟩
    by_cases hi : m = i
    · have hm : m ∈ i :: xs := by rw [hi]; exact List.mem_cons_self
      rw [if_pos hi, if_pos hm, unboundSq_idem, ite_self]
    · rw [if_neg hi]
      simp only [List.mem_cons, hi, false_or]

theorem unbind_frame (p : Port) (q : Nat) (xs : List Nat) (s : State) : changesOnly [.eic, .ports] s (foldS xs (unbind p q) s) :=
  changes_foldS xs _ (fun t i h => by
    unfold unbind
    split
    · exact chg_sqHalted _ p (by decide) (chg_modSq t p i _ (by decide) h)
    · exact h) (changesOnly_refl _ s)

theorem exec_ringDisable_cq (hr : runs s p.ringLane = true) (hs : portSilent s p = false) {q : Fin 16} (on : (cqOf s p q.val).enabled = true) :
    exec (.ringDisable p .cq q) s =
      .next (foldS (List.range 16) (unbind p q.val) (modCq s p q.val (fun r => { r with enabled := false }))) :=
  congrArg Host.Outcome.next ((if_neg (setup_heard hr hs)).trans (if_neg (by rw [on]; exact Bool.false_ne_true)))

theorem disableSq_shows (s : State) (p : Port) (q : Fin 16) : changesOnly [.mbx, .ports] s (disableSq s p q.val .none) ∧
    (sqOf (disableSq s p q.val .none) p q.val).enabled = false ∧ (sqOf (disableSq s p q.val .none) p q.val).halt = .none ∧
    (∀ m, m ≠ q.val → sqOf (disableSq s p q.val .none) p m = sqOf s p m) ∧
    onlyBatched (disableSq s p q.val .none) (fun r => r.port = p ∧ r.sq = q) := by
  have aborts := chg_abortAll s (fun t => decide (t.ref.port = p) && decide (t.ref.sq.val = q.val)) (by decide) (changesOnly_refl [.mbx] s)
  refine ⟨chg_disableSq s p q.val .none (by decide) (changesOnly_refl _ s), ?_, ?_, fun m hm => ?_, fun l x hx hf => ?_⟩
  · exact congrArg Ring.enabled (sqOf_modSq_self _ p q.val _)
  · exact congrArg Ring.halt (sqOf_modSq_self _ p q.val _)
  · exact (sqOf_modSq_other _ p _ hm).trans (sqOf_of aborts rfl p m)
  · exact abortAll_batched s _ l hx (by rw [hf.1, hf.2]; simp)

/-! ### A coalesced vector (R324) -/

theorem exec_coalesceExpiry {q : Fin 16} (due : (cqOf s p q.val).unsignalled = true) (hu : (s.ports.get p).linkUp = true)
    (hr : runs s p.ringLane = true) :
    exec (.coalesceExpiry p q) s = .next (sendVector (modCq s p q.val (fun r => { r with unsignalled := false })) p q.val) := by
  refine congrArg Host.Outcome.next (if_pos ?_)
  unfold ringRuns
  rw [due, hu, hr]
  rfl

/-- What sending a vector shows at its port: the vector itself, or its pending bit where the host has masked it. -/
theorem sendVector_port (s : State) (p : Port) {v : Nat} (hv : v < 32) :
    ((s.ports.get p).msixOpen.getLsbD v = true → ((sendVector s p v).ports.get p).msix = BitVec.ofNat 5 v :: (s.ports.get p).msix ∧
      ((sendVector s p v).ports.get p).pba = (s.ports.get p).pba) ∧
    ((s.ports.get p).msixOpen.getLsbD v = false → ((sendVector s p v).ports.get p).msix = (s.ports.get p).msix ∧
      ∀ i, ((sendVector s p v).ports.get p).pba.getLsbD i = (decide (i = v) || (s.ports.get p).pba.getLsbD i)) := by
  unfold sendVector
  rw [ports_modPort_self]
  unfold putVector
  refine ⟨fun is_open => ?_, fun masked => ?_⟩
  · rw [if_pos is_open]
    exact ⟨rfl, rfl⟩
  · rw [masked, if_neg Bool.false_ne_true]
    refine ⟨rfl, fun i => ?_⟩
    dsimp only
    by_cases hi : i = v
    · rw [hi, vput_self _ hv, decide_eq_true rfl, Bool.true_or]
    · rw [vput_other _ _ hi, decide_eq_false hi, Bool.false_or]

end

/-! ### The rows of the ring commands -/

section
variable {s : State} {p : Port} {q : Fin 16}

/-- A doorbell of a ring that takes it moves one index of that ring; any other one is only counted (R302). -/
theorem doorbell_rows (hu : (s.ports.get p).linkUp = true) (hs : portSilent s p = false) (v : Word) :
    ((sqOf s p q.val).enabled = true → (doorIndex v).toNat < ringSize (sqOf s p q.val) →
      exec (.sqTailDoorbell p q v) s = .next (modSq s p q.val (fun x => { x with tail := doorIndex v }))) ∧
    ((cqOf s p q.val).enabled = true → (doorIndex v).toNat < ringSize (cqOf s p q.val) →
      exec (.cqHeadDoorbell p q v) s = .next (modCq s p q.val (fun x => { x with head := doorIndex v }))) ∧
    ((sqOf s p q.val).enabled = false ∨ ringSize (sqOf s p q.val) ≤ (doorIndex v).toNat →
      exec (.sqTailDoorbell p q v) s = .next (countDoorbell s p)) ∧
    ((cqOf s p q.val).enabled = false ∨ ringSize (cqOf s p q.val) ≤ (doorIndex v).toNat →
      exec (.cqHeadDoorbell p q v) s = .next (countDoorbell s p)) := by
  rw [exec_sqTailDoorbell hu hs, exec_cqHeadDoorbell hu hs]
  exact ⟨fun on inside => by rw [if_pos ⟨on, inside⟩], fun on inside => by rw [if_pos ⟨on, inside⟩],
    fun bad => by rw [if_neg (doorbell_refused bad)], fun bad => by rw [if_neg (doorbell_refused bad)]⟩

section
variable (hr : runs s p.ringLane = true) (hs : portSilent s p = false) (ctrl : Word)
include hr hs

theorem sqEnable_bad (off : (sqOf s p q.val).enabled = false) (h : field ctrl 7 4 < 4 ∨ 12 < field ctrl 7 4) :
    ∃ t, exec (.ringEnable p .sq q ctrl) s = .next t ∧ changesOnly [.ports] s t ∧ (sqOf t p q.val).enabled = false ∧
      (sqOf t p q.val).sizeLog2 = BitVec.ofNat 4 (field ctrl 7 4) := by
  obtain ⟨frame, own, -⟩ := modSq_shows s p q.val (ringFields .sq ctrl)
  exact ⟨_, (exec_ringEnable_sq hr hs ctrl off).1 (sizeOk_false h), frame, by rw [own]; exact off, by rw [own]; rfl⟩

theorem sqEnable_good (off : (sqOf s p q.val).enabled = false) (low : 4 ≤ field ctrl 7 4) (high : field ctrl 7 4 ≤ 12) :
    ∃ t, exec (.ringEnable p .sq q ctrl) s = .next t ∧ changesOnly [.eic, .ports] s t ∧ (sqOf t p q.val).enabled = true ∧
      (sqOf t p q.val).head = 0 ∧ (sqOf t p q.val).tail = 0 ∧ ringSize (sqOf t p q.val) = 2 ^ field ctrl 7 4 ∧
      (sqOf t p q.val).cq.toNat = field ctrl 11 8 ∧
      (sqOf t p q.val).halt = (if (cqOf s p (field ctrl 11 8)).enabled then .none else .setup) ∧ ∀ m, m ≠ q.val → sqOf t p m = sqOf s p m := by
  obtain ⟨t, run, sends⟩ := (exec_ringEnable_sq hr hs ctrl off).2 ((sizeOk_iff ctrl).2 ⟨low, high⟩)
  have rings := fun m => (sqOf_vectors sends p m).trans (sqOf_sqSetUp s p q.val m ctrl _)
  refine ⟨t, run, frame_next run (chg_execRingEnable p .sq q ctrl s s (by decide) (changesOnly_refl _ s)), ?_⟩
  rw [(rings q.val).trans (if_pos rfl)]
  exact ⟨rfl, rfl, rfl, ringSize_fields high, Nat.mod_eq_of_lt (field_lt ctrl 11 8), rfl, fun m hm => (rings m).trans (if_neg hm)⟩

theorem cqEnable_bad (off : (cqOf s p q.val).enabled = false) (h : field ctrl 7 4 < 4 ∨ 12 < field ctrl 7 4) :
    ∃ t, exec (.ringEnable p .cq q ctrl) s = .next t ∧ changesOnly [.ports] s t ∧ (cqOf t p q.val).enabled = false := by
  have run := exec_ringEnable_cq hr hs ctrl off
  rw [sizeOk_false h, if_neg Bool.false_ne_true] at run
  obtain ⟨frame, own, -⟩ := modCq_shows s p q.val (ringFields .cq ctrl)
  exact ⟨_, run, frame, by rw [own]; exact off⟩

theorem cqEnable_good (off : (cqOf s p q.val).enabled = false) (low : 4 ≤ field ctrl 7 4) (high : field ctrl 7 4 ≤ 12) :
    ∃ t, exec (.ringEnable p .cq q ctrl) s = .next t ∧ changesOnly [.ports] s t ∧ (cqOf t p q.val).enabled = true ∧
      (cqOf t p q.val).head = 0 ∧ (cqOf t p q.val).tail = 0 ∧ (cqOf t p q.val).phase = true ∧
      (cqOf t p q.val).coalesce.toNat = min (field ctrl 25 16) 1000 ∧ (cqOf t p q.val).irqEn = ctrl.getLsbD 12 ∧
      ∀ m, m ≠ q.val → cqOf t p m = cqOf s p m := by
  have run := exec_ringEnable_cq hr hs ctrl off
  rw [(sizeOk_iff ctrl).2 ⟨low, high⟩, if_pos rfl] at run
  have rings := fun m => cqOf_cqSetUp s p q.val m ctrl
  refine ⟨_, run, cqSetUp_frame s p q.val ctrl, ?_⟩
  rw [(rings q.val).trans (if_pos rfl)]
  exact ⟨rfl, rfl, rfl, rfl, Nat.mod_eq_of_lt (by omega), rfl, fun m hm => (rings m).trans (if_neg hm)⟩

omit ctrl in
/-- The SQs bound to a CQ that is disabled halt with SETUP (R301). -/
theorem cqDisable_row (on : (cqOf s p q.val).enabled = true) : ∃ t, exec (.ringDisable p .cq q) s = .next t ∧ changesOnly [.eic, .ports] s t ∧
    cqOf t p q.val = { cqOf s p q.val with enabled := false } ∧ (∀ m, m ≠ q.val → cqOf t p m = cqOf s p m) ∧
    ∀ m, m < 16 → sqOf t p m = unboundSq q.val (sqOf s p m) := by
  have rings := unbind_all p q.val (List.range 16) (modCq s p q.val (fun r => { r with enabled := false }))
  obtain ⟨frame, own, others, sqs, -⟩ := modCq_shows s p q.val (fun r => { r with enabled := false })
  refine ⟨_, exec_ringDisable_cq hr hs on,
    changes_step (by decide) (unbind_frame p q.val _ _) (changes_step (by decide) frame (changesOnly_refl _ s)),
    (rings q.val).2.trans own, fun m hm => (rings m).2.trans (others m hm), fun m hm => ?_⟩
  rw [(rings m).1, if_pos (List.mem_range.2 hm), sqs]

end

/-- A coalesced vector that is due goes out, or sets its pending bit where the host has masked it (R324). -/
theorem coalesced_row (due : (cqOf s p q.val).unsignalled = true) (hu : (s.ports.get p).linkUp = true) (hr : runs s p.ringLane = true) :
    ∃ t, exec (.coalesceExpiry p q) s = .next t ∧ changesOnly [.ports] s t ∧ cqOf t p q.val = { cqOf s p q.val with unsignalled := false } ∧
      ((s.ports.get p).msixOpen.getLsbD q.val = true → (t.ports.get p).msix = BitVec.ofNat 5 q.val :: (s.ports.get p).msix ∧
        (t.ports.get p).pba = (s.ports.get p).pba) ∧
      ((s.ports.get p).msixOpen.getLsbD q.val = false → (t.ports.get p).msix = (s.ports.get p).msix ∧
        ∀ i, i < 32 → (t.ports.get p).pba.getLsbD i = (decide (i = q.val) || (s.ports.get p).pba.getLsbD i)) ∧
      (∀ m, m ≠ q.val → cqOf t p m = cqOf s p m) ∧ ∀ m, sqOf t p m = sqOf s p m := by
  obtain ⟨frame, own, others, sqs, -⟩ := modCq_shows s p q.val (fun r => { r with unsignalled := false })
  have sends := vectors_sendVector (modCq s p q.val (fun r => { r with unsignalled := false })) p q.val
  obtain ⟨sent, masked⟩ := sendVector_port (modCq s p q.val (fun r => { r with unsignalled := false })) p (v := q.val) (by omega)
  unfold modCq at sent masked
  rw [ports_modPort_self] at sent masked
  exact ⟨_, exec_coalesceExpiry due hu hr, chg_sendVector _ p q.val (by decide) frame, (cqOf_vectors sends p q.val).trans own, sent,
    fun h => ⟨(masked h).1, fun i _ => (masked h).2 i⟩, fun m hm => (cqOf_vectors sends p m).trans (others m hm),
    fun m => (sqOf_vectors sends p m).trans (sqs m)⟩

end

end Sys2Proof.Laws

/-! ## Host ports: reads that fail, and the statement of rings and doorbells (R295, R300 to R302, R315, R321, R324, R327, R393) -/

namespace Sys2Proof.Laws

open Sys2Proof Sys2Proof.Machine Sys2Proof.Safety

/-! ### Results and records of a descriptor that ends (R315) -/

/-- The bytes of RESULT that a rule gives are those that it gives. -/
theorem resultOf_known (r : HostRef) {n : Nat} (v : Nat) (hn : n ≤ 16) : (resultOf r n v).toNat % 2 ^ (8 * n) = v % 2 ^ (8 * n) := by
  have dvd : 2 ^ (8 * n) ∣ 2 ^ 128 := Nat.pow_dvd_pow 2 (by omega)
  unfold resultOf
  rw [BitVec.toNat_ofNat, Nat.mod_mod_of_dvd _ dvd, Nat.add_mul_mod_self_right, Nat.mod_mod]

/-- A lane that keeps a record of the descriptor composes its completion as it ends. -/
theorem finishLane_composes {s : State} {l : Lane} {y : Taken} (hy : y ∈ (lane s l).mbx.taken) (e : HostEnd) :
    ∃ z ∈ (lane (finishLane s l y.ref e) l).mbx.composed, z.ref = y.ref ∧ z.status = BitVec.ofNat 8 e.status ∧ z.result = e.result := by
  cases h : (lane s l).mbx.taken.find? (fun t => decide (t.ref = y.ref)) with
  | none => exact absurd (decide_eq_true rfl) (List.find?_eq_none.1 h y hy)
  | some t =>
    obtain ⟨-, zs, hz⟩ := finishLane_taken h e
    exact ⟨_, by rw [hz]; exact List.mem_append_right _ List.mem_cons_self, rfl, rfl, rfl⟩

theorem finishAll_composes {s : State} {l : Lane} {y : Taken} (hy : y ∈ (lane s l).mbx.taken) (e : HostEnd) :
    ∃ z ∈ (lane (finishAll s y.ref e) l).mbx.composed, z.ref = y.ref ∧ z.status = BitVec.ofNat 8 e.status ∧ z.result = e.result := by
  have other := fun (u : State) {k : Lane} (h : l ≠ k) => only_finishLane y.ref e (only_refl k u) l h
  show ∃ z ∈ (lane (finishLane (finishLane (finishLane s .A y.ref e) .B y.ref e) .C y.ref e) l).mbx.composed, _
  cases l
  · rw [other _ (by decide), other _ (by decide)]
    exact finishLane_composes hy e
  · rw [other _ (by decide)]
    exact finishLane_composes (by rw [other s (by decide)]; exact hy) e
  · exact finishLane_composes (by rw [other _ (by decide), other s (by decide)]; exact hy) e

/-! ### The next descriptor begins to feed (R393) -/

/-- The turn of the next descriptor changes how far records have come, no more: neither whose they are nor what is composed. -/
theorem beginFeed_mbx (s : State) (p : Port) (q : Nat) (l : Lane) : (lane (beginFeed s p q) l).mbx.composed = (lane s l).mbx.composed ∧
    ∀ y ∈ (lane (beginFeed s p q) l).mbx.taken, ∃ x ∈ (lane s l).mbx.taken, x.ref = y.ref := by
  unfold beginFeed
  split
  · next t ht =>
    split
    · have hs : changesOnly [.chk] (markFeed s t.ref .begun)
          (foldS (stageLanes s t) (fun s l => startUsers s l p q t.ref.cls.toNat) (markFeed s t.ref .begun)) :=
        changes_foldS _ _ (fun u l k => chg_startUsers u l p q _ (by decide) k) (changesOnly_refl _ _)
      rw [mbx_of hs]
      unfold markFeed
      rw [lane_modLanes]
      refine ⟨rfl, fun y hy => ?_⟩
      obtain ⟨x, hx, rfl⟩ := List.mem_map.1 hy
      refine ⟨x, hx, ?_⟩
      split <;> rfl
    · exact ⟨rfl, fun y hy => ⟨y, hy, rfl⟩⟩
  · exact ⟨rfl, fun y hy => ⟨y, hy, rfl⟩⟩

/-! ### The SQ halts (R321) -/

/-- A submission ring that runs, halted with cause DMA. -/
def dmaHalted (r : Ring) : Ring := if r.enabled then { r with halt := .dma, half := none } else r

theorem haltDma_rings (s : State) (p : Port) (q : Nat) : sqOf (haltDma s p q) p q = dmaHalted (sqOf s p q) ∧
    (∀ m, m ≠ q → sqOf (haltDma s p q) p m = sqOf s p m) ∧ ∀ m, cqOf (haltDma s p q) p m = cqOf s p m := by
  unfold haltDma dmaHalted
  split
  · have sends := vectors_sqHalted (modSq s p q (fun r => { r with halt := .dma, half := none })) p
    obtain ⟨-, own, others, cqs, -⟩ := modSq_shows s p q (fun r => { r with halt := .dma, half := none })
    exact ⟨(sqOf_vectors sends p q).trans own, fun m hm => (sqOf_vectors sends p m).trans (others m hm),
      fun m => (cqOf_vectors sends p m).trans (cqs m)⟩
  · exact ⟨rfl, fun _ _ => rfl, fun _ => rfl⟩

/-- The error state of a port (R295) is as it was. -/
def errorsKept (p : Port) (s t : State) : Prop :=
  (t.ports.get p).devErr = (s.ports.get p).devErr ∧ (t.ports.get p).aerUncorrectable = (s.ports.get p).aerUncorrectable

theorem errors_vectors {s t : State} (h : vectorsOnly s t) (p : Port) : errorsKept p s t := by
  obtain ⟨m, k, e⟩ := h p
  unfold errorsKept
  rw [e]
  exact ⟨rfl, rfl⟩

theorem errors_haltDma (s : State) (p : Port) (q : Nat) : errorsKept p s (haltDma s p q) := by
  unfold haltDma
  split
  · obtain ⟨h1, h2⟩ := errors_vectors (vectors_sqHalted (modSq s p q (fun r => { r with halt := .dma, half := none })) p) p
    unfold modSq at h1 h2
    rw [ports_modPort_self] at h1 h2
    exact ⟨h1, h2⟩
  · exact ⟨rfl, rfl⟩

theorem movingData_some {s : State} {p : Port} {q : Nat} {x : Taken} (h : movingData s p q = some x) : ∃ l, x ∈ (lane s l).mbx.taken := by
  unfold movingData at h
  split at h
  · next t ht =>
    split at h
    · obtain rfl := Option.some.inj h
      exact (takenRef_some (firstUnfed_some ht).1).2.2
    · cases h
  · cases h

/-- Which descriptor's data moves depends on the records that the lanes keep alone. -/
theorem movingData_of {ps : List Part} {s t : State} (h : changesOnly ps s t) (hp : ps.contains .mbx = false := by rfl) (p : Port) (q : Nat) :
    movingData t p q = movingData s p q := by
  have refs : takenRef t = takenRef s := funext fun r => takenRef_frame h hp r
  unfold movingData firstUnfed
  rw [stageRefs_frame h hp, refs]

theorem stageTaken_of {ps : List Part} {s t : State} (h : changesOnly ps s t) (h1 : ps.contains .laneState = false := by rfl)
    (h2 : ps.contains .mode = false := by rfl) (h3 : ps.contains .life = false := by rfl) (h4 : ps.contains .bist = false := by rfl)
    (h5 : ps.contains .bank = false := by rfl) (h6 : ps.contains .boot = false := by rfl) (x : Taken) : stageTaken t x = stageTaken s x := by
  unfold stageTaken
  rw [refBank_of h h1 h2 h3 h4 h5, boot_of h h6]

/-! ### A read that fails (R321) -/

section
variable {s : State} {p : Port} {q : Nat}

theorem dmaFailed_unheard (h : runs s p.ringLane = false) (b : Bool) : dmaFailed s p q b = s := if_pos (by unfold ringRuns; rw [h]; rfl)

theorem dmaFailed_fetch (h : runs s p.ringLane = true) : dmaFailed s p q false = haltDma s p q :=
  (if_neg (by unfold ringRuns; rw [h]; exact Bool.false_ne_true)).trans rfl

theorem dmaFailed_none (h : movingData s p q = none) : dmaFailed s p q true = s := by
  unfold dmaFailed
  rw [h]
  split <;> rfl

theorem dmaFailed_data (h : runs s p.ringLane = true) {x : Taken} (hx : movingData s p q = some x) :
    dmaFailed s p q true = beginFeed (dataFailed (haltDma s p q) x []) p q := by
  refine (if_neg (by unfold ringRuns; rw [h]; exact Bool.false_ne_true)).trans ?_
  rw [Bool.not_true, if_neg Bool.false_ne_true, hx]

theorem vectors_dataFailed (s : State) (x : Taken) (p : Port) (q : Nat) : vectorsOnly s (beginFeed (dataFailed s x []) p q) :=
  vectors_trans (vectors_feedStage s x false [])
    (vectors_trans (vectors_of (chg_finishAll _ _ _ (by decide) (changesOnly_refl [.mbx] _)))
      (vectors_of (chg_beginFeed _ p q (by decide) (changesOnly_refl [.chk, .mbx] _))))

/-- A read that fails leaves the error state as it is. -/
theorem errors_dmaFailed (s : State) (p : Port) (q : Nat) (b : Bool) : errorsKept p s (dmaFailed s p q b) := by
  cases hr : runs s p.ringLane with
  | false => rw [dmaFailed_unheard hr]; exact ⟨rfl, rfl⟩
  | true =>
    cases b with
    | false => rw [dmaFailed_fetch hr]; exact errors_haltDma s p q
    | true =>
      cases hx : movingData s p q with
      | none => rw [dmaFailed_none hx]; exact ⟨rfl, rfl⟩
      | some x =>
        rw [dmaFailed_data hr hx]
        obtain ⟨h1, h2⟩ := errors_haltDma s p q
        obtain ⟨k1, k2⟩ := errors_vectors (vectors_dataFailed (haltDma s p q) x p q) p
        exact ⟨k1.trans h1, k2.trans h2⟩

/-- A read of staging data that fails halts its SQ where that runs, and ends the descriptor in every lane with HOST_FAULT and the bytes taken. -/
theorem dmaFailed_ends (hr : runs s p.ringLane = true) {x : Taken} (hx : movingData s p q = some x) :
    vectorsOnly (haltDma s p q) (dmaFailed s p q true) ∧ gone x.ref (dmaFailed s p q true) ∧
    ∃ l, ∃ z ∈ (lane (dmaFailed s p q true) l).mbx.composed, z.ref = x.ref ∧ z.status = 0x3E ∧
      z.result.toNat % 2 ^ 40 = stageTaken s x % 2 ^ 40 := by
  have halts := chg_haltDma s p q (by decide) (changesOnly_refl [.eic, .ports] s)
  have fed := feedStage_only (haltDma s p q) x false []
  rw [dmaFailed_data hr hx]
  refine ⟨vectors_dataFailed _ x p q, fun l y hy => ?_, ?_⟩
  · obtain ⟨z, hz, he⟩ := (beginFeed_mbx _ p q l).2 y hy
    rw [← he]
    exact gone_finishAll _ _ _ l z hz
  · obtain ⟨l, hl⟩ := movingData_some hx
    rw [← mbx_of halts, ← mbx_of fed] at hl
    obtain ⟨z, hz, href, hst, hres⟩ := finishAll_composes hl (outcomeNow (haltDma s p q) 0x3E (resultOf x.ref 5 (stageTaken (haltDma s p q) x)))
    refine ⟨l, z, by rw [(beginFeed_mbx _ p q l).1]; exact hz, href, hst, ?_⟩
    rw [hres, ← stageTaken_of halts]
    exact resultOf_known x.ref _ (by decide)

end

/-! ### Which read failed (R295, R321) -/

/-- The error state of a port is written. -/
def noteErrors (s : State) (p : Port) (x : BitVec 4) (y : Word) : State := modPort s p (fun z => { z with devErr := x, aerUncorrectable := y })

theorem noteErrors_frame (s : State) (p : Port) (x : BitVec 4) (y : Word) : changesOnly [.ports] s (noteErrors s p x y) :=
  changes_modPort p _ rfl (changesOnly_refl _ s)

theorem noteErrors_same (s : State) (p : Port) : noteErrors s p (s.ports.get p).devErr (s.ports.get p).aerUncorrectable = s := by
  cases p <;> rfl

theorem noteErrors_bits (s : State) (p : Port) (x : BitVec 4) (y : Word) :
    ((noteErrors s p x y).ports.get p).devErr = x ∧ ((noteErrors s p x y).ports.get p).aerUncorrectable = y := by
  unfold noteErrors
  rw [ports_modPort_self]
  exact ⟨rfl, rfl⟩

theorem noteTimeout_unheard {s : State} {p : Port} (h : runs s p.ringLane = false) : noteTimeout s p = s :=
  if_neg (by unfold ringRuns; rw [h]; exact Bool.false_ne_true)

theorem noteTimeout_noted {s : State} {p : Port} (h : runs s p.ringLane = true) : noteTimeout s p =
    noteErrors s p (vput (s.ports.get p).devErr 1 true) (vput (s.ports.get p).aerUncorrectable 14 true) := if_pos h

theorem exec_dmaTimeout (s : State) (p : Port) (q : Fin 16) (b : Bool) :
    exec (.dmaTimeout p ⟨q, b⟩) s = .next (dmaFailed (noteTimeout s p) p q.val b) := rfl

/-- A read without an answer is noted in the error state of its port before it fails like any other. -/
theorem exec_dmaFault {c : Instr} {p : Port} {q : Fin 16} {b : Bool} (h : c = .dmaError p ⟨q, b⟩ ∨ c = .dmaTimeout p ⟨q, b⟩) (s : State) :
    ∃ x y, exec c s = .next (dmaFailed (noteErrors s p x y) p q.val b) ∧
      (¬ (c = .dmaTimeout p ⟨q, b⟩ ∧ runs s p.ringLane = true) → noteErrors s p x y = s) ∧
      (c = .dmaTimeout p ⟨q, b⟩ ∧ runs s p.ringLane = true → x.getLsbD 1 = true ∧ y.getLsbD 14 = true) := by
  have same := noteErrors_same s p
  obtain rfl | rfl := h
  · exact ⟨_, _, by rw [same]; rfl, fun _ => same, fun h => by cases h.1⟩
  · cases hr : runs s p.ringLane with
    | false => exact ⟨_, _, by rw [exec_dmaTimeout, noteTimeout_unheard hr, same], fun _ => same, fun h => by cases h.2⟩
    | true => exact ⟨_, _, by rw [exec_dmaTimeout, noteTimeout_noted hr], fun h => absurd ⟨rfl, rfl⟩ h,
        fun _ => ⟨vput_self _ (by decide) true, vput_self _ (by decide) true⟩⟩

section
variable (s : State) (p : Port) (q : Nat) (x : BitVec 4) (y : Word)

/-- What a read that fails leaves of the rings, whether it had no answer or another error. -/
theorem noted_halts : sqOf (haltDma (noteErrors s p x y) p q) p q = dmaHalted (sqOf s p q) ∧
    (∀ m, m ≠ q → sqOf (haltDma (noteErrors s p x y) p q) p m = sqOf s p m) ∧
    ∀ m, cqOf (haltDma (noteErrors s p x y) p q) p m = cqOf s p m := by
  have sqs : ∀ m, sqOf (noteErrors s p x y) p m = sqOf s p m := fun m => sqOf_modPort s p p m fun _ => rfl
  obtain ⟨own, others, cqs⟩ := haltDma_rings (noteErrors s p x y) p q
  exact ⟨by rw [own, sqs], fun m hm => (others m hm).trans (sqs m), fun m => (cqs m).trans (cqOf_modPort s p p m fun _ => rfl)⟩

/-- A read that has nothing to end and no SQ to halt only shows in the error state. -/
theorem noted_idle {b : Bool} (h : runs s p.ringLane = false ∨ (b = false ∧ (sqOf s p q).enabled = false) ∨ (b = true ∧ movingData s p q = none)) :
    dmaFailed (noteErrors s p x y) p q b = noteErrors s p x y := by
  cases hr : runs (noteErrors s p x y) p.ringLane with
  | false => exact dmaFailed_unheard hr b
  | true =>
    obtain h | ⟨rfl, off⟩ | ⟨rfl, none⟩ := h
    · cases hr.symm.trans h
    · rw [dmaFailed_fetch hr]
      refine if_neg ?_
      rw [show sqOf (noteErrors s p x y) p q = sqOf s p q from sqOf_modPort s p p q fun _ => rfl, off]
      exact Bool.false_ne_true
    · exact dmaFailed_none ((movingData_of (noteErrors_frame s p x y) rfl p q).trans none)

end

/-! ### The statement -/

/-- Settles O46: doorbells and set-ups change one ring, or only count; a failed read halts its SQ and ends the descriptor whose data it moved. -/
theorem ringsAndDoorbells : Obligations.RingsAndDoorbells := by
  intro s p q n sq cq
  refine ⟨fun v h => doorbells_unheard h q v, fun h k ctrl => setup_unheard (.inr h) k q ctrl, fun v hu hs => ?_, fun k ctrl h => ?_,
    fun ctrl hr hs off => ⟨sqEnable_bad hr hs ctrl off, sqEnable_good hr hs ctrl off⟩,
    fun ctrl hr hs off => ⟨cqEnable_bad hr hs ctrl off, cqEnable_good hr hs ctrl off⟩,
    fun hr hs on => ⟨_, exec_ringDisable_sq hr hs on, disableSq_shows s p q⟩, fun hr hs => cqDisable_row hr hs, coalesced_row, fun c b hc => ?_⟩
  · obtain ⟨sqRun, cqRun, sqBad, cqBad⟩ := doorbell_rows (q := q) hu hs v
    exact ⟨fun on inside => ⟨_, sqRun on inside, modSq_shows s p n _⟩, fun on inside => ⟨_, cqRun on inside, modCq_shows s p n _⟩, sqBad, cqBad⟩
  · obtain hr | on := h
    · exact (setup_unheard (.inl hr) k q ctrl).1
    · exact ringEnable_enabled on ctrl
  · intro halted late
    obtain ⟨x, y, run, unnoted, noted⟩ := exec_dmaFault hc s
    have halts := noted_halts s p n x y
    have moves := movingData_of (noteErrors_frame s p x y) rfl p n
    refine ⟨fun idle => ?_, fun isLate => ⟨_, run, ?_⟩, fun hr hb on => ⟨_, run, ?_⟩, fun hr hb z hz => ⟨_, run, ?_⟩⟩
    · rw [noted_idle s p n x y idle] at run
      exact ⟨_, run, unnoted, fun _ => ⟨x, y, rfl⟩⟩
    · obtain ⟨h1, h2⟩ := errors_dmaFailed (noteErrors s p x y) p n b
      obtain ⟨k1, k2⟩ := noteErrors_bits s p x y
      rw [h1, h2, k1, k2]
      exact noted isLate
    · subst hb
      rw [show dmaFailed (noteErrors s p x y) p n false = haltDma (noteErrors s p x y) p n from dmaFailed_fetch hr]
      exact ⟨chg_haltDma _ p n (by decide) (changes_step (by decide) (noteErrors_frame s p x y) (changesOnly_refl _ s)), halts⟩
    · subst hb
      obtain ⟨sends, ended, l, w, hw, href, hst, hres⟩ := dmaFailed_ends (show runs (noteErrors s p x y) p.ringLane = true from hr) (moves.trans hz)
      rw [stageTaken_of (noteErrors_frame s p x y)] at hres
      refine ⟨chg_dmaFailed _ p n true (by decide) (changes_step (by decide) (noteErrors_frame s p x y) (changesOnly_refl _ s)), ?_, ended, l, w, hw, href, hst, hres⟩
      exact ⟨(sqOf_vectors sends p n).trans halts.1, fun m hm => (sqOf_vectors sends p m).trans (halts.2.1 m hm),
        fun m => (cqOf_vectors sends p m).trans (halts.2.2 m)⟩

end Sys2Proof.Laws

/-! ## Descriptors that a port fetches: turns, and the checks in every lane (R303 to R309, R311, R313, R320) -/

namespace Sys2Proof.Laws

open Sys2Proof Sys2Proof.Machine Sys2Proof.Safety

/-! ### What the checks of a descriptor look at (R308) -/

theorem vintageOf_of {ps : List Part} {s t : State} (h : changesOnly ps s t) (h1 : ps.contains .laneState = false := by rfl)
    (h2 : ps.contains .mode = false := by rfl) (h3 : ps.contains .life = false := by rfl) (h4 : ps.contains .bist = false := by rfl)
    (h5 : ps.contains .bank = false := by rfl) : vintageOf t = vintageOf s := by
  unfold vintageOf
  rw [refLane_of h h1 h2 h3 h4, bank_of h h5]

theorem epochNow_of {ps : List Part} {s t : State} (h : changesOnly ps s t) (h1 : ps.contains .laneState = false := by rfl)
    (h2 : ps.contains .mode = false := by rfl) (h3 : ps.contains .life = false := by rfl) (h4 : ps.contains .bist = false := by rfl)
    (h5 : ps.contains .bank = false := by rfl) (h6 : ps.contains .twin = false := by rfl) : epochNow t = epochNow s := by
  unfold epochNow twinOn
  rw [vintageOf_of h h1 h2 h3 h4 h5, twin_of h h6]

/-- The checks look at no port. -/
theorem checkSlots_ports (s : State) (x : PerPort PortState) (l : Lane) (p : Port) (q : Nat) (d : BitVec 512) (y : Option (BitVec 512)) :
    checkSlots { s with ports := x } l p q d y = checkSlots s l p q d y := rfl

/-! ### The descriptor is fetched (R306, R311, R313, R320) -/

/-- One more descriptor of the port is fetched. -/
def countFetched (y : PortState) : PortState := { y with fetched := y.fetched + 1 }

/-- The head of the ring has passed the slots of a descriptor that was fetched in its turn. -/
def headPassed (s : State) (p : Port) (q : Fin 16) (n : Nat) : State :=
  modSq (modPort (passTurn s p q) p countFetched) p q.val (fun y => { y with head := advance y y.head n, half := none })

theorem sqOf_passTurn (s : State) (p : Port) (q : Fin 16) (m : Nat) : sqOf (passTurn s p q) p m = sqOf s p m :=
  sqOf_modPort s p p m fun _ => rfl

theorem cqOf_passTurn (s : State) (p : Port) (q : Fin 16) (m : Nat) : cqOf (passTurn s p q) p m = cqOf s p m :=
  cqOf_modPort s p p m fun _ => rfl

theorem fetched_passTurn (s : State) (p : Port) (q : Fin 16) : ((passTurn s p q).ports.get p).fetched = (s.ports.get p).fetched := by
  unfold passTurn
  rw [ports_modPort_self]

theorem readInOrder_passTurn (s : State) (p : Port) (q : Fin 16) (d : BitVec 512) :
    readInOrder (passTurn s p q) p q.val d = readInOrder s p q.val d := rfl

theorem refOf_passTurn (s : State) (p : Port) (q : Fin 16) (d : BitVec 512) : refOf (passTurn s p q) p q d = refOf s p q d := by
  unfold refOf
  rw [sqOf_passTurn, fetched_passTurn]

/-- What the fetch of a descriptor leaves. -/
theorem headPassed_shows (s : State) (p : Port) (q : Fin 16) (n : Nat) : changesOnly [.ports] s (headPassed s p q n) ∧
    sqOf (headPassed s p q n) p q.val = { sqOf s p q.val with head := advance (sqOf s p q.val) (sqOf s p q.val).head n, half := none } ∧
    (∀ m, m ≠ q.val → sqOf (headPassed s p q n) p m = sqOf s p m) ∧ (∀ m, cqOf (headPassed s p q n) p m = cqOf s p m) ∧
    ∀ o, o ≠ p → (headPassed s p q n).ports.get o = s.ports.get o := by
  have sqs : ∀ m, sqOf (modPort (passTurn s p q) p countFetched) p m = sqOf s p m :=
    fun m => (sqOf_modPort _ p p m (f := countFetched) fun _ => rfl).trans (sqOf_passTurn s p q m)
  have cqs : ∀ m, cqOf (modPort (passTurn s p q) p countFetched) p m = cqOf s p m :=
    fun m => (cqOf_modPort _ p p m (f := countFetched) fun _ => rfl).trans (cqOf_passTurn s p q m)
  obtain ⟨frame, own, others, cq, ports⟩ := modSq_shows (modPort (passTurn s p q) p countFetched) p q.val
    (fun y => { y with head := advance y y.head n, half := none })
  refine ⟨changes_step (by decide) frame (changes_modPort p _ rfl (changes_modPort p _ rfl (changesOnly_refl _ s))), ?_,
    fun m hm => (others m hm).trans (sqs m), fun m => (cq m).trans (cqs m), fun o ho => (ports o ho).trans ?_⟩
  · rw [sqs] at own
    exact own
  · unfold passTurn
    rw [ports_modPort_other _ _ ho, ports_modPort_other _ _ ho]

/-- A descriptor fetched in its turn goes to the checks, with the reference that its completion carries. -/
theorem takeDesc_turn (s : State) (p : Port) (q : Fin 16) (d : BitVec 512) (x : Option (BitVec 512)) (n : Nat) :
    takeDesc (passTurn s p q) p q d x n =
      if isChecked (dClass d) then
        takeChecked (headPassed s p q n) p q.val (refOf s p q d) d x (cqOf s p (sqOf s p q.val).cq.toNat).epoch
      else takeUnchecked (headPassed s p q n) p (refOf s p q d) d x (cqOf s p (sqOf s p q.val).cq.toNat).epoch := by
  rw [← refOf_passTurn, ← cqOf_passTurn s p q, ← sqOf_passTurn s p q]
  rfl

theorem takeSlot_served {s : State} {p : Port} {q : Fin 16} (h : sqServed s p q = true) (d : BitVec 512) (x : Option (BitVec 512)) :
    takeSlot s p q d x = takeFetched (passTurn s p q) p q d x := if_pos h

theorem takeClass_of {d : BitVec 512} {c : Nat} (h : dClass d = c) (s : State) (p : Port) (q : Fin 16) (x : Option (BitVec 512)) :
    takeClass s p q d x c = takeSlot s p q d x := if_pos h

section
variable {s : State} {p : Port} {q : Fin 16} {d : BitVec 512} (h : mayTake s p q d)
include h

/-- Nothing before a slot that may be taken holds it up (R319, R393). -/
theorem mayTake_free : ((decide (dget d 1 1 % 2 = 1) && !sqQuiet (passTurn s p q) p q.val) || !readInOrder (passTurn s p q) p q.val d) = false := by
  obtain ⟨-, -, unfenced, inOrder⟩ := h
  rw [readInOrder_passTurn, inOrder, Bool.not_true, Bool.or_false]
  obtain unflagged | quiet := unfenced
  · rw [unflagged]
    rfl
  · rw [show sqQuiet (passTurn s p q) p q.val = true from quiet, Bool.not_true, Bool.and_false]

/-- A slot of an SQ that waits for no second slot is taken in the turn of its SQ as a first one. -/
theorem takeSlot_first (x : Option (BitVec 512)) : takeSlot s p q d x = takeFirst (passTurn s p q) p q d x := by
  obtain ⟨served, alone, -, -⟩ := h
  rw [takeSlot_served served]
  unfold takeFetched
  rw [sqOf_passTurn, alone]

theorem takeSlot_plain (plain : isAuthorised (dClass d) = false) (x : Option (BitVec 512)) :
    takeSlot s p q d x = takeDesc (passTurn s p q) p q d none 1 := by
  rw [takeSlot_first h]
  unfold takeFirst
  rw [mayTake_free h, if_neg Bool.false_ne_true, plain, if_neg Bool.false_ne_true]

theorem takeSlot_pair (authorised : isAuthorised (dClass d) = true) (room : 2 ≤ sqWaiting (sqOf s p q.val)) {y : BitVec 512}
    (matched : authMatches d y = true) : takeSlot s p q d (some y) = takeDesc (passTurn s p q) p q d (some y) 2 := by
  rw [takeSlot_first h]
  unfold takeFirst
  rw [mayTake_free h, if_neg Bool.false_ne_true, if_pos authorised]
  dsimp only
  rw [sqOf_passTurn, if_neg (Nat.not_lt.2 room), if_pos matched]

end

theorem authorised_checked {k : Nat} (h : isAuthorised k = true) : isChecked k = true := by
  simp only [isAuthorised, isChecked, isMaintenance, Bool.or_eq_true, decide_eq_true_eq] at *
  tauto

theorem authMatches_class {d x : BitVec 512} (h : authMatches d x = true) : dClass x = 0x3F := by
  simp only [authMatches, Bool.and_eq_true, decide_eq_true_eq] at h
  exact h.1.1.1.1

/-- The commands that take a checked descriptor (R304, R306). -/
theorem exec_takesChecked {c : Instr} {s : State} {p : Port} {q : Fin 16} {d : BitVec 512} {x : Option (BitVec 512)}
    (h : takesChecked c p q d x) (hm : mayTake s p q d) (hn : (if x.isSome then 2 else 1) ≤ sqWaiting (sqOf s p q.val)) :
    exec c s = .next (takeDesc (passTurn s p q) p q d x (if x.isSome then 2 else 1)) ∧ isChecked (dClass d) = true := by
  obtain ⟨rfl, checked, plain, row⟩ | ⟨y, rfl, authorised, matched, row⟩ := h
  · have taken := takeSlot_plain hm plain
    have byClass : ∀ k, dClass d = k → takeClass s p q d none k = takeDesc (passTurn s p q) p q d none 1 := fun k hk =>
      (takeClass_of hk s p q none).trans (taken none)
    refine ⟨?_, checked⟩
    obtain ⟨z, rfl⟩ | ⟨rfl, hc⟩ | ⟨rfl, hc⟩ | ⟨rfl, hc⟩ | ⟨rfl, hc⟩ | ⟨rfl, hc⟩ := row
    · exact congrArg Host.Outcome.next (taken z)
    all_goals exact congrArg Host.Outcome.next (byClass _ hc)
  · have taken := takeSlot_pair hm authorised hn matched
    have byClass : ∀ k, dClass d = k → takeClass s p q d (some y) k = takeDesc (passTurn s p q) p q d (some y) 2 := fun k hk =>
      (takeClass_of hk s p q (some y)).trans taken
    refine ⟨?_, authorised_checked authorised⟩
    obtain rfl | ⟨rfl, hc⟩ | ⟨rfl, hc⟩ | ⟨rfl, hc⟩ := row
    · exact congrArg Host.Outcome.next taken
    all_goals exact congrArg Host.Outcome.next (byClass _ hc)

/-- The commands that take the AUTH_EXT that a first slot waits for (R306). -/
theorem exec_takesSecond {c : Instr} {s : State} {p : Port} {q : Fin 16} {d : BitVec 512} {x : Option (BitVec 512)} (h : takesSecond c s p q d x) :
    exec c s = .next (takeDesc (passTurn s p q) p q d x (if x.isSome then 2 else 1)) ∧ isChecked (dClass d) = true := by
  obtain ⟨served, waits, room, authorised, y, rfl, matched, row⟩ := h
  have taken : ∀ z, takeSlot s p q y z = takeDesc (passTurn s p q) p q d (some y) 2 := fun z => by
    rw [takeSlot_served served]
    unfold takeFetched
    rw [sqOf_passTurn, waits]
    dsimp only
    rw [if_neg (Nat.not_lt.2 room), if_pos matched]
  refine ⟨?_, authorised_checked authorised⟩
  obtain rfl | ⟨z, rfl⟩ := row
  · exact congrArg Host.Outcome.next ((takeClass_of (authMatches_class matched) s p q none).trans (taken none))
  · exact congrArg Host.Outcome.next (taken z)

end Sys2Proof.Laws

/-! ## Descriptors judged by every lane whose service core runs (R306 to R309, R311) -/

namespace Sys2Proof.Laws

open Sys2Proof Sys2Proof.Machine Sys2Proof.Safety

theorem cellar_of {ps : List Part} {s t : State} (h : changesOnly ps s t) (h1 : ps.contains .log = false := by rfl)
    (h2 : ps.contains .lifetime = false := by rfl) : t.cellar = s.cellar := by
  have log : ({ t.cellar with life := s.cellar.life } : Cellar) = s.cellar := (h .log h1).1
  rw [← lifetime_of h h2] at log
  exact log

theorem log_modPages (s : State) (qs : List Nat) (f : Lifetime → Lifetime) : (modPages s qs f).cellar.log = s.cellar.log := rfl

/-! ### One lane after the other -/

theorem perLane_ext {α : Type} {x y : PerLane α} (h : ∀ l, x.get l = y.get l) : x = y := by
  obtain ⟨a, b, c⟩ := x
  obtain ⟨a', b', c'⟩ := y
  have ha : a = a' := h .A
  have hb : b = b' := h .B
  have hc : c = c' := h .C
  rw [ha, hb, hc]

/-- Changes of lanes, one after the other, each of its own lane alone, are one change of those lanes. -/
theorem foldS_lanes {P : State → Prop} {f : State → Lane → State} {g : Lane → LaneState → LaneState}
    (hf : ∀ t l, P t → f t l = modLane t l (g l) ∧ P (f t l)) (xs : List Lane) (hn : xs.Nodup) {s : State} (hs : P s) :
    foldS xs f s = modLanes s (fun l L => if l ∈ xs then g l L else L) := by
  unfold foldS
  induction xs generalizing s with
  | nil => exact congrArg (fun x => ({ s with lanes := x } : State)) (perLane_ext fun l => by rw [get_map]; exact (if_neg List.not_mem_nil).symm)
  | cons a xs ih =>
    obtain ⟨hna, hn⟩ := List.nodup_cons.1 hn
    rw [List.foldl_cons, ih hn (hf s a hs).2, (hf s a hs).1]
    refine congrArg (fun x => ({ s with lanes := x } : State)) (perLane_ext fun l => ?_)
    rw [get_map, get_map, lanes_modLane]
    by_cases hl : l = a
    · subst hl
      rw [get_set_self, if_neg hna, if_pos List.mem_cons_self]
    · rw [get_set_other _ _ hl]
      simp only [List.mem_cons, hl, false_or]

theorem laneList_nodup : Lane.list.Nodup := by decide

/-! ### What a lane does with its verdict (R308, R309) -/

/-- A lane with the descriptor that it has judged, while an epoch is in force. -/
def afterVerdict (ep : BitVec 16) (r : HostRef) (d : BitVec 512) (x : Option (BitVec 512)) (e : Nat) (v : Verdict) (L : LaneState) : LaneState :=
  match v with
  | .refuse st k => compose (if k then consume L r (some (refusal r d st)) else L) (completionOf ep r e false k (refusal r d st))
  | .replay g =>
    if g.done then
      compose L (completionOf ep r e true true
        { status := g.status.toNat, term := g.term.toNat, cycle := g.cycle, time := g.time, result := g.result })
    else { L with mbx := { L.mbx with taken := L.mbx.taken ++ [takenOf r d e x true] } }
  | .take => { consume L r none with mbx := { (consume L r none).mbx with taken := (consume L r none).mbx.taken ++ [takenOf r d e x false] } }

theorem laneTake_eq (s : State) (l : Lane) (r : HostRef) (d : BitVec 512) (x : Option (BitVec 512)) (e : Nat) (v : Verdict) :
    laneTake s l r d x e v = modLane s l (afterVerdict (epochNow s) r d x e v) := by
  cases v <;> rfl

/-- A number that is consumed is the last one of the ledger (R309). -/
theorem ledger_consume (L : LaneState) (r : HostRef) (e : Option HostEnd) : (ledgerOf (consume L r e) r.port r.sq.val).last = some r.sequence := by
  unfold ledgerOf consume modLedger
  rw [sget_smod, if_pos rfl]
  cases e <;> rfl

section
variable {s : State} {p : Port} {q : Fin 16} {r : HostRef} {d : BitVec 512} {x : Option (BitVec 512)} {e : Nat}

/-- The lanes after the checks: each one whose service core runs has acted on its verdict, the others are as they were (R308, R311). -/
theorem lane_takeChecked (l : Lane) : lane (takeChecked s p q.val r d x e) l =
    if runs s l then afterVerdict (epochNow s) r d x e (checkSlots s l p q.val d x) (lane s l) else lane s l := by
  have fold : foldS ((Lane.list.filter (runs s)).map (fun l => (l, checkSlots s l p q.val d x)))
      (fun s v => laneTake s v.1 r d x e v.2) s =
      modLanes s (fun l L => if l ∈ Lane.list.filter (runs s) then afterVerdict (epochNow s) r d x e (checkSlots s l p q.val d x) L else L) := by
    rw [foldS, List.foldl_map]
    refine foldS_lanes (P := fun t => epochNow t = epochNow s) (fun t l ht => ?_) _ (laneList_nodup.filter _) rfl
    refine ⟨by rw [laneTake_eq, ht], ?_⟩
    rw [epochNow_of (chg_laneTake t l r d x e _ (by decide) (changesOnly_refl [.mbx] t)), ht]
  unfold takeChecked
  dsimp only
  rw [fold]
  have own : lane (modLanes s (fun l L => if l ∈ Lane.list.filter (runs s) then afterVerdict (epochNow s) r d x e (checkSlots s l p q.val d x) L else L)) l =
      if runs s l then afterVerdict (epochNow s) r d x e (checkSlots s l p q.val d x) (lane s l) else lane s l := by
    rw [lane_modLanes]
    simp only [List.mem_filter, mem_laneList, true_and]
  split
  · split
    · exact own
    · exact own
  · exact own

/-- Beside the lanes, the checks change at most NONCE_LAST of the lifetime area, with its page (R307). -/
theorem takeChecked_module : changesOnly [.mbx, .lifetime, .log] s (takeChecked s p q.val r d x e) ∧
    (takeChecked s p q.val r d x e).cellar.log = s.cellar.log ∧ (x = none → (takeChecked s p q.val r d x e).cellar = s.cellar) ∧
    ∀ y, x = some y → bothFailed s.cellar = false → s.cellar.life.nonceLast.toNat < dget y 8 8 →
      (∃ l, runs s l = true ∧ nonceTaken (checkSlots s l p q.val d x) = true) →
      (takeChecked s p q.val r d x e).cellar.life.nonceLast.toNat = dget y 8 8 := by
  have lanes : changesOnly [.mbx] s (foldS ((Lane.list.filter (runs s)).map (fun l => (l, checkSlots s l p q.val d x)))
      (fun s v => laneTake s v.1 r d x e v.2) s) :=
    changes_foldS _ _ (fun t v h => chg_laneTake t v.1 r d x e v.2 (by decide) h) (changesOnly_refl _ s)
  refine ⟨chg_takeChecked s p q.val r d x e (by decide) (changesOnly_refl _ s), ?_⟩
  have kept := cellar_of lanes
  unfold takeChecked
  dsimp only
  generalize foldS _ _ s = u at kept
  cases x with
  | none => exact ⟨congrArg Cellar.log kept, fun _ => kept, fun y h => by cases h⟩
  | some y =>
    dsimp only
    refine ⟨?_, fun h => (by cases h), fun z hz good newer found => ?_⟩
    · split
      · rw [log_modPages, kept]
      · rw [kept]
    · obtain rfl := Option.some.inj hz
      obtain ⟨l, hr, ht⟩ := found
      rw [if_pos, life_modPages]
      · exact Nat.mod_eq_of_lt (Nat.mod_lt _ (by decide))
      · rw [good, decide_eq_true newer, Bool.not_false, Bool.true_and, Bool.and_true, List.any_eq_true]
        exact ⟨_, List.mem_map_of_mem (List.mem_filter.2 ⟨mem_laneList l, hr⟩), ht⟩

end

/-- The lane L has become b, and done with the descriptor what its verdict says (R308, R309). -/
def actsOnVerdict (ep : BitVec 16) (r : HostRef) (d : BitVec 512) (x : Option (BitVec 512)) (e : Nat) (v : Verdict) (L b : LaneState) : Prop :=
  (∀ st k, v = .refuse st k → b.mbx.taken = L.mbx.taken ∧
    b.mbx.composed = L.mbx.composed ++ [completionOf ep r e false k (refusal r d st)] ∧ (k = false → b.mbx.ledgers = L.mbx.ledgers) ∧
    (k = true → (ledgerOf b r.port r.sq.val).last = some r.sequence)) ∧
  (v = .take → b.mbx.taken = L.mbx.taken ++ [takenOf r d e x false] ∧ b.mbx.composed = L.mbx.composed ∧
    (ledgerOf b r.port r.sq.val).last = some r.sequence) ∧
  ∀ g, v = .replay g → b.mbx.ledgers = L.mbx.ledgers ∧
    (g.done = false → b.mbx.taken = L.mbx.taken ++ [takenOf r d e x true] ∧ b.mbx.composed = L.mbx.composed) ∧
    (g.done = true → b.mbx.taken = L.mbx.taken ∧ b.mbx.composed = L.mbx.composed ++ [completionOf ep r e true true
      { status := g.status.toNat, term := g.term.toNat, cycle := g.cycle, time := g.time, result := g.result }])

theorem afterVerdict_acts (ep : BitVec 16) (r : HostRef) (d : BitVec 512) (x : Option (BitVec 512)) (e : Nat) (v : Verdict) (L : LaneState) :
    actsOnVerdict ep r d x e v L (afterVerdict ep r d x e v L) := by
  refine ⟨?_, ?_, ?_⟩
  · rintro st k rfl
    cases k with
    | false => exact ⟨rfl, rfl, fun _ => rfl, fun h => by cases h⟩
    | true => exact ⟨rfl, rfl, fun h => (by cases h), fun _ => ledger_consume L r (some (refusal r d st))⟩
  · rintro rfl
    exact ⟨rfl, rfl, ledger_consume L r none⟩
  · rintro g rfl
    dsimp only [afterVerdict]
    cases g.done with
    | false => exact ⟨rfl, fun _ => ⟨rfl, rfl⟩, fun h => by cases h⟩
    | true => exact ⟨rfl, fun h => (by cases h), fun _ => ⟨rfl, rfl⟩⟩

/-! ### The checks in their order (R308) -/

/-- What follows for a descriptor whose number is fresh: its time, its authorisation, the role and the state of the module. -/
def freshVerdict (s : State) (d : BitVec 512) (x : Option (BitVec 512)) : Verdict :=
  if !timeOk s d then .refuse 0x34 true
  else match authCheck s d x with
    | some st => .refuse st true
    | none =>
      if activeOnly (dClass d) && !roleActive s then .refuse 0x38 true
      else if !stateAllows s (dClass d) then .refuse 0x1C true
      else .take

theorem freshVerdict_late {s : State} {d : BitVec 512} (h : timeOk s d = false) (x : Option (BitVec 512)) :
    freshVerdict s d x = .refuse 0x34 true := by
  unfold freshVerdict
  rw [h]
  rfl

section
variable {s : State} {d : BitVec 512} {x : Option (BitVec 512)} (timed : timeOk s d = true)
include timed

theorem freshVerdict_unauthorised {st : Nat} (h : authCheck s d x = some st) : freshVerdict s d x = .refuse st true := by
  unfold freshVerdict
  rw [timed, h]
  rfl

/-- An authorised descriptor is refused only for the role, and then for the state. -/
theorem freshVerdict_authorised (h : authCheck s d x = none) :
    (activeOnly (dClass d) = true → roleActive s = false → freshVerdict s d x = .refuse 0x38 true) ∧
    ((activeOnly (dClass d) = false ∨ roleActive s = true) → (stateAllows s (dClass d) = false → freshVerdict s d x = .refuse 0x1C true) ∧
      (stateAllows s (dClass d) = true → freshVerdict s d x = .take)) := by
  unfold freshVerdict
  rw [timed, h]
  refine ⟨fun active passive => ?_, fun role => ?_⟩
  · rw [active, passive]
    rfl
  · have may : (activeOnly (dClass d) && !roleActive s) = false := by
      obtain h | h := role
      · rw [h]; rfl
      · rw [h, Bool.not_true, Bool.and_false]
    rw [may]
    exact ⟨fun h => by rw [h]; rfl, fun h => by rw [h]; rfl⟩

end

section
variable {s : State} {l : Lane} {p : Port} {q : Nat} {d : BitVec 512} {x : Option (BitVec 512)}

theorem checkSlots_form (h : slotsOk d x = false) : checkSlots s l p q d x = .refuse 0x37 false := by
  unfold checkSlots
  rw [h]
  rfl

section
variable (formed : slotsOk d x = true)
include formed

theorem checkSlots_code (h : slotCode (hostSid s p) d ≠ dget d 0x38 8) : checkSlots s l p q d x = .refuse 0x31 false := by
  unfold checkSlots
  rw [formed, Bool.not_true, if_neg Bool.false_ne_true, if_pos h]

section
variable (coded : slotCode (hostSid s p) d = dget d 0x38 8)
include coded

theorem checkSlots_epoch (h : dEpoch d ≠ epochNow s) : checkSlots s l p q d x = .refuse 0x30 false := by
  unfold checkSlots
  rw [formed, Bool.not_true, if_neg Bool.false_ne_true, if_neg (not_not_intro coded), if_pos h]

variable (current : dEpoch d = epochNow s)
include current

/-- After the form, the code and the epoch the number decides (R309). -/
theorem checkSlots_number : let f := seqCheck (ledgerOf (lane s l) p q) (dSeq d) (dCode d)
    (f = .conflict → checkSlots s l p q d x = .refuse 0x33 false) ∧ (f = .window → checkSlots s l p q d x = .refuse 0x32 false) ∧
    (∀ g, f = .again g → checkSlots s l p q d x = .replay g) ∧ (f = .fresh → checkSlots s l p q d x = freshVerdict s d x) := by
  refine ⟨fun h => ?_, fun h => ?_, fun g h => ?_, fun h => ?_⟩
  all_goals
    unfold checkSlots
    rw [formed, Bool.not_true, if_neg Bool.false_ne_true, if_neg (not_not_intro coded), if_neg (not_not_intro current), h]
  rfl

end
end
end

/-! ### The statement -/

/-- Settles O47: a taken descriptor passes the head of its ring and each lane whose service core runs acts on its own verdict. -/
theorem hostDescriptors : Obligations.HostDescriptors := by
  intro s p q d x sq r e n
  refine ⟨fun c hc room => ?_, fun l => ⟨checkSlots_form, checkSlots_code, fun formed coded => ⟨checkSlots_epoch formed coded, fun current => ?_⟩⟩⟩
  · obtain ⟨run, checked⟩ : exec c s = .next (takeDesc (passTurn s p q) p q d x n) ∧ isChecked (dClass d) = true :=
      hc.elim (fun ⟨takes, may⟩ => exec_takesChecked takes may room) exec_takesSecond
    rw [takeDesc_turn, if_pos checked] at run
    obtain ⟨passed, own, others, cqs, ports⟩ := headPassed_shows s p q n
    obtain ⟨frame, log, plain, nonce⟩ := takeChecked_module (s := headPassed s p q n) (p := p) (q := q) (r := r) (d := d) (x := x) (e := e)
    refine ⟨_, run, changes_step (by decide) frame (changes_step (by decide) passed (changesOnly_refl _ s)), log, (sqOf_of frame rfl p q.val).trans own,
      fun m hm => (sqOf_of frame rfl p m).trans (others m hm), fun m => (cqOf_of frame rfl p m).trans (cqs m),
      fun o ho => (congrArg (fun x => x.get o) (ports_of frame)).trans (ports o ho), fun l => ?_, plain, nonce⟩
    have lanes : lane _ l = if runs s l then afterVerdict (epochNow s) r d x e (checkSlots s l p q.val d x) (lane s l) else lane s l :=
      lane_takeChecked (s := headPassed s p q n) (p := p) (q := q) l
    refine ⟨fun idle => lanes.trans (if_neg (by rw [idle]; exact Bool.false_ne_true)), fun active => ?_⟩
    have acts := afterVerdict_acts (epochNow s) r d x e (checkSlots s l p q.val d x) (lane s l)
    rw [← lanes.trans (if_pos active)] at acts
    exact acts
  · obtain ⟨conflict, window, again, fresh⟩ := checkSlots_number (l := l) (q := q.val) formed coded current
    refine ⟨conflict, window, again, fun h => ?_⟩
    rw [fresh h]
    exact ⟨fun late => freshVerdict_late late x, fun timed _ => freshVerdict_unauthorised timed, freshVerdict_authorised⟩

end Sys2Proof.Laws

/-! ## Descriptors that the ring lane serves alone: reads and fences (R304, R308, R314, R316, R319, R414) -/

namespace Sys2Proof.Laws

open Sys2Proof Sys2Proof.Machine Sys2Proof.Safety

/-! ### The work on such a descriptor is its lane's alone (R308) -/

section
variable {l : Lane} {z s : State} (h : onlyLane l z s)
include h

theorem only_startUsers (p : Port) (q cls : Nat) : onlyLane l z (startUsers s l p q cls) :=
  only_foldS _ _ (fun t u k => by
    dsimp only
    split
    · exact only_modLane _ k
    · exact k) s h

theorem only_closeUser (u : Nat) : onlyLane l z (closeUser s l u) := by
  unfold closeUser
  dsimp only
  split
  · exact only_eicRaise _ (only_modLane _ h)
  · exact only_modLane _ h

omit h in
theorem only_feedUsers (p : Port) (q cls : Nat) (last whole : Bool) (bs : List Byte) (h : onlyLane l z s) :
    onlyLane l z (feedUsers s l p q cls last whole bs) :=
  only_foldS _ _ (fun t u k => by
    dsimp only
    split
    · split
      · exact only_closeUser (only_modLane _ k) u
      · exact only_modLane _ k
    · exact k) s h

theorem only_mirrorFault (dev off : Nat) : onlyLane l z (mirrorFault s l dev off) :=
  only_eventLane _ _ _ (only_lanes (t := { s with free := s.free + 1 }) rfl h)

theorem only_badCopyMet (x : CopyAt) : onlyLane l z (badCopyMet l s x) := by
  unfold badCopyMet
  extract_lets c met count s1
  have counts : ∀ t dev, onlyLane l z t → onlyLane l z (count t dev) := fun t dev k => by
    show onlyLane l z (if met dev then devError t l dev 1 else t)
    split
    · exact only_modLane _ k
    · exact k
  have counted : onlyLane l z s1 := counts _ 1 (counts s 0 h)
  clear_value s1
  split
  · exact counted
  split
  · exact only_mirrorFault (only_lanes (s := s1) (by exact rfl) counted) _ _
  split
  · exact only_mirrorFault (only_lanes (s := s1) (by exact rfl) counted) _ _
  · exact counted

end

theorem only_fenceCheck {z s : State} {p : Port} (h : onlyLane p.ringLane z s) : onlyLane p.ringLane z (fenceCheck s p) :=
  only_foldS _ _ (fun t x k => by
    split
    · exact only_finishLane _ _ k
    · exact k) s h

theorem ends_fenceCheck (s : State) (p : Port) : endsOnly s (fenceCheck s p) :=
  ends_foldS (fun t x => by
    split
    · exact ends_finishLane _ _ _ _
    · exact ends_refl t) _ s

theorem only_endUnchecked {z s : State} {p : Port} (r : HostRef) (ep : Nat) (e : HostEnd) (h : onlyLane p.ringLane z s) :
    onlyLane p.ringLane z (endUnchecked s p r ep e) := only_modLane _ h

/-! ### A descriptor that ends at once (R308, R316) -/

/-- Its completion goes behind those composed before it. -/
theorem endUnchecked_mbx (s : State) (p : Port) (r : HostRef) (ep : Nat) (e : HostEnd) : (lane (endUnchecked s p r ep e) p.ringLane).mbx =
    { (lane s p.ringLane).mbx with
      composed := (lane s p.ringLane).mbx.composed ++ [completionOf (epochNow s) r ep false false e] } := by
  unfold endUnchecked
  rw [lane_modLane_self]
  rfl

/-! ### Reads: the data goes to host memory, and its completion follows (R314, R316, R414) -/

/-- The words of a read are in host memory. -/
def dataSent (s : State) (p : Port) (at' : BitVec 64) (ws : List Word) (n : Nat) : State :=
  { s with hostMem := .data p at' ws :: s.hostMem, free := s.free + n }

/-- The words that IMAGE_READ returns. -/
def imageWords (s : State) (p : Port) (d : BitVec 512) : List Word :=
  (List.range (dget d 0x20 4 / 4)).map (fun i => imageWord s p.ringLane (dget d 0x18 1) (dget d 0x1C 4 / 4 + i))

/-- Then their bytes feed the contexts (R393), and the completion is composed. -/
def dataRead (s : State) (p : Port) (r : HostRef) (ep cls : Nat) (at' : BitVec 64) (ws : List Word) (n : Nat) (bs : List Byte) (e : HostEnd) : State :=
  endUnchecked (feedUsers (startUsers (dataSent s p at' ws n) p.ringLane p r.sq.val cls) p.ringLane p r.sq.val cls true true bs) p r ep e

section
variable (s : State) (p : Port) (r : HostRef) (d : BitVec 512) (ep cls : Nat) (at' : BitVec 64) (ws : List Word) (n : Nat) (bs : List Byte) (e : HostEnd)

/-- Beside the data, the contexts and the vectors that they send, a read leaves only its completion. -/
theorem dataRead_shows : changesOnly [.eic, .chk, .mbx, .ports, .hostMem, .free] s (dataRead s p r ep cls at' ws n bs e) ∧
    (dataRead s p r ep cls at' ws n bs e).hostMem = .data p at' ws :: s.hostMem ∧
    (lane (dataRead s p r ep cls at' ws n bs e) p.ringLane).mbx = { (lane s p.ringLane).mbx with
      composed := (lane s p.ringLane).mbx.composed ++ [completionOf (epochNow s) r ep false false e] } := by
  have sent : changesOnly [.hostMem, .free] s (dataSent s p at' ws n) :=
    changes_module (s := s) rfl (fun q h => by cases q <;> trivial) (changesOnly_refl _ s)
  have fed : changesOnly [.eic, .chk, .ports] (dataSent s p at' ws n)
      (feedUsers (startUsers (dataSent s p at' ws n) p.ringLane p r.sq.val cls) p.ringLane p r.sq.val cls true true bs) :=
    chg_feedUsers _ _ _ _ _ _ _ _ (by decide) (chg_startUsers _ _ _ _ _ (by decide) (changesOnly_refl _ _))
  have ended := chg_endUnchecked (feedUsers (startUsers (dataSent s p at' ws n) p.ringLane p r.sq.val cls) p.ringLane p r.sq.val cls true true bs)
    p r ep e (by decide) (changesOnly_refl [.mbx] _)
  refine ⟨changes_step (by decide) ended (changes_step (by decide) fed (changes_step (by decide) sent (changesOnly_refl _ s))),
    (hostMem_of ended).trans (hostMem_of fed), ?_⟩
  unfold dataRead
  rw [endUnchecked_mbx, mbx_of fed, epochNow_of fed]
  rfl

theorem only_dataRead {z : State} (h : onlyLane p.ringLane z s) : onlyLane p.ringLane z (dataRead s p r ep cls at' ws n bs e) :=
  only_endUnchecked _ _ _ (only_feedUsers _ _ _ _ _ _ (only_startUsers (only_lanes (t := dataSent s p at' ws n) rfl h) _ _ _))

theorem serveImage_reads : serveImage s p r d ep =
    dataRead s p r ep 0x10 (BitVec.ofNat 64 (dget d 0x28 8)) (imageWords s p d) (imageLength (dget d 0x18 1)) (bytesOf (imageWords s p d))
      (outcomeNow s 0x05 (resultOf r 12 (dget d 0x20 4 + 2 ^ 32 * (imageCycle s p.ringLane (dget d 0x18 1)).toNat))) := rfl

/-- A read of the Cellar first notes the copies that do not verify (R410). -/
theorem serveCellar_reads : ∃ xs ws bs res, serveCellar s p r d ep =
    dataRead (foldS xs (badCopyMet p.ringLane) s) p r ep 0x11 (BitVec.ofNat 64 (dget d 0x30 8)) ws 1048576 bs (outcomeNow s 0x05 res) :=
  ⟨_, _, _, _, rfl⟩

end

theorem only_takeUnchecked (s : State) (p : Port) (r : HostRef) (d : BitVec 512) (x : Option (BitVec 512)) (ep : Nat) :
    onlyLane p.ringLane s (takeUnchecked s p r d x ep) := by
  have same := only_refl p.ringLane s
  unfold takeUnchecked
  split
  · exact only_endUnchecked _ _ _ same
  split
  · exact only_endUnchecked _ _ _ same
  split
  · rw [serveImage_reads]
    exact only_dataRead _ _ _ _ _ _ _ _ _ _ same
  split
  · obtain ⟨xs, ws, bs, res, reads⟩ := serveCellar_reads s p r d ep
    rw [reads]
    exact only_dataRead _ _ _ _ _ _ _ _ _ _ (only_foldS xs _ (fun t y k => only_badCopyMet k y) s same)
  · exact only_fenceCheck (only_modPort p _ (only_modLane _ same))

/-! ### What the ring lane leaves (R308, R314, R319) -/

section
variable {s : State} {p : Port} {r : HostRef} {d : BitVec 512} {ep : Nat}

/-- Outside its form or its epoch the descriptor is refused. -/
theorem takeUnchecked_refused {st : Nat} (h : (slotsOk d none = false ∧ st = 0x37) ∨ (slotsOk d none = true ∧ dEpoch d ≠ epochNow s ∧ st = 0x30)) :
    takeUnchecked s p r d none ep = endUnchecked s p r ep (refusal r d st) := by
  unfold takeUnchecked
  obtain ⟨bad, rfl⟩ | ⟨formed, old, rfl⟩ := h
  · rw [bad]
    rfl
  · rw [formed, Bool.not_true, if_neg Bool.false_ne_true, if_pos old]

section
variable (formed : slotsOk d none = true) (current : dEpoch d = epochNow s)
include formed current

/-- Otherwise its class says what it does. -/
theorem takeUnchecked_served : takeUnchecked s p r d none ep = if dClass d = 0x10 then serveImage s p r d ep
    else if dClass d = 0x11 then serveCellar s p r d ep else takeFence s p r d ep := by
  unfold takeUnchecked
  rw [formed, Bool.not_true, if_neg Bool.false_ne_true, if_neg (not_not_intro current)]

end

theorem lane_modSq (s : State) (p : Port) (q : Nat) (f : Ring → Ring) (l : Lane) : lane (modSq s p q f) l = lane s l := rfl

/-- A fence holds its SQ, and no other descriptor joins the lane's (R319). -/
theorem takeFence_shows (s : State) (p : Port) (r : HostRef) (d : BitVec 512) (ep : Nat) :
    changesOnly [.mbx, .ports] s (takeFence s p r d ep) ∧ (sqOf (takeFence s p r d ep) p r.sq.val).fenced = some r.order ∧
    ∀ y ∈ (lane (takeFence s p r d ep) p.ringLane).mbx.taken, y ∈ (lane s p.ringLane).mbx.taken ∨ y = takenOf r d ep none false := by
  refine ⟨chg_takeFence s p r d ep (by decide) (changesOnly_refl _ s), ?_, fun y hy => ?_⟩
  · unfold takeFence
    rw [sqOf_of (chg_fenceCheck _ p (by decide) (changesOnly_refl [.mbx] _)), sqOf_modSq_self]
  · have kept := (ends_fenceCheck _ p p.ringLane).1 y hy
    rw [lane_modSq, lane_modLane_self] at kept
    simpa using kept

end

/-! ### The commands that take such a descriptor (R304, R410) -/

theorem unchecked_plain {k : Nat} (h : k = 0x10 ∨ k = 0x11 ∨ k = 0x30 ∨ k = 0x3F) : isChecked k = false ∧ isAuthorised k = false := by
  obtain rfl | rfl | rfl | rfl := h <;> decide

/-- The copies that a CELLAR_READ has found bad are noted in the Cellar. -/
def badNoted (s : State) (a b : List CopyAt) : State :=
  { s with cellar := { s.cellar with bad0 := (s.cellar.bad0 ++ a).eraseDups, bad1 := (s.cellar.bad1 ++ b).eraseDups } }

theorem badNoted_frame (s : State) (a b : List CopyAt) : changesOnly [.log] s (badNoted s a b) :=
  changes_module (s := s) rfl (fun q h => by cases q <;> trivial) (changesOnly_refl _ s)

theorem takeSlot_unchecked {s : State} {p : Port} {q : Fin 16} {d : BitVec 512} (may : mayTake s p q d)
    (h : dClass d = 0x10 ∨ dClass d = 0x11 ∨ dClass d = 0x30 ∨ dClass d = 0x3F) : takeSlot s p q d none =
      takeUnchecked (headPassed s p q 1) p (refOf s p q d) d none (cqOf s p (sqOf s p q.val).cq.toNat).epoch := by
  obtain ⟨unchecked, plain⟩ := unchecked_plain h
  rw [takeSlot_plain may plain, takeDesc_turn, unchecked, if_neg Bool.false_ne_true]

/-- The ring lane alone takes the descriptor, a CELLAR_READ after the bad copies are noted. -/
theorem exec_takesUnchecked {c : Instr} {s : State} {p : Port} {q : Fin 16} {d : BitVec 512} (h : takesUnchecked c p q d) (may : mayTake s p q d) :
    ∃ u, changesOnly [.log] s u ∧ u.lanes = s.lanes ∧ u.cellar.log = s.cellar.log ∧ (dClass d ≠ 0x11 → u = s) ∧ exec c s =
      .next (takeUnchecked (headPassed u p q 1) p (refOf s p q d) d none (cqOf s p (sqOf s p q.val).cq.toNat).epoch) := by
  have plain : ∀ k, dClass d = k → k = 0x10 ∨ k = 0x11 ∨ k = 0x30 ∨ k = 0x3F → ∀ {u : State}, mayTake u p q d →
      takeClass u p q d none k =
        takeUnchecked (headPassed u p q 1) p (refOf u p q d) d none (cqOf u p (sqOf u p q.val).cq.toNat).epoch := fun k hk hc u hu =>
    (takeClass_of hk u p q none).trans (takeSlot_unchecked hu (hk ▸ hc))
  obtain ⟨rfl, hk⟩ | ⟨⟨a, b, rfl⟩, hk⟩ | ⟨rfl, hk⟩ | ⟨rfl, hk⟩ := h
  · exact ⟨s, changesOnly_refl _ s, rfl, rfl, fun _ => rfl, congrArg Host.Outcome.next (plain _ hk (by decide) may)⟩
  · exact ⟨badNoted s a b, badNoted_frame s a b, rfl, rfl, fun hn => absurd hk hn,
      congrArg Host.Outcome.next (plain _ hk (by decide) (u := badNoted s a b) may)⟩
  · exact ⟨s, changesOnly_refl _ s, rfl, rfl, fun _ => rfl, congrArg Host.Outcome.next (plain _ hk (by decide) may)⟩
  · exact ⟨s, changesOnly_refl _ s, rfl, rfl, fun _ => rfl, congrArg Host.Outcome.next (plain _ hk (by decide) may)⟩

end Sys2Proof.Laws

/-! ## What a port does with the slots of reads and fences (R305, R308, R314, R319, R320, R414) -/

namespace Sys2Proof.Laws

open Sys2Proof Sys2Proof.Machine Sys2Proof.Safety

theorem outcomeNow_of {ps : List Part} {s t : State} (h : changesOnly ps s t) (hp : ps.contains .clock = false := by rfl) (status : Nat)
    (result : BitVec 128) : outcomeNow t status result = outcomeNow s status result := by
  have same : ({ t.mod with st := .boot } : Module) = { s.mod with st := .boot } := (h .clock hp).1
  have cycle := congrArg Module.cycle same
  have time := congrArg Module.tickTime same
  dsimp only at cycle time
  unfold outcomeNow
  rw [cycle, time]

/-! ### The SQs in their turns (R320) -/

theorem sqServed_iff (s : State) (p : Port) (q : Fin 16) : sqServed s p q = true ↔
    sqReady s p q.val = true ∧ (((s.ports.get p).turnSq = q ∧ 0 < (s.ports.get p).turnLeft) ∨ nextSq s p = some q) := by
  unfold sqServed
  rw [Bool.and_eq_true, Bool.or_eq_true, Bool.and_eq_true, decide_eq_true_eq, decide_eq_true_eq, decide_eq_true_eq]

theorem nextSq_ready {s : State} {p : Port} {o : Fin 16} (h : nextSq s p = some o) : sqReady s p o.val = true := by
  unfold nextSq at h
  exact List.find?_some (p := fun q : Fin 16 => sqReady s p q.val) h

/-! ### The rows of the slots -/

section
variable {c : Instr} {s : State} {p : Port} {q : Fin 16} {d : BitVec 512} (h : takesUnchecked c p q d) (may : mayTake s p q d)
include h may

/-- The other lanes have no part in it. -/
theorem unchecked_alone {l : Lane} (hl : l ≠ p.ringLane) : ∃ t, exec c s = .next t ∧ lane t l = lane s l := by
  obtain ⟨u, -, lanes, -, -, run⟩ := exec_takesUnchecked h may
  exact ⟨_, run, (only_takeUnchecked (headPassed u p q 1) p _ d none _ l hl).trans (only_lanes lanes (only_refl p.ringLane s) l hl)⟩

/-- A slot outside its form or its epoch is refused by the ring lane. -/
theorem unchecked_refused {st : Nat} (bad : (slotsOk d none = false ∧ st = 0x37) ∨ (slotsOk d none = true ∧ dEpoch d ≠ epochNow s ∧ st = 0x30)) :
    ∃ t, exec c s = .next t ∧ changesOnly [.mbx, .ports, .log] s t ∧ t.cellar.log = s.cellar.log ∧
      sqOf t p q.val = { sqOf s p q.val with head := advance (sqOf s p q.val) (sqOf s p q.val).head 1 } ∧
      (lane t p.ringLane).mbx = { (lane s p.ringLane).mbx with composed := (lane s p.ringLane).mbx.composed ++
        [completionOf (epochNow s) (refOf s p q d) (cqOf s p (sqOf s p q.val).cq.toNat).epoch false false (refusal (refOf s p q d) d st)] } := by
  obtain ⟨u, noted, -, log, -, run⟩ := exec_takesUnchecked h may
  obtain ⟨passed, own, -⟩ := headPassed_shows u p q 1
  have before := changes_step (ps := [.ports, .log]) (by decide) passed (changes_step (by decide) noted (changesOnly_refl _ s))
  rw [takeUnchecked_refused (by rw [epochNow_of before]; exact bad)] at run
  have ended := chg_endUnchecked (headPassed u p q 1) p (refOf s p q d) (cqOf s p (sqOf s p q.val).cq.toNat).epoch (refusal (refOf s p q d) d st)
    (by decide) (changesOnly_refl [.mbx] _)
  refine ⟨_, run, changes_step (by decide) ended (changes_step (by decide) before (changesOnly_refl _ s)), ?_, ?_, ?_⟩
  · rw [cellar_of ended, cellar_of passed, log]
  · obtain ⟨-, alone, -, -⟩ := may
    rw [sqOf_of ended, own, sqOf_of noted, ← alone]
  · rw [endUnchecked_mbx, mbx_of before, epochNow_of before]

section
variable (formed : slotsOk d none = true) (current : dEpoch d = epochNow s)
include formed current

/-- A slot in form and epoch acts by its class, once the head of its ring has passed it. -/
theorem unchecked_served : ∃ u, changesOnly [.ports, .log] s u ∧ (dClass d ≠ 0x11 → u = headPassed s p q 1) ∧ exec c s =
    .next (if dClass d = 0x10 then serveImage u p (refOf s p q d) d (cqOf s p (sqOf s p q.val).cq.toNat).epoch
      else if dClass d = 0x11 then serveCellar u p (refOf s p q d) d (cqOf s p (sqOf s p q.val).cq.toNat).epoch
      else takeFence u p (refOf s p q d) d (cqOf s p (sqOf s p q.val).cq.toNat).epoch) := by
  obtain ⟨u, noted, -, -, same, run⟩ := exec_takesUnchecked h may
  have before := changes_step (ps := [.ports, .log]) (by decide) (headPassed_shows u p q 1).1 (changes_step (by decide) noted (changesOnly_refl _ s))
  rw [takeUnchecked_served formed (by rw [epochNow_of before]; exact current)] at run
  exact ⟨_, before, fun hk => by rw [same hk], run⟩

/-- IMAGE_READ (R314). -/
theorem imageRead_row (hk : dClass d = 0x10) : ∃ t ws, exec c s = .next t ∧ changesOnly [.eic, .chk, .mbx, .ports, .hostMem, .free] s t ∧
    t.hostMem = .data p (BitVec.ofNat 64 (dget d 0x28 8)) ws :: s.hostMem ∧
    ws = imageWords s p d ∧
    ∃ res, (lane t p.ringLane).mbx = { (lane s p.ringLane).mbx with composed := (lane s p.ringLane).mbx.composed ++
      [completionOf (epochNow s) (refOf s p q d) (cqOf s p (sqOf s p q.val).cq.toNat).epoch false false
        { status := 0x05, term := 0x7F, cycle := s.mod.cycle, time := s.mod.tickTime, result := res }] } ∧
      res.toNat % 2 ^ 96 = dget d 0x20 4 + 2 ^ 32 * (imageCycle s p.ringLane (dget d 0x18 1)).toNat := by
  obtain ⟨u, before, same, run⟩ := unchecked_served h may formed current
  obtain rfl := same (by rw [hk]; decide)
  rw [if_pos hk, serveImage_reads] at run
  obtain ⟨frame, sent, composed⟩ := dataRead_shows (headPassed s p q 1) p (refOf s p q d) (cqOf s p (sqOf s p q.val).cq.toNat).epoch 0x10
    (BitVec.ofNat 64 (dget d 0x28 8)) (imageWords s p d) (imageLength (dget d 0x18 1)) (bytesOf (imageWords s p d))
    (outcomeNow s 0x05 (resultOf (refOf s p q d) 12 (dget d 0x20 4 + 2 ^ 32 * (imageCycle s p.ringLane (dget d 0x18 1)).toNat)))
  refine ⟨_, _, run, changes_step (by decide) frame (changes_step (by decide) (headPassed_shows s p q 1).1 (changesOnly_refl _ s)), sent, rfl, _,
    composed, (resultOf_known _ _ (by decide)).trans (Nat.mod_eq_of_lt ?_)⟩
  have low : dget d 0x20 4 < 2 ^ 32 := Nat.mod_lt _ (Nat.two_pow_pos _)
  have high := (imageCycle s p.ringLane (dget d 0x18 1)).isLt
  omega

/-- CELLAR_READ (R414). -/
theorem cellarRead_row (hk : dClass d = 0x11) : ∃ t ws, exec c s = .next t ∧ changesOnly (records ++ [.chk, .mbx, .hostMem, .free]) s t ∧
    t.hostMem = .data p (BitVec.ofNat 64 (dget d 0x30 8)) ws :: s.hostMem ∧
    ∃ res, (lane t p.ringLane).mbx = { (lane s p.ringLane).mbx with composed := (lane s p.ringLane).mbx.composed ++
      [completionOf (epochNow s) (refOf s p q d) (cqOf s p (sqOf s p q.val).cq.toNat).epoch false false
        { status := 0x05, term := 0x7F, cycle := s.mod.cycle, time := s.mod.tickTime, result := res }] } := by
  obtain ⟨u, before, -, run⟩ := unchecked_served h may formed current
  obtain ⟨xs, ws, bs, res, reads⟩ := serveCellar_reads u p (refOf s p q d) d (cqOf s p (sqOf s p q.val).cq.toNat).epoch
  rw [if_neg (by rw [hk]; decide), if_pos hk, reads] at run
  have met : changesOnly (records ++ [.free]) u (foldS xs (badCopyMet p.ringLane) u) :=
    changes_foldS xs _ (fun t x k => chg_badCopyMet p.ringLane t x (by decide) k) (changesOnly_refl _ u)
  have found := changes_step (ps := records ++ [.free]) (by decide) met (changes_step (by decide) before (changesOnly_refl _ s))
  obtain ⟨frame, sent, composed⟩ := dataRead_shows (foldS xs (badCopyMet p.ringLane) u) p (refOf s p q d)
    (cqOf s p (sqOf s p q.val).cq.toNat).epoch 0x11 (BitVec.ofNat 64 (dget d 0x30 8)) ws 1048576 bs (outcomeNow u 0x05 res)
  rw [hostMem_of found] at sent
  rw [mbx_of found, epochNow_of found] at composed
  refine ⟨_, ws, run, changes_step (by decide) frame (changes_step (by decide) found (changesOnly_refl _ s)), sent, res, ?_⟩
  rw [composed, outcomeNow_of before]
  rfl

/-- A FENCE (R319). -/
theorem fence_row (hk : dClass d = 0x30) : ∃ t, exec c s = .next t ∧ changesOnly [.mbx, .ports] s t ∧
    (sqOf t p q.val).fenced = some (refOf s p q d).order ∧ ∀ y ∈ (lane t p.ringLane).mbx.taken, y ∈ (lane s p.ringLane).mbx.taken ∨
      y = takenOf (refOf s p q d) d (cqOf s p (sqOf s p q.val).cq.toNat).epoch none false := by
  obtain ⟨u, before, same, run⟩ := unchecked_served h may formed current
  obtain rfl := same (by rw [hk]; decide)
  rw [if_neg (by rw [hk]; decide), if_neg (by rw [hk]; decide)] at run
  obtain ⟨frame, fenced, taken⟩ := takeFence_shows (headPassed s p q 1) p (refOf s p q d) d (cqOf s p (sqOf s p q.val).cq.toNat).epoch
  exact ⟨_, run, changes_step (by decide) frame (changes_step (by decide) (headPassed_shows s p q 1).1 (changesOnly_refl _ s)), fenced, taken⟩

end
end

end Sys2Proof.Laws

/-! ## Completions that a port writes, and the statement of reads and completions (R301, R316, R319, R324, R404) -/

namespace Sys2Proof.Laws

open Sys2Proof Sys2Proof.Machine Sys2Proof.Safety

/-! ### The completion that is written (R301, R316, R320) -/

/-- Where every CQ has stayed enabled no completion is dropped (R301). -/
theorem dropCompletions_none {s : State} {f : Completion → Bool} (h : ∀ l, ∀ c ∈ (lane s l).mbx.composed, f c = false) : dropCompletions s f = s := by
  refine congrArg (fun x => ({ s with lanes := x } : State)) (perLane_ext fun l => ?_)
  rw [get_map]
  dsimp only
  rw [List.filter_eq_self.2 fun c hc => by rw [h l c hc]; rfl]

theorem nextCompletion_port {s : State} {p : Port} {c : Completion} (h : nextCompletion s p = some c) : c.ref.port = p := by
  have ready : completionReady s p c = true := by
    unfold nextCompletion at h
    dsimp only at h
    split at h
    · next x hx =>
      obtain rfl := Option.some.inj h
      exact (Bool.and_eq_true_iff.1 (List.find?_some (p := fun x : Completion => isProcess x.ref.cls.toNat && completionReady s p x) hx)).2
    · exact List.find?_some h
  unfold completionReady at ready
  simp only [Bool.and_eq_true, decide_eq_true_eq] at ready
  exact ready.1.1.1.1

theorem exec_completionWrite {s : State} {p : Port} (hr : runs s p.ringLane = true) (hu : (s.ports.get p).linkUp = true)
    (hp : (s.ports.get p).paused = false) (continuous : ∀ l, ∀ c ∈ (lane s l).mbx.composed, c.ref.port = p → cqContinuous s c = true) {c : Completion}
    (h : nextCompletion s p = some c) : exec (.completionWrite p) s = .next (fenceCheck (writeCompletion s p c) p) := by
  refine congrArg Host.Outcome.next ((if_neg ?_).trans ?_)
  · unfold ringRuns
    rw [hr, hu, hp]
    exact Bool.false_ne_true
  · dsimp only
    rw [dropCompletions_none fun l c hc => ?_, h]
    by_cases hpc : c.ref.port = p
    · rw [continuous l c hc hpc, Bool.not_true, Bool.and_false]
    · rw [decide_eq_false hpc, Bool.false_and]

/-! ### Its entry in the ring (R301, R316, R319) -/

/-- A completion ring with one entry more. -/
def movedOn (r : Ring) : Ring :=
  { r with tail := advance r r.tail 1, phase := if advance r r.tail 1 = 0 then !r.phase else r.phase }

/-- The entry in host memory, and its ring moved on. -/
def entryWritten (s : State) (p : Port) (c : Completion) : State :=
  let r := cqOf s p c.ref.cq.val
  modCq { s with hostMem := .completion p c.ref.cq r.tail (completionBits s p c r.phase) :: s.hostMem } p c.ref.cq.val
    (fun x => { x with tail := advance r r.tail 1, phase := if advance r r.tail 1 = 0 then !x.phase else x.phase })

/-- Every lane is done with the completion. -/
def settled (s : State) (c : Completion) : State := modLanes (dropCompletions s (fun x => decide (x = c))) (fun _ L => settleTaken c L)

/-- The completion of a FENCE frees the SQ that waits for it. -/
def fenceFreed (s : State) (p : Port) (c : Completion) : State := if c.ref.cls = 0x30 then modSq s p c.ref.sq.val (freeFence c) else s

theorem writeCompletion_steps (s : State) (p : Port) (c : Completion) : writeCompletion s p c =
    signalCompletion (countCompletion (fenceFreed (settled (entryWritten s p c) c) p c) p c) p c := rfl

section
variable (s : State) (p : Port) (c : Completion)

theorem entryWritten_cq : cqOf (entryWritten s p c) p c.ref.cq.val = movedOn (cqOf s p c.ref.cq.val) := cqOf_modCq_self _ p _ _

theorem entryWritten_cq_other {m : Nat} (h : m ≠ c.ref.cq.val) : cqOf (entryWritten s p c) p m = cqOf s p m := cqOf_modCq_other _ p _ h

theorem entryWritten_sq (m : Nat) : sqOf (entryWritten s p c) p m = sqOf s p m := sqOf_modCq _ p p _ m _

theorem entryWritten_hostMem : (entryWritten s p c).hostMem =
    .completion p c.ref.cq (cqOf s p c.ref.cq.val).tail (completionBits s p c (cqOf s p c.ref.cq.val).phase) :: s.hostMem := rfl

theorem entryWritten_life : (entryWritten s p c).cellar.life = s.cellar.life := rfl

theorem settled_frame : changesOnly [.mbx] s (settled s c) :=
  changes_modLanes _ (fun l => chg_settleTaken c _ (by decide) (laneOnly_refl _ _)) (chg_dropCompletions s _ (by decide) (changesOnly_refl _ s))

theorem fenceFreed_frame : changesOnly [.ports] s (fenceFreed s p c) := by
  unfold fenceFreed
  split
  · exact chg_modSq s p _ _ (by decide) (changesOnly_refl _ s)
  · exact changesOnly_refl _ s

theorem fenceFreed_cq (m : Nat) : cqOf (fenceFreed s p c) p m = cqOf s p m := by
  unfold fenceFreed
  split
  · exact cqOf_modSq s p p _ m _
  · rfl

/-- Only the SQ that waits for this very completion is freed. -/
theorem fenceFreed_fenced (m : Nat) : (sqOf (fenceFreed s p c) p m).fenced =
    if c.ref.cls = 0x30 ∧ m = c.ref.sq.val ∧ (sqOf s p m).fenced = some c.ref.order then none else (sqOf s p m).fenced := by
  unfold fenceFreed
  by_cases fence : c.ref.cls = 0x30
  · rw [if_pos fence, sqOf_modSq]
    by_cases own : m = c.ref.sq.val
    · rw [if_pos own, ← own]
      unfold freeFence
      by_cases waits : (sqOf s p m).fenced = some c.ref.order
      · rw [if_pos waits, if_pos ⟨fence, rfl, waits⟩]
      · rw [if_neg waits, if_neg fun h => waits h.2.2]
    · rw [if_neg own, if_neg fun h => own h.2.1]
  · rw [if_neg fence, if_neg fun h => fence h.1]

/-! ### Its counts and its vector (R324, R328, R404) -/

theorem vectors_countCompletion : vectorsOnly s (countCompletion s p c) := by
  have refused : vectorsOnly s (whenS (decide (c.status.toNat ≥ 0x30))
      (fun s => modLife s (fun f => { f with refuse := f.refuse.set p (satInc (f.refuse.get p)) })) s) := by
    unfold whenS
    split
    · exact vectors_refl s
    · exact vectors_refl s
  unfold countCompletion
  dsimp only
  split
  · exact vectors_trans refused (vectors_eventLane (modLife _ _) _ _ _ _)
  · split
    · exact vectors_trans refused (vectors_eventLane (modLife _ _) _ _ _ _)
    · exact refused

/-- A refusal is counted once at its port. -/
theorem countCompletion_refused (h : 0x30 ≤ c.status.toNat) :
    (countCompletion s p c).cellar.life.refuse.get p = satInc (s.cellar.life.refuse.get p) := by
  have counted : (s.cellar.life.refuse.set p (satInc (s.cellar.life.refuse.get p))).get p = satInc (s.cellar.life.refuse.get p) := by
    cases p <;> rfl
  unfold countCompletion whenS
  dsimp only
  rw [decide_eq_true h, if_pos rfl]
  split
  · rw [lifetime_of (chg_eventLane _ _ _ _ _ (by decide) (changesOnly_refl records _))]
    exact counted
  · split
    · rw [lifetime_of (chg_eventLane _ _ _ _ _ (by decide) (changesOnly_refl records _))]
      exact counted
    · exact counted

/-- The interrupt of a completion changes at most whether its CQ has one due. -/
theorem signalCompletion_rings : (∀ m, sqOf (signalCompletion s p c) p m = sqOf s p m) ∧
    (∃ b, cqOf (signalCompletion s p c) p c.ref.cq.val = { cqOf s p c.ref.cq.val with unsignalled := b }) ∧
    ∀ m, m ≠ c.ref.cq.val → cqOf (signalCompletion s p c) p m = cqOf s p m := by
  unfold signalCompletion
  dsimp only
  split
  · split
    · have sends := vectors_sendVector (modCq s p c.ref.cq.val (fun r => { r with unsignalled := false })) p c.ref.cq.val
      obtain ⟨-, own, others, sqs, -⟩ := modCq_shows s p c.ref.cq.val (fun r => { r with unsignalled := false })
      exact ⟨fun m => (sqOf_vectors sends p m).trans (sqs m), ⟨false, (cqOf_vectors sends p _).trans own⟩,
        fun m hm => (cqOf_vectors sends p m).trans (others m hm)⟩
    · obtain ⟨-, own, others, sqs, -⟩ := modCq_shows s p c.ref.cq.val (fun r => { r with unsignalled := true })
      exact ⟨sqs, ⟨true, own⟩, others⟩
  · exact ⟨fun _ => rfl, ⟨_, rfl⟩, fun _ _ => rfl⟩

/-! ### What the write leaves -/

theorem writeCompletion_hostMem : (writeCompletion s p c).hostMem =
    .completion p c.ref.cq (cqOf s p c.ref.cq.val).tail (completionBits s p c (cqOf s p c.ref.cq.val).phase) :: s.hostMem := by
  rw [writeCompletion_steps, hostMem_of (chg_signalCompletion _ p c (by decide) (changesOnly_refl [.ports] _)),
    hostMem_of (chg_countCompletion _ p c (by decide) (changesOnly_refl (records ++ [.lifetime]) _)), hostMem_of (fenceFreed_frame _ p c),
    hostMem_of (settled_frame _ c), entryWritten_hostMem]

theorem writeCompletion_refused (h : 0x30 ≤ c.status.toNat) :
    (writeCompletion s p c).cellar.life.refuse.get p = satInc (s.cellar.life.refuse.get p) := by
  rw [writeCompletion_steps, lifetime_of (chg_signalCompletion _ p c (by decide) (changesOnly_refl [.ports] _)), countCompletion_refused _ p c h,
    lifetime_of (fenceFreed_frame _ p c), lifetime_of (settled_frame _ c), entryWritten_life]

/-- The rings of the port after the write. -/
theorem writeCompletion_rings :
    (∃ b, cqOf (writeCompletion s p c) p c.ref.cq.val = { movedOn (cqOf s p c.ref.cq.val) with unsignalled := b }) ∧
    (∀ m, m ≠ c.ref.cq.val → cqOf (writeCompletion s p c) p m = cqOf s p m) ∧
    ∀ m, (sqOf (writeCompletion s p c) p m).fenced =
      if c.ref.cls = 0x30 ∧ m = c.ref.sq.val ∧ (sqOf s p m).fenced = some c.ref.order then none else (sqOf s p m).fenced := by
  have sends := vectors_countCompletion (fenceFreed (settled (entryWritten s p c) c) p c) p c
  have cqs : ∀ m, cqOf (countCompletion (fenceFreed (settled (entryWritten s p c) c) p c) p c) p m = cqOf (entryWritten s p c) p m := fun m => by
    rw [cqOf_vectors sends, fenceFreed_cq, cqOf_of (settled_frame _ c)]
  obtain ⟨sq, ⟨b, own⟩, others⟩ := signalCompletion_rings (countCompletion (fenceFreed (settled (entryWritten s p c) c) p c) p c) p c
  rw [cqs, entryWritten_cq] at own
  refine ⟨⟨b, own⟩, fun m hm => (others m hm).trans ((cqs m).trans (entryWritten_cq_other s p c hm)), fun m => ?_⟩
  rw [writeCompletion_steps, sq, sqOf_vectors sends, fenceFreed_fenced, sqOf_of (settled_frame _ c), entryWritten_sq]

end

/-! ### The statement -/

/-- Settles O48: reads send their data before their completion, a fence holds its SQ, and a completion moves its CQ on and frees its fence. -/
theorem readsAndCompletions : Obligations.ReadsAndCompletions := by
  intro s p q d sq r e w
  refine ⟨sqServed_iff s p q, fun o => nextSq_ready, fun c takes may => ⟨fun l hl => unchecked_alone takes may hl,
    fun st => unchecked_refused takes may, fun formed current => ⟨imageRead_row takes may formed current, cellarRead_row takes may formed current,
      fence_row takes may formed current⟩⟩, fun idle => ?_, fun hr hu hp continuous c next => ?_⟩
  · refine congrArg Host.Outcome.next (if_pos ?_)
    unfold ringRuns
    obtain h | h | h := idle <;> simp [w, h]
  · have run := exec_completionWrite hr hu hp continuous next
    have checked := chg_fenceCheck (writeCompletion s p c) p (by decide) (changesOnly_refl [.mbx] _)
    obtain ⟨⟨b, own⟩, others, fenced⟩ := writeCompletion_rings s p c
    have moved := (cqOf_of checked rfl p c.ref.cq.val).trans own
    refine ⟨_, run, frame_next run (chg_execCompletionWrite p s s (by decide) (changesOnly_refl _ s)),
      (hostMem_of checked).trans (writeCompletion_hostMem s p c), by rw [moved]; rfl, by rw [moved]; rfl, by rw [moved]; rfl,
      fun m hm => (cqOf_of checked rfl p m).trans (others m hm), fun m => by rw [sqOf_of checked]; exact fenced m,
      fun refused => by rw [lifetime_of checked]; exact writeCompletion_refused s p c refused⟩

end Sys2Proof.Laws
